-- ==== Sys2Proof/Word.lean ====
section
/-!
DEFINITION. Words, bytes and the sparse maps that hold every table of the device.
-/

namespace Sys2Proof

/-- A byte. -/
abbrev Byte := BitVec 8

/-- A 16-bit word. -/
abbrev W16 := BitVec 16

/-- A 32-bit word: a BAR0 register (R8), a scalar register or a vector lane (Table 2-2). -/
abbrev W32 := BitVec 32

/-- A 64-bit word: outward time in nanoseconds (R208). -/
abbrev W64 := BitVec 64

/-- A sparse table: key and value pairs. A key that is not listed has the table's default. -/
abbrev Map (α : Type) := List (Nat × α)

/-- The value at a key; `d` is the default of an unlisted key. -/
def Map.get {α : Type} (d : Nat → α) : Map α → Nat → α
  | [], k => d k
  | (j, v) :: m, k => if j = k then v else Map.get d m k

/-- Puts a value at a key, keeping rising order of a table that rises. -/
def Map.put {α : Type} : Map α → Nat → α → Map α
  | [], k, v => [(k, v)]
  | (j, w) :: m, k, v =>
    if k < j then (k, v) :: (j, w) :: m
    else if k = j then (k, v) :: m
    else (j, w) :: Map.put m k v

/-- Takes every entry of a key out. -/
def Map.del {α : Type} (m : Map α) (k : Nat) : Map α := m.filter (fun e => e.1 ≠ k)

/-- The canonical write: a value equal to the default of its key takes the entry out. -/
def Map.set {α : Type} [DecidableEq α] (d : Nat → α) (m : Map α) (k : Nat) (v : α) : Map α :=
  if v = d k then Map.del m k else Map.put m k v

/-- The value of a listed key. -/
def Map.find? {α : Type} : Map α → Nat → Option α
  | [], _ => none
  | (j, v) :: m, k => if j = k then some v else Map.find? m k

/-- Keys strictly rise from a bound. -/
def Map.risesFrom {α : Type} : Nat → Map α → Bool
  | _, [] => true
  | b, (j, _) :: m => decide (b ≤ j) && Map.risesFrom (j + 1) m

/-- The canonical form: keys strictly rise and no entry equals the default of its key. -/
def Map.wf {α : Type} [DecidableEq α] (d : Nat → α) (m : Map α) : Bool :=
  Map.risesFrom 0 m && m.all (fun e => decide (e.2 ≠ d e.1))

/-- Bits `hi..lo` of a word as a number, counted from bit `lo` for `w` bits. -/
def bitsOf (v : Nat) (lo w : Nat) : Nat := v / 2 ^ lo % 2 ^ w

/-- A word with the `w` bits from `lo` replaced. -/
def withBits (v : Nat) (lo w x : Nat) : Nat :=
  v - bitsOf v lo w * 2 ^ lo + (x % 2 ^ w) * 2 ^ lo

/-- The number `v` as a signed value of `w` bits. -/
def sgn (w v : Nat) : Int :=
  if 2 * (v % 2 ^ w) < 2 ^ w then ((v % 2 ^ w : Nat) : Int) else ((v % 2 ^ w : Nat) : Int) - ((2 ^ w : Nat) : Int)

/-- An integer taken modulo `2 ^ w`. -/
def wrap (w : Nat) (x : Int) : Nat := (x % ((2 ^ w : Nat) : Int)).toNat

/-- An integer held within bounds. -/
def clampInt (lo hi x : Int) : Int := if x < lo then lo else if hi < x then hi else x

/-- The little-endian bytes of a number. -/
def leBytes : Nat → Nat → List Byte
  | 0, _ => []
  | n + 1, v => BitVec.ofNat 8 v :: leBytes n (v / 256)

/-- The number that little-endian bytes spell. -/
def ofLe : List Byte → Nat
  | [] => 0
  | b :: bs => b.toNat + 256 * ofLe bs

/-- The big-endian bytes of a number (R8: network formats). -/
def beBytes (n v : Nat) : List Byte := (leBytes n v).reverse

/-- The number that big-endian bytes spell. -/
def ofBe (bs : List Byte) : Nat := ofLe bs.reverse

/-- The signed difference of two outward times (R209). -/
def timeDiff (a b : W64) : Int := (a - b).toInt

/-- The signed 32-bit difference by which epochs are compared (R118). -/
def epochDiff (a b : W32) : Int := (a - b).toInt

end Sys2Proof
end

