-- ==== Sys2Proof/Config.lean ====
section
/-!
DEFINITION. What the manual fixes per implementation without a value, and the free values: constants without a body,
so no proof can see what they are. Each is named in the assumption log (log 3).
-/

namespace Sys2Proof

/-- Stall cycles of one issued instruction (R109: CYCLES depends on timing). Free. -/
opaque Config.stallCycles : Nat → Nat

/-- A byte of a scratch area before its run writes it, by the descriptor of its task and the offset: R50 lets a task
depend on nothing else that is not given. Free. -/
opaque Config.scratchByte : List (BitVec 32) → Nat → BitVec 8

/-- Where a task sees its scratch area, in 256-byte units (cr.tbase, Table 2-3), by its descriptor (R50). Free. -/
opaque Config.scratchBase : List (BitVec 32) → BitVec 12

/-- Whether a staged byte of a squashed run had reached the slot (R42). The draw, then the offset. Free. -/
opaque Config.stagedReached : Nat → Nat → Bool

/-- The MiB at which ALLOC places an allocation (R292 does not say which free range). Free. -/
opaque Config.allocAt : Nat → Nat

/-- The handle that PKT.ALLOC or a packet arrival gives a buffer (R81). 0 means that none was free. Free. -/
opaque Config.pktHandle : Nat → BitVec 32

/-- A byte of a packet buffer that nothing has written, by the buffer's draw and the offset (R249 gives a new buffer no
contents). Free. -/
opaque Config.pktByte : Nat → Nat → BitVec 8

/-- The frame length of a packet buffer before PKT.LEN, by the buffer's draw. Free. -/
opaque Config.pktLen : Nat → Nat

/-- The back-off draw of a 10BASE-T1S port (R265). Free; the port takes it modulo its range. -/
opaque Config.backoffDraw : Nat → Nat

/-- The tagging interval draw of a core (R367): the seed, the core number, the draw. Free. -/
opaque Config.tagDraw : Nat → Nat → Nat → Nat

/-- Whether a factory trim word of OTP meets its check: the trim's number and the word (R361). The manual does not give the
check. -/
opaque Config.trimCheck : Nat → BitVec 32 → Bool

/-- A trim's mid-range value, which a word that fails its check is loaded at (R361). Free: the manual gives no number. -/
opaque Config.trimMid : Nat → BitVec 16

/-- SHA-384 of a byte string, as a number of 384 bits (R344). Uninterpreted. -/
opaque Config.sha384 : List (BitVec 8) → Nat

/-- Whether a signature of a digest verifies under a key, ECDSA P-384 (R344, R352): key, signature, digest. -/
opaque Config.ecdsaP384 : List (BitVec 8) → List (BitVec 8) → Nat → Bool

/-- The digest that identifies Ahnow's manufacturing key (Table 13-1). Not in the manual. -/
opaque Config.mfgKeyHash : Nat

/-- The digest that identifies the Ahnow RMA key (Table 13-1). Not in the manual. -/
opaque Config.rmaKeyHash : Nat

/-- The length of an unlock record (R352 does not give its form). Not in the manual. -/
opaque Config.unlockLen : Nat

/-- Whether a byte string is an unlock record signed under a key, by its digest, that names a die's unique ID (R352).
Uninterpreted: the manual does not give the record's form. -/
opaque Config.unlockRecord : Nat → List (BitVec 32) → List (BitVec 8) → Bool

/-- A control register that R23 gives a task with no canvas, or no epoch, without stating its value. The register
number, then the task's descriptor (R50). Free. -/
opaque Config.crOpen : Nat → List (BitVec 32) → BitVec 32

/-- The rate term of a sample that arrives in the same nanosecond as the one before, which R215 divides by their zero
distance. Free. -/
opaque Config.rateOpen : Nat → Int

/-- SEQ of a HOLD to all nodes, which R188 does not count. Free. -/
opaque Config.holdSeq : Nat → BitVec 16

/-- A PTP frame that the service program of SCHED.SVC = 1 sends outward (R222): whether an Announce, port, PROFILE, OUT_DOM,
domain followed, and the draw. The manual gives none of its bytes but those of R222 and R225. Free. -/
opaque Config.ptpFrame : Bool → Nat → Nat → Nat → Nat → Nat → List (BitVec 8)

/-- Whether an Announce goes with a Sync, for which R222 states no interval. The draw. Free. -/
opaque Config.announceDue : Nat → Bool

/-- The VDD_CORE target in mV from trims, temperature and frequency (R331). The draw. Free within R331's range. -/
opaque Config.avsTarget : Nat → Nat

/-- What ETAB.RD returns to a service-privileged task for an endpoint number at or above 131,072, which R78 lets it name
without stating a value. The number, then the word. Free. -/
opaque Config.etabOpen : Nat → Nat → BitVec 32

/-- The lane of the twin link that carries a record while both have link (R303 spreads records over both). Free. -/
opaque Config.twinLane : Nat → Bool

/-- The CK_CORE frequency in MHz that a core voltage in mV allows (R332). Free; at most the 1,200 MHz of Table 1-7. -/
opaque Config.coreAllowed : Nat → Nat

/-- A byte of the IP and UDP headers of a message that the device sends over UDP: IPv6, destination address, source and
destination ports, message, index. The manual does not give the device's address. Free. -/
opaque Config.udpHeader : Bool → Nat → Nat → Nat → List (BitVec 8) → Nat → BitVec 8

/-- A staged or written value that another task may read before FENCE or DONE makes it visible (R48). Free. -/
opaque Config.earlyVisible : Nat → Nat → Bool

end Sys2Proof
end

