-- ==== Sys2Proof/Syntax.lean ====
section
/-!
DEFINITION. The commands of the device: one constructor for each row of the table of operations and events.
A number names which one of a repeated thing is meant: a core, a canvas, a port, a ring, a function.
-/

namespace Sys2Proof

/-- The operand fields of an instruction word (R32): d [57:53], a [52:48], b [47:43], predicate [42:40],
immediate [31:0]. -/
structure F where
  d : BitVec 5
  a : BitVec 5
  b : BitVec 5
  p : BitVec 3
  imm : W32
deriving DecidableEq, Repr

/-- Word 0 of a command entry (R289) without OP and EXT, and the ring it stands in. -/
structure Cmd where
  ring : Nat
  tag : W16
  ctx : BitVec 7
deriving DecidableEq, Repr

/-- The target words 3 to 5 of a command (R290). -/
structure Tgt where
  w3 : W32
  w4 : W32
  w5 : W32
deriving DecidableEq, Repr

/-- A posted RX buffer (R256): bus address and size. -/
structure RxPost where
  addr : W64
  size : Nat
deriving DecidableEq, Repr

/-- What the device had fetched of an unstarted entry when a flush completes it (R288): the tag of a command or
frame, its context, its OP, and how many ring entries it spans. -/
structure FlushedEntry where
  tag : W16
  ctx : BitVec 7
  op : Byte
  span : Nat
deriving DecidableEq, Repr

/-- A received frame: its time at the port's timestamp point, before the correction of RX_LAT (R224), its bytes from
destination MAC to the end without FCS, whether it has an FCS error or a PCS code error (R255), and whether a word of it
fails parity in the receive buffer (R286). -/
structure RxFrame where
  at_ : W64
  frac : W16
  bytes : List Byte
  fcs : Bool
  code : Bool
  poisoned : Bool
deriving DecidableEq, Repr

/-- One sample-row data header of an ST 2110-20 packet with its bytes (R260): row, pixel offset within the row in
bytes, and data. -/
structure VideoRow where
  row : Nat
  byteOff : Nat
  data : List Byte
deriving DecidableEq, Repr

/-- The RTP payload of an ST 2110-20 packet (R260): extended sequence number, RTP timestamp, field bit, rows. -/
structure VideoPkt where
  seq : Nat
  ts : W32
  fieldBit : Bool
  rows : List VideoRow
deriving DecidableEq, Repr

/-- The RTP payload of an ST 2110-30 packet (R261): extended sequence number, extended RTP timestamp of the first sample,
and the samples, one list of channel words for each sample time. -/
structure AudioPkt where
  seq : Nat
  ts : Nat
  samples : List (List (BitVec 24))
deriving DecidableEq, Repr

/-- A timecode word as it is decoded (R80, R262): drop-frame flag, and hours, minutes, seconds and frames as numbers. -/
structure TcWord where
  drop : Bool
  hours : Nat
  minutes : Nat
  seconds : Nat
  frames : Nat
deriving DecidableEq, Repr

/-- The RTP payload of an ST 2110-40 packet (R262): extended sequence number, DID, SDID and the timecode word it holds. -/
structure AncPkt where
  seq : Nat
  did : Byte
  sdid : Byte
  tc : TcWord
deriving DecidableEq, Repr

/-- The payload of an sACN data packet (R263): universe, source CID, priority, options, start code, slots. -/
structure SacnPkt where
  univNo : Nat
  cid : Nat
  prio : Nat
  preview : Bool
  terminated : Bool
  startCode : Byte
  slots : List Byte
deriving DecidableEq, Repr

/-- The kinds of RTP target that have legs (R259). -/
inductive LegKind where
  | video | audio | anc
deriving DecidableEq, Repr

/-- A TX descriptor (Table 9-2). -/
structure TxDesc where
  addr : W64
  len : Nat
  eof : Bool
  tsreq : Bool
  tc : BitVec 3
  port : BitVec 5
  tag : W16
  vid : BitVec 12
  pcp : BitVec 3
  vins : Bool
  launch : W64
deriving DecidableEq, Repr

/-- What a host's register access reaches (R273, Table 10-1): the register map of BAR0, the MSI-X table and Pending Bit
Array of BAR4, or the function's PCIe configuration space. -/
inductive Space where
  | bar0 | bar4 | config
deriving DecidableEq, Repr

/-- A flash device as the boot reads it (R343): whether its SFDP table declares 8D-8D-8D, and its bytes that differ from
zero by offset. -/
structure FlashRead where
  octal : Bool
  cells : List (Nat × Byte)
deriving DecidableEq, Repr

/-- The header words of a twin record that its receiver uses (Table 11-2). -/
structure JHead where
  jseq : W32
  term : W32
  cpos : W32
deriving DecidableEq, Repr

/-- The identity of a task as a journaled cancel carries it (R317): template, canvas, epoch and tile (row, column), or the JSEQ
of the TASK command that created it. -/
inductive TaskRef where
  | tile (tmpl : Nat) (canvas : Option Nat) (epoch : Option W32) (row col : Nat)
  | cmd (jseq : W32)
deriving DecidableEq, Repr

/-- The commands. -/
inductive Instr where
  /-- ADD (R61). Scalar ALU instruction that writes the wrapped sum of two scalar registers. -/
  | add (k : Nat) (f : F)
  /-- SUB (R61). Scalar ALU instruction that writes the wrapped difference of two scalar registers. -/
  | sub (k : Nat) (f : F)
  /-- AND (R61). Scalar ALU instruction that writes the bitwise AND of two scalar registers. -/
  | and (k : Nat) (f : F)
  /-- OR (R61). Scalar ALU instruction that writes the bitwise OR of two scalar registers. -/
  | or (k : Nat) (f : F)
  /-- XOR (R61). Scalar ALU instruction that writes the bitwise XOR of two scalar registers. -/
  | xor (k : Nat) (f : F)
  /-- SHL (R61). Scalar ALU instruction that shifts left by b[4:0]. -/
  | shl (k : Nat) (f : F)
  /-- SHR (R61). Scalar ALU instruction that shifts right with zero fill. -/
  | shr (k : Nat) (f : F)
  /-- SRA (R61). Scalar ALU instruction that shifts right with sign fill. -/
  | sra (k : Nat) (f : F)
  /-- SLT (R61). Scalar ALU instruction that writes 1 if a < b as signed values, else 0. -/
  | slt (k : Nat) (f : F)
  /-- SLTU (R61). Scalar ALU instruction that writes 1 if a < b as unsigned values, else 0. -/
  | sltu (k : Nat) (f : F)
  /-- MIN (R61). Scalar ALU instruction that writes the signed minimum. -/
  | min (k : Nat) (f : F)
  /-- MAX (R61). Scalar ALU instruction that writes the signed maximum. -/
  | max (k : Nat) (f : F)
  /-- MINU (R61). Scalar ALU instruction that writes the unsigned minimum. -/
  | minu (k : Nat) (f : F)
  /-- MAXU (R61). Scalar ALU instruction that writes the unsigned maximum. -/
  | maxu (k : Nat) (f : F)
  /-- SEL (R61). Scalar ALU instruction that selects a if c is non-zero, else b. -/
  | sel (k : Nat) (f : F)
  /-- MUL (R61). Scalar ALU instruction that writes the low 32 bits of a product. -/
  | mul (k : Nat) (f : F)
  /-- MULH (R61). Scalar ALU instruction that writes the high 32 bits of a signed product. -/
  | mulh (k : Nat) (f : F)
  /-- MULHU (R61). Scalar ALU instruction that writes the high 32 bits of an unsigned product. -/
  | mulhu (k : Nat) (f : F)
  /-- MAD (R61). Scalar ALU instruction that writes the low 32 bits of a × b + c. -/
  | mad (k : Nat) (f : F)
  /-- DIV (R52). Scalar ALU instruction that writes the signed quotient, with the division-by-zero rules. -/
  | div (k : Nat) (f : F)
  /-- DIVU (R52). Scalar ALU instruction that writes the unsigned quotient, with the division-by-zero rules. -/
  | divu (k : Nat) (f : F)
  /-- REM (R52). Scalar ALU instruction that writes the signed remainder. -/
  | rem (k : Nat) (f : F)
  /-- REMU (R52). Scalar ALU instruction that writes the unsigned remainder. -/
  | remu (k : Nat) (f : F)
  /-- PXMUL (R25). Scalar instruction that writes the px16 product of two low halves. -/
  | pxmul (k : Nat) (f : F)
  /-- PXADD (R25). Scalar instruction that writes the saturating px16 sum. -/
  | pxadd (k : Nat) (f : F)
  /-- PXSUB (R25). Scalar instruction that writes the saturating px16 difference. -/
  | pxsub (k : Nat) (f : F)
  /-- PAND (R61). Predicate instruction that writes the AND of two predicates. -/
  | pand (k : Nat) (f : F)
  /-- POR (R61). Predicate instruction that writes the OR of two predicates. -/
  | por (k : Nat) (f : F)
  /-- PXOR (R61). Predicate instruction that writes the XOR of two predicates. -/
  | pxor (k : Nat) (f : F)
  /-- PANDN (R61). Predicate instruction that writes p[a] AND NOT p[b]. -/
  | pandn (k : Nat) (f : F)
  /-- PMOV (R61). Predicate instruction that loads a predicate from a scalar register's low 16 bits. -/
  | pmov (k : Nat) (f : F)
  /-- PRD (R61). Predicate instruction that copies a predicate, zero-extended, into a scalar register. -/
  | prd (k : Nat) (f : F)
  /-- ADDI (R62). Scalar immediate instruction that adds an immediate. -/
  | addi (k : Nat) (f : F)
  /-- ANDI (R62). Scalar immediate instruction that ANDs with an immediate. -/
  | andi (k : Nat) (f : F)
  /-- ORI (R62). Scalar immediate instruction that ORs with an immediate. -/
  | ori (k : Nat) (f : F)
  /-- XORI (R62). Scalar immediate instruction that XORs with an immediate. -/
  | xori (k : Nat) (f : F)
  /-- SHLI (R62). Scalar immediate instruction that shifts left by an immediate. -/
  | shli (k : Nat) (f : F)
  /-- SHRI (R62). Scalar immediate instruction that shifts right by an immediate with zero fill. -/
  | shri (k : Nat) (f : F)
  /-- SRAI (R62). Scalar immediate instruction that shifts right by an immediate with sign fill. -/
  | srai (k : Nat) (f : F)
  /-- SLTI (R62). Scalar immediate instruction that compares signed against an immediate. -/
  | slti (k : Nat) (f : F)
  /-- SLTIU (R62). Scalar immediate instruction that compares unsigned against an immediate. -/
  | sltiu (k : Nat) (f : F)
  /-- MULI (R62). Scalar immediate instruction that multiplies by an immediate. -/
  | muli (k : Nat) (f : F)
  /-- LI (R62). Scalar immediate instruction that loads an immediate. -/
  | li (k : Nat) (f : F)
  /-- VADD (R63). Vector integer instruction that adds per active lane at the type's width. -/
  | vadd (k : Nat) (t : BitVec 3) (f : F)
  /-- VSUB (R63). Vector integer instruction that subtracts per active lane. -/
  | vsub (k : Nat) (t : BitVec 3) (f : F)
  /-- VADDS (R63). Vector integer instruction that adds with saturation per active lane. -/
  | vadds (k : Nat) (t : BitVec 3) (f : F)
  /-- VSUBS (R63). Vector integer instruction that subtracts with saturation per active lane. -/
  | vsubs (k : Nat) (t : BitVec 3) (f : F)
  /-- VAND (R63). Vector integer instruction that ANDs per active lane. -/
  | vand (k : Nat) (t : BitVec 3) (f : F)
  /-- VOR (R63). Vector integer instruction that ORs per active lane. -/
  | vor (k : Nat) (t : BitVec 3) (f : F)
  /-- VXOR (R63). Vector integer instruction that XORs per active lane. -/
  | vxor (k : Nat) (t : BitVec 3) (f : F)
  /-- VSHL (R63). Vector integer instruction that shifts left per active lane. -/
  | vshl (k : Nat) (t : BitVec 3) (f : F)
  /-- VSHR (R63). Vector integer instruction that shifts right per active lane, with sign fill for signed types. -/
  | vshr (k : Nat) (t : BitVec 3) (f : F)
  /-- VMIN (R63). Vector integer instruction that writes the lane minimum. -/
  | vmin (k : Nat) (t : BitVec 3) (f : F)
  /-- VMAX (R63). Vector integer instruction that writes the lane maximum. -/
  | vmax (k : Nat) (t : BitVec 3) (f : F)
  /-- VMUL (R63). Vector integer instruction that multiplies per active lane. -/
  | vmul (k : Nat) (t : BitVec 3) (f : F)
  /-- VMAD (R63). Vector integer instruction that computes a × b + c per active lane. -/
  | vmad (k : Nat) (t : BitVec 3) (f : F)
  /-- VSEL (R64). Vector instruction that selects lanes of a or b by a predicate named in c. -/
  | vsel (k : Nat) (t : BitVec 3) (f : F)
  /-- VCMPEQ (R64). Vector compare that sets predicate bits for equal lanes. -/
  | vcmpeq (k : Nat) (t : BitVec 3) (f : F)
  /-- VCMPLT (R64). Vector compare that sets predicate bits for less-than lanes. -/
  | vcmplt (k : Nat) (t : BitVec 3) (f : F)
  /-- VCMPLE (R64). Vector compare that sets predicate bits for less-or-equal lanes. -/
  | vcmple (k : Nat) (t : BitVec 3) (f : F)
  /-- VBCST (R64). Vector instruction that broadcasts a scalar register into every active lane. -/
  | vbcst (k : Nat) (t : BitVec 3) (f : F)
  /-- VEXT (R64). Vector instruction that extracts one lane into a scalar register. -/
  | vext (k : Nat) (t : BitVec 3) (f : F)
  /-- VRADD (R64). Vector instruction that sums the active lanes into a scalar register. -/
  | vradd (k : Nat) (t : BitVec 3) (f : F)
  /-- VPERM (R63). Vector instruction that permutes lanes by index. -/
  | vperm (k : Nat) (t : BitVec 3) (f : F)
  /-- VFADD (R65). Vector float instruction that adds per active lane. -/
  | vfadd (k : Nat) (half : Bool) (f : F)
  /-- VFSUB (R65). Vector float instruction that subtracts per active lane. -/
  | vfsub (k : Nat) (half : Bool) (f : F)
  /-- VFMUL (R65). Vector float instruction that multiplies per active lane. -/
  | vfmul (k : Nat) (half : Bool) (f : F)
  /-- VFMA (R65). Vector float fused multiply-add, rounded once. -/
  | vfma (k : Nat) (half : Bool) (f : F)
  /-- VFMIN (R65). Vector float minimum with the stated NaN and signed-zero rules. -/
  | vfmin (k : Nat) (half : Bool) (f : F)
  /-- VFMAX (R65). Vector float maximum with the stated NaN and signed-zero rules. -/
  | vfmax (k : Nat) (half : Bool) (f : F)
  /-- VFDIV (R65). Vector float division, blocking the vector slot. -/
  | vfdiv (k : Nat) (half : Bool) (f : F)
  /-- VFSQRT (R65). Vector float square root, blocking the vector slot. -/
  | vfsqrt (k : Nat) (half : Bool) (f : F)
  /-- VFCMPEQ (R65). Vector float compare for equality into a predicate. -/
  | vfcmpeq (k : Nat) (half : Bool) (f : F)
  /-- VFCMPLT (R65). Vector float compare for less-than into a predicate. -/
  | vfcmplt (k : Nat) (half : Bool) (f : F)
  /-- VFCMPLE (R65). Vector float compare for less-or-equal into a predicate. -/
  | vfcmple (k : Nat) (half : Bool) (f : F)
  /-- VFTOI (R65). Vector conversion from float to saturated s32. -/
  | vftoi (k : Nat) (half : Bool) (f : F)
  /-- VITOF (R65). Vector conversion from s32 to float. -/
  | vitof (k : Nat) (half : Bool) (f : F)
  /-- VFTOPX (R65). Vector conversion from float to px16. -/
  | vftopx (k : Nat) (half : Bool) (f : F)
  /-- VPXTOF (R65). Vector conversion from px16 to float. -/
  | vpxtof (k : Nat) (half : Bool) (f : F)
  /-- VFRADD (R65). Vector float pairwise-tree sum of active lanes into a scalar register. -/
  | vfradd (k : Nat) (half : Bool) (f : F)
  /-- VFABS (R65). Vector instruction that clears the sign bit. -/
  | vfabs (k : Nat) (half : Bool) (f : F)
  /-- VFNEG (R65). Vector instruction that inverts the sign bit. -/
  | vfneg (k : Nat) (half : Bool) (f : F)
  /-- VMIX (R67). Pixel instruction that blends a top group over a bottom group in one of eight modes. -/
  | vmix (k : Nat) (t : BitVec 3) (f : F)
  /-- VMAT3 (R68). Pixel instruction that applies a 3 × 3 fp32 colour matrix to R, G and B. -/
  | vmat3 (k : Nat) (f : F)
  /-- VDITH (R69). Pixel instruction that quantises each channel to n bits with a per-pixel threshold. -/
  | vdith (k : Nat) (n : BitVec 4) (f : F)
  /-- VUNPK_P16 (R70). Pixel instruction that unpacks slot-format pixels to a planar group. -/
  | vunpkP16 (k : Nat) (f : F)
  /-- VUNPK_U8 (R70). Pixel instruction that unpacks u8 RGBA pixels to a planar group. -/
  | vunpkU8 (k : Nat) (f : F)
  /-- VUNPK_F16 (R70). Pixel instruction that unpacks fp16 RGBA pixels to a planar group. -/
  | vunpkF16 (k : Nat) (f : F)
  /-- VPACK_P16 (R70). Pixel instruction that packs a planar group to slot format. -/
  | vpackP16 (k : Nat) (f : F)
  /-- VPACK_U8 (R70). Pixel instruction that packs a planar group to u8 RGBA. -/
  | vpackU8 (k : Nat) (f : F)
  /-- VPACK_F16 (R70). Pixel instruction that packs a planar group to fp16 RGBA. -/
  | vpackF16 (k : Nat) (f : F)
  /-- VLUT (R71). Table lookup per lane from a scratch-area table of 2^n entries. -/
  | vlut (k : Nat) (t : BitVec 3) (f : F)
  /-- VLUTI (R72). Interpolated table lookup per lane. -/
  | vluti (k : Nat) (t : BitVec 3) (f : F)
  /-- VGATH (R71). Gather of elements from the scratch area by per-lane offsets. -/
  | vgath (k : Nat) (t : BitVec 3) (f : F)
  /-- VGATHL (R71). Gather of elements from a layer, recorded in the read set. -/
  | vgathl (k : Nat) (t : BitVec 3) (f : F)
  /-- VSCAT (R71). Scatter of lane elements into the scratch area. -/
  | vscat (k : Nat) (t : BitVec 3) (f : F)
  /-- LD (R73). Scalar load from one of the four memory spaces. -/
  | ld (k : Nat) (sp : BitVec 2) (t : BitVec 3) (f : F)
  /-- VLD (R73). Contiguous vector load from one of the four memory spaces. -/
  | vld (k : Nat) (sp : BitVec 2) (t : BitVec 3) (f : F)
  /-- VLDB (R73). Broadcast load of one element to every active lane. -/
  | vldb (k : Nat) (sp : BitVec 2) (t : BitVec 3) (f : F)
  /-- ST (R73). Scalar store to the tile store, output tile or frame memory. -/
  | st (k : Nat) (sp : BitVec 2) (t : BitVec 3) (f : F)
  /-- VST (R73). Vector store to the tile store, output tile or frame memory. -/
  | vst (k : Nat) (sp : BitVec 2) (t : BitVec 3) (f : F)
  /-- RESERVED_INSTRUCTION (R35). An instruction with a reserved opcode or unassigned function terminates the task with ILLEGAL. -/
  | reservedInstruction (k : Nat) (w : W64)
  /-- VSAMP (R76). Layer sample instruction that reads a planar group from a layer by bilinear or nearest filtering. -/
  | vsamp (k : Nat) (nearest : Bool) (edge : BitVec 2) (f : F)
  /-- SPEC_IN (R77). Reads an input value at the input epoch and records it in the read set. -/
  | specIn (k : Nat) (f : F)
  /-- FIRM_IN (R77). Reads an input value at the FIRM input epoch without recording it. -/
  | firmIn (k : Nat) (f : F)
  /-- SPEC_VER (R77). Reads an input version at the input epoch and records it. -/
  | specVer (k : Nat) (f : F)
  /-- FIRM_VER (R77). Reads an input version at the FIRM input epoch without recording it. -/
  | firmVer (k : Nat) (f : F)
  /-- ETAB_RD (R78). Reads one word of an endpoint entry from the epoch's snapshot. -/
  | etabRd (k : Nat) (f : F)
  /-- ETAB_WR (R79). Service-privileged write of one word of an endpoint entry. -/
  | etabWr (k : Nat) (f : F)
  /-- PKT_ALLOC (R81). Allocates a free transmit packet buffer handle. -/
  | pktAlloc (k : Nat) (f : F)
  /-- PKT_RD (R81). Reads a word from a held packet buffer. -/
  | pktRd (k : Nat) (f : F)
  /-- PKT_WR (R81). Writes a word into a held packet buffer. -/
  | pktWr (k : Nat) (f : F)
  /-- PKT_LEN (R81). Sets the frame length of a held packet buffer. -/
  | pktLen (k : Nat) (f : F)
  /-- PKT_SEND (R81). Queues a packet buffer on a port in a traffic class. -/
  | pktSend (k : Nat) (f : F)
  /-- PKT_FREE (R81). Releases a held packet buffer. -/
  | pktFree (k : Nat) (f : F)
  /-- YIELD (R82). Saves the task's state and re-queues it at its priority. -/
  | yield (k : Nat) (f : F)
  /-- DONE (R82). Completes the task with status OK and a program status. -/
  | done (k : Nat) (f : F)
  /-- SPAWN (R83). Creates a child task from a descriptor in the scratch area. -/
  | spawn (k : Nat) (f : F)
  /-- POST (R82). Delivers a task-post record and raises EV_TASK_POST. -/
  | post (k : Nat) (f : F)
  /-- CANCEL (R84). Cancels a task named by child ordinal or slot number. -/
  | cancel (k : Nat) (f : F)
  /-- BRA (R86). Direct branch taken when its predicate is p0 or non-zero. -/
  | bra (k : Nat) (f : F)
  /-- BEQ (R87). Direct branch taken when a equals b. -/
  | beq (k : Nat) (f : F)
  /-- BNE (R87). Direct branch taken when a differs from b. -/
  | bne (k : Nat) (f : F)
  /-- BLT (R87). Direct branch taken when a < b signed. -/
  | blt (k : Nat) (f : F)
  /-- BGE (R87). Direct branch taken when a ≥ b signed. -/
  | bge (k : Nat) (f : F)
  /-- BLTU (R87). Direct branch taken when a < b unsigned. -/
  | bltu (k : Nat) (f : F)
  /-- BGEU (R87). Direct branch taken when a ≥ b unsigned. -/
  | bgeu (k : Nat) (f : F)
  /-- BANY (R86). Direct branch taken when the predicate is non-zero. -/
  | bany (k : Nat) (f : F)
  /-- BALL (R86). Direct branch taken when the predicate is 0xFFFF. -/
  | ball (k : Nat) (f : F)
  /-- BNONE (R86). Direct branch taken when the predicate is zero. -/
  | bnone (k : Nat) (f : F)
  /-- CALL (R86). Direct call that writes the return address into s31. -/
  | call (k : Nat) (f : F)
  /-- JR (R87). Indirect jump to the address in s[a]. -/
  | jr (k : Nat) (f : F)
  /-- CALLR (R87). Indirect call to s[a] that writes the return address into s31. -/
  | callr (k : Nat) (f : F)
  /-- NOP (R88). System instruction that does nothing. -/
  | nop (k : Nat) (f : F)
  /-- CRR (R23). Copies a control register into a scalar register. -/
  | crr (k : Nat) (f : F)
  /-- VCRR (R23). Copies a control register into every lane of a vector register. -/
  | vcrr (k : Nat) (f : F)
  /-- FENCE (R48). Makes the task's earlier frame-memory stores visible. -/
  | fence (k : Nat) (f : F)
  /-- BRK (R88). Terminates the task with status BREAK. -/
  | brk (k : Nat) (f : F)
  /-- TRAP (R88). Terminates the task with exception TRAP. -/
  | trap (k : Nat) (f : F)
  /-- CNT_ADD (R366). Adds s[a] to one of the context's software counters. -/
  | cntAdd (k : Nat) (f : F)
  /-- TASK (R94). Host command that creates a task from a descriptor in the command payload. -/
  | task (h : Cmd) (desc : List W32)
  /-- CUE (R125). Host command that writes a CUE input value with a target. -/
  | cue (h : Cmd) (index value : W32) (tgt : Tgt)
  /-- ALLOC (R292). Host command that allocates whole MiB of frame memory for a context. -/
  | alloc (h : Cmd) (mib : W32)
  /-- RETIRE (R297). Host command that puts an allocation under retire and returns a fence number. -/
  | retire (h : Cmd) (addr : W32)
  /-- LAYER_NEW (R293). Host command that creates a layer with a buffer pool. -/
  | layerNew (h : Cmd) (layer size form pool nbuf : W32)
  /-- LAYER_SET (R294). Host command that points a device layer at a buffer as an input change. -/
  | layerSet (h : Cmd) (layer buf : W32) (tgt : Tgt)
  /-- IMPORT (R294). Host command that copies a host image into a free pool buffer by DMA. -/
  | importLayer (h : Cmd) (layer busLo busHi pitch : W32) (tgt : Tgt)
  /-- LAYER_DEL (R293). Host command that deletes a layer. -/
  | layerDel (h : Cmd) (layer : W32)
  /-- BAD_COMMAND (R289). A command entry with an unknown OP, a poisoned word or a context not owned completes with an error status. -/
  | badCommand (h : Cmd) (op : Byte) (ext poisoned : Bool)
  /-- REGISTER_WRITE (R11). A host write to a register that has no row of its own, with access-type, VF and test-collision checks. -/
  | registerWrite (fn : Nat) (sp : Space) (off : Nat) (v : W32) (size : Nat) (setting : W32) (other : Option (Nat × W32))
  /-- SEM_CLAIM (R278). A read of SEM_n that claims a free semaphore or renews the holder's lease. -/
  | semClaim (n fn : Nat) (other : Option Nat)
  /-- SEM_RELEASE (R279). A write of SEM_n by its holder that releases the semaphore. -/
  | semRelease (n fn : Nat) (v : W32) (claim : Option Nat)
  /-- SEM_FORCE (R280). A write that forces free a semaphore whose lease has expired. -/
  | semForce (fn : Nat) (v : W32)
  /-- SEM_LEASE_EXPIRE (R280). A semaphore lease passes LEASE_US without renewal and EXPIRED sets. -/
  | semLeaseExpire (n : Nat)
  /-- RING_ENABLE (R282). A write of ring EN = 1 that is checked and starts or refuses the ring. -/
  | ringEnable (r fn : Nat) (v : W32)
  /-- RING_TAIL_WRITE (R283). A host write of a producer index that hands entries to the device. -/
  | ringTailWrite (r fn : Nat) (v : W32) (posted : List RxPost)
  /-- RING_HEAD_WRITE (R283). A host write of a consumer index that frees records on a device-produced ring. -/
  | ringHeadWrite (r fn : Nat) (v : W32)
  /-- RING_FLUSH (R288). A write of ring FLUSH that discards unstarted entries. -/
  | ringFlush (r fn : Nat)
  /-- FLUSH_COMPLETE (R288). A ring flush reaches its boundary, completes entries and clears FLUSH. -/
  | flushComplete (r : Nat) (heads : List FlushedEntry)
  /-- PRODUCER_RESUME (R284). Command execution or TX completion resumes when its CPL ring has room or becomes valid again. -/
  | producerResume (r : Nat) (bad : Byte)
  /-- BAR2_WRITE (R299). A host write through BAR2 into frame memory, dropped if denied or under retire. -/
  | bar2Write (fn off : Nat) (data : List Byte) (poisoned : Bool)
  /-- BAR2_READ (R275). A host read through BAR2, returning zero when denied. -/
  | bar2Read (fn off n : Nat)
  /-- IMPORT_DONE (R294). An import DMA completes and its change enters the input log. -/
  | importDone (layer i : Nat) (data : List Byte)
  /-- IMPORT_DMA_FAULT (R296). An import DMA faults or times out after 50 ms and the layer goes STALE. -/
  | importDmaFault (layer i : Nat)
  /-- FENCE_COMPLETE (R297). A retire fence's conditions all hold and its allocation becomes free. -/
  | fenceComplete (ctx : Nat)
  /-- FUNCTION_LEVEL_RESET (R276). A Function Level Reset disables the function's rings, contexts and routes and frees its semaphores. -/
  | functionLevelReset (fn : Nat)
  /-- PERST_N (R276). PERST_N of a port resets that port's functions as a Function Level Reset does. -/
  | perstN (host : Nat) (low : Bool)
  /-- PCIE_LINK_CHANGE (R271). A host port's link state, rate or width changes. -/
  | pcieLinkChange (host : Nat) (rate width : BitVec 2)
  /-- DISPATCH (R104). A free core takes the best READY task under the affinity and priority order. -/
  | dispatch
  /-- AFFINITY_WAIT_END (R102). A task's 54-cycle affinity wait ends and it may go to any candidate core. -/
  | affinityWaitEnd (slot : Nat)
  /-- TILE_TASK_CREATE (R98). A kind 1 template creates the next tile task of a released epoch when a slot is free. -/
  | tileTaskCreate
  /-- TASK_RECREATE (R42). An invalidated completed task is created again from its descriptor in a free slot. -/
  | taskRecreate
  /-- TASK_REBIND (R103). A task bound to a removed cluster is copied to the spill area of the lowest candidate cluster. -/
  | taskRebind (slot : Nat)
  /-- SCHED_CANCEL (R107). A host write that cancels the task in a named slot of a context; `same` where it falls in the CK_FAB
  cycle of the command before it (R106). -/
  | schedCancel (fn : Nat) (v : W32) (same : Bool)
  /-- SCHED_KICK (R97). A write that releases a kind 8 template. -/
  | schedKick (fn : Nat) (v : W32)
  /-- CTX_DISABLE (R111). Clearing CTX_CTRL.EN stops releases and cancels every task of the context. -/
  | ctxDisable (fn ctx : Nat) (v : W32)
  /-- CORE_TIME_PERIOD_END (R112). A core-time accounting period ends and the context's override is decided. -/
  | coreTimePeriodEnd (ctx : Nat)
  /-- INPUT_LOG_ENTER (R128). An input change enters the input log, gets its version and epochs, and invalidates reading tasks. -/
  | inputLogEnter (i : Nat) (poisoned : Bool)
  /-- FRAME_INSTANT (R230). Outward time reaches a frame clock's next frame instant and the NEXT registers advance. -/
  | frameInstant (fc : Nat)
  /-- COMMIT (R130). At C(E) the canvas applies shadowed values, freezes slot E, fills tiles, moves pointers and releases work. -/
  | commit (c : Nat)
  /-- STALL_RELEASE (R122). A release held by a stall takes place when a slot frees. -/
  | stallRelease (c : Nat)
  /-- CANVAS_ENABLE (R124). A write of CANVAS_CTRL.EN = 1 that checks the canvas and releases its first epochs. -/
  | canvasEnable (fn c : Nat) (v : W32)
  /-- CANVAS_DISABLE (R124). A write of CANVAS_CTRL.EN = 0 that cancels open-epoch tasks and drops queued output. -/
  | canvasDisable (fn c : Nat) (v : W32)
  /-- SQUASH (R145). VAT_CMD.SQUASH squashes every SPEC and demoted task of the open epochs. -/
  | squash (fn c : Nat)
  /-- PIN (R122). VAT_CMD.PIN pins the TX slot for host reading. -/
  | pin (fn c : Nat)
  /-- UNPIN (R122). VAT_CMD.UNPIN releases the pinned slot. -/
  | unpin (fn c : Nat)
  /-- WAKE (R143). VAT_CMD.WAKE ends rest and releases the open epochs. -/
  | wake (fn c : Nat)
  /-- SHADOWED_WRITE (R138). A write to a shadowed field that changes its value and makes it pending. -/
  | shadowedWrite (fn off : Nat) (v : W32)
  /-- GLAZE_SEGMENT (R150). A free Glaze pipe takes the next eligible segment and processes it through every stage. -/
  | glazeSegment (pipe : Nat) (dataError : Bool)
  /-- WINDOW_END (R151). The transmit window of an epoch ends and unstarted segments are abandoned. -/
  | windowEnd (c : Nat) (e : W32)
  /-- PLANE_CUT (R156). The plane cut is reached and every segment under the plane becomes eligible. -/
  | planeCut (c : Nat) (e : W32) (p : Nat)
  /-- MORD_WRITE (R163). A write of MORD_DATA that stores a Mordant word or is refused, and advances the address. -/
  | mordWrite (fn : Nat) (v : W32)
  /-- MORD_READ (R163). A read of MORD_DATA that returns a Mordant word and advances the address. -/
  | mordRead (fn : Nat)
  /-- ETAB_STAGE_WRITE (R173). A write to words 1 to 15 of an endpoint entry goes to its staging copy. -/
  | etabStageWrite (fn e k : Nat) (v : W32)
  /-- ETAB_PUBLISH (R173). A write to word 0 checks and publishes the whole endpoint entry. -/
  | etabPublish (fn e : Nat) (v : W32)
  /-- VIEW_WRITE (R174). A physical-function write of a context's endpoint view. -/
  | viewWrite (fn ctx : Nat) (isN : Bool) (v : W32)
  /-- TABLE_BASE_WRITE (R207). A write of DRV_BASE or STBL_BASE, checked against its allocation. -/
  | tableBaseWrite (fn : Nat) (isStbl : Bool) (v : W32)
  /-- FLT_CLR (R194). EP_FLT_CLR moves the endpoint's FAULT strings to UNPROVEN. -/
  | fltClr (fn : Nat) (v : W32)
  /-- DRV_KICK (R192). EP_DRV_KICK schedules a DRIVE for endpoints using a drive record. -/
  | drvKick (fn : Nat) (v : W32)
  /-- BLACKOUT_ON (R205). Writing EP_BLACKOUT.ON = 1 sends a blanking HOLD to all nodes. -/
  | blackoutOn (fn : Nat)
  /-- BLACKOUT_OFF (R205). Writing EP_BLACKOUT.ON = 0 sends the unblanking HOLD. -/
  | blackoutOff (fn : Nat)
  /-- BLACKOUT_REPEAT (R205). Every 100 ms of outward time while ON = 1 the blanking HOLD is repeated. -/
  | blackoutRepeat
  /-- CLEAR (R201). KG_g.CLEAR un-kills a group and moves its FAULT strings to UNPROVEN. -/
  | clear (fn g : Nat) (v : W32)
  /-- FORCE (R198). KG_g.FORCE kills a group now. -/
  | force (fn g : Nat) (v : W32)
  /-- STREAM_TERMINATED (R203). Clearing a universe record's EN sends three packets with Stream_Terminated. -/
  | streamTerminated (fn u : Nat) (v : W32)
  /-- LATCH (R17). At L(E) − LATCH_GUARD one LATCH per canvas leaves on each port carrying it. -/
  | latch (c : Nat)
  /-- BEACON (R182). Once per second in HOLD a resting canvas sends a LATCH beacon for its TX epoch. -/
  | beacon (c : Nat)
  /-- SACN_SYNC (R203). One E1.31 synchronisation packet per port is launched at L(E) − SACN_SYNC_ADV. -/
  | sacnSync (c : Nat)
  /-- DMX_PACKET_START (R204). A DMX packet starts at a latch instant or when the previous packet ends. -/
  | dmxPacketStart (p : Nat)
  /-- DMX_PACKET_END (R267). A DMX packet finishes its last slot. -/
  | dmxPacketEnd (p : Nat)
  /-- STAT (R191). A received ENP STAT updates thermal derate, string states, kills, repairs and telemetry. -/
  | stat (port : Nat) (m : RxFrame)
  /-- NODE_LOST (R196). An endpoint's node sends no STAT for LOST_N × STAT_N frame instants and becomes LOST. -/
  | nodeLost (e : Nat)
  /-- SET_GO (R211). SET_GO steps outward time to SET_HI:SET_LO when every frame clock is stopped. -/
  | setGo (fn : Nat)
  /-- OT_LO_READ (R210). A read of OT_LO copies the high word and fraction into OT_HI and OT_FRAC. -/
  | otLoRead (fn : Nat)
  /-- MEAS_PUSH (R212). A measurement record is pushed, filtered, and runs a servo step for the followed domain. -/
  | measPush (fn d : Nat)
  /-- ANN_KICK (R214). An Announce kick restarts a domain's announce timer and moves LOST to LISTEN. -/
  | annKick (fn d : Nat)
  /-- ANNOUNCE_TIMEOUT (R214). ANN_TO_MS passes without ANN_KICK and the domain enters LOST. -/
  | announceTimeout (d : Nat)
  /-- TIME_SEL_WRITE (R221). A write of TIME_CTRL.SEL that requests a domain switch at the next commit. -/
  | timeSelWrite (fn : Nat) (v : W32)
  /-- DOM_EN_WRITE (R214). A write of DOM_CFG.EN that moves a domain between OFF and LISTEN. -/
  | domEnWrite (fn d : Nat) (v : W32)
  /-- FC_ENABLE (R231). A write of FC_CTRL.EN that starts or stops a frame clock. -/
  | fcEnable (fn n : Nat) (v : W32)
  /-- FC_CTRL_WRITE (R233). A write of FC_CTRL.RATE checked and shadowed on a running clock. -/
  | fcCtrlWrite (fn n : Nat) (v : W32)
  /-- FC_PHASE_WRITE (R229). A write of FC_PHASE checked and shadowed on a running clock. -/
  | fcPhaseWrite (fn n : Nat) (v : W32)
  /-- NEXT_LO_READ (R389). A read of NEXT_LO copies NEXT_HI and NEXT_EPOCH. -/
  | nextLoRead (fn n : Nat)
  /-- TSQ_POP (R226). A read of TSQ_E0 pops the oldest transmit timestamp. -/
  | tsqPop (fn p : Nat) (poison : BitVec 4)
  /-- TSQ_FLUSH (R226). A FLUSH write discards the held transmit timestamps. -/
  | tsqFlush (fn p : Nat)
  /-- PPS_IN_EDGE (R237). A PPS_IN rising edge captures outward time. -/
  | ppsInEdge (at_ : W64) (frac : BitVec 16)
  /-- PPS_IN_LO_READ (R237). A read of PPS_IN_LO copies the capture's high word and fraction. -/
  | ppsInLoRead (fn : Nat)
  /-- PPS_OUT_PULSE (R236). A PPS output rises at a whole second plus OFS of its selected time. -/
  | ppsOutPulse (i : Nat)
  /-- REF10_WINDOW (R237). Each 10,000,000 reference cycles update REF10_ERR. -/
  | ref10Window (at_ : W64)
  /-- REF10_LOSS (R237). 2 ms without a 10 MHz edge clears REF10_OK. -/
  | ref10Loss
  /-- FRAME_START (R243). A free port starts the head frame of the highest eligible class, judging lateness and lease. -/
  | frameStart (p : Nat)
  /-- TX_FRAME_END (R248). A frame leaves the wire, pushing a timestamp and writing its completion. -/
  | txFrameEnd (p : Nat)
  /-- TX_DESCRIPTOR_FRAME (R247). A frame's descriptors are taken from a TX ring and queued on its port. -/
  | txDescriptorFrame (r : Nat) (ds : List TxDesc) (data : List Byte) (poisoned : Bool)
  /-- GATE_CYCLE_START (R244). A gate cycle starts at a frame instant plus GATE_OFS, swapping banks if pending. -/
  | gateCycleStart (p : Nat)
  /-- SWAP (R245). GATE_CTRL.SWAP requests a gate bank exchange at the next cycle start. -/
  | swap (fn p : Nat) (v : W32)
  /-- PORT_DISABLE (R390). Clearing a port's EN lets the current frame end and drops every queued frame. -/
  | portDisable (fn p : Nat) (v : W32)
  /-- PAUSE_FRAME (R250). A received pause or PFC frame pauses classes and is consumed. -/
  | pauseFrame (p : Nat) (m : RxFrame)
  /-- PAUSE_EXPIRE (R250). A class's pause time runs out and it resumes. -/
  | pauseExpire (p cls : Nat)
  /-- PAUSE_WD_TRIP (R251). A class paused longer than PAUSE_WD starts ignoring pause. -/
  | pauseWdTrip (p cls : Nat)
  /-- PAUSE_REC_END (R251). The PAUSE_REC interval ends and the class obeys pause again. -/
  | pauseRecEnd (p cls : Nat)
  /-- LPI_ENTER (R252). Transmit queues idle for LPI_IDLE put the port into LPI. -/
  | lpiEnter (p : Nat)
  /-- LPI_WAKE (R252). The port leaves LPI Tw before a launch time or for a new frame. -/
  | lpiWake (p : Nat)
  /-- EEE_OK_WRITE (R253). A write of EEE_OK that enables LPI or ends it at once. -/
  | eeeOkWrite (fn p : Nat) (v : W32)
  /-- LINK_CHANGE (R240). An Ethernet port's LINK changes: what its PCS reports, block lock with no fault and reception of
  LPI. -/
  | linkChange (p : Nat) (pcsUp lpiRx : Bool)
  /-- SERVICE_FRAME_RX (R254). A received PTP, LLDP or DISC frame goes to the service ring and releases a kind 6 template. -/
  | serviceFrameRx (p : Nat) (m : RxFrame)
  /-- FLOW_FRAME_RX (R256). A received frame matched to an RX ring or the default ring fills host buffers. -/
  | flowFrameRx (p : Nat) (m : RxFrame)
  /-- BAD_FRAME_RX (R255). A received frame with an FCS, length or code error is dropped or delivered flagged. -/
  | badFrameRx (p : Nat) (m : RxFrame)
  /-- VIDEO_PACKET_RX (R260). An ST 2110-20 packet is merged and written into its line ring: its frame, its payload, and
  whether the device drops it as beyond 200 Gb/s. -/
  | videoPacketRx (p : Nat) (m : RxFrame) (v : VideoPkt) (ovf : Bool)
  /-- AUDIO_PACKET_RX (R261). An ST 2110-30 packet is merged and may complete an envelope segment. -/
  | audioPacketRx (p : Nat) (m : RxFrame) (v : AudioPkt) (ovf : Bool)
  /-- ANC_PACKET_RX (R262). An ST 2110-40 packet carrying timecode becomes a TC change. -/
  | ancPacketRx (p : Nat) (m : RxFrame) (v : AncPkt) (ovf : Bool)
  /-- LTC_WORD (R262). A decoded LTC word becomes a change of TC 0. -/
  | ltcWord (at_ : W64) (tc : TcWord)
  /-- SACN_PACKET_RX (R263). An sACN data packet is merged and changed slots become CUE changes. -/
  | sacnPacketRx (p : Nat) (m : RxFrame) (v : SacnPkt)
  /-- SACN_SOURCE_TIMEOUT (R263). An sACN source unheard for 2.5 s leaves the merge. -/
  | sacnSourceTimeout (u : Nat) (cid : Nat)
  /-- LEG_LOSS (R259). A stream leg has no packet for 100 ms. -/
  | legLoss (kind : LegKind) (s leg : Nat)
  /-- TC_LOSS (R262). A timecode source delivers no word for 100 ms and its valid bit clears. -/
  | tcLoss (n : Nat)
  /-- T1S_COLLISION (R265). A 10BASE-T1S frame collides and draws a back-off. -/
  | t1sCollision (p : Nat) (lateColl : Bool)
  /-- BACKOFF_EXPIRE (R265). A back-off time ends and the frame is attempted again. -/
  | backoffExpire (p : Nat)
  /-- PLCA_BEACON_CHANGE (R266). A 10BASE-T1S port's PLCA beacon status changes. -/
  | plcaBeaconChange (p : Nat) (active : Bool)
  /-- GO (R268). RDM GO starts an RDM request after the current DMX packet. -/
  | go (fn p : Nat) (v : W32)
  /-- RDM_LISTEN_END (R268). An RDM exchange ends with a response, a timeout or an error: the response with whether it began
  with a break. -/
  | rdmListenEnd (p : Nat) (brk : Bool) (resp : List Byte) (err : Bool)
  /-- LEASE_RENEW (R307). At each beat the lease holder sends RENEW, toggles LEASE_OUT and extends its lease. -/
  | leaseRenew
  /-- LEASE_LAPSE (R309). A holder's lease runs out or it resigns, closing its classes and becoming WAIT. -/
  | leaseLapse
  /-- LEASE_EXPIRY (R310). A standby finds the lease expired and acquires, or goes ORPHAN or WAIT. -/
  | leaseExpiry
  /-- TAKEOVER (R310). At the takeover instant the standby becomes ACTIVE and opens its classes. -/
  | takeover
  /-- WAIT_TIMEOUT (R306). A WAIT device with PRIMARY = 1 hears no RENEW for a lease period and becomes ACTIVE. -/
  | waitTimeout
  /-- LEASE_IN_EDGE (R382). An edge on LEASE_IN is timed as proof of the peer's life. -/
  | leaseInEdge (at_ : W64)
  /-- WIRE_SILENT (R311). LEASE_IN shows no edge within the lease period. -/
  | wireSilent
  /-- TWIN_LINK_CHANGE (R311). A twin lane goes down or comes up. -/
  | twinLinkChange (lane : Nat) (up : Bool)
  /-- RENEW (R312). A received RENEW record renews the standby's view of the lease or displaces a holder. -/
  | renew (h : JHead) (b : W64) (t1 : W64) (act : Byte) (t3 t4 : W64) (t2 : W64)
  /-- COMMIT_RECORD (R316). A received COMMIT record makes the standby commit and compare digests. -/
  | commitRecord (h : JHead) (miss : Bool) (c : Nat) (e digest : W32) (tiles : List W32)
  /-- CHANGE_RECORD (R314). A received journal CHANGE record applies an input change on the standby. -/
  | changeRecord (h : JHead) (id : W32) (ctx : Nat) (tmode : Byte) (value version : W32) (target : W64)
  /-- REGW (R314). A received journal register write is applied on the standby. -/
  | regw (h : JHead) (off : Nat) (v : W32) (fn : Nat) (task : Option TaskRef)
  /-- CMD_RECORD (R314). A received journal command is applied on the standby. -/
  | cmdRecord (h : JHead) (entry : List W32) (cpl : List W32)
  /-- MEMW (R314). A received journal memory write is applied on the standby. -/
  | memw (h : JHead) (addr4 : W64) (data : List Byte)
  /-- LAYER_RECORD (R314). A received journal layer import chunk is applied on the standby. -/
  | layerRecord (h : JHead) (last : Bool) (layer : Nat) (version buf off : W32) (data : List Byte)
  /-- EPSTATE (R314). A received endpoint status record is applied on the standby. -/
  | epstate (h : JHead) (e : Nat) (status : List W32) (strings : W64)
  /-- HANDOVER (R313). A received HANDOVER lets an INSTEP standby acquire at the next beat. -/
  | handover (h : JHead) (b : W64)
  /-- COPY_RECORD (R323). A received state-copy chunk is written on the standby. -/
  | copyRecord (h : JHead) (last : Bool) (kind : W32) (index : W64) (data : List Byte)
  /-- COPY_END (R323). The end of the state copy moves the standby to CATCHUP. -/
  | copyEnd (h : JHead) (cpos : W32)
  /-- ACK (R320). A received ACK from the standby is recorded for time exchange. -/
  | ack (h : JHead) (jseq : W32) (role : Byte) (diverged : Bool) (t2 t3 t4 : W64)
  /-- COPY_SEND (R323). The active device sends its state copy in the background after hearing a peer. -/
  | copySend
  /-- SHADOW_WAIT_EXPIRE (R316). A standby's wait for tiles exceeds SHADOW_WAIT and it fills them. -/
  | shadowWaitExpire
  /-- RESIGN (R313). TWIN_CMD.RESIGN sends HANDOVER and stops renewing. -/
  | resign (fn : Nat)
  /-- ASSUME (R306). TWIN_CMD.ASSUME makes a WAIT device ACTIVE. -/
  | assume (fn : Nat)
  /-- RESYNC (R306). TWIN_CMD.RESYNC makes the standby restart COPY. -/
  | resync (fn : Nat)
  /-- LEAVE_SAFE (R325). TWIN_CMD.LEAVE_SAFE returns an ORPHAN device to IDLE as WAIT. -/
  | leaveSafe (fn : Nat)
  /-- TWIN_EN_WRITE (R304). A write of TWIN_CTRL.EN in IDLE that pairs or unpairs the device. -/
  | twinEnWrite (fn : Nat) (v : W32)
  /-- MODE_REQ_SHOW (R337). MODE_REQ = SHOW moves IDLE to SHOW. -/
  | modeReqShow (fn : Nat)
  /-- MODE_REQ_IDLE (R337). MODE_REQ = IDLE leaves SHOW, HOLD or SAFE for IDLE. -/
  | modeReqIdle (fn : Nat)
  /-- MODE_REQ_TEST (R357). MODE_REQ = TEST runs the blocks selected in BIST_SEL. -/
  | modeReqTest (fn : Nat)
  /-- MODE_REQ_SLEEP (R341). MODE_REQ = SLEEP saves slow time and powers down everything outside the island. -/
  | modeReqSleep (fn : Nat)
  /-- MODE_REQ_SAFE (R340). MODE_REQ = SAFE enters SAFE with cause HOST. -/
  | modeReqSafe (fn : Nat)
  /-- MODE_TRANSITION_DONE (R337). A mode transition finishes after its stated time and EV_MODE is raised. -/
  | modeTransitionDone
  /-- HOLD_EN_WRITE (R339). A write of HOLD_EN that permits HOLD or ends it. -/
  | holdEnWrite (fn : Nat) (v : W32)
  /-- HBM_SELF_REFRESH (R338). In HOLD the HBM controller enters self-refresh after HBM_SR_IDLE without access. -/
  | hbmSelfRefresh
  /-- SOFT_RST (R336). PWR_CMD.SOFT_RST resets the blocks outside the island after its register cycle. -/
  | softRst (fn : Nat)
  /-- POWER_ON (R335). VDD_AON rises and the whole device is reset. -/
  | powerOn
  /-- AON_RST_N (R335). AON_RST_N low resets the whole device including the island. -/
  | aonRstN
  /-- SYS_RST_N (R335). SYS_RST_N low resets the blocks outside the island. -/
  | sysRstN
  /-- RESET_RELEASE (R342). Reset is released, BOOT_MODE is read and the device enters BOOT. -/
  | resetRelease (bootMode : BitVec 2) (rails : BitVec 9)
  /-- RAIL_FAULT (R330). A required rail stays below threshold for 1 µs and the blocks outside the island reset. -/
  | railFault (rail : Nat)
  /-- REF_CLOCK_LOSS (R333). A reference input's monitor reports loss or recovery. -/
  | refClockLoss (input : Nat) (lost : Bool)
  /-- AVS_COMMAND (R332). The device issues a VOUT_COMMAND step towards its VDD_CORE target. -/
  | avsCommand (acked : Bool)
  /-- DIE_TEMP_CROSS (R346). The hottest die sensor crosses TEMP_WARN or 115 °C. -/
  | dieTempCross (temp : Byte)
  /-- WAKE_SOURCE (R341). An enabled wake source wakes the device from SLEEP into BOOT. -/
  | wakeSource (src : Nat)
  /-- SLOW_ALARM (R341). The slow time reaches ALARM_HI:ALARM_LO. -/
  | slowAlarm
  /-- SLOW_LO_READ (R348). A read of SLOW_LO copies the high word of slow time. -/
  | slowLoRead (fn : Nat)
  /-- BOOT_GO (R343). A host writes BOOT_GO to boot from an image in frame memory. -/
  | bootGo (fn : Nat)
  /-- BOOT_IMAGE_CHECK (R344). An image read completes, is verified, and is applied or rejected. -/
  | bootImageCheck (flash : Option FlashRead)
  /-- BIST_BLOCK_DONE (R354). A block's self-test ends and its result is recorded. -/
  | bistBlockDone (b : Nat) (ranToEnd signatureOk countOk : Bool)
  /-- SHUTDOWN_RUN (R356). BIST_CMD.SHUTDOWN_RUN runs the start set in IDLE and retains its verdict. -/
  | shutdownRun (fn : Nat)
  /-- STOP (R357). BIST_CMD.STOP ends a test set at once. -/
  | stop (fn : Nat)
  /-- ROT_STEP_START (R358). Every ROT_GAP_MS a rotation step stops dispatch to the next cluster. -/
  | rotStepStart
  /-- ROT_CLUSTER_DRAINED (R358). The cluster's last core frees and its LBIST and MBIST start. -/
  | rotClusterDrained
  /-- ROT_DRAIN_TIMEOUT (R358). The cluster does not free within ROT_DRAIN_US and the step is skipped. -/
  | rotDrainTimeout
  /-- OTP_GO (R351). OTP_GO programs the 1 bits of OTP_DATA into an OTP word, or is refused. -/
  | otpGo (fn : Nat)
  /-- LC_REQ (R352). A write of LC_REQ requests the move from DEPLOYED to RMA with an unlock record. -/
  | lcReq (fn : Nat) (v : W32)
  /-- CAL_WRITE (R362). A user calibration write applied at once or held for the next frame instant. -/
  | calWrite (fn off : Nat) (v : W32)
  /-- CNT_LO_READ (R363). A read of CNT_LO_n copies bits [47:32] into CNT_HI_n. -/
  | cntLoRead (fn n : Nat)
  /-- CNT_SNAP (R365). CNT_SNAP copies all 512 counters into the snapshot bank. -/
  | cntSnap (fn : Nat)
  /-- RC_READ (R12). A read of an RC field such as MAX_USED or PEAK_TX returns and clears it. -/
  | rcRead (fn : Nat) (sp : Space) (off size : Nat) (setting : W32) (other : Option (Nat × Option W32))
  /-- TAG_SAMPLE (R367). A core's random tag interval ends and it writes a tag record. -/
  | tagSample (core : Nat) (stall : BitVec 16) (cause : Byte) (paired predOff : Bool)
  /-- BW_WINDOW_END (R368). A port bandwidth window ends and its BW fields update. -/
  | bwWindowEnd (p : Nat)
  /-- RING_DMA_FAULT (R301). A ring's fetch or write-back DMA faults, so the ring stops as though EN were cleared, RING_STATUS.FAULT sets and EV_DMA_FAULT is raised. -/
  | ringDmaFault (r : Nat)
  /-- FILL_COPY_COMPLETE (R132). The copy of filled tiles from slot E − 1 ends, so the Glaze stage may read them and a release waiting for the copy takes place. -/
  | fillCopyComplete (c : Nat)
  /-- REF10_RETURN (R237). Edges return on the 10 MHz reference input after a loss, and REF10_OK reads 1 again. -/
  | ref10Return (at_ : W64)
  /-- HBM_STACK_TEMP_CROSS (R384). The HBM3 stack temperature crosses 85 °C, and the device doubles or restores the HBM3 refresh rate. -/
  | hbmStackTempCross (above : Bool)
deriving DecidableEq, Repr

end Sys2Proof
end

