-- ==== Sys2Proof/WellFormed.lean ====
section
/-!
DEFINITION. Which commands are well formed: every number that names one of a repeated thing lies in the range that the
manual gives it (R3, Tables 2-1, 14-1), and the codes of a Quolasyn instruction are ones that its tables list (R35).
-/

namespace Sys2Proof

/-- The codes of a Quolasyn instruction are assigned (R35): the type of a vector integer operation is 0 to 4 (R63),
VDITH is 8 to 16 bits (R69), VLUT and VLUTI 8 to 12 (R71), a store does not name the layer space (R30), and VSAMP has
one of three edge modes (R74). -/
def codesOk (i : Instr) : Bool :=
  match i with
  | .vadd _ t _ => decide (t.toNat < 5)
  | .vsub _ t _ => decide (t.toNat < 5)
  | .vadds _ t _ => decide (t.toNat < 5)
  | .vsubs _ t _ => decide (t.toNat < 5)
  | .vand _ t _ => decide (t.toNat < 5)
  | .vor _ t _ => decide (t.toNat < 5)
  | .vxor _ t _ => decide (t.toNat < 5)
  | .vshl _ t _ => decide (t.toNat < 5)
  | .vshr _ t _ => decide (t.toNat < 5)
  | .vmin _ t _ => decide (t.toNat < 5)
  | .vmax _ t _ => decide (t.toNat < 5)
  | .vmul _ t _ => decide (t.toNat < 5)
  | .vmad _ t _ => decide (t.toNat < 5)
  | .vsel _ t _ => decide (t.toNat < 5)
  | .vcmpeq _ t _ => decide (t.toNat < 5)
  | .vcmplt _ t _ => decide (t.toNat < 5)
  | .vcmple _ t _ => decide (t.toNat < 5)
  | .vbcst _ t _ => decide (t.toNat < 5)
  | .vext _ t _ => decide (t.toNat < 5)
  | .vradd _ t _ => decide (t.toNat < 5)
  | .vperm _ t _ => decide (t.toNat < 5)
  | .vdith _ n _ => decide (n.toNat ≤ 8)
  | .vlut _ t _ => decide (t.toNat ≤ 4)
  | .vluti _ t _ => decide (t.toNat ≤ 4)
  | .st _ sp _ _ => sp != 2
  | .vst _ sp _ _ => sp != 2
  | .vsamp _ _ e _ => e != 3
  | _ => true

/-- Every number that names one of a repeated thing lies in its range. -/
def rangesOk (i : Instr) : Bool :=
  match i with
  | .add k _ => decide (k < 160)
  | .sub k _ => decide (k < 160)
  | .and k _ => decide (k < 160)
  | .or k _ => decide (k < 160)
  | .xor k _ => decide (k < 160)
  | .shl k _ => decide (k < 160)
  | .shr k _ => decide (k < 160)
  | .sra k _ => decide (k < 160)
  | .slt k _ => decide (k < 160)
  | .sltu k _ => decide (k < 160)
  | .min k _ => decide (k < 160)
  | .max k _ => decide (k < 160)
  | .minu k _ => decide (k < 160)
  | .maxu k _ => decide (k < 160)
  | .sel k _ => decide (k < 160)
  | .mul k _ => decide (k < 160)
  | .mulh k _ => decide (k < 160)
  | .mulhu k _ => decide (k < 160)
  | .mad k _ => decide (k < 160)
  | .div k _ => decide (k < 160)
  | .divu k _ => decide (k < 160)
  | .rem k _ => decide (k < 160)
  | .remu k _ => decide (k < 160)
  | .pxmul k _ => decide (k < 160)
  | .pxadd k _ => decide (k < 160)
  | .pxsub k _ => decide (k < 160)
  | .pand k _ => decide (k < 160)
  | .por k _ => decide (k < 160)
  | .pxor k _ => decide (k < 160)
  | .pandn k _ => decide (k < 160)
  | .pmov k _ => decide (k < 160)
  | .prd k _ => decide (k < 160)
  | .addi k _ => decide (k < 160)
  | .andi k _ => decide (k < 160)
  | .ori k _ => decide (k < 160)
  | .xori k _ => decide (k < 160)
  | .shli k _ => decide (k < 160)
  | .shri k _ => decide (k < 160)
  | .srai k _ => decide (k < 160)
  | .slti k _ => decide (k < 160)
  | .sltiu k _ => decide (k < 160)
  | .muli k _ => decide (k < 160)
  | .li k _ => decide (k < 160)
  | .vadd k _ _ => decide (k < 160)
  | .vsub k _ _ => decide (k < 160)
  | .vadds k _ _ => decide (k < 160)
  | .vsubs k _ _ => decide (k < 160)
  | .vand k _ _ => decide (k < 160)
  | .vor k _ _ => decide (k < 160)
  | .vxor k _ _ => decide (k < 160)
  | .vshl k _ _ => decide (k < 160)
  | .vshr k _ _ => decide (k < 160)
  | .vmin k _ _ => decide (k < 160)
  | .vmax k _ _ => decide (k < 160)
  | .vmul k _ _ => decide (k < 160)
  | .vmad k _ _ => decide (k < 160)
  | .vsel k _ _ => decide (k < 160)
  | .vcmpeq k _ _ => decide (k < 160)
  | .vcmplt k _ _ => decide (k < 160)
  | .vcmple k _ _ => decide (k < 160)
  | .vbcst k _ _ => decide (k < 160)
  | .vext k _ _ => decide (k < 160)
  | .vradd k _ _ => decide (k < 160)
  | .vperm k _ _ => decide (k < 160)
  | .vfadd k _ _ => decide (k < 160)
  | .vfsub k _ _ => decide (k < 160)
  | .vfmul k _ _ => decide (k < 160)
  | .vfma k _ _ => decide (k < 160)
  | .vfmin k _ _ => decide (k < 160)
  | .vfmax k _ _ => decide (k < 160)
  | .vfdiv k _ _ => decide (k < 160)
  | .vfsqrt k _ _ => decide (k < 160)
  | .vfcmpeq k _ _ => decide (k < 160)
  | .vfcmplt k _ _ => decide (k < 160)
  | .vfcmple k _ _ => decide (k < 160)
  | .vftoi k _ _ => decide (k < 160)
  | .vitof k _ _ => decide (k < 160)
  | .vftopx k _ _ => decide (k < 160)
  | .vpxtof k _ _ => decide (k < 160)
  | .vfradd k _ _ => decide (k < 160)
  | .vfabs k _ _ => decide (k < 160)
  | .vfneg k _ _ => decide (k < 160)
  | .vmix k _ _ => decide (k < 160)
  | .vmat3 k _ => decide (k < 160)
  | .vdith k _ _ => decide (k < 160)
  | .vunpkP16 k _ => decide (k < 160)
  | .vunpkU8 k _ => decide (k < 160)
  | .vunpkF16 k _ => decide (k < 160)
  | .vpackP16 k _ => decide (k < 160)
  | .vpackU8 k _ => decide (k < 160)
  | .vpackF16 k _ => decide (k < 160)
  | .vlut k _ _ => decide (k < 160)
  | .vluti k _ _ => decide (k < 160)
  | .vgath k _ _ => decide (k < 160)
  | .vgathl k _ _ => decide (k < 160)
  | .vscat k _ _ => decide (k < 160)
  | .ld k _ _ _ => decide (k < 160)
  | .vld k _ _ _ => decide (k < 160)
  | .vldb k _ _ _ => decide (k < 160)
  | .st k _ _ _ => decide (k < 160)
  | .vst k _ _ _ => decide (k < 160)
  | .reservedInstruction k _ => decide (k < 160)
  | .vsamp k _ _ _ => decide (k < 160)
  | .specIn k _ => decide (k < 160)
  | .firmIn k _ => decide (k < 160)
  | .specVer k _ => decide (k < 160)
  | .firmVer k _ => decide (k < 160)
  | .etabRd k _ => decide (k < 160)
  | .etabWr k _ => decide (k < 160)
  | .pktAlloc k _ => decide (k < 160)
  | .pktRd k _ => decide (k < 160)
  | .pktWr k _ => decide (k < 160)
  | .pktLen k _ => decide (k < 160)
  | .pktSend k _ => decide (k < 160)
  | .pktFree k _ => decide (k < 160)
  | .yield k _ => decide (k < 160)
  | .done k _ => decide (k < 160)
  | .spawn k _ => decide (k < 160)
  | .post k _ => decide (k < 160)
  | .cancel k _ => decide (k < 160)
  | .bra k _ => decide (k < 160)
  | .beq k _ => decide (k < 160)
  | .bne k _ => decide (k < 160)
  | .blt k _ => decide (k < 160)
  | .bge k _ => decide (k < 160)
  | .bltu k _ => decide (k < 160)
  | .bgeu k _ => decide (k < 160)
  | .bany k _ => decide (k < 160)
  | .ball k _ => decide (k < 160)
  | .bnone k _ => decide (k < 160)
  | .call k _ => decide (k < 160)
  | .jr k _ => decide (k < 160)
  | .callr k _ => decide (k < 160)
  | .nop k _ => decide (k < 160)
  | .crr k _ => decide (k < 160)
  | .vcrr k _ => decide (k < 160)
  | .fence k _ => decide (k < 160)
  | .brk k _ => decide (k < 160)
  | .trap k _ => decide (k < 160)
  | .cntAdd k _ => decide (k < 160)
  | .task h _ => decide (h.ring < 64)
  | .cue h _ _ _ => decide (h.ring < 64)
  | .alloc h _ => decide (h.ring < 64)
  | .retire h _ => decide (h.ring < 64)
  | .layerNew h _ _ _ _ _ => decide (h.ring < 64)
  | .layerSet h _ _ _ => decide (h.ring < 64)
  | .importLayer h _ _ _ _ _ => decide (h.ring < 64)
  | .layerDel h _ => decide (h.ring < 64)
  | .badCommand h _ _ _ => decide (h.ring < 64)
  | .registerWrite fn _ off _ size _ _ => decide (fn < 33) && decide (off < 16777216) && decide (size < 5)
  | .semClaim n fn _ => decide (n < 256) && decide (fn < 33)
  | .semRelease n fn _ _ => decide (n < 256) && decide (fn < 33)
  | .semForce fn _ => decide (fn < 33)
  | .semLeaseExpire n => decide (n < 256)
  | .ringEnable r fn _ => decide (r < 64) && decide (fn < 33)
  | .ringTailWrite r fn _ _ => decide (r < 64) && decide (fn < 33)
  | .ringHeadWrite r fn _ => decide (r < 64) && decide (fn < 33)
  | .ringFlush r fn => decide (r < 64) && decide (fn < 33)
  | .flushComplete r _ => decide (r < 64)
  | .producerResume r _ => decide (r < 64)
  | .bar2Write fn off _ _ => decide (fn < 33) && decide (off < 34359738368)
  | .bar2Read fn off n => decide (fn < 33) && decide (off < 34359738368) && decide (n < 34359738368)
  | .importDone layer _ _ => decide (layer < 1024)
  | .importDmaFault layer _ => decide (layer < 1024)
  | .fenceComplete ctx => decide (ctx < 128)
  | .functionLevelReset fn => decide (fn < 33)
  | .perstN host _ => decide (host < 2)
  | .pcieLinkChange host _ _ => decide (host < 2)
  | .dispatch => true
  | .affinityWaitEnd slot => decide (slot < 65536)
  | .tileTaskCreate => true
  | .taskRecreate => true
  | .taskRebind slot => decide (slot < 65536)
  | .schedCancel fn _ _ => decide (fn < 33)
  | .schedKick fn _ => decide (fn < 33)
  | .ctxDisable fn ctx _ => decide (fn < 33) && decide (ctx < 128)
  | .coreTimePeriodEnd ctx => decide (ctx < 128)
  | .inputLogEnter _ _ => true
  | .frameInstant fc => decide (fc < 4)
  | .commit c => decide (c < 64)
  | .stallRelease c => decide (c < 64)
  | .canvasEnable fn c _ => decide (fn < 33) && decide (c < 64)
  | .canvasDisable fn c _ => decide (fn < 33) && decide (c < 64)
  | .squash fn c => decide (fn < 33) && decide (c < 64)
  | .pin fn c => decide (fn < 33) && decide (c < 64)
  | .unpin fn c => decide (fn < 33) && decide (c < 64)
  | .wake fn c => decide (fn < 33) && decide (c < 64)
  | .shadowedWrite fn off _ => decide (fn < 33) && decide (off < 16777216)
  | .glazeSegment pipe _ => decide (pipe < 8)
  | .windowEnd c _ => decide (c < 64)
  | .planeCut c _ p => decide (c < 64) && decide (p < 4)
  | .mordWrite fn _ => decide (fn < 33)
  | .mordRead fn => decide (fn < 33)
  | .etabStageWrite fn e k _ => decide (fn < 33) && decide (e < 131072) && decide (k < 16)
  | .etabPublish fn e _ => decide (fn < 33) && decide (e < 131072)
  | .viewWrite fn ctx _ _ => decide (fn < 33) && decide (ctx < 128)
  | .tableBaseWrite fn _ _ => decide (fn < 33)
  | .fltClr fn _ => decide (fn < 33)
  | .drvKick fn _ => decide (fn < 33)
  | .blackoutOn fn => decide (fn < 33)
  | .blackoutOff fn => decide (fn < 33)
  | .blackoutRepeat => true
  | .clear fn g _ => decide (fn < 33) && decide (g < 4096)
  | .force fn g _ => decide (fn < 33) && decide (g < 4096)
  | .streamTerminated fn u _ => decide (fn < 33) && decide (u < 8192)
  | .latch c => decide (c < 64)
  | .beacon c => decide (c < 64)
  | .sacnSync c => decide (c < 64)
  | .dmxPacketStart p => decide (p < 8)
  | .dmxPacketEnd p => decide (p < 8)
  | .stat port _ => decide (port < 32)
  | .nodeLost e => decide (e < 131072)
  | .setGo fn => decide (fn < 33)
  | .otLoRead fn => decide (fn < 33)
  | .measPush fn d => decide (fn < 33) && decide (d < 2)
  | .annKick fn d => decide (fn < 33) && decide (d < 2)
  | .announceTimeout d => decide (d < 2)
  | .timeSelWrite fn _ => decide (fn < 33)
  | .domEnWrite fn d _ => decide (fn < 33) && decide (d < 2)
  | .fcEnable fn n _ => decide (fn < 33) && decide (n < 4)
  | .fcCtrlWrite fn n _ => decide (fn < 33) && decide (n < 4)
  | .fcPhaseWrite fn n _ => decide (fn < 33) && decide (n < 4)
  | .nextLoRead fn n => decide (fn < 33) && decide (n < 4)
  | .tsqPop fn p _ => decide (fn < 33) && decide (p < 32)
  | .tsqFlush fn p => decide (fn < 33) && decide (p < 32)
  | .ppsInEdge _ _ => true
  | .ppsInLoRead fn => decide (fn < 33)
  | .ppsOutPulse i => decide (i < 2)
  | .ref10Window _ => true
  | .ref10Loss => true
  | .frameStart p => decide (p < 32)
  | .txFrameEnd p => decide (p < 32)
  | .txDescriptorFrame r _ _ _ => decide (r < 64)
  | .gateCycleStart p => decide (p < 16)
  | .swap fn p _ => decide (fn < 33) && decide (p < 16)
  | .portDisable fn p _ => decide (fn < 33) && decide (p < 32)
  | .pauseFrame p _ => decide (p < 16)
  | .pauseExpire p cls => decide (p < 16) && decide (cls < 8)
  | .pauseWdTrip p cls => decide (p < 16) && decide (cls < 8)
  | .pauseRecEnd p cls => decide (p < 16) && decide (cls < 8)
  | .lpiEnter p => decide (p < 16)
  | .lpiWake p => decide (p < 16)
  | .eeeOkWrite fn p _ => decide (fn < 33) && decide (p < 16)
  | .linkChange p _ _ => decide (p < 16)
  | .serviceFrameRx p _ => decide (p < 32)
  | .flowFrameRx p _ => decide (p < 32)
  | .badFrameRx p _ => decide (p < 32)
  | .videoPacketRx p _ _ _ => decide (p < 16)
  | .audioPacketRx p _ _ _ => decide (p < 16)
  | .ancPacketRx p _ _ _ => decide (p < 16)
  | .ltcWord _ _ => true
  | .sacnPacketRx p _ _ => decide (p < 16)
  | .sacnSourceTimeout u _ => decide (u < 1024)
  | .legLoss _ s leg => decide (s < 17) && decide (leg < 2)
  | .tcLoss n => decide (n < 17)
  | .t1sCollision p _ => decide (p < 32)
  | .backoffExpire p => decide (p < 32)
  | .plcaBeaconChange p _ => decide (p < 32)
  | .go fn p _ => decide (fn < 33) && decide (p < 8)
  | .rdmListenEnd p _ _ _ => decide (p < 8)
  | .leaseRenew => true
  | .leaseLapse => true
  | .leaseExpiry => true
  | .takeover => true
  | .waitTimeout => true
  | .leaseInEdge _ => true
  | .wireSilent => true
  | .twinLinkChange lane _ => decide (lane < 2)
  | .renew _ _ _ _ _ _ _ => true
  | .commitRecord _ _ c _ _ _ => decide (c < 64)
  | .changeRecord _ _ ctx _ _ _ _ => decide (ctx < 128)
  | .regw _ off _ fn _ => decide (off < 16777216) && decide (fn < 33)
  | .cmdRecord _ _ _ => true
  | .memw _ _ _ => true
  | .layerRecord _ _ layer _ _ _ _ => decide (layer < 1024)
  | .epstate _ e _ _ => decide (e < 131072)
  | .handover _ _ => true
  | .copyRecord _ _ _ _ _ => true
  | .copyEnd _ _ => true
  | .ack _ _ _ _ _ _ _ => true
  | .copySend => true
  | .shadowWaitExpire => true
  | .resign fn => decide (fn < 33)
  | .assume fn => decide (fn < 33)
  | .resync fn => decide (fn < 33)
  | .leaveSafe fn => decide (fn < 33)
  | .twinEnWrite fn _ => decide (fn < 33)
  | .modeReqShow fn => decide (fn < 33)
  | .modeReqIdle fn => decide (fn < 33)
  | .modeReqTest fn => decide (fn < 33)
  | .modeReqSleep fn => decide (fn < 33)
  | .modeReqSafe fn => decide (fn < 33)
  | .modeTransitionDone => true
  | .holdEnWrite fn _ => decide (fn < 33)
  | .hbmSelfRefresh => true
  | .softRst fn => decide (fn < 33)
  | .powerOn => true
  | .aonRstN => true
  | .sysRstN => true
  | .resetRelease _ _ => true
  | .railFault rail => decide (rail < 9)
  | .refClockLoss input _ => decide (input < 5)
  | .avsCommand _ => true
  | .dieTempCross _ => true
  | .wakeSource src => decide (src < 4)
  | .slowAlarm => true
  | .slowLoRead fn => decide (fn < 33)
  | .bootGo fn => decide (fn < 33)
  | .bootImageCheck _ => true
  | .bistBlockDone b _ _ _ => decide (b < 128)
  | .shutdownRun fn => decide (fn < 33)
  | .stop fn => decide (fn < 33)
  | .rotStepStart => true
  | .rotClusterDrained => true
  | .rotDrainTimeout => true
  | .otpGo fn => decide (fn < 33)
  | .lcReq fn _ => decide (fn < 33)
  | .calWrite fn off _ => decide (fn < 33) && decide (off < 16777216)
  | .cntLoRead fn n => decide (fn < 33) && decide (n < 512)
  | .cntSnap fn => decide (fn < 33)
  | .rcRead fn _ off size _ _ => decide (fn < 33) && decide (off < 16777216) && decide (size < 5)
  | .tagSample core _ _ _ _ => decide (core < 160)
  | .bwWindowEnd p => decide (p < 32)
  | .ringDmaFault r => decide (r < 64)
  | .fillCopyComplete c => decide (c < 64)
  | .ref10Return _ => true
  | .hbmStackTempCross _ => true

/-- A well-formed command. -/
def wellFormed (i : Instr) : Bool := codesOk i && rangesOk i

end Sys2Proof
end

