-- ==== Sys2Proof/Decode.lean ====
section
/-!
DEFINITION. Decoding. The opcode table gives its rows no bits (each row is a command, not a word), so the table's words
spell no command. Beside it stands the decoder of the 64-bit Quolasyn instruction word (R32 to R36, Tables 2-7 to 2-9
and the function tables of the instruction reference), and its encoder.
-/

namespace Sys2Proof

/-- The command that a word spells by the bits of the opcode table: no row of the table gives bits. -/
def decodeTableWord (_nbits _w : Nat) : Option Instr := none

/-- The operand fields of an instruction word (R32). -/
def fieldsOf (w : W64) : F :=
  ⟨w.extractLsb' 53 5, w.extractLsb' 48 5, w.extractLsb' 43 5, w.extractLsb' 40 3, w.extractLsb' 0 32⟩

/-- The major opcode, bits [63:58] (R32). -/
def majorOf (w : W64) : BitVec 6 := w.extractLsb' 58 6

/-- The function code, bits [39:32] (R32). -/
def funcOf (w : W64) : BitVec 8 := w.extractLsb' 32 8

/-- An instruction word from its fields (R32). -/
def packWord (maj : BitVec 6) (fn : BitVec 8) (f : F) : W64 :=
  maj ++ f.d ++ f.a ++ f.b ++ f.p ++ fn ++ f.imm

/-- Scalar ALU functions (Table 3-1). -/
def decAlu (k : Nat) (fn : BitVec 8) (f : F) : Option Instr :=
  match fn.toNat with
  | 0 => some (.add k f)
  | 1 => some (.sub k f)
  | 2 => some (.and k f)
  | 3 => some (.or k f)
  | 4 => some (.xor k f)
  | 5 => some (.shl k f)
  | 6 => some (.shr k f)
  | 7 => some (.sra k f)
  | 8 => some (.slt k f)
  | 9 => some (.sltu k f)
  | 10 => some (.min k f)
  | 11 => some (.max k f)
  | 12 => some (.minu k f)
  | 13 => some (.maxu k f)
  | 14 => some (.sel k f)
  | 16 => some (.mul k f)
  | 17 => some (.mulh k f)
  | 18 => some (.mulhu k f)
  | 19 => some (.mad k f)
  | 24 => some (.div k f)
  | 25 => some (.divu k f)
  | 26 => some (.rem k f)
  | 27 => some (.remu k f)
  | 32 => some (.pxmul k f)
  | 33 => some (.pxadd k f)
  | 34 => some (.pxsub k f)
  | 40 => some (.pand k f)
  | 41 => some (.por k f)
  | 42 => some (.pxor k f)
  | 43 => some (.pandn k f)
  | 44 => some (.pmov k f)
  | 45 => some (.prd k f)
  | _ => none

/-- Scalar immediate functions (Table 3-2). -/
def decImm (k : Nat) (fn : BitVec 8) (f : F) : Option Instr :=
  match fn.toNat with
  | 0 => some (.addi k f)
  | 2 => some (.andi k f)
  | 3 => some (.ori k f)
  | 4 => some (.xori k f)
  | 5 => some (.shli k f)
  | 6 => some (.shri k f)
  | 7 => some (.srai k f)
  | 8 => some (.slti k f)
  | 9 => some (.sltiu k f)
  | 16 => some (.muli k f)
  | 32 => some (.li k f)
  | _ => none

/-- Input functions (Table 3-10). -/
def decInput (k : Nat) (fn : BitVec 8) (f : F) : Option Instr :=
  match fn.toNat with
  | 0 => some (.specIn k f)
  | 1 => some (.firmIn k f)
  | 2 => some (.specVer k f)
  | 3 => some (.firmVer k f)
  | 8 => some (.etabRd k f)
  | 9 => some (.etabWr k f)
  | _ => none

/-- Packet functions (Table 3-12). -/
def decPkt (k : Nat) (fn : BitVec 8) (f : F) : Option Instr :=
  match fn.toNat with
  | 0 => some (.pktAlloc k f)
  | 1 => some (.pktRd k f)
  | 2 => some (.pktWr k f)
  | 3 => some (.pktLen k f)
  | 4 => some (.pktSend k f)
  | 5 => some (.pktFree k f)
  | _ => none

/-- Task functions (Table 3-13). -/
def decTask (k : Nat) (fn : BitVec 8) (f : F) : Option Instr :=
  match fn.toNat with
  | 0 => some (.yield k f)
  | 1 => some (.done k f)
  | 2 => some (.spawn k f)
  | 3 => some (.post k f)
  | 4 => some (.cancel k f)
  | _ => none

/-- Branch functions (Table 3-14). -/
def decBranch (k : Nat) (fn : BitVec 8) (f : F) : Option Instr :=
  match fn.toNat with
  | 0 => some (.bra k f)
  | 1 => some (.beq k f)
  | 2 => some (.bne k f)
  | 3 => some (.blt k f)
  | 4 => some (.bge k f)
  | 5 => some (.bltu k f)
  | 6 => some (.bgeu k f)
  | 8 => some (.bany k f)
  | 9 => some (.ball k f)
  | 10 => some (.bnone k f)
  | 16 => some (.call k f)
  | 17 => some (.jr k f)
  | 18 => some (.callr k f)
  | _ => none

/-- System functions (Table 3-15). -/
def decSystem (k : Nat) (fn : BitVec 8) (f : F) : Option Instr :=
  match fn.toNat with
  | 0 => some (.nop k f)
  | 1 => some (.crr k f)
  | 2 => some (.vcrr k f)
  | 8 => some (.fence k f)
  | 16 => some (.brk k f)
  | 17 => some (.trap k f)
  | 24 => some (.cntAdd k f)
  | _ => none

/-- Vector integer operations: function = operation × 8 + type; type codes 5 to 7 are illegal (R63, Table 3-3). -/
def decVint (k : Nat) (fn : BitVec 8) (f : F) : Option Instr :=
  let t := fn.extractLsb' 0 3
  if 5 ≤ t.toNat then none
  else
    match fn.toNat / 8 with
    | 0 => some (.vadd k t f)
    | 1 => some (.vsub k t f)
    | 2 => some (.vadds k t f)
    | 3 => some (.vsubs k t f)
    | 4 => some (.vand k t f)
    | 5 => some (.vor k t f)
    | 6 => some (.vxor k t f)
    | 7 => some (.vshl k t f)
    | 8 => some (.vshr k t f)
    | 9 => some (.vmin k t f)
    | 10 => some (.vmax k t f)
    | 11 => some (.vmul k t f)
    | 12 => some (.vmad k t f)
    | 13 => some (.vsel k t f)
    | 14 => some (.vcmpeq k t f)
    | 15 => some (.vcmplt k t f)
    | 16 => some (.vcmple k t f)
    | 17 => some (.vbcst k t f)
    | 18 => some (.vext k t f)
    | 19 => some (.vradd k t f)
    | 20 => some (.vperm k t f)
    | _ => none

/-- Vector float operations: function = operation × 2 + precision (R65, Table 3-4). -/
def decVfloat (k : Nat) (fn : BitVec 8) (f : F) : Option Instr :=
  let h := fn.getLsbD 0
  match fn.toNat / 2 with
  | 0 => some (.vfadd k h f)
  | 1 => some (.vfsub k h f)
  | 2 => some (.vfmul k h f)
  | 3 => some (.vfma k h f)
  | 4 => some (.vfmin k h f)
  | 5 => some (.vfmax k h f)
  | 6 => some (.vfdiv k h f)
  | 7 => some (.vfsqrt k h f)
  | 8 => some (.vfcmpeq k h f)
  | 9 => some (.vfcmplt k h f)
  | 10 => some (.vfcmple k h f)
  | 11 => some (.vftoi k h f)
  | 12 => some (.vitof k h f)
  | 13 => some (.vftopx k h f)
  | 14 => some (.vpxtof k h f)
  | 15 => some (.vfradd k h f)
  | 16 => some (.vfabs k h f)
  | 17 => some (.vfneg k h f)
  | _ => none

/-- Pixel functions (Table 3-5). -/
def decPixel (k : Nat) (fn : BitVec 8) (f : F) : Option Instr :=
  if fn.toNat < 8 then some (.vmix k (fn.extractLsb' 0 3) f)
  else if 0x20 ≤ fn.toNat && fn.toNat ≤ 0x28 then some (.vdith k (fn.extractLsb' 0 4) f)
  else
    match fn.toNat with
    | 16 => some (.vmat3 k f)
    | 48 => some (.vunpkP16 k f)
    | 49 => some (.vunpkU8 k f)
    | 50 => some (.vunpkF16 k f)
    | 56 => some (.vpackP16 k f)
    | 57 => some (.vpackU8 k f)
    | 58 => some (.vpackF16 k f)
    | _ => none

/-- LUT and gather functions (Table 3-8). -/
def decLut (k : Nat) (fn : BitVec 8) (f : F) : Option Instr :=
  let t := fn.extractLsb' 0 3
  match fn.toNat / 8 with
  | 0 => if t.toNat ≤ 4 then some (.vlut k t f) else none
  | 2 => if t.toNat ≤ 4 then some (.vluti k t f) else none
  | 4 => some (.vgath k t f)
  | 5 => some (.vgathl k t f)
  | 6 => some (.vscat k t f)
  | _ => none

/-- Load and store functions: space, type, mode (Table 2-9); a store that names the layer space is illegal (R30). -/
def decMem (k : Nat) (fn : BitVec 8) (f : F) : Option Instr :=
  let sp := fn.extractLsb' 6 2
  let t := fn.extractLsb' 3 3
  match fn.toNat % 8 with
  | 0 => some (.ld k sp t f)
  | 1 => some (.vld k sp t f)
  | 2 => some (.vldb k sp t f)
  | 4 => if sp = 2 then none else some (.st k sp t f)
  | 5 => if sp = 2 then none else some (.vst k sp t f)
  | _ => none

/-- VSAMP functions (R74). -/
def decSamp (k : Nat) (fn : BitVec 8) (f : F) : Option Instr :=
  let e := fn.extractLsb' 0 2
  if 8 ≤ fn.toNat || e = 3 then none else some (.vsamp k (fn.getLsbD 2) e f)

/-- The instruction that a word spells, issued on core `k`; none for a reserved opcode, function, space or mode (R35). -/
def decodeWord (k : Nat) (w : W64) : Option Instr :=
  let fn := funcOf w
  let f := fieldsOf w
  match (majorOf w).toNat with
  | 0x00 => decAlu k fn f
  | 0x01 => decImm k fn f
  | 0x08 => decVint k fn f
  | 0x09 => decVfloat k fn f
  | 0x0A => decPixel k fn f
  | 0x0C => decLut k fn f
  | 0x10 => decMem k fn f
  | 0x11 => decSamp k fn f
  | 0x14 => decInput k fn f
  | 0x18 => decPkt k fn f
  | 0x1C => decTask k fn f
  | 0x20 => decBranch k fn f
  | 0x3F => decSystem k fn f
  | _ => none

/-- The major opcode, function code and fields of an instruction (Tables 2-8 and 3-1 to 3-15). -/
def partsOf (i : Instr) : Option (BitVec 6 × BitVec 8 × F) :=
  match i with
  | .add _ f => some (0, 0, f)
  | .sub _ f => some (0, 1, f)
  | .and _ f => some (0, 2, f)
  | .or _ f => some (0, 3, f)
  | .xor _ f => some (0, 4, f)
  | .shl _ f => some (0, 5, f)
  | .shr _ f => some (0, 6, f)
  | .sra _ f => some (0, 7, f)
  | .slt _ f => some (0, 8, f)
  | .sltu _ f => some (0, 9, f)
  | .min _ f => some (0, 10, f)
  | .max _ f => some (0, 11, f)
  | .minu _ f => some (0, 12, f)
  | .maxu _ f => some (0, 13, f)
  | .sel _ f => some (0, 14, f)
  | .mul _ f => some (0, 16, f)
  | .mulh _ f => some (0, 17, f)
  | .mulhu _ f => some (0, 18, f)
  | .mad _ f => some (0, 19, f)
  | .div _ f => some (0, 24, f)
  | .divu _ f => some (0, 25, f)
  | .rem _ f => some (0, 26, f)
  | .remu _ f => some (0, 27, f)
  | .pxmul _ f => some (0, 32, f)
  | .pxadd _ f => some (0, 33, f)
  | .pxsub _ f => some (0, 34, f)
  | .pand _ f => some (0, 40, f)
  | .por _ f => some (0, 41, f)
  | .pxor _ f => some (0, 42, f)
  | .pandn _ f => some (0, 43, f)
  | .pmov _ f => some (0, 44, f)
  | .prd _ f => some (0, 45, f)
  | .addi _ f => some (1, 0, f)
  | .andi _ f => some (1, 2, f)
  | .ori _ f => some (1, 3, f)
  | .xori _ f => some (1, 4, f)
  | .shli _ f => some (1, 5, f)
  | .shri _ f => some (1, 6, f)
  | .srai _ f => some (1, 7, f)
  | .slti _ f => some (1, 8, f)
  | .sltiu _ f => some (1, 9, f)
  | .muli _ f => some (1, 16, f)
  | .li _ f => some (1, 32, f)
  | .vadd _ t f => some (8, (0 : BitVec 5) ++ t, f)
  | .vsub _ t f => some (8, (1 : BitVec 5) ++ t, f)
  | .vadds _ t f => some (8, (2 : BitVec 5) ++ t, f)
  | .vsubs _ t f => some (8, (3 : BitVec 5) ++ t, f)
  | .vand _ t f => some (8, (4 : BitVec 5) ++ t, f)
  | .vor _ t f => some (8, (5 : BitVec 5) ++ t, f)
  | .vxor _ t f => some (8, (6 : BitVec 5) ++ t, f)
  | .vshl _ t f => some (8, (7 : BitVec 5) ++ t, f)
  | .vshr _ t f => some (8, (8 : BitVec 5) ++ t, f)
  | .vmin _ t f => some (8, (9 : BitVec 5) ++ t, f)
  | .vmax _ t f => some (8, (10 : BitVec 5) ++ t, f)
  | .vmul _ t f => some (8, (11 : BitVec 5) ++ t, f)
  | .vmad _ t f => some (8, (12 : BitVec 5) ++ t, f)
  | .vsel _ t f => some (8, (13 : BitVec 5) ++ t, f)
  | .vcmpeq _ t f => some (8, (14 : BitVec 5) ++ t, f)
  | .vcmplt _ t f => some (8, (15 : BitVec 5) ++ t, f)
  | .vcmple _ t f => some (8, (16 : BitVec 5) ++ t, f)
  | .vbcst _ t f => some (8, (17 : BitVec 5) ++ t, f)
  | .vext _ t f => some (8, (18 : BitVec 5) ++ t, f)
  | .vradd _ t f => some (8, (19 : BitVec 5) ++ t, f)
  | .vperm _ t f => some (8, (20 : BitVec 5) ++ t, f)
  | .vfadd _ h f => some (9, (0 : BitVec 7) ++ BitVec.ofBool h, f)
  | .vfsub _ h f => some (9, (1 : BitVec 7) ++ BitVec.ofBool h, f)
  | .vfmul _ h f => some (9, (2 : BitVec 7) ++ BitVec.ofBool h, f)
  | .vfma _ h f => some (9, (3 : BitVec 7) ++ BitVec.ofBool h, f)
  | .vfmin _ h f => some (9, (4 : BitVec 7) ++ BitVec.ofBool h, f)
  | .vfmax _ h f => some (9, (5 : BitVec 7) ++ BitVec.ofBool h, f)
  | .vfdiv _ h f => some (9, (6 : BitVec 7) ++ BitVec.ofBool h, f)
  | .vfsqrt _ h f => some (9, (7 : BitVec 7) ++ BitVec.ofBool h, f)
  | .vfcmpeq _ h f => some (9, (8 : BitVec 7) ++ BitVec.ofBool h, f)
  | .vfcmplt _ h f => some (9, (9 : BitVec 7) ++ BitVec.ofBool h, f)
  | .vfcmple _ h f => some (9, (10 : BitVec 7) ++ BitVec.ofBool h, f)
  | .vftoi _ h f => some (9, (11 : BitVec 7) ++ BitVec.ofBool h, f)
  | .vitof _ h f => some (9, (12 : BitVec 7) ++ BitVec.ofBool h, f)
  | .vftopx _ h f => some (9, (13 : BitVec 7) ++ BitVec.ofBool h, f)
  | .vpxtof _ h f => some (9, (14 : BitVec 7) ++ BitVec.ofBool h, f)
  | .vfradd _ h f => some (9, (15 : BitVec 7) ++ BitVec.ofBool h, f)
  | .vfabs _ h f => some (9, (16 : BitVec 7) ++ BitVec.ofBool h, f)
  | .vfneg _ h f => some (9, (17 : BitVec 7) ++ BitVec.ofBool h, f)
  | .vmix _ t f => some (10, (0 : BitVec 5) ++ t, f)
  | .vdith _ n f => some (10, (2 : BitVec 4) ++ n, f)
  | .vmat3 _ f => some (10, 16, f)
  | .vunpkP16 _ f => some (10, 48, f)
  | .vunpkU8 _ f => some (10, 49, f)
  | .vunpkF16 _ f => some (10, 50, f)
  | .vpackP16 _ f => some (10, 56, f)
  | .vpackU8 _ f => some (10, 57, f)
  | .vpackF16 _ f => some (10, 58, f)
  | .vlut _ t f => some (12, (0 : BitVec 5) ++ t, f)
  | .vluti _ t f => some (12, (2 : BitVec 5) ++ t, f)
  | .vgath _ t f => some (12, (4 : BitVec 5) ++ t, f)
  | .vgathl _ t f => some (12, (5 : BitVec 5) ++ t, f)
  | .vscat _ t f => some (12, (6 : BitVec 5) ++ t, f)
  | .ld _ sp t f => some (16, sp ++ t ++ (0 : BitVec 3), f)
  | .vld _ sp t f => some (16, sp ++ t ++ (1 : BitVec 3), f)
  | .vldb _ sp t f => some (16, sp ++ t ++ (2 : BitVec 3), f)
  | .st _ sp t f => some (16, sp ++ t ++ (4 : BitVec 3), f)
  | .vst _ sp t f => some (16, sp ++ t ++ (5 : BitVec 3), f)
  | .vsamp _ nr e f => some (17, (0 : BitVec 5) ++ BitVec.ofBool nr ++ e, f)
  | .specIn _ f => some (20, 0, f)
  | .firmIn _ f => some (20, 1, f)
  | .specVer _ f => some (20, 2, f)
  | .firmVer _ f => some (20, 3, f)
  | .etabRd _ f => some (20, 8, f)
  | .etabWr _ f => some (20, 9, f)
  | .pktAlloc _ f => some (24, 0, f)
  | .pktRd _ f => some (24, 1, f)
  | .pktWr _ f => some (24, 2, f)
  | .pktLen _ f => some (24, 3, f)
  | .pktSend _ f => some (24, 4, f)
  | .pktFree _ f => some (24, 5, f)
  | .yield _ f => some (28, 0, f)
  | .done _ f => some (28, 1, f)
  | .spawn _ f => some (28, 2, f)
  | .post _ f => some (28, 3, f)
  | .cancel _ f => some (28, 4, f)
  | .bra _ f => some (32, 0, f)
  | .beq _ f => some (32, 1, f)
  | .bne _ f => some (32, 2, f)
  | .blt _ f => some (32, 3, f)
  | .bge _ f => some (32, 4, f)
  | .bltu _ f => some (32, 5, f)
  | .bgeu _ f => some (32, 6, f)
  | .bany _ f => some (32, 8, f)
  | .ball _ f => some (32, 9, f)
  | .bnone _ f => some (32, 10, f)
  | .call _ f => some (32, 16, f)
  | .jr _ f => some (32, 17, f)
  | .callr _ f => some (32, 18, f)
  | .nop _ f => some (63, 0, f)
  | .crr _ f => some (63, 1, f)
  | .vcrr _ f => some (63, 2, f)
  | .fence _ f => some (63, 8, f)
  | .brk _ f => some (63, 16, f)
  | .trap _ f => some (63, 17, f)
  | .cntAdd _ f => some (63, 24, f)
  | _ => none

/-- The core that a Quolasyn instruction issues on. -/
def coreOf (i : Instr) : Nat :=
  match i with
  | .add k _ => k
  | .sub k _ => k
  | .and k _ => k
  | .or k _ => k
  | .xor k _ => k
  | .shl k _ => k
  | .shr k _ => k
  | .sra k _ => k
  | .slt k _ => k
  | .sltu k _ => k
  | .min k _ => k
  | .max k _ => k
  | .minu k _ => k
  | .maxu k _ => k
  | .sel k _ => k
  | .mul k _ => k
  | .mulh k _ => k
  | .mulhu k _ => k
  | .mad k _ => k
  | .div k _ => k
  | .divu k _ => k
  | .rem k _ => k
  | .remu k _ => k
  | .pxmul k _ => k
  | .pxadd k _ => k
  | .pxsub k _ => k
  | .pand k _ => k
  | .por k _ => k
  | .pxor k _ => k
  | .pandn k _ => k
  | .pmov k _ => k
  | .prd k _ => k
  | .addi k _ => k
  | .andi k _ => k
  | .ori k _ => k
  | .xori k _ => k
  | .shli k _ => k
  | .shri k _ => k
  | .srai k _ => k
  | .slti k _ => k
  | .sltiu k _ => k
  | .muli k _ => k
  | .li k _ => k
  | .vmat3 k _ => k
  | .vunpkP16 k _ => k
  | .vunpkU8 k _ => k
  | .vunpkF16 k _ => k
  | .vpackP16 k _ => k
  | .vpackU8 k _ => k
  | .vpackF16 k _ => k
  | .specIn k _ => k
  | .firmIn k _ => k
  | .specVer k _ => k
  | .firmVer k _ => k
  | .etabRd k _ => k
  | .etabWr k _ => k
  | .pktAlloc k _ => k
  | .pktRd k _ => k
  | .pktWr k _ => k
  | .pktLen k _ => k
  | .pktSend k _ => k
  | .pktFree k _ => k
  | .yield k _ => k
  | .done k _ => k
  | .spawn k _ => k
  | .post k _ => k
  | .cancel k _ => k
  | .bra k _ => k
  | .beq k _ => k
  | .bne k _ => k
  | .blt k _ => k
  | .bge k _ => k
  | .bltu k _ => k
  | .bgeu k _ => k
  | .bany k _ => k
  | .ball k _ => k
  | .bnone k _ => k
  | .call k _ => k
  | .jr k _ => k
  | .callr k _ => k
  | .nop k _ => k
  | .crr k _ => k
  | .vcrr k _ => k
  | .fence k _ => k
  | .brk k _ => k
  | .trap k _ => k
  | .cntAdd k _ => k
  | .vadd k _ _ => k
  | .vsub k _ _ => k
  | .vadds k _ _ => k
  | .vsubs k _ _ => k
  | .vand k _ _ => k
  | .vor k _ _ => k
  | .vxor k _ _ => k
  | .vshl k _ _ => k
  | .vshr k _ _ => k
  | .vmin k _ _ => k
  | .vmax k _ _ => k
  | .vmul k _ _ => k
  | .vmad k _ _ => k
  | .vsel k _ _ => k
  | .vcmpeq k _ _ => k
  | .vcmplt k _ _ => k
  | .vcmple k _ _ => k
  | .vbcst k _ _ => k
  | .vext k _ _ => k
  | .vradd k _ _ => k
  | .vperm k _ _ => k
  | .vfadd k _ _ => k
  | .vfsub k _ _ => k
  | .vfmul k _ _ => k
  | .vfma k _ _ => k
  | .vfmin k _ _ => k
  | .vfmax k _ _ => k
  | .vfdiv k _ _ => k
  | .vfsqrt k _ _ => k
  | .vfcmpeq k _ _ => k
  | .vfcmplt k _ _ => k
  | .vfcmple k _ _ => k
  | .vftoi k _ _ => k
  | .vitof k _ _ => k
  | .vftopx k _ _ => k
  | .vpxtof k _ _ => k
  | .vfradd k _ _ => k
  | .vfabs k _ _ => k
  | .vfneg k _ _ => k
  | .vmix k _ _ => k
  | .vdith k _ _ => k
  | .vlut k _ _ => k
  | .vluti k _ _ => k
  | .vgath k _ _ => k
  | .vgathl k _ _ => k
  | .vscat k _ _ => k
  | .ld k _ _ _ => k
  | .vld k _ _ _ => k
  | .vldb k _ _ _ => k
  | .st k _ _ _ => k
  | .vst k _ _ _ => k
  | .vsamp k _ _ _ => k
  | _ => 0

/-- The word of an instruction (R32). -/
def encode (i : Instr) : Option W64 := (partsOf i).map (fun x => packWord x.1 x.2.1 x.2.2)

end Sys2Proof
end

