-- ==== Sys2Proof/Machine/Num.lean ====
section
/-!
DEFINITION. Number formats of the device: integer element types (R24), px16 (R25), the packed pixels (R70),
integer division (R52) and CRC-32C (R133).
-/

namespace Sys2Proof.Machine

/-- Bytes of an element type (Table 2-4). -/
def typeBytes (t : Nat) : Nat :=
  match t with
  | 0 => 1
  | 1 => 2
  | 2 => 2
  | 5 => 2
  | 7 => 2
  | _ => 4

/-- Bits of an element type (Table 2-4). -/
def typeBits (t : Nat) : Nat := 8 * typeBytes t

/-- Whether an element type is signed (Table 2-4). -/
def typeSigned (t : Nat) : Bool := t == 2 || t == 4

/-- A narrow value extended into a 32-bit lane: signed for s16, with zeros for every other type (R24). -/
def extend (t v : Nat) : W32 :=
  if t == 2 then BitVec.ofInt 32 (sgn 16 v) else BitVec.ofNat 32 (v % 2 ^ typeBits t)

/-- The operand of a lane at a type's width, as an integer (R63). -/
def laneInt (t : Nat) (x : W32) : Int :=
  if typeSigned t then sgn (typeBits t) x.toNat else ((x.toNat % 2 ^ typeBits t : Nat) : Int)

/-- The low bits of a lane at a type's width, as a number. -/
def laneNat (t : Nat) (x : W32) : Nat := x.toNat % 2 ^ typeBits t

/-- An integer wrapped at a type's width and extended (R63). -/
def laneWrap (t : Nat) (x : Int) : W32 := extend t (wrap (typeBits t) x)

/-- An integer saturated to a type's range and extended (R63). -/
def laneSat (t : Nat) (x : Int) : W32 :=
  let hi : Int := if typeSigned t then 2 ^ (typeBits t - 1) - 1 else 2 ^ typeBits t - 1
  let lo : Int := if typeSigned t then -(2 ^ (typeBits t - 1)) else 0
  extend t (wrap (typeBits t) (clampInt lo hi x))

/-- `n ÷ k` rounded to nearest even. -/
def divEven (n k : Nat) : Nat :=
  let q := n / k
  let r := n % k
  if k < 2 * r then q + 1 else if 2 * r = k then q + q % 2 else q

/-- The px16 product (R25). -/
def pxMul (a b : Nat) : Nat := divEven (a * b) 65535

/-- The saturating px16 sum (R25). -/
def pxAdd (a b : Nat) : Nat := if 65535 < a + b then 65535 else a + b

/-- The saturating px16 difference (R25). -/
def pxSub (a b : Nat) : Nat := a - b

/-- Unsigned quotient with the rule for division by zero (R52). -/
def quotU (a b : W32) : W32 := if b = 0 then BitVec.allOnes 32 else BitVec.ofNat 32 (a.toNat / b.toNat)

/-- Unsigned remainder: the dividend where the divisor is zero (R52). -/
def remU (a b : W32) : W32 := if b = 0 then a else BitVec.ofNat 32 (a.toNat % b.toNat)

/-- Signed quotient, truncated: −1 or +1 by the dividend's sign where the divisor is zero; −2^31 ÷ −1 wraps (R52). -/
def quotS (a b : W32) : W32 :=
  if b = 0 then (if a.toInt < 0 then 1 else BitVec.allOnes 32)
  else BitVec.ofInt 32 (a.toInt.tdiv b.toInt)

/-- Signed remainder: the dividend where the divisor is zero, 0 for −2^31 ÷ −1 (R52). -/
def remS (a b : W32) : W32 :=
  if b = 0 then a else BitVec.ofInt 32 (a.toInt.tmod b.toInt)

/-- The colour function of a VMIX mode on bottom and top channels (Table 3-6). -/
def mixMode (mode bc tc : Nat) : Nat :=
  match mode with
  | 0 => tc
  | 1 => pxAdd bc tc
  | 2 => pxMul bc tc
  | 3 => 65535 - pxMul (65535 - bc) (65535 - tc)
  | 4 => if bc < tc then tc - bc else bc - tc
  | 5 => if bc < tc then tc else bc
  | 6 => if bc < tc then bc else tc
  | _ => pxSub bc tc

/-- A blended colour channel (R67): `t` is the effective top opacity. -/
def mixColour (mode t bc tc : Nat) : Nat :=
  pxAdd (pxMul bc (65535 - t)) (pxMul (mixMode mode bc tc) t)

/-- The blended alpha channel (R67). -/
def mixAlpha (t ba : Nat) : Nat := pxAdd t (pxMul ba (65535 - t))

/-- The dither code of a channel with a threshold already clamped (R69). -/
def ditherCode (n c t : Nat) : Nat := (c * (2 ^ n - 1) + t) / 65535

/-- A u8 channel expanded (R70). -/
def fromU8 (n : Nat) : Nat := n * 257

/-- A px16 channel packed to u8 (R70). -/
def toU8 (c : Nat) : Nat := (c * 255 + 32767) / 65535

/-- The interpolated table value (R72). -/
def lutInterp (k f e0 e1 : Nat) : Nat := (e0 * (2 ^ k - f) + e1 * f + 2 ^ (k - 1)) / 2 ^ k

/-- One bit of the reflected CRC-32C register. -/
def crcBit : Nat → Nat → Nat
  | 0, c => c
  | n + 1, c => crcBit n (if c % 2 = 1 then Nat.xor (c / 2) 0x82F63B78 else c / 2)

/-- CRC-32C over bytes from a running register. -/
def crcFrom : Nat → List Byte → Nat
  | c, [] => c
  | c, b :: bs => crcFrom (crcBit 8 (Nat.xor c b.toNat)) bs

/-- CRC-32C of a byte string (R133, R318). -/
def crc32c (bs : List Byte) : W32 := BitVec.ofNat 32 (Nat.xor (crcFrom 0xFFFFFFFF bs) 0xFFFFFFFF)

end Sys2Proof.Machine
end

