-- ==== Sys2Proof/Machine/Float.lean ====
section
/-!
DEFINITION. IEEE 754 binary16 and binary32 arithmetic as R51 fixes it: round to nearest even, subnormals kept,
canonical NaN results, no traps and no flags. Values are exact integers times powers of two, rounded once.
-/

namespace Sys2Proof.Machine

/-- A binary format: exponent bits and fraction bits. -/
structure FFmt where
  eb : Nat
  fb : Nat
deriving DecidableEq, Repr

/-- fp32. -/
def fp32 : FFmt := ⟨8, 23⟩
/-- fp16. -/
def fp16 : FFmt := ⟨5, 10⟩

/-- The format of a vector float instruction (R65). -/
def fmtOf (half : Bool) : FFmt := if half then fp16 else fp32

/-- The bits of the format. -/
def FFmt.width (f : FFmt) : Nat := f.eb + f.fb + 1
/-- The exponent of the last place of a subnormal. -/
def FFmt.qmin (f : FFmt) : Int := 2 - 2 ^ (f.eb - 1) - (f.fb : Int)
/-- The canonical NaN (R51). -/
def FFmt.nan (f : FFmt) : Nat := (2 ^ f.eb - 1) * 2 ^ f.fb + 2 ^ (f.fb - 1)
/-- Infinity of a sign. -/
def FFmt.inf (f : FFmt) (s : Bool) : Nat :=
  (if s then 2 ^ (f.eb + f.fb) else 0) + (2 ^ f.eb - 1) * 2 ^ f.fb
/-- Zero of a sign. -/
def FFmt.zero (f : FFmt) (s : Bool) : Nat := if s then 2 ^ (f.eb + f.fb) else 0

/-- A value: NaN, an infinity, or sign, integer and power of two. -/
inductive FVal where
  | nan
  | inf (neg : Bool)
  | fin (neg : Bool) (m : Nat) (e : Int)
deriving DecidableEq, Repr

/-- The value of a bit pattern. -/
def fdec (f : FFmt) (bits : Nat) : FVal :=
  let frac := bits % 2 ^ f.fb
  let ex := bits / 2 ^ f.fb % 2 ^ f.eb
  let neg := decide (bits / 2 ^ (f.eb + f.fb) % 2 = 1)
  if ex = 2 ^ f.eb - 1 then (if frac = 0 then .inf neg else .nan)
  else if ex = 0 then .fin neg frac f.qmin
  else .fin neg (2 ^ f.fb + frac) (f.qmin + (ex : Int) - 1)

/-- `m × 2^e`, with a non-zero remainder below `m` where `sticky`, rounded to nearest even. -/
def fround (f : FFmt) (neg : Bool) (m : Nat) (e : Int) (sticky : Bool) : Nat :=
  if m = 0 then f.zero neg
  else
    let q0 : Int := (Nat.log2 m : Int) + e - (f.fb : Int)
    let q : Int := if q0 < f.qmin then f.qmin else q0
    let mant : Nat :=
      if q ≤ e then m * 2 ^ (e - q).toNat
      else
        let k := (q - e).toNat
        let up := m / 2 ^ k
        let r := m % 2 ^ k
        if 2 ^ k < 2 * r || (2 * r == 2 ^ k && (sticky || up % 2 == 1)) then up + 1 else up
    let body : Nat := if mant < 2 ^ f.fb then mant else ((q - f.qmin).toNat + 1) * 2 ^ f.fb + (mant - 2 ^ f.fb)
    if (2 ^ f.eb - 1) * 2 ^ f.fb ≤ body then f.inf neg else f.zero neg + body

/-- An exact sum of two finite values as a signed integer at the lower exponent. -/
def fsumInt (na : Bool) (ma : Nat) (ea : Int) (nb : Bool) (mb : Nat) (eb : Int) : Int × Int :=
  let e := if ea < eb then ea else eb
  let va : Int := (ma : Int) * 2 ^ (ea - e).toNat
  let vb : Int := (mb : Int) * 2 ^ (eb - e).toNat
  ((if na then -va else va) + (if nb then -vb else vb), e)

/-- A sum of values, rounded once. -/
def faddV (f : FFmt) (a b : FVal) : Nat :=
  match a, b with
  | .nan, _ => f.nan
  | _, .nan => f.nan
  | .inf x, .inf y => if x = y then f.inf x else f.nan
  | .inf x, _ => f.inf x
  | _, .inf y => f.inf y
  | .fin na ma ea, .fin nb mb eb =>
    let se := fsumInt na ma ea nb mb eb
    if se.1 = 0 then f.zero (na && nb)
    else fround f (decide (se.1 < 0)) se.1.natAbs se.2 false

/-- The exact product of two values. -/
def fmulV (a b : FVal) : FVal :=
  match a, b with
  | .nan, _ => .nan
  | _, .nan => .nan
  | .inf x, .inf y => .inf (x != y)
  | .inf x, .fin y m _ => if m = 0 then .nan else .inf (x != y)
  | .fin x m _, .inf y => if m = 0 then .nan else .inf (x != y)
  | .fin x m e, .fin y n g => .fin (x != y) (m * n) (e + g)

/-- A value as bits, rounded. -/
def fenc (f : FFmt) (a : FVal) : Nat :=
  match a with
  | .nan => f.nan
  | .inf x => f.inf x
  | .fin x m e => fround f x m e false

/-- The sign bit inverted. -/
def fneg (f : FFmt) (a : Nat) : Nat := withBits (a % 2 ^ f.width) (f.eb + f.fb) 1 (1 - bitsOf a (f.eb + f.fb) 1)
/-- The sign bit cleared. -/
def fabs (f : FFmt) (a : Nat) : Nat := a % 2 ^ (f.eb + f.fb)
/-- Sum. -/
def fadd (f : FFmt) (a b : Nat) : Nat := faddV f (fdec f a) (fdec f b)
/-- A value with its sign inverted. -/
def fnegV (a : FVal) : FVal :=
  match a with
  | .nan => .nan
  | .inf x => .inf (!x)
  | .fin x m e => .fin (!x) m e
/-- Difference. -/
def fsub (f : FFmt) (a b : Nat) : Nat := faddV f (fdec f a) (fnegV (fdec f b))
/-- Product. -/
def fmul (f : FFmt) (a b : Nat) : Nat := fenc f (fmulV (fdec f a) (fdec f b))
/-- Fused multiply-add, rounded once. -/
def ffma (f : FFmt) (a b c : Nat) : Nat := faddV f (fmulV (fdec f a) (fdec f b)) (fdec f c)

/-- Quotient. -/
def fdiv (f : FFmt) (a b : Nat) : Nat :=
  match fdec f a, fdec f b with
  | .nan, _ => f.nan
  | _, .nan => f.nan
  | .inf _, .inf _ => f.nan
  | .inf x, .fin y _ _ => f.inf (x != y)
  | .fin x _ _, .inf y => f.zero (x != y)
  | .fin x m e, .fin y n g =>
    if n = 0 then (if m = 0 then f.nan else f.inf (x != y))
    else if m = 0 then f.zero (x != y)
    else fround f (x != y) (m * 2 ^ 64 / n) (e - g - 64) (m * 2 ^ 64 % n != 0)

/-- Integer square root by bits, from bit `i − 1` down. -/
def isqrtFrom : Nat → Nat → Nat → Nat
  | 0, _, r => r
  | i + 1, n, r => isqrtFrom i n (if (r + 2 ^ i) * (r + 2 ^ i) ≤ n then r + 2 ^ i else r)

/-- Integer square root of a number below 2^128. -/
def isqrt (n : Nat) : Nat := isqrtFrom 64 n 0

/-- Square root. -/
def fsqrt (f : FFmt) (a : Nat) : Nat :=
  match fdec f a with
  | .nan => f.nan
  | .inf x => if x then f.nan else f.inf false
  | .fin x m e =>
    if m = 0 then f.zero x
    else if x then f.nan
    else
      let m2 := if e % 2 = 0 then m else 2 * m
      let e2 := if e % 2 = 0 then e else e - 1
      let n := m2 * 2 ^ 64
      let r := isqrt n
      fround f false r (e2 / 2 - 32) (r * r != n)

/-- Equality: false with a NaN; the zeros are equal. -/
def feq (f : FFmt) (a b : Nat) : Bool :=
  match fdec f a, fdec f b with
  | .fin na ma ea, .fin nb mb eb => decide ((fsumInt na ma ea (!nb) mb eb).1 = 0)
  | .inf x, .inf y => x == y
  | _, _ => false

/-- Less than: false with a NaN. -/
def flt (f : FFmt) (a b : Nat) : Bool :=
  match fdec f a, fdec f b with
  | .nan, _ => false
  | _, .nan => false
  | .inf x, .inf y => x && !y
  | .inf x, _ => x
  | _, .inf y => !y
  | .fin na ma ea, .fin nb mb eb => decide ((fsumInt na ma ea (!nb) mb eb).1 < 0)

/-- Less or equal. -/
def fle (f : FFmt) (a b : Nat) : Bool := flt f a b || feq f a b

/-- Whether a pattern is a NaN. -/
def fisNan (f : FFmt) (a : Nat) : Bool := fdec f a == .nan

/-- Minimum (`max = false`) or maximum with R65's rules for NaN and signed zeros. -/
def fpick (f : FFmt) (max : Bool) (a b : Nat) : Nat :=
  if fisNan f a then (if fisNan f b then f.nan else b)
  else if fisNan f b then a
  else
    let aLess := flt f a b || (feq f a b && bitsOf a (f.eb + f.fb) 1 == 1)
    if aLess == max then b else a

/-- `m × 2^e` rounded to nearest even as an integer. -/
def roundInt (m : Nat) (e : Int) : Nat :=
  if 0 ≤ e then m * 2 ^ e.toNat else divEven m (2 ^ (-e).toNat)

/-- Float to s32: to nearest even, saturated; a NaN gives 0 (R65). -/
def ftoi (f : FFmt) (a : Nat) : W32 :=
  match fdec f a with
  | .nan => 0
  | .inf x => if x then BitVec.ofInt 32 (-(2 ^ 31)) else BitVec.ofInt 32 (2 ^ 31 - 1)
  | .fin x m e =>
    let v : Int := roundInt m e
    BitVec.ofInt 32 (clampInt (-(2 ^ 31)) (2 ^ 31 - 1) (if x then -v else v))

/-- s32 to float. -/
def itof (f : FFmt) (a : W32) : Nat := fround f (decide (a.toInt < 0)) a.toInt.natAbs 0 false

/-- Float to px16 (R25). -/
def ftopx (f : FFmt) (a : Nat) : Nat :=
  match fdec f a with
  | .nan => 0
  | .inf x => if x then 0 else 65535
  | .fin x m e =>
    if x then 0
    else
      let v := roundInt (m * 65535) e
      if 65535 < v then 65535 else v

/-- px16 to float (R25). -/
def pxtof (f : FFmt) (n : Nat) : Nat :=
  fround f false (n * 2 ^ 64 / 65535) (-64) (n * 2 ^ 64 % 65535 != 0)

/-- One level of the pairwise tree of R51. -/
def treeLevel (f : FFmt) : List Nat → List Nat
  | a :: b :: r => fadd f a b :: treeLevel f r
  | r => r

/-- The pairwise tree sum of sixteen lanes (R51). -/
def treeSum (f : FFmt) (xs : List Nat) : Nat :=
  match treeLevel f (treeLevel f (treeLevel f (treeLevel f xs))) with
  | x :: _ => x
  | [] => 0

/-- The colour matrix on r, g, b of one pixel (R68), coefficients as fp32 bits. -/
def matRow (m0 m1 m2 r g b : Nat) : Nat :=
  ffma fp32 m2 b (ffma fp32 m1 g (fmul fp32 m0 r))

end Sys2Proof.Machine
end

