-- ==== Sys2Proof/Machine/Regs.lean ====
section
/-!
DEFINITION. The registers of BAR0 (R371): one constructor of `RegId` for each register of the register tables, with
its place in the map, the access types of its fields (R11) and its reset value; and the names of the fields.
-/

namespace Sys2Proof.Machine

/-- The registers of Table 14-1. A register that the map repeats has one constructor and one or two indices. -/
inductive RegId where
  | idLo
  | idHi
  | sem
  | semCfg
  | semForce
  | ringCtrl
  | ringBaseLo
  | ringBaseHi
  | ringWbLo
  | ringWbHi
  | ringHead
  | ringTail
  | ringOcc
  | ringLevel
  | ringStatus
  | ctxCpl
  | ctxFence
  | layerStatus
  | layerVersion
  | layerDoneEpoch
  | layerHaddr
  | route
  | hostStatus
  | hostErrAddr
  | hostErrFn
  | pcieLink
  | bar2Base
  | sched
  | slotsUsed
  | slotLevel
  | schedCancel
  | schedKick
  | schedClusters
  | schedReady
  | ctxCtrl
  | ctxQuotaSlots
  | ctxQuotaCt
  | ctxQuotaMl
  | ctxUseSlots
  | ctxUseCt
  | ctxUseMl
  | ctxStatus
  | ctxEvent
  | progBase
  | progLen
  | progCtrl
  | progEntry
  | tmplDesc
  | tmplBind
  | tmplSrc
  | tmplReleased
  | tmplDrop
  | fcCtrl
  | fcPhase
  | fbaseLo
  | fbaseHi
  | nextLo
  | nextHi
  | nextEpoch
  | fcStatus
  | periodNs
  | switchEpoch
  | canvasCtrl
  | canvasWidth
  | canvasHeight
  | canvasTile
  | vatBase
  | vatSize
  | commitLead
  | latchGuard
  | refresh
  | vatCmd
  | txEpoch
  | rmEpoch
  | wpEpoch
  | vatSlots
  | canvasStatus
  | canvasEvent
  | canvasDirty
  | canvasFilled
  | canvasSlipNs
  | canvasCommits
  | canvasEvtEn
  | inputLogUsed
  | inputLogStatus
  | envOffset
  | inputLogMax
  | glzBusy
  | glzBankUse
  | mordAddr
  | mordData
  | mordStatus
  | glzCfg
  | gainBase
  | gainStride
  | glzEvent
  | glzLateLines
  | glzAbandoned
  | planeCtrl
  | planeSrc
  | planeSize
  | planeDx
  | planeDy
  | planeAdv
  | planeCut
  | vringBase
  | lineStride
  | vsize
  | ringFmt
  | frameNs
  | epCtrl
  | epHold
  | epTiming
  | drvBase
  | stblBase
  | mmacLo
  | mmacHi
  | mip4
  | mip6
  | epFltClr
  | epErr
  | epEvent
  | epDrvKick
  | sacnCid
  | sacnName
  | epBlackout
  | epCanvas
  | sacnSync
  | sacnSyncAdv
  | epPorts
  | viewBase
  | viewN
  | dmxCanvas
  | dmxBase
  | kg
  | profP
  | profLim
  | univCtrl
  | univPrio
  | univBase
  | univSeq
  | macCtrl
  | macLo
  | macHi
  | portStatus
  | portEvent
  | pauseCfg
  | eeeCfg
  | lpiCfg
  | gateCtrl
  | gateOfs
  | rxDef
  | gateMask
  | gateDur
  | flowCtrl
  | flowIp0
  | flowIp1
  | flowIp2
  | flowIp3
  | flowVid
  | t1sCtrl
  | plcaTmr
  | t1sStatus
  | t1sMacLo
  | t1sMacHi
  | aud
  | envMap
  | tcReg
  | strmStatus
  | subCtrl
  | subBase
  | dmxTiming
  | dmxSlots
  | rdmCtrl
  | rdmStatus
  | rdmTx
  | rdmRx
  | timeCtrl
  | timeStatus
  | timeEvent
  | otLo
  | otHi
  | otFrac
  | setLo
  | setHi
  | setGo
  | adjReg
  | adjFine
  | kp
  | ki
  | adjMax
  | fstep
  | slew
  | settle
  | alarm
  | annTo
  | outDom
  | mediaDom
  | late
  | ppsOut
  | ppsOfs
  | ppsInLo
  | ppsInHi
  | ppsInFrac
  | ppsInAdj
  | ref10Err
  | domCfg
  | offsetNs
  | offsetFrac
  | delayNs
  | domRate
  | domSamples
  | annKick
  | asym
  | meas
  | measPush
  | pcfg
  | rxLat
  | txLat
  | tsqE0
  | tsqE1
  | tsqE2
  | tsqE3
  | tsqCtrl
  | tsqStatus
  | tsqOvfCnt
  | twinCtrl
  | twinCmd
  | twinStatus
  | term
  | twinEvent
  | jseqTx
  | jseqRx
  | jbufBase
  | jbufMib
  | copyDone
  | copyTotal
  | twinOffset
  | twinDelay
  | divergeCanvas
  | divergeEpoch
  | pwrMode
  | pwrCmd
  | pwrCtrl
  | hbmSrIdle
  | railGood
  | rstCause
  | safeCause
  | avsCtrl
  | dieTemp
  | clkStatus
  | wakeEn
  | slowLo
  | slowHi
  | alarmLo
  | alarmHi
  | bootStatus
  | bootAddr
  | bootLen
  | bootGo
  | pwrEvent
  | lcState
  | bistCmd
  | rotCfg
  | bistStatus
  | bistEvent
  | collide
  | otpAddr
  | otpData
  | otpCtrl
  | lcReq
  | bistSel
  | bistRes
  | calCtrl
  | calStatus
  | calEvent
  | fact
  | userTempOfs
  | userImp
  | cntLo
  | cntHi
  | snapLo
  | snapHi
  | swcntLo
  | swcntHi
  | cntSnap
  | snapTimeLo
  | snapTimeHi
  | tagCtrl
  | tagSeed
  | tagBase
  | tagHead
  | tagTail
  | tagLevel
  | tagStatus
  | bwCtrl
  | txBytes
  | rxBytes
  | peakTx
  | bwLimit
  | bwSeq
  | etabWord
  | clStatus
  | clTsUsed
  | clCore
deriving DecidableEq, Repr

/-- What the register tables say of a register: its offset `base + step × i + step2 × j` for `i < n`, `j < n2`, the
masks of its RW, W1C, W1S, WO and RC bits (R11), its reset value, the shadowed bits (R138), the bits held while the
unit is enabled, the bits that only a physical function writes, and whether it is a user-calibration register. -/
structure RegDesc where
  base : Nat
  step : Nat
  n : Nat
  step2 : Nat
  n2 : Nat
  rw : Nat
  w1c : Nat
  w1s : Nat
  wo : Nat
  rc : Nat
  reset : Nat
  shadow : Nat
  locked : Nat
  pfOnly : Nat
  cal : Bool
deriving DecidableEq, Repr

/-- The number of a register, for the key of its entry in the register file. -/
def RegId.num (r : RegId) : Nat := r.ctorIdx

/-- The description of each register. -/
def RegId.desc (r : RegId) : RegDesc :=
  match r with
  | .idLo => ⟨0, 0, 1, 0, 1, 0, 0, 0, 0, 0, 0x916000B1, 0, 0, 0, false⟩
  | .idHi => ⟨0x4, 0, 1, 0, 1, 0, 0, 0, 0, 0, 0xA40, 0, 0, 0, false⟩
  | .sem => ⟨0x10000, 0x4, 256, 0, 1, 0x1F, 0, 0, 0, 0, 0, 0, 0, 0, false⟩
  | .semCfg => ⟨0x10400, 0x4, 256, 0, 1, 0xFFFFFF, 0, 0, 0, 0, 0, 0, 0, 0, false⟩
  | .semForce => ⟨0x10800, 0, 1, 0, 1, 0, 0, 0, 0xFF, 0, 0, 0, 0, 0, false⟩
  | .ringCtrl => ⟨0x20000, 0x40, 64, 0, 1, 0x3F3FFF, 0, 0x8000, 0, 0, 0x800, 0, 0x3F3FFE, 0x1F0, false⟩
  | .ringBaseLo => ⟨0x20004, 0x40, 64, 0, 1, 0xFFFFFFFF, 0, 0, 0, 0, 0, 0, 0xFFFFFFFF, 0, false⟩
  | .ringBaseHi => ⟨0x20008, 0x40, 64, 0, 1, 0xFFFFFFFF, 0, 0, 0, 0, 0, 0, 0xFFFFFFFF, 0, false⟩
  | .ringWbLo => ⟨0x2000C, 0x40, 64, 0, 1, 0xFFFFFFFF, 0, 0, 0, 0, 0, 0, 0xFFFFFFFF, 0, false⟩
  | .ringWbHi => ⟨0x20010, 0x40, 64, 0, 1, 0xFFFFFFFF, 0, 0, 0, 0, 0, 0, 0xFFFFFFFF, 0, false⟩
  | .ringHead => ⟨0x20014, 0x40, 64, 0, 1, 0xFFFF, 0, 0, 0, 0, 0, 0, 0, 0, false⟩
  | .ringTail => ⟨0x20018, 0x40, 64, 0, 1, 0xFFFF, 0, 0, 0, 0, 0, 0, 0, 0, false⟩
  | .ringOcc => ⟨0x2001C, 0x40, 64, 0, 1, 0, 0, 0, 0, 0, 0, 0, 0, 0, false⟩
  | .ringLevel => ⟨0x20020, 0x40, 64, 0, 1, 0x1FFFF, 0, 0, 0, 0, 0x10000, 0, 0, 0, false⟩
  | .ringStatus => ⟨0x20024, 0x40, 64, 0, 1, 0, 0xF, 0, 0, 0, 0, 0, 0, 0, false⟩
  | .ctxCpl => ⟨0x21000, 0x4, 128, 0, 1, 0x7F, 0, 0, 0, 0, 0, 0, 0, 0, false⟩
  | .ctxFence => ⟨0x21200, 0x4, 128, 0, 1, 0, 0, 0, 0, 0, 0, 0, 0, 0, false⟩
  | .layerStatus => ⟨0x24000, 0x10, 1024, 0, 1, 0, 0, 0, 0, 0, 0, 0, 0, 0, false⟩
  | .layerVersion => ⟨0x24004, 0x10, 1024, 0, 1, 0, 0, 0, 0, 0, 0, 0, 0, 0, false⟩
  | .layerDoneEpoch => ⟨0x24008, 0x10, 1024, 0, 1, 0, 0, 0, 0, 0, 0, 0, 0, 0, false⟩
  | .layerHaddr => ⟨0x2400C, 0x10, 1024, 0, 1, 0xFFFFFFFF, 0, 0, 0, 0, 0, 0, 0, 0, false⟩
  | .route => ⟨0x28000, 0x200, 32, 0x4, 128, 0x7FFF, 0, 0, 0, 0, 0, 0, 0, 0, false⟩
  | .hostStatus => ⟨0x2C000, 0, 1, 0, 1, 0, 0xF, 0, 0, 0, 0, 0, 0, 0, false⟩
  | .hostErrAddr => ⟨0x2C004, 0, 1, 0, 1, 0, 0, 0, 0, 0, 0, 0, 0, 0, false⟩
  | .hostErrFn => ⟨0x2C008, 0, 1, 0, 1, 0, 0, 0, 0, 0, 0, 0, 0, 0, false⟩
  | .pcieLink => ⟨0x2C00C, 0, 1, 0, 1, 0, 0, 0, 0, 0, 0, 0, 0, 0, false⟩
  | .bar2Base => ⟨0x2C010, 0, 1, 0, 1, 0x7F, 0, 0, 0, 0, 0, 0, 0, 0, false⟩
  | .sched => ⟨0x40000, 0, 1, 0, 1, 0x3, 0, 0, 0, 0, 0x2, 0, 0, 0, false⟩
  | .slotsUsed => ⟨0x40004, 0, 1, 0, 1, 0, 0, 0, 0, 0, 0, 0, 0, 0, false⟩
  | .slotLevel => ⟨0x40008, 0, 1, 0, 1, 0x1FFFF, 0, 0, 0, 0, 0x10000, 0, 0, 0, false⟩
  | .schedCancel => ⟨0x4000C, 0, 1, 0, 1, 0, 0, 0, 0x7FFFFF, 0, 0, 0, 0, 0, false⟩
  | .schedKick => ⟨0x40010, 0, 1, 0, 1, 0, 0, 0, 0xFF, 0, 0, 0, 0, 0, false⟩
  | .schedClusters => ⟨0x40014, 0, 1, 0, 1, 0xFFFFF, 0, 0, 0, 0, 0xFFFFF, 0, 0, 0, false⟩
  | .schedReady => ⟨0x40040, 0x4, 16, 0, 1, 0, 0, 0, 0, 0, 0, 0, 0, 0, false⟩
  | .ctxCtrl => ⟨0x41000, 0x40, 128, 0, 1, 0x1F07, 0, 0, 0, 0, 0, 0, 0x1F00, 0x1F00, false⟩
  | .ctxQuotaSlots => ⟨0x41004, 0x40, 128, 0, 1, 0x1FFFF, 0, 0, 0, 0, 0, 0, 0, 0, false⟩
  | .ctxQuotaCt => ⟨0x41008, 0x40, 128, 0, 1, 0xFFFFFF, 0, 0, 0, 0, 0, 0, 0, 0, false⟩
  | .ctxQuotaMl => ⟨0x4100C, 0x40, 128, 0, 1, 0x7FFFFFF, 0, 0, 0, 0, 0, 0, 0, 0, false⟩
  | .ctxUseSlots => ⟨0x41010, 0x40, 128, 0, 1, 0, 0, 0, 0, 0, 0, 0, 0, 0, false⟩
  | .ctxUseCt => ⟨0x41014, 0x40, 128, 0, 1, 0, 0, 0, 0, 0, 0, 0, 0, 0, false⟩
  | .ctxUseMl => ⟨0x41018, 0x40, 128, 0, 1, 0, 0, 0, 0, 0, 0, 0, 0, 0, false⟩
  | .ctxStatus => ⟨0x4101C, 0x40, 128, 0, 1, 0, 0, 0, 0, 0, 0, 0, 0, 0, false⟩
  | .ctxEvent => ⟨0x41020, 0x40, 128, 0, 1, 0, 0xF, 0, 0, 0, 0, 0, 0, 0, false⟩
  | .progBase => ⟨0x44000, 0x10, 1024, 0, 1, 0xFFFFFFFF, 0, 0, 0, 0, 0, 0, 0, 0, false⟩
  | .progLen => ⟨0x44004, 0x10, 1024, 0, 1, 0xFFFFF, 0, 0, 0, 0, 0, 0, 0, 0, false⟩
  | .progCtrl => ⟨0x44008, 0x10, 1024, 0, 1, 0x3FEFF, 0, 0, 0, 0, 0, 0, 0, 0, false⟩
  | .progEntry => ⟨0x4400C, 0x10, 1024, 0, 1, 0xFFFFF, 0, 0, 0, 0, 0, 0, 0, 0, false⟩
  | .tmplDesc => ⟨0x48000, 0x40, 256, 0x4, 8, 0xFFFFFFFF, 0, 0, 0, 0, 0, 0, 0, 0, false⟩
  | .tmplBind => ⟨0x48020, 0x40, 256, 0, 1, 0xF, 0, 0, 0, 0, 0, 0, 0, 0, false⟩
  | .tmplSrc => ⟨0x48024, 0x40, 256, 0, 1, 0xFFFFFFFF, 0, 0, 0, 0, 0, 0, 0, 0, false⟩
  | .tmplReleased => ⟨0x48028, 0x40, 256, 0, 1, 0, 0, 0, 0, 0, 0, 0, 0, 0, false⟩
  | .tmplDrop => ⟨0x4802C, 0x40, 256, 0, 1, 0, 0, 0, 0, 0, 0, 0, 0, 0, false⟩
  | .fcCtrl => ⟨0x80000, 0x40, 4, 0, 1, 0x3F, 0, 0, 0, 0, 0x14, 0x3E, 0, 0, false⟩
  | .fcPhase => ⟨0x80004, 0x40, 4, 0, 1, 0x3FFFFFFF, 0, 0, 0, 0, 0, 0x3FFFFFFF, 0, 0, false⟩
  | .fbaseLo => ⟨0x80008, 0x40, 4, 0, 1, 0xFFFFFFFF, 0, 0, 0, 0, 0, 0, 0xFFFFFFFF, 0, false⟩
  | .fbaseHi => ⟨0x8000C, 0x40, 4, 0, 1, 0xFFFFFFFF, 0, 0, 0, 0, 0, 0, 0xFFFFFFFF, 0, false⟩
  | .nextLo => ⟨0x80010, 0x40, 4, 0, 1, 0, 0, 0, 0, 0, 0, 0, 0, 0, false⟩
  | .nextHi => ⟨0x80014, 0x40, 4, 0, 1, 0, 0, 0, 0, 0, 0, 0, 0, 0, false⟩
  | .nextEpoch => ⟨0x80018, 0x40, 4, 0, 1, 0, 0, 0, 0, 0, 0, 0, 0, 0, false⟩
  | .fcStatus => ⟨0x8001C, 0x40, 4, 0, 1, 0, 0, 0, 0, 0, 0, 0, 0, 0, false⟩
  | .periodNs => ⟨0x80020, 0x40, 4, 0, 1, 0, 0, 0, 0, 0, 0xFE502B, 0, 0, 0, false⟩
  | .switchEpoch => ⟨0x80024, 0x40, 4, 0, 1, 0, 0, 0, 0, 0, 0, 0, 0, 0, false⟩
  | .canvasCtrl => ⟨0x81000, 0x80, 64, 0, 1, 0xFFFFFF, 0, 0, 0, 0, 0x804020, 0xC07E, 0x7F3F80, 0, false⟩
  | .canvasWidth => ⟨0x81004, 0x80, 64, 0, 1, 0x1FFFF, 0, 0, 0, 0, 0, 0, 0x1FFFF, 0, false⟩
  | .canvasHeight => ⟨0x81008, 0x80, 64, 0, 1, 0xFFFF, 0, 0, 0, 0, 0, 0, 0xFFFF, 0, false⟩
  | .canvasTile => ⟨0x8100C, 0x80, 64, 0, 1, 0xFF01FF, 0, 0, 0, 0, 0x200040, 0, 0xFF01FF, 0, false⟩
  | .vatBase => ⟨0x81010, 0x80, 64, 0, 1, 0xFFFFFFFF, 0, 0, 0, 0, 0, 0, 0xFFFFFFFF, 0, false⟩
  | .vatSize => ⟨0x81014, 0x80, 64, 0, 1, 0xF, 0, 0, 0, 0, 0x8, 0, 0xF, 0, false⟩
  | .commitLead => ⟨0x81018, 0x80, 64, 0, 1, 0x3FFFFFF, 0, 0, 0, 0, 0, 0x3FFFFFF, 0, 0, false⟩
  | .latchGuard => ⟨0x8101C, 0x80, 64, 0, 1, 0x1FFFFF, 0, 0, 0, 0, 0x7A120, 0x1FFFFF, 0, 0, false⟩
  | .refresh => ⟨0x81020, 0x80, 64, 0, 1, 0xFF00FF, 0, 0, 0, 0, 0x78003C, 0xFF, 0, 0, false⟩
  | .vatCmd => ⟨0x81024, 0x80, 64, 0, 1, 0, 0, 0x3, 0xC, 0, 0, 0, 0, 0, false⟩
  | .txEpoch => ⟨0x81028, 0x80, 64, 0, 1, 0, 0, 0, 0, 0, 0xFFFFFFFF, 0, 0, 0, false⟩
  | .rmEpoch => ⟨0x8102C, 0x80, 64, 0, 1, 0, 0, 0, 0, 0, 0, 0, 0, 0, false⟩
  | .wpEpoch => ⟨0x81030, 0x80, 64, 0, 1, 0, 0, 0, 0, 0, 0, 0, 0, 0, false⟩
  | .vatSlots => ⟨0x81034, 0x80, 64, 0, 1, 0, 0, 0, 0, 0, 0, 0, 0, 0, false⟩
  | .canvasStatus => ⟨0x81038, 0x80, 64, 0, 1, 0, 0, 0, 0, 0, 0, 0, 0, 0, false⟩
  | .canvasEvent => ⟨0x8103C, 0x80, 64, 0, 1, 0, 0x3F, 0, 0, 0, 0, 0, 0, 0, false⟩
  | .canvasDirty => ⟨0x81040, 0x80, 64, 0, 1, 0, 0, 0, 0, 0, 0, 0, 0, 0, false⟩
  | .canvasFilled => ⟨0x81044, 0x80, 64, 0, 1, 0, 0, 0, 0, 0, 0, 0, 0, 0, false⟩
  | .canvasSlipNs => ⟨0x81048, 0x80, 64, 0, 1, 0, 0, 0, 0, 0, 0, 0, 0, 0, false⟩
  | .canvasCommits => ⟨0x8104C, 0x80, 64, 0, 1, 0, 0, 0, 0, 0, 0, 0, 0, 0, false⟩
  | .canvasEvtEn => ⟨0x81050, 0x80, 64, 0, 1, 0x1, 0, 0, 0, 0, 0, 0, 0, 0, false⟩
  | .inputLogUsed => ⟨0x84000, 0, 1, 0, 1, 0, 0, 0, 0, 0, 0, 0, 0, 0, false⟩
  | .inputLogStatus => ⟨0x84004, 0, 1, 0, 1, 0, 0x1, 0, 0, 0, 0, 0, 0, 0, false⟩
  | .envOffset => ⟨0x84008, 0, 1, 0, 1, 0xFFFFFFFF, 0, 0, 0, 0, 0, 0, 0, 0, false⟩
  | .inputLogMax => ⟨0x8400C, 0, 1, 0, 1, 0, 0, 0, 0, 0x3FFFF, 0, 0, 0, 0, false⟩
  | .glzBusy => ⟨0xA0000, 0, 1, 0, 1, 0, 0, 0, 0, 0, 0, 0, 0, 0, false⟩
  | .glzBankUse => ⟨0xA0004, 0, 1, 0, 1, 0, 0, 0, 0, 0, 0, 0, 0, 0, false⟩
  | .mordAddr => ⟨0xA0010, 0, 1, 0, 1, 0x1FFFFF, 0, 0, 0, 0, 0, 0, 0, 0, false⟩
  | .mordData => ⟨0xA0014, 0, 1, 0, 1, 0xFFFFFFFF, 0, 0, 0, 0, 0, 0, 0, 0, false⟩
  | .mordStatus => ⟨0xA0018, 0, 1, 0, 1, 0, 0x1, 0, 0, 0, 0, 0, 0, 0, false⟩
  | .glzCfg => ⟨0xA1000, 0x20, 64, 0, 1, 0x3, 0, 0, 0, 0, 0, 0x3, 0, 0, false⟩
  | .gainBase => ⟨0xA1004, 0x20, 64, 0, 1, 0xFFFFFFFF, 0, 0, 0, 0, 0, 0xFFFFFFFF, 0, 0, false⟩
  | .gainStride => ⟨0xA1008, 0x20, 64, 0, 1, 0xFFFFFF, 0, 0, 0, 0, 0, 0xFFFFFF, 0, 0, false⟩
  | .glzEvent => ⟨0xA100C, 0x20, 64, 0, 1, 0, 0x7, 0, 0, 0, 0, 0, 0, 0, false⟩
  | .glzLateLines => ⟨0xA1010, 0x20, 64, 0, 1, 0, 0, 0, 0, 0, 0, 0, 0, 0, false⟩
  | .glzAbandoned => ⟨0xA1014, 0x20, 64, 0, 1, 0, 0, 0, 0, 0, 0, 0, 0, 0, false⟩
  | .planeCtrl => ⟨0xA2000, 0x80, 64, 0x20, 4, 0xFFFF1FFF, 0, 0, 0, 0, 0xFFFF0000, 0xFFFF1FFF, 0, 0, false⟩
  | .planeSrc => ⟨0xA2004, 0x80, 64, 0x20, 4, 0xFFFFFFFF, 0, 0, 0, 0, 0, 0xFFFFFFFF, 0, 0, false⟩
  | .planeSize => ⟨0xA2008, 0x80, 64, 0x20, 4, 0xFFFFFFFF, 0, 0, 0, 0, 0, 0xFFFFFFFF, 0, 0, false⟩
  | .planeDx => ⟨0xA200C, 0x80, 64, 0x20, 4, 0x1FFFF, 0, 0, 0, 0, 0, 0x1FFFF, 0, 0, false⟩
  | .planeDy => ⟨0xA2010, 0x80, 64, 0x20, 4, 0xFFFF, 0, 0, 0, 0, 0, 0xFFFF, 0, 0, false⟩
  | .planeAdv => ⟨0xA2014, 0x80, 64, 0x20, 4, 0x7FFFF, 0, 0, 0, 0, 0, 0x7FFFF, 0, 0, false⟩
  | .planeCut => ⟨0xA2018, 0x80, 64, 0x20, 4, 0xFFFFF, 0, 0, 0, 0, 0x186A0, 0xFFFFF, 0, 0, false⟩
  | .vringBase => ⟨0xA4000, 0x40, 16, 0, 1, 0xFFFFFFFF, 0, 0, 0, 0, 0, 0, 0, 0, false⟩
  | .lineStride => ⟨0xA4004, 0x40, 16, 0, 1, 0xFFFFF, 0, 0, 0, 0, 0, 0, 0, 0, false⟩
  | .vsize => ⟨0xA4008, 0x40, 16, 0, 1, 0xFFFFFFFF, 0, 0, 0, 0, 0, 0, 0, 0, false⟩
  | .ringFmt => ⟨0xA400C, 0x40, 16, 0, 1, 0x333, 0, 0, 0, 0, 0, 0, 0, 0, false⟩
  | .frameNs => ⟨0xA4010, 0x40, 16, 0, 1, 0x3FFFFFF, 0, 0, 0, 0, 0, 0, 0, 0, false⟩
  | .epCtrl => ⟨0xC0000, 0, 1, 0, 1, 0xFFFF0001, 0, 0, 0, 0, 0xBBF00000, 0, 0, 0, false⟩
  | .epHold => ⟨0xC0004, 0, 1, 0, 1, 0x1FFFF, 0, 0, 0, 0, 0x7D0, 0, 0, 0, false⟩
  | .epTiming => ⟨0xC0008, 0, 1, 0, 1, 0xFFFFFF, 0, 0, 0, 0, 0x18041E, 0, 0, 0, false⟩
  | .drvBase => ⟨0xC000C, 0, 1, 0, 1, 0xFFFFFFFF, 0, 0, 0, 0, 0, 0, 0, 0, false⟩
  | .stblBase => ⟨0xC0010, 0, 1, 0, 1, 0xFFFFFFFF, 0, 0, 0, 0, 0, 0, 0, 0, false⟩
  | .mmacLo => ⟨0xC0018, 0, 1, 0, 1, 0xFFFFFFFF, 0, 0, 0, 0, 0xA000000, 0, 0, 0, false⟩
  | .mmacHi => ⟨0xC001C, 0, 1, 0, 1, 0xFFFF, 0, 0, 0, 0, 0x3A4, 0, 0, 0, false⟩
  | .mip4 => ⟨0xC0020, 0, 1, 0, 1, 0xFFFFFFFF, 0, 0, 0, 0, 0xEFC04000, 0, 0, 0, false⟩
  | .mip6 => ⟨0xC0024, 0x4, 4, 0, 1, 0xFFFFFFFF, 0, 0, 0, 0, 0, 0, 0, 0, false⟩
  | .epFltClr => ⟨0xC0040, 0, 1, 0, 1, 0, 0, 0, 0x1FFFF, 0, 0, 0, 0, 0, false⟩
  | .epErr => ⟨0xC0044, 0, 1, 0, 1, 0, 0, 0, 0, 0, 0, 0, 0, 0, false⟩
  | .epEvent => ⟨0xC0048, 0, 1, 0, 1, 0, 0x1FF, 0, 0, 0, 0, 0, 0, 0, false⟩
  | .epDrvKick => ⟨0xC004C, 0, 1, 0, 1, 0, 0, 0, 0x1FFF, 0, 0, 0, 0, 0, false⟩
  | .sacnCid => ⟨0xC0050, 0x4, 4, 0, 1, 0xFFFFFFFF, 0, 0, 0, 0, 0, 0, 0, 0, false⟩
  | .sacnName => ⟨0xC0060, 0x4, 8, 0, 1, 0xFFFFFFFF, 0, 0, 0, 0, 0, 0, 0, 0, false⟩
  | .epBlackout => ⟨0xC0080, 0, 1, 0, 1, 0x1, 0, 0, 0, 0, 0, 0, 0, 0, false⟩
  | .epCanvas => ⟨0xC0100, 0x10, 64, 0, 1, 0xFFFFFF, 0, 0, 0, 0, 0xF0, 0, 0, 0, false⟩
  | .sacnSync => ⟨0xC0104, 0x10, 64, 0, 1, 0xFFFF, 0, 0, 0, 0, 0, 0, 0, 0, false⟩
  | .sacnSyncAdv => ⟨0xC0108, 0x10, 64, 0, 1, 0x1FFFFF, 0, 0, 0, 0, 0, 0, 0, 0, false⟩
  | .epPorts => ⟨0xC010C, 0x10, 64, 0, 1, 0, 0, 0, 0, 0, 0, 0, 0, 0, false⟩
  | .viewBase => ⟨0xC0800, 0x8, 128, 0, 1, 0x1FFFF, 0, 0, 0, 0, 0, 0, 0, 0x1FFFF, false⟩
  | .viewN => ⟨0xC0804, 0x8, 128, 0, 1, 0x3FFFF, 0, 0, 0, 0, 0, 0, 0, 0x3FFFF, false⟩
  | .dmxCanvas => ⟨0xC0C00, 0x8, 8, 0, 1, 0xBF, 0, 0, 0, 0, 0, 0, 0, 0, false⟩
  | .dmxBase => ⟨0xC0C04, 0x8, 8, 0, 1, 0xFFFFFFFF, 0, 0, 0, 0, 0, 0, 0, 0, false⟩
  | .kg => ⟨0xC2000, 0x4, 4096, 0, 1, 0xFF, 0, 0, 0x600, 0, 0, 0, 0, 0x7F, false⟩
  | .profP => ⟨0xC6000, 0x40, 256, 0x4, 8, 0xFFFF00FF, 0, 0, 0, 0, 0xFFFF0000, 0, 0, 0, false⟩
  | .profLim => ⟨0xC6020, 0x40, 256, 0, 1, 0xFFFFFFFF, 0, 0, 0, 0, 0xA7F0000, 0, 0, 0, false⟩
  | .univCtrl => ⟨0xD0000, 0x10, 8192, 0, 1, 0xFFFFFFF, 0, 0, 0, 0, 0, 0, 0, 0, false⟩
  | .univPrio => ⟨0xD0004, 0x10, 8192, 0, 1, 0xFFFFFF, 0, 0, 0, 0, 0x64, 0, 0, 0, false⟩
  | .univBase => ⟨0xD0008, 0x10, 8192, 0, 1, 0xFFFFFFFF, 0, 0, 0, 0, 0, 0, 0, 0, false⟩
  | .univSeq => ⟨0xD000C, 0x10, 8192, 0, 1, 0, 0, 0, 0, 0, 0, 0, 0, 0, false⟩
  | .macCtrl => ⟨0x100000, 0x4000, 16, 0, 1, 0x3FFF007F, 0, 0, 0, 0, 0x5F20010, 0, 0x2, 0, false⟩
  | .macLo => ⟨0x100004, 0x4000, 16, 0, 1, 0xFFFFFFFF, 0, 0, 0, 0, 0, 0, 0, 0, false⟩
  | .macHi => ⟨0x100008, 0x4000, 16, 0, 1, 0xFFFF, 0, 0, 0, 0, 0, 0, 0, 0, false⟩
  | .portStatus => ⟨0x10000C, 0x4000, 16, 0, 1, 0, 0, 0, 0, 0, 0, 0, 0, 0, false⟩
  | .portEvent => ⟨0x100010, 0x4000, 16, 0, 1, 0, 0x3F, 0, 0, 0, 0, 0, 0, 0, false⟩
  | .pauseCfg => ⟨0x100014, 0x4000, 16, 0, 1, 0xFFFFFFFF, 0, 0, 0, 0, 0x640FA0, 0, 0, 0, false⟩
  | .eeeCfg => ⟨0x100018, 0x4000, 16, 0, 1, 0x1FFFF, 0, 0, 0, 0, 0, 0, 0, 0, false⟩
  | .lpiCfg => ⟨0x10001C, 0x4000, 16, 0, 1, 0xFFFF, 0, 0, 0, 0, 0x64, 0, 0, 0, false⟩
  | .gateCtrl => ⟨0x100020, 0x4000, 16, 0, 1, 0x1FF07, 0, 0x8, 0, 0, 0x100, 0, 0, 0, false⟩
  | .gateOfs => ⟨0x100024, 0x4000, 16, 0, 1, 0xFFFFFFFF, 0, 0, 0, 0, 0, 0, 0, 0, false⟩
  | .rxDef => ⟨0x100028, 0x4000, 16, 0, 1, 0x7F7F, 0, 0, 0, 0, 0, 0, 0, 0, false⟩
  | .gateMask => ⟨0x101000, 0x4000, 16, 0x8, 256, 0xFF, 0, 0, 0, 0, 0xFF, 0, 0, 0, false⟩
  | .gateDur => ⟨0x101004, 0x4000, 16, 0x8, 256, 0xFFFFFFFF, 0, 0, 0, 0, 0, 0, 0, 0, false⟩
  | .flowCtrl => ⟨0x102000, 0x4000, 16, 0x20, 16, 0xFFFF0FFF, 0, 0, 0, 0, 0, 0, 0, 0, false⟩
  | .flowIp0 => ⟨0x102004, 0x4000, 16, 0x20, 16, 0xFFFFFFFF, 0, 0, 0, 0, 0, 0, 0, 0, false⟩
  | .flowIp1 => ⟨0x102008, 0x4000, 16, 0x20, 16, 0xFFFFFFFF, 0, 0, 0, 0, 0, 0, 0, 0, false⟩
  | .flowIp2 => ⟨0x10200C, 0x4000, 16, 0x20, 16, 0xFFFFFFFF, 0, 0, 0, 0, 0, 0, 0, 0, false⟩
  | .flowIp3 => ⟨0x102010, 0x4000, 16, 0x20, 16, 0xFFFFFFFF, 0, 0, 0, 0, 0, 0, 0, 0, false⟩
  | .flowVid => ⟨0x102014, 0x4000, 16, 0x20, 16, 0xFFF, 0, 0, 0, 0, 0, 0, 0, 0, false⟩
  | .t1sCtrl => ⟨0x140000, 0x400, 16, 0, 1, 0xFFFF03, 0, 0, 0, 0, 0x410000, 0, 0, 0, false⟩
  | .plcaTmr => ⟨0x140004, 0x400, 16, 0, 1, 0xFFFFFF, 0, 0, 0, 0, 0x801F20, 0, 0, 0, false⟩
  | .t1sStatus => ⟨0x140008, 0x400, 16, 0, 1, 0, 0x2, 0, 0, 0, 0, 0, 0, 0, false⟩
  | .t1sMacLo => ⟨0x14000C, 0x400, 16, 0, 1, 0xFFFFFFFF, 0, 0, 0, 0, 0, 0, 0, 0, false⟩
  | .t1sMacHi => ⟨0x140010, 0x400, 16, 0, 1, 0xFFFF, 0, 0, 0, 0, 0, 0, 0, 0, false⟩
  | .aud => ⟨0x148000, 0x10, 16, 0, 1, 0x1FF, 0, 0, 0, 0, 0, 0, 0, 0, false⟩
  | .envMap => ⟨0x148100, 0x4, 64, 0, 1, 0x7FF, 0, 0, 0, 0, 0, 0, 0, 0, false⟩
  | .tcReg => ⟨0x148200, 0x4, 17, 0, 1, 0x1, 0, 0, 0, 0, 0, 0, 0, 0, false⟩
  | .strmStatus => ⟨0x148300, 0x4, 16, 0, 1, 0, 0, 0, 0, 0, 0, 0, 0, 0, false⟩
  | .subCtrl => ⟨0x149000, 0x8, 1024, 0, 1, 0x1FFFFFF, 0, 0, 0, 0, 0, 0, 0, 0, false⟩
  | .subBase => ⟨0x149004, 0x8, 1024, 0, 1, 0xFFFF, 0, 0, 0, 0, 0, 0, 0, 0, false⟩
  | .dmxTiming => ⟨0x150000, 0x400, 8, 0, 1, 0x3FF03FF, 0, 0, 0, 0, 0xC00B0, 0, 0, 0, false⟩
  | .dmxSlots => ⟨0x150004, 0x400, 8, 0, 1, 0x3FF, 0, 0, 0, 0, 0x200, 0, 0, 0, false⟩
  | .rdmCtrl => ⟨0x150008, 0x400, 8, 0, 1, 0x1FF0002, 0, 0x1, 0, 0, 0, 0, 0, 0, false⟩
  | .rdmStatus => ⟨0x15000C, 0x400, 8, 0, 1, 0, 0x2, 0, 0, 0, 0, 0, 0, 0, false⟩
  | .rdmTx => ⟨0x150100, 0x400, 8, 0x4, 65, 0xFFFFFFFF, 0, 0, 0, 0, 0, 0, 0, 0, false⟩
  | .rdmRx => ⟨0x150280, 0x400, 8, 0x4, 65, 0, 0, 0, 0, 0, 0, 0, 0, 0, false⟩
  | .timeCtrl => ⟨0x160000, 0, 1, 0, 1, 0xF, 0, 0, 0, 0, 0xC, 0x2, 0, 0, false⟩
  | .timeStatus => ⟨0x160004, 0, 1, 0, 1, 0, 0, 0, 0, 0, 0, 0, 0, 0, false⟩
  | .timeEvent => ⟨0x160008, 0, 1, 0, 1, 0, 0x1FF, 0, 0, 0, 0, 0, 0, 0, false⟩
  | .otLo => ⟨0x160010, 0, 1, 0, 1, 0, 0, 0, 0, 0, 0, 0, 0, 0, false⟩
  | .otHi => ⟨0x160014, 0, 1, 0, 1, 0, 0, 0, 0, 0, 0, 0, 0, 0, false⟩
  | .otFrac => ⟨0x160018, 0, 1, 0, 1, 0, 0, 0, 0, 0, 0, 0, 0, 0, false⟩
  | .setLo => ⟨0x160020, 0, 1, 0, 1, 0xFFFFFFFF, 0, 0, 0, 0, 0, 0, 0, 0, false⟩
  | .setHi => ⟨0x160024, 0, 1, 0, 1, 0xFFFFFFFF, 0, 0, 0, 0, 0, 0, 0, 0, false⟩
  | .setGo => ⟨0x160028, 0, 1, 0, 1, 0, 0, 0, 0x1, 0, 0, 0, 0, 0, false⟩
  | .adjReg => ⟨0x160030, 0, 1, 0, 1, 0, 0, 0, 0, 0, 0, 0, 0, 0, false⟩
  | .adjFine => ⟨0x160034, 0, 1, 0, 1, 0, 0, 0, 0, 0, 0, 0, 0, 0, false⟩
  | .kp => ⟨0x160040, 0, 1, 0, 1, 0xFFFFFFFF, 0, 0, 0, 0, 0xB333, 0, 0, 0, false⟩
  | .ki => ⟨0x160044, 0, 1, 0, 1, 0xFFFFFFFF, 0, 0, 0, 0, 0xCCD, 0, 0, 0, false⟩
  | .adjMax => ⟨0x160048, 0, 1, 0, 1, 0xFFFFFFFF, 0, 0, 0, 0, 0x80000, 0, 0, 0, false⟩
  | .fstep => ⟨0x16004C, 0, 1, 0, 1, 0xFFFF, 0, 0, 0, 0, 0xD7, 0, 0, 0, false⟩
  | .slew => ⟨0x160050, 0, 1, 0, 1, 0x1FFFF, 0, 0, 0, 0, 0x3E8, 0, 0, 0, false⟩
  | .settle => ⟨0x160054, 0, 1, 0, 1, 0xFFFFFF, 0, 0, 0, 0, 0x80064, 0, 0, 0, false⟩
  | .alarm => ⟨0x160058, 0, 1, 0, 1, 0xFFFFFFFF, 0, 0, 0, 0, 0x4002710, 0, 0, 0, false⟩
  | .annTo => ⟨0x16005C, 0, 1, 0, 1, 0xFFFFF, 0, 0, 0, 0, 0x30BB8, 0, 0, 0, false⟩
  | .outDom => ⟨0x160060, 0, 1, 0, 1, 0xFF, 0, 0, 0, 0, 0, 0, 0, 0, false⟩
  | .mediaDom => ⟨0x160064, 0, 1, 0, 1, 0xFFFFFFFF, 0, 0, 0, 0, 0, 0, 0, 0, false⟩
  | .late => ⟨0x160080, 0x4, 8, 0, 1, 0xFFFFFFFF, 0, 0, 0, 0, 0x2710, 0, 0, 0, false⟩
  | .ppsOut => ⟨0x1600C0, 0x8, 2, 0, 1, 0xFFFFF007, 0, 0, 0, 0, 0x64000, 0, 0, 0, false⟩
  | .ppsOfs => ⟨0x1600C4, 0x8, 2, 0, 1, 0xFFFFFFFF, 0, 0, 0, 0, 0, 0, 0, 0, true⟩
  | .ppsInLo => ⟨0x1600D0, 0, 1, 0, 1, 0, 0, 0, 0, 0, 0, 0, 0, 0, false⟩
  | .ppsInHi => ⟨0x1600D4, 0, 1, 0, 1, 0, 0, 0, 0, 0, 0, 0, 0, 0, false⟩
  | .ppsInFrac => ⟨0x1600D8, 0, 1, 0, 1, 0, 0, 0, 0, 0, 0, 0, 0, 0, false⟩
  | .ppsInAdj => ⟨0x1600DC, 0, 1, 0, 1, 0xFFFFFFFF, 0, 0, 0, 0, 0, 0, 0, 0, true⟩
  | .ref10Err => ⟨0x1600E0, 0, 1, 0, 1, 0, 0, 0, 0, 0, 0, 0, 0, 0, false⟩
  | .domCfg => ⟨0x160100, 0x80, 2, 0, 1, 0xFF03, 0, 0, 0, 0, 0, 0, 0, 0, false⟩
  | .offsetNs => ⟨0x160104, 0x80, 2, 0, 1, 0, 0, 0, 0, 0, 0, 0, 0, 0, false⟩
  | .offsetFrac => ⟨0x160108, 0x80, 2, 0, 1, 0, 0, 0, 0, 0, 0, 0, 0, 0, false⟩
  | .delayNs => ⟨0x16010C, 0x80, 2, 0, 1, 0, 0, 0, 0, 0, 0, 0, 0, 0, false⟩
  | .domRate => ⟨0x160110, 0x80, 2, 0, 1, 0, 0, 0, 0, 0, 0, 0, 0, 0, false⟩
  | .domSamples => ⟨0x160114, 0x80, 2, 0, 1, 0, 0, 0, 0, 0, 0, 0, 0, 0, false⟩
  | .annKick => ⟨0x160118, 0x80, 2, 0, 1, 0, 0, 0, 0x1, 0, 0, 0, 0, 0, false⟩
  | .asym => ⟨0x16011C, 0x80, 2, 0, 1, 0xFFFFFFFF, 0, 0, 0, 0, 0, 0, 0, 0, true⟩
  | .meas => ⟨0x160120, 0x80, 2, 0x4, 8, 0xFFFFFFFF, 0, 0, 0, 0, 0, 0, 0, 0, false⟩
  | .measPush => ⟨0x160140, 0x80, 2, 0, 1, 0, 0, 0, 0x1, 0, 0, 0, 0, 0, false⟩
  | .pcfg => ⟨0x160200, 0x10, 32, 0, 1, 0x1F1F, 0, 0, 0, 0, 0x1D00, 0, 0, 0, false⟩
  | .rxLat => ⟨0x160204, 0x10, 32, 0, 1, 0xFFFFFF, 0, 0, 0, 0, 0, 0, 0, 0, true⟩
  | .txLat => ⟨0x160208, 0x10, 32, 0, 1, 0xFFFFFF, 0, 0, 0, 0, 0, 0, 0, 0, true⟩
  | .tsqE0 => ⟨0x160400, 0x20, 32, 0, 1, 0, 0, 0, 0, 0xFFFFFFFF, 0, 0, 0, 0, false⟩
  | .tsqE1 => ⟨0x160404, 0x20, 32, 0, 1, 0, 0, 0, 0, 0, 0, 0, 0, 0, false⟩
  | .tsqE2 => ⟨0x160408, 0x20, 32, 0, 1, 0, 0, 0, 0, 0, 0, 0, 0, 0, false⟩
  | .tsqE3 => ⟨0x16040C, 0x20, 32, 0, 1, 0, 0, 0, 0, 0, 0, 0, 0, 0, false⟩
  | .tsqCtrl => ⟨0x160410, 0x20, 32, 0, 1, 0x7F, 0, 0, 0x100, 0, 0x30, 0, 0, 0, false⟩
  | .tsqStatus => ⟨0x160414, 0x20, 32, 0, 1, 0, 0x300, 0, 0, 0, 0, 0, 0, 0, false⟩
  | .tsqOvfCnt => ⟨0x160418, 0x20, 32, 0, 1, 0, 0, 0, 0, 0, 0, 0, 0, 0, false⟩
  | .twinCtrl => ⟨0x180000, 0, 1, 0, 1, 0xFFFF03FF, 0, 0, 0, 0, 0x2080330, 0, 0, 0, false⟩
  | .twinCmd => ⟨0x180004, 0, 1, 0, 1, 0, 0, 0, 0xF, 0, 0, 0, 0, 0, false⟩
  | .twinStatus => ⟨0x180008, 0, 1, 0, 1, 0, 0, 0, 0, 0, 0, 0, 0, 0, false⟩
  | .term => ⟨0x18000C, 0, 1, 0, 1, 0, 0, 0, 0, 0, 0, 0, 0, 0, false⟩
  | .twinEvent => ⟨0x180010, 0, 1, 0, 1, 0, 0xFF, 0, 0, 0, 0, 0, 0, 0, false⟩
  | .jseqTx => ⟨0x180014, 0, 1, 0, 1, 0, 0, 0, 0, 0, 0, 0, 0, 0, false⟩
  | .jseqRx => ⟨0x180018, 0, 1, 0, 1, 0, 0, 0, 0, 0, 0, 0, 0, 0, false⟩
  | .jbufBase => ⟨0x180020, 0, 1, 0, 1, 0xFFFFFFFF, 0, 0, 0, 0, 0, 0, 0, 0, false⟩
  | .jbufMib => ⟨0x180024, 0, 1, 0, 1, 0xFFFF, 0, 0, 0, 0, 0x100, 0, 0, 0, false⟩
  | .copyDone => ⟨0x180028, 0, 1, 0, 1, 0, 0, 0, 0, 0, 0, 0, 0, 0, false⟩
  | .copyTotal => ⟨0x18002C, 0, 1, 0, 1, 0, 0, 0, 0, 0, 0, 0, 0, 0, false⟩
  | .twinOffset => ⟨0x180030, 0, 1, 0, 1, 0, 0, 0, 0, 0, 0, 0, 0, 0, false⟩
  | .twinDelay => ⟨0x180034, 0, 1, 0, 1, 0, 0, 0, 0, 0, 0, 0, 0, 0, false⟩
  | .divergeCanvas => ⟨0x180038, 0, 1, 0, 1, 0, 0, 0, 0, 0, 0, 0, 0, 0, false⟩
  | .divergeEpoch => ⟨0x18003C, 0, 1, 0, 1, 0, 0, 0, 0, 0, 0, 0, 0, 0, false⟩
  | .pwrMode => ⟨0x190000, 0, 1, 0, 1, 0, 0, 0, 0, 0, 0x1, 0, 0, 0, false⟩
  | .pwrCmd => ⟨0x190004, 0, 1, 0, 1, 0, 0, 0, 0x107, 0, 0, 0, 0, 0, false⟩
  | .pwrCtrl => ⟨0x190008, 0, 1, 0, 1, 0xFFFFF001, 0, 0, 0, 0, 0x3000, 0, 0, 0, false⟩
  | .hbmSrIdle => ⟨0x19000C, 0, 1, 0, 1, 0xFFFF, 0, 0, 0, 0, 0x14, 0, 0, 0, false⟩
  | .railGood => ⟨0x190010, 0, 1, 0, 1, 0, 0, 0, 0, 0, 0x1FF, 0, 0, 0, false⟩
  | .rstCause => ⟨0x190014, 0, 1, 0, 1, 0, 0x7F, 0, 0, 0, 0x1, 0, 0, 0, false⟩
  | .safeCause => ⟨0x190018, 0, 1, 0, 1, 0, 0, 0, 0, 0, 0, 0, 0, 0, false⟩
  | .avsCtrl => ⟨0x19001C, 0, 1, 0, 1, 0xFF, 0, 0, 0, 0, 0x2EE0081, 0, 0, 0, false⟩
  | .dieTemp => ⟨0x190020, 0, 1, 0, 1, 0xFF00, 0, 0, 0, 0, 0x6400, 0, 0, 0, false⟩
  | .clkStatus => ⟨0x190024, 0, 1, 0, 1, 0, 0, 0, 0, 0, 0, 0, 0, 0, false⟩
  | .wakeEn => ⟨0x190028, 0, 1, 0, 1, 0xF, 0, 0, 0, 0, 0x5, 0, 0, 0, false⟩
  | .slowLo => ⟨0x190030, 0, 1, 0, 1, 0, 0, 0, 0, 0, 0, 0, 0, 0, false⟩
  | .slowHi => ⟨0x190034, 0, 1, 0, 1, 0, 0, 0, 0, 0, 0, 0, 0, 0, false⟩
  | .alarmLo => ⟨0x190038, 0, 1, 0, 1, 0xFFFFFFFF, 0, 0, 0, 0, 0, 0, 0, 0, false⟩
  | .alarmHi => ⟨0x19003C, 0, 1, 0, 1, 0xFFFFFFFF, 0, 0, 0, 0, 0, 0, 0, 0, false⟩
  | .bootStatus => ⟨0x190040, 0, 1, 0, 1, 0, 0, 0, 0, 0, 0, 0, 0, 0, false⟩
  | .bootAddr => ⟨0x190044, 0, 1, 0, 1, 0xFFFFFFFF, 0, 0, 0, 0, 0, 0, 0, 0, false⟩
  | .bootLen => ⟨0x190048, 0, 1, 0, 1, 0x3FFFFFF, 0, 0, 0, 0, 0, 0, 0, 0, false⟩
  | .bootGo => ⟨0x19004C, 0, 1, 0, 1, 0, 0, 0, 0x1, 0, 0, 0, 0, 0, false⟩
  | .pwrEvent => ⟨0x190050, 0, 1, 0, 1, 0, 0xF, 0, 0, 0, 0, 0, 0, 0, false⟩
  | .lcState => ⟨0x1A0000, 0, 1, 0, 1, 0, 0, 0, 0, 0, 0x2, 0, 0, 0, false⟩
  | .bistCmd => ⟨0x1A0004, 0, 1, 0, 1, 0x6, 0, 0x1, 0x8, 0, 0, 0, 0, 0, false⟩
  | .rotCfg => ⟨0x1A0008, 0, 1, 0, 1, 0xFFFFFFFF, 0, 0, 0, 0, 0x1F403E8, 0, 0, 0, false⟩
  | .bistStatus => ⟨0x1A0010, 0, 1, 0, 1, 0, 0, 0, 0, 0, 0, 0, 0, 0, false⟩
  | .bistEvent => ⟨0x1A0014, 0, 1, 0, 1, 0, 0x1F, 0, 0, 0, 0, 0, 0, 0, false⟩
  | .collide => ⟨0x1A0018, 0, 1, 0, 1, 0, 0, 0, 0, 0, 0, 0, 0, 0, false⟩
  | .otpAddr => ⟨0x1A0020, 0, 1, 0, 1, 0x3FF, 0, 0, 0, 0, 0, 0, 0, 0, false⟩
  | .otpData => ⟨0x1A0024, 0, 1, 0, 1, 0xFFFFFFFF, 0, 0, 0, 0, 0, 0, 0, 0, false⟩
  | .otpCtrl => ⟨0x1A0028, 0, 1, 0, 1, 0, 0, 0x1, 0, 0, 0, 0, 0, 0, false⟩
  | .lcReq => ⟨0x1A002C, 0, 1, 0, 1, 0, 0, 0, 0xFFFFFFFF, 0, 0, 0, 0, 0, false⟩
  | .bistSel => ⟨0x1A0040, 0x4, 4, 0, 1, 0xFFFFFFFF, 0, 0, 0, 0, 0, 0, 0, 0, false⟩
  | .bistRes => ⟨0x1A0100, 0x4, 128, 0, 1, 0, 0, 0, 0, 0, 0, 0, 0, 0, false⟩
  | .calCtrl => ⟨0x1B0000, 0, 1, 0, 1, 0x3, 0, 0, 0, 0, 0, 0, 0, 0, false⟩
  | .calStatus => ⟨0x1B0004, 0, 1, 0, 1, 0, 0, 0, 0, 0, 0, 0, 0, 0, false⟩
  | .calEvent => ⟨0x1B0008, 0, 1, 0, 1, 0, 0x1, 0, 0, 0, 0, 0, 0, 0, false⟩
  | .fact => ⟨0x1B0100, 0x4, 60, 0, 1, 0, 0, 0, 0, 0, 0, 0, 0, 0, false⟩
  | .userTempOfs => ⟨0x1B0200, 0x4, 16, 0, 1, 0xFF, 0, 0, 0, 0, 0, 0, 0, 0, true⟩
  | .userImp => ⟨0x1B0240, 0x4, 34, 0, 1, 0x3F, 0, 0, 0, 0, 0, 0, 0, 0, true⟩
  | .cntLo => ⟨0x1C0000, 0x8, 512, 0, 1, 0, 0, 0, 0, 0, 0, 0, 0, 0, false⟩
  | .cntHi => ⟨0x1C0004, 0x8, 512, 0, 1, 0, 0, 0, 0, 0, 0, 0, 0, 0, false⟩
  | .snapLo => ⟨0x1C1000, 0x8, 512, 0, 1, 0, 0, 0, 0, 0, 0, 0, 0, 0, false⟩
  | .snapHi => ⟨0x1C1004, 0x8, 512, 0, 1, 0, 0, 0, 0, 0, 0, 0, 0, 0, false⟩
  | .swcntLo => ⟨0x1C2000, 0x40, 128, 0x8, 8, 0, 0, 0, 0, 0, 0, 0, 0, 0, false⟩
  | .swcntHi => ⟨0x1C2004, 0x40, 128, 0x8, 8, 0, 0, 0, 0, 0, 0, 0, 0, 0, false⟩
  | .cntSnap => ⟨0x1C4000, 0, 1, 0, 1, 0, 0, 0x1, 0, 0, 0, 0, 0, 0, false⟩
  | .snapTimeLo => ⟨0x1C4008, 0, 1, 0, 1, 0, 0, 0, 0, 0, 0, 0, 0, 0, false⟩
  | .snapTimeHi => ⟨0x1C400C, 0, 1, 0, 1, 0, 0, 0, 0, 0, 0, 0, 0, 0, false⟩
  | .tagCtrl => ⟨0x1C5000, 0, 1, 0, 1, 0xFFFFFF1F, 0, 0, 0, 0, 0x1000014, 0, 0, 0, false⟩
  | .tagSeed => ⟨0x1C5004, 0, 1, 0, 1, 0xFFFFFFFF, 0, 0, 0, 0, 0x1, 0, 0, 0, false⟩
  | .tagBase => ⟨0x1C5008, 0, 1, 0, 1, 0xFFFFFFFF, 0, 0, 0, 0, 0, 0, 0, 0, false⟩
  | .tagHead => ⟨0x1C500C, 0, 1, 0, 1, 0xFFFF, 0, 0, 0, 0, 0, 0, 0, 0, false⟩
  | .tagTail => ⟨0x1C5010, 0, 1, 0, 1, 0, 0, 0, 0, 0, 0, 0, 0, 0, false⟩
  | .tagLevel => ⟨0x1C5014, 0, 1, 0, 1, 0x1FFFF, 0, 0, 0, 0, 0x10000, 0, 0, 0, false⟩
  | .tagStatus => ⟨0x1C5018, 0, 1, 0, 1, 0, 0x3, 0, 0, 0, 0, 0, 0, 0, false⟩
  | .bwCtrl => ⟨0x1C6000, 0x40, 32, 0, 1, 0xFFFFF00F, 0, 0, 0, 0, 0x3E8000, 0, 0, 0, false⟩
  | .txBytes => ⟨0x1C6004, 0x40, 32, 0x4, 8, 0, 0, 0, 0, 0, 0, 0, 0, 0, false⟩
  | .rxBytes => ⟨0x1C6024, 0x40, 32, 0, 1, 0, 0, 0, 0, 0, 0, 0, 0, 0, false⟩
  | .peakTx => ⟨0x1C6028, 0x40, 32, 0, 1, 0, 0, 0, 0, 0xFFFFFFFF, 0, 0, 0, 0, false⟩
  | .bwLimit => ⟨0x1C602C, 0x40, 32, 0, 1, 0xFFFFFFFF, 0, 0, 0, 0, 0, 0, 0, 0, false⟩
  | .bwSeq => ⟨0x1C6030, 0x40, 32, 0, 1, 0, 0, 0, 0, 0, 0, 0, 0, 0, false⟩
  | .etabWord => ⟨0x200000, 0x40, 131072, 0x4, 16, 0xFFFFFFFF, 0, 0, 0, 0, 0, 0, 0, 0, false⟩
  | .clStatus => ⟨0xA00000, 0x10000, 20, 0, 1, 0, 0, 0, 0, 0, 0, 0, 0, 0, false⟩
  | .clTsUsed => ⟨0xA00004, 0x10000, 20, 0, 1, 0, 0, 0, 0, 0, 0, 0, 0, 0, false⟩
  | .clCore => ⟨0xA00010, 0x10000, 20, 0x4, 8, 0, 0, 0, 0, 0, 0, 0, 0, 0, false⟩

/-- A part of the register list. -/
def regList0 : List RegId := [.idLo, .idHi, .sem, .semCfg, .semForce, .ringCtrl, .ringBaseLo, .ringBaseHi, .ringWbLo, .ringWbHi, .ringHead, .ringTail, .ringOcc, .ringLevel, .ringStatus, .ctxCpl, .ctxFence, .layerStatus, .layerVersion, .layerDoneEpoch, .layerHaddr, .route, .hostStatus, .hostErrAddr, .hostErrFn]
/-- A part of the register list. -/
def regList1 : List RegId := [.pcieLink, .bar2Base, .sched, .slotsUsed, .slotLevel, .schedCancel, .schedKick, .schedClusters, .schedReady, .ctxCtrl, .ctxQuotaSlots, .ctxQuotaCt, .ctxQuotaMl, .ctxUseSlots, .ctxUseCt, .ctxUseMl, .ctxStatus, .ctxEvent, .progBase, .progLen, .progCtrl, .progEntry, .tmplDesc, .tmplBind, .tmplSrc]
/-- A part of the register list. -/
def regList2 : List RegId := [.tmplReleased, .tmplDrop, .fcCtrl, .fcPhase, .fbaseLo, .fbaseHi, .nextLo, .nextHi, .nextEpoch, .fcStatus, .periodNs, .switchEpoch, .canvasCtrl, .canvasWidth, .canvasHeight, .canvasTile, .vatBase, .vatSize, .commitLead, .latchGuard, .refresh, .vatCmd, .txEpoch, .rmEpoch, .wpEpoch]
/-- A part of the register list. -/
def regList3 : List RegId := [.vatSlots, .canvasStatus, .canvasEvent, .canvasDirty, .canvasFilled, .canvasSlipNs, .canvasCommits, .canvasEvtEn, .inputLogUsed, .inputLogStatus, .envOffset, .inputLogMax, .glzBusy, .glzBankUse, .mordAddr, .mordData, .mordStatus, .glzCfg, .gainBase, .gainStride, .glzEvent, .glzLateLines, .glzAbandoned, .planeCtrl, .planeSrc]
/-- A part of the register list. -/
def regList4 : List RegId := [.planeSize, .planeDx, .planeDy, .planeAdv, .planeCut, .vringBase, .lineStride, .vsize, .ringFmt, .frameNs, .epCtrl, .epHold, .epTiming, .drvBase, .stblBase, .mmacLo, .mmacHi, .mip4, .mip6, .epFltClr, .epErr, .epEvent, .epDrvKick, .sacnCid, .sacnName]
/-- A part of the register list. -/
def regList5 : List RegId := [.epBlackout, .epCanvas, .sacnSync, .sacnSyncAdv, .epPorts, .viewBase, .viewN, .dmxCanvas, .dmxBase, .kg, .profP, .profLim, .univCtrl, .univPrio, .univBase, .univSeq, .macCtrl, .macLo, .macHi, .portStatus, .portEvent, .pauseCfg, .eeeCfg, .lpiCfg, .gateCtrl]
/-- A part of the register list. -/
def regList6 : List RegId := [.gateOfs, .rxDef, .gateMask, .gateDur, .flowCtrl, .flowIp0, .flowIp1, .flowIp2, .flowIp3, .flowVid, .t1sCtrl, .plcaTmr, .t1sStatus, .t1sMacLo, .t1sMacHi, .aud, .envMap, .tcReg, .strmStatus, .subCtrl, .subBase, .dmxTiming, .dmxSlots, .rdmCtrl, .rdmStatus]
/-- A part of the register list. -/
def regList7 : List RegId := [.rdmTx, .rdmRx, .timeCtrl, .timeStatus, .timeEvent, .otLo, .otHi, .otFrac, .setLo, .setHi, .setGo, .adjReg, .adjFine, .kp, .ki, .adjMax, .fstep, .slew, .settle, .alarm, .annTo, .outDom, .mediaDom, .late, .ppsOut]
/-- A part of the register list. -/
def regList8 : List RegId := [.ppsOfs, .ppsInLo, .ppsInHi, .ppsInFrac, .ppsInAdj, .ref10Err, .domCfg, .offsetNs, .offsetFrac, .delayNs, .domRate, .domSamples, .annKick, .asym, .meas, .measPush, .pcfg, .rxLat, .txLat, .tsqE0, .tsqE1, .tsqE2, .tsqE3, .tsqCtrl, .tsqStatus]
/-- A part of the register list. -/
def regList9 : List RegId := [.tsqOvfCnt, .twinCtrl, .twinCmd, .twinStatus, .term, .twinEvent, .jseqTx, .jseqRx, .jbufBase, .jbufMib, .copyDone, .copyTotal, .twinOffset, .twinDelay, .divergeCanvas, .divergeEpoch, .pwrMode, .pwrCmd, .pwrCtrl, .hbmSrIdle, .railGood, .rstCause, .safeCause, .avsCtrl, .dieTemp]
/-- A part of the register list. -/
def regList10 : List RegId := [.clkStatus, .wakeEn, .slowLo, .slowHi, .alarmLo, .alarmHi, .bootStatus, .bootAddr, .bootLen, .bootGo, .pwrEvent, .lcState, .bistCmd, .rotCfg, .bistStatus, .bistEvent, .collide, .otpAddr, .otpData, .otpCtrl, .lcReq, .bistSel, .bistRes, .calCtrl, .calStatus]
/-- A part of the register list. -/
def regList11 : List RegId := [.calEvent, .fact, .userTempOfs, .userImp, .cntLo, .cntHi, .snapLo, .snapHi, .swcntLo, .swcntHi, .cntSnap, .snapTimeLo, .snapTimeHi, .tagCtrl, .tagSeed, .tagBase, .tagHead, .tagTail, .tagLevel, .tagStatus, .bwCtrl, .txBytes, .rxBytes, .peakTx, .bwLimit]
/-- A part of the register list. -/
def regList12 : List RegId := [.bwSeq, .etabWord, .clStatus, .clTsUsed, .clCore]
/-- Every register of the map. -/
def regList : List RegId := regList0 ++ regList1 ++ regList2 ++ regList3 ++ regList4 ++ regList5 ++ regList6 ++ regList7 ++ regList8 ++ regList9 ++ regList10 ++ regList11 ++ regList12

/-- A register instance: the register and its two indices. -/
structure RegAt where
  id : RegId
  i : Nat
  j : Nat
deriving DecidableEq, Repr

/-- The instance of a register that lies at an offset. -/
def RegId.at? (r : RegId) (off : Nat) : Option RegAt :=
  let d := r.desc
  if off < d.base then none
  else
    let rel := off - d.base
    let i := if d.step = 0 then 0 else if d.n = 1 then 0 else rel / d.step
    let rel2 := rel - i * d.step
    let j := if d.step2 = 0 then 0 else if d.n2 = 1 then 0 else rel2 / d.step2
    if i < d.n && j < d.n2 && rel2 == j * d.step2 then some ⟨r, i, j⟩ else none

/-- The first register of a list that lies at an offset. -/
def findReg (off : Nat) : List RegId → Option RegAt
  | [] => none
  | r :: rs =>
    match r.at? off with
    | some a => some a
    | none => findReg off rs

/-- The register instance at a BAR0 offset, if a register occupies it (R371). -/
def regAt (off : Nat) : Option RegAt := findReg off regList

/-- The offset of a register instance. -/
def RegId.off (r : RegId) (i j : Nat) : Nat := r.desc.base + r.desc.step * i + r.desc.step2 * j

/-- The key of a register instance in the register file. -/
def RegId.key (r : RegId) (i j : Nat) : Nat := (i * r.desc.n2 + j) * 512 + r.num

/-- A field: its register, its lowest bit and its width. -/
structure Fld where
  reg : RegId
  lo : Nat
  w : Nat
deriving DecidableEq, Repr

/-- ID_LO.REV (Table 0-3). -/
def fld.idLo.REV : Fld := ⟨.idLo, 0, 16⟩
/-- ID_LO.PART (Table 0-3). -/
def fld.idLo.PART : Fld := ⟨.idLo, 16, 16⟩
/-- ID_HI.VENDOR (Table 0-3). -/
def fld.idHi.VENDOR : Fld := ⟨.idHi, 0, 16⟩
/-- SEM_n.OWNER (Table 10-9). -/
def fld.sem.OWNER : Fld := ⟨.sem, 0, 5⟩
/-- SEM_n.HELD (Table 10-9). -/
def fld.sem.HELD : Fld := ⟨.sem, 5, 1⟩
/-- SEM_n.GOT (Table 10-9). -/
def fld.sem.GOT : Fld := ⟨.sem, 6, 1⟩
/-- SEM_n.EXPIRED (Table 10-9). -/
def fld.sem.EXPIRED : Fld := ⟨.sem, 7, 1⟩
/-- SEM_n.GEN (Table 10-9). -/
def fld.sem.GEN : Fld := ⟨.sem, 16, 16⟩
/-- SEM_CFG_n.LEASE_US (Table 10-9). -/
def fld.semCfg.LEASE_US : Fld := ⟨.semCfg, 0, 24⟩
/-- SEM_FORCE.SEM_FORCE (Table 10-9). -/
def fld.semForce.SEM_FORCE : Fld := ⟨.semForce, 0, 8⟩
/-- RING_CTRL.EN (Table 10-10). -/
def fld.ringCtrl.EN : Fld := ⟨.ringCtrl, 0, 1⟩
/-- RING_CTRL.KIND (Table 10-10). -/
def fld.ringCtrl.KIND : Fld := ⟨.ringCtrl, 1, 3⟩
/-- RING_CTRL.FN (Table 10-10). -/
def fld.ringCtrl.FN : Fld := ⟨.ringCtrl, 4, 5⟩
/-- RING_CTRL.LOG2SZ (Table 10-10). -/
def fld.ringCtrl.LOG2SZ : Fld := ⟨.ringCtrl, 9, 5⟩
/-- RING_CTRL.ERR (Table 10-10). -/
def fld.ringCtrl.ERR : Fld := ⟨.ringCtrl, 14, 1⟩
/-- RING_CTRL.FLUSH (Table 10-10). -/
def fld.ringCtrl.FLUSH : Fld := ⟨.ringCtrl, 15, 1⟩
/-- RING_CTRL.CPL (Table 10-10). -/
def fld.ringCtrl.CPL : Fld := ⟨.ringCtrl, 16, 6⟩
/-- RING_BASE_LO.BASE_LO (Table 10-10). -/
def fld.ringBaseLo.BASE_LO : Fld := ⟨.ringBaseLo, 0, 32⟩
/-- RING_BASE_HI.BASE_HI (Table 10-10). -/
def fld.ringBaseHi.BASE_HI : Fld := ⟨.ringBaseHi, 0, 32⟩
/-- RING_WB_LO.WB_LO (Table 10-10). -/
def fld.ringWbLo.WB_LO : Fld := ⟨.ringWbLo, 0, 32⟩
/-- RING_WB_HI.WB_HI (Table 10-10). -/
def fld.ringWbHi.WB_HI : Fld := ⟨.ringWbHi, 0, 32⟩
/-- RING_HEAD.HEAD (Table 10-10). -/
def fld.ringHead.HEAD : Fld := ⟨.ringHead, 0, 16⟩
/-- RING_TAIL.TAIL (Table 10-10). -/
def fld.ringTail.TAIL : Fld := ⟨.ringTail, 0, 16⟩
/-- RING_OCC.OCC (Table 10-10). -/
def fld.ringOcc.OCC : Fld := ⟨.ringOcc, 0, 17⟩
/-- RING_LEVEL.RING_LEVEL (Table 10-10). -/
def fld.ringLevel.RING_LEVEL : Fld := ⟨.ringLevel, 0, 17⟩
/-- RING_STATUS.RING_STATUS (Table 10-10). -/
def fld.ringStatus.RING_STATUS : Fld := ⟨.ringStatus, 0, 4⟩
/-- CTX_CPL_c.RING (Table 10-11). -/
def fld.ctxCpl.RING : Fld := ⟨.ctxCpl, 0, 6⟩
/-- CTX_CPL_c.EN (Table 10-11). -/
def fld.ctxCpl.EN : Fld := ⟨.ctxCpl, 6, 1⟩
/-- CTX_FENCE_c.DONE (Table 10-11). -/
def fld.ctxFence.DONE : Fld := ⟨.ctxFence, 0, 32⟩
/-- LAYER_STATUS.VALID (Table 10-11). -/
def fld.layerStatus.VALID : Fld := ⟨.layerStatus, 0, 1⟩
/-- LAYER_STATUS.STALE (Table 10-11). -/
def fld.layerStatus.STALE : Fld := ⟨.layerStatus, 1, 1⟩
/-- LAYER_STATUS.CTX (Table 10-11). -/
def fld.layerStatus.CTX : Fld := ⟨.layerStatus, 16, 7⟩
/-- LAYER_VERSION.VERSION (Table 10-11). -/
def fld.layerVersion.VERSION : Fld := ⟨.layerVersion, 0, 32⟩
/-- DONE_EPOCH.DONE_EPOCH (Table 10-11). -/
def fld.layerDoneEpoch.DONE_EPOCH : Fld := ⟨.layerDoneEpoch, 0, 32⟩
/-- LAYER_HADDR.LAYER_HADDR (Table 10-11). -/
def fld.layerHaddr.LAYER_HADDR : Fld := ⟨.layerHaddr, 0, 32⟩
/-- ROUTE.EN (Table 10-11). -/
def fld.route.EN : Fld := ⟨.route, 0, 1⟩
/-- ROUTE.RING (Table 10-11). -/
def fld.route.RING : Fld := ⟨.route, 1, 6⟩
/-- ROUTE.MSIX (Table 10-11). -/
def fld.route.MSIX : Fld := ⟨.route, 7, 1⟩
/-- ROUTE.VECTOR (Table 10-11). -/
def fld.route.VECTOR : Fld := ⟨.route, 8, 7⟩
/-- HOST_STATUS.HOST_STATUS (Table 10-12). -/
def fld.hostStatus.HOST_STATUS : Fld := ⟨.hostStatus, 0, 4⟩
/-- HOST_ERR_ADDR.HOST_ERR_ADDR (Table 10-12). -/
def fld.hostErrAddr.HOST_ERR_ADDR : Fld := ⟨.hostErrAddr, 0, 32⟩
/-- HOST_ERR_FN.HOST_ERR_FN (Table 10-12). -/
def fld.hostErrFn.HOST_ERR_FN : Fld := ⟨.hostErrFn, 0, 5⟩
/-- PCIE_LINK.H0_RATE (Table 10-12). -/
def fld.pcieLink.H0_RATE : Fld := ⟨.pcieLink, 0, 2⟩
/-- PCIE_LINK.H0_WIDTH (Table 10-12). -/
def fld.pcieLink.H0_WIDTH : Fld := ⟨.pcieLink, 4, 2⟩
/-- PCIE_LINK.H1_RATE (Table 10-12). -/
def fld.pcieLink.H1_RATE : Fld := ⟨.pcieLink, 16, 2⟩
/-- PCIE_LINK.H1_WIDTH (Table 10-12). -/
def fld.pcieLink.H1_WIDTH : Fld := ⟨.pcieLink, 20, 2⟩
/-- BAR2_BASE.BAR2_BASE (Table 10-12). -/
def fld.bar2Base.BAR2_BASE : Fld := ⟨.bar2Base, 0, 7⟩
/-- SCHED.EN (Table 4-10). -/
def fld.sched.EN : Fld := ⟨.sched, 0, 1⟩
/-- SCHED.SVC (Table 4-10). -/
def fld.sched.SVC : Fld := ⟨.sched, 1, 1⟩
/-- SLOTS_USED.SLOTS_USED (Table 4-11). -/
def fld.slotsUsed.SLOTS_USED : Fld := ⟨.slotsUsed, 0, 17⟩
/-- SLOT_LEVEL.SLOT_LEVEL (Table 4-11). -/
def fld.slotLevel.SLOT_LEVEL : Fld := ⟨.slotLevel, 0, 17⟩
/-- SCHED_CANCEL.SLOT (Table 4-11). -/
def fld.schedCancel.SLOT : Fld := ⟨.schedCancel, 0, 16⟩
/-- SCHED_CANCEL.CTX (Table 4-11). -/
def fld.schedCancel.CTX : Fld := ⟨.schedCancel, 16, 7⟩
/-- SCHED_KICK.KICK (Table 4-11). -/
def fld.schedKick.KICK : Fld := ⟨.schedKick, 0, 8⟩
/-- SCHED_CLUSTERS.SCHED_CLUSTERS (Table 4-11). -/
def fld.schedClusters.SCHED_CLUSTERS : Fld := ⟨.schedClusters, 0, 20⟩
/-- SCHED_READY_n.READY (Table 4-11). -/
def fld.schedReady.READY : Fld := ⟨.schedReady, 0, 17⟩
/-- CTX_CTRL.EN (Table 4-12). -/
def fld.ctxCtrl.EN : Fld := ⟨.ctxCtrl, 0, 1⟩
/-- CTX_CTRL.FC (Table 4-12). -/
def fld.ctxCtrl.FC : Fld := ⟨.ctxCtrl, 1, 2⟩
/-- CTX_CTRL.OWNER (Table 4-12). -/
def fld.ctxCtrl.OWNER : Fld := ⟨.ctxCtrl, 8, 5⟩
/-- QUOTA_SLOTS.QUOTA_SLOTS (Table 4-13). -/
def fld.ctxQuotaSlots.QUOTA_SLOTS : Fld := ⟨.ctxQuotaSlots, 0, 17⟩
/-- QUOTA_CT.QUOTA_CT (Table 4-13). -/
def fld.ctxQuotaCt.QUOTA_CT : Fld := ⟨.ctxQuotaCt, 0, 24⟩
/-- QUOTA_ML.QUOTA_MEM (Table 4-13). -/
def fld.ctxQuotaMl.QUOTA_MEM : Fld := ⟨.ctxQuotaMl, 0, 16⟩
/-- QUOTA_ML.QUOTA_LAYERS (Table 4-13). -/
def fld.ctxQuotaMl.QUOTA_LAYERS : Fld := ⟨.ctxQuotaMl, 16, 11⟩
/-- USE_SLOTS.USE_SLOTS (Table 4-13). -/
def fld.ctxUseSlots.USE_SLOTS : Fld := ⟨.ctxUseSlots, 0, 17⟩
/-- USE_CT.USE_CT (Table 4-13). -/
def fld.ctxUseCt.USE_CT : Fld := ⟨.ctxUseCt, 0, 24⟩
/-- USE_ML.USE_MEM (Table 4-13). -/
def fld.ctxUseMl.USE_MEM : Fld := ⟨.ctxUseMl, 0, 16⟩
/-- USE_ML.USE_LAYERS (Table 4-13). -/
def fld.ctxUseMl.USE_LAYERS : Fld := ⟨.ctxUseMl, 16, 11⟩
/-- CTX_STATUS.CTX_STATUS (Table 4-14). -/
def fld.ctxStatus.CTX_STATUS : Fld := ⟨.ctxStatus, 0, 4⟩
/-- CTX_EVENT.CTX_EVENT (Table 4-14). -/
def fld.ctxEvent.CTX_EVENT : Fld := ⟨.ctxEvent, 0, 4⟩
/-- PROG_BASE.BASE (Table 4-15). -/
def fld.progBase.BASE : Fld := ⟨.progBase, 0, 32⟩
/-- PROG_LEN.LEN (Table 4-15). -/
def fld.progLen.LEN : Fld := ⟨.progLen, 0, 20⟩
/-- PROG_CTRL.CTX (Table 4-15). -/
def fld.progCtrl.CTX : Fld := ⟨.progCtrl, 0, 7⟩
/-- PROG_CTRL.VALID (Table 4-15). -/
def fld.progCtrl.VALID : Fld := ⟨.progCtrl, 7, 1⟩
/-- PROG_CTRL.SVC (Table 4-15). -/
def fld.progCtrl.SVC : Fld := ⟨.progCtrl, 8, 1⟩
/-- PROG_CTRL.SCRATCH (Table 4-15). -/
def fld.progCtrl.SCRATCH : Fld := ⟨.progCtrl, 9, 9⟩
/-- PROG_ENTRY.ENTRY (Table 4-15). -/
def fld.progEntry.ENTRY : Fld := ⟨.progEntry, 0, 20⟩
/-- DESC0-7.DESC (Table 4-16). -/
def fld.tmplDesc.DESC : Fld := ⟨.tmplDesc, 0, 32⟩
/-- TMPL_BIND.KIND (Table 4-16). -/
def fld.tmplBind.KIND : Fld := ⟨.tmplBind, 0, 4⟩
/-- TMPL_BIND.ERR (Table 4-16). -/
def fld.tmplBind.ERR : Fld := ⟨.tmplBind, 4, 1⟩
/-- TMPL_SRC.SRC (Table 4-16). -/
def fld.tmplSrc.SRC : Fld := ⟨.tmplSrc, 0, 32⟩
/-- TMPL_RELEASED.RELEASED (Table 4-16). -/
def fld.tmplReleased.RELEASED : Fld := ⟨.tmplReleased, 0, 32⟩
/-- TMPL_DROP.TMPL_DROP (Table 4-16). -/
def fld.tmplDrop.TMPL_DROP : Fld := ⟨.tmplDrop, 0, 32⟩
/-- FC_CTRL.EN (Table 8-12). -/
def fld.fcCtrl.EN : Fld := ⟨.fcCtrl, 0, 1⟩
/-- FC_CTRL.RATE (Table 8-12). -/
def fld.fcCtrl.RATE : Fld := ⟨.fcCtrl, 1, 5⟩
/-- FC_PHASE.PHASE (Table 8-12). -/
def fld.fcPhase.PHASE : Fld := ⟨.fcPhase, 0, 30⟩
/-- FBASE_LO.FBASE_LO (Table 8-12). -/
def fld.fbaseLo.FBASE_LO : Fld := ⟨.fbaseLo, 0, 32⟩
/-- FBASE_HI.FBASE_HI (Table 8-12). -/
def fld.fbaseHi.FBASE_HI : Fld := ⟨.fbaseHi, 0, 32⟩
/-- NEXT_LO.NEXT_LO (Table 8-12). -/
def fld.nextLo.NEXT_LO : Fld := ⟨.nextLo, 0, 32⟩
/-- NEXT_HI.NEXT_HI (Table 8-12). -/
def fld.nextHi.NEXT_HI : Fld := ⟨.nextHi, 0, 32⟩
/-- NEXT_EPOCH.NEXT_EPOCH (Table 8-12). -/
def fld.nextEpoch.NEXT_EPOCH : Fld := ⟨.nextEpoch, 0, 32⟩
/-- FC_STATUS.RUN (Table 8-12). -/
def fld.fcStatus.RUN : Fld := ⟨.fcStatus, 0, 1⟩
/-- FC_STATUS.PENDING (Table 8-12). -/
def fld.fcStatus.PENDING : Fld := ⟨.fcStatus, 1, 1⟩
/-- FC_STATUS.CFG_ERR (Table 8-12). -/
def fld.fcStatus.CFG_ERR : Fld := ⟨.fcStatus, 2, 1⟩
/-- PERIOD_NS.PERIOD_NS (Table 8-12). -/
def fld.periodNs.PERIOD_NS : Fld := ⟨.periodNs, 0, 26⟩
/-- SWITCH_EPOCH.SWITCH_EPOCH (Table 8-12). -/
def fld.switchEpoch.SWITCH_EPOCH : Fld := ⟨.switchEpoch, 0, 32⟩
/-- CANVAS_CTRL.EN (Table 5-7). -/
def fld.canvasCtrl.EN : Fld := ⟨.canvasCtrl, 0, 1⟩
/-- CANVAS_CTRL.FC (Table 5-7). -/
def fld.canvasCtrl.FC : Fld := ⟨.canvasCtrl, 1, 2⟩
/-- CANVAS_CTRL.DEPTH (Table 5-7). -/
def fld.canvasCtrl.DEPTH : Fld := ⟨.canvasCtrl, 3, 4⟩
/-- CANVAS_CTRL.SPAN (Table 5-7). -/
def fld.canvasCtrl.SPAN : Fld := ⟨.canvasCtrl, 7, 1⟩
/-- CANVAS_CTRL.MATE (Table 5-7). -/
def fld.canvasCtrl.MATE : Fld := ⟨.canvasCtrl, 8, 6⟩
/-- CANVAS_CTRL.MISS_MAX (Table 5-7). -/
def fld.canvasCtrl.MISS_MAX : Fld := ⟨.canvasCtrl, 14, 2⟩
/-- CANVAS_CTRL.CTX (Table 5-7). -/
def fld.canvasCtrl.CTX : Fld := ⟨.canvasCtrl, 16, 7⟩
/-- CANVAS_CTRL.REST_EN (Table 5-7). -/
def fld.canvasCtrl.REST_EN : Fld := ⟨.canvasCtrl, 23, 1⟩
/-- WIDTH.WIDTH (Table 5-8). -/
def fld.canvasWidth.WIDTH : Fld := ⟨.canvasWidth, 0, 17⟩
/-- HEIGHT.HEIGHT (Table 5-8). -/
def fld.canvasHeight.HEIGHT : Fld := ⟨.canvasHeight, 0, 16⟩
/-- TILE.TW (Table 5-8). -/
def fld.canvasTile.TW : Fld := ⟨.canvasTile, 0, 9⟩
/-- TILE.TH (Table 5-8). -/
def fld.canvasTile.TH : Fld := ⟨.canvasTile, 16, 8⟩
/-- VAT_BASE.VAT_BASE (Table 5-8). -/
def fld.vatBase.VAT_BASE : Fld := ⟨.vatBase, 0, 32⟩
/-- VAT_SIZE.DEPTH_MAX (Table 5-8). -/
def fld.vatSize.DEPTH_MAX : Fld := ⟨.vatSize, 0, 4⟩
/-- VAT_SIZE.STRIDE (Table 5-8). -/
def fld.vatSize.STRIDE : Fld := ⟨.vatSize, 8, 24⟩
/-- COMMIT_LEAD.COMMIT_LEAD (Table 5-8). -/
def fld.commitLead.COMMIT_LEAD : Fld := ⟨.commitLead, 0, 26⟩
/-- LATCH_GUARD.LATCH_GUARD (Table 5-8). -/
def fld.latchGuard.LATCH_GUARD : Fld := ⟨.latchGuard, 0, 21⟩
/-- REFRESH.REFRESH_N (Table 5-8). -/
def fld.refresh.REFRESH_N : Fld := ⟨.refresh, 0, 8⟩
/-- REFRESH.QUIET_N (Table 5-8). -/
def fld.refresh.QUIET_N : Fld := ⟨.refresh, 16, 8⟩
/-- VAT_CMD.SQUASH (Table 5-9). -/
def fld.vatCmd.SQUASH : Fld := ⟨.vatCmd, 0, 1⟩
/-- VAT_CMD.PIN (Table 5-9). -/
def fld.vatCmd.PIN : Fld := ⟨.vatCmd, 1, 1⟩
/-- VAT_CMD.UNPIN (Table 5-9). -/
def fld.vatCmd.UNPIN : Fld := ⟨.vatCmd, 2, 1⟩
/-- VAT_CMD.WAKE (Table 5-9). -/
def fld.vatCmd.WAKE : Fld := ⟨.vatCmd, 3, 1⟩
/-- TX_EPOCH.TX_EPOCH (Table 5-10). -/
def fld.txEpoch.TX_EPOCH : Fld := ⟨.txEpoch, 0, 32⟩
/-- RM_EPOCH.RM_EPOCH (Table 5-10). -/
def fld.rmEpoch.RM_EPOCH : Fld := ⟨.rmEpoch, 0, 32⟩
/-- WP_EPOCH.WP_EPOCH (Table 5-10). -/
def fld.wpEpoch.WP_EPOCH : Fld := ⟨.wpEpoch, 0, 32⟩
/-- VAT_SLOTS.TX_SLOT (Table 5-10). -/
def fld.vatSlots.TX_SLOT : Fld := ⟨.vatSlots, 0, 3⟩
/-- VAT_SLOTS.RM_SLOT (Table 5-10). -/
def fld.vatSlots.RM_SLOT : Fld := ⟨.vatSlots, 4, 3⟩
/-- VAT_SLOTS.WP_SLOT (Table 5-10). -/
def fld.vatSlots.WP_SLOT : Fld := ⟨.vatSlots, 8, 3⟩
/-- VAT_SLOTS.PIN_SLOT (Table 5-10). -/
def fld.vatSlots.PIN_SLOT : Fld := ⟨.vatSlots, 12, 3⟩
/-- VAT_SLOTS.PINNED (Table 5-10). -/
def fld.vatSlots.PINNED : Fld := ⟨.vatSlots, 15, 1⟩
/-- VAT_SLOTS.TXV (Table 5-10). -/
def fld.vatSlots.TXV : Fld := ⟨.vatSlots, 16, 1⟩
/-- CANVAS_STATUS.RUN (Table 5-10). -/
def fld.canvasStatus.RUN : Fld := ⟨.canvasStatus, 0, 1⟩
/-- CANVAS_STATUS.RESTING (Table 5-10). -/
def fld.canvasStatus.RESTING : Fld := ⟨.canvasStatus, 1, 1⟩
/-- CANVAS_STATUS.STALL (Table 5-10). -/
def fld.canvasStatus.STALL : Fld := ⟨.canvasStatus, 2, 1⟩
/-- CANVAS_STATUS.SHADOW (Table 5-10). -/
def fld.canvasStatus.SHADOW : Fld := ⟨.canvasStatus, 3, 1⟩
/-- CANVAS_STATUS.CFG_ERR (Table 5-10). -/
def fld.canvasStatus.CFG_ERR : Fld := ⟨.canvasStatus, 4, 1⟩
/-- CANVAS_STATUS.SPAN_OK (Table 5-10). -/
def fld.canvasStatus.SPAN_OK : Fld := ⟨.canvasStatus, 5, 1⟩
/-- CANVAS_STATUS.MISSRUN (Table 5-10). -/
def fld.canvasStatus.MISSRUN : Fld := ⟨.canvasStatus, 6, 2⟩
/-- CANVAS_EVENT.CANVAS_EVENT (Table 5-10). -/
def fld.canvasEvent.CANVAS_EVENT : Fld := ⟨.canvasEvent, 0, 6⟩
/-- CANVAS_DIRTY.DIRTY (Table 5-10). -/
def fld.canvasDirty.DIRTY : Fld := ⟨.canvasDirty, 0, 17⟩
/-- CANVAS_FILLED.FILLED (Table 5-10). -/
def fld.canvasFilled.FILLED : Fld := ⟨.canvasFilled, 0, 17⟩
/-- CANVAS_SLIP_NS.SLIP_NS (Table 5-10). -/
def fld.canvasSlipNs.SLIP_NS : Fld := ⟨.canvasSlipNs, 0, 32⟩
/-- CANVAS_COMMITS.COMMITS (Table 5-10). -/
def fld.canvasCommits.COMMITS : Fld := ⟨.canvasCommits, 0, 32⟩
/-- CANVAS_EVT_EN.EVT_EN_COMMIT (Table 5-10). -/
def fld.canvasEvtEn.EVT_EN_COMMIT : Fld := ⟨.canvasEvtEn, 0, 1⟩
/-- INPUT_LOG_USED.USED (Table 5-11). -/
def fld.inputLogUsed.USED : Fld := ⟨.inputLogUsed, 0, 18⟩
/-- INPUT_LOG_STATUS.FULL (Table 5-11). -/
def fld.inputLogStatus.FULL : Fld := ⟨.inputLogStatus, 0, 1⟩
/-- ENV_OFFSET.ENV_OFFSET (Table 5-11). -/
def fld.envOffset.ENV_OFFSET : Fld := ⟨.envOffset, 0, 32⟩
/-- INPUT_LOG_MAX.MAX_USED (Table 5-11). -/
def fld.inputLogMax.MAX_USED : Fld := ⟨.inputLogMax, 0, 18⟩
/-- GLZ_BUSY.BUSY (Table 6-10). -/
def fld.glzBusy.BUSY : Fld := ⟨.glzBusy, 0, 8⟩
/-- GLZ_BANK_USE.BANK_USE (Table 6-10). -/
def fld.glzBankUse.BANK_USE : Fld := ⟨.glzBankUse, 0, 2⟩
/-- MORD_ADDR.MORD_ADDR (Table 6-10). -/
def fld.mordAddr.MORD_ADDR : Fld := ⟨.mordAddr, 0, 21⟩
/-- MORD_DATA.MORD_DATA (Table 6-10). -/
def fld.mordData.MORD_DATA : Fld := ⟨.mordData, 0, 32⟩
/-- MORD_STATUS.WR_REFUSED (Table 6-10). -/
def fld.mordStatus.WR_REFUSED : Fld := ⟨.mordStatus, 0, 1⟩
/-- GLZ_CFG.GAIN_EN (Table 6-11). -/
def fld.glzCfg.GAIN_EN : Fld := ⟨.glzCfg, 0, 1⟩
/-- GLZ_CFG.BANK (Table 6-11). -/
def fld.glzCfg.BANK : Fld := ⟨.glzCfg, 1, 1⟩
/-- GAIN_BASE.GAIN_BASE (Table 6-11). -/
def fld.gainBase.GAIN_BASE : Fld := ⟨.gainBase, 0, 32⟩
/-- GAIN_STRIDE.GAIN_STRIDE (Table 6-11). -/
def fld.gainStride.GAIN_STRIDE : Fld := ⟨.gainStride, 0, 24⟩
/-- GLZ_EVENT.GLZ_EVENT (Table 6-11). -/
def fld.glzEvent.GLZ_EVENT : Fld := ⟨.glzEvent, 0, 3⟩
/-- GLZ_LATE_LINES.LATE_LINES (Table 6-11). -/
def fld.glzLateLines.LATE_LINES : Fld := ⟨.glzLateLines, 0, 24⟩
/-- GLZ_ABANDONED.ABANDONED (Table 6-11). -/
def fld.glzAbandoned.ABANDONED : Fld := ⟨.glzAbandoned, 0, 24⟩
/-- PLANE_CTRL.EN (Table 6-12). -/
def fld.planeCtrl.EN : Fld := ⟨.planeCtrl, 0, 1⟩
/-- PLANE_CTRL.STREAM (Table 6-12). -/
def fld.planeCtrl.STREAM : Fld := ⟨.planeCtrl, 1, 4⟩
/-- PLANE_CTRL.MODE (Table 6-12). -/
def fld.planeCtrl.MODE : Fld := ⟨.planeCtrl, 5, 3⟩
/-- PLANE_CTRL.PLACE (Table 6-12). -/
def fld.planeCtrl.PLACE : Fld := ⟨.planeCtrl, 8, 1⟩
/-- PLANE_CTRL.SCX (Table 6-12). -/
def fld.planeCtrl.SCX : Fld := ⟨.planeCtrl, 9, 2⟩
/-- PLANE_CTRL.SCY (Table 6-12). -/
def fld.planeCtrl.SCY : Fld := ⟨.planeCtrl, 11, 2⟩
/-- PLANE_CTRL.OPACITY (Table 6-12). -/
def fld.planeCtrl.OPACITY : Fld := ⟨.planeCtrl, 16, 16⟩
/-- PLANE_SRC.SRC_X (Table 6-13). -/
def fld.planeSrc.SRC_X : Fld := ⟨.planeSrc, 0, 16⟩
/-- PLANE_SRC.SRC_Y (Table 6-13). -/
def fld.planeSrc.SRC_Y : Fld := ⟨.planeSrc, 16, 16⟩
/-- PLANE_SIZE.SRC_W (Table 6-13). -/
def fld.planeSize.SRC_W : Fld := ⟨.planeSize, 0, 16⟩
/-- PLANE_SIZE.SRC_H (Table 6-13). -/
def fld.planeSize.SRC_H : Fld := ⟨.planeSize, 16, 16⟩
/-- PLANE_DX.DST_X (Table 6-13). -/
def fld.planeDx.DST_X : Fld := ⟨.planeDx, 0, 17⟩
/-- PLANE_DY.DST_Y (Table 6-13). -/
def fld.planeDy.DST_Y : Fld := ⟨.planeDy, 0, 16⟩
/-- PLANE_ADV.PLANE_ADV (Table 6-13). -/
def fld.planeAdv.PLANE_ADV : Fld := ⟨.planeAdv, 0, 19⟩
/-- PLANE_CUT.PLANE_CUT (Table 6-13). -/
def fld.planeCut.PLANE_CUT : Fld := ⟨.planeCut, 0, 20⟩
/-- RING_BASE.RING_BASE (Table 6-14). -/
def fld.vringBase.RING_BASE : Fld := ⟨.vringBase, 0, 32⟩
/-- LINE_STRIDE.LINE_STRIDE (Table 6-14). -/
def fld.lineStride.LINE_STRIDE : Fld := ⟨.lineStride, 0, 20⟩
/-- VSIZE.VWIDTH (Table 6-14). -/
def fld.vsize.VWIDTH : Fld := ⟨.vsize, 0, 16⟩
/-- VSIZE.VHEIGHT (Table 6-14). -/
def fld.vsize.VHEIGHT : Fld := ⟨.vsize, 16, 16⟩
/-- RING_FMT.SAMPLING (Table 6-14). -/
def fld.ringFmt.SAMPLING : Fld := ⟨.ringFmt, 0, 2⟩
/-- RING_FMT.DEPTH (Table 6-14). -/
def fld.ringFmt.DEPTH : Fld := ⟨.ringFmt, 4, 2⟩
/-- RING_FMT.COLORIMETRY (Table 6-14). -/
def fld.ringFmt.COLORIMETRY : Fld := ⟨.ringFmt, 8, 1⟩
/-- RING_FMT.RANGE (Table 6-14). -/
def fld.ringFmt.RANGE : Fld := ⟨.ringFmt, 9, 1⟩
/-- FRAME_NS.FRAME_NS (Table 6-14). -/
def fld.frameNs.FRAME_NS : Fld := ⟨.frameNs, 0, 26⟩
/-- EP_CTRL.EN (Table 7-14). -/
def fld.epCtrl.EN : Fld := ⟨.epCtrl, 0, 1⟩
/-- EP_CTRL.UDP_PORT (Table 7-14). -/
def fld.epCtrl.UDP_PORT : Fld := ⟨.epCtrl, 16, 16⟩
/-- EP_HOLD.HOLD_MS (Table 7-14). -/
def fld.epHold.HOLD_MS : Fld := ⟨.epHold, 0, 16⟩
/-- EP_HOLD.POLICY (Table 7-14). -/
def fld.epHold.POLICY : Fld := ⟨.epHold, 16, 1⟩
/-- EP_TIMING.STAT_N (Table 7-14). -/
def fld.epTiming.STAT_N : Fld := ⟨.epTiming, 0, 8⟩
/-- EP_TIMING.LOST_N (Table 7-14). -/
def fld.epTiming.LOST_N : Fld := ⟨.epTiming, 8, 8⟩
/-- EP_TIMING.SACN_KEEP (Table 7-14). -/
def fld.epTiming.SACN_KEEP : Fld := ⟨.epTiming, 16, 8⟩
/-- DRV_BASE.DRV_BASE (Table 7-14). -/
def fld.drvBase.DRV_BASE : Fld := ⟨.drvBase, 0, 32⟩
/-- STBL_BASE.STBL_BASE (Table 7-14). -/
def fld.stblBase.STBL_BASE : Fld := ⟨.stblBase, 0, 32⟩
/-- MMAC_LO.MMAC_LO (Table 7-14). -/
def fld.mmacLo.MMAC_LO : Fld := ⟨.mmacLo, 0, 32⟩
/-- MMAC_HI.MMAC_HI (Table 7-14). -/
def fld.mmacHi.MMAC_HI : Fld := ⟨.mmacHi, 0, 16⟩
/-- MIP4.MIP4 (Table 7-14). -/
def fld.mip4.MIP4 : Fld := ⟨.mip4, 0, 32⟩
/-- MIP6_0-3.MIP6 (Table 7-14). -/
def fld.mip6.MIP6 : Fld := ⟨.mip6, 0, 32⟩
/-- EP_FLT_CLR.FLT_CLR (Table 7-14). -/
def fld.epFltClr.FLT_CLR : Fld := ⟨.epFltClr, 0, 17⟩
/-- EP_ERR.ERR_ENTRY (Table 7-14). -/
def fld.epErr.ERR_ENTRY : Fld := ⟨.epErr, 0, 17⟩
/-- EP_ERR.ERR_REASON (Table 7-14). -/
def fld.epErr.ERR_REASON : Fld := ⟨.epErr, 20, 4⟩
/-- EP_EVENT.EP_EVENT (Table 7-14). -/
def fld.epEvent.EP_EVENT : Fld := ⟨.epEvent, 0, 9⟩
/-- EP_DRV_KICK.DRV_KICK (Table 7-14). -/
def fld.epDrvKick.DRV_KICK : Fld := ⟨.epDrvKick, 0, 13⟩
/-- SACN_CID0-3.SACN_CID (Table 7-14). -/
def fld.sacnCid.SACN_CID : Fld := ⟨.sacnCid, 0, 32⟩
/-- SACN_NAME0-7.SACN_NAME (Table 7-14). -/
def fld.sacnName.SACN_NAME : Fld := ⟨.sacnName, 0, 32⟩
/-- EP_BLACKOUT.BLACKOUT_ON (Table 7-14). -/
def fld.epBlackout.BLACKOUT_ON : Fld := ⟨.epBlackout, 0, 1⟩
/-- EP_CANVAS.PROOF_INT (Table 7-15). -/
def fld.epCanvas.PROOF_INT : Fld := ⟨.epCanvas, 0, 8⟩
/-- EP_CANVAS.LATCH_VID (Table 7-15). -/
def fld.epCanvas.LATCH_VID : Fld := ⟨.epCanvas, 8, 12⟩
/-- EP_CANVAS.LATCH_PCP (Table 7-15). -/
def fld.epCanvas.LATCH_PCP : Fld := ⟨.epCanvas, 20, 3⟩
/-- EP_CANVAS.LATCH_TAG (Table 7-15). -/
def fld.epCanvas.LATCH_TAG : Fld := ⟨.epCanvas, 23, 1⟩
/-- SACN_SYNC.SACN_SYNC (Table 7-15). -/
def fld.sacnSync.SACN_SYNC : Fld := ⟨.sacnSync, 0, 16⟩
/-- SACN_SYNC_ADV.SACN_SYNC_ADV (Table 7-15). -/
def fld.sacnSyncAdv.SACN_SYNC_ADV : Fld := ⟨.sacnSyncAdv, 0, 21⟩
/-- EP_PORTS.PORTS (Table 7-15). -/
def fld.epPorts.PORTS : Fld := ⟨.epPorts, 0, 32⟩
/-- VIEW_BASE.VIEW_BASE (Table 7-15). -/
def fld.viewBase.VIEW_BASE : Fld := ⟨.viewBase, 0, 17⟩
/-- VIEW_N.VIEW_N (Table 7-15). -/
def fld.viewN.VIEW_N : Fld := ⟨.viewN, 0, 18⟩
/-- DMX_CANVAS_p.DMX_CANVAS (Table 7-15). -/
def fld.dmxCanvas.DMX_CANVAS : Fld := ⟨.dmxCanvas, 0, 6⟩
/-- DMX_CANVAS_p.DMX_EN (Table 7-15). -/
def fld.dmxCanvas.DMX_EN : Fld := ⟨.dmxCanvas, 7, 1⟩
/-- DMX_BASE_p.DMX_BASE (Table 7-15). -/
def fld.dmxBase.DMX_BASE : Fld := ⟨.dmxBase, 0, 32⟩
/-- KG_g.CTX (Table 7-16). -/
def fld.kg.CTX : Fld := ⟨.kg, 0, 7⟩
/-- KG_g.LOSTKILL (Table 7-16). -/
def fld.kg.LOSTKILL : Fld := ⟨.kg, 7, 1⟩
/-- KG_g.KILLED (Table 7-16). -/
def fld.kg.KILLED : Fld := ⟨.kg, 8, 1⟩
/-- KG_g.CLEAR (Table 7-16). -/
def fld.kg.CLEAR : Fld := ⟨.kg, 9, 1⟩
/-- KG_g.FORCE (Table 7-16). -/
def fld.kg.FORCE : Fld := ⟨.kg, 10, 1⟩
/-- PROF_P0-7.Tk (Table 7-16). -/
def fld.profP.Tk : Fld := ⟨.profP, 0, 8⟩
/-- PROF_P0-7.Mk (Table 7-16). -/
def fld.profP.Mk : Fld := ⟨.profP, 16, 16⟩
/-- PROF_LIM.SLEW (Table 7-16). -/
def fld.profLim.SLEW : Fld := ⟨.profLim, 0, 16⟩
/-- PROF_LIM.CUTOFF (Table 7-16). -/
def fld.profLim.CUTOFF : Fld := ⟨.profLim, 16, 8⟩
/-- PROF_LIM.HYST (Table 7-16). -/
def fld.profLim.HYST : Fld := ⟨.profLim, 24, 8⟩
/-- UNIV_CTRL.UNIV (Table 7-17). -/
def fld.univCtrl.UNIV : Fld := ⟨.univCtrl, 0, 16⟩
/-- UNIV_CTRL.CANVAS (Table 7-17). -/
def fld.univCtrl.CANVAS : Fld := ⟨.univCtrl, 16, 6⟩
/-- UNIV_CTRL.EN (Table 7-17). -/
def fld.univCtrl.EN : Fld := ⟨.univCtrl, 22, 1⟩
/-- UNIV_CTRL.V6 (Table 7-17). -/
def fld.univCtrl.V6 : Fld := ⟨.univCtrl, 23, 1⟩
/-- UNIV_CTRL.PORT (Table 7-17). -/
def fld.univCtrl.PORT : Fld := ⟨.univCtrl, 24, 4⟩
/-- UNIV_PRIO.PRIO (Table 7-17). -/
def fld.univPrio.PRIO : Fld := ⟨.univPrio, 0, 8⟩
/-- UNIV_PRIO.VID (Table 7-17). -/
def fld.univPrio.VID : Fld := ⟨.univPrio, 8, 12⟩
/-- UNIV_PRIO.PCP (Table 7-17). -/
def fld.univPrio.PCP : Fld := ⟨.univPrio, 20, 3⟩
/-- UNIV_PRIO.TAG (Table 7-17). -/
def fld.univPrio.TAG : Fld := ⟨.univPrio, 23, 1⟩
/-- UNIV_BASE.BASE (Table 7-17). -/
def fld.univBase.BASE : Fld := ⟨.univBase, 0, 32⟩
/-- UNIV_SEQ.SEQ (Table 7-17). -/
def fld.univSeq.SEQ : Fld := ⟨.univSeq, 0, 8⟩
/-- MAC_CTRL.EN (Table 9-6). -/
def fld.macCtrl.EN : Fld := ⟨.macCtrl, 0, 1⟩
/-- MAC_CTRL.RATE (Table 9-6). -/
def fld.macCtrl.RATE : Fld := ⟨.macCtrl, 1, 1⟩
/-- MAC_CTRL.PROMISC (Table 9-6). -/
def fld.macCtrl.PROMISC : Fld := ⟨.macCtrl, 2, 1⟩
/-- MAC_CTRL.BAD_DELIVER (Table 9-6). -/
def fld.macCtrl.BAD_DELIVER : Fld := ⟨.macCtrl, 3, 1⟩
/-- MAC_CTRL.PAUSE_MODE (Table 9-6). -/
def fld.macCtrl.PAUSE_MODE : Fld := ⟨.macCtrl, 4, 2⟩
/-- MAC_CTRL.LPI_EN (Table 9-6). -/
def fld.macCtrl.LPI_EN : Fld := ⟨.macCtrl, 6, 1⟩
/-- MAC_CTRL.MAX_LEN (Table 9-6). -/
def fld.macCtrl.MAX_LEN : Fld := ⟨.macCtrl, 16, 14⟩
/-- MAC_LO.MAC_LO (Table 9-6). -/
def fld.macLo.MAC_LO : Fld := ⟨.macLo, 0, 32⟩
/-- MAC_HI.MAC_HI (Table 9-6). -/
def fld.macHi.MAC_HI : Fld := ⟨.macHi, 0, 16⟩
/-- PORT_STATUS.LINK (Table 9-6). -/
def fld.portStatus.LINK : Fld := ⟨.portStatus, 0, 1⟩
/-- PORT_STATUS.LPI_TX (Table 9-6). -/
def fld.portStatus.LPI_TX : Fld := ⟨.portStatus, 1, 1⟩
/-- PORT_STATUS.LPI_RX (Table 9-6). -/
def fld.portStatus.LPI_RX : Fld := ⟨.portStatus, 2, 1⟩
/-- PORT_STATUS.PAUSED (Table 9-6). -/
def fld.portStatus.PAUSED : Fld := ⟨.portStatus, 3, 8⟩
/-- PORT_STATUS.WD (Table 9-6). -/
def fld.portStatus.WD : Fld := ⟨.portStatus, 11, 8⟩
/-- PORT_EVENT.PORT_EVENT (Table 9-6). -/
def fld.portEvent.PORT_EVENT : Fld := ⟨.portEvent, 0, 6⟩
/-- PAUSE_CFG.PAUSE_WD (Table 9-6). -/
def fld.pauseCfg.PAUSE_WD : Fld := ⟨.pauseCfg, 0, 16⟩
/-- PAUSE_CFG.PAUSE_REC (Table 9-6). -/
def fld.pauseCfg.PAUSE_REC : Fld := ⟨.pauseCfg, 16, 16⟩
/-- EEE_CFG.TW_SYS_TX (Table 9-6). -/
def fld.eeeCfg.TW_SYS_TX : Fld := ⟨.eeeCfg, 0, 16⟩
/-- EEE_CFG.EEE_OK (Table 9-6). -/
def fld.eeeCfg.EEE_OK : Fld := ⟨.eeeCfg, 16, 1⟩
/-- LPI_CFG.LPI_IDLE (Table 9-6). -/
def fld.lpiCfg.LPI_IDLE : Fld := ⟨.lpiCfg, 0, 16⟩
/-- LPI_CFG.TW_MIN (Table 9-6). -/
def fld.lpiCfg.TW_MIN : Fld := ⟨.lpiCfg, 16, 16⟩
/-- GATE_CTRL.GATE_EN (Table 9-6). -/
def fld.gateCtrl.GATE_EN : Fld := ⟨.gateCtrl, 0, 1⟩
/-- GATE_CTRL.GATE_FC (Table 9-6). -/
def fld.gateCtrl.GATE_FC : Fld := ⟨.gateCtrl, 1, 2⟩
/-- GATE_CTRL.SWAP (Table 9-6). -/
def fld.gateCtrl.SWAP : Fld := ⟨.gateCtrl, 3, 1⟩
/-- GATE_CTRL.BANK (Table 9-6). -/
def fld.gateCtrl.BANK : Fld := ⟨.gateCtrl, 4, 1⟩
/-- GATE_CTRL.LEN (Table 9-6). -/
def fld.gateCtrl.LEN : Fld := ⟨.gateCtrl, 8, 9⟩
/-- GATE_OFS.GATE_OFS (Table 9-6). -/
def fld.gateOfs.GATE_OFS : Fld := ⟨.gateOfs, 0, 32⟩
/-- RX_DEF.DEF_RING (Table 9-6). -/
def fld.rxDef.DEF_RING : Fld := ⟨.rxDef, 0, 6⟩
/-- RX_DEF.DEF_EN (Table 9-6). -/
def fld.rxDef.DEF_EN : Fld := ⟨.rxDef, 6, 1⟩
/-- RX_DEF.SVC_RING (Table 9-6). -/
def fld.rxDef.SVC_RING : Fld := ⟨.rxDef, 8, 6⟩
/-- RX_DEF.SVC_EN (Table 9-6). -/
def fld.rxDef.SVC_EN : Fld := ⟨.rxDef, 14, 1⟩
/-- GATE_MASK_i.MASK (Table 9-7). -/
def fld.gateMask.MASK : Fld := ⟨.gateMask, 0, 8⟩
/-- GATE_DUR_i.DURATION (Table 9-7). -/
def fld.gateDur.DURATION : Fld := ⟨.gateDur, 0, 32⟩
/-- FLOW_CTRL.EN (Table 9-7). -/
def fld.flowCtrl.EN : Fld := ⟨.flowCtrl, 0, 1⟩
/-- FLOW_CTRL.KIND (Table 9-7). -/
def fld.flowCtrl.KIND : Fld := ⟨.flowCtrl, 1, 3⟩
/-- FLOW_CTRL.TARGET (Table 9-7). -/
def fld.flowCtrl.TARGET : Fld := ⟨.flowCtrl, 4, 6⟩
/-- FLOW_CTRL.IPV6 (Table 9-7). -/
def fld.flowCtrl.IPV6 : Fld := ⟨.flowCtrl, 10, 1⟩
/-- FLOW_CTRL.VMATCH (Table 9-7). -/
def fld.flowCtrl.VMATCH : Fld := ⟨.flowCtrl, 11, 1⟩
/-- FLOW_CTRL.CFG_ERR (Table 9-7). -/
def fld.flowCtrl.CFG_ERR : Fld := ⟨.flowCtrl, 12, 1⟩
/-- FLOW_CTRL.UDP_PORT (Table 9-7). -/
def fld.flowCtrl.UDP_PORT : Fld := ⟨.flowCtrl, 16, 16⟩
/-- FLOW_IP0.DST_IP (Table 9-7). -/
def fld.flowIp0.DST_IP : Fld := ⟨.flowIp0, 0, 32⟩
/-- FLOW_IP1.DST_IP (Table 9-7). -/
def fld.flowIp1.DST_IP : Fld := ⟨.flowIp1, 0, 32⟩
/-- FLOW_IP2.DST_IP (Table 9-7). -/
def fld.flowIp2.DST_IP : Fld := ⟨.flowIp2, 0, 32⟩
/-- FLOW_IP3.DST_IP (Table 9-7). -/
def fld.flowIp3.DST_IP : Fld := ⟨.flowIp3, 0, 32⟩
/-- FLOW_VID.VID (Table 9-7). -/
def fld.flowVid.VID : Fld := ⟨.flowVid, 0, 12⟩
/-- T1S_CTRL.EN (Table 9-8). -/
def fld.t1sCtrl.EN : Fld := ⟨.t1sCtrl, 0, 1⟩
/-- T1S_CTRL.PLCA_EN (Table 9-8). -/
def fld.t1sCtrl.PLCA_EN : Fld := ⟨.t1sCtrl, 1, 1⟩
/-- T1S_CTRL.NODE_ID (Table 9-8). -/
def fld.t1sCtrl.NODE_ID : Fld := ⟨.t1sCtrl, 8, 8⟩
/-- T1S_CTRL.NODE_CNT (Table 9-8). -/
def fld.t1sCtrl.NODE_CNT : Fld := ⟨.t1sCtrl, 16, 8⟩
/-- PLCA_TMR.TO_TMR (Table 9-8). -/
def fld.plcaTmr.TO_TMR : Fld := ⟨.plcaTmr, 0, 8⟩
/-- PLCA_TMR.MAX_BC (Table 9-8). -/
def fld.plcaTmr.MAX_BC : Fld := ⟨.plcaTmr, 8, 8⟩
/-- PLCA_TMR.BURST_TMR (Table 9-8). -/
def fld.plcaTmr.BURST_TMR : Fld := ⟨.plcaTmr, 16, 8⟩
/-- T1S_STATUS.PLCA (Table 9-8). -/
def fld.t1sStatus.PLCA : Fld := ⟨.t1sStatus, 0, 1⟩
/-- T1S_STATUS.EXCESS (Table 9-8). -/
def fld.t1sStatus.EXCESS : Fld := ⟨.t1sStatus, 1, 1⟩
/-- T1S_MAC_LO.MAC_LO (Table 9-8). -/
def fld.t1sMacLo.MAC_LO : Fld := ⟨.t1sMacLo, 0, 32⟩
/-- T1S_MAC_HI.MAC_HI (Table 9-8). -/
def fld.t1sMacHi.MAC_HI : Fld := ⟨.t1sMacHi, 0, 16⟩
/-- AUD_s.AUD_EN (Table 9-9). -/
def fld.aud.AUD_EN : Fld := ⟨.aud, 0, 1⟩
/-- AUD_s.AUD_FMT (Table 9-9). -/
def fld.aud.AUD_FMT : Fld := ⟨.aud, 1, 1⟩
/-- AUD_s.AUD_NCH (Table 9-9). -/
def fld.aud.AUD_NCH : Fld := ⟨.aud, 2, 7⟩
/-- ENV_MAP_c.ENV_EN (Table 9-9). -/
def fld.envMap.ENV_EN : Fld := ⟨.envMap, 0, 1⟩
/-- ENV_MAP_c.STREAM (Table 9-9). -/
def fld.envMap.STREAM : Fld := ⟨.envMap, 1, 4⟩
/-- ENV_MAP_c.CHAN (Table 9-9). -/
def fld.envMap.CHAN : Fld := ⟨.envMap, 5, 6⟩
/-- TC_n.TC_EN (Table 9-9). -/
def fld.tcReg.TC_EN : Fld := ⟨.tcReg, 0, 1⟩
/-- TC_n.VALID (Table 9-9). -/
def fld.tcReg.VALID : Fld := ⟨.tcReg, 1, 1⟩
/-- STRM_STATUS_s.STRM_STATUS (Table 9-9). -/
def fld.strmStatus.STRM_STATUS : Fld := ⟨.strmStatus, 0, 3⟩
/-- SUB_CTRL_u.UNIV (Table 9-10). -/
def fld.subCtrl.UNIV : Fld := ⟨.subCtrl, 0, 16⟩
/-- SUB_CTRL_u.EN (Table 9-10). -/
def fld.subCtrl.EN : Fld := ⟨.subCtrl, 16, 1⟩
/-- SUB_CTRL_u.LTP (Table 9-10). -/
def fld.subCtrl.LTP : Fld := ⟨.subCtrl, 17, 1⟩
/-- SUB_CTRL_u.CTX (Table 9-10). -/
def fld.subCtrl.CTX : Fld := ⟨.subCtrl, 18, 7⟩
/-- SUB_BASE_u.CUE_BASE (Table 9-10). -/
def fld.subBase.CUE_BASE : Fld := ⟨.subBase, 0, 16⟩
/-- DMX_TIMING.BREAK_US (Table 9-11). -/
def fld.dmxTiming.BREAK_US : Fld := ⟨.dmxTiming, 0, 10⟩
/-- DMX_TIMING.MAB_US (Table 9-11). -/
def fld.dmxTiming.MAB_US : Fld := ⟨.dmxTiming, 16, 10⟩
/-- DMX_SLOTS.SLOTS (Table 9-11). -/
def fld.dmxSlots.SLOTS : Fld := ⟨.dmxSlots, 0, 10⟩
/-- RDM_CTRL.GO (Table 9-11). -/
def fld.rdmCtrl.GO : Fld := ⟨.rdmCtrl, 0, 1⟩
/-- RDM_CTRL.DISC (Table 9-11). -/
def fld.rdmCtrl.DISC : Fld := ⟨.rdmCtrl, 1, 1⟩
/-- RDM_CTRL.LEN (Table 9-11). -/
def fld.rdmCtrl.LEN : Fld := ⟨.rdmCtrl, 16, 9⟩
/-- RDM_STATUS.BUSY (Table 9-11). -/
def fld.rdmStatus.BUSY : Fld := ⟨.rdmStatus, 0, 1⟩
/-- RDM_STATUS.DONE (Table 9-11). -/
def fld.rdmStatus.DONE : Fld := ⟨.rdmStatus, 1, 1⟩
/-- RDM_STATUS.TIMEOUT (Table 9-11). -/
def fld.rdmStatus.TIMEOUT : Fld := ⟨.rdmStatus, 2, 1⟩
/-- RDM_STATUS.ERR (Table 9-11). -/
def fld.rdmStatus.ERR : Fld := ⟨.rdmStatus, 3, 1⟩
/-- RDM_STATUS.RX_LEN (Table 9-11). -/
def fld.rdmStatus.RX_LEN : Fld := ⟨.rdmStatus, 16, 9⟩
/-- RDM_TX.RDM_TX (Table 9-11). -/
def fld.rdmTx.RDM_TX : Fld := ⟨.rdmTx, 0, 32⟩
/-- RDM_RX.RDM_RX (Table 9-11). -/
def fld.rdmRx.RDM_RX : Fld := ⟨.rdmRx, 0, 32⟩
/-- TIME_CTRL.EN (Table 8-8). -/
def fld.timeCtrl.EN : Fld := ⟨.timeCtrl, 0, 1⟩
/-- TIME_CTRL.SEL (Table 8-8). -/
def fld.timeCtrl.SEL : Fld := ⟨.timeCtrl, 1, 1⟩
/-- TIME_CTRL.AUTO (Table 8-8). -/
def fld.timeCtrl.AUTO : Fld := ⟨.timeCtrl, 2, 1⟩
/-- TIME_CTRL.STEP_OK (Table 8-8). -/
def fld.timeCtrl.STEP_OK : Fld := ⟨.timeCtrl, 3, 1⟩
/-- TIME_STATUS.ACT (Table 8-8). -/
def fld.timeStatus.ACT : Fld := ⟨.timeStatus, 0, 1⟩
/-- TIME_STATUS.SWITCHING (Table 8-8). -/
def fld.timeStatus.SWITCHING : Fld := ⟨.timeStatus, 1, 1⟩
/-- TIME_STATUS.HOLDOVER (Table 8-8). -/
def fld.timeStatus.HOLDOVER : Fld := ⟨.timeStatus, 2, 1⟩
/-- TIME_STATUS.PENDING (Table 8-8). -/
def fld.timeStatus.PENDING : Fld := ⟨.timeStatus, 3, 1⟩
/-- TIME_STATUS.A_STATE (Table 8-8). -/
def fld.timeStatus.A_STATE : Fld := ⟨.timeStatus, 4, 2⟩
/-- TIME_STATUS.B_STATE (Table 8-8). -/
def fld.timeStatus.B_STATE : Fld := ⟨.timeStatus, 6, 2⟩
/-- TIME_STATUS.STEPPED (Table 8-8). -/
def fld.timeStatus.STEPPED : Fld := ⟨.timeStatus, 8, 1⟩
/-- TIME_STATUS.REF10_OK (Table 8-8). -/
def fld.timeStatus.REF10_OK : Fld := ⟨.timeStatus, 9, 1⟩
/-- TIME_EVENT.TIME_EVENT (Table 8-8). -/
def fld.timeEvent.TIME_EVENT : Fld := ⟨.timeEvent, 0, 9⟩
/-- OT_LO.OT_LO (Table 8-8). -/
def fld.otLo.OT_LO : Fld := ⟨.otLo, 0, 32⟩
/-- OT_HI.OT_HI (Table 8-8). -/
def fld.otHi.OT_HI : Fld := ⟨.otHi, 0, 32⟩
/-- OT_FRAC.OT_FRAC (Table 8-8). -/
def fld.otFrac.OT_FRAC : Fld := ⟨.otFrac, 0, 16⟩
/-- SET_LO.SET_LO (Table 8-8). -/
def fld.setLo.SET_LO : Fld := ⟨.setLo, 0, 32⟩
/-- SET_HI.SET_HI (Table 8-8). -/
def fld.setHi.SET_HI : Fld := ⟨.setHi, 0, 32⟩
/-- SET_GO.SET_GO (Table 8-8). -/
def fld.setGo.SET_GO : Fld := ⟨.setGo, 0, 1⟩
/-- ADJ.ADJ (Table 8-8). -/
def fld.adjReg.ADJ : Fld := ⟨.adjReg, 0, 32⟩
/-- ADJ_FINE.ADJ_FINE (Table 8-8). -/
def fld.adjFine.ADJ_FINE : Fld := ⟨.adjFine, 0, 16⟩
/-- KP.KP (Table 8-8). -/
def fld.kp.KP : Fld := ⟨.kp, 0, 32⟩
/-- KI.KI (Table 8-8). -/
def fld.ki.KI : Fld := ⟨.ki, 0, 32⟩
/-- ADJ_MAX.ADJ_MAX (Table 8-8). -/
def fld.adjMax.ADJ_MAX : Fld := ⟨.adjMax, 0, 32⟩
/-- FSTEP.FSTEP (Table 8-8). -/
def fld.fstep.FSTEP : Fld := ⟨.fstep, 0, 16⟩
/-- SLEW.SLEW (Table 8-8). -/
def fld.slew.SLEW : Fld := ⟨.slew, 0, 17⟩
/-- SETTLE.SETTLE_NS (Table 8-8). -/
def fld.settle.SETTLE_NS : Fld := ⟨.settle, 0, 16⟩
/-- SETTLE.SETTLE_N (Table 8-8). -/
def fld.settle.SETTLE_N : Fld := ⟨.settle, 16, 8⟩
/-- ALARM.ALARM_NS (Table 8-8). -/
def fld.alarm.ALARM_NS : Fld := ⟨.alarm, 0, 24⟩
/-- ALARM.ALARM_N (Table 8-8). -/
def fld.alarm.ALARM_N : Fld := ⟨.alarm, 24, 8⟩
/-- ANN_TO.ANN_TO_MS (Table 8-8). -/
def fld.annTo.ANN_TO_MS : Fld := ⟨.annTo, 0, 16⟩
/-- ANN_TO.DELAY_SHIFT (Table 8-8). -/
def fld.annTo.DELAY_SHIFT : Fld := ⟨.annTo, 16, 4⟩
/-- OUT_DOM.OUT_DOM (Table 8-8). -/
def fld.outDom.OUT_DOM : Fld := ⟨.outDom, 0, 8⟩
/-- MEDIA_DOM.MEDIA_DOM (Table 8-8). -/
def fld.mediaDom.MEDIA_DOM : Fld := ⟨.mediaDom, 0, 32⟩
/-- LATE_c.LATE_NS (Table 8-8). -/
def fld.late.LATE_NS : Fld := ⟨.late, 0, 31⟩
/-- LATE_c.ACT (Table 8-8). -/
def fld.late.ACT : Fld := ⟨.late, 31, 1⟩
/-- PPS_OUT0-1.EN (Table 8-12). -/
def fld.ppsOut.EN : Fld := ⟨.ppsOut, 0, 1⟩
/-- PPS_OUT0-1.SRC (Table 8-12). -/
def fld.ppsOut.SRC : Fld := ⟨.ppsOut, 1, 2⟩
/-- PPS_OUT0-1.WIDTH (Table 8-12). -/
def fld.ppsOut.WIDTH : Fld := ⟨.ppsOut, 12, 20⟩
/-- PPS_OFS0-1.OFS (Table 8-12). -/
def fld.ppsOfs.OFS : Fld := ⟨.ppsOfs, 0, 32⟩
/-- PPS_IN_LO.PPS_IN_LO (Table 8-12). -/
def fld.ppsInLo.PPS_IN_LO : Fld := ⟨.ppsInLo, 0, 32⟩
/-- PPS_IN_HI.PPS_IN_HI (Table 8-12). -/
def fld.ppsInHi.PPS_IN_HI : Fld := ⟨.ppsInHi, 0, 32⟩
/-- PPS_IN_FRAC.PPS_IN_FRAC (Table 8-12). -/
def fld.ppsInFrac.PPS_IN_FRAC : Fld := ⟨.ppsInFrac, 0, 16⟩
/-- PPS_IN_ADJ.PPS_IN_ADJ (Table 8-12). -/
def fld.ppsInAdj.PPS_IN_ADJ : Fld := ⟨.ppsInAdj, 0, 32⟩
/-- REF10_ERR.REF10_ERR (Table 8-12). -/
def fld.ref10Err.REF10_ERR : Fld := ⟨.ref10Err, 0, 32⟩
/-- DOM_CFG.EN (Table 8-9). -/
def fld.domCfg.EN : Fld := ⟨.domCfg, 0, 1⟩
/-- DOM_CFG.MODE (Table 8-9). -/
def fld.domCfg.MODE : Fld := ⟨.domCfg, 1, 1⟩
/-- DOM_CFG.NUM (Table 8-9). -/
def fld.domCfg.NUM : Fld := ⟨.domCfg, 8, 8⟩
/-- OFFSET_NS.OFFSET_NS (Table 8-9). -/
def fld.offsetNs.OFFSET_NS : Fld := ⟨.offsetNs, 0, 32⟩
/-- OFFSET_FRAC.OFFSET_FRAC (Table 8-9). -/
def fld.offsetFrac.OFFSET_FRAC : Fld := ⟨.offsetFrac, 0, 16⟩
/-- DELAY_NS.DELAY_NS (Table 8-9). -/
def fld.delayNs.DELAY_NS : Fld := ⟨.delayNs, 0, 32⟩
/-- RATE.RATE (Table 8-9). -/
def fld.domRate.RATE : Fld := ⟨.domRate, 0, 32⟩
/-- SAMPLES.SAMPLES (Table 8-9). -/
def fld.domSamples.SAMPLES : Fld := ⟨.domSamples, 0, 32⟩
/-- ANN_KICK.ANN_KICK (Table 8-9). -/
def fld.annKick.ANN_KICK : Fld := ⟨.annKick, 0, 1⟩
/-- ASYM.ASYM (Table 8-9). -/
def fld.asym.ASYM : Fld := ⟨.asym, 0, 32⟩
/-- MEAS0-7.MEAS (Table 8-9). -/
def fld.meas.MEAS : Fld := ⟨.meas, 0, 32⟩
/-- MEAS_PUSH.MEAS_PUSH (Table 8-9). -/
def fld.measPush.MEAS_PUSH : Fld := ⟨.measPush, 0, 1⟩
/-- PCFG.UP_A (Table 8-10). -/
def fld.pcfg.UP_A : Fld := ⟨.pcfg, 0, 1⟩
/-- PCFG.UP_B (Table 8-10). -/
def fld.pcfg.UP_B : Fld := ⟨.pcfg, 1, 1⟩
/-- PCFG.MASTER (Table 8-10). -/
def fld.pcfg.MASTER : Fld := ⟨.pcfg, 2, 1⟩
/-- PCFG.PROFILE (Table 8-10). -/
def fld.pcfg.PROFILE : Fld := ⟨.pcfg, 3, 2⟩
/-- PCFG.LOG_SYNC (Table 8-10). -/
def fld.pcfg.LOG_SYNC : Fld := ⟨.pcfg, 8, 4⟩
/-- PCFG.ONE_STEP (Table 8-10). -/
def fld.pcfg.ONE_STEP : Fld := ⟨.pcfg, 12, 1⟩
/-- RX_LAT.RX_LAT (Table 8-10). -/
def fld.rxLat.RX_LAT : Fld := ⟨.rxLat, 0, 24⟩
/-- TX_LAT.TX_LAT (Table 8-10). -/
def fld.txLat.TX_LAT : Fld := ⟨.txLat, 0, 24⟩
/-- TSQ_E0.E0 (Table 8-11). -/
def fld.tsqE0.E0 : Fld := ⟨.tsqE0, 0, 32⟩
/-- TSQ_E1.E1 (Table 8-11). -/
def fld.tsqE1.E1 : Fld := ⟨.tsqE1, 0, 32⟩
/-- TSQ_E2.E2 (Table 8-11). -/
def fld.tsqE2.E2 : Fld := ⟨.tsqE2, 0, 32⟩
/-- TSQ_E3.E3 (Table 8-11). -/
def fld.tsqE3.E3 : Fld := ⟨.tsqE3, 0, 32⟩
/-- TSQ_CTRL.TSQ_LEVEL (Table 8-11). -/
def fld.tsqCtrl.TSQ_LEVEL : Fld := ⟨.tsqCtrl, 0, 7⟩
/-- TSQ_CTRL.FLUSH (Table 8-11). -/
def fld.tsqCtrl.FLUSH : Fld := ⟨.tsqCtrl, 8, 1⟩
/-- TSQ_STATUS.LEVEL (Table 8-11). -/
def fld.tsqStatus.LEVEL : Fld := ⟨.tsqStatus, 0, 7⟩
/-- TSQ_STATUS.LEVEL_HIT (Table 8-11). -/
def fld.tsqStatus.LEVEL_HIT : Fld := ⟨.tsqStatus, 8, 1⟩
/-- TSQ_STATUS.OVF (Table 8-11). -/
def fld.tsqStatus.OVF : Fld := ⟨.tsqStatus, 9, 1⟩
/-- TSQ_OVF_CNT.TSQ_OVF_CNT (Table 8-11). -/
def fld.tsqOvfCnt.TSQ_OVF_CNT : Fld := ⟨.tsqOvfCnt, 0, 32⟩
/-- TWIN_CTRL.EN (Table 11-6). -/
def fld.twinCtrl.EN : Fld := ⟨.twinCtrl, 0, 1⟩
/-- TWIN_CTRL.PRIMARY (Table 11-6). -/
def fld.twinCtrl.PRIMARY : Fld := ⟨.twinCtrl, 1, 1⟩
/-- TWIN_CTRL.LFC (Table 11-6). -/
def fld.twinCtrl.LFC : Fld := ⟨.twinCtrl, 2, 2⟩
/-- TWIN_CTRL.LEASE_N (Table 11-6). -/
def fld.twinCtrl.LEASE_N : Fld := ⟨.twinCtrl, 4, 4⟩
/-- TWIN_CTRL.STALE_TAKE (Table 11-6). -/
def fld.twinCtrl.STALE_TAKE : Fld := ⟨.twinCtrl, 8, 1⟩
/-- TWIN_CTRL.AUTO_RESYNC (Table 11-6). -/
def fld.twinCtrl.AUTO_RESYNC : Fld := ⟨.twinCtrl, 9, 1⟩
/-- TWIN_CTRL.DIGEST_N (Table 11-6). -/
def fld.twinCtrl.DIGEST_N : Fld := ⟨.twinCtrl, 16, 8⟩
/-- TWIN_CTRL.SHADOW_WAIT (Table 11-6). -/
def fld.twinCtrl.SHADOW_WAIT : Fld := ⟨.twinCtrl, 24, 8⟩
/-- TWIN_CMD.RESIGN (Table 11-6). -/
def fld.twinCmd.RESIGN : Fld := ⟨.twinCmd, 0, 1⟩
/-- TWIN_CMD.ASSUME (Table 11-6). -/
def fld.twinCmd.ASSUME : Fld := ⟨.twinCmd, 1, 1⟩
/-- TWIN_CMD.RESYNC (Table 11-6). -/
def fld.twinCmd.RESYNC : Fld := ⟨.twinCmd, 2, 1⟩
/-- TWIN_CMD.LEAVE_SAFE (Table 11-6). -/
def fld.twinCmd.LEAVE_SAFE : Fld := ⟨.twinCmd, 3, 1⟩
/-- TWIN_STATUS.ROLE (Table 11-6). -/
def fld.twinStatus.ROLE : Fld := ⟨.twinStatus, 0, 4⟩
/-- TWIN_STATUS.LEASE (Table 11-6). -/
def fld.twinStatus.LEASE : Fld := ⟨.twinStatus, 4, 1⟩
/-- TWIN_STATUS.LINK0 (Table 11-6). -/
def fld.twinStatus.LINK0 : Fld := ⟨.twinStatus, 5, 1⟩
/-- TWIN_STATUS.LINK1 (Table 11-6). -/
def fld.twinStatus.LINK1 : Fld := ⟨.twinStatus, 6, 1⟩
/-- TWIN_STATUS.WIRE (Table 11-6). -/
def fld.twinStatus.WIRE : Fld := ⟨.twinStatus, 7, 1⟩
/-- TWIN_STATUS.DIVERGED (Table 11-6). -/
def fld.twinStatus.DIVERGED : Fld := ⟨.twinStatus, 8, 1⟩
/-- TWIN_STATUS.STALE (Table 11-6). -/
def fld.twinStatus.STALE : Fld := ⟨.twinStatus, 9, 1⟩
/-- TERM.TERM (Table 11-6). -/
def fld.term.TERM : Fld := ⟨.term, 0, 32⟩
/-- TWIN_EVENT.TWIN_EVENT (Table 11-6). -/
def fld.twinEvent.TWIN_EVENT : Fld := ⟨.twinEvent, 0, 8⟩
/-- JSEQ_TX.JSEQ_TX (Table 11-6). -/
def fld.jseqTx.JSEQ_TX : Fld := ⟨.jseqTx, 0, 32⟩
/-- JSEQ_RX.JSEQ_RX (Table 11-6). -/
def fld.jseqRx.JSEQ_RX : Fld := ⟨.jseqRx, 0, 32⟩
/-- JBUF_BASE.JBUF_BASE (Table 11-6). -/
def fld.jbufBase.JBUF_BASE : Fld := ⟨.jbufBase, 0, 32⟩
/-- JBUF_MIB.JBUF_MIB (Table 11-6). -/
def fld.jbufMib.JBUF_MIB : Fld := ⟨.jbufMib, 0, 16⟩
/-- COPY_DONE.COPY_DONE (Table 11-6). -/
def fld.copyDone.COPY_DONE : Fld := ⟨.copyDone, 0, 32⟩
/-- COPY_TOTAL.COPY_TOTAL (Table 11-6). -/
def fld.copyTotal.COPY_TOTAL : Fld := ⟨.copyTotal, 0, 32⟩
/-- TWIN_OFFSET.TWIN_OFFSET (Table 11-6). -/
def fld.twinOffset.TWIN_OFFSET : Fld := ⟨.twinOffset, 0, 32⟩
/-- TWIN_DELAY.TWIN_DELAY (Table 11-6). -/
def fld.twinDelay.TWIN_DELAY : Fld := ⟨.twinDelay, 0, 32⟩
/-- DIVERGE_CANVAS.DIVERGE_CANVAS (Table 11-6). -/
def fld.divergeCanvas.DIVERGE_CANVAS : Fld := ⟨.divergeCanvas, 0, 6⟩
/-- DIVERGE_EPOCH.DIVERGE_EPOCH (Table 11-6). -/
def fld.divergeEpoch.DIVERGE_EPOCH : Fld := ⟨.divergeEpoch, 0, 32⟩
/-- PWR_MODE.MODE (Table 12-11). -/
def fld.pwrMode.MODE : Fld := ⟨.pwrMode, 0, 3⟩
/-- PWR_MODE.BUSY (Table 12-11). -/
def fld.pwrMode.BUSY : Fld := ⟨.pwrMode, 3, 1⟩
/-- PWR_CMD.MODE_REQ (Table 12-11). -/
def fld.pwrCmd.MODE_REQ : Fld := ⟨.pwrCmd, 0, 3⟩
/-- PWR_CMD.SOFT_RST (Table 12-11). -/
def fld.pwrCmd.SOFT_RST : Fld := ⟨.pwrCmd, 8, 1⟩
/-- PWR_CTRL.HOLD_EN (Table 12-11). -/
def fld.pwrCtrl.HOLD_EN : Fld := ⟨.pwrCtrl, 0, 1⟩
/-- PWR_CTRL.HOLD_CLUSTERS (Table 12-11). -/
def fld.pwrCtrl.HOLD_CLUSTERS : Fld := ⟨.pwrCtrl, 12, 20⟩
/-- HBM_SR_IDLE.HBM_SR_IDLE (Table 12-11). -/
def fld.hbmSrIdle.HBM_SR_IDLE : Fld := ⟨.hbmSrIdle, 0, 16⟩
/-- RAIL_GOOD.RAIL_GOOD (Table 12-11). -/
def fld.railGood.RAIL_GOOD : Fld := ⟨.railGood, 0, 9⟩
/-- RAIL_GOOD.SUPPLY_FAIL (Table 12-11). -/
def fld.railGood.SUPPLY_FAIL : Fld := ⟨.railGood, 16, 9⟩
/-- RST_CAUSE.RST_CAUSE (Table 12-11). -/
def fld.rstCause.RST_CAUSE : Fld := ⟨.rstCause, 0, 7⟩
/-- SAFE_CAUSE.SAFE_CAUSE (Table 12-11). -/
def fld.safeCause.SAFE_CAUSE : Fld := ⟨.safeCause, 0, 3⟩
/-- AVS_CTRL.AVS_EN (Table 12-11). -/
def fld.avsCtrl.AVS_EN : Fld := ⟨.avsCtrl, 0, 1⟩
/-- AVS_CTRL.AVS_ADDR (Table 12-11). -/
def fld.avsCtrl.AVS_ADDR : Fld := ⟨.avsCtrl, 1, 7⟩
/-- AVS_CTRL.VCORE_MV (Table 12-11). -/
def fld.avsCtrl.VCORE_MV : Fld := ⟨.avsCtrl, 16, 10⟩
/-- DIE_TEMP.DIE_TEMP (Table 12-11). -/
def fld.dieTemp.DIE_TEMP : Fld := ⟨.dieTemp, 0, 8⟩
/-- DIE_TEMP.TEMP_WARN (Table 12-11). -/
def fld.dieTemp.TEMP_WARN : Fld := ⟨.dieTemp, 8, 8⟩
/-- CLK_STATUS.CLK_STATUS (Table 12-11). -/
def fld.clkStatus.CLK_STATUS : Fld := ⟨.clkStatus, 0, 5⟩
/-- WAKE_EN.WAKE_EN (Table 12-11). -/
def fld.wakeEn.WAKE_EN : Fld := ⟨.wakeEn, 0, 4⟩
/-- SLOW_LO.SLOW_LO (Table 12-11). -/
def fld.slowLo.SLOW_LO : Fld := ⟨.slowLo, 0, 32⟩
/-- SLOW_HI.SLOW_HI (Table 12-11). -/
def fld.slowHi.SLOW_HI : Fld := ⟨.slowHi, 0, 32⟩
/-- ALARM_LO.ALARM_LO (Table 12-11). -/
def fld.alarmLo.ALARM_LO : Fld := ⟨.alarmLo, 0, 32⟩
/-- ALARM_HI.ALARM_HI (Table 12-11). -/
def fld.alarmHi.ALARM_HI : Fld := ⟨.alarmHi, 0, 32⟩
/-- BOOT_STATUS.SRC (Table 12-11). -/
def fld.bootStatus.SRC : Fld := ⟨.bootStatus, 0, 2⟩
/-- BOOT_STATUS.DONE (Table 12-11). -/
def fld.bootStatus.DONE : Fld := ⟨.bootStatus, 2, 1⟩
/-- BOOT_STATUS.ERR (Table 12-11). -/
def fld.bootStatus.ERR : Fld := ⟨.bootStatus, 4, 4⟩
/-- BOOT_ADDR.BOOT_ADDR (Table 12-11). -/
def fld.bootAddr.BOOT_ADDR : Fld := ⟨.bootAddr, 0, 32⟩
/-- BOOT_LEN.BOOT_LEN (Table 12-11). -/
def fld.bootLen.BOOT_LEN : Fld := ⟨.bootLen, 0, 26⟩
/-- BOOT_GO.BOOT_GO (Table 12-11). -/
def fld.bootGo.BOOT_GO : Fld := ⟨.bootGo, 0, 1⟩
/-- PWR_EVENT.PWR_EVENT (Table 12-11). -/
def fld.pwrEvent.PWR_EVENT : Fld := ⟨.pwrEvent, 0, 4⟩
/-- LC_STATE.LC_STATE (Table 13-10). -/
def fld.lcState.LC_STATE : Fld := ⟨.lcState, 0, 2⟩
/-- BIST_CMD.SHUTDOWN_RUN (Table 13-10). -/
def fld.bistCmd.SHUTDOWN_RUN : Fld := ⟨.bistCmd, 0, 1⟩
/-- BIST_CMD.ROT_EN (Table 13-10). -/
def fld.bistCmd.ROT_EN : Fld := ⟨.bistCmd, 1, 1⟩
/-- BIST_CMD.ROT_SVC (Table 13-10). -/
def fld.bistCmd.ROT_SVC : Fld := ⟨.bistCmd, 2, 1⟩
/-- BIST_CMD.STOP (Table 13-10). -/
def fld.bistCmd.STOP : Fld := ⟨.bistCmd, 3, 1⟩
/-- ROT_CFG.ROT_GAP_MS (Table 13-10). -/
def fld.rotCfg.ROT_GAP_MS : Fld := ⟨.rotCfg, 0, 16⟩
/-- ROT_CFG.ROT_DRAIN_US (Table 13-10). -/
def fld.rotCfg.ROT_DRAIN_US : Fld := ⟨.rotCfg, 16, 16⟩
/-- BIST_STATUS.BUSY (Table 13-10). -/
def fld.bistStatus.BUSY : Fld := ⟨.bistStatus, 0, 1⟩
/-- BIST_STATUS.VERDICT (Table 13-10). -/
def fld.bistStatus.VERDICT : Fld := ⟨.bistStatus, 1, 2⟩
/-- BIST_STATUS.RET_VALID (Table 13-10). -/
def fld.bistStatus.RET_VALID : Fld := ⟨.bistStatus, 3, 1⟩
/-- BIST_STATUS.ROT_ACTIVE (Table 13-10). -/
def fld.bistStatus.ROT_ACTIVE : Fld := ⟨.bistStatus, 4, 1⟩
/-- BIST_STATUS.ROT_CLUSTER (Table 13-10). -/
def fld.bistStatus.ROT_CLUSTER : Fld := ⟨.bistStatus, 5, 5⟩
/-- BIST_EVENT.BIST_EVENT (Table 13-10). -/
def fld.bistEvent.BIST_EVENT : Fld := ⟨.bistEvent, 0, 5⟩
/-- COLLIDE.COLLIDE_ADDR (Table 13-10). -/
def fld.collide.COLLIDE_ADDR : Fld := ⟨.collide, 0, 24⟩
/-- COLLIDE.COLLIDE_FN (Table 13-10). -/
def fld.collide.COLLIDE_FN : Fld := ⟨.collide, 24, 5⟩
/-- OTP_ADDR.OTP_ADDR (Table 13-10). -/
def fld.otpAddr.OTP_ADDR : Fld := ⟨.otpAddr, 0, 10⟩
/-- OTP_DATA.OTP_DATA (Table 13-10). -/
def fld.otpData.OTP_DATA : Fld := ⟨.otpData, 0, 32⟩
/-- OTP_CTRL.OTP_GO (Table 13-10). -/
def fld.otpCtrl.OTP_GO : Fld := ⟨.otpCtrl, 0, 1⟩
/-- OTP_CTRL.OTP_ERR (Table 13-10). -/
def fld.otpCtrl.OTP_ERR : Fld := ⟨.otpCtrl, 1, 1⟩
/-- LC_REQ.LC_REQ (Table 13-10). -/
def fld.lcReq.LC_REQ : Fld := ⟨.lcReq, 0, 32⟩
/-- BIST_SEL0-3.BIST_SEL (Table 13-10). -/
def fld.bistSel.BIST_SEL : Fld := ⟨.bistSel, 0, 32⟩
/-- BIST_RES_b.RESULT (Table 13-10). -/
def fld.bistRes.RESULT : Fld := ⟨.bistRes, 0, 3⟩
/-- BIST_RES_b.FIELD (Table 13-10). -/
def fld.bistRes.FIELD : Fld := ⟨.bistRes, 3, 1⟩
/-- CAL_CTRL.FC (Table 13-11). -/
def fld.calCtrl.FC : Fld := ⟨.calCtrl, 0, 2⟩
/-- CAL_STATUS.PENDING (Table 13-11). -/
def fld.calStatus.PENDING : Fld := ⟨.calStatus, 0, 1⟩
/-- CAL_EVENT.CLAMP (Table 13-11). -/
def fld.calEvent.CLAMP : Fld := ⟨.calEvent, 0, 1⟩
/-- FACT_i.FACT (Table 13-11). -/
def fld.fact.FACT : Fld := ⟨.fact, 0, 16⟩
/-- USER_TEMP_OFS_s.OFS (Table 13-11). -/
def fld.userTempOfs.OFS : Fld := ⟨.userTempOfs, 0, 8⟩
/-- USER_IMP_l.IMP (Table 13-11). -/
def fld.userImp.IMP : Fld := ⟨.userImp, 0, 6⟩
/-- CNT_LO_n.LO (Table 13-12). -/
def fld.cntLo.LO : Fld := ⟨.cntLo, 0, 32⟩
/-- CNT_HI_n.HI (Table 13-12). -/
def fld.cntHi.HI : Fld := ⟨.cntHi, 0, 16⟩
/-- SNAP_LO_n.LO (Table 13-12). -/
def fld.snapLo.LO : Fld := ⟨.snapLo, 0, 32⟩
/-- SNAP_HI_n.HI (Table 13-12). -/
def fld.snapHi.HI : Fld := ⟨.snapHi, 0, 16⟩
/-- SWCNT_LO.LO (Table 13-12). -/
def fld.swcntLo.LO : Fld := ⟨.swcntLo, 0, 32⟩
/-- SWCNT_HI.HI (Table 13-12). -/
def fld.swcntHi.HI : Fld := ⟨.swcntHi, 0, 16⟩
/-- CNT_SNAP.CNT_SNAP (Table 13-12). -/
def fld.cntSnap.CNT_SNAP : Fld := ⟨.cntSnap, 0, 1⟩
/-- SNAP_TIME_LO.SNAP_TIME (Table 13-12). -/
def fld.snapTimeLo.SNAP_TIME : Fld := ⟨.snapTimeLo, 0, 32⟩
/-- SNAP_TIME_HI.SNAP_TIME (Table 13-12). -/
def fld.snapTimeHi.SNAP_TIME : Fld := ⟨.snapTimeHi, 0, 32⟩
/-- TAG_CTRL.TAG_EN (Table 13-12). -/
def fld.tagCtrl.TAG_EN : Fld := ⟨.tagCtrl, 0, 1⟩
/-- TAG_CTRL.TAG_LOG2 (Table 13-12). -/
def fld.tagCtrl.TAG_LOG2 : Fld := ⟨.tagCtrl, 1, 4⟩
/-- TAG_CTRL.TAG_PERIOD (Table 13-12). -/
def fld.tagCtrl.TAG_PERIOD : Fld := ⟨.tagCtrl, 8, 24⟩
/-- TAG_SEED.TAG_SEED (Table 13-12). -/
def fld.tagSeed.TAG_SEED : Fld := ⟨.tagSeed, 0, 32⟩
/-- TAG_BASE.TAG_BASE (Table 13-12). -/
def fld.tagBase.TAG_BASE : Fld := ⟨.tagBase, 0, 32⟩
/-- TAG_HEAD.TAG_HEAD (Table 13-12). -/
def fld.tagHead.TAG_HEAD : Fld := ⟨.tagHead, 0, 16⟩
/-- TAG_TAIL.TAG_TAIL (Table 13-12). -/
def fld.tagTail.TAG_TAIL : Fld := ⟨.tagTail, 0, 16⟩
/-- TAG_LEVEL.TAG_LEVEL (Table 13-12). -/
def fld.tagLevel.TAG_LEVEL : Fld := ⟨.tagLevel, 0, 17⟩
/-- TAG_STATUS.TAG_STATUS (Table 13-12). -/
def fld.tagStatus.TAG_STATUS : Fld := ⟨.tagStatus, 0, 2⟩
/-- BW_CTRL.BW_EN (Table 13-12). -/
def fld.bwCtrl.BW_EN : Fld := ⟨.bwCtrl, 0, 1⟩
/-- BW_CTRL.BW_MODE (Table 13-12). -/
def fld.bwCtrl.BW_MODE : Fld := ⟨.bwCtrl, 1, 1⟩
/-- BW_CTRL.BW_FC (Table 13-12). -/
def fld.bwCtrl.BW_FC : Fld := ⟨.bwCtrl, 2, 2⟩
/-- BW_CTRL.BW_WIN_US (Table 13-12). -/
def fld.bwCtrl.BW_WIN_US : Fld := ⟨.bwCtrl, 12, 20⟩
/-- TX_BYTES_c.TX_BYTES (Table 13-12). -/
def fld.txBytes.TX_BYTES : Fld := ⟨.txBytes, 0, 32⟩
/-- RX_BYTES.RX_BYTES (Table 13-12). -/
def fld.rxBytes.RX_BYTES : Fld := ⟨.rxBytes, 0, 32⟩
/-- PEAK_TX.PEAK_TX (Table 13-12). -/
def fld.peakTx.PEAK_TX : Fld := ⟨.peakTx, 0, 32⟩
/-- BW_LIMIT.BW_LIMIT (Table 13-12). -/
def fld.bwLimit.BW_LIMIT : Fld := ⟨.bwLimit, 0, 32⟩
/-- BW_SEQ.BW_SEQ (Table 13-12). -/
def fld.bwSeq.BW_SEQ : Fld := ⟨.bwSeq, 0, 32⟩
/-- ETAB_WORD.WORD (Table 7-1). -/
def fld.etabWord.WORD : Fld := ⟨.etabWord, 0, 32⟩
/-- CL_STATUS.BUSY (Table 14-2). -/
def fld.clStatus.BUSY : Fld := ⟨.clStatus, 0, 8⟩
/-- CL_STATUS.GATED (Table 14-2). -/
def fld.clStatus.GATED : Fld := ⟨.clStatus, 8, 1⟩
/-- CL_STATUS.ROT (Table 14-2). -/
def fld.clStatus.ROT : Fld := ⟨.clStatus, 9, 1⟩
/-- CL_STATUS.FAILED (Table 14-2). -/
def fld.clStatus.FAILED : Fld := ⟨.clStatus, 10, 1⟩
/-- CL_TS_USED.TS_USED (Table 14-2). -/
def fld.clTsUsed.TS_USED : Fld := ⟨.clTsUsed, 0, 21⟩
/-- CL_CORE_k.SLOT (Table 14-2). -/
def fld.clCore.SLOT : Fld := ⟨.clCore, 0, 16⟩
/-- CL_CORE_k.VALID (Table 14-2). -/
def fld.clCore.VALID : Fld := ⟨.clCore, 16, 1⟩

end Sys2Proof.Machine
end

