-- ==== Sys2Proof/Machine/State.lean ====
section
/-!
DEFINITION. The state of the device as plain data. The registers of BAR0 are one sparse table; what the manual gives
the machine beyond its registers is in the records of its blocks. INVENTORY.md lists each piece with its rule.
-/

namespace Sys2Proof.Machine

/-- Family members (Table 0-1). -/
inductive Member where
  | zx9160 | zx9080 | zx9040
deriving DecidableEq, Repr

/-- An allocation of frame memory (R292): base and size in MiB, owner, and the fence that retires it (R297). -/
structure Alloc where
  base : Nat
  size : Nat
  ctx : Nat
  fence : Option W32
deriving DecidableEq, Repr

/-- An input (R31): kind, owning context of CUE and ETAB inputs (0 for the others), and index. -/
structure InKey where
  kind : Nat
  ctx : Nat
  idx : Nat
deriving DecidableEq, Repr

/-- How a change names its target (Table 5-1). An epoch of a canvas is kept with its latch instant. -/
inductive ATarget where
  | arrival
  | epoch (canvas : Nat) (e : W32) (inst : W64)
  | time (t : W64)
  | etab
deriving DecidableEq, Repr

/-- A record of the input log (R125 to R129): input, version, value, layer buffer address ÷ 256, target, instant of
the target or of the arrival, and the application epoch on each canvas that has one. -/
structure Change where
  key : InKey
  version : W32
  value : W32
  buf : W32
  target : ATarget
  inst : W64
  apps : Map W32
deriving DecidableEq, Repr

/-- A change that waits at its source because the log is full (R129). A host command's change keeps its command and
OP and entry, whose completion waits with it. -/
structure Waiting where
  key : InKey
  value : W32
  buf : W32
  target : ATarget
  cmd : Option (Cmd × Nat × List W32)
deriving DecidableEq, Repr

/-- An entry of a read set (R39). -/
structure ReadEnt where
  key : InKey
  version : W32
deriving DecidableEq, Repr

/-- A program as a task was released with it (R49): number, BASE, LEN, ENTRY, scratch bytes, service privilege. -/
structure ProgSnap where
  num : Nat
  base : Nat
  len : Nat
  entry : Nat
  scratch : Nat
  svc : Bool
deriving DecidableEq, Repr

/-- Table 4-1 without FREE. -/
inductive TState where
  | waiting | ready | running (core : Nat) | parked
deriving DecidableEq, Repr

/-- A packet buffer that a task holds (R81, R249): handle, bytes written, frame length once set, and the number that a byte
not written, or a length not set, draws its free value by. -/
structure PktBuf where
  handle : W32
  bytes : Map Byte
  len : Option Nat
  fresh : Nat
deriving DecidableEq, Repr

/-- How an instruction uses the pipeline (R53, Table 2-8): issue cycles, slot (0 scalar, 1 vector, 2 none), whether it
accesses memory, whether it is a branch, system or task instruction, and the registers that it reads and writes: `n` for
s`n`, `32 + n` for v`n`, `64 + n` for p`n`. -/
structure Use where
  cyc : Nat
  slot : Nat
  mem : Bool
  alone : Bool
  reads : List Nat
  writes : List Nat
deriving DecidableEq, Repr

/-- A task (R91). Registers that nothing has written read zero (R22); a scratch byte that this run has not written is
a free value. `core`, `torg`, `tsize` and `priv` are what cr.core, cr.torg, cr.tsize and cr.class keep for the run (R23);
`front` is the instruction issued last, with its address, while the next may still issue in its cycle (R53), and `was` the
state before the dispatch or squash of this cycle (R106). -/
structure Task where
  id : Nat
  slot : Nat
  desc : List W32
  ctx : Nat
  canvas : Option Nat
  epoch : Option W32
  prog : ProgSnap
  depth : Nat
  tmpl : Option Nat
  parent : Option Nat
  st : TState
  firm : Bool
  demoted : Bool
  resumed : Bool
  inep : W32
  readSet : List ReadEnt
  demSet : List ReadEnt
  excode : Nat
  exinfo : W32
  saved : Bool
  pc : W32
  sregs : Map W32
  vregs : Map W32
  pregs : Map W16
  core : Nat
  torg : W32
  tsize : W32
  priv : Bool
  front : Option (W32 × Use)
  was : Option TState
  scratch : Map Byte
  staged : Map Byte
  stores : List Host.Cell
  children : List (Nat × Nat × Nat)
  pkts : List PktBuf
  steps : Nat
  runs : Nat
  cycles : Nat
  timed : Bool
  latch : W64
  period : Nat
  lastCore : Option Nat
  affine : Option Nat
  readyAt : W64
  waited : Bool
  spill : Option Nat
  finishing : Option (List W32)
deriving DecidableEq, Repr

/-- A completed task of an open epoch (R42): what re-creation and invalidation need. -/
structure DoneTask where
  id : Nat
  desc : List W32
  ctx : Nat
  canvas : Nat
  epoch : W32
  prog : ProgSnap
  depth : Nat
  tmpl : Option Nat
  parent : Option Nat
  children : List (Nat × Nat × Nat)
  readSet : List ReadEnt
  demSet : List ReadEnt
  demoted : Bool
  runs : Nat
  cycles : Nat
  core : Option Nat
deriving DecidableEq, Repr

/-- The tile tasks of one release of a kind 1 template that are still to be created (R98): template and source canvas, the
canvas whose tiles they count, and the epoch that EMODE gives them. -/
structure CreateJob where
  tmpl : Nat
  src : Nat
  desc : List W32
  ctx : Nat
  canvas : Nat
  epoch : Option W32
  prog : ProgSnap
  next : Nat
  total : Nat
deriving DecidableEq, Repr

/-- A template of kind 1 or 2 as its canvas's last commit took it (R99). -/
structure TmplSnap where
  desc : List W32
  kind : Nat
  src : W32
  prog : Option ProgSnap
deriving DecidableEq, Repr

/-- A task-post record (R82). -/
structure PostRec where
  slot : Nat
  ctx : Nat
  tag : W16
  data : W32
deriving DecidableEq, Repr

/-- The scheduler: task slots, the order in which slots became free, completed tasks of open epochs, jobs, templates
in force by `256 × canvas + number` (R99), core time of the running period with the frame clock and frame number of each
context's last period end (R112), posts. -/
structure Sched where
  tasks : Map Task
  nextId : Nat
  slotFresh : Nat
  slotFreed : List Nat
  doneTasks : List DoneTask
  createQ : List CreateJob
  recreateQ : List DoneTask
  tmplForce : Map TmplSnap
  ctCount : Map Nat
  ctEnd : Map (Nat × W64)
  posts : List PostRec
  tileAffine : Map Nat
  ctxClosing : List Nat
deriving DecidableEq, Repr

/-- An endpoint-table snapshot (R173, R174): published words by `16 × entry + word`, and the views by
`2 × context` (base) and `2 × context + 1` (count). -/
structure Snap where
  epoch : W32
  etab : Map W32
  views : Map W32
deriving DecidableEq, Repr

/-- An epoch that holds a slot: its latch instant, the depth in force at its release, tiles to fill at its commit
with the input epoch they are masked at (R57, R199), and after its commit the tiles' CRCs and the fills whose copy is still
running (R132). `undone` are tiles whose tasks were still to be created when their context was disabled (R111, R131). -/
structure EpochRec where
  epoch : W32
  slot : Nat
  latch : W64
  depth : Nat
  committed : Bool
  fills : List (Nat × W32)
  crcs : List W32
  copying : List Nat
  timed : Bool
  demoted : Bool
  undone : List Nat
deriving DecidableEq, Repr

/-- What the endpoints of a DMX port show in an epoch of their canvas (R204): port, epoch, latch instant, and the covered
slots with their bytes. -/
structure DmxImg where
  port : Nat
  epoch : W32
  latch : W64
  covers : List (Nat × Byte)
deriving DecidableEq, Repr

/-- A canvas: epochs that hold slots in ascending order, snapshots, CRCs last sent (R133), trickle count (R134),
quiet commits (R142), newest application epoch of a change on it, whether a template of it has changed since the last
commit, the derate multiplier and kill of its endpoints as the last commit sent them, and after a
change of frame clock the last epoch under the old numbers with what the old numbers are shifted by; the DMX contents of
each port's last two epochs; and the fills of R57 for epochs not yet released: epoch, tile, input epoch (R105). -/
structure Canvas where
  epochs : List EpochRec
  snaps : List Snap
  lastCrc : Map W32
  trickle : Nat
  quiet : Nat
  lastApp : Option W32
  noisy : Bool
  glzLast : Map Nat
  oldNum : Option (W32 × W32)
  dmx : List DmxImg
  marks : List (W32 × Nat × W32)
deriving DecidableEq, Repr

/-- Canvases, the input log, input versions and changes that wait for room; and whether the next record's parity fails in the
log (R286). -/
structure Vat where
  canvases : Map Canvas
  inputs : List Change
  versions : List (InKey × W32)
  waiting : List Waiting
  badNext : Bool
deriving DecidableEq, Repr

/-- A running import (R294): its layer, target buffer ÷ 256, the host address and row pitch it copies from (for an
AUTO import the sampled LAYER_HADDR, R295), the command it belongs to (none for an AUTO import) with its entry, its target. -/
structure Import where
  layer : Nat
  buf : W32
  addr : W64
  pitch : Nat
  cmd : Option Cmd
  entry : List W32
  target : ATarget
  epoch : W32
deriving DecidableEq, Repr

/-- A layer (R293). -/
structure Layer where
  ctx : Nat
  width : Nat
  height : Nat
  fmt : Nat
  host : Bool
  auto : Option Nat
  pool : W32
  nbuf : Nat
deriving DecidableEq, Repr

/-- A deleted layer whose buffers tasks released before the deletion may still read (R30, R47): its number, the task
number below which a task was released before, and the index under which the input log keeps its records. -/
structure GoneLayer where
  num : Nat
  before : Nat
  idx : Nat
  layer : Layer
deriving DecidableEq, Repr

/-- A producer that waits for its CPL ring (R284): a command not yet started, or a record ready to be written, with the
function whose ring takes it. -/
inductive CplWait where
  | cmd (cpl : Nat) (i : Instr)
  | record (cpl fn : Nat) (words : List W32)
deriving DecidableEq, Repr

/-- An open fence (R297): context, number, allocation base in MiB, and the FIRM tasks it waits for: those with a number below
`upto`, and those that a template released before and that were still to be created, by template and epoch. -/
structure Fence where
  ctx : Nat
  num : W32
  base : Nat
  upto : Nat
  jobs : List (Nat × Option W32)
deriving DecidableEq, Repr

/-- Host side: allocations, layers, functions, semaphores, rings and fences. `semAt` is when a semaphore was claimed or last
renewed; the tie bits say that H1 goes first. `msix` are the vectors signalled; `msixTab` holds the MSI-X table words by
`2^20 × function + BAR4 offset ÷ 4`, `msixPend` the Pending Bit Array, `msixCtl` a function's MSI-X Enable (bit 15) and
Function Mask (bit 14); `perst` the ports held in PERST_N (R335). `parity` gives the words of a ring's next record that
fail their parity in the hardware queue (R286). `imports` run in the order in which they started; `gone` are deleted
layers, and `goneCount` how many there have been. -/
structure HostSt where
  allocs : List Alloc
  layers : Map Layer
  fnPresent : List Nat
  bar2 : Map Nat
  semAt : Map W64
  semTie : Map Bool
  busTie : Bool
  evSeq : Map Nat
  msix : List (Nat × Nat)
  msixTab : Map W32
  msixPend : List (Nat × Nat)
  msixCtl : Map Nat
  perst : List Nat
  parity : Map Byte
  imports : List Import
  gone : List GoneLayer
  goneCount : Nat
  cplWait : List CplWait
  fenceNext : Map W32
  fences : List Fence
  rxPosted : Map (List RxPost)
deriving DecidableEq, Repr

/-- A stretch of frame numbers of a frame clock that share a grid (R230, R233): its first frame number, rate code,
PHASE and FBASE. -/
structure ClockSeg where
  start : W64
  rate : Nat
  phase : Nat
  fbase : W64
deriving DecidableEq, Repr

/-- A running frame clock: the grid in force, then the changes that wait for their frame (R233), and the newest frame
whose instant row has been taken. -/
structure FClock where
  segs : List ClockSeg
  seen : W64
deriving DecidableEq, Repr

/-- A time domain (R212 to R216): state (0 OFF, 1 LISTEN, 2 TRACK, 3 LOST), offset and delay average in 2^−16 ns,
rate in parts per 2^48, the last accepted sample's offset and arrival, samples accepted since it was enabled and since
LISTEN was entered, consecutive samples over the alarm limit, and when the announce timer started. -/
structure Dom where
  st : Nat
  theta : Int
  davg : Int
  rate : Int
  prevTheta : Int
  prevB : W64
  total : Nat
  run : Nat
  alarms : Nat
  annAt : W64
deriving DecidableEq, Repr

/-- The time subsystem: frame clocks, servo (adj and acc in parts per 2^48), the switch in progress with its settled
samples, the domains, whether outward time may still step at a first TRACK, whether a domain has been followed, the
last rising edge of each PPS output with the fall of its pulse, the setting (SRC, OFS) that a change of an output leaves in
force until an instant (R236), the last edge of PPS_IN, the start of the REF10 window, and when each port last sent a Sync
(R222). -/
structure Tim where
  fcs : Map FClock
  adj : Int
  acc : Int
  settle : Nat
  dom0 : Dom
  dom1 : Dom
  firstTrack : Bool
  ppsLast : Map W64
  ppsFall : Map W64
  ppsOld : Map (Nat × Int × W64)
  ppsIn : Option (W64 × BitVec 16)
  ref10 : Option W64
  syncAt : Map W64
deriving DecidableEq, Repr

/-- What a unit of the Glaze work queue feeds: the PIX frame of one endpoint (R148), a universe record's packet (R203), or the
slots of a DMX port (R204). -/
inductive Via where
  | pix
  | univ (u : Nat)
  | dmx (p : Nat)
deriving DecidableEq, Repr

/-- A segment in the Glaze work queue (R150): what it feeds, canvas, epoch, endpoint (the lowest one of a universe or DMX
port), segment number, whether it is part of a full send, and COUNT of its node. -/
structure Seg where
  via : Via
  canvas : Nat
  epoch : W32
  ep : Nat
  no : Nat
  full : Bool
  cnt : Nat
deriving DecidableEq, Repr

/-- A transmit window (R151): canvas, epoch, slot, end, the snapshot's end of plane cuts reached, tiles that lost a
segment, (tile, line) pairs served late, and segments abandoned. -/
structure Win where
  canvas : Nat
  epoch : W32
  slot : Nat
  fin : W64
  cutPlanes : List Nat
  badTiles : List Nat
  dirty : List Nat
  lateLines : List (Nat × Nat)
  abandoned : Nat
deriving DecidableEq, Repr

/-- The Glaze stage: Mordant words by MORD_ADDR, the work queue, the open windows, and when each pipe is done with the
segment that it took last. -/
structure Glz where
  mord : Map W32
  work : List Seg
  wins : List Win
  pipeEnd : Map W64
deriving DecidableEq, Repr

/-- What the engine keeps of an endpoint (R191 to R196): thermal multiplier and cut, last reading (0x80 before any),
string states (0 OK, 1 UNPROVEN, 2 FAULT; UNPROVEN where unlisted), epoch of each string's last GOOD, strings whose
last result was NM, last STAT's epoch, MISS count and bit, LOST, whether a repair is due, and the frame number of its
last STAT or of its publication. -/
structure EpSt where
  m : Nat
  cut : Bool
  temp : Nat
  strs : Map Nat
  good : Map W32
  nm : List Nat
  epoch : W32
  misses : Nat
  miss : Bool
  lost : Bool
  repair : Bool
  since : W64
deriving DecidableEq, Repr

/-- The endpoint engine: staging words, endpoint status, SEQ per node and per canvas and port, drive kicks by canvas and
record, frame instants since each universe was sent, universes due a send, next repeat of the blackout HOLD, the last
LATCH, synchronisation and beacon sent per canvas. -/
structure Epg where
  stage : Map W32
  eps : Map EpSt
  seqs : Map W16
  latchSeq : Map W16
  kicks : List (Nat × Nat)
  univAge : Map Nat
  univDue : List Nat
  blackAt : W64
  latched : Map W32
  synced : Map W32
  beaconAt : Map W64
deriving DecidableEq, Repr

/-- Where a frame is addressed: MAC, EtherType where it does not go over UDP, VLAN tag as (PCP, VID), and for UDP the
address family, destination address, source and destination ports. -/
structure Dest where
  mac : Nat
  ether : Nat
  vlan : Option (Nat × Nat)
  udp : Option (Bool × Nat × Nat × Nat)
deriving DecidableEq, Repr

/-- Where a queued frame comes from: a TX ring with the index of its first descriptor, a packet buffer, or the
endpoint engine with the kind of message, canvas and epoch. -/
inductive Src where
  | ring (r first : Nat)
  | pkt
  | enp (type canvas : Nat) (epoch : W32)
  | sacn (canvas : Nat) (epoch : W32)
deriving DecidableEq, Repr

/-- A frame on a port: class, launch time, source, addressing of a frame the device builds, its bytes (a whole frame
from the destination MAC for a ring or packet buffer; else the message), wire length without FCS, tag, and timestamp
request. -/
structure QFrame where
  cls : Nat
  launch : W64
  src : Src
  dest : Option Dest
  bytes : List Byte
  len : Nat
  tag : W16
  tsreq : Bool
  late : Bool
deriving DecidableEq, Repr

/-- A transmit timestamp (Table 8-4). -/
structure TsEnt where
  tag : W16
  ts : W64
  frac : W16
  tc : Nat
deriving DecidableEq, Repr

/-- A port 0–31: queued frames in queue order, the frame on the wire, the last frame that left, end of pause and start
of the running pause per class, end of the watchdog interval per class, the active gate bank with its length, the
gate setting in force (frame clock and offset) with its last cycle start, block lock, when the queues became empty, end
of the LPI wake, collisions of the head frame, end of its back-off, timestamps, the bandwidth window, when the frame on the
wire started with the fraction, the octets of that frame, whether the queue is dropped when it ends (R390), and of a PLCA
transmit opportunity the frames sent and when the last of them ended. -/
structure Port where
  queue : List QFrame
  wire : Option QFrame
  last : Option QFrame
  paused : Map W64
  pausedAt : Map W64
  wdEnd : Map W64
  gate : Map (Byte × W32)
  gateLen : Nat
  gateOn : Option (Nat × W32)
  cycle : W64
  pcsUp : Bool
  idleAt : W64
  wakeAt : Option W64
  coll : Nat
  backoff : Option W64
  judged : Bool
  tsq : List TsEnt
  bwTx : Map Nat
  bwRx : Nat
  bwAt : W64
  wireAt : W64
  wireFrac : W16
  octets : List Byte
  dropDue : Bool
  burst : Nat
  burstAt : W64
deriving DecidableEq, Repr

/-- A DMX port: the end of the packet in progress, a start that waits for it, the slots of the last packet, the RDM exchange
(0 none, 1 waiting for the packet, 2 running), the request that the exchange sends, and when the line is released after it. -/
structure Dmx where
  busy : Option W64
  slots : List Byte
  started : Option W64
  rdm : Nat
  req : List Byte
  freeAt : W64
deriving DecidableEq, Repr

/-- The merge window of an RTP target (R259): highest sequence number, numbers accepted, last packet of each leg. -/
structure Merge where
  high : Option Nat
  seen : List Nat
  legAt : Map W64
  silent : List Nat
deriving DecidableEq, Repr

/-- A frame of a video stream: frame number since the stream began, its RTP timestamp, its media time (R232). -/
structure VFrame where
  no : Nat
  ts : W32
  media : W64
deriving DecidableEq, Repr

/-- A video target: merge and the frames of its ring, newest first, at most three. -/
structure Vid where
  merge : Merge
  frames : List VFrame
deriving DecidableEq, Repr

/-- An audio target: merge, the segment being gathered, its samples by extended timestamp, and the highest segment
completed. -/
structure Aud where
  merge : Merge
  seg : Option Nat
  media : W64
  samples : Map (List (BitVec 24))
  closed : Option Nat
deriving DecidableEq, Repr

/-- A source of an sACN universe (R263): CID, priority, last packet, slots. -/
structure SacnSrc where
  cid : Nat
  prio : Nat
  at_ : W64
  slots : List Byte
deriving DecidableEq, Repr

/-- The merge of an sACN subscription: sources in order of arrival and merged slots. -/
structure SacnSub where
  srcs : List SacnSrc
  slots : Map Byte
deriving DecidableEq, Repr

/-- The ports and receive streams. -/
structure Prt where
  ports : Map Port
  dmxs : Map Dmx
  vids : Map Vid
  auds : Map Aud
  ancs : Map Merge
  tcAt : Map W64
  subs : Map SacnSub
deriving DecidableEq, Repr

/-- A COMMIT record that waits for tiles on a standby (R316). -/
structure ShadowWait where
  canvas : Nat
  epoch : W32
  digest : W32
  miss : Bool
  tiles : List W32
  arrived : W64
deriving DecidableEq, Repr

/-- A journal record as a standby keeps it (Table 11-3): COMMIT, CHANGE, REGW (a cancel with the task's identity), CMD, MEMW,
LAYER, EPSTATE, HANDOVER, and one that has a place in the order of JSEQ and nothing left to apply (RENEW, COPY_END). -/
inductive JRec where
  | commit (miss : Bool) (c : Nat) (e digest : W32) (tiles : List W32)
  | change (id : W32) (ctx : Nat) (tmode : Byte) (value version : W32) (target : W64)
  | regw (off : Nat) (v : W32) (fn : Nat) (task : Option TaskRef)
  | cmd (entry cpl : List W32)
  | memw (addr4 : W64) (data : List Byte)
  | layer (last : Bool) (n : Nat) (buf off : W32) (data : List Byte)
  | epstate (e : Nat) (status : List W32) (strings : W64)
  | handover (b : W64)
  | passed
deriving DecidableEq, Repr

/-- A journal record that a standby holds, with its arrival (R314, R316). -/
structure JHeld where
  head : JHead
  body : JRec
  at_ : W64
deriving DecidableEq, Repr

/-- What is still to be sent of a state copy (R323): registers and tables as they stood at P by block kind and index (log 71),
pieces of memory by address and length, and COPY_END with P. -/
inductive CopyItem where
  | block (kind index : Nat) (data : List Byte)
  | mem (addr len : Nat)
  | fin (p : W32)
deriving DecidableEq, Repr

/-- The twin block: last beat heard and term heard, end of the own lease, last beat renewed, last LEASE_IN edge, level of
LEASE_OUT, acquisition's takeover instant, digest runs per canvas, the waiting COMMIT, whether a copy is due to the peer,
records held in the order of JSEQ, commits over all canvases, the last record sent with the lane it went on, how many
have been sent, and the times of R320: t2 of
the last RENEW, t3 of the ACKs sent that no RENEW has echoed, and t3 and t4 to echo, offset and delay in 2^−16 ns and
measurements formed; when the role was entered, whether a copy being received has been abandoned and at which CPOS, the bytes
of it received or sent, what is still to be sent of a copy, and the JSEQ of the TASK commands that created live tasks, by
task number (R317). -/
structure Twn where
  beat : Option W64
  termRx : W32
  leaseEnd : W64
  renewed : Option W64
  edge : Option W64
  out : Bool
  takeAt : Option W64
  runs : Map Nat
  wait : List ShadowWait
  handAt : Option W64
  copySend : Bool
  buffered : List JHeld
  cpos : W32
  sent : Option (Nat × List Byte)
  sends : Nat
  t2 : W64
  acks : List W64
  echo3 : W64
  echo4 : W64
  offset : Int
  delay : Int
  meas : Nat
  since : W64
  copyLost : Bool
  copyFrom : Option W32
  copied : Nat
  copyQ : List CopyItem
  origin : Map W32
deriving DecidableEq, Repr

/-- What a running mode transition leads to, when it ends, whether it first waits for a start set (R356), and the cause of
one to SAFE (R340). -/
structure Trans where
  target : Nat
  due : W64
  afterSet : Bool
  cause : Nat
deriving DecidableEq, Repr

/-- Power, clocks, reset and boot: transition, gated clusters, self-refresh, doubled refresh, slow time in 1/64 ns, voltage
refusals in a row, the instant of the last VOUT_COMMAND, BOOT_MODE pins, the image source being read (0 and 1 flash copies,
2 and 3 hosts), whether a rail fault's event is still to be raised, reset sources held; the reference inputs that deliver no
edges, by their bits of CLK_STATUS; the regulator address and word of the last VOUT_COMMAND (R331); the CK_CORE frequency in
MHz that the voltage allows (R332); the last access of frame memory in HOLD (R338); and whether flash is read in 8D-8D-8D
mode (R343). -/
structure Pwr where
  trans : Option Trans
  gated : List Nat
  selfRef : Bool
  hotHbm : Bool
  slow : Nat
  avsFails : Nat
  avsAt : Option W64
  bootMode : Nat
  image : Option Nat
  supplyEv : Bool
  held : List Nat
  clocks : Nat
  vout : Option (Nat × Nat)
  coreMhz : Nat
  memAt : W64
  octal : Bool
deriving DecidableEq, Repr

/-- Self-test: blocks of the running set still to end, the kind of set (0 none, 1 power-up, 2 before SLEEP, 3 shut-down
run, 4 TEST), the set's blocks, the next cluster of the rotation and its step (0 none, 1 draining, 2 under test) with
the step's start, clusters removed from dispatch, the retained verdict (true = PASS), and whether the release from reset,
which starts the boot, is still to come. -/
structure Bst where
  todo : List Nat
  kind : Nat
  blocks : List Nat
  rotNext : Nat
  rotStep : Nat
  rotAt : Option W64
  removed : List Nat
  retained : Option Bool
  releaseDue : Bool
deriving DecidableEq, Repr

/-- The state of the device. `tagCount` counts the instructions that a core has issued since its last tag (R367), and
`tagDraws` its draws. `fbad` are the addresses of frame memory bytes that hold a poisoned word or fail ECC beyond correction
(R55). -/
structure State where
  pending : List Instr
  free : Nat
  rdata : List Byte
  member : Member
  regs : Map W32
  inForce : Map W32
  calOld : Map W32
  cnt : Map (BitVec 48)
  snap : Map (BitVec 48)
  swcnt : Map (BitVec 48)
  fmem : List Host.Cell
  fbad : List Nat
  hmem : List Host.Cell
  ot : W64
  otFrac : BitVec 48
  otp : Map W32
  tagCount : Map Nat
  tagDraws : Map Nat
  sch : Sched
  vat : Vat
  hst : HostSt
  tim : Tim
  glz : Glz
  epg : Epg
  prt : Prt
  twn : Twn
  pwr : Pwr
  bst : Bst
deriving DecidableEq, Repr

/-- Reasons for which the machine could stop with a fault. No rule stops the device: an access that the manual forbids
has a stated result, so no meaning raises one. Safe. -/
inductive Fault where
  | none_
deriving DecidableEq, Repr

/-- Reasons for which a command has no meaning. `notModelled` is raised by an arm of `exec` that has no meaning yet,
with the mnemonic. Safe. -/
inductive Refusal where
  | notModelled (mnemonic : String)
deriving DecidableEq, Repr

/-! ## Reset -/

/-- A domain that is off. -/
def domOff : Dom := ⟨0, 0, 0, 0, 0, 0, 0, 0, 0, 0⟩

/-- The blocks outside the always-on island after their reset (R373, Table 14-3): every register at its reset value, no
task, allocation, layer or epoch, counters at zero; the queue, frame and host memory, OTP and the member are given. -/
def State.coldStart (m : Member) (pending : List Instr) (fmem hmem : List Host.Cell) (otp : Map W32) (fns : List Nat)
    (pwr : Pwr) (retained : Option Bool) (free : Nat) : State :=
  { pending := pending, free := free, rdata := [], member := m, regs := [], inForce := [], calOld := [], cnt := [],
    snap := [], swcnt := [], fmem := fmem, fbad := [], hmem := hmem, ot := 0, otFrac := 0, otp := otp, tagCount := [],
    tagDraws := [],
    sch := ⟨[], 0, 0, [], [], [], [], [], [], [], [], [], []⟩,
    vat := ⟨[], [], [], [], false⟩,
    hst := ⟨[], [], fns, [], [], [], false, [], [], [], [], [], [], [], [], [], 0, [], [], [], []⟩,
    tim := ⟨[], 0, 0, 0, domOff, domOff, true, [], [], [], none, none, []⟩,
    glz := ⟨[], [], [], []⟩,
    epg := ⟨[], [], [], [], [], [], [], 0, [], [], []⟩,
    prt := ⟨[], [], [], [], [], [], []⟩,
    twn := ⟨none, 0, 0, none, none, false, none, [], [], none, false, [], 0, none, 0, 0, [], 0, 0, 0, 0, 0, 0, false, none, 0, [], []⟩,
    pwr := pwr,
    bst := ⟨[], 0, [], 0, 0, none, [], retained, true⟩ }

/-- The power block right after power-on (log 10). -/
def pwrReset : Pwr := ⟨none, [], false, false, 0, 0, none, 0, none, false, [], 0, none, 1200, 0, false⟩

/-- The device right after reset (R373): mode BOOT, every register at its reset value (log 7 for the OTP words, log 9
for the functions, log 10 for the mode). -/
def State.reset : State := State.coldStart .zx9160 [] [] [] [(1, 0xFFFFFFFF), (2, 0xFFFFFFFF)] [0, 16] pwrReset none 0

/-- What a meaning answers. -/
abbrev Out := Host.Outcome State Fault Refusal

end Sys2Proof.Machine
end

