-- ==== Sys2Proof/Machine/Ops.lean ====
section
/-!
DEFINITION. The named operations that every command uses: byte memories, the register file, the counters, rings,
events, and the facts of the family member.
-/

namespace Sys2Proof.Machine

/-! ## Byte memories (R27) -/

/-- What an unlisted byte reads as (log 6). -/
def memDefault : Nat → Byte := fun _ => 0

/-- One byte. -/
def memGet (m : List Host.Cell) (a : Nat) : Byte := Map.get memDefault m a

/-- One byte written; a byte equal to what an unlisted one reads as takes its entry out. -/
def memSet (m : List Host.Cell) (a : Nat) (b : Byte) : List Host.Cell := Map.set memDefault m a b

/-- `n` bytes from an address. -/
def memRead (m : List Host.Cell) (a : Nat) : Nat → List Byte
  | 0 => []
  | n + 1 => memGet m a :: memRead m (a + 1) n

/-- Bytes written from an address up. -/
def memWrite (m : List Host.Cell) (a : Nat) : List Byte → List Host.Cell
  | [] => m
  | b :: bs => memWrite (memSet m a b) (a + 1) bs

/-- `n` zero bytes written. -/
def memZero (m : List Host.Cell) (a n : Nat) : List Host.Cell := m.filter (fun c => c.1 < a || a + n ≤ c.1)

/-- The canonical form of a byte memory. -/
abbrev memWf (m : List Host.Cell) : Bool := Map.wf memDefault m

/-- A little-endian number in frame memory. -/
def fmemNat (s : State) (a n : Nat) : Nat := ofLe (memRead s.fmem a n)


/-- The key of a byte of host memory: each PCIe port has its own address space (R282). -/
def hostKey (fn addr : Nat) : Nat := fn / 16 * 2 ^ 64 + addr

/-- Host memory written through a function's port. -/
def hmemPut (fn addr : Nat) (bs : List Byte) (s : State) : State :=
  { s with hmem := memWrite s.hmem (hostKey fn addr) bs }

/-! ## The family member (R1, R2) -/

/-- Clusters present. -/
def clusters (m : Member) : Nat := match m with | .zx9160 => 20 | .zx9080 => 10 | .zx9040 => 5
/-- Ethernet ports present. -/
def ethPorts (m : Member) : Nat := match m with | .zx9160 => 16 | .zx9080 => 8 | .zx9040 => 4
/-- 10BASE-T1S ports present. -/
def t1sPorts (m : Member) : Nat := match m with | .zx9160 => 16 | .zx9080 => 16 | .zx9040 => 8
/-- DMX ports present. -/
def dmxPorts (m : Member) : Nat := match m with | .zx9160 => 8 | .zx9080 => 8 | .zx9040 => 4
/-- Endpoints present. -/
def endpoints (m : Member) : Nat := match m with | .zx9160 => 131072 | .zx9080 => 65536 | .zx9040 => 32768
/-- Canvas pixel budget (Table 0-1). -/
def pixelBudget (m : Member) : Nat := match m with | .zx9160 => 80000000 | .zx9080 => 40000000 | .zx9040 => 20000000
/-- Frame memory in MiB. -/
def memMib (m : Member) : Nat := match m with | .zx9160 => 24576 | _ => 16384
/-- ID.PART (Table 0-3). -/
def partId (m : Member) : Nat := match m with | .zx9160 => 0x9160 | .zx9080 => 0x9080 | .zx9040 => 0x9040

/-- PCIe Vendor ID and Subsystem Vendor ID (Table 0-4). -/
def pcieVendor : Nat := 0x1E7A
/-- PCIe Device ID and Subsystem ID of a function: a virtual function's is one above (Table 0-4). -/
def pcieDevice (m : Member) (vf : Bool) : Nat := partId m + (if vf then 1 else 0)
/-- PCIe Revision ID (Table 0-4). -/
def pcieRevision : Nat := 0xB1
/-- PCIe class code: multimedia controller, other (Table 0-4). -/
def pcieClass : Nat := 0x048000

/-- Whether a port number 0–15 (Ethernet) or 16–31 (10BASE-T1S) is present. -/
def portPresent (m : Member) (p : Nat) : Bool := if p < 16 then p < ethPorts m else p < 16 + t1sPorts m

/-- Whether a test block is present on the member (Table 13-3). -/
def blockPresent (m : Member) (b : Nat) : Bool :=
  if b < 20 then b < clusters m
  else if b < 28 then true
  else if b < 32 then false
  else if b < 48 then b - 32 < ethPorts m
  else if b < 64 then b - 48 < t1sPorts m
  else b == 64 || b == 65 || b == 127

/-! ## The register file -/

/-- The value that a read of a stored register returns. -/
def rd (s : State) (r : RegId) (i j : Nat := 0) : W32 :=
  Map.get (fun _ => BitVec.ofNat 32 r.desc.reset) s.regs (r.key i j)

/-- A register written whole. -/
def wr (r : RegId) (v : W32) (s : State) (i j : Nat := 0) : State :=
  { s with regs := Map.set (fun _ => BitVec.ofNat 32 r.desc.reset) s.regs (r.key i j) v }

/-- A field. -/
def get (s : State) (f : Fld) (i j : Nat := 0) : Nat := bitsOf (rd s f.reg i j).toNat f.lo f.w

/-- A field written. -/
def put (f : Fld) (v : Nat) (s : State) (i j : Nat := 0) : State :=
  wr f.reg (BitVec.ofNat 32 (withBits (rd s f.reg i j).toNat f.lo f.w v)) s i j

/-- A one-bit field as a truth value. -/
def on (s : State) (f : Fld) (i j : Nat := 0) : Bool := get s f i j == 1

/-- A field of a shadowed register as it is in force (R138): the value before a write that still waits. -/
def eff (s : State) (f : Fld) (i j : Nat := 0) : Nat :=
  match Map.find? s.inForce (f.reg.key i j) with
  | some v => bitsOf v.toNat f.lo f.w
  | none => get s f i j

/-- A user-calibration field as it is in force (R362). -/
def effCal (s : State) (f : Fld) (i j : Nat := 0) : Nat :=
  match Map.find? s.calOld (f.reg.key i j) with
  | some v => bitsOf v.toNat f.lo f.w
  | none => get s f i j

/-- Bits of a field set, as a status register sets them. -/
def setBit (f : Fld) (bit : Nat) (s : State) (i j : Nat := 0) : State :=
  put f (Nat.lor (get s f i j) (2 ^ bit)) s i j

/-- A bit of a field. -/
def hasBit (s : State) (f : Fld) (bit : Nat) (i j : Nat := 0) : Bool := get s f i j / 2 ^ bit % 2 == 1

/-- Whether an optional condition lets a change of state happen; otherwise the state stands. -/
def when (b : Bool) (f : State → State) (s : State) : State := if b then f s else s

/-- A change of state over the elements of a list, in order. -/
def forEach {α : Type} (xs : List α) (f : α → State → State) (s : State) : State := xs.foldl (fun t x => f x t) s

/-! ## Frame memory -/

/-- An access of frame memory in HOLD: the memory leaves self-refresh, and its idle time starts anew (R338). -/
def wakeMem (s : State) : State :=
  { s with pwr := if get s fld.pwrMode.MODE = 4 then { s.pwr with selfRef := false, memAt := s.ot } else s.pwr }

/-- Frame memory written: the bytes hold good data from then on. -/
def fmemPut (a : Nat) (bs : List Byte) (s : State) : State :=
  let t := wakeMem s
  { t with fmem := memWrite s.fmem a bs, fbad := s.fbad.filter (fun x => decide (x < a) || decide (a + bs.length ≤ x)) }

/-- A range of frame memory filled with zeros. -/
def fmemZero (a n : Nat) (s : State) : State :=
  let t := wakeMem s
  { t with fmem := memZero s.fmem a n, fbad := s.fbad.filter (fun x => decide (x < a) || decide (a + n ≤ x)) }

/-- Whether a byte range of frame memory holds a poisoned word or one that fails ECC (R55). -/
def memBad (s : State) (a n : Nat) : Bool := s.fbad.any (fun x => decide (a ≤ x) && decide (x < a + n))

/-! ## Counters (R363, R364) -/

/-- An event counter increased. -/
def count (idx n : Nat) (s : State) : State :=
  { s with cnt := Map.set (fun _ => 0) s.cnt idx (Map.get (fun _ => 0) s.cnt idx + BitVec.ofNat 48 n) }

/-- The value of an event counter. -/
def counter (s : State) (idx : Nat) : BitVec 48 := Map.get (fun _ => 0) s.cnt idx

/-- Indices of Table 13-7. -/
inductive Cnt where
  | taskFault | taskDemote | frozenStore | tileRepeat | cancelRefused | vatFull | commitMiss | unfinishedTile
  | squash | inputLogFull | lateLine | glazeLate | glazeData | mordRefused | glazePx | statRx | statErr | nodeMiss
  | seqGap | repair | proofSent | proofSkip | kills | nodeLost | pixTx | latchTx | sacnTx | dmxTx | sampleRej
  | domLost | tsLost | launchDrop | launchSend | accessDenied | semBadRel | semForced | evtDrop | poison | dmaFault
  | retireWrite | cmdErr | takeovers | lapses | diverges | copyAbort | twinWrRefused | journalTx | bistRuns
  | bistFail | bistAbort | bistCollide | rotSkip | tagTaken | tagLost | calClamp | otpErr | sacnSrcDrop | t1sColl
  | t1sExcess | t1sLateColl | dmxPkt | rdmTimeout | rdmErr
deriving DecidableEq, Repr

/-- A named counter increased by one. -/
def bump (c : Cnt) (s : State) : State := count c.ctorIdx 1 s

/-- Counter `k` of Ethernet port `p` (Table 13-7). -/
def ethCnt (p k : Nat) : Nat := 128 + 15 * p + k
/-- Counter `k` of 10BASE-T1S port `t`. -/
def t1sCnt (t k : Nat) : Nat := 368 + 4 * t + k

/-- The free values consumed so far move on by one (log 3). -/
def draw (s : State) : State := { s with free := s.free + 1 }

/-! ## Ownership -/

/-- The function that owns a context (R110). -/
def ctxOwner (s : State) (c : Nat) : Nat := get s fld.ctxCtrl.OWNER c

/-- The number that stands for the service programs of cluster 0 as the source of a register access, while SCHED.SVC = 1
(log 13). It is no PCIe function and owns nothing. -/
def svcFn : Nat := 32

/-- Whether a function exists (R272), or the source of an access is a service program. -/
def fnExists (s : State) (f : Nat) : Bool := s.hst.fnPresent.contains f || (f == svcFn && on s fld.sched.SVC)

/-- Whether a function is physical; a service program sees what a physical function sees. -/
def isPf (f : Nat) : Bool := f == 0 || f == 16 || f == svcFn

/-- The context whose view holds an endpoint entry (R174). -/
def viewOwnerFrom (s : State) (e : Nat) : Nat → Option Nat
  | 0 => none
  | n + 1 =>
    match viewOwnerFrom s e n with
    | some c => some c
    | none =>
      let b := get s fld.viewBase.VIEW_BASE n
      if b ≤ e && e < b + get s fld.viewN.VIEW_N n then some n else none

/-- The context whose view holds an endpoint entry (R174). -/
def viewOwner (s : State) (e : Nat) : Option Nat := viewOwnerFrom s e 128

/-- The context that owns a canvas (R117). -/
def canvasCtx (s : State) (c : Nat) : Nat := get s fld.canvasCtrl.CTX c

/-- Whether an allocation holds a byte range of frame memory. -/
def Alloc.holds (a : Alloc) (addr n : Nat) : Bool :=
  a.base * 1048576 ≤ addr && addr + n ≤ (a.base + a.size) * 1048576

/-- The allocation that holds a byte range. -/
def allocAt (s : State) (addr n : Nat) : Option Alloc := s.hst.allocs.find? (fun a => a.holds addr n)

/-! ## Rings (R282 to R287) -/

/-- Entries of a ring. -/
def ringSize (s : State) (r : Nat) : Nat := 2 ^ get s fld.ringCtrl.LOG2SZ r

/-- Occupied entries (R283). -/
def ringOcc (s : State) (r : Nat) : Nat :=
  (get s fld.ringTail.TAIL r + ringSize s r - get s fld.ringHead.HEAD r) % ringSize s r

/-- Host address of an entry. -/
def ringAddr (s : State) (r idx : Nat) : Nat :=
  get s fld.ringBaseLo.BASE_LO r + 2 ^ 32 * get s fld.ringBaseHi.BASE_HI r + 32 * idx

/-- Whether a ring runs with a kind. -/
def ringRuns (s : State) (r kind : Nat) : Bool := on s fld.ringCtrl.EN r && get s fld.ringCtrl.KIND r == kind

/-- Whether one more entry fits: one entry stays unused (R283). -/
def ringRoom (s : State) (r : Nat) : Bool := ringOcc s r + 1 < ringSize s r

/-- Whether a CPL ring takes a record for a function (R284). -/
def cplTakes (s : State) (r fn : Nat) : Bool :=
  ringRuns s r 1 && get s fld.ringCtrl.FN r == fn && ringRoom s r

/-- Whether a rise of the occupancy crosses the ring's level (R287). -/
def crosses (before after level : Nat) : Bool := decide (before < level ∧ level ≤ after)

/-- Words as little-endian bytes. -/
def wordBytes (ws : List W32) : List Byte := ws.flatMap (fun w => leBytes 4 w.toNat)

/-- The words of a ring's next record that fail their parity when they are read from the hardware queue (R286). -/
def parityOf (s : State) (r : Nat) : Byte := Map.get (fun _ => 0) s.hst.parity r

/-- A record as it is written to host memory: a word that fails parity is written as 0xFFFF_FFFF (Table 10-3). -/
def poisonWords (bad : Byte) (ws : List W32) : List W32 :=
  ws.zipIdx.map (fun x => if bad.getLsbD x.2 then 0xFFFFFFFF else x.1)

/-- A poisoned word of a ring counted, with its status (R286). -/
def notePoison (r : Nat) (s : State) : State :=
  setBit fld.ringStatus.RING_STATUS 2 (setBit fld.hostStatus.HOST_STATUS 1 (bump .poison s)) r

/-- The parity of a ring's record judged as it leaves the queue. -/
def judgeParity (r : Nat) (s : State) : State :=
  if parityOf s r = 0 then s
  else notePoison r { s with hst := { s.hst with parity := Map.del s.hst.parity r } }

/-- A record written at TAIL, TAIL advanced and written back (R283, R286). -/
def ringAppend (r : Nat) (ws : List W32) (s : State) : State :=
  let fn := get s fld.ringCtrl.FN r
  let t := get s fld.ringTail.TAIL r
  let ws := if parityOf s r = 0 then ws else poisonWords (parityOf s r) ws
  let s := hmemPut fn (ringAddr s r t) (wordBytes ws) (judgeParity r s)
  let s := put fld.ringTail.TAIL ((t + 1) % ringSize s r) s r
  hmemPut fn (get s fld.ringWbLo.WB_LO r + 2 ^ 32 * get s fld.ringWbHi.WB_HI r)
    (leBytes 4 ((t + 1) % ringSize s r)) s

/-! ## Events (R300, R374) -/

/-- The kind of instance that an event concerns, which decides who receives it (R300, Table 14-4). -/
inductive Subject where
  | ring | sem | layer | ctx | canvas | group | endpoint | none
deriving DecidableEq, Repr

/-- The subject of an event number. -/
def subjectOf (ev : Nat) : Subject :=
  if ev ≤ 3 || ev == 9 then .ring
  else if ev == 4 || ev == 5 then .sem
  else if ev == 6 then .layer
  else if ev == 7 || (17 ≤ ev && ev ≤ 21) then .ctx
  else if (32 ≤ ev && ev ≤ 37) || ev == 39 || (48 ≤ ev && ev ≤ 50) || ev == 99 then .canvas
  else if ev == 53 then .group
  else if ev == 52 || (54 ≤ ev && ev ≤ 57) || ev == 59 || ev == 61 then .endpoint
  else .none

/-- Whether a function owns the instance of an event. -/
def ownsSubject (s : State) (ev detail f : Nat) : Bool :=
  match subjectOf ev with
  | .ring => get s fld.ringCtrl.FN detail == f
  | .sem => on s fld.sem.HELD detail && get s fld.sem.OWNER detail == f
  | .layer => on s fld.layerStatus.VALID detail && ctxOwner s (get s fld.layerStatus.CTX detail) == f
  | .ctx => ctxOwner s detail == f
  | .canvas => ctxOwner s (canvasCtx s detail) == f
  | .group => ctxOwner s (get s fld.kg.CTX detail) == f
  | .endpoint =>
    match viewOwner s detail with
    | some c => ctxOwner s c == f
    | none => false
  | .none => false

/-- Whether the route of an event is live for a function: EN, and an EVT ring that the function owns (R300). -/
def routeLive (s : State) (f ev : Nat) : Bool :=
  on s fld.route.EN f ev && fnExists s f
    && get s fld.ringCtrl.KIND (get s fld.route.RING f ev) == 2
    && get s fld.ringCtrl.FN (get s fld.route.RING f ev) == f

/-- Whether an event reaches a function (R300). -/
def delivers (s : State) (ev detail f : Nat) : Bool :=
  routeLive s f ev && (isPf f || ownsSubject s ev detail f)

/-- The event record (Table 10-7). -/
def eventRecord (s : State) (f ev detail : Nat) : List W32 :=
  [BitVec.ofNat 32 (ev % 128 + 65536 * (Map.get (fun _ => 0) s.hst.evSeq f % 65536)),
   BitVec.ofNat 32 s.ot.toNat, BitVec.ofNat 32 (s.ot.toNat / 2 ^ 32), BitVec.ofNat 32 detail, 0, 0, 0, 0]

/-- Whether a function has an MSI-X vector: a physical function 0 to 127, a virtual function 0 to 31 (R300). -/
def hasVector (f v : Nat) : Bool := if isPf f then decide (v < 128) else decide (v < 32)

/-- The key of a word of a function's MSI-X table, by its BAR4 offset ÷ 4. -/
def msixKey (f w : Nat) : Nat := f * 2 ^ 20 + w

/-- What a word of an MSI-X table reads as before it is written: a vector is masked (Table 14-3, log 9). -/
def msixDefault (k : Nat) : W32 := if k % 4 = 3 then 1 else 0

/-- Whether a vector is masked by its own mask bit or by the Function Mask. -/
def vectorMasked (s : State) (f v : Nat) : Bool :=
  (Map.get msixDefault s.hst.msixTab (msixKey f (4 * v + 3))).getLsbD 0
    || (Map.get (fun _ => 0) s.hst.msixCtl f).testBit 14

/-- A vector signalled: a message where it is not masked, else its pending bit; nothing while MSI-X is not enabled
(R300). -/
def signalVector (f v : Nat) (s : State) : State :=
  if !hasVector f v || !(Map.get (fun _ => 0) s.hst.msixCtl f).testBit 15 then s
  else if vectorMasked s f v then
    { s with hst := { s.hst with msixPend := s.hst.msixPend.filter (fun x => x != (f, v)) ++ [(f, v)] } }
  else { s with hst := { s.hst with msix := s.hst.msix ++ [(f, v)] } }

/-- The record written into a ring that has room, with the sequence number and the vector (R300). -/
def deliverTo (f ev detail : Nat) (s : State) : State :=
  let r := get s fld.route.RING f ev
  let s' := ringAppend r (eventRecord s f ev detail) s
  let h := s'.hst
  let s' := { s' with hst := { h with
      evSeq := Map.set (fun _ => 0) h.evSeq f ((Map.get (fun _ => 0) h.evSeq f + 1) % 65536) } }
  if on s fld.route.MSIX f ev then signalVector f (get s fld.route.VECTOR f ev) s' else s'

/-- DETAIL of an event without an instance. -/
def noDetail : Nat := 0xFFFFFFFF

/-- An event raised: each function it reaches gets a record, or the record is dropped where its EVT ring is full
(R284); the level and overflow events that follow are raised in turn, to the depth `fuel`. -/
def raiseF : Nat → Nat → Nat → State → State
  | 0, _, _, s => s
  | fuel + 1, ev, detail, s =>
    (List.range 32).foldl (fun t f =>
      if delivers t ev detail f && on t fld.ringCtrl.EN (get t fld.route.RING f ev) then
        let r := get t fld.route.RING f ev
        if ringRoom t r then
          let t' := deliverTo f ev detail t
          let u := if crosses (ringOcc t r) (ringOcc t' r) (get t fld.ringLevel.RING_LEVEL r) then
              raiseF fuel 0 r (setBit fld.ringStatus.RING_STATUS 0 t' r)
            else t'
          if parityOf t r = 0 then u else raiseF fuel 10 noDetail u
        else if ev == 2 then t
        else raiseF fuel 2 r (setBit fld.ringStatus.RING_STATUS 1 (bump .evtDrop t) r)
      else t) s

/-- An event raised with its DETAIL (R374). -/
def raise (ev detail : Nat) (s : State) : State := raiseF 64 ev detail s

/-- An event raised that names no instance. -/
def raise0 (ev : Nat) (s : State) : State := raise ev noDetail s

/-- A record produced on a ring that has room, with its level (R283, R287). -/
def ringProduce (r : Nat) (ws : List W32) (s : State) : State :=
  let s' := ringAppend r ws s
  let u := if crosses (ringOcc s r) (ringOcc s' r) (get s fld.ringLevel.RING_LEVEL r) then
      raise 0 r (setBit fld.ringStatus.RING_STATUS 0 s' r)
    else s'
  if parityOf s r = 0 then u else raise0 10 u

/-- Slow time moved on by nanoseconds (R341): it counts 1/32,768 s, kept here in 1/64 ns. -/
def slowOn (ns : Nat) (s : State) : State := { s with pwr := { s.pwr with slow := s.pwr.slow + 64 * ns } }

/-- Outward time moved forward to an instant that an event is fixed to, and slow time with it (log 2). -/
def advance (t : W64) (s : State) : State :=
  if timeDiff t s.ot > 0 then slowOn (timeDiff t s.ot).toNat { s with ot := t, otFrac := 0 } else s

end Sys2Proof.Machine
end

