-- ==== Sys2Proof/Machine/Flags.lean ====
section
/-!
DEFINITION. Predicates: what a predicate register lets an instruction do (R34), and the predicate bits that the
compares compute (R64, R65, R86, R87).
-/

namespace Sys2Proof.Machine

/-- Lane numbers. -/
def lanes : List Nat := List.range 16

/-- Bit `i` of a predicate value. -/
def pbit (p : W16) (i : Nat) : Bool := p.getLsbD i

/-- The predicate of the bits that a function of the lane gives. -/
def predOf (f : Nat → Bool) : W16 := BitVec.ofNat 16 (lanes.foldl (fun a i => if f i then a + 2 ^ i else a) 0)

/-- Compare results in the active lanes; the bits of inactive lanes stay (R64). -/
def predMerge (mask old : W16) (f : Nat → Bool) : W16 := predOf (fun i => if pbit mask i then f i else pbit old i)

/-- Whether a scalar operation executes under a predicate: p0, or a predicate that is not zero (R34). -/
def predRuns (p : BitVec 3) (v : W16) : Bool := p == 0 || v != 0

/-- The integer compares of a lane at a type: 0 equal, 1 less, 2 less or equal (R64). -/
def cmpLane (op t : Nat) (a b : W32) : Bool :=
  match op with
  | 0 => laneInt t a == laneInt t b
  | 1 => decide (laneInt t a < laneInt t b)
  | _ => decide (laneInt t a ≤ laneInt t b)

/-- The float compares of a lane: 0 equal, 1 less, 2 less or equal; false with a NaN (R65). -/
def fcmpLane (op : Nat) (f : FFmt) (a b : W32) : Bool :=
  match op with
  | 0 => feq f (a.toNat % 2 ^ f.width) (b.toNat % 2 ^ f.width)
  | 1 => flt f (a.toNat % 2 ^ f.width) (b.toNat % 2 ^ f.width)
  | _ => fle f (a.toNat % 2 ^ f.width) (b.toNat % 2 ^ f.width)

/-- The compare conditions of branches (Table 3-14): 0 equal, 1 not equal, 2 less, 3 not less, signed; 4 less, 5 not
less, unsigned. -/
def branchCmp (op : Nat) (a b : W32) : Bool :=
  match op with
  | 0 => a == b
  | 1 => a != b
  | 2 => a.slt b
  | 3 => !a.slt b
  | 4 => a.ult b
  | _ => !a.ult b

end Sys2Proof.Machine
end

