-- ==== Sys2Proof/Machine/Operands.lean ====
section
/-!
DEFINITION. Operand forms of Quolasyn: the register files (Table 2-2), the fields that must be zero (R33, R59), and
the addresses of the four memory spaces (Table 2-5).
-/

namespace Sys2Proof.Machine

/-! ## Register files (R21, R22) -/

/-- A scalar register; s0 reads zero. -/
def sreg (t : Task) (n : BitVec 5) : W32 := if n = 0 then 0 else Map.get (fun _ => 0) t.sregs n.toNat

/-- A scalar register written; a write to s0 is discarded (R21). -/
def setS (n : BitVec 5) (v : W32) (t : Task) : Task :=
  if n = 0 then t else { t with sregs := Map.set (fun _ => 0) t.sregs n.toNat v }

/-- Lane `i` of vector register `r`. -/
def lane (t : Task) (r i : Nat) : W32 := Map.get (fun _ => 0) t.vregs (16 * r + i)

/-- A lane written. -/
def setLane (r i : Nat) (v : W32) (t : Task) : Task :=
  { t with vregs := Map.set (fun _ => 0) t.vregs (16 * r + i) v }

/-- A predicate register; p0 reads 0xFFFF. -/
def preg (t : Task) (n : Nat) : W16 := if n % 8 = 0 then 0xFFFF else Map.get (fun _ => 0) t.pregs (n % 8)

/-- A predicate register written; a write to p0 is discarded (R21). -/
def setP (n : Nat) (v : W16) (t : Task) : Task :=
  if n % 8 = 0 then t else { t with pregs := Map.set (fun _ => 0) t.pregs (n % 8) v }

/-- The predicate value an instruction names. -/
def maskOf (t : Task) (f : F) : W16 := preg t f.p.toNat

/-- The active lanes under an instruction's predicate. -/
def activeLanes (t : Task) (f : F) : List Nat := lanes.filter (pbit (maskOf t f))

/-- Values written to the active lanes of a register, read from the task as it was before (R59). -/
def writeLanes (f : F) (r : Nat) (val : Nat → W32) (t : Task) : Task :=
  (activeLanes t f).foldl (fun u i => setLane r i (val i) u) t

/-! ## Fields that must be zero (R33, R59) -/

/-- Format A without a third source: the immediate is zero. -/
def immZero (f : F) : Bool := f.imm == 0
/-- Format A with a third source c in imm[4:0]; the rest of the immediate is zero. -/
def immC (f : F) : Bool := decide (f.imm.toNat < 32)
/-- The third source register. -/
def cField (f : F) : BitVec 5 := BitVec.ofNat 5 f.imm.toNat
/-- A field that names a predicate register. -/
def isPredF (n : BitVec 5) : Bool := decide (n.toNat < 8)
/-- A four-register group operand. -/
def isGroup (n : BitVec 5) : Bool := n.toNat % 4 == 0
/-- A pair operand. -/
def isPair (n : BitVec 5) : Bool := n.toNat % 2 == 0

/-! ## Memory spaces (Table 2-5) -/

/-- An exception: its code (Table 2-14) and cr.exinfo. -/
structure Exc where
  code : Nat
  info : W32
deriving DecidableEq, Repr

/-- A byte offset or address as cr.exinfo reports it. -/
def infoOf (x : Int) : W32 := BitVec.ofInt 32 x

/-- `s[a] + imm`, with s[a] zero-extended and imm sign-extended. -/
def baseOff (t : Task) (a : BitVec 5) (imm : W32) : Int := ((sreg t a).toNat : Int) + imm.toInt

/-- ALIGN or MEM_FAULT over the offsets of the active lanes, the lowest lane first within a cause (R56). -/
def checkElems (offs : List Int) (size : Nat) (inside : Int → Bool) : Option Exc :=
  match offs.find? (fun o => decide (o % (size : Int) ≠ 0)) with
  | some o => some ⟨3, infoOf o⟩
  | none =>
    match offs.find? (fun o => !inside o) with
    | some o => some ⟨4, infoOf o⟩
    | none => none

/-- Whether an element lies in `len` bytes. -/
def within (len size : Nat) (o : Int) : Bool := decide (0 ≤ o) && decide (o + size ≤ len)

/-- A scratch byte: a byte that this run has not written is free. -/
def scratchGet (t : Task) (o : Nat) : Byte :=
  match Map.find? t.scratch o with
  | some b => b
  | none => Config.scratchByte t.desc o

/-- Bytes written into a byte table of a task. -/
def bytesPut (m : Map Byte) (o : Nat) : List Byte → Map Byte
  | [] => m
  | b :: bs => bytesPut (Map.put m o b) (o + 1) bs

/-- `n` scratch bytes as a number. -/
def scratchNat (t : Task) (o n : Nat) : Nat := ofLe ((List.range n).map (fun k => scratchGet t (o + k)))

/-- Scratch bytes written. -/
def scratchPut (o : Nat) (bs : List Byte) (t : Task) : Task := { t with scratch := bytesPut t.scratch o bs }

/-! ## Descriptor fields (Table 4-2) -/

/-- Word `k` of a descriptor. -/
def dw (d : List W32) (k : Nat) : Nat := (d.getD k 0).toNat

/-- PRIO. -/
def dPrio (d : List W32) : Nat := bitsOf (dw d 0) 0 4
/-- CLASS: true for FIRM. -/
def dFirm (d : List W32) : Bool := bitsOf (dw d 0) 4 1 == 1
/-- NOAFF. -/
def dNoaff (d : List W32) : Bool := bitsOf (dw d 0) 5 1 == 1
/-- CPL. -/
def dCpl (d : List W32) : Bool := bitsOf (dw d 0) 6 1 == 1
/-- CANVAS. -/
def dCanvas (d : List W32) : Nat := bitsOf (dw d 0) 8 8
/-- CTX. -/
def dCtx (d : List W32) : Nat := bitsOf (dw d 0) 16 7
/-- EMODE. -/
def dEmode (d : List W32) : Nat := bitsOf (dw d 0) 24 2
/-- PROG. -/
def dProg (d : List W32) : Nat := bitsOf (dw d 1) 0 10
/-- STEPS. -/
def dSteps (d : List W32) : Nat := bitsOf (dw d 1) 12 20
/-- Tile column. -/
def dCol (d : List W32) : Nat := dw d 3 % 65536
/-- Tile row. -/
def dRow (d : List W32) : Nat := dw d 3 / 65536
/-- Reserved fields of a descriptor that must be zero (R94). -/
def dReservedZero (d : List W32) : Bool :=
  bitsOf (dw d 0) 7 1 == 0 && bitsOf (dw d 0) 23 1 == 0 && bitsOf (dw d 0) 26 6 == 0 && dEmode d != 3
    && bitsOf (dw d 1) 10 2 == 0

/-- A descriptor with its CTX replaced (R93). -/
def withCtx (d : List W32) (c : Nat) : List W32 := BitVec.ofNat 32 (withBits (dw d 0) 16 7 c) :: d.drop 1
/-- A descriptor with its TILE replaced. -/
def withTile (d : List W32) (row col : Nat) : List W32 :=
  d.take 3 ++ [BitVec.ofNat 32 (row % 65536 * 65536 + col % 65536)] ++ d.drop 4
/-- A descriptor with its CANVAS replaced. -/
def withCanvas (d : List W32) (c : Nat) : List W32 := BitVec.ofNat 32 (withBits (dw d 0) 8 8 c) :: d.drop 1
/-- A descriptor with ARG0 replaced. -/
def withArg0 (d : List W32) (v : W32) : List W32 := d.take 4 ++ [v] ++ d.drop 5

/-! ## Tiles (R116) -/

/-- Tile columns of a canvas. -/
def tileCols (s : State) (c : Nat) : Nat :=
  let w := get s fld.canvasWidth.WIDTH c
  let tw := get s fld.canvasTile.TW c
  (w + tw - 1) / tw
/-- Tile rows of a canvas. -/
def tileRows (s : State) (c : Nat) : Nat :=
  let h := get s fld.canvasHeight.HEIGHT c
  let th := get s fld.canvasTile.TH c
  (h + th - 1) / th
/-- Left edge of a tile column. -/
def tileX (s : State) (c col : Nat) : Nat := col * get s fld.canvasTile.TW c
/-- Top edge of a tile row. -/
def tileY (s : State) (c row : Nat) : Nat := row * get s fld.canvasTile.TH c
/-- True width of a tile column: the last may be narrower. -/
def tileW (s : State) (c col : Nat) : Nat :=
  Nat.min (get s fld.canvasTile.TW c) (get s fld.canvasWidth.WIDTH c - tileX s c col)
/-- True height of a tile row. -/
def tileH (s : State) (c row : Nat) : Nat :=
  Nat.min (get s fld.canvasTile.TH c) (get s fld.canvasHeight.HEIGHT c - tileY s c row)

/-- Number of a tile in row-major order. -/
def tileNo (s : State) (c row col : Nat) : Nat := row * tileCols s c + col

/-- Frame-memory address of a slot (R117). -/
def slotAddr (s : State) (c slot : Nat) : Nat :=
  get s fld.vatBase.VAT_BASE c * 256 + slot * (get s fld.vatSize.STRIDE c * 256)

/-- Frame-memory address of a byte of a tile, by its dense offset (R29). -/
def tileAddr (s : State) (c slot row col o : Nat) : Nat :=
  let line := tileW s c col * 8
  slotAddr s c slot + ((tileY s c row + o / line) * get s fld.canvasWidth.WIDTH c + tileX s c col) * 8 + o % line

/-- Bytes of the task's output tile: none for a task with no canvas. -/
def tileLen (s : State) (t : Task) : Nat :=
  match t.canvas with
  | some c => tileW s c (dCol t.desc) * tileH s c (dRow t.desc) * 8
  | none => 0

/-- The record of an epoch of a canvas, while it holds a slot. -/
def epochRec (s : State) (c : Nat) (e : W32) : Option EpochRec :=
  match Map.find? s.vat.canvases c with
  | some v => v.epochs.find? (fun r => r.epoch == e)
  | none => none

/-- A byte of the task's output tile: staged if the run has written it, else what the slot holds. -/
def outGet (s : State) (t : Task) (o : Nat) : Byte :=
  match Map.find? t.staged o, t.canvas, t.epoch with
  | some b, _, _ => b
  | none, some c, some e =>
    match epochRec s c e with
    | some r => memGet s.fmem (tileAddr s c r.slot (dRow t.desc) (dCol t.desc) o)
    | none => 0
  | none, _, _ => 0

end Sys2Proof.Machine
end

