-- ==== Sys2Proof/Machine/Clock.lean ====
section
/-!
DEFINITION. Frame clocks: rates, grids, frame instants, latch and commit instants (R15, R118, R229, R230, R389).
-/

namespace Sys2Proof.Machine

/-- The numerator and denominator of a rate code (Table 8-5); none for a reserved code (R15). -/
def rateOf (code : Nat) : Option (Nat × Nat) :=
  match code with
  | 1 => some (24000, 1001)
  | 2 => some (24, 1)
  | 3 => some (25, 1)
  | 4 => some (30000, 1001)
  | 5 => some (30, 1)
  | 6 => some (48000, 1001)
  | 7 => some (48, 1)
  | 8 => some (50, 1)
  | 9 => some (60000, 1001)
  | 10 => some (60, 1)
  | 11 => some (72, 1)
  | 12 => some (96, 1)
  | 13 => some (100, 1)
  | 14 => some (120000, 1001)
  | 15 => some (120, 1)
  | 16 => some (144, 1)
  | 17 => some (200, 1)
  | 18 => some (240000, 1001)
  | 19 => some (240, 1)
  | _ => none

/-- A rate with 60 Hz where the code is reserved, which no frame clock in force holds (R229). -/
def rateD (code : Nat) : Nat × Nat := (rateOf code).getD (60, 1)

/-- PERIOD_NS of a rate code, to the nearest nanosecond (R229). -/
def periodOf (code : Nat) : Nat := (2 * (rateD code).2 * 1000000000 + (rateD code).1) / (2 * (rateD code).1)

/-- A grid instant G(k) (R230). -/
def gridInst (rate phase k : Nat) : Nat := k * (rateD rate).2 * 1000000000 / (rateD rate).1 + phase

/-- The smallest grid index whose instant is at or after `t`. -/
def gridAt (rate phase t : Nat) : Nat :=
  if t ≤ phase then 0
  else ((t - phase) * (rateD rate).1 + (rateD rate).2 * 1000000000 - 1) / ((rateD rate).2 * 1000000000)

/-- A stretch's grid instant of a frame number, as the number that G(k) is before outward time wraps it (R209, R230). -/
def ClockSeg.grid (g : ClockSeg) (n : W64) : Nat := gridInst g.rate g.phase (n + g.fbase).toNat

/-- A stretch's instant of a frame number. -/
def ClockSeg.inst (g : ClockSeg) (n : W64) : W64 := BitVec.ofNat 64 (g.grid n)

/-- The stretch that a frame number belongs to: the last whose first frame is at or before it. -/
def segOf (n : W64) : List ClockSeg → Option ClockSeg
  | [] => none
  | [g] => some g
  | g :: h :: r => if timeDiff n h.start ≥ 0 then segOf n (h :: r) else some g

/-- The frame instant I(n) (R230). -/
def FClock.inst (c : FClock) (n : W64) : W64 :=
  match segOf n c.segs with
  | some g => g.inst n
  | none => 0

/-- The grid instant of a frame number, before outward time wraps it. -/
def FClock.grid (c : FClock) (n : W64) : Nat :=
  match segOf n c.segs with
  | some g => g.grid n
  | none => 0

/-- An outward time as the number on the grid that it stands for: that at the signed 64-bit distance from the clock's next
frame instant, so that a wrap of the count does not matter (R209). -/
def FClock.onGrid (c : FClock) (t : W64) : Nat :=
  let r := c.grid (c.seen + 1)
  ((r : Int) + timeDiff t (BitVec.ofNat 64 r)).toNat

/-- The smallest frame number whose grid instant is at or after `t`, over the stretches in order. -/
def frameFrom (t : Nat) : List ClockSeg → W64
  | [] => 0
  | [g] => BitVec.ofNat 64 (gridAt g.rate g.phase t) - g.fbase
  | g :: h :: r =>
    let n := BitVec.ofNat 64 (gridAt g.rate g.phase t) - g.fbase
    if timeDiff n h.start ≥ 0 then
      (let m := frameFrom t (h :: r)
       if timeDiff m h.start < 0 then h.start else m)
    else n

/-- The smallest frame number whose instant is strictly later than an outward time (R389). -/
def FClock.next (c : FClock) (t : W64) : W64 := frameFrom (c.onGrid t + 1) c.segs

/-- The smallest frame number whose instant is at or after an outward time. -/
def FClock.from_ (c : FClock) (t : W64) : W64 := frameFrom (c.onGrid t) c.segs

/-- The newest frame at or before the present outward time. -/
def FClock.cur (c : FClock) (t : W64) : W64 := c.next t - 1

/-- The frame number whose low 32 bits are an epoch and whose instant is nearest the present (R230). -/
def FClock.ofEpoch (c : FClock) (t : W64) (e : W32) : W64 :=
  c.cur t + BitVec.ofInt 64 (epochDiff e (BitVec.ofNat 32 (c.cur t).toNat))

/-- The frame clock that a canvas is bound to, in force. -/
def canvasFc (s : State) (c : Nat) : Nat := eff s fld.canvasCtrl.FC c

/-- A running frame clock. -/
def fclock (s : State) (n : Nat) : Option FClock := Map.find? s.tim.fcs n

/-- The rate code of a frame clock in force: that of the stretch the present frame belongs to. -/
def rateInForce (s : State) (n : Nat) : Nat :=
  match fclock s n with
  | some c =>
    (match segOf (c.cur s.ot) c.segs with
     | some g => g.rate
     | none => get s fld.fcCtrl.RATE n)
  | none => get s fld.fcCtrl.RATE n

/-- The frame period of a frame clock in force, in nanoseconds. -/
def fcPeriod (s : State) (n : Nat) : Nat := periodOf (rateInForce s n)

/-- The latch instant L(E) of an epoch of a frame clock (R118); zero while the clock is stopped. -/
def instOf (s : State) (n : Nat) (e : W32) : W64 :=
  match fclock s n with
  | some c => c.inst (c.ofEpoch s.ot e)
  | none => 0

/-- The latch instant of an epoch of a canvas: that of its record while it holds a slot. -/
def latchOf (s : State) (c : Nat) (e : W32) : W64 :=
  match epochRec s c e with
  | some r => r.latch
  | none => instOf s (canvasFc s c) e

/-- The frame period of the stretch that an epoch of a frame clock belongs to. -/
def periodAt (s : State) (n : Nat) (e : W32) : Nat :=
  match fclock s n with
  | some f =>
    (match segOf (f.ofEpoch s.ot e) f.segs with
     | some g => periodOf g.rate
     | none => fcPeriod s n)
  | none => fcPeriod s n

/-- The lead of an epoch of a canvas: COMMIT_LEAD, or one frame period where it is zero (R118). -/
def leadOf (s : State) (c : Nat) (e : W32) : Nat :=
  let l := eff s fld.commitLead.COMMIT_LEAD c
  if l = 0 then periodAt s (canvasFc s c) e else l

/-- The commit instant C(E) (R118). -/
def commitInst (s : State) (c : Nat) (e : W32) : W64 := latchOf s c e - BitVec.ofNat 64 (leadOf s c e)

/-- The instant at which the LATCH of an epoch leaves (R118). DESIGN CHOICE (log 105): a new LATCH_GUARD taken in step 1 of a
commit counts for the LATCH of the epoch that this commit commits, whose LATCH leaves after step 2 (R140). -/
def guardInst (s : State) (c : Nat) (e : W32) : W64 :=
  latchOf s c e - BitVec.ofNat 64 (eff s fld.latchGuard.LATCH_GUARD c)

/-- The first epoch of a frame clock whose instant is at or after a time. -/
def epochAtOrAfter (s : State) (n : Nat) (t : W64) : W32 :=
  match fclock s n with
  | some c => BitVec.ofNat 32 (c.from_ t).toNat
  | none => 0

end Sys2Proof.Machine
end

