-- ==== Sys2Proof/Machine/Inputs.lean ====
section
/-!
DEFINITION. Reading inputs and the endpoint table: the fields of an endpoint entry (Table 7-1), snapshots, input IDs
(R31), input values and versions at an epoch (R37, R80, R388), killed regions (R199).
-/

namespace Sys2Proof.Machine

/-! ## Endpoint entries (Table 7-1) -/

/-- A word of an entry in a table keyed by `16 × entry + word`. -/
def ew (m : Map W32) (e k : Nat) : Nat := (Map.get (fun _ => 0) m (16 * e + k)).toNat

/-- VALID. -/
def eValid (m : Map W32) (e : Nat) : Bool := ew m e 0 % 2 == 1
/-- TRANSPORT. -/
def eTransport (m : Map W32) (e : Nat) : Nat := bitsOf (ew m e 0) 1 2
/-- PORT. -/
def ePort (m : Map W32) (e : Nat) : Nat := bitsOf (ew m e 0) 3 5
/-- CANVAS. -/
def eCanvas (m : Map W32) (e : Nat) : Nat := bitsOf (ew m e 0) 8 6
/-- IPV6. -/
def eIpv6 (m : Map W32) (e : Nat) : Bool := bitsOf (ew m e 0) 14 1 == 1
/-- PROOF_EN. -/
def eProofEn (m : Map W32) (e : Nat) : Bool := bitsOf (ew m e 0) 15 1 == 1
/-- DRV_EN. -/
def eDrvEn (m : Map W32) (e : Nat) : Bool := bitsOf (ew m e 0) 16 1 == 1
/-- OUTPUT. -/
def eOutput (m : Map W32) (e : Nat) : Nat := bitsOf (ew m e 0) 24 8
/-- X. -/
def eX (m : Map W32) (e : Nat) : Nat := bitsOf (ew m e 1) 0 17
/-- SCAN. -/
def eScan (m : Map W32) (e : Nat) : Nat := bitsOf (ew m e 1) 17 3
/-- Y. -/
def eY (m : Map W32) (e : Nat) : Nat := bitsOf (ew m e 2) 0 16
/-- MIN_PROOF. -/
def eMinProof (m : Map W32) (e : Nat) : Nat := bitsOf (ew m e 2) 16 16
/-- W. -/
def eW (m : Map W32) (e : Nat) : Nat := bitsOf (ew m e 3) 0 13
/-- H. -/
def eH (m : Map W32) (e : Nat) : Nat := bitsOf (ew m e 3) 16 13
/-- NODE. -/
def eNode (m : Map W32) (e : Nat) : Nat := ew m e 4
/-- KILLG. -/
def eKillg (m : Map W32) (e : Nat) : Nat := bitsOf (ew m e 5) 0 12
/-- THERM. -/
def eTherm (m : Map W32) (e : Nat) : Nat := bitsOf (ew m e 5) 12 8
/-- DERATE_EN. -/
def eDerateEn (m : Map W32) (e : Nat) : Bool := bitsOf (ew m e 5) 20 1 == 1
/-- MAT_EN. -/
def eMatEn (m : Map W32) (e : Nat) : Bool := bitsOf (ew m e 5) 21 1 == 1
/-- LUT_EN. -/
def eLutEn (m : Map W32) (e : Nat) : Bool := bitsOf (ew m e 5) 22 1 == 1
/-- MAT. -/
def eMat (m : Map W32) (e : Nat) : Nat := bitsOf (ew m e 6) 0 12
/-- LUT. -/
def eLut (m : Map W32) (e : Nat) : Nat := bitsOf (ew m e 6) 12 6
/-- BITS. -/
def eBits (m : Map W32) (e : Nat) : Nat := bitsOf (ew m e 6) 18 5
/-- DITHER. -/
def eDither (m : Map W32) (e : Nat) : Nat := bitsOf (ew m e 6) 23 2
/-- PACK. -/
def ePack (m : Map W32) (e : Nat) : Nat := bitsOf (ew m e 6) 25 4
/-- VID. -/
def eVid (m : Map W32) (e : Nat) : Nat := bitsOf (ew m e 7) 0 12
/-- PCP. -/
def ePcp (m : Map W32) (e : Nat) : Nat := bitsOf (ew m e 7) 12 3
/-- TAG. -/
def eTag (m : Map W32) (e : Nat) : Bool := bitsOf (ew m e 7) 15 1 == 1
/-- UDP_PORT. -/
def eUdp (m : Map W32) (e : Nat) : Nat := bitsOf (ew m e 7) 16 16
/-- Destination MAC. -/
def eMac (m : Map W32) (e : Nat) : Nat := ew m e 8 * 65536 + ew m e 9 % 65536
/-- IPv4 address, word 10. -/
def eIp4 (m : Map W32) (e : Nat) : Nat := ew m e 10
/-- IPv6 address, word 10 most significant. -/
def eIp6 (m : Map W32) (e : Nat) : Nat :=
  ew m e 10 * 2 ^ 96 + ew m e 11 * 2 ^ 64 + ew m e 12 * 2 ^ 32 + ew m e 13
/-- UNIV. -/
def eUniv (m : Map W32) (e : Nat) : Nat := bitsOf (ew m e 14) 0 13
/-- START. -/
def eStart (m : Map W32) (e : Nat) : Nat := bitsOf (ew m e 14) 16 9
/-- DRV. -/
def eDrv (m : Map W32) (e : Nat) : Nat := bitsOf (ew m e 15) 0 13

/-- The endpoints that a table holds as valid, in rising order. -/
def validEntries (m : Map W32) : List Nat :=
  (m.filter (fun x => x.1 % 16 == 0 && x.2.toNat % 2 == 1)).map (fun x => x.1 / 16)

/-- The valid endpoints of a canvas. -/
def canvasEntries (m : Map W32) (c : Nat) : List Nat := (validEntries m).filter (fun e => eCanvas m e == c)

/-- The published endpoint table as it stands, keyed by `16 × entry + word`. -/
def publishedEtab (s : State) : Map W32 :=
  (s.regs.filter (fun x => x.1 % 512 == RegId.etabWord.num)).map (fun x => (x.1 / 512, x.2))

/-- The views as they stand, keyed by `2 × context` (base) and `2 × context + 1` (count). -/
def currentViews (s : State) : Map W32 :=
  (List.range 128).flatMap (fun c =>
    (if rd s .viewBase c = 0 then [] else [(2 * c, rd s .viewBase c)]) ++
    (if rd s .viewN c = 0 then [] else [(2 * c + 1, rd s .viewN c)]))

/-- Whether an endpoint lies in a context's view of a table of views. -/
def inView (v : Map W32) (c e : Nat) : Bool :=
  let b := (Map.get (fun _ => 0) v (2 * c)).toNat
  decide (b ≤ e) && decide (e < b + (Map.get (fun _ => 0) v (2 * c + 1)).toNat)

/-! ## Snapshots (R173, R174) -/

/-- A canvas, with nothing released where it has no entry. -/
def canvasIdle : Canvas :=
  ⟨[], [], [], 0, 0, none, false, [], none, [], []⟩

/-- The state of a canvas. -/
def canvasOf (s : State) (c : Nat) : Canvas := Map.get (fun _ => canvasIdle) s.vat.canvases c

/-- A canvas's state replaced. -/
def setCanvas (c : Nat) (v : Canvas) (s : State) : State :=
  { s with vat := { s.vat with canvases := Map.put s.vat.canvases c v } }

/-- The snapshot in force for an epoch: the newest one at or before it, else the first (R174). -/
def snapIn (e : W32) : List Snap → Option Snap → Option Snap
  | [], best => best
  | x :: xs, best =>
    if epochDiff e x.epoch ≥ 0 then snapIn e xs (some x)
    else match best with
      | some b => some b
      | none => some x

/-- The endpoint-table snapshot of an epoch of a canvas: its own, else the one in force. -/
def snapAt (s : State) (c : Nat) (e : W32) : Snap :=
  match (canvasOf s c).snaps.find? (fun x => x.epoch == e) with
  | some x => x
  | none =>
    match snapIn e (canvasOf s c).snaps none with
    | some x => x
    | none => ⟨e, publishedEtab s, currentViews s⟩

/-! ## Input IDs (R31) -/

/-- The input epochs of a task: none for a task with no canvas (R37). A FIRM task that names a canvas but no epoch (EMODE
0b10) has no row in Table 2-10; DESIGN CHOICE (log 107): it reads as a task with no canvas does. -/
def taskInep (t : Task) : Option (Nat × W32) :=
  match t.canvas, t.epoch with
  | some c, some _ => some (c, t.inep)
  | _, _ => none

/-- The FIRM input epoch of Table 2-10: E − (N − 1) for a SPEC task, else the task's input epoch. -/
def firmInep (t : Task) : Option (Nat × W32) :=
  match t.canvas, t.epoch with
  | some c, some e => some (c, if t.firm then t.inep else e - BitVec.ofNat 32 (t.depth - 1))
  | _, _ => none

/-- The views a task sees: those of its input epoch, or the current ones without a canvas. -/
def taskViews (s : State) (t : Task) : Map W32 :=
  match taskInep t with
  | some (c, e) => (snapAt s c e).views
  | none => currentViews s

/-- Whether a task may still read a deleted layer: it was released before the deletion (R47; DEDUCED, log 101). -/
def holdsGone (g : GoneLayer) (t : Task) : Bool := t.ctx == g.layer.ctx && decide (t.id < g.before) && t.finishing.isNone

/-- The deleted layer that a number names for a task. -/
def goneFor (s : State) (t : Task) (n : Nat) : Option GoneLayer := s.hst.gone.find? (fun g => g.num == n && holdsGone g t)

/-- The input that an ID names for a task's context, if R31 admits it. -/
def inputKey (s : State) (t : Task) (id : W32) : Option InKey :=
  let k := id.toNat / 2 ^ 28
  let i := id.toNat % 2 ^ 28
  if k = 1 then (if i < 65536 then some ⟨1, t.ctx, i⟩ else none)
  else if k = 3 then (if i < 64 then some ⟨3, 0, i⟩ else none)
  else if k = 4 then (if i < 17 then some ⟨4, 0, i⟩ else none)
  else if k = 5 then (if i < endpoints s.member && inView (taskViews s t) t.ctx i then some ⟨5, 0, i⟩ else none)
  else if k = 6 then (if 1 ≤ i && i < 4096 && get s fld.kg.CTX i == t.ctx then some ⟨6, 0, i⟩ else none)
  else if k = 7 then
    (match goneFor s t i with
     | some g => some ⟨7, 0, g.idx⟩
     | none => if i < 1024 && on s fld.layerStatus.VALID i && get s fld.layerStatus.CTX i == t.ctx then some ⟨7, 0, i⟩ else none)
  else if k = 8 then (if i = 0 then some ⟨8, t.ctx, 0⟩ else none)
  else none

/-! ## Values (R37, R80, R388) -/

/-- Bytes of a pixel in a layer format (R293). -/
def layerPx (fmt : Nat) : Nat := if fmt = 1 then 4 else 8

/-- Bytes of a layer's pixel array. -/
def layerLen (l : Layer) : Nat := l.width * l.height * layerPx l.fmt

/-- A layer, if it exists. -/
def layerOf (s : State) (n : Nat) : Option Layer := Map.find? s.hst.layers n

/-- A layer, or a deleted one by the index under which the log keeps it. -/
def anyLayer (s : State) (n : Nat) : Option Layer :=
  if n < 1024 then layerOf s n else (s.hst.gone.find? (fun g => g.idx == n)).map (fun g => g.layer)

/-- The value of an input at version 0 (R388); an ETAB input's value comes from the views. -/
def initialValue (s : State) (k : InKey) : W32 :=
  if k.kind = 5 then 0x0180FFFF
  else if k.kind = 7 then
    (match anyLayer s k.idx with
     | some l => BitVec.ofNat 32 (l.width + 65536 * l.height)
     | none => 0)
  else 0

/-- Of two changes, the one with the higher version (R128). -/
def newer (a b : Option Change) : Option Change :=
  match a, b with
  | some x, some y => if x.version.toNat < y.version.toNat then some y else some x
  | some x, none => some x
  | none, y => y

/-- An epoch as the input log numbers it: after a change of frame clock (R234) the log has the new numbers, and the
epochs just before the change are looked up by theirs. -/
def logEpoch (s : State) (c : Nat) (e : W32) : W32 :=
  match (canvasOf s c).oldNum with
  | some (last, shift) => if 0 ≤ epochDiff last e ∧ epochDiff last e < 16 then e + shift else e
  | none => e

/-- The change that gives an input's value at an epoch of a canvas (R37, R128). -/
def changeAt (s : State) (k : InKey) (c : Nat) (e : W32) : Option Change :=
  s.vat.inputs.foldl (fun best x =>
    match (if x.key = k then Map.find? x.apps c else none) with
    | some a => if epochDiff (logEpoch s c e) a ≥ 0 then newer best (some x) else best
    | none => best) none

/-- The newest change of an input in the log. -/
def changeNewest (s : State) (k : InKey) : Option Change :=
  s.vat.inputs.foldl (fun best x => if x.key = k then newer best (some x) else best) none

/-- The change that a task reads, at an input epoch or as the log stands. -/
def changeFor (s : State) (k : InKey) (at_ : Option (Nat × W32)) : Option Change :=
  match at_ with
  | some (c, e) => changeAt s k c e
  | none => changeNewest s k

/-- The version that a task reads. -/
def versionFor (s : State) (k : InKey) (at_ : Option (Nat × W32)) : W32 :=
  match changeFor s k at_ with
  | some x => x.version
  | none => 0

/-- The value that a task reads. -/
def valueFor (s : State) (k : InKey) (at_ : Option (Nat × W32)) : W32 :=
  if k.kind = 8 then
    (match at_ with
     | some (c, e) => Map.get (fun _ => 0) (snapAt s c e).views (2 * k.ctx + 1)
     | none => Map.get (fun _ => 0) (currentViews s) (2 * k.ctx + 1))
  else
    match changeFor s k at_ with
    | some x => x.value
    | none => initialValue s k

/-! ## Killed regions (R199) -/

/-- A rectangle on a canvas: x, y, width, height. -/
structure Rect where
  x : Nat
  y : Nat
  w : Nat
  h : Nat
deriving DecidableEq, Repr

/-- The region of an endpoint. -/
def entryRect (m : Map W32) (e : Nat) : Rect := ⟨eX m e, eY m e, eW m e, eH m e⟩

/-- The rectangle of a tile. -/
def tileRect (s : State) (c row col : Nat) : Rect := ⟨tileX s c col, tileY s c row, tileW s c col, tileH s c row⟩

/-- Whether two rectangles share a pixel. -/
def Rect.overlaps (a b : Rect) : Bool :=
  decide (a.x < b.x + b.w) && decide (b.x < a.x + a.w) && decide (a.y < b.y + b.h) && decide (b.y < a.y + a.h)

/-- Whether a pixel lies in a rectangle. -/
def Rect.has (a : Rect) (x y : Nat) : Bool :=
  decide (a.x ≤ x) && decide (x < a.x + a.w) && decide (a.y ≤ y) && decide (y < a.y + a.h)

/-- Whether a kill group is killed at an epoch of a canvas. -/
def killedAt (s : State) (g c : Nat) (e : W32) : Bool := (valueFor s ⟨6, 0, g⟩ (some (c, e))).toNat % 2 == 1

/-- Whether an endpoint is a member of its kill group: it lies in the view of the group's context (R197). -/
def isMember (s : State) (sn : Snap) (x : Nat) : Bool :=
  eKillg sn.etab x != 0 && inView sn.views (get s fld.kg.CTX (eKillg sn.etab x)) x

/-- The regions of members of groups killed at an input epoch, under the snapshot of the task's epoch. -/
def killedRects (s : State) (c : Nat) (e inep : W32) : List Rect :=
  let sn := snapAt s c e
  ((canvasEntries sn.etab c).filter (fun x => isMember s sn x && killedAt s (eKillg sn.etab x) c inep)).map
    (entryRect sn.etab)

/-- A tile's bytes with zero in the killed regions; the tile starts at `(x0, y0)` with `w` pixels a row. -/
def maskTile (rs : List Rect) (x0 y0 w : Nat) (bs : List Byte) : List Byte :=
  if rs.isEmpty then bs
  else bs.zipIdx.map (fun b => if rs.any (fun r => r.has (x0 + b.2 / 8 % w) (y0 + b.2 / 8 / w)) then 0 else b.1)

/-! ## Tiles in slots -/

/-- A tile's bytes in a slot, row-major. -/
def tileBytes (s : State) (c slot row col : Nat) : List Byte :=
  (List.range (tileH s c row)).flatMap (fun r =>
    memRead s.fmem (tileAddr s c slot row col (r * (tileW s c col * 8))) (tileW s c col * 8))

/-- A tile's bytes written to a slot, row by row. -/
def writeTileRows (c slot row col : Nat) : Nat → List Byte → State → State
  | 0, _, s => s
  | n + 1, bs, s =>
    let line := tileW s c col * 8
    let r := tileH s c row - (n + 1)
    writeTileRows c slot row col n (bs.drop line)
      (fmemPut (tileAddr s c slot row col (r * line)) (bs.take line) s)

/-- A tile's bytes written to a slot. -/
def writeTile (c slot row col : Nat) (bs : List Byte) (s : State) : State :=
  writeTileRows c slot row col (tileH s c row) bs s

end Sys2Proof.Machine
end

