-- ==== Sys2Proof/Machine/Tasks.lean ====
section
/-!
DEFINITION. The life of a task: slots, creation, release, readiness, squash, demotion, cancel and completion
(R42 to R47, R91 to R99, R105 to R109, R113).
-/

namespace Sys2Proof.Machine

/-! ## The task table -/

/-- The task in a slot. -/
def taskAt (s : State) (slot : Nat) : Option Task := Map.find? s.sch.tasks slot

/-- A task stored in its slot. -/
def setTask (t : Task) (s : State) : State := { s with sch := { s.sch with tasks := Map.put s.sch.tasks t.slot t } }

/-- All tasks, in rising slot order. -/
def allTasks (s : State) : List Task := s.sch.tasks.map (fun e => e.2)

/-- The task that a core runs. -/
def taskOn (s : State) (k : Nat) : Option Task := (allTasks s).find? (fun t => t.st == .running k)

/-- Slots in use (SLOTS_USED). -/
def slotsUsed (s : State) : Nat := s.sch.tasks.length

/-- Slots that a context holds (USE_SLOTS). -/
def ctxSlots (s : State) (c : Nat) : Nat := (s.sch.tasks.filter (fun e => e.2.ctx == c)).length

/-- MiB that a context holds (USE_MEM). -/
def ctxMem (s : State) (c : Nat) : Nat := ((s.hst.allocs.filter (fun a => a.ctx == c)).map (fun a => a.size)).sum

/-- Layers that a context holds (USE_LAYERS). -/
def ctxLayers (s : State) (c : Nat) : Nat := (s.hst.layers.filter (fun e => e.2.ctx == c)).length

/-- Whether a use is at or above a quota; a quota of 0 is no limit (R113). -/
def atQuota (quota use : Nat) : Bool := quota != 0 && decide (quota ≤ use)

/-- Whether a context is at its slot quota. -/
def slotQuotaHit (s : State) (c : Nat) : Bool := atQuota (get s fld.ctxQuotaSlots.QUOTA_SLOTS c) (ctxSlots s c)
/-- Whether a context is at its memory quota. -/
def memQuotaHit (s : State) (c : Nat) : Bool := atQuota (get s fld.ctxQuotaMl.QUOTA_MEM c) (ctxMem s c)
/-- Whether a context is at its layer quota. -/
def layerQuotaHit (s : State) (c : Nat) : Bool := atQuota (get s fld.ctxQuotaMl.QUOTA_LAYERS c) (ctxLayers s c)

/-- A CTX_STATUS bit brought to its live value; a rising edge sets CTX_EVENT and raises EV_OVER_QUOTA (R113). -/
def quotaBit (c bit : Nat) (live : Bool) (s : State) : State :=
  let old := hasBit s fld.ctxStatus.CTX_STATUS bit c
  let v := get s fld.ctxStatus.CTX_STATUS c
  let s := put fld.ctxStatus.CTX_STATUS (if live then Nat.lor v (2 ^ bit) else if old then v - 2 ^ bit else v) s c
  if live && !old then raise 17 c (setBit fld.ctxEvent.CTX_EVENT bit s c) else s

/-- The counted quotas of a context judged again. -/
def refreshCtx (c : Nat) (s : State) : State :=
  let s := quotaBit c 0 (slotQuotaHit s c) s
  let s := quotaBit c 2 (memQuotaHit s c) s
  quotaBit c 3 (layerQuotaHit s c) s

/-- The next free slot, in the order in which slots became free (R98). -/
def nextSlot (s : State) : Option Nat :=
  if s.sch.slotFresh < 65536 then some s.sch.slotFresh else s.sch.slotFreed.head?

/-- The order of free slots after one is taken. -/
def takeSlot (s : State) : State :=
  if s.sch.slotFresh < 65536 then { s with sch := { s.sch with slotFresh := s.sch.slotFresh + 1 } }
  else { s with sch := { s.sch with slotFreed := s.sch.slotFreed.drop 1 } }

/-- Whether a context can take a slot. -/
def slotFree (s : State) (c : Nat) : Bool := (nextSlot s).isSome && !slotQuotaHit s c

/-! ## Programs (R49, R95) -/

/-- A program entry as it stands. -/
def progSnap (s : State) (n : Nat) : ProgSnap :=
  { num := n
    base := get s fld.progBase.BASE n
    len := get s fld.progLen.LEN n
    entry := get s fld.progEntry.ENTRY n
    scratch := get s fld.progCtrl.SCRATCH n * 256
    svc := on s fld.progCtrl.SVC n }

/-- Whether a program number names a valid program of a context (R94). -/
def progValid (s : State) (n c : Nat) : Bool := on s fld.progCtrl.VALID n && get s fld.progCtrl.CTX n == c

/-- Service privilege of a task: its program's, while cluster 0 is reserved (R20). -/
def privileged (s : State) (t : Task) : Bool := t.prog.svc && on s fld.sched.SVC

/-! ## Epochs of a canvas -/

/-- Whether a canvas has committed (TXV). -/
def txv (s : State) (c : Nat) : Bool := on s fld.vatSlots.TXV c
/-- TX. -/
def txEp (s : State) (c : Nat) : W32 := rd s .txEpoch c
/-- The rewind mark. -/
def rmEp (s : State) (c : Nat) : W32 := rd s .rmEpoch c
/-- The write pointer. -/
def wpEp (s : State) (c : Nat) : W32 := rd s .wpEpoch c
/-- Enabled and started. -/
def canvasRuns (s : State) (c : Nat) : Bool := on s fld.canvasStatus.RUN c

/-- Whether an epoch of a canvas has committed: it lies before the rewind mark (R120), which a change of frame clock
takes to the new numbers (R234). -/
def committedEp (s : State) (c : Nat) (e : W32) : Bool := txv s c && decide (epochDiff (rmEp s c) (logEpoch s c e) > 0)

/-- Whether an epoch of a canvas is open. -/
def openEp (s : State) (c : Nat) (e : W32) : Bool :=
  match epochRec s c e with
  | some r => !r.committed
  | none => false

/-- A change of the record of an epoch. -/
def updRec (c : Nat) (e : W32) (f : EpochRec → EpochRec) (s : State) : State :=
  let v := canvasOf s c
  setCanvas c { v with epochs := v.epochs.map (fun r => if r.epoch = e then f r else r) } s

/-- Whether a task may still be undone: SPEC, or demoted, before its commit. -/
def undoable (t : Task) : Bool := !dFirm t.desc && !t.resumed

/-! ## Fills (R57, R105) -/

/-- A tile of an open epoch marked to be filled at its commit, masked at the input epoch given (R57, R199). -/
def markFill (c : Nat) (e : W32) (tile : Nat) (inep : W32) (s : State) : State :=
  bump .tileRepeat (updRec c e (fun r =>
    { r with fills := r.fills.filter (fun x => x.1 != tile) ++ [(tile, inep)] }) s)

/-- A tile that a run has written needs no fill. -/
def clearFill (c : Nat) (e : W32) (tile : Nat) (s : State) : State :=
  updRec c e (fun r => { r with fills := r.fills.filter (fun x => x.1 != tile) }) s

/-- A tile of an epoch not yet released marked to be filled at its commit (R105). -/
def markLater (c : Nat) (e : W32) (tile : Nat) (inep : W32) (s : State) : State :=
  let v := canvasOf s c
  bump .tileRepeat (setCanvas c { v with marks := v.marks.filter (fun x => x.1 != e || x.2.1 != tile) ++ [(e, tile, inep)] } s)

/-- The fill of a task that ends before its commit (R57, R105). -/
def fillFor (t : Task) (s : State) : State :=
  match t.canvas, t.epoch with
  | some c, some e =>
    if !undoable t || committedEp s c e then s
    else if openEp s c e then markFill c e (tileNo s c (dRow t.desc) (dCol t.desc)) t.inep s
    else markLater c e (tileNo s c (dRow t.desc) (dCol t.desc)) t.inep s
  | _, _ => s

/-! ## Staged tiles (R29, R199) -/

/-- The staged bytes of a run written to the slot of its open epoch, with killed regions masked. -/
def flushStaged (keep : Nat → Bool) (t : Task) (s : State) : State :=
  match t.canvas, t.epoch with
  | some c, some e =>
    (match epochRec s c e with
     | some r =>
       if r.committed then s
       else
         let row := dRow t.desc
         let col := dCol t.desc
         let w := tileW s c col
         let rs := killedRects s c e t.inep
         let put1 := fun (x : Nat × Byte) (u : State) =>
           if keep x.1 then
             let px := x.1 / 8
             let b : Byte := if rs.any (fun q => q.has (tileX u c col + px % w) (tileY u c row + px / w)) then 0 else x.2
             fmemPut (tileAddr u c r.slot row col x.1) [b] u
           else u
         forEach t.staged put1 s
     | none => s)
  | _, _ => s

/-- The pixels of a tile that lie in a rectangle zeroed in a slot, row by row. -/
def zeroIn (c slot row col : Nat) (q : Rect) (s : State) : State :=
  let t := tileRect s c row col
  let x0 := Nat.max q.x t.x
  let y0 := Nat.max q.y t.y
  let w := Nat.min (q.x + q.w) (t.x + t.w) - x0
  forEach (List.range (Nat.min (q.y + q.h) (t.y + t.h) - y0))
    (fun k u => fmemZero (slotAddr u c slot + ((y0 + k) * get u fld.canvasWidth.WIDTH c + x0) * 8) (w * 8) u) s

/-- The killed regions of a task's tile zeroed in the slot of its open epoch (R199). -/
def maskLanded (t : Task) (s : State) : State :=
  match t.canvas, t.epoch with
  | some c, some e =>
    (match epochRec s c e with
     | some r =>
       if r.committed then s
       else
         let rs := (killedRects s c e t.inep).filter (fun q => (tileRect s c (dRow t.desc) (dCol t.desc)).overlaps q)
         forEach rs (zeroIn c r.slot (dRow t.desc) (dCol t.desc)) s
     | none => s)
  | _, _ => s

/-- The staged tile reaches the slot at DONE or at a park, with every pixel of a killed region zeroed (R199), and clears a
fill of that tile. -/
def landTile (t : Task) (s : State) : State :=
  match t.canvas, t.epoch with
  | some c, some e =>
    if !undoable t then s
    else
      let s := maskLanded t (flushStaged (fun _ => true) t s)
      if t.staged.isEmpty then s else clearFill c e (tileNo s c (dRow t.desc) (dCol t.desc)) s
  | _, _ => s

/-- The store buffer of a task reaches frame memory (R48). -/
def flushStores (t : Task) (s : State) : State := forEach t.stores (fun x u => fmemPut x.1 [x.2] u) s

/-! ## Ready -/

/-- The tile key of the affinity table: canvas, tile and epoch. -/
def tileKey (s : State) (c row col : Nat) (e : W32) : Nat := (c * 2 ^ 20 + tileNo s c row col) * 16 + e.toNat % 16

/-- The affine cluster of a task that becomes READY (R101): none with NOAFF; the cluster that its saved state lies in or was
moved to (R103), the one that it ran on last, or the one that completed its tile in the epoch before. -/
def affineOf (s : State) (t : Task) : Option Nat :=
  if dNoaff t.desc then none
  else match t.spill, t.lastCore with
  | some h, _ => some h
  | none, some k => some (k / 8)
  | none, none =>
    match t.canvas, t.epoch with
      | some c, some e =>
        (match Map.find? s.sch.tileAffine (tileKey s c (dRow t.desc) (dCol t.desc) (e - 1)) with
         | some v => if v / 32 = (e - 1).toNat then some (v % 32) else none
         | none => none)
      | _, _ => none

/-- The Vat depth in force when a task's epoch was released (R37); the task's own where the release is no longer recorded. -/
def releaseDepth (s : State) (t : Task) : Nat :=
  match t.canvas, t.epoch with
  | some c, some e => (match epochRec s c e with | some r => r.depth | none => t.depth)
  | _, _ => t.depth

/-- A task made READY in this cycle (R96). -/
def makeReady (t : Task) (s : State) : State :=
  setTask { t with
    st := .ready, readyAt := s.ot, waited := false, affine := affineOf s t, depth := releaseDepth s t } s

/-- Whether the release condition of Table 4-3 holds. -/
def releaseHolds (s : State) (t : Task) : Bool :=
  match t.canvas, t.epoch with
  | some c, some e =>
    if dFirm t.desc then committedEp s c e
    else (epochRec s c e).isSome || committedEp s c e
  | _, _ => true

/-! ## Creation (R93, R94) -/

/-- Whether a descriptor is refused by the checks that hold for every creator (R94). -/
def descBad (s : State) (d : List W32) (c : Nat) : Bool :=
  !dReservedZero d
    || (!dFirm d && (dCanvas d == 255 || dEmode d == 2))
    || (dCanvas d == 255 && dEmode d == 0)
    || (dCanvas d != 255 && (decide (64 ≤ dCanvas d) || canvasCtx s (dCanvas d) != c))
    || !progValid s (dProg d) c
    || (dCanvas d != 255 && (decide (tileCols s (dCanvas d) ≤ dCol d) || decide (tileRows s (dCanvas d) ≤ dRow d)))

/-- The input epoch of a new task (Table 2-10). -/
def newInep (d : List W32) (epoch : Option W32) : W32 :=
  match epoch with
  | some e => if dCanvas d = 255 then 0xFFFFFFFF else e
  | none => 0xFFFFFFFF

/-- The Vat depth N in force for a task's epoch: that of the epoch's release, else the depth in force. -/
def depthFor (s : State) (canvas : Option Nat) (epoch : Option W32) : Nat :=
  match canvas, epoch with
  | some c, some e =>
    (match epochRec s c e with
     | some r => r.depth
     | none => eff s fld.canvasCtrl.DEPTH c)
  | _, _ => 2

/-- A new task in a slot, before its release condition is judged. -/
def newTask (s : State) (slot : Nat) (d : List W32) (c : Nat) (epoch : Option W32) (pg : ProgSnap)
    (tmpl parent : Option Nat) : Task :=
  let canvas := if dCanvas d = 255 then none else some (dCanvas d)
  { id := s.sch.nextId, slot := slot, desc := d, ctx := c % 128, canvas := canvas, epoch := epoch, prog := pg,
    depth := depthFor s canvas epoch, tmpl := tmpl, parent := parent, st := .waiting, firm := dFirm d,
    demoted := false, resumed := false, inep := newInep d epoch, readSet := [], demSet := [], excode := 0,
    exinfo := 0, saved := false, pc := 0, sregs := [], vregs := [], pregs := [], core := 0, torg := 0,
    tsize := 0, priv := false, front := none, was := none, scratch := [], staged := [], stores := [], children := [], pkts := [], steps := 0, runs := 0, cycles := 0,
    timed := false, latch := 0, period := 0, lastCore := none, affine := none, readyAt := s.ot, waited := false,
    spill := none, finishing := none }

/-- A task created in the next free slot; READY at once where its condition holds (R96). -/
def createTask (d : List W32) (c : Nat) (epoch : Option W32) (pg : ProgSnap) (tmpl parent : Option Nat) (slot : Nat)
    (s : State) : State :=
  let t := newTask s slot d c epoch pg tmpl parent
  let before := slotsUsed s
  let s := takeSlot { s with sch := { s.sch with nextId := s.sch.nextId + 1 } }
  let s := if releaseHolds s t then makeReady t s else setTask t s
  let s := if crosses before (slotsUsed s) (get s fld.slotLevel.SLOT_LEVEL) then raise0 16 s else s
  refreshCtx c s

/-! ## Completion (R108) -/

/-- The task completion record (Table 4-7). -/
def taskRecord (t : Task) (status pstat code : Nat) (info : W32) : List W32 :=
  [BitVec.ofNat 32 (t.slot + 65536 * t.ctx + 2 ^ 24 * status),
   t.epoch.getD 0xFFFFFFFF,
   BitVec.ofNat 32 (pstat % 65536 + 65536 * code + 2 ^ 22 * t.prog.num),
   info,
   BitVec.ofNat 32 (dw t.desc 3),
   BitVec.ofNat 32 t.steps,
   BitVec.ofNat 32 ((match t.canvas with | some c => c | none => 255) + 256 * Nat.min t.runs 255),
   BitVec.ofNat 32 (Nat.min t.cycles 0xFFFFFFFF)]

/-- A context that is being disabled reads EN = 0 once its last task has completed (R111). -/
def closeCtx (c : Nat) (s : State) : State :=
  if s.sch.ctxClosing.contains c && ctxSlots s c == 0 then
    put fld.ctxCtrl.EN 0 { s with sch := { s.sch with ctxClosing := s.sch.ctxClosing.filter (fun x => x != c) } } c
  else s

/-- Tasks that wait for a slot for their SPAWN become READY once their context has one (R83). -/
def wakeSpawners (s : State) : State :=
  forEach ((allTasks s).filter (fun t => t.st == .waiting && t.saved && t.finishing.isNone && slotFree s t.ctx))
    makeReady s

/-- A task's slot returns to FREE (R91). -/
def freeTask (t : Task) (s : State) : State :=
  let s := { s with sch := { s.sch with tasks := Map.del s.sch.tasks t.slot, slotFreed := s.sch.slotFreed ++ [t.slot] } }
  closeCtx t.ctx (wakeSpawners (refreshCtx t.ctx s))

/-- Whether a completion record of a context can be written now (R284). -/
def ctxCplTakes (s : State) (c : Nat) : Bool := cplTakes s (get s fld.ctxCpl.RING c) (ctxOwner s c)

/-- A record written to the context's completion ring, with EV_TASK_CPL (R108, Table 4-9). -/
def writeTaskRecord (c : Nat) (ws : List W32) (s : State) : State :=
  raise 19 c (ringProduce (get s fld.ctxCpl.RING c) ws s)

/-- A completed task leaves: its record is written or discarded and its slot freed, or it waits for its ring (R284). -/
def depart (t : Task) (ws : List W32) (record : Bool) (s : State) : State :=
  if record && on s fld.ctxCpl.EN t.ctx then
    (if ctxCplTakes s t.ctx then freeTask t (writeTaskRecord t.ctx ws s)
     else setTask { t with st := .waiting, finishing := some ws, stores := [], staged := [] } s)
  else freeTask t s

/-- What is kept of a task that completes in an open epoch (R42). -/
def doneOf (t : Task) (c : Nat) (e : W32) : DoneTask :=
  { id := t.id, desc := t.desc, ctx := t.ctx, canvas := c, epoch := e, prog := t.prog, depth := t.depth,
    tmpl := t.tmpl, parent := t.parent, children := t.children, readSet := t.readSet, demSet := t.demSet,
    demoted := t.demoted, runs := t.runs, cycles := t.cycles, core := t.lastCore }

/-- The place of a completed task among those kept: epochs of a canvas in ascending order and tiles in row-major order,
as tile tasks take slots (R42, R98). -/
def insertDone (d : DoneTask) : List DoneTask → List DoneTask
  | [] => [d]
  | x :: xs =>
    if x.canvas = d.canvas && (decide (epochDiff x.epoch d.epoch > 0)
        || (x.epoch == d.epoch && decide (dw d.desc 3 < dw x.desc 3))) then d :: x :: xs
    else x :: insertDone d xs

/-- A task completed in an open epoch is kept until the commit (R42). -/
def keepDone (t : Task) (s : State) : State :=
  match t.canvas, t.epoch with
  | some c, some e =>
    if undoable t && openEp s c e then { s with sch := { s.sch with doneTasks := insertDone (doneOf t c e) s.sch.doneTasks } }
    else s
  | _, _ => s

/-! ## Template releases (R97 to R99) -/

/-- The descriptor words of a template as they stand. -/
def tmplDesc (s : State) (n : Nat) : List W32 := (List.range 8).map (fun k => rd s .tmplDesc n k)

/-- KIND of a template. -/
def tmplKind (s : State) (n : Nat) : Nat := get s fld.tmplBind.KIND n

/-- A template's ERR set, with EV_TMPL_ERR (R94). -/
def tmplErr (n : Nat) (s : State) : State := raise0 22 (put fld.tmplBind.ERR 1 s n)

/-- Whether tasks of a context may be created: it is enabled and not being disabled (R111), and the device is not in SAFE
(R340). -/
def ctxLive (s : State) (c : Nat) : Bool :=
  on s fld.ctxCtrl.EN c && !s.sch.ctxClosing.contains c && get s fld.pwrMode.MODE != 7

/-- Whether a template may release: bound without error, in a context whose tasks may be created (R94, R111). -/
def tmplLive (s : State) (n : Nat) (d : List W32) : Bool := !on s fld.tmplBind.ERR n && ctxLive s (dCtx d)

/-- The release counted (RELEASED). DESIGN CHOICE (log 114): a release that is dropped counts here as well as in
TMPL_DROP. -/
def countRelease (n : Nat) (s : State) : State := wr .tmplReleased (rd s .tmplReleased n + 1) s n

/-- A release dropped (R98). -/
def dropRelease (n c : Nat) (s : State) : State := raise 21 c (wr .tmplDrop (rd s .tmplDrop n + 1) s n)

/-- One task of a template release of a kind other than 1, with the epoch that EMODE gives it: `inh` is the releasing
source's canvas and epoch (Table 4-4). DESIGN CHOICE (log 112): EMODE 0b01 in a template of a kind whose epoch column in
Table 4-4 is empty (4, 6, 8) has no epoch to inherit, so the template is refused with ERR. -/
def releaseOne (n : Nat) (d : List W32) (pg : Option ProgSnap) (kind : Nat) (inh : Option (Nat × W32)) (s : State) :
    State :=
  if !tmplLive s n d then s
  else
    let c := dCtx d
    let bad := descBad s d c
      || (kind == 3 && !dFirm d) || (kind == 5 && !dFirm d) || (kind == 4 && dEmode d != 2)
      || (dEmode d == 1 && (match inh with | some x => dCanvas d != x.1 | none => true))
      || (kind == 6 && !(on s fld.progCtrl.SVC (dProg d)))
    if bad then tmplErr n s
    else
      let epoch : Option W32 :=
        if dEmode d = 2 then none
        else if dEmode d = 1 then inh.map (fun x => x.2)
        else some (BitVec.ofNat 32 (dw d 2))
      let s := countRelease n s
      match nextSlot s with
      | some slot =>
        if slotQuotaHit s c then dropRelease n c s
        else createTask d c epoch (pg.getD (progSnap s (dProg d))) (some n) none slot s
      | none => dropRelease n c s

/-- Whether a template's KIND in force is 1 or 2: a running canvas's last commit took it (R99). -/
def tmplTaken (s : State) (n : Nat) : Bool := s.sch.tmplForce.any (fun x => x.1 % 256 == n)

/-- The templates of a kind 3 to 8 in force whose source is a number (R99). -/
def tmplsBound (s : State) (kind src : Nat) : List Nat :=
  (List.range 256).filter (fun n => tmplKind s n == kind && (rd s .tmplSrc n).toNat == src && !tmplTaken s n)

/-- Releases of every template of a kind and source, in rising number. -/
def releaseKind (kind src : Nat) (inh : Option (Nat × W32)) (s : State) : State :=
  forEach (tmplsBound s kind src) (fun n u => releaseOne n (tmplDesc u n) none kind inh u) s

/-- A task ends with a status: its record, its place among the completed tasks of its epoch, its slot (R108). An OK
completion releases the kind 7 templates of its template (Table 4-4). -/
def finish (t : Task) (status pstat code : Nat) (info : W32) (s : State) : State :=
  let s := depart t (taskRecord t status pstat code info) (dCpl t.desc || status != 0) s
  if status = 0 then
    match t.tmpl with
    | some n =>
      forEach ((tmplsBound s 7 n).filter (fun m => m != n))
        (fun m u => releaseOne m (tmplDesc u m) none 7
          (match t.canvas, t.epoch with | some c, some e => some (c, e) | _, _ => none) u) s
    | none => s
  else s

/-- The cluster that completed a tile is remembered for the next epoch's affinity (R101). -/
def noteTile (t : Task) (s : State) : State :=
  match t.canvas, t.epoch, (if dFirm t.desc then none else t.lastCore) with
  | some c, some e, some k =>
    let key := tileKey s c (dRow t.desc) (dCol t.desc) e
    { s with sch := { s.sch with tileAffine := Map.put s.sch.tileAffine key (e.toNat * 32 + k / 8) } }
  | _, _, _ => s

/-- DONE: the tile and the stores land, and the task completes with OK (R82). -/
def completeOk (t : Task) (pstat : Nat) (s : State) : State :=
  finish t 0 pstat 0 0 (keepDone t (noteTile t (flushStores t (landTile t s))))

/-- A terminating exception (R55): counted and raised; BREAK has its own status; the tile is filled under R57. -/
def terminate (t : Task) (code : Nat) (info : W32) (s : State) : State :=
  let s := raise 20 t.ctx (bump .taskFault s)
  let status := if code = 0x0B then 2 else 1
  finish t status 0 code info (keepDone t (fillFor t (flushStores t s)))

/-! ## Squash, discard, demotion (R42, R44) -/

/-- The state of a run given up: nothing saved, nothing read. -/
def freshRun (t : Task) : Task :=
  { t with firm := dFirm t.desc, demoted := false, resumed := false, inep := newInep t.desc t.epoch, readSet := [],
           demSet := [], excode := 0, exinfo := 0, saved := false, scratch := [], staged := [], stores := [],
           children := [], steps := 0, spill := none, timed := false }

/-- Part of a given-up run's staged tile may have reached the slot: which bytes did is free (R42). -/
def leakStaged (t : Task) (s : State) : State :=
  if t.staged.isEmpty then s else draw (flushStaged (Config.stagedReached s.free) t s)

/-- SPEC descendants of a task discarded without a record, to a depth (R42). -/
def discardKids : Nat → Nat → State → State
  | 0, _, s => s
  | n + 1, pid, s =>
    let kids := (allTasks s).filter (fun t => t.parent == some pid && !dFirm t.desc && t.finishing.isNone)
    let gone := (s.sch.doneTasks.filter (fun d => d.parent == some pid)).map (fun d => d.id)
    let wait := (s.sch.recreateQ.filter (fun d => d.parent == some pid)).map (fun d => d.id)
    let s := { s with sch := { s.sch with
      doneTasks := s.sch.doneTasks.filter (fun d => d.parent != some pid),
      recreateQ := s.sch.recreateQ.filter (fun d => d.parent != some pid) } }
    let s := forEach kids (fun t u => discardKids n t.id (freeTask t (leakStaged t u))) s
    forEach (gone ++ wait) (fun i u => discardKids n i u) s

/-- No chain of descendants is longer than the tasks there are. -/
def kidDepth (s : State) : Nat := s.sch.tasks.length + s.sch.doneTasks.length + s.sch.recreateQ.length + 1

/-- A task squashed: its SPEC children go, and it is READY again as SPEC from its entry point (R42). -/
def squash (t : Task) (s : State) : State :=
  let s := bump .squash (discardKids (kidDepth s) t.id (leakStaged t s))
  makeReady { freshRun t with was := some t.st } s

/-- A task demoted: its read set becomes the demotion set and it restarts as FIRM at E − (N − 1) (R44). -/
def demote (t : Task) (s : State) : State :=
  match t.canvas, t.epoch with
  | some c, some e =>
    let set := t.readSet
    let s := updRec c e (fun r => { r with demoted := true }) (bump .taskDemote (leakStaged t s))
    makeReady { freshRun t with firm := true, demoted := true, demSet := set, inep := e - BitVec.ofNat 32 (t.depth - 1) } s
  | _, _ => s

/-- A task parks at a side effect: its tile has landed, and it waits for its commit (R40). -/
def park (t : Task) (code : Nat) (info : W32) (s : State) : State :=
  let s := landTile t s
  setTask { t with st := .parked, excode := code, exinfo := info, saved := true, staged := [],
                   spill := t.lastCore.map (fun k => k / 8) } s

/-- A task yields (R82): READY again, bound to its cluster's spill area (R92). -/
def yieldTask (t : Task) (s : State) : State :=
  makeReady { t with saved := true, spill := t.lastCore.map (fun k => k / 8) } s

/-- A completed task that is invalidated waits to be created again (R42). -/
def recreate (d : DoneTask) (s : State) : State :=
  let s := discardKids (kidDepth s) d.id s
  bump .squash { s with sch := { s.sch with
    doneTasks := s.sch.doneTasks.filter (fun x => x.id != d.id),
    recreateQ := s.sch.recreateQ ++ [{ d with readSet := [], demSet := [], demoted := false, children := [] }] } }

/-! ## Cancel (R105, R106) -/

/-- A cancel acts by a state of the task (Table 4-6): the tile of a SPEC or demoted task is filled. -/
def cancelBy (st : TState) (t : Task) (s : State) : State :=
  if t.finishing.isSome then s
  else
    let status := match st with
      | .waiting => 5
      | .ready => 5
      | .running _ => 4
      | .parked => 4
    finish t status 0 0 0 (fillFor t (flushStores t s))

/-- A cancel acts by the state that the task is in. -/
def cancelTask (t : Task) (s : State) : State := cancelBy t.st t s

/-- Every task of a context cancelled (R111). -/
def cancelCtx (c : Nat) (s : State) : State :=
  forEach ((allTasks s).filter (fun t => t.ctx == c)) cancelTask s

/-! ## Exceptions (R55, R56) -/

/-- The effect of an exception other than FROZEN_STORE on its task (Table 2-14). -/
def raiseExc (t : Task) (x : Exc) (s : State) : State :=
  if x.code = 7 then park t 7 x.info s
  else if x.code = 8 then demote t s
  else terminate t x.code x.info s

end Sys2Proof.Machine
end

