-- ==== Sys2Proof/Machine/Modes.lean ====
section
/-!
DEFINITION. Operating modes (R337) and twin roles (R306) as the other blocks read them, the records that an active twin
sends (R314), and the exit from HOLD (R339).
-/

namespace Sys2Proof.Machine

/-! ## Modes and roles -/

/-- PWR_MODE.MODE: 0 SLEEP, 1 BOOT, 2 TEST, 3 IDLE, 4 HOLD, 5 SHOW, 6 SHADOW, 7 SAFE. -/
def mode (s : State) : Nat := get s fld.pwrMode.MODE

/-- Whether the port clocks CK_ETH, CK_T1S and CK_SLOW run for traffic: IDLE, HOLD, SHOW and SHADOW (R18, R334, Table
12-3; in BOOT and TEST only blocks under test have them). -/
def portClock (s : State) : Bool := decide (3 ≤ mode s) && decide (mode s ≤ 6)

/-- TWIN_STATUS.ROLE: 0 SOLO, 1 WAIT, 2 ACTIVE, 3 COPY, 4 CATCHUP, 5 INSTEP, 6 ACQUIRE, 7 ORPHAN. -/
def role (s : State) : Nat := get s fld.twinStatus.ROLE

/-- Whether the device is a standby, whose journaled state no local source changes (R315). -/
def standby (s : State) : Bool := decide (3 ≤ role s) && decide (role s ≤ 6)

/-- Whether the twin link is up (R303). -/
def twinLink (s : State) : Bool := on s fld.twinStatus.LINK0 || on s fld.twinStatus.LINK1

/-- Whether the lease and the mode permit a traffic class on an Ethernet or 10BASE-T1S port (R308, R340). -/
def classOpen (s : State) (cls : Nat) : Bool :=
  if mode s = 7 then false
  else if role s = 0 then true
  else if role s = 2 then on s fld.twinStatus.LEASE || !(cls == 4 || cls == 5 || cls == 7)
  else false

/-! ## The journal (R314) -/

/-- A record with its header (Table 11-2): TYPE and, above it, FLAGS; LEN; JSEQ; TERM; CPOS. -/
def recordFrame (s : State) (ty : Nat) (jseq : W32) (payload : List Byte) : List Byte :=
  leBytes 2 ty ++ leBytes 2 payload.length ++ leBytes 4 jseq.toNat ++ leBytes 4 (rd s .term).toNat
    ++ leBytes 4 s.twn.cpos.toNat ++ payload

/-- The lane that carries the next record: the surviving one where only one has link (R303). -/
def recordLane (s : State) : Nat :=
  if !on s fld.twinStatus.LINK0 then 1
  else if !on s fld.twinStatus.LINK1 then 0
  else if Config.twinLane s.twn.sends then 1 else 0

/-- A record put on a lane of the twin link; it is kept as the last one sent. -/
def putRecord (ty : Nat) (jseq : W32) (payload : List Byte) (s : State) : State :=
  { s with twn := { s.twn with sent := some (recordLane s, recordFrame s ty jseq payload), sends := s.twn.sends + 1 } }

/-- A record sent on the twin link, with the next JSEQ. -/
def sendRecord (ty : Nat) (payload : List Byte) (s : State) : State :=
  if twinLink s then
    putRecord ty (rd s .jseqTx + 1) payload (bump .journalTx (wr .jseqTx (rd s .jseqTx + 1) s))
  else s

/-- A record sent without a sequence number: ACK and COPY carry 0. -/
def sendPlain (ty : Nat) (payload : List Byte) (s : State) : State := if twinLink s then putRecord ty 0 payload s else s

/-- A record journaled by the active device of a pair. -/
def journal (ty : Nat) (payload : List Byte) (s : State) : State := if role s = 2 then sendRecord ty payload s else s

/-- The time of a transition in nanoseconds (Table 12-5). -/
def transTime (source target : Nat) : Nat :=
  if source = 4 && target = 5 then 20000
  else if target = 6 then (if source = 3 then 50000 else 20000)
  else if source = 3 && (target = 5 || target = 2) then 50000
  else 100000

/-- Whether the transition to SAFE is running, over which no other is taken (R337). -/
def safePending (s : State) : Bool :=
  match s.pwr.trans with
  | some t => t.target == 7
  | none => false

/-- A running transition to a mode, with BUSY (R337). -/
def beginTrans (target : Nat) (afterSet : Bool) (s : State) : State :=
  if safePending s then s
  else
    let due := s.ot + BitVec.ofNat 64 (transTime (mode s) target)
    put fld.pwrMode.BUSY 1 { s with pwr := { s.pwr with trans := some ⟨target, due, afterSet, 0⟩ } }

/-- A running transition given up. -/
def endTrans (s : State) : State := put fld.pwrMode.BUSY 0 { s with pwr := { s.pwr with trans := none } }

/-- The device is in a mode and EV_MODE is raised (R337): a running transition has ended, but one to SAFE goes on. -/
def enterMode (m : Nat) (s : State) : State :=
  raise0 104 (put fld.pwrMode.MODE m (if safePending s && m != 7 then s else endTrans s))

/-- HOLD ends where the device is in it: the transition to SHOW begins (R339). -/
def holdEnds (s : State) : State := if mode s = 4 && s.pwr.trans.isNone then beginTrans 5 false s else s

end Sys2Proof.Machine
end

