-- ==== Sys2Proof/Machine/InputLog.lean ====
section
/-!
DEFINITION. Release of epochs and rest (R121, R122, R143), and the input log: application epochs, lateness, versions,
invalidation and freeing (R42, R125 to R129, R199).
-/

namespace Sys2Proof.Machine

/-! ## Slots and releases -/

/-- Slots that hold an epoch or a pin. -/
def usedSlots (s : State) (c : Nat) : List Nat :=
  ((canvasOf s c).epochs.map (fun r => r.slot) ++
    (if on s fld.vatSlots.PINNED c then [get s fld.vatSlots.PIN_SLOT c] else [])).dedup

/-- The slot that the next release takes: the lowest free one, while fewer than N slots are occupied (log 20). -/
def freeSlot (s : State) (c : Nat) : Option Nat :=
  let used := usedSlots s c
  if eff s fld.canvasCtrl.DEPTH c ≤ used.length then none
  else (List.range (get s fld.vatSize.DEPTH_MAX c)).find? (fun k => !used.contains k)

/-- The tile tasks of a kind 1 template queued for creation, one for each tile of the canvas that the descriptor names (of
the source where it names none), or one task of a kind 2 template (Table 4-4, R98). -/
def releaseTmpl (n : Nat) (sn : TmplSnap) (c : Nat) (e : W32) (s : State) : State :=
  if sn.kind = 2 then releaseOne n sn.desc sn.prog 2 (some (c, e)) s
  else if !tmplLive s n sn.desc then s
  else
    let d := withTile sn.desc 0 0
    if descBad s d (dCtx d) || (dEmode d == 1 && dCanvas d != c) then tmplErr n s
    else
      let ep : Option W32 := if dEmode d = 1 then some e else if dEmode d = 2 then none else some (BitVec.ofNat 32 (dw d 2))
      let x := if dCanvas d = 255 then c else dCanvas d
      let job : CreateJob :=
        ⟨n, c, d, dCtx d, x, ep, sn.prog.getD (progSnap s (dProg d)), 0, tileCols s x * tileRows s x⟩
      let s := countRelease n s
      { s with sch := { s.sch with createQ := s.sch.createQ ++ [job] } }

/-- A template as it stands, with its program. -/
def tmplNow (s : State) (n : Nat) : TmplSnap :=
  ⟨tmplDesc s n, tmplKind s n, rd s .tmplSrc n, some (progSnap s (dProg (tmplDesc s n)))⟩

/-- The kind 1 and 2 templates of a canvas as they stand. -/
def canvasTmpls (s : State) (c : Nat) : List (Nat × TmplSnap) :=
  ((List.range 256).filter (fun n => (tmplKind s n == 1 || tmplKind s n == 2) && (rd s .tmplSrc n).toNat == c)).map
    (fun n => (n, tmplNow s n))

/-- The kind 1 and 2 templates in force for a canvas: as its start or its last commit took them (R99). -/
def tmplsInForce (s : State) (c : Nat) : List (Nat × TmplSnap) :=
  (s.sch.tmplForce.filter (fun x => x.1 / 256 == c)).map (fun x => (x.1 % 256, x.2))

/-- The templates of a canvas taken as a whole at its start or a commit (R99, R124). -/
def takeTmpls (c : Nat) (s : State) : State :=
  let keep := s.sch.tmplForce.filter (fun x => x.1 / 256 != c)
  { s with sch := { s.sch with tmplForce := (canvasTmpls s c).foldl (fun m x => Map.put m (256 * c + x.1) x.2) keep } }

/-- The kind 1 and 2 releases of an epoch. -/
def releaseTmpls (c : Nat) (e : W32) (s : State) : State :=
  forEach (tmplsInForce s c) (fun x u => releaseTmpl x.1 x.2 c e u) s

/-- Tasks whose release condition an event has made true become READY. -/
def wakeWaiting (p : Task → Bool) (s : State) : State :=
  forEach ((allTasks s).filter (fun t => t.st == .waiting && !t.saved && t.finishing.isNone && p t)) makeReady s

/-- An epoch released into a slot: its record and snapshot, the write pointer, its tasks (R121, R124, R173). At rest
no template of kind 1 or 2 releases (R143). -/
def releaseEpoch (c slot : Nat) (e : W32) (s : State) : State :=
  let v := canvasOf s c
  let r : EpochRec := ⟨e, slot, instOf s (canvasFc s c) e, eff s fld.canvasCtrl.DEPTH c, false,
    (v.marks.filter (fun x => x.1 == e)).map (fun x => x.2), [], [], false, false, []⟩
  let s := setCanvas c { v with epochs := v.epochs ++ [r], marks := v.marks.filter (fun x => x.1 != e), snaps := v.snaps ++ [⟨e, publishedEtab s, currentViews s⟩] } s
  let s := put fld.vatSlots.WP_SLOT slot (wr .wpEpoch e s c) c
  let s := if e = rmEp s c then put fld.vatSlots.RM_SLOT slot s c else s
  let s := if on s fld.canvasStatus.RESTING c then s else releaseTmpls c e s
  wakeWaiting (fun t => t.canvas == some c && t.epoch == some e && !dFirm t.desc) s

/-- A stall begins, counted and raised once (R122). -/
def beginStall (c : Nat) (s : State) : State :=
  if on s fld.canvasStatus.STALL c then s
  else raise 34 c (bump .vatFull (setBit fld.canvasEvent.CANVAS_EVENT 1 (put fld.canvasStatus.STALL 1 s c) c))

/-- Whether a slot copy holds a slot back (R132). -/
def copying (s : State) (c : Nat) : Bool := (canvasOf s c).epochs.any (fun r => !r.copying.isEmpty)

/-- Releases in ascending order until WP = RM + N − 2, or until no slot is free, which begins a stall unless the slot
waits for a copy (R121, R122, R132). -/
def releaseUp (c : Nat) : Nat → State → State
  | 0, s => s
  | n + 1, s =>
    if epochDiff (rmEp s c + BitVec.ofNat 32 (eff s fld.canvasCtrl.DEPTH c) - 2) (wpEp s c) ≤ 0 then
      put fld.canvasStatus.STALL 0 s c
    else
      match freeSlot s c with
      | some k => releaseUp c n (releaseEpoch c k (wpEp s c + 1) s)
      | none => if copying s c then s else beginStall c s

/-- Rest ends: the kind 1 and 2 templates release the open epochs, RM to WP (R143; log 117). -/
def endRest (c : Nat) (s : State) : State :=
  if on s fld.canvasStatus.RESTING c then
    let v := canvasOf s c
    let s := raise 39 c (holdEnds (put fld.canvasStatus.RESTING 0 (setCanvas c { v with quiet := 0 } s) c))
    forEach ((v.epochs.filter (fun r => !r.committed)).map (fun r => r.epoch)) (fun e u => releaseTmpls c e u) s
  else s

/-! ## Placement (R125) -/

/-- The context that owns an input; none for ENV and TC (R31). -/
def inputOwner (s : State) (k : InKey) : Option Nat :=
  if k.kind = 1 || k.kind = 8 then some k.ctx
  else if k.kind = 5 then viewOwner s k.idx
  else if k.kind = 6 then some (get s fld.kg.CTX k.idx)
  else if k.kind = 7 then (layerOf s k.idx).map (fun l => l.ctx)
  else none

/-- Whether tasks of a canvas may read an input (R125). -/
def placedOn (s : State) (k : InKey) (c : Nat) : Bool :=
  if k.kind = 3 || k.kind = 4 then true else inputOwner s k == some (canvasCtx s c)

/-- The canvases that run. -/
def runningCanvases (s : State) : List Nat := (List.range 64).filter (canvasRuns s)

/-- Whether a canvas's commit is due: a change of this cycle comes after it (R127). A standby commits with the active
(R316). -/
def commitDue (s : State) (c : Nat) : Bool :=
  canvasRuns s c && !standby s && (epochRec s c (rmEp s c)).isSome && decide (timeDiff s.ot (commitInst s c (rmEp s c)) ≥ 0)

/-- The rewind mark that a change meets: the new one where the commit is due (R127). -/
def rmNow (s : State) (c : Nat) : W32 := if commitDue s c then rmEp s c + 1 else rmEp s c

/-- The application epoch of a target on a running canvas before lateness is judged (Table 5-1). -/
def appEpoch (s : State) (c : Nat) (g : ATarget) : W32 :=
  match g with
  | .arrival => rmNow s c
  | .epoch k e inst => if k = c then e else epochAtOrAfter s (canvasFc s c) inst
  | .time t => epochAtOrAfter s (canvasFc s c) t
  | .etab => wpEp s c + 1

/-- Whether a target can be late (R126). -/
def canBeLate (g : ATarget) : Bool :=
  match g with
  | .arrival => false
  | .etab => false
  | _ => true

/-- Whether a change is late on a canvas (R126). -/
def isLate (s : State) (c : Nat) (g : ATarget) : Bool :=
  canBeLate g && (txv s c || commitDue s c) && decide (epochDiff (rmNow s c) (appEpoch s c g) > 0)

/-- The application epoch of a change on a running canvas (R125, R126). -/
def placeEpoch (s : State) (c : Nat) (g : ATarget) : W32 := if isLate s c g then rmNow s c else appEpoch s c g

/-- A late change counted and raised on a canvas (R126). -/
def noteLate (c : Nat) (s : State) : State :=
  raise 35 c (setBit fld.canvasEvent.CANVAS_EVENT 2 (count (64 + c) 1 s) c)

/-! ## Invalidation (R42, R199) -/

/-- Whether a read set names an input. -/
def names (rs : List ReadEnt) (k : InKey) : Bool := rs.any (fun r => r.key == k)

/-- Whether a tile overlaps the region of a member of a group, under the snapshot of its epoch (R199). -/
def touchesGroup (s : State) (c g row col : Nat) (e : W32) : Bool :=
  let sn := snapAt s c e
  (canvasEntries sn.etab c).any (fun x =>
    eKillg sn.etab x == g && isMember s sn x && (tileRect s c row col).overlaps (entryRect sn.etab x))

/-- Whether a change of an input invalidates work with these sets and this tile. -/
def hitBy (s : State) (k : InKey) (c : Nat) (e : W32) (d : List W32) (demoted : Bool) (rs ds : List ReadEnt) : Bool :=
  if demoted then names ds k
  else names rs k || (k.kind == 6 && touchesGroup s c k.idx (dRow d) (dCol d) e)

/-- A change at an epoch of a canvas squashes the tasks of open epochs at or after it that it invalidates, and
re-creates completed ones (R42). -/
def invalidate (k : InKey) (c : Nat) (e : W32) (s : State) : State :=
  let hit := fun (t : Task) =>
    match t.canvas, t.epoch with
    | some c', some e' =>
      c' == c && decide (epochDiff e' e ≥ 0) && openEp s c e' && undoable t && t.finishing.isNone
        && hitBy s k c e' t.desc t.demoted t.readSet t.demSet
    | _, _ => false
  let s1 := forEach ((allTasks s).filter hit) (fun t u =>
    match taskAt u t.slot with
    | some t' => if t'.id = t.id then squash t' u else u
    | none => u) s
  let done := s.sch.doneTasks.filter (fun d => d.canvas == c && decide (epochDiff d.epoch e ≥ 0) && openEp s c d.epoch
    && hitBy s k c d.epoch d.desc d.demoted d.readSet d.demSet)
  forEach done (fun d u => if u.sch.doneTasks.any (fun x => x.id == d.id) then recreate d u else u) s1

/-! ## The log (R128, R129) -/

/-- The newest version of an input. -/
def newestVersion (s : State) (k : InKey) : W32 :=
  match s.vat.versions.find? (fun x => x.1 == k) with
  | some x => x.2
  | none => 0

/-- The newest version of an input recorded. -/
def setVersion (k : InKey) (v : W32) (s : State) : State :=
  { s with vat := { s.vat with versions := (k, v) :: s.vat.versions.filter (fun x => x.1 != k) } }

/-- Whether a newer record of the same input makes a record's second freeing condition hold (R129): its target is its arrival,
or an instant at or before the record's own, so that it applies no later on every canvas that may read the input, also on one
that is enabled later. -/
def outranks (q r : Change) : Bool :=
  q.key == r.key && decide (r.version.toNat < q.version.toNat) &&
    (!canBeLate q.target || decide (timeDiff r.inst q.inst ≥ 0))

/-- The epochs of a canvas at which something can still read: open epochs, their FIRM input epochs, and the input
epochs of live tasks. -/
def readEpochs (s : State) (c : Nat) : List W32 :=
  ((canvasOf s c).epochs.filter (fun r => !r.committed)).flatMap
      (fun r => [r.epoch, r.epoch - BitVec.ofNat 32 (r.depth - 1)]) ++
    ((allTasks s).filter (fun t => t.canvas == some c)).map (fun t => t.inep)

/-- Whether a record can still be read by an open epoch or a task, on a running canvas or one that has stopped. -/
def readable (s : State) (r : Change) : Bool :=
  (List.range 64).any (fun c => (readEpochs s c).any (fun e =>
    match changeAt s r.key c e with
    | some x => x.version == r.version
    | none => false))

/-- Whether any task may still read a deleted layer. -/
def goneHeld (s : State) (g : GoneLayer) : Bool := (allTasks s).any (holdsGone g)

/-- Whether a record belongs to a deleted layer that no task may read any more. -/
def goneRecord (s : State) (r : Change) : Bool :=
  r.key.kind == 7 && decide (1024 ≤ r.key.idx) && !(s.hst.gone.any (fun g => g.idx == r.key.idx && goneHeld s g))

/-- Records whose freeing conditions both hold leave the log (R129), and those of a deleted layer that nothing reads. -/
def pruneLog (s : State) : State :=
  { s with vat := { s.vat with inputs := s.vat.inputs.filter (fun r =>
      (!(s.vat.inputs.any (fun q => outranks q r)) || readable s r) && !goneRecord s r) } }

/-- Records that the log holds (R129). -/
def logSize : Nat := 131072

/-- The input ID of a key (Table 2-6). -/
def keyId (k : InKey) : Nat := k.kind * 2 ^ 28 + k.idx

/-- The kind 5 templates that a change releases: those of its ID, and for an input of one context, of that context. -/
def releaseOnInput (x : Change) (s : State) : State :=
  forEach (tmplsBound s 5 (keyId x.key)) (fun n u =>
    let d := tmplDesc u n
    if (x.key.kind = 1 || x.key.kind = 8) && x.key.ctx != dCtx d then u
    else releaseOne n d none 5 ((Map.find? x.apps (dCanvas d)).map (fun e => (dCanvas d, e))) u) s

/-- What a change does on one running canvas: lateness, the newest application epoch, the end of rest, invalidation. -/
def changeOn (x : Change) (c : Nat) (late : Bool) (s : State) : State :=
  match Map.find? x.apps c with
  | none => s
  | some e =>
    let s := if late then noteLate c s else s
    let v := canvasOf s c
    let top := match v.lastApp with
      | some a => if epochDiff a e ≥ 0 then a else e
      | none => e
    let s := setCanvas c { v with lastApp := some top } s
    let s := if epochDiff e (rmEp s c) ≥ 0 then endRest c s else s
    if epochDiff e (wpEp s c) > 0 then s else invalidate x.key c e s

/-- The instant by which a record is compared with others (R129): that of its target, or its arrival. -/
def targetInst (s : State) (g : ATarget) : W64 :=
  match g with
  | .epoch _ _ i => i
  | .time t => t
  | _ => s.ot

/-- A record that fails its parity as it enters the log: discarded and counted (R286). -/
def discardChange (s : State) : State :=
  raise0 10 (setBit fld.hostStatus.HOST_STATUS 1 (bump .poison { s with vat := { s.vat with badNext := false } }))

/-- A change enters the log: next version, application epochs, invalidation, kind 5 releases, freeing (R125 to R129). -/
def takeChange (k : InKey) (value buf : W32) (g : ATarget) (s : State) : State :=
  let ver := newestVersion s k + 1
  let cs := (runningCanvases s).filter (placedOn s k)
  let lates := cs.filter (fun c => isLate s c g)
  let x : Change := ⟨k, ver, value, buf, g, targetInst s g, cs.map (fun c => (c, placeEpoch s c g))⟩
  let s := setVersion k ver { s with vat := { s.vat with inputs := s.vat.inputs ++ [x] } }
  let s := if k.kind = 7 then wr .layerVersion ver s k.idx else s
  let s := forEach cs (fun c u => changeOn x c (lates.contains c) u) s
  let s := releaseOnInput x (pruneLog s)
  let n := s.vat.inputs.length
  let s := if get s fld.inputLogMax.MAX_USED < n then put fld.inputLogMax.MAX_USED n s else s
  if n = logSize then raise0 38 (setBit fld.inputLogStatus.FULL 0 s) else s

/-- A change enters the log, unless its record fails its parity (R286). -/
def logChange (k : InKey) (value buf : W32) (g : ATarget) (s : State) : State :=
  if s.vat.badNext then discardChange s else takeChange k value buf g s

/-- Whether the log has room. -/
def logRoom (s : State) : Bool := decide (s.vat.inputs.length < logSize)

/-- A change waits at its source: for sources other than commands a newer one of the same input replaces it (R129). -/
def waitChange (k : InKey) (value buf : W32) (g : ATarget) (cmd : Option (Cmd × Nat × List W32)) (s : State) : State :=
  let keep := if cmd.isSome then s.vat.waiting else s.vat.waiting.filter (fun w => w.key != k || w.cmd.isSome)
  bump .inputLogFull { s with vat := { s.vat with waiting := keep ++ [⟨k, value, buf, g, cmd⟩] } }

/-- The target of a change as a CHANGE record carries it: TMODE and canvas, and the target word pair. -/
def targetBytes (g : ATarget) : Byte × W64 :=
  match g with
  | .arrival => (0, 0)
  | .epoch c e _ => (BitVec.ofNat 8 (1 + 4 * c), BitVec.ofNat 64 e.toNat)
  | .time t => (2, t)
  | .etab => (0, 0)

/-- The kinds of input whose changes are journaled as CHANGE records (R314). -/
def journaledKind (k : Nat) : Bool := k == 1 || k == 3 || k == 4 || k == 5 || k == 6

/-- The CHANGE record of a change that has entered the log (Table 11-3). -/
def journalChange (k : InKey) (value : W32) (g : ATarget) (s : State) : State :=
  if journaledKind k.kind then
    journal 0x02 (leBytes 4 (keyId k) ++ [BitVec.ofNat 8 k.ctx, (targetBytes g).1, 0, 0] ++ leBytes 4 value.toNat
      ++ leBytes 4 (newestVersion s k).toNat ++ leBytes 8 (targetBytes g).2.toNat) s
  else s

/-- A change of an input from a source of the device: it enters the log and the journal, or waits while the log is
full. -/
def enterChange (k : InKey) (value buf : W32) (g : ATarget) (s : State) : State :=
  if !logRoom s then waitChange k value buf g none s
  else if s.vat.badNext then discardChange s
  else journalChange k value g (takeChange k value buf g s)

/-- The application epoch that a record in the log takes on a canvas when it is enabled (R125): its own target epoch,
or the first released epoch where that is later; an arrival applies from the first. -/
def enableEpoch (s : State) (c : Nat) (first : W32) (g : ATarget) : W32 :=
  match g with
  | .arrival => first
  | .etab => first
  | .epoch k e inst =>
    let t := if k = c then e else epochAtOrAfter s (canvasFc s c) inst
    if epochDiff t first ≥ 0 then t else first
  | .time t => let a := epochAtOrAfter s (canvasFc s c) t; if epochDiff a first ≥ 0 then a else first

/-- The application epoch of a record on a canvas that starts (R125). A record that already applied before the first
epoch, when the canvas last ran, keeps its epoch, which tasks of that time still read by (R37); from the first epoch on the
two are the same. -/
def startEpoch (s : State) (c : Nat) (first : W32) (x : Change) : W32 :=
  let e := enableEpoch s c first x.target
  match Map.find? x.apps c with
  | some a => if e = first ∧ epochDiff a first < 0 then a else e
  | none => e

/-- The newest application epoch of the log on a canvas. -/
def newestApp (s : State) (c : Nat) : Option W32 :=
  s.vat.inputs.foldl (fun best x =>
    match Map.find? x.apps c, best with
    | some a, some b => if epochDiff a b ≥ 0 then some a else some b
    | some a, none => some a
    | none, b => b) none

/-- Every record of the log placed on a canvas that starts (R125). -/
def placeLog (c : Nat) (first : W32) (s : State) : State :=
  { s with vat := { s.vat with inputs := s.vat.inputs.map (fun x =>
      if placedOn s x.key c then { x with apps := Map.put x.apps c (startEpoch s c first x) } else x) } }

/-! ## Layer buffers (R30, R47, R293, R297) -/

/-- Bytes of a layer buffer rounded up to its 256-byte place in the pool. -/
def bufStride (l : Layer) : Nat := (layerLen l + 255) / 256 * 256

/-- The addresses ÷ 256 of a layer's pool buffers (R293). -/
def poolBufs (l : Layer) : List W32 := (List.range l.nbuf).map (fun k => l.pool + BitVec.ofNat 32 (k * (bufStride l / 256)))

/-- The buffer that a layer shows newest. -/
def curBuf (s : State) (n : Nat) (l : Layer) : W32 :=
  match changeNewest s ⟨7, 0, n⟩ with
  | some x => x.buf
  | none => l.pool

/-- Whether a task's read of a layer's input at its input epoch finds a version (none is the initial contents). -/
def taskReads (s : State) (k : InKey) (v : Option W32) (t : Task) : Bool :=
  (changeFor s k (taskInep t)).map (fun x => x.version) == v

/-- Whether an epoch of a running canvas from its rewind mark on reads a version of an input (R297). -/
def epochReads (s : State) (k : InKey) (v : Option W32) : Bool :=
  (runningCanvases s).any (fun c =>
    (changeAt s k c (rmEp s c)).map (fun x => x.version) == v
      || (match v with
        | none => false
        | some w => s.vat.inputs.any (fun x => x.key == k && x.version == w &&
            (match Map.find? x.apps c with
              | some a => decide (epochDiff a (rmEp s c) > 0) && (changeAt s k c a).map (fun y => y.version) == some w
              | none => false))))

/-- Whether a version of a layer's input is needed still: it is the newest, or an epoch from the rewind mark on or a task
can read it. -/
def versionLive (s : State) (k : InKey) (v : Option W32) (readers : List Task) : Bool :=
  (changeNewest s k).map (fun x => x.version) == v || epochReads s k v || readers.any (taskReads s k v)

/-- The tasks of a context. -/
def ctxTasks (s : State) (c : Nat) : List Task := (allTasks s).filter (fun t => t.ctx == c && t.finishing.isNone)

/-- The FIRM tile tasks of a context that a template has released and that are still to be created, by template and
epoch. -/
def firmJobs (s : State) (c : Nat) : List (Nat × Option W32) :=
  (s.sch.createQ.filter (fun j => j.ctx == c && dFirm j.desc)).map (fun j => (j.tmpl, j.epoch))

/-- Whether a FIRM task of a context released before is still to complete. -/
def firmLeft (s : State) (c upto : Nat) (jobs : List (Nat × Option W32)) : Bool :=
  (allTasks s).any (fun t => t.ctx == c && dFirm t.desc &&
      (decide (t.id < upto) || (match t.tmpl with | some n => jobs.contains (n, t.epoch) | none => false)))
    || s.sch.createQ.any (fun j => j.ctx == c && jobs.contains (j.tmpl, j.epoch))

/-- Whether nothing can read the layer buffers that a predicate selects any more, no FIRM task of the context released
before is left, and no DMA into them runs (R297). -/
def bufsDone (s : State) (c : Nat) (sel : W32 → Bool) (upto : Nat) (jobs : List (Nat × Option W32)) : Bool :=
  s.vat.inputs.all (fun x => !(x.key.kind == 7 && decide (x.key.idx < 1024) && sel x.buf)
      || !versionLive s x.key (some x.version) (ctxTasks s c))
    && s.hst.layers.all (fun l => !sel l.2.pool || !versionLive s ⟨7, 0, l.1⟩ none (ctxTasks s l.2.ctx))
    && s.hst.gone.all (fun g => !((s.vat.inputs.any (fun x => x.key == ⟨7, 0, g.idx⟩ && sel x.buf
          && ((ctxTasks s c).filter (holdsGone g)).any (taskReads s x.key (some x.version))))
        || (sel g.layer.pool && ((ctxTasks s c).filter (holdsGone g)).any (taskReads s ⟨7, 0, g.idx⟩ none))))
    && s.vat.waiting.all (fun w => !(w.key.kind == 7 && sel w.buf))
    && !firmLeft s c upto jobs
    && s.hst.imports.all (fun i => !sel i.buf)

/-! ## Killed work of an epoch -/

/-- A task that has read cr.epoch, a latch instant, or an ENV or TC input keeps its epoch from counting as quiet
(R142). -/
def markTimed (t : Task) (s : State) : State :=
  match t.canvas, t.epoch with
  | some c, some e =>
    if openEp s c e then updRec c e (fun r => { r with timed := true }) s
    else setCanvas c { canvasOf s c with quiet := 0 } s
  | _, _ => s

end Sys2Proof.Machine
end

