-- ==== Sys2Proof/Machine/Access.lean ====
section
/-!
DEFINITION. Access to the register map: modes and twin roles, absent resources (R4), what a virtual function reaches
(R274), blocks under test (R359), discards in SAFE (R340) and on a standby (R315), the journal of an active twin (R314),
and the write of a register by its access types (R11).
-/

namespace Sys2Proof.Machine

/-! ## Journaled blocks -/

/-- Whether writes of an offset are journaled (R314): the scheduler, frame, Glaze and endpoint blocks, the universe
records and the endpoint table window. -/
def journaled (off : Nat) : Bool :=
  (decide (0x40000 ≤ off) && decide (off < 0xF0000)) || (decide (0x200000 ≤ off) && decide (off < 0xA00000))

/-- The identity by which a journaled cancel names a task (R317). A task that another task spawned has none. -/
def taskRef (s : State) (t : Task) : Option TaskRef :=
  match t.tmpl with
  | some n => some (.tile n t.canvas t.epoch (dRow t.desc) (dCol t.desc))
  | none => (Map.find? s.twn.origin t.id).map .cmd

/-- An identity in the REGW record of a cancel, after the words of Table 11-3 (log 133). -/
def refBytes : Option TaskRef → List Byte
  | none => []
  | some (.tile n c e row col) =>
    leBytes 2 1 ++ leBytes 2 n ++ leBytes 2 (c.getD 0xFFFF) ++ leBytes 2 (if e.isSome then 1 else 0)
      ++ leBytes 4 (e.getD 0).toNat ++ leBytes 2 row ++ leBytes 2 col
  | some (.cmd j) => leBytes 2 2 ++ leBytes 2 0 ++ leBytes 4 j.toNat ++ leBytes 8 0

/-- The task that a SCHED_CANCEL write names, as the journal carries it. -/
def cancelRef (s : State) (r : RegId) (v : W32) : Option TaskRef :=
  if r = .schedCancel then
    (match taskAt s (v.toNat % 65536) with
     | some t => if t.ctx = v.toNat / 65536 % 128 then taskRef s t else none
     | none => none)
  else none

/-! ## Absent resources (R4) -/

/-- Whether a register instance belongs to a resource that the member lacks. -/
def absentReg (s : State) (r : RegId) (i : Nat) : Bool :=
  match r with
  | .macCtrl | .macLo | .macHi | .portStatus | .portEvent | .pauseCfg | .eeeCfg | .lpiCfg | .gateCtrl | .gateOfs
  | .rxDef | .gateMask | .gateDur | .flowCtrl | .flowIp0 | .flowIp1 | .flowIp2 | .flowIp3 | .flowVid =>
    decide (ethPorts s.member ≤ i)
  | .t1sCtrl | .plcaTmr | .t1sStatus | .t1sMacLo | .t1sMacHi => decide (t1sPorts s.member ≤ i)
  | .dmxTiming | .dmxSlots | .rdmCtrl | .rdmStatus | .rdmTx | .rdmRx | .dmxCanvas | .dmxBase =>
    decide (dmxPorts s.member ≤ i)
  | .pcfg | .rxLat | .txLat | .tsqE0 | .tsqE1 | .tsqE2 | .tsqE3 | .tsqCtrl | .tsqStatus | .tsqOvfCnt | .bwCtrl
  | .txBytes | .rxBytes | .peakTx | .bwLimit | .bwSeq => !portPresent s.member i
  | .clStatus | .clTsUsed | .clCore => decide (clusters s.member ≤ i)
  | .userImp => decide (i < 16) && decide (ethPorts s.member ≤ i)
  | .fact => decide (16 ≤ i) && decide (i < 32) && decide (ethPorts s.member ≤ i - 16)
  | .bistRes => !blockPresent s.member i
  | .etabWord => decide (endpoints s.member ≤ i)
  | _ => false

/-- The bits of a register that name absent clusters or test blocks (R4). -/
def absentBits (s : State) (r : RegId) (i : Nat) : Nat :=
  match r with
  | .bistSel => ((List.range 32).map (fun k => if blockPresent s.member (32 * i + k) then 0 else 2 ^ k)).sum
  | .schedClusters => 2 ^ 20 - 2 ^ clusters s.member
  | .pwrCtrl => (2 ^ 20 - 2 ^ clusters s.member) * 2 ^ 12
  | _ => 0

/-! ## Virtual functions (R274) -/

/-- The context of a template's descriptor. -/
def tmplCtx (s : State) (n : Nat) : Nat := dCtx (tmplDesc s n)

/-- Whether a virtual function reaches a register instance. -/
def vfMay (s : State) (f : Nat) (r : RegId) (i : Nat) : Bool :=
  match r with
  | .idLo | .idHi | .sem | .semCfg | .semForce | .bar2Base | .schedCancel | .schedKick => true
  | .ringCtrl | .ringBaseLo | .ringBaseHi | .ringWbLo | .ringWbHi | .ringHead | .ringTail | .ringOcc | .ringLevel
  | .ringStatus => get s fld.ringCtrl.FN i == f
  | .layerStatus | .layerVersion | .layerDoneEpoch | .layerHaddr =>
    on s fld.layerStatus.VALID i && ctxOwner s (get s fld.layerStatus.CTX i) == f
  | .route => i == f
  | .ctxCpl | .ctxFence | .ctxCtrl | .ctxQuotaSlots | .ctxQuotaCt | .ctxQuotaMl | .ctxUseSlots | .ctxUseCt
  | .ctxUseMl | .ctxStatus | .ctxEvent | .viewBase | .viewN | .swcntLo | .swcntHi => ctxOwner s i == f
  | .progBase | .progLen | .progCtrl | .progEntry => ctxOwner s (get s fld.progCtrl.CTX i) == f
  | .tmplDesc | .tmplBind | .tmplSrc | .tmplReleased | .tmplDrop => ctxOwner s (tmplCtx s i) == f
  | .canvasCtrl | .canvasWidth | .canvasHeight | .canvasTile | .vatBase | .vatSize | .commitLead | .latchGuard
  | .refresh | .vatCmd | .txEpoch | .rmEpoch | .wpEpoch | .vatSlots | .canvasStatus | .canvasEvent | .canvasDirty
  | .canvasFilled | .canvasSlipNs | .canvasCommits | .canvasEvtEn | .glzCfg | .gainBase | .gainStride | .glzEvent
  | .glzLateLines | .glzAbandoned | .planeCtrl | .planeSrc | .planeSize | .planeDx | .planeDy | .planeAdv
  | .planeCut | .epCanvas | .sacnSync | .sacnSyncAdv | .epPorts => ctxOwner s (canvasCtx s i) == f
  | .kg => ctxOwner s (get s fld.kg.CTX i) == f
  | .etabWord =>
    match viewOwner s i with
    | some c => ctxOwner s c == f
    | none => false
  | _ => false

/-- An access denied to a virtual function: counted, recorded with the offset or address, and raised (R274, R275). -/
def denied (fn addr : Nat) (s : State) : State :=
  let s := put fld.hostErrFn.HOST_ERR_FN fn (wr .hostErrAddr (BitVec.ofNat 32 addr) (bump .accessDenied s))
  raise0 11 (setBit fld.hostStatus.HOST_STATUS 2 s)

/-! ## Blocks under test (R359) -/

/-- The test blocks whose registers lie at an offset (Table 13-3). -/
def testBlocks (off : Nat) (r : RegId) (i : Nat) : List Nat :=
  if r = .clStatus || r = .clTsUsed || r = .clCore then [i]
  else if 0x10000 ≤ off && off < 0x30000 then [24]
  else if 0x40000 ≤ off && off < 0x80000 then [20]
  else if 0x80000 ≤ off && off < 0xA0000 then [21]
  else if 0xA0000 ≤ off && off < 0xC0000 then [22]
  else if 0x200000 ≤ off then [23]
  else if 0x100000 ≤ off && off < 0x140000 then [25, 32 + i]
  else if 0x140000 ≤ off && off < 0x148000 then [26, 48 + i]
  else if 0x150000 ≤ off && off < 0x160000 then [26]
  else if 0x180000 ≤ off && off < 0x190000 then [64, 65]
  else []

/-- Whether a block is under test: a data-path request to it is held upstream until the test ends (R359). -/
def blockTested (s : State) (b : Nat) : Bool := get s fld.bistRes.RESULT b == 4

/-- Whether a register instance belongs to a block under test. -/
def underTest (s : State) (r : RegId) (i j : Nat) : Bool :=
  (testBlocks (r.off i j) r i).any (blockTested s)

/-- An access that meets a test (R359). -/
def collide (fn off : Nat) (s : State) : State :=
  let s := bump .bistCollide s
  let s := if hasBit s fld.bistEvent.BIST_EVENT 3 then s
    else put fld.collide.COLLIDE_FN fn (put fld.collide.COLLIDE_ADDR off s)
  raise0 115 (setBit fld.bistEvent.BIST_EVENT 3 s)

/-! ## Host writes -/

/-- Whether a function's host reaches the device: not in SLEEP, whose rails may be gone, not before the blocks outside the
island are released from reset (R329, R335), and not through a port that is held in PERST_N (R271, R335). -/
def hostUp (s : State) (fn : Nat) : Bool := mode s != 0 && !s.bst.releaseDue && !s.hst.perst.contains (fn / 16)

/-- Whether BAR0 writes at an offset take effect in SAFE (R340). -/
def safeMay (r : RegId) (off : Nat) : Bool := (decide (0x190000 ≤ off) && decide (off < 0x1A0000)) || r == .twinCmd

/-- A host write of a register instance with its effect, after the checks that hold for every register: the function
exists, a virtual function reaches it (R274), the resource is present (R4), its block is not under test (R359), SAFE
does not discard it (R340), the device is not a standby for it (R315). An active twin journals it (R314). -/
def hostWrite (fn : Nat) (r : RegId) (i j : Nat) (v : W32) (effect : State → State) (s : State) : State :=
  let off := r.off i j
  if !fnExists s fn || !hostUp s fn then s
  else if !isPf fn && !vfMay s fn r i then denied fn off s
  else if absentReg s r i then s
  else if underTest s r i j then collide fn off s
  else if mode s = 7 && !safeMay r off then s
  else if standby s && journaled off then bump .twinWrRefused s
  else if journaled off then
    effect (journal 0x03 (leBytes 4 off ++ leBytes 4 v.toNat ++ leBytes 4 (fn % 256) ++ refBytes (cancelRef s r v)) s)
  else effect s

/-- A host read of a register instance with its effect and value, after the checks that hold for every register. -/
def hostRead (fn : Nat) (r : RegId) (i j : Nat) (effect : State → State × W32) (s : State) : State :=
  let off := r.off i j
  if !fnExists s fn || !hostUp s fn then s
  else if !isPf fn && !vfMay s fn r i then { denied fn off s with rdata := leBytes 4 0 }
  else if absentReg s r i then { s with rdata := leBytes 4 0 }
  else if underTest s r i j then { collide fn off s with rdata := leBytes 4 0 }
  else
    let x := effect s
    { x.1 with rdata := leBytes 4 x.2.toNat }

/-- Whether the unit of a register is enabled, which holds its locked fields. -/
def unitOn (s : State) (r : RegId) (i : Nat) : Bool :=
  match r with
  | .ringCtrl | .ringBaseLo | .ringBaseHi | .ringWbLo | .ringWbHi => on s fld.ringCtrl.EN i
  | .ctxCtrl => on s fld.ctxCtrl.EN i
  | .fbaseLo | .fbaseHi => on s fld.fcCtrl.EN i
  | .canvasCtrl | .canvasWidth | .canvasHeight | .canvasTile | .vatBase | .vatSize => on s fld.canvasCtrl.EN i
  | .macCtrl => on s fld.macCtrl.EN i
  | _ => false

/-- The value that a register takes from a write, by its access types (R9, R11): RW bits take the value unless they are
held by an enabled unit or reserved for physical functions, W1C bits clear, W1S bits set. -/
def mergeWrite (s : State) (pf : Bool) (r : RegId) (i j : Nat) (v : W32) : W32 :=
  let d := r.desc
  let old := (rd s r i j).toNat
  let hold := Nat.lor (Nat.lor (if unitOn s r i then d.locked else 0) (if pf then 0 else d.pfOnly)) (absentBits s r i)
  let take := Nat.land d.rw (0xFFFFFFFF - Nat.land hold 0xFFFFFFFF)
  let kept := Nat.land old (0xFFFFFFFF - take)
  let clr := Nat.land kept (0xFFFFFFFF - Nat.land d.w1c v.toNat)
  BitVec.ofNat 32 (Nat.lor (Nat.lor clr (Nat.land v.toNat take)) (Nat.land v.toNat d.w1s))

/-- A register written by its access types. -/
def plainWrite (pf : Bool) (r : RegId) (i j : Nat) (v : W32) (s : State) : State :=
  wr r (mergeWrite s pf r i j v) s i j

/-! ## Tasks and pictures given up when a canvas or the device stops -/

/-- Tasks of a canvas's open epochs that a predicate selects complete with CANCELLED (R123, R124), without the fills of
an epoch that will not commit. -/
def cancelEpochs (c : Nat) (p : W32 → Bool) (s : State) : State :=
  let live := fun (t : Task) => t.canvas == some c && t.finishing.isNone &&
    (match t.epoch with | some e => p e && openEp s c e | none => false)
  let s1 := forEach ((allTasks s).filter live) (fun t u => finish t 4 0 0 0 (flushStores t u)) s
  { s1 with sch := { s1.sch with
      doneTasks := s1.sch.doneTasks.filter (fun d => !(d.canvas == c && p d.epoch)),
      createQ := s1.sch.createQ.filter (fun d => !(d.canvas == c && (match d.epoch with | some e => p e | none => false))),
      recreateQ := s1.sch.recreateQ.filter (fun d => !(d.canvas == c && p d.epoch)) } }

end Sys2Proof.Machine
end

