-- ==== Sys2Proof/Machine/Egress.lean ====
section
/-!
DEFINITION. The transmit side of the ports: queues (R242, R243, R390), completions of TX rings (R248, R284), and the
messages that the endpoint engine builds (R179 to R185, R188, R202, R203).
-/

namespace Sys2Proof.Machine

/-! ## Ports -/

/-- A port with nothing queued, paused or held; its active gate bank has reset entries. -/
def portIdle : Port :=
  ⟨[], none, none, [], [], [], [], 1, none, 0, false, 0, none, 0, none, false, [], [], 0, 0, 0, 0, [], false, 0, 0⟩

/-- The state of a port 0–31. -/
def portOf (s : State) (p : Nat) : Port := Map.get (fun _ => portIdle) s.prt.ports p

/-- A port's state replaced. -/
def setPort (p : Nat) (v : Port) (s : State) : State := { s with prt := { s.prt with ports := Map.put s.prt.ports p v } }

/-- Whether a port is present and enabled (R390). -/
def portSends (s : State) (p : Nat) : Bool :=
  portPresent s.member p && (if p < 16 then on s fld.macCtrl.EN p else on s fld.t1sCtrl.EN (p - 16))

/-- Bit time of a port in units of 10 ps: 25 Gb/s, 10 Gb/s or 10 Mb/s. -/
def bitTime (s : State) (p : Nat) : Nat := if p < 16 then (if on s fld.macCtrl.RATE p then 10 else 4) else 10000

/-- Wire bytes of a frame: preamble, padding, FCS and inter-frame gap included (R242, R368). -/
def wireBytes (f : QFrame) : Nat := Nat.max 60 f.len + 24

/-- Wire time of a frame in nanoseconds, rounded up. -/
def wireTime (s : State) (p : Nat) (f : QFrame) : Nat := (wireBytes f * 8 * bitTime s p + 99) / 100

/-- A received frame of `len` bytes counted, and its wire bytes in the port's window (R363, R368). -/
def rxCount (p len : Nat) (s : State) : State :=
  let s := count (if p < 16 then ethCnt p 1 else t1sCnt (p - 16) 1) 1 s
  if on s fld.bwCtrl.BW_EN p then
    (let v := portOf s p
     setPort p { v with bwRx := v.bwRx + Nat.max 60 len + 24 } s)
  else s

/-- A record for a CPL ring, written now or kept until the ring takes it (R284). -/
def produceOrWait (cpl fn : Nat) (ws : List W32) (s : State) : State :=
  let behind := s.hst.cplWait.any (fun w => match w with | .cmd _ _ => false | .record c _ _ => c == cpl)
  if !behind && cplTakes s cpl fn then ringProduce cpl ws s
  else { s with hst := { s.hst with cplWait := s.hst.cplWait ++ [.record cpl fn ws] } }

/-- STATUS bits of a TX completion above bit 24 (R248). -/
def txSent : Nat := 1
/-- LATE. -/
def txLate : Nat := 2
/-- TS_LOST. -/
def txTsLost : Nat := 4
/-- DROPPED. -/
def txDropped : Nat := 8
/-- LEASE. -/
def txLease : Nat := 16
/-- OVERSIZE. -/
def txOversize : Nat := 32
/-- EXCESS. -/
def txExcess : Nat := 64

/-- The completion of a frame from a TX ring (R248). -/
def txComplete (r first : Nat) (tag : W16) (status : Nat) (s : State) : State :=
  produceOrWait (get s fld.ringCtrl.CPL r) (get s fld.ringCtrl.FN r)
    [BitVec.ofNat 32 (first % 65536 + 65536 * r + 2 ^ 24 * status), BitVec.ofNat 32 tag.toNat, 0, 0, 0, 0, 0, 0] s

/-- A frame that ends with a status: only a TX ring's frame has a completion. -/
def frameEnds (f : QFrame) (status : Nat) (s : State) : State :=
  match f.src with
  | .ring r first => txComplete r first f.tag status s
  | _ => s

/-- A frame queued on a port, or dropped where the port sends nothing (R390). -/
def enqueue (p : Nat) (f : QFrame) (s : State) : State :=
  if portSends s p then
    let v := portOf s p
    setPort p { v with queue := v.queue ++ [f] } s
  else frameEnds f txDropped s

/-- Queued frames of a port that a predicate selects leave the queue. A frame in back-off that goes takes its attempts with
it (R246). -/
def dequeue (p : Nat) (drop : QFrame → Bool) (s : State) : State :=
  let v := portOf s p
  let q := v.queue.filter (fun f => !drop f)
  let idle := if q.isEmpty && !v.queue.isEmpty then s.ot else v.idleAt
  let v := if decide (0 < v.coll) && v.wire.isNone && v.queue.head?.any drop then { v with coll := 0, backoff := none, judged := false } else v
  setPort p { v with queue := q, idleAt := idle } s

/-! ## ENP messages (R179) -/

/-- The 24-byte header of Table 7-4 with its payload. -/
def enpMessage (type flags canvas : Nat) (epoch : W32) (node seq : Nat) (time : W64) (payload : List Byte) :
    List Byte :=
  [1, BitVec.ofNat 8 type, BitVec.ofNat 8 flags, BitVec.ofNat 8 canvas] ++ beBytes 4 epoch.toNat ++ beBytes 4 node
    ++ beBytes 2 seq ++ beBytes 2 payload.length ++ beBytes 8 time.toNat ++ payload

/-- Frame length of a message with its addressing, without FCS. -/
def frameLen (d : Dest) (n : Nat) : Nat :=
  14 + (if d.vlan.isSome then 4 else 0) + (match d.udp with | some (v6, _) => if v6 then 48 else 28 | none => 0) + n

/-- The addressing of an endpoint's unicast messages (R179, Table 7-1). -/
def destOf (s : State) (m : Map W32) (e : Nat) : Dest :=
  { mac := eMac m e
    ether := 0x88B5
    vlan := if eTag m e then some (ePcp m e, eVid m e) else none
    udp := if eTransport m e = 1 then
        some (eIpv6 m e, if eIpv6 m e then eIp6 m e else eIp4 m e, get s fld.epCtrl.UDP_PORT,
          if eUdp m e = 0 then get s fld.epCtrl.UDP_PORT else eUdp m e)
      else none }

/-- The IPv6 group base. -/
def mip6 (s : State) : Nat :=
  (List.range 4).foldl (fun a k => a * 2 ^ 32 + (rd s .mip6 k).toNat) 0

/-- Group addressing with number `n` (R180): a canvas, or 64 for all nodes. -/
def groupDest (s : State) (n : Nat) (vlan : Option (Nat × Nat)) (udp v6 : Bool) : Dest :=
  { mac := get s fld.mmacHi.MMAC_HI * 2 ^ 32 + get s fld.mmacLo.MMAC_LO + n
    ether := 0x88B5
    vlan := vlan
    udp := if udp then
        some (v6, if v6 then mip6 s + n else (rd s .mip4).toNat + n, get s fld.epCtrl.UDP_PORT, get s fld.epCtrl.UDP_PORT)
      else none }

/-- The SEQ of the next unicast message to a node: how many were queued before it (R188). -/
def nextSeq (s : State) (node : Nat) : W16 := Map.get (fun _ => 0) s.epg.seqs node

/-- The SEQ of a node counted up. -/
def takeSeq (node : Nat) (s : State) : State :=
  { s with epg := { s.epg with seqs := Map.put s.epg.seqs node (nextSeq s node + 1) } }

/-- A unicast ENP message of class 5 to an endpoint's node queued on the entry's port (R180, R188). -/
def sendUnicast (m : Map W32) (e type flags : Nat) (epoch : W32) (time launch : W64) (payload : List Byte) (s : State) :
    State :=
  let node := eNode m e
  let d := destOf s m e
  let bytes := enpMessage type flags (eCanvas m e) epoch node (nextSeq s node).toNat time payload
  enqueue (ePort m e) ⟨5, launch, .enp type (eCanvas m e) epoch, some d, bytes, frameLen d bytes.length, 0, false, false⟩
    (takeSeq node s)

/-- Pixels of a packing cycle and its bytes (Table 6-7). -/
def packCycle (bits nch : Nat) : Nat × Nat :=
  let g := 8 / Nat.gcd 8 (bits * nch)
  (g, g * bits * nch / 8)

/-- Channels of a pack format in order, by index into R, G, B, A (Table 6-6). -/
def packOrder (pack : Nat) : List Nat :=
  match pack with
  | 0 => [0, 1, 2]
  | 1 => [0, 2, 1]
  | 2 => [1, 0, 2]
  | 3 => [1, 2, 0]
  | 4 => [2, 0, 1]
  | 5 => [2, 1, 0]
  | 6 => [0, 1, 2, 3]
  | 7 => [0, 1, 2, 3]
  | 8 => [3, 0, 1, 2]
  | 9 => [1]
  | 10 => [3]
  | _ => []

/-- SEGPX of an ENP endpoint (R177). -/
def segPx (m : Map W32) (e : Nat) : Nat :=
  let c := packCycle (eBits m e) (packOrder (ePack m e)).length
  let p := if eTransport m e = 1 then (if eIpv6 m e then 1416 else 1436) else 1464
  c.1 * (p / c.2)

/-- Pixels of an endpoint. -/
def ePixels (m : Map W32) (e : Nat) : Nat := eW m e * eH m e

/-- Segments of an endpoint (R177). -/
def segCount (m : Map W32) (e : Nat) : Nat :=
  if segPx m e = 0 then 0 else (ePixels m e + segPx m e - 1) / segPx m e

/-- The canvas pixel that is number `k` of an endpoint (Table 7-3). -/
def scanPixel (m : Map W32) (e k : Nat) : Nat × Nat :=
  let scan := eScan m e
  let len := if scan % 2 = 0 then eW m e else eH m e
  let line := k / len
  let back := (scan / 2 % 2 == 1 && line % 2 == 1) != (scan / 4 % 2 == 1)
  let pos := if back then len - 1 - k % len else k % len
  if scan % 2 = 0 then (eX m e + pos, eY m e + line) else (eX m e + line, eY m e + pos)

/-- The pixels of a segment. -/
def segPixels (m : Map W32) (e no : Nat) : List (Nat × Nat) :=
  let first := no * segPx m e
  (List.range (Nat.min (segPx m e) (ePixels m e - first))).map (fun k => scanPixel m e (first + k))

/-- The tile of a canvas pixel. -/
def tileOfPixel (s : State) (c : Nat) (q : Nat × Nat) : Nat :=
  tileNo s c (q.2 / get s fld.canvasTile.TH c) (q.1 / get s fld.canvasTile.TW c)

/-- Codes of `n` bits as one big-endian bit stream, padded to a whole byte (R169). -/
def packBits (n : Nat) (codes : List Nat) : List Byte :=
  let total := codes.length * n
  let pad := (8 - total % 8) % 8
  beBytes ((total + pad) / 8) ((codes.foldl (fun a c => a * 2 ^ n + c % 2 ^ n) 0) * 2 ^ pad)

/-- A PIX message queued (R181). -/
def sendPix (m : Map W32) (g : Seg) (codes : List Nat) (s : State) : State :=
  let npix := (segPixels m g.ep g.no).length
  let head : List Byte := [BitVec.ofNat 8 (eOutput m g.ep), BitVec.ofNat 8 (eBits m g.ep), BitVec.ofNat 8 (ePack m g.ep), 0]
    ++ beBytes 2 g.no ++ beBytes 2 g.cnt ++ beBytes 2 (g.no * segPx m g.ep) ++ beBytes 2 npix
  sendUnicast m g.ep 0x01 (if g.full then 1 else 0) g.epoch 0 0 (head ++ packBits (eBits m g.ep) codes) s

/-! ## LATCH (R182) -/

/-- The valid ENP endpoints of a canvas in a table. -/
def enpEntries (m : Map W32) (c : Nat) : List Nat := (canvasEntries m c).filter (fun e => eTransport m e ≤ 1)

/-- The ports that carry a canvas's LATCH under a table, each with an endpoint that shows its transport (R182). -/
def latchPorts (m : Map W32) (c : Nat) : List (Nat × Nat) :=
  (List.range 32).filterMap (fun p => ((enpEntries m c).find? (fun e => ePort m e == p)).map (fun e => (p, e)))

/-- EP_CANVAS.PORTS under a table. -/
def latchMask (m : Map W32) (c : Nat) : W32 :=
  BitVec.ofNat 32 ((latchPorts m c).foldl (fun a x => a + 2 ^ x.1) 0)

/-- The VLAN tag of a canvas's LATCH. -/
def latchVlan (s : State) (c : Nat) : Option (Nat × Nat) :=
  if on s fld.epCanvas.LATCH_TAG c then some (get s fld.epCanvas.LATCH_PCP c, get s fld.epCanvas.LATCH_VID c) else none

/-- A LATCH for an epoch queued on each port that carries the canvas (R17, R182). -/
def sendLatch (c : Nat) (e : W32) (beacon : Bool) (launch : W64) (s : State) : State :=
  let m := (snapAt s c e).etab
  forEach (latchPorts m c) (fun x u =>
    let key := c * 32 + x.1
    let q := Map.get (fun _ => 0) u.epg.latchSeq key
    let d := groupDest u c (latchVlan u c) (eTransport m x.2 == 1) (eIpv6 m x.2)
    let bytes := enpMessage 0x02 (if beacon then 4 else 0) c e 0xFFFFFFFF q.toNat (latchOf u c e) []
    enqueue x.1 ⟨7, launch, .enp 0x02 c e, some d, bytes, frameLen d bytes.length, 0, false, false⟩
      { u with epg := { u.epg with latchSeq := Map.put u.epg.latchSeq key (q + 1) } }) s

/-! ## Frames given up -/

/-- Whether a frame is a PIX, DRIVE or PROOF of an epoch of a canvas. -/
def isPixOf (c : Nat) (e : W32) (f : QFrame) : Bool :=
  match f.src with
  | .enp ty c' e' => (ty == 1 || ty == 3 || ty == 4) && c' == c && e' == e
  | _ => false

/-- Whether a queued frame goes when its canvas is disabled (R124): segments, DRIVE, PROOF, sACN, and LATCH. -/
def isOfCanvas (c : Nat) (f : QFrame) : Bool :=
  match f.src with
  | .enp ty c' _ => ty ≤ 4 && c' == c
  | .sacn c' _ => c' == c
  | _ => false

/-- Unstarted PIX, DRIVE and PROOF frames of an epoch discarded from every port queue (R246). -/
def dropStale (c : Nat) (e : W32) (s : State) : State :=
  forEach (List.range 32) (fun p u =>
    let n := ((portOf u p).queue.filter (isPixOf c e)).length
    if n = 0 then u
    else
      let u := count (if p < 16 then ethCnt p 13 else t1sCnt (p - 16) 3) n (dequeue p (isPixOf c e) u)
      let u := if p < 16 then setBit fld.portEvent.PORT_EVENT 3 u p else u
      raise 83 p u) s

end Sys2Proof.Machine
end

