-- ==== Sys2Proof/Machine/Commands.lean ====
section
/-!
DEFINITION. Host commands (R289 to R297) and the completions of rings that wait (R284): one meaning per command, over a
shared form that checks the ring, the owner and the standby, and writes one completion record.
-/

namespace Sys2Proof.Machine

/-! ## Completion -/

/-- A command entry's word 0 (R289). -/
def cmdWord (h : Cmd) (op : Nat) (ext : Bool) : W32 :=
  BitVec.ofNat 32 (op + 256 * h.ctx.toNat + (if ext then 2 ^ 15 else 0) + 65536 * h.tag.toNat)

/-- The command completion record (Table 10-5). -/
def cmdRecordWords (h : Cmd) (op status : Nat) (result : W32) : List W32 :=
  [BitVec.ofNat 32 (h.tag.toNat + 65536 * h.ctx.toNat + 2 ^ 23 + 2 ^ 24 * status), result, BitVec.ofNat 32 op, 0, 0, 0, 0, 0]

/-- Ring entries that a command spans. -/
def opSpan (op : Nat) : Nat := if op = 1 then 2 else 1

/-- The device's index of a ring advanced by the entries it consumed. -/
def advanceHead (r n : Nat) (s : State) : State :=
  if ringOcc s r < n then s else put fld.ringHead.HEAD ((get s fld.ringHead.HEAD r + n) % ringSize s r) s r

/-- A command completes: HEAD advances and its record goes to the ring's CPL ring (R291); a status other than OK is
counted and raised (R301). -/
def completeCmd (h : Cmd) (op span status : Nat) (result : W32) (s : State) : State :=
  let s := advanceHead h.ring span s
  let s := produceOrWait (get s fld.ringCtrl.CPL h.ring) (get s fld.ringCtrl.FN h.ring) (cmdRecordWords h op status result) s
  if status = 0 then s else raise 3 h.ring (bump .cmdErr s)

/-- The CMD record of the journal (Table 11-3): the entry and its completion record. -/
def journalCmd (h : Cmd) (op : Nat) (entry : List W32) (status : Nat) (result : W32) (s : State) : State :=
  journal 0x04 (wordBytes entry ++ wordBytes (cmdRecordWords h op status result)) s

/-- The JSEQ of a TASK command noted with the number of the task that it created, among those of live tasks (R317). -/
def noteOrigin (op id : Nat) (jseq : W32) (s : State) : State :=
  if op = 1 && decide (2 ≤ role s) then
    let live := s.twn.origin.filter (fun x =>
      (allTasks s).any (fun t => t.id == x.1) || s.sch.doneTasks.any (fun d => d.id == x.1))
    { s with twn := { s.twn with origin := Map.put live id jseq } }
  else s

/-- Whether a ring's head command has been taken and has not completed (R291). -/
def ringBusy (s : State) (r : Nat) : Bool :=
  s.vat.waiting.any (fun w => match w.cmd with | some (h, _, _) => h.ring == r | none => false)
    || s.hst.imports.any (fun i => match i.cmd with | some h => h.ring == r | none => false)

/-- The ring of a host command. -/
def cmdRing : Instr → Option Nat
  | .task h _ => some h.ring
  | .cue h _ _ _ => some h.ring
  | .alloc h _ => some h.ring
  | .retire h _ => some h.ring
  | .layerNew h _ _ _ _ _ => some h.ring
  | .layerSet h _ _ _ => some h.ring
  | .importLayer h _ _ _ _ _ => some h.ring
  | .layerDel h _ => some h.ring
  | .badCommand h _ _ _ => some h.ring
  | _ => none

/-- Whether a command of a ring is held for its CPL ring or a buffer. -/
def ringHeld (s : State) (r : Nat) : Bool :=
  s.hst.cplWait.any (fun w => match w with | .cmd _ i => cmdRing i == some r | .record _ _ _ => false)

/-- A command held at the head of its ring before it starts (R284, R294). -/
def holdCmd (i : Instr) (r : Nat) (s : State) : State :=
  { s with hst := { s.hst with cplWait := s.hst.cplWait ++ [.cmd (get s fld.ringCtrl.CPL r) i] } }

/-- Whether a ring's owner may command a context (R289). -/
def mayCommand (s : State) (h : Cmd) : Bool :=
  let f := get s fld.ringCtrl.FN h.ring
  isPf f || ctxOwner s h.ctx.toNat == f

/-- What a started command does: it is still running, or ends with a status and a result. -/
inductive CmdEnd where
  | runs (s : State)
  | waits
  | ends (status : Nat) (result : W32) (s : State)

/-- Whether a CMD ring has no entry that may start now: it does not run, its entry has not arrived, its head command still
runs (R291), it is being flushed (R288), SAFE stops every fetch of host memory (R340), or the host queues are under test
(R359). -/
def ringIdle (s : State) (r span : Nat) : Bool :=
  !ringRuns s r 0 || decide (ringOcc s r < span) || ringBusy s r || on s fld.ringCtrl.FLUSH r || mode s == 7
    || blockTested s 24

/-- The shared form of a command row: the entry at the head of a running CMD ring starts when the CPL ring takes its
record (R284); on a standby it completes with STANDBY (R315), for a context not owned with NOT_OWNER (R289). -/
def runCmdRow (i : Instr) (h : Cmd) (op : Nat) (entry : List W32) (body : State → CmdEnd) (s : State) : State :=
  let r := h.ring
  let span := entry.length / 8
  if ringIdle s r span then s
  else if !cplTakes s (get s fld.ringCtrl.CPL r) (get s fld.ringCtrl.FN r) then holdCmd i r s
  else if standby s then completeCmd h op span 0x1C 0 s
  else if !mayCommand s h then completeCmd h op span 0x12 0 s
  else match body s with
    | .runs t => t
    | .waits => holdCmd i r s
    | .ends st res t =>
      let t := if st = 0 then
          (let u := journalCmd h op entry st res t
           noteOrigin op s.sch.nextId (rd u .jseqTx) u)
        else t
      completeCmd h op span st res t

/-- The shared form for a command that the queue brings: a ring with a held command takes no later one (R291). -/
def cmdRow (i : Instr) (h : Cmd) (op : Nat) (entry : List W32) (body : State → CmdEnd) (s : State) : State :=
  if ringHeld s h.ring then s else runCmdRow i h op entry body s

/-- A refusal with BAD_FIELD. -/
def badField (s : State) : CmdEnd := .ends 0x11 0 s

/-! ## Targets (R290) -/

/-- The target of a command for a context; none where it is refused. -/
def parseTarget (s : State) (c : Nat) (t : Tgt) : Option ATarget :=
  let k := t.w3.toNat / 4 % 64
  match t.w3.toNat % 4 with
  | 0 => some .arrival
  | 1 => if canvasCtx s k = c then some (.epoch k t.w4 (instOf s (canvasFc s k) t.w4)) else none
  | 2 => some (.time (BitVec.ofNat 64 (t.w4.toNat + 2 ^ 32 * t.w5.toNat)))
  | _ => none

/-- A change of a command enters the log and gives its version, or waits at the head of its ring (R129). -/
def cmdChange (h : Cmd) (op : Nat) (entry : List W32) (k : InKey) (value buf : W32) (g : ATarget) (s : State) : CmdEnd :=
  if logRoom s then let t := logChange k value buf g s; .ends 0 (newestVersion t k) t
  else .runs (waitChange k value buf g (some (h, op, entry)) s)

/-! ## TASK and CUE -/

/-- Whether a SPEC descriptor of the host names an epoch that has committed (R94). -/
def specCommitted (s : State) (d : List W32) : Bool :=
  !dFirm d && dEmode d == 0 && decide (dCanvas d < 64) && committedEp s (dCanvas d) (BitVec.ofNat 32 (dw d 2))

/-- What a TASK command does. -/
def cmdTask (h : Cmd) (desc : List W32) (s : State) : CmdEnd :=
  let c := h.ctx.toNat
  let d := withCtx desc c
  if descBad s d c || dEmode d == 1 then badField s
  else if specCommitted s d then .ends 0x19 0 s
  else match nextSlot s with
    | none => .ends 0x13 0 s
    | some slot =>
      if slotQuotaHit s c then .ends 0x13 0 s
      else .ends 0 (BitVec.ofNat 32 slot)
        (createTask d c (if dEmode d = 2 then none else some (BitVec.ofNat 32 (dw d 2))) (progSnap s (dProg d)) none none slot s)

/-- The eight words of a payload. -/
def eightWords (ws : List W32) : List W32 := (List.range 8).map (fun k => ws.getD k 0)

/-- TASK as held or queued. -/
def doTask (row : Instr → Cmd → Nat → List W32 → (State → CmdEnd) → State → State) (h : Cmd) (desc : List W32) :
    State → State :=
  row (.task h desc) h 0x01 ([cmdWord h 1 true, 0, 0, 0, 0, 0, 0, 0] ++ eightWords desc) (cmdTask h (eightWords desc))

/-- The entry of a CUE command. -/
def cueEntry (h : Cmd) (index value : W32) (t : Tgt) : List W32 :=
  [cmdWord h 2 false, index, value, t.w3, t.w4, t.w5, 0, 0]

/-- What a CUE command does. -/
def cmdCue (h : Cmd) (index value : W32) (tgt : Tgt) (s : State) : CmdEnd :=
  match parseTarget s h.ctx.toNat tgt with
  | none => badField s
  | some g => if 65536 ≤ index.toNat then badField s else cmdChange h 0x02 (cueEntry h index value tgt) ⟨1, h.ctx.toNat, index.toNat⟩ value 0 g s

/-- CUE as held or queued. -/
def doCue (row : Instr → Cmd → Nat → List W32 → (State → CmdEnd) → State → State) (h : Cmd) (index value : W32) (t : Tgt) :
    State → State :=
  row (.cue h index value t) h 0x02 (cueEntry h index value t) (cmdCue h index value t)

/-! ## ALLOC and RETIRE -/

/-- Whether a range of MiB is free and inside frame memory. -/
def mibFree (s : State) (base size : Nat) : Bool :=
  decide (base + size ≤ memMib s.member) &&
    s.hst.allocs.all (fun a => decide (base + size ≤ a.base) || decide (a.base + a.size ≤ base))

/-- The place of a new allocation: the free choice where it is free, else the lowest place that fits just above another
allocation or at 0 (R292). -/
def allocPlace (s : State) (size : Nat) : Option Nat :=
  ((Config.allocAt s.free :: 0 :: s.hst.allocs.map (fun a => a.base + a.size)).find? (fun b => mibFree s b size))

/-- What an ALLOC command does. -/
def cmdAlloc (h : Cmd) (mib : W32) (s : State) : CmdEnd :=
  let n := mib.toNat
  let c := h.ctx.toNat
  if n = 0 || memMib s.member < n then badField s
  else if memQuotaHit s c then .ends 0x14 0 s
  else match allocPlace s n with
    | none => .ends 0x16 0 s
    | some b =>
      let s := fmemZero (b * 1048576) (n * 1048576)
        { s with hst := { s.hst with allocs := s.hst.allocs ++ [⟨b, n, c, none⟩] } }
      .ends 0 (BitVec.ofNat 32 (b * 4096)) (draw (refreshCtx c s))

/-- ALLOC as held or queued. -/
def doAlloc (row : Instr → Cmd → Nat → List W32 → (State → CmdEnd) → State → State) (h : Cmd) (mib : W32) : State → State :=
  row (.alloc h mib) h 0x10 [cmdWord h 0x10 false, mib, 0, 0, 0, 0, 0, 0] (cmdAlloc h mib)

/-- Whether an address ÷ 256 lies in an allocation. -/
def Alloc.has256 (a : Alloc) (v : W32) : Bool := a.holds (v.toNat * 256) 1

/-- Whether an allocation is in use, so that RETIRE is refused (R297). -/
def allocUsed (s : State) (a : Alloc) : Bool :=
  (List.range 64).any (fun c => on s fld.canvasCtrl.EN c &&
      (a.has256 (rd s .vatBase c)
        || ((eff s fld.glzCfg.GAIN_EN c == 1 || get s fld.glzCfg.GAIN_EN c == 1)
          && (a.has256 (BitVec.ofNat 32 (eff s fld.gainBase.GAIN_BASE c)) || a.has256 (rd s .gainBase c)))))
    || s.hst.layers.any (fun l => a.has256 (curBuf s l.1 l.2) || (poolBufs l.2).any a.has256)
    || (rd s .drvBase != 0 && a.has256 (rd s .drvBase)) || (rd s .stblBase != 0 && a.has256 (rd s .stblBase))
    || (List.range 16).any (fun r => get s fld.vsize.VHEIGHT r != 0 && get s fld.lineStride.LINE_STRIDE r != 0
        && a.has256 (rd s .vringBase r))
    || (on s fld.tagCtrl.TAG_EN && a.has256 (rd s .tagBase))

/-- What a RETIRE command does (R297). -/
def cmdRetire (h : Cmd) (addr : W32) (s : State) : CmdEnd :=
  let c := h.ctx.toNat
  match s.hst.allocs.find? (fun a => a.base * 4096 == addr.toNat && a.ctx == c) with
  | none => badField s
  | some a =>
    if a.fence.isSome || allocUsed s a then .ends 0x17 0 s
    else
      let n := Map.get (fun _ => 0) s.hst.fenceNext c + 1
      let h' := s.hst
      .ends 0 n { s with hst := { h' with
        allocs := h'.allocs.map (fun x => if x = a then { x with fence := some n } else x)
        fenceNext := Map.put h'.fenceNext c n
        fences := h'.fences ++ [⟨c, n, a.base, s.sch.nextId, firmJobs s c⟩] } }

/-- RETIRE as held or queued. -/
def doRetire (row : Instr → Cmd → Nat → List W32 → (State → CmdEnd) → State → State) (h : Cmd) (addr : W32) : State → State :=
  row (.retire h addr) h 0x11 [cmdWord h 0x11 false, addr, 0, 0, 0, 0, 0, 0] (cmdRetire h addr)

/-! ## Layers (R293 to R296) -/

/-- Whether one allocation of a context, not under retire, holds a byte range. -/
def ctxHolds (s : State) (c addr n : Nat) : Bool :=
  s.hst.allocs.any (fun a => a.ctx == c && a.fence.isNone && a.holds addr n)

/-- A layer replaced. -/
def setLayer (n : Nat) (l : Layer) (s : State) : State :=
  { s with hst := { s.hst with layers := Map.put s.hst.layers n l } }

/-- What a LAYER_NEW command does (R293). -/
def cmdLayerNew (h : Cmd) (layer size form pool nbuf : W32) (s : State) : CmdEnd :=
  let c := h.ctx.toNat
  let n := layer.toNat
  let l : Layer :=
    { ctx := c, width := size.toNat % 65536, height := size.toNat / 65536, fmt := form.toNat % 4,
      host := form.toNat / 4 % 2 == 1
      auto := if form.toNat / 8 % 2 = 1 then some (form.toNat / 16 % 64) else none
      pool := pool, nbuf := nbuf.toNat % 16 }
  if 1024 ≤ n || l.width = 0 || 16384 < l.width || l.height = 0 || 16384 < l.height || l.fmt = 3
      || l.nbuf < 2 || 8 < l.nbuf || !ctxHolds s c (pool.toNat * 256) (l.nbuf * bufStride l) then badField s
  else if (layerOf s n).isSome then .ends 0x17 0 s
  else if layerQuotaHit s c then .ends 0x15 0 s
  else
    let s := setLayer n l s
    let s := fmemZero (pool.toNat * 256) (bufStride l) s
    let s := wr .layerStatus (BitVec.ofNat 32 (1 + 65536 * c)) s n
    .ends 0 0 (refreshCtx c (wr .layerDoneEpoch 0 (wr .layerVersion 0 s n) n))

/-- LAYER_NEW as held or queued. -/
def doLayerNew (row : Instr → Cmd → Nat → List W32 → (State → CmdEnd) → State → State) (h : Cmd)
    (layer size form pool nbuf : W32) : State → State :=
  row (.layerNew h layer size form pool nbuf) h 0x20 [cmdWord h 0x20 false, layer, size, form, pool, nbuf, 0, 0]
    (cmdLayerNew h layer size form pool nbuf)

/-- The value of a LAYER input (R80). -/
def layerValue (l : Layer) : W32 := BitVec.ofNat 32 (l.width + 65536 * l.height)

/-- The entry of a LAYER_SET command. -/
def setEntry (h : Cmd) (layer buf : W32) (t : Tgt) : List W32 :=
  [cmdWord h 0x21 false, layer, buf, t.w3, t.w4, t.w5, 0, 0]

/-- What a LAYER_SET command does (R294). -/
def cmdLayerSet (h : Cmd) (layer buf : W32) (tgt : Tgt) (s : State) : CmdEnd :=
  let c := h.ctx.toNat
  match layerOf s layer.toNat, parseTarget s c tgt with
  | some l, some g =>
    if l.ctx != c || l.host || !ctxHolds s c (buf.toNat * 256) (bufStride l) then badField s
    else cmdChange h 0x21 (setEntry h layer buf tgt) ⟨7, 0, layer.toNat⟩ (layerValue l) buf g s
  | _, _ => badField s

/-- LAYER_SET as held or queued. -/
def doLayerSet (row : Instr → Cmd → Nat → List W32 → (State → CmdEnd) → State → State) (h : Cmd) (layer buf : W32)
    (t : Tgt) : State → State :=
  row (.layerSet h layer buf t) h 0x21 (setEntry h layer buf t) (cmdLayerSet h layer buf t)

/-- A pool buffer of a layer that is free: one on which a fence would complete now (R294, R297). -/
def freeBuf (s : State) (l : Layer) : Option W32 :=
  (poolBufs l).find? (fun b => bufsDone s l.ctx (fun x => x == b) s.sch.nextId (firmJobs s l.ctx))

/-- An import started, the last in the order of the DMA engines (R296). -/
def startImport (i : Import) (s : State) : State := { s with hst := { s.hst with imports := s.hst.imports ++ [i] } }

/-- What an IMPORT command does: its DMA starts, or it waits for a buffer (R294). -/
def cmdImport (h : Cmd) (entry : List W32) (layer busLo busHi pitch : W32) (tgt : Tgt) (s : State) : CmdEnd :=
  let c := h.ctx.toNat
  match layerOf s layer.toNat, parseTarget s c tgt with
  | some l, some g =>
    if l.ctx != c || !l.host then badField s
    else match freeBuf s l with
      | some b => .runs (startImport
          ⟨layer.toNat, b, BitVec.ofNat 64 (busLo.toNat + 2 ^ 32 * busHi.toNat), pitch.toNat % 2 ^ 24, some h, entry, g, 0⟩ s)
      | none => .waits
  | _, _ => badField s

/-- IMPORT as held or queued. -/
def doImport (row : Instr → Cmd → Nat → List W32 → (State → CmdEnd) → State → State) (h : Cmd)
    (layer busLo busHi pitch : W32) (t : Tgt) : State → State :=
  let entry := [cmdWord h 0x22 false, layer, busLo, busHi, pitch, t.w3, t.w4, t.w5]
  row (.importLayer h layer busLo busHi pitch t) h 0x22 entry (cmdImport h entry layer busLo busHi pitch t)

/-- The log and the newest version of a deleted layer kept under another index, for the tasks that may still read it. -/
def rekeyLayer (n idx : Nat) (s : State) : State :=
  { s with vat := { s.vat with
      inputs := s.vat.inputs.map (fun x => if x.key = ⟨7, 0, n⟩ then { x with key := ⟨7, 0, idx⟩ } else x)
      versions := s.vat.versions.filter (fun x => x.1 != ⟨7, 0, n⟩) } }

/-- What a LAYER_DEL command does (R293): the handle names no layer any more, but tasks released before the deletion still
read the layer at their input epoch, and its buffers stay theirs until they cannot (R30, R47; DEDUCED, log 101). A
running import keeps the layer in use. -/
def cmdLayerDel (h : Cmd) (layer : W32) (s : State) : CmdEnd :=
  let n := layer.toNat
  match layerOf s n with
  | none => badField s
  | some l =>
    if l.ctx != h.ctx.toNat then badField s
    else if s.hst.imports.any (fun i => i.layer == n) then .ends 0x17 0 s
    else
      let g : GoneLayer := ⟨n, s.sch.nextId, 1024 + s.hst.goneCount, l⟩
      let s := { s with hst := { s.hst with
        layers := Map.del s.hst.layers n, gone := s.hst.gone ++ [g], goneCount := s.hst.goneCount + 1 } }
      let s := rekeyLayer n g.idx s
      .ends 0 0 (refreshCtx l.ctx (wr .layerVersion 0 (wr .layerStatus 0 s n) n))

/-- LAYER_DEL as held or queued. -/
def doLayerDel (row : Instr → Cmd → Nat → List W32 → (State → CmdEnd) → State → State) (h : Cmd) (layer : W32) :
    State → State :=
  row (.layerDel h layer) h 0x23 [cmdWord h 0x23 false, layer, 0, 0, 0, 0, 0, 0] (cmdLayerDel h layer)

/-! ## Bad entries -/

/-- Whether an OP is one of Table 10-4. -/
def knownOp (op : Nat) : Bool := [0x01, 0x02, 0x10, 0x11, 0x20, 0x21, 0x22, 0x23].contains op

/-- What a bad entry does: POISONED (R286), BAD_OP or NOT_OWNER, and BAD_FIELD where EXT does not go with the OP (R289
gives only TASK a payload; DESIGN CHOICE, log 102). -/
def badEntry (h : Cmd) (op : Byte) (ext poisoned : Bool) (s : State) : State :=
  let r := h.ring
  let span := if ext then 2 else 1
  if ringIdle s r span then s
  else if !cplTakes s (get s fld.ringCtrl.CPL r) (get s fld.ringCtrl.FN r) then holdCmd (.badCommand h op ext poisoned) r s
  else if poisoned then
    completeCmd h op.toNat span 0x1A 0 (raise0 10 (notePoison r s))
  else if standby s then completeCmd h op.toNat span 0x1C 0 s
  else if !knownOp op.toNat then completeCmd h op.toNat span 0x10 0 s
  else if !mayCommand s h then completeCmd h op.toNat span 0x12 0 s
  else if ext != (op == 1) then completeCmd h op.toNat span 0x11 0 s
  else s

/-! ## The rows -/

/-- TASK (R94, R289). -/
def execTask (h : Cmd) (desc : List W32) (s : State) : Out := .next (doTask cmdRow h desc s)
/-- CUE (R125). -/
def execCue (h : Cmd) (index value : W32) (tgt : Tgt) (s : State) : Out := .next (doCue cmdRow h index value tgt s)
/-- ALLOC (R292). -/
def execAlloc (h : Cmd) (mib : W32) (s : State) : Out := .next (doAlloc cmdRow h mib s)
/-- RETIRE (R297). -/
def execRetire (h : Cmd) (addr : W32) (s : State) : Out := .next (doRetire cmdRow h addr s)
/-- LAYER_NEW (R293). -/
def execLayerNew (h : Cmd) (layer size form pool nbuf : W32) (s : State) : Out :=
  .next (doLayerNew cmdRow h layer size form pool nbuf s)
/-- LAYER_SET (R294). -/
def execLayerSet (h : Cmd) (layer buf : W32) (tgt : Tgt) (s : State) : Out := .next (doLayerSet cmdRow h layer buf tgt s)
/-- IMPORT (R294). -/
def execImportLayer (h : Cmd) (layer busLo busHi pitch : W32) (tgt : Tgt) (s : State) : Out :=
  .next (doImport cmdRow h layer busLo busHi pitch tgt s)
/-- LAYER_DEL (R293). -/
def execLayerDel (h : Cmd) (layer : W32) (s : State) : Out := .next (doLayerDel cmdRow h layer s)
/-- BAD_COMMAND (R286, R289). -/
def execBadCommand (h : Cmd) (op : Byte) (ext poisoned : Bool) (s : State) : Out :=
  .next (if ringHeld s h.ring then s else badEntry h op ext poisoned s)

/-! ## What waits goes on -/

/-- A held command tried again. -/
def retryCmd (i : Instr) (s : State) : State :=
  match i with
  | .task h d => doTask runCmdRow h d s
  | .cue h x v t => doCue runCmdRow h x v t s
  | .alloc h m => doAlloc runCmdRow h m s
  | .retire h a => doRetire runCmdRow h a s
  | .layerNew h l z f p n => doLayerNew runCmdRow h l z f p n s
  | .layerSet h l b t => doLayerSet runCmdRow h l b t s
  | .importLayer h l b b' p t => doImport runCmdRow h l b b' p t s
  | .layerDel h l => doLayerDel runCmdRow h l s
  | .badCommand h o e p => badEntry h o e p s
  | _ => s

/-- A waiting record written, or kept where its ring does not take it; a held command tried again. -/
def resumeOne (r : Nat) (w : CplWait) (s : State) : State :=
  match w with
  | .record c fn ws =>
    if c = r && cplTakes s r fn then ringProduce r ws s
    else { s with hst := { s.hst with cplWait := s.hst.cplWait ++ [w] } }
  | .cmd _ i => if ((cmdRing i).map (fun q => get s fld.ringCtrl.CPL q)) = some r then retryCmd i s else { s with hst := { s.hst with cplWait := s.hst.cplWait ++ [w] } }

/-- Records of completed tasks that wait for a CPL ring (R91, R284). -/
def resumeTasks (r : Nat) (s : State) : State :=
  forEach ((allTasks s).filter (fun t => t.finishing.isSome && get s fld.ctxCpl.RING t.ctx == r)) (fun t u =>
    match t.finishing with
    | some ws => if ctxCplTakes u t.ctx then freeTask t (writeTaskRecord t.ctx ws u) else u
    | none => u) s

/-- PRODUCER_RESUME (R284): what waits for CPL ring `r`, in the order in which it began to wait. `bad` are the words that
fail their parity in the ring's next record (R286). -/
def execProducerResume (r : Nat) (bad : Byte) (s : State) : Out :=
  let s := { s with hst := { s.hst with parity := Map.set (fun _ => 0) s.hst.parity r bad } }
  if !ringRuns s r 1 then .next s
  else
    let q := s.hst.cplWait
    .next (resumeTasks r (forEach q (resumeOne r) { s with hst := { s.hst with cplWait := [] } }))

/-- INPUT_LOG_ENTER (R128, R129): the `i`-th waiting change enters the log when it has room; a command's completes. With
`poisoned` the record's parity fails: it is discarded and counted, and the input keeps its version; where no `i`-th change
waits, the parity of the next record to enter fails so (R286). -/
def execInputLogEnter (i : Nat) (poisoned : Bool) (s : State) : Out :=
  let s := if poisoned then { s with vat := { s.vat with badNext := true } } else s
  match s.vat.waiting[i]? with
  | none => .next s
  | some w =>
    if !logRoom s then .next s
    else
      let bad := s.vat.badNext
      let s := logChange w.key w.value w.buf w.target { s with vat := { s.vat with waiting := s.vat.waiting.eraseIdx i } }
      match w.cmd with
      | some (h, op, entry) =>
        let v := newestVersion s w.key
        .next (completeCmd h op (opSpan op) 0 v (if bad then s else journalCmd h op entry 0 v s))
      | none => .next (if bad then s else journalChange w.key w.value w.target s)

/-! ## Imports -/

/-- The LAYER records of the journal: an import in chunks of 8,192 bytes, the last one marked in FLAGS[0], which stands
above the type (Tables 11-2 and 11-3). -/
def journalChunks (n : Nat) (ver buf : W32) : Nat → Nat → List Byte → State → State
  | 0, _, _, s => s
  | k + 1, off, data, s =>
    let last := decide (data.length ≤ 8192)
    let s := journal (0x06 + if last then 0x100 else 0) (leBytes 2 n ++ [0, 0] ++ leBytes 4 ver.toNat ++ leBytes 4 buf.toNat
      ++ leBytes 4 off ++ data.take 8192) s
    if last then s else journalChunks n ver buf k (off + 8192) (data.drop 8192) s

/-- The journal records of an import. -/
def journalLayer (n : Nat) (ver buf : W32) (data : List Byte) (s : State) : State :=
  journalChunks n ver buf (data.length / 8192 + 1) 0 data s

/-- The imports of a layer that run, in the order in which they started. -/
def importsOf (s : State) (n : Nat) : List Import := s.hst.imports.filter (fun i => i.layer == n)

/-- The `i`-th running import of a layer, if one of the eight DMA engines has taken it (R296). -/
def runningImport (s : State) (n i : Nat) : Option Import :=
  match (importsOf s n)[i]? with
  | some x => if (s.hst.imports.take 8).contains x then some x else none
  | none => none

/-- An import ended. -/
def endImport (x : Import) (s : State) : State := { s with hst := { s.hst with imports := s.hst.imports.erase x } }

/-- IMPORT_DONE (R294, R295): the image lies in the pool buffer and the change enters the log with its
target. A standby takes layer data from the journal (R315). -/
def execImportDone (layer i : Nat) (data : List Byte) (s : State) : Out :=
  match layerOf s layer, (if standby s then none else runningImport s layer i) with
  | some l, some x =>
    let key : InKey := ⟨7, 0, layer⟩
    let data := data.take (layerLen l)
    let s := fmemPut (x.buf.toNat * 256) data (endImport x s)
    let s := put fld.layerStatus.STALE 0 s layer
    match x.cmd with
    | some h =>
      if logRoom s then
        let s := logChange key (layerValue l) x.buf x.target s
        let v := newestVersion s key
        .next (completeCmd h 0x22 1 0 v (journalCmd h 0x22 x.entry 0 v (journalLayer layer v x.buf data s)))
      else .next (waitChange key (layerValue l) x.buf x.target (some (h, 0x22, x.entry)) (journalLayer layer (newestVersion s key + 1) x.buf data s))
    | none =>
      let s := wr .layerDoneEpoch x.epoch s layer
      let s := enterChange key (layerValue l) x.buf x.target s
      .next (journalLayer layer (newestVersion s key) x.buf data s)
  | _, _ => .next s

/-- IMPORT_DMA_FAULT (R296): the layer keeps its contents and goes STALE. -/
def execImportDmaFault (layer i : Nat) (s : State) : Out :=
  match layerOf s layer, runningImport s layer i with
  | some _, some x =>
    let s := raise 6 layer (bump .dmaFault (put fld.layerStatus.STALE 1 (endImport x s) layer))
    match x.cmd with
    | some h => .next (completeCmd h 0x22 1 0x18 0 s)
    | none => .next s
  | _, _ => .next s

/-- The AUTO imports of a canvas at its commit, for the epoch just released, from the address sampled then; one with no
free buffer is skipped (R294, R295). -/
def autoImports (c : Nat) (wp : W32) (s : State) : State :=
  forEach (s.hst.layers.filter (fun x => x.2.auto == some c && x.2.host)) (fun x u =>
    match freeBuf u x.2 with
    | some b => startImport ⟨x.1, b, BitVec.ofNat 64 ((rd u .layerHaddr x.1).toNat * 256), x.2.width * layerPx x.2.fmt, none, [],
        .epoch c wp (instOf u (canvasFc u c) wp), wp⟩ u
    | none => u) s

/-! ## Fences (R297, R298) -/

/-- Whether a fence's conditions hold. -/
def fenceReady (s : State) (f : Fence) : Bool :=
  match s.hst.allocs.find? (fun a => a.fence == some f.num && a.ctx == f.ctx) with
  | none => true
  | some a => bufsDone s f.ctx a.has256 f.upto f.jobs

/-- FENCE_COMPLETE (R297, R298): the oldest open fence of a context. -/
def execFenceComplete (ctx : Nat) (s : State) : Out :=
  match s.hst.fences.find? (fun f => f.ctx == ctx) with
  | none => .next s
  | some f =>
    if !fenceReady s f then .next s
    else
      let s := { s with hst := { s.hst with
        fences := s.hst.fences.filter (fun x => x != f)
        allocs := s.hst.allocs.filter (fun a => !(a.fence == some f.num && a.ctx == ctx)) } }
      .next (raise 7 ctx (refreshCtx ctx (wr .ctxFence f.num s ctx)))

end Sys2Proof.Machine
end

