-- ==== Sys2Proof/Machine/Dispatching.lean ====
section
/-!
DEFINITION. The scheduler's commands: dispatch and its order (R95, R100 to R104), creation of tile tasks (R98),
re-creation (R42), rebinding (R103), cancel and kick by the host (R97, R107), context disable (R111), core time (R112).
-/

namespace Sys2Proof.Machine

/-! ## Candidate clusters (R100) -/

/-- Whether a cluster's cores are clocked and powered (Table 12-3, R338). -/
def clusterRuns (s : State) (k : Nat) : Bool :=
  match mode s with
  | 5 => true
  | 6 => true
  | 4 => !s.pwr.gated.contains k
  | 3 => k == 0
  | _ => false

/-- Whether a cluster is under a rotation step or another running test. -/
def clusterTested (s : State) (k : Nat) : Bool :=
  (s.bst.rotStep != 0 && get s fld.bistStatus.ROT_CLUSTER == k) || blockTested s k

/-- Whether a cluster is in dispatch: present, enabled, powered, not removed and not under test. -/
def clusterOpen (s : State) (k : Nat) : Bool :=
  decide (k < clusters s.member) && hasBit s fld.schedClusters.SCHED_CLUSTERS k && clusterRuns s k
    && !clusterTested s k && !s.bst.removed.contains k

/-- Whether R20 allows a task on a cluster. -/
def svcAllows (s : State) (t : Task) (k : Nat) : Bool :=
  if on s fld.sched.SVC then (k == 0) == t.prog.svc else true

/-- Bytes of a cluster's tile store that a task takes: scratch area and staged tile (R95). -/
def storeNeed (s : State) (t : Task) : Nat := t.prog.scratch + tileLen s t

/-- Bytes of a tile store (R27). -/
def storeSize : Nat := 1048576

/-- Bytes in use in a cluster's tile store (TS_USED). -/
def storeUsed (s : State) (k : Nat) : Nat :=
  (((allTasks s).filter (fun t => match t.st with | .running c => c / 8 == k | _ => false)).map (storeNeed s)).sum

/-- Whether a core is a candidate for a READY task (R100). While HOLD ends, the work of the epochs that rest held back
waits (R339). -/
def candidate (s : State) (k : Nat) (t : Task) : Bool :=
  clusterOpen s k && svcAllows s t k && !(mode s == 4 && s.pwr.trans.isSome && !dFirm t.desc) && decide (storeUsed s k + storeNeed s t ≤ storeSize)
    && (match t.spill with | some h => h == k | none => true)

/-! ## Choice (R104) -/

/-- The effective priority (R104, R112). -/
def effPrio (s : State) (t : Task) : Nat := if hasBit s fld.ctxStatus.CTX_STATUS 1 t.ctx then 15 else dPrio t.desc

/-- The affinity wait in nanoseconds: 54 CK_FAB cycles (R102). -/
def affinityWait : W64 := 54

/-- Whether a task's affinity wait has ended (R102). -/
def waitOver (s : State) (t : Task) : Bool := t.waited || decide (timeDiff s.ot (t.readyAt + affinityWait) ≥ 0)

/-- Whether a core may take a task now under its affinity wait (R102). -/
def mayTake (s : State) (k : Nat) (t : Task) : Bool :=
  match t.spill, t.affine with
  | some _, _ => true
  | none, none => true
  | none, some a => a == k / 8 || waitOver s t

/-- Whether a task is better than another for a core (R104). -/
def better (s : State) (k : Nat) (a b : Task) : Bool :=
  let aff := fun (t : Task) => if t.lastCore = some k ∧ dNoaff t.desc = false then 0 else 1
  let d := timeDiff a.readyAt b.readyAt
  let pa := effPrio s a
  let pb := effPrio s b
  pa < pb || (pa == pb && (aff a < aff b || (aff a == aff b && (d < 0 || (d == 0 && a.slot < b.slot)))))

/-- The best of a list of tasks for a core. -/
def bestOf (s : State) (k : Nat) (ts : List Task) : Option Task :=
  ts.foldl (fun best t =>
    match best with
    | some b => if better s k t b then some t else some b
    | none => some t) none

/-- The task that a free core takes (R104). -/
def choose (s : State) (k : Nat) : Option Task :=
  let ready := (allTasks s).filter (fun t => t.st == .ready && candidate s (k / 8) t)
  let aff := ready.filter (fun t => t.affine == some (k / 8))
  if aff.isEmpty then bestOf s k (ready.filter (mayTake s k)) else bestOf s k aff

/-- The top-left pixel of a task's tile as cr.torg gives it, and its size as cr.tsize does (Table 2-3). -/
def tileWords (s : State) (t : Task) : W32 × W32 :=
  match t.canvas with
  | some c =>
    let r := tileRect s c (dRow t.desc) (dCol t.desc)
    (BitVec.ofNat 32 (r.y % 65536 * 65536 + r.x % 65536), BitVec.ofNat 32 (r.h % 65536 * 65536 + r.w % 65536))
  | none => (0, 0)

/-- A run started from the entry point: registers zero, a new scratch area (R22, R95), and the control registers that stay
for the run (R23); a task whose state was saved goes on with it (R19). -/
def startRun (k : Nat) (t : Task) (s : State) : State :=
  if t.saved then
    setTask { t with st := .running k, lastCore := some k, saved := false, spill := none, front := none,
                     was := some t.st } s
  else
    let lat := match t.canvas, t.epoch with
      | some c, some e => latchOf s c e
      | _, _ => 0
    let per := match t.canvas with
      | some c => fcPeriod s (canvasFc s c)
      | none => 0
    setTask { t with
      st := .running k, lastCore := some k, pc := BitVec.ofNat 32 (t.prog.entry * 8), sregs := [], vregs := [],
      pregs := [], core := k, torg := (tileWords s t).1, tsize := (tileWords s t).2, priv := privileged s t,
      front := none, was := some t.st, scratch := [], staged := [], stores := [], steps := 0, runs := t.runs + 1, latch := lat,
      period := per } s

/-- DISPATCH (R104): the lowest free core for which a task may be taken takes it. -/
def execDispatch (s : State) : Out :=
  match (if on s fld.sched.EN && !blockTested s 20 then List.range (clusters s.member * 8) else []).find? (fun k =>
      clusterOpen s (k / 8) && (taskOn s k).isNone && (choose s k).isSome) with
  | none => .next s
  | some k =>
    match choose s k with
    | none => .next s
    | some t => .next (startRun k t s)

/-- AFFINITY_WAIT_END (R102): time reaches the end of a READY task's wait. -/
def execAffinityWaitEnd (slot : Nat) (s : State) : Out :=
  match taskAt s slot with
  | none => .next s
  | some t =>
    .next (if t.st = .ready then setTask { t with waited := true } (advance (t.readyAt + affinityWait) s) else s)

/-! ## Creation -/

/-- A job after its next tile task is created: gone with its last tile, else one tile on. -/
def takeTile (q : List CreateJob) (j : CreateJob) : List CreateJob :=
  match q with
  | [] => []
  | x :: xs => if x = j then (if j.next + 1 < j.total then { j with next := j.next + 1 } :: xs else xs) else x :: takeTile xs j

/-- TILE_TASK_CREATE (R98): the next tile task of the first job whose context can take a slot, when a slot is free. -/
def execTileTaskCreate (s : State) : Out :=
  match s.sch.createQ.find? (fun j => !slotQuotaHit s j.ctx && !blockTested s 20), nextSlot s with
  | some j, some slot =>
    let cols := tileCols s j.canvas
    let d := withTile j.desc (j.next / cols) (j.next % cols)
    .next (createTask d j.ctx j.epoch j.prog (some j.tmpl) none slot
      { s with sch := { s.sch with createQ := takeTile s.sch.createQ j } })
  | _, _ => .next s

/-- TASK_RECREATE (R42): the first invalidated completed task whose context is enabled and can take a slot (R111). -/
def execTaskRecreate (s : State) : Out :=
  match s.sch.recreateQ.find? (fun d => slotFree s d.ctx && ctxLive s d.ctx && !blockTested s 20), nextSlot s with
  | some d, some slot =>
    let s := { s with sch := { s.sch with recreateQ := s.sch.recreateQ.filter (fun x => x.id != d.id) } }
    let s := createTask d.desc d.ctx (some d.epoch) d.prog d.tmpl d.parent slot s
    match taskAt s slot with
    | none => .next s
    | some t =>
      let t := { t with id := d.id, depth := d.depth, runs := d.runs, cycles := d.cycles, lastCore := d.core }
      .next (setTask { t with affine := affineOf s t } s)
  | _, _ => .next s

/-- The cluster that a saved task moves to (R103). -/
def rebindTo (s : State) (t : Task) : Option Nat :=
  (List.range (clusters s.member)).find? (fun k =>
    clusterOpen s k && svcAllows s t k && !(mode s == 4 && s.pwr.trans.isSome && !dFirm t.desc) && decide (storeNeed s t ≤ storeSize))

/-- Whether a cluster has left dispatch for good (R103). -/
def clusterGone (s : State) (k : Nat) : Bool :=
  !hasBit s fld.schedClusters.SCHED_CLUSTERS k || s.bst.removed.contains k

/-- TASK_REBIND (R103). -/
def execTaskRebind (slot : Nat) (s : State) : Out :=
  match taskAt s slot with
  | none => .next s
  | some t =>
    match t.spill with
    | none => .next s
    | some k =>
      if !clusterGone s k then .next s
      else match rebindTo s t with
        | none => .next s
        | some h => .next (setTask { t with spill := some h, affine := if dNoaff t.desc then none else some h } s)

/-! ## Host writes of the scheduler -/

/-- The state by which a cancel acts on a task (Table 4-6): in the cycle of the dispatch or squash before it, the state from
before that (R106). -/
def cancelState (same : Bool) (t : Task) : TState := if same then t.was.getD t.st else t.st

/-- The effect of a SCHED_CANCEL write (R107, Table 4-6); `same` where it falls in the CK_FAB cycle of the command before it
(R106). -/
def cancelWrite (fn : Nat) (v : W32) (same : Bool) (s : State) : State :=
  let slot := v.toNat % 65536
  let c := v.toNat / 65536 % 128
  if !isPf fn && ctxOwner s c != fn then bump .cancelRefused s
  else match taskAt s slot with
    | none => s
    | some t => if t.ctx = c then cancelBy (cancelState same t) t s else bump .cancelRefused s

/-- SCHED_CANCEL (R107). -/
def execSchedCancel (fn : Nat) (v : W32) (same : Bool) (s : State) : Out :=
  .next (hostWrite fn .schedCancel 0 0 v (cancelWrite fn v same) s)

/-- The effect of a SCHED_KICK write: a kind 8 template of the function's contexts releases (R97, R274). -/
def kickSched (fn : Nat) (v : W32) (s : State) : State :=
  let n := v.toNat % 256
  if !isPf fn && ctxOwner s (tmplCtx s n) != fn then denied fn (RegId.off .schedKick 0 0) s
  else if tmplKind s n = 8 ∧ tmplTaken s n = false then releaseOne n (tmplDesc s n) none 8 none s else s

/-- SCHED_KICK (R97). -/
def execSchedKick (fn : Nat) (v : W32) (s : State) : Out :=
  .next (hostWrite fn .schedKick 0 0 v (kickSched fn v) s)

/-- The tiles of SPEC tasks of a context that were still to be created, or created again, are noted as undone in their open
epochs, which treat them as unfinished (R98, R42, R131). -/
def noteUndone (c : Nat) (s : State) : State :=
  let s1 := forEach (s.sch.createQ.filter (fun j => j.ctx == c && !dFirm j.desc)) (fun j u =>
    match j.epoch with
    | some e => updRec j.canvas e (fun r => { r with undone := r.undone ++ (List.range (j.total - j.next)).map (fun k => j.next + k) }) u
    | none => u) s
  forEach (s.sch.recreateQ.filter (fun d => d.ctx == c)) (fun d u =>
    updRec d.canvas d.epoch (fun r => { r with undone := r.undone ++ [tileNo u d.canvas (dRow d.desc) (dCol d.desc)] }) u) s1

/-- A context disabled: its releases stop and its tasks are cancelled; EN falls with the last of them (R111). -/
def disableCtx (c : Nat) (s : State) : State :=
  if !on s fld.ctxCtrl.EN c || s.sch.ctxClosing.contains c then s
  else
    let s := noteUndone c s
    let s := { s with sch := { s.sch with
      ctxClosing := s.sch.ctxClosing ++ [c]
      createQ := s.sch.createQ.filter (fun j => j.ctx != c)
      recreateQ := s.sch.recreateQ.filter (fun d => d.ctx != c) } }
    closeCtx c (cancelCtx c s)

/-- The effect of a write of CTX_CTRL (R110, R111, R366). -/
def ctxWrite (pf : Bool) (c : Nat) (v : W32) (s : State) : State :=
  let was := on s fld.ctxCtrl.EN c
  let now := v.toNat % 2 == 1
  let owner := v.toNat / 256 % 32
  let v' := if owner == ctxOwner s c || fnExists s owner then v
    else BitVec.ofNat 32 (withBits v.toNat 8 5 (ctxOwner s c))
  let s := plainWrite pf .ctxCtrl c 0 v' s
  if was && !now then disableCtx c (put fld.ctxCtrl.EN 1 s c)
  else if !was && now then { s with swcnt := s.swcnt.filter (fun x => x.1 / 8 != c) }
  else s

/-- CTX_DISABLE (R111). -/
def execCtxDisable (fn ctx : Nat) (v : W32) (s : State) : Out :=
  if 128 ≤ ctx then .next s else .next (hostWrite fn .ctxCtrl ctx 0 v (ctxWrite (isPf fn) ctx v) s)

/-- The frame at whose instant a context's running core-time period ends (R112): the one after the last period's end; where
no period has ended on this clock, the present frame if outward time is at its instant, else the next. -/
def periodFrame (s : State) (ctx n : Nat) (f : FClock) : W64 :=
  let cur := f.cur s.ot
  let first := if f.inst cur = s.ot then cur else cur + 1
  match Map.find? s.sch.ctEnd ctx with
  | some (m, k) => if m = n ∧ timeDiff (cur + 1) (k + 1) ≥ 0 then k + 1 else first
  | none => first

/-- The period of a context's core time ends (R112, R113). -/
def endPeriod (ctx : Nat) (s : State) : State :=
    let used := Map.get (fun _ => 0) s.sch.ctCount ctx
    let quota := get s fld.ctxQuotaCt.QUOTA_CT ctx
    let s := { s with sch := { s.sch with ctCount := Map.del s.sch.ctCount ctx } }
    let s := put fld.ctxUseCt.USE_CT (Nat.min (used / 1024) 0xFFFFFF) s ctx
    quotaBit ctx 1 (quota != 0 && decide (quota * 1024 < used)) s

/-- CORE_TIME_PERIOD_END (R112): outward time reaches the next frame instant of the context's reference frame clock. -/
def execCoreTimePeriodEnd (ctx : Nat) (s : State) : Out :=
  let n := get s fld.ctxCtrl.FC ctx
  match (if 128 ≤ ctx then none else fclock s n) with
  | none => .next s
  | some f =>
    let k := periodFrame s ctx n f
    let s := advance (f.inst k) s
    .next (endPeriod ctx { s with sch := { s.sch with ctEnd := Map.put s.sch.ctEnd ctx (n, k) } })

end Sys2Proof.Machine
end

