-- ==== Sys2Proof/Machine/HostPorts.lean ====
section
/-!
DEFINITION. The host ports: semaphores (R278 to R281), ring registers, flush and ring faults (R282 to R288, R301), the
BAR2 window (R275, R299), function resets and links (R271, R276).
-/

namespace Sys2Proof.Machine

/-! ## Semaphores -/

/-- A semaphore let go (R279, R280, Table 14-5). -/
def semFree (n : Nat) (s : State) : State := put fld.sem.EXPIRED 0 (put fld.sem.HELD 0 s n) n

/-- The lease of a semaphore starts at the present (R280). -/
def semLease (n : Nat) (s : State) : State :=
  { s with hst := { s.hst with semAt := Map.put s.hst.semAt n s.ot } }

/-- A read of SEM_n by a function: it claims a free semaphore, renews its own, or finds the holder (R278, R280). -/
def semRead (n f : Nat) (s : State) : State × W32 :=
  if !on s fld.sem.HELD n then
    let s := put fld.sem.GEN (get s fld.sem.GEN n + 1) (put fld.sem.OWNER f (put fld.sem.HELD 1 s n) n) n
    let s := semLease n (put fld.sem.EXPIRED 0 s n)
    (s, rd s .sem n ||| 0x40)
  else if get s fld.sem.OWNER n == f then
    let s := semLease n (put fld.sem.EXPIRED 0 s n)
    (s, rd s .sem n)
  else (s, rd s .sem n)

/-- Whether a number names a PCIe function that exists. -/
def pcieFn (s : State) (f : Nat) : Bool := s.hst.fnPresent.contains f

/-- The read as a host access. -/
def semReadAs (n f : Nat) (s : State) : State := if pcieFn s f then hostRead f .sem n 0 (semRead n f) s else s

/-- Whether H1 goes first at a semaphore's next tie (R281). -/
def semH1First (s : State) (n : Nat) : Bool := Map.get (fun _ => false) s.hst.semTie n

/-- The tie bit after a tie: the loser's port goes first next (R281). -/
def semTieSet (n loser : Nat) (s : State) : State :=
  { s with hst := { s.hst with semTie := Map.put s.hst.semTie n (loser / 16 == 1) } }

/-- Two functions of which one lies on each port. -/
def acrossPorts (s : State) (f g : Nat) : Bool := pcieFn s f && pcieFn s g && f / 16 != g / 16

/-- Which of two functions on different ports a semaphore's tie bit lets go first. -/
def semFirst (s : State) (n f g : Nat) : Nat × Nat := if (f / 16 == 1) == semH1First s n then (f, g) else (g, f)

/-- Two reads in one cycle: both return, the first by the tie bit where both could claim. -/
def semReadBoth (n f g : Nat) (s : State) : State :=
  let o := semFirst s n f g
  let s1 := semReadAs n o.1 s
  let s2 := semReadAs n o.2 s1
  let s3 := if !on s fld.sem.HELD n && on s1 fld.sem.HELD n then semTieSet n o.2 s2 else s2
  { s3 with rdata := if o.1 = f then s1.rdata ++ s2.rdata else s2.rdata ++ s1.rdata }

/-- SEM_CLAIM (R278, R281). -/
def execSemClaim (n fn : Nat) (other : Option Nat) (s : State) : Out :=
  if 256 ≤ n then .next s
  else match other with
    | some g => .next (if acrossPorts s fn g then semReadBoth n fn g s else semReadAs n fn s)
    | none => .next (semReadAs n fn s)

/-- The effect of a write of SEM_n (R279). -/
def semWrite (n f : Nat) (v : W32) (s : State) : State :=
  if on s fld.sem.HELD n && get s fld.sem.OWNER n == f && v.toNat % 32 == f then semFree n s else bump .semBadRel s

/-- The write as a host access. -/
def semWriteAs (n f : Nat) (v : W32) (s : State) : State :=
  if pcieFn s f then hostWrite f .sem n 0 v (semWrite n f v) s else s

/-- SEM_RELEASE (R279), and with a claim of the other port in the same cycle, the order of the tie bit (R281). -/
def execSemRelease (n fn : Nat) (v : W32) (claim : Option Nat) (s : State) : Out :=
  if 256 ≤ n then .next s
  else match claim with
    | none => .next (semWriteAs n fn v s)
    | some g =>
      if !acrossPorts s fn g then .next (semWriteAs n fn v s)
      else
        let o := semFirst s n fn g
        let s := semTieSet n o.2 s
        .next (if o.1 = fn then semReadAs n g (semWriteAs n fn v s) else semWriteAs n fn v (semReadAs n g s))

/-- The effect of a SEM_FORCE write (R280). -/
def semForceWrite (f : Nat) (v : W32) (s : State) : State :=
  let n := v.toNat % 256
  if on s fld.sem.HELD n && on s fld.sem.EXPIRED n && get s fld.sem.OWNER n / 16 != f / 16 then
    semFree n (raise 4 n (bump .semForced s))
  else s

/-- SEM_FORCE (R280). -/
def execSemForce (fn : Nat) (v : W32) (s : State) : Out := .next (hostWrite fn .semForce 0 0 v (semForceWrite fn v) s)

/-- SEM_LEASE_EXPIRE (R280): LEASE_US after the claim or the last renewal. -/
def execSemLeaseExpire (n : Nat) (s : State) : Out :=
  let us := get s fld.semCfg.LEASE_US n
  if 256 ≤ n || !on s fld.sem.HELD n || on s fld.sem.EXPIRED n || us = 0 then .next s
  else
    let t := Map.get (fun _ => 0) s.hst.semAt n + BitVec.ofNat 64 (us * 1000)
    .next (raise 5 n (put fld.sem.EXPIRED 1 (advance t s) n))

/-! ## Ring registers -/

/-- A ring error raised (R282, R283). -/
def ringErr (r : Nat) (s : State) : State := raise 1 r s

/-- Whether a context's completions are bound to a CPL ring. -/
def ctxBound (s : State) (r : Nat) : Bool :=
  (List.range 128).any (fun c => on s fld.ctxCpl.EN c && get s fld.ctxCpl.RING c == r)

/-- Whether a running ring of a kind names a CPL ring. -/
def cplNamed (s : State) (kind r : Nat) : Bool :=
  (List.range 64).any (fun q => ringRuns s q kind && get s fld.ringCtrl.CPL q == r)

/-- Whether the CPL field of a CMD or TX ring meets R285: a CPL ring of the same function that does not serve the other
kind. -/
def cplFits (s : State) (r : Nat) : Bool :=
  let kind := get s fld.ringCtrl.KIND r
  let c := get s fld.ringCtrl.CPL r
  if kind = 0 || kind = 4 then
    get s fld.ringCtrl.KIND c == 1 && get s fld.ringCtrl.FN c == get s fld.ringCtrl.FN r
      && (if kind = 4 then !cplNamed s 0 c && !ctxBound s c else !cplNamed s 4 c)
  else true

/-- Whether a ring may be enabled as its fields stand (R282). -/
def ringFits (s : State) (r : Nat) : Bool :=
  decide (get s fld.ringCtrl.KIND r ≤ 4) && pcieFn s (get s fld.ringCtrl.FN r)
    && decide (4 ≤ get s fld.ringCtrl.LOG2SZ r) && decide (get s fld.ringCtrl.LOG2SZ r ≤ 16) && cplFits s r

/-- Whether the device produces a ring's entries (R283). -/
def deviceProduces (s : State) (r : Nat) : Bool := get s fld.ringCtrl.KIND r == 1 || get s fld.ringCtrl.KIND r == 2

/-- The effect of FLUSH written with 1: nothing on a ring that the device produces (R288). -/
def flushWrite (r : Nat) (s : State) : State := if deviceProduces s r then s else put fld.ringCtrl.FLUSH 1 s r

/-- The effect of a write of RING_CTRL (R272, R282, R288). -/
def ringCtrlWrite (pf : Bool) (r : Nat) (v : W32) (s : State) : State :=
  let was := on s fld.ringCtrl.EN r
  let fn := v.toNat / 16 % 32
  let absent := pf && !pcieFn s fn
  let v1 := if absent then withBits v.toNat 4 5 (get s fld.ringCtrl.FN r) else v.toNat
  let s := plainWrite pf .ringCtrl r 0 (BitVec.ofNat 32 (withBits v1 15 1 0)) s
  let s := if !was && on s fld.ringCtrl.EN r then
      (if !absent && ringFits s r then put fld.ringCtrl.ERR 0 s r
       else ringErr r (put fld.ringCtrl.ERR 1 (put fld.ringCtrl.EN 0 s r) r))
    else s
  if v.toNat / 2 ^ 15 % 2 = 1 then flushWrite r s else s

/-- EV_SUPPLY, owed since a rail fault, raised once a host can read events (R330). -/
def paySupplyEvent (s : State) : State :=
  if s.pwr.supplyEv && (List.range 32).any (fun f => routeLive s f 105 && on s fld.ringCtrl.EN (get s fld.route.RING f 105)) then
    raise0 105 { s with pwr := { s.pwr with supplyEv := false } }
  else s

/-- RING_ENABLE (R282). -/
def execRingEnable (r fn : Nat) (v : W32) (s : State) : Out :=
  if 64 ≤ r then .next s else .next (hostWrite fn .ringCtrl r 0 v (fun t => paySupplyEvent (ringCtrlWrite (isPf fn) r v t)) s)

/-- The buffers that a function has posted on an RX ring and the device has not filled. -/
def postedOn (s : State) (r : Nat) : List RxPost := Map.get (fun _ => []) s.hst.rxPosted r

/-- The posted buffers of a ring replaced. -/
def setPosted (r : Nat) (q : List RxPost) (s : State) : State :=
  { s with hst := { s.hst with rxPosted := Map.put s.hst.rxPosted r q } }

/-- The effect of a write of TAIL (R283, R287): refused at or above the size, or where it would pass HEAD. -/
def ringTailEffect (r : Nat) (v : W32) (posted : List RxPost) (s : State) : State :=
  let size := ringSize s r
  let x := v.toNat % 65536
  let added := (x + size - get s fld.ringTail.TAIL r) % size
  let occ := ringOcc s r
  if deviceProduces s r then s
  else if size ≤ x || size - 1 < occ + added then ringErr r s
  else
    let s := put fld.ringTail.TAIL x s r
    let s := if get s fld.ringCtrl.KIND r = 3 then setPosted r (postedOn s r ++ posted.take added) s else s
    if crosses occ (occ + added) (get s fld.ringLevel.RING_LEVEL r) then
      raise 0 r (setBit fld.ringStatus.RING_STATUS 0 s r)
    else s

/-- RING_TAIL_WRITE (R283, R287). -/
def execRingTailWrite (r fn : Nat) (v : W32) (posted : List RxPost) (s : State) : Out :=
  if 64 ≤ r then .next s else .next (hostWrite fn .ringTail r 0 v (ringTailEffect r v posted) s)

/-- The effect of a write of HEAD (R283). -/
def ringHeadEffect (r : Nat) (v : W32) (s : State) : State :=
  let size := ringSize s r
  let x := v.toNat % 65536
  if !deviceProduces s r then s
  else if size ≤ x || ringOcc s r < (x + size - get s fld.ringHead.HEAD r) % size then ringErr r s
  else put fld.ringHead.HEAD x s r

/-- RING_HEAD_WRITE (R283). -/
def execRingHeadWrite (r fn : Nat) (v : W32) (s : State) : Out :=
  if 64 ≤ r then .next s else .next (hostWrite fn .ringHead r 0 v (ringHeadEffect r v) s)

/-! ## Flush -/

/-- RING_FLUSH (R288): FLUSH written with 1. -/
def execRingFlush (r fn : Nat) (s : State) : Out :=
  if 64 ≤ r then .next s else .next (hostWrite fn .ringCtrl r 0 (rd s .ringCtrl r ||| 0x8000) (flushWrite r) s)

/-- Words 2 to 7 of the RX descriptor at HEAD written back, HEAD advanced and written back (R256, R283, Table 9-4). -/
def rxWriteBack (r : Nat) (w2 w3 : Nat) (ts : W64) (frac flen : Nat) (s : State) : State :=
  let fn := get s fld.ringCtrl.FN r
  let h := get s fld.ringHead.HEAD r
  let words := [w2, w3, ts.toNat % 2 ^ 32, ts.toNat / 2 ^ 32, frac, flen].map (BitVec.ofNat 32)
  let s := hmemPut fn (ringAddr s r h + 8) (wordBytes words) s
  let s := setPosted r ((postedOn s r).drop 1) (advanceHead r 1 s)
  hmemPut fn (get s fld.ringWbLo.WB_LO r + 2 ^ 32 * get s fld.ringWbHi.WB_HI r) (leBytes 4 (get s fld.ringHead.HEAD r)) s

/-- Every posted RX buffer written back empty (R288). -/
def rxFlush (r : Nat) : Nat → State → State
  | 0, s => s
  | n + 1, s => rxFlush r n (rxWriteBack r (2 ^ 17) 0 0 0 0 s)

/-- Whether a ring's head command has started and has not completed (R288): its DMA has begun. -/
def ringStarted (s : State) (r : Nat) : Bool :=
  s.hst.imports.any (fun i => match i.cmd with | some h => h.ring == r | none => false)
    || s.vat.waiting.any (fun w => match w.cmd with | some (h, op, _) => h.ring == r && op == 0x22 | none => false)
    || (List.range 32).any (fun p => match (portOf s p).wire with
      | some f => (match f.src with | .ring q _ => q == r | _ => false)
      | none => false)

/-- Commands of a ring that wait before they have started are given up. -/
def dropHeld (r : Nat) (s : State) : State :=
  { s with
    vat := { s.vat with waiting := s.vat.waiting.filter (fun w =>
      match w.cmd with | some (h, _, _) => h.ring != r | none => true) }
    hst := { s.hst with cplWait := s.hst.cplWait.filter (fun w =>
      match w with | .cmd _ i => cmdRing i != some r | .record _ _ _ => true) } }

/-- Queued frames of a TX ring dropped from a port. -/
def dropRingFrames (r p : Nat) (s : State) : State :=
  let mine := fun (f : QFrame) => match f.src with | .ring q _ => q == r | _ => false
  let out := (portOf s p).queue.filter mine
  if out.isEmpty then s else forEach out (fun f u => frameEnds f txDropped u) (dequeue p mine s)

/-- An entry not yet started completed by a flush: FLUSHED for a command, DROPPED for a frame. -/
def flushEntry (r : Nat) (x : FlushedEntry) (s : State) : State :=
  if ringOcc s r < x.span then s
  else if get s fld.ringCtrl.KIND r = 4 then
    txComplete r (get s fld.ringHead.HEAD r) x.tag txDropped (advanceHead r x.span s)
  else completeCmd ⟨r, x.tag, x.ctx⟩ x.op.toNat x.span 0x1B 0 s

/-- FLUSH_COMPLETE (R288). The unstarted entries of a CMD or TX ring are `heads`, from HEAD on. -/
def execFlushComplete (r : Nat) (heads : List FlushedEntry) (s : State) : Out :=
  if 64 ≤ r || !on s fld.ringCtrl.FLUSH r || ringStarted s r then .next s
  else if get s fld.ringCtrl.KIND r = 3 then .next (put fld.ringCtrl.FLUSH 0 (rxFlush r (ringOcc s r) s) r)
  else if (heads.map (fun x => x.span)).sum != ringOcc s r then .next s
  else
    let s := forEach (List.range 32) (dropRingFrames r) (dropHeld r s)
    let s := forEach heads (flushEntry r) s
    .next (put fld.ringCtrl.FLUSH 0 (put fld.ringHead.HEAD (get s fld.ringTail.TAIL r) s r) r)

/-- RING_DMA_FAULT (R301). -/
def execRingDmaFault (r : Nat) (s : State) : Out :=
  if 64 ≤ r || !on s fld.ringCtrl.EN r then .next s
  else .next (raise 9 r (setBit fld.ringStatus.RING_STATUS 3 (put fld.ringCtrl.EN 0 (bump .dmaFault s) r) r))

/-! ## BAR2 -/

/-- Window base of a function. -/
def bar2Base (s : State) (fn : Nat) : Nat := Map.get (fun _ => 0) s.hst.bar2 fn

/-- Device address of a BAR2 offset (R275). -/
def bar2Addr (s : State) (fn off : Nat) : Nat := bar2Base s fn * 2 ^ 28 + off

/-- Whether a function reaches a byte range of frame memory: a virtual function only allocations of its contexts. -/
def bar2May (s : State) (fn addr n : Nat) : Bool :=
  isPf fn || (match allocAt s addr n with | some a => ctxOwner s a.ctx == fn | none => false)

/-- Whether a write lands: inside an allocation that is not under retire (R299); before the device leaves BOOT there
is no allocation, and a host puts its image into frame memory (R343). -/
def bar2Lands (s : State) (addr n : Nat) : Bool :=
  match allocAt s addr n with
  | some a => a.fence.isNone
  | none => mode s == 1 && decide (addr + n ≤ memMib s.member * 1048576)

/-- The MEMW record of a write into a context allocation (Table 11-3). -/
def journalMem (addr : Nat) (data : List Byte) (s : State) : State := journal 0x05 (leBytes 8 (addr / 4) ++ data) s

/-- Bytes of frame memory that hold a poisoned word (R55). -/
def markBad (a n : Nat) (s : State) : State :=
  { s with fbad := s.fbad.filter (fun x => decide (x < a) || decide (a + n ≤ x)) ++ (List.range n).map (fun k => a + k) }

/-- BAR2_WRITE (R275, R299, R315). In SAFE PCIe answers nothing but configuration and BAR0 (R340). With `poisoned` the data
arrives poisoned, or its words fail ECC from then on (log 103). -/
def execBar2Write (fn off : Nat) (data : List Byte) (poisoned : Bool) (s : State) : Out :=
  let addr := bar2Addr s fn off
  let n := data.length
  if !pcieFn s fn || !hostUp s fn || mode s = 7 || blockTested s 27 then .next s
  else if !bar2May s fn addr n then .next (denied fn (addr / 256) s)
  else if standby s then .next (bump .twinWrRefused s)
  else if bar2Lands s addr n then .next (journalMem addr data (when poisoned (markBad addr n) (fmemPut addr data s)))
  else
    let s := put fld.hostErrFn.HOST_ERR_FN fn (wr .hostErrAddr (BitVec.ofNat 32 (addr / 256)) (bump .retireWrite s))
    .next (raise0 8 (setBit fld.hostStatus.HOST_STATUS 0 s))

/-- `n` bytes of frame memory; bytes beyond the stack read zero (R275). -/
def stackRead (s : State) (addr n : Nat) : List Byte :=
  (memRead s.fmem addr n).zipIdx.map (fun x => if addr + x.2 < memMib s.member * 1048576 then x.1 else 0)

/-- BAR2_READ (R275, R299). -/
def execBar2Read (fn off n : Nat) (s : State) : Out :=
  let addr := bar2Addr s fn off
  if !pcieFn s fn || !hostUp s fn || mode s = 7 || blockTested s 27 then .next s
  else if !bar2May s fn addr n then .next { denied fn (addr / 256) s with rdata := List.replicate n 0 }
  else .next { wakeMem s with rdata := stackRead s addr n }

/-! ## Resets and links -/

/-- A semaphore released by a reset of its holder, with a generation increment (R276). -/
def semReset (f n : Nat) (s : State) : State :=
  if on s fld.sem.HELD n && get s fld.sem.OWNER n == f then semFree n (put fld.sem.GEN (get s fld.sem.GEN n + 1) s n) else s

/-- A context of a function that is reset: it is disabled, which an active twin journals as the write of CTX_CTRL that it is
equal to (R314); on a standby nothing local changes it (R315). -/
def resetCtx (f c : Nat) (s : State) : State :=
  if ctxOwner s c != f || standby s || !on s fld.ctxCtrl.EN c then s
  else
    let v := withBits (rd s .ctxCtrl c).toNat 0 1 0
    disableCtx c (journal 0x03 (leBytes 4 (RegId.off .ctxCtrl c 0) ++ leBytes 4 v ++ leBytes 4 f) s)

/-- What a function loses at its reset (R276): its rings stop, its semaphores go, its contexts are disabled, its event
routing is off, and its MSI-X state takes its PCIe reset values (Table 14-3). -/
def clearFn (f : Nat) (s : State) : State :=
  let s := forEach (List.range 64) (fun r u => if get u fld.ringCtrl.FN r == f then put fld.ringCtrl.EN 0 u r else u) s
  let s := forEach (List.range 256) (semReset f) s
  let s := forEach (List.range 128) (resetCtx f) s
  let s := forEach (List.range 128) (fun e u => put fld.route.EN 0 u f e) s
  { s with hst := { s.hst with
      msixTab := s.hst.msixTab.filter (fun x => x.1 / 2 ^ 20 != f)
      msixPend := s.hst.msixPend.filter (fun x => x.1 != f)
      msixCtl := s.hst.msixCtl.filter (fun x => x.1 != f) } }

/-- What a reset of a function does, its completion raised (R276). -/
def resetFn (f : Nat) (s : State) : State := raise0 13 (clearFn f s)

/-! ## Virtual functions (R272) -/

/-- Virtual functions that SR-IOV enables on a port. -/
def vfCount (s : State) (port : Nat) : Nat := (s.hst.fnPresent.filter (fun f => f / 16 == port && f % 16 != 0)).length

/-- The functions that exist with so many virtual functions on each port. -/
def presentFns (n0 n1 : Nat) : List Nat := List.range (n0 + 1) ++ (List.range (n1 + 1)).map (fun k => 16 + k)

/-- SR-IOV of a port set to `n` virtual functions: those that go lose what a reset of a function takes (R272; log 9). -/
def setVfs (port n : Nat) (s : State) : State :=
  let n := Nat.min n 15
  let s := forEach (s.hst.fnPresent.filter (fun f => f / 16 == port && decide (n < f % 16))) clearFn s
  { s with hst := { s.hst with fnPresent :=
      if port = 0 then presentFns n (vfCount s 1) else presentFns (vfCount s 0) n } }

/-- A function reset; that of a physical function disables SR-IOV, and its virtual functions go (Table 14-3). -/
def flrFn (f : Nat) (s : State) : State :=
  if f % 16 = 0 then setVfs (f / 16) 0 (resetFn f s) else resetFn f s

/-- FUNCTION_LEVEL_RESET (R276). -/
def execFunctionLevelReset (fn : Nat) (s : State) : Out := .next (if pcieFn s fn then flrFn fn s else s)

/-- A PCIe port's link at a rate and width; a change is raised (R271). -/
def pcieLinkTo (host rate width : Nat) (s : State) : State :=
  let lo := if host = 0 then 0 else 16
  let old := (rd s .pcieLink).toNat
  let new := withBits (withBits old lo 2 rate) (lo + 4) 2 width
  if new = old then s
  else raise 12 host (setBit fld.hostStatus.HOST_STATUS 3 (wr .pcieLink (BitVec.ofNat 32 new) s))

/-- PERST_N (R276, R335): while it is low the port is held in reset with its link down; every function of the port is reset
as it falls, and SR-IOV is off. -/
def execPerstN (host : Nat) (low : Bool) (s : State) : Out :=
  if 2 ≤ host then .next s
  else
    let others := s.hst.perst.filter (fun h => h != host)
    if !low then .next { s with hst := { s.hst with perst := others } }
    else
      let s := setVfs host 0 (forEach (s.hst.fnPresent.filter (fun f => f / 16 == host)) resetFn s)
      let s := { s with hst := { s.hst with perst := others ++ [host] } }
      .next (pcieLinkTo host 0 0 s)

/-- PCIE_LINK_CHANGE (R271): a change of link state, rate or width; a port held in PERST_N has no link. -/
def execPcieLinkChange (host : Nat) (rate width : BitVec 2) (s : State) : Out :=
  if 2 ≤ host || s.hst.perst.contains host then .next s else .next (pcieLinkTo host rate.toNat width.toNat s)

/-! ## BAR4 and configuration space (R273, R300) -/

/-- Vectors of a function (R300). -/
def vectorCount (f : Nat) : Nat := if isPf f then 128 else 32

/-- Vectors of a function that are pending and no longer masked are signalled, in rising order. -/
def payVectors (f : Nat) (s : State) : State :=
  forEach (List.range (vectorCount f)) (fun v u =>
    if u.hst.msixPend.contains (f, v) && !vectorMasked u f v then
      signalVector f v { u with hst := { u.hst with msixPend := u.hst.msixPend.filter (fun x => x != (f, v)) } }
    else u) s

/-- A 32-bit write of BAR4: a word of the function's MSI-X table; the Pending Bit Array is read-only. -/
def bar4Write (f off : Nat) (v : W32) (s : State) : State :=
  if 16 * vectorCount f ≤ off then s
  else
    let v := if off / 4 % 4 = 3 then v &&& 1 else if off / 4 % 4 = 0 then v &&& 0xFFFFFFFC else v
    payVectors f { s with hst := { s.hst with msixTab := Map.set msixDefault s.hst.msixTab (msixKey f (off / 4)) v } }

/-- A 32-bit word of BAR4: the MSI-X table at 0x0000, the Pending Bit Array at 0x8000. -/
def bar4Word (s : State) (f off : Nat) : W32 :=
  if off < 16 * vectorCount f then Map.get msixDefault s.hst.msixTab (msixKey f (off / 4))
  else if 0x8000 ≤ off ∧ off < 0x8000 + vectorCount f / 8 then
    BitVec.ofNat 32 (((List.range 32).filter (fun k => s.hst.msixPend.contains (f, (off - 0x8000) / 4 * 32 + k))).map
      (fun k => 2 ^ k)).sum
  else 0

/-- A 32-bit write of a function's configuration space: MSI-X Enable and Function Mask, and SR-IOV's count of virtual
functions with VF Enable, at the offsets of log 9. -/
def configWrite (f off : Nat) (v : W32) (s : State) : State :=
  if off = 0x70 then
    payVectors f { s with hst := { s.hst with
      msixCtl := Map.set (fun _ => 0) s.hst.msixCtl f (v.toNat / 2 ^ 30 % 4 * 2 ^ 14) } }
  else if off = 0x110 ∧ f % 16 = 0 then setVfs (f / 16) (if v.getLsbD 31 then v.toNat % 65536 else 0) s
  else s

/-- A 32-bit word of a function's configuration space: the identifiers of Table 0-4, MSI-X and SR-IOV control. -/
def configWord (s : State) (f off : Nat) : W32 :=
  let dev := pcieDevice s.member (f % 16 != 0)
  BitVec.ofNat 32 (match off with
    | 0x00 => pcieVendor + 65536 * dev
    | 0x08 => pcieRevision + 256 * pcieClass
    | 0x2C => pcieVendor + 65536 * dev
    | 0x70 => Map.get (fun _ => 0) s.hst.msixCtl f * 2 ^ 16
    | 0x110 => if f % 16 = 0 then vfCount s (f / 16) + (if vfCount s (f / 16) = 0 then 0 else 2 ^ 31) else 0
    | _ => 0)

end Sys2Proof.Machine
end

