-- ==== Sys2Proof/Machine/Frame.lean ====
section
/-!
DEFINITION. Received frames as the ports read them: headers, bad frames (R255), the matching order (R254), flow entries
(R258), ENP messages and the payloads that nodes send (R179, R186, R187, R264), pause frames (R250); the octets of a sent
frame on the wire (R242).
-/

namespace Sys2Proof.Machine

/-! ## Bytes of a frame (log 122) -/

/-- A big-endian field of a frame. -/
def frameBe (b : List Byte) (o n : Nat) : Nat := ofBe ((b.drop o).take n)

/-- A frame's 802.1Q tag. -/
def frameTci (b : List Byte) : Option Nat := if frameBe b 12 2 = 0x8100 then some (frameBe b 14 2) else none

/-- Where a frame's network header begins and its EtherType. -/
def etherOf (b : List Byte) : Nat × Nat :=
  if frameBe b 12 2 = 0x8100 then (18, frameBe b 16 2) else (14, frameBe b 12 2)

/-- The UDP datagram of a frame: offset of its header, IPv6, destination address, destination port. -/
def udpOf (b : List Byte) : Option (Nat × Bool × Nat × Nat) :=
  let x := etherOf b
  let o := x.1
  let v4 := o + frameBe b o 1 % 16 * 4
  if x.2 = 0x0800 && frameBe b (o + 9) 1 = 17 then some (v4, false, frameBe b (o + 16) 4, frameBe b (v4 + 2) 2)
  else if x.2 = 0x86DD && frameBe b (o + 6) 1 = 17 then some (o + 40, true, frameBe b (o + 24) 16, frameBe b (o + 42) 2)
  else none

/-- The destination UDP port of a frame. -/
def udpPort (b : List Byte) : Option Nat := (udpOf b).map (fun x => x.2.2.2)

/-- A received pause (R250): IEEE 802.3 with one quanta value, or IEEE 802.1Qbb with the enable bits and eight. -/
inductive PauseMsg where
  | pause (q : W16)
  | pfc (enable : Byte) (quanta : List W16)
deriving DecidableEq, Repr

/-- A pause frame's content (R250): EtherType 0x8808 with the opcode of IEEE 802.3 or of IEEE 802.1Qbb. -/
def pauseOf (b : List Byte) : Option PauseMsg :=
  let x := etherOf b
  if x.2 != 0x8808 then none
  else match frameBe b x.1 2 with
    | 0x0001 => some (.pause (BitVec.ofNat 16 (frameBe b (x.1 + 2) 2)))
    | 0x0101 => some (.pfc (BitVec.ofNat 8 (frameBe b (x.1 + 3) 1))
        ((List.range 8).map (fun c => BitVec.ofNat 16 (frameBe b (x.1 + 4 + 2 * c) 2))))
    | _ => none

/-! ## ENP messages (R179) -/

/-- A received ENP message: its header fields, whether fewer than LENGTH bytes follow, and LENGTH bytes of payload. -/
structure EnpMsg where
  type : Nat
  canvas : Byte
  epoch : W32
  node : W32
  short : Bool
  payload : List Byte
deriving DecidableEq, Repr

/-- The bytes of a frame from its ENP header on: after EtherType 0x88B5, or of a datagram to the ENP UDP port. -/
def enpBytes (s : State) (b : List Byte) : Option (List Byte) :=
  let x := etherOf b
  if x.2 = 0x88B5 then some (b.drop x.1)
  else match udpOf b with
    | some (o, _, _, q) => if q = get s fld.epCtrl.UDP_PORT then some (b.drop (o + 8)) else none
    | none => none

/-- The message of ENP bytes; none where VERSION is not 0x01 or the header is cut short, which a receiver ignores. -/
def enpParse (e : List Byte) : Option EnpMsg :=
  if e.length < 24 || frameBe e 0 1 != 1 then none
  else
    let n := frameBe e 14 2
    some ⟨frameBe e 1 1, e.getD 3 0, BitVec.ofNat 32 (frameBe e 4 4), BitVec.ofNat 32 (frameBe e 8 4),
      decide (e.length - 24 < n), (e.drop 24).take n⟩

/-- One output record of a STAT (Table 7-8): the output and its string result codes. -/
structure StatRec where
  output : Byte
  results : List (BitVec 4)
deriving DecidableEq, Repr

/-- A STAT (Tables 7-4, 7-8); `malformed` where its payload does not hold its records. -/
structure StatMsg where
  canvas : Byte
  epoch : W32
  node : W32
  sflags : Byte
  temp : Byte
  lastSeq : W16
  records : List StatRec
  malformed : Bool
deriving DecidableEq, Repr

/-- The result of string `i` of a record that begins at `o`: the high half of a byte holds the even string. -/
def statNibble (p : List Byte) (o i : Nat) : BitVec 4 :=
  BitVec.ofNat 4 ((p.getD (o + 4 + i / 2) 0).toNat / (if i % 2 = 0 then 16 else 1))

/-- Output record `k` of a STAT payload. -/
def statRecord (p : List Byte) (k : Nat) : StatRec :=
  let o := 8 + 20 * k
  ⟨p.getD o 0, (List.range (frameBe p (o + 1) 1)).map (statNibble p o)⟩

/-- A STAT read from its message (Table 7-8). -/
def statOf (q : EnpMsg) : StatMsg :=
  let p := q.payload
  let n := frameBe p 0 1
  let rs := (List.range n).map (statRecord p)
  ⟨q.canvas, q.epoch, q.node, p.getD 1 0, p.getD 2 0x80, BitVec.ofNat 16 (frameBe p 4 2), rs,
    q.short || decide (p.length < 8 + 20 * n) || rs.any (fun r => decide (32 < r.results.length))⟩

/-- What the service cluster reads of a DISC REPLY (Table 7-7): outputs, node MAC, shortest on-time in nanoseconds, node
ID. -/
structure DiscReply where
  nout : Nat
  mac : Nat
  minProof : Nat
  node : Nat
deriving DecidableEq, Repr

/-- The REPLY that a DISC message carries. -/
def discReply (q : EnpMsg) : Option DiscReply :=
  let p := q.payload
  if q.type != 6 || q.short || frameBe p 0 1 != 1 || p.length < 32 then none
  else some ⟨frameBe p 1 1, frameBe p 4 6, frameBe p 24 4, frameBe p 28 4⟩

/-! ## Bad frames (R255) -/

/-- The error flags of a frame: [0] FCS, [1] RUNT, [2] GIANT, [3] CODE (Tables 9-3, 9-4). A frame's length counts its FCS. -/
def badFlags (s : State) (p : Nat) (m : RxFrame) : Nat :=
  let n := m.bytes.length + 4
  (if m.fcs then 1 else 0) + (if n < 64 then 2 else 0)
    + (if p < 16 && get s fld.macCtrl.MAX_LEN p < n then 4 else 0) + (if m.code then 8 else 0)

/-- The first error of a bad frame, in the order in which R255 names them. -/
def firstBad (flags : Nat) : Nat :=
  if flags % 2 = 1 then 0 else if flags / 2 % 2 = 1 then 1 else if flags / 4 % 2 = 1 then 2 else 3

/-! ## Matching (R254, R258) -/

/-- A port's MAC. -/
def portMac (s : State) (p : Nat) : Nat :=
  if p < 16 then get s fld.macHi.MAC_HI p * 2 ^ 32 + (rd s .macLo p).toNat
  else get s fld.t1sMacHi.MAC_HI (p - 16) * 2 ^ 32 + (rd s .t1sMacLo (p - 16)).toNat

/-- Whether a frame is filtered: unicast to another MAC (R254). -/
def filtered (s : State) (p : Nat) (b : List Byte) : Bool :=
  frameBe b 0 1 % 2 == 0 && frameBe b 0 6 != portMac s p && !(decide (p < 16) && on s fld.macCtrl.PROMISC p)

/-- Whether a flow entry takes frames: enabled and not refused. -/
def flowOn (s : State) (p f : Nat) : Bool := on s fld.flowCtrl.EN p f && !on s fld.flowCtrl.CFG_ERR p f

/-- The address of a flow entry. -/
def flowAddr (s : State) (p f : Nat) : Nat :=
  if on s fld.flowCtrl.IPV6 p f then
    (((rd s .flowIp0 p f).toNat * 2 ^ 32 + (rd s .flowIp1 p f).toNat) * 2 ^ 32 + (rd s .flowIp2 p f).toNat) * 2 ^ 32
      + (rd s .flowIp3 p f).toNat
  else (rd s .flowIp0 p f).toNat

/-- Whether a frame matches a flow entry. -/
def flowMatch (s : State) (p f : Nat) (b : List Byte) : Bool :=
  flowOn s p f &&
    (match udpOf b with
     | some (_, v6, a, q) =>
       v6 == on s fld.flowCtrl.IPV6 p f && a == flowAddr s p f && q == get s fld.flowCtrl.UDP_PORT p f
     | none => false)
    && (!on s fld.flowCtrl.VMATCH p f ||
      (match frameTci b with | some t => t % 4096 == get s fld.flowVid.VID p f | none => false))

/-- Where a received frame goes. -/
inductive Route where
  | off
  | bad (flags : Nat)
  | filtered
  | pause (m : PauseMsg)
  | stat (q : EnpMsg)
  | service (disc : Option DiscReply)
  | flow (f : Nat)
  | other
  | ignored
deriving DecidableEq, Repr

/-- Whether a port hears frames: it is present and enabled, and its clock runs (R18, R334). -/
def portHears (s : State) (p : Nat) : Bool := decide (p < 32) && portSends s p && portClock s

/-- Whether a frame is one of PTP or LLDP (R254). -/
def isService (b : List Byte) : Bool :=
  let ty := (etherOf b).2
  ty == 0x88F7 || ty == 0x88CC || udpPort b == some 319 || udpPort b == some 320

/-- The destinations after the ENP messages: service, flow entries, the default ring. -/
def plainRoute (s : State) (p : Nat) (b : List Byte) : Route :=
  if isService b then .service none
  else if 16 ≤ p then .ignored
  else match (List.range 16).find? (fun f => flowMatch s p f b) with
    | some f => .flow f
    | none => .other

/-- The first destination of a frame that matches, in the order of R254. -/
def rxRoute (s : State) (p : Nat) (m : RxFrame) : Route :=
  let b := m.bytes
  if !portHears s p then .off
  else if badFlags s p m != 0 then .bad (badFlags s p m)
  else if filtered s p b then .filtered
  else match pauseOf b with
    | some q => .pause q
    | none =>
      match enpBytes s b with
      | none => plainRoute s p b
      | some e =>
        match enpParse e with
        | none => .ignored
        | some q => if q.type = 7 then .stat q else if q.type = 6 then .service (discReply q) else plainRoute s p b

/-! ## Octets on the wire (R242) -/

/-- One bit of the reflected register of the Ethernet frame check sequence. -/
def fcsBit : Nat → Nat → Nat
  | 0, c => c
  | n + 1, c => fcsBit n (if c % 2 = 1 then Nat.xor (c / 2) 0xEDB88320 else c / 2)

/-- The register over bytes. -/
def fcsFrom : Nat → List Byte → Nat
  | c, [] => c
  | c, b :: bs => fcsFrom (fcsBit 8 (Nat.xor c b.toNat)) bs

/-- The frame check sequence of a frame, in the order in which it is sent. -/
def fcsOf (b : List Byte) : List Byte := leBytes 4 (Nat.xor (fcsFrom 0xFFFFFFFF b) 0xFFFFFFFF)

/-- A frame that the device builds, from its destination MAC: its port's MAC as source, the tag, the EtherType or the IP and
UDP headers, the message. The IP and UDP header bytes are free: the manual does not give the device's addresses. -/
def builtFrame (s : State) (p : Nat) (d : Dest) (msg : List Byte) : List Byte :=
  let head := beBytes 6 d.mac ++ beBytes 6 (portMac s p)
    ++ (match d.vlan with | some (pcp, vid) => [0x81, 0x00] ++ beBytes 2 (pcp * 8192 + vid) | none => [])
  match d.udp with
  | none => head ++ beBytes 2 d.ether ++ msg
  | some (v6, a, sp, dp) =>
    head ++ beBytes 2 (if v6 then 0x86DD else 0x0800)
      ++ (List.range (if v6 then 48 else 28)).map (Config.udpHeader v6 a sp dp msg) ++ msg

/-- The octets of a frame from destination MAC to FCS: padded to 60 bytes, with the FCS appended. -/
def wireOctets (s : State) (p : Nat) (f : QFrame) : List Byte :=
  let b := match f.dest with
    | some d => builtFrame s p d f.bytes
    | none => f.bytes
  let b := b ++ List.replicate (60 - b.length) 0
  b ++ fcsOf b

end Sys2Proof.Machine
end

