-- ==== Sys2Proof/Machine/QIssue.lean ====
section
/-!
DEFINITION. Issue of a Quolasyn instruction on a core: the step limit (R90), the end of the image (R85), fields that
must be zero (R33), predicates (R34), core time (R112), and the shapes that the instruction groups share.
-/

namespace Sys2Proof.Machine

/-- What an instruction does to its task once it has issued: the task goes on, it has left the core's hands, or an
exception is raised and nothing has changed. -/
inductive Res where
  | keep (s : State) (t : Task)
  | gone (s : State)
  | exc (x : Exc)

/-- The body of an instruction. -/
abbrev Body := State → Task → Res

/-- Whether the step limit refuses the next instruction (R90). -/
def stepLimitHit (t : Task) : Bool := dSteps t.desc != 0 && decide (dSteps t.desc * 256 ≤ t.steps)

/-- Whether the fetch lies beyond the program image (R85). -/
def beyondImage (t : Task) : Bool := decide (t.prog.len * 8 ≤ t.pc.toNat)

/-! ## The registers and slots of an instruction (R53, Table 2-8) -/

/-- A scalar register's name. -/
def regS (n : BitVec 5) : Nat := n.toNat
/-- The names of `n` vector registers from one on. -/
def regsV (r : BitVec 5) (n : Nat) : List Nat := (List.range n).map (fun i => 32 + r.toNat + i)
/-- A predicate register's name. -/
def regP (n : Nat) : Nat := 64 + n % 8

/-- An instruction of the scalar slot that writes s[d]. -/
def sUse (cyc : Nat) (f : F) (srcs : List Nat) : Use := ⟨cyc, 0, false, false, regP f.p.toNat :: srcs, [regS f.d]⟩
/-- An instruction of the vector slot that writes `n` registers from v[d] on. -/
def vUse (cyc n : Nat) (f : F) (srcs : List Nat) : Use := ⟨cyc, 1, false, false, regP f.p.toNat :: srcs, regsV f.d n⟩
/-- A system or task instruction: it issues alone (R53, R82). -/
def aloneUse (cyc : Nat) : Use := ⟨cyc, 2, false, true, [], []⟩

/-- Whether two instructions at A and A + 8 issue in the same cycle (R53). Writes to s0 and p0 are discarded (R21). -/
def pairs (a b : Use) : Bool :=
  a.slot + b.slot == 1 && !(a.mem && b.mem) && !a.alone
    && !(a.writes.any (fun r => r != 0 && r != 64 && (b.reads.contains r || b.writes.contains r)))

/-- Whether an instruction issues in the cycle of the one before it. -/
def pairedWith (t : Task) (u : Use) : Bool :=
  match t.front with
  | some (pc, w) => t.pc == pc + 8 && pairs w u
  | none => false

/-- The cycles by which an instruction lengthens its core's time: of a pair, those of the longer one (DEDUCED, log 108). -/
def issueCost (t : Task) (u : Use) : Nat :=
  match t.front with
  | some (_, w) => if pairedWith t u then u.cyc - w.cyc else u.cyc
  | none => u.cyc

/-- The task with one more instruction counted and the core time of the issue added; stall cycles are free (R109). -/
def counted (s : State) (u : Use) (t : Task) : Task :=
  { t with steps := t.steps + 1, cycles := t.cycles + issueCost t u + Config.stallCycles s.free,
           front := if pairedWith t u then none else some (t.pc, u), was := none }

/-- Core time added to a context's running period (R112). -/
def addCoreTime (c n : Nat) (s : State) : State :=
  { s with sch := { s.sch with ctCount := Map.set (fun _ => 0) s.sch.ctCount c (Map.get (fun _ => 0) s.sch.ctCount c + n) } }

/-- The state after an instruction has issued and before its effect. -/
def charge (u : Use) (t : Task) (s : State) : State :=
  draw (addCoreTime t.ctx (issueCost t u + Config.stallCycles s.free) s)

/-- With TAG_EN = 1, one more instruction of a core since its last tag (R367). -/
def tagTick (k : Nat) (s : State) : State :=
  if on s fld.tagCtrl.TAG_EN then
    { s with tagCount := Map.set (fun _ => 0) s.tagCount k (Map.get (fun _ => 0) s.tagCount k + 1) }
  else s

/-- The outcome of a body: the task stored, or the exception taken (R55). -/
def settle (t : Task) (s : State) (r : Res) : State :=
  match r with
  | .keep s' t' => setTask t' s'
  | .gone s' => s'
  | .exc x => raiseExc t x s

/-- The device address that an instruction is fetched from (R32, Table 4-15). -/
def fetchAddr (t : Task) : Nat := t.prog.base * 256 + t.pc.toNat

/-- An instruction issues on a core. A core that runs no task issues nothing; one whose fetch finds a poisoned word, or one
that fails ECC, raises DATA_ERROR (R55). -/
def issue (k : Nat) (u : Use) (legal : Bool) (body : Body) (s : State) : State :=
  match taskOn s k with
  | none => s
  | some t =>
    if stepLimitHit t then terminate t 0x0A (BitVec.ofNat 32 t.steps) s
    else if beyondImage t then terminate t 4 t.pc s
    else if memBad s (fetchAddr t) 8 then terminate t 5 (BitVec.ofNat 32 (fetchAddr t)) s
    else
      let t1 := counted s u t
      let s1 := tagTick k (charge u t s)
      if legal then settle t1 s1 (body s1 t1) else terminate t1 1 t.pc s1

/-- The next instruction in order. -/
def advancePc (t : Task) : Task := { t with pc := t.pc + 8 }

/-- A body that changes only its task, in order. -/
def pureBody (g : Task → Task) : Body := fun s t => .keep s (advancePc (g t))

/-- A scalar instruction that writes s[d] under its predicate. -/
def scalarOp (k : Nat) (f : F) (u : Use) (legal : Bool) (val : Task → W32) (s : State) : State :=
  issue k u legal (pureBody (fun t => if predRuns f.p (maskOf t f) then setS f.d (val t) t else t)) s

/-- A scalar instruction of two sources with no third source. -/
def alu2 (k : Nat) (f : F) (cyc : Nat) (g : W32 → W32 → W32) (s : State) : State :=
  scalarOp k f (sUse cyc f [regS f.a, regS f.b]) (immZero f) (fun t => g (sreg t f.a) (sreg t f.b)) s

/-- A scalar instruction with a third source. -/
def alu3 (k : Nat) (f : F) (g : W32 → W32 → W32 → W32) (s : State) : State :=
  scalarOp k f (sUse 1 f [regS f.a, regS f.b, regS (cField f)]) (immC f) (fun t => g (sreg t f.a) (sreg t f.b) (sreg t (cField f))) s

/-- A scalar instruction that writes p[d] under its predicate. -/
def predOp (k : Nat) (f : F) (srcs : List Nat) (legal : Bool) (val : Task → W16) (s : State) : State :=
  issue k ⟨1, 0, false, false, regP f.p.toNat :: srcs, [regP f.d.toNat]⟩ (legal && immZero f && isPredF f.d)
    (pureBody (fun t => if predRuns f.p (maskOf t f) then setP f.d.toNat (val t) t else t)) s

/-- A predicate instruction of two predicates. -/
def pred2 (k : Nat) (f : F) (g : W16 → W16 → W16) (s : State) : State :=
  predOp k f [regP f.a.toNat, regP f.b.toNat] (isPredF f.a && isPredF f.b) (fun t => g (preg t f.a.toNat) (preg t f.b.toNat)) s

/-- A scalar immediate instruction. -/
def aluImm (k : Nat) (f : F) (legal : Bool) (g : W32 → W32 → W32) (s : State) : State :=
  scalarOp k f (sUse 1 f [regS f.a]) (f.b == 0 && legal) (fun t => g (sreg t f.a) f.imm) s

/-- A vector instruction that writes the active lanes of v[d]. -/
def vecOp (k : Nat) (f : F) (u : Use) (legal : Bool) (val : Task → Nat → W32) (s : State) : State :=
  issue k u legal (pureBody (fun t => writeLanes f f.d.toNat (val t) t)) s

/-- Sources of a lane: v[a], v[b], v[c]. -/
def la (f : F) (t : Task) (i : Nat) : W32 := lane t f.a.toNat i
/-- Lane of v[b]. -/
def lb (f : F) (t : Task) (i : Nat) : W32 := lane t f.b.toNat i
/-- Lane of v[c]. -/
def lc (f : F) (t : Task) (i : Nat) : W32 := lane t (cField f).toNat i

/-- A vector instruction that writes p[d] from its active lanes (R64). -/
def vecCmp (k : Nat) (f : F) (legal : Bool) (val : Task → Nat → Bool) (s : State) : State :=
  issue k ⟨1, 1, false, false, regP f.p.toNat :: regP f.d.toNat :: (regsV f.a 1 ++ regsV f.b 1), [regP f.d.toNat]⟩
    (legal && isPredF f.d)
    (pureBody (fun t => setP f.d.toNat (predMerge (maskOf t f) (preg t f.d.toNat) (val t)) t)) s

/-- The instruction address that cr.exinfo and s31 report: the byte offset from the program's base (log 12). -/
def instrAddr (t : Task) : W32 := t.pc

end Sys2Proof.Machine
end

