-- ==== Sys2Proof/Machine/QPixel.lean ====
section
/-!
DEFINITION. The pixel group (opcode 0x0A, R66 to R70): VMIX, VMAT3, VDITH, VUNPK and VPACK.
-/

namespace Sys2Proof.Machine

/-- A channel of pixel `i` of the planar group at register `r`: its px16 value. -/
def chan (t : Task) (r ch i : Nat) : Nat := (lane t (r + ch) i).toNat % 65536

/-- The active pixels of a planar group written, from the task as it was. -/
def writeGroup (f : F) (r : Nat) (val : Nat → Nat → Nat) (t : Task) : Task :=
  (activeLanes t f).foldl (fun u i =>
    (List.range 4).foldl (fun u ch => setLane (r + ch) i (BitVec.ofNat 32 (val ch i)) u) u) t

/-- A pixel instruction that writes a planar group. -/
def groupOp (k : Nat) (f : F) (u : Use) (legal : Bool) (val : Task → Nat → Nat → Nat) (s : State) : State :=
  issue k u (legal && isGroup f.d) (pureBody (fun t => writeGroup f f.d.toNat (val t) t)) s

/-- One channel of VMIX for pixel `i` (R67). -/
def vmixChan (mode : Nat) (f : F) (t : Task) (ch i : Nat) : Nat :=
  let top := pxMul (chan t f.b.toNat 3 i) ((sreg t (cField f)).toNat % 65536)
  if ch = 3 then mixAlpha top (chan t f.a.toNat 3 i)
  else mixColour mode top (chan t f.a.toNat ch i) (chan t f.b.toNat ch i)

/-- VMIX (R67). -/
def execVmix (k : Nat) (t : BitVec 3) (f : F) (s : State) : Out :=
  .next (groupOp k f (vUse 4 4 f (regS (cField f) :: (regsV f.a 4 ++ regsV f.b 4))) (immC f && isGroup f.a && isGroup f.b) (vmixChan t.toNat f) s)

/-- One channel of VMAT3 for pixel `i` (R68); A passes unchanged. -/
def vmat3Chan (f : F) (t : Task) (ch i : Nat) : Nat :=
  if ch = 3 then chan t f.a.toNat 3 i
  else
    let m := fun j => (lane t f.b.toNat (3 * ch + j)).toNat
    let x := fun c => pxtof fp32 (chan t f.a.toNat c i)
    ftopx fp32 (matRow (m 0) (m 1) (m 2) (x 0) (x 1) (x 2))

/-- VMAT3 (R68). -/
def execVmat3 (k : Nat) (f : F) (s : State) : Out :=
  .next (groupOp k f (vUse 3 4 f (regsV f.a 4 ++ regsV f.b 1)) (immZero f && isGroup f.a) (vmat3Chan f) s)

/-- One channel of VDITH for pixel `i`, with the threshold clamped to 65,534 (R69). -/
def vdithChan (n : Nat) (f : F) (t : Task) (ch i : Nat) : Nat :=
  ditherCode n (chan t f.a.toNat ch i) (Nat.min ((lane t f.b.toNat i).toNat % 65536) 65534)

/-- VDITH.n, n = 8 to 16 (R69); another code is an unassigned function. -/
def execVdith (k : Nat) (n : BitVec 4) (f : F) (s : State) : Out :=
  .next (groupOp k f (vUse 4 4 f (regsV f.a 4 ++ regsV f.b 1)) (immZero f && isGroup f.a && decide (n.toNat ≤ 8)) (vdithChan (8 + n.toNat) f) s)

/-- A channel of packed pixel `i` in a pair of 16-bit channels (Table 3-7). -/
def pairChan (t : Task) (r ch i : Nat) : Nat :=
  bitsOf (lane t (r + i / 8) (2 * (i % 8) + ch / 2)).toNat (16 * (ch % 2)) 16

/-- VUNPK.p16 (R70); the b field is not used, and only the forms that take a single register require it to be zero (R66). -/
def execVunpkP16 (k : Nat) (f : F) (s : State) : Out :=
  .next (groupOp k f (vUse 2 4 f (regsV f.a 2)) (immZero f && isPair f.a) (fun t ch i => pairChan t f.a.toNat ch i) s)

/-- VUNPK.u8 (R70). -/
def execVunpkU8 (k : Nat) (f : F) (s : State) : Out :=
  .next (groupOp k f (vUse 2 4 f (regsV f.a 1)) (immZero f && f.b == 0)
    (fun t ch i => fromU8 (bitsOf (lane t f.a.toNat i).toNat (8 * ch) 8)) s)

/-- VUNPK.f16 (R70, R25). -/
def execVunpkF16 (k : Nat) (f : F) (s : State) : Out :=
  .next (groupOp k f (vUse 2 4 f (regsV f.a 2)) (immZero f && isPair f.a) (fun t ch i => ftopx fp16 (pairChan t f.a.toNat ch i)) s)

/-- The lanes of a pair that carry the active pixels, written with two channels each (Table 3-7). -/
def writePair (f : F) (r : Nat) (val : Nat → Nat → Nat) (t : Task) : Task :=
  (activeLanes t f).foldl (fun u i =>
    setLane (r + i / 8) (2 * (i % 8) + 1) (BitVec.ofNat 32 (val 2 i + 65536 * val 3 i))
      (setLane (r + i / 8) (2 * (i % 8)) (BitVec.ofNat 32 (val 0 i + 65536 * val 1 i)) u)) t

/-- A VPACK into a pair. -/
def packPair (k : Nat) (f : F) (g : Nat → Nat) (s : State) : State :=
  issue k (vUse 2 2 f (regsV f.a 4)) (immZero f && isPair f.d && isGroup f.a)
    (pureBody (fun t => writePair f f.d.toNat (fun ch i => g (chan t f.a.toNat ch i)) t)) s

/-- VPACK.p16 (R70). -/
def execVpackP16 (k : Nat) (f : F) (s : State) : Out := .next (packPair k f (fun c => c) s)

/-- The u8 pixel `i` of a planar group (R70). -/
def u8Pixel (t : Task) (r i : Nat) : Nat :=
  toU8 (chan t r 0 i) + 256 * toU8 (chan t r 1 i) + 65536 * toU8 (chan t r 2 i) + 16777216 * toU8 (chan t r 3 i)

/-- VPACK.u8 (R70). -/
def execVpackU8 (k : Nat) (f : F) (s : State) : Out :=
  .next (vecOp k f (vUse 2 1 f (regsV f.a 4)) (immZero f && f.b == 0 && isGroup f.a) (fun t i => BitVec.ofNat 32 (u8Pixel t f.a.toNat i)) s)

/-- VPACK.f16 (R70, R25). -/
def execVpackF16 (k : Nat) (f : F) (s : State) : Out := .next (packPair k f (pxtof fp16) s)

end Sys2Proof.Machine
end

