-- ==== Sys2Proof/Machine/QMem.lean ====
section
/-!
DEFINITION. The LUT and gather group (opcode 0x0C, R71, R72), loads and stores (opcode 0x10, R73, Tables 2-5 and 2-9)
and VSAMP (opcode 0x11, R74 to R76).
-/

namespace Sys2Proof.Machine

/-! ## Read sets (R39) -/

/-- Whether reads of a task are recorded: a SPEC task that is neither demoted nor resumed (R78). -/
def records (t : Task) : Bool := !t.firm

/-- Whether a read would need a 17th entry (R39). -/
def setFull (t : Task) (k : InKey) : Bool := records t && !names t.readSet k && decide (16 ≤ t.readSet.length)

/-- A read recorded in the task's read set (R39). -/
def record (s : State) (k : InKey) (t : Task) : Task :=
  if records t && !names t.readSet k then
    { t with readSet := t.readSet ++ [⟨k, versionFor s k (taskInep t)⟩] }
  else t

/-! ## Layers -/

/-- The layer that a handle names for a task's context, with the index under which the log keeps it (R31, R75). -/
def layerFor (s : State) (t : Task) (h : W32) : Option (Nat × Layer) :=
  match inputKey s t (0x70000000 + h) with
  | some k => if h.toNat < 1024 then (anyLayer s k.idx).map (fun l => (k.idx, l)) else none
  | none => none

/-- The index of the layer that a handle names. -/
def layerIdx (s : State) (t : Task) (h : W32) : Nat := ((layerFor s t h).map (fun x => x.1)).getD h.toNat

/-- cr.exinfo of a layer number that is refused (R75). -/
def layerInfo (h : W32) : W32 := BitVec.ofNat 32 (0x70000000 + h.toNat % 2 ^ 28)

/-- A byte of a layer at the task's input epoch: its buffer's byte, or zero at version 0 (R293). -/
def layerByte (s : State) (t : Task) (n o : Nat) : Byte :=
  match changeFor s ⟨7, 0, n⟩ (taskInep t) with
  | some x => memGet s.fmem (x.buf.toNat * 256 + o)
  | none => 0

/-- `n` bytes of a layer as a number. -/
def layerNat (s : State) (t : Task) (l o n : Nat) : Nat := ofLe ((List.range n).map (fun k => layerByte s t l (o + k)))

/-! ## General frame memory (R30) -/

/-- Whether a range of `n` bytes at `a` meets a range of `m` bytes at `b`. -/
def meets (a n b m : Nat) : Bool := decide (a < b + m) && decide (b < a + n)

/-- Whether a range touches a pool buffer of a layer. -/
def touchesPool (a n : Nat) (l : Layer) : Bool := (poolBufs l).any (fun b => meets a n (b.toNat * 256) (layerLen l))

/-- Whether a record's version can still be read, so that its buffer is a layer's (R30, R47). -/
def recordLive (s : State) (x : Change) : Bool :=
  if x.key.idx < 1024 then versionLive s x.key (some x.version) (allTasks s) else !goneRecord s x

/-- Whether a range touches a layer's bytes: a pool buffer of a layer that exists or that tasks may still read, or a buffer
that a LAYER_SET has named while its version can still be read (R30, R47). -/
def touchesLayer (s : State) (a n : Nat) : Bool :=
  s.hst.layers.any (fun e => touchesPool a n e.2) || s.hst.gone.any (fun g => goneHeld s g && touchesPool a n g.layer) ||
    s.vat.inputs.any (fun x => x.key.kind == 7 && recordLive s x &&
      (match anyLayer s x.key.idx with
       | some l => meets a n (x.buf.toNat * 256) (layerLen l)
       | none => false))

/-- Whether a range touches a Vat slot of an enabled canvas (R30). -/
def touchesVat (s : State) (a n : Nat) : Bool :=
  (List.range 64).any (fun c => on s fld.canvasCtrl.EN c &&
    meets a n (get s fld.vatBase.VAT_BASE c * 256)
      (get s fld.vatSize.DEPTH_MAX c * (get s fld.vatSize.STRIDE c * 256)))

/-- Whether a task may reach a byte range of frame memory (R30). -/
def fmAllowed (s : State) (t : Task) (a n : Nat) : Bool :=
  (match allocAt s a n with | some x => x.ctx == t.ctx | none => false) && !touchesLayer s a n && !touchesVat s a n

/-- Whether an element of frame memory is reachable at an address formed as an integer. -/
def fmInside (s : State) (t : Task) (size : Nat) (o : Int) : Bool := decide (0 ≤ o) && fmAllowed s t o.toNat size

/-- A byte of frame memory as the task sees it: its own stores first (R48). -/
def fmGet (s : State) (t : Task) (a : Nat) : Byte :=
  match Map.find? t.stores a with
  | some b => b
  | none => memGet s.fmem a

/-! ## Elements -/

/-- The base offset or address of an access (Table 2-5). -/
def spBase (sp : BitVec 2) (f : F) (t : Task) : Int :=
  match sp.toNat with
  | 2 => ((sreg t f.b).toNat : Int) + f.imm.toInt
  | 3 => ((sreg t f.a).toNat * 256 : Nat) + f.imm.toInt
  | _ => baseOff t f.a f.imm

/-- Whether an element lies inside its space. -/
def spInside (sp : BitVec 2) (f : F) (size : Nat) (s : State) (t : Task) (o : Int) : Bool :=
  match sp.toNat with
  | 0 => within t.prog.scratch size o
  | 1 => within (tileLen s t) size o
  | 2 =>
    (match layerFor s t (sreg t f.a) with
     | some l => within (layerLen l.2) size o
     | none => false)
  | _ => fmInside s t size o

/-- The bytes of an element as a number. -/
def spNat (sp : BitVec 2) (f : F) (s : State) (t : Task) (o n : Nat) : Nat :=
  match sp.toNat with
  | 0 => scratchNat t o n
  | 1 => ofLe ((List.range n).map (fun k => outGet s t (o + k)))
  | 2 => layerNat s t (layerIdx s t (sreg t f.a)) o n
  | _ => ofLe ((List.range n).map (fun k => fmGet s t (o + k)))

/-- The frame memory address of byte `o` of a load's space, where the byte comes from frame memory: a slot's byte that the
run has not staged, a layer's, or one of general memory that the task has not stored to. -/
def spAddr (sp : BitVec 2) (f : F) (s : State) (t : Task) (o : Nat) : Option Nat :=
  match sp.toNat with
  | 0 => none
  | 1 =>
    (match Map.find? t.staged o, t.canvas, t.epoch with
     | none, some c, some e =>
       (epochRec s c e).map (fun r => tileAddr s c r.slot (dRow t.desc) (dCol t.desc) o)
     | _, _, _ => none)
  | 2 => (changeFor s ⟨7, 0, layerIdx s t (sreg t f.a)⟩ (taskInep t)).map (fun x => x.buf.toNat * 256 + o)
  | _ => if (Map.find? t.stores o).isSome then none else some o

/-- The address of the first byte of an element that holds a poisoned word or fails ECC (R55). -/
def badByte (sp : BitVec 2) (f : F) (s : State) (t : Task) (size : Nat) (o : Int) : Option Nat :=
  (List.range size).findSome? (fun k =>
    match spAddr sp f s t (o.toNat + k) with
    | some a => if memBad s a 1 then some a else none
    | none => none)

/-- DATA_ERROR over the elements of the active lanes, the lowest lane first (R55, R56). -/
def dataExc (sp : BitVec 2) (size : Nat) (f : F) (offs : List Int) (s : State) (t : Task) : Option Exc :=
  (offs.findSome? (badByte sp f s t size)).map (fun a => ⟨5, BitVec.ofNat 32 a⟩)

/-- A load that reads frame memory ends its self-refresh in HOLD (R338). -/
def loadWake (sp : BitVec 2) (offs : List Int) (s : State) : State :=
  if sp == 0 || offs.isEmpty then s else wakeMem s

/-- Whether a load or store meets MEM_FAULT because of the task's class (Table 2-5). -/
def classFault (sp : BitVec 2) (store : Bool) (t : Task) : Bool := sp == 3 && !store && undoable t

/-- The exceptions of a load in the order of R56. A handle that names no layer of the task's context has no bytes, so an
aligned element raises MEM_FAULT: the rules of these groups name no INPUT_FAULT (R60, R71, R73; DEDUCED, log 106). -/
def loadExc (sp : BitVec 2) (ty : Nat) (f : F) (offs : List Int) (s : State) (t : Task) : Option Exc :=
  if offs.isEmpty then none
  else
    match checkElems offs (typeBytes ty) (fun o => !classFault sp false t && spInside sp f (typeBytes ty) s t o) with
    | some x => some x
    | none =>
    match dataExc sp (typeBytes ty) f offs s t with
    | some x => some x
    | none =>
      if sp == 2 && setFull t ⟨7, 0, layerIdx s t (sreg t f.a)⟩ then some ⟨8, layerInfo (sreg t f.a)⟩ else none

/-- A layer-space read recorded (R39). -/
def loadRecord (sp : BitVec 2) (f : F) (s : State) (t : Task) : Task :=
  if sp == 2 then record s ⟨7, 0, layerIdx s t (sreg t f.a)⟩ t else t

/-- The element at an offset, extended (R24). -/
def loadElem (sp : BitVec 2) (ty : Nat) (f : F) (s : State) (t : Task) (o : Int) : W32 :=
  extend ty (spNat sp f s t o.toNat (typeBytes ty))

/-- The b field of a load: the offset register in the layer space, else zero (Table 2-7). -/
def loadLegal (sp : BitVec 2) (f : F) : Bool := sp == 2 || f.b == 0

/-- A load or store: the slot of its data register, its base or handle with the layer's offset register, what else it reads,
and what it writes (Tables 2-5, 2-8). -/
def memUse (slot : Nat) (sp : BitVec 2) (f : F) (srcs dst : List Nat) : Use :=
  ⟨1, slot, true, false, regP f.p.toNat :: regS f.a :: ((if sp = 2 then [regS f.b] else []) ++ srcs), dst⟩

/-- LD (R73). -/
def execLd (k : Nat) (sp : BitVec 2) (t : BitVec 3) (f : F) (s : State) : Out :=
  .next (issue k (memUse 0 sp f [] [regS f.d]) (loadLegal sp f) (fun s u =>
    if !predRuns f.p (maskOf u f) then .keep s (advancePc u)
    else
      let o := spBase sp f u
      match loadExc sp t.toNat f [o] s u with
      | some x => .exc x
      | none => .keep (loadWake sp [o] s) (advancePc (setS f.d (loadElem sp t.toNat f s u o) (loadRecord sp f s u)))) s)

/-- The element offsets of a vector access: lane `i` at the base plus `i` elements (R27). -/
def laneOffs (sp : BitVec 2) (ty : Nat) (f : F) (t : Task) : List Int :=
  (activeLanes t f).map (fun i => spBase sp f t + ((i * typeBytes ty : Nat) : Int))

/-- VLD (R73). -/
def execVld (k : Nat) (sp : BitVec 2) (t : BitVec 3) (f : F) (s : State) : Out :=
  .next (issue k (memUse 1 sp f [] (regsV f.d 1)) (loadLegal sp f) (fun s u =>
    let offs := laneOffs sp t.toNat f u
    match loadExc sp t.toNat f offs s u with
    | some x => .exc x
    | none =>
      let v := fun i => loadElem sp t.toNat f s u (spBase sp f u + ((i * typeBytes t.toNat : Nat) : Int))
      .keep (loadWake sp offs s) (advancePc (writeLanes f f.d.toNat v (if offs.isEmpty then u else loadRecord sp f s u)))) s)

/-- VLDB (R73): one element to every active lane. -/
def execVldb (k : Nat) (sp : BitVec 2) (t : BitVec 3) (f : F) (s : State) : Out :=
  .next (issue k (memUse 1 sp f [] (regsV f.d 1)) (loadLegal sp f) (fun s u =>
    let o := spBase sp f u
    let offs := if (activeLanes u f).isEmpty then [] else [o]
    match loadExc sp t.toNat f offs s u with
    | some x => .exc x
    | none =>
      .keep (loadWake sp offs s) (advancePc (writeLanes f f.d.toNat (fun _ => loadElem sp t.toNat f s u o)
        (if offs.isEmpty then u else loadRecord sp f s u)))) s)

/-- Whether stores to the task's output tile are frozen (R41, R45): a FIRM task, or an epoch that is not open. -/
def tileFrozen (s : State) (t : Task) : Bool :=
  (t.firm && !t.demoted) || t.resumed ||
    (match t.canvas, t.epoch with | some c, some e => !openEp s c e | _, _ => true)

/-- A list of stored elements: offset and value, in lane order, so that the higher lane stands (R52). -/
abbrev Stores := List (Int × Nat)

/-- The exceptions of a store in the order of R56; FROZEN_STORE is not one of them. -/
def storeExc (sp : BitVec 2) (ty : Nat) (f : F) (st : Stores) (s : State) (t : Task) : Option Exc :=
  match checkElems (st.map (fun x => x.1)) (typeBytes ty) (spInside sp f (typeBytes ty) s t) with
  | some x => some x
  | none => if sp == 3 && undoable t && !st.isEmpty then some ⟨7, instrAddr t⟩ else none

/-- The effect of a store without an exception: a frozen store is counted and discarded (Table 2-14). -/
def storeDo (sp : BitVec 2) (ty : Nat) (st : Stores) (s : State) (t : Task) : Res :=
  let bytes := fun (x : Int × Nat) => leBytes (typeBytes ty) x.2
  match sp.toNat with
  | 0 => .keep s (advancePc (st.foldl (fun u x => scratchPut x.1.toNat (bytes x) u) t))
  | 1 =>
    if st.isEmpty then .keep s (advancePc t)
    else if tileFrozen s t then .keep (bump .frozenStore s) (advancePc t)
    else .keep s (advancePc { t with staged := st.foldl (fun m x => bytesPut m x.1.toNat (bytes x)) t.staged })
  | _ => .keep s (advancePc { t with stores := st.foldl (fun m x => bytesPut m x.1.toNat (bytes x)) t.stores })

/-- A store of a list of elements. -/
def storeBody (sp : BitVec 2) (ty : Nat) (f : F) (st : Stores) : Body := fun s t =>
  match storeExc sp ty f st s t with
  | some x => .exc x
  | none => storeDo sp ty st s t

/-- A store form that names the layer space is illegal (R30); d is zero (Table 2-7). -/
def storeLegal (sp : BitVec 2) (f : F) : Bool := sp != 2 && f.d == 0

/-- ST (R73). -/
def execSt (k : Nat) (sp : BitVec 2) (t : BitVec 3) (f : F) (s : State) : Out :=
  .next (issue k (memUse 0 sp f [regS f.b] []) (storeLegal sp f) (fun s u =>
    if !predRuns f.p (maskOf u f) then .keep s (advancePc u)
    else storeBody sp t.toNat f [(spBase sp f u, laneNat t.toNat (sreg u f.b))] s u) s)

/-- The elements of a VST. -/
def vstElems (sp : BitVec 2) (ty : Nat) (f : F) (t : Task) : Stores :=
  (activeLanes t f).map (fun i => (spBase sp f t + ((i * typeBytes ty : Nat) : Int), laneNat ty (lb f t i)))

/-- VST (R73). -/
def execVst (k : Nat) (sp : BitVec 2) (t : BitVec 3) (f : F) (s : State) : Out :=
  .next (issue k (memUse 1 sp f (regsV f.b 1) []) (storeLegal sp f) (fun s u => storeBody sp t.toNat f (vstElems sp t.toNat f u) s u) s)

/-! ## LUT and gather (R71, R72) -/

/-- A LUT, gather, scatter or sample instruction: the vector slot and memory (Table 2-8). -/
def gathUse (f : F) (srcs dst : List Nat) : Use := ⟨1, 1, true, false, regP f.p.toNat :: srcs, dst⟩

/-- An instruction of the active lanes that reads u16 elements of a table in the scratch area: `idx` gives the
elements of a lane, `val` the result from the table. -/
def lutOp (k : Nat) (f : F) (legal : Bool) (entries : Nat) (val : (Nat → Nat) → Nat → Nat) (s : State) : State :=
  issue k (gathUse f (regS f.b :: regsV f.a 1) (regsV f.d 1)) (legal && immZero f) (fun s u =>
    let base : Int := ((sreg u f.b).toNat : Int)
    let act := activeLanes u f
    if act.isEmpty then .keep s (advancePc u)
    else
      match checkElems [base] 2 (fun o => within u.prog.scratch (2 * entries) o) with
      | some x => .exc x
      | none =>
        let e := fun j => scratchNat u ((sreg u f.b).toNat + 2 * j) 2
        .keep s (advancePc (writeLanes f f.d.toNat (fun i => BitVec.ofNat 32 (val e ((la f u i).toNat % 65536))) u))) s

/-- VLUT.n, n = 8 to 12 (R71); another code is an unassigned function. -/
def execVlut (k : Nat) (t : BitVec 3) (f : F) (s : State) : Out :=
  .next (lutOp k f (decide (t.toNat ≤ 4)) (2 ^ (8 + t.toNat)) (fun e x => e (x / 2 ^ (8 - t.toNat))) s)

/-- VLUTI.n (R72). -/
def execVluti (k : Nat) (t : BitVec 3) (f : F) (s : State) : Out :=
  let kk := 8 - t.toNat
  .next (lutOp k f (decide (t.toNat ≤ 4)) (2 ^ (8 + t.toNat) + 1)
    (fun e x => lutInterp kk (x % 2 ^ kk) (e (x / 2 ^ kk)) (e (x / 2 ^ kk + 1))) s)

/-- The scratch offsets that a gather or scatter names. -/
def gathOffs (f : F) (t : Task) : List (Nat × Int) :=
  (activeLanes t f).map (fun i => (i, ((sreg t f.a).toNat : Int) + ((lb f t i).toNat : Int)))

/-- VGATH (R71). -/
def execVgath (k : Nat) (t : BitVec 3) (f : F) (s : State) : Out :=
  .next (issue k (gathUse f (regS f.a :: regsV f.b 1) (regsV f.d 1)) (immZero f) (fun s u =>
    match checkElems ((gathOffs f u).map (fun x => x.2)) (typeBytes t.toNat)
        (within u.prog.scratch (typeBytes t.toNat)) with
    | some x => .exc x
    | none =>
      .keep s (advancePc (writeLanes f f.d.toNat (fun i =>
        extend t.toNat (scratchNat u ((sreg u f.a).toNat + (lb f u i).toNat) (typeBytes t.toNat))) u))) s)

/-- VGATHL (R71): the layer is recorded in the read set. -/
def execVgathl (k : Nat) (t : BitVec 3) (f : F) (s : State) : Out :=
  .next (issue k (gathUse f (regS f.a :: regsV f.b 1) (regsV f.d 1)) (immZero f) (fun s u =>
    let offs := (activeLanes u f).map (fun i => (((lb f u i).toNat : Nat) : Int))
    match loadExc 2 t.toNat f offs s u with
    | some x => .exc x
    | none =>
      .keep (loadWake 2 offs s) (advancePc (writeLanes f f.d.toNat (fun i =>
          extend t.toNat (layerNat s u (layerIdx s u (sreg u f.a)) (lb f u i).toNat (typeBytes t.toNat)))
        (if offs.isEmpty then u else loadRecord 2 f s u)))) s)

/-- VSCAT (R71): the data are in v[d]; the higher lane stands (R52). -/
def execVscat (k : Nat) (t : BitVec 3) (f : F) (s : State) : Out :=
  .next (issue k (gathUse f (regS f.a :: (regsV f.b 1 ++ regsV f.d 1)) []) (immZero f) (fun s u =>
    storeBody 0 t.toNat f ((gathOffs f u).map (fun x => (x.2, laneNat t.toNat (lane u f.d.toNat x.1)))) s u) s)

/-! ## VSAMP (R74 to R76) -/

/-- A texel coordinate under an edge mode: 0 clamp, 1 wrap, 2 zero; none is zero in every channel (R76). -/
def edgeAt (mode n : Nat) (i : Int) : Option Nat :=
  match mode with
  | 0 => some (clampInt 0 ((n : Int) - 1) i).toNat
  | 1 => some (i % (n : Int)).toNat
  | _ => if 0 ≤ i && i < (n : Int) then some i.toNat else none

/-- A channel of a texel as VUNPK converts the layer's format (R75). -/
def texel (s : State) (t : Task) (n : Nat) (l : Layer) (mode ch : Nat) (i j : Int) : Nat :=
  match edgeAt mode l.width i, edgeAt mode l.height j with
  | some x, some y =>
    let o := (y * l.width + x) * layerPx l.fmt
    if l.fmt = 1 then fromU8 (layerNat s t n (o + ch) 1)
    else if l.fmt = 2 then ftopx fp16 (layerNat s t n (o + 2 * ch) 2)
    else layerNat s t n (o + 2 * ch) 2
  | _, _ => 0

/-- The texels that a sample reads (R76): one, or the four around it. -/
def sampleTexels (nearest : Bool) (x y : W32) : List (Int × Int) :=
  if nearest then [(x.toInt / 65536, y.toInt / 65536)]
  else
    let i := (x.toInt - 0x8000) / 65536
    let j := (y.toInt - 0x8000) / 65536
    [(i, j), (i + 1, j), (i, j + 1), (i + 1, j + 1)]

/-- The byte offset of a texel in its layer's array, if it lies in the layer under the edge mode. -/
def texelOff (l : Layer) (mode : Nat) (q : Int × Int) : Option Int :=
  match edgeAt mode l.width q.1, edgeAt mode l.height q.2 with
  | some x, some y => some (((y * l.width + x) * layerPx l.fmt : Nat) : Int)
  | _, _ => none

/-- The texels that the active lanes of a VSAMP read, in lane order. -/
def sampleOffs (f : F) (t : Task) (l : Layer) (nearest : Bool) (mode : Nat) : List Int :=
  (activeLanes t f).flatMap (fun i =>
    (sampleTexels nearest (lb f t i) (lane t (f.b.toNat + 1) i)).filterMap (texelOff l mode))

/-- A sampled channel (R76). -/
def sampleChan (s : State) (t : Task) (n : Nat) (l : Layer) (nearest : Bool) (mode ch : Nat) (x y : W32) : Nat :=
  let p := texel s t n l mode ch
  if nearest then p (x.toInt / 65536) (y.toInt / 65536)
  else
    let u := x.toInt - 0x8000
    let v := y.toInt - 0x8000
    let i := u / 65536
    let j := v / 65536
    let fx := (u / 256 % 256).toNat
    let fy := (v / 256 % 256).toNat
    ((p i j * (256 - fx) + p (i + 1) j * fx) * (256 - fy) +
      (p i (j + 1) * (256 - fx) + p (i + 1) (j + 1) * fx) * fy + 32768) / 65536

/-- VSAMP (R74 to R76). -/
def execVsamp (k : Nat) (nearest : Bool) (edge : BitVec 2) (f : F) (s : State) : Out :=
  .next (issue k (gathUse f (regS f.a :: regsV f.b 2) (regsV f.d 4)) (edge != 3 && immZero f && isGroup f.d && isPair f.b)
      (fun s u =>
    if (activeLanes u f).isEmpty then .keep s (advancePc u)
    else
      let h := sreg u f.a
      match layerFor s u h with
      | none => .exc ⟨6, layerInfo h⟩
      | some l =>
        match dataExc 2 (layerPx l.2.fmt) f (sampleOffs f u l.2 nearest edge.toNat) s u with
        | some x => .exc x
        | none =>
        if setFull u ⟨7, 0, l.1⟩ then .exc ⟨8, layerInfo h⟩
        else
          .keep (wakeMem s) (advancePc (writeGroup f f.d.toNat (fun ch i =>
            sampleChan s u l.1 l.2 nearest edge.toNat ch (lb f u i) (lane u (f.b.toNat + 1) i))
            (record s ⟨7, 0, l.1⟩ u)))) s)

end Sys2Proof.Machine
end

