-- ==== Sys2Proof/Machine/QInput.lean ====
section
/-!
DEFINITION. The input group (opcode 0x14): SPEC.IN, FIRM.IN, SPEC.VER, FIRM.VER and ETAB.RD (R37, R39, R77, R78).
-/

namespace Sys2Proof.Machine

/-- The input ID of an input instruction: s[a] + imm (R77). -/
def inputId (f : F) (t : Task) : W32 := sreg t f.a + f.imm

/-- ENV and TC inputs keep an epoch from counting as quiet (R142). -/
def noteTimed (k : InKey) (t : Task) (s : State) : State := if k.kind = 3 || k.kind = 4 then markTimed t s else s

/-- An input read: `spec` for the recorded forms at cr.inep, else the FIRM input epoch; `ver` for the version. -/
def inputRead (k : Nat) (f : F) (spec ver : Bool) (s : State) : State :=
  issue k (sUse 1 f [regS f.a]) (f.b == 0) (fun s u =>
    if !predRuns f.p (maskOf u f) then .keep s (advancePc u)
    else
      match inputKey s u (inputId f u) with
      | none => .exc ⟨6, inputId f u⟩
      | some key =>
        if spec && setFull u key then .exc ⟨8, inputId f u⟩
        else
          let at_ := if spec then taskInep u else firmInep u
          let v := if ver then versionFor s key at_ else valueFor s key at_
          .keep (noteTimed key u s) (advancePc (setS f.d v (if spec then record s key u else u)))) s

/-- SPEC.IN (R77). -/
def execSpecIn (k : Nat) (f : F) (s : State) : Out := .next (inputRead k f true false s)
/-- FIRM.IN (R77). -/
def execFirmIn (k : Nat) (f : F) (s : State) : Out := .next (inputRead k f false false s)
/-- SPEC.VER (R77). -/
def execSpecVer (k : Nat) (f : F) (s : State) : Out := .next (inputRead k f true true s)
/-- FIRM.VER (R77). -/
def execFirmVer (k : Nat) (f : F) (s : State) : Out := .next (inputRead k f false true s)

/-- The endpoint words a task reads: the snapshot of its input epoch, or the table as it stands (Table 2-10). -/
def taskEtab (s : State) (t : Task) : Map W32 :=
  match taskInep t with
  | some (c, e) => (snapAt s c e).etab
  | none => publishedEtab s

/-- Whether a task may read an endpoint entry (R78). -/
def etabReadable (s : State) (t : Task) (e : Nat) : Bool :=
  privileged s t || (decide (e < endpoints s.member) && inView (taskViews s t) t.ctx e)

/-- The word that ETAB.RD returns: of an entry of the table, or a free value above it (log 104). -/
def etabValue (s : State) (t : Task) (e w : Nat) : W32 :=
  if 131072 ≤ e then Config.etabOpen e w else BitVec.ofNat 32 (ew (taskEtab s t) e w)

/-- ETAB.RD (R78): the word imm[3:0] of entry s[a]; imm[31:4] must be 0. ETAB 0 is recorded. -/
def execEtabRd (k : Nat) (f : F) (s : State) : Out :=
  .next (issue k (sUse 1 f [regS f.a]) (f.b == 0 && decide (f.imm.toNat < 16)) (fun s u =>
    if !predRuns f.p (maskOf u f) then .keep s (advancePc u)
    else
      let e := (sreg u f.a).toNat
      let key : InKey := ⟨8, u.ctx, 0⟩
      if !etabReadable s u e then .exc ⟨6, 0x80000000⟩
      else if setFull u key then .exc ⟨8, 0x80000000⟩
      else
        .keep s (advancePc (setS f.d (etabValue s u e f.imm.toNat) (record s key u)))) s)

end Sys2Proof.Machine
end

