-- ==== Sys2Proof/Machine/Bist.lean ====
section
/-!
DEFINITION. Self-test results and the cluster rotation as other blocks end them (R354, R358).
-/

namespace Sys2Proof.Machine

/-- A block's test cut short (R354): its result, counted and raised. -/
def abortBlock (b : Nat) (s : State) : State :=
  raise0 114 (setBit fld.bistEvent.BIST_EVENT 2 (bump .bistAbort (put fld.bistRes.RESULT 3 s b)))

/-- A block's test begins. -/
def startBlock (b : Nat) (s : State) : State :=
  bump .bistRuns (put fld.bistStatus.BUSY 1 (put fld.bistRes.FIELD 0 (put fld.bistRes.RESULT 4 s b) b))

/-- Whether the rotation takes a cluster (R358). -/
def rotTakes (s : State) (k : Nat) : Bool :=
  decide (k < clusters s.member) && hasBit s fld.schedClusters.SCHED_CLUSTERS k
    && !(mode s == 4 && s.pwr.gated.contains k) && !(k == 0 && on s fld.sched.SVC && !on s fld.bistCmd.ROT_SVC)

/-- The cluster of the rotation step in progress. -/
def rotCluster (s : State) : Nat := get s fld.bistStatus.ROT_CLUSTER

/-- A rotation step ends; after the last cluster of a round EV_ROT_ROUND is raised (R358). -/
def endRotStep (s : State) : State :=
  let k := rotCluster s
  let last := !(List.range 20).any (fun j => decide (k < j) && rotTakes s j)
  let s := put fld.bistStatus.ROT_ACTIVE 0 { s with bst := { s.bst with rotStep := 0 } }
  let s := if s.bst.todo.isEmpty then put fld.bistStatus.BUSY 0 s else s
  if last then raise0 116 s else s

/-- A rotation step cut short, whether its cluster was draining or under test (R354, R358). -/
def abortRot (s : State) : State :=
  if s.bst.rotStep = 0 then s
  else
    let k := rotCluster s
    endRotStep (put fld.bistRes.FIELD 1 (abortBlock k s) k)

/-- Every running test cut short: SAFE, or the loss of a clock (R354). A set at shut-down then leaves no verdict. -/
def abortTests (s : State) : State :=
  let s := abortRot s
  match s.bst.todo with
  | [] => s
  | b :: _ =>
    let kept := if s.bst.kind = 2 || s.bst.kind = 3 then none else s.bst.retained
    let s := abortBlock b { s with bst := { s.bst with todo := [], kind := 0, blocks := [], retained := kept } }
    put fld.bistCmd.SHUTDOWN_RUN 0 (put fld.bistStatus.VERDICT 3 (put fld.bistStatus.BUSY 0 s))

/-! ## User calibration (R362) -/

/-- The sum of a factory trim and its user value, and whether it lies in the trim's range. -/
def trimFits (s : State) (r : RegId) (i : Nat) : Bool :=
  match r with
  | .userTempOfs =>
    let v := sgn 16 (get s fld.fact.FACT i) + sgn 8 (get s fld.userTempOfs.OFS i)
    decide (-32768 ≤ v) && decide (v ≤ 32767)
  | .userImp =>
    let v := sgn 16 (get s fld.fact.FACT (16 + i)) + sgn 6 (get s fld.userImp.IMP i)
    decide (-32 ≤ v) && decide (v ≤ 31)
  | _ => true

/-- A user value that takes effect: a trim that had to be limited is reported. -/
def calEffect (r : RegId) (i : Nat) (s : State) : State :=
  if trimFits s r i then s else raise0 119 (setBit fld.calEvent.CLAMP 0 (bump .calClamp s))

/-- The values held together take effect together. -/
def calRelease (s : State) : State :=
  let held := s.calOld
  let s := put fld.calStatus.PENDING 0 { s with calOld := [] }
  let due := fun (r : RegId) (i : Nat) => held.any (fun x => x.1 == r.key i 0)
  let s := forEach ((List.range 16).filter (due .userTempOfs)) (calEffect .userTempOfs) s
  forEach ((List.range 34).filter (due .userImp)) (calEffect .userImp) s

end Sys2Proof.Machine
end

