-- ==== Sys2Proof/Machine/Glaze.lean ====
section
/-!
DEFINITION. The Glaze stage: live planes (R153 to R157), Mordant (R159 to R163), derate (R165), dither (R166), the work
queue and the transmit window (R150 to R152), and its commands.
-/

namespace Sys2Proof.Machine

/-! ## Video lines (R154, R260) -/

/-- A pixel group of a stream format: pixels and bytes. -/
def pixGroup (s : State) (r : Nat) : Nat × Nat :=
  let n := 8 + 2 * get s fld.ringFmt.DEPTH r
  if get s fld.ringFmt.SAMPLING r = 0 then (2, n / 2)
  else let g := 8 / Nat.gcd 8 (3 * n); (g, g * 3 * n / 8)

/-- Bytes of a video line. -/
def lineBytes (s : State) (r : Nat) : Nat :=
  let g := pixGroup s r
  (get s fld.vsize.VWIDTH r + g.1 - 1) / g.1 * g.2

/-- Frame-memory address of a line slot of a frame (R154, R260). -/
def lineAddr (s : State) (r : Nat) (f : VFrame) (y : Nat) : Nat :=
  get s fld.vringBase.RING_BASE r * 256 +
    (f.no % 3 * get s fld.vsize.VHEIGHT r + y) * get s fld.lineStride.LINE_STRIDE r

/-- Whether a line of a frame is present (R156, R260). -/
def linePresent (s : State) (r : Nat) (f : VFrame) (y : Nat) : Bool :=
  let a := lineAddr s r f y
  fmemNat s a 4 == f.ts.toNat && fmemNat s (a + 4) 4 == lineBytes s r

/-- Whether the pixel group that holds a video pixel of a line reads with a data error (R152). -/
def groupBad (s : State) (r : Nat) (f : VFrame) (v : Nat × Nat) : Bool :=
  let g := pixGroup s r
  memBad s (lineAddr s r f v.2 + 64 + v.1 / g.1 * g.2) g.2

/-- Whether a pipe can take a video pixel from a frame (R152, R157). -/
def lineServes (s : State) (r : Nat) (f : VFrame) (v : Nat × Nat) : Bool := linePresent s r f v.2 && !groupBad s r f v

/-- A sample of a line: number `k` of the big-endian stream of `n`-bit samples that starts at byte 64. -/
def sampleAt (s : State) (a n k : Nat) : Nat :=
  let bit := k * n
  let w := ofBe (memRead s.fmem (a + 64 + bit / 8) 3)
  w / 2 ^ (24 - bit % 8 - n) % 2 ^ n

/-- An exact quotient of small integers in fp32. -/
def fpRatio (a b : Nat) : Nat :=
  fdiv fp32 (itof fp32 (BitVec.ofNat 32 a)) (itof fp32 (BitVec.ofNat 32 b))

/-- A signed difference over a range in fp32. -/
def fpNorm (x zr range : Nat) : Nat :=
  fdiv fp32 (itof fp32 (BitVec.ofInt 32 ((x : Int) - zr))) (itof fp32 (BitVec.ofNat 32 range))

/-- A video pixel of a line converted to px16 R, G, B (R154). -/
def videoPixel (s : State) (r a x : Nat) : Nat × Nat × Nat :=
  let n := 8 + 2 * get s fld.ringFmt.DEPTH r
  let k := 2 ^ (n - 8)
  let full := on s fld.ringFmt.RANGE r
  let luma := fun v => if full then fpNorm v 0 (2 ^ n - 1) else fpNorm v (16 * k) (219 * k)
  let chroma := fun v => if full then fpNorm v (2 ^ (n - 1)) (2 ^ n - 1) else fpNorm v (128 * k) (224 * k)
  let sm := fun j => sampleAt s a n j
  match get s fld.ringFmt.SAMPLING r with
  | 2 => (ftopx fp32 (luma (sm (3 * x))), ftopx fp32 (luma (sm (3 * x + 1))), ftopx fp32 (luma (sm (3 * x + 2))))
  | sampling =>
    let y := luma (if sampling = 0 then sm (4 * (x / 2) + 1 + 2 * (x % 2)) else sm (3 * x + 1))
    let cb := chroma (if sampling = 0 then sm (4 * (x / 2)) else sm (3 * x))
    let cr := chroma (if sampling = 0 then sm (4 * (x / 2) + 2) else sm (3 * x + 2))
    let q := on s fld.ringFmt.COLORIMETRY r
    let kr := if q then fpRatio 14746 10000 else fpRatio 15748 10000
    let kgb := if q then fpRatio 16455 100000 else fpRatio 1873 10000
    let kgr := if q then fpRatio 57135 100000 else fpRatio 4681 10000
    let kb := if q then fpRatio 18814 10000 else fpRatio 18556 10000
    let red := ffma fp32 kr cr y
    let g1 := ffma fp32 (fneg fp32 kgb) cb y
    let green := ffma fp32 (fneg fp32 kgr) cr g1
    let blue := ffma fp32 kb cb y
    (ftopx fp32 red, ftopx fp32 green, ftopx fp32 blue)

/-! ## Planes (R153, R155) -/

/-- The state of a video target. -/
def vidOf (s : State) (r : Nat) : Vid := Map.get (fun _ => ⟨⟨none, [], [], []⟩, []⟩) s.prt.vids r

/-- F(E) of a plane and the frame before it, where a packet of them has come (R155). DESIGN CHOICE (log 120): a frame of which
nothing has come yet has its media time one FRAME_NS after the frame before it, so that a plane waits for the frame that the
stream is about to send (Table 6-3). -/
def planeFrame (s : State) (c p : Nat) (e : W32) : Option VFrame × Option VFrame :=
  let r := eff s fld.planeCtrl.STREAM c p
  let per := get s fld.frameNs.FRAME_NS r
  let lim := latchOf s c e - BitVec.ofNat 64 (per + eff s fld.planeAdv.PLANE_ADV c p)
  let fs := (vidOf s r).frames
  match fs.find? (fun f => decide (timeDiff f.media lim ≤ 0)) with
  | none => (none, none)
  | some f =>
    let ahead := if some f = fs.head? ∧ per ≠ 0 then (timeDiff lim f.media).toNat / per else 0
    if ahead = 0 then (some f, fs.find? (fun g => g.no + 1 == f.no))
    else (none, if ahead = 1 then some f else none)

/-- The scale of a code. -/
def scaleOf (code : Nat) : Nat := if code = 1 then 2 else if code = 2 then 4 else 1

/-- The video pixel that a plane lays over a canvas pixel, where the plane is enabled and covers it (R153). -/
def planePixel (s : State) (c p x y : Nat) : Option (Nat × Nat) :=
  let dx := eff s fld.planeDx.DST_X c p
  let dy := eff s fld.planeDy.DST_Y c p
  let scx := scaleOf (eff s fld.planeCtrl.SCX c p)
  let scy := scaleOf (eff s fld.planeCtrl.SCY c p)
  if eff s fld.planeCtrl.EN c p = 1 && dx ≤ x && dy ≤ y && x < dx + eff s fld.planeSize.SRC_W c p * scx
      && y < dy + eff s fld.planeSize.SRC_H c p * scy then
    some (eff s fld.planeSrc.SRC_X c p + (x - dx) / scx, eff s fld.planeSrc.SRC_Y c p + (y - dy) / scy)
  else none

/-- A pixel of R, G, B and A. -/
structure Px where
  r : Nat
  g : Nat
  b : Nat
  a : Nat
deriving DecidableEq, Repr

/-- VMIX of two pixels (R67). -/
def mixPx (m c : Nat) (bot top : Px) : Px :=
  let t := pxMul top.a c
  ⟨mixColour m t bot.r top.r, mixColour m t bot.g top.g, mixColour m t bot.b top.b, mixAlpha t bot.a⟩

/-- Whether a frame, where there is one, passes a test. -/
def ofFrame (f : Option VFrame) (test : VFrame → Bool) : Bool :=
  match f with
  | some g => test g
  | none => false

/-- The (tile, line) pair of a video line at a canvas pixel, the line numbered by `65536 × stream + line`. -/
def linePair (s : State) (c p x y : Nat) (v : Nat × Nat) : Nat × Nat :=
  (tileOfPixel s c (x, y), eff s fld.planeCtrl.STREAM c p * 65536 + v.2)

/-- The plane pixel of R157: of F(E), or of the frame before it where the pair is served late, or zero. -/
def planeFetch (s : State) (late : List (Nat × Nat)) (c p : Nat) (e : W32) (x y : Nat) (v : Nat × Nat) : Px :=
  let r := eff s fld.planeCtrl.STREAM c p
  let fs := planeFrame s c p e
  match if late.contains (linePair s c p x y v) then fs.2.filter (fun g => lineServes s r g v) else fs.1 with
  | some f => let q := videoPixel s r (lineAddr s r f v.2) v.1; ⟨q.1, q.2.1, q.2.2, 0xFFFF⟩
  | none => ⟨0, 0, 0, 0⟩

/-- A plane blended with the pixel below it (R153). -/
def applyPlane (s : State) (late : List (Nat × Nat)) (c : Nat) (e : W32) (x y : Nat) (px : Px) (p : Nat) : Px :=
  match planePixel s c p x y with
  | none => px
  | some v =>
    let top := planeFetch s late c p e x y v
    let m := eff s fld.planeCtrl.MODE c p
    let o := eff s fld.planeCtrl.OPACITY c p
    if eff s fld.planeCtrl.PLACE c p = 0 then mixPx m o px top else mixPx m o top px

/-- The (tile, line) pairs at a canvas pixel whose line of F(E) fails a test. -/
def pairsWhere (s : State) (test : Nat → VFrame → Nat × Nat → Bool) (c : Nat) (e : W32) (q : Nat × Nat) : List (Nat × Nat) :=
  (List.range 4).filterMap (fun p =>
    match planePixel s c p q.1 q.2 with
    | some v =>
      let r := eff s fld.planeCtrl.STREAM c p
      if ofFrame (planeFrame s c p e).1 (fun f => test r f v) then none else some (linePair s c p q.1 q.2 v)
    | none => none)

/-- The (tile, line) pairs that a pipe finds late as it reads a canvas pixel (R152, R157). -/
def lateAt (s : State) (c : Nat) (e : W32) (q : Nat × Nat) : List (Nat × Nat) := pairsWhere s (lineServes s) c e q

/-! ## The stages after the planes (Table 6-1) -/

/-- Gain of a channel of a canvas pixel (R159). -/
def gainAt (s : State) (c x y ch : Nat) : Nat :=
  if eff s fld.glzCfg.GAIN_EN c = 0 then 32768
  else fmemNat s (eff s fld.gainBase.GAIN_BASE c * 256 + y * (eff s fld.gainStride.GAIN_STRIDE c * 256) + x * 6 + 2 * ch) 2

/-- A channel after its gain (R159). -/
def gained (v g : Nat) : Nat := Nat.min 65535 ((v * g + 16384) / 32768)

/-- A Mordant word (R163). -/
def mordWord (s : State) (bank region idx : Nat) : Nat :=
  (Map.get (fun _ => 0) s.glz.mord (idx + region * 2 ^ 18 + bank * 2 ^ 20)).toNat

/-- A half of a Mordant word. -/
def mordHalf (w k : Nat) : Nat := w / 2 ^ (16 * (k % 2)) % 65536

/-- A matrix coefficient (R161, Table 6-4). -/
def matCoef (s : State) (bank n k : Nat) : Int := sgn 16 (mordHalf (mordWord s bank 0 (n * 8 + k / 2)) k)

/-- A channel of the colour matrix (R161). -/
def matChan (s : State) (bank n k : Nat) (px : Px) : Nat :=
  let acc := matCoef s bank n (3 * k) * px.r + matCoef s bank n (3 * k + 1) * px.g + matCoef s bank n (3 * k + 2) * px.b
    + 4096
  (clampInt 0 65535 (acc / 8192)).toNat

/-- A LUT entry (Table 6-4). -/
def lutEntry (s : State) (bank l ch j : Nat) : Nat :=
  mordHalf (mordWord s bank 1 (l * 0x1000 + ch * 0x400 + j / 2)) j

/-- A channel through its transfer curve (R162). -/
def lutChan (s : State) (bank l ch x : Nat) : Nat :=
  lutInterp 6 (x % 64) (lutEntry s bank l ch (x / 64)) (lutEntry s bank l ch (x / 64 + 1))

/-- The ordered-dither matrix B (R166). -/
def ditherB (y x : Nat) : Nat :=
  ([0, 8, 2, 10, 12, 4, 14, 6, 3, 11, 1, 9, 15, 7, 13, 5].getD (y % 4 * 4 + x % 4) 0)

/-- The temporal offsets T (R166). -/
def ditherT (e : Nat) : Nat := [0, 2, 1, 3].getD (e % 4) 0

/-- The dither threshold (Table 6-5). -/
def ditherThr (m x y : Nat) (e : W32) : Nat :=
  match m with
  | 1 => 4096 * ditherB y x + 2048
  | 2 => 1024 * (4 * ditherB y x + ditherT e.toNat) + 512
  | _ => 32767

/-- The slot pixel (R26). -/
def slotPixel (s : State) (c slot x y : Nat) : Px :=
  let a := slotAddr s c slot + (y * get s fld.canvasWidth.WIDTH c + x) * 8
  ⟨fmemNat s a 2, fmemNat s (a + 2) 2, fmemNat s (a + 4) 2, fmemNat s (a + 6) 2⟩

/-- The derate multiplier of an endpoint in an epoch (R165). -/
def derateOf (s : State) (m : Map W32) (c e : Nat) (ep : W32) : Nat :=
  if eDerateEn m e then (valueFor s ⟨5, 0, e⟩ (some (c, ep))).toNat % 65536 else 0xFFFF

/-- The codes of a canvas pixel for an endpoint in PACK order, from every stage of Table 6-1, with the (tile, line) pairs
that are served late. -/
def glazePixel (s : State) (late : List (Nat × Nat)) (m : Map W32) (sn : Snap) (c slot e : Nat) (ep : W32) (q : Nat × Nat) :
    List Nat :=
  let x := q.1
  let y := q.2
  let killed := isMember s sn e && killedAt s (eKillg m e) c ep
  let p0 := slotPixel s c slot x y
  let p1 := if killed then p0 else (List.range 4).foldl (applyPlane s late c ep x y) p0
  let p2 : Px := ⟨gained p1.r (gainAt s c x y 0), gained p1.g (gainAt s c x y 1), gained p1.b (gainAt s c x y 2), p1.a⟩
  let bank := eff s fld.glzCfg.BANK c
  let p3 : Px := if eMatEn m e then
      ⟨matChan s bank (eMat m e) 0 p2, matChan s bank (eMat m e) 1 p2, matChan s bank (eMat m e) 2 p2, p2.a⟩ else p2
  let d := derateOf s m c e ep
  let p4 : Px := if ePack m e = 7 || ePack m e = 8 || ePack m e = 10 then ⟨p3.r, p3.g, p3.b, pxMul p3.a d⟩
    else ⟨pxMul p3.r d, pxMul p3.g d, pxMul p3.b d, p3.a⟩
  let p5 : Px := if eLutEn m e then
      ⟨lutChan s bank (eLut m e) 0 p4.r, lutChan s bank (eLut m e) 1 p4.g, lutChan s bank (eLut m e) 2 p4.b, p4.a⟩ else p4
  let t := ditherThr (eDither m e) x y ep
  (packOrder (ePack m e)).map (fun k =>
    ditherCode (eBits m e) (match k with | 0 => p5.r | 1 => p5.g | 2 => p5.b | _ => p5.a) t)

/-! ## The work queue (R150, R156) -/

/-- The open window of an epoch. -/
def winOf (s : State) (c : Nat) (e : W32) : Option Win := s.glz.wins.find? (fun w => w.canvas == c && w.epoch == e)

/-- A window replaced. -/
def setWin (w : Win) (s : State) : State :=
  { s with glz := { s.glz with wins := s.glz.wins.map (fun x =>
      if x.canvas = w.canvas ∧ x.epoch = w.epoch then w else x) } }

/-- The endpoints of a canvas that a universe record or a DMX port carries, in ascending order (R202, R204). -/
def viaEntries (m : Map W32) (c : Nat) (v : Via) : List Nat :=
  (canvasEntries m c).filter (fun e =>
    match v with
    | .pix => false
    | .univ u => eTransport m e == 2 && eUniv m e == u
    | .dmx p => eTransport m e == 3 && ePort m e == p)

/-- The pixels that a universe record or a DMX port carries, each with its endpoint. -/
def viaItems (m : Map W32) (c : Nat) (v : Via) : List (Nat × (Nat × Nat)) :=
  (viaEntries m c v).flatMap (fun e => (List.range (ePixels m e)).map (fun k => (e, scanPixel m e k)))

/-- The pixels that a segment carries, each with its endpoint. -/
def segItems (m : Map W32) (g : Seg) : List (Nat × (Nat × Nat)) :=
  if g.via = .pix then (segPixels m g.ep g.no).map (fun q => (g.ep, q)) else viaItems m g.canvas g.via

/-- The planes that cover a segment. -/
def segPlanes (s : State) (m : Map W32) (g : Seg) : List Nat :=
  (List.range 4).filter (fun p => (segItems m g).any (fun q => (planePixel s g.canvas p q.2.1 q.2.2).isSome))

/-- Whether every plane line that a segment needs is present (R156). -/
def linesReady (s : State) (m : Map W32) (g : Seg) : Bool :=
  (segItems m g).all (fun q => (pairsWhere s (fun r f v => linePresent s r f v.2) g.canvas g.epoch q.2).isEmpty)

/-- The instant of a plane's cut in an epoch (R156). -/
def planeCutAt (s : State) (c p : Nat) (e : W32) : W64 :=
  guardInst s c e - BitVec.ofNat 64 (eff s fld.planeCut.PLANE_CUT c p)

/-- Whether a segment is eligible (R150, R156). -/
def segReady (s : State) (g : Seg) : Bool :=
  let m := (snapAt s g.canvas g.epoch).etab
  let ps := segPlanes s m g
  match winOf s g.canvas g.epoch with
  | some w =>
    let rec_ := epochRec s g.canvas g.epoch
    decide (timeDiff s.ot w.fin < 0)
      && (match rec_ with | some r => r.copying.isEmpty | none => true)
      && (ps.isEmpty || ps.any (fun p => w.cutPlanes.contains p || decide (timeDiff s.ot (planeCutAt s g.canvas p g.epoch) ≥ 0))
        || linesReady s m g)
  | none => false

/-- The sort key of a segment (R150). -/
def segKey (s : State) (g : Seg) : List Nat :=
  let m := (snapAt s g.canvas g.epoch).etab
  [match winOf s g.canvas g.epoch with | some w => w.fin.toNat | none => 0, g.canvas,
   if (segPlanes s m g).isEmpty then 0 else 1, g.ep, g.no]

/-- Lexicographic order of keys. -/
def keyLt : List Nat → List Nat → Bool
  | [], [] => false
  | [], _ :: _ => true
  | _ :: _, [] => false
  | a :: as, b :: bs => a < b || (a == b && keyLt as bs)

/-- The next segment that a free pipe takes. -/
def nextSeg (s : State) : Option Seg :=
  (s.glz.work.filter (segReady s)).foldl (fun best g =>
    match best with
    | some b => if keyLt (segKey s g) (segKey s b) then some g else some b
    | none => some g) none

/-- The tiles that a segment covers. -/
def segTiles (s : State) (m : Map W32) (g : Seg) : List Nat :=
  ((segItems m g).map (fun q => tileOfPixel s g.canvas q.2)).dedup

/-- LAST_CRC of a dirty tile takes its CRC once none of its segments is left and none was lost (R133, R151). -/
def settleTiles (c : Nat) (e : W32) (s : State) : State :=
  match winOf s c e, epochRec s c e with
  | some w, some r =>
    let m := (snapAt s c e).etab
    let left := (s.glz.work.filter (fun g => g.canvas == c && g.epoch == e)).flatMap (segTiles s m)
    let done := w.dirty.filter (fun t => !left.contains t && !w.badTiles.contains t)
    let v := canvasOf s c
    let crc := done.foldl (fun a t => Map.put a t (r.crcs.getD t 0)) v.lastCrc
    setCanvas c { v with lastCrc := crc } (setWin { w with dirty := w.dirty.filter (fun t => !done.contains t) } s)
  | _, _ => s

/-- A segment taken out of the work queue. -/
def takeSeg (g : Seg) (s : State) : State := { s with glz := { s.glz with work := s.glz.work.filter (fun x => x != g) } }

/-- A segment's pixels lost to a data error: counter, sticky bit, event (R152, R170). -/
def noteData (c : Nat) (s : State) : State :=
  raise 50 c (setBit fld.glzEvent.GLZ_EVENT 2 (bump .glazeData s) c)

/-- A segment abandoned for a data error (R152). -/
def abandonData (g : Seg) (w : Win) (s : State) : State :=
  let m := (snapAt s g.canvas g.epoch).etab
  noteData g.canvas (setWin { w with badTiles := w.badTiles ++ segTiles s m g, abandoned := w.abandoned + 1 } s)

/-- Whether a pixel's slot bytes or gains read with a data error (R152). -/
def pixelBad (s : State) (c slot : Nat) (q : Nat × Nat) : Bool :=
  memBad s (slotAddr s c slot + (q.2 * get s fld.canvasWidth.WIDTH c + q.1) * 8) 8
    || (eff s fld.glzCfg.GAIN_EN c == 1
      && memBad s (eff s fld.gainBase.GAIN_BASE c * 256 + q.2 * (eff s fld.gainStride.GAIN_STRIDE c * 256) + q.1 * 6) 6)

/-- The (tile, line) pairs that are served late as a pipe reads pixels of endpoints (R157): a pixel that a kill zeroes takes
no plane. -/
def latePairs (s : State) (c : Nat) (e : W32) (items : List (Nat × (Nat × Nat))) : List (Nat × Nat) :=
  let sn := snapAt s c e
  items.flatMap (fun q =>
    if isMember s sn q.1 && killedAt s (eKillg sn.etab q.1) c e then [] else lateAt s c e q.2)

/-- The pairs that an epoch's window has served late. -/
def lateOf (s : State) (c : Nat) (e : W32) : List (Nat × Nat) :=
  match winOf s c e with
  | some w => w.lateLines
  | none => []

/-- The pairs that pixels read at the present are served by: once late, a tile's line stays late in the epoch (R157). -/
def servedLate (s : State) (c : Nat) (e : W32) (items : List (Nat × (Nat × Nat))) : List (Nat × Nat) :=
  lateOf s c e ++ latePairs s c e items

/-- Pixels glazed, and the late (tile, line) pairs of them counted once each, with the event once per commit (R157, R170). -/
def noteGlazed (c : Nat) (e : W32) (items : List (Nat × (Nat × Nat))) (s : State) : State :=
  let fresh := (latePairs s c e items).dedup.filter (fun x => !(lateOf s c e).contains x)
  let s := count Cnt.glazePx.ctorIdx items.length s
  if fresh.isEmpty then s
  else
    let first := (lateOf s c e).isEmpty
    let s := match winOf s c e with
      | some w => setWin { w with lateLines := w.lateLines ++ fresh } s
      | none => s
    let s := setBit fld.glzEvent.GLZ_EVENT 0 (count Cnt.lateLine.ctorIdx fresh.length s) c
    if first then raise 48 c s else s

/-- The slots that an sACN or DMX endpoint covers, with their bytes (R202). -/
def endpointSlots (s : State) (late : List (Nat × Nat)) (c slot : Nat) (ep : W32) (e : Nat) : List (Nat × Byte) :=
  let sn := snapAt s c ep
  let m := sn.etab
  let nb := eBits m e / 8
  let bytes := (List.range (ePixels m e)).flatMap (fun k =>
    (glazePixel s late m sn c slot e ep (scanPixel m e k)).flatMap (fun v => beBytes nb v))
  bytes.zipIdx.map (fun x => (eStart m e + x.2, x.1))

/-- The slots of a universe record's or DMX port's endpoints, with their bytes. -/
def viaSlots (s : State) (late : List (Nat × Nat)) (c slot : Nat) (ep : W32) (v : Via) : List (Nat × Byte) :=
  (viaEntries (snapAt s c ep).etab c v).flatMap (endpointSlots s late c slot ep)

/-- WINDOW_END (R151, R246): unstarted segments are abandoned and unstarted frames of the epoch discarded. -/
def execWindowEnd (c : Nat) (e : W32) (s : State) : Out :=
  match winOf s c e with
  | none => .next s
  | some w =>
    let s := advance w.fin s
    let left := s.glz.work.filter (fun g => g.canvas == c && g.epoch == e)
    let s := { s with glz := { s.glz with
      work := s.glz.work.filter (fun g => !(g.canvas == c && g.epoch == e))
      wins := s.glz.wins.filter (fun x => !(x.canvas == c && x.epoch == e)) } }
    let s := put fld.glzLateLines.LATE_LINES w.lateLines.length s c
    let s := put fld.glzAbandoned.ABANDONED (w.abandoned + left.length) s c
    let s := dropStale c e s
    .next (if left.isEmpty then s
      else raise 49 c (setBit fld.glzEvent.GLZ_EVENT 1 (count Cnt.glazeLate.ctorIdx left.length s) c))

/-- PLANE_CUT (R156): every segment under the plane becomes eligible. -/
def execPlaneCut (c : Nat) (e : W32) (p : Nat) (s : State) : Out :=
  match winOf s c e with
  | none => .next s
  | some w =>
    if 4 ≤ p || eff s fld.planeCtrl.EN c p != 1 then .next s
    else .next (setWin { w with cutPlanes := w.cutPlanes ++ [p] } (advance (planeCutAt s c p e) s))

/-! ## The Mordant window (R163) -/

/-- The bits of a Mordant word that hold a value; the others are reserved (Table 6-4). -/
def mordMask (addr : Nat) : Nat :=
  let idx := addr % 2 ^ 18
  match addr / 2 ^ 18 % 4 with
  | 0 => if 32768 ≤ idx then 0 else if idx % 8 < 4 then 0xFFFFFFFF else if idx % 8 = 4 then 0xFFFF else 0
  | 1 =>
    if idx / 0x400 % 4 = 3 then 0
    else if idx % 0x400 < 512 then 0xFFFFFFFF else if idx % 0x400 = 512 then 0xFFFF else 0
  | _ => 0

/-- Whether a bank is in force or pending on an enabled canvas (BANK_USE). -/
def bankUsed (s : State) (b : Nat) : Bool :=
  (List.range 64).any (fun c => on s fld.canvasCtrl.EN c &&
    (eff s fld.glzCfg.BANK c == b || get s fld.glzCfg.BANK c == b))

/-- MORD_ADDR.INDEX advanced. -/
def mordNext (s : State) : State :=
  let a := get s fld.mordAddr.MORD_ADDR
  put fld.mordAddr.MORD_ADDR (a / 2 ^ 18 * 2 ^ 18 + (a + 1) % 2 ^ 18) s

/-- A Mordant word stored, or refused where its bank is in use; the address advances either way. -/
def mordStore (v : W32) (s : State) : State :=
  let a := get s fld.mordAddr.MORD_ADDR
  mordNext (if bankUsed s (a / 2 ^ 20 % 2) then
      raise0 51 (put fld.mordStatus.WR_REFUSED 1 (bump .mordRefused s))
    else { s with glz := { s.glz with
      mord := Map.set (fun _ => 0) s.glz.mord a (BitVec.ofNat 32 (Nat.land v.toNat (mordMask a))) } })

/-- MORD_WRITE (R163). -/
def execMordWrite (fn : Nat) (v : W32) (s : State) : Out := .next (hostWrite fn .mordData 0 0 v (mordStore v) s)

/-- A read of MORD_DATA: the word at MORD_ADDR, which advances (R163). -/
def mordRead (s : State) : State × W32 :=
  (mordNext s, Map.get (fun _ => 0) s.glz.mord (get s fld.mordAddr.MORD_ADDR))

/-- MORD_READ (R163). -/
def execMordRead (fn : Nat) (s : State) : Out := .next (hostRead fn .mordData 0 0 mordRead s)

end Sys2Proof.Machine
end

