-- ==== Sys2Proof/Machine/Send.lean ====
section
/-!
DEFINITION. What an epoch sends (R134, R178, R183, R184, R192, R195, R202, R203), LATCH, beacon and synchronisation
(R17, R182, R203), blackout (R205), DMX packets (R204, R267), and the commands of these.
-/

namespace Sys2Proof.Machine

/-! ## Endpoint status -/

/-- An endpoint before any STAT (R193, R194, R388). -/
def epIdle : EpSt := ⟨0xFFFF, false, 0x80, [], [], [], 0, 0, false, false, false, 0⟩

/-- The status of an endpoint. -/
def epOf (s : State) (e : Nat) : EpSt := Map.get (fun _ => epIdle) s.epg.eps e

/-- An endpoint's status replaced. -/
def setEp (e : Nat) (x : EpSt) (s : State) : State := { s with epg := { s.epg with eps := Map.put s.epg.eps e x } }

/-- An endpoint-engine event: its EP_EVENT bit and event number. -/
def epEvent (bit ev detail : Nat) (s : State) : State := raise ev detail (setBit fld.epEvent.EP_EVENT bit s)

/-! ## Segments (R178) -/

/-- Whether an entry is new or differs from the snapshot of E − 1 (R178). -/
def entryChanged (m old : Map W32) (e : Nat) : Bool :=
  !eValid old e || (List.range 16).any (fun k => ew m e k != ew old e k)

/-- Whether an endpoint is due a trickle refresh at count `k` (R134). -/
def trickleDue (s : State) (c e k : Nat) : Bool := e % eff s fld.refresh.REFRESH_N c == k

/-- Whether an endpoint is sent in full: trickle, repair, or a changed entry (R178). -/
def sentFull (s : State) (m old : Map W32) (c e k : Nat) : Bool :=
  trickleDue s c e k || (epOf s e).repair || entryChanged m old e

/-- The segments of an ENP endpoint that an epoch sends (R178). -/
def dueSegs (s : State) (m old : Map W32) (c : Nat) (ep : W32) (dirty : List Nat) (k e : Nat) : List Seg :=
  let full := sentFull s m old c e k
  ((List.range (segCount m e)).filter (fun n => full || (segPixels m e n).any (fun q => dirty.contains (tileOfPixel s c q)))).map
    (fun n => ⟨.pix, c, ep, e, n, full, 0⟩)

/-- COUNT filled in: the PIX frames to each segment's node (R181). -/
def withCounts (m : Map W32) (gs : List Seg) : List Seg :=
  gs.map (fun g => { g with cnt := (gs.filter (fun h => eNode m h.ep == eNode m g.ep)).length })

/-! ## DRIVE and PROOF -/

/-- A DRIVE payload read from a drive record (R183, R192). -/
def drivePayload (s : State) (out r : Nat) : List Byte :=
  let a := (rd s .drvBase).toNat * 256 + 128 * r
  let w0 := fmemNat s a 4
  let nstr := bitsOf w0 16 6
  [BitVec.ofNat 8 out, BitVec.ofNat 8 nstr] ++ beBytes 2 (w0 % 65536) ++
    (List.range nstr).flatMap (fun i => beBytes 2 (bitsOf (fmemNat s (a + 4 + 4 * (i / 2)) 4) (16 * (i % 2)) 12))

/-- The DRIVE of an endpoint for an epoch where one is due (R192). -/
def sendDrive (m : Map W32) (c : Nat) (ep : W32) (k e : Nat) (s : State) : State :=
  let due := s.epg.kicks.contains (c, eDrv m e) || trickleDue s c e k || (epOf s e).repair
  if eDrvEn m e && due && rd s .drvBase != 0 then
    sendUnicast m e 0x03 (if trickleDue s c e k || (epOf s e).repair then 1 else 0) ep 0 0
      (drivePayload s (eOutput m e) (eDrv m e)) (wakeMem s)
  else s

/-- The PROOF of an endpoint for an epoch where one is due (R195). -/
def sendProof (m : Map W32) (c : Nat) (ep : W32) (e : Nat) (s : State) : State :=
  let iv := get s fld.epCanvas.PROOF_INT c
  let nm := (epOf s e).nm
  if eProofEn m e && !nm.isEmpty && iv != 0 && ep.toNat % iv == e % iv then
    let width := eMinProof m e * 10
    if eMinProof m e = 0 || eff s fld.latchGuard.LATCH_GUARD c < width + 5000 then epEvent 6 59 e (bump .proofSkip s)
    else
      let mask := nm.foldl (fun a i => a + 2 ^ i) 0
      sendUnicast m e 0x04 0 ep (latchOf s c ep - BitVec.ofNat 64 (5000 + width)) 0
        ([BitVec.ofNat 8 (eOutput m e), 0, 0, 0] ++ beBytes 4 mask ++ beBytes 4 width) (bump .proofSent s)
  else s

/-! ## sACN (R202, R203) -/

/-- Covered slots as they are sent: zero while the blackout is on (R205). -/
def litSlots (s : State) (covers : List (Nat × Byte)) : List (Nat × Byte) :=
  if on s fld.epBlackout.BLACKOUT_ON then covers.map (fun x => (x.1, 0)) else covers

/-- 512 slots from a base frame and the endpoints that cover them; the higher endpoint number decides (R202). -/
def slotBytes (s : State) (base : Nat) (covers : List (Nat × Byte)) : List Byte :=
  (List.range 512).map (fun k =>
    match (covers.filter (fun x => x.1 == k + 1)).getLast? with
    | some x => x.2
    | none => if base = 0 then 0 else memGet s.fmem (base * 256 + k))

/-- The bytes of a run of registers, byte 0 in bits [7:0] of the first word. -/
def regBytes (s : State) (r : RegId) (n : Nat) : List Byte :=
  (List.range (n / 4)).flatMap (fun k => leBytes 4 (rd s r k).toNat)

/-- The ACN packet identifier. -/
def acnId : List Byte := [0x41, 0x53, 0x43, 0x2D, 0x45, 0x31, 0x2E, 0x31, 0x37, 0, 0, 0]

/-- An E1.31 data packet (R203). -/
def sacnPacket (s : State) (u sync : Nat) (seq : Nat) (opts : Byte) (slots : List Byte) : List Byte :=
  [0x00, 0x10, 0x00, 0x00] ++ acnId ++ [0x72, 0x6E, 0, 0, 0, 4] ++ regBytes s .sacnCid 16
    ++ [0x72, 0x58, 0, 0, 0, 2] ++ regBytes s .sacnName 32 ++ List.replicate 32 0
    ++ [BitVec.ofNat 8 (get s fld.univPrio.PRIO u)] ++ beBytes 2 sync ++ [BitVec.ofNat 8 seq, opts]
    ++ beBytes 2 (get s fld.univCtrl.UNIV u) ++ [0x72, 0x0B, 2, 0xA1, 0, 0, 0, 1, 2, 1, 0] ++ slots

/-- An E1.31 synchronisation packet (R203). -/
def sacnSyncPacket (s : State) (sync seq : Nat) : List Byte :=
  [0x00, 0x10, 0x00, 0x00] ++ acnId ++ [0x70, 0x21, 0, 0, 0, 8] ++ regBytes s .sacnCid 16
    ++ [0x70, 0x0B, 0, 0, 0, 1, BitVec.ofNat 8 seq] ++ beBytes 2 sync ++ [0, 0]

/-- The multicast addressing of a universe number (R203); UDP port 5568 is the one of E1.31. -/
def sacnDest (s : State) (u num : Nat) (v6 : Bool) : Dest :=
  { mac := if v6 then 0x333383000000 + num else 0x01005E7F0000 + num
    ether := 0
    vlan := if on s fld.univPrio.TAG u then some (get s fld.univPrio.PCP u, get s fld.univPrio.VID u) else none
    udp := some (v6, if v6 then 0xFF180000000000000000000083000000 + num else 0xEFFF0000 + num, 5568, 5568) }

/-- The slots of a universe for an epoch. -/
def univSlots (s : State) (late : List (Nat × Nat)) (u c slot : Nat) (ep : W32) : List Byte :=
  slotBytes s (get s fld.univBase.BASE u) (litSlots s (viaSlots s late c slot ep (.univ u)))

/-- A data packet of a universe for an epoch glazed and queued, with its sequence number and launch time (R203). -/
def sendUniv (u c slot : Nat) (ep : W32) (opts : Byte) (s : State) : State :=
  let seq := (get s fld.univSeq.SEQ u + 1) % 256
  let sync := get s fld.sacnSync.SACN_SYNC c
  let items := viaItems (snapAt s c ep).etab c (.univ u)
  let bytes := sacnPacket s u sync seq opts (univSlots s (servedLate s c ep items) u c slot ep)
  let d := sacnDest s u (get s fld.univCtrl.UNIV u) (on s fld.univCtrl.V6 u)
  let launch := if sync = 0 && opts = 0 then latchOf s c ep - BitVec.ofNat 64 (get s fld.sacnSyncAdv.SACN_SYNC_ADV c) else 0
  let s := noteGlazed c ep items (put fld.univSeq.SEQ seq (wakeMem s) u)
  enqueue (get s fld.univCtrl.PORT u) ⟨4, launch, .sacn c ep, some d, bytes, frameLen d bytes.length, 0, false, false⟩
    { s with epg := { s.epg with
        univAge := Map.put s.epg.univAge u 0
        univDue := s.epg.univDue.filter (fun x => x != u) } }

/-- The universe records of a canvas that are in use. -/
def canvasUnivs (s : State) (c : Nat) : List Nat :=
  ((s.regs.filter (fun x => x.1 % 512 == RegId.univCtrl.num)).map (fun x => x.1 / 512)).filter
    (fun u => on s fld.univCtrl.EN u && get s fld.univCtrl.CANVAS u == c)

/-- Whether an endpoint of a universe is sent for an epoch under R178. -/
def univSent (s : State) (m old : Map W32) (c : Nat) (dirty : List Nat) (k u : Nat) : Bool :=
  (canvasEntries m c).any (fun e => eTransport m e == 2 && eUniv m e == u &&
    (sentFull s m old c e k ||
      (List.range (ePixels m e)).any (fun n => dirty.contains (tileOfPixel s c (scanPixel m e n)))))

/-- A unit of the work queue that feeds a universe record or a DMX port. -/
def viaSeg (m : Map W32) (c : Nat) (ep : W32) (v : Via) : Seg := ⟨v, c, ep, (viaEntries m c v).headD 0, 0, false, 0⟩

/-- The units of an epoch's window that feed universes (R203) and DMX ports (R204). DESIGN CHOICE (log 121): they join the
work queue as segments do, one for each record or port. -/
def viaSegs (s : State) (c : Nat) (ep : W32) (m old : Map W32) (dirty : List Nat) (k : Nat) : List Seg :=
  ((canvasUnivs s c).filter (fun u => univSent s m old c dirty k u || s.epg.univDue.contains u)).map
      (fun u => viaSeg m c ep (.univ u))
    ++ ((List.range 8).filter (fun p => !(viaEntries m c (.dmx p)).isEmpty)).map (fun p => viaSeg m c ep (.dmx p))

/-- What a DMX port shows, of its canvas's last two epochs that have it (R204). -/
def keepDmx (img : DmxImg) (l : List DmxImg) : List DmxImg :=
  l.filter (fun x => x.port != img.port) ++ (l.filter (fun x => x.port == img.port)).getLast?.toList ++ [img]

/-- What a DMX port's endpoints show in a committed epoch (R202, R204). -/
def showDmx (p c slot : Nat) (e : W32) (s : State) : State :=
  let items := viaItems (snapAt s c e).etab c (.dmx p)
  let img : DmxImg := ⟨p, e, latchOf s c e, viaSlots s (servedLate s c e items) c slot e (.dmx p)⟩
  let s := noteGlazed c e items (wakeMem s)
  setCanvas c { canvasOf s c with dmx := keepDmx img (canvasOf s c).dmx } s

/-- The DMX ports that an epoch no longer covers show none of its canvas (R204). -/
def clearDmx (c : Nat) (e : W32) (m : Map W32) (s : State) : State :=
  forEach ((List.range 8).filter (fun p => (viaEntries m c (.dmx p)).isEmpty && (canvasOf s c).dmx.any (fun x => x.port == p)))
    (fun p t => setCanvas c { canvasOf t c with dmx := keepDmx ⟨p, e, latchOf t c e, []⟩ (canvasOf t c).dmx } t) s

/-- Everything that the commit of an epoch, whose predecessor is `prev`, puts into its transmit window (R134, R150, R178, R192, R195, R203). -/
def sendEpoch (c slot : Nat) (ep : W32) (prev : Option W32) (dirty : List Nat) (k : Nat) (s : State) : State :=
  let m := (snapAt s c ep).etab
  let old := match prev with | some p => (snapAt s c p).etab | none => []
  let win : Win := ⟨c, ep, slot, guardInst s c ep, [], [], dirty, [], 0⟩
  let s0 := { s with glz := { s.glz with wins := s.glz.wins ++ [win] } }
  if !on s fld.epCtrl.EN then settleTiles c ep s0
  else
    let es := enpEntries m c
    let gs := withCounts m (es.flatMap (dueSegs s m old c ep dirty k))
    let vs := viaSegs s0 c ep m old dirty k
    let s1 := { s0 with
      glz := { s0.glz with work := s0.glz.work ++ gs ++ vs }
      epg := { s0.epg with univDue := s0.epg.univDue.filter (fun u => !vs.any (fun g => g.via == .univ u)) } }
    let s2 := clearDmx c ep m s1
    let s3 := forEach es (fun e t => sendProof m c ep e (sendDrive m c ep k e t)) s2
    let s4 := forEach (es.filter (fun e => (epOf s e).repair)) (fun e t =>
      bump .repair (setEp e { epOf t e with repair := false } t)) s3
    settleTiles c ep { s4 with epg := { s4.epg with kicks := s4.epg.kicks.filter (fun x => x.1 != c) } }

/-! ## A pipe's work -/

/-- Whether a pipe holds no segment. -/
def pipeFree (s : State) (pipe : Nat) : Bool :=
  match Map.find? s.glz.pipeEnd pipe with
  | some t => decide (0 ≤ timeDiff s.ot t)
  | none => true

/-- A pipe holds a segment of `n` pixels, one in each cycle of CK_GLZ (R148): 800 MHz. -/
def holdPipe (pipe n : Nat) (s : State) : State :=
  { s with glz := { s.glz with pipeEnd := Map.put s.glz.pipeEnd pipe (s.ot + BitVec.ofNat 64 ((5 * n + 3) / 4)) } }

/-- A segment processed through every stage and queued (R148, R149). -/
def glazeSeg (g : Seg) (w : Win) (s : State) : State :=
  let sn := snapAt s g.canvas g.epoch
  match g.via with
  | .univ u => sendUniv u g.canvas w.slot g.epoch 0 s
  | .dmx p => showDmx p g.canvas w.slot g.epoch s
  | .pix =>
    let items := segItems sn.etab g
    let late := servedLate s g.canvas g.epoch items
    let codes := items.flatMap (fun q => glazePixel s late sn.etab sn g.canvas w.slot g.ep g.epoch q.2)
    sendPix sn.etab g codes (noteGlazed g.canvas g.epoch items (wakeMem s))

/-- GLAZE_SEGMENT (R148 to R152): a free pipe takes the next eligible segment; `dataError` is an uncorrectable error that it
meets in a slot or gain read, beside those that frame memory holds. -/
def execGlazeSegment (pipe : Nat) (dataError : Bool) (s : State) : Out :=
  if 8 ≤ pipe || !pipeFree s pipe || blockTested s 22 then .next s
  else match nextSeg s with
    | none => .next s
    | some g =>
      match winOf s g.canvas g.epoch with
      | none => .next s
      | some w =>
        let items := segItems (snapAt s g.canvas g.epoch).etab g
        let bad := dataError || items.any (fun q => pixelBad s g.canvas w.slot q.2)
        let s := holdPipe pipe items.length (takeSeg g s)
        .next (settleTiles g.canvas g.epoch (if bad then abandonData g w s else glazeSeg g w s))

/-! ## LATCH, beacon, synchronisation -/

/-- Whether a canvas has a committed epoch to latch. -/
def canLatch (s : State) (c : Nat) : Bool := canvasRuns s c && txv s c && on s fld.epCtrl.EN

/-- LATCH (R17, R182): at L(E) − LATCH_GUARD of the TX epoch, once; in HOLD the beacon stands for it. -/
def execLatch (c : Nat) (s : State) : Out :=
  let e := txEp s c
  if !canLatch s c || Map.find? s.epg.latched c == some e then .next s
  else
    let at_ := guardInst s c e
    let s := advance at_ s
    let s := { s with epg := { s.epg with latched := Map.put s.epg.latched c e } }
    .next (if mode s = 4 then s else sendLatch c e false at_ s)

/-- BEACON (R182): once per second while the canvas rests in HOLD. -/
def execBeacon (c : Nat) (s : State) : Out :=
  if !canLatch s c || mode s != 4 || !on s fld.canvasStatus.RESTING c then .next s
  else
    let s := match Map.find? s.epg.beaconAt c with
      | some t => advance (t + 1000000000) s
      | none => s
    .next (sendLatch c (txEp s c) true s.ot { s with epg := { s.epg with beaconAt := Map.put s.epg.beaconAt c s.ot } })

/-- SACN_SYNC (R203): one synchronisation packet on each port that carries the canvas's universes. -/
def execSacnSync (c : Nat) (s : State) : Out :=
  let e := txEp s c
  let sync := get s fld.sacnSync.SACN_SYNC c
  if !canLatch s c || sync = 0 || Map.find? s.epg.synced c == some e then .next s
  else
    let at_ := latchOf s c e - BitVec.ofNat 64 (get s fld.sacnSyncAdv.SACN_SYNC_ADV c)
    let s := advance at_ s
    let s := { s with epg := { s.epg with synced := Map.put s.epg.synced c e } }
    let us := canvasUnivs s c
    .next (forEach (List.range 16) (fun p t =>
      match us.find? (fun u => get t fld.univCtrl.PORT u == p) with
      | none => t
      | some u =>
        let key := 4096 + c * 32 + p
        let q := Map.get (fun _ => 0) t.epg.latchSeq key + 1
        let d := sacnDest t u sync (on t fld.univCtrl.V6 u)
        let bytes := sacnSyncPacket t sync q.toNat
        enqueue p ⟨7, at_, .sacn c e, some d, bytes, frameLen d bytes.length, 0, false, false⟩
          { t with epg := { t.epg with latchSeq := Map.put t.epg.latchSeq key q } }) s)

/-- The effect of a write of a universe record's control word: clearing EN sends three packets with Stream_Terminated
set (R203). -/
def univWrite (pf : Bool) (u : Nat) (v : W32) (s : State) : State :=
  let c := get s fld.univCtrl.CANVAS u
  let stop := on s fld.univCtrl.EN u && v.toNat / 2 ^ 22 % 2 == 0 && on s fld.epCtrl.EN
  let s := if stop then
      forEach [0, 1, 2] (fun _ t => sendUniv u c (get t fld.vatSlots.TX_SLOT c) (txEp t c) 0x40 t)
        { s with glz := { s.glz with work := s.glz.work.filter (fun g => g.via != .univ u) } } else s
  plainWrite pf .univCtrl u 0 v s

/-- STREAM_TERMINATED (R203). -/
def execStreamTerminated (fn u : Nat) (v : W32) (s : State) : Out :=
  if 8192 ≤ u then .next s else .next (hostWrite fn .univCtrl u 0 v (univWrite (isPf fn) u v) s)

/-! ## Blackout (R205) -/

/-- A HOLD to all nodes on every Ethernet and 10BASE-T1S port, with TIME at the next whole millisecond; nothing while
EP_CTRL.EN = 0 (Table 7-14). -/
def sendHold (blank : Bool) (s : State) : State :=
  if !on s fld.epCtrl.EN then s else
  let time : W64 := BitVec.ofNat 64 ((s.ot.toNat / 1000000 + 1) * 1000000)
  let payload := beBytes 2 (get s fld.epHold.HOLD_MS) ++ [BitVec.ofNat 8 (get s fld.epHold.POLICY), 0]
  forEach (List.range 32) (fun p u =>
    let q := Config.holdSeq u.free
    let d := groupDest u 64 none false false
    let bytes := enpMessage 0x05 (if blank then 2 else 0) 0xFF 0 0xFFFFFFFF q.toNat time payload
    enqueue p ⟨5, 0, .enp 0x05 255 0, some d, bytes, frameLen d bytes.length, 0, false, false⟩ (draw u)) s

/-- The effect of a write of EP_BLACKOUT. -/
def blackoutWrite (v : W32) (s : State) : State :=
  let now := v.toNat % 2 == 1
  let s := put fld.epBlackout.BLACKOUT_ON (v.toNat % 2) s
  let s := if now then { s with epg := { s.epg with blackAt := BitVec.ofNat 64 ((s.ot.toNat / 100000000 + 1) * 100000000) } }
    else s
  sendHold now s

/-- BLACKOUT_ON (R205). -/
def execBlackoutOn (fn : Nat) (s : State) : Out := .next (hostWrite fn .epBlackout 0 0 1 (blackoutWrite 1) s)

/-- BLACKOUT_OFF (R205). -/
def execBlackoutOff (fn : Nat) (s : State) : Out := .next (hostWrite fn .epBlackout 0 0 0 (blackoutWrite 0) s)

/-- BLACKOUT_REPEAT (R205): at every 100 ms of outward time while ON = 1. -/
def execBlackoutRepeat (s : State) : Out :=
  if !on s fld.epBlackout.BLACKOUT_ON then .next s
  else
    let t := s.epg.blackAt
    let s := advance t s
    .next (sendHold true { s with epg := { s.epg with blackAt := t + 100000000 } })

/-! ## Drive and tables (R192, R207) -/

/-- The effect of a write of EP_DRV_KICK: the record is due at the next commit of every canvas (R192). -/
def kickWrite (r : Nat) (s : State) : State :=
  { s with epg := { s.epg with kicks := s.epg.kicks ++
      (((List.range 64).map (fun c => (c, r))).filter (fun x => !s.epg.kicks.contains x)) } }

/-- DRV_KICK (R192). -/
def execDrvKick (fn : Nat) (v : W32) (s : State) : Out :=
  .next (hostWrite fn .epDrvKick 0 0 v (kickWrite (v.toNat % 8192)) s)

/-- The effect of a write of DRV_BASE or STBL_BASE (R207). -/
def baseWrite (stbl : Bool) (v : W32) (s : State) : State :=
  let need := if stbl then endpoints s.member * 32 / 1048576 else 1
  let ok := v = 0 || s.hst.allocs.any (fun a => a.base * 4096 == v.toNat && decide (need ≤ a.size))
  if ok then wr (if stbl then .stblBase else .drvBase) v s
  else epEvent 8 61 0 (put fld.epErr.ERR_REASON 9 (put fld.epErr.ERR_ENTRY 0 s))

/-- TABLE_BASE_WRITE (R207). -/
def execTableBaseWrite (fn : Nat) (isStbl : Bool) (v : W32) (s : State) : Out :=
  .next (hostWrite fn (if isStbl then .stblBase else .drvBase) 0 0 v (baseWrite isStbl v) s)

/-! ## DMX (R204, R267) -/

/-- A DMX port with nothing sent. -/
def dmxIdle : Dmx := ⟨none, [], none, 0, [], 0⟩

/-- The state of a DMX port. -/
def dmxOf (s : State) (p : Nat) : Dmx := Map.get (fun _ => dmxIdle) s.prt.dmxs p

/-- A DMX port replaced. -/
def setDmx (p : Nat) (v : Dmx) (s : State) : State := { s with prt := { s.prt with dmxs := Map.put s.prt.dmxs p v } }

/-- Duration of a DMX packet in nanoseconds (R267). -/
def dmxTime (s : State) (p : Nat) : Nat :=
  (get s fld.dmxTiming.BREAK_US p + get s fld.dmxTiming.MAB_US p + (get s fld.dmxSlots.SLOTS p + 1) * 44) * 1000

/-- The slots of a DMX packet: the newest committed epoch whose latch instant is at or before the break (R202, R204). -/
def dmxSlotBytes (s : State) (p c : Nat) : List Byte :=
  let shown := ((canvasOf s c).dmx.filter (fun r => r.port == p && decide (timeDiff r.latch s.ot ≤ 0))).getLast?
  slotBytes s (rd s .dmxBase p).toNat
    (match shown with
     | some r => litSlots s r.covers
     | none => [])

/-- The instant at which a port's next DMX packet may start: the newest latch instant of its canvas that has come and
has had no packet, while nothing is on the line (R204). -/
def dmxDue (s : State) (p : Nat) : Bool :=
  let d := dmxOf s p
  let c := get s fld.dmxCanvas.DMX_CANVAS p
  d.busy.isNone && d.rdm == 0 &&
    (match (fclock s (canvasFc s c)) with
     | some f => d.started != some (f.inst (f.cur s.ot)) && decide (timeDiff (f.inst (f.cur s.ot)) s.ot ≤ 0)
     | none => false)

/-- DMX_PACKET_START (R204, R267). -/
def execDmxPacketStart (p : Nat) (s : State) : Out :=
  let c := get s fld.dmxCanvas.DMX_CANVAS p
  if dmxPorts s.member ≤ p || !on s fld.dmxCanvas.DMX_EN p || !on s fld.epCtrl.EN || mode s = 7 || blockTested s 26 || !canvasRuns s c
      || !dmxDue s p then .next s
  else
    match fclock s (canvasFc s c) with
    | none => .next s
    | some f =>
      let slots := (dmxSlotBytes s p c).take (get s fld.dmxSlots.SLOTS p)
      .next (setDmx p { dmxOf s p with
        busy := some (s.ot + BitVec.ofNat 64 (dmxTime s p))
        slots := slots
        started := some (f.inst (f.cur s.ot)) } (wakeMem s))

/-- An RDM request goes on the line: a break of at least 176 µs, the mark and the LEN bytes of RDM_TX, and then the line is
released (R268). -/
def rdmSend (p : Nat) (s : State) : State :=
  let n := get s fld.rdmCtrl.LEN p
  let bytes := ((List.range 65).flatMap (fun k => leBytes 4 (rd s .rdmTx p k).toNat)).take n
  let us := Nat.max 176 (get s fld.dmxTiming.BREAK_US p) + get s fld.dmxTiming.MAB_US p + n * 44
  setDmx p { dmxOf s p with rdm := 2, req := bytes, freeAt := s.ot + BitVec.ofNat 64 (us * 1000) } s

/-- DMX_PACKET_END (R267, R268): the packet ends; a waiting RDM request goes next. -/
def execDmxPacketEnd (p : Nat) (s : State) : Out :=
  let d := dmxOf s p
  match d.busy with
  | none => .next s
  | some t =>
    let s := bump .dmxPkt (bump .dmxTx (advance t s))
    let s := setDmx p { d with busy := none } s
    .next (if d.rdm = 1 then rdmSend p s else s)

end Sys2Proof.Machine
end

