-- ==== Sys2Proof/Machine/Time.lean ====
section
/-!
DEFINITION. Venue time: outward time (R208 to R211), the domains and the servo (R212 to R221), frame clocks (R229 to
R233, R389), transmit timestamps (R226), PPS and the 10 MHz reference (R236, R237).
-/

namespace Sys2Proof.Machine

/-! ## Events -/

/-- A time event: its TIME_EVENT bit and event number. -/
def timeEvent (bit ev : Nat) (s : State) : State := raise0 ev (setBit fld.timeEvent.TIME_EVENT bit s)

/-- Whether every frame clock is stopped. -/
def clocksStopped (s : State) : Bool := s.tim.fcs.isEmpty

/-- Outward time stepped (R211). -/
def stepTime (t : W64) (frac : BitVec 48) (s : State) : State :=
  raise0 69 (put fld.timeStatus.STEPPED 1 { s with ot := t, otFrac := frac })

/-- SET_GO (R211). -/
def setGoWrite (s : State) : State :=
  if clocksStopped s then stepTime (BitVec.ofNat 64 ((rd s .setLo).toNat + 2 ^ 32 * (rd s .setHi).toNat)) 0 s
  else timeEvent 6 73 s

/-- SET_GO as a host write. -/
def execSetGo (fn : Nat) (s : State) : Out := .next (hostWrite fn .setGo 0 0 1 setGoWrite s)

/-- The 16-bit fraction of a nanosecond that software sees. -/
def frac16 (s : State) : W32 := BitVec.ofNat 32 (s.otFrac.toNat / 2 ^ 32)

/-- A read of OT_LO: the high word and the fraction are copied with it (R210). -/
def otLoRead (s : State) : State × W32 :=
  (wr .otFrac (frac16 s) (wr .otHi (BitVec.ofNat 32 (s.ot.toNat / 2 ^ 32)) s), BitVec.ofNat 32 s.ot.toNat)

/-- OT_LO_READ (R210). -/
def execOtLoRead (fn : Nat) (s : State) : Out := .next (hostRead fn .otLo 0 0 otLoRead s)

/-! ## Domains (R212 to R216) -/

/-- A domain: 0 A, 1 B. -/
def domOf (s : State) (d : Nat) : Dom := if d = 0 then s.tim.dom0 else s.tim.dom1

/-- A domain replaced. -/
def setDom (d : Nat) (x : Dom) (s : State) : State :=
  if d = 0 then { s with tim := { s.tim with dom0 := x } } else { s with tim := { s.tim with dom1 := x } }

/-- The domain followed. -/
def actDom (s : State) : Nat := get s fld.timeStatus.ACT

/-- Whether a domain is in TRACK. -/
def tracks (s : State) (d : Nat) : Bool := (domOf s d).st == 2

/-- A switch towards a domain begins (R219). -/
def startSwitch (d : Nat) (s : State) : State :=
  let s := { s with tim := { s.tim with acc := s.tim.adj + (domOf s d).rate, settle := 0 } }
  timeEvent 0 64 (put fld.timeStatus.HOLDOVER 0 (put fld.timeStatus.ACT d (put fld.timeStatus.SWITCHING 1 s)))

/-- Whether outward time follows the active twin (R320): COPY, CATCHUP, INSTEP. Domains A and B are measured there, and do
not steer it. -/
def followsTwin (s : State) : Bool := decide (3 ≤ role s) && decide (role s ≤ 5)

/-- Holdover begins: adj stays at acc (R218). -/
def beginHoldover (s : State) : State :=
  let s := { s with tim := { s.tim with adj := s.tim.acc } }
  timeEvent 5 68 (put fld.timeStatus.SWITCHING 0 (put fld.timeStatus.HOLDOVER 1 s))

/-- The followed domain has entered LOST: an automatic switch, or holdover (R218). -/
def loseFollowed (s : State) : State :=
  let other := 1 - actDom s
  if tracks s other && on s fld.timeCtrl.AUTO then startSwitch other s else beginHoldover s

/-- A domain enters LOST (R214). -/
def enterLost (d : Nat) (s : State) : State :=
  let was := tracks s d
  let s := timeEvent (2 + d) 66 (bump .domLost (setDom d { domOf s d with st := 3, alarms := 0 } s))
  if was && actDom s == d && !followsTwin s then loseFollowed s else s

/-- Whether a canvas is enabled. -/
def anyCanvas (s : State) : Bool := (List.range 64).any (fun c => on s fld.canvasCtrl.EN c)

/-- A pending SEL acts where its domain is in TRACK (R221); the caller says that its moment has come. -/
def selActs (s : State) : State :=
  let d := get s fld.timeCtrl.SEL
  if !on s fld.timeStatus.PENDING || !tracks s d || followsTwin s then s
  else
    let s1 := put fld.timeStatus.PENDING 0 s
    if actDom s == d && !on s fld.timeStatus.SWITCHING && !on s fld.timeStatus.HOLDOVER then s1 else startSwitch d s1

/-- The step of outward time where the followed domain first enters TRACK (R211). -/
def firstStep (d : Nat) (s : State) : State :=
  if actDom s == d && s.tim.firstTrack then
    let th := (domOf s d).theta
    let s := { s with tim := { s.tim with firstTrack := false } }
    if on s fld.timeCtrl.STEP_OK && clocksStopped s && decide (65536000000 < th.natAbs) then
      (let t := BitVec.ofInt 112 ((s.ot.toNat : Int) * 2 ^ 48 + s.otFrac.toNat + th * 2 ^ 32)
       stepTime (BitVec.ofNat 64 (t.toNat / 2 ^ 48)) (BitVec.ofNat 48 t.toNat) s)
    else s
  else s

/-- A domain has reached TRACK: the first step of outward time (R211), the end of holdover, which is an automatic switch that
a pending SEL waits behind (R218, R221), or a pending SEL where no canvas is enabled (R221). A standby's outward time goes by
none of them (R320). -/
def enterTrack (d : Nat) (s : State) : State :=
  if followsTwin s then s
  else
    let s := firstStep d s
    if on s fld.timeStatus.HOLDOVER && (d == actDom s || on s fld.timeCtrl.AUTO) then startSwitch d s
    else if anyCanvas s then s
    else selActs s

/-- A signed 32-bit register. -/
def signed32 (v : W32) : Int := v.toInt

/-- ASYM in force, signed ns. -/
def asymOf (s : State) (d : Nat) : Int := sgn 32 (effCal s fld.asym.ASYM d)

/-- A measurement record: t1 corrected, t2, words 4 and 5, t3 (Table 8-1). -/
structure Meas where
  a : W64
  b : W64
  d : W64
  c : W64
deriving DecidableEq, Repr

/-- A pair of MEAS words. -/
def measPair (s : State) (d k : Nat) : W64 :=
  BitVec.ofNat 64 ((rd s .meas d k).toNat + 2 ^ 32 * (rd s .meas d (k + 1)).toNat)

/-- The record in a domain's window. -/
def measOf (s : State) (d : Nat) : Meas := ⟨measPair s d 0, measPair s d 2, measPair s d 4, measPair s d 6⟩

/-- The delay of a record in 2^−16 ns (R212). -/
def measDelay (p2p : Bool) (m : Meas) : Int :=
  if p2p then (m.d.toNat : Int) * 65536 else (timeDiff m.b m.a + timeDiff m.d m.c) * 32768

/-- Whether a record is rejected (R213). -/
def measRejected (x : Dom) (delay : Int) : Bool :=
  decide (delay < 0) || (decide (8 ≤ x.total) && decide (10 * x.davg + 65536000 < delay))

/-- One step of the servo for the followed domain (R217). -/
def servoStep (s : State) (theta : Int) : Int × Int :=
  let p0 := ((get s fld.kp.KP : Nat) : Int) * theta / 65536
  let lim := ((get s fld.adjMax.ADJ_MAX : Nat) : Int) * 65536
  let step := ((get s fld.fstep.FSTEP : Nat) : Int) * 65536
  let slew := ((get s fld.slew.SLEW * 2 ^ 48 / 1000000000 : Nat) : Int)
  let sw := on s fld.timeStatus.SWITCHING
  let p := if sw then clampInt (-slew) slew p0 else p0
  let acc := if sw then s.tim.acc
    else clampInt (-lim) lim (s.tim.acc + ((get s fld.ki.KI : Nat) : Int) * theta / 65536)
  let target := clampInt (-lim) lim (acc + p)
  (acc, clampInt (s.tim.adj - step) (s.tim.adj + step) target)

/-- A switch ends after SETTLE_N samples in a row within SETTLE_NS (R219). -/
def settleStep (theta : Int) (s : State) : State :=
  if !on s fld.timeStatus.SWITCHING then s
  else
    let n := if theta.natAbs ≤ get s fld.settle.SETTLE_NS * 65536 then s.tim.settle + 1 else 0
    let s := { s with tim := { s.tim with settle := n } }
    if get s fld.settle.SETTLE_N ≤ n then timeEvent 1 65 (put fld.timeStatus.SWITCHING 0 s) else s

/-- The alarm of the followed domain (R216): whether it trips, and its new count. -/
def alarmStep (s : State) (d : Nat) (theta : Int) : Bool × Nat :=
  if actDom s == d && tracks s d && !on s fld.timeStatus.SWITCHING then
    let n := if get s fld.alarm.ALARM_NS * 65536 < theta.natAbs then (domOf s d).alarms + 1 else 0
    (decide (0 < n) && decide (get s fld.alarm.ALARM_N ≤ n), n)
  else (false, 0)

/-- The rate after an accepted sample (R215). -/
def domRate (s : State) (x : Dom) (theta : Int) (b : W64) : Int :=
  if x.total = 0 then x.rate
  else
    let db := timeDiff b x.prevB
    let r := if db = 0 then Config.rateOpen s.free else ((theta - x.prevTheta) * 4294967296).tdiv db
    x.rate + (r - x.rate).tdiv 16

/-- An accepted sample: the filter, the state, the alarm and the servo (R212 to R217). -/
def acceptSample (d : Nat) (delay : Int) (m : Meas) (s : State) : State :=
  let x := domOf s d
  let davg := if x.total = 0 then delay
    else x.davg + (delay - x.davg).tdiv (2 ^ get s fld.annTo.DELAY_SHIFT : Nat)
  let theta := timeDiff m.a m.b * 65536 + davg + asymOf s d * 65536
  let rate := domRate s x theta m.b
  let s := wr .domSamples (rd s .domSamples d + 1) (if x.total != 0 && m.b = x.prevB then draw s else s) d
  let al := alarmStep s d theta
  let run := x.run + 1
  let y : Dom := { x with
    theta := theta, davg := davg, rate := rate, prevTheta := theta, prevB := m.b, total := x.total + 1, run := run
    alarms := al.2, st := if x.st = 1 ∧ 8 ≤ run then 2 else x.st }
  let s := setDom d y s
  let s := if x.st = 1 && decide (8 ≤ run) then enterTrack d s else s
  let s := if actDom s == d && !on s fld.timeStatus.HOLDOVER && !followsTwin s then
      let r := servoStep s theta
      settleStep theta { s with tim := { s.tim with acc := r.1, adj := r.2 } }
    else s
  if al.1 then enterLost d (timeEvent 4 67 s) else s

/-- The effect of MEAS_PUSH (R212, R213). -/
def measPushWrite (d : Nat) (s : State) : State :=
  let m := measOf s d
  let delay := measDelay (on s fld.domCfg.MODE d) m
  if !on s fld.timeCtrl.EN || (domOf s d).st == 0 then s
  else if measRejected (domOf s d) delay then bump .sampleRej s
  else acceptSample d delay m s

/-- MEAS_PUSH (R212 to R217). -/
def execMeasPush (fn d : Nat) (s : State) : Out :=
  if 2 ≤ d then .next s else .next (hostWrite fn .measPush d 0 1 (measPushWrite d) s)

/-- The effect of ANN_KICK (R214). -/
def annKickWrite (d : Nat) (s : State) : State :=
  let x := domOf s d
  if x.st = 0 then s
  else setDom d { x with annAt := s.ot, st := if x.st = 3 then 1 else x.st, run := if x.st = 3 then 0 else x.run } s

/-- ANN_KICK (R214). -/
def execAnnKick (fn d : Nat) (s : State) : Out :=
  if 2 ≤ d then .next s else .next (hostWrite fn .annKick d 0 1 (annKickWrite d) s)

/-- ANNOUNCE_TIMEOUT (R214). -/
def execAnnounceTimeout (d : Nat) (s : State) : Out :=
  if 2 ≤ d || !tracks s d then .next s
  else .next (enterLost d (advance ((domOf s d).annAt + BitVec.ofNat 64 (get s fld.annTo.ANN_TO_MS * 1000000)) s))

/-- The effect of a write of TIME_CTRL: SEL is shadowed (R138, R221). -/
def timeCtrlWrite (pf : Bool) (v : W32) (s : State) : State :=
  let old := get s fld.timeCtrl.SEL
  let s := plainWrite pf .timeCtrl 0 0 v s
  let s := if get s fld.timeCtrl.SEL != old then put fld.timeStatus.PENDING 1 s else s
  if anyCanvas s then s else selActs s

/-- TIME_SEL_WRITE (R221). -/
def execTimeSelWrite (fn : Nat) (v : W32) (s : State) : Out :=
  .next (hostWrite fn .timeCtrl 0 0 v (timeCtrlWrite (isPf fn) v) s)

/-- The effect of a write of DOM_CFG (R214). A domain that is enabled again keeps its last accepted θ, which media times go
by until it is in TRACK (R232). Switching the followed domain off leads to holdover: only its entry into LOST begins an
automatic switch (R218). -/
def domCfgWrite (pf : Bool) (d : Nat) (v : W32) (s : State) : State :=
  let was := on s fld.domCfg.EN d
  let s := plainWrite pf .domCfg d 0 v s
  if !was && on s fld.domCfg.EN d then setDom d { domOff with st := 1, theta := (domOf s d).theta, annAt := s.ot } s
  else if was && !on s fld.domCfg.EN d then
    (let left := tracks s d && actDom s == d && !followsTwin s
     let s := setDom d { domOf s d with st := 0 } s
     if left then beginHoldover s else s)
  else s

/-- DOM_EN_WRITE (R214). -/
def execDomEnWrite (fn d : Nat) (v : W32) (s : State) : Out :=
  if 2 ≤ d then .next s else .next (hostWrite fn .domCfg d 0 v (domCfgWrite (isPf fn) d v) s)

/-! ## Frame clocks (R229 to R233) -/

/-- FBASE of a frame clock. -/
def fbaseOf (s : State) (n : Nat) : W64 :=
  BitVec.ofNat 64 (get s fld.fbaseLo.FBASE_LO n + 2 ^ 32 * get s fld.fbaseHi.FBASE_HI n)

/-- A frame clock replaced. -/
def setFc (n : Nat) (f : FClock) (s : State) : State := { s with tim := { s.tim with fcs := Map.put s.tim.fcs n f } }

/-- A frame-clock write refused (R229). -/
def fcRefuse (n : Nat) (s : State) : State := timeEvent 7 73 (put fld.fcStatus.CFG_ERR 1 s n)

/-- A frame clock starts on the grid that its registers hold, at the present count (R230, R231). -/
def fcStart (n : Nat) (s : State) : State :=
  let segs : List ClockSeg := [⟨0, get s fld.fcCtrl.RATE n, get s fld.fcPhase.PHASE n, fbaseOf s n⟩]
  put fld.fcStatus.RUN 1 (setFc n ⟨segs, frameFrom (s.ot.toNat + 1) segs - 1⟩ s) n

/-- A frame clock stops; a pending change goes, and its registers hold it. -/
def fcStop (n : Nat) (s : State) : State :=
  put fld.fcStatus.PENDING 0 (put fld.fcStatus.RUN 0 { s with tim := { s.tim with fcs := Map.del s.tim.fcs n } } n) n

/-- The smallest grid index of the first aligned instant, from the grid instant of the last old frame (R233). -/
def alignIndex (rate phase last oldPeriod : Nat) : Nat :=
  Nat.max (gridAt rate phase last + 2) (gridAt rate phase (last + oldPeriod))

/-- The stretches after a change of RATE or PHASE at the present (R233): a change that waits for the same frame is
replaced. -/
def changedSegs (f : FClock) (now : W64) (rate phase : Nat) : List ClockSeg :=
  let last := f.cur now + 2
  let keep := f.segs.filter (fun g => g.start != last + 1)
  match keep.getLast? with
  | none => keep
  | some g =>
    if g.rate = rate ∧ g.phase = phase then keep
    else
      let k := alignIndex rate phase (FClock.grid ⟨keep, f.seen⟩ last) (periodOf g.rate)
      keep ++ [⟨last + 1, rate, phase, BitVec.ofNat 64 k - (last + 1)⟩]

/-- Whether a change of a frame clock waits: its frame n_last has not come. -/
def fcPending (f : FClock) (now : W64) : Bool :=
  (f.segs.drop 1).any (fun g => decide (timeDiff (f.inst (g.start - 1)) now > 0))

/-- A change of a running frame clock's RATE or PHASE registers takes its place in the grid (R233). -/
def fcChange (n : Nat) (s : State) : State :=
  match fclock s n with
  | none => s
  | some f =>
    let f' := { f with segs := changedSegs f s.ot (get s fld.fcCtrl.RATE n) (get s fld.fcPhase.PHASE n) }
    let s := setFc n f' s
    let s := put fld.fcStatus.PENDING (if fcPending f' s.ot then 1 else 0) s n
    if fcPending f' s.ot then wr .switchEpoch (BitVec.ofNat 32 (f.cur s.ot + 2).toNat) s n else s

/-- Whether an enabled canvas is bound to a frame clock (R231). -/
def fcBound (s : State) (n : Nat) : Bool := (List.range 64).any (fun c => on s fld.canvasCtrl.EN c && canvasFc s c == n)

/-- The effect of a write of FC_CTRL (R229, R231, R233). -/
def fcCtrlEffect (pf : Bool) (n : Nat) (v : W32) (s : State) : State :=
  let rate := v.toNat / 2 % 32
  let was := on s fld.fcCtrl.EN n
  if (rateOf rate).isNone || periodOf rate ≤ get s fld.fcPhase.PHASE n then fcRefuse n s
  else
    let old := get s fld.fcCtrl.RATE n
    let s := put fld.fcStatus.CFG_ERR 0 (plainWrite pf .fcCtrl n 0 v s) n
    let s := if was && fcBound s n then put fld.fcCtrl.EN 1 s n else s
    if !was && on s fld.fcCtrl.EN n then fcStart n s
    else if was && !on s fld.fcCtrl.EN n then fcStop n s
    else if was && old != rate then fcChange n s
    else s

/-- FC_ENABLE (R231). -/
def execFcEnable (fn n : Nat) (v : W32) (s : State) : Out :=
  if 4 ≤ n then .next s else .next (hostWrite fn .fcCtrl n 0 v (fcCtrlEffect (isPf fn) n v) s)

/-- FC_CTRL_WRITE (R229, R233). -/
def execFcCtrlWrite (fn n : Nat) (v : W32) (s : State) : Out :=
  if 4 ≤ n then .next s else .next (hostWrite fn .fcCtrl n 0 v (fcCtrlEffect (isPf fn) n v) s)

/-- The effect of a write of FC_PHASE (R229, R233). -/
def fcPhaseEffect (pf : Bool) (n : Nat) (v : W32) (s : State) : State :=
  let old := get s fld.fcPhase.PHASE n
  if periodOf (get s fld.fcCtrl.RATE n) ≤ v.toNat % 2 ^ 30 then fcRefuse n s
  else
    let s := put fld.fcStatus.CFG_ERR 0 (plainWrite pf .fcPhase n 0 v s) n
    if get s fld.fcPhase.PHASE n = old then s else fcChange n s

/-- FC_PHASE_WRITE (R229, R233). -/
def execFcPhaseWrite (fn n : Nat) (v : W32) (s : State) : Out :=
  if 4 ≤ n then .next s else .next (hostWrite fn .fcPhase n 0 v (fcPhaseEffect (isPf fn) n v) s)

/-- A read of NEXT_LO: the next frame instant and its epoch are copied in one cycle (R389). -/
def nextLoRead (n : Nat) (s : State) : State × W32 :=
  match fclock s n with
  | none => (s, 0)
  | some f =>
    let k := f.next s.ot
    (wr .nextEpoch (BitVec.ofNat 32 k.toNat) (wr .nextHi (BitVec.ofNat 32 ((f.inst k).toNat / 2 ^ 32)) s n) n,
      BitVec.ofNat 32 (f.inst k).toNat)

/-- NEXT_LO_READ (R389). -/
def execNextLoRead (fn n : Nat) (s : State) : Out :=
  if 4 ≤ n then .next s else .next (hostRead fn .nextLo n 0 (nextLoRead n) s)

/-! ## Transmit timestamps (R226) -/

/-- Words E0 to E3 of an entry (Table 8-4); failing words carry their POISON bits. -/
def tsWords (e : TsEnt) (poison : BitVec 4) : List W32 :=
  [BitVec.ofNat 32 (1 + 2 * poison.toNat + 65536 * e.tag.toNat), BitVec.ofNat 32 e.ts.toNat,
   BitVec.ofNat 32 (e.ts.toNat / 2 ^ 32), BitVec.ofNat 32 (e.frac.toNat + 65536 * (e.tc % 8))]

/-- The pop of the oldest entry: E1 to E3 hold it until the next pop; E0 is its value, or 0 (R226). -/
def tsqPopRead (p : Nat) (poison : BitVec 4) (s : State) : State × W32 :=
  let v := portOf s p
  match v.tsq with
  | [] => (s, 0)
  | e :: rest =>
    let w := tsWords e poison
    let s := setPort p { v with tsq := rest } s
    let s := wr .tsqE3 (w.getD 3 0) (wr .tsqE2 (w.getD 2 0) (wr .tsqE1 (w.getD 1 0) s p) p) p
    let s := if poison = 0 then s else raise0 10 (setBit fld.hostStatus.HOST_STATUS 1 (bump .poison s))
    (s, w.getD 0 0)

/-- TSQ_POP (R226, R286). -/
def execTsqPop (fn p : Nat) (poison : BitVec 4) (s : State) : Out :=
  if 32 ≤ p then .next s else .next (hostRead fn .tsqE0 p 0 (tsqPopRead p poison) s)

/-- The effect of a write of TSQ_CTRL: FLUSH discards the entries held (R226). -/
def tsqCtrlWrite (pf : Bool) (p : Nat) (v : W32) (s : State) : State :=
  let s := plainWrite pf .tsqCtrl p 0 v s
  if v.toNat / 256 % 2 = 1 then setPort p { portOf s p with tsq := [] } s else s

/-- TSQ_FLUSH (R226). -/
def execTsqFlush (fn p : Nat) (s : State) : Out :=
  if 32 ≤ p then .next s
  else
    let v := rd s .tsqCtrl p ||| 0x100
    .next (hostWrite fn .tsqCtrl p 0 v (tsqCtrlWrite (isPf fn) p v) s)

/-- A timestamp pushed (R226); the answer is whether it was lost. -/
def tsqPush (p : Nat) (e : TsEnt) (s : State) : State × Bool :=
  let v := portOf s p
  let n := v.tsq.length
  if 64 ≤ n then
    let s := put fld.tsqStatus.OVF 1 (wr .tsqOvfCnt (rd s .tsqOvfCnt p + 1) (bump .tsLost s) p) p
    (raise 70 p s, true)
  else
    let s := setPort p { v with tsq := v.tsq ++ [e] } s
    if crosses n (n + 1) (get s fld.tsqCtrl.TSQ_LEVEL p) then (raise 71 p (put fld.tsqStatus.LEVEL_HIT 1 s p), false)
    else (s, false)

/-! ## PPS and 10 MHz (R236, R237) -/

/-- PPS_IN_EDGE (R237). -/
def execPpsInEdge (at_ : W64) (frac : BitVec 16) (s : State) : Out :=
  if mode s = 0 then .next s
  else
    let t := at_ - BitVec.ofInt 64 (sgn 32 (effCal s fld.ppsInAdj.PPS_IN_ADJ))
    let s := advance at_ s
    .next (raise0 74 { s with tim := { s.tim with ppsIn := some (t, frac) } })

/-- A read of PPS_IN_LO: the other two words of the capture are copied with it (R237, R210). -/
def ppsInLoRead (s : State) : State × W32 :=
  match s.tim.ppsIn with
  | none => (s, 0)
  | some (t, f) =>
    (wr .ppsInFrac (BitVec.ofNat 32 f.toNat) (wr .ppsInHi (BitVec.ofNat 32 (t.toNat / 2 ^ 32)) s),
      BitVec.ofNat 32 t.toNat)

/-- PPS_IN_LO_READ (R237). -/
def execPpsInLoRead (fn : Nat) (s : State) : Out := .next (hostRead fn .ppsInLo 0 0 ppsInLoRead s)

/-- The distance of a PPS output's time from outward time in ns: zero, or θ of a domain (R236). -/
def ppsShift (s : State) (src : Nat) : Int := if src = 0 then 0 else (domOf s (src - 1)).theta / 65536

/-- The next rise after an instant under a setting: a whole second of the selected time plus OFS (R236). -/
def ppsRise (s : State) (src : Nat) (ofs : Int) (t : W64) : W64 :=
  let x := ((t.toNat : Int) + ppsShift s src - ofs) % 2 ^ 64
  t + BitVec.ofInt 64 (min ((x / 1000000000 + 1) * 1000000000) (2 ^ 64) - x)

/-- SRC and OFS of a PPS output. -/
def ppsSetting (s : State) (i : Nat) : Nat × Int := (get s fld.ppsOut.SRC i, sgn 32 (effCal s fld.ppsOfs.OFS i))

/-- The next rise of a PPS output after an instant (R236). A changed setting counts from the next second: until then the
old one gives the rises. -/
def ppsNext (s : State) (i : Nat) (t : W64) : W64 :=
  let new := ppsSetting s i
  match Map.find? s.tim.ppsOld i with
  | none => ppsRise s new.1 new.2 t
  | some (src, ofs, lim) =>
    let a := ppsRise s src ofs t
    if timeDiff (a - BitVec.ofInt 64 ofs) lim < 0 then a
    else
      let b := lim + BitVec.ofInt 64 new.2 - 1
      ppsRise s new.1 new.2 (if timeDiff b t > 0 then b else t)

/-- A change of state that may change SRC or OFS of a PPS output: where the output runs, its old setting stays until the
next whole second of the time that it follows (R236). -/
def ppsChange (i : Nat) (f : State → State) (s : State) : State :=
  let t := f s
  let old := ppsSetting s i
  let held := match Map.find? s.tim.ppsOld i with
    | some (_, _, lim) => decide (timeDiff lim s.ot > 0)
    | none => false
  if on s fld.ppsOut.EN i && ppsSetting t i != old && !held then
    { t with tim := { t.tim with ppsOld := Map.put t.tim.ppsOld i (old.1, old.2, ppsRise s old.1 0 s.ot) } }
  else t

/-- The level of a PPS output (R236): high from the rise for WIDTH µs, low with EN = 0; in SAFE the output drives nothing
(R340). -/
def ppsHigh (s : State) (i : Nat) : Bool :=
  mode s != 0 && mode s != 7 && on s fld.ppsOut.EN i &&
    (match Map.find? s.tim.ppsLast i, Map.find? s.tim.ppsFall i with
     | some a, some b => decide (timeDiff s.ot a ≥ 0) && decide (timeDiff b s.ot > 0)
     | _, _ => false)

/-- PPS_OUT_PULSE (R236): the output rises, and its pulse falls WIDTH µs later. In SAFE the output is high-impedance (R340). -/
def execPpsOutPulse (i : Nat) (s : State) : Out :=
  if 2 ≤ i || mode s = 0 || mode s = 7 || !on s fld.ppsOut.EN i || get s fld.ppsOut.SRC i = 3 then .next s
  else
    let last := Map.get (fun _ => s.ot - 1) s.tim.ppsLast i
    let t := ppsNext s i (if timeDiff last (s.ot - 1) > 0 then last else s.ot - 1)
    let s := advance t s
    .next { s with tim := { s.tim with
      ppsLast := Map.put s.tim.ppsLast i t
      ppsFall := Map.put s.tim.ppsFall i (t + BitVec.ofNat 64 (1000 * get s fld.ppsOut.WIDTH i)) } }

/-- The 10 MHz input counts from an instant with edges present. -/
def ref10Start (at_ : W64) (s : State) : State :=
  put fld.timeStatus.REF10_OK 1 { s with tim := { s.tim with ref10 := some at_ } }

/-- REF10_WINDOW (R237). -/
def execRef10Window (at_ : W64) (s : State) : Out :=
  let s := advance at_ s
  match s.tim.ref10 with
  | none => .next (ref10Start at_ s)
  | some t => .next (ref10Start at_ (wr .ref10Err (BitVec.ofInt 32 (timeDiff at_ t - 1000000000)) s))

/-- REF10_LOSS (R237). -/
def execRef10Loss (s : State) : Out :=
  if !on s fld.timeStatus.REF10_OK then .next s
  else .next (timeEvent 8 75 (put fld.timeStatus.REF10_OK 0 { s with tim := { s.tim with ref10 := none } }))

/-- REF10_RETURN (R237). -/
def execRef10Return (at_ : W64) (s : State) : Out :=
  if on s fld.timeStatus.REF10_OK then .next s else .next (ref10Start at_ (advance at_ s))

end Sys2Proof.Machine
end

