-- ==== Sys2Proof/Machine/Vat.lean ====
section
/-!
DEFINITION. The Vat: checks of a canvas (R116, R117, R119, R135, R153, R159), shadowed values (R138 to R140), enable and
disable (R124), the commit (R130 to R136, R141 to R143), pins, stalls and copies (R122, R132), and frame instants (R230).
-/

namespace Sys2Proof.Machine

/-! ## Span pairs (R135) -/

/-- The other half of a canvas that asks for a span pair. -/
def mateOf (s : State) (c : Nat) : Nat := get s fld.canvasCtrl.MATE c

/-- Whether the values in force on two halves agree in every field that R135 requires to be equal. -/
def pairAgrees (s : State) (rd' : Fld → Nat → Nat) (a b : Nat) : Bool :=
  get s fld.canvasCtrl.CTX a == get s fld.canvasCtrl.CTX b
    && [fld.canvasCtrl.FC, fld.canvasCtrl.DEPTH, fld.canvasCtrl.MISS_MAX, fld.commitLead.COMMIT_LEAD,
        fld.latchGuard.LATCH_GUARD].all (fun f => rd' f a == rd' f b)

/-- SPAN_OK (R135). -/
def spanOk (s : State) (c : Nat) : Bool :=
  let m := mateOf s c
  m != c && on s fld.canvasCtrl.SPAN c && on s fld.canvasCtrl.SPAN m && mateOf s m == c
    && pairAgrees s (fun f x => eff s f x) c m

/-- The halves that commit, start and stop together with a canvas, the lower first. -/
def halves (s : State) (c : Nat) : List Nat :=
  if spanOk s c then [Nat.min c (mateOf s c), Nat.max c (mateOf s c)] else [c]

/-! ## Checks -/

/-- R119, R123 and the range of LATCH_GUARD, on the values in force, with the frame period given. -/
def timingOk (s : State) (c period : Nat) : Bool :=
  let d := eff s fld.canvasCtrl.DEPTH c
  let g := eff s fld.latchGuard.LATCH_GUARD c
  let l := eff s fld.commitLead.COMMIT_LEAD c
  let lead := if l = 0 then period else l
  decide (2 ≤ d) && decide (d ≤ get s fld.vatSize.DEPTH_MAX c) && decide (20000 ≤ g) && decide (g ≤ 2000000)
    && decide (g + 10000 ≤ lead) && decide (lead ≤ period) && (fclock s (canvasFc s c)).isSome

/-- R159: a gain map in force lies inside an allocation of the context and its rows hold a canvas line. -/
def gainOk (s : State) (c : Nat) : Bool :=
  let w := get s fld.canvasWidth.WIDTH c
  let row := eff s fld.gainStride.GAIN_STRIDE c * 256
  eff s fld.glzCfg.GAIN_EN c == 0 ||
    (decide (w * 6 ≤ row) && ctxHolds s (canvasCtx s c) (eff s fld.gainBase.GAIN_BASE c * 256)
      ((get s fld.canvasHeight.HEIGHT c - 1) * row + w * 6))

/-- R153: the source rectangle of an enabled plane lies inside its stream's frame and is not empty. -/
def planeOk (s : State) (c p : Nat) : Bool :=
  let r := eff s fld.planeCtrl.STREAM c p
  let w := eff s fld.planeSize.SRC_W c p
  let h := eff s fld.planeSize.SRC_H c p
  eff s fld.planeCtrl.EN c p == 0 ||
    (w != 0 && h != 0 && decide (eff s fld.planeSrc.SRC_X c p + w ≤ get s fld.vsize.VWIDTH r)
      && decide (eff s fld.planeSrc.SRC_Y c p + h ≤ get s fld.vsize.VHEIGHT r))

/-- R116: the ranges of a canvas's geometry. -/
def geometryOk (s : State) (c : Nat) : Bool :=
  let w := get s fld.canvasWidth.WIDTH c
  let h := get s fld.canvasHeight.HEIGHT c
  let tw := get s fld.canvasTile.TW c
  let th := get s fld.canvasTile.TH c
  decide (1 ≤ w) && decide (w ≤ 131071) && decide (1 ≤ h) && decide (h ≤ 65535) && decide (w * h ≤ pixelBudget s.member)
    && tw % 16 == 0 && decide (32 ≤ tw) && decide (tw ≤ 256) && th % 8 == 0 && decide (32 ≤ th) && decide (th ≤ 128)

/-- R117: VAT_BASE starts an allocation of the context that holds the slots. -/
def baseOk (s : State) (c : Nat) : Bool :=
  let dm := get s fld.vatSize.DEPTH_MAX c
  decide (2 ≤ dm) && decide (dm ≤ 8) &&
    s.hst.allocs.any (fun a => a.ctx == canvasCtx s c && a.fence.isNone && a.base * 4096 == (rd s .vatBase c).toNat
      && decide (dm * (get s fld.vatSize.STRIDE c * 256) ≤ a.size * 1048576))

/-- Whether a write of EN = 1 is accepted (R117, R337). -/
def enableOk (s : State) (c : Nat) : Bool :=
  (mode s == 4 || mode s == 5 || mode s == 6) && geometryOk s c && baseOk s c && timingOk s c (fcPeriod s (canvasFc s c))
    && gainOk s c && (List.range 4).all (planeOk s c) && (!on s fld.canvasCtrl.SPAN c || spanOk s c)

/-! ## Shadowed values (R138 to R140) -/

/-- The shadowed registers of a canvas with their instances. -/
def shadowRegs (c : Nat) : List (RegId × Nat × Nat) :=
  [RegId.canvasCtrl, .commitLead, .latchGuard, .refresh, .glzCfg, .gainBase, .gainStride].map (fun r => (r, c, 0)) ++
    (List.range 4).flatMap (fun p =>
      [RegId.planeCtrl, .planeSrc, .planeSize, .planeDx, .planeDy, .planeAdv, .planeCut].map (fun r => (r, c, p)))

/-- The shadowed registers of a canvas that hold a pending value. -/
def pendingRegs (s : State) (c : Nat) : List (RegId × Nat × Nat) :=
  (shadowRegs c).filter (fun x => (Map.find? s.inForce (x.1.key x.2.1 x.2.2)).isSome)

/-- Bits of a word chosen by a mask, the rest from another. -/
def mixBits (mask : Nat) (a b : W32) : W32 :=
  BitVec.ofNat 32 (Nat.lor (Nat.land a.toNat mask) (Nat.land b.toNat (0xFFFFFFFF - Nat.land mask 0xFFFFFFFF)))

/-- A pending value taken into force. -/
def applyReg (x : RegId × Nat × Nat) (s : State) : State :=
  { s with inForce := Map.del s.inForce (x.1.key x.2.1 x.2.2) }

/-- A pending value discarded: reads return the value in force (R119, R138). -/
def discardReg (x : RegId × Nat × Nat) (s : State) : State :=
  match Map.find? s.inForce (x.1.key x.2.1 x.2.2) with
  | none => s
  | some v => applyReg x (wr x.1 (mixBits x.1.desc.shadow v (rd s x.1 x.2.1 x.2.2)) s x.2.1 x.2.2)

/-- A write of a canvas register with shadowed fields: fields of an enabled canvas wait for its commit and end its rest;
the rest of the register, and every field while EN = 0, is written at once (R138, R143). -/
def shadowWrite (pf : Bool) (r : RegId) (c p : Nat) (v : W32) (s : State) : State :=
  let old := rd s r c p
  let new0 := mergeWrite s pf r c p v
  let new := if r = .refresh && new0.toNat % 256 = 0 then mixBits 0xFF old new0 else new0
  let changed := Nat.land (Nat.xor old.toNat new.toNat) r.desc.shadow != 0
  let s1 := wr r new s c p
  if !changed || !on s fld.canvasCtrl.EN c then s1
  else
    let s2 := if (Map.find? s.inForce (r.key c p)).isSome then s1
      else { s1 with inForce := Map.put s1.inForce (r.key c p) old }
    endRest c (put fld.canvasStatus.SHADOW 1 s2 c)

/-- The registers whose shadowed fields a span pair needs to agree in (R139). -/
def pairReg (r : RegId) : Bool := r = .canvasCtrl || r = .commitLead || r = .latchGuard

/-- Step 1 of a commit for one half (R130, R138 to R140): pending values are taken into force together, or all
discarded; the fields of a pair that do not agree stay pending. -/
def applyShadows (c : Nat) (agree : Bool) (period : Nat) (s : State) : State :=
  let pend := pendingRegs s c
  let take := if agree then pend else pend.filter (fun x => !pairReg x.1)
  if take.isEmpty then s
  else
    let s1 := forEach take applyReg s
    let per := if canvasFc s1 c = canvasFc s c then period else fcPeriod s1 (canvasFc s1 c)
    let planes := (take.filter (fun x => x.1.num ≥ RegId.planeCtrl.num && x.1.num ≤ RegId.planeCut.num)).map (fun x => x.2.2)
    if timingOk s1 c per && gainOk s1 c && planes.all (planeOk s1 c) then
      put fld.canvasStatus.SHADOW (if (pendingRegs s1 c).isEmpty then 0 else 1) (put fld.canvasStatus.CFG_ERR 0 s1 c) c
    else
      let s2 := forEach pend discardReg s
      setBit fld.canvasEvent.CANVAS_EVENT 5 (put fld.canvasStatus.CFG_ERR 1 (put fld.canvasStatus.SHADOW 0 s2 c) c) c

/-! ## Pointers -/

/-- The slot of an epoch, or 0. -/
def slotOf (s : State) (c : Nat) (e : W32) : Nat :=
  match epochRec s c e with
  | some r => r.slot
  | none => 0

/-- VAT_SLOTS shows the slots of TX, RM and WP. -/
def fixSlots (c : Nat) (s : State) : State :=
  let s := put fld.vatSlots.WP_SLOT (slotOf s c (wpEp s c)) (put fld.vatSlots.RM_SLOT (slotOf s c (rmEp s c)) s c) c
  if txv s c then put fld.vatSlots.TX_SLOT (slotOf s c (txEp s c)) s c else s

/-- The records of a canvas that a predicate keeps. -/
def keepRecs (c : Nat) (p : EpochRec → Bool) (s : State) : State :=
  let v := canvasOf s c
  setCanvas c { v with epochs := v.epochs.filter p } s

/-- Open epochs above an epoch withdrawn: their tasks complete with CANCELLED and their slots become free (R123). -/
def withdrawAbove (c : Nat) (lim : W32) (s : State) : State :=
  if epochDiff (wpEp s c) lim ≤ 0 then s
  else
    let s := cancelEpochs c (fun e => decide (epochDiff e lim > 0)) s
    let s := keepRecs c (fun r => r.committed || decide (epochDiff r.epoch lim ≤ 0)) s
    wr .wpEpoch lim s c

/-! ## Enable and disable (R124) -/

/-- A canvas starts at its first rewind mark. A shadowed value of a half that waited for its mate stays pending (R138). -/
def startCanvas (c : Nat) (e : W32) (s : State) : State :=
  let s := placeLog c e s
  let v := canvasOf s c
  let s := setCanvas c { v with epochs := [], lastCrc := [], trickle := 0, quiet := 0, lastApp := newestApp s c,
                                noisy := false, glzLast := [], oldNum := none, dmx := [] } s
  let s := put fld.vatSlots.TXV 0 (wr .txEpoch 0xFFFFFFFF (wr .wpEpoch (e - 1) (wr .rmEpoch e s c) c) c) c
  let s := put fld.vatSlots.TX_SLOT 0 s c
  let s := wr .canvasStatus (BitVec.ofNat 32 (1 + 8 * get s fld.canvasStatus.SHADOW c)) s c
  fixSlots c (releaseUp c 9 (takeTmpls c s))

/-- The first rewind mark: the first epoch whose commit lies at least one frame period after the present (R124). -/
def firstMark (s : State) (c : Nat) : W32 :=
  let n := canvasFc s c
  let p := fcPeriod s n
  let l := eff s fld.commitLead.COMMIT_LEAD c
  epochAtOrAfter s n (s.ot + BitVec.ofNat 64 (p + if l = 0 then p else l))

/-- Canvases that start together. -/
def startCanvases (cs : List Nat) (s : State) : State :=
  match cs with
  | [] => s
  | c :: _ =>
    let e := firstMark s c
    forEach cs (fun x u => startCanvas x e u) s

/-- A canvas whose EN has been set: it starts, alone or with the other half of its pair where that is enabled too. -/
def enableCanvas (c : Nat) (s : State) : State :=
  if !enableOk s c then put fld.canvasStatus.CFG_ERR 1 (put fld.canvasCtrl.EN 0 s c) c
  else
    let s := holdEnds (put fld.canvasStatus.CFG_ERR 0 s c)
    let hs := halves s c
    if hs.all (fun h => on s fld.canvasCtrl.EN h) then startCanvases hs s else s

/-- What leaves with a canvas that stops: tasks of its open epochs, records, pending values, queued output (R124). -/
def stopCanvas (c : Nat) (s : State) : State :=
  let s := put fld.canvasCtrl.EN 0 (forEach (pendingRegs s c) applyReg s) c
  if !canvasRuns s c then put fld.canvasStatus.SHADOW 0 s c
  else
    let s := cancelEpochs c (fun _ => true) s
    let v := canvasOf s c
    let s := setCanvas c { v with epochs := [], quiet := 0, marks := [] } s
    let s := { s with
      sch := { s.sch with tmplForce := s.sch.tmplForce.filter (fun x => x.1 / 256 != c) }
      glz := { s.glz with
        work := s.glz.work.filter (fun g => g.canvas != c)
        wins := s.glz.wins.filter (fun w => w.canvas != c) } }
    let s := forEach (List.range 32) (fun p u =>
      if (portOf u p).queue.any (isOfCanvas c) then dequeue p (isOfCanvas c) u else u) s
    let st := get s fld.canvasStatus.CFG_ERR c
    wr .canvasStatus (BitVec.ofNat 32 (16 * st)) s c

/-- A canvas disabled, with the other half of its pair (R124, R135, R339). -/
def disableCanvas (c : Nat) (s : State) : State :=
  let hs := halves s c
  holdEnds (forEach (hs.filter (fun h => on s fld.canvasCtrl.EN h)) stopCanvas s)

/-- Every enabled canvas disabled (R309, R311, R340). -/
def disableAll (s : State) : State :=
  forEach ((List.range 64).filter (fun c => on s fld.canvasCtrl.EN c)) (fun c u =>
    if on u fld.canvasCtrl.EN c then disableCanvas c u else u) s

/-- The effect of a write of CANVAS_CTRL (R117, R124, R138). -/
def canvasCtrlWrite (pf : Bool) (c : Nat) (v : W32) (s : State) : State :=
  let was := on s fld.canvasCtrl.EN c
  let now := v.toNat % 2 == 1
  if was && !now then disableCanvas c s |> wr .canvasCtrl (mixBits 0xFFFFFFFE (mergeWrite s pf .canvasCtrl c 0 v) 0) (i := c)
  else if !was && now then enableCanvas c (plainWrite pf .canvasCtrl c 0 v s)
  else shadowWrite pf .canvasCtrl c 0 v s

/-- CANVAS_ENABLE (R117, R124). -/
def execCanvasEnable (fn c : Nat) (v : W32) (s : State) : Out :=
  if 64 ≤ c then .next s else .next (hostWrite fn .canvasCtrl c 0 v (canvasCtrlWrite (isPf fn) c v) s)

/-- CANVAS_DISABLE (R124, R135). -/
def execCanvasDisable (fn c : Nat) (v : W32) (s : State) : Out :=
  if 64 ≤ c then .next s else .next (hostWrite fn .canvasCtrl c 0 v (canvasCtrlWrite (isPf fn) c v) s)

/-- The effect of a write of WIDTH, HEIGHT or the tile size: STRIDE is the slot size (R117). -/
def geometryWrite (pf : Bool) (r : RegId) (c : Nat) (v : W32) (s : State) : State :=
  let s := plainWrite pf r c 0 v s
  put fld.vatSize.STRIDE ((get s fld.canvasWidth.WIDTH c * get s fld.canvasHeight.HEIGHT c * 8 + 255) / 256) s c

/-! ## Vat commands -/

/-- SQUASH: every task of an open epoch that may still be undone starts again (R145). -/
def squashCanvas (c : Nat) (s : State) : State :=
  let hit := fun (t : Task) =>
    match t.canvas, t.epoch with
    | some c', some e => c' == c && openEp s c e && undoable t && t.finishing.isNone
    | _, _ => false
  let s1 := forEach ((allTasks s).filter hit) (fun t u =>
    match taskAt u t.slot with
    | some t' => if t'.id = t.id then squash t' u else u
    | none => u) s
  forEach (s.sch.doneTasks.filter (fun d => d.canvas == c && openEp s c d.epoch)) (fun d u =>
    if u.sch.doneTasks.any (fun x => x.id == d.id) then recreate d u else u) s1

/-- PIN: discarded while a slot is pinned, before the first commit, and at depth 2 (R122). -/
def pinCanvas (c : Nat) (s : State) : State :=
  if !canvasRuns s c || on s fld.vatSlots.PINNED c || !txv s c || eff s fld.canvasCtrl.DEPTH c = 2 then s
  else put fld.vatSlots.PINNED 1 (put fld.vatSlots.PIN_SLOT (slotOf s c (txEp s c)) s c) c

/-- UNPIN (R122): a held release takes place with STALL_RELEASE. -/
def unpinCanvas (c : Nat) (s : State) : State := put fld.vatSlots.PINNED 0 s c

/-- The effect of a write of VAT_CMD. -/
def vatCmdWrite (c : Nat) (v : W32) (s : State) : State :=
  let s := if v.getLsbD 0 then squashCanvas c s else s
  let s := if v.getLsbD 1 then pinCanvas c s else s
  let s := if v.getLsbD 2 then unpinCanvas c s else s
  if v.getLsbD 3 then endRest c s else s

/-- A write of one VAT_CMD bit. -/
def vatCmd (fn c : Nat) (v : W32) (s : State) : State :=
  if 64 ≤ c then s else hostWrite fn .vatCmd c 0 v (vatCmdWrite c v) s

/-- SQUASH (R145). -/
def execSquash (fn c : Nat) (s : State) : Out := .next (vatCmd fn c 1 s)
/-- PIN (R122). -/
def execPin (fn c : Nat) (s : State) : Out := .next (vatCmd fn c 2 s)
/-- UNPIN (R122). -/
def execUnpin (fn c : Nat) (s : State) : Out := .next (vatCmd fn c 4 s)
/-- WAKE (R143). -/
def execWake (fn c : Nat) (s : State) : Out := .next (vatCmd fn c 8 s)

/-- STALL_RELEASE (R122): a held release takes place; the stall ends at WP = RM + N − 2. -/
def execStallRelease (c : Nat) (s : State) : Out :=
  if !canvasRuns s c || !on s fld.canvasStatus.STALL c then .next s
  else match freeSlot s c with
    | none => .next s
    | some k =>
      let s := releaseEpoch c k (wpEp s c + 1) s
      let full := epochDiff (rmEp s c + BitVec.ofNat 32 (eff s fld.canvasCtrl.DEPTH c) - 2) (wpEp s c) ≤ 0
      .next (if full then put fld.canvasStatus.STALL 0 s c else s)

/-! ## Fills (R57, R131, R132) -/

/-- Number of tiles of a canvas. -/
def tileCount (s : State) (c : Nat) : Nat := tileRows s c * tileCols s c

/-- Row and column of a tile number. -/
def tileAtNo (s : State) (c n : Nat) : Nat × Nat := (n / tileCols s c, n % tileCols s c)

/-- The bytes of a tile of the previous commit's slot, or zero where there is none. -/
def prevTile (s : State) (c n : Nat) (prev : Option EpochRec) : List Byte :=
  let q := tileAtNo s c n
  match prev with
  | some p => tileBytes s c p.slot q.1 q.2
  | none => List.replicate (tileW s c q.2 * tileH s c q.1 * 8) 0

/-- A tile filled from E − 1, masked where an input epoch is given (R57, R131, R199). -/
def fillTile (c : Nat) (e : W32) (slot : Nat) (prev : Option EpochRec) (n : Nat) (inep : Option W32) (s : State) : State :=
  let q := tileAtNo s c n
  let bs := prevTile s c n prev
  let bs := match inep with
    | some i => maskTile (killedRects s c e i) (tileX s c q.2) (tileY s c q.1) (tileW s c q.2) bs
    | none => bs
  writeTile c slot q.1 q.2 bs s

/-- Copies still running are complete: older committed slots become free (R132). -/
def endCopies (c : Nat) (s : State) : State :=
  let v := canvasOf s c
  let s := setCanvas c { v with epochs := v.epochs.map (fun r => { r with copying := [] }) } s
  if txv s c then keepRecs c (fun r => !r.committed || r.epoch == txEp s c) s else s

/-- FILL_COPY_COMPLETE (R132): Glaze may read the filled tiles, and a release that waited takes place. -/
def execFillCopyComplete (c : Nat) (s : State) : Out :=
  if !canvasRuns s c || !copying s c then .next s else .next (fixSlots c (releaseUp c 9 (endCopies c s)))

/-! ## The commit (R130) -/

/-- Whether a task is stopped by the commit of an epoch (R46). -/
def stopsAt (c : Nat) (e : W32) (t : Task) : Bool :=
  t.canvas == some c && t.epoch == some e && undoable t && t.finishing.isNone && t.st != .parked

/-- The tiles of an epoch whose task is unfinished or was never created (R131). -/
def unfinishedTiles (s : State) (c : Nat) (e : W32) : List Nat :=
  let at_ := fun (d : List W32) => tileNo s c (dRow d) (dCol d)
  let stopped := ((allTasks s).filter (stopsAt c e)).map (fun t => at_ t.desc)
  let again := (s.sch.recreateQ.filter (fun d => d.canvas == c && d.epoch == e)).map (fun d => at_ d.desc)
  let jobs := (s.sch.createQ.filter (fun j => j.canvas == c && j.epoch == some e)).flatMap (fun j =>
    (List.range (j.total - j.next)).map (fun k => j.next + k))
  let all := stopped ++ again ++ jobs ++ (match epochRec s c e with | some r => r.undone | none => [])
  (List.range (tileCount s c)).filter (fun n => all.contains n)

/-- Whether a half is ready for its commit (R135); one at rest commits a repeat, which is no miss (R143). -/
def halfReady (s : State) (c : Nat) : Bool := on s fld.canvasStatus.RESTING c || (unfinishedTiles s c (rmEp s c)).isEmpty

/-- Step 3: SPEC and demoted tasks of the epoch stop with UNFINISHED (R46); nothing of it is created any more. Parked tasks
stay for step 6 also where the commit is a miss: R46 says that the commit does not affect them (DEDUCED, log 118). -/
def freezeEpoch (c : Nat) (e : W32) (s : State) : State :=
  let s1 := forEach ((allTasks s).filter (stopsAt c e)) (fun t u => finish t 3 0 0 0 u) s
  { s1 with sch := { s1.sch with
      createQ := s1.sch.createQ.filter (fun j => !(j.canvas == c && j.epoch == some e))
      recreateQ := s1.sch.recreateQ.filter (fun d => !(d.canvas == c && d.epoch == e))
      doneTasks := s1.sch.doneTasks.filter (fun d => !(d.canvas == c && d.epoch == e)) } }

/-- How an epoch commits: as itself, as the repeat of a miss (R136), or as the repeat of rest (R143). -/
inductive CommitKind where
  | normal | miss | rest
deriving DecidableEq, Repr

/-- The tiles that a commit fills: those of R131, and those of R57 with the input epoch of their mask. -/
def fillsOf (k : CommitKind) (all unf : List Nat) (marks : List (Nat × W32)) : List (Nat × Option W32) :=
  match k with
  | .normal => unf.map (fun n => (n, none)) ++
      (marks.filter (fun x => !unf.contains x.1)).map (fun x => (x.1, some x.2))
  | .miss => all.map (fun n => (n, none))
  | .rest => []

/-- Steps 3 and 4 for a half whose slot is to be committed: the fills done, and the record that stands for the epoch. A commit
at rest copies nothing (R143): E is held by the slot of E − 1, pinned or not, and E's own slot becomes free (DESIGN CHOICE,
log 119). -/
def settleEpoch (c : Nat) (k : CommitKind) (r : EpochRec) (prev : Option EpochRec) (unf : List Nat) (s : State) :
    EpochRec × State :=
  let all := List.range (tileCount s c)
  match k, prev with
  | .rest, some p => ({ r with slot := p.slot, crcs := p.crcs, committed := true, fills := [] }, s)
  | _, _ =>
    let fs := fillsOf k all unf r.fills
    let s1 := forEach fs (fun x u => fillTile c r.epoch r.slot prev x.1 x.2 u) s
    let crc := fun n =>
      match prev, fs.find? (fun x => x.1 == n) with
      | some p, some (_, none) => p.crcs.getD n 0
      | _, _ => let q := tileAtNo s1 c n; crc32c (tileBytes s1 c r.slot q.1 q.2)
    ({ r with crcs := all.map crc, committed := true, fills := [],
              copying := if prev.isSome then fs.map (fun x => x.1) else [] }, s1)

/-- The tiles of R131 counted and reported (R131). -/
def reportUnfinished (c : Nat) (unf : List Nat) (s : State) : State :=
  if unf.isEmpty then s
  else raise 36 c (setBit fld.canvasEvent.CANVAS_EVENT 3 (count Cnt.unfinishedTile.ctorIdx unf.length s) c)

/-- Step 5, pointers (R121): TX and RM move, the slot of E − 1 becomes free unless it is being copied from. -/
def movePointers (c : Nat) (r : EpochRec) (s : State) : State :=
  let v := canvasOf s c
  let keepPrev := !r.copying.isEmpty
  let kept := v.epochs.filter (fun x => !x.committed || (keepPrev && txv s c && x.epoch == txEp s c))
  let s := setCanvas c { v with epochs := kept.map (fun x => if x.epoch = r.epoch then r else x) } s
  let s := put fld.vatSlots.TXV 1 (wr .txEpoch r.epoch (wr .rmEpoch (r.epoch + 1) s c) c) c
  wr .canvasCommits (rd s .canvasCommits c + 1) s c

/-- The first aligned frame of a new frame clock (R234). -/
def alignedFrame (f : FClock) (latch : W64) (oldPeriod : Nat) : W64 :=
  let a := f.from_ latch + 2
  let b := f.from_ (latch + BitVec.ofNat 64 oldPeriod)
  if timeDiff a b ≥ 0 then a else b

/-- The frame clock's new stretch begins just after an epoch (R233). -/
def rateSwitch (s : State) (n : Nat) (e : W32) : Bool :=
  match fclock s n with
  | some f => (f.segs.drop 1).any (fun g => g.start == f.ofEpoch s.ot e + 1)
  | none => false

/-- The log's records take the numbers of a restarted canvas: those applied up to E keep their place, the others are
assigned again from their original targets (R234, R235). -/
def renumber (c : Nat) (e first : W32) (s : State) : State :=
  let f := fun (x : Change) =>
    match Map.find? x.apps c with
    | none => x
    | some a =>
      let b := if epochDiff e a ≥ 0 then a + (first - 1 - e) else enableEpoch s c first x.target
      { x with apps := Map.put x.apps c b }
  { s with vat := { s.vat with inputs := s.vat.inputs.map f } }

/-- A canvas restarts on new timing after the commit of E (R141, R234, R235). -/
def restartCanvas (c : Nat) (e : W32) (latch : W64) (oldFc oldPeriod : Nat) (s : State) : State :=
  let n := canvasFc s c
  let s := withdrawAbove c e s
  match fclock s n with
  | none => s
  | some f =>
    let m := if n = oldFc then f.ofEpoch s.ot e + 1 else alignedFrame f latch oldPeriod
    let first := BitVec.ofNat 32 m.toNat
    let gap := (timeDiff (f.inst m) latch - oldPeriod).toNat
    let s := renumber c e first s
    let v := canvasOf s c
    let shift := first - 1 - e
    let snaps := if n = oldFc then v.snaps
      else (v.snaps.filter (fun x => x.epoch == e)) ++ v.snaps.map (fun x => { x with epoch := x.epoch + shift })
    let s := setCanvas c { v with
      snaps := snaps
      oldNum := if n = oldFc then v.oldNum else some (e, shift)
      lastApp := newestApp s c } s
    let s := wr .canvasSlipNs (BitVec.ofNat 32 (Nat.min gap 0xFFFFFFFF)) (wr .wpEpoch (first - 1) (wr .rmEpoch first s c) c) c
    if gap = 0 then s else raise 37 c (setBit fld.canvasEvent.CANVAS_EVENT 4 s c)

/-- Step 6 (R130): parked and FIRM tasks of the epoch become READY, and kind 3 templates release. -/
def releaseCommitted (c : Nat) (e : W32) (s : State) : State :=
  let s := forEach ((allTasks s).filter (fun t => t.canvas == some c && t.epoch == some e && t.st == .parked)) (fun t u =>
    makeReady { t with firm := true, resumed := true, inep := e, priv := privileged u t } u) s
  let s := wakeWaiting (fun t => t.canvas == some c && t.epoch == some e && dFirm t.desc) s
  releaseKind 3 c (some (c, e)) s

/-! ## What a commit sends (R133, R134) -/

/-- The Glaze-stage fields of an endpoint entry (R149). -/
def glazeFields (m : Map W32) (e : Nat) : Nat := bitsOf (ew m e 5) 20 3 * 2 ^ 29 + bitsOf (ew m e 6) 0 29

/-- The endpoints whose Glaze-stage parameters changed at a commit: fields of Table 6-1 or the derate multiplier (R165). -/
def glazeChanged (s : State) (c : Nat) (ep : W32) (prev : Option W32) : List Nat :=
  let sn := snapAt s c ep
  match prev with
  | none => []
  | some p =>
    let old := (snapAt s c p).etab
    (canvasEntries sn.etab c).filter (fun e =>
      (eValid old e && glazeFields sn.etab e != glazeFields old e)
        || (match Map.find? (canvasOf s c).glzLast e with
            | some x => x != derateOf s sn.etab c e ep
            | none => false))

/-- The destination rectangle of an enabled plane. -/
def planeRect (s : State) (c p : Nat) : Option Rect :=
  if eff s fld.planeCtrl.EN c p = 1 then
    some ⟨eff s fld.planeDx.DST_X c p, eff s fld.planeDy.DST_Y c p,
      eff s fld.planeSize.SRC_W c p * scaleOf (eff s fld.planeCtrl.SCX c p),
      eff s fld.planeSize.SRC_H c p * scaleOf (eff s fld.planeCtrl.SCY c p)⟩
  else none

/-- The dirty tiles of a committed epoch (R133). -/
def dirtyTiles (s : State) (c : Nat) (r : EpochRec) (prev : Option W32) (allGlaze : Bool) : List Nat :=
  let v := canvasOf s c
  let planes := (List.range 4).filterMap (planeRect s c)
  let regions := (glazeChanged s c r.epoch prev).map (entryRect (snapAt s c r.epoch).etab)
  (List.range (tileCount s c)).filter (fun n =>
    let q := tileAtNo s c n
    let box := tileRect s c q.1 q.2
    prev.isNone || allGlaze || Map.find? v.lastCrc n != some (r.crcs.getD n 0)
      || planes.any (fun x => x.overlaps box) || regions.any (fun x => x.overlaps box))

/-- Snapshots kept: the newest twenty, and those that a task still needs (R47). -/
def pruneSnaps (c : Nat) (s : State) : State :=
  let v := canvasOf s c
  let n := v.snaps.length
  let used := (allTasks s).filter (fun t => t.canvas == some c)
  setCanvas c { v with snaps := (v.snaps.zipIdx.filter (fun x =>
    decide (n ≤ x.2 + 20) || used.any (fun t => t.inep == x.1.epoch || t.epoch == some x.1.epoch))).map (fun x => x.1) } s

/-- The templates of a canvas create nothing more (R143). -/
def stopCreating (c : Nat) (s : State) : State :=
  { s with sch.createQ := s.sch.createQ.filter (fun j => j.src != c) }

/-- Whether a canvas is at rest or enters it after this commit, and its count of quiet commits (R142); `pending` where a
shadowed value was pending at the commit. At rest its templates create nothing more (R143). -/
def quietStep (c : Nat) (r : EpochRec) (dirty : List Nat) (filled : Nat) (pending : Bool) (s : State) : State :=
  let v := canvasOf s c
  let ok := dirty.isEmpty && filled == 0 && !r.timed && !r.demoted && !v.noisy && !pending
    && (List.range 4).all (fun p => eff s fld.planeCtrl.EN c p == 0)
    && (match v.lastApp with | some a => decide (epochDiff a r.epoch < 0) | none => true)
  let n := if ok then v.quiet + 1 else 0
  let s := setCanvas c { v with quiet := n, noisy := false } s
  if ok && !on s fld.canvasStatus.RESTING c && on s fld.canvasCtrl.REST_EN c && decide (get s fld.refresh.QUIET_N c ≤ n) then
    raise 39 c (put fld.canvasStatus.RESTING 1 (stopCreating c s) c)
  else s

/-- The digest of a committed slot (R318). -/
def slotDigest (r : EpochRec) : W32 := crc32c (r.crcs.flatMap (fun x => leBytes 4 x.toNat))

/-- The COMMIT record of the journal (Table 11-3); a miss sets FLAGS[1], which stands above the type. -/
def journalCommit (c : Nat) (r : EpochRec) (miss : Bool) (unf : List Nat) (s : State) : State :=
  journal (0x01 + if miss then 0x200 else 0) (leBytes 4 c ++ leBytes 4 r.epoch.toNat ++ leBytes 4 (slotDigest r).toNat
    ++ leBytes 4 unf.length ++ unf.flatMap (fun n => leBytes 4 n)) s

/-- Whether the device enters HOLD at a commit (R338). -/
def holdDue (s : State) : Bool :=
  let cs := (List.range 64).filter (fun c => on s fld.canvasCtrl.EN c)
  let gate := (List.range (clusters s.member)).filter (fun k => !hasBit s fld.pwrCtrl.HOLD_CLUSTERS k)
  mode s == 5 && s.pwr.trans.isNone && on s fld.pwrCtrl.HOLD_EN && (role s == 0 || role s == 2) && !cs.isEmpty
    && cs.all (fun c => on s fld.canvasStatus.RESTING c)
    && !(allTasks s).any (fun t => match t.spill with | some k => gate.contains k | none => false)

/-- HOLD entered: the clusters outside HOLD_CLUSTERS are gated (R338), which ends a rotation step in one of them (R358). -/
def enterHold (s : State) : State :=
  let gate := (List.range (clusters s.member)).filter (fun k => !hasBit s fld.pwrCtrl.HOLD_CLUSTERS k)
  let s := if gate.contains (rotCluster s) then abortRot s else s
  enterMode 4 { s with pwr := { s.pwr with gated := gate, memAt := s.ot } }

/-- What one half of a commit needs to know from before step 1: whether it misses, its old frame clock, frame period and
latch instant, whether a Glaze-stage register took a new value, and whether a shadowed value was pending. -/
structure CommitEnv where
  miss : Bool
  oldFc : Nat
  oldPeriod : Nat
  latch : W64
  glaze : Bool
  pending : Bool
deriving DecidableEq, Repr

/-- What follows the pointers: sending, imports, rest, the journal (R133, R134, R142, R294, R314). -/
def afterCommit (c : Nat) (v : CommitEnv) (prev : Option W32) (r : EpochRec) (unf : List Nat) (filled : Nat) (s : State) :
    State :=
  let dirty := dirtyTiles s c r prev v.glaze
  let cv := canvasOf s c
  let k := if prev.isNone then 0 else (cv.trickle + 1) % eff s fld.refresh.REFRESH_N c
  let sn := snapAt s c r.epoch
  let s := setCanvas c { cv with
    trickle := k
    glzLast := (canvasEntries sn.etab c).map (fun e => (e, derateOf s sn.etab c e r.epoch)) } s
  let s := put fld.canvasFilled.FILLED filled (put fld.canvasDirty.DIRTY dirty.length s c) c
  let s := wr .epPorts (latchMask sn.etab c) s c
  let s := sendEpoch c r.slot r.epoch prev dirty k s
  let s := quietStep c r dirty filled v.pending (autoImports c (wpEp s c) s)
  let s := journalCommit c r v.miss unf { s with twn := { s.twn with cpos := s.twn.cpos + 1 } }
  pruneSnaps c (pruneLog s)

/-- Steps 3 to 6 for one half; `listed` are further tiles that a standby fills (R316). -/
def commitHalf (c : Nat) (v : CommitEnv) (listed : List Nat) (s : State) : State :=
  let e := rmEp s c
  match epochRec s c e with
  | none => s
  | some r0 =>
    let rest := on s fld.canvasStatus.RESTING c
    let kind : CommitKind := if rest then .rest else if v.miss then .miss else .normal
    let prevE := if txv s c then some (txEp s c) else none
    let prev := if txv s c then epochRec s c (txEp s c) else none
    let open_ := unfinishedTiles s c e
    let unf := if kind = .normal then
        (List.range (tileCount s c)).filter (fun n => open_.contains n || listed.contains n) else []
    let s := freezeEpoch c e s
    let x := settleEpoch c kind ((epochRec s c e).getD r0) prev unf s
    let r := x.1
    let filled := if kind = .normal then (fillsOf kind [] unf r0.fills).length else 0
    let s := movePointers c r (reportUnfinished c unf x.2)
    let s := if v.miss then
        setBit fld.canvasEvent.CANVAS_EVENT 0 (put fld.canvasStatus.MISSRUN (get s fld.canvasStatus.MISSRUN c + 1) s c) c
      else put fld.canvasStatus.MISSRUN 0 s c
    let s := takeTmpls c s
    let s := if canvasFc s c != v.oldFc || rateSwitch s v.oldFc e then restartCanvas c e v.latch v.oldFc v.oldPeriod s
      else withdrawAbove c (rmEp s c + BitVec.ofNat 32 (eff s fld.canvasCtrl.DEPTH c) - 2) s
    let s := fixSlots c (releaseUp c 9 s)
    let s := if on s fld.canvasEvtEn.EVT_EN_COMMIT c then raise 32 c s else s
    afterCommit c v prevE r unf filled (releaseCommitted c e s)

/-- Step 1 for one half, and what the later steps need from before it. -/
def commitEnv (c : Nat) (agree : Bool) (s : State) : CommitEnv × State :=
  let e := rmEp s c
  let per := periodAt s (canvasFc s c) e
  let glz := (pendingRegs s c).filter (fun x => !pairReg x.1 && x.1 != .refresh)
  let t := applyShadows c agree per s
  let took := glz.any (fun x => eff s ⟨x.1, 0, 32⟩ x.2.1 x.2.2 != eff t ⟨x.1, 0, 32⟩ x.2.1 x.2.2)
  (⟨false, canvasFc s c, per, latchOf s c e, took, !(pendingRegs s c).isEmpty⟩, t)

/-- Whether a canvas can commit: it runs and its rewind mark holds a slot once its copies are complete. -/
def canCommit (s : State) (c : Nat) : Bool := canvasRuns s c && (epochRec s c (rmEp s c)).isSome

/-- A canvas or span pair commits at the present (R130, R135, R136). -/
def commitNow (cs : List Nat) (s : State) : State :=
  let s := forEach cs (fun c u => fixSlots c (releaseUp c 9 (endCopies c u))) s
  let agree := match cs with
    | a :: b :: _ => pairAgrees s (fun f x => get s f x) a b
    | _ => true
  let envs := cs.foldl (fun (x : List (Nat × CommitEnv) × State) c =>
    let y := commitEnv c agree x.2
    (x.1 ++ [(c, y.1)], y.2)) ([], s)
  let s := envs.2
  let lower := cs.headD 0
  let miss := decide (2 ≤ cs.length) && cs.any (fun c => !halfReady s c)
    && decide (get s fld.canvasStatus.MISSRUN lower < eff s fld.canvasCtrl.MISS_MAX lower)
  let s := if miss then raise 33 lower (bump .commitMiss s) else s
  let s := forEach envs.1 (fun x u => commitHalf x.1 { x.2 with miss := miss } [] u) s
  let s := selActs s
  if holdDue s then enterHold s else s

/-! ## Frame instants (R230) -/

/-- The universes of a canvas that have not been sent for SACN_KEEP frame instants are sent again (R203). -/
def keepUniverses (c : Nat) (s : State) : State :=
  if !canvasRuns s c || !txv s c then s
  else forEach (canvasUnivs s c) (fun u t =>
    let n := Map.get (fun _ => 0) t.epg.univAge u + 1
    let t := { t with epg := { t.epg with univAge := Map.put t.epg.univAge u n } }
    let queued := t.glz.work.any (fun g => g.via == .univ u)
    if get t fld.epTiming.SACN_KEEP ≤ n && on t fld.epCtrl.EN && !queued then
      (if (viaItems (snapAt t c (txEp t c)).etab c (.univ u)).any (fun q => pixelBad t c (slotOf t c (txEp t c)) q.2) then
        noteData c t
       else sendUniv u c (slotOf t c (txEp t c)) (txEp t c) 0 t)
    else t) s

/-- The stretch that begins just after a frame has come: FBASE is its, and no change waits (R233). -/
def enterStretch (n : Nat) (k : W64) (s : State) : State :=
  match fclock s n with
  | none => s
  | some f =>
    match (f.segs.drop 1).find? (fun g => g.start == k + 1) with
    | none => s
    | some g =>
      let s := wr .fbaseHi (BitVec.ofNat 32 (g.fbase.toNat / 2 ^ 32)) (wr .fbaseLo (BitVec.ofNat 32 g.fbase.toNat) s n) n
      let last := (f.segs.getLast?.map (fun x => x.start)) == some g.start
      if last then put fld.fcStatus.PENDING 0 s n else s

/-- FRAME_INSTANT (R230): outward time reaches the next instant of a running frame clock. A kind 4 template releases
(Table 4-4), held calibration takes effect (R362), and universes due a repeat are sent (R203). -/
def execFrameInstant (n : Nat) (s : State) : Out :=
  match fclock s n with
  | none => .next s
  | some f =>
    let k := f.seen + 1
    let s := advance (f.inst k) s
    let s := enterStretch n k (setFc n { f with seen := k } s)
    let s := if get s fld.calCtrl.FC == n && on s fld.calStatus.PENDING then ppsChange 0 (ppsChange 1 calRelease) s else s
    let s := releaseKind 4 n none s
    .next (forEach ((List.range 64).filter (fun c => canvasFc s c == n)) keepUniverses s)

end Sys2Proof.Machine
end

