-- ==== Sys2Proof/Machine/Nodes.lean ====
section
/-!
DEFINITION. The endpoint engine's inputs: publication of endpoint entries and views (R172 to R175, R79), STAT intake with
heat, string states and repairs (R187, R191 to R196), lost nodes (R196) and kill groups (R197 to R201).
-/

namespace Sys2Proof.Machine

/-! ## Endpoint entries (R172 to R175) -/

/-- The sixteen words that a write of word 0 would publish: the staged words under the new word 0. -/
def stagedEntry (s : State) (e : Nat) (w0 : W32) : Map W32 :=
  (List.range 16).map (fun k => (16 * e + k, if k = 0 then w0 else Map.get (fun _ => 0) s.epg.stage (16 * e + k)))

/-- The reserved fields of an entry: word, lowest bit, width (Table 7-1). -/
def entryReserved : List (Nat × Nat × Nat) :=
  [(0, 17, 7), (1, 20, 12), (3, 13, 3), (3, 29, 3), (5, 23, 9), (6, 29, 3), (9, 16, 16), (14, 13, 3), (14, 25, 7), (15, 13, 19)]

/-- Whether every reserved field of an entry is zero. -/
def entryReservedZero (m : Map W32) (e : Nat) : Bool := entryReserved.all (fun x => bitsOf (ew m e x.1) x.2.1 x.2.2 == 0)

/-- A word of an entry as it is stored: reserved fields read as zero (R9). -/
def entryWord (k : Nat) (v : W32) : W32 :=
  BitVec.ofNat 32 ((entryReserved.filter (fun x => x.1 == k)).foldl (fun a x => withBits a x.2.1 x.2.2 0) v.toNat)

/-- Slots that an sACN or DMX endpoint takes (R202). -/
def entryFootprint (m : Map W32) (e : Nat) : Nat := ePixels m e * (packOrder (ePack m e)).length * (eBits m e / 8)

/-- Whether PORT names a port of the right type that the member has (Table 7-2, reason 5). -/
def entryPortOk (s : State) (m : Map W32) (e : Nat) : Bool :=
  let p := ePort m e
  match eTransport m e with
  | 0 => portPresent s.member p
  | 1 => decide (p < 16) && portPresent s.member p
  | 2 => decide (p < 16) && portPresent s.member p
  | _ => decide (p < dmxPorts s.member)

/-- The reason of Table 7-2 for which a word 0 with VALID = 1 is refused; 0 for none. -/
def entryReason (s : State) (m : Map W32) (e : Nat) : Nat :=
  let c := eCanvas m e
  let tr := eTransport m e
  let slots := decide (2 ≤ tr)
  let pub := publishedEtab s
  match viewOwner s e with
  | none => 1
  | some x =>
    if canvasCtx s c != x then 2
    else if eW m e = 0 || 4096 < eW m e || eH m e = 0 || 4096 < eH m e
        || get s fld.canvasWidth.WIDTH c < eX m e + eW m e || get s fld.canvasHeight.HEIGHT c < eY m e + eH m e
        || 65535 < eW m e * eH m e then 3
    else if !([8, 10, 12, 14, 16].contains (eBits m e)) || 10 < ePack m e || eDither m e = 3
        || (slots && eBits m e != 8 && eBits m e != 16) then 4
    else if !entryPortOk s m e then 5
    else if (tr = 2 && (get s fld.univCtrl.CANVAS (eUniv m e) != c || 512 + 1 < eStart m e + entryFootprint m e))
        || (tr = 3 && 512 < entryFootprint m e) then 6
    else if decide (tr ≤ 1) && (canvasEntries pub c).any (fun q =>
        q != e && decide (eTransport pub q ≤ 1) && ePort pub q == ePort m e
          && (eTransport pub q != tr || eIpv6 pub q != eIpv6 m e)) then 7
    else if !entryReservedZero m e || (decide (tr ≤ 1) && (eNode m e = 0 || eNode m e = 0xFFFFFFFF)) then 8
    else 0

/-- A change of a context's ETAB input (R173, R174). -/
def etabChange (c : Nat) (s : State) : State := enterChange ⟨8, c, 0⟩ 0 0 .etab s

/-- The frame number at the present of the frame clock of an endpoint's canvas. -/
def frameNow (s : State) (c : Nat) : W64 :=
  match fclock s (canvasFc s c) with
  | some f => f.cur s.ot
  | none => 0

/-- The sixteen words take the place of the published entry, with the change of the ETAB input (R173). -/
def publishEntry (e : Nat) (m : Map W32) (s : State) : State :=
  let was := eValid (publishedEtab s) e
  let s := forEach (List.range 16) (fun k u => wr .etabWord (entryWord k (Map.get (fun _ => 0) m (16 * e + k))) u e k) s
  let s := if eValid m e && !was then setEp e { epOf s e with since := frameNow s (eCanvas m e) } s else s
  match viewOwner s e with
  | some c => etabChange c s
  | none => s

/-- A write of word 0: checked, and published or refused (R173, R175). -/
def publishWord0 (e : Nat) (w0 : W32) (s : State) : State :=
  let m := stagedEntry s e w0
  let why := if eValid m e then entryReason s m e else 0
  if why = 0 then publishEntry e m s
  else epEvent 8 61 e (put fld.epErr.ERR_REASON why (put fld.epErr.ERR_ENTRY e s))

/-- The effect of a write of a word of an entry (R173). -/
def etabWordWrite (e k : Nat) (v : W32) (s : State) : State :=
  if k = 0 then publishWord0 e v s
  else { s with epg := { s.epg with stage := Map.set (fun _ => 0) s.epg.stage (16 * e + k) v } }

/-- ETAB_STAGE_WRITE (R173). -/
def execEtabStageWrite (fn e k : Nat) (v : W32) (s : State) : Out :=
  if 131072 ≤ e || k = 0 || 16 ≤ k then .next s else .next (hostWrite fn .etabWord e k v (etabWordWrite e k v) s)

/-- ETAB_PUBLISH (R173, R175). -/
def execEtabPublish (fn e : Nat) (v : W32) (s : State) : Out :=
  if 131072 ≤ e then .next s else .next (hostWrite fn .etabWord e 0 v (etabWordWrite e 0 v) s)

/-- The slot and registers of ETAB.WR (R53). -/
def etabWrUse (f : F) : Use := ⟨1, 0, false, false, [regP f.p.toNat, regS f.a, regS f.d], []⟩

/-- ETAB.WR (R79): a side effect that needs service privilege; on a standby it is discarded (R315), and an active twin
journals it (R314). -/
def execEtabWr (k : Nat) (f : F) (s : State) : Out :=
  .next (issue k (etabWrUse f) (f.b == 0 && decide (f.imm.toNat < 16)) (fun s t =>
    if !predRuns f.p (maskOf t f) then .keep s (advancePc t)
    else if !privileged s t then .exc ⟨2, instrAddr t⟩
    else
      let e := (sreg t f.a).toNat
      if undoable t then .exc ⟨7, instrAddr t⟩
      else if standby s || endpoints s.member ≤ e then .keep s (advancePc t)
      else
        let w := f.imm.toNat
        let v := sreg t f.d
        let s := journal 0x03 (leBytes 4 (RegId.off .etabWord e w) ++ leBytes 4 v.toNat ++ leBytes 4 svcFn) s
        .keep (etabWordWrite e w v s) (advancePc t)) s)

/-! ## Views (R174) -/

/-- Whether a range of entries meets another context's view. -/
def viewClash (s : State) (c b n : Nat) : Bool :=
  (List.range 128).any (fun x => x != c &&
    decide (Nat.max b (get s fld.viewBase.VIEW_BASE x)
      < Nat.min (b + n) (get s fld.viewBase.VIEW_BASE x + get s fld.viewN.VIEW_N x)))

/-- The effect of a write of a view register by a physical function. -/
def viewEffect (pf : Bool) (c : Nat) (isN : Bool) (v : W32) (s : State) : State :=
  let r := if isN then RegId.viewN else RegId.viewBase
  let t := plainWrite pf r c 0 v s
  if !pf || viewClash t c (get t fld.viewBase.VIEW_BASE c) (get t fld.viewN.VIEW_N c) then s else etabChange c t

/-- VIEW_WRITE (R174). -/
def execViewWrite (fn c : Nat) (isN : Bool) (v : W32) (s : State) : Out :=
  if 128 ≤ c then .next s
  else .next (hostWrite fn (if isN then .viewN else .viewBase) c 0 v (viewEffect (isPf fn) c isN v) s)

/-! ## Telemetry (R80, R194) -/

/-- The worst string state: FAULT, UNPROVEN, OK; UNPROVEN while no string has been reported (R194, R388). -/
def worstString (x : EpSt) : Nat := if x.strs.isEmpty then 1 else x.strs.foldl (fun a y => Nat.max a y.2) 0

/-- The value of the TELEM input (R80). -/
def telemValue (x : EpSt) : W32 :=
  BitVec.ofNat 32 (x.m + 2 ^ 16 * x.temp + 2 ^ 24 * worstString x + 2 ^ 26 * (if x.miss then 1 else 0))

/-- An endpoint's status replaced, with the TELEM change where its value differs. -/
def setEpTelem (e : Nat) (x : EpSt) (s : State) : State :=
  let old := telemValue (epOf s e)
  let s := setEp e x s
  if telemValue x = old then s else enterChange ⟨5, 0, e⟩ (telemValue x) 0 .arrival s

/-- String states of strings `lo` to `lo + 15` as one word (Table 7-18); a string not reported is UNPROVEN (R194). -/
def strWord (x : EpSt) (lo : Nat) : Nat :=
  (List.range 16).foldl (fun a i => a + Map.get (fun _ => 1) x.strs (lo + i) * 4 ^ i) 0

/-- The status record of an endpoint (Table 7-18). -/
def statusRecord (x : EpSt) : List Byte :=
  let b := fun (v : Bool) => if v then 1 else 0
  leBytes 4 (worstString x + 4 * b x.miss + 8 * b x.lost + 16 * b x.cut + 256 * x.temp + 65536 * x.m)
    ++ leBytes 4 (strWord x 0) ++ leBytes 4 (strWord x 16) ++ leBytes 4 x.epoch.toNat ++ leBytes 4 x.misses
    ++ List.replicate 12 0

/-- The status record written to memory and the EPSTATE record journaled (R207, R314). -/
def writeStatus (e : Nat) (s : State) : State :=
  let x := epOf s e
  let s := if rd s .stblBase = 0 then s else fmemPut ((rd s .stblBase).toNat * 256 + 32 * e) (statusRecord x) s
  journal 0x07 (leBytes 4 e ++ statusRecord x ++ leBytes 4 (strWord x 0) ++ leBytes 4 (strWord x 16)) s

/-! ## Kill groups (R197 to R201) -/

/-- Whether an endpoint is a member of a group as the tables stand (R197). -/
def memberNow (s : State) (g e : Nat) : Bool :=
  g != 0 && eKillg (publishedEtab s) e == g && viewOwner s e == some (get s fld.kg.CTX g)

/-- A group is killed; a killed one stays as it is (R198). -/
def killGroup (g : Nat) (s : State) : State :=
  if on s fld.kg.KILLED g then s
  else enterChange ⟨6, 0, g⟩ 1 0 .arrival (raise 53 g (bump .kills (put fld.kg.KILLED 1 s g)))

/-- Every FAULT string of an endpoint becomes UNPROVEN. -/
def faultsToUnproven (e : Nat) (s : State) : State :=
  let x := epOf s e
  if x.strs.any (fun y => y.2 == 2) then
    setEpTelem e { x with strs := x.strs.map (fun y => (y.1, if y.2 = 2 then 1 else y.2)) } s
  else s

/-- A group is cleared (R201). -/
def clearGroup (g : Nat) (s : State) : State :=
  let s := if on s fld.kg.KILLED g then enterChange ⟨6, 0, g⟩ 0 0 .arrival (put fld.kg.KILLED 0 s g) else s
  let es := (validEntries (publishedEtab s)).filter (memberNow s g)
  forEach es faultsToUnproven s

/-- The effect of a write of KG_g: CLEAR acts before FORCE (R197, R198, R201). -/
def kgWrite (pf : Bool) (g : Nat) (v : W32) (s : State) : State :=
  let s := plainWrite pf .kg g 0 v s
  let s := if v.toNat / 2 ^ 9 % 2 = 1 then clearGroup g s else s
  if v.toNat / 2 ^ 10 % 2 = 1 then killGroup g s else s

/-- CLEAR (R201). -/
def execClear (fn g : Nat) (v : W32) (s : State) : Out :=
  if g = 0 || 4096 ≤ g then .next s else .next (hostWrite fn .kg g 0 v (kgWrite (isPf fn) g v) s)

/-- FORCE (R198). -/
def execForce (fn g : Nat) (v : W32) (s : State) : Out :=
  if g = 0 || 4096 ≤ g then .next s else .next (hostWrite fn .kg g 0 v (kgWrite (isPf fn) g v) s)

/-- FLT_CLR (R194). -/
def execFltClr (fn : Nat) (v : W32) (s : State) : Out :=
  .next (hostWrite fn .epFltClr 0 0 v (faultsToUnproven (v.toNat % 131072)) s)

/-! ## Heat (R193) -/

/-- The points of a thermal profile: those up to the first that is not above its predecessor. -/
def profPoints (s : State) (p : Nat) : List (Int × Nat) :=
  let all := (List.range 8).map (fun k => (sgn 8 (get s fld.profP.Tk p k), get s fld.profP.Mk p k))
  let rising := fun (acc : List (Int × Nat) × Bool) (x : Int × Nat) =>
    if !acc.2 then acc
    else match acc.1.getLast? with
      | some y => if y.1 < x.1 then (acc.1 ++ [x], true) else (acc.1, false)
      | none => ([x], true)
  (all.foldl rising ([], true)).1

/-- The multiplier between two points, truncated toward zero. -/
def interpPoint (t : Int) (a b : Int × Nat) : Int := a.2 + (((b.2 : Int) - a.2) * (t - a.1)).tdiv (b.1 - a.1)

/-- The target of a temperature on the points of a profile. -/
def profTarget (t : Int) : List (Int × Nat) → Int
  | [] => 0xFFFF
  | [a] => a.2
  | a :: b :: r => if t ≤ a.1 then a.2 else if t < b.1 then interpPoint t a b else profTarget t (b :: r)

/-- One step of the heat rule (R193). -/
def thermalStep (s : State) (p : Nat) (temp : Nat) (x : EpSt) : EpSt :=
  let t := sgn 8 temp
  let off := sgn 8 (get s fld.profLim.CUTOFF p)
  let cut0 := x.cut && !decide (t ≤ off - (get s fld.profLim.HYST p : Int))
  let cut := cut0 || decide (off ≤ t)
  let slew := (get s fld.profLim.SLEW p : Int)
  let target := profTarget t (profPoints s p)
  let m := if cut then 0 else if slew = 0 then target else clampInt ((x.m : Int) - slew) (x.m + slew) target
  { x with cut := cut, m := (clampInt 0 65535 m).toNat }

/-! ## STAT (R187, R191, R194, R196) -/

/-- The new state of a string for a result code, and whether it is NM (R194, Table 7-9). -/
def stringStep (s : State) (m : Map W32) (e : Nat) (epoch : W32) (x : EpSt) (i code : Nat) : Nat × Bool :=
  let old := Map.get (fun _ => 1) x.strs i
  let nm := code = 0 || (5 ≤ code && code ≤ 14)
  let proven := match Map.find? x.good i with
    | some g => let d := epochDiff epoch g; decide (0 ≤ d) && decide (d ≤ 2 * (get s fld.epCanvas.PROOF_INT (eCanvas m e) : Int))
    | none => false
  if code = 2 || code = 3 || code = 4 || old = 2 then (2, nm)
  else if code = 1 then (0, nm)
  else if eProofEn m e && proven then (0, nm) else (1, nm)

/-- One string result applied to an endpoint. -/
def applyResult (m : Map W32) (e : Nat) (epoch : W32) (i code : Nat) (s : State) : State :=
  if code = 15 then s
  else
    let x := epOf s e
    let r := stringStep s m e epoch x i code
    let old := Map.get (fun _ => 1) x.strs i
    let s := if 5 ≤ code && code ≤ 14 then bump .statErr s else s
    let s := setEp e { x with
      strs := Map.put x.strs i r.1
      good := if code = 1 then Map.put x.good i epoch else x.good
      nm := x.nm.filter (fun j => j != i) ++ (if r.2 then [i] else []) } s
    if r.1 = 2 && old != 2 then
      (let s := epEvent 0 52 e s
       let g := eKillg m e
       if memberNow s g e then killGroup g s else s)
    else if r.1 = 1 && old = 0 then epEvent 1 54 e s
    else s

/-- An endpoint of the STAT's node takes its part of the message. -/
def statEndpoint (m : Map W32) (q : StatMsg) (e : Nat) (s : State) : State :=
  let x := epOf s e
  let before := telemValue x
  let miss := q.sflags.toNat % 2 == 1
  let x := { x with
    miss := miss
    misses := if miss then Nat.min (x.misses + 1) 65535 else x.misses
    epoch := q.epoch
    repair := x.repair || q.sflags.toNat % 4 != 0 }
  let y := if q.temp = 0x80 then x
    else (let z := { x with temp := q.temp.toNat }
          if eDerateEn m e then thermalStep s (eTherm m e) q.temp.toNat z else z)
  let s := setEp e y s
  let s := if y.cut && !x.cut then epEvent 3 56 e s else s
  let mine := q.records.filter (fun r => r.output.toNat == eOutput m e)
  let s := forEach mine (fun r u =>
    forEach r.results.zipIdx (fun z v => applyResult m e q.epoch z.2 z.1.toNat v)
      (setEp e { epOf u e with nm := [] } u)) s
  let s := writeStatus e s
  let after := telemValue (epOf s e)
  if after = before then s else enterChange ⟨5, 0, e⟩ after 0 .arrival s

/-- The ENP endpoints of a node. -/
def nodeEntries (m : Map W32) (node : W32) : List Nat :=
  (validEntries m).filter (fun e => eTransport m e ≤ 1 && eNode m e == node.toNat)

/-- A STAT accepted (R187, R191, R196, R206). -/
def acceptStat (m : Map W32) (q : StatMsg) (es : List Nat) (s : State) : State :=
  let s := bump .statRx s
  let s := if q.sflags.toNat % 2 = 1 then epEvent 2 55 (es.headD 0) (bump .nodeMiss s) else s
  let s := if q.sflags.toNat / 2 % 2 = 1 then bump .seqGap s else s
  let s := forEach (nodeEntries m q.node) (fun e u =>
    setEp e { epOf u e with lost := false, since := frameNow u (eCanvas m e) } u) s
  forEach es (statEndpoint m q) s

/-- A STAT that the endpoint engine takes: dropped where it names an unknown node or output or is malformed (R196). A standby
takes its endpoint states from the journal (R315). -/
def takeStat (q : StatMsg) (s : State) : State :=
  if !on s fld.epCtrl.EN || standby s then s
  else
    let m := publishedEtab s
    let es := (nodeEntries m q.node).filter (fun e => eCanvas m e == q.canvas.toNat)
    let outs := es.map (eOutput m)
    if q.malformed || es.isEmpty || q.records.any (fun r => !outs.contains r.output.toNat) then
      epEvent 5 58 noDetail (bump .statErr s)
    else acceptStat m q es s

/-- A frame taken in at its time, counted (R363, R368). -/
def heardFrame (p : Nat) (m : RxFrame) (s : State) : State := rxCount p m.bytes.length (advance m.at_ s)

/-- A frame whose command finds it elsewhere in the order of R254: what is filtered is counted, and nothing else happens,
since the frame has a command of its own (log 123). -/
def otherFrame (p : Nat) (m : RxFrame) (s : State) : Out :=
  match rxRoute s p m with
  | .filtered =>
    let s := heardFrame p m s
    .next (if p < 16 then count (ethCnt p 6) 1 s else s)
  | .ignored => .next (heardFrame p m s)
  | _ => .next s

/-- STAT (R179, R187, R191, R196): a received ENP STAT. -/
def execStat (p : Nat) (m : RxFrame) (s : State) : Out :=
  match rxRoute s p m with
  | .stat q => .next (takeStat (statOf q) (heardFrame p m s))
  | _ => otherFrame p m s

/-! ## Discovery (R186) -/

/-- Whether the service programs run on cluster 0 (R20). -/
def svcOn (s : State) : Bool := on s fld.sched.SVC

/-- A word of an entry written by the service cluster with ETAB.WR; an active twin journals it (R173, R314). -/
def svcEtabWrite (e k : Nat) (v : W32) (s : State) : State :=
  etabWordWrite e k v (journal 0x03 (leBytes 4 (RegId.off .etabWord e k) ++ leBytes 4 v.toNat ++ leBytes 4 svcFn) s)

/-- MIN_PROOF of a shortest on-time in nanoseconds: units of 10 ns, rounded up so that no pulse is too short. -/
def minProofOf (ns : Nat) : Nat := Nat.min 65535 ((ns + 9) / 10)

/-- NODE and MIN_PROOF of a REPLY written into an entry of its node, where they differ: the words of the entry are staged and
published. A node without an ID leaves NODE. -/
def learnEntry (q : DiscReply) (e : Nat) (s : State) : State :=
  let m := publishedEtab s
  let w2 := withBits (ew m e 2) 16 16 (minProofOf q.minProof)
  let w4 := if q.node = 0 then ew m e 4 else q.node
  if w2 = ew m e 2 ∧ w4 = ew m e 4 then s
  else forEach ((List.range 15).map (fun k => k + 1) ++ [0])
    (fun k u => svcEtabWrite e k (BitVec.ofNat 32 (if k = 2 then w2 else if k = 4 then w4 else ew m e k)) u) s

/-- ASSIGN to a node that has no ID (Table 7-7): the ID that its entries name, with the HOLD and STAT settings. -/
def sendAssign (p : Nat) (q : DiscReply) (node : Nat) (s : State) : State :=
  let payload : List Byte := [2, 0, 0, 0] ++ beBytes 6 q.mac ++ [0, 0] ++ beBytes 4 node
    ++ beBytes 2 (get s fld.epHold.HOLD_MS)
    ++ [BitVec.ofNat 8 (get s fld.epHold.POLICY), BitVec.ofNat 8 (get s fld.epTiming.STAT_N)]
  let d : Dest := ⟨q.mac, 0x88B5, none, none⟩
  let bytes := enpMessage 0x06 0 0xFF 0 0 0 0 payload
  enqueue p ⟨3, 0, .enp 0x06 255 0, some d, bytes, frameLen d bytes.length, 0, false, false⟩ s

/-- Discovery at a REPLY (R186): the service cluster writes NODE and MIN_PROOF into the node's entries, found by its MAC, and a
node without an ID raises EV_NODE_DISC and is assigned the ID that they name (log 124). -/
def discover (p : Nat) (q : DiscReply) (s : State) : State :=
  if !svcOn s then s
  else
    let s := if q.node = 0 then epEvent 7 60 noDetail s else s
    let m := publishedEtab s
    let es := (validEntries m).filter (fun e => decide (eTransport m e ≤ 1) && eMac m e == q.mac)
    if standby s || !on s fld.epCtrl.EN then s
    else
      let s := forEach es (learnEntry q) s
      match es with
      | e :: _ => if q.node = 0 then sendAssign p q (eNode m e) s else s
      | [] => s

/-- NODE_LOST (R196): LOST_N × STAT_N frame instants of the endpoint's canvas after its node's last STAT. -/
def execNodeLost (e : Nat) (s : State) : Out :=
  let m := publishedEtab s
  let c := eCanvas m e
  match fclock s (canvasFc s c) with
  | none => .next s
  | some f =>
    if !eValid m e || 2 ≤ eTransport m e || (epOf s e).lost || !on s fld.epCtrl.EN || standby s then .next s
    else
      let n := get s fld.epTiming.LOST_N * get s fld.epTiming.STAT_N
      let s := advance (f.inst ((epOf s e).since + BitVec.ofNat 64 n)) s
      let s := epEvent 4 57 e (bump .nodeLost (setEp e { epOf s e with lost := true } s))
      let g := eKillg m e
      .next (if memberNow s g e && on s fld.kg.LOSTKILL g then killGroup g s else s)

end Sys2Proof.Machine
end

