-- ==== Sys2Proof/Machine/Tx.lean ====
section
/-!
DEFINITION. Transmission on the ports: gates (R244, R245), the start and end of a frame (R225 to R228, R242, R243, R248,
R308), TX descriptors (R247), pause (R250, R251), LPI (R252, R253), link and port enable (R240, R390), 10BASE-T1S
(R265, R266), RDM (R268).
-/

namespace Sys2Proof.Machine

/-- A port event: its PORT_EVENT bit and event number, with the port as DETAIL. -/
def portEvent (bit ev p : Nat) (s : State) : State := raise ev p (setBit fld.portEvent.PORT_EVENT bit s p)

/-! ## Gates (R244, R245) -/

/-- The reset entry of a gate list. -/
def gateReset : Byte × W32 := (0xFF, 0)

/-- Entry `i` of the spare bank. -/
def spareEntry (s : State) (p i : Nat) : Byte × W32 :=
  (BitVec.ofNat 8 (get s fld.gateMask.MASK p i), rd s .gateDur p i)

/-- The spare list of a port. -/
def spareList (s : State) (p : Nat) : List (Byte × W32) :=
  (List.range (get s fld.gateCtrl.LEN p)).map (spareEntry s p)

/-- The active list of a port. -/
def Port.active (v : Port) : List (Byte × W32) := (List.range v.gateLen).map (Map.get (fun _ => gateReset) v.gate)

/-- The banks exchanged (R245). -/
def swapBanks (p : Nat) (s : State) : State :=
  let v := portOf s p
  let spare := ((List.range 256).map (fun i => (i, spareEntry s p i))).filter (fun x => x.2 != gateReset)
  let n := get s fld.gateCtrl.LEN p
  let s := forEach (List.range 256) (fun i u =>
    let e := Map.get (fun _ => gateReset) v.gate i
    wr .gateDur e.2 (put fld.gateMask.MASK e.1.toNat u p i) p i) s
  let s := put fld.gateCtrl.BANK (1 - get s fld.gateCtrl.BANK p) (put fld.gateCtrl.LEN v.gateLen s p) p
  setPort p { portOf s p with gate := spare, gateLen := n } (put fld.gateCtrl.SWAP 0 s p)

/-- The first cycle start after an instant: a frame instant of a clock plus an offset; none while the clock is stopped. -/
def nextCycle (s : State) (fc : Nat) (ofs : W32) (t : W64) : Option W64 :=
  let o := BitVec.ofInt 64 ofs.toInt
  (fclock s fc).map (fun f => f.inst (f.next (t - o)) + o)

/-- Whether a mask opens a class. -/
def opens (m : Byte) (cls : Nat) : Bool := m.toNat / 2 ^ cls % 2 == 1

/-- Whether a class is open from `lo` to `hi` as far as one cycle's list rules: entries in order from `start`, the last
one held to `stop`. -/
def listOpen (cls : Nat) (stop lo hi : Int) : Int → List (Byte × W32) → Bool
  | _, [] => true
  | a, [e] => opens e.1 cls || decide (min stop hi ≤ max a lo)
  | a, e :: r =>
    let b := min (a + e.2.toNat) stop
    (opens e.1 cls || decide (min b hi ≤ max a lo)) && listOpen cls stop lo hi b r

/-- Whether a class's gate stays open for `n` nanoseconds from now, reading on across cycle starts: `fuel` of them. -/
def gateReads (s : State) (cls n fc : Nat) (ofs : W32) (later : List (Byte × W32)) :
    Nat → W64 → List (Byte × W32) → Bool
  | 0, _, _ => true
  | fuel + 1, start, now =>
    let a := timeDiff start s.ot
    match nextCycle s fc ofs start with
    | none => listOpen cls (max a 0 + n) 0 n a now
    | some x =>
      let b := timeDiff x s.ot
      listOpen cls b 0 n a now && (decide ((n : Int) ≤ b) || gateReads s cls n fc ofs later fuel x later)

/-- Whether a port's gate admits a class for `n` nanoseconds from now (R244). -/
def gateAdmits (s : State) (p cls n : Nat) : Bool :=
  let v := portOf s p
  match v.gateOn with
  | none => true
  | some (fc, ofs) =>
    gateReads s cls n fc ofs (if on s fld.gateCtrl.SWAP p then spareList s p else v.active) 3 v.cycle v.active

/-- The lengths of a list's entries within a cycle, the last one to the cycle's end. -/
def entryLens (period : Nat) : Nat → List (Byte × W32) → List (Byte × Nat)
  | _, [] => []
  | a, [e] => [(e.1, period - a)]
  | a, e :: r =>
    let n := Nat.min e.2.toNat (period - a)
    (e.1, n) :: entryLens period (a + n) r

/-- The longest run of open entries. -/
def longestRun (cls : Nat) (es : List (Byte × Nat)) : Nat :=
  (es.foldl (fun (x : Nat × Nat) e => if opens e.1 cls then (Nat.max x.1 (x.2 + e.2), x.2 + e.2) else (x.1, 0)) (0, 0)).1

/-- The longest open interval of a class in the active list, which repeats every cycle; none if it has no end (R245). -/
def longestOpen (s : State) (p cls fc : Nat) : Option Nat :=
  let v := portOf s p
  let run := (fclock s fc).isSome
  let es := (entryLens (if run then fcPeriod s fc else 2 ^ 63) 0 v.active).filter (fun e => 0 < e.2)
  if es.all (fun e => opens e.1 cls) || (!run && (es.getLast?.map (fun e => opens e.1 cls)).getD false) then none
  else some (longestRun cls (if run then es ++ es else es))

/-- Whether a frame can never pass its gate (R245). -/
def gateTooShort (s : State) (p cls n : Nat) : Bool :=
  match (portOf s p).gateOn with
  | none => false
  | some (fc, _) =>
    match longestOpen s p cls fc with
    | none => false
    | some m => decide (m < n)

/-- The later of two instants. -/
def laterOf (a b : W64) : W64 := if timeDiff a b > 0 then a else b

/-- The earlier of two instants, either of which may be missing. -/
def earlierOf : Option W64 → Option W64 → Option W64
  | some a, some b => some (if timeDiff a b > 0 then b else a)
  | some a, none => some a
  | none, b => b

/-- GATE_CYCLE_START (R244, R245): of the setting in force, or the first of the setting that the registers hold. -/
def execGateCycleStart (p : Nat) (s : State) : Out :=
  if 16 ≤ p || !portPresent s.member p then .next s
  else
    let v := portOf s p
    let base := laterOf v.cycle (s.ot - 1)
    let fc := get s fld.gateCtrl.GATE_FC p
    let ofs := rd s .gateOfs p
    let fresh := nextCycle s fc ofs base
    let old := match v.gateOn with | some x => nextCycle s x.1 x.2 base | none => none
    match earlierOf fresh old with
    | none => .next s
    | some t =>
      let s := advance t s
      let setting := if fresh = some t then (if on s fld.gateCtrl.GATE_EN p then some (fc, ofs) else none) else v.gateOn
      let s := setPort p { portOf s p with gateOn := setting, cycle := t } s
      .next (if on s fld.gateCtrl.SWAP p then swapBanks p s else s)

/-- The effect of a write of GATE_CTRL: a LEN of 0 or above 256 leaves LEN (R244). -/
def gateCtrlWrite (pf : Bool) (p : Nat) (v : W32) (s : State) : State :=
  let n := v.toNat / 256 % 512
  let v := if n = 0 || 256 < n then BitVec.ofNat 32 (withBits v.toNat 8 9 (get s fld.gateCtrl.LEN p)) else v
  plainWrite pf .gateCtrl p 0 v s

/-- SWAP (R245). -/
def execSwap (fn p : Nat) (v : W32) (s : State) : Out :=
  if 16 ≤ p then .next s else .next (hostWrite fn .gateCtrl p 0 v (gateCtrlWrite (isPf fn) p v) s)

/-! ## One-step Sync (R225) -/

/-- Bytes of a frame replaced. -/
def patch (b : List Byte) (o : Nat) (x : List Byte) : List Byte := b.take o ++ x ++ b.drop (o + x.length)

/-- The offset of a frame's PTP message, and that of its UDP header with whether it goes over IPv6. -/
def ptpOf (b : List Byte) : Option (Nat × Option (Nat × Bool)) :=
  let x := etherOf b
  if x.2 = 0x88F7 then some (x.1, none)
  else match udpOf b with
    | some (o, v6, _, q) => if q = 319 then some (o + 8, some (o, v6)) else none
    | none => none

/-- The 16-bit words of a byte string, the first byte high or low, summed. -/
def sum16 (high : Bool) : List Byte → Nat
  | [] => 0
  | b :: r => (if high then 256 * b.toNat else b.toNat) + sum16 (!high) r

/-- A Sync with the egress time in its originTimestamp; over UDP the checksum is zero (IPv4), or the last two bytes of
the payload make it right again (IPv6). -/
def stampSync (t : W64) (b : List Byte) : List Byte :=
  match ptpOf b with
  | none => b
  | some (o, udp) =>
    if frameBe b o 1 % 16 != 0 then b
    else
      let stamp := beBytes 6 (t.toNat / 1000000000) ++ beBytes 4 (t.toNat % 1000000000)
      let c := patch b (o + 34) stamp
      match udp with
      | none => c
      | some (u, false) => patch c (u + 6) [0, 0]
      | some (u, true) =>
        let e := u + frameBe b (u + 4) 2 - 2
        let even := (e - u) % 2 == 0
        let tail := (c.drop e).take 2
        let owed := sum16 even tail + sum16 true ((b.drop (o + 34)).take 10) + 65535 * 65536 - sum16 true stamp
        let fix := owed % 65535
        patch c e (if even then beBytes 2 fix else leBytes 2 fix)

/-! ## The start of a frame -/

/-- The transmit time stamped on a frame that started at an instant, given with its fraction in 2^−16 ns: the end of its
start delimiter at the pins (R224). -/
def txStamp (s : State) (p : Nat) (start : W64) (frac : W16) : W64 × W16 :=
  let x := 64 * bitTime s p * 65536 / 100 + effCal s fld.txLat.TX_LAT p * 256 + frac.toNat
  (start + BitVec.ofNat 64 (x / 65536), BitVec.ofNat 16 x)

/-- The fraction of outward time at the present in 2^−16 ns. -/
def fracNow (s : State) : W16 := BitVec.ofNat 16 (s.otFrac.toNat / 2 ^ 32)

/-- Whether a 10BASE-T1S port runs PLCA now: enabled, with its beacon active (R266). -/
def plcaRuns (s : State) (t : Nat) : Bool := on s fld.t1sCtrl.PLCA_EN t && on s fld.t1sStatus.PLCA t

/-- Whether the port may go on in the transmit opportunity of its last frame: at most MAX_BC further frames, each within
BURST_TMR bit times of the one before (R266). -/
def inBurst (s : State) (p : Nat) : Bool :=
  let v := portOf s p
  decide (0 < v.burst) && decide (v.burst ≤ get s fld.plcaTmr.MAX_BC (p - 16))
    && decide (timeDiff s.ot v.burstAt ≤ (get s fld.plcaTmr.BURST_TMR (p - 16) * bitTime s p / 100 : Nat))

/-- Whether the next transmit opportunity of the port can have come: every other node has had its own, TO_TMR bit times at
the shortest (R266). -/
def nextTurn (s : State) (p : Nat) : Bool :=
  let v := portOf s p
  let n := (get s fld.t1sCtrl.NODE_CNT (p - 16) - 1) * get s fld.plcaTmr.TO_TMR (p - 16)
  decide (v.burst = 0) || decide (((n * bitTime s p / 100 : Nat) : Int) ≤ timeDiff s.ot v.burstAt)

/-- Whether PLCA lets a port send now. DESIGN CHOICE (log 125): when the other nodes end their opportunities is theirs, so
FRAME_START says when the port's own has come, but not before it can. -/
def plcaAdmits (s : State) (p : Nat) : Bool := p < 16 || !plcaRuns s (p - 16) || inBurst s p || nextTurn s p

/-- Whether the buffers or the physical layer of a port are under test (Table 13-3, R359). -/
def portTested (s : State) (p : Nat) : Bool := blockTested s (if p < 16 then 25 else 26) || blockTested s (32 + p)

/-- Whether a port may put a frame on the wire at all now. -/
def portReady (s : State) (p : Nat) : Bool :=
  let v := portOf s p
  portSends s p && portClock s && !portTested s p && v.wire.isNone && v.backoff.isNone && plcaAdmits s p
    && !(p < 16 && on s fld.portStatus.LPI_TX p)
    && (match v.wakeAt with | some t => decide (timeDiff s.ot t ≥ 0) | none => true)

/-- The head frame of a class; on a 10BASE-T1S port between attempts, only the frame that is being attempted. -/
def headOf (v : Port) (cls : Nat) : Option QFrame :=
  if 0 < v.coll then (v.queue.head?).filter (fun f => f.cls == cls) else v.queue.find? (fun f => f.cls == cls)

/-- The frame taken out of its queue. -/
def unqueue (p : Nat) (f : QFrame) (s : State) : State :=
  let v := portOf s p
  let q := v.queue.erase f
  let idle := if q.isEmpty then s.ot else v.idleAt
  setPort p { v with queue := q, idleAt := idle, coll := 0, judged := false } s

/-- How far a launch time has passed (R228): whether the frame is late. -/
def lateBy (s : State) (f : QFrame) : Bool :=
  f.launch != 0 && decide ((get s fld.late.LATE_NS f.cls : Int) < timeDiff s.ot f.launch)

/-- A late frame counted and raised, by ACT (R228). -/
def noteLaunchLate (p cls : Nat) (s : State) : State :=
  raise 72 p (bump (if on s fld.late.ACT cls then .launchSend else .launchDrop) s)

/-- Wire bytes counted in the port's window (R368). -/
def countTxBytes (p : Nat) (f : QFrame) (s : State) : State :=
  if on s fld.bwCtrl.BW_EN p then
    (let v := portOf s p
     setPort p { v with bwTx := Map.put v.bwTx f.cls (Map.get (fun _ => 0) v.bwTx f.cls + wireBytes f) } s)
  else s

/-- A frame as it leaves: marked where it is late, a Sync of a one-step master stamped. -/
def leaving (s : State) (p : Nat) (late : Bool) (f : QFrame) : QFrame :=
  let one := on s fld.pcfg.MASTER p && on s fld.pcfg.ONE_STEP p && f.dest.isNone
  { f with late := f.late || late, bytes := if one then stampSync (txStamp s p s.ot (fracNow s)).1 f.bytes else f.bytes }

/-- A queued frame goes on the wire. -/
def putOnWire (p : Nat) (late : Bool) (f : QFrame) (s : State) : State :=
  let g := leaving s p late f
  let n := (portOf s p).coll
  let burst := if inBurst s p then (portOf s p).burst + 1 else 1
  let s := countTxBytes p f (unqueue p f s)
  setPort p { portOf s p with
    wire := some g, wireAt := s.ot, wireFrac := fracNow s, octets := wireOctets s p g, wakeAt := none, coll := n
    burst := burst } s

/-- What becomes of a head frame whose class may be served now. -/
inductive Serve where
  | wait
  | drop (s : State)
  | start (s : State)

/-- The head frame of a class judged: the gate it can never pass (R245), its launch time (R227), pause (R250), its
gate (R244), the lease (R308), lateness (R228). -/
def serveHead (p : Nat) (f : QFrame) (s : State) : Serve :=
  let v := portOf s p
  let n := wireTime s p f
  if gateTooShort s p f.cls n then
    .drop (portEvent 4 84 p (count (ethCnt p 12) 1 (frameEnds f txOversize (unqueue p f s))))
  else if f.launch != 0 && decide (timeDiff s.ot f.launch < 0) then .wait
  else if (Map.find? v.paused f.cls).isSome || !gateAdmits s p f.cls n then .wait
  else if !classOpen s f.cls then .drop (frameEnds f txLease (unqueue p f s))
  else if v.judged || !lateBy s f then .start (putOnWire p false f s)
  else if on s fld.late.ACT f.cls then .start (putOnWire p true f (noteLaunchLate p f.cls s))
  else .drop (frameEnds f txLate (unqueue p f (noteLaunchLate p f.cls s)))

/-- The first class, from `cls − 1` down, whose head does not wait. -/
def serveFrom (p : Nat) (s : State) : Nat → Serve
  | 0 => .wait
  | cls + 1 =>
    match headOf (portOf s p) cls with
    | none => serveFrom p s cls
    | some f =>
      match serveHead p f s with
      | .wait => serveFrom p s cls
      | r => r

/-- Head frames dropped until one starts or all wait. -/
def servePort (p : Nat) : Nat → State → State
  | 0, s => s
  | n + 1, s =>
    match serveFrom p s 8 with
    | .wait => s
    | .start t => t
    | .drop t => servePort p n t

/-- FRAME_START (R243). -/
def execFrameStart (p : Nat) (s : State) : Out :=
  if 32 ≤ p || !portReady s p then .next s else .next (servePort p ((portOf s p).queue.length + 1) s)

/-! ## The end of a frame -/

/-- TX_FRAMES, and the counter of the frame's kind (Table 13-7). -/
def countSent (p : Nat) (f : QFrame) (s : State) : State :=
  let s := count (if p < 16 then ethCnt p 0 else t1sCnt (p - 16) 0) 1 s
  match f.src with
  | .enp 1 _ _ => bump .pixTx s
  | .enp 2 _ _ => bump .latchTx s
  | .sacn _ _ => if f.cls = 4 then bump .sacnTx s else s
  | _ => s

/-- Every queued frame of a port dropped (R390). -/
def dropQueue (p : Nat) (s : State) : State :=
  forEach (portOf s p).queue (fun f u => frameEnds f txDropped u)
    (setPort p { portOf s p with queue := [], coll := 0, backoff := none, judged := false, idleAt := s.ot, dropDue := false } s)

/-- The queue dropped where the port was disabled while its frame was on the wire (R390). -/
def settleDrop (p : Nat) (s : State) : State := if (portOf s p).dropDue then dropQueue p s else s

/-- TX_FRAME_END (R226, R248, R390). -/
def execTxFrameEnd (p : Nat) (s : State) : Out :=
  let v := portOf s p
  match v.wire with
  | none => .next s
  | some f =>
    if 32 ≤ p then .next s
    else
      let s := advance (v.wireAt + BitVec.ofNat 64 (wireTime s p f)) s
      let idle := if v.queue.isEmpty then s.ot else v.idleAt
      let s := countSent p f (setPort p { v with
        wire := none, last := some f, idleAt := idle, coll := 0, judged := false, octets := [], burstAt := s.ot } s)
      let st := txStamp s p v.wireAt v.wireFrac
      let r := if f.tsreq then tsqPush p ⟨f.tag, st.1, st.2, f.cls⟩ s else (s, false)
      .next (settleDrop p (frameEnds f (txSent + (if f.late then txLate else 0) + (if r.2 then txTsLost else 0)) r.1))

/-! ## TX descriptors (R247) -/

/-- A frame with an 802.1Q tag after its source MAC. -/
def insertTag (tci : Nat) (b : List Byte) : List Byte := b.take 12 ++ [0x81, 0x00] ++ beBytes 2 tci ++ b.drop 12

/-- The frame of a TX ring's descriptors. -/
def ringFrame (r first : Nat) (d : TxDesc) (data : List Byte) : QFrame :=
  let b := if d.vins then insertTag (d.pcp.toNat * 4096 * 2 + d.vid.toNat) data else data
  ⟨d.tc.toNat, d.launch, .ring r first, none, b, b.length, d.tag, d.tsreq, false⟩

/-- A word of a ring that failed its parity (R286). -/
def poisonRing (r : Nat) (s : State) : State :=
  raise0 10 (setBit fld.ringStatus.RING_STATUS 2 (setBit fld.hostStatus.HOST_STATUS 1 (bump .poison s)) r)

/-- TX_DESCRIPTOR_FRAME (R242, R247, R286, R390). -/
def execTxDescriptorFrame (r : Nat) (ds : List TxDesc) (data : List Byte) (poisoned : Bool) (s : State) : Out :=
  match ds with
  | [] => .next s
  | d :: _ =>
    if 64 ≤ r || !ringRuns s r 4 || on s fld.ringCtrl.FLUSH r || blockTested s 24 || ringOcc s r < ds.length then .next s
    else
      let f := ringFrame r (get s fld.ringHead.HEAD r) d data
      let s := advanceHead r ds.length s
      if poisoned then .next (frameEnds f txDropped (poisonRing r s))
      else if 16 < ds.length || 9600 < f.len then .next (frameEnds f txOversize s)
      else .next (enqueue d.port.toNat f s)

/-! ## Port enable and link (R240, R390) -/

/-- LINK as EN and block lock make it; a change is raised (R240). -/
def settleLink (p : Nat) (s : State) : State :=
  let up := on s fld.macCtrl.EN p && (portOf s p).pcsUp
  if up == on s fld.portStatus.LINK p then s
  else portEvent 0 80 p (put fld.portStatus.LINK (if up then 1 else 0) s p)

/-- LINK_CHANGE (R240): block lock with no fault comes or goes; LPI_RX shows whether the link partner sends LPI (Table 9-6,
log 126). -/
def execLinkChange (p : Nat) (pcsUp lpiRx : Bool) (s : State) : Out :=
  if 16 ≤ p || !portPresent s.member p then .next s
  else
    let s := settleLink p (setPort p { portOf s p with pcsUp := pcsUp } s)
    .next (put fld.portStatus.LPI_RX (if lpiRx && on s fld.portStatus.LINK p then 1 else 0) s p)

/-- A port's queue at a write that leaves EN at 0 or turns it from 0 to 1 (R390): the frames queued when EN was cleared are
dropped once no frame is on the wire. -/
def enableEdge (p : Nat) (was now : Bool) (s : State) : State :=
  if was && !now then
    (if (portOf s p).wire.isSome then setPort p { portOf s p with dropDue := true } s else dropQueue p s)
  else if !was && now then settleDrop p s
  else s

/-- Tw of a port in nanoseconds (R252). -/
def wakeTime (s : State) (p : Nat) : Nat :=
  Nat.max (get s fld.eeeCfg.TW_SYS_TX p) (get s fld.lpiCfg.TW_MIN p) * 1000

/-- The port leaves LPI now, and its frames wait Tw. -/
def leaveLpi (p : Nat) (s : State) : State :=
  if on s fld.portStatus.LPI_TX p then
    put fld.portStatus.LPI_TX 0 (setPort p { portOf s p with wakeAt := some (s.ot + BitVec.ofNat 64 (wakeTime s p)) } s) p
  else s

/-- The effect of a write of MAC_CTRL (R240, R252, R390). -/
def macCtrlWrite (pf : Bool) (p : Nat) (v : W32) (s : State) : State :=
  let was := on s fld.macCtrl.EN p
  let s := plainWrite pf .macCtrl p 0 v s
  let s := if on s fld.macCtrl.EN p && on s fld.macCtrl.LPI_EN p then s else leaveLpi p s
  let s := enableEdge p was (on s fld.macCtrl.EN p) s
  let s := settleLink p s
  if on s fld.portStatus.LINK p then s else put fld.portStatus.LPI_RX 0 s p

/-- The PLCA status shown, with EV_PLCA at a change (R266). -/
def showPlca (t : Nat) (active : Bool) (s : State) : State :=
  if on s fld.t1sStatus.PLCA t == active then s
  else
    let s := setPort (16 + t) { portOf s (16 + t) with burst := 0 } s
    raise 91 (16 + t) (put fld.t1sStatus.PLCA (if active then 1 else 0) s t)

/-- The PLCA status that a port's control word gives: none while PLCA or the port is off; the coordinator, NODE_ID 0, sends
the beacon itself (R266). -/
def settlePlca (t : Nat) (s : State) : State :=
  if !on s fld.t1sCtrl.EN t || !on s fld.t1sCtrl.PLCA_EN t then showPlca t false s
  else if get s fld.t1sCtrl.NODE_ID t = 0 && portPresent s.member (16 + t) then showPlca t true s
  else s

/-- The effect of a write of a 10BASE-T1S port's control word. -/
def t1sCtrlWrite (pf : Bool) (t : Nat) (v : W32) (s : State) : State :=
  let was := on s fld.t1sCtrl.EN t
  let s := plainWrite pf .t1sCtrl t 0 v s
  settlePlca t (enableEdge (16 + t) was (on s fld.t1sCtrl.EN t) s)

/-- PORT_DISABLE (R390): a write of the port's control word. -/
def execPortDisable (fn p : Nat) (v : W32) (s : State) : Out :=
  if 32 ≤ p then .next s
  else if p < 16 then .next (hostWrite fn .macCtrl p 0 v (macCtrlWrite (isPf fn) p v) s)
  else .next (hostWrite fn .t1sCtrl (p - 16) 0 v (t1sCtrlWrite (isPf fn) (p - 16) v) s)

/-! ## Pause (R250, R251) -/

/-- The PAUSED bits shown. -/
def showPaused (p : Nat) (s : State) : State :=
  put fld.portStatus.PAUSED (((portOf s p).paused.map (fun x => 2 ^ x.1)).sum) s p

/-- A class paused for `q` quanta of 512 bit times, or resumed with zero; a class in its watchdog interval ignores it. -/
def pauseClass (p cls q : Nat) (s : State) : State :=
  let v := portOf s p
  if (Map.find? v.wdEnd cls).isSome then s
  else if q = 0 then setPort p { v with paused := Map.del v.paused cls, pausedAt := Map.del v.pausedAt cls } s
  else
    let fin := s.ot + BitVec.ofNat 64 ((q * 512 * bitTime s p + 99) / 100)
    let since := Map.get (fun _ => s.ot) v.pausedAt cls
    setPort p { v with paused := Map.put v.paused cls fin, pausedAt := Map.put v.pausedAt cls since } s

/-- A pause acts on an Ethernet port: only the kind that PAUSE_MODE names. -/
def takePause (p : Nat) (q : PauseMsg) (s : State) : State :=
  match q with
  | .pause n =>
    if get s fld.macCtrl.PAUSE_MODE p = 1 then forEach (List.range 8) (fun c u => pauseClass p c n.toNat u) s else s
  | .pfc en ns =>
    if get s fld.macCtrl.PAUSE_MODE p = 2 then
      forEach ((List.range 8).filter (fun c => opens en c)) (fun c u => pauseClass p c (ns.getD c 0).toNat u) s
    else s

/-- PAUSE_FRAME (R250): consumed; a 10BASE-T1S port has no pause. -/
def execPauseFrame (p : Nat) (m : RxFrame) (s : State) : Out :=
  match rxRoute s p m with
  | .pause q =>
    let s := heardFrame p m s
    .next (if p < 16 then showPaused p (takePause p q (count (ethCnt p 10) 1 s)) else s)
  | _ => otherFrame p m s

/-- PAUSE_EXPIRE (R250). -/
def execPauseExpire (p cls : Nat) (s : State) : Out :=
  match Map.find? (portOf s p).paused cls with
  | none => .next s
  | some t =>
    let s := advance t s
    let v := portOf s p
    .next (showPaused p (setPort p { v with paused := Map.del v.paused cls, pausedAt := Map.del v.pausedAt cls } s))

/-- The WD bits shown. -/
def showWd (p : Nat) (s : State) : State := put fld.portStatus.WD (((portOf s p).wdEnd.map (fun x => 2 ^ x.1)).sum) s p

/-- PAUSE_WD_TRIP (R251). -/
def execPauseWdTrip (p cls : Nat) (s : State) : Out :=
  let v := portOf s p
  match Map.find? v.paused cls with
  | none => .next s
  | some fin =>
    let t := Map.get (fun _ => s.ot) v.pausedAt cls + BitVec.ofNat 64 (get s fld.pauseCfg.PAUSE_WD p * 1000)
    if timeDiff fin t ≤ 0 then .next s
    else
      let s := advance t s
      let rec_ := s.ot + BitVec.ofNat 64 (get s fld.pauseCfg.PAUSE_REC p * 1000000)
      let s := setPort p { v with
        paused := Map.del v.paused cls, pausedAt := Map.del v.pausedAt cls, wdEnd := Map.put v.wdEnd cls rec_ } s
      .next (portEvent 1 81 p (count (ethCnt p 11) 1 (showWd p (showPaused p s))))

/-- PAUSE_REC_END (R251). -/
def execPauseRecEnd (p cls : Nat) (s : State) : Out :=
  match Map.find? (portOf s p).wdEnd cls with
  | none => .next s
  | some t =>
    let s := advance t s
    let v := portOf s p
    .next (showWd p (setPort p { v with wdEnd := Map.del v.wdEnd cls } s))

/-! ## LPI (R252, R253) -/

/-- LPI_ENTER (R252): with nothing queued no launch time is near. -/
def execLpiEnter (p : Nat) (s : State) : Out :=
  let v := portOf s p
  if 16 ≤ p || !portSends s p || !on s fld.macCtrl.LPI_EN p || !on s fld.eeeCfg.EEE_OK p
    || on s fld.portStatus.LPI_TX p || !v.queue.isEmpty || v.wire.isSome then .next s
  else
    let s := advance (v.idleAt + BitVec.ofNat 64 (get s fld.lpiCfg.LPI_IDLE p * 1000)) s
    .next (put fld.portStatus.LPI_TX 1 (count (ethCnt p 14) 1 s) p)

/-- The earliest of queued launch times; none where a frame has no launch time. -/
def firstLaunch : List QFrame → Option W64
  | [] => none
  | [f] => if f.launch = 0 then none else some f.launch
  | f :: r =>
    match firstLaunch r with
    | none => none
    | some t => if f.launch = 0 then none else some (if timeDiff t f.launch > 0 then f.launch else t)

/-- LPI_WAKE (R252). -/
def execLpiWake (p : Nat) (s : State) : Out :=
  let v := portOf s p
  if 16 ≤ p || !on s fld.portStatus.LPI_TX p || v.queue.isEmpty then .next s
  else
    let s := match firstLaunch v.queue with
      | some t => advance (t - BitVec.ofNat 64 (wakeTime s p)) s
      | none => s
    .next (leaveLpi p s)

/-- The effect of a write of EEE_CFG: clearing EEE_OK ends LPI at once (R253). -/
def eeeCfgWrite (pf : Bool) (p : Nat) (v : W32) (s : State) : State :=
  let s := plainWrite pf .eeeCfg p 0 v s
  if on s fld.eeeCfg.EEE_OK p then s else leaveLpi p s

/-- EEE_OK_WRITE (R253). -/
def execEeeOkWrite (fn p : Nat) (v : W32) (s : State) : Out :=
  if 16 ≤ p then .next s else .next (hostWrite fn .eeeCfg p 0 v (eeeCfgWrite (isPf fn) p v) s)

/-! ## 10BASE-T1S (R265, R266) -/

/-- T1S_COLLISION (R265): the attempt limit discards the frame; otherwise it waits at the head for its back-off. -/
def execT1sCollision (p : Nat) (lateColl : Bool) (s : State) : Out :=
  let v := portOf s p
  match v.wire with
  | none => .next s
  | some f =>
    if p < 16 || 32 ≤ p || plcaRuns s (p - 16) then .next s
    else
      let n := v.coll + 1
      let s := bump .t1sColl s
      let s := if lateColl then bump .t1sLateColl s else s
      if 16 ≤ n then
        let s := setPort p { v with wire := none, octets := [], coll := 0, backoff := none, judged := false } s
        let s := put fld.t1sStatus.EXCESS 1 (bump .t1sExcess s) (p - 16)
        .next (settleDrop p (raise 90 p (frameEnds f (txExcess + (if f.late then txLate else 0)) s)))
      else
        let r := Config.backoffDraw s.free % 2 ^ Nat.min n 10
        let t := s.ot + BitVec.ofNat 64 (r * 512 * bitTime s p / 100)
        .next (settleDrop p (draw (setPort p { v with
          wire := none, octets := [], queue := f :: v.queue, coll := n, backoff := some t, judged := true } s)))

/-- BACKOFF_EXPIRE (R265). -/
def execBackoffExpire (p : Nat) (s : State) : Out :=
  let v := portOf s p
  match v.backoff with
  | none => .next s
  | some t => .next (setPort p { v with backoff := none } (advance t s))

/-- PLCA_BEACON_CHANGE (R266): what a node that is not the coordinator hears of the beacon. -/
def execPlcaBeaconChange (p : Nat) (active : Bool) (s : State) : Out :=
  if p < 16 || !portHears s p || !on s fld.t1sCtrl.PLCA_EN (p - 16) || get s fld.t1sCtrl.NODE_ID (p - 16) = 0 then .next s
  else .next (showPlca (p - 16) active s)

/-! ## RDM (R268) -/

/-- The effect of a write of RDM_CTRL: GO starts an exchange, after the packet in progress, unless one runs. -/
def rdmCtrlWrite (pf : Bool) (p : Nat) (v : W32) (s : State) : State :=
  let busy := on s fld.rdmStatus.BUSY p
  let s := plainWrite pf .rdmCtrl p 0 v s
  if v.toNat % 2 = 1 && !busy then
    let s := put fld.rdmStatus.BUSY 1 s p
    if (dmxOf s p).busy.isSome then setDmx p { dmxOf s p with rdm := 1 } s else rdmSend p s
  else s

/-- GO (R268). -/
def execGo (fn p : Nat) (v : W32) (s : State) : Out :=
  if 8 ≤ p then .next s else .next (hostWrite fn .rdmCtrl p 0 v (rdmCtrlWrite (isPf fn) p v) s)

/-- A byte of RDM_RX. -/
def rdmByte (p i : Nat) (b : Byte) (s : State) : State :=
  wr .rdmRx (BitVec.ofNat 32 (withBits (rd s .rdmRx p (i / 4)).toNat (8 * (i % 4)) 8 b.toNat)) s p (i / 4)

/-- RDM_LISTEN_END (R268): the response captured, a timeout 2.8 ms after the line was released, or a framing error. A
response is one with a break, or with DISC = 1 one without; the other kind is none (log 127). -/
def execRdmListenEnd (p : Nat) (brk : Bool) (resp : List Byte) (err : Bool) (s : State) : Out :=
  let d := dmxOf s p
  if 8 ≤ p || d.rdm != 2 then .next s
  else
    let resp := if brk == on s fld.rdmCtrl.DISC p then [] else resp
    let silent := resp.isEmpty && !err
    let s := advance (d.freeAt + (if silent then 2800000 else 0)) s
    let s := forEach (resp.take 260).zipIdx (fun x u => rdmByte p x.2 x.1 u) s
    let s := put fld.rdmStatus.ERR (if err then 1 else 0) (put fld.rdmStatus.TIMEOUT (if silent then 1 else 0)
      (put fld.rdmStatus.RX_LEN resp.length s p) p) p
    let s := put fld.rdmStatus.DONE 1 (put fld.rdmStatus.BUSY 0 (put fld.rdmCtrl.GO 0 s p) p) p
    let s := if err then bump .rdmErr s else if silent then bump .rdmTimeout s else s
    .next (raise 92 p (setDmx p { d with rdm := 0 } s))

end Sys2Proof.Machine
end

