-- ==== Sys2Proof/Machine/Rx.lean ====
section
/-!
DEFINITION. Reception (R254 to R257), flow entries and RTP targets (R258 to R262), sACN input (R263).
-/

namespace Sys2Proof.Machine

/-! ## Frames -/

/-- The receive time of a frame at the port's pins, with its fraction in 2^−16 ns: corrected by RX_LAT (R224). -/
def rxStamp (s : State) (p : Nat) (m : RxFrame) : W64 × W16 :=
  let x := m.at_.toNat * 65536 + m.frac.toNat + 2 ^ 80 - effCal s fld.rxLat.RX_LAT p * 256
  (BitVec.ofNat 64 (x / 65536), BitVec.ofNat 16 x)

/-- A frame's VLAN tag, or 0. -/
def tciOf (m : RxFrame) : Nat := (frameTci m.bytes).getD 0

/-- One RX buffer that a frame fills: its part of the frame and whether it is the first and the last. -/
def rxBuffer (p r : Nat) (b : RxPost) (part : List Byte) (first last cut : Bool) (err w3 : Nat) (m : RxFrame)
    (s : State) : State :=
  let st := rxStamp s p m
  let w2 := part.length + (if first then 2 ^ 16 else 0) + (if last then 2 ^ 17 else 0) + (if cut then 2 ^ 18 else 0)
    + 2 ^ 19 * err
  rxWriteBack r w2 w3 st.1 st.2.toNat (if last then m.bytes.length % 2 ^ 14 else 0)
    (hmemPut (get s fld.ringCtrl.FN r) b.addr.toNat part s)

/-- A frame over a ring's buffers in order (R256); the answer is whether the buffers ran out (R257). -/
def rxFill (p r err w3 : Nat) (m : RxFrame) : List RxPost → List Byte → Bool → State → State × Bool
  | [], _, _, s => (s, true)
  | b :: rest, bytes, first, s =>
    let part := bytes.take b.size
    let more := bytes.drop b.size
    if more.isEmpty then (rxBuffer p r b part first true false err w3 m s, false)
    else if rest.isEmpty then (rxBuffer p r b part first true true err w3 m s, true)
    else rxFill p r err w3 m rest more false (rxBuffer p r b part first false false err w3 m s)

/-- A frame cut short: counted and raised (R257). -/
def noteTrunc (p : Nat) (s : State) : State := portEvent 2 82 p (count (ethCnt p 8) 1 s)

/-- A frame delivered to a host RX ring with its flow entry and error flags (R256, R257). -/
def rxDeliver (p r flow err : Nat) (m : RxFrame) (s : State) : State :=
  let bufs := if ringRuns s r 3 && !on s fld.ringCtrl.FLUSH r then (postedOn s r).take (ringOcc s r) else []
  if bufs.isEmpty then count (ethCnt p 7) 1 s
  else
    let s := if m.poisoned then poisonRing r s else s
    let w3 := p + 256 * flow + 65536 * tciOf m
    let x := rxFill p r (err + (if m.poisoned then 16 else 0)) w3 m bufs m.bytes true s
    if x.2 then noteTrunc p x.1 else x.1

/-- The received contents of a packet buffer: metadata, then the frame (Table 9-3). -/
def rxPacket (s : State) (p : Nat) (cut : Bool) (m : RxFrame) (body : List Byte) : List Byte :=
  let st := rxStamp s p m
  leBytes 8 st.1.toNat ++ leBytes 4 (body.length + 65536 * p + (if cut then 2 ^ 26 else 0))
    ++ leBytes 4 (st.2.toNat + 65536 * tciOf m) ++ List.replicate 16 0 ++ body

/-- The kind 6 templates of a ring: those that make it a service ring (R97, R256). -/
def svcTmpls (s : State) (r : Nat) : List Nat := tmplsBound s 6 r

/-- The task that a template's release created, if it did, gets a packet buffer. -/
def releasePkt (n : Nat) (b : PktBuf) (s : State) : State :=
  let id := s.sch.nextId
  let d := (tmplDesc s n).set 4 b.handle
  let s := releaseOne n d none 6 none s
  match (allTasks s).find? (fun t => t.id == id) with
  | some t => if s.sch.nextId = id then s else setTask { t with pkts := [b] } s
  | none => s

/-- A frame on a service ring: a packet buffer and a task of each kind 6 template of the ring (R81, R97, R256, R257). -/
def rxService (p r : Nat) (m : RxFrame) (s : State) : State :=
  let h := Config.pktHandle s.free
  if h = 0 then draw (count (ethCnt p 7) 1 s)
  else
    let cut := decide (9600 < m.bytes.length)
    let body := m.bytes.take 9600
    let bytes := (rxPacket s p cut m body).zipIdx.map (fun x => (x.2, x.1))
    let b : PktBuf := ⟨h, bytes, some body.length, s.free⟩
    let s := forEach (svcTmpls s r) (fun n u => releasePkt n b u) (draw s)
    if cut then noteTrunc p s else s

/-- A good frame delivered on a ring: to packet buffers where a kind 6 template makes it a service ring, else to its posted
buffers (R256). -/
def deliverRing (p r flow : Nat) (m : RxFrame) (s : State) : State :=
  if (svcTmpls s r).isEmpty then rxDeliver p r flow 0 m s else rxService p r m s

/-- SERVICE_FRAME_RX (R186, R254, R256): PTP, LLDP or ENP DISC to SVC_RING. A 10BASE-T1S port has no RX_DEF, so there only
the service cluster's discovery hears of a REPLY (log 124). -/
def execServiceFrameRx (p : Nat) (m : RxFrame) (s : State) : Out :=
  match rxRoute s p m with
  | .service disc =>
    let s := heardFrame p m s
    let s := if p < 16 && on s fld.rxDef.SVC_EN p then deliverRing p (get s fld.rxDef.SVC_RING p) 0xFF m s else s
    .next (match disc with
      | some q => discover p q s
      | none => s)
  | _ => otherFrame p m s

/-- FLOW_FRAME_RX (R254, R256): the ring of the first flow entry that matches, or the default ring. A frame of a live stream
has its own command. -/
def execFlowFrameRx (p : Nat) (m : RxFrame) (s : State) : Out :=
  match rxRoute s p m with
  | .flow f =>
    if get s fld.flowCtrl.KIND p f = 0 then
      .next (deliverRing p (get s fld.flowCtrl.TARGET p f) f m (heardFrame p m s))
    else if 4 < get s fld.flowCtrl.KIND p f then .next (heardFrame p m s)
    else .next s
  | .other =>
    let s := heardFrame p m s
    .next (if on s fld.rxDef.DEF_EN p then deliverRing p (get s fld.rxDef.DEF_RING p) 0xFF m s else s)
  | _ => otherFrame p m s

/-- BAD_FRAME_RX (R255): dropped and counted by its first error; with BAD_DELIVER = 1 an Ethernet port delivers it to DEF_RING
with its error flags, but never to a service ring. A 10BASE-T1S port counts FCS errors only (Table 13-7). -/
def execBadFrameRx (p : Nat) (m : RxFrame) (s : State) : Out :=
  match rxRoute s p m with
  | .bad flags =>
    let s := advance m.at_ s
    if 16 ≤ p then .next (if firstBad flags = 0 then count (t1sCnt (p - 16) 2) 1 s else s)
    else
      let s := count (ethCnt p (2 + firstBad flags)) 1 s
      let r := get s fld.rxDef.DEF_RING p
      .next (if on s fld.macCtrl.BAD_DELIVER p && (svcTmpls s r).isEmpty then
          rxDeliver p r 0xFF flags { m with bytes := m.bytes.take (get s fld.macCtrl.MAX_LEN p) } s
        else s)
  | _ => otherFrame p m s

/-! ## RTP targets (R258, R259) -/

/-- The flow entries that feed a target of a kind, as port × 16 + entry in rising order: its legs. -/
def legsOf (s : State) (kind target : Nat) : List Nat :=
  (List.range 256).filter (fun k => flowOn s (k / 16) (k % 16) && get s fld.flowCtrl.KIND (k / 16) (k % 16) == kind
    && get s fld.flowCtrl.TARGET (k / 16) (k % 16) == target)

/-- The flow entry of a kind that a frame goes to. -/
def kindRoute (s : State) (kind p : Nat) (m : RxFrame) : Option Nat :=
  match rxRoute s p m with
  | .flow f => if get s fld.flowCtrl.KIND p f = kind then some f else none
  | _ => none

/-- Whether the live streams can pass 200 Gb/s: the rates of the ports that have an entry of one (R260). -/
def mayOverflow (s : State) : Bool :=
  let live := (List.range 16).filter (fun p => on s fld.macCtrl.EN p
    && (List.range 16).any (fun f => flowOn s p f && decide (1 ≤ get s fld.flowCtrl.KIND p f) && decide (get s fld.flowCtrl.KIND p f ≤ 3)))
  decide (200 < (live.map (fun p => if on s fld.macCtrl.RATE p then 10 else 25)).sum)

/-- A live-stream packet dropped for load: RX_OVF counted, its PORT_EVENT bit and event 93 (R260, R269). -/
def noteOvf (p : Nat) (s : State) : State := portEvent 5 93 p (count (ethCnt p 9) 1 s)

/-- A merge with nothing accepted. -/
def mergeIdle : Merge := ⟨none, [], [], []⟩

/-- What the merge of R259 does with a sequence number. -/
inductive Take where
  | dup | stale | accept (g : Merge)

/-- A sequence number judged: one accepted before, one too far behind, or one to accept. -/
def mergeSeq (g : Merge) (n : Nat) : Take :=
  match g.high with
  | none => .accept { g with high := some n, seen := [n] }
  | some h =>
    if g.seen.contains n then .dup
    else if n + 4096 < h then .stale
    else
      let h' := Nat.max h n
      .accept { g with high := some h', seen := n :: g.seen.filter (fun x => h' ≤ x + 4096) }

/-- A packet heard on a leg. -/
def heard (g : Merge) (leg : Nat) (at_ : W64) : Merge :=
  { g with legAt := Map.put g.legAt leg at_, silent := g.silent.filter (fun x => x != leg) }

/-- A video target's state. -/
def setVid (n : Nat) (v : Vid) (s : State) : State := { s with prt := { s.prt with vids := Map.put s.prt.vids n v } }

/-- An audio target with nothing received. -/
def audIdle : Aud := ⟨mergeIdle, none, 0, [], none⟩

/-- An audio target's state. -/
def audOf (s : State) (n : Nat) : Aud := Map.get (fun _ => audIdle) s.prt.auds n

/-- An audio target's state replaced. -/
def setAud (n : Nat) (v : Aud) (s : State) : State := { s with prt := { s.prt with auds := Map.put s.prt.auds n v } }

/-- The merge of an ancillary target. -/
def ancOf (s : State) (n : Nat) : Merge := Map.get (fun _ => mergeIdle) s.prt.ancs n

/-- The merge of an ancillary target replaced. -/
def setAnc (n : Nat) (v : Merge) (s : State) : State := { s with prt := { s.prt with ancs := Map.put s.prt.ancs n v } }

/-- The merge of a target: kinds 1 video, 2 audio, 3 ancillary. -/
def targetMerge (s : State) (kind n : Nat) : Merge :=
  match kind with
  | 1 => (vidOf s n).merge
  | 2 => (audOf s n).merge
  | _ => ancOf s n

/-- The merge of a target replaced. -/
def setMerge (kind n : Nat) (g : Merge) (s : State) : State :=
  match kind with
  | 1 => setVid n { vidOf s n with merge := g } s
  | 2 => setAud n { audOf s n with merge := g } s
  | _ => setAnc n g s

/-- Whether a leg of a target, if it has it, is silent. -/
def legSilent (s : State) (n leg : Nat) : Bool :=
  match (legsOf s 1 n)[leg]? with
  | some k => (vidOf s n).merge.silent.contains k
  | none => false

/-- STRM_STATUS of a video target as its legs stand. -/
def showLegs (kind n : Nat) (s : State) : State :=
  let all := !(legsOf s 1 n).isEmpty && (legsOf s 1 n).all (fun k => (vidOf s n).merge.silent.contains k)
  if kind = 1 then
    put fld.strmStatus.STRM_STATUS
      ((if legSilent s n 0 then 1 else 0) + (if legSilent s n 1 then 2 else 0) + (if all then 4 else 0)) s n
  else s

/-- The effect of a write of a flow entry's control word: a third entry for a target is refused (R258), and the legs of a
target are listened to from when they are enabled. -/
def flowCtrlWrite (pf : Bool) (p f : Nat) (v : W32) (s : State) : State :=
  let s := put fld.flowCtrl.CFG_ERR 0 (plainWrite pf .flowCtrl p f v s) p f
  let kind := get s fld.flowCtrl.KIND p f
  let n := get s fld.flowCtrl.TARGET p f
  if !on s fld.flowCtrl.EN p f || kind = 0 || 4 ≤ kind then s
  else if 2 < (legsOf s kind n).length then put fld.flowCtrl.CFG_ERR 1 s p f
  else showLegs kind n (setMerge kind n (heard (targetMerge s kind n) (16 * p + f) s.ot) s)

/-- LEG_LOSS (R259): 100 ms without a packet; with every leg of the target silent, the stream is lost. -/
def execLegLoss (kind : LegKind) (n leg : Nat) (s : State) : Out :=
  let k := match kind with | .video => 1 | .audio => 2 | .anc => 3
  let g := targetMerge s k n
  match (legsOf s k n)[leg]? with
  | none => .next s
  | some key =>
    match Map.find? g.legAt key with
    | none => .next s
    | some t =>
      if g.silent.contains key then .next s
      else
        let s := advance (t + 100000000) s
        let s := raise0 85 (showLegs k n (setMerge k n { g with silent := g.silent ++ [key] } s))
        .next (if (legsOf s k n).all (fun x => x == key || g.silent.contains x) then raise0 86 s else s)

/-! ## Media time (R232) -/

/-- The time of an RTP timestamp: of the candidates the nearest to an instant, both in nanoseconds of the domain's
time. -/
def rtpTime (freq ts near : Nat) : Nat :=
  let j := (near * freq / 1000000000 + 2 ^ 31 - ts) / 2 ^ 32
  let cand := fun i => (ts + i * 2 ^ 32) * 1000000000 / freq
  let far := fun (x : Nat) => ((x : Int) - near).natAbs
  [j - 1, j, j + 1].foldl (fun b i => if far (cand i) < far b then cand i else b) (cand j)

/-- The media time of an RTP timestamp that arrived at an instant, in outward time. -/
def mediaTime (s : State) (dom freq : Nat) (ts : W32) (at_ : W64) : W64 :=
  let th := (domOf s dom).theta
  let near := (((at_.toNat : Int) * 65536 + th) / 65536).toNat
  BitVec.ofInt 64 (((rtpTime freq ts.toNat near : Int) * 65536 - th) / 65536)

/-- The domain that MEDIA_DOM names for a video ring or an audio stream (plus 16). -/
def mediaDom (s : State) (n : Nat) : Nat := (rd s .mediaDom).toNat / 2 ^ n % 2

/-! ## Video (R260) -/

/-- Whether a packet's field bit, rows or offsets fall outside what the target accepts. -/
def videoBad (s : State) (n : Nat) (m : VideoPkt) : Bool :=
  m.fieldBit || decide (3 < m.rows.length)
    || m.rows.any (fun r => decide (get s fld.vsize.VHEIGHT n ≤ r.row) || decide (lineBytes s n < r.byteOff + r.data.length))

/-- One row segment written into its line slot: the first write of a frame sets the tag and restarts the count. -/
def writeRow (n : Nat) (f : VFrame) (r : VideoRow) (s : State) : State :=
  let a := lineAddr s n f r.row
  let had := if fmemNat s a 4 = f.ts.toNat then fmemNat s (a + 4) 4 else 0
  fmemPut (a + 64 + r.byteOff) r.data (fmemPut a (leBytes 4 f.ts.toNat ++ leBytes 4 (had + r.data.length)) s)

/-- The frame that a packet belongs to, opening a newer one; none for an older frame. -/
def videoFrame (s : State) (n : Nat) (at_ : W64) (m : VideoPkt) (v : Vid) : Option (VFrame × Vid) :=
  let fresh := fun (no : Nat) => (⟨no, m.ts, mediaTime s (mediaDom s n) 90000 m.ts at_⟩ : VFrame)
  match v.frames with
  | [] => let f := fresh 0; some (f, { v with frames := [f] })
  | g :: _ =>
    if g.ts = m.ts then some (g, v)
    else if epochDiff m.ts g.ts > 0 then
      (let f := fresh (g.no + 1)
       some (f, { v with frames := (f :: v.frames).take 3 }))
    else none

/-- Counter `k` of a video target (Table 13-7). -/
def vidCnt (n k : Nat) : Nat := 432 + 4 * n + k

/-- A video packet heard on a leg of a target (R259, R260). -/
def takeVideo (leg n : Nat) (at_ : W64) (m : VideoPkt) (s : State) : State :=
  let v := vidOf s n
  let g := heard v.merge leg at_
  match mergeSeq g m.seq with
  | .dup => count (vidCnt n 0) 1 (showLegs 1 n (setVid n { v with merge := g } s))
  | .stale => count (vidCnt n 1) 1 (showLegs 1 n (setVid n { v with merge := g } s))
  | .accept g' =>
    let v := { v with merge := g' }
    let s := showLegs 1 n (setVid n v s)
    if videoBad s n m then count (vidCnt n 3) 1 s
    else
      match videoFrame s n at_ m v with
      | none => count (vidCnt n 2) 1 s
      | some (f, v') => forEach m.rows (writeRow n f) (setVid n v' s)

/-- VIDEO_PACKET_RX (R254, R258 to R260). -/
def execVideoPacketRx (p : Nat) (m : RxFrame) (v : VideoPkt) (ovf : Bool) (s : State) : Out :=
  match kindRoute s 1 p m with
  | none => otherFrame p m s
  | some f =>
    let n := get s fld.flowCtrl.TARGET p f
    let s := heardFrame p m s
    if ovf && mayOverflow s then .next (noteOvf p s)
    else if 16 ≤ n then .next s
    else .next (takeVideo (16 * p + f) n m.at_ v s)

/-! ## Inputs from the network -/

/-- A change of an input from a source of the device; on a standby it is discarded (R315). -/
def sourceChange (k : InKey) (v : W32) (g : ATarget) (s : State) : State := if standby s then s else enterChange k v 0 g s

/-! ## Audio (R261) -/

/-- A sample as a signed 24-bit number. -/
def sample24 (l16 : Bool) (w : BitVec 24) : Int := if l16 then (w <<< 8).toInt else w.toInt

/-- A level in px16 (R261). -/
def pxLevel (x : Nat) : Nat := (x * 65535 + 4194303) / 8388607

/-- Peak and RMS of a segment's 48 samples. -/
def envelope (xs : List Int) : W32 :=
  let peak := xs.foldl (fun a x => Nat.max a (Nat.min x.natAbs 8388607)) 0
  let q := (xs.map (fun x => x.natAbs * x.natAbs)).sum / 48
  let r := Nat.min (Nat.sqrt q) 8388607
  BitVec.ofNat 32 (pxLevel r + 65536 * pxLevel peak)

/-- The samples of a channel over a segment; a missing sample is zero. -/
def segmentOf (a : Aud) (l16 : Bool) (k chan : Nat) : List Int :=
  (List.range 48).map (fun i => sample24 l16 ((Map.get (fun _ => []) a.samples (48 * k + i)).getD chan 0))

/-- Segment `k` completes with the samples gathered: a gap counted where some are missing, and a change of each envelope
channel at the segment's media time. -/
def closeSegment (n k : Nat) (media : W64) (s : State) : State :=
  let a := audOf s n
  let gap := a.samples.length < 48
  let s := setAud n { a with seg := none, samples := [], closed := some k } s
  let s := if gap then raise0 87 (count (496 + n) 1 s) else s
  let l16 := on s fld.aud.AUD_FMT n
  let t := media + BitVec.ofInt 64 (signed32 (rd s .envOffset))
  forEach ((List.range 64).filter (fun c => on s fld.envMap.ENV_EN c && get s fld.envMap.STREAM c == n))
    (fun c u => sourceChange ⟨3, 0, c⟩ (envelope (segmentOf a l16 k (get u fld.envMap.CHAN c))) (.time t) u) s

/-- The media time of a segment (R232, R261). -/
def segmentTime (s : State) (n k : Nat) (at_ : W64) : W64 :=
  mediaTime s (mediaDom s (16 + n)) 48000 (BitVec.ofNat 32 (48 * k)) at_

/-- The open segment and every one after it complete before segment `k`: a segment of which no sample came is all missing. -/
def closeBefore (n k : Nat) (at_ : W64) (s : State) : State :=
  let s := match (audOf s n).seg with
    | some g => if g < k then closeSegment n g (audOf s n).media s else s
    | none => s
  match (audOf s n).closed with
  | some c => forEach ((List.range (k - 1 - c)).map (fun i => c + 1 + i)) (fun j u => closeSegment n j (segmentTime u n j at_) u) s
  | none => s

/-- One sample time of a stream. -/
def audioSample (n : Nat) (at_ : W64) (t : Nat) (w : List (BitVec 24)) (s : State) : State :=
  let k := t / 48
  let a := audOf s n
  let old := match a.closed with | some c => decide (k ≤ c) | none => false
  if old || (match a.seg with | some g => decide (k < g) | none => false) then s
  else
    let s := closeBefore n k at_ s
    let a := audOf s n
    let a := if a.seg.isNone then { a with seg := some k, media := segmentTime s n k at_ } else a
    let a := { a with samples := Map.put a.samples t w }
    let s := setAud n a s
    if a.samples.length = 48 then closeSegment n k a.media s else s

/-- An audio packet heard on a leg of a target (R259, R261). -/
def takeAudio (leg n : Nat) (at_ : W64) (m : AudioPkt) (s : State) : State :=
  let g := heard (audOf s n).merge leg at_
  match mergeSeq g m.seq with
  | .accept g' =>
    forEach m.samples.zipIdx (fun x u => audioSample n at_ (m.ts + x.2) x.1 u) (setAud n { audOf s n with merge := g' } s)
  | _ => setAud n { audOf s n with merge := g } s

/-- AUDIO_PACKET_RX (R254, R258, R259, R261). -/
def execAudioPacketRx (p : Nat) (m : RxFrame) (v : AudioPkt) (ovf : Bool) (s : State) : Out :=
  match kindRoute s 2 p m with
  | none => otherFrame p m s
  | some f =>
    let n := get s fld.flowCtrl.TARGET p f
    let s := heardFrame p m s
    if ovf && mayOverflow s then .next (noteOvf p s)
    else if 16 ≤ n || !on s fld.aud.AUD_EN n then .next s
    else .next (takeAudio (16 * p + f) n m.at_ v s)

/-! ## Timecode (R262) -/

/-- A timecode word arrives at a source: VALID, and a change of TC applied from RM. -/
def timecode (n : Nat) (at_ : W64) (v : W32) (s : State) : State :=
  let s := put fld.tcReg.VALID 1 { s with prt := { s.prt with tcAt := Map.put s.prt.tcAt n at_ } } n
  sourceChange ⟨4, 0, n⟩ v .arrival s

/-- A number in BCD, in `w` bits. -/
def bcd (w n : Nat) : Nat := (n / 10 * 16 + n % 10) % 2 ^ w

/-- The value of a decoded timecode word, valid (Table 3-11). -/
def tcValue (w : TcWord) : W32 :=
  BitVec.ofNat 32 ((if w.drop then 2 ^ 31 else 0) + 2 ^ 30 + 2 ^ 24 * bcd 6 w.hours + 2 ^ 16 * bcd 8 w.minutes
    + 2 ^ 8 * bcd 8 w.seconds + bcd 8 w.frames)

/-- An ancillary packet heard on a leg of a target: only ancillary timecode is decoded (R259, R262). -/
def takeAnc (leg n : Nat) (at_ : W64) (m : AncPkt) (s : State) : State :=
  let g := heard (ancOf s n) leg at_
  match mergeSeq g m.seq with
  | .accept g' =>
    let s := setAnc n g' s
    if m.did = 0x60 && m.sdid = 0x60 && on s fld.tcReg.TC_EN n then timecode n at_ (tcValue m.tc) s else s
  | _ => setAnc n g s

/-- ANC_PACKET_RX (R254, R258, R259, R262). -/
def execAncPacketRx (p : Nat) (m : RxFrame) (v : AncPkt) (ovf : Bool) (s : State) : Out :=
  match kindRoute s 3 p m with
  | none => otherFrame p m s
  | some f =>
    let n := get s fld.flowCtrl.TARGET p f
    let s := heardFrame p m s
    if ovf && mayOverflow s then .next (noteOvf p s)
    else if n = 0 || 16 < n then .next s
    else .next (takeAnc (16 * p + f) n m.at_ v s)

/-- LTC_WORD (R262). -/
def execLtcWord (at_ : W64) (tc : TcWord) (s : State) : Out :=
  if !portClock s || !on s fld.tcReg.TC_EN 0 then .next s else .next (timecode 0 at_ (tcValue tc) (advance at_ s))

/-- TC_LOSS (R262): 100 ms without a word clears the valid bit of the value. -/
def execTcLoss (n : Nat) (s : State) : Out :=
  match Map.find? s.prt.tcAt n with
  | none => .next s
  | some t =>
    if !on s fld.tcReg.VALID n then .next s
    else
      let s := put fld.tcReg.VALID 0 (advance (t + 100000000) s) n
      let v := valueFor s ⟨4, 0, n⟩ none
      .next (raise0 88 (sourceChange ⟨4, 0, n⟩ (v &&& 0xBFFFFFFF) .arrival s))

/-! ## sACN input (R263) -/

/-- A subscription with no source. -/
def subIdle : SacnSub := ⟨[], []⟩

/-- A subscription's merge. -/
def subOf (s : State) (u : Nat) : SacnSub := Map.get (fun _ => subIdle) s.prt.subs u

/-- A subscription's merge replaced. -/
def setSub (u : Nat) (v : SacnSub) (s : State) : State := { s with prt := { s.prt with subs := Map.put s.prt.subs u v } }

/-- The merged value of slot `k` (from 0): of the sources of the highest priority, the largest (HTP) or the last to
arrive (LTP); none where no source covers it. -/
def mergedSlot (ltp : Bool) (srcs : List SacnSrc) (k : Nat) : Option Byte :=
  let top := srcs.foldl (fun a x => Nat.max a x.prio) 0
  let best := srcs.filter (fun x => x.prio == top)
  if ltp then (best.getLast?).bind (fun x => x.slots[k]?)
  else
    match best.filterMap (fun x => x.slots[k]?) with
    | [] => none
    | b :: bs => some (bs.foldl (fun a x => if a.toNat < x.toNat then x else a) b)

/-- The sources of a universe replaced; each slot whose merged value changes becomes a CUE change. -/
def remerge (u : Nat) (srcs : List SacnSrc) (s : State) : State :=
  let v := subOf s u
  let ltp := on s fld.subCtrl.LTP u
  let base := get s fld.subBase.CUE_BASE u
  let news := (List.range 512).filterMap (fun k =>
    match mergedSlot ltp srcs k with
    | some b => if b = Map.get (fun _ => 0) v.slots k then none else some (k, b)
    | none => none)
  let s := setSub u ⟨srcs, news.foldl (fun m x => Map.put m x.1 x.2) v.slots⟩ s
  forEach news (fun x t =>
    sourceChange ⟨1, get t fld.subCtrl.CTX u, base + x.1⟩ (BitVec.ofNat 32 x.2.toNat) .arrival t) s

/-- A data packet of a subscribed universe (R263). -/
def takeSacn (u : Nat) (at_ : W64) (m : SacnPkt) (s : State) : State :=
  let v := subOf s u
  let known := v.srcs.any (fun x => x.cid == m.cid)
  let rest := v.srcs.filter (fun x => x.cid != m.cid)
  if m.terminated then (if known then raise0 89 (remerge u rest s) else s)
  else if !known && decide (8 ≤ v.srcs.length) then bump .sacnSrcDrop s
  else
    let s := remerge u (rest ++ [⟨m.cid, m.prio, at_, m.slots.take 512⟩]) s
    if known then s else raise0 89 s

/-- The subscriptions of a universe number (Table 9-10). -/
def subsOf (s : State) (n : Nat) : List Nat :=
  (List.range 1024).filter (fun u => on s fld.subCtrl.EN u && get s fld.subCtrl.UNIV u == n)

/-- SACN_PACKET_RX (R254, R258, R263): a frame of a flow entry of KIND 4, which the sACN input service program takes. -/
def execSacnPacketRx (p : Nat) (m : RxFrame) (v : SacnPkt) (s : State) : Out :=
  match kindRoute s 4 p m with
  | none => otherFrame p m s
  | some _ =>
    let s := heardFrame p m s
    if !svcOn s || v.preview || v.startCode != 0 then .next s
    else .next (forEach (subsOf s v.univNo) (fun u t => takeSacn u m.at_ v t) s)

/-- SACN_SOURCE_TIMEOUT (R263): 2.5 s without a packet. -/
def execSacnSourceTimeout (u : Nat) (cid : Nat) (s : State) : Out :=
  let v := subOf s u
  match v.srcs.find? (fun x => x.cid == cid) with
  | none => .next s
  | some x =>
    let s := advance (x.at_ + 2500000000) s
    .next (raise0 89 (remerge u (v.srcs.filter (fun y => y.cid != cid)) s))

end Sys2Proof.Machine
end

