-- ==== Sys2Proof/Machine/Power.lean ====
section
/-!
DEFINITION. Supplies, clocks, reset and modes: SAFE (R340), resets (R330, R335, R336, R373), SLEEP and wake (R341),
mode requests (R337), HOLD (R338, R339), core voltage (R331, R332), die temperature (R346, R384), slow time (R348).
-/

namespace Sys2Proof.Machine

/-! ## The lease given up -/

/-- A twin event: its TWIN_EVENT bit and event number. -/
def twinEvent (bit ev detail : Nat) (s : State) : State := raise ev detail (setBit fld.twinEvent.TWIN_EVENT bit s)

/-- A device without a lease: LEASE_OUT low (R307, R308). -/
def leaseGone (s : State) : State := put fld.twinStatus.LEASE 0 { s with twn := { s.twn with out := false } }

/-- A twin role entered; a copy that the device was sending ends. -/
def setRole (r : Nat) (s : State) : State :=
  put fld.twinStatus.ROLE r { s with twn := { s.twn with since := s.ot, copySend := false, copyQ := [] } }

/-- A holder's lease lapses and it becomes WAIT, which disables its canvases (R309). -/
def lapse (s : State) : State := disableAll (setRole 1 (twinEvent 2 98 noDetail (bump .lapses (leaseGone s))))

/-! ## SAFE (R340) -/

/-- Every task cancelled and none left to create. -/
def cancelAll (s : State) : State :=
  let s := { s with sch := { s.sch with createQ := [], recreateQ := [] } }
  forEach (allTasks s) (fun t u => match taskAt u t.slot with
    | some t' => if t'.id = t.id then cancelTask t' u else u
    | none => u) s

/-- The transmitters disabled and the DMX outputs high-impedance (R340): frames on the wire and DMX packets are cut short,
and none of them counts as sent. -/
def cutOutputs (s : State) : State :=
  { s with prt := { s.prt with
      ports := s.prt.ports.map (fun x => (x.1, { x.2 with wire := none, backoff := none, coll := 0, judged := false }))
      dmxs := s.prt.dmxs.map (fun x => (x.1, { x.2 with busy := none, started := none, rdm := 0 })) } }

/-- SAFE entered for a cause of Table 12-6 (R340). A paired device that is not an ORPHAN is then in WAIT. -/
def arriveSafe (cause : Nat) (s : State) : State :=
  let s := abortTests s
  let s := if role s = 2 then lapse s else if role s = 0 || role s = 7 then s else setRole 1 s
  let s := cutOutputs (cancelAll (disableAll s))
  let s := { s with pwr := { s.pwr with image := none, gated := [], selfRef := false } }
  raise0 110 (enterMode 7 (put fld.safeCause.SAFE_CAUSE cause s))

/-- A cause of SAFE arises: the transition of 1 µs begins over any other (R337), at once from a failed boot or self-test
(Table 12-5). A cause that is later in Table 12-6 replaces an earlier one; one that arises in SAFE stops a running exit. -/
def enterSafe (cause : Nat) (s : State) : State :=
  if mode s = 0 then s
  else if mode s = 7 then
    endTrans (if get s fld.safeCause.SAFE_CAUSE < cause then put fld.safeCause.SAFE_CAUSE cause s else s)
  else if mode s = 1 && decide (5 ≤ cause) then arriveSafe cause s
  else
    let t : Trans :=
      match s.pwr.trans with
      | some t => if t.target = 7 then { t with cause := Nat.max t.cause cause } else ⟨7, s.ot + 1000, false, cause⟩
      | none => ⟨7, s.ot + 1000, false, cause⟩
    put fld.pwrMode.BUSY 1 { s with pwr := { s.pwr with trans := some t } }

/-! ## Reset (R335, R373) -/

/-- The life-cycle state that OTP holds (R349, log 7). -/
def lcOf (otp : Map W32) : Nat :=
  let full := fun k => Map.get (fun _ => 0) otp k == 0xFFFFFFFF
  if !full 1 then 0 else if !full 2 then 1 else if !full 3 then 2 else 3

/-- The OTP words as a reset finds them: a part that is now in RMA has slots 1 to 3 revoked (R352). -/
def otpAtReset (otp : Map W32) : Map W32 :=
  if lcOf otp = 3 then Map.set (fun _ => 0) otp 56 (Map.get (fun _ => 0) otp 56 ||| 0xE) else otp

/-- The blocks outside the island after a reset that keeps the island: its registers, the slow time and the retained
verdict stay, frame memory keeps its contents (Table 14-3). -/
def coldBlocks (fmem : List Host.Cell) (p : Pwr) (s : State) : State :=
  let t := State.coldStart s.member s.pending fmem s.hmem (otpAtReset s.otp) [0, 16] p s.bst.retained s.free
  let t := wr .rstCause (rd s .rstCause) (wr .railGood (rd s .railGood) (wr .wakeEn (rd s .wakeEn) t))
  put fld.lcState.LC_STATE (lcOf s.otp) (wr .alarmHi (rd s .alarmHi) (wr .alarmLo (rd s .alarmLo) t))

/-- RST_CAUSE records a source, beside those whose assertion it overlaps (R335, R336). -/
def noteCause (bit : Nat) (overlap : Bool) (s : State) : State :=
  wr .rstCause (BitVec.ofNat 32 (Nat.lor (if overlap then (rd s .rstCause).toNat else 0) (2 ^ bit))) s

/-- A reset of the blocks outside the island, held by a source until the release. -/
def resetBlocks (bit : Nat) (s : State) : State :=
  let s := noteCause bit (!s.pwr.held.isEmpty) s
  coldBlocks s.fmem { pwrReset with
    slow := s.pwr.slow, held := s.pwr.held ++ [bit], supplyEv := s.pwr.supplyEv, clocks := s.pwr.clocks } s

/-- A reset of the whole device, the island included. -/
def resetAll (bit : Nat) (fmem : List Host.Cell) (s : State) : State :=
  let t := State.coldStart s.member s.pending fmem s.hmem (otpAtReset s.otp) [0, 16]
    { pwrReset with held := [bit], clocks := s.pwr.clocks } none s.free
  wr .rstCause (BitVec.ofNat 32 (2 ^ bit)) (put fld.lcState.LC_STATE (lcOf s.otp) t)

/-- POWER_ON (R335): what frame memory holds after power-on the manual does not say (log 6). -/
def execPowerOn (s : State) : Out := .next (resetAll 0 [] s)

/-- AON_RST_N (R335). -/
def execAonRstN (s : State) : Out := .next (resetAll 1 s.fmem s)

/-- SYS_RST_N (R335). -/
def execSysRstN (s : State) : Out := .next (resetBlocks 2 s)

/-- The effect of SOFT_RST, after its register cycle (R336). -/
def softReset (s : State) : State := resetBlocks 3 s

/-- SOFT_RST (R336). -/
def execSoftRst (fn : Nat) (s : State) : Out := .next (hostWrite fn .pwrCmd 0 0 0x100 softReset s)

/-- RAIL_GOOD with a rail's bit cleared (R328). -/
def railLost (rail : Nat) (s : State) : State :=
  put fld.railGood.RAIL_GOOD (Nat.land (get s fld.railGood.RAIL_GOOD) (0x1FF - 2 ^ rail)) s

/-- RAIL_FAULT (R330): a fall of VDD_AON resets the whole device; in SLEEP no other rail is required, and the monitor shows
the absent rail (R328, R329). -/
def execRailFault (rail : Nat) (s : State) : Out :=
  if rail = 0 then .next (resetAll 0 [] s)
  else if 9 ≤ rail then .next s
  else if mode s = 0 then .next (railLost rail s)
  else
    let s := { s with pwr := { s.pwr with supplyEv := true } }
    .next (resetBlocks 4 (railLost rail (put fld.railGood.SUPPLY_FAIL (2 ^ rail) s)))

/-! ## SLEEP (R341) -/

/-- Units of slow time in one tick of 1/32,768 s: 30,517.578125 ns in 1/64 ns. -/
def slowTick : Nat := 1953125

/-- Slow time as the registers show it. -/
def slowTime (s : State) : W64 := BitVec.ofNat 64 (s.pwr.slow / slowTick)

/-- Everything outside the island powered down, with outward time copied into the slow time; frame memory is lost. -/
def powerDown (s : State) : State :=
  let s := raise0 104 s
  let ticks := s.ot.toNat * 64 / slowTick
  put fld.pwrMode.MODE 0 (coldBlocks [] { pwrReset with
    slow := ticks * slowTick, supplyEv := s.pwr.supplyEv, clocks := s.pwr.clocks } s)

/-- A wake source acts: the device is in BOOT and waits for its release from reset. -/
def wake (s : State) : State := raise0 104 (put fld.pwrMode.MODE 1 (noteCause 6 false s))

/-- The alarm. -/
def alarmTime (s : State) : Nat := (rd s .alarmLo).toNat + 2 ^ 32 * (rd s .alarmHi).toNat

/-- The slow time reaches the alarm, which wakes the device where it is enabled (R341). -/
def alarmReached (s : State) : State :=
  if mode s != 0 || !hasBit s fld.wakeEn.WAKE_EN 1 || alarmTime s < s.pwr.slow / slowTick then s
  else wake { s with pwr := { s.pwr with slow := Nat.max s.pwr.slow (alarmTime s * slowTick) } }

/-- WAKE_SOURCE (R341): 0 WAKE_N, 1 alarm, 2 PERST_N, 3 LEASE_IN. The alarm acts when the slow time reaches it. -/
def execWakeSource (src : Nat) (s : State) : Out :=
  .next (if src = 1 then alarmReached s
    else if mode s = 0 && decide (src < 4) && hasBit s fld.wakeEn.WAKE_EN src then wake s else s)

/-- SLOW_ALARM (R341). -/
def execSlowAlarm (s : State) : Out := .next (alarmReached s)

/-- A read of SLOW_LO: the high word is copied with it (R210, R348). -/
def slowLoRead (s : State) : State × W32 :=
  (wr .slowHi (BitVec.ofNat 32 ((slowTime s).toNat / 2 ^ 32)) s, BitVec.ofNat 32 (slowTime s).toNat)

/-- SLOW_LO_READ (R348). -/
def execSlowLoRead (fn : Nat) (s : State) : Out := .next (hostRead fn .slowLo 0 0 slowLoRead s)

/-! ## Mode requests (R337) -/

/-- A request discarded. -/
def modeErr (s : State) : State := setBit fld.pwrEvent.PWR_EVENT 0 s

/-- Whether a transition is running. -/
def busy (s : State) : Bool := on s fld.pwrMode.BUSY

/-- The effect of MODE_REQ = SHOW. -/
def reqShow (s : State) : State := if !busy s && mode s = 3 && role s = 0 then beginTrans 5 false s else modeErr s

/-- Whether SAFE may be left by MODE_REQ = IDLE (Table 12-6). -/
def safeExit (s : State) : Bool :=
  get s fld.safeCause.SAFE_CAUSE == 1 || (get s fld.safeCause.SAFE_CAUSE == 3 &&
    decide (sgn 8 (get s fld.dieTemp.DIE_TEMP) < sgn 8 (get s fld.dieTemp.TEMP_WARN)))

/-- The effect of MODE_REQ = IDLE. -/
def reqIdle (s : State) : State :=
  if !busy s && (((mode s = 5 || mode s = 4) && !anyCanvas s) || (mode s = 7 && safeExit s)) then beginTrans 3 false s
  else modeErr s

/-- The effect of MODE_REQ = SAFE. -/
def reqSafe (s : State) : State := if busy s then modeErr s else enterSafe 1 s

/-- MODE_REQ_SHOW (R337). -/
def execModeReqShow (fn : Nat) (s : State) : Out := .next (hostWrite fn .pwrCmd 0 0 5 reqShow s)

/-- MODE_REQ_IDLE (R337, R340). -/
def execModeReqIdle (fn : Nat) (s : State) : Out := .next (hostWrite fn .pwrCmd 0 0 3 reqIdle s)

/-- MODE_REQ_SAFE (R340). -/
def execModeReqSafe (fn : Nat) (s : State) : Out := .next (hostWrite fn .pwrCmd 0 0 7 reqSafe s)

/-! ## HOLD (R338, R339) -/

/-- The effect of a write of PWR_CTRL: clearing HOLD_EN ends HOLD. -/
def pwrCtrlWrite (pf : Bool) (v : W32) (s : State) : State :=
  let was := on s fld.pwrCtrl.HOLD_EN
  let s := plainWrite pf .pwrCtrl 0 0 v s
  if was && !on s fld.pwrCtrl.HOLD_EN then holdEnds s else s

/-- HOLD_EN_WRITE (R339). -/
def execHoldEnWrite (fn : Nat) (v : W32) (s : State) : Out := .next (hostWrite fn .pwrCtrl 0 0 v (pwrCtrlWrite (isPf fn) v) s)

/-- HBM_SELF_REFRESH (R338): in HOLD, HBM_SR_IDLE after the last access of frame memory. -/
def execHbmSelfRefresh (s : State) : Out :=
  if mode s = 4 && s.pwr.trans.isNone && !s.pwr.selfRef then
    let s := advance (s.pwr.memAt + BitVec.ofNat 64 (get s fld.hbmSrIdle.HBM_SR_IDLE * 1000)) s
    .next { s with pwr := { s.pwr with selfRef := true } }
  else .next s

/-! ## Core voltage (R331, R332) -/

/-- The VDD_CORE target in mV: free within its range, in steps of 5 mV. -/
def avsGoal (s : State) : Nat := 680 + Config.avsTarget s.free % 35 * 5

/-- The next VOUT_COMMAND: at most 10 mV from the voltage in force. -/
def avsStep (s : State) : Nat :=
  let cur := get s fld.avsCtrl.VCORE_MV
  if cur + 10 < avsGoal s then cur + 10 else if avsGoal s + 10 < cur then cur - 10 else avsGoal s

/-- Outward time moved on to where the next VOUT_COMMAND may be issued: 100 µs after the one before (R332). -/
def avsDue (s : State) : State :=
  match s.pwr.avsAt with
  | some t => advance (t + 100000) s
  | none => s

/-- The word of a VOUT_COMMAND: linear format in units of 5 mV (R331). -/
def voutWord (mv : Nat) : Nat := mv / 5

/-- AVS_COMMAND (R331, R332): a VOUT_COMMAND to the regulator at AVS_ADDR, at least 100 µs after the one before; after three
commands without an acknowledgement the device issues none, and holds CK_CORE at a frequency that the voltage allows. -/
def execAvsCommand (acked : Bool) (s : State) : Out :=
  if mode s = 0 || !on s fld.avsCtrl.AVS_EN || 3 ≤ s.pwr.avsFails then .next s
  else
    let s := avsDue s
    let v := avsStep s
    let s := draw { s with pwr := { s.pwr with
      avsAt := some s.ot, avsFails := if acked then 0 else s.pwr.avsFails + 1
      vout := some (get s fld.avsCtrl.AVS_ADDR, voutWord v) } }
    if acked then .next (put fld.avsCtrl.VCORE_MV v s)
    else if s.pwr.avsFails = 3 then
      let s := { s with pwr := { s.pwr with
        coreMhz := Nat.min s.pwr.coreMhz (Config.coreAllowed (get s fld.avsCtrl.VCORE_MV)) } }
      .next (raise0 107 (setBit fld.pwrEvent.PWR_EVENT 2 s))
    else .next s

/-! ## Temperature (R346, R384) -/

/-- DIE_TEMP_CROSS (R346). -/
def execDieTempCross (temp : Byte) (s : State) : Out :=
  if mode s = 0 then .next s
  else
    let old := sgn 8 (get s fld.dieTemp.DIE_TEMP)
    let warn := sgn 8 (get s fld.dieTemp.TEMP_WARN)
    let s := put fld.dieTemp.DIE_TEMP temp.toNat s
    let s := if old < warn ∧ warn ≤ temp.toInt then raise0 108 (setBit fld.pwrEvent.PWR_EVENT 3 s) else s
    .next (if 115 ≤ temp.toInt then enterSafe 3 s else s)

/-- HBM_STACK_TEMP_CROSS (R384). -/
def execHbmStackTempCross (above : Bool) (s : State) : Out :=
  if mode s = 0 then .next s else .next { s with pwr := { s.pwr with hotHbm := above } }

end Sys2Proof.Machine
end

