-- ==== Sys2Proof/Machine/Selftest.lean ====
section
/-!
DEFINITION. Self-test (R353 to R360), the end of mode transitions (R337), the release from reset (R342), life cycle and
OTP (R349 to R352), user calibration (R362), counters (R363, R365), instruction tagging (R367) and bandwidth windows
(R368).
-/

namespace Sys2Proof.Machine

/-! ## Blocks and sets (R353, R354) -/

/-- The start set. -/
def startBlocks (m : Member) : List Nat := (List.range 66).filter (blockPresent m)

/-- The blocks that BIST_SEL selects and the member has, in ascending order. -/
def selBlocks (s : State) : List Nat :=
  (List.range 128).filter (fun b => blockPresent s.member b && hasBit s fld.bistSel.BIST_SEL (b % 32) (b / 32))

/-- The verdict of a set: 1 PASS, 2 FAIL, 3 ABORTED (R354). -/
def setVerdict (s : State) (bs : List Nat) : Nat :=
  let res := fun b => get s fld.bistRes.RESULT b
  if bs.any (fun b => res b == 2) then 2 else if bs.all (fun b => decide (res b ≤ 1)) then 1 else 3

/-- The boot goes on after the self-test: a flash boot reads its first image copy, a host boot waits (R342, R343). -/
def bootNext (s : State) : State :=
  { s with pwr := { s.pwr with image := if s.pwr.bootMode = 1 then none else some 0 } }

/-- A set ends with its verdict (R355, R356, R357). -/
def finishSet (s : State) : State :=
  let k := s.bst.kind
  let v := setVerdict s s.bst.blocks
  let s := { s with bst := { s.bst with todo := [], kind := 0, blocks := [] } }
  let s := put fld.bistStatus.VERDICT v (put fld.bistStatus.BUSY 0 s)
  let keep := fun (u : State) => { u with bst := { u.bst with retained := if v = 3 then none else some (v == 1) } }
  match k with
  | 1 => if v = 2 then enterSafe 6 s else bootNext s
  | 2 => beginTrans 0 false (keep s)
  | 3 => raise0 112 (setBit fld.bistEvent.BIST_EVENT 0 (put fld.bistCmd.SHUTDOWN_RUN 0 (keep s)))
  | 4 => enterMode 3 (raise0 112 (setBit fld.bistEvent.BIST_EVENT 0 s))
  | _ => s

/-- The next block of the running set, or its end. -/
def nextBlock (s : State) : State :=
  match s.bst.todo with
  | [] => finishSet s
  | b :: _ => startBlock b s

/-- A set of blocks begins: 1 power-up, 2 before SLEEP, 3 shut-down run, 4 TEST. -/
def startSet (kind : Nat) (bs : List Nat) (s : State) : State :=
  let s := forEach bs (fun b t => put fld.bistRes.RESULT 0 t b) s
  nextBlock { s with bst := { s.bst with todo := bs, kind := kind, blocks := bs } }

/-- A block fails: counted and raised, and a retained verdict is void (R357, R360). -/
def failBlock (b : Nat) (s : State) : State :=
  let s := bump .bistFail (put fld.bistRes.RESULT 2 { s with bst := { s.bst with retained := none } } b)
  raise0 113 (setBit fld.bistEvent.BIST_EVENT 1 s)

/-- A cluster leaves dispatch until the next reset. -/
def removeCluster (b : Nat) (s : State) : State :=
  if b < 20 then { s with bst := { s.bst with removed := s.bst.removed.filter (fun k => k != b) ++ [b] } } else s

/-- The result of a block's test as it ended (R354). -/
def blockResult (b : Nat) (ranToEnd pass : Bool) (s : State) : State :=
  if !ranToEnd then abortBlock b s else if pass then put fld.bistRes.RESULT 1 s b else failBlock b s

/-- BIST_BLOCK_DONE (R354): of the cluster under rotation, or of the block that the set is at. -/
def execBistBlockDone (b : Nat) (ranToEnd signatureOk countOk : Bool) (s : State) : Out :=
  let pass := signatureOk && countOk
  let bad := ranToEnd && !pass
  if s.bst.rotStep = 2 && rotCluster s == b then
    let s := put fld.bistRes.FIELD 1 (blockResult b ranToEnd pass s) b
    .next (endRotStep (if bad then removeCluster b s else s))
  else if s.bst.todo.head? == some b then
    let s := blockResult b ranToEnd pass s
    let s := if bad && s.bst.kind == 4 then removeCluster b s else s
    .next (nextBlock { s with bst := { s.bst with todo := s.bst.todo.drop 1 } })
  else .next s

/-! ## BIST_CMD (R356, R357) -/

/-- STOP: the running block is cut short, the rest is not run, and the set ends. -/
def stopTests (s : State) : State :=
  match s.bst.todo with
  | [] => s
  | b :: _ => finishSet (abortBlock b { s with bst := { s.bst with todo := [] } })

/-- SHUTDOWN_RUN, on the members that test at shut-down, in IDLE. -/
def shutdownSet (s : State) : State :=
  if s.member = .zx9160 || mode s != 3 || busy s || s.bst.kind != 0 then put fld.bistCmd.SHUTDOWN_RUN 0 s
  else startSet 3 (startBlocks s.member) (put fld.bistCmd.SHUTDOWN_RUN 1 s)

/-- The effect of a write of BIST_CMD. -/
def bistCmdWrite (pf : Bool) (v : W32) (s : State) : State :=
  let was := on s fld.bistCmd.SHUTDOWN_RUN
  let s := plainWrite pf .bistCmd 0 0 v s
  let s := if v.toNat % 2 = 1 && !was then shutdownSet s else s
  if v.toNat / 8 % 2 = 1 then stopTests s else s

/-- BIST_CMD as it stands, with one command bit. -/
def bistCmdWord (s : State) (bit : Nat) : W32 := BitVec.ofNat 32 (Nat.lor (Nat.land (rd s .bistCmd).toNat 6) (2 ^ bit))

/-- SHUTDOWN_RUN (R356). -/
def execShutdownRun (fn : Nat) (s : State) : Out :=
  .next (hostWrite fn .bistCmd 0 0 (bistCmdWord s 0) (bistCmdWrite (isPf fn) (bistCmdWord s 0)) s)

/-- STOP (R357). -/
def execStop (fn : Nat) (s : State) : Out :=
  .next (hostWrite fn .bistCmd 0 0 (bistCmdWord s 3) (bistCmdWrite (isPf fn) (bistCmdWord s 3)) s)

/-! ## Cluster rotation (R358) -/

/-- The cluster that the next step takes: the next in ascending order, from the first again after the last. -/
def rotPick (s : State) : Option Nat :=
  let ks := (List.range 20).filter (rotTakes s)
  match ks.find? (fun k => decide (s.bst.rotNext ≤ k)) with
  | some k => some k
  | none => ks.head?

/-- When the next step is due, where one has run. -/
def rotDue (s : State) : Option W64 := s.bst.rotAt.map (· + BitVec.ofNat 64 (get s fld.rotCfg.ROT_GAP_MS * 1000000))

/-- ROT_STEP_START (R358). -/
def execRotStepStart (s : State) : Out :=
  if !(decide (4 ≤ mode s) && decide (mode s ≤ 6)) || !on s fld.bistCmd.ROT_EN || s.bst.rotStep != 0 then .next s
  else match rotPick s with
    | none => .next s
    | some k =>
      let s := advance ((rotDue s).getD s.ot) s
      let s := { s with bst := { s.bst with rotStep := 1, rotAt := some s.ot, rotNext := k + 1 } }
      .next (put fld.bistStatus.BUSY 1 (put fld.bistStatus.ROT_ACTIVE 1 (put fld.bistStatus.ROT_CLUSTER k s)))

/-- Whether a cluster still runs a task. -/
def clusterBusy (s : State) (k : Nat) : Bool :=
  (allTasks s).any (fun t => match t.st with | .running c => c / 8 == k | _ => false)

/-- ROT_CLUSTER_DRAINED (R358). -/
def execRotClusterDrained (s : State) : Out :=
  if s.bst.rotStep != 1 || clusterBusy s (rotCluster s) then .next s
  else .next (startBlock (rotCluster s) { s with bst := { s.bst with rotStep := 2 } })

/-- ROT_DRAIN_TIMEOUT (R358). -/
def execRotDrainTimeout (s : State) : Out :=
  if s.bst.rotStep != 1 || !clusterBusy s (rotCluster s) then .next s
  else
    let s := advance (s.bst.rotAt.getD s.ot + BitVec.ofNat 64 (get s fld.rotCfg.ROT_DRAIN_US * 1000)) s
    .next (endRotStep (bump .rotSkip (put fld.bistRes.FIELD 1 (put fld.bistRes.RESULT 0 s (rotCluster s)) (rotCluster s))))

/-! ## Mode requests that need the self-test (R337, R341, R357) -/

/-- A life-cycle request done or denied (R350). -/
def lcDenied (s : State) : State := raise0 117 (setBit fld.bistEvent.BIST_EVENT 4 s)

/-- The effect of MODE_REQ = TEST. Structural LBIST needs a life-cycle state that allows it (Table 13-1). -/
def reqTest (s : State) : State :=
  if busy s || mode s != 3 then modeErr s
  else if selBlocks s |>.contains 127 then
    (if get s fld.lcState.LC_STATE = 2 then lcDenied s else beginTrans 2 false s)
  else beginTrans 2 false s

/-- The effect of MODE_REQ = SLEEP: the members that test at shut-down do so first. -/
def reqSleep (s : State) : State :=
  if busy s || mode s != 3 || s.bst.kind != 0 then modeErr s
  else if s.member = .zx9160 then beginTrans 0 false s
  else startSet 2 (startBlocks s.member) (beginTrans 0 true s)

/-- MODE_REQ_TEST (R357). -/
def execModeReqTest (fn : Nat) (s : State) : Out := .next (hostWrite fn .pwrCmd 0 0 2 reqTest s)

/-- MODE_REQ_SLEEP (R341). -/
def execModeReqSleep (fn : Nat) (s : State) : Out := .next (hostWrite fn .pwrCmd 0 0 0 reqSleep s)

/-- The effect of a MODE_REQ value; SOFT_RST is the register's other bit (R336, R337). -/
def pwrCmdWrite (v : W32) (s : State) : State :=
  if v.toNat / 256 % 2 = 1 then softReset s
  else match v.toNat % 8 with
    | 0 => reqSleep s
    | 2 => reqTest s
    | 3 => reqIdle s
    | 5 => reqShow s
    | 7 => reqSafe s
    | _ => modeErr s

/-- MODE_TRANSITION_DONE (R337): the running transition reaches its time. -/
def execModeTransitionDone (s : State) : Out :=
  match s.pwr.trans with
  | none => .next s
  | some t =>
    if t.afterSet then .next s
    else
      let s := advance t.due s
      if t.target = 0 then .next (powerDown s)
      else if t.target = 7 then .next (arriveSafe t.cause s)
      else if t.target = 2 then .next (startSet 4 (selBlocks s) (enterMode 2 s))
      else
        let s := { s with pwr := { s.pwr with gated := [], selfRef := false } }
        let s := if mode s = 7 then put fld.safeCause.SAFE_CAUSE 0 s else s
        .next (enterMode t.target s)

/-! ## Release from reset (R342, R355, R356, R361) -/

/-- Outward time starts from the slow time (R341). -/
def startTime (s : State) : State :=
  let t := s.pwr.slow / slowTick * slowTick
  { s with ot := BitVec.ofNat 64 (t / 64), otFrac := BitVec.ofNat 48 (t % 64 * 2 ^ 42) }

/-- An OTP word. -/
def otpWord (s : State) (a : Nat) : W32 := Map.get (fun _ => 0) s.otp a

/-- A word of OTP fails its check, or an OTP_GO is refused: counted and raised (R351, R361). -/
def otpFault (s : State) : State := raise0 118 (put fld.otpCtrl.OTP_ERR 1 (bump .otpErr s))

/-- A factory trim mirrored from OTP; a word that fails its check is loaded at mid-range and reported. -/
def loadTrim (i : Nat) (s : State) : State :=
  let w := otpWord s (64 + i)
  if Config.trimCheck i w then put fld.fact.FACT w.toNat s i
  else otpFault (put fld.fact.FACT (Config.trimMid i).toNat s i)

/-- The factory trims mirrored from OTP (R361). -/
def loadTrims (s : State) : State := forEach (List.range 60) loadTrim s

/-! ## OTP and life cycle (R349 to R352) -/

/-- Whether OTP_GO may program a word now: IDLE, Table 13-1, and a key slot whose words are all zero. -/
def otpMay (s : State) (a : Nat) : Bool :=
  let lc := get s fld.lcState.LC_STATE
  mode s == 3 &&
    (if 20 ≤ a ∧ a < 56 then
       (lc == 1 || lc == 2) && (List.range 12).all (fun k => otpWord s ((a - 8) / 12 * 12 + 8 + k) == 0)
     else if 56 ≤ a ∧ a ≤ 58 then lc == 1 || lc == 2
     else if 64 ≤ a ∧ a < 256 then decide (lc ≤ 1)
     else false)

/-- The effect of OTP_GO. -/
def otpProgram (s : State) : State :=
  let a := get s fld.otpAddr.OTP_ADDR
  if otpMay s a then
    put fld.otpCtrl.OTP_ERR 0 { s with otp := Map.set (fun _ => 0) s.otp a (otpWord s a ||| rd s .otpData) }
  else otpFault s

/-- OTP_GO (R351). -/
def execOtpGo (fn : Nat) (s : State) : Out := .next (hostWrite fn .otpCtrl 0 0 1 otpProgram s)

/-- Whether the bytes at an address are an unlock record: signed under the RMA key, and naming this die. The manual
does not give the record's form. -/
def unlockOk (s : State) (v : W32) : Bool :=
  Config.unlockRecord Config.rmaKeyHash ((List.range 4).map (fun k => otpWord s (4 + k)))
    (memRead s.fmem (256 * v.toNat) Config.unlockLen)

/-- The effect of LC_REQ: the RMA group is set, and the move takes effect at the next reset. -/
def lcRequest (v : W32) (s : State) : State :=
  if get s fld.lcState.LC_STATE != 2 then lcDenied s
  else if unlockOk s v then raise0 117 { s with otp := Map.set (fun _ => 0) s.otp 3 0xFFFFFFFF }
  else lcDenied s

/-- LC_REQ (R352). -/
def execLcReq (fn : Nat) (v : W32) (s : State) : Out := .next (hostWrite fn .lcReq 0 0 v (lcRequest v) s)

/-! ## User calibration (R362) -/

/-- The effect of a write of a user-calibration register: at once, or held for the next frame instant of CAL_CTRL.FC. -/
def calStore (pf : Bool) (r : RegId) (i : Nat) (v : W32) (s : State) : State :=
  let key := r.key i 0
  let old := rd s r i
  let t := plainWrite pf r i 0 v s
  if decide (4 ≤ mode s) && decide (mode s ≤ 6) && (fclock s (get s fld.calCtrl.FC)).isSome then
    (match Map.find? s.calOld key with
     | some _ => t
     | none => put fld.calStatus.PENDING 1 { t with calOld := Map.put t.calOld key old })
  else
    let t := { t with calOld := Map.del t.calOld key }
    calEffect r i (if t.calOld.isEmpty then put fld.calStatus.PENDING 0 t else t)

/-! ## Counters (R363, R365) -/

/-- A read of CNT_LO_n: the high part is copied with it (R363). -/
def cntLoRead (n : Nat) (s : State) : State × W32 :=
  (put fld.cntHi.HI ((counter s n).toNat / 2 ^ 32) s n, BitVec.ofNat 32 (counter s n).toNat)

/-- CNT_LO_READ (R363). -/
def execCntLoRead (fn n : Nat) (s : State) : Out :=
  if 512 ≤ n then .next s else .next (hostRead fn .cntLo n 0 (cntLoRead n) s)

/-- The effect of CNT_SNAP: all counters copied, with the outward time. -/
def snapCounters (s : State) : State :=
  wr .snapTimeHi (BitVec.ofNat 32 (s.ot.toNat / 2 ^ 32)) (wr .snapTimeLo (BitVec.ofNat 32 s.ot.toNat) { s with snap := s.cnt })

/-- CNT_SNAP (R365). -/
def execCntSnap (fn : Nat) (s : State) : Out := .next (hostWrite fn .cntSnap 0 0 1 snapCounters s)

/-! ## Instruction tagging (R367) -/

/-- The interval of a core between tags: uniform in TAG_PERIOD ÷ 2 up to 3 × TAG_PERIOD ÷ 2. -/
def tagInterval (s : State) (k : Nat) : Nat :=
  let p := get s fld.tagCtrl.TAG_PERIOD
  let d := Config.tagDraw (rd s .tagSeed).toNat k (Map.get (fun _ => 0) s.tagDraws k)
  if p = 0 then 0 else p / 2 + d % p

/-- The tag record of a core's task (Table 13-8). -/
def tagRecord (k : Nat) (t : Task) (stall : BitVec 16) (cause : Byte) (paired predOff : Bool) : List W32 :=
  [t.pc,
   BitVec.ofNat 32 (t.prog.num % 1024 + 2 ^ 10 * (t.ctx % 128) + 2 ^ 17 * (k / 8) + 2 ^ 22 * (k % 8)
     + 2 ^ 25 * paired.toNat + 2 ^ 26 * predOff.toNat),
   BitVec.ofNat 32 (stall.toNat + 2 ^ 16 * cause.toNat),
   t.epoch.getD 0xFFFFFFFF]

/-- Records in the tag ring. -/
def tagOcc (s : State) : Nat :=
  let n := 2 ^ get s fld.tagCtrl.TAG_LOG2
  (get s fld.tagTail.TAG_TAIL + n - get s fld.tagHead.TAG_HEAD % n) % n

/-- A tag record written, or dropped where the ring is full or lies in no allocation. -/
def tagWrite (ws : List W32) (s : State) : State :=
  let n := 2 ^ get s fld.tagCtrl.TAG_LOG2
  let tail := get s fld.tagTail.TAG_TAIL
  let base := (rd s .tagBase).toNat * 256
  let o := tagOcc s
  if n ≤ o + 1 || (allocAt s base (16 * n)).isNone then
    raise0 121 (setBit fld.tagStatus.TAG_STATUS 1 (bump .tagLost s))
  else
    let s := bump .tagTaken (fmemPut (base + 16 * tail) (wordBytes ws) s)
    let s := put fld.tagTail.TAG_TAIL ((tail + 1) % n) s
    if crosses o (tagOcc s) (get s fld.tagLevel.TAG_LEVEL) then raise0 120 (setBit fld.tagStatus.TAG_STATUS 0 s) else s

/-- TAG_SAMPLE (R367): a core whose interval has passed tags the instruction it issues next. -/
def execTagSample (core : Nat) (stall : BitVec 16) (cause : Byte) (paired predOff : Bool) (s : State) : Out :=
  match taskOn s core with
  | none => .next s
  | some t =>
    if !on s fld.tagCtrl.TAG_EN || decide (Map.get (fun _ => 0) s.tagCount core < tagInterval s core) then .next s
    else
      let s := { s with
        tagCount := Map.del s.tagCount core
        tagDraws := Map.set (fun _ => 0) s.tagDraws core (Map.get (fun _ => 0) s.tagDraws core + 1) }
      .next (tagWrite (tagRecord core t stall cause paired predOff) s)

/-- The effect of a write of TAG_CTRL: tagging that starts counts from here. -/
def tagCtrlWrite (pf : Bool) (v : W32) (s : State) : State :=
  let was := on s fld.tagCtrl.TAG_EN
  let s := plainWrite pf .tagCtrl 0 0 v s
  if !was && on s fld.tagCtrl.TAG_EN then { s with tagCount := [], tagDraws := [] } else s

/-! ## Bandwidth windows (R368) -/

/-- The end of a port's running window. -/
def bwEnd (s : State) (p : Nat) : Option W64 :=
  let v := portOf s p
  if on s fld.bwCtrl.BW_MODE p then
    (fclock s (get s fld.bwCtrl.BW_FC p)).map (fun f => f.inst (f.next v.bwAt))
  else
    let w := get s fld.bwCtrl.BW_WIN_US p * 1000
    if w = 0 || 1000000000 < w then none else some (BitVec.ofNat 64 ((v.bwAt.toNat / w + 1) * w))

/-- The fields of a completed window. -/
def bwClose (p : Nat) (fin : W64) (s : State) : State :=
  let v := portOf s p
  let tx := fun c => Map.get (fun _ => 0) v.bwTx c
  let total := ((List.range 8).map tx).sum
  let s := forEach (List.range 8) (fun c t => wr .txBytes (BitVec.ofNat 32 (tx c)) t p c) s
  let s := wr .bwSeq (rd s .bwSeq p + 1) (wr .rxBytes (BitVec.ofNat 32 v.bwRx) s p) p
  let s := if (rd s .peakTx p).toNat < total then wr .peakTx (BitVec.ofNat 32 total) s p else s
  let s := setPort p { v with bwTx := [], bwRx := 0, bwAt := fin } s
  let limit := get s fld.bwLimit.BW_LIMIT p
  if limit != 0 && decide (limit < total) then raise 122 p s else s

/-- BW_WINDOW_END (R368). -/
def execBwWindowEnd (p : Nat) (s : State) : Out :=
  if !portPresent s.member p || 32 ≤ p || !on s fld.bwCtrl.BW_EN p then .next s
  else match bwEnd s p with
    | none => .next s
    | some fin => .next (bwClose p fin (advance fin s))

/-- The effect of a write of BW_CTRL: counting that starts, or whose windows change, starts a window. -/
def bwCtrlWrite (pf : Bool) (p : Nat) (v : W32) (s : State) : State :=
  let old := rd s .bwCtrl p
  let s := plainWrite pf .bwCtrl p 0 v s
  if rd s .bwCtrl p = old then s else setPort p { portOf s p with bwTx := [], bwRx := 0, bwAt := s.ot } s

end Sys2Proof.Machine
end

