-- ==== Sys2Proof/Machine/Render.lean ====
section
/-!
DEFINITION. Writes of the registers that hold render state, the blocks that an active twin journals (R314): the effect
of each register's write, as a host's write and a standby's REGW record both have it.
-/

namespace Sys2Proof.Machine

/-- SVC of SCHED is written only in IDLE (Table 4-10). -/
def schedWrite (pf : Bool) (v : W32) (s : State) : State :=
  let svc := get s fld.sched.SVC
  let s := plainWrite pf .sched 0 0 v s
  if mode s = 3 then s else put fld.sched.SVC svc s

/-- The canvas that a kind 1 or 2 template belongs to. -/
def tmplCanvas (s : State) (n : Nat) : Option Nat :=
  if (tmplKind s n == 1 || tmplKind s n == 2) && decide ((rd s .tmplSrc n).toNat < 64) then some (rd s .tmplSrc n).toNat
  else none

/-- A canvas whose templates have changed: it is not quiet, and its rest ends (R142, R143). -/
def stirCanvas (c : Nat) (s : State) : State := endRest c (setCanvas c { canvasOf s c with noisy := true } s)

/-- Whether a binding is refused (Table 4-4): an unassigned KIND, or a descriptor that the KIND does not allow. DESIGN CHOICE
(log 113): CLASS, EMODE and the program's privilege are judged when KIND is written, on the descriptor as it then stands, and
again at each release. -/
def kindRefused (s : State) (n : Nat) : Bool :=
  let d := tmplDesc s n
  match tmplKind s n with
  | 3 => !dFirm d
  | 5 => !dFirm d
  | 4 => dEmode d != 2
  | 6 => !on s fld.progCtrl.SVC (dProg d)
  | k => decide (8 < k)

/-- A write of a template's descriptor, KIND or SRC (R97, R99, R143). -/
def tmplWrite (pf : Bool) (r : RegId) (n j : Nat) (v : W32) (s : State) : State :=
  let t := plainWrite pf r n j v s
  let t := if r = .tmplBind then
      (let u := put fld.tmplBind.ERR 0 t n
       if kindRefused u n then tmplErr n u else u)
    else t
  if rd t r n j = rd s r n j then t
  else
    let cs := ((tmplCanvas s n).toList ++ (tmplCanvas t n).toList).dedup
    forEach cs stirCanvas t

/-- A program load (R49): what a host loads has no service privilege (R20). -/
def progWrite (pf : Bool) (r : RegId) (n : Nat) (v : W32) (s : State) : State :=
  put fld.progCtrl.SVC 0 (plainWrite pf r n 0 v s) n

/-- Whether an enabled plane names a stream ring (R171). -/
def ringNamed (s : State) (r : Nat) : Bool :=
  (List.range 64).any (fun c => on s fld.canvasCtrl.EN c && (List.range 4).any (fun p =>
    eff s fld.planeCtrl.EN c p == 1 && eff s fld.planeCtrl.STREAM c p == r))

/-- The effect of a write of a register of the scheduler, frame, Glaze and endpoint blocks, the universe records and the
endpoint table by a function. -/
def renderEffect (fn : Nat) (r : RegId) (i j : Nat) (v : W32) (s : State) : State :=
  let pf := isPf fn
  match r with
  | .sched => schedWrite pf v s
  | .schedCancel => cancelWrite fn v false s
  | .schedKick => kickSched fn v s
  | .ctxCtrl => ctxWrite pf i v s
  | .ctxQuotaSlots | .ctxQuotaMl => wakeSpawners (refreshCtx i (plainWrite pf r i j v s))
  | .progBase | .progLen | .progCtrl | .progEntry => progWrite pf r i v s
  | .tmplDesc | .tmplBind | .tmplSrc => tmplWrite pf r i j v s
  | .fcCtrl => fcCtrlEffect pf i v s
  | .fcPhase => fcPhaseEffect pf i v s
  | .canvasCtrl => canvasCtrlWrite pf i v s
  | .canvasWidth | .canvasHeight => geometryWrite pf r i v s
  | .commitLead | .latchGuard | .refresh | .glzCfg | .gainBase | .gainStride | .planeCtrl | .planeSrc | .planeSize
  | .planeDx | .planeDy | .planeAdv | .planeCut => shadowWrite pf r i j v s
  | .vatCmd => vatCmdWrite i v s
  | .mordData => mordStore v s
  | .vringBase | .lineStride | .vsize | .ringFmt | .frameNs => if ringNamed s i then s else plainWrite pf r i j v s
  | .drvBase => baseWrite false v s
  | .stblBase => baseWrite true v s
  | .epFltClr => faultsToUnproven (v.toNat % 131072) s
  | .epDrvKick => kickWrite (v.toNat % 8192) s
  | .epBlackout => blackoutWrite v s
  | .viewBase => viewEffect pf i false v s
  | .viewN => viewEffect pf i true v s
  | .kg => if i = 0 then s else kgWrite pf i v s
  | .univCtrl => univWrite pf i v s
  | .etabWord => etabWordWrite i j v s
  | _ => plainWrite pf r i j v s

end Sys2Proof.Machine
end

