-- ==== Sys2Proof/Machine/Twin.lean ====
section
/-!
DEFINITION. Twin operation: the lease (R307 to R313), the journal as a standby applies it (R314 to R319, Tables 11-2 and
11-3), time on the standby (R320), takeover (R321), the state copy (R323 to R325), the twin registers (R304, R327), and
the commit row, which on a standby waits for its COMMIT record (R130, R316).
-/

namespace Sys2Proof.Machine

/-! ## The beat (R307) -/

/-- The lease frame clock, if it runs. -/
def leaseClock (s : State) : Option FClock := fclock s (get s fld.twinCtrl.LFC)

/-- A beat's instant, the lease period in beats later. -/
def leaseAfter (s : State) (f : FClock) (b : W64) : W64 := f.inst (b + BitVec.ofNat 64 (get s fld.twinCtrl.LEASE_N))

/-- The lease period in nanoseconds: LEASE_N frame periods of LFC. -/
def leasePeriod (s : State) : W64 := BitVec.ofNat 64 (get s fld.twinCtrl.LEASE_N * fcPeriod s (get s fld.twinCtrl.LFC))

/-- A holder renews at beat `b`: RENEW, a toggle of LEASE_OUT, and its lease extended (R307). -/
def renewAt (f : FClock) (b : W64) (s : State) : State :=
  let payload := leBytes 8 b.toNat ++ leBytes 8 s.ot.toNat ++ [BitVec.ofNat 8 (actDom s), 0, 0, 0]
    ++ leBytes 8 s.twn.echo3.toNat ++ leBytes 8 s.twn.echo4.toNat
  let s := put fld.twinStatus.LEASE 1 (sendRecord 0x00 payload s)
  { s with twn := { s.twn with out := !s.twn.out, leaseEnd := leaseAfter s f b, renewed := some b } }

/-- A lapsed holder gives up the show: WAIT, and then IDLE (R309). -/
def lapseToIdle (s : State) : State := beginTrans 3 false (lapse s)

/-- Whether the commits of a holder have stopped: a running canvas is a whole frame period past a commit instant at which it
has not committed (R309; log 132). -/
def commitsStopped (s : State) : Bool :=
  (runningCanvases s).any (fun c =>
    decide (timeDiff s.ot (commitInst s c (rmEp s c)) ≥ (periodAt s (canvasFc s c) (rmEp s c) : Int)))

/-- LEASE_RENEW (R307): the first beat not yet renewed that outward time has reached or reaches next. A holder whose commits
have stopped lapses there (R309). -/
def execLeaseRenew (s : State) : Out :=
  match leaseClock s, s.twn.renewed with
  | some f, some r =>
    if role s != 2 || !on s fld.twinStatus.LEASE then .next s
    else
      let c := f.cur s.ot
      let b := if timeDiff c (r + 1) ≥ 0 then c else r + 1
      let t := advance (f.inst b) s
      if timeDiff (f.inst b) s.twn.leaseEnd ≥ 0 then .next s
      else .next (if commitsStopped t then lapseToIdle t else renewAt f b t)
  | _, _ => .next s

/-- LEASE_LAPSE (R309): outward time reaches the end of the lease. -/
def execLeaseLapse (s : State) : Out :=
  if role s != 2 || !on s fld.twinStatus.LEASE then .next s else .next (lapseToIdle (advance s.twn.leaseEnd s))

/-- The TERM of a WAIT device that becomes ACTIVE without a peer: 1, or the next one where it held the lease under TERM 1
before, under which it never renews again (R306, R309; log 131). -/
def loneTerm (s : State) : W32 := if rd s .term = 1 then 2 else 1

/-- A WAIT device takes the lease with no peer (R306): ACTIVE, its TERM, the lease from the present beat, and SHOW. -/
def becomeActive (s : State) : State :=
  match leaseClock s with
  | none => s
  | some f =>
    let s := wr .term (loneTerm s) (setRole 2 s)
    beginTrans 5 false (renewAt f (f.cur s.ot) s)

/-- WAIT_TIMEOUT (R306): one lease period in WAIT without a RENEW, with PRIMARY = 1. -/
def execWaitTimeout (s : State) : Out :=
  if role s != 1 || mode s != 3 || busy s || !on s fld.twinCtrl.PRIMARY || (leaseClock s).isNone then .next s
  else .next (becomeActive (advance (s.twn.since + leasePeriod s) s))

/-! ## Proofs of life (R310, R311, R382) -/

/-- LEASE_IN_EDGE (R382). -/
def execLeaseInEdge (at_ : W64) (s : State) : Out :=
  let s := advance at_ s
  if role s = 0 then .next s
  else
    let was := on s fld.twinStatus.WIRE
    let s := put fld.twinStatus.WIRE 1 { s with twn := { s.twn with edge := some s.ot } }
    .next (if was then s else twinEvent 1 97 noDetail s)

/-- WIRE_SILENT (R311). -/
def execWireSilent (s : State) : Out :=
  match s.twn.edge with
  | none => .next s
  | some t =>
    if !on s fld.twinStatus.WIRE || role s = 0 then .next s
    else .next (twinEvent 1 97 noDetail (put fld.twinStatus.WIRE 0 (advance (t + leasePeriod s) s)))

/-- A twin lane up or down: the link is up while one lane is, and a standby that loses it while the wire beats is STALE
(R303, R311). -/
def twinLaneTo (lane : Nat) (up : Bool) (s : State) : State :=
  let was := twinLink s
  let s := put (if lane = 0 then fld.twinStatus.LINK0 else fld.twinStatus.LINK1) (if up then 1 else 0) s
  if role s = 0 || was == twinLink s then s
  else
    let s := if was && standby s && on s fld.twinStatus.WIRE then put fld.twinStatus.STALE 1 s else s
    twinEvent 0 96 noDetail s

/-- TWIN_LINK_CHANGE (R303). -/
def execTwinLinkChange (lane : Nat) (up : Bool) (s : State) : Out := .next (twinLaneTo lane up s)

/-! ## COPY entered (R306, R312, R323) -/

/-- The allocations and layers given up, with their imports, fences and status registers. -/
def dropLayers (s : State) : State :=
  { s with
    regs := s.regs.filter (fun x => x.1 % 512 != RegId.layerStatus.num && x.1 % 512 != RegId.layerVersion.num
      && x.1 % 512 != RegId.layerDoneEpoch.num)
    hst := { s.hst with allocs := [], layers := [], imports := [], gone := [], fenceNext := [], fences := [] } }

/-- COPY entered or started again: the device's own picture ends, and nothing of a copy has come yet: what the copy gives
beside the registers, which it gives whole, is empty (R323). Outward time follows the active from here on (R320). -/
def enterCopy (s : State) : State :=
  let s := dropLayers (setRole 3 (disableAll (leaseGone s)))
  let s := put fld.twinStatus.DIVERGED 0 (put fld.twinStatus.STALE 0 s)
  let s := put fld.timeStatus.SWITCHING 0 (put fld.timeStatus.HOLDOVER 0 s)
  let v := { s.vat with inputs := [], versions := [], waiting := [] }
  let t := { s.twn with runs := [], wait := [], buffered := [], handAt := none, takeAt := none, acks := [], origin := [] }
  wr .copyDone 0 { s with
    vat := v, inForce := [], glz := { s.glz with mord := [] }, epg := { s.epg with stage := [] }
    twn := { t with copyLost := false, copyFrom := none, copied := 0, meas := 0 } }

/-- Outward time follows the domain that R218 selects (R320). -/
def followDomain (s : State) : State := if tracks s (actDom s) then startSwitch (actDom s) s else loseFollowed s

/-- WAIT entered from a standby role: every canvas disabled, and IDLE (R311). -/
def standbyToWait (s : State) : State := beginTrans 3 false (disableAll (followDomain (setRole 1 (leaseGone s))))

/-! ## Digests (R318, R319) -/

/-- A CATCHUP standby is in step (R319). -/
def instepCheck (s : State) : State :=
  let cs := (List.range 64).filter (fun c => on s fld.canvasCtrl.EN c)
  if role s = 4 && s.twn.wait.isEmpty && s.twn.buffered.isEmpty
      && cs.all (fun c => decide (get s fld.twinCtrl.DIGEST_N ≤ Map.get (fun _ => 0) s.twn.runs c)) then
    twinEvent 6 102 noDetail (setRole 5 s)
  else s

/-- The digest of the standby's slot compared with the active's (R318). -/
def judgeDigest (c : Nat) (e digest : W32) (s : State) : State :=
  match epochRec s c e with
  | none => s
  | some r =>
    if slotDigest r = digest then
      { s with twn := { s.twn with runs := Map.put s.twn.runs c (Map.get (fun _ => 0) s.twn.runs c + 1) } }
    else
      let s := { s with twn := { s.twn with runs := Map.put s.twn.runs c 0 } }
      let s := wr .divergeEpoch e (put fld.divergeCanvas.DIVERGE_CANVAS c (put fld.twinStatus.DIVERGED 1 s))
      let s := twinEvent 3 99 c (bump .diverges s)
      if on s fld.twinCtrl.AUTO_RESYNC && role s == 5 then enterCopy s else s

/-! ## The standby's commits (R314, R316) -/

/-- Whether a waiting COMMIT has every tile that the active did not fill. -/
def tilesDone (s : State) (w : ShadowWait) : Bool :=
  w.miss || (unfinishedTiles s w.canvas w.epoch).all (fun n => w.tiles.contains (BitVec.ofNat 32 n))

/-- The commit that a COMMIT record calls for: as a miss where it says so, the listed and unfinished tiles filled. -/
def commitAs (c : Nat) (miss : Bool) (tiles : List W32) (s : State) : State :=
  let s := fixSlots c (releaseUp c 9 (endCopies c s))
  let agree := match halves s c with
    | a :: b :: _ => pairAgrees s (fun f x => get s f x) a b
    | _ => true
  let x := commitEnv c agree s
  let s := if miss && (halves s c).head? == some c then raise 33 c (bump .commitMiss x.2) else x.2
  commitHalf c { x.1 with miss := miss } (tiles.map (fun t => t.toNat)) s

/-- The waiting COMMIT carried out, with its digest. -/
def commitWaiting (w : ShadowWait) (s : State) : State :=
  let s := { s with twn := { s.twn with wait := s.twn.wait.drop 1 } }
  if !canvasRuns s w.canvas || rmEp s w.canvas != w.epoch then s
  else judgeDigest w.canvas w.epoch w.digest (selActs (commitAs w.canvas w.miss w.tiles s))

/-- The waiting COMMIT carried out where its tiles are complete and its commit instant has come. -/
def tryCommit (s : State) : State :=
  match s.twn.wait with
  | [] => s
  | w :: _ =>
    if !canvasRuns s w.canvas || rmEp s w.canvas != w.epoch then commitWaiting w s
    else if timeDiff s.ot (commitInst s w.canvas w.epoch) ≥ 0 && tilesDone s w then commitWaiting w s
    else s

/-! ## Journal records (Table 11-3) -/

/-- JSEQ applied. -/
def applied (h : JHead) (s : State) : State := wr .jseqRx h.jseq s

/-- COMMIT: the listed tiles stop, and the commit waits for the rest, counted from the record's arrival (R316). -/
def applyCommit (miss : Bool) (c : Nat) (e digest : W32) (tiles : List W32) (at_ : W64) (s : State) : State :=
  let s1 := forEach ((allTasks s).filter (fun t => stopsAt c e t &&
    tiles.contains (BitVec.ofNat 32 (tileNo s c (dRow t.desc) (dCol t.desc))))) (fun t u => finish t 3 0 0 0 u) s
  tryCommit { s1 with twn := { s1.twn with wait := s1.twn.wait ++ [⟨c, e, digest, miss, tiles, at_⟩] } }

/-- The input that a CHANGE record names. -/
def recKey (id : W32) (ctx : Nat) : InKey :=
  let k := id.toNat / 2 ^ 28
  ⟨k, if k = 1 || k = 8 then ctx else 0, id.toNat % 2 ^ 28⟩

/-- The target that a CHANGE record carries. -/
def recTarget (s : State) (tmode : Byte) (target : W64) : ATarget :=
  let c := tmode.toNat / 4
  let e : W32 := BitVec.ofNat 32 target.toNat
  match tmode.toNat % 4 with
  | 1 => .epoch c e (instOf s (canvasFc s c) e)
  | 2 => .time target
  | _ => .arrival

/-- CHANGE: the change takes the active's version; a version that the standby already has is not taken again. -/
def applyChange (k : InKey) (value version : W32) (g : ATarget) (s : State) : State :=
  if epochDiff version (newestVersion s k) ≤ 0 then s
  else
    let s := setVersion k (version - 1) s
    let s := if k.kind = 6 then put fld.kg.KILLED (value.toNat % 2) s k.idx else s
    logChange k value 0 g s

/-- A journaled cancel: the standby's own task with the identity that the record carries (R317). -/
def applyCancel (v : W32) (task : Option TaskRef) (s : State) : State :=
  match task with
  | none => s
  | some x =>
    match (allTasks s).find? (fun t => t.ctx == v.toNat / 65536 % 128 && taskRef s t == some x) with
    | some t => cancelBy t.st t s
    | none => s

/-- REGW: the register's write by the function that made it. -/
def applyRegw (off : Nat) (v : W32) (fn : Nat) (task : Option TaskRef) (s : State) : State :=
  match regAt off with
  | some r =>
    if !journaled off || absentReg s r.id r.i then s
    else if r.id = .schedCancel then applyCancel v task s
    else renderEffect fn r.id r.i r.j v s
  | none => s

/-- What a journaled command changes, without its ring. -/
def cmdState (s : State) (e : CmdEnd) : State :=
  match e with
  | .runs t => t
  | .waits => s
  | .ends _ _ t => t

/-- ALLOC takes the address of its record (R317). -/
def applyAlloc (c size base : Nat) (s : State) : State :=
  if !mibFree s base size then s
  else refreshCtx c (fmemZero (base * 1048576) (size * 1048576)
    { s with hst := { s.hst with allocs := s.hst.allocs ++ [⟨base, size, c, none⟩] } })

/-- IMPORT: the change of the layer to the buffer that its LAYER records filled. -/
def applyImport (c n : Nat) (t : Tgt) (s : State) : State :=
  match layerOf s n, parseTarget s c t with
  | some l, some g =>
    (match importsOf s n with
     | i :: _ => logChange ⟨7, 0, n⟩ (layerValue l) i.buf g (put fld.layerStatus.STALE 0 (endImport i s) n)
     | [] => s)
  | _, _ => s

/-- CMD: the command with the outcome that its record gives (R314, R317). -/
def applyCmd (jseq : W32) (entry cpl : List W32) (s : State) : State :=
  let w := fun k => entry.getD k 0
  let w0 := (w 0).toNat
  let c := w0 / 256 % 128
  let h : Cmd := ⟨0, BitVec.ofNat 16 (w0 / 65536), BitVec.ofNat 7 c⟩
  let t345 : Tgt := ⟨w 3, w 4, w 5⟩
  match w0 % 256 with
  | 0x01 => noteOrigin 1 s.sch.nextId jseq (cmdState s (cmdTask h (eightWords (entry.drop 8)) s))
  | 0x02 => cmdState s (cmdCue h (w 1) (w 2) t345 s)
  | 0x10 => applyAlloc c (w 1).toNat ((cpl.getD 1 0).toNat / 4096) s
  | 0x11 => cmdState s (cmdRetire h (w 1) s)
  | 0x20 => cmdState s (cmdLayerNew h (w 1) (w 2) (w 3) (w 4) (w 5) s)
  | 0x21 => cmdState s (cmdLayerSet h (w 1) (w 2) t345 s)
  | 0x22 => applyImport c (w 1).toNat ⟨w 5, w 6, w 7⟩ s
  | 0x23 => cmdState s (cmdLayerDel h (w 1) s)
  | _ => s

/-- LAYER: a chunk of an import; the last one ends an AUTO import, and is kept for the CMD record of another. -/
def applyLayer (last : Bool) (n : Nat) (buf off : W32) (data : List Byte) (s : State) : State :=
  let s := fmemPut (buf.toNat * 256 + off.toNat) data s
  if !last then s
  else match layerOf s n with
    | none => s
    | some l =>
      match importsOf s n with
      | i :: _ =>
        let s := put fld.layerStatus.STALE 0 (endImport i s) n
        logChange ⟨7, 0, n⟩ (layerValue l) buf i.target (wr .layerDoneEpoch i.epoch s n)
      | [] => startImport ⟨n, buf, 0, 0, none, [], .arrival, 0⟩ s

/-- EPSTATE: the endpoint's status and string states (Table 7-18). Where the worst state is not UNPROVEN, a string shown as
UNPROVEN is one that has not been reported. -/
def applyEpstate (e : Nat) (status : List W32) (strings : W64) (s : State) : State :=
  let w := fun k => (status.getD k 0).toNat
  let all := (List.range 32).map (fun i => (i, strings.toNat / 4 ^ i % 4))
  let codes := if w 0 % 4 = 1 then all else all.filter (fun y => y.2 != 1)
  let x := epOf s e
  let x : EpSt := { x with
    miss := w 0 / 4 % 2 == 1, lost := w 0 / 8 % 2 == 1, cut := w 0 / 16 % 2 == 1
    temp := w 0 / 256 % 256, m := w 0 / 65536
    strs := codes
    epoch := status.getD 3 0, misses := w 4 % 65536 }
  let s := if rd s .stblBase = 0 then s
    else fmemPut ((rd s .stblBase).toNat * 256 + 32 * e) (wordBytes (eightWords status)) s
  setEp e x s

/-- HANDOVER: a standby in step acquires at the next beat (R313). -/
def applyHandover (b : W64) (s : State) : State :=
  match leaseClock s with
  | some f => if role s = 5 then { s with twn := { s.twn with handAt := some (f.inst (b + 1)) } } else s
  | none => s

/-- A journal record applied. -/
def applyRecord (x : JHeld) (s : State) : State :=
  let h := x.head
  match x.body with
  | .commit m c e d ts => applyCommit m c e d ts x.at_ (applied h s)
  | .change id ctx tm v ver tg => applyChange (recKey id ctx) v ver (recTarget s tm tg) (applied h s)
  | .regw off v fn t => applyRegw off v fn t (applied h s)
  | .cmd e c => applyCmd h.jseq e c (applied h s)
  | .memw a d => fmemPut (a.toNat * 4) d (applied h s)
  | .layer l n b o d => applyLayer l n b o d (applied h s)
  | .epstate e st ss => applyEpstate e st ss (applied h s)
  | .handover b => applyHandover b (applied h s)
  | .passed => applied h s

/-- Bytes of a record in the journal buffer, as on the link (Table 11-2); one that only keeps its place takes none. -/
def recordBytes (x : JRec) : Nat :=
  match x with
  | .passed => 0
  | _ =>
  16 + (match x with
    | .commit _ _ _ _ ts => 16 + 4 * ts.length
    | .change .. => 24
    | .regw _ _ _ t => 12 + (refBytes t).length
    | .cmd e c => 4 * e.length + 4 * c.length
    | .memw _ d => 8 + d.length
    | .layer _ _ _ _ d => 16 + d.length
    | .epstate .. => 44
    | .handover _ => 8
    | .passed => 0)

/-- The distance of a record from the next one to apply, in the order of JSEQ, which wraps (R314). -/
def jseqAhead (s : State) (h : JHead) : Int := epochDiff h.jseq (rd s .jseqRx + 1)

/-- A record put among the held ones in the order of JSEQ; one that is held already is not taken again. -/
def holdIn (x : JHeld) : List JHeld → List JHeld
  | [] => [x]
  | y :: r =>
    if epochDiff x.head.jseq y.head.jseq < 0 then x :: y :: r
    else if x.head.jseq = y.head.jseq then y :: r
    else y :: holdIn x r

/-- Held records applied in the order of JSEQ until one waits or is missing (R314, R316). -/
def drain : List JHeld → State → State
  | [], s => s
  | x :: r, s =>
    if !(role s == 4 || role s == 5) then s
    else if !s.twn.wait.isEmpty || decide (jseqAhead s x.head > 0) then { s with twn := { s.twn with buffered := x :: r } }
    else if jseqAhead s x.head < 0 then drain r s
    else drain r (applyRecord x s)

/-- What is buffered goes on, and a standby that is then in step says so. -/
def pump (s : State) : State :=
  if s.twn.wait.isEmpty then instepCheck (drain s.twn.buffered { s with twn := { s.twn with buffered := [] } }) else s

/-- A record added to the journal buffer; one that fills it during a copy ends the copy, which with AUTO_RESYNC starts again
from a P at or after the record (R324). -/
def bufferRecord (x : JHeld) (s : State) : State :=
  let q := holdIn x s.twn.buffered
  if role s = 3 && decide (get s fld.jbufMib.JBUF_MIB * 1048576 < (q.map (fun y => recordBytes y.body)).sum) then
    let s := twinEvent 7 103 noDetail (bump .copyAbort s)
    let s := if on s fld.twinCtrl.AUTO_RESYNC then enterCopy s
      else { s with twn := { s.twn with buffered := [], copyLost := true } }
    { s with twn := { s.twn with copyFrom := some x.head.cpos } }
  else { s with twn := { s.twn with buffered := q } }

/-- A journal record that arrives: held until the copy is complete, while a COMMIT waits, and while an earlier JSEQ is missing,
else applied; one that has been applied is not taken again (R314). -/
def receive (h : JHead) (x : JRec) (s : State) : State :=
  let y : JHeld := ⟨h, x, s.ot⟩
  if role s = 3 then (if s.twn.copyLost then s else bufferRecord y s)
  else if role s = 4 || role s = 5 then
    (if jseqAhead s h < 0 then s
     else if s.twn.wait.isEmpty && s.twn.buffered.isEmpty && decide (jseqAhead s h = 0) then instepCheck (applyRecord y s)
     else pump (bufferRecord y s))
  else s

/-- COMMIT_RECORD (R316). -/
def execCommitRecord (h : JHead) (miss : Bool) (c : Nat) (e digest : W32) (tiles : List W32) (s : State) : Out :=
  .next (receive h (.commit miss c e digest tiles) s)

/-- CHANGE_RECORD (R314). -/
def execChangeRecord (h : JHead) (id : W32) (ctx : Nat) (tmode : Byte) (value version : W32) (target : W64) (s : State) :
    Out := .next (receive h (.change id ctx tmode value version target) s)

/-- REGW (R314, R317). -/
def execRegw (h : JHead) (off : Nat) (v : W32) (fn : Nat) (task : Option TaskRef) (s : State) : Out :=
  .next (receive h (.regw off v fn task) s)

/-- CMD_RECORD (R314, R317). -/
def execCmdRecord (h : JHead) (entry cpl : List W32) (s : State) : Out := .next (receive h (.cmd entry cpl) s)

/-- MEMW (R314). -/
def execMemw (h : JHead) (addr4 : W64) (data : List Byte) (s : State) : Out := .next (receive h (.memw addr4 data) s)

/-- LAYER_RECORD (R314): the version that the record carries is the one that the change takes here. -/
def execLayerRecord (h : JHead) (last : Bool) (layer : Nat) (_version buf off : W32) (data : List Byte) (s : State) : Out :=
  .next (receive h (.layer last layer buf off data) s)

/-- EPSTATE (R314). -/
def execEpstate (h : JHead) (e : Nat) (status : List W32) (strings : W64) (s : State) : Out :=
  .next (receive h (.epstate e status strings) s)

/-- HANDOVER (R313). -/
def execHandover (h : JHead) (b : W64) (s : State) : Out := .next (receive h (.handover b) s)

/-- COMMIT (R130): at C(E). A standby commits only an epoch whose COMMIT record it has applied (R314, R316). -/
def execCommit (c : Nat) (s : State) : Out :=
  if 64 ≤ c || !canvasRuns s c then .next s
  else if standby s then
    (match s.twn.wait with
     | w :: _ => if w.canvas = c then .next (pump (tryCommit (advance (commitInst s c (rmEp s c)) s))) else .next s
     | [] => .next s)
  else .next (commitNow (halves s c) (advance (commitInst s c (rmEp s c)) s))

/-- SHADOW_WAIT_EXPIRE (R316): the wait for tiles ends, and those still missing are filled. -/
def execShadowWaitExpire (s : State) : Out :=
  match s.twn.wait with
  | [] => .next s
  | w :: _ =>
    if !standby s then .next s
    else
      let n := get s fld.twinCtrl.SHADOW_WAIT * fcPeriod s (canvasFc s w.canvas)
      let s := advance (commitInst s w.canvas w.epoch) (advance (w.arrived + BitVec.ofNat 64 n) s)
      .next (pump (commitWaiting w s))

/-! ## Time on the standby (R320) -/

/-- One E2E measurement with the active as the domain: offset, delay and one servo step. -/
def twinMeasure (m : Meas) (s : State) : State :=
  let delay := measDelay false m
  let davg := if s.twn.meas = 0 then delay
    else s.twn.delay + (delay - s.twn.delay).tdiv (2 ^ get s fld.annTo.DELAY_SHIFT : Nat)
  let theta := timeDiff m.a m.b * 65536 + davg
  let r := servoStep s theta
  let s := { s with
    tim := { s.tim with acc := r.1, adj := r.2 }
    twn := { s.twn with offset := theta, delay := davg, meas := s.twn.meas + 1 } }
  wr .twinDelay (BitVec.ofInt 32 (davg / 65536)) (wr .twinOffset (BitVec.ofInt 32 (theta / 65536)) s)

/-- The ACK that a standby sends for a RENEW; its t3 is kept until a RENEW echoes it or a later one. -/
def sendAck (s : State) : State :=
  let s := { s with twn := { s.twn with acks := s.twn.acks ++ [s.ot] } }
  sendPlain 0x10 (leBytes 4 (rd s .jseqRx).toNat ++ [BitVec.ofNat 8 (role s), BitVec.ofNat 8 (get s fld.twinStatus.DIVERGED), 0, 0]
    ++ leBytes 8 s.twn.t2.toNat ++ leBytes 8 s.ot.toNat) s

/-- The ACKs sent after the one that a RENEW echoes. -/
def acksAfter (t3 : W64) : List W64 → List W64
  | [] => []
  | a :: r => if a = t3 then r else acksAfter t3 r

/-- A RENEW heard by a standby: the beat, the term, the times, an ACK, and its place in the order of JSEQ. A measurement is
formed where the echoed t3 is that of an ACK sent (R320). -/
def heardRenew (h : JHead) (b t1 t3 t4 : W64) (s : State) : State :=
  let s := { s with twn := { s.twn with beat := some b, termRx := h.term, t2 := s.ot } }
  let s := if t3 != 0 && s.twn.acks.contains t3 then
      twinMeasure ⟨t1, s.ot, t4, t3⟩ { s with twn := { s.twn with acks := acksAfter t3 s.twn.acks } }
    else s
  sendAck (receive h .passed s)

/-- RENEW (R306, R312, R323). -/
def execRenew (h : JHead) (b : W64) (t1 : W64) (_act : Byte) (t3 t4 : W64) (t2 : W64) (s : State) : Out :=
  let s := advance t2 s
  let mine := (rd s .term).toNat
  if mode s = 7 || role s = 0 || role s = 7 then .next s
  else if role s = 1 then
    (if mode s = 3 && !busy s then .next (heardRenew h b t1 t3 t4 (beginTrans 6 false (enterCopy s))) else .next s)
  else if role s = 2 || role s = 6 then
    (if h.term.toNat = mine then .next s
     else
       let s := twinEvent 5 101 noDetail s
       if h.term.toNat < mine then .next s
       else
         let s := enterCopy s
         .next (heardRenew h b t1 t3 t4 (if mode s = 6 then s else beginTrans 6 false s)))
  else .next (heardRenew h b t1 t3 t4 s)

/-- ACK (R320): its departure time and its arrival are kept for the next RENEW; a peer in COPY is sent the copy. -/
def execAck (_h : JHead) (_jseq : W32) (peer : Byte) (_diverged : Bool) (_t2 t3 t4 : W64) (s : State) : Out :=
  let s := advance t4 s
  if role s != 2 then .next s
  else .next { s with twn := { s.twn with
    echo3 := t3, echo4 := t4, copySend := peer == 3 && s.twn.copyQ.isEmpty
    copyQ := if peer == 3 then s.twn.copyQ else [] } }

/-! ## Expiry and takeover (R310, R313, R321) -/

/-- The running canvas whose next commit is earliest among those whose commit instant has passed. -/
def overdue (s : State) : Option Nat :=
  let due := (runningCanvases s).filter (fun c => canCommit s c && decide (timeDiff s.ot (commitInst s c (rmEp s c)) ≥ 0))
  due.foldl (fun best c =>
    match best with
    | none => some c
    | some d => if timeDiff (commitInst s c (rmEp s c)) (commitInst s d (rmEp s d)) < 0 then some c else some d) none

/-- Every commit whose instant has passed, in epoch order. -/
def commitOverdue : Nat → State → State
  | 0, s => s
  | n + 1, s =>
    match overdue s with
    | none => s
    | some c => commitOverdue n (commitAs c false [] s)

/-- A COMMIT that waits carried out with what is there. -/
def endWait (s : State) : State :=
  match s.twn.wait with
  | w :: _ => commitWaiting w s
  | [] => s

/-- What the journal brought before the lease expired takes effect as far as no record is missing, waits ended by fills. -/
def finishJournal : List JHeld → State → State
  | [], s => s
  | x :: r, s =>
    let s := endWait s
    if jseqAhead s x.head > 0 then s
    else if jseqAhead s x.head < 0 then finishJournal r s
    else finishJournal r (applyRecord x s)

/-- The lease acquired (R310): ACQUIRE with the next TERM, then what the journal brought and every commit that is due; the
takeover instant is the first frame instant of LFC at or after one frame period from now. -/
def acquire (f : FClock) (s : State) : State :=
  let s := wr .term (s.twn.termRx + 1) (setRole 6 s)
  let q := s.twn.buffered
  let s := endWait (finishJournal q { s with twn := { s.twn with buffered := [], handAt := none } })
  let s := commitOverdue 2048 s
  let t := s.ot + BitVec.ofNat 64 (fcPeriod s (get s fld.twinCtrl.LFC))
  { s with twn := { s.twn with takeAt := some (f.inst (f.from_ t)) } }

/-- The beat that the expiry of the lease counts from: the last RENEW's, or that of a later edge of LEASE_IN. -/
def lifeBeat (s : State) (f : FClock) : W64 :=
  let b := s.twn.beat.getD (f.cur s.twn.since)
  match s.twn.edge with
  | some t => if timeDiff t (f.inst b) > 0 then f.cur t else b
  | none => b

/-- An expired lease (R310, R311, R325): COPY becomes ORPHAN, a STALE standby that may not take becomes WAIT, another
acquires. -/
def expire (f : FClock) (s : State) : State :=
  if role s = 3 then twinEvent 4 100 noDetail (enterSafe 2 (followDomain (setRole 7 s)))
  else if on s fld.twinStatus.STALE && !on s fld.twinCtrl.STALE_TAKE then standbyToWait s
  else acquire f s

/-- LEASE_EXPIRY (R310, R313). -/
def execLeaseExpiry (s : State) : Out :=
  match leaseClock s with
  | none => .next s
  | some f =>
    if !(role s == 3 || role s == 4 || role s == 5) then .next s
    else match s.twn.handAt with
      | some t => .next (expire f (advance t s))
      | none => .next (expire f (advance (leaseAfter s f (lifeBeat s f)) s))

/-- Every ENP endpoint is due a repair and every universe a send (R321). -/
def wholePicture (s : State) : State :=
  let m := publishedEtab s
  let s := forEach ((validEntries m).filter (fun e => decide (eTransport m e ≤ 1))) (fun e u =>
    setEp e { epOf u e with repair := true } u) s
  { s with epg := { s.epg with univDue := (List.range 8192).filter (fun u => on s fld.univCtrl.EN u) } }

/-- TAKEOVER (R310, R321): at the takeover instant the device is ACTIVE in SHOW. -/
def execTakeover (s : State) : Out :=
  match leaseClock s, s.twn.takeAt with
  | some f, some t =>
    if role s != 6 then .next s
    else
      let s := advance t s
      let s := renewAt f (f.cur s.ot) (setRole 2 { s with twn := { s.twn with takeAt := none } })
      .next (wholePicture (followDomain (enterMode 5 (twinEvent 2 98 noDetail (bump .takeovers s)))))
  | _, _ => .next s

/-! ## The state copy (R323, R324) -/

/-- The starts of the pieces of at most 8,192 bytes of a range. -/
def pieces (base len : Nat) : List Nat := (List.range ((len + 8191) / 8192)).map (fun k => base + 8192 * k)

/-- 8,192 bytes of the journaled blocks as they stand. -/
def blockBytes (s : State) (off : Nat) : List Byte :=
  (List.range 2048).flatMap (fun k =>
    match regAt (off + 4 * k) with
    | some a => leBytes 4 (rd s a.id a.i a.j).toNat
    | none => leBytes 4 0)

/-- The BAR0 offset of a register by its key in the register file. -/
def keyOff (key : Nat) : Nat :=
  match regList.find? (fun r => r.num == key % 512) with
  | some r => r.off (key / 512 / r.desc.n2) (key / 512 % r.desc.n2)
  | none => 0

/-- How a target is named in a copied change: kind, canvas, the epoch or instant, and the epoch's instant. -/
def targetWords : ATarget → List W32
  | .arrival => [0, 0, 0, 0, 0]
  | .epoch c e i => [BitVec.ofNat 32 (1 + 4 * c), e, 0, BitVec.ofNat 32 i.toNat, BitVec.ofNat 32 (i.toNat / 2 ^ 32)]
  | .time t => [2, BitVec.ofNat 32 t.toNat, BitVec.ofNat 32 (t.toNat / 2 ^ 32), 0, 0]
  | .etab => [3, 0, 0, 0, 0]

/-- Two words as a 64-bit number. -/
def join64 (lo hi : W32) : W64 := BitVec.ofNat 64 (lo.toNat + 2 ^ 32 * hi.toNat)

/-- The target that its words name. -/
def wordsTarget (k a b i0 i1 : W32) : ATarget :=
  match k.toNat % 4 with
  | 1 => .epoch (k.toNat / 4) a (join64 i0 i1)
  | 2 => .time (join64 a b)
  | 3 => .etab
  | _ => .arrival

/-- A record of the input log in a copy: kind, context, index, version, value, buffer, target, instant, and the application
epochs by canvas. -/
def changeWords (x : Change) : List W32 :=
  [BitVec.ofNat 32 x.key.kind, BitVec.ofNat 32 x.key.ctx, BitVec.ofNat 32 x.key.idx, x.version, x.value, x.buf]
    ++ targetWords x.target ++ [BitVec.ofNat 32 x.inst.toNat, BitVec.ofNat 32 (x.inst.toNat / 2 ^ 32)]
    ++ x.apps.flatMap (fun y => [BitVec.ofNat 32 y.1, y.2])

/-- A layer in a copy. -/
def layerWords (l : Layer) : List W32 :=
  [BitVec.ofNat 32 l.ctx, BitVec.ofNat 32 l.width, BitVec.ofNat 32 l.height, BitVec.ofNat 32 l.fmt,
   if l.host then 1 else 0, BitVec.ofNat 32 (match l.auto with | some c => c + 1 | none => 0), l.pool, BitVec.ofNat 32 l.nbuf]

/-- A frame clock in a copy: for each stretch its first frame, rate, phase and FBASE. -/
def clockWords (f : FClock) : List W32 :=
  f.segs.flatMap (fun g => [BitVec.ofNat 32 g.start.toNat, BitVec.ofNat 32 (g.start.toNat / 2 ^ 32), BitVec.ofNat 32 g.rate,
    BitVec.ofNat 32 g.phase, BitVec.ofNat 32 g.fbase.toNat, BitVec.ofNat 32 (g.fbase.toNat / 2 ^ 32)])

/-- An allocation in a copy: size, context, and its fence. -/
def allocWords (a : Alloc) : List W32 :=
  [BitVec.ofNat 32 a.size, BitVec.ofNat 32 a.ctx, if a.fence.isSome then 1 else 0, a.fence.getD 0]

/-- A block of a copy with words as its data. -/
def wordBlock (kind index : Nat) (ws : List W32) : CopyItem := .block kind index (wordBytes ws)

/-- The copy as of the present commit position (R323): what is not memory as it stands now, then the memory of the
allocations, then COPY_END. -/
def copyItems (s : State) : List CopyItem :=
  (pieces 0x40000 0xB0000 ++ pieces 0x200000 0x800000).map (fun o => .block 0 o (blockBytes s o))
    ++ (s.inForce.filter (fun x => journaled (keyOff x.1))).map (fun x => wordBlock 7 (keyOff x.1) [x.2])
    ++ s.tim.fcs.map (fun x => wordBlock 6 x.1 (clockWords x.2))
    ++ s.epg.eps.map (fun x => .block 1 x.1 (statusRecord x.2 ++ leBytes 4 (strWord x.2 0) ++ leBytes 4 (strWord x.2 16)))
    ++ s.epg.stage.map (fun x => wordBlock 9 x.1 [x.2])
    ++ s.glz.mord.map (fun x => wordBlock 2 x.1 [x.2])
    ++ s.hst.allocs.map (fun a => wordBlock 4 a.base (allocWords a))
    ++ s.hst.fenceNext.map (fun x => wordBlock 10 x.1 [x.2])
    ++ s.hst.layers.map (fun x => wordBlock 8 x.1 (layerWords x.2))
    ++ s.vat.inputs.map (fun x => wordBlock 3 0 (changeWords x))
    ++ s.hst.allocs.flatMap (fun a => (pieces (a.base * 1048576) (a.size * 1048576)).map (fun p => .mem p 8192))
    ++ [.fin s.twn.cpos]

/-- A COPY record (Table 11-3). -/
def copyRecordOf (kind index : Nat) (last : Bool) (data : List Byte) (s : State) : State :=
  sendPlain (0x09 + if last then 0x100 else 0) (leBytes 4 kind ++ leBytes 8 index ++ data) s

/-- One piece of a copy sent: memory as it stands when it is sent, in the background (R323). -/
def sendCopyItem (x : CopyItem) (last : Bool) (s : State) : State :=
  match x with
  | .block k i d => copyRecordOf k i last d s
  | .mem a n =>
    let s := copyRecordOf 5 a last (memRead s.fmem a n) { s with twn := { s.twn with copied := s.twn.copied + n } }
    wr .copyDone (BitVec.ofNat 32 (s.twn.copied / 1048576)) s
  | .fin p => sendRecord 0x0A (leBytes 4 p.toNat ++ leBytes 4 0) s

/-- A copy that is due to a peer in COPY begins at the present commit position (R323). -/
def beginCopy (s : State) : State :=
  let mib := ((s.hst.allocs).map (fun a => a.size)).sum
  wr .copyDone 0 (wr .copyTotal (BitVec.ofNat 32 mib)
    { s with twn := { s.twn with copySend := false, copied := 0, copyQ := copyItems s } })

/-- COPY_SEND (R323): the next record of the copy, of a copy that is due the first one. Journal records have left before it
(R324). -/
def execCopySend (s : State) : Out :=
  if role s != 2 || !twinLink s then .next s
  else
    let s := if s.twn.copySend then beginCopy s else s
    match s.twn.copyQ with
    | [] => .next s
    | x :: r => .next (sendCopyItem x (r.length == 1) { s with twn := { s.twn with copyQ := r } })

/-- Consecutive words of a byte string. -/
def wordsOf : Nat → List Byte → List W32
  | 0, _ => []
  | n + 1, bs => BitVec.ofNat 32 (ofLe (bs.take 4)) :: wordsOf n (bs.drop 4)

/-- A register of a journaled block stored as the active's stood. -/
def copyReg (off : Nat) (v : W32) (s : State) : State :=
  match regAt off with
  | some r => if journaled off then wr r.id v s r.i r.j else s
  | none => s

/-- The application epochs of a copied change. -/
def wordsApps : List W32 → Map W32
  | c :: e :: r => (c.toNat, e) :: wordsApps r
  | _ => []

/-- A record of the input log as the active holds it; one that has come already is not taken again. -/
def copyChange (ws : List W32) (s : State) : State :=
  let w := fun k => ws.getD k 0
  let key : InKey := ⟨(w 0).toNat, (w 1).toNat, (w 2).toNat⟩
  if s.vat.inputs.any (fun x => x.key == key && x.version == w 3) then s
  else
    let x : Change := ⟨key, w 3, w 4, w 5, wordsTarget (w 6) (w 7) (w 8) (w 9) (w 10), join64 (w 11) (w 12), wordsApps (ws.drop 13)⟩
    let s := { s with vat := { s.vat with inputs := s.vat.inputs ++ [x] } }
    let s := if epochDiff (w 3) (newestVersion s key) > 0 then setVersion key (w 3) s else s
    if key.kind = 7 && decide (key.idx < 1024) then wr .layerVersion (newestVersion s key) s key.idx else s

/-- A layer as the active holds it. -/
def copyLayer (n : Nat) (ws : List W32) (s : State) : State :=
  let w := fun k => (ws.getD k 0).toNat
  let l : Layer := ⟨w 0, w 1, w 2, w 3, w 4 == 1, if w 5 = 0 then none else some (w 5 - 1), ws.getD 6 0, w 7⟩
  refreshCtx l.ctx (wr .layerStatus (BitVec.ofNat 32 (1 + 65536 * l.ctx)) (setLayer n l s) n)

/-- An allocation as the active holds it, with an open fence. -/
def copyAlloc (base : Nat) (ws : List W32) (s : State) : State :=
  let w := fun k => ws.getD k 0
  let c := (w 1).toNat
  if !mibFree s base (w 0).toNat then s
  else
    let fence := if w 2 = 1 then some (w 3) else none
    refreshCtx c { s with hst := { s.hst with
      allocs := s.hst.allocs ++ [⟨base, (w 0).toNat, c, fence⟩]
      fences := s.hst.fences ++ (if w 2 = 1 then [⟨c, w 3, base, 0, []⟩] else []) } }

/-- The stretches of a frame clock. -/
def wordsSegs : List W32 → List ClockSeg
  | a :: b :: r :: p :: c :: d :: rest => ⟨join64 a b, r.toNat, p.toNat, join64 c d⟩ :: wordsSegs rest
  | _ => []

/-- A frame clock as the active's runs; its frame number is that of the present outward time. -/
def copyClock (n : Nat) (ws : List W32) (s : State) : State :=
  let segs := wordsSegs ws
  setFc n ⟨segs, frameFrom (s.ot.toNat + 1) segs - 1⟩ s

/-- What a COPY record writes, by its block kind (log 71): 0 registers and tables of the journaled blocks by BAR0 offset,
1 endpoint status and strings by endpoint, 2 a Mordant word by MORD_ADDR, 3 a record of the input log, 4 an allocation by its
base in MiB, 5 memory by address, 6 a frame clock, 7 a shadowed register's value in force by BAR0 offset, 8 a layer, 9 a staged
word of the endpoint table, 10 the newest fence of a context. -/
def copyBlock (kind index : Nat) (data : List Byte) (s : State) : State :=
  let ws := wordsOf (data.length / 4) data
  let w := ws.getD 0 0
  match kind with
  | 0 => forEach ws.zipIdx (fun x u => copyReg (index + 4 * x.2) x.1 u) s
  | 1 => applyEpstate index (ws.take 8) (join64 (ws.getD 8 0) (ws.getD 9 0)) s
  | 2 => { s with glz := { s.glz with mord := Map.set (fun _ => 0) s.glz.mord index w } }
  | 3 => copyChange ws s
  | 4 => copyAlloc index ws s
  | 5 => fmemPut index data s
  | 6 => copyClock index ws s
  | 7 =>
    match regAt index with
    | some r => { s with inForce := Map.put s.inForce (r.id.key r.i r.j) w }
    | none => s
  | 8 => copyLayer index ws s
  | 9 => { s with epg := { s.epg with stage := Map.put s.epg.stage index w } }
  | 10 => { s with hst := { s.hst with fenceNext := Map.put s.hst.fenceNext index w } }
  | _ => s

/-- COPY_RECORD (R323). -/
def execCopyRecord (_h : JHead) (_last : Bool) (kind : W32) (index : W64) (data : List Byte) (s : State) : Out :=
  if role s != 3 || s.twn.copyLost then .next s
  else
    let n := if kind = 5 then data.length else 0
    let s := copyBlock kind.toNat index.toNat data { s with twn := { s.twn with copied := s.twn.copied + n } }
    .next (wr .copyDone (BitVec.ofNat 32 (s.twn.copied / 1048576)) s)

/-- A canvas of the copy goes on at its rewind mark: its open epochs are released here, with its templates as they stand
(R323). -/
def resumeCanvas (c : Nat) (s : State) : State :=
  let e := rmEp s c
  let s := takeTmpls c (setCanvas c { canvasIdle with snaps := [⟨e, publishedEtab s, currentViews s⟩], lastApp := newestApp s c } s)
  let s := put fld.canvasStatus.STALL 0 (wr .wpEpoch (e - 1) s c) c
  fixSlots c (releaseUp c 9 s)

/-- A frame clock agrees with the copied registers: one that they stop does not run, and one that they run does. -/
def resumeClock (n : Nat) (s : State) : State :=
  if !on s fld.fcCtrl.EN n then { s with tim := { s.tim with fcs := Map.del s.tim.fcs n } }
  else if (fclock s n).isNone then fcStart n s
  else s

/-- The device's render state as the copy gives it: its frame clocks run, and its canvases go on. -/
def resumeCopy (s : State) : State :=
  forEach ((List.range 64).filter (canvasRuns s)) resumeCanvas (forEach (List.range 4) resumeClock s)

/-- The held records that follow the copy point, in their order: those that the active sent at or after commit position P. -/
def afterPoint (p : W32) (q : List JHeld) : List JHeld := q.filter (fun x => decide (epochDiff x.head.cpos p ≥ 0))

/-- COPY_END (R323): CATCHUP, and the records from P onward apply, from the first one that is held. The end of a copy that was
given up since does nothing. -/
def execCopyEnd (h : JHead) (cpos : W32) (s : State) : Out :=
  let stale := match s.twn.copyFrom with
    | some p => decide (epochDiff cpos p < 0)
    | none => false
  if role s != 3 || s.twn.copyLost || stale then .next s
  else
    let q := holdIn ⟨h, .passed, s.ot⟩ (afterPoint cpos s.twn.buffered)
    let first := match q with
      | x :: _ => x.head.jseq
      | [] => h.jseq
    let s := wr .jseqRx (first - 1) { s with twn := { s.twn with cpos := cpos, buffered := q } }
    .next (pump (resumeCopy (setRole 4 s)))

/-! ## The twin registers (R304, R313, R325, R327) -/

/-- The journaled blocks at their reset values (R325), with the allocations and layers that the context use registers count. -/
def resetRender (s : State) : State :=
  let t := State.coldStart s.member s.pending s.fmem s.hmem s.otp s.hst.fnPresent s.pwr s.bst.retained s.free
  let keep := fun (x : Nat × W32) =>
    match regList.find? (fun r => r.num == x.1 % 512) with
    | some r => !journaled r.desc.base
    | none => true
  let u := dropLayers s
  { u with
    regs := u.regs.filter keep, inForce := s.inForce.filter keep
    sch := t.sch, vat := t.vat, glz := t.glz, epg := t.epg
    tim := { s.tim with fcs := [] } }

/-- The effect of a write of TWIN_CMD. -/
def twinCmdWrite (v : W32) (s : State) : State :=
  let s := if v.getLsbD 0 && role s == 2 then
      lapseToIdle (sendRecord 0x08 (leBytes 8 (s.twn.renewed.getD 0).toNat) s) else s
  let s := if v.getLsbD 1 && role s == 1 && mode s == 3 && !busy s then becomeActive s else s
  let s := if v.getLsbD 2 && (role s == 3 || role s == 4 || role s == 5) then enterCopy s else s
  if v.getLsbD 3 && role s == 7 && mode s == 7 && !busy s && get s fld.safeCause.SAFE_CAUSE == 2 then
    beginTrans 3 false (setRole 1 (resetRender s)) else s

/-- RESIGN (R313). -/
def execResign (fn : Nat) (s : State) : Out := .next (hostWrite fn .twinCmd 0 0 1 (twinCmdWrite 1) s)
/-- ASSUME (R306). -/
def execAssume (fn : Nat) (s : State) : Out := .next (hostWrite fn .twinCmd 0 0 2 (twinCmdWrite 2) s)
/-- RESYNC (R306). -/
def execResync (fn : Nat) (s : State) : Out := .next (hostWrite fn .twinCmd 0 0 4 (twinCmdWrite 4) s)
/-- LEAVE_SAFE (R325). -/
def execLeaveSafe (fn : Nat) (s : State) : Out := .next (hostWrite fn .twinCmd 0 0 8 (twinCmdWrite 8) s)

/-- The effect of a write of TWIN_CTRL (R304): EN changes only in IDLE, and to 1 only while LFC runs. -/
def twinCtrlWrite (pf : Bool) (v : W32) (s : State) : State :=
  let was := on s fld.twinCtrl.EN
  let s := plainWrite pf .twinCtrl 0 0 v s
  let now := on s fld.twinCtrl.EN
  if was == now then s
  else if mode s != 3 || (now && (leaseClock s).isNone) then put fld.twinCtrl.EN (if was then 1 else 0) s
  else if now then setRole 1 { s with twn := { s.twn with beat := none, edge := none } }
  else put fld.twinStatus.WIRE 0 (setRole 0 (leaseGone s))

/-- TWIN_EN_WRITE (R304). -/
def execTwinEnWrite (fn : Nat) (v : W32) (s : State) : Out :=
  .next (hostWrite fn .twinCtrl 0 0 v (twinCtrlWrite (isPf fn) v) s)

end Sys2Proof.Machine
end

