-- ==== Sys2Proof/Machine/Bus.lean ====
section
/-!
DEFINITION. The register bus: the effect of a write and of a read of any register (R11, R12, R371), two hosts on one
register (R277), shadowed and calibration writes (R138, R362), and BOOT_GO (R343).
-/

namespace Sys2Proof.Machine

/-! ## BOOT_GO (R343) -/

/-- Whether the device waits for a host's image. -/
def awaitsHost (s : State) : Bool :=
  mode s == 1 && !s.bst.releaseDue && s.bst.kind == 0 && s.pwr.image.isNone && decide (s.pwr.bootMode ≤ 1)

/-- The effect of BOOT_GO by a function: the image of its host is read, and the status of the boot before goes. -/
def bootGoWrite (fn : Nat) (s : State) : State :=
  if awaitsHost s then wr .bootStatus 0 { s with pwr := { s.pwr with image := some (2 + fn / 16 % 2) } } else s

/-- BOOT_GO (R343). -/
def execBootGo (fn : Nat) (s : State) : Out := .next (hostWrite fn .bootGo 0 0 1 (bootGoWrite fn) s)

/-! ## Writes -/

/-- A write of a measurement word: with a service cluster, only its PTP engine writes the window (R212). -/
def measWrite (fn d k : Nat) (v : W32) (s : State) : State :=
  if on s fld.sched.SVC && fn != svcFn then s else plainWrite (isPf fn) .meas d k v s

/-- The effect of a write on a register that acts, or is stored, outside the journaled blocks. -/
def controlEffect (fn : Nat) (r : RegId) (i j : Nat) (v : W32) (s : State) : State :=
  let pf := isPf fn
  match r with
  | .sem => if pcieFn s fn then semWrite i fn v s else s
  | .semForce => if pcieFn s fn then semForceWrite fn v s else s
  | .ringCtrl => paySupplyEvent (ringCtrlWrite pf i v s)
  | .ringTail => ringTailEffect i v [] s
  | .ringHead => ringHeadEffect i v s
  | .route => paySupplyEvent (plainWrite pf r i j v s)
  | .bar2Base => { s with hst := { s.hst with bar2 := Map.set (fun _ => 0) s.hst.bar2 fn (v.toNat % 128) } }
  | .macCtrl => macCtrlWrite pf i v s
  | .t1sCtrl => t1sCtrlWrite pf i v s
  | .eeeCfg => eeeCfgWrite pf i v s
  | .gateCtrl => gateCtrlWrite pf i v s
  | .flowCtrl => flowCtrlWrite pf i j v s
  | .rdmCtrl => rdmCtrlWrite pf i v s
  | .timeCtrl => timeCtrlWrite pf v s
  | .setGo => if v.getLsbD 0 then setGoWrite s else s
  | .domCfg => domCfgWrite pf i v s
  | .ppsOut => ppsChange i (plainWrite pf r i j v) s
  | .ppsOfs => ppsChange i (calStore pf r i v) s
  | .annKick => if v.getLsbD 0 then annKickWrite i s else s
  | .meas => measWrite fn i j v s
  | .measPush => if v.getLsbD 0 then measPushWrite i s else s
  | .tsqCtrl => tsqCtrlWrite pf i v s
  | .twinCtrl => twinCtrlWrite pf v s
  | .twinCmd => twinCmdWrite v s
  | .pwrCmd => pwrCmdWrite v s
  | .pwrCtrl => pwrCtrlWrite pf v s
  | .bootGo => if v.getLsbD 0 then bootGoWrite fn s else s
  | .bistCmd => bistCmdWrite pf v s
  | .otpCtrl => if v.getLsbD 0 then otpProgram s else s
  | .lcReq => lcRequest v s
  | .cntSnap => if v.getLsbD 0 then snapCounters s else s
  | .tagCtrl => tagCtrlWrite pf v s
  | .bwCtrl => bwCtrlWrite pf i v s
  | _ => if r.desc.cal then calStore pf r i v s else plainWrite pf r i j v s

/-- The effect of a write of a register by a function. -/
def busEffect (fn : Nat) (r : RegId) (i j : Nat) (v : W32) (s : State) : State :=
  if journaled (r.off i j) then renderEffect fn r i j v s else controlEffect fn r i j v s

/-- A 32-bit write at an offset of BAR0. Where no register lies it is discarded, and denied to a virtual function
(R274, R371). -/
def busWrite (fn off : Nat) (v : W32) (s : State) : State :=
  match regAt off with
  | some a => hostWrite fn a.id a.i a.j v (busEffect fn a.id a.i a.j v) s
  | none => if !fnExists s fn || !hostUp s fn || isPf fn then s else denied fn off s

/-- A write of some width: one that is not 32 bits wide is discarded (R10). A 64-bit write is two commands. -/
def sizedWrite (fn off : Nat) (v : W32) (size : Nat) (s : State) : State := if size = 4 then busWrite fn off v s else s

/-- Whether two ports' accesses of an offset are those of one semaphore, which has its own tie bit (R277, R281). -/
def semAtOff (off : Nat) : Option Nat :=
  match regAt off with
  | some a => if a.id = .sem then some a.i else none
  | none => none

/-- Of two functions on different ports that meet at an offset, the order in which their accesses take effect. -/
def busOrder (s : State) (off f g : Nat) : Nat × Nat :=
  match semAtOff off with
  | some n => semFirst s n f g
  | none => if (f / 16 == 1) == s.hst.busTie then (f, g) else (g, f)

/-- The tie bit of the register bus after a tie: the loser's port goes first next (R277). -/
def busTieSet (loser : Nat) (s : State) : State := { s with hst := { s.hst with busTie := loser / 16 == 1 } }

/-- The tie that two accesses at an offset have decided: the port that lost goes first next (R277, R281). -/
def turnTie (off loser : Nat) (s : State) : State :=
  match semAtOff off with
  | some n => semTieSet n loser s
  | none => busTieSet loser s

/-- The status bits that hardware sets in the cycle of a write: of the bits named, those of type W1C that are set stay set,
because the setting wins over the write's clearing (R12). -/
def keepSetting (off : Nat) (setting : W32) (before s : State) : State :=
  match regAt off with
  | some a =>
    let won := setting &&& BitVec.ofNat 32 a.id.desc.w1c &&& rd before a.id a.i a.j
    if won = 0 then s else wr a.id (rd s a.id a.i a.j ||| won) s a.i a.j
  | none => s

/-- REGISTER_WRITE on the register bus (R11, R12, R277). -/
def barWrite (fn off : Nat) (v : W32) (size : Nat) (setting : W32) (other : Option (Nat × W32)) (s : State) : State :=
  match other with
  | none => keepSetting off setting s (sizedWrite fn off v size s)
  | some (g, w) =>
    if !acrossPorts s fn g then keepSetting off setting s (sizedWrite fn off v size s)
    else
      let o := busOrder s off fn g
      let s1 := turnTie off o.2 s
      keepSetting off setting s
        (if o.1 = fn then busWrite g off w (sizedWrite fn off v size s1) else sizedWrite fn off v size (busWrite g off w s1))

/-- REGISTER_WRITE (R10, R11, R12, R273, R277). `setting` are the status bits that hardware sets in the same cycle, `other`
is a write of the same register by a function of the other port in the same cycle. A write of BAR4 or of configuration
space reaches the function's own MSI-X and SR-IOV state. -/
def execRegisterWrite (fn : Nat) (sp : Space) (off : Nat) (v : W32) (size : Nat) (setting : W32)
    (other : Option (Nat × W32)) (s : State) : Out :=
  match sp with
  | .bar0 => .next (barWrite fn off v size setting other s)
  | .bar4 =>
    .next (if !pcieFn s fn || !hostUp s fn || mode s = 7 || size != 4 || off % 4 != 0 then s else bar4Write fn off v s)
  | .config => .next (if !pcieFn s fn || s.hst.perst.contains (fn / 16) || size != 4 then s else configWrite fn off v s)

/-- SHADOWED_WRITE (R138). -/
def execShadowedWrite (fn off : Nat) (v : W32) (s : State) : Out := .next (busWrite fn off v s)

/-- CAL_WRITE (R362). -/
def execCalWrite (fn off : Nat) (v : W32) (s : State) : Out := .next (busWrite fn off v s)

/-! ## Reads -/

/-- A number as a register word. -/
def word (n : Nat) : W32 := BitVec.ofNat 32 n

/-- A stored register with one field replaced by its live value. -/
def withField (s : State) (f : Fld) (v : Nat) (i j : Nat := 0) : W32 :=
  word (withBits (rd s f.reg i j).toNat f.lo f.w v)

/-- Bits of a list of truth values, the first lowest. -/
def bitWord (bs : List Bool) : Nat := bs.zipIdx.foldl (fun a x => if x.1 then a + 2 ^ x.2 else a) 0

/-- The task on a core, in the cluster window (Table 14-2). -/
def coreWord (s : State) (core : Nat) : W32 :=
  match taskOn s core with
  | some t => word (t.slot + 2 ^ 16)
  | none => 0

/-- CL_STATUS (Table 14-2). -/
def clusterWord (s : State) (k : Nat) : W32 :=
  word (bitWord ((List.range 8).map (fun n => (taskOn s (8 * k + n)).isSome)
    ++ [s.pwr.gated.contains k, decide (s.bst.rotStep ≠ 0) && rotCluster s == k, s.bst.removed.contains k]))

/-- READY tasks at a level (R113, Table 4-11). -/
def readyAtLevel (s : State) (n : Nat) : Nat :=
  ((allTasks s).filter (fun t => t.st == .ready && effPrio s t == n)).length

/-- The registers that show live state of the host, scheduler, Vat and Glaze blocks; none for the stored ones. -/
def liveRender (fn : Nat) (s : State) (r : RegId) (i j : Nat) : Option W32 :=
  match r with
  | .idLo => some (withField s fld.idLo.PART (partId s.member))
  | .ringOcc => some (word (ringOcc s i))
  | .route => some (withField s fld.route.EN (if routeLive s i j then 1 else 0) i j)
  | .bar2Base => some (word (bar2Base s fn))
  | .slotsUsed => some (word (slotsUsed s))
  | .schedReady => some (word (readyAtLevel s i))
  | .ctxUseSlots => some (word (ctxSlots s i))
  | .ctxUseMl => some (word (ctxMem s i + 2 ^ 16 * ctxLayers s i))
  | .periodNs => some (word (fcPeriod s i))
  | .inputLogUsed => some (word s.vat.inputs.length)
  | .canvasStatus => some (withField s fld.canvasStatus.SPAN_OK (if spanOk s i then 1 else 0) i)
  | .glzBusy => some (word (bitWord ((List.range 8).map (fun p => !pipeFree s p))))
  | .glzBankUse => some (word (bitWord [bankUsed s 0, bankUsed s 1]))
  | .clStatus => some (clusterWord s i)
  | .clTsUsed => some (word (storeUsed s i))
  | .clCore => some (coreWord s (8 * i + j))
  | _ => none

/-- A fixed-point number of 2^−16 as its signed 32-bit whole part, saturating. -/
def wholeSat (x : Int) : W32 := BitVec.ofInt 32 (clampInt (-2147483648) 2147483647 (x / 65536))

/-- The registers that show live state of the time, port and test blocks; none for the stored ones. -/
def liveControl (s : State) (r : RegId) (i j : Nat) : Option W32 :=
  match r with
  | .timeStatus =>
    let v := withBits (withBits (rd s .timeStatus).toNat 4 2 (domOf s 0).st) 6 2 (domOf s 1).st
    some (word v)
  | .adjReg => some (BitVec.ofInt 32 (s.tim.adj / 65536))
  | .adjFine => some (BitVec.ofInt 32 (s.tim.adj % 65536))
  | .offsetNs => some (wholeSat (domOf s i).theta)
  | .offsetFrac => some (BitVec.ofInt 32 ((domOf s i).theta % 65536))
  | .delayNs => some (BitVec.ofInt 32 ((domOf s i).davg / 65536))
  | .domRate => some (BitVec.ofInt 32 ((domOf s i).rate / 65536))
  | .nextHi | .nextEpoch => if (fclock s i).isNone then some 0 else none
  | .tsqStatus => some (withField s fld.tsqStatus.LEVEL (portOf s i).tsq.length i)
  | .otpData => some (otpWord s (get s fld.otpAddr.OTP_ADDR))
  | .snapLo => some (word (Map.get (fun _ => 0) s.snap i).toNat)
  | .snapHi => some (word ((Map.get (fun _ => 0) s.snap i).toNat / 2 ^ 32))
  | .swcntLo => some (word (Map.get (fun _ => 0) s.swcnt (8 * i + j)).toNat)
  | .swcntHi => some (word ((Map.get (fun _ => 0) s.swcnt (8 * i + j)).toNat / 2 ^ 32))
  | _ => none

/-- What a read of a register without read effects returns: the live value, or the stored one without the bits of
resources that the member lacks (R4). -/
def peek (fn : Nat) (s : State) (r : RegId) (i j : Nat) : W32 :=
  match liveRender fn s r i j, liveControl s r i j with
  | some v, _ => v
  | none, some v => v
  | none, none => rd s r i j &&& ~~~ (word (absentBits s r i))

/-- A read of a register with its side effects: claims (R278), copies of wide counts (R210, R348, R363, R389), pops
(R226), windows (R163), and RC fields, which are cleared (R12). -/
def busRead (fn : Nat) (r : RegId) (i j : Nat) (s : State) : State × W32 :=
  match r with
  | .sem => if pcieFn s fn then semRead i fn s else (s, rd s .sem i)
  | .otLo => otLoRead s
  | .nextLo => nextLoRead i s
  | .ppsInLo => ppsInLoRead s
  | .slowLo => slowLoRead s
  | .cntLo => cntLoRead i s
  | .mordData => mordRead s
  | .tsqE0 => tsqPopRead i 0 s
  | _ => (wr r (rd s r i j &&& ~~~ (word r.desc.rc)) s i j, peek fn s r i j)

/-- A 32-bit read at an offset of BAR0. Where no register lies it reads zero (R371), and is denied to a virtual function
(R274). -/
def wordRead (fn off : Nat) (s : State) : State :=
  match regAt off with
  | some a => hostRead fn a.id a.i a.j (busRead fn a.id a.i a.j) s
  | none =>
    if !fnExists s fn || !hostUp s fn then s
    else { (if isPf fn then s else denied fn off s) with rdata := leBytes 4 0 }

/-- A read of some width: a narrower one returns the addressed bytes of the register's word, with the side effects of its
32-bit read (R10). An access that is not naturally aligned does not arise (R10). -/
def sizedRead (fn off size : Nat) (s : State) : State :=
  if size = 4 then wordRead fn off s
  else if (size = 1 ∨ size = 2) ∧ off % size = 0 then
    let t := wordRead fn (off / 4 * 4) s
    if !fnExists s fn || !hostUp s fn then t else { t with rdata := (t.rdata.drop (off % 4)).take size }
  else s

/-- What hardware sets in an RC field in the cycle of its read is kept after the clearing (R12). -/
def keepRc (off : Nat) (setting : W32) (s : State) : State :=
  match regAt (off / 4 * 4) with
  | some a =>
    let new := setting &&& BitVec.ofNat 32 a.id.desc.rc
    if new = 0 then s else wr a.id (rd s a.id a.i a.j ||| new) s a.i a.j
  | none => s

/-- A read that meets an access of the other port in one cycle (R277): both take effect in the order of the tie. Two reads
of one semaphore go by its own rule (R281). The data of the read stand before those of the other port's read. -/
def readPair (fn off size g : Nat) (w : Option W32) (s : State) : State :=
  match semAtOff (off / 4 * 4), w with
  | some n, none => semReadBoth n fn g s
  | _, _ =>
    let o := busOrder s (off / 4 * 4) fn g
    let s1 := turnTie (off / 4 * 4) o.2 s
    match w with
    | some v =>
      if o.1 = fn then
        (let a := sizedRead fn off size s1
         { busWrite g (off / 4 * 4) v a with rdata := a.rdata })
      else sizedRead fn off size (busWrite g (off / 4 * 4) v s1)
    | none =>
      if o.1 = fn then
        (let a := sizedRead fn off size s1
         let b := wordRead g (off / 4 * 4) a
         { b with rdata := a.rdata ++ b.rdata })
      else
        (let b := wordRead g (off / 4 * 4) s1
         let a := sizedRead fn off size b
         { a with rdata := a.rdata ++ b.rdata })

/-- RC_READ (R10, R12, R277), and the read of any register. `setting` is what hardware sets in the register's RC field in
the same cycle, `other` an access of the same register by a function of the other port in the same cycle: a write with its
value, or a read. -/
def execRcRead (fn : Nat) (sp : Space) (off size : Nat) (setting : W32) (other : Option (Nat × Option W32)) (s : State) :
    Out :=
  match sp with
  | .bar0 =>
    .next (keepRc off setting (match other with
      | none => sizedRead fn off size s
      | some (g, w) => if acrossPorts s fn g then readPair fn off size g w s else sizedRead fn off size s))
  | .bar4 =>
    .next (if !pcieFn s fn || !hostUp s fn || mode s = 7 then s
      else { s with rdata := ((leBytes 4 (bar4Word s fn (off / 4 * 4)).toNat).drop (off % 4)).take size })
  | .config =>
    .next (if !pcieFn s fn || s.hst.perst.contains (fn / 16) then s
      else { s with rdata := ((leBytes 4 (configWord s fn (off / 4 * 4)).toNat).drop (off % 4)).take size })

end Sys2Proof.Machine
end

