-- ==== Sys2Proof/Machine/Boot.lean ====
section
/-!
DEFINITION. The boot image (R343 to R345, Table 12-7) and the reference clocks (R333).
-/

namespace Sys2Proof.Machine

/-! ## The image (Table 12-7) -/

/-- A word of an image header. -/
def imageWord (img : List Byte) (o : Nat) : Nat := ofLe ((img.drop o).take 4)

/-- BODY_LEN. -/
def bodyLen (img : List Byte) : Nat := imageWord img 12

/-- The body. -/
def imageBody (img : List Byte) : List Byte := (img.drop 256).take (bodyLen img)

/-- A key slot of OTP as a number of 384 bits, its words in ascending order, least significant first. -/
def keySlot (s : State) (k : Nat) : Nat := ofLe (wordBytes ((List.range 12).map (fun i => otpWord s (8 + 12 * k + i))))

/-- Whether a key digest is accepted in the present life-cycle state (R344, Table 13-1). -/
def keyTrusted (s : State) (h : Nat) : Bool :=
  match get s fld.lcState.LC_STATE with
  | 0 | 1 => h == Config.mfgKeyHash
  | 2 => (List.range 4).any (fun k => keySlot s k != 0 && keySlot s k == h && !(otpWord s 56).getLsbD k)
  | _ => h == Config.rmaKeyHash

/-- The number of one bits of a word. -/
def ones (w : W32) : Nat := ((List.range 32).filter (fun i => w.getLsbD i)).length

/-- The SVN minimum that OTP holds (Table 13-2). -/
def svnMin (s : State) : Nat := ones (otpWord s 57) + ones (otpWord s 58)

/-- The most bytes of a flash copy: 32 MiB (R343). -/
def imageMax : Nat := 33554432

/-- The flash offset of an image copy (R343). -/
def flashOffset (copy : Nat) : Nat := if copy = 0 then 0 else 0x2000000

/-- An image copy as it is read from flash: the header, then as many bytes as its BODY_LEN gives, at most 32 MiB in all. -/
def flashImage (copy : Nat) (cells : List (Nat × Byte)) : List Byte :=
  let head := memRead cells (flashOffset copy) 256
  memRead cells (flashOffset copy) (Nat.min imageMax (256 + imageWord head 12))

/-- The error that rejects an image before its records are applied (R344, R345); 0 for none. -/
def imageError (s : State) (img : List Byte) : Nat :=
  let key := (img.drop 64).take 96
  let sig := (img.drop 160).take 96
  if img.length < 256 then 7
  else if imageWord img 0 != 0x5A583942 || imageWord img 4 != 1 then 1
  else if bodyLen img % 4 != 0 || img.length < 256 + bodyLen img then 7
  else if !keyTrusted s (Config.sha384 key) then 2
  else if !Config.ecdsaP384 key sig (Config.sha384 (img.take 160 ++ imageBody img)) then 3
  else if imageWord img 8 < svnMin s then 4
  else 0

/-! ## Load records (R344) -/

/-- KIND 1: register writes, pairs of offset and value. -/
def loadRegs : List W32 → State → State
  | off :: v :: rest, s => loadRegs rest (busWrite 0 off.toNat v s)
  | _, s => s

/-- KIND 3: a program entry at a program number, with service privilege. -/
def loadProg (n : Nat) (p : List W32) (s : State) : State :=
  let s := plainWrite true .progLen n 0 (p.getD 1 0) (plainWrite true .progBase n 0 (p.getD 0 0) s)
  let s := plainWrite true .progEntry n 0 (p.getD 3 0) (plainWrite true .progCtrl n 0 (p.getD 2 0) s)
  put fld.progCtrl.SVC 1 s n

/-- One record applied; none where it is not one of the three kinds, or its target does not exist. -/
def imageRecord (kind : Nat) (lo hi : W32) (p : List W32) (s : State) : Option State :=
  let addr := lo.toNat + 2 ^ 32 * hi.toNat
  match kind with
  | 1 => if p.length % 2 = 0 then some (loadRegs p s) else none
  | 2 => if addr + 4 * p.length ≤ memMib s.member * 1048576 then some (fmemPut addr (wordBytes p) s) else none
  | 3 => if addr < 1024 ∧ p.length = 4 then some (loadProg addr p s) else none
  | _ => none

/-- The records of a body in order, until one fails; whether none did. `fuel` is the number of words. -/
def loadBody : Nat → List W32 → State → State × Bool
  | 0, ws, s => (s, ws.isEmpty)
  | _ + 1, [], s => (s, true)
  | fuel + 1, h :: ws, s =>
    let n := h.toNat / 256
    let p := (ws.drop 2).take n
    if ws.length < 2 + n then (s, false)
    else match imageRecord (h.toNat % 256) (ws.getD 0 0) (ws.getD 1 0) p s with
      | none => (s, false)
      | some t => loadBody fuel (ws.drop (2 + n)) t

/-- Bytes as little-endian words. -/
def bodyWords (b : List Byte) : List W32 :=
  (List.range (b.length / 4)).map (fun k => BitVec.ofNat 32 (ofLe ((b.drop (4 * k)).take 4)))

/-! ## Acceptance and rejection (R344, R345) -/

/-- An image applied: the device enters IDLE. -/
def bootDone (src : Nat) (s : State) : State :=
  let s := put fld.bootStatus.DONE 1 (put fld.bootStatus.SRC src { s with pwr := { s.pwr with image := none } })
  raise0 109 (enterMode 3 s)

/-- An image rejected: the next flash copy, SAFE, or the wait for a host's image. -/
def bootReject (src err : Nat) (s : State) : State :=
  let s := raise0 109 (put fld.bootStatus.ERR err s)
  if src = 0 then { s with pwr := { s.pwr with image := some 1 } }
  else
    let t := { s with pwr := { s.pwr with image := none } }
    if src = 1 && s.pwr.bootMode == 2 then enterSafe 5 t else t

/-- An image that has been read, judged and applied. -/
def takeImage (src : Nat) (img : List Byte) (s : State) : State :=
  let e := imageError s img
  if e != 0 then bootReject src e s
  else
    let ws := bodyWords (imageBody img)
    let x := loadBody ws.length ws s
    if x.2 then bootDone src x.1 else bootReject src 5 x.1

/-- The image that a host has placed in frame memory (R343). -/
def hostImage (s : State) : List Byte := memRead s.fmem ((rd s .bootAddr).toNat * 256) (get s fld.bootLen.BOOT_LEN)

/-- BOOT_IMAGE_CHECK (R343 to R345). `flash` is what the flash holds, none where its reading failed: what its SFDP table
declares sets the mode of the read, and the copy at the source's offset is read. A host's image is read from frame memory. -/
def execBootImageCheck (flash : Option FlashRead) (s : State) : Out :=
  if mode s != 1 then .next s
  else match s.pwr.image with
    | none => .next s
    | some src =>
      if 2 ≤ src then .next (takeImage src (hostImage s) s)
      else match flash with
        | none => .next (bootReject src 6 s)
        | some x => .next (takeImage src (flashImage src x.cells) { s with pwr := { s.pwr with octal := x.octal } })

/-! ## Reference clocks (R333) -/

/-- The Ethernet ports and twin lanes lose link, and a running test of one of them has lost its clock (R354). -/
def serdesLost (s : State) : State :=
  let s := forEach (List.range 16) (fun p t => settleLink p (setPort p { portOf t p with pcsUp := false } t)) s
  let s := twinLaneTo 1 false (twinLaneTo 0 false s)
  match s.bst.todo with
  | [] => s
  | b :: rest =>
    if (32 ≤ b ∧ b < 48) ∨ b = 64 ∨ b = 65 then nextBlock { abortBlock b s with bst := { s.bst with todo := rest } }
    else s

/-- What the loss of a reference input does (Table 12-2). -/
def clockLost (input : Nat) (s : State) : State :=
  match input with
  | 1 => enterSafe 4 s
  | 2 => serdesLost s
  | 3 => pcieLinkTo 0 0 0 s
  | 4 => pcieLinkTo 1 0 0 s
  | _ => s

/-- A monitor's report of an input's loss or recovery (R333). CLK_STATUS shows a loss as 1. -/
def reportClock (input : Nat) (lost : Bool) (s : State) : State :=
  if hasBit s fld.clkStatus.CLK_STATUS input == lost then s
  else
    let v := get s fld.clkStatus.CLK_STATUS
    let s := put fld.clkStatus.CLK_STATUS (if lost then v + 2 ^ input else v - 2 ^ input) s
    let s := raise0 106 (setBit fld.pwrEvent.PWR_EVENT 1 s)
    if lost then clockLost input s else s

/-- An input delivers edges, or none. -/
def noteClock (input : Nat) (lost : Bool) (s : State) : State :=
  let c := s.pwr.clocks
  { s with pwr := { s.pwr with
      clocks := if c.testBit input == lost then c else if lost then c + 2 ^ input else c - 2 ^ input } }

/-- REF_CLOCK_LOSS (R333): an input's monitor reports loss or recovery; one in SLEEP, or in reset, is found when the blocks
leave reset (Table 12-2). -/
def execRefClockLoss (input : Nat) (lost : Bool) (s : State) : Out :=
  if 5 ≤ input then .next s
  else
    let s := noteClock input lost s
    .next (if mode s = 0 || s.bst.releaseDue then s else reportClock input lost s)

/-! ## Release from reset (R342) -/

/-- The monitors' reports once the blocks have left reset. -/
def findClocks (s : State) : State :=
  forEach (List.range 5) (fun n u => reportClock n (s.pwr.clocks.testBit n) u) s

/-- RESET_RELEASE (R342): the rail monitors read `rails`, in the order of Table 12-1. The reset of the blocks outside the
island holds until every rail is good and the 25 MHz reference runs (R329). -/
def execResetRelease (bootMode : BitVec 2) (rails : BitVec 9) (s : State) : Out :=
  if mode s != 1 || !s.bst.releaseDue then .next s
  else
    let s := put fld.railGood.RAIL_GOOD rails.toNat s
    if rails ≠ 0x1FF || s.pwr.clocks.testBit 1 then .next s
    else
      let kept := s.bst.retained
      let s := { s with
        pwr := { s.pwr with held := [], bootMode := bootMode.toNat }
        bst := { s.bst with releaseDue := false, retained := none } }
      let s := findClocks (loadTrims (startTime (wr .bootStatus 0 s)))
      if bootMode = 3 then .next (enterSafe 5 s)
      else if s.member != .zx9160 && kept == some true then .next (bootNext (put fld.bistStatus.RET_VALID 1 s))
      else .next (startSet 1 (startBlocks s.member) s)

end Sys2Proof.Machine
end

