-- ==== Sys2Proof/Machine/QBranch.lean ====
section
/-!
DEFINITION. Branches (opcode 0x20, R86, R87, Tables 2-13 and 3-14).
-/

namespace Sys2Proof.Machine

/-- Cycles added to a task and its context. -/
def extraCycles (n : Nat) (s : State) (t : Task) : Res :=
  .keep (addCoreTime t.ctx n s) { t with cycles := t.cycles + n }

/-- A direct target: the branch's own address plus imm × 8 (R86). -/
def directTarget (f : F) (t : Task) : W32 := t.pc + f.imm * 8

/-- The extra cycles of a direct branch: backward branches are predicted taken, forward ones not (Table 2-13). -/
def branchExtra (f : F) (taken : Bool) : Nat :=
  let back := decide (f.imm.toInt ≤ 0)
  if taken then (if back then 2 else 4) else (if back then 4 else 0)

/-- A branch: it may issue beside the instruction before it, and not beside the one after it (R53). -/
def branchUse (f : F) : Use := ⟨1, 0, false, true, [regP f.p.toNat, regS f.a, regS f.b], [regS f.d]⟩

/-- A direct branch: `link` writes the return address into s31 where it is taken. -/
def directBranch (k : Nat) (f : F) (legal link : Bool) (cond : Task → Bool) (s : State) : State :=
  issue k (branchUse f) legal (fun s t =>
    if cond t then
      let u := if link then setS 31 (t.pc + 8) t else t
      extraCycles (branchExtra f true) s { u with pc := directTarget f t }
    else extraCycles (branchExtra f false) s (advancePc t)) s

/-- An indirect branch to s[a] (R87): it adds 4 cycles, and a target that is not a multiple of 8 raises ALIGN. -/
def indirectBranch (k : Nat) (f : F) (legal link : Bool) (s : State) : State :=
  issue k (branchUse f) legal (fun s t =>
    if predRuns f.p (maskOf t f) then
      let target := sreg t f.a
      if target.toNat % 8 ≠ 0 then .exc ⟨3, target⟩
      else extraCycles 4 s { (if link then setS 31 (t.pc + 8) t else t) with pc := target }
    else extraCycles 4 s (advancePc t)) s

/-- Whether the predicate lets a branch of BRA's condition go (Table 3-14). -/
def braTaken (f : F) (t : Task) : Bool := predRuns f.p (maskOf t f)

/-- A compare branch: its compare holds, and its predicate is p0 or not zero (R87). -/
def cmpBranch (k : Nat) (f : F) (op : Nat) (s : State) : State :=
  directBranch k f (f.d == 0) false (fun t => braTaken f t && branchCmp op (sreg t f.a) (sreg t f.b)) s

/-- BRA (R86). -/
def execBra (k : Nat) (f : F) (s : State) : Out :=
  .next (directBranch k f (f.d == 0 && f.a == 0 && f.b == 0) false (braTaken f) s)
/-- BEQ (R87). -/
def execBeq (k : Nat) (f : F) (s : State) : Out := .next (cmpBranch k f 0 s)
/-- BNE (R87). -/
def execBne (k : Nat) (f : F) (s : State) : Out := .next (cmpBranch k f 1 s)
/-- BLT (R87). -/
def execBlt (k : Nat) (f : F) (s : State) : Out := .next (cmpBranch k f 2 s)
/-- BGE (R87). -/
def execBge (k : Nat) (f : F) (s : State) : Out := .next (cmpBranch k f 3 s)
/-- BLTU (R87). -/
def execBltu (k : Nat) (f : F) (s : State) : Out := .next (cmpBranch k f 4 s)
/-- BGEU (R87). -/
def execBgeu (k : Nat) (f : F) (s : State) : Out := .next (cmpBranch k f 5 s)
/-- BANY (R86). -/
def execBany (k : Nat) (f : F) (s : State) : Out :=
  .next (directBranch k f (f.d == 0 && f.a == 0 && f.b == 0) false (fun t => maskOf t f != 0) s)
/-- BALL (R86). -/
def execBall (k : Nat) (f : F) (s : State) : Out :=
  .next (directBranch k f (f.d == 0 && f.a == 0 && f.b == 0) false (fun t => maskOf t f == 0xFFFF) s)
/-- BNONE (R86). -/
def execBnone (k : Nat) (f : F) (s : State) : Out :=
  .next (directBranch k f (f.d == 0 && f.a == 0 && f.b == 0) false (fun t => maskOf t f == 0) s)
/-- CALL (R86): d must be 31. -/
def execCall (k : Nat) (f : F) (s : State) : Out :=
  .next (directBranch k f (f.d == 31 && f.a == 0 && f.b == 0) true (braTaken f) s)
/-- JR (R87): b and imm must be 0. -/
def execJr (k : Nat) (f : F) (s : State) : Out :=
  .next (indirectBranch k f (f.d == 0 && f.b == 0 && immZero f) false s)
/-- CALLR (R87): d must be 31, b and imm 0. -/
def execCallr (k : Nat) (f : F) (s : State) : Out :=
  .next (indirectBranch k f (f.d == 31 && f.b == 0 && immZero f) true s)

end Sys2Proof.Machine
end

