-- ==== Sys2Proof/Machine/QPkt.lean ====
section
/-!
DEFINITION. The packet group (opcode 0x18, R81, R249, Table 3-12). Its buffers are those of Table 9-3.
-/

namespace Sys2Proof.Machine

/-- Bytes of a packet buffer (R249). -/
def pktSize : Nat := 9632

/-- A buffer that a task holds. -/
def pktOf (t : Task) (h : W32) : Option PktBuf := t.pkts.find? (fun b => b.handle == h)

/-- A held buffer replaced. -/
def setPkt (b : PktBuf) (t : Task) : Task :=
  { t with pkts := t.pkts.map (fun x => if x.handle = b.handle then b else x) }

/-- A handle given up. -/
def dropPkt (h : W32) (t : Task) : Task := { t with pkts := t.pkts.filter (fun x => x.handle != h) }

/-- A byte of a buffer; one that nothing has written is a free value. -/
def PktBuf.byte (b : PktBuf) (o : Nat) : Byte :=
  match Map.find? b.bytes o with
  | some v => v
  | none => Config.pktByte b.fresh o

/-- Bytes of a buffer. -/
def PktBuf.read (b : PktBuf) (o n : Nat) : List Byte := (List.range n).map (fun i => b.byte (o + i))

/-- Frame length of a buffer; one that nothing has set is a free value of 60 to 9,600. -/
def PktBuf.frameLen (b : PktBuf) : Nat :=
  match b.len with
  | some n => n
  | none => 60 + Config.pktLen b.fresh % 9541

/-- A packet instruction in the scalar slot (Table 2-8). -/
def pktUse (cyc : Nat) (f : F) (srcs dst : List Nat) : Use := ⟨cyc, 0, false, false, regP f.p.toNat :: srcs, dst⟩

/-- A packet instruction: nothing under a false predicate (R34), else PRIVILEGE, then SPEC_SIDE_EFFECT (R40, R81) after
the causes that go before it (R56), which `pre` gives. -/
def pktOp (k : Nat) (u : Use) (f : F) (legal : Bool) (pre : State → Task → Option Exc) (body : Body) (s : State) : State :=
  issue k u legal (fun s t =>
    if !predRuns f.p (maskOf t f) then .keep s (advancePc t)
    else if !privileged s t then .exc ⟨2, instrAddr t⟩
    else
      match pre s t with
      | some x => .exc x
      | none => if undoable t then .exc ⟨7, instrAddr t⟩ else body s t) s

/-- Whether a handle is held by some task. -/
def handleHeld (s : State) (h : W32) : Bool := (allTasks s).any (fun t => t.pkts.any (fun b => b.handle == h))

/-- MEM_FAULT for a handle that the task does not hold (R81). DESIGN CHOICE (log 109): cr.exinfo, which Table 2-14 gives
as a byte offset or address, reports the handle. -/
def heldOr (f : F) (_ : State) (t : Task) : Option Exc := if (pktOf t (sreg t f.a)).isSome then none else some ⟨4, sreg t f.a⟩

/-- ALIGN and MEM_FAULT of a word of a buffer (R56, R81). -/
def wordOr (f : F) (s : State) (t : Task) : Option Exc :=
  let o := (sreg t f.b).toNat
  if o % 4 != 0 then some ⟨3, sreg t f.b⟩
  else
    match heldOr f s t with
    | some x => some x
    | none => if pktSize ≤ o then some ⟨4, sreg t f.b⟩ else none

/-- PKT.ALLOC (R81): the handle is a free value, 0 where no buffer is free. -/
def execPktAlloc (k : Nat) (f : F) (s : State) : Out :=
  .next (pktOp k (pktUse 2 f [] [regS f.d]) f (immZero f) (fun _ _ => none) (fun s t =>
    let h := Config.pktHandle s.free
    if h = 0 || handleHeld s h then .keep (draw s) (advancePc (setS f.d 0 t))
    else .keep (draw s) (advancePc (setS f.d h { t with pkts := t.pkts ++ [⟨h, [], none, s.free⟩] }))) s)

/-- PKT.RD (R81, R249). -/
def execPktRd (k : Nat) (f : F) (s : State) : Out :=
  .next (pktOp k (pktUse 1 f [regS f.a, regS f.b] [regS f.d]) f (immZero f) (wordOr f) (fun s t =>
    match pktOf t (sreg t f.a) with
    | none => .keep s (advancePc t)
    | some b => .keep s (advancePc (setS f.d (BitVec.ofNat 32 (ofLe (b.read (sreg t f.b).toNat 4))) t))) s)

/-- PKT.WR (R81, R249). -/
def execPktWr (k : Nat) (f : F) (s : State) : Out :=
  .next (pktOp k (pktUse 1 f [regS f.a, regS f.b, regS (cField f)] []) f (immC f) (wordOr f) (fun s t =>
    match pktOf t (sreg t f.a) with
    | none => .keep s (advancePc t)
    | some b =>
      let o := (sreg t f.b).toNat
      let bytes := (leBytes 4 (sreg t (cField f)).toNat).zipIdx.foldl (fun m x => Map.put m (o + x.2) x.1) b.bytes
      .keep s (advancePc (setPkt { b with bytes := bytes } t))) s)

/-- PKT.LEN (R81): a length outside 60 to 9,600 raises MEM_FAULT. DESIGN CHOICE (log 109): cr.exinfo reports the length. -/
def execPktLen (k : Nat) (f : F) (s : State) : Out :=
  .next (pktOp k (pktUse 1 f [regS f.a, regS f.b] []) f (immZero f)
    (fun s t =>
      match heldOr f s t with
      | some x => some x
      | none => if (sreg t f.b).toNat < 60 || 9600 < (sreg t f.b).toNat then some ⟨4, sreg t f.b⟩ else none)
    (fun s t =>
      match pktOf t (sreg t f.a) with
      | none => .keep s (advancePc t)
      | some b => .keep s (advancePc (setPkt { b with len := some (sreg t f.b).toNat } t))) s)

/-- The bits of s[b] that PKT.SEND requires to be zero. -/
def sendZero (v : W32) : Bool := v.toNat / 32 % 8 == 0 && v.toNat / 2 ^ 11 == 0

/-- The frame of a packet buffer (Table 9-3). -/
def pktFrame (b : PktBuf) (cls : Nat) : QFrame :=
  let w2 := ofLe (b.read 8 4)
  let w3 := ofLe (b.read 12 4)
  let data := b.read 32 b.frameLen
  let tagged := data.take 12 ++ [0x81, 0x00] ++ beBytes 2 (bitsOf w3 12 3 * 8192 + w3 % 4096) ++ data.drop 12
  let bytes := if w3 / 2 ^ 15 % 2 = 1 then tagged else data
  ⟨cls, BitVec.ofNat 64 (ofLe (b.read 0 8)), .pkt, none, bytes, bytes.length, BitVec.ofNat 16 w2, w2 / 65536 % 2 == 1, false⟩

/-- PKT.SEND (R81, R249, R390): non-zero bits of s[b] that must be 0 raise ILLEGAL; a port that sends nothing, and a frame
too long (R242), discard it without completion. -/
def execPktSend (k : Nat) (f : F) (s : State) : Out :=
  .next (issue k (pktUse 2 f [regS f.a, regS f.b] []) (immZero f) (fun s t =>
    if predRuns f.p (maskOf t f) && !sendZero (sreg t f.b) then .exc ⟨1, instrAddr t⟩
    else if !predRuns f.p (maskOf t f) then .keep s (advancePc t)
    else if !privileged s t then .exc ⟨2, instrAddr t⟩
    else
      match pktOf t (sreg t f.a) with
      | none => .exc ⟨4, sreg t f.a⟩
      | some b =>
        if undoable t then .exc ⟨7, instrAddr t⟩
        else
          let v := (sreg t f.b).toNat
          let q := pktFrame b (bitsOf v 8 3)
          .keep (if 9600 < q.len then s else enqueue (v % 32) q s) (advancePc (dropPkt (sreg t f.a) t))) s)

/-- PKT.FREE (R81). -/
def execPktFree (k : Nat) (f : F) (s : State) : Out :=
  .next (pktOp k (pktUse 1 f [regS f.a] []) f (immZero f) (heldOr f) (fun s t => .keep s (advancePc (dropPkt (sreg t f.a) t))) s)

end Sys2Proof.Machine
end

