-- ==== Sys2Proof/Machine/QScalar.lean ====
section
/-!
DEFINITION. The scalar ALU (opcode 0x00, R61) and the scalar immediate group (opcode 0x01, R62).
-/

namespace Sys2Proof.Machine

/-- Shift count of a word: its low five bits. -/
def sh (b : W32) : Nat := b.toNat % 32

/-- Signed choice. -/
def sMin (a b : W32) : W32 := if a.slt b then a else b
/-- Signed choice. -/
def sMax (a b : W32) : W32 := if a.slt b then b else a
/-- Unsigned choice. -/
def uMin (a b : W32) : W32 := if a.ult b then a else b
/-- Unsigned choice. -/
def uMax (a b : W32) : W32 := if a.ult b then b else a
/-- A truth value as a word. -/
def w1 (b : Bool) : W32 := if b then 1 else 0
/-- High word of the signed product. -/
def mulHi (a b : W32) : W32 := BitVec.ofInt 32 (a.toInt * b.toInt / 4294967296)
/-- High word of the unsigned product. -/
def mulHiU (a b : W32) : W32 := BitVec.ofNat 32 (a.toNat * b.toNat / 4294967296)
/-- A px16 operation on low halves, zero-extended. -/
def pxOp (g : Nat → Nat → Nat) (a b : W32) : W32 := BitVec.ofNat 32 (g (a.toNat % 65536) (b.toNat % 65536))

/-- ADD (R61). -/
def execAdd (k : Nat) (f : F) (s : State) : Out := .next (alu2 k f 1 (fun a b => a + b) s)
/-- SUB (R61). -/
def execSub (k : Nat) (f : F) (s : State) : Out := .next (alu2 k f 1 (fun a b => a - b) s)
/-- AND (R61). -/
def execAnd (k : Nat) (f : F) (s : State) : Out := .next (alu2 k f 1 (fun a b => a &&& b) s)
/-- OR (R61). -/
def execOr (k : Nat) (f : F) (s : State) : Out := .next (alu2 k f 1 (fun a b => a ||| b) s)
/-- XOR (R61). -/
def execXor (k : Nat) (f : F) (s : State) : Out := .next (alu2 k f 1 (fun a b => a ^^^ b) s)
/-- SHL (R61). -/
def execShl (k : Nat) (f : F) (s : State) : Out := .next (alu2 k f 1 (fun a b => a <<< sh b) s)
/-- SHR (R61). -/
def execShr (k : Nat) (f : F) (s : State) : Out := .next (alu2 k f 1 (fun a b => a >>> sh b) s)
/-- SRA (R61). -/
def execSra (k : Nat) (f : F) (s : State) : Out := .next (alu2 k f 1 (fun a b => a.sshiftRight (sh b)) s)
/-- SLT (R61). -/
def execSlt (k : Nat) (f : F) (s : State) : Out := .next (alu2 k f 1 (fun a b => w1 (a.slt b)) s)
/-- SLTU (R61). -/
def execSltu (k : Nat) (f : F) (s : State) : Out := .next (alu2 k f 1 (fun a b => w1 (a.ult b)) s)
/-- MIN (R61). -/
def execMin (k : Nat) (f : F) (s : State) : Out := .next (alu2 k f 1 sMin s)
/-- MAX (R61). -/
def execMax (k : Nat) (f : F) (s : State) : Out := .next (alu2 k f 1 sMax s)
/-- MINU (R61). -/
def execMinu (k : Nat) (f : F) (s : State) : Out := .next (alu2 k f 1 uMin s)
/-- MAXU (R61). -/
def execMaxu (k : Nat) (f : F) (s : State) : Out := .next (alu2 k f 1 uMax s)
/-- SEL (R61). -/
def execSel (k : Nat) (f : F) (s : State) : Out := .next (alu3 k f (fun a b c => if c ≠ 0 then a else b) s)
/-- MUL (R61). -/
def execMul (k : Nat) (f : F) (s : State) : Out := .next (alu2 k f 1 (fun a b => a * b) s)
/-- MULH (R61). -/
def execMulh (k : Nat) (f : F) (s : State) : Out := .next (alu2 k f 1 mulHi s)
/-- MULHU (R61). -/
def execMulhu (k : Nat) (f : F) (s : State) : Out := .next (alu2 k f 1 mulHiU s)
/-- MAD (R61). -/
def execMad (k : Nat) (f : F) (s : State) : Out := .next (alu3 k f (fun a b c => a * b + c) s)
/-- DIV (R52). -/
def execDiv (k : Nat) (f : F) (s : State) : Out := .next (alu2 k f 12 quotS s)
/-- DIVU (R52). -/
def execDivu (k : Nat) (f : F) (s : State) : Out := .next (alu2 k f 12 quotU s)
/-- REM (R52). -/
def execRem (k : Nat) (f : F) (s : State) : Out := .next (alu2 k f 12 remS s)
/-- REMU (R52). -/
def execRemu (k : Nat) (f : F) (s : State) : Out := .next (alu2 k f 12 remU s)
/-- PXMUL (R25). -/
def execPxmul (k : Nat) (f : F) (s : State) : Out := .next (alu2 k f 1 (pxOp pxMul) s)
/-- PXADD (R25). -/
def execPxadd (k : Nat) (f : F) (s : State) : Out := .next (alu2 k f 1 (pxOp pxAdd) s)
/-- PXSUB (R25). -/
def execPxsub (k : Nat) (f : F) (s : State) : Out := .next (alu2 k f 1 (pxOp pxSub) s)
/-- PAND (R61). -/
def execPand (k : Nat) (f : F) (s : State) : Out := .next (pred2 k f (fun a b => a &&& b) s)
/-- POR (R61). -/
def execPor (k : Nat) (f : F) (s : State) : Out := .next (pred2 k f (fun a b => a ||| b) s)
/-- PXOR (R61). -/
def execPxor (k : Nat) (f : F) (s : State) : Out := .next (pred2 k f (fun a b => a ^^^ b) s)
/-- PANDN (R61). -/
def execPandn (k : Nat) (f : F) (s : State) : Out := .next (pred2 k f (fun a b => a &&& ~~~b) s)
/-- PMOV (R61): a is a scalar register, and b must be 0. -/
def execPmov (k : Nat) (f : F) (s : State) : Out :=
  .next (predOp k f [regS f.a] (f.b == 0) (fun t => BitVec.ofNat 16 (sreg t f.a).toNat) s)
/-- PRD (R61): a names a predicate, and b must be 0. -/
def execPrd (k : Nat) (f : F) (s : State) : Out :=
  .next (scalarOp k f (sUse 1 f [regP f.a.toNat]) (immZero f && f.b == 0 && isPredF f.a) (fun t => BitVec.ofNat 32 (preg t f.a.toNat).toNat) s)

/-- ADDI (R62). -/
def execAddi (k : Nat) (f : F) (s : State) : Out := .next (aluImm k f true (fun a i => a + i) s)
/-- ANDI (R62). -/
def execAndi (k : Nat) (f : F) (s : State) : Out := .next (aluImm k f true (fun a i => a &&& i) s)
/-- ORI (R62). -/
def execOri (k : Nat) (f : F) (s : State) : Out := .next (aluImm k f true (fun a i => a ||| i) s)
/-- XORI (R62). -/
def execXori (k : Nat) (f : F) (s : State) : Out := .next (aluImm k f true (fun a i => a ^^^ i) s)
/-- SHLI (R62): imm[31:5] must be zero. -/
def execShli (k : Nat) (f : F) (s : State) : Out := .next (aluImm k f (immC f) (fun a i => a <<< sh i) s)
/-- SHRI (R62). -/
def execShri (k : Nat) (f : F) (s : State) : Out := .next (aluImm k f (immC f) (fun a i => a >>> sh i) s)
/-- SRAI (R62). -/
def execSrai (k : Nat) (f : F) (s : State) : Out := .next (aluImm k f (immC f) (fun a i => a.sshiftRight (sh i)) s)
/-- SLTI (R62). -/
def execSlti (k : Nat) (f : F) (s : State) : Out := .next (aluImm k f true (fun a i => w1 (a.slt i)) s)
/-- SLTIU (R62). -/
def execSltiu (k : Nat) (f : F) (s : State) : Out := .next (aluImm k f true (fun a i => w1 (a.ult i)) s)
/-- MULI (R62). -/
def execMuli (k : Nat) (f : F) (s : State) : Out := .next (aluImm k f true (fun a i => a * i) s)
/-- LI (R62): the a field must be zero. -/
def execLi (k : Nat) (f : F) (s : State) : Out := .next (aluImm k f (f.a == 0) (fun _ i => i) s)

end Sys2Proof.Machine
end

