-- ==== Sys2Proof/Machine/QSystem.lean ====
section
/-!
DEFINITION. The system group (opcode 0x3F, R88, R89), the control registers (R23, Table 2-3) and reserved words (R35).
-/

namespace Sys2Proof.Machine

/-- The value of a control register for a task; none for an unlisted number (R23). -/
def crValue (t : Task) (n : Nat) : Option W32 :=
  match n with
  | 0x00 => some (t.epoch.getD 0xFFFFFFFF)
  | 0x01 => some t.inep
  | 0x02 => some (match t.canvas with | some c => BitVec.ofNat 32 c | none => 0xFF)
  | 0x03 => some (BitVec.ofNat 32 t.ctx)
  | 0x04 =>
    some (BitVec.ofNat 32 ((if t.firm then 1 else 0) + (if t.priv then 2 else 0) +
      (if t.demoted then 4 else 0) + (if t.resumed then 8 else 0)))
  | 0x05 => some (BitVec.ofNat 32 (dw t.desc 3))
  | 0x06 => some (if t.canvas.isSome then t.torg else Config.crOpen 6 t.desc)
  | 0x07 => some (if t.canvas.isSome then t.tsize else Config.crOpen 7 t.desc)
  | 0x08 => some (BitVec.ofNat 32 ((Config.scratchBase t.desc).toNat * 256))
  | 0x09 => some (BitVec.ofNat 32 t.prog.scratch)
  | 0x0A => some 16
  | 0x0B => some (if t.canvas.isSome && t.epoch.isSome then BitVec.ofNat 32 t.latch.toNat else Config.crOpen 11 t.desc)
  | 0x0C =>
    some (if t.canvas.isSome && t.epoch.isSome then BitVec.ofNat 32 (t.latch.toNat / 2 ^ 32)
      else Config.crOpen 12 t.desc)
  | 0x0D => some (if t.canvas.isSome then BitVec.ofNat 32 t.period else Config.crOpen 13 t.desc)
  | 0x0E => some (BitVec.ofNat 32 t.readSet.length)
  | 0x0F => some (BitVec.ofNat 32 t.excode)
  | 0x10 => some t.exinfo
  | 0x11 => some (if t.priv then BitVec.ofNat 32 t.core else 0)
  | 0x14 => some (BitVec.ofNat 32 (dw t.desc 4))
  | 0x15 => some (BitVec.ofNat 32 (dw t.desc 5))
  | 0x16 => some (BitVec.ofNat 32 (dw t.desc 6))
  | 0x17 => some (BitVec.ofNat 32 (dw t.desc 7))
  | _ => none

/-- Format S: b and the predicate are zero (Table 2-7). -/
def sysZero (f : F) : Bool := f.b == 0 && f.p == 0

/-- cr.epoch, cr.inep, cr.latlo and cr.lathi keep an epoch from counting as quiet (R142). -/
def crTimed (n : Nat) (t : Task) (s : State) : State :=
  if n = 0 || n = 1 || n = 0x0B || n = 0x0C then markTimed t s else s

/-- NOP (R88): d, a and imm must be 0. -/
def execNop (k : Nat) (f : F) (s : State) : Out :=
  .next (issue k (aloneUse 1) (sysZero f && f.d == 0 && f.a == 0 && immZero f) (pureBody (fun t => t)) s)

/-- CRR (R23): an unlisted number raises ILLEGAL. -/
def execCrr (k : Nat) (f : F) (s : State) : Out :=
  .next (issue k (aloneUse 1) (sysZero f) (fun s t =>
    match crValue t f.imm.toNat with
    | some v => .keep (crTimed f.imm.toNat t s) (advancePc (setS f.d v t))
    | none => .exc ⟨1, instrAddr t⟩) s)

/-- VCRR (R23): every lane takes the value; cr.lane gives lane `i` the value `i`. -/
def execVcrr (k : Nat) (f : F) (s : State) : Out :=
  .next (issue k (aloneUse 1) (sysZero f) (fun s t =>
    match crValue t f.imm.toNat with
    | some v =>
      .keep (crTimed f.imm.toNat t s) (advancePc (lanes.foldl (fun u i =>
        setLane f.d.toNat i (if f.imm.toNat = 0x0A then BitVec.ofNat 32 i else v) u) t))
    | none => .exc ⟨1, instrAddr t⟩) s)

/-- FENCE (R48): the task's earlier frame-memory stores become visible. -/
def execFence (k : Nat) (f : F) (s : State) : Out :=
  .next (issue k (aloneUse 1) (sysZero f) (fun s t => .keep (flushStores t s) (advancePc { t with stores := [] })) s)

/-- BRK (R88). -/
def execBrk (k : Nat) (f : F) (s : State) : Out :=
  .next (issue k (aloneUse 1) (sysZero f) (fun _ _ => .exc ⟨0x0B, f.imm⟩) s)

/-- TRAP (R88). -/
def execTrap (k : Nat) (f : F) (s : State) : Out :=
  .next (issue k (aloneUse 1) (sysZero f) (fun _ _ => .exc ⟨0x0C, f.imm⟩) s)

/-- A software counter of a context increased (R366). -/
def swCount (c n : Nat) (v : W32) (s : State) : State :=
  let old := Map.get (fun _ => 0) s.swcnt (8 * c + n)
  { s with swcnt := Map.set (fun _ => 0) s.swcnt (8 * c + n) (old + BitVec.ofNat 48 v.toNat) }

/-- CNT.ADD (R89, R366): a counter write is a side effect; imm[31:3] must be 0. -/
def execCntAdd (k : Nat) (f : F) (s : State) : Out :=
  .next (issue k (aloneUse 1) (sysZero f && decide (f.imm.toNat < 8)) (fun s t =>
    if undoable t then .exc ⟨7, instrAddr t⟩
    else .keep (swCount t.ctx f.imm.toNat (sreg t f.a) s) (advancePc t)) s)

/-- A word with a reserved opcode or an unassigned function raises ILLEGAL (R35). -/
def execReservedInstruction (k : Nat) (w : W64) (s : State) : Out :=
  if (decodeWord k w).isNone then .next (issue k (aloneUse 1) false (fun s t => .keep s t) s) else .next s

end Sys2Proof.Machine
end

