-- ==== Sys2Proof/Machine/QTask.lean ====
section
/-!
DEFINITION. Task control (opcode 0x1C, R82 to R84): YIELD, DONE, SPAWN, POST and CANCEL.
-/

namespace Sys2Proof.Machine

/-- A task instruction that its predicate disables has no effect (R34). -/
def taskOp (k cyc : Nat) (f : F) (body : Body) (s : State) : State :=
  issue k (aloneUse cyc) (immZero f) (fun s t => if predRuns f.p (maskOf t f) then body s t else .keep s (advancePc t)) s

/-- YIELD (R82). -/
def execYield (k : Nat) (f : F) (s : State) : Out :=
  .next (taskOp k 4 f (fun s t => .gone (yieldTask (advancePc t) s)) s)

/-- DONE (R82): s[a][15:0] goes to the program status. -/
def execDone (k : Nat) (f : F) (s : State) : Out :=
  .next (taskOp k 4 f (fun s t => .gone (completeOk (advancePc t) ((sreg t f.a).toNat % 65536) s)) s)

/-- The descriptor at a scratch offset. -/
def spawnDesc (t : Task) (o : Nat) : List W32 :=
  withCtx ((List.range 8).map (fun k => BitVec.ofNat 32 (scratchNat t (o + 4 * k) 4))) t.ctx

/-- A SPAWN descriptor as its child takes it: with EMODE 0b01 the parent's canvas (R93). -/
def childDesc (t : Task) (d : List W32) : List W32 :=
  if dEmode d = 1 then withCanvas d (match t.canvas with | some c => c | none => 255) else d

/-- The epoch of a SPAWN child. -/
def childEpoch (t : Task) (d : List W32) : Option W32 :=
  if dEmode d = 2 then none else if dEmode d = 1 then t.epoch else some (BitVec.ofNat 32 (dw d 2))

/-- Whether a child is a SPEC task of the parent's canvas and epoch (R40). -/
def pureChild (t : Task) (d : List W32) : Bool :=
  !dFirm d && t.canvas == some (dCanvas d) && childEpoch t d == t.epoch

/-- SPAWN (R83): ordinals count from 1 within the run; without a free slot the task yields and executes SPAWN again
when one frees, and the SPAWN counts once among the steps, which do not depend on timing (R109; DEDUCED, log 110).
DESIGN CHOICE (log 111): an offset that is misaligned or outside the scratch area raises ALIGN or MEM_FAULT, since no
descriptor can be read there to be judged under R94. -/
def execSpawn (k : Nat) (f : F) (s : State) : Out :=
  .next (taskOp k 8 f (fun s t =>
    let o : Int := ((sreg t f.a).toNat : Int)
    match checkElems [o] 32 (within t.prog.scratch 32) with
    | some x => .exc x
    | none =>
      let d := childDesc t (spawnDesc t (sreg t f.a).toNat)
      if descBad s d t.ctx then .exc ⟨1, instrAddr t⟩
      else if undoable t && !pureChild t d then .exc ⟨7, instrAddr t⟩
      else
        match (if slotQuotaHit s t.ctx then none else nextSlot s) with
        | none =>
          .gone (setTask { t with st := .waiting, saved := true, steps := t.steps - 1, spill := t.lastCore.map (fun q => q / 8) } s)
        | some slot =>
          let n := t.children.length + 1
          let id := s.sch.nextId
          let s' := createTask d t.ctx (childEpoch t d) (progSnap s (dProg d)) none (some t.id) slot s
          .keep s' (advancePc (setS f.d (BitVec.ofNat 32 n) { t with children := t.children ++ [(n, slot, id)] }))) s)

/-- POST (R82): a side effect (R40). -/
def execPost (k : Nat) (f : F) (s : State) : Out :=
  .next (taskOp k 2 f (fun s t =>
    if undoable t then .exc ⟨7, instrAddr t⟩
    else
      let p : PostRec := ⟨t.slot, t.ctx, BitVec.ofNat 16 (sreg t f.b).toNat, sreg t f.a⟩
      .keep (raise 18 t.ctx { s with sch := { s.sch with posts := s.sch.posts ++ [p] } }) (advancePc t)) s)

/-- The live task that CANCEL names (R84): a child of the current run by its ordinal, or a slot of the context. -/
def cancelTarget (s : State) (t : Task) (h : W32) : Option Task :=
  if h.toNat < 2 ^ 31 then
    match t.children.find? (fun x => x.1 == h.toNat) with
    | some x => (match taskAt s x.2.1 with | some u => if u.id = x.2.2 then some u else none | none => none)
    | none => none
  else
    match taskAt s (h.toNat % 65536) with
    | some u => if u.ctx = t.ctx then some u else none
    | none => none

/-- CANCEL (R84): a side effect (R40). -/
def execCancel (k : Nat) (f : F) (s : State) : Out :=
  .next (taskOp k 2 f (fun s t =>
    if undoable t then .exc ⟨7, instrAddr t⟩
    else
      match cancelTarget s t (sreg t f.a) with
      | none => .keep s (advancePc t)
      | some u => if u.slot = t.slot then .gone (cancelTask (advancePc t) s) else .keep (cancelTask u s) (advancePc t)) s)

end Sys2Proof.Machine
end

