-- ==== Sys2Proof/Machine/QVector.lean ====
section
/-!
DEFINITION. The vector integer group (opcode 0x08, R63, R64) and the vector float group (opcode 0x09, R65).
-/

namespace Sys2Proof.Machine

/-- Type codes 5 to 7 are illegal in the vector integer group (R63). -/
def intType (t : BitVec 3) : Bool := decide (t.toNat < 5)

/-- An integer lane operation of two sources. -/
def vint2 (k : Nat) (t : BitVec 3) (f : F) (g : W32 → W32 → W32) (s : State) : State :=
  vecOp k f (vUse 1 1 f (regsV f.a 1 ++ regsV f.b 1)) (intType t && immZero f) (fun u i => g (la f u i) (lb f u i)) s

/-- Sum, wrapped or saturated. -/
def vSum (sat : Bool) (t : Nat) (a b : W32) : W32 :=
  if sat then laneSat t (laneInt t a + laneInt t b) else laneWrap t (laneInt t a + laneInt t b)
/-- Difference, wrapped or saturated. -/
def vDiff (sat : Bool) (t : Nat) (a b : W32) : W32 :=
  if sat then laneSat t (laneInt t a - laneInt t b) else laneWrap t (laneInt t a - laneInt t b)
/-- A bitwise operation at a type's width. -/
def vBits (t : Nat) (g : Nat → Nat → Nat) (a b : W32) : W32 := extend t (g (laneNat t a) (laneNat t b))
/-- Left shift; bits beyond the width are lost. -/
def vShiftL (t : Nat) (a b : W32) : W32 := extend t (laneNat t a * 2 ^ (b.toNat % 32) % 2 ^ typeBits t)
/-- Right shift: sign fill for s16 and s32, zeros for the others. -/
def vShiftR (t : Nat) (a b : W32) : W32 := laneWrap t (laneInt t a / (2 ^ (b.toNat % 32) : Nat))
/-- Minimum and maximum. -/
def vPick (max : Bool) (t : Nat) (a b : W32) : W32 :=
  laneWrap t (if (decide (laneInt t a < laneInt t b)) == max then laneInt t b else laneInt t a)

/-- VADD (R63). -/
def execVadd (k : Nat) (t : BitVec 3) (f : F) (s : State) : Out := .next (vint2 k t f (vSum false t.toNat) s)
/-- VSUB (R63). -/
def execVsub (k : Nat) (t : BitVec 3) (f : F) (s : State) : Out := .next (vint2 k t f (vDiff false t.toNat) s)
/-- VADDS (R63). -/
def execVadds (k : Nat) (t : BitVec 3) (f : F) (s : State) : Out := .next (vint2 k t f (vSum true t.toNat) s)
/-- VSUBS (R63). -/
def execVsubs (k : Nat) (t : BitVec 3) (f : F) (s : State) : Out := .next (vint2 k t f (vDiff true t.toNat) s)
/-- VAND (R63). -/
def execVand (k : Nat) (t : BitVec 3) (f : F) (s : State) : Out := .next (vint2 k t f (vBits t.toNat Nat.land) s)
/-- VOR (R63). -/
def execVor (k : Nat) (t : BitVec 3) (f : F) (s : State) : Out := .next (vint2 k t f (vBits t.toNat Nat.lor) s)
/-- VXOR (R63). -/
def execVxor (k : Nat) (t : BitVec 3) (f : F) (s : State) : Out := .next (vint2 k t f (vBits t.toNat Nat.xor) s)
/-- VSHL (R63). -/
def execVshl (k : Nat) (t : BitVec 3) (f : F) (s : State) : Out := .next (vint2 k t f (vShiftL t.toNat) s)
/-- VSHR (R63). -/
def execVshr (k : Nat) (t : BitVec 3) (f : F) (s : State) : Out := .next (vint2 k t f (vShiftR t.toNat) s)
/-- VMIN (R63). -/
def execVmin (k : Nat) (t : BitVec 3) (f : F) (s : State) : Out := .next (vint2 k t f (vPick false t.toNat) s)
/-- VMAX (R63). -/
def execVmax (k : Nat) (t : BitVec 3) (f : F) (s : State) : Out := .next (vint2 k t f (vPick true t.toNat) s)
/-- VMUL (R63). -/
def execVmul (k : Nat) (t : BitVec 3) (f : F) (s : State) : Out :=
  .next (vint2 k t f (fun a b => laneWrap t.toNat (laneInt t.toNat a * laneInt t.toNat b)) s)
/-- VMAD (R63). -/
def execVmad (k : Nat) (t : BitVec 3) (f : F) (s : State) : Out :=
  .next (vecOp k f (vUse 1 1 f (regsV f.a 1 ++ regsV f.b 1 ++ regsV (cField f) 1)) (intType t && immC f) (fun u i =>
    laneWrap t.toNat (laneInt t.toNat (la f u i) * laneInt t.toNat (lb f u i) + laneInt t.toNat (lc f u i))) s)
/-- VSEL (R64): c[2:0] is a predicate number, c[4:3] must be zero. -/
def execVsel (k : Nat) (t : BitVec 3) (f : F) (s : State) : Out :=
  .next (vecOp k f (vUse 1 1 f (regP f.imm.toNat :: (regsV f.a 1 ++ regsV f.b 1))) (intType t && decide (f.imm.toNat < 8)) (fun u i =>
    extend t.toNat (laneNat t.toNat (if pbit (preg u f.imm.toNat) i then la f u i else lb f u i))) s)
/-- VCMPEQ (R64). -/
def execVcmpeq (k : Nat) (t : BitVec 3) (f : F) (s : State) : Out :=
  .next (vecCmp k f (intType t && immZero f) (fun u i => cmpLane 0 t.toNat (la f u i) (lb f u i)) s)
/-- VCMPLT (R64). -/
def execVcmplt (k : Nat) (t : BitVec 3) (f : F) (s : State) : Out :=
  .next (vecCmp k f (intType t && immZero f) (fun u i => cmpLane 1 t.toNat (la f u i) (lb f u i)) s)
/-- VCMPLE (R64). -/
def execVcmple (k : Nat) (t : BitVec 3) (f : F) (s : State) : Out :=
  .next (vecCmp k f (intType t && immZero f) (fun u i => cmpLane 2 t.toNat (la f u i) (lb f u i)) s)
/-- VBCST (R64): b must be 0. -/
def execVbcst (k : Nat) (t : BitVec 3) (f : F) (s : State) : Out :=
  .next (vecOp k f (vUse 1 1 f [regS f.a]) (intType t && immZero f && f.b == 0) (fun u _ => extend t.toNat (laneNat t.toNat (sreg u f.a))) s)
/-- VEXT (R64): unpredicated, so its predicate has no effect. -/
def execVext (k : Nat) (t : BitVec 3) (f : F) (s : State) : Out :=
  .next (issue k ⟨1, 1, false, false, regS f.b :: regsV f.a 1, [regS f.d]⟩ (intType t && immZero f) (pureBody (fun u =>
    setS f.d (extend t.toNat (laneNat t.toNat (lane u f.a.toNat ((sreg u f.b).toNat % 16)))) u)) s)
/-- The sum of the active lanes (R64). -/
def laneTotal (t : Nat) (f : F) (u : Task) : Int := (activeLanes u f).foldl (fun a i => a + laneInt t (la f u i)) 0
/-- VRADD (R64): wraps at the type width. -/
def execVradd (k : Nat) (t : BitVec 3) (f : F) (s : State) : Out :=
  .next (issue k ⟨1, 1, false, false, regP f.p.toNat :: regsV f.a 1, [regS f.d]⟩ (intType t && immZero f)
    (pureBody (fun u => setS f.d (laneWrap t.toNat (laneTotal t.toNat f u)) u)) s)
/-- VPERM (R63). -/
def execVperm (k : Nat) (t : BitVec 3) (f : F) (s : State) : Out :=
  .next (vecOp k f (vUse 1 1 f (regsV f.a 1 ++ regsV f.b 1)) (intType t && immZero f) (fun u i =>
    extend t.toNat (laneNat t.toNat (lane u f.a.toNat ((lb f u i).toNat % 16)))) s)

/-- The bits of a float lane. -/
def fl (h : Bool) (x : W32) : Nat := x.toNat % 2 ^ (fmtOf h).width

/-- A float lane operation of two sources. -/
def vfl2 (k cyc : Nat) (h : Bool) (f : F) (g : Nat → Nat → Nat) (s : State) : State :=
  vecOp k f (vUse cyc 1 f (regsV f.a 1 ++ regsV f.b 1)) (immZero f) (fun u i => BitVec.ofNat 32 (g (fl h (la f u i)) (fl h (lb f u i)))) s

/-- A float lane operation of one source; `bz` where b must be zero. -/
def vfl1 (k cyc : Nat) (h bz : Bool) (f : F) (g : Nat → W32) (s : State) : State :=
  vecOp k f (vUse cyc 1 f (regsV f.a 1)) (immZero f && (!bz || f.b == 0)) (fun u i => g (fl h (la f u i))) s

/-- VFADD (R65). -/
def execVfadd (k : Nat) (half : Bool) (f : F) (s : State) : Out := .next (vfl2 k 1 half f (fadd (fmtOf half)) s)
/-- VFSUB (R65). -/
def execVfsub (k : Nat) (half : Bool) (f : F) (s : State) : Out := .next (vfl2 k 1 half f (fsub (fmtOf half)) s)
/-- VFMUL (R65). -/
def execVfmul (k : Nat) (half : Bool) (f : F) (s : State) : Out := .next (vfl2 k 1 half f (fmul (fmtOf half)) s)
/-- VFMA (R65): rounded once. -/
def execVfma (k : Nat) (half : Bool) (f : F) (s : State) : Out :=
  .next (vecOp k f (vUse 1 1 f (regsV f.a 1 ++ regsV f.b 1 ++ regsV (cField f) 1)) (immC f) (fun u i =>
    BitVec.ofNat 32 (ffma (fmtOf half) (fl half (la f u i)) (fl half (lb f u i)) (fl half (lc f u i)))) s)
/-- VFMIN (R65). -/
def execVfmin (k : Nat) (half : Bool) (f : F) (s : State) : Out := .next (vfl2 k 1 half f (fpick (fmtOf half) false) s)
/-- VFMAX (R65). -/
def execVfmax (k : Nat) (half : Bool) (f : F) (s : State) : Out := .next (vfl2 k 1 half f (fpick (fmtOf half) true) s)
/-- VFDIV (R65). -/
def execVfdiv (k : Nat) (half : Bool) (f : F) (s : State) : Out := .next (vfl2 k 14 half f (fdiv (fmtOf half)) s)
/-- VFSQRT (R65): b must be 0. -/
def execVfsqrt (k : Nat) (half : Bool) (f : F) (s : State) : Out :=
  .next (vfl1 k 14 half true f (fun a => BitVec.ofNat 32 (fsqrt (fmtOf half) a)) s)
/-- VFCMPEQ (R65). -/
def execVfcmpeq (k : Nat) (half : Bool) (f : F) (s : State) : Out :=
  .next (vecCmp k f (immZero f) (fun u i => fcmpLane 0 (fmtOf half) (la f u i) (lb f u i)) s)
/-- VFCMPLT (R65). -/
def execVfcmplt (k : Nat) (half : Bool) (f : F) (s : State) : Out :=
  .next (vecCmp k f (immZero f) (fun u i => fcmpLane 1 (fmtOf half) (la f u i) (lb f u i)) s)
/-- VFCMPLE (R65). -/
def execVfcmple (k : Nat) (half : Bool) (f : F) (s : State) : Out :=
  .next (vecCmp k f (immZero f) (fun u i => fcmpLane 2 (fmtOf half) (la f u i) (lb f u i)) s)
/-- VFTOI (R65). -/
def execVftoi (k : Nat) (half : Bool) (f : F) (s : State) : Out :=
  .next (vfl1 k 1 half false f (ftoi (fmtOf half)) s)
/-- VITOF (R65): the source lane is an s32. -/
def execVitof (k : Nat) (half : Bool) (f : F) (s : State) : Out :=
  .next (vecOp k f (vUse 1 1 f (regsV f.a 1)) (immZero f) (fun u i => BitVec.ofNat 32 (itof (fmtOf half) (la f u i))) s)
/-- VFTOPX (R25). -/
def execVftopx (k : Nat) (half : Bool) (f : F) (s : State) : Out :=
  .next (vfl1 k 1 half false f (fun a => BitVec.ofNat 32 (ftopx (fmtOf half) a)) s)
/-- VPXTOF (R25): the source lane is a px16. -/
def execVpxtof (k : Nat) (half : Bool) (f : F) (s : State) : Out :=
  .next (vecOp k f (vUse 1 1 f (regsV f.a 1)) (immZero f) (fun u i => BitVec.ofNat 32 (pxtof (fmtOf half) ((la f u i).toNat % 65536))) s)
/-- The lanes of a tree sum: an inactive lane contributes +0.0 (R65). -/
def treeLanes (h : Bool) (f : F) (u : Task) : List Nat :=
  lanes.map (fun i => if pbit (maskOf u f) i then fl h (la f u i) else 0)
/-- VFRADD (R65). -/
def execVfradd (k : Nat) (half : Bool) (f : F) (s : State) : Out :=
  .next (issue k ⟨1, 1, false, false, regP f.p.toNat :: regsV f.a 1, [regS f.d]⟩ (immZero f)
    (pureBody (fun u => setS f.d (BitVec.ofNat 32 (treeSum (fmtOf half) (treeLanes half f u))) u)) s)
/-- VFABS (R65). -/
def execVfabs (k : Nat) (half : Bool) (f : F) (s : State) : Out :=
  .next (vfl1 k 1 half false f (fun a => BitVec.ofNat 32 (fabs (fmtOf half) a)) s)
/-- VFNEG (R65). -/
def execVfneg (k : Nat) (half : Bool) (f : F) (s : State) : Out :=
  .next (vfl1 k 1 half false f (fun a => BitVec.ofNat 32 (fneg (fmtOf half) a)) s)

end Sys2Proof.Machine
end

