-- ==== Sys2Proof/Machine/Dispatch.lean ====
section
/-!
DEFINITION. The meaning of every command: one arm for each constructor of `Instr`.
-/

namespace Sys2Proof.Machine

/-- What a command does to the state. -/
def exec (i : Instr) (s : State) : Host.Outcome State Fault Refusal :=
  match i with
  | .add k f => Sys2Proof.Machine.execAdd k f s
  | .sub k f => Sys2Proof.Machine.execSub k f s
  | .and k f => Sys2Proof.Machine.execAnd k f s
  | .or k f => Sys2Proof.Machine.execOr k f s
  | .xor k f => Sys2Proof.Machine.execXor k f s
  | .shl k f => Sys2Proof.Machine.execShl k f s
  | .shr k f => Sys2Proof.Machine.execShr k f s
  | .sra k f => Sys2Proof.Machine.execSra k f s
  | .slt k f => Sys2Proof.Machine.execSlt k f s
  | .sltu k f => Sys2Proof.Machine.execSltu k f s
  | .min k f => Sys2Proof.Machine.execMin k f s
  | .max k f => Sys2Proof.Machine.execMax k f s
  | .minu k f => Sys2Proof.Machine.execMinu k f s
  | .maxu k f => Sys2Proof.Machine.execMaxu k f s
  | .sel k f => Sys2Proof.Machine.execSel k f s
  | .mul k f => Sys2Proof.Machine.execMul k f s
  | .mulh k f => Sys2Proof.Machine.execMulh k f s
  | .mulhu k f => Sys2Proof.Machine.execMulhu k f s
  | .mad k f => Sys2Proof.Machine.execMad k f s
  | .div k f => Sys2Proof.Machine.execDiv k f s
  | .divu k f => Sys2Proof.Machine.execDivu k f s
  | .rem k f => Sys2Proof.Machine.execRem k f s
  | .remu k f => Sys2Proof.Machine.execRemu k f s
  | .pxmul k f => Sys2Proof.Machine.execPxmul k f s
  | .pxadd k f => Sys2Proof.Machine.execPxadd k f s
  | .pxsub k f => Sys2Proof.Machine.execPxsub k f s
  | .pand k f => Sys2Proof.Machine.execPand k f s
  | .por k f => Sys2Proof.Machine.execPor k f s
  | .pxor k f => Sys2Proof.Machine.execPxor k f s
  | .pandn k f => Sys2Proof.Machine.execPandn k f s
  | .pmov k f => Sys2Proof.Machine.execPmov k f s
  | .prd k f => Sys2Proof.Machine.execPrd k f s
  | .addi k f => Sys2Proof.Machine.execAddi k f s
  | .andi k f => Sys2Proof.Machine.execAndi k f s
  | .ori k f => Sys2Proof.Machine.execOri k f s
  | .xori k f => Sys2Proof.Machine.execXori k f s
  | .shli k f => Sys2Proof.Machine.execShli k f s
  | .shri k f => Sys2Proof.Machine.execShri k f s
  | .srai k f => Sys2Proof.Machine.execSrai k f s
  | .slti k f => Sys2Proof.Machine.execSlti k f s
  | .sltiu k f => Sys2Proof.Machine.execSltiu k f s
  | .muli k f => Sys2Proof.Machine.execMuli k f s
  | .li k f => Sys2Proof.Machine.execLi k f s
  | .vadd k t f => Sys2Proof.Machine.execVadd k t f s
  | .vsub k t f => Sys2Proof.Machine.execVsub k t f s
  | .vadds k t f => Sys2Proof.Machine.execVadds k t f s
  | .vsubs k t f => Sys2Proof.Machine.execVsubs k t f s
  | .vand k t f => Sys2Proof.Machine.execVand k t f s
  | .vor k t f => Sys2Proof.Machine.execVor k t f s
  | .vxor k t f => Sys2Proof.Machine.execVxor k t f s
  | .vshl k t f => Sys2Proof.Machine.execVshl k t f s
  | .vshr k t f => Sys2Proof.Machine.execVshr k t f s
  | .vmin k t f => Sys2Proof.Machine.execVmin k t f s
  | .vmax k t f => Sys2Proof.Machine.execVmax k t f s
  | .vmul k t f => Sys2Proof.Machine.execVmul k t f s
  | .vmad k t f => Sys2Proof.Machine.execVmad k t f s
  | .vsel k t f => Sys2Proof.Machine.execVsel k t f s
  | .vcmpeq k t f => Sys2Proof.Machine.execVcmpeq k t f s
  | .vcmplt k t f => Sys2Proof.Machine.execVcmplt k t f s
  | .vcmple k t f => Sys2Proof.Machine.execVcmple k t f s
  | .vbcst k t f => Sys2Proof.Machine.execVbcst k t f s
  | .vext k t f => Sys2Proof.Machine.execVext k t f s
  | .vradd k t f => Sys2Proof.Machine.execVradd k t f s
  | .vperm k t f => Sys2Proof.Machine.execVperm k t f s
  | .vfadd k half f => Sys2Proof.Machine.execVfadd k half f s
  | .vfsub k half f => Sys2Proof.Machine.execVfsub k half f s
  | .vfmul k half f => Sys2Proof.Machine.execVfmul k half f s
  | .vfma k half f => Sys2Proof.Machine.execVfma k half f s
  | .vfmin k half f => Sys2Proof.Machine.execVfmin k half f s
  | .vfmax k half f => Sys2Proof.Machine.execVfmax k half f s
  | .vfdiv k half f => Sys2Proof.Machine.execVfdiv k half f s
  | .vfsqrt k half f => Sys2Proof.Machine.execVfsqrt k half f s
  | .vfcmpeq k half f => Sys2Proof.Machine.execVfcmpeq k half f s
  | .vfcmplt k half f => Sys2Proof.Machine.execVfcmplt k half f s
  | .vfcmple k half f => Sys2Proof.Machine.execVfcmple k half f s
  | .vftoi k half f => Sys2Proof.Machine.execVftoi k half f s
  | .vitof k half f => Sys2Proof.Machine.execVitof k half f s
  | .vftopx k half f => Sys2Proof.Machine.execVftopx k half f s
  | .vpxtof k half f => Sys2Proof.Machine.execVpxtof k half f s
  | .vfradd k half f => Sys2Proof.Machine.execVfradd k half f s
  | .vfabs k half f => Sys2Proof.Machine.execVfabs k half f s
  | .vfneg k half f => Sys2Proof.Machine.execVfneg k half f s
  | .vmix k t f => Sys2Proof.Machine.execVmix k t f s
  | .vmat3 k f => Sys2Proof.Machine.execVmat3 k f s
  | .vdith k n f => Sys2Proof.Machine.execVdith k n f s
  | .vunpkP16 k f => Sys2Proof.Machine.execVunpkP16 k f s
  | .vunpkU8 k f => Sys2Proof.Machine.execVunpkU8 k f s
  | .vunpkF16 k f => Sys2Proof.Machine.execVunpkF16 k f s
  | .vpackP16 k f => Sys2Proof.Machine.execVpackP16 k f s
  | .vpackU8 k f => Sys2Proof.Machine.execVpackU8 k f s
  | .vpackF16 k f => Sys2Proof.Machine.execVpackF16 k f s
  | .vlut k t f => Sys2Proof.Machine.execVlut k t f s
  | .vluti k t f => Sys2Proof.Machine.execVluti k t f s
  | .vgath k t f => Sys2Proof.Machine.execVgath k t f s
  | .vgathl k t f => Sys2Proof.Machine.execVgathl k t f s
  | .vscat k t f => Sys2Proof.Machine.execVscat k t f s
  | .ld k sp t f => Sys2Proof.Machine.execLd k sp t f s
  | .vld k sp t f => Sys2Proof.Machine.execVld k sp t f s
  | .vldb k sp t f => Sys2Proof.Machine.execVldb k sp t f s
  | .st k sp t f => Sys2Proof.Machine.execSt k sp t f s
  | .vst k sp t f => Sys2Proof.Machine.execVst k sp t f s
  | .reservedInstruction k w => Sys2Proof.Machine.execReservedInstruction k w s
  | .vsamp k nearest edge f => Sys2Proof.Machine.execVsamp k nearest edge f s
  | .specIn k f => Sys2Proof.Machine.execSpecIn k f s
  | .firmIn k f => Sys2Proof.Machine.execFirmIn k f s
  | .specVer k f => Sys2Proof.Machine.execSpecVer k f s
  | .firmVer k f => Sys2Proof.Machine.execFirmVer k f s
  | .etabRd k f => Sys2Proof.Machine.execEtabRd k f s
  | .etabWr k f => Sys2Proof.Machine.execEtabWr k f s
  | .pktAlloc k f => Sys2Proof.Machine.execPktAlloc k f s
  | .pktRd k f => Sys2Proof.Machine.execPktRd k f s
  | .pktWr k f => Sys2Proof.Machine.execPktWr k f s
  | .pktLen k f => Sys2Proof.Machine.execPktLen k f s
  | .pktSend k f => Sys2Proof.Machine.execPktSend k f s
  | .pktFree k f => Sys2Proof.Machine.execPktFree k f s
  | .yield k f => Sys2Proof.Machine.execYield k f s
  | .done k f => Sys2Proof.Machine.execDone k f s
  | .spawn k f => Sys2Proof.Machine.execSpawn k f s
  | .post k f => Sys2Proof.Machine.execPost k f s
  | .cancel k f => Sys2Proof.Machine.execCancel k f s
  | .bra k f => Sys2Proof.Machine.execBra k f s
  | .beq k f => Sys2Proof.Machine.execBeq k f s
  | .bne k f => Sys2Proof.Machine.execBne k f s
  | .blt k f => Sys2Proof.Machine.execBlt k f s
  | .bge k f => Sys2Proof.Machine.execBge k f s
  | .bltu k f => Sys2Proof.Machine.execBltu k f s
  | .bgeu k f => Sys2Proof.Machine.execBgeu k f s
  | .bany k f => Sys2Proof.Machine.execBany k f s
  | .ball k f => Sys2Proof.Machine.execBall k f s
  | .bnone k f => Sys2Proof.Machine.execBnone k f s
  | .call k f => Sys2Proof.Machine.execCall k f s
  | .jr k f => Sys2Proof.Machine.execJr k f s
  | .callr k f => Sys2Proof.Machine.execCallr k f s
  | .nop k f => Sys2Proof.Machine.execNop k f s
  | .crr k f => Sys2Proof.Machine.execCrr k f s
  | .vcrr k f => Sys2Proof.Machine.execVcrr k f s
  | .fence k f => Sys2Proof.Machine.execFence k f s
  | .brk k f => Sys2Proof.Machine.execBrk k f s
  | .trap k f => Sys2Proof.Machine.execTrap k f s
  | .cntAdd k f => Sys2Proof.Machine.execCntAdd k f s
  | .task h desc => Sys2Proof.Machine.execTask h desc s
  | .cue h index value tgt => Sys2Proof.Machine.execCue h index value tgt s
  | .alloc h mib => Sys2Proof.Machine.execAlloc h mib s
  | .retire h addr => Sys2Proof.Machine.execRetire h addr s
  | .layerNew h layer size form pool nbuf => Sys2Proof.Machine.execLayerNew h layer size form pool nbuf s
  | .layerSet h layer buf tgt => Sys2Proof.Machine.execLayerSet h layer buf tgt s
  | .importLayer h layer busLo busHi pitch tgt => Sys2Proof.Machine.execImportLayer h layer busLo busHi pitch tgt s
  | .layerDel h layer => Sys2Proof.Machine.execLayerDel h layer s
  | .badCommand h op ext poisoned => Sys2Proof.Machine.execBadCommand h op ext poisoned s
  | .registerWrite fn sp off v size setting other => Sys2Proof.Machine.execRegisterWrite fn sp off v size setting other s
  | .semClaim n fn other => Sys2Proof.Machine.execSemClaim n fn other s
  | .semRelease n fn v claim => Sys2Proof.Machine.execSemRelease n fn v claim s
  | .semForce fn v => Sys2Proof.Machine.execSemForce fn v s
  | .semLeaseExpire n => Sys2Proof.Machine.execSemLeaseExpire n s
  | .ringEnable r fn v => Sys2Proof.Machine.execRingEnable r fn v s
  | .ringTailWrite r fn v posted => Sys2Proof.Machine.execRingTailWrite r fn v posted s
  | .ringHeadWrite r fn v => Sys2Proof.Machine.execRingHeadWrite r fn v s
  | .ringFlush r fn => Sys2Proof.Machine.execRingFlush r fn s
  | .flushComplete r heads => Sys2Proof.Machine.execFlushComplete r heads s
  | .producerResume r bad => Sys2Proof.Machine.execProducerResume r bad s
  | .bar2Write fn off data poisoned => Sys2Proof.Machine.execBar2Write fn off data poisoned s
  | .bar2Read fn off n => Sys2Proof.Machine.execBar2Read fn off n s
  | .importDone layer n data => Sys2Proof.Machine.execImportDone layer n data s
  | .importDmaFault layer n => Sys2Proof.Machine.execImportDmaFault layer n s
  | .fenceComplete ctx => Sys2Proof.Machine.execFenceComplete ctx s
  | .functionLevelReset fn => Sys2Proof.Machine.execFunctionLevelReset fn s
  | .perstN host low => Sys2Proof.Machine.execPerstN host low s
  | .pcieLinkChange host rate width => Sys2Proof.Machine.execPcieLinkChange host rate width s
  | .dispatch => Sys2Proof.Machine.execDispatch s
  | .affinityWaitEnd slot => Sys2Proof.Machine.execAffinityWaitEnd slot s
  | .tileTaskCreate => Sys2Proof.Machine.execTileTaskCreate s
  | .taskRecreate => Sys2Proof.Machine.execTaskRecreate s
  | .taskRebind slot => Sys2Proof.Machine.execTaskRebind slot s
  | .schedCancel fn v same => Sys2Proof.Machine.execSchedCancel fn v same s
  | .schedKick fn v => Sys2Proof.Machine.execSchedKick fn v s
  | .ctxDisable fn ctx v => Sys2Proof.Machine.execCtxDisable fn ctx v s
  | .coreTimePeriodEnd ctx => Sys2Proof.Machine.execCoreTimePeriodEnd ctx s
  | .inputLogEnter idx poisoned => Sys2Proof.Machine.execInputLogEnter idx poisoned s
  | .frameInstant fc => Sys2Proof.Machine.execFrameInstant fc s
  | .commit c => Sys2Proof.Machine.execCommit c s
  | .stallRelease c => Sys2Proof.Machine.execStallRelease c s
  | .canvasEnable fn c v => Sys2Proof.Machine.execCanvasEnable fn c v s
  | .canvasDisable fn c v => Sys2Proof.Machine.execCanvasDisable fn c v s
  | .squash fn c => Sys2Proof.Machine.execSquash fn c s
  | .pin fn c => Sys2Proof.Machine.execPin fn c s
  | .unpin fn c => Sys2Proof.Machine.execUnpin fn c s
  | .wake fn c => Sys2Proof.Machine.execWake fn c s
  | .shadowedWrite fn off v => Sys2Proof.Machine.execShadowedWrite fn off v s
  | .glazeSegment pipe dataError => Sys2Proof.Machine.execGlazeSegment pipe dataError s
  | .windowEnd c e => Sys2Proof.Machine.execWindowEnd c e s
  | .planeCut c e p => Sys2Proof.Machine.execPlaneCut c e p s
  | .mordWrite fn v => Sys2Proof.Machine.execMordWrite fn v s
  | .mordRead fn => Sys2Proof.Machine.execMordRead fn s
  | .etabStageWrite fn e k v => Sys2Proof.Machine.execEtabStageWrite fn e k v s
  | .etabPublish fn e v => Sys2Proof.Machine.execEtabPublish fn e v s
  | .viewWrite fn ctx isN v => Sys2Proof.Machine.execViewWrite fn ctx isN v s
  | .tableBaseWrite fn isStbl v => Sys2Proof.Machine.execTableBaseWrite fn isStbl v s
  | .fltClr fn v => Sys2Proof.Machine.execFltClr fn v s
  | .drvKick fn v => Sys2Proof.Machine.execDrvKick fn v s
  | .blackoutOn fn => Sys2Proof.Machine.execBlackoutOn fn s
  | .blackoutOff fn => Sys2Proof.Machine.execBlackoutOff fn s
  | .blackoutRepeat => Sys2Proof.Machine.execBlackoutRepeat s
  | .clear fn g v => Sys2Proof.Machine.execClear fn g v s
  | .force fn g v => Sys2Proof.Machine.execForce fn g v s
  | .streamTerminated fn u v => Sys2Proof.Machine.execStreamTerminated fn u v s
  | .latch c => Sys2Proof.Machine.execLatch c s
  | .beacon c => Sys2Proof.Machine.execBeacon c s
  | .sacnSync c => Sys2Proof.Machine.execSacnSync c s
  | .dmxPacketStart p => Sys2Proof.Machine.execDmxPacketStart p s
  | .dmxPacketEnd p => Sys2Proof.Machine.execDmxPacketEnd p s
  | .stat port m => Sys2Proof.Machine.execStat port m s
  | .nodeLost e => Sys2Proof.Machine.execNodeLost e s
  | .setGo fn => Sys2Proof.Machine.execSetGo fn s
  | .otLoRead fn => Sys2Proof.Machine.execOtLoRead fn s
  | .measPush fn d => Sys2Proof.Machine.execMeasPush fn d s
  | .annKick fn d => Sys2Proof.Machine.execAnnKick fn d s
  | .announceTimeout d => Sys2Proof.Machine.execAnnounceTimeout d s
  | .timeSelWrite fn v => Sys2Proof.Machine.execTimeSelWrite fn v s
  | .domEnWrite fn d v => Sys2Proof.Machine.execDomEnWrite fn d v s
  | .fcEnable fn n v => Sys2Proof.Machine.execFcEnable fn n v s
  | .fcCtrlWrite fn n v => Sys2Proof.Machine.execFcCtrlWrite fn n v s
  | .fcPhaseWrite fn n v => Sys2Proof.Machine.execFcPhaseWrite fn n v s
  | .nextLoRead fn n => Sys2Proof.Machine.execNextLoRead fn n s
  | .tsqPop fn p poison => Sys2Proof.Machine.execTsqPop fn p poison s
  | .tsqFlush fn p => Sys2Proof.Machine.execTsqFlush fn p s
  | .ppsInEdge at_ frac => Sys2Proof.Machine.execPpsInEdge at_ frac s
  | .ppsInLoRead fn => Sys2Proof.Machine.execPpsInLoRead fn s
  | .ppsOutPulse idx => Sys2Proof.Machine.execPpsOutPulse idx s
  | .ref10Window at_ => Sys2Proof.Machine.execRef10Window at_ s
  | .ref10Loss => Sys2Proof.Machine.execRef10Loss s
  | .frameStart p => Sys2Proof.Machine.execFrameStart p s
  | .txFrameEnd p => Sys2Proof.Machine.execTxFrameEnd p s
  | .txDescriptorFrame r ds data poisoned => Sys2Proof.Machine.execTxDescriptorFrame r ds data poisoned s
  | .gateCycleStart p => Sys2Proof.Machine.execGateCycleStart p s
  | .swap fn p v => Sys2Proof.Machine.execSwap fn p v s
  | .portDisable fn p v => Sys2Proof.Machine.execPortDisable fn p v s
  | .pauseFrame p m => Sys2Proof.Machine.execPauseFrame p m s
  | .pauseExpire p cls => Sys2Proof.Machine.execPauseExpire p cls s
  | .pauseWdTrip p cls => Sys2Proof.Machine.execPauseWdTrip p cls s
  | .pauseRecEnd p cls => Sys2Proof.Machine.execPauseRecEnd p cls s
  | .lpiEnter p => Sys2Proof.Machine.execLpiEnter p s
  | .lpiWake p => Sys2Proof.Machine.execLpiWake p s
  | .eeeOkWrite fn p v => Sys2Proof.Machine.execEeeOkWrite fn p v s
  | .linkChange p pcsUp lpiRx => Sys2Proof.Machine.execLinkChange p pcsUp lpiRx s
  | .serviceFrameRx p m => Sys2Proof.Machine.execServiceFrameRx p m s
  | .flowFrameRx p m => Sys2Proof.Machine.execFlowFrameRx p m s
  | .badFrameRx p m => Sys2Proof.Machine.execBadFrameRx p m s
  | .videoPacketRx p m v ovf => Sys2Proof.Machine.execVideoPacketRx p m v ovf s
  | .audioPacketRx p m v ovf => Sys2Proof.Machine.execAudioPacketRx p m v ovf s
  | .ancPacketRx p m v ovf => Sys2Proof.Machine.execAncPacketRx p m v ovf s
  | .ltcWord at_ tc => Sys2Proof.Machine.execLtcWord at_ tc s
  | .sacnPacketRx p m v => Sys2Proof.Machine.execSacnPacketRx p m v s
  | .sacnSourceTimeout u cid => Sys2Proof.Machine.execSacnSourceTimeout u cid s
  | .legLoss kind n leg => Sys2Proof.Machine.execLegLoss kind n leg s
  | .tcLoss n => Sys2Proof.Machine.execTcLoss n s
  | .t1sCollision p lateColl => Sys2Proof.Machine.execT1sCollision p lateColl s
  | .backoffExpire p => Sys2Proof.Machine.execBackoffExpire p s
  | .plcaBeaconChange p active => Sys2Proof.Machine.execPlcaBeaconChange p active s
  | .go fn p v => Sys2Proof.Machine.execGo fn p v s
  | .rdmListenEnd p brk resp err => Sys2Proof.Machine.execRdmListenEnd p brk resp err s
  | .leaseRenew => Sys2Proof.Machine.execLeaseRenew s
  | .leaseLapse => Sys2Proof.Machine.execLeaseLapse s
  | .leaseExpiry => Sys2Proof.Machine.execLeaseExpiry s
  | .takeover => Sys2Proof.Machine.execTakeover s
  | .waitTimeout => Sys2Proof.Machine.execWaitTimeout s
  | .leaseInEdge at_ => Sys2Proof.Machine.execLeaseInEdge at_ s
  | .wireSilent => Sys2Proof.Machine.execWireSilent s
  | .twinLinkChange lane up => Sys2Proof.Machine.execTwinLinkChange lane up s
  | .renew h b t1 act t3 t4 t2 => Sys2Proof.Machine.execRenew h b t1 act t3 t4 t2 s
  | .commitRecord h miss c e digest tiles => Sys2Proof.Machine.execCommitRecord h miss c e digest tiles s
  | .changeRecord h id ctx tmode value version target => Sys2Proof.Machine.execChangeRecord h id ctx tmode value version target s
  | .regw h off v fn task => Sys2Proof.Machine.execRegw h off v fn task s
  | .cmdRecord h entry cpl => Sys2Proof.Machine.execCmdRecord h entry cpl s
  | .memw h addr4 data => Sys2Proof.Machine.execMemw h addr4 data s
  | .layerRecord h last layer version buf off data => Sys2Proof.Machine.execLayerRecord h last layer version buf off data s
  | .epstate h e status strings => Sys2Proof.Machine.execEpstate h e status strings s
  | .handover h b => Sys2Proof.Machine.execHandover h b s
  | .copyRecord h last kind index data => Sys2Proof.Machine.execCopyRecord h last kind index data s
  | .copyEnd h cpos => Sys2Proof.Machine.execCopyEnd h cpos s
  | .ack h jseq role diverged t2 t3 t4 => Sys2Proof.Machine.execAck h jseq role diverged t2 t3 t4 s
  | .copySend => Sys2Proof.Machine.execCopySend s
  | .shadowWaitExpire => Sys2Proof.Machine.execShadowWaitExpire s
  | .resign fn => Sys2Proof.Machine.execResign fn s
  | .assume fn => Sys2Proof.Machine.execAssume fn s
  | .resync fn => Sys2Proof.Machine.execResync fn s
  | .leaveSafe fn => Sys2Proof.Machine.execLeaveSafe fn s
  | .twinEnWrite fn v => Sys2Proof.Machine.execTwinEnWrite fn v s
  | .modeReqShow fn => Sys2Proof.Machine.execModeReqShow fn s
  | .modeReqIdle fn => Sys2Proof.Machine.execModeReqIdle fn s
  | .modeReqTest fn => Sys2Proof.Machine.execModeReqTest fn s
  | .modeReqSleep fn => Sys2Proof.Machine.execModeReqSleep fn s
  | .modeReqSafe fn => Sys2Proof.Machine.execModeReqSafe fn s
  | .modeTransitionDone => Sys2Proof.Machine.execModeTransitionDone s
  | .holdEnWrite fn v => Sys2Proof.Machine.execHoldEnWrite fn v s
  | .hbmSelfRefresh => Sys2Proof.Machine.execHbmSelfRefresh s
  | .softRst fn => Sys2Proof.Machine.execSoftRst fn s
  | .powerOn => Sys2Proof.Machine.execPowerOn s
  | .aonRstN => Sys2Proof.Machine.execAonRstN s
  | .sysRstN => Sys2Proof.Machine.execSysRstN s
  | .resetRelease bootMode rails => Sys2Proof.Machine.execResetRelease bootMode rails s
  | .railFault rail => Sys2Proof.Machine.execRailFault rail s
  | .refClockLoss input lost => Sys2Proof.Machine.execRefClockLoss input lost s
  | .avsCommand acked => Sys2Proof.Machine.execAvsCommand acked s
  | .dieTempCross temp => Sys2Proof.Machine.execDieTempCross temp s
  | .wakeSource src => Sys2Proof.Machine.execWakeSource src s
  | .slowAlarm => Sys2Proof.Machine.execSlowAlarm s
  | .slowLoRead fn => Sys2Proof.Machine.execSlowLoRead fn s
  | .bootGo fn => Sys2Proof.Machine.execBootGo fn s
  | .bootImageCheck flash => Sys2Proof.Machine.execBootImageCheck flash s
  | .bistBlockDone b ranToEnd signatureOk countOk => Sys2Proof.Machine.execBistBlockDone b ranToEnd signatureOk countOk s
  | .shutdownRun fn => Sys2Proof.Machine.execShutdownRun fn s
  | .stop fn => Sys2Proof.Machine.execStop fn s
  | .rotStepStart => Sys2Proof.Machine.execRotStepStart s
  | .rotClusterDrained => Sys2Proof.Machine.execRotClusterDrained s
  | .rotDrainTimeout => Sys2Proof.Machine.execRotDrainTimeout s
  | .otpGo fn => Sys2Proof.Machine.execOtpGo fn s
  | .lcReq fn v => Sys2Proof.Machine.execLcReq fn v s
  | .calWrite fn off v => Sys2Proof.Machine.execCalWrite fn off v s
  | .cntLoRead fn n => Sys2Proof.Machine.execCntLoRead fn n s
  | .cntSnap fn => Sys2Proof.Machine.execCntSnap fn s
  | .rcRead fn sp off size setting other => Sys2Proof.Machine.execRcRead fn sp off size setting other s
  | .tagSample core stall cause paired predOff => Sys2Proof.Machine.execTagSample core stall cause paired predOff s
  | .bwWindowEnd p => Sys2Proof.Machine.execBwWindowEnd p s
  | .ringDmaFault r => Sys2Proof.Machine.execRingDmaFault r s
  | .fillCopyComplete c => Sys2Proof.Machine.execFillCopyComplete c s
  | .ref10Return at_ => Sys2Proof.Machine.execRef10Return at_ s
  | .hbmStackTempCross above => Sys2Proof.Machine.execHbmStackTempCross above s

end Sys2Proof.Machine
end

