-- ==== Sys2Proof/Machine/Tick.lean ====
section
/-!
DEFINITION. One CK_TIME cycle (R208): what passes on an empty queue (log 2), with the PTP messages that fall due (R222) and a
pending SEL that waits for no commit (R221).
-/

namespace Sys2Proof.Machine

/-- Outward time after one CK_TIME cycle: 1 ns × (1 + adj ÷ 2^48), with the fraction carried (R208). -/
def nextTime (s : State) : BitVec 112 :=
  BitVec.ofNat 112 (s.ot.toNat * 2 ^ 48 + s.otFrac.toNat) + BitVec.ofInt 112 (2 ^ 48 + s.tim.adj)

/-! ## Serving time (R222) -/

/-- The interval of a port's Sync messages, 2^LOG_SYNC seconds, in ns. LOG_SYNC is signed, −7 to 1. -/
def syncInterval (s : State) (p : Nat) : Nat := 7812500 * 2 ^ (sgn 4 (get s fld.pcfg.LOG_SYNC p) + 7).toNat

/-- The clockClass of an Announce where it is not that of the followed domain: 7 in holdover, 248 before a domain has been
followed (R222). -/
def announceClass (s : State) : Option Byte :=
  if s.tim.firstTrack && !tracks s (actDom s) then some 248
  else if on s fld.timeStatus.HOLDOVER then some 7
  else none

/-- A PTP message of the outward domain as a frame (log 130): a Sync, or an Announce with its clockClass. -/
def ptpBytes (s : State) (ann : Bool) (p : Nat) : List Byte :=
  let b := Config.ptpFrame ann p (get s fld.pcfg.PROFILE p) (get s fld.outDom.OUT_DOM) (actDom s) s.free
  match ptpOf b, (if ann then announceClass s else none) with
  | some (o, _), some k => patch b (o + 48) [k]
  | _, _ => b

/-- A PTP message queued on a port in class 6 (Table 9-1). A Sync asks for its timestamp where the engine needs it for the
Follow_Up (R225). -/
def sendPtp (ann : Bool) (p : Nat) (s : State) : State :=
  let b := ptpBytes s ann p
  enqueue p ⟨6, 0, .pkt, none, b, b.length, 0, !ann && !on s fld.pcfg.ONE_STEP p, false⟩ (draw s)

/-- Whether a Sync is due on a port: it is a master port of the service program, and a new interval has begun. -/
def syncDue (s : State) (p : Nat) : Bool :=
  on s fld.sched.SVC && on s fld.timeCtrl.EN && on s fld.pcfg.MASTER p && portClock s && portSends s p
    && s.ot.toNat / syncInterval s p != (Map.get (fun _ => 0) s.tim.syncAt p).toNat / syncInterval s p

/-- The Sync of a port that is due, and the Announce that goes with it. -/
def serveTime (p : Nat) (s : State) : State :=
  if !syncDue s p then s
  else
    let ann := Config.announceDue s.free
    let s := sendPtp false p { s with tim := { s.tim with syncAt := Map.put s.tim.syncAt p s.ot } }
    if ann then sendPtp true p s else s

/-! ## The cycle -/

/-- One CK_TIME cycle. In SLEEP and in reset only the slow time goes on. -/
def tick (s : State) : State :=
  let t := nextTime s
  let s := slowOn 1 s
  if get s fld.pwrMode.MODE = 0 || s.bst.releaseDue then s
  else
    let s := { s with ot := BitVec.ofNat 64 (t.toNat / 2 ^ 48), otFrac := BitVec.ofNat 48 t.toNat }
    let s := if anyCanvas s then s else selActs s
    forEach (List.range 32) serveTime s

end Sys2Proof.Machine
end

