-- ==== Sys2Proof/Safety.lean ====
section
/-!
DEFINITION. The terms in which claims about the device are stated: when an instruction issues, what it may change
beside its result, the forms of its result, and what holds of every state that the device reaches.
-/

namespace Sys2Proof.Machine

/-! ## Instructions on a core -/

/-- Core `k` runs task `t`, and its next instruction issues: the step limit does not refuse it (R90) and the fetch lies
inside the program image (R85), in memory that holds no poisoned word (R55). -/
structure Ready (s : State) (k : Nat) (t : Task) : Prop where
  running : taskOn s k = some t
  limit : stepLimitHit t = false
  inside : beyondImage t = false
  good : memBad s (fetchAddr t) 8 = false

/-- The instruction's predicate lets a scalar operation execute (R34). -/
abbrev Enabled (t : Task) (f : F) : Prop := predRuns f.p (maskOf t f) = true

/-- From `s` to `s'` only task `t` has changed, to `t'`, with the core time of its context, the draws of free values and
the core's count of issued instructions. Every register of BAR0, every byte of both memories, every flag, counter and
queue, and every other task is as before. -/
structure OnlyTask (s s' : State) (t t' : Task) : Prop where
  task : taskAt s' t.slot = some t'
  others : ∀ q, q ≠ t.slot → taskAt s' q = taskAt s q
  frame : s' = { s with
    sch := { s.sch with tasks := s'.sch.tasks, ctCount := s'.sch.ctCount }
    free := s'.free
    tagCount := s'.tagCount }

/-- The instruction completes and writes `v` into scalar register `d`, where s0 discards it; the pc moves to the next
instruction; of its task only the step and cycle counts, and what the pairing of R53 keeps, change besides. -/
def WritesScalar (s : State) (t : Task) (i : Instr) (d : BitVec 5) (v : W32) : Prop :=
  ∃ s' t', exec i s = .next s' ∧ OnlyTask s s' t t'
    ∧ (∀ r, sreg t' r = if r = d ∧ r ≠ 0 then v else sreg t r)
    ∧ t' = { t with pc := t.pc + 8, steps := t.steps + 1, cycles := t'.cycles, front := t'.front, was := none, sregs := t'.sregs }

/-- The instruction completes and writes `v` into predicate register `d`, where p0 discards it. -/
def WritesPredicate (s : State) (t : Task) (i : Instr) (d : Nat) (v : W16) : Prop :=
  ∃ s' t', exec i s = .next s' ∧ OnlyTask s s' t t'
    ∧ (∀ r, r < 8 → preg t' r = if r = d ∧ r ≠ 0 then v else preg t r)
    ∧ t' = { t with pc := t.pc + 8, steps := t.steps + 1, cycles := t'.cycles, front := t'.front, was := none, pregs := t'.pregs }

/-- The instruction completes and writes `val l` into every active lane `l` of vector register `d`; the other lanes and
the other vector registers keep their values. -/
def WritesVector (s : State) (t : Task) (i : Instr) (f : F) (d : Nat) (val : Nat → W32) : Prop :=
  ∃ s' t', exec i s = .next s' ∧ OnlyTask s s' t t'
    ∧ (∀ q l, l < 16 → lane t' q l = if q = d ∧ pbit (maskOf t f) l = true then val l else lane t q l)
    ∧ t' = { t with pc := t.pc + 8, steps := t.steps + 1, cycles := t'.cycles, front := t'.front, was := none, vregs := t'.vregs }

/-- The instruction completes and writes channel `ch` of every active pixel `l` into lane `l` of vector register
`d + ch`. -/
def WritesGroup (s : State) (t : Task) (i : Instr) (f : F) (d : Nat) (val : Nat → Nat → Nat) : Prop :=
  ∃ s' t', exec i s = .next s' ∧ OnlyTask s s' t t'
    ∧ (∀ q l, l < 16 → lane t' q l =
        if d ≤ q ∧ q < d + 4 ∧ pbit (maskOf t f) l = true then BitVec.ofNat 32 (val (q - d) l) else lane t q l)
    ∧ t' = { t with pc := t.pc + 8, steps := t.steps + 1, cycles := t'.cycles, front := t'.front, was := none, vregs := t'.vregs }

/-- The instruction completes and writes channel pairs of every active pixel into the pair of vector registers `d` and
`d + 1`: lane 2 × (k mod 8) of the register of pixel k takes R and G, the next lane B and A (Table 3-7). -/
def WritesPair (s : State) (t : Task) (i : Instr) (f : F) (d : Nat) (val : Nat → Nat → Nat) : Prop :=
  ∃ s' t', exec i s = .next s' ∧ OnlyTask s s' t t'
    ∧ (∀ q l, l < 16 → lane t' q l =
        if d ≤ q ∧ q < d + 2 ∧ pbit (maskOf t f) (8 * (q - d) + l / 2) = true then
          BitVec.ofNat 32 (val (2 * (l % 2)) (8 * (q - d) + l / 2) + 65536 * val (2 * (l % 2) + 1) (8 * (q - d) + l / 2))
        else lane t q l)
    ∧ t' = { t with pc := t.pc + 8, steps := t.steps + 1, cycles := t'.cycles, front := t'.front, was := none, vregs := t'.vregs }

/-- The instruction completes and the task goes on as `u` with one more step counted, at `pc`. -/
def GoesOn (s : State) (t : Task) (i : Instr) (pc : W32) (u : Task) : Prop :=
  ∃ s' t', exec i s = .next s' ∧ OnlyTask s s' t t'
    ∧ t' = { u with pc := pc, steps := t.steps + 1, cycles := t'.cycles, front := t'.front, was := none }

/-- A direct branch (R86): where its condition holds, the task goes on at the branch's own address plus imm × 8, and
else at the next instruction. -/
def BranchesOn (s : State) (t : Task) (i : Instr) (imm : W32) (c : Prop) : Prop :=
  (c → GoesOn s t i (t.pc + 8 * imm) t) ∧ (¬ c → GoesOn s t i (t.pc + 8) t)

/-! ## Memory spaces and read sets -/

/-- The read set after a read of input `k` (R39, R78): only a SPEC task that is neither demoted nor resumed records, and an
input already named uses no new entry. -/
def readSetAfter (s : State) (t : Task) (k : InKey) : List ReadEnt :=
  if t.firm || t.readSet.any (fun x => x.key == k) then t.readSet
  else t.readSet ++ [⟨k, versionFor s k (taskInep t)⟩]

/-- The effective address of Table 2-5: s[b], s[a] × 256 or s[a], zero-extended, plus the sign-extended immediate. -/
def spaceAddr (t : Task) (f : F) (sp : BitVec 2) : Int :=
  (if sp = 2 then ((sreg t f.b).toNat : Int) else if sp = 3 then ((sreg t f.a).toNat : Int) * 256 else (sreg t f.a).toNat) +
    f.imm.toInt

/-- The byte that a task reads at an offset or address of a space (Table 2-5, R48). -/
def spaceByte (s : State) (t : Task) (f : F) (sp : BitVec 2) (o : Nat) : Byte :=
  if sp = 0 then scratchGet t o
  else if sp = 1 then outGet s t o
  else if sp = 2 then layerByte s t (layerIdx s t (sreg t f.a)) o
  else fmGet s t o

/-- `n` bytes from an offset as a little-endian number (R27). -/
def leNumber (byte : Nat → Byte) (o n : Nat) : Nat := ofLe ((List.range n).map (fun j => byte (o + j)))

/-- An element of a type may be reached at an offset: it is aligned (R27) and inside the space (Table 2-5, R29, R30). -/
def ElementOk (s : State) (t : Task) (f : F) (sp : BitVec 2) (ty : Nat) (o : Int) : Prop :=
  o % (typeBytes ty : Int) = 0 ∧ spInside sp f (typeBytes ty) s t o = true

/-- An element may be loaded: it is reached, and no byte of it lies in a word that is poisoned or fails ECC (R55). -/
def LoadOk (s : State) (t : Task) (f : F) (sp : BitVec 2) (ty : Nat) (o : Int) : Prop :=
  ElementOk s t f sp ty o ∧ badByte sp f s t (typeBytes ty) o = none

/-- The instruction completes, records its reads so that the read set is `rs`, and writes `v` into scalar register `d`;
from `s0`, the state with what the read itself leaves, only its task has changed. -/
def WritesScalarIn (s s0 : State) (t : Task) (i : Instr) (d : BitVec 5) (v : W32) (rs : List ReadEnt) : Prop :=
  ∃ s' t', exec i s = .next s' ∧ OnlyTask s0 s' t t'
    ∧ (∀ r, sreg t' r = if r = d ∧ r ≠ 0 then v else sreg t r)
    ∧ t' = { t with pc := t.pc + 8, steps := t.steps + 1, cycles := t'.cycles, front := t'.front, was := none, sregs := t'.sregs, readSet := rs }

/-- The same with the active lanes of vector register `d`. -/
def WritesVectorIn (s s0 : State) (t : Task) (i : Instr) (f : F) (d : Nat) (val : Nat → W32) (rs : List ReadEnt) : Prop :=
  ∃ s' t', exec i s = .next s' ∧ OnlyTask s0 s' t t'
    ∧ (∀ q l, l < 16 → lane t' q l = if q = d ∧ pbit (maskOf t f) l = true then val l else lane t q l)
    ∧ t' = { t with pc := t.pc + 8, steps := t.steps + 1, cycles := t'.cycles, front := t'.front, was := none, vregs := t'.vregs, readSet := rs }

/-- The same with channel `ch` of every active pixel `l` in lane `l` of vector register `d + ch`. -/
def WritesGroupIn (s s0 : State) (t : Task) (i : Instr) (f : F) (d : Nat) (val : Nat → Nat → Nat) (rs : List ReadEnt) : Prop :=
  ∃ s' t', exec i s = .next s' ∧ OnlyTask s0 s' t t'
    ∧ (∀ q l, l < 16 → lane t' q l =
        if d ≤ q ∧ q < d + 4 ∧ pbit (maskOf t f) l = true then BitVec.ofNat 32 (val (q - d) l) else lane t q l)
    ∧ t' = { t with pc := t.pc + 8, steps := t.steps + 1, cycles := t'.cycles, front := t'.front, was := none, vregs := t'.vregs, readSet := rs }

/-- The byte that the last of some stored elements, each an offset with its bytes, leaves at an offset. -/
def lastStored (els : List (Nat × List Byte)) (o : Nat) : Option Byte :=
  els.foldl (fun old e => if e.1 ≤ o ∧ o < e.1 + e.2.length then e.2[o - e.1]? else old) none

/-- The instruction completes and stores the elements into the task's scratch area (space 0), the staged bytes of its
output tile (1), or its stores to frame memory that others do not see yet (3, R48); every other byte of the space, every
register and all of frame memory are as before. -/
def StoresTo (s : State) (t : Task) (i : Instr) (f : F) (sp : BitVec 2) (els : List (Nat × List Byte)) : Prop :=
  ∃ s' t', exec i s = .next s' ∧ OnlyTask s s' t t'
    ∧ (∀ o, spaceByte s' t' f sp o = (lastStored els o).getD (spaceByte s t f sp o))
    ∧ t' = { t with
        pc := t.pc + 8, steps := t.steps + 1, cycles := t'.cycles, front := t'.front, was := none
        scratch := if sp = 0 then t'.scratch else t.scratch
        staged := if sp = 1 then t'.staged else t.staged
        stores := if sp = 3 then t'.stores else t.stores }

/-! ## Lanes -/

/-- A lane holds a value of a type extended into its 32 bits: by the sign for s16 and s32, by zeros for the others (R24). -/
def Extended (ty : Nat) (v : W32) : Prop :=
  v = if typeSigned ty then BitVec.ofInt 32 (laneInt ty v) else BitVec.ofNat 32 (laneNat ty v)

/-- A lane holds an integer wrapped at a type's width and extended (R63). -/
def Wrapped (ty : Nat) (n : Int) (v : W32) : Prop := Extended ty v ∧ (laneInt ty v - n) % (2 ^ typeBits ty : Nat) = 0

/-- The least value of a type (Table 2-4). -/
def typeMin (ty : Nat) : Int := if typeSigned ty then -(2 ^ (typeBits ty - 1) : Nat) else 0
/-- The greatest value of a type. -/
def typeMax (ty : Nat) : Int := if typeSigned ty then (2 ^ (typeBits ty - 1) : Nat) - 1 else (2 ^ typeBits ty : Nat) - 1

/-- A lane holds an integer saturated to a type's range and extended (R63). -/
def Saturated (ty : Nat) (n : Int) (v : W32) : Prop := Extended ty v ∧ laneInt ty v = max (typeMin ty) (min (typeMax ty) n)

/-- The pairwise tree of R51 over the values of the lanes: lanes (0, 1), (2, 3) and so on, then pairs of those sums. -/
def pairTree (fm : FFmt) (x : Nat → Nat) : Nat → Nat → Nat
  | 0, i => x i
  | n + 1, i => fadd fm (pairTree fm x n (2 * i)) (pairTree fm x n (2 * i + 1))

/-! ## Tasks that end -/

/-- The task table is in rising order, every task stands in the slot whose number it carries, one of 65,536 (R91), and
belongs to one of 128 contexts; the slots that became free are among the 65,536. -/
abbrev TasksFit (s : State) : Prop :=
  Map.risesFrom 0 s.sch.tasks = true ∧ (∀ e ∈ s.sch.tasks, e.2.slot = e.1 ∧ e.1 < 65536 ∧ e.2.ctx < 128) ∧ ∀ q ∈ s.sch.slotFreed, q < 65536

/-- Task `t` of `s` has completed in `s'` with a status, an exception code and information (R55, R108, R284): without a
record its slot is free; with one, the slot is free and the context's completion ring holds one more record where the
ring takes it, and else the task waits with its record. -/
def Ended (s s' : State) (t : Task) (record : Bool) (status code : Nat) (info : W32) : Prop :=
  if record && on s fld.ctxCpl.EN t.ctx then
    if ctxCplTakes s t.ctx then
      taskAt s' t.slot = none ∧
        get s' fld.ringTail.TAIL (get s fld.ctxCpl.RING t.ctx) =
          (get s fld.ringTail.TAIL (get s fld.ctxCpl.RING t.ctx) + 1) % ringSize s (get s fld.ctxCpl.RING t.ctx) % 65536
    else
      ∃ u ws, taskAt s' t.slot = some u ∧ u.st = .waiting ∧ u.finishing = some ws ∧
        bitsOf (dw ws 0) 24 8 = status ∧ bitsOf (dw ws 2) 16 6 = code ∧ ws.getD 3 0 = info
  else taskAt s' t.slot = none

/-- The instruction terminates its task (R55): TASK_FAULT counts one more, and the task has completed. -/
def Terminates (s : State) (t : Task) (i : Instr) (status code : Nat) (info : W32) : Prop :=
  ∃ s', exec i s = .next s' ∧ counter s' Cnt.taskFault.ctorIdx = counter s Cnt.taskFault.ctorIdx + 1 ∧
    Ended s s' t true status code info

/-- The instruction is not executed: its task is parked at it with SPEC_SIDE_EFFECT, to execute it again when it resumes
(R40, R41). No register, counter, queue, port or other task has changed. -/
def ParksAt (s : State) (t : Task) (i : Instr) : Prop :=
  ∃ s' t', exec i s = .next s' ∧ taskAt s' t.slot = some t' ∧
    t' = { t with
      steps := t.steps + 1, cycles := t'.cycles, front := t'.front, was := none, st := .parked, excode := 7, exinfo := t.pc, saved := true, staged := []
      spill := t.lastCore.map (fun c => c / 8) } ∧
    s' = { s with
      sch := { s.sch with tasks := s'.sch.tasks, ctCount := s'.sch.ctCount }
      vat := s'.vat, fmem := s'.fmem, fbad := s'.fbad, pwr := s'.pwr, free := s'.free, tagCount := s'.tagCount } ∧
    ∀ q, q ≠ t.slot → taskAt s' q = taskAt s q

/-! ## What a command leaves alone -/

/-- The parts of the state beside its registers. -/
inductive Part where
  | pending | free | rdata | member | inForce | calOld | cnt | snap | swcnt | fmem | fbad | hmem | ot | otFrac | otp | tagCount | tagDraws | sch | vat | hst | tim | glz | epg | prt | twn | pwr | bst
deriving DecidableEq, Repr

/-- A part of the state is as before. -/
def Part.Same (s t : State) : Part → Prop
  | .pending => t.pending = s.pending
  | .free => t.free = s.free
  | .rdata => t.rdata = s.rdata
  | .member => t.member = s.member
  | .inForce => t.inForce = s.inForce
  | .calOld => t.calOld = s.calOld
  | .cnt => t.cnt = s.cnt
  | .snap => t.snap = s.snap
  | .swcnt => t.swcnt = s.swcnt
  | .fmem => t.fmem = s.fmem
  | .fbad => t.fbad = s.fbad
  | .hmem => t.hmem = s.hmem
  | .ot => t.ot = s.ot
  | .otFrac => t.otFrac = s.otFrac
  | .otp => t.otp = s.otp
  | .tagCount => t.tagCount = s.tagCount
  | .tagDraws => t.tagDraws = s.tagDraws
  | .sch => t.sch = s.sch
  | .vat => t.vat = s.vat
  | .hst => t.hst = s.hst
  | .tim => t.tim = s.tim
  | .glz => t.glz = s.glz
  | .epg => t.epg = s.epg
  | .prt => t.prt = s.prt
  | .twn => t.twn = s.twn
  | .pwr => t.pwr = s.pwr
  | .bst => t.bst = s.bst

/-- From `s` to `t` no register but those listed, and no part but those listed, has changed. -/
def Leaves (rs : List RegId) (ps : List Part) (s t : State) : Prop :=
  (∀ r, r ∉ rs → ∀ i j, rd t r i j = rd s r i j) ∧ ∀ p, p ∉ ps → p.Same s t

/-- What holds of every state that the device reaches: both memories are in canonical form (log 6), the register file is
in rising order, and the task table fits. -/
structure Sound (s : State) : Prop where
  fmem : memWf s.fmem = true
  hmem : memWf s.hmem = true
  regs : Map.risesFrom 0 s.regs = true
  tasks : TasksFit s

/-! ## Ring commands -/

/-- An entry of `span` ring entries stands at the head of a running CMD ring that is not being flushed (R288), no command of
the ring is held or running before it (R291), its CPL ring takes its record now (R284), and the device fetches entries: it is
not in SAFE (R340), and the host queues are not under test (R359). -/
structure AtHead (s : State) (h : Cmd) (span : Nat) : Prop where
  runs : ringRuns s h.ring 0 = true
  there : span ≤ ringOcc s h.ring
  first : ringBusy s h.ring = false ∧ ringHeld s h.ring = false
  record : cplTakes s (get s fld.ringCtrl.CPL h.ring) (get s fld.ringCtrl.FN h.ring) = true
  order : ∀ w ∈ s.hst.cplWait, match w with | .cmd _ _ => True | .record c _ _ => c ≠ get s fld.ringCtrl.CPL h.ring
  fetches : on s fld.ringCtrl.FLUSH h.ring = false ∧ mode s ≠ 7 ∧ blockTested s 24 = false

/-- A command starts: the device is no standby (R315), and the ring's function may command its context (R289). -/
structure Starts (s : State) (h : Cmd) (span : Nat) : Prop where
  entry : AtHead s h span
  active : standby s = false
  owner : mayCommand s h = true

/-- A command completes: HEAD of its ring moves past its entries (R291), and its CPL ring holds one more record. -/
structure Completes (s t : State) (h : Cmd) (span : Nat) : Prop where
  head : get t fld.ringHead.HEAD h.ring = (get s fld.ringHead.HEAD h.ring + span) % ringSize s h.ring % 65536
  record : get t fld.ringTail.TAIL (get s fld.ringCtrl.CPL h.ring) =
    (get s fld.ringTail.TAIL (get s fld.ringCtrl.CPL h.ring) + 1) % ringSize s (get s fld.ringCtrl.CPL h.ring) % 65536

/-- A change enters the input log with the next version of its input, and its application epoch on every running canvas
whose tasks may read the input (R125, R126, R128). -/
def EntersLog (s t : State) (k : InKey) (value buf : W32) (g : ATarget) : Prop :=
  newestVersion t k = newestVersion s k + 1 ∧
    (⟨k, newestVersion s k + 1, value, buf, g, targetInst s g,
      ((runningCanvases s).filter (placedOn s k)).map (fun c => (c, placeEpoch s c g))⟩ : Change) ∈ t.vat.inputs

/-- Every record of an input in the log is older than the version that its next change takes. -/
def NextIsNewest (s : State) (k : InKey) : Prop :=
  ∀ q ∈ s.vat.inputs, q.key = k → q.version.toNat < (newestVersion s k + 1).toNat

/-! ## Accesses by a host -/

/-- An access of a register instance by a function takes effect: the function exists and the device answers (R329, R335), a
virtual function reaches the instance (R274), the member has it (R4), and its block is not under test (R359). -/
structure Reaches (s : State) (fn : Nat) (r : RegId) (i j : Nat) : Prop where
  known : fnExists s fn = true
  up : hostUp s fn = true
  may : isPf fn = true ∨ vfMay s fn r i = true
  present : absentReg s r i = false
  quiet : underTest s r i j = false

/-- A write of a register instance takes effect: it reaches the instance, SAFE does not discard it (R340), and the device is
no standby for it (R315). -/
structure Writable (s : State) (fn : Nat) (r : RegId) (i j : Nat) : Prop extends Reaches s fn r i j where
  safe : mode s ≠ 7 ∨ safeMay r (r.off i j) = true
  active : standby s = false ∨ journaled (r.off i j) = false

/-- Outward time after an event that is fixed to an instant: time moves forward to it, and never back (log 2). -/
def timeAt (s : State) (at_ : W64) : W64 := if timeDiff at_ s.ot > 0 then at_ else s.ot

/-! ## Writes that only store -/

/-- A write of a register only stores: nothing else follows from it, and no field waits. -/
def storesOnly (r : RegId) : Bool :=
  match r with
  | .sem | .semForce | .ringCtrl | .ringTail | .ringHead | .route | .bar2Base | .macCtrl | .t1sCtrl | .eeeCfg | .gateCtrl
  | .flowCtrl | .rdmCtrl | .timeCtrl | .setGo | .domCfg | .annKick | .meas | .measPush | .tsqCtrl | .twinCtrl | .twinCmd
  | .pwrCmd | .pwrCtrl | .bootGo | .bistCmd | .otpCtrl | .lcReq | .cntSnap | .tagCtrl | .bwCtrl | .sched | .schedCancel
  | .schedKick | .ctxCtrl | .ctxQuotaSlots | .ctxQuotaMl | .tmplDesc | .tmplBind | .tmplSrc | .fcCtrl | .fcPhase
  | .canvasCtrl | .canvasWidth | .canvasHeight | .commitLead | .latchGuard | .refresh | .glzCfg | .gainBase | .gainStride
  | .planeCtrl | .planeSrc | .planeSize | .planeDx | .planeDy | .planeAdv | .planeCut | .vatCmd | .mordData | .drvBase
  | .stblBase | .epFltClr | .epDrvKick | .epBlackout | .viewBase | .viewN | .kg | .univCtrl | .etabWord | .jseqTx | .ppsOut
  | .progBase | .progLen | .progCtrl | .progEntry | .vringBase | .lineStride | .vsize | .ringFmt | .frameNs => false
  | _ => !r.desc.cal

/-- The registers of a canvas with shadowed fields that only wait (R138). -/
def shadowedRegs : List RegId :=
  [.commitLead, .latchGuard, .refresh, .glzCfg, .gainBase, .gainStride, .planeCtrl, .planeSrc, .planeSize, .planeDx, .planeDy,
   .planeAdv, .planeCut]

/-- Whether a write takes a bit of a register: the bit is RW (R11), no enabled unit holds it, a physical function writes it
or it is open to all (R9), and the member has it (R4). -/
def bitTaken (s : State) (fn : Nat) (r : RegId) (i b : Nat) : Bool :=
  r.desc.rw.testBit b && !(unitOn s r i && r.desc.locked.testBit b) && !(!isPf fn && r.desc.pfOnly.testBit b) &&
    !(absentBits s r i).testBit b

/-- The bit of a register after a write (R11): an RW bit takes the value written, a W1C bit written with 1 clears, a W1S bit
written with 1 sets, and every other bit stays. -/
def bitWritten (s : State) (fn : Nat) (r : RegId) (i j : Nat) (v : W32) (b : Nat) : Bool :=
  if bitTaken s fn r i b then v.getLsbD b
  else ((rd s r i j).getLsbD b && !(r.desc.w1c.testBit b && v.getLsbD b)) || (v.getLsbD b && r.desc.w1s.testBit b)

/-- Every bit of a register is what a write makes of it. -/
def Wrote (s t : State) (fn : Nat) (r : RegId) (i j : Nat) (v : W32) : Prop :=
  ∀ b, b < 32 → (rd t r i j).getLsbD b = bitWritten s fn r i j v b

/-- A read of a register acts on it beyond its RC bits. -/
def readActs (r : RegId) : Bool :=
  match r with
  | .sem | .otLo | .nextLo | .ppsInLo | .slowLo | .cntLo | .mordData | .tsqE0 => true
  | _ => false

/-! ## What a command may change -/

/-- The registers that a command may change. -/
inductive RegSet where
  | any
  | only (rs : List RegId)

/-- From `s` to `t` no register but those of a set, and no part but those listed, has changed. -/
def RegSet.leaves (rs : RegSet) (ps : List Part) (s t : State) : Prop :=
  match rs with
  | .any => ∀ p, p ∉ ps → p.Same s t
  | .only rs => Leaves rs ps s t

/-- The most that each command of a host or of the device's surroundings may change, over all its forms: the registers,
and the parts of the state beside them. None for an instruction of Quolasyn, whose frames stand with its results. -/
def mayChange (i : Instr) : Option (RegSet × List Part) :=
  match i with
  | .task _ _ =>
    some (.only [.ringHead, .ringTail, .ringStatus, .hostStatus, .ctxStatus, .ctxEvent, .jseqTx],
      [.cnt, .hmem, .sch, .hst, .twn])
  | .cue _ _ _ _ =>
    some (.only [.ringHead, .ringTail, .ringStatus, .layerVersion, .hostStatus, .ctxCtrl, .ctxStatus, .ctxEvent,
      .tmplBind, .tmplReleased, .tmplDrop, .canvasStatus, .canvasEvent, .inputLogStatus, .inputLogMax, .jseqTx,
      .pwrMode],
      [.free, .cnt, .fmem, .fbad, .hmem, .sch, .vat, .hst, .twn, .pwr])
  | .alloc _ _ =>
    some (.only [.ringHead, .ringTail, .ringStatus, .hostStatus, .ctxStatus, .ctxEvent, .jseqTx],
      [.free, .cnt, .fmem, .fbad, .hmem, .hst, .twn, .pwr])
  | .retire _ _ =>
    some (.only [.ringHead, .ringTail, .ringStatus, .hostStatus, .jseqTx],
      [.cnt, .hmem, .hst, .twn])
  | .layerNew _ _ _ _ _ _ =>
    some (.only [.ringHead, .ringTail, .ringStatus, .layerStatus, .layerVersion, .layerDoneEpoch, .hostStatus,
      .ctxStatus, .ctxEvent, .jseqTx],
      [.cnt, .fmem, .fbad, .hmem, .hst, .twn, .pwr])
  | .layerSet _ _ _ _ =>
    some (.only [.ringHead, .ringTail, .ringStatus, .layerVersion, .hostStatus, .ctxCtrl, .ctxStatus, .ctxEvent,
      .tmplBind, .tmplReleased, .tmplDrop, .canvasStatus, .canvasEvent, .inputLogStatus, .inputLogMax, .jseqTx,
      .pwrMode],
      [.free, .cnt, .fmem, .fbad, .hmem, .sch, .vat, .hst, .twn, .pwr])
  | .importLayer _ _ _ _ _ _ =>
    some (.only [.ringHead, .ringTail, .ringStatus, .hostStatus, .jseqTx],
      [.cnt, .hmem, .hst, .twn])
  | .layerDel _ _ =>
    some (.only [.ringHead, .ringTail, .ringStatus, .layerStatus, .layerVersion, .hostStatus, .ctxStatus, .ctxEvent,
      .jseqTx],
      [.cnt, .hmem, .vat, .hst, .twn])
  | .badCommand _ _ _ _ =>
    some (.only [.ringHead, .ringTail, .ringStatus, .hostStatus],
      [.cnt, .hmem, .hst])
  | .registerWrite _ _ _ _ _ _ _ =>
    some (.any,
      [.free, .rdata, .inForce, .calOld, .cnt, .snap, .swcnt, .fmem, .fbad, .hmem, .ot, .otFrac, .otp, .tagCount,
      .tagDraws, .sch, .vat, .hst, .tim, .glz, .epg, .prt, .twn, .pwr, .bst])
  | .semClaim _ _ _ =>
    some (.only [.sem, .ringTail, .ringStatus, .hostStatus, .hostErrAddr, .hostErrFn, .bistEvent, .collide],
      [.rdata, .cnt, .hmem, .hst])
  | .semRelease _ _ _ _ =>
    some (.only [.sem, .ringTail, .ringStatus, .hostStatus, .hostErrAddr, .hostErrFn, .jseqTx, .bistEvent, .collide],
      [.rdata, .cnt, .hmem, .hst, .twn])
  | .semForce _ _ =>
    some (.only [.sem, .ringTail, .ringStatus, .hostStatus, .hostErrAddr, .hostErrFn, .jseqTx, .bistEvent, .collide],
      [.cnt, .hmem, .hst, .twn])
  | .semLeaseExpire _ =>
    some (.only [.sem, .ringTail, .ringStatus, .hostStatus],
      [.cnt, .hmem, .ot, .otFrac, .hst, .pwr])
  | .ringEnable _ _ _ =>
    some (.only [.ringCtrl, .ringTail, .ringStatus, .hostStatus, .hostErrAddr, .hostErrFn, .jseqTx, .bistEvent,
      .collide],
      [.cnt, .hmem, .hst, .twn, .pwr])
  | .ringTailWrite _ _ _ _ =>
    some (.only [.ringTail, .ringStatus, .hostStatus, .hostErrAddr, .hostErrFn, .jseqTx, .bistEvent, .collide],
      [.cnt, .hmem, .hst, .twn])
  | .ringHeadWrite _ _ _ =>
    some (.only [.ringHead, .ringTail, .ringStatus, .hostStatus, .hostErrAddr, .hostErrFn, .jseqTx, .bistEvent,
      .collide],
      [.cnt, .hmem, .hst, .twn])
  | .ringFlush _ _ =>
    some (.only [.ringCtrl, .ringTail, .ringStatus, .hostStatus, .hostErrAddr, .hostErrFn, .jseqTx, .bistEvent,
      .collide],
      [.cnt, .hmem, .hst, .twn])
  | .flushComplete _ _ =>
    some (.only [.ringCtrl, .ringHead, .ringTail, .ringStatus, .hostStatus],
      [.cnt, .hmem, .vat, .hst, .prt])
  | .producerResume _ _ =>
    some (.only [.ringHead, .ringTail, .ringStatus, .layerStatus, .layerVersion, .layerDoneEpoch, .hostStatus,
      .ctxCtrl, .ctxStatus, .ctxEvent, .tmplBind, .tmplReleased, .tmplDrop, .canvasStatus, .canvasEvent,
      .inputLogStatus, .inputLogMax, .jseqTx, .pwrMode],
      [.free, .cnt, .fmem, .fbad, .hmem, .sch, .vat, .hst, .twn, .pwr])
  | .bar2Write _ _ _ _ =>
    some (.only [.ringTail, .ringStatus, .hostStatus, .hostErrAddr, .hostErrFn, .jseqTx],
      [.cnt, .fmem, .fbad, .hmem, .hst, .twn, .pwr])
  | .bar2Read _ _ _ =>
    some (.only [.ringTail, .ringStatus, .hostStatus, .hostErrAddr, .hostErrFn],
      [.rdata, .cnt, .hmem, .hst, .pwr])
  | .importDone _ _ _ =>
    some (.only [.ringHead, .ringTail, .ringStatus, .layerStatus, .layerVersion, .layerDoneEpoch, .hostStatus,
      .ctxCtrl, .ctxStatus, .ctxEvent, .tmplBind, .tmplReleased, .tmplDrop, .canvasStatus, .canvasEvent,
      .inputLogStatus, .inputLogMax, .jseqTx, .pwrMode],
      [.free, .cnt, .fmem, .fbad, .hmem, .sch, .vat, .hst, .twn, .pwr])
  | .importDmaFault _ _ =>
    some (.only [.ringHead, .ringTail, .ringStatus, .layerStatus, .hostStatus],
      [.cnt, .hmem, .hst])
  | .fenceComplete _ =>
    some (.only [.ringTail, .ringStatus, .ctxFence, .hostStatus, .ctxStatus, .ctxEvent],
      [.cnt, .hmem, .hst])
  | .functionLevelReset _ =>
    some (.only [.sem, .ringCtrl, .ringTail, .ringStatus, .route, .hostStatus, .ctxCtrl, .ctxStatus, .ctxEvent,
      .tmplBind, .tmplReleased, .tmplDrop, .jseqTx],
      [.cnt, .fmem, .fbad, .hmem, .sch, .vat, .hst, .twn, .pwr])
  | .perstN _ _ =>
    some (.only [.sem, .ringCtrl, .ringTail, .ringStatus, .route, .hostStatus, .pcieLink, .ctxCtrl, .ctxStatus,
      .ctxEvent, .tmplBind, .tmplReleased, .tmplDrop, .jseqTx],
      [.cnt, .fmem, .fbad, .hmem, .sch, .vat, .hst, .twn, .pwr])
  | .pcieLinkChange _ _ _ =>
    some (.only [.ringTail, .ringStatus, .hostStatus, .pcieLink],
      [.cnt, .hmem, .hst])
  | .dispatch =>
    some (.only [],
      [.sch])
  | .affinityWaitEnd _ =>
    some (.only [],
      [.ot, .otFrac, .sch, .pwr])
  | .tileTaskCreate =>
    some (.only [.ringTail, .ringStatus, .hostStatus, .ctxStatus, .ctxEvent],
      [.cnt, .hmem, .sch, .hst])
  | .taskRecreate =>
    some (.only [.ringTail, .ringStatus, .hostStatus, .ctxStatus, .ctxEvent],
      [.cnt, .hmem, .sch, .hst])
  | .taskRebind _ =>
    some (.only [],
      [.sch])
  | .schedCancel _ _ _ =>
    some (.only [.ringTail, .ringStatus, .hostStatus, .hostErrAddr, .hostErrFn, .ctxCtrl, .ctxStatus, .ctxEvent,
      .tmplBind, .tmplReleased, .tmplDrop, .jseqTx, .bistEvent, .collide],
      [.cnt, .fmem, .fbad, .hmem, .sch, .vat, .hst, .twn, .pwr])
  | .schedKick _ _ =>
    some (.only [.ringTail, .ringStatus, .hostStatus, .hostErrAddr, .hostErrFn, .ctxStatus, .ctxEvent, .tmplBind,
      .tmplReleased, .tmplDrop, .jseqTx, .bistEvent, .collide],
      [.cnt, .hmem, .sch, .hst, .twn])
  | .ctxDisable _ _ _ =>
    some (.only [.ringTail, .ringStatus, .hostStatus, .hostErrAddr, .hostErrFn, .ctxCtrl, .ctxStatus, .ctxEvent,
      .tmplBind, .tmplReleased, .tmplDrop, .jseqTx, .bistEvent, .collide],
      [.cnt, .swcnt, .fmem, .fbad, .hmem, .sch, .vat, .hst, .twn, .pwr])
  | .coreTimePeriodEnd _ =>
    some (.only [.ringTail, .ringStatus, .hostStatus, .ctxUseCt, .ctxStatus, .ctxEvent],
      [.cnt, .hmem, .ot, .otFrac, .sch, .hst, .pwr])
  | .inputLogEnter _ _ =>
    some (.only [.ringHead, .ringTail, .ringStatus, .layerVersion, .hostStatus, .ctxCtrl, .ctxStatus, .ctxEvent,
      .tmplBind, .tmplReleased, .tmplDrop, .canvasStatus, .canvasEvent, .inputLogStatus, .inputLogMax, .jseqTx,
      .pwrMode],
      [.free, .cnt, .fmem, .fbad, .hmem, .sch, .vat, .hst, .twn, .pwr])
  | .frameInstant _ =>
    some (.only [.ringTail, .ringStatus, .hostStatus, .ctxStatus, .ctxEvent, .tmplBind, .tmplReleased, .tmplDrop,
      .fbaseLo, .fbaseHi, .fcStatus, .glzEvent, .univSeq, .calStatus, .calEvent],
      [.calOld, .cnt, .hmem, .ot, .otFrac, .sch, .hst, .tim, .glz, .epg, .prt, .pwr])
  | .commit _ =>
    some (.any,
      [.free, .inForce, .cnt, .swcnt, .fmem, .fbad, .hmem, .ot, .otFrac, .sch, .vat, .hst, .tim, .glz, .epg, .prt,
      .twn, .pwr, .bst])
  | .stallRelease _ =>
    some (.only [.ringTail, .ringStatus, .hostStatus, .ctxStatus, .ctxEvent, .tmplBind, .tmplReleased, .tmplDrop,
      .wpEpoch, .vatSlots, .canvasStatus],
      [.cnt, .hmem, .sch, .vat, .hst])
  | .canvasEnable _ _ _ =>
    some (.only [.ringTail, .ringStatus, .hostStatus, .hostErrAddr, .hostErrFn, .ctxCtrl, .ctxStatus, .ctxEvent,
      .tmplBind, .tmplReleased, .tmplDrop, .canvasCtrl, .txEpoch, .rmEpoch, .wpEpoch, .vatSlots, .canvasStatus,
      .canvasEvent, .jseqTx, .pwrMode, .bistEvent, .collide],
      [.inForce, .cnt, .fmem, .fbad, .hmem, .sch, .vat, .hst, .glz, .prt, .twn, .pwr])
  | .canvasDisable _ _ _ =>
    some (.only [.ringTail, .ringStatus, .hostStatus, .hostErrAddr, .hostErrFn, .ctxCtrl, .ctxStatus, .ctxEvent,
      .tmplBind, .tmplReleased, .tmplDrop, .canvasCtrl, .txEpoch, .rmEpoch, .wpEpoch, .vatSlots, .canvasStatus,
      .canvasEvent, .jseqTx, .pwrMode, .bistEvent, .collide],
      [.inForce, .cnt, .fmem, .fbad, .hmem, .sch, .vat, .hst, .glz, .prt, .twn, .pwr])
  | .squash _ _ =>
    some (.only [.ringTail, .ringStatus, .hostStatus, .hostErrAddr, .hostErrFn, .ctxCtrl, .ctxStatus, .ctxEvent,
      .tmplBind, .tmplReleased, .tmplDrop, .vatSlots, .canvasStatus, .jseqTx, .pwrMode, .bistEvent, .collide],
      [.free, .cnt, .fmem, .fbad, .hmem, .sch, .vat, .hst, .twn, .pwr])
  | .pin _ _ =>
    some (.only [.ringTail, .ringStatus, .hostStatus, .hostErrAddr, .hostErrFn, .ctxCtrl, .ctxStatus, .ctxEvent,
      .tmplBind, .tmplReleased, .tmplDrop, .vatSlots, .canvasStatus, .jseqTx, .pwrMode, .bistEvent, .collide],
      [.free, .cnt, .fmem, .fbad, .hmem, .sch, .vat, .hst, .twn, .pwr])
  | .unpin _ _ =>
    some (.only [.ringTail, .ringStatus, .hostStatus, .hostErrAddr, .hostErrFn, .ctxCtrl, .ctxStatus, .ctxEvent,
      .tmplBind, .tmplReleased, .tmplDrop, .vatSlots, .canvasStatus, .jseqTx, .pwrMode, .bistEvent, .collide],
      [.free, .cnt, .fmem, .fbad, .hmem, .sch, .vat, .hst, .twn, .pwr])
  | .wake _ _ =>
    some (.only [.ringTail, .ringStatus, .hostStatus, .hostErrAddr, .hostErrFn, .ctxCtrl, .ctxStatus, .ctxEvent,
      .tmplBind, .tmplReleased, .tmplDrop, .vatSlots, .canvasStatus, .jseqTx, .pwrMode, .bistEvent, .collide],
      [.free, .cnt, .fmem, .fbad, .hmem, .sch, .vat, .hst, .twn, .pwr])
  | .shadowedWrite _ _ _ =>
    some (.any,
      [.free, .rdata, .inForce, .calOld, .cnt, .snap, .swcnt, .fmem, .fbad, .hmem, .ot, .otFrac, .otp, .tagCount,
      .tagDraws, .sch, .vat, .hst, .tim, .glz, .epg, .prt, .twn, .pwr, .bst])
  | .glazeSegment _ _ =>
    some (.only [.ringTail, .ringStatus, .hostStatus, .glzEvent, .univSeq],
      [.cnt, .hmem, .vat, .hst, .glz, .epg, .prt, .pwr])
  | .windowEnd _ _ =>
    some (.only [.ringTail, .ringStatus, .hostStatus, .glzEvent, .glzLateLines, .glzAbandoned, .portEvent],
      [.cnt, .hmem, .ot, .otFrac, .hst, .glz, .prt, .pwr])
  | .planeCut _ _ _ =>
    some (.only [],
      [.ot, .otFrac, .glz, .pwr])
  | .mordWrite _ _ =>
    some (.only [.ringTail, .ringStatus, .hostStatus, .hostErrAddr, .hostErrFn, .mordAddr, .mordStatus, .jseqTx,
      .bistEvent, .collide],
      [.cnt, .hmem, .hst, .glz, .twn])
  | .mordRead _ =>
    some (.only [.ringTail, .ringStatus, .hostStatus, .hostErrAddr, .hostErrFn, .mordAddr, .bistEvent, .collide],
      [.rdata, .cnt, .hmem, .hst])
  | .etabStageWrite _ _ _ _ =>
    some (.only [.ringTail, .ringStatus, .layerVersion, .hostStatus, .hostErrAddr, .hostErrFn, .ctxCtrl, .ctxStatus,
      .ctxEvent, .tmplBind, .tmplReleased, .tmplDrop, .canvasStatus, .canvasEvent, .inputLogStatus, .inputLogMax,
      .epErr, .epEvent, .jseqTx, .pwrMode, .bistEvent, .collide, .etabWord],
      [.free, .cnt, .fmem, .fbad, .hmem, .sch, .vat, .hst, .epg, .twn, .pwr])
  | .etabPublish _ _ _ =>
    some (.only [.ringTail, .ringStatus, .layerVersion, .hostStatus, .hostErrAddr, .hostErrFn, .ctxCtrl, .ctxStatus,
      .ctxEvent, .tmplBind, .tmplReleased, .tmplDrop, .canvasStatus, .canvasEvent, .inputLogStatus, .inputLogMax,
      .epErr, .epEvent, .jseqTx, .pwrMode, .bistEvent, .collide, .etabWord],
      [.free, .cnt, .fmem, .fbad, .hmem, .sch, .vat, .hst, .epg, .twn, .pwr])
  | .viewWrite _ _ _ _ =>
    some (.only [.ringTail, .ringStatus, .layerVersion, .hostStatus, .hostErrAddr, .hostErrFn, .ctxCtrl, .ctxStatus,
      .ctxEvent, .tmplBind, .tmplReleased, .tmplDrop, .canvasStatus, .canvasEvent, .inputLogStatus, .inputLogMax,
      .viewBase, .viewN, .jseqTx, .pwrMode, .bistEvent, .collide],
      [.free, .cnt, .fmem, .fbad, .hmem, .sch, .vat, .hst, .twn, .pwr])
  | .tableBaseWrite _ _ _ =>
    some (.only [.ringTail, .ringStatus, .hostStatus, .hostErrAddr, .hostErrFn, .drvBase, .stblBase, .epErr, .epEvent,
      .jseqTx, .bistEvent, .collide],
      [.cnt, .hmem, .hst, .twn])
  | .fltClr _ _ =>
    some (.only [.ringTail, .ringStatus, .layerVersion, .hostStatus, .hostErrAddr, .hostErrFn, .ctxCtrl, .ctxStatus,
      .ctxEvent, .tmplBind, .tmplReleased, .tmplDrop, .canvasStatus, .canvasEvent, .inputLogStatus, .inputLogMax,
      .jseqTx, .pwrMode, .bistEvent, .collide],
      [.free, .cnt, .fmem, .fbad, .hmem, .sch, .vat, .hst, .epg, .twn, .pwr])
  | .drvKick _ _ =>
    some (.only [.ringTail, .ringStatus, .hostStatus, .hostErrAddr, .hostErrFn, .jseqTx, .bistEvent, .collide],
      [.cnt, .hmem, .hst, .epg, .twn])
  | .blackoutOn _ =>
    some (.only [.ringTail, .ringStatus, .hostStatus, .hostErrAddr, .hostErrFn, .epBlackout, .jseqTx, .bistEvent,
      .collide],
      [.free, .cnt, .hmem, .hst, .epg, .prt, .twn])
  | .blackoutOff _ =>
    some (.only [.ringTail, .ringStatus, .hostStatus, .hostErrAddr, .hostErrFn, .epBlackout, .jseqTx, .bistEvent,
      .collide],
      [.free, .cnt, .hmem, .hst, .epg, .prt, .twn])
  | .blackoutRepeat =>
    some (.only [.ringTail, .ringStatus, .hostStatus],
      [.free, .cnt, .hmem, .ot, .otFrac, .hst, .epg, .prt, .pwr])
  | .clear _ _ _ =>
    some (.only [.ringTail, .ringStatus, .layerVersion, .hostStatus, .hostErrAddr, .hostErrFn, .ctxCtrl, .ctxStatus,
      .ctxEvent, .tmplBind, .tmplReleased, .tmplDrop, .canvasStatus, .canvasEvent, .inputLogStatus, .inputLogMax, .kg,
      .jseqTx, .pwrMode, .bistEvent, .collide],
      [.free, .cnt, .fmem, .fbad, .hmem, .sch, .vat, .hst, .epg, .twn, .pwr])
  | .force _ _ _ =>
    some (.only [.ringTail, .ringStatus, .layerVersion, .hostStatus, .hostErrAddr, .hostErrFn, .ctxCtrl, .ctxStatus,
      .ctxEvent, .tmplBind, .tmplReleased, .tmplDrop, .canvasStatus, .canvasEvent, .inputLogStatus, .inputLogMax, .kg,
      .jseqTx, .pwrMode, .bistEvent, .collide],
      [.free, .cnt, .fmem, .fbad, .hmem, .sch, .vat, .hst, .epg, .twn, .pwr])
  | .streamTerminated _ _ _ =>
    some (.only [.ringTail, .ringStatus, .hostStatus, .hostErrAddr, .hostErrFn, .glzEvent, .univCtrl, .univSeq,
      .jseqTx, .bistEvent, .collide],
      [.cnt, .hmem, .hst, .glz, .epg, .prt, .twn, .pwr])
  | .latch _ =>
    some (.only [.ringTail, .ringStatus, .hostStatus],
      [.cnt, .hmem, .ot, .otFrac, .hst, .epg, .prt, .pwr])
  | .beacon _ =>
    some (.only [.ringTail, .ringStatus, .hostStatus],
      [.cnt, .hmem, .ot, .otFrac, .hst, .epg, .prt, .pwr])
  | .sacnSync _ =>
    some (.only [.ringTail, .ringStatus, .hostStatus],
      [.cnt, .hmem, .ot, .otFrac, .hst, .epg, .prt, .pwr])
  | .dmxPacketStart _ =>
    some (.only [],
      [.prt, .pwr])
  | .dmxPacketEnd _ =>
    some (.only [],
      [.cnt, .ot, .otFrac, .prt, .pwr])
  | .stat _ _ =>
    some (.only [.ringTail, .ringStatus, .layerVersion, .hostStatus, .ctxCtrl, .ctxStatus, .ctxEvent, .tmplBind,
      .tmplReleased, .tmplDrop, .canvasStatus, .canvasEvent, .inputLogStatus, .inputLogMax, .epEvent, .kg, .jseqTx,
      .pwrMode],
      [.free, .cnt, .fmem, .fbad, .hmem, .ot, .otFrac, .sch, .vat, .hst, .epg, .prt, .twn, .pwr])
  | .nodeLost _ =>
    some (.only [.ringTail, .ringStatus, .layerVersion, .hostStatus, .ctxCtrl, .ctxStatus, .ctxEvent, .tmplBind,
      .tmplReleased, .tmplDrop, .canvasStatus, .canvasEvent, .inputLogStatus, .inputLogMax, .epEvent, .kg, .jseqTx,
      .pwrMode],
      [.free, .cnt, .fmem, .fbad, .hmem, .ot, .otFrac, .sch, .vat, .hst, .epg, .twn, .pwr])
  | .setGo _ =>
    some (.only [.ringTail, .ringStatus, .hostStatus, .hostErrAddr, .hostErrFn, .timeStatus, .timeEvent, .jseqTx,
      .bistEvent, .collide],
      [.cnt, .hmem, .ot, .otFrac, .hst, .twn])
  | .otLoRead _ =>
    some (.only [.ringTail, .ringStatus, .hostStatus, .hostErrAddr, .hostErrFn, .otHi, .otFrac, .bistEvent, .collide],
      [.rdata, .cnt, .hmem, .hst])
  | .measPush _ _ =>
    some (.only [.ringTail, .ringStatus, .hostStatus, .hostErrAddr, .hostErrFn, .timeStatus, .timeEvent, .domSamples,
      .jseqTx, .bistEvent, .collide],
      [.free, .cnt, .hmem, .ot, .otFrac, .hst, .tim, .twn])
  | .annKick _ _ =>
    some (.only [.ringTail, .ringStatus, .hostStatus, .hostErrAddr, .hostErrFn, .jseqTx, .bistEvent, .collide],
      [.cnt, .hmem, .hst, .tim, .twn])
  | .announceTimeout _ =>
    some (.only [.ringTail, .ringStatus, .hostStatus, .timeStatus, .timeEvent],
      [.cnt, .hmem, .ot, .otFrac, .hst, .tim, .pwr])
  | .timeSelWrite _ _ =>
    some (.only [.ringTail, .ringStatus, .hostStatus, .hostErrAddr, .hostErrFn, .timeCtrl, .timeStatus, .timeEvent,
      .jseqTx, .bistEvent, .collide],
      [.cnt, .hmem, .hst, .tim, .twn])
  | .domEnWrite _ _ _ =>
    some (.only [.ringTail, .ringStatus, .hostStatus, .hostErrAddr, .hostErrFn, .timeStatus, .timeEvent, .domCfg,
      .jseqTx, .bistEvent, .collide],
      [.cnt, .hmem, .hst, .tim, .twn])
  | .fcEnable _ _ _ =>
    some (.only [.ringTail, .ringStatus, .hostStatus, .hostErrAddr, .hostErrFn, .fcCtrl, .fcStatus, .switchEpoch,
      .timeEvent, .jseqTx, .bistEvent, .collide],
      [.cnt, .hmem, .hst, .tim, .twn])
  | .fcCtrlWrite _ _ _ =>
    some (.only [.ringTail, .ringStatus, .hostStatus, .hostErrAddr, .hostErrFn, .fcCtrl, .fcStatus, .switchEpoch,
      .timeEvent, .jseqTx, .bistEvent, .collide],
      [.cnt, .hmem, .hst, .tim, .twn])
  | .fcPhaseWrite _ _ _ =>
    some (.only [.ringTail, .ringStatus, .hostStatus, .hostErrAddr, .hostErrFn, .fcPhase, .fcStatus, .switchEpoch,
      .timeEvent, .jseqTx, .bistEvent, .collide],
      [.cnt, .hmem, .hst, .tim, .twn])
  | .nextLoRead _ _ =>
    some (.only [.ringTail, .ringStatus, .hostStatus, .hostErrAddr, .hostErrFn, .nextHi, .nextEpoch, .bistEvent,
      .collide],
      [.rdata, .cnt, .hmem, .hst])
  | .tsqPop _ _ _ =>
    some (.only [.ringTail, .ringStatus, .hostStatus, .hostErrAddr, .hostErrFn, .tsqE1, .tsqE2, .tsqE3, .bistEvent,
      .collide],
      [.rdata, .cnt, .hmem, .hst, .prt])
  | .tsqFlush _ _ =>
    some (.only [.ringTail, .ringStatus, .hostStatus, .hostErrAddr, .hostErrFn, .tsqCtrl, .jseqTx, .bistEvent,
      .collide],
      [.cnt, .hmem, .hst, .prt, .twn])
  | .ppsInEdge _ _ =>
    some (.only [.ringTail, .ringStatus, .hostStatus],
      [.cnt, .hmem, .ot, .otFrac, .hst, .tim, .pwr])
  | .ppsInLoRead _ =>
    some (.only [.ringTail, .ringStatus, .hostStatus, .hostErrAddr, .hostErrFn, .ppsInHi, .ppsInFrac, .bistEvent,
      .collide],
      [.rdata, .cnt, .hmem, .hst])
  | .ppsOutPulse _ =>
    some (.only [],
      [.ot, .otFrac, .tim, .pwr])
  | .ref10Window _ =>
    some (.only [.timeStatus, .ref10Err],
      [.ot, .otFrac, .tim, .pwr])
  | .ref10Loss =>
    some (.only [.ringTail, .ringStatus, .hostStatus, .timeStatus, .timeEvent],
      [.cnt, .hmem, .hst, .tim])
  | .frameStart _ =>
    some (.only [.ringTail, .ringStatus, .hostStatus, .portEvent],
      [.cnt, .hmem, .hst, .prt])
  | .txFrameEnd _ =>
    some (.only [.ringTail, .ringStatus, .hostStatus, .tsqStatus, .tsqOvfCnt],
      [.cnt, .hmem, .ot, .otFrac, .hst, .prt, .pwr])
  | .txDescriptorFrame _ _ _ _ =>
    some (.only [.ringHead, .ringTail, .ringStatus, .hostStatus],
      [.cnt, .hmem, .hst, .prt])
  | .gateCycleStart _ =>
    some (.only [.gateCtrl, .gateMask, .gateDur],
      [.ot, .otFrac, .prt, .pwr])
  | .swap _ _ _ =>
    some (.only [.ringTail, .ringStatus, .hostStatus, .hostErrAddr, .hostErrFn, .gateCtrl, .jseqTx, .bistEvent,
      .collide],
      [.cnt, .hmem, .hst, .twn])
  | .portDisable _ _ _ =>
    some (.only [.ringTail, .ringStatus, .hostStatus, .hostErrAddr, .hostErrFn, .macCtrl, .portStatus, .portEvent,
      .t1sCtrl, .t1sStatus, .jseqTx, .bistEvent, .collide],
      [.cnt, .hmem, .hst, .prt, .twn])
  | .pauseFrame _ _ =>
    some (.only [.portStatus],
      [.cnt, .ot, .otFrac, .prt, .pwr])
  | .pauseExpire _ _ =>
    some (.only [.portStatus],
      [.ot, .otFrac, .prt, .pwr])
  | .pauseWdTrip _ _ =>
    some (.only [.ringTail, .ringStatus, .hostStatus, .portStatus, .portEvent],
      [.cnt, .hmem, .ot, .otFrac, .hst, .prt, .pwr])
  | .pauseRecEnd _ _ =>
    some (.only [.portStatus],
      [.ot, .otFrac, .prt, .pwr])
  | .lpiEnter _ =>
    some (.only [.portStatus],
      [.cnt, .ot, .otFrac, .pwr])
  | .lpiWake _ =>
    some (.only [.portStatus],
      [.ot, .otFrac, .prt, .pwr])
  | .eeeOkWrite _ _ _ =>
    some (.only [.ringTail, .ringStatus, .hostStatus, .hostErrAddr, .hostErrFn, .portStatus, .eeeCfg, .jseqTx,
      .bistEvent, .collide],
      [.cnt, .hmem, .hst, .prt, .twn])
  | .linkChange _ _ _ =>
    some (.only [.ringTail, .ringStatus, .hostStatus, .portStatus, .portEvent],
      [.cnt, .hmem, .hst, .prt])
  | .serviceFrameRx _ _ =>
    some (.only [.ringHead, .ringTail, .ringStatus, .layerVersion, .hostStatus, .ctxCtrl, .ctxStatus, .ctxEvent,
      .tmplBind, .tmplReleased, .tmplDrop, .canvasStatus, .canvasEvent, .inputLogStatus, .inputLogMax, .epErr,
      .epEvent, .portEvent, .jseqTx, .pwrMode, .etabWord],
      [.free, .cnt, .fmem, .fbad, .hmem, .ot, .otFrac, .sch, .vat, .hst, .epg, .prt, .twn, .pwr])
  | .flowFrameRx _ _ =>
    some (.only [.ringHead, .ringTail, .ringStatus, .hostStatus, .ctxStatus, .ctxEvent, .tmplBind, .tmplReleased,
      .tmplDrop, .portEvent],
      [.free, .cnt, .hmem, .ot, .otFrac, .sch, .hst, .prt, .pwr])
  | .badFrameRx _ _ =>
    some (.only [.ringHead, .ringTail, .ringStatus, .hostStatus, .portEvent],
      [.cnt, .hmem, .ot, .otFrac, .hst, .prt, .pwr])
  | .videoPacketRx _ _ _ _ =>
    some (.only [.ringTail, .ringStatus, .hostStatus, .portEvent, .strmStatus],
      [.cnt, .fmem, .fbad, .hmem, .ot, .otFrac, .hst, .prt, .pwr])
  | .audioPacketRx _ _ _ _ =>
    some (.only [.ringTail, .ringStatus, .layerVersion, .hostStatus, .ctxCtrl, .ctxStatus, .ctxEvent, .tmplBind,
      .tmplReleased, .tmplDrop, .canvasStatus, .canvasEvent, .inputLogStatus, .inputLogMax, .portEvent, .jseqTx,
      .pwrMode],
      [.free, .cnt, .fmem, .fbad, .hmem, .ot, .otFrac, .sch, .vat, .hst, .prt, .twn, .pwr])
  | .ancPacketRx _ _ _ _ =>
    some (.only [.ringTail, .ringStatus, .layerVersion, .hostStatus, .ctxCtrl, .ctxStatus, .ctxEvent, .tmplBind,
      .tmplReleased, .tmplDrop, .canvasStatus, .canvasEvent, .inputLogStatus, .inputLogMax, .portEvent, .tcReg,
      .jseqTx, .pwrMode],
      [.free, .cnt, .fmem, .fbad, .hmem, .ot, .otFrac, .sch, .vat, .hst, .prt, .twn, .pwr])
  | .ltcWord _ _ =>
    some (.only [.ringTail, .ringStatus, .layerVersion, .hostStatus, .ctxCtrl, .ctxStatus, .ctxEvent, .tmplBind,
      .tmplReleased, .tmplDrop, .canvasStatus, .canvasEvent, .inputLogStatus, .inputLogMax, .tcReg, .jseqTx, .pwrMode],
      [.free, .cnt, .fmem, .fbad, .hmem, .ot, .otFrac, .sch, .vat, .hst, .prt, .twn, .pwr])
  | .sacnPacketRx _ _ _ =>
    some (.only [.ringTail, .ringStatus, .layerVersion, .hostStatus, .ctxCtrl, .ctxStatus, .ctxEvent, .tmplBind,
      .tmplReleased, .tmplDrop, .canvasStatus, .canvasEvent, .inputLogStatus, .inputLogMax, .jseqTx, .pwrMode],
      [.free, .cnt, .fmem, .fbad, .hmem, .ot, .otFrac, .sch, .vat, .hst, .prt, .twn, .pwr])
  | .sacnSourceTimeout _ _ =>
    some (.only [.ringTail, .ringStatus, .layerVersion, .hostStatus, .ctxCtrl, .ctxStatus, .ctxEvent, .tmplBind,
      .tmplReleased, .tmplDrop, .canvasStatus, .canvasEvent, .inputLogStatus, .inputLogMax, .jseqTx, .pwrMode],
      [.free, .cnt, .fmem, .fbad, .hmem, .ot, .otFrac, .sch, .vat, .hst, .prt, .twn, .pwr])
  | .legLoss _ _ _ =>
    some (.only [.ringTail, .ringStatus, .hostStatus, .strmStatus],
      [.cnt, .hmem, .ot, .otFrac, .hst, .prt, .pwr])
  | .tcLoss _ =>
    some (.only [.ringTail, .ringStatus, .layerVersion, .hostStatus, .ctxCtrl, .ctxStatus, .ctxEvent, .tmplBind,
      .tmplReleased, .tmplDrop, .canvasStatus, .canvasEvent, .inputLogStatus, .inputLogMax, .tcReg, .jseqTx, .pwrMode],
      [.free, .cnt, .fmem, .fbad, .hmem, .ot, .otFrac, .sch, .vat, .hst, .twn, .pwr])
  | .t1sCollision _ _ =>
    some (.only [.ringTail, .ringStatus, .hostStatus, .t1sStatus],
      [.free, .cnt, .hmem, .hst, .prt])
  | .backoffExpire _ =>
    some (.only [],
      [.ot, .otFrac, .prt, .pwr])
  | .plcaBeaconChange _ _ =>
    some (.only [.ringTail, .ringStatus, .hostStatus, .t1sStatus],
      [.cnt, .hmem, .hst, .prt])
  | .go _ _ _ =>
    some (.only [.ringTail, .ringStatus, .hostStatus, .hostErrAddr, .hostErrFn, .rdmCtrl, .rdmStatus, .jseqTx,
      .bistEvent, .collide],
      [.cnt, .hmem, .hst, .prt, .twn])
  | .rdmListenEnd _ _ _ _ =>
    some (.only [.ringTail, .ringStatus, .hostStatus, .rdmCtrl, .rdmStatus, .rdmRx],
      [.cnt, .hmem, .ot, .otFrac, .hst, .prt, .pwr])
  | .leaseRenew =>
    some (.only [.ringTail, .ringStatus, .hostStatus, .ctxCtrl, .ctxStatus, .ctxEvent, .tmplBind, .tmplReleased,
      .tmplDrop, .canvasCtrl, .canvasStatus, .twinStatus, .twinEvent, .jseqTx, .pwrMode],
      [.inForce, .cnt, .fmem, .fbad, .hmem, .ot, .otFrac, .sch, .vat, .hst, .glz, .prt, .twn, .pwr])
  | .leaseLapse =>
    some (.only [.ringTail, .ringStatus, .hostStatus, .ctxCtrl, .ctxStatus, .ctxEvent, .tmplBind, .tmplReleased,
      .tmplDrop, .canvasCtrl, .canvasStatus, .twinStatus, .twinEvent, .pwrMode],
      [.inForce, .cnt, .fmem, .fbad, .hmem, .ot, .otFrac, .sch, .vat, .hst, .glz, .prt, .twn, .pwr])
  | .leaseExpiry =>
    some (.any,
      [.free, .inForce, .cnt, .swcnt, .fmem, .fbad, .hmem, .ot, .otFrac, .sch, .vat, .hst, .tim, .glz, .epg, .prt,
      .twn, .pwr, .bst])
  | .takeover =>
    some (.only [.ringTail, .ringStatus, .hostStatus, .timeStatus, .timeEvent, .twinStatus, .twinEvent, .jseqTx,
      .pwrMode],
      [.cnt, .hmem, .ot, .otFrac, .hst, .tim, .epg, .twn, .pwr])
  | .waitTimeout =>
    some (.only [.twinStatus, .term, .jseqTx, .pwrMode],
      [.cnt, .ot, .otFrac, .twn, .pwr])
  | .leaseInEdge _ =>
    some (.only [.ringTail, .ringStatus, .hostStatus, .twinStatus, .twinEvent],
      [.cnt, .hmem, .ot, .otFrac, .hst, .twn, .pwr])
  | .wireSilent =>
    some (.only [.ringTail, .ringStatus, .hostStatus, .twinStatus, .twinEvent],
      [.cnt, .hmem, .ot, .otFrac, .hst, .pwr])
  | .twinLinkChange _ _ =>
    some (.only [.ringTail, .ringStatus, .hostStatus, .twinStatus, .twinEvent],
      [.cnt, .hmem, .hst])
  | .renew _ _ _ _ _ _ _ =>
    some (.any,
      [.free, .inForce, .cnt, .swcnt, .fmem, .fbad, .hmem, .ot, .otFrac, .sch, .vat, .hst, .tim, .glz, .epg, .prt,
      .twn, .pwr])
  | .commitRecord _ _ _ _ _ _ =>
    some (.any,
      [.free, .inForce, .cnt, .swcnt, .fmem, .fbad, .hmem, .sch, .vat, .hst, .tim, .glz, .epg, .prt, .twn, .pwr])
  | .changeRecord _ _ _ _ _ _ _ =>
    some (.any,
      [.free, .inForce, .cnt, .swcnt, .fmem, .fbad, .hmem, .sch, .vat, .hst, .tim, .glz, .epg, .prt, .twn, .pwr])
  | .regw _ _ _ _ _ =>
    some (.any,
      [.free, .inForce, .cnt, .swcnt, .fmem, .fbad, .hmem, .sch, .vat, .hst, .tim, .glz, .epg, .prt, .twn, .pwr])
  | .cmdRecord _ _ _ =>
    some (.any,
      [.free, .inForce, .cnt, .swcnt, .fmem, .fbad, .hmem, .sch, .vat, .hst, .tim, .glz, .epg, .prt, .twn, .pwr])
  | .memw _ _ _ =>
    some (.any,
      [.free, .inForce, .cnt, .swcnt, .fmem, .fbad, .hmem, .sch, .vat, .hst, .tim, .glz, .epg, .prt, .twn, .pwr])
  | .layerRecord _ _ _ _ _ _ _ =>
    some (.any,
      [.free, .inForce, .cnt, .swcnt, .fmem, .fbad, .hmem, .sch, .vat, .hst, .tim, .glz, .epg, .prt, .twn, .pwr])
  | .epstate _ _ _ _ =>
    some (.any,
      [.free, .inForce, .cnt, .swcnt, .fmem, .fbad, .hmem, .sch, .vat, .hst, .tim, .glz, .epg, .prt, .twn, .pwr])
  | .handover _ _ =>
    some (.any,
      [.free, .inForce, .cnt, .swcnt, .fmem, .fbad, .hmem, .sch, .vat, .hst, .tim, .glz, .epg, .prt, .twn, .pwr])
  | .copyRecord _ _ _ _ _ =>
    some (.any,
      [.inForce, .cnt, .fmem, .fbad, .hmem, .vat, .hst, .tim, .glz, .epg, .twn, .pwr])
  | .copyEnd _ _ =>
    some (.any,
      [.free, .inForce, .cnt, .swcnt, .fmem, .fbad, .hmem, .sch, .vat, .hst, .tim, .glz, .epg, .prt, .twn, .pwr])
  | .ack _ _ _ _ _ _ _ =>
    some (.only [],
      [.ot, .otFrac, .twn, .pwr])
  | .copySend =>
    some (.only [.jseqTx, .copyDone, .copyTotal],
      [.cnt, .twn])
  | .shadowWaitExpire =>
    some (.any,
      [.free, .inForce, .cnt, .swcnt, .fmem, .fbad, .hmem, .ot, .otFrac, .sch, .vat, .hst, .tim, .glz, .epg, .prt,
      .twn, .pwr])
  | .resign _ =>
    some (.any,
      [.inForce, .cnt, .fmem, .fbad, .hmem, .sch, .vat, .hst, .tim, .glz, .epg, .prt, .twn, .pwr])
  | .assume _ =>
    some (.any,
      [.inForce, .cnt, .fmem, .fbad, .hmem, .sch, .vat, .hst, .tim, .glz, .epg, .prt, .twn, .pwr])
  | .resync _ =>
    some (.any,
      [.inForce, .cnt, .fmem, .fbad, .hmem, .sch, .vat, .hst, .tim, .glz, .epg, .prt, .twn, .pwr])
  | .leaveSafe _ =>
    some (.any,
      [.inForce, .cnt, .fmem, .fbad, .hmem, .sch, .vat, .hst, .tim, .glz, .epg, .prt, .twn, .pwr])
  | .twinEnWrite _ _ =>
    some (.only [.ringTail, .ringStatus, .hostStatus, .hostErrAddr, .hostErrFn, .twinCtrl, .twinStatus, .jseqTx,
      .bistEvent, .collide],
      [.cnt, .hmem, .hst, .twn])
  | .modeReqShow _ =>
    some (.only [.ringTail, .ringStatus, .hostStatus, .hostErrAddr, .hostErrFn, .jseqTx, .pwrMode, .pwrEvent,
      .bistEvent, .collide],
      [.cnt, .hmem, .hst, .twn, .pwr])
  | .modeReqIdle _ =>
    some (.only [.ringTail, .ringStatus, .hostStatus, .hostErrAddr, .hostErrFn, .jseqTx, .pwrMode, .pwrEvent,
      .bistEvent, .collide],
      [.cnt, .hmem, .hst, .twn, .pwr])
  | .modeReqTest _ =>
    some (.only [.ringTail, .ringStatus, .hostStatus, .hostErrAddr, .hostErrFn, .jseqTx, .pwrMode, .pwrEvent,
      .bistEvent, .collide],
      [.cnt, .hmem, .hst, .twn, .pwr])
  | .modeReqSleep _ =>
    some (.only [.ringTail, .ringStatus, .hostStatus, .hostErrAddr, .hostErrFn, .ctxCtrl, .ctxStatus, .ctxEvent,
      .tmplBind, .tmplReleased, .tmplDrop, .canvasCtrl, .canvasStatus, .twinStatus, .twinEvent, .jseqTx, .pwrMode,
      .safeCause, .pwrEvent, .bistCmd, .bistStatus, .bistEvent, .collide, .bistRes],
      [.inForce, .cnt, .fmem, .fbad, .hmem, .sch, .vat, .hst, .glz, .prt, .twn, .pwr, .bst])
  | .modeReqSafe _ =>
    some (.only [.ringTail, .ringStatus, .hostStatus, .hostErrAddr, .hostErrFn, .ctxCtrl, .ctxStatus, .ctxEvent,
      .tmplBind, .tmplReleased, .tmplDrop, .canvasCtrl, .canvasStatus, .twinStatus, .twinEvent, .jseqTx, .pwrMode,
      .safeCause, .pwrEvent, .bistCmd, .bistStatus, .bistEvent, .collide, .bistRes],
      [.inForce, .cnt, .fmem, .fbad, .hmem, .sch, .vat, .hst, .glz, .prt, .twn, .pwr, .bst])
  | .modeTransitionDone =>
    some (.any,
      [.rdata, .inForce, .calOld, .cnt, .snap, .swcnt, .fmem, .fbad, .hmem, .ot, .otFrac, .otp, .tagCount, .tagDraws,
      .sch, .vat, .hst, .tim, .glz, .epg, .prt, .twn, .pwr, .bst])
  | .holdEnWrite _ _ =>
    some (.only [.ringTail, .ringStatus, .hostStatus, .hostErrAddr, .hostErrFn, .jseqTx, .pwrMode, .pwrCtrl,
      .bistEvent, .collide],
      [.cnt, .hmem, .hst, .twn, .pwr])
  | .hbmSelfRefresh =>
    some (.only [],
      [.ot, .otFrac, .pwr])
  | .softRst _ =>
    some (.any,
      [.rdata, .inForce, .calOld, .cnt, .snap, .swcnt, .fmem, .fbad, .hmem, .ot, .otFrac, .otp, .tagCount, .tagDraws,
      .sch, .vat, .hst, .tim, .glz, .epg, .prt, .twn, .pwr, .bst])
  | .powerOn =>
    some (.any,
      [.rdata, .inForce, .calOld, .cnt, .snap, .swcnt, .fmem, .fbad, .ot, .otFrac, .otp, .tagCount, .tagDraws, .sch,
      .vat, .hst, .tim, .glz, .epg, .prt, .twn, .pwr, .bst])
  | .aonRstN =>
    some (.any,
      [.rdata, .inForce, .calOld, .cnt, .snap, .swcnt, .fmem, .fbad, .ot, .otFrac, .otp, .tagCount, .tagDraws, .sch,
      .vat, .hst, .tim, .glz, .epg, .prt, .twn, .pwr, .bst])
  | .sysRstN =>
    some (.any,
      [.rdata, .inForce, .calOld, .cnt, .snap, .swcnt, .fmem, .fbad, .ot, .otFrac, .otp, .tagCount, .tagDraws, .sch,
      .vat, .hst, .tim, .glz, .epg, .prt, .twn, .pwr, .bst])
  | .resetRelease _ _ =>
    some (.only [.ringTail, .ringStatus, .hostStatus, .pcieLink, .ctxCtrl, .ctxStatus, .ctxEvent, .tmplBind,
      .tmplReleased, .tmplDrop, .canvasCtrl, .canvasStatus, .portStatus, .portEvent, .twinStatus, .twinEvent,
      .pwrMode, .railGood, .safeCause, .clkStatus, .bootStatus, .pwrEvent, .bistCmd, .bistStatus, .bistEvent,
      .otpCtrl, .bistRes, .fact],
      [.inForce, .cnt, .fmem, .fbad, .hmem, .ot, .otFrac, .sch, .vat, .hst, .glz, .prt, .twn, .pwr, .bst])
  | .railFault _ =>
    some (.any,
      [.rdata, .inForce, .calOld, .cnt, .snap, .swcnt, .fmem, .fbad, .ot, .otFrac, .otp, .tagCount, .tagDraws, .sch,
      .vat, .hst, .tim, .glz, .epg, .prt, .twn, .pwr, .bst])
  | .refClockLoss _ _ =>
    some (.only [.ringTail, .ringStatus, .hostStatus, .pcieLink, .ctxCtrl, .ctxStatus, .ctxEvent, .tmplBind,
      .tmplReleased, .tmplDrop, .canvasCtrl, .canvasStatus, .portStatus, .portEvent, .twinStatus, .twinEvent,
      .pwrMode, .safeCause, .clkStatus, .pwrEvent, .bistCmd, .bistStatus, .bistEvent, .bistRes],
      [.inForce, .cnt, .fmem, .fbad, .hmem, .sch, .vat, .hst, .glz, .prt, .twn, .pwr, .bst])
  | .avsCommand _ =>
    some (.only [.ringTail, .ringStatus, .hostStatus, .avsCtrl, .pwrEvent],
      [.free, .cnt, .hmem, .ot, .otFrac, .hst, .pwr])
  | .dieTempCross _ =>
    some (.only [.ringTail, .ringStatus, .hostStatus, .ctxCtrl, .ctxStatus, .ctxEvent, .tmplBind, .tmplReleased,
      .tmplDrop, .canvasCtrl, .canvasStatus, .twinStatus, .twinEvent, .pwrMode, .safeCause, .dieTemp, .pwrEvent,
      .bistCmd, .bistStatus, .bistEvent, .bistRes],
      [.inForce, .cnt, .fmem, .fbad, .hmem, .sch, .vat, .hst, .glz, .prt, .twn, .pwr, .bst])
  | .wakeSource _ =>
    some (.only [.ringTail, .ringStatus, .hostStatus, .pwrMode, .rstCause],
      [.cnt, .hmem, .hst, .pwr])
  | .slowAlarm =>
    some (.only [.ringTail, .ringStatus, .hostStatus, .pwrMode, .rstCause],
      [.cnt, .hmem, .hst, .pwr])
  | .slowLoRead _ =>
    some (.only [.ringTail, .ringStatus, .hostStatus, .hostErrAddr, .hostErrFn, .slowHi, .bistEvent, .collide],
      [.rdata, .cnt, .hmem, .hst])
  | .bootGo _ =>
    some (.only [.ringTail, .ringStatus, .hostStatus, .hostErrAddr, .hostErrFn, .jseqTx, .bootStatus, .bistEvent,
      .collide],
      [.cnt, .hmem, .hst, .twn, .pwr])
  | .bootImageCheck _ =>
    some (.any,
      [.free, .rdata, .inForce, .calOld, .cnt, .snap, .swcnt, .fmem, .fbad, .hmem, .ot, .otFrac, .otp, .tagCount,
      .tagDraws, .sch, .vat, .hst, .tim, .glz, .epg, .prt, .twn, .pwr, .bst])
  | .bistBlockDone _ _ _ _ =>
    some (.only [.ringTail, .ringStatus, .hostStatus, .ctxCtrl, .ctxStatus, .ctxEvent, .tmplBind, .tmplReleased,
      .tmplDrop, .canvasCtrl, .canvasStatus, .twinStatus, .twinEvent, .pwrMode, .safeCause, .bistCmd, .bistStatus,
      .bistEvent, .bistRes],
      [.inForce, .cnt, .fmem, .fbad, .hmem, .sch, .vat, .hst, .glz, .prt, .twn, .pwr, .bst])
  | .shutdownRun _ =>
    some (.only [.ringTail, .ringStatus, .hostStatus, .hostErrAddr, .hostErrFn, .ctxCtrl, .ctxStatus, .ctxEvent,
      .tmplBind, .tmplReleased, .tmplDrop, .canvasCtrl, .canvasStatus, .twinStatus, .twinEvent, .jseqTx, .pwrMode,
      .safeCause, .bistCmd, .bistStatus, .bistEvent, .collide, .bistRes],
      [.inForce, .cnt, .fmem, .fbad, .hmem, .sch, .vat, .hst, .glz, .prt, .twn, .pwr, .bst])
  | .stop _ =>
    some (.only [.ringTail, .ringStatus, .hostStatus, .hostErrAddr, .hostErrFn, .ctxCtrl, .ctxStatus, .ctxEvent,
      .tmplBind, .tmplReleased, .tmplDrop, .canvasCtrl, .canvasStatus, .twinStatus, .twinEvent, .jseqTx, .pwrMode,
      .safeCause, .bistCmd, .bistStatus, .bistEvent, .collide, .bistRes],
      [.inForce, .cnt, .fmem, .fbad, .hmem, .sch, .vat, .hst, .glz, .prt, .twn, .pwr, .bst])
  | .rotStepStart =>
    some (.only [.bistStatus],
      [.ot, .otFrac, .pwr, .bst])
  | .rotClusterDrained =>
    some (.only [.bistStatus, .bistRes],
      [.cnt, .bst])
  | .rotDrainTimeout =>
    some (.only [.ringTail, .ringStatus, .hostStatus, .bistStatus, .bistRes],
      [.cnt, .hmem, .ot, .otFrac, .hst, .pwr, .bst])
  | .otpGo _ =>
    some (.only [.ringTail, .ringStatus, .hostStatus, .hostErrAddr, .hostErrFn, .jseqTx, .bistEvent, .collide,
      .otpCtrl],
      [.cnt, .hmem, .otp, .hst, .twn])
  | .lcReq _ _ =>
    some (.only [.ringTail, .ringStatus, .hostStatus, .hostErrAddr, .hostErrFn, .jseqTx, .bistEvent, .collide],
      [.cnt, .hmem, .otp, .hst, .twn])
  | .calWrite _ _ _ =>
    some (.any,
      [.free, .rdata, .inForce, .calOld, .cnt, .snap, .swcnt, .fmem, .fbad, .hmem, .ot, .otFrac, .otp, .tagCount,
      .tagDraws, .sch, .vat, .hst, .tim, .glz, .epg, .prt, .twn, .pwr, .bst])
  | .cntLoRead _ _ =>
    some (.only [.ringTail, .ringStatus, .hostStatus, .hostErrAddr, .hostErrFn, .bistEvent, .collide, .cntHi],
      [.rdata, .cnt, .hmem, .hst])
  | .cntSnap _ =>
    some (.only [.ringTail, .ringStatus, .hostStatus, .hostErrAddr, .hostErrFn, .jseqTx, .bistEvent, .collide,
      .snapTimeLo, .snapTimeHi],
      [.cnt, .snap, .hmem, .hst, .twn])
  | .rcRead _ _ _ _ _ _ =>
    some (.any,
      [.free, .rdata, .inForce, .calOld, .cnt, .snap, .swcnt, .fmem, .fbad, .hmem, .ot, .otFrac, .otp, .tagCount,
      .tagDraws, .sch, .vat, .hst, .tim, .glz, .epg, .prt, .twn, .pwr, .bst])
  | .tagSample _ _ _ _ _ =>
    some (.only [.ringTail, .ringStatus, .hostStatus, .tagTail, .tagStatus],
      [.cnt, .fmem, .fbad, .hmem, .tagCount, .tagDraws, .hst, .pwr])
  | .bwWindowEnd _ =>
    some (.only [.ringTail, .ringStatus, .hostStatus, .txBytes, .rxBytes, .peakTx, .bwSeq],
      [.cnt, .hmem, .ot, .otFrac, .hst, .prt, .pwr])
  | .ringDmaFault _ =>
    some (.only [.ringCtrl, .ringTail, .ringStatus, .hostStatus],
      [.cnt, .hmem, .hst])
  | .fillCopyComplete _ =>
    some (.only [.ringTail, .ringStatus, .hostStatus, .ctxStatus, .ctxEvent, .tmplBind, .tmplReleased, .tmplDrop,
      .wpEpoch, .vatSlots, .canvasStatus, .canvasEvent],
      [.cnt, .hmem, .sch, .vat, .hst])
  | .ref10Return _ =>
    some (.only [.timeStatus],
      [.ot, .otFrac, .tim, .pwr])
  | .hbmStackTempCross _ =>
    some (.only [],
      [.pwr])
  | _ => none

end Sys2Proof.Machine
end

