-- ==== Sys2Proof/Certificates/Slice0/Obligations.lean ====
section
/-!
DEFINITION. The statements about the device that are to be proved. Each docstring names the rule that it follows.
-/

open Sys2Proof Sys2Proof.Machine

/-- R61, R52, R62: sums, differences and products of the scalar ALU and of the immediate group wrap; MULH and MULHU give
the high word of the 64-bit product; LI gives the immediate. -/
def Obligations.ScalarSumsAndProducts : Prop :=
  ∀ (s : State) (k : Nat) (t : Task) (f : F), Ready s k t → Enabled t f →
    (f.imm = 0 →
      WritesScalar s t (.add k f) f.d (BitVec.ofNat 32 ((sreg t f.a).toNat + (sreg t f.b).toNat)) ∧
      WritesScalar s t (.sub k f) f.d (BitVec.ofInt 32 ((sreg t f.a).toInt - (sreg t f.b).toInt)) ∧
      WritesScalar s t (.mul k f) f.d (BitVec.ofInt 32 ((sreg t f.a).toInt * (sreg t f.b).toInt)) ∧
      WritesScalar s t (.mulh k f) f.d
        (((sreg t f.a).signExtend 64 * (sreg t f.b).signExtend 64).extractLsb' 32 32) ∧
      WritesScalar s t (.mulhu k f) f.d
        (((sreg t f.a).setWidth 64 * (sreg t f.b).setWidth 64).extractLsb' 32 32)) ∧
    (∀ c : BitVec 5, f.imm = c.setWidth 32 →
      WritesScalar s t (.mad k f) f.d
        (BitVec.ofNat 32 ((sreg t f.a).toNat * (sreg t f.b).toNat + (sreg t c).toNat))) ∧
    (f.b = 0 →
      WritesScalar s t (.addi k f) f.d (BitVec.ofNat 32 ((sreg t f.a).toNat + f.imm.toNat)) ∧
      WritesScalar s t (.muli k f) f.d (BitVec.ofNat 32 ((sreg t f.a).toNat * f.imm.toNat)) ∧
      (f.a = 0 → WritesScalar s t (.li k f) f.d f.imm))

/-- R61, R62: the bitwise operations, the shifts by the low five bits of the count (SRA keeps the sign), and SEL. -/
def Obligations.ScalarLogicAndShifts : Prop :=
  ∀ (s : State) (k : Nat) (t : Task) (f : F), Ready s k t → Enabled t f →
    (f.imm = 0 →
      WritesScalar s t (.and k f) f.d (sreg t f.a &&& sreg t f.b) ∧
      WritesScalar s t (.or k f) f.d (sreg t f.a ||| sreg t f.b) ∧
      WritesScalar s t (.xor k f) f.d (sreg t f.a ^^^ sreg t f.b) ∧
      WritesScalar s t (.shl k f) f.d (BitVec.ofNat 32 ((sreg t f.a).toNat * 2 ^ ((sreg t f.b).toNat % 32))) ∧
      WritesScalar s t (.shr k f) f.d (BitVec.ofNat 32 ((sreg t f.a).toNat / 2 ^ ((sreg t f.b).toNat % 32))) ∧
      WritesScalar s t (.sra k f) f.d (BitVec.ofInt 32 ((sreg t f.a).toInt / 2 ^ ((sreg t f.b).toNat % 32)))) ∧
    (∀ c : BitVec 5, f.imm = c.setWidth 32 →
      WritesScalar s t (.sel k f) f.d (if sreg t c = 0 then sreg t f.b else sreg t f.a)) ∧
    (f.b = 0 →
      WritesScalar s t (.andi k f) f.d (sreg t f.a &&& f.imm) ∧
      WritesScalar s t (.ori k f) f.d (sreg t f.a ||| f.imm) ∧
      WritesScalar s t (.xori k f) f.d (sreg t f.a ^^^ f.imm) ∧
      (∀ n : Nat, n < 32 → f.imm = BitVec.ofNat 32 n →
        WritesScalar s t (.shli k f) f.d (BitVec.ofNat 32 ((sreg t f.a).toNat * 2 ^ n)) ∧
        WritesScalar s t (.shri k f) f.d (BitVec.ofNat 32 ((sreg t f.a).toNat / 2 ^ n)) ∧
        WritesScalar s t (.srai k f) f.d (BitVec.ofInt 32 ((sreg t f.a).toInt / 2 ^ n))))

/-- R61, R62: the compares give 1 or 0, and the choices the smaller or the greater value, signed or unsigned. -/
def Obligations.ScalarComparesAndChoices : Prop :=
  ∀ (s : State) (k : Nat) (t : Task) (f : F), Ready s k t → Enabled t f →
    (f.imm = 0 →
      WritesScalar s t (.slt k f) f.d (if (sreg t f.a).toInt < (sreg t f.b).toInt then 1 else 0) ∧
      WritesScalar s t (.sltu k f) f.d (if (sreg t f.a).toNat < (sreg t f.b).toNat then 1 else 0) ∧
      WritesScalar s t (.min k f) f.d (BitVec.ofInt 32 (min (sreg t f.a).toInt (sreg t f.b).toInt)) ∧
      WritesScalar s t (.max k f) f.d (BitVec.ofInt 32 (max (sreg t f.a).toInt (sreg t f.b).toInt)) ∧
      WritesScalar s t (.minu k f) f.d (BitVec.ofNat 32 (min (sreg t f.a).toNat (sreg t f.b).toNat)) ∧
      WritesScalar s t (.maxu k f) f.d (BitVec.ofNat 32 (max (sreg t f.a).toNat (sreg t f.b).toNat))) ∧
    (f.b = 0 →
      WritesScalar s t (.slti k f) f.d (if (sreg t f.a).toInt < f.imm.toInt then 1 else 0) ∧
      WritesScalar s t (.sltiu k f) f.d (if (sreg t f.a).toNat < f.imm.toNat then 1 else 0))

/-- R52: division truncates; a zero divisor gives all ones unsigned, −1 or +1 signed by the dividend's sign, and the
dividend as the remainder; −2^31 ÷ −1 gives −2^31 with remainder 0. -/
def Obligations.DivisionWithItsCorners : Prop :=
  ∀ (s : State) (k : Nat) (t : Task) (f : F), Ready s k t → Enabled t f → f.imm = 0 →
    (sreg t f.b = 0 →
      WritesScalar s t (.divu k f) f.d 0xFFFFFFFF ∧
      WritesScalar s t (.remu k f) f.d (sreg t f.a) ∧
      WritesScalar s t (.div k f) f.d (if 0 ≤ (sreg t f.a).toInt then 0xFFFFFFFF else 1) ∧
      WritesScalar s t (.rem k f) f.d (sreg t f.a)) ∧
    (sreg t f.b ≠ 0 →
      WritesScalar s t (.divu k f) f.d (BitVec.ofNat 32 ((sreg t f.a).toNat / (sreg t f.b).toNat)) ∧
      WritesScalar s t (.remu k f) f.d (BitVec.ofNat 32 ((sreg t f.a).toNat % (sreg t f.b).toNat)) ∧
      ∃ q r : W32, WritesScalar s t (.div k f) f.d q ∧ WritesScalar s t (.rem k f) f.d r ∧
        (sreg t f.a = 0x80000000 ∧ sreg t f.b = 0xFFFFFFFF → q = 0x80000000 ∧ r = 0) ∧
        (¬ (sreg t f.a = 0x80000000 ∧ sreg t f.b = 0xFFFFFFFF) →
          (sreg t f.a).toInt = q.toInt * (sreg t f.b).toInt + r.toInt ∧
          r.toInt.natAbs < (sreg t f.b).toInt.natAbs ∧
          (r ≠ 0 → (0 ≤ r.toInt ↔ 0 ≤ (sreg t f.a).toInt))))

/-- R25: a px16 product is the nearest number to a × b ÷ 65,535 (65,535 is odd, so no tie arises), and sums and
differences saturate. The instructions read the low 16 bits of their sources (R24). -/
def Obligations.PxArithmetic : Prop :=
  ∀ (s : State) (k : Nat) (t : Task) (f : F), Ready s k t → Enabled t f → f.imm = 0 →
    ∀ a b : Nat, a = (sreg t f.a).toNat % 65536 → b = (sreg t f.b).toNat % 65536 →
      WritesScalar s t (.pxadd k f) f.d (BitVec.ofNat 32 (min (a + b) 65535)) ∧
      WritesScalar s t (.pxsub k f) f.d (BitVec.ofNat 32 (a - b)) ∧
      ∃ v : Nat, WritesScalar s t (.pxmul k f) f.d (BitVec.ofNat 32 v) ∧ v ≤ 65535 ∧
        2 * (v * 65535) < 2 * (a * b) + 65535 ∧ 2 * (a * b) < 2 * (v * 65535) + 65535

/-- R61, R24: the predicate operations, PMOV from the low half of a scalar register, and PRD to a scalar register. -/
def Obligations.PredicateOperations : Prop :=
  ∀ (s : State) (k : Nat) (t : Task) (f : F), Ready s k t → Enabled t f → f.imm = 0 →
    (f.d.toNat < 8 → f.a.toNat < 8 → f.b.toNat < 8 →
      WritesPredicate s t (.pand k f) f.d.toNat (preg t f.a.toNat &&& preg t f.b.toNat) ∧
      WritesPredicate s t (.por k f) f.d.toNat (preg t f.a.toNat ||| preg t f.b.toNat) ∧
      WritesPredicate s t (.pxor k f) f.d.toNat (preg t f.a.toNat ^^^ preg t f.b.toNat) ∧
      WritesPredicate s t (.pandn k f) f.d.toNat (preg t f.a.toNat &&& ~~~(preg t f.b.toNat))) ∧
    (f.d.toNat < 8 → f.b = 0 →
      WritesPredicate s t (.pmov k f) f.d.toNat ((sreg t f.a).setWidth 16)) ∧
    (f.a.toNat < 8 → f.b = 0 →
      WritesScalar s t (.prd k f) f.d ((preg t f.a.toNat).setWidth 32))

/-- R34: a scalar operation under a predicate other than p0 that is zero has no effect but on the pc and the counts of
steps and cycles. -/
def Obligations.DisabledScalarHasNoEffect : Prop :=
  ∀ (s : State) (k : Nat) (t : Task) (f : F), Ready s k t → f.p ≠ 0 → maskOf t f = 0 →
    (f.imm = 0 → ∀ i ∈ [Instr.add k f, .sub k f, .and k f, .or k f, .xor k f, .shl k f, .shr k f, .sra k f, .slt k f,
      .sltu k f, .min k f, .max k f, .minu k f, .maxu k f, .mul k f, .mulh k f, .mulhu k f, .div k f, .divu k f,
      .rem k f, .remu k f, .pxmul k f, .pxadd k f, .pxsub k f], GoesOn s t i (t.pc + 8) t) ∧
    (f.imm.toNat < 32 → ∀ i ∈ [Instr.sel k f, .mad k f], GoesOn s t i (t.pc + 8) t) ∧
    (f.b = 0 → ∀ i ∈ [Instr.addi k f, .andi k f, .ori k f, .xori k f, .slti k f, .sltiu k f, .muli k f],
      GoesOn s t i (t.pc + 8) t) ∧
    (f.b = 0 → f.imm.toNat < 32 → ∀ i ∈ [Instr.shli k f, .shri k f, .srai k f], GoesOn s t i (t.pc + 8) t) ∧
    (f.b = 0 → f.a = 0 → GoesOn s t (.li k f) (t.pc + 8) t)

/-- R33, R55, R59: a field that must be zero and is not, or a predicate number above 7, raises ILLEGAL, whose
information is the instruction's address (log 12), even under a predicate that disables the instruction. -/
def Obligations.FieldsThatMustBeZero : Prop :=
  ∀ (s : State) (k : Nat) (t : Task) (f : F), Ready s k t → TasksFit s →
    (f.imm ≠ 0 → ∀ i ∈ [Instr.add k f, .sub k f, .and k f, .or k f, .xor k f, .shl k f, .shr k f, .sra k f, .slt k f,
      .sltu k f, .min k f, .max k f, .minu k f, .maxu k f, .mul k f, .mulh k f, .mulhu k f, .div k f, .divu k f,
      .rem k f, .remu k f, .pxmul k f, .pxadd k f, .pxsub k f], Terminates s t i 1 1 t.pc) ∧
    (f.imm ≠ 0 → ∀ i ∈ [Instr.pand k f, .por k f, .pxor k f, .pandn k f, .pmov k f, .prd k f, .vmat3 k f, .yield k f, .done k f, .spawn k f, .post k f, .cancel k f, .pktAlloc k f, .pktRd k f,
      .pktLen k f, .pktSend k f, .pktFree k f, .jr k f, .callr k f, .nop k f], Terminates s t i 1 1 t.pc) ∧
    (32 ≤ f.imm.toNat → ∀ i ∈ [Instr.sel k f, .mad k f, .shli k f, .shri k f, .srai k f, .pktWr k f],
      Terminates s t i 1 1 t.pc) ∧
    (f.b ≠ 0 → ∀ i ∈ [Instr.addi k f, .andi k f, .ori k f, .xori k f, .shli k f, .shri k f, .srai k f, .slti k f,
      .sltiu k f, .muli k f, .li k f, .pmov k f, .prd k f, .specIn k f, .firmIn k f, .specVer k f, .firmVer k f,
      .etabRd k f, .bra k f, .bany k f, .ball k f, .bnone k f, .call k f, .jr k f, .callr k f, .nop k f, .crr k f,
      .vcrr k f, .fence k f, .brk k f, .trap k f, .cntAdd k f], Terminates s t i 1 1 t.pc) ∧
    (f.p ≠ 0 → ∀ i ∈ [Instr.nop k f, .crr k f, .vcrr k f, .fence k f, .brk k f, .trap k f, .cntAdd k f],
      Terminates s t i 1 1 t.pc) ∧
    (8 ≤ f.d.toNat → ∀ i ∈ [Instr.pand k f, .por k f, .pxor k f, .pandn k f, .pmov k f, .vfcmpeq k false f,
      .vfcmplt k true f, .vfcmple k false f], Terminates s t i 1 1 t.pc) ∧
    (8 ≤ f.a.toNat → ∀ i ∈ [Instr.pand k f, .por k f, .pxor k f, .pandn k f, .prd k f], Terminates s t i 1 1 t.pc) ∧
    (∀ ty : BitVec 3, 5 ≤ ty.toNat → ∀ i ∈ [Instr.vadd k ty f, .vsub k ty f, .vadds k ty f, .vsubs k ty f, .vand k ty f,
      .vor k ty f, .vxor k ty f, .vshl k ty f, .vshr k ty f, .vmin k ty f, .vmax k ty f, .vmul k ty f, .vmad k ty f,
      .vsel k ty f, .vcmpeq k ty f, .vcmplt k ty f, .vcmple k ty f, .vbcst k ty f, .vext k ty f, .vradd k ty f,
      .vperm k ty f, .vlut k ty f, .vluti k ty f], Terminates s t i 1 1 t.pc)

/-- R85, R90: at the step limit the next instruction of any kind does not issue and raises STEP_LIMIT with the limit as
its information; else a fetch beyond the image raises MEM_FAULT with the address. -/
def Obligations.StepLimitAndEndOfImage : Prop :=
  ∀ (s : State) (i : Instr) (t : Task), (encode i).isSome → taskOn s (coreOf i) = some t → TasksFit s →
    (dSteps t.desc ≠ 0 → t.steps = dSteps t.desc * 256 →
      Terminates s t i 1 0x0A (BitVec.ofNat 32 (dSteps t.desc * 256))) ∧
    (dSteps t.desc = 0 ∨ t.steps < dSteps t.desc * 256 → t.prog.len * 8 ≤ t.pc.toNat → Terminates s t i 1 4 t.pc)

/-- R55, R88, R35: BRK completes its task with status BREAK and TRAP with FAULT, both with the immediate as information;
a reserved word raises ILLEGAL. -/
def Obligations.BreakTrapAndReservedWords : Prop :=
  ∀ (s : State) (k : Nat) (t : Task) (f : F) (w : W64), Ready s k t → TasksFit s →
    (f.b = 0 → f.p = 0 →
      Terminates s t (.brk k f) 2 0x0B f.imm ∧ Terminates s t (.trap k f) 1 0x0C f.imm) ∧
    (decodeWord k w = none → Terminates s t (.reservedInstruction k w) 1 1 t.pc)

/-- R63, R24: the vector integer operations work on the low bits of each active lane at the type's width, wrap or
saturate there, and extend the result; shift counts are the low five bits of the lane of v[b]. -/
def Obligations.VectorIntegerArithmetic : Prop :=
  ∀ (s : State) (k : Nat) (t : Task) (f : F) (ty : BitVec 3), Ready s k t → ty.toNat < 5 →
    (f.imm = 0 → ∃ add sub adds subs mul : Nat → W32,
      WritesVector s t (.vadd k ty f) f f.d.toNat add ∧ WritesVector s t (.vsub k ty f) f f.d.toNat sub ∧
      WritesVector s t (.vadds k ty f) f f.d.toNat adds ∧ WritesVector s t (.vsubs k ty f) f f.d.toNat subs ∧
      WritesVector s t (.vmul k ty f) f f.d.toNat mul ∧
      ∀ l, let a := laneInt ty.toNat (lane t f.a.toNat l); let b := laneInt ty.toNat (lane t f.b.toNat l)
        Wrapped ty.toNat (a + b) (add l) ∧ Wrapped ty.toNat (a - b) (sub l) ∧ Saturated ty.toNat (a + b) (adds l) ∧
        Saturated ty.toNat (a - b) (subs l) ∧ Wrapped ty.toNat (a * b) (mul l)) ∧
    (∀ c : BitVec 5, f.imm = c.setWidth 32 → ∃ mad : Nat → W32, WritesVector s t (.vmad k ty f) f f.d.toNat mad ∧
      ∀ l, Wrapped ty.toNat (laneInt ty.toNat (lane t f.a.toNat l) * laneInt ty.toNat (lane t f.b.toNat l) +
        laneInt ty.toNat (lane t c.toNat l)) (mad l))

/-- R63, R24: the bitwise operations, the shifts (VSHR fills with the sign for s16 and s32, else with zeros) and the
choices of the vector integer group. -/
def Obligations.VectorBitsShiftsAndChoices : Prop :=
  ∀ (s : State) (k : Nat) (t : Task) (f : F) (ty : BitVec 3), Ready s k t → ty.toNat < 5 → f.imm = 0 →
    ∃ and or xor shl shr min' max' : Nat → W32,
      WritesVector s t (.vand k ty f) f f.d.toNat and ∧ WritesVector s t (.vor k ty f) f f.d.toNat or ∧
      WritesVector s t (.vxor k ty f) f f.d.toNat xor ∧ WritesVector s t (.vshl k ty f) f f.d.toNat shl ∧
      WritesVector s t (.vshr k ty f) f f.d.toNat shr ∧ WritesVector s t (.vmin k ty f) f f.d.toNat min' ∧
      WritesVector s t (.vmax k ty f) f f.d.toNat max' ∧
      ∀ l, let a := lane t f.a.toNat l; let b := lane t f.b.toNat l
        (Extended ty.toNat (and l) ∧ laneNat ty.toNat (and l) = laneNat ty.toNat (a &&& b)) ∧
        (Extended ty.toNat (or l) ∧ laneNat ty.toNat (or l) = laneNat ty.toNat (a ||| b)) ∧
        (Extended ty.toNat (xor l) ∧ laneNat ty.toNat (xor l) = laneNat ty.toNat (a ^^^ b)) ∧
        (Extended ty.toNat (shl l) ∧
          laneNat ty.toNat (shl l) = laneNat ty.toNat a * 2 ^ (b.toNat % 32) % 2 ^ typeBits ty.toNat) ∧
        (Extended ty.toNat (shr l) ∧ laneInt ty.toNat (shr l) = laneInt ty.toNat a / 2 ^ (b.toNat % 32)) ∧
        (Extended ty.toNat (min' l) ∧ laneInt ty.toNat (min' l) = min (laneInt ty.toNat a) (laneInt ty.toNat b)) ∧
        (Extended ty.toNat (max' l) ∧ laneInt ty.toNat (max' l) = max (laneInt ty.toNat a) (laneInt ty.toNat b))

/-- R64: VSEL takes a lane of v[a] where bit i of its predicate is 1; VBCST gives every active lane s[a]; VPERM takes
the lane of v[a] that v[b] names; VEXT gives a lane to s[d]; VRADD sums the active lanes into s[d]. -/
def Obligations.VectorSelectionsAndSums : Prop :=
  ∀ (s : State) (k : Nat) (t : Task) (f : F) (ty : BitVec 3), Ready s k t → ty.toNat < 5 →
    (∀ c : BitVec 3, f.imm = c.setWidth 32 → ∃ v : Nat → W32, WritesVector s t (.vsel k ty f) f f.d.toNat v ∧
      ∀ l, Wrapped ty.toNat (laneInt ty.toNat
        (if (preg t c.toNat).getLsbD l then lane t f.a.toNat l else lane t f.b.toNat l)) (v l)) ∧
    (f.imm = 0 → f.b = 0 → ∃ v : W32, WritesVector s t (.vbcst k ty f) f f.d.toNat (fun _ => v) ∧
      Wrapped ty.toNat (laneInt ty.toNat (sreg t f.a)) v) ∧
    (f.imm = 0 →
      (∃ v : Nat → W32, WritesVector s t (.vperm k ty f) f f.d.toNat v ∧
        ∀ l, Wrapped ty.toNat (laneInt ty.toNat (lane t f.a.toNat ((lane t f.b.toNat l).toNat % 16))) (v l)) ∧
      (∃ v : W32, WritesScalar s t (.vext k ty f) f.d v ∧
        Wrapped ty.toNat (laneInt ty.toNat (lane t f.a.toNat ((sreg t f.b).toNat % 16))) v) ∧
      ∃ v : W32, WritesScalar s t (.vradd k ty f) f.d v ∧
        Wrapped ty.toNat (((List.range 16).map (fun l =>
          if (maskOf t f).getLsbD l then laneInt ty.toNat (lane t f.a.toNat l) else 0)).sum) v)

/-- R64, R65: a compare sets the bits of its active lanes in p[d] and leaves those of the inactive lanes; integers compare
by the type's sign, and a float compare with a NaN is false. -/
def Obligations.VectorCompares : Prop :=
  ∀ (s : State) (k : Nat) (t : Task) (f : F), Ready s k t → f.imm = 0 → f.d.toNat < 8 →
    (∀ ty : BitVec 3, ty.toNat < 5 → ∃ eq lt le : W16,
      WritesPredicate s t (.vcmpeq k ty f) f.d.toNat eq ∧ WritesPredicate s t (.vcmplt k ty f) f.d.toNat lt ∧
      WritesPredicate s t (.vcmple k ty f) f.d.toNat le ∧
      ∀ l, l < 16 → let a := laneInt ty.toNat (lane t f.a.toNat l); let b := laneInt ty.toNat (lane t f.b.toNat l)
        let on := (maskOf t f).getLsbD l
        eq.getLsbD l = (if on then decide (a = b) else (preg t f.d.toNat).getLsbD l) ∧
        lt.getLsbD l = (if on then decide (a < b) else (preg t f.d.toNat).getLsbD l) ∧
        le.getLsbD l = (if on then decide (a ≤ b) else (preg t f.d.toNat).getLsbD l)) ∧
    (∀ half : Bool, ∃ eq lt le : W16,
      WritesPredicate s t (.vfcmpeq k half f) f.d.toNat eq ∧ WritesPredicate s t (.vfcmplt k half f) f.d.toNat lt ∧
      WritesPredicate s t (.vfcmple k half f) f.d.toNat le ∧
      ∀ l, l < 16 → let a := fl half (lane t f.a.toNat l); let b := fl half (lane t f.b.toNat l)
        if (maskOf t f).getLsbD l then
          eq.getLsbD l = feq (fmtOf half) a b ∧ lt.getLsbD l = flt (fmtOf half) a b ∧
          le.getLsbD l = (eq.getLsbD l || lt.getLsbD l) ∧
          (fisNan (fmtOf half) a = true ∨ fisNan (fmtOf half) b = true → le.getLsbD l = false)
        else
          eq.getLsbD l = (preg t f.d.toNat).getLsbD l ∧ lt.getLsbD l = (preg t f.d.toNat).getLsbD l ∧
          le.getLsbD l = (preg t f.d.toNat).getLsbD l)

/-- R65, R51: the float operations act on the low bits of each active lane at the precision; every NaN result is the
canonical NaN, and the tree sum adds the active lanes in the pairwise tree with +0.0 for the others. -/
def Obligations.VectorFloatArithmetic : Prop :=
  ∀ (s : State) (k : Nat) (t : Task) (f : F) (half : Bool), Ready s k t →
    let fm := fmtOf half; let nan := BitVec.ofNat 32 fm.nan
    (f.imm = 0 → ∃ add sub mul div : Nat → W32,
      WritesVector s t (.vfadd k half f) f f.d.toNat add ∧ WritesVector s t (.vfsub k half f) f f.d.toNat sub ∧
      WritesVector s t (.vfmul k half f) f f.d.toNat mul ∧ WritesVector s t (.vfdiv k half f) f f.d.toNat div ∧
      ∀ l, let a := fl half (lane t f.a.toNat l); let b := fl half (lane t f.b.toNat l)
        add l = BitVec.ofNat 32 (fadd fm a b) ∧ sub l = BitVec.ofNat 32 (fsub fm a b) ∧
        mul l = BitVec.ofNat 32 (fmul fm a b) ∧ div l = BitVec.ofNat 32 (fdiv fm a b) ∧
        (fisNan fm a = true ∨ fisNan fm b = true → add l = nan ∧ sub l = nan ∧ mul l = nan ∧ div l = nan)) ∧
    (∀ c : BitVec 5, f.imm = c.setWidth 32 → ∃ fma : Nat → W32, WritesVector s t (.vfma k half f) f f.d.toNat fma ∧
      ∀ l, let a := fl half (lane t f.a.toNat l); let b := fl half (lane t f.b.toNat l)
        let d := fl half (lane t c.toNat l)
        fma l = BitVec.ofNat 32 (ffma fm a b d) ∧
        (fisNan fm a = true ∨ fisNan fm b = true ∨ fisNan fm d = true → fma l = nan)) ∧
    (f.imm = 0 → f.b = 0 → ∃ sqrt : Nat → W32, WritesVector s t (.vfsqrt k half f) f f.d.toNat sqrt ∧
      ∀ l, let a := fl half (lane t f.a.toNat l)
        sqrt l = BitVec.ofNat 32 (fsqrt fm a) ∧ (fisNan fm a = true → sqrt l = nan)) ∧
    (f.imm = 0 → WritesScalar s t (.vfradd k half f) f.d (BitVec.ofNat 32
      (pairTree fm (fun l => if (maskOf t f).getLsbD l then fl half (lane t f.a.toNat l) else 0) 4 0)))

/-- R65: VFMIN, VFMAX, VFTOI, VITOF, VFTOPX, VPXTOF, VFABS and VFNEG complete, at both precisions, in every state in which
they issue, and write their active lanes. VFMIN and VFMAX give the smaller and the greater operand with −0.0 below +0.0, the
other one where one is NaN, and the canonical NaN for two; VFABS and VFNEG change only the sign bit, also of a NaN; VFTOI
gives 0 for NaN and saturates to the s32 range; the px16 conversions give 0 for NaN (R25). -/
def Obligations.VectorFloatChoicesAndConversions : Prop :=
  ∀ (s : State) (k : Nat) (t : Task) (f : F) (half : Bool), Ready s k t → f.imm = 0 →
    let fm := fmtOf half; let top : W32 := if half then 0x8000 else 0x80000000; let all : W32 := if half then 0xFFFF else 0xFFFFFFFF
    ∃ min' max' toi itof' topx pxto abs neg : Nat → W32,
      WritesVector s t (.vfmin k half f) f f.d.toNat min' ∧ WritesVector s t (.vfmax k half f) f f.d.toNat max' ∧
      WritesVector s t (.vftoi k half f) f f.d.toNat toi ∧ WritesVector s t (.vitof k half f) f f.d.toNat itof' ∧
      WritesVector s t (.vftopx k half f) f f.d.toNat topx ∧ WritesVector s t (.vpxtof k half f) f f.d.toNat pxto ∧
      WritesVector s t (.vfabs k half f) f f.d.toNat abs ∧ WritesVector s t (.vfneg k half f) f f.d.toNat neg ∧
      ∀ l, let x := lane t f.a.toNat l; let a := fl half x; let b := fl half (lane t f.b.toNat l)
        (fisNan fm a = true → fisNan fm b = true → min' l = BitVec.ofNat 32 fm.nan ∧ max' l = BitVec.ofNat 32 fm.nan) ∧
        (fisNan fm a = true → fisNan fm b = false → min' l = BitVec.ofNat 32 b ∧ max' l = BitVec.ofNat 32 b) ∧
        (fisNan fm a = false → fisNan fm b = true → min' l = BitVec.ofNat 32 a ∧ max' l = BitVec.ofNat 32 a) ∧
        (fisNan fm a = false → fisNan fm b = false →
          (min' l = BitVec.ofNat 32 a ∨ min' l = BitVec.ofNat 32 b) ∧ (max' l = BitVec.ofNat 32 a ∨ max' l = BitVec.ofNat 32 b)) ∧
        (flt fm a b = true → min' l = BitVec.ofNat 32 a ∧ max' l = BitVec.ofNat 32 b) ∧
        (flt fm b a = true → min' l = BitVec.ofNat 32 b ∧ max' l = BitVec.ofNat 32 a) ∧
        (a = top.toNat → b = 0 → min' l = top ∧ max' l = 0) ∧ (a = 0 → b = top.toNat → min' l = top ∧ max' l = 0) ∧
        (toi l = ftoi fm a ∧ (fisNan fm a = true → toi l = 0) ∧
          (fisNan fm a = false → (if half then a / 2 ^ 10 % 32 = 31 else 158 ≤ a / 2 ^ 23 % 256) →
            toi l = if top.toNat ≤ a then 0x80000000 else 0x7FFFFFFF)) ∧
        itof' l = BitVec.ofNat 32 (itof fm x) ∧
        (topx l = BitVec.ofNat 32 (ftopx fm a) ∧ (topx l).toNat ≤ 65535 ∧ (fisNan fm a = true → topx l = 0)) ∧
        pxto l = BitVec.ofNat 32 (pxtof fm (x.toNat % 65536)) ∧
        abs l = x &&& all &&& ~~~top ∧ neg l = (x &&& all) ^^^ top

/-- R67, R68, R69: VMIX blends the top group over the bottom group at the opacity in c, VMAT3 applies the matrix and
passes alpha, VDITH quantises; at full opacity VMIX.normal gives the top pixel and at none the bottom pixel, and VDITH.16
gives every channel unchanged. -/
def Obligations.PixelBlendMatrixAndDither : Prop :=
  ∀ (s : State) (k : Nat) (t : Task) (f : F), Ready s k t → f.d.toNat % 4 = 0 → f.a.toNat % 4 = 0 →
    (∀ (c : BitVec 5) (mode : BitVec 3), f.imm = c.setWidth 32 → f.b.toNat % 4 = 0 →
      ∃ val : Nat → Nat → Nat, WritesGroup s t (.vmix k mode f) f f.d.toNat val ∧
      ∀ l, let bot := fun ch => (lane t (f.a.toNat + ch) l).toNat % 65536
        let top := fun ch => (lane t (f.b.toNat + ch) l).toNat % 65536
        let o := pxMul (top 3) ((sreg t c).toNat % 65536)
        val 3 l = pxAdd o (pxMul (bot 3) (65535 - o)) ∧
        (∀ ch < 3, ∃ m, val ch l = pxAdd (pxMul (bot ch) (65535 - o)) (pxMul m o) ∧
          (mode = 0 → m = top ch) ∧ (mode = 1 → m = pxAdd (bot ch) (top ch)) ∧ (mode = 2 → m = pxMul (bot ch) (top ch)) ∧
          (mode = 3 → m = 65535 - pxMul (65535 - bot ch) (65535 - top ch)) ∧
          (mode = 4 → (m : Int) = |(bot ch : Int) - top ch|) ∧ (mode = 5 → m = max (bot ch) (top ch)) ∧
          (mode = 6 → m = min (bot ch) (top ch)) ∧ (mode = 7 → m = pxSub (bot ch) (top ch))) ∧
        (∀ ch < 4, (mode = 0 → o = 65535 → val ch l = top ch) ∧ (mode = 0 → o = 0 → val ch l = bot ch))) ∧
    (f.imm = 0 → ∃ val : Nat → Nat → Nat, WritesGroup s t (.vmat3 k f) f f.d.toNat val ∧
      ∀ l, let x := fun ch => pxtof fp32 ((lane t (f.a.toNat + ch) l).toNat % 65536)
        let m := fun j => (lane t f.b.toNat j).toNat
        val 3 l = (lane t (f.a.toNat + 3) l).toNat % 65536 ∧
        ∀ ch < 3, val ch l = ftopx fp32 (ffma fp32 (m (3 * ch + 2)) (x 2) (ffma fp32 (m (3 * ch + 1)) (x 1)
          (fmul fp32 (m (3 * ch)) (x 0))))) ∧
    (f.imm = 0 → ∀ n : BitVec 4, n.toNat ≤ 8 → ∃ val : Nat → Nat → Nat,
      WritesGroup s t (.vdith k n f) f f.d.toNat val ∧
      ∀ ch l, let c := (lane t (f.a.toNat + ch) l).toNat % 65536
        val ch l = (c * (2 ^ (8 + n.toNat) - 1) + min ((lane t f.b.toNat l).toNat % 65536) 65534) / 65535 ∧
        (n = 8 → val ch l = c))

/-- R70, R25, R59: unpacking and packing between the layouts of Table 3-7 and planar groups. -/
def Obligations.PixelFormats : Prop :=
  ∀ (s : State) (k : Nat) (t : Task) (f : F), Ready s k t → f.imm = 0 → f.b = 0 →
    (f.d.toNat % 4 = 0 →
      (f.a.toNat % 2 = 0 → ∃ p16 f16 : Nat → Nat → Nat,
        WritesGroup s t (.vunpkP16 k f) f f.d.toNat p16 ∧ WritesGroup s t (.vunpkF16 k f) f f.d.toNat f16 ∧
        ∀ ch < 4, ∀ l < 16, let w := (lane t (f.a.toNat + l / 8) (2 * (l % 8) + ch / 2)).toNat
          let c := if ch % 2 = 0 then w % 65536 else w / 65536
          p16 ch l = c ∧ f16 ch l = ftopx fp16 c) ∧
      ∃ u8 : Nat → Nat → Nat, WritesGroup s t (.vunpkU8 k f) f f.d.toNat u8 ∧
        ∀ ch < 4, ∀ l, u8 ch l = (lane t f.a.toNat l).toNat / 256 ^ ch % 256 * 257) ∧
    (f.a.toNat % 4 = 0 →
      (f.d.toNat % 2 = 0 → ∃ p16 f16 : Nat → Nat → Nat,
        WritesPair s t (.vpackP16 k f) f f.d.toNat p16 ∧ WritesPair s t (.vpackF16 k f) f f.d.toNat f16 ∧
        ∀ ch l, p16 ch l = (lane t (f.a.toNat + ch) l).toNat % 65536 ∧ f16 ch l = pxtof fp16 (p16 ch l)) ∧
      ∃ u8 : Nat → W32, WritesVector s t (.vpackU8 k f) f f.d.toNat u8 ∧
        ∀ l, ∀ ch < 4, (u8 l).toNat / 256 ^ ch % 256 =
          ((lane t (f.a.toNat + ch) l).toNat % 65536 * 255 + 32767) / 65535)

/-- R73, R24, R27, R28, R39, Table 2-5: LD, VLD and VLDB read the element at the effective address of their space, or at
the address plus the lane times the element size; a read of the layer space is recorded in the read set. A read of frame
memory ends its self-refresh (R338). -/
def Obligations.LoadsFromFourSpaces : Prop :=
  ∀ (s : State) (k : Nat) (t : Task) (f : F) (sp : BitVec 2) (ty : BitVec 3), Ready s k t → (sp = 2 ∨ f.b = 0) →
    ¬ (sp = 3 ∧ undoable t = true) → ¬ (sp = 2 ∧ setFull t ⟨7, 0, layerIdx s t (sreg t f.a)⟩ = true) →
    ∀ (o : Int) (rs : List ReadEnt) (w : State) (element : Int → W32), o = spaceAddr t f sp →
      rs = (if sp = 2 then readSetAfter s t ⟨7, 0, layerIdx s t (sreg t f.a)⟩ else t.readSet) →
      w = (if sp = 0 then s else { s with pwr := if mode s = 4 then { s.pwr with selfRef := false, memAt := s.ot } else s.pwr }) →
      (∀ x, element x = extend ty.toNat (leNumber (spaceByte s t f sp) x.toNat (typeBytes ty.toNat))) →
      (Enabled t f → LoadOk s t f sp ty.toNat o → WritesScalarIn s w t (.ld k sp ty f) f.d (element o) rs) ∧
      (maskOf t f ≠ 0 → LoadOk s t f sp ty.toNat o →
        WritesVectorIn s w t (.vldb k sp ty f) f f.d.toNat (fun _ => element o) rs) ∧
      (maskOf t f ≠ 0 →
        (∀ l < 16, (maskOf t f).getLsbD l = true → LoadOk s t f sp ty.toNat (o + (l * typeBytes ty.toNat : Nat))) →
        WritesVectorIn s w t (.vld k sp ty f) f f.d.toNat (fun l => element (o + (l * typeBytes ty.toNat : Nat))) rs) ∧
      (maskOf t f = 0 → ∀ i ∈ [Instr.vld k sp ty f, .vldb k sp ty f], GoesOn s t i (t.pc + 8) t)

/-- R73, R27, R48, R52: ST and VST store the low bits of s[b] or of the active lanes of v[b] at the effective address,
into the scratch area, the staged output tile of an open epoch, or a FIRM task's stores to frame memory. -/
def Obligations.StoresToThreeSpaces : Prop :=
  ∀ (s : State) (k : Nat) (t : Task) (f : F) (sp : BitVec 2) (ty : BitVec 3), Ready s k t → sp ≠ 2 → f.d = 0 →
    ¬ (sp = 1 ∧ tileFrozen s t = true) → ¬ (sp = 3 ∧ undoable t = true) →
    ∀ (o : Int), o = (if sp = 3 then ((sreg t f.a).toNat : Int) * 256 else (sreg t f.a).toNat) + f.imm.toInt →
      (Enabled t f → ElementOk s t f sp ty.toNat o →
        StoresTo s t (.st k sp ty f) f sp [(o.toNat, leBytes (typeBytes ty.toNat) (sreg t f.b).toNat)]) ∧
      ((∀ l < 16, (maskOf t f).getLsbD l = true → ElementOk s t f sp ty.toNat (o + (l * typeBytes ty.toNat : Nat))) →
        StoresTo s t (.vst k sp ty f) f sp (((List.range 16).filter (fun l => (maskOf t f).getLsbD l)).map (fun l =>
          ((o + (l * typeBytes ty.toNat : Nat)).toNat, leBytes (typeBytes ty.toNat) (lane t f.b.toNat l).toNat))))

/-- R41, R45, Table 2-14: a store to a frozen output tile is discarded, FROZEN_STORE counts one more, and the task goes
on. -/
def Obligations.FrozenStoreIsDiscarded : Prop :=
  ∀ (s : State) (k : Nat) (t : Task) (f : F) (ty : BitVec 3), Ready s k t → f.d = 0 → Enabled t f →
    tileFrozen s t = true → ElementOk s t f 1 ty.toNat (spaceAddr t f 1) →
    ∃ s' t', exec (.st k 1 ty f) s = .next s' ∧
      counter s' Cnt.frozenStore.ctorIdx = counter s Cnt.frozenStore.ctorIdx + 1 ∧
      (∀ n, n ≠ Cnt.frozenStore.ctorIdx → counter s' n = counter s n) ∧ s'.fmem = s.fmem ∧ s'.regs = s.regs ∧
      taskAt s' t.slot = some t' ∧
      t' = { t with pc := t.pc + 8, steps := t.steps + 1, cycles := t'.cycles, front := t'.front, was := none }

/-- R56, R55, R40: a misaligned element raises ALIGN, one outside its space MEM_FAULT, a byte that is poisoned or fails ECC
DATA_ERROR, each with its information; a load of frame memory in a task that can still be undone raises MEM_FAULT. R75:
VSAMP of a layer that the task may not read raises INPUT_FAULT. That a load from such a layer raises MEM_FAULT, as one
outside its space, is the model's reading (DEDUCED, log 106). -/
def Obligations.LoadAndStoreFaults : Prop :=
  ∀ (s : State) (k : Nat) (t : Task) (f : F) (sp : BitVec 2) (ty : BitVec 3), Ready s k t → Enabled t f → TasksFit s →
    ((sp = 2 ∨ f.b = 0) →
      (spaceAddr t f sp % (typeBytes ty.toNat : Int) ≠ 0 →
        Terminates s t (.ld k sp ty f) 1 3 (BitVec.ofInt 32 (spaceAddr t f sp))) ∧
      (spaceAddr t f sp % (typeBytes ty.toNat : Int) = 0 →
        spInside sp f (typeBytes ty.toNat) s t (spaceAddr t f sp) = false ∨ (sp = 3 ∧ undoable t = true) →
        Terminates s t (.ld k sp ty f) 1 4 (BitVec.ofInt 32 (spaceAddr t f sp))) ∧
      (ElementOk s t f sp ty.toNat (spaceAddr t f sp) → ¬ (sp = 3 ∧ undoable t = true) →
        ∀ a, badByte sp f s t (typeBytes ty.toNat) (spaceAddr t f sp) = some a →
        Terminates s t (.ld k sp ty f) 1 5 (BitVec.ofNat 32 a))) ∧
    (∀ (nearest : Bool) (edge : BitVec 2), edge ≠ 3 → f.imm = 0 → f.d.toNat % 4 = 0 → f.b.toNat % 2 = 0 → maskOf t f ≠ 0 →
      layerFor s t (sreg t f.a) = none → Terminates s t (.vsamp k nearest edge f) 1 6 (layerInfo (sreg t f.a))) ∧
    (sp ≠ 2 → f.d = 0 →
      (spaceAddr t f sp % (typeBytes ty.toNat : Int) ≠ 0 →
        Terminates s t (.st k sp ty f) 1 3 (BitVec.ofInt 32 (spaceAddr t f sp))) ∧
      (spaceAddr t f sp % (typeBytes ty.toNat : Int) = 0 →
        spInside sp f (typeBytes ty.toNat) s t (spaceAddr t f sp) = false →
        Terminates s t (.st k sp ty f) 1 4 (BitVec.ofInt 32 (spaceAddr t f sp))))

/-- R71, R72: VLUT takes and VLUTI interpolates entries of a table in the scratch area; VGATH and VGATHL gather elements
of the scratch area and of a layer; VSCAT scatters to the scratch area, the higher lane standing. -/
def Obligations.TablesGatherAndScatter : Prop :=
  ∀ (s : State) (k : Nat) (t : Task) (f : F) (ty : BitVec 3), Ready s k t → f.imm = 0 →
    (∀ entry : Nat → Nat, (∀ j, entry j = leNumber (scratchGet t) ((sreg t f.b).toNat + 2 * j) 2) →
      ty.toNat ≤ 4 → (sreg t f.b).toNat % 2 = 0 →
      ((sreg t f.b).toNat + 2 * 2 ^ (8 + ty.toNat) ≤ t.prog.scratch →
        WritesVector s t (.vlut k ty f) f f.d.toNat (fun l =>
          BitVec.ofNat 32 (entry ((lane t f.a.toNat l).toNat % 65536 / 2 ^ (8 - ty.toNat))))) ∧
      ((sreg t f.b).toNat + 2 * (2 ^ (8 + ty.toNat) + 1) ≤ t.prog.scratch →
        WritesVector s t (.vluti k ty f) f f.d.toNat (fun l =>
          let kk := 8 - ty.toNat
          let x := (lane t f.a.toNat l).toNat % 65536
          BitVec.ofNat 32 ((entry (x / 2 ^ kk) * (2 ^ kk - x % 2 ^ kk) + entry (x / 2 ^ kk + 1) * (x % 2 ^ kk) +
            2 ^ (kk - 1)) / 2 ^ kk)))) ∧
    (∀ (n : Nat) (at_ : Nat → Nat), n = typeBytes ty.toNat →
      (∀ l, at_ l = (sreg t f.a).toNat + (lane t f.b.toNat l).toNat) →
      (∀ l < 16, (maskOf t f).getLsbD l = true → at_ l % n = 0 ∧ at_ l + n ≤ t.prog.scratch) →
      WritesVector s t (.vgath k ty f) f f.d.toNat (fun l => extend ty.toNat (leNumber (scratchGet t) (at_ l) n)) ∧
      StoresTo s t (.vscat k ty f) f 0 (((List.range 16).filter (fun l => (maskOf t f).getLsbD l)).map (fun l =>
        (at_ l, leBytes n (lane t f.d.toNat l).toNat)))) ∧
    (∀ (n h : Nat) (l : Layer), n = typeBytes ty.toNat → maskOf t f ≠ 0 →
      layerFor s t (sreg t f.a) = some (h, l) → setFull t ⟨7, 0, h⟩ = false →
      (∀ i < 16, (maskOf t f).getLsbD i = true →
        (lane t f.b.toNat i).toNat % n = 0 ∧ (lane t f.b.toNat i).toNat + n ≤ layerLen l ∧
        badByte 2 f s t n (lane t f.b.toNat i).toNat = none) →
      WritesVectorIn s (wakeMem s) t (.vgathl k ty f) f f.d.toNat
        (fun i => extend ty.toNat (leNumber (layerByte s t h) (lane t f.b.toNat i).toNat n)) (readSetAfter s t ⟨7, 0, h⟩))

/-- R74, R75, R76: VSAMP samples a layer at 16.16 coordinates, bilinear at pixel centres or nearest, under the edge mode,
and records the layer. -/
def Obligations.LayerSampling : Prop :=
  ∀ (s : State) (k : Nat) (t : Task) (f : F) (nearest : Bool) (edge : BitVec 2) (h : Nat) (l : Layer), Ready s k t →
    edge ≠ 3 → f.imm = 0 → f.d.toNat % 4 = 0 → f.b.toNat % 2 = 0 → maskOf t f ≠ 0 →
    layerFor s t (sreg t f.a) = some (h, l) → setFull t ⟨7, 0, h⟩ = false →
    (∀ o ∈ sampleOffs f t l nearest edge.toNat, badByte 2 f s t (layerPx l.fmt) o = none) →
    ∃ val : Nat → Nat → Nat, WritesGroupIn s (wakeMem s) t (.vsamp k nearest edge f) f f.d.toNat val
        (readSetAfter s t ⟨7, 0, h⟩) ∧
      ∀ ch i, ∃ p : Int → Int → Nat,
        (∀ x y : Nat, x < l.width → y < l.height → l.fmt = 0 → p x y =
          leNumber (layerByte s t h) ((y * l.width + x) * 8 + 2 * ch) 2) ∧
        (∀ x y : Nat, x < l.width → y < l.height → l.fmt = 1 → p x y =
          (layerByte s t h ((y * l.width + x) * 4 + ch)).toNat * 257) ∧
        (∀ x y : Nat, x < l.width → y < l.height → l.fmt = 2 → p x y = ftopx fp16
          (leNumber (layerByte s t h) ((y * l.width + x) * 8 + 2 * ch) 2)) ∧
        (∀ x y : Int, edge = 0 → 0 < l.width → 0 < l.height →
          p x y = p (max 0 (min x (l.width - 1))) (max 0 (min y (l.height - 1)))) ∧
        (∀ x y : Int, edge = 1 → p x y = p (x % l.width) (y % l.height)) ∧
        (∀ x y : Int, edge = 2 → x < 0 ∨ (l.width : Int) ≤ x ∨ y < 0 ∨ (l.height : Int) ≤ y → p x y = 0) ∧
        let x := (lane t f.b.toNat i).toInt; let y := (lane t (f.b.toNat + 1) i).toInt
        (nearest = true → val ch i = p (x / 65536) (y / 65536)) ∧
        (nearest = false →
          let u := x - 32768; let v := y - 32768; let i0 := u / 65536; let j0 := v / 65536
          let fx := (u % 65536 / 256).toNat; let fy := (v % 65536 / 256).toNat
          val ch i = ((p i0 j0 * (256 - fx) + p (i0 + 1) j0 * fx) * (256 - fy) +
            (p i0 (j0 + 1) * (256 - fx) + p (i0 + 1) (j0 + 1) * fx) * fy + 32768) / 65536)

/-- R37, R128: the input instructions return the most recent change, the one of the highest version, whose application
epoch on the canvas is at most the input epoch, with its version; the initial value of its kind, with version 0, where
there is none (R388). -/
def Obligations.InputValueIsMostRecentChange : Prop :=
  ∀ (s : State) (key : InKey) (c : Nat) (e : W32), key.kind ≠ 8 →
    (∀ x ∈ s.vat.inputs, x.key = key → ∀ a, Map.find? x.apps c = some a → 0 ≤ epochDiff (logEpoch s c e) a →
      (∀ y ∈ s.vat.inputs, y.key = key → ∀ b, Map.find? y.apps c = some b → 0 ≤ epochDiff (logEpoch s c e) b →
        y ≠ x → y.version.toNat < x.version.toNat) →
      valueFor s key (some (c, e)) = x.value ∧ versionFor s key (some (c, e)) = x.version) ∧
    ((∀ x ∈ s.vat.inputs, x.key = key → ∀ a, Map.find? x.apps c = some a → epochDiff (logEpoch s c e) a < 0) →
      versionFor s key (some (c, e)) = 0 ∧
      ((key.kind = 1 ∨ key.kind = 3 ∨ key.kind = 4 ∨ key.kind = 6) → valueFor s key (some (c, e)) = 0) ∧
      (key.kind = 5 → valueFor s key (some (c, e)) = 0x0180FFFF) ∧
      (∀ l, key.kind = 7 → layerOf s key.idx = some l →
        valueFor s key (some (c, e)) = BitVec.ofNat 32 (l.width + 65536 * l.height)))

/-- R77, R39, R78, R31: the input instructions write the value or version at their input epoch; the SPEC forms record the
input in a SPEC task, and the FIRM forms never do; an ID that R31 refuses raises INPUT_FAULT with the ID. -/
def Obligations.InputInstructions : Prop :=
  ∀ (s : State) (k : Nat) (t : Task) (f : F), Ready s k t → Enabled t f → f.b = 0 →
    (∀ key, inputKey s t (sreg t f.a + f.imm) = some key →
      (setFull t key = false →
        WritesScalarIn s (noteTimed key t s) t (.specIn k f) f.d (valueFor s key (taskInep t)) (readSetAfter s t key) ∧
        WritesScalarIn s (noteTimed key t s) t (.specVer k f) f.d (versionFor s key (taskInep t)) (readSetAfter s t key)) ∧
      WritesScalarIn s (noteTimed key t s) t (.firmIn k f) f.d (valueFor s key (firmInep t)) t.readSet ∧
      WritesScalarIn s (noteTimed key t s) t (.firmVer k f) f.d (versionFor s key (firmInep t)) t.readSet) ∧
    (TasksFit s → inputKey s t (sreg t f.a + f.imm) = none →
      ∀ i ∈ [Instr.specIn k f, .specVer k f, .firmIn k f, .firmVer k f], Terminates s t i 1 6 (sreg t f.a + f.imm))

/-- R77, R78, R79, R173: ETAB.RD writes a word of an endpoint entry as the task's input epoch sees it and records ETAB 0;
ETAB.WR with service privilege stages a word of an entry, and word 0 publishes the sixteen words, with their reserved bits
zero (R9), where no rule of R175 refuses them. What a task with service privilege reads of an entry number above the table
is open (log 104). An entry outside the view raises INPUT_FAULT, and a write without privilege PRIVILEGE. -/
def Obligations.EndpointTableInstructions : Prop :=
  ∀ (s : State) (k : Nat) (t : Task) (f : F), Ready s k t → Enabled t f → f.b = 0 → f.imm.toNat < 16 →
    (etabReadable s t (sreg t f.a).toNat = true → setFull t ⟨8, t.ctx, 0⟩ = false →
      ∃ v, WritesScalarIn s s t (.etabRd k f) f.d v (readSetAfter s t ⟨8, t.ctx, 0⟩) ∧
        ((sreg t f.a).toNat < 131072 → v = Map.get (fun _ => 0) (taskEtab s t) (16 * (sreg t f.a).toNat + f.imm.toNat))) ∧
    (TasksFit s → etabReadable s t (sreg t f.a).toNat = false → Terminates s t (.etabRd k f) 1 6 0x80000000) ∧
    (TasksFit s → privileged s t = false → Terminates s t (.etabWr k f) 1 2 t.pc) ∧
    (privileged s t = true → undoable t = false → standby s = false → (sreg t f.a).toNat < endpoints s.member →
      ∃ s' t', exec (.etabWr k f) s = .next s' ∧ taskAt s' t.slot = some t' ∧
        t' = { t with pc := t.pc + 8, steps := t.steps + 1, cycles := t'.cycles, front := t'.front, was := none } ∧
        (f.imm ≠ 0 →
          (∀ q, Map.get (fun _ => 0) s'.epg.stage q =
            if q = 16 * (sreg t f.a).toNat + f.imm.toNat then sreg t f.d else Map.get (fun _ => 0) s.epg.stage q) ∧
          ∀ e w, rd s' .etabWord e w = rd s .etabWord e w) ∧
        (f.imm = 0 →
          (entryReason s (stagedEntry s (sreg t f.a).toNat (sreg t f.d)) (sreg t f.a).toNat = 0 ∨
            (sreg t f.d).toNat % 2 = 0) →
          rd s' .etabWord (sreg t f.a).toNat 0 = entryWord 0 (sreg t f.d) ∧
          ∀ w < 16, w ≠ 0 → rd s' .etabWord (sreg t f.a).toNat w =
            entryWord w (Map.get (fun _ => 0) s.epg.stage (16 * (sreg t f.a).toNat + w))))

/-- R81, R249: with service privilege in a FIRM or resumed task, PKT.ALLOC gives the handle of a buffer that no task holds
or 0, PKT.RD reads a word, PKT.WR writes one, PKT.LEN sets the frame length and PKT.FREE releases the buffer; the other
buffers keep what they hold. -/
def Obligations.PacketBuffers : Prop :=
  ∀ (s : State) (k : Nat) (t : Task) (f : F), Ready s k t → Enabled t f → privileged s t = true → undoable t = false →
    (f.imm = 0 → ∃ (h : W32) (s' : State) (t' : Task), exec (.pktAlloc k f) s = .next s' ∧ OnlyTask s s' t t' ∧
      (∀ r, sreg t' r = if r = f.d ∧ r ≠ 0 then h else sreg t r) ∧
      t' = { t with pc := t.pc + 8, steps := t.steps + 1, cycles := t'.cycles, front := t'.front, was := none, sregs := t'.sregs, pkts := t'.pkts } ∧
      (h = 0 → t'.pkts = t.pkts) ∧
      (h ≠ 0 → (∀ u ∈ allTasks s, ∀ b ∈ u.pkts, b.handle ≠ h) ∧ ∃ b, b.handle = h ∧ t'.pkts = t.pkts ++ [b])) ∧
    ∀ (b : PktBuf) (o : Nat), pktOf t (sreg t f.a) = some b → o = (sreg t f.b).toNat →
      (f.imm = 0 → o % 4 = 0 → o < 9632 →
        WritesScalar s t (.pktRd k f) f.d (BitVec.ofNat 32 (leNumber b.byte o 4))) ∧
      (∀ c : BitVec 5, f.imm = c.setWidth 32 → o % 4 = 0 → o < 9632 →
        ∃ P, GoesOn s t (.pktWr k f) (t.pc + 8) { t with pkts := P } ∧
          (∀ h, h ≠ sreg t f.a → pktOf { t with pkts := P } h = pktOf t h) ∧
          ∃ b', pktOf { t with pkts := P } (sreg t f.a) = some b' ∧ b'.len = b.len ∧ b'.fresh = b.fresh ∧
            ∀ x, b'.byte x = if o ≤ x ∧ x < o + 4 then (sreg t c).extractLsb' (8 * (x - o)) 8 else b.byte x) ∧
      (f.imm = 0 → 60 ≤ o → o ≤ 9600 →
        ∃ P, GoesOn s t (.pktLen k f) (t.pc + 8) { t with pkts := P } ∧
          (∀ h, h ≠ sreg t f.a → pktOf { t with pkts := P } h = pktOf t h) ∧
          ∃ b', pktOf { t with pkts := P } (sreg t f.a) = some b' ∧ b'.frameLen = o ∧ b'.byte = b.byte) ∧
      (f.imm = 0 → ∃ P, GoesOn s t (.pktFree k f) (t.pc + 8) { t with pkts := P } ∧
        pktOf { t with pkts := P } (sreg t f.a) = none ∧
        ∀ h, h ≠ sreg t f.a → pktOf { t with pkts := P } h = pktOf t h)

/-- R81, R249, R390: PKT.SEND queues the frame of its buffer on a port of a traffic class with the launch time, tag and
VLAN fields of Table 9-3, and the handle is invalid; a port that sends nothing drops the frame without completion. -/
def Obligations.PacketSend : Prop :=
  ∀ (s : State) (k : Nat) (t : Task) (f : F) (b : PktBuf) (p cls : Nat), Ready s k t → Enabled t f →
    privileged s t = true → undoable t = false → f.imm = 0 → pktOf t (sreg t f.a) = some b →
    p < 32 → cls < 8 → (sreg t f.b).toNat = p + 256 * cls →
    ∃ (s' : State) (t' : Task) (q : QFrame), exec (.pktSend k f) s = .next s' ∧
      OnlyTask { s with prt := s'.prt } s' t t' ∧ s'.prt = { s.prt with ports := s'.prt.ports } ∧
      t' = { t with pc := t.pc + 8, steps := t.steps + 1, cycles := t'.cycles, front := t'.front, was := none, pkts := t'.pkts } ∧
      (∀ h, pktOf t' h = if h = sreg t f.a then none else pktOf t h) ∧
      (∀ x, portOf s' x = if x = p ∧ portSends s p = true ∧ q.bytes.length ≤ 9600 then
        { portOf s p with queue := (portOf s p).queue ++ [q] } else portOf s x) ∧
      q.cls = cls ∧ q.launch.toNat = leNumber b.byte 0 8 ∧ q.tag.toNat = leNumber b.byte 8 2 ∧
      q.tsreq = decide (leNumber b.byte 10 1 % 2 = 1) ∧
      q.bytes = (if leNumber b.byte 13 1 < 128 then (List.range b.frameLen).map (fun x => b.byte (32 + x)) else
        (List.range (min 12 b.frameLen)).map (fun x => b.byte (32 + x)) ++
          [0x81, 0x00, BitVec.ofNat 8 (leNumber b.byte 13 1 / 16 % 8 * 32 + leNumber b.byte 13 1 % 16), b.byte 12] ++
          (List.range (b.frameLen - 12)).map (fun x => b.byte (44 + x)))

/-- R81, R56: without service privilege a packet instruction raises PRIVILEGE; with it, an instruction on a handle that
the task does not hold raises MEM_FAULT, a misaligned offset ALIGN, and an offset or a length out of range MEM_FAULT. -/
def Obligations.PacketFaults : Prop :=
  ∀ (s : State) (k : Nat) (t : Task) (f : F), Ready s k t → Enabled t f → TasksFit s → f.imm = 0 →
    (privileged s t = false → ∀ i ∈ [Instr.pktAlloc k f, .pktRd k f, .pktWr k f, .pktLen k f, .pktFree k f],
      Terminates s t i 1 2 t.pc) ∧
    (privileged s t = true →
      ((sreg t f.b).toNat % 4 ≠ 0 → ∀ i ∈ [Instr.pktRd k f, .pktWr k f], Terminates s t i 1 3 (sreg t f.b)) ∧
      (pktOf t (sreg t f.a) = none →
        (∀ i ∈ [Instr.pktLen k f, .pktFree k f], Terminates s t i 1 4 (sreg t f.a)) ∧
        ((sreg t f.b).toNat % 4 = 0 → ∀ i ∈ [Instr.pktRd k f, .pktWr k f], Terminates s t i 1 4 (sreg t f.a)) ∧
        (sendZero (sreg t f.b) = true → Terminates s t (.pktSend k f) 1 4 (sreg t f.a))) ∧
      (pktOf t (sreg t f.a) ≠ none →
        ((sreg t f.b).toNat % 4 = 0 → 9632 ≤ (sreg t f.b).toNat →
          ∀ i ∈ [Instr.pktRd k f, .pktWr k f], Terminates s t i 1 4 (sreg t f.b)) ∧
        ((sreg t f.b).toNat < 60 ∨ 9600 < (sreg t f.b).toNat → Terminates s t (.pktLen k f) 1 4 (sreg t f.b)))) ∧
    (sendZero (sreg t f.b) = false → Terminates s t (.pktSend k f) 1 1 t.pc)

/-- R82, R108, R96: YIELD makes its task READY with its state saved, DONE completes it with status OK and the program
status of s[a], and POST queues a task-post record with its tag and data. -/
def Obligations.YieldDoneAndPost : Prop :=
  ∀ (s : State) (k : Nat) (t : Task) (f : F), Ready s k t → Enabled t f → f.imm = 0 →
    (∃ s' t', exec (.yield k f) s = .next s' ∧ OnlyTask s s' t t' ∧
      t' = { t with pc := t.pc + 8, steps := t.steps + 1, cycles := t'.cycles, front := t'.front, was := none, st := .ready, saved := true
                    spill := t.lastCore.map (fun c => c / 8), readyAt := s.ot, waited := false
                    affine := t'.affine, depth := t'.depth }) ∧
    (TasksFit s → (∀ n, t.tmpl = some n → ∀ m, m ≠ n → tmplKind s m = 7 → (rd s .tmplSrc m).toNat ≠ n) →
      ∃ s', exec (.done k f) s = .next s' ∧ Ended s s' t (dCpl t.desc) 0 0 0 ∧
        ∀ u ws, taskAt s' t.slot = some u → u.finishing = some ws →
          bitsOf (dw ws 2) 0 16 = (sreg t f.a).toNat % 65536) ∧
    (undoable t = false →
      ∃ s' t', exec (.post k f) s = .next s' ∧ taskAt s' t.slot = some t' ∧
        t' = { t with pc := t.pc + 8, steps := t.steps + 1, cycles := t'.cycles, front := t'.front, was := none } ∧
        s'.sch.posts = s.sch.posts ++ [⟨t.slot, t.ctx, BitVec.ofNat 16 (sreg t f.b).toNat, sreg t f.a⟩] ∧
        s'.fmem = s.fmem ∧ ∀ r i j, r ≠ .ringTail → r ≠ .ringStatus → r ≠ .hostStatus → rd s' r i j = rd s r i j)

/-- R83, R93, R94: SPAWN creates a task of the parent's context from the descriptor in the scratch area in the next free
slot and gives its ordinal; with no free slot the task waits to execute SPAWN again, and counts no step for it (log 110); a descriptor that is misaligned,
outside the scratch area or refused by R94 raises ALIGN, MEM_FAULT or ILLEGAL (that ALIGN goes first: log 111). -/
def Obligations.SpawnCreatesAChild : Prop :=
  ∀ (s : State) (k : Nat) (t : Task) (f : F) (d : List W32), Ready s k t → Enabled t f → f.imm = 0 →
    d = childDesc t (spawnDesc t (sreg t f.a).toNat) →
    (TasksFit s →
      ((sreg t f.a).toNat % 32 ≠ 0 → Terminates s t (.spawn k f) 1 3 (sreg t f.a)) ∧
      ((sreg t f.a).toNat % 32 = 0 →
        (t.prog.scratch < (sreg t f.a).toNat + 32 → Terminates s t (.spawn k f) 1 4 (sreg t f.a)) ∧
        ((sreg t f.a).toNat + 32 ≤ t.prog.scratch → descBad s d t.ctx = true → Terminates s t (.spawn k f) 1 1 t.pc))) ∧
    ((sreg t f.a).toNat % 32 = 0 → (sreg t f.a).toNat + 32 ≤ t.prog.scratch → descBad s d t.ctx = false →
      (undoable t = false ∨ pureChild t d = true) →
      (∀ slot, nextSlot s = some slot → slotQuotaHit s t.ctx = false → slot ≠ t.slot → t.ctx < 128 →
        ∃ s' t' u, exec (.spawn k f) s = .next s' ∧ taskAt s' t.slot = some t' ∧ taskAt s' slot = some u ∧
          (∀ q, q ≠ slot → q ≠ t.slot → taskAt s' q = taskAt s q) ∧
          (∀ r, sreg t' r = if r = f.d ∧ r ≠ 0 then BitVec.ofNat 32 (t.children.length + 1) else sreg t r) ∧
          t' = { t with pc := t.pc + 8, steps := t.steps + 1, cycles := t'.cycles, front := t'.front, was := none, sregs := t'.sregs
                        children := t.children ++ [(t.children.length + 1, slot, u.id)] } ∧
          u.desc = d ∧ u.ctx = t.ctx ∧ u.parent = some t.id ∧ u.epoch = childEpoch t d ∧ u.firm = dFirm d ∧ u.pc = 0 ∧
          u.prog = progSnap s (dProg d)) ∧
      (nextSlot s = none ∨ slotQuotaHit s t.ctx = true →
        ∃ s' t', exec (.spawn k f) s = .next s' ∧ OnlyTask s s' t t' ∧
          t' = { t with cycles := t'.cycles, front := t'.front, was := none, st := .waiting, saved := true
                        spill := t.lastCore.map (fun c => c / 8) }))

/-- R84, R105, R106, Table 4-6: CANCEL of a task that is running or parked completes it with status CANCELLED_RUN and of
one that waits with CANCELLED; a handle that names no live task has no effect. -/
def Obligations.CancelEndsTheNamedTask : Prop :=
  ∀ (s : State) (k : Nat) (t : Task) (f : F), Ready s k t → Enabled t f → f.imm = 0 → undoable t = false →
    (cancelTarget s t (sreg t f.a) = none ∨
      (∃ u, cancelTarget s t (sreg t f.a) = some u ∧ u.slot ≠ t.slot ∧ u.finishing ≠ none) →
      GoesOn s t (.cancel k f) (t.pc + 8) t) ∧
    (TasksFit s → ∀ u status, cancelTarget s t (sreg t f.a) = some u → u.finishing = none →
      status = (if u.st = .waiting ∨ u.st = .ready then 5 else 4) →
      ∃ s', exec (.cancel k f) s = .next s' ∧ Ended s s' u true status 0 0 ∧
        (u.slot ≠ t.slot → ∃ t', taskAt s' t.slot = some t' ∧
          t' = { t with pc := t.pc + 8, steps := t.steps + 1, cycles := t'.cycles, front := t'.front, was := none }))

/-- R40, R41, R56: a side effect of a task that can still be undone is not executed: the task is parked with
SPEC_SIDE_EFFECT at the instruction, which it executes again when it resumes. -/
def Obligations.SideEffectsPark : Prop :=
  ∀ (s : State) (k : Nat) (t : Task) (f : F), Ready s k t → Enabled t f → undoable t = true →
    ∀ i : Instr,
      (i ∈ [Instr.post k f, .cancel k f] ∧ f.imm = 0) ∨
      (i = .cntAdd k f ∧ f.b = 0 ∧ f.p = 0 ∧ f.imm.toNat < 8) ∨
      (privileged s t = true ∧ f.imm = 0 ∧ i = .pktAlloc k f) ∨
      (privileged s t = true ∧ f.imm = 0 ∧ pktOf t (sreg t f.a) ≠ none ∧
        ((i = .pktSend k f ∧ sendZero (sreg t f.b) = true) ∨ i = .pktFree k f ∨
          (i = .pktLen k f ∧ 60 ≤ (sreg t f.b).toNat ∧ (sreg t f.b).toNat ≤ 9600) ∨
          (i ∈ [Instr.pktRd k f, .pktWr k f] ∧ (sreg t f.b).toNat % 4 = 0 ∧ (sreg t f.b).toNat < 9632))) ∨
      (privileged s t = true ∧ i = .etabWr k f ∧ f.b = 0 ∧ f.imm.toNat < 16) ∨
      (i = .spawn k f ∧ f.imm = 0 ∧ (sreg t f.a).toNat % 32 = 0 ∧ (sreg t f.a).toNat + 32 ≤ t.prog.scratch ∧
        ∀ d, d = childDesc t (spawnDesc t (sreg t f.a).toNat) → descBad s d t.ctx = false ∧ pureChild t d = false) ∨
      (∃ ty : BitVec 3, i = .st k 3 ty f ∧ f.d = 0 ∧ ElementOk s t f 3 ty.toNat (spaceAddr t f 3)) →
      ParksAt s t i

/-- R86, R87, Table 3-14: a direct branch goes to its own address plus imm × 8 where its condition holds and else to the
next instruction; CALL and CALLR write s31 where they are taken; JR and CALLR go to s[a] and raise ALIGN where it is no
multiple of 8. -/
def Obligations.Branches : Prop :=
  ∀ (s : State) (k : Nat) (t : Task) (f : F), Ready s k t →
    (f.d = 0 →
      (∀ i c, (i, c) ∈ [(Instr.beq k f, sreg t f.a = sreg t f.b), (.bne k f, sreg t f.a ≠ sreg t f.b),
          (.blt k f, (sreg t f.a).toInt < (sreg t f.b).toInt), (.bge k f, (sreg t f.b).toInt ≤ (sreg t f.a).toInt),
          (.bltu k f, (sreg t f.a).toNat < (sreg t f.b).toNat), (.bgeu k f, (sreg t f.b).toNat ≤ (sreg t f.a).toNat)] →
        BranchesOn s t i f.imm (c ∧ (f.p = 0 ∨ maskOf t f ≠ 0))) ∧
      (f.a = 0 → f.b = 0 →
        ∀ i c, (i, c) ∈ [(Instr.bra k f, f.p = 0 ∨ maskOf t f ≠ 0), (.bany k f, maskOf t f ≠ 0),
            (.ball k f, maskOf t f = 0xFFFF), (.bnone k f, maskOf t f = 0)] → BranchesOn s t i f.imm c) ∧
      (f.b = 0 → f.imm = 0 →
        (¬ Enabled t f → GoesOn s t (.jr k f) (t.pc + 8) t) ∧
        (Enabled t f → (sreg t f.a).toNat % 8 = 0 → GoesOn s t (.jr k f) (sreg t f.a) t) ∧
        (Enabled t f → TasksFit s → (sreg t f.a).toNat % 8 ≠ 0 → Terminates s t (.jr k f) 1 3 (sreg t f.a)))) ∧
    (f.d = 31 → f.b = 0 →
      (f.a = 0 → (Enabled t f → GoesOn s t (.call k f) (t.pc + 8 * f.imm) (setS 31 (t.pc + 8) t)) ∧
        (¬ Enabled t f → GoesOn s t (.call k f) (t.pc + 8) t)) ∧
      (f.imm = 0 →
        (¬ Enabled t f → GoesOn s t (.callr k f) (t.pc + 8) t) ∧
        (Enabled t f → (sreg t f.a).toNat % 8 = 0 → GoesOn s t (.callr k f) (sreg t f.a) (setS 31 (t.pc + 8) t)) ∧
        (Enabled t f → TasksFit s → (sreg t f.a).toNat % 8 ≠ 0 → Terminates s t (.callr k f) 1 3 (sreg t f.a))))

/-- R88, R23, R48, R89, R366, Tables 2-3 and 3-15: NOP does nothing; CRR and VCRR give the control registers; FENCE makes
the task's earlier frame-memory stores visible; the task keeps the values that are fixed for its run (R23); CNT.ADD adds to a software counter of the context. A control register
that Table 2-3 does not list raises ILLEGAL. -/
def Obligations.SystemInstructions : Prop :=
  ∀ (s : State) (k : Nat) (t : Task) (f : F), Ready s k t → f.b = 0 → f.p = 0 →
    (f.d = 0 → f.a = 0 → f.imm = 0 → GoesOn s t (.nop k f) (t.pc + 8) t) ∧
    (∀ v : W32,
      (f.imm, v) ∈ [(0, t.epoch.getD 0xFFFFFFFF), (1, t.inep), (3, BitVec.ofNat 32 t.ctx), (5, t.desc.getD 3 0),
        (8, BitVec.ofNat 32 ((Config.scratchBase t.desc).toNat * 256)), (9, BitVec.ofNat 32 t.prog.scratch), (0x0E, BitVec.ofNat 32 t.readSet.length),
        (0x0F, BitVec.ofNat 32 t.excode), (0x10, t.exinfo), (0x11, if t.priv then BitVec.ofNat 32 t.core else 0),
        (0x14, t.desc.getD 4 0), (0x15, t.desc.getD 5 0), (0x16, t.desc.getD 6 0), (0x17, t.desc.getD 7 0),
        (4, BitVec.ofNat 32 ((if t.firm then 1 else 0) + (if t.priv then 2 else 0) + (if t.demoted then 4 else 0) +
          (if t.resumed then 8 else 0)))] ∨
      (f.imm = 2 ∧ t.canvas = none ∧ v = 0xFF) ∨
      (∃ c, t.canvas = some c ∧
        (f.imm, v) ∈ [(2, BitVec.ofNat 32 c), (6, t.torg), (7, t.tsize), (0x0D, BitVec.ofNat 32 t.period)]) ∨
      (∃ c e, t.canvas = some c ∧ t.epoch = some e ∧
        (f.imm, v) ∈ [(0x0B, t.latch.setWidth 32), (0x0C, t.latch.extractLsb' 32 32)]) →
      WritesScalarIn s (crTimed f.imm.toNat t s) t (.crr k f) f.d v t.readSet ∧
      ∃ s' t', exec (.vcrr k f) s = .next s' ∧ OnlyTask (crTimed f.imm.toNat t s) s' t t' ∧
        (∀ q l, l < 16 → lane t' q l = if q = f.d.toNat then v else lane t q l) ∧
        t' = { t with pc := t.pc + 8, steps := t.steps + 1, cycles := t'.cycles, front := t'.front, was := none, vregs := t'.vregs }) ∧
    (f.imm = 0x0A → WritesScalar s t (.crr k f) f.d 16 ∧
      WritesVector s t (.vcrr k f) f f.d.toNat (fun l => BitVec.ofNat 32 l)) ∧
    (TasksFit s → (f.imm.toNat = 0x12 ∨ f.imm.toNat = 0x13 ∨ 0x18 ≤ f.imm.toNat) →
      ∀ i ∈ [Instr.crr k f, .vcrr k f], Terminates s t i 1 1 t.pc) ∧
    (∃ s' t', exec (.fence k f) s = .next s' ∧ OnlyTask { s with fmem := s'.fmem, fbad := s'.fbad, pwr := s'.pwr } s' t t' ∧
      t' = { t with pc := t.pc + 8, steps := t.steps + 1, cycles := t'.cycles, front := t'.front, was := none, stores := [] } ∧
      ∀ a, memGet s'.fmem a = ((t.stores.filter (fun x => x.1 = a)).getLast?.map (fun x => x.2)).getD (memGet s.fmem a)) ∧
    (undoable t = false → f.imm.toNat < 8 →
      ∃ s' t', exec (.cntAdd k f) s = .next s' ∧ OnlyTask { s with swcnt := s'.swcnt } s' t t' ∧
        t' = { t with pc := t.pc + 8, steps := t.steps + 1, cycles := t'.cycles, front := t'.front, was := none } ∧
        ∀ q, Map.get (fun _ => 0) s'.swcnt q = if q = 8 * t.ctx + f.imm.toNat then
          Map.get (fun _ => 0) s.swcnt q + (sreg t f.a).setWidth 48 else Map.get (fun _ => 0) s.swcnt q)

/-- The step takes the command at the front of the queue and runs it on the state with the queue's rest. -/
def Obligations.StepRunsTheFrontCommand : Prop :=
  ∀ (c : Instr) (rest : List Instr) (s : State),
    step { s with pending := c :: rest } = exec c { s with pending := rest }

/-- R208, log 2: on an empty queue one CK_TIME cycle passes: the slow time moves on by 1 ns, and, except in SLEEP and before
the release from a reset, outward time by 1 ns and the adjustment. Nothing else changes but what falls due in that cycle: a
pending SEL that waits for no commit (R221), and the PTP messages of the service program (R222, log 130), of which a port's
Sync is queued in class 6. -/
def Obligations.EmptyQueueIsOneTimeCycle : Prop :=
  ∀ s u : State, s.pending = [] → u = { s with pwr := { s.pwr with slow := s.pwr.slow + 64 } } →
    (mode s = 0 ∨ s.bst.releaseDue = true → step s = .next u) ∧
    (mode s ≠ 0 → s.bst.releaseDue = false → ∃ t, step s = .next t ∧ t.pending = [] ∧ t.pwr = u.pwr ∧ t.fmem = s.fmem ∧
      ((t.ot.toNat * 2 ^ 48 + t.otFrac.toNat : Nat) : Int) =
        ((s.ot.toNat * 2 ^ 48 + s.otFrac.toNat : Nat) + (2 ^ 48 + s.tim.adj)) % 2 ^ 112 ∧
      (on s fld.timeStatus.PENDING = false ∨ anyCanvas s = true →
        (on s fld.sched.SVC = false ∨ on s fld.timeCtrl.EN = false → t = { u with ot := t.ot, otFrac := t.otFrac }) ∧
        ∀ p, p < 32 → syncDue { u with ot := t.ot } p = true → Map.find? t.tim.syncAt p = some t.ot ∧
          ∃ f rest, (portOf t p).queue = (portOf s p).queue ++ f :: rest ∧ f.cls = 6))

/-- Every command has an effect: it answers a next state, and leaves the queue of waiting commands as it was. -/
def Obligations.EveryCommandAnswersANextState : Prop :=
  ∀ (i : Instr) (s : State), ∃ t, exec i s = .next t ∧ t.pending = s.pending

/-- R373, Table 14-3, logs 7, 9 and 10: right after reset the device is in mode BOOT, every register holds its reset value,
outward time is 0, every counter reads 0, and there is no task, allocation, layer or change of an input. -/
def Obligations.ResetState : Prop :=
  mode State.reset = 1 ∧ State.reset.pending = [] ∧ State.reset.ot = 0 ∧
    (∀ (r : RegId) (i j : Nat), rd State.reset r i j = BitVec.ofNat 32 r.desc.reset) ∧
    (∀ k, counter State.reset k = 0) ∧ (∀ k, taskAt State.reset k = none) ∧
    (∀ a, memGet State.reset.fmem a = 0 ∧ memGet State.reset.hmem a = 0) ∧
    State.reset.hst.allocs = [] ∧ State.reset.hst.layers = [] ∧ State.reset.vat.inputs = []

/-- The state after reset is sound: its memories, its register file and its task table are in canonical form. -/
def Obligations.ResetIsSound : Prop := Sound State.reset

/-- Every step keeps a sound state sound: frame and host memory keep their canonical form (log 6), the register file and
the task table stay in rising order, and every task stands in the slot that it names, of a context that the device has. -/
def Obligations.StepKeepsSound : Prop := ∀ s t : State, Sound s → step s = .next t → Sound t

/-- R32, R35, Tables 2-7 and 2-8: decoding the word of a well-formed Quolasyn instruction gives that instruction back, for
every value of its fields. -/
def Obligations.DecodeOfEncode : Prop :=
  ∀ (i : Instr) (w : W64), wellFormed i = true → encode i = some w → decodeWord (coreOf i) w = some i

/-- R32, R35: a word that decodes is the word of the instruction that it spells: no bit of a word is dropped, and two words
never spell one instruction. -/
def Obligations.EncodeOfDecode : Prop :=
  ∀ (k : Nat) (w : W64) (i : Instr), decodeWord k w = some i → encode i = some w ∧ coreOf i = k ∧ codesOk i = true

/-- The two encodings that the reference writes out: VMIX.normal v8, v0, v4, s7 and SPEC.IN s7, s0, 0x1000_0020; and words
of other groups made from their tables. -/
def Obligations.EncodingsOfTheReference : Prop :=
  decodeWord 3 0x2900200000000007#64 = some (.vmix 3 0 ⟨8, 0, 4, 0, 7⟩) ∧
    decodeWord 0 0x50E0000010000020#64 = some (.specIn 0 ⟨7, 0, 0, 0, 0x10000020⟩) ∧
    decodeWord 9 0x00430A0000000000#64 = some (.add 9 ⟨2, 3, 1, 2, 0⟩) ∧
    decodeWord 0 0xFC00001000000005#64 = some (.brk 0 ⟨0, 0, 0, 0, 5⟩) ∧
    decodeWord 0 0x80000000FFFFFFFF#64 = some (.bra 0 ⟨0, 0, 0, 0, 0xFFFFFFFF⟩)


/-- Frames of the host's and the surroundings' commands: when one answers a next state, every register and every other
part of the state is unchanged but those that its rules let it write, which `mayChange` lists for each. -/
def Obligations.CommandsLeaveTheRest : Prop :=
  ∀ (i : Instr) (s t : State) (rs : RegSet) (ps : List Part),
    mayChange i = some (rs, ps) → exec i s = .next t → rs.leaves ps s t
/-- R289, R291, R94, R292, R293, R294, R297, R125, R286: a command that starts does its work and completes: TASK creates its
task in the next free slot; CUE and LAYER_SET enter their change into the input log, or wait for room, and a change whose
entry fails its parity is lost and completes; ALLOC gives free frame memory, zeroed; RETIRE opens a fence; LAYER_NEW makes a layer; IMPORT starts its copy into a free buffer; LAYER_DEL
removes a layer, whose records stay for the tasks released before (log 101); an entry that is poisoned, of no known OP, of a
context not owned, or whose EXT is not that of its OP (log 102) completes with an error. -/
def Obligations.RingCommandsComplete : Prop :=
  ∀ (s : State) (h : Cmd) (c : Nat), c = h.ctx.toNat →
    (Starts s h 2 → ∀ desc d slot, d = withCtx (eightWords desc) c → descBad s d c = false → dEmode d ≠ 1 →
      specCommitted s d = false → nextSlot s = some slot → slotQuotaHit s c = false →
      ∃ t u, exec (.task h desc) s = .next t ∧ Completes s t h 2 ∧ taskAt t slot = some u ∧ u.desc = d ∧ u.ctx = c ∧
        u.epoch = (if dEmode d = 2 then none else some (BitVec.ofNat 32 (dw d 2))) ∧ u.prog = progSnap s (dProg d) ∧
        u.pc = 0 ∧ ∀ q, q ≠ slot → taskAt t q = taskAt s q) ∧
    (Starts s h 1 →
      (∀ index value tgt g k, parseTarget s c tgt = some g → index.toNat < 65536 → k = (⟨1, c, index.toNat⟩ : InKey) →
        (logRoom s = true → s.vat.badNext = false → NextIsNewest s k →
          ∃ t, exec (.cue h index value tgt) s = .next t ∧ Completes s t h 1 ∧ EntersLog s t k value 0 g) ∧
        (logRoom s = true → s.vat.badNext = true →
          ∃ t, exec (.cue h index value tgt) s = .next t ∧ Completes s t h 1 ∧ t.vat = { s.vat with badNext := false }) ∧
        (logRoom s = false → ∃ t, exec (.cue h index value tgt) s = .next t ∧
          t.vat = { s.vat with
            waiting := s.vat.waiting ++ [⟨k, value, 0, g, some (h, 2, cueEntry h index value tgt)⟩] } ∧
          ringBusy t h.ring = true ∧ counter t Cnt.inputLogFull.ctorIdx = counter s Cnt.inputLogFull.ctorIdx + 1)) ∧
      (∀ mib : W32, 1 ≤ mib.toNat → mib.toNat ≤ memMib s.member → memQuotaHit s c = false → (∃ b, mibFree s b mib.toNat = true) →
        ∃ t b, exec (.alloc h mib) s = .next t ∧ Completes s t h 1 ∧ mibFree s b mib.toNat = true ∧
          t.hst.allocs = s.hst.allocs ++ [⟨b, mib.toNat, c, none⟩] ∧
          ∀ a, memGet t.fmem a =
            if b * 1048576 ≤ a ∧ a < (b + mib.toNat) * 1048576 then 0 else memGet s.fmem a) ∧
      (∀ (addr : W32) a n, s.hst.allocs.find? (fun x => x.base * 4096 == addr.toNat && x.ctx == c) = some a →
        a.fence = none → allocUsed s a = false → n = Map.get (fun _ => 0) s.hst.fenceNext c + 1 →
        ∃ t, exec (.retire h addr) s = .next t ∧ Completes s t h 1 ∧
          Map.get (fun _ => 0) t.hst.fenceNext c = n ∧ ({ a with fence := some n } : Alloc) ∈ t.hst.allocs ∧
          t.hst.fences = s.hst.fences ++
            [⟨c, n, a.base, s.sch.nextId, firmJobs s c⟩]) ∧
      (∀ (layer size form pool nbuf : W32) (l : Layer), layer.toNat < 1024 →
        l = ⟨c, size.toNat % 65536, size.toNat / 65536, form.toNat % 4, form.toNat / 4 % 2 == 1,
          if form.toNat / 8 % 2 = 1 then some (form.toNat / 16 % 64) else none, pool, nbuf.toNat % 16⟩ →
        1 ≤ l.width → l.width ≤ 16384 → 1 ≤ l.height → l.height ≤ 16384 → l.fmt ≠ 3 → 2 ≤ l.nbuf → l.nbuf ≤ 8 →
        ctxHolds s c (pool.toNat * 256) (l.nbuf * bufStride l) = true → layerOf s layer.toNat = none →
        layerQuotaHit s c = false →
        ∃ t, exec (.layerNew h layer size form pool nbuf) s = .next t ∧ Completes s t h 1 ∧
          (∀ q, layerOf t q = if q = layer.toNat then some l else layerOf s q) ∧
          (on t fld.layerStatus.VALID layer.toNat = true ∧ get t fld.layerStatus.CTX layer.toNat = c ∧
            rd t .layerVersion layer.toNat = 0) ∧
          ∀ a, memGet t.fmem a =
            if pool.toNat * 256 ≤ a ∧ a < pool.toNat * 256 + bufStride l then 0 else memGet s.fmem a) ∧
      (∀ (layer : W32) l tgt g, layerOf s layer.toNat = some l → l.ctx = c → parseTarget s c tgt = some g →
        (∀ buf, l.host = false → layer.toNat < 1024 → ctxHolds s c (buf.toNat * 256) (bufStride l) = true → logRoom s = true →
          s.vat.badNext = false → NextIsNewest s ⟨7, 0, layer.toNat⟩ →
          ∃ t, exec (.layerSet h layer buf tgt) s = .next t ∧ Completes s t h 1 ∧
            EntersLog s t ⟨7, 0, layer.toNat⟩ (BitVec.ofNat 32 (l.width + 65536 * l.height)) buf g) ∧
        (∀ lo hi pitch, l.host = true →
          (∃ b ∈ poolBufs l, bufsDone s l.ctx (fun x => x == b) s.sch.nextId (firmJobs s l.ctx) = true) →
          ∃ b i, b ∈ poolBufs l ∧ bufsDone s l.ctx (fun x => x == b) s.sch.nextId (firmJobs s l.ctx) = true ∧
            i.layer = layer.toNat ∧ i.buf = b ∧ i.addr = BitVec.ofNat 64 (lo.toNat + 2 ^ 32 * hi.toNat) ∧
            i.pitch = pitch.toNat % 2 ^ 24 ∧ i.cmd = some h ∧ i.target = g ∧ exec (.importLayer h layer lo hi pitch tgt) s =
              .next { s with hst := { s.hst with imports := s.hst.imports ++ [i] } }) ∧
        ((∀ i ∈ s.hst.imports, i.layer ≠ layer.toNat) → ∃ t, exec (.layerDel h layer) s = .next t ∧ Completes s t h 1 ∧
          (∀ q, layerOf t q = if q = layer.toNat then none else layerOf s q) ∧ rd t .layerStatus layer.toNat = 0 ∧
          t.hst.gone = s.hst.gone ++ [⟨layer.toNat, s.sch.nextId, 1024 + s.hst.goneCount, l⟩] ∧
          t.vat.inputs = s.vat.inputs.map (fun x =>
            if x.key = ⟨7, 0, layer.toNat⟩ then { x with key := ⟨7, 0, 1024 + s.hst.goneCount⟩ } else x)))) ∧
    (∀ (op : Byte) (ext : Bool), AtHead s h (if ext then 2 else 1) →
      (∃ t, exec (.badCommand h op ext true) s = .next t ∧ Completes s t h (if ext then 2 else 1) ∧
        (s.hst.parity = [] → counter t Cnt.poison.ctorIdx = counter s Cnt.poison.ctorIdx + 1) ∧
        counter t Cnt.cmdErr.ctorIdx = counter s Cnt.cmdErr.ctorIdx + 1 ∧
        hasBit t fld.hostStatus.HOST_STATUS 1 = true) ∧
      (standby s = true ∨ knownOp op.toNat = false ∨ mayCommand s h = false ∨ ext ≠ (op == 1) →
        ∃ t, exec (.badCommand h op ext false) s = .next t ∧ Completes s t h (if ext then 2 else 1) ∧
          counter t Cnt.cmdErr.ctorIdx = counter s Cnt.cmdErr.ctorIdx + 1))

/-- R278, R279, R280, R281: a read of a free semaphore claims it and returns ACQ; a read by its holder renews it, and one by
another function returns the holder; the holder's write of its own number releases it, and any other write is counted;
SEM_FORCE releases an expired semaphore of the other port; a lease expires; of two ports in one cycle the tie bit decides. -/
def Obligations.SemaphoresWork : Prop :=
  ∀ (s : State) (n fn : Nat), n < 256 → fn < 32 →
    (pcieFn s fn = true → Reaches s fn .sem n 0 →
      ∃ t, exec (.semClaim n fn none) s = .next t ∧ t.rdata = leBytes 4 (rd t .sem n ||| (if on s fld.sem.HELD n then 0 else 0x40)).toNat ∧
        (on s fld.sem.HELD n = false → on t fld.sem.HELD n = true ∧ get t fld.sem.OWNER n = fn ∧
          on t fld.sem.EXPIRED n = false ∧ get t fld.sem.GEN n = (get s fld.sem.GEN n + 1) % 2 ^ fld.sem.GEN.w ∧
          Map.get (fun _ => 0) t.hst.semAt n = s.ot) ∧
        (on s fld.sem.HELD n = true → get s fld.sem.OWNER n = fn → on t fld.sem.HELD n = true ∧
          get t fld.sem.OWNER n = fn ∧ on t fld.sem.EXPIRED n = false ∧ Map.get (fun _ => 0) t.hst.semAt n = s.ot) ∧
        (on s fld.sem.HELD n = true → get s fld.sem.OWNER n ≠ fn → rd t .sem n = rd s .sem n)) ∧
    (∀ g, g < 32 → acrossPorts s fn g = true → Reaches s fn .sem n 0 → Reaches s g .sem n 0 → on s fld.sem.HELD n = false →
      ∃ t, exec (.semClaim n fn (some g)) s = .next t ∧ on t fld.sem.HELD n = true ∧
        (get t fld.sem.OWNER n = if semH1First s n = (fn / 16 == 1) then fn else g) ∧
        semH1First t n = !semH1First s n) ∧
    (∀ v : W32, pcieFn s fn = true → Writable s fn .sem n 0 →
      ∃ t, exec (.semRelease n fn v none) s = .next t ∧
        (on s fld.sem.HELD n = true → get s fld.sem.OWNER n = fn → v.toNat % 32 = fn →
          on t fld.sem.HELD n = false ∧ on t fld.sem.EXPIRED n = false ∧ get t fld.sem.GEN n = get s fld.sem.GEN n) ∧
        (on s fld.sem.HELD n = false ∨ get s fld.sem.OWNER n ≠ fn ∨ v.toNat % 32 ≠ fn → rd t .sem n = rd s .sem n ∧
          counter t Cnt.semBadRel.ctorIdx = counter s Cnt.semBadRel.ctorIdx + 1)) ∧
    (∀ v : W32, v.toNat % 256 = n → pcieFn s fn = true → Writable s fn .semForce 0 0 → on s fld.sem.HELD n = true →
      on s fld.sem.EXPIRED n = true → get s fld.sem.OWNER n / 16 ≠ fn / 16 →
      ∃ t, exec (.semForce fn v) s = .next t ∧ on t fld.sem.HELD n = false ∧ on t fld.sem.EXPIRED n = false ∧
        counter t Cnt.semForced.ctorIdx = counter s Cnt.semForced.ctorIdx + 1) ∧
    (on s fld.sem.HELD n = true → on s fld.sem.EXPIRED n = false → get s fld.semCfg.LEASE_US n ≠ 0 →
      ∃ t, exec (.semLeaseExpire n) s = .next t ∧ on t fld.sem.EXPIRED n = true ∧ on t fld.sem.HELD n = true ∧
        t.ot = timeAt s (Map.get (fun _ => 0) s.hst.semAt n + BitVec.ofNat 64 (get s fld.semCfg.LEASE_US n * 1000)))

/-- R282, R283, R287, R288, R284, R301: a ring is enabled where its fields fit, else it reads EN 0 and ERR 1; TAIL and HEAD
take a value that passes no end, and else keep theirs; a flush is pending until it completes, with HEAD at TAIL; a waiting
record is written when its ring takes it, with POISON where a word of it fails its parity (R286); a DMA fault stops its ring. -/
def Obligations.RingRegistersWork : Prop :=
  ∀ (s : State) (r fn : Nat) (v : W32), r < 64 →
    (Writable s fn .ringCtrl r 0 → on s fld.ringCtrl.EN r = false → v.toNat / 2 ^ 15 % 2 = 0 →
      (pcieFn s (v.toNat / 16 % 32) = true → ∀ u, u = plainWrite (isPf fn) .ringCtrl r 0 v s → on u fld.ringCtrl.EN r = true →
        ∃ t, exec (.ringEnable r fn v) s = .next t ∧
          on t fld.ringCtrl.EN r = ringFits u r ∧ on t fld.ringCtrl.ERR r = !ringFits u r ∧
          ∀ f ∈ [fld.ringCtrl.KIND, fld.ringCtrl.FN, fld.ringCtrl.LOG2SZ, fld.ringCtrl.CPL], get t f r = get u f r) ∧
      (pcieFn s (v.toNat / 16 % 32) = false → isPf fn = true → v.toNat % 2 = 1 →
        ∃ t, exec (.ringEnable r fn v) s = .next t ∧ on t fld.ringCtrl.EN r = false ∧ on t fld.ringCtrl.ERR r = true)) ∧
    (Writable s fn .ringTail r 0 → deviceProduces s r = false → ∀ posted x added, x = v.toNat % 65536 →
      added = (x + ringSize s r - get s fld.ringTail.TAIL r) % ringSize s r →
      ∃ t, exec (.ringTailWrite r fn v posted) s = .next t ∧
        (x < ringSize s r → ringOcc s r + added < ringSize s r →
          get t fld.ringTail.TAIL r = x ∧
          (get s fld.ringCtrl.KIND r = 3 → postedOn t r = postedOn s r ++ posted.take added) ∧
          (crosses (ringOcc s r) (ringOcc s r + added) (get s fld.ringLevel.RING_LEVEL r) = true →
            hasBit t fld.ringStatus.RING_STATUS 0 r = true)) ∧
        (ringSize s r ≤ x ∨ ringSize s r ≤ ringOcc s r + added → get t fld.ringTail.TAIL r = get s fld.ringTail.TAIL r)) ∧
    (Writable s fn .ringHead r 0 → deviceProduces s r = true → ∀ x, x = v.toNat % 65536 →
      ∃ t, exec (.ringHeadWrite r fn v) s = .next t ∧ get t fld.ringHead.HEAD r =
        if x < ringSize s r ∧ (x + ringSize s r - get s fld.ringHead.HEAD r) % ringSize s r ≤ ringOcc s r then x
        else get s fld.ringHead.HEAD r) ∧
    (Writable s fn .ringCtrl r 0 → ∃ t, exec (.ringFlush r fn) s = .next t ∧
      get t fld.ringCtrl.FLUSH r = if deviceProduces s r then get s fld.ringCtrl.FLUSH r else 1) ∧
    (on s fld.ringCtrl.FLUSH r = true → ringStarted s r = false →
      (get s fld.ringCtrl.KIND r = 3 → ∀ heads, ∃ t, exec (.flushComplete r heads) s = .next t ∧
        on t fld.ringCtrl.FLUSH r = false ∧ postedOn t r = (postedOn s r).drop (ringOcc s r)) ∧
      (get s fld.ringCtrl.KIND r ≠ 3 → ∀ heads : List FlushedEntry, (heads.map (fun x => x.span)).sum = ringOcc s r →
        ∃ t, exec (.flushComplete r heads) s = .next t ∧ on t fld.ringCtrl.FLUSH r = false ∧
          get t fld.ringHead.HEAD r = get t fld.ringTail.TAIL r)) ∧
    (∀ g ws bad, cplTakes s r g = true → s.hst.cplWait = [.record r g ws] → (∀ u ∈ allTasks s, u.finishing = none) →
      ∃ t, exec (.producerResume r bad) s = .next t ∧ t.hst.cplWait = [] ∧
        get t fld.ringTail.TAIL r = (get s fld.ringTail.TAIL r + 1) % ringSize s r % 65536 ∧
        (bad ≠ 0 → hasBit t fld.ringStatus.RING_STATUS 2 r = true)) ∧
    (on s fld.ringCtrl.EN r = true → ∃ t, exec (.ringDmaFault r) s = .next t ∧ on t fld.ringCtrl.EN r = false ∧
      hasBit t fld.ringStatus.RING_STATUS 3 r = true ∧
      counter t Cnt.dmaFault.ctorIdx = counter s Cnt.dmaFault.ctorIdx + 1)


/-- R10, R11, R12, R138, R275, R299, R294, R295, R296, R297, R276, R271, R128, R286: a write stores by the access type of each
bit; of two ports' writes of one register in one cycle both land, in the order of the tie bit; a shadowed field keeps the
value in force until its canvas commits; a read returns the register and clears its RC bits; BAR2 reaches frame memory;
an import ends with its image and its change in place, or with a stale layer; the oldest fence completes; a function's reset
stops its rings, frees its semaphores and ends its routes; a waiting change enters the log. -/
def Obligations.HostAccessWorks : Prop :=
  (∀ (s : State) (fn off : Nat) (r : RegId) (i j : Nat) (v : W32), regAt off = some ⟨r, i, j⟩ →
    (∀ setting : W32, storesOnly r = true → Writable s fn r i j →
      (∃ t, exec (.registerWrite fn .bar0 off v 4 setting none) s = .next t ∧
        ∀ b, b < 32 → (rd t r i j).getLsbD b =
          (bitWritten s fn r i j v b || (setting.getLsbD b && r.desc.w1c.testBit b && (rd s r i j).getLsbD b))) ∧
      ∀ g w, acrossPorts s fn g = true → isPf fn = true → isPf g = true → journaled (r.off i j) = false → Writable s g r i j →
        r.desc.rw ≠ 0 → r.desc.w1c = 0 → r.desc.w1s = 0 →
        ∃ t, exec (.registerWrite fn .bar0 off v 4 setting (some (g, w))) s = .next t ∧
          (((fn / 16 == 1) = s.hst.busTie → Wrote s t g r i j w ∧ t.hst.busTie = (g / 16 == 1)) ∧
           ((fn / 16 == 1) ≠ s.hst.busTie → Wrote s t fn r i j v ∧ t.hst.busTie = (fn / 16 == 1)))) ∧
    (∀ setting : W32, Writable s fn r i j →
      (r ∈ [.ppsOut, .progBase, .progLen, .progEntry] → ∃ t, exec (.registerWrite fn .bar0 off v 4 setting none) s = .next t ∧
        Wrote s t fn r i j v ∧ (r ≠ .ppsOut → on t fld.progCtrl.SVC i = false)) ∧
      (r = .progCtrl → ∃ t, exec (.registerWrite fn .bar0 off v 4 setting none) s = .next t ∧ on t fld.progCtrl.SVC i = false ∧
        ∀ b, b < 32 → b ≠ fld.progCtrl.SVC.lo → (rd t r i j).getLsbD b = bitWritten s fn r i j v b) ∧
      (r ∈ [.vringBase, .lineStride, .vsize, .ringFmt, .frameNs] →
        ∃ t, exec (.registerWrite fn .bar0 off v 4 setting none) s = .next t ∧
          (ringNamed s i = true → rd t r i j = rd s r i j) ∧ (ringNamed s i = false → Wrote s t fn r i j v))) ∧
    (r ∈ shadowedRegs → i < 64 → (r ≠ .refresh ∨ v.toNat % 256 ≠ 0) → Writable s fn r i j →
      ∃ t, exec (.shadowedWrite fn off v) s = .next t ∧ Wrote s t fn r i j v ∧
        (on s fld.canvasCtrl.EN i = true → (∀ f, f.reg = r → eff t f i j = eff s f i j ∨
            Nat.land (Nat.xor (rd s r i j).toNat (rd t r i j).toNat) r.desc.shadow = 0) ∧
          (Nat.land (Nat.xor (rd s r i j).toNat (rd t r i j).toNat) r.desc.shadow ≠ 0 → on t fld.canvasStatus.SHADOW i = true))) ∧
    (∀ (n at_ : Nat) (setting : W32), n = 1 ∨ n = 2 ∨ n = 4 → at_ % n = 0 → at_ / 4 * 4 = off → readActs r = false → Reaches s fn r i j →
      ∃ t, exec (.rcRead fn .bar0 at_ n setting none) s = .next t ∧
        t.rdata = ((leBytes 4 (peek fn s r i j).toNat).drop (at_ % 4)).take n ∧ (r.desc.rc ≠ 0 → peek fn s r i j = rd s r i j) ∧
        ∀ b, b < 32 → (rd t r i j).getLsbD b =
          (((rd s r i j).getLsbD b && !r.desc.rc.testBit b) || (setting.getLsbD b && r.desc.rc.testBit b)))) ∧
  (∀ (s : State) (fn off : Nat), pcieFn s fn = true → hostUp s fn = true → mode s ≠ 7 → blockTested s 27 = false →
    (∀ (data : List Byte) (p : Bool), bar2May s fn (bar2Addr s fn off) data.length = true → standby s = false →
      ∃ t, exec (.bar2Write fn off data p) s = .next t ∧
        (bar2Lands s (bar2Addr s fn off) data.length = true → (mode s = 4 → t.pwr.selfRef = false) ∧
          (∀ a, memGet t.fmem a =
            if bar2Addr s fn off ≤ a ∧ a < bar2Addr s fn off + data.length then data.getD (a - bar2Addr s fn off) 0
            else memGet s.fmem a) ∧
          ∀ a, a ∈ t.fbad ↔ if bar2Addr s fn off ≤ a ∧ a < bar2Addr s fn off + data.length then p = true else a ∈ s.fbad) ∧
        (bar2Lands s (bar2Addr s fn off) data.length = false → t.fmem = s.fmem ∧
          counter t Cnt.retireWrite.ctorIdx = counter s Cnt.retireWrite.ctorIdx + 1 ∧
          hasBit t fld.hostStatus.HOST_STATUS 0 = true ∧
          rd t .hostErrAddr = BitVec.ofNat 32 (bar2Addr s fn off / 256))) ∧
    (∀ n, bar2May s fn (bar2Addr s fn off) n = true →
      ∃ t, exec (.bar2Read fn off n) s = .next t ∧ (mode s = 4 → t.pwr.selfRef = false) ∧ t.rdata = (List.range n).map (fun k =>
        if bar2Addr s fn off + k < memMib s.member * 1048576 then memGet s.fmem (bar2Addr s fn off + k) else 0))) ∧
  (∀ (s : State) (n k : Nat) (l : Layer) (i : Import), layerOf s n = some l → runningImport s n k = some i →
    (∀ (data : List Byte) (len : Nat), standby s = false → len = l.width * l.height * (if l.fmt = 1 then 4 else 8) → data.length = len →
      logRoom s = true → s.vat.badNext = false → n < 1024 → NextIsNewest s ⟨7, 0, n⟩ →
      ∃ t, exec (.importDone n k data) s = .next t ∧ layerOf t n = some l ∧ t.hst.imports = s.hst.imports.erase i ∧
        on t fld.layerStatus.STALE n = false ∧
        EntersLog s t ⟨7, 0, n⟩ (BitVec.ofNat 32 (l.width + 65536 * l.height)) i.buf i.target ∧
        (runningCanvases s = [] → ∀ a, memGet t.fmem a =
          if i.buf.toNat * 256 ≤ a ∧ a < i.buf.toNat * 256 + len then data.getD (a - i.buf.toNat * 256) 0
          else memGet s.fmem a)) ∧
    (∃ t, exec (.importDmaFault n k) s = .next t ∧ layerOf t n = some l ∧ t.hst.imports = s.hst.imports.erase i ∧
      on t fld.layerStatus.STALE n = true ∧ counter t Cnt.dmaFault.ctorIdx = counter s Cnt.dmaFault.ctorIdx + 1)) ∧
  (∀ (s : State) (c : Nat) (f : Fence), s.hst.fences.find? (fun f => f.ctx == c) = some f → fenceReady s f = true →
    ∃ t, exec (.fenceComplete c) s = .next t ∧ rd t .ctxFence c = f.num ∧
      t.hst.fences = s.hst.fences.filter (fun x => x != f) ∧
      ∀ a, a ∈ t.hst.allocs ↔ a ∈ s.hst.allocs ∧ ¬ (a.fence = some f.num ∧ a.ctx = c)) ∧
  (∀ (s : State) (fn : Nat), pcieFn s fn = true → fn < 32 → ∀ i, i = .functionLevelReset fn ∨ i = .perstN (fn / 16) true →
    ∃ t, exec i s = .next t ∧ (∀ r, r < 64 → get s fld.ringCtrl.FN r = fn → on t fld.ringCtrl.EN r = false) ∧
      (∀ n, n < 256 → on s fld.sem.HELD n = true → get s fld.sem.OWNER n = fn → on t fld.sem.HELD n = false ∧
        get t fld.sem.GEN n = (get s fld.sem.GEN n + 1) % 2 ^ fld.sem.GEN.w) ∧
      ∀ e, e < 128 → on t fld.route.EN fn e = false) ∧
  (∀ (s : State) (rate width : BitVec 2),
    (s.hst.perst.contains 0 = false → ∃ t, exec (.pcieLinkChange 0 rate width) s = .next t ∧ bitsOf (rd t .pcieLink).toNat 0 2 = rate.toNat ∧
      bitsOf (rd t .pcieLink).toNat 4 2 = width.toNat ∧
      (rd t .pcieLink ≠ rd s .pcieLink → hasBit t fld.hostStatus.HOST_STATUS 3 = true)) ∧
    (s.hst.perst.contains 1 = false → ∃ t, exec (.pcieLinkChange 1 rate width) s = .next t ∧ bitsOf (rd t .pcieLink).toNat 16 2 = rate.toNat ∧
      bitsOf (rd t .pcieLink).toNat 20 2 = width.toNat ∧
      (rd t .pcieLink ≠ rd s .pcieLink → hasBit t fld.hostStatus.HOST_STATUS 3 = true))) ∧
  (∀ (s : State) (n : Nat) (w : Waiting), s.vat.waiting[n]? = some w → logRoom s = true →
    (NextIsNewest s w.key → s.vat.badNext = false → (w.key.kind ≠ 7 ∨ w.key.idx < 1024) →
      ∃ t, exec (.inputLogEnter n false) s = .next t ∧ EntersLog s t w.key w.value w.buf w.target ∧
      t.vat.waiting = s.vat.waiting.eraseIdx n) ∧
    (∀ p, p = true ∨ s.vat.badNext = true → ∃ t, exec (.inputLogEnter n p) s = .next t ∧
      t.vat = { s.vat with waiting := s.vat.waiting.eraseIdx n, badNext := false } ∧
      (s.hst.parity = [] → counter t Cnt.poison.ctorIdx = counter s Cnt.poison.ctorIdx + 1) ∧
      hasBit t fld.hostStatus.HOST_STATUS 1 = true)) ∧
  (∀ (s : State) (n : Nat) (p : Bool), s.vat.waiting[n]? = none →
    exec (.inputLogEnter n p) s = .next { s with vat := { s.vat with badNext := p || s.vat.badNext } })

/-- R104, R19, R22, R102, R98, R42, R103, R107, R97, R111, R112: DISPATCH runs the chosen READY task on the lowest free core
that has one, from its saved state or from its entry point; a task of the core's cluster does not wait behind one of a worse
priority; the affinity wait ends; a tile task or an invalidated task takes the next slot; a saved task whose cluster is
gone is bound to another; SCHED_CANCEL ends the named task; SCHED_KICK releases a kind 8 template; a context that is
disabled keeps no live task; at the end of a period the core time used is reported and judged. -/
def Obligations.SchedulerWorks : Prop :=
  ∀ s : State, Sound s →
    (∀ (k : Nat) (u : Task), on s fld.sched.EN = true → blockTested s 20 = false → k < clusters s.member * 8 → clusterOpen s (k / 8) = true →
      taskOn s k = none → choose s k = some u →
      (∀ q, q < k → (clusterOpen s (q / 8) && (taskOn s q).isNone && (choose s q).isSome) = false) →
      u.st = .ready ∧ candidate s (k / 8) u = true ∧
      (∀ v ∈ allTasks s, v.st = .ready → candidate s (k / 8) v = true → v.affine = some (k / 8) → effPrio s u ≤ effPrio s v) ∧
      ((∀ v ∈ allTasks s, v.st = .ready → candidate s (k / 8) v = true → v.affine ≠ some (k / 8)) →
        ∀ v ∈ allTasks s, v.st = .ready → candidate s (k / 8) v = true → mayTake s k v = true → effPrio s u ≤ effPrio s v) ∧
      ∃ t w, exec .dispatch s = .next t ∧ taskAt t u.slot = some w ∧ (∀ q, q ≠ u.slot → taskAt t q = taskAt s q) ∧
        w.st = .running k ∧ w.lastCore = some k ∧
        (u.saved = true → w = { u with
          st := .running k, lastCore := some k, saved := false, spill := none, front := none, was := some u.st }) ∧
        (u.saved = false → w.pc = BitVec.ofNat 32 (u.prog.entry * 8) ∧ (∀ r, sreg w r = 0) ∧ (∀ q l, lane w q l = 0) ∧
          (∀ r, r % 8 ≠ 0 → preg w r = 0) ∧ w.scratch = [] ∧ w.staged = [] ∧ w.steps = 0 ∧ w.runs = u.runs + 1 ∧
          w.core = k ∧ (w.torg, w.tsize) = tileWords s u ∧ w.priv = privileged s u)) ∧
    (∀ slot u, taskAt s slot = some u →
      (u.st = .ready → ∃ t, exec (.affinityWaitEnd slot) s = .next t ∧ taskAt t slot = some { u with waited := true } ∧
        t.ot = timeAt s (u.readyAt + affinityWait)) ∧
      (∀ k h, u.spill = some k → clusterGone s k = true → rebindTo s u = some h →
        ∃ t, exec (.taskRebind slot) s = .next t ∧
          taskAt t slot = some { u with spill := some h, affine := if dNoaff u.desc then none else some h }) ∧
      (∀ fn (v : W32) (same : Bool), v.toNat % 65536 = slot → Writable s fn .schedCancel 0 0 →
        (v.toNat / 65536 % 128 = u.ctx → isPf fn = true ∨ ctxOwner s u.ctx = fn → u.finishing = none →
          ∃ t, exec (.schedCancel fn v same) s = .next t ∧
            Ended s t u true (if cancelState same u = .waiting ∨ cancelState same u = .ready then 5 else 4) 0 0) ∧
        (v.toNat / 65536 % 128 ≠ u.ctx →
          ∃ t, exec (.schedCancel fn v same) s = .next t ∧ taskAt t slot = some u ∧
            counter t Cnt.cancelRefused.ctorIdx = counter s Cnt.cancelRefused.ctorIdx + 1))) ∧
    (∀ slot, nextSlot s = some slot →
      (∀ j, s.sch.createQ.find? (fun j => !slotQuotaHit s j.ctx && !blockTested s 20) = some j →
        ∃ t u, exec .tileTaskCreate s = .next t ∧ taskAt t slot = some u ∧ (∀ q, q ≠ slot → taskAt t q = taskAt s q) ∧
          u.desc = withTile j.desc (j.next / tileCols s j.canvas) (j.next % tileCols s j.canvas) ∧ u.ctx = j.ctx % 128 ∧
          u.epoch = j.epoch ∧ u.prog = j.prog ∧ u.tmpl = some j.tmpl ∧ u.parent = none ∧
          t.sch.createQ = takeTile s.sch.createQ j) ∧
      (∀ d, s.sch.recreateQ.find? (fun d => slotFree s d.ctx && ctxLive s d.ctx && !blockTested s 20) = some d →
        ∃ t u, exec .taskRecreate s = .next t ∧ taskAt t slot = some u ∧ (∀ q, q ≠ slot → taskAt t q = taskAt s q) ∧
          u.id = d.id ∧ u.desc = d.desc ∧ u.ctx = d.ctx % 128 ∧ u.epoch = some d.epoch ∧ u.prog = d.prog ∧
          u.runs = d.runs ∧ u.readSet = [] ∧ u.lastCore = d.core ∧
          t.sch.recreateQ = s.sch.recreateQ.filter (fun x => x.id != d.id)) ∧
      (∀ fn (v : W32) n d, n = v.toNat % 256 → d = tmplDesc s n → Writable s fn .schedKick 0 0 →
        isPf fn = true ∨ ctxOwner s (tmplCtx s n) = fn → tmplKind s n = 8 → tmplTaken s n = false → tmplLive s n d = true →
        descBad s d (dCtx d) = false → dEmode d ≠ 1 → slotQuotaHit s (dCtx d) = false →
        ∃ t u, exec (.schedKick fn v) s = .next t ∧ taskAt t slot = some u ∧ u.desc = d ∧ u.ctx = dCtx d % 128 ∧
          u.tmpl = some n ∧ u.epoch = (if dEmode d = 2 then none else some (BitVec.ofNat 32 (dw d 2))) ∧
          rd t .tmplReleased n = rd s .tmplReleased n + 1)) ∧
    (∀ fn c (v : W32), c < 128 → Writable s fn .ctxCtrl c 0 → on s fld.ctxCtrl.EN c = true → v.toNat % 2 = 0 →
      c ∉ s.sch.ctxClosing →
      ∃ t, exec (.ctxDisable fn c v) s = .next t ∧ (∀ j ∈ t.sch.createQ, j.ctx ≠ c) ∧ (∀ d ∈ t.sch.recreateQ, d.ctx ≠ c) ∧
        (∀ q u, taskAt t q = some u → u.ctx = c → u.finishing.isSome = true) ∧
        (ctxSlots t c = 0 → on t fld.ctxCtrl.EN c = false)) ∧
    (∀ c used f, c < 128 → fclock s (get s fld.ctxCtrl.FC c) = some f → used = Map.get (fun _ => 0) s.sch.ctCount c →
      ∃ t, exec (.coreTimePeriodEnd c) s = .next t ∧
        t.ot = timeAt s (f.inst (periodFrame s c (get s fld.ctxCtrl.FC c) f)) ∧
        get t fld.ctxUseCt.USE_CT c = min (used / 1024) (2 ^ 24 - 1) ∧
        Map.get (fun _ => 0) t.sch.ctCount c = 0 ∧
        hasBit t fld.ctxStatus.CTX_STATUS 1 c =
          (get s fld.ctxQuotaCt.QUOTA_CT c != 0 && decide (get s fld.ctxQuotaCt.QUOTA_CT c * 1024 < used)))
/-- R130, R121, R136: the commit of a canvas on its own moves TX and RM and counts; the tiles filled are those of R131 and R57.
R122: the end of a stall, PIN and UNPIN. R124: enable and disable. R145: SQUASH. R143: WAKE. R132: the end of the fill
copies. R230, R362: a frame instant. R150 to R152: a segment leaves the work queue, and the end of a transmit window.
R156: a plane's cut. R163: the Mordant window. -/
def Obligations.VatAndGlazeWork : Prop :=
  ∀ (s : State) (fn c : Nat), c < 64 →
    (∀ e r at_ u, canvasRuns s c = true → standby s = false → halves s c = [c] → e = rmEp s c → epochRec s c e = some r →
      r.committed = false → pendingRegs s c = [] → at_ = commitInst s c e → u = advance at_ s →
      rateSwitch u (canvasFc s c) e = false → ∃ t, exec (.commit c) s = .next t ∧ t.ot = timeAt s at_ ∧ txv t c = true ∧
        txEp t c = e ∧ rmEp t c = e + 1 ∧ rd t .canvasCommits c = rd s .canvasCommits c + 1 ∧
        get t fld.canvasStatus.MISSRUN c = 0 ∧
        (epochDiff (e + BitVec.ofNat 32 (eff s fld.canvasCtrl.DEPTH c) - 2) (wpEp s c) ≤ 0 →
          on s fld.canvasStatus.RESTING c = false → get t fld.canvasFilled.FILLED c =
            (fillsOf .normal [] (unfinishedTiles s c e) r.fills).length % 2 ^ fld.canvasFilled.FILLED.w)) ∧
    (∀ k, canvasRuns s c = true → on s fld.canvasStatus.STALL c = true → freeSlot s c = some k →
      ∃ t, exec (.stallRelease c) s = .next t ∧ wpEp t c = wpEp s c + 1 ∧ get t fld.vatSlots.WP_SLOT c = k % 8 ∧
        on t fld.canvasStatus.STALL c =
          decide (0 < epochDiff (rmEp s c + BitVec.ofNat 32 (eff s fld.canvasCtrl.DEPTH c) - 2) (wpEp s c + 1))) ∧
    (canvasRuns s c = true → copying s c = true → ∃ t, exec (.fillCopyComplete c) s = .next t ∧ copying t c = false) ∧
    (∀ v u, Writable s fn .canvasCtrl c 0 → u = plainWrite (isPf fn) .canvasCtrl c 0 v s →
      (on s fld.canvasCtrl.EN c = false → v.toNat % 2 = 1 →
        (enableOk u c = true → halves u c = [c] → ∃ t, exec (.canvasEnable fn c v) s = .next t ∧ canvasRuns t c = true ∧
          on t fld.canvasCtrl.EN c = true ∧ rmEp t c = firstMark u c ∧ txv t c = false ∧ txEp t c = 0xFFFFFFFF) ∧
        (enableOk u c = false → ∃ t, exec (.canvasEnable fn c v) s = .next t ∧ on t fld.canvasCtrl.EN c = false ∧
          on t fld.canvasStatus.CFG_ERR c = true ∧ canvasRuns t c = canvasRuns s c)) ∧
      (on s fld.canvasCtrl.EN c = true → v.toNat % 2 = 0 → halves s c = [c] → canvasRuns s c = true →
        ∃ t, exec (.canvasDisable fn c v) s = .next t ∧ on t fld.canvasCtrl.EN c = false ∧ canvasRuns t c = false ∧
          (canvasOf t c).epochs = [] ∧ (∀ g ∈ t.glz.work, g.canvas ≠ c) ∧ ∀ w ∈ t.glz.wins, w.canvas ≠ c)) ∧
    (Writable s fn .vatCmd c 0 →
      (∀ u, taskAt s u.slot = some u → (allTasks s).filter (fun t => match t.canvas, t.epoch with
          | some c', some e => c' == c && openEp s c e && undoable t && t.finishing.isNone
          | _, _ => false) = [u] → s.sch.doneTasks.filter (fun d => d.canvas == c && openEp s c d.epoch) = [] →
        ∃ t w, exec (.squash fn c) s = .next t ∧ taskAt t u.slot = some w ∧ w.id = u.id ∧ w.st = .ready ∧ w.steps = 0 ∧
          w.saved = false ∧ w.readSet = [] ∧ w.firm = dFirm u.desc) ∧
      (canvasRuns s c = true → txv s c = true → eff s fld.canvasCtrl.DEPTH c ≠ 2 → on s fld.vatSlots.PINNED c = false →
        ∃ t, exec (.pin fn c) s = .next t ∧ on t fld.vatSlots.PINNED c = true ∧
          get t fld.vatSlots.PIN_SLOT c = slotOf s c (txEp s c) % 8) ∧
      (∃ t, exec (.unpin fn c) s = .next t ∧ on t fld.vatSlots.PINNED c = false) ∧
      (∃ t, exec (.wake fn c) s = .next t ∧ on t fld.canvasStatus.RESTING c = false)) ∧
    (∀ n f, fclock s n = some f → ∃ t, exec (.frameInstant n) s = .next t ∧ fclock t n = some { f with seen := f.seen + 1 } ∧
      t.ot = timeAt s (f.inst (f.seen + 1)) ∧
      (get s fld.calCtrl.FC = n → on s fld.calStatus.PENDING = true → t.calOld = [] ∧ on t fld.calStatus.PENDING = false)) ∧
    (∀ pipe err g w, pipe < 8 → pipeFree s pipe = true → blockTested s 22 = false → nextSeg s = some g →
      winOf s g.canvas g.epoch = some w →
      ∃ t, exec (.glazeSegment pipe err) s = .next t ∧ t.glz.work = s.glz.work.filter (fun x => x != g) ∧
        ((err || (segItems (snapAt s g.canvas g.epoch).etab g).any (fun q => pixelBad s g.canvas w.slot q.2)) = true →
          hasBit t fld.glzEvent.GLZ_EVENT 2 g.canvas = true ∧ counter t Cnt.glazeData.ctorIdx = counter s Cnt.glazeData.ctorIdx + 1 ∧ t.prt = s.prt ∧ t.epg = s.epg)) ∧
    (∀ e w left, winOf s c e = some w → left = (s.glz.work.filter (fun g => g.canvas == c && g.epoch == e)).length →
      (∃ t, exec (.windowEnd c e) s = .next t ∧ winOf t c e = none ∧ t.ot = timeAt s w.fin ∧
        (∀ g ∈ t.glz.work, g.canvas ≠ c ∨ g.epoch ≠ e) ∧
        get t fld.glzAbandoned.ABANDONED c = (w.abandoned + left) % 2 ^ fld.glzAbandoned.ABANDONED.w ∧
        get t fld.glzLateLines.LATE_LINES c = w.lateLines.length % 2 ^ fld.glzLateLines.LATE_LINES.w ∧
        (left ≠ 0 → hasBit t fld.glzEvent.GLZ_EVENT 1 c = true)) ∧
      (∀ p, p < 4 → eff s fld.planeCtrl.EN c p = 1 → ∃ t, exec (.planeCut c e p) s = .next t ∧
        winOf t c e = some { w with cutPlanes := w.cutPlanes ++ [p] } ∧ t.ot = timeAt s (planeCutAt s c p e))) ∧
    (∀ a, a = get s fld.mordAddr.MORD_ADDR →
      (∀ v, Writable s fn .mordData 0 0 → ∃ t, exec (.mordWrite fn v) s = .next t ∧
        get t fld.mordAddr.MORD_ADDR = a / 2 ^ 18 * 2 ^ 18 + (a + 1) % 2 ^ 18 ∧
        (bankUsed s (a / 2 ^ 20 % 2) = false → Map.get (fun _ => 0) t.glz.mord a = v &&& BitVec.ofNat 32 (mordMask a) ∧
          ∀ q, q ≠ a → Map.get (fun _ => 0) t.glz.mord q = Map.get (fun _ => 0) s.glz.mord q) ∧
        (bankUsed s (a / 2 ^ 20 % 2) = true → t.glz = s.glz ∧ on t fld.mordStatus.WR_REFUSED = true ∧
          counter t Cnt.mordRefused.ctorIdx = counter s Cnt.mordRefused.ctorIdx + 1)) ∧
      (Reaches s fn .mordData 0 0 → ∃ t, exec (.mordRead fn) s = .next t ∧
        t.rdata = leBytes 4 (Map.get (fun _ => 0) s.glz.mord a).toNat ∧
        get t fld.mordAddr.MORD_ADDR = a / 2 ^ 18 * 2 ^ 18 + (a + 1) % 2 ^ 18))
/-- R173, R175: staged words and the publication of an entry, or its refusal with the reason of Table 7-2. R174: a view. R207: a
table base. R192: a drive kick. R194: FLT_CLR. R197, R198, R201: FORCE and CLEAR of a kill group. R205: blackout. R203: the
packets of a universe that stops. R17, R182: LATCH and the beacon. R204, R267: a DMX packet. R191, R193, R196: STAT, and a
node that is lost. -/
def Obligations.EndpointsWork : Prop :=
  ∀ (s : State) (fn : Nat),
    (∀ e k v, e < 131072 → 0 < k → k < 16 → Writable s fn .etabWord e k → ∃ t, exec (.etabStageWrite fn e k v) s = .next t ∧
      Map.get (fun _ => 0) t.epg.stage (16 * e + k) = v ∧ (∀ q j, rd t .etabWord q j = rd s .etabWord q j) ∧
      ∀ n, n ≠ 16 * e + k → Map.get (fun _ => 0) t.epg.stage n = Map.get (fun _ => 0) s.epg.stage n) ∧
    (∀ e v m why, e < 131072 → Writable s fn .etabWord e 0 → m = stagedEntry s e v →
      why = (if eValid m e then entryReason s m e else 0) → ∃ t, exec (.etabPublish fn e v) s = .next t ∧
      (why = 0 → (∀ k, k < 16 → rd t .etabWord e k =
          entryWord k (if k = 0 then v else Map.get (fun _ => 0) s.epg.stage (16 * e + k))) ∧
        ∀ q, q ≠ e → ∀ k, k < 16 → rd t .etabWord q k = rd s .etabWord q k) ∧
      (why ≠ 0 → (∀ q k, rd t .etabWord q k = rd s .etabWord q k) ∧ get t fld.epErr.ERR_REASON = why ∧
        get t fld.epErr.ERR_ENTRY = e ∧ hasBit t fld.epEvent.EP_EVENT 8 = true)) ∧
    (∀ c isN v r u, c < 128 → r = (if isN then RegId.viewN else .viewBase) → Writable s fn r c 0 → isPf fn = true →
      u = plainWrite true r c 0 v s → ∃ t, exec (.viewWrite fn c isN v) s = .next t ∧
      rd t r c = if viewClash u c (get u fld.viewBase.VIEW_BASE c) (get u fld.viewN.VIEW_N c) then rd s r c else rd u r c) ∧
    (∀ st v r, r = (if st then RegId.stblBase else .drvBase) → Writable s fn r 0 0 →
      ∃ t, exec (.tableBaseWrite fn st v) s = .next t ∧
      ((v = 0 ∨ ∃ a ∈ s.hst.allocs, a.base * 4096 = v.toNat ∧
          (if st then endpoints s.member * 32 / 1048576 else 1) ≤ a.size) → rd t r = v) ∧
      (¬ (v = 0 ∨ ∃ a ∈ s.hst.allocs, a.base * 4096 = v.toNat ∧
          (if st then endpoints s.member * 32 / 1048576 else 1) ≤ a.size) → rd t r = rd s r ∧
        get t fld.epErr.ERR_REASON = 9 ∧ hasBit t fld.epEvent.EP_EVENT 8 = true)) ∧
    (∀ v, Writable s fn .epDrvKick 0 0 → ∃ t, exec (.drvKick fn v) s = .next t ∧
      ∀ c, c < 64 → (c, v.toNat % 8192) ∈ t.epg.kicks) ∧
    (∀ v e, Writable s fn .epFltClr 0 0 → e = v.toNat % 131072 → ∃ t, exec (.fltClr fn v) s = .next t ∧
      (epOf t e).strs = (epOf s e).strs.map (fun y => (y.1, if y.2 = 2 then 1 else y.2))) ∧
    (∀ g v, 0 < g → g < 4096 → Writable s fn .kg g 0 →
      (v.toNat / 2 ^ 10 % 2 = 1 → ∃ t, exec (.force fn g v) s = .next t ∧ on t fld.kg.KILLED g = true) ∧
      (v.toNat / 2 ^ 9 % 2 = 1 → v.toNat / 2 ^ 10 % 2 = 0 → ∃ t, exec (.clear fn g v) s = .next t ∧
        on t fld.kg.KILLED g = false)) ∧
    (Writable s fn .epBlackout 0 0 → ∀ time pay, time = BitVec.ofNat 64 ((s.ot.toNat / 1000000 + 1) * 1000000) →
      pay = beBytes 2 (get s fld.epHold.HOLD_MS) ++ [BitVec.ofNat 8 (get s fld.epHold.POLICY), 0] →
      (∃ t, exec (.blackoutOn fn) s = .next t ∧ on t fld.epBlackout.BLACKOUT_ON = true ∧
        t.epg.blackAt = BitVec.ofNat 64 ((s.ot.toNat / 100000000 + 1) * 100000000) ∧
        (on s fld.epCtrl.EN = false → t.prt = s.prt) ∧
        (on s fld.epCtrl.EN = true → ∀ p, p < 32 → portSends s p = true → ∃ f q, (portOf t p).queue = (portOf s p).queue ++ [f] ∧ f.cls = 5 ∧
          f.bytes = enpMessage 0x05 2 0xFF 0 0xFFFFFFFF q time pay)) ∧
      (∃ t, exec (.blackoutOff fn) s = .next t ∧ on t fld.epBlackout.BLACKOUT_ON = false ∧
        (on s fld.epCtrl.EN = false → t.prt = s.prt) ∧
        (on s fld.epCtrl.EN = true → ∀ p, p < 32 → portSends s p = true → ∃ f q,
          (portOf t p).queue = (portOf s p).queue ++ [f] ∧ f.cls = 5 ∧
          f.bytes = enpMessage 0x05 0 0xFF 0 0xFFFFFFFF q time pay))) ∧
    (on s fld.epBlackout.BLACKOUT_ON = true → ∃ t, exec .blackoutRepeat s = .next t ∧ t.ot = timeAt s s.epg.blackAt ∧
      t.epg.blackAt = s.epg.blackAt + 100000000 ∧ (on s fld.epCtrl.EN = false → t.prt = s.prt) ∧
      (on s fld.epCtrl.EN = true → ∀ p, p < 32 → portSends s p = true → ∃ f, (portOf t p).queue = (portOf s p).queue ++ [f] ∧ f.cls = 5)) ∧
    (∀ u v p, u < 8192 → Writable s fn .univCtrl u 0 → on s fld.univCtrl.EN u = true → v.toNat / 2 ^ 22 % 2 = 0 →
      on s fld.epCtrl.EN = true →
      p = get s fld.univCtrl.PORT u → portSends s p = true → ∃ t fs, exec (.streamTerminated fn u v) s = .next t ∧
      (portOf t p).queue = (portOf s p).queue ++ fs ∧ fs.length = 3 ∧ (∀ f ∈ fs, f.cls = 4) ∧
      get t fld.univSeq.SEQ u = (get s fld.univSeq.SEQ u + 3) % 256 ∧
      rd t .univCtrl u = rd (plainWrite (isPf fn) .univCtrl u 0 v s) .univCtrl u) ∧
    (∀ c e at_, canLatch s c = true → e = txEp s c →
      (Map.find? s.epg.latched c ≠ some e → at_ = guardInst s c e → ∃ t, exec (.latch c) s = .next t ∧ t.ot = timeAt s at_ ∧
        Map.find? t.epg.latched c = some e ∧
        (mode s = 4 → t.prt = s.prt) ∧
        (mode s ≠ 4 → ∀ p, p < 32 → portSends s p = true → p ∈ (latchPorts (snapAt s c e).etab c).map (fun x => x.1) →
          ∃ f, (portOf t p).queue = (portOf s p).queue ++ [f] ∧ f.cls = 7 ∧ f.src = .enp 0x02 c e ∧ f.launch = at_)) ∧
      (mode s = 4 → on s fld.canvasStatus.RESTING c = true → ∃ t, exec (.beacon c) s = .next t ∧
        Map.find? t.epg.beaconAt c = some t.ot ∧
        (∀ b, Map.find? s.epg.beaconAt c = some b → t.ot = timeAt s (b + 1000000000)) ∧
        ∀ p, p < 32 → portSends s p = true → p ∈ (latchPorts (snapAt s c e).etab c).map (fun x => x.1) →
          ∃ f, (portOf t p).queue = (portOf s p).queue ++ [f] ∧ f.cls = 7 ∧ f.src = .enp 0x02 c e) ∧
      (get s fld.sacnSync.SACN_SYNC c ≠ 0 → Map.find? s.epg.synced c ≠ some e →
        at_ = latchOf s c e - BitVec.ofNat 64 (get s fld.sacnSyncAdv.SACN_SYNC_ADV c) →
        ∃ t, exec (.sacnSync c) s = .next t ∧ t.ot = timeAt s at_ ∧ Map.find? t.epg.synced c = some e ∧
        ∀ p, p < 16 → portSends s p = true → (∃ u ∈ canvasUnivs s c, get s fld.univCtrl.PORT u = p) →
          ∃ f, (portOf t p).queue = (portOf s p).queue ++ [f] ∧ f.cls = 7 ∧ f.src = .sacn c e ∧ f.launch = at_)) ∧
    (∀ p, p < dmxPorts s.member →
      (∀ c f, c = get s fld.dmxCanvas.DMX_CANVAS p → on s fld.dmxCanvas.DMX_EN p = true → on s fld.epCtrl.EN = true → mode s ≠ 7 →
        blockTested s 26 = false → canvasRuns s c = true →
        dmxDue s p = true → fclock s (canvasFc s c) = some f → ∃ t, exec (.dmxPacketStart p) s = .next t ∧
        (dmxOf t p).busy = some (s.ot + BitVec.ofNat 64 (dmxTime s p)) ∧ (dmxOf t p).started = some (f.inst (f.cur s.ot)) ∧
        (dmxOf t p).slots = (dmxSlotBytes s p c).take (get s fld.dmxSlots.SLOTS p)) ∧
      (on s fld.epCtrl.EN = false → exec (.dmxPacketStart p) s = .next s) ∧
      (∀ b, (dmxOf s p).busy = some b → ∃ t, exec (.dmxPacketEnd p) s = .next t ∧ t.ot = timeAt s b ∧
        (dmxOf t p).busy = none ∧ counter t Cnt.dmxPkt.ctorIdx = counter s Cnt.dmxPkt.ctorIdx + 1)) ∧
    (∀ p h g q m es, rxRoute s p h = .stat g → q = statOf g → on s fld.epCtrl.EN = true → standby s = false →
      m = publishedEtab s →
      es = (nodeEntries m q.node).filter (fun e => eCanvas m e == q.canvas.toNat) →
      (q.malformed = true ∨ es = [] ∨ (∃ r ∈ q.records, r.output.toNat ∉ es.map (eOutput m)) →
        ∃ t, exec (.stat p h) s = .next t ∧ t.ot = timeAt s h.at_ ∧ t.epg = s.epg ∧
        hasBit t fld.epEvent.EP_EVENT 5 = true ∧ counter t Cnt.statErr.ctorIdx = counter s Cnt.statErr.ctorIdx + 1) ∧
      (q.malformed = false → es ≠ [] →
        (∀ r ∈ q.records, r.output.toNat ∈ es.map (eOutput m)) → ∃ t, exec (.stat p h) s = .next t ∧
        t.ot = timeAt s h.at_ ∧ ∀ e ∈ es, (epOf t e).lost = false ∧ (epOf t e).epoch = q.epoch ∧
          (epOf t e).miss = (q.sflags.toNat % 2 == 1) ∧
          (epOf t e).temp = if q.temp = 0x80 then (epOf s e).temp else q.temp.toNat)) ∧
    (∀ e m c f g, m = publishedEtab s → c = eCanvas m e → fclock s (canvasFc s c) = some f → eValid m e = true →
      eTransport m e < 2 → (epOf s e).lost = false → on s fld.epCtrl.EN = true → standby s = false → g = eKillg m e →
      ∃ t, exec (.nodeLost e) s = .next t ∧ (epOf t e).lost = true ∧ hasBit t fld.epEvent.EP_EVENT 4 = true ∧
        t.ot = timeAt s (f.inst ((epOf s e).since +
          BitVec.ofNat 64 (get s fld.epTiming.LOST_N * get s fld.epTiming.STAT_N))) ∧
        (memberNow s g e = true → on s fld.kg.LOSTKILL g = true → on t fld.kg.KILLED g = true))
/-- R208, R210, R211: SET_GO steps outward time where every frame clock is stopped, and else raises the time error; a read
of OT_LO copies the high word and the fraction. R212, R213, R214, R215, R217: MEAS_PUSH filters its record and runs the
servo for the followed domain; ANN_KICK and its time-out, EN of a domain, and SEL. R229, R230, R231, R233, R389: a frame clock starts on the grid of its registers and stops where no enabled canvas is
bound to it; a write outside the limits is refused; a change of rate or phase takes its place in the grid; a read of
NEXT_LO copies the next instant. R226: the oldest timestamp is popped, and a flush discards all. R236, R237: PPS and the
10 MHz reference. -/
def Obligations.TimeAndClocksWork : Prop :=
  ∀ (s : State) (fn : Nat),
    ((Writable s fn .setGo 0 0 → ∃ t, exec (.setGo fn) s = .next t ∧
        (clocksStopped s = true → t.ot = BitVec.ofNat 64 ((rd s .setLo).toNat + 2 ^ 32 * (rd s .setHi).toNat) ∧ t.otFrac = 0 ∧
          on t fld.timeStatus.STEPPED = true) ∧
        (clocksStopped s = false → t.ot = s.ot ∧ hasBit t fld.timeEvent.TIME_EVENT 6 = true)) ∧
      (Reaches s fn .otLo 0 0 → ∃ t, exec (.otLoRead fn) s = .next t ∧
        t.rdata = leBytes 4 (s.ot.toNat % 2 ^ 32) ∧ rd t .otHi = BitVec.ofNat 32 (s.ot.toNat / 2 ^ 32) ∧
        rd t .otFrac = BitVec.ofNat 32 (s.otFrac.toNat / 2 ^ 32)) ∧
      (∀ d x, d < 2 → x = domOf s d →
        (∀ m delay, m = measOf s d → delay = measDelay (on s fld.domCfg.MODE d) m → Writable s fn .measPush d 0 →
          on s fld.timeCtrl.EN = true → x.st ≠ 0 →
          ∃ t, exec (.measPush fn d) s = .next t ∧
            (delay < 0 ∨ (8 ≤ x.total ∧ (10 * x.davg + 1000 * 65536 : Int) < delay) → t.tim = s.tim ∧ t.ot = s.ot ∧
              t.otFrac = s.otFrac ∧ rd t .timeStatus = rd s .timeStatus ∧ rd t .domSamples d = rd s .domSamples d ∧
              counter t Cnt.sampleRej.ctorIdx = counter s Cnt.sampleRej.ctorIdx + 1) ∧
            (¬ (delay < 0 ∨ (8 ≤ x.total ∧ (10 * x.davg + 1000 * 65536 : Int) < delay)) → ∀ davg theta, davg = (if x.total = 0 then delay
                else x.davg + (delay - x.davg).tdiv (2 ^ get s fld.annTo.DELAY_SHIFT : Nat)) →
              theta = timeDiff m.a m.b * 65536 + davg + asymOf s d * 65536 →
              rd t .domSamples d = rd s .domSamples d + 1 ∧
              domOf t d = { x with
                theta := theta, davg := davg, rate := domRate s x theta m.b, prevTheta := theta, prevB := m.b
                total := x.total + 1, run := x.run + 1
                alarms := if (alarmStep s d theta).1 then 0 else (alarmStep s d theta).2
                st := if (alarmStep s d theta).1 then 3 else if x.st = 1 ∧ 8 ≤ x.run + 1 then 2 else x.st } ∧
              (x.st = 2 → actDom s = d → on s fld.timeStatus.HOLDOVER = false → followsTwin s = false →
                (alarmStep s d theta).1 = false → t.tim.acc = (servoStep s theta).1 ∧ t.tim.adj = (servoStep s theta).2))) ∧
        (Writable s fn .annKick d 0 → x.st ≠ 0 → ∃ t, exec (.annKick fn d) s = .next t ∧
          domOf t d = { x with annAt := s.ot, st := if x.st = 3 then 1 else x.st, run := if x.st = 3 then 0 else x.run }) ∧
        (x.st = 2 → ∃ t, exec (.announceTimeout d) s = .next t ∧ domOf t d = { x with st := 3, alarms := 0 } ∧
          t.ot = timeAt s (x.annAt + BitVec.ofNat 64 (get s fld.annTo.ANN_TO_MS * 1000000)) ∧
          counter t Cnt.domLost.ctorIdx = counter s Cnt.domLost.ctorIdx + 1 ∧
          (actDom s = d → followsTwin s = false → (tracks s (1 - d) && on s fld.timeCtrl.AUTO) = true → actDom t = 1 - d ∧
            on t fld.timeStatus.SWITCHING = true) ∧
          (actDom s = d → followsTwin s = false → (tracks s (1 - d) && on s fld.timeCtrl.AUTO) = false →
            on t fld.timeStatus.HOLDOVER = true)) ∧
        (∀ v u, Writable s fn .domCfg d 0 → u = plainWrite (isPf fn) .domCfg d 0 v s →
          ∃ t, exec (.domEnWrite fn d v) s = .next t ∧ rd t .domCfg d = rd u .domCfg d ∧
            (on s fld.domCfg.EN d = false → on u fld.domCfg.EN d = true → domOf t d = { domOff with
              st := 1, theta := x.theta, annAt := s.ot }) ∧
            (on s fld.domCfg.EN d = true → on u fld.domCfg.EN d = false → domOf t d = { x with st := 0 } ∧
              (x.st = 2 → actDom s = d → followsTwin s = false → on t fld.timeStatus.HOLDOVER = true)))) ∧
      (∀ v u, Writable s fn .timeCtrl 0 0 → u = plainWrite (isPf fn) .timeCtrl 0 0 v s →
        ∃ t, exec (.timeSelWrite fn v) s = .next t ∧ rd t .timeCtrl = rd u .timeCtrl ∧
          (get u fld.timeCtrl.SEL ≠ get s fld.timeCtrl.SEL →
            (anyCanvas s = true ∨ tracks s (get u fld.timeCtrl.SEL) = false ∨ followsTwin s = true → on t fld.timeStatus.PENDING = true ∧ actDom t = actDom s) ∧
            (anyCanvas s = false → tracks s (get u fld.timeCtrl.SEL) = true → followsTwin s = false → on t fld.timeStatus.PENDING = false ∧
              actDom t = get u fld.timeCtrl.SEL)))) ∧
    ((∀ n v u, n < 4 → Writable s fn .fcCtrl n 0 → u = plainWrite (isPf fn) .fcCtrl n 0 v s →
        ∀ i, i = .fcEnable fn n v ∨ i = .fcCtrlWrite fn n v →
        ((rateOf (v.toNat / 2 % 32)).isNone = true ∨ periodOf (v.toNat / 2 % 32) ≤ get s fld.fcPhase.PHASE n →
          ∃ t, exec i s = .next t ∧ on t fld.fcStatus.CFG_ERR n = true ∧ hasBit t fld.timeEvent.TIME_EVENT 7 = true ∧
            rd t .fcCtrl n = rd s .fcCtrl n ∧ t.tim = s.tim) ∧
        ((rateOf (v.toNat / 2 % 32)).isSome = true → get s fld.fcPhase.PHASE n < periodOf (v.toNat / 2 % 32) →
          ∃ t, exec i s = .next t ∧ on t fld.fcStatus.CFG_ERR n = false ∧ get t fld.fcCtrl.RATE n = get u fld.fcCtrl.RATE n ∧
            (on s fld.fcCtrl.EN n = false → on u fld.fcCtrl.EN n = true → on t fld.fcStatus.RUN n = true ∧
              ∃ f, fclock t n = some f ∧ f.segs = [⟨0, get u fld.fcCtrl.RATE n, get s fld.fcPhase.PHASE n, fbaseOf s n⟩] ∧
                f.seen = frameFrom (s.ot.toNat + 1) f.segs - 1) ∧
            (on s fld.fcCtrl.EN n = true → on u fld.fcCtrl.EN n = false → fcBound s n = false →
              on t fld.fcStatus.RUN n = false ∧ fclock t n = none) ∧
            (on s fld.fcCtrl.EN n = true → fcBound s n = true → on t fld.fcCtrl.EN n = true) ∧
            (on s fld.fcCtrl.EN n = true → on u fld.fcCtrl.EN n = true → get s fld.fcCtrl.RATE n ≠ v.toNat / 2 % 32 →
              ∀ f, fclock s n = some f →
              fclock t n = some { f with segs := changedSegs f s.ot (get u fld.fcCtrl.RATE n) (get s fld.fcPhase.PHASE n) }))) ∧
      (∀ n v u, n < 4 → Writable s fn .fcPhase n 0 → u = plainWrite (isPf fn) .fcPhase n 0 v s →
        (periodOf (get s fld.fcCtrl.RATE n) ≤ v.toNat % 2 ^ 30 →
          ∃ t, exec (.fcPhaseWrite fn n v) s = .next t ∧ on t fld.fcStatus.CFG_ERR n = true ∧
            hasBit t fld.timeEvent.TIME_EVENT 7 = true ∧ rd t .fcPhase n = rd s .fcPhase n ∧ t.tim = s.tim) ∧
        (v.toNat % 2 ^ 30 < periodOf (get s fld.fcCtrl.RATE n) →
          ∃ t, exec (.fcPhaseWrite fn n v) s = .next t ∧ on t fld.fcStatus.CFG_ERR n = false ∧ rd t .fcPhase n = rd u .fcPhase n ∧
            (get u fld.fcPhase.PHASE n ≠ get s fld.fcPhase.PHASE n → ∀ f, fclock s n = some f →
              fclock t n = some { f with segs := changedSegs f s.ot (get s fld.fcCtrl.RATE n) (get u fld.fcPhase.PHASE n) }))) ∧
      (∀ n, n < 4 → Reaches s fn .nextLo n 0 → ∃ t, exec (.nextLoRead fn n) s = .next t ∧
        (fclock s n = none → t.rdata = leBytes 4 0) ∧
        ∀ f, fclock s n = some f → t.rdata = leBytes 4 ((f.inst (f.next s.ot)).toNat % 2 ^ 32) ∧
          rd t .nextHi n = BitVec.ofNat 32 ((f.inst (f.next s.ot)).toNat / 2 ^ 32) ∧
          rd t .nextEpoch n = BitVec.ofNat 32 (f.next s.ot).toNat) ∧
      (∀ p poison, p < 32 → Reaches s fn .tsqE0 p 0 → ∃ t, exec (.tsqPop fn p poison) s = .next t ∧
        ((portOf s p).tsq = [] → t.rdata = leBytes 4 0) ∧
        ∀ e rest, (portOf s p).tsq = e :: rest → (portOf t p).tsq = rest ∧ t.rdata = leBytes 4 ((tsWords e poison).getD 0 0).toNat ∧
          rd t .tsqE1 p = (tsWords e poison).getD 1 0 ∧ rd t .tsqE2 p = (tsWords e poison).getD 2 0 ∧
          rd t .tsqE3 p = (tsWords e poison).getD 3 0 ∧
          (poison ≠ 0 → s.hst.parity = [] → counter t Cnt.poison.ctorIdx = counter s Cnt.poison.ctorIdx + 1)) ∧
      (∀ p, p < 32 → Writable s fn .tsqCtrl p 0 → ∃ t, exec (.tsqFlush fn p) s = .next t ∧ (portOf t p).tsq = []) ∧
      (∀ at_ frac, mode s ≠ 0 → ∃ t, exec (.ppsInEdge at_ frac) s = .next t ∧ t.ot = timeAt s at_ ∧
        t.tim.ppsIn = some (at_ - BitVec.ofInt 64 (sgn 32 (effCal s fld.ppsInAdj.PPS_IN_ADJ)), frac)) ∧
      (Reaches s fn .ppsInLo 0 0 → ∃ t, exec (.ppsInLoRead fn) s = .next t ∧ ∀ x f, s.tim.ppsIn = some (x, f) →
        t.rdata = leBytes 4 (x.toNat % 2 ^ 32) ∧ rd t .ppsInHi = BitVec.ofNat 32 (x.toNat / 2 ^ 32) ∧
        rd t .ppsInFrac = BitVec.ofNat 32 f.toNat) ∧
      (∀ i last x, i < 2 → mode s ≠ 0 → mode s ≠ 7 → on s fld.ppsOut.EN i = true → get s fld.ppsOut.SRC i ≠ 3 →
        last = Map.get (fun _ => s.ot - 1) s.tim.ppsLast i →
        x = ppsNext s i (if timeDiff last (s.ot - 1) > 0 then last else s.ot - 1) →
        ∃ t, exec (.ppsOutPulse i) s = .next t ∧ t.ot = timeAt s x ∧ Map.find? t.tim.ppsLast i = some x ∧
          Map.find? t.tim.ppsFall i = some (x + BitVec.ofNat 64 (1000 * get s fld.ppsOut.WIDTH i))) ∧
      (∀ at_, ∃ t, exec (.ref10Window at_) s = .next t ∧ t.ot = timeAt s at_ ∧ t.tim.ref10 = some at_ ∧
        on t fld.timeStatus.REF10_OK = true ∧
        ∀ x, s.tim.ref10 = some x → rd t .ref10Err = BitVec.ofInt 32 (timeDiff at_ x - 1000000000)) ∧
      (on s fld.timeStatus.REF10_OK = true → ∃ t, exec .ref10Loss s = .next t ∧ on t fld.timeStatus.REF10_OK = false ∧
        t.tim.ref10 = none ∧ hasBit t fld.timeEvent.TIME_EVENT 8 = true) ∧
      (∀ at_, on s fld.timeStatus.REF10_OK = false → ∃ t, exec (.ref10Return at_) s = .next t ∧
        on t fld.timeStatus.REF10_OK = true ∧ t.tim.ref10 = some at_ ∧ t.ot = timeAt s at_))
/-- R225 to R228, R242 to R245, R308: a frame starts. R226, R248: it ends. R242, R247: a frame from a TX ring. R245: a gate cycle, and
SWAP. R390, R240: a port disabled, and block lock. R250, R251: pause, its end, its watchdog. R252, R253: LPI. R265, R266: a
collision, its back-off, the PLCA beacon. R268: RDM. R368: a bandwidth window. -/
def Obligations.PortsWork : Prop :=
  ∀ (s : State) (fn p : Nat),
    (∀ f n, p < 32 → portReady s p = true → n = wireTime s p f → f.cls < 8 → headOf (portOf s p) f.cls = some f →
      (∀ k, f.cls < k → k < 8 → headOf (portOf s p) k = none) → gateTooShort s p f.cls n = false →
      (f.launch = 0 ∨ 0 ≤ timeDiff s.ot f.launch) → Map.find? (portOf s p).paused f.cls = none →
      gateAdmits s p f.cls n = true → classOpen s f.cls = true →
      ((portOf s p).judged = true ∨ lateBy s f = false ∨ on s fld.late.ACT f.cls = true) →
      ∃ t g, exec (.frameStart p) s = .next t ∧ (portOf t p).wire = some g ∧ (portOf t p).wireAt = s.ot ∧
        (portOf t p).queue = (portOf s p).queue.erase f ∧ g = { f with late := g.late, bytes := g.bytes } ∧
        g.late = (f.late || (!(portOf s p).judged && lateBy s f)) ∧ (portOf t p).octets = wireOctets s p g ∧
        (on s fld.pcfg.MASTER p = false ∨ on s fld.pcfg.ONE_STEP p = false ∨ f.dest.isSome = true → g.bytes = f.bytes)) ∧
    (∀ f, p < 32 → (portOf s p).wire = some f → ∃ t, exec (.txFrameEnd p) s = .next t ∧
      t.ot = timeAt s ((portOf s p).wireAt + BitVec.ofNat 64 (wireTime s p f)) ∧ (portOf t p).wire = none ∧
      (portOf t p).last = some f ∧ (portOf t p).queue = (if (portOf s p).dropDue then [] else (portOf s p).queue) ∧
      ∀ k, k = (if p < 16 then ethCnt p 0 else t1sCnt (p - 16) 0) → counter t k = counter s k + 1) ∧
    (∀ r d ds data b, r < 64 → ringRuns s r 4 = true → on s fld.ringCtrl.FLUSH r = false → blockTested s 24 = false → (d :: ds).length ≤ ringOcc s r →
      (d :: ds).length ≤ 16 → b = (if d.vins then insertTag (d.pcp.toNat * 4096 * 2 + d.vid.toNat) data else data) →
      b.length ≤ 9600 → portSends s d.port.toNat = true → ∃ t, exec (.txDescriptorFrame r (d :: ds) data false) s = .next t ∧
      get t fld.ringHead.HEAD r = (get s fld.ringHead.HEAD r + (d :: ds).length) % ringSize s r % 65536 ∧
      (portOf t d.port.toNat).queue = (portOf s d.port.toNat).queue ++ [⟨d.tc.toNat, d.launch,
        .ring r (get s fld.ringHead.HEAD r), none, b, b.length, d.tag, d.tsreq, false⟩]) ∧
    (∀ x, p < 16 → portPresent s.member p = true → (portOf s p).gateOn = none → on s fld.gateCtrl.GATE_EN p = true →
      nextCycle s (get s fld.gateCtrl.GATE_FC p) (rd s .gateOfs p) (laterOf (portOf s p).cycle (s.ot - 1)) = some x →
      ∃ t, exec (.gateCycleStart p) s = .next t ∧ t.ot = timeAt s x ∧ (portOf t p).cycle = x ∧
        (portOf t p).gateOn = some (get s fld.gateCtrl.GATE_FC p, rd s .gateOfs p) ∧
        (on s fld.gateCtrl.SWAP p = false → (portOf t p).active = (portOf s p).active) ∧
        (on s fld.gateCtrl.SWAP p = true → get s fld.gateCtrl.LEN p ≤ 256 → (portOf t p).active = spareList s p ∧
          on t fld.gateCtrl.SWAP p = false ∧ get t fld.gateCtrl.BANK p = 1 - get s fld.gateCtrl.BANK p ∧
          get t fld.gateCtrl.LEN p = (portOf s p).gateLen % 512 ∧
          ∀ i, i < 256 → spareEntry t p i = Map.get (fun _ => gateReset) (portOf s p).gate i)) ∧
    (∀ v, p < 16 → Writable s fn .gateCtrl p 0 → ∃ t, exec (.swap fn p v) s = .next t ∧
      (v.toNat / 8 % 2 = 1 → on t fld.gateCtrl.SWAP p = true) ∧ get t fld.gateCtrl.LEN p =
        (if 1 ≤ v.toNat / 256 % 512 ∧ v.toNat / 256 % 512 ≤ 256 then v.toNat / 256 % 512 else get s fld.gateCtrl.LEN p)) ∧
    (∀ v, v.toNat % 2 = 0 →
      (p < 16 → Writable s fn .macCtrl p 0 → on s fld.macCtrl.EN p = true → ∃ t, exec (.portDisable fn p v) s = .next t ∧
        on t fld.macCtrl.EN p = false ∧ on t fld.portStatus.LINK p = false ∧ (portOf t p).wire = (portOf s p).wire ∧
        ((portOf s p).wire = none → (portOf t p).queue = []) ∧
        ((portOf s p).wire ≠ none → (portOf t p).queue = (portOf s p).queue ∧ (portOf t p).dropDue = true) ∧
        (on s fld.portStatus.LINK p = true → hasBit t fld.portEvent.PORT_EVENT 0 p = true)) ∧
      (p < 16 → Writable s fn .t1sCtrl p 0 → on s fld.t1sCtrl.EN p = true →
        ∃ t, exec (.portDisable fn (16 + p) v) s = .next t ∧ on t fld.t1sCtrl.EN p = false ∧ on t fld.t1sStatus.PLCA p = false ∧
          ((portOf s (16 + p)).wire = none → (portOf t (16 + p)).queue = []) ∧
          ((portOf s (16 + p)).wire ≠ none → (portOf t (16 + p)).queue = (portOf s (16 + p)).queue ∧
            (portOf t (16 + p)).dropDue = true))) ∧
    (∀ h m cls q, p < 16 → rxRoute s p h = .pause m → cls < 8 → Map.find? (portOf s p).wdEnd cls = none →
      ((∃ x, m = .pause x ∧ get s fld.macCtrl.PAUSE_MODE p = 1 ∧ q = x.toNat) ∨
        (∃ en qs, m = .pfc en qs ∧ get s fld.macCtrl.PAUSE_MODE p = 2 ∧ opens en cls = true ∧ q = (qs.getD cls 0).toNat)) →
      ∃ t, exec (.pauseFrame p h) s = .next t ∧ t.ot = timeAt s h.at_ ∧
        counter t (ethCnt p 10) = counter s (ethCnt p 10) + 1 ∧ Map.find? (portOf t p).paused cls =
          if q = 0 then none else some (t.ot + BitVec.ofNat 64 ((q * 512 * bitTime s p + 99) / 100))) ∧
    (∀ cls x, Map.find? (portOf s p).paused cls = some x →
      (∃ t, exec (.pauseExpire p cls) s = .next t ∧ t.ot = timeAt s x ∧ Map.find? (portOf t p).paused cls = none ∧
        ∀ k, k ≠ cls → Map.find? (portOf t p).paused k = Map.find? (portOf s p).paused k) ∧
      (∀ w, w = Map.get (fun _ => s.ot) (portOf s p).pausedAt cls + BitVec.ofNat 64 (get s fld.pauseCfg.PAUSE_WD p * 1000) →
        0 < timeDiff x w → ∃ t, exec (.pauseWdTrip p cls) s = .next t ∧ t.ot = timeAt s w ∧
        Map.find? (portOf t p).paused cls = none ∧ hasBit t fld.portEvent.PORT_EVENT 1 p = true ∧
        counter t (ethCnt p 11) = counter s (ethCnt p 11) + 1 ∧ Map.find? (portOf t p).wdEnd cls =
          some (t.ot + BitVec.ofNat 64 (get s fld.pauseCfg.PAUSE_REC p * 1000000)))) ∧
    (∀ cls x, Map.find? (portOf s p).wdEnd cls = some x → ∃ t, exec (.pauseRecEnd p cls) s = .next t ∧ t.ot = timeAt s x ∧
      Map.find? (portOf t p).wdEnd cls = none) ∧
    (p < 16 →
      (portSends s p = true → on s fld.macCtrl.LPI_EN p = true → on s fld.eeeCfg.EEE_OK p = true →
        on s fld.portStatus.LPI_TX p = false → (portOf s p).queue = [] → (portOf s p).wire = none →
        ∃ t, exec (.lpiEnter p) s = .next t ∧ on t fld.portStatus.LPI_TX p = true ∧
          t.ot = timeAt s ((portOf s p).idleAt + BitVec.ofNat 64 (get s fld.lpiCfg.LPI_IDLE p * 1000)) ∧
          counter t (ethCnt p 14) = counter s (ethCnt p 14) + 1) ∧
      (on s fld.portStatus.LPI_TX p = true →
        ((portOf s p).queue ≠ [] → ∃ t, exec (.lpiWake p) s = .next t ∧ on t fld.portStatus.LPI_TX p = false ∧
          (portOf t p).wakeAt = some (t.ot + BitVec.ofNat 64 (wakeTime s p)) ∧
          t.ot = match firstLaunch (portOf s p).queue with
            | some x => timeAt s (x - BitVec.ofNat 64 (wakeTime s p))
            | none => s.ot) ∧
        (∀ v, v.toNat / 2 ^ 16 % 2 = 0 → Writable s fn .eeeCfg p 0 → ∃ t, exec (.eeeOkWrite fn p v) s = .next t ∧
          on t fld.eeeCfg.EEE_OK p = false ∧ on t fld.portStatus.LPI_TX p = false ∧
          (portOf t p).wakeAt = some (t.ot + BitVec.ofNat 64 (wakeTime t p)))) ∧
      (∀ up lpi, portPresent s.member p = true → ∃ t, exec (.linkChange p up lpi) s = .next t ∧
        on t fld.portStatus.LINK p = (on s fld.macCtrl.EN p && up) ∧
        on t fld.portStatus.LPI_RX p = (lpi && on s fld.macCtrl.EN p && up) ∧
        (on s fld.portStatus.LINK p ≠ (on s fld.macCtrl.EN p && up) → hasBit t fld.portEvent.PORT_EVENT 0 p = true))) ∧
    (16 ≤ p → p < 32 →
      (∀ f l, (portOf s p).wire = some f → plcaRuns s (p - 16) = false → ∃ t,
        exec (.t1sCollision p l) s = .next t ∧ (portOf t p).wire = none ∧
        counter t Cnt.t1sColl.ctorIdx = counter s Cnt.t1sColl.ctorIdx + 1 ∧
        ((portOf s p).dropDue = true → (portOf t p).queue = []) ∧
        (16 ≤ (portOf s p).coll + 1 → (portOf t p).coll = 0 ∧ on t fld.t1sStatus.EXCESS (p - 16) = true ∧
          ((portOf s p).dropDue = false → (portOf t p).queue = (portOf s p).queue)) ∧
        ((portOf s p).coll + 1 < 16 → (portOf s p).dropDue = false → (portOf t p).coll = (portOf s p).coll + 1 ∧
          (portOf t p).queue = f :: (portOf s p).queue ∧ ∃ k, k < 2 ^ Nat.min ((portOf s p).coll + 1) 10 ∧
          (portOf t p).backoff = some (s.ot + BitVec.ofNat 64 (k * 512 * bitTime s p / 100)))) ∧
      (∀ active, portHears s p = true → on s fld.t1sCtrl.PLCA_EN (p - 16) = true → get s fld.t1sCtrl.NODE_ID (p - 16) ≠ 0 →
        ∃ t, exec (.plcaBeaconChange p active) s = .next t ∧ on t fld.t1sStatus.PLCA (p - 16) = active)) ∧
    (∀ x, (portOf s p).backoff = some x → ∃ t, exec (.backoffExpire p) s = .next t ∧ t.ot = timeAt s x ∧
      (portOf t p).backoff = none) ∧
    (p < 8 →
      (∀ v, Writable s fn .rdmCtrl p 0 → v.toNat % 2 = 1 → on s fld.rdmStatus.BUSY p = false →
        ∃ t, exec (.go fn p v) s = .next t ∧ on t fld.rdmStatus.BUSY p = true ∧
          ((dmxOf s p).busy ≠ none → (dmxOf t p).rdm = 1) ∧
          ((dmxOf s p).busy = none → (dmxOf t p).rdm = 2 ∧ ∀ n, n = get t fld.rdmCtrl.LEN p →
            (dmxOf t p).req = ((List.range 65).flatMap (fun k => leBytes 4 (rd s .rdmTx p k).toNat)).take n ∧
            (dmxOf t p).freeAt = s.ot + BitVec.ofNat 64 ((Nat.max 176 (get s fld.dmxTiming.BREAK_US p) +
              get s fld.dmxTiming.MAB_US p + n * 44) * 1000))) ∧
      (∀ brk heard err resp, (dmxOf s p).rdm = 2 → resp = (if brk = on s fld.rdmCtrl.DISC p then [] else heard) →
        ∃ t, exec (.rdmListenEnd p brk heard err) s = .next t ∧ (dmxOf t p).rdm = 0 ∧
        t.ot = timeAt s ((dmxOf s p).freeAt + (if resp.isEmpty && !err then 2800000 else 0)) ∧
        on t fld.rdmStatus.BUSY p = false ∧ on t fld.rdmStatus.DONE p = true ∧ on t fld.rdmStatus.ERR p = err ∧
        on t fld.rdmStatus.TIMEOUT p = (resp.isEmpty && !err) ∧ on t fld.rdmCtrl.GO p = false ∧
        get t fld.rdmStatus.RX_LEN p = resp.length % 512)) ∧
    (∀ fin, p < 32 → portPresent s.member p = true → on s fld.bwCtrl.BW_EN p = true → bwEnd s p = some fin →
      ∃ t, exec (.bwWindowEnd p) s = .next t ∧ t.ot = timeAt s fin ∧ rd t .bwSeq p = rd s .bwSeq p + 1 ∧
        rd t .rxBytes p = BitVec.ofNat 32 (portOf s p).bwRx ∧
        (∀ c, c < 8 → rd t .txBytes p c = BitVec.ofNat 32 (Map.get (fun _ => 0) (portOf s p).bwTx c)) ∧
        (portOf t p).bwTx = [] ∧ (portOf t p).bwRx = 0 ∧ (portOf t p).bwAt = fin)
/-- R254 to R257, R186: frames received, filtered, delivered to a host's ring with the entry written back, or in error. R258,
R259: a leg and the merge of two. R260: video rows. R261: an audio sample. R262: timecode and its loss. R263: sACN sources. -/
def Obligations.ReceptionWorks : Prop :=
  ∀ (s : State) (p : Nat),
    (∀ m i v w x y ovf, p < 16 → rxRoute s p m = .filtered →
      i ∈ [.stat p m, .pauseFrame p m, .serviceFrameRx p m, .flowFrameRx p m, .badFrameRx p m, .videoPacketRx p m v ovf,
        .audioPacketRx p m w ovf, .ancPacketRx p m x ovf, .sacnPacketRx p m y] → ∃ t, exec i s = .next t ∧ t.ot = timeAt s m.at_ ∧
        counter t (ethCnt p 1) = counter s (ethCnt p 1) + 1 ∧ counter t (ethCnt p 6) = counter s (ethCnt p 6) + 1) ∧
    (∀ m i r bs, p < 16 → m.poisoned = false → svcTmpls s r = [] →
      ((bs = m.bytes ∧
        ((i = .serviceFrameRx p m ∧ rxRoute s p m = .service none ∧ on s fld.rxDef.SVC_EN p = true ∧
            r = get s fld.rxDef.SVC_RING p) ∨
          (∃ f, i = .flowFrameRx p m ∧ rxRoute s p m = .flow f ∧ get s fld.flowCtrl.KIND p f = 0 ∧
            r = get s fld.flowCtrl.TARGET p f) ∨
          (i = .flowFrameRx p m ∧ rxRoute s p m = .other ∧ on s fld.rxDef.DEF_EN p = true ∧ r = get s fld.rxDef.DEF_RING p))) ∨
        (∃ flags, bs = m.bytes.take (get s fld.macCtrl.MAX_LEN p) ∧ i = .badFrameRx p m ∧ rxRoute s p m = .bad flags ∧
          on s fld.macCtrl.BAD_DELIVER p = true ∧ r = get s fld.rxDef.DEF_RING p)) →
      (ringRuns s r 3 = false ∨ on s fld.ringCtrl.FLUSH r = true ∨ postedOn s r = [] → ∃ t, exec i s = .next t ∧
        t.hmem = s.hmem ∧ counter t (ethCnt p 7) = counter s (ethCnt p 7) + 1) ∧
      (∀ b rest fh, ringRuns s r 3 = true → on s fld.ringCtrl.FLUSH r = false → postedOn s r = b :: rest → 0 < ringOcc s r →
        bs.length ≤ b.size → fh = get s fld.ringCtrl.FN r → ∃ t, exec i s = .next t ∧ t.ot = timeAt s m.at_ ∧
        get t fld.ringHead.HEAD r = (get s fld.ringHead.HEAD r + 1) % ringSize s r % 65536 ∧ postedOn t r = rest ∧
        ∀ k entry wb, k < bs.length → entry = hostKey fh (ringAddr s r (get s fld.ringHead.HEAD r) + 8) →
          wb = hostKey fh (get s fld.ringWbLo.WB_LO r + 2 ^ 32 * get s fld.ringWbHi.WB_HI r) →
          ¬ (entry ≤ hostKey fh b.addr.toNat + k ∧ hostKey fh b.addr.toNat + k < entry + 24) →
          ¬ (wb ≤ hostKey fh b.addr.toNat + k ∧ hostKey fh b.addr.toNat + k < wb + 4) →
          memGet t.hmem (hostKey fh b.addr.toNat + k) = bs.getD k 0)) ∧
    (∀ m q, rxRoute s p m = .service (some q) → q.node = 0 → svcOn s = true → ∃ t, exec (.serviceFrameRx p m) s = .next t ∧
      hasBit t fld.epEvent.EP_EVENT 7 = true) ∧
    (∀ m flags, rxRoute s p m = .bad flags → ∃ t, exec (.badFrameRx p m) s = .next t ∧ t.ot = timeAt s m.at_ ∧
      (p < 16 → counter t (ethCnt p (2 + firstBad flags)) = counter s (ethCnt p (2 + firstBad flags)) + 1) ∧
      (16 ≤ p → firstBad flags = 0 → counter t (t1sCnt (p - 16) 2) = counter s (t1sCnt (p - 16) 2) + 1)) ∧
    (∀ m h k f i v w x, kindRoute s k p h = some f →
      (k = 1 ∧ i = .videoPacketRx p h v true ∨ k = 2 ∧ i = .audioPacketRx p h w true ∨ k = 3 ∧ i = .ancPacketRx p h x true) →
      p < 16 → mayOverflow s = true → m = s.prt → ∃ t, exec i s = .next t ∧
        counter t (ethCnt p 9) = counter s (ethCnt p 9) + 1 ∧ hasBit t fld.portEvent.PORT_EVENT 5 p = true ∧
        t.prt.vids = m.vids ∧ t.prt.auds = m.auds ∧ t.prt.ancs = m.ancs) ∧
    (∀ n h m f g ovf, kindRoute s 1 p h = some f → n = get s fld.flowCtrl.TARGET p f → n < 16 → (ovf && mayOverflow s) = false →
      g = heard (vidOf s n).merge (16 * p + f) h.at_ →
      (mergeSeq g m.seq = .dup → ∃ t, exec (.videoPacketRx p h m ovf) s = .next t ∧ (vidOf t n).merge = g ∧
        counter t (vidCnt n 0) = counter s (vidCnt n 0) + 1) ∧
      (mergeSeq g m.seq = .stale → ∃ t, exec (.videoPacketRx p h m ovf) s = .next t ∧ (vidOf t n).merge = g ∧
        counter t (vidCnt n 1) = counter s (vidCnt n 1) + 1) ∧
      (∀ g', mergeSeq g m.seq = .accept g' →
        (videoBad s n m = true → ∃ t, exec (.videoPacketRx p h m ovf) s = .next t ∧ t.fmem = s.fmem ∧ (vidOf t n).merge = g' ∧
          counter t (vidCnt n 3) = counter s (vidCnt n 3) + 1) ∧
        (∀ f older r a, videoBad s n m = false → (vidOf s n).frames = f :: older → f.ts = m.ts → m.rows = [r] →
          a = lineAddr s n f r.row → ∃ t, exec (.videoPacketRx p h m ovf) s = .next t ∧ (vidOf t n).merge = g' ∧
          memRead t.fmem (a + 64 + r.byteOff) r.data.length = r.data ∧ memRead t.fmem a 4 = leBytes 4 m.ts.toNat ∧
          memRead t.fmem (a + 4) 4 = leBytes 4 ((if fmemNat s a 4 = m.ts.toNat then fmemNat s (a + 4) 4 else 0) +
            r.data.length)))) ∧
    (∀ n h m f g g' ovf, kindRoute s 2 p h = some f → n = get s fld.flowCtrl.TARGET p f → n < 16 → (ovf && mayOverflow s) = false →
      on s fld.aud.AUD_EN n = true → g = heard (audOf s n).merge (16 * p + f) h.at_ →
      (mergeSeq g m.seq = .dup ∨ mergeSeq g m.seq = .stale → ∃ t, exec (.audioPacketRx p h m ovf) s = .next t ∧
        audOf t n = { audOf s n with merge := g }) ∧
      (∀ w, mergeSeq g m.seq = .accept g' → m.samples = [w] →
        ((audOf s n).seg = none ∨ (audOf s n).seg = some (m.ts / 48) → (∀ c, (audOf s n).closed = some c → c + 1 = m.ts / 48) →
          (Map.put (audOf s n).samples m.ts w).length ≠ 48 → ∃ t, exec (.audioPacketRx p h m ovf) s = .next t ∧
          (audOf t n).merge = g' ∧ (audOf t n).seg = some (m.ts / 48) ∧ Map.find? (audOf t n).samples m.ts = some w) ∧
        (∀ c, (audOf s n).seg = none → (audOf s n).samples = [] → (audOf s n).closed = some c → c + 2 = m.ts / 48 →
          ∃ t, exec (.audioPacketRx p h m ovf) s = .next t ∧ (audOf t n).closed = some (c + 1) ∧
            (audOf t n).seg = some (m.ts / 48) ∧ counter t (496 + n) = counter s (496 + n) + 1))) ∧
    (∀ i n at_ tc v, ((i = .ltcWord at_ tc ∧ n = 0 ∧ portClock s = true) ∨
        (∃ h m f g ovf, i = .ancPacketRx p h m ovf ∧ kindRoute s 3 p h = some f ∧ n = get s fld.flowCtrl.TARGET p f ∧ 0 < n ∧ n ≤ 16 ∧
          (ovf && mayOverflow s) = false ∧ mergeSeq (heard (ancOf s n) (16 * p + f) h.at_) m.seq = .accept g ∧ m.did = 0x60 ∧
          m.sdid = 0x60 ∧ tc = m.tc ∧ at_ = h.at_)) → v = tcValue tc →
      on s fld.tcReg.TC_EN n = true → ∃ t, exec i s = .next t ∧ t.ot = timeAt s at_ ∧ on t fld.tcReg.VALID n = true ∧
      Map.find? t.prt.tcAt n = some at_ ∧
      (standby s = false → logRoom s = true → s.vat.badNext = false → NextIsNewest s ⟨4, 0, n⟩ →
        newestVersion t ⟨4, 0, n⟩ = newestVersion s ⟨4, 0, n⟩ + 1 ∧ ∃ x ∈ t.vat.inputs, x.key = ⟨4, 0, n⟩ ∧ x.value = v ∧
          x.version = newestVersion s ⟨4, 0, n⟩ + 1)) ∧
    (∀ n x, Map.find? s.prt.tcAt n = some x → on s fld.tcReg.VALID n = true → ∃ t, exec (.tcLoss n) s = .next t ∧
      t.ot = timeAt s (x + 100000000) ∧ on t fld.tcReg.VALID n = false ∧
      (standby s = false → logRoom s = true → s.vat.badNext = false → NextIsNewest s ⟨4, 0, n⟩ →
        ∃ y ∈ t.vat.inputs, y.key = ⟨4, 0, n⟩ ∧ y.value = valueFor s ⟨4, 0, n⟩ none &&& 0xBFFFFFFF)) ∧
    (∀ kind k n leg key x, k = (match kind with | .video => 1 | .audio => 2 | .anc => 3) → (legsOf s k n)[leg]? = some key →
      Map.find? (targetMerge s k n).legAt key = some x → key ∉ (targetMerge s k n).silent →
      ∃ t, exec (.legLoss kind n leg) s = .next t ∧ t.ot = timeAt s (x + 100000000) ∧
        (targetMerge t k n).silent = (targetMerge s k n).silent ++ [key]) ∧
    (∀ u h m f rest, kindRoute s 4 p h = some f → svcOn s = true → subsOf s m.univNo = [u] → m.preview = false → m.startCode = 0 →
      rest = (subOf s u).srcs.filter (fun x => x.cid != m.cid) →
      (m.terminated = true → rest ≠ (subOf s u).srcs → ∃ t, exec (.sacnPacketRx p h m) s = .next t ∧ (subOf t u).srcs = rest) ∧
      (m.terminated = false → rest ≠ (subOf s u).srcs ∨ (subOf s u).srcs.length < 8 →
        ∃ t, exec (.sacnPacketRx p h m) s = .next t ∧ t.ot = timeAt s h.at_ ∧
          (subOf t u).srcs = rest ++ [⟨m.cid, m.prio, h.at_, m.slots.take 512⟩] ∧
          ∀ k b, k < 512 → mergedSlot (on s fld.subCtrl.LTP u) (subOf t u).srcs k = some b →
            Map.get (fun _ => 0) (subOf t u).slots k = b)) ∧
    (∀ u cid x, (subOf s u).srcs.find? (fun y => y.cid == cid) = some x → ∃ t, exec (.sacnSourceTimeout u cid) s = .next t ∧
      t.ot = timeAt s (x.at_ + 2500000000) ∧ (subOf t u).srcs = (subOf s u).srcs.filter (fun y => y.cid != cid))
/-- R307: a holder renews. R309: a lease that lapses. R310, R311, R313, R325: a lease that expires. R321: takeover. R306: WAIT takes
the lease, RESIGN, ASSUME, RESYNC. R325: LEAVE_SAFE. R304: TWIN_CTRL.EN. R382, R303: the wire and the lanes. R312, R320: RENEW and ACK. -/
def Obligations.TwinLeaseWorks : Prop :=
  ∀ (s : State) (fn : Nat),
    (∀ f r b, leaseClock s = some f → s.twn.renewed = some r → role s = 2 → on s fld.twinStatus.LEASE = true →
      b = (if 0 ≤ timeDiff (f.cur s.ot) (r + 1) then f.cur s.ot else r + 1) → timeDiff (f.inst b) s.twn.leaseEnd < 0 →
      (commitsStopped (advance (f.inst b) s) = false →
        ∃ t, exec .leaseRenew s = .next t ∧ t.ot = timeAt s (f.inst b) ∧ t.twn.renewed = some b ∧ t.twn.out = !s.twn.out ∧
        t.twn.leaseEnd = f.inst (b + BitVec.ofNat 64 (get s fld.twinCtrl.LEASE_N)) ∧ on t fld.twinStatus.LEASE = true ∧
        (twinLink s = true → rd t .jseqTx = rd s .jseqTx + 1 ∧ ∃ rest, t.twn.sent = some (recordLane s,
          recordFrame s 0 (rd s .jseqTx + 1) (leBytes 8 b.toNat ++ leBytes 8 t.ot.toNat ++ rest)))) ∧
      (commitsStopped (advance (f.inst b) s) = true → ∃ t, exec .leaseRenew s = .next t ∧ role t = 1 ∧
        on t fld.twinStatus.LEASE = false ∧ t.twn.out = false ∧ hasBit t fld.twinEvent.TWIN_EVENT 2 = true)) ∧
    (role s = 2 → on s fld.twinStatus.LEASE = true → ∃ t, exec .leaseLapse s = .next t ∧ t.ot = timeAt s s.twn.leaseEnd ∧
      role t = 1 ∧ on t fld.twinStatus.LEASE = false ∧ t.twn.out = false ∧ hasBit t fld.twinEvent.TWIN_EVENT 2 = true ∧
      (safePending s = false → ∃ x, t.pwr.trans = some x ∧ x.target = 3)) ∧
    (∀ f x, leaseClock s = some f →
      x = (match s.twn.handAt with | some y => y | none => leaseAfter s f (lifeBeat s f)) →
      (role s = 3 → mode s = 6 → ∃ t, exec .leaseExpiry s = .next t ∧ t.ot = timeAt s x ∧ role t = 7 ∧
        hasBit t fld.twinEvent.TWIN_EVENT 4 = true ∧ safePending t = true) ∧
      (role s = 4 ∨ role s = 5 → on s fld.twinStatus.STALE = true → on s fld.twinCtrl.STALE_TAKE = false →
        ∃ t, exec .leaseExpiry s = .next t ∧ t.ot = timeAt s x ∧ role t = 1) ∧
      (role s = 4 ∨ role s = 5 → on s fld.twinStatus.STALE = false ∨ on s fld.twinCtrl.STALE_TAKE = true →
        s.twn.buffered = [] → s.twn.wait = [] → ∃ t, exec .leaseExpiry s = .next t ∧ t.ot = timeAt s x ∧ role t = 6 ∧
        rd t .term = s.twn.termRx + 1 ∧ t.twn.takeAt =
          some (f.inst (f.from_ (t.ot + BitVec.ofNat 64 (fcPeriod t (get t fld.twinCtrl.LFC))))))) ∧
    (∀ f x, leaseClock s = some f → s.twn.takeAt = some x → role s = 6 → ∃ t, exec .takeover s = .next t ∧
      t.ot = timeAt s x ∧ role t = 2 ∧ mode t = 5 ∧ on t fld.twinStatus.LEASE = true ∧ t.twn.takeAt = none ∧
      counter t Cnt.takeovers.ctorIdx = counter s Cnt.takeovers.ctorIdx + 1 ∧
      hasBit t fld.twinEvent.TWIN_EVENT 2 = true ∧
      (∀ e, e ∈ validEntries (publishedEtab s) → eTransport (publishedEtab s) e ≤ 1 → (epOf t e).repair = true) ∧
      ∀ u, u < 8192 → on s fld.univCtrl.EN u = true → u ∈ t.epg.univDue) ∧
    (∀ f, leaseClock s = some f → role s = 1 → mode s = 3 → busy s = false → safePending s = false →
      (on s fld.twinCtrl.PRIMARY = true → ∃ t, exec .waitTimeout s = .next t ∧
        t.ot = timeAt s (s.twn.since + leasePeriod s) ∧ role t = 2 ∧ rd t .term = loneTerm s ∧
        on t fld.twinStatus.LEASE = true ∧ ∃ y, t.pwr.trans = some y ∧ y.target = 5) ∧
      (Writable s fn .twinCmd 0 0 → ∃ t, exec (.assume fn) s = .next t ∧ role t = 2 ∧ rd t .term = loneTerm s ∧
        on t fld.twinStatus.LEASE = true ∧ ∃ y, t.pwr.trans = some y ∧ y.target = 5)) ∧
    (role s ≠ 0 →
      (∀ at_, ∃ t, exec (.leaseInEdge at_) s = .next t ∧ t.ot = timeAt s at_ ∧ t.twn.edge = some t.ot ∧
        on t fld.twinStatus.WIRE = true ∧
        (on s fld.twinStatus.WIRE = false → hasBit t fld.twinEvent.TWIN_EVENT 1 = true)) ∧
      (∀ x, s.twn.edge = some x → on s fld.twinStatus.WIRE = true → ∃ t, exec .wireSilent s = .next t ∧
        t.ot = timeAt s (x + leasePeriod s) ∧ on t fld.twinStatus.WIRE = false ∧
        hasBit t fld.twinEvent.TWIN_EVENT 1 = true)) ∧
    (∀ lane up, ∃ t, exec (.twinLinkChange lane up) s = .next t ∧
      on t (if lane = 0 then fld.twinStatus.LINK0 else fld.twinStatus.LINK1) = up ∧
      (role s ≠ 0 → twinLink t ≠ twinLink s → hasBit t fld.twinEvent.TWIN_EVENT 0 = true ∧
        (twinLink s = true → standby s = true → on s fld.twinStatus.WIRE = true → on t fld.twinStatus.STALE = true))) ∧
    (∀ h b t1 act t3 t4 t2, mode s ≠ 7 →
      (role s = 3 ∨ (role s = 4 ∨ role s = 5) ∧ s.twn.wait = [] ∧ s.twn.buffered = [] ∧ h.jseq = rd s .jseqRx + 1 →
        ∃ t, exec (.renew h b t1 act t3 t4 t2) s = .next t ∧ t.ot = timeAt s t2 ∧ (role t = role s ∨ role s = 4 ∧ role t = 5) ∧
        t.twn.beat = some b ∧ t.twn.termRx = h.term ∧ t.twn.t2 = t.ot ∧ t.ot ∈ t.twn.acks ∧
        (role s ≠ 3 → rd t .jseqRx = h.jseq)) ∧
      (role s = 1 → mode s = 3 → busy s = false → ∃ t, exec (.renew h b t1 act t3 t4 t2) s = .next t ∧ role t = 3 ∧
        t.twn.beat = some b ∧ t.twn.termRx = h.term) ∧
      (role s = 2 → h.term.toNat < (rd s .term).toNat → ∃ t, exec (.renew h b t1 act t3 t4 t2) s = .next t ∧ role t = 2 ∧
        hasBit t fld.twinEvent.TWIN_EVENT 5 = true) ∧
      (role s = 2 → (rd s .term).toNat < h.term.toNat → ∃ t, exec (.renew h b t1 act t3 t4 t2) s = .next t ∧ role t = 3 ∧
        hasBit t fld.twinEvent.TWIN_EVENT 5 = true ∧ on t fld.twinStatus.LEASE = false)) ∧
    (∀ h j peer d t2 t3 t4, role s = 2 → ∃ t, exec (.ack h j peer d t2 t3 t4) s = .next t ∧ t.ot = timeAt s t4 ∧
      t.twn = { s.twn with
        echo3 := t3, echo4 := t4, copySend := peer == 3 && s.twn.copyQ.isEmpty
        copyQ := if peer = 3 then s.twn.copyQ else [] }) ∧
    (Writable s fn .twinCmd 0 0 →
      (role s = 2 → ∃ t, exec (.resign fn) s = .next t ∧ role t = 1 ∧ on t fld.twinStatus.LEASE = false ∧
        t.twn.out = false ∧ (twinLink s = true →
          t.twn.sent = some (recordLane s, recordFrame s 8 (rd s .jseqTx + 1) (leBytes 8 (s.twn.renewed.getD 0).toNat)))) ∧
      (3 ≤ role s → role s ≤ 5 → ∃ t, exec (.resync fn) s = .next t ∧ role t = 3 ∧ t.twn.buffered = [] ∧
        t.twn.wait = [] ∧ rd t .copyDone = 0) ∧
      (role s = 7 → mode s = 7 → busy s = false → safePending s = false → get s fld.safeCause.SAFE_CAUSE = 2 →
        ∃ t, exec (.leaveSafe fn) s = .next t ∧ role t = 1 ∧ (∃ x, t.pwr.trans = some x ∧ x.target = 3) ∧ t.hst.allocs = [] ∧
        ∀ r i j, journaled r.desc.base = true → rd t r i j = BitVec.ofNat 32 r.desc.reset)) ∧
    (∀ v u, Writable s fn .twinCtrl 0 0 → u = plainWrite (isPf fn) .twinCtrl 0 0 v s →
      (mode s = 3 → v.toNat % 2 = 1 → on s fld.twinCtrl.EN = false →
        ((leaseClock u).isSome → ∃ t, exec (.twinEnWrite fn v) s = .next t ∧ role t = 1 ∧ on t fld.twinCtrl.EN = true) ∧
        (leaseClock u = none → ∃ t, exec (.twinEnWrite fn v) s = .next t ∧ role t = role s ∧ on t fld.twinCtrl.EN = false)) ∧
      (mode s = 3 → v.toNat % 2 = 0 → on s fld.twinCtrl.EN = true →
        ∃ t, exec (.twinEnWrite fn v) s = .next t ∧ role t = 0 ∧ on t fld.twinCtrl.EN = false ∧
          on t fld.twinStatus.LEASE = false ∧ on t fld.twinStatus.WIRE = false) ∧
      (mode s ≠ 3 → ∃ t, exec (.twinEnWrite fn v) s = .next t ∧
        on t fld.twinCtrl.EN = on s fld.twinCtrl.EN ∧ role t = role s ∧
        get t fld.twinCtrl.LEASE_N = get u fld.twinCtrl.LEASE_N))
/-- R314, R316, R317, R323: a journal record is kept while a copy arrives or a COMMIT waits, and else applied with its JSEQ; what each
kind writes. R323: COPY, its end, and its sending. R316: the wait for tiles ends in the commit. -/
def Obligations.TwinJournalWorks : Prop :=
  ∀ (s : State),
    (∀ i h x, (∃ m c e d ts, i = .commitRecord h m c e d ts ∧ x = .commit m c e d ts) ∨
        (∃ id c tm v ver tg, i = .changeRecord h id c tm v ver tg ∧ x = .change id c tm v ver tg) ∨
        (∃ off v f k, i = .regw h off v f k ∧ x = .regw off v f k) ∨ (∃ e c, i = .cmdRecord h e c ∧ x = .cmd e c) ∨
        (∃ a d, i = .memw h a d ∧ x = .memw a d) ∨
        (∃ l n ver b o d, i = .layerRecord h l n ver b o d ∧ x = .layer l n b o d) ∨
        (∃ e st ss, i = .epstate h e st ss ∧ x = .epstate e st ss) ∨ (∃ b, i = .handover h b ∧ x = .handover b) →
      ∀ q, q = holdIn ⟨h, x, s.ot⟩ s.twn.buffered →
      (role s = 3 → s.twn.copyLost = false → (q.map (fun y => recordBytes y.body)).sum ≤ get s fld.jbufMib.JBUF_MIB * 1048576 →
        ∃ t, exec i s = .next t ∧ t.twn = { s.twn with buffered := q } ∧ t.regs = s.regs) ∧
      (role s = 4 ∨ role s = 5 →
        (s.twn.wait ≠ [] → 0 ≤ jseqAhead s h → ∃ t, exec i s = .next t ∧ t.twn = { s.twn with buffered := q } ∧ t.regs = s.regs) ∧
        (s.twn.wait = [] → s.twn.buffered = [] → 0 < jseqAhead s h →
          ∃ t, exec i s = .next t ∧ t.twn = { s.twn with buffered := [⟨h, x, s.ot⟩] } ∧ t.regs = s.regs) ∧
        (jseqAhead s h < 0 → exec i s = .next s))) ∧
    (∀ h : JHead, role s = 4 ∨ role s = 5 → s.twn.wait = [] → s.twn.buffered = [] → h.jseq = rd s .jseqRx + 1 →
      (∀ m c e d ts, canvasRuns s c = true → rmEp s c = e → timeDiff s.ot (commitInst s c e) < 0 →
        ∃ t, exec (.commitRecord h m c e d ts) s = .next t ∧ t.twn.wait = [⟨c, e, d, m, ts, s.ot⟩] ∧
          rd t .jseqRx = h.jseq) ∧
      (∀ id c tm v ver tg k, k = recKey id c → s.vat.badNext = false → (k.kind ≠ 7 ∨ k.idx < 1024) → 0 < epochDiff ver (newestVersion s k) →
        (∀ q ∈ s.vat.inputs, q.key = k → q.version.toNat < ver.toNat) →
        ∃ t, exec (.changeRecord h id c tm v ver tg) s = .next t ∧ newestVersion t k = ver ∧ rd t .jseqRx = h.jseq ∧
          ∃ x ∈ t.vat.inputs, x.key = k ∧ x.value = v ∧ x.version = ver) ∧
      (∀ off v fn k r i j, regAt off = some ⟨r, i, j⟩ → journaled off = true → storesOnly r = true → absentReg s r i = false →
        ∃ t, exec (.regw h off v fn k) s = .next t ∧ rd t .jseqRx = h.jseq ∧
          rd t r i j = rd (plainWrite (isPf fn) r i j v s) r i j) ∧
      (∀ size base c w rest, mibFree s base size = true → w = 0x10 + 256 * c → c < 128 → size < 2 ^ 32 → base < 2 ^ 20 →
        ∃ t, exec (.cmdRecord h (BitVec.ofNat 32 w :: BitVec.ofNat 32 size :: rest) [0, BitVec.ofNat 32 (4096 * base)]) s
          = .next t ∧ t.hst.allocs = s.hst.allocs ++ [⟨base, size, c, none⟩] ∧ rd t .jseqRx = h.jseq) ∧
      (∀ a d, ∃ t, exec (.memw h a d) s = .next t ∧ memRead t.fmem (a.toNat * 4) d.length = d ∧ rd t .jseqRx = h.jseq) ∧
      (∀ n ver b o d, ∃ t, exec (.layerRecord h false n ver b o d) s = .next t ∧
        memRead t.fmem (b.toNat * 256 + o.toNat) d.length = d ∧ rd t .jseqRx = h.jseq) ∧
      (∀ e st ss, ∃ t, exec (.epstate h e st ss) s = .next t ∧ rd t .jseqRx = h.jseq ∧
        (epOf t e).lost = ((st.getD 0 0).toNat / 8 % 2 == 1) ∧ (epOf t e).cut = ((st.getD 0 0).toNat / 16 % 2 == 1) ∧
        (epOf t e).epoch = st.getD 3 0) ∧
      (∀ b f, role s = 5 → leaseClock s = some f → ∃ t, exec (.handover h b) s = .next t ∧
        t.twn.handAt = some (f.inst (b + 1)) ∧ rd t .jseqRx = h.jseq)) ∧
    (∀ h l index d, role s = 3 → s.twn.copyLost = false → ∃ t, exec (.copyRecord h l 5 index d) s = .next t ∧
      memRead t.fmem index.toNat d.length = d ∧ t.twn.copied = s.twn.copied + d.length ∧
      rd t .copyDone = BitVec.ofNat 32 ((s.twn.copied + d.length) / 1048576)) ∧
    (∀ h cpos, role s = 3 → s.twn.copyLost = false → s.twn.copyFrom = none → s.twn.buffered = [] → s.twn.wait = [] →
      ∃ t, exec (.copyEnd h cpos) s = .next t ∧ (role t = 4 ∨ role t = 5) ∧ t.twn.cpos = cpos ∧ rd t .jseqRx = h.jseq) ∧
    (role s = 2 → twinLink s = true →
      (s.twn.copySend = true → ∃ t, exec .copySend s = .next t ∧ t.twn.copySend = false ∧ rd t .copyDone = 0 ∧
        rd t .copyTotal = BitVec.ofNat 32 ((s.hst.allocs.map (fun a => a.size)).sum) ∧ t.twn.copyQ = (copyItems s).drop 1 ∧
        t.twn.sent = some (recordLane s, recordFrame s 9 0 (leBytes 4 0 ++ leBytes 8 0x40000 ++ blockBytes s 0x40000))) ∧
      (s.twn.copySend = false → ∀ x rest, s.twn.copyQ = x :: rest → ∃ t, exec .copySend s = .next t ∧ t.twn.copyQ = rest ∧
        (∀ k i d, x = .block k i d → t.twn.sent = some (recordLane s,
          recordFrame s (9 + if rest.length == 1 then 0x100 else 0) 0 (leBytes 4 k ++ leBytes 8 i ++ d))) ∧
        (∀ a n, x = .mem a n → rd t .copyDone = BitVec.ofNat 32 ((s.twn.copied + n) / 1048576) ∧ t.twn.sent = some (recordLane s,
          recordFrame s (9 + if rest.length == 1 then 0x100 else 0) 0 (leBytes 4 5 ++ leBytes 8 a ++ memRead s.fmem a n))) ∧
        (∀ p, x = .fin p → rd t .jseqTx = rd s .jseqTx + 1 ∧ t.twn.sent = some (recordLane s,
          recordFrame s 0x0A (rd s .jseqTx + 1) (leBytes 4 p.toNat ++ leBytes 4 0))))) ∧
    (∀ w rest n c r u, s.twn.wait = w :: rest → s.twn.buffered = [] → standby s = true → c = w.canvas → c < 64 →
      (role s ≠ 5 ∨ on s fld.twinCtrl.AUTO_RESYNC = false) → n = get s fld.twinCtrl.SHADOW_WAIT * fcPeriod s (canvasFc s c) →
      u = advance (commitInst s c w.epoch) (advance (w.arrived + BitVec.ofNat 64 n) s) → canvasRuns s c = true →
      rmEp s c = w.epoch → halves s c = [c] → epochRec s c w.epoch = some r → r.committed = false → pendingRegs s c = [] →
      rateSwitch u (canvasFc s c) w.epoch = false → ∃ t, exec .shadowWaitExpire s = .next t ∧ t.ot = u.ot ∧
        txv t c = true ∧ txEp t c = w.epoch)
/-- R337, R341, R357, R339, R338: a mode request that is allowed begins its transition, and one while a transition runs is
discarded; a transition ends in its mode, in SAFE with every canvas disabled, and in SLEEP with everything outside the
island powered down. R330, R335, R336, R373, R342: resets and the release. R333, R331, R332, R346, R384, R341, R348:
clocks, core voltage, temperatures, wake, slow time. -/
def Obligations.ModesWork : Prop :=
  ∀ (s : State) (fn : Nat),
    (Writable s fn .pwrCmd 0 0 →
      (busy s = false → s.pwr.trans = none →
        (∀ i target, (i = .modeReqShow fn ∧ target = 5 ∧ mode s = 3 ∧ role s = 0) ∨
            (i = .modeReqIdle fn ∧ target = 3 ∧
              (((mode s = 5 ∨ mode s = 4) ∧ anyCanvas s = false) ∨ (mode s = 7 ∧ safeExit s = true))) ∨
            (i = .modeReqTest fn ∧ target = 2 ∧ mode s = 3 ∧
              ((selBlocks s).contains 127 = false ∨ get s fld.lcState.LC_STATE ≠ 2)) ∨
            (i = .modeReqSleep fn ∧ target = 0 ∧ mode s = 3 ∧ s.bst.kind = 0 ∧ s.member = .zx9160) →
          ∃ t, exec i s = .next t ∧ busy t = true ∧ mode t = mode s ∧
            t.pwr.trans = some ⟨target, s.ot + BitVec.ofNat 64 (transTime (mode s) target), false, 0⟩) ∧
        (mode s = 3 → s.bst.kind = 0 → s.member ≠ .zx9160 → ∃ t, exec (.modeReqSleep fn) s = .next t ∧ busy t = true ∧
          t.bst.kind = 2 ∧ t.bst.todo = startBlocks s.member ∧
          t.pwr.trans = some ⟨0, s.ot + BitVec.ofNat 64 (transTime 3 0), true, 0⟩) ∧
        (mode s ≠ 0 → mode s ≠ 7 → ∃ t, exec (.modeReqSafe fn) s = .next t ∧ busy t = true ∧
          t.pwr.trans = some ⟨7, s.ot + 1000, false, 1⟩)) ∧
      (busy s = true → ∀ i ∈ [Instr.modeReqShow fn, .modeReqIdle fn, .modeReqTest fn, .modeReqSleep fn, .modeReqSafe fn],
        ∃ t, exec i s = .next t ∧ hasBit t fld.pwrEvent.PWR_EVENT 0 = true ∧ t.pwr = s.pwr ∧ mode t = mode s)) ∧
    (∀ tr, s.pwr.trans = some tr → tr.afterSet = false → ∃ t, exec .modeTransitionDone s = .next t ∧
      (tr.target = 3 ∨ tr.target = 5 → mode t = tr.target ∧ t.pwr.trans = none ∧ busy t = false ∧ t.pwr.gated = [] ∧
        t.pwr.selfRef = false ∧ t.ot = timeAt s tr.due) ∧
      (tr.target = 2 → selBlocks s ≠ [] → mode t = 2 ∧ t.bst.kind = 4 ∧ t.bst.todo = selBlocks s) ∧
      (tr.target = 7 → mode t = 7 ∧ get t fld.safeCause.SAFE_CAUSE = tr.cause % 8 ∧ t.pwr.trans = none ∧ t.pwr.gated = [] ∧
        ∀ c, c < 64 → on t fld.canvasCtrl.EN c = false) ∧
      (tr.target = 0 → mode t = 0 ∧ t.fmem = [] ∧ t.sch.tasks = [] ∧ t.hst.allocs = [] ∧
        t.pwr.slow = (timeAt s tr.due).toNat * 64 / slowTick * slowTick)) ∧
    (∀ v u, Writable s fn .pwrCtrl 0 0 → u = plainWrite (isPf fn) .pwrCtrl 0 0 v s →
      ∃ t, exec (.holdEnWrite fn v) s = .next t ∧ rd t .pwrCtrl = rd u .pwrCtrl ∧
        (on s fld.pwrCtrl.HOLD_EN = true → on u fld.pwrCtrl.HOLD_EN = false → mode s = 4 → s.pwr.trans = none →
          t.pwr.trans = some ⟨5, s.ot + BitVec.ofNat 64 (transTime 4 5), false, 0⟩)) ∧
    (mode s = 4 → s.pwr.trans = none → s.pwr.selfRef = false → ∃ t, exec .hbmSelfRefresh s = .next t ∧ t.pwr.selfRef = true ∧
      t.ot = timeAt s (s.pwr.memAt + BitVec.ofNat 64 (get s fld.hbmSrIdle.HBM_SR_IDLE * 1000)) ∧ t.fmem = s.fmem) ∧
    (∀ i bit, (i = .powerOn ∧ bit = 0) ∨ (i = .aonRstN ∧ bit = 1) ∨ (i = .railFault 0 ∧ bit = 0) →
      ∃ t, exec i s = .next t ∧ rd t .rstCause = BitVec.ofNat 32 (2 ^ bit) ∧ t.bst.releaseDue = true ∧ t.bst.todo = [] ∧ t.sch.tasks = [] ∧
        t.hst.allocs = [] ∧ t.cnt = [] ∧ t.pending = s.pending ∧
        ∀ r, r ≠ .rstCause → r ≠ .lcState → ∀ i j, rd t r i j = BitVec.ofNat 32 r.desc.reset) ∧
    (∀ i bit, (i = .sysRstN ∧ bit = 2) ∨ (i = .softRst fn ∧ bit = 3 ∧ Writable s fn .pwrCmd 0 0) ∨
        (∃ rail, i = .railFault rail ∧ 0 < rail ∧ rail < 9 ∧ mode s ≠ 0 ∧ bit = 4) →
      ∃ t, exec i s = .next t ∧ hasBit t fld.rstCause.RST_CAUSE bit = true ∧ t.bst.releaseDue = true ∧ t.bst.todo = [] ∧ t.sch.tasks = [] ∧
        t.hst.allocs = [] ∧ t.cnt = [] ∧ t.fmem = s.fmem ∧ t.bst.retained = s.bst.retained ∧ t.pwr.slow = s.pwr.slow ∧
        (∀ r ∈ [RegId.wakeEn, .alarmLo, .alarmHi], rd t r = rd s r) ∧
        (∀ rail, i = .railFault rail → get t fld.railGood.SUPPLY_FAIL = 2 ^ rail % 512 ∧
          get t fld.railGood.RAIL_GOOD = Nat.land (get s fld.railGood.RAIL_GOOD) (0x1FF - 2 ^ rail)) ∧
        ∀ r, r ∉ [RegId.rstCause, .railGood, .wakeEn, .alarmLo, .alarmHi, .lcState] → ∀ i j,
          rd t r i j = BitVec.ofNat 32 r.desc.reset) ∧
    (∀ (b : BitVec 2) (rails : BitVec 9), mode s = 1 → s.bst.releaseDue = true → rails ≠ 0x1FF ∨ s.pwr.clocks.testBit 1 = true →
      exec (.resetRelease b rails) s = .next (put fld.railGood.RAIL_GOOD rails.toNat s)) ∧
    (∀ b : BitVec 2, mode s = 1 → s.bst.releaseDue = true → s.pwr.clocks.testBit 1 = false → s.bst.todo = [] →
      ∃ t, exec (.resetRelease b 0x1FF) s = .next t ∧
      t.bst.releaseDue = false ∧ (∀ k, k < 60 → get t fld.fact.FACT k =
        if Config.trimCheck k (otpWord s (64 + k)) then (otpWord s (64 + k)).toNat % 65536 else (Config.trimMid k).toNat) ∧
      (b = 3 → mode t = 7 ∧ get t fld.safeCause.SAFE_CAUSE = 5) ∧
      (b ≠ 3 → s.member = .zx9160 ∨ s.bst.retained ≠ some true → t.bst.kind = 1 ∧ t.bst.todo = startBlocks s.member) ∧
      (b ≠ 3 → s.member ≠ .zx9160 → s.bst.retained = some true → on t fld.bistStatus.RET_VALID = true ∧
        t.pwr.image = if b = 1 then none else some 0)) ∧
    (∀ n lost, n < 5 → mode s = 0 ∨ s.bst.releaseDue = true → ∃ t, exec (.refClockLoss n lost) s = .next t ∧
      t = { s with pwr := { s.pwr with clocks := t.pwr.clocks } } ∧ t.pwr.clocks.testBit n = lost) ∧
    (∀ n lost, mode s ≠ 0 → s.bst.releaseDue = false → n < 5 → hasBit s fld.clkStatus.CLK_STATUS n ≠ lost →
      ∃ t, exec (.refClockLoss n lost) s = .next t ∧ hasBit t fld.clkStatus.CLK_STATUS n = lost ∧
        hasBit t fld.pwrEvent.PWR_EVENT 1 = true ∧
        (lost = true → n = 1 → mode s ≠ 7 → ∃ tr, t.pwr.trans = some tr ∧ tr.target = 7 ∧ 4 ≤ tr.cause)) ∧
    (mode s ≠ 0 → on s fld.avsCtrl.AVS_EN = true → s.pwr.avsFails < 3 →
      ∀ at_, at_ = (match s.pwr.avsAt with | none => s.ot | some a => timeAt s (a + 100000)) →
      (∃ t, exec (.avsCommand true) s = .next t ∧ get t fld.avsCtrl.VCORE_MV = avsStep s % 1024 ∧ t.pwr.avsFails = 0 ∧
        t.pwr.avsAt = some at_ ∧ t.pwr.vout = some (get s fld.avsCtrl.AVS_ADDR, avsStep s / 5) ∧ t.ot = at_) ∧
      (∃ t, exec (.avsCommand false) s = .next t ∧ get t fld.avsCtrl.VCORE_MV = get s fld.avsCtrl.VCORE_MV ∧
        t.pwr.avsFails = s.pwr.avsFails + 1 ∧ t.pwr.vout = some (get s fld.avsCtrl.AVS_ADDR, avsStep s / 5) ∧ t.ot = at_ ∧
        (s.pwr.avsFails = 2 → hasBit t fld.pwrEvent.PWR_EVENT 2 = true ∧
          t.pwr.coreMhz = min s.pwr.coreMhz (Config.coreAllowed (get s fld.avsCtrl.VCORE_MV))))) ∧
    (mode s ≠ 0 → ∀ temp : Byte, ∃ t, exec (.dieTempCross temp) s = .next t ∧ get t fld.dieTemp.DIE_TEMP = temp.toNat ∧
      (sgn 8 (get s fld.dieTemp.DIE_TEMP) < sgn 8 (get s fld.dieTemp.TEMP_WARN) →
        sgn 8 (get s fld.dieTemp.TEMP_WARN) ≤ temp.toInt → hasBit t fld.pwrEvent.PWR_EVENT 3 = true) ∧
      (115 ≤ temp.toInt → mode s ≠ 7 → ∃ tr, t.pwr.trans = some tr ∧ tr.target = 7 ∧ 3 ≤ tr.cause)) ∧
    (mode s ≠ 0 → ∀ above, exec (.hbmStackTempCross above) s = .next { s with pwr := { s.pwr with hotHbm := above } }) ∧
    (mode s = 0 →
      (∀ src, src < 4 → src ≠ 1 → hasBit s fld.wakeEn.WAKE_EN src = true → ∃ t, exec (.wakeSource src) s = .next t ∧ mode t = 1 ∧
        rd t .rstCause = 0x40) ∧
      (∀ i, i = .slowAlarm ∨ i = .wakeSource 1 → hasBit s fld.wakeEn.WAKE_EN 1 = true → s.pwr.slow / slowTick ≤ alarmTime s →
        ∃ t, exec i s = .next t ∧
        mode t = 1 ∧ rd t .rstCause = 0x40 ∧ t.pwr.slow = Nat.max s.pwr.slow (alarmTime s * slowTick))) ∧
    (Reaches s fn .slowLo 0 0 → ∃ t, exec (.slowLoRead fn) s = .next t ∧
      t.rdata = leBytes 4 ((slowTime s).toNat % 2 ^ 32) ∧ rd t .slowHi = BitVec.ofNat 32 ((slowTime s).toNat / 2 ^ 32))

/-- R343, R344, R345, R355: BOOT_GO takes a host's image while the boot waits for one; an image in error is rejected with its
code, and one whose records all apply brings IDLE. R354, R356, R357, R358: a block's result, the next block, the verdict of
a set, the shut-down run, STOP, and the cluster rotation. R351, R352: OTP words and the move to RMA. R362, R363, R365,
R367: user calibration, counters and tags. -/
def Obligations.SelfTestWorks : Prop :=
  ∀ (s : State) (fn : Nat),
    (Writable s fn .bootGo 0 0 → awaitsHost s = true → ∃ t, exec (.bootGo fn) s = .next t ∧
      t.pwr.image = some (2 + fn / 16 % 2) ∧ rd t .bootStatus = 0) ∧
    (∀ flash src, mode s = 1 → s.pwr.image = some src → ∃ t, exec (.bootImageCheck flash) s = .next t ∧
      ∀ img s0, img = (if 2 ≤ src then some (hostImage s) else flash.map (fun x => flashImage src x.cells)) →
      s0 = (if 2 ≤ src then s else flash.elim s (fun x => { s with pwr := { s.pwr with octal := x.octal } })) →
      (∀ err, err = (match img with | none => 6 | some b => imageError s b) → err ≠ 0 →
        get t fld.bootStatus.ERR = err ∧ (src = 0 → t.pwr.image = some 1) ∧ (src ≠ 0 → t.pwr.image = none) ∧
        (src = 1 → s.pwr.bootMode = 2 → mode t = 7 ∧ get t fld.safeCause.SAFE_CAUSE = 5)) ∧
      (∀ b ws, img = some b → imageError s b = 0 → ws = bodyWords (imageBody b) → src < 4 →
        ((loadBody ws.length ws s0).2 = true → mode t = 3 ∧ on t fld.bootStatus.DONE = true ∧
          get t fld.bootStatus.SRC = src ∧ t.pwr.image = none) ∧
        ((loadBody ws.length ws s0).2 = false → get t fld.bootStatus.ERR = 5))) ∧
    (∀ b ran sig cnt, b < 128 → s.bst.rotStep ≠ 2 ∨ rotCluster s ≠ b →
      (∀ c rest, s.bst.todo = b :: c :: rest → c ≠ b → ∃ t, exec (.bistBlockDone b ran sig cnt) s = .next t ∧
        t.bst.todo = c :: rest ∧ t.bst.kind = s.bst.kind ∧
        get t fld.bistRes.RESULT b = (if !ran then 3 else if sig && cnt then 1 else 2) ∧ get t fld.bistRes.RESULT c = 4 ∧
        (ran = true → (sig && cnt) = false → hasBit t fld.bistEvent.BIST_EVENT 1 = true ∧
          counter t Cnt.bistFail.ctorIdx = counter s Cnt.bistFail.ctorIdx + 1)) ∧
      (s.bst.todo = [b] → s.bst.kind = 3 ∨ s.bst.kind = 4 → ∃ t, exec (.bistBlockDone b ran sig cnt) s = .next t ∧
        t.bst.todo = [] ∧ t.bst.kind = 0 ∧ get t fld.bistRes.RESULT b = (if !ran then 3 else if sig && cnt then 1 else 2) ∧
        on t fld.bistStatus.BUSY = false ∧ get t fld.bistStatus.VERDICT = setVerdict t s.bst.blocks ∧
        hasBit t fld.bistEvent.BIST_EVENT 0 = true ∧ (s.bst.kind = 4 → mode t = 3))) ∧
    (∀ b ran sig cnt, b < 20 → s.bst.rotStep = 2 → rotCluster s = b →
      ∃ t, exec (.bistBlockDone b ran sig cnt) s = .next t ∧ t.bst.rotStep = 0 ∧ on t fld.bistStatus.ROT_ACTIVE = false ∧
        get t fld.bistRes.RESULT b = (if !ran then 3 else if sig && cnt then 1 else 2) ∧ on t fld.bistRes.FIELD b = true ∧
        (ran = true → (sig && cnt) = false → b ∈ t.bst.removed)) ∧
    (Writable s fn .bistCmd 0 0 →
      (s.member ≠ .zx9160 → mode s = 3 → busy s = false → s.bst.kind = 0 → on s fld.bistCmd.SHUTDOWN_RUN = false →
        ∃ t, exec (.shutdownRun fn) s = .next t ∧ t.bst.kind = 3 ∧ t.bst.todo = startBlocks s.member ∧
          on t fld.bistCmd.SHUTDOWN_RUN = true) ∧
      (∀ b rest, s.bst.todo = b :: rest → s.bst.kind = 2 ∨ s.bst.kind = 3 ∨ s.bst.kind = 4 →
        ∃ t, exec (.stop fn) s = .next t ∧ t.bst.todo = [] ∧ t.bst.kind = 0 ∧ get t fld.bistRes.RESULT b = 3 ∧
          on t fld.bistStatus.BUSY = false ∧ get t fld.bistStatus.VERDICT = setVerdict t s.bst.blocks)) ∧
    (∀ k, rotPick s = some k → 4 ≤ mode s → mode s ≤ 6 → on s fld.bistCmd.ROT_EN = true → s.bst.rotStep = 0 →
      ∃ t, exec .rotStepStart s = .next t ∧ t.bst.rotStep = 1 ∧ t.bst.rotNext = k + 1 ∧ rotCluster t = k % 32 ∧
        on t fld.bistStatus.ROT_ACTIVE = true ∧ t.ot = timeAt s ((rotDue s).getD s.ot) ∧
        t.bst.rotAt = some t.ot) ∧
    (s.bst.rotStep = 1 → ∀ k, rotCluster s = k →
      (clusterBusy s k = false → ∃ t, exec .rotClusterDrained s = .next t ∧ t.bst.rotStep = 2 ∧
        get t fld.bistRes.RESULT k = 4 ∧ on t fld.bistStatus.BUSY = true) ∧
      (clusterBusy s k = true → ∃ t, exec .rotDrainTimeout s = .next t ∧ t.bst.rotStep = 0 ∧
        get t fld.bistRes.RESULT k = 0 ∧ counter t Cnt.rotSkip.ctorIdx = counter s Cnt.rotSkip.ctorIdx + 1 ∧
        t.ot = timeAt s (s.bst.rotAt.getD s.ot + BitVec.ofNat 64 (get s fld.rotCfg.ROT_DRAIN_US * 1000)))) ∧
    (Writable s fn .otpCtrl 0 0 → ∀ a, a = get s fld.otpAddr.OTP_ADDR →
      ∃ t, exec (.otpGo fn) s = .next t ∧ on t fld.otpCtrl.OTP_ERR = !otpMay s a ∧
        (∀ q, otpWord t q = if q = a ∧ otpMay s a = true then otpWord s a ||| rd s .otpData else otpWord s q) ∧
        (otpMay s a = false → counter t Cnt.otpErr.ctorIdx = counter s Cnt.otpErr.ctorIdx + 1)) ∧
    (∀ v, Writable s fn .lcReq 0 0 → ∃ t, exec (.lcReq fn v) s = .next t ∧ rd t .lcState = rd s .lcState ∧
      (∀ q, otpWord t q =
        if q = 3 ∧ get s fld.lcState.LC_STATE = 2 ∧ unlockOk s v = true then 0xFFFFFFFF else otpWord s q) ∧
      (get s fld.lcState.LC_STATE ≠ 2 ∨ unlockOk s v = false → hasBit t fld.bistEvent.BIST_EVENT 4 = true)) ∧
    (∀ off r i v u, regAt off = some ⟨r, i, 0⟩ → r.desc.cal = true → Writable s fn r i 0 →
      u = plainWrite (isPf fn) r i 0 v s → ∃ t, exec (.calWrite fn off v) s = .next t ∧ rd t r i = rd u r i ∧
        ∀ hold, hold = (decide (4 ≤ mode s) && decide (mode s ≤ 6) && (fclock s (get s fld.calCtrl.FC)).isSome) →
        ∀ f, f.reg = r → effCal t f i = if hold = true then effCal s f i else get u f i) ∧
    (∀ n, n < 512 → Reaches s fn .cntLo n 0 → ∃ t, exec (.cntLoRead fn n) s = .next t ∧
      t.rdata = leBytes 4 ((counter s n).toNat % 2 ^ 32) ∧ get t fld.cntHi.HI n = (counter s n).toNat / 2 ^ 32 % 2 ^ 16) ∧
    (Writable s fn .cntSnap 0 0 → ∃ t, exec (.cntSnap fn) s = .next t ∧ t.snap = s.cnt ∧
      rd t .snapTimeLo = BitVec.ofNat 32 s.ot.toNat ∧ rd t .snapTimeHi = BitVec.ofNat 32 (s.ot.toNat / 2 ^ 32)) ∧
    (∀ core stall cause paired off u n tail base, taskOn s core = some u → on s fld.tagCtrl.TAG_EN = true →
      tagInterval s core ≤ Map.get (fun _ => 0) s.tagCount core → n = 2 ^ get s fld.tagCtrl.TAG_LOG2 →
      tail = get s fld.tagTail.TAG_TAIL → base = (rd s .tagBase).toNat * 256 →
      ∃ t, exec (.tagSample core stall cause paired off) s = .next t ∧ Map.get (fun _ => 0) t.tagCount core = 0 ∧
        (tagOcc s + 1 < n → (allocAt s base (16 * n)).isSome = true →
          counter t Cnt.tagTaken.ctorIdx = counter s Cnt.tagTaken.ctorIdx + 1 ∧
          get t fld.tagTail.TAG_TAIL = (tail + 1) % n % 65536 ∧
          memRead t.fmem (base + 16 * tail) 16 = wordBytes (tagRecord core u stall cause paired off)) ∧
        (n ≤ tagOcc s + 1 ∨ (allocAt s base (16 * n)).isNone = true → t.fmem = s.fmem ∧
          counter t Cnt.tagLost.ctorIdx = counter s Cnt.tagLost.ctorIdx + 1))
end

