-- ==== Sys2Proof/Laws/Map.lean ====
section
/-!
SUPPORT. Laws of the sparse maps and of the bit fields of a number: reading what was written, reading elsewhere, and
the canonical form.
-/

namespace Sys2Proof

variable {α : Type}

theorem map_del_cons (j : Nat) (w : α) (m : Map α) (k : Nat) :
    Map.del ((j, w) :: m) k = if j = k then Map.del m k else (j, w) :: Map.del m k := by
  unfold Map.del; rw [List.filter_cons]; by_cases h : j = k <;> simp [h]

@[simp] theorem map_get_put_same (d : Nat → α) (m : Map α) (k : Nat) (v : α) : Map.get d (Map.put m k v) k = v := by
  induction m with
  | nil => simp [Map.put, Map.get]
  | cons e m ih =>
    obtain ⟨j, w⟩ := e
    simp only [Map.put]
    split
    · simp [Map.get]
    · split
      · simp [Map.get]
      · rename_i h; simp [Map.get, ih, Ne.symm h]

theorem map_get_put_ne (d : Nat → α) (m : Map α) {k q : Nat} (v : α) (h : q ≠ k) :
    Map.get d (Map.put m k v) q = Map.get d m q := by
  induction m with
  | nil => simp [Map.put, Map.get, Ne.symm h]
  | cons e m ih =>
    obtain ⟨j, w⟩ := e
    simp only [Map.put]
    split
    · simp [Map.get, Ne.symm h]
    · split
      · rename_i h2; subst h2; simp [Map.get, Ne.symm h]
      · simp [Map.get, ih]

@[simp] theorem map_get_del_same (d : Nat → α) (m : Map α) (k : Nat) : Map.get d (Map.del m k) k = d k := by
  induction m with
  | nil => simp [Map.del, Map.get]
  | cons e m ih =>
    obtain ⟨j, w⟩ := e
    rw [map_del_cons]
    by_cases h : j = k
    · simp [h, ih]
    · simp [h, Map.get, ih]

theorem map_get_del_ne (d : Nat → α) (m : Map α) {k q : Nat} (h : q ≠ k) : Map.get d (Map.del m k) q = Map.get d m q := by
  induction m with
  | nil => simp [Map.del, Map.get]
  | cons e m ih =>
    obtain ⟨j, w⟩ := e
    rw [map_del_cons]
    by_cases hj : j = k
    · subst hj; simp [Map.get, ih, Ne.symm h]
    · simp [hj, Map.get, ih]

@[simp] theorem map_get_set_same [DecidableEq α] (d : Nat → α) (m : Map α) (k : Nat) (v : α) :
    Map.get d (Map.set d m k v) k = v := by
  unfold Map.set; split
  · rename_i h; simp [h]
  · simp

theorem map_get_set_ne [DecidableEq α] (d : Nat → α) (m : Map α) {k q : Nat} (v : α) (h : q ≠ k) :
    Map.get d (Map.set d m k v) q = Map.get d m q := by
  unfold Map.set; split
  · exact map_get_del_ne d m h
  · exact map_get_put_ne d m v h

@[simp] theorem map_find_put_same (m : Map α) (k : Nat) (v : α) : Map.find? (Map.put m k v) k = some v := by
  induction m with
  | nil => simp [Map.put, Map.find?]
  | cons e m ih =>
    obtain ⟨j, w⟩ := e
    simp only [Map.put]
    split
    · simp [Map.find?]
    · split
      · simp [Map.find?]
      · rename_i h; simp [Map.find?, ih, Ne.symm h]

theorem map_find_put_ne (m : Map α) {k q : Nat} (v : α) (h : q ≠ k) : Map.find? (Map.put m k v) q = Map.find? m q := by
  induction m with
  | nil => simp [Map.put, Map.find?, Ne.symm h]
  | cons e m ih =>
    obtain ⟨j, w⟩ := e
    simp only [Map.put]
    split
    · simp [Map.find?, Ne.symm h]
    · split
      · rename_i h2; subst h2; simp [Map.find?, Ne.symm h]
      · simp [Map.find?, ih]

@[simp] theorem map_find_del_same (m : Map α) (k : Nat) : Map.find? (Map.del m k) k = none := by
  induction m with
  | nil => simp [Map.del, Map.find?]
  | cons e m ih =>
    obtain ⟨j, w⟩ := e
    rw [map_del_cons]
    by_cases h : j = k
    · simp [h, ih]
    · simp [h, Map.find?, ih]

theorem map_find_del_ne (m : Map α) {k q : Nat} (h : q ≠ k) : Map.find? (Map.del m k) q = Map.find? m q := by
  induction m with
  | nil => simp [Map.del, Map.find?]
  | cons e m ih =>
    obtain ⟨j, w⟩ := e
    rw [map_del_cons]
    by_cases hj : j = k
    · subst hj; simp [Map.find?, ih, Ne.symm h]
    · simp [hj, Map.find?, ih]

/-! ## The canonical form -/

theorem map_rises_weaken {b c : Nat} (h : b ≤ c) (m : Map α) (hm : Map.risesFrom c m = true) : Map.risesFrom b m = true := by
  cases m with
  | nil => rfl
  | cons e m =>
    obtain ⟨j, w⟩ := e
    simp only [Map.risesFrom, Bool.and_eq_true, decide_eq_true_eq] at hm ⊢
    exact ⟨by omega, hm.2⟩

theorem map_rises_put (b : Nat) (m : Map α) (k : Nat) (v : α) (hk : b ≤ k) (hm : Map.risesFrom b m = true) :
    Map.risesFrom b (Map.put m k v) = true := by
  induction m generalizing b with
  | nil => simp [Map.put, Map.risesFrom, hk]
  | cons e m ih =>
    obtain ⟨j, w⟩ := e
    simp only [Map.risesFrom, Bool.and_eq_true, decide_eq_true_eq] at hm
    simp only [Map.put]
    split
    · rename_i h
      simp only [Map.risesFrom, Bool.and_eq_true, decide_eq_true_eq]
      exact ⟨hk, by omega, hm.2⟩
    · split
      · rename_i h; subst h
        simp only [Map.risesFrom, Bool.and_eq_true, decide_eq_true_eq]
        exact ⟨hk, hm.2⟩
      · simp only [Map.risesFrom, Bool.and_eq_true, decide_eq_true_eq]
        exact ⟨hm.1, ih (j + 1) (by omega) hm.2⟩

theorem map_rises_filter (p : Nat × α → Bool) (b : Nat) (m : Map α) (hm : Map.risesFrom b m = true) :
    Map.risesFrom b (m.filter p) = true := by
  induction m generalizing b with
  | nil => rfl
  | cons e m ih =>
    obtain ⟨j, w⟩ := e
    simp only [Map.risesFrom, Bool.and_eq_true, decide_eq_true_eq] at hm
    simp only [List.filter_cons]
    split
    · simp only [Map.risesFrom, Bool.and_eq_true, decide_eq_true_eq]
      exact ⟨hm.1, ih _ hm.2⟩
    · exact map_rises_weaken (by omega) _ (ih _ hm.2)

theorem map_mem_put (m : Map α) (k : Nat) (v : α) (e : Nat × α) (h : e ∈ Map.put m k v) : e = (k, v) ∨ e ∈ m := by
  induction m with
  | nil => left; simpa [Map.put] using h
  | cons x m ih =>
    obtain ⟨j, w⟩ := x
    simp only [Map.put] at h
    split at h
    · simpa using h
    · split at h
      · rcases List.mem_cons.mp h with h | h
        · left; exact h
        · right; exact List.mem_cons_of_mem _ h
      · rcases List.mem_cons.mp h with h | h
        · right; subst h; exact List.mem_cons_self
        · rcases ih h with h | h
          · left; exact h
          · right; exact List.mem_cons_of_mem _ h

theorem map_wf_filter [DecidableEq α] (d : Nat → α) (p : Nat × α → Bool) (m : Map α) (hm : Map.wf d m = true) :
    Map.wf d (m.filter p) = true := by
  simp only [Map.wf, Bool.and_eq_true, List.all_eq_true] at hm ⊢
  exact ⟨map_rises_filter p 0 m hm.1, fun e he => hm.2 e (List.mem_filter.mp he).1⟩

theorem map_wf_set [DecidableEq α] (d : Nat → α) (m : Map α) (k : Nat) (v : α) (hm : Map.wf d m = true) :
    Map.wf d (Map.set d m k v) = true := by
  unfold Map.set
  split
  · exact map_wf_filter d _ m hm
  · rename_i h
    simp only [Map.wf, Bool.and_eq_true, List.all_eq_true] at hm ⊢
    refine ⟨map_rises_put 0 m k v (Nat.zero_le _) hm.1, fun e he => ?_⟩
    rcases map_mem_put m k v e he with rfl | he
    · simpa using h
    · exact hm.2 e he

/-! ## Bit fields of a number -/

theorem bitsOf_lt (v lo w : Nat) : bitsOf v lo w < 2 ^ w := Nat.mod_lt _ (Nat.two_pow_pos w)

/-- A number with a field replaced, as its three parts. -/
theorem withBits_parts (v lo w x : Nat) :
    withBits v lo w x = (v / 2 ^ (lo + w)) * 2 ^ (lo + w) + (x % 2 ^ w) * 2 ^ lo + v % 2 ^ lo := by
  have h1 : v = 2 ^ lo * (v / 2 ^ lo) + v % 2 ^ lo := (Nat.div_add_mod v (2 ^ lo)).symm
  have h2 : v / 2 ^ lo = 2 ^ w * (v / 2 ^ lo / 2 ^ w) + v / 2 ^ lo % 2 ^ w := (Nat.div_add_mod _ _).symm
  have h3 : v / 2 ^ (lo + w) = v / 2 ^ lo / 2 ^ w := by rw [Nat.pow_add, Nat.div_div_eq_div_mul]
  have h4 : v = (v / 2 ^ lo / 2 ^ w) * 2 ^ (lo + w) + bitsOf v lo w * 2 ^ lo + v % 2 ^ lo := by
    unfold bitsOf
    conv_lhs => rw [h1, h2]
    rw [Nat.pow_add]; ring
  unfold withBits
  rw [h3]
  omega

theorem bitsOf_parts (h m l lo w : Nat) (hl : l < 2 ^ lo) (hm : m < 2 ^ w) :
    bitsOf (h * 2 ^ (lo + w) + m * 2 ^ lo + l) lo w = m := by
  unfold bitsOf
  have e : h * 2 ^ (lo + w) + m * 2 ^ lo + l = l + 2 ^ lo * (m + 2 ^ w * h) := by rw [Nat.pow_add]; ring
  rw [e, Nat.add_mul_div_left _ _ (Nat.two_pow_pos lo), Nat.div_eq_of_lt hl, Nat.zero_add, Nat.add_mul_mod_self_left,
    Nat.mod_eq_of_lt hm]

/-- A field reads what was written into it. -/
@[simp] theorem bitsOf_withBits_same (v lo w x : Nat) : bitsOf (withBits v lo w x) lo w = x % 2 ^ w := by
  rw [withBits_parts]
  exact bitsOf_parts _ _ _ _ _ (Nat.mod_lt _ (Nat.two_pow_pos lo)) (Nat.mod_lt _ (Nat.two_pow_pos w))

/-- A field below the one written is as before. -/
theorem bitsOf_withBits_below (v lo w x q u : Nat) (h : q + u ≤ lo) : bitsOf (withBits v lo w x) q u = bitsOf v q u := by
  have key : ∀ n, bitsOf n q u = n % 2 ^ lo / 2 ^ q % 2 ^ u := by
    intro n
    have e : lo = q + (lo - q) := by omega
    unfold bitsOf
    conv_rhs => rw [e, Nat.pow_add, Nat.mod_mul_right_div_self]
    rw [Nat.mod_mod_of_dvd _ (Nat.pow_dvd_pow 2 (by omega))]
  rw [key, key v, withBits_parts]
  congr 2
  have e : v / 2 ^ (lo + w) * 2 ^ (lo + w) + x % 2 ^ w * 2 ^ lo + v % 2 ^ lo =
      v % 2 ^ lo + 2 ^ lo * (v / 2 ^ (lo + w) * 2 ^ w + x % 2 ^ w) := by rw [Nat.pow_add]; ring
  rw [e, Nat.add_mul_mod_self_left, Nat.mod_mod]

/-- A field above the one written is as before. -/
theorem bitsOf_withBits_above (v lo w x q u : Nat) (h : lo + w ≤ q) : bitsOf (withBits v lo w x) q u = bitsOf v q u := by
  have key : ∀ n, bitsOf n q u = n / 2 ^ (lo + w) / 2 ^ (q - (lo + w)) % 2 ^ u := by
    intro n
    unfold bitsOf
    rw [Nat.div_div_eq_div_mul, ← Nat.pow_add]
    congr 3; omega
  rw [key, key v, withBits_parts]
  congr 2
  have e : v / 2 ^ (lo + w) * 2 ^ (lo + w) + x % 2 ^ w * 2 ^ lo + v % 2 ^ lo =
      (x % 2 ^ w * 2 ^ lo + v % 2 ^ lo) + 2 ^ (lo + w) * (v / 2 ^ (lo + w)) := by ring
  have l : x % 2 ^ w * 2 ^ lo + v % 2 ^ lo < 2 ^ (lo + w) := by
    have a := Nat.mod_lt x (Nat.two_pow_pos w)
    have b := Nat.mod_lt v (Nat.two_pow_pos lo)
    have c : (x % 2 ^ w + 1) * 2 ^ lo ≤ 2 ^ w * 2 ^ lo := Nat.mul_le_mul_right _ a
    rw [Nat.pow_add, Nat.mul_comm (2 ^ lo)]
    linarith [Nat.add_mul (x % 2 ^ w) 1 (2 ^ lo)]
  rw [e, Nat.add_mul_div_left _ _ (Nat.two_pow_pos _), Nat.div_eq_of_lt l, Nat.zero_add]

/-- A field of a number taken to 32 bits. -/
theorem bitsOf_mod (v q u : Nat) (h : q + u ≤ 32) : bitsOf (v % 2 ^ 32) q u = bitsOf v q u := by
  unfold bitsOf
  have e : (2 : Nat) ^ 32 = 2 ^ q * 2 ^ (32 - q) := by rw [← Nat.pow_add]; congr 1; omega
  rw [e, Nat.mod_mul_right_div_self, Nat.mod_mod_of_dvd _ (Nat.pow_dvd_pow 2 (by omega))]

end Sys2Proof
end

