-- ==== Sys2Proof/Laws/State.lean ====
section
/-!
SUPPORT. What each named update of the state leaves alone: one lemma for each field and update, true by definition.
-/

namespace Sys2Proof.Machine

@[simp] theorem draw_pending (s : State) : (draw s).pending = s.pending := rfl
@[simp] theorem draw_rdata (s : State) : (draw s).rdata = s.rdata := rfl
@[simp] theorem draw_member (s : State) : (draw s).member = s.member := rfl
@[simp] theorem draw_regs (s : State) : (draw s).regs = s.regs := rfl
@[simp] theorem draw_inForce (s : State) : (draw s).inForce = s.inForce := rfl
@[simp] theorem draw_calOld (s : State) : (draw s).calOld = s.calOld := rfl
@[simp] theorem draw_cnt (s : State) : (draw s).cnt = s.cnt := rfl
@[simp] theorem draw_snap (s : State) : (draw s).snap = s.snap := rfl
@[simp] theorem draw_swcnt (s : State) : (draw s).swcnt = s.swcnt := rfl
@[simp] theorem draw_fmem (s : State) : (draw s).fmem = s.fmem := rfl
@[simp] theorem draw_hmem (s : State) : (draw s).hmem = s.hmem := rfl
@[simp] theorem draw_fbad (s : State) : (draw s).fbad = s.fbad := rfl
@[simp] theorem draw_ot (s : State) : (draw s).ot = s.ot := rfl
@[simp] theorem draw_otFrac (s : State) : (draw s).otFrac = s.otFrac := rfl
@[simp] theorem draw_otp (s : State) : (draw s).otp = s.otp := rfl
@[simp] theorem draw_tagCount (s : State) : (draw s).tagCount = s.tagCount := rfl
@[simp] theorem draw_tagDraws (s : State) : (draw s).tagDraws = s.tagDraws := rfl
@[simp] theorem draw_sch (s : State) : (draw s).sch = s.sch := rfl
@[simp] theorem draw_vat (s : State) : (draw s).vat = s.vat := rfl
@[simp] theorem draw_hst (s : State) : (draw s).hst = s.hst := rfl
@[simp] theorem draw_tim (s : State) : (draw s).tim = s.tim := rfl
@[simp] theorem draw_glz (s : State) : (draw s).glz = s.glz := rfl
@[simp] theorem draw_epg (s : State) : (draw s).epg = s.epg := rfl
@[simp] theorem draw_prt (s : State) : (draw s).prt = s.prt := rfl
@[simp] theorem draw_twn (s : State) : (draw s).twn = s.twn := rfl
@[simp] theorem draw_pwr (s : State) : (draw s).pwr = s.pwr := rfl
@[simp] theorem draw_bst (s : State) : (draw s).bst = s.bst := rfl

@[simp] theorem hmemPut_pending (fn a : Nat) (bs : List Byte) (s : State) : (hmemPut fn a bs s).pending = s.pending := rfl
@[simp] theorem hmemPut_free (fn a : Nat) (bs : List Byte) (s : State) : (hmemPut fn a bs s).free = s.free := rfl
@[simp] theorem hmemPut_rdata (fn a : Nat) (bs : List Byte) (s : State) : (hmemPut fn a bs s).rdata = s.rdata := rfl
@[simp] theorem hmemPut_member (fn a : Nat) (bs : List Byte) (s : State) : (hmemPut fn a bs s).member = s.member := rfl
@[simp] theorem hmemPut_regs (fn a : Nat) (bs : List Byte) (s : State) : (hmemPut fn a bs s).regs = s.regs := rfl
@[simp] theorem hmemPut_inForce (fn a : Nat) (bs : List Byte) (s : State) : (hmemPut fn a bs s).inForce = s.inForce := rfl
@[simp] theorem hmemPut_calOld (fn a : Nat) (bs : List Byte) (s : State) : (hmemPut fn a bs s).calOld = s.calOld := rfl
@[simp] theorem hmemPut_cnt (fn a : Nat) (bs : List Byte) (s : State) : (hmemPut fn a bs s).cnt = s.cnt := rfl
@[simp] theorem hmemPut_snap (fn a : Nat) (bs : List Byte) (s : State) : (hmemPut fn a bs s).snap = s.snap := rfl
@[simp] theorem hmemPut_swcnt (fn a : Nat) (bs : List Byte) (s : State) : (hmemPut fn a bs s).swcnt = s.swcnt := rfl
@[simp] theorem hmemPut_fmem (fn a : Nat) (bs : List Byte) (s : State) : (hmemPut fn a bs s).fmem = s.fmem := rfl
@[simp] theorem hmemPut_fbad (fn a : Nat) (bs : List Byte) (s : State) : (hmemPut fn a bs s).fbad = s.fbad := rfl
@[simp] theorem hmemPut_ot (fn a : Nat) (bs : List Byte) (s : State) : (hmemPut fn a bs s).ot = s.ot := rfl
@[simp] theorem hmemPut_otFrac (fn a : Nat) (bs : List Byte) (s : State) : (hmemPut fn a bs s).otFrac = s.otFrac := rfl
@[simp] theorem hmemPut_otp (fn a : Nat) (bs : List Byte) (s : State) : (hmemPut fn a bs s).otp = s.otp := rfl
@[simp] theorem hmemPut_tagCount (fn a : Nat) (bs : List Byte) (s : State) : (hmemPut fn a bs s).tagCount = s.tagCount := rfl
@[simp] theorem hmemPut_tagDraws (fn a : Nat) (bs : List Byte) (s : State) : (hmemPut fn a bs s).tagDraws = s.tagDraws := rfl
@[simp] theorem hmemPut_sch (fn a : Nat) (bs : List Byte) (s : State) : (hmemPut fn a bs s).sch = s.sch := rfl
@[simp] theorem hmemPut_vat (fn a : Nat) (bs : List Byte) (s : State) : (hmemPut fn a bs s).vat = s.vat := rfl
@[simp] theorem hmemPut_hst (fn a : Nat) (bs : List Byte) (s : State) : (hmemPut fn a bs s).hst = s.hst := rfl
@[simp] theorem hmemPut_tim (fn a : Nat) (bs : List Byte) (s : State) : (hmemPut fn a bs s).tim = s.tim := rfl
@[simp] theorem hmemPut_glz (fn a : Nat) (bs : List Byte) (s : State) : (hmemPut fn a bs s).glz = s.glz := rfl
@[simp] theorem hmemPut_epg (fn a : Nat) (bs : List Byte) (s : State) : (hmemPut fn a bs s).epg = s.epg := rfl
@[simp] theorem hmemPut_prt (fn a : Nat) (bs : List Byte) (s : State) : (hmemPut fn a bs s).prt = s.prt := rfl
@[simp] theorem hmemPut_twn (fn a : Nat) (bs : List Byte) (s : State) : (hmemPut fn a bs s).twn = s.twn := rfl
@[simp] theorem hmemPut_pwr (fn a : Nat) (bs : List Byte) (s : State) : (hmemPut fn a bs s).pwr = s.pwr := rfl
@[simp] theorem hmemPut_bst (fn a : Nat) (bs : List Byte) (s : State) : (hmemPut fn a bs s).bst = s.bst := rfl

@[simp] theorem count_pending (k n : Nat) (s : State) : (count k n s).pending = s.pending := rfl
@[simp] theorem count_free (k n : Nat) (s : State) : (count k n s).free = s.free := rfl
@[simp] theorem count_rdata (k n : Nat) (s : State) : (count k n s).rdata = s.rdata := rfl
@[simp] theorem count_member (k n : Nat) (s : State) : (count k n s).member = s.member := rfl
@[simp] theorem count_regs (k n : Nat) (s : State) : (count k n s).regs = s.regs := rfl
@[simp] theorem count_inForce (k n : Nat) (s : State) : (count k n s).inForce = s.inForce := rfl
@[simp] theorem count_calOld (k n : Nat) (s : State) : (count k n s).calOld = s.calOld := rfl
@[simp] theorem count_snap (k n : Nat) (s : State) : (count k n s).snap = s.snap := rfl
@[simp] theorem count_swcnt (k n : Nat) (s : State) : (count k n s).swcnt = s.swcnt := rfl
@[simp] theorem count_fmem (k n : Nat) (s : State) : (count k n s).fmem = s.fmem := rfl
@[simp] theorem count_hmem (k n : Nat) (s : State) : (count k n s).hmem = s.hmem := rfl
@[simp] theorem count_fbad (k n : Nat) (s : State) : (count k n s).fbad = s.fbad := rfl
@[simp] theorem count_ot (k n : Nat) (s : State) : (count k n s).ot = s.ot := rfl
@[simp] theorem count_otFrac (k n : Nat) (s : State) : (count k n s).otFrac = s.otFrac := rfl
@[simp] theorem count_otp (k n : Nat) (s : State) : (count k n s).otp = s.otp := rfl
@[simp] theorem count_tagCount (k n : Nat) (s : State) : (count k n s).tagCount = s.tagCount := rfl
@[simp] theorem count_tagDraws (k n : Nat) (s : State) : (count k n s).tagDraws = s.tagDraws := rfl
@[simp] theorem count_sch (k n : Nat) (s : State) : (count k n s).sch = s.sch := rfl
@[simp] theorem count_vat (k n : Nat) (s : State) : (count k n s).vat = s.vat := rfl
@[simp] theorem count_hst (k n : Nat) (s : State) : (count k n s).hst = s.hst := rfl
@[simp] theorem count_tim (k n : Nat) (s : State) : (count k n s).tim = s.tim := rfl
@[simp] theorem count_glz (k n : Nat) (s : State) : (count k n s).glz = s.glz := rfl
@[simp] theorem count_epg (k n : Nat) (s : State) : (count k n s).epg = s.epg := rfl
@[simp] theorem count_prt (k n : Nat) (s : State) : (count k n s).prt = s.prt := rfl
@[simp] theorem count_twn (k n : Nat) (s : State) : (count k n s).twn = s.twn := rfl
@[simp] theorem count_pwr (k n : Nat) (s : State) : (count k n s).pwr = s.pwr := rfl
@[simp] theorem count_bst (k n : Nat) (s : State) : (count k n s).bst = s.bst := rfl

@[simp] theorem bump_pending (c : Cnt) (s : State) : (bump c s).pending = s.pending := rfl
@[simp] theorem bump_free (c : Cnt) (s : State) : (bump c s).free = s.free := rfl
@[simp] theorem bump_rdata (c : Cnt) (s : State) : (bump c s).rdata = s.rdata := rfl
@[simp] theorem bump_member (c : Cnt) (s : State) : (bump c s).member = s.member := rfl
@[simp] theorem bump_regs (c : Cnt) (s : State) : (bump c s).regs = s.regs := rfl
@[simp] theorem bump_inForce (c : Cnt) (s : State) : (bump c s).inForce = s.inForce := rfl
@[simp] theorem bump_calOld (c : Cnt) (s : State) : (bump c s).calOld = s.calOld := rfl
@[simp] theorem bump_snap (c : Cnt) (s : State) : (bump c s).snap = s.snap := rfl
@[simp] theorem bump_swcnt (c : Cnt) (s : State) : (bump c s).swcnt = s.swcnt := rfl
@[simp] theorem bump_fmem (c : Cnt) (s : State) : (bump c s).fmem = s.fmem := rfl
@[simp] theorem bump_hmem (c : Cnt) (s : State) : (bump c s).hmem = s.hmem := rfl
@[simp] theorem bump_fbad (c : Cnt) (s : State) : (bump c s).fbad = s.fbad := rfl
@[simp] theorem bump_ot (c : Cnt) (s : State) : (bump c s).ot = s.ot := rfl
@[simp] theorem bump_otFrac (c : Cnt) (s : State) : (bump c s).otFrac = s.otFrac := rfl
@[simp] theorem bump_otp (c : Cnt) (s : State) : (bump c s).otp = s.otp := rfl
@[simp] theorem bump_tagCount (c : Cnt) (s : State) : (bump c s).tagCount = s.tagCount := rfl
@[simp] theorem bump_tagDraws (c : Cnt) (s : State) : (bump c s).tagDraws = s.tagDraws := rfl
@[simp] theorem bump_sch (c : Cnt) (s : State) : (bump c s).sch = s.sch := rfl
@[simp] theorem bump_vat (c : Cnt) (s : State) : (bump c s).vat = s.vat := rfl
@[simp] theorem bump_hst (c : Cnt) (s : State) : (bump c s).hst = s.hst := rfl
@[simp] theorem bump_tim (c : Cnt) (s : State) : (bump c s).tim = s.tim := rfl
@[simp] theorem bump_glz (c : Cnt) (s : State) : (bump c s).glz = s.glz := rfl
@[simp] theorem bump_epg (c : Cnt) (s : State) : (bump c s).epg = s.epg := rfl
@[simp] theorem bump_prt (c : Cnt) (s : State) : (bump c s).prt = s.prt := rfl
@[simp] theorem bump_twn (c : Cnt) (s : State) : (bump c s).twn = s.twn := rfl
@[simp] theorem bump_pwr (c : Cnt) (s : State) : (bump c s).pwr = s.pwr := rfl
@[simp] theorem bump_bst (c : Cnt) (s : State) : (bump c s).bst = s.bst := rfl

@[simp] theorem slowOn_pending (ns : Nat) (s : State) : (slowOn ns s).pending = s.pending := rfl
@[simp] theorem slowOn_free (ns : Nat) (s : State) : (slowOn ns s).free = s.free := rfl
@[simp] theorem slowOn_rdata (ns : Nat) (s : State) : (slowOn ns s).rdata = s.rdata := rfl
@[simp] theorem slowOn_member (ns : Nat) (s : State) : (slowOn ns s).member = s.member := rfl
@[simp] theorem slowOn_regs (ns : Nat) (s : State) : (slowOn ns s).regs = s.regs := rfl
@[simp] theorem slowOn_inForce (ns : Nat) (s : State) : (slowOn ns s).inForce = s.inForce := rfl
@[simp] theorem slowOn_calOld (ns : Nat) (s : State) : (slowOn ns s).calOld = s.calOld := rfl
@[simp] theorem slowOn_cnt (ns : Nat) (s : State) : (slowOn ns s).cnt = s.cnt := rfl
@[simp] theorem slowOn_snap (ns : Nat) (s : State) : (slowOn ns s).snap = s.snap := rfl
@[simp] theorem slowOn_swcnt (ns : Nat) (s : State) : (slowOn ns s).swcnt = s.swcnt := rfl
@[simp] theorem slowOn_fmem (ns : Nat) (s : State) : (slowOn ns s).fmem = s.fmem := rfl
@[simp] theorem slowOn_hmem (ns : Nat) (s : State) : (slowOn ns s).hmem = s.hmem := rfl
@[simp] theorem slowOn_fbad (ns : Nat) (s : State) : (slowOn ns s).fbad = s.fbad := rfl
@[simp] theorem slowOn_ot (ns : Nat) (s : State) : (slowOn ns s).ot = s.ot := rfl
@[simp] theorem slowOn_otFrac (ns : Nat) (s : State) : (slowOn ns s).otFrac = s.otFrac := rfl
@[simp] theorem slowOn_otp (ns : Nat) (s : State) : (slowOn ns s).otp = s.otp := rfl
@[simp] theorem slowOn_tagCount (ns : Nat) (s : State) : (slowOn ns s).tagCount = s.tagCount := rfl
@[simp] theorem slowOn_tagDraws (ns : Nat) (s : State) : (slowOn ns s).tagDraws = s.tagDraws := rfl
@[simp] theorem slowOn_sch (ns : Nat) (s : State) : (slowOn ns s).sch = s.sch := rfl
@[simp] theorem slowOn_vat (ns : Nat) (s : State) : (slowOn ns s).vat = s.vat := rfl
@[simp] theorem slowOn_hst (ns : Nat) (s : State) : (slowOn ns s).hst = s.hst := rfl
@[simp] theorem slowOn_tim (ns : Nat) (s : State) : (slowOn ns s).tim = s.tim := rfl
@[simp] theorem slowOn_glz (ns : Nat) (s : State) : (slowOn ns s).glz = s.glz := rfl
@[simp] theorem slowOn_epg (ns : Nat) (s : State) : (slowOn ns s).epg = s.epg := rfl
@[simp] theorem slowOn_prt (ns : Nat) (s : State) : (slowOn ns s).prt = s.prt := rfl
@[simp] theorem slowOn_twn (ns : Nat) (s : State) : (slowOn ns s).twn = s.twn := rfl
@[simp] theorem slowOn_bst (ns : Nat) (s : State) : (slowOn ns s).bst = s.bst := rfl

@[simp] theorem setTask_pending (t : Task) (s : State) : (setTask t s).pending = s.pending := rfl
@[simp] theorem setTask_free (t : Task) (s : State) : (setTask t s).free = s.free := rfl
@[simp] theorem setTask_rdata (t : Task) (s : State) : (setTask t s).rdata = s.rdata := rfl
@[simp] theorem setTask_member (t : Task) (s : State) : (setTask t s).member = s.member := rfl
@[simp] theorem setTask_regs (t : Task) (s : State) : (setTask t s).regs = s.regs := rfl
@[simp] theorem setTask_inForce (t : Task) (s : State) : (setTask t s).inForce = s.inForce := rfl
@[simp] theorem setTask_calOld (t : Task) (s : State) : (setTask t s).calOld = s.calOld := rfl
@[simp] theorem setTask_cnt (t : Task) (s : State) : (setTask t s).cnt = s.cnt := rfl
@[simp] theorem setTask_snap (t : Task) (s : State) : (setTask t s).snap = s.snap := rfl
@[simp] theorem setTask_swcnt (t : Task) (s : State) : (setTask t s).swcnt = s.swcnt := rfl
@[simp] theorem setTask_fmem (t : Task) (s : State) : (setTask t s).fmem = s.fmem := rfl
@[simp] theorem setTask_hmem (t : Task) (s : State) : (setTask t s).hmem = s.hmem := rfl
@[simp] theorem setTask_fbad (t : Task) (s : State) : (setTask t s).fbad = s.fbad := rfl
@[simp] theorem setTask_ot (t : Task) (s : State) : (setTask t s).ot = s.ot := rfl
@[simp] theorem setTask_otFrac (t : Task) (s : State) : (setTask t s).otFrac = s.otFrac := rfl
@[simp] theorem setTask_otp (t : Task) (s : State) : (setTask t s).otp = s.otp := rfl
@[simp] theorem setTask_tagCount (t : Task) (s : State) : (setTask t s).tagCount = s.tagCount := rfl
@[simp] theorem setTask_tagDraws (t : Task) (s : State) : (setTask t s).tagDraws = s.tagDraws := rfl
@[simp] theorem setTask_vat (t : Task) (s : State) : (setTask t s).vat = s.vat := rfl
@[simp] theorem setTask_hst (t : Task) (s : State) : (setTask t s).hst = s.hst := rfl
@[simp] theorem setTask_tim (t : Task) (s : State) : (setTask t s).tim = s.tim := rfl
@[simp] theorem setTask_glz (t : Task) (s : State) : (setTask t s).glz = s.glz := rfl
@[simp] theorem setTask_epg (t : Task) (s : State) : (setTask t s).epg = s.epg := rfl
@[simp] theorem setTask_prt (t : Task) (s : State) : (setTask t s).prt = s.prt := rfl
@[simp] theorem setTask_twn (t : Task) (s : State) : (setTask t s).twn = s.twn := rfl
@[simp] theorem setTask_pwr (t : Task) (s : State) : (setTask t s).pwr = s.pwr := rfl
@[simp] theorem setTask_bst (t : Task) (s : State) : (setTask t s).bst = s.bst := rfl

@[simp] theorem addCoreTime_pending (c n : Nat) (s : State) : (addCoreTime c n s).pending = s.pending := rfl
@[simp] theorem addCoreTime_free (c n : Nat) (s : State) : (addCoreTime c n s).free = s.free := rfl
@[simp] theorem addCoreTime_rdata (c n : Nat) (s : State) : (addCoreTime c n s).rdata = s.rdata := rfl
@[simp] theorem addCoreTime_member (c n : Nat) (s : State) : (addCoreTime c n s).member = s.member := rfl
@[simp] theorem addCoreTime_regs (c n : Nat) (s : State) : (addCoreTime c n s).regs = s.regs := rfl
@[simp] theorem addCoreTime_inForce (c n : Nat) (s : State) : (addCoreTime c n s).inForce = s.inForce := rfl
@[simp] theorem addCoreTime_calOld (c n : Nat) (s : State) : (addCoreTime c n s).calOld = s.calOld := rfl
@[simp] theorem addCoreTime_cnt (c n : Nat) (s : State) : (addCoreTime c n s).cnt = s.cnt := rfl
@[simp] theorem addCoreTime_snap (c n : Nat) (s : State) : (addCoreTime c n s).snap = s.snap := rfl
@[simp] theorem addCoreTime_swcnt (c n : Nat) (s : State) : (addCoreTime c n s).swcnt = s.swcnt := rfl
@[simp] theorem addCoreTime_fmem (c n : Nat) (s : State) : (addCoreTime c n s).fmem = s.fmem := rfl
@[simp] theorem addCoreTime_hmem (c n : Nat) (s : State) : (addCoreTime c n s).hmem = s.hmem := rfl
@[simp] theorem addCoreTime_fbad (c n : Nat) (s : State) : (addCoreTime c n s).fbad = s.fbad := rfl
@[simp] theorem addCoreTime_ot (c n : Nat) (s : State) : (addCoreTime c n s).ot = s.ot := rfl
@[simp] theorem addCoreTime_otFrac (c n : Nat) (s : State) : (addCoreTime c n s).otFrac = s.otFrac := rfl
@[simp] theorem addCoreTime_otp (c n : Nat) (s : State) : (addCoreTime c n s).otp = s.otp := rfl
@[simp] theorem addCoreTime_tagCount (c n : Nat) (s : State) : (addCoreTime c n s).tagCount = s.tagCount := rfl
@[simp] theorem addCoreTime_tagDraws (c n : Nat) (s : State) : (addCoreTime c n s).tagDraws = s.tagDraws := rfl
@[simp] theorem addCoreTime_vat (c n : Nat) (s : State) : (addCoreTime c n s).vat = s.vat := rfl
@[simp] theorem addCoreTime_hst (c n : Nat) (s : State) : (addCoreTime c n s).hst = s.hst := rfl
@[simp] theorem addCoreTime_tim (c n : Nat) (s : State) : (addCoreTime c n s).tim = s.tim := rfl
@[simp] theorem addCoreTime_glz (c n : Nat) (s : State) : (addCoreTime c n s).glz = s.glz := rfl
@[simp] theorem addCoreTime_epg (c n : Nat) (s : State) : (addCoreTime c n s).epg = s.epg := rfl
@[simp] theorem addCoreTime_prt (c n : Nat) (s : State) : (addCoreTime c n s).prt = s.prt := rfl
@[simp] theorem addCoreTime_twn (c n : Nat) (s : State) : (addCoreTime c n s).twn = s.twn := rfl
@[simp] theorem addCoreTime_pwr (c n : Nat) (s : State) : (addCoreTime c n s).pwr = s.pwr := rfl
@[simp] theorem addCoreTime_bst (c n : Nat) (s : State) : (addCoreTime c n s).bst = s.bst := rfl

@[simp] theorem setCanvas_pending (c : Nat) (v : Canvas) (s : State) : (setCanvas c v s).pending = s.pending := rfl
@[simp] theorem setCanvas_free (c : Nat) (v : Canvas) (s : State) : (setCanvas c v s).free = s.free := rfl
@[simp] theorem setCanvas_rdata (c : Nat) (v : Canvas) (s : State) : (setCanvas c v s).rdata = s.rdata := rfl
@[simp] theorem setCanvas_member (c : Nat) (v : Canvas) (s : State) : (setCanvas c v s).member = s.member := rfl
@[simp] theorem setCanvas_regs (c : Nat) (v : Canvas) (s : State) : (setCanvas c v s).regs = s.regs := rfl
@[simp] theorem setCanvas_inForce (c : Nat) (v : Canvas) (s : State) : (setCanvas c v s).inForce = s.inForce := rfl
@[simp] theorem setCanvas_calOld (c : Nat) (v : Canvas) (s : State) : (setCanvas c v s).calOld = s.calOld := rfl
@[simp] theorem setCanvas_cnt (c : Nat) (v : Canvas) (s : State) : (setCanvas c v s).cnt = s.cnt := rfl
@[simp] theorem setCanvas_snap (c : Nat) (v : Canvas) (s : State) : (setCanvas c v s).snap = s.snap := rfl
@[simp] theorem setCanvas_swcnt (c : Nat) (v : Canvas) (s : State) : (setCanvas c v s).swcnt = s.swcnt := rfl
@[simp] theorem setCanvas_fmem (c : Nat) (v : Canvas) (s : State) : (setCanvas c v s).fmem = s.fmem := rfl
@[simp] theorem setCanvas_hmem (c : Nat) (v : Canvas) (s : State) : (setCanvas c v s).hmem = s.hmem := rfl
@[simp] theorem setCanvas_fbad (c : Nat) (v : Canvas) (s : State) : (setCanvas c v s).fbad = s.fbad := rfl
@[simp] theorem setCanvas_ot (c : Nat) (v : Canvas) (s : State) : (setCanvas c v s).ot = s.ot := rfl
@[simp] theorem setCanvas_otFrac (c : Nat) (v : Canvas) (s : State) : (setCanvas c v s).otFrac = s.otFrac := rfl
@[simp] theorem setCanvas_otp (c : Nat) (v : Canvas) (s : State) : (setCanvas c v s).otp = s.otp := rfl
@[simp] theorem setCanvas_tagCount (c : Nat) (v : Canvas) (s : State) : (setCanvas c v s).tagCount = s.tagCount := rfl
@[simp] theorem setCanvas_tagDraws (c : Nat) (v : Canvas) (s : State) : (setCanvas c v s).tagDraws = s.tagDraws := rfl
@[simp] theorem setCanvas_sch (c : Nat) (v : Canvas) (s : State) : (setCanvas c v s).sch = s.sch := rfl
@[simp] theorem setCanvas_hst (c : Nat) (v : Canvas) (s : State) : (setCanvas c v s).hst = s.hst := rfl
@[simp] theorem setCanvas_tim (c : Nat) (v : Canvas) (s : State) : (setCanvas c v s).tim = s.tim := rfl
@[simp] theorem setCanvas_glz (c : Nat) (v : Canvas) (s : State) : (setCanvas c v s).glz = s.glz := rfl
@[simp] theorem setCanvas_epg (c : Nat) (v : Canvas) (s : State) : (setCanvas c v s).epg = s.epg := rfl
@[simp] theorem setCanvas_prt (c : Nat) (v : Canvas) (s : State) : (setCanvas c v s).prt = s.prt := rfl
@[simp] theorem setCanvas_twn (c : Nat) (v : Canvas) (s : State) : (setCanvas c v s).twn = s.twn := rfl
@[simp] theorem setCanvas_pwr (c : Nat) (v : Canvas) (s : State) : (setCanvas c v s).pwr = s.pwr := rfl
@[simp] theorem setCanvas_bst (c : Nat) (v : Canvas) (s : State) : (setCanvas c v s).bst = s.bst := rfl

@[simp] theorem setVersion_pending (k : InKey) (v : W32) (s : State) : (setVersion k v s).pending = s.pending := rfl
@[simp] theorem setVersion_free (k : InKey) (v : W32) (s : State) : (setVersion k v s).free = s.free := rfl
@[simp] theorem setVersion_rdata (k : InKey) (v : W32) (s : State) : (setVersion k v s).rdata = s.rdata := rfl
@[simp] theorem setVersion_member (k : InKey) (v : W32) (s : State) : (setVersion k v s).member = s.member := rfl
@[simp] theorem setVersion_regs (k : InKey) (v : W32) (s : State) : (setVersion k v s).regs = s.regs := rfl
@[simp] theorem setVersion_inForce (k : InKey) (v : W32) (s : State) : (setVersion k v s).inForce = s.inForce := rfl
@[simp] theorem setVersion_calOld (k : InKey) (v : W32) (s : State) : (setVersion k v s).calOld = s.calOld := rfl
@[simp] theorem setVersion_cnt (k : InKey) (v : W32) (s : State) : (setVersion k v s).cnt = s.cnt := rfl
@[simp] theorem setVersion_snap (k : InKey) (v : W32) (s : State) : (setVersion k v s).snap = s.snap := rfl
@[simp] theorem setVersion_swcnt (k : InKey) (v : W32) (s : State) : (setVersion k v s).swcnt = s.swcnt := rfl
@[simp] theorem setVersion_fmem (k : InKey) (v : W32) (s : State) : (setVersion k v s).fmem = s.fmem := rfl
@[simp] theorem setVersion_hmem (k : InKey) (v : W32) (s : State) : (setVersion k v s).hmem = s.hmem := rfl
@[simp] theorem setVersion_fbad (k : InKey) (v : W32) (s : State) : (setVersion k v s).fbad = s.fbad := rfl
@[simp] theorem setVersion_ot (k : InKey) (v : W32) (s : State) : (setVersion k v s).ot = s.ot := rfl
@[simp] theorem setVersion_otFrac (k : InKey) (v : W32) (s : State) : (setVersion k v s).otFrac = s.otFrac := rfl
@[simp] theorem setVersion_otp (k : InKey) (v : W32) (s : State) : (setVersion k v s).otp = s.otp := rfl
@[simp] theorem setVersion_tagCount (k : InKey) (v : W32) (s : State) : (setVersion k v s).tagCount = s.tagCount := rfl
@[simp] theorem setVersion_tagDraws (k : InKey) (v : W32) (s : State) : (setVersion k v s).tagDraws = s.tagDraws := rfl
@[simp] theorem setVersion_sch (k : InKey) (v : W32) (s : State) : (setVersion k v s).sch = s.sch := rfl
@[simp] theorem setVersion_hst (k : InKey) (v : W32) (s : State) : (setVersion k v s).hst = s.hst := rfl
@[simp] theorem setVersion_tim (k : InKey) (v : W32) (s : State) : (setVersion k v s).tim = s.tim := rfl
@[simp] theorem setVersion_glz (k : InKey) (v : W32) (s : State) : (setVersion k v s).glz = s.glz := rfl
@[simp] theorem setVersion_epg (k : InKey) (v : W32) (s : State) : (setVersion k v s).epg = s.epg := rfl
@[simp] theorem setVersion_prt (k : InKey) (v : W32) (s : State) : (setVersion k v s).prt = s.prt := rfl
@[simp] theorem setVersion_twn (k : InKey) (v : W32) (s : State) : (setVersion k v s).twn = s.twn := rfl
@[simp] theorem setVersion_pwr (k : InKey) (v : W32) (s : State) : (setVersion k v s).pwr = s.pwr := rfl
@[simp] theorem setVersion_bst (k : InKey) (v : W32) (s : State) : (setVersion k v s).bst = s.bst := rfl

@[simp] theorem setPort_pending (p : Nat) (v : Port) (s : State) : (setPort p v s).pending = s.pending := rfl
@[simp] theorem setPort_free (p : Nat) (v : Port) (s : State) : (setPort p v s).free = s.free := rfl
@[simp] theorem setPort_rdata (p : Nat) (v : Port) (s : State) : (setPort p v s).rdata = s.rdata := rfl
@[simp] theorem setPort_member (p : Nat) (v : Port) (s : State) : (setPort p v s).member = s.member := rfl
@[simp] theorem setPort_regs (p : Nat) (v : Port) (s : State) : (setPort p v s).regs = s.regs := rfl
@[simp] theorem setPort_inForce (p : Nat) (v : Port) (s : State) : (setPort p v s).inForce = s.inForce := rfl
@[simp] theorem setPort_calOld (p : Nat) (v : Port) (s : State) : (setPort p v s).calOld = s.calOld := rfl
@[simp] theorem setPort_cnt (p : Nat) (v : Port) (s : State) : (setPort p v s).cnt = s.cnt := rfl
@[simp] theorem setPort_snap (p : Nat) (v : Port) (s : State) : (setPort p v s).snap = s.snap := rfl
@[simp] theorem setPort_swcnt (p : Nat) (v : Port) (s : State) : (setPort p v s).swcnt = s.swcnt := rfl
@[simp] theorem setPort_fmem (p : Nat) (v : Port) (s : State) : (setPort p v s).fmem = s.fmem := rfl
@[simp] theorem setPort_hmem (p : Nat) (v : Port) (s : State) : (setPort p v s).hmem = s.hmem := rfl
@[simp] theorem setPort_fbad (p : Nat) (v : Port) (s : State) : (setPort p v s).fbad = s.fbad := rfl
@[simp] theorem setPort_ot (p : Nat) (v : Port) (s : State) : (setPort p v s).ot = s.ot := rfl
@[simp] theorem setPort_otFrac (p : Nat) (v : Port) (s : State) : (setPort p v s).otFrac = s.otFrac := rfl
@[simp] theorem setPort_otp (p : Nat) (v : Port) (s : State) : (setPort p v s).otp = s.otp := rfl
@[simp] theorem setPort_tagCount (p : Nat) (v : Port) (s : State) : (setPort p v s).tagCount = s.tagCount := rfl
@[simp] theorem setPort_tagDraws (p : Nat) (v : Port) (s : State) : (setPort p v s).tagDraws = s.tagDraws := rfl
@[simp] theorem setPort_sch (p : Nat) (v : Port) (s : State) : (setPort p v s).sch = s.sch := rfl
@[simp] theorem setPort_vat (p : Nat) (v : Port) (s : State) : (setPort p v s).vat = s.vat := rfl
@[simp] theorem setPort_hst (p : Nat) (v : Port) (s : State) : (setPort p v s).hst = s.hst := rfl
@[simp] theorem setPort_tim (p : Nat) (v : Port) (s : State) : (setPort p v s).tim = s.tim := rfl
@[simp] theorem setPort_glz (p : Nat) (v : Port) (s : State) : (setPort p v s).glz = s.glz := rfl
@[simp] theorem setPort_epg (p : Nat) (v : Port) (s : State) : (setPort p v s).epg = s.epg := rfl
@[simp] theorem setPort_twn (p : Nat) (v : Port) (s : State) : (setPort p v s).twn = s.twn := rfl
@[simp] theorem setPort_pwr (p : Nat) (v : Port) (s : State) : (setPort p v s).pwr = s.pwr := rfl
@[simp] theorem setPort_bst (p : Nat) (v : Port) (s : State) : (setPort p v s).bst = s.bst := rfl

@[simp] theorem setDmx_pending (p : Nat) (v : Dmx) (s : State) : (setDmx p v s).pending = s.pending := rfl
@[simp] theorem setDmx_free (p : Nat) (v : Dmx) (s : State) : (setDmx p v s).free = s.free := rfl
@[simp] theorem setDmx_rdata (p : Nat) (v : Dmx) (s : State) : (setDmx p v s).rdata = s.rdata := rfl
@[simp] theorem setDmx_member (p : Nat) (v : Dmx) (s : State) : (setDmx p v s).member = s.member := rfl
@[simp] theorem setDmx_regs (p : Nat) (v : Dmx) (s : State) : (setDmx p v s).regs = s.regs := rfl
@[simp] theorem setDmx_inForce (p : Nat) (v : Dmx) (s : State) : (setDmx p v s).inForce = s.inForce := rfl
@[simp] theorem setDmx_calOld (p : Nat) (v : Dmx) (s : State) : (setDmx p v s).calOld = s.calOld := rfl
@[simp] theorem setDmx_cnt (p : Nat) (v : Dmx) (s : State) : (setDmx p v s).cnt = s.cnt := rfl
@[simp] theorem setDmx_snap (p : Nat) (v : Dmx) (s : State) : (setDmx p v s).snap = s.snap := rfl
@[simp] theorem setDmx_swcnt (p : Nat) (v : Dmx) (s : State) : (setDmx p v s).swcnt = s.swcnt := rfl
@[simp] theorem setDmx_fmem (p : Nat) (v : Dmx) (s : State) : (setDmx p v s).fmem = s.fmem := rfl
@[simp] theorem setDmx_hmem (p : Nat) (v : Dmx) (s : State) : (setDmx p v s).hmem = s.hmem := rfl
@[simp] theorem setDmx_fbad (p : Nat) (v : Dmx) (s : State) : (setDmx p v s).fbad = s.fbad := rfl
@[simp] theorem setDmx_ot (p : Nat) (v : Dmx) (s : State) : (setDmx p v s).ot = s.ot := rfl
@[simp] theorem setDmx_otFrac (p : Nat) (v : Dmx) (s : State) : (setDmx p v s).otFrac = s.otFrac := rfl
@[simp] theorem setDmx_otp (p : Nat) (v : Dmx) (s : State) : (setDmx p v s).otp = s.otp := rfl
@[simp] theorem setDmx_tagCount (p : Nat) (v : Dmx) (s : State) : (setDmx p v s).tagCount = s.tagCount := rfl
@[simp] theorem setDmx_tagDraws (p : Nat) (v : Dmx) (s : State) : (setDmx p v s).tagDraws = s.tagDraws := rfl
@[simp] theorem setDmx_sch (p : Nat) (v : Dmx) (s : State) : (setDmx p v s).sch = s.sch := rfl
@[simp] theorem setDmx_vat (p : Nat) (v : Dmx) (s : State) : (setDmx p v s).vat = s.vat := rfl
@[simp] theorem setDmx_hst (p : Nat) (v : Dmx) (s : State) : (setDmx p v s).hst = s.hst := rfl
@[simp] theorem setDmx_tim (p : Nat) (v : Dmx) (s : State) : (setDmx p v s).tim = s.tim := rfl
@[simp] theorem setDmx_glz (p : Nat) (v : Dmx) (s : State) : (setDmx p v s).glz = s.glz := rfl
@[simp] theorem setDmx_epg (p : Nat) (v : Dmx) (s : State) : (setDmx p v s).epg = s.epg := rfl
@[simp] theorem setDmx_twn (p : Nat) (v : Dmx) (s : State) : (setDmx p v s).twn = s.twn := rfl
@[simp] theorem setDmx_pwr (p : Nat) (v : Dmx) (s : State) : (setDmx p v s).pwr = s.pwr := rfl
@[simp] theorem setDmx_bst (p : Nat) (v : Dmx) (s : State) : (setDmx p v s).bst = s.bst := rfl

@[simp] theorem setLayer_pending (n : Nat) (l : Layer) (s : State) : (setLayer n l s).pending = s.pending := rfl
@[simp] theorem setLayer_free (n : Nat) (l : Layer) (s : State) : (setLayer n l s).free = s.free := rfl
@[simp] theorem setLayer_rdata (n : Nat) (l : Layer) (s : State) : (setLayer n l s).rdata = s.rdata := rfl
@[simp] theorem setLayer_member (n : Nat) (l : Layer) (s : State) : (setLayer n l s).member = s.member := rfl
@[simp] theorem setLayer_regs (n : Nat) (l : Layer) (s : State) : (setLayer n l s).regs = s.regs := rfl
@[simp] theorem setLayer_inForce (n : Nat) (l : Layer) (s : State) : (setLayer n l s).inForce = s.inForce := rfl
@[simp] theorem setLayer_calOld (n : Nat) (l : Layer) (s : State) : (setLayer n l s).calOld = s.calOld := rfl
@[simp] theorem setLayer_cnt (n : Nat) (l : Layer) (s : State) : (setLayer n l s).cnt = s.cnt := rfl
@[simp] theorem setLayer_snap (n : Nat) (l : Layer) (s : State) : (setLayer n l s).snap = s.snap := rfl
@[simp] theorem setLayer_swcnt (n : Nat) (l : Layer) (s : State) : (setLayer n l s).swcnt = s.swcnt := rfl
@[simp] theorem setLayer_fmem (n : Nat) (l : Layer) (s : State) : (setLayer n l s).fmem = s.fmem := rfl
@[simp] theorem setLayer_hmem (n : Nat) (l : Layer) (s : State) : (setLayer n l s).hmem = s.hmem := rfl
@[simp] theorem setLayer_fbad (n : Nat) (l : Layer) (s : State) : (setLayer n l s).fbad = s.fbad := rfl
@[simp] theorem setLayer_ot (n : Nat) (l : Layer) (s : State) : (setLayer n l s).ot = s.ot := rfl
@[simp] theorem setLayer_otFrac (n : Nat) (l : Layer) (s : State) : (setLayer n l s).otFrac = s.otFrac := rfl
@[simp] theorem setLayer_otp (n : Nat) (l : Layer) (s : State) : (setLayer n l s).otp = s.otp := rfl
@[simp] theorem setLayer_tagCount (n : Nat) (l : Layer) (s : State) : (setLayer n l s).tagCount = s.tagCount := rfl
@[simp] theorem setLayer_tagDraws (n : Nat) (l : Layer) (s : State) : (setLayer n l s).tagDraws = s.tagDraws := rfl
@[simp] theorem setLayer_sch (n : Nat) (l : Layer) (s : State) : (setLayer n l s).sch = s.sch := rfl
@[simp] theorem setLayer_vat (n : Nat) (l : Layer) (s : State) : (setLayer n l s).vat = s.vat := rfl
@[simp] theorem setLayer_tim (n : Nat) (l : Layer) (s : State) : (setLayer n l s).tim = s.tim := rfl
@[simp] theorem setLayer_glz (n : Nat) (l : Layer) (s : State) : (setLayer n l s).glz = s.glz := rfl
@[simp] theorem setLayer_epg (n : Nat) (l : Layer) (s : State) : (setLayer n l s).epg = s.epg := rfl
@[simp] theorem setLayer_prt (n : Nat) (l : Layer) (s : State) : (setLayer n l s).prt = s.prt := rfl
@[simp] theorem setLayer_twn (n : Nat) (l : Layer) (s : State) : (setLayer n l s).twn = s.twn := rfl
@[simp] theorem setLayer_pwr (n : Nat) (l : Layer) (s : State) : (setLayer n l s).pwr = s.pwr := rfl
@[simp] theorem setLayer_bst (n : Nat) (l : Layer) (s : State) : (setLayer n l s).bst = s.bst := rfl

@[simp] theorem semLease_pending (n : Nat) (s : State) : (semLease n s).pending = s.pending := rfl
@[simp] theorem semLease_free (n : Nat) (s : State) : (semLease n s).free = s.free := rfl
@[simp] theorem semLease_rdata (n : Nat) (s : State) : (semLease n s).rdata = s.rdata := rfl
@[simp] theorem semLease_member (n : Nat) (s : State) : (semLease n s).member = s.member := rfl
@[simp] theorem semLease_regs (n : Nat) (s : State) : (semLease n s).regs = s.regs := rfl
@[simp] theorem semLease_inForce (n : Nat) (s : State) : (semLease n s).inForce = s.inForce := rfl
@[simp] theorem semLease_calOld (n : Nat) (s : State) : (semLease n s).calOld = s.calOld := rfl
@[simp] theorem semLease_cnt (n : Nat) (s : State) : (semLease n s).cnt = s.cnt := rfl
@[simp] theorem semLease_snap (n : Nat) (s : State) : (semLease n s).snap = s.snap := rfl
@[simp] theorem semLease_swcnt (n : Nat) (s : State) : (semLease n s).swcnt = s.swcnt := rfl
@[simp] theorem semLease_fmem (n : Nat) (s : State) : (semLease n s).fmem = s.fmem := rfl
@[simp] theorem semLease_hmem (n : Nat) (s : State) : (semLease n s).hmem = s.hmem := rfl
@[simp] theorem semLease_fbad (n : Nat) (s : State) : (semLease n s).fbad = s.fbad := rfl
@[simp] theorem semLease_ot (n : Nat) (s : State) : (semLease n s).ot = s.ot := rfl
@[simp] theorem semLease_otFrac (n : Nat) (s : State) : (semLease n s).otFrac = s.otFrac := rfl
@[simp] theorem semLease_otp (n : Nat) (s : State) : (semLease n s).otp = s.otp := rfl
@[simp] theorem semLease_tagCount (n : Nat) (s : State) : (semLease n s).tagCount = s.tagCount := rfl
@[simp] theorem semLease_tagDraws (n : Nat) (s : State) : (semLease n s).tagDraws = s.tagDraws := rfl
@[simp] theorem semLease_sch (n : Nat) (s : State) : (semLease n s).sch = s.sch := rfl
@[simp] theorem semLease_vat (n : Nat) (s : State) : (semLease n s).vat = s.vat := rfl
@[simp] theorem semLease_tim (n : Nat) (s : State) : (semLease n s).tim = s.tim := rfl
@[simp] theorem semLease_glz (n : Nat) (s : State) : (semLease n s).glz = s.glz := rfl
@[simp] theorem semLease_epg (n : Nat) (s : State) : (semLease n s).epg = s.epg := rfl
@[simp] theorem semLease_prt (n : Nat) (s : State) : (semLease n s).prt = s.prt := rfl
@[simp] theorem semLease_twn (n : Nat) (s : State) : (semLease n s).twn = s.twn := rfl
@[simp] theorem semLease_pwr (n : Nat) (s : State) : (semLease n s).pwr = s.pwr := rfl
@[simp] theorem semLease_bst (n : Nat) (s : State) : (semLease n s).bst = s.bst := rfl

@[simp] theorem setEp_pending (e : Nat) (x : EpSt) (s : State) : (setEp e x s).pending = s.pending := rfl
@[simp] theorem setEp_free (e : Nat) (x : EpSt) (s : State) : (setEp e x s).free = s.free := rfl
@[simp] theorem setEp_rdata (e : Nat) (x : EpSt) (s : State) : (setEp e x s).rdata = s.rdata := rfl
@[simp] theorem setEp_member (e : Nat) (x : EpSt) (s : State) : (setEp e x s).member = s.member := rfl
@[simp] theorem setEp_regs (e : Nat) (x : EpSt) (s : State) : (setEp e x s).regs = s.regs := rfl
@[simp] theorem setEp_inForce (e : Nat) (x : EpSt) (s : State) : (setEp e x s).inForce = s.inForce := rfl
@[simp] theorem setEp_calOld (e : Nat) (x : EpSt) (s : State) : (setEp e x s).calOld = s.calOld := rfl
@[simp] theorem setEp_cnt (e : Nat) (x : EpSt) (s : State) : (setEp e x s).cnt = s.cnt := rfl
@[simp] theorem setEp_snap (e : Nat) (x : EpSt) (s : State) : (setEp e x s).snap = s.snap := rfl
@[simp] theorem setEp_swcnt (e : Nat) (x : EpSt) (s : State) : (setEp e x s).swcnt = s.swcnt := rfl
@[simp] theorem setEp_fmem (e : Nat) (x : EpSt) (s : State) : (setEp e x s).fmem = s.fmem := rfl
@[simp] theorem setEp_hmem (e : Nat) (x : EpSt) (s : State) : (setEp e x s).hmem = s.hmem := rfl
@[simp] theorem setEp_fbad (e : Nat) (x : EpSt) (s : State) : (setEp e x s).fbad = s.fbad := rfl
@[simp] theorem setEp_ot (e : Nat) (x : EpSt) (s : State) : (setEp e x s).ot = s.ot := rfl
@[simp] theorem setEp_otFrac (e : Nat) (x : EpSt) (s : State) : (setEp e x s).otFrac = s.otFrac := rfl
@[simp] theorem setEp_otp (e : Nat) (x : EpSt) (s : State) : (setEp e x s).otp = s.otp := rfl
@[simp] theorem setEp_tagCount (e : Nat) (x : EpSt) (s : State) : (setEp e x s).tagCount = s.tagCount := rfl
@[simp] theorem setEp_tagDraws (e : Nat) (x : EpSt) (s : State) : (setEp e x s).tagDraws = s.tagDraws := rfl
@[simp] theorem setEp_sch (e : Nat) (x : EpSt) (s : State) : (setEp e x s).sch = s.sch := rfl
@[simp] theorem setEp_vat (e : Nat) (x : EpSt) (s : State) : (setEp e x s).vat = s.vat := rfl
@[simp] theorem setEp_hst (e : Nat) (x : EpSt) (s : State) : (setEp e x s).hst = s.hst := rfl
@[simp] theorem setEp_tim (e : Nat) (x : EpSt) (s : State) : (setEp e x s).tim = s.tim := rfl
@[simp] theorem setEp_glz (e : Nat) (x : EpSt) (s : State) : (setEp e x s).glz = s.glz := rfl
@[simp] theorem setEp_prt (e : Nat) (x : EpSt) (s : State) : (setEp e x s).prt = s.prt := rfl
@[simp] theorem setEp_twn (e : Nat) (x : EpSt) (s : State) : (setEp e x s).twn = s.twn := rfl
@[simp] theorem setEp_pwr (e : Nat) (x : EpSt) (s : State) : (setEp e x s).pwr = s.pwr := rfl
@[simp] theorem setEp_bst (e : Nat) (x : EpSt) (s : State) : (setEp e x s).bst = s.bst := rfl

@[simp] theorem setWin_pending (w : Win) (s : State) : (setWin w s).pending = s.pending := rfl
@[simp] theorem setWin_free (w : Win) (s : State) : (setWin w s).free = s.free := rfl
@[simp] theorem setWin_rdata (w : Win) (s : State) : (setWin w s).rdata = s.rdata := rfl
@[simp] theorem setWin_member (w : Win) (s : State) : (setWin w s).member = s.member := rfl
@[simp] theorem setWin_regs (w : Win) (s : State) : (setWin w s).regs = s.regs := rfl
@[simp] theorem setWin_inForce (w : Win) (s : State) : (setWin w s).inForce = s.inForce := rfl
@[simp] theorem setWin_calOld (w : Win) (s : State) : (setWin w s).calOld = s.calOld := rfl
@[simp] theorem setWin_cnt (w : Win) (s : State) : (setWin w s).cnt = s.cnt := rfl
@[simp] theorem setWin_snap (w : Win) (s : State) : (setWin w s).snap = s.snap := rfl
@[simp] theorem setWin_swcnt (w : Win) (s : State) : (setWin w s).swcnt = s.swcnt := rfl
@[simp] theorem setWin_fmem (w : Win) (s : State) : (setWin w s).fmem = s.fmem := rfl
@[simp] theorem setWin_hmem (w : Win) (s : State) : (setWin w s).hmem = s.hmem := rfl
@[simp] theorem setWin_fbad (w : Win) (s : State) : (setWin w s).fbad = s.fbad := rfl
@[simp] theorem setWin_ot (w : Win) (s : State) : (setWin w s).ot = s.ot := rfl
@[simp] theorem setWin_otFrac (w : Win) (s : State) : (setWin w s).otFrac = s.otFrac := rfl
@[simp] theorem setWin_otp (w : Win) (s : State) : (setWin w s).otp = s.otp := rfl
@[simp] theorem setWin_tagCount (w : Win) (s : State) : (setWin w s).tagCount = s.tagCount := rfl
@[simp] theorem setWin_tagDraws (w : Win) (s : State) : (setWin w s).tagDraws = s.tagDraws := rfl
@[simp] theorem setWin_sch (w : Win) (s : State) : (setWin w s).sch = s.sch := rfl
@[simp] theorem setWin_vat (w : Win) (s : State) : (setWin w s).vat = s.vat := rfl
@[simp] theorem setWin_hst (w : Win) (s : State) : (setWin w s).hst = s.hst := rfl
@[simp] theorem setWin_tim (w : Win) (s : State) : (setWin w s).tim = s.tim := rfl
@[simp] theorem setWin_epg (w : Win) (s : State) : (setWin w s).epg = s.epg := rfl
@[simp] theorem setWin_prt (w : Win) (s : State) : (setWin w s).prt = s.prt := rfl
@[simp] theorem setWin_twn (w : Win) (s : State) : (setWin w s).twn = s.twn := rfl
@[simp] theorem setWin_pwr (w : Win) (s : State) : (setWin w s).pwr = s.pwr := rfl
@[simp] theorem setWin_bst (w : Win) (s : State) : (setWin w s).bst = s.bst := rfl

@[simp] theorem setFc_pending (n : Nat) (f : FClock) (s : State) : (setFc n f s).pending = s.pending := rfl
@[simp] theorem setFc_free (n : Nat) (f : FClock) (s : State) : (setFc n f s).free = s.free := rfl
@[simp] theorem setFc_rdata (n : Nat) (f : FClock) (s : State) : (setFc n f s).rdata = s.rdata := rfl
@[simp] theorem setFc_member (n : Nat) (f : FClock) (s : State) : (setFc n f s).member = s.member := rfl
@[simp] theorem setFc_regs (n : Nat) (f : FClock) (s : State) : (setFc n f s).regs = s.regs := rfl
@[simp] theorem setFc_inForce (n : Nat) (f : FClock) (s : State) : (setFc n f s).inForce = s.inForce := rfl
@[simp] theorem setFc_calOld (n : Nat) (f : FClock) (s : State) : (setFc n f s).calOld = s.calOld := rfl
@[simp] theorem setFc_cnt (n : Nat) (f : FClock) (s : State) : (setFc n f s).cnt = s.cnt := rfl
@[simp] theorem setFc_snap (n : Nat) (f : FClock) (s : State) : (setFc n f s).snap = s.snap := rfl
@[simp] theorem setFc_swcnt (n : Nat) (f : FClock) (s : State) : (setFc n f s).swcnt = s.swcnt := rfl
@[simp] theorem setFc_fmem (n : Nat) (f : FClock) (s : State) : (setFc n f s).fmem = s.fmem := rfl
@[simp] theorem setFc_hmem (n : Nat) (f : FClock) (s : State) : (setFc n f s).hmem = s.hmem := rfl
@[simp] theorem setFc_fbad (n : Nat) (f : FClock) (s : State) : (setFc n f s).fbad = s.fbad := rfl
@[simp] theorem setFc_ot (n : Nat) (f : FClock) (s : State) : (setFc n f s).ot = s.ot := rfl
@[simp] theorem setFc_otFrac (n : Nat) (f : FClock) (s : State) : (setFc n f s).otFrac = s.otFrac := rfl
@[simp] theorem setFc_otp (n : Nat) (f : FClock) (s : State) : (setFc n f s).otp = s.otp := rfl
@[simp] theorem setFc_tagCount (n : Nat) (f : FClock) (s : State) : (setFc n f s).tagCount = s.tagCount := rfl
@[simp] theorem setFc_tagDraws (n : Nat) (f : FClock) (s : State) : (setFc n f s).tagDraws = s.tagDraws := rfl
@[simp] theorem setFc_sch (n : Nat) (f : FClock) (s : State) : (setFc n f s).sch = s.sch := rfl
@[simp] theorem setFc_vat (n : Nat) (f : FClock) (s : State) : (setFc n f s).vat = s.vat := rfl
@[simp] theorem setFc_hst (n : Nat) (f : FClock) (s : State) : (setFc n f s).hst = s.hst := rfl
@[simp] theorem setFc_glz (n : Nat) (f : FClock) (s : State) : (setFc n f s).glz = s.glz := rfl
@[simp] theorem setFc_epg (n : Nat) (f : FClock) (s : State) : (setFc n f s).epg = s.epg := rfl
@[simp] theorem setFc_prt (n : Nat) (f : FClock) (s : State) : (setFc n f s).prt = s.prt := rfl
@[simp] theorem setFc_twn (n : Nat) (f : FClock) (s : State) : (setFc n f s).twn = s.twn := rfl
@[simp] theorem setFc_pwr (n : Nat) (f : FClock) (s : State) : (setFc n f s).pwr = s.pwr := rfl
@[simp] theorem setFc_bst (n : Nat) (f : FClock) (s : State) : (setFc n f s).bst = s.bst := rfl

@[simp] theorem wakeMem_pending (s : State) : (wakeMem s).pending = s.pending := rfl
@[simp] theorem wakeMem_free (s : State) : (wakeMem s).free = s.free := rfl
@[simp] theorem wakeMem_rdata (s : State) : (wakeMem s).rdata = s.rdata := rfl
@[simp] theorem wakeMem_member (s : State) : (wakeMem s).member = s.member := rfl
@[simp] theorem wakeMem_regs (s : State) : (wakeMem s).regs = s.regs := rfl
@[simp] theorem wakeMem_inForce (s : State) : (wakeMem s).inForce = s.inForce := rfl
@[simp] theorem wakeMem_calOld (s : State) : (wakeMem s).calOld = s.calOld := rfl
@[simp] theorem wakeMem_cnt (s : State) : (wakeMem s).cnt = s.cnt := rfl
@[simp] theorem wakeMem_snap (s : State) : (wakeMem s).snap = s.snap := rfl
@[simp] theorem wakeMem_swcnt (s : State) : (wakeMem s).swcnt = s.swcnt := rfl
@[simp] theorem wakeMem_fmem (s : State) : (wakeMem s).fmem = s.fmem := rfl
@[simp] theorem wakeMem_hmem (s : State) : (wakeMem s).hmem = s.hmem := rfl
@[simp] theorem wakeMem_fbad (s : State) : (wakeMem s).fbad = s.fbad := rfl
@[simp] theorem wakeMem_ot (s : State) : (wakeMem s).ot = s.ot := rfl
@[simp] theorem wakeMem_otFrac (s : State) : (wakeMem s).otFrac = s.otFrac := rfl
@[simp] theorem wakeMem_otp (s : State) : (wakeMem s).otp = s.otp := rfl
@[simp] theorem wakeMem_tagCount (s : State) : (wakeMem s).tagCount = s.tagCount := rfl
@[simp] theorem wakeMem_tagDraws (s : State) : (wakeMem s).tagDraws = s.tagDraws := rfl
@[simp] theorem wakeMem_sch (s : State) : (wakeMem s).sch = s.sch := rfl
@[simp] theorem wakeMem_vat (s : State) : (wakeMem s).vat = s.vat := rfl
@[simp] theorem wakeMem_hst (s : State) : (wakeMem s).hst = s.hst := rfl
@[simp] theorem wakeMem_tim (s : State) : (wakeMem s).tim = s.tim := rfl
@[simp] theorem wakeMem_glz (s : State) : (wakeMem s).glz = s.glz := rfl
@[simp] theorem wakeMem_epg (s : State) : (wakeMem s).epg = s.epg := rfl
@[simp] theorem wakeMem_prt (s : State) : (wakeMem s).prt = s.prt := rfl
@[simp] theorem wakeMem_twn (s : State) : (wakeMem s).twn = s.twn := rfl
@[simp] theorem wakeMem_bst (s : State) : (wakeMem s).bst = s.bst := rfl

@[simp] theorem fmemPut_pending (a : Nat) (bs : List Byte) (s : State) : (fmemPut a bs s).pending = s.pending := rfl
@[simp] theorem fmemPut_free (a : Nat) (bs : List Byte) (s : State) : (fmemPut a bs s).free = s.free := rfl
@[simp] theorem fmemPut_rdata (a : Nat) (bs : List Byte) (s : State) : (fmemPut a bs s).rdata = s.rdata := rfl
@[simp] theorem fmemPut_member (a : Nat) (bs : List Byte) (s : State) : (fmemPut a bs s).member = s.member := rfl
@[simp] theorem fmemPut_regs (a : Nat) (bs : List Byte) (s : State) : (fmemPut a bs s).regs = s.regs := rfl
@[simp] theorem fmemPut_inForce (a : Nat) (bs : List Byte) (s : State) : (fmemPut a bs s).inForce = s.inForce := rfl
@[simp] theorem fmemPut_calOld (a : Nat) (bs : List Byte) (s : State) : (fmemPut a bs s).calOld = s.calOld := rfl
@[simp] theorem fmemPut_cnt (a : Nat) (bs : List Byte) (s : State) : (fmemPut a bs s).cnt = s.cnt := rfl
@[simp] theorem fmemPut_snap (a : Nat) (bs : List Byte) (s : State) : (fmemPut a bs s).snap = s.snap := rfl
@[simp] theorem fmemPut_swcnt (a : Nat) (bs : List Byte) (s : State) : (fmemPut a bs s).swcnt = s.swcnt := rfl
@[simp] theorem fmemPut_hmem (a : Nat) (bs : List Byte) (s : State) : (fmemPut a bs s).hmem = s.hmem := rfl
@[simp] theorem fmemPut_ot (a : Nat) (bs : List Byte) (s : State) : (fmemPut a bs s).ot = s.ot := rfl
@[simp] theorem fmemPut_otFrac (a : Nat) (bs : List Byte) (s : State) : (fmemPut a bs s).otFrac = s.otFrac := rfl
@[simp] theorem fmemPut_otp (a : Nat) (bs : List Byte) (s : State) : (fmemPut a bs s).otp = s.otp := rfl
@[simp] theorem fmemPut_tagCount (a : Nat) (bs : List Byte) (s : State) : (fmemPut a bs s).tagCount = s.tagCount := rfl
@[simp] theorem fmemPut_tagDraws (a : Nat) (bs : List Byte) (s : State) : (fmemPut a bs s).tagDraws = s.tagDraws := rfl
@[simp] theorem fmemPut_sch (a : Nat) (bs : List Byte) (s : State) : (fmemPut a bs s).sch = s.sch := rfl
@[simp] theorem fmemPut_vat (a : Nat) (bs : List Byte) (s : State) : (fmemPut a bs s).vat = s.vat := rfl
@[simp] theorem fmemPut_hst (a : Nat) (bs : List Byte) (s : State) : (fmemPut a bs s).hst = s.hst := rfl
@[simp] theorem fmemPut_tim (a : Nat) (bs : List Byte) (s : State) : (fmemPut a bs s).tim = s.tim := rfl
@[simp] theorem fmemPut_glz (a : Nat) (bs : List Byte) (s : State) : (fmemPut a bs s).glz = s.glz := rfl
@[simp] theorem fmemPut_epg (a : Nat) (bs : List Byte) (s : State) : (fmemPut a bs s).epg = s.epg := rfl
@[simp] theorem fmemPut_prt (a : Nat) (bs : List Byte) (s : State) : (fmemPut a bs s).prt = s.prt := rfl
@[simp] theorem fmemPut_twn (a : Nat) (bs : List Byte) (s : State) : (fmemPut a bs s).twn = s.twn := rfl
@[simp] theorem fmemPut_bst (a : Nat) (bs : List Byte) (s : State) : (fmemPut a bs s).bst = s.bst := rfl

@[simp] theorem fmemZero_pending (a n : Nat) (s : State) : (fmemZero a n s).pending = s.pending := rfl
@[simp] theorem fmemZero_free (a n : Nat) (s : State) : (fmemZero a n s).free = s.free := rfl
@[simp] theorem fmemZero_rdata (a n : Nat) (s : State) : (fmemZero a n s).rdata = s.rdata := rfl
@[simp] theorem fmemZero_member (a n : Nat) (s : State) : (fmemZero a n s).member = s.member := rfl
@[simp] theorem fmemZero_regs (a n : Nat) (s : State) : (fmemZero a n s).regs = s.regs := rfl
@[simp] theorem fmemZero_inForce (a n : Nat) (s : State) : (fmemZero a n s).inForce = s.inForce := rfl
@[simp] theorem fmemZero_calOld (a n : Nat) (s : State) : (fmemZero a n s).calOld = s.calOld := rfl
@[simp] theorem fmemZero_cnt (a n : Nat) (s : State) : (fmemZero a n s).cnt = s.cnt := rfl
@[simp] theorem fmemZero_snap (a n : Nat) (s : State) : (fmemZero a n s).snap = s.snap := rfl
@[simp] theorem fmemZero_swcnt (a n : Nat) (s : State) : (fmemZero a n s).swcnt = s.swcnt := rfl
@[simp] theorem fmemZero_hmem (a n : Nat) (s : State) : (fmemZero a n s).hmem = s.hmem := rfl
@[simp] theorem fmemZero_ot (a n : Nat) (s : State) : (fmemZero a n s).ot = s.ot := rfl
@[simp] theorem fmemZero_otFrac (a n : Nat) (s : State) : (fmemZero a n s).otFrac = s.otFrac := rfl
@[simp] theorem fmemZero_otp (a n : Nat) (s : State) : (fmemZero a n s).otp = s.otp := rfl
@[simp] theorem fmemZero_tagCount (a n : Nat) (s : State) : (fmemZero a n s).tagCount = s.tagCount := rfl
@[simp] theorem fmemZero_tagDraws (a n : Nat) (s : State) : (fmemZero a n s).tagDraws = s.tagDraws := rfl
@[simp] theorem fmemZero_sch (a n : Nat) (s : State) : (fmemZero a n s).sch = s.sch := rfl
@[simp] theorem fmemZero_vat (a n : Nat) (s : State) : (fmemZero a n s).vat = s.vat := rfl
@[simp] theorem fmemZero_hst (a n : Nat) (s : State) : (fmemZero a n s).hst = s.hst := rfl
@[simp] theorem fmemZero_tim (a n : Nat) (s : State) : (fmemZero a n s).tim = s.tim := rfl
@[simp] theorem fmemZero_glz (a n : Nat) (s : State) : (fmemZero a n s).glz = s.glz := rfl
@[simp] theorem fmemZero_epg (a n : Nat) (s : State) : (fmemZero a n s).epg = s.epg := rfl
@[simp] theorem fmemZero_prt (a n : Nat) (s : State) : (fmemZero a n s).prt = s.prt := rfl
@[simp] theorem fmemZero_twn (a n : Nat) (s : State) : (fmemZero a n s).twn = s.twn := rfl
@[simp] theorem fmemZero_bst (a n : Nat) (s : State) : (fmemZero a n s).bst = s.bst := rfl

@[simp] theorem wr_pending (r : RegId) (v : W32) (s : State) (i j : Nat) : (wr r v s i j).pending = s.pending := rfl
@[simp] theorem wr_free (r : RegId) (v : W32) (s : State) (i j : Nat) : (wr r v s i j).free = s.free := rfl
@[simp] theorem wr_rdata (r : RegId) (v : W32) (s : State) (i j : Nat) : (wr r v s i j).rdata = s.rdata := rfl
@[simp] theorem wr_member (r : RegId) (v : W32) (s : State) (i j : Nat) : (wr r v s i j).member = s.member := rfl
@[simp] theorem wr_inForce (r : RegId) (v : W32) (s : State) (i j : Nat) : (wr r v s i j).inForce = s.inForce := rfl
@[simp] theorem wr_calOld (r : RegId) (v : W32) (s : State) (i j : Nat) : (wr r v s i j).calOld = s.calOld := rfl
@[simp] theorem wr_cnt (r : RegId) (v : W32) (s : State) (i j : Nat) : (wr r v s i j).cnt = s.cnt := rfl
@[simp] theorem wr_snap (r : RegId) (v : W32) (s : State) (i j : Nat) : (wr r v s i j).snap = s.snap := rfl
@[simp] theorem wr_swcnt (r : RegId) (v : W32) (s : State) (i j : Nat) : (wr r v s i j).swcnt = s.swcnt := rfl
@[simp] theorem wr_fmem (r : RegId) (v : W32) (s : State) (i j : Nat) : (wr r v s i j).fmem = s.fmem := rfl
@[simp] theorem wr_hmem (r : RegId) (v : W32) (s : State) (i j : Nat) : (wr r v s i j).hmem = s.hmem := rfl
@[simp] theorem wr_fbad (r : RegId) (v : W32) (s : State) (i j : Nat) : (wr r v s i j).fbad = s.fbad := rfl
@[simp] theorem wr_ot (r : RegId) (v : W32) (s : State) (i j : Nat) : (wr r v s i j).ot = s.ot := rfl
@[simp] theorem wr_otFrac (r : RegId) (v : W32) (s : State) (i j : Nat) : (wr r v s i j).otFrac = s.otFrac := rfl
@[simp] theorem wr_otp (r : RegId) (v : W32) (s : State) (i j : Nat) : (wr r v s i j).otp = s.otp := rfl
@[simp] theorem wr_tagCount (r : RegId) (v : W32) (s : State) (i j : Nat) : (wr r v s i j).tagCount = s.tagCount := rfl
@[simp] theorem wr_tagDraws (r : RegId) (v : W32) (s : State) (i j : Nat) : (wr r v s i j).tagDraws = s.tagDraws := rfl
@[simp] theorem wr_sch (r : RegId) (v : W32) (s : State) (i j : Nat) : (wr r v s i j).sch = s.sch := rfl
@[simp] theorem wr_vat (r : RegId) (v : W32) (s : State) (i j : Nat) : (wr r v s i j).vat = s.vat := rfl
@[simp] theorem wr_hst (r : RegId) (v : W32) (s : State) (i j : Nat) : (wr r v s i j).hst = s.hst := rfl
@[simp] theorem wr_tim (r : RegId) (v : W32) (s : State) (i j : Nat) : (wr r v s i j).tim = s.tim := rfl
@[simp] theorem wr_glz (r : RegId) (v : W32) (s : State) (i j : Nat) : (wr r v s i j).glz = s.glz := rfl
@[simp] theorem wr_epg (r : RegId) (v : W32) (s : State) (i j : Nat) : (wr r v s i j).epg = s.epg := rfl
@[simp] theorem wr_prt (r : RegId) (v : W32) (s : State) (i j : Nat) : (wr r v s i j).prt = s.prt := rfl
@[simp] theorem wr_twn (r : RegId) (v : W32) (s : State) (i j : Nat) : (wr r v s i j).twn = s.twn := rfl
@[simp] theorem wr_pwr (r : RegId) (v : W32) (s : State) (i j : Nat) : (wr r v s i j).pwr = s.pwr := rfl
@[simp] theorem wr_bst (r : RegId) (v : W32) (s : State) (i j : Nat) : (wr r v s i j).bst = s.bst := rfl

@[simp] theorem put_pending (f : Fld) (v : Nat) (s : State) (i j : Nat) : (put f v s i j).pending = s.pending := rfl
@[simp] theorem put_free (f : Fld) (v : Nat) (s : State) (i j : Nat) : (put f v s i j).free = s.free := rfl
@[simp] theorem put_rdata (f : Fld) (v : Nat) (s : State) (i j : Nat) : (put f v s i j).rdata = s.rdata := rfl
@[simp] theorem put_member (f : Fld) (v : Nat) (s : State) (i j : Nat) : (put f v s i j).member = s.member := rfl
@[simp] theorem put_inForce (f : Fld) (v : Nat) (s : State) (i j : Nat) : (put f v s i j).inForce = s.inForce := rfl
@[simp] theorem put_calOld (f : Fld) (v : Nat) (s : State) (i j : Nat) : (put f v s i j).calOld = s.calOld := rfl
@[simp] theorem put_cnt (f : Fld) (v : Nat) (s : State) (i j : Nat) : (put f v s i j).cnt = s.cnt := rfl
@[simp] theorem put_snap (f : Fld) (v : Nat) (s : State) (i j : Nat) : (put f v s i j).snap = s.snap := rfl
@[simp] theorem put_swcnt (f : Fld) (v : Nat) (s : State) (i j : Nat) : (put f v s i j).swcnt = s.swcnt := rfl
@[simp] theorem put_fmem (f : Fld) (v : Nat) (s : State) (i j : Nat) : (put f v s i j).fmem = s.fmem := rfl
@[simp] theorem put_hmem (f : Fld) (v : Nat) (s : State) (i j : Nat) : (put f v s i j).hmem = s.hmem := rfl
@[simp] theorem put_fbad (f : Fld) (v : Nat) (s : State) (i j : Nat) : (put f v s i j).fbad = s.fbad := rfl
@[simp] theorem put_ot (f : Fld) (v : Nat) (s : State) (i j : Nat) : (put f v s i j).ot = s.ot := rfl
@[simp] theorem put_otFrac (f : Fld) (v : Nat) (s : State) (i j : Nat) : (put f v s i j).otFrac = s.otFrac := rfl
@[simp] theorem put_otp (f : Fld) (v : Nat) (s : State) (i j : Nat) : (put f v s i j).otp = s.otp := rfl
@[simp] theorem put_tagCount (f : Fld) (v : Nat) (s : State) (i j : Nat) : (put f v s i j).tagCount = s.tagCount := rfl
@[simp] theorem put_tagDraws (f : Fld) (v : Nat) (s : State) (i j : Nat) : (put f v s i j).tagDraws = s.tagDraws := rfl
@[simp] theorem put_sch (f : Fld) (v : Nat) (s : State) (i j : Nat) : (put f v s i j).sch = s.sch := rfl
@[simp] theorem put_vat (f : Fld) (v : Nat) (s : State) (i j : Nat) : (put f v s i j).vat = s.vat := rfl
@[simp] theorem put_hst (f : Fld) (v : Nat) (s : State) (i j : Nat) : (put f v s i j).hst = s.hst := rfl
@[simp] theorem put_tim (f : Fld) (v : Nat) (s : State) (i j : Nat) : (put f v s i j).tim = s.tim := rfl
@[simp] theorem put_glz (f : Fld) (v : Nat) (s : State) (i j : Nat) : (put f v s i j).glz = s.glz := rfl
@[simp] theorem put_epg (f : Fld) (v : Nat) (s : State) (i j : Nat) : (put f v s i j).epg = s.epg := rfl
@[simp] theorem put_prt (f : Fld) (v : Nat) (s : State) (i j : Nat) : (put f v s i j).prt = s.prt := rfl
@[simp] theorem put_twn (f : Fld) (v : Nat) (s : State) (i j : Nat) : (put f v s i j).twn = s.twn := rfl
@[simp] theorem put_pwr (f : Fld) (v : Nat) (s : State) (i j : Nat) : (put f v s i j).pwr = s.pwr := rfl
@[simp] theorem put_bst (f : Fld) (v : Nat) (s : State) (i j : Nat) : (put f v s i j).bst = s.bst := rfl

@[simp] theorem setBit_pending (f : Fld) (b : Nat) (s : State) (i j : Nat) : (setBit f b s i j).pending = s.pending := rfl
@[simp] theorem setBit_free (f : Fld) (b : Nat) (s : State) (i j : Nat) : (setBit f b s i j).free = s.free := rfl
@[simp] theorem setBit_rdata (f : Fld) (b : Nat) (s : State) (i j : Nat) : (setBit f b s i j).rdata = s.rdata := rfl
@[simp] theorem setBit_member (f : Fld) (b : Nat) (s : State) (i j : Nat) : (setBit f b s i j).member = s.member := rfl
@[simp] theorem setBit_inForce (f : Fld) (b : Nat) (s : State) (i j : Nat) : (setBit f b s i j).inForce = s.inForce := rfl
@[simp] theorem setBit_calOld (f : Fld) (b : Nat) (s : State) (i j : Nat) : (setBit f b s i j).calOld = s.calOld := rfl
@[simp] theorem setBit_cnt (f : Fld) (b : Nat) (s : State) (i j : Nat) : (setBit f b s i j).cnt = s.cnt := rfl
@[simp] theorem setBit_snap (f : Fld) (b : Nat) (s : State) (i j : Nat) : (setBit f b s i j).snap = s.snap := rfl
@[simp] theorem setBit_swcnt (f : Fld) (b : Nat) (s : State) (i j : Nat) : (setBit f b s i j).swcnt = s.swcnt := rfl
@[simp] theorem setBit_fmem (f : Fld) (b : Nat) (s : State) (i j : Nat) : (setBit f b s i j).fmem = s.fmem := rfl
@[simp] theorem setBit_hmem (f : Fld) (b : Nat) (s : State) (i j : Nat) : (setBit f b s i j).hmem = s.hmem := rfl
@[simp] theorem setBit_fbad (f : Fld) (b : Nat) (s : State) (i j : Nat) : (setBit f b s i j).fbad = s.fbad := rfl
@[simp] theorem setBit_ot (f : Fld) (b : Nat) (s : State) (i j : Nat) : (setBit f b s i j).ot = s.ot := rfl
@[simp] theorem setBit_otFrac (f : Fld) (b : Nat) (s : State) (i j : Nat) : (setBit f b s i j).otFrac = s.otFrac := rfl
@[simp] theorem setBit_otp (f : Fld) (b : Nat) (s : State) (i j : Nat) : (setBit f b s i j).otp = s.otp := rfl
@[simp] theorem setBit_tagCount (f : Fld) (b : Nat) (s : State) (i j : Nat) : (setBit f b s i j).tagCount = s.tagCount := rfl
@[simp] theorem setBit_tagDraws (f : Fld) (b : Nat) (s : State) (i j : Nat) : (setBit f b s i j).tagDraws = s.tagDraws := rfl
@[simp] theorem setBit_sch (f : Fld) (b : Nat) (s : State) (i j : Nat) : (setBit f b s i j).sch = s.sch := rfl
@[simp] theorem setBit_vat (f : Fld) (b : Nat) (s : State) (i j : Nat) : (setBit f b s i j).vat = s.vat := rfl
@[simp] theorem setBit_hst (f : Fld) (b : Nat) (s : State) (i j : Nat) : (setBit f b s i j).hst = s.hst := rfl
@[simp] theorem setBit_tim (f : Fld) (b : Nat) (s : State) (i j : Nat) : (setBit f b s i j).tim = s.tim := rfl
@[simp] theorem setBit_glz (f : Fld) (b : Nat) (s : State) (i j : Nat) : (setBit f b s i j).glz = s.glz := rfl
@[simp] theorem setBit_epg (f : Fld) (b : Nat) (s : State) (i j : Nat) : (setBit f b s i j).epg = s.epg := rfl
@[simp] theorem setBit_prt (f : Fld) (b : Nat) (s : State) (i j : Nat) : (setBit f b s i j).prt = s.prt := rfl
@[simp] theorem setBit_twn (f : Fld) (b : Nat) (s : State) (i j : Nat) : (setBit f b s i j).twn = s.twn := rfl
@[simp] theorem setBit_pwr (f : Fld) (b : Nat) (s : State) (i j : Nat) : (setBit f b s i j).pwr = s.pwr := rfl
@[simp] theorem setBit_bst (f : Fld) (b : Nat) (s : State) (i j : Nat) : (setBit f b s i j).bst = s.bst := rfl

end Sys2Proof.Machine
end

