-- ==== Sys2Proof/Laws/Ops.lean ====
section
/-!
SUPPORT. Laws of the named operations: byte memories, the register file, counters, and what raising an event may change.
-/

namespace Sys2Proof.Machine

/-! ## Byte memories -/

@[simp] theorem memGet_memSet_same (m : List Host.Cell) (a : Nat) (b : Byte) : memGet (memSet m a b) a = b :=
  map_get_set_same memDefault m a b

theorem memGet_memSet_ne (m : List Host.Cell) {a q : Nat} (b : Byte) (h : q ≠ a) : memGet (memSet m a b) q = memGet m q :=
  map_get_set_ne memDefault m b h

/-- A byte outside the written range is as before. -/
theorem memGet_memWrite_out (m : List Host.Cell) (a q : Nat) (bs : List Byte) (h : q < a ∨ a + bs.length ≤ q) :
    memGet (memWrite m a bs) q = memGet m q := by
  induction bs generalizing m a with
  | nil => rfl
  | cons b bs ih =>
    simp only [memWrite, List.length_cons] at h ⊢
    rw [ih _ _ (by omega), memGet_memSet_ne _ _ (by omega)]

/-- A byte of the written range is the byte written there. -/
theorem memGet_memWrite_in (m : List Host.Cell) (a k : Nat) (bs : List Byte) (h : k < bs.length) :
    memGet (memWrite m a bs) (a + k) = bs[k] := by
  induction bs generalizing m a k with
  | nil => simp at h
  | cons b bs ih =>
    cases k with
    | zero => simp only [memWrite, Nat.add_zero, List.getElem_cons_zero]
              rw [memGet_memWrite_out _ _ _ _ (by omega), memGet_memSet_same]
    | succ k =>
      simp only [memWrite, List.getElem_cons_succ]
      rw [show a + (k + 1) = a + 1 + k by omega]
      exact ih _ _ _ (by simpa using h)

theorem memGet_filter (m : List Host.Cell) (p : Nat → Bool) (q : Nat) :
    memGet (m.filter (fun c => p c.1)) q = if p q then memGet m q else 0 := by
  induction m with
  | nil => simp [memGet, Map.get, memDefault]
  | cons e m ih =>
    obtain ⟨j, w⟩ := e
    simp only [memGet] at ih ⊢
    rw [List.filter_cons]
    by_cases hj : j = q
    · subst hj
      cases hp : p j
      · simp only [hp] at ih; simpa using ih
      · simp [Map.get]
    · cases hp : p j
      · simp [Map.get, ih, hj]
      · simp [Map.get, ih, hj]

/-- A zeroed range reads zero, and the rest is as before. -/
theorem memGet_memZero (m : List Host.Cell) (a n q : Nat) :
    memGet (memZero m a n) q = if q < a ∨ a + n ≤ q then memGet m q else 0 := by
  unfold memZero
  rw [memGet_filter m (fun k => decide (k < a) || decide (a + n ≤ k)) q]
  by_cases h : q < a ∨ a + n ≤ q <;> simp [h]

/-- Every memory operation keeps the canonical form. -/
theorem memWf_memSet (m : List Host.Cell) (a : Nat) (b : Byte) (h : memWf m = true) : memWf (memSet m a b) = true :=
  map_wf_set memDefault m a b h

theorem memWf_memWrite (m : List Host.Cell) (a : Nat) (bs : List Byte) (h : memWf m = true) : memWf (memWrite m a bs) = true := by
  induction bs generalizing m a with
  | nil => exact h
  | cons b bs ih => exact ih _ _ (memWf_memSet m a b h)

theorem memWf_memZero (m : List Host.Cell) (a n : Nat) (h : memWf m = true) : memWf (memZero m a n) = true :=
  map_wf_filter memDefault _ m h

/-! ## The register file -/

theorem regId_num_lt (r : RegId) : r.num < 512 := by cases r <;> decide

theorem regId_num_inj {r q : RegId} (h : r.num = q.num) : r = q := by
  have hr : RegId.ofNat r.num = r := by cases r <;> rfl
  have hq : RegId.ofNat q.num = q := by cases q <;> rfl
  rw [← hr, ← hq, h]

theorem regId_n2_pos (r : RegId) : 0 < r.desc.n2 := by cases r <;> decide

/-- Instances of different registers have different keys. -/
theorem regId_key_ne {r q : RegId} (h : r ≠ q) (i j k l : Nat) : r.key i j ≠ q.key k l := by
  intro e
  apply h
  apply regId_num_inj
  have a := regId_num_lt r
  have b := regId_num_lt q
  unfold RegId.key at e
  omega

/-- Instances of one register in the first dimension have different keys. -/
theorem regId_key_ne_left (r : RegId) {i k : Nat} (h : i ≠ k) (j : Nat) : r.key i j ≠ r.key k j := by
  intro e
  apply h
  unfold RegId.key at e
  have : i * r.desc.n2 = k * r.desc.n2 := by omega
  exact Nat.eq_of_mul_eq_mul_right (regId_n2_pos r) this

@[simp] theorem rd_wr_same (r : RegId) (v : W32) (s : State) (i j : Nat) : rd (wr r v s i j) r i j = v :=
  map_get_set_same _ _ _ _

theorem rd_wr_key (r q : RegId) (v : W32) (s : State) (i j k l : Nat) (h : q.key k l ≠ r.key i j) :
    rd (wr r v s i j) q k l = rd s q k l := by
  unfold rd wr
  by_cases e : r = q
  · subst e; exact map_get_set_ne _ _ _ h
  · -- defaults of different registers: the entry of `q` is untouched
    simp only
    unfold Map.set
    split
    · exact map_get_del_ne _ _ h
    · exact map_get_put_ne _ _ _ h

theorem rd_wr_reg {r q : RegId} (h : q ≠ r) (v : W32) (s : State) (i j k l : Nat) : rd (wr r v s i j) q k l = rd s q k l :=
  rd_wr_key r q v s i j k l (regId_key_ne h k l i j)

theorem rd_wr_idx (r : RegId) {i k : Nat} (h : k ≠ i) (v : W32) (s : State) (j : Nat) :
    rd (wr r v s i j) r k j = rd s r k j := rd_wr_key r r v s i j k j (regId_key_ne_left r h j)

/-- Two reads of the register file agree where the files agree. -/
theorem rd_congr {s t : State} (h : t.regs = s.regs) (r : RegId) (i j : Nat) : rd t r i j = rd s r i j := by
  unfold rd; rw [h]

theorem get_congr {s t : State} (h : t.regs = s.regs) (f : Fld) (i j : Nat) : get t f i j = get s f i j := by
  unfold get; rw [rd_congr h]

theorem on_congr {s t : State} (h : t.regs = s.regs) (f : Fld) (i j : Nat) : on t f i j = on s f i j := by
  unfold on; rw [get_congr h]

/-- A field reads what was put into it. -/
theorem get_put_same (f : Fld) (v : Nat) (s : State) (i j : Nat) (h : f.lo + f.w ≤ 32) :
    get (put f v s i j) f i j = v % 2 ^ f.w := by
  unfold get put
  rw [rd_wr_same, BitVec.toNat_ofNat, bitsOf_mod _ _ _ h, bitsOf_withBits_same]

/-- A field of another register is as before. -/
theorem get_put_reg (f g : Fld) (v : Nat) (s : State) (i j k l : Nat) (h : g.reg ≠ f.reg) :
    get (put f v s i j) g k l = get s g k l := by
  unfold get put; rw [rd_wr_reg h]

/-- A field of another instance of the register is as before. -/
theorem get_put_idx (f g : Fld) (v : Nat) (s : State) (i j k : Nat) (hr : g.reg = f.reg) (h : k ≠ i) :
    get (put f v s i j) g k j = get s g k j := by
  unfold get put; rw [hr, rd_wr_idx _ h]

/-- A disjoint field of the same register is as before. -/
theorem get_put_fld (f g : Fld) (v : Nat) (s : State) (i j : Nat) (hr : g.reg = f.reg) (hb : g.lo + g.w ≤ 32)
    (h : g.lo + g.w ≤ f.lo ∨ f.lo + f.w ≤ g.lo) : get (put f v s i j) g i j = get s g i j := by
  unfold get put
  rw [hr, rd_wr_same, BitVec.toNat_ofNat, bitsOf_mod _ _ _ hb]
  rcases h with h | h
  · rw [bitsOf_withBits_below _ _ _ _ _ _ h]
  · rw [bitsOf_withBits_above _ _ _ _ _ _ h]

theorem get_wr_same (f : Fld) (v : W32) (s : State) (i j : Nat) : get (wr f.reg v s i j) f i j = bitsOf v.toNat f.lo f.w := by
  unfold get; rw [rd_wr_same]

theorem get_wr_reg (r : RegId) (g : Fld) (v : W32) (s : State) (i j k l : Nat) (h : g.reg ≠ r) :
    get (wr r v s i j) g k l = get s g k l := by
  unfold get; rw [rd_wr_reg h]

/-! ## Counters -/

@[simp] theorem counter_bump_same (c : Cnt) (s : State) : counter (bump c s) c.ctorIdx = counter s c.ctorIdx + 1 := by
  unfold counter bump count; simp

theorem counter_bump_ne (c : Cnt) (s : State) (k : Nat) (h : k ≠ c.ctorIdx) : counter (bump c s) k = counter s k := by
  unfold counter bump count; exact map_get_set_ne _ _ _ h

theorem counter_congr {s t : State} (h : t.cnt = s.cnt) (k : Nat) : counter t k = counter s k := by
  unfold counter; rw [h]

/-! ## Events -/

/-- What raising an event, and writing a record into a ring, may change: TAIL and the status of rings, HOST_STATUS with the
count of poisoned words, the count of dropped events, host memory, the event sequence numbers, the interrupts, and the words
of a record that fail their parity. -/
structure EventOnly (s t : State) : Prop where
  frame : t = { s with
    regs := t.regs, cnt := t.cnt, hmem := t.hmem
    hst := { s.hst with evSeq := t.hst.evSeq, msix := t.hst.msix, msixPend := t.hst.msixPend, parity := t.hst.parity } }
  regs : ∀ r i j, r ≠ .ringTail → r ≠ .ringStatus → r ≠ .hostStatus → rd t r i j = rd s r i j
  cnt : ∀ k, k ≠ Cnt.evtDrop.ctorIdx → k ≠ Cnt.poison.ctorIdx → counter t k = counter s k
  mem : memWf s.hmem = true → memWf t.hmem = true

theorem EventOnly.refl (s : State) : EventOnly s s := ⟨rfl, fun _ _ _ _ _ _ => rfl, fun _ _ _ => rfl, fun h => h⟩

theorem EventOnly.trans {s t u : State} (a : EventOnly s t) (b : EventOnly t u) : EventOnly s u := by
  refine ⟨?_, fun r i j h1 h2 h3 => (b.regs r i j h1 h2 h3).trans (a.regs r i j h1 h2 h3),
    fun k h1 h2 => (b.cnt k h1 h2).trans (a.cnt k h1 h2), fun h => b.mem (a.mem h)⟩
  have hb := b.frame
  have ha := a.frame
  rw [hb]
  rw [ha]

theorem eventOnly_hmemPut (fn a : Nat) (bs : List Byte) (s : State) : EventOnly s (hmemPut fn a bs s) :=
  ⟨rfl, fun _ _ _ _ _ _ => rfl, fun _ _ _ => rfl, fun h => memWf_memWrite _ _ _ h⟩

theorem eventOnly_tail (v : Nat) (s : State) (r : Nat) : EventOnly s (put fld.ringTail.TAIL v s r) :=
  ⟨rfl, fun _ _ _ h _ _ => rd_wr_reg h _ _ _ _ _ _, fun _ _ _ => rfl, fun h => h⟩

theorem eventOnly_status (b : Nat) (s : State) (r : Nat) : EventOnly s (setBit fld.ringStatus.RING_STATUS b s r) :=
  ⟨rfl, fun _ _ _ _ h _ => rd_wr_reg h _ _ _ _ _ _, fun _ _ _ => rfl, fun h => h⟩

theorem eventOnly_drop (s : State) : EventOnly s (bump .evtDrop s) :=
  ⟨rfl, fun _ _ _ _ _ _ => rfl, fun _ h _ => counter_bump_ne _ _ _ h, fun h => h⟩

theorem eventOnly_poison (r : Nat) (s : State) : EventOnly s (notePoison r s) := by
  unfold notePoison
  refine EventOnly.trans (t := setBit fld.hostStatus.HOST_STATUS 1 (bump .poison s)) ?_ (eventOnly_status _ _ _)
  exact ⟨rfl, fun _ _ _ _ _ h => rd_wr_reg h _ _ _ _ _ _, fun _ _ h => counter_bump_ne _ _ _ h, fun h => h⟩

/-- The interrupts, sequence numbers and parity faults of the host side changed. -/
theorem eventOnly_hst (s : State) (e : Map Nat) (m q : List (Nat × Nat)) (b : Map Byte) :
    EventOnly s { s with hst := { s.hst with evSeq := e, msix := m, msixPend := q, parity := b } } :=
  ⟨rfl, fun _ _ _ _ _ _ => rfl, fun _ _ _ => rfl, fun h => h⟩

theorem eventOnly_judgeParity (r : Nat) (s : State) : EventOnly s (judgeParity r s) := by
  unfold judgeParity
  split
  · exact EventOnly.refl s
  · exact (eventOnly_hst s s.hst.evSeq s.hst.msix s.hst.msixPend _).trans (eventOnly_poison _ _)

theorem eventOnly_ringAppend (r : Nat) (ws : List W32) (s : State) : EventOnly s (ringAppend r ws s) := by
  unfold ringAppend
  exact (((eventOnly_judgeParity r s).trans (eventOnly_hmemPut _ _ _ _)).trans (eventOnly_tail _ _ _)).trans
    (eventOnly_hmemPut _ _ _ _)

theorem eventOnly_signalVector (f v : Nat) (s : State) : EventOnly s (signalVector f v s) := by
  unfold signalVector
  split
  · exact EventOnly.refl s
  · split
    · exact eventOnly_hst s s.hst.evSeq s.hst.msix _ s.hst.parity
    · exact eventOnly_hst s s.hst.evSeq _ s.hst.msixPend s.hst.parity

theorem eventOnly_deliverTo (f ev detail : Nat) (s : State) : EventOnly s (deliverTo f ev detail s) := by
  unfold deliverTo
  extract_lets r x h y
  have hy : EventOnly s y := (eventOnly_ringAppend _ _ s).trans (eventOnly_hst x _ x.hst.msix x.hst.msixPend x.hst.parity)
  split
  · exact hy.trans (eventOnly_signalVector _ _ _)
  · exact hy

theorem eventOnly_fold {α : Type} (f : State → α → State) (hf : ∀ s x, EventOnly s (f s x)) (xs : List α) (s : State) :
    EventOnly s (xs.foldl f s) := by
  induction xs generalizing s with
  | nil => exact EventOnly.refl s
  | cons x xs ih => exact (hf s x).trans (ih _)

theorem eventOnly_raiseF (fuel ev detail : Nat) (s : State) : EventOnly s (raiseF fuel ev detail s) := by
  induction fuel generalizing ev detail s with
  | zero => exact EventOnly.refl s
  | succ n ih =>
    unfold raiseF
    apply eventOnly_fold
    intro t f
    split
    · extract_lets r x y
      split
      · have hy : EventOnly t y := by
          unfold y
          split
          · exact ((eventOnly_deliverTo f ev detail t).trans (eventOnly_status _ _ _)).trans (ih _ _ _)
          · exact eventOnly_deliverTo f ev detail t
        split
        · exact hy
        · exact hy.trans (ih _ _ _)
      · split
        · exact EventOnly.refl t
        · exact ((eventOnly_drop t).trans (eventOnly_status _ _ _)).trans (ih _ _ _)
    · exact EventOnly.refl t

/-- What raising an event may change (R300, R374). -/
theorem eventOnly_raise (ev detail : Nat) (s : State) : EventOnly s (raise ev detail s) := eventOnly_raiseF 64 ev detail s

theorem eventOnly_raise0 (ev : Nat) (s : State) : EventOnly s (raise0 ev s) := eventOnly_raise ev noDetail s

/-- What writing a record into a ring may change (R283, R287). -/
theorem eventOnly_ringProduce (r : Nat) (ws : List W32) (s : State) : EventOnly s (ringProduce r ws s) := by
  unfold ringProduce
  extract_lets x y
  have hy : EventOnly s y := by
    unfold y
    split
    · exact ((eventOnly_ringAppend r ws s).trans (eventOnly_status _ _ _)).trans (eventOnly_raise _ _ _)
    · exact eventOnly_ringAppend r ws s
  split
  · exact hy
  · exact hy.trans (eventOnly_raise0 _ _)

end Sys2Proof.Machine
end

