-- ==== Sys2Proof/Laws/Footprint.lean ====
section
/-!
SUPPORT. Footprints: for every operation of the model, the registers and the parts of the state that it can change,
as the bits of a number, and that it keeps a sound state sound. A bit below 512 is a register's number; the parts follow.
-/

set_option linter.unreachableTactic false
set_option linter.unusedTactic false

namespace Sys2Proof.Machine

/-- The bit of a part. -/
def Part.bit : Part → Nat
  | .pending => 512
  | .free => 513
  | .rdata => 514
  | .member => 515
  | .inForce => 516
  | .calOld => 517
  | .cnt => 518
  | .snap => 519
  | .swcnt => 520
  | .fmem => 521
  | .hmem => 522
  | .ot => 523
  | .otFrac => 524
  | .otp => 525
  | .tagCount => 526
  | .tagDraws => 527
  | .sch => 528
  | .vat => 529
  | .hst => 530
  | .tim => 531
  | .glz => 532
  | .epg => 533
  | .prt => 534
  | .twn => 535
  | .pwr => 536
  | .bst => 537
  | .fbad => 538

/-- From `s` to `t` only what the bits of `m` name has changed, and a sound state stays sound. -/
structure Within (m : Nat) (s t : State) : Prop where
  reg : ∀ r : RegId, m.testBit r.num = false → ∀ i j, rd t r i j = rd s r i j
  part : ∀ p : Part, m.testBit p.bit = false → p.Same s t
  sound : Sound s → Sound t

theorem Part.Same.refl (s : State) (p : Part) : p.Same s s := by cases p <;> rfl

theorem Part.Same.trans {s t u : State} {p : Part} (a : p.Same s t) (b : p.Same t u) : p.Same s u := by
  cases p <;> exact Eq.trans b a

theorem Within.refl {m : Nat} (s : State) : Within m s s := ⟨fun _ _ _ _ => rfl, fun p _ => Part.Same.refl s p, id⟩

theorem sub_bit {n m : Nat} (h : Nat.land n m = n) {b : Nat} (hb : m.testBit b = false) : n.testBit b = false := by
  have e : n &&& m = n := h
  rw [← e, Nat.testBit_land, hb, Bool.and_false]

theorem Within.step {n m : Nat} {s x y : State} (h : Within m s x) (g : Within n x y) (hm : Nat.land n m = n) :
    Within m s y :=
  ⟨fun r hr i j => (g.reg r (sub_bit hm hr) i j).trans (h.reg r hr i j),
   fun p hp => (h.part p hp).trans (g.part p (sub_bit hm hp)), fun k => g.sound (h.sound k)⟩

theorem Within.weaken {n m : Nat} {s x : State} (g : Within n s x) (hm : Nat.land n m = n) : Within m s x :=
  (Within.refl s).step g hm

theorem sub_trans {a b m : Nat} (h : Nat.land a b = a) (k : Nat.land b m = b) : Nat.land a m = a := by
  have h' : a &&& b = a := h
  have k' : b &&& m = b := k
  show a &&& m = a
  rw [← h', Nat.and_assoc, k']

theorem sub_set {b m k : Nat} (h : Nat.land b m = b) (h2 : b.testBit k = true) : m.testBit k = true := by
  have e : b &&& m = b := h
  rw [← e, Nat.testBit_land] at h2
  simp only [Bool.and_eq_true] at h2
  exact h2.2

theorem Within.ite {m : Nat} {s a b : State} {c : Prop} {_ : Decidable c} (ha : Within m s a) (hb : Within m s b) :
    Within m s (if c then a else b) := by
  split
  · exact ha
  · exact hb

theorem Within.cut {m : Nat} {s a y : State} (h : Within m s a) (k : Within m s a → Within m s y) : Within m s y := k h

theorem Within.cutAny {μ : Nat} {σ a : State} {p : Prop} (h : Within μ σ a) (k : Within μ σ a → p) : p := k h

theorem Within.forEach {m : Nat} {s x : State} {α : Type} {xs : List α} {f : α → State → State} (h : Within m s x)
    (hf : ∀ a y, Within m s y → Within m s (f a y)) : Within m s (forEach xs f x) := by
  show Within m s (xs.foldl (fun t x => f x t) x)
  induction xs generalizing x with
  | nil => exact h
  | cons a xs ih => exact ih (hf a x h)

theorem Within.foldl {m : Nat} {s x : State} {α : Type} {xs : List α} {f : State → α → State} (h : Within m s x)
    (hf : ∀ a y, Within m s y → Within m s (f y a)) : Within m s (xs.foldl f x) := by
  induction xs generalizing x with
  | nil => exact h
  | cons a xs ih => exact ih (hf a x h)

theorem Within.when {m : Nat} {s x : State} {b : Bool} {f : State → State} (h : Within m s x)
    (hf : Within m s (f x)) : Within m s (when b f x) := by
  unfold Machine.when
  split
  · exact hf
  · exact h

/-- The bits of lists of registers and parts. -/
def footprint (rs : List RegId) (ps : List Part) : Nat :=
  rs.foldr (fun r m => Nat.lor (2 ^ r.num) m) (ps.foldr (fun p m => Nat.lor (2 ^ p.bit) m) 0)

theorem part_bit_inj {p q : Part} (h : p.bit = q.bit) : p = q := by
  cases p <;> cases q <;> first | rfl | (exact absurd h (by decide))

theorem part_bit_ge (p : Part) : 512 ≤ p.bit := by cases p <;> decide

theorem parts_bit (ps : List Part) (b : Nat) :
    (ps.foldr (fun p m => Nat.lor (2 ^ p.bit) m) 0).testBit b = ps.any (fun p => p.bit == b) := by
  induction ps with
  | nil => simp
  | cons a ps ih =>
    simp only [List.foldr_cons, List.any_cons]
    show (2 ^ a.bit ||| _).testBit b = _
    rw [Nat.testBit_lor, ih, Nat.testBit_two_pow]
    rfl

theorem footprint_bit (rs : List RegId) (ps : List Part) (b : Nat) :
    (footprint rs ps).testBit b = (rs.any (fun r => r.num == b) || ps.any (fun p => p.bit == b)) := by
  unfold footprint
  induction rs with
  | nil => simpa using parts_bit ps b
  | cons a rs ih =>
    simp only [List.foldr_cons, List.any_cons]
    show (2 ^ a.num ||| _).testBit b = _
    rw [Nat.testBit_lor, ih, Nat.testBit_two_pow, Bool.or_assoc]
    rfl

/-- A footprint as the lists of a frame. -/
theorem Within.leaves {n : Nat} {s t : State} (h : Within n s t) (rs : List RegId) (ps : List Part)
    (hm : Nat.land n (footprint rs ps) = n) : Leaves rs ps s t := by
  refine ⟨fun r hr i j => h.reg r (sub_bit hm ?_) i j, fun p hp => h.part p (sub_bit hm ?_)⟩
  · rw [footprint_bit, Bool.or_eq_false_iff, List.any_eq_false, List.any_eq_false]
    refine ⟨fun q hq e => hr ?_, fun p _ e => ?_⟩
    · rw [← regId_num_inj (beq_iff_eq.mp e)]; exact hq
    · have h1 := part_bit_ge p
      have h2 := regId_num_lt r
      have h3 := beq_iff_eq.mp e
      omega
  · rw [footprint_bit, Bool.or_eq_false_iff, List.any_eq_false, List.any_eq_false]
    refine ⟨fun q _ e => ?_, fun q hq e => hp ?_⟩
    · have h1 := part_bit_ge p
      have h2 := regId_num_lt q
      have h3 := beq_iff_eq.mp e
      omega
    · rw [← part_bit_inj (beq_iff_eq.mp e)]; exact hq

/-! ## Updates of one part -/

theorem sound_of {s t : State} (h1 : t.fmem = s.fmem) (h2 : t.hmem = s.hmem) (h3 : t.regs = s.regs)
    (h4 : t.sch.tasks = s.sch.tasks) (h5 : t.sch.slotFreed = s.sch.slotFreed) (h : Sound s) : Sound t :=
  ⟨by rw [h1]; exact h.fmem, by rw [h2]; exact h.hmem, by rw [h3]; exact h.regs, by
    unfold TasksFit; rw [h4, h5]; exact h.tasks⟩

/-- A state built from another by changing parts beside registers, memories and the task table. -/
theorem Within.set {m : Nat} {s x y : State} (h : Within m s x) (hr : y.regs = x.regs)
    (hp : ∀ p : Part, m.testBit p.bit = false → p.Same x y) (h1 : y.fmem = x.fmem) (h2 : y.hmem = x.hmem)
    (h4 : y.sch.tasks = x.sch.tasks) (h5 : y.sch.slotFreed = x.sch.slotFreed) : Within m s y :=
  ⟨fun r hm i j => (rd_congr hr r i j).trans (h.reg r hm i j), fun p hm => (h.part p hm).trans (hp p hm),
   fun k => sound_of h1 h2 hr h4 h5 (h.sound k)⟩

/-- A state built from another by changing parts beside registers, memories and the task table. -/
theorem Within.upd {m : Nat} {s x : State} {free' : Nat} {rdata' : List Byte} {member' : Member} {inForce' : Map W32} {calOld' : Map W32} {cnt' : Map (BitVec 48)} {snap' : Map (BitVec 48)} {swcnt' : Map (BitVec 48)} {fmem' : List Host.Cell} {fbad' : List Nat} {hmem' : List Host.Cell} {ot' : W64} {otFrac' : BitVec 48} {otp' : Map W32} {tagCount' : Map Nat} {tagDraws' : Map Nat} {sch' : Sched} {vat' : Vat} {hst' : HostSt} {tim' : Tim} {glz' : Glz} {epg' : Epg} {prt' : Prt} {twn' : Twn} {pwr' : Pwr} {bst' : Bst}
    (h : Within m s x) (ht : sch'.tasks = x.sch.tasks) (hf : sch'.slotFreed = x.sch.slotFreed)
    (h_free : free' = x.free ∨ m.testBit 513 = true) (h_rdata : rdata' = x.rdata ∨ m.testBit 514 = true) (h_member : member' = x.member ∨ m.testBit 515 = true) (h_inForce : inForce' = x.inForce ∨ m.testBit 516 = true) (h_calOld : calOld' = x.calOld ∨ m.testBit 517 = true) (h_cnt : cnt' = x.cnt ∨ m.testBit 518 = true) (h_snap : snap' = x.snap ∨ m.testBit 519 = true) (h_swcnt : swcnt' = x.swcnt ∨ m.testBit 520 = true) (h_fmem : fmem' = x.fmem ∨ m.testBit 521 = true ∧ (memWf x.fmem = true → memWf fmem' = true)) (h_fbad : fbad' = x.fbad ∨ m.testBit 538 = true) (h_hmem : hmem' = x.hmem ∨ m.testBit 522 = true ∧ (memWf x.hmem = true → memWf hmem' = true)) (h_ot : ot' = x.ot ∨ m.testBit 523 = true) (h_otFrac : otFrac' = x.otFrac ∨ m.testBit 524 = true) (h_otp : otp' = x.otp ∨ m.testBit 525 = true) (h_tagCount : tagCount' = x.tagCount ∨ m.testBit 526 = true) (h_tagDraws : tagDraws' = x.tagDraws ∨ m.testBit 527 = true) (h_sch : sch' = x.sch ∨ m.testBit 528 = true) (h_vat : vat' = x.vat ∨ m.testBit 529 = true) (h_hst : hst' = x.hst ∨ m.testBit 530 = true) (h_tim : tim' = x.tim ∨ m.testBit 531 = true) (h_glz : glz' = x.glz ∨ m.testBit 532 = true) (h_epg : epg' = x.epg ∨ m.testBit 533 = true) (h_prt : prt' = x.prt ∨ m.testBit 534 = true) (h_twn : twn' = x.twn ∨ m.testBit 535 = true) (h_pwr : pwr' = x.pwr ∨ m.testBit 536 = true) (h_bst : bst' = x.bst ∨ m.testBit 537 = true) :
    Within m s ⟨x.pending, free', rdata', member', x.regs, inForce', calOld', cnt', snap', swcnt', fmem', fbad', hmem', ot', otFrac', otp', tagCount', tagDraws', sch', vat', hst', tim', glz', epg', prt', twn', pwr', bst'⟩ := by
  refine ⟨fun r k i j => h.reg r k i j, fun p hp => (h.part p hp).trans ?_, fun k => ?_⟩
  · cases p
    case free => exact h_free.elim id (fun e => Bool.noConfusion (e.symm.trans hp))
    case rdata => exact h_rdata.elim id (fun e => Bool.noConfusion (e.symm.trans hp))
    case member => exact h_member.elim id (fun e => Bool.noConfusion (e.symm.trans hp))
    case inForce => exact h_inForce.elim id (fun e => Bool.noConfusion (e.symm.trans hp))
    case calOld => exact h_calOld.elim id (fun e => Bool.noConfusion (e.symm.trans hp))
    case cnt => exact h_cnt.elim id (fun e => Bool.noConfusion (e.symm.trans hp))
    case snap => exact h_snap.elim id (fun e => Bool.noConfusion (e.symm.trans hp))
    case swcnt => exact h_swcnt.elim id (fun e => Bool.noConfusion (e.symm.trans hp))
    case fmem => exact h_fmem.elim id (fun e => Bool.noConfusion (e.1.symm.trans hp))
    case fbad => exact h_fbad.elim id (fun e => Bool.noConfusion (e.symm.trans hp))
    case hmem => exact h_hmem.elim id (fun e => Bool.noConfusion (e.1.symm.trans hp))
    case ot => exact h_ot.elim id (fun e => Bool.noConfusion (e.symm.trans hp))
    case otFrac => exact h_otFrac.elim id (fun e => Bool.noConfusion (e.symm.trans hp))
    case otp => exact h_otp.elim id (fun e => Bool.noConfusion (e.symm.trans hp))
    case tagCount => exact h_tagCount.elim id (fun e => Bool.noConfusion (e.symm.trans hp))
    case tagDraws => exact h_tagDraws.elim id (fun e => Bool.noConfusion (e.symm.trans hp))
    case sch => exact h_sch.elim id (fun e => Bool.noConfusion (e.symm.trans hp))
    case vat => exact h_vat.elim id (fun e => Bool.noConfusion (e.symm.trans hp))
    case hst => exact h_hst.elim id (fun e => Bool.noConfusion (e.symm.trans hp))
    case tim => exact h_tim.elim id (fun e => Bool.noConfusion (e.symm.trans hp))
    case glz => exact h_glz.elim id (fun e => Bool.noConfusion (e.symm.trans hp))
    case epg => exact h_epg.elim id (fun e => Bool.noConfusion (e.symm.trans hp))
    case prt => exact h_prt.elim id (fun e => Bool.noConfusion (e.symm.trans hp))
    case twn => exact h_twn.elim id (fun e => Bool.noConfusion (e.symm.trans hp))
    case pwr => exact h_pwr.elim id (fun e => Bool.noConfusion (e.symm.trans hp))
    case bst => exact h_bst.elim id (fun e => Bool.noConfusion (e.symm.trans hp))
    all_goals rfl
  · have g := h.sound k
    refine ⟨?_, ?_, g.regs, ?_⟩
    · exact h_fmem.elim (fun e => e ▸ g.fmem) (fun e => e.2 g.fmem)
    · exact h_hmem.elim (fun e => e ▸ g.hmem) (fun e => e.2 g.hmem)
    · exact ⟨ht ▸ g.tasks.1, ht ▸ g.tasks.2.1, hf ▸ g.tasks.2.2⟩

/-! ## Named operations -/

theorem map_rises_set {α : Type} [DecidableEq α] (d : Nat → α) (m : Map α) (k : Nat) (v : α) (hm : Map.risesFrom 0 m = true) :
    Map.risesFrom 0 (Map.set d m k v) = true := by
  unfold Map.set
  split
  · exact map_rises_filter _ 0 m hm
  · exact map_rises_put 0 m k v (Nat.zero_le _) hm

theorem within_wr {m : Nat} {s x : State} (r : RegId) (v : W32) (i j : Nat) (hm : m.testBit r.num = true)
    (h : Within m s x) : Within m s (wr r v x i j) := by
  refine ⟨fun q hq k l => ?_, fun p hp => (h.part p hp).trans (by cases p <;> rfl), fun k => ?_⟩
  · have : q ≠ r := by rintro rfl; rw [hm] at hq; cases hq
    rw [rd_wr_reg this]; exact h.reg q hq k l
  · have := h.sound k
    exact ⟨this.fmem, this.hmem, by unfold wr; dsimp only; exact map_rises_set _ _ _ _ this.regs, this.tasks⟩

theorem within_put {m : Nat} {s x : State} (f : Fld) (v : Nat) (i j : Nat) (hm : m.testBit f.reg.num = true)
    (h : Within m s x) : Within m s (put f v x i j) := within_wr _ _ _ _ hm h

theorem within_setBit {m : Nat} {s x : State} (f : Fld) (b : Nat) (i j : Nat)
    (hm : m.testBit f.reg.num = true) (h : Within m s x) : Within m s (setBit f b x i j) :=
  within_wr _ _ _ _ hm h

theorem within_count {m : Nat} {s x : State} (k n : Nat) (hm : m.testBit 518 = true) (h : Within m s x) :
    Within m s (count k n x) := by
  refine h.set rfl (fun p hp => ?_) rfl rfl rfl rfl
  cases p <;> first | rfl | (rw [show Part.bit .cnt = 518 from rfl, hm] at hp; cases hp)

theorem within_bump {m : Nat} {s x : State} (c : Cnt) (hm : m.testBit 518 = true) (h : Within m s x) :
    Within m s (bump c x) := within_count _ _ hm h

theorem within_draw {m : Nat} {s x : State}  (hm : m.testBit 513 = true) (h : Within m s x) :
    Within m s (draw  x) := by
  refine h.set rfl (fun p hp => ?_) rfl rfl rfl rfl
  cases p <;> first | rfl | (rw [show Part.bit .free = 513 from rfl, hm] at hp; cases hp)

theorem within_slowOn {m : Nat} {s x : State} (n : Nat) (hm : m.testBit 536 = true) (h : Within m s x) :
    Within m s (slowOn n x) := by
  refine h.set rfl (fun p hp => ?_) rfl rfl rfl rfl
  cases p <;> first | rfl | (rw [show Part.bit .pwr = 536 from rfl, hm] at hp; cases hp)

theorem within_fmem {m : Nat} {s x : State} (f : List Host.Cell) (hf : memWf x.fmem = true → memWf f = true)
    (hm : m.testBit 521 = true) (h : Within m s x) : Within m s { x with fmem := f } := by
  refine ⟨fun q hq k l => h.reg q hq k l, fun p hp => (h.part p hp).trans ?_, fun k => ?_⟩
  · cases p <;> first | rfl | (rw [show Part.bit .fmem = 521 from rfl, hm] at hp; cases hp)
  · have := h.sound k
    exact ⟨hf this.fmem, this.hmem, this.regs, this.tasks⟩

theorem within_wakeMem {μ : Nat} {σ x : State}   (hμ : Nat.land 224945689727159819140526925384299092943484855915095831655037778630591879033574393515952034305194542857496045531676044756160413302774714984450425759043258192756736 μ = 224945689727159819140526925384299092943484855915095831655037778630591879033574393515952034305194542857496045531676044756160413302774714984450425759043258192756736) (hw : Within μ σ x) :
    Within μ σ (wakeMem x) := by
  unfold wakeMem
  repeat' first
    | with_reducible assumption
    | with_reducible apply Within.refl
    | with_reducible apply Eq.refl
    | ((with_reducible apply fun k => sub_trans k hμ); exact rfl)
    | ((with_reducible apply sub_set hμ); exact rfl)
    | ((with_reducible apply Or.inl); with_reducible apply Eq.refl)
    | ((with_reducible apply Or.inr); (with_reducible apply sub_set hμ); exact rfl)
    | intro _
    | with_reducible apply Within.ite
    | with_reducible apply Within.foldl
    | (extract_lets +onlyGivenNames a; first | (refine Within.cutAny (μ := μ) (σ := σ) (a := a) ?_ ?_; all_goals (first | (intro ha; clear_value a) | (unfold a; clear a))) | skip)
    | split
    | (with_reducible apply Within.upd)

theorem within_fmemPut {m : Nat} {s x : State} (a : Nat) (bs : List Byte) (hm : Nat.land 1124735313433459226312349608822294546110641549010779301580598287616418580711055365235812294085613375742035204954691615261660103635861574638895941369244582078840832 m = 1124735313433459226312349608822294546110641549010779301580598287616418580711055365235812294085613375742035204954691615261660103635861574638895941369244582078840832)
    (h : Within m s x) : Within m s (fmemPut a bs x) :=
  Within.upd (within_wakeMem (sub_trans rfl hm) h) rfl rfl (Or.inl rfl) (Or.inl rfl) (Or.inl rfl) (Or.inl rfl) (Or.inl rfl) (Or.inl rfl) (Or.inl rfl) (Or.inl rfl)
    (Or.inr ⟨sub_set hm rfl, memWf_memWrite _ _ _⟩) (Or.inr (sub_set hm rfl)) (Or.inl rfl) (Or.inl rfl) (Or.inl rfl) (Or.inl rfl)
    (Or.inl rfl) (Or.inl rfl) (Or.inl rfl) (Or.inl rfl) (Or.inl rfl) (Or.inl rfl) (Or.inl rfl) (Or.inl rfl) (Or.inl rfl)
    (Or.inl rfl) (Or.inl rfl) (Or.inl rfl)

theorem within_hmem {m : Nat} {s x : State} (f : List Host.Cell) (hf : memWf x.hmem = true → memWf f = true)
    (hm : m.testBit 522 = true) (h : Within m s x) : Within m s { x with hmem := f } := by
  refine ⟨fun q hq k l => h.reg q hq k l, fun p hp => (h.part p hp).trans ?_, fun k => ?_⟩
  · cases p <;> first | rfl | (rw [show Part.bit .hmem = 522 from rfl, hm] at hp; cases hp)
  · have := h.sound k
    exact ⟨this.fmem, hf this.hmem, this.regs, this.tasks⟩

theorem within_hmemPut {m : Nat} {s x : State} (fn a : Nat) (bs : List Byte) (hm : m.testBit 522 = true)
    (h : Within m s x) : Within m s (hmemPut fn a bs x) := within_hmem _ (memWf_memWrite _ _ _) hm h

/-! ## Rings and events -/

theorem within_notePoison {μ : Nat} {σ x : State} (r : ℕ)  (hμ : Nat.land 858099707516326214372737599885174152158679412517913176174307932398192897924707006515319955082681819372162038923935107254640248499964580476571753536393592832 μ = 858099707516326214372737599885174152158679412517913176174307932398192897924707006515319955082681819372162038923935107254640248499964580476571753536393592832) (hw : Within μ σ x) :
    Within μ σ (notePoison r x) := by
  unfold notePoison
  repeat' first
    | with_reducible assumption
    | with_reducible apply Within.refl
    | with_reducible apply Eq.refl
    | ((with_reducible apply fun k => sub_trans k hμ); exact rfl)
    | ((with_reducible apply sub_set hμ); exact rfl)
    | intro _
    | with_reducible apply Within.ite
    | with_reducible apply within_setBit
    | with_reducible apply within_bump
    | with_reducible apply Within.foldl
    | (extract_lets +onlyGivenNames a; first | (refine Within.cutAny (μ := μ) (σ := σ) (a := a) ?_ ?_; all_goals (first | (intro ha; clear_value a) | (unfold a; clear a))) | skip)
    | split

theorem within_judgeParity {μ : Nat} {σ x : State} (r : ℕ)  (hμ : Nat.land 3515634501694388500285105946729558501394109553085890282786139599035396302797524605693265855973747413967747873471362134422261098104354886212514474238587302854656 μ = 3515634501694388500285105946729558501394109553085890282786139599035396302797524605693265855973747413967747873471362134422261098104354886212514474238587302854656) (hw : Within μ σ x) :
    Within μ σ (judgeParity r x) := by
  unfold judgeParity
  repeat' first
    | with_reducible assumption
    | with_reducible apply Within.refl
    | with_reducible apply Eq.refl
    | ((with_reducible apply fun k => sub_trans k hμ); exact rfl)
    | ((with_reducible apply sub_set hμ); exact rfl)
    | ((with_reducible apply Or.inl); with_reducible apply Eq.refl)
    | ((with_reducible apply Or.inr); (with_reducible apply sub_set hμ); exact rfl)
    | intro _
    | with_reducible apply Within.ite
    | with_reducible apply within_notePoison
    | with_reducible apply Within.foldl
    | (extract_lets +onlyGivenNames a; first | (refine Within.cutAny (μ := μ) (σ := σ) (a := a) ?_ ?_; all_goals (first | (intro ha; clear_value a) | (unfold a; clear a))) | skip)
    | split
    | (with_reducible apply Within.upd)

theorem within_ringAppend {μ : Nat} {σ x : State} (r : ℕ) (ws : List W32)  (hμ : Nat.land 3529364097014649719715069748327721287828648423686176893604928525953767389164319917797510975255070323077702466094145096138335342080354319500139622295169532971008 μ = 3529364097014649719715069748327721287828648423686176893604928525953767389164319917797510975255070323077702466094145096138335342080354319500139622295169532971008) (hw : Within μ σ x) :
    Within μ σ (ringAppend r ws x) := by
  unfold ringAppend
  repeat' first
    | with_reducible assumption
    | with_reducible apply Within.refl
    | with_reducible apply Eq.refl
    | ((with_reducible apply fun k => sub_trans k hμ); exact rfl)
    | ((with_reducible apply sub_set hμ); exact rfl)
    | intro _
    | with_reducible apply Within.ite
    | with_reducible apply within_hmemPut
    | with_reducible apply within_put
    | with_reducible apply within_judgeParity
    | with_reducible apply Within.foldl
    | (extract_lets +onlyGivenNames a; first | (refine Within.cutAny (μ := μ) (σ := σ) (a := a) ?_ ?_; all_goals (first | (intro ha; clear_value a) | (unfold a; clear a))) | skip)
    | split

theorem within_signalVector {μ : Nat} {σ x : State} (f : ℕ) (v : ℕ)  (hμ : Nat.land 3514776401986872174070733209129673327241950873673372369609965291102998109899599898686750536018664732148375711432438199315006457855854921632037902485050909261824 μ = 3514776401986872174070733209129673327241950873673372369609965291102998109899599898686750536018664732148375711432438199315006457855854921632037902485050909261824) (hw : Within μ σ x) :
    Within μ σ (signalVector f v x) := by
  unfold signalVector
  repeat' first
    | with_reducible assumption
    | with_reducible apply Within.refl
    | with_reducible apply Eq.refl
    | ((with_reducible apply fun k => sub_trans k hμ); exact rfl)
    | ((with_reducible apply sub_set hμ); exact rfl)
    | ((with_reducible apply Or.inl); with_reducible apply Eq.refl)
    | ((with_reducible apply Or.inr); (with_reducible apply sub_set hμ); exact rfl)
    | intro _
    | with_reducible apply Within.ite
    | with_reducible apply Within.foldl
    | (extract_lets +onlyGivenNames a; first | (refine Within.cutAny (μ := μ) (σ := σ) (a := a) ?_ ?_; all_goals (first | (intro ha; clear_value a) | (unfold a; clear a))) | skip)
    | split
    | (with_reducible apply Within.upd)

theorem within_deliverTo {μ : Nat} {σ x : State} (f ev detail : Nat)  (hμ : Nat.land 3529364097014649719715069748327721287828648423686176893604928525953767389164319917797510975255070323077702466094145096138335342080354319500139622295169532971008 μ = 3529364097014649719715069748327721287828648423686176893604928525953767389164319917797510975255070323077702466094145096138335342080354319500139622295169532971008) (hw : Within μ σ x) :
    Within μ σ (deliverTo f ev detail x) := by
  unfold deliverTo
  repeat' first
    | with_reducible assumption
    | with_reducible apply Within.refl
    | with_reducible apply Eq.refl
    | ((with_reducible apply fun k => sub_trans k hμ); exact rfl)
    | ((with_reducible apply sub_set hμ); exact rfl)
    | ((with_reducible apply Or.inl); with_reducible apply Eq.refl)
    | ((with_reducible apply Or.inr); (with_reducible apply sub_set hμ); exact rfl)
    | intro _
    | with_reducible apply Within.ite
    | with_reducible apply within_ringAppend
    | with_reducible apply within_signalVector
    | with_reducible apply Within.foldl
    | (extract_lets +onlyGivenNames a; first | (refine Within.cutAny (μ := μ) (σ := σ) (a := a) ?_ ?_; all_goals (first | (intro ha; clear_value a) | (unfold a; clear a))) | skip)
    | split
    | (with_reducible apply Within.upd)

theorem within_raiseF {μ : Nat} {σ x : State} (fuel ev detail : Nat) (hμ : Nat.land 3529364097014649719715069748327721287828648423686176893604928525953767389164319917797510975255070323077702466094145096138335342080354319500139622295169532971008 μ = 3529364097014649719715069748327721287828648423686176893604928525953767389164319917797510975255070323077702466094145096138335342080354319500139622295169532971008) (hw : Within μ σ x) :
    Within μ σ (raiseF fuel ev detail x) := by
  induction fuel generalizing ev detail x with
  | zero => exact hw
  | succ n ih =>
    unfold raiseF
    repeat' first
    | with_reducible assumption
    | with_reducible apply Within.refl
    | with_reducible apply Eq.refl
    | ((with_reducible apply fun k => sub_trans k hμ); exact rfl)
    | ((with_reducible apply sub_set hμ); exact rfl)
    | intro _
    | with_reducible apply Within.ite
    | with_reducible apply within_deliverTo
    | with_reducible apply within_setBit
    | with_reducible apply within_bump
    | (with_reducible apply ih)
    | with_reducible apply Within.foldl
    | (extract_lets +onlyGivenNames a; first | (refine Within.cutAny (μ := μ) (σ := σ) (a := a) ?_ ?_; all_goals (first | (intro ha; clear_value a) | (unfold a; clear a))) | skip)
    | split

theorem within_raise {μ : Nat} {σ x : State} (ev : ℕ) (detail : ℕ)  (hμ : Nat.land 3529364097014649719715069748327721287828648423686176893604928525953767389164319917797510975255070323077702466094145096138335342080354319500139622295169532971008 μ = 3529364097014649719715069748327721287828648423686176893604928525953767389164319917797510975255070323077702466094145096138335342080354319500139622295169532971008) (hw : Within μ σ x) :
    Within μ σ (raise ev detail x) := by
  unfold raise
  repeat' first
    | with_reducible assumption
    | with_reducible apply Within.refl
    | with_reducible apply Eq.refl
    | ((with_reducible apply fun k => sub_trans k hμ); exact rfl)
    | ((with_reducible apply sub_set hμ); exact rfl)
    | intro _
    | with_reducible apply Within.ite
    | with_reducible apply within_raiseF
    | with_reducible apply Within.foldl
    | (extract_lets +onlyGivenNames a; first | (refine Within.cutAny (μ := μ) (σ := σ) (a := a) ?_ ?_; all_goals (first | (intro ha; clear_value a) | (unfold a; clear a))) | skip)
    | split

theorem within_raise0 {μ : Nat} {σ x : State} (ev : ℕ)  (hμ : Nat.land 3529364097014649719715069748327721287828648423686176893604928525953767389164319917797510975255070323077702466094145096138335342080354319500139622295169532971008 μ = 3529364097014649719715069748327721287828648423686176893604928525953767389164319917797510975255070323077702466094145096138335342080354319500139622295169532971008) (hw : Within μ σ x) :
    Within μ σ (raise0 ev x) := by
  unfold raise0
  repeat' first
    | with_reducible assumption
    | with_reducible apply Within.refl
    | with_reducible apply Eq.refl
    | ((with_reducible apply fun k => sub_trans k hμ); exact rfl)
    | ((with_reducible apply sub_set hμ); exact rfl)
    | intro _
    | with_reducible apply Within.ite
    | with_reducible apply within_raise
    | with_reducible apply Within.foldl
    | (extract_lets +onlyGivenNames a; first | (refine Within.cutAny (μ := μ) (σ := σ) (a := a) ?_ ?_; all_goals (first | (intro ha; clear_value a) | (unfold a; clear a))) | skip)
    | split

theorem within_ringProduce {μ : Nat} {σ x : State} (r : ℕ) (ws : List W32)  (hμ : Nat.land 3529364097014649719715069748327721287828648423686176893604928525953767389164319917797510975255070323077702466094145096138335342080354319500139622295169532971008 μ = 3529364097014649719715069748327721287828648423686176893604928525953767389164319917797510975255070323077702466094145096138335342080354319500139622295169532971008) (hw : Within μ σ x) :
    Within μ σ (ringProduce r ws x) := by
  unfold ringProduce
  repeat' first
    | with_reducible assumption
    | with_reducible apply Within.refl
    | with_reducible apply Eq.refl
    | ((with_reducible apply fun k => sub_trans k hμ); exact rfl)
    | ((with_reducible apply sub_set hμ); exact rfl)
    | intro _
    | with_reducible apply Within.ite
    | with_reducible apply within_ringAppend
    | with_reducible apply within_raise
    | with_reducible apply within_setBit
    | with_reducible apply within_raise0
    | with_reducible apply Within.foldl
    | (extract_lets +onlyGivenNames a; first | (refine Within.cutAny (μ := μ) (σ := σ) (a := a) ?_ ?_; all_goals (first | (intro ha; clear_value a) | (unfold a; clear a))) | skip)
    | split

theorem within_advance {μ : Nat} {σ x : State} (t : W64)  (hμ : Nat.land 225028067299081386457106708193888069662092089138697551319950512192102105551775165388577505020882480312155773087412742526456858766630711584176176647382751573442560 μ = 225028067299081386457106708193888069662092089138697551319950512192102105551775165388577505020882480312155773087412742526456858766630711584176176647382751573442560) (hw : Within μ σ x) :
    Within μ σ (advance t x) := by
  unfold advance
  repeat' first
    | with_reducible assumption
    | with_reducible apply Within.refl
    | with_reducible apply Eq.refl
    | ((with_reducible apply fun k => sub_trans k hμ); exact rfl)
    | ((with_reducible apply sub_set hμ); exact rfl)
    | ((with_reducible apply Or.inl); with_reducible apply Eq.refl)
    | ((with_reducible apply Or.inr); (with_reducible apply sub_set hμ); exact rfl)
    | intro _
    | with_reducible apply Within.ite
    | with_reducible apply within_slowOn
    | with_reducible apply Within.foldl
    | (extract_lets +onlyGivenNames a; first | (refine Within.cutAny (μ := μ) (σ := σ) (a := a) ?_ ?_; all_goals (first | (intro ha; clear_value a) | (unfold a; clear a))) | skip)
    | split
    | (with_reducible apply Within.upd)

end Sys2Proof.Machine
end

