-- ==== Sys2Proof/Laws/FootprintTasks.lean ====
section
/-!
SUPPORT. Footprints of the life of a task and of the modes, roles and tests that every block reads.
-/

set_option linter.unreachableTactic false
set_option linter.unusedTactic false

namespace Sys2Proof.Machine

/-- A task's slot and context are numbers that the device has. -/
def Fits (t : Task) : Prop := t.slot < 65536 ∧ t.ctx < 128

/-- An outcome that is a next state within a footprint. -/
def WithinOut (m : Nat) (s : State) (o : Out) : Prop := ∃ t, o = .next t ∧ Within m s t

theorem WithinOut.next {m : Nat} {s t : State} (h : Within m s t) : WithinOut m s (.next t) := ⟨t, rfl, h⟩

theorem WithinOut.ite {m : Nat} {s : State} {a b : Out} {c : Prop} {_ : Decidable c} (ha : WithinOut m s a)
    (hb : WithinOut m s b) : WithinOut m s (if c then a else b) := by
  split
  · exact ha
  · exact hb

theorem fits_all {m : Nat} {s x : State} {t : Task} (ht : t ∈ allTasks x) (h : Within m s x) : Sound s → Fits t := by
  intro hs
  obtain ⟨e, he, rfl⟩ := List.mem_map.mp ht
  have := (h.sound hs).tasks.2.1 e he
  exact ⟨by rw [this.1]; exact this.2.1, this.2.2⟩

theorem fits_filter {m : Nat} {s x : State} {t : Task} {p : Task → Bool} (ht : t ∈ (allTasks x).filter p) (h : Within m s x) :
    Sound s → Fits t := fits_all (List.mem_filter.mp ht).1 h

theorem fits_same {s : State} {t u : Task} (e1 : u.slot = t.slot) (e2 : u.ctx = t.ctx) (h : Sound s → Fits t) :
    Sound s → Fits u := by
  intro hs
  unfold Fits
  rw [e1, e2]; exact h hs

theorem map_find_mem {α : Type} (m : Map α) (k : Nat) (v : α) (h : Map.find? m k = some v) : (k, v) ∈ m := by
  induction m with
  | nil => cases h
  | cons e m ih =>
    obtain ⟨j, w⟩ := e
    unfold Map.find? at h
    split at h
    · rename_i hj
      cases h; rw [hj]; exact List.mem_cons_self
    · exact List.mem_cons_of_mem _ (ih h)

theorem fits_at {m : Nat} {s x : State} {t : Task} {q : Nat} (ht : taskAt x q = some t) (h : Within m s x) :
    Sound s → Fits t := fits_all (List.mem_map.mpr ⟨(q, t), map_find_mem _ _ _ ht, rfl⟩) h

theorem fits_on {m : Nat} {s x : State} {t : Task} {k : Nat} (ht : taskOn x k = some t) (h : Within m s x) :
    Sound s → Fits t := fits_all (List.mem_of_find?_eq_some ht) h

theorem Within.forEachMem {m : Nat} {s x : State} {α : Type} {xs : List α} {f : α → State → State} (h : Within m s x)
    (hf : ∀ a ∈ xs, ∀ y, Within m s y → Within m s (f a y)) : Within m s (Machine.forEach xs f x) := by
  show Within m s (xs.foldl (fun t x => f x t) x)
  induction xs generalizing x with
  | nil => exact h
  | cons a xs ih => exact ih (hf a List.mem_cons_self x h) (fun b hb => hf b (List.mem_cons_of_mem _ hb))

/-- A state whose scheduler alone differs, with a task table that still fits. -/
theorem Within.sched {m : Nat} {s x : State} {c : Sched} (h : Within m s x) (hm : m.testBit 528 = true)
    (ht : Sound s → Sound x → TasksFit { x with sch := c }) : Within m s { x with sch := c } := by
  refine ⟨fun r k i j => h.reg r k i j, fun p hp => (h.part p hp).trans ?_, fun k => ?_⟩
  · cases p
    case sch => exact Bool.noConfusion (hm.symm.trans hp)
    all_goals rfl
  · have := h.sound k
    exact ⟨this.fmem, this.hmem, this.regs, ht k this⟩

theorem within_setTask {m : Nat} {s x : State} (t : Task) (ht : Sound s → Fits t) (hm : m.testBit 528 = true)
    (h : Within m s x) : Within m s (setTask t x) := by
  refine h.sched hm (fun hs hx => ⟨?_, ?_, hx.tasks.2.2⟩)
  · exact map_rises_put 0 _ _ _ (Nat.zero_le _) hx.tasks.1
  · intro e he
    rcases map_mem_put _ _ _ _ he with rfl | he
    · exact ⟨rfl, (ht hs).1, (ht hs).2⟩
    · exact hx.tasks.2.1 e he

theorem within_takeSlot {m : Nat} {s x : State} (hm : m.testBit 528 = true) (h : Within m s x) : Within m s (takeSlot x) := by
  unfold takeSlot
  split
  · exact h.sched hm (fun _ hx => hx.tasks)
  · exact h.sched hm (fun _ hx => ⟨hx.tasks.1, hx.tasks.2.1, fun q hq => hx.tasks.2.2 q (List.mem_of_mem_drop hq)⟩)

theorem freed_fits {m : Nat} {s x : State} {t : Task} (ht : Sound s → Fits t) (h : Within m s x) (hm : m.testBit 528 = true) :
    Within m s { x with sch := { x.sch with tasks := Map.del x.sch.tasks t.slot, slotFreed := x.sch.slotFreed ++ [t.slot] } } := by
  refine h.sched hm (fun hs hx => ⟨map_rises_filter _ 0 _ hx.tasks.1, fun e he => hx.tasks.2.1 e (List.mem_filter.mp he).1, ?_⟩)
  intro q hq
  rcases List.mem_append.mp hq with hq | hq
  · exact hx.tasks.2.2 q hq
  · rw [List.mem_singleton.mp hq]; exact (ht hs).1

theorem nextSlot_lt {m : Nat} {s x : State} {q : Nat} (hq : nextSlot x = some q) (h : Within m s x) : Sound s → q < 65536 := by
  intro hs
  unfold nextSlot at hq
  split at hq
  · cases hq; assumption
  · exact (h.sound hs).tasks.2.2 q (List.mem_of_mem_head? hq)

theorem within_writeTileRows {μ : Nat} {σ x : State} (c : ℕ) (slot : ℕ) (row : ℕ) (col : ℕ) (a4 : ℕ) (a5 : List Byte)  (hμ : Nat.land 1124735313433459226312349608822294546110641549010779301580598287616418580711055365235812294085613375742035204954691615261660103635861574638895941369244582078840832 μ = 1124735313433459226312349608822294546110641549010779301580598287616418580711055365235812294085613375742035204954691615261660103635861574638895941369244582078840832) (hw : Within μ σ x) :
    Within μ σ (writeTileRows c slot row col a4 a5 x) := by
  induction a4 generalizing x a5 with
  | zero => exact hw
  | succ n ih => exact ih _ (within_fmemPut _ _ (sub_trans rfl hμ) hw)

theorem within_writeTile {μ : Nat} {σ x : State} (c : ℕ) (slot : ℕ) (row : ℕ) (col : ℕ) (bs : List Byte)  (hμ : Nat.land 1124735313433459226312349608822294546110641549010779301580598287616418580711055365235812294085613375742035204954691615261660103635861574638895941369244582078840832 μ = 1124735313433459226312349608822294546110641549010779301580598287616418580711055365235812294085613375742035204954691615261660103635861574638895941369244582078840832) (hw : Within μ σ x) :
    Within μ σ (writeTile c slot row col bs x) := by
  unfold writeTile
  repeat' first
    | with_reducible assumption
    | with_reducible apply Within.refl
    | with_reducible apply Eq.refl
    | ((with_reducible apply fun k => sub_trans k hμ); exact rfl)
    | ((with_reducible apply sub_set hμ); exact rfl)
    | intro _
    | with_reducible apply Within.ite
    | with_reducible apply within_writeTileRows
    | with_reducible apply Within.foldl
    | (extract_lets +onlyGivenNames a; first | (refine Within.cutAny (μ := μ) (σ := σ) (a := a) ?_ ?_; all_goals (first | (intro ha; clear_value a) | (unfold a; clear a))) | skip)
    | split

theorem within_setCanvas {μ : Nat} {σ x : State} (c : ℕ) (v : Canvas)  (hμ : Nat.land 1757388200993436087035366604564836663620975436836686184804982645551499054949799949343375268009332366074187855716219099657503228927927460816018951242525454630912 μ = 1757388200993436087035366604564836663620975436836686184804982645551499054949799949343375268009332366074187855716219099657503228927927460816018951242525454630912) (hw : Within μ σ x) :
    Within μ σ (setCanvas c v x) := by
  unfold setCanvas
  repeat' first
    | with_reducible assumption
    | with_reducible apply Within.refl
    | with_reducible apply Eq.refl
    | ((with_reducible apply fun k => sub_trans k hμ); exact rfl)
    | ((with_reducible apply sub_set hμ); exact rfl)
    | ((with_reducible apply Or.inl); with_reducible apply Eq.refl)
    | ((with_reducible apply Or.inr); (with_reducible apply sub_set hμ); exact rfl)
    | intro _
    | with_reducible apply Within.ite
    | with_reducible apply Within.foldl
    | (extract_lets +onlyGivenNames a; first | (refine Within.cutAny (μ := μ) (σ := σ) (a := a) ?_ ?_; all_goals (first | (intro ha; clear_value a) | (unfold a; clear a))) | skip)
    | split
    | (with_reducible apply Within.upd)

theorem within_makeReady {μ : Nat} {σ x : State} (t : Machine.Task) (ht : Sound σ → Fits t) (hμ : Nat.land 878694100496718043517683302282418331810487718418343092402491322775749527474899974671687634004666183037093927858109549828751614463963730408009475621262727315456 μ = 878694100496718043517683302282418331810487718418343092402491322775749527474899974671687634004666183037093927858109549828751614463963730408009475621262727315456) (hw : Within μ σ x) :
    Within μ σ (makeReady t x) := by
  unfold makeReady
  repeat' first
    | with_reducible assumption
    | with_reducible apply Within.refl
    | with_reducible apply Eq.refl
    | ((with_reducible apply fun k => sub_trans k hμ); exact rfl)
    | ((with_reducible apply sub_set hμ); exact rfl)
    | exact (ht : Sound σ → Fits _)
    | (intro hs; have q := fits_filter ‹_ ∈ List.filter _ _› ‹_› hs; exact q)
    | (intro hs; have q := fits_at ‹taskAt _ _ = some _› ‹_› hs; exact q)
    | (intro hs; have q := fits_on ‹taskOn _ _ = some _› ‹_› hs; exact q)
    | (intro hs; have q := fits_all ‹_ ∈ allTasks _› ‹_› hs; exact q)
    | (intro hs; have q := fits_all (List.mem_of_find?_eq_some ‹List.find? _ _ = some _›) ‹_› hs; exact q)
    | intro _
    | with_reducible apply Within.ite
    | with_reducible apply within_setTask
    | with_reducible apply Within.foldl
    | (extract_lets +onlyGivenNames a; first | (refine Within.cutAny (μ := μ) (σ := σ) (a := a) ?_ ?_; all_goals (first | (intro ha; clear_value a) | (unfold a; clear a))) | skip)
    | split

theorem within_updRec {μ : Nat} {σ x : State} (c : ℕ) (e : W32) (f : EpochRec → EpochRec)  (hμ : Nat.land 1757388200993436087035366604564836663620975436836686184804982645551499054949799949343375268009332366074187855716219099657503228927927460816018951242525454630912 μ = 1757388200993436087035366604564836663620975436836686184804982645551499054949799949343375268009332366074187855716219099657503228927927460816018951242525454630912) (hw : Within μ σ x) :
    Within μ σ (updRec c e f x) := by
  unfold updRec
  repeat' first
    | with_reducible assumption
    | with_reducible apply Within.refl
    | with_reducible apply Eq.refl
    | ((with_reducible apply fun k => sub_trans k hμ); exact rfl)
    | ((with_reducible apply sub_set hμ); exact rfl)
    | intro _
    | with_reducible apply Within.ite
    | with_reducible apply within_setCanvas
    | with_reducible apply Within.foldl
    | (extract_lets +onlyGivenNames a; first | (refine Within.cutAny (μ := μ) (σ := σ) (a := a) ?_ ?_; all_goals (first | (intro ha; clear_value a) | (unfold a; clear a))) | skip)
    | split

theorem within_markFill {μ : Nat} {σ x : State} (c : ℕ) (e : W32) (tile : ℕ) (inep : W32)  (hμ : Nat.land 1758246300700952413249739342164721837773134116249204097981156953483897247847724656349890587964415047893560017755143034764757869176427425396495522996061844013056 μ = 1758246300700952413249739342164721837773134116249204097981156953483897247847724656349890587964415047893560017755143034764757869176427425396495522996061844013056) (hw : Within μ σ x) :
    Within μ σ (markFill c e tile inep x) := by
  unfold markFill
  repeat' first
    | with_reducible assumption
    | with_reducible apply Within.refl
    | with_reducible apply Eq.refl
    | ((with_reducible apply fun k => sub_trans k hμ); exact rfl)
    | ((with_reducible apply sub_set hμ); exact rfl)
    | intro _
    | with_reducible apply Within.ite
    | with_reducible apply within_bump
    | with_reducible apply within_updRec
    | with_reducible apply Within.foldl
    | (extract_lets +onlyGivenNames a; first | (refine Within.cutAny (μ := μ) (σ := σ) (a := a) ?_ ?_; all_goals (first | (intro ha; clear_value a) | (unfold a; clear a))) | skip)
    | split

theorem within_quotaBit {μ : Nat} {σ x : State} (c : ℕ) (bit : ℕ) (live : Bool)  (hμ : Nat.land 3529364097014649719715069748327721287828648423686176893604928525953767389164319917797510975255070323077702466094145096138335342080354319500139622301766602737664 μ = 3529364097014649719715069748327721287828648423686176893604928525953767389164319917797510975255070323077702466094145096138335342080354319500139622301766602737664) (hw : Within μ σ x) :
    Within μ σ (quotaBit c bit live x) := by
  unfold quotaBit
  repeat' first
    | with_reducible assumption
    | with_reducible apply Within.refl
    | with_reducible apply Eq.refl
    | ((with_reducible apply fun k => sub_trans k hμ); exact rfl)
    | ((with_reducible apply sub_set hμ); exact rfl)
    | intro _
    | with_reducible apply Within.ite
    | with_reducible apply within_put
    | with_reducible apply within_raise
    | with_reducible apply within_setBit
    | with_reducible apply Within.foldl
    | (extract_lets +onlyGivenNames a; first | (refine Within.cutAny (μ := μ) (σ := σ) (a := a) ?_ ?_; all_goals (first | (intro ha; clear_value a) | (unfold a; clear a))) | skip)
    | split

theorem within_refreshCtx {μ : Nat} {σ x : State} (c : ℕ)  (hμ : Nat.land 3529364097014649719715069748327721287828648423686176893604928525953767389164319917797510975255070323077702466094145096138335342080354319500139622301766602737664 μ = 3529364097014649719715069748327721287828648423686176893604928525953767389164319917797510975255070323077702466094145096138335342080354319500139622301766602737664) (hw : Within μ σ x) :
    Within μ σ (refreshCtx c x) := by
  unfold refreshCtx
  repeat' first
    | with_reducible assumption
    | with_reducible apply Within.refl
    | with_reducible apply Eq.refl
    | ((with_reducible apply fun k => sub_trans k hμ); exact rfl)
    | ((with_reducible apply sub_set hμ); exact rfl)
    | intro _
    | with_reducible apply Within.ite
    | with_reducible apply within_quotaBit
    | with_reducible apply Within.foldl
    | (extract_lets +onlyGivenNames a; first | (refine Within.cutAny (μ := μ) (σ := σ) (a := a) ?_ ?_; all_goals (first | (intro ha; clear_value a) | (unfold a; clear a))) | skip)
    | split

theorem within_tmplErr {μ : Nat} {σ x : State} (n : ℕ)  (hμ : Nat.land 3529364097014649719715069748327721287828648423686176893604928525953767389164319917797510975255070323077702466094145096138335342080354319500139622576644509681664 μ = 3529364097014649719715069748327721287828648423686176893604928525953767389164319917797510975255070323077702466094145096138335342080354319500139622576644509681664) (hw : Within μ σ x) :
    Within μ σ (tmplErr n x) := by
  unfold tmplErr
  repeat' first
    | with_reducible assumption
    | with_reducible apply Within.refl
    | with_reducible apply Eq.refl
    | ((with_reducible apply fun k => sub_trans k hμ); exact rfl)
    | ((with_reducible apply sub_set hμ); exact rfl)
    | intro _
    | with_reducible apply Within.ite
    | with_reducible apply within_raise0
    | with_reducible apply within_put
    | with_reducible apply Within.foldl
    | (extract_lets +onlyGivenNames a; first | (refine Within.cutAny (μ := μ) (σ := σ) (a := a) ?_ ?_; all_goals (first | (intro ha; clear_value a) | (unfold a; clear a))) | skip)
    | split

theorem within_countRelease {μ : Nat} {σ x : State} (n : ℕ)  (hμ : Nat.land 1125899906842624 μ = 1125899906842624) (hw : Within μ σ x) :
    Within μ σ (countRelease n x) := by
  unfold countRelease
  repeat' first
    | with_reducible assumption
    | with_reducible apply Within.refl
    | with_reducible apply Eq.refl
    | ((with_reducible apply fun k => sub_trans k hμ); exact rfl)
    | ((with_reducible apply sub_set hμ); exact rfl)
    | intro _
    | with_reducible apply Within.ite
    | with_reducible apply within_wr
    | with_reducible apply Within.foldl
    | (extract_lets +onlyGivenNames a; first | (refine Within.cutAny (μ := μ) (σ := σ) (a := a) ?_ ?_; all_goals (first | (intro ha; clear_value a) | (unfold a; clear a))) | skip)
    | split

theorem within_dropRelease {μ : Nat} {σ x : State} (n : ℕ) (c : ℕ)  (hμ : Nat.land 3529364097014649719715069748327721287828648423686176893604928525953767389164319917797510975255070323077702466094145096138335342080354319500139624546969346656256 μ = 3529364097014649719715069748327721287828648423686176893604928525953767389164319917797510975255070323077702466094145096138335342080354319500139624546969346656256) (hw : Within μ σ x) :
    Within μ σ (dropRelease n c x) := by
  unfold dropRelease
  repeat' first
    | with_reducible assumption
    | with_reducible apply Within.refl
    | with_reducible apply Eq.refl
    | ((with_reducible apply fun k => sub_trans k hμ); exact rfl)
    | ((with_reducible apply sub_set hμ); exact rfl)
    | intro _
    | with_reducible apply Within.ite
    | with_reducible apply within_raise
    | with_reducible apply within_wr
    | with_reducible apply Within.foldl
    | (extract_lets +onlyGivenNames a; first | (refine Within.cutAny (μ := μ) (σ := σ) (a := a) ?_ ?_; all_goals (first | (intro ha; clear_value a) | (unfold a; clear a))) | skip)
    | split

theorem within_createTask {μ : Nat} {σ x : State} (d : List W32) (c : ℕ) (epoch : Option W32) (pg : ProgSnap) (tmpl : Option ℕ) (parent : Option ℕ) (slot : ℕ) (hq : Sound σ → slot < 65536) (hμ : Nat.land 4408058197511367763232753050610139619639136142104519986007419848729516916639219892469198609259736506114796393952254645967086956544318049908149097923029330053120 μ = 4408058197511367763232753050610139619639136142104519986007419848729516916639219892469198609259736506114796393952254645967086956544318049908149097923029330053120) (hw : Within μ σ x) :
    Within μ σ (createTask d c epoch pg tmpl parent slot x) := by
  unfold createTask
  repeat' first
    | with_reducible assumption
    | with_reducible apply Within.refl
    | with_reducible apply Eq.refl
    | ((with_reducible apply fun k => sub_trans k hμ); exact rfl)
    | ((with_reducible apply sub_set hμ); exact rfl)
    | ((with_reducible apply Or.inl); with_reducible apply Eq.refl)
    | ((with_reducible apply Or.inr); (with_reducible apply sub_set hμ); exact rfl)
    | (intro hs; have q := fits_filter ‹_ ∈ List.filter _ _› ‹_› hs; exact q)
    | (intro hs; have q := fits_at ‹taskAt _ _ = some _› ‹_› hs; exact q)
    | (intro hs; have q := fits_on ‹taskOn _ _ = some _› ‹_› hs; exact q)
    | (intro hs; have q := fits_all ‹_ ∈ allTasks _› ‹_› hs; exact q)
    | (intro hs; have q := fits_all (List.mem_of_find?_eq_some ‹List.find? _ _ = some _›) ‹_› hs; exact q)
    | exact (fun hs => ⟨hq hs, Nat.mod_lt _ (by decide)⟩  : Sound σ → Fits (newTask _ _ _ _ _ _ _ _))
    | intro _
    | with_reducible apply Within.ite
    | with_reducible apply within_takeSlot
    | with_reducible apply within_makeReady
    | with_reducible apply within_setTask
    | with_reducible apply within_raise0
    | with_reducible apply within_refreshCtx
    | with_reducible apply Within.foldl
    | (extract_lets +onlyGivenNames a; first | (refine Within.cutAny (μ := μ) (σ := σ) (a := a) ?_ ?_; all_goals (first | (intro ha; clear_value a) | (unfold a; clear a))) | skip)
    | split
    | (with_reducible apply Within.upd)

theorem within_releaseOne {μ : Nat} {σ x : State} (n : ℕ) (d : List W32) (pg : Option ProgSnap) (kind : ℕ) (inh : Option (ℕ × W32))  (hμ : Nat.land 4408058197511367763232753050610139619639136142104519986007419848729516916639219892469198609259736506114796393952254645967086956544318049908149101582204027291648 μ = 4408058197511367763232753050610139619639136142104519986007419848729516916639219892469198609259736506114796393952254645967086956544318049908149101582204027291648) (hw : Within μ σ x) :
    Within μ σ (releaseOne n d pg kind inh x) := by
  unfold releaseOne
  repeat' first
    | with_reducible assumption
    | with_reducible apply Within.refl
    | with_reducible apply Eq.refl
    | ((with_reducible apply fun k => sub_trans k hμ); exact rfl)
    | ((with_reducible apply sub_set hμ); exact rfl)
    | exact nextSlot_lt ‹_› ‹_›
    | intro _
    | with_reducible apply Within.ite
    | with_reducible apply within_tmplErr
    | with_reducible apply within_countRelease
    | with_reducible apply within_dropRelease
    | with_reducible apply within_createTask
    | with_reducible apply Within.foldl
    | (extract_lets +onlyGivenNames a; first | (refine Within.cutAny (μ := μ) (σ := σ) (a := a) ?_ ?_; all_goals (first | (intro ha; clear_value a) | (unfold a; clear a))) | skip)
    | split

theorem within_releaseKind {μ : Nat} {σ x : State} (kind : ℕ) (src : ℕ) (inh : Option (ℕ × W32))  (hμ : Nat.land 4408058197511367763232753050610139619639136142104519986007419848729516916639219892469198609259736506114796393952254645967086956544318049908149101582204027291648 μ = 4408058197511367763232753050610139619639136142104519986007419848729516916639219892469198609259736506114796393952254645967086956544318049908149101582204027291648) (hw : Within μ σ x) :
    Within μ σ (releaseKind kind src inh x) := by
  unfold releaseKind
  repeat' first
    | with_reducible assumption
    | with_reducible apply Within.refl
    | with_reducible apply Eq.refl
    | ((with_reducible apply fun k => sub_trans k hμ); exact rfl)
    | ((with_reducible apply sub_set hμ); exact rfl)
    | intro _
    | with_reducible apply Within.ite
    | with_reducible apply within_releaseOne
    | with_reducible apply Within.forEach
    | with_reducible apply Within.foldl
    | (extract_lets +onlyGivenNames a; first | (refine Within.cutAny (μ := μ) (σ := σ) (a := a) ?_ ?_; all_goals (first | (intro ha; clear_value a) | (unfold a; clear a))) | skip)
    | split

theorem within_closeCtx {μ : Nat} {σ x : State} (c : ℕ)  (hμ : Nat.land 878694100496718043517683302282418331810487718418343092402491322775749527474899974671687634004666183037093927858109549828751614463963730408009475621279907184640 μ = 878694100496718043517683302282418331810487718418343092402491322775749527474899974671687634004666183037093927858109549828751614463963730408009475621279907184640) (hw : Within μ σ x) :
    Within μ σ (closeCtx c x) := by
  unfold closeCtx
  repeat' first
    | with_reducible assumption
    | with_reducible apply Within.refl
    | with_reducible apply Eq.refl
    | ((with_reducible apply fun k => sub_trans k hμ); exact rfl)
    | ((with_reducible apply sub_set hμ); exact rfl)
    | ((with_reducible apply Or.inl); with_reducible apply Eq.refl)
    | ((with_reducible apply Or.inr); (with_reducible apply sub_set hμ); exact rfl)
    | intro _
    | with_reducible apply Within.ite
    | with_reducible apply within_put
    | with_reducible apply Within.foldl
    | (extract_lets +onlyGivenNames a; first | (refine Within.cutAny (μ := μ) (σ := σ) (a := a) ?_ ?_; all_goals (first | (intro ha; clear_value a) | (unfold a; clear a))) | skip)
    | split
    | (with_reducible apply Within.upd)

theorem within_wakeSpawners {μ : Nat} {σ x : State}   (hμ : Nat.land 878694100496718043517683302282418331810487718418343092402491322775749527474899974671687634004666183037093927858109549828751614463963730408009475621262727315456 μ = 878694100496718043517683302282418331810487718418343092402491322775749527474899974671687634004666183037093927858109549828751614463963730408009475621262727315456) (hw : Within μ σ x) :
    Within μ σ (wakeSpawners x) := by
  unfold wakeSpawners
  repeat' first
    | with_reducible assumption
    | with_reducible apply Within.refl
    | with_reducible apply Eq.refl
    | ((with_reducible apply fun k => sub_trans k hμ); exact rfl)
    | ((with_reducible apply sub_set hμ); exact rfl)
    | (intro hs; have q := fits_filter ‹_ ∈ List.filter _ _› ‹_› hs; exact q)
    | (intro hs; have q := fits_at ‹taskAt _ _ = some _› ‹_› hs; exact q)
    | (intro hs; have q := fits_on ‹taskOn _ _ = some _› ‹_› hs; exact q)
    | (intro hs; have q := fits_all ‹_ ∈ allTasks _› ‹_› hs; exact q)
    | (intro hs; have q := fits_all (List.mem_of_find?_eq_some ‹List.find? _ _ = some _›) ‹_› hs; exact q)
    | intro _
    | with_reducible apply Within.ite
    | with_reducible apply within_makeReady
    | with_reducible apply Within.forEachMem
    | with_reducible apply Within.foldl
    | (extract_lets +onlyGivenNames a; first | (refine Within.cutAny (μ := μ) (σ := σ) (a := a) ?_ ?_; all_goals (first | (intro ha; clear_value a) | (unfold a; clear a))) | skip)
    | split

theorem within_freeTask {μ : Nat} {σ x : State} (t : Machine.Task) (ht : Sound σ → Fits t) (hμ : Nat.land 4408058197511367763232753050610139619639136142104519986007419848729516916639219892469198609259736506114796393952254645967086956544318049908149097923046509922304 μ = 4408058197511367763232753050610139619639136142104519986007419848729516916639219892469198609259736506114796393952254645967086956544318049908149097923046509922304) (hw : Within μ σ x) :
    Within μ σ (freeTask t x) := by
  unfold freeTask
  repeat' first
    | with_reducible assumption
    | with_reducible apply Within.refl
    | with_reducible apply Eq.refl
    | ((with_reducible apply fun k => sub_trans k hμ); exact rfl)
    | ((with_reducible apply sub_set hμ); exact rfl)
    | ((with_reducible apply Or.inl); with_reducible apply Eq.refl)
    | ((with_reducible apply Or.inr); (with_reducible apply sub_set hμ); exact rfl)
    | exact (ht : Sound σ → Fits _)
    | exact freed_fits ht hw (by (with_reducible apply sub_set hμ); exact rfl)
    | intro _
    | with_reducible apply Within.ite
    | with_reducible apply within_closeCtx
    | with_reducible apply within_wakeSpawners
    | with_reducible apply within_refreshCtx
    | with_reducible apply Within.foldl
    | (extract_lets +onlyGivenNames a; first | (refine Within.cutAny (μ := μ) (σ := σ) (a := a) ?_ ?_; all_goals (first | (intro ha; clear_value a) | (unfold a; clear a))) | skip)
    | split
    | (with_reducible apply Within.upd)

theorem within_writeTaskRecord {μ : Nat} {σ x : State} (c : ℕ) (ws : List W32)  (hμ : Nat.land 3529364097014649719715069748327721287828648423686176893604928525953767389164319917797510975255070323077702466094145096138335342080354319500139622295169532971008 μ = 3529364097014649719715069748327721287828648423686176893604928525953767389164319917797510975255070323077702466094145096138335342080354319500139622295169532971008) (hw : Within μ σ x) :
    Within μ σ (writeTaskRecord c ws x) := by
  unfold writeTaskRecord
  repeat' first
    | with_reducible assumption
    | with_reducible apply Within.refl
    | with_reducible apply Eq.refl
    | ((with_reducible apply fun k => sub_trans k hμ); exact rfl)
    | ((with_reducible apply sub_set hμ); exact rfl)
    | intro _
    | with_reducible apply Within.ite
    | with_reducible apply within_raise
    | with_reducible apply within_ringProduce
    | with_reducible apply Within.foldl
    | (extract_lets +onlyGivenNames a; first | (refine Within.cutAny (μ := μ) (σ := σ) (a := a) ?_ ?_; all_goals (first | (intro ha; clear_value a) | (unfold a; clear a))) | skip)
    | split

theorem within_depart {μ : Nat} {σ x : State} (t : Machine.Task) (ws : List W32) (record : Bool) (ht : Sound σ → Fits t) (hμ : Nat.land 4408058197511367763232753050610139619639136142104519986007419848729516916639219892469198609259736506114796393952254645967086956544318049908149097923046509922304 μ = 4408058197511367763232753050610139619639136142104519986007419848729516916639219892469198609259736506114796393952254645967086956544318049908149097923046509922304) (hw : Within μ σ x) :
    Within μ σ (depart t ws record x) := by
  unfold depart
  repeat' first
    | with_reducible assumption
    | with_reducible apply Within.refl
    | with_reducible apply Eq.refl
    | ((with_reducible apply fun k => sub_trans k hμ); exact rfl)
    | ((with_reducible apply sub_set hμ); exact rfl)
    | exact (ht : Sound σ → Fits _)
    | (intro hs; have q := fits_filter ‹_ ∈ List.filter _ _› ‹_› hs; exact q)
    | (intro hs; have q := fits_at ‹taskAt _ _ = some _› ‹_› hs; exact q)
    | (intro hs; have q := fits_on ‹taskOn _ _ = some _› ‹_› hs; exact q)
    | (intro hs; have q := fits_all ‹_ ∈ allTasks _› ‹_› hs; exact q)
    | (intro hs; have q := fits_all (List.mem_of_find?_eq_some ‹List.find? _ _ = some _›) ‹_› hs; exact q)
    | intro _
    | with_reducible apply Within.ite
    | with_reducible apply within_freeTask
    | with_reducible apply within_writeTaskRecord
    | with_reducible apply within_setTask
    | with_reducible apply Within.foldl
    | (extract_lets +onlyGivenNames a; first | (refine Within.cutAny (μ := μ) (σ := σ) (a := a) ?_ ?_; all_goals (first | (intro ha; clear_value a) | (unfold a; clear a))) | skip)
    | split

theorem within_finish {μ : Nat} {σ x : State} (t : Machine.Task) (status : ℕ) (pstat : ℕ) (code : ℕ) (info : W32) (ht : Sound σ → Fits t) (hμ : Nat.land 4408058197511367763232753050610139619639136142104519986007419848729516916639219892469198609259736506114796393952254645967086956544318049908149101582221207160832 μ = 4408058197511367763232753050610139619639136142104519986007419848729516916639219892469198609259736506114796393952254645967086956544318049908149101582221207160832) (hw : Within μ σ x) :
    Within μ σ (finish t status pstat code info x) := by
  unfold finish
  repeat' first
    | with_reducible assumption
    | with_reducible apply Within.refl
    | with_reducible apply Eq.refl
    | ((with_reducible apply fun k => sub_trans k hμ); exact rfl)
    | ((with_reducible apply sub_set hμ); exact rfl)
    | exact (ht : Sound σ → Fits _)
    | (intro hs; have q := fits_filter ‹_ ∈ List.filter _ _› ‹_› hs; exact q)
    | (intro hs; have q := fits_at ‹taskAt _ _ = some _› ‹_› hs; exact q)
    | (intro hs; have q := fits_on ‹taskOn _ _ = some _› ‹_› hs; exact q)
    | (intro hs; have q := fits_all ‹_ ∈ allTasks _› ‹_› hs; exact q)
    | (intro hs; have q := fits_all (List.mem_of_find?_eq_some ‹List.find? _ _ = some _›) ‹_› hs; exact q)
    | intro _
    | with_reducible apply Within.ite
    | with_reducible apply within_depart
    | with_reducible apply within_releaseOne
    | with_reducible apply Within.forEachMem
    | with_reducible apply Within.foldl
    | (extract_lets +onlyGivenNames a; first | (refine Within.cutAny (μ := μ) (σ := σ) (a := a) ?_ ?_; all_goals (first | (intro ha; clear_value a) | (unfold a; clear a))) | skip)
    | split

theorem within_markLater {μ : Nat} {σ x : State} (c : ℕ) (e : Sys2Proof.W32) (tile : ℕ) (inep : Sys2Proof.W32)  (hμ : Nat.land 1758246300700952413249739342164721837773134116249204097981156953483897247847724656349890587964415047893560017755143034764757869176427425396495522996061844013056 μ = 1758246300700952413249739342164721837773134116249204097981156953483897247847724656349890587964415047893560017755143034764757869176427425396495522996061844013056) (hw : Within μ σ x) :
    Within μ σ (markLater c e tile inep x) := by
  unfold markLater
  repeat' first
    | with_reducible assumption
    | with_reducible apply Within.refl
    | with_reducible apply Eq.refl
    | ((with_reducible apply fun k => sub_trans k hμ); exact rfl)
    | ((with_reducible apply sub_set hμ); exact rfl)
    | intro _
    | with_reducible apply Within.ite
    | with_reducible apply within_bump
    | with_reducible apply within_setCanvas
    | with_reducible apply Within.foldl
    | (extract_lets +onlyGivenNames a; first | (refine Within.cutAny (μ := μ) (σ := σ) (a := a) ?_ ?_; all_goals (first | (intro ha; clear_value a) | (unfold a; clear a))) | skip)
    | split

theorem within_fillFor {μ : Nat} {σ x : State} (t : Machine.Task)  (hμ : Nat.land 1758246300700952413249739342164721837773134116249204097981156953483897247847724656349890587964415047893560017755143034764757869176427425396495522996061844013056 μ = 1758246300700952413249739342164721837773134116249204097981156953483897247847724656349890587964415047893560017755143034764757869176427425396495522996061844013056) (hw : Within μ σ x) :
    Within μ σ (fillFor t x) := by
  unfold fillFor
  repeat' first
    | with_reducible assumption
    | with_reducible apply Within.refl
    | with_reducible apply Eq.refl
    | ((with_reducible apply fun k => sub_trans k hμ); exact rfl)
    | ((with_reducible apply sub_set hμ); exact rfl)
    | intro _
    | with_reducible apply Within.ite
    | with_reducible apply within_markFill
    | with_reducible apply within_markLater
    | with_reducible apply Within.foldl
    | (extract_lets +onlyGivenNames a; first | (refine Within.cutAny (μ := μ) (σ := σ) (a := a) ?_ ?_; all_goals (first | (intro ha; clear_value a) | (unfold a; clear a))) | skip)
    | split

theorem within_flushStores {μ : Nat} {σ x : State} (t : Machine.Task)  (hμ : Nat.land 1124735313433459226312349608822294546110641549010779301580598287616418580711055365235812294085613375742035204954691615261660103635861574638895941369244582078840832 μ = 1124735313433459226312349608822294546110641549010779301580598287616418580711055365235812294085613375742035204954691615261660103635861574638895941369244582078840832) (hw : Within μ σ x) :
    Within μ σ (flushStores t x) := by
  unfold flushStores
  repeat' first
    | with_reducible assumption
    | with_reducible apply Within.refl
    | with_reducible apply Eq.refl
    | ((with_reducible apply fun k => sub_trans k hμ); exact rfl)
    | ((with_reducible apply sub_set hμ); exact rfl)
    | intro _
    | with_reducible apply Within.ite
    | with_reducible apply within_fmemPut
    | with_reducible apply Within.forEach
    | with_reducible apply Within.foldl
    | (extract_lets +onlyGivenNames a; first | (refine Within.cutAny (μ := μ) (σ := σ) (a := a) ?_ ?_; all_goals (first | (intro ha; clear_value a) | (unfold a; clear a))) | skip)
    | split

theorem within_cancelBy {μ : Nat} {σ x : State} (st : Sys2Proof.Machine.TState) (t : Sys2Proof.Machine.Task) (ht : Sound σ → Fits t) (hμ : Nat.land 1130900759831964030162617728477469522393901660589720507751410690110699596682644385077624867962882444614224189204360089007284693821333820149620109422069328740632576 μ = 1130900759831964030162617728477469522393901660589720507751410690110699596682644385077624867962882444614224189204360089007284693821333820149620109422069328740632576) (hw : Within μ σ x) :
    Within μ σ (cancelBy st t x) := by
  unfold cancelBy
  repeat' first
    | with_reducible assumption
    | with_reducible apply Within.refl
    | with_reducible apply Eq.refl
    | ((with_reducible apply fun k => sub_trans k hμ); exact rfl)
    | ((with_reducible apply sub_set hμ); exact rfl)
    | exact (ht : Sound σ → Fits _)
    | (intro hs; have q := fits_filter ‹_ ∈ List.filter _ _› ‹_› hs; exact q)
    | (intro hs; have q := fits_at ‹taskAt _ _ = some _› ‹_› hs; exact q)
    | (intro hs; have q := fits_on ‹taskOn _ _ = some _› ‹_› hs; exact q)
    | (intro hs; have q := fits_all ‹_ ∈ allTasks _› ‹_› hs; exact q)
    | (intro hs; have q := fits_all (List.mem_of_find?_eq_some ‹List.find? _ _ = some _›) ‹_› hs; exact q)
    | intro _
    | with_reducible apply Within.ite
    | with_reducible apply within_finish
    | with_reducible apply within_fillFor
    | with_reducible apply within_flushStores
    | with_reducible apply Within.foldl
    | (extract_lets +onlyGivenNames a; first | (refine Within.cutAny (μ := μ) (σ := σ) (a := a) ?_ ?_; all_goals (first | (intro ha; clear_value a) | (unfold a; clear a))) | skip)
    | split

theorem within_cancelTask {μ : Nat} {σ x : State} (t : Machine.Task) (ht : Sound σ → Fits t) (hμ : Nat.land 1130900759831964030162617728477469522393901660589720507751410690110699596682644385077624867962882444614224189204360089007284693821333820149620109422069328740632576 μ = 1130900759831964030162617728477469522393901660589720507751410690110699596682644385077624867962882444614224189204360089007284693821333820149620109422069328740632576) (hw : Within μ σ x) :
    Within μ σ (cancelTask t x) := by
  unfold cancelTask
  repeat' first
    | with_reducible assumption
    | with_reducible apply Within.refl
    | with_reducible apply Eq.refl
    | ((with_reducible apply fun k => sub_trans k hμ); exact rfl)
    | ((with_reducible apply sub_set hμ); exact rfl)
    | exact (ht : Sound σ → Fits _)
    | (intro hs; have q := fits_filter ‹_ ∈ List.filter _ _› ‹_› hs; exact q)
    | (intro hs; have q := fits_at ‹taskAt _ _ = some _› ‹_› hs; exact q)
    | (intro hs; have q := fits_on ‹taskOn _ _ = some _› ‹_› hs; exact q)
    | (intro hs; have q := fits_all ‹_ ∈ allTasks _› ‹_› hs; exact q)
    | (intro hs; have q := fits_all (List.mem_of_find?_eq_some ‹List.find? _ _ = some _›) ‹_› hs; exact q)
    | intro _
    | with_reducible apply Within.ite
    | with_reducible apply within_cancelBy
    | with_reducible apply Within.foldl
    | (extract_lets +onlyGivenNames a; first | (refine Within.cutAny (μ := μ) (σ := σ) (a := a) ?_ ?_; all_goals (first | (intro ha; clear_value a) | (unfold a; clear a))) | skip)
    | split

theorem within_keepDone {μ : Nat} {σ x : State} (t : Machine.Task)  (hμ : Nat.land 878694100496718043517683302282418331810487718418343092402491322775749527474899974671687634004666183037093927858109549828751614463963730408009475621262727315456 μ = 878694100496718043517683302282418331810487718418343092402491322775749527474899974671687634004666183037093927858109549828751614463963730408009475621262727315456) (hw : Within μ σ x) :
    Within μ σ (keepDone t x) := by
  unfold keepDone
  repeat' first
    | with_reducible assumption
    | with_reducible apply Within.refl
    | with_reducible apply Eq.refl
    | ((with_reducible apply fun k => sub_trans k hμ); exact rfl)
    | ((with_reducible apply sub_set hμ); exact rfl)
    | ((with_reducible apply Or.inl); with_reducible apply Eq.refl)
    | ((with_reducible apply Or.inr); (with_reducible apply sub_set hμ); exact rfl)
    | intro _
    | with_reducible apply Within.ite
    | with_reducible apply Within.foldl
    | (extract_lets +onlyGivenNames a; first | (refine Within.cutAny (μ := μ) (σ := σ) (a := a) ?_ ?_; all_goals (first | (intro ha; clear_value a) | (unfold a; clear a))) | skip)
    | split
    | (with_reducible apply Within.upd)

theorem within_clearFill {μ : Nat} {σ x : State} (c : ℕ) (e : W32) (tile : ℕ)  (hμ : Nat.land 1757388200993436087035366604564836663620975436836686184804982645551499054949799949343375268009332366074187855716219099657503228927927460816018951242525454630912 μ = 1757388200993436087035366604564836663620975436836686184804982645551499054949799949343375268009332366074187855716219099657503228927927460816018951242525454630912) (hw : Within μ σ x) :
    Within μ σ (clearFill c e tile x) := by
  unfold clearFill
  repeat' first
    | with_reducible assumption
    | with_reducible apply Within.refl
    | with_reducible apply Eq.refl
    | ((with_reducible apply fun k => sub_trans k hμ); exact rfl)
    | ((with_reducible apply sub_set hμ); exact rfl)
    | intro _
    | with_reducible apply Within.ite
    | with_reducible apply within_updRec
    | with_reducible apply Within.foldl
    | (extract_lets +onlyGivenNames a; first | (refine Within.cutAny (μ := μ) (σ := σ) (a := a) ?_ ?_; all_goals (first | (intro ha; clear_value a) | (unfold a; clear a))) | skip)
    | split

theorem within_flushStaged {μ : Nat} {σ x : State} (keep : ℕ → Bool) (t : Machine.Task)  (hμ : Nat.land 1124735313433459226312349608822294546110641549010779301580598287616418580711055365235812294085613375742035204954691615261660103635861574638895941369244582078840832 μ = 1124735313433459226312349608822294546110641549010779301580598287616418580711055365235812294085613375742035204954691615261660103635861574638895941369244582078840832) (hw : Within μ σ x) :
    Within μ σ (flushStaged keep t x) := by
  unfold flushStaged
  repeat' first
    | with_reducible assumption
    | with_reducible apply Within.refl
    | with_reducible apply Eq.refl
    | ((with_reducible apply fun k => sub_trans k hμ); exact rfl)
    | ((with_reducible apply sub_set hμ); exact rfl)
    | intro _
    | with_reducible apply Within.ite
    | with_reducible apply within_fmemPut
    | with_reducible apply Within.forEach
    | with_reducible apply Within.foldl
    | (extract_lets +onlyGivenNames a; first | (refine Within.cutAny (μ := μ) (σ := σ) (a := a) ?_ ?_; all_goals (first | (intro ha; clear_value a) | (unfold a; clear a))) | skip)
    | split

theorem within_fmemZero {m : Nat} {s x : State} (a n : Nat) (hm : Nat.land 1124735313433459226312349608822294546110641549010779301580598287616418580711055365235812294085613375742035204954691615261660103635861574638895941369244582078840832 m = 1124735313433459226312349608822294546110641549010779301580598287616418580711055365235812294085613375742035204954691615261660103635861574638895941369244582078840832)
    (h : Within m s x) : Within m s (fmemZero a n x) :=
  Within.upd (within_wakeMem (sub_trans rfl hm) h) rfl rfl (Or.inl rfl) (Or.inl rfl) (Or.inl rfl) (Or.inl rfl) (Or.inl rfl) (Or.inl rfl) (Or.inl rfl) (Or.inl rfl)
    (Or.inr ⟨sub_set hm rfl, memWf_memZero _ _ _⟩) (Or.inr (sub_set hm rfl)) (Or.inl rfl) (Or.inl rfl) (Or.inl rfl) (Or.inl rfl)
    (Or.inl rfl) (Or.inl rfl) (Or.inl rfl) (Or.inl rfl) (Or.inl rfl) (Or.inl rfl) (Or.inl rfl) (Or.inl rfl) (Or.inl rfl)
    (Or.inl rfl) (Or.inl rfl) (Or.inl rfl)

theorem within_zeroIn {μ : Nat} {σ x : State} (c : ℕ) (slot : ℕ) (row : ℕ) (col : ℕ) (a4 : Sys2Proof.Machine.Rect)  (hμ : Nat.land 1124735313433459226312349608822294546110641549010779301580598287616418580711055365235812294085613375742035204954691615261660103635861574638895941369244582078840832 μ = 1124735313433459226312349608822294546110641549010779301580598287616418580711055365235812294085613375742035204954691615261660103635861574638895941369244582078840832) (hw : Within μ σ x) :
    Within μ σ (zeroIn c slot row col a4 x) := by
  unfold zeroIn
  repeat' first
    | with_reducible assumption
    | with_reducible apply Within.refl
    | with_reducible apply Eq.refl
    | ((with_reducible apply fun k => sub_trans k hμ); exact rfl)
    | ((with_reducible apply sub_set hμ); exact rfl)
    | intro _
    | with_reducible apply Within.ite
    | with_reducible apply within_fmemZero
    | with_reducible apply Within.forEach
    | with_reducible apply Within.foldl
    | (extract_lets +onlyGivenNames a; first | (refine Within.cutAny (μ := μ) (σ := σ) (a := a) ?_ ?_; all_goals (first | (intro ha; clear_value a) | (unfold a; clear a))) | skip)
    | split

theorem within_maskLanded {μ : Nat} {σ x : State} (t : Sys2Proof.Machine.Task)  (hμ : Nat.land 1124735313433459226312349608822294546110641549010779301580598287616418580711055365235812294085613375742035204954691615261660103635861574638895941369244582078840832 μ = 1124735313433459226312349608822294546110641549010779301580598287616418580711055365235812294085613375742035204954691615261660103635861574638895941369244582078840832) (hw : Within μ σ x) :
    Within μ σ (maskLanded t x) := by
  unfold maskLanded
  repeat' first
    | with_reducible assumption
    | with_reducible apply Within.refl
    | with_reducible apply Eq.refl
    | ((with_reducible apply fun k => sub_trans k hμ); exact rfl)
    | ((with_reducible apply sub_set hμ); exact rfl)
    | intro _
    | with_reducible apply Within.ite
    | with_reducible apply within_zeroIn
    | with_reducible apply Within.forEach
    | with_reducible apply Within.foldl
    | (extract_lets +onlyGivenNames a; first | (refine Within.cutAny (μ := μ) (σ := σ) (a := a) ?_ ?_; all_goals (first | (intro ha; clear_value a) | (unfold a; clear a))) | skip)
    | split

theorem within_landTile {μ : Nat} {σ x : State} (t : Machine.Task)  (hμ : Nat.land 1126492701634452662399384975426859382774262524447615987765403270261970079766005165185155669353622708108109392810407834361317606864789502099711960320487107533471744 μ = 1126492701634452662399384975426859382774262524447615987765403270261970079766005165185155669353622708108109392810407834361317606864789502099711960320487107533471744) (hw : Within μ σ x) :
    Within μ σ (landTile t x) := by
  unfold landTile
  repeat' first
    | with_reducible assumption
    | with_reducible apply Within.refl
    | with_reducible apply Eq.refl
    | ((with_reducible apply fun k => sub_trans k hμ); exact rfl)
    | ((with_reducible apply sub_set hμ); exact rfl)
    | intro _
    | with_reducible apply Within.ite
    | with_reducible apply within_clearFill
    | with_reducible apply within_flushStaged
    | with_reducible apply within_maskLanded
    | with_reducible apply Within.foldl
    | (extract_lets +onlyGivenNames a; first | (refine Within.cutAny (μ := μ) (σ := σ) (a := a) ?_ ?_; all_goals (first | (intro ha; clear_value a) | (unfold a; clear a))) | skip)
    | split

theorem within_park {μ : Nat} {σ x : State} (t : Machine.Task) (code : ℕ) (info : W32) (ht : Sound σ → Fits t) (hμ : Nat.land 1127371395734949380442902658729141801106073012166034330857805761584745829293480065159827356987627374291146486738265943911146358479253465830119969796108370260787200 μ = 1127371395734949380442902658729141801106073012166034330857805761584745829293480065159827356987627374291146486738265943911146358479253465830119969796108370260787200) (hw : Within μ σ x) :
    Within μ σ (park t code info x) := by
  unfold park
  repeat' first
    | with_reducible assumption
    | with_reducible apply Within.refl
    | with_reducible apply Eq.refl
    | ((with_reducible apply fun k => sub_trans k hμ); exact rfl)
    | ((with_reducible apply sub_set hμ); exact rfl)
    | exact (ht : Sound σ → Fits _)
    | (intro hs; have q := fits_filter ‹_ ∈ List.filter _ _› ‹_› hs; exact q)
    | (intro hs; have q := fits_at ‹taskAt _ _ = some _› ‹_› hs; exact q)
    | (intro hs; have q := fits_on ‹taskOn _ _ = some _› ‹_› hs; exact q)
    | (intro hs; have q := fits_all ‹_ ∈ allTasks _› ‹_› hs; exact q)
    | (intro hs; have q := fits_all (List.mem_of_find?_eq_some ‹List.find? _ _ = some _›) ‹_› hs; exact q)
    | intro _
    | with_reducible apply Within.ite
    | with_reducible apply within_landTile
    | with_reducible apply within_setTask
    | with_reducible apply Within.foldl
    | (extract_lets +onlyGivenNames a; first | (refine Within.cutAny (μ := μ) (σ := σ) (a := a) ?_ ?_; all_goals (first | (intro ha; clear_value a) | (unfold a; clear a))) | skip)
    | split

theorem within_leakStaged {μ : Nat} {σ x : State} (t : Machine.Task)  (hμ : Nat.land 1124735340249075086197543807970344542522333803969510942765385043063541468154583425382906247689361972075842060334755331634632205343369340262789081262111880091009024 μ = 1124735340249075086197543807970344542522333803969510942765385043063541468154583425382906247689361972075842060334755331634632205343369340262789081262111880091009024) (hw : Within μ σ x) :
    Within μ σ (leakStaged t x) := by
  unfold leakStaged
  repeat' first
    | with_reducible assumption
    | with_reducible apply Within.refl
    | with_reducible apply Eq.refl
    | ((with_reducible apply fun k => sub_trans k hμ); exact rfl)
    | ((with_reducible apply sub_set hμ); exact rfl)
    | intro _
    | with_reducible apply Within.ite
    | with_reducible apply within_draw
    | with_reducible apply within_flushStaged
    | with_reducible apply Within.foldl
    | (extract_lets +onlyGivenNames a; first | (refine Within.cutAny (μ := μ) (σ := σ) (a := a) ?_ ?_; all_goals (first | (intro ha; clear_value a) | (unfold a; clear a))) | skip)
    | split

theorem within_demote {μ : Nat} {σ x : State} (t : Machine.Task) (ht : Sound σ → Fits t) (hμ : Nat.land 1127372280650272756654311230614791682691917425804178489955768691339801114929906050013927825911331053306772714280368584219225714827009731418593586260729204662337536 μ = 1127372280650272756654311230614791682691917425804178489955768691339801114929906050013927825911331053306772714280368584219225714827009731418593586260729204662337536) (hw : Within μ σ x) :
    Within μ σ (demote t x) := by
  unfold demote
  repeat' first
    | with_reducible assumption
    | with_reducible apply Within.refl
    | with_reducible apply Eq.refl
    | ((with_reducible apply fun k => sub_trans k hμ); exact rfl)
    | ((with_reducible apply sub_set hμ); exact rfl)
    | exact (ht : Sound σ → Fits _)
    | (intro hs; have q := fits_filter ‹_ ∈ List.filter _ _› ‹_› hs; exact q)
    | (intro hs; have q := fits_at ‹taskAt _ _ = some _› ‹_› hs; exact q)
    | (intro hs; have q := fits_on ‹taskOn _ _ = some _› ‹_› hs; exact q)
    | (intro hs; have q := fits_all ‹_ ∈ allTasks _› ‹_› hs; exact q)
    | (intro hs; have q := fits_all (List.mem_of_find?_eq_some ‹List.find? _ _ = some _›) ‹_› hs; exact q)
    | intro _
    | with_reducible apply Within.ite
    | with_reducible apply within_updRec
    | with_reducible apply within_bump
    | with_reducible apply within_leakStaged
    | with_reducible apply within_makeReady
    | with_reducible apply Within.foldl
    | (extract_lets +onlyGivenNames a; first | (refine Within.cutAny (μ := μ) (σ := σ) (a := a) ?_ ?_; all_goals (first | (intro ha; clear_value a) | (unfold a; clear a))) | skip)
    | split

theorem within_terminate {μ : Nat} {σ x : State} (t : Machine.Task) (code : ℕ) (info : W32) (ht : Sound σ → Fits t) (hμ : Nat.land 1130900759831964030162617728477469522393901660589720507751410690110699596682644385077624867962882444614224189204360089007284693821333820149620109422069328740632576 μ = 1130900759831964030162617728477469522393901660589720507751410690110699596682644385077624867962882444614224189204360089007284693821333820149620109422069328740632576) (hw : Within μ σ x) :
    Within μ σ (terminate t code info x) := by
  unfold terminate
  repeat' first
    | with_reducible assumption
    | with_reducible apply Within.refl
    | with_reducible apply Eq.refl
    | ((with_reducible apply fun k => sub_trans k hμ); exact rfl)
    | ((with_reducible apply sub_set hμ); exact rfl)
    | exact (ht : Sound σ → Fits _)
    | (intro hs; have q := fits_filter ‹_ ∈ List.filter _ _› ‹_› hs; exact q)
    | (intro hs; have q := fits_at ‹taskAt _ _ = some _› ‹_› hs; exact q)
    | (intro hs; have q := fits_on ‹taskOn _ _ = some _› ‹_› hs; exact q)
    | (intro hs; have q := fits_all ‹_ ∈ allTasks _› ‹_› hs; exact q)
    | (intro hs; have q := fits_all (List.mem_of_find?_eq_some ‹List.find? _ _ = some _›) ‹_› hs; exact q)
    | intro _
    | with_reducible apply Within.ite
    | with_reducible apply within_raise
    | with_reducible apply within_bump
    | with_reducible apply within_finish
    | with_reducible apply within_keepDone
    | with_reducible apply within_fillFor
    | with_reducible apply within_flushStores
    | with_reducible apply Within.foldl
    | (extract_lets +onlyGivenNames a; first | (refine Within.cutAny (μ := μ) (σ := σ) (a := a) ?_ ?_; all_goals (first | (intro ha; clear_value a) | (unfold a; clear a))) | skip)
    | split

theorem within_raiseExc {μ : Nat} {σ z : State} (t : Machine.Task) (x : Exc) (ht : Sound σ → Fits t) (hμ : Nat.land 1130900786647579890047811927625519518805593915548452148936197445557822484126172445224718821566631040948031044584423805380256795528841585773513249314936626752800768 μ = 1130900786647579890047811927625519518805593915548452148936197445557822484126172445224718821566631040948031044584423805380256795528841585773513249314936626752800768) (hw : Within μ σ z) :
    Within μ σ (raiseExc t x z) := by
  unfold raiseExc
  repeat' first
    | with_reducible assumption
    | with_reducible apply Within.refl
    | with_reducible apply Eq.refl
    | ((with_reducible apply fun k => sub_trans k hμ); exact rfl)
    | ((with_reducible apply sub_set hμ); exact rfl)
    | exact (ht : Sound σ → Fits _)
    | (intro hs; have q := fits_filter ‹_ ∈ List.filter _ _› ‹_› hs; exact q)
    | (intro hs; have q := fits_at ‹taskAt _ _ = some _› ‹_› hs; exact q)
    | (intro hs; have q := fits_on ‹taskOn _ _ = some _› ‹_› hs; exact q)
    | (intro hs; have q := fits_all ‹_ ∈ allTasks _› ‹_› hs; exact q)
    | (intro hs; have q := fits_all (List.mem_of_find?_eq_some ‹List.find? _ _ = some _›) ‹_› hs; exact q)
    | intro _
    | with_reducible apply Within.ite
    | with_reducible apply within_park
    | with_reducible apply within_demote
    | with_reducible apply within_terminate
    | with_reducible apply Within.foldl
    | (extract_lets +onlyGivenNames a; first | (refine Within.cutAny (μ := μ) (σ := σ) (a := a) ?_ ?_; all_goals (first | (intro ha; clear_value a) | (unfold a; clear a))) | skip)
    | split

theorem within_discardKids {μ : Nat} {σ x : State} (a0 : ℕ) (a1 : ℕ)  (hμ : Nat.land 1129143398446586453960776561020954682141972940111615462751392462912270985071222645275375446298621708581956856728707586280599292299913658312697230360034926600931328 μ = 1129143398446586453960776561020954682141972940111615462751392462912270985071222645275375446298621708581956856728707586280599292299913658312697230360034926600931328) (hw : Within μ σ x) :
    Within μ σ (discardKids a0 a1 x) := by
  induction a0 generalizing x a1 with
  | zero => exact hw
  | succ n ih =>
    unfold discardKids
    repeat' first
    | with_reducible assumption
    | with_reducible apply Within.refl
    | with_reducible apply Eq.refl
    | ((with_reducible apply fun k => sub_trans k hμ); exact rfl)
    | ((with_reducible apply sub_set hμ); exact rfl)
    | ((with_reducible apply Or.inl); with_reducible apply Eq.refl)
    | ((with_reducible apply Or.inr); (with_reducible apply sub_set hμ); exact rfl)
    | (intro hs; have q := fits_filter ‹_ ∈ List.filter _ _› ‹_› hs; exact q)
    | (intro hs; have q := fits_at ‹taskAt _ _ = some _› ‹_› hs; exact q)
    | (intro hs; have q := fits_on ‹taskOn _ _ = some _› ‹_› hs; exact q)
    | (intro hs; have q := fits_all ‹_ ∈ allTasks _› ‹_› hs; exact q)
    | (with_reducible apply ih)
    | intro _
    | with_reducible apply Within.ite
    | with_reducible apply Within.forEachMem
    | with_reducible apply within_freeTask
    | with_reducible apply within_leakStaged
    | with_reducible apply Within.foldl
    | (extract_lets +onlyGivenNames a; first | (refine Within.cutAny (μ := μ) (σ := σ) (a := a) ?_ ?_; all_goals (first | (intro ha; clear_value a) | (unfold a; clear a))) | skip)
    | split
    | (with_reducible apply Within.upd)

theorem within_noteTile {μ : Nat} {σ x : State} (t : Machine.Task)  (hμ : Nat.land 878694100496718043517683302282418331810487718418343092402491322775749527474899974671687634004666183037093927858109549828751614463963730408009475621262727315456 μ = 878694100496718043517683302282418331810487718418343092402491322775749527474899974671687634004666183037093927858109549828751614463963730408009475621262727315456) (hw : Within μ σ x) :
    Within μ σ (noteTile t x) := by
  unfold noteTile
  repeat' first
    | with_reducible assumption
    | with_reducible apply Within.refl
    | with_reducible apply Eq.refl
    | ((with_reducible apply fun k => sub_trans k hμ); exact rfl)
    | ((with_reducible apply sub_set hμ); exact rfl)
    | ((with_reducible apply Or.inl); with_reducible apply Eq.refl)
    | ((with_reducible apply Or.inr); (with_reducible apply sub_set hμ); exact rfl)
    | intro _
    | with_reducible apply Within.ite
    | with_reducible apply Within.foldl
    | (extract_lets +onlyGivenNames a; first | (refine Within.cutAny (μ := μ) (σ := σ) (a := a) ?_ ?_; all_goals (first | (intro ha; clear_value a) | (unfold a; clear a))) | skip)
    | split
    | (with_reducible apply Within.upd)

theorem within_completeOk {μ : Nat} {σ x : State} (t : Machine.Task) (pstat : ℕ) (ht : Sound σ → Fits t) (hμ : Nat.land 1130900759831964030162617728477469522393901660589720507751410690110699596682644385077624867962882444614224189204360089007284693821333820149620109422069328740632576 μ = 1130900759831964030162617728477469522393901660589720507751410690110699596682644385077624867962882444614224189204360089007284693821333820149620109422069328740632576) (hw : Within μ σ x) :
    Within μ σ (completeOk t pstat x) := by
  unfold completeOk
  repeat' first
    | with_reducible assumption
    | with_reducible apply Within.refl
    | with_reducible apply Eq.refl
    | ((with_reducible apply fun k => sub_trans k hμ); exact rfl)
    | ((with_reducible apply sub_set hμ); exact rfl)
    | exact (ht : Sound σ → Fits _)
    | (intro hs; have q := fits_filter ‹_ ∈ List.filter _ _› ‹_› hs; exact q)
    | (intro hs; have q := fits_at ‹taskAt _ _ = some _› ‹_› hs; exact q)
    | (intro hs; have q := fits_on ‹taskOn _ _ = some _› ‹_› hs; exact q)
    | (intro hs; have q := fits_all ‹_ ∈ allTasks _› ‹_› hs; exact q)
    | (intro hs; have q := fits_all (List.mem_of_find?_eq_some ‹List.find? _ _ = some _›) ‹_› hs; exact q)
    | intro _
    | with_reducible apply Within.ite
    | with_reducible apply within_finish
    | with_reducible apply within_keepDone
    | with_reducible apply within_noteTile
    | with_reducible apply within_flushStores
    | with_reducible apply within_landTile
    | with_reducible apply Within.foldl
    | (extract_lets +onlyGivenNames a; first | (refine Within.cutAny (μ := μ) (σ := σ) (a := a) ?_ ?_; all_goals (first | (intro ha; clear_value a) | (unfold a; clear a))) | skip)
    | split

theorem within_recreate {μ : Nat} {σ x : State} (d : DoneTask)  (hμ : Nat.land 1129143398446586453960776561020954682141972940111615462751392462912270985071222645275375446298621708581956856728707586280599292299913658312697230360034926600931328 μ = 1129143398446586453960776561020954682141972940111615462751392462912270985071222645275375446298621708581956856728707586280599292299913658312697230360034926600931328) (hw : Within μ σ x) :
    Within μ σ (recreate d x) := by
  unfold recreate
  repeat' first
    | with_reducible assumption
    | with_reducible apply Within.refl
    | with_reducible apply Eq.refl
    | ((with_reducible apply fun k => sub_trans k hμ); exact rfl)
    | ((with_reducible apply sub_set hμ); exact rfl)
    | ((with_reducible apply Or.inl); with_reducible apply Eq.refl)
    | ((with_reducible apply Or.inr); (with_reducible apply sub_set hμ); exact rfl)
    | intro _
    | with_reducible apply Within.ite
    | with_reducible apply within_discardKids
    | with_reducible apply within_bump
    | with_reducible apply Within.foldl
    | (extract_lets +onlyGivenNames a; first | (refine Within.cutAny (μ := μ) (σ := σ) (a := a) ?_ ?_; all_goals (first | (intro ha; clear_value a) | (unfold a; clear a))) | skip)
    | split
    | (with_reducible apply Within.upd)

theorem within_squash {μ : Nat} {σ x : State} (t : Machine.Task) (ht : Sound σ → Fits t) (hμ : Nat.land 1129143398446586453960776561020954682141972940111615462751392462912270985071222645275375446298621708581956856728707586280599292299913658312697230360034926600931328 μ = 1129143398446586453960776561020954682141972940111615462751392462912270985071222645275375446298621708581956856728707586280599292299913658312697230360034926600931328) (hw : Within μ σ x) :
    Within μ σ (squash t x) := by
  unfold squash
  repeat' first
    | with_reducible assumption
    | with_reducible apply Within.refl
    | with_reducible apply Eq.refl
    | ((with_reducible apply fun k => sub_trans k hμ); exact rfl)
    | ((with_reducible apply sub_set hμ); exact rfl)
    | exact (ht : Sound σ → Fits _)
    | (intro hs; have q := fits_filter ‹_ ∈ List.filter _ _› ‹_› hs; exact q)
    | (intro hs; have q := fits_at ‹taskAt _ _ = some _› ‹_› hs; exact q)
    | (intro hs; have q := fits_on ‹taskOn _ _ = some _› ‹_› hs; exact q)
    | (intro hs; have q := fits_all ‹_ ∈ allTasks _› ‹_› hs; exact q)
    | (intro hs; have q := fits_all (List.mem_of_find?_eq_some ‹List.find? _ _ = some _›) ‹_› hs; exact q)
    | intro _
    | with_reducible apply Within.ite
    | with_reducible apply within_bump
    | with_reducible apply within_discardKids
    | with_reducible apply within_leakStaged
    | with_reducible apply within_makeReady
    | with_reducible apply Within.foldl
    | (extract_lets +onlyGivenNames a; first | (refine Within.cutAny (μ := μ) (σ := σ) (a := a) ?_ ?_; all_goals (first | (intro ha; clear_value a) | (unfold a; clear a))) | skip)
    | split

theorem within_yieldTask {μ : Nat} {σ x : State} (t : Machine.Task) (ht : Sound σ → Fits t) (hμ : Nat.land 878694100496718043517683302282418331810487718418343092402491322775749527474899974671687634004666183037093927858109549828751614463963730408009475621262727315456 μ = 878694100496718043517683302282418331810487718418343092402491322775749527474899974671687634004666183037093927858109549828751614463963730408009475621262727315456) (hw : Within μ σ x) :
    Within μ σ (yieldTask t x) := by
  unfold yieldTask
  repeat' first
    | with_reducible assumption
    | with_reducible apply Within.refl
    | with_reducible apply Eq.refl
    | ((with_reducible apply fun k => sub_trans k hμ); exact rfl)
    | ((with_reducible apply sub_set hμ); exact rfl)
    | exact (ht : Sound σ → Fits _)
    | (intro hs; have q := fits_filter ‹_ ∈ List.filter _ _› ‹_› hs; exact q)
    | (intro hs; have q := fits_at ‹taskAt _ _ = some _› ‹_› hs; exact q)
    | (intro hs; have q := fits_on ‹taskOn _ _ = some _› ‹_› hs; exact q)
    | (intro hs; have q := fits_all ‹_ ∈ allTasks _› ‹_› hs; exact q)
    | (intro hs; have q := fits_all (List.mem_of_find?_eq_some ‹List.find? _ _ = some _›) ‹_› hs; exact q)
    | intro _
    | with_reducible apply Within.ite
    | with_reducible apply within_makeReady
    | with_reducible apply Within.foldl
    | (extract_lets +onlyGivenNames a; first | (refine Within.cutAny (μ := μ) (σ := σ) (a := a) ?_ ?_; all_goals (first | (intro ha; clear_value a) | (unfold a; clear a))) | skip)
    | split

theorem within_cancelCtx {μ : Nat} {σ x : State} (c : ℕ)  (hμ : Nat.land 1130900759831964030162617728477469522393901660589720507751410690110699596682644385077624867962882444614224189204360089007284693821333820149620109422069328740632576 μ = 1130900759831964030162617728477469522393901660589720507751410690110699596682644385077624867962882444614224189204360089007284693821333820149620109422069328740632576) (hw : Within μ σ x) :
    Within μ σ (cancelCtx c x) := by
  unfold cancelCtx
  repeat' first
    | with_reducible assumption
    | with_reducible apply Within.refl
    | with_reducible apply Eq.refl
    | ((with_reducible apply fun k => sub_trans k hμ); exact rfl)
    | ((with_reducible apply sub_set hμ); exact rfl)
    | (intro hs; have q := fits_filter ‹_ ∈ List.filter _ _› ‹_› hs; exact q)
    | (intro hs; have q := fits_at ‹taskAt _ _ = some _› ‹_› hs; exact q)
    | (intro hs; have q := fits_on ‹taskOn _ _ = some _› ‹_› hs; exact q)
    | (intro hs; have q := fits_all ‹_ ∈ allTasks _› ‹_› hs; exact q)
    | (intro hs; have q := fits_all (List.mem_of_find?_eq_some ‹List.find? _ _ = some _›) ‹_› hs; exact q)
    | intro _
    | with_reducible apply Within.ite
    | with_reducible apply within_cancelTask
    | with_reducible apply Within.forEachMem
    | with_reducible apply Within.foldl
    | (extract_lets +onlyGivenNames a; first | (refine Within.cutAny (μ := μ) (σ := σ) (a := a) ?_ ?_; all_goals (first | (intro ha; clear_value a) | (unfold a; clear a))) | skip)
    | split

theorem within_beginTrans {μ : Nat} {σ x : State} (target : ℕ) (afterSet : Bool)  (hμ : Nat.land 224945689727159819140526925384299092943484855915095831655037778630591879033574393515952037838888672414264704698271046241997444957742508735688342002255660777996288 μ = 224945689727159819140526925384299092943484855915095831655037778630591879033574393515952037838888672414264704698271046241997444957742508735688342002255660777996288) (hw : Within μ σ x) :
    Within μ σ (beginTrans target afterSet x) := by
  unfold beginTrans
  repeat' first
    | with_reducible assumption
    | with_reducible apply Within.refl
    | with_reducible apply Eq.refl
    | ((with_reducible apply fun k => sub_trans k hμ); exact rfl)
    | ((with_reducible apply sub_set hμ); exact rfl)
    | ((with_reducible apply Or.inl); with_reducible apply Eq.refl)
    | ((with_reducible apply Or.inr); (with_reducible apply sub_set hμ); exact rfl)
    | intro _
    | with_reducible apply Within.ite
    | with_reducible apply within_put
    | with_reducible apply Within.foldl
    | (extract_lets +onlyGivenNames a; first | (refine Within.cutAny (μ := μ) (σ := σ) (a := a) ?_ ?_; all_goals (first | (intro ha; clear_value a) | (unfold a; clear a))) | skip)
    | split
    | (with_reducible apply Within.upd)

theorem within_endTrans {μ : Nat} {σ x : State}   (hμ : Nat.land 224945689727159819140526925384299092943484855915095831655037778630591879033574393515952037838888672414264704698271046241997444957742508735688342002255660777996288 μ = 224945689727159819140526925384299092943484855915095831655037778630591879033574393515952037838888672414264704698271046241997444957742508735688342002255660777996288) (hw : Within μ σ x) :
    Within μ σ (endTrans x) := by
  unfold endTrans
  repeat' first
    | with_reducible assumption
    | with_reducible apply Within.refl
    | with_reducible apply Eq.refl
    | ((with_reducible apply fun k => sub_trans k hμ); exact rfl)
    | ((with_reducible apply sub_set hμ); exact rfl)
    | ((with_reducible apply Or.inl); with_reducible apply Eq.refl)
    | ((with_reducible apply Or.inr); (with_reducible apply sub_set hμ); exact rfl)
    | intro _
    | with_reducible apply Within.ite
    | with_reducible apply within_put
    | with_reducible apply Within.foldl
    | (extract_lets +onlyGivenNames a; first | (refine Within.cutAny (μ := μ) (σ := σ) (a := a) ?_ ?_; all_goals (first | (intro ha; clear_value a) | (unfold a; clear a))) | skip)
    | split
    | (with_reducible apply Within.upd)

theorem within_enterMode {μ : Nat} {σ x : State} (m : ℕ)  (hμ : Nat.land 228475053824174468860241995132626814231313504338782008548642707156545646422738713433749548814143742737342407164365191338135780299822863055188481624550830310967296 μ = 228475053824174468860241995132626814231313504338782008548642707156545646422738713433749548814143742737342407164365191338135780299822863055188481624550830310967296) (hw : Within μ σ x) :
    Within μ σ (enterMode m x) := by
  unfold enterMode
  repeat' first
    | with_reducible assumption
    | with_reducible apply Within.refl
    | with_reducible apply Eq.refl
    | ((with_reducible apply fun k => sub_trans k hμ); exact rfl)
    | ((with_reducible apply sub_set hμ); exact rfl)
    | intro _
    | with_reducible apply Within.ite
    | with_reducible apply within_raise0
    | with_reducible apply within_put
    | with_reducible apply within_endTrans
    | with_reducible apply Within.foldl
    | (extract_lets +onlyGivenNames a; first | (refine Within.cutAny (μ := μ) (σ := σ) (a := a) ?_ ?_; all_goals (first | (intro ha; clear_value a) | (unfold a; clear a))) | skip)
    | split

theorem within_putRecord {μ : Nat} {σ x : State} (ty : ℕ) (jseq : Sys2Proof.W32) (payload : List Sys2Proof.Byte)  (hμ : Nat.land 112472844863579909570263462692149546471742427957547915827518889315295939516787196757976017152597271428748022765838022378080206651387357492225212879521629096378368 μ = 112472844863579909570263462692149546471742427957547915827518889315295939516787196757976017152597271428748022765838022378080206651387357492225212879521629096378368) (hw : Within μ σ x) :
    Within μ σ (putRecord ty jseq payload x) := by
  unfold putRecord
  repeat' first
    | with_reducible assumption
    | with_reducible apply Within.refl
    | with_reducible apply Eq.refl
    | ((with_reducible apply fun k => sub_trans k hμ); exact rfl)
    | ((with_reducible apply sub_set hμ); exact rfl)
    | ((with_reducible apply Or.inl); with_reducible apply Eq.refl)
    | ((with_reducible apply Or.inr); (with_reducible apply sub_set hμ); exact rfl)
    | intro _
    | with_reducible apply Within.ite
    | with_reducible apply Within.foldl
    | (extract_lets +onlyGivenNames a; first | (refine Within.cutAny (μ := μ) (σ := σ) (a := a) ?_ ?_; all_goals (first | (intro ha; clear_value a) | (unfold a; clear a))) | skip)
    | split
    | (with_reducible apply Within.upd)

theorem within_sendRecord {μ : Nat} {σ x : State} (ty : ℕ) (payload : List Byte)  (hμ : Nat.land 112473702963287425896477835429749431645894586636960433740695063623228337709685121464982532476003227283962676821594324244325974017861411942890882728856427597660160 μ = 112473702963287425896477835429749431645894586636960433740695063623228337709685121464982532476003227283962676821594324244325974017861411942890882728856427597660160) (hw : Within μ σ x) :
    Within μ σ (sendRecord ty payload x) := by
  unfold sendRecord
  repeat' first
    | with_reducible assumption
    | with_reducible apply Within.refl
    | with_reducible apply Eq.refl
    | ((with_reducible apply fun k => sub_trans k hμ); exact rfl)
    | ((with_reducible apply sub_set hμ); exact rfl)
    | intro _
    | with_reducible apply Within.ite
    | with_reducible apply within_bump
    | with_reducible apply within_wr
    | with_reducible apply within_putRecord
    | with_reducible apply Within.foldl
    | (extract_lets +onlyGivenNames a; first | (refine Within.cutAny (μ := μ) (σ := σ) (a := a) ?_ ?_; all_goals (first | (intro ha; clear_value a) | (unfold a; clear a))) | skip)
    | split

theorem within_journal {μ : Nat} {σ x : State} (ty : ℕ) (payload : List Byte)  (hμ : Nat.land 112473702963287425896477835429749431645894586636960433740695063623228337709685121464982532476003227283962676821594324244325974017861411942890882728856427597660160 μ = 112473702963287425896477835429749431645894586636960433740695063623228337709685121464982532476003227283962676821594324244325974017861411942890882728856427597660160) (hw : Within μ σ x) :
    Within μ σ (journal ty payload x) := by
  unfold journal
  repeat' first
    | with_reducible assumption
    | with_reducible apply Within.refl
    | with_reducible apply Eq.refl
    | ((with_reducible apply fun k => sub_trans k hμ); exact rfl)
    | ((with_reducible apply sub_set hμ); exact rfl)
    | intro _
    | with_reducible apply Within.ite
    | with_reducible apply within_sendRecord
    | with_reducible apply Within.foldl
    | (extract_lets +onlyGivenNames a; first | (refine Within.cutAny (μ := μ) (σ := σ) (a := a) ?_ ?_; all_goals (first | (intro ha; clear_value a) | (unfold a; clear a))) | skip)
    | split

theorem within_holdEnds {μ : Nat} {σ x : State}   (hμ : Nat.land 224945689727159819140526925384299092943484855915095831655037778630591879033574393515952037838888672414264704698271046241997444957742508735688342002255660777996288 μ = 224945689727159819140526925384299092943484855915095831655037778630591879033574393515952037838888672414264704698271046241997444957742508735688342002255660777996288) (hw : Within μ σ x) :
    Within μ σ (holdEnds x) := by
  unfold holdEnds
  repeat' first
    | with_reducible assumption
    | with_reducible apply Within.refl
    | with_reducible apply Eq.refl
    | ((with_reducible apply fun k => sub_trans k hμ); exact rfl)
    | ((with_reducible apply sub_set hμ); exact rfl)
    | intro _
    | with_reducible apply Within.ite
    | with_reducible apply within_beginTrans
    | with_reducible apply Within.foldl
    | (extract_lets +onlyGivenNames a; first | (refine Within.cutAny (μ := μ) (σ := σ) (a := a) ?_ ?_; all_goals (first | (intro ha; clear_value a) | (unfold a; clear a))) | skip)
    | split

theorem within_sendPlain {μ : Nat} {σ x : State} (ty : ℕ) (payload : List Byte)  (hμ : Nat.land 112472844863579909570263462692149546471742427957547915827518889315295939516787196757976017152597271428748022765838022378080206651387357492225212879521629096378368 μ = 112472844863579909570263462692149546471742427957547915827518889315295939516787196757976017152597271428748022765838022378080206651387357492225212879521629096378368) (hw : Within μ σ x) :
    Within μ σ (sendPlain ty payload x) := by
  unfold sendPlain
  repeat' first
    | with_reducible assumption
    | with_reducible apply Within.refl
    | with_reducible apply Eq.refl
    | ((with_reducible apply fun k => sub_trans k hμ); exact rfl)
    | ((with_reducible apply sub_set hμ); exact rfl)
    | intro _
    | with_reducible apply Within.ite
    | with_reducible apply within_putRecord
    | with_reducible apply Within.foldl
    | (extract_lets +onlyGivenNames a; first | (refine Within.cutAny (μ := μ) (σ := σ) (a := a) ?_ ?_; all_goals (first | (intro ha; clear_value a) | (unfold a; clear a))) | skip)
    | split

theorem within_startBlock {μ : Nat} {σ x : State} (b : ℕ)  (hμ : Nat.land 858099707516326214372737599885174152158679412517913176174307932398192897932325199650421462211989401617853633757417446085762072489248573843620374161660051456 μ = 858099707516326214372737599885174152158679412517913176174307932398192897932325199650421462211989401617853633757417446085762072489248573843620374161660051456) (hw : Within μ σ x) :
    Within μ σ (startBlock b x) := by
  unfold startBlock
  repeat' first
    | with_reducible assumption
    | with_reducible apply Within.refl
    | with_reducible apply Eq.refl
    | ((with_reducible apply fun k => sub_trans k hμ); exact rfl)
    | ((with_reducible apply sub_set hμ); exact rfl)
    | intro _
    | with_reducible apply Within.ite
    | with_reducible apply within_bump
    | with_reducible apply within_put
    | with_reducible apply Within.foldl
    | (extract_lets +onlyGivenNames a; first | (refine Within.cutAny (μ := μ) (σ := σ) (a := a) ?_ ?_; all_goals (first | (intro ha; clear_value a) | (unfold a; clear a))) | skip)
    | split

theorem within_calEffect {μ : Nat} {σ x : State} (r : RegId) (i : ℕ)  (hμ : Nat.land 3529364097014649719715069748327721287828648423686176893604928525953767389164380626200393029288536556262290701059977671352055721440393438637943963054082195736576 μ = 3529364097014649719715069748327721287828648423686176893604928525953767389164380626200393029288536556262290701059977671352055721440393438637943963054082195736576) (hw : Within μ σ x) :
    Within μ σ (calEffect r i x) := by
  unfold calEffect
  repeat' first
    | with_reducible assumption
    | with_reducible apply Within.refl
    | with_reducible apply Eq.refl
    | ((with_reducible apply fun k => sub_trans k hμ); exact rfl)
    | ((with_reducible apply sub_set hμ); exact rfl)
    | intro _
    | with_reducible apply Within.ite
    | with_reducible apply within_raise0
    | with_reducible apply within_setBit
    | with_reducible apply within_bump
    | with_reducible apply Within.foldl
    | (extract_lets +onlyGivenNames a; first | (refine Within.cutAny (μ := μ) (σ := σ) (a := a) ?_ ?_; all_goals (first | (intro ha; clear_value a) | (unfold a; clear a))) | skip)
    | split

theorem within_calRelease {μ : Nat} {σ x : State}   (hμ : Nat.land 3529793146868407882822256117127663874904727763392435850193015679919966485613373333905091716282811013764270899562355926512543231244662980497084419310306721810432 μ = 3529793146868407882822256117127663874904727763392435850193015679919966485613373333905091716282811013764270899562355926512543231244662980497084419310306721810432) (hw : Within μ σ x) :
    Within μ σ (calRelease x) := by
  unfold calRelease
  repeat' first
    | with_reducible assumption
    | with_reducible apply Within.refl
    | with_reducible apply Eq.refl
    | ((with_reducible apply fun k => sub_trans k hμ); exact rfl)
    | ((with_reducible apply sub_set hμ); exact rfl)
    | ((with_reducible apply Or.inl); with_reducible apply Eq.refl)
    | ((with_reducible apply Or.inr); (with_reducible apply sub_set hμ); exact rfl)
    | intro _
    | with_reducible apply Within.ite
    | with_reducible apply within_put
    | with_reducible apply within_calEffect
    | with_reducible apply Within.forEach
    | with_reducible apply Within.foldl
    | (extract_lets +onlyGivenNames a; first | (refine Within.cutAny (μ := μ) (σ := σ) (a := a) ?_ ?_; all_goals (first | (intro ha; clear_value a) | (unfold a; clear a))) | skip)
    | split
    | (with_reducible apply Within.upd)

theorem within_endRotStep {μ : Nat} {σ x : State}   (hμ : Nat.land 453420743551334288000768920516925907174798360253877840203680485787137525456313106979344354430397102066503965691670339018896278022033768682502132646407447106308096 μ = 453420743551334288000768920516925907174798360253877840203680485787137525456313106979344354430397102066503965691670339018896278022033768682502132646407447106308096) (hw : Within μ σ x) :
    Within μ σ (endRotStep x) := by
  unfold endRotStep
  repeat' first
    | with_reducible assumption
    | with_reducible apply Within.refl
    | with_reducible apply Eq.refl
    | ((with_reducible apply fun k => sub_trans k hμ); exact rfl)
    | ((with_reducible apply sub_set hμ); exact rfl)
    | ((with_reducible apply Or.inl); with_reducible apply Eq.refl)
    | ((with_reducible apply Or.inr); (with_reducible apply sub_set hμ); exact rfl)
    | intro _
    | with_reducible apply Within.ite
    | with_reducible apply within_put
    | with_reducible apply within_raise0
    | with_reducible apply Within.foldl
    | (extract_lets +onlyGivenNames a; first | (refine Within.cutAny (μ := μ) (σ := σ) (a := a) ?_ ?_; all_goals (first | (intro ha; clear_value a) | (unfold a; clear a))) | skip)
    | split
    | (with_reducible apply Within.upd)

theorem within_abortBlock {μ : Nat} {σ x : State} (b : ℕ)  (hμ : Nat.land 3529364097014649719715069748327721287828648423686176893604928525953767389164327565633420921515145659094120319913082988914282538308327997594648176941555991463936 μ = 3529364097014649719715069748327721287828648423686176893604928525953767389164327565633420921515145659094120319913082988914282538308327997594648176941555991463936) (hw : Within μ σ x) :
    Within μ σ (abortBlock b x) := by
  unfold abortBlock
  repeat' first
    | with_reducible assumption
    | with_reducible apply Within.refl
    | with_reducible apply Eq.refl
    | ((with_reducible apply fun k => sub_trans k hμ); exact rfl)
    | ((with_reducible apply sub_set hμ); exact rfl)
    | intro _
    | with_reducible apply Within.ite
    | with_reducible apply within_raise0
    | with_reducible apply within_setBit
    | with_reducible apply within_bump
    | with_reducible apply within_put
    | with_reducible apply Within.foldl
    | (extract_lets +onlyGivenNames a; first | (refine Within.cutAny (μ := μ) (σ := σ) (a := a) ?_ ?_; all_goals (first | (intro ha; clear_value a) | (unfold a; clear a))) | skip)
    | split

theorem within_abortRot {μ : Nat} {σ x : State}   (hμ : Nat.land 453420743551334288000768920516925907174798360253877840203680485787137525456313114627180264376657177402520383545489276911672225218261742360596641201053833564801024 μ = 453420743551334288000768920516925907174798360253877840203680485787137525456313114627180264376657177402520383545489276911672225218261742360596641201053833564801024) (hw : Within μ σ x) :
    Within μ σ (abortRot x) := by
  unfold abortRot
  repeat' first
    | with_reducible assumption
    | with_reducible apply Within.refl
    | with_reducible apply Eq.refl
    | ((with_reducible apply fun k => sub_trans k hμ); exact rfl)
    | ((with_reducible apply sub_set hμ); exact rfl)
    | intro _
    | with_reducible apply Within.ite
    | with_reducible apply within_endRotStep
    | with_reducible apply within_put
    | with_reducible apply within_abortBlock
    | with_reducible apply Within.foldl
    | (extract_lets +onlyGivenNames a; first | (refine Within.cutAny (μ := μ) (σ := σ) (a := a) ?_ ?_; all_goals (first | (intro ha; clear_value a) | (unfold a; clear a))) | skip)
    | split

theorem within_abortTests {μ : Nat} {σ x : State}   (hμ : Nat.land 453420743551334288000768920516925907174798360253877840203680485787137525456313114634590958087845413909628926586045303014281504236862738459121926577560273861756928 μ = 453420743551334288000768920516925907174798360253877840203680485787137525456313114634590958087845413909628926586045303014281504236862738459121926577560273861756928) (hw : Within μ σ x) :
    Within μ σ (abortTests x) := by
  unfold abortTests
  repeat' first
    | with_reducible assumption
    | with_reducible apply Within.refl
    | with_reducible apply Eq.refl
    | ((with_reducible apply fun k => sub_trans k hμ); exact rfl)
    | ((with_reducible apply sub_set hμ); exact rfl)
    | ((with_reducible apply Or.inl); with_reducible apply Eq.refl)
    | ((with_reducible apply Or.inr); (with_reducible apply sub_set hμ); exact rfl)
    | intro _
    | with_reducible apply Within.ite
    | with_reducible apply within_abortRot
    | with_reducible apply within_abortBlock
    | with_reducible apply within_put
    | with_reducible apply Within.foldl
    | (extract_lets +onlyGivenNames a; first | (refine Within.cutAny (μ := μ) (σ := σ) (a := a) ?_ ?_; all_goals (first | (intro ha; clear_value a) | (unfold a; clear a))) | skip)
    | split
    | (with_reducible apply Within.upd)

end Sys2Proof.Machine
end

