-- ==== Sys2Proof/Laws/Issue.lean ====
section
/-!
SUPPORT. What the shared forms of a Quolasyn instruction do: one lemma for each form.
-/

namespace Sys2Proof.Machine

/-! ## The task table -/

@[simp] theorem taskAt_setTask_same (t : Task) (s : State) : taskAt (setTask t s) t.slot = some t := by
  unfold taskAt setTask; simp

theorem taskAt_setTask_ne (t : Task) (s : State) {q : Nat} (h : q ≠ t.slot) : taskAt (setTask t s) q = taskAt s q := by
  unfold taskAt setTask; exact map_find_put_ne _ _ h

theorem taskAt_congr {s u : State} (h : u.sch.tasks = s.sch.tasks) (q : Nat) : taskAt u q = taskAt s q := by
  unfold taskAt; rw [h]

/-! ## Registers of a task -/

theorem sreg_setS (d r : BitVec 5) (v : W32) (t : Task) : sreg (setS d v t) r = if r = d ∧ r ≠ 0 then v else sreg t r := by
  unfold sreg setS
  by_cases hd : d = 0
  · subst hd; by_cases hr : r = 0 <;> simp [hr]
  · by_cases hr : r = 0
    · simp [hr]
    · rw [if_neg hr, if_neg hd]
      by_cases e : r = d
      · rw [if_pos ⟨e, hr⟩, e]; simp
      · have : r.toNat ≠ d.toNat := fun h => e (BitVec.eq_of_toNat_eq h)
        rw [if_neg (fun h => e h.1), if_neg hr]
        exact map_get_set_ne _ _ _ this

theorem preg_setP (d r : Nat) (v : W16) (t : Task) (hd : d < 8) (hr : r < 8) :
    preg (setP d v t) r = if r = d ∧ r ≠ 0 then v else preg t r := by
  unfold preg setP
  rw [Nat.mod_eq_of_lt hd, Nat.mod_eq_of_lt hr]
  by_cases hd0 : d = 0
  · subst hd0; by_cases hr0 : r = 0 <;> simp [hr0]
  · by_cases hr0 : r = 0
    · simp [hr0]
    · by_cases e : r = d
      · subst e; simp [hr0]
      · simp [hd0, hr0, e, map_get_set_ne _ _ _ e]

theorem lane_setLane (r i q l : Nat) (v : W32) (t : Task) (hi : i < 16) (hl : l < 16) :
    lane (setLane r i v t) q l = if q = r ∧ l = i then v else lane t q l := by
  unfold lane setLane
  by_cases e : q = r ∧ l = i
  · obtain ⟨rfl, rfl⟩ := e; simp
  · have : 16 * q + l ≠ 16 * r + i := by omega
    simp [e, map_get_set_ne _ _ _ this]

/-- A fold of lane writes over different lanes of one register. -/
theorem lane_writes (r : Nat) (val : Nat → W32) (ls : List Nat) (hls : ∀ l ∈ ls, l < 16) (t : Task) (q l : Nat) (hl : l < 16) :
    lane (ls.foldl (fun u i => setLane r i (val i) u) t) q l = if q = r ∧ l ∈ ls then val l else lane t q l := by
  induction ls generalizing t with
  | nil => simp
  | cons a ls ih =>
    rw [List.foldl_cons, ih (fun x hx => hls x (List.mem_cons_of_mem _ hx)), lane_setLane _ _ _ _ _ _ (hls a List.mem_cons_self) hl]
    by_cases h1 : q = r
    · by_cases h2 : l ∈ ls
      · simp [h1, h2]
      · by_cases h3 : l = a
        · subst h3; simp [h1]
        · simp [h1, h2, h3]
    · simp [h1]

theorem fold_setLane_frame (r : Nat) (val : Nat → W32) (ls : List Nat) (t : Task) :
    ls.foldl (fun u i => setLane r i (val i) u) t = { t with vregs := (ls.foldl (fun u i => setLane r i (val i) u) t).vregs } := by
  induction ls generalizing t with
  | nil => rfl
  | cons a ls ih => rw [List.foldl_cons]; rw [ih]; rfl

theorem mem_activeLanes (t : Task) (f : F) (l : Nat) : l ∈ activeLanes t f ↔ l < 16 ∧ pbit (maskOf t f) l = true := by
  unfold activeLanes lanes; simp

theorem lane_writeLanes (f : F) (r : Nat) (val : Nat → W32) (t : Task) (q l : Nat) (hl : l < 16) :
    lane (writeLanes f r val t) q l = if q = r ∧ pbit (maskOf t f) l = true then val l else lane t q l := by
  unfold writeLanes
  rw [lane_writes _ _ _ (fun x hx => ((mem_activeLanes t f x).mp hx).1) _ _ _ hl]
  simp [mem_activeLanes, hl]

theorem writeLanes_frame (f : F) (r : Nat) (val : Nat → W32) (t : Task) :
    writeLanes f r val t = { t with vregs := (writeLanes f r val t).vregs } := fold_setLane_frame _ _ _ _

/-! ## Issue -/

/-- The task as an instruction that has issued finds it. -/
@[simp] theorem sreg_counted (s : State) (c : Use) (t : Task) (r : BitVec 5) : sreg (counted s c t) r = sreg t r := rfl
@[simp] theorem preg_counted (s : State) (c : Use) (t : Task) (r : Nat) : preg (counted s c t) r = preg t r := rfl
@[simp] theorem lane_counted (s : State) (c : Use) (t : Task) (r i : Nat) : lane (counted s c t) r i = lane t r i := rfl
@[simp] theorem maskOf_counted (s : State) (c : Use) (t : Task) (f : F) : maskOf (counted s c t) f = maskOf t f := rfl

/-- The state as an instruction that has issued finds it. -/
abbrev issued (k : Nat) (u : Use) (t : Task) (s : State) : State := tagTick k (charge u t s)

theorem issued_frame (k : Nat) (u : Use) (t : Task) (s : State) : issued k u t s = { s with
    sch := { s.sch with ctCount := (issued k u t s).sch.ctCount }
    free := (issued k u t s).free
    tagCount := (issued k u t s).tagCount } := by
  unfold issued tagTick
  split <;> rfl

theorem issued_tasks (k : Nat) (u : Use) (t : Task) (s : State) : (issued k u t s).sch.tasks = s.sch.tasks := by
  rw [issued_frame]

/-- An instruction that issues and whose fields are legal runs its body. -/
theorem issue_legal {s : State} {k : Nat} {t : Task} (h : Ready s k t) (u : Use) (body : Body) :
    issue k u true body s = settle (counted s u t) (issued k u t s) (body (issued k u t s) (counted s u t)) := by
  unfold issue
  simp [h.running, h.limit, h.inside, h.good]

/-- Fields that are not as their table requires raise ILLEGAL (R33). -/
theorem issue_illegal {s : State} {k : Nat} {t : Task} (h : Ready s k t) (u : Use) (body : Body) :
    issue k u false body s = terminate (counted s u t) 1 t.pc (issued k u t s) := by
  unfold issue
  simp [h.running, h.limit, h.inside, h.good]

/-- A body that only changes its task leaves everything else. -/
theorem onlyTask_keep (k : Nat) (u : Use) (s : State) (t t' : Task) (h : t'.slot = t.slot) :
    OnlyTask s (setTask t' (issued k u t s)) t t' := by
  refine ⟨?_, ?_, ?_⟩
  · rw [← h]; simp
  · intro q hq
    rw [taskAt_setTask_ne _ _ (by rw [h]; exact hq)]
    exact taskAt_congr (issued_tasks k u t s) q
  · have e := issued_frame k u t s
    unfold setTask
    rw [e]

/-- The effect of a legal instruction whose body is pure. -/
theorem issue_pure {s : State} {k : Nat} {t : Task} (h : Ready s k t) (u : Use) (g : Task → Task) :
    issue k u true (pureBody g) s = setTask (advancePc (g (counted s u t))) (issued k u t s) := by
  rw [issue_legal h]; rfl

/-- A scalar instruction under an enabled predicate writes its value (R34, R21). -/
theorem writesScalar_of {s : State} {k : Nat} {t : Task} (h : Ready s k t) {i : Instr} {f : F} {u : Use} {val : Task → W32}
    {v : W32} (he : Enabled t f) (hx : exec i s = .next (scalarOp k f u true val s))
    (hv : ∀ n, val (counted n u t) = v) : WritesScalar s t i f.d v := by
  refine ⟨_, advancePc (setS f.d v (counted s u t)), hx, ?_, ?_, ?_⟩
  · unfold scalarOp
    rw [issue_pure h]
    simp only [maskOf_counted, he, if_true, hv]
    exact onlyTask_keep k u s t _ (by unfold advancePc setS; split <;> rfl)
  · intro r
    show sreg (setS f.d v (counted s u t)) r = _
    rw [sreg_setS]; rfl
  · unfold advancePc setS
    split <;> rfl

/-- A scalar instruction under a false predicate changes nothing but the pc (R34). -/
theorem disabled_of {s : State} {k : Nat} {t : Task} (h : Ready s k t) {i : Instr} {f : F} {u : Use} {val : Task → W32}
    (he : ¬ Enabled t f) (hx : exec i s = .next (scalarOp k f u true val s)) : GoesOn s t i (t.pc + 8) t := by
  refine ⟨_, advancePc (counted s u t), hx, ?_, rfl⟩
  unfold scalarOp
  rw [issue_pure h]
  simp only [maskOf_counted, he]
  exact onlyTask_keep k u s t _ rfl

/-- A predicate-writing instruction under an enabled predicate. -/
theorem writesPredicate_of {s : State} {k : Nat} {t : Task} (h : Ready s k t) {i : Instr} {f : F} {u : Use} {g : Task → Task} {v : W16}
    (hd : f.d.toNat < 8) (hx : exec i s = .next (issue k u true (pureBody g) s))
    (hg : ∀ n, g (counted n u t) = setP f.d.toNat v (counted n u t)) : WritesPredicate s t i f.d.toNat v := by
  refine ⟨_, advancePc (setP f.d.toNat v (counted s u t)), hx, ?_, ?_, ?_⟩
  · rw [issue_pure h, hg]
    exact onlyTask_keep k u s t _ (by unfold advancePc setP; split <;> rfl)
  · intro r hr
    show preg (setP f.d.toNat v (counted s u t)) r = _
    rw [preg_setP _ _ _ _ hd hr]; rfl
  · unfold advancePc setP
    split <;> rfl

/-- A vector instruction writes the active lanes of v[d] (R34, R59). -/
theorem writesVector_of {s : State} {k : Nat} {t : Task} (h : Ready s k t) {i : Instr} {f : F} {u : Use}
    {val : Task → Nat → W32} {v : Nat → W32} (hx : exec i s = .next (vecOp k f u true val s))
    (hv : ∀ n l, val (counted n u t) l = v l) : WritesVector s t i f f.d.toNat v := by
  refine ⟨_, advancePc (writeLanes f f.d.toNat v (counted s u t)), hx, ?_, ?_, ?_⟩
  · unfold vecOp
    rw [issue_pure h, show val (counted s u t) = v from funext (hv s)]
    exact onlyTask_keep k u s t _ (by rw [writeLanes_frame]; rfl)
  · intro q l hl
    show lane (writeLanes f f.d.toNat v (counted s u t)) q l = _
    rw [lane_writeLanes _ _ _ _ _ _ hl]; rfl
  · rw [writeLanes_frame]; rfl

/-- A pure vector instruction with a scalar result. -/
theorem writesScalar_pure {s : State} {k : Nat} {t : Task} (h : Ready s k t) {i : Instr} {d : BitVec 5} {u : Use}
    {g : Task → Task} {v : W32} (hx : exec i s = .next (issue k u true (pureBody g) s))
    (hg : ∀ n, g (counted n u t) = setS d v (counted n u t)) : WritesScalar s t i d v := by
  refine ⟨_, advancePc (setS d v (counted s u t)), hx, ?_, ?_, ?_⟩
  · rw [issue_pure h, hg]
    exact onlyTask_keep k u s t _ (by unfold advancePc setS; split <;> rfl)
  · intro r
    show sreg (setS d v (counted s u t)) r = _
    rw [sreg_setS]; rfl
  · unfold advancePc setS
    split <;> rfl

/-! ## Planar groups -/

/-- The four channel writes of one pixel. -/
def writePixel (r : Nat) (val : Nat → Nat → Nat) (i : Nat) (t : Task) : Task :=
  (List.range 4).foldl (fun u ch => setLane (r + ch) i (BitVec.ofNat 32 (val ch i)) u) t

theorem lane_writePixel (r : Nat) (val : Nat → Nat → Nat) (i : Nat) (t : Task) (hi : i < 16) (q l : Nat) (hl : l < 16) :
    lane (writePixel r val i t) q l =
      if r ≤ q ∧ q < r + 4 ∧ l = i then BitVec.ofNat 32 (val (q - r) l) else lane t q l := by
  have e : List.range 4 = [0, 1, 2, 3] := rfl
  unfold writePixel
  rw [e]
  simp only [List.foldl_cons, List.foldl_nil]
  rw [lane_setLane _ _ _ _ _ _ hi hl, lane_setLane _ _ _ _ _ _ hi hl, lane_setLane _ _ _ _ _ _ hi hl,
    lane_setLane _ _ _ _ _ _ hi hl]
  by_cases hli : l = i
  · subst hli
    by_cases h3 : q = r + 3
    · subst h3; simp
    · by_cases h2 : q = r + 2
      · subst h2; simp
      · by_cases h1 : q = r + 1
        · subst h1; simp
        · by_cases h0 : q = r
          · subst h0; simp
          · rw [if_neg (fun h => h3 h.1), if_neg (fun h => h2 h.1), if_neg (fun h => h1 h.1),
              if_neg (fun h => h0 (by simpa using h.1)), if_neg (fun h => by omega)]
  · simp [hli]

theorem vregs_fold_some {α : Type} (g : Task → α → Task) (hg : ∀ t x, ∃ m, g t x = { t with vregs := m }) (xs : List α)
    (t : Task) : ∃ m, xs.foldl g t = { t with vregs := m } := by
  induction xs generalizing t with
  | nil => exact ⟨t.vregs, rfl⟩
  | cons a xs ih =>
    obtain ⟨m, hm⟩ := hg t a
    obtain ⟨n, hn⟩ := ih (g t a)
    exact ⟨n, by rw [List.foldl_cons, hn, hm]⟩

theorem vregs_fold {α : Type} (g : Task → α → Task) (hg : ∀ t x, g t x = { t with vregs := (g t x).vregs }) (xs : List α)
    (t : Task) : xs.foldl g t = { t with vregs := (xs.foldl g t).vregs } := by
  obtain ⟨m, hm⟩ := vregs_fold_some g (fun t x => ⟨_, hg t x⟩) xs t
  rw [hm]

theorem writePixel_frame (r : Nat) (val : Nat → Nat → Nat) (i : Nat) (t : Task) :
    writePixel r val i t = { t with vregs := (writePixel r val i t).vregs } := vregs_fold _ (fun _ _ => rfl) _ t

theorem lane_pixels (r : Nat) (val : Nat → Nat → Nat) (ls : List Nat) (hls : ∀ l ∈ ls, l < 16) (t : Task) (q l : Nat)
    (hl : l < 16) : lane (ls.foldl (fun u i => writePixel r val i u) t) q l =
      if r ≤ q ∧ q < r + 4 ∧ l ∈ ls then BitVec.ofNat 32 (val (q - r) l) else lane t q l := by
  induction ls generalizing t with
  | nil => simp
  | cons a ls ih =>
    rw [List.foldl_cons, ih (fun x hx => hls x (List.mem_cons_of_mem _ hx)), lane_writePixel _ _ _ _ (hls a List.mem_cons_self) _ _ hl]
    by_cases h1 : r ≤ q ∧ q < r + 4
    · by_cases h2 : l ∈ ls
      · simp [h1, h2]
      · by_cases h3 : l = a
        · subst h3; simp [h1]
        · simp [h2, h3]
    · have h1' : ∀ p : Prop, ¬(r ≤ q ∧ q < r + 4 ∧ p) := fun p hp => h1 ⟨hp.1, hp.2.1⟩
      simp [h1']

theorem pixels_frame (r : Nat) (val : Nat → Nat → Nat) (ls : List Nat) (t : Task) :
    ls.foldl (fun u i => writePixel r val i u) t =
      { t with vregs := (ls.foldl (fun u i => writePixel r val i u) t).vregs } :=
  vregs_fold (fun u i => writePixel r val i u) (fun u i => writePixel_frame r val i u) ls t

theorem lane_writeGroup (f : F) (r : Nat) (val : Nat → Nat → Nat) (t : Task) (q l : Nat) (hl : l < 16) :
    lane (writeGroup f r val t) q l =
      if r ≤ q ∧ q < r + 4 ∧ pbit (maskOf t f) l = true then BitVec.ofNat 32 (val (q - r) l) else lane t q l := by
  show lane ((activeLanes t f).foldl (fun u i => writePixel r val i u) t) q l = _
  rw [lane_pixels _ _ _ (fun x hx => ((mem_activeLanes t f x).mp hx).1) _ _ _ hl]
  simp [mem_activeLanes, hl]

theorem writeGroup_frame (f : F) (r : Nat) (val : Nat → Nat → Nat) (t : Task) :
    writeGroup f r val t = { t with vregs := (writeGroup f r val t).vregs } := pixels_frame r val (activeLanes t f) t

/-- A pixel instruction writes the active pixels of its planar group (R66). -/
theorem writesGroup_of {s : State} {k : Nat} {t : Task} (h : Ready s k t) {i : Instr} {f : F} {u : Use} {g : Task → Task}
    {v : Nat → Nat → Nat} (hx : exec i s = .next (issue k u true (pureBody g) s))
    (hg : ∀ n, g (counted n u t) = writeGroup f f.d.toNat v (counted n u t)) : WritesGroup s t i f f.d.toNat v := by
  refine ⟨_, advancePc (writeGroup f f.d.toNat v (counted s u t)), hx, ?_, ?_, ?_⟩
  · rw [issue_pure h, hg]
    exact onlyTask_keep k u s t _ (by rw [writeGroup_frame]; rfl)
  · intro q l hl
    show lane (writeGroup f f.d.toNat v (counted s u t)) q l = _
    rw [lane_writeGroup _ _ _ _ _ _ hl]; rfl
  · rw [writeGroup_frame]; rfl

end Sys2Proof.Machine
end

