-- ==== Sys2Proof/Laws/Tasks.lean ====
section
/-!
SUPPORT. What the end of a task does: events leave completion rings alone, slots are freed, records are written or
wait.
-/

namespace Sys2Proof.Machine

/-! ## Events and completion rings -/

/-- What raising an event does for one function. -/
def raiseStep (n ev detail : Nat) (t : State) (f : Nat) : State :=
  if delivers t ev detail f && on t fld.ringCtrl.EN (get t fld.route.RING f ev) then
    let r := get t fld.route.RING f ev
    if ringRoom t r then
      let t' := deliverTo f ev detail t
      let u := if crosses (ringOcc t r) (ringOcc t' r) (get t fld.ringLevel.RING_LEVEL r) then
          raiseF n 0 r (setBit fld.ringStatus.RING_STATUS 0 t' r)
        else t'
      if parityOf t r = 0 then u else raiseF n 10 noDetail u
    else if ev == 2 then t
    else raiseF n 2 r (setBit fld.ringStatus.RING_STATUS 1 (bump .evtDrop t) r)
  else t

theorem raiseF_succ (n ev detail : Nat) (s : State) : raiseF (n + 1) ev detail s = (List.range 32).foldl (raiseStep n ev detail) s := rfl

theorem eventOnly_raiseStep (n ev detail : Nat) (t : State) (f : Nat) : EventOnly t (raiseStep n ev detail t f) := by
  unfold raiseStep
  by_cases hd : (delivers t ev detail f && on t fld.ringCtrl.EN (get t fld.route.RING f ev)) = true
  · rw [if_pos hd]
    extract_lets r x y
    by_cases hr : ringRoom t r = true
    · rw [if_pos hr]
      have hy : EventOnly t y := by
        unfold y
        split
        · exact ((eventOnly_deliverTo f ev detail t).trans (eventOnly_status _ _ _)).trans (eventOnly_raiseF _ _ _ _)
        · exact eventOnly_deliverTo f ev detail t
      split
      · exact hy
      · exact hy.trans (eventOnly_raiseF _ _ _ _)
    · rw [if_neg hr]
      split
      · exact EventOnly.refl t
      · exact ((eventOnly_drop t).trans (eventOnly_status _ _ _)).trans (eventOnly_raiseF _ _ _ _)
  · rw [if_neg hd]; exact EventOnly.refl t

theorem EventOnly.kind {t u : State} (h : EventOnly t u) (r : Nat) : get u fld.ringCtrl.KIND r = get t fld.ringCtrl.KIND r := by
  unfold get
  rw [h.regs _ _ _ (by decide) (by decide) (by decide)]

/-- A judged record touches the status of its ring and of the host side alone. -/
theorem judgeParity_rd (r : Nat) (s : State) (q : RegId) (i j : Nat) (h1 : q ≠ .ringStatus) (h2 : q ≠ .hostStatus) :
    rd (judgeParity r s) q i j = rd s q i j := by
  unfold judgeParity
  split
  · rfl
  · exact (rd_wr_reg (r := .ringStatus) h1 _ _ _ _ _ _).trans ((rd_wr_reg (r := .hostStatus) h2 _ _ _ _ _ _).trans (rd_congr rfl _ _ _))

theorem ringAppend_regs (r : Nat) (ws : List W32) (s : State) : (ringAppend r ws s).regs =
    (put fld.ringTail.TAIL ((get s fld.ringTail.TAIL r + 1) % ringSize s r) (judgeParity r s) r).regs := by
  have e : ringSize (judgeParity r s) r = ringSize s r := by
    unfold ringSize get; rw [judgeParity_rd _ _ _ _ _ (by decide) (by decide)]
  rw [← e]; rfl

theorem ringAppend_tail_ne (r q : Nat) (ws : List W32) (s : State) (h : q ≠ r) :
    rd (ringAppend r ws s) .ringTail q 0 = rd s .ringTail q 0 := by
  rw [rd_congr (ringAppend_regs r ws s)]
  exact (rd_wr_idx .ringTail h _ _ 0).trans (judgeParity_rd _ _ _ _ _ (by decide) (by decide))

theorem deliverTo_regs (f ev detail : Nat) (s : State) : (deliverTo f ev detail s).regs =
    (ringAppend (get s fld.route.RING f ev) (eventRecord s f ev detail) s).regs := by
  unfold deliverTo
  extract_lets r x h y
  split
  · unfold signalVector
    split
    · rfl
    · split <;> rfl
  · rfl

theorem bump_status_tail (c : Cnt) (b r q : Nat) (s : State) :
    rd (setBit fld.ringStatus.RING_STATUS b (bump c s) r) .ringTail q 0 = rd s .ringTail q 0 :=
  (rd_wr_reg (r := .ringStatus) (by decide) _ (bump c s) _ _ _ _).trans (rd_congr rfl _ _ _)

theorem setBit_status_tail (b r q : Nat) (s : State) :
    rd (setBit fld.ringStatus.RING_STATUS b s r) .ringTail q 0 = rd s .ringTail q 0 :=
  rd_wr_reg (r := .ringStatus) (by decide) _ s _ _ _ _

/-- Raising an event adds records only to rings of kind EVT (R300). -/
theorem raiseF_tail (fuel ev detail : Nat) (s : State) (r : Nat) (h : get s fld.ringCtrl.KIND r ≠ 2) :
    rd (raiseF fuel ev detail s) .ringTail r 0 = rd s .ringTail r 0 := by
  induction fuel generalizing ev detail s with
  | zero => rfl
  | succ n ih =>
    have one : ∀ t f, get t fld.ringCtrl.KIND r ≠ 2 → rd (raiseStep n ev detail t f) .ringTail r 0 = rd t .ringTail r 0 := by
      intro t f ht
      unfold raiseStep
      by_cases hd : (delivers t ev detail f && on t fld.ringCtrl.EN (get t fld.route.RING f ev)) = true
      · rw [if_pos hd]
        simp only
        have hne : get t fld.route.RING f ev ≠ r := by
          intro e
          apply ht
          rw [← e]
          simp only [delivers, routeLive, Bool.and_eq_true, beq_iff_eq] at hd
          exact hd.1.1.1.2
        have hdel : rd (deliverTo f ev detail t) .ringTail r 0 = rd t .ringTail r 0 := by
          rw [rd_congr (deliverTo_regs f ev detail t)]
          exact ringAppend_tail_ne _ _ _ _ (Ne.symm hne)
        by_cases hr : ringRoom t (get t fld.route.RING f ev) = true
        · rw [if_pos hr]
          have key : ∀ u, EventOnly t u → rd u .ringTail r 0 = rd t .ringTail r 0 →
              rd (if parityOf t (get t fld.route.RING f ev) = 0 then u else raiseF n 10 noDetail u) .ringTail r 0 = rd t .ringTail r 0 := by
            intro u hu h1
            split
            · exact h1
            · rw [ih _ _ _ (by rw [hu.kind]; exact ht)]; exact h1
          refine key _ ?_ ?_
          · split
            · exact ((eventOnly_deliverTo f ev detail t).trans (eventOnly_status _ _ _)).trans (eventOnly_raiseF _ _ _ _)
            · exact eventOnly_deliverTo f ev detail t
          · split
            · rw [ih _ _ _ (by rw [((eventOnly_deliverTo f ev detail t).trans (eventOnly_status _ _ _)).kind]; exact ht)]
              rw [setBit_status_tail]; exact hdel
            · exact hdel
        · rw [if_neg hr]
          split
          · rfl
          · rw [ih _ _ _ (by rw [((eventOnly_drop t).trans (eventOnly_status _ _ _)).kind]; exact ht)]
            exact bump_status_tail _ _ _ _ _
      · rw [if_neg hd]
    rw [raiseF_succ]
    generalize List.range 32 = fs
    induction fs generalizing s with
    | nil => rfl
    | cons f fs ihf =>
      rw [List.foldl_cons, ihf _ (by rw [(eventOnly_raiseStep n ev detail s f).kind]; exact h), one s f h]

theorem raise_tail (ev detail : Nat) (s : State) (r : Nat) (h : get s fld.ringCtrl.KIND r ≠ 2) :
    rd (raise ev detail s) .ringTail r 0 = rd s .ringTail r 0 := raiseF_tail 64 ev detail s r h

/-- What the registers say of a ring of another kind than EVT is untouched by events. -/
structure SameRing (s u : State) (r : Nat) : Prop where
  tail : rd u .ringTail r 0 = rd s .ringTail r 0
  others : ∀ q i j, q ≠ .ringTail → q ≠ .ringStatus → q ≠ .hostStatus → q ≠ .ctxStatus → q ≠ .ctxEvent → q ≠ .ctxCtrl → rd u q i j = rd s q i j

theorem SameRing.refl (s : State) (r : Nat) : SameRing s s r := ⟨rfl, fun _ _ _ _ _ _ _ _ _ => rfl⟩

theorem SameRing.trans {s u v : State} {r : Nat} (a : SameRing s u r) (b : SameRing u v r) : SameRing s v r :=
  ⟨b.tail.trans a.tail, fun q i j h1 h2 h3 h4 h5 h6 => (b.others q i j h1 h2 h3 h4 h5 h6).trans (a.others q i j h1 h2 h3 h4 h5 h6)⟩

theorem SameRing.kind {s u : State} {r : Nat} (a : SameRing s u r) : get u fld.ringCtrl.KIND r = get s fld.ringCtrl.KIND r := by
  unfold get; rw [a.others _ _ _ (by decide) (by decide) (by decide) (by decide) (by decide) (by decide)]

theorem sameRing_regs {s u : State} (h : u.regs = s.regs) (r : Nat) : SameRing s u r :=
  ⟨rd_congr h _ _ _, fun q i j _ _ _ _ _ _ => rd_congr h q i j⟩

theorem sameRing_raise (ev detail : Nat) (s : State) (r : Nat) (h : get s fld.ringCtrl.KIND r ≠ 2) :
    SameRing s (raise ev detail s) r :=
  ⟨raise_tail ev detail s r h, fun q i j h1 h2 h3 _ _ _ => (eventOnly_raise ev detail s).regs q i j h1 h2 h3⟩

theorem sameRing_put (f : Fld) (v : Nat) (s : State) (i j r : Nat)
    (h : f.reg = .ctxStatus ∨ f.reg = .ctxEvent ∨ f.reg = .ctxCtrl) : SameRing s (put f v s i j) r := by
  refine ⟨rd_wr_reg ?_ _ _ _ _ _ _, fun q k l _ _ _ h3 h4 h5 => rd_wr_reg ?_ _ _ _ _ _ _⟩
  · rcases h with h | h | h <;> rw [h] <;> decide
  · rcases h with h | h | h <;> rw [h] <;> assumption

/-! ## Slots -/

/-- A quota bit judged again touches registers, rings of events, host memory and counters of drops only. -/
theorem quotaBit_sch (c bit : Nat) (live : Bool) (s : State) : (quotaBit c bit live s).sch = s.sch := by
  unfold quotaBit
  simp only
  split
  · rw [(eventOnly_raise _ _ _).frame]; rfl
  · rfl

theorem quotaBit_cnt (c bit : Nat) (live : Bool) (s : State) (k : Nat) (h : k ≠ Cnt.evtDrop.ctorIdx) (hp : k ≠ Cnt.poison.ctorIdx) :
    counter (quotaBit c bit live s) k = counter s k := by
  unfold quotaBit
  simp only
  split
  · rw [(eventOnly_raise _ _ _).cnt k h hp]; rfl
  · rfl

theorem quotaBit_ring (c bit : Nat) (live : Bool) (s : State) (r : Nat) (h : get s fld.ringCtrl.KIND r ≠ 2) :
    SameRing s (quotaBit c bit live s) r := by
  unfold quotaBit
  simp only
  split
  · refine SameRing.trans (SameRing.trans (sameRing_put _ _ _ _ _ _ (.inl rfl)) (sameRing_put _ _ _ _ _ _ (.inr (.inl rfl))))
      (sameRing_raise _ _ _ _ ?_)
    rw [SameRing.kind (SameRing.trans (sameRing_put _ _ _ _ _ _ (.inl rfl)) (sameRing_put _ _ _ _ _ _ (.inr (.inl rfl))))]
    exact h
  · exact sameRing_put _ _ _ _ _ _ (.inl rfl)

theorem refreshCtx_sch (c : Nat) (s : State) : (refreshCtx c s).sch = s.sch := by
  unfold refreshCtx; simp only [quotaBit_sch]

theorem refreshCtx_cnt (c : Nat) (s : State) (k : Nat) (h : k ≠ Cnt.evtDrop.ctorIdx) (hp : k ≠ Cnt.poison.ctorIdx) :
    counter (refreshCtx c s) k = counter s k := by
  unfold refreshCtx; simp only [quotaBit_cnt _ _ _ _ k h hp]

theorem refreshCtx_ring (c : Nat) (s : State) (r : Nat) (h : get s fld.ringCtrl.KIND r ≠ 2) : SameRing s (refreshCtx c s) r := by
  unfold refreshCtx
  simp only
  have a := quotaBit_ring c 0 (slotQuotaHit s c) s r h
  have b := quotaBit_ring c 2 (memQuotaHit (quotaBit c 0 (slotQuotaHit s c) s) c) _ r (by rw [a.kind]; exact h)
  have d := quotaBit_ring c 3 (layerQuotaHit (quotaBit c 2 (memQuotaHit (quotaBit c 0 (slotQuotaHit s c) s) c) (quotaBit c 0 (slotQuotaHit s c) s)) c) _ r
    (by rw [b.kind, a.kind]; exact h)
  exact (a.trans b).trans d

/-- Tasks made READY stay in their slots; nothing else changes. -/
theorem makeReady_frame (t : Task) (s : State) : makeReady t s = { s with sch := { s.sch with tasks := (makeReady t s).sch.tasks } } := rfl

theorem readyAll_frame (ts : List Task) (s : State) :
    forEach ts makeReady s = { s with sch := { s.sch with tasks := (forEach ts makeReady s).sch.tasks } } := by
  unfold forEach
  induction ts generalizing s with
  | nil => rfl
  | cons t ts ih => rw [List.foldl_cons, ih]; rfl

theorem readyAll_none (ts : List Task) (s : State) (q : Nat) (h : ∀ t ∈ ts, t.slot ≠ q) :
    taskAt (forEach ts makeReady s) q = taskAt s q := by
  unfold forEach
  induction ts generalizing s with
  | nil => rfl
  | cons t ts ih =>
    rw [List.foldl_cons, ih _ (fun u hu => h u (List.mem_cons_of_mem _ hu))]
    exact taskAt_setTask_ne _ _ (fun e => h t List.mem_cons_self e.symm)

theorem wakeSpawners_frame (s : State) : wakeSpawners s = { s with sch := { s.sch with tasks := (wakeSpawners s).sch.tasks } } :=
  readyAll_frame _ s

theorem closeCtx_parts (c : Nat) (s : State) : (closeCtx c s).sch.tasks = s.sch.tasks ∧ (closeCtx c s).cnt = s.cnt
    ∧ ∀ r, SameRing s (closeCtx c s) r := by
  unfold closeCtx
  split
  · exact ⟨rfl, rfl, fun r => ⟨rd_wr_reg (by decide) _ _ _ _ _ _, fun q i j _ _ _ _ _ h5 => rd_wr_reg h5 _ _ _ _ _ _⟩⟩
  · exact ⟨rfl, rfl, fun r => SameRing.refl s r⟩

/-- A freed slot holds no task. -/
theorem freeTask_none (t : Task) (s : State) (hf : TasksFit s) : taskAt (freeTask t s) t.slot = none := by
  unfold freeTask
  simp only
  rw [taskAt_congr (closeCtx_parts _ _).1]
  unfold wakeSpawners
  rw [readyAll_none, taskAt_congr (congrArg Sched.tasks (refreshCtx_sch _ _))]
  · unfold taskAt; simp
  · intro u hu
    have hu' := List.mem_of_mem_filter hu
    unfold allTasks at hu'
    rw [refreshCtx_sch] at hu'
    obtain ⟨e, he, rfl⟩ := List.mem_map.mp hu'
    simp only [Map.del, List.mem_filter, decide_eq_true_eq] at he
    rw [(hf.2.1 e he.1).1]
    simpa using he.2

theorem freeTask_cnt (t : Task) (s : State) (k : Nat) (h : k ≠ Cnt.evtDrop.ctorIdx) (hp : k ≠ Cnt.poison.ctorIdx) : counter (freeTask t s) k = counter s k := by
  unfold freeTask
  simp only
  rw [counter_congr (closeCtx_parts _ _).2.1, wakeSpawners_frame]
  show counter (refreshCtx _ _) k = _
  rw [refreshCtx_cnt _ _ _ h hp]; rfl

theorem freeTask_ring (t : Task) (s : State) (r : Nat) (h : get s fld.ringCtrl.KIND r ≠ 2) : SameRing s (freeTask t s) r := by
  unfold freeTask
  simp only
  generalize hu : ({ s with sch := { s.sch with tasks := Map.del s.sch.tasks t.slot, slotFreed := s.sch.slotFreed ++ [t.slot] } } : State) = u
  have hr : u.regs = s.regs := by rw [← hu]
  have h0 : SameRing s u r := sameRing_regs hr r
  have h1 := refreshCtx_ring t.ctx u r (by rw [h0.kind]; exact h)
  have h2 : SameRing (refreshCtx t.ctx u) (wakeSpawners (refreshCtx t.ctx u)) r :=
    sameRing_regs (by rw [wakeSpawners_frame]) r
  exact ((h0.trans h1).trans h2).trans ((closeCtx_parts _ _).2.2 r)

/-! ## Completion -/

theorem get_of_rd {s u : State} {f : Fld} {i j : Nat} (h : rd u f.reg i j = rd s f.reg i j) : get u f i j = get s f i j := by
  unfold get; rw [h]

/-- A record written to a completion ring moves its TAIL by one entry (R283). -/
theorem writeTaskRecord_tail (c : Nat) (ws : List W32) (s : State) (h : get s fld.ringCtrl.KIND (get s fld.ctxCpl.RING c) ≠ 2) :
    get (writeTaskRecord c ws s) fld.ringTail.TAIL (get s fld.ctxCpl.RING c) =
      (get s fld.ringTail.TAIL (get s fld.ctxCpl.RING c) + 1) % ringSize s (get s fld.ctxCpl.RING c) % 65536 := by
  generalize hr : get s fld.ctxCpl.RING c = r at *
  have tl : get (ringAppend r ws s) fld.ringTail.TAIL r = (get s fld.ringTail.TAIL r + 1) % ringSize s r % 65536 := by
    rw [get_congr (ringAppend_regs r ws s), get_put_same _ _ _ _ _ (by decide)]
    rfl
  have key : rd (writeTaskRecord c ws s) .ringTail r 0 = rd (ringAppend r ws s) .ringTail r 0 := by
    have k1 := (eventOnly_ringAppend r ws s).kind r
    unfold writeTaskRecord ringProduce
    rw [hr]
    extract_lets x y
    have up : ∀ u, get u fld.ringCtrl.KIND r ≠ 2 → rd u .ringTail r 0 = rd (ringAppend r ws s) .ringTail r 0 →
        rd (raise 19 c (if parityOf s r = 0 then u else raise0 10 u)) .ringTail r 0 = rd (ringAppend r ws s) .ringTail r 0 := by
      intro u hu h1
      split
      · rw [raise_tail _ _ _ _ hu]; exact h1
      · unfold raise0
        rw [raise_tail _ _ _ _ (by rw [(eventOnly_raise _ _ _).kind]; exact hu), raise_tail _ _ _ _ hu]; exact h1
    have k2 : get (setBit fld.ringStatus.RING_STATUS 0 x r) fld.ringCtrl.KIND r ≠ 2 := by
      rw [(eventOnly_status 0 x r).kind, k1]; exact h
    refine up y ?_ ?_
    · unfold y
      split
      · rw [(eventOnly_raise _ _ _).kind]; exact k2
      · rw [k1]; exact h
    · unfold y
      split
      · rw [raise_tail _ _ _ _ k2, setBit_status_tail]
      · rfl
  rw [get_of_rd (f := fld.ringTail.TAIL) key]; exact tl

theorem writeTaskRecord_events (c : Nat) (ws : List W32) (s : State) : EventOnly s (writeTaskRecord c ws s) :=
  (eventOnly_ringProduce _ _ _).trans (eventOnly_raise _ _ _)

theorem writeTaskRecord_sch (c : Nat) (ws : List W32) (s : State) : (writeTaskRecord c ws s).sch = s.sch := by
  rw [(writeTaskRecord_events c ws s).frame]

theorem ctxCplTakes_kind {s : State} {c : Nat} (h : ctxCplTakes s c = true) :
    get s fld.ringCtrl.KIND (get s fld.ctxCpl.RING c) ≠ 2 := by
  simp only [ctxCplTakes, cplTakes, ringRuns, Bool.and_eq_true, beq_iff_eq] at h
  rw [h.1.1.2]; decide

/-- What leaving does: the record, the slot, the wait (R108, R284). -/
theorem depart_ended (t : Task) (status pstat code : Nat) (info : W32) (record : Bool) (s : State) (hf : TasksFit s)
    (hs : status < 256) (hc : code < 64) (hslot : t.slot < 65536) (hctx : t.ctx < 128) :
    Ended s (depart t (taskRecord t status pstat code info) record s) t record status code info := by
  unfold Ended depart
  split
  · split
    · rename_i h
      refine ⟨freeTask_none _ _ (by unfold TasksFit; rw [writeTaskRecord_sch]; exact hf), ?_⟩
      rw [← writeTaskRecord_tail t.ctx (taskRecord t status pstat code info) s (ctxCplTakes_kind h)]
      have := (freeTask_ring t (writeTaskRecord t.ctx (taskRecord t status pstat code info) s) (get s fld.ctxCpl.RING t.ctx)
        (by rw [(writeTaskRecord_events _ _ _).kind]; exact ctxCplTakes_kind h)).tail
      exact get_of_rd (f := fld.ringTail.TAIL) this
    · refine ⟨_, taskRecord t status pstat code info, taskAt_setTask_same _ _, rfl, rfl, ?_, ?_, rfl⟩
      · simp only [taskRecord, dw, List.getD_cons_zero, bitsOf, BitVec.toNat_ofNat]
        omega
      · simp only [taskRecord, dw, List.getD_cons_succ, List.getD_cons_zero, bitsOf, BitVec.toNat_ofNat]
        omega
  · exact freeTask_none _ _ hf

theorem depart_cnt (t : Task) (ws : List W32) (record : Bool) (s : State) (k : Nat) (h : k ≠ Cnt.evtDrop.ctorIdx) (hp : k ≠ Cnt.poison.ctorIdx) :
    counter (depart t ws record s) k = counter s k := by
  unfold depart
  split
  · split
    · rw [freeTask_cnt _ _ _ h hp, (writeTaskRecord_events _ _ _).cnt k h hp]
    · rfl
  · exact freeTask_cnt _ _ _ h hp

/-- The task on a core stands in the task table. -/
theorem taskOn_mem {s : State} {k : Nat} {t : Task} (h : taskOn s k = some t) : ∃ q, (q, t) ∈ s.sch.tasks := by
  have := List.mem_of_find?_eq_some h
  obtain ⟨e, he, rfl⟩ := List.mem_map.mp this
  exact ⟨e.1, he⟩

theorem taskOn_fit {s : State} {k : Nat} {t : Task} (hf : TasksFit s) (h : taskOn s k = some t) : t.slot < 65536 ∧ t.ctx < 128 := by
  obtain ⟨q, hq⟩ := taskOn_mem h
  obtain ⟨a, b, c⟩ := hf.2.1 _ hq
  exact ⟨by rw [a]; exact b, c⟩

/-- From `s` to `u` events have been raised, and what no register and no task holds may have changed. -/
structure Silent (s u : State) : Prop where
  regs : ∀ q i j, q ≠ .ringTail → q ≠ .ringStatus → q ≠ .hostStatus → rd u q i j = rd s q i j
  tail : ∀ r, get s fld.ringCtrl.KIND r ≠ 2 → rd u .ringTail r 0 = rd s .ringTail r 0
  tasks : u.sch.tasks = s.sch.tasks
  freed : u.sch.slotFreed = s.sch.slotFreed

theorem Silent.refl (s : State) : Silent s s := ⟨fun _ _ _ _ _ _ => rfl, fun _ _ => rfl, rfl, rfl⟩

theorem Silent.fld {s u : State} (a : Silent s u) (f : Fld) (i j : Nat) (h1 : f.reg ≠ .ringTail) (h2 : f.reg ≠ .ringStatus)
    (h3 : f.reg ≠ .hostStatus) : get u f i j = get s f i j := get_of_rd (a.regs _ _ _ h1 h2 h3)

theorem Silent.trans {s u v : State} (a : Silent s u) (b : Silent u v) : Silent s v :=
  ⟨fun q i j h1 h2 h3 => (b.regs q i j h1 h2 h3).trans (a.regs q i j h1 h2 h3),
    fun r h => (b.tail r (by rw [a.fld _ _ _ (by decide) (by decide) (by decide)]; exact h)).trans (a.tail r h),
    b.tasks.trans a.tasks, b.freed.trans a.freed⟩

theorem silent_raise (ev detail : Nat) (s : State) : Silent s (raise ev detail s) :=
  ⟨fun q i j h1 h2 h3 => (eventOnly_raise ev detail s).regs q i j h1 h2 h3, fun r h => raise_tail ev detail s r h,
    by rw [(eventOnly_raise ev detail s).frame], by rw [(eventOnly_raise ev detail s).frame]⟩

theorem silent_of {s u : State} (hr : u.regs = s.regs) (ht : u.sch.tasks = s.sch.tasks) (hf : u.sch.slotFreed = s.sch.slotFreed) :
    Silent s u := ⟨fun q i j _ _ _ => rd_congr hr q i j, fun r _ => rd_congr hr _ _ _, ht, hf⟩

theorem Silent.fit {s u : State} (a : Silent s u) (h : TasksFit s) : TasksFit u := by
  unfold TasksFit; rw [a.tasks, a.freed]; exact h

theorem Silent.takes {s u : State} (a : Silent s u) (c : Nat) : ctxCplTakes u c = ctxCplTakes s c := by
  have g := fun (f : Fld) (i : Nat) (h1 : f.reg ≠ .ringTail) (h2 : f.reg ≠ .ringStatus) (h3 : f.reg ≠ .hostStatus) => a.fld f i 0 h1 h2 h3
  unfold ctxCplTakes ctxOwner
  rw [g _ _ (by decide) (by decide) (by decide), g _ _ (by decide) (by decide) (by decide)]
  generalize get s fld.ctxCpl.RING c = r
  unfold cplTakes ringRuns ringRoom ringOcc ringSize on
  rw [g _ _ (by decide) (by decide) (by decide), g fld.ringCtrl.KIND _ (by decide) (by decide) (by decide),
    g fld.ringCtrl.FN _ (by decide) (by decide) (by decide), g fld.ringCtrl.LOG2SZ _ (by decide) (by decide) (by decide),
    g fld.ringHead.HEAD _ (by decide) (by decide) (by decide)]
  by_cases hk : get s fld.ringCtrl.KIND r = 1
  · have : get u fld.ringTail.TAIL r = get s fld.ringTail.TAIL r := get_of_rd (f := fld.ringTail.TAIL) (a.tail r (by rw [hk]; decide))
    rw [this]
  · have : (get s fld.ringCtrl.KIND r == 1) = false := beq_eq_false_iff_ne.mpr hk
    simp only [this, Bool.and_false, Bool.false_and]

/-- What `Ended` says of the first state is not touched by events. -/
theorem Silent.ended {s u v : State} (a : Silent s u) {t : Task} {record : Bool} {status code : Nat} {info : W32}
    (h : Ended u v t record status code info) : Ended s v t record status code info := by
  have e1 : on u fld.ctxCpl.EN t.ctx = on s fld.ctxCpl.EN t.ctx := by
    unfold on; rw [a.fld _ _ _ (by decide) (by decide) (by decide)]
  have e2 : get u fld.ctxCpl.RING t.ctx = get s fld.ctxCpl.RING t.ctx := a.fld _ _ _ (by decide) (by decide) (by decide)
  have e3 : ringSize u (get s fld.ctxCpl.RING t.ctx) = ringSize s (get s fld.ctxCpl.RING t.ctx) := by
    unfold ringSize; rw [a.fld _ _ _ (by decide) (by decide) (by decide)]
  unfold Ended at h ⊢
  rw [e1, a.takes, e2, e3] at h
  by_cases hc : (record && on s fld.ctxCpl.EN t.ctx) = true
  · rw [if_pos hc] at h ⊢
    by_cases ht : ctxCplTakes s t.ctx = true
    · rw [if_pos ht] at h ⊢
      have e4 : get u fld.ringTail.TAIL (get s fld.ctxCpl.RING t.ctx) = get s fld.ringTail.TAIL (get s fld.ctxCpl.RING t.ctx) :=
        get_of_rd (f := fld.ringTail.TAIL) (a.tail _ (ctxCplTakes_kind ht))
      rw [e4] at h
      exact h
    · rw [if_neg ht] at h ⊢
      exact h
  · rw [if_neg hc] at h ⊢
    exact h

/-- What frame memory's own operations change: its contents, its poisoned words, and the end of its self-refresh (R338). -/
def MemOnly (s u : State) : Prop := u = { s with fmem := u.fmem, fbad := u.fbad, pwr := u.pwr }

theorem MemOnly.refl (s : State) : MemOnly s s := rfl

theorem MemOnly.trans {s u v : State} (a : MemOnly s u) (b : MemOnly u v) : MemOnly s v := by
  unfold MemOnly at *; rw [b, a]

theorem memOnly_forEach {α : Type} (g : α → State → State) (hg : ∀ x u, MemOnly u (g x u)) (xs : List α) (s : State) :
    MemOnly s (forEach xs g s) := by
  unfold forEach
  induction xs generalizing s with
  | nil => exact MemOnly.refl s
  | cons x xs ih => exact (hg x s).trans (ih (g x s))

theorem memOnly_put (a : Nat) (bs : List Byte) (s : State) : MemOnly s (fmemPut a bs s) := rfl

theorem memOnly_zero (a n : Nat) (s : State) : MemOnly s (fmemZero a n s) := rfl

theorem flushStores_frame (t : Task) (s : State) : flushStores t s =
    { s with fmem := (flushStores t s).fmem, fbad := (flushStores t s).fbad, pwr := (flushStores t s).pwr } :=
  memOnly_forEach _ (fun _ _ => memOnly_put _ _ _) _ s

theorem fillFor_frame (t : Task) (s : State) : fillFor t s = { s with vat := (fillFor t s).vat, cnt := (fillFor t s).cnt } := by
  unfold fillFor
  split
  · split
    · rfl
    · split <;> rfl
  · rfl

theorem fillFor_cnt (t : Task) (s : State) (k : Nat) (h : k ≠ Cnt.tileRepeat.ctorIdx) : counter (fillFor t s) k = counter s k := by
  unfold fillFor
  split
  · split
    · rfl
    · split
      · unfold markFill
        rw [counter_bump_ne _ _ _ h]; rfl
      · unfold markLater
        rw [counter_bump_ne _ _ _ h]; rfl
  · rfl

theorem keepDone_frame (t : Task) (s : State) :
    keepDone t s = { s with sch := { s.sch with doneTasks := (keepDone t s).sch.doneTasks } } := by
  unfold keepDone
  split
  · split <;> rfl
  · rfl

/-- A terminating exception: TASK_FAULT counts, the event goes out, and the task leaves with its code (R55). -/
theorem terminate_ended (t : Task) (code : Nat) (info : W32) (s : State) (hf : TasksFit s) (hc : code < 64)
    (hslot : t.slot < 65536) (hctx : t.ctx < 128) :
    counter (terminate t code info s) Cnt.taskFault.ctorIdx = counter s Cnt.taskFault.ctorIdx + 1 ∧
      Ended s (terminate t code info s) t true (if code = 0x0B then 2 else 1) code info := by
  have hst : (if code = 0x0B then 2 else 1 : Nat) ≠ 0 := by split <;> decide
  generalize hstat : (if code = 0x0B then 2 else 1 : Nat) = status at hst
  have hs2 : status < 256 := by rw [← hstat]; split <;> decide
  generalize hu1 : raise 20 t.ctx (bump .taskFault s) = u1
  generalize hu : keepDone t (fillFor t (flushStores t u1)) = u
  have ht : terminate t code info s = depart t (taskRecord t status 0 code info) true u := by
    unfold terminate finish
    simp only [hstat, hu1, hu, if_neg hst]
    rw [show (dCpl t.desc || status != 0) = true by simp [hst]]
  have a1 : Silent s u1 := by
    rw [← hu1]
    exact (silent_of (s := s) (u := bump .taskFault s) rfl rfl rfl).trans (silent_raise _ _ _)
  have a2 : Silent u1 u := by
    rw [← hu, keepDone_frame, fillFor_frame, flushStores_frame]
    exact silent_of rfl rfl rfl
  have cu : counter u Cnt.taskFault.ctorIdx = counter s Cnt.taskFault.ctorIdx + 1 := by
    rw [← hu, keepDone_frame]
    show counter (fillFor _ _) _ = _
    rw [fillFor_cnt _ _ _ (by decide), flushStores_frame]
    show counter u1 _ = _
    rw [← hu1, (eventOnly_raise _ _ _).cnt _ (by decide) (by decide)]
    exact counter_bump_same _ _
  rw [ht]
  refine ⟨?_, (a1.trans a2).ended (depart_ended t status 0 code info true u ((a1.trans a2).fit hf) hs2 hc hslot hctx)⟩
  rw [depart_cnt _ _ _ _ _ (by decide) (by decide), cu]

end Sys2Proof.Machine
end

