-- ==== Sys2Proof/Laws/Calm.lean ====
section
/-!
SUPPORT. Operations that leave the rings of other kinds than EVT, what waits for a completion ring, and the input log as
they were.
-/

namespace Sys2Proof.Machine

/-- From `s` to `t` no ring but those of events has moved, nothing has begun to wait for a completion ring, and the
allocations, layers and fences are as before. -/
structure RingCalm (s t : State) : Prop where
  ctrl : ∀ i j, rd t .ringCtrl i j = rd s .ringCtrl i j
  head : ∀ i j, rd t .ringHead i j = rd s .ringHead i j
  tail : ∀ r, get s fld.ringCtrl.KIND r ≠ 2 → rd t .ringTail r 0 = rd s .ringTail r 0
  host : t.hst = { s.hst with evSeq := t.hst.evSeq, msix := t.hst.msix, msixPend := t.hst.msixPend, parity := t.hst.parity }

/-- The input log is as before. -/
structure LogCalm (s t : State) : Prop where
  inputs : t.vat.inputs = s.vat.inputs
  versions : t.vat.versions = s.vat.versions
  waiting : t.vat.waiting = s.vat.waiting

/-- Both. -/
structure Calm (s t : State) : Prop where
  ring : RingCalm s t
  log : LogCalm s t

theorem RingCalm.refl (s : State) : RingCalm s s := ⟨fun _ _ => rfl, fun _ _ => rfl, fun _ _ => rfl, rfl⟩

theorem RingCalm.kind {s t : State} (h : RingCalm s t) (r : Nat) : get t fld.ringCtrl.KIND r = get s fld.ringCtrl.KIND r :=
  get_of_rd (h.ctrl _ _)

theorem RingCalm.trans {s t u : State} (a : RingCalm s t) (b : RingCalm t u) : RingCalm s u := by
  refine ⟨fun i j => (b.ctrl i j).trans (a.ctrl i j), fun i j => (b.head i j).trans (a.head i j),
    fun r h => (b.tail r (by rw [a.kind]; exact h)).trans (a.tail r h), ?_⟩
  rw [b.host, a.host]

theorem LogCalm.refl (s : State) : LogCalm s s := ⟨rfl, rfl, rfl⟩

theorem LogCalm.trans {s t u : State} (a : LogCalm s t) (b : LogCalm t u) : LogCalm s u :=
  ⟨b.inputs.trans a.inputs, b.versions.trans a.versions, b.waiting.trans a.waiting⟩

theorem Calm.refl (s : State) : Calm s s := ⟨RingCalm.refl s, LogCalm.refl s⟩

theorem Calm.trans {s t u : State} (a : Calm s t) (b : Calm t u) : Calm s u := ⟨a.ring.trans b.ring, a.log.trans b.log⟩

theorem Calm.ite {s a b : State} {c : Prop} {_ : Decidable c} (ha : Calm s a) (hb : Calm s b) : Calm s (if c then a else b) := by
  split
  · exact ha
  · exact hb

theorem Calm.forEach {s x : State} {α : Type} {xs : List α} {f : α → State → State} (h : Calm s x)
    (hf : ∀ a y, Calm s y → Calm s (f a y)) : Calm s (forEach xs f x) := by
  show Calm s (xs.foldl (fun t x => f x t) x)
  induction xs generalizing x with
  | nil => exact h
  | cons a xs ih => exact ih (hf a x h)

theorem Calm.same {s x y : State} (h : Calm s x) (hr : y.regs = x.regs) (hh : y.hst = x.hst)
    (hv : y.vat.inputs = x.vat.inputs ∧ y.vat.versions = x.vat.versions ∧ y.vat.waiting = x.vat.waiting) : Calm s y := by
  refine h.trans ⟨⟨fun i j => rd_congr hr _ _ _, fun i j => rd_congr hr _ _ _, fun _ _ => rd_congr hr _ _ _, ?_⟩, ⟨hv.1, hv.2.1, hv.2.2⟩⟩
  rw [hh]

theorem calm_wr {s x : State} (r : RegId) (v : W32) (i j : Nat) (h1 : r ≠ .ringCtrl) (h2 : r ≠ .ringHead) (h3 : r ≠ .ringTail)
    (h : Calm s x) : Calm s (wr r v x i j) :=
  h.trans ⟨⟨fun _ _ => rd_wr_reg h1.symm _ _ _ _ _ _, fun _ _ => rd_wr_reg h2.symm _ _ _ _ _ _,
    fun _ _ => rd_wr_reg h3.symm _ _ _ _ _ _, rfl⟩, ⟨rfl, rfl, rfl⟩⟩

theorem calm_put {s x : State} (f : Fld) (v : Nat) (i j : Nat) (h1 : f.reg ≠ .ringCtrl) (h2 : f.reg ≠ .ringHead)
    (h3 : f.reg ≠ .ringTail) (h : Calm s x) : Calm s (put f v x i j) := calm_wr _ _ _ _ h1 h2 h3 h

theorem calm_raise {s x : State} (ev detail : Nat) (h : Calm s x) : Calm s (raise ev detail x) := by
  have e := eventOnly_raise ev detail x
  refine h.trans ⟨⟨fun i j => e.regs _ _ _ (by decide) (by decide) (by decide), fun i j => e.regs _ _ _ (by decide) (by decide) (by decide),
    fun r hr => raise_tail ev detail x r hr, ?_⟩, ?_⟩
  · rw [e.frame]
  · rw [e.frame]; exact ⟨rfl, rfl, rfl⟩

theorem calm_raise0 {s x : State} (ev : Nat) (h : Calm s x) : Calm s (raise0 ev x) := calm_raise _ _ h

theorem calm_bump {s x : State} (c : Cnt) (h : Calm s x) : Calm s (bump c x) := h.same rfl rfl ⟨rfl, rfl, rfl⟩
theorem calm_count {s x : State} (c n : Nat) (h : Calm s x) : Calm s (count c n x) := h.same rfl rfl ⟨rfl, rfl, rfl⟩
theorem calm_draw {s x : State} (h : Calm s x) : Calm s (draw x) := h.same rfl rfl ⟨rfl, rfl, rfl⟩
theorem calm_setTask {s x : State} (t : Task) (h : Calm s x) : Calm s (setTask t x) := h.same rfl rfl ⟨rfl, rfl, rfl⟩
theorem calm_makeReady {s x : State} (t : Task) (h : Calm s x) : Calm s (makeReady t x) := h.same rfl rfl ⟨rfl, rfl, rfl⟩
theorem calm_setCanvas {s x : State} (c : Nat) (v : Canvas) (h : Calm s x) : Calm s (setCanvas c v x) :=
  h.same rfl rfl ⟨rfl, rfl, rfl⟩
theorem calm_takeSlot {s x : State} (h : Calm s x) : Calm s (takeSlot x) := by
  unfold takeSlot; split <;> exact h.same rfl rfl ⟨rfl, rfl, rfl⟩

theorem calm_quotaBit {s x : State} (c bit : Nat) (live : Bool) (h : Calm s x) : Calm s (quotaBit c bit live x) := by
  unfold quotaBit setBit
  simp only
  split
  · exact calm_raise _ _ (calm_put _ _ _ _ (by decide) (by decide) (by decide) (calm_put _ _ _ _ (by decide) (by decide) (by decide) h))
  · exact calm_put _ _ _ _ (by decide) (by decide) (by decide) h

theorem calm_refreshCtx {s x : State} (c : Nat) (h : Calm s x) : Calm s (refreshCtx c x) := by
  unfold refreshCtx
  exact calm_quotaBit _ _ _ (calm_quotaBit _ _ _ (calm_quotaBit _ _ _ h))

theorem calm_createTask {s x : State} (d : List W32) (c : Nat) (epoch : Option W32) (pg : ProgSnap) (tmpl parent : Option Nat)
    (slot : Nat) (h : Calm s x) : Calm s (createTask d c epoch pg tmpl parent slot x) := by
  have h0 : Calm s (takeSlot { x with sch := { x.sch with nextId := x.sch.nextId + 1 } }) :=
    calm_takeSlot (h.same rfl rfl ⟨rfl, rfl, rfl⟩)
  unfold createTask
  dsimp only
  refine calm_refreshCtx _ (Calm.ite (calm_raise0 _ ?_) ?_) <;> exact Calm.ite (calm_makeReady _ h0) (calm_setTask _ h0)

theorem calm_tmplErr {s x : State} (n : Nat) (h : Calm s x) : Calm s (tmplErr n x) :=
  calm_raise0 _ (calm_put _ _ _ _ (by decide) (by decide) (by decide) h)

theorem calm_dropRelease {s x : State} (n c : Nat) (h : Calm s x) : Calm s (dropRelease n c x) :=
  calm_raise _ _ (calm_wr _ _ _ _ (by decide) (by decide) (by decide) h)

theorem calm_countRelease {s x : State} (n : Nat) (h : Calm s x) : Calm s (countRelease n x) :=
  calm_wr _ _ _ _ (by decide) (by decide) (by decide) h

theorem calm_releaseOne {s x : State} (n : Nat) (d : List W32) (pg : Option ProgSnap) (kind : Nat) (inh : Option (Nat × W32))
    (h : Calm s x) : Calm s (releaseOne n d pg kind inh x) := by
  unfold releaseOne
  dsimp only
  refine Calm.ite h (Calm.ite (calm_tmplErr _ h) ?_)
  split
  · exact Calm.ite (calm_dropRelease _ _ (calm_countRelease _ h)) (calm_createTask _ _ _ _ _ _ _ (calm_countRelease _ h))
  · exact calm_dropRelease _ _ (calm_countRelease _ h)

theorem calm_releaseTmpl {s x : State} (n : Nat) (sn : TmplSnap) (c : Nat) (e : W32) (h : Calm s x) : Calm s (releaseTmpl n sn c e x) := by
  unfold releaseTmpl
  dsimp only
  refine Calm.ite (calm_releaseOne _ _ _ _ _ h) (Calm.ite h (Calm.ite (calm_tmplErr _ h) ?_))
  exact Calm.same (calm_countRelease n h) rfl rfl ⟨rfl, rfl, rfl⟩

theorem calm_releaseTmpls {s x : State} (c : Nat) (e : W32) (h : Calm s x) : Calm s (releaseTmpls c e x) :=
  Calm.forEach h (fun _ _ k => calm_releaseTmpl _ _ _ _ k)

theorem calm_wakeWaiting {s x : State} (p : Task → Bool) (h : Calm s x) : Calm s (wakeWaiting p x) :=
  Calm.forEach h (fun _ _ k => calm_makeReady _ k)

theorem calm_beginTrans {s x : State} (t : Nat) (a : Bool) (h : Calm s x) : Calm s (beginTrans t a x) := by
  unfold beginTrans
  exact Calm.ite h (calm_put _ _ _ _ (by decide) (by decide) (by decide) (h.same rfl rfl ⟨rfl, rfl, rfl⟩))

theorem calm_holdEnds {s x : State} (h : Calm s x) : Calm s (holdEnds x) := by
  unfold holdEnds
  exact Calm.ite (calm_beginTrans _ _ h) h

theorem calm_endRest {s x : State} (c : Nat) (h : Calm s x) : Calm s (endRest c x) := by
  unfold endRest
  refine Calm.ite (Calm.forEach (calm_raise _ _ (calm_holdEnds (calm_put _ _ _ _ (by decide) (by decide) (by decide)
    (calm_setCanvas _ _ h)))) (fun _ _ k => calm_releaseTmpls _ _ k)) h

theorem calm_noteLate {s x : State} (c : Nat) (h : Calm s x) : Calm s (noteLate c x) :=
  calm_raise _ _ (calm_put _ _ _ _ (by decide) (by decide) (by decide) (calm_count _ _ h))

theorem calm_flushStaged {s x : State} (keep : Nat → Bool) (t : Task) (h : Calm s x) : Calm s (flushStaged keep t x) := by
  unfold flushStaged
  split
  · split
    · dsimp only
      refine Calm.ite h (Calm.forEach h (fun _ _ k => Calm.ite (k.same rfl rfl ⟨rfl, rfl, rfl⟩) k))
    · exact h
  · exact h

theorem calm_leakStaged {s x : State} (t : Task) (h : Calm s x) : Calm s (leakStaged t x) := by
  unfold leakStaged
  exact Calm.ite h (calm_draw (calm_flushStaged _ _ h))

theorem calm_closeCtx {s x : State} (c : Nat) (h : Calm s x) : Calm s (closeCtx c x) := by
  unfold closeCtx
  exact Calm.ite (calm_put _ _ _ _ (by decide) (by decide) (by decide) (h.same rfl rfl ⟨rfl, rfl, rfl⟩)) h

theorem calm_freeTask {s x : State} (t : Task) (h : Calm s x) : Calm s (freeTask t x) := by
  unfold freeTask wakeSpawners
  exact calm_closeCtx _ (Calm.forEach (calm_refreshCtx _ (h.same rfl rfl ⟨rfl, rfl, rfl⟩)) (fun _ _ k => calm_makeReady _ k))

theorem calm_discardKids {s : State} (n p : Nat) {x : State} (h : Calm s x) : Calm s (discardKids n p x) := by
  induction n generalizing p x with
  | zero => exact h
  | succ n ih =>
    unfold discardKids
    refine Calm.forEach (Calm.forEach ?_ (fun t u k => ih _ (calm_freeTask _ (calm_leakStaged _ k)))) (fun _ _ k => ih _ k)
    exact h.same rfl rfl ⟨rfl, rfl, rfl⟩

theorem calm_squash {s x : State} (t : Task) (h : Calm s x) : Calm s (squash t x) :=
  calm_makeReady _ (calm_bump _ (calm_discardKids _ _ (calm_leakStaged _ h)))

theorem calm_recreate {s x : State} (d : DoneTask) (h : Calm s x) : Calm s (recreate d x) :=
  calm_bump _ (Calm.same (calm_discardKids _ d.id h) rfl rfl ⟨rfl, rfl, rfl⟩)

theorem calm_invalidate {s x : State} (k : InKey) (c : Nat) (e : W32) (h : Calm s x) : Calm s (invalidate k c e x) := by
  unfold invalidate
  refine Calm.forEach (Calm.forEach h (fun t u hu => ?_)) (fun d u hu => Calm.ite (calm_recreate _ hu) hu)
  split
  · exact Calm.ite (calm_squash _ hu) hu
  · exact hu

theorem calm_changeOn {s y : State} (x : Change) (c : Nat) (late : Bool) (h : Calm s y) : Calm s (changeOn x c late y) := by
  unfold changeOn
  split
  · exact h
  · dsimp only
    have h1 : Calm s (if late = true then noteLate c y else y) := Calm.ite (calm_noteLate _ h) h
    have h2 := fun v => calm_setCanvas c v h1
    refine Calm.ite (Calm.ite (calm_endRest _ (h2 _)) (h2 _)) (calm_invalidate _ _ _ (Calm.ite (calm_endRest _ (h2 _)) (h2 _)))

theorem calm_releaseOnInput {s y : State} (x : Change) (h : Calm s y) : Calm s (releaseOnInput x y) :=
  Calm.forEach h (fun _ _ k => Calm.ite k (calm_releaseOne _ _ _ _ _ k))

end Sys2Proof.Machine
end

