-- ==== Sys2Proof/Laws/FootprintVat.lean ====
section
/-!
SUPPORT. Footprints of the input log, of access to registers, of egress, of Glaze and of the senders.
-/

set_option linter.unreachableTactic false
set_option linter.unusedTactic false

namespace Sys2Proof.Machine

/-! ## InputLog -/

theorem within_releaseTmpl {μ : Nat} {σ x : State} (n : ℕ) (sn : TmplSnap) (c : ℕ) (e : W32)  (hμ : Nat.land 4408058197511367763232753050610139619639136142104519986007419848729516916639219892469198609259736506114796393952254645967086956544318049908149101582204027291648 μ = 4408058197511367763232753050610139619639136142104519986007419848729516916639219892469198609259736506114796393952254645967086956544318049908149101582204027291648) (hw : Within μ σ x) :
    Within μ σ (releaseTmpl n sn c e x) := by
  unfold releaseTmpl
  repeat' first
    | with_reducible assumption
    | with_reducible apply Within.refl
    | with_reducible apply Eq.refl
    | ((with_reducible apply fun k => sub_trans k hμ); exact rfl)
    | ((with_reducible apply sub_set hμ); exact rfl)
    | ((with_reducible apply Or.inl); with_reducible apply Eq.refl)
    | ((with_reducible apply Or.inr); (with_reducible apply sub_set hμ); exact rfl)
    | intro _
    | with_reducible apply Within.ite
    | with_reducible apply within_releaseOne
    | with_reducible apply within_tmplErr
    | with_reducible apply within_countRelease
    | with_reducible apply Within.foldl
    | (extract_lets +onlyGivenNames a; first | (refine Within.cutAny (μ := μ) (σ := σ) (a := a) ?_ ?_; all_goals (first | (intro ha; clear_value a) | (unfold a; clear a))) | skip)
    | split
    | (with_reducible apply Within.upd)

theorem within_releaseTmpls {μ : Nat} {σ x : State} (c : ℕ) (e : W32)  (hμ : Nat.land 4408058197511367763232753050610139619639136142104519986007419848729516916639219892469198609259736506114796393952254645967086956544318049908149101582204027291648 μ = 4408058197511367763232753050610139619639136142104519986007419848729516916639219892469198609259736506114796393952254645967086956544318049908149101582204027291648) (hw : Within μ σ x) :
    Within μ σ (releaseTmpls c e x) := by
  unfold releaseTmpls
  repeat' first
    | with_reducible assumption
    | with_reducible apply Within.refl
    | with_reducible apply Eq.refl
    | ((with_reducible apply fun k => sub_trans k hμ); exact rfl)
    | ((with_reducible apply sub_set hμ); exact rfl)
    | intro _
    | with_reducible apply Within.ite
    | with_reducible apply within_releaseTmpl
    | with_reducible apply Within.forEach
    | with_reducible apply Within.foldl
    | (extract_lets +onlyGivenNames a; first | (refine Within.cutAny (μ := μ) (σ := σ) (a := a) ?_ ?_; all_goals (first | (intro ha; clear_value a) | (unfold a; clear a))) | skip)
    | split

theorem within_pruneLog {μ : Nat} {σ x : State}   (hμ : Nat.land 1757388200993436087035366604564836663620975436836686184804982645551499054949799949343375268009332366074187855716219099657503228927927460816018951242525454630912 μ = 1757388200993436087035366604564836663620975436836686184804982645551499054949799949343375268009332366074187855716219099657503228927927460816018951242525454630912) (hw : Within μ σ x) :
    Within μ σ (pruneLog x) := by
  unfold pruneLog
  repeat' first
    | with_reducible assumption
    | with_reducible apply Within.refl
    | with_reducible apply Eq.refl
    | ((with_reducible apply fun k => sub_trans k hμ); exact rfl)
    | ((with_reducible apply sub_set hμ); exact rfl)
    | ((with_reducible apply Or.inl); with_reducible apply Eq.refl)
    | ((with_reducible apply Or.inr); (with_reducible apply sub_set hμ); exact rfl)
    | intro _
    | with_reducible apply Within.ite
    | with_reducible apply Within.foldl
    | (extract_lets +onlyGivenNames a; first | (refine Within.cutAny (μ := μ) (σ := σ) (a := a) ?_ ?_; all_goals (first | (intro ha; clear_value a) | (unfold a; clear a))) | skip)
    | split
    | (with_reducible apply Within.upd)

theorem within_placeLog {μ : Nat} {σ x : State} (c : ℕ) (first : W32)  (hμ : Nat.land 1757388200993436087035366604564836663620975436836686184804982645551499054949799949343375268009332366074187855716219099657503228927927460816018951242525454630912 μ = 1757388200993436087035366604564836663620975436836686184804982645551499054949799949343375268009332366074187855716219099657503228927927460816018951242525454630912) (hw : Within μ σ x) :
    Within μ σ (placeLog c first x) := by
  unfold placeLog
  repeat' first
    | with_reducible assumption
    | with_reducible apply Within.refl
    | with_reducible apply Eq.refl
    | ((with_reducible apply fun k => sub_trans k hμ); exact rfl)
    | ((with_reducible apply sub_set hμ); exact rfl)
    | ((with_reducible apply Or.inl); with_reducible apply Eq.refl)
    | ((with_reducible apply Or.inr); (with_reducible apply sub_set hμ); exact rfl)
    | intro _
    | with_reducible apply Within.ite
    | with_reducible apply Within.foldl
    | (extract_lets +onlyGivenNames a; first | (refine Within.cutAny (μ := μ) (σ := σ) (a := a) ?_ ?_; all_goals (first | (intro ha; clear_value a) | (unfold a; clear a))) | skip)
    | split
    | (with_reducible apply Within.upd)

theorem within_noteLate {μ : Nat} {σ x : State} (c : ℕ)  (hμ : Nat.land 3529364097014649719715069748327721287828648423686176893604928525953767389164319917797510975255070323077702466094145096138335342080354319651255349746998179809280 μ = 3529364097014649719715069748327721287828648423686176893604928525953767389164319917797510975255070323077702466094145096138335342080354319651255349746998179809280) (hw : Within μ σ x) :
    Within μ σ (noteLate c x) := by
  unfold noteLate
  repeat' first
    | with_reducible assumption
    | with_reducible apply Within.refl
    | with_reducible apply Eq.refl
    | ((with_reducible apply fun k => sub_trans k hμ); exact rfl)
    | ((with_reducible apply sub_set hμ); exact rfl)
    | intro _
    | with_reducible apply Within.ite
    | with_reducible apply within_raise
    | with_reducible apply within_setBit
    | with_reducible apply within_count
    | with_reducible apply Within.foldl
    | (extract_lets +onlyGivenNames a; first | (refine Within.cutAny (μ := μ) (σ := σ) (a := a) ?_ ?_; all_goals (first | (intro ha; clear_value a) | (unfold a; clear a))) | skip)
    | split

theorem within_endRest {μ : Nat} {σ x : State} (c : ℕ)  (hμ : Nat.land 231111136125664622990795045039474069226744967494037037825850181124872895005163413357764611716157741286453688947939519987622035143214754246488067918806304583337984 μ = 231111136125664622990795045039474069226744967494037037825850181124872895005163413357764611716157741286453688947939519987622035143214754246488067918806304583337984) (hw : Within μ σ x) :
    Within μ σ (endRest c x) := by
  unfold endRest
  repeat' first
    | with_reducible assumption
    | with_reducible apply Within.refl
    | with_reducible apply Eq.refl
    | ((with_reducible apply fun k => sub_trans k hμ); exact rfl)
    | ((with_reducible apply sub_set hμ); exact rfl)
    | intro _
    | with_reducible apply Within.ite
    | with_reducible apply within_raise
    | with_reducible apply within_holdEnds
    | with_reducible apply within_put
    | with_reducible apply within_setCanvas
    | with_reducible apply within_releaseTmpls
    | with_reducible apply Within.forEach
    | with_reducible apply Within.foldl
    | (extract_lets +onlyGivenNames a; first | (refine Within.cutAny (μ := μ) (σ := σ) (a := a) ?_ ?_; all_goals (first | (intro ha; clear_value a) | (unfold a; clear a))) | skip)
    | split

theorem within_invalidate {μ : Nat} {σ x : State} (k : InKey) (c : ℕ) (e : W32)  (hμ : Nat.land 1129143398446586453960776561020954682141972940111615462751392462912270985071222645275375446298621708581956856728707586280599292299913658312697230360034926600931328 μ = 1129143398446586453960776561020954682141972940111615462751392462912270985071222645275375446298621708581956856728707586280599292299913658312697230360034926600931328) (hw : Within μ σ x) :
    Within μ σ (invalidate k c e x) := by
  unfold invalidate
  repeat' first
    | with_reducible assumption
    | with_reducible apply Within.refl
    | with_reducible apply Eq.refl
    | ((with_reducible apply fun k => sub_trans k hμ); exact rfl)
    | ((with_reducible apply sub_set hμ); exact rfl)
    | (intro hs; have q := fits_filter ‹_ ∈ List.filter _ _› ‹_› hs; exact q)
    | (intro hs; have q := fits_at ‹taskAt _ _ = some _› ‹_› hs; exact q)
    | (intro hs; have q := fits_on ‹taskOn _ _ = some _› ‹_› hs; exact q)
    | (intro hs; have q := fits_all ‹_ ∈ allTasks _› ‹_› hs; exact q)
    | (intro hs; have q := fits_all (List.mem_of_find?_eq_some ‹List.find? _ _ = some _›) ‹_› hs; exact q)
    | intro _
    | with_reducible apply Within.ite
    | with_reducible apply within_squash
    | with_reducible apply within_recreate
    | with_reducible apply Within.forEachMem
    | with_reducible apply Within.foldl
    | (extract_lets +onlyGivenNames a; first | (refine Within.cutAny (μ := μ) (σ := σ) (a := a) ?_ ?_; all_goals (first | (intro ha; clear_value a) | (unfold a; clear a))) | skip)
    | split

theorem within_changeOn {μ : Nat} {σ z : State} (x : Change) (c : ℕ) (late : Bool)  (hμ : Nat.land 1130900786647579890047811927625519518805593915548452148936197445557822484126172445224718825100325170504799703751018806866093827183809379524977839149326772308297728 μ = 1130900786647579890047811927625519518805593915548452148936197445557822484126172445224718825100325170504799703751018806866093827183809379524977839149326772308297728) (hw : Within μ σ z) :
    Within μ σ (changeOn x c late z) := by
  unfold changeOn
  repeat' first
    | with_reducible assumption
    | with_reducible apply Within.refl
    | with_reducible apply Eq.refl
    | ((with_reducible apply fun k => sub_trans k hμ); exact rfl)
    | ((with_reducible apply sub_set hμ); exact rfl)
    | intro _
    | with_reducible apply Within.ite
    | with_reducible apply within_noteLate
    | with_reducible apply within_setCanvas
    | with_reducible apply within_endRest
    | with_reducible apply within_invalidate
    | with_reducible apply Within.foldl
    | (extract_lets +onlyGivenNames a; first | (refine Within.cutAny (μ := μ) (σ := σ) (a := a) ?_ ?_; all_goals (first | (intro ha; clear_value a) | (unfold a; clear a))) | skip)
    | split

theorem within_wakeWaiting {μ : Nat} {σ x : State} (p : Machine.Task → Bool)  (hμ : Nat.land 878694100496718043517683302282418331810487718418343092402491322775749527474899974671687634004666183037093927858109549828751614463963730408009475621262727315456 μ = 878694100496718043517683302282418331810487718418343092402491322775749527474899974671687634004666183037093927858109549828751614463963730408009475621262727315456) (hw : Within μ σ x) :
    Within μ σ (wakeWaiting p x) := by
  unfold wakeWaiting
  repeat' first
    | with_reducible assumption
    | with_reducible apply Within.refl
    | with_reducible apply Eq.refl
    | ((with_reducible apply fun k => sub_trans k hμ); exact rfl)
    | ((with_reducible apply sub_set hμ); exact rfl)
    | (intro hs; have q := fits_filter ‹_ ∈ List.filter _ _› ‹_› hs; exact q)
    | (intro hs; have q := fits_at ‹taskAt _ _ = some _› ‹_› hs; exact q)
    | (intro hs; have q := fits_on ‹taskOn _ _ = some _› ‹_› hs; exact q)
    | (intro hs; have q := fits_all ‹_ ∈ allTasks _› ‹_› hs; exact q)
    | (intro hs; have q := fits_all (List.mem_of_find?_eq_some ‹List.find? _ _ = some _›) ‹_› hs; exact q)
    | intro _
    | with_reducible apply Within.ite
    | with_reducible apply within_makeReady
    | with_reducible apply Within.forEachMem
    | with_reducible apply Within.foldl
    | (extract_lets +onlyGivenNames a; first | (refine Within.cutAny (μ := μ) (σ := σ) (a := a) ?_ ?_; all_goals (first | (intro ha; clear_value a) | (unfold a; clear a))) | skip)
    | split

theorem within_releaseOnInput {μ : Nat} {σ z : State} (x : Change)  (hμ : Nat.land 4408058197511367763232753050610139619639136142104519986007419848729516916639219892469198609259736506114796393952254645967086956544318049908149101582204027291648 μ = 4408058197511367763232753050610139619639136142104519986007419848729516916639219892469198609259736506114796393952254645967086956544318049908149101582204027291648) (hw : Within μ σ z) :
    Within μ σ (releaseOnInput x z) := by
  unfold releaseOnInput
  repeat' first
    | with_reducible assumption
    | with_reducible apply Within.refl
    | with_reducible apply Eq.refl
    | ((with_reducible apply fun k => sub_trans k hμ); exact rfl)
    | ((with_reducible apply sub_set hμ); exact rfl)
    | intro _
    | with_reducible apply Within.ite
    | with_reducible apply within_releaseOne
    | with_reducible apply Within.forEach
    | with_reducible apply Within.foldl
    | (extract_lets +onlyGivenNames a; first | (refine Within.cutAny (μ := μ) (σ := σ) (a := a) ?_ ?_; all_goals (first | (intro ha; clear_value a) | (unfold a; clear a))) | skip)
    | split

theorem within_journalChange {μ : Nat} {σ x : State} (k : InKey) (value : W32) (g : ATarget)  (hμ : Nat.land 112473702963287425896477835429749431645894586636960433740695063623228337709685121464982532476003227283962676821594324244325974017861411942890882728856427597660160 μ = 112473702963287425896477835429749431645894586636960433740695063623228337709685121464982532476003227283962676821594324244325974017861411942890882728856427597660160) (hw : Within μ σ x) :
    Within μ σ (journalChange k value g x) := by
  unfold journalChange
  repeat' first
    | with_reducible assumption
    | with_reducible apply Within.refl
    | with_reducible apply Eq.refl
    | ((with_reducible apply fun k => sub_trans k hμ); exact rfl)
    | ((with_reducible apply sub_set hμ); exact rfl)
    | intro _
    | with_reducible apply Within.ite
    | with_reducible apply within_journal
    | with_reducible apply Within.foldl
    | (extract_lets +onlyGivenNames a; first | (refine Within.cutAny (μ := μ) (σ := σ) (a := a) ?_ ?_; all_goals (first | (intro ha; clear_value a) | (unfold a; clear a))) | skip)
    | split

theorem within_setVersion {μ : Nat} {σ x : State} (k : InKey) (v : W32)  (hμ : Nat.land 1757388200993436087035366604564836663620975436836686184804982645551499054949799949343375268009332366074187855716219099657503228927927460816018951242525454630912 μ = 1757388200993436087035366604564836663620975436836686184804982645551499054949799949343375268009332366074187855716219099657503228927927460816018951242525454630912) (hw : Within μ σ x) :
    Within μ σ (setVersion k v x) := by
  unfold setVersion
  repeat' first
    | with_reducible assumption
    | with_reducible apply Within.refl
    | with_reducible apply Eq.refl
    | ((with_reducible apply fun k => sub_trans k hμ); exact rfl)
    | ((with_reducible apply sub_set hμ); exact rfl)
    | ((with_reducible apply Or.inl); with_reducible apply Eq.refl)
    | ((with_reducible apply Or.inr); (with_reducible apply sub_set hμ); exact rfl)
    | intro _
    | with_reducible apply Within.ite
    | with_reducible apply Within.foldl
    | (extract_lets +onlyGivenNames a; first | (refine Within.cutAny (μ := μ) (σ := σ) (a := a) ?_ ?_; all_goals (first | (intro ha; clear_value a) | (unfold a; clear a))) | skip)
    | split
    | (with_reducible apply Within.upd)

theorem within_discardChange {μ : Nat} {σ x : State}   (hμ : Nat.land 5286752298008085806750436352892557951449623860522863078409911171505266444114119867140886243264402689151890321810364195795838571008281780316158573537694987601920 μ = 5286752298008085806750436352892557951449623860522863078409911171505266444114119867140886243264402689151890321810364195795838571008281780316158573537694987601920) (hw : Within μ σ x) :
    Within μ σ (discardChange x) := by
  unfold discardChange
  repeat' first
    | with_reducible assumption
    | with_reducible apply Within.refl
    | with_reducible apply Eq.refl
    | ((with_reducible apply fun k => sub_trans k hμ); exact rfl)
    | ((with_reducible apply sub_set hμ); exact rfl)
    | ((with_reducible apply Or.inl); with_reducible apply Eq.refl)
    | ((with_reducible apply Or.inr); (with_reducible apply sub_set hμ); exact rfl)
    | intro _
    | with_reducible apply Within.ite
    | with_reducible apply within_raise0
    | with_reducible apply within_setBit
    | with_reducible apply within_bump
    | with_reducible apply Within.foldl
    | (extract_lets +onlyGivenNames a; first | (refine Within.cutAny (μ := μ) (σ := σ) (a := a) ?_ ?_; all_goals (first | (intro ha; clear_value a) | (unfold a; clear a))) | skip)
    | split
    | (with_reducible apply Within.upd)

theorem within_takeChange {μ : Nat} {σ x : State} (k : Sys2Proof.Machine.InKey) (value : Sys2Proof.W32) (buf : Sys2Proof.W32) (g : Sys2Proof.Machine.ATarget)  (hμ : Nat.land 1130900786647579890047811927625519518805593915548452148936197445557822484126172445224718825100325170504799703751018806866093827183809379621691904718497106285053952 μ = 1130900786647579890047811927625519518805593915548452148936197445557822484126172445224718825100325170504799703751018806866093827183809379621691904718497106285053952) (hw : Within μ σ x) :
    Within μ σ (takeChange k value buf g x) := by
  unfold takeChange
  repeat' first
    | with_reducible assumption
    | with_reducible apply Within.refl
    | with_reducible apply Eq.refl
    | ((with_reducible apply fun k => sub_trans k hμ); exact rfl)
    | ((with_reducible apply sub_set hμ); exact rfl)
    | ((with_reducible apply Or.inl); with_reducible apply Eq.refl)
    | ((with_reducible apply Or.inr); (with_reducible apply sub_set hμ); exact rfl)
    | intro _
    | with_reducible apply Within.ite
    | with_reducible apply within_setVersion
    | with_reducible apply within_wr
    | with_reducible apply within_changeOn
    | with_reducible apply within_releaseOnInput
    | with_reducible apply within_pruneLog
    | with_reducible apply within_put
    | with_reducible apply within_raise0
    | with_reducible apply within_setBit
    | with_reducible apply Within.forEach
    | with_reducible apply Within.foldl
    | (extract_lets +onlyGivenNames a; first | (refine Within.cutAny (μ := μ) (σ := σ) (a := a) ?_ ?_; all_goals (first | (intro ha; clear_value a) | (unfold a; clear a))) | skip)
    | split
    | (with_reducible apply Within.upd)

theorem within_logChange {μ : Nat} {σ x : State} (k : InKey) (value : W32) (buf : W32) (g : ATarget)  (hμ : Nat.land 1130900786647579890047811927625519518805593915548452148936197445557822484126172445224718825100325170504799703751018806866093827183809379621691904718497106285053952 μ = 1130900786647579890047811927625519518805593915548452148936197445557822484126172445224718825100325170504799703751018806866093827183809379621691904718497106285053952) (hw : Within μ σ x) :
    Within μ σ (logChange k value buf g x) := by
  unfold logChange
  repeat' first
    | with_reducible assumption
    | with_reducible apply Within.refl
    | with_reducible apply Eq.refl
    | ((with_reducible apply fun k => sub_trans k hμ); exact rfl)
    | ((with_reducible apply sub_set hμ); exact rfl)
    | intro _
    | with_reducible apply Within.ite
    | with_reducible apply within_discardChange
    | with_reducible apply within_takeChange
    | with_reducible apply Within.foldl
    | (extract_lets +onlyGivenNames a; first | (refine Within.cutAny (μ := μ) (σ := σ) (a := a) ?_ ?_; all_goals (first | (intro ha; clear_value a) | (unfold a; clear a))) | skip)
    | split

theorem within_waitChange {μ : Nat} {σ x : State} (k : InKey) (value : W32) (buf : W32) (g : ATarget) (cmd : Option (Cmd × ℕ × List W32))  (hμ : Nat.land 1758246300700952413249739342164721837773134116249204097981156953483897247847724656349890587964415047893560017755143034764757869176427425396495522996061844013056 μ = 1758246300700952413249739342164721837773134116249204097981156953483897247847724656349890587964415047893560017755143034764757869176427425396495522996061844013056) (hw : Within μ σ x) :
    Within μ σ (waitChange k value buf g cmd x) := by
  unfold waitChange
  repeat' first
    | with_reducible assumption
    | with_reducible apply Within.refl
    | with_reducible apply Eq.refl
    | ((with_reducible apply fun k => sub_trans k hμ); exact rfl)
    | ((with_reducible apply sub_set hμ); exact rfl)
    | ((with_reducible apply Or.inl); with_reducible apply Eq.refl)
    | ((with_reducible apply Or.inr); (with_reducible apply sub_set hμ); exact rfl)
    | intro _
    | with_reducible apply Within.ite
    | with_reducible apply within_bump
    | with_reducible apply Within.foldl
    | (extract_lets +onlyGivenNames a; first | (refine Within.cutAny (μ := μ) (σ := σ) (a := a) ?_ ?_; all_goals (first | (intro ha; clear_value a) | (unfold a; clear a))) | skip)
    | split
    | (with_reducible apply Within.upd)

theorem within_enterChange {μ : Nat} {σ x : State} (k : InKey) (value : W32) (buf : W32) (g : ATarget)  (hμ : Nat.land 1243373631511159799618075390317669065277336343506000064763716334873118423642959641982694842256373315106943008410574207175312546561422291600002310875599997493331968 μ = 1243373631511159799618075390317669065277336343506000064763716334873118423642959641982694842256373315106943008410574207175312546561422291600002310875599997493331968) (hw : Within μ σ x) :
    Within μ σ (enterChange k value buf g x) := by
  unfold enterChange
  repeat' first
    | with_reducible assumption
    | with_reducible apply Within.refl
    | with_reducible apply Eq.refl
    | ((with_reducible apply fun k => sub_trans k hμ); exact rfl)
    | ((with_reducible apply sub_set hμ); exact rfl)
    | intro _
    | with_reducible apply Within.ite
    | with_reducible apply within_journalChange
    | with_reducible apply within_waitChange
    | with_reducible apply within_discardChange
    | with_reducible apply within_takeChange
    | with_reducible apply Within.foldl
    | (extract_lets +onlyGivenNames a; first | (refine Within.cutAny (μ := μ) (σ := σ) (a := a) ?_ ?_; all_goals (first | (intro ha; clear_value a) | (unfold a; clear a))) | skip)
    | split

theorem within_beginStall {μ : Nat} {σ x : State} (c : ℕ)  (hμ : Nat.land 3529364097014649719715069748327721287828648423686176893604928525953767389164319917797510975255070323077702466094145096138335342080354319726813213472912503228416 μ = 3529364097014649719715069748327721287828648423686176893604928525953767389164319917797510975255070323077702466094145096138335342080354319726813213472912503228416) (hw : Within μ σ x) :
    Within μ σ (beginStall c x) := by
  unfold beginStall
  repeat' first
    | with_reducible assumption
    | with_reducible apply Within.refl
    | with_reducible apply Eq.refl
    | ((with_reducible apply fun k => sub_trans k hμ); exact rfl)
    | ((with_reducible apply sub_set hμ); exact rfl)
    | intro _
    | with_reducible apply Within.ite
    | with_reducible apply within_raise
    | with_reducible apply within_bump
    | with_reducible apply within_setBit
    | with_reducible apply within_put
    | with_reducible apply Within.foldl
    | (extract_lets +onlyGivenNames a; first | (refine Within.cutAny (μ := μ) (σ := σ) (a := a) ?_ ?_; all_goals (first | (intro ha; clear_value a) | (unfold a; clear a))) | skip)
    | split

theorem within_releaseEpoch {μ : Nat} {σ x : State} (c : ℕ) (slot : ℕ) (e : W32)  (hμ : Nat.land 6165446398504803850268119655174976283260111578941206170812402494281015971589019841812573877269068872188984249668473745624590185472245510780836450619165224486912 μ = 6165446398504803850268119655174976283260111578941206170812402494281015971589019841812573877269068872188984249668473745624590185472245510780836450619165224486912) (hw : Within μ σ x) :
    Within μ σ (releaseEpoch c slot e x) := by
  unfold releaseEpoch
  repeat' first
    | with_reducible assumption
    | with_reducible apply Within.refl
    | with_reducible apply Eq.refl
    | ((with_reducible apply fun k => sub_trans k hμ); exact rfl)
    | ((with_reducible apply sub_set hμ); exact rfl)
    | intro _
    | with_reducible apply Within.ite
    | with_reducible apply within_setCanvas
    | with_reducible apply within_put
    | with_reducible apply within_wr
    | with_reducible apply within_releaseTmpls
    | with_reducible apply within_wakeWaiting
    | with_reducible apply Within.foldl
    | (extract_lets +onlyGivenNames a; first | (refine Within.cutAny (μ := μ) (σ := σ) (a := a) ?_ ?_; all_goals (first | (intro ha; clear_value a) | (unfold a; clear a))) | skip)
    | split

theorem within_releaseUp {μ : Nat} {σ x : State} (c : ℕ) (a1 : ℕ)  (hμ : Nat.land 6165446398504803850268119655174976283260111578941206170812402494281015971589019841812573877269068872188984249668473745624590185472245511007510041796908194744320 μ = 6165446398504803850268119655174976283260111578941206170812402494281015971589019841812573877269068872188984249668473745624590185472245511007510041796908194744320) (hw : Within μ σ x) :
    Within μ σ (releaseUp c a1 x) := by
  induction a1 generalizing x with
  | zero => exact hw
  | succ n ih =>
    unfold releaseUp
    repeat' first
    | with_reducible assumption
    | with_reducible apply Within.refl
    | with_reducible apply Eq.refl
    | ((with_reducible apply fun k => sub_trans k hμ); exact rfl)
    | ((with_reducible apply sub_set hμ); exact rfl)
    | (with_reducible apply ih)
    | intro _
    | with_reducible apply Within.ite
    | with_reducible apply within_put
    | with_reducible apply within_releaseEpoch
    | with_reducible apply within_beginStall
    | with_reducible apply Within.foldl
    | (extract_lets +onlyGivenNames a; first | (refine Within.cutAny (μ := μ) (σ := σ) (a := a) ?_ ?_; all_goals (first | (intro ha; clear_value a) | (unfold a; clear a))) | skip)
    | split

theorem within_markTimed {μ : Nat} {σ x : State} (t : Machine.Task)  (hμ : Nat.land 1757388200993436087035366604564836663620975436836686184804982645551499054949799949343375268009332366074187855716219099657503228927927460816018951242525454630912 μ = 1757388200993436087035366604564836663620975436836686184804982645551499054949799949343375268009332366074187855716219099657503228927927460816018951242525454630912) (hw : Within μ σ x) :
    Within μ σ (markTimed t x) := by
  unfold markTimed
  repeat' first
    | with_reducible assumption
    | with_reducible apply Within.refl
    | with_reducible apply Eq.refl
    | ((with_reducible apply fun k => sub_trans k hμ); exact rfl)
    | ((with_reducible apply sub_set hμ); exact rfl)
    | intro _
    | with_reducible apply Within.ite
    | with_reducible apply within_updRec
    | with_reducible apply within_setCanvas
    | with_reducible apply Within.foldl
    | (extract_lets +onlyGivenNames a; first | (refine Within.cutAny (μ := μ) (σ := σ) (a := a) ?_ ?_; all_goals (first | (intro ha; clear_value a) | (unfold a; clear a))) | skip)
    | split

theorem within_takeTmpls {μ : Nat} {σ x : State} (c : ℕ)  (hμ : Nat.land 878694100496718043517683302282418331810487718418343092402491322775749527474899974671687634004666183037093927858109549828751614463963730408009475621262727315456 μ = 878694100496718043517683302282418331810487718418343092402491322775749527474899974671687634004666183037093927858109549828751614463963730408009475621262727315456) (hw : Within μ σ x) :
    Within μ σ (takeTmpls c x) := by
  unfold takeTmpls
  repeat' first
    | with_reducible assumption
    | with_reducible apply Within.refl
    | with_reducible apply Eq.refl
    | ((with_reducible apply fun k => sub_trans k hμ); exact rfl)
    | ((with_reducible apply sub_set hμ); exact rfl)
    | ((with_reducible apply Or.inl); with_reducible apply Eq.refl)
    | ((with_reducible apply Or.inr); (with_reducible apply sub_set hμ); exact rfl)
    | intro _
    | with_reducible apply Within.ite
    | with_reducible apply Within.foldl
    | (extract_lets +onlyGivenNames a; first | (refine Within.cutAny (μ := μ) (σ := σ) (a := a) ?_ ?_; all_goals (first | (intro ha; clear_value a) | (unfold a; clear a))) | skip)
    | split
    | (with_reducible apply Within.upd)

/-! ## Access -/

theorem within_collide {μ : Nat} {σ x : State} (fn : ℕ) (off : ℕ)  (hμ : Nat.land 3529364097014649719715069748327721287828648423686176893604928525953767389164320095654160043772746493682735439438771558761031788504260684106988658449736659912704 μ = 3529364097014649719715069748327721287828648423686176893604928525953767389164320095654160043772746493682735439438771558761031788504260684106988658449736659912704) (hw : Within μ σ x) :
    Within μ σ (collide fn off x) := by
  unfold collide
  repeat' first
    | with_reducible assumption
    | with_reducible apply Within.refl
    | with_reducible apply Eq.refl
    | ((with_reducible apply fun k => sub_trans k hμ); exact rfl)
    | ((with_reducible apply sub_set hμ); exact rfl)
    | intro _
    | with_reducible apply Within.ite
    | with_reducible apply within_bump
    | with_reducible apply within_put
    | with_reducible apply within_raise0
    | with_reducible apply within_setBit
    | with_reducible apply Within.foldl
    | (extract_lets +onlyGivenNames a; first | (refine Within.cutAny (μ := μ) (σ := σ) (a := a) ?_ ?_; all_goals (first | (intro ha; clear_value a) | (unfold a; clear a))) | skip)
    | split

theorem within_denied {μ : Nat} {σ x : State} (fn : ℕ) (addr : ℕ)  (hμ : Nat.land 3529364097014649719715069748327721287828648423686176893604928525953767389164319917797510975255070323077702466094145096138335342080354319500139622295169558136832 μ = 3529364097014649719715069748327721287828648423686176893604928525953767389164319917797510975255070323077702466094145096138335342080354319500139622295169558136832) (hw : Within μ σ x) :
    Within μ σ (denied fn addr x) := by
  unfold denied
  repeat' first
    | with_reducible assumption
    | with_reducible apply Within.refl
    | with_reducible apply Eq.refl
    | ((with_reducible apply fun k => sub_trans k hμ); exact rfl)
    | ((with_reducible apply sub_set hμ); exact rfl)
    | intro _
    | with_reducible apply Within.ite
    | with_reducible apply within_put
    | with_reducible apply within_wr
    | with_reducible apply within_bump
    | with_reducible apply within_raise0
    | with_reducible apply within_setBit
    | with_reducible apply Within.foldl
    | (extract_lets +onlyGivenNames a; first | (refine Within.cutAny (μ := μ) (σ := σ) (a := a) ?_ ?_; all_goals (first | (intro ha; clear_value a) | (unfold a; clear a))) | skip)
    | split

theorem within_plainWrite {μ : Nat} {σ x : State} (pf : Bool) (r : RegId) (i j : Nat) (v : W32) (hμ : μ.testBit r.num = true)
    (hw : Within μ σ x) : Within μ σ (plainWrite pf r i j v x) := within_wr _ _ _ _ hμ hw

theorem within_cancelEpochs {μ : Nat} {σ x : State} (c : ℕ) (p : W32 → Bool)  (hμ : Nat.land 1129143371630970594075582361872904685730280685152883821566605707465148097627694585128281492694873112248150001348643869907627190592405892688804090470826803286001664 μ = 1129143371630970594075582361872904685730280685152883821566605707465148097627694585128281492694873112248150001348643869907627190592405892688804090470826803286001664) (hw : Within μ σ x) :
    Within μ σ (cancelEpochs c p x) := by
  unfold cancelEpochs
  repeat' first
    | with_reducible assumption
    | with_reducible apply Within.refl
    | with_reducible apply Eq.refl
    | ((with_reducible apply fun k => sub_trans k hμ); exact rfl)
    | ((with_reducible apply sub_set hμ); exact rfl)
    | ((with_reducible apply Or.inl); with_reducible apply Eq.refl)
    | ((with_reducible apply Or.inr); (with_reducible apply sub_set hμ); exact rfl)
    | (intro hs; have q := fits_filter ‹_ ∈ List.filter _ _› ‹_› hs; exact q)
    | (intro hs; have q := fits_at ‹taskAt _ _ = some _› ‹_› hs; exact q)
    | (intro hs; have q := fits_on ‹taskOn _ _ = some _› ‹_› hs; exact q)
    | (intro hs; have q := fits_all ‹_ ∈ allTasks _› ‹_› hs; exact q)
    | (intro hs; have q := fits_all (List.mem_of_find?_eq_some ‹List.find? _ _ = some _›) ‹_› hs; exact q)
    | intro _
    | with_reducible apply Within.ite
    | with_reducible apply within_finish
    | with_reducible apply within_flushStores
    | with_reducible apply Within.forEachMem
    | with_reducible apply Within.foldl
    | (extract_lets +onlyGivenNames a; first | (refine Within.cutAny (μ := μ) (σ := σ) (a := a) ?_ ?_; all_goals (first | (intro ha; clear_value a) | (unfold a; clear a))) | skip)
    | split
    | (with_reducible apply Within.upd)

theorem within_hostRead {μ : Nat} {σ x : State} (fn : Nat) (r : RegId) (i j : Nat) (effect : State → State × W32) (he : ∀ y, Within μ σ y → Within μ σ (effect y).1) (hμ : Nat.land 3529417728246369490103468044427714111213158341149459263178439420199542276220440389842067251269939161296446199566204304705235203519791931893268444184332709414912 μ = 3529417728246369490103468044427714111213158341149459263178439420199542276220440389842067251269939161296446199566204304705235203519791931893268444184332709414912) (hw : Within μ σ x) :
    Within μ σ (hostRead fn r i j effect x) := by
  unfold hostRead
  repeat' first
    | with_reducible assumption
    | with_reducible apply Within.refl
    | with_reducible apply Eq.refl
    | ((with_reducible apply fun k => sub_trans k hμ); exact rfl)
    | ((with_reducible apply sub_set hμ); exact rfl)
    | ((with_reducible apply Or.inl); with_reducible apply Eq.refl)
    | ((with_reducible apply Or.inr); (with_reducible apply sub_set hμ); exact rfl)
    | (apply he)
    | intro _
    | with_reducible apply Within.ite
    | with_reducible apply within_denied
    | with_reducible apply within_collide
    | with_reducible apply Within.foldl
    | (extract_lets +onlyGivenNames a; first | (refine Within.cutAny (μ := μ) (σ := σ) (a := a) ?_ ?_; all_goals (first | (intro ha; clear_value a) | (unfold a; clear a))) | skip)
    | split
    | (with_reducible apply Within.upd)

theorem within_hostWrite {μ : Nat} {σ x : State} (fn : Nat) (r : RegId) (i j : Nat) (v : W32) (effect : State → State) (he : ∀ y, Within μ σ y → Within μ σ (effect y)) (hμ : Nat.land 116002208960594559289978532440477267759571076381234092721123817841249706905951516853630177199820891095826040098994171867979751166117172662417394815552627893356544 μ = 116002208960594559289978532440477267759571076381234092721123817841249706905951516853630177199820891095826040098994171867979751166117172662417394815552627893356544) (hw : Within μ σ x) :
    Within μ σ (hostWrite fn r i j v effect x) := by
  unfold hostWrite
  repeat' first
    | with_reducible assumption
    | with_reducible apply Within.refl
    | with_reducible apply Eq.refl
    | ((with_reducible apply fun k => sub_trans k hμ); exact rfl)
    | ((with_reducible apply sub_set hμ); exact rfl)
    | (apply he)
    | intro _
    | with_reducible apply Within.ite
    | with_reducible apply within_denied
    | with_reducible apply within_collide
    | with_reducible apply within_bump
    | with_reducible apply within_journal
    | with_reducible apply Within.foldl
    | (extract_lets +onlyGivenNames a; first | (refine Within.cutAny (μ := μ) (σ := σ) (a := a) ?_ ?_; all_goals (first | (intro ha; clear_value a) | (unfold a; clear a))) | skip)
    | split

/-! ## Egress -/

theorem within_setPort {μ : Nat} {σ x : State} (p : ℕ) (v : Port)  (hμ : Nat.land 56236422431789954785131731346074773235871213978773957913759444657647969758393598378988008576298635714374011382919011189040103325693678746112606439760814548189184 μ = 56236422431789954785131731346074773235871213978773957913759444657647969758393598378988008576298635714374011382919011189040103325693678746112606439760814548189184) (hw : Within μ σ x) :
    Within μ σ (setPort p v x) := by
  unfold setPort
  repeat' first
    | with_reducible assumption
    | with_reducible apply Within.refl
    | with_reducible apply Eq.refl
    | ((with_reducible apply fun k => sub_trans k hμ); exact rfl)
    | ((with_reducible apply sub_set hμ); exact rfl)
    | ((with_reducible apply Or.inl); with_reducible apply Eq.refl)
    | ((with_reducible apply Or.inr); (with_reducible apply sub_set hμ); exact rfl)
    | intro _
    | with_reducible apply Within.ite
    | with_reducible apply Within.foldl
    | (extract_lets +onlyGivenNames a; first | (refine Within.cutAny (μ := μ) (σ := σ) (a := a) ?_ ?_; all_goals (first | (intro ha; clear_value a) | (unfold a; clear a))) | skip)
    | split
    | (with_reducible apply Within.upd)

theorem within_rxCount {μ : Nat} {σ x : State} (p : ℕ) (len : ℕ)  (hμ : Nat.land 56237280531497471111346104083674658410023372658186475826935618965580367951291523085994523896253718396193383544957935124147357965942178710693083011514350937571328 μ = 56237280531497471111346104083674658410023372658186475826935618965580367951291523085994523896253718396193383544957935124147357965942178710693083011514350937571328) (hw : Within μ σ x) :
    Within μ σ (rxCount p len x) := by
  unfold rxCount
  repeat' first
    | with_reducible assumption
    | with_reducible apply Within.refl
    | with_reducible apply Eq.refl
    | ((with_reducible apply fun k => sub_trans k hμ); exact rfl)
    | ((with_reducible apply sub_set hμ); exact rfl)
    | intro _
    | with_reducible apply Within.ite
    | with_reducible apply within_count
    | with_reducible apply within_setPort
    | with_reducible apply Within.foldl
    | (extract_lets +onlyGivenNames a; first | (refine Within.cutAny (μ := μ) (σ := σ) (a := a) ?_ ?_; all_goals (first | (intro ha; clear_value a) | (unfold a; clear a))) | skip)
    | split

theorem within_produceOrWait {μ : Nat} {σ x : State} (cpl : ℕ) (fn : ℕ) (ws : List W32)  (hμ : Nat.land 3529364097014649719715069748327721287828648423686176893604928525953767389164319917797510975255070323077702466094145096138335342080354319500139622295169532971008 μ = 3529364097014649719715069748327721287828648423686176893604928525953767389164319917797510975255070323077702466094145096138335342080354319500139622295169532971008) (hw : Within μ σ x) :
    Within μ σ (produceOrWait cpl fn ws x) := by
  unfold produceOrWait
  repeat' first
    | with_reducible assumption
    | with_reducible apply Within.refl
    | with_reducible apply Eq.refl
    | ((with_reducible apply fun k => sub_trans k hμ); exact rfl)
    | ((with_reducible apply sub_set hμ); exact rfl)
    | ((with_reducible apply Or.inl); with_reducible apply Eq.refl)
    | ((with_reducible apply Or.inr); (with_reducible apply sub_set hμ); exact rfl)
    | intro _
    | with_reducible apply Within.ite
    | with_reducible apply within_ringProduce
    | with_reducible apply Within.foldl
    | (extract_lets +onlyGivenNames a; first | (refine Within.cutAny (μ := μ) (σ := σ) (a := a) ?_ ?_; all_goals (first | (intro ha; clear_value a) | (unfold a; clear a))) | skip)
    | split
    | (with_reducible apply Within.upd)

theorem within_txComplete {μ : Nat} {σ x : State} (r : ℕ) (first : ℕ) (tag : W16) (status : ℕ)  (hμ : Nat.land 3529364097014649719715069748327721287828648423686176893604928525953767389164319917797510975255070323077702466094145096138335342080354319500139622295169532971008 μ = 3529364097014649719715069748327721287828648423686176893604928525953767389164319917797510975255070323077702466094145096138335342080354319500139622295169532971008) (hw : Within μ σ x) :
    Within μ σ (txComplete r first tag status x) := by
  unfold txComplete
  repeat' first
    | with_reducible assumption
    | with_reducible apply Within.refl
    | with_reducible apply Eq.refl
    | ((with_reducible apply fun k => sub_trans k hμ); exact rfl)
    | ((with_reducible apply sub_set hμ); exact rfl)
    | intro _
    | with_reducible apply Within.ite
    | with_reducible apply within_produceOrWait
    | with_reducible apply Within.foldl
    | (extract_lets +onlyGivenNames a; first | (refine Within.cutAny (μ := μ) (σ := σ) (a := a) ?_ ?_; all_goals (first | (intro ha; clear_value a) | (unfold a; clear a))) | skip)
    | split

theorem within_frameEnds {μ : Nat} {σ x : State} (f : QFrame) (status : ℕ)  (hμ : Nat.land 3529364097014649719715069748327721287828648423686176893604928525953767389164319917797510975255070323077702466094145096138335342080354319500139622295169532971008 μ = 3529364097014649719715069748327721287828648423686176893604928525953767389164319917797510975255070323077702466094145096138335342080354319500139622295169532971008) (hw : Within μ σ x) :
    Within μ σ (frameEnds f status x) := by
  unfold frameEnds
  repeat' first
    | with_reducible assumption
    | with_reducible apply Within.refl
    | with_reducible apply Eq.refl
    | ((with_reducible apply fun k => sub_trans k hμ); exact rfl)
    | ((with_reducible apply sub_set hμ); exact rfl)
    | intro _
    | with_reducible apply Within.ite
    | with_reducible apply within_txComplete
    | with_reducible apply Within.foldl
    | (extract_lets +onlyGivenNames a; first | (refine Within.cutAny (μ := μ) (σ := σ) (a := a) ?_ ?_; all_goals (first | (intro ha; clear_value a) | (unfold a; clear a))) | skip)
    | split

theorem within_enqueue {μ : Nat} {σ x : State} (p : ℕ) (f : QFrame)  (hμ : Nat.land 59765786528804604504846801094402494523699862402460134807364373183601737147557918296785519551553706037451713849013156285178438667774033065612746062055984081160192 μ = 59765786528804604504846801094402494523699862402460134807364373183601737147557918296785519551553706037451713849013156285178438667774033065612746062055984081160192) (hw : Within μ σ x) :
    Within μ σ (enqueue p f x) := by
  unfold enqueue
  repeat' first
    | with_reducible assumption
    | with_reducible apply Within.refl
    | with_reducible apply Eq.refl
    | ((with_reducible apply fun k => sub_trans k hμ); exact rfl)
    | ((with_reducible apply sub_set hμ); exact rfl)
    | intro _
    | with_reducible apply Within.ite
    | with_reducible apply within_setPort
    | with_reducible apply within_frameEnds
    | with_reducible apply Within.foldl
    | (extract_lets +onlyGivenNames a; first | (refine Within.cutAny (μ := μ) (σ := σ) (a := a) ?_ ?_; all_goals (first | (intro ha; clear_value a) | (unfold a; clear a))) | skip)
    | split

theorem within_takeSeq {μ : Nat} {σ x : State} (node : ℕ)  (hμ : Nat.land 28118211215894977392565865673037386617935606989386978956879722328823984879196799189494004288149317857187005691459505594520051662846839373056303219880407274094592 μ = 28118211215894977392565865673037386617935606989386978956879722328823984879196799189494004288149317857187005691459505594520051662846839373056303219880407274094592) (hw : Within μ σ x) :
    Within μ σ (takeSeq node x) := by
  unfold takeSeq
  repeat' first
    | with_reducible assumption
    | with_reducible apply Within.refl
    | with_reducible apply Eq.refl
    | ((with_reducible apply fun k => sub_trans k hμ); exact rfl)
    | ((with_reducible apply sub_set hμ); exact rfl)
    | ((with_reducible apply Or.inl); with_reducible apply Eq.refl)
    | ((with_reducible apply Or.inr); (with_reducible apply sub_set hμ); exact rfl)
    | intro _
    | with_reducible apply Within.ite
    | with_reducible apply Within.foldl
    | (extract_lets +onlyGivenNames a; first | (refine Within.cutAny (μ := μ) (σ := σ) (a := a) ?_ ?_; all_goals (first | (intro ha; clear_value a) | (unfold a; clear a))) | skip)
    | split
    | (with_reducible apply Within.upd)

theorem within_sendUnicast {μ : Nat} {σ x : State} (m : Map W32) (e : ℕ) (type : ℕ) (flags : ℕ) (epoch : W32) (time : W64) (launch : W64) (payload : List Byte)  (hμ : Nat.land 87883997744699581897412666767439881141635469391847113764244095512425722026754717486279523839703023894638719540472661879698490330620872438669049281936391355254784 μ = 87883997744699581897412666767439881141635469391847113764244095512425722026754717486279523839703023894638719540472661879698490330620872438669049281936391355254784) (hw : Within μ σ x) :
    Within μ σ (sendUnicast m e type flags epoch time launch payload x) := by
  unfold sendUnicast
  repeat' first
    | with_reducible assumption
    | with_reducible apply Within.refl
    | with_reducible apply Eq.refl
    | ((with_reducible apply fun k => sub_trans k hμ); exact rfl)
    | ((with_reducible apply sub_set hμ); exact rfl)
    | intro _
    | with_reducible apply Within.ite
    | with_reducible apply within_enqueue
    | with_reducible apply within_takeSeq
    | with_reducible apply Within.foldl
    | (extract_lets +onlyGivenNames a; first | (refine Within.cutAny (μ := μ) (σ := σ) (a := a) ?_ ?_; all_goals (first | (intro ha; clear_value a) | (unfold a; clear a))) | skip)
    | split

theorem within_dequeue {μ : Nat} {σ x : State} (p : ℕ) (drop : QFrame → Bool)  (hμ : Nat.land 56236422431789954785131731346074773235871213978773957913759444657647969758393598378988008576298635714374011382919011189040103325693678746112606439760814548189184 μ = 56236422431789954785131731346074773235871213978773957913759444657647969758393598378988008576298635714374011382919011189040103325693678746112606439760814548189184) (hw : Within μ σ x) :
    Within μ σ (dequeue p drop x) := by
  unfold dequeue
  repeat' first
    | with_reducible assumption
    | with_reducible apply Within.refl
    | with_reducible apply Eq.refl
    | ((with_reducible apply fun k => sub_trans k hμ); exact rfl)
    | ((with_reducible apply sub_set hμ); exact rfl)
    | intro _
    | with_reducible apply Within.ite
    | with_reducible apply within_setPort
    | with_reducible apply Within.foldl
    | (extract_lets +onlyGivenNames a; first | (refine Within.cutAny (μ := μ) (σ := σ) (a := a) ?_ ?_; all_goals (first | (intro ha; clear_value a) | (unfold a; clear a))) | skip)
    | split

theorem within_dropStale {μ : Nat} {σ x : State} (c : ℕ) (e : W32)  (hμ : Nat.land 59765786528804604504846801094402494523699862402460134807364373183601737147557918296785519551553706037451713849013156329779929064835279348684182607352707093121024 μ = 59765786528804604504846801094402494523699862402460134807364373183601737147557918296785519551553706037451713849013156329779929064835279348684182607352707093121024) (hw : Within μ σ x) :
    Within μ σ (dropStale c e x) := by
  unfold dropStale
  repeat' first
    | with_reducible assumption
    | with_reducible apply Within.refl
    | with_reducible apply Eq.refl
    | ((with_reducible apply fun k => sub_trans k hμ); exact rfl)
    | ((with_reducible apply sub_set hμ); exact rfl)
    | intro _
    | with_reducible apply Within.ite
    | with_reducible apply within_count
    | with_reducible apply within_dequeue
    | with_reducible apply within_setBit
    | with_reducible apply within_raise
    | with_reducible apply Within.forEach
    | with_reducible apply Within.foldl
    | (extract_lets +onlyGivenNames a; first | (refine Within.cutAny (μ := μ) (σ := σ) (a := a) ?_ ?_; all_goals (first | (intro ha; clear_value a) | (unfold a; clear a))) | skip)
    | split

theorem within_sendLatch {μ : Nat} {σ x : State} (c : ℕ) (e : W32) (beacon : Bool) (launch : W64)  (hμ : Nat.land 87883997744699581897412666767439881141635469391847113764244095512425722026754717486279523839703023894638719540472661879698490330620872438669049281936391355254784 μ = 87883997744699581897412666767439881141635469391847113764244095512425722026754717486279523839703023894638719540472661879698490330620872438669049281936391355254784) (hw : Within μ σ x) :
    Within μ σ (sendLatch c e beacon launch x) := by
  unfold sendLatch
  repeat' first
    | with_reducible assumption
    | with_reducible apply Within.refl
    | with_reducible apply Eq.refl
    | ((with_reducible apply fun k => sub_trans k hμ); exact rfl)
    | ((with_reducible apply sub_set hμ); exact rfl)
    | ((with_reducible apply Or.inl); with_reducible apply Eq.refl)
    | ((with_reducible apply Or.inr); (with_reducible apply sub_set hμ); exact rfl)
    | intro _
    | with_reducible apply Within.ite
    | with_reducible apply within_enqueue
    | with_reducible apply Within.forEach
    | with_reducible apply Within.foldl
    | (extract_lets +onlyGivenNames a; first | (refine Within.cutAny (μ := μ) (σ := σ) (a := a) ?_ ?_; all_goals (first | (intro ha; clear_value a) | (unfold a; clear a))) | skip)
    | split
    | (with_reducible apply Within.upd)

theorem within_sendPix {μ : Nat} {σ x : State} (m : Map W32) (g : Seg) (codes : List ℕ)  (hμ : Nat.land 87883997744699581897412666767439881141635469391847113764244095512425722026754717486279523839703023894638719540472661879698490330620872438669049281936391355254784 μ = 87883997744699581897412666767439881141635469391847113764244095512425722026754717486279523839703023894638719540472661879698490330620872438669049281936391355254784) (hw : Within μ σ x) :
    Within μ σ (sendPix m g codes x) := by
  unfold sendPix
  repeat' first
    | with_reducible assumption
    | with_reducible apply Within.refl
    | with_reducible apply Eq.refl
    | ((with_reducible apply fun k => sub_trans k hμ); exact rfl)
    | ((with_reducible apply sub_set hμ); exact rfl)
    | intro _
    | with_reducible apply Within.ite
    | with_reducible apply within_sendUnicast
    | with_reducible apply Within.foldl
    | (extract_lets +onlyGivenNames a; first | (refine Within.cutAny (μ := μ) (σ := σ) (a := a) ?_ ?_; all_goals (first | (intro ha; clear_value a) | (unfold a; clear a))) | skip)
    | split

/-! ## Glaze -/

theorem within_setWin {μ : Nat} {σ x : State} (w : Win)  (hμ : Nat.land 14059105607947488696282932836518693308967803494693489478439861164411992439598399594747002144074658928593502845729752797260025831423419686528151609940203637047296 μ = 14059105607947488696282932836518693308967803494693489478439861164411992439598399594747002144074658928593502845729752797260025831423419686528151609940203637047296) (hw : Within μ σ x) :
    Within μ σ (setWin w x) := by
  unfold setWin
  repeat' first
    | with_reducible assumption
    | with_reducible apply Within.refl
    | with_reducible apply Eq.refl
    | ((with_reducible apply fun k => sub_trans k hμ); exact rfl)
    | ((with_reducible apply sub_set hμ); exact rfl)
    | ((with_reducible apply Or.inl); with_reducible apply Eq.refl)
    | ((with_reducible apply Or.inr); (with_reducible apply sub_set hμ); exact rfl)
    | intro _
    | with_reducible apply Within.ite
    | with_reducible apply Within.foldl
    | (extract_lets +onlyGivenNames a; first | (refine Within.cutAny (μ := μ) (σ := σ) (a := a) ?_ ?_; all_goals (first | (intro ha; clear_value a) | (unfold a; clear a))) | skip)
    | split
    | (with_reducible apply Within.upd)

theorem within_settleTiles {μ : Nat} {σ x : State} (c : ℕ) (e : W32)  (hμ : Nat.land 15816493808940924783318299441083529972588778931530175663244843809963491494548199544090377412083991294667690701445971896917529060351347147344170561182729091678208 μ = 15816493808940924783318299441083529972588778931530175663244843809963491494548199544090377412083991294667690701445971896917529060351347147344170561182729091678208) (hw : Within μ σ x) :
    Within μ σ (settleTiles c e x) := by
  unfold settleTiles
  repeat' first
    | with_reducible assumption
    | with_reducible apply Within.refl
    | with_reducible apply Eq.refl
    | ((with_reducible apply fun k => sub_trans k hμ); exact rfl)
    | ((with_reducible apply sub_set hμ); exact rfl)
    | intro _
    | with_reducible apply Within.ite
    | with_reducible apply within_setCanvas
    | with_reducible apply within_setWin
    | with_reducible apply Within.foldl
    | (extract_lets +onlyGivenNames a; first | (refine Within.cutAny (μ := μ) (σ := σ) (a := a) ?_ ?_; all_goals (first | (intro ha; clear_value a) | (unfold a; clear a))) | skip)
    | split

theorem within_mordNext {μ : Nat} {σ x : State}   (hμ : Nat.land 618970019642690137449562112 μ = 618970019642690137449562112) (hw : Within μ σ x) :
    Within μ σ (mordNext x) := by
  unfold mordNext
  repeat' first
    | with_reducible assumption
    | with_reducible apply Within.refl
    | with_reducible apply Eq.refl
    | ((with_reducible apply fun k => sub_trans k hμ); exact rfl)
    | ((with_reducible apply sub_set hμ); exact rfl)
    | intro _
    | with_reducible apply Within.ite
    | with_reducible apply within_put
    | with_reducible apply Within.foldl
    | (extract_lets +onlyGivenNames a; first | (refine Within.cutAny (μ := μ) (σ := σ) (a := a) ?_ ?_; all_goals (first | (intro ha; clear_value a) | (unfold a; clear a))) | skip)
    | split

theorem within_mordRead {μ : Nat} {σ x : State}   (hμ : Nat.land 618970019642690137449562112 μ = 618970019642690137449562112) (hw : Within μ σ x) :
    Within μ σ (mordRead x).1 := by
  unfold mordRead
  repeat' first
    | with_reducible assumption
    | with_reducible apply Within.refl
    | with_reducible apply Eq.refl
    | ((with_reducible apply fun k => sub_trans k hμ); exact rfl)
    | ((with_reducible apply sub_set hμ); exact rfl)
    | intro _
    | with_reducible apply Within.ite
    | with_reducible apply within_mordNext
    | with_reducible apply Within.foldl
    | (extract_lets +onlyGivenNames a; first | (refine Within.cutAny (μ := μ) (σ := σ) (a := a) ?_ ?_; all_goals (first | (intro ha; clear_value a) | (unfold a; clear a))) | skip)
    | split

theorem within_mordStore {μ : Nat} {σ x : State} (v : W32)  (hμ : Nat.land 17588469704962138415998002584846414596796451918379666372044789690365759828762719512544513119329729251671205311823897893398361173503777100878389445686060417828864 μ = 17588469704962138415998002584846414596796451918379666372044789690365759828762719512544513119329729251671205311823897893398361173503777100878389445686060417828864) (hw : Within μ σ x) :
    Within μ σ (mordStore v x) := by
  unfold mordStore
  repeat' first
    | with_reducible assumption
    | with_reducible apply Within.refl
    | with_reducible apply Eq.refl
    | ((with_reducible apply fun k => sub_trans k hμ); exact rfl)
    | ((with_reducible apply sub_set hμ); exact rfl)
    | ((with_reducible apply Or.inl); with_reducible apply Eq.refl)
    | ((with_reducible apply Or.inr); (with_reducible apply sub_set hμ); exact rfl)
    | intro _
    | with_reducible apply Within.ite
    | with_reducible apply within_mordNext
    | with_reducible apply within_raise0
    | with_reducible apply within_put
    | with_reducible apply within_bump
    | with_reducible apply Within.foldl
    | (extract_lets +onlyGivenNames a; first | (refine Within.cutAny (μ := μ) (σ := σ) (a := a) ?_ ?_; all_goals (first | (intro ha; clear_value a) | (unfold a; clear a))) | skip)
    | split
    | (with_reducible apply Within.upd)

theorem within_noteGlazed {μ : Nat} {σ x : State} (c : ℕ) (e : Sys2Proof.W32) (items : List (ℕ × ℕ × ℕ))  (hμ : Nat.land 17588469704962138415998002584846414596796451918379666372044789690365759828762719512544513119329729251671205311823897893398361173503813620109548364404169941993472 μ = 17588469704962138415998002584846414596796451918379666372044789690365759828762719512544513119329729251671205311823897893398361173503813620109548364404169941993472) (hw : Within μ σ x) :
    Within μ σ (noteGlazed c e items x) := by
  unfold noteGlazed
  repeat' first
    | with_reducible assumption
    | with_reducible apply Within.refl
    | with_reducible apply Eq.refl
    | ((with_reducible apply fun k => sub_trans k hμ); exact rfl)
    | ((with_reducible apply sub_set hμ); exact rfl)
    | intro _
    | with_reducible apply Within.ite
    | with_reducible apply within_count
    | with_reducible apply within_setWin
    | with_reducible apply within_setBit
    | with_reducible apply within_raise
    | with_reducible apply Within.foldl
    | (extract_lets +onlyGivenNames a; first | (refine Within.cutAny (μ := μ) (σ := σ) (a := a) ?_ ?_; all_goals (first | (intro ha; clear_value a) | (unfold a; clear a))) | skip)
    | split

theorem within_sendUniv {μ : Nat} {σ x : State} (u : ℕ) (c : ℕ) (slot : ℕ) (ep : W32) (opts : Byte)  (hμ : Nat.land 326888793079806889734222524988257667394088128801636434897721735307429593499927510596978560288972225680728267917878459434512726039727210670074866175129172551157760 μ = 326888793079806889734222524988257667394088128801636434897721735307429593499927510596978560288972225680728267917878459434512726039727210670074866175129172551157760) (hw : Within μ σ x) :
    Within μ σ (sendUniv u c slot ep opts x) := by
  unfold sendUniv
  repeat' first
    | with_reducible assumption
    | with_reducible apply Within.refl
    | with_reducible apply Eq.refl
    | ((with_reducible apply fun k => sub_trans k hμ); exact rfl)
    | ((with_reducible apply sub_set hμ); exact rfl)
    | ((with_reducible apply Or.inl); with_reducible apply Eq.refl)
    | ((with_reducible apply Or.inr); (with_reducible apply sub_set hμ); exact rfl)
    | intro _
    | with_reducible apply Within.ite
    | with_reducible apply within_put
    | with_reducible apply within_enqueue
    | with_reducible apply within_noteGlazed
    | with_reducible apply within_wakeMem
    | with_reducible apply Within.foldl
    | (extract_lets +onlyGivenNames a; first | (refine Within.cutAny (μ := μ) (σ := σ) (a := a) ?_ ?_; all_goals (first | (intro ha; clear_value a) | (unfold a; clear a))) | skip)
    | split
    | (with_reducible apply Within.upd)

theorem within_showDmx {μ : Nat} {σ x : State} (p : ℕ) (c : ℕ) (slot : ℕ) (e : Sys2Proof.W32)  (hμ : Nat.land 244291547633115393643560294573710344203902283270312184211887550966509137917286912977839922692533604475241438699216161749216277705206456065375993074689953589381120 μ = 244291547633115393643560294573710344203902283270312184211887550966509137917286912977839922692533604475241438699216161749216277705206456065375993074689953589381120) (hw : Within μ σ x) :
    Within μ σ (showDmx p c slot e x) := by
  unfold showDmx
  repeat' first
    | with_reducible assumption
    | with_reducible apply Within.refl
    | with_reducible apply Eq.refl
    | ((with_reducible apply fun k => sub_trans k hμ); exact rfl)
    | ((with_reducible apply sub_set hμ); exact rfl)
    | intro _
    | with_reducible apply Within.ite
    | with_reducible apply within_noteGlazed
    | with_reducible apply within_wakeMem
    | with_reducible apply within_setCanvas
    | with_reducible apply Within.foldl
    | (extract_lets +onlyGivenNames a; first | (refine Within.cutAny (μ := μ) (σ := σ) (a := a) ?_ ?_; all_goals (first | (intro ha; clear_value a) | (unfold a; clear a))) | skip)
    | split

theorem within_glazeSeg {μ : Nat} {σ x : State} (g : Seg) (w : Win)  (hμ : Nat.land 328646181280800325821257891592822504057709104238473121082526717952981092554877310546321935556981558046802455773594678534170229268655138130890885126371698005788672 μ = 328646181280800325821257891592822504057709104238473121082526717952981092554877310546321935556981558046802455773594678534170229268655138130890885126371698005788672) (hw : Within μ σ x) :
    Within μ σ (glazeSeg g w x) := by
  unfold glazeSeg
  repeat' first
    | with_reducible assumption
    | with_reducible apply Within.refl
    | with_reducible apply Eq.refl
    | ((with_reducible apply fun k => sub_trans k hμ); exact rfl)
    | ((with_reducible apply sub_set hμ); exact rfl)
    | intro _
    | with_reducible apply Within.ite
    | with_reducible apply within_sendPix
    | with_reducible apply within_sendUniv
    | with_reducible apply within_showDmx
    | with_reducible apply within_noteGlazed
    | with_reducible apply within_wakeMem
    | with_reducible apply Within.foldl
    | (extract_lets +onlyGivenNames a; first | (refine Within.cutAny (μ := μ) (σ := σ) (a := a) ?_ ?_; all_goals (first | (intro ha; clear_value a) | (unfold a; clear a))) | skip)
    | split

theorem within_noteData {μ : Nat} {σ x : State} (c : ℕ)  (hμ : Nat.land 3529364097014649719715069748327721287828648423686176893604928525953767389164319917797510975255070323077702466094145096138335342080393933581396754463966304946176 μ = 3529364097014649719715069748327721287828648423686176893604928525953767389164319917797510975255070323077702466094145096138335342080393933581396754463966304946176) (hw : Within μ σ x) :
    Within μ σ (noteData c x) := by
  unfold noteData
  repeat' first
    | with_reducible assumption
    | with_reducible apply Within.refl
    | with_reducible apply Eq.refl
    | ((with_reducible apply fun k => sub_trans k hμ); exact rfl)
    | ((with_reducible apply sub_set hμ); exact rfl)
    | intro _
    | with_reducible apply Within.ite
    | with_reducible apply within_raise
    | with_reducible apply within_setBit
    | with_reducible apply within_bump
    | with_reducible apply Within.foldl
    | (extract_lets +onlyGivenNames a; first | (refine Within.cutAny (μ := μ) (σ := σ) (a := a) ?_ ?_; all_goals (first | (intro ha; clear_value a) | (unfold a; clear a))) | skip)
    | split

theorem within_abandonData {μ : Nat} {σ x : State} (g : Seg) (w : Win)  (hμ : Nat.land 17588469704962138415998002584846414596796451918379666372044789690365759828762719512544513119329729251671205311823897893398361173503813620109548364404169941993472 μ = 17588469704962138415998002584846414596796451918379666372044789690365759828762719512544513119329729251671205311823897893398361173503813620109548364404169941993472) (hw : Within μ σ x) :
    Within μ σ (abandonData g w x) := by
  unfold abandonData
  repeat' first
    | with_reducible assumption
    | with_reducible apply Within.refl
    | with_reducible apply Eq.refl
    | ((with_reducible apply fun k => sub_trans k hμ); exact rfl)
    | ((with_reducible apply sub_set hμ); exact rfl)
    | intro _
    | with_reducible apply Within.ite
    | with_reducible apply within_setWin
    | with_reducible apply within_noteData
    | with_reducible apply Within.foldl
    | (extract_lets +onlyGivenNames a; first | (refine Within.cutAny (μ := μ) (σ := σ) (a := a) ?_ ?_; all_goals (first | (intro ha; clear_value a) | (unfold a; clear a))) | skip)
    | split

theorem within_takeSeg {μ : Nat} {σ x : State} (g : Seg)  (hμ : Nat.land 14059105607947488696282932836518693308967803494693489478439861164411992439598399594747002144074658928593502845729752797260025831423419686528151609940203637047296 μ = 14059105607947488696282932836518693308967803494693489478439861164411992439598399594747002144074658928593502845729752797260025831423419686528151609940203637047296) (hw : Within μ σ x) :
    Within μ σ (takeSeg g x) := by
  unfold takeSeg
  repeat' first
    | with_reducible assumption
    | with_reducible apply Within.refl
    | with_reducible apply Eq.refl
    | ((with_reducible apply fun k => sub_trans k hμ); exact rfl)
    | ((with_reducible apply sub_set hμ); exact rfl)
    | ((with_reducible apply Or.inl); with_reducible apply Eq.refl)
    | ((with_reducible apply Or.inr); (with_reducible apply sub_set hμ); exact rfl)
    | intro _
    | with_reducible apply Within.ite
    | with_reducible apply Within.foldl
    | (extract_lets +onlyGivenNames a; first | (refine Within.cutAny (μ := μ) (σ := σ) (a := a) ?_ ?_; all_goals (first | (intro ha; clear_value a) | (unfold a; clear a))) | skip)
    | split
    | (with_reducible apply Within.upd)

/-! ## Send -/

theorem within_sendHold {μ : Nat} {σ x : State} (blank : Bool)  (hμ : Nat.land 59765813344420464390041000242452490935392117361191775992151128630724624591085978443879473155302302371258569229076872658150540375281798689505885954923282093328384 μ = 59765813344420464390041000242452490935392117361191775992151128630724624591085978443879473155302302371258569229076872658150540375281798689505885954923282093328384) (hw : Within μ σ x) :
    Within μ σ (sendHold blank x) := by
  unfold sendHold
  repeat' first
    | with_reducible assumption
    | with_reducible apply Within.refl
    | with_reducible apply Eq.refl
    | ((with_reducible apply fun k => sub_trans k hμ); exact rfl)
    | ((with_reducible apply sub_set hμ); exact rfl)
    | intro _
    | with_reducible apply Within.ite
    | with_reducible apply within_enqueue
    | with_reducible apply within_draw
    | with_reducible apply Within.forEach
    | with_reducible apply Within.foldl
    | (extract_lets +onlyGivenNames a; first | (refine Within.cutAny (μ := μ) (σ := σ) (a := a) ?_ ?_; all_goals (first | (intro ha; clear_value a) | (unfold a; clear a))) | skip)
    | split

theorem within_epEvent {μ : Nat} {σ x : State} (bit : ℕ) (ev : ℕ) (detail : ℕ)  (hμ : Nat.land 3529364097014649719715069748327721287828648423686176893604928525953767389164319917797510975255070323077702466094145096138338000536345889331885429909290093660160 μ = 3529364097014649719715069748327721287828648423686176893604928525953767389164319917797510975255070323077702466094145096138338000536345889331885429909290093660160) (hw : Within μ σ x) :
    Within μ σ (epEvent bit ev detail x) := by
  unfold epEvent
  repeat' first
    | with_reducible assumption
    | with_reducible apply Within.refl
    | with_reducible apply Eq.refl
    | ((with_reducible apply fun k => sub_trans k hμ); exact rfl)
    | ((with_reducible apply sub_set hμ); exact rfl)
    | intro _
    | with_reducible apply Within.ite
    | with_reducible apply within_raise
    | with_reducible apply within_setBit
    | with_reducible apply Within.foldl
    | (extract_lets +onlyGivenNames a; first | (refine Within.cutAny (μ := μ) (σ := σ) (a := a) ?_ ?_; all_goals (first | (intro ha; clear_value a) | (unfold a; clear a))) | skip)
    | split

theorem within_baseWrite {μ : Nat} {σ x : State} (stbl : Bool) (v : W32)  (hμ : Nat.land 3529364097014649719715069748327721287828648423686176893604928525953767389164319917797510975255070323077702466094145096138339360918122825456724104899328349325312 μ = 3529364097014649719715069748327721287828648423686176893604928525953767389164319917797510975255070323077702466094145096138339360918122825456724104899328349325312) (hw : Within μ σ x) :
    Within μ σ (baseWrite stbl v x) := by
  unfold baseWrite
  repeat' first
    | with_reducible assumption
    | with_reducible apply Within.refl
    | with_reducible apply Eq.refl
    | ((with_reducible apply fun k => sub_trans k hμ); exact rfl)
    | ((with_reducible apply sub_set hμ); exact rfl)
    | intro _
    | with_reducible apply Within.ite
    | with_reducible apply within_wr
    | with_reducible apply within_epEvent
    | with_reducible apply within_put
    | with_reducible apply Within.foldl
    | (extract_lets +onlyGivenNames a; first | (refine Within.cutAny (μ := μ) (σ := σ) (a := a) ?_ ?_; all_goals (first | (intro ha; clear_value a) | (unfold a; clear a))) | skip)
    | split

theorem within_kickWrite {μ : Nat} {σ x : State} (r : ℕ)  (hμ : Nat.land 28118211215894977392565865673037386617935606989386978956879722328823984879196799189494004288149317857187005691459505594520051662846839373056303219880407274094592 μ = 28118211215894977392565865673037386617935606989386978956879722328823984879196799189494004288149317857187005691459505594520051662846839373056303219880407274094592) (hw : Within μ σ x) :
    Within μ σ (kickWrite r x) := by
  unfold kickWrite
  repeat' first
    | with_reducible assumption
    | with_reducible apply Within.refl
    | with_reducible apply Eq.refl
    | ((with_reducible apply fun k => sub_trans k hμ); exact rfl)
    | ((with_reducible apply sub_set hμ); exact rfl)
    | ((with_reducible apply Or.inl); with_reducible apply Eq.refl)
    | ((with_reducible apply Or.inr); (with_reducible apply sub_set hμ); exact rfl)
    | intro _
    | with_reducible apply Within.ite
    | with_reducible apply Within.foldl
    | (extract_lets +onlyGivenNames a; first | (refine Within.cutAny (μ := μ) (σ := σ) (a := a) ?_ ?_; all_goals (first | (intro ha; clear_value a) | (unfold a; clear a))) | skip)
    | split
    | (with_reducible apply Within.upd)

theorem within_setDmx {μ : Nat} {σ x : State} (p : ℕ) (v : Dmx)  (hμ : Nat.land 56236422431789954785131731346074773235871213978773957913759444657647969758393598378988008576298635714374011382919011189040103325693678746112606439760814548189184 μ = 56236422431789954785131731346074773235871213978773957913759444657647969758393598378988008576298635714374011382919011189040103325693678746112606439760814548189184) (hw : Within μ σ x) :
    Within μ σ (setDmx p v x) := by
  unfold setDmx
  repeat' first
    | with_reducible assumption
    | with_reducible apply Within.refl
    | with_reducible apply Eq.refl
    | ((with_reducible apply fun k => sub_trans k hμ); exact rfl)
    | ((with_reducible apply sub_set hμ); exact rfl)
    | ((with_reducible apply Or.inl); with_reducible apply Eq.refl)
    | ((with_reducible apply Or.inr); (with_reducible apply sub_set hμ); exact rfl)
    | intro _
    | with_reducible apply Within.ite
    | with_reducible apply Within.foldl
    | (extract_lets +onlyGivenNames a; first | (refine Within.cutAny (μ := μ) (σ := σ) (a := a) ?_ ?_; all_goals (first | (intro ha; clear_value a) | (unfold a; clear a))) | skip)
    | split
    | (with_reducible apply Within.upd)

theorem within_sendProof {μ : Nat} {σ x : State} (m : Map W32) (c : ℕ) (ep : W32) (e : ℕ)  (hμ : Nat.land 87883997744699581897412666767439881141635469391847113764244095512425722026754717486279523839703023894638719540472661879698492989076864008500795089550511915943936 μ = 87883997744699581897412666767439881141635469391847113764244095512425722026754717486279523839703023894638719540472661879698492989076864008500795089550511915943936) (hw : Within μ σ x) :
    Within μ σ (sendProof m c ep e x) := by
  unfold sendProof
  repeat' first
    | with_reducible assumption
    | with_reducible apply Within.refl
    | with_reducible apply Eq.refl
    | ((with_reducible apply fun k => sub_trans k hμ); exact rfl)
    | ((with_reducible apply sub_set hμ); exact rfl)
    | intro _
    | with_reducible apply Within.ite
    | with_reducible apply within_epEvent
    | with_reducible apply within_bump
    | with_reducible apply within_sendUnicast
    | with_reducible apply Within.foldl
    | (extract_lets +onlyGivenNames a; first | (refine Within.cutAny (μ := μ) (σ := σ) (a := a) ?_ ?_; all_goals (first | (intro ha; clear_value a) | (unfold a; clear a))) | skip)
    | split

theorem within_sendDrive {μ : Nat} {σ x : State} (m : Map W32) (c : ℕ) (ep : W32) (k : ℕ) (e : ℕ)  (hμ : Nat.land 312829687471859401037939592151738974085120325306942945419281874143017601060329111002231558144897566752134765072148706635858903633395587423119475040979649548011520 μ = 312829687471859401037939592151738974085120325306942945419281874143017601060329111002231558144897566752134765072148706635858903633395587423119475040979649548011520) (hw : Within μ σ x) :
    Within μ σ (sendDrive m c ep k e x) := by
  unfold sendDrive
  repeat' first
    | with_reducible assumption
    | with_reducible apply Within.refl
    | with_reducible apply Eq.refl
    | ((with_reducible apply fun k => sub_trans k hμ); exact rfl)
    | ((with_reducible apply sub_set hμ); exact rfl)
    | intro _
    | with_reducible apply Within.ite
    | with_reducible apply within_sendUnicast
    | with_reducible apply within_wakeMem
    | with_reducible apply Within.foldl
    | (extract_lets +onlyGivenNames a; first | (refine Within.cutAny (μ := μ) (σ := σ) (a := a) ?_ ?_; all_goals (first | (intro ha; clear_value a) | (unfold a; clear a))) | skip)
    | split

theorem within_setEp {μ : Nat} {σ z : State} (e : ℕ) (x : EpSt)  (hμ : Nat.land 28118211215894977392565865673037386617935606989386978956879722328823984879196799189494004288149317857187005691459505594520051662846839373056303219880407274094592 μ = 28118211215894977392565865673037386617935606989386978956879722328823984879196799189494004288149317857187005691459505594520051662846839373056303219880407274094592) (hw : Within μ σ z) :
    Within μ σ (setEp e x z) := by
  unfold setEp
  repeat' first
    | with_reducible assumption
    | with_reducible apply Within.refl
    | with_reducible apply Eq.refl
    | ((with_reducible apply fun k => sub_trans k hμ); exact rfl)
    | ((with_reducible apply sub_set hμ); exact rfl)
    | ((with_reducible apply Or.inl); with_reducible apply Eq.refl)
    | ((with_reducible apply Or.inr); (with_reducible apply sub_set hμ); exact rfl)
    | intro _
    | with_reducible apply Within.ite
    | with_reducible apply Within.foldl
    | (extract_lets +onlyGivenNames a; first | (refine Within.cutAny (μ := μ) (σ := σ) (a := a) ?_ ?_; all_goals (first | (intro ha; clear_value a) | (unfold a; clear a))) | skip)
    | split
    | (with_reducible apply Within.upd)

theorem within_clearDmx {μ : Nat} {σ x : State} (c : ℕ) (e : Sys2Proof.W32) (m : Sys2Proof.Map Sys2Proof.W32)  (hμ : Nat.land 1757388200993436087035366604564836663620975436836686184804982645551499054949799949343375268009332366074187855716219099657503228927927460816018951242525454630912 μ = 1757388200993436087035366604564836663620975436836686184804982645551499054949799949343375268009332366074187855716219099657503228927927460816018951242525454630912) (hw : Within μ σ x) :
    Within μ σ (clearDmx c e m x) := by
  unfold clearDmx
  repeat' first
    | with_reducible assumption
    | with_reducible apply Within.refl
    | with_reducible apply Eq.refl
    | ((with_reducible apply fun k => sub_trans k hμ); exact rfl)
    | ((with_reducible apply sub_set hμ); exact rfl)
    | intro _
    | with_reducible apply Within.ite
    | with_reducible apply within_setCanvas
    | with_reducible apply Within.forEach
    | with_reducible apply Within.foldl
    | (extract_lets +onlyGivenNames a; first | (refine Within.cutAny (μ := μ) (σ := σ) (a := a) ?_ ?_; all_goals (first | (intro ha; clear_value a) | (unfold a; clear a))) | skip)
    | split

theorem within_sendEpoch {μ : Nat} {σ x : State} (c : ℕ) (slot : ℕ) (ep : W32) (prev : Option W32) (dirty : List ℕ) (k : ℕ)  (hμ : Nat.land 328646181280800325821257891592822504057709104238473121082526717952981092554877310546321935556981558046802455773594678532776435352202926140295391409776499200378880 μ = 328646181280800325821257891592822504057709104238473121082526717952981092554877310546321935556981558046802455773594678532776435352202926140295391409776499200378880) (hw : Within μ σ x) :
    Within μ σ (sendEpoch c slot ep prev dirty k x) := by
  unfold sendEpoch
  repeat' first
    | with_reducible assumption
    | with_reducible apply Within.refl
    | with_reducible apply Eq.refl
    | ((with_reducible apply fun k => sub_trans k hμ); exact rfl)
    | ((with_reducible apply sub_set hμ); exact rfl)
    | ((with_reducible apply Or.inl); with_reducible apply Eq.refl)
    | ((with_reducible apply Or.inr); (with_reducible apply sub_set hμ); exact rfl)
    | intro _
    | with_reducible apply Within.ite
    | with_reducible apply within_settleTiles
    | with_reducible apply within_sendProof
    | with_reducible apply within_sendDrive
    | with_reducible apply within_bump
    | with_reducible apply within_setEp
    | with_reducible apply within_clearDmx
    | with_reducible apply Within.forEach
    | with_reducible apply Within.foldl
    | (extract_lets +onlyGivenNames a; first | (refine Within.cutAny (μ := μ) (σ := σ) (a := a) ?_ ?_; all_goals (first | (intro ha; clear_value a) | (unfold a; clear a))) | skip)
    | split
    | (with_reducible apply Within.upd)

theorem within_blackoutWrite {μ : Nat} {σ x : State} (v : W32)  (hμ : Nat.land 87884024560315441782606865915489877553327724350578754949030850959548609470282777633373477443451620228445574920536378252670634573424503179870122096629618338449408 μ = 87884024560315441782606865915489877553327724350578754949030850959548609470282777633373477443451620228445574920536378252670634573424503179870122096629618338449408) (hw : Within μ σ x) :
    Within μ σ (blackoutWrite v x) := by
  unfold blackoutWrite
  repeat' first
    | with_reducible assumption
    | with_reducible apply Within.refl
    | with_reducible apply Eq.refl
    | ((with_reducible apply fun k => sub_trans k hμ); exact rfl)
    | ((with_reducible apply sub_set hμ); exact rfl)
    | ((with_reducible apply Or.inl); with_reducible apply Eq.refl)
    | ((with_reducible apply Or.inr); (with_reducible apply sub_set hμ); exact rfl)
    | intro _
    | with_reducible apply Within.ite
    | with_reducible apply within_put
    | with_reducible apply within_sendHold
    | with_reducible apply Within.foldl
    | (extract_lets +onlyGivenNames a; first | (refine Within.cutAny (μ := μ) (σ := σ) (a := a) ?_ ?_; all_goals (first | (intro ha; clear_value a) | (unfold a; clear a))) | skip)
    | split
    | (with_reducible apply Within.upd)

theorem within_univWrite {μ : Nat} {σ x : State} (pf : Bool) (u : ℕ) (v : W32)  (hμ : Nat.land 326888793079806889734222524988257667394088128801636434897721735307429593499927510596978560288972225680728267917878459434686950611590731163368113974134237875423232 μ = 326888793079806889734222524988257667394088128801636434897721735307429593499927510596978560288972225680728267917878459434686950611590731163368113974134237875423232) (hw : Within μ σ x) :
    Within μ σ (univWrite pf u v x) := by
  unfold univWrite
  repeat' first
    | with_reducible assumption
    | with_reducible apply Within.refl
    | with_reducible apply Eq.refl
    | ((with_reducible apply fun k => sub_trans k hμ); exact rfl)
    | ((with_reducible apply sub_set hμ); exact rfl)
    | ((with_reducible apply Or.inl); with_reducible apply Eq.refl)
    | ((with_reducible apply Or.inr); (with_reducible apply sub_set hμ); exact rfl)
    | intro _
    | with_reducible apply Within.ite
    | with_reducible apply within_sendUniv
    | with_reducible apply within_plainWrite
    | with_reducible apply Within.forEach
    | with_reducible apply Within.foldl
    | (extract_lets +onlyGivenNames a; first | (refine Within.cutAny (μ := μ) (σ := σ) (a := a) ?_ ?_; all_goals (first | (intro ha; clear_value a) | (unfold a; clear a))) | skip)
    | split
    | (with_reducible apply Within.upd)

end Sys2Proof.Machine
end

