-- ==== Sys2Proof/Laws/FootprintHost.lean ====
section
/-!
SUPPORT. Footprints of dispatch, of commands, of the host ports, of time and of the Vat.
-/

set_option linter.unreachableTactic false
set_option linter.unusedTactic false

namespace Sys2Proof.Machine

/-! ## Dispatching -/

theorem within_noteUndone {μ : Nat} {σ x : State} (c : ℕ)  (hμ : Nat.land 1757388200993436087035366604564836663620975436836686184804982645551499054949799949343375268009332366074187855716219099657503228927927460816018951242525454630912 μ = 1757388200993436087035366604564836663620975436836686184804982645551499054949799949343375268009332366074187855716219099657503228927927460816018951242525454630912) (hw : Within μ σ x) :
    Within μ σ (noteUndone c x) := by
  unfold noteUndone
  repeat' first
    | with_reducible assumption
    | with_reducible apply Within.refl
    | with_reducible apply Eq.refl
    | ((with_reducible apply fun k => sub_trans k hμ); exact rfl)
    | ((with_reducible apply sub_set hμ); exact rfl)
    | intro _
    | with_reducible apply Within.ite
    | with_reducible apply within_updRec
    | with_reducible apply Within.forEach
    | with_reducible apply Within.foldl
    | (extract_lets +onlyGivenNames a; first | (refine Within.cutAny (μ := μ) (σ := σ) (a := a) ?_ ?_; all_goals (first | (intro ha; clear_value a) | (unfold a; clear a))) | skip)
    | split

theorem within_disableCtx {μ : Nat} {σ x : State} (c : ℕ)  (hμ : Nat.land 1130900759831964030162617728477469522393901660589720507751410690110699596682644385077624867962882444614224189204360089007284693821333820149620109422069328740632576 μ = 1130900759831964030162617728477469522393901660589720507751410690110699596682644385077624867962882444614224189204360089007284693821333820149620109422069328740632576) (hw : Within μ σ x) :
    Within μ σ (disableCtx c x) := by
  unfold disableCtx
  repeat' first
    | with_reducible assumption
    | with_reducible apply Within.refl
    | with_reducible apply Eq.refl
    | ((with_reducible apply fun k => sub_trans k hμ); exact rfl)
    | ((with_reducible apply sub_set hμ); exact rfl)
    | ((with_reducible apply Or.inl); with_reducible apply Eq.refl)
    | ((with_reducible apply Or.inr); (with_reducible apply sub_set hμ); exact rfl)
    | intro _
    | with_reducible apply Within.ite
    | with_reducible apply within_closeCtx
    | with_reducible apply within_cancelCtx
    | with_reducible apply within_noteUndone
    | with_reducible apply Within.foldl
    | (extract_lets +onlyGivenNames a; first | (refine Within.cutAny (μ := μ) (σ := σ) (a := a) ?_ ?_; all_goals (first | (intro ha; clear_value a) | (unfold a; clear a))) | skip)
    | split
    | (with_reducible apply Within.upd)

theorem within_ctxWrite {μ : Nat} {σ x : State} (pf : Bool) (c : ℕ) (v : W32)  (hμ : Nat.land 1130904192230794095467475219427869063090510295307370579404115387342429189454236083905650929242702775341501677852515784747713712382327820007942015709083474298161152 μ = 1130904192230794095467475219427869063090510295307370579404115387342429189454236083905650929242702775341501677852515784747713712382327820007942015709083474298161152) (hw : Within μ σ x) :
    Within μ σ (ctxWrite pf c v x) := by
  unfold ctxWrite
  repeat' first
    | with_reducible assumption
    | with_reducible apply Within.refl
    | with_reducible apply Eq.refl
    | ((with_reducible apply fun k => sub_trans k hμ); exact rfl)
    | ((with_reducible apply sub_set hμ); exact rfl)
    | ((with_reducible apply Or.inl); with_reducible apply Eq.refl)
    | ((with_reducible apply Or.inr); (with_reducible apply sub_set hμ); exact rfl)
    | intro _
    | with_reducible apply Within.ite
    | with_reducible apply within_plainWrite
    | with_reducible apply within_disableCtx
    | with_reducible apply within_put
    | with_reducible apply Within.foldl
    | (extract_lets +onlyGivenNames a; first | (refine Within.cutAny (μ := μ) (σ := σ) (a := a) ?_ ?_; all_goals (first | (intro ha; clear_value a) | (unfold a; clear a))) | skip)
    | split
    | (with_reducible apply Within.upd)

theorem within_cancelWrite {μ : Nat} {σ x : State} (fn : ℕ) (v : Sys2Proof.W32) (same : Bool)  (hμ : Nat.land 1130900759831964030162617728477469522393901660589720507751410690110699596682644385077624867962882444614224189204360089007284693821333820149620109422069328740632576 μ = 1130900759831964030162617728477469522393901660589720507751410690110699596682644385077624867962882444614224189204360089007284693821333820149620109422069328740632576) (hw : Within μ σ x) :
    Within μ σ (cancelWrite fn v same x) := by
  unfold cancelWrite
  repeat' first
    | with_reducible assumption
    | with_reducible apply Within.refl
    | with_reducible apply Eq.refl
    | ((with_reducible apply fun k => sub_trans k hμ); exact rfl)
    | ((with_reducible apply sub_set hμ); exact rfl)
    | (intro hs; have q := fits_filter ‹_ ∈ List.filter _ _› ‹_› hs; exact q)
    | (intro hs; have q := fits_at ‹taskAt _ _ = some _› ‹_› hs; exact q)
    | (intro hs; have q := fits_on ‹taskOn _ _ = some _› ‹_› hs; exact q)
    | (intro hs; have q := fits_all ‹_ ∈ allTasks _› ‹_› hs; exact q)
    | (intro hs; have q := fits_all (List.mem_of_find?_eq_some ‹List.find? _ _ = some _›) ‹_› hs; exact q)
    | intro _
    | with_reducible apply Within.ite
    | with_reducible apply within_bump
    | with_reducible apply within_cancelBy
    | with_reducible apply Within.foldl
    | (extract_lets +onlyGivenNames a; first | (refine Within.cutAny (μ := μ) (σ := σ) (a := a) ?_ ?_; all_goals (first | (intro ha; clear_value a) | (unfold a; clear a))) | skip)
    | split

theorem within_kickSched {μ : Nat} {σ x : State} (fn : ℕ) (v : W32)  (hμ : Nat.land 4408058197511367763232753050610139619639136142104519986007419848729516916639219892469198609259736506114796393952254645967086956544318049908149101582204052457472 μ = 4408058197511367763232753050610139619639136142104519986007419848729516916639219892469198609259736506114796393952254645967086956544318049908149101582204052457472) (hw : Within μ σ x) :
    Within μ σ (kickSched fn v x) := by
  unfold kickSched
  repeat' first
    | with_reducible assumption
    | with_reducible apply Within.refl
    | with_reducible apply Eq.refl
    | ((with_reducible apply fun k => sub_trans k hμ); exact rfl)
    | ((with_reducible apply sub_set hμ); exact rfl)
    | intro _
    | with_reducible apply Within.ite
    | with_reducible apply within_denied
    | with_reducible apply within_releaseOne
    | with_reducible apply Within.foldl
    | (extract_lets +onlyGivenNames a; first | (refine Within.cutAny (μ := μ) (σ := σ) (a := a) ?_ ?_; all_goals (first | (intro ha; clear_value a) | (unfold a; clear a))) | skip)
    | split

theorem within_startRun {μ : Nat} {σ x : State} (k : ℕ) (t : Machine.Task) (ht : Sound σ → Fits t) (hμ : Nat.land 878694100496718043517683302282418331810487718418343092402491322775749527474899974671687634004666183037093927858109549828751614463963730408009475621262727315456 μ = 878694100496718043517683302282418331810487718418343092402491322775749527474899974671687634004666183037093927858109549828751614463963730408009475621262727315456) (hw : Within μ σ x) :
    Within μ σ (startRun k t x) := by
  unfold startRun
  repeat' first
    | with_reducible assumption
    | with_reducible apply Within.refl
    | with_reducible apply Eq.refl
    | ((with_reducible apply fun k => sub_trans k hμ); exact rfl)
    | ((with_reducible apply sub_set hμ); exact rfl)
    | exact (ht : Sound σ → Fits _)
    | (intro hs; have q := fits_filter ‹_ ∈ List.filter _ _› ‹_› hs; exact q)
    | (intro hs; have q := fits_at ‹taskAt _ _ = some _› ‹_› hs; exact q)
    | (intro hs; have q := fits_on ‹taskOn _ _ = some _› ‹_› hs; exact q)
    | (intro hs; have q := fits_all ‹_ ∈ allTasks _› ‹_› hs; exact q)
    | (intro hs; have q := fits_all (List.mem_of_find?_eq_some ‹List.find? _ _ = some _›) ‹_› hs; exact q)
    | intro _
    | with_reducible apply Within.ite
    | with_reducible apply within_setTask
    | with_reducible apply Within.foldl
    | (extract_lets +onlyGivenNames a; first | (refine Within.cutAny (μ := μ) (σ := σ) (a := a) ?_ ?_; all_goals (first | (intro ha; clear_value a) | (unfold a; clear a))) | skip)
    | split

/-! ## Commands -/

/-- What a command's start leaves alone. -/
def WithinEnd (m : Nat) (s : State) : CmdEnd → Prop
  | .runs t => Within m s t
  | .waits => True
  | .ends _ _ t => Within m s t

theorem WithinEnd.ends {m : Nat} {s t : State} {a : Nat} {b : W32} (h : Within m s t) : WithinEnd m s (.ends a b t) := h
theorem WithinEnd.runs {m : Nat} {s t : State} (h : Within m s t) : WithinEnd m s (.runs t) := h

theorem WithinEnd.ite {m : Nat} {s : State} {a b : CmdEnd} {c : Prop} {_ : Decidable c} (ha : WithinEnd m s a)
    (hb : WithinEnd m s b) : WithinEnd m s (if c then a else b) := by
  split
  · exact ha
  · exact hb

theorem within_badField {m : Nat} {s x : State} (h : Within m s x) : WithinEnd m s (badField x) := h

theorem within_cmdChange {μ : Nat} {σ x : State} (h : Cmd) (op : ℕ) (entry : List W32) (k : InKey) (value : W32) (buf : W32) (g : ATarget)  (hμ : Nat.land 1130900786647579890047811927625519518805593915548452148936197445557822484126172445224718825100325170504799703751018806866093827183809379621691904718497106285053952 μ = 1130900786647579890047811927625519518805593915548452148936197445557822484126172445224718825100325170504799703751018806866093827183809379621691904718497106285053952) (hw : Within μ σ x) :
    WithinEnd μ σ (cmdChange h op entry k value buf g x) := by
  unfold cmdChange
  repeat' first
    | with_reducible apply WithinEnd.ends
    | with_reducible apply WithinEnd.runs
    | with_reducible apply WithinEnd.ite
    | exact trivial
    | with_reducible assumption
    | with_reducible apply Within.refl
    | with_reducible apply Eq.refl
    | ((with_reducible apply fun k => sub_trans k hμ); exact rfl)
    | ((with_reducible apply sub_set hμ); exact rfl)
    | intro _
    | with_reducible apply Within.ite
    | with_reducible apply within_logChange
    | with_reducible apply within_waitChange
    | with_reducible apply Within.foldl
    | (extract_lets +onlyGivenNames a; first | (refine Within.cutAny (μ := μ) (σ := σ) (a := a) ?_ ?_; all_goals (first | (intro ha; clear_value a) | (unfold a; clear a))) | skip)
    | split

theorem within_cmdAlloc {μ : Nat} {σ x : State} (h : Cmd) (mib : W32)  (hμ : Nat.land 1128264704346089735917258877718672263810162452393197119658989971589495235543747745300703758664617042398919762800849476730770540685449694582289220884413646693746688 μ = 1128264704346089735917258877718672263810162452393197119658989971589495235543747745300703758664617042398919762800849476730770540685449694582289220884413646693746688) (hw : Within μ σ x) :
    WithinEnd μ σ (cmdAlloc h mib x) := by
  unfold cmdAlloc
  repeat' first
    | with_reducible apply WithinEnd.ends
    | with_reducible apply WithinEnd.runs
    | with_reducible apply WithinEnd.ite
    | exact trivial
    | with_reducible assumption
    | with_reducible apply Within.refl
    | with_reducible apply Eq.refl
    | ((with_reducible apply fun k => sub_trans k hμ); exact rfl)
    | ((with_reducible apply sub_set hμ); exact rfl)
    | ((with_reducible apply Or.inl); with_reducible apply Eq.refl)
    | ((with_reducible apply Or.inr); (with_reducible apply sub_set hμ); exact rfl)
    | with_reducible apply memWf_memZero
    | with_reducible apply memWf_memWrite
    | with_reducible apply memWf_memSet
    | intro _
    | with_reducible apply Within.ite
    | with_reducible apply within_badField
    | with_reducible apply within_draw
    | with_reducible apply within_refreshCtx
    | with_reducible apply within_fmemZero
    | with_reducible apply Within.foldl
    | (extract_lets +onlyGivenNames a; first | (refine Within.cutAny (μ := μ) (σ := σ) (a := a) ?_ ?_; all_goals (first | (intro ha; clear_value a) | (unfold a; clear a))) | skip)
    | split
    | (with_reducible apply Within.upd)

theorem within_cmdLayerSet {μ : Nat} {σ x : State} (h : Cmd) (layer : W32) (buf : W32) (tgt : Tgt)  (hμ : Nat.land 1130900786647579890047811927625519518805593915548452148936197445557822484126172445224718825100325170504799703751018806866093827183809379621691904718497106285053952 μ = 1130900786647579890047811927625519518805593915548452148936197445557822484126172445224718825100325170504799703751018806866093827183809379621691904718497106285053952) (hw : Within μ σ x) :
    WithinEnd μ σ (cmdLayerSet h layer buf tgt x) := by
  unfold cmdLayerSet
  repeat' first
    | with_reducible apply WithinEnd.ends
    | with_reducible apply WithinEnd.runs
    | with_reducible apply WithinEnd.ite
    | exact trivial
    | with_reducible assumption
    | with_reducible apply Within.refl
    | with_reducible apply Eq.refl
    | ((with_reducible apply fun k => sub_trans k hμ); exact rfl)
    | ((with_reducible apply sub_set hμ); exact rfl)
    | intro _
    | with_reducible apply Within.ite
    | with_reducible apply within_badField
    | with_reducible apply within_cmdChange
    | with_reducible apply Within.foldl
    | (extract_lets +onlyGivenNames a; first | (refine Within.cutAny (μ := μ) (σ := σ) (a := a) ?_ ?_; all_goals (first | (intro ha; clear_value a) | (unfold a; clear a))) | skip)
    | split

theorem within_doLayerSet {μ : Nat} {σ x : State} (row : Instr → Cmd → ℕ → List W32 → (Machine.State → CmdEnd) → Machine.State → Machine.State) (h : Cmd) (layer : W32) (buf : W32) (t : Tgt)  (hr : ∀ i h op entry body, (∀ y, Within μ σ y → WithinEnd μ σ (body y)) → Within μ σ (row i h op entry body x)) (hμ : Nat.land 1130900786647579890047811927625519518805593915548452148936197445557822484126172445224718825100325170504799703751018806866093827183809379621691904718497106285053952 μ = 1130900786647579890047811927625519518805593915548452148936197445557822484126172445224718825100325170504799703751018806866093827183809379621691904718497106285053952) (hw : Within μ σ x) :
    Within μ σ (doLayerSet row h layer buf t x) := by
  unfold doLayerSet
  apply hr
  intro y hy
  exact within_cmdLayerSet _ _ _ _ (sub_trans rfl hμ) hy

theorem within_setLayer {μ : Nat} {σ x : State} (n : ℕ) (l : Layer)  (hμ : Nat.land 3514776401986872174070733209129673327241950873673372369609965291102998109899599898686750536018664732148375711432438199315006457855854921632037902485050909261824 μ = 3514776401986872174070733209129673327241950873673372369609965291102998109899599898686750536018664732148375711432438199315006457855854921632037902485050909261824) (hw : Within μ σ x) :
    Within μ σ (setLayer n l x) := by
  unfold setLayer
  repeat' first
    | with_reducible assumption
    | with_reducible apply Within.refl
    | with_reducible apply Eq.refl
    | ((with_reducible apply fun k => sub_trans k hμ); exact rfl)
    | ((with_reducible apply sub_set hμ); exact rfl)
    | ((with_reducible apply Or.inl); with_reducible apply Eq.refl)
    | ((with_reducible apply Or.inr); (with_reducible apply sub_set hμ); exact rfl)
    | intro _
    | with_reducible apply Within.ite
    | with_reducible apply Within.foldl
    | (extract_lets +onlyGivenNames a; first | (refine Within.cutAny (μ := μ) (σ := σ) (a := a) ?_ ?_; all_goals (first | (intro ha; clear_value a) | (unfold a; clear a))) | skip)
    | split
    | (with_reducible apply Within.upd)

theorem within_startImport {μ : Nat} {σ x : State} (i : Sys2Proof.Machine.Import)  (hμ : Nat.land 3514776401986872174070733209129673327241950873673372369609965291102998109899599898686750536018664732148375711432438199315006457855854921632037902485050909261824 μ = 3514776401986872174070733209129673327241950873673372369609965291102998109899599898686750536018664732148375711432438199315006457855854921632037902485050909261824) (hw : Within μ σ x) :
    Within μ σ (startImport i x) := by
  unfold startImport
  repeat' first
    | with_reducible assumption
    | with_reducible apply Within.refl
    | with_reducible apply Eq.refl
    | ((with_reducible apply fun k => sub_trans k hμ); exact rfl)
    | ((with_reducible apply sub_set hμ); exact rfl)
    | ((with_reducible apply Or.inl); with_reducible apply Eq.refl)
    | ((with_reducible apply Or.inr); (with_reducible apply sub_set hμ); exact rfl)
    | intro _
    | with_reducible apply Within.ite
    | with_reducible apply Within.foldl
    | (extract_lets +onlyGivenNames a; first | (refine Within.cutAny (μ := μ) (σ := σ) (a := a) ?_ ?_; all_goals (first | (intro ha; clear_value a) | (unfold a; clear a))) | skip)
    | split
    | (with_reducible apply Within.upd)

theorem within_cmdImport {μ : Nat} {σ x : State} (a0 : Sys2Proof.Cmd) (entry : List Sys2Proof.W32) (layer : Sys2Proof.W32) (busLo : Sys2Proof.W32) (busHi : Sys2Proof.W32) (pitch : Sys2Proof.W32) (tgt : Sys2Proof.Tgt)  (hμ : Nat.land 3514776401986872174070733209129673327241950873673372369609965291102998109899599898686750536018664732148375711432438199315006457855854921632037902485050909261824 μ = 3514776401986872174070733209129673327241950873673372369609965291102998109899599898686750536018664732148375711432438199315006457855854921632037902485050909261824) (hw : Within μ σ x) :
    WithinEnd μ σ (cmdImport a0 entry layer busLo busHi pitch tgt x) := by
  unfold cmdImport
  repeat' first
    | with_reducible apply WithinEnd.ends
    | with_reducible apply WithinEnd.runs
    | with_reducible apply WithinEnd.ite
    | exact trivial
    | with_reducible assumption
    | with_reducible apply Within.refl
    | with_reducible apply Eq.refl
    | ((with_reducible apply fun k => sub_trans k hμ); exact rfl)
    | ((with_reducible apply sub_set hμ); exact rfl)
    | intro _
    | with_reducible apply Within.ite
    | with_reducible apply within_badField
    | with_reducible apply within_startImport
    | with_reducible apply Within.foldl
    | (extract_lets +onlyGivenNames a; first | (refine Within.cutAny (μ := μ) (σ := σ) (a := a) ?_ ?_; all_goals (first | (intro ha; clear_value a) | (unfold a; clear a))) | skip)
    | split

theorem within_doImport {μ : Nat} {σ x : State} (row : Instr → Cmd → ℕ → List W32 → (Machine.State → CmdEnd) → Machine.State → Machine.State) (h : Cmd) (layer : W32) (busLo : W32) (busHi : W32) (pitch : W32) (t : Tgt)  (hr : ∀ i h op entry body, (∀ y, Within μ σ y → WithinEnd μ σ (body y)) → Within μ σ (row i h op entry body x)) (hμ : Nat.land 3514776401986872174070733209129673327241950873673372369609965291102998109899599898686750536018664732148375711432438199315006457855854921632037902485050909261824 μ = 3514776401986872174070733209129673327241950873673372369609965291102998109899599898686750536018664732148375711432438199315006457855854921632037902485050909261824) (hw : Within μ σ x) :
    Within μ σ (doImport row h layer busLo busHi pitch t x) := by
  unfold doImport
  apply hr
  intro y hy
  exact within_cmdImport _ _ _ _ _ _ _ (sub_trans rfl hμ) hy

theorem within_cmdTask {μ : Nat} {σ x : State} (h : Cmd) (desc : List W32)  (hμ : Nat.land 4408058197511367763232753050610139619639136142104519986007419848729516916639219892469198609259736506114796393952254645967086956544318049908149097923029330053120 μ = 4408058197511367763232753050610139619639136142104519986007419848729516916639219892469198609259736506114796393952254645967086956544318049908149097923029330053120) (hw : Within μ σ x) :
    WithinEnd μ σ (cmdTask h desc x) := by
  unfold cmdTask
  repeat' first
    | with_reducible apply WithinEnd.ends
    | with_reducible apply WithinEnd.runs
    | with_reducible apply WithinEnd.ite
    | exact trivial
    | with_reducible assumption
    | with_reducible apply Within.refl
    | with_reducible apply Eq.refl
    | ((with_reducible apply fun k => sub_trans k hμ); exact rfl)
    | ((with_reducible apply sub_set hμ); exact rfl)
    | (intro hs; exact nextSlot_lt ‹_› hw hs)
    | intro _
    | with_reducible apply Within.ite
    | with_reducible apply within_badField
    | with_reducible apply within_createTask
    | with_reducible apply Within.foldl
    | (extract_lets +onlyGivenNames a; first | (refine Within.cutAny (μ := μ) (σ := σ) (a := a) ?_ ?_; all_goals (first | (intro ha; clear_value a) | (unfold a; clear a))) | skip)
    | split

theorem within_doTask {μ : Nat} {σ x : State} (row : Instr → Cmd → ℕ → List W32 → (Machine.State → CmdEnd) → Machine.State → Machine.State) (h : Cmd) (desc : List W32)  (hr : ∀ i h op entry body, (∀ y, Within μ σ y → WithinEnd μ σ (body y)) → Within μ σ (row i h op entry body x)) (hμ : Nat.land 4408058197511367763232753050610139619639136142104519986007419848729516916639219892469198609259736506114796393952254645967086956544318049908149097923029330053120 μ = 4408058197511367763232753050610139619639136142104519986007419848729516916639219892469198609259736506114796393952254645967086956544318049908149097923029330053120) (hw : Within μ σ x) :
    Within μ σ (doTask row h desc x) := by
  unfold doTask
  apply hr
  intro y hy
  exact within_cmdTask _ _ (sub_trans rfl hμ) hy

theorem within_holdCmd {μ : Nat} {σ x : State} (i : Instr) (r : ℕ)  (hμ : Nat.land 3514776401986872174070733209129673327241950873673372369609965291102998109899599898686750536018664732148375711432438199315006457855854921632037902485050909261824 μ = 3514776401986872174070733209129673327241950873673372369609965291102998109899599898686750536018664732148375711432438199315006457855854921632037902485050909261824) (hw : Within μ σ x) :
    Within μ σ (holdCmd i r x) := by
  unfold holdCmd
  repeat' first
    | with_reducible assumption
    | with_reducible apply Within.refl
    | with_reducible apply Eq.refl
    | ((with_reducible apply fun k => sub_trans k hμ); exact rfl)
    | ((with_reducible apply sub_set hμ); exact rfl)
    | ((with_reducible apply Or.inl); with_reducible apply Eq.refl)
    | ((with_reducible apply Or.inr); (with_reducible apply sub_set hμ); exact rfl)
    | intro _
    | with_reducible apply Within.ite
    | with_reducible apply Within.foldl
    | (extract_lets +onlyGivenNames a; first | (refine Within.cutAny (μ := μ) (σ := σ) (a := a) ?_ ?_; all_goals (first | (intro ha; clear_value a) | (unfold a; clear a))) | skip)
    | split
    | (with_reducible apply Within.upd)

theorem within_advanceHead {μ : Nat} {σ x : State} (r : ℕ) (n : ℕ)  (hμ : Nat.land 1024 μ = 1024) (hw : Within μ σ x) :
    Within μ σ (advanceHead r n x) := by
  unfold advanceHead
  repeat' first
    | with_reducible assumption
    | with_reducible apply Within.refl
    | with_reducible apply Eq.refl
    | ((with_reducible apply fun k => sub_trans k hμ); exact rfl)
    | ((with_reducible apply sub_set hμ); exact rfl)
    | intro _
    | with_reducible apply Within.ite
    | with_reducible apply within_put
    | with_reducible apply Within.foldl
    | (extract_lets +onlyGivenNames a; first | (refine Within.cutAny (μ := μ) (σ := σ) (a := a) ?_ ?_; all_goals (first | (intro ha; clear_value a) | (unfold a; clear a))) | skip)
    | split

theorem within_completeCmd {μ : Nat} {σ x : State} (h : Cmd) (op : ℕ) (span : ℕ) (status : ℕ) (result : W32)  (hμ : Nat.land 3529364097014649719715069748327721287828648423686176893604928525953767389164319917797510975255070323077702466094145096138335342080354319500139622295169532972032 μ = 3529364097014649719715069748327721287828648423686176893604928525953767389164319917797510975255070323077702466094145096138335342080354319500139622295169532972032) (hw : Within μ σ x) :
    Within μ σ (completeCmd h op span status result x) := by
  unfold completeCmd
  repeat' first
    | with_reducible assumption
    | with_reducible apply Within.refl
    | with_reducible apply Eq.refl
    | ((with_reducible apply fun k => sub_trans k hμ); exact rfl)
    | ((with_reducible apply sub_set hμ); exact rfl)
    | intro _
    | with_reducible apply Within.ite
    | with_reducible apply within_advanceHead
    | with_reducible apply within_produceOrWait
    | with_reducible apply within_raise
    | with_reducible apply within_bump
    | with_reducible apply Within.foldl
    | (extract_lets +onlyGivenNames a; first | (refine Within.cutAny (μ := μ) (σ := σ) (a := a) ?_ ?_; all_goals (first | (intro ha; clear_value a) | (unfold a; clear a))) | skip)
    | split

theorem within_journalCmd {μ : Nat} {σ x : State} (h : Cmd) (op : ℕ) (entry : List W32) (status : ℕ) (result : W32)  (hμ : Nat.land 112473702963287425896477835429749431645894586636960433740695063623228337709685121464982532476003227283962676821594324244325974017861411942890882728856427597660160 μ = 112473702963287425896477835429749431645894586636960433740695063623228337709685121464982532476003227283962676821594324244325974017861411942890882728856427597660160) (hw : Within μ σ x) :
    Within μ σ (journalCmd h op entry status result x) := by
  unfold journalCmd
  repeat' first
    | with_reducible assumption
    | with_reducible apply Within.refl
    | with_reducible apply Eq.refl
    | ((with_reducible apply fun k => sub_trans k hμ); exact rfl)
    | ((with_reducible apply sub_set hμ); exact rfl)
    | intro _
    | with_reducible apply Within.ite
    | with_reducible apply within_journal
    | with_reducible apply Within.foldl
    | (extract_lets +onlyGivenNames a; first | (refine Within.cutAny (μ := μ) (σ := σ) (a := a) ?_ ?_; all_goals (first | (intro ha; clear_value a) | (unfold a; clear a))) | skip)
    | split

theorem within_noteOrigin {μ : Nat} {σ x : State} (op : ℕ) (id : ℕ) (jseq : Sys2Proof.W32)  (hμ : Nat.land 112472844863579909570263462692149546471742427957547915827518889315295939516787196757976017152597271428748022765838022378080206651387357492225212879521629096378368 μ = 112472844863579909570263462692149546471742427957547915827518889315295939516787196757976017152597271428748022765838022378080206651387357492225212879521629096378368) (hw : Within μ σ x) :
    Within μ σ (noteOrigin op id jseq x) := by
  unfold noteOrigin
  repeat' first
    | with_reducible assumption
    | with_reducible apply Within.refl
    | with_reducible apply Eq.refl
    | ((with_reducible apply fun k => sub_trans k hμ); exact rfl)
    | ((with_reducible apply sub_set hμ); exact rfl)
    | ((with_reducible apply Or.inl); with_reducible apply Eq.refl)
    | ((with_reducible apply Or.inr); (with_reducible apply sub_set hμ); exact rfl)
    | intro _
    | with_reducible apply Within.ite
    | with_reducible apply Within.foldl
    | (extract_lets +onlyGivenNames a; first | (refine Within.cutAny (μ := μ) (σ := σ) (a := a) ?_ ?_; all_goals (first | (intro ha; clear_value a) | (unfold a; clear a))) | skip)
    | split
    | (with_reducible apply Within.upd)

theorem within_runCmdRow {μ : Nat} {σ x : State} (i : Instr) (h : Cmd) (op : Nat) (entry : List W32) (body : State → CmdEnd)
    (hb : ∀ y, Within μ σ y → WithinEnd μ σ (body y)) (hμ : Nat.land 116002208960594559289978532440477267759571076381234092721123817841249706905951516675773528131303214925221007125649545405357054719693266297810545779398060741250048 μ = 116002208960594559289978532440477267759571076381234092721123817841249706905951516675773528131303214925221007125649545405357054719693266297810545779398060741250048) (hw : Within μ σ x) :
    Within μ σ (runCmdRow i h op entry body x) := by
  have hbx := hb x hw
  unfold runCmdRow
  extract_lets r span
  with_reducible apply Within.ite
  · exact hw
  with_reducible apply Within.ite
  · repeat' first
    | with_reducible assumption
    | with_reducible apply Within.refl
    | with_reducible apply Eq.refl
    | ((with_reducible apply fun k => sub_trans k hμ); exact rfl)
    | ((with_reducible apply sub_set hμ); exact rfl)
    | intro _
    | with_reducible apply Within.ite
    | with_reducible apply within_holdCmd
    | with_reducible apply within_completeCmd
    | with_reducible apply within_journalCmd
    | with_reducible apply within_noteOrigin
    | with_reducible apply Within.foldl
    | (extract_lets +onlyGivenNames a; first | (refine Within.cutAny (μ := μ) (σ := σ) (a := a) ?_ ?_; all_goals (first | (intro ha; clear_value a) | (unfold a; clear a))) | skip)
    | split
  with_reducible apply Within.ite
  · repeat' first
    | with_reducible assumption
    | with_reducible apply Within.refl
    | with_reducible apply Eq.refl
    | ((with_reducible apply fun k => sub_trans k hμ); exact rfl)
    | ((with_reducible apply sub_set hμ); exact rfl)
    | intro _
    | with_reducible apply Within.ite
    | with_reducible apply within_holdCmd
    | with_reducible apply within_completeCmd
    | with_reducible apply within_journalCmd
    | with_reducible apply within_noteOrigin
    | with_reducible apply Within.foldl
    | (extract_lets +onlyGivenNames a; first | (refine Within.cutAny (μ := μ) (σ := σ) (a := a) ?_ ?_; all_goals (first | (intro ha; clear_value a) | (unfold a; clear a))) | skip)
    | split
  with_reducible apply Within.ite
  · repeat' first
    | with_reducible assumption
    | with_reducible apply Within.refl
    | with_reducible apply Eq.refl
    | ((with_reducible apply fun k => sub_trans k hμ); exact rfl)
    | ((with_reducible apply sub_set hμ); exact rfl)
    | intro _
    | with_reducible apply Within.ite
    | with_reducible apply within_holdCmd
    | with_reducible apply within_completeCmd
    | with_reducible apply within_journalCmd
    | with_reducible apply within_noteOrigin
    | with_reducible apply Within.foldl
    | (extract_lets +onlyGivenNames a; first | (refine Within.cutAny (μ := μ) (σ := σ) (a := a) ?_ ?_; all_goals (first | (intro ha; clear_value a) | (unfold a; clear a))) | skip)
    | split
  cases e : body x with
  | runs t => rw [e] at hbx; exact hbx
  | waits => repeat' first
    | with_reducible assumption
    | with_reducible apply Within.refl
    | with_reducible apply Eq.refl
    | ((with_reducible apply fun k => sub_trans k hμ); exact rfl)
    | ((with_reducible apply sub_set hμ); exact rfl)
    | intro _
    | with_reducible apply Within.ite
    | with_reducible apply within_holdCmd
    | with_reducible apply within_completeCmd
    | with_reducible apply within_journalCmd
    | with_reducible apply within_noteOrigin
    | with_reducible apply Within.foldl
    | (extract_lets +onlyGivenNames a; first | (refine Within.cutAny (μ := μ) (σ := σ) (a := a) ?_ ?_; all_goals (first | (intro ha; clear_value a) | (unfold a; clear a))) | skip)
    | split
  | ends st res t =>
    rw [e] at hbx
    have hbx : Within μ σ t := hbx
    repeat' first
    | with_reducible assumption
    | with_reducible apply Within.refl
    | with_reducible apply Eq.refl
    | ((with_reducible apply fun k => sub_trans k hμ); exact rfl)
    | ((with_reducible apply sub_set hμ); exact rfl)
    | intro _
    | with_reducible apply Within.ite
    | with_reducible apply within_holdCmd
    | with_reducible apply within_completeCmd
    | with_reducible apply within_journalCmd
    | with_reducible apply within_noteOrigin
    | with_reducible apply Within.foldl
    | (extract_lets +onlyGivenNames a; first | (refine Within.cutAny (μ := μ) (σ := σ) (a := a) ?_ ?_; all_goals (first | (intro ha; clear_value a) | (unfold a; clear a))) | skip)
    | split

theorem within_cmdCue {μ : Nat} {σ x : State} (h : Cmd) (index : W32) (value : W32) (tgt : Tgt)  (hμ : Nat.land 1130900786647579890047811927625519518805593915548452148936197445557822484126172445224718825100325170504799703751018806866093827183809379621691904718497106285053952 μ = 1130900786647579890047811927625519518805593915548452148936197445557822484126172445224718825100325170504799703751018806866093827183809379621691904718497106285053952) (hw : Within μ σ x) :
    WithinEnd μ σ (cmdCue h index value tgt x) := by
  unfold cmdCue
  repeat' first
    | with_reducible apply WithinEnd.ends
    | with_reducible apply WithinEnd.runs
    | with_reducible apply WithinEnd.ite
    | exact trivial
    | with_reducible assumption
    | with_reducible apply Within.refl
    | with_reducible apply Eq.refl
    | ((with_reducible apply fun k => sub_trans k hμ); exact rfl)
    | ((with_reducible apply sub_set hμ); exact rfl)
    | intro _
    | with_reducible apply Within.ite
    | with_reducible apply within_badField
    | with_reducible apply within_cmdChange
    | with_reducible apply Within.foldl
    | (extract_lets +onlyGivenNames a; first | (refine Within.cutAny (μ := μ) (σ := σ) (a := a) ?_ ?_; all_goals (first | (intro ha; clear_value a) | (unfold a; clear a))) | skip)
    | split

theorem within_doCue {μ : Nat} {σ x : State} (row : Instr → Cmd → ℕ → List W32 → (Machine.State → CmdEnd) → Machine.State → Machine.State) (h : Cmd) (index : W32) (value : W32) (t : Tgt)  (hr : ∀ i h op entry body, (∀ y, Within μ σ y → WithinEnd μ σ (body y)) → Within μ σ (row i h op entry body x)) (hμ : Nat.land 1130900786647579890047811927625519518805593915548452148936197445557822484126172445224718825100325170504799703751018806866093827183809379621691904718497106285053952 μ = 1130900786647579890047811927625519518805593915548452148936197445557822484126172445224718825100325170504799703751018806866093827183809379621691904718497106285053952) (hw : Within μ σ x) :
    Within μ σ (doCue row h index value t x) := by
  unfold doCue
  apply hr
  intro y hy
  exact within_cmdCue _ _ _ _ (sub_trans rfl hμ) hy

theorem within_doAlloc {μ : Nat} {σ x : State} (row : Instr → Cmd → ℕ → List W32 → (Machine.State → CmdEnd) → Machine.State → Machine.State) (h : Cmd) (mib : W32)  (hr : ∀ i h op entry body, (∀ y, Within μ σ y → WithinEnd μ σ (body y)) → Within μ σ (row i h op entry body x)) (hμ : Nat.land 1128264704346089735917258877718672263810162452393197119658989971589495235543747745300703758664617042398919762800849476730770540685449694582289220884413646693746688 μ = 1128264704346089735917258877718672263810162452393197119658989971589495235543747745300703758664617042398919762800849476730770540685449694582289220884413646693746688) (hw : Within μ σ x) :
    Within μ σ (doAlloc row h mib x) := by
  unfold doAlloc
  apply hr
  intro y hy
  exact within_cmdAlloc _ _ (sub_trans rfl hμ) hy

theorem within_cmdRetire {μ : Nat} {σ x : State} (h : Cmd) (addr : W32)  (hμ : Nat.land 3514776401986872174070733209129673327241950873673372369609965291102998109899599898686750536018664732148375711432438199315006457855854921632037902485050909261824 μ = 3514776401986872174070733209129673327241950873673372369609965291102998109899599898686750536018664732148375711432438199315006457855854921632037902485050909261824) (hw : Within μ σ x) :
    WithinEnd μ σ (cmdRetire h addr x) := by
  unfold cmdRetire
  repeat' first
    | with_reducible apply WithinEnd.ends
    | with_reducible apply WithinEnd.runs
    | with_reducible apply WithinEnd.ite
    | exact trivial
    | with_reducible assumption
    | with_reducible apply Within.refl
    | with_reducible apply Eq.refl
    | ((with_reducible apply fun k => sub_trans k hμ); exact rfl)
    | ((with_reducible apply sub_set hμ); exact rfl)
    | ((with_reducible apply Or.inl); with_reducible apply Eq.refl)
    | ((with_reducible apply Or.inr); (with_reducible apply sub_set hμ); exact rfl)
    | intro _
    | with_reducible apply Within.ite
    | with_reducible apply within_badField
    | with_reducible apply Within.foldl
    | (extract_lets +onlyGivenNames a; first | (refine Within.cutAny (μ := μ) (σ := σ) (a := a) ?_ ?_; all_goals (first | (intro ha; clear_value a) | (unfold a; clear a))) | skip)
    | split
    | (with_reducible apply Within.upd)

theorem within_doRetire {μ : Nat} {σ x : State} (row : Instr → Cmd → ℕ → List W32 → (Machine.State → CmdEnd) → Machine.State → Machine.State) (h : Cmd) (addr : W32)  (hr : ∀ i h op entry body, (∀ y, Within μ σ y → WithinEnd μ σ (body y)) → Within μ σ (row i h op entry body x)) (hμ : Nat.land 3514776401986872174070733209129673327241950873673372369609965291102998109899599898686750536018664732148375711432438199315006457855854921632037902485050909261824 μ = 3514776401986872174070733209129673327241950873673372369609965291102998109899599898686750536018664732148375711432438199315006457855854921632037902485050909261824) (hw : Within μ σ x) :
    Within μ σ (doRetire row h addr x) := by
  unfold doRetire
  apply hr
  intro y hy
  exact within_cmdRetire _ _ (sub_trans rfl hμ) hy

theorem within_cmdLayerNew {μ : Nat} {σ x : State} (h : Cmd) (layer : W32) (size : W32) (form : W32) (pool : W32) (nbuf : W32)  (hμ : Nat.land 1128264677530473876032064678570622267398470197434465478474203216142372348100219685153609805060868446065112907420785760357798438977941928958396080991546348682496000 μ = 1128264677530473876032064678570622267398470197434465478474203216142372348100219685153609805060868446065112907420785760357798438977941928958396080991546348682496000) (hw : Within μ σ x) :
    WithinEnd μ σ (cmdLayerNew h layer size form pool nbuf x) := by
  unfold cmdLayerNew
  repeat' first
    | with_reducible apply WithinEnd.ends
    | with_reducible apply WithinEnd.runs
    | with_reducible apply WithinEnd.ite
    | exact trivial
    | with_reducible assumption
    | with_reducible apply Within.refl
    | with_reducible apply Eq.refl
    | ((with_reducible apply fun k => sub_trans k hμ); exact rfl)
    | ((with_reducible apply sub_set hμ); exact rfl)
    | with_reducible apply memWf_memZero
    | with_reducible apply memWf_memWrite
    | with_reducible apply memWf_memSet
    | intro _
    | with_reducible apply Within.ite
    | with_reducible apply within_badField
    | with_reducible apply within_setLayer
    | with_reducible apply within_wr
    | with_reducible apply within_refreshCtx
    | with_reducible apply within_fmemZero
    | with_reducible apply Within.foldl
    | (extract_lets +onlyGivenNames a; first | (refine Within.cutAny (μ := μ) (σ := σ) (a := a) ?_ ?_; all_goals (first | (intro ha; clear_value a) | (unfold a; clear a))) | skip)
    | split

theorem within_doLayerNew {μ : Nat} {σ x : State} (row : Instr → Cmd → ℕ → List W32 → (Machine.State → CmdEnd) → Machine.State → Machine.State) (h : Cmd) (layer : W32) (size : W32) (form : W32) (pool : W32) (nbuf : W32)  (hr : ∀ i h op entry body, (∀ y, Within μ σ y → WithinEnd μ σ (body y)) → Within μ σ (row i h op entry body x)) (hμ : Nat.land 1128264677530473876032064678570622267398470197434465478474203216142372348100219685153609805060868446065112907420785760357798438977941928958396080991546348682496000 μ = 1128264677530473876032064678570622267398470197434465478474203216142372348100219685153609805060868446065112907420785760357798438977941928958396080991546348682496000) (hw : Within μ σ x) :
    Within μ σ (doLayerNew row h layer size form pool nbuf x) := by
  unfold doLayerNew
  apply hr
  intro y hy
  exact within_cmdLayerNew _ _ _ _ _ _ (sub_trans rfl hμ) hy

theorem within_rekeyLayer {μ : Nat} {σ x : State} (n : ℕ) (idx : ℕ)  (hμ : Nat.land 1757388200993436087035366604564836663620975436836686184804982645551499054949799949343375268009332366074187855716219099657503228927927460816018951242525454630912 μ = 1757388200993436087035366604564836663620975436836686184804982645551499054949799949343375268009332366074187855716219099657503228927927460816018951242525454630912) (hw : Within μ σ x) :
    Within μ σ (rekeyLayer n idx x) := by
  unfold rekeyLayer
  repeat' first
    | with_reducible assumption
    | with_reducible apply Within.refl
    | with_reducible apply Eq.refl
    | ((with_reducible apply fun k => sub_trans k hμ); exact rfl)
    | ((with_reducible apply sub_set hμ); exact rfl)
    | ((with_reducible apply Or.inl); with_reducible apply Eq.refl)
    | ((with_reducible apply Or.inr); (with_reducible apply sub_set hμ); exact rfl)
    | intro _
    | with_reducible apply Within.ite
    | with_reducible apply Within.foldl
    | (extract_lets +onlyGivenNames a; first | (refine Within.cutAny (μ := μ) (σ := σ) (a := a) ?_ ?_; all_goals (first | (intro ha; clear_value a) | (unfold a; clear a))) | skip)
    | split
    | (with_reducible apply Within.upd)

theorem within_cmdLayerDel {μ : Nat} {σ x : State} (h : Cmd) (layer : W32)  (hμ : Nat.land 5286752298008085806750436352892557951449623860522863078409911171505266444114119867140886243264402689151890321810364195795838571008281780316158573544292057761792 μ = 5286752298008085806750436352892557951449623860522863078409911171505266444114119867140886243264402689151890321810364195795838571008281780316158573544292057761792) (hw : Within μ σ x) :
    WithinEnd μ σ (cmdLayerDel h layer x) := by
  unfold cmdLayerDel
  repeat' first
    | with_reducible apply WithinEnd.ends
    | with_reducible apply WithinEnd.runs
    | with_reducible apply WithinEnd.ite
    | exact trivial
    | with_reducible assumption
    | with_reducible apply Within.refl
    | with_reducible apply Eq.refl
    | ((with_reducible apply fun k => sub_trans k hμ); exact rfl)
    | ((with_reducible apply sub_set hμ); exact rfl)
    | ((with_reducible apply Or.inl); with_reducible apply Eq.refl)
    | ((with_reducible apply Or.inr); (with_reducible apply sub_set hμ); exact rfl)
    | intro _
    | with_reducible apply Within.ite
    | with_reducible apply within_badField
    | with_reducible apply within_refreshCtx
    | with_reducible apply within_wr
    | with_reducible apply within_rekeyLayer
    | with_reducible apply Within.foldl
    | (extract_lets +onlyGivenNames a; first | (refine Within.cutAny (μ := μ) (σ := σ) (a := a) ?_ ?_; all_goals (first | (intro ha; clear_value a) | (unfold a; clear a))) | skip)
    | split
    | (with_reducible apply Within.upd)

theorem within_doLayerDel {μ : Nat} {σ x : State} (row : Instr → Cmd → ℕ → List W32 → (Machine.State → CmdEnd) → Machine.State → Machine.State) (h : Cmd) (layer : W32)  (hr : ∀ i h op entry body, (∀ y, Within μ σ y → WithinEnd μ σ (body y)) → Within μ σ (row i h op entry body x)) (hμ : Nat.land 5286752298008085806750436352892557951449623860522863078409911171505266444114119867140886243264402689151890321810364195795838571008281780316158573544292057761792 μ = 5286752298008085806750436352892557951449623860522863078409911171505266444114119867140886243264402689151890321810364195795838571008281780316158573544292057761792) (hw : Within μ σ x) :
    Within μ σ (doLayerDel row h layer x) := by
  unfold doLayerDel
  apply hr
  intro y hy
  exact within_cmdLayerDel _ _ (sub_trans rfl hμ) hy

theorem within_badEntry {μ : Nat} {σ x : State} (h : Cmd) (op : Byte) (ext : Bool) (poisoned : Bool)  (hμ : Nat.land 3529364097014649719715069748327721287828648423686176893604928525953767389164319917797510975255070323077702466094145096138335342080354319500139622295169532972032 μ = 3529364097014649719715069748327721287828648423686176893604928525953767389164319917797510975255070323077702466094145096138335342080354319500139622295169532972032) (hw : Within μ σ x) :
    Within μ σ (badEntry h op ext poisoned x) := by
  unfold badEntry
  repeat' first
    | with_reducible assumption
    | with_reducible apply Within.refl
    | with_reducible apply Eq.refl
    | ((with_reducible apply fun k => sub_trans k hμ); exact rfl)
    | ((with_reducible apply sub_set hμ); exact rfl)
    | intro _
    | with_reducible apply Within.ite
    | with_reducible apply within_holdCmd
    | with_reducible apply within_completeCmd
    | with_reducible apply within_raise0
    | with_reducible apply within_notePoison
    | with_reducible apply Within.foldl
    | (extract_lets +onlyGivenNames a; first | (refine Within.cutAny (μ := μ) (σ := σ) (a := a) ?_ ?_; all_goals (first | (intro ha; clear_value a) | (unfold a; clear a))) | skip)
    | split

theorem within_retryCmd {μ : Nat} {σ x : State} (i : Instr)  (hμ : Nat.land 1243373631511159799618075390317669065277336343506000064763716334873118423642959641982694842256373315106943008410574207175312546561422291600002310875599997493988352 μ = 1243373631511159799618075390317669065277336343506000064763716334873118423642959641982694842256373315106943008410574207175312546561422291600002310875599997493988352) (hw : Within μ σ x) :
    Within μ σ (retryCmd i x) := by
  unfold retryCmd
  repeat' first
    | with_reducible assumption
    | with_reducible apply Within.refl
    | with_reducible apply Eq.refl
    | ((with_reducible apply fun k => sub_trans k hμ); exact rfl)
    | ((with_reducible apply sub_set hμ); exact rfl)
    | (intro i h op entry body hb; with_reducible apply within_runCmdRow; with_reducible assumption)
    | intro _
    | with_reducible apply Within.ite
    | with_reducible apply within_doTask
    | with_reducible apply within_runCmdRow
    | with_reducible apply within_doCue
    | with_reducible apply within_doAlloc
    | with_reducible apply within_doRetire
    | with_reducible apply within_doLayerNew
    | with_reducible apply within_doLayerSet
    | with_reducible apply within_doImport
    | with_reducible apply within_doLayerDel
    | with_reducible apply within_badEntry
    | with_reducible apply Within.foldl
    | (extract_lets +onlyGivenNames a; first | (refine Within.cutAny (μ := μ) (σ := σ) (a := a) ?_ ?_; all_goals (first | (intro ha; clear_value a) | (unfold a; clear a))) | skip)
    | split

theorem within_resumeOne {μ : Nat} {σ x : State} (r : ℕ) (w : CplWait)  (hμ : Nat.land 1243373631511159799618075390317669065277336343506000064763716334873118423642959641982694842256373315106943008410574207175312546561422291600002310875599997493988352 μ = 1243373631511159799618075390317669065277336343506000064763716334873118423642959641982694842256373315106943008410574207175312546561422291600002310875599997493988352) (hw : Within μ σ x) :
    Within μ σ (resumeOne r w x) := by
  unfold resumeOne
  repeat' first
    | with_reducible assumption
    | with_reducible apply Within.refl
    | with_reducible apply Eq.refl
    | ((with_reducible apply fun k => sub_trans k hμ); exact rfl)
    | ((with_reducible apply sub_set hμ); exact rfl)
    | ((with_reducible apply Or.inl); with_reducible apply Eq.refl)
    | ((with_reducible apply Or.inr); (with_reducible apply sub_set hμ); exact rfl)
    | intro _
    | with_reducible apply Within.ite
    | with_reducible apply within_ringProduce
    | with_reducible apply within_retryCmd
    | with_reducible apply Within.foldl
    | (extract_lets +onlyGivenNames a; first | (refine Within.cutAny (μ := μ) (σ := σ) (a := a) ?_ ?_; all_goals (first | (intro ha; clear_value a) | (unfold a; clear a))) | skip)
    | split
    | (with_reducible apply Within.upd)

theorem within_cmdRow {μ : Nat} {σ x : State} (i : Instr) (h : Cmd) (op : Nat) (entry : List W32) (body : State → CmdEnd)
    (hb : ∀ y, Within μ σ y → WithinEnd μ σ (body y)) (hμ : Nat.land 116002208960594559289978532440477267759571076381234092721123817841249706905951516675773528131303214925221007125649545405357054719693266297810545779398060741250048 μ = 116002208960594559289978532440477267759571076381234092721123817841249706905951516675773528131303214925221007125649545405357054719693266297810545779398060741250048) (hw : Within μ σ x) :
    Within μ σ (cmdRow i h op entry body x) := by
  unfold cmdRow
  with_reducible apply Within.ite
  · exact hw
  · exact within_runCmdRow _ _ _ _ _ hb hμ hw

theorem within_journalChunks {μ : Nat} {σ x : State} (n : ℕ) (ver : Sys2Proof.W32) (buf : Sys2Proof.W32) (a3 : ℕ) (a4 : ℕ) (a5 : List Sys2Proof.Byte)  (hμ : Nat.land 112473702963287425896477835429749431645894586636960433740695063623228337709685121464982532476003227283962676821594324244325974017861411942890882728856427597660160 μ = 112473702963287425896477835429749431645894586636960433740695063623228337709685121464982532476003227283962676821594324244325974017861411942890882728856427597660160) (hw : Within μ σ x) :
    Within μ σ (journalChunks n ver buf a3 a4 a5 x) := by
  induction a3 generalizing x a4 a5 with
  | zero => exact hw
  | succ k ih =>
   unfold journalChunks
   repeat' first
    | with_reducible assumption
    | with_reducible apply Within.refl
    | with_reducible apply Eq.refl
    | ((with_reducible apply fun k => sub_trans k hμ); exact rfl)
    | ((with_reducible apply sub_set hμ); exact rfl)
    | intro _
    | with_reducible apply Within.ite
    | with_reducible apply within_journal
    | (with_reducible apply ih)
    | with_reducible apply Within.foldl
    | (extract_lets +onlyGivenNames a; first | (refine Within.cutAny (μ := μ) (σ := σ) (a := a) ?_ ?_; all_goals (first | (intro ha; clear_value a) | (unfold a; clear a))) | skip)
    | split

theorem within_journalLayer {μ : Nat} {σ x : State} (n : ℕ) (ver : W32) (buf : W32) (data : List Byte)  (hμ : Nat.land 112473702963287425896477835429749431645894586636960433740695063623228337709685121464982532476003227283962676821594324244325974017861411942890882728856427597660160 μ = 112473702963287425896477835429749431645894586636960433740695063623228337709685121464982532476003227283962676821594324244325974017861411942890882728856427597660160) (hw : Within μ σ x) :
    Within μ σ (journalLayer n ver buf data x) := by
  unfold journalLayer
  repeat' first
    | with_reducible assumption
    | with_reducible apply Within.refl
    | with_reducible apply Eq.refl
    | ((with_reducible apply fun k => sub_trans k hμ); exact rfl)
    | ((with_reducible apply sub_set hμ); exact rfl)
    | intro _
    | with_reducible apply Within.ite
    | with_reducible apply within_journalChunks
    | with_reducible apply Within.foldl
    | (extract_lets +onlyGivenNames a; first | (refine Within.cutAny (μ := μ) (σ := σ) (a := a) ?_ ?_; all_goals (first | (intro ha; clear_value a) | (unfold a; clear a))) | skip)
    | split

theorem within_autoImports {μ : Nat} {σ x : State} (c : ℕ) (wp : W32)  (hμ : Nat.land 3514776401986872174070733209129673327241950873673372369609965291102998109899599898686750536018664732148375711432438199315006457855854921632037902485050909261824 μ = 3514776401986872174070733209129673327241950873673372369609965291102998109899599898686750536018664732148375711432438199315006457855854921632037902485050909261824) (hw : Within μ σ x) :
    Within μ σ (autoImports c wp x) := by
  unfold autoImports
  repeat' first
    | with_reducible assumption
    | with_reducible apply Within.refl
    | with_reducible apply Eq.refl
    | ((with_reducible apply fun k => sub_trans k hμ); exact rfl)
    | ((with_reducible apply sub_set hμ); exact rfl)
    | intro _
    | with_reducible apply Within.ite
    | with_reducible apply within_startImport
    | with_reducible apply Within.forEach
    | with_reducible apply Within.foldl
    | (extract_lets +onlyGivenNames a; first | (refine Within.cutAny (μ := μ) (σ := σ) (a := a) ?_ ?_; all_goals (first | (intro ha; clear_value a) | (unfold a; clear a))) | skip)
    | split

theorem within_resumeTasks {μ : Nat} {σ x : State} (r : ℕ)  (hμ : Nat.land 4408058197511367763232753050610139619639136142104519986007419848729516916639219892469198609259736506114796393952254645967086956544318049908149097923046509922304 μ = 4408058197511367763232753050610139619639136142104519986007419848729516916639219892469198609259736506114796393952254645967086956544318049908149097923046509922304) (hw : Within μ σ x) :
    Within μ σ (resumeTasks r x) := by
  unfold resumeTasks
  repeat' first
    | with_reducible assumption
    | with_reducible apply Within.refl
    | with_reducible apply Eq.refl
    | ((with_reducible apply fun k => sub_trans k hμ); exact rfl)
    | ((with_reducible apply sub_set hμ); exact rfl)
    | (intro hs; have q := fits_filter ‹_ ∈ List.filter _ _› ‹_› hs; exact q)
    | (intro hs; have q := fits_at ‹taskAt _ _ = some _› ‹_› hs; exact q)
    | (intro hs; have q := fits_on ‹taskOn _ _ = some _› ‹_› hs; exact q)
    | (intro hs; have q := fits_all ‹_ ∈ allTasks _› ‹_› hs; exact q)
    | (intro hs; have q := fits_all (List.mem_of_find?_eq_some ‹List.find? _ _ = some _›) ‹_› hs; exact q)
    | intro _
    | with_reducible apply Within.ite
    | with_reducible apply within_freeTask
    | with_reducible apply within_writeTaskRecord
    | with_reducible apply Within.forEachMem
    | with_reducible apply Within.foldl
    | (extract_lets +onlyGivenNames a; first | (refine Within.cutAny (μ := μ) (σ := σ) (a := a) ?_ ?_; all_goals (first | (intro ha; clear_value a) | (unfold a; clear a))) | skip)
    | split

/-! ## HostPorts -/

theorem within_setPosted {μ : Nat} {σ x : State} (r : ℕ) (q : List RxPost)  (hμ : Nat.land 3514776401986872174070733209129673327241950873673372369609965291102998109899599898686750536018664732148375711432438199315006457855854921632037902485050909261824 μ = 3514776401986872174070733209129673327241950873673372369609965291102998109899599898686750536018664732148375711432438199315006457855854921632037902485050909261824) (hw : Within μ σ x) :
    Within μ σ (setPosted r q x) := by
  unfold setPosted
  repeat' first
    | with_reducible assumption
    | with_reducible apply Within.refl
    | with_reducible apply Eq.refl
    | ((with_reducible apply fun k => sub_trans k hμ); exact rfl)
    | ((with_reducible apply sub_set hμ); exact rfl)
    | ((with_reducible apply Or.inl); with_reducible apply Eq.refl)
    | ((with_reducible apply Or.inr); (with_reducible apply sub_set hμ); exact rfl)
    | intro _
    | with_reducible apply Within.ite
    | with_reducible apply Within.foldl
    | (extract_lets +onlyGivenNames a; first | (refine Within.cutAny (μ := μ) (σ := σ) (a := a) ?_ ?_; all_goals (first | (intro ha; clear_value a) | (unfold a; clear a))) | skip)
    | split
    | (with_reducible apply Within.upd)

theorem within_rxWriteBack {μ : Nat} {σ x : State} (r : ℕ) (w2 : ℕ) (w3 : ℕ) (ts : W64) (frac : ℕ) (flen : ℕ)  (hμ : Nat.land 3528505997307133393500697010727836113676489744273658980428754218021369196266395210790995655299987641258330304055221161031080701831854354919663050541633139377152 μ = 3528505997307133393500697010727836113676489744273658980428754218021369196266395210790995655299987641258330304055221161031080701831854354919663050541633139377152) (hw : Within μ σ x) :
    Within μ σ (rxWriteBack r w2 w3 ts frac flen x) := by
  unfold rxWriteBack
  repeat' first
    | with_reducible assumption
    | with_reducible apply Within.refl
    | with_reducible apply Eq.refl
    | ((with_reducible apply fun k => sub_trans k hμ); exact rfl)
    | ((with_reducible apply sub_set hμ); exact rfl)
    | intro _
    | with_reducible apply Within.ite
    | with_reducible apply within_hmemPut
    | with_reducible apply within_setPosted
    | with_reducible apply within_advanceHead
    | with_reducible apply Within.foldl
    | (extract_lets +onlyGivenNames a; first | (refine Within.cutAny (μ := μ) (σ := σ) (a := a) ?_ ?_; all_goals (first | (intro ha; clear_value a) | (unfold a; clear a))) | skip)
    | split

theorem within_ringErr {μ : Nat} {σ x : State} (r : ℕ)  (hμ : Nat.land 3529364097014649719715069748327721287828648423686176893604928525953767389164319917797510975255070323077702466094145096138335342080354319500139622295169532971008 μ = 3529364097014649719715069748327721287828648423686176893604928525953767389164319917797510975255070323077702466094145096138335342080354319500139622295169532971008) (hw : Within μ σ x) :
    Within μ σ (ringErr r x) := by
  unfold ringErr
  repeat' first
    | with_reducible assumption
    | with_reducible apply Within.refl
    | with_reducible apply Eq.refl
    | ((with_reducible apply fun k => sub_trans k hμ); exact rfl)
    | ((with_reducible apply sub_set hμ); exact rfl)
    | intro _
    | with_reducible apply Within.ite
    | with_reducible apply within_raise
    | with_reducible apply Within.foldl
    | (extract_lets +onlyGivenNames a; first | (refine Within.cutAny (μ := μ) (σ := σ) (a := a) ?_ ?_; all_goals (first | (intro ha; clear_value a) | (unfold a; clear a))) | skip)
    | split

theorem within_ringTailEffect {μ : Nat} {σ x : State} (r : ℕ) (v : W32) (posted : List RxPost)  (hμ : Nat.land 3529364097014649719715069748327721287828648423686176893604928525953767389164319917797510975255070323077702466094145096138335342080354319500139622295169532971008 μ = 3529364097014649719715069748327721287828648423686176893604928525953767389164319917797510975255070323077702466094145096138335342080354319500139622295169532971008) (hw : Within μ σ x) :
    Within μ σ (ringTailEffect r v posted x) := by
  unfold ringTailEffect
  repeat' first
    | with_reducible assumption
    | with_reducible apply Within.refl
    | with_reducible apply Eq.refl
    | ((with_reducible apply fun k => sub_trans k hμ); exact rfl)
    | ((with_reducible apply sub_set hμ); exact rfl)
    | intro _
    | with_reducible apply Within.ite
    | with_reducible apply within_ringErr
    | with_reducible apply within_put
    | with_reducible apply within_setPosted
    | with_reducible apply within_raise
    | with_reducible apply within_setBit
    | with_reducible apply Within.foldl
    | (extract_lets +onlyGivenNames a; first | (refine Within.cutAny (μ := μ) (σ := σ) (a := a) ?_ ?_; all_goals (first | (intro ha; clear_value a) | (unfold a; clear a))) | skip)
    | split

theorem within_rxFlush {μ : Nat} {σ x : State} (r : ℕ) (a1 : ℕ)  (hμ : Nat.land 3528505997307133393500697010727836113676489744273658980428754218021369196266395210790995655299987641258330304055221161031080701831854354919663050541633139377152 μ = 3528505997307133393500697010727836113676489744273658980428754218021369196266395210790995655299987641258330304055221161031080701831854354919663050541633139377152) (hw : Within μ σ x) :
    Within μ σ (rxFlush r a1 x) := by
  induction a1 generalizing x with
  | zero => exact hw
  | succ n ih =>
    unfold rxFlush
    repeat' first
    | with_reducible assumption
    | with_reducible apply Within.refl
    | with_reducible apply Eq.refl
    | ((with_reducible apply fun k => sub_trans k hμ); exact rfl)
    | ((with_reducible apply sub_set hμ); exact rfl)
    | (with_reducible apply ih)
    | intro _
    | with_reducible apply Within.ite
    | with_reducible apply within_rxWriteBack
    | with_reducible apply Within.foldl
    | (extract_lets +onlyGivenNames a; first | (refine Within.cutAny (μ := μ) (σ := σ) (a := a) ?_ ?_; all_goals (first | (intro ha; clear_value a) | (unfold a; clear a))) | skip)
    | split

theorem within_journalMem {μ : Nat} {σ x : State} (addr : ℕ) (data : List Byte)  (hμ : Nat.land 112473702963287425896477835429749431645894586636960433740695063623228337709685121464982532476003227283962676821594324244325974017861411942890882728856427597660160 μ = 112473702963287425896477835429749431645894586636960433740695063623228337709685121464982532476003227283962676821594324244325974017861411942890882728856427597660160) (hw : Within μ σ x) :
    Within μ σ (journalMem addr data x) := by
  unfold journalMem
  repeat' first
    | with_reducible assumption
    | with_reducible apply Within.refl
    | with_reducible apply Eq.refl
    | ((with_reducible apply fun k => sub_trans k hμ); exact rfl)
    | ((with_reducible apply sub_set hμ); exact rfl)
    | intro _
    | with_reducible apply Within.ite
    | with_reducible apply within_journal
    | with_reducible apply Within.foldl
    | (extract_lets +onlyGivenNames a; first | (refine Within.cutAny (μ := μ) (σ := σ) (a := a) ?_ ?_; all_goals (first | (intro ha; clear_value a) | (unfold a; clear a))) | skip)
    | split

theorem within_flushWrite {μ : Nat} {σ x : State} (r : ℕ)  (hμ : Nat.land 32 μ = 32) (hw : Within μ σ x) :
    Within μ σ (flushWrite r x) := by
  unfold flushWrite
  repeat' first
    | with_reducible assumption
    | with_reducible apply Within.refl
    | with_reducible apply Eq.refl
    | ((with_reducible apply fun k => sub_trans k hμ); exact rfl)
    | ((with_reducible apply sub_set hμ); exact rfl)
    | intro _
    | with_reducible apply Within.ite
    | with_reducible apply within_put
    | with_reducible apply Within.foldl
    | (extract_lets +onlyGivenNames a; first | (refine Within.cutAny (μ := μ) (σ := σ) (a := a) ?_ ?_; all_goals (first | (intro ha; clear_value a) | (unfold a; clear a))) | skip)
    | split

theorem within_dropRingFrames {μ : Nat} {σ x : State} (r : ℕ) (p : ℕ)  (hμ : Nat.land 59765786528804604504846801094402494523699862402460134807364373183601737147557918296785519551553706037451713849013156285178438667774033065612746062055984081160192 μ = 59765786528804604504846801094402494523699862402460134807364373183601737147557918296785519551553706037451713849013156285178438667774033065612746062055984081160192) (hw : Within μ σ x) :
    Within μ σ (dropRingFrames r p x) := by
  unfold dropRingFrames
  repeat' first
    | with_reducible assumption
    | with_reducible apply Within.refl
    | with_reducible apply Eq.refl
    | ((with_reducible apply fun k => sub_trans k hμ); exact rfl)
    | ((with_reducible apply sub_set hμ); exact rfl)
    | intro _
    | with_reducible apply Within.ite
    | with_reducible apply within_frameEnds
    | with_reducible apply within_dequeue
    | with_reducible apply Within.forEach
    | with_reducible apply Within.foldl
    | (extract_lets +onlyGivenNames a; first | (refine Within.cutAny (μ := μ) (σ := σ) (a := a) ?_ ?_; all_goals (first | (intro ha; clear_value a) | (unfold a; clear a))) | skip)
    | split

theorem within_semLease {μ : Nat} {σ x : State} (n : ℕ)  (hμ : Nat.land 3514776401986872174070733209129673327241950873673372369609965291102998109899599898686750536018664732148375711432438199315006457855854921632037902485050909261824 μ = 3514776401986872174070733209129673327241950873673372369609965291102998109899599898686750536018664732148375711432438199315006457855854921632037902485050909261824) (hw : Within μ σ x) :
    Within μ σ (semLease n x) := by
  unfold semLease
  repeat' first
    | with_reducible assumption
    | with_reducible apply Within.refl
    | with_reducible apply Eq.refl
    | ((with_reducible apply fun k => sub_trans k hμ); exact rfl)
    | ((with_reducible apply sub_set hμ); exact rfl)
    | ((with_reducible apply Or.inl); with_reducible apply Eq.refl)
    | ((with_reducible apply Or.inr); (with_reducible apply sub_set hμ); exact rfl)
    | intro _
    | with_reducible apply Within.ite
    | with_reducible apply Within.foldl
    | (extract_lets +onlyGivenNames a; first | (refine Within.cutAny (μ := μ) (σ := σ) (a := a) ?_ ?_; all_goals (first | (intro ha; clear_value a) | (unfold a; clear a))) | skip)
    | split
    | (with_reducible apply Within.upd)

theorem within_semRead {μ : Nat} {σ x : State} (n : ℕ) (f : ℕ)  (hμ : Nat.land 3514776401986872174070733209129673327241950873673372369609965291102998109899599898686750536018664732148375711432438199315006457855854921632037902485050909261828 μ = 3514776401986872174070733209129673327241950873673372369609965291102998109899599898686750536018664732148375711432438199315006457855854921632037902485050909261828) (hw : Within μ σ x) :
    Within μ σ (semRead n f x).1 := by
  unfold semRead
  repeat' first
    | with_reducible assumption
    | with_reducible apply Within.refl
    | with_reducible apply Eq.refl
    | ((with_reducible apply fun k => sub_trans k hμ); exact rfl)
    | ((with_reducible apply sub_set hμ); exact rfl)
    | intro _
    | with_reducible apply Within.ite
    | with_reducible apply within_put
    | with_reducible apply within_semLease
    | with_reducible apply Within.foldl
    | (extract_lets +onlyGivenNames a; first | (refine Within.cutAny (μ := μ) (σ := σ) (a := a) ?_ ?_; all_goals (first | (intro ha; clear_value a) | (unfold a; clear a))) | skip)
    | split

theorem within_semReadAs {μ : Nat} {σ x : State} (n : ℕ) (f : ℕ)  (hμ : Nat.land 3529417728246369490103468044427714111213158341149459263178439420199542276220440389842067251269939161296446199566204304705235203519791931893268444184332709414916 μ = 3529417728246369490103468044427714111213158341149459263178439420199542276220440389842067251269939161296446199566204304705235203519791931893268444184332709414916) (hw : Within μ σ x) :
    Within μ σ (semReadAs n f x) := by
  unfold semReadAs
  repeat' first
    | with_reducible assumption
    | with_reducible apply Within.refl
    | with_reducible apply Eq.refl
    | ((with_reducible apply fun k => sub_trans k hμ); exact rfl)
    | ((with_reducible apply sub_set hμ); exact rfl)
    | intro _
    | with_reducible apply Within.ite
    | with_reducible apply within_hostRead
    | with_reducible apply within_semRead
    | with_reducible apply Within.foldl
    | (extract_lets +onlyGivenNames a; first | (refine Within.cutAny (μ := μ) (σ := σ) (a := a) ?_ ?_; all_goals (first | (intro ha; clear_value a) | (unfold a; clear a))) | skip)
    | split

theorem within_semTieSet {μ : Nat} {σ x : State} (n : ℕ) (loser : ℕ)  (hμ : Nat.land 3514776401986872174070733209129673327241950873673372369609965291102998109899599898686750536018664732148375711432438199315006457855854921632037902485050909261824 μ = 3514776401986872174070733209129673327241950873673372369609965291102998109899599898686750536018664732148375711432438199315006457855854921632037902485050909261824) (hw : Within μ σ x) :
    Within μ σ (semTieSet n loser x) := by
  unfold semTieSet
  repeat' first
    | with_reducible assumption
    | with_reducible apply Within.refl
    | with_reducible apply Eq.refl
    | ((with_reducible apply fun k => sub_trans k hμ); exact rfl)
    | ((with_reducible apply sub_set hμ); exact rfl)
    | ((with_reducible apply Or.inl); with_reducible apply Eq.refl)
    | ((with_reducible apply Or.inr); (with_reducible apply sub_set hμ); exact rfl)
    | intro _
    | with_reducible apply Within.ite
    | with_reducible apply Within.foldl
    | (extract_lets +onlyGivenNames a; first | (refine Within.cutAny (μ := μ) (σ := σ) (a := a) ?_ ?_; all_goals (first | (intro ha; clear_value a) | (unfold a; clear a))) | skip)
    | split
    | (with_reducible apply Within.upd)

theorem within_semReadBoth {μ : Nat} {σ x : State} (n : ℕ) (f : ℕ) (g : ℕ)  (hμ : Nat.land 3529417728246369490103468044427714111213158341149459263178439420199542276220440389842067251269939161296446199566204304705235203519791931893268444184332709414916 μ = 3529417728246369490103468044427714111213158341149459263178439420199542276220440389842067251269939161296446199566204304705235203519791931893268444184332709414916) (hw : Within μ σ x) :
    Within μ σ (semReadBoth n f g x) := by
  unfold semReadBoth
  repeat' first
    | with_reducible assumption
    | with_reducible apply Within.refl
    | with_reducible apply Eq.refl
    | ((with_reducible apply fun k => sub_trans k hμ); exact rfl)
    | ((with_reducible apply sub_set hμ); exact rfl)
    | ((with_reducible apply Or.inl); with_reducible apply Eq.refl)
    | ((with_reducible apply Or.inr); (with_reducible apply sub_set hμ); exact rfl)
    | intro _
    | with_reducible apply Within.ite
    | with_reducible apply within_semReadAs
    | with_reducible apply within_semTieSet
    | with_reducible apply Within.foldl
    | (extract_lets +onlyGivenNames a; first | (refine Within.cutAny (μ := μ) (σ := σ) (a := a) ?_ ?_; all_goals (first | (intro ha; clear_value a) | (unfold a; clear a))) | skip)
    | split
    | (with_reducible apply Within.upd)

theorem within_semFree {μ : Nat} {σ x : State} (n : ℕ)  (hμ : Nat.land 4 μ = 4) (hw : Within μ σ x) :
    Within μ σ (semFree n x) := by
  unfold semFree
  repeat' first
    | with_reducible assumption
    | with_reducible apply Within.refl
    | with_reducible apply Eq.refl
    | ((with_reducible apply fun k => sub_trans k hμ); exact rfl)
    | ((with_reducible apply sub_set hμ); exact rfl)
    | intro _
    | with_reducible apply Within.ite
    | with_reducible apply within_put
    | with_reducible apply Within.foldl
    | (extract_lets +onlyGivenNames a; first | (refine Within.cutAny (μ := μ) (σ := σ) (a := a) ?_ ?_; all_goals (first | (intro ha; clear_value a) | (unfold a; clear a))) | skip)
    | split

theorem within_semWrite {μ : Nat} {σ x : State} (n : ℕ) (f : ℕ) (v : W32)  (hμ : Nat.land 858099707516326214372737599885174152158679412517913176174307932398192897924707006515319955082681819372162038923935107254640248499964580476571753536389382148 μ = 858099707516326214372737599885174152158679412517913176174307932398192897924707006515319955082681819372162038923935107254640248499964580476571753536389382148) (hw : Within μ σ x) :
    Within μ σ (semWrite n f v x) := by
  unfold semWrite
  repeat' first
    | with_reducible assumption
    | with_reducible apply Within.refl
    | with_reducible apply Eq.refl
    | ((with_reducible apply fun k => sub_trans k hμ); exact rfl)
    | ((with_reducible apply sub_set hμ); exact rfl)
    | intro _
    | with_reducible apply Within.ite
    | with_reducible apply within_semFree
    | with_reducible apply within_bump
    | with_reducible apply Within.foldl
    | (extract_lets +onlyGivenNames a; first | (refine Within.cutAny (μ := μ) (σ := σ) (a := a) ?_ ?_; all_goals (first | (intro ha; clear_value a) | (unfold a; clear a))) | skip)
    | split

theorem within_semReset {μ : Nat} {σ x : State} (f : ℕ) (n : ℕ)  (hμ : Nat.land 4 μ = 4) (hw : Within μ σ x) :
    Within μ σ (semReset f n x) := by
  unfold semReset
  repeat' first
    | with_reducible assumption
    | with_reducible apply Within.refl
    | with_reducible apply Eq.refl
    | ((with_reducible apply fun k => sub_trans k hμ); exact rfl)
    | ((with_reducible apply sub_set hμ); exact rfl)
    | intro _
    | with_reducible apply Within.ite
    | with_reducible apply within_semFree
    | with_reducible apply within_put
    | with_reducible apply Within.foldl
    | (extract_lets +onlyGivenNames a; first | (refine Within.cutAny (μ := μ) (σ := σ) (a := a) ?_ ?_; all_goals (first | (intro ha; clear_value a) | (unfold a; clear a))) | skip)
    | split

theorem within_resetCtx {μ : Nat} {σ x : State} (f : ℕ) (c : ℕ)  (hμ : Nat.land 1243373604695543939732881191169619068865644088547268423578929579425995536199431581835600885118930589216367493863915489316503413198946732127930515579172219948910592 μ = 1243373604695543939732881191169619068865644088547268423578929579425995536199431581835600885118930589216367493863915489316503413198946732127930515579172219948910592) (hw : Within μ σ x) :
    Within μ σ (resetCtx f c x) := by
  unfold resetCtx
  repeat' first
    | with_reducible assumption
    | with_reducible apply Within.refl
    | with_reducible apply Eq.refl
    | ((with_reducible apply fun k => sub_trans k hμ); exact rfl)
    | ((with_reducible apply sub_set hμ); exact rfl)
    | intro _
    | with_reducible apply Within.ite
    | with_reducible apply within_disableCtx
    | with_reducible apply within_journal
    | with_reducible apply Within.foldl
    | (extract_lets +onlyGivenNames a; first | (refine Within.cutAny (μ := μ) (σ := σ) (a := a) ?_ ?_; all_goals (first | (intro ha; clear_value a) | (unfold a; clear a))) | skip)
    | split

theorem within_clearFn {μ : Nat} {σ x : State} (f : ℕ)  (hμ : Nat.land 1243373604695543939732881191169619068865644088547268423578929579425995536199431581835600885118930589216367493863915489316503413198946732127930515579172219951007780 μ = 1243373604695543939732881191169619068865644088547268423578929579425995536199431581835600885118930589216367493863915489316503413198946732127930515579172219951007780) (hw : Within μ σ x) :
    Within μ σ (clearFn f x) := by
  unfold clearFn
  repeat' first
    | with_reducible assumption
    | with_reducible apply Within.refl
    | with_reducible apply Eq.refl
    | ((with_reducible apply fun k => sub_trans k hμ); exact rfl)
    | ((with_reducible apply sub_set hμ); exact rfl)
    | ((with_reducible apply Or.inl); with_reducible apply Eq.refl)
    | ((with_reducible apply Or.inr); (with_reducible apply sub_set hμ); exact rfl)
    | intro _
    | with_reducible apply Within.ite
    | with_reducible apply within_put
    | with_reducible apply within_semReset
    | with_reducible apply within_resetCtx
    | with_reducible apply Within.forEach
    | with_reducible apply Within.foldl
    | (extract_lets +onlyGivenNames a; first | (refine Within.cutAny (μ := μ) (σ := σ) (a := a) ?_ ?_; all_goals (first | (intro ha; clear_value a) | (unfold a; clear a))) | skip)
    | split
    | (with_reducible apply Within.upd)

theorem within_resetFn {μ : Nat} {σ x : State} (f : ℕ)  (hμ : Nat.land 1243373604695543939732881191169619068865644088547268423578929579425995536199431581835600885118930589216367493863915489316503413198946732127930515579172219951007780 μ = 1243373604695543939732881191169619068865644088547268423578929579425995536199431581835600885118930589216367493863915489316503413198946732127930515579172219951007780) (hw : Within μ σ x) :
    Within μ σ (resetFn f x) := by
  unfold resetFn
  repeat' first
    | with_reducible assumption
    | with_reducible apply Within.refl
    | with_reducible apply Eq.refl
    | ((with_reducible apply fun k => sub_trans k hμ); exact rfl)
    | ((with_reducible apply sub_set hμ); exact rfl)
    | intro _
    | with_reducible apply Within.ite
    | with_reducible apply within_raise0
    | with_reducible apply within_clearFn
    | with_reducible apply Within.foldl
    | (extract_lets +onlyGivenNames a; first | (refine Within.cutAny (μ := μ) (σ := σ) (a := a) ?_ ?_; all_goals (first | (intro ha; clear_value a) | (unfold a; clear a))) | skip)
    | split

theorem within_ringCtrlWrite {μ : Nat} {σ x : State} (pf : Bool) (r : ℕ) (v : W32)  (hμ : Nat.land 3529364097014649719715069748327721287828648423686176893604928525953767389164319917797510975255070323077702466094145096138335342080354319500139622295169532971040 μ = 3529364097014649719715069748327721287828648423686176893604928525953767389164319917797510975255070323077702466094145096138335342080354319500139622295169532971040) (hw : Within μ σ x) :
    Within μ σ (ringCtrlWrite pf r v x) := by
  unfold ringCtrlWrite
  repeat' first
    | with_reducible assumption
    | with_reducible apply Within.refl
    | with_reducible apply Eq.refl
    | ((with_reducible apply fun k => sub_trans k hμ); exact rfl)
    | ((with_reducible apply sub_set hμ); exact rfl)
    | intro _
    | with_reducible apply Within.ite
    | with_reducible apply within_plainWrite
    | with_reducible apply within_put
    | with_reducible apply within_ringErr
    | with_reducible apply within_flushWrite
    | with_reducible apply Within.foldl
    | (extract_lets +onlyGivenNames a; first | (refine Within.cutAny (μ := μ) (σ := σ) (a := a) ?_ ?_; all_goals (first | (intro ha; clear_value a) | (unfold a; clear a))) | skip)
    | split

theorem within_ringHeadEffect {μ : Nat} {σ x : State} (r : ℕ) (v : W32)  (hμ : Nat.land 3529364097014649719715069748327721287828648423686176893604928525953767389164319917797510975255070323077702466094145096138335342080354319500139622295169532972032 μ = 3529364097014649719715069748327721287828648423686176893604928525953767389164319917797510975255070323077702466094145096138335342080354319500139622295169532972032) (hw : Within μ σ x) :
    Within μ σ (ringHeadEffect r v x) := by
  unfold ringHeadEffect
  repeat' first
    | with_reducible assumption
    | with_reducible apply Within.refl
    | with_reducible apply Eq.refl
    | ((with_reducible apply fun k => sub_trans k hμ); exact rfl)
    | ((with_reducible apply sub_set hμ); exact rfl)
    | intro _
    | with_reducible apply Within.ite
    | with_reducible apply within_ringErr
    | with_reducible apply within_put
    | with_reducible apply Within.foldl
    | (extract_lets +onlyGivenNames a; first | (refine Within.cutAny (μ := μ) (σ := σ) (a := a) ?_ ?_; all_goals (first | (intro ha; clear_value a) | (unfold a; clear a))) | skip)
    | split

theorem within_flushEntry {μ : Nat} {σ z : State} (r : ℕ) (x : FlushedEntry)  (hμ : Nat.land 3529364097014649719715069748327721287828648423686176893604928525953767389164319917797510975255070323077702466094145096138335342080354319500139622295169532972032 μ = 3529364097014649719715069748327721287828648423686176893604928525953767389164319917797510975255070323077702466094145096138335342080354319500139622295169532972032) (hw : Within μ σ z) :
    Within μ σ (flushEntry r x z) := by
  unfold flushEntry
  repeat' first
    | with_reducible assumption
    | with_reducible apply Within.refl
    | with_reducible apply Eq.refl
    | ((with_reducible apply fun k => sub_trans k hμ); exact rfl)
    | ((with_reducible apply sub_set hμ); exact rfl)
    | intro _
    | with_reducible apply Within.ite
    | with_reducible apply within_txComplete
    | with_reducible apply within_advanceHead
    | with_reducible apply within_completeCmd
    | with_reducible apply Within.foldl
    | (extract_lets +onlyGivenNames a; first | (refine Within.cutAny (μ := μ) (σ := σ) (a := a) ?_ ?_; all_goals (first | (intro ha; clear_value a) | (unfold a; clear a))) | skip)
    | split

theorem within_semForceWrite {μ : Nat} {σ x : State} (f : ℕ) (v : W32)  (hμ : Nat.land 3529364097014649719715069748327721287828648423686176893604928525953767389164319917797510975255070323077702466094145096138335342080354319500139622295169532971012 μ = 3529364097014649719715069748327721287828648423686176893604928525953767389164319917797510975255070323077702466094145096138335342080354319500139622295169532971012) (hw : Within μ σ x) :
    Within μ σ (semForceWrite f v x) := by
  unfold semForceWrite
  repeat' first
    | with_reducible assumption
    | with_reducible apply Within.refl
    | with_reducible apply Eq.refl
    | ((with_reducible apply fun k => sub_trans k hμ); exact rfl)
    | ((with_reducible apply sub_set hμ); exact rfl)
    | intro _
    | with_reducible apply Within.ite
    | with_reducible apply within_semFree
    | with_reducible apply within_raise
    | with_reducible apply within_bump
    | with_reducible apply Within.foldl
    | (extract_lets +onlyGivenNames a; first | (refine Within.cutAny (μ := μ) (σ := σ) (a := a) ?_ ?_; all_goals (first | (intro ha; clear_value a) | (unfold a; clear a))) | skip)
    | split

theorem within_semWriteAs {μ : Nat} {σ x : State} (n : ℕ) (f : ℕ) (v : W32)  (hμ : Nat.land 116002208960594559289978532440477267759571076381234092721123817841249706905951516853630177199820891095826040098994171867979751166117172662417394815552627893356548 μ = 116002208960594559289978532440477267759571076381234092721123817841249706905951516853630177199820891095826040098994171867979751166117172662417394815552627893356548) (hw : Within μ σ x) :
    Within μ σ (semWriteAs n f v x) := by
  unfold semWriteAs
  repeat' first
    | with_reducible assumption
    | with_reducible apply Within.refl
    | with_reducible apply Eq.refl
    | ((with_reducible apply fun k => sub_trans k hμ); exact rfl)
    | ((with_reducible apply sub_set hμ); exact rfl)
    | intro _
    | with_reducible apply Within.ite
    | with_reducible apply within_hostWrite
    | with_reducible apply within_semWrite
    | with_reducible apply Within.foldl
    | (extract_lets +onlyGivenNames a; first | (refine Within.cutAny (μ := μ) (σ := σ) (a := a) ?_ ?_; all_goals (first | (intro ha; clear_value a) | (unfold a; clear a))) | skip)
    | split

theorem within_dropHeld {μ : Nat} {σ x : State} (r : ℕ)  (hμ : Nat.land 5272164602980308261106099813694509990862926310510058554414947936654497164849399848030125804027997098222563567148657298972509686783782382448056853727576363892736 μ = 5272164602980308261106099813694509990862926310510058554414947936654497164849399848030125804027997098222563567148657298972509686783782382448056853727576363892736) (hw : Within μ σ x) :
    Within μ σ (dropHeld r x) := by
  unfold dropHeld
  repeat' first
    | with_reducible assumption
    | with_reducible apply Within.refl
    | with_reducible apply Eq.refl
    | ((with_reducible apply fun k => sub_trans k hμ); exact rfl)
    | ((with_reducible apply sub_set hμ); exact rfl)
    | ((with_reducible apply Or.inl); with_reducible apply Eq.refl)
    | ((with_reducible apply Or.inr); (with_reducible apply sub_set hμ); exact rfl)
    | intro _
    | with_reducible apply Within.ite
    | with_reducible apply Within.foldl
    | (extract_lets +onlyGivenNames a; first | (refine Within.cutAny (μ := μ) (σ := σ) (a := a) ?_ ?_; all_goals (first | (intro ha; clear_value a) | (unfold a; clear a))) | skip)
    | split
    | (with_reducible apply Within.upd)

theorem within_pcieLinkTo {μ : Nat} {σ x : State} (host : ℕ) (rate : ℕ) (width : ℕ)  (hμ : Nat.land 3529364097014649719715069748327721287828648423686176893604928525953767389164319917797510975255070323077702466094145096138335342080354319500139622295169566525440 μ = 3529364097014649719715069748327721287828648423686176893604928525953767389164319917797510975255070323077702466094145096138335342080354319500139622295169566525440) (hw : Within μ σ x) :
    Within μ σ (pcieLinkTo host rate width x) := by
  unfold pcieLinkTo
  repeat' first
    | with_reducible assumption
    | with_reducible apply Within.refl
    | with_reducible apply Eq.refl
    | ((with_reducible apply fun k => sub_trans k hμ); exact rfl)
    | ((with_reducible apply sub_set hμ); exact rfl)
    | intro _
    | with_reducible apply Within.ite
    | with_reducible apply within_raise
    | with_reducible apply within_setBit
    | with_reducible apply within_wr
    | with_reducible apply Within.foldl
    | (extract_lets +onlyGivenNames a; first | (refine Within.cutAny (μ := μ) (σ := σ) (a := a) ?_ ?_; all_goals (first | (intro ha; clear_value a) | (unfold a; clear a))) | skip)
    | split

/-! ## Time -/

theorem within_fcStop {μ : Nat} {σ x : State} (n : ℕ)  (hμ : Nat.land 7029552803973744348141466418259346654483901747346744739219930582205996219799199797373501072037329464296751422864876398630012915711709843264076381430854121947136 μ = 7029552803973744348141466418259346654483901747346744739219930582205996219799199797373501072037329464296751422864876398630012915711709843264076381430854121947136) (hw : Within μ σ x) :
    Within μ σ (fcStop n x) := by
  unfold fcStop
  repeat' first
    | with_reducible assumption
    | with_reducible apply Within.refl
    | with_reducible apply Eq.refl
    | ((with_reducible apply fun k => sub_trans k hμ); exact rfl)
    | ((with_reducible apply sub_set hμ); exact rfl)
    | ((with_reducible apply Or.inl); with_reducible apply Eq.refl)
    | ((with_reducible apply Or.inr); (with_reducible apply sub_set hμ); exact rfl)
    | intro _
    | with_reducible apply Within.ite
    | with_reducible apply within_put
    | with_reducible apply Within.foldl
    | (extract_lets +onlyGivenNames a; first | (refine Within.cutAny (μ := μ) (σ := σ) (a := a) ?_ ?_; all_goals (first | (intro ha; clear_value a) | (unfold a; clear a))) | skip)
    | split
    | (with_reducible apply Within.upd)

theorem within_nextLoRead {μ : Nat} {σ x : State} (n : ℕ)  (hμ : Nat.land 432345564227567616 μ = 432345564227567616) (hw : Within μ σ x) :
    Within μ σ (nextLoRead n x).1 := by
  unfold nextLoRead
  repeat' first
    | with_reducible assumption
    | with_reducible apply Within.refl
    | with_reducible apply Eq.refl
    | ((with_reducible apply fun k => sub_trans k hμ); exact rfl)
    | ((with_reducible apply sub_set hμ); exact rfl)
    | intro _
    | with_reducible apply Within.ite
    | with_reducible apply within_wr
    | with_reducible apply Within.foldl
    | (extract_lets +onlyGivenNames a; first | (refine Within.cutAny (μ := μ) (σ := σ) (a := a) ?_ ?_; all_goals (first | (intro ha; clear_value a) | (unfold a; clear a))) | skip)
    | split

theorem within_timeEvent {μ : Nat} {σ x : State} (bit : ℕ) (ev : ℕ)  (hμ : Nat.land 3529364097014649719715069748327721287828648423686176893604928525953767389164319917797510975255070323077703232341915529082764521253867894654731431664730624772096 μ = 3529364097014649719715069748327721287828648423686176893604928525953767389164319917797510975255070323077703232341915529082764521253867894654731431664730624772096) (hw : Within μ σ x) :
    Within μ σ (timeEvent bit ev x) := by
  unfold timeEvent
  repeat' first
    | with_reducible assumption
    | with_reducible apply Within.refl
    | with_reducible apply Eq.refl
    | ((with_reducible apply fun k => sub_trans k hμ); exact rfl)
    | ((with_reducible apply sub_set hμ); exact rfl)
    | intro _
    | with_reducible apply Within.ite
    | with_reducible apply within_raise0
    | with_reducible apply within_setBit
    | with_reducible apply Within.foldl
    | (extract_lets +onlyGivenNames a; first | (refine Within.cutAny (μ := μ) (σ := σ) (a := a) ?_ ?_; all_goals (first | (intro ha; clear_value a) | (unfold a; clear a))) | skip)
    | split

theorem within_startSwitch {μ : Nat} {σ x : State} (d : ℕ)  (hμ : Nat.land 10558916900988394067856536166587067942312550171032921632824859108159763608963519715171012047292399787374455038330677144184992026552334525496103141319612989196288 μ = 10558916900988394067856536166587067942312550171032921632824859108159763608963519715171012047292399787374455038330677144184992026552334525496103141319612989196288) (hw : Within μ σ x) :
    Within μ σ (startSwitch d x) := by
  unfold startSwitch
  repeat' first
    | with_reducible assumption
    | with_reducible apply Within.refl
    | with_reducible apply Eq.refl
    | ((with_reducible apply fun k => sub_trans k hμ); exact rfl)
    | ((with_reducible apply sub_set hμ); exact rfl)
    | ((with_reducible apply Or.inl); with_reducible apply Eq.refl)
    | ((with_reducible apply Or.inr); (with_reducible apply sub_set hμ); exact rfl)
    | intro _
    | with_reducible apply Within.ite
    | with_reducible apply within_timeEvent
    | with_reducible apply within_put
    | with_reducible apply Within.foldl
    | (extract_lets +onlyGivenNames a; first | (refine Within.cutAny (μ := μ) (σ := σ) (a := a) ?_ ?_; all_goals (first | (intro ha; clear_value a) | (unfold a; clear a))) | skip)
    | split
    | (with_reducible apply Within.upd)

theorem within_selActs {μ : Nat} {σ x : State}   (hμ : Nat.land 10558916900988394067856536166587067942312550171032921632824859108159763608963519715171012047292399787374455038330677144184992026552334525496103141319612989196288 μ = 10558916900988394067856536166587067942312550171032921632824859108159763608963519715171012047292399787374455038330677144184992026552334525496103141319612989196288) (hw : Within μ σ x) :
    Within μ σ (selActs x) := by
  unfold selActs
  repeat' first
    | with_reducible assumption
    | with_reducible apply Within.refl
    | with_reducible apply Eq.refl
    | ((with_reducible apply fun k => sub_trans k hμ); exact rfl)
    | ((with_reducible apply sub_set hμ); exact rfl)
    | intro _
    | with_reducible apply Within.ite
    | with_reducible apply within_put
    | with_reducible apply within_startSwitch
    | with_reducible apply Within.foldl
    | (extract_lets +onlyGivenNames a; first | (refine Within.cutAny (μ := μ) (σ := σ) (a := a) ?_ ?_; all_goals (first | (intro ha; clear_value a) | (unfold a; clear a))) | skip)
    | split

theorem within_setDom {μ : Nat} {σ z : State} (d : ℕ) (x : Dom)  (hμ : Nat.land 7029552803973744348141466418259346654483901747346744739219930582205996219799199797373501072037329464296751422864876398630012915711709843264075804970101818523648 μ = 7029552803973744348141466418259346654483901747346744739219930582205996219799199797373501072037329464296751422864876398630012915711709843264075804970101818523648) (hw : Within μ σ z) :
    Within μ σ (setDom d x z) := by
  unfold setDom
  repeat' first
    | with_reducible assumption
    | with_reducible apply Within.refl
    | with_reducible apply Eq.refl
    | ((with_reducible apply fun k => sub_trans k hμ); exact rfl)
    | ((with_reducible apply sub_set hμ); exact rfl)
    | ((with_reducible apply Or.inl); with_reducible apply Eq.refl)
    | ((with_reducible apply Or.inr); (with_reducible apply sub_set hμ); exact rfl)
    | intro _
    | with_reducible apply Within.ite
    | with_reducible apply Within.foldl
    | (extract_lets +onlyGivenNames a; first | (refine Within.cutAny (μ := μ) (σ := σ) (a := a) ?_ ?_; all_goals (first | (intro ha; clear_value a) | (unfold a; clear a))) | skip)
    | split
    | (with_reducible apply Within.upd)

theorem within_fcRefuse {μ : Nat} {σ x : State} (n : ℕ)  (hμ : Nat.land 3529364097014649719715069748327721287828648423686176893604928525953767389164319917797510975255070323077703232341915529082764521253867894654732008125482928195584 μ = 3529364097014649719715069748327721287828648423686176893604928525953767389164319917797510975255070323077703232341915529082764521253867894654732008125482928195584) (hw : Within μ σ x) :
    Within μ σ (fcRefuse n x) := by
  unfold fcRefuse
  repeat' first
    | with_reducible assumption
    | with_reducible apply Within.refl
    | with_reducible apply Eq.refl
    | ((with_reducible apply fun k => sub_trans k hμ); exact rfl)
    | ((with_reducible apply sub_set hμ); exact rfl)
    | intro _
    | with_reducible apply Within.ite
    | with_reducible apply within_timeEvent
    | with_reducible apply within_put
    | with_reducible apply Within.foldl
    | (extract_lets +onlyGivenNames a; first | (refine Within.cutAny (μ := μ) (σ := σ) (a := a) ?_ ?_; all_goals (first | (intro ha; clear_value a) | (unfold a; clear a))) | skip)
    | split

theorem within_setFc {μ : Nat} {σ x : State} (n : ℕ) (f : FClock)  (hμ : Nat.land 7029552803973744348141466418259346654483901747346744739219930582205996219799199797373501072037329464296751422864876398630012915711709843264075804970101818523648 μ = 7029552803973744348141466418259346654483901747346744739219930582205996219799199797373501072037329464296751422864876398630012915711709843264075804970101818523648) (hw : Within μ σ x) :
    Within μ σ (setFc n f x) := by
  unfold setFc
  repeat' first
    | with_reducible assumption
    | with_reducible apply Within.refl
    | with_reducible apply Eq.refl
    | ((with_reducible apply fun k => sub_trans k hμ); exact rfl)
    | ((with_reducible apply sub_set hμ); exact rfl)
    | ((with_reducible apply Or.inl); with_reducible apply Eq.refl)
    | ((with_reducible apply Or.inr); (with_reducible apply sub_set hμ); exact rfl)
    | intro _
    | with_reducible apply Within.ite
    | with_reducible apply Within.foldl
    | (extract_lets +onlyGivenNames a; first | (refine Within.cutAny (μ := μ) (σ := σ) (a := a) ?_ ?_; all_goals (first | (intro ha; clear_value a) | (unfold a; clear a))) | skip)
    | split
    | (with_reducible apply Within.upd)

theorem within_fcStart {μ : Nat} {σ x : State} (n : ℕ)  (hμ : Nat.land 7029552803973744348141466418259346654483901747346744739219930582205996219799199797373501072037329464296751422864876398630012915711709843264076381430854121947136 μ = 7029552803973744348141466418259346654483901747346744739219930582205996219799199797373501072037329464296751422864876398630012915711709843264076381430854121947136) (hw : Within μ σ x) :
    Within μ σ (fcStart n x) := by
  unfold fcStart
  repeat' first
    | with_reducible assumption
    | with_reducible apply Within.refl
    | with_reducible apply Eq.refl
    | ((with_reducible apply fun k => sub_trans k hμ); exact rfl)
    | ((with_reducible apply sub_set hμ); exact rfl)
    | intro _
    | with_reducible apply Within.ite
    | with_reducible apply within_put
    | with_reducible apply within_setFc
    | with_reducible apply Within.foldl
    | (extract_lets +onlyGivenNames a; first | (refine Within.cutAny (μ := μ) (σ := σ) (a := a) ?_ ?_; all_goals (first | (intro ha; clear_value a) | (unfold a; clear a))) | skip)
    | split

theorem within_fcChange {μ : Nat} {σ x : State} (n : ℕ)  (hμ : Nat.land 7029552803973744348141466418259346654483901747346744739219930582205996219799199797373501072037329464296751422864876398630012915711709843264078687273863335641088 μ = 7029552803973744348141466418259346654483901747346744739219930582205996219799199797373501072037329464296751422864876398630012915711709843264078687273863335641088) (hw : Within μ σ x) :
    Within μ σ (fcChange n x) := by
  unfold fcChange
  repeat' first
    | with_reducible assumption
    | with_reducible apply Within.refl
    | with_reducible apply Eq.refl
    | ((with_reducible apply fun k => sub_trans k hμ); exact rfl)
    | ((with_reducible apply sub_set hμ); exact rfl)
    | intro _
    | with_reducible apply Within.ite
    | with_reducible apply within_setFc
    | with_reducible apply within_put
    | with_reducible apply within_wr
    | with_reducible apply Within.foldl
    | (extract_lets +onlyGivenNames a; first | (refine Within.cutAny (μ := μ) (σ := σ) (a := a) ?_ ?_; all_goals (first | (intro ha; clear_value a) | (unfold a; clear a))) | skip)
    | split

theorem within_fcCtrlEffect {μ : Nat} {σ x : State} (pf : Bool) (n : ℕ) (v : W32)  (hμ : Nat.land 10558916900988394067856536166587067942312550171032921632824859108159763608963519715171012047292399787374454655206791927712777436965577737918810123442193587783680 μ = 10558916900988394067856536166587067942312550171032921632824859108159763608963519715171012047292399787374454655206791927712777436965577737918810123442193587783680) (hw : Within μ σ x) :
    Within μ σ (fcCtrlEffect pf n v x) := by
  unfold fcCtrlEffect
  repeat' first
    | with_reducible assumption
    | with_reducible apply Within.refl
    | with_reducible apply Eq.refl
    | ((with_reducible apply fun k => sub_trans k hμ); exact rfl)
    | ((with_reducible apply sub_set hμ); exact rfl)
    | intro _
    | with_reducible apply Within.ite
    | with_reducible apply within_fcRefuse
    | with_reducible apply within_put
    | with_reducible apply within_plainWrite
    | with_reducible apply within_fcStart
    | with_reducible apply within_fcStop
    | with_reducible apply within_fcChange
    | with_reducible apply Within.foldl
    | (extract_lets +onlyGivenNames a; first | (refine Within.cutAny (μ := μ) (σ := σ) (a := a) ?_ ?_; all_goals (first | (intro ha; clear_value a) | (unfold a; clear a))) | skip)
    | split

theorem within_beginHoldover {μ : Nat} {σ x : State}   (hμ : Nat.land 10558916900988394067856536166587067942312550171032921632824859108159763608963519715171012047292399787374455038330677144184992026552334525496103141319612989196288 μ = 10558916900988394067856536166587067942312550171032921632824859108159763608963519715171012047292399787374455038330677144184992026552334525496103141319612989196288) (hw : Within μ σ x) :
    Within μ σ (beginHoldover x) := by
  unfold beginHoldover
  repeat' first
    | with_reducible assumption
    | with_reducible apply Within.refl
    | with_reducible apply Eq.refl
    | ((with_reducible apply fun k => sub_trans k hμ); exact rfl)
    | ((with_reducible apply sub_set hμ); exact rfl)
    | ((with_reducible apply Or.inl); with_reducible apply Eq.refl)
    | ((with_reducible apply Or.inr); (with_reducible apply sub_set hμ); exact rfl)
    | intro _
    | with_reducible apply Within.ite
    | with_reducible apply within_timeEvent
    | with_reducible apply within_put
    | with_reducible apply Within.foldl
    | (extract_lets +onlyGivenNames a; first | (refine Within.cutAny (μ := μ) (σ := σ) (a := a) ?_ ?_; all_goals (first | (intro ha; clear_value a) | (unfold a; clear a))) | skip)
    | split
    | (with_reducible apply Within.upd)

theorem within_loseFollowed {μ : Nat} {σ x : State}   (hμ : Nat.land 10558916900988394067856536166587067942312550171032921632824859108159763608963519715171012047292399787374455038330677144184992026552334525496103141319612989196288 μ = 10558916900988394067856536166587067942312550171032921632824859108159763608963519715171012047292399787374455038330677144184992026552334525496103141319612989196288) (hw : Within μ σ x) :
    Within μ σ (loseFollowed x) := by
  unfold loseFollowed
  repeat' first
    | with_reducible assumption
    | with_reducible apply Within.refl
    | with_reducible apply Eq.refl
    | ((with_reducible apply fun k => sub_trans k hμ); exact rfl)
    | ((with_reducible apply sub_set hμ); exact rfl)
    | intro _
    | with_reducible apply Within.ite
    | with_reducible apply within_startSwitch
    | with_reducible apply within_beginHoldover
    | with_reducible apply Within.foldl
    | (extract_lets +onlyGivenNames a; first | (refine Within.cutAny (μ := μ) (σ := σ) (a := a) ?_ ?_; all_goals (first | (intro ha; clear_value a) | (unfold a; clear a))) | skip)
    | split

theorem within_enterLost {μ : Nat} {σ x : State} (d : ℕ)  (hμ : Nat.land 10558916900988394067856536166587067942312550171032921632824859108159763608963519715171012047292399787374455038330677144184992026552334525496103141319612989196288 μ = 10558916900988394067856536166587067942312550171032921632824859108159763608963519715171012047292399787374455038330677144184992026552334525496103141319612989196288) (hw : Within μ σ x) :
    Within μ σ (enterLost d x) := by
  unfold enterLost
  repeat' first
    | with_reducible assumption
    | with_reducible apply Within.refl
    | with_reducible apply Eq.refl
    | ((with_reducible apply fun k => sub_trans k hμ); exact rfl)
    | ((with_reducible apply sub_set hμ); exact rfl)
    | intro _
    | with_reducible apply Within.ite
    | with_reducible apply within_timeEvent
    | with_reducible apply within_bump
    | with_reducible apply within_setDom
    | with_reducible apply within_loseFollowed
    | with_reducible apply Within.foldl
    | (extract_lets +onlyGivenNames a; first | (refine Within.cutAny (μ := μ) (σ := σ) (a := a) ?_ ?_; all_goals (first | (intro ha; clear_value a) | (unfold a; clear a))) | skip)
    | split

theorem within_fcPhaseEffect {μ : Nat} {σ x : State} (pf : Bool) (n : ℕ) (v : W32)  (hμ : Nat.land 10558916900988394067856536166587067942312550171032921632824859108159763608963519715171012047292399787374454655206791927712777436965577737918810127945793215154176 μ = 10558916900988394067856536166587067942312550171032921632824859108159763608963519715171012047292399787374454655206791927712777436965577737918810127945793215154176) (hw : Within μ σ x) :
    Within μ σ (fcPhaseEffect pf n v x) := by
  unfold fcPhaseEffect
  repeat' first
    | with_reducible assumption
    | with_reducible apply Within.refl
    | with_reducible apply Eq.refl
    | ((with_reducible apply fun k => sub_trans k hμ); exact rfl)
    | ((with_reducible apply sub_set hμ); exact rfl)
    | intro _
    | with_reducible apply Within.ite
    | with_reducible apply within_fcRefuse
    | with_reducible apply within_put
    | with_reducible apply within_plainWrite
    | with_reducible apply within_fcChange
    | with_reducible apply Within.foldl
    | (extract_lets +onlyGivenNames a; first | (refine Within.cutAny (μ := μ) (σ := σ) (a := a) ?_ ?_; all_goals (first | (intro ha; clear_value a) | (unfold a; clear a))) | skip)
    | split

theorem within_annKickWrite {μ : Nat} {σ x : State} (d : ℕ)  (hμ : Nat.land 7029552803973744348141466418259346654483901747346744739219930582205996219799199797373501072037329464296751422864876398630012915711709843264075804970101818523648 μ = 7029552803973744348141466418259346654483901747346744739219930582205996219799199797373501072037329464296751422864876398630012915711709843264075804970101818523648) (hw : Within μ σ x) :
    Within μ σ (annKickWrite d x) := by
  unfold annKickWrite
  repeat' first
    | with_reducible assumption
    | with_reducible apply Within.refl
    | with_reducible apply Eq.refl
    | ((with_reducible apply fun k => sub_trans k hμ); exact rfl)
    | ((with_reducible apply sub_set hμ); exact rfl)
    | intro _
    | with_reducible apply Within.ite
    | with_reducible apply within_setDom
    | with_reducible apply Within.foldl
    | (extract_lets +onlyGivenNames a; first | (refine Within.cutAny (μ := μ) (σ := σ) (a := a) ?_ ?_; all_goals (first | (intro ha; clear_value a) | (unfold a; clear a))) | skip)
    | split

theorem within_stepTime {μ : Nat} {σ x : State} (t : W64) (frac : BitVec 48)  (hμ : Nat.land 3611741668936217036294852557916698006435881647287896558517662087463993907365091790422981690943007777737430404954728082906995395523107706803186415319443459557376 μ = 3611741668936217036294852557916698006435881647287896558517662087463993907365091790422981690943007777737430404954728082906995395523107706803186415319443459557376) (hw : Within μ σ x) :
    Within μ σ (stepTime t frac x) := by
  unfold stepTime
  repeat' first
    | with_reducible assumption
    | with_reducible apply Within.refl
    | with_reducible apply Eq.refl
    | ((with_reducible apply fun k => sub_trans k hμ); exact rfl)
    | ((with_reducible apply sub_set hμ); exact rfl)
    | ((with_reducible apply Or.inl); with_reducible apply Eq.refl)
    | ((with_reducible apply Or.inr); (with_reducible apply sub_set hμ); exact rfl)
    | intro _
    | with_reducible apply Within.ite
    | with_reducible apply within_raise0
    | with_reducible apply within_put
    | with_reducible apply Within.foldl
    | (extract_lets +onlyGivenNames a; first | (refine Within.cutAny (μ := μ) (σ := σ) (a := a) ?_ ?_; all_goals (first | (intro ha; clear_value a) | (unfold a; clear a))) | skip)
    | split
    | (with_reducible apply Within.upd)

theorem within_firstStep {μ : Nat} {σ x : State} (d : ℕ)  (hμ : Nat.land 10641294472909961384436318976176044660919783394634641297737592669669990127164291587796482762980337242034181827819604481537008311234817550067262220289545278081024 μ = 10641294472909961384436318976176044660919783394634641297737592669669990127164291587796482762980337242034181827819604481537008311234817550067262220289545278081024) (hw : Within μ σ x) :
    Within μ σ (firstStep d x) := by
  unfold firstStep
  repeat' first
    | with_reducible assumption
    | with_reducible apply Within.refl
    | with_reducible apply Eq.refl
    | ((with_reducible apply fun k => sub_trans k hμ); exact rfl)
    | ((with_reducible apply sub_set hμ); exact rfl)
    | ((with_reducible apply Or.inl); with_reducible apply Eq.refl)
    | ((with_reducible apply Or.inr); (with_reducible apply sub_set hμ); exact rfl)
    | intro _
    | with_reducible apply Within.ite
    | with_reducible apply within_stepTime
    | with_reducible apply Within.foldl
    | (extract_lets +onlyGivenNames a; first | (refine Within.cutAny (μ := μ) (σ := σ) (a := a) ?_ ?_; all_goals (first | (intro ha; clear_value a) | (unfold a; clear a))) | skip)
    | split
    | (with_reducible apply Within.upd)

theorem within_enterTrack {μ : Nat} {σ x : State} (d : ℕ)  (hμ : Nat.land 10641294472909961384436318976176044660919783394634641297737592669669990127164291587796482762980337242034182594067374914481437490408331125221854029659106369882112 μ = 10641294472909961384436318976176044660919783394634641297737592669669990127164291587796482762980337242034182594067374914481437490408331125221854029659106369882112) (hw : Within μ σ x) :
    Within μ σ (enterTrack d x) := by
  unfold enterTrack
  repeat' first
    | with_reducible assumption
    | with_reducible apply Within.refl
    | with_reducible apply Eq.refl
    | ((with_reducible apply fun k => sub_trans k hμ); exact rfl)
    | ((with_reducible apply sub_set hμ); exact rfl)
    | intro _
    | with_reducible apply Within.ite
    | with_reducible apply within_startSwitch
    | with_reducible apply within_selActs
    | with_reducible apply within_firstStep
    | with_reducible apply Within.foldl
    | (extract_lets +onlyGivenNames a; first | (refine Within.cutAny (μ := μ) (σ := σ) (a := a) ?_ ?_; all_goals (first | (intro ha; clear_value a) | (unfold a; clear a))) | skip)
    | split

theorem within_settleStep {μ : Nat} {σ x : State} (theta : ℤ)  (hμ : Nat.land 10558916900988394067856536166587067942312550171032921632824859108159763608963519715171012047292399787374455038330677144184992026552334525496103141319612989196288 μ = 10558916900988394067856536166587067942312550171032921632824859108159763608963519715171012047292399787374455038330677144184992026552334525496103141319612989196288) (hw : Within μ σ x) :
    Within μ σ (settleStep theta x) := by
  unfold settleStep
  repeat' first
    | with_reducible assumption
    | with_reducible apply Within.refl
    | with_reducible apply Eq.refl
    | ((with_reducible apply fun k => sub_trans k hμ); exact rfl)
    | ((with_reducible apply sub_set hμ); exact rfl)
    | ((with_reducible apply Or.inl); with_reducible apply Eq.refl)
    | ((with_reducible apply Or.inr); (with_reducible apply sub_set hμ); exact rfl)
    | intro _
    | with_reducible apply Within.ite
    | with_reducible apply within_timeEvent
    | with_reducible apply within_put
    | with_reducible apply Within.foldl
    | (extract_lets +onlyGivenNames a; first | (refine Within.cutAny (μ := μ) (σ := σ) (a := a) ?_ ?_; all_goals (first | (intro ha; clear_value a) | (unfold a; clear a))) | skip)
    | split
    | (with_reducible apply Within.upd)

theorem within_acceptSample {μ : Nat} {σ x : State} (d : ℕ) (delay : ℤ) (m : Meas)  (hμ : Nat.land 10641321288525821269630518124226041072612038353366282482524348116792877570692351734890436366728936866850152616543175597391904312617106714586725189686131079268352 μ = 10641321288525821269630518124226041072612038353366282482524348116792877570692351734890436366728936866850152616543175597391904312617106714586725189686131079268352) (hw : Within μ σ x) :
    Within μ σ (acceptSample d delay m x) := by
  unfold acceptSample
  repeat' first
    | with_reducible assumption
    | with_reducible apply Within.refl
    | with_reducible apply Eq.refl
    | ((with_reducible apply fun k => sub_trans k hμ); exact rfl)
    | ((with_reducible apply sub_set hμ); exact rfl)
    | ((with_reducible apply Or.inl); with_reducible apply Eq.refl)
    | ((with_reducible apply Or.inr); (with_reducible apply sub_set hμ); exact rfl)
    | intro _
    | with_reducible apply Within.ite
    | with_reducible apply within_wr
    | with_reducible apply within_draw
    | with_reducible apply within_setDom
    | with_reducible apply within_enterTrack
    | with_reducible apply within_settleStep
    | with_reducible apply within_enterLost
    | with_reducible apply within_timeEvent
    | with_reducible apply Within.foldl
    | (extract_lets +onlyGivenNames a; first | (refine Within.cutAny (μ := μ) (σ := σ) (a := a) ?_ ?_; all_goals (first | (intro ha; clear_value a) | (unfold a; clear a))) | skip)
    | split
    | (with_reducible apply Within.upd)

theorem within_measPushWrite {μ : Nat} {σ x : State} (d : ℕ)  (hμ : Nat.land 10641321288525821269630518124226041072612038353366282482524348116792877570692351734890436366728936866850152616543175597391904312617106714586725189686131079268352 μ = 10641321288525821269630518124226041072612038353366282482524348116792877570692351734890436366728936866850152616543175597391904312617106714586725189686131079268352) (hw : Within μ σ x) :
    Within μ σ (measPushWrite d x) := by
  unfold measPushWrite
  repeat' first
    | with_reducible assumption
    | with_reducible apply Within.refl
    | with_reducible apply Eq.refl
    | ((with_reducible apply fun k => sub_trans k hμ); exact rfl)
    | ((with_reducible apply sub_set hμ); exact rfl)
    | intro _
    | with_reducible apply Within.ite
    | with_reducible apply within_bump
    | with_reducible apply within_acceptSample
    | with_reducible apply Within.foldl
    | (extract_lets +onlyGivenNames a; first | (refine Within.cutAny (μ := μ) (σ := σ) (a := a) ?_ ?_; all_goals (first | (intro ha; clear_value a) | (unfold a; clear a))) | skip)
    | split

theorem within_tsqPopRead {μ : Nat} {σ x : State} (p : ℕ) (poison : BitVec 4)  (hμ : Nat.land 59765786528804604504846801094402494523699862402460134807364373183601737147557918296785519551565501014118592253923323104279009756193749316297607562516466910644224 μ = 59765786528804604504846801094402494523699862402460134807364373183601737147557918296785519551565501014118592253923323104279009756193749316297607562516466910644224) (hw : Within μ σ x) :
    Within μ σ (tsqPopRead p poison x).1 := by
  unfold tsqPopRead
  repeat' first
    | with_reducible assumption
    | with_reducible apply Within.refl
    | with_reducible apply Eq.refl
    | ((with_reducible apply fun k => sub_trans k hμ); exact rfl)
    | ((with_reducible apply sub_set hμ); exact rfl)
    | intro _
    | with_reducible apply Within.ite
    | with_reducible apply within_setPort
    | with_reducible apply within_wr
    | with_reducible apply within_raise0
    | with_reducible apply within_setBit
    | with_reducible apply within_bump
    | with_reducible apply Within.foldl
    | (extract_lets +onlyGivenNames a; first | (refine Within.cutAny (μ := μ) (σ := σ) (a := a) ?_ ?_; all_goals (first | (intro ha; clear_value a) | (unfold a; clear a))) | skip)
    | split

theorem within_setGoWrite {μ : Nat} {σ x : State}   (hμ : Nat.land 3611741668936217036294852557916698006435881647287896558517662087463993907365091790422981690943007777737431171202498515851424574696621281957778224689004551358464 μ = 3611741668936217036294852557916698006435881647287896558517662087463993907365091790422981690943007777737431171202498515851424574696621281957778224689004551358464) (hw : Within μ σ x) :
    Within μ σ (setGoWrite x) := by
  unfold setGoWrite
  repeat' first
    | with_reducible assumption
    | with_reducible apply Within.refl
    | with_reducible apply Eq.refl
    | ((with_reducible apply fun k => sub_trans k hμ); exact rfl)
    | ((with_reducible apply sub_set hμ); exact rfl)
    | intro _
    | with_reducible apply Within.ite
    | with_reducible apply within_stepTime
    | with_reducible apply within_timeEvent
    | with_reducible apply Within.foldl
    | (extract_lets +onlyGivenNames a; first | (refine Within.cutAny (μ := μ) (σ := σ) (a := a) ?_ ?_; all_goals (first | (intro ha; clear_value a) | (unfold a; clear a))) | skip)
    | split

theorem within_domCfgWrite {μ : Nat} {σ x : State} (pf : Bool) (d : ℕ) (v : W32)  (hμ : Nat.land 10558916900988394067856536166587067942312550171032921632824859108159763608963519715171012047292399890218489870906054778870565936386741086917094743418354448484352 μ = 10558916900988394067856536166587067942312550171032921632824859108159763608963519715171012047292399890218489870906054778870565936386741086917094743418354448484352) (hw : Within μ σ x) :
    Within μ σ (domCfgWrite pf d v x) := by
  unfold domCfgWrite
  repeat' first
    | with_reducible assumption
    | with_reducible apply Within.refl
    | with_reducible apply Eq.refl
    | ((with_reducible apply fun k => sub_trans k hμ); exact rfl)
    | ((with_reducible apply sub_set hμ); exact rfl)
    | intro _
    | with_reducible apply Within.ite
    | with_reducible apply within_plainWrite
    | with_reducible apply within_setDom
    | with_reducible apply within_beginHoldover
    | with_reducible apply Within.foldl
    | (extract_lets +onlyGivenNames a; first | (refine Within.cutAny (μ := μ) (σ := σ) (a := a) ?_ ?_; all_goals (first | (intro ha; clear_value a) | (unfold a; clear a))) | skip)
    | split

theorem within_otLoRead {μ : Nat} {σ x : State}   (hμ : Nat.land 9194973245195333150150082162901855101712434733101613056 μ = 9194973245195333150150082162901855101712434733101613056) (hw : Within μ σ x) :
    Within μ σ (otLoRead x).1 := by
  unfold otLoRead
  repeat' first
    | with_reducible assumption
    | with_reducible apply Within.refl
    | with_reducible apply Eq.refl
    | ((with_reducible apply fun k => sub_trans k hμ); exact rfl)
    | ((with_reducible apply sub_set hμ); exact rfl)
    | intro _
    | with_reducible apply Within.ite
    | with_reducible apply within_wr
    | with_reducible apply Within.foldl
    | (extract_lets +onlyGivenNames a; first | (refine Within.cutAny (μ := μ) (σ := σ) (a := a) ?_ ?_; all_goals (first | (intro ha; clear_value a) | (unfold a; clear a))) | skip)
    | split

theorem within_timeCtrlWrite {μ : Nat} {σ x : State} (pf : Bool) (v : W32)  (hμ : Nat.land 10558916900988394067856536166587067942312550171032921632824859108159763608963519715171012047292399787374455229892619752421099321345712919284751093662003262146560 μ = 10558916900988394067856536166587067942312550171032921632824859108159763608963519715171012047292399787374455229892619752421099321345712919284751093662003262146560) (hw : Within μ σ x) :
    Within μ σ (timeCtrlWrite pf v x) := by
  unfold timeCtrlWrite
  repeat' first
    | with_reducible assumption
    | with_reducible apply Within.refl
    | with_reducible apply Eq.refl
    | ((with_reducible apply fun k => sub_trans k hμ); exact rfl)
    | ((with_reducible apply sub_set hμ); exact rfl)
    | intro _
    | with_reducible apply Within.ite
    | with_reducible apply within_plainWrite
    | with_reducible apply within_put
    | with_reducible apply within_selActs
    | with_reducible apply Within.foldl
    | (extract_lets +onlyGivenNames a; first | (refine Within.cutAny (μ := μ) (σ := σ) (a := a) ?_ ?_; all_goals (first | (intro ha; clear_value a) | (unfold a; clear a))) | skip)
    | split

theorem within_tsqCtrlWrite {μ : Nat} {σ x : State} (pf : Bool) (p : ℕ) (v : W32)  (hμ : Nat.land 56236422431789954785131731346074773235871213978773957913759444657647969758393598378988008576312115687707586702816344696583613141030497318323876726001366353313792 μ = 56236422431789954785131731346074773235871213978773957913759444657647969758393598378988008576312115687707586702816344696583613141030497318323876726001366353313792) (hw : Within μ σ x) :
    Within μ σ (tsqCtrlWrite pf p v x) := by
  unfold tsqCtrlWrite
  repeat' first
    | with_reducible assumption
    | with_reducible apply Within.refl
    | with_reducible apply Eq.refl
    | ((with_reducible apply fun k => sub_trans k hμ); exact rfl)
    | ((with_reducible apply sub_set hμ); exact rfl)
    | intro _
    | with_reducible apply Within.ite
    | with_reducible apply within_plainWrite
    | with_reducible apply within_setPort
    | with_reducible apply Within.foldl
    | (extract_lets +onlyGivenNames a; first | (refine Within.cutAny (μ := μ) (σ := σ) (a := a) ?_ ?_; all_goals (first | (intro ha; clear_value a) | (unfold a; clear a))) | skip)
    | split

theorem within_ppsInLoRead {μ : Nat} {σ x : State}   (hμ : Nat.land 19283256531107883306503545108093951230266435925393514023616512 μ = 19283256531107883306503545108093951230266435925393514023616512) (hw : Within μ σ x) :
    Within μ σ (ppsInLoRead x).1 := by
  unfold ppsInLoRead
  repeat' first
    | with_reducible assumption
    | with_reducible apply Within.refl
    | with_reducible apply Eq.refl
    | ((with_reducible apply fun k => sub_trans k hμ); exact rfl)
    | ((with_reducible apply sub_set hμ); exact rfl)
    | intro _
    | with_reducible apply Within.ite
    | with_reducible apply within_wr
    | with_reducible apply Within.foldl
    | (extract_lets +onlyGivenNames a; first | (refine Within.cutAny (μ := μ) (σ := σ) (a := a) ?_ ?_; all_goals (first | (intro ha; clear_value a) | (unfold a; clear a))) | skip)
    | split

theorem within_tsqPush {μ : Nat} {σ x : State} (p : ℕ) (e : TsEnt)  (hμ : Nat.land 59765786528804604504846801094402494523699862402460134807364373183601737147557918296785519551634585877453165768397157330439497559794944498880367779499294911907840 μ = 59765786528804604504846801094402494523699862402460134807364373183601737147557918296785519551634585877453165768397157330439497559794944498880367779499294911907840) (hw : Within μ σ x) :
    Within μ σ (tsqPush p e x).1 := by
  unfold tsqPush
  repeat' first
    | with_reducible assumption
    | with_reducible apply Within.refl
    | with_reducible apply Eq.refl
    | ((with_reducible apply fun k => sub_trans k hμ); exact rfl)
    | ((with_reducible apply sub_set hμ); exact rfl)
    | intro _
    | with_reducible apply Within.ite
    | with_reducible apply within_put
    | with_reducible apply within_wr
    | with_reducible apply within_bump
    | with_reducible apply within_raise
    | with_reducible apply within_setPort
    | with_reducible apply Within.foldl
    | (extract_lets +onlyGivenNames a; first | (refine Within.cutAny (μ := μ) (σ := σ) (a := a) ?_ ?_; all_goals (first | (intro ha; clear_value a) | (unfold a; clear a))) | skip)
    | split

theorem within_ref10Start {μ : Nat} {σ x : State} (at_ : W64)  (hμ : Nat.land 7029552803973744348141466418259346654483901747346744739219930582205996219799199797373501072037329464296751805988761615102227505298466630841371709654882364424192 μ = 7029552803973744348141466418259346654483901747346744739219930582205996219799199797373501072037329464296751805988761615102227505298466630841371709654882364424192) (hw : Within μ σ x) :
    Within μ σ (ref10Start at_ x) := by
  unfold ref10Start
  repeat' first
    | with_reducible assumption
    | with_reducible apply Within.refl
    | with_reducible apply Eq.refl
    | ((with_reducible apply fun k => sub_trans k hμ); exact rfl)
    | ((with_reducible apply sub_set hμ); exact rfl)
    | ((with_reducible apply Or.inl); with_reducible apply Eq.refl)
    | ((with_reducible apply Or.inr); (with_reducible apply sub_set hμ); exact rfl)
    | intro _
    | with_reducible apply Within.ite
    | with_reducible apply within_put
    | with_reducible apply Within.foldl
    | (extract_lets +onlyGivenNames a; first | (refine Within.cutAny (μ := μ) (σ := σ) (a := a) ?_ ?_; all_goals (first | (intro ha; clear_value a) | (unfold a; clear a))) | skip)
    | split
    | (with_reducible apply Within.upd)

/-! ## Vat -/

theorem within_enterStretch {μ : Nat} {σ x : State} (n : ℕ) (k : W64)  (hμ : Nat.land 630503947831869440 μ = 630503947831869440) (hw : Within μ σ x) :
    Within μ σ (enterStretch n k x) := by
  unfold enterStretch
  repeat' first
    | with_reducible assumption
    | with_reducible apply Within.refl
    | with_reducible apply Eq.refl
    | ((with_reducible apply fun k => sub_trans k hμ); exact rfl)
    | ((with_reducible apply sub_set hμ); exact rfl)
    | intro _
    | with_reducible apply Within.ite
    | with_reducible apply within_wr
    | with_reducible apply within_put
    | with_reducible apply Within.foldl
    | (extract_lets +onlyGivenNames a; first | (refine Within.cutAny (μ := μ) (σ := σ) (a := a) ?_ ?_; all_goals (first | (intro ha; clear_value a) | (unfold a; clear a))) | skip)
    | split

theorem within_squashCanvas {μ : Nat} {σ x : State} (c : ℕ)  (hμ : Nat.land 1129143398446586453960776561020954682141972940111615462751392462912270985071222645275375446298621708581956856728707586280599292299913658312697230360034926600931328 μ = 1129143398446586453960776561020954682141972940111615462751392462912270985071222645275375446298621708581956856728707586280599292299913658312697230360034926600931328) (hw : Within μ σ x) :
    Within μ σ (squashCanvas c x) := by
  unfold squashCanvas
  repeat' first
    | with_reducible assumption
    | with_reducible apply Within.refl
    | with_reducible apply Eq.refl
    | ((with_reducible apply fun k => sub_trans k hμ); exact rfl)
    | ((with_reducible apply sub_set hμ); exact rfl)
    | (intro hs; have q := fits_filter ‹_ ∈ List.filter _ _› ‹_› hs; exact q)
    | (intro hs; have q := fits_at ‹taskAt _ _ = some _› ‹_› hs; exact q)
    | (intro hs; have q := fits_on ‹taskOn _ _ = some _› ‹_› hs; exact q)
    | (intro hs; have q := fits_all ‹_ ∈ allTasks _› ‹_› hs; exact q)
    | (intro hs; have q := fits_all (List.mem_of_find?_eq_some ‹List.find? _ _ = some _›) ‹_› hs; exact q)
    | intro _
    | with_reducible apply Within.ite
    | with_reducible apply within_squash
    | with_reducible apply within_recreate
    | with_reducible apply Within.forEachMem
    | with_reducible apply Within.foldl
    | (extract_lets +onlyGivenNames a; first | (refine Within.cutAny (μ := μ) (σ := σ) (a := a) ?_ ?_; all_goals (first | (intro ha; clear_value a) | (unfold a; clear a))) | skip)
    | split

theorem within_pinCanvas {μ : Nat} {σ x : State} (c : ℕ)  (hμ : Nat.land 37778931862957161709568 μ = 37778931862957161709568) (hw : Within μ σ x) :
    Within μ σ (pinCanvas c x) := by
  unfold pinCanvas
  repeat' first
    | with_reducible assumption
    | with_reducible apply Within.refl
    | with_reducible apply Eq.refl
    | ((with_reducible apply fun k => sub_trans k hμ); exact rfl)
    | ((with_reducible apply sub_set hμ); exact rfl)
    | intro _
    | with_reducible apply Within.ite
    | with_reducible apply within_put
    | with_reducible apply Within.foldl
    | (extract_lets +onlyGivenNames a; first | (refine Within.cutAny (μ := μ) (σ := σ) (a := a) ?_ ?_; all_goals (first | (intro ha; clear_value a) | (unfold a; clear a))) | skip)
    | split

theorem within_unpinCanvas {μ : Nat} {σ x : State} (c : ℕ)  (hμ : Nat.land 37778931862957161709568 μ = 37778931862957161709568) (hw : Within μ σ x) :
    Within μ σ (unpinCanvas c x) := by
  unfold unpinCanvas
  repeat' first
    | with_reducible assumption
    | with_reducible apply Within.refl
    | with_reducible apply Eq.refl
    | ((with_reducible apply fun k => sub_trans k hμ); exact rfl)
    | ((with_reducible apply sub_set hμ); exact rfl)
    | intro _
    | with_reducible apply Within.ite
    | with_reducible apply within_put
    | with_reducible apply Within.foldl
    | (extract_lets +onlyGivenNames a; first | (refine Within.cutAny (μ := μ) (σ := σ) (a := a) ?_ ?_; all_goals (first | (intro ha; clear_value a) | (unfold a; clear a))) | skip)
    | split

theorem within_vatCmdWrite {μ : Nat} {σ x : State} (c : ℕ) (v : W32)  (hμ : Nat.land 1130900786647579890047811927625519518805593915548452148936197445557822484126172445224718825100325170504799703751018806866093827183809379524864502353737900823169024 μ = 1130900786647579890047811927625519518805593915548452148936197445557822484126172445224718825100325170504799703751018806866093827183809379524864502353737900823169024) (hw : Within μ σ x) :
    Within μ σ (vatCmdWrite c v x) := by
  unfold vatCmdWrite
  repeat' first
    | with_reducible assumption
    | with_reducible apply Within.refl
    | with_reducible apply Eq.refl
    | ((with_reducible apply fun k => sub_trans k hμ); exact rfl)
    | ((with_reducible apply sub_set hμ); exact rfl)
    | intro _
    | with_reducible apply Within.ite
    | with_reducible apply within_squashCanvas
    | with_reducible apply within_pinCanvas
    | with_reducible apply within_unpinCanvas
    | with_reducible apply within_endRest
    | with_reducible apply Within.foldl
    | (extract_lets +onlyGivenNames a; first | (refine Within.cutAny (μ := μ) (σ := σ) (a := a) ?_ ?_; all_goals (first | (intro ha; clear_value a) | (unfold a; clear a))) | skip)
    | split

theorem within_pruneSnaps {μ : Nat} {σ x : State} (c : ℕ)  (hμ : Nat.land 1757388200993436087035366604564836663620975436836686184804982645551499054949799949343375268009332366074187855716219099657503228927927460816018951242525454630912 μ = 1757388200993436087035366604564836663620975436836686184804982645551499054949799949343375268009332366074187855716219099657503228927927460816018951242525454630912) (hw : Within μ σ x) :
    Within μ σ (pruneSnaps c x) := by
  unfold pruneSnaps
  repeat' first
    | with_reducible assumption
    | with_reducible apply Within.refl
    | with_reducible apply Eq.refl
    | ((with_reducible apply fun k => sub_trans k hμ); exact rfl)
    | ((with_reducible apply sub_set hμ); exact rfl)
    | intro _
    | with_reducible apply Within.ite
    | with_reducible apply within_setCanvas
    | with_reducible apply Within.foldl
    | (extract_lets +onlyGivenNames a; first | (refine Within.cutAny (μ := μ) (σ := σ) (a := a) ?_ ?_; all_goals (first | (intro ha; clear_value a) | (unfold a; clear a))) | skip)
    | split

theorem within_stopCreating {μ : Nat} {σ x : State} (c : ℕ)  (hμ : Nat.land 878694100496718043517683302282418331810487718418343092402491322775749527474899974671687634004666183037093927858109549828751614463963730408009475621262727315456 μ = 878694100496718043517683302282418331810487718418343092402491322775749527474899974671687634004666183037093927858109549828751614463963730408009475621262727315456) (hw : Within μ σ x) :
    Within μ σ (stopCreating c x) := by
  unfold stopCreating
  repeat' first
    | with_reducible assumption
    | with_reducible apply Within.refl
    | with_reducible apply Eq.refl
    | ((with_reducible apply fun k => sub_trans k hμ); exact rfl)
    | ((with_reducible apply sub_set hμ); exact rfl)
    | ((with_reducible apply Or.inl); with_reducible apply Eq.refl)
    | ((with_reducible apply Or.inr); (with_reducible apply sub_set hμ); exact rfl)
    | intro _
    | with_reducible apply Within.ite
    | with_reducible apply Within.foldl
    | (extract_lets +onlyGivenNames a; first | (refine Within.cutAny (μ := μ) (σ := σ) (a := a) ?_ ?_; all_goals (first | (intro ha; clear_value a) | (unfold a; clear a))) | skip)
    | split
    | (with_reducible apply Within.upd)

theorem within_quietStep {μ : Nat} {σ x : State} (c : ℕ) (r : Sys2Proof.Machine.EpochRec) (dirty : List ℕ) (filled : ℕ) (pending : Bool)  (hμ : Nat.land 6165446398504803850268119655174976283260111578941206170812402494281015971589019841812573877269068872188984249668473745624590185472245510799725912884872038336512 μ = 6165446398504803850268119655174976283260111578941206170812402494281015971589019841812573877269068872188984249668473745624590185472245510799725912884872038336512) (hw : Within μ σ x) :
    Within μ σ (quietStep c r dirty filled pending x) := by
  unfold quietStep
  repeat' first
    | with_reducible assumption
    | with_reducible apply Within.refl
    | with_reducible apply Eq.refl
    | ((with_reducible apply fun k => sub_trans k hμ); exact rfl)
    | ((with_reducible apply sub_set hμ); exact rfl)
    | intro _
    | with_reducible apply Within.ite
    | with_reducible apply within_setCanvas
    | with_reducible apply within_raise
    | with_reducible apply within_put
    | with_reducible apply within_stopCreating
    | with_reducible apply Within.foldl
    | (extract_lets +onlyGivenNames a; first | (refine Within.cutAny (μ := μ) (σ := σ) (a := a) ?_ ?_; all_goals (first | (intro ha; clear_value a) | (unfold a; clear a))) | skip)
    | split

theorem within_keepRecs {μ : Nat} {σ x : State} (c : ℕ) (p : EpochRec → Bool)  (hμ : Nat.land 1757388200993436087035366604564836663620975436836686184804982645551499054949799949343375268009332366074187855716219099657503228927927460816018951242525454630912 μ = 1757388200993436087035366604564836663620975436836686184804982645551499054949799949343375268009332366074187855716219099657503228927927460816018951242525454630912) (hw : Within μ σ x) :
    Within μ σ (keepRecs c p x) := by
  unfold keepRecs
  repeat' first
    | with_reducible assumption
    | with_reducible apply Within.refl
    | with_reducible apply Eq.refl
    | ((with_reducible apply fun k => sub_trans k hμ); exact rfl)
    | ((with_reducible apply sub_set hμ); exact rfl)
    | intro _
    | with_reducible apply Within.ite
    | with_reducible apply within_setCanvas
    | with_reducible apply Within.foldl
    | (extract_lets +onlyGivenNames a; first | (refine Within.cutAny (μ := μ) (σ := σ) (a := a) ?_ ?_; all_goals (first | (intro ha; clear_value a) | (unfold a; clear a))) | skip)
    | split

theorem within_fillTile {μ : Nat} {σ x : State} (c : ℕ) (e : W32) (slot : ℕ) (prev : Option EpochRec) (n : ℕ) (inep : Option W32)  (hμ : Nat.land 1124735313433459226312349608822294546110641549010779301580598287616418580711055365235812294085613375742035204954691615261660103635861574638895941369244582078840832 μ = 1124735313433459226312349608822294546110641549010779301580598287616418580711055365235812294085613375742035204954691615261660103635861574638895941369244582078840832) (hw : Within μ σ x) :
    Within μ σ (fillTile c e slot prev n inep x) := by
  unfold fillTile
  repeat' first
    | with_reducible assumption
    | with_reducible apply Within.refl
    | with_reducible apply Eq.refl
    | ((with_reducible apply fun k => sub_trans k hμ); exact rfl)
    | ((with_reducible apply sub_set hμ); exact rfl)
    | intro _
    | with_reducible apply Within.ite
    | with_reducible apply within_writeTile
    | with_reducible apply Within.foldl
    | (extract_lets +onlyGivenNames a; first | (refine Within.cutAny (μ := μ) (σ := σ) (a := a) ?_ ?_; all_goals (first | (intro ha; clear_value a) | (unfold a; clear a))) | skip)
    | split

theorem within_settleEpoch {μ : Nat} {σ x : State} (c : ℕ) (k : CommitKind) (r : EpochRec) (prev : Option EpochRec) (unf : List ℕ)  (hμ : Nat.land 1124735313433459226312349608822294546110641549010779301580598287616418580711055365235812294085613375742035204954691615261660103635861574638895941369244582078840832 μ = 1124735313433459226312349608822294546110641549010779301580598287616418580711055365235812294085613375742035204954691615261660103635861574638895941369244582078840832) (hw : Within μ σ x) :
    Within μ σ (settleEpoch c k r prev unf x).2 := by
  unfold settleEpoch
  repeat' first
    | with_reducible assumption
    | with_reducible apply Within.refl
    | with_reducible apply Eq.refl
    | ((with_reducible apply fun k => sub_trans k hμ); exact rfl)
    | ((with_reducible apply sub_set hμ); exact rfl)
    | intro _
    | with_reducible apply Within.ite
    | with_reducible apply within_fillTile
    | with_reducible apply Within.forEach
    | with_reducible apply Within.foldl
    | (extract_lets +onlyGivenNames a; first | (refine Within.cutAny (μ := μ) (σ := σ) (a := a) ?_ ?_; all_goals (first | (intro ha; clear_value a) | (unfold a; clear a))) | skip)
    | split

theorem within_releaseCommitted {μ : Nat} {σ x : State} (c : ℕ) (e : W32)  (hμ : Nat.land 4408058197511367763232753050610139619639136142104519986007419848729516916639219892469198609259736506114796393952254645967086956544318049908149101582204027291648 μ = 4408058197511367763232753050610139619639136142104519986007419848729516916639219892469198609259736506114796393952254645967086956544318049908149101582204027291648) (hw : Within μ σ x) :
    Within μ σ (releaseCommitted c e x) := by
  unfold releaseCommitted
  repeat' first
    | with_reducible assumption
    | with_reducible apply Within.refl
    | with_reducible apply Eq.refl
    | ((with_reducible apply fun k => sub_trans k hμ); exact rfl)
    | ((with_reducible apply sub_set hμ); exact rfl)
    | (intro hs; have q := fits_filter ‹_ ∈ List.filter _ _› ‹_› hs; exact q)
    | (intro hs; have q := fits_at ‹taskAt _ _ = some _› ‹_› hs; exact q)
    | (intro hs; have q := fits_on ‹taskOn _ _ = some _› ‹_› hs; exact q)
    | (intro hs; have q := fits_all ‹_ ∈ allTasks _› ‹_› hs; exact q)
    | (intro hs; have q := fits_all (List.mem_of_find?_eq_some ‹List.find? _ _ = some _›) ‹_› hs; exact q)
    | intro _
    | with_reducible apply Within.ite
    | with_reducible apply within_makeReady
    | with_reducible apply within_wakeWaiting
    | with_reducible apply within_releaseKind
    | with_reducible apply Within.forEachMem
    | with_reducible apply Within.foldl
    | (extract_lets +onlyGivenNames a; first | (refine Within.cutAny (μ := μ) (σ := σ) (a := a) ?_ ?_; all_goals (first | (intro ha; clear_value a) | (unfold a; clear a))) | skip)
    | split

theorem within_reportUnfinished {μ : Nat} {σ x : State} (c : ℕ) (unf : List ℕ)  (hμ : Nat.land 3529364097014649719715069748327721287828648423686176893604928525953767389164319917797510975255070323077702466094145096138335342080354319651255349746998179809280 μ = 3529364097014649719715069748327721287828648423686176893604928525953767389164319917797510975255070323077702466094145096138335342080354319651255349746998179809280) (hw : Within μ σ x) :
    Within μ σ (reportUnfinished c unf x) := by
  unfold reportUnfinished
  repeat' first
    | with_reducible assumption
    | with_reducible apply Within.refl
    | with_reducible apply Eq.refl
    | ((with_reducible apply fun k => sub_trans k hμ); exact rfl)
    | ((with_reducible apply sub_set hμ); exact rfl)
    | intro _
    | with_reducible apply Within.ite
    | with_reducible apply within_raise
    | with_reducible apply within_setBit
    | with_reducible apply within_count
    | with_reducible apply Within.foldl
    | (extract_lets +onlyGivenNames a; first | (refine Within.cutAny (μ := μ) (σ := σ) (a := a) ?_ ?_; all_goals (first | (intro ha; clear_value a) | (unfold a; clear a))) | skip)
    | split

theorem within_shadowWrite {μ : Nat} {σ x : State} (pf : Bool) (r : RegId) (c : ℕ) (p : ℕ) (v : W32) (hr : μ.testBit r.num = true) (hμ : Nat.land 231111350650591502072348638223874040520283007163890167304144224701855994553387894534516240546146511956908531988449250971398848803276879237633187061744688680683520 μ = 231111350650591502072348638223874040520283007163890167304144224701855994553387894534516240546146511956908531988449250971398848803276879237633187061744688680683520) (hw : Within μ σ x) :
    Within μ σ (shadowWrite pf r c p v x) := by
  unfold shadowWrite
  repeat' first
    | with_reducible assumption
    | with_reducible apply Within.refl
    | with_reducible apply Eq.refl
    | ((with_reducible apply fun k => sub_trans k hμ); exact rfl)
    | ((with_reducible apply sub_set hμ); exact rfl)
    | ((with_reducible apply Or.inl); with_reducible apply Eq.refl)
    | ((with_reducible apply Or.inr); (with_reducible apply sub_set hμ); exact rfl)
    | exact hr
    | intro _
    | with_reducible apply Within.ite
    | with_reducible apply within_wr
    | with_reducible apply within_endRest
    | with_reducible apply within_put
    | with_reducible apply Within.foldl
    | (extract_lets +onlyGivenNames a; first | (refine Within.cutAny (μ := μ) (σ := σ) (a := a) ?_ ?_; all_goals (first | (intro ha; clear_value a) | (unfold a; clear a))) | skip)
    | split
    | (with_reducible apply Within.upd)

theorem within_renumber {μ : Nat} {σ x : State} (c : ℕ) (e : W32) (first : W32)  (hμ : Nat.land 1757388200993436087035366604564836663620975436836686184804982645551499054949799949343375268009332366074187855716219099657503228927927460816018951242525454630912 μ = 1757388200993436087035366604564836663620975436836686184804982645551499054949799949343375268009332366074187855716219099657503228927927460816018951242525454630912) (hw : Within μ σ x) :
    Within μ σ (renumber c e first x) := by
  unfold renumber
  repeat' first
    | with_reducible assumption
    | with_reducible apply Within.refl
    | with_reducible apply Eq.refl
    | ((with_reducible apply fun k => sub_trans k hμ); exact rfl)
    | ((with_reducible apply sub_set hμ); exact rfl)
    | ((with_reducible apply Or.inl); with_reducible apply Eq.refl)
    | ((with_reducible apply Or.inr); (with_reducible apply sub_set hμ); exact rfl)
    | intro _
    | with_reducible apply Within.ite
    | with_reducible apply Within.foldl
    | (extract_lets +onlyGivenNames a; first | (refine Within.cutAny (μ := μ) (σ := σ) (a := a) ?_ ?_; all_goals (first | (intro ha; clear_value a) | (unfold a; clear a))) | skip)
    | split
    | (with_reducible apply Within.upd)

theorem within_withdrawAbove {μ : Nat} {σ x : State} (c : ℕ) (lim : W32)  (hμ : Nat.land 1130900759831964030162617728477469522393901660589720507751410690110699596682644385077624867962882444614224189204360089007284693821333820149638998888000807321487360 μ = 1130900759831964030162617728477469522393901660589720507751410690110699596682644385077624867962882444614224189204360089007284693821333820149638998888000807321487360) (hw : Within μ σ x) :
    Within μ σ (withdrawAbove c lim x) := by
  unfold withdrawAbove
  repeat' first
    | with_reducible assumption
    | with_reducible apply Within.refl
    | with_reducible apply Eq.refl
    | ((with_reducible apply fun k => sub_trans k hμ); exact rfl)
    | ((with_reducible apply sub_set hμ); exact rfl)
    | intro _
    | with_reducible apply Within.ite
    | with_reducible apply within_cancelEpochs
    | with_reducible apply within_keepRecs
    | with_reducible apply within_wr
    | with_reducible apply Within.foldl
    | (extract_lets +onlyGivenNames a; first | (refine Within.cutAny (μ := μ) (σ := σ) (a := a) ?_ ?_; all_goals (first | (intro ha; clear_value a) | (unfold a; clear a))) | skip)
    | split

theorem within_fixSlots {μ : Nat} {σ x : State} (c : ℕ)  (hμ : Nat.land 37778931862957161709568 μ = 37778931862957161709568) (hw : Within μ σ x) :
    Within μ σ (fixSlots c x) := by
  unfold fixSlots
  repeat' first
    | with_reducible assumption
    | with_reducible apply Within.refl
    | with_reducible apply Eq.refl
    | ((with_reducible apply fun k => sub_trans k hμ); exact rfl)
    | ((with_reducible apply sub_set hμ); exact rfl)
    | intro _
    | with_reducible apply Within.ite
    | with_reducible apply within_put
    | with_reducible apply Within.foldl
    | (extract_lets +onlyGivenNames a; first | (refine Within.cutAny (μ := μ) (σ := σ) (a := a) ?_ ?_; all_goals (first | (intro ha; clear_value a) | (unfold a; clear a))) | skip)
    | split

theorem within_startCanvas {μ : Nat} {σ x : State} (c : ℕ) (e : W32)  (hμ : Nat.land 6165446398504803850268119655174976283260111578941206170812402494281015971589019841812573877269068872188984249668473745624590185472245511021677141245517130385408 μ = 6165446398504803850268119655174976283260111578941206170812402494281015971589019841812573877269068872188984249668473745624590185472245511021677141245517130385408) (hw : Within μ σ x) :
    Within μ σ (startCanvas c e x) := by
  unfold startCanvas
  repeat' first
    | with_reducible assumption
    | with_reducible apply Within.refl
    | with_reducible apply Eq.refl
    | ((with_reducible apply fun k => sub_trans k hμ); exact rfl)
    | ((with_reducible apply sub_set hμ); exact rfl)
    | intro _
    | with_reducible apply Within.ite
    | with_reducible apply within_setCanvas
    | with_reducible apply within_put
    | with_reducible apply within_wr
    | with_reducible apply within_fixSlots
    | with_reducible apply within_releaseUp
    | with_reducible apply within_placeLog
    | with_reducible apply within_takeTmpls
    | with_reducible apply Within.foldl
    | (extract_lets +onlyGivenNames a; first | (refine Within.cutAny (μ := μ) (σ := σ) (a := a) ?_ ?_; all_goals (first | (intro ha; clear_value a) | (unfold a; clear a))) | skip)
    | split

theorem within_startCanvases {μ : Nat} {σ x : State} (cs : List ℕ)  (hμ : Nat.land 6165446398504803850268119655174976283260111578941206170812402494281015971589019841812573877269068872188984249668473745624590185472245511021677141245517130385408 μ = 6165446398504803850268119655174976283260111578941206170812402494281015971589019841812573877269068872188984249668473745624590185472245511021677141245517130385408) (hw : Within μ σ x) :
    Within μ σ (startCanvases cs x) := by
  unfold startCanvases
  repeat' first
    | with_reducible assumption
    | with_reducible apply Within.refl
    | with_reducible apply Eq.refl
    | ((with_reducible apply fun k => sub_trans k hμ); exact rfl)
    | ((with_reducible apply sub_set hμ); exact rfl)
    | intro _
    | with_reducible apply Within.ite
    | with_reducible apply within_startCanvas
    | with_reducible apply Within.forEach
    | with_reducible apply Within.foldl
    | (extract_lets +onlyGivenNames a; first | (refine Within.cutAny (μ := μ) (σ := σ) (a := a) ?_ ?_; all_goals (first | (intro ha; clear_value a) | (unfold a; clear a))) | skip)
    | split

theorem within_enableCanvas {μ : Nat} {σ x : State} (c : ℕ)  (hμ : Nat.land 231111136125664622990795045039474069226744967494037037825850181124872895005163413357764611716157741286453688947939519987622035143214754246710023755187196335769600 μ = 231111136125664622990795045039474069226744967494037037825850181124872895005163413357764611716157741286453688947939519987622035143214754246710023755187196335769600) (hw : Within μ σ x) :
    Within μ σ (enableCanvas c x) := by
  unfold enableCanvas
  repeat' first
    | with_reducible assumption
    | with_reducible apply Within.refl
    | with_reducible apply Eq.refl
    | ((with_reducible apply fun k => sub_trans k hμ); exact rfl)
    | ((with_reducible apply sub_set hμ); exact rfl)
    | intro _
    | with_reducible apply Within.ite
    | with_reducible apply within_put
    | with_reducible apply within_holdEnds
    | with_reducible apply within_startCanvases
    | with_reducible apply Within.foldl
    | (extract_lets +onlyGivenNames a; first | (refine Within.cutAny (μ := μ) (σ := σ) (a := a) ?_ ?_; all_goals (first | (intro ha; clear_value a) | (unfold a; clear a))) | skip)
    | split

theorem within_movePointers {μ : Nat} {σ x : State} (c : ℕ) (r : EpochRec)  (hμ : Nat.land 1757388200993436087035366604564836663620975436836686184804982645551499054949799949343375268009332366074187855716219099657503228927927463285816621783349901393920 μ = 1757388200993436087035366604564836663620975436836686184804982645551499054949799949343375268009332366074187855716219099657503228927927463285816621783349901393920) (hw : Within μ σ x) :
    Within μ σ (movePointers c r x) := by
  unfold movePointers
  repeat' first
    | with_reducible assumption
    | with_reducible apply Within.refl
    | with_reducible apply Eq.refl
    | ((with_reducible apply fun k => sub_trans k hμ); exact rfl)
    | ((with_reducible apply sub_set hμ); exact rfl)
    | intro _
    | with_reducible apply Within.ite
    | with_reducible apply within_setCanvas
    | with_reducible apply within_put
    | with_reducible apply within_wr
    | with_reducible apply Within.foldl
    | (extract_lets +onlyGivenNames a; first | (refine Within.cutAny (μ := μ) (σ := σ) (a := a) ?_ ?_; all_goals (first | (intro ha; clear_value a) | (unfold a; clear a))) | skip)
    | split

theorem within_vatCmd {μ : Nat} {σ x : State} (fn : ℕ) (c : ℕ) (v : W32)  (hμ : Nat.land 1243373631511159799618075390317669065277336343506000064763716334873118423642959642160551491324890991277548041383918833637935243007846197867781757546995359183554560 μ = 1243373631511159799618075390317669065277336343506000064763716334873118423642959642160551491324890991277548041383918833637935243007846197867781757546995359183554560) (hw : Within μ σ x) :
    Within μ σ (vatCmd fn c v x) := by
  unfold vatCmd
  repeat' first
    | with_reducible assumption
    | with_reducible apply Within.refl
    | with_reducible apply Eq.refl
    | ((with_reducible apply fun k => sub_trans k hμ); exact rfl)
    | ((with_reducible apply sub_set hμ); exact rfl)
    | intro _
    | with_reducible apply Within.ite
    | with_reducible apply within_hostWrite
    | with_reducible apply within_vatCmdWrite
    | with_reducible apply Within.foldl
    | (extract_lets +onlyGivenNames a; first | (refine Within.cutAny (μ := μ) (σ := σ) (a := a) ?_ ?_; all_goals (first | (intro ha; clear_value a) | (unfold a; clear a))) | skip)
    | split

theorem within_applyReg {μ : Nat} {σ z : State} (x : RegId × ℕ × ℕ)  (hμ : Nat.land 214524926879081553593184399971293538039669853129478294043576983099548224481176751628829988770670454843040509730983776813660062124991145119142938384097345536 μ = 214524926879081553593184399971293538039669853129478294043576983099548224481176751628829988770670454843040509730983776813660062124991145119142938384097345536) (hw : Within μ σ z) :
    Within μ σ (applyReg x z) := by
  unfold applyReg
  repeat' first
    | with_reducible assumption
    | with_reducible apply Within.refl
    | with_reducible apply Eq.refl
    | ((with_reducible apply fun k => sub_trans k hμ); exact rfl)
    | ((with_reducible apply sub_set hμ); exact rfl)
    | ((with_reducible apply Or.inl); with_reducible apply Eq.refl)
    | ((with_reducible apply Or.inr); (with_reducible apply sub_set hμ); exact rfl)
    | intro _
    | with_reducible apply Within.ite
    | with_reducible apply Within.foldl
    | (extract_lets +onlyGivenNames a; first | (refine Within.cutAny (μ := μ) (σ := σ) (a := a) ?_ ?_; all_goals (first | (intro ha; clear_value a) | (unfold a; clear a))) | skip)
    | split
    | (with_reducible apply Within.upd)

theorem within_endCopies {μ : Nat} {σ x : State} (c : ℕ)  (hμ : Nat.land 1757388200993436087035366604564836663620975436836686184804982645551499054949799949343375268009332366074187855716219099657503228927927460816018951242525454630912 μ = 1757388200993436087035366604564836663620975436836686184804982645551499054949799949343375268009332366074187855716219099657503228927927460816018951242525454630912) (hw : Within μ σ x) :
    Within μ σ (endCopies c x) := by
  unfold endCopies
  repeat' first
    | with_reducible assumption
    | with_reducible apply Within.refl
    | with_reducible apply Eq.refl
    | ((with_reducible apply fun k => sub_trans k hμ); exact rfl)
    | ((with_reducible apply sub_set hμ); exact rfl)
    | intro _
    | with_reducible apply Within.ite
    | with_reducible apply within_setCanvas
    | with_reducible apply within_keepRecs
    | with_reducible apply Within.foldl
    | (extract_lets +onlyGivenNames a; first | (refine Within.cutAny (μ := μ) (σ := σ) (a := a) ?_ ?_; all_goals (first | (intro ha; clear_value a) | (unfold a; clear a))) | skip)
    | split

theorem within_discardReg {μ : Nat} {σ z : State} (x : RegId × ℕ × ℕ) (hr : μ.testBit x.1.num = true) (hμ : Nat.land 214524926879081553593184399971293538039669853129478294043576983099548224481176751628829988770670454843040509730983776813660062124991145119142938384097345536 μ = 214524926879081553593184399971293538039669853129478294043576983099548224481176751628829988770670454843040509730983776813660062124991145119142938384097345536) (hw : Within μ σ z) :
    Within μ σ (discardReg x z) := by
  unfold discardReg
  repeat' first
    | with_reducible assumption
    | with_reducible apply Within.refl
    | with_reducible apply Eq.refl
    | ((with_reducible apply fun k => sub_trans k hμ); exact rfl)
    | ((with_reducible apply sub_set hμ); exact rfl)
    | exact hr
    | intro _
    | with_reducible apply Within.ite
    | with_reducible apply within_applyReg
    | with_reducible apply within_wr
    | with_reducible apply Within.foldl
    | (extract_lets +onlyGivenNames a; first | (refine Within.cutAny (μ := μ) (σ := σ) (a := a) ?_ ?_; all_goals (first | (intro ha; clear_value a) | (unfold a; clear a))) | skip)
    | split

theorem pend_bit {μ : Nat} {s : State} {c : Nat} {x : RegId × Nat × Nat} (h : x ∈ pendingRegs s c)
    (hμ : Nat.land 40282568880416921167491399417856 μ = 40282568880416921167491399417856) : μ.testBit x.1.num = true := by
  refine sub_set hμ ?_
  have hx := (List.mem_filter.mp h).1
  unfold shadowRegs at hx
  simp only [List.map_cons, List.map_nil, List.mem_append, List.mem_cons, List.mem_nil_iff, or_false, List.mem_flatMap] at hx
  rcases hx with (rfl | rfl | rfl | rfl | rfl | rfl | rfl) | ⟨p, _, (rfl | rfl | rfl | rfl | rfl | rfl | rfl)⟩ <;> dsimp only <;> exact rfl

theorem take_bit {μ : Nat} {s : State} {c : Nat} {b : Bool} {q : RegId × Nat × Nat → Bool} {x : RegId × Nat × Nat}
    (h : x ∈ if b then pendingRegs s c else (pendingRegs s c).filter q)
    (hμ : Nat.land 40282568880416921167491399417856 μ = 40282568880416921167491399417856) : μ.testBit x.1.num = true := by
  split at h
  · exact pend_bit h hμ
  · exact pend_bit (List.mem_of_mem_filter h) hμ

theorem within_applyShadows {μ : Nat} {σ x : State} (c : ℕ) (agree : Bool) (period : ℕ)  (hμ : Nat.land 214524926879081553593184399971293538039669853129478294043576983099548224481176751628829988770670454843040509730983776813660102407560252209655283618467020800 μ = 214524926879081553593184399971293538039669853129478294043576983099548224481176751628829988770670454843040509730983776813660102407560252209655283618467020800) (hw : Within μ σ x) :
    Within μ σ (applyShadows c agree period x) := by
  unfold applyShadows
  repeat' first
    | with_reducible assumption
    | with_reducible apply Within.refl
    | with_reducible apply Eq.refl
    | ((with_reducible apply fun k => sub_trans k hμ); exact rfl)
    | ((with_reducible apply sub_set hμ); exact rfl)
    | exact pend_bit ‹_ ∈ pendingRegs _ _› (sub_trans rfl hμ)
    | exact pend_bit ‹_ ∈ pendingRegs _ _› (sub_trans rfl hμ)
    | exact take_bit ‹_ ∈ ite _ _ _› (sub_trans rfl hμ)
    | intro _
    | with_reducible apply Within.ite
    | with_reducible apply within_applyReg
    | with_reducible apply within_put
    | with_reducible apply within_discardReg
    | with_reducible apply within_setBit
    | with_reducible apply Within.forEachMem
    | with_reducible apply Within.foldl
    | (extract_lets +onlyGivenNames a; first | (refine Within.cutAny (μ := μ) (σ := σ) (a := a) ?_ ?_; all_goals (first | (intro ha; clear_value a) | (unfold a; clear a))) | skip)
    | split

theorem within_commitEnv {μ : Nat} {σ x : State} (c : ℕ) (agree : Bool)  (hμ : Nat.land 214524926879081553593184399971293538039669853129478294043576983099548224481176751628829988770670454843040509730983776813660102407560252209655283618467020800 μ = 214524926879081553593184399971293538039669853129478294043576983099548224481176751628829988770670454843040509730983776813660102407560252209655283618467020800) (hw : Within μ σ x) :
    Within μ σ (commitEnv c agree x).2 := by
  unfold commitEnv
  repeat' first
    | with_reducible assumption
    | with_reducible apply Within.refl
    | with_reducible apply Eq.refl
    | ((with_reducible apply fun k => sub_trans k hμ); exact rfl)
    | ((with_reducible apply sub_set hμ); exact rfl)
    | intro _
    | with_reducible apply Within.ite
    | with_reducible apply within_applyShadows
    | with_reducible apply Within.foldl
    | (extract_lets +onlyGivenNames a; first | (refine Within.cutAny (μ := μ) (σ := σ) (a := a) ?_ ?_; all_goals (first | (intro ha; clear_value a) | (unfold a; clear a))) | skip)
    | split

theorem within_freezeEpoch {μ : Nat} {σ x : State} (c : ℕ) (e : W32)  (hμ : Nat.land 4408058197511367763232753050610139619639136142104519986007419848729516916639219892469198609259736506114796393952254645967086956544318049908149101582221207160832 μ = 4408058197511367763232753050610139619639136142104519986007419848729516916639219892469198609259736506114796393952254645967086956544318049908149101582221207160832) (hw : Within μ σ x) :
    Within μ σ (freezeEpoch c e x) := by
  unfold freezeEpoch
  repeat' first
    | with_reducible assumption
    | with_reducible apply Within.refl
    | with_reducible apply Eq.refl
    | ((with_reducible apply fun k => sub_trans k hμ); exact rfl)
    | ((with_reducible apply sub_set hμ); exact rfl)
    | ((with_reducible apply Or.inl); with_reducible apply Eq.refl)
    | ((with_reducible apply Or.inr); (with_reducible apply sub_set hμ); exact rfl)
    | (intro hs; have q := fits_filter ‹_ ∈ List.filter _ _› ‹_› hs; exact q)
    | (intro hs; have q := fits_at ‹taskAt _ _ = some _› ‹_› hs; exact q)
    | (intro hs; have q := fits_on ‹taskOn _ _ = some _› ‹_› hs; exact q)
    | (intro hs; have q := fits_all ‹_ ∈ allTasks _› ‹_› hs; exact q)
    | (intro hs; have q := fits_all (List.mem_of_find?_eq_some ‹List.find? _ _ = some _›) ‹_› hs; exact q)
    | intro _
    | with_reducible apply Within.ite
    | with_reducible apply within_finish
    | with_reducible apply Within.forEachMem
    | with_reducible apply Within.foldl
    | (extract_lets +onlyGivenNames a; first | (refine Within.cutAny (μ := μ) (σ := σ) (a := a) ?_ ?_; all_goals (first | (intro ha; clear_value a) | (unfold a; clear a))) | skip)
    | split
    | (with_reducible apply Within.upd)

theorem within_restartCanvas {μ : Nat} {σ x : State} (c : ℕ) (e : W32) (latch : W64) (oldFc : ℕ) (oldPeriod : ℕ)  (hμ : Nat.land 1130900759831964030162617728477469522393901660589720507751410690110699596682644385077624867962882444614224189204360089007284693821333820151008485168033004433459200 μ = 1130900759831964030162617728477469522393901660589720507751410690110699596682644385077624867962882444614224189204360089007284693821333820151008485168033004433459200) (hw : Within μ σ x) :
    Within μ σ (restartCanvas c e latch oldFc oldPeriod x) := by
  unfold restartCanvas
  repeat' first
    | with_reducible assumption
    | with_reducible apply Within.refl
    | with_reducible apply Eq.refl
    | ((with_reducible apply fun k => sub_trans k hμ); exact rfl)
    | ((with_reducible apply sub_set hμ); exact rfl)
    | intro _
    | with_reducible apply Within.ite
    | with_reducible apply within_withdrawAbove
    | with_reducible apply within_renumber
    | with_reducible apply within_setCanvas
    | with_reducible apply within_wr
    | with_reducible apply within_raise
    | with_reducible apply within_setBit
    | with_reducible apply Within.foldl
    | (extract_lets +onlyGivenNames a; first | (refine Within.cutAny (μ := μ) (σ := σ) (a := a) ?_ ?_; all_goals (first | (intro ha; clear_value a) | (unfold a; clear a))) | skip)
    | split

theorem within_journalCommit {μ : Nat} {σ x : State} (c : ℕ) (r : EpochRec) (miss : Bool) (unf : List ℕ)  (hμ : Nat.land 112473702963287425896477835429749431645894586636960433740695063623228337709685121464982532476003227283962676821594324244325974017861411942890882728856427597660160 μ = 112473702963287425896477835429749431645894586636960433740695063623228337709685121464982532476003227283962676821594324244325974017861411942890882728856427597660160) (hw : Within μ σ x) :
    Within μ σ (journalCommit c r miss unf x) := by
  unfold journalCommit
  repeat' first
    | with_reducible assumption
    | with_reducible apply Within.refl
    | with_reducible apply Eq.refl
    | ((with_reducible apply fun k => sub_trans k hμ); exact rfl)
    | ((with_reducible apply sub_set hμ); exact rfl)
    | intro _
    | with_reducible apply Within.ite
    | with_reducible apply within_journal
    | with_reducible apply Within.foldl
    | (extract_lets +onlyGivenNames a; first | (refine Within.cutAny (μ := μ) (σ := σ) (a := a) ?_ ?_; all_goals (first | (intro ha; clear_value a) | (unfold a; clear a))) | skip)
    | split

theorem within_afterCommit {μ : Nat} {σ x : State} (c : ℕ) (v : CommitEnv) (prev : Option W32) (r : EpochRec) (unf : List ℕ) (filled : ℕ)  (hμ : Nat.land 441997720244876953435039037587254468861262019914439380002448098591052781599139407278969640347034368831982854361008188391824586909013643726922986020152402876844032 μ = 441997720244876953435039037587254468861262019914439380002448098591052781599139407278969640347034368831982854361008188391824586909013643726922986020152402876844032) (hw : Within μ σ x) :
    Within μ σ (afterCommit c v prev r unf filled x) := by
  unfold afterCommit
  repeat' first
    | with_reducible assumption
    | with_reducible apply Within.refl
    | with_reducible apply Eq.refl
    | ((with_reducible apply fun k => sub_trans k hμ); exact rfl)
    | ((with_reducible apply sub_set hμ); exact rfl)
    | ((with_reducible apply Or.inl); with_reducible apply Eq.refl)
    | ((with_reducible apply Or.inr); (with_reducible apply sub_set hμ); exact rfl)
    | intro _
    | with_reducible apply Within.ite
    | with_reducible apply within_setCanvas
    | with_reducible apply within_put
    | with_reducible apply within_wr
    | with_reducible apply within_sendEpoch
    | with_reducible apply within_quietStep
    | with_reducible apply within_autoImports
    | with_reducible apply within_journalCommit
    | with_reducible apply within_pruneSnaps
    | with_reducible apply within_pruneLog
    | with_reducible apply Within.foldl
    | (extract_lets +onlyGivenNames a; first | (refine Within.cutAny (μ := μ) (σ := σ) (a := a) ?_ ?_; all_goals (first | (intro ha; clear_value a) | (unfold a; clear a))) | skip)
    | split
    | (with_reducible apply Within.upd)

theorem within_commitHalf {μ : Nat} {σ x : State} (c : ℕ) (v : CommitEnv) (listed : List ℕ)  (hμ : Nat.land 1341787343951176360606861721025249922028418713010122849928008607576879483276620378998829900127453201716522013784023758897324277242100503385217230317558276558964736 μ = 1341787343951176360606861721025249922028418713010122849928008607576879483276620378998829900127453201716522013784023758897324277242100503385217230317558276558964736) (hw : Within μ σ x) :
    Within μ σ (commitHalf c v listed x) := by
  unfold commitHalf
  repeat' first
    | with_reducible assumption
    | with_reducible apply Within.refl
    | with_reducible apply Eq.refl
    | ((with_reducible apply fun k => sub_trans k hμ); exact rfl)
    | ((with_reducible apply sub_set hμ); exact rfl)
    | intro _
    | with_reducible apply Within.ite
    | with_reducible apply within_freezeEpoch
    | with_reducible apply within_settleEpoch
    | with_reducible apply within_movePointers
    | with_reducible apply within_reportUnfinished
    | with_reducible apply within_setBit
    | with_reducible apply within_put
    | with_reducible apply within_takeTmpls
    | with_reducible apply within_restartCanvas
    | with_reducible apply within_withdrawAbove
    | with_reducible apply within_fixSlots
    | with_reducible apply within_releaseUp
    | with_reducible apply within_raise
    | with_reducible apply within_afterCommit
    | with_reducible apply within_releaseCommitted
    | with_reducible apply Within.foldl
    | (extract_lets +onlyGivenNames a; first | (refine Within.cutAny (μ := μ) (σ := σ) (a := a) ?_ ?_; all_goals (first | (intro ha; clear_value a) | (unfold a; clear a))) | skip)
    | split

theorem within_enterHold {μ : Nat} {σ x : State}   (hμ : Nat.land 678366433278494107141295845901225000118283216168973671858718264417729404489887508143132302215545849816785088243760323153669670176004251096284983203309494342797312 μ = 678366433278494107141295845901225000118283216168973671858718264417729404489887508143132302215545849816785088243760323153669670176004251096284983203309494342797312) (hw : Within μ σ x) :
    Within μ σ (enterHold x) := by
  unfold enterHold
  repeat' first
    | with_reducible assumption
    | with_reducible apply Within.refl
    | with_reducible apply Eq.refl
    | ((with_reducible apply fun k => sub_trans k hμ); exact rfl)
    | ((with_reducible apply sub_set hμ); exact rfl)
    | ((with_reducible apply Or.inl); with_reducible apply Eq.refl)
    | ((with_reducible apply Or.inr); (with_reducible apply sub_set hμ); exact rfl)
    | intro _
    | with_reducible apply Within.ite
    | with_reducible apply within_abortRot
    | with_reducible apply within_enterMode
    | with_reducible apply Within.foldl
    | (extract_lets +onlyGivenNames a; first | (refine Within.cutAny (μ := μ) (σ := σ) (a := a) ?_ ?_; all_goals (first | (intro ha; clear_value a) | (unfold a; clear a))) | skip)
    | split
    | (with_reducible apply Within.upd)

theorem Within.foldlSnd {m : Nat} {s : State} {α β : Type} {xs : List α} {f : β × State → α → β × State} {p : β × State}
    (h : Within m s p.2) (hf : ∀ a q, Within m s q.2 → Within m s (f q a).2) : Within m s (xs.foldl f p).2 := by
  induction xs generalizing p with
  | nil => exact h
  | cons a xs ih => exact ih (hf a p h)

theorem within_commitNow {μ : Nat} {σ x : State} (cs : List ℕ)  (hμ : Nat.land 1798708490734396622317610631396507425863410366257514387455598138997252337111792854682337786964575538487484949642760155230518669117824072943573147722659662129022976 μ = 1798708490734396622317610631396507425863410366257514387455598138997252337111792854682337786964575538487484949642760155230518669117824072943573147722659662129022976) (hw : Within μ σ x) :
    Within μ σ (commitNow cs x) := by
  unfold commitNow
  repeat' first
    | with_reducible assumption
    | with_reducible apply Within.refl
    | with_reducible apply Eq.refl
    | ((with_reducible apply fun k => sub_trans k hμ); exact rfl)
    | ((with_reducible apply sub_set hμ); exact rfl)
    | with_reducible apply Within.foldlSnd
    | intro _
    | with_reducible apply Within.ite
    | with_reducible apply within_fixSlots
    | with_reducible apply within_releaseUp
    | with_reducible apply within_endCopies
    | with_reducible apply within_commitEnv
    | with_reducible apply within_raise
    | with_reducible apply within_bump
    | with_reducible apply within_commitHalf
    | with_reducible apply within_selActs
    | with_reducible apply within_enterHold
    | with_reducible apply Within.forEach
    | with_reducible apply Within.foldl
    | (extract_lets +onlyGivenNames a; first | (refine Within.cutAny (μ := μ) (σ := σ) (a := a) ?_ ?_; all_goals (first | (intro ha; clear_value a) | (unfold a; clear a))) | skip)
    | split

theorem within_stopCanvas {μ : Nat} {σ x : State} (c : ℕ)  (hμ : Nat.land 1201196502396628352725585985844462960232278717733041084621904039509742658428860864228111507513244509927646546473518583977361636638513043573481549090120663774021632 μ = 1201196502396628352725585985844462960232278717733041084621904039509742658428860864228111507513244509927646546473518583977361636638513043573481549090120663774021632) (hw : Within μ σ x) :
    Within μ σ (stopCanvas c x) := by
  unfold stopCanvas
  repeat' first
    | with_reducible assumption
    | with_reducible apply Within.refl
    | with_reducible apply Eq.refl
    | ((with_reducible apply fun k => sub_trans k hμ); exact rfl)
    | ((with_reducible apply sub_set hμ); exact rfl)
    | ((with_reducible apply Or.inl); with_reducible apply Eq.refl)
    | ((with_reducible apply Or.inr); (with_reducible apply sub_set hμ); exact rfl)
    | intro _
    | with_reducible apply Within.ite
    | with_reducible apply within_put
    | with_reducible apply within_applyReg
    | with_reducible apply within_cancelEpochs
    | with_reducible apply within_setCanvas
    | with_reducible apply within_dequeue
    | with_reducible apply within_wr
    | with_reducible apply Within.forEach
    | with_reducible apply Within.foldl
    | (extract_lets +onlyGivenNames a; first | (refine Within.cutAny (μ := μ) (σ := σ) (a := a) ?_ ?_; all_goals (first | (intro ha; clear_value a) | (unfold a; clear a))) | skip)
    | split
    | (with_reducible apply Within.upd)

theorem within_disableCanvas {μ : Nat} {σ x : State} (c : ℕ)  (hμ : Nat.land 1201196502396628352725585985844462960232278717733041084621904039509742658428860864228111511046938639484415205640113585463198668293480837324719465333333066359261184 μ = 1201196502396628352725585985844462960232278717733041084621904039509742658428860864228111511046938639484415205640113585463198668293480837324719465333333066359261184) (hw : Within μ σ x) :
    Within μ σ (disableCanvas c x) := by
  unfold disableCanvas
  repeat' first
    | with_reducible assumption
    | with_reducible apply Within.refl
    | with_reducible apply Eq.refl
    | ((with_reducible apply fun k => sub_trans k hμ); exact rfl)
    | ((with_reducible apply sub_set hμ); exact rfl)
    | intro _
    | with_reducible apply Within.ite
    | with_reducible apply within_holdEnds
    | with_reducible apply within_stopCanvas
    | with_reducible apply Within.forEach
    | with_reducible apply Within.foldl
    | (extract_lets +onlyGivenNames a; first | (refine Within.cutAny (μ := μ) (σ := σ) (a := a) ?_ ?_; all_goals (first | (intro ha; clear_value a) | (unfold a; clear a))) | skip)
    | split

theorem within_geometryWrite {μ : Nat} {σ x : State} (pf : Bool) (r : RegId) (c : ℕ) (v : W32) (hr : μ.testBit r.num = true) (hμ : Nat.land 65185151242703554760590262029100101153646988597309960020356494379340201592426774597868716031 μ = 65185151242703554760590262029100101153646988597309960020356494379340201592426774597868716031) (hw : Within μ σ x) :
    Within μ σ (geometryWrite pf r c v x) := by
  unfold geometryWrite
  repeat' first
    | with_reducible assumption
    | with_reducible apply Within.refl
    | with_reducible apply Eq.refl
    | ((with_reducible apply fun k => sub_trans k hμ); exact rfl)
    | ((with_reducible apply sub_set hμ); exact rfl)
    | exact hr
    | intro _
    | with_reducible apply Within.ite
    | with_reducible apply within_plainWrite
    | with_reducible apply within_put
    | with_reducible apply Within.foldl
    | (extract_lets +onlyGivenNames a; first | (refine Within.cutAny (μ := μ) (σ := σ) (a := a) ?_ ?_; all_goals (first | (intro ha; clear_value a) | (unfold a; clear a))) | skip)
    | split

theorem within_disableAll {μ : Nat} {σ x : State}   (hμ : Nat.land 1201196502396628352725585985844462960232278717733041084621904039509742658428860864228111511046938639484415205640113585463198668293480837324719465333333066359261184 μ = 1201196502396628352725585985844462960232278717733041084621904039509742658428860864228111511046938639484415205640113585463198668293480837324719465333333066359261184) (hw : Within μ σ x) :
    Within μ σ (disableAll x) := by
  unfold disableAll
  repeat' first
    | with_reducible assumption
    | with_reducible apply Within.refl
    | with_reducible apply Eq.refl
    | ((with_reducible apply fun k => sub_trans k hμ); exact rfl)
    | ((with_reducible apply sub_set hμ); exact rfl)
    | intro _
    | with_reducible apply Within.ite
    | with_reducible apply within_disableCanvas
    | with_reducible apply Within.forEach
    | with_reducible apply Within.foldl
    | (extract_lets +onlyGivenNames a; first | (refine Within.cutAny (μ := μ) (σ := σ) (a := a) ?_ ?_; all_goals (first | (intro ha; clear_value a) | (unfold a; clear a))) | skip)
    | split

theorem within_canvasCtrlWrite {μ : Nat} {σ x : State} (pf : Bool) (c : ℕ) (v : W32)  (hμ : Nat.land 1201196502396628352725585985844462960232278717733041084621904039509742658428860864228111511046938639484415205640113585463198668293480837324941416558027939684304896 μ = 1201196502396628352725585985844462960232278717733041084621904039509742658428860864228111511046938639484415205640113585463198668293480837324941416558027939684304896) (hw : Within μ σ x) :
    Within μ σ (canvasCtrlWrite pf c v x) := by
  unfold canvasCtrlWrite
  repeat' first
    | with_reducible assumption
    | with_reducible apply Within.refl
    | with_reducible apply Eq.refl
    | ((with_reducible apply fun k => sub_trans k hμ); exact rfl)
    | ((with_reducible apply sub_set hμ); exact rfl)
    | intro _
    | with_reducible apply Within.ite
    | with_reducible apply within_wr
    | with_reducible apply within_disableCanvas
    | with_reducible apply within_enableCanvas
    | with_reducible apply within_plainWrite
    | with_reducible apply within_shadowWrite
    | with_reducible apply Within.foldl
    | (extract_lets +onlyGivenNames a; first | (refine Within.cutAny (μ := μ) (σ := σ) (a := a) ?_ ?_; all_goals (first | (intro ha; clear_value a) | (unfold a; clear a))) | skip)
    | split

theorem within_keepUniverses {μ : Nat} {σ x : State} (c : ℕ)  (hμ : Nat.land 326888793079806889734222524988257667394088128801636434897721735307429593499927510596978560288972225680728267917878459434512726039727210670074866175129172551157760 μ = 326888793079806889734222524988257667394088128801636434897721735307429593499927510596978560288972225680728267917878459434512726039727210670074866175129172551157760) (hw : Within μ σ x) :
    Within μ σ (keepUniverses c x) := by
  unfold keepUniverses
  repeat' first
    | with_reducible assumption
    | with_reducible apply Within.refl
    | with_reducible apply Eq.refl
    | ((with_reducible apply fun k => sub_trans k hμ); exact rfl)
    | ((with_reducible apply sub_set hμ); exact rfl)
    | ((with_reducible apply Or.inl); with_reducible apply Eq.refl)
    | ((with_reducible apply Or.inr); (with_reducible apply sub_set hμ); exact rfl)
    | intro _
    | with_reducible apply Within.ite
    | with_reducible apply within_sendUniv
    | with_reducible apply within_noteData
    | with_reducible apply Within.forEach
    | with_reducible apply Within.foldl
    | (extract_lets +onlyGivenNames a; first | (refine Within.cutAny (μ := μ) (σ := σ) (a := a) ?_ ?_; all_goals (first | (intro ha; clear_value a) | (unfold a; clear a))) | skip)
    | split
    | (with_reducible apply Within.upd)

end Sys2Proof.Machine
end

