-- ==== Sys2Proof/Laws/FootprintPorts.lean ====
section
/-!
SUPPORT. Footprints of the ports, of power and tests, of the bus and of the twin.
-/

set_option linter.unreachableTactic false
set_option linter.unusedTactic false

namespace Sys2Proof.Machine

/-- Every register's bit. -/
theorem all_reg (r : RegId) : Nat.testBit 65185151242703554760590262029100101153646988597309960020356494379340201592426774597868716031 r.num = true := by cases r <;> exact rfl

/-! ## Nodes -/

theorem within_writeStatus {μ : Nat} {σ x : State} (e : ℕ)  (hμ : Nat.land 1237209016396746652208827444252043977756536135647739735321293351239646918420740486700794826561616603025997881776285939505986077653722986581786824098101009676500992 μ = 1237209016396746652208827444252043977756536135647739735321293351239646918420740486700794826561616603025997881776285939505986077653722986581786824098101009676500992) (hw : Within μ σ x) :
    Within μ σ (writeStatus e x) := by
  unfold writeStatus
  repeat' first
    | with_reducible assumption
    | with_reducible apply Within.refl
    | with_reducible apply Eq.refl
    | ((with_reducible apply fun k => sub_trans k hμ); exact rfl)
    | ((with_reducible apply sub_set hμ); exact rfl)
    | intro _
    | with_reducible apply Within.ite
    | with_reducible apply within_fmemPut
    | with_reducible apply within_journal
    | with_reducible apply Within.foldl
    | (extract_lets +onlyGivenNames a; first | (refine Within.cutAny (μ := μ) (σ := σ) (a := a) ?_ ?_; all_goals (first | (intro ha; clear_value a) | (unfold a; clear a))) | skip)
    | split

theorem within_etabChange {μ : Nat} {σ x : State} (c : ℕ)  (hμ : Nat.land 1243373631511159799618075390317669065277336343506000064763716334873118423642959641982694842256373315106943008410574207175312546561422291600002310875599997493331968 μ = 1243373631511159799618075390317669065277336343506000064763716334873118423642959641982694842256373315106943008410574207175312546561422291600002310875599997493331968) (hw : Within μ σ x) :
    Within μ σ (etabChange c x) := by
  unfold etabChange
  repeat' first
    | with_reducible assumption
    | with_reducible apply Within.refl
    | with_reducible apply Eq.refl
    | ((with_reducible apply fun k => sub_trans k hμ); exact rfl)
    | ((with_reducible apply sub_set hμ); exact rfl)
    | intro _
    | with_reducible apply Within.ite
    | with_reducible apply within_enterChange
    | with_reducible apply Within.foldl
    | (extract_lets +onlyGivenNames a; first | (refine Within.cutAny (μ := μ) (σ := σ) (a := a) ?_ ?_; all_goals (first | (intro ha; clear_value a) | (unfold a; clear a))) | skip)
    | split

theorem within_publishEntry {μ : Nat} {σ x : State} (e : ℕ) (m : Map W32)  (hμ : Nat.land 1271491842727054777010641255990706451895271950495387043720596057201942412596228393841161019081414009782886336204970500101705099496550029681821213622153817134221312 μ = 1271491842727054777010641255990706451895271950495387043720596057201942412596228393841161019081414009782886336204970500101705099496550029681821213622153817134221312) (hw : Within μ σ x) :
    Within μ σ (publishEntry e m x) := by
  unfold publishEntry
  repeat' first
    | with_reducible assumption
    | with_reducible apply Within.refl
    | with_reducible apply Eq.refl
    | ((with_reducible apply fun k => sub_trans k hμ); exact rfl)
    | ((with_reducible apply sub_set hμ); exact rfl)
    | intro _
    | with_reducible apply Within.ite
    | with_reducible apply within_wr
    | with_reducible apply within_setEp
    | with_reducible apply within_etabChange
    | with_reducible apply Within.forEach
    | with_reducible apply Within.foldl
    | (extract_lets +onlyGivenNames a; first | (refine Within.cutAny (μ := μ) (σ := σ) (a := a) ?_ ?_; all_goals (first | (intro ha; clear_value a) | (unfold a; clear a))) | skip)
    | split

theorem within_publishWord0 {μ : Nat} {σ x : State} (e : ℕ) (w0 : W32)  (hμ : Nat.land 1271491842727054777010641255990706451895271950495387043720596057201942412596228393841161019081414009782886336204970500101705103484234017036568832333574997975255040 μ = 1271491842727054777010641255990706451895271950495387043720596057201942412596228393841161019081414009782886336204970500101705103484234017036568832333574997975255040) (hw : Within μ σ x) :
    Within μ σ (publishWord0 e w0 x) := by
  unfold publishWord0
  repeat' first
    | with_reducible assumption
    | with_reducible apply Within.refl
    | with_reducible apply Eq.refl
    | ((with_reducible apply fun k => sub_trans k hμ); exact rfl)
    | ((with_reducible apply sub_set hμ); exact rfl)
    | intro _
    | with_reducible apply Within.ite
    | with_reducible apply within_publishEntry
    | with_reducible apply within_epEvent
    | with_reducible apply within_put
    | with_reducible apply Within.foldl
    | (extract_lets +onlyGivenNames a; first | (refine Within.cutAny (μ := μ) (σ := σ) (a := a) ?_ ?_; all_goals (first | (intro ha; clear_value a) | (unfold a; clear a))) | skip)
    | split

theorem within_killGroup {μ : Nat} {σ x : State} (g : ℕ)  (hμ : Nat.land 1243373631511159799618075390317669065277336343506000064763716334873118423642959641982694842256373315106943008410574207175334324632905231661663966850475630658865152 μ = 1243373631511159799618075390317669065277336343506000064763716334873118423642959641982694842256373315106943008410574207175334324632905231661663966850475630658865152) (hw : Within μ σ x) :
    Within μ σ (killGroup g x) := by
  unfold killGroup
  repeat' first
    | with_reducible assumption
    | with_reducible apply Within.refl
    | with_reducible apply Eq.refl
    | ((with_reducible apply fun k => sub_trans k hμ); exact rfl)
    | ((with_reducible apply sub_set hμ); exact rfl)
    | intro _
    | with_reducible apply Within.ite
    | with_reducible apply within_enterChange
    | with_reducible apply within_raise
    | with_reducible apply within_bump
    | with_reducible apply within_put
    | with_reducible apply Within.foldl
    | (extract_lets +onlyGivenNames a; first | (refine Within.cutAny (μ := μ) (σ := σ) (a := a) ?_ ?_; all_goals (first | (intro ha; clear_value a) | (unfold a; clear a))) | skip)
    | split

theorem within_applyResult {μ : Nat} {σ x : State} (m : Map W32) (e : ℕ) (epoch : W32) (i : ℕ) (code : ℕ)  (hμ : Nat.land 1271491842727054777010641255990706451895271950495387043720596057201942408522156441172188846544522632964130014102033712769854378954208062604552015877970158493648896 μ = 1271491842727054777010641255990706451895271950495387043720596057201942408522156441172188846544522632964130014102033712769854378954208062604552015877970158493648896) (hw : Within μ σ x) :
    Within μ σ (applyResult m e epoch i code x) := by
  unfold applyResult
  repeat' first
    | with_reducible assumption
    | with_reducible apply Within.refl
    | with_reducible apply Eq.refl
    | ((with_reducible apply fun k => sub_trans k hμ); exact rfl)
    | ((with_reducible apply sub_set hμ); exact rfl)
    | intro _
    | with_reducible apply Within.ite
    | with_reducible apply within_bump
    | with_reducible apply within_setEp
    | with_reducible apply within_epEvent
    | with_reducible apply within_killGroup
    | with_reducible apply Within.foldl
    | (extract_lets +onlyGivenNames a; first | (refine Within.cutAny (μ := μ) (σ := σ) (a := a) ?_ ?_; all_goals (first | (intro ha; clear_value a) | (unfold a; clear a))) | skip)
    | split

theorem within_statEndpoint {μ : Nat} {σ x : State} (m : Map W32) (q : StatMsg) (e : ℕ)  (hμ : Nat.land 1271491842727054777010641255990706451895271950495387043720596057201942408522156441172188846544522632964130014102033712769854378954208062604552015877970158493648896 μ = 1271491842727054777010641255990706451895271950495387043720596057201942408522156441172188846544522632964130014102033712769854378954208062604552015877970158493648896) (hw : Within μ σ x) :
    Within μ σ (statEndpoint m q e x) := by
  unfold statEndpoint
  repeat' first
    | with_reducible assumption
    | with_reducible apply Within.refl
    | with_reducible apply Eq.refl
    | ((with_reducible apply fun k => sub_trans k hμ); exact rfl)
    | ((with_reducible apply sub_set hμ); exact rfl)
    | intro _
    | with_reducible apply Within.ite
    | with_reducible apply within_setEp
    | with_reducible apply within_epEvent
    | with_reducible apply within_applyResult
    | with_reducible apply within_writeStatus
    | with_reducible apply within_enterChange
    | with_reducible apply Within.forEach
    | with_reducible apply Within.foldl
    | (extract_lets +onlyGivenNames a; first | (refine Within.cutAny (μ := μ) (σ := σ) (a := a) ?_ ?_; all_goals (first | (intro ha; clear_value a) | (unfold a; clear a))) | skip)
    | split

theorem within_setEpTelem {μ : Nat} {σ z : State} (e : ℕ) (x : EpSt)  (hμ : Nat.land 1271491842727054777010641255990706451895271950495387043720596057201942408522156441172188846544522632964130014102033712769832598224269130973058614095480404767426560 μ = 1271491842727054777010641255990706451895271950495387043720596057201942408522156441172188846544522632964130014102033712769832598224269130973058614095480404767426560) (hw : Within μ σ z) :
    Within μ σ (setEpTelem e x z) := by
  unfold setEpTelem
  repeat' first
    | with_reducible assumption
    | with_reducible apply Within.refl
    | with_reducible apply Eq.refl
    | ((with_reducible apply fun k => sub_trans k hμ); exact rfl)
    | ((with_reducible apply sub_set hμ); exact rfl)
    | intro _
    | with_reducible apply Within.ite
    | with_reducible apply within_setEp
    | with_reducible apply within_enterChange
    | with_reducible apply Within.foldl
    | (extract_lets +onlyGivenNames a; first | (refine Within.cutAny (μ := μ) (σ := σ) (a := a) ?_ ?_; all_goals (first | (intro ha; clear_value a) | (unfold a; clear a))) | skip)
    | split

theorem within_faultsToUnproven {μ : Nat} {σ x : State} (e : ℕ)  (hμ : Nat.land 1271491842727054777010641255990706451895271950495387043720596057201942408522156441172188846544522632964130014102033712769832598224269130973058614095480404767426560 μ = 1271491842727054777010641255990706451895271950495387043720596057201942408522156441172188846544522632964130014102033712769832598224269130973058614095480404767426560) (hw : Within μ σ x) :
    Within μ σ (faultsToUnproven e x) := by
  unfold faultsToUnproven
  repeat' first
    | with_reducible assumption
    | with_reducible apply Within.refl
    | with_reducible apply Eq.refl
    | ((with_reducible apply fun k => sub_trans k hμ); exact rfl)
    | ((with_reducible apply sub_set hμ); exact rfl)
    | intro _
    | with_reducible apply Within.ite
    | with_reducible apply within_setEpTelem
    | with_reducible apply Within.foldl
    | (extract_lets +onlyGivenNames a; first | (refine Within.cutAny (μ := μ) (σ := σ) (a := a) ?_ ?_; all_goals (first | (intro ha; clear_value a) | (unfold a; clear a))) | skip)
    | split

theorem within_clearGroup {μ : Nat} {σ x : State} (g : ℕ)  (hμ : Nat.land 1271491842727054777010641255990706451895271950495387043720596057201942408522156441172188846544522632964130014102033712769854376295752071034720270070356037932959744 μ = 1271491842727054777010641255990706451895271950495387043720596057201942408522156441172188846544522632964130014102033712769854376295752071034720270070356037932959744) (hw : Within μ σ x) :
    Within μ σ (clearGroup g x) := by
  unfold clearGroup
  repeat' first
    | with_reducible assumption
    | with_reducible apply Within.refl
    | with_reducible apply Eq.refl
    | ((with_reducible apply fun k => sub_trans k hμ); exact rfl)
    | ((with_reducible apply sub_set hμ); exact rfl)
    | intro _
    | with_reducible apply Within.ite
    | with_reducible apply within_enterChange
    | with_reducible apply within_put
    | with_reducible apply within_faultsToUnproven
    | with_reducible apply Within.forEach
    | with_reducible apply Within.foldl
    | (extract_lets +onlyGivenNames a; first | (refine Within.cutAny (μ := μ) (σ := σ) (a := a) ?_ ?_; all_goals (first | (intro ha; clear_value a) | (unfold a; clear a))) | skip)
    | split

theorem within_kgWrite {μ : Nat} {σ x : State} (pf : Bool) (g : ℕ) (v : W32)  (hμ : Nat.land 1271491842727054777010641255990706451895271950495387043720596057201942408522156441172188846544522632964130014102033712769854376295752071034720270070356037932959744 μ = 1271491842727054777010641255990706451895271950495387043720596057201942408522156441172188846544522632964130014102033712769854376295752071034720270070356037932959744) (hw : Within μ σ x) :
    Within μ σ (kgWrite pf g v x) := by
  unfold kgWrite
  repeat' first
    | with_reducible assumption
    | with_reducible apply Within.refl
    | with_reducible apply Eq.refl
    | ((with_reducible apply fun k => sub_trans k hμ); exact rfl)
    | ((with_reducible apply sub_set hμ); exact rfl)
    | intro _
    | with_reducible apply Within.ite
    | with_reducible apply within_plainWrite
    | with_reducible apply within_clearGroup
    | with_reducible apply within_killGroup
    | with_reducible apply Within.foldl
    | (extract_lets +onlyGivenNames a; first | (refine Within.cutAny (μ := μ) (σ := σ) (a := a) ?_ ?_; all_goals (first | (intro ha; clear_value a) | (unfold a; clear a))) | skip)
    | split

theorem within_viewEffect {μ : Nat} {σ x : State} (pf : Bool) (c : ℕ) (isN : Bool) (v : W32)  (hμ : Nat.land 1243373631511159799618075390317669065277336343506000064763716334873118423642959641982694842256373315106943008410574207175316629949825342861563871370889178711869440 μ = 1243373631511159799618075390317669065277336343506000064763716334873118423642959641982694842256373315106943008410574207175316629949825342861563871370889178711869440) (hw : Within μ σ x) :
    Within μ σ (viewEffect pf c isN v x) := by
  unfold viewEffect
  repeat' first
    | with_reducible assumption
    | with_reducible apply Within.refl
    | with_reducible apply Eq.refl
    | ((with_reducible apply fun k => sub_trans k hμ); exact rfl)
    | ((with_reducible apply sub_set hμ); exact rfl)
    | intro _
    | with_reducible apply Within.ite
    | with_reducible apply within_plainWrite
    | with_reducible apply within_etabChange
    | with_reducible apply Within.foldl
    | (extract_lets +onlyGivenNames a; first | (refine Within.cutAny (μ := μ) (σ := σ) (a := a) ?_ ?_; all_goals (first | (intro ha; clear_value a) | (unfold a; clear a))) | skip)
    | split

theorem within_acceptStat {μ : Nat} {σ x : State} (m : Map W32) (q : StatMsg) (es : List ℕ)  (hμ : Nat.land 1271491842727054777010641255990706451895271950495387043720596057201942408522156441172188846544522632964130014102033712769854378954208062604552015877970158493648896 μ = 1271491842727054777010641255990706451895271950495387043720596057201942408522156441172188846544522632964130014102033712769854378954208062604552015877970158493648896) (hw : Within μ σ x) :
    Within μ σ (acceptStat m q es x) := by
  unfold acceptStat
  repeat' first
    | with_reducible assumption
    | with_reducible apply Within.refl
    | with_reducible apply Eq.refl
    | ((with_reducible apply fun k => sub_trans k hμ); exact rfl)
    | ((with_reducible apply sub_set hμ); exact rfl)
    | intro _
    | with_reducible apply Within.ite
    | with_reducible apply within_bump
    | with_reducible apply within_epEvent
    | with_reducible apply within_setEp
    | with_reducible apply within_statEndpoint
    | with_reducible apply Within.forEach
    | with_reducible apply Within.foldl
    | (extract_lets +onlyGivenNames a; first | (refine Within.cutAny (μ := μ) (σ := σ) (a := a) ?_ ?_; all_goals (first | (intro ha; clear_value a) | (unfold a; clear a))) | skip)
    | split

theorem within_etabWordWrite {μ : Nat} {σ x : State} (e : ℕ) (k : ℕ) (v : W32)  (hμ : Nat.land 1271491842727054777010641255990706451895271950495387043720596057201942412596228393841161019081414009782886336204970500101705103484234017036568832333574997975255040 μ = 1271491842727054777010641255990706451895271950495387043720596057201942412596228393841161019081414009782886336204970500101705103484234017036568832333574997975255040) (hw : Within μ σ x) :
    Within μ σ (etabWordWrite e k v x) := by
  unfold etabWordWrite
  repeat' first
    | with_reducible assumption
    | with_reducible apply Within.refl
    | with_reducible apply Eq.refl
    | ((with_reducible apply fun k => sub_trans k hμ); exact rfl)
    | ((with_reducible apply sub_set hμ); exact rfl)
    | ((with_reducible apply Or.inl); with_reducible apply Eq.refl)
    | ((with_reducible apply Or.inr); (with_reducible apply sub_set hμ); exact rfl)
    | intro _
    | with_reducible apply Within.ite
    | with_reducible apply within_publishWord0
    | with_reducible apply Within.foldl
    | (extract_lets +onlyGivenNames a; first | (refine Within.cutAny (μ := μ) (σ := σ) (a := a) ?_ ?_; all_goals (first | (intro ha; clear_value a) | (unfold a; clear a))) | skip)
    | split
    | (with_reducible apply Within.upd)

/-! ## Tx -/

theorem within_portEvent {μ : Nat} {σ x : State} (bit : ℕ) (ev : ℕ) (p : ℕ)  (hμ : Nat.land 3529364097014649719715069748327721287828648423686176893604928525953767389164319917797510975255070323077702466094145140739825739141600602571576167591892544931840 μ = 3529364097014649719715069748327721287828648423686176893604928525953767389164319917797510975255070323077702466094145140739825739141600602571576167591892544931840) (hw : Within μ σ x) :
    Within μ σ (portEvent bit ev p x) := by
  unfold portEvent
  repeat' first
    | with_reducible assumption
    | with_reducible apply Within.refl
    | with_reducible apply Eq.refl
    | ((with_reducible apply fun k => sub_trans k hμ); exact rfl)
    | ((with_reducible apply sub_set hμ); exact rfl)
    | intro _
    | with_reducible apply Within.ite
    | with_reducible apply within_raise
    | with_reducible apply within_setBit
    | with_reducible apply Within.foldl
    | (extract_lets +onlyGivenNames a; first | (refine Within.cutAny (μ := μ) (σ := σ) (a := a) ?_ ?_; all_goals (first | (intro ha; clear_value a) | (unfold a; clear a))) | skip)
    | split

theorem within_showPaused {μ : Nat} {σ x : State} (p : ℕ)  (hμ : Nat.land 22300745198530623141535718272648361505980416 μ = 22300745198530623141535718272648361505980416) (hw : Within μ σ x) :
    Within μ σ (showPaused p x) := by
  unfold showPaused
  repeat' first
    | with_reducible assumption
    | with_reducible apply Within.refl
    | with_reducible apply Eq.refl
    | ((with_reducible apply fun k => sub_trans k hμ); exact rfl)
    | ((with_reducible apply sub_set hμ); exact rfl)
    | intro _
    | with_reducible apply Within.ite
    | with_reducible apply within_put
    | with_reducible apply Within.foldl
    | (extract_lets +onlyGivenNames a; first | (refine Within.cutAny (μ := μ) (σ := σ) (a := a) ?_ ?_; all_goals (first | (intro ha; clear_value a) | (unfold a; clear a))) | skip)
    | split

theorem within_noteLaunchLate {μ : Nat} {σ x : State} (p : ℕ) (cls : ℕ)  (hμ : Nat.land 3529364097014649719715069748327721287828648423686176893604928525953767389164319917797510975255070323077702466094145096138335342080354319500139622295169532971008 μ = 3529364097014649719715069748327721287828648423686176893604928525953767389164319917797510975255070323077702466094145096138335342080354319500139622295169532971008) (hw : Within μ σ x) :
    Within μ σ (noteLaunchLate p cls x) := by
  unfold noteLaunchLate
  repeat' first
    | with_reducible assumption
    | with_reducible apply Within.refl
    | with_reducible apply Eq.refl
    | ((with_reducible apply fun k => sub_trans k hμ); exact rfl)
    | ((with_reducible apply sub_set hμ); exact rfl)
    | intro _
    | with_reducible apply Within.ite
    | with_reducible apply within_raise
    | with_reducible apply within_bump
    | with_reducible apply Within.foldl
    | (extract_lets +onlyGivenNames a; first | (refine Within.cutAny (μ := μ) (σ := σ) (a := a) ?_ ?_; all_goals (first | (intro ha; clear_value a) | (unfold a; clear a))) | skip)
    | split

theorem within_unqueue {μ : Nat} {σ x : State} (p : ℕ) (f : QFrame)  (hμ : Nat.land 56236422431789954785131731346074773235871213978773957913759444657647969758393598378988008576298635714374011382919011189040103325693678746112606439760814548189184 μ = 56236422431789954785131731346074773235871213978773957913759444657647969758393598378988008576298635714374011382919011189040103325693678746112606439760814548189184) (hw : Within μ σ x) :
    Within μ σ (unqueue p f x) := by
  unfold unqueue
  repeat' first
    | with_reducible assumption
    | with_reducible apply Within.refl
    | with_reducible apply Eq.refl
    | ((with_reducible apply fun k => sub_trans k hμ); exact rfl)
    | ((with_reducible apply sub_set hμ); exact rfl)
    | intro _
    | with_reducible apply Within.ite
    | with_reducible apply within_setPort
    | with_reducible apply Within.foldl
    | (extract_lets +onlyGivenNames a; first | (refine Within.cutAny (μ := μ) (σ := σ) (a := a) ?_ ?_; all_goals (first | (intro ha; clear_value a) | (unfold a; clear a))) | skip)
    | split

theorem within_countTxBytes {μ : Nat} {σ x : State} (p : ℕ) (f : QFrame)  (hμ : Nat.land 56236422431789954785131731346074773235871213978773957913759444657647969758393598378988008576298635714374011382919011189040103325693678746112606439760814548189184 μ = 56236422431789954785131731346074773235871213978773957913759444657647969758393598378988008576298635714374011382919011189040103325693678746112606439760814548189184) (hw : Within μ σ x) :
    Within μ σ (countTxBytes p f x) := by
  unfold countTxBytes
  repeat' first
    | with_reducible assumption
    | with_reducible apply Within.refl
    | with_reducible apply Eq.refl
    | ((with_reducible apply fun k => sub_trans k hμ); exact rfl)
    | ((with_reducible apply sub_set hμ); exact rfl)
    | intro _
    | with_reducible apply Within.ite
    | with_reducible apply within_setPort
    | with_reducible apply Within.foldl
    | (extract_lets +onlyGivenNames a; first | (refine Within.cutAny (μ := μ) (σ := σ) (a := a) ?_ ?_; all_goals (first | (intro ha; clear_value a) | (unfold a; clear a))) | skip)
    | split

theorem within_putOnWire {μ : Nat} {σ x : State} (p : ℕ) (late : Bool) (f : QFrame)  (hμ : Nat.land 56236422431789954785131731346074773235871213978773957913759444657647969758393598378988008576298635714374011382919011189040103325693678746112606439760814548189184 μ = 56236422431789954785131731346074773235871213978773957913759444657647969758393598378988008576298635714374011382919011189040103325693678746112606439760814548189184) (hw : Within μ σ x) :
    Within μ σ (putOnWire p late f x) := by
  unfold putOnWire
  repeat' first
    | with_reducible assumption
    | with_reducible apply Within.refl
    | with_reducible apply Eq.refl
    | ((with_reducible apply fun k => sub_trans k hμ); exact rfl)
    | ((with_reducible apply sub_set hμ); exact rfl)
    | intro _
    | with_reducible apply Within.ite
    | with_reducible apply within_countTxBytes
    | with_reducible apply within_unqueue
    | with_reducible apply within_setPort
    | with_reducible apply Within.foldl
    | (extract_lets +onlyGivenNames a; first | (refine Within.cutAny (μ := μ) (σ := σ) (a := a) ?_ ?_; all_goals (first | (intro ha; clear_value a) | (unfold a; clear a))) | skip)
    | split

/-- What the service of a port's head frame leaves alone. -/
def WithinServe (m : Nat) (s : State) : Serve → Prop
  | .wait => True
  | .drop t => Within m s t
  | .start t => Within m s t

theorem WithinServe.drop {m : Nat} {s t : State} (h : Within m s t) : WithinServe m s (.drop t) := h
theorem WithinServe.start {m : Nat} {s t : State} (h : Within m s t) : WithinServe m s (.start t) := h

theorem WithinServe.ite {m : Nat} {s : State} {a b : Serve} {c : Prop} {_ : Decidable c} (ha : WithinServe m s a)
    (hb : WithinServe m s b) : WithinServe m s (if c then a else b) := by
  split
  · exact ha
  · exact hb

theorem within_serveHead {μ : Nat} {σ x : State} (p : ℕ) (f : QFrame)  (hμ : Nat.land 59765786528804604504846801094402494523699862402460134807364373183601737147557918296785519551553706037451713849013156329779929064835279348684182607352707093121024 μ = 59765786528804604504846801094402494523699862402460134807364373183601737147557918296785519551553706037451713849013156329779929064835279348684182607352707093121024) (hw : Within μ σ x) :
    WithinServe μ σ (serveHead p f x) := by
  unfold serveHead
  repeat' first
    | with_reducible apply WithinServe.drop
    | with_reducible apply WithinServe.start
    | with_reducible apply WithinServe.ite
    | exact trivial
    | with_reducible assumption
    | with_reducible apply Within.refl
    | with_reducible apply Eq.refl
    | ((with_reducible apply fun k => sub_trans k hμ); exact rfl)
    | ((with_reducible apply sub_set hμ); exact rfl)
    | intro _
    | with_reducible apply Within.ite
    | with_reducible apply within_portEvent
    | with_reducible apply within_count
    | with_reducible apply within_frameEnds
    | with_reducible apply within_unqueue
    | with_reducible apply within_putOnWire
    | with_reducible apply within_noteLaunchLate
    | with_reducible apply Within.foldl
    | (extract_lets +onlyGivenNames a; first | (refine Within.cutAny (μ := μ) (σ := σ) (a := a) ?_ ?_; all_goals (first | (intro ha; clear_value a) | (unfold a; clear a))) | skip)
    | split

theorem within_serveFrom {μ : Nat} {σ x : State} (p : ℕ) (a2 : ℕ)  (hμ : Nat.land 59765786528804604504846801094402494523699862402460134807364373183601737147557918296785519551553706037451713849013156329779929064835279348684182607352707093121024 μ = 59765786528804604504846801094402494523699862402460134807364373183601737147557918296785519551553706037451713849013156329779929064835279348684182607352707093121024) (hw : Within μ σ x) :
    WithinServe μ σ (serveFrom p x a2) := by
  induction a2 with
  | zero => exact trivial
  | succ k ih =>
    unfold serveFrom
    split
    · exact ih
    · rename_i f _
      have hh := within_serveHead p f (sub_trans rfl hμ) hw
      cases e : serveHead p f x with
      | wait => exact ih
      | drop t => rw [e] at hh; exact hh
      | start t => rw [e] at hh; exact hh

theorem within_settleLink {μ : Nat} {σ x : State} (p : ℕ)  (hμ : Nat.land 3529364097014649719715069748327721287828648423686176893604928525953767389164319917797510975255070323077702466094145163040570937672223744107294440240254050912256 μ = 3529364097014649719715069748327721287828648423686176893604928525953767389164319917797510975255070323077702466094145163040570937672223744107294440240254050912256) (hw : Within μ σ x) :
    Within μ σ (settleLink p x) := by
  unfold settleLink
  repeat' first
    | with_reducible assumption
    | with_reducible apply Within.refl
    | with_reducible apply Eq.refl
    | ((with_reducible apply fun k => sub_trans k hμ); exact rfl)
    | ((with_reducible apply sub_set hμ); exact rfl)
    | intro _
    | with_reducible apply Within.ite
    | with_reducible apply within_portEvent
    | with_reducible apply within_put
    | with_reducible apply Within.foldl
    | (extract_lets +onlyGivenNames a; first | (refine Within.cutAny (μ := μ) (σ := σ) (a := a) ?_ ?_; all_goals (first | (intro ha; clear_value a) | (unfold a; clear a))) | skip)
    | split

theorem within_pauseClass {μ : Nat} {σ x : State} (p : ℕ) (cls : ℕ) (q : ℕ)  (hμ : Nat.land 56236422431789954785131731346074773235871213978773957913759444657647969758393598378988008576298635714374011382919011189040103325693678746112606439760814548189184 μ = 56236422431789954785131731346074773235871213978773957913759444657647969758393598378988008576298635714374011382919011189040103325693678746112606439760814548189184) (hw : Within μ σ x) :
    Within μ σ (pauseClass p cls q x) := by
  unfold pauseClass
  repeat' first
    | with_reducible assumption
    | with_reducible apply Within.refl
    | with_reducible apply Eq.refl
    | ((with_reducible apply fun k => sub_trans k hμ); exact rfl)
    | ((with_reducible apply sub_set hμ); exact rfl)
    | intro _
    | with_reducible apply Within.ite
    | with_reducible apply within_setPort
    | with_reducible apply Within.foldl
    | (extract_lets +onlyGivenNames a; first | (refine Within.cutAny (μ := μ) (σ := σ) (a := a) ?_ ?_; all_goals (first | (intro ha; clear_value a) | (unfold a; clear a))) | skip)
    | split

theorem within_swapBanks {μ : Nat} {σ x : State} (p : ℕ)  (hμ : Nat.land 56236422431789954785131731346074773235871213978773957913759444657647969758393598378988008576298635714374011382919029029636262150192191974687224558450019332521984 μ = 56236422431789954785131731346074773235871213978773957913759444657647969758393598378988008576298635714374011382919029029636262150192191974687224558450019332521984) (hw : Within μ σ x) :
    Within μ σ (swapBanks p x) := by
  unfold swapBanks
  repeat' first
    | with_reducible assumption
    | with_reducible apply Within.refl
    | with_reducible apply Eq.refl
    | ((with_reducible apply fun k => sub_trans k hμ); exact rfl)
    | ((with_reducible apply sub_set hμ); exact rfl)
    | intro _
    | with_reducible apply Within.ite
    | with_reducible apply within_wr
    | with_reducible apply within_put
    | with_reducible apply within_setPort
    | with_reducible apply Within.forEach
    | with_reducible apply Within.foldl
    | (extract_lets +onlyGivenNames a; first | (refine Within.cutAny (μ := μ) (σ := σ) (a := a) ?_ ?_; all_goals (first | (intro ha; clear_value a) | (unfold a; clear a))) | skip)
    | split

theorem within_leaveLpi {μ : Nat} {σ x : State} (p : ℕ)  (hμ : Nat.land 56236422431789954785131731346074773235871213978773957913759444657647969758393598378988008576298635714374011382919011211340848524224301887648324712409176054169600 μ = 56236422431789954785131731346074773235871213978773957913759444657647969758393598378988008576298635714374011382919011211340848524224301887648324712409176054169600) (hw : Within μ σ x) :
    Within μ σ (leaveLpi p x) := by
  unfold leaveLpi
  repeat' first
    | with_reducible assumption
    | with_reducible apply Within.refl
    | with_reducible apply Eq.refl
    | ((with_reducible apply fun k => sub_trans k hμ); exact rfl)
    | ((with_reducible apply sub_set hμ); exact rfl)
    | intro _
    | with_reducible apply Within.ite
    | with_reducible apply within_put
    | with_reducible apply within_setPort
    | with_reducible apply Within.foldl
    | (extract_lets +onlyGivenNames a; first | (refine Within.cutAny (μ := μ) (σ := σ) (a := a) ?_ ?_; all_goals (first | (intro ha; clear_value a) | (unfold a; clear a))) | skip)
    | split

theorem within_gateCtrlWrite {μ : Nat} {σ x : State} (pf : Bool) (p : ℕ) (v : W32)  (hμ : Nat.land 713623846352979940529142984724747568191373312 μ = 713623846352979940529142984724747568191373312) (hw : Within μ σ x) :
    Within μ σ (gateCtrlWrite pf p v x) := by
  unfold gateCtrlWrite
  repeat' first
    | with_reducible assumption
    | with_reducible apply Within.refl
    | with_reducible apply Eq.refl
    | ((with_reducible apply fun k => sub_trans k hμ); exact rfl)
    | ((with_reducible apply sub_set hμ); exact rfl)
    | intro _
    | with_reducible apply Within.ite
    | with_reducible apply within_plainWrite
    | with_reducible apply Within.foldl
    | (extract_lets +onlyGivenNames a; first | (refine Within.cutAny (μ := μ) (σ := σ) (a := a) ?_ ?_; all_goals (first | (intro ha; clear_value a) | (unfold a; clear a))) | skip)
    | split

theorem within_showWd {μ : Nat} {σ x : State} (p : ℕ)  (hμ : Nat.land 22300745198530623141535718272648361505980416 μ = 22300745198530623141535718272648361505980416) (hw : Within μ σ x) :
    Within μ σ (showWd p x) := by
  unfold showWd
  repeat' first
    | with_reducible assumption
    | with_reducible apply Within.refl
    | with_reducible apply Eq.refl
    | ((with_reducible apply fun k => sub_trans k hμ); exact rfl)
    | ((with_reducible apply sub_set hμ); exact rfl)
    | intro _
    | with_reducible apply Within.ite
    | with_reducible apply within_put
    | with_reducible apply Within.foldl
    | (extract_lets +onlyGivenNames a; first | (refine Within.cutAny (μ := μ) (σ := σ) (a := a) ?_ ?_; all_goals (first | (intro ha; clear_value a) | (unfold a; clear a))) | skip)
    | split

theorem within_dropQueue {μ : Nat} {σ x : State} (p : ℕ)  (hμ : Nat.land 59765786528804604504846801094402494523699862402460134807364373183601737147557918296785519551553706037451713849013156285178438667774033065612746062055984081160192 μ = 59765786528804604504846801094402494523699862402460134807364373183601737147557918296785519551553706037451713849013156285178438667774033065612746062055984081160192) (hw : Within μ σ x) :
    Within μ σ (dropQueue p x) := by
  unfold dropQueue
  repeat' first
    | with_reducible assumption
    | with_reducible apply Within.refl
    | with_reducible apply Eq.refl
    | ((with_reducible apply fun k => sub_trans k hμ); exact rfl)
    | ((with_reducible apply sub_set hμ); exact rfl)
    | intro _
    | with_reducible apply Within.ite
    | with_reducible apply within_frameEnds
    | with_reducible apply within_setPort
    | with_reducible apply Within.forEach
    | with_reducible apply Within.foldl
    | (extract_lets +onlyGivenNames a; first | (refine Within.cutAny (μ := μ) (σ := σ) (a := a) ?_ ?_; all_goals (first | (intro ha; clear_value a) | (unfold a; clear a))) | skip)
    | split

theorem within_showPlca {μ : Nat} {σ x : State} (t : ℕ) (active : Bool)  (hμ : Nat.land 59765786528804604504846801094402494523699862402460134807364373183601737147557918296785519551553706037451713849019002291727762279446847804943611194134607811332096 μ = 59765786528804604504846801094402494523699862402460134807364373183601737147557918296785519551553706037451713849019002291727762279446847804943611194134607811332096) (hw : Within μ σ x) :
    Within μ σ (showPlca t active x) := by
  unfold showPlca
  repeat' first
    | with_reducible assumption
    | with_reducible apply Within.refl
    | with_reducible apply Eq.refl
    | ((with_reducible apply fun k => sub_trans k hμ); exact rfl)
    | ((with_reducible apply sub_set hμ); exact rfl)
    | intro _
    | with_reducible apply Within.ite
    | with_reducible apply within_setPort
    | with_reducible apply within_raise
    | with_reducible apply within_put
    | with_reducible apply Within.foldl
    | (extract_lets +onlyGivenNames a; first | (refine Within.cutAny (μ := μ) (σ := σ) (a := a) ?_ ?_; all_goals (first | (intro ha; clear_value a) | (unfold a; clear a))) | skip)
    | split

theorem within_settlePlca {μ : Nat} {σ x : State} (t : ℕ)  (hμ : Nat.land 59765786528804604504846801094402494523699862402460134807364373183601737147557918296785519551553706037451713849019002291727762279446847804943611194134607811332096 μ = 59765786528804604504846801094402494523699862402460134807364373183601737147557918296785519551553706037451713849019002291727762279446847804943611194134607811332096) (hw : Within μ σ x) :
    Within μ σ (settlePlca t x) := by
  unfold settlePlca
  repeat' first
    | with_reducible assumption
    | with_reducible apply Within.refl
    | with_reducible apply Eq.refl
    | ((with_reducible apply fun k => sub_trans k hμ); exact rfl)
    | ((with_reducible apply sub_set hμ); exact rfl)
    | intro _
    | with_reducible apply Within.ite
    | with_reducible apply within_showPlca
    | with_reducible apply Within.foldl
    | (extract_lets +onlyGivenNames a; first | (refine Within.cutAny (μ := μ) (σ := σ) (a := a) ?_ ?_; all_goals (first | (intro ha; clear_value a) | (unfold a; clear a))) | skip)
    | split

theorem within_settleDrop {μ : Nat} {σ x : State} (p : ℕ)  (hμ : Nat.land 59765786528804604504846801094402494523699862402460134807364373183601737147557918296785519551553706037451713849013156285178438667774033065612746062055984081160192 μ = 59765786528804604504846801094402494523699862402460134807364373183601737147557918296785519551553706037451713849013156285178438667774033065612746062055984081160192) (hw : Within μ σ x) :
    Within μ σ (settleDrop p x) := by
  unfold settleDrop
  repeat' first
    | with_reducible assumption
    | with_reducible apply Within.refl
    | with_reducible apply Eq.refl
    | ((with_reducible apply fun k => sub_trans k hμ); exact rfl)
    | ((with_reducible apply sub_set hμ); exact rfl)
    | intro _
    | with_reducible apply Within.ite
    | with_reducible apply within_dropQueue
    | with_reducible apply Within.foldl
    | (extract_lets +onlyGivenNames a; first | (refine Within.cutAny (μ := μ) (σ := σ) (a := a) ?_ ?_; all_goals (first | (intro ha; clear_value a) | (unfold a; clear a))) | skip)
    | split

theorem within_enableEdge {μ : Nat} {σ x : State} (p : ℕ) (was : Bool) (now : Bool)  (hμ : Nat.land 59765786528804604504846801094402494523699862402460134807364373183601737147557918296785519551553706037451713849013156285178438667774033065612746062055984081160192 μ = 59765786528804604504846801094402494523699862402460134807364373183601737147557918296785519551553706037451713849013156285178438667774033065612746062055984081160192) (hw : Within μ σ x) :
    Within μ σ (enableEdge p was now x) := by
  unfold enableEdge
  repeat' first
    | with_reducible assumption
    | with_reducible apply Within.refl
    | with_reducible apply Eq.refl
    | ((with_reducible apply fun k => sub_trans k hμ); exact rfl)
    | ((with_reducible apply sub_set hμ); exact rfl)
    | intro _
    | with_reducible apply Within.ite
    | with_reducible apply within_setPort
    | with_reducible apply within_dropQueue
    | with_reducible apply within_settleDrop
    | with_reducible apply Within.foldl
    | (extract_lets +onlyGivenNames a; first | (refine Within.cutAny (μ := μ) (σ := σ) (a := a) ?_ ?_; all_goals (first | (intro ha; clear_value a) | (unfold a; clear a))) | skip)
    | split

theorem within_t1sCtrlWrite {μ : Nat} {σ x : State} (pf : Bool) (t : ℕ) (v : W32)  (hμ : Nat.land 59765786528804604504846801094402494523699862402460134807364373183601737147557918296785519551553706037451713849020463793365093182365051489776327477154263743875072 μ = 59765786528804604504846801094402494523699862402460134807364373183601737147557918296785519551553706037451713849020463793365093182365051489776327477154263743875072) (hw : Within μ σ x) :
    Within μ σ (t1sCtrlWrite pf t v x) := by
  unfold t1sCtrlWrite
  repeat' first
    | with_reducible assumption
    | with_reducible apply Within.refl
    | with_reducible apply Eq.refl
    | ((with_reducible apply fun k => sub_trans k hμ); exact rfl)
    | ((with_reducible apply sub_set hμ); exact rfl)
    | intro _
    | with_reducible apply Within.ite
    | with_reducible apply within_plainWrite
    | with_reducible apply within_settlePlca
    | with_reducible apply within_enableEdge
    | with_reducible apply Within.foldl
    | (extract_lets +onlyGivenNames a; first | (refine Within.cutAny (μ := μ) (σ := σ) (a := a) ?_ ?_; all_goals (first | (intro ha; clear_value a) | (unfold a; clear a))) | skip)
    | split

theorem within_rdmSend {μ : Nat} {σ x : State} (p : ℕ)  (hμ : Nat.land 56236422431789954785131731346074773235871213978773957913759444657647969758393598378988008576298635714374011382919011189040103325693678746112606439760814548189184 μ = 56236422431789954785131731346074773235871213978773957913759444657647969758393598378988008576298635714374011382919011189040103325693678746112606439760814548189184) (hw : Within μ σ x) :
    Within μ σ (rdmSend p x) := by
  unfold rdmSend
  repeat' first
    | with_reducible assumption
    | with_reducible apply Within.refl
    | with_reducible apply Eq.refl
    | ((with_reducible apply fun k => sub_trans k hμ); exact rfl)
    | ((with_reducible apply sub_set hμ); exact rfl)
    | intro _
    | with_reducible apply Within.ite
    | with_reducible apply within_setDmx
    | with_reducible apply Within.foldl
    | (extract_lets +onlyGivenNames a; first | (refine Within.cutAny (μ := μ) (σ := σ) (a := a) ?_ ?_; all_goals (first | (intro ha; clear_value a) | (unfold a; clear a))) | skip)
    | split

theorem within_rdmCtrlWrite {μ : Nat} {σ x : State} (pf : Bool) (p : ℕ) (v : W32)  (hμ : Nat.land 56236422431789954785131731346074773235871213978773957913759444657647969758393598378988008576298635714374011418836875428084373443467437194947977930825012724367360 μ = 56236422431789954785131731346074773235871213978773957913759444657647969758393598378988008576298635714374011418836875428084373443467437194947977930825012724367360) (hw : Within μ σ x) :
    Within μ σ (rdmCtrlWrite pf p v x) := by
  unfold rdmCtrlWrite
  repeat' first
    | with_reducible assumption
    | with_reducible apply Within.refl
    | with_reducible apply Eq.refl
    | ((with_reducible apply fun k => sub_trans k hμ); exact rfl)
    | ((with_reducible apply sub_set hμ); exact rfl)
    | intro _
    | with_reducible apply Within.ite
    | with_reducible apply within_plainWrite
    | with_reducible apply within_setDmx
    | with_reducible apply within_put
    | with_reducible apply within_rdmSend
    | with_reducible apply Within.foldl
    | (extract_lets +onlyGivenNames a; first | (refine Within.cutAny (μ := μ) (σ := σ) (a := a) ?_ ?_; all_goals (first | (intro ha; clear_value a) | (unfold a; clear a))) | skip)
    | split

theorem within_poisonRing {μ : Nat} {σ x : State} (r : ℕ)  (hμ : Nat.land 3529364097014649719715069748327721287828648423686176893604928525953767389164319917797510975255070323077702466094145096138335342080354319500139622295169532971008 μ = 3529364097014649719715069748327721287828648423686176893604928525953767389164319917797510975255070323077702466094145096138335342080354319500139622295169532971008) (hw : Within μ σ x) :
    Within μ σ (poisonRing r x) := by
  unfold poisonRing
  repeat' first
    | with_reducible assumption
    | with_reducible apply Within.refl
    | with_reducible apply Eq.refl
    | ((with_reducible apply fun k => sub_trans k hμ); exact rfl)
    | ((with_reducible apply sub_set hμ); exact rfl)
    | intro _
    | with_reducible apply Within.ite
    | with_reducible apply within_raise0
    | with_reducible apply within_setBit
    | with_reducible apply within_bump
    | with_reducible apply Within.foldl
    | (extract_lets +onlyGivenNames a; first | (refine Within.cutAny (μ := μ) (σ := σ) (a := a) ?_ ?_; all_goals (first | (intro ha; clear_value a) | (unfold a; clear a))) | skip)
    | split

theorem within_eeeCfgWrite {μ : Nat} {σ x : State} (pf : Bool) (p : ℕ) (v : W32)  (hμ : Nat.land 56236422431789954785131731346074773235871213978773957913759444657647969758393598378988008576298635714374011382919011389746810112469287019934070893596068102012928 μ = 56236422431789954785131731346074773235871213978773957913759444657647969758393598378988008576298635714374011382919011389746810112469287019934070893596068102012928) (hw : Within μ σ x) :
    Within μ σ (eeeCfgWrite pf p v x) := by
  unfold eeeCfgWrite
  repeat' first
    | with_reducible assumption
    | with_reducible apply Within.refl
    | with_reducible apply Eq.refl
    | ((with_reducible apply fun k => sub_trans k hμ); exact rfl)
    | ((with_reducible apply sub_set hμ); exact rfl)
    | intro _
    | with_reducible apply Within.ite
    | with_reducible apply within_plainWrite
    | with_reducible apply within_leaveLpi
    | with_reducible apply Within.foldl
    | (extract_lets +onlyGivenNames a; first | (refine Within.cutAny (μ := μ) (σ := σ) (a := a) ?_ ?_; all_goals (first | (intro ha; clear_value a) | (unfold a; clear a))) | skip)
    | split

theorem within_rdmByte {μ : Nat} {σ x : State} (p : ℕ) (i : ℕ) (b : Byte)  (hμ : Nat.land 95780971304118053647396689196894323976171195136475136 μ = 95780971304118053647396689196894323976171195136475136) (hw : Within μ σ x) :
    Within μ σ (rdmByte p i b x) := by
  unfold rdmByte
  repeat' first
    | with_reducible assumption
    | with_reducible apply Within.refl
    | with_reducible apply Eq.refl
    | ((with_reducible apply fun k => sub_trans k hμ); exact rfl)
    | ((with_reducible apply sub_set hμ); exact rfl)
    | intro _
    | with_reducible apply Within.ite
    | with_reducible apply within_wr
    | with_reducible apply Within.foldl
    | (extract_lets +onlyGivenNames a; first | (refine Within.cutAny (μ := μ) (σ := σ) (a := a) ?_ ?_; all_goals (first | (intro ha; clear_value a) | (unfold a; clear a))) | skip)
    | split

theorem within_servePort {μ : Nat} {σ x : State} (p : ℕ) (a1 : ℕ)  (hμ : Nat.land 59765786528804604504846801094402494523699862402460134807364373183601737147557918296785519551553706037451713849013156329779929064835279348684182607352707093121024 μ = 59765786528804604504846801094402494523699862402460134807364373183601737147557918296785519551553706037451713849013156329779929064835279348684182607352707093121024) (hw : Within μ σ x) :
    Within μ σ (servePort p a1 x) := by
  induction a1 generalizing x with
  | zero => exact hw
  | succ k ih =>
    unfold servePort
    have hh := within_serveFrom p 8 (sub_trans rfl hμ) hw
    split
    · exact hw
    · rename_i t e; rw [e] at hh; exact hh
    · rename_i t e; rw [e] at hh; exact ih hh

theorem within_macCtrlWrite {μ : Nat} {σ x : State} (pf : Bool) (p : ℕ) (v : W32)  (hμ : Nat.land 59765786528804604504846801094402494523699862402460134807364373183601737147557918296785519551553706037451713849013156354868267413182230382911865664082113787348992 μ = 59765786528804604504846801094402494523699862402460134807364373183601737147557918296785519551553706037451713849013156354868267413182230382911865664082113787348992) (hw : Within μ σ x) :
    Within μ σ (macCtrlWrite pf p v x) := by
  unfold macCtrlWrite
  repeat' first
    | with_reducible assumption
    | with_reducible apply Within.refl
    | with_reducible apply Eq.refl
    | ((with_reducible apply fun k => sub_trans k hμ); exact rfl)
    | ((with_reducible apply sub_set hμ); exact rfl)
    | intro _
    | with_reducible apply Within.ite
    | with_reducible apply within_plainWrite
    | with_reducible apply within_leaveLpi
    | with_reducible apply within_settleLink
    | with_reducible apply within_enableEdge
    | with_reducible apply within_put
    | with_reducible apply Within.foldl
    | (extract_lets +onlyGivenNames a; first | (refine Within.cutAny (μ := μ) (σ := σ) (a := a) ?_ ?_; all_goals (first | (intro ha; clear_value a) | (unfold a; clear a))) | skip)
    | split

theorem within_countSent {μ : Nat} {σ x : State} (p : ℕ) (f : QFrame)  (hμ : Nat.land 858099707516326214372737599885174152158679412517913176174307932398192897924707006515319955082681819372162038923935107254640248499964580476571753536389382144 μ = 858099707516326214372737599885174152158679412517913176174307932398192897924707006515319955082681819372162038923935107254640248499964580476571753536389382144) (hw : Within μ σ x) :
    Within μ σ (countSent p f x) := by
  unfold countSent
  repeat' first
    | with_reducible assumption
    | with_reducible apply Within.refl
    | with_reducible apply Eq.refl
    | ((with_reducible apply fun k => sub_trans k hμ); exact rfl)
    | ((with_reducible apply sub_set hμ); exact rfl)
    | intro _
    | with_reducible apply Within.ite
    | with_reducible apply within_count
    | with_reducible apply within_bump
    | with_reducible apply Within.foldl
    | (extract_lets +onlyGivenNames a; first | (refine Within.cutAny (μ := μ) (σ := σ) (a := a) ?_ ?_; all_goals (first | (intro ha; clear_value a) | (unfold a; clear a))) | skip)
    | split

/-! ## Rx -/

theorem within_setAud {μ : Nat} {σ x : State} (n : ℕ) (v : Aud)  (hμ : Nat.land 56236422431789954785131731346074773235871213978773957913759444657647969758393598378988008576298635714374011382919011189040103325693678746112606439760814548189184 μ = 56236422431789954785131731346074773235871213978773957913759444657647969758393598378988008576298635714374011382919011189040103325693678746112606439760814548189184) (hw : Within μ σ x) :
    Within μ σ (setAud n v x) := by
  unfold setAud
  repeat' first
    | with_reducible assumption
    | with_reducible apply Within.refl
    | with_reducible apply Eq.refl
    | ((with_reducible apply fun k => sub_trans k hμ); exact rfl)
    | ((with_reducible apply sub_set hμ); exact rfl)
    | ((with_reducible apply Or.inl); with_reducible apply Eq.refl)
    | ((with_reducible apply Or.inr); (with_reducible apply sub_set hμ); exact rfl)
    | intro _
    | with_reducible apply Within.ite
    | with_reducible apply Within.foldl
    | (extract_lets +onlyGivenNames a; first | (refine Within.cutAny (μ := μ) (σ := σ) (a := a) ?_ ?_; all_goals (first | (intro ha; clear_value a) | (unfold a; clear a))) | skip)
    | split
    | (with_reducible apply Within.upd)

theorem within_sourceChange {μ : Nat} {σ x : State} (k : InKey) (v : W32) (g : ATarget)  (hμ : Nat.land 1243373631511159799618075390317669065277336343506000064763716334873118423642959641982694842256373315106943008410574207175312546561422291600002310875599997493331968 μ = 1243373631511159799618075390317669065277336343506000064763716334873118423642959641982694842256373315106943008410574207175312546561422291600002310875599997493331968) (hw : Within μ σ x) :
    Within μ σ (sourceChange k v g x) := by
  unfold sourceChange
  repeat' first
    | with_reducible assumption
    | with_reducible apply Within.refl
    | with_reducible apply Eq.refl
    | ((with_reducible apply fun k => sub_trans k hμ); exact rfl)
    | ((with_reducible apply sub_set hμ); exact rfl)
    | intro _
    | with_reducible apply Within.ite
    | with_reducible apply within_enterChange
    | with_reducible apply Within.foldl
    | (extract_lets +onlyGivenNames a; first | (refine Within.cutAny (μ := μ) (σ := σ) (a := a) ?_ ?_; all_goals (first | (intro ha; clear_value a) | (unfold a; clear a))) | skip)
    | split

theorem within_closeSegment {μ : Nat} {σ x : State} (n : ℕ) (k : ℕ) (media : Sys2Proof.W64)  (hμ : Nat.land 1299610053942949754403207121663743838513207557484774022677475779530766393401353240361682850832671950821317019793493218364352649887115970346114917315360812041521152 μ = 1299610053942949754403207121663743838513207557484774022677475779530766393401353240361682850832671950821317019793493218364352649887115970346114917315360812041521152) (hw : Within μ σ x) :
    Within μ σ (closeSegment n k media x) := by
  unfold closeSegment
  repeat' first
    | with_reducible assumption
    | with_reducible apply Within.refl
    | with_reducible apply Eq.refl
    | ((with_reducible apply fun k => sub_trans k hμ); exact rfl)
    | ((with_reducible apply sub_set hμ); exact rfl)
    | intro _
    | with_reducible apply Within.ite
    | with_reducible apply within_setAud
    | with_reducible apply within_raise0
    | with_reducible apply within_count
    | with_reducible apply within_sourceChange
    | with_reducible apply Within.forEach
    | with_reducible apply Within.foldl
    | (extract_lets +onlyGivenNames a; first | (refine Within.cutAny (μ := μ) (σ := σ) (a := a) ?_ ?_; all_goals (first | (intro ha; clear_value a) | (unfold a; clear a))) | skip)
    | split

theorem within_closeBefore {μ : Nat} {σ x : State} (n : ℕ) (k : ℕ) (at_ : Sys2Proof.W64)  (hμ : Nat.land 1299610053942949754403207121663743838513207557484774022677475779530766393401353240361682850832671950821317019793493218364352649887115970346114917315360812041521152 μ = 1299610053942949754403207121663743838513207557484774022677475779530766393401353240361682850832671950821317019793493218364352649887115970346114917315360812041521152) (hw : Within μ σ x) :
    Within μ σ (closeBefore n k at_ x) := by
  unfold closeBefore
  repeat' first
    | with_reducible assumption
    | with_reducible apply Within.refl
    | with_reducible apply Eq.refl
    | ((with_reducible apply fun k => sub_trans k hμ); exact rfl)
    | ((with_reducible apply sub_set hμ); exact rfl)
    | intro _
    | with_reducible apply Within.ite
    | with_reducible apply within_closeSegment
    | with_reducible apply Within.forEach
    | with_reducible apply Within.foldl
    | (extract_lets +onlyGivenNames a; first | (refine Within.cutAny (μ := μ) (σ := σ) (a := a) ?_ ?_; all_goals (first | (intro ha; clear_value a) | (unfold a; clear a))) | skip)
    | split

theorem within_audioSample {μ : Nat} {σ x : State} (n : ℕ) (at_ : W64) (t : ℕ) (w : List (BitVec 24))  (hμ : Nat.land 1299610053942949754403207121663743838513207557484774022677475779530766393401353240361682850832671950821317019793493218364352649887115970346114917315360812041521152 μ = 1299610053942949754403207121663743838513207557484774022677475779530766393401353240361682850832671950821317019793493218364352649887115970346114917315360812041521152) (hw : Within μ σ x) :
    Within μ σ (audioSample n at_ t w x) := by
  unfold audioSample
  repeat' first
    | with_reducible assumption
    | with_reducible apply Within.refl
    | with_reducible apply Eq.refl
    | ((with_reducible apply fun k => sub_trans k hμ); exact rfl)
    | ((with_reducible apply sub_set hμ); exact rfl)
    | intro _
    | with_reducible apply Within.ite
    | with_reducible apply within_closeSegment
    | with_reducible apply within_setAud
    | with_reducible apply within_closeBefore
    | with_reducible apply Within.foldl
    | (extract_lets +onlyGivenNames a; first | (refine Within.cutAny (μ := μ) (σ := σ) (a := a) ?_ ?_; all_goals (first | (intro ha; clear_value a) | (unfold a; clear a))) | skip)
    | split

theorem within_noteTrunc {μ : Nat} {σ x : State} (p : ℕ)  (hμ : Nat.land 3529364097014649719715069748327721287828648423686176893604928525953767389164319917797510975255070323077702466094145140739825739141600602571576167591892544931840 μ = 3529364097014649719715069748327721287828648423686176893604928525953767389164319917797510975255070323077702466094145140739825739141600602571576167591892544931840) (hw : Within μ σ x) :
    Within μ σ (noteTrunc p x) := by
  unfold noteTrunc
  repeat' first
    | with_reducible assumption
    | with_reducible apply Within.refl
    | with_reducible apply Eq.refl
    | ((with_reducible apply fun k => sub_trans k hμ); exact rfl)
    | ((with_reducible apply sub_set hμ); exact rfl)
    | intro _
    | with_reducible apply Within.ite
    | with_reducible apply within_portEvent
    | with_reducible apply within_count
    | with_reducible apply Within.foldl
    | (extract_lets +onlyGivenNames a; first | (refine Within.cutAny (μ := μ) (σ := σ) (a := a) ?_ ?_; all_goals (first | (intro ha; clear_value a) | (unfold a; clear a))) | skip)
    | split

theorem within_timecode {μ : Nat} {σ x : State} (n : ℕ) (at_ : W64) (v : W32)  (hμ : Nat.land 1299610053942949754403207121663743838513207557484774022677475779530766393401353240361682850832671950821317019793680290573931005460646042004702601541876771407022080 μ = 1299610053942949754403207121663743838513207557484774022677475779530766393401353240361682850832671950821317019793680290573931005460646042004702601541876771407022080) (hw : Within μ σ x) :
    Within μ σ (timecode n at_ v x) := by
  unfold timecode
  repeat' first
    | with_reducible assumption
    | with_reducible apply Within.refl
    | with_reducible apply Eq.refl
    | ((with_reducible apply fun k => sub_trans k hμ); exact rfl)
    | ((with_reducible apply sub_set hμ); exact rfl)
    | ((with_reducible apply Or.inl); with_reducible apply Eq.refl)
    | ((with_reducible apply Or.inr); (with_reducible apply sub_set hμ); exact rfl)
    | intro _
    | with_reducible apply Within.ite
    | with_reducible apply within_put
    | with_reducible apply within_sourceChange
    | with_reducible apply Within.foldl
    | (extract_lets +onlyGivenNames a; first | (refine Within.cutAny (μ := μ) (σ := σ) (a := a) ?_ ?_; all_goals (first | (intro ha; clear_value a) | (unfold a; clear a))) | skip)
    | split
    | (with_reducible apply Within.upd)

theorem within_rxBuffer {μ : Nat} {σ x : State} (p : ℕ) (r : ℕ) (b : Sys2Proof.RxPost) (part : List Sys2Proof.Byte) (first : Bool) (last : Bool) (cut : Bool) (err : ℕ) (w3 : ℕ) (m : Sys2Proof.RxFrame)  (hμ : Nat.land 3528505997307133393500697010727836113676489744273658980428754218021369196266395210790995655299987641258330304055221161031080701831854354919663050541633139377152 μ = 3528505997307133393500697010727836113676489744273658980428754218021369196266395210790995655299987641258330304055221161031080701831854354919663050541633139377152) (hw : Within μ σ x) :
    Within μ σ (rxBuffer p r b part first last cut err w3 m x) := by
  unfold rxBuffer
  repeat' first
    | with_reducible assumption
    | with_reducible apply Within.refl
    | with_reducible apply Eq.refl
    | ((with_reducible apply fun k => sub_trans k hμ); exact rfl)
    | ((with_reducible apply sub_set hμ); exact rfl)
    | intro _
    | with_reducible apply Within.ite
    | with_reducible apply within_rxWriteBack
    | with_reducible apply within_hmemPut
    | with_reducible apply Within.foldl
    | (extract_lets +onlyGivenNames a; first | (refine Within.cutAny (μ := μ) (σ := σ) (a := a) ?_ ?_; all_goals (first | (intro ha; clear_value a) | (unfold a; clear a))) | skip)
    | split

theorem within_rxFill {μ : Nat} {σ x : State} (p : ℕ) (r : ℕ) (err : ℕ) (w3 : ℕ) (m : RxFrame) (a4 : List RxPost) (a5 : List Byte) (a6 : Bool)  (hμ : Nat.land 3528505997307133393500697010727836113676489744273658980428754218021369196266395210790995655299987641258330304055221161031080701831854354919663050541633139377152 μ = 3528505997307133393500697010727836113676489744273658980428754218021369196266395210790995655299987641258330304055221161031080701831854354919663050541633139377152) (hw : Within μ σ x) :
    Within μ σ (rxFill p r err w3 m a4 a5 a6 x).1 := by
  induction a4 generalizing x a5 a6 with
  | nil => exact hw
  | cons b rest ih =>
    unfold rxFill
    repeat' first
    | with_reducible assumption
    | with_reducible apply Within.refl
    | with_reducible apply Eq.refl
    | ((with_reducible apply fun k => sub_trans k hμ); exact rfl)
    | ((with_reducible apply sub_set hμ); exact rfl)
    | (with_reducible apply ih)
    | intro _
    | with_reducible apply Within.ite
    | with_reducible apply within_rxBuffer
    | with_reducible apply Within.foldl
    | (extract_lets +onlyGivenNames a; first | (refine Within.cutAny (μ := μ) (σ := σ) (a := a) ?_ ?_; all_goals (first | (intro ha; clear_value a) | (unfold a; clear a))) | skip)
    | split

theorem within_rxDeliver {μ : Nat} {σ x : State} (p : ℕ) (r : ℕ) (flow : ℕ) (err : ℕ) (m : RxFrame)  (hμ : Nat.land 3529364097014649719715069748327721287828648423686176893604928525953767389164319917797510975255070323077702466094145140739825739141600602571576167591892544932864 μ = 3529364097014649719715069748327721287828648423686176893604928525953767389164319917797510975255070323077702466094145140739825739141600602571576167591892544932864) (hw : Within μ σ x) :
    Within μ σ (rxDeliver p r flow err m x) := by
  unfold rxDeliver
  repeat' first
    | with_reducible assumption
    | with_reducible apply Within.refl
    | with_reducible apply Eq.refl
    | ((with_reducible apply fun k => sub_trans k hμ); exact rfl)
    | ((with_reducible apply sub_set hμ); exact rfl)
    | intro _
    | with_reducible apply Within.ite
    | with_reducible apply within_count
    | with_reducible apply within_poisonRing
    | with_reducible apply within_rxFill
    | with_reducible apply within_noteTrunc
    | with_reducible apply Within.foldl
    | (extract_lets +onlyGivenNames a; first | (refine Within.cutAny (μ := μ) (σ := σ) (a := a) ?_ ?_; all_goals (first | (intro ha; clear_value a) | (unfold a; clear a))) | skip)
    | split

theorem within_setAnc {μ : Nat} {σ x : State} (n : ℕ) (v : Merge)  (hμ : Nat.land 56236422431789954785131731346074773235871213978773957913759444657647969758393598378988008576298635714374011382919011189040103325693678746112606439760814548189184 μ = 56236422431789954785131731346074773235871213978773957913759444657647969758393598378988008576298635714374011382919011189040103325693678746112606439760814548189184) (hw : Within μ σ x) :
    Within μ σ (setAnc n v x) := by
  unfold setAnc
  repeat' first
    | with_reducible assumption
    | with_reducible apply Within.refl
    | with_reducible apply Eq.refl
    | ((with_reducible apply fun k => sub_trans k hμ); exact rfl)
    | ((with_reducible apply sub_set hμ); exact rfl)
    | ((with_reducible apply Or.inl); with_reducible apply Eq.refl)
    | ((with_reducible apply Or.inr); (with_reducible apply sub_set hμ); exact rfl)
    | intro _
    | with_reducible apply Within.ite
    | with_reducible apply Within.foldl
    | (extract_lets +onlyGivenNames a; first | (refine Within.cutAny (μ := μ) (σ := σ) (a := a) ?_ ?_; all_goals (first | (intro ha; clear_value a) | (unfold a; clear a))) | skip)
    | split
    | (with_reducible apply Within.upd)

theorem within_setSub {μ : Nat} {σ x : State} (u : ℕ) (v : SacnSub)  (hμ : Nat.land 56236422431789954785131731346074773235871213978773957913759444657647969758393598378988008576298635714374011382919011189040103325693678746112606439760814548189184 μ = 56236422431789954785131731346074773235871213978773957913759444657647969758393598378988008576298635714374011382919011189040103325693678746112606439760814548189184) (hw : Within μ σ x) :
    Within μ σ (setSub u v x) := by
  unfold setSub
  repeat' first
    | with_reducible assumption
    | with_reducible apply Within.refl
    | with_reducible apply Eq.refl
    | ((with_reducible apply fun k => sub_trans k hμ); exact rfl)
    | ((with_reducible apply sub_set hμ); exact rfl)
    | ((with_reducible apply Or.inl); with_reducible apply Eq.refl)
    | ((with_reducible apply Or.inr); (with_reducible apply sub_set hμ); exact rfl)
    | intro _
    | with_reducible apply Within.ite
    | with_reducible apply Within.foldl
    | (extract_lets +onlyGivenNames a; first | (refine Within.cutAny (μ := μ) (σ := σ) (a := a) ?_ ?_; all_goals (first | (intro ha; clear_value a) | (unfold a; clear a))) | skip)
    | split
    | (with_reducible apply Within.upd)

theorem within_remerge {μ : Nat} {σ x : State} (u : ℕ) (srcs : List SacnSrc)  (hμ : Nat.land 1299610053942949754403207121663743838513207557484774022677475779530766393401353240361682850832671950821317019793493218364352649887115970346114917315360812041521152 μ = 1299610053942949754403207121663743838513207557484774022677475779530766393401353240361682850832671950821317019793493218364352649887115970346114917315360812041521152) (hw : Within μ σ x) :
    Within μ σ (remerge u srcs x) := by
  unfold remerge
  repeat' first
    | with_reducible assumption
    | with_reducible apply Within.refl
    | with_reducible apply Eq.refl
    | ((with_reducible apply fun k => sub_trans k hμ); exact rfl)
    | ((with_reducible apply sub_set hμ); exact rfl)
    | intro _
    | with_reducible apply Within.ite
    | with_reducible apply within_setSub
    | with_reducible apply within_sourceChange
    | with_reducible apply Within.forEach
    | with_reducible apply Within.foldl
    | (extract_lets +onlyGivenNames a; first | (refine Within.cutAny (μ := μ) (σ := σ) (a := a) ?_ ?_; all_goals (first | (intro ha; clear_value a) | (unfold a; clear a))) | skip)
    | split

theorem within_setVid {μ : Nat} {σ x : State} (n : ℕ) (v : Vid)  (hμ : Nat.land 56236422431789954785131731346074773235871213978773957913759444657647969758393598378988008576298635714374011382919011189040103325693678746112606439760814548189184 μ = 56236422431789954785131731346074773235871213978773957913759444657647969758393598378988008576298635714374011382919011189040103325693678746112606439760814548189184) (hw : Within μ σ x) :
    Within μ σ (setVid n v x) := by
  unfold setVid
  repeat' first
    | with_reducible assumption
    | with_reducible apply Within.refl
    | with_reducible apply Eq.refl
    | ((with_reducible apply fun k => sub_trans k hμ); exact rfl)
    | ((with_reducible apply sub_set hμ); exact rfl)
    | ((with_reducible apply Or.inl); with_reducible apply Eq.refl)
    | ((with_reducible apply Or.inr); (with_reducible apply sub_set hμ); exact rfl)
    | intro _
    | with_reducible apply Within.ite
    | with_reducible apply Within.foldl
    | (extract_lets +onlyGivenNames a; first | (refine Within.cutAny (μ := μ) (σ := σ) (a := a) ?_ ?_; all_goals (first | (intro ha; clear_value a) | (unfold a; clear a))) | skip)
    | split
    | (with_reducible apply Within.upd)

theorem within_releasePkt {μ : Nat} {σ x : State} (n : ℕ) (b : PktBuf)  (hμ : Nat.land 4408058197511367763232753050610139619639136142104519986007419848729516916639219892469198609259736506114796393952254645967086956544318049908149101582204027291648 μ = 4408058197511367763232753050610139619639136142104519986007419848729516916639219892469198609259736506114796393952254645967086956544318049908149101582204027291648) (hw : Within μ σ x) :
    Within μ σ (releasePkt n b x) := by
  unfold releasePkt
  repeat' first
    | with_reducible assumption
    | with_reducible apply Within.refl
    | with_reducible apply Eq.refl
    | ((with_reducible apply fun k => sub_trans k hμ); exact rfl)
    | ((with_reducible apply sub_set hμ); exact rfl)
    | (intro hs; have q := fits_filter ‹_ ∈ List.filter _ _› ‹_› hs; exact q)
    | (intro hs; have q := fits_at ‹taskAt _ _ = some _› ‹_› hs; exact q)
    | (intro hs; have q := fits_on ‹taskOn _ _ = some _› ‹_› hs; exact q)
    | (intro hs; have q := fits_all ‹_ ∈ allTasks _› ‹_› hs; exact q)
    | (intro hs; have q := fits_all (List.mem_of_find?_eq_some ‹List.find? _ _ = some _›) ‹_› hs; exact q)
    | intro _
    | with_reducible apply Within.ite
    | with_reducible apply within_releaseOne
    | with_reducible apply within_setTask
    | with_reducible apply Within.foldl
    | (extract_lets +onlyGivenNames a; first | (refine Within.cutAny (μ := μ) (σ := σ) (a := a) ?_ ?_; all_goals (first | (intro ha; clear_value a) | (unfold a; clear a))) | skip)
    | split

theorem within_rxService {μ : Nat} {σ x : State} (p : ℕ) (r : ℕ) (m : RxFrame)  (hμ : Nat.land 4408085013127227648426952198660136031331391100836161170794175295852404360167280039563152213008332839921651774015971063540679061113329956872725539746225051420672 μ = 4408085013127227648426952198660136031331391100836161170794175295852404360167280039563152213008332839921651774015971063540679061113329956872725539746225051420672) (hw : Within μ σ x) :
    Within μ σ (rxService p r m x) := by
  unfold rxService
  repeat' first
    | with_reducible assumption
    | with_reducible apply Within.refl
    | with_reducible apply Eq.refl
    | ((with_reducible apply fun k => sub_trans k hμ); exact rfl)
    | ((with_reducible apply sub_set hμ); exact rfl)
    | intro _
    | with_reducible apply Within.ite
    | with_reducible apply within_draw
    | with_reducible apply within_count
    | with_reducible apply within_releasePkt
    | with_reducible apply within_noteTrunc
    | with_reducible apply Within.forEach
    | with_reducible apply Within.foldl
    | (extract_lets +onlyGivenNames a; first | (refine Within.cutAny (μ := μ) (σ := σ) (a := a) ?_ ?_; all_goals (first | (intro ha; clear_value a) | (unfold a; clear a))) | skip)
    | split

theorem within_showLegs {μ : Nat} {σ x : State} (kind : ℕ) (n : ℕ)  (hμ : Nat.land 374144419156711147060143317175368453031918731001856 μ = 374144419156711147060143317175368453031918731001856) (hw : Within μ σ x) :
    Within μ σ (showLegs kind n x) := by
  unfold showLegs
  repeat' first
    | with_reducible assumption
    | with_reducible apply Within.refl
    | with_reducible apply Eq.refl
    | ((with_reducible apply fun k => sub_trans k hμ); exact rfl)
    | ((with_reducible apply sub_set hμ); exact rfl)
    | intro _
    | with_reducible apply Within.ite
    | with_reducible apply within_put
    | with_reducible apply Within.foldl
    | (extract_lets +onlyGivenNames a; first | (refine Within.cutAny (μ := μ) (σ := σ) (a := a) ?_ ?_; all_goals (first | (intro ha; clear_value a) | (unfold a; clear a))) | skip)
    | split

theorem within_setMerge {μ : Nat} {σ x : State} (kind : ℕ) (n : ℕ) (g : Merge)  (hμ : Nat.land 56236422431789954785131731346074773235871213978773957913759444657647969758393598378988008576298635714374011382919011189040103325693678746112606439760814548189184 μ = 56236422431789954785131731346074773235871213978773957913759444657647969758393598378988008576298635714374011382919011189040103325693678746112606439760814548189184) (hw : Within μ σ x) :
    Within μ σ (setMerge kind n g x) := by
  unfold setMerge
  repeat' first
    | with_reducible assumption
    | with_reducible apply Within.refl
    | with_reducible apply Eq.refl
    | ((with_reducible apply fun k => sub_trans k hμ); exact rfl)
    | ((with_reducible apply sub_set hμ); exact rfl)
    | intro _
    | with_reducible apply Within.ite
    | with_reducible apply within_setVid
    | with_reducible apply within_setAud
    | with_reducible apply within_setAnc
    | with_reducible apply Within.foldl
    | (extract_lets +onlyGivenNames a; first | (refine Within.cutAny (μ := μ) (σ := σ) (a := a) ?_ ?_; all_goals (first | (intro ha; clear_value a) | (unfold a; clear a))) | skip)
    | split

theorem within_flowCtrlWrite {μ : Nat} {σ x : State} (pf : Bool) (p : ℕ) (f : ℕ) (v : W32)  (hμ : Nat.land 56236422431789954785131731346074773235871213978773957913759444657647969758393598378988008576298635714374011383293178444159897768111918995863486084714915403137024 μ = 56236422431789954785131731346074773235871213978773957913759444657647969758393598378988008576298635714374011383293178444159897768111918995863486084714915403137024) (hw : Within μ σ x) :
    Within μ σ (flowCtrlWrite pf p f v x) := by
  unfold flowCtrlWrite
  repeat' first
    | with_reducible assumption
    | with_reducible apply Within.refl
    | with_reducible apply Eq.refl
    | ((with_reducible apply fun k => sub_trans k hμ); exact rfl)
    | ((with_reducible apply sub_set hμ); exact rfl)
    | intro _
    | with_reducible apply Within.ite
    | with_reducible apply within_put
    | with_reducible apply within_plainWrite
    | with_reducible apply within_showLegs
    | with_reducible apply within_setMerge
    | with_reducible apply Within.foldl
    | (extract_lets +onlyGivenNames a; first | (refine Within.cutAny (μ := μ) (σ := σ) (a := a) ?_ ?_; all_goals (first | (intro ha; clear_value a) | (unfold a; clear a))) | skip)
    | split

theorem within_writeRow {μ : Nat} {σ x : State} (n : ℕ) (f : VFrame) (r : VideoRow)  (hμ : Nat.land 1124735313433459226312349608822294546110641549010779301580598287616418580711055365235812294085613375742035204954691615261660103635861574638895941369244582078840832 μ = 1124735313433459226312349608822294546110641549010779301580598287616418580711055365235812294085613375742035204954691615261660103635861574638895941369244582078840832) (hw : Within μ σ x) :
    Within μ σ (writeRow n f r x) := by
  unfold writeRow
  repeat' first
    | with_reducible assumption
    | with_reducible apply Within.refl
    | with_reducible apply Eq.refl
    | ((with_reducible apply fun k => sub_trans k hμ); exact rfl)
    | ((with_reducible apply sub_set hμ); exact rfl)
    | intro _
    | with_reducible apply Within.ite
    | with_reducible apply within_fmemPut
    | with_reducible apply Within.foldl
    | (extract_lets +onlyGivenNames a; first | (refine Within.cutAny (μ := μ) (σ := σ) (a := a) ?_ ?_; all_goals (first | (intro ha; clear_value a) | (unfold a; clear a))) | skip)
    | split

/-! ## Power -/

theorem within_noteCause {μ : Nat} {σ x : State} (bit : ℕ) (overlap : Bool)  (hμ : Nat.land 113078212145816597093331040047546785012958969400039613319782796882727665664 μ = 113078212145816597093331040047546785012958969400039613319782796882727665664) (hw : Within μ σ x) :
    Within μ σ (noteCause bit overlap x) := by
  unfold noteCause
  repeat' first
    | with_reducible assumption
    | with_reducible apply Within.refl
    | with_reducible apply Eq.refl
    | ((with_reducible apply fun k => sub_trans k hμ); exact rfl)
    | ((with_reducible apply sub_set hμ); exact rfl)
    | intro _
    | with_reducible apply Within.ite
    | with_reducible apply within_wr
    | with_reducible apply Within.foldl
    | (extract_lets +onlyGivenNames a; first | (refine Within.cutAny (μ := μ) (σ := σ) (a := a) ?_ ?_; all_goals (first | (intro ha; clear_value a) | (unfold a; clear a))) | skip)
    | split

theorem all_bit (r : RegId) : Nat.testBit 1799551627328263132593620244384494602291290778697776519520762907435079401706211234636503068290045471048118431027391874159694642289669506039158533993860293107646463 r.num = true := by cases r <;> exact rfl

/-- The footprint of a reset that keeps the queue, the member, host memory and the draws of free values. -/
theorem within_cold {μ : Nat} {σ x : State} (fmem : List Host.Cell) (otp : Map W32) (fns : List Nat) (p : Pwr) (ret : Option Bool)
    (hf : memWf x.fmem = true → memWf fmem = true) (hμ : Nat.land 1799551627328263132593620244384494602291290778697776519520762907435079401706211234636503068290045471048118431027391874159694642289669506039158533993860293107646463 μ = 1799551627328263132593620244384494602291290778697776519520762907435079401706211234636503068290045471048118431027391874159694642289669506039158533993860293107646463) (hw : Within μ σ x) :
    Within μ σ (State.coldStart x.member x.pending fmem x.hmem otp fns p ret x.free) := by
  refine ⟨fun r hr => ?_, fun q hq => (hw.part q hq).trans ?_, fun k => ?_⟩
  · exact Bool.noConfusion ((sub_set hμ (all_bit r)).symm.trans hr)
  · cases q
    case pending => rfl
    case member => rfl
    case hmem => rfl
    case free => rfl
    all_goals exact Bool.noConfusion ((sub_set hμ rfl).symm.trans hq)
  · have g := hw.sound k
    exact ⟨hf g.fmem, g.hmem, rfl, rfl, fun e he => absurd he (List.not_mem_nil), fun e he => absurd he (List.not_mem_nil)⟩

theorem within_coldBlocks {μ : Nat} {σ x : State} (fmem : List Host.Cell) (p : Pwr) (hf : memWf x.fmem = true → memWf fmem = true) (hμ : Nat.land 1799551627328263132593620244384494602291290778697776519520762907435079401706211234636503068290045471048118431027391874159694642289669506039158533993860293107646463 μ = 1799551627328263132593620244384494602291290778697776519520762907435079401706211234636503068290045471048118431027391874159694642289669506039158533993860293107646463) (hw : Within μ σ x) :
    Within μ σ (coldBlocks fmem p x) := by
  unfold coldBlocks
  repeat' first
    | with_reducible assumption
    | with_reducible apply Within.refl
    | with_reducible apply Eq.refl
    | ((with_reducible apply fun k => sub_trans k hμ); exact rfl)
    | ((with_reducible apply sub_set hμ); exact rfl)
    | (with_reducible apply within_cold; with_reducible assumption)
    | exact hf
    | with_reducible apply memWf_memZero
    | with_reducible apply memWf_memWrite
    | with_reducible apply memWf_memSet
    | intro _
    | with_reducible apply Within.ite
    | with_reducible apply within_wr
    | with_reducible apply within_put
    | with_reducible apply Within.foldl
    | (extract_lets +onlyGivenNames a; first | (refine Within.cutAny (μ := μ) (σ := σ) (a := a) ?_ ?_; all_goals (first | (intro ha; clear_value a) | (unfold a; clear a))) | skip)
    | split

theorem within_resetBlocks {μ : Nat} {σ x : State} (bit : ℕ)  (hμ : Nat.land 1799551627328263132593620244384494602291290778697776519520762907435079401706211234636503068290045471048118431027391874159694642289669506039158533993860293107646463 μ = 1799551627328263132593620244384494602291290778697776519520762907435079401706211234636503068290045471048118431027391874159694642289669506039158533993860293107646463) (hw : Within μ σ x) :
    Within μ σ (resetBlocks bit x) := by
  unfold resetBlocks
  repeat' first
    | with_reducible assumption
    | with_reducible apply Within.refl
    | with_reducible apply Eq.refl
    | ((with_reducible apply fun k => sub_trans k hμ); exact rfl)
    | ((with_reducible apply sub_set hμ); exact rfl)
    | exact (fun h => h)
    | intro _
    | with_reducible apply Within.ite
    | with_reducible apply within_noteCause
    | with_reducible apply within_coldBlocks
    | with_reducible apply Within.foldl
    | (extract_lets +onlyGivenNames a; first | (refine Within.cutAny (μ := μ) (σ := σ) (a := a) ?_ ?_; all_goals (first | (intro ha; clear_value a) | (unfold a; clear a))) | skip)
    | split

theorem within_softReset {μ : Nat} {σ x : State}   (hμ : Nat.land 1799551627328263132593620244384494602291290778697776519520762907435079401706211234636503068290045471048118431027391874159694642289669506039158533993860293107646463 μ = 1799551627328263132593620244384494602291290778697776519520762907435079401706211234636503068290045471048118431027391874159694642289669506039158533993860293107646463) (hw : Within μ σ x) :
    Within μ σ (softReset x) := by
  unfold softReset
  repeat' first
    | with_reducible assumption
    | with_reducible apply Within.refl
    | with_reducible apply Eq.refl
    | ((with_reducible apply fun k => sub_trans k hμ); exact rfl)
    | ((with_reducible apply sub_set hμ); exact rfl)
    | intro _
    | with_reducible apply Within.ite
    | with_reducible apply within_resetBlocks
    | with_reducible apply Within.foldl
    | (extract_lets +onlyGivenNames a; first | (refine Within.cutAny (μ := μ) (σ := σ) (a := a) ?_ ?_; all_goals (first | (intro ha; clear_value a) | (unfold a; clear a))) | skip)
    | split

theorem within_modeErr {μ : Nat} {σ x : State}   (hμ : Nat.land 1852673427797059126777135760139006525652319754650249024631321344126610074238976 μ = 1852673427797059126777135760139006525652319754650249024631321344126610074238976) (hw : Within μ σ x) :
    Within μ σ (modeErr x) := by
  unfold modeErr
  repeat' first
    | with_reducible assumption
    | with_reducible apply Within.refl
    | with_reducible apply Eq.refl
    | ((with_reducible apply fun k => sub_trans k hμ); exact rfl)
    | ((with_reducible apply sub_set hμ); exact rfl)
    | intro _
    | with_reducible apply Within.ite
    | with_reducible apply within_setBit
    | with_reducible apply Within.foldl
    | (extract_lets +onlyGivenNames a; first | (refine Within.cutAny (μ := μ) (σ := σ) (a := a) ?_ ?_; all_goals (first | (intro ha; clear_value a) | (unfold a; clear a))) | skip)
    | split

theorem within_reqShow {μ : Nat} {σ x : State}   (hμ : Nat.land 224945689727159819140526925384299092943484855915095831655037778630591879033574393517804711266685731541041840458410052767649764712392757760319663346382270852235264 μ = 224945689727159819140526925384299092943484855915095831655037778630591879033574393517804711266685731541041840458410052767649764712392757760319663346382270852235264) (hw : Within μ σ x) :
    Within μ σ (reqShow x) := by
  unfold reqShow
  repeat' first
    | with_reducible assumption
    | with_reducible apply Within.refl
    | with_reducible apply Eq.refl
    | ((with_reducible apply fun k => sub_trans k hμ); exact rfl)
    | ((with_reducible apply sub_set hμ); exact rfl)
    | intro _
    | with_reducible apply Within.ite
    | with_reducible apply within_beginTrans
    | with_reducible apply within_modeErr
    | with_reducible apply Within.foldl
    | (extract_lets +onlyGivenNames a; first | (refine Within.cutAny (μ := μ) (σ := σ) (a := a) ?_ ?_; all_goals (first | (intro ha; clear_value a) | (unfold a; clear a))) | skip)
    | split

theorem within_pwrCtrlWrite {μ : Nat} {σ x : State} (pf : Bool) (v : W32)  (hμ : Nat.land 224945689727159819140526925384299092943484855915095831655037778630591879033574393515952051973665190641339341364651052185345571577613683740640006975105271118954496 μ = 224945689727159819140526925384299092943484855915095831655037778630591879033574393515952051973665190641339341364651052185345571577613683740640006975105271118954496) (hw : Within μ σ x) :
    Within μ σ (pwrCtrlWrite pf v x) := by
  unfold pwrCtrlWrite
  repeat' first
    | with_reducible assumption
    | with_reducible apply Within.refl
    | with_reducible apply Eq.refl
    | ((with_reducible apply fun k => sub_trans k hμ); exact rfl)
    | ((with_reducible apply sub_set hμ); exact rfl)
    | intro _
    | with_reducible apply Within.ite
    | with_reducible apply within_plainWrite
    | with_reducible apply within_holdEnds
    | with_reducible apply Within.foldl
    | (extract_lets +onlyGivenNames a; first | (refine Within.cutAny (μ := μ) (σ := σ) (a := a) ?_ ?_; all_goals (first | (intro ha; clear_value a) | (unfold a; clear a))) | skip)
    | split

theorem within_setRole {μ : Nat} {σ x : State} (r : ℕ)  (hμ : Nat.land 112472844863579909570263462692149546471742427957547915827518889315295939516787196757976017153028630575422433002552694619472520742165551802985862039219286860365824 μ = 112472844863579909570263462692149546471742427957547915827518889315295939516787196757976017153028630575422433002552694619472520742165551802985862039219286860365824) (hw : Within μ σ x) :
    Within μ σ (setRole r x) := by
  unfold setRole
  repeat' first
    | with_reducible assumption
    | with_reducible apply Within.refl
    | with_reducible apply Eq.refl
    | ((with_reducible apply fun k => sub_trans k hμ); exact rfl)
    | ((with_reducible apply sub_set hμ); exact rfl)
    | ((with_reducible apply Or.inl); with_reducible apply Eq.refl)
    | ((with_reducible apply Or.inr); (with_reducible apply sub_set hμ); exact rfl)
    | intro _
    | with_reducible apply Within.ite
    | with_reducible apply within_put
    | with_reducible apply Within.foldl
    | (extract_lets +onlyGivenNames a; first | (refine Within.cutAny (μ := μ) (σ := σ) (a := a) ?_ ?_; all_goals (first | (intro ha; clear_value a) | (unfold a; clear a))) | skip)
    | split
    | (with_reducible apply Within.upd)

theorem within_wake {μ : Nat} {σ x : State}   (hμ : Nat.land 3529364097014649719715069748327721287828648423686176893604928525953767389164319917797627587161345696443454963729194128760379956017548110351375648304454845876224 μ = 3529364097014649719715069748327721287828648423686176893604928525953767389164319917797627587161345696443454963729194128760379956017548110351375648304454845876224) (hw : Within μ σ x) :
    Within μ σ (wake x) := by
  unfold wake
  repeat' first
    | with_reducible assumption
    | with_reducible apply Within.refl
    | with_reducible apply Eq.refl
    | ((with_reducible apply fun k => sub_trans k hμ); exact rfl)
    | ((with_reducible apply sub_set hμ); exact rfl)
    | intro _
    | with_reducible apply Within.ite
    | with_reducible apply within_raise0
    | with_reducible apply within_put
    | with_reducible apply within_noteCause
    | with_reducible apply Within.foldl
    | (extract_lets +onlyGivenNames a; first | (refine Within.cutAny (μ := μ) (σ := σ) (a := a) ?_ ?_; all_goals (first | (intro ha; clear_value a) | (unfold a; clear a))) | skip)
    | split

theorem within_resetAll {μ : Nat} {σ x : State} (bit : ℕ) (fmem : List Host.Cell) (hf : memWf x.fmem = true → memWf fmem = true) (hμ : Nat.land 1799551627328263132593620244384494602291290778697776519520762907435079401706211234636503068290045471048118431027391874159694642289669506039158533993860293107646463 μ = 1799551627328263132593620244384494602291290778697776519520762907435079401706211234636503068290045471048118431027391874159694642289669506039158533993860293107646463) (hw : Within μ σ x) :
    Within μ σ (resetAll bit fmem x) := by
  unfold resetAll
  repeat' first
    | with_reducible assumption
    | with_reducible apply Within.refl
    | with_reducible apply Eq.refl
    | ((with_reducible apply fun k => sub_trans k hμ); exact rfl)
    | ((with_reducible apply sub_set hμ); exact rfl)
    | (with_reducible apply within_cold; with_reducible assumption)
    | exact hf
    | with_reducible apply memWf_memZero
    | with_reducible apply memWf_memWrite
    | with_reducible apply memWf_memSet
    | intro _
    | with_reducible apply Within.ite
    | with_reducible apply within_wr
    | with_reducible apply within_put
    | with_reducible apply Within.foldl
    | (extract_lets +onlyGivenNames a; first | (refine Within.cutAny (μ := μ) (σ := σ) (a := a) ?_ ?_; all_goals (first | (intro ha; clear_value a) | (unfold a; clear a))) | skip)
    | split

theorem within_powerDown {μ : Nat} {σ x : State}   (hμ : Nat.land 1799565356923583393813050208186092765077725317568376806131581696361997772792578029948607313409326793957228385620014657121410716533645505472446159141916875337760767 μ = 1799565356923583393813050208186092765077725317568376806131581696361997772792578029948607313409326793957228385620014657121410716533645505472446159141916875337760767) (hw : Within μ σ x) :
    Within μ σ (powerDown x) := by
  unfold powerDown
  repeat' first
    | with_reducible assumption
    | with_reducible apply Within.refl
    | with_reducible apply Eq.refl
    | ((with_reducible apply fun k => sub_trans k hμ); exact rfl)
    | ((with_reducible apply sub_set hμ); exact rfl)
    | exact (fun _ => rfl)
    | intro _
    | with_reducible apply Within.ite
    | with_reducible apply within_raise0
    | with_reducible apply within_put
    | with_reducible apply within_coldBlocks
    | with_reducible apply Within.foldl
    | (extract_lets +onlyGivenNames a; first | (refine Within.cutAny (μ := μ) (σ := σ) (a := a) ?_ ?_; all_goals (first | (intro ha; clear_value a) | (unfold a; clear a))) | skip)
    | split

theorem within_slowLoRead {μ : Nat} {σ x : State}   (hμ : Nat.land 14474011154664524427946373126085988481658748083205070504932198000989141204992 μ = 14474011154664524427946373126085988481658748083205070504932198000989141204992) (hw : Within μ σ x) :
    Within μ σ (slowLoRead x).1 := by
  unfold slowLoRead
  repeat' first
    | with_reducible assumption
    | with_reducible apply Within.refl
    | with_reducible apply Eq.refl
    | ((with_reducible apply fun k => sub_trans k hμ); exact rfl)
    | ((with_reducible apply sub_set hμ); exact rfl)
    | intro _
    | with_reducible apply Within.ite
    | with_reducible apply within_wr
    | with_reducible apply Within.foldl
    | (extract_lets +onlyGivenNames a; first | (refine Within.cutAny (μ := μ) (σ := σ) (a := a) ?_ ?_; all_goals (first | (intro ha; clear_value a) | (unfold a; clear a))) | skip)
    | split

theorem within_twinEvent {μ : Nat} {σ x : State} (bit : ℕ) (ev : ℕ) (detail : ℕ)  (hμ : Nat.land 3529364097014649719715069748327721287828648423686176893604928525953767389164319917797510976980506909775343412952834061707591705193131562542736261085800588920832 μ = 3529364097014649719715069748327721287828648423686176893604928525953767389164319917797510976980506909775343412952834061707591705193131562542736261085800588920832) (hw : Within μ σ x) :
    Within μ σ (twinEvent bit ev detail x) := by
  unfold twinEvent
  repeat' first
    | with_reducible assumption
    | with_reducible apply Within.refl
    | with_reducible apply Eq.refl
    | ((with_reducible apply fun k => sub_trans k hμ); exact rfl)
    | ((with_reducible apply sub_set hμ); exact rfl)
    | intro _
    | with_reducible apply Within.ite
    | with_reducible apply within_raise
    | with_reducible apply within_setBit
    | with_reducible apply Within.foldl
    | (extract_lets +onlyGivenNames a; first | (refine Within.cutAny (μ := μ) (σ := σ) (a := a) ?_ ?_; all_goals (first | (intro ha; clear_value a) | (unfold a; clear a))) | skip)
    | split

theorem within_leaseGone {μ : Nat} {σ x : State}   (hμ : Nat.land 112472844863579909570263462692149546471742427957547915827518889315295939516787196757976017153028630575422433002552694619472520742165551802985862039219286860365824 μ = 112472844863579909570263462692149546471742427957547915827518889315295939516787196757976017153028630575422433002552694619472520742165551802985862039219286860365824) (hw : Within μ σ x) :
    Within μ σ (leaseGone x) := by
  unfold leaseGone
  repeat' first
    | with_reducible assumption
    | with_reducible apply Within.refl
    | with_reducible apply Eq.refl
    | ((with_reducible apply fun k => sub_trans k hμ); exact rfl)
    | ((with_reducible apply sub_set hμ); exact rfl)
    | ((with_reducible apply Or.inl); with_reducible apply Eq.refl)
    | ((with_reducible apply Or.inr); (with_reducible apply sub_set hμ); exact rfl)
    | intro _
    | with_reducible apply Within.ite
    | with_reducible apply within_put
    | with_reducible apply Within.foldl
    | (extract_lets +onlyGivenNames a; first | (refine Within.cutAny (μ := μ) (σ := σ) (a := a) ?_ ?_; all_goals (first | (intro ha; clear_value a) | (unfold a; clear a))) | skip)
    | split
    | (with_reducible apply Within.upd)

theorem within_lapse {μ : Nat} {σ x : State}   (hμ : Nat.land 1313669347260208262295849448536612506704021145690589000449422928825038597945648060986087528201692706646535279589524969048240445398759166370747924011342984275576832 μ = 1313669347260208262295849448536612506704021145690589000449422928825038597945648060986087528201692706646535279589524969048240445398759166370747924011342984275576832) (hw : Within μ σ x) :
    Within μ σ (lapse x) := by
  unfold lapse
  repeat' first
    | with_reducible assumption
    | with_reducible apply Within.refl
    | with_reducible apply Eq.refl
    | ((with_reducible apply fun k => sub_trans k hμ); exact rfl)
    | ((with_reducible apply sub_set hμ); exact rfl)
    | intro _
    | with_reducible apply Within.ite
    | with_reducible apply within_disableAll
    | with_reducible apply within_setRole
    | with_reducible apply within_twinEvent
    | with_reducible apply within_bump
    | with_reducible apply within_leaseGone
    | with_reducible apply Within.foldl
    | (extract_lets +onlyGivenNames a; first | (refine Within.cutAny (μ := μ) (σ := σ) (a := a) ?_ ?_; all_goals (first | (intro ha; clear_value a) | (unfold a; clear a))) | skip)
    | split

theorem within_cancelAll {μ : Nat} {σ x : State}   (hμ : Nat.land 1130900759831964030162617728477469522393901660589720507751410690110699596682644385077624867962882444614224189204360089007284693821333820149620109422069328740632576 μ = 1130900759831964030162617728477469522393901660589720507751410690110699596682644385077624867962882444614224189204360089007284693821333820149620109422069328740632576) (hw : Within μ σ x) :
    Within μ σ (cancelAll x) := by
  unfold cancelAll
  repeat' first
    | with_reducible assumption
    | with_reducible apply Within.refl
    | with_reducible apply Eq.refl
    | ((with_reducible apply fun k => sub_trans k hμ); exact rfl)
    | ((with_reducible apply sub_set hμ); exact rfl)
    | ((with_reducible apply Or.inl); with_reducible apply Eq.refl)
    | ((with_reducible apply Or.inr); (with_reducible apply sub_set hμ); exact rfl)
    | (intro hs; have q := fits_filter ‹_ ∈ List.filter _ _› ‹_› hs; exact q)
    | (intro hs; have q := fits_at ‹taskAt _ _ = some _› ‹_› hs; exact q)
    | (intro hs; have q := fits_on ‹taskOn _ _ = some _› ‹_› hs; exact q)
    | (intro hs; have q := fits_all ‹_ ∈ allTasks _› ‹_› hs; exact q)
    | (intro hs; have q := fits_all (List.mem_of_find?_eq_some ‹List.find? _ _ = some _›) ‹_› hs; exact q)
    | intro _
    | with_reducible apply Within.ite
    | with_reducible apply within_cancelTask
    | with_reducible apply Within.forEachMem
    | with_reducible apply Within.foldl
    | (extract_lets +onlyGivenNames a; first | (refine Within.cutAny (μ := μ) (σ := σ) (a := a) ?_ ?_; all_goals (first | (intro ha; clear_value a) | (unfold a; clear a))) | skip)
    | split
    | (with_reducible apply Within.upd)

theorem within_cutOutputs {μ : Nat} {σ x : State}   (hμ : Nat.land 56236422431789954785131731346074773235871213978773957913759444657647969758393598378988008576298635714374011382919011189040103325693678746112606439760814548189184 μ = 56236422431789954785131731346074773235871213978773957913759444657647969758393598378988008576298635714374011382919011189040103325693678746112606439760814548189184) (hw : Within μ σ x) :
    Within μ σ (cutOutputs x) := by
  unfold cutOutputs
  repeat' first
    | with_reducible assumption
    | with_reducible apply Within.refl
    | with_reducible apply Eq.refl
    | ((with_reducible apply fun k => sub_trans k hμ); exact rfl)
    | ((with_reducible apply sub_set hμ); exact rfl)
    | ((with_reducible apply Or.inl); with_reducible apply Eq.refl)
    | ((with_reducible apply Or.inr); (with_reducible apply sub_set hμ); exact rfl)
    | intro _
    | with_reducible apply Within.ite
    | with_reducible apply Within.foldl
    | (extract_lets +onlyGivenNames a; first | (refine Within.cutAny (μ := μ) (σ := σ) (a := a) ?_ ?_; all_goals (first | (intro ha; clear_value a) | (unfold a; clear a))) | skip)
    | split
    | (with_reducible apply Within.upd)

theorem within_arriveSafe {μ : Nat} {σ x : State} (cause : ℕ)  (hμ : Nat.land 1763560726714527900576903299305210692590990857520780663759498486086222356012796855702881201470707341866280690371556222059953640211480350589596350532201854059694080 μ = 1763560726714527900576903299305210692590990857520780663759498486086222356012796855702881201470707341866280690371556222059953640211480350589596350532201854059694080) (hw : Within μ σ x) :
    Within μ σ (arriveSafe cause x) := by
  unfold arriveSafe
  repeat' first
    | with_reducible assumption
    | with_reducible apply Within.refl
    | with_reducible apply Eq.refl
    | ((with_reducible apply fun k => sub_trans k hμ); exact rfl)
    | ((with_reducible apply sub_set hμ); exact rfl)
    | ((with_reducible apply Or.inl); with_reducible apply Eq.refl)
    | ((with_reducible apply Or.inr); (with_reducible apply sub_set hμ); exact rfl)
    | intro _
    | with_reducible apply Within.ite
    | with_reducible apply within_abortTests
    | with_reducible apply within_lapse
    | with_reducible apply within_setRole
    | with_reducible apply within_cancelAll
    | with_reducible apply within_disableAll
    | with_reducible apply within_raise0
    | with_reducible apply within_enterMode
    | with_reducible apply within_put
    | with_reducible apply within_cutOutputs
    | with_reducible apply Within.foldl
    | (extract_lets +onlyGivenNames a; first | (refine Within.cutAny (μ := μ) (σ := σ) (a := a) ?_ ?_; all_goals (first | (intro ha; clear_value a) | (unfold a; clear a))) | skip)
    | split
    | (with_reducible apply Within.upd)

theorem within_enterSafe {μ : Nat} {σ x : State} (cause : ℕ)  (hμ : Nat.land 1763560726714527900576903299305210692590990857520780663759498486086222356012796855702881201470707341866280690371556222059953640211480350589596350532201854059694080 μ = 1763560726714527900576903299305210692590990857520780663759498486086222356012796855702881201470707341866280690371556222059953640211480350589596350532201854059694080) (hw : Within μ σ x) :
    Within μ σ (enterSafe cause x) := by
  unfold enterSafe
  repeat' first
    | with_reducible assumption
    | with_reducible apply Within.refl
    | with_reducible apply Eq.refl
    | ((with_reducible apply fun k => sub_trans k hμ); exact rfl)
    | ((with_reducible apply sub_set hμ); exact rfl)
    | ((with_reducible apply Or.inl); with_reducible apply Eq.refl)
    | ((with_reducible apply Or.inr); (with_reducible apply sub_set hμ); exact rfl)
    | intro _
    | with_reducible apply Within.ite
    | with_reducible apply within_endTrans
    | with_reducible apply within_put
    | with_reducible apply within_arriveSafe
    | with_reducible apply Within.foldl
    | (extract_lets +onlyGivenNames a; first | (refine Within.cutAny (μ := μ) (σ := σ) (a := a) ?_ ?_; all_goals (first | (intro ha; clear_value a) | (unfold a; clear a))) | skip)
    | split
    | (with_reducible apply Within.upd)

theorem within_reqSafe {μ : Nat} {σ x : State}   (hμ : Nat.land 1763560726714527900576903299305210692590990857520780663759498486086222356012796855704733874898504400993057826131695228585605959966130599614227671876328464133933056 μ = 1763560726714527900576903299305210692590990857520780663759498486086222356012796855704733874898504400993057826131695228585605959966130599614227671876328464133933056) (hw : Within μ σ x) :
    Within μ σ (reqSafe x) := by
  unfold reqSafe
  repeat' first
    | with_reducible assumption
    | with_reducible apply Within.refl
    | with_reducible apply Eq.refl
    | ((with_reducible apply fun k => sub_trans k hμ); exact rfl)
    | ((with_reducible apply sub_set hμ); exact rfl)
    | intro _
    | with_reducible apply Within.ite
    | with_reducible apply within_modeErr
    | with_reducible apply within_enterSafe
    | with_reducible apply Within.foldl
    | (extract_lets +onlyGivenNames a; first | (refine Within.cutAny (μ := μ) (σ := σ) (a := a) ?_ ?_; all_goals (first | (intro ha; clear_value a) | (unfold a; clear a))) | skip)
    | split

theorem within_reqIdle {μ : Nat} {σ x : State}   (hμ : Nat.land 224945689727159819140526925384299092943484855915095831655037778630591879033574393517804711266685731541041840458410052767649764712392757760319663346382270852235264 μ = 224945689727159819140526925384299092943484855915095831655037778630591879033574393517804711266685731541041840458410052767649764712392757760319663346382270852235264) (hw : Within μ σ x) :
    Within μ σ (reqIdle x) := by
  unfold reqIdle
  repeat' first
    | with_reducible assumption
    | with_reducible apply Within.refl
    | with_reducible apply Eq.refl
    | ((with_reducible apply fun k => sub_trans k hμ); exact rfl)
    | ((with_reducible apply sub_set hμ); exact rfl)
    | intro _
    | with_reducible apply Within.ite
    | with_reducible apply within_beginTrans
    | with_reducible apply within_modeErr
    | with_reducible apply Within.foldl
    | (extract_lets +onlyGivenNames a; first | (refine Within.cutAny (μ := μ) (σ := σ) (a := a) ?_ ?_; all_goals (first | (intro ha; clear_value a) | (unfold a; clear a))) | skip)
    | split

theorem within_paySupplyEvent {μ : Nat} {σ x : State}   (hμ : Nat.land 228475053824174468860241995132626814231313504338782008548642707156545646422738713433749545280449613180573747997770189852298748644855069303950565381338427725727744 μ = 228475053824174468860241995132626814231313504338782008548642707156545646422738713433749545280449613180573747997770189852298748644855069303950565381338427725727744) (hw : Within μ σ x) :
    Within μ σ (paySupplyEvent x) := by
  unfold paySupplyEvent
  repeat' first
    | with_reducible assumption
    | with_reducible apply Within.refl
    | with_reducible apply Eq.refl
    | ((with_reducible apply fun k => sub_trans k hμ); exact rfl)
    | ((with_reducible apply sub_set hμ); exact rfl)
    | ((with_reducible apply Or.inl); with_reducible apply Eq.refl)
    | ((with_reducible apply Or.inr); (with_reducible apply sub_set hμ); exact rfl)
    | intro _
    | with_reducible apply Within.ite
    | with_reducible apply within_raise0
    | with_reducible apply Within.foldl
    | (extract_lets +onlyGivenNames a; first | (refine Within.cutAny (μ := μ) (σ := σ) (a := a) ?_ ?_; all_goals (first | (intro ha; clear_value a) | (unfold a; clear a))) | skip)
    | split
    | (with_reducible apply Within.upd)

/-! ## Selftest -/

theorem within_bootNext {μ : Nat} {σ x : State}   (hμ : Nat.land 224945689727159819140526925384299092943484855915095831655037778630591879033574393515952034305194542857496045531676044756160413302774714984450425759043258192756736 μ = 224945689727159819140526925384299092943484855915095831655037778630591879033574393515952034305194542857496045531676044756160413302774714984450425759043258192756736) (hw : Within μ σ x) :
    Within μ σ (bootNext x) := by
  unfold bootNext
  repeat' first
    | with_reducible assumption
    | with_reducible apply Within.refl
    | with_reducible apply Eq.refl
    | ((with_reducible apply fun k => sub_trans k hμ); exact rfl)
    | ((with_reducible apply sub_set hμ); exact rfl)
    | ((with_reducible apply Or.inl); with_reducible apply Eq.refl)
    | ((with_reducible apply Or.inr); (with_reducible apply sub_set hμ); exact rfl)
    | intro _
    | with_reducible apply Within.ite
    | with_reducible apply Within.foldl
    | (extract_lets +onlyGivenNames a; first | (refine Within.cutAny (μ := μ) (σ := σ) (a := a) ?_ ?_; all_goals (first | (intro ha; clear_value a) | (unfold a; clear a))) | skip)
    | split
    | (with_reducible apply Within.upd)

theorem within_finishSet {μ : Nat} {σ x : State}   (hμ : Nat.land 1763560726714527900576903299305210692590990857520780663759498486086222356012796855702881201470707341866280690371556222059953640211480350589596350532201854059694080 μ = 1763560726714527900576903299305210692590990857520780663759498486086222356012796855702881201470707341866280690371556222059953640211480350589596350532201854059694080) (hw : Within μ σ x) :
    Within μ σ (finishSet x) := by
  unfold finishSet
  extract_lets k v b0 s1 s2 keep
  have h2 : Within μ σ s2 := by
    unfold s2 s1
    repeat' first
    | with_reducible assumption
    | with_reducible apply Within.refl
    | with_reducible apply Eq.refl
    | ((with_reducible apply fun k => sub_trans k hμ); exact rfl)
    | ((with_reducible apply sub_set hμ); exact rfl)
    | ((with_reducible apply Or.inl); with_reducible apply Eq.refl)
    | ((with_reducible apply Or.inr); (with_reducible apply sub_set hμ); exact rfl)
    | intro _
    | with_reducible apply Within.ite
    | with_reducible apply within_put
    | with_reducible apply within_enterSafe
    | with_reducible apply within_bootNext
    | with_reducible apply within_beginTrans
    | with_reducible apply within_raise0
    | with_reducible apply within_setBit
    | with_reducible apply within_enterMode
    | with_reducible apply Within.foldl
    | (extract_lets +onlyGivenNames a; first | (refine Within.cutAny (μ := μ) (σ := σ) (a := a) ?_ ?_; all_goals (first | (intro ha; clear_value a) | (unfold a; clear a))) | skip)
    | split
    | (with_reducible apply Within.upd)
  have hk : ∀ u, Within μ σ u → Within μ σ (keep u) := by
    intro u hu
    unfold keep
    repeat' first
    | with_reducible assumption
    | with_reducible apply Within.refl
    | with_reducible apply Eq.refl
    | ((with_reducible apply fun k => sub_trans k hμ); exact rfl)
    | ((with_reducible apply sub_set hμ); exact rfl)
    | ((with_reducible apply Or.inl); with_reducible apply Eq.refl)
    | ((with_reducible apply Or.inr); (with_reducible apply sub_set hμ); exact rfl)
    | intro _
    | with_reducible apply Within.ite
    | with_reducible apply within_put
    | with_reducible apply within_enterSafe
    | with_reducible apply within_bootNext
    | with_reducible apply within_beginTrans
    | with_reducible apply within_raise0
    | with_reducible apply within_setBit
    | with_reducible apply within_enterMode
    | with_reducible apply Within.foldl
    | (extract_lets +onlyGivenNames a; first | (refine Within.cutAny (μ := μ) (σ := σ) (a := a) ?_ ?_; all_goals (first | (intro ha; clear_value a) | (unfold a; clear a))) | skip)
    | split
    | (with_reducible apply Within.upd)
  clear_value keep s2 v k
  repeat' first
    | with_reducible assumption
    | with_reducible apply Within.refl
    | with_reducible apply Eq.refl
    | ((with_reducible apply fun k => sub_trans k hμ); exact rfl)
    | ((with_reducible apply sub_set hμ); exact rfl)
    | ((with_reducible apply Or.inl); with_reducible apply Eq.refl)
    | ((with_reducible apply Or.inr); (with_reducible apply sub_set hμ); exact rfl)
    | (apply hk)
    | intro _
    | with_reducible apply Within.ite
    | with_reducible apply within_put
    | with_reducible apply within_enterSafe
    | with_reducible apply within_bootNext
    | with_reducible apply within_beginTrans
    | with_reducible apply within_raise0
    | with_reducible apply within_setBit
    | with_reducible apply within_enterMode
    | with_reducible apply Within.foldl
    | (extract_lets +onlyGivenNames a; first | (refine Within.cutAny (μ := μ) (σ := σ) (a := a) ?_ ?_; all_goals (first | (intro ha; clear_value a) | (unfold a; clear a))) | skip)
    | split
    | fail

theorem within_failBlock {μ : Nat} {σ x : State} (b : ℕ)  (hμ : Nat.land 453420743551334288000768920516925907174798360253877840203680485787137525456313114597537489531904231374086211383265172501235109143857757966495499695028072376977408 μ = 453420743551334288000768920516925907174798360253877840203680485787137525456313114597537489531904231374086211383265172501235109143857757966495499695028072376977408) (hw : Within μ σ x) :
    Within μ σ (failBlock b x) := by
  unfold failBlock
  repeat' first
    | with_reducible assumption
    | with_reducible apply Within.refl
    | with_reducible apply Eq.refl
    | ((with_reducible apply fun k => sub_trans k hμ); exact rfl)
    | ((with_reducible apply sub_set hμ); exact rfl)
    | ((with_reducible apply Or.inl); with_reducible apply Eq.refl)
    | ((with_reducible apply Or.inr); (with_reducible apply sub_set hμ); exact rfl)
    | intro _
    | with_reducible apply Within.ite
    | with_reducible apply within_bump
    | with_reducible apply within_put
    | with_reducible apply within_raise0
    | with_reducible apply within_setBit
    | with_reducible apply Within.foldl
    | (extract_lets +onlyGivenNames a; first | (refine Within.cutAny (μ := μ) (σ := σ) (a := a) ?_ ?_; all_goals (first | (intro ha; clear_value a) | (unfold a; clear a))) | skip)
    | split
    | (with_reducible apply Within.upd)

theorem within_cntLoRead {μ : Nat} {σ x : State} (n : ℕ)  (hμ : Nat.land 1942668892225729070919461906823518906642406839052139521251812409738904285205208498176 μ = 1942668892225729070919461906823518906642406839052139521251812409738904285205208498176) (hw : Within μ σ x) :
    Within μ σ (cntLoRead n x).1 := by
  unfold cntLoRead
  repeat' first
    | with_reducible assumption
    | with_reducible apply Within.refl
    | with_reducible apply Eq.refl
    | ((with_reducible apply fun k => sub_trans k hμ); exact rfl)
    | ((with_reducible apply sub_set hμ); exact rfl)
    | intro _
    | with_reducible apply Within.ite
    | with_reducible apply within_put
    | with_reducible apply Within.foldl
    | (extract_lets +onlyGivenNames a; first | (refine Within.cutAny (μ := μ) (σ := σ) (a := a) ?_ ?_; all_goals (first | (intro ha; clear_value a) | (unfold a; clear a))) | skip)
    | split

theorem within_lcDenied {μ : Nat} {σ x : State}   (hμ : Nat.land 3529364097014649719715069748327721287828648423686176893604928525953767389164319977083060664760962379946046790542353917012567490888323107702422634346691908618240 μ = 3529364097014649719715069748327721287828648423686176893604928525953767389164319977083060664760962379946046790542353917012567490888323107702422634346691908618240) (hw : Within μ σ x) :
    Within μ σ (lcDenied x) := by
  unfold lcDenied
  repeat' first
    | with_reducible assumption
    | with_reducible apply Within.refl
    | with_reducible apply Eq.refl
    | ((with_reducible apply fun k => sub_trans k hμ); exact rfl)
    | ((with_reducible apply sub_set hμ); exact rfl)
    | intro _
    | with_reducible apply Within.ite
    | with_reducible apply within_raise0
    | with_reducible apply within_setBit
    | with_reducible apply Within.foldl
    | (extract_lets +onlyGivenNames a; first | (refine Within.cutAny (μ := μ) (σ := σ) (a := a) ?_ ?_; all_goals (first | (intro ha; clear_value a) | (unfold a; clear a))) | skip)
    | split

theorem within_reqTest {μ : Nat} {σ x : State}   (hμ : Nat.land 228475053824174468860241995132626814231313504338782008548642707156545646422738713494887771931446693920987887248952406684662332203281080868022085980728962760853504 μ = 228475053824174468860241995132626814231313504338782008548642707156545646422738713494887771931446693920987887248952406684662332203281080868022085980728962760853504) (hw : Within μ σ x) :
    Within μ σ (reqTest x) := by
  unfold reqTest
  repeat' first
    | with_reducible assumption
    | with_reducible apply Within.refl
    | with_reducible apply Eq.refl
    | ((with_reducible apply fun k => sub_trans k hμ); exact rfl)
    | ((with_reducible apply sub_set hμ); exact rfl)
    | intro _
    | with_reducible apply Within.ite
    | with_reducible apply within_modeErr
    | with_reducible apply within_lcDenied
    | with_reducible apply within_beginTrans
    | with_reducible apply Within.foldl
    | (extract_lets +onlyGivenNames a; first | (refine Within.cutAny (μ := μ) (σ := σ) (a := a) ?_ ?_; all_goals (first | (intro ha; clear_value a) | (unfold a; clear a))) | skip)
    | split

theorem within_nextBlock {μ : Nat} {σ x : State}   (hμ : Nat.land 1763560726714527900576903299305210692590990857520780663759498486086222356012796855702881201470707341866280690371556222059953640211480350589596350532201854059694080 μ = 1763560726714527900576903299305210692590990857520780663759498486086222356012796855702881201470707341866280690371556222059953640211480350589596350532201854059694080) (hw : Within μ σ x) :
    Within μ σ (nextBlock x) := by
  unfold nextBlock
  repeat' first
    | with_reducible assumption
    | with_reducible apply Within.refl
    | with_reducible apply Eq.refl
    | ((with_reducible apply fun k => sub_trans k hμ); exact rfl)
    | ((with_reducible apply sub_set hμ); exact rfl)
    | intro _
    | with_reducible apply Within.ite
    | with_reducible apply within_finishSet
    | with_reducible apply within_startBlock
    | with_reducible apply Within.foldl
    | (extract_lets +onlyGivenNames a; first | (refine Within.cutAny (μ := μ) (σ := σ) (a := a) ?_ ?_; all_goals (first | (intro ha; clear_value a) | (unfold a; clear a))) | skip)
    | split

theorem within_tagCtrlWrite {μ : Nat} {σ x : State} (pf : Bool) (v : W32)  (hμ : Nat.land 659020575372538532638262476711813748857865788813757319301868492081812146103498217413552367658881885424641285994038313168911428288436774699166603728480421019648 μ = 659020575372538532638262476711813748857865788813757319301868492081812146103498217413552367658881885424641285994038313168911428288436774699166603728480421019648) (hw : Within μ σ x) :
    Within μ σ (tagCtrlWrite pf v x) := by
  unfold tagCtrlWrite
  repeat' first
    | with_reducible assumption
    | with_reducible apply Within.refl
    | with_reducible apply Eq.refl
    | ((with_reducible apply fun k => sub_trans k hμ); exact rfl)
    | ((with_reducible apply sub_set hμ); exact rfl)
    | ((with_reducible apply Or.inl); with_reducible apply Eq.refl)
    | ((with_reducible apply Or.inr); (with_reducible apply sub_set hμ); exact rfl)
    | intro _
    | with_reducible apply Within.ite
    | with_reducible apply within_plainWrite
    | with_reducible apply Within.foldl
    | (extract_lets +onlyGivenNames a; first | (refine Within.cutAny (μ := μ) (σ := σ) (a := a) ?_ ?_; all_goals (first | (intro ha; clear_value a) | (unfold a; clear a))) | skip)
    | split
    | (with_reducible apply Within.upd)

theorem within_tagWrite {μ : Nat} {σ x : State} (ws : List W32)  (hμ : Nat.land 1128264677530473876032064678570622267398470197434465478474203216142372348140005544066392736433299025916858574628822252421586256373179047109848840752542421654456320 μ = 1128264677530473876032064678570622267398470197434465478474203216142372348140005544066392736433299025916858574628822252421586256373179047109848840752542421654456320) (hw : Within μ σ x) :
    Within μ σ (tagWrite ws x) := by
  unfold tagWrite
  repeat' first
    | with_reducible assumption
    | with_reducible apply Within.refl
    | with_reducible apply Eq.refl
    | ((with_reducible apply fun k => sub_trans k hμ); exact rfl)
    | ((with_reducible apply sub_set hμ); exact rfl)
    | intro _
    | with_reducible apply Within.ite
    | with_reducible apply within_raise0
    | with_reducible apply within_setBit
    | with_reducible apply within_bump
    | with_reducible apply within_fmemPut
    | with_reducible apply within_put
    | with_reducible apply Within.foldl
    | (extract_lets +onlyGivenNames a; first | (refine Within.cutAny (μ := μ) (σ := σ) (a := a) ?_ ?_; all_goals (first | (intro ha; clear_value a) | (unfold a; clear a))) | skip)
    | split

theorem within_otpFault {μ : Nat} {σ x : State}   (hμ : Nat.land 3529364097014649719715069748327721287828648423686176893604928525953767389164320866366306007349343232971211657265486230126049723007854930736667815119527543326720 μ = 3529364097014649719715069748327721287828648423686176893604928525953767389164320866366306007349343232971211657265486230126049723007854930736667815119527543326720) (hw : Within μ σ x) :
    Within μ σ (otpFault x) := by
  unfold otpFault
  repeat' first
    | with_reducible assumption
    | with_reducible apply Within.refl
    | with_reducible apply Eq.refl
    | ((with_reducible apply fun k => sub_trans k hμ); exact rfl)
    | ((with_reducible apply sub_set hμ); exact rfl)
    | intro _
    | with_reducible apply Within.ite
    | with_reducible apply within_raise0
    | with_reducible apply within_put
    | with_reducible apply within_bump
    | with_reducible apply Within.foldl
    | (extract_lets +onlyGivenNames a; first | (refine Within.cutAny (μ := μ) (σ := σ) (a := a) ?_ ?_; all_goals (first | (intro ha; clear_value a) | (unfold a; clear a))) | skip)
    | split

theorem within_loadTrim {μ : Nat} {σ x : State} (i : ℕ)  (hμ : Nat.land 3529364097014649719715069748327721287828648423686176893604928525953767389164442283172070115416275699340388127197151380553490481727933169012276496637352868857856 μ = 3529364097014649719715069748327721287828648423686176893604928525953767389164442283172070115416275699340388127197151380553490481727933169012276496637352868857856) (hw : Within μ σ x) :
    Within μ σ (loadTrim i x) := by
  unfold loadTrim
  repeat' first
    | with_reducible assumption
    | with_reducible apply Within.refl
    | with_reducible apply Eq.refl
    | ((with_reducible apply fun k => sub_trans k hμ); exact rfl)
    | ((with_reducible apply sub_set hμ); exact rfl)
    | intro _
    | with_reducible apply Within.ite
    | with_reducible apply within_put
    | with_reducible apply within_otpFault
    | with_reducible apply Within.foldl
    | (extract_lets +onlyGivenNames a; first | (refine Within.cutAny (μ := μ) (σ := σ) (a := a) ?_ ?_; all_goals (first | (intro ha; clear_value a) | (unfold a; clear a))) | skip)
    | split

theorem within_loadTrims {μ : Nat} {σ x : State}   (hμ : Nat.land 3529364097014649719715069748327721287828648423686176893604928525953767389164442283172070115416275699340388127197151380553490481727933169012276496637352868857856 μ = 3529364097014649719715069748327721287828648423686176893604928525953767389164442283172070115416275699340388127197151380553490481727933169012276496637352868857856) (hw : Within μ σ x) :
    Within μ σ (loadTrims x) := by
  unfold loadTrims
  repeat' first
    | with_reducible assumption
    | with_reducible apply Within.refl
    | with_reducible apply Eq.refl
    | ((with_reducible apply fun k => sub_trans k hμ); exact rfl)
    | ((with_reducible apply sub_set hμ); exact rfl)
    | intro _
    | with_reducible apply Within.ite
    | with_reducible apply within_loadTrim
    | with_reducible apply Within.forEach
    | with_reducible apply Within.foldl
    | (extract_lets +onlyGivenNames a; first | (refine Within.cutAny (μ := μ) (σ := σ) (a := a) ?_ ?_; all_goals (first | (intro ha; clear_value a) | (unfold a; clear a))) | skip)
    | split

theorem within_lcRequest {μ : Nat} {σ x : State} (v : W32)  (hμ : Nat.land 3639200859576739475154780161113023579304959388488469780155239941300736080098682473917021619011545652825683531524617610741161442696318574003423818799349749532672 μ = 3639200859576739475154780161113023579304959388488469780155239941300736080098682473917021619011545652825683531524617610741161442696318574003423818799349749532672) (hw : Within μ σ x) :
    Within μ σ (lcRequest v x) := by
  unfold lcRequest
  repeat' first
    | with_reducible assumption
    | with_reducible apply Within.refl
    | with_reducible apply Eq.refl
    | ((with_reducible apply fun k => sub_trans k hμ); exact rfl)
    | ((with_reducible apply sub_set hμ); exact rfl)
    | ((with_reducible apply Or.inl); with_reducible apply Eq.refl)
    | ((with_reducible apply Or.inr); (with_reducible apply sub_set hμ); exact rfl)
    | intro _
    | with_reducible apply Within.ite
    | with_reducible apply within_lcDenied
    | with_reducible apply within_raise0
    | with_reducible apply Within.foldl
    | (extract_lets +onlyGivenNames a; first | (refine Within.cutAny (μ := μ) (σ := σ) (a := a) ?_ ?_; all_goals (first | (intro ha; clear_value a) | (unfold a; clear a))) | skip)
    | split
    | (with_reducible apply Within.upd)

theorem within_blockResult {μ : Nat} {σ x : State} (b : ℕ) (ranToEnd : Bool) (pass : Bool)  (hμ : Nat.land 453420743551334288000768920516925907174798360253877840203680485787137525456313114597537489531904231374086211383265172501235109143857757966495499695028072376977408 μ = 453420743551334288000768920516925907174798360253877840203680485787137525456313114597537489531904231374086211383265172501235109143857757966495499695028072376977408) (hw : Within μ σ x) :
    Within μ σ (blockResult b ranToEnd pass x) := by
  unfold blockResult
  repeat' first
    | with_reducible assumption
    | with_reducible apply Within.refl
    | with_reducible apply Eq.refl
    | ((with_reducible apply fun k => sub_trans k hμ); exact rfl)
    | ((with_reducible apply sub_set hμ); exact rfl)
    | intro _
    | with_reducible apply Within.ite
    | with_reducible apply within_abortBlock
    | with_reducible apply within_put
    | with_reducible apply within_failBlock
    | with_reducible apply Within.foldl
    | (extract_lets +onlyGivenNames a; first | (refine Within.cutAny (μ := μ) (σ := σ) (a := a) ?_ ?_; all_goals (first | (intro ha; clear_value a) | (unfold a; clear a))) | skip)
    | split

theorem within_startSet {μ : Nat} {σ x : State} (kind : ℕ) (bs : List ℕ)  (hμ : Nat.land 1763560726714527900576903299305210692590990857520780663759498486086222356012796855702881201470707341866280690371556222059953640211480350589596350532201854059694080 μ = 1763560726714527900576903299305210692590990857520780663759498486086222356012796855702881201470707341866280690371556222059953640211480350589596350532201854059694080) (hw : Within μ σ x) :
    Within μ σ (startSet kind bs x) := by
  unfold startSet
  repeat' first
    | with_reducible assumption
    | with_reducible apply Within.refl
    | with_reducible apply Eq.refl
    | ((with_reducible apply fun k => sub_trans k hμ); exact rfl)
    | ((with_reducible apply sub_set hμ); exact rfl)
    | ((with_reducible apply Or.inl); with_reducible apply Eq.refl)
    | ((with_reducible apply Or.inr); (with_reducible apply sub_set hμ); exact rfl)
    | intro _
    | with_reducible apply Within.ite
    | with_reducible apply within_put
    | with_reducible apply within_nextBlock
    | with_reducible apply Within.forEach
    | with_reducible apply Within.foldl
    | (extract_lets +onlyGivenNames a; first | (refine Within.cutAny (μ := μ) (σ := σ) (a := a) ?_ ?_; all_goals (first | (intro ha; clear_value a) | (unfold a; clear a))) | skip)
    | split
    | (with_reducible apply Within.upd)

theorem within_shutdownSet {μ : Nat} {σ x : State}   (hμ : Nat.land 1763560726714527900576903299305210692590990857520780663759498486086222356012796855702881201470707341866280690371556222059953640211480350589596350532201854059694080 μ = 1763560726714527900576903299305210692590990857520780663759498486086222356012796855702881201470707341866280690371556222059953640211480350589596350532201854059694080) (hw : Within μ σ x) :
    Within μ σ (shutdownSet x) := by
  unfold shutdownSet
  repeat' first
    | with_reducible assumption
    | with_reducible apply Within.refl
    | with_reducible apply Eq.refl
    | ((with_reducible apply fun k => sub_trans k hμ); exact rfl)
    | ((with_reducible apply sub_set hμ); exact rfl)
    | intro _
    | with_reducible apply Within.ite
    | with_reducible apply within_put
    | with_reducible apply within_startSet
    | with_reducible apply Within.foldl
    | (extract_lets +onlyGivenNames a; first | (refine Within.cutAny (μ := μ) (σ := σ) (a := a) ?_ ?_; all_goals (first | (intro ha; clear_value a) | (unfold a; clear a))) | skip)
    | split

theorem within_stopTests {μ : Nat} {σ x : State}   (hμ : Nat.land 1763560726714527900576903299305210692590990857520780663759498486086222356012796855702881201470707341866280690371556222059953640211480350589596350532201854059694080 μ = 1763560726714527900576903299305210692590990857520780663759498486086222356012796855702881201470707341866280690371556222059953640211480350589596350532201854059694080) (hw : Within μ σ x) :
    Within μ σ (stopTests x) := by
  unfold stopTests
  repeat' first
    | with_reducible assumption
    | with_reducible apply Within.refl
    | with_reducible apply Eq.refl
    | ((with_reducible apply fun k => sub_trans k hμ); exact rfl)
    | ((with_reducible apply sub_set hμ); exact rfl)
    | ((with_reducible apply Or.inl); with_reducible apply Eq.refl)
    | ((with_reducible apply Or.inr); (with_reducible apply sub_set hμ); exact rfl)
    | intro _
    | with_reducible apply Within.ite
    | with_reducible apply within_finishSet
    | with_reducible apply within_abortBlock
    | with_reducible apply Within.foldl
    | (extract_lets +onlyGivenNames a; first | (refine Within.cutAny (μ := μ) (σ := σ) (a := a) ?_ ?_; all_goals (first | (intro ha; clear_value a) | (unfold a; clear a))) | skip)
    | split
    | (with_reducible apply Within.upd)

theorem within_bistCmdWrite {μ : Nat} {σ x : State} (pf : Bool) (v : W32)  (hμ : Nat.land 1763560726714527900576903299305210692590990857520780663759498486086222356012796855702881201470707341866280690371556222059953640211480350589596350532201854059694080 μ = 1763560726714527900576903299305210692590990857520780663759498486086222356012796855702881201470707341866280690371556222059953640211480350589596350532201854059694080) (hw : Within μ σ x) :
    Within μ σ (bistCmdWrite pf v x) := by
  unfold bistCmdWrite
  repeat' first
    | with_reducible assumption
    | with_reducible apply Within.refl
    | with_reducible apply Eq.refl
    | ((with_reducible apply fun k => sub_trans k hμ); exact rfl)
    | ((with_reducible apply sub_set hμ); exact rfl)
    | intro _
    | with_reducible apply Within.ite
    | with_reducible apply within_plainWrite
    | with_reducible apply within_shutdownSet
    | with_reducible apply within_stopTests
    | with_reducible apply Within.foldl
    | (extract_lets +onlyGivenNames a; first | (refine Within.cutAny (μ := μ) (σ := σ) (a := a) ?_ ?_; all_goals (first | (intro ha; clear_value a) | (unfold a; clear a))) | skip)
    | split

theorem within_bwClose {μ : Nat} {σ x : State} (p : ℕ) (fin : W64)  (hμ : Nat.land 59765786528804604504846801094402494523699862402460134807364373183601740075797134277609268562444383125932820360498972179961798957225929012535864471852499219793920 μ = 59765786528804604504846801094402494523699862402460134807364373183601740075797134277609268562444383125932820360498972179961798957225929012535864471852499219793920) (hw : Within μ σ x) :
    Within μ σ (bwClose p fin x) := by
  unfold bwClose
  repeat' first
    | with_reducible assumption
    | with_reducible apply Within.refl
    | with_reducible apply Eq.refl
    | ((with_reducible apply fun k => sub_trans k hμ); exact rfl)
    | ((with_reducible apply sub_set hμ); exact rfl)
    | intro _
    | with_reducible apply Within.ite
    | with_reducible apply within_wr
    | with_reducible apply within_setPort
    | with_reducible apply within_raise
    | with_reducible apply Within.forEach
    | with_reducible apply Within.foldl
    | (extract_lets +onlyGivenNames a; first | (refine Within.cutAny (μ := μ) (σ := σ) (a := a) ?_ ?_; all_goals (first | (intro ha; clear_value a) | (unfold a; clear a))) | skip)
    | split

theorem within_otpProgram {μ : Nat} {σ x : State}   (hμ : Nat.land 3639200859576739475154780161113023579304959388488469780155239941300736080098683363200266961599926505850848398247749923854643674815850397037668999572185384241152 μ = 3639200859576739475154780161113023579304959388488469780155239941300736080098683363200266961599926505850848398247749923854643674815850397037668999572185384241152) (hw : Within μ σ x) :
    Within μ σ (otpProgram x) := by
  unfold otpProgram
  repeat' first
    | with_reducible assumption
    | with_reducible apply Within.refl
    | with_reducible apply Eq.refl
    | ((with_reducible apply fun k => sub_trans k hμ); exact rfl)
    | ((with_reducible apply sub_set hμ); exact rfl)
    | ((with_reducible apply Or.inl); with_reducible apply Eq.refl)
    | ((with_reducible apply Or.inr); (with_reducible apply sub_set hμ); exact rfl)
    | intro _
    | with_reducible apply Within.ite
    | with_reducible apply within_put
    | with_reducible apply within_otpFault
    | with_reducible apply Within.foldl
    | (extract_lets +onlyGivenNames a; first | (refine Within.cutAny (μ := μ) (σ := σ) (a := a) ?_ ?_; all_goals (first | (intro ha; clear_value a) | (unfold a; clear a))) | skip)
    | split
    | (with_reducible apply Within.upd)

theorem within_bwCtrlWrite {μ : Nat} {σ x : State} (pf : Bool) (p : ℕ) (v : W32)  (hμ : Nat.land 56236422431789954785131731346074773235871213978773957913759444657647969822050972639440698772187563477167078915777398491100611158073067788437022057365086616420352 μ = 56236422431789954785131731346074773235871213978773957913759444657647969822050972639440698772187563477167078915777398491100611158073067788437022057365086616420352) (hw : Within μ σ x) :
    Within μ σ (bwCtrlWrite pf p v x) := by
  unfold bwCtrlWrite
  repeat' first
    | with_reducible assumption
    | with_reducible apply Within.refl
    | with_reducible apply Eq.refl
    | ((with_reducible apply fun k => sub_trans k hμ); exact rfl)
    | ((with_reducible apply sub_set hμ); exact rfl)
    | intro _
    | with_reducible apply Within.ite
    | with_reducible apply within_plainWrite
    | with_reducible apply within_setPort
    | with_reducible apply Within.foldl
    | (extract_lets +onlyGivenNames a; first | (refine Within.cutAny (μ := μ) (σ := σ) (a := a) ?_ ?_; all_goals (first | (intro ha; clear_value a) | (unfold a; clear a))) | skip)
    | split

theorem within_reqSleep {μ : Nat} {σ x : State}   (hμ : Nat.land 1763560726714527900576903299305210692590990857520780663759498486086222356012796855704733874898504400993057826131695228585605959966130599614227671876328464133933056 μ = 1763560726714527900576903299305210692590990857520780663759498486086222356012796855704733874898504400993057826131695228585605959966130599614227671876328464133933056) (hw : Within μ σ x) :
    Within μ σ (reqSleep x) := by
  unfold reqSleep
  repeat' first
    | with_reducible assumption
    | with_reducible apply Within.refl
    | with_reducible apply Eq.refl
    | ((with_reducible apply fun k => sub_trans k hμ); exact rfl)
    | ((with_reducible apply sub_set hμ); exact rfl)
    | intro _
    | with_reducible apply Within.ite
    | with_reducible apply within_modeErr
    | with_reducible apply within_beginTrans
    | with_reducible apply within_startSet
    | with_reducible apply Within.foldl
    | (extract_lets +onlyGivenNames a; first | (refine Within.cutAny (μ := μ) (σ := σ) (a := a) ?_ ?_; all_goals (first | (intro ha; clear_value a) | (unfold a; clear a))) | skip)
    | split

theorem within_calStore {μ : Nat} {σ x : State} (pf : Bool) (r : RegId) (i : ℕ) (v : W32) (hr : μ.testBit r.num = true) (hμ : Nat.land 3529793146868407882822256117127663874904727763392435850193015679919966485613373333905091716282811013764270899562355926512543231244662980497084419310306721810432 μ = 3529793146868407882822256117127663874904727763392435850193015679919966485613373333905091716282811013764270899562355926512543231244662980497084419310306721810432) (hw : Within μ σ x) :
    Within μ σ (calStore pf r i v x) := by
  unfold calStore
  repeat' first
    | with_reducible assumption
    | with_reducible apply Within.refl
    | with_reducible apply Eq.refl
    | ((with_reducible apply fun k => sub_trans k hμ); exact rfl)
    | ((with_reducible apply sub_set hμ); exact rfl)
    | ((with_reducible apply Or.inl); with_reducible apply Eq.refl)
    | ((with_reducible apply Or.inr); (with_reducible apply sub_set hμ); exact rfl)
    | exact hr
    | intro _
    | with_reducible apply Within.ite
    | with_reducible apply within_plainWrite
    | with_reducible apply within_put
    | with_reducible apply within_calEffect
    | with_reducible apply Within.foldl
    | (extract_lets +onlyGivenNames a; first | (refine Within.cutAny (μ := μ) (σ := σ) (a := a) ?_ ?_; all_goals (first | (intro ha; clear_value a) | (unfold a; clear a))) | skip)
    | split
    | (with_reducible apply Within.upd)

theorem within_snapCounters {μ : Nat} {σ x : State}   (hμ : Nat.land 1716199415032652428745475199770348304317358825035826352348615864796386168841841320370621526702049748859954153189983312520068577347911830822766266472810414080 μ = 1716199415032652428745475199770348304317358825035826352348615864796386168841841320370621526702049748859954153189983312520068577347911830822766266472810414080) (hw : Within μ σ x) :
    Within μ σ (snapCounters x) := by
  unfold snapCounters
  repeat' first
    | with_reducible assumption
    | with_reducible apply Within.refl
    | with_reducible apply Eq.refl
    | ((with_reducible apply fun k => sub_trans k hμ); exact rfl)
    | ((with_reducible apply sub_set hμ); exact rfl)
    | ((with_reducible apply Or.inl); with_reducible apply Eq.refl)
    | ((with_reducible apply Or.inr); (with_reducible apply sub_set hμ); exact rfl)
    | intro _
    | with_reducible apply Within.ite
    | with_reducible apply within_wr
    | with_reducible apply Within.foldl
    | (extract_lets +onlyGivenNames a; first | (refine Within.cutAny (μ := μ) (σ := σ) (a := a) ?_ ?_; all_goals (first | (intro ha; clear_value a) | (unfold a; clear a))) | skip)
    | split
    | (with_reducible apply Within.upd)

theorem within_startTime {μ : Nat} {σ x : State}   (hμ : Nat.land 82377571921567316579782809588976718607233223601719664912733561510226518200771872625470715687937454659727555736697770296445463855996599725750888339493380685824 μ = 82377571921567316579782809588976718607233223601719664912733561510226518200771872625470715687937454659727555736697770296445463855996599725750888339493380685824) (hw : Within μ σ x) :
    Within μ σ (startTime x) := by
  unfold startTime
  repeat' first
    | with_reducible assumption
    | with_reducible apply Within.refl
    | with_reducible apply Eq.refl
    | ((with_reducible apply fun k => sub_trans k hμ); exact rfl)
    | ((with_reducible apply sub_set hμ); exact rfl)
    | ((with_reducible apply Or.inl); with_reducible apply Eq.refl)
    | ((with_reducible apply Or.inr); (with_reducible apply sub_set hμ); exact rfl)
    | intro _
    | with_reducible apply Within.ite
    | with_reducible apply Within.foldl
    | (extract_lets +onlyGivenNames a; first | (refine Within.cutAny (μ := μ) (σ := σ) (a := a) ?_ ?_; all_goals (first | (intro ha; clear_value a) | (unfold a; clear a))) | skip)
    | split
    | (with_reducible apply Within.upd)

theorem within_removeCluster {μ : Nat} {σ x : State} (b : ℕ)  (hμ : Nat.land 449891379454319638281053850768598185886969711830191663310075557261183758067148787031904068610389085714992091063352089512320826605549429968900851518086516385513472 μ = 449891379454319638281053850768598185886969711830191663310075557261183758067148787031904068610389085714992091063352089512320826605549429968900851518086516385513472) (hw : Within μ σ x) :
    Within μ σ (removeCluster b x) := by
  unfold removeCluster
  repeat' first
    | with_reducible assumption
    | with_reducible apply Within.refl
    | with_reducible apply Eq.refl
    | ((with_reducible apply fun k => sub_trans k hμ); exact rfl)
    | ((with_reducible apply sub_set hμ); exact rfl)
    | ((with_reducible apply Or.inl); with_reducible apply Eq.refl)
    | ((with_reducible apply Or.inr); (with_reducible apply sub_set hμ); exact rfl)
    | intro _
    | with_reducible apply Within.ite
    | with_reducible apply Within.foldl
    | (extract_lets +onlyGivenNames a; first | (refine Within.cutAny (μ := μ) (σ := σ) (a := a) ?_ ?_; all_goals (first | (intro ha; clear_value a) | (unfold a; clear a))) | skip)
    | split
    | (with_reducible apply Within.upd)

theorem within_pwrCmdWrite {μ : Nat} {σ x : State} (v : W32)  (hμ : Nat.land 1799565356923583393813050208186092765077725317568376806131581696361997772792578029948607313409326793957228385620014657121410716533645505472446159141916875337760767 μ = 1799565356923583393813050208186092765077725317568376806131581696361997772792578029948607313409326793957228385620014657121410716533645505472446159141916875337760767) (hw : Within μ σ x) :
    Within μ σ (pwrCmdWrite v x) := by
  unfold pwrCmdWrite
  repeat' first
    | with_reducible assumption
    | with_reducible apply Within.refl
    | with_reducible apply Eq.refl
    | ((with_reducible apply fun k => sub_trans k hμ); exact rfl)
    | ((with_reducible apply sub_set hμ); exact rfl)
    | intro _
    | with_reducible apply Within.ite
    | with_reducible apply within_softReset
    | with_reducible apply within_reqSleep
    | with_reducible apply within_reqTest
    | with_reducible apply within_reqIdle
    | with_reducible apply within_reqShow
    | with_reducible apply within_reqSafe
    | with_reducible apply within_modeErr
    | with_reducible apply Within.foldl
    | (extract_lets +onlyGivenNames a; first | (refine Within.cutAny (μ := μ) (σ := σ) (a := a) ?_ ?_; all_goals (first | (intro ha; clear_value a) | (unfold a; clear a))) | skip)
    | split

/-! ## Render -/

theorem within_stirCanvas {μ : Nat} {σ x : State} (c : ℕ)  (hμ : Nat.land 231111136125664622990795045039474069226744967494037037825850181124872895005163413357764611716157741286453688947939519987622035143214754246488067918806304583337984 μ = 231111136125664622990795045039474069226744967494037037825850181124872895005163413357764611716157741286453688947939519987622035143214754246488067918806304583337984) (hw : Within μ σ x) :
    Within μ σ (stirCanvas c x) := by
  unfold stirCanvas
  repeat' first
    | with_reducible assumption
    | with_reducible apply Within.refl
    | with_reducible apply Eq.refl
    | ((with_reducible apply fun k => sub_trans k hμ); exact rfl)
    | ((with_reducible apply sub_set hμ); exact rfl)
    | intro _
    | with_reducible apply Within.ite
    | with_reducible apply within_endRest
    | with_reducible apply within_setCanvas
    | with_reducible apply Within.foldl
    | (extract_lets +onlyGivenNames a; first | (refine Within.cutAny (μ := μ) (σ := σ) (a := a) ?_ ?_; all_goals (first | (intro ha; clear_value a) | (unfold a; clear a))) | skip)
    | split

theorem within_tmplWrite {μ : Nat} {σ x : State} (pf : Bool) (r : RegId) (n : ℕ) (j : ℕ) (v : W32) (hr : μ.testBit r.num = true) (hμ : Nat.land 231111136125664622990795045039474069226744967494037037825850181124872960190314656061319368772725640829786183428333115811745023844741339835376186234976813772177407 μ = 231111136125664622990795045039474069226744967494037037825850181124872960190314656061319368772725640829786183428333115811745023844741339835376186234976813772177407) (hw : Within μ σ x) :
    Within μ σ (tmplWrite pf r n j v x) := by
  unfold tmplWrite
  repeat' first
    | with_reducible assumption
    | with_reducible apply Within.refl
    | with_reducible apply Eq.refl
    | ((with_reducible apply fun k => sub_trans k hμ); exact rfl)
    | ((with_reducible apply sub_set hμ); exact rfl)
    | exact hr
    | intro _
    | with_reducible apply Within.ite
    | with_reducible apply within_plainWrite
    | with_reducible apply within_put
    | with_reducible apply within_tmplErr
    | with_reducible apply within_stirCanvas
    | with_reducible apply Within.forEach
    | with_reducible apply Within.foldl
    | (extract_lets +onlyGivenNames a; first | (refine Within.cutAny (μ := μ) (σ := σ) (a := a) ?_ ?_; all_goals (first | (intro ha; clear_value a) | (unfold a; clear a))) | skip)
    | split

theorem within_schedWrite {μ : Nat} {σ x : State} (pf : Bool) (v : W32)  (hμ : Nat.land 134217728 μ = 134217728) (hw : Within μ σ x) :
    Within μ σ (schedWrite pf v x) := by
  unfold schedWrite
  repeat' first
    | with_reducible assumption
    | with_reducible apply Within.refl
    | with_reducible apply Eq.refl
    | ((with_reducible apply fun k => sub_trans k hμ); exact rfl)
    | ((with_reducible apply sub_set hμ); exact rfl)
    | intro _
    | with_reducible apply Within.ite
    | with_reducible apply within_plainWrite
    | with_reducible apply within_put
    | with_reducible apply Within.foldl
    | (extract_lets +onlyGivenNames a; first | (refine Within.cutAny (μ := μ) (σ := σ) (a := a) ?_ ?_; all_goals (first | (intro ha; clear_value a) | (unfold a; clear a))) | skip)
    | split

theorem within_progWrite {μ : Nat} {σ x : State} (pf : Bool) (r : Sys2Proof.Machine.RegId) (n : ℕ) (v : Sys2Proof.W32)  (hr : μ.testBit r.num = true) (hμ : Nat.land 65185151242703554760590262029100101153646988597309960020356494379340201592426774597868716031 μ = 65185151242703554760590262029100101153646988597309960020356494379340201592426774597868716031) (hw : Within μ σ x) :
    Within μ σ (progWrite pf r n v x) := by
  unfold progWrite
  repeat' first
    | with_reducible assumption
    | with_reducible apply Within.refl
    | with_reducible apply Eq.refl
    | ((with_reducible apply fun k => sub_trans k hμ); exact rfl)
    | ((with_reducible apply sub_set hμ); exact rfl)
    | exact hr
    | intro _
    | with_reducible apply Within.ite
    | with_reducible apply within_put
    | with_reducible apply within_plainWrite
    | with_reducible apply Within.foldl
    | (extract_lets +onlyGivenNames a; first | (refine Within.cutAny (μ := μ) (σ := σ) (a := a) ?_ ?_; all_goals (first | (intro ha; clear_value a) | (unfold a; clear a))) | skip)
    | split

theorem within_renderEffect {μ : Nat} {σ x : State} (fn : ℕ) (r : RegId) (i : ℕ) (j : ℕ) (v : W32) (hr : μ.testBit r.num = true) (hμ : Nat.land 1348820570494522909226608470726358777084741544103704436983014034414921124444915061651629805499859384839063824028888997771953048493455095104368217122071121699536895 μ = 1348820570494522909226608470726358777084741544103704436983014034414921124444915061651629805499859384839063824028888997771953048493455095104368217122071121699536895) (hw : Within μ σ x) :
    Within μ σ (renderEffect fn r i j v x) := by
  unfold renderEffect
  repeat' first
    | with_reducible assumption
    | with_reducible apply Within.refl
    | with_reducible apply Eq.refl
    | ((with_reducible apply fun k => sub_trans k hμ); exact rfl)
    | ((with_reducible apply sub_set hμ); exact rfl)
    | exact hr
    | intro _
    | with_reducible apply Within.ite
    | with_reducible apply within_schedWrite
    | with_reducible apply within_cancelWrite
    | with_reducible apply within_kickSched
    | with_reducible apply within_ctxWrite
    | with_reducible apply within_wakeSpawners
    | with_reducible apply within_refreshCtx
    | with_reducible apply within_plainWrite
    | with_reducible apply within_tmplWrite
    | with_reducible apply within_fcCtrlEffect
    | with_reducible apply within_fcPhaseEffect
    | with_reducible apply within_canvasCtrlWrite
    | with_reducible apply within_geometryWrite
    | with_reducible apply within_shadowWrite
    | with_reducible apply within_vatCmdWrite
    | with_reducible apply within_mordStore
    | with_reducible apply within_baseWrite
    | with_reducible apply within_faultsToUnproven
    | with_reducible apply within_kickWrite
    | with_reducible apply within_blackoutWrite
    | with_reducible apply within_viewEffect
    | with_reducible apply within_kgWrite
    | with_reducible apply within_univWrite
    | with_reducible apply within_etabWordWrite
    | with_reducible apply within_progWrite
    | with_reducible apply Within.foldl
    | (extract_lets +onlyGivenNames a; first | (refine Within.cutAny (μ := μ) (σ := σ) (a := a) ?_ ?_; all_goals (first | (intro ha; clear_value a) | (unfold a; clear a))) | skip)
    | split

/-! ## Twin -/

theorem map_get_filter {α : Type} (d : Nat → α) (p : Nat × α → Bool) (m : Map α) {k : Nat} (h : ∀ v, p (k, v) = true) :
    Map.get d (m.filter p) k = Map.get d m k := by
  induction m with
  | nil => rfl
  | cons e m ih =>
    obtain ⟨j, v⟩ := e
    rw [List.filter_cons]
    by_cases hj : j = k
    · subst hj; rw [if_pos (h v)]; simp only [Map.get]; rw [if_pos trivial, if_pos trivial]
    · split
      · simp only [Map.get]; rw [if_neg hj, if_neg hj]; exact ih
      · simp only [Map.get]; rw [if_neg hj]; exact ih

theorem within_dropLayers {μ : Nat} {σ x : State} (hμ : Nat.land 3514776401986872174070733209129673327241950873673372369609965291102998109899599898686750536018664732148375711432438199315006457855854921632037902485050910179328 μ = 3514776401986872174070733209129673327241950873673372369609965291102998109899599898686750536018664732148375711432438199315006457855854921632037902485050910179328) (hw : Within μ σ x) :
    Within μ σ (dropLayers x) := by
  refine ⟨fun r hr i j => (hw.reg r hr i j ▸ ?_), fun q hq => (hw.part q hq).trans ?_, fun k => ?_⟩
  · have e : r.key i j % 512 = r.num := by have := regId_num_lt r; unfold RegId.key; omega
    have a : ∀ q : RegId, μ.testBit q.num = true → (r.num != q.num) = true := by
      intro q hq
      rw [bne_iff_ne]; intro h; rw [h, hq] at hr; cases hr
    refine map_get_filter _ _ _ fun v => ?_
    dsimp only
    rw [e, a _ (sub_set hμ rfl), a _ (sub_set hμ rfl), a _ (sub_set hμ rfl)]
    rfl
  · cases q
    case hst => exact Bool.noConfusion ((sub_set hμ rfl).symm.trans hq)
    all_goals rfl
  · have g := hw.sound k
    exact ⟨g.fmem, g.hmem, map_rises_filter _ 0 _ g.regs, g.tasks⟩

theorem within_enterCopy {μ : Nat} {σ x : State}   (hμ : Nat.land 1341787558476103239688415314209649893321956752679975979406302651153862582824844860175581532543330558691349155016727717791879658907688857065702018938417734830934016 μ = 1341787558476103239688415314209649893321956752679975979406302651153862582824844860175581532543330558691349155016727717791879658907688857065702018938417734830934016) (hw : Within μ σ x) :
    Within μ σ (enterCopy x) := by
  unfold enterCopy
  repeat' first
    | with_reducible assumption
    | with_reducible apply Within.refl
    | with_reducible apply Eq.refl
    | ((with_reducible apply fun k => sub_trans k hμ); exact rfl)
    | ((with_reducible apply sub_set hμ); exact rfl)
    | ((with_reducible apply Or.inl); with_reducible apply Eq.refl)
    | ((with_reducible apply Or.inr); (with_reducible apply sub_set hμ); exact rfl)
    | intro _
    | with_reducible apply Within.ite
    | with_reducible apply within_setRole
    | with_reducible apply within_disableAll
    | with_reducible apply within_leaseGone
    | with_reducible apply within_put
    | with_reducible apply within_wr
    | with_reducible apply within_dropLayers
    | with_reducible apply Within.foldl
    | (extract_lets +onlyGivenNames a; first | (refine Within.cutAny (μ := μ) (σ := σ) (a := a) ?_ ?_; all_goals (first | (intro ha; clear_value a) | (unfold a; clear a))) | skip)
    | split
    | (with_reducible apply Within.upd)

theorem within_judgeDigest {μ : Nat} {σ x : State} (c : ℕ) (e : W32) (digest : W32)  (hμ : Nat.land 1341787558476103239688415314209649893321956752679975979406302651153862582824844860175581535195326592445623290338532657871826689012027479622173052759617667825813504 μ = 1341787558476103239688415314209649893321956752679975979406302651153862582824844860175581535195326592445623290338532657871826689012027479622173052759617667825813504) (hw : Within μ σ x) :
    Within μ σ (judgeDigest c e digest x) := by
  unfold judgeDigest
  repeat' first
    | with_reducible assumption
    | with_reducible apply Within.refl
    | with_reducible apply Eq.refl
    | ((with_reducible apply fun k => sub_trans k hμ); exact rfl)
    | ((with_reducible apply sub_set hμ); exact rfl)
    | ((with_reducible apply Or.inl); with_reducible apply Eq.refl)
    | ((with_reducible apply Or.inr); (with_reducible apply sub_set hμ); exact rfl)
    | intro _
    | with_reducible apply Within.ite
    | with_reducible apply within_wr
    | with_reducible apply within_put
    | with_reducible apply within_twinEvent
    | with_reducible apply within_bump
    | with_reducible apply within_enterCopy
    | with_reducible apply Within.foldl
    | (extract_lets +onlyGivenNames a; first | (refine Within.cutAny (μ := μ) (σ := σ) (a := a) ?_ ?_; all_goals (first | (intro ha; clear_value a) | (unfold a; clear a))) | skip)
    | split
    | (with_reducible apply Within.upd)

theorem within_commitAs {μ : Nat} {σ x : State} (c : ℕ) (miss : Bool) (tiles : List W32)  (hμ : Nat.land 1341787558476103239688415314209649893321956752679975979406302651153862582824844860175581528957441972386976856824533489881101090902202910945242766381664152055728128 μ = 1341787558476103239688415314209649893321956752679975979406302651153862582824844860175581528957441972386976856824533489881101090902202910945242766381664152055728128) (hw : Within μ σ x) :
    Within μ σ (commitAs c miss tiles x) := by
  unfold commitAs
  repeat' first
    | with_reducible assumption
    | with_reducible apply Within.refl
    | with_reducible apply Eq.refl
    | ((with_reducible apply fun k => sub_trans k hμ); exact rfl)
    | ((with_reducible apply sub_set hμ); exact rfl)
    | intro _
    | with_reducible apply Within.ite
    | with_reducible apply within_fixSlots
    | with_reducible apply within_releaseUp
    | with_reducible apply within_endCopies
    | with_reducible apply within_commitEnv
    | with_reducible apply within_raise
    | with_reducible apply within_bump
    | with_reducible apply within_commitHalf
    | with_reducible apply Within.foldl
    | (extract_lets +onlyGivenNames a; first | (refine Within.cutAny (μ := μ) (σ := σ) (a := a) ?_ ?_; all_goals (first | (intro ha; clear_value a) | (unfold a; clear a))) | skip)
    | split

theorem within_commitWaiting {μ : Nat} {σ x : State} (w : ShadowWait)  (hμ : Nat.land 1348817111280076984036556780627909239976440654427322724145522581736068579044644059972955036270814795083315324421362682634540327056368373547071421566098782647371776 μ = 1348817111280076984036556780627909239976440654427322724145522581736068579044644059972955036270814795083315324421362682634540327056368373547071421566098782647371776) (hw : Within μ σ x) :
    Within μ σ (commitWaiting w x) := by
  unfold commitWaiting
  repeat' first
    | with_reducible assumption
    | with_reducible apply Within.refl
    | with_reducible apply Eq.refl
    | ((with_reducible apply fun k => sub_trans k hμ); exact rfl)
    | ((with_reducible apply sub_set hμ); exact rfl)
    | ((with_reducible apply Or.inl); with_reducible apply Eq.refl)
    | ((with_reducible apply Or.inr); (with_reducible apply sub_set hμ); exact rfl)
    | intro _
    | with_reducible apply Within.ite
    | with_reducible apply within_judgeDigest
    | with_reducible apply within_selActs
    | with_reducible apply within_commitAs
    | with_reducible apply Within.foldl
    | (extract_lets +onlyGivenNames a; first | (refine Within.cutAny (μ := μ) (σ := σ) (a := a) ?_ ?_; all_goals (first | (intro ha; clear_value a) | (unfold a; clear a))) | skip)
    | split
    | (with_reducible apply Within.upd)

theorem within_tryCommit {μ : Nat} {σ x : State}   (hμ : Nat.land 1348817111280076984036556780627909239976440654427322724145522581736068579044644059972955036270814795083315324421362682634540327056368373547071421566098782647371776 μ = 1348817111280076984036556780627909239976440654427322724145522581736068579044644059972955036270814795083315324421362682634540327056368373547071421566098782647371776) (hw : Within μ σ x) :
    Within μ σ (tryCommit x) := by
  unfold tryCommit
  repeat' first
    | with_reducible assumption
    | with_reducible apply Within.refl
    | with_reducible apply Eq.refl
    | ((with_reducible apply fun k => sub_trans k hμ); exact rfl)
    | ((with_reducible apply sub_set hμ); exact rfl)
    | intro _
    | with_reducible apply Within.ite
    | with_reducible apply within_commitWaiting
    | with_reducible apply Within.foldl
    | (extract_lets +onlyGivenNames a; first | (refine Within.cutAny (μ := μ) (σ := σ) (a := a) ?_ ?_; all_goals (first | (intro ha; clear_value a) | (unfold a; clear a))) | skip)
    | split

theorem within_applyCommit {μ : Nat} {σ x : State} (miss : Bool) (c : ℕ) (e : Sys2Proof.W32) (digest : Sys2Proof.W32) (tiles : List Sys2Proof.W32) (at_ : Sys2Proof.W64)  (hμ : Nat.land 1348817111280076984036556780627909239976440654427322724145522581736068579044644059972955036270814795083315324421362682634540327056368373547071421566098782647371776 μ = 1348817111280076984036556780627909239976440654427322724145522581736068579044644059972955036270814795083315324421362682634540327056368373547071421566098782647371776) (hw : Within μ σ x) :
    Within μ σ (applyCommit miss c e digest tiles at_ x) := by
  unfold applyCommit
  repeat' first
    | with_reducible assumption
    | with_reducible apply Within.refl
    | with_reducible apply Eq.refl
    | ((with_reducible apply fun k => sub_trans k hμ); exact rfl)
    | ((with_reducible apply sub_set hμ); exact rfl)
    | ((with_reducible apply Or.inl); with_reducible apply Eq.refl)
    | ((with_reducible apply Or.inr); (with_reducible apply sub_set hμ); exact rfl)
    | (intro hs; have q := fits_filter ‹_ ∈ List.filter _ _› ‹_› hs; exact q)
    | (intro hs; have q := fits_at ‹taskAt _ _ = some _› ‹_› hs; exact q)
    | (intro hs; have q := fits_on ‹taskOn _ _ = some _› ‹_› hs; exact q)
    | (intro hs; have q := fits_all ‹_ ∈ allTasks _› ‹_› hs; exact q)
    | (intro hs; have q := fits_all (List.mem_of_find?_eq_some ‹List.find? _ _ = some _›) ‹_› hs; exact q)
    | intro _
    | with_reducible apply Within.ite
    | with_reducible apply within_finish
    | with_reducible apply within_tryCommit
    | with_reducible apply Within.forEachMem
    | with_reducible apply Within.foldl
    | (extract_lets +onlyGivenNames a; first | (refine Within.cutAny (μ := μ) (σ := σ) (a := a) ?_ ?_; all_goals (first | (intro ha; clear_value a) | (unfold a; clear a))) | skip)
    | split
    | (with_reducible apply Within.upd)

theorem within_applied {μ : Nat} {σ x : State} (h : JHead)  (hμ : Nat.land 6901746346790563787434755862277025452451108972170386555162524223799296 μ = 6901746346790563787434755862277025452451108972170386555162524223799296) (hw : Within μ σ x) :
    Within μ σ (applied h x) := by
  unfold applied
  repeat' first
    | with_reducible assumption
    | with_reducible apply Within.refl
    | with_reducible apply Eq.refl
    | ((with_reducible apply fun k => sub_trans k hμ); exact rfl)
    | ((with_reducible apply sub_set hμ); exact rfl)
    | intro _
    | with_reducible apply Within.ite
    | with_reducible apply within_wr
    | with_reducible apply Within.foldl
    | (extract_lets +onlyGivenNames a; first | (refine Within.cutAny (μ := μ) (σ := σ) (a := a) ?_ ?_; all_goals (first | (intro ha; clear_value a) | (unfold a; clear a))) | skip)
    | split

theorem within_applyChange {μ : Nat} {σ x : State} (k : InKey) (value : W32) (version : W32) (g : ATarget)  (hμ : Nat.land 1130900786647579890047811927625519518805593915548452148936197445557822484126172445224718825100325170504799703751018806866115605255292319683353560693372739450587136 μ = 1130900786647579890047811927625519518805593915548452148936197445557822484126172445224718825100325170504799703751018806866115605255292319683353560693372739450587136) (hw : Within μ σ x) :
    Within μ σ (applyChange k value version g x) := by
  unfold applyChange
  repeat' first
    | with_reducible assumption
    | with_reducible apply Within.refl
    | with_reducible apply Eq.refl
    | ((with_reducible apply fun k => sub_trans k hμ); exact rfl)
    | ((with_reducible apply sub_set hμ); exact rfl)
    | intro _
    | with_reducible apply Within.ite
    | with_reducible apply within_setVersion
    | with_reducible apply within_put
    | with_reducible apply within_logChange
    | with_reducible apply Within.foldl
    | (extract_lets +onlyGivenNames a; first | (refine Within.cutAny (μ := μ) (σ := σ) (a := a) ?_ ?_; all_goals (first | (intro ha; clear_value a) | (unfold a; clear a))) | skip)
    | split

theorem within_applyCancel {μ : Nat} {σ x : State} (v : Sys2Proof.W32) (task : Option Sys2Proof.TaskRef)  (hμ : Nat.land 1130900759831964030162617728477469522393901660589720507751410690110699596682644385077624867962882444614224189204360089007284693821333820149620109422069328740632576 μ = 1130900759831964030162617728477469522393901660589720507751410690110699596682644385077624867962882444614224189204360089007284693821333820149620109422069328740632576) (hw : Within μ σ x) :
    Within μ σ (applyCancel v task x) := by
  unfold applyCancel
  repeat' first
    | with_reducible assumption
    | with_reducible apply Within.refl
    | with_reducible apply Eq.refl
    | ((with_reducible apply fun k => sub_trans k hμ); exact rfl)
    | ((with_reducible apply sub_set hμ); exact rfl)
    | (intro hs; have q := fits_filter ‹_ ∈ List.filter _ _› ‹_› hs; exact q)
    | (intro hs; have q := fits_at ‹taskAt _ _ = some _› ‹_› hs; exact q)
    | (intro hs; have q := fits_on ‹taskOn _ _ = some _› ‹_› hs; exact q)
    | (intro hs; have q := fits_all ‹_ ∈ allTasks _› ‹_› hs; exact q)
    | (intro hs; have q := fits_all (List.mem_of_find?_eq_some ‹List.find? _ _ = some _›) ‹_› hs; exact q)
    | intro _
    | with_reducible apply Within.ite
    | with_reducible apply within_cancelBy
    | with_reducible apply Within.foldl
    | (extract_lets +onlyGivenNames a; first | (refine Within.cutAny (μ := μ) (σ := σ) (a := a) ?_ ?_; all_goals (first | (intro ha; clear_value a) | (unfold a; clear a))) | skip)
    | split

theorem within_applyRegw {μ : Nat} {σ x : State} (off : ℕ) (v : Sys2Proof.W32) (fn : ℕ) (task : Option Sys2Proof.TaskRef)  (hμ : Nat.land 1348820570494522909226608470726358777084741544103704436983014034414921124444915061651629805499859384839063824028888997771953048493455095104368217122071121699536895 μ = 1348820570494522909226608470726358777084741544103704436983014034414921124444915061651629805499859384839063824028888997771953048493455095104368217122071121699536895) (hw : Within μ σ x) :
    Within μ σ (applyRegw off v fn task x) := by
  unfold applyRegw
  repeat' first
    | with_reducible assumption
    | with_reducible apply Within.refl
    | with_reducible apply Eq.refl
    | ((with_reducible apply fun k => sub_trans k hμ); exact rfl)
    | ((with_reducible apply sub_set hμ); exact rfl)
    | exact sub_set (sub_trans rfl hμ) (all_reg _)
    | intro _
    | with_reducible apply Within.ite
    | with_reducible apply within_renderEffect
    | with_reducible apply within_applyCancel
    | with_reducible apply Within.foldl
    | (extract_lets +onlyGivenNames a; first | (refine Within.cutAny (μ := μ) (σ := σ) (a := a) ?_ ?_; all_goals (first | (intro ha; clear_value a) | (unfold a; clear a))) | skip)
    | split

theorem within_cmdState {μ : Nat} {σ x : State} {e : CmdEnd} (he : WithinEnd μ σ e) (hw : Within μ σ x) :
    Within μ σ (cmdState x e) := by
  unfold cmdState
  split
  · exact he
  · exact hw
  · exact he

theorem within_applyAlloc {μ : Nat} {σ x : State} (c : ℕ) (size : ℕ) (base : ℕ)  (hμ : Nat.land 1128264677530473876032064678570622267398470197434465478474203216142372348100219685153609805060868446065112907420785760357798438977941928958396080991546348681578496 μ = 1128264677530473876032064678570622267398470197434465478474203216142372348100219685153609805060868446065112907420785760357798438977941928958396080991546348681578496) (hw : Within μ σ x) :
    Within μ σ (applyAlloc c size base x) := by
  unfold applyAlloc
  repeat' first
    | with_reducible assumption
    | with_reducible apply Within.refl
    | with_reducible apply Eq.refl
    | ((with_reducible apply fun k => sub_trans k hμ); exact rfl)
    | ((with_reducible apply sub_set hμ); exact rfl)
    | ((with_reducible apply Or.inl); with_reducible apply Eq.refl)
    | ((with_reducible apply Or.inr); (with_reducible apply sub_set hμ); exact rfl)
    | with_reducible apply memWf_memZero
    | with_reducible apply memWf_memWrite
    | with_reducible apply memWf_memSet
    | intro _
    | with_reducible apply Within.ite
    | with_reducible apply within_refreshCtx
    | with_reducible apply within_fmemZero
    | with_reducible apply Within.foldl
    | (extract_lets +onlyGivenNames a; first | (refine Within.cutAny (μ := μ) (σ := σ) (a := a) ?_ ?_; all_goals (first | (intro ha; clear_value a) | (unfold a; clear a))) | skip)
    | split
    | (with_reducible apply Within.upd)

theorem within_endImport {μ : Nat} {σ x : State} (a0 : Sys2Proof.Machine.Import)  (hμ : Nat.land 3514776401986872174070733209129673327241950873673372369609965291102998109899599898686750536018664732148375711432438199315006457855854921632037902485050909261824 μ = 3514776401986872174070733209129673327241950873673372369609965291102998109899599898686750536018664732148375711432438199315006457855854921632037902485050909261824) (hw : Within μ σ x) :
    Within μ σ (endImport a0 x) := by
  unfold endImport
  repeat' first
    | with_reducible assumption
    | with_reducible apply Within.refl
    | with_reducible apply Eq.refl
    | ((with_reducible apply fun k => sub_trans k hμ); exact rfl)
    | ((with_reducible apply sub_set hμ); exact rfl)
    | ((with_reducible apply Or.inl); with_reducible apply Eq.refl)
    | ((with_reducible apply Or.inr); (with_reducible apply sub_set hμ); exact rfl)
    | intro _
    | with_reducible apply Within.ite
    | with_reducible apply Within.foldl
    | (extract_lets +onlyGivenNames a; first | (refine Within.cutAny (μ := μ) (σ := σ) (a := a) ?_ ?_; all_goals (first | (intro ha; clear_value a) | (unfold a; clear a))) | skip)
    | split
    | (with_reducible apply Within.upd)

theorem within_applyImport {μ : Nat} {σ x : State} (c : ℕ) (n : ℕ) (t : Tgt)  (hμ : Nat.land 1130900786647579890047811927625519518805593915548452148936197445557822484126172445224718825100325170504799703751018806866093827183809379621691904718497106285185024 μ = 1130900786647579890047811927625519518805593915548452148936197445557822484126172445224718825100325170504799703751018806866093827183809379621691904718497106285185024) (hw : Within μ σ x) :
    Within μ σ (applyImport c n t x) := by
  unfold applyImport
  repeat' first
    | with_reducible assumption
    | with_reducible apply Within.refl
    | with_reducible apply Eq.refl
    | ((with_reducible apply fun k => sub_trans k hμ); exact rfl)
    | ((with_reducible apply sub_set hμ); exact rfl)
    | intro _
    | with_reducible apply Within.ite
    | with_reducible apply within_logChange
    | with_reducible apply within_put
    | with_reducible apply within_endImport
    | with_reducible apply Within.foldl
    | (extract_lets +onlyGivenNames a; first | (refine Within.cutAny (μ := μ) (σ := σ) (a := a) ?_ ?_; all_goals (first | (intro ha; clear_value a) | (unfold a; clear a))) | skip)
    | split

theorem within_applyCmd {μ : Nat} {σ x : State} (jseq : Sys2Proof.W32) (entry : List Sys2Proof.W32) (cpl : List Sys2Proof.W32)  (hμ : Nat.land 1243373631511159799618075390317669065277336343506000064763716334873118423642959641982694842252922441933547726516856829244174033835196737113917117598018735382087680 μ = 1243373631511159799618075390317669065277336343506000064763716334873118423642959641982694842252922441933547726516856829244174033835196737113917117598018735382087680) (hw : Within μ σ x) :
    Within μ σ (applyCmd jseq entry cpl x) := by
  unfold applyCmd
  repeat' first
    | with_reducible assumption
    | with_reducible apply Within.refl
    | with_reducible apply Eq.refl
    | ((with_reducible apply fun k => sub_trans k hμ); exact rfl)
    | ((with_reducible apply sub_set hμ); exact rfl)
    | intro _
    | with_reducible apply Within.ite
    | with_reducible apply within_cmdState
    | with_reducible apply within_cmdTask
    | with_reducible apply within_cmdCue
    | with_reducible apply within_applyAlloc
    | with_reducible apply within_cmdRetire
    | with_reducible apply within_cmdLayerNew
    | with_reducible apply within_cmdLayerSet
    | with_reducible apply within_applyImport
    | with_reducible apply within_cmdLayerDel
    | with_reducible apply within_noteOrigin
    | with_reducible apply Within.foldl
    | (extract_lets +onlyGivenNames a; first | (refine Within.cutAny (μ := μ) (σ := σ) (a := a) ?_ ?_; all_goals (first | (intro ha; clear_value a) | (unfold a; clear a))) | skip)
    | split

theorem within_applyLayer {μ : Nat} {σ x : State} (last : Bool) (n : ℕ) (buf : W32) (off : W32) (data : List Byte)  (hμ : Nat.land 1130900786647579890047811927625519518805593915548452148936197445557822484126172445224718825100325170504799703751018806866093827183809379621691904718497106285709312 μ = 1130900786647579890047811927625519518805593915548452148936197445557822484126172445224718825100325170504799703751018806866093827183809379621691904718497106285709312) (hw : Within μ σ x) :
    Within μ σ (applyLayer last n buf off data x) := by
  unfold applyLayer
  repeat' first
    | with_reducible assumption
    | with_reducible apply Within.refl
    | with_reducible apply Eq.refl
    | ((with_reducible apply fun k => sub_trans k hμ); exact rfl)
    | ((with_reducible apply sub_set hμ); exact rfl)
    | intro _
    | with_reducible apply Within.ite
    | with_reducible apply within_fmemPut
    | with_reducible apply within_put
    | with_reducible apply within_logChange
    | with_reducible apply within_wr
    | with_reducible apply within_endImport
    | with_reducible apply within_startImport
    | with_reducible apply Within.foldl
    | (extract_lets +onlyGivenNames a; first | (refine Within.cutAny (μ := μ) (σ := σ) (a := a) ?_ ?_; all_goals (first | (intro ha; clear_value a) | (unfold a; clear a))) | skip)
    | split

theorem within_applyEpstate {μ : Nat} {σ x : State} (e : ℕ) (status : List W32) (strings : W64)  (hμ : Nat.land 1152853524649354203704915474495331932728577156000166280537478009945242565590252164425306298373762693599222210646151120856180155298708414011952244589124989352935424 μ = 1152853524649354203704915474495331932728577156000166280537478009945242565590252164425306298373762693599222210646151120856180155298708414011952244589124989352935424) (hw : Within μ σ x) :
    Within μ σ (applyEpstate e status strings x) := by
  unfold applyEpstate
  repeat' first
    | with_reducible assumption
    | with_reducible apply Within.refl
    | with_reducible apply Eq.refl
    | ((with_reducible apply fun k => sub_trans k hμ); exact rfl)
    | ((with_reducible apply sub_set hμ); exact rfl)
    | intro _
    | with_reducible apply Within.ite
    | with_reducible apply within_fmemPut
    | with_reducible apply within_setEp
    | with_reducible apply Within.foldl
    | (extract_lets +onlyGivenNames a; first | (refine Within.cutAny (μ := μ) (σ := σ) (a := a) ?_ ?_; all_goals (first | (intro ha; clear_value a) | (unfold a; clear a))) | skip)
    | split

theorem within_applyHandover {μ : Nat} {σ x : State} (b : W64)  (hμ : Nat.land 112472844863579909570263462692149546471742427957547915827518889315295939516787196757976017152597271428748022765838022378080206651387357492225212879521629096378368 μ = 112472844863579909570263462692149546471742427957547915827518889315295939516787196757976017152597271428748022765838022378080206651387357492225212879521629096378368) (hw : Within μ σ x) :
    Within μ σ (applyHandover b x) := by
  unfold applyHandover
  repeat' first
    | with_reducible assumption
    | with_reducible apply Within.refl
    | with_reducible apply Eq.refl
    | ((with_reducible apply fun k => sub_trans k hμ); exact rfl)
    | ((with_reducible apply sub_set hμ); exact rfl)
    | ((with_reducible apply Or.inl); with_reducible apply Eq.refl)
    | ((with_reducible apply Or.inr); (with_reducible apply sub_set hμ); exact rfl)
    | intro _
    | with_reducible apply Within.ite
    | with_reducible apply Within.foldl
    | (extract_lets +onlyGivenNames a; first | (refine Within.cutAny (μ := μ) (σ := σ) (a := a) ?_ ?_; all_goals (first | (intro ha; clear_value a) | (unfold a; clear a))) | skip)
    | split
    | (with_reducible apply Within.upd)

theorem within_applyRecord {μ : Nat} {σ z : State} (x : Sys2Proof.Machine.JHeld)  (hμ : Nat.land 1348820570494522909226608470726358777084741544103704436983014034414921124444915061651629805499859384839063824028888997771953048493455095104368217122071121699536895 μ = 1348820570494522909226608470726358777084741544103704436983014034414921124444915061651629805499859384839063824028888997771953048493455095104368217122071121699536895) (hw : Within μ σ z) :
    Within μ σ (applyRecord x z) := by
  unfold applyRecord
  repeat' first
    | with_reducible assumption
    | with_reducible apply Within.refl
    | with_reducible apply Eq.refl
    | ((with_reducible apply fun k => sub_trans k hμ); exact rfl)
    | ((with_reducible apply sub_set hμ); exact rfl)
    | intro _
    | with_reducible apply Within.ite
    | with_reducible apply within_applyCommit
    | with_reducible apply within_applied
    | with_reducible apply within_applyChange
    | with_reducible apply within_applyRegw
    | with_reducible apply within_applyCmd
    | with_reducible apply within_fmemPut
    | with_reducible apply within_applyLayer
    | with_reducible apply within_applyEpstate
    | with_reducible apply within_applyHandover
    | with_reducible apply Within.foldl
    | (extract_lets +onlyGivenNames a; first | (refine Within.cutAny (μ := μ) (σ := σ) (a := a) ?_ ?_; all_goals (first | (intro ha; clear_value a) | (unfold a; clear a))) | skip)
    | split

theorem within_sendAck {μ : Nat} {σ x : State}   (hμ : Nat.land 112472844863579909570263462692149546471742427957547915827518889315295939516787196757976017152597271428748022765838022378080206651387357492225212879521629096378368 μ = 112472844863579909570263462692149546471742427957547915827518889315295939516787196757976017152597271428748022765838022378080206651387357492225212879521629096378368) (hw : Within μ σ x) :
    Within μ σ (sendAck x) := by
  unfold sendAck
  repeat' first
    | with_reducible assumption
    | with_reducible apply Within.refl
    | with_reducible apply Eq.refl
    | ((with_reducible apply fun k => sub_trans k hμ); exact rfl)
    | ((with_reducible apply sub_set hμ); exact rfl)
    | ((with_reducible apply Or.inl); with_reducible apply Eq.refl)
    | ((with_reducible apply Or.inr); (with_reducible apply sub_set hμ); exact rfl)
    | intro _
    | with_reducible apply Within.ite
    | with_reducible apply within_sendPlain
    | with_reducible apply Within.foldl
    | (extract_lets +onlyGivenNames a; first | (refine Within.cutAny (μ := μ) (σ := σ) (a := a) ?_ ?_; all_goals (first | (intro ha; clear_value a) | (unfold a; clear a))) | skip)
    | split
    | (with_reducible apply Within.upd)

theorem within_copyReg {μ : Nat} {σ x : State} (off : ℕ) (v : W32)  (hμ : Nat.land 65185151242703554760590262029100101153646988597309960020356494379340201592426774597868716031 μ = 65185151242703554760590262029100101153646988597309960020356494379340201592426774597868716031) (hw : Within μ σ x) :
    Within μ σ (copyReg off v x) := by
  unfold copyReg
  repeat' first
    | with_reducible assumption
    | with_reducible apply Within.refl
    | with_reducible apply Eq.refl
    | ((with_reducible apply fun k => sub_trans k hμ); exact rfl)
    | ((with_reducible apply sub_set hμ); exact rfl)
    | exact sub_set (sub_trans rfl hμ) (all_reg _)
    | intro _
    | with_reducible apply Within.ite
    | with_reducible apply within_wr
    | with_reducible apply Within.foldl
    | (extract_lets +onlyGivenNames a; first | (refine Within.cutAny (μ := μ) (σ := σ) (a := a) ?_ ?_; all_goals (first | (intro ha; clear_value a) | (unfold a; clear a))) | skip)
    | split

theorem within_copyChange {μ : Nat} {σ x : State} (ws : List W32)  (hμ : Nat.land 1757388200993436087035366604564836663620975436836686184804982645551499054949799949343375268009332366074187855716219099657503228927927460816018951242525454893056 μ = 1757388200993436087035366604564836663620975436836686184804982645551499054949799949343375268009332366074187855716219099657503228927927460816018951242525454893056) (hw : Within μ σ x) :
    Within μ σ (copyChange ws x) := by
  unfold copyChange
  repeat' first
    | with_reducible assumption
    | with_reducible apply Within.refl
    | with_reducible apply Eq.refl
    | ((with_reducible apply fun k => sub_trans k hμ); exact rfl)
    | ((with_reducible apply sub_set hμ); exact rfl)
    | ((with_reducible apply Or.inl); with_reducible apply Eq.refl)
    | ((with_reducible apply Or.inr); (with_reducible apply sub_set hμ); exact rfl)
    | intro _
    | with_reducible apply Within.ite
    | with_reducible apply within_setVersion
    | with_reducible apply within_wr
    | with_reducible apply Within.foldl
    | (extract_lets +onlyGivenNames a; first | (refine Within.cutAny (μ := μ) (σ := σ) (a := a) ?_ ?_; all_goals (first | (intro ha; clear_value a) | (unfold a; clear a))) | skip)
    | split
    | (with_reducible apply Within.upd)

theorem within_renewAt {μ : Nat} {σ x : State} (f : FClock) (b : W64)  (hμ : Nat.land 112473702963287425896477835429749431645894586636960433740695063623228337709685121464982532476434586430637087058308996485718288108639606253651531888554085361647616 μ = 112473702963287425896477835429749431645894586636960433740695063623228337709685121464982532476434586430637087058308996485718288108639606253651531888554085361647616) (hw : Within μ σ x) :
    Within μ σ (renewAt f b x) := by
  unfold renewAt
  repeat' first
    | with_reducible assumption
    | with_reducible apply Within.refl
    | with_reducible apply Eq.refl
    | ((with_reducible apply fun k => sub_trans k hμ); exact rfl)
    | ((with_reducible apply sub_set hμ); exact rfl)
    | ((with_reducible apply Or.inl); with_reducible apply Eq.refl)
    | ((with_reducible apply Or.inr); (with_reducible apply sub_set hμ); exact rfl)
    | intro _
    | with_reducible apply Within.ite
    | with_reducible apply within_put
    | with_reducible apply within_sendRecord
    | with_reducible apply Within.foldl
    | (extract_lets +onlyGivenNames a; first | (refine Within.cutAny (μ := μ) (σ := σ) (a := a) ?_ ?_; all_goals (first | (intro ha; clear_value a) | (unfold a; clear a))) | skip)
    | split
    | (with_reducible apply Within.upd)

theorem within_becomeActive {μ : Nat} {σ x : State}   (hμ : Nat.land 337419392690447245037004760814048524589379442552056265395732842253820216743259514980934570316185977138250612230009387210500361247938503610861172210205061667618816 μ = 337419392690447245037004760814048524589379442552056265395732842253820216743259514980934570316185977138250612230009387210500361247938503610861172210205061667618816) (hw : Within μ σ x) :
    Within μ σ (becomeActive x) := by
  unfold becomeActive
  repeat' first
    | with_reducible assumption
    | with_reducible apply Within.refl
    | with_reducible apply Eq.refl
    | ((with_reducible apply fun k => sub_trans k hμ); exact rfl)
    | ((with_reducible apply sub_set hμ); exact rfl)
    | intro _
    | with_reducible apply Within.ite
    | with_reducible apply within_wr
    | with_reducible apply within_setRole
    | with_reducible apply within_beginTrans
    | with_reducible apply within_renewAt
    | with_reducible apply Within.foldl
    | (extract_lets +onlyGivenNames a; first | (refine Within.cutAny (μ := μ) (σ := σ) (a := a) ?_ ?_; all_goals (first | (intro ha; clear_value a) | (unfold a; clear a))) | skip)
    | split

theorem within_resetRender {μ : Nat} {σ x : State}   (hμ : Nat.land 55357942856220115823167641228192326197598765930208744299650996911855384964294422284622710362544769301892914142559229932948185727786219347051308533852533786935295 μ = 55357942856220115823167641228192326197598765930208744299650996911855384964294422284622710362544769301892914142559229932948185727786219347051308533852533786935295) (hw : Within μ σ x) :
    Within μ σ (resetRender x) := by
  unfold resetRender
  refine ⟨fun r hr => Bool.noConfusion ((sub_set (sub_trans rfl hμ) (all_reg r)).symm.trans hr), fun q hq => (hw.part q hq).trans ?_, fun k => ?_⟩
  · cases q
    case inForce => exact Bool.noConfusion ((sub_set hμ rfl).symm.trans hq)
    case sch => exact Bool.noConfusion ((sub_set hμ rfl).symm.trans hq)
    case vat => exact Bool.noConfusion ((sub_set hμ rfl).symm.trans hq)
    case glz => exact Bool.noConfusion ((sub_set hμ rfl).symm.trans hq)
    case epg => exact Bool.noConfusion ((sub_set hμ rfl).symm.trans hq)
    case hst => exact Bool.noConfusion ((sub_set hμ rfl).symm.trans hq)
    case tim => exact Bool.noConfusion ((sub_set hμ rfl).symm.trans hq)
    all_goals rfl
  · have g := hw.sound k
    exact ⟨g.fmem, g.hmem, map_rises_filter _ 0 _ (map_rises_filter _ 0 _ g.regs), rfl, fun e he => absurd he (List.not_mem_nil), fun e he => absurd he (List.not_mem_nil)⟩

theorem within_followDomain {μ : Nat} {σ x : State}   (hμ : Nat.land 10558916900988394067856536166587067942312550171032921632824859108159763608963519715171012047292399787374455038330677144184992026552334525496103141319612989196288 μ = 10558916900988394067856536166587067942312550171032921632824859108159763608963519715171012047292399787374455038330677144184992026552334525496103141319612989196288) (hw : Within μ σ x) :
    Within μ σ (followDomain x) := by
  unfold followDomain
  repeat' first
    | with_reducible assumption
    | with_reducible apply Within.refl
    | with_reducible apply Eq.refl
    | ((with_reducible apply fun k => sub_trans k hμ); exact rfl)
    | ((with_reducible apply sub_set hμ); exact rfl)
    | intro _
    | with_reducible apply Within.ite
    | with_reducible apply within_startSwitch
    | with_reducible apply within_loseFollowed
    | with_reducible apply Within.foldl
    | (extract_lets +onlyGivenNames a; first | (refine Within.cutAny (μ := μ) (σ := σ) (a := a) ?_ ?_; all_goals (first | (intro ha; clear_value a) | (unfold a; clear a))) | skip)
    | split

theorem within_bufferRecord {μ : Nat} {σ z : State} (x : Sys2Proof.Machine.JHeld)  (hμ : Nat.land 1341787558476103239688415314209649893321956752679975979406302651153862582824844860175581532545055995278046795963586406757448915270801634308744615577208365886883840 μ = 1341787558476103239688415314209649893321956752679975979406302651153862582824844860175581532545055995278046795963586406757448915270801634308744615577208365886883840) (hw : Within μ σ z) :
    Within μ σ (bufferRecord x z) := by
  unfold bufferRecord
  repeat' first
    | with_reducible assumption
    | with_reducible apply Within.refl
    | with_reducible apply Eq.refl
    | ((with_reducible apply fun k => sub_trans k hμ); exact rfl)
    | ((with_reducible apply sub_set hμ); exact rfl)
    | ((with_reducible apply Or.inl); with_reducible apply Eq.refl)
    | ((with_reducible apply Or.inr); (with_reducible apply sub_set hμ); exact rfl)
    | intro _
    | with_reducible apply Within.ite
    | with_reducible apply within_twinEvent
    | with_reducible apply within_bump
    | with_reducible apply within_enterCopy
    | with_reducible apply Within.foldl
    | (extract_lets +onlyGivenNames a; first | (refine Within.cutAny (μ := μ) (σ := σ) (a := a) ?_ ?_; all_goals (first | (intro ha; clear_value a) | (unfold a; clear a))) | skip)
    | split
    | (with_reducible apply Within.upd)

theorem within_instepCheck {μ : Nat} {σ x : State}   (hμ : Nat.land 116002208960594559289978532440477267759571076381234092721123817841249706905951516675773528130009137485197776415505528681180112447358683365528598300305087449286656 μ = 116002208960594559289978532440477267759571076381234092721123817841249706905951516675773528130009137485197776415505528681180112447358683365528598300305087449286656) (hw : Within μ σ x) :
    Within μ σ (instepCheck x) := by
  unfold instepCheck
  repeat' first
    | with_reducible assumption
    | with_reducible apply Within.refl
    | with_reducible apply Eq.refl
    | ((with_reducible apply fun k => sub_trans k hμ); exact rfl)
    | ((with_reducible apply sub_set hμ); exact rfl)
    | intro _
    | with_reducible apply Within.ite
    | with_reducible apply within_twinEvent
    | with_reducible apply within_setRole
    | with_reducible apply Within.foldl
    | (extract_lets +onlyGivenNames a; first | (refine Within.cutAny (μ := μ) (σ := σ) (a := a) ?_ ?_; all_goals (first | (intro ha; clear_value a) | (unfold a; clear a))) | skip)
    | split

theorem within_drain {μ : Nat} {σ x : State} (a0 : List JHeld)  (hμ : Nat.land 1348820570494522909226608470726358777084741544103704436983014034414921124444915061651629805499859384839063824028888997771953048493455095104368217122071121699536895 μ = 1348820570494522909226608470726358777084741544103704436983014034414921124444915061651629805499859384839063824028888997771953048493455095104368217122071121699536895) (hw : Within μ σ x) :
    Within μ σ (drain a0 x) := by
  induction a0 generalizing x with
  | nil => exact hw
  | cons b r ih =>
    unfold drain
    repeat' first
    | with_reducible assumption
    | with_reducible apply Within.refl
    | with_reducible apply Eq.refl
    | ((with_reducible apply fun k => sub_trans k hμ); exact rfl)
    | ((with_reducible apply sub_set hμ); exact rfl)
    | ((with_reducible apply Or.inl); with_reducible apply Eq.refl)
    | ((with_reducible apply Or.inr); (with_reducible apply sub_set hμ); exact rfl)
    | (with_reducible apply ih)
    | intro _
    | with_reducible apply Within.ite
    | with_reducible apply within_applyRecord
    | with_reducible apply Within.foldl
    | (extract_lets +onlyGivenNames a; first | (refine Within.cutAny (μ := μ) (σ := σ) (a := a) ?_ ?_; all_goals (first | (intro ha; clear_value a) | (unfold a; clear a))) | skip)
    | split
    | (with_reducible apply Within.upd)

theorem within_pump {μ : Nat} {σ x : State}   (hμ : Nat.land 1348820570494522909226608470726358777084741544103704436983014034414921124444915061651629805499859384839063824028888997771953048493455095104368217122071121699536895 μ = 1348820570494522909226608470726358777084741544103704436983014034414921124444915061651629805499859384839063824028888997771953048493455095104368217122071121699536895) (hw : Within μ σ x) :
    Within μ σ (pump x) := by
  unfold pump
  repeat' first
    | with_reducible assumption
    | with_reducible apply Within.refl
    | with_reducible apply Eq.refl
    | ((with_reducible apply fun k => sub_trans k hμ); exact rfl)
    | ((with_reducible apply sub_set hμ); exact rfl)
    | ((with_reducible apply Or.inl); with_reducible apply Eq.refl)
    | ((with_reducible apply Or.inr); (with_reducible apply sub_set hμ); exact rfl)
    | intro _
    | with_reducible apply Within.ite
    | with_reducible apply within_instepCheck
    | with_reducible apply within_drain
    | with_reducible apply Within.foldl
    | (extract_lets +onlyGivenNames a; first | (refine Within.cutAny (μ := μ) (σ := σ) (a := a) ?_ ?_; all_goals (first | (intro ha; clear_value a) | (unfold a; clear a))) | skip)
    | split
    | (with_reducible apply Within.upd)

theorem within_receive {μ : Nat} {σ z : State} (h : JHead) (x : JRec)  (hμ : Nat.land 1348820570494522909226608470726358777084741544103704436983014034414921124444915061651629805499859384839063824028888997771953048493455095104368217122071121699536895 μ = 1348820570494522909226608470726358777084741544103704436983014034414921124444915061651629805499859384839063824028888997771953048493455095104368217122071121699536895) (hw : Within μ σ z) :
    Within μ σ (receive h x z) := by
  unfold receive
  repeat' first
    | with_reducible assumption
    | with_reducible apply Within.refl
    | with_reducible apply Eq.refl
    | ((with_reducible apply fun k => sub_trans k hμ); exact rfl)
    | ((with_reducible apply sub_set hμ); exact rfl)
    | intro _
    | with_reducible apply Within.ite
    | with_reducible apply within_bufferRecord
    | with_reducible apply within_instepCheck
    | with_reducible apply within_applyRecord
    | with_reducible apply within_pump
    | with_reducible apply Within.foldl
    | (extract_lets +onlyGivenNames a; first | (refine Within.cutAny (μ := μ) (σ := σ) (a := a) ?_ ?_; all_goals (first | (intro ha; clear_value a) | (unfold a; clear a))) | skip)
    | split

theorem within_resumeCanvas {μ : Nat} {σ x : State} (c : ℕ)  (hμ : Nat.land 6165446398504803850268119655174976283260111578941206170812402494281015971589019841812573877269068872188984249668473745624590185472245511007510041796908194744320 μ = 6165446398504803850268119655174976283260111578941206170812402494281015971589019841812573877269068872188984249668473745624590185472245511007510041796908194744320) (hw : Within μ σ x) :
    Within μ σ (resumeCanvas c x) := by
  unfold resumeCanvas
  repeat' first
    | with_reducible assumption
    | with_reducible apply Within.refl
    | with_reducible apply Eq.refl
    | ((with_reducible apply fun k => sub_trans k hμ); exact rfl)
    | ((with_reducible apply sub_set hμ); exact rfl)
    | intro _
    | with_reducible apply Within.ite
    | with_reducible apply within_setCanvas
    | with_reducible apply within_put
    | with_reducible apply within_wr
    | with_reducible apply within_fixSlots
    | with_reducible apply within_releaseUp
    | with_reducible apply within_takeTmpls
    | with_reducible apply Within.foldl
    | (extract_lets +onlyGivenNames a; first | (refine Within.cutAny (μ := μ) (σ := σ) (a := a) ?_ ?_; all_goals (first | (intro ha; clear_value a) | (unfold a; clear a))) | skip)
    | split

theorem within_endWait {μ : Nat} {σ x : State}   (hμ : Nat.land 1348817111280076984036556780627909239976440654427322724145522581736068579044644059972955036270814795083315324421362682634540327056368373547071421566098782647371776 μ = 1348817111280076984036556780627909239976440654427322724145522581736068579044644059972955036270814795083315324421362682634540327056368373547071421566098782647371776) (hw : Within μ σ x) :
    Within μ σ (endWait x) := by
  unfold endWait
  repeat' first
    | with_reducible assumption
    | with_reducible apply Within.refl
    | with_reducible apply Eq.refl
    | ((with_reducible apply fun k => sub_trans k hμ); exact rfl)
    | ((with_reducible apply sub_set hμ); exact rfl)
    | intro _
    | with_reducible apply Within.ite
    | with_reducible apply within_commitWaiting
    | with_reducible apply Within.foldl
    | (extract_lets +onlyGivenNames a; first | (refine Within.cutAny (μ := μ) (σ := σ) (a := a) ?_ ?_; all_goals (first | (intro ha; clear_value a) | (unfold a; clear a))) | skip)
    | split

theorem within_finishJournal {μ : Nat} {σ x : State} (a0 : List JHeld)  (hμ : Nat.land 1348820570494522909226608470726358777084741544103704436983014034414921124444915061651629805499859384839063824028888997771953048493455095104368217122071121699536895 μ = 1348820570494522909226608470726358777084741544103704436983014034414921124444915061651629805499859384839063824028888997771953048493455095104368217122071121699536895) (hw : Within μ σ x) :
    Within μ σ (finishJournal a0 x) := by
  induction a0 generalizing x with
  | nil => exact hw
  | cons b r ih =>
    unfold finishJournal
    repeat' first
    | with_reducible assumption
    | with_reducible apply Within.refl
    | with_reducible apply Eq.refl
    | ((with_reducible apply fun k => sub_trans k hμ); exact rfl)
    | ((with_reducible apply sub_set hμ); exact rfl)
    | (with_reducible apply ih)
    | intro _
    | with_reducible apply Within.ite
    | with_reducible apply within_commitWaiting
    | with_reducible apply within_endWait
    | with_reducible apply within_applyCommit
    | with_reducible apply within_applied
    | with_reducible apply within_applyRecord
    | with_reducible apply Within.foldl
    | (extract_lets +onlyGivenNames a; first | (refine Within.cutAny (μ := μ) (σ := σ) (a := a) ?_ ?_; all_goals (first | (intro ha; clear_value a) | (unfold a; clear a))) | skip)
    | split

theorem within_commitOverdue {μ : Nat} {σ x : State} (a0 : ℕ)  (hμ : Nat.land 1341787558476103239688415314209649893321956752679975979406302651153862582824844860175581528957441972386976856824533489881101090902202910945242766381664152055728128 μ = 1341787558476103239688415314209649893321956752679975979406302651153862582824844860175581528957441972386976856824533489881101090902202910945242766381664152055728128) (hw : Within μ σ x) :
    Within μ σ (commitOverdue a0 x) := by
  induction a0 generalizing x with
  | zero => exact hw
  | succ n ih =>
    unfold commitOverdue
    repeat' first
    | with_reducible assumption
    | with_reducible apply Within.refl
    | with_reducible apply Eq.refl
    | ((with_reducible apply fun k => sub_trans k hμ); exact rfl)
    | ((with_reducible apply sub_set hμ); exact rfl)
    | (with_reducible apply ih)
    | intro _
    | with_reducible apply Within.ite
    | with_reducible apply within_commitAs
    | with_reducible apply Within.foldl
    | (extract_lets +onlyGivenNames a; first | (refine Within.cutAny (μ := μ) (σ := σ) (a := a) ?_ ?_; all_goals (first | (intro ha; clear_value a) | (unfold a; clear a))) | skip)
    | split

theorem within_resumeClock {μ : Nat} {σ x : State} (n : ℕ)  (hμ : Nat.land 7029552803973744348141466418259346654483901747346744739219930582205996219799199797373501072037329464296751422864876398630012915711709843264076381430854121947136 μ = 7029552803973744348141466418259346654483901747346744739219930582205996219799199797373501072037329464296751422864876398630012915711709843264076381430854121947136) (hw : Within μ σ x) :
    Within μ σ (resumeClock n x) := by
  unfold resumeClock
  repeat' first
    | with_reducible assumption
    | with_reducible apply Within.refl
    | with_reducible apply Eq.refl
    | ((with_reducible apply fun k => sub_trans k hμ); exact rfl)
    | ((with_reducible apply sub_set hμ); exact rfl)
    | ((with_reducible apply Or.inl); with_reducible apply Eq.refl)
    | ((with_reducible apply Or.inr); (with_reducible apply sub_set hμ); exact rfl)
    | intro _
    | with_reducible apply Within.ite
    | with_reducible apply within_fcStart
    | with_reducible apply Within.foldl
    | (extract_lets +onlyGivenNames a; first | (refine Within.cutAny (μ := μ) (σ := σ) (a := a) ?_ ?_; all_goals (first | (intro ha; clear_value a) | (unfold a; clear a))) | skip)
    | split
    | (with_reducible apply Within.upd)

theorem within_resumeCopy {μ : Nat} {σ x : State}   (hμ : Nat.land 13194999202478548198409586073434322937744013326287950910032333076487012191388219639186074949306398336485735672533350144254603101183955354271586423227762316691456 μ = 13194999202478548198409586073434322937744013326287950910032333076487012191388219639186074949306398336485735672533350144254603101183955354271586423227762316691456) (hw : Within μ σ x) :
    Within μ σ (resumeCopy x) := by
  unfold resumeCopy
  repeat' first
    | with_reducible assumption
    | with_reducible apply Within.refl
    | with_reducible apply Eq.refl
    | ((with_reducible apply fun k => sub_trans k hμ); exact rfl)
    | ((with_reducible apply sub_set hμ); exact rfl)
    | intro _
    | with_reducible apply Within.ite
    | with_reducible apply within_resumeCanvas
    | with_reducible apply within_resumeClock
    | with_reducible apply Within.forEach
    | with_reducible apply Within.foldl
    | (extract_lets +onlyGivenNames a; first | (refine Within.cutAny (μ := μ) (σ := σ) (a := a) ?_ ?_; all_goals (first | (intro ha; clear_value a) | (unfold a; clear a))) | skip)
    | split

theorem within_twinMeasure {μ : Nat} {σ x : State} (m : Meas)  (hμ : Nat.land 119502397667553653918404929110408893126226329704894660566738819897501935736586396555349518887202250184938897782439461555304663002405528663846397980094056399634432 μ = 119502397667553653918404929110408893126226329704894660566738819897501935736586396555349518887202250184938897782439461555304663002405528663846397980094056399634432) (hw : Within μ σ x) :
    Within μ σ (twinMeasure m x) := by
  unfold twinMeasure
  repeat' first
    | with_reducible assumption
    | with_reducible apply Within.refl
    | with_reducible apply Eq.refl
    | ((with_reducible apply fun k => sub_trans k hμ); exact rfl)
    | ((with_reducible apply sub_set hμ); exact rfl)
    | ((with_reducible apply Or.inl); with_reducible apply Eq.refl)
    | ((with_reducible apply Or.inr); (with_reducible apply sub_set hμ); exact rfl)
    | intro _
    | with_reducible apply Within.ite
    | with_reducible apply within_wr
    | with_reducible apply Within.foldl
    | (extract_lets +onlyGivenNames a; first | (refine Within.cutAny (μ := μ) (σ := σ) (a := a) ?_ ?_; all_goals (first | (intro ha; clear_value a) | (unfold a; clear a))) | skip)
    | split
    | (with_reducible apply Within.upd)

theorem within_heardRenew {μ : Nat} {σ x : State} (h : JHead) (b : W64) (t1 : W64) (t3 : W64) (t4 : W64)  (hμ : Nat.land 1348820570494522909226608470726358777084741544103704436983014034414921124444915061651629805499859384839063824028888997771953048493455095104368217122071121699536895 μ = 1348820570494522909226608470726358777084741544103704436983014034414921124444915061651629805499859384839063824028888997771953048493455095104368217122071121699536895) (hw : Within μ σ x) :
    Within μ σ (heardRenew h b t1 t3 t4 x) := by
  unfold heardRenew
  repeat' first
    | with_reducible assumption
    | with_reducible apply Within.refl
    | with_reducible apply Eq.refl
    | ((with_reducible apply fun k => sub_trans k hμ); exact rfl)
    | ((with_reducible apply sub_set hμ); exact rfl)
    | ((with_reducible apply Or.inl); with_reducible apply Eq.refl)
    | ((with_reducible apply Or.inr); (with_reducible apply sub_set hμ); exact rfl)
    | intro _
    | with_reducible apply Within.ite
    | with_reducible apply within_twinMeasure
    | with_reducible apply within_sendAck
    | with_reducible apply within_receive
    | with_reducible apply Within.foldl
    | (extract_lets +onlyGivenNames a; first | (refine Within.cutAny (μ := μ) (σ := σ) (a := a) ?_ ?_; all_goals (first | (intro ha; clear_value a) | (unfold a; clear a))) | skip)
    | split
    | (with_reducible apply Within.upd)

theorem within_standbyToWait {μ : Nat} {σ x : State}   (hμ : Nat.land 1320698900064182006643990914954871853358505047437935745188642859407244594165447260783461029272004599524134391214902812130717845720118369333701290891576796675852288 μ = 1320698900064182006643990914954871853358505047437935745188642859407244594165447260783461029272004599524134391214902812130717845720118369333701290891576796675852288) (hw : Within μ σ x) :
    Within μ σ (standbyToWait x) := by
  unfold standbyToWait
  repeat' first
    | with_reducible assumption
    | with_reducible apply Within.refl
    | with_reducible apply Eq.refl
    | ((with_reducible apply fun k => sub_trans k hμ); exact rfl)
    | ((with_reducible apply sub_set hμ); exact rfl)
    | intro _
    | with_reducible apply Within.ite
    | with_reducible apply within_beginTrans
    | with_reducible apply within_disableAll
    | with_reducible apply within_setRole
    | with_reducible apply within_leaseGone
    | with_reducible apply within_followDomain
    | with_reducible apply Within.foldl
    | (extract_lets +onlyGivenNames a; first | (refine Within.cutAny (μ := μ) (σ := σ) (a := a) ?_ ?_; all_goals (first | (intro ha; clear_value a) | (unfold a; clear a))) | skip)
    | split

theorem within_acquire {μ : Nat} {σ x : State} (f : FClock)  (hμ : Nat.land 1348820570494522909226608470726358777084741544103704436983014034414921124444915061651629805499859384839063824028888997771953048493455095104368217122071121699536895 μ = 1348820570494522909226608470726358777084741544103704436983014034414921124444915061651629805499859384839063824028888997771953048493455095104368217122071121699536895) (hw : Within μ σ x) :
    Within μ σ (acquire f x) := by
  unfold acquire
  repeat' first
    | with_reducible assumption
    | with_reducible apply Within.refl
    | with_reducible apply Eq.refl
    | ((with_reducible apply fun k => sub_trans k hμ); exact rfl)
    | ((with_reducible apply sub_set hμ); exact rfl)
    | ((with_reducible apply Or.inl); with_reducible apply Eq.refl)
    | ((with_reducible apply Or.inr); (with_reducible apply sub_set hμ); exact rfl)
    | intro _
    | with_reducible apply Within.ite
    | with_reducible apply within_finishJournal
    | with_reducible apply within_wr
    | with_reducible apply within_setRole
    | with_reducible apply within_commitOverdue
    | with_reducible apply within_endWait
    | with_reducible apply Within.foldl
    | (extract_lets +onlyGivenNames a; first | (refine Within.cutAny (μ := μ) (σ := σ) (a := a) ?_ ?_; all_goals (first | (intro ha; clear_value a) | (unfold a; clear a))) | skip)
    | split
    | (with_reducible apply Within.upd)

theorem within_expire {μ : Nat} {σ x : State} (f : FClock)  (hμ : Nat.land 1798711949948842547507662321494956962971711255933896100293089591676104882512063848683533874110248470554055915092241087284273875099004525073269068640157638085050367 μ = 1798711949948842547507662321494956962971711255933896100293089591676104882512063848683533874110248470554055915092241087284273875099004525073269068640157638085050367) (hw : Within μ σ x) :
    Within μ σ (expire f x) := by
  unfold expire
  repeat' first
    | with_reducible assumption
    | with_reducible apply Within.refl
    | with_reducible apply Eq.refl
    | ((with_reducible apply fun k => sub_trans k hμ); exact rfl)
    | ((with_reducible apply sub_set hμ); exact rfl)
    | intro _
    | with_reducible apply Within.ite
    | with_reducible apply within_twinEvent
    | with_reducible apply within_enterSafe
    | with_reducible apply within_setRole
    | with_reducible apply within_standbyToWait
    | with_reducible apply within_acquire
    | with_reducible apply within_followDomain
    | with_reducible apply Within.foldl
    | (extract_lets +onlyGivenNames a; first | (refine Within.cutAny (μ := μ) (σ := σ) (a := a) ?_ ?_; all_goals (first | (intro ha; clear_value a) | (unfold a; clear a))) | skip)
    | split

theorem within_lapseToIdle {μ : Nat} {σ x : State}   (hμ : Nat.land 1313669347260208262295849448536612506704021145690589000449422928825038597945648060986087528201692706646535279589524969048240445398759166370747924011342984275576832 μ = 1313669347260208262295849448536612506704021145690589000449422928825038597945648060986087528201692706646535279589524969048240445398759166370747924011342984275576832) (hw : Within μ σ x) :
    Within μ σ (lapseToIdle x) := by
  unfold lapseToIdle
  repeat' first
    | with_reducible assumption
    | with_reducible apply Within.refl
    | with_reducible apply Eq.refl
    | ((with_reducible apply fun k => sub_trans k hμ); exact rfl)
    | ((with_reducible apply sub_set hμ); exact rfl)
    | intro _
    | with_reducible apply Within.ite
    | with_reducible apply within_beginTrans
    | with_reducible apply within_lapse
    | with_reducible apply Within.foldl
    | (extract_lets +onlyGivenNames a; first | (refine Within.cutAny (μ := μ) (σ := σ) (a := a) ?_ ?_; all_goals (first | (intro ha; clear_value a) | (unfold a; clear a))) | skip)
    | split

theorem within_twinCmdWrite {μ : Nat} {σ x : State} (v : W32)  (hμ : Nat.land 1348817111280076984036556780627909239976440654427322724145522581736068644229795302676509790616290457777979480000669585658551928224953329622153170942189678129840127 μ = 1348817111280076984036556780627909239976440654427322724145522581736068644229795302676509790616290457777979480000669585658551928224953329622153170942189678129840127) (hw : Within μ σ x) :
    Within μ σ (twinCmdWrite v x) := by
  unfold twinCmdWrite
  repeat' first
    | with_reducible assumption
    | with_reducible apply Within.refl
    | with_reducible apply Eq.refl
    | ((with_reducible apply fun k => sub_trans k hμ); exact rfl)
    | ((with_reducible apply sub_set hμ); exact rfl)
    | intro _
    | with_reducible apply Within.ite
    | with_reducible apply within_lapseToIdle
    | with_reducible apply within_sendRecord
    | with_reducible apply within_becomeActive
    | with_reducible apply within_enterCopy
    | with_reducible apply within_beginTrans
    | with_reducible apply within_setRole
    | with_reducible apply within_resetRender
    | with_reducible apply Within.foldl
    | (extract_lets +onlyGivenNames a; first | (refine Within.cutAny (μ := μ) (σ := σ) (a := a) ?_ ?_; all_goals (first | (intro ha; clear_value a) | (unfold a; clear a))) | skip)
    | split

theorem within_twinLaneTo {μ : Nat} {σ x : State} (lane : ℕ) (up : Bool)  (hμ : Nat.land 3529364097014649719715069748327721287828648423686176893604928525953767389164319917797510977411866056449753649667506303099905795971325873303385420783458352908288 μ = 3529364097014649719715069748327721287828648423686176893604928525953767389164319917797510977411866056449753649667506303099905795971325873303385420783458352908288) (hw : Within μ σ x) :
    Within μ σ (twinLaneTo lane up x) := by
  unfold twinLaneTo
  repeat' first
    | with_reducible assumption
    | with_reducible apply Within.refl
    | with_reducible apply Eq.refl
    | ((with_reducible apply fun k => sub_trans k hμ); exact rfl)
    | ((with_reducible apply sub_set hμ); exact rfl)
    | intro _
    | with_reducible apply Within.ite
    | with_reducible apply within_put
    | with_reducible apply within_twinEvent
    | with_reducible apply Within.foldl
    | (extract_lets +onlyGivenNames a; first | (refine Within.cutAny (μ := μ) (σ := σ) (a := a) ?_ ?_; all_goals (first | (intro ha; clear_value a) | (unfold a; clear a))) | skip)
    | split

theorem within_wholePicture {μ : Nat} {σ x : State}   (hμ : Nat.land 28118211215894977392565865673037386617935606989386978956879722328823984879196799189494004288149317857187005691459505594520051662846839373056303219880407274094592 μ = 28118211215894977392565865673037386617935606989386978956879722328823984879196799189494004288149317857187005691459505594520051662846839373056303219880407274094592) (hw : Within μ σ x) :
    Within μ σ (wholePicture x) := by
  unfold wholePicture
  repeat' first
    | with_reducible assumption
    | with_reducible apply Within.refl
    | with_reducible apply Eq.refl
    | ((with_reducible apply fun k => sub_trans k hμ); exact rfl)
    | ((with_reducible apply sub_set hμ); exact rfl)
    | ((with_reducible apply Or.inl); with_reducible apply Eq.refl)
    | ((with_reducible apply Or.inr); (with_reducible apply sub_set hμ); exact rfl)
    | intro _
    | with_reducible apply Within.ite
    | with_reducible apply within_setEp
    | with_reducible apply Within.forEach
    | with_reducible apply Within.foldl
    | (extract_lets +onlyGivenNames a; first | (refine Within.cutAny (μ := μ) (σ := σ) (a := a) ?_ ?_; all_goals (first | (intro ha; clear_value a) | (unfold a; clear a))) | skip)
    | split
    | (with_reducible apply Within.upd)

theorem within_copyAlloc {μ : Nat} {σ x : State} (base : ℕ) (ws : List Sys2Proof.W32)  (hμ : Nat.land 3529364097014649719715069748327721287828648423686176893604928525953767389164319917797510975255070323077702466094145096138335342080354319500139622301766602737664 μ = 3529364097014649719715069748327721287828648423686176893604928525953767389164319917797510975255070323077702466094145096138335342080354319500139622301766602737664) (hw : Within μ σ x) :
    Within μ σ (copyAlloc base ws x) := by
  unfold copyAlloc
  repeat' first
    | with_reducible assumption
    | with_reducible apply Within.refl
    | with_reducible apply Eq.refl
    | ((with_reducible apply fun k => sub_trans k hμ); exact rfl)
    | ((with_reducible apply sub_set hμ); exact rfl)
    | ((with_reducible apply Or.inl); with_reducible apply Eq.refl)
    | ((with_reducible apply Or.inr); (with_reducible apply sub_set hμ); exact rfl)
    | intro _
    | with_reducible apply Within.ite
    | with_reducible apply within_refreshCtx
    | with_reducible apply Within.foldl
    | (extract_lets +onlyGivenNames a; first | (refine Within.cutAny (μ := μ) (σ := σ) (a := a) ?_ ?_; all_goals (first | (intro ha; clear_value a) | (unfold a; clear a))) | skip)
    | split
    | (with_reducible apply Within.upd)

theorem within_copyClock {μ : Nat} {σ x : State} (n : ℕ) (ws : List Sys2Proof.W32)  (hμ : Nat.land 7029552803973744348141466418259346654483901747346744739219930582205996219799199797373501072037329464296751422864876398630012915711709843264075804970101818523648 μ = 7029552803973744348141466418259346654483901747346744739219930582205996219799199797373501072037329464296751422864876398630012915711709843264075804970101818523648) (hw : Within μ σ x) :
    Within μ σ (copyClock n ws x) := by
  unfold copyClock
  repeat' first
    | with_reducible assumption
    | with_reducible apply Within.refl
    | with_reducible apply Eq.refl
    | ((with_reducible apply fun k => sub_trans k hμ); exact rfl)
    | ((with_reducible apply sub_set hμ); exact rfl)
    | intro _
    | with_reducible apply Within.ite
    | with_reducible apply within_setFc
    | with_reducible apply Within.foldl
    | (extract_lets +onlyGivenNames a; first | (refine Within.cutAny (μ := μ) (σ := σ) (a := a) ?_ ?_; all_goals (first | (intro ha; clear_value a) | (unfold a; clear a))) | skip)
    | split

theorem within_copyLayer {μ : Nat} {σ x : State} (n : ℕ) (ws : List Sys2Proof.W32)  (hμ : Nat.land 3529364097014649719715069748327721287828648423686176893604928525953767389164319917797510975255070323077702466094145096138335342080354319500139622301766602868736 μ = 3529364097014649719715069748327721287828648423686176893604928525953767389164319917797510975255070323077702466094145096138335342080354319500139622301766602868736) (hw : Within μ σ x) :
    Within μ σ (copyLayer n ws x) := by
  unfold copyLayer
  repeat' first
    | with_reducible assumption
    | with_reducible apply Within.refl
    | with_reducible apply Eq.refl
    | ((with_reducible apply fun k => sub_trans k hμ); exact rfl)
    | ((with_reducible apply sub_set hμ); exact rfl)
    | intro _
    | with_reducible apply Within.ite
    | with_reducible apply within_refreshCtx
    | with_reducible apply within_wr
    | with_reducible apply within_setLayer
    | with_reducible apply Within.foldl
    | (extract_lets +onlyGivenNames a; first | (refine Within.cutAny (μ := μ) (σ := σ) (a := a) ?_ ?_; all_goals (first | (intro ha; clear_value a) | (unfold a; clear a))) | skip)
    | split

theorem within_copyBlock {μ : Nat} {σ x : State} (kind : ℕ) (index : ℕ) (data : List Byte)  (hμ : Nat.land 1179229149884210401637643903287402501937016524772582507311841756440348985427139607564874077253389884451820351924054442541602866633408329653407342147285971757957119 μ = 1179229149884210401637643903287402501937016524772582507311841756440348985427139607564874077253389884451820351924054442541602866633408329653407342147285971757957119) (hw : Within μ σ x) :
    Within μ σ (copyBlock kind index data x) := by
  unfold copyBlock
  repeat' first
    | with_reducible assumption
    | with_reducible apply Within.refl
    | with_reducible apply Eq.refl
    | ((with_reducible apply fun k => sub_trans k hμ); exact rfl)
    | ((with_reducible apply sub_set hμ); exact rfl)
    | ((with_reducible apply Or.inl); with_reducible apply Eq.refl)
    | ((with_reducible apply Or.inr); (with_reducible apply sub_set hμ); exact rfl)
    | intro _
    | with_reducible apply Within.ite
    | with_reducible apply within_copyReg
    | with_reducible apply within_applyEpstate
    | with_reducible apply within_fmemPut
    | with_reducible apply within_copyChange
    | with_reducible apply within_copyAlloc
    | with_reducible apply within_copyClock
    | with_reducible apply within_copyLayer
    | with_reducible apply Within.forEach
    | with_reducible apply Within.foldl
    | (extract_lets +onlyGivenNames a; first | (refine Within.cutAny (μ := μ) (σ := σ) (a := a) ?_ ?_; all_goals (first | (intro ha; clear_value a) | (unfold a; clear a))) | skip)
    | split
    | (with_reducible apply Within.upd)

theorem within_twinCtrlWrite {μ : Nat} {σ x : State} (pf : Bool) (v : W32)  (hμ : Nat.land 112472844863579909570263462692149546471742427957547915827518889315295939516787196757976017153136470362091035561731362679820599264860100380676024329143701301362688 μ = 112472844863579909570263462692149546471742427957547915827518889315295939516787196757976017153136470362091035561731362679820599264860100380676024329143701301362688) (hw : Within μ σ x) :
    Within μ σ (twinCtrlWrite pf v x) := by
  unfold twinCtrlWrite
  repeat' first
    | with_reducible assumption
    | with_reducible apply Within.refl
    | with_reducible apply Eq.refl
    | ((with_reducible apply fun k => sub_trans k hμ); exact rfl)
    | ((with_reducible apply sub_set hμ); exact rfl)
    | ((with_reducible apply Or.inl); with_reducible apply Eq.refl)
    | ((with_reducible apply Or.inr); (with_reducible apply sub_set hμ); exact rfl)
    | intro _
    | with_reducible apply Within.ite
    | with_reducible apply within_plainWrite
    | with_reducible apply within_put
    | with_reducible apply within_setRole
    | with_reducible apply within_leaseGone
    | with_reducible apply Within.foldl
    | (extract_lets +onlyGivenNames a; first | (refine Within.cutAny (μ := μ) (σ := σ) (a := a) ?_ ?_; all_goals (first | (intro ha; clear_value a) | (unfold a; clear a))) | skip)
    | split
    | (with_reducible apply Within.upd)

/-! ## Bus -/

theorem within_measWrite {μ : Nat} {σ x : State} (fn : ℕ) (d : ℕ) (k : ℕ) (v : W32)  (hμ : Nat.land 26328072917139296674479506920917608079723773850137277813577744384 μ = 26328072917139296674479506920917608079723773850137277813577744384) (hw : Within μ σ x) :
    Within μ σ (measWrite fn d k v x) := by
  unfold measWrite
  repeat' first
    | with_reducible assumption
    | with_reducible apply Within.refl
    | with_reducible apply Eq.refl
    | ((with_reducible apply fun k => sub_trans k hμ); exact rfl)
    | ((with_reducible apply sub_set hμ); exact rfl)
    | intro _
    | with_reducible apply Within.ite
    | with_reducible apply within_plainWrite
    | with_reducible apply Within.foldl
    | (extract_lets +onlyGivenNames a; first | (refine Within.cutAny (μ := μ) (σ := σ) (a := a) ?_ ?_; all_goals (first | (intro ha; clear_value a) | (unfold a; clear a))) | skip)
    | split

theorem within_bootGoWrite {μ : Nat} {σ x : State} (fn : ℕ)  (hμ : Nat.land 224945689727159819140526925384299092943484855915095831655037778630591879033574393516067826394431859052919616516684732664013683287440355548489883343051171322396672 μ = 224945689727159819140526925384299092943484855915095831655037778630591879033574393516067826394431859052919616516684732664013683287440355548489883343051171322396672) (hw : Within μ σ x) :
    Within μ σ (bootGoWrite fn x) := by
  unfold bootGoWrite
  repeat' first
    | with_reducible assumption
    | with_reducible apply Within.refl
    | with_reducible apply Eq.refl
    | ((with_reducible apply fun k => sub_trans k hμ); exact rfl)
    | ((with_reducible apply sub_set hμ); exact rfl)
    | ((with_reducible apply Or.inl); with_reducible apply Eq.refl)
    | ((with_reducible apply Or.inr); (with_reducible apply sub_set hμ); exact rfl)
    | intro _
    | with_reducible apply Within.ite
    | with_reducible apply within_wr
    | with_reducible apply Within.foldl
    | (extract_lets +onlyGivenNames a; first | (refine Within.cutAny (μ := μ) (σ := σ) (a := a) ?_ ?_; all_goals (first | (intro ha; clear_value a) | (unfold a; clear a))) | skip)
    | split
    | (with_reducible apply Within.upd)

theorem within_ppsChange {μ : Nat} {σ x : State} (i : ℕ) (f : Sys2Proof.Machine.State → Sys2Proof.Machine.State) (hf : ∀ y, Within μ σ y → Within μ σ (f y)) (hμ : Nat.land 7029552803973744348141466418259346654483901747346744739219930582205996219799199797373501072037329464296751422864876398630012915711709843264075804970101818523648 μ = 7029552803973744348141466418259346654483901747346744739219930582205996219799199797373501072037329464296751422864876398630012915711709843264075804970101818523648) (hw : Within μ σ x) :
    Within μ σ (ppsChange i f x) := by
  unfold ppsChange
  repeat' first
    | with_reducible assumption
    | with_reducible apply Within.refl
    | with_reducible apply Eq.refl
    | ((with_reducible apply fun k => sub_trans k hμ); exact rfl)
    | ((with_reducible apply sub_set hμ); exact rfl)
    | ((with_reducible apply Or.inl); with_reducible apply Eq.refl)
    | ((with_reducible apply Or.inr); (with_reducible apply sub_set hμ); exact rfl)
    | (apply hf)
    | intro _
    | with_reducible apply Within.ite
    | with_reducible apply Within.foldl
    | (extract_lets +onlyGivenNames a; first | (refine Within.cutAny (μ := μ) (σ := σ) (a := a) ?_ ?_; all_goals (first | (intro ha; clear_value a) | (unfold a; clear a))) | skip)
    | split
    | (with_reducible apply Within.upd)

theorem within_controlEffect {μ : Nat} {σ x : State} (fn : ℕ) (r : RegId) (i : ℕ) (j : ℕ) (v : W32) (hr : μ.testBit r.num = true) (hμ : Nat.land 1799565383739199253698244407334142761489417572527108447316368451809120660236106090095701267013075390291035241000078373494382818241153271096339299034784173349928959 μ = 1799565383739199253698244407334142761489417572527108447316368451809120660236106090095701267013075390291035241000078373494382818241153271096339299034784173349928959) (hw : Within μ σ x) :
    Within μ σ (controlEffect fn r i j v x) := by
  unfold controlEffect
  repeat' first
    | with_reducible assumption
    | with_reducible apply Within.refl
    | with_reducible apply Eq.refl
    | ((with_reducible apply fun k => sub_trans k hμ); exact rfl)
    | ((with_reducible apply sub_set hμ); exact rfl)
    | ((with_reducible apply Or.inl); with_reducible apply Eq.refl)
    | ((with_reducible apply Or.inr); (with_reducible apply sub_set hμ); exact rfl)
    | exact hr
    | intro _
    | with_reducible apply Within.ite
    | with_reducible apply within_semWrite
    | with_reducible apply within_semForceWrite
    | with_reducible apply within_paySupplyEvent
    | with_reducible apply within_ringCtrlWrite
    | with_reducible apply within_ringTailEffect
    | with_reducible apply within_ringHeadEffect
    | with_reducible apply within_plainWrite
    | with_reducible apply within_macCtrlWrite
    | with_reducible apply within_t1sCtrlWrite
    | with_reducible apply within_eeeCfgWrite
    | with_reducible apply within_gateCtrlWrite
    | with_reducible apply within_flowCtrlWrite
    | with_reducible apply within_rdmCtrlWrite
    | with_reducible apply within_timeCtrlWrite
    | with_reducible apply within_setGoWrite
    | with_reducible apply within_domCfgWrite
    | with_reducible apply within_annKickWrite
    | with_reducible apply within_measWrite
    | with_reducible apply within_measPushWrite
    | with_reducible apply within_tsqCtrlWrite
    | with_reducible apply within_twinCtrlWrite
    | with_reducible apply within_twinCmdWrite
    | with_reducible apply within_pwrCmdWrite
    | with_reducible apply within_pwrCtrlWrite
    | with_reducible apply within_bootGoWrite
    | with_reducible apply within_bistCmdWrite
    | with_reducible apply within_otpProgram
    | with_reducible apply within_lcRequest
    | with_reducible apply within_snapCounters
    | with_reducible apply within_tagCtrlWrite
    | with_reducible apply within_bwCtrlWrite
    | with_reducible apply within_calStore
    | with_reducible apply within_ppsChange
    | with_reducible apply Within.foldl
    | (extract_lets +onlyGivenNames a; first | (refine Within.cutAny (μ := μ) (σ := σ) (a := a) ?_ ?_; all_goals (first | (intro ha; clear_value a) | (unfold a; clear a))) | skip)
    | split
    | (with_reducible apply Within.upd)

theorem within_busEffect {μ : Nat} {σ x : State} (fn : ℕ) (r : RegId) (i : ℕ) (j : ℕ) (v : W32) (hr : μ.testBit r.num = true) (hμ : Nat.land 1799565383739199253698244407334142761489417572527108447316368451809120660236106090095701267013075390291035241000078373494382818241153271096339299034784173349928959 μ = 1799565383739199253698244407334142761489417572527108447316368451809120660236106090095701267013075390291035241000078373494382818241153271096339299034784173349928959) (hw : Within μ σ x) :
    Within μ σ (busEffect fn r i j v x) := by
  unfold busEffect
  repeat' first
    | with_reducible assumption
    | with_reducible apply Within.refl
    | with_reducible apply Eq.refl
    | ((with_reducible apply fun k => sub_trans k hμ); exact rfl)
    | ((with_reducible apply sub_set hμ); exact rfl)
    | exact hr
    | intro _
    | with_reducible apply Within.ite
    | with_reducible apply within_renderEffect
    | with_reducible apply within_controlEffect
    | with_reducible apply Within.foldl
    | (extract_lets +onlyGivenNames a; first | (refine Within.cutAny (μ := μ) (σ := σ) (a := a) ?_ ?_; all_goals (first | (intro ha; clear_value a) | (unfold a; clear a))) | skip)
    | split

theorem within_busWrite {μ : Nat} {σ x : State} (fn : ℕ) (off : ℕ) (v : W32)  (hμ : Nat.land 1799565383739199253698244407334142761489417572527108447316368451809120660236106090095701267013075390291035241000078373494382818241153271096339299034784173349928959 μ = 1799565383739199253698244407334142761489417572527108447316368451809120660236106090095701267013075390291035241000078373494382818241153271096339299034784173349928959) (hw : Within μ σ x) :
    Within μ σ (busWrite fn off v x) := by
  unfold busWrite
  repeat' first
    | with_reducible assumption
    | with_reducible apply Within.refl
    | with_reducible apply Eq.refl
    | ((with_reducible apply fun k => sub_trans k hμ); exact rfl)
    | ((with_reducible apply sub_set hμ); exact rfl)
    | exact sub_set (sub_trans rfl hμ) (all_reg _)
    | intro _
    | with_reducible apply Within.ite
    | with_reducible apply within_hostWrite
    | with_reducible apply within_busEffect
    | with_reducible apply within_denied
    | with_reducible apply Within.foldl
    | (extract_lets +onlyGivenNames a; first | (refine Within.cutAny (μ := μ) (σ := σ) (a := a) ?_ ?_; all_goals (first | (intro ha; clear_value a) | (unfold a; clear a))) | skip)
    | split

theorem within_sizedWrite {μ : Nat} {σ x : State} (fn : ℕ) (off : ℕ) (v : W32) (size : ℕ)  (hμ : Nat.land 1799565383739199253698244407334142761489417572527108447316368451809120660236106090095701267013075390291035241000078373494382818241153271096339299034784173349928959 μ = 1799565383739199253698244407334142761489417572527108447316368451809120660236106090095701267013075390291035241000078373494382818241153271096339299034784173349928959) (hw : Within μ σ x) :
    Within μ σ (sizedWrite fn off v size x) := by
  unfold sizedWrite
  repeat' first
    | with_reducible assumption
    | with_reducible apply Within.refl
    | with_reducible apply Eq.refl
    | ((with_reducible apply fun k => sub_trans k hμ); exact rfl)
    | ((with_reducible apply sub_set hμ); exact rfl)
    | intro _
    | with_reducible apply Within.ite
    | with_reducible apply within_busWrite
    | with_reducible apply Within.foldl
    | (extract_lets +onlyGivenNames a; first | (refine Within.cutAny (μ := μ) (σ := σ) (a := a) ?_ ?_; all_goals (first | (intro ha; clear_value a) | (unfold a; clear a))) | skip)
    | split

theorem within_busTieSet {μ : Nat} {σ x : State} (loser : ℕ)  (hμ : Nat.land 3514776401986872174070733209129673327241950873673372369609965291102998109899599898686750536018664732148375711432438199315006457855854921632037902485050909261824 μ = 3514776401986872174070733209129673327241950873673372369609965291102998109899599898686750536018664732148375711432438199315006457855854921632037902485050909261824) (hw : Within μ σ x) :
    Within μ σ (busTieSet loser x) := by
  unfold busTieSet
  repeat' first
    | with_reducible assumption
    | with_reducible apply Within.refl
    | with_reducible apply Eq.refl
    | ((with_reducible apply fun k => sub_trans k hμ); exact rfl)
    | ((with_reducible apply sub_set hμ); exact rfl)
    | ((with_reducible apply Or.inl); with_reducible apply Eq.refl)
    | ((with_reducible apply Or.inr); (with_reducible apply sub_set hμ); exact rfl)
    | intro _
    | with_reducible apply Within.ite
    | with_reducible apply Within.foldl
    | (extract_lets +onlyGivenNames a; first | (refine Within.cutAny (μ := μ) (σ := σ) (a := a) ?_ ?_; all_goals (first | (intro ha; clear_value a) | (unfold a; clear a))) | skip)
    | split
    | (with_reducible apply Within.upd)

theorem within_busRead {μ : Nat} {σ x : State} (fn : ℕ) (r : RegId) (i : ℕ) (j : ℕ)  (hμ : Nat.land 59765786528804604504846801094402494523699862402460134807364373183601802332709161000340280141815735137552867496001753595138459024268412405814338488830581945663487 μ = 59765786528804604504846801094402494523699862402460134807364373183601802332709161000340280141815735137552867496001753595138459024268412405814338488830581945663487) (hw : Within μ σ x) :
    Within μ σ (busRead fn r i j x).1 := by
  unfold busRead
  repeat' first
    | with_reducible assumption
    | with_reducible apply Within.refl
    | with_reducible apply Eq.refl
    | ((with_reducible apply fun k => sub_trans k hμ); exact rfl)
    | ((with_reducible apply sub_set hμ); exact rfl)
    | exact sub_set (sub_trans rfl hμ) (all_reg _)
    | intro _
    | with_reducible apply Within.ite
    | with_reducible apply within_semRead
    | with_reducible apply within_otLoRead
    | with_reducible apply within_nextLoRead
    | with_reducible apply within_ppsInLoRead
    | with_reducible apply within_slowLoRead
    | with_reducible apply within_cntLoRead
    | with_reducible apply within_mordRead
    | with_reducible apply within_tsqPopRead
    | with_reducible apply within_wr
    | with_reducible apply Within.foldl
    | (extract_lets +onlyGivenNames a; first | (refine Within.cutAny (μ := μ) (σ := σ) (a := a) ?_ ?_; all_goals (first | (intro ha; clear_value a) | (unfold a; clear a))) | skip)
    | split

/-! ## Boot -/

theorem within_bootReject {μ : Nat} {σ x : State} (src : ℕ) (err : ℕ)  (hμ : Nat.land 1763560726714527900576903299305210692590990857520780663759498486086222356012796855702996993559944658061704261356564909967806910196145991153635808116209767189334016 μ = 1763560726714527900576903299305210692590990857520780663759498486086222356012796855702996993559944658061704261356564909967806910196145991153635808116209767189334016) (hw : Within μ σ x) :
    Within μ σ (bootReject src err x) := by
  unfold bootReject
  repeat' first
    | with_reducible assumption
    | with_reducible apply Within.refl
    | with_reducible apply Eq.refl
    | ((with_reducible apply fun k => sub_trans k hμ); exact rfl)
    | ((with_reducible apply sub_set hμ); exact rfl)
    | ((with_reducible apply Or.inl); with_reducible apply Eq.refl)
    | ((with_reducible apply Or.inr); (with_reducible apply sub_set hμ); exact rfl)
    | intro _
    | with_reducible apply Within.ite
    | with_reducible apply within_raise0
    | with_reducible apply within_put
    | with_reducible apply within_enterSafe
    | with_reducible apply Within.foldl
    | (extract_lets +onlyGivenNames a; first | (refine Within.cutAny (μ := μ) (σ := σ) (a := a) ?_ ?_; all_goals (first | (intro ha; clear_value a) | (unfold a; clear a))) | skip)
    | split
    | (with_reducible apply Within.upd)

theorem within_loadRegs {μ : Nat} {σ : State} (l : List W32) (x : State) (hμ : Nat.land 1799565383739199253698244407334142761489417572527108447316368451809120660236106090095701267013075390291035241000078373494382818241153271096339299034784173349928959 μ = 1799565383739199253698244407334142761489417572527108447316368451809120660236106090095701267013075390291035241000078373494382818241153271096339299034784173349928959) (hw : Within μ σ x) :
    Within μ σ (loadRegs l x) := by
  fun_induction loadRegs l x with
  | case1 s off v rest ih => exact ih (within_busWrite _ _ _ (sub_trans rfl hμ) hw)
  | case2 s l => exact hw

theorem within_loadProg {μ : Nat} {σ x : State} (n : ℕ) (p : List W32)  (hμ : Nat.land 131941395333120 μ = 131941395333120) (hw : Within μ σ x) :
    Within μ σ (loadProg n p x) := by
  unfold loadProg
  repeat' first
    | with_reducible assumption
    | with_reducible apply Within.refl
    | with_reducible apply Eq.refl
    | ((with_reducible apply fun k => sub_trans k hμ); exact rfl)
    | ((with_reducible apply sub_set hμ); exact rfl)
    | intro _
    | with_reducible apply Within.ite
    | with_reducible apply within_plainWrite
    | with_reducible apply within_put
    | with_reducible apply Within.foldl
    | (extract_lets +onlyGivenNames a; first | (refine Within.cutAny (μ := μ) (σ := σ) (a := a) ?_ ?_; all_goals (first | (intro ha; clear_value a) | (unfold a; clear a))) | skip)
    | split

/-- What a record of a boot image leaves alone. -/
theorem within_imageRecord {μ : Nat} {σ x t : State} (k : Nat) (lo hi : W32) (p : List W32) (ht : imageRecord k lo hi p x = some t)
    (hμ : Nat.land 1799565383739199253698244407334142761489417572527108447316368451809120660236106090095701267013075390291035241000078373494382818241153271096339299034784173349928959 μ = 1799565383739199253698244407334142761489417572527108447316368451809120660236106090095701267013075390291035241000078373494382818241153271096339299034784173349928959) (hw : Within μ σ x) : Within μ σ t := by
  unfold imageRecord at ht
  extract_lets addr at ht
  split at ht
  · split at ht
    · cases ht; exact within_loadRegs _ _ (sub_trans rfl hμ) hw
    · cases ht
  · split at ht
    · cases ht; exact within_fmemPut _ _ (sub_trans rfl hμ) hw
    · cases ht
  · split at ht
    · cases ht; exact within_loadProg _ _ (sub_trans rfl hμ) hw
    · cases ht
  · cases ht
theorem within_loadBody {μ : Nat} {σ : State} (k : Nat) (l : List W32) (x : State) (hμ : Nat.land 1799565383739199253698244407334142761489417572527108447316368451809120660236106090095701267013075390291035241000078373494382818241153271096339299034784173349928959 μ = 1799565383739199253698244407334142761489417572527108447316368451809120660236106090095701267013075390291035241000078373494382818241153271096339299034784173349928959) (hw : Within μ σ x) :
    Within μ σ (loadBody k l x).1 := by
  fun_induction loadBody k l x with
  | case1 => exact hw
  | case2 => exact hw
  | case3 => exact hw
  | case4 => exact hw
  | case5 => rename_i ht ih; exact ih (within_imageRecord _ _ _ _ ht (sub_trans rfl hμ) hw)

theorem within_bootDone {μ : Nat} {σ x : State} (src : ℕ)  (hμ : Nat.land 228475053824174468860241995132626814231313504338782008548642707156545646422738713433865340903381058932765978149373879245989050284488503619227939208558743440607232 μ = 228475053824174468860241995132626814231313504338782008548642707156545646422738713433865340903381058932765978149373879245989050284488503619227939208558743440607232) (hw : Within μ σ x) :
    Within μ σ (bootDone src x) := by
  unfold bootDone
  repeat' first
    | with_reducible assumption
    | with_reducible apply Within.refl
    | with_reducible apply Eq.refl
    | ((with_reducible apply fun k => sub_trans k hμ); exact rfl)
    | ((with_reducible apply sub_set hμ); exact rfl)
    | ((with_reducible apply Or.inl); with_reducible apply Eq.refl)
    | ((with_reducible apply Or.inr); (with_reducible apply sub_set hμ); exact rfl)
    | intro _
    | with_reducible apply Within.ite
    | with_reducible apply within_put
    | with_reducible apply within_raise0
    | with_reducible apply within_enterMode
    | with_reducible apply Within.foldl
    | (extract_lets +onlyGivenNames a; first | (refine Within.cutAny (μ := μ) (σ := σ) (a := a) ?_ ?_; all_goals (first | (intro ha; clear_value a) | (unfold a; clear a))) | skip)
    | split
    | (with_reducible apply Within.upd)

theorem within_takeImage {μ : Nat} {σ x : State} (src : ℕ) (img : List Byte)  (hμ : Nat.land 1799565383739199253698244407334142761489417572527108447316368451809120660236106090095701267013075390291035241000078373494382818241153271096339299034784173349928959 μ = 1799565383739199253698244407334142761489417572527108447316368451809120660236106090095701267013075390291035241000078373494382818241153271096339299034784173349928959) (hw : Within μ σ x) :
    Within μ σ (takeImage src img x) := by
  unfold takeImage
  repeat' first
    | with_reducible assumption
    | with_reducible apply Within.refl
    | with_reducible apply Eq.refl
    | ((with_reducible apply fun k => sub_trans k hμ); exact rfl)
    | ((with_reducible apply sub_set hμ); exact rfl)
    | intro _
    | with_reducible apply Within.ite
    | with_reducible apply within_bootReject
    | with_reducible apply within_loadBody
    | with_reducible apply within_bootDone
    | with_reducible apply Within.foldl
    | (extract_lets +onlyGivenNames a; first | (refine Within.cutAny (μ := μ) (σ := σ) (a := a) ?_ ?_; all_goals (first | (intro ha; clear_value a) | (unfold a; clear a))) | skip)
    | split

theorem within_serdesLost {μ : Nat} {σ x : State}   (hμ : Nat.land 1763560726714527900576903299305210692590990857520780663759498486086222356012796855702881201470707341866280690371556222126855875807072220014203505350146938577635328 μ = 1763560726714527900576903299305210692590990857520780663759498486086222356012796855702881201470707341866280690371556222126855875807072220014203505350146938577635328) (hw : Within μ σ x) :
    Within μ σ (serdesLost x) := by
  unfold serdesLost
  repeat' first
    | with_reducible assumption
    | with_reducible apply Within.refl
    | with_reducible apply Eq.refl
    | ((with_reducible apply fun k => sub_trans k hμ); exact rfl)
    | ((with_reducible apply sub_set hμ); exact rfl)
    | ((with_reducible apply Or.inl); with_reducible apply Eq.refl)
    | ((with_reducible apply Or.inr); (with_reducible apply sub_set hμ); exact rfl)
    | intro _
    | with_reducible apply Within.ite
    | with_reducible apply within_settleLink
    | with_reducible apply within_setPort
    | with_reducible apply within_twinLaneTo
    | with_reducible apply within_nextBlock
    | with_reducible apply within_abortBlock
    | with_reducible apply Within.forEach
    | with_reducible apply Within.foldl
    | (extract_lets +onlyGivenNames a; first | (refine Within.cutAny (μ := μ) (σ := σ) (a := a) ?_ ?_; all_goals (first | (intro ha; clear_value a) | (unfold a; clear a))) | skip)
    | split
    | (with_reducible apply Within.upd)

theorem within_clockLost {μ : Nat} {σ x : State} (input : ℕ)  (hμ : Nat.land 1763560726714527900576903299305210692590990857520780663759498486086222356012796855702881201470707341866280690371556222126855875807072220014203505350146938611189760 μ = 1763560726714527900576903299305210692590990857520780663759498486086222356012796855702881201470707341866280690371556222126855875807072220014203505350146938611189760) (hw : Within μ σ x) :
    Within μ σ (clockLost input x) := by
  unfold clockLost
  repeat' first
    | with_reducible assumption
    | with_reducible apply Within.refl
    | with_reducible apply Eq.refl
    | ((with_reducible apply fun k => sub_trans k hμ); exact rfl)
    | ((with_reducible apply sub_set hμ); exact rfl)
    | intro _
    | with_reducible apply Within.ite
    | with_reducible apply within_enterSafe
    | with_reducible apply within_serdesLost
    | with_reducible apply within_pcieLinkTo
    | with_reducible apply Within.foldl
    | (extract_lets +onlyGivenNames a; first | (refine Within.cutAny (μ := μ) (σ := σ) (a := a) ?_ ?_; all_goals (first | (intro ha; clear_value a) | (unfold a; clear a))) | skip)
    | split

/-! ## Tick -/

theorem within_sendPtp {μ : Nat} {σ x : State} (ann : Bool) (p : ℕ)  (hμ : Nat.land 59765813344420464390041000242452490935392117361191775992151128630724624591085978443879473155302302371258569229076872658150540375281798689505885954923282093328384 μ = 59765813344420464390041000242452490935392117361191775992151128630724624591085978443879473155302302371258569229076872658150540375281798689505885954923282093328384) (hw : Within μ σ x) :
    Within μ σ (sendPtp ann p x) := by
  unfold sendPtp
  repeat' first
    | with_reducible assumption
    | with_reducible apply Within.refl
    | with_reducible apply Eq.refl
    | ((with_reducible apply fun k => sub_trans k hμ); exact rfl)
    | ((with_reducible apply sub_set hμ); exact rfl)
    | intro _
    | with_reducible apply Within.ite
    | with_reducible apply within_enqueue
    | with_reducible apply within_draw
    | with_reducible apply Within.foldl
    | (extract_lets +onlyGivenNames a; first | (refine Within.cutAny (μ := μ) (σ := σ) (a := a) ?_ ?_; all_goals (first | (intro ha; clear_value a) | (unfold a; clear a))) | skip)
    | split

theorem within_serveTime {μ : Nat} {σ x : State} (p : ℕ)  (hμ : Nat.land 66795366148394208738182466660711837589876019108538520731371059212930620810885178241252974227339631835555320651941749056780553290993508532769961759893383911852032 μ = 66795366148394208738182466660711837589876019108538520731371059212930620810885178241252974227339631835555320651941749056780553290993508532769961759893383911852032) (hw : Within μ σ x) :
    Within μ σ (serveTime p x) := by
  unfold serveTime
  repeat' first
    | with_reducible assumption
    | with_reducible apply Within.refl
    | with_reducible apply Eq.refl
    | ((with_reducible apply fun k => sub_trans k hμ); exact rfl)
    | ((with_reducible apply sub_set hμ); exact rfl)
    | ((with_reducible apply Or.inl); with_reducible apply Eq.refl)
    | ((with_reducible apply Or.inr); (with_reducible apply sub_set hμ); exact rfl)
    | intro _
    | with_reducible apply Within.ite
    | with_reducible apply within_sendPtp
    | with_reducible apply Within.foldl
    | (extract_lets +onlyGivenNames a; first | (refine Within.cutAny (μ := μ) (σ := σ) (a := a) ?_ ?_; all_goals (first | (intro ha; clear_value a) | (unfold a; clear a))) | skip)
    | split
    | (with_reducible apply Within.upd)

theorem within_tick {μ : Nat} {σ x : State}   (hμ : Nat.land 291823433447475595195289174854599907251968108247236072051321571405032726362660343629830479248222112147711094888726147232654055826384490479678026121330477122996224 μ = 291823433447475595195289174854599907251968108247236072051321571405032726362660343629830479248222112147711094888726147232654055826384490479678026121330477122996224) (hw : Within μ σ x) :
    Within μ σ (tick x) := by
  unfold tick
  repeat' first
    | with_reducible assumption
    | with_reducible apply Within.refl
    | with_reducible apply Eq.refl
    | ((with_reducible apply fun k => sub_trans k hμ); exact rfl)
    | ((with_reducible apply sub_set hμ); exact rfl)
    | ((with_reducible apply Or.inl); with_reducible apply Eq.refl)
    | ((with_reducible apply Or.inr); (with_reducible apply sub_set hμ); exact rfl)
    | intro _
    | with_reducible apply Within.ite
    | with_reducible apply within_slowOn
    | with_reducible apply within_selActs
    | with_reducible apply within_serveTime
    | with_reducible apply Within.forEach
    | with_reducible apply Within.foldl
    | (extract_lets +onlyGivenNames a; first | (refine Within.cutAny (μ := μ) (σ := σ) (a := a) ?_ ?_; all_goals (first | (intro ha; clear_value a) | (unfold a; clear a))) | skip)
    | split
    | (with_reducible apply Within.upd)

end Sys2Proof.Machine
end

