-- ==== Sys2Proof/Laws/Exceptions.lean ====
section
/-!
SUPPORT. How an instruction that issues ends its task: fields that are not legal, exceptions of its body, the step limit
and the end of the image (R33, R55, R85, R90).
-/

namespace Sys2Proof.Machine

theorem charged_silent (k : Nat) (us : Use) (t : Task) (s : State) : Silent s (issued k us t s) := by
  rw [issued_frame]; exact silent_of rfl rfl rfl

theorem terminates_issued {s : State} {k : Nat} {us : Use} {t : Task} (h : taskOn s k = some t) (hf : TasksFit s) (code : Nat) (info : W32)
    (hc : code < 64) {i : Instr} (hx : exec i s = .next (terminate (counted s us t) code info (issued k us t s))) :
    Terminates s t i (if code = 0x0B then 2 else 1) code info := by
  obtain ⟨a, b⟩ := taskOn_fit hf h
  have sl := charged_silent k us t s
  have := terminate_ended (counted s us t) code info (issued k us t s) (sl.fit hf) hc a b
  refine ⟨_, hx, ?_, sl.ended this.2⟩
  rw [this.1, issued_frame]; rfl

theorem illegal_of {s : State} {k : Nat} {us : Use} {t : Task} (h : Ready s k t) (hf : TasksFit s) {l : Bool} {body : Body} (hl : l = false)
    {i : Instr} (hx : exec i s = .next (issue k us l body s)) : Terminates s t i 1 1 t.pc := by
  refine terminates_issued (us := us) h.running hf 1 t.pc (by decide) ?_
  rw [hx, hl, issue_illegal h]

theorem exc_of {s : State} {k : Nat} {us : Use} {t : Task} (h : Ready s k t) (hf : TasksFit s) {l : Bool} {body : Body} (hl : l = true)
    (x : Exc) (hb : body (issued k us t s) (counted s us t) = .exc x) (h7 : x.code ≠ 7) (h8 : x.code ≠ 8) (h64 : x.code < 64)
    {i : Instr} (hx : exec i s = .next (issue k us l body s)) :
    Terminates s t i (if x.code = 0x0B then 2 else 1) x.code x.info := by
  refine terminates_issued (us := us) h.running hf _ _ h64 ?_
  rw [hx, hl, issue_legal h, hb]
  simp only [settle, raiseExc, if_neg h7, if_neg h8]

theorem terminates_now {s : State} {k : Nat} {t : Task} (h : taskOn s k = some t) (hf : TasksFit s) (code : Nat) (info : W32)
    (hc : code < 64) (h11 : code ≠ 11) {i : Instr} (hx : exec i s = .next (terminate t code info s)) :
    Terminates s t i 1 code info := by
  obtain ⟨a, b⟩ := taskOn_fit hf h
  have := terminate_ended t code info s hf hc a b
  rw [if_neg h11] at this
  exact ⟨_, hx, this.1, this.2⟩

theorem exec_issue (i : Instr) (s : State) (h : (encode i).isSome) : ∃ us l body, exec i s = .next (issue (coreOf i) us l body s) := by
  cases i
  all_goals first
    | exact ⟨_, _, _, rfl⟩
    | exact ⟨_, _, _, congrArg Host.Outcome.next (by unfold cmpBranch directBranch; rfl)⟩
    | (simp [encode, partsOf] at h)

end Sys2Proof.Machine
end

