-- ==== Sys2Proof/Laws/Lanes.lean ====
section
/-!
SUPPORT. Lanes of a type: what extending, wrapping and saturating give, and the bits of a predicate.
-/

namespace Sys2Proof.Machine

theorem sgn_mod (w v : Nat) : sgn w (v % 2 ^ w) = sgn w v := by unfold sgn; simp

theorem laneInt_eq (ty : Nat) (v : W32) :
    laneInt ty v = if typeSigned ty then sgn (typeBits ty) (laneNat ty v) else (laneNat ty v : Int) := by
  unfold laneInt laneNat; rw [sgn_mod]

/-- The low bits of an extended value. -/
theorem laneNat_extend {ty : Nat} (h : ty < 5) (x : Nat) : laneNat ty (extend ty x) = x % 2 ^ typeBits ty := by
  interval_cases ty <;> simp only [laneNat, extend, typeBits, typeBytes]
  · simp
  · simp
  · simp only [beq_self_eq_true, if_true, sgn, BitVec.toNat_ofInt]
    split <;> omega
  · simp
  · simp

theorem extended_extend {ty : Nat} (h : ty < 5) (x : Nat) : Extended ty (extend ty x) := by
  have e := laneNat_extend h x
  unfold Extended
  rw [laneInt_eq, e]
  interval_cases ty <;> simp [extend, typeSigned, typeBits, typeBytes, sgn]
  · apply BitVec.eq_of_toNat_eq
    simp only [BitVec.toNat_ofInt, BitVec.toNat_ofNat, Nat.reducePow, Nat.cast_ofNat]
    split <;> omega

/-- The signed reading differs from the unsigned one by a multiple of the width. -/
theorem sgn_cong (w v : Nat) : (sgn w v - (v : Int)) % (2 ^ w : Nat) = 0 := by
  unfold sgn
  have := Nat.div_add_mod v (2 ^ w)
  have h2 : (v : Int) = (2 ^ w : Nat) * ((v / 2 ^ w : Nat) : Int) + ((v % 2 ^ w : Nat) : Int) := by exact_mod_cast this.symm
  generalize (2 ^ w : Nat) = m at *
  split
  · rw [h2]
    have : ((v % m : Nat) : Int) - ((m : Int) * ((v / m : Nat) : Int) + ((v % m : Nat) : Int)) = (m : Int) * (-((v / m : Nat) : Int)) := by ring
    rw [this]; simp
  · rw [h2]
    have : ((v % m : Nat) : Int) - (m : Int) - ((m : Int) * ((v / m : Nat) : Int) + ((v % m : Nat) : Int)) = (m : Int) * (-((v / m : Nat) : Int) - 1) := by ring
    rw [this]; simp

theorem laneInt_cong (ty : Nat) (v : W32) : (laneInt ty v - (laneNat ty v : Int)) % (2 ^ typeBits ty : Nat) = 0 := by
  rw [laneInt_eq]
  split
  · exact sgn_cong _ _
  · simp

theorem wrap_cong (w : Nat) (x : Int) : ((wrap w x : Int) - x) % (2 ^ w : Nat) = 0 := by
  unfold wrap
  have hp : (0 : Int) < (2 ^ w : Nat) := by exact_mod_cast Nat.two_pow_pos w
  rw [Int.toNat_of_nonneg (Int.emod_nonneg _ (by omega)), Int.sub_emod, Int.emod_emod_of_dvd _ (dvd_refl _)]
  simp

/-- An integer wrapped at a type's width. -/
theorem wrapped_laneWrap {ty : Nat} (h : ty < 5) (x : Int) : Wrapped ty x (laneWrap ty x) := by
  refine ⟨extended_extend h _, ?_⟩
  have e1 := laneInt_cong ty (laneWrap ty x)
  have e2 : laneNat ty (laneWrap ty x) = wrap (typeBits ty) x % 2 ^ typeBits ty := laneNat_extend h _
  have e3 := wrap_cong (typeBits ty) x
  have e4 : wrap (typeBits ty) x % 2 ^ typeBits ty = wrap (typeBits ty) x := by
    apply Nat.mod_eq_of_lt
    have hp : (0 : Int) < (2 ^ typeBits ty : Nat) := by exact_mod_cast Nat.two_pow_pos _
    have := Int.emod_lt_of_pos x hp
    unfold wrap
    have h0 := Int.emod_nonneg x (ne_of_gt hp)
    omega
  rw [e2, e4] at e1
  have : laneInt ty (laneWrap ty x) - x = (laneInt ty (laneWrap ty x) - (wrap (typeBits ty) x : Int)) + ((wrap (typeBits ty) x : Int) - x) := by ring
  rw [this, Int.add_emod, e1, e3]; simp

/-- A lane of a type lies in the type's range. -/
theorem laneInt_range {ty : Nat} (h : ty < 5) (v : W32) : typeMin ty ≤ laneInt ty v ∧ laneInt ty v ≤ typeMax ty := by
  have : laneNat ty v < 2 ^ typeBits ty := Nat.mod_lt _ (Nat.two_pow_pos _)
  rw [laneInt_eq]
  interval_cases ty <;> simp [typeMin, typeMax, typeSigned, typeBits, typeBytes, sgn] at * <;> (try split) <;> omega

/-- An integer in the range of a type is its own wrap. -/
theorem laneInt_of_wrapped {ty : Nat} (h : ty < 5) {x : Int} {v : W32} (hw : Wrapped ty x v) (h1 : typeMin ty ≤ x) (h2 : x ≤ typeMax ty) :
    laneInt ty v = x := by
  have r := laneInt_range h v
  have c := hw.2
  generalize laneInt ty v = y at *
  interval_cases ty <;> simp [typeMin, typeMax, typeSigned, typeBits, typeBytes] at * <;> omega

theorem clampInt_eq (lo hi x : Int) (h : lo ≤ hi) : clampInt lo hi x = max lo (min hi x) := by
  unfold clampInt; split
  · omega
  · split <;> omega

/-- An integer saturated to a type's range. -/
theorem saturated_laneSat {ty : Nat} (h : ty < 5) (x : Int) : Saturated ty x (laneSat ty x) := by
  have hr : typeMin ty ≤ typeMax ty := by interval_cases ty <;> decide
  have e : laneSat ty x = laneWrap ty (max (typeMin ty) (min (typeMax ty) x)) := by
    unfold laneSat laneWrap
    simp only
    rw [clampInt_eq]
    · congr 3 <;> interval_cases ty <;> rfl
    · interval_cases ty <;> decide
  rw [e]
  have w := wrapped_laneWrap h (max (typeMin ty) (min (typeMax ty) x))
  exact ⟨w.1, laneInt_of_wrapped h w (by omega) (by omega)⟩

/-- Two lanes of one type hold one value where their low bits agree. -/
theorem wrapped_extend {ty : Nat} (h : ty < 5) (v : W32) : Wrapped ty (laneInt ty v) (extend ty (laneNat ty v)) := by
  refine ⟨extended_extend h _, ?_⟩
  have : laneInt ty (extend ty (laneNat ty v)) = laneInt ty v := by
    rw [laneInt_eq, laneInt_eq, laneNat_extend h]
    have : laneNat ty v % 2 ^ typeBits ty = laneNat ty v := by unfold laneNat; simp
    rw [this]
  rw [this]; simp

/-! ## Predicates -/

theorem predFold_bits (f : Nat → Bool) (n : Nat) :
    ∃ m, (List.range n).foldl (fun a i => if f i then a + 2 ^ i else a) 0 = m ∧ m < 2 ^ n ∧ ∀ l, l < n → m.testBit l = f l := by
  induction n with
  | zero => exact ⟨0, rfl, by simp, fun l h => by omega⟩
  | succ n ih =>
    obtain ⟨m, hm, hlt, hb⟩ := ih
    rw [List.range_succ, List.foldl_append, hm]
    simp only [List.foldl_cons, List.foldl_nil]
    cases hf : f n
    · refine ⟨m, by simp, by omega, fun l hl => ?_⟩
      by_cases e : l = n
      · subst e; rw [hf]; exact Nat.testBit_lt_two_pow hlt
      · exact hb l (by omega)
    · refine ⟨m + 2 ^ n, by simp, by omega, fun l hl => ?_⟩
      by_cases e : l = n
      · subst e; rw [hf, Nat.add_comm, Nat.testBit_two_pow_add_eq, Nat.testBit_lt_two_pow hlt]; rfl
      · have hl' : l < n := by omega
        rw [Nat.add_comm, Nat.testBit_two_pow_add_gt hl']; exact hb l hl'

/-- The bits of a predicate built from a function of the lane. -/
theorem predOf_bit (f : Nat → Bool) (l : Nat) (h : l < 16) : (predOf f).getLsbD l = f l := by
  obtain ⟨m, hm, _, hb⟩ := predFold_bits f 16
  unfold predOf lanes
  rw [hm, BitVec.getLsbD_ofNat, hb l h]
  simp [h]

/-- A compare sets the bits of the active lanes (R64). -/
theorem predMerge_bit (mask old : W16) (f : Nat → Bool) (l : Nat) (h : l < 16) :
    (predMerge mask old f).getLsbD l = if mask.getLsbD l then f l else old.getLsbD l := predOf_bit _ l h

/-- A compare of lanes. -/
theorem writesPredicate_cmp {s : State} {k : Nat} {t : Task} (h : Ready s k t) {i : Instr} {f : F} {legal : Bool}
    {val : Task → Nat → Bool} {v : Nat → Bool} (hl : legal = true) (hd : f.d.toNat < 8)
    (hx : exec i s = .next (vecCmp k f legal val s)) (hv : ∀ n u l, val (counted n u t) l = v l) :
    WritesPredicate s t i f.d.toNat (predMerge (maskOf t f) (preg t f.d.toNat) v) := by
  refine writesPredicate_of h hd
    (u := ⟨1, 1, false, false, regP f.p.toNat :: regP f.d.toNat :: (regsV f.a 1 ++ regsV f.b 1), [regP f.d.toNat]⟩)
    (g := fun t => setP f.d.toNat (predMerge (maskOf t f) (preg t f.d.toNat) (val t)) t) ?_ ?_
  · rw [hx]; unfold vecCmp; simp [hl, isPredF, hd]
  · intro n
    simp only [maskOf_counted, preg_counted]
    rw [show val (counted n _ t) = v from funext (hv n _)]

/-! ## Pairs -/

/-- The two lane writes of one packed pixel. -/
def writePacked (r : Nat) (val : Nat → Nat → Nat) (i : Nat) (t : Task) : Task :=
  setLane (r + i / 8) (2 * (i % 8) + 1) (BitVec.ofNat 32 (val 2 i + 65536 * val 3 i))
    (setLane (r + i / 8) (2 * (i % 8)) (BitVec.ofNat 32 (val 0 i + 65536 * val 1 i)) t)

theorem lane_writePacked (r : Nat) (val : Nat → Nat → Nat) (i : Nat) (t : Task) (hi : i < 16) (q l : Nat) (hl : l < 16) :
    lane (writePacked r val i t) q l = if r ≤ q ∧ q < r + 2 ∧ 8 * (q - r) + l / 2 = i then
      BitVec.ofNat 32 (val (2 * (l % 2)) i + 65536 * val (2 * (l % 2) + 1) i) else lane t q l := by
  unfold writePacked
  rw [lane_setLane _ _ _ _ _ _ (by omega) hl, lane_setLane _ _ _ _ _ _ (by omega) hl]
  by_cases h1 : q = r + i / 8 ∧ l = 2 * (i % 8) + 1
  · have : l % 2 = 1 := by omega
    rw [if_pos h1, if_pos (by omega), this]
  · rw [if_neg h1]
    by_cases h2 : q = r + i / 8 ∧ l = 2 * (i % 8)
    · have : l % 2 = 0 := by omega
      rw [if_pos h2, if_pos (by omega), this]
    · rw [if_neg h2, if_neg (by omega)]

theorem lane_writePackeds (r : Nat) (val : Nat → Nat → Nat) (ls : List Nat) (hls : ∀ l ∈ ls, l < 16) (t : Task) (q l : Nat) (hl : l < 16) :
    lane (ls.foldl (fun u i => writePacked r val i u) t) q l = if r ≤ q ∧ q < r + 2 ∧ 8 * (q - r) + l / 2 ∈ ls then
      BitVec.ofNat 32 (val (2 * (l % 2)) (8 * (q - r) + l / 2) + 65536 * val (2 * (l % 2) + 1) (8 * (q - r) + l / 2))
      else lane t q l := by
  induction ls generalizing t with
  | nil => simp
  | cons a ls ih =>
    rw [List.foldl_cons, ih (fun x hx => hls x (List.mem_cons_of_mem _ hx)),
      lane_writePacked _ _ _ _ (hls a List.mem_cons_self) _ _ hl]
    by_cases h2 : r ≤ q ∧ q < r + 2 ∧ 8 * (q - r) + l / 2 ∈ ls
    · rw [if_pos h2, if_pos ⟨h2.1, h2.2.1, List.mem_cons_of_mem _ h2.2.2⟩]
    · rw [if_neg h2]
      by_cases h3 : r ≤ q ∧ q < r + 2 ∧ 8 * (q - r) + l / 2 = a
      · rw [if_pos h3, if_pos ⟨h3.1, h3.2.1, by rw [h3.2.2]; exact List.mem_cons_self⟩, h3.2.2]
      · rw [if_neg h3, if_neg]
        rintro ⟨x1, x2, x3⟩
        rcases List.mem_cons.mp x3 with x4 | x4
        · exact h3 ⟨x1, x2, x4⟩
        · exact h2 ⟨x1, x2, x4⟩

theorem writePair_eq (f : F) (r : Nat) (val : Nat → Nat → Nat) (t : Task) :
    writePair f r val t = (activeLanes t f).foldl (fun u i => writePacked r val i u) t := rfl

theorem writePair_frame (f : F) (r : Nat) (val : Nat → Nat → Nat) (t : Task) :
    writePair f r val t = { t with vregs := (writePair f r val t).vregs } := by
  rw [writePair_eq]; exact vregs_fold _ (fun t x => rfl) _ _

/-- A pixel instruction that writes a pair. -/
theorem writesPair_of {s : State} {k : Nat} {t : Task} (h : Ready s k t) {i : Instr} {f : F} {u : Use} {g : Task → Task}
    {v : Nat → Nat → Nat} (hx : exec i s = .next (issue k u true (pureBody g) s))
    (hg : ∀ n, g (counted n u t) = writePair f f.d.toNat v (counted n u t)) : WritesPair s t i f f.d.toNat v := by
  refine ⟨_, advancePc (writePair f f.d.toNat v (counted s u t)), hx, ?_, ?_, ?_⟩
  · rw [issue_pure h, hg]
    exact onlyTask_keep k u s t _ (by rw [writePair_frame]; rfl)
  · intro q l hl
    show lane (writePair f f.d.toNat v (counted s u t)) q l = _
    rw [writePair_eq, lane_writePackeds _ _ _ (fun x hx => ((mem_activeLanes _ _ x).mp hx).1) _ _ _ hl]
    simp only [mem_activeLanes, maskOf_counted, lane_counted]
    by_cases h1 : f.d.toNat ≤ q ∧ q < f.d.toNat + 2 ∧ pbit (maskOf t f) (8 * (q - f.d.toNat) + l / 2) = true
    · rw [if_pos h1, if_pos ⟨h1.1, h1.2.1, by omega, h1.2.2⟩]
    · rw [if_neg h1, if_neg (fun h2 => h1 ⟨h2.1, h2.2.1, h2.2.2.2⟩)]
  · rw [writePair_frame]; rfl

/-! ## The tree sum -/

/-- The tree of R51 over sixteen values. -/
theorem treeSum_eq (fm : FFmt) (x : Nat → Nat) : treeSum fm ((List.range 16).map x) = pairTree fm x 4 0 := rfl

end Sys2Proof.Machine
end

