-- ==== Sys2Proof/Laws/Memory.lean ====
section
/-!
SUPPORT. What loads, stores and gathers do: the state that an issued instruction finds, recorded reads, stored bytes.
-/

namespace Sys2Proof.Machine

/-! ## An instruction that has issued finds memory and registers as they were -/

theorem spInside_issued (k : Nat) (us : Use) (s u : State) (t : Task) (sp : BitVec 2) (f : F) (n : Nat) (o : Int) :
    spInside sp f n (issued k us t s) (counted u us t) o = spInside sp f n s t o := by rw [issued_frame]; rfl

theorem layerFor_issued (k : Nat) (us : Use) (s u : State) (t : Task) (h : W32) :
    layerFor (issued k us t s) (counted u us t) h = layerFor s t h := by rw [issued_frame]; rfl

theorem spNat_issued (k : Nat) (us : Use) (s u : State) (t : Task) (sp : BitVec 2) (f : F) (o n : Nat) :
    spNat sp f (issued k us t s) (counted u us t) o n = spNat sp f s t o n := by rw [issued_frame]; rfl

theorem layerIdx_issued (k : Nat) (us : Use) (s u : State) (t : Task) (h : W32) :
    layerIdx (issued k us t s) (counted u us t) h = layerIdx s t h := by rw [issued_frame]; rfl

theorem layerNat_issued (k : Nat) (us : Use) (s u : State) (t : Task) (l o n : Nat) :
    layerNat (issued k us t s) (counted u us t) l o n = layerNat s t l o n := by rw [issued_frame]; rfl

theorem texel_issued (k : Nat) (us : Use) (s u : State) (t : Task) (n : Nat) (l : Layer) (m c : Nat) (i j : Int) :
    texel (issued k us t s) (counted u us t) n l m c i j = texel s t n l m c i j := by rw [issued_frame]; rfl

theorem tileFrozen_issued (k : Nat) (us : Use) (s u : State) (t : Task) :
    tileFrozen (issued k us t s) (counted u us t) = tileFrozen s t := by rw [issued_frame]; rfl

theorem loadExc_issued (k : Nat) (us : Use) (s u : State) (t : Task) (sp : BitVec 2) (ty : Nat) (f : F) (offs : List Int) :
    loadExc sp ty f offs (issued k us t s) (counted u us t) = loadExc sp ty f offs s t := by rw [issued_frame]; rfl

theorem storeExc_issued (k : Nat) (us : Use) (s u : State) (t : Task) (sp : BitVec 2) (ty : Nat) (f : F) (st : Stores) (h : sp ≠ 3 ∨ undoable t = false) :
    storeExc sp ty f st (issued k us t s) (counted u us t) = storeExc sp ty f st s t := by
  unfold storeExc
  have e : spInside sp f (typeBytes ty) (issued k us t s) (counted u us t) = spInside sp f (typeBytes ty) s t :=
    funext (fun o => spInside_issued k us s u t sp f _ o)
  rw [e]; rfl

theorem spaceByte_issued (k : Nat) (us : Use) (s u : State) (t : Task) (f : F) (sp : BitVec 2) (o : Nat) :
    spaceByte (issued k us t s) (counted u us t) f sp o = spaceByte s t f sp o := by rw [issued_frame]; rfl

/-! ## Read sets -/

/-- What recording does to a task (R39). -/
theorem record_eq (k : Nat) (us : Use) (s u : State) (t : Task) (key : InKey) :
    record (issued k us t s) key (counted u us t) = { counted u us t with readSet := readSetAfter s t key } := by
  unfold record readSetAfter
  have hv : versionFor (issued k us t s) key (taskInep (counted u us t)) = versionFor s key (taskInep t) := by
    rw [issued_frame]; rfl
  have hn : names (counted u us t).readSet key = t.readSet.any (fun x => x.key == key) := rfl
  rw [hv, hn]
  cases hf : t.firm <;> cases ha : t.readSet.any (fun x => x.key == key) <;> simp [records, counted, hf]

theorem loadRecord_eq (k : Nat) (us : Use) (s u : State) (t : Task) (sp : BitVec 2) (f : F) :
    loadRecord sp f (issued k us t s) (counted u us t) = { counted u us t with
      readSet := (if sp = 2 then readSetAfter s t ⟨7, 0, layerIdx s t (sreg t f.a)⟩ else t.readSet) } := by
  unfold loadRecord
  by_cases h : sp = 2
  · subst h; simp only [beq_self_eq_true, if_true, sreg_counted, layerIdx_issued]; exact record_eq k us s u t _
  · rw [show (sp == 2) = false from beq_eq_false_iff_ne.mpr h, if_neg h]; rfl

/-! ## Loads that wake frame memory (R338) -/

theorem loadWake_frame (sp : BitVec 2) (offs : List Int) (s : State) :
    loadWake sp offs s = { s with pwr := (loadWake sp offs s).pwr } := by
  unfold loadWake; split <;> rfl

theorem loadWake_issued (sp : BitVec 2) (offs : List Int) (k : Nat) (us : Use) (t : Task) (s : State) :
    loadWake sp offs (issued k us t s) = { issued k us t s with pwr := (loadWake sp offs s).pwr } := by
  have e := issued_frame k us t s
  generalize issued k us t s = z at e ⊢
  rw [e]
  unfold loadWake
  split <;> rfl

/-- A load changes its task alone, beside what wakes the memory. -/
theorem onlyTask_wake (sp : BitVec 2) (offs : List Int) (k : Nat) (us : Use) (s : State) (t t' : Task) (h : t'.slot = t.slot) :
    OnlyTask (loadWake sp offs s) (setTask t' (loadWake sp offs (issued k us t s))) t t' := by
  refine ⟨?_, ?_, ?_⟩
  · rw [← h]; simp
  · intro q hq
    rw [taskAt_setTask_ne _ _ (by rw [h]; exact hq), loadWake_issued, loadWake_frame]
    exact taskAt_congr (s := s) (issued_tasks k us t s) q
  · rw [loadWake_issued, loadWake_frame]
    have e := issued_frame k us t s
    unfold setTask
    rw [e]

/-! ## Shapes with a read set -/

theorem writesScalarIn_of {s : State} {k : Nat} {us : Use} {t : Task} (h : Ready s k t) {i : Instr} {sp : BitVec 2} {offs : List Int} {d : BitVec 5} {v : W32}
    {rs : List ReadEnt} {body : Body} {legal : Bool} (hl : legal = true) (hx : exec i s = .next (issue k us legal body s))
    (hb : body (issued k us t s) (counted s us t) =
      .keep (loadWake sp offs (issued k us t s)) (advancePc (setS d v { counted s us t with readSet := rs }))) :
    WritesScalarIn s (loadWake sp offs s) t i d v rs := by
  refine ⟨_, advancePc (setS d v { counted s us t with readSet := rs }), hx, ?_, ?_, ?_⟩
  · rw [hl, issue_legal h, hb]
    exact onlyTask_wake sp offs k us s t _ (by unfold advancePc setS; split <;> rfl)
  · intro r
    show sreg (setS d v { counted s us t with readSet := rs }) r = _
    rw [sreg_setS]; rfl
  · unfold advancePc setS
    split <;> rfl

theorem writesVectorIn_of {s : State} {k : Nat} {us : Use} {t : Task} (h : Ready s k t) {i : Instr} {sp : BitVec 2} {offs : List Int} {f : F} {v : Nat → W32}
    {rs : List ReadEnt} {body : Body} {legal : Bool} (hl : legal = true) (hx : exec i s = .next (issue k us legal body s))
    (hb : body (issued k us t s) (counted s us t) =
      .keep (loadWake sp offs (issued k us t s)) (advancePc (writeLanes f f.d.toNat v { counted s us t with readSet := rs }))) :
    WritesVectorIn s (loadWake sp offs s) t i f f.d.toNat v rs := by
  refine ⟨_, advancePc (writeLanes f f.d.toNat v { counted s us t with readSet := rs }), hx, ?_, ?_, ?_⟩
  · rw [hl, issue_legal h, hb]
    exact onlyTask_wake sp offs k us s t _ (by rw [writeLanes_frame]; rfl)
  · intro q l hl
    show lane (writeLanes f f.d.toNat v { counted s us t with readSet := rs }) q l = _
    rw [lane_writeLanes _ _ _ _ _ _ hl]; rfl
  · rw [writeLanes_frame]; rfl

theorem writesGroupIn_of {s : State} {k : Nat} {us : Use} {t : Task} (h : Ready s k t) {i : Instr} {sp : BitVec 2} {offs : List Int} {f : F} {v : Nat → Nat → Nat}
    {rs : List ReadEnt} {body : Body} {legal : Bool} (hl : legal = true) (hx : exec i s = .next (issue k us legal body s))
    (hb : body (issued k us t s) (counted s us t) =
      .keep (loadWake sp offs (issued k us t s)) (advancePc (writeGroup f f.d.toNat v { counted s us t with readSet := rs }))) :
    WritesGroupIn s (loadWake sp offs s) t i f f.d.toNat v rs := by
  refine ⟨_, advancePc (writeGroup f f.d.toNat v { counted s us t with readSet := rs }), hx, ?_, ?_, ?_⟩
  · rw [hl, issue_legal h, hb]
    exact onlyTask_wake sp offs k us s t _ (by rw [writeGroup_frame]; rfl)
  · intro q l hl
    show lane (writeGroup f f.d.toNat v { counted s us t with readSet := rs }) q l = _
    rw [lane_writeGroup _ _ _ _ _ _ hl]; rfl
  · rw [writeGroup_frame]; rfl

/-- An instruction that goes on with a task. -/
theorem goesOn_of {s : State} {k : Nat} {us : Use} {t : Task} (h : Ready s k t) {i : Instr} {body : Body} {legal : Bool} {pc : W32}
    {u t' : Task} (hl : legal = true) (hx : exec i s = .next (issue k us legal body s))
    (hb : body (issued k us t s) (counted s us t) = .keep (issued k us t s) t')
    (ht : t' = { u with pc := pc, steps := t.steps + 1, cycles := t'.cycles, front := t'.front, was := none }) (hs : u.slot = t.slot) : GoesOn s t i pc u := by
  refine ⟨_, t', hx, ?_, ht⟩
  rw [hl, issue_legal h, hb]
  exact onlyTask_keep k us s t _ (by rw [ht]; exact hs)

/-! ## Elements -/

theorem typeBytes_pos (ty : Nat) : 0 < typeBytes ty := by unfold typeBytes; split <;> omega

theorem checkElems_none (offs : List Int) (n : Nat) (inside : Int → Bool) (h : ∀ o ∈ offs, o % (n : Int) = 0 ∧ inside o = true) :
    checkElems offs n inside = none := by
  unfold checkElems
  rw [List.find?_eq_none.mpr (by intro o ho; simp [(h o ho).1]), List.find?_eq_none.mpr (by intro o ho; simp [(h o ho).2])]

theorem checkElems_align (o : Int) (n : Nat) (inside : Int → Bool) (h : o % (n : Int) ≠ 0) :
    checkElems [o] n inside = some ⟨3, infoOf o⟩ := by
  unfold checkElems; simp [List.find?, h]

theorem checkElems_fault (o : Int) (n : Nat) (inside : Int → Bool) (h : o % (n : Int) = 0) (hi : inside o = false) :
    checkElems [o] n inside = some ⟨4, infoOf o⟩ := by
  unfold checkElems; simp [List.find?, h, hi]

theorem spBase_eq (sp : BitVec 2) (f : F) (t : Task) : spBase sp f t = spaceAddr t f sp := by
  unfold spBase spaceAddr baseOff
  have : sp = 0 ∨ sp = 1 ∨ sp = 2 ∨ sp = 3 := by
    have := sp.isLt
    have h : sp.toNat = 0 ∨ sp.toNat = 1 ∨ sp.toNat = 2 ∨ sp.toNat = 3 := by omega
    rcases h with h | h | h | h
    · exact .inl (BitVec.eq_of_toNat_eq h)
    · exact .inr (.inl (BitVec.eq_of_toNat_eq h))
    · exact .inr (.inr (.inl (BitVec.eq_of_toNat_eq h)))
    · exact .inr (.inr (.inr (BitVec.eq_of_toNat_eq h)))
  rcases this with rfl | rfl | rfl | rfl <;> simp

theorem spNat_eq (sp : BitVec 2) (f : F) (s : State) (t : Task) (o n : Nat) :
    spNat sp f s t o n = leNumber (spaceByte s t f sp) o n := by
  unfold spNat spaceByte leNumber
  have h : sp.toNat = 0 ∨ sp.toNat = 1 ∨ sp.toNat = 2 ∨ sp.toNat = 3 := by have := sp.isLt; omega
  rcases h with h | h | h | h
  · have : sp = 0 := BitVec.eq_of_toNat_eq h
    subst this; simp [scratchNat]
  · have : sp = 1 := BitVec.eq_of_toNat_eq h
    subst this; simp
  · have : sp = 2 := BitVec.eq_of_toNat_eq h
    subst this; simp [layerNat]
  · have : sp = 3 := BitVec.eq_of_toNat_eq h
    subst this; simp

/-! ## Stored bytes -/

/-- A byte table after bytes have been put at an offset. -/
theorem find_bytesPut (m : Map Byte) (o a : Nat) (bs : List Byte) :
    Map.find? (bytesPut m o bs) a = if o ≤ a ∧ a < o + bs.length then bs[a - o]? else Map.find? m a := by
  induction bs generalizing m o with
  | nil => rw [if_neg (by simp)]; rfl
  | cons b bs ih =>
    simp only [bytesPut, List.length_cons]
    rw [ih]
    by_cases h1 : o + 1 ≤ a ∧ a < o + 1 + bs.length
    · rw [if_pos h1, if_pos (by omega), show a - o = (a - (o + 1)) + 1 by omega, List.getElem?_cons_succ]
    · rw [if_neg h1]
      by_cases h2 : a = o
      · subst h2; rw [if_pos (by omega)]; simp
      · rw [if_neg (by omega)]; exact map_find_put_ne _ _ h2

/-- A byte table after elements have been stored in order. -/
theorem find_stored (els : List (Nat × List Byte)) (m : Map Byte) (o : Nat) :
    Map.find? (els.foldl (fun m e => bytesPut m e.1 e.2) m) o = (lastStored els o).or (Map.find? m o) := by
  unfold lastStored
  suffices H : ∀ (old : Option Byte) (m : Map Byte) (x : Option Byte), Map.find? m o = old.or x →
      Map.find? (els.foldl (fun m e => bytesPut m e.1 e.2) m) o =
        (els.foldl (fun old e => if e.1 ≤ o ∧ o < e.1 + e.2.length then e.2[o - e.1]? else old) old).or x from
    H none m _ rfl
  induction els with
  | nil => intro old m x h; exact h
  | cons e els ih =>
    intro old m x h
    rw [List.foldl_cons, List.foldl_cons]
    apply ih
    rw [find_bytesPut]
    by_cases hc : e.1 ≤ o ∧ o < e.1 + e.2.length
    · rw [if_pos hc, if_pos hc]
      rw [List.getElem?_eq_getElem (by omega)]
      rfl
    · rw [if_neg hc, if_neg hc]; exact h

theorem leBytes_mod (n m v : Nat) (h : n ≤ m) : leBytes n (v % 2 ^ (8 * m)) = leBytes n v := by
  induction n generalizing m v with
  | zero => rfl
  | succ n ih =>
    simp only [leBytes]
    obtain ⟨m, rfl⟩ : ∃ q, m = q + 1 := ⟨m - 1, by omega⟩
    congr 1
    · apply BitVec.eq_of_toNat_eq
      simp only [BitVec.toNat_ofNat]
      rw [Nat.mod_mod_of_dvd]
      exact Nat.pow_dvd_pow 2 (by omega)
    · rw [show 8 * (m + 1) = 8 * m + 8 by ring, Nat.pow_add, show (2:Nat) ^ 8 = 256 from rfl, Nat.mul_comm, Nat.mod_mul_right_div_self]
      exact ih m _ (by omega)

theorem leBytes_laneNat (ty : Nat) (v : W32) : leBytes (typeBytes ty) (laneNat ty v) = leBytes (typeBytes ty) v.toNat := by
  unfold laneNat typeBits; exact leBytes_mod _ _ _ (le_refl _)

end Sys2Proof.Machine
end

