-- ==== Sys2Proof/Laws/Vectors.lean ====
section
/-!
SUPPORT. What the provers need of the vector integer and floating-point operations.
-/

namespace Sys2Proof.Machine

theorem vint2_of {s : State} {k : Nat} {t : Task} (h : Ready s k t) {i : Instr} {f : F} {ty : BitVec 3} {g : W32 → W32 → W32}
    (ht : ty.toNat < 5) (hz : f.imm = 0) (hx : exec i s = .next (vint2 k ty f g s)) :
    WritesVector s t i f f.d.toNat (fun l => g (lane t f.a.toNat l) (lane t f.b.toNat l)) := by
  refine writesVector_of h (u := vUse 1 1 f (regsV f.a 1 ++ regsV f.b 1)) (val := fun u i => g (la f u i) (lb f u i)) ?_ (fun n l => rfl)
  rw [hx]; unfold vint2
  rw [show (intType ty && immZero f) = true by simp [intType, ht, immZero, hz]]

theorem cField_of {f : F} {c : BitVec 5} (hc : f.imm = c.setWidth 32) : cField f = c ∧ immC f = true := by
  constructor
  · unfold cField; rw [hc]; apply BitVec.eq_of_toNat_eq; simp; omega
  · unfold immC; rw [hc]; simp; omega

theorem laneNat_land (ty : Nat) (a b : W32) : laneNat ty (a &&& b) = laneNat ty a &&& laneNat ty b := by
  unfold laneNat; simp [Nat.and_mod_two_pow]

theorem laneNat_lor (ty : Nat) (a b : W32) : laneNat ty (a ||| b) = laneNat ty a ||| laneNat ty b := by
  unfold laneNat; simp [Nat.or_mod_two_pow]

theorem laneNat_xor (ty : Nat) (a b : W32) : laneNat ty (a ^^^ b) = laneNat ty a ^^^ laneNat ty b := by
  unfold laneNat; simp [Nat.xor_mod_two_pow]

theorem laneNat_lt (ty : Nat) (a : W32) : laneNat ty a < 2 ^ typeBits ty := Nat.mod_lt _ (Nat.two_pow_pos _)

theorem ediv_range {ty : Nat} (h : ty < 5) (a : W32) (n : Nat) :
    typeMin ty ≤ laneInt ty a / (2 ^ n : Nat) ∧ laneInt ty a / (2 ^ n : Nat) ≤ typeMax ty := by
  have ⟨r1, r2⟩ := laneInt_range h a
  have hp : (1 : Int) ≤ (2 ^ n : Nat) := by exact_mod_cast Nat.one_le_two_pow
  have m0 : typeMin ty ≤ 0 := by interval_cases ty <;> decide
  have m1 : 0 ≤ typeMax ty := by interval_cases ty <;> decide
  generalize laneInt ty a = x at *
  generalize ((2 ^ n : Nat) : Int) = m at *
  constructor
  · rw [Int.le_ediv_iff_mul_le (by omega)]
    nlinarith
  · by_cases hx : 0 ≤ x
    · exact (Int.ediv_le_self m hx).trans r2
    · have := Int.ediv_neg_of_neg_of_pos (a := x) (b := m) (by omega) (by omega)
      omega

theorem lane_sum (ty : Nat) (f : F) (t : Task) : laneTotal ty f t =
    ((List.range 16).map (fun l => if (maskOf t f).getLsbD l then laneInt ty (lane t f.a.toNat l) else 0)).sum := by
  unfold laneTotal activeLanes lanes
  suffices H : ∀ (ls : List Nat) (x : Int), (ls.filter (pbit (maskOf t f))).foldl (fun a i => a + laneInt ty (la f t i)) x =
      x + (ls.map (fun l => if (maskOf t f).getLsbD l then laneInt ty (lane t f.a.toNat l) else 0)).sum by
    have := H (List.range 16) 0
    rw [this]; simp
  intro ls
  induction ls with
  | nil => intro x; simp
  | cons a ls ih =>
    intro x
    rw [List.filter_cons]
    unfold pbit at *
    cases hb : (maskOf t f).getLsbD a
    · simp only [Bool.false_eq_true, if_false, List.map_cons, List.sum_cons, hb, zero_add]
      exact ih x
    · simp only [if_true, List.foldl_cons, List.map_cons, List.sum_cons, hb]
      rw [ih]; unfold la; ring

theorem fnan (h : Bool) (a b : Nat) (hn : fisNan (fmtOf h) a = true ∨ fisNan (fmtOf h) b = true) :
    feq (fmtOf h) a b = false ∧ flt (fmtOf h) a b = false := by
  unfold fisNan at hn
  unfold feq flt
  simp only [beq_iff_eq] at hn
  rcases hn with e | e <;> rw [e]
  · simp
  · cases fdec (fmtOf h) a <;> simp

theorem vfl2_of {s : State} {k : Nat} {t : Task} (h : Ready s k t) {i : Instr} {f : F} {half : Bool} {cyc : Nat} {g : Nat → Nat → Nat}
    (hz : f.imm = 0) (hx : exec i s = .next (vfl2 k cyc half f g s)) :
    WritesVector s t i f f.d.toNat (fun l => BitVec.ofNat 32 (g (fl half (lane t f.a.toNat l)) (fl half (lane t f.b.toNat l)))) := by
  refine writesVector_of h (u := vUse cyc 1 f (regsV f.a 1 ++ regsV f.b 1)) (val := fun u i => BitVec.ofNat 32 (g (fl half (la f u i)) (fl half (lb f u i)))) ?_ (fun n l => rfl)
  rw [hx]; unfold vfl2
  rw [show immZero f = true by simp [immZero, hz]]

theorem vfl1_of {s : State} {k : Nat} {t : Task} (h : Ready s k t) {i : Instr} {f : F} {half bz : Bool} {cyc : Nat} {g : Nat → W32}
    (hz : f.imm = 0) (hb : (!bz || f.b == 0) = true) (hx : exec i s = .next (vfl1 k cyc half bz f g s)) :
    WritesVector s t i f f.d.toNat (fun l => g (fl half (lane t f.a.toNat l))) := by
  refine writesVector_of h (u := vUse cyc 1 f (regsV f.a 1)) (val := fun u i => g (fl half (la f u i))) ?_ (fun n l => rfl)
  rw [hx]; unfold vfl1
  rw [show (immZero f && (!bz || f.b == 0)) = true by rw [hb]; simp [immZero, hz]]

theorem nanV {fm : FFmt} {a : Nat} : fisNan fm a = true ↔ fdec fm a = .nan := by simp [fisNan]

theorem faddV_nan (fm : FFmt) (a b : FVal) (h : a = .nan ∨ b = .nan) : faddV fm a b = fm.nan := by
  rcases h with rfl | rfl
  · cases b <;> rfl
  · cases a <;> rfl

theorem fmulV_nan (a b : FVal) (h : a = .nan ∨ b = .nan) : fmulV a b = .nan := by
  rcases h with rfl | rfl
  · cases b <;> rfl
  · cases a <;> rfl

theorem flt_nan {fm : FFmt} {a b : Nat} (h : flt fm a b = true) : fisNan fm a = false ∧ fisNan fm b = false := by
  unfold flt at h
  unfold fisNan
  cases ha : fdec fm a <;> cases hb : fdec fm b <;> simp [ha, hb] at h ⊢

theorem fsumInt_swap (na : Bool) (ma : Nat) (ea : Int) (nb : Bool) (mb : Nat) (eb : Int)
   : (fsumInt na ma ea (!nb) mb eb).1 = -(fsumInt nb mb eb (!na) ma ea).1 := by
  unfold fsumInt
  simp only
  have e : (if ea < eb then ea else eb) = (if eb < ea then eb else ea) := by split <;> split <;> omega
  rw [e]
  cases na <;> cases nb <;> simp <;> ring

theorem ftopx_le (fm : FFmt) (a : Nat) : ftopx fm a ≤ 65535 := by
  unfold ftopx
  split
  · omega
  · split <;> omega
  · split
    · omega
    · simp only; split <;> omega

end Sys2Proof.Machine
end

