-- ==== Sys2Proof/Laws/Spaces.lean ====
section
/-!
SUPPORT. What the provers need of loads, stores and table lookups in the four spaces.
-/

namespace Sys2Proof.Machine

theorem legal_ld {sp : BitVec 2} {f : F} (h : sp = 2 ∨ f.b = 0) : loadLegal sp f = true := by
  unfold loadLegal
  rcases h with h | h
  · rw [h]; rfl
  · rw [h]; simp

theorem dataExc_none {sp : BitVec 2} {n : Nat} {f : F} {offs : List Int} {s : State} {t : Task}
    (h : ∀ o ∈ offs, badByte sp f s t n o = none) : dataExc sp n f offs s t = none := by
  unfold dataExc; rw [List.findSome?_eq_none_iff.mpr h]; rfl

theorem loadExc_ok {sp : BitVec 2} {ty : Nat} {f : F} {offs : List Int} {s : State} {t : Task}
    (h : ∀ o ∈ offs, LoadOk s t f sp ty o) (h3 : ¬ (sp = 3 ∧ undoable t = true))
    (h2 : ¬ (sp = 2 ∧ setFull t ⟨7, 0, layerIdx s t (sreg t f.a)⟩ = true)) :
    loadExc sp ty f offs s t = none := by
  unfold loadExc
  split
  · rfl
  have hc : classFault sp false t = false := by
    unfold classFault
    by_cases hs : sp = 3
    · rw [hs]; simp only [Bool.not_false, Bool.and_true]
      cases hu : undoable t
      · rfl
      · exact absurd ⟨hs, hu⟩ h3
    · rw [show (sp == 3) = false from beq_eq_false_iff_ne.mpr hs]; rfl
  rw [checkElems_none, dataExc_none fun o ho => (h o ho).2]
  · by_cases hs : sp = 2
    · have : setFull t ⟨7, 0, layerIdx s t (sreg t f.a)⟩ = false := by
        cases hf : setFull t ⟨7, 0, layerIdx s t (sreg t f.a)⟩
        · rfl
        · exact absurd ⟨hs, hf⟩ h2
      rw [this]; simp
    · rw [show (sp == 2) = false from beq_eq_false_iff_ne.mpr hs]; simp
  · intro o ho
    refine ⟨(h o ho).1.1, ?_⟩
    rw [hc]; simpa using (h o ho).1.2

theorem mem_act (t : Task) (f : F) (l : Nat) : l ∈ activeLanes t f ↔ l < 16 ∧ (maskOf t f).getLsbD l = true := mem_activeLanes t f l

theorem act_empty (t : Task) (f : F) : activeLanes t f = [] ↔ maskOf t f = 0 := by
  constructor
  · intro h
    apply BitVec.eq_of_getLsbD_eq
    intro i hi
    have : i ∉ activeLanes t f := by rw [h]; simp
    rw [mem_act] at this
    cases hb : (maskOf t f).getLsbD i
    · simp
    · exact absurd ⟨hi, hb⟩ this
  · intro h
    rw [List.eq_nil_iff_forall_not_mem]
    intro l hl
    rw [mem_act, h] at hl
    simp at hl

theorem nonempty_of {t : Task} {f : F} (h : maskOf t f ≠ 0) : (activeLanes t f).isEmpty = false := by
  rw [List.isEmpty_eq_false_iff]
  intro e; exact h ((act_empty t f).mp e)

theorem scratch_fold (els : List (Nat × List Byte)) (u : Task) :
    els.foldl (fun u e => scratchPut e.1 e.2 u) u = { u with scratch := els.foldl (fun m e => bytesPut m e.1 e.2) u.scratch } := by
  induction els generalizing u with
  | nil => rfl
  | cons e els ih => rw [List.foldl_cons, ih]; rfl

theorem sp_cases {sp : BitVec 2} (h : sp ≠ 2) : sp = 0 ∨ sp = 1 ∨ sp = 3 := by
  have h' := sp.isLt
  have e : sp.toNat = 0 ∨ sp.toNat = 1 ∨ sp.toNat = 2 ∨ sp.toNat = 3 := by omega
  rcases e with e | e | e | e
  · exact .inl (BitVec.eq_of_toNat_eq e)
  · exact .inr (.inl (BitVec.eq_of_toNat_eq e))
  · exact absurd (BitVec.eq_of_toNat_eq e) h
  · exact .inr (.inr (BitVec.eq_of_toNat_eq e))

theorem storesTo_of {s : State} {k : Nat} {t : Task} (h : Ready s k t) {i : Instr} {f : F} {sp : BitVec 2} {ty : Nat}
    {us : Use} {body : Body} {legal : Bool} (hsp : sp ≠ 2) (hl : legal = true) (hx : exec i s = .next (issue k us legal body s))
    (els : List (Int × Nat)) (hb : body (issued k us t s) (counted s us t) = storeDo sp ty els (issued k us t s) (counted s us t))
    (hfr : ¬ (sp = 1 ∧ tileFrozen s t = true)) :
    StoresTo s t i f sp (els.map (fun x => (x.1.toNat, leBytes (typeBytes ty) x.2))) := by
  unfold StoresTo
  obtain ⟨E, hE⟩ : ∃ E, E = els.map (fun x => (x.1.toNat, leBytes (typeBytes ty) x.2)) := ⟨_, rfl⟩
  rw [← hE]
  have fold : ∀ m : Map Byte, els.foldl (fun m x => bytesPut m x.1.toNat (leBytes (typeBytes ty) x.2)) m =
      E.foldl (fun m e => bytesPut m e.1 e.2) m := by
    intro m; rw [hE, List.foldl_map]
  have foldS : ∀ u : Task, els.foldl (fun u x => scratchPut x.1.toNat (leBytes (typeBytes ty) x.2) u) u =
      E.foldl (fun u e => scratchPut e.1 e.2 u) u := by
    intro u; rw [hE, List.foldl_map]
  have key : ∃ t', storeDo sp ty els (issued k us t s) (counted s us t) = .keep (issued k us t s) t' ∧
      (∀ o, spaceByte (issued k us t s) t' f sp o = (lastStored E o).getD (spaceByte s t f sp o)) ∧
      t' = { t with
        pc := t.pc + 8, steps := t.steps + 1, cycles := t'.cycles, front := t'.front, was := none
        scratch := (if sp = 0 then t'.scratch else t.scratch)
        staged := (if sp = 1 then t'.staged else t.staged)
        stores := (if sp = 3 then t'.stores else t.stores) } := by
    rcases sp_cases hsp with rfl | rfl | rfl
    · obtain ⟨m, hm⟩ : ∃ m, m = E.foldl (fun m e => bytesPut m e.1 e.2) t.scratch := ⟨_, rfl⟩
      refine ⟨advancePc { counted s us t with scratch := m }, ?_, fun o => ?_, rfl⟩
      · unfold storeDo
        simp only [show (0 : BitVec 2).toNat = 0 from rfl, foldS, scratch_fold, hm]; rfl
      · show scratchGet _ o = (lastStored E o).getD (scratchGet t o)
        unfold scratchGet
        show (match Map.find? m o with | some b => b | none => _) = _
        rw [hm, find_stored]
        cases lastStored E o <;> rfl
    · by_cases he : els.isEmpty = true
      · have : els = [] := by simpa using he
        subst this
        subst hE
        refine ⟨advancePc (counted s us t), rfl, fun o => ?_, rfl⟩
        show spaceByte _ (counted s us t) f 1 o = _
        rw [spaceByte_issued]; rfl
      · have hfz : tileFrozen (issued k us t s) (counted s us t) = false := by
          rw [tileFrozen_issued]
          cases hq : tileFrozen s t
          · rfl
          · exact absurd ⟨rfl, hq⟩ hfr
        obtain ⟨m, hm⟩ : ∃ m, m = E.foldl (fun m e => bytesPut m e.1 e.2) t.staged := ⟨_, rfl⟩
        refine ⟨advancePc { counted s us t with staged := m }, ?_, fun o => ?_, rfl⟩
        · unfold storeDo
          simp only [show (1 : BitVec 2).toNat = 1 from rfl, he, hfz, Bool.false_eq_true, if_false, fold, hm]; rfl
        · show outGet _ _ o = (lastStored E o).getD (outGet s t o)
          unfold outGet
          show (match Map.find? m o, t.canvas, t.epoch with | some b, _, _ => b | none, some c, some e => _ | none, _, _ => 0) = _
          rw [hm, find_stored]
          cases lastStored E o with
          | some b => rfl
          | none => rw [issued_frame]; rfl
    · obtain ⟨m, hm⟩ : ∃ m, m = E.foldl (fun m e => bytesPut m e.1 e.2) t.stores := ⟨_, rfl⟩
      refine ⟨advancePc { counted s us t with stores := m }, ?_, fun o => ?_, rfl⟩
      · unfold storeDo
        simp only [show (3 : BitVec 2).toNat = 3 from rfl, fold, hm]; rfl
      · show fmGet _ _ o = (lastStored E o).getD (fmGet s t o)
        unfold fmGet
        show (match Map.find? m o with | some b => b | none => _) = _
        rw [hm, find_stored]
        cases lastStored E o with
        | some b => rfl
        | none => rw [issued_frame]; rfl
  obtain ⟨t', h1, h2, h3⟩ := key
  refine ⟨_, t', hx, ?_, ?_, h3⟩
  · rw [hl, issue_legal h, hb, h1]
    exact onlyTask_keep k us s t _ (by rw [h3])
  · intro o
    rw [hl, issue_legal h, hb, h1, ← h2 o]
    rfl

theorem storeExc_ok {sp : BitVec 2} {ty : Nat} {f : F} {st : Stores} {s : State} {t : Task}
    (h : ∀ o ∈ st.map (fun x => x.1), ElementOk s t f sp ty o) (h3 : ¬ (sp = 3 ∧ undoable t = true)) : storeExc sp ty f st s t = none := by
  unfold storeExc
  rw [checkElems_none _ _ _ h]
  have : (sp == 3 && undoable t && !st.isEmpty) = false := by
    by_cases hs : sp = 3
    · cases hu : undoable t
      · simp
      · exact absurd ⟨hs, hu⟩ h3
    · rw [show (sp == 3) = false from beq_eq_false_iff_ne.mpr hs]; rfl
  simp only [this, Bool.false_eq_true, if_false]

theorem storeExc_issued' (k : Nat) (us : Use) (s u : State) (t : Task) (sp : BitVec 2) (ty : Nat) (f : F) (st : Stores)  :
    storeExc sp ty f st (issued k us t s) (counted u us t) = storeExc sp ty f st s t := by
  unfold storeExc
  have e : spInside sp f (typeBytes ty) (issued k us t s) (counted u us t) = spInside sp f (typeBytes ty) s t :=
    funext (fun o => spInside_issued k us s u t sp f _ o)
  rw [e]; rfl

theorem lut_of {s : State} {k : Nat} {t : Task} (h : Ready s k t) {i : Instr} {f : F} {l : Bool} {n : Nat} {val : (Nat → Nat) → Nat → Nat}
    {e : Nat → Nat} (hz : f.imm = 0) (hl : l = true) (ha : (sreg t f.b).toNat % 2 = 0) (hn : (sreg t f.b).toNat + 2 * n ≤ t.prog.scratch)
    (he : ∀ j, e j = leNumber (scratchGet t) ((sreg t f.b).toNat + 2 * j) 2) (hx : exec i s = .next (lutOp k f l n val s)) :
    WritesVector s t i f f.d.toNat (fun q => BitVec.ofNat 32 (val e ((lane t f.a.toNat q).toNat % 65536))) := by
  obtain ⟨us, hus⟩ : ∃ us, us = gathUse f (regS f.b :: regsV f.a 1) (regsV f.d 1) := ⟨_, rfl⟩
  have hee : (fun j => scratchNat (counted s us t) ((sreg (counted s us t) f.b).toNat + 2 * j) 2) = e := by
    funext j; rw [he]; rfl
  have : WritesVectorIn s s t i f f.d.toNat (fun q => BitVec.ofNat 32 (val e ((lane t f.a.toNat q).toNat % 65536))) t.readSet := by
    refine writesVectorIn_of (sp := 0) (offs := []) (us := us) h (legal := l && immZero f) (by simp [hl, immZero, hz]) (by rw [hx, hus]; rfl) ?_
    simp only
    by_cases hem : (activeLanes (counted s us t) f).isEmpty = true
    · rw [if_pos hem]
      have : activeLanes (counted s us t) f = [] := by simpa using hem
      unfold writeLanes
      rw [show activeLanes { counted s us t with readSet := t.readSet } f = [] from this]; rfl
    · rw [if_neg hem, checkElems_none]
      · simp only [hee]; rfl
      · intro o ho
        simp only [List.mem_singleton] at ho
        subst ho
        have ha' : ((sreg t f.b).toNat : Int) % 2 = 0 := by omega
        refine ⟨ha', ?_⟩
        have h2 : ((sreg t f.b).toNat : Int) + ((2 * n : Nat) : Int) ≤ (t.prog.scratch : Int) := by exact_mod_cast hn
        show (decide (0 ≤ ((sreg t f.b).toNat : Int)) && decide (((sreg t f.b).toNat : Int) + ((2 * n : Nat) : Int) ≤ (t.prog.scratch : Int))) = true
        rw [decide_eq_true h2, decide_eq_true (by omega)]; rfl
  exact this

theorem edge_in (m n : Nat) (x : Nat) (h : x < n) : edgeAt m n (x : Int) = some x := by
  unfold edgeAt
  split
  · unfold clampInt; rw [if_neg (by omega), if_neg (by omega)]; rfl
  · rw [Int.emod_eq_of_lt (by omega) (by omega)]; rfl
  · simp; omega

theorem edge_clamp (n : Nat) (x : Int) (hn : 0 < n) : edgeAt 0 n x = edgeAt 0 n (max 0 (min x (n - 1))) := by
  unfold edgeAt
  rw [clampInt_eq _ _ _ (by omega), clampInt_eq _ _ _ (by omega)]
  simp only [Option.some.injEq]
  congr 1
  omega

end Sys2Proof.Machine
end

