-- ==== Sys2Proof/Laws/Inputs.lean ====
section
/-!
SUPPORT. What the provers need of input reads, the newest change of an input, and the endpoint table.
-/

namespace Sys2Proof.Machine

/-- The state with another list of canvas records changes nothing but the Vat unit. -/
theorem noteTimed_frame (key : InKey) (t : Task) (s : State) : noteTimed key t s = { s with vat := (noteTimed key t s).vat } := by
  unfold noteTimed
  split
  · unfold markTimed
    split
    · split <;> rfl
    · rfl
  · rfl

theorem noteTimed_issued (key : InKey) (k : Nat) (us : Use) (u : State) (t : Task) (s : State) :
    (noteTimed key (counted u us t) (issued k us t s)).vat = (noteTimed key t s).vat := by
  rw [issued_frame]
  unfold noteTimed markTimed
  split
  · have hc : (counted u us t).canvas = t.canvas := rfl
    have he : (counted u us t).epoch = t.epoch := rfl
    rw [hc, he]
    cases t.canvas with
    | none => rfl
    | some c =>
      cases t.epoch with
      | none => rfl
      | some e =>
        dsimp only
        have ho : openEp { s with sch := { s.sch with ctCount := (issued k us t s).sch.ctCount }, free := (issued k us t s).free, tagCount := (issued k us t s).tagCount } c e = openEp s c e := rfl
        rw [ho]
        cases openEp s c e <;> rfl
  · rfl

theorem noteTimed_tasks (key : InKey) (t : Task) (s : State) : (noteTimed key t s).sch = s.sch := by rw [noteTimed_frame]

theorem onlyTask_noted (key : InKey) (k : Nat) (us : Use) (s u : State) (t t' : Task) (h : t'.slot = t.slot) :
    OnlyTask (noteTimed key t s) (setTask t' (noteTimed key (counted u us t) (issued k us t s))) t t' := by
  have e := issued_frame k us t s
  have e2 : noteTimed key (counted u us t) (issued k us t s) = { issued k us t s with vat := (noteTimed key t s).vat } := by
    rw [noteTimed_frame, noteTimed_issued]
  refine ⟨?_, ?_, ?_⟩
  · rw [← h]; simp
  · intro q hq
    rw [taskAt_setTask_ne _ _ (by rw [h]; exact hq)]
    apply taskAt_congr
    rw [noteTimed_tasks, noteTimed_tasks, issued_tasks]
  · rw [e2, noteTimed_frame]
    unfold setTask
    rw [e]

theorem inputRead_ok {s : State} {k : Nat} {t : Task} {f : F} (h : Ready s k t) (he : Enabled t f) (hb : f.b = 0)
    {key : InKey} (hk : inputKey s t (sreg t f.a + f.imm) = some key) {i : Instr} (spec ver : Bool)
    (hf : spec = true → setFull t key = false) (hx : exec i s = .next (inputRead k f spec ver s)) :
    WritesScalarIn s (noteTimed key t s) t i f.d
      (if ver then versionFor s key (if spec then taskInep t else firmInep t)
       else valueFor s key (if spec then taskInep t else firmInep t))
      (if spec then readSetAfter s t key else t.readSet) := by
  have hk' : inputKey (issued k (sUse 1 f [regS f.a]) t s) (counted s (sUse 1 f [regS f.a]) t) (inputId f (counted s (sUse 1 f [regS f.a]) t)) = some key := by
    rw [← hk, issued_frame]; rfl
  have hv : ∀ a, versionFor (issued k (sUse 1 f [regS f.a]) t s) key a = versionFor s key a := fun a => by rw [issued_frame]; rfl
  have hw : ∀ a, valueFor (issued k (sUse 1 f [regS f.a]) t s) key a = valueFor s key a := fun a => by rw [issued_frame]; rfl
  refine ⟨_, advancePc (setS f.d (if ver then versionFor s key (if spec then taskInep t else firmInep t)
       else valueFor s key (if spec then taskInep t else firmInep t)) { counted s (sUse 1 f [regS f.a]) t with readSet := (if spec then readSetAfter s t key else t.readSet) }), hx, ?_, ?_, ?_⟩
  · unfold inputRead
    rw [show (f.b == 0) = true by simp [hb], issue_legal h]
    simp only [maskOf_counted, he, Bool.not_true, Bool.false_eq_true, if_false, hk']
    have : (spec && setFull (counted s (sUse 1 f [regS f.a]) t) key) = false := by
      cases spec
      · rfl
      · exact hf rfl
    simp only [this, Bool.false_eq_true, if_false, hv, hw]
    have hr : (if spec = true then record (issued k (sUse 1 f [regS f.a]) t s) key (counted s (sUse 1 f [regS f.a]) t) else counted s (sUse 1 f [regS f.a]) t) =
        { counted s (sUse 1 f [regS f.a]) t with readSet := (if spec then readSetAfter s t key else t.readSet) } := by
      cases spec
      · rfl
      · exact record_eq k _ s s t key
    rw [hr]
    show OnlyTask _ (setTask _ (noteTimed key (counted s (sUse 1 f [regS f.a]) t) (issued k (sUse 1 f [regS f.a]) t s))) _ _
    have ht : ∀ a b, setS f.d a b = setS f.d a b := fun _ _ => rfl
    exact onlyTask_noted key k _ s s t _ (by unfold advancePc setS; split <;> rfl)
  · intro r
    show sreg (setS f.d _ { counted s (sUse 1 f [regS f.a]) t with readSet := _ }) r = _
    rw [sreg_setS]; rfl
  · unfold advancePc setS
    split <;> rfl

theorem inputRead_fault {s : State} {k : Nat} {t : Task} {f : F} (h : Ready s k t) (he : Enabled t f) (hb : f.b = 0)
    (hk : inputKey s t (sreg t f.a + f.imm) = none) (spec ver : Bool) :
    inputRead k f spec ver s = raiseExc (counted s (sUse 1 f [regS f.a]) t) ⟨6, sreg t f.a + f.imm⟩ (issued k (sUse 1 f [regS f.a]) t s) := by
  have hk' : inputKey (issued k (sUse 1 f [regS f.a]) t s) (counted s (sUse 1 f [regS f.a]) t) (inputId f (counted s (sUse 1 f [regS f.a]) t)) = none := by
    rw [← hk, issued_frame]; rfl
  unfold inputRead
  rw [show (f.b == 0) = true by simp [hb], issue_legal h]
  simp only [maskOf_counted, he, Bool.not_true, Bool.false_eq_true, if_false, hk']
  rfl

theorem readable_issued (k : Nat) (us : Use) (u s : State) (t : Task) (e : Nat) :
    etabReadable (issued k us t s) (counted u us t) e = etabReadable s t e := by rw [issued_frame]; rfl

/-- A fold that keeps the newer of the candidates of a list (R128). -/
theorem fold_newer (cand : Change → Bool) (xs : List Change) (b : Option Change) :
    let r := xs.foldl (fun best x => if cand x = true then newer best (some x) else best) b
    (r = none → b = none ∧ ∀ x ∈ xs, cand x = false) ∧
    ∀ y, r = some y → (b = some y ∨ (y ∈ xs ∧ cand y = true)) ∧
      ∀ z, (b = some z ∨ (z ∈ xs ∧ cand z = true)) → z.version.toNat ≤ y.version.toNat := by
  induction xs generalizing b with
  | nil =>
    refine ⟨fun h => ⟨h, by simp⟩, fun y hy => ⟨.inl hy, fun z hz => ?_⟩⟩
    simp only [List.foldl_nil] at hy
    rcases hz with hz | hz
    · rw [hy] at hz; cases hz; exact Nat.le_refl _
    · simp at hz
  | cons a xs ih =>
    simp only [List.foldl_cons]
    by_cases ha : cand a = true
    · rw [if_pos ha]
      obtain ⟨i1, i2⟩ := ih (newer b (some a))
      have hn : ∃ m, newer b (some a) = some m ∧ (b = some m ∨ m = a) ∧ a.version.toNat ≤ m.version.toNat ∧
          ∀ z, b = some z → z.version.toNat ≤ m.version.toNat := by
        unfold newer
        cases b with
        | none => exact ⟨a, rfl, .inr rfl, Nat.le_refl _, by simp⟩
        | some x =>
          dsimp only
          by_cases h : x.version.toNat < a.version.toNat
          · rw [if_pos h]
            exact ⟨a, rfl, .inr rfl, Nat.le_refl _, fun z hz => by cases hz; omega⟩
          · rw [if_neg h]
            exact ⟨x, rfl, .inl rfl, by omega, fun z hz => by cases hz; exact Nat.le_refl _⟩
      obtain ⟨m, hm, hm1, hm2, hm3⟩ := hn
      refine ⟨fun h => ?_, fun y hy => ?_⟩
      · have := (i1 h).1; rw [hm] at this; cases this
      · obtain ⟨j1, j2⟩ := i2 y hy
        have hmy := j2 m (.inl hm)
        refine ⟨?_, fun z hz => ?_⟩
        · rcases j1 with j | j
          · rw [hm] at j; cases j
            rcases hm1 with q | q
            · exact .inl q
            · subst q; exact .inr ⟨List.mem_cons_self, ha⟩
          · exact .inr ⟨List.mem_cons_of_mem _ j.1, j.2⟩
        · rcases hz with hz | ⟨hz, hc⟩
          · exact Nat.le_trans (hm3 z hz) hmy
          · rcases List.mem_cons.mp hz with q | q
            · subst q; omega
            · exact j2 z (.inr ⟨q, hc⟩)
    · rw [if_neg ha]
      obtain ⟨i1, i2⟩ := ih b
      have ha' : cand a = false := by simpa using ha
      refine ⟨fun h => ⟨(i1 h).1, fun x hx => ?_⟩, fun y hy => ?_⟩
      · rcases List.mem_cons.mp hx with q | q
        · subst q; exact ha'
        · exact (i1 h).2 x q
      · obtain ⟨j1, j2⟩ := i2 y hy
        refine ⟨?_, fun z hz => ?_⟩
        · rcases j1 with j | j
          · exact .inl j
          · exact .inr ⟨List.mem_cons_of_mem _ j.1, j.2⟩
        · rcases hz with hz | ⟨hz, hc⟩
          · exact j2 z (.inl hz)
          · rcases List.mem_cons.mp hz with q | q
            · subst q; rw [ha'] at hc; cases hc
            · exact j2 z (.inr ⟨q, hc⟩)

/-- Whether a change belongs to an input and applies at or before an epoch of a canvas. -/
def appliesAt (s : State) (key : InKey) (c : Nat) (e : W32) (x : Change) : Bool :=
  decide (x.key = key) && (match Map.find? x.apps c with
    | some a => decide (0 ≤ epochDiff (logEpoch s c e) a)
    | none => false)

theorem changeAt_eq (s : State) (key : InKey) (c : Nat) (e : W32) : changeAt s key c e =
    s.vat.inputs.foldl (fun best x => if appliesAt s key c e x = true then newer best (some x) else best) none := by
  unfold changeAt
  congr 1
  funext best x
  unfold appliesAt
  by_cases h : x.key = key
  · rw [if_pos h]
    cases Map.find? x.apps c with
    | none => simp
    | some a => simp [h]
  · simp [h]

theorem changeAt_newest {s : State} {key : InKey} {c : Nat} {e : W32} {x : Change} (hm : x ∈ s.vat.inputs)
    (ha : appliesAt s key c e x = true)
    (hx : ∀ y ∈ s.vat.inputs, appliesAt s key c e y = true → y ≠ x → y.version.toNat < x.version.toNat) :
    changeAt s key c e = some x := by
  rw [changeAt_eq]
  obtain ⟨i1, i2⟩ := fold_newer (appliesAt s key c e) s.vat.inputs none
  cases hr : s.vat.inputs.foldl (fun best x => if appliesAt s key c e x = true then newer best (some x) else best) none with
  | none => have := (i1 hr).2 x hm; rw [ha] at this; cases this
  | some y =>
    obtain ⟨j1, j2⟩ := i2 y hr
    have hxy := j2 x (.inr ⟨hm, ha⟩)
    rcases j1 with j | j
    · cases j
    · by_cases q : y = x
      · rw [q]
      · exact absurd (hx y j.1 j.2 q) (by omega)

theorem changeAt_none {s : State} {key : InKey} {c : Nat} {e : W32}
    (h : ∀ x ∈ s.vat.inputs, appliesAt s key c e x = false) : changeAt s key c e = none := by
  rw [changeAt_eq]
  obtain ⟨i1, i2⟩ := fold_newer (appliesAt s key c e) s.vat.inputs none
  cases hr : s.vat.inputs.foldl (fun best x => if appliesAt s key c e x = true then newer best (some x) else best) none with
  | none => rfl
  | some y =>
    rcases (i2 y hr).1 with j | j
    · cases j
    · rw [h y j.1] at j; cases j.2

theorem filter_put {α : Type} (m : Map α) (k : Nat) (v : α) (p : Nat × α → Bool) (hp : ∀ w, p (k, w) = false) :
    (Map.put m k v).filter p = m.filter p := by
  induction m with
  | nil => simp [Map.put, hp]
  | cons e m ih =>
    obtain ⟨j, w⟩ := e
    unfold Map.put
    split
    · simp [List.filter_cons, hp]
    · split
      · rename_i h; subst h; simp [List.filter_cons, hp]
      · simp only [List.filter_cons, ih]

theorem filter_set {α : Type} [DecidableEq α] (d : Nat → α) (m : Map α) (k : Nat) (v : α) (p : Nat × α → Bool)
    (hp : ∀ w, p (k, w) = false) : (Map.set d m k v).filter p = m.filter p := by
  unfold Map.set
  split
  · unfold Map.del
    rw [List.filter_filter]
    apply List.filter_congr
    intro e _
    obtain ⟨j, w⟩ := e
    by_cases h : j = k
    · subst h; simp [hp]
    · simp [h]
  · exact filter_put m k v p hp

theorem publishedEtab_wr {r : RegId} (h : r ≠ .etabWord) (v : W32) (s : State) (i j : Nat) :
    publishedEtab (wr r v s i j) = publishedEtab s := by
  unfold publishedEtab wr
  rw [show (Map.set _ s.regs (r.key i j) v).filter (fun x => x.1 % 512 == RegId.etabWord.num) = _ from
    filter_set _ _ _ _ _ (fun w => ?_)]
  have a := regId_num_lt r
  have : (r.key i j) % 512 = r.num := by unfold RegId.key; omega
  simp only [this, beq_eq_false_iff_ne]
  exact fun e => h (regId_num_inj e)

/-- What a record of the journal leaves alone. -/
structure Journaled (s u : State) : Prop where
  reg : ∀ q i j, q ≠ .jseqTx → rd u q i j = rd s q i j
  etab : publishedEtab u = publishedEtab s
  member : u.member = s.member
  epg : u.epg = s.epg

theorem journaled_journal (ty : Nat) (p : List Byte) (s : State) : Journaled s (journal ty p s) := by
  unfold journal
  split
  · unfold sendRecord
    split
    · refine ⟨fun q i j h => ?_, ?_, rfl, rfl⟩
      · show rd (wr .jseqTx _ s) q i j = _
        exact rd_wr_reg h _ _ _ _ _ _
      · show publishedEtab (wr .jseqTx _ s) = _
        exact publishedEtab_wr (by decide) _ _ _ _
    · exact ⟨fun _ _ _ _ => rfl, rfl, rfl, rfl⟩
  · exact ⟨fun _ _ _ _ => rfl, rfl, rfl, rfl⟩

theorem viewOwnerFrom_congr {s u : State} (h : ∀ f : Fld, f.reg ≠ .jseqTx → ∀ i, get u f i = get s f i) (e n : Nat) :
    viewOwnerFrom u e n = viewOwnerFrom s e n := by
  induction n with
  | zero => rfl
  | succ n ih =>
    unfold viewOwnerFrom
    rw [ih, h fld.viewBase.VIEW_BASE (by decide), h fld.viewN.VIEW_N (by decide)]

theorem Journaled.fld {s u : State} (a : Journaled s u) (f : Fld) (h : f.reg ≠ .jseqTx) (i : Nat) : get u f i = get s f i :=
  by unfold get; rw [a.reg _ _ _ h]

theorem Journaled.reason {s u : State} (a : Journaled s u) (m : Map W32) (e : Nat) : entryReason u m e = entryReason s m e := by
  unfold entryReason entryPortOk canvasCtx viewOwner
  rw [viewOwnerFrom_congr a.fld, a.etab, a.member]
  simp only [a.fld fld.canvasCtrl.CTX (by decide), a.fld fld.canvasWidth.WIDTH (by decide),
    a.fld fld.canvasHeight.HEIGHT (by decide), a.fld fld.univCtrl.CANVAS (by decide)]

theorem Journaled.staged {s u : State} (a : Journaled s u) (e : Nat) (w : W32) : stagedEntry u e w = stagedEntry s e w := by
  unfold stagedEntry; rw [a.epg]

theorem rd_writes (e : Nat) (val : Nat → W32) (ls : List Nat) (s : State) (w : Nat) :
    rd (forEach ls (fun k u => wr .etabWord (val k) u e k) s) .etabWord e w = if w ∈ ls then val w else rd s .etabWord e w := by
  show rd (ls.foldl (fun u k => wr .etabWord (val k) u e k) s) .etabWord e w = _
  induction ls generalizing s with
  | nil => simp
  | cons a ls ih =>
    rw [List.foldl_cons, ih]
    by_cases h1 : w ∈ ls
    · simp [h1]
    · by_cases h2 : w = a
      · subst h2; simp [h1]
      · simp only [h1, List.mem_cons, h2, or_self, if_false]
        exact rd_wr_key _ _ _ _ _ _ _ _ (by unfold RegId.key; omega)

theorem etabRd_ok {s : State} {k : Nat} {t : Task} {f : F} (h : Ready s k t) (he : Enabled t f) (hb : f.b = 0)
   (hi : f.imm.toNat < 16) (hr : etabReadable s t (sreg t f.a).toNat = true) (hf : setFull t ⟨8, t.ctx, 0⟩ = false) :
      WritesScalarIn s s t (.etabRd k f) f.d
        (etabValue s t (sreg t f.a).toNat f.imm.toNat) (readSetAfter s t ⟨8, t.ctx, 0⟩) := by
  have h1 : etabReadable (issued k (sUse 1 f [regS f.a]) t s) (counted s (sUse 1 f [regS f.a]) t) (sreg t f.a).toNat = true := by
    rw [← hr, issued_frame]; rfl
  have h3 : ∀ e w, etabValue (issued k (sUse 1 f [regS f.a]) t s) (counted s (sUse 1 f [regS f.a]) t) e w = etabValue s t e w :=
    fun _ _ => by rw [issued_frame]; rfl
  refine ⟨_, advancePc (setS f.d (etabValue s t (sreg t f.a).toNat f.imm.toNat) { counted s (sUse 1 f [regS f.a]) t with readSet := readSetAfter s t ⟨8, t.ctx, 0⟩ }), rfl, ?_, ?_, ?_⟩
  · rw [show (f.b == 0 && decide (f.imm.toNat < 16)) = true by simp [hb, hi], issue_legal h]
    simp only [maskOf_counted, he, Bool.not_true, Bool.false_eq_true, if_false, sreg_counted, h1]
    have : setFull (counted s (sUse 1 f [regS f.a]) t) ⟨8, (counted s (sUse 1 f [regS f.a]) t).ctx, 0⟩ = false := hf
    simp only [this, Bool.false_eq_true, if_false]
    rw [show record (issued k (sUse 1 f [regS f.a]) t s) ⟨8, (counted s (sUse 1 f [regS f.a]) t).ctx, 0⟩ (counted s (sUse 1 f [regS f.a]) t) = _ from record_eq k _ s s t ⟨8, t.ctx, 0⟩]
    rw [h3]
    exact onlyTask_keep k _ s t _ (by unfold advancePc setS; split <;> rfl)
  · intro r
    show sreg (setS f.d _ { counted s (sUse 1 f [regS f.a]) t with readSet := _ }) r = _
    rw [sreg_setS]; rfl
  · unfold advancePc setS
    split <;> rfl

theorem etabRd_bad {s : State} {k : Nat} {t : Task} {f : F} (h : Ready s k t) (he : Enabled t f) (hb : f.b = 0)
   (hi : f.imm.toNat < 16) (hf : TasksFit s) (hr : etabReadable s t (sreg t f.a).toNat = false) : Terminates s t (.etabRd k f) 1 6 0x80000000 := by
  have h1 : etabReadable (issued k (sUse 1 f [regS f.a]) t s) (counted s (sUse 1 f [regS f.a]) t) (sreg t f.a).toNat = false := by
    rw [← hr, issued_frame]; rfl
  refine exc_of h hf (l := f.b == 0 && decide (f.imm.toNat < 16)) (by simp [hb, hi]) ⟨6, 0x80000000⟩ ?_ (by decide) (by decide) (by decide) rfl
  simp only [maskOf_counted, he, Bool.not_true, Bool.false_eq_true, if_false, sreg_counted, h1]
  rfl

theorem privileged_issued (k : Nat) (us : Use) (u s : State) (t : Task) : privileged (issued k us t s) (counted u us t) = privileged s t := by
  rw [issued_frame]; rfl

theorem etabWr_bad {s : State} {k : Nat} {t : Task} {f : F} (h : Ready s k t) (he : Enabled t f) (hb : f.b = 0)
   (hi : f.imm.toNat < 16) (hf : TasksFit s) (hr : privileged s t = false) : Terminates s t (.etabWr k f) 1 2 t.pc := by
  refine exc_of h hf (l := f.b == 0 && decide (f.imm.toNat < 16)) (by simp [hb, hi]) ⟨2, t.pc⟩ ?_ (by simp) (by simp) (by simp) rfl
  simp only [maskOf_counted, he, Bool.not_true, Bool.false_eq_true, if_false, privileged_issued, hr]
  rfl

theorem etabWr_exec {s : State} {k : Nat} {t : Task} {f : F} (h : Ready s k t) (he : Enabled t f) (hb : f.b = 0)
   (hi : f.imm.toNat < 16) (hp : privileged s t = true) (hu : undoable t = false) (hs : standby s = false) (hl : (sreg t f.a).toNat < endpoints s.member) :
   ∃ ty pl, exec (.etabWr k f) s = .next (setTask (advancePc (counted s (etabWrUse f) t)) (etabWordWrite (sreg t f.a).toNat f.imm.toNat (sreg t f.d) (journal ty pl (issued k (etabWrUse f) t s)))) := by
  refine ⟨3, leBytes 4 (RegId.off .etabWord (sreg t f.a).toNat f.imm.toNat) ++ leBytes 4 (sreg t f.d).toNat ++ leBytes 4 svcFn, congrArg Host.Outcome.next (a₂ := setTask (advancePc (counted s (etabWrUse f) t)) _) ?_⟩
  rw [show (f.b == 0 && decide (f.imm.toNat < 16)) = true by simp [hb, hi], issue_legal h]
  have h1 : undoable (counted s (etabWrUse f) t) = false := hu
  have h2 : standby (issued k (etabWrUse f) t s) = false := by rw [← hs, issued_frame]; rfl
  have h3 : ¬ endpoints (issued k (etabWrUse f) t s).member ≤ (sreg t f.a).toNat := by rw [issued_frame]; dsimp only; omega
  simp only [maskOf_counted, he, Bool.not_true, Bool.false_eq_true, if_false, sreg_counted, privileged_issued, hp, h1, h2, Bool.false_or, decide_eq_true_eq, h3]
  rfl

theorem rd_etabChange (c : Nat) (s : State) (i j : Nat) : rd (etabChange c s) .etabWord i j = rd s .etabWord i j :=
  (within_etabChange (μ := 1243373631511159799618075390317669065277336343506000064763716334873118423642959641982694842256373315106943008410574207175312546561422291600002310875599997493331968) c rfl (Within.refl s)).reg .etabWord (by decide) i j

theorem publishEntry_word (e : Nat) (m : Map W32) (s : State) (w : Nat) (hw : w < 16) :
    rd (publishEntry e m s) .etabWord e w = entryWord w (Map.get (fun _ => 0) m (16 * e + w)) := by
  have after : ∀ (u : State) (x : W32), rd u .etabWord e w = x →
      rd (match viewOwner u e with | some c => etabChange c u | none => u) .etabWord e w = x := by
    intro u x hu
    split
    · rw [rd_etabChange, hu]
    · exact hu
  have marked : ∀ (u : State) (b : Bool) (p : EpSt) (x : W32), rd u .etabWord e w = x →
      rd (if b = true then setEp e p u else u) .etabWord e w = x := by
    intro u b p x hu
    cases b <;> exact hu
  unfold publishEntry
  apply after
  apply marked
  rw [rd_writes e (fun k => entryWord k (Map.get (fun _ => 0) m (16 * e + k))), if_pos (List.mem_range.mpr hw)]

theorem get_staged (s : State) (e : Nat) (w0 : W32) (w : Nat) (hw : w < 16) : Map.get (fun _ => 0) (stagedEntry s e w0) (16 * e + w) =
    if w = 0 then w0 else Map.get (fun _ => 0) s.epg.stage (16 * e + w) := by
  unfold stagedEntry
  rw [show List.range 16 = [0,1,2,3,4,5,6,7,8,9,10,11,12,13,14,15] from rfl]
  simp only [List.map_cons, List.map_nil, Map.get]
  interval_cases w <;> simp

end Sys2Proof.Machine
end

