-- ==== Sys2Proof/Laws/Packets.lean ====
section
/-!
SUPPORT. What the provers need of the packet instructions.
-/

namespace Sys2Proof.Machine

theorem pktOp_runs {s : State} {k : Nat} {us : Use} {t : Task} {f : F} (h : Ready s k t) (he : Enabled t f) (hp : privileged s t = true)
    (hu : undoable t = false) {l : Bool} (hl : l = true) {pre : State → Task → Option Exc} {body : Body}
    (hpre : pre (issued k us t s) (counted s us t) = none) :
    pktOp k us f l pre body s = settle (counted s us t) (issued k us t s) (body (issued k us t s) (counted s us t)) := by
  unfold pktOp
  rw [hl, issue_legal h]
  have h1 : undoable (counted s us t) = false := hu
  simp only [maskOf_counted, he, Bool.not_true, Bool.false_eq_true, if_false, privileged_issued, hp, hpre, h1]

theorem goesOn_keep {s : State} {k : Nat} {us : Use} {t u : Task} {i : Instr} {pc : W32} (hs : u.slot = t.slot)
    (hx : exec i s = .next (setTask { u with pc := pc, steps := t.steps + 1, cycles := (counted s us t).cycles, front := (counted s us t).front, was := none } (issued k us t s))) :
    GoesOn s t i pc u :=
  ⟨_, _, hx, onlyTask_keep k us s t _ hs, rfl⟩

theorem pktOf_setPkt (b : PktBuf) (t : Task) (h : W32) :
    pktOf (setPkt b t) h = if h = b.handle ∧ (pktOf t h).isSome then some b else pktOf t h := by
  unfold pktOf setPkt
  induction t.pkts with
  | nil => simp
  | cons a xs ih =>
    simp only [List.map_cons, List.find?_cons]
    by_cases h1 : a.handle = b.handle
    · simp only [h1, if_true]
      by_cases h2 : b.handle = h
      · simp [h2]
      · have : ¬ h = b.handle := fun q => h2 q.symm
        have h2' : (b.handle == h) = false := by simpa using h2
        simp only [h2', this, false_and, if_false] at ih ⊢
        exact ih
    · simp only [h1, if_false]
      by_cases h2 : a.handle = h
      · have : ¬ h = b.handle := fun q => h1 (h2.trans q)
        simp [h2, this]
      · have h2' : (a.handle == h) = false := by simpa using h2
        simp only [h2'] at ih ⊢
        exact ih

theorem pktOf_dropPkt (g : W32) (t : Task) (h : W32) : pktOf (dropPkt g t) h = if h = g then none else pktOf t h := by
  unfold pktOf dropPkt
  induction t.pkts with
  | nil => simp
  | cons a xs ih =>
    by_cases h1 : a.handle = g
    · have : (a.handle != g) = false := by simp [h1]
      rw [List.filter_cons, if_neg (by simp [this])]
      rw [ih]
      by_cases h2 : h = g
      · simp [h2]
      · have : (a.handle == h) = false := by simp [h1, Ne.symm h2]
        simp [h2, List.find?_cons, this]
    · have : (a.handle != g) = true := by simpa using h1
      rw [List.filter_cons, if_pos this]
      simp only [List.find?_cons]
      by_cases h3 : a.handle = h
      · have : ¬ h = g := fun q => h1 (h3.trans q)
        simp [h3, this]
      · have h3' : (a.handle == h) = false := by simpa using h3
        simp only [h3']
        exact ih

theorem handle_of {t : Task} {h : W32} {b : PktBuf} (hb : pktOf t h = some b) : b.handle = h := by
  have := List.find?_some hb
  simpa using this

theorem wordOr_none {s : State} {k : Nat} {us : Use} {t : Task} {f : F} {b : PktBuf} (hb : pktOf t (sreg t f.a) = some b)
    (h4 : (sreg t f.b).toNat % 4 = 0) (hlt : (sreg t f.b).toNat < 9632) : wordOr f (issued k us t s) (counted s us t) = none := by
  have : pktOf (counted s us t) (sreg (counted s us t) f.a) = some b := hb
  unfold wordOr heldOr pktSize
  simp only [sreg_counted, this] 
  have h1 : ((sreg t f.b).toNat % 4 != 0) = false := by simp [h4]
  have h2 : ¬ 9632 ≤ (sreg t f.b).toNat := by omega
  have : pktOf (counted s us t) (sreg t f.a) = some b := hb
  simp [h1, h2, this]

theorem heldOr_none {s : State} {k : Nat} {us : Use} {t : Task} {f : F} {b : PktBuf} (hb : pktOf t (sreg t f.a) = some b) :
    heldOr f (issued k us t s) (counted s us t) = none := by
  have : pktOf (counted s us t) (sreg (counted s us t) f.a) = some b := hb
  unfold heldOr
  rw [this]; rfl

theorem read_eq (b : PktBuf) (o n : Nat) : ofLe (b.read o n) = leNumber b.byte o n := rfl

theorem le4 (g : Nat → Byte) (o : Nat) : leNumber g o 4 = (g o).toNat + 256 * (g (o+1)).toNat + 65536 * (g (o+2)).toNat + 16777216 * (g (o+3)).toNat := by
  unfold leNumber
  rw [show List.range 4 = [0,1,2,3] from rfl]
  simp only [List.map_cons, List.map_nil, ofLe, Nat.add_zero]
  omega

theorem le2 (g : Nat → Byte) (o : Nat) : leNumber g o 2 = (g o).toNat + 256 * (g (o+1)).toNat := by
  unfold leNumber
  rw [show List.range 2 = [0,1] from rfl]
  simp only [List.map_cons, List.map_nil, ofLe, Nat.add_zero]
  omega

theorem le1 (g : Nat → Byte) (o : Nat) : leNumber g o 1 = (g o).toNat := by
  unfold leNumber
  rw [show List.range 1 = [0] from rfl]
  simp only [List.map_cons, List.map_nil, ofLe, Nat.add_zero]
  omega

theorem range_take (g : Nat → Byte) (n m : Nat) : ((List.range n).map g).take m = (List.range (min m n)).map g := by
  rw [← List.map_take, List.take_range]

theorem range_drop (g : Nat → Byte) (n m : Nat) : ((List.range n).map g).drop m = (List.range (n - m)).map (fun x => g (m + x)) := by
  apply List.ext_getElem
  · simp
  · intro i h1 h2
    simp

theorem frame_bytes (b : PktBuf) (cls : Nat) : (pktFrame b cls).bytes =
   (if leNumber b.byte 13 1 < 128 then (List.range b.frameLen).map (fun x => b.byte (32 + x)) else
        (List.range (min 12 b.frameLen)).map (fun x => b.byte (32 + x)) ++ [0x81, 0x00, BitVec.ofNat 8 (leNumber b.byte 13 1 / 16 % 8 * 32 + leNumber b.byte 13 1 % 16), b.byte 12] ++
          (List.range (b.frameLen - 12)).map (fun x => b.byte (44 + x))) := by
  unfold pktFrame
  dsimp only
  rw [read_eq b 12 4, le4, le1]
  have a0 := (b.byte 12).isLt
  have a1 := (b.byte (12+1)).isLt
  have a2 := (b.byte (12+2)).isLt
  have a3 := (b.byte (12+3)).isLt
  rw [show (12+1) = 13 from rfl] at *
  have e : ((b.byte 12).toNat + 256 * (b.byte 13).toNat + 65536 * (b.byte (12+2)).toNat + 16777216 * (b.byte (12+3)).toNat) / 2^15 % 2 = (b.byte 13).toNat / 128 := by omega
  rw [e]
  by_cases h : (b.byte 13).toNat < 128
  · rw [if_neg (by omega), if_pos h]; rfl
  · rw [if_pos (by omega), if_neg h]
    unfold PktBuf.read
    rw [range_take, range_drop]
    have : ∀ n : Nat, beBytes 2 n = [BitVec.ofNat 8 (n/256), BitVec.ofNat 8 n] := fun n => rfl
    rw [this]
    have h1 : BitVec.ofNat 8 ((bitsOf ((b.byte 12).toNat + 256 * (b.byte 13).toNat + 65536 * (b.byte (12+2)).toNat + 16777216 * (b.byte (12+3)).toNat) 12 3 * 8192 + ((b.byte 12).toNat + 256 * (b.byte 13).toNat + 65536 * (b.byte (12+2)).toNat + 16777216 * (b.byte (12+3)).toNat) % 4096) / 256) = BitVec.ofNat 8 ((b.byte 13).toNat / 16 % 8 * 32 + (b.byte 13).toNat % 16) := by
      congr 1
      unfold bitsOf
      omega
    have h2 : BitVec.ofNat 8 (bitsOf ((b.byte 12).toNat + 256 * (b.byte 13).toNat + 65536 * (b.byte (12+2)).toNat + 16777216 * (b.byte (12+3)).toNat) 12 3 * 8192 + ((b.byte 12).toNat + 256 * (b.byte 13).toNat + 65536 * (b.byte (12+2)).toNat + 16777216 * (b.byte (12+3)).toNat) % 4096) = b.byte 12 := by
      apply BitVec.eq_of_toNat_eq
      simp only [BitVec.toNat_ofNat]
      unfold bitsOf
      omega
    rw [h1, h2]
    simp only [List.append_assoc, List.cons_append, List.nil_append]
    congr 1
    simp only [List.cons.injEq, true_and]
    congr 1
    funext x
    congr 1
    omega

theorem pkt_exc {s : State} {k : Nat} {us : Use} {t : Task} {f : F} (h : Ready s k t) (he : Enabled t f) (hf : TasksFit s)
    (hp : privileged s t = true) (l : Bool) (pre : State → Task → Option Exc) (body : Body) (i : Instr) (x : Exc) (hl : l = true)
    (hx : exec i s = .next (pktOp k us f l pre body s)) (hpre : pre (issued k us t s) (counted s us t) = some x)
    (hcode : x.code = 3 ∨ x.code = 4) : Terminates s t i 1 x.code x.info := by
  have : Terminates s t i (if x.code = 0x0B then 2 else 1) x.code x.info := by
    refine exc_of h hf hl x ?_ (by omega) (by omega) (by omega) hx
    simp only [maskOf_counted, he, Bool.not_true, Bool.false_eq_true, if_false, privileged_issued, hp, hpre]
  rw [if_neg (by omega)] at this
  exact this

end Sys2Proof.Machine
end

