-- ==== Sys2Proof/Laws/TaskOps.lean ====
section
/-!
SUPPORT. What the provers need of the task instructions.
-/

namespace Sys2Proof.Machine

theorem memOnly_flushStaged (keep : Nat → Bool) (t : Task) (s : State) : MemOnly s (flushStaged keep t s) := by
  unfold flushStaged
  split
  · split
    · split
      · exact MemOnly.refl s
      · apply memOnly_forEach
        intro x u
        dsimp only
        split
        · exact memOnly_put _ _ _
        · exact MemOnly.refl u
    · exact MemOnly.refl s
  · exact MemOnly.refl s

theorem memOnly_maskLanded (t : Task) (s : State) : MemOnly s (maskLanded t s) := by
  unfold maskLanded
  split
  · split
    · split
      · exact MemOnly.refl s
      · exact memOnly_forEach _ (fun _ _ => memOnly_forEach _ (fun _ _ => memOnly_zero _ _ _) _ _) _ s
    · exact MemOnly.refl s
  · exact MemOnly.refl s

theorem landTile_frame (t : Task) (s : State) : landTile t s =
    { s with fmem := (landTile t s).fmem, fbad := (landTile t s).fbad, pwr := (landTile t s).pwr, vat := (landTile t s).vat } := by
  unfold landTile
  split
  · split
    · rfl
    · have h : MemOnly s (maskLanded t (flushStaged (fun _ => true) t s)) :=
        (memOnly_flushStaged _ t s).trans (memOnly_maskLanded t _)
      dsimp only
      generalize maskLanded t (flushStaged (fun _ => true) t s) = u at h ⊢
      split
      · rw [h]
      · unfold clearFill updRec setCanvas
        rw [h]
  · rfl

theorem noteTile_frame (t : Task) (s : State) :
    noteTile t s = { s with sch := { s.sch with tileAffine := (noteTile t s).sch.tileAffine } } := by
  unfold noteTile
  split <;> rfl

theorem taskOp_runs {s : State} {k cyc : Nat} {t : Task} {f : F} (h : Ready s k t) (he : Enabled t f) (hi : f.imm = 0) (body : Body) :
    taskOp k cyc f body s = settle (counted s (aloneUse cyc) t) (issued k (aloneUse cyc) t s) (body (issued k (aloneUse cyc) t s) (counted s (aloneUse cyc) t)) := by
  unfold taskOp
  rw [show immZero f = true by simp [immZero, hi], issue_legal h]
  simp only [maskOf_counted, he, if_true]

/-- A task that parks at a side effect. -/
theorem parks_of {s : State} {k : Nat} {us : Use} {t : Task} (h : Ready s k t) {l : Bool} {body : Body} (hl : l = true)
    (hb : body (issued k us t s) (counted s us t) = .exc ⟨7, t.pc⟩) {i : Instr} (hx : exec i s = .next (issue k us l body s)) :
    ParksAt s t i := by
  rw [hl, issue_legal h, hb] at hx
  generalize hv : ({ counted s us t with st := .parked, excode := 7, exinfo := t.pc, saved := true, staged := [], spill := t.lastCore.map (fun k => k / 8) } : Task) = v
  have hsl : v.slot = t.slot := by rw [← hv]; rfl
  have hx' : exec i s = .next (setTask v (landTile (counted s us t) (issued k us t s))) := by rw [← hv]; exact hx
  have e := issued_frame k us t s
  have et := issued_tasks k us t s
  rw [landTile_frame] at hx'
  generalize (landTile (counted s us t) (issued k us t s)).fmem = m at hx'
  generalize (landTile (counted s us t) (issued k us t s)).vat = w at hx'
  generalize (landTile (counted s us t) (issued k us t s)).fbad = w1 at hx'
  generalize (landTile (counted s us t) (issued k us t s)).pwr = w2 at hx'
  refine ⟨_, v, hx', ?_, by rw [← hv]; rfl, ?_, ?_⟩
  · rw [← hsl]; exact taskAt_setTask_same v _
  · generalize issued k us t s = z at e ⊢
    generalize z.free = a, z.sch.ctCount = c, z.tagCount = g at e
    subst e
    rfl
  · intro q hq
    rw [taskAt_setTask_ne _ _ (by rw [hsl]; exact hq)]
    exact taskAt_congr et q

theorem slot_at {s : State} {k : Nat} {t : Task} (hf : TasksFit s) (h : taskOn s k = some t) : taskAt s t.slot = some t := by
  obtain ⟨q, hq⟩ := taskOn_mem h
  have e := (hf.2.1 _ hq).1
  rw [e]
  have key : ∀ (m : Map Task) (b : Nat), Map.risesFrom b m = true → (q, t) ∈ m → Map.find? m q = some t := by
    intro m
    induction m with
    | nil => intro b _ hm; simp at hm
    | cons x m ih =>
      obtain ⟨j, w⟩ := x
      intro b hr hm
      unfold Map.risesFrom at hr
      simp only [Bool.and_eq_true, decide_eq_true_eq] at hr
      rcases List.mem_cons.mp hm with hm | hm
      · cases hm; simp [Map.find?]
      · have hne : ∀ (m : Map Task) (b : Nat), Map.risesFrom b m = true → (q, t) ∈ m → b ≤ q := by
          intro m
          induction m with
          | nil => intro b _ hm; simp at hm
          | cons y m ih2 =>
            obtain ⟨j2, w2⟩ := y
            intro b hr hm
            unfold Map.risesFrom at hr
            simp only [Bool.and_eq_true, decide_eq_true_eq] at hr
            rcases List.mem_cons.mp hm with hm | hm
            · cases hm; exact hr.1
            · have := ih2 _ hr.2 hm; omega
        have := hne m _ hr.2 hm
        unfold Map.find?
        rw [if_neg (by omega)]
        exact ih _ hr.2 hm
  exact key _ _ hf.1 hq

/-- The body of SPAWN. -/
def spawnBody (f : F) : Body := fun s t =>
    let o : Int := ((sreg t f.a).toNat : Int)
    match checkElems [o] 32 (within t.prog.scratch 32) with
    | some x => .exc x
    | none =>
      let d := childDesc t (spawnDesc t (sreg t f.a).toNat)
      if descBad s d t.ctx then .exc ⟨1, instrAddr t⟩
      else if undoable t && !pureChild t d then .exc ⟨7, instrAddr t⟩
      else
        match (if slotQuotaHit s t.ctx then none else nextSlot s) with
        | none =>
          .gone (setTask { t with st := .waiting, saved := true, steps := t.steps - 1, spill := t.lastCore.map (fun q => q / 8) } s)
        | some slot =>
          let n := t.children.length + 1
          let id := s.sch.nextId
          let s' := createTask d t.ctx (childEpoch t d) (progSnap s (dProg d)) none (some t.id) slot s
          .keep s' (advancePc (setS f.d (BitVec.ofNat 32 n) { t with children := t.children ++ [(n, slot, id)] }))

theorem exec_spawn (k : Nat) (f : F) (s : State) : exec (.spawn k f) s = .next (taskOp k 8 f (spawnBody f) s) := rfl

theorem descBad_issued (k : Nat) (us : Use) (t : Task) (s : State) (d : List W32) (c : Nat) : descBad (issued k us t s) d c = descBad s d c := by
  rw [issued_frame]; rfl

theorem within_32 {t : Task} {o : Nat} : within t.prog.scratch 32 (o : Int) = decide (o + 32 ≤ t.prog.scratch) := by
  unfold within
  have : (0 : Int) ≤ o := by omega
  simp only [this, decide_true, Bool.true_and]
  congr 1
  simp only [eq_iff_iff]
  omega

theorem spawnBody_park {s : State} {k : Nat} {t : Task} {f : F} (h32 : (sreg t f.a).toNat % 32 = 0) (hin : (sreg t f.a).toNat + 32 ≤ t.prog.scratch)
    (hd1 : descBad s (childDesc t (spawnDesc t (sreg t f.a).toNat)) t.ctx = false) (hd2 : pureChild t (childDesc t (spawnDesc t (sreg t f.a).toNat)) = false)
    (hu : undoable t = true) : spawnBody f (issued k (aloneUse 8) t s) (counted s (aloneUse 8) t) = .exc ⟨7, t.pc⟩ := by
  unfold spawnBody
  have e1 : undoable (counted s (aloneUse 8) t) = true := hu
  have e2 : pureChild (counted s (aloneUse 8) t) (childDesc (counted s (aloneUse 8) t) (spawnDesc (counted s (aloneUse 8) t) (sreg t f.a).toNat)) = false := hd2
  have e3 : descBad (issued k (aloneUse 8) t s) (childDesc (counted s (aloneUse 8) t) (spawnDesc (counted s (aloneUse 8) t) (sreg t f.a).toNat)) (counted s (aloneUse 8) t).ctx = false := by
    rw [descBad_issued]; exact hd1
  have e4 : checkElems [((sreg t f.a).toNat : Int)] 32 (within (counted s (aloneUse 8) t).prog.scratch 32) = none := by
    apply checkElems_none
    intro o ho
    simp only [List.mem_singleton] at ho
    subst ho
    exact ⟨by omega, by rw [show (counted s (aloneUse 8) t).prog.scratch = t.prog.scratch from rfl, within_32]; simpa using hin⟩
  simp only [sreg_counted, e4, e3, e1, e2, Bool.false_eq_true, if_false, Bool.not_false, Bool.and_self, if_true]
  rfl

theorem takeSlot_tasks (s : State) : (takeSlot s).sch.tasks = s.sch.tasks := by unfold takeSlot; split <;> rfl

/-- A created task stands in its slot, as the descriptor gives it, and no other task has changed. -/
theorem createTask_at (d : List W32) (c : Nat) (epoch : Option W32) (pg : ProgSnap) (tmpl parent : Option Nat) (slot : Nat) (s : State) :
    (∃ u, taskAt (createTask d c epoch pg tmpl parent slot s) slot = some u ∧
      u = { newTask s slot d c epoch pg tmpl parent with st := u.st, readyAt := u.readyAt, waited := u.waited, affine := u.affine, depth := u.depth }) ∧
    ∀ q, q ≠ slot → taskAt (createTask d c epoch pg tmpl parent slot s) q = taskAt s q := by
  have hr : ∀ (b : Bool) (x : State), (if b = true then raise0 16 x else x).sch = x.sch := by
    intro b x
    split
    · rw [(eventOnly_raise0 16 x).frame]
    · rfl
  generalize hn : newTask s slot d c epoch pg tmpl parent = t
  have hslot : t.slot = slot := by rw [← hn]; rfl
  generalize hs1 : takeSlot { s with sch := { s.sch with nextId := s.sch.nextId + 1 } } = s1
  have hs1t : s1.sch.tasks = s.sch.tasks := by rw [← hs1, takeSlot_tasks]
  have hx : ∃ u, u.slot = slot ∧ (u = { t with st := u.st, readyAt := u.readyAt, waited := u.waited, affine := u.affine, depth := u.depth }) ∧
      (if releaseHolds s1 t then makeReady t s1 else setTask t s1) = setTask u s1 := by
    split
    · exact ⟨{ t with st := .ready, readyAt := s1.ot, waited := false, affine := affineOf s1 t, depth := releaseDepth s1 t }, hslot, rfl, rfl⟩
    · exact ⟨t, hslot, rfl, rfl⟩
  obtain ⟨u, hu1, hu2, hu3⟩ := hx
  have hsch : (createTask d c epoch pg tmpl parent slot s).sch = (setTask u s1).sch := by
    unfold createTask
    simp only [hn, hs1, hu3]
    rw [refreshCtx_sch, hr]
  refine ⟨⟨u, ?_, hu2⟩, fun q hq => ?_⟩
  · rw [taskAt_congr (congrArg Sched.tasks hsch), ← hu1]; exact taskAt_setTask_same u s1
  · rw [taskAt_congr (congrArg Sched.tasks hsch), taskAt_setTask_ne _ _ (by rw [hu1]; exact hq)]
    exact taskAt_congr hs1t q

/-- A task that is cancelled while it is live completes with the status of Table 4-6. -/
theorem cancelBy_ended (st : TState) (t : Task) (s : State) (hf : TasksFit s) (hslot : t.slot < 65536) (hctx : t.ctx < 128) (hl : t.finishing = none) :
    Ended s (cancelBy st t s) t true (if st = .waiting ∨ st = .ready then 5 else 4) 0 0 := by
  generalize hstat : (if st = .waiting ∨ st = .ready then 5 else 4 : Nat) = status
  have hst : status ≠ 0 := by rw [← hstat]; split <;> decide
  have hs2 : status < 256 := by rw [← hstat]; split <;> decide
  generalize hu : fillFor t (flushStores t s) = u
  have ht : cancelBy st t s = depart t (taskRecord t status 0 0 0) true u := by
    have h0 : cancelBy st t s = finish t status 0 0 0 u := by
      unfold cancelBy
      rw [hl, ← hstat]
      simp only [hu, Option.isSome_none, Bool.false_eq_true, if_false]
      cases st <;> rfl
    rw [h0]
    unfold finish
    simp only [if_neg hst]
    rw [show (dCpl t.desc || status != 0) = true by simp [hst]]
  have a2 : Silent s u := by
    rw [← hu, fillFor_frame, flushStores_frame]
    exact silent_of rfl rfl rfl
  rw [ht]
  exact a2.ended (depart_ended t status 0 0 0 true u (a2.fit hf) hs2 (by decide) hslot hctx)

/-- A task stored over another slot leaves what `Ended` says. -/
theorem ended_setTask {s u : State} {t v : Task} {record : Bool} {status code : Nat} {info : W32} (h : Ended s u t record status code info)
    (hs : t.slot ≠ v.slot) : Ended s (setTask v u) t record status code info := by
  unfold Ended at h ⊢
  rw [taskAt_setTask_ne _ _ hs]
  exact h

/-- What the completion of a task with status OK does, where its template chains no other (R82, R108). -/
theorem completeOk_ended (t : Task) (pstat : Nat) (s : State) (hf : TasksFit s) (hslot : t.slot < 65536) (hctx : t.ctx < 128)
    (hn : ∀ n, t.tmpl = some n → ∀ m, m ≠ n → tmplKind s m = 7 → (rd s .tmplSrc m).toNat ≠ n) :
    ∃ u, Silent s u ∧ completeOk t pstat s = depart t (taskRecord t 0 pstat 0 0) (dCpl t.desc) u := by
  generalize hu : keepDone t (noteTile t (flushStores t (landTile t s))) = u
  have a2 : Silent s u := by
    rw [← hu, keepDone_frame, noteTile_frame, flushStores_frame, landTile_frame]
    exact silent_of rfl rfl rfl
  refine ⟨u, a2, ?_⟩
  unfold completeOk finish
  rw [hu]
  simp only [if_true]
  rw [show (dCpl t.desc || (0 : Nat) != 0) = dCpl t.desc by simp]
  cases ht : t.tmpl with
  | none => rfl
  | some n =>
    generalize hd : depart t (taskRecord t 0 pstat 0 0) (dCpl t.desc) u = v
    have hv : ∀ r : RegId, r = .tmplBind ∨ r = .tmplSrc → ∀ i, rd v r i = rd s r i := by
      intro r hr i
      rw [← a2.regs r i 0 (by rintro rfl; simp at hr) (by rintro rfl; simp at hr) (by rintro rfl; simp at hr), ← hd]
      refine (within_depart (μ := 4408058197511367763232753050610139619639136142104519986007419848729516916639219892469198609259736506114796393952254645967086956544318049908149097923046509922304) t (taskRecord t 0 pstat 0 0) (dCpl t.desc) ?_ rfl (Within.refl u)).reg r ?_ i 0
      · exact fun _ => ⟨hslot, hctx⟩
      · rcases hr with rfl | rfl <;> decide
    have : (tmplsBound v 7 n).filter (fun m => m != n) = [] := by
      rw [List.filter_eq_nil_iff]
      intro m hm
      unfold tmplsBound at hm
      simp only [List.mem_filter, Bool.and_eq_true, beq_iff_eq] at hm
      have hk : tmplKind v m = tmplKind s m := by
        unfold tmplKind get; rw [show rd v fld.tmplBind.KIND.reg m = _ from hv .tmplBind (.inl rfl) m]; rfl
      rw [hk, hv .tmplSrc (.inr rfl) m] at hm
      by_cases hmn : m = n
      · simp [hmn]
      · exact absurd hm.2.1.2 (hn n ht m hmn hm.2.1.1)
    dsimp only
    rw [this]
    rfl

theorem depart_record {t : Task} {ws : List W32} {record : Bool} {s : State} (hf : TasksFit s) {u : Task} {w : List W32}
    (h : taskAt (depart t ws record s) t.slot = some u) (hw : u.finishing = some w) : w = ws := by
  unfold depart at h
  split at h
  · split at h
    · rw [freeTask_none _ _ (by unfold TasksFit; rw [writeTaskRecord_sch]; exact hf)] at h; cases h
    · rw [show taskAt (setTask _ s) t.slot = _ from taskAt_setTask_same { t with st := .waiting, finishing := some ws, stores := [], staged := [] } s] at h
      cases h
      cases hw
      rfl
  · rw [freeTask_none _ _ hf] at h; cases h

theorem cancelTarget_at {s : State} {t u : Task} {x : W32} (hf : TasksFit s) (h : cancelTarget s t x = some u) :
    taskAt s u.slot = some u := by
  have key : ∀ q, taskAt s q = some u → taskAt s u.slot = some u := by
    intro q hq
    have := (hf.2.1 _ (map_find_mem _ _ _ hq)).1
    simp only at this
    rw [this]; exact hq
  unfold cancelTarget at h
  split at h
  · split at h
    · split at h
      · rename_i v hv
        split at h
        · cases h; exact key _ hv
        · cases h
      · cases h
    · cases h
  · split at h
    · rename_i v hv
      split at h
      · cases h; exact key _ hv
      · cases h
    · cases h

end Sys2Proof.Machine
end

