-- ==== Sys2Proof/Laws/Control.lean ====
section
/-!
SUPPORT. What the provers need of the branches and the system instructions.
-/

namespace Sys2Proof.Machine

/-- Core time added after the issue is part of the frame of one task. -/
theorem onlyTask_extra (k n : Nat) (us : Use) (s : State) (t t' : Task) (h : t'.slot = t.slot) (c : Nat) :
    OnlyTask s (setTask t' (addCoreTime c n (issued k us t s))) t t' := by
  refine ⟨?_, ?_, ?_⟩
  · rw [← h]; simp
  · intro q hq
    rw [taskAt_setTask_ne _ _ (by rw [h]; exact hq)]
    exact taskAt_congr (issued_tasks k us t s) q
  · have e := issued_frame k us t s
    generalize issued k us t s = z at e ⊢
    generalize z.free = a, z.sch.ctCount = c, z.tagCount = g at e
    subst e
    rfl

theorem predRuns_iff (t : Task) (f : F) : predRuns f.p (maskOf t f) = true ↔ (f.p = 0 ∨ maskOf t f ≠ 0) := by
  unfold predRuns
  simp

theorem goesOn_extra {s : State} {k n : Nat} {us : Use} {t u : Task} {i : Instr} {pc : W32} (hs : u.slot = t.slot) (c : Nat)
    (hx : exec i s = .next (setTask { u with pc := pc, steps := t.steps + 1, cycles := (counted s us t).cycles + n, front := (counted s us t).front, was := none } (addCoreTime c n (issued k us t s)))) :
    GoesOn s t i pc u :=
  ⟨_, _, hx, onlyTask_extra k n us s t { u with pc := pc, steps := t.steps + 1, cycles := (counted s us t).cycles + n, front := (counted s us t).front, was := none } hs c, rfl⟩

theorem directBranch_goes {s : State} {k : Nat} {t : Task} {f : F} (h : Ready s k t) {l : Bool} (hl : l = true) (link : Bool) (cond : Task → Bool)
    {i : Instr} (hx : exec i s = .next (directBranch k f l link cond s)) (hc : ∀ u, cond (counted u (branchUse f) t) = cond t) :
    (cond t = true → GoesOn s t i (t.pc + 8 * f.imm) (if link then setS 31 (t.pc + 8) t else t)) ∧
    (cond t = false → GoesOn s t i (t.pc + 8) t) := by
  unfold directBranch at hx
  rw [hl, issue_legal h] at hx
  simp only [hc] at hx
  refine ⟨fun hcond => ?_, fun hcond => ?_⟩
  · rw [if_pos hcond] at hx
    refine goesOn_extra (k := k) (us := branchUse f) (n := branchExtra f true) ?_ t.ctx (hx.trans (congrArg Host.Outcome.next ?_))
    · split
      · unfold setS; split <;> rfl
      · rfl
    · unfold extraCycles directTarget
      have : t.pc + 8 * f.imm = t.pc + f.imm * 8 := by rw [BitVec.mul_comm]
      rw [this]
      cases link
      · rfl
      · simp only [if_true]
        rfl
  · rw [if_neg (by rw [hcond]; decide)] at hx
    exact goesOn_extra (k := k) (us := branchUse f) (n := branchExtra f false) rfl t.ctx hx

theorem branchesOn_of {s : State} {k : Nat} {t : Task} {f : F} (h : Ready s k t) {l : Bool} (hl : l = true) (cond : Task → Bool)
    {i : Instr} (hx : exec i s = .next (directBranch k f l false cond s)) (hc : ∀ u, cond (counted u (branchUse f) t) = cond t) {c : Prop} (hcc : cond t = true ↔ c) :
    BranchesOn s t i f.imm c := by
  obtain ⟨a, b⟩ := directBranch_goes h hl false cond hx hc
  refine ⟨fun hp => a (hcc.mpr hp), fun hp => b ?_⟩
  rw [← Bool.not_eq_true, hcc]; exact hp

theorem indirect_goes {s : State} {k : Nat} {t : Task} {f : F} (h : Ready s k t) {l : Bool} (hl : l = true) (link : Bool)
    {i : Instr} (hx : exec i s = .next (indirectBranch k f l link s)) :
    (¬ Enabled t f → GoesOn s t i (t.pc + 8) t) ∧
    (Enabled t f → (sreg t f.a).toNat % 8 = 0 → GoesOn s t i (sreg t f.a) (if link then setS 31 (t.pc + 8) t else t)) ∧
    (Enabled t f → TasksFit s → (sreg t f.a).toNat % 8 ≠ 0 → Terminates s t i 1 3 (sreg t f.a)) := by
  refine ⟨fun he => ?_, fun he h8 => ?_, fun he hf h8 => ?_⟩
  · unfold indirectBranch at hx
    rw [hl, issue_legal h] at hx
    have he' : ¬ predRuns f.p (maskOf t f) = true := he
    simp only [maskOf_counted, if_neg he'] at hx
    exact goesOn_extra (k := k) (us := branchUse f) (n := 4) rfl t.ctx hx
  · unfold indirectBranch at hx
    rw [hl, issue_legal h] at hx
    have he' : predRuns f.p (maskOf t f) = true := he
    simp only [maskOf_counted, he', if_true, sreg_counted, h8, ne_eq, not_true, if_false] at hx
    refine goesOn_extra (k := k) (us := branchUse f) (n := 4) ?_ t.ctx (hx.trans (congrArg Host.Outcome.next ?_))
    · split
      · unfold setS; split <;> rfl
      · rfl
    · cases link
      · rfl
      · simp only [if_true]
        rfl
  · unfold indirectBranch at hx
    have he' : predRuns f.p (maskOf t f) = true := he
    refine exc_of h hf hl ⟨3, sreg t f.a⟩ ?_ (by simp) (by simp) (by simp) hx
    simp only [maskOf_counted, he', if_true, sreg_counted]
    exact if_pos h8

theorem crTimed_frame (n : Nat) (t : Task) (s : State) : crTimed n t s = { s with vat := (crTimed n t s).vat } := by
  unfold crTimed
  split
  · unfold markTimed
    split
    · split <;> rfl
    · rfl
  · rfl

theorem crTimed_issued (n k : Nat) (us : Use) (u : State) (t : Task) (s : State) :
    (crTimed n (counted u us t) (issued k us t s)).vat = (crTimed n t s).vat := by
  rw [issued_frame]
  unfold crTimed markTimed
  split
  · have hc : (counted u us t).canvas = t.canvas := rfl
    have he : (counted u us t).epoch = t.epoch := rfl
    rw [hc, he]
    cases t.canvas with
    | none => rfl
    | some c =>
      cases t.epoch with
      | none => rfl
      | some e =>
        dsimp only
        have ho : openEp { s with sch := { s.sch with ctCount := (issued k us t s).sch.ctCount }, free := (issued k us t s).free, tagCount := (issued k us t s).tagCount } c e = openEp s c e := rfl
        rw [ho]
        cases openEp s c e <;> rfl
  · rfl

theorem onlyTask_vat (k : Nat) (us : Use) (s z : State) (v : Vat) (t t' : Task) (h : t'.slot = t.slot)
    (hz : z = { issued k us t s with vat := v }) : OnlyTask { s with vat := v } (setTask t' z) t t' := by
  subst hz
  refine ⟨?_, ?_, ?_⟩
  · rw [← h]; exact taskAt_setTask_same t' _
  · intro q hq
    rw [taskAt_setTask_ne _ _ (by rw [h]; exact hq)]
    exact taskAt_congr (issued_tasks k us t s) q
  · have e := issued_frame k us t s
    generalize issued k us t s = z at e ⊢
    generalize z.free = a, z.sch.ctCount = c, z.tagCount = g at e
    subst e
    rfl

theorem crValue_counted (us : Use) (u : State) (t : Task) (n : Nat) : crValue (counted u us t) n = crValue t n := rfl

theorem lanes16 (l : Nat) : l ∈ lanes ↔ l < 16 := by unfold lanes; simp

theorem crr_ok {s : State} {k : Nat} {t : Task} {f : F} (h : Ready s k t) (hb : f.b = 0) (hp : f.p = 0) {v : W32}
    (hv : crValue t f.imm.toNat = some v) :
    WritesScalarIn s (crTimed f.imm.toNat t s) t (.crr k f) f.d v t.readSet := by
  have hx : exec (.crr k f) s = .next _ := congrArg Host.Outcome.next (by
    rw [show sysZero f = true by simp [sysZero, hb, hp], issue_legal h])
  rw [crValue_counted, hv] at hx
  refine ⟨_, advancePc (setS f.d v (counted s (aloneUse 1) t)), hx, ?_, ?_, ?_⟩
  · rw [crTimed_frame _ t s]
    refine onlyTask_vat k (aloneUse 1) s _ _ t _ (by unfold advancePc setS; split <;> rfl) ?_
    rw [crTimed_frame, crTimed_issued]
  · intro r
    show sreg (setS f.d v (counted s (aloneUse 1) t)) r = _
    rw [sreg_setS]; rfl
  · unfold advancePc setS
    split <;> rfl

theorem vcrr_ok {s : State} {k : Nat} {t : Task} {f : F} (h : Ready s k t) (hb : f.b = 0) (hp : f.p = 0) {v : W32}
    (hv : crValue t f.imm.toNat = some v) :
    ∃ s' t', exec (.vcrr k f) s = .next s' ∧ OnlyTask (crTimed f.imm.toNat t s) s' t t' ∧
        (∀ q l, l < 16 → lane t' q l = if q = f.d.toNat then (if f.imm.toNat = 0x0A then BitVec.ofNat 32 l else v) else lane t q l) ∧
        t' = { t with pc := t.pc + 8, steps := t.steps + 1, cycles := t'.cycles, front := t'.front, was := none, vregs := t'.vregs } := by
  have hx : exec (.vcrr k f) s = .next _ := congrArg Host.Outcome.next (by
    rw [show sysZero f = true by simp [sysZero, hb, hp], issue_legal h])
  rw [crValue_counted, hv] at hx
  have hf := fold_setLane_frame f.d.toNat (fun i => if f.imm.toNat = 0x0A then BitVec.ofNat 32 i else v) lanes (counted s (aloneUse 1) t)
  change exec (.vcrr k f) s = .next (setTask (advancePc (lanes.foldl (fun u i => setLane f.d.toNat i (if f.imm.toNat = 0x0A then BitVec.ofNat 32 i else v) u) (counted s (aloneUse 1) t))) (crTimed f.imm.toNat (counted s (aloneUse 1) t) (issued k (aloneUse 1) t s))) at hx
  generalize hu : lanes.foldl (fun u i => setLane f.d.toNat i (if f.imm.toNat = 0x0A then BitVec.ofNat 32 i else v) u) (counted s (aloneUse 1) t) = u at *
  refine ⟨_, advancePc u, hx, ?_, ?_, ?_⟩
  · rw [crTimed_frame _ t s]
    have hs : (advancePc u).slot = t.slot := by rw [hf]; rfl
    refine onlyTask_vat k (aloneUse 1) s _ _ t _ hs ?_
    rw [crTimed_frame, crTimed_issued]
  · intro q l hl
    show lane u q l = _
    rw [← hu, lane_writes _ (fun i => if f.imm.toNat = 0x0A then BitVec.ofNat 32 i else v) _ (fun x hx => (lanes16 x).mp hx) _ _ _ hl]
    simp only [lanes16, hl, and_true, lane_counted]
  · rw [hf]; rfl

theorem flush_last (xs : List Host.Cell) (s : State) (a : Nat) :
    memGet (forEach xs (fun x u => fmemPut x.1 [x.2] u) s).fmem a =
      ((xs.filter (fun x => x.1 = a)).getLast?.map (fun x => x.2)).getD (memGet s.fmem a) := by
  unfold forEach
  induction xs generalizing s with
  | nil => rfl
  | cons x xs ih =>
    rw [List.foldl_cons, ih]
    have hm : memGet (fmemPut x.1 [x.2] s).fmem a = if a = x.1 then x.2 else memGet s.fmem a := by
      show memGet (memSet s.fmem x.1 x.2) a = _
      by_cases h : a = x.1
      · rw [if_pos h, h]; exact memGet_memSet_same _ _ _
      · rw [if_neg h]; exact memGet_memSet_ne _ _ h
    rw [hm, List.filter_cons]
    by_cases h : x.1 = a
    · rw [if_pos h.symm, if_pos (show decide (x.1 = a) = true by simpa using h)]
      cases hl : xs.filter (fun x => decide (x.1 = a)) with
      | nil => simp
      | cons y ys => simp [List.getLast?_cons]
    · rw [if_neg (fun q => h q.symm), if_neg (show ¬ decide (x.1 = a) = true by simpa using h)]

/-- An instruction that beside its task changes only frame memory (`MemOnly`). -/
theorem onlyTask_mem (k : Nat) (us : Use) {s u : State} (t t' : Task) (h : t'.slot = t.slot) (hu : MemOnly (issued k us t s) u) :
    OnlyTask { s with fmem := u.fmem, fbad := u.fbad, pwr := u.pwr } (setTask t' u) t t' := by
  unfold MemOnly at hu
  generalize u.fmem = a, u.fbad = b, u.pwr = c at hu ⊢
  subst hu
  refine ⟨?_, ?_, ?_⟩
  · rw [← h]; exact taskAt_setTask_same t' _
  · intro q hq
    rw [taskAt_setTask_ne _ _ (by rw [h]; exact hq)]
    exact taskAt_congr (s := s) (issued_tasks k us t s) q
  · have e := issued_frame k us t s
    generalize issued k us t s = z at e ⊢
    generalize z.free = a, z.sch.ctCount = c, z.tagCount = g at e
    subst e
    rfl

theorem fence_ok {s : State} {k : Nat} {t : Task} {f : F} (h : Ready s k t) (hz : sysZero f = true) :
    ∃ s' t', exec (.fence k f) s = .next s' ∧ OnlyTask { s with fmem := s'.fmem, fbad := s'.fbad, pwr := s'.pwr } s' t t' ∧
      t' = { t with pc := t.pc + 8, steps := t.steps + 1, cycles := t'.cycles, front := t'.front, was := none, stores := [] } ∧
      ∀ a, memGet s'.fmem a = ((t.stores.filter (fun x => x.1 = a)).getLast?.map (fun x => x.2)).getD (memGet s.fmem a) := by
  have hx : exec (.fence k f) s = .next _ := congrArg Host.Outcome.next (by rw [hz, issue_legal h])
  simp only [settle] at hx
  have hm : ∀ a, memGet (flushStores (counted s (aloneUse 1) t) (issued k (aloneUse 1) t s)).fmem a = ((t.stores.filter (fun x => x.1 = a)).getLast?.map (fun x => x.2)).getD (memGet s.fmem a) := by
    intro a
    unfold flushStores
    rw [flush_last]
    rw [show (issued k (aloneUse 1) t s).fmem = s.fmem by rw [issued_frame]]; rfl
  have hu : MemOnly (issued k (aloneUse 1) t s) (flushStores (counted s (aloneUse 1) t) (issued k (aloneUse 1) t s)) := flushStores_frame _ _
  exact ⟨_, advancePc { counted s (aloneUse 1) t with stores := [] }, hx, onlyTask_mem k (aloneUse 1) t (advancePc { counted s (aloneUse 1) t with stores := [] }) rfl hu, rfl, hm⟩

theorem onlyTask_swcnt (k : Nat) (us : Use) (s : State) (m : Map (BitVec 48)) (t t' : Task) (h : t'.slot = t.slot) :
    OnlyTask { s with swcnt := m } (setTask t' { issued k us t s with swcnt := m }) t t' := by
  refine ⟨?_, ?_, ?_⟩
  · rw [← h]; exact taskAt_setTask_same t' _
  · intro q hq
    rw [taskAt_setTask_ne _ _ (by rw [h]; exact hq)]
    exact taskAt_congr (s := s) (issued_tasks k us t s) q
  · have e := issued_frame k us t s
    generalize issued k us t s = z at e ⊢
    generalize z.free = a, z.sch.ctCount = c, z.tagCount = g at e
    subst e
    rfl

theorem cntAdd_ok {s : State} {k : Nat} {t : Task} {f : F} (h : Ready s k t) (hz : sysZero f = true) (h8 : f.imm.toNat < 8) (hu : undoable t = false) :
      ∃ s' t', exec (.cntAdd k f) s = .next s' ∧ OnlyTask { s with swcnt := s'.swcnt } s' t t' ∧
        t' = { t with pc := t.pc + 8, steps := t.steps + 1, cycles := t'.cycles, front := t'.front, was := none } ∧
        ∀ q, Map.get (fun _ => 0) s'.swcnt q = if q = 8 * t.ctx + f.imm.toNat then
          Map.get (fun _ => 0) s.swcnt q + (sreg t f.a).setWidth 48 else Map.get (fun _ => 0) s.swcnt q := by
  have hx : exec (.cntAdd k f) s = .next _ := congrArg Host.Outcome.next (by
      rw [show (sysZero f && decide (f.imm.toNat < 8)) = true by simp [hz, h8], issue_legal h])
  have hu' : undoable (counted s (aloneUse 1) t) = false := hu
  simp only [settle, hu', Bool.false_eq_true, if_false] at hx
  refine ⟨_, advancePc (counted s (aloneUse 1) t), hx, onlyTask_swcnt k _ s _ t _ rfl, rfl, fun q => ?_⟩
  have hw : (issued k (aloneUse 1) t s).swcnt = s.swcnt := by rw [issued_frame]
  have hv : BitVec.ofNat 48 (sreg t f.a).toNat = (sreg t f.a).setWidth 48 := by
      apply BitVec.eq_of_toNat_eq; simp
  show Map.get (fun _ => (0 : BitVec 48)) (Map.set (fun _ => (0 : BitVec 48)) (issued k (aloneUse 1) t s).swcnt (8 * t.ctx + f.imm.toNat)
      (Map.get (fun _ => (0 : BitVec 48)) (issued k (aloneUse 1) t s).swcnt (8 * t.ctx + f.imm.toNat) + BitVec.ofNat 48 (sreg t f.a).toNat)) q = _
  rw [hw, hv]
  by_cases hq : q = 8 * t.ctx + f.imm.toNat
  · rw [if_pos hq, hq, map_get_set_same]
  · rw [if_neg hq, map_get_set_ne _ _ _ hq]

theorem crValue_none (t : Task) (n : Nat) (h : n = 0x12 ∨ n = 0x13 ∨ 0x18 ≤ n) : crValue t n = none := by
  rcases h with rfl | rfl | h
  · rfl
  · rfl
  · obtain ⟨m, rfl⟩ : ∃ m, n = m + 24 := ⟨n - 24, by omega⟩
    rfl

theorem crValue_listed {t : Task} {f : F} {v : W32} (hv : (f.imm, v) ∈ [(0, t.epoch.getD 0xFFFFFFFF), (1, t.inep), (3, BitVec.ofNat 32 t.ctx), (5, t.desc.getD 3 0),
        (8, BitVec.ofNat 32 ((Config.scratchBase t.desc).toNat * 256)), (9, BitVec.ofNat 32 t.prog.scratch), (0x0E, BitVec.ofNat 32 t.readSet.length),
        (0x0F, BitVec.ofNat 32 t.excode), (0x10, t.exinfo), (0x11, if t.priv then BitVec.ofNat 32 t.core else 0),
        (0x14, t.desc.getD 4 0), (0x15, t.desc.getD 5 0), (0x16, t.desc.getD 6 0), (0x17, t.desc.getD 7 0),
        (4, BitVec.ofNat 32 ((if t.firm then 1 else 0) + (if t.priv then 2 else 0) + (if t.demoted then 4 else 0) +
          (if t.resumed then 8 else 0)))] ∨
      (f.imm = 2 ∧ t.canvas = none ∧ v = 0xFF) ∨
      (∃ c, t.canvas = some c ∧
        (f.imm, v) ∈ [(2, BitVec.ofNat 32 c), (6, t.torg), (7, t.tsize), (0x0D, BitVec.ofNat 32 t.period)]) ∨
      (∃ c e, t.canvas = some c ∧ t.epoch = some e ∧
        (f.imm, v) ∈ [(0x0B, t.latch.setWidth 32), (0x0C, t.latch.extractLsb' 32 32)])) :
    crValue t f.imm.toNat = some v ∧ f.imm.toNat ≠ 10 := by
  rcases hv with hm | ⟨hi, hc, rfl⟩ | ⟨c, hc, hm⟩ | ⟨c, e, hc, he, hm⟩
  · simp only [List.mem_cons, Prod.mk.injEq, List.mem_nil_iff, or_false] at hm
    rcases hm with ⟨hi, rfl⟩ | ⟨hi, rfl⟩ | ⟨hi, rfl⟩ | ⟨hi, rfl⟩ | ⟨hi, rfl⟩ | ⟨hi, rfl⟩ | ⟨hi, rfl⟩ | ⟨hi, rfl⟩ | ⟨hi, rfl⟩ | ⟨hi, rfl⟩ | ⟨hi, rfl⟩ | ⟨hi, rfl⟩ | ⟨hi, rfl⟩ | ⟨hi, rfl⟩ | ⟨hi, rfl⟩ <;>
      rw [hi] <;> (refine ⟨?_, by decide⟩) <;> simp [crValue, dw]
  · rw [hi]; refine ⟨?_, by decide⟩; simp [crValue, hc]
  · simp only [List.mem_cons, Prod.mk.injEq, List.mem_nil_iff, or_false] at hm
    rcases hm with ⟨hi, rfl⟩ | ⟨hi, rfl⟩ | ⟨hi, rfl⟩ | ⟨hi, rfl⟩ <;>
      rw [hi] <;> (refine ⟨?_, by decide⟩) <;> simp [crValue, hc]
  · simp only [List.mem_cons, Prod.mk.injEq, List.mem_nil_iff, or_false] at hm
    rcases hm with ⟨hi, rfl⟩ | ⟨hi, rfl⟩ <;>
      rw [hi] <;> (refine ⟨?_, by decide⟩) <;> simp [crValue, hc, he]
    · apply BitVec.eq_of_toNat_eq
      simp only [BitVec.toNat_ofNat, BitVec.extractLsb'_toNat, Nat.shiftRight_eq_div_pow]

end Sys2Proof.Machine
end

