-- ==== Sys2Proof/Laws/FootprintExec.lean ====
section
/-!
SUPPORT. Footprints of the commands that are no instruction of a core.
-/

set_option linter.unreachableTactic false
set_option linter.unusedTactic false

namespace Sys2Proof.Machine

/-! ## InputLog -/

/-! ## Access -/

/-! ## Egress -/

/-! ## Glaze -/

theorem within_execMordWrite {μ : Nat} {σ x : State} (fn : ℕ) (v : W32)  (hμ : Nat.land 130061314568542047986261465276995961068538879875927582199563679005661699345549916448377179343895550024419542944723924665239776997540595443795644638943518778214400 μ = 130061314568542047986261465276995961068538879875927582199563679005661699345549916448377179343895550024419542944723924665239776997540595443795644638943518778214400) (hw : Within μ σ x) :
    WithinOut μ σ (execMordWrite fn v x) := by
  unfold execMordWrite
  repeat' first
    | with_reducible apply WithinOut.next
    | with_reducible apply WithinOut.ite
    | with_reducible assumption
    | with_reducible apply Within.refl
    | with_reducible apply Eq.refl
    | ((with_reducible apply fun k => sub_trans k hμ); exact rfl)
    | ((with_reducible apply sub_set hμ); exact rfl)
    | intro _
    | with_reducible apply Within.ite
    | with_reducible apply within_hostWrite
    | with_reducible apply within_mordStore
    | with_reducible apply Within.foldl
    | (extract_lets +onlyGivenNames a; first | (refine Within.cutAny (μ := μ) (σ := σ) (a := a) ?_ ?_; all_goals (first | (intro ha; clear_value a) | (unfold a; clear a))) | skip)
    | split

theorem within_execMordRead {μ : Nat} {σ x : State} (fn : ℕ)  (hμ : Nat.land 3529417728246369490103468044427714111213158341149459263178439420199542276220440389842067251269939161296446199566204304705235203519792550863288086874470158977024 μ = 3529417728246369490103468044427714111213158341149459263178439420199542276220440389842067251269939161296446199566204304705235203519792550863288086874470158977024) (hw : Within μ σ x) :
    WithinOut μ σ (execMordRead fn x) := by
  unfold execMordRead
  repeat' first
    | with_reducible apply WithinOut.next
    | with_reducible apply WithinOut.ite
    | with_reducible assumption
    | with_reducible apply Within.refl
    | with_reducible apply Eq.refl
    | ((with_reducible apply fun k => sub_trans k hμ); exact rfl)
    | ((with_reducible apply sub_set hμ); exact rfl)
    | intro _
    | with_reducible apply Within.ite
    | with_reducible apply within_hostRead
    | with_reducible apply within_mordRead
    | with_reducible apply Within.foldl
    | (extract_lets +onlyGivenNames a; first | (refine Within.cutAny (μ := μ) (σ := σ) (a := a) ?_ ?_; all_goals (first | (intro ha; clear_value a) | (unfold a; clear a))) | skip)
    | split

theorem within_execPlaneCut {μ : Nat} {σ x : State} (c : ℕ) (e : W32) (p : ℕ)  (hμ : Nat.land 239087172907028875153389641030406762971059892633391040798390373356514097991373564983324507164957139240749275933142495323716884598054131270704328257322955210489856 μ = 239087172907028875153389641030406762971059892633391040798390373356514097991373564983324507164957139240749275933142495323716884598054131270704328257322955210489856) (hw : Within μ σ x) :
    WithinOut μ σ (execPlaneCut c e p x) := by
  unfold execPlaneCut
  repeat' first
    | with_reducible apply WithinOut.next
    | with_reducible apply WithinOut.ite
    | with_reducible assumption
    | with_reducible apply Within.refl
    | with_reducible apply Eq.refl
    | ((with_reducible apply fun k => sub_trans k hμ); exact rfl)
    | ((with_reducible apply sub_set hμ); exact rfl)
    | intro _
    | with_reducible apply Within.ite
    | with_reducible apply within_setWin
    | with_reducible apply within_advance
    | with_reducible apply Within.foldl
    | (extract_lets +onlyGivenNames a; first | (refine Within.cutAny (μ := μ) (σ := σ) (a := a) ?_ ?_; all_goals (first | (intro ha; clear_value a) | (unfold a; clear a))) | skip)
    | split

theorem within_execWindowEnd {μ : Nat} {σ x : State} (c : ℕ) (e : W32)  (hμ : Nat.land 298852959435833479658236442124809257494759755035851175605754746540115835138931483280110026716510845278200989782155651653496813662889687917957310789857239707437056 μ = 298852959435833479658236442124809257494759755035851175605754746540115835138931483280110026716510845278200989782155651653496813662889687917957310789857239707437056) (hw : Within μ σ x) :
    WithinOut μ σ (execWindowEnd c e x) := by
  unfold execWindowEnd
  repeat' first
    | with_reducible apply WithinOut.next
    | with_reducible apply WithinOut.ite
    | with_reducible assumption
    | with_reducible apply Within.refl
    | with_reducible apply Eq.refl
    | ((with_reducible apply fun k => sub_trans k hμ); exact rfl)
    | ((with_reducible apply sub_set hμ); exact rfl)
    | ((with_reducible apply Or.inl); with_reducible apply Eq.refl)
    | ((with_reducible apply Or.inr); (with_reducible apply sub_set hμ); exact rfl)
    | intro _
    | with_reducible apply Within.ite
    | with_reducible apply within_advance
    | with_reducible apply within_put
    | with_reducible apply within_dropStale
    | with_reducible apply within_raise
    | with_reducible apply within_setBit
    | with_reducible apply within_count
    | with_reducible apply Within.foldl
    | (extract_lets +onlyGivenNames a; first | (refine Within.cutAny (μ := μ) (σ := σ) (a := a) ?_ ?_; all_goals (first | (intro ha; clear_value a) | (unfold a; clear a))) | skip)
    | split
    | (with_reducible apply Within.upd)

theorem within_holdPipe {μ : Nat} {σ x : State} (pipe : ℕ) (n : ℕ)  (hμ : Nat.land 14059105607947488696282932836518693308967803494693489478439861164411992439598399594747002144074658928593502845729752797260025831423419686528151609940203637047296 μ = 14059105607947488696282932836518693308967803494693489478439861164411992439598399594747002144074658928593502845729752797260025831423419686528151609940203637047296) (hw : Within μ σ x) :
    Within μ σ (holdPipe pipe n x) := by
  unfold holdPipe
  repeat' first
    | with_reducible assumption
    | with_reducible apply Within.refl
    | with_reducible apply Eq.refl
    | ((with_reducible apply fun k => sub_trans k hμ); exact rfl)
    | ((with_reducible apply sub_set hμ); exact rfl)
    | ((with_reducible apply Or.inl); with_reducible apply Eq.refl)
    | ((with_reducible apply Or.inr); (with_reducible apply sub_set hμ); exact rfl)
    | intro _
    | with_reducible apply Within.ite
    | with_reducible apply Within.foldl
    | (extract_lets +onlyGivenNames a; first | (refine Within.cutAny (μ := μ) (σ := σ) (a := a) ?_ ?_; all_goals (first | (intro ha; clear_value a) | (unfold a; clear a))) | skip)
    | split
    | (with_reducible apply Within.upd)

theorem within_execGlazeSegment {μ : Nat} {σ x : State} (pipe : ℕ) (dataError : Bool)  (hμ : Nat.land 328646181280800325821257891592822504057709104238473121082526717952981092554877310546321935556981558046802455773594678534170229268655138130890885126371698005788672 μ = 328646181280800325821257891592822504057709104238473121082526717952981092554877310546321935556981558046802455773594678534170229268655138130890885126371698005788672) (hw : Within μ σ x) :
    WithinOut μ σ (execGlazeSegment pipe dataError x) := by
  unfold execGlazeSegment
  repeat' first
    | with_reducible apply WithinOut.next
    | with_reducible apply WithinOut.ite
    | with_reducible assumption
    | with_reducible apply Within.refl
    | with_reducible apply Eq.refl
    | ((with_reducible apply fun k => sub_trans k hμ); exact rfl)
    | ((with_reducible apply sub_set hμ); exact rfl)
    | intro _
    | with_reducible apply Within.ite
    | with_reducible apply within_takeSeg
    | with_reducible apply within_settleTiles
    | with_reducible apply within_abandonData
    | with_reducible apply within_glazeSeg
    | with_reducible apply within_holdPipe
    | with_reducible apply Within.foldl
    | (extract_lets +onlyGivenNames a; first | (refine Within.cutAny (μ := μ) (σ := σ) (a := a) ?_ ?_; all_goals (first | (intro ha; clear_value a) | (unfold a; clear a))) | skip)
    | split

/-! ## Send -/

theorem within_execLatch {μ : Nat} {σ x : State} (c : ℕ)  (hμ : Nat.land 312912065043780968354519374961327950803727558530544665084194607704527827578529882874857028860585504206794492627885404406155349097251584022845225929319142928697344 μ = 312912065043780968354519374961327950803727558530544665084194607704527827578529882874857028860585504206794492627885404406155349097251584022845225929319142928697344) (hw : Within μ σ x) :
    WithinOut μ σ (execLatch c x) := by
  unfold execLatch
  repeat' first
    | with_reducible apply WithinOut.next
    | with_reducible apply WithinOut.ite
    | with_reducible assumption
    | with_reducible apply Within.refl
    | with_reducible apply Eq.refl
    | ((with_reducible apply fun k => sub_trans k hμ); exact rfl)
    | ((with_reducible apply sub_set hμ); exact rfl)
    | ((with_reducible apply Or.inl); with_reducible apply Eq.refl)
    | ((with_reducible apply Or.inr); (with_reducible apply sub_set hμ); exact rfl)
    | intro _
    | with_reducible apply Within.ite
    | with_reducible apply within_advance
    | with_reducible apply within_sendLatch
    | with_reducible apply Within.foldl
    | (extract_lets +onlyGivenNames a; first | (refine Within.cutAny (μ := μ) (σ := σ) (a := a) ?_ ?_; all_goals (first | (intro ha; clear_value a) | (unfold a; clear a))) | skip)
    | split
    | (with_reducible apply Within.upd)

theorem within_execStreamTerminated {μ : Nat} {σ x : State} (fn : ℕ) (u : ℕ) (v : W32)  (hμ : Nat.land 439361637943386799304485987680407213865830556759184350725240624622725533016714707532811226513538046453476605550778486206528366435627549506285369167391696235808768 μ = 439361637943386799304485987680407213865830556759184350725240624622725533016714707532811226513538046453476605550778486206528366435627549506285369167391696235808768) (hw : Within μ σ x) :
    WithinOut μ σ (execStreamTerminated fn u v x) := by
  unfold execStreamTerminated
  repeat' first
    | with_reducible apply WithinOut.next
    | with_reducible apply WithinOut.ite
    | with_reducible assumption
    | with_reducible apply Within.refl
    | with_reducible apply Eq.refl
    | ((with_reducible apply fun k => sub_trans k hμ); exact rfl)
    | ((with_reducible apply sub_set hμ); exact rfl)
    | intro _
    | with_reducible apply Within.ite
    | with_reducible apply within_hostWrite
    | with_reducible apply within_univWrite
    | with_reducible apply Within.foldl
    | (extract_lets +onlyGivenNames a; first | (refine Within.cutAny (μ := μ) (σ := σ) (a := a) ?_ ?_; all_goals (first | (intro ha; clear_value a) | (unfold a; clear a))) | skip)
    | split

theorem within_execDrvKick {μ : Nat} {σ x : State} (fn : ℕ) (v : W32)  (hμ : Nat.land 144120420176489536682544398113514654377506683370621071678003540170073691785148316043124181487970208953013045790453677462499802828964012035473698035433035167451136 μ = 144120420176489536682544398113514654377506683370621071678003540170073691785148316043124181487970208953013045790453677462499802828964012035473698035433035167451136) (hw : Within μ σ x) :
    WithinOut μ σ (execDrvKick fn v x) := by
  unfold execDrvKick
  repeat' first
    | with_reducible apply WithinOut.next
    | with_reducible apply WithinOut.ite
    | with_reducible assumption
    | with_reducible apply Within.refl
    | with_reducible apply Eq.refl
    | ((with_reducible apply fun k => sub_trans k hμ); exact rfl)
    | ((with_reducible apply sub_set hμ); exact rfl)
    | intro _
    | with_reducible apply Within.ite
    | with_reducible apply within_hostWrite
    | with_reducible apply within_kickWrite
    | with_reducible apply Within.foldl
    | (extract_lets +onlyGivenNames a; first | (refine Within.cutAny (μ := μ) (σ := σ) (a := a) ?_ ?_; all_goals (first | (intro ha; clear_value a) | (unfold a; clear a))) | skip)
    | split

theorem within_execBlackoutOn {μ : Nat} {σ x : State} (fn : ℕ)  (hμ : Nat.land 200356869423895351352870328607639424025070152308126670776549740274844548987069974569206143668017441001193912553436405024512050397461321522787377289887076698834944 μ = 200356869423895351352870328607639424025070152308126670776549740274844548987069974569206143668017441001193912553436405024512050397461321522787377289887076698834944) (hw : Within μ σ x) :
    WithinOut μ σ (execBlackoutOn fn x) := by
  unfold execBlackoutOn
  repeat' first
    | with_reducible apply WithinOut.next
    | with_reducible apply WithinOut.ite
    | with_reducible assumption
    | with_reducible apply Within.refl
    | with_reducible apply Eq.refl
    | ((with_reducible apply fun k => sub_trans k hμ); exact rfl)
    | ((with_reducible apply sub_set hμ); exact rfl)
    | intro _
    | with_reducible apply Within.ite
    | with_reducible apply within_hostWrite
    | with_reducible apply within_blackoutWrite
    | with_reducible apply Within.foldl
    | (extract_lets +onlyGivenNames a; first | (refine Within.cutAny (μ := μ) (σ := σ) (a := a) ?_ ?_; all_goals (first | (intro ha; clear_value a) | (unfold a; clear a))) | skip)
    | split

theorem within_execBeacon {μ : Nat} {σ x : State} (c : ℕ)  (hμ : Nat.land 312912065043780968354519374961327950803727558530544665084194607704527827578529882874857028860585504206794492627885404406155349097251584022845225929319142928697344 μ = 312912065043780968354519374961327950803727558530544665084194607704527827578529882874857028860585504206794492627885404406155349097251584022845225929319142928697344) (hw : Within μ σ x) :
    WithinOut μ σ (execBeacon c x) := by
  unfold execBeacon
  repeat' first
    | with_reducible apply WithinOut.next
    | with_reducible apply WithinOut.ite
    | with_reducible assumption
    | with_reducible apply Within.refl
    | with_reducible apply Eq.refl
    | ((with_reducible apply fun k => sub_trans k hμ); exact rfl)
    | ((with_reducible apply sub_set hμ); exact rfl)
    | ((with_reducible apply Or.inl); with_reducible apply Eq.refl)
    | ((with_reducible apply Or.inr); (with_reducible apply sub_set hμ); exact rfl)
    | intro _
    | with_reducible apply Within.ite
    | with_reducible apply within_advance
    | with_reducible apply within_sendLatch
    | with_reducible apply Within.foldl
    | (extract_lets +onlyGivenNames a; first | (refine Within.cutAny (μ := μ) (σ := σ) (a := a) ?_ ?_; all_goals (first | (intro ha; clear_value a) | (unfold a; clear a))) | skip)
    | split
    | (with_reducible apply Within.upd)

theorem within_execBlackoutRepeat {μ : Nat} {σ x : State}   (hμ : Nat.land 312912091859396828239713574109377947215419813489276306268981363151650715022057943021950982464334100540601348007949120779127450804759349646738365822186440940865536 μ = 312912091859396828239713574109377947215419813489276306268981363151650715022057943021950982464334100540601348007949120779127450804759349646738365822186440940865536) (hw : Within μ σ x) :
    WithinOut μ σ (execBlackoutRepeat x) := by
  unfold execBlackoutRepeat
  repeat' first
    | with_reducible apply WithinOut.next
    | with_reducible apply WithinOut.ite
    | with_reducible assumption
    | with_reducible apply Within.refl
    | with_reducible apply Eq.refl
    | ((with_reducible apply fun k => sub_trans k hμ); exact rfl)
    | ((with_reducible apply sub_set hμ); exact rfl)
    | ((with_reducible apply Or.inl); with_reducible apply Eq.refl)
    | ((with_reducible apply Or.inr); (with_reducible apply sub_set hμ); exact rfl)
    | intro _
    | with_reducible apply Within.ite
    | with_reducible apply within_advance
    | with_reducible apply within_sendHold
    | with_reducible apply Within.foldl
    | (extract_lets +onlyGivenNames a; first | (refine Within.cutAny (μ := μ) (σ := σ) (a := a) ?_ ?_; all_goals (first | (intro ha; clear_value a) | (unfold a; clear a))) | skip)
    | split
    | (with_reducible apply Within.upd)

theorem within_execBlackoutOff {μ : Nat} {σ x : State} (fn : ℕ)  (hμ : Nat.land 200356869423895351352870328607639424025070152308126670776549740274844548987069974569206143668017441001193912553436405024512050397461321522787377289887076698834944 μ = 200356869423895351352870328607639424025070152308126670776549740274844548987069974569206143668017441001193912553436405024512050397461321522787377289887076698834944) (hw : Within μ σ x) :
    WithinOut μ σ (execBlackoutOff fn x) := by
  unfold execBlackoutOff
  repeat' first
    | with_reducible apply WithinOut.next
    | with_reducible apply WithinOut.ite
    | with_reducible assumption
    | with_reducible apply Within.refl
    | with_reducible apply Eq.refl
    | ((with_reducible apply fun k => sub_trans k hμ); exact rfl)
    | ((with_reducible apply sub_set hμ); exact rfl)
    | intro _
    | with_reducible apply Within.ite
    | with_reducible apply within_hostWrite
    | with_reducible apply within_blackoutWrite
    | with_reducible apply Within.foldl
    | (extract_lets +onlyGivenNames a; first | (refine Within.cutAny (μ := μ) (σ := σ) (a := a) ?_ ?_; all_goals (first | (intro ha; clear_value a) | (unfold a; clear a))) | skip)
    | split

theorem within_execSacnSync {μ : Nat} {σ x : State} (c : ℕ)  (hμ : Nat.land 312912065043780968354519374961327950803727558530544665084194607704527827578529882874857028860585504206794492627885404406155349097251584022845225929319142928697344 μ = 312912065043780968354519374961327950803727558530544665084194607704527827578529882874857028860585504206794492627885404406155349097251584022845225929319142928697344) (hw : Within μ σ x) :
    WithinOut μ σ (execSacnSync c x) := by
  unfold execSacnSync
  repeat' first
    | with_reducible apply WithinOut.next
    | with_reducible apply WithinOut.ite
    | with_reducible assumption
    | with_reducible apply Within.refl
    | with_reducible apply Eq.refl
    | ((with_reducible apply fun k => sub_trans k hμ); exact rfl)
    | ((with_reducible apply sub_set hμ); exact rfl)
    | ((with_reducible apply Or.inl); with_reducible apply Eq.refl)
    | ((with_reducible apply Or.inr); (with_reducible apply sub_set hμ); exact rfl)
    | intro _
    | with_reducible apply Within.ite
    | with_reducible apply within_advance
    | with_reducible apply within_enqueue
    | with_reducible apply Within.forEach
    | with_reducible apply Within.foldl
    | (extract_lets +onlyGivenNames a; first | (refine Within.cutAny (μ := μ) (σ := σ) (a := a) ?_ ?_; all_goals (first | (intro ha; clear_value a) | (unfold a; clear a))) | skip)
    | split
    | (with_reducible apply Within.upd)

theorem within_execDmxPacketStart {μ : Nat} {σ x : State} (p : ℕ)  (hμ : Nat.land 281182112158949773925658656730373866179356069893869789568797223288239848791967991894940042881493178571870056914595055945200516628468393730563032198804072740945920 μ = 281182112158949773925658656730373866179356069893869789568797223288239848791967991894940042881493178571870056914595055945200516628468393730563032198804072740945920) (hw : Within μ σ x) :
    WithinOut μ σ (execDmxPacketStart p x) := by
  unfold execDmxPacketStart
  repeat' first
    | with_reducible apply WithinOut.next
    | with_reducible apply WithinOut.ite
    | with_reducible assumption
    | with_reducible apply Within.refl
    | with_reducible apply Eq.refl
    | ((with_reducible apply fun k => sub_trans k hμ); exact rfl)
    | ((with_reducible apply sub_set hμ); exact rfl)
    | intro _
    | with_reducible apply Within.ite
    | with_reducible apply within_setDmx
    | with_reducible apply within_wakeMem
    | with_reducible apply Within.foldl
    | (extract_lets +onlyGivenNames a; first | (refine Within.cutAny (μ := μ) (σ := σ) (a := a) ?_ ?_; all_goals (first | (intro ha; clear_value a) | (unfold a; clear a))) | skip)
    | split

theorem within_execDmxPacketEnd {μ : Nat} {σ x : State} (p : ℕ)  (hμ : Nat.land 281265347830578857568452812277562728072115461796884027146886131157682473503066688474572028917136198708349156632370677650604216732572890294869259658897102511013888 μ = 281265347830578857568452812277562728072115461796884027146886131157682473503066688474572028917136198708349156632370677650604216732572890294869259658897102511013888) (hw : Within μ σ x) :
    WithinOut μ σ (execDmxPacketEnd p x) := by
  unfold execDmxPacketEnd
  repeat' first
    | with_reducible apply WithinOut.next
    | with_reducible apply WithinOut.ite
    | with_reducible assumption
    | with_reducible apply Within.refl
    | with_reducible apply Eq.refl
    | ((with_reducible apply fun k => sub_trans k hμ); exact rfl)
    | ((with_reducible apply sub_set hμ); exact rfl)
    | intro _
    | with_reducible apply Within.ite
    | with_reducible apply within_bump
    | with_reducible apply within_advance
    | with_reducible apply within_setDmx
    | with_reducible apply within_rdmSend
    | with_reducible apply Within.foldl
    | (extract_lets +onlyGivenNames a; first | (refine Within.cutAny (μ := μ) (σ := σ) (a := a) ?_ ?_; all_goals (first | (intro ha; clear_value a) | (unfold a; clear a))) | skip)
    | split

theorem within_execTableBaseWrite {μ : Nat} {σ x : State} (fn : ℕ) (isStbl : Bool) (v : W32)  (hμ : Nat.land 116002208960594559289978532440477267759571076381234092721123817841249706905951516853630177199820891095826040098994171867979755184954941168373979298156786709710848 μ = 116002208960594559289978532440477267759571076381234092721123817841249706905951516853630177199820891095826040098994171867979755184954941168373979298156786709710848) (hw : Within μ σ x) :
    WithinOut μ σ (execTableBaseWrite fn isStbl v x) := by
  unfold execTableBaseWrite
  repeat' first
    | with_reducible apply WithinOut.next
    | with_reducible apply WithinOut.ite
    | with_reducible assumption
    | with_reducible apply Within.refl
    | with_reducible apply Eq.refl
    | ((with_reducible apply fun k => sub_trans k hμ); exact rfl)
    | ((with_reducible apply sub_set hμ); exact rfl)
    | intro _
    | with_reducible apply Within.ite
    | with_reducible apply within_hostWrite
    | with_reducible apply within_baseWrite
    | with_reducible apply Within.foldl
    | (extract_lets +onlyGivenNames a; first | (refine Within.cutAny (μ := μ) (σ := σ) (a := a) ?_ ?_; all_goals (first | (intro ha; clear_value a) | (unfold a; clear a))) | skip)
    | split

/-! ## Dispatching -/

theorem bestOf_mem {s : State} {k : Nat} {ts : List Task} {t : Task} (h : bestOf s k ts = some t) : t ∈ ts := by
  unfold bestOf at h
  have key : ∀ (l : List Task) (b : Option Task), l.foldl (fun best t => match best with
      | some b => if better s k t b then some t else some b
      | none => some t) b = some t → t ∈ l ∨ b = some t := by
    intro l
    induction l with
    | nil => intro b hb; exact .inr hb
    | cons a l ih =>
      intro b hb
      rcases ih _ hb with h | h
      · exact .inl (List.mem_cons_of_mem _ h)
      · cases b with
        | none => cases h; exact .inl List.mem_cons_self
        | some c =>
          dsimp only at h
          split at h
          · cases h; exact .inl List.mem_cons_self
          · exact .inr h
  rcases key ts none h with h | h
  · exact h
  · cases h

theorem choose_mem {s : State} {k : Nat} {t : Task} (h : choose s k = some t) : t ∈ allTasks s := by
  unfold choose at h
  extract_lets ready aff at h
  split at h
  · exact (List.mem_filter.mp (List.mem_filter.mp (bestOf_mem h)).1).1
  · exact (List.mem_filter.mp (List.mem_filter.mp (bestOf_mem h)).1).1

theorem within_execDispatch {μ : Nat} {σ x : State}   (hμ : Nat.land 878694100496718043517683302282418331810487718418343092402491322775749527474899974671687634004666183037093927858109549828751614463963730408009475621262727315456 μ = 878694100496718043517683302282418331810487718418343092402491322775749527474899974671687634004666183037093927858109549828751614463963730408009475621262727315456) (hw : Within μ σ x) :
    WithinOut μ σ (execDispatch x) := by
  unfold execDispatch
  repeat' first
    | with_reducible apply WithinOut.next
    | with_reducible apply WithinOut.ite
    | with_reducible assumption
    | with_reducible apply Within.refl
    | with_reducible apply Eq.refl
    | ((with_reducible apply fun k => sub_trans k hμ); exact rfl)
    | ((with_reducible apply sub_set hμ); exact rfl)
    | (intro hs; have q := fits_filter ‹_ ∈ List.filter _ _› ‹_› hs; exact q)
    | (intro hs; have q := fits_at ‹taskAt _ _ = some _› ‹_› hs; exact q)
    | (intro hs; have q := fits_on ‹taskOn _ _ = some _› ‹_› hs; exact q)
    | (intro hs; have q := fits_all ‹_ ∈ allTasks _› ‹_› hs; exact q)
    | (intro hs; have q := fits_all (List.mem_of_find?_eq_some ‹List.find? _ _ = some _›) ‹_› hs; exact q)
    | (intro hs; exact fits_all (choose_mem ‹choose _ _ = some _›) ‹_› hs)
    | intro _
    | with_reducible apply Within.ite
    | with_reducible apply within_startRun
    | with_reducible apply Within.foldl
    | (extract_lets +onlyGivenNames a; first | (refine Within.cutAny (μ := μ) (σ := σ) (a := a) ?_ ?_; all_goals (first | (intro ha; clear_value a) | (unfold a; clear a))) | skip)
    | split

theorem within_execTileTaskCreate {μ : Nat} {σ x : State}   (hμ : Nat.land 4408058197511367763232753050610139619639136142104519986007419848729516916639219892469198609259736506114796393952254645967086956544318049908149097923029330053120 μ = 4408058197511367763232753050610139619639136142104519986007419848729516916639219892469198609259736506114796393952254645967086956544318049908149097923029330053120) (hw : Within μ σ x) :
    WithinOut μ σ (execTileTaskCreate x) := by
  unfold execTileTaskCreate
  repeat' first
    | with_reducible apply WithinOut.next
    | with_reducible apply WithinOut.ite
    | with_reducible assumption
    | with_reducible apply Within.refl
    | with_reducible apply Eq.refl
    | ((with_reducible apply fun k => sub_trans k hμ); exact rfl)
    | ((with_reducible apply sub_set hμ); exact rfl)
    | ((with_reducible apply Or.inl); with_reducible apply Eq.refl)
    | ((with_reducible apply Or.inr); (with_reducible apply sub_set hμ); exact rfl)
    | (intro hs; exact nextSlot_lt ‹nextSlot _ = some _› ‹_› hs)
    | intro _
    | with_reducible apply Within.ite
    | with_reducible apply within_createTask
    | with_reducible apply Within.foldl
    | (extract_lets +onlyGivenNames a; first | (refine Within.cutAny (μ := μ) (σ := σ) (a := a) ?_ ?_; all_goals (first | (intro ha; clear_value a) | (unfold a; clear a))) | skip)
    | split
    | (with_reducible apply Within.upd)

theorem within_execSchedCancel {μ : Nat} {σ x : State} (fn : ℕ) (v : Sys2Proof.W32) (same : Bool)  (hμ : Nat.land 1243373604695543939732881191169619068865644088547268423578929579425995536199431582013457534187448265386972526837260115779126109645370638492537364615326787101018112 μ = 1243373604695543939732881191169619068865644088547268423578929579425995536199431582013457534187448265386972526837260115779126109645370638492537364615326787101018112) (hw : Within μ σ x) :
    WithinOut μ σ (execSchedCancel fn v same x) := by
  unfold execSchedCancel
  repeat' first
    | with_reducible apply WithinOut.next
    | with_reducible apply WithinOut.ite
    | with_reducible assumption
    | with_reducible apply Within.refl
    | with_reducible apply Eq.refl
    | ((with_reducible apply fun k => sub_trans k hμ); exact rfl)
    | ((with_reducible apply sub_set hμ); exact rfl)
    | intro _
    | with_reducible apply Within.ite
    | with_reducible apply within_hostWrite
    | with_reducible apply within_cancelWrite
    | with_reducible apply Within.foldl
    | (extract_lets +onlyGivenNames a; first | (refine Within.cutAny (μ := μ) (σ := σ) (a := a) ?_ ?_; all_goals (first | (intro ha; clear_value a) | (unfold a; clear a))) | skip)
    | split

theorem within_execTaskRebind {μ : Nat} {σ x : State} (slot : ℕ)  (hμ : Nat.land 878694100496718043517683302282418331810487718418343092402491322775749527474899974671687634004666183037093927858109549828751614463963730408009475621262727315456 μ = 878694100496718043517683302282418331810487718418343092402491322775749527474899974671687634004666183037093927858109549828751614463963730408009475621262727315456) (hw : Within μ σ x) :
    WithinOut μ σ (execTaskRebind slot x) := by
  unfold execTaskRebind
  repeat' first
    | with_reducible apply WithinOut.next
    | with_reducible apply WithinOut.ite
    | with_reducible assumption
    | with_reducible apply Within.refl
    | with_reducible apply Eq.refl
    | ((with_reducible apply fun k => sub_trans k hμ); exact rfl)
    | ((with_reducible apply sub_set hμ); exact rfl)
    | (intro hs; have q := fits_filter ‹_ ∈ List.filter _ _› ‹_› hs; exact q)
    | (intro hs; have q := fits_at ‹taskAt _ _ = some _› ‹_› hs; exact q)
    | (intro hs; have q := fits_on ‹taskOn _ _ = some _› ‹_› hs; exact q)
    | (intro hs; have q := fits_all ‹_ ∈ allTasks _› ‹_› hs; exact q)
    | (intro hs; have q := fits_all (List.mem_of_find?_eq_some ‹List.find? _ _ = some _›) ‹_› hs; exact q)
    | intro _
    | with_reducible apply Within.ite
    | with_reducible apply within_setTask
    | with_reducible apply Within.foldl
    | (extract_lets +onlyGivenNames a; first | (refine Within.cutAny (μ := μ) (σ := σ) (a := a) ?_ ?_; all_goals (first | (intro ha; clear_value a) | (unfold a; clear a))) | skip)
    | split

theorem within_endPeriod {μ : Nat} {σ x : State} (ctx : ℕ)  (hμ : Nat.land 4408058197511367763232753050610139619639136142104519986007419848729516916639219892469198609259736506114796393952254645967086956544318049908149097923579085867008 μ = 4408058197511367763232753050610139619639136142104519986007419848729516916639219892469198609259736506114796393952254645967086956544318049908149097923579085867008) (hw : Within μ σ x) :
    Within μ σ (endPeriod ctx x) := by
  unfold endPeriod
  repeat' first
    | with_reducible assumption
    | with_reducible apply Within.refl
    | with_reducible apply Eq.refl
    | ((with_reducible apply fun k => sub_trans k hμ); exact rfl)
    | ((with_reducible apply sub_set hμ); exact rfl)
    | ((with_reducible apply Or.inl); with_reducible apply Eq.refl)
    | ((with_reducible apply Or.inr); (with_reducible apply sub_set hμ); exact rfl)
    | intro _
    | with_reducible apply Within.ite
    | with_reducible apply within_put
    | with_reducible apply within_quotaBit
    | with_reducible apply Within.foldl
    | (extract_lets +onlyGivenNames a; first | (refine Within.cutAny (μ := μ) (σ := σ) (a := a) ?_ ?_; all_goals (first | (intro ha; clear_value a) | (unfold a; clear a))) | skip)
    | split
    | (with_reducible apply Within.upd)

theorem within_execCoreTimePeriodEnd {μ : Nat} {σ x : State} (ctx : ℕ)  (hμ : Nat.land 229436125496592754220339461244498209281731225280802071305957932040831622468414385281046703630142216818270569481364997172423945723175029634084325745306330659309568 μ = 229436125496592754220339461244498209281731225280802071305957932040831622468414385281046703630142216818270569481364997172423945723175029634084325745306330659309568) (hw : Within μ σ x) :
    WithinOut μ σ (execCoreTimePeriodEnd ctx x) := by
  unfold execCoreTimePeriodEnd
  repeat' first
    | with_reducible apply WithinOut.next
    | with_reducible apply WithinOut.ite
    | with_reducible assumption
    | with_reducible apply Within.refl
    | with_reducible apply Eq.refl
    | ((with_reducible apply fun k => sub_trans k hμ); exact rfl)
    | ((with_reducible apply sub_set hμ); exact rfl)
    | ((with_reducible apply Or.inl); with_reducible apply Eq.refl)
    | ((with_reducible apply Or.inr); (with_reducible apply sub_set hμ); exact rfl)
    | intro _
    | with_reducible apply Within.ite
    | with_reducible apply within_advance
    | with_reducible apply within_endPeriod
    | with_reducible apply Within.foldl
    | (extract_lets +onlyGivenNames a; first | (refine Within.cutAny (μ := μ) (σ := σ) (a := a) ?_ ?_; all_goals (first | (intro ha; clear_value a) | (unfold a; clear a))) | skip)
    | split
    | (with_reducible apply Within.upd)

theorem within_execTaskRecreate {μ : Nat} {σ x : State}   (hμ : Nat.land 4408058197511367763232753050610139619639136142104519986007419848729516916639219892469198609259736506114796393952254645967086956544318049908149097923029330053120 μ = 4408058197511367763232753050610139619639136142104519986007419848729516916639219892469198609259736506114796393952254645967086956544318049908149097923029330053120) (hw : Within μ σ x) :
    WithinOut μ σ (execTaskRecreate x) := by
  unfold execTaskRecreate
  repeat' first
    | with_reducible apply WithinOut.next
    | with_reducible apply WithinOut.ite
    | with_reducible assumption
    | with_reducible apply Within.refl
    | with_reducible apply Eq.refl
    | ((with_reducible apply fun k => sub_trans k hμ); exact rfl)
    | ((with_reducible apply sub_set hμ); exact rfl)
    | ((with_reducible apply Or.inl); with_reducible apply Eq.refl)
    | ((with_reducible apply Or.inr); (with_reducible apply sub_set hμ); exact rfl)
    | (intro hs; have q := fits_filter ‹_ ∈ List.filter _ _› ‹_› hs; exact q)
    | (intro hs; have q := fits_at ‹taskAt _ _ = some _› ‹_› hs; exact q)
    | (intro hs; have q := fits_on ‹taskOn _ _ = some _› ‹_› hs; exact q)
    | (intro hs; have q := fits_all ‹_ ∈ allTasks _› ‹_› hs; exact q)
    | (intro hs; have q := fits_all (List.mem_of_find?_eq_some ‹List.find? _ _ = some _›) ‹_› hs; exact q)
    | (intro hs; exact nextSlot_lt ‹nextSlot _ = some _› ‹_› hs)
    | intro _
    | with_reducible apply Within.ite
    | with_reducible apply within_createTask
    | with_reducible apply within_setTask
    | with_reducible apply Within.foldl
    | (extract_lets +onlyGivenNames a; first | (refine Within.cutAny (μ := μ) (σ := σ) (a := a) ?_ ?_; all_goals (first | (intro ha; clear_value a) | (unfold a; clear a))) | skip)
    | split
    | (with_reducible apply Within.upd)

theorem within_execSchedKick {μ : Nat} {σ x : State} (fn : ℕ) (v : W32)  (hμ : Nat.land 116880903061091277333496215742759686091381564099652435813526309164025456433426416828301864833825557278863134026852281417808502780581136392825404294839662387677184 μ = 116880903061091277333496215742759686091381564099652435813526309164025456433426416828301864833825557278863134026852281417808502780581136392825404294839662387677184) (hw : Within μ σ x) :
    WithinOut μ σ (execSchedKick fn v x) := by
  unfold execSchedKick
  repeat' first
    | with_reducible apply WithinOut.next
    | with_reducible apply WithinOut.ite
    | with_reducible assumption
    | with_reducible apply Within.refl
    | with_reducible apply Eq.refl
    | ((with_reducible apply fun k => sub_trans k hμ); exact rfl)
    | ((with_reducible apply sub_set hμ); exact rfl)
    | intro _
    | with_reducible apply Within.ite
    | with_reducible apply within_hostWrite
    | with_reducible apply within_kickSched
    | with_reducible apply Within.foldl
    | (extract_lets +onlyGivenNames a; first | (refine Within.cutAny (μ := μ) (σ := σ) (a := a) ?_ ?_; all_goals (first | (intro ha; clear_value a) | (unfold a; clear a))) | skip)
    | split

theorem within_execCtxDisable {μ : Nat} {σ x : State} (fn : ℕ) (ctx : ℕ) (v : W32)  (hμ : Nat.land 1243377037094374005037738682120018609562252723264918495231634276657725128971023280841483595467268596114250015485415811519555128206364638350859270902340932658546688 μ = 1243377037094374005037738682120018609562252723264918495231634276657725128971023280841483595467268596114250015485415811519555128206364638350859270902340932658546688) (hw : Within μ σ x) :
    WithinOut μ σ (execCtxDisable fn ctx v x) := by
  unfold execCtxDisable
  repeat' first
    | with_reducible apply WithinOut.next
    | with_reducible apply WithinOut.ite
    | with_reducible assumption
    | with_reducible apply Within.refl
    | with_reducible apply Eq.refl
    | ((with_reducible apply fun k => sub_trans k hμ); exact rfl)
    | ((with_reducible apply sub_set hμ); exact rfl)
    | intro _
    | with_reducible apply Within.ite
    | with_reducible apply within_hostWrite
    | with_reducible apply within_ctxWrite
    | with_reducible apply Within.foldl
    | (extract_lets +onlyGivenNames a; first | (refine Within.cutAny (μ := μ) (σ := σ) (a := a) ?_ ?_; all_goals (first | (intro ha; clear_value a) | (unfold a; clear a))) | skip)
    | split

theorem within_execAffinityWaitEnd {μ : Nat} {σ x : State} (slot : ℕ)  (hμ : Nat.land 225906761399578104500624391496170487993902576857115894412353003514877855079250065363249192654887146495192867015270852076285610381094675314584186123004014300758016 μ = 225906761399578104500624391496170487993902576857115894412353003514877855079250065363249192654887146495192867015270852076285610381094675314584186123004014300758016) (hw : Within μ σ x) :
    WithinOut μ σ (execAffinityWaitEnd slot x) := by
  unfold execAffinityWaitEnd
  repeat' first
    | with_reducible apply WithinOut.next
    | with_reducible apply WithinOut.ite
    | with_reducible assumption
    | with_reducible apply Within.refl
    | with_reducible apply Eq.refl
    | ((with_reducible apply fun k => sub_trans k hμ); exact rfl)
    | ((with_reducible apply sub_set hμ); exact rfl)
    | (intro hs; have q := fits_filter ‹_ ∈ List.filter _ _› ‹_› hs; exact q)
    | (intro hs; have q := fits_at ‹taskAt _ _ = some _› ‹_› hs; exact q)
    | (intro hs; have q := fits_on ‹taskOn _ _ = some _› ‹_› hs; exact q)
    | (intro hs; have q := fits_all ‹_ ∈ allTasks _› ‹_› hs; exact q)
    | (intro hs; have q := fits_all (List.mem_of_find?_eq_some ‹List.find? _ _ = some _›) ‹_› hs; exact q)
    | intro _
    | with_reducible apply Within.ite
    | with_reducible apply within_setTask
    | with_reducible apply within_advance
    | with_reducible apply Within.foldl
    | (extract_lets +onlyGivenNames a; first | (refine Within.cutAny (μ := μ) (σ := σ) (a := a) ?_ ?_; all_goals (first | (intro ha; clear_value a) | (unfold a; clear a))) | skip)
    | split

/-! ## Commands -/

theorem within_execInputLogEnter {μ : Nat} {σ x : State} (i : ℕ) (poisoned : Bool)  (hμ : Nat.land 1243373631511159799618075390317669065277336343506000064763716334873118423642959641982694842256373315106943008410574207175312546561422291600002310875599997493332992 μ = 1243373631511159799618075390317669065277336343506000064763716334873118423642959641982694842256373315106943008410574207175312546561422291600002310875599997493332992) (hw : Within μ σ x) :
    WithinOut μ σ (execInputLogEnter i poisoned x) := by
  unfold execInputLogEnter
  repeat' first
    | with_reducible apply WithinOut.next
    | with_reducible apply WithinOut.ite
    | with_reducible assumption
    | with_reducible apply Within.refl
    | with_reducible apply Eq.refl
    | ((with_reducible apply fun k => sub_trans k hμ); exact rfl)
    | ((with_reducible apply sub_set hμ); exact rfl)
    | ((with_reducible apply Or.inl); with_reducible apply Eq.refl)
    | ((with_reducible apply Or.inr); (with_reducible apply sub_set hμ); exact rfl)
    | intro _
    | with_reducible apply Within.ite
    | with_reducible apply within_logChange
    | with_reducible apply within_completeCmd
    | with_reducible apply within_journalCmd
    | with_reducible apply within_journalChange
    | with_reducible apply Within.foldl
    | (extract_lets +onlyGivenNames a; first | (refine Within.cutAny (μ := μ) (σ := σ) (a := a) ?_ ?_; all_goals (first | (intro ha; clear_value a) | (unfold a; clear a))) | skip)
    | split
    | (with_reducible apply Within.upd)

theorem within_execFenceComplete {μ : Nat} {σ x : State} (ctx : ℕ)  (hμ : Nat.land 3529364097014649719715069748327721287828648423686176893604928525953767389164319917797510975255070323077702466094145096138335342080354319500139622301766602803200 μ = 3529364097014649719715069748327721287828648423686176893604928525953767389164319917797510975255070323077702466094145096138335342080354319500139622301766602803200) (hw : Within μ σ x) :
    WithinOut μ σ (execFenceComplete ctx x) := by
  unfold execFenceComplete
  repeat' first
    | with_reducible apply WithinOut.next
    | with_reducible apply WithinOut.ite
    | with_reducible assumption
    | with_reducible apply Within.refl
    | with_reducible apply Eq.refl
    | ((with_reducible apply fun k => sub_trans k hμ); exact rfl)
    | ((with_reducible apply sub_set hμ); exact rfl)
    | ((with_reducible apply Or.inl); with_reducible apply Eq.refl)
    | ((with_reducible apply Or.inr); (with_reducible apply sub_set hμ); exact rfl)
    | intro _
    | with_reducible apply Within.ite
    | with_reducible apply within_raise
    | with_reducible apply within_refreshCtx
    | with_reducible apply within_wr
    | with_reducible apply Within.foldl
    | (extract_lets +onlyGivenNames a; first | (refine Within.cutAny (μ := μ) (σ := σ) (a := a) ?_ ?_; all_goals (first | (intro ha; clear_value a) | (unfold a; clear a))) | skip)
    | split
    | (with_reducible apply Within.upd)

theorem within_execAlloc {μ : Nat} {σ x : State} (h : Cmd) (mib : W32)  (hμ : Nat.land 1240737549209669645487522340410821810281904880350745035486508860904791175060534942058679775820665187001063067460404877039989260063062606560599627041516537902025728 μ = 1240737549209669645487522340410821810281904880350745035486508860904791175060534942058679775820665187001063067460404877039989260063062606560599627041516537902025728) (hw : Within μ σ x) :
    WithinOut μ σ (execAlloc h mib x) := by
  unfold execAlloc
  repeat' first
    | with_reducible apply WithinOut.next
    | with_reducible apply WithinOut.ite
    | with_reducible assumption
    | with_reducible apply Within.refl
    | with_reducible apply Eq.refl
    | ((with_reducible apply fun k => sub_trans k hμ); exact rfl)
    | ((with_reducible apply sub_set hμ); exact rfl)
    | (intro i h op entry body hb; with_reducible apply within_cmdRow; with_reducible assumption)
    | intro _
    | with_reducible apply Within.ite
    | with_reducible apply within_doAlloc
    | with_reducible apply within_cmdRow
    | with_reducible apply Within.foldl
    | (extract_lets +onlyGivenNames a; first | (refine Within.cutAny (μ := μ) (σ := σ) (a := a) ?_ ?_; all_goals (first | (intro ha; clear_value a) | (unfold a; clear a))) | skip)
    | split

theorem within_execLayerNew {μ : Nat} {σ x : State} (h : Cmd) (layer : W32) (size : W32) (form : W32) (pool : W32) (nbuf : W32)  (hμ : Nat.land 1240737522394053785602328141262771813870212625392013394301722105457668287617006881911585822216916590667256212080341160667017158355554840936706487148649239890775040 μ = 1240737522394053785602328141262771813870212625392013394301722105457668287617006881911585822216916590667256212080341160667017158355554840936706487148649239890775040) (hw : Within μ σ x) :
    WithinOut μ σ (execLayerNew h layer size form pool nbuf x) := by
  unfold execLayerNew
  repeat' first
    | with_reducible apply WithinOut.next
    | with_reducible apply WithinOut.ite
    | with_reducible assumption
    | with_reducible apply Within.refl
    | with_reducible apply Eq.refl
    | ((with_reducible apply fun k => sub_trans k hμ); exact rfl)
    | ((with_reducible apply sub_set hμ); exact rfl)
    | (intro i h op entry body hb; with_reducible apply within_cmdRow; with_reducible assumption)
    | intro _
    | with_reducible apply Within.ite
    | with_reducible apply within_doLayerNew
    | with_reducible apply within_cmdRow
    | with_reducible apply Within.foldl
    | (extract_lets +onlyGivenNames a; first | (refine Within.cutAny (μ := μ) (σ := σ) (a := a) ?_ ?_; all_goals (first | (intro ha; clear_value a) | (unfold a; clear a))) | skip)
    | split

theorem within_execRetire {μ : Nat} {σ x : State} (h : Cmd) (addr : W32)  (hμ : Nat.land 116002208960594559289978532440477267759571076381234092721123817841249706905951516675773528131303214925221007125649545405357054719693266297810545779398060741250048 μ = 116002208960594559289978532440477267759571076381234092721123817841249706905951516675773528131303214925221007125649545405357054719693266297810545779398060741250048) (hw : Within μ σ x) :
    WithinOut μ σ (execRetire h addr x) := by
  unfold execRetire
  repeat' first
    | with_reducible apply WithinOut.next
    | with_reducible apply WithinOut.ite
    | with_reducible assumption
    | with_reducible apply Within.refl
    | with_reducible apply Eq.refl
    | ((with_reducible apply fun k => sub_trans k hμ); exact rfl)
    | ((with_reducible apply sub_set hμ); exact rfl)
    | (intro i h op entry body hb; with_reducible apply within_cmdRow; with_reducible assumption)
    | intro _
    | with_reducible apply Within.ite
    | with_reducible apply within_doRetire
    | with_reducible apply within_cmdRow
    | with_reducible apply Within.foldl
    | (extract_lets +onlyGivenNames a; first | (refine Within.cutAny (μ := μ) (σ := σ) (a := a) ?_ ?_; all_goals (first | (intro ha; clear_value a) | (unfold a; clear a))) | skip)
    | split

theorem within_execImportDmaFault {μ : Nat} {σ x : State} (layer : ℕ) (i : ℕ)  (hμ : Nat.land 3529364097014649719715069748327721287828648423686176893604928525953767389164319917797510975255070323077702466094145096138335342080354319500139622295169533103104 μ = 3529364097014649719715069748327721287828648423686176893604928525953767389164319917797510975255070323077702466094145096138335342080354319500139622295169533103104) (hw : Within μ σ x) :
    WithinOut μ σ (execImportDmaFault layer i x) := by
  unfold execImportDmaFault
  repeat' first
    | with_reducible apply WithinOut.next
    | with_reducible apply WithinOut.ite
    | with_reducible assumption
    | with_reducible apply Within.refl
    | with_reducible apply Eq.refl
    | ((with_reducible apply fun k => sub_trans k hμ); exact rfl)
    | ((with_reducible apply sub_set hμ); exact rfl)
    | intro _
    | with_reducible apply Within.ite
    | with_reducible apply within_raise
    | with_reducible apply within_bump
    | with_reducible apply within_put
    | with_reducible apply within_completeCmd
    | with_reducible apply within_endImport
    | with_reducible apply Within.foldl
    | (extract_lets +onlyGivenNames a; first | (refine Within.cutAny (μ := μ) (σ := σ) (a := a) ?_ ?_; all_goals (first | (intro ha; clear_value a) | (unfold a; clear a))) | skip)
    | split

theorem within_execLayerSet {μ : Nat} {σ x : State} (h : Cmd) (layer : W32) (buf : W32) (tgt : Tgt)  (hμ : Nat.land 1243373631511159799618075390317669065277336343506000064763716334873118423642959641982694842256373315106943008410574207175312546561422291600002310875599997493332992 μ = 1243373631511159799618075390317669065277336343506000064763716334873118423642959641982694842256373315106943008410574207175312546561422291600002310875599997493332992) (hw : Within μ σ x) :
    WithinOut μ σ (execLayerSet h layer buf tgt x) := by
  unfold execLayerSet
  repeat' first
    | with_reducible apply WithinOut.next
    | with_reducible apply WithinOut.ite
    | with_reducible assumption
    | with_reducible apply Within.refl
    | with_reducible apply Eq.refl
    | ((with_reducible apply fun k => sub_trans k hμ); exact rfl)
    | ((with_reducible apply sub_set hμ); exact rfl)
    | (intro i h op entry body hb; with_reducible apply within_cmdRow; with_reducible assumption)
    | intro _
    | with_reducible apply Within.ite
    | with_reducible apply within_doLayerSet
    | with_reducible apply within_cmdRow
    | with_reducible apply Within.foldl
    | (extract_lets +onlyGivenNames a; first | (refine Within.cutAny (μ := μ) (σ := σ) (a := a) ?_ ?_; all_goals (first | (intro ha; clear_value a) | (unfold a; clear a))) | skip)
    | split

theorem within_execProducerResume {μ : Nat} {σ x : State} (r : ℕ) (bad : Sys2Proof.Byte)  (hμ : Nat.land 1243373631511159799618075390317669065277336343506000064763716334873118423642959641982694842256373315106943008410574207175312546561422291600002310875599997493988352 μ = 1243373631511159799618075390317669065277336343506000064763716334873118423642959641982694842256373315106943008410574207175312546561422291600002310875599997493988352) (hw : Within μ σ x) :
    WithinOut μ σ (execProducerResume r bad x) := by
  unfold execProducerResume
  repeat' first
    | with_reducible apply WithinOut.next
    | with_reducible apply WithinOut.ite
    | with_reducible assumption
    | with_reducible apply Within.refl
    | with_reducible apply Eq.refl
    | ((with_reducible apply fun k => sub_trans k hμ); exact rfl)
    | ((with_reducible apply sub_set hμ); exact rfl)
    | ((with_reducible apply Or.inl); with_reducible apply Eq.refl)
    | ((with_reducible apply Or.inr); (with_reducible apply sub_set hμ); exact rfl)
    | intro _
    | with_reducible apply Within.ite
    | with_reducible apply within_resumeTasks
    | with_reducible apply within_resumeOne
    | with_reducible apply Within.forEach
    | with_reducible apply Within.foldl
    | (extract_lets +onlyGivenNames a; first | (refine Within.cutAny (μ := μ) (σ := σ) (a := a) ?_ ?_; all_goals (first | (intro ha; clear_value a) | (unfold a; clear a))) | skip)
    | split
    | (with_reducible apply Within.upd)

theorem within_execImportDone {μ : Nat} {σ x : State} (layer : ℕ) (i : ℕ) (data : List Sys2Proof.Byte)  (hμ : Nat.land 1243373631511159799618075390317669065277336343506000064763716334873118423642959641982694842256373315106943008410574207175312546561422291600002310875599997493988352 μ = 1243373631511159799618075390317669065277336343506000064763716334873118423642959641982694842256373315106943008410574207175312546561422291600002310875599997493988352) (hw : Within μ σ x) :
    WithinOut μ σ (execImportDone layer i data x) := by
  unfold execImportDone
  repeat' first
    | with_reducible apply WithinOut.next
    | with_reducible apply WithinOut.ite
    | with_reducible assumption
    | with_reducible apply Within.refl
    | with_reducible apply Eq.refl
    | ((with_reducible apply fun k => sub_trans k hμ); exact rfl)
    | ((with_reducible apply sub_set hμ); exact rfl)
    | intro _
    | with_reducible apply Within.ite
    | with_reducible apply within_fmemPut
    | with_reducible apply within_put
    | with_reducible apply within_logChange
    | with_reducible apply within_completeCmd
    | with_reducible apply within_journalCmd
    | with_reducible apply within_journalLayer
    | with_reducible apply within_waitChange
    | with_reducible apply within_wr
    | with_reducible apply within_enterChange
    | with_reducible apply within_endImport
    | with_reducible apply Within.foldl
    | (extract_lets +onlyGivenNames a; first | (refine Within.cutAny (μ := μ) (σ := σ) (a := a) ?_ ?_; all_goals (first | (intro ha; clear_value a) | (unfold a; clear a))) | skip)
    | split

theorem within_execCue {μ : Nat} {σ x : State} (h : Cmd) (index : W32) (value : W32) (tgt : Tgt)  (hμ : Nat.land 1243373631511159799618075390317669065277336343506000064763716334873118423642959641982694842256373315106943008410574207175312546561422291600002310875599997493332992 μ = 1243373631511159799618075390317669065277336343506000064763716334873118423642959641982694842256373315106943008410574207175312546561422291600002310875599997493332992) (hw : Within μ σ x) :
    WithinOut μ σ (execCue h index value tgt x) := by
  unfold execCue
  repeat' first
    | with_reducible apply WithinOut.next
    | with_reducible apply WithinOut.ite
    | with_reducible assumption
    | with_reducible apply Within.refl
    | with_reducible apply Eq.refl
    | ((with_reducible apply fun k => sub_trans k hμ); exact rfl)
    | ((with_reducible apply sub_set hμ); exact rfl)
    | (intro i h op entry body hb; with_reducible apply within_cmdRow; with_reducible assumption)
    | intro _
    | with_reducible apply Within.ite
    | with_reducible apply within_doCue
    | with_reducible apply within_cmdRow
    | with_reducible apply Within.foldl
    | (extract_lets +onlyGivenNames a; first | (refine Within.cutAny (μ := μ) (σ := σ) (a := a) ?_ ?_; all_goals (first | (intro ha; clear_value a) | (unfold a; clear a))) | skip)
    | split

theorem within_execLayerDel {μ : Nat} {σ x : State} (h : Cmd) (layer : W32)  (hμ : Nat.land 117759597161587995377013899045042104423192051818070778905928800486801205960901316625116903399312547291295194981365764505014557948621193758626564730647183266040832 μ = 117759597161587995377013899045042104423192051818070778905928800486801205960901316625116903399312547291295194981365764505014557948621193758626564730647183266040832) (hw : Within μ σ x) :
    WithinOut μ σ (execLayerDel h layer x) := by
  unfold execLayerDel
  repeat' first
    | with_reducible apply WithinOut.next
    | with_reducible apply WithinOut.ite
    | with_reducible assumption
    | with_reducible apply Within.refl
    | with_reducible apply Eq.refl
    | ((with_reducible apply fun k => sub_trans k hμ); exact rfl)
    | ((with_reducible apply sub_set hμ); exact rfl)
    | (intro i h op entry body hb; with_reducible apply within_cmdRow; with_reducible assumption)
    | intro _
    | with_reducible apply Within.ite
    | with_reducible apply within_doLayerDel
    | with_reducible apply within_cmdRow
    | with_reducible apply Within.foldl
    | (extract_lets +onlyGivenNames a; first | (refine Within.cutAny (μ := μ) (σ := σ) (a := a) ?_ ?_; all_goals (first | (intro ha; clear_value a) | (unfold a; clear a))) | skip)
    | split

theorem within_execImportLayer {μ : Nat} {σ x : State} (h : Cmd) (layer : W32) (busLo : W32) (busHi : W32) (pitch : W32) (tgt : Tgt)  (hμ : Nat.land 116002208960594559289978532440477267759571076381234092721123817841249706905951516675773528131303214925221007125649545405357054719693266297810545779398060741250048 μ = 116002208960594559289978532440477267759571076381234092721123817841249706905951516675773528131303214925221007125649545405357054719693266297810545779398060741250048) (hw : Within μ σ x) :
    WithinOut μ σ (execImportLayer h layer busLo busHi pitch tgt x) := by
  unfold execImportLayer
  repeat' first
    | with_reducible apply WithinOut.next
    | with_reducible apply WithinOut.ite
    | with_reducible assumption
    | with_reducible apply Within.refl
    | with_reducible apply Eq.refl
    | ((with_reducible apply fun k => sub_trans k hμ); exact rfl)
    | ((with_reducible apply sub_set hμ); exact rfl)
    | (intro i h op entry body hb; with_reducible apply within_cmdRow; with_reducible assumption)
    | intro _
    | with_reducible apply Within.ite
    | with_reducible apply within_doImport
    | with_reducible apply within_cmdRow
    | with_reducible apply Within.foldl
    | (extract_lets +onlyGivenNames a; first | (refine Within.cutAny (μ := μ) (σ := σ) (a := a) ?_ ?_; all_goals (first | (intro ha; clear_value a) | (unfold a; clear a))) | skip)
    | split

theorem within_execBadCommand {μ : Nat} {σ x : State} (h : Cmd) (op : Byte) (ext : Bool) (poisoned : Bool)  (hμ : Nat.land 3529364097014649719715069748327721287828648423686176893604928525953767389164319917797510975255070323077702466094145096138335342080354319500139622295169532972032 μ = 3529364097014649719715069748327721287828648423686176893604928525953767389164319917797510975255070323077702466094145096138335342080354319500139622295169532972032) (hw : Within μ σ x) :
    WithinOut μ σ (execBadCommand h op ext poisoned x) := by
  unfold execBadCommand
  repeat' first
    | with_reducible apply WithinOut.next
    | with_reducible apply WithinOut.ite
    | with_reducible assumption
    | with_reducible apply Within.refl
    | with_reducible apply Eq.refl
    | ((with_reducible apply fun k => sub_trans k hμ); exact rfl)
    | ((with_reducible apply sub_set hμ); exact rfl)
    | intro _
    | with_reducible apply Within.ite
    | with_reducible apply within_badEntry
    | with_reducible apply Within.foldl
    | (extract_lets +onlyGivenNames a; first | (refine Within.cutAny (μ := μ) (σ := σ) (a := a) ?_ ?_; all_goals (first | (intro ha; clear_value a) | (unfold a; clear a))) | skip)
    | split

theorem within_execTask {μ : Nat} {σ x : State} (h : Cmd) (desc : List W32)  (hμ : Nat.land 116880903061091277333496215742759686091381564099652435813526309164025456433426416650445215765307881108258101053507654955185806334157230028218555255025920538332160 μ = 116880903061091277333496215742759686091381564099652435813526309164025456433426416650445215765307881108258101053507654955185806334157230028218555255025920538332160) (hw : Within μ σ x) :
    WithinOut μ σ (execTask h desc x) := by
  unfold execTask
  repeat' first
    | with_reducible apply WithinOut.next
    | with_reducible apply WithinOut.ite
    | with_reducible assumption
    | with_reducible apply Within.refl
    | with_reducible apply Eq.refl
    | ((with_reducible apply fun k => sub_trans k hμ); exact rfl)
    | ((with_reducible apply sub_set hμ); exact rfl)
    | (intro i h op entry body hb; with_reducible apply within_cmdRow; with_reducible assumption)
    | intro _
    | with_reducible apply Within.ite
    | with_reducible apply within_doTask
    | with_reducible apply within_cmdRow
    | with_reducible apply Within.foldl
    | (extract_lets +onlyGivenNames a; first | (refine Within.cutAny (μ := μ) (σ := σ) (a := a) ?_ ?_; all_goals (first | (intro ha; clear_value a) | (unfold a; clear a))) | skip)
    | split

/-! ## HostPorts -/

theorem within_setVfs {μ : Nat} {σ x : State} (port : ℕ) (n : ℕ)  (hμ : Nat.land 1243373604695543939732881191169619068865644088547268423578929579425995536199431581835600885118930589216367493863915489316503413198946732127930515579172219951007780 μ = 1243373604695543939732881191169619068865644088547268423578929579425995536199431581835600885118930589216367493863915489316503413198946732127930515579172219951007780) (hw : Within μ σ x) :
    Within μ σ (setVfs port n x) := by
  unfold setVfs
  repeat' first
    | with_reducible assumption
    | with_reducible apply Within.refl
    | with_reducible apply Eq.refl
    | ((with_reducible apply fun k => sub_trans k hμ); exact rfl)
    | ((with_reducible apply sub_set hμ); exact rfl)
    | ((with_reducible apply Or.inl); with_reducible apply Eq.refl)
    | ((with_reducible apply Or.inr); (with_reducible apply sub_set hμ); exact rfl)
    | intro _
    | with_reducible apply Within.ite
    | with_reducible apply within_clearFn
    | with_reducible apply Within.forEach
    | with_reducible apply Within.foldl
    | (extract_lets +onlyGivenNames a; first | (refine Within.cutAny (μ := μ) (σ := σ) (a := a) ?_ ?_; all_goals (first | (intro ha; clear_value a) | (unfold a; clear a))) | skip)
    | split
    | (with_reducible apply Within.upd)

theorem within_execPerstN {μ : Nat} {σ x : State} (host : ℕ) (low : Bool)  (hμ : Nat.land 1243373604695543939732881191169619068865644088547268423578929579425995536199431581835600885118930589216367493863915489316503413198946732127930515579172219984562212 μ = 1243373604695543939732881191169619068865644088547268423578929579425995536199431581835600885118930589216367493863915489316503413198946732127930515579172219984562212) (hw : Within μ σ x) :
    WithinOut μ σ (execPerstN host low x) := by
  unfold execPerstN
  repeat' first
    | with_reducible apply WithinOut.next
    | with_reducible apply WithinOut.ite
    | with_reducible assumption
    | with_reducible apply Within.refl
    | with_reducible apply Eq.refl
    | ((with_reducible apply fun k => sub_trans k hμ); exact rfl)
    | ((with_reducible apply sub_set hμ); exact rfl)
    | ((with_reducible apply Or.inl); with_reducible apply Eq.refl)
    | ((with_reducible apply Or.inr); (with_reducible apply sub_set hμ); exact rfl)
    | intro _
    | with_reducible apply Within.ite
    | with_reducible apply within_resetFn
    | with_reducible apply within_setVfs
    | with_reducible apply within_pcieLinkTo
    | with_reducible apply Within.forEach
    | with_reducible apply Within.foldl
    | (extract_lets +onlyGivenNames a; first | (refine Within.cutAny (μ := μ) (σ := σ) (a := a) ?_ ?_; all_goals (first | (intro ha; clear_value a) | (unfold a; clear a))) | skip)
    | split
    | (with_reducible apply Within.upd)

theorem within_execRingEnable {μ : Nat} {σ x : State} (r : ℕ) (fn : ℕ) (v : W32)  (hμ : Nat.land 340947898687754378430505457824776360703055932296329924376161596471841585939525910369582211505015433953322085630670216624140164468891887646867820574595886086113312 μ = 340947898687754378430505457824776360703055932296329924376161596471841585939525910369582211505015433953322085630670216624140164468891887646867820574595886086113312) (hw : Within μ σ x) :
    WithinOut μ σ (execRingEnable r fn v x) := by
  unfold execRingEnable
  repeat' first
    | with_reducible apply WithinOut.next
    | with_reducible apply WithinOut.ite
    | with_reducible assumption
    | with_reducible apply Within.refl
    | with_reducible apply Eq.refl
    | ((with_reducible apply fun k => sub_trans k hμ); exact rfl)
    | ((with_reducible apply sub_set hμ); exact rfl)
    | intro _
    | with_reducible apply Within.ite
    | with_reducible apply within_hostWrite
    | with_reducible apply within_ringCtrlWrite
    | with_reducible apply within_paySupplyEvent
    | with_reducible apply Within.foldl
    | (extract_lets +onlyGivenNames a; first | (refine Within.cutAny (μ := μ) (σ := σ) (a := a) ?_ ?_; all_goals (first | (intro ha; clear_value a) | (unfold a; clear a))) | skip)
    | split

theorem within_execSemForce {μ : Nat} {σ x : State} (fn : ℕ) (v : W32)  (hμ : Nat.land 116002208960594559289978532440477267759571076381234092721123817841249706905951516853630177199820891095826040098994171867979751166117172662417394815552627893356548 μ = 116002208960594559289978532440477267759571076381234092721123817841249706905951516853630177199820891095826040098994171867979751166117172662417394815552627893356548) (hw : Within μ σ x) :
    WithinOut μ σ (execSemForce fn v x) := by
  unfold execSemForce
  repeat' first
    | with_reducible apply WithinOut.next
    | with_reducible apply WithinOut.ite
    | with_reducible assumption
    | with_reducible apply Within.refl
    | with_reducible apply Eq.refl
    | ((with_reducible apply fun k => sub_trans k hμ); exact rfl)
    | ((with_reducible apply sub_set hμ); exact rfl)
    | intro _
    | with_reducible apply Within.ite
    | with_reducible apply within_hostWrite
    | with_reducible apply within_semForceWrite
    | with_reducible apply Within.foldl
    | (extract_lets +onlyGivenNames a; first | (refine Within.cutAny (μ := μ) (σ := σ) (a := a) ?_ ?_; all_goals (first | (intro ha; clear_value a) | (unfold a; clear a))) | skip)
    | split

theorem within_execBar2Read {μ : Nat} {σ x : State} (fn : ℕ) (off : ℕ) (n : ℕ)  (hμ : Nat.land 228475107455406188630630393428726807054698014256245290918216218050791421309794833727937452487946805848187458757897622598242952059870600551736845167073023775229952 μ = 228475107455406188630630393428726807054698014256245290918216218050791421309794833727937452487946805848187458757897622598242952059870600551736845167073023775229952) (hw : Within μ σ x) :
    WithinOut μ σ (execBar2Read fn off n x) := by
  unfold execBar2Read
  repeat' first
    | with_reducible apply WithinOut.next
    | with_reducible apply WithinOut.ite
    | with_reducible assumption
    | with_reducible apply Within.refl
    | with_reducible apply Eq.refl
    | ((with_reducible apply fun k => sub_trans k hμ); exact rfl)
    | ((with_reducible apply sub_set hμ); exact rfl)
    | ((with_reducible apply Or.inl); with_reducible apply Eq.refl)
    | ((with_reducible apply Or.inr); (with_reducible apply sub_set hμ); exact rfl)
    | intro _
    | with_reducible apply Within.ite
    | with_reducible apply within_denied
    | with_reducible apply within_wakeMem
    | with_reducible apply Within.foldl
    | (extract_lets +onlyGivenNames a; first | (refine Within.cutAny (μ := μ) (σ := σ) (a := a) ?_ ?_; all_goals (first | (intro ha; clear_value a) | (unfold a; clear a))) | skip)
    | split
    | (with_reducible apply Within.upd)

theorem within_execSemRelease {μ : Nat} {σ x : State} (n : ℕ) (fn : ℕ) (v : W32) (claim : Option ℕ)  (hμ : Nat.land 116002262591826279060366930736577260582955586298697375090697328735495481793007637147818084407318083763439750859121604613923954581132703910203674601287223917692932 μ = 116002262591826279060366930736577260582955586298697375090697328735495481793007637147818084407318083763439750859121604613923954581132703910203674601287223917692932) (hw : Within μ σ x) :
    WithinOut μ σ (execSemRelease n fn v claim x) := by
  unfold execSemRelease
  repeat' first
    | with_reducible apply WithinOut.next
    | with_reducible apply WithinOut.ite
    | with_reducible assumption
    | with_reducible apply Within.refl
    | with_reducible apply Eq.refl
    | ((with_reducible apply fun k => sub_trans k hμ); exact rfl)
    | ((with_reducible apply sub_set hμ); exact rfl)
    | intro _
    | with_reducible apply Within.ite
    | with_reducible apply within_semWriteAs
    | with_reducible apply within_semTieSet
    | with_reducible apply within_semReadAs
    | with_reducible apply Within.foldl
    | (extract_lets +onlyGivenNames a; first | (refine Within.cutAny (μ := μ) (σ := σ) (a := a) ?_ ?_; all_goals (first | (intro ha; clear_value a) | (unfold a; clear a))) | skip)
    | split

theorem within_execRingHeadWrite {μ : Nat} {σ x : State} (r : ℕ) (fn : ℕ) (v : W32)  (hμ : Nat.land 116002208960594559289978532440477267759571076381234092721123817841249706905951516853630177199820891095826040098994171867979751166117172662417394815552627893357568 μ = 116002208960594559289978532440477267759571076381234092721123817841249706905951516853630177199820891095826040098994171867979751166117172662417394815552627893357568) (hw : Within μ σ x) :
    WithinOut μ σ (execRingHeadWrite r fn v x) := by
  unfold execRingHeadWrite
  repeat' first
    | with_reducible apply WithinOut.next
    | with_reducible apply WithinOut.ite
    | with_reducible assumption
    | with_reducible apply Within.refl
    | with_reducible apply Eq.refl
    | ((with_reducible apply fun k => sub_trans k hμ); exact rfl)
    | ((with_reducible apply sub_set hμ); exact rfl)
    | intro _
    | with_reducible apply Within.ite
    | with_reducible apply within_hostWrite
    | with_reducible apply within_ringHeadEffect
    | with_reducible apply Within.foldl
    | (extract_lets +onlyGivenNames a; first | (refine Within.cutAny (μ := μ) (σ := σ) (a := a) ?_ ?_; all_goals (first | (intro ha; clear_value a) | (unfold a; clear a))) | skip)
    | split

theorem within_execPcieLinkChange {μ : Nat} {σ x : State} (host : ℕ) (rate : BitVec 2) (width : BitVec 2)  (hμ : Nat.land 3529364097014649719715069748327721287828648423686176893604928525953767389164319917797510975255070323077702466094145096138335342080354319500139622295169566525440 μ = 3529364097014649719715069748327721287828648423686176893604928525953767389164319917797510975255070323077702466094145096138335342080354319500139622295169566525440) (hw : Within μ σ x) :
    WithinOut μ σ (execPcieLinkChange host rate width x) := by
  unfold execPcieLinkChange
  repeat' first
    | with_reducible apply WithinOut.next
    | with_reducible apply WithinOut.ite
    | with_reducible assumption
    | with_reducible apply Within.refl
    | with_reducible apply Eq.refl
    | ((with_reducible apply fun k => sub_trans k hμ); exact rfl)
    | ((with_reducible apply sub_set hμ); exact rfl)
    | intro _
    | with_reducible apply Within.ite
    | with_reducible apply within_pcieLinkTo
    | with_reducible apply Within.foldl
    | (extract_lets +onlyGivenNames a; first | (refine Within.cutAny (μ := μ) (σ := σ) (a := a) ?_ ?_; all_goals (first | (intro ha; clear_value a) | (unfold a; clear a))) | skip)
    | split

theorem within_execFlushComplete {μ : Nat} {σ x : State} (r : ℕ) (heads : List FlushedEntry)  (hμ : Nat.land 61523174729798040591882167698967331187320837839296820992169355829153236202507718246128894819563038403525901704729375384835941896701960526428765013298509535792160 μ = 61523174729798040591882167698967331187320837839296820992169355829153236202507718246128894819563038403525901704729375384835941896701960526428765013298509535792160) (hw : Within μ σ x) :
    WithinOut μ σ (execFlushComplete r heads x) := by
  unfold execFlushComplete
  repeat' first
    | with_reducible apply WithinOut.next
    | with_reducible apply WithinOut.ite
    | with_reducible assumption
    | with_reducible apply Within.refl
    | with_reducible apply Eq.refl
    | ((with_reducible apply fun k => sub_trans k hμ); exact rfl)
    | ((with_reducible apply sub_set hμ); exact rfl)
    | intro _
    | with_reducible apply Within.ite
    | with_reducible apply within_put
    | with_reducible apply within_rxFlush
    | with_reducible apply within_dropRingFrames
    | with_reducible apply within_dropHeld
    | with_reducible apply within_flushEntry
    | with_reducible apply Within.forEach
    | with_reducible apply Within.foldl
    | (extract_lets +onlyGivenNames a; first | (refine Within.cutAny (μ := μ) (σ := σ) (a := a) ?_ ?_; all_goals (first | (intro ha; clear_value a) | (unfold a; clear a))) | skip)
    | split

theorem within_execRingFlush {μ : Nat} {σ x : State} (r : ℕ) (fn : ℕ)  (hμ : Nat.land 116002208960594559289978532440477267759571076381234092721123817841249706905951516853630177199820891095826040098994171867979751166117172662417394815552627893356576 μ = 116002208960594559289978532440477267759571076381234092721123817841249706905951516853630177199820891095826040098994171867979751166117172662417394815552627893356576) (hw : Within μ σ x) :
    WithinOut μ σ (execRingFlush r fn x) := by
  unfold execRingFlush
  repeat' first
    | with_reducible apply WithinOut.next
    | with_reducible apply WithinOut.ite
    | with_reducible assumption
    | with_reducible apply Within.refl
    | with_reducible apply Eq.refl
    | ((with_reducible apply fun k => sub_trans k hμ); exact rfl)
    | ((with_reducible apply sub_set hμ); exact rfl)
    | intro _
    | with_reducible apply Within.ite
    | with_reducible apply within_hostWrite
    | with_reducible apply within_flushWrite
    | with_reducible apply Within.foldl
    | (extract_lets +onlyGivenNames a; first | (refine Within.cutAny (μ := μ) (σ := σ) (a := a) ?_ ?_; all_goals (first | (intro ha; clear_value a) | (unfold a; clear a))) | skip)
    | split

theorem within_execRingDmaFault {μ : Nat} {σ x : State} (r : ℕ)  (hμ : Nat.land 3529364097014649719715069748327721287828648423686176893604928525953767389164319917797510975255070323077702466094145096138335342080354319500139622295169532971040 μ = 3529364097014649719715069748327721287828648423686176893604928525953767389164319917797510975255070323077702466094145096138335342080354319500139622295169532971040) (hw : Within μ σ x) :
    WithinOut μ σ (execRingDmaFault r x) := by
  unfold execRingDmaFault
  repeat' first
    | with_reducible apply WithinOut.next
    | with_reducible apply WithinOut.ite
    | with_reducible assumption
    | with_reducible apply Within.refl
    | with_reducible apply Eq.refl
    | ((with_reducible apply fun k => sub_trans k hμ); exact rfl)
    | ((with_reducible apply sub_set hμ); exact rfl)
    | intro _
    | with_reducible apply Within.ite
    | with_reducible apply within_raise
    | with_reducible apply within_setBit
    | with_reducible apply within_put
    | with_reducible apply within_bump
    | with_reducible apply Within.foldl
    | (extract_lets +onlyGivenNames a; first | (refine Within.cutAny (μ := μ) (σ := σ) (a := a) ?_ ?_; all_goals (first | (intro ha; clear_value a) | (unfold a; clear a))) | skip)
    | split

theorem within_markBad {μ : Nat} {σ x : State} (a0 : ℕ) (n : ℕ)  (hμ : Nat.land 899782758908639276562107701537196371773939423660383326620151114522367516134297574063808137220778171429984182126704179024641653211098859937801703036173032771026944 μ = 899782758908639276562107701537196371773939423660383326620151114522367516134297574063808137220778171429984182126704179024641653211098859937801703036173032771026944) (hw : Within μ σ x) :
    Within μ σ (markBad a0 n x) := by
  unfold markBad
  repeat' first
    | with_reducible assumption
    | with_reducible apply Within.refl
    | with_reducible apply Eq.refl
    | ((with_reducible apply fun k => sub_trans k hμ); exact rfl)
    | ((with_reducible apply sub_set hμ); exact rfl)
    | ((with_reducible apply Or.inl); with_reducible apply Eq.refl)
    | ((with_reducible apply Or.inr); (with_reducible apply sub_set hμ); exact rfl)
    | intro _
    | with_reducible apply Within.ite
    | with_reducible apply Within.foldl
    | (extract_lets +onlyGivenNames a; first | (refine Within.cutAny (μ := μ) (σ := σ) (a := a) ?_ ?_; all_goals (first | (intro ha; clear_value a) | (unfold a; clear a))) | skip)
    | split
    | (with_reducible apply Within.upd)

theorem within_execBar2Write {μ : Nat} {σ x : State} (fn : ℕ) (off : ℕ) (data : List Sys2Proof.Byte) (poisoned : Bool)  (hμ : Nat.land 1240737522394053785602328141262771813870212625392013394301722105457668287617006881911585822216916590667256212080341160667017158355554840936706487148642642845255680 μ = 1240737522394053785602328141262771813870212625392013394301722105457668287617006881911585822216916590667256212080341160667017158355554840936706487148642642845255680) (hw : Within μ σ x) :
    WithinOut μ σ (execBar2Write fn off data poisoned x) := by
  unfold execBar2Write
  repeat' first
    | with_reducible apply WithinOut.next
    | with_reducible apply WithinOut.ite
    | with_reducible assumption
    | with_reducible apply Within.refl
    | with_reducible apply Eq.refl
    | ((with_reducible apply fun k => sub_trans k hμ); exact rfl)
    | ((with_reducible apply sub_set hμ); exact rfl)
    | intro _
    | with_reducible apply Within.ite
    | with_reducible apply within_denied
    | with_reducible apply within_bump
    | with_reducible apply within_journalMem
    | with_reducible apply within_fmemPut
    | with_reducible apply within_put
    | with_reducible apply within_wr
    | with_reducible apply within_raise0
    | with_reducible apply within_setBit
    | with_reducible apply within_markBad
    | with_reducible apply Within.when
    | with_reducible apply Within.foldl
    | (extract_lets +onlyGivenNames a; first | (refine Within.cutAny (μ := μ) (σ := σ) (a := a) ?_ ?_; all_goals (first | (intro ha; clear_value a) | (unfold a; clear a))) | skip)
    | split

theorem within_execSemClaim {μ : Nat} {σ x : State} (n : ℕ) (fn : ℕ) (other : Option ℕ)  (hμ : Nat.land 3529417728246369490103468044427714111213158341149459263178439420199542276220440389842067251269939161296446199566204304705235203519791931893268444184332709414916 μ = 3529417728246369490103468044427714111213158341149459263178439420199542276220440389842067251269939161296446199566204304705235203519791931893268444184332709414916) (hw : Within μ σ x) :
    WithinOut μ σ (execSemClaim n fn other x) := by
  unfold execSemClaim
  repeat' first
    | with_reducible apply WithinOut.next
    | with_reducible apply WithinOut.ite
    | with_reducible assumption
    | with_reducible apply Within.refl
    | with_reducible apply Eq.refl
    | ((with_reducible apply fun k => sub_trans k hμ); exact rfl)
    | ((with_reducible apply sub_set hμ); exact rfl)
    | intro _
    | with_reducible apply Within.ite
    | with_reducible apply within_semReadBoth
    | with_reducible apply within_semReadAs
    | with_reducible apply Within.foldl
    | (extract_lets +onlyGivenNames a; first | (refine Within.cutAny (μ := μ) (σ := σ) (a := a) ?_ ?_; all_goals (first | (intro ha; clear_value a) | (unfold a; clear a))) | skip)
    | split

theorem within_flrFn {μ : Nat} {σ x : State} (f : ℕ)  (hμ : Nat.land 1243373604695543939732881191169619068865644088547268423578929579425995536199431581835600885118930589216367493863915489316503413198946732127930515579172219951007780 μ = 1243373604695543939732881191169619068865644088547268423578929579425995536199431581835600885118930589216367493863915489316503413198946732127930515579172219951007780) (hw : Within μ σ x) :
    Within μ σ (flrFn f x) := by
  unfold flrFn
  repeat' first
    | with_reducible assumption
    | with_reducible apply Within.refl
    | with_reducible apply Eq.refl
    | ((with_reducible apply fun k => sub_trans k hμ); exact rfl)
    | ((with_reducible apply sub_set hμ); exact rfl)
    | intro _
    | with_reducible apply Within.ite
    | with_reducible apply within_setVfs
    | with_reducible apply within_resetFn
    | with_reducible apply Within.foldl
    | (extract_lets +onlyGivenNames a; first | (refine Within.cutAny (μ := μ) (σ := σ) (a := a) ?_ ?_; all_goals (first | (intro ha; clear_value a) | (unfold a; clear a))) | skip)
    | split

theorem within_execFunctionLevelReset {μ : Nat} {σ x : State} (fn : ℕ)  (hμ : Nat.land 1243373604695543939732881191169619068865644088547268423578929579425995536199431581835600885118930589216367493863915489316503413198946732127930515579172219951007780 μ = 1243373604695543939732881191169619068865644088547268423578929579425995536199431581835600885118930589216367493863915489316503413198946732127930515579172219951007780) (hw : Within μ σ x) :
    WithinOut μ σ (execFunctionLevelReset fn x) := by
  unfold execFunctionLevelReset
  repeat' first
    | with_reducible apply WithinOut.next
    | with_reducible apply WithinOut.ite
    | with_reducible assumption
    | with_reducible apply Within.refl
    | with_reducible apply Eq.refl
    | ((with_reducible apply fun k => sub_trans k hμ); exact rfl)
    | ((with_reducible apply sub_set hμ); exact rfl)
    | intro _
    | with_reducible apply Within.ite
    | with_reducible apply within_flrFn
    | with_reducible apply Within.foldl
    | (extract_lets +onlyGivenNames a; first | (refine Within.cutAny (μ := μ) (σ := σ) (a := a) ?_ ?_; all_goals (first | (intro ha; clear_value a) | (unfold a; clear a))) | skip)
    | split

theorem within_execSemLeaseExpire {μ : Nat} {σ x : State} (n : ℕ)  (hμ : Nat.land 228557431396096036176821777942215790949920737562383728213555440718055872940939485306375015996137550635233475553506887622595194108711065903676316269677921106413572 μ = 228557431396096036176821777942215790949920737562383728213555440718055872940939485306375015996137550635233475553506887622595194108711065903676316269677921106413572) (hw : Within μ σ x) :
    WithinOut μ σ (execSemLeaseExpire n x) := by
  unfold execSemLeaseExpire
  repeat' first
    | with_reducible apply WithinOut.next
    | with_reducible apply WithinOut.ite
    | with_reducible assumption
    | with_reducible apply Within.refl
    | with_reducible apply Eq.refl
    | ((with_reducible apply fun k => sub_trans k hμ); exact rfl)
    | ((with_reducible apply sub_set hμ); exact rfl)
    | intro _
    | with_reducible apply Within.ite
    | with_reducible apply within_raise
    | with_reducible apply within_put
    | with_reducible apply within_advance
    | with_reducible apply Within.foldl
    | (extract_lets +onlyGivenNames a; first | (refine Within.cutAny (μ := μ) (σ := σ) (a := a) ?_ ?_; all_goals (first | (intro ha; clear_value a) | (unfold a; clear a))) | skip)
    | split

theorem within_execRingTailWrite {μ : Nat} {σ x : State} (r : ℕ) (fn : ℕ) (v : W32) (posted : List RxPost)  (hμ : Nat.land 116002208960594559289978532440477267759571076381234092721123817841249706905951516853630177199820891095826040098994171867979751166117172662417394815552627893356544 μ = 116002208960594559289978532440477267759571076381234092721123817841249706905951516853630177199820891095826040098994171867979751166117172662417394815552627893356544) (hw : Within μ σ x) :
    WithinOut μ σ (execRingTailWrite r fn v posted x) := by
  unfold execRingTailWrite
  repeat' first
    | with_reducible apply WithinOut.next
    | with_reducible apply WithinOut.ite
    | with_reducible assumption
    | with_reducible apply Within.refl
    | with_reducible apply Eq.refl
    | ((with_reducible apply fun k => sub_trans k hμ); exact rfl)
    | ((with_reducible apply sub_set hμ); exact rfl)
    | intro _
    | with_reducible apply Within.ite
    | with_reducible apply within_hostWrite
    | with_reducible apply within_ringTailEffect
    | with_reducible apply Within.foldl
    | (extract_lets +onlyGivenNames a; first | (refine Within.cutAny (μ := μ) (σ := σ) (a := a) ?_ ?_; all_goals (first | (intro ha; clear_value a) | (unfold a; clear a))) | skip)
    | split

/-! ## Time -/

theorem within_execPpsInEdge {μ : Nat} {σ x : State} (at_ : W64) (frac : BitVec 16)  (hμ : Nat.land 235586984200069780524963244360475137604404639309730472952775371300261869160738685103748517068174880099530226976371764021225207024422775746940392074648022924937216 μ = 235586984200069780524963244360475137604404639309730472952775371300261869160738685103748517068174880099530226976371764021225207024422775746940392074648022924937216) (hw : Within μ σ x) :
    WithinOut μ σ (execPpsInEdge at_ frac x) := by
  unfold execPpsInEdge
  repeat' first
    | with_reducible apply WithinOut.next
    | with_reducible apply WithinOut.ite
    | with_reducible assumption
    | with_reducible apply Within.refl
    | with_reducible apply Eq.refl
    | ((with_reducible apply fun k => sub_trans k hμ); exact rfl)
    | ((with_reducible apply sub_set hμ); exact rfl)
    | ((with_reducible apply Or.inl); with_reducible apply Eq.refl)
    | ((with_reducible apply Or.inr); (with_reducible apply sub_set hμ); exact rfl)
    | intro _
    | with_reducible apply Within.ite
    | with_reducible apply within_advance
    | with_reducible apply within_raise0
    | with_reducible apply Within.foldl
    | (extract_lets +onlyGivenNames a; first | (refine Within.cutAny (μ := μ) (σ := σ) (a := a) ?_ ?_; all_goals (first | (intro ha; clear_value a) | (unfold a; clear a))) | skip)
    | split
    | (with_reducible apply Within.upd)

theorem within_execMeasPush {μ : Nat} {σ x : State} (fn : ℕ) (d : ℕ)  (hμ : Nat.land 123114166152105730839893980816375587544354466310914198310043237432088817087479548670723102591294757639598490249443202369233320136653925057503980382943589439653888 μ = 123114166152105730839893980816375587544354466310914198310043237432088817087479548670723102591294757639598490249443202369233320136653925057503980382943589439653888) (hw : Within μ σ x) :
    WithinOut μ σ (execMeasPush fn d x) := by
  unfold execMeasPush
  repeat' first
    | with_reducible apply WithinOut.next
    | with_reducible apply WithinOut.ite
    | with_reducible assumption
    | with_reducible apply Within.refl
    | with_reducible apply Eq.refl
    | ((with_reducible apply fun k => sub_trans k hμ); exact rfl)
    | ((with_reducible apply sub_set hμ); exact rfl)
    | intro _
    | with_reducible apply Within.ite
    | with_reducible apply within_hostWrite
    | with_reducible apply within_measPushWrite
    | with_reducible apply Within.foldl
    | (extract_lets +onlyGivenNames a; first | (refine Within.cutAny (μ := μ) (σ := σ) (a := a) ?_ ?_; all_goals (first | (intro ha; clear_value a) | (unfold a; clear a))) | skip)
    | split

theorem within_execDomEnWrite {μ : Nat} {σ x : State} (fn : ℕ) (d : ℕ) (v : W32)  (hμ : Nat.land 123031761764568303638119998858736614414054978128580837460343748423455703125750716651003678271858220662966827503806081550711981760423559429834349936675812808869888 μ = 123031761764568303638119998858736614414054978128580837460343748423455703125750716651003678271858220662966827503806081550711981760423559429834349936675812808869888) (hw : Within μ σ x) :
    WithinOut μ σ (execDomEnWrite fn d v x) := by
  unfold execDomEnWrite
  repeat' first
    | with_reducible apply WithinOut.next
    | with_reducible apply WithinOut.ite
    | with_reducible assumption
    | with_reducible apply Within.refl
    | with_reducible apply Eq.refl
    | ((with_reducible apply fun k => sub_trans k hμ); exact rfl)
    | ((with_reducible apply sub_set hμ); exact rfl)
    | intro _
    | with_reducible apply Within.ite
    | with_reducible apply within_hostWrite
    | with_reducible apply within_domCfgWrite
    | with_reducible apply Within.foldl
    | (extract_lets +onlyGivenNames a; first | (refine Within.cutAny (μ := μ) (σ := σ) (a := a) ?_ ?_; all_goals (first | (intro ha; clear_value a) | (unfold a; clear a))) | skip)
    | split

theorem within_execFcEnable {μ : Nat} {σ x : State} (fn : ℕ) (n : ℕ) (v : W32)  (hμ : Nat.land 123031761764568303638119998858736614414054978128580837460343748423455703125750716651003678271858220560122792288106818699554193261002396080836065316699651948169216 μ = 123031761764568303638119998858736614414054978128580837460343748423455703125750716651003678271858220560122792288106818699554193261002396080836065316699651948169216) (hw : Within μ σ x) :
    WithinOut μ σ (execFcEnable fn n v x) := by
  unfold execFcEnable
  repeat' first
    | with_reducible apply WithinOut.next
    | with_reducible apply WithinOut.ite
    | with_reducible assumption
    | with_reducible apply Within.refl
    | with_reducible apply Eq.refl
    | ((with_reducible apply fun k => sub_trans k hμ); exact rfl)
    | ((with_reducible apply sub_set hμ); exact rfl)
    | intro _
    | with_reducible apply Within.ite
    | with_reducible apply within_hostWrite
    | with_reducible apply within_fcCtrlEffect
    | with_reducible apply Within.foldl
    | (extract_lets +onlyGivenNames a; first | (refine Within.cutAny (μ := μ) (σ := σ) (a := a) ?_ ?_; all_goals (first | (intro ha; clear_value a) | (unfold a; clear a))) | skip)
    | split

theorem within_execFcCtrlWrite {μ : Nat} {σ x : State} (fn : ℕ) (n : ℕ) (v : W32)  (hμ : Nat.land 123031761764568303638119998858736614414054978128580837460343748423455703125750716651003678271858220560122792288106818699554193261002396080836065316699651948169216 μ = 123031761764568303638119998858736614414054978128580837460343748423455703125750716651003678271858220560122792288106818699554193261002396080836065316699651948169216) (hw : Within μ σ x) :
    WithinOut μ σ (execFcCtrlWrite fn n v x) := by
  unfold execFcCtrlWrite
  repeat' first
    | with_reducible apply WithinOut.next
    | with_reducible apply WithinOut.ite
    | with_reducible assumption
    | with_reducible apply Within.refl
    | with_reducible apply Eq.refl
    | ((with_reducible apply fun k => sub_trans k hμ); exact rfl)
    | ((with_reducible apply sub_set hμ); exact rfl)
    | intro _
    | with_reducible apply Within.ite
    | with_reducible apply within_hostWrite
    | with_reducible apply within_fcCtrlEffect
    | with_reducible apply Within.foldl
    | (extract_lets +onlyGivenNames a; first | (refine Within.cutAny (μ := μ) (σ := σ) (a := a) ?_ ?_; all_goals (first | (intro ha; clear_value a) | (unfold a; clear a))) | skip)
    | split

theorem within_execFcPhaseWrite {μ : Nat} {σ x : State} (fn : ℕ) (n : ℕ) (v : W32)  (hμ : Nat.land 123031761764568303638119998858736614414054978128580837460343748423455703125750716651003678271858220560122792288106818699554193261002396080836065321203251575539712 μ = 123031761764568303638119998858736614414054978128580837460343748423455703125750716651003678271858220560122792288106818699554193261002396080836065321203251575539712) (hw : Within μ σ x) :
    WithinOut μ σ (execFcPhaseWrite fn n v x) := by
  unfold execFcPhaseWrite
  repeat' first
    | with_reducible apply WithinOut.next
    | with_reducible apply WithinOut.ite
    | with_reducible assumption
    | with_reducible apply Within.refl
    | with_reducible apply Eq.refl
    | ((with_reducible apply fun k => sub_trans k hμ); exact rfl)
    | ((with_reducible apply sub_set hμ); exact rfl)
    | intro _
    | with_reducible apply Within.ite
    | with_reducible apply within_hostWrite
    | with_reducible apply within_fcPhaseEffect
    | with_reducible apply Within.foldl
    | (extract_lets +onlyGivenNames a; first | (refine Within.cutAny (μ := μ) (σ := σ) (a := a) ?_ ?_; all_goals (first | (intro ha; clear_value a) | (unfold a; clear a))) | skip)
    | split

theorem within_execRef10Return {μ : Nat} {σ x : State} (at_ : W64)  (hμ : Nat.land 232057620103055130805248174612147416316575990886044296059170442774308101771574365185951006092919809776452524893401504141559086271929178215017548357037633937866752 μ = 232057620103055130805248174612147416316575990886044296059170442774308101771574365185951006092919809776452524893401504141559086271929178215017548357037633937866752) (hw : Within μ σ x) :
    WithinOut μ σ (execRef10Return at_ x) := by
  unfold execRef10Return
  repeat' first
    | with_reducible apply WithinOut.next
    | with_reducible apply WithinOut.ite
    | with_reducible assumption
    | with_reducible apply Within.refl
    | with_reducible apply Eq.refl
    | ((with_reducible apply fun k => sub_trans k hμ); exact rfl)
    | ((with_reducible apply sub_set hμ); exact rfl)
    | intro _
    | with_reducible apply Within.ite
    | with_reducible apply within_ref10Start
    | with_reducible apply within_advance
    | with_reducible apply Within.foldl
    | (extract_lets +onlyGivenNames a; first | (refine Within.cutAny (μ := μ) (σ := σ) (a := a) ?_ ?_; all_goals (first | (intro ha; clear_value a) | (unfold a; clear a))) | skip)
    | split

theorem within_execPpsInLoRead {μ : Nat} {σ x : State} (fn : ℕ)  (hμ : Nat.land 3529417728246369490103468044427714111213158341149459263178439420199542276220440389842067251269939180579702730674087611208780311613743162159704369577846733031424 μ = 3529417728246369490103468044427714111213158341149459263178439420199542276220440389842067251269939180579702730674087611208780311613743162159704369577846733031424) (hw : Within μ σ x) :
    WithinOut μ σ (execPpsInLoRead fn x) := by
  unfold execPpsInLoRead
  repeat' first
    | with_reducible apply WithinOut.next
    | with_reducible apply WithinOut.ite
    | with_reducible assumption
    | with_reducible apply Within.refl
    | with_reducible apply Eq.refl
    | ((with_reducible apply fun k => sub_trans k hμ); exact rfl)
    | ((with_reducible apply sub_set hμ); exact rfl)
    | intro _
    | with_reducible apply Within.ite
    | with_reducible apply within_hostRead
    | with_reducible apply within_ppsInLoRead
    | with_reducible apply Within.foldl
    | (extract_lets +onlyGivenNames a; first | (refine Within.cutAny (μ := μ) (σ := σ) (a := a) ?_ ?_; all_goals (first | (intro ha; clear_value a) | (unfold a; clear a))) | skip)
    | split

theorem within_execTsqFlush {μ : Nat} {σ x : State} (fn : ℕ) (p : ℕ)  (hμ : Nat.land 172238631392384514075110263786552040995442290360008050634883262498897676664345115232618185776133006783533626801810516564563364307147669980741271541553994246670336 μ = 172238631392384514075110263786552040995442290360008050634883262498897676664345115232618185776133006783533626801810516564563364307147669980741271541553994246670336) (hw : Within μ σ x) :
    WithinOut μ σ (execTsqFlush fn p x) := by
  unfold execTsqFlush
  repeat' first
    | with_reducible apply WithinOut.next
    | with_reducible apply WithinOut.ite
    | with_reducible assumption
    | with_reducible apply Within.refl
    | with_reducible apply Eq.refl
    | ((with_reducible apply fun k => sub_trans k hμ); exact rfl)
    | ((with_reducible apply sub_set hμ); exact rfl)
    | intro _
    | with_reducible apply Within.ite
    | with_reducible apply within_hostWrite
    | with_reducible apply within_tsqCtrlWrite
    | with_reducible apply Within.foldl
    | (extract_lets +onlyGivenNames a; first | (refine Within.cutAny (μ := μ) (σ := σ) (a := a) ?_ ?_; all_goals (first | (intro ha; clear_value a) | (unfold a; clear a))) | skip)
    | split

theorem within_execRef10Loss {μ : Nat} {σ x : State}   (hμ : Nat.land 10558916900988394067856536166587067942312550171032921632824859108159763608963519715171012047292399787374455038330677144184992026552334525496103141319612989196288 μ = 10558916900988394067856536166587067942312550171032921632824859108159763608963519715171012047292399787374455038330677144184992026552334525496103141319612989196288) (hw : Within μ σ x) :
    WithinOut μ σ (execRef10Loss x) := by
  unfold execRef10Loss
  repeat' first
    | with_reducible apply WithinOut.next
    | with_reducible apply WithinOut.ite
    | with_reducible assumption
    | with_reducible apply Within.refl
    | with_reducible apply Eq.refl
    | ((with_reducible apply fun k => sub_trans k hμ); exact rfl)
    | ((with_reducible apply sub_set hμ); exact rfl)
    | ((with_reducible apply Or.inl); with_reducible apply Eq.refl)
    | ((with_reducible apply Or.inr); (with_reducible apply sub_set hμ); exact rfl)
    | intro _
    | with_reducible apply Within.ite
    | with_reducible apply within_timeEvent
    | with_reducible apply within_put
    | with_reducible apply Within.foldl
    | (extract_lets +onlyGivenNames a; first | (refine Within.cutAny (μ := μ) (σ := σ) (a := a) ?_ ?_; all_goals (first | (intro ha; clear_value a) | (unfold a; clear a))) | skip)
    | split
    | (with_reducible apply Within.upd)

theorem within_execRef10Window {μ : Nat} {σ x : State} (at_ : W64)  (hμ : Nat.land 232057620103055130805248174612147416316575990886044296059170442774308101771574365185951006092919809827874542309689192958901873226846381495728044158087004667510784 μ = 232057620103055130805248174612147416316575990886044296059170442774308101771574365185951006092919809827874542309689192958901873226846381495728044158087004667510784) (hw : Within μ σ x) :
    WithinOut μ σ (execRef10Window at_ x) := by
  unfold execRef10Window
  repeat' first
    | with_reducible apply WithinOut.next
    | with_reducible apply WithinOut.ite
    | with_reducible assumption
    | with_reducible apply Within.refl
    | with_reducible apply Eq.refl
    | ((with_reducible apply fun k => sub_trans k hμ); exact rfl)
    | ((with_reducible apply sub_set hμ); exact rfl)
    | intro _
    | with_reducible apply Within.ite
    | with_reducible apply within_advance
    | with_reducible apply within_ref10Start
    | with_reducible apply within_wr
    | with_reducible apply Within.foldl
    | (extract_lets +onlyGivenNames a; first | (refine Within.cutAny (μ := μ) (σ := σ) (a := a) ?_ ?_; all_goals (first | (intro ha; clear_value a) | (unfold a; clear a))) | skip)
    | split

theorem within_execTimeSelWrite {μ : Nat} {σ x : State} (fn : ℕ) (v : W32)  (hμ : Nat.land 123031761764568303638119998858736614414054978128580837460343748423455703125750716651003678271858220560122792862792646524262515145382531262202006286919461622532096 μ = 123031761764568303638119998858736614414054978128580837460343748423455703125750716651003678271858220560122792862792646524262515145382531262202006286919461622532096) (hw : Within μ σ x) :
    WithinOut μ σ (execTimeSelWrite fn v x) := by
  unfold execTimeSelWrite
  repeat' first
    | with_reducible apply WithinOut.next
    | with_reducible apply WithinOut.ite
    | with_reducible assumption
    | with_reducible apply Within.refl
    | with_reducible apply Eq.refl
    | ((with_reducible apply fun k => sub_trans k hμ); exact rfl)
    | ((with_reducible apply sub_set hμ); exact rfl)
    | intro _
    | with_reducible apply Within.ite
    | with_reducible apply within_hostWrite
    | with_reducible apply within_timeCtrlWrite
    | with_reducible apply Within.foldl
    | (extract_lets +onlyGivenNames a; first | (refine Within.cutAny (μ := μ) (σ := σ) (a := a) ?_ ?_; all_goals (first | (intro ha; clear_value a) | (unfold a; clear a))) | skip)
    | split

theorem within_execAnnKick {μ : Nat} {σ x : State} (fn : ℕ) (d : ℕ)  (hμ : Nat.land 123031761764568303638119998858736614414054978128580837460343748423455703125750716651003678271858220560122791521859048266609764081828882505681470620522729711880192 μ = 123031761764568303638119998858736614414054978128580837460343748423455703125750716651003678271858220560122791521859048266609764081828882505681470620522729711880192) (hw : Within μ σ x) :
    WithinOut μ σ (execAnnKick fn d x) := by
  unfold execAnnKick
  repeat' first
    | with_reducible apply WithinOut.next
    | with_reducible apply WithinOut.ite
    | with_reducible assumption
    | with_reducible apply Within.refl
    | with_reducible apply Eq.refl
    | ((with_reducible apply fun k => sub_trans k hμ); exact rfl)
    | ((with_reducible apply sub_set hμ); exact rfl)
    | intro _
    | with_reducible apply Within.ite
    | with_reducible apply within_hostWrite
    | with_reducible apply within_annKickWrite
    | with_reducible apply Within.foldl
    | (extract_lets +onlyGivenNames a; first | (refine Within.cutAny (μ := μ) (σ := σ) (a := a) ?_ ?_; all_goals (first | (intro ha; clear_value a) | (unfold a; clear a))) | skip)
    | split

theorem within_execAnnounceTimeout {μ : Nat} {σ x : State} (d : ℕ)  (hμ : Nat.land 235586984200069780524963244360475137604404639309730472952775371300261869160738685103748517068174880099530228125743419670641850793183046109672279788702364562638848 μ = 235586984200069780524963244360475137604404639309730472952775371300261869160738685103748517068174880099530228125743419670641850793183046109672279788702364562638848) (hw : Within μ σ x) :
    WithinOut μ σ (execAnnounceTimeout d x) := by
  unfold execAnnounceTimeout
  repeat' first
    | with_reducible apply WithinOut.next
    | with_reducible apply WithinOut.ite
    | with_reducible assumption
    | with_reducible apply Within.refl
    | with_reducible apply Eq.refl
    | ((with_reducible apply fun k => sub_trans k hμ); exact rfl)
    | ((with_reducible apply sub_set hμ); exact rfl)
    | intro _
    | with_reducible apply Within.ite
    | with_reducible apply within_enterLost
    | with_reducible apply within_advance
    | with_reducible apply Within.foldl
    | (extract_lets +onlyGivenNames a; first | (refine Within.cutAny (μ := μ) (σ := σ) (a := a) ?_ ?_; all_goals (first | (intro ha; clear_value a) | (unfold a; clear a))) | skip)
    | split

theorem within_execOtLoRead {μ : Nat} {σ x : State} (fn : ℕ)  (hμ : Nat.land 3529417728246369490103468044427714111213158341149459263178439420199542276220440389842067251269939161296455394539449500038385353601954833748370156619065811027968 μ = 3529417728246369490103468044427714111213158341149459263178439420199542276220440389842067251269939161296455394539449500038385353601954833748370156619065811027968) (hw : Within μ σ x) :
    WithinOut μ σ (execOtLoRead fn x) := by
  unfold execOtLoRead
  repeat' first
    | with_reducible apply WithinOut.next
    | with_reducible apply WithinOut.ite
    | with_reducible assumption
    | with_reducible apply Within.refl
    | with_reducible apply Eq.refl
    | ((with_reducible apply fun k => sub_trans k hμ); exact rfl)
    | ((with_reducible apply sub_set hμ); exact rfl)
    | intro _
    | with_reducible apply Within.ite
    | with_reducible apply within_hostRead
    | with_reducible apply within_otLoRead
    | with_reducible apply Within.foldl
    | (extract_lets +onlyGivenNames a; first | (refine Within.cutAny (μ := μ) (σ := σ) (a := a) ?_ ?_; all_goals (first | (intro ha; clear_value a) | (unfold a; clear a))) | skip)
    | split

theorem within_execPpsOutPulse {μ : Nat} {σ x : State} (i : ℕ)  (hμ : Nat.land 232057620103055130805248174612147416316575990886044296059170442774308101771574365185951006092919809776452524510277618925086871682342421427440252452352853391966208 μ = 232057620103055130805248174612147416316575990886044296059170442774308101771574365185951006092919809776452524510277618925086871682342421427440252452352853391966208) (hw : Within μ σ x) :
    WithinOut μ σ (execPpsOutPulse i x) := by
  unfold execPpsOutPulse
  repeat' first
    | with_reducible apply WithinOut.next
    | with_reducible apply WithinOut.ite
    | with_reducible assumption
    | with_reducible apply Within.refl
    | with_reducible apply Eq.refl
    | ((with_reducible apply fun k => sub_trans k hμ); exact rfl)
    | ((with_reducible apply sub_set hμ); exact rfl)
    | ((with_reducible apply Or.inl); with_reducible apply Eq.refl)
    | ((with_reducible apply Or.inr); (with_reducible apply sub_set hμ); exact rfl)
    | intro _
    | with_reducible apply Within.ite
    | with_reducible apply within_advance
    | with_reducible apply Within.foldl
    | (extract_lets +onlyGivenNames a; first | (refine Within.cutAny (μ := μ) (σ := σ) (a := a) ?_ ?_; all_goals (first | (intro ha; clear_value a) | (unfold a; clear a))) | skip)
    | split
    | (with_reducible apply Within.upd)

theorem within_execSetGo {μ : Nat} {σ x : State} (fn : ℕ)  (hμ : Nat.land 116084586532516126606558315250066244478178309604835812386036551402759933424152288726255647915508828550485768804102525287692840398733439624875033417946462911744000 μ = 116084586532516126606558315250066244478178309604835812386036551402759933424152288726255647915508828550485768804102525287692840398733439624875033417946462911744000) (hw : Within μ σ x) :
    WithinOut μ σ (execSetGo fn x) := by
  unfold execSetGo
  repeat' first
    | with_reducible apply WithinOut.next
    | with_reducible apply WithinOut.ite
    | with_reducible assumption
    | with_reducible apply Within.refl
    | with_reducible apply Eq.refl
    | ((with_reducible apply fun k => sub_trans k hμ); exact rfl)
    | ((with_reducible apply sub_set hμ); exact rfl)
    | intro _
    | with_reducible apply Within.ite
    | with_reducible apply within_hostWrite
    | with_reducible apply within_setGoWrite
    | with_reducible apply Within.foldl
    | (extract_lets +onlyGivenNames a; first | (refine Within.cutAny (μ := μ) (σ := σ) (a := a) ?_ ?_; all_goals (first | (intro ha; clear_value a) | (unfold a; clear a))) | skip)
    | split

theorem within_execTsqPop {μ : Nat} {σ x : State} (fn : ℕ) (p : ℕ) (poison : BitVec 4)  (hμ : Nat.land 59765840160036324275235199390502487347084372319923417176937884077847512034614038768830075827580369852337335987395382312845909617633186928690736384405630087088128 μ = 59765840160036324275235199390502487347084372319923417176937884077847512034614038768830075827580369852337335987395382312845909617633186928690736384405630087088128) (hw : Within μ σ x) :
    WithinOut μ σ (execTsqPop fn p poison x) := by
  unfold execTsqPop
  repeat' first
    | with_reducible apply WithinOut.next
    | with_reducible apply WithinOut.ite
    | with_reducible assumption
    | with_reducible apply Within.refl
    | with_reducible apply Eq.refl
    | ((with_reducible apply fun k => sub_trans k hμ); exact rfl)
    | ((with_reducible apply sub_set hμ); exact rfl)
    | intro _
    | with_reducible apply Within.ite
    | with_reducible apply within_hostRead
    | with_reducible apply within_tsqPopRead
    | with_reducible apply Within.foldl
    | (extract_lets +onlyGivenNames a; first | (refine Within.cutAny (μ := μ) (σ := σ) (a := a) ?_ ?_; all_goals (first | (intro ha; clear_value a) | (unfold a; clear a))) | skip)
    | split

theorem within_execNextLoRead {μ : Nat} {σ x : State} (fn : ℕ) (n : ℕ)  (hμ : Nat.land 3529417728246369490103468044427714111213158341149459263178439420199542276220440389842067251269939161296446199566204304705235203519791931893268876529896936982528 μ = 3529417728246369490103468044427714111213158341149459263178439420199542276220440389842067251269939161296446199566204304705235203519791931893268876529896936982528) (hw : Within μ σ x) :
    WithinOut μ σ (execNextLoRead fn n x) := by
  unfold execNextLoRead
  repeat' first
    | with_reducible apply WithinOut.next
    | with_reducible apply WithinOut.ite
    | with_reducible assumption
    | with_reducible apply Within.refl
    | with_reducible apply Eq.refl
    | ((with_reducible apply fun k => sub_trans k hμ); exact rfl)
    | ((with_reducible apply sub_set hμ); exact rfl)
    | intro _
    | with_reducible apply Within.ite
    | with_reducible apply within_hostRead
    | with_reducible apply within_nextLoRead
    | with_reducible apply Within.foldl
    | (extract_lets +onlyGivenNames a; first | (refine Within.cutAny (μ := μ) (σ := σ) (a := a) ?_ ?_; all_goals (first | (intro ha; clear_value a) | (unfold a; clear a))) | skip)
    | split

/-! ## Vat -/

theorem within_execFrameInstant {μ : Nat} {σ x : State} (n : ℕ)  (hμ : Nat.land 334879846606052677605568643887188351686065830830709501350844977927887764861851435657756800451729899473408409257806353983642143922923189504469647775244887265396736 μ = 334879846606052677605568643887188351686065830830709501350844977927887764861851435657756800451729899473408409257806353983642143922923189504469647775244887265396736) (hw : Within μ σ x) :
    WithinOut μ σ (execFrameInstant n x) := by
  unfold execFrameInstant
  repeat' first
    | with_reducible apply WithinOut.next
    | with_reducible apply WithinOut.ite
    | with_reducible assumption
    | with_reducible apply Within.refl
    | with_reducible apply Eq.refl
    | ((with_reducible apply fun k => sub_trans k hμ); exact rfl)
    | ((with_reducible apply sub_set hμ); exact rfl)
    | intro _
    | with_reducible apply Within.ite
    | with_reducible apply within_advance
    | with_reducible apply within_enterStretch
    | with_reducible apply within_setFc
    | with_reducible apply within_calRelease
    | with_reducible apply within_releaseKind
    | with_reducible apply within_keepUniverses
    | with_reducible apply within_ppsChange
    | with_reducible apply Within.forEach
    | with_reducible apply Within.foldl
    | (extract_lets +onlyGivenNames a; first | (refine Within.cutAny (μ := μ) (σ := σ) (a := a) ?_ ?_; all_goals (first | (intro ha; clear_value a) | (unfold a; clear a))) | skip)
    | split

theorem within_execCanvasDisable {μ : Nat} {σ x : State} (fn : ℕ) (c : ℕ) (v : W32)  (hμ : Nat.land 1313669347260208262295849448536612506704021145690589000449422928825038597945648061163944177271504460257163543273013612235040084117517655667858671751285398044690432 μ = 1313669347260208262295849448536612506704021145690589000449422928825038597945648061163944177271504460257163543273013612235040084117517655667858671751285398044690432) (hw : Within μ σ x) :
    WithinOut μ σ (execCanvasDisable fn c v x) := by
  unfold execCanvasDisable
  repeat' first
    | with_reducible apply WithinOut.next
    | with_reducible apply WithinOut.ite
    | with_reducible assumption
    | with_reducible apply Within.refl
    | with_reducible apply Eq.refl
    | ((with_reducible apply fun k => sub_trans k hμ); exact rfl)
    | ((with_reducible apply sub_set hμ); exact rfl)
    | intro _
    | with_reducible apply Within.ite
    | with_reducible apply within_hostWrite
    | with_reducible apply within_canvasCtrlWrite
    | with_reducible apply Within.foldl
    | (extract_lets +onlyGivenNames a; first | (refine Within.cutAny (μ := μ) (σ := σ) (a := a) ?_ ?_; all_goals (first | (intro ha; clear_value a) | (unfold a; clear a))) | skip)
    | split

theorem within_execStallRelease {μ : Nat} {σ x : State} (c : ℕ)  (hμ : Nat.land 6165446398504803850268119655174976283260111578941206170812402494281015971589019841812573877269068872188984249668473745624590185472245510856394314345079547906048 μ = 6165446398504803850268119655174976283260111578941206170812402494281015971589019841812573877269068872188984249668473745624590185472245510856394314345079547906048) (hw : Within μ σ x) :
    WithinOut μ σ (execStallRelease c x) := by
  unfold execStallRelease
  repeat' first
    | with_reducible apply WithinOut.next
    | with_reducible apply WithinOut.ite
    | with_reducible assumption
    | with_reducible apply Within.refl
    | with_reducible apply Eq.refl
    | ((with_reducible apply fun k => sub_trans k hμ); exact rfl)
    | ((with_reducible apply sub_set hμ); exact rfl)
    | intro _
    | with_reducible apply Within.ite
    | with_reducible apply within_releaseEpoch
    | with_reducible apply within_put
    | with_reducible apply Within.foldl
    | (extract_lets +onlyGivenNames a; first | (refine Within.cutAny (μ := μ) (σ := σ) (a := a) ?_ ?_; all_goals (first | (intro ha; clear_value a) | (unfold a; clear a))) | skip)
    | split

theorem within_execUnpin {μ : Nat} {σ x : State} (fn : ℕ) (c : ℕ)  (hμ : Nat.land 1243373631511159799618075390317669065277336343506000064763716334873118423642959642160551491324890991277548041383918833637935243007846197867781757546995359183554560 μ = 1243373631511159799618075390317669065277336343506000064763716334873118423642959642160551491324890991277548041383918833637935243007846197867781757546995359183554560) (hw : Within μ σ x) :
    WithinOut μ σ (execUnpin fn c x) := by
  unfold execUnpin
  repeat' first
    | with_reducible apply WithinOut.next
    | with_reducible apply WithinOut.ite
    | with_reducible assumption
    | with_reducible apply Within.refl
    | with_reducible apply Eq.refl
    | ((with_reducible apply fun k => sub_trans k hμ); exact rfl)
    | ((with_reducible apply sub_set hμ); exact rfl)
    | intro _
    | with_reducible apply Within.ite
    | with_reducible apply within_vatCmd
    | with_reducible apply Within.foldl
    | (extract_lets +onlyGivenNames a; first | (refine Within.cutAny (μ := μ) (σ := σ) (a := a) ?_ ?_; all_goals (first | (intro ha; clear_value a) | (unfold a; clear a))) | skip)
    | split

theorem within_execSquash {μ : Nat} {σ x : State} (fn : ℕ) (c : ℕ)  (hμ : Nat.land 1243373631511159799618075390317669065277336343506000064763716334873118423642959642160551491324890991277548041383918833637935243007846197867781757546995359183554560 μ = 1243373631511159799618075390317669065277336343506000064763716334873118423642959642160551491324890991277548041383918833637935243007846197867781757546995359183554560) (hw : Within μ σ x) :
    WithinOut μ σ (execSquash fn c x) := by
  unfold execSquash
  repeat' first
    | with_reducible apply WithinOut.next
    | with_reducible apply WithinOut.ite
    | with_reducible assumption
    | with_reducible apply Within.refl
    | with_reducible apply Eq.refl
    | ((with_reducible apply fun k => sub_trans k hμ); exact rfl)
    | ((with_reducible apply sub_set hμ); exact rfl)
    | intro _
    | with_reducible apply Within.ite
    | with_reducible apply within_vatCmd
    | with_reducible apply Within.foldl
    | (extract_lets +onlyGivenNames a; first | (refine Within.cutAny (μ := μ) (σ := σ) (a := a) ?_ ?_; all_goals (first | (intro ha; clear_value a) | (unfold a; clear a))) | skip)
    | split

theorem within_execFillCopyComplete {μ : Nat} {σ x : State} (c : ℕ)  (hμ : Nat.land 6165446398504803850268119655174976283260111578941206170812402494281015971589019841812573877269068872188984249668473745624590185472245511007510041796908194744320 μ = 6165446398504803850268119655174976283260111578941206170812402494281015971589019841812573877269068872188984249668473745624590185472245511007510041796908194744320) (hw : Within μ σ x) :
    WithinOut μ σ (execFillCopyComplete c x) := by
  unfold execFillCopyComplete
  repeat' first
    | with_reducible apply WithinOut.next
    | with_reducible apply WithinOut.ite
    | with_reducible assumption
    | with_reducible apply Within.refl
    | with_reducible apply Eq.refl
    | ((with_reducible apply fun k => sub_trans k hμ); exact rfl)
    | ((with_reducible apply sub_set hμ); exact rfl)
    | intro _
    | with_reducible apply Within.ite
    | with_reducible apply within_fixSlots
    | with_reducible apply within_releaseUp
    | with_reducible apply within_endCopies
    | with_reducible apply Within.foldl
    | (extract_lets +onlyGivenNames a; first | (refine Within.cutAny (μ := μ) (σ := σ) (a := a) ?_ ?_; all_goals (first | (intro ha; clear_value a) | (unfold a; clear a))) | skip)
    | split

theorem within_execCanvasEnable {μ : Nat} {σ x : State} (fn : ℕ) (c : ℕ) (v : W32)  (hμ : Nat.land 1313669347260208262295849448536612506704021145690589000449422928825038597945648061163944177271504460257163543273013612235040084117517655667858671751285398044690432 μ = 1313669347260208262295849448536612506704021145690589000449422928825038597945648061163944177271504460257163543273013612235040084117517655667858671751285398044690432) (hw : Within μ σ x) :
    WithinOut μ σ (execCanvasEnable fn c v x) := by
  unfold execCanvasEnable
  repeat' first
    | with_reducible apply WithinOut.next
    | with_reducible apply WithinOut.ite
    | with_reducible assumption
    | with_reducible apply Within.refl
    | with_reducible apply Eq.refl
    | ((with_reducible apply fun k => sub_trans k hμ); exact rfl)
    | ((with_reducible apply sub_set hμ); exact rfl)
    | intro _
    | with_reducible apply Within.ite
    | with_reducible apply within_hostWrite
    | with_reducible apply within_canvasCtrlWrite
    | with_reducible apply Within.foldl
    | (extract_lets +onlyGivenNames a; first | (refine Within.cutAny (μ := μ) (σ := σ) (a := a) ?_ ?_; all_goals (first | (intro ha; clear_value a) | (unfold a; clear a))) | skip)
    | split

theorem within_execWake {μ : Nat} {σ x : State} (fn : ℕ) (c : ℕ)  (hμ : Nat.land 1243373631511159799618075390317669065277336343506000064763716334873118423642959642160551491324890991277548041383918833637935243007846197867781757546995359183554560 μ = 1243373631511159799618075390317669065277336343506000064763716334873118423642959642160551491324890991277548041383918833637935243007846197867781757546995359183554560) (hw : Within μ σ x) :
    WithinOut μ σ (execWake fn c x) := by
  unfold execWake
  repeat' first
    | with_reducible apply WithinOut.next
    | with_reducible apply WithinOut.ite
    | with_reducible assumption
    | with_reducible apply Within.refl
    | with_reducible apply Eq.refl
    | ((with_reducible apply fun k => sub_trans k hμ); exact rfl)
    | ((with_reducible apply sub_set hμ); exact rfl)
    | intro _
    | with_reducible apply Within.ite
    | with_reducible apply within_vatCmd
    | with_reducible apply Within.foldl
    | (extract_lets +onlyGivenNames a; first | (refine Within.cutAny (μ := μ) (σ := σ) (a := a) ?_ ?_; all_goals (first | (intro ha; clear_value a) | (unfold a; clear a))) | skip)
    | split

theorem within_execPin {μ : Nat} {σ x : State} (fn : ℕ) (c : ℕ)  (hμ : Nat.land 1243373631511159799618075390317669065277336343506000064763716334873118423642959642160551491324890991277548041383918833637935243007846197867781757546995359183554560 μ = 1243373631511159799618075390317669065277336343506000064763716334873118423642959642160551491324890991277548041383918833637935243007846197867781757546995359183554560) (hw : Within μ σ x) :
    WithinOut μ σ (execPin fn c x) := by
  unfold execPin
  repeat' first
    | with_reducible apply WithinOut.next
    | with_reducible apply WithinOut.ite
    | with_reducible assumption
    | with_reducible apply Within.refl
    | with_reducible apply Eq.refl
    | ((with_reducible apply fun k => sub_trans k hμ); exact rfl)
    | ((with_reducible apply sub_set hμ); exact rfl)
    | intro _
    | with_reducible apply Within.ite
    | with_reducible apply within_vatCmd
    | with_reducible apply Within.foldl
    | (extract_lets +onlyGivenNames a; first | (refine Within.cutAny (μ := μ) (σ := σ) (a := a) ?_ ?_; all_goals (first | (intro ha; clear_value a) | (unfold a; clear a))) | skip)
    | split

/-! ## Nodes -/

theorem within_execForce {μ : Nat} {σ x : State} (fn : ℕ) (g : ℕ) (v : W32)  (hμ : Nat.land 1271491842727054777010641255990706451895271950495387043720596057201942408522156441350045495613040309134735047075378339232477072742175977399327119106510605085067264 μ = 1271491842727054777010641255990706451895271950495387043720596057201942408522156441350045495613040309134735047075378339232477072742175977399327119106510605085067264) (hw : Within μ σ x) :
    WithinOut μ σ (execForce fn g v x) := by
  unfold execForce
  repeat' first
    | with_reducible apply WithinOut.next
    | with_reducible apply WithinOut.ite
    | with_reducible assumption
    | with_reducible apply Within.refl
    | with_reducible apply Eq.refl
    | ((with_reducible apply fun k => sub_trans k hμ); exact rfl)
    | ((with_reducible apply sub_set hμ); exact rfl)
    | intro _
    | with_reducible apply Within.ite
    | with_reducible apply within_hostWrite
    | with_reducible apply within_kgWrite
    | with_reducible apply Within.foldl
    | (extract_lets +onlyGivenNames a; first | (refine Within.cutAny (μ := μ) (σ := σ) (a := a) ?_ ?_; all_goals (first | (intro ha; clear_value a) | (unfold a; clear a))) | skip)
    | split

theorem within_execEtabPublish {μ : Nat} {σ x : State} (fn : ℕ) (e : ℕ) (v : W32)  (hμ : Nat.land 1271491842727054777010641255990706451895271950495387043720596057201942412596228394019017668149931685953491369178315126564327799930657923401175681369729565127362560 μ = 1271491842727054777010641255990706451895271950495387043720596057201942412596228394019017668149931685953491369178315126564327799930657923401175681369729565127362560) (hw : Within μ σ x) :
    WithinOut μ σ (execEtabPublish fn e v x) := by
  unfold execEtabPublish
  repeat' first
    | with_reducible apply WithinOut.next
    | with_reducible apply WithinOut.ite
    | with_reducible assumption
    | with_reducible apply Within.refl
    | with_reducible apply Eq.refl
    | ((with_reducible apply fun k => sub_trans k hμ); exact rfl)
    | ((with_reducible apply sub_set hμ); exact rfl)
    | intro _
    | with_reducible apply Within.ite
    | with_reducible apply within_hostWrite
    | with_reducible apply within_etabWordWrite
    | with_reducible apply Within.foldl
    | (extract_lets +onlyGivenNames a; first | (refine Within.cutAny (μ := μ) (σ := σ) (a := a) ?_ ?_; all_goals (first | (intro ha; clear_value a) | (unfold a; clear a))) | skip)
    | split

theorem within_execEtabStageWrite {μ : Nat} {σ x : State} (fn : ℕ) (e : ℕ) (k : ℕ) (v : W32)  (hμ : Nat.land 1271491842727054777010641255990706451895271950495387043720596057201942412596228394019017668149931685953491369178315126564327799930657923401175681369729565127362560 μ = 1271491842727054777010641255990706451895271950495387043720596057201942412596228394019017668149931685953491369178315126564327799930657923401175681369729565127362560) (hw : Within μ σ x) :
    WithinOut μ σ (execEtabStageWrite fn e k v x) := by
  unfold execEtabStageWrite
  repeat' first
    | with_reducible apply WithinOut.next
    | with_reducible apply WithinOut.ite
    | with_reducible assumption
    | with_reducible apply Within.refl
    | with_reducible apply Eq.refl
    | ((with_reducible apply fun k => sub_trans k hμ); exact rfl)
    | ((with_reducible apply sub_set hμ); exact rfl)
    | intro _
    | with_reducible apply Within.ite
    | with_reducible apply within_hostWrite
    | with_reducible apply within_etabWordWrite
    | with_reducible apply Within.foldl
    | (extract_lets +onlyGivenNames a; first | (refine Within.cutAny (μ := μ) (σ := σ) (a := a) ?_ ?_; all_goals (first | (intro ha; clear_value a) | (unfold a; clear a))) | skip)
    | split

theorem within_execNodeLost {μ : Nat} {σ x : State} (e : ℕ)  (hμ : Nat.land 1271574220298976344327221038800295428613879183718988763385508790763452635040357213044814317260210570418789741657770410540150824418064059204277766766309651874334720 μ = 1271574220298976344327221038800295428613879183718988763385508790763452635040357213044814317260210570418789741657770410540150824418064059204277766766309651874334720) (hw : Within μ σ x) :
    WithinOut μ σ (execNodeLost e x) := by
  unfold execNodeLost
  repeat' first
    | with_reducible apply WithinOut.next
    | with_reducible apply WithinOut.ite
    | with_reducible assumption
    | with_reducible apply Within.refl
    | with_reducible apply Eq.refl
    | ((with_reducible apply fun k => sub_trans k hμ); exact rfl)
    | ((with_reducible apply sub_set hμ); exact rfl)
    | intro _
    | with_reducible apply Within.ite
    | with_reducible apply within_advance
    | with_reducible apply within_epEvent
    | with_reducible apply within_bump
    | with_reducible apply within_setEp
    | with_reducible apply within_killGroup
    | with_reducible apply Within.foldl
    | (extract_lets +onlyGivenNames a; first | (refine Within.cutAny (μ := μ) (σ := σ) (a := a) ?_ ?_; all_goals (first | (intro ha; clear_value a) | (unfold a; clear a))) | skip)
    | split

theorem within_execClear {μ : Nat} {σ x : State} (fn : ℕ) (g : ℕ) (v : W32)  (hμ : Nat.land 1271491842727054777010641255990706451895271950495387043720596057201942408522156441350045495613040309134735047075378339232477072742175977399327119106510605085067264 μ = 1271491842727054777010641255990706451895271950495387043720596057201942408522156441350045495613040309134735047075378339232477072742175977399327119106510605085067264) (hw : Within μ σ x) :
    WithinOut μ σ (execClear fn g v x) := by
  unfold execClear
  repeat' first
    | with_reducible apply WithinOut.next
    | with_reducible apply WithinOut.ite
    | with_reducible assumption
    | with_reducible apply Within.refl
    | with_reducible apply Eq.refl
    | ((with_reducible apply fun k => sub_trans k hμ); exact rfl)
    | ((with_reducible apply sub_set hμ); exact rfl)
    | intro _
    | with_reducible apply Within.ite
    | with_reducible apply within_hostWrite
    | with_reducible apply within_kgWrite
    | with_reducible apply Within.foldl
    | (extract_lets +onlyGivenNames a; first | (refine Within.cutAny (μ := μ) (σ := σ) (a := a) ?_ ?_; all_goals (first | (intro ha; clear_value a) | (unfold a; clear a))) | skip)
    | split

theorem within_takeStat {μ : Nat} {σ x : State} (a0 : Sys2Proof.Machine.StatMsg)  (hμ : Nat.land 1271491842727054777010641255990706451895271950495387043720596057201942408522156441172188846544522632964130014102033712769854378954208062604552015877970158493648896 μ = 1271491842727054777010641255990706451895271950495387043720596057201942408522156441172188846544522632964130014102033712769854378954208062604552015877970158493648896) (hw : Within μ σ x) :
    Within μ σ (takeStat a0 x) := by
  unfold takeStat
  repeat' first
    | with_reducible assumption
    | with_reducible apply Within.refl
    | with_reducible apply Eq.refl
    | ((with_reducible apply fun k => sub_trans k hμ); exact rfl)
    | ((with_reducible apply sub_set hμ); exact rfl)
    | intro _
    | with_reducible apply Within.ite
    | with_reducible apply within_epEvent
    | with_reducible apply within_bump
    | with_reducible apply within_acceptStat
    | with_reducible apply Within.foldl
    | (extract_lets +onlyGivenNames a; first | (refine Within.cutAny (μ := μ) (σ := σ) (a := a) ?_ ?_; all_goals (first | (intro ha; clear_value a) | (unfold a; clear a))) | skip)
    | split

theorem within_heardFrame {μ : Nat} {σ x : State} (p : ℕ) (m : Sys2Proof.RxFrame)  (hμ : Nat.land 281265347830578857568452812277562728072115461796884027146886131157682473503066688474572028917136198708349156632370677650604216732572890294869259658897102511013888 μ = 281265347830578857568452812277562728072115461796884027146886131157682473503066688474572028917136198708349156632370677650604216732572890294869259658897102511013888) (hw : Within μ σ x) :
    Within μ σ (heardFrame p m x) := by
  unfold heardFrame
  repeat' first
    | with_reducible assumption
    | with_reducible apply Within.refl
    | with_reducible apply Eq.refl
    | ((with_reducible apply fun k => sub_trans k hμ); exact rfl)
    | ((with_reducible apply sub_set hμ); exact rfl)
    | intro _
    | with_reducible apply Within.ite
    | with_reducible apply within_rxCount
    | with_reducible apply within_advance
    | with_reducible apply Within.foldl
    | (extract_lets +onlyGivenNames a; first | (refine Within.cutAny (μ := μ) (σ := σ) (a := a) ?_ ?_; all_goals (first | (intro ha; clear_value a) | (unfold a; clear a))) | skip)
    | split

theorem within_otherFrame {μ : Nat} {σ x : State} (p : ℕ) (m : Sys2Proof.RxFrame)  (hμ : Nat.land 281265347830578857568452812277562728072115461796884027146886131157682473503066688474572028917136198708349156632370677650604216732572890294869259658897102511013888 μ = 281265347830578857568452812277562728072115461796884027146886131157682473503066688474572028917136198708349156632370677650604216732572890294869259658897102511013888) (hw : Within μ σ x) :
    WithinOut μ σ (otherFrame p m x) := by
  unfold otherFrame
  repeat' first
    | with_reducible apply WithinOut.next
    | with_reducible apply WithinOut.ite
    | with_reducible assumption
    | with_reducible apply Within.refl
    | with_reducible apply Eq.refl
    | ((with_reducible apply fun k => sub_trans k hμ); exact rfl)
    | ((with_reducible apply sub_set hμ); exact rfl)
    | intro _
    | with_reducible apply Within.ite
    | with_reducible apply within_heardFrame
    | with_reducible apply within_count
    | with_reducible apply Within.foldl
    | (extract_lets +onlyGivenNames a; first | (refine Within.cutAny (μ := μ) (σ := σ) (a := a) ?_ ?_; all_goals (first | (intro ha; clear_value a) | (unfold a; clear a))) | skip)
    | split

theorem within_execStat {μ : Nat} {σ x : State} (p : ℕ) (m : Sys2Proof.RxFrame)  (hμ : Nat.land 1327810642730766299112352770146370201849750397697762721299268235421100604798750811423802325836509206133163753040689421729190927743757737950390373206070466422523904 μ = 1327810642730766299112352770146370201849750397697762721299268235421100604798750811423802325836509206133163753040689421729190927743757737950390373206070466422523904) (hw : Within μ σ x) :
    WithinOut μ σ (execStat p m x) := by
  unfold execStat
  repeat' first
    | with_reducible apply WithinOut.next
    | with_reducible apply WithinOut.ite
    | with_reducible assumption
    | with_reducible apply Within.refl
    | with_reducible apply Eq.refl
    | ((with_reducible apply fun k => sub_trans k hμ); exact rfl)
    | ((with_reducible apply sub_set hμ); exact rfl)
    | intro _
    | with_reducible apply Within.ite
    | with_reducible apply within_takeStat
    | with_reducible apply within_heardFrame
    | with_reducible apply within_otherFrame
    | with_reducible apply Within.foldl
    | (extract_lets +onlyGivenNames a; first | (refine Within.cutAny (μ := μ) (σ := σ) (a := a) ?_ ?_; all_goals (first | (intro ha; clear_value a) | (unfold a; clear a))) | skip)
    | split

theorem within_execViewWrite {μ : Nat} {σ x : State} (fn : ℕ) (c : ℕ) (isN : Bool) (v : W32)  (hμ : Nat.land 1243373631511159799618075390317669065277336343506000064763716334873118423642959642160551491324890991277548041383918833637939326396249249226170720407043745863976960 μ = 1243373631511159799618075390317669065277336343506000064763716334873118423642959642160551491324890991277548041383918833637939326396249249226170720407043745863976960) (hw : Within μ σ x) :
    WithinOut μ σ (execViewWrite fn c isN v x) := by
  unfold execViewWrite
  repeat' first
    | with_reducible apply WithinOut.next
    | with_reducible apply WithinOut.ite
    | with_reducible assumption
    | with_reducible apply Within.refl
    | with_reducible apply Eq.refl
    | ((with_reducible apply fun k => sub_trans k hμ); exact rfl)
    | ((with_reducible apply sub_set hμ); exact rfl)
    | intro _
    | with_reducible apply Within.ite
    | with_reducible apply within_hostWrite
    | with_reducible apply within_viewEffect
    | with_reducible apply Within.foldl
    | (extract_lets +onlyGivenNames a; first | (refine Within.cutAny (μ := μ) (σ := σ) (a := a) ?_ ?_; all_goals (first | (intro ha; clear_value a) | (unfold a; clear a))) | skip)
    | split

theorem within_execFltClr {μ : Nat} {σ x : State} (fn : ℕ) (v : W32)  (hμ : Nat.land 1271491842727054777010641255990706451895271950495387043720596057201942408522156441350045495613040309134735047075378339232455294670693037337665463131634971919534080 μ = 1271491842727054777010641255990706451895271950495387043720596057201942408522156441350045495613040309134735047075378339232455294670693037337665463131634971919534080) (hw : Within μ σ x) :
    WithinOut μ σ (execFltClr fn v x) := by
  unfold execFltClr
  repeat' first
    | with_reducible apply WithinOut.next
    | with_reducible apply WithinOut.ite
    | with_reducible assumption
    | with_reducible apply Within.refl
    | with_reducible apply Eq.refl
    | ((with_reducible apply fun k => sub_trans k hμ); exact rfl)
    | ((with_reducible apply sub_set hμ); exact rfl)
    | intro _
    | with_reducible apply Within.ite
    | with_reducible apply within_hostWrite
    | with_reducible apply within_faultsToUnproven
    | with_reducible apply Within.foldl
    | (extract_lets +onlyGivenNames a; first | (refine Within.cutAny (μ := μ) (σ := σ) (a := a) ?_ ?_; all_goals (first | (intro ha; clear_value a) | (unfold a; clear a))) | skip)
    | split

/-! ## Tx -/

theorem within_execPauseExpire {μ : Nat} {σ x : State} (p : ℕ) (cls : ℕ)  (hμ : Nat.land 281264489730871341242238439539962842897963303117471509233709956849750075310168763767565513597181116026529784470331753737797707290855013471824501359791927627612160 μ = 281264489730871341242238439539962842897963303117471509233709956849750075310168763767565513597181116026529784470331753737797707290855013471824501359791927627612160) (hw : Within μ σ x) :
    WithinOut μ σ (execPauseExpire p cls x) := by
  unfold execPauseExpire
  repeat' first
    | with_reducible apply WithinOut.next
    | with_reducible apply WithinOut.ite
    | with_reducible assumption
    | with_reducible apply Within.refl
    | with_reducible apply Eq.refl
    | ((with_reducible apply fun k => sub_trans k hμ); exact rfl)
    | ((with_reducible apply sub_set hμ); exact rfl)
    | intro _
    | with_reducible apply Within.ite
    | with_reducible apply within_advance
    | with_reducible apply within_showPaused
    | with_reducible apply within_setPort
    | with_reducible apply Within.foldl
    | (extract_lets +onlyGivenNames a; first | (refine Within.cutAny (μ := μ) (σ := σ) (a := a) ?_ ?_; all_goals (first | (intro ha; clear_value a) | (unfold a; clear a))) | skip)
    | split

theorem within_execLinkChange {μ : Nat} {σ x : State} (p : ℕ) (pcsUp : Bool) (lpiRx : Bool)  (hμ : Nat.land 59765786528804604504846801094402494523699862402460134807364373183601737147557918296785519551553706037451713849013156352080674263365902490219900880001068599101440 μ = 59765786528804604504846801094402494523699862402460134807364373183601737147557918296785519551553706037451713849013156352080674263365902490219900880001068599101440) (hw : Within μ σ x) :
    WithinOut μ σ (execLinkChange p pcsUp lpiRx x) := by
  unfold execLinkChange
  repeat' first
    | with_reducible apply WithinOut.next
    | with_reducible apply WithinOut.ite
    | with_reducible assumption
    | with_reducible apply Within.refl
    | with_reducible apply Eq.refl
    | ((with_reducible apply fun k => sub_trans k hμ); exact rfl)
    | ((with_reducible apply sub_set hμ); exact rfl)
    | intro _
    | with_reducible apply Within.ite
    | with_reducible apply within_settleLink
    | with_reducible apply within_setPort
    | with_reducible apply within_put
    | with_reducible apply Within.foldl
    | (extract_lets +onlyGivenNames a; first | (refine Within.cutAny (μ := μ) (σ := σ) (a := a) ?_ ?_; all_goals (first | (intro ha; clear_value a) | (unfold a; clear a))) | skip)
    | split

theorem within_execSwap {μ : Nat} {σ x : State} (fn : ℕ) (p : ℕ) (v : W32)  (hμ : Nat.land 116002208960594559289978532440477267759571076381234092721123817841249706905951516853630177199820891095826040098994172581603597519097113191560379540300196084729856 μ = 116002208960594559289978532440477267759571076381234092721123817841249706905951516853630177199820891095826040098994172581603597519097113191560379540300196084729856) (hw : Within μ σ x) :
    WithinOut μ σ (execSwap fn p v x) := by
  unfold execSwap
  repeat' first
    | with_reducible apply WithinOut.next
    | with_reducible apply WithinOut.ite
    | with_reducible assumption
    | with_reducible apply Within.refl
    | with_reducible apply Eq.refl
    | ((with_reducible apply fun k => sub_trans k hμ); exact rfl)
    | ((with_reducible apply sub_set hμ); exact rfl)
    | intro _
    | with_reducible apply Within.ite
    | with_reducible apply within_hostWrite
    | with_reducible apply within_gateCtrlWrite
    | with_reducible apply Within.foldl
    | (extract_lets +onlyGivenNames a; first | (refine Within.cutAny (μ := μ) (σ := σ) (a := a) ?_ ?_; all_goals (first | (intro ha; clear_value a) | (unfold a; clear a))) | skip)
    | split

theorem within_execGo {μ : Nat} {σ x : State} (fn : ℕ) (p : ℕ) (v : W32)  (hμ : Nat.land 172238631392384514075110263786552040995442290360008050634883262498897676664345115232618185776119526810200051517831047296064124609584609857365372746377640617723904 μ = 172238631392384514075110263786552040995442290360008050634883262498897676664345115232618185776119526810200051517831047296064124609584609857365372746377640617723904) (hw : Within μ σ x) :
    WithinOut μ σ (execGo fn p v x) := by
  unfold execGo
  repeat' first
    | with_reducible apply WithinOut.next
    | with_reducible apply WithinOut.ite
    | with_reducible assumption
    | with_reducible apply Within.refl
    | with_reducible apply Eq.refl
    | ((with_reducible apply fun k => sub_trans k hμ); exact rfl)
    | ((with_reducible apply sub_set hμ); exact rfl)
    | intro _
    | with_reducible apply Within.ite
    | with_reducible apply within_hostWrite
    | with_reducible apply within_rdmCtrlWrite
    | with_reducible apply Within.foldl
    | (extract_lets +onlyGivenNames a; first | (refine Within.cutAny (μ := μ) (σ := σ) (a := a) ?_ ?_; all_goals (first | (intro ha; clear_value a) | (unfold a; clear a))) | skip)
    | split

theorem within_execRdmListenEnd {μ : Nat} {σ x : State} (p : ℕ) (brk : Bool) (resp : List Sys2Proof.Byte) (err : Bool)  (hμ : Nat.land 284793853827885990961953509288290564185791951541157686127314885375703842699333083685363024572436186349607487068124734354797621199575192295518618176674128967256064 μ = 284793853827885990961953509288290564185791951541157686127314885375703842699333083685363024572436186349607487068124734354797621199575192295518618176674128967256064) (hw : Within μ σ x) :
    WithinOut μ σ (execRdmListenEnd p brk resp err x) := by
  unfold execRdmListenEnd
  repeat' first
    | with_reducible apply WithinOut.next
    | with_reducible apply WithinOut.ite
    | with_reducible assumption
    | with_reducible apply Within.refl
    | with_reducible apply Eq.refl
    | ((with_reducible apply fun k => sub_trans k hμ); exact rfl)
    | ((with_reducible apply sub_set hμ); exact rfl)
    | intro _
    | with_reducible apply Within.ite
    | with_reducible apply within_rdmByte
    | with_reducible apply within_put
    | with_reducible apply within_bump
    | with_reducible apply within_raise
    | with_reducible apply within_setDmx
    | with_reducible apply within_advance
    | with_reducible apply Within.forEach
    | with_reducible apply Within.foldl
    | (extract_lets +onlyGivenNames a; first | (refine Within.cutAny (μ := μ) (σ := σ) (a := a) ?_ ?_; all_goals (first | (intro ha; clear_value a) | (unfold a; clear a))) | skip)
    | split

theorem within_execPauseRecEnd {μ : Nat} {σ x : State} (p : ℕ) (cls : ℕ)  (hμ : Nat.land 281264489730871341242238439539962842897963303117471509233709956849750075310168763767565513597181116026529784470331753737797707290855013471824501359791927627612160 μ = 281264489730871341242238439539962842897963303117471509233709956849750075310168763767565513597181116026529784470331753737797707290855013471824501359791927627612160) (hw : Within μ σ x) :
    WithinOut μ σ (execPauseRecEnd p cls x) := by
  unfold execPauseRecEnd
  repeat' first
    | with_reducible apply WithinOut.next
    | with_reducible apply WithinOut.ite
    | with_reducible assumption
    | with_reducible apply Within.refl
    | with_reducible apply Eq.refl
    | ((with_reducible apply fun k => sub_trans k hμ); exact rfl)
    | ((with_reducible apply sub_set hμ); exact rfl)
    | intro _
    | with_reducible apply Within.ite
    | with_reducible apply within_advance
    | with_reducible apply within_showWd
    | with_reducible apply within_setPort
    | with_reducible apply Within.foldl
    | (extract_lets +onlyGivenNames a; first | (refine Within.cutAny (μ := μ) (σ := σ) (a := a) ?_ ?_; all_goals (first | (intro ha; clear_value a) | (unfold a; clear a))) | skip)
    | split

theorem within_execPauseWdTrip {μ : Nat} {σ x : State} (p : ℕ) (cls : ℕ)  (hμ : Nat.land 284793853827885990961953509288290564185791951541157686127314885375703842699333083685363024572436186349607486936425898878537533029996614074396077527383820172544000 μ = 284793853827885990961953509288290564185791951541157686127314885375703842699333083685363024572436186349607486936425898878537533029996614074396077527383820172544000) (hw : Within μ σ x) :
    WithinOut μ σ (execPauseWdTrip p cls x) := by
  unfold execPauseWdTrip
  repeat' first
    | with_reducible apply WithinOut.next
    | with_reducible apply WithinOut.ite
    | with_reducible assumption
    | with_reducible apply Within.refl
    | with_reducible apply Eq.refl
    | ((with_reducible apply fun k => sub_trans k hμ); exact rfl)
    | ((with_reducible apply sub_set hμ); exact rfl)
    | intro _
    | with_reducible apply Within.ite
    | with_reducible apply within_advance
    | with_reducible apply within_setPort
    | with_reducible apply within_portEvent
    | with_reducible apply within_count
    | with_reducible apply within_showWd
    | with_reducible apply within_showPaused
    | with_reducible apply Within.foldl
    | (extract_lets +onlyGivenNames a; first | (refine Within.cutAny (μ := μ) (σ := σ) (a := a) ?_ ?_; all_goals (first | (intro ha; clear_value a) | (unfold a; clear a))) | skip)
    | split

theorem within_execTxFrameEnd {μ : Nat} {σ x : State} (p : ℕ)  (hμ : Nat.land 284793853827885990961953509288290564185791951541157686127314885375703842699333083685363024572517066189608938855809899856896356326425656083056544426882046485350400 μ = 284793853827885990961953509288290564185791951541157686127314885375703842699333083685363024572517066189608938855809899856896356326425656083056544426882046485350400) (hw : Within μ σ x) :
    WithinOut μ σ (execTxFrameEnd p x) := by
  unfold execTxFrameEnd
  repeat' first
    | with_reducible apply WithinOut.next
    | with_reducible apply WithinOut.ite
    | with_reducible assumption
    | with_reducible apply Within.refl
    | with_reducible apply Eq.refl
    | ((with_reducible apply fun k => sub_trans k hμ); exact rfl)
    | ((with_reducible apply sub_set hμ); exact rfl)
    | intro _
    | with_reducible apply Within.ite
    | with_reducible apply within_advance
    | with_reducible apply within_countSent
    | with_reducible apply within_setPort
    | with_reducible apply within_tsqPush
    | with_reducible apply within_frameEnds
    | with_reducible apply within_settleDrop
    | with_reducible apply Within.foldl
    | (extract_lets +onlyGivenNames a; first | (refine Within.cutAny (μ := μ) (σ := σ) (a := a) ?_ ?_; all_goals (first | (intro ha; clear_value a) | (unfold a; clear a))) | skip)
    | split

theorem within_takePause {μ : Nat} {σ x : State} (p : ℕ) (a1 : Sys2Proof.Machine.PauseMsg)  (hμ : Nat.land 56236422431789954785131731346074773235871213978773957913759444657647969758393598378988008576298635714374011382919011189040103325693678746112606439760814548189184 μ = 56236422431789954785131731346074773235871213978773957913759444657647969758393598378988008576298635714374011382919011189040103325693678746112606439760814548189184) (hw : Within μ σ x) :
    Within μ σ (takePause p a1 x) := by
  unfold takePause
  repeat' first
    | with_reducible assumption
    | with_reducible apply Within.refl
    | with_reducible apply Eq.refl
    | ((with_reducible apply fun k => sub_trans k hμ); exact rfl)
    | ((with_reducible apply sub_set hμ); exact rfl)
    | intro _
    | with_reducible apply Within.ite
    | with_reducible apply within_pauseClass
    | with_reducible apply Within.forEach
    | with_reducible apply Within.foldl
    | (extract_lets +onlyGivenNames a; first | (refine Within.cutAny (μ := μ) (σ := σ) (a := a) ?_ ?_; all_goals (first | (intro ha; clear_value a) | (unfold a; clear a))) | skip)
    | split

theorem within_execPauseFrame {μ : Nat} {σ x : State} (p : ℕ) (m : Sys2Proof.RxFrame)  (hμ : Nat.land 281265347830578857568452812277562728072115461796884027146886131157682473503066688474572028917136198708349156632370677672904961931103513436404977931545464016994304 μ = 281265347830578857568452812277562728072115461796884027146886131157682473503066688474572028917136198708349156632370677672904961931103513436404977931545464016994304) (hw : Within μ σ x) :
    WithinOut μ σ (execPauseFrame p m x) := by
  unfold execPauseFrame
  repeat' first
    | with_reducible apply WithinOut.next
    | with_reducible apply WithinOut.ite
    | with_reducible assumption
    | with_reducible apply Within.refl
    | with_reducible apply Eq.refl
    | ((with_reducible apply fun k => sub_trans k hμ); exact rfl)
    | ((with_reducible apply sub_set hμ); exact rfl)
    | intro _
    | with_reducible apply Within.ite
    | with_reducible apply within_count
    | with_reducible apply within_showPaused
    | with_reducible apply within_heardFrame
    | with_reducible apply within_takePause
    | with_reducible apply within_otherFrame
    | with_reducible apply Within.foldl
    | (extract_lets +onlyGivenNames a; first | (refine Within.cutAny (μ := μ) (σ := σ) (a := a) ?_ ?_; all_goals (first | (intro ha; clear_value a) | (unfold a; clear a))) | skip)
    | split

theorem within_execGateCycleStart {μ : Nat} {σ x : State} (p : ℕ)  (hμ : Nat.land 281264489730871341242238439539962842897963303117471509233709956849750075310168763767565513597181116026529784470331771556093120916822903558863401205832770905964544 μ = 281264489730871341242238439539962842897963303117471509233709956849750075310168763767565513597181116026529784470331771556093120916822903558863401205832770905964544) (hw : Within μ σ x) :
    WithinOut μ σ (execGateCycleStart p x) := by
  unfold execGateCycleStart
  repeat' first
    | with_reducible apply WithinOut.next
    | with_reducible apply WithinOut.ite
    | with_reducible assumption
    | with_reducible apply Within.refl
    | with_reducible apply Eq.refl
    | ((with_reducible apply fun k => sub_trans k hμ); exact rfl)
    | ((with_reducible apply sub_set hμ); exact rfl)
    | intro _
    | with_reducible apply Within.ite
    | with_reducible apply within_advance
    | with_reducible apply within_setPort
    | with_reducible apply within_swapBanks
    | with_reducible apply Within.foldl
    | (extract_lets +onlyGivenNames a; first | (refine Within.cutAny (μ := μ) (σ := σ) (a := a) ?_ ?_; all_goals (first | (intro ha; clear_value a) | (unfold a; clear a))) | skip)
    | split

theorem within_execLpiEnter {μ : Nat} {σ x : State} (p : ℕ)  (hμ : Nat.land 225028925398788902783321080931487954836244247818110069233126686500034503744673090095584020340837562993975145249451666483864858605409834690292371491784649468805120 μ = 225028925398788902783321080931487954836244247818110069233126686500034503744673090095584020340837562993975145249451666483864858605409834690292371491784649468805120) (hw : Within μ σ x) :
    WithinOut μ σ (execLpiEnter p x) := by
  unfold execLpiEnter
  repeat' first
    | with_reducible apply WithinOut.next
    | with_reducible apply WithinOut.ite
    | with_reducible assumption
    | with_reducible apply Within.refl
    | with_reducible apply Eq.refl
    | ((with_reducible apply fun k => sub_trans k hμ); exact rfl)
    | ((with_reducible apply sub_set hμ); exact rfl)
    | intro _
    | with_reducible apply Within.ite
    | with_reducible apply within_advance
    | with_reducible apply within_put
    | with_reducible apply within_count
    | with_reducible apply Within.foldl
    | (extract_lets +onlyGivenNames a; first | (refine Within.cutAny (μ := μ) (σ := σ) (a := a) ?_ ?_; all_goals (first | (intro ha; clear_value a) | (unfold a; clear a))) | skip)
    | split

theorem within_execBackoffExpire {μ : Nat} {σ x : State} (p : ℕ)  (hμ : Nat.land 281264489730871341242238439539962842897963303117471509233709956849750075310168763767565513597181116026529784470331753715496962092324390330288783087143566121631744 μ = 281264489730871341242238439539962842897963303117471509233709956849750075310168763767565513597181116026529784470331753715496962092324390330288783087143566121631744) (hw : Within μ σ x) :
    WithinOut μ σ (execBackoffExpire p x) := by
  unfold execBackoffExpire
  repeat' first
    | with_reducible apply WithinOut.next
    | with_reducible apply WithinOut.ite
    | with_reducible assumption
    | with_reducible apply Within.refl
    | with_reducible apply Eq.refl
    | ((with_reducible apply fun k => sub_trans k hμ); exact rfl)
    | ((with_reducible apply sub_set hμ); exact rfl)
    | intro _
    | with_reducible apply Within.ite
    | with_reducible apply within_setPort
    | with_reducible apply within_advance
    | with_reducible apply Within.foldl
    | (extract_lets +onlyGivenNames a; first | (refine Within.cutAny (μ := μ) (σ := σ) (a := a) ?_ ?_; all_goals (first | (intro ha; clear_value a) | (unfold a; clear a))) | skip)
    | split

theorem within_execEeeOkWrite {μ : Nat} {σ x : State} (fn : ℕ) (p : ℕ) (v : W32)  (hμ : Nat.land 172238631392384514075110263786552040995442290360008050634883262498897676664345115232618185776119526810200051481913183257726561278586459682351465709148695995369472 μ = 172238631392384514075110263786552040995442290360008050634883262498897676664345115232618185776119526810200051481913183257726561278586459682351465709148695995369472) (hw : Within μ σ x) :
    WithinOut μ σ (execEeeOkWrite fn p v x) := by
  unfold execEeeOkWrite
  repeat' first
    | with_reducible apply WithinOut.next
    | with_reducible apply WithinOut.ite
    | with_reducible assumption
    | with_reducible apply Within.refl
    | with_reducible apply Eq.refl
    | ((with_reducible apply fun k => sub_trans k hμ); exact rfl)
    | ((with_reducible apply sub_set hμ); exact rfl)
    | intro _
    | with_reducible apply Within.ite
    | with_reducible apply within_hostWrite
    | with_reducible apply within_eeeCfgWrite
    | with_reducible apply Within.foldl
    | (extract_lets +onlyGivenNames a; first | (refine Within.cutAny (μ := μ) (σ := σ) (a := a) ?_ ?_; all_goals (first | (intro ha; clear_value a) | (unfold a; clear a))) | skip)
    | split

theorem within_execTxDescriptorFrame {μ : Nat} {σ x : State} (r : ℕ) (ds : List TxDesc) (data : List Byte) (poisoned : Bool)  (hμ : Nat.land 59765786528804604504846801094402494523699862402460134807364373183601737147557918296785519551553706037451713849013156285178438667774033065612746062055984081161216 μ = 59765786528804604504846801094402494523699862402460134807364373183601737147557918296785519551553706037451713849013156285178438667774033065612746062055984081161216) (hw : Within μ σ x) :
    WithinOut μ σ (execTxDescriptorFrame r ds data poisoned x) := by
  unfold execTxDescriptorFrame
  repeat' first
    | with_reducible apply WithinOut.next
    | with_reducible apply WithinOut.ite
    | with_reducible assumption
    | with_reducible apply Within.refl
    | with_reducible apply Eq.refl
    | ((with_reducible apply fun k => sub_trans k hμ); exact rfl)
    | ((with_reducible apply sub_set hμ); exact rfl)
    | intro _
    | with_reducible apply Within.ite
    | with_reducible apply within_advanceHead
    | with_reducible apply within_frameEnds
    | with_reducible apply within_poisonRing
    | with_reducible apply within_enqueue
    | with_reducible apply Within.foldl
    | (extract_lets +onlyGivenNames a; first | (refine Within.cutAny (μ := μ) (σ := σ) (a := a) ?_ ?_; all_goals (first | (intro ha; clear_value a) | (unfold a; clear a))) | skip)
    | split

theorem within_execT1sCollision {μ : Nat} {σ x : State} (p : ℕ) (lateColl : Bool)  (hμ : Nat.land 59765813344420464390041000242452490935392117361191775992151128630724624591085978443879473155302302371258569229082718664699863986954613428836751087001905823500288 μ = 59765813344420464390041000242452490935392117361191775992151128630724624591085978443879473155302302371258569229082718664699863986954613428836751087001905823500288) (hw : Within μ σ x) :
    WithinOut μ σ (execT1sCollision p lateColl x) := by
  unfold execT1sCollision
  repeat' first
    | with_reducible apply WithinOut.next
    | with_reducible apply WithinOut.ite
    | with_reducible assumption
    | with_reducible apply Within.refl
    | with_reducible apply Eq.refl
    | ((with_reducible apply fun k => sub_trans k hμ); exact rfl)
    | ((with_reducible apply sub_set hμ); exact rfl)
    | intro _
    | with_reducible apply Within.ite
    | with_reducible apply within_bump
    | with_reducible apply within_setPort
    | with_reducible apply within_put
    | with_reducible apply within_raise
    | with_reducible apply within_frameEnds
    | with_reducible apply within_draw
    | with_reducible apply within_settleDrop
    | with_reducible apply Within.foldl
    | (extract_lets +onlyGivenNames a; first | (refine Within.cutAny (μ := μ) (σ := σ) (a := a) ?_ ?_; all_goals (first | (intro ha; clear_value a) | (unfold a; clear a))) | skip)
    | split

theorem within_execPortDisable {μ : Nat} {σ x : State} (fn : ℕ) (p : ℕ) (v : W32)  (hμ : Nat.land 172238631392384514075110263786552040995442290360008050634883262498897676664345115232618185776119526810200051481920490634896337751810067149992702272437851810449408 μ = 172238631392384514075110263786552040995442290360008050634883262498897676664345115232618185776119526810200051481920490634896337751810067149992702272437851810449408) (hw : Within μ σ x) :
    WithinOut μ σ (execPortDisable fn p v x) := by
  unfold execPortDisable
  repeat' first
    | with_reducible apply WithinOut.next
    | with_reducible apply WithinOut.ite
    | with_reducible assumption
    | with_reducible apply Within.refl
    | with_reducible apply Eq.refl
    | ((with_reducible apply fun k => sub_trans k hμ); exact rfl)
    | ((with_reducible apply sub_set hμ); exact rfl)
    | intro _
    | with_reducible apply Within.ite
    | with_reducible apply within_hostWrite
    | with_reducible apply within_macCtrlWrite
    | with_reducible apply within_t1sCtrlWrite
    | with_reducible apply Within.foldl
    | (extract_lets +onlyGivenNames a; first | (refine Within.cutAny (μ := μ) (σ := σ) (a := a) ?_ ?_; all_goals (first | (intro ha; clear_value a) | (unfold a; clear a))) | skip)
    | split

theorem within_execPlcaBeaconChange {μ : Nat} {σ x : State} (p : ℕ) (active : Bool)  (hμ : Nat.land 59765786528804604504846801094402494523699862402460134807364373183601737147557918296785519551553706037451713849019002291727762279446847804943611194134607811332096 μ = 59765786528804604504846801094402494523699862402460134807364373183601737147557918296785519551553706037451713849019002291727762279446847804943611194134607811332096) (hw : Within μ σ x) :
    WithinOut μ σ (execPlcaBeaconChange p active x) := by
  unfold execPlcaBeaconChange
  repeat' first
    | with_reducible apply WithinOut.next
    | with_reducible apply WithinOut.ite
    | with_reducible assumption
    | with_reducible apply Within.refl
    | with_reducible apply Eq.refl
    | ((with_reducible apply fun k => sub_trans k hμ); exact rfl)
    | ((with_reducible apply sub_set hμ); exact rfl)
    | intro _
    | with_reducible apply Within.ite
    | with_reducible apply within_showPlca
    | with_reducible apply Within.foldl
    | (extract_lets +onlyGivenNames a; first | (refine Within.cutAny (μ := μ) (σ := σ) (a := a) ?_ ?_; all_goals (first | (intro ha; clear_value a) | (unfold a; clear a))) | skip)
    | split

theorem within_execFrameStart {μ : Nat} {σ x : State} (p : ℕ)  (hμ : Nat.land 59765786528804604504846801094402494523699862402460134807364373183601737147557918296785519551553706037451713849013156329779929064835279348684182607352707093121024 μ = 59765786528804604504846801094402494523699862402460134807364373183601737147557918296785519551553706037451713849013156329779929064835279348684182607352707093121024) (hw : Within μ σ x) :
    WithinOut μ σ (execFrameStart p x) := by
  unfold execFrameStart
  repeat' first
    | with_reducible apply WithinOut.next
    | with_reducible apply WithinOut.ite
    | with_reducible assumption
    | with_reducible apply Within.refl
    | with_reducible apply Eq.refl
    | ((with_reducible apply fun k => sub_trans k hμ); exact rfl)
    | ((with_reducible apply sub_set hμ); exact rfl)
    | intro _
    | with_reducible apply Within.ite
    | with_reducible apply within_servePort
    | with_reducible apply Within.foldl
    | (extract_lets +onlyGivenNames a; first | (refine Within.cutAny (μ := μ) (σ := σ) (a := a) ?_ ?_; all_goals (first | (intro ha; clear_value a) | (unfold a; clear a))) | skip)
    | split

theorem within_execLpiWake {μ : Nat} {σ x : State} (p : ℕ)  (hμ : Nat.land 281264489730871341242238439539962842897963303117471509233709956849750075310168763767565513597181116026529784470331753737797707290855013471824501359791927627612160 μ = 281264489730871341242238439539962842897963303117471509233709956849750075310168763767565513597181116026529784470331753737797707290855013471824501359791927627612160) (hw : Within μ σ x) :
    WithinOut μ σ (execLpiWake p x) := by
  unfold execLpiWake
  repeat' first
    | with_reducible apply WithinOut.next
    | with_reducible apply WithinOut.ite
    | with_reducible assumption
    | with_reducible apply Within.refl
    | with_reducible apply Eq.refl
    | ((with_reducible apply fun k => sub_trans k hμ); exact rfl)
    | ((with_reducible apply sub_set hμ); exact rfl)
    | intro _
    | with_reducible apply Within.ite
    | with_reducible apply within_advance
    | with_reducible apply within_leaveLpi
    | with_reducible apply Within.foldl
    | (extract_lets +onlyGivenNames a; first | (refine Within.cutAny (μ := μ) (σ := σ) (a := a) ?_ ?_; all_goals (first | (intro ha; clear_value a) | (unfold a; clear a))) | skip)
    | split

/-! ## Rx -/

theorem within_takeSacn {μ : Nat} {σ x : State} (u : ℕ) (at_ : Sys2Proof.W64) (m : Sys2Proof.SacnPkt)  (hμ : Nat.land 1299610053942949754403207121663743838513207557484774022677475779530766393401353240361682850832671950821317019793493218364352649887115970346114917315360812041521152 μ = 1299610053942949754403207121663743838513207557484774022677475779530766393401353240361682850832671950821317019793493218364352649887115970346114917315360812041521152) (hw : Within μ σ x) :
    Within μ σ (takeSacn u at_ m x) := by
  unfold takeSacn
  repeat' first
    | with_reducible assumption
    | with_reducible apply Within.refl
    | with_reducible apply Eq.refl
    | ((with_reducible apply fun k => sub_trans k hμ); exact rfl)
    | ((with_reducible apply sub_set hμ); exact rfl)
    | intro _
    | with_reducible apply Within.ite
    | with_reducible apply within_raise0
    | with_reducible apply within_remerge
    | with_reducible apply within_bump
    | with_reducible apply Within.foldl
    | (extract_lets +onlyGivenNames a; first | (refine Within.cutAny (μ := μ) (σ := σ) (a := a) ?_ ?_; all_goals (first | (intro ha; clear_value a) | (unfold a; clear a))) | skip)
    | split

theorem within_execSacnPacketRx {μ : Nat} {σ x : State} (p : ℕ) (m : Sys2Proof.RxFrame) (v : Sys2Proof.SacnPkt)  (hμ : Nat.land 1299692431514871321719786904473332815231814790708375742342388513092276619919554012234308321548359888275976747349229916134649095350971966945840668203700305422206976 μ = 1299692431514871321719786904473332815231814790708375742342388513092276619919554012234308321548359888275976747349229916134649095350971966945840668203700305422206976) (hw : Within μ σ x) :
    WithinOut μ σ (execSacnPacketRx p m v x) := by
  unfold execSacnPacketRx
  repeat' first
    | with_reducible apply WithinOut.next
    | with_reducible apply WithinOut.ite
    | with_reducible assumption
    | with_reducible apply Within.refl
    | with_reducible apply Eq.refl
    | ((with_reducible apply fun k => sub_trans k hμ); exact rfl)
    | ((with_reducible apply sub_set hμ); exact rfl)
    | intro _
    | with_reducible apply Within.ite
    | with_reducible apply within_otherFrame
    | with_reducible apply within_heardFrame
    | with_reducible apply within_takeSacn
    | with_reducible apply Within.forEach
    | with_reducible apply Within.foldl
    | (extract_lets +onlyGivenNames a; first | (refine Within.cutAny (μ := μ) (σ := σ) (a := a) ?_ ?_; all_goals (first | (intro ha; clear_value a) | (unfold a; clear a))) | skip)
    | split

theorem within_noteOvf {μ : Nat} {σ x : State} (p : ℕ)  (hμ : Nat.land 3529364097014649719715069748327721287828648423686176893604928525953767389164319917797510975255070323077702466094145140739825739141600602571576167591892544931840 μ = 3529364097014649719715069748327721287828648423686176893604928525953767389164319917797510975255070323077702466094145140739825739141600602571576167591892544931840) (hw : Within μ σ x) :
    Within μ σ (noteOvf p x) := by
  unfold noteOvf
  repeat' first
    | with_reducible assumption
    | with_reducible apply Within.refl
    | with_reducible apply Eq.refl
    | ((with_reducible apply fun k => sub_trans k hμ); exact rfl)
    | ((with_reducible apply sub_set hμ); exact rfl)
    | intro _
    | with_reducible apply Within.ite
    | with_reducible apply within_portEvent
    | with_reducible apply within_count
    | with_reducible apply Within.foldl
    | (extract_lets +onlyGivenNames a; first | (refine Within.cutAny (μ := μ) (σ := σ) (a := a) ?_ ?_; all_goals (first | (intro ha; clear_value a) | (unfold a; clear a))) | skip)
    | split

theorem within_takeAnc {μ : Nat} {σ x : State} (leg : ℕ) (n : ℕ) (at_ : Sys2Proof.W64) (m : Sys2Proof.AncPkt)  (hμ : Nat.land 1299610053942949754403207121663743838513207557484774022677475779530766393401353240361682850832671950821317019793680290573931005460646042004702601541876771407022080 μ = 1299610053942949754403207121663743838513207557484774022677475779530766393401353240361682850832671950821317019793680290573931005460646042004702601541876771407022080) (hw : Within μ σ x) :
    Within μ σ (takeAnc leg n at_ m x) := by
  unfold takeAnc
  repeat' first
    | with_reducible assumption
    | with_reducible apply Within.refl
    | with_reducible apply Eq.refl
    | ((with_reducible apply fun k => sub_trans k hμ); exact rfl)
    | ((with_reducible apply sub_set hμ); exact rfl)
    | intro _
    | with_reducible apply Within.ite
    | with_reducible apply within_setAnc
    | with_reducible apply within_timecode
    | with_reducible apply Within.foldl
    | (extract_lets +onlyGivenNames a; first | (refine Within.cutAny (μ := μ) (σ := σ) (a := a) ?_ ?_; all_goals (first | (intro ha; clear_value a) | (unfold a; clear a))) | skip)
    | split

theorem within_execAncPacketRx {μ : Nat} {σ x : State} (p : ℕ) (m : Sys2Proof.RxFrame) (v : Sys2Proof.AncPkt) (ovf : Bool)  (hμ : Nat.land 1299692431514871321719786904473332815231814790708375742342388513092276619919554012234308321548359888275976747349416988388828941321563284887499788975512987799668736 μ = 1299692431514871321719786904473332815231814790708375742342388513092276619919554012234308321548359888275976747349416988388828941321563284887499788975512987799668736) (hw : Within μ σ x) :
    WithinOut μ σ (execAncPacketRx p m v ovf x) := by
  unfold execAncPacketRx
  repeat' first
    | with_reducible apply WithinOut.next
    | with_reducible apply WithinOut.ite
    | with_reducible assumption
    | with_reducible apply Within.refl
    | with_reducible apply Eq.refl
    | ((with_reducible apply fun k => sub_trans k hμ); exact rfl)
    | ((with_reducible apply sub_set hμ); exact rfl)
    | intro _
    | with_reducible apply Within.ite
    | with_reducible apply within_otherFrame
    | with_reducible apply within_heardFrame
    | with_reducible apply within_noteOvf
    | with_reducible apply within_takeAnc
    | with_reducible apply Within.foldl
    | (extract_lets +onlyGivenNames a; first | (refine Within.cutAny (μ := μ) (σ := σ) (a := a) ?_ ?_; all_goals (first | (intro ha; clear_value a) | (unfold a; clear a))) | skip)
    | split

theorem within_takeAudio {μ : Nat} {σ x : State} (leg : ℕ) (n : ℕ) (at_ : Sys2Proof.W64) (m : Sys2Proof.AudioPkt)  (hμ : Nat.land 1299610053942949754403207121663743838513207557484774022677475779530766393401353240361682850832671950821317019793493218364352649887115970346114917315360812041521152 μ = 1299610053942949754403207121663743838513207557484774022677475779530766393401353240361682850832671950821317019793493218364352649887115970346114917315360812041521152) (hw : Within μ σ x) :
    Within μ σ (takeAudio leg n at_ m x) := by
  unfold takeAudio
  repeat' first
    | with_reducible assumption
    | with_reducible apply Within.refl
    | with_reducible apply Eq.refl
    | ((with_reducible apply fun k => sub_trans k hμ); exact rfl)
    | ((with_reducible apply sub_set hμ); exact rfl)
    | intro _
    | with_reducible apply Within.ite
    | with_reducible apply within_audioSample
    | with_reducible apply within_setAud
    | with_reducible apply Within.forEach
    | with_reducible apply Within.foldl
    | (extract_lets +onlyGivenNames a; first | (refine Within.cutAny (μ := μ) (σ := σ) (a := a) ?_ ?_; all_goals (first | (intro ha; clear_value a) | (unfold a; clear a))) | skip)
    | split

theorem within_execAudioPacketRx {μ : Nat} {σ x : State} (p : ℕ) (m : Sys2Proof.RxFrame) (v : Sys2Proof.AudioPkt) (ovf : Bool)  (hμ : Nat.land 1299692431514871321719786904473332815231814790708375742342388513092276619919554012234308321548359888275976747349229916179250585748033213228912104748997028434167808 μ = 1299692431514871321719786904473332815231814790708375742342388513092276619919554012234308321548359888275976747349229916179250585748033213228912104748997028434167808) (hw : Within μ σ x) :
    WithinOut μ σ (execAudioPacketRx p m v ovf x) := by
  unfold execAudioPacketRx
  repeat' first
    | with_reducible apply WithinOut.next
    | with_reducible apply WithinOut.ite
    | with_reducible assumption
    | with_reducible apply Within.refl
    | with_reducible apply Eq.refl
    | ((with_reducible apply fun k => sub_trans k hμ); exact rfl)
    | ((with_reducible apply sub_set hμ); exact rfl)
    | intro _
    | with_reducible apply Within.ite
    | with_reducible apply within_otherFrame
    | with_reducible apply within_heardFrame
    | with_reducible apply within_noteOvf
    | with_reducible apply within_takeAudio
    | with_reducible apply Within.foldl
    | (extract_lets +onlyGivenNames a; first | (refine Within.cutAny (μ := μ) (σ := σ) (a := a) ?_ ?_; all_goals (first | (intro ha; clear_value a) | (unfold a; clear a))) | skip)
    | split

theorem within_execLegLoss {μ : Nat} {σ x : State} (kind : LegKind) (n : ℕ) (leg : ℕ)  (hμ : Nat.land 284793853827885990961953509288290564185791951541157686127314885375703842699333083685363024572436186349607486936800043230792008581464887966964291162470654385604608 μ = 284793853827885990961953509288290564185791951541157686127314885375703842699333083685363024572436186349607486936800043230792008581464887966964291162470654385604608) (hw : Within μ σ x) :
    WithinOut μ σ (execLegLoss kind n leg x) := by
  unfold execLegLoss
  repeat' first
    | with_reducible apply WithinOut.next
    | with_reducible apply WithinOut.ite
    | with_reducible assumption
    | with_reducible apply Within.refl
    | with_reducible apply Eq.refl
    | ((with_reducible apply fun k => sub_trans k hμ); exact rfl)
    | ((with_reducible apply sub_set hμ); exact rfl)
    | intro _
    | with_reducible apply Within.ite
    | with_reducible apply within_advance
    | with_reducible apply within_raise0
    | with_reducible apply within_showLegs
    | with_reducible apply within_setMerge
    | with_reducible apply Within.foldl
    | (extract_lets +onlyGivenNames a; first | (refine Within.cutAny (μ := μ) (σ := σ) (a := a) ?_ ?_; all_goals (first | (intro ha; clear_value a) | (unfold a; clear a))) | skip)
    | split

theorem within_execLtcWord {μ : Nat} {σ x : State} (at_ : Sys2Proof.W64) (tc : Sys2Proof.TcWord)  (hμ : Nat.land 1299692431514871321719786904473332815231814790708375742342388513092276619919554012234308321548359888275976747349416988344227450924502038604428352430216264787707904 μ = 1299692431514871321719786904473332815231814790708375742342388513092276619919554012234308321548359888275976747349416988344227450924502038604428352430216264787707904) (hw : Within μ σ x) :
    WithinOut μ σ (execLtcWord at_ tc x) := by
  unfold execLtcWord
  repeat' first
    | with_reducible apply WithinOut.next
    | with_reducible apply WithinOut.ite
    | with_reducible assumption
    | with_reducible apply Within.refl
    | with_reducible apply Eq.refl
    | ((with_reducible apply fun k => sub_trans k hμ); exact rfl)
    | ((with_reducible apply sub_set hμ); exact rfl)
    | intro _
    | with_reducible apply Within.ite
    | with_reducible apply within_timecode
    | with_reducible apply within_advance
    | with_reducible apply Within.foldl
    | (extract_lets +onlyGivenNames a; first | (refine Within.cutAny (μ := μ) (σ := σ) (a := a) ?_ ?_; all_goals (first | (intro ha; clear_value a) | (unfold a; clear a))) | skip)
    | split

theorem within_takeVideo {μ : Nat} {σ x : State} (leg : ℕ) (n : ℕ) (at_ : Sys2Proof.W64) (m : Sys2Proof.VideoPkt)  (hμ : Nat.land 1180972593964956697423695712905969204520664921668965777407533906581998948662346888321806817981867094138228588500023694804964172748863896666764392833790851747414016 μ = 1180972593964956697423695712905969204520664921668965777407533906581998948662346888321806817981867094138228588500023694804964172748863896666764392833790851747414016) (hw : Within μ σ x) :
    Within μ σ (takeVideo leg n at_ m x) := by
  unfold takeVideo
  repeat' first
    | with_reducible assumption
    | with_reducible apply Within.refl
    | with_reducible apply Eq.refl
    | ((with_reducible apply fun k => sub_trans k hμ); exact rfl)
    | ((with_reducible apply sub_set hμ); exact rfl)
    | intro _
    | with_reducible apply Within.ite
    | with_reducible apply within_count
    | with_reducible apply within_showLegs
    | with_reducible apply within_setVid
    | with_reducible apply within_writeRow
    | with_reducible apply Within.forEach
    | with_reducible apply Within.foldl
    | (extract_lets +onlyGivenNames a; first | (refine Within.cutAny (μ := μ) (σ := σ) (a := a) ?_ ?_; all_goals (first | (intro ha; clear_value a) | (unfold a; clear a))) | skip)
    | split

theorem within_execVideoPacketRx {μ : Nat} {σ x : State} (p : ℕ) (m : Sys2Proof.RxFrame) (v : Sys2Proof.VideoPkt) (ovf : Bool)  (hμ : Nat.land 1184583477534185398133776192726286017352948644636841156052875394361530544376814055405223284352855019234146646359815613780893189311612993904481243317968701283649536 μ = 1184583477534185398133776192726286017352948644636841156052875394361530544376814055405223284352855019234146646359815613780893189311612993904481243317968701283649536) (hw : Within μ σ x) :
    WithinOut μ σ (execVideoPacketRx p m v ovf x) := by
  unfold execVideoPacketRx
  repeat' first
    | with_reducible apply WithinOut.next
    | with_reducible apply WithinOut.ite
    | with_reducible assumption
    | with_reducible apply Within.refl
    | with_reducible apply Eq.refl
    | ((with_reducible apply fun k => sub_trans k hμ); exact rfl)
    | ((with_reducible apply sub_set hμ); exact rfl)
    | intro _
    | with_reducible apply Within.ite
    | with_reducible apply within_otherFrame
    | with_reducible apply within_heardFrame
    | with_reducible apply within_noteOvf
    | with_reducible apply within_takeVideo
    | with_reducible apply Within.foldl
    | (extract_lets +onlyGivenNames a; first | (refine Within.cutAny (μ := μ) (σ := σ) (a := a) ?_ ?_; all_goals (first | (intro ha; clear_value a) | (unfold a; clear a))) | skip)
    | split

theorem within_execSacnSourceTimeout {μ : Nat} {σ x : State} (u : ℕ) (cid : ℕ)  (hμ : Nat.land 1299692431514871321719786904473332815231814790708375742342388513092276619919554012234308321548359888275976747349229916134649095350971966945840668203700305422206976 μ = 1299692431514871321719786904473332815231814790708375742342388513092276619919554012234308321548359888275976747349229916134649095350971966945840668203700305422206976) (hw : Within μ σ x) :
    WithinOut μ σ (execSacnSourceTimeout u cid x) := by
  unfold execSacnSourceTimeout
  repeat' first
    | with_reducible apply WithinOut.next
    | with_reducible apply WithinOut.ite
    | with_reducible assumption
    | with_reducible apply Within.refl
    | with_reducible apply Eq.refl
    | ((with_reducible apply fun k => sub_trans k hμ); exact rfl)
    | ((with_reducible apply sub_set hμ); exact rfl)
    | intro _
    | with_reducible apply Within.ite
    | with_reducible apply within_advance
    | with_reducible apply within_raise0
    | with_reducible apply within_remerge
    | with_reducible apply Within.foldl
    | (extract_lets +onlyGivenNames a; first | (refine Within.cutAny (μ := μ) (σ := σ) (a := a) ?_ ?_; all_goals (first | (intro ha; clear_value a) | (unfold a; clear a))) | skip)
    | split

theorem within_deliverRing {μ : Nat} {σ x : State} (p : ℕ) (r : ℕ) (flow : ℕ) (m : Sys2Proof.RxFrame)  (hμ : Nat.land 4408085013127227648426952198660136031331391100836161170794175295852404360167280039563152213008332839921651774015971063540679061113329956872725539746225051421696 μ = 4408085013127227648426952198660136031331391100836161170794175295852404360167280039563152213008332839921651774015971063540679061113329956872725539746225051421696) (hw : Within μ σ x) :
    Within μ σ (deliverRing p r flow m x) := by
  unfold deliverRing
  repeat' first
    | with_reducible assumption
    | with_reducible apply Within.refl
    | with_reducible apply Eq.refl
    | ((with_reducible apply fun k => sub_trans k hμ); exact rfl)
    | ((with_reducible apply sub_set hμ); exact rfl)
    | intro _
    | with_reducible apply Within.ite
    | with_reducible apply within_rxDeliver
    | with_reducible apply within_rxService
    | with_reducible apply Within.foldl
    | (extract_lets +onlyGivenNames a; first | (refine Within.cutAny (μ := μ) (σ := σ) (a := a) ?_ ?_; all_goals (first | (intro ha; clear_value a) | (unfold a; clear a))) | skip)
    | split

theorem within_svcEtabWrite {μ : Nat} {σ x : State} (e : ℕ) (k : ℕ) (v : Sys2Proof.W32)  (hμ : Nat.land 1271491842727054777010641255990706451895271950495387043720596057201942412596228393841161019081414009782886336204970500101705103484234017036568832333574997975255040 μ = 1271491842727054777010641255990706451895271950495387043720596057201942412596228393841161019081414009782886336204970500101705103484234017036568832333574997975255040) (hw : Within μ σ x) :
    Within μ σ (svcEtabWrite e k v x) := by
  unfold svcEtabWrite
  repeat' first
    | with_reducible assumption
    | with_reducible apply Within.refl
    | with_reducible apply Eq.refl
    | ((with_reducible apply fun k => sub_trans k hμ); exact rfl)
    | ((with_reducible apply sub_set hμ); exact rfl)
    | intro _
    | with_reducible apply Within.ite
    | with_reducible apply within_etabWordWrite
    | with_reducible apply within_journal
    | with_reducible apply Within.foldl
    | (extract_lets +onlyGivenNames a; first | (refine Within.cutAny (μ := μ) (σ := σ) (a := a) ?_ ?_; all_goals (first | (intro ha; clear_value a) | (unfold a; clear a))) | skip)
    | split

theorem within_learnEntry {μ : Nat} {σ x : State} (a0 : Sys2Proof.Machine.DiscReply) (e : ℕ)  (hμ : Nat.land 1271491842727054777010641255990706451895271950495387043720596057201942412596228393841161019081414009782886336204970500101705103484234017036568832333574997975255040 μ = 1271491842727054777010641255990706451895271950495387043720596057201942412596228393841161019081414009782886336204970500101705103484234017036568832333574997975255040) (hw : Within μ σ x) :
    Within μ σ (learnEntry a0 e x) := by
  unfold learnEntry
  repeat' first
    | with_reducible assumption
    | with_reducible apply Within.refl
    | with_reducible apply Eq.refl
    | ((with_reducible apply fun k => sub_trans k hμ); exact rfl)
    | ((with_reducible apply sub_set hμ); exact rfl)
    | intro _
    | with_reducible apply Within.ite
    | with_reducible apply within_svcEtabWrite
    | with_reducible apply Within.forEach
    | with_reducible apply Within.foldl
    | (extract_lets +onlyGivenNames a; first | (refine Within.cutAny (μ := μ) (σ := σ) (a := a) ?_ ?_; all_goals (first | (intro ha; clear_value a) | (unfold a; clear a))) | skip)
    | split

theorem within_sendAssign {μ : Nat} {σ x : State} (p : ℕ) (a1 : Sys2Proof.Machine.DiscReply) (node : ℕ)  (hμ : Nat.land 59765786528804604504846801094402494523699862402460134807364373183601737147557918296785519551553706037451713849013156285178438667774033065612746062055984081160192 μ = 59765786528804604504846801094402494523699862402460134807364373183601737147557918296785519551553706037451713849013156285178438667774033065612746062055984081160192) (hw : Within μ σ x) :
    Within μ σ (sendAssign p a1 node x) := by
  unfold sendAssign
  repeat' first
    | with_reducible assumption
    | with_reducible apply Within.refl
    | with_reducible apply Eq.refl
    | ((with_reducible apply fun k => sub_trans k hμ); exact rfl)
    | ((with_reducible apply sub_set hμ); exact rfl)
    | intro _
    | with_reducible apply Within.ite
    | with_reducible apply within_enqueue
    | with_reducible apply Within.foldl
    | (extract_lets +onlyGivenNames a; first | (refine Within.cutAny (μ := μ) (σ := σ) (a := a) ?_ ?_; all_goals (first | (intro ha; clear_value a) | (unfold a; clear a))) | skip)
    | split

theorem within_discover {μ : Nat} {σ x : State} (p : ℕ) (a1 : Sys2Proof.Machine.DiscReply)  (hμ : Nat.land 1327728265158844731795772987336781225131143164474161001634355501859590382354621992220149027657712645497260347587889511290745206809927695782681438773335812523444224 μ = 1327728265158844731795772987336781225131143164474161001634355501859590382354621992220149027657712645497260347587889511290745206809927695782681438773335812523444224) (hw : Within μ σ x) :
    Within μ σ (discover p a1 x) := by
  unfold discover
  repeat' first
    | with_reducible assumption
    | with_reducible apply Within.refl
    | with_reducible apply Eq.refl
    | ((with_reducible apply fun k => sub_trans k hμ); exact rfl)
    | ((with_reducible apply sub_set hμ); exact rfl)
    | intro _
    | with_reducible apply Within.ite
    | with_reducible apply within_epEvent
    | with_reducible apply within_learnEntry
    | with_reducible apply within_sendAssign
    | with_reducible apply Within.forEach
    | with_reducible apply Within.foldl
    | (extract_lets +onlyGivenNames a; first | (refine Within.cutAny (μ := μ) (σ := σ) (a := a) ?_ ?_; all_goals (first | (intro ha; clear_value a) | (unfold a; clear a))) | skip)
    | split

theorem within_execServiceFrameRx {μ : Nat} {σ x : State} (p : ℕ) (m : Sys2Proof.RxFrame)  (hμ : Nat.land 1327810642730766299112352770146370201849750397697762721299268235421100608872822764092774498373400582951920075143626209105643142670844938665478626206972028916091904 μ = 1327810642730766299112352770146370201849750397697762721299268235421100608872822764092774498373400582951920075143626209105643142670844938665478626206972028916091904) (hw : Within μ σ x) :
    WithinOut μ σ (execServiceFrameRx p m x) := by
  unfold execServiceFrameRx
  repeat' first
    | with_reducible apply WithinOut.next
    | with_reducible apply WithinOut.ite
    | with_reducible assumption
    | with_reducible apply Within.refl
    | with_reducible apply Eq.refl
    | ((with_reducible apply fun k => sub_trans k hμ); exact rfl)
    | ((with_reducible apply sub_set hμ); exact rfl)
    | intro _
    | with_reducible apply Within.ite
    | with_reducible apply within_heardFrame
    | with_reducible apply within_deliverRing
    | with_reducible apply within_discover
    | with_reducible apply within_otherFrame
    | with_reducible apply Within.foldl
    | (extract_lets +onlyGivenNames a; first | (refine Within.cutAny (μ := μ) (σ := σ) (a := a) ?_ ?_; all_goals (first | (intro ha; clear_value a) | (unfold a; clear a))) | skip)
    | split

theorem within_execFlowFrameRx {μ : Nat} {σ x : State} (p : ℕ) (m : RxFrame)  (hμ : Nat.land 285672574743998568890665391738622978929294694218307670404504132145602479670336043807128665810189448866451436244347724779037641153437720287161508626889791173053440 μ = 285672574743998568890665391738622978929294694218307670404504132145602479670336043807128665810189448866451436244347724779037641153437720287161508626889791173053440) (hw : Within μ σ x) :
    WithinOut μ σ (execFlowFrameRx p m x) := by
  unfold execFlowFrameRx
  repeat' first
    | with_reducible apply WithinOut.next
    | with_reducible apply WithinOut.ite
    | with_reducible assumption
    | with_reducible apply Within.refl
    | with_reducible apply Eq.refl
    | ((with_reducible apply fun k => sub_trans k hμ); exact rfl)
    | ((with_reducible apply sub_set hμ); exact rfl)
    | intro _
    | with_reducible apply Within.ite
    | with_reducible apply within_deliverRing
    | with_reducible apply within_heardFrame
    | with_reducible apply within_otherFrame
    | with_reducible apply Within.foldl
    | (extract_lets +onlyGivenNames a; first | (refine Within.cutAny (μ := μ) (σ := σ) (a := a) ?_ ?_; all_goals (first | (intro ha; clear_value a) | (unfold a; clear a))) | skip)
    | split

theorem within_execTcLoss {μ : Nat} {σ x : State} (n : ℕ)  (hμ : Nat.land 1243456009083081366934655173127258041995943576729601784428629068434628650161160413855320312972061252561602735966497977155187347598808359858315745990455450239518720 μ = 1243456009083081366934655173127258041995943576729601784428629068434628650161160413855320312972061252561602735966497977155187347598808359858315745990455450239518720) (hw : Within μ σ x) :
    WithinOut μ σ (execTcLoss n x) := by
  unfold execTcLoss
  repeat' first
    | with_reducible apply WithinOut.next
    | with_reducible apply WithinOut.ite
    | with_reducible assumption
    | with_reducible apply Within.refl
    | with_reducible apply Eq.refl
    | ((with_reducible apply fun k => sub_trans k hμ); exact rfl)
    | ((with_reducible apply sub_set hμ); exact rfl)
    | intro _
    | with_reducible apply Within.ite
    | with_reducible apply within_put
    | with_reducible apply within_advance
    | with_reducible apply within_raise0
    | with_reducible apply within_sourceChange
    | with_reducible apply Within.foldl
    | (extract_lets +onlyGivenNames a; first | (refine Within.cutAny (μ := μ) (σ := σ) (a := a) ?_ ?_; all_goals (first | (intro ha; clear_value a) | (unfold a; clear a))) | skip)
    | split

theorem within_execBadFrameRx {μ : Nat} {σ x : State} (p : ℕ) (m : Sys2Proof.RxFrame)  (hμ : Nat.land 284793853827885990961953509288290564185791951541157686127314885375703842699333083685363024572436186349607486936425898856236787831465990932860359254735458666564608 μ = 284793853827885990961953509288290564185791951541157686127314885375703842699333083685363024572436186349607486936425898856236787831465990932860359254735458666564608) (hw : Within μ σ x) :
    WithinOut μ σ (execBadFrameRx p m x) := by
  unfold execBadFrameRx
  repeat' first
    | with_reducible apply WithinOut.next
    | with_reducible apply WithinOut.ite
    | with_reducible assumption
    | with_reducible apply Within.refl
    | with_reducible apply Eq.refl
    | ((with_reducible apply fun k => sub_trans k hμ); exact rfl)
    | ((with_reducible apply sub_set hμ); exact rfl)
    | intro _
    | with_reducible apply Within.ite
    | with_reducible apply within_advance
    | with_reducible apply within_count
    | with_reducible apply within_rxDeliver
    | with_reducible apply within_otherFrame
    | with_reducible apply Within.foldl
    | (extract_lets +onlyGivenNames a; first | (refine Within.cutAny (μ := μ) (σ := σ) (a := a) ?_ ?_; all_goals (first | (intro ha; clear_value a) | (unfold a; clear a))) | skip)
    | split

/-! ## Power -/

theorem within_execPowerOn {μ : Nat} {σ x : State}   (hμ : Nat.land 1799551627328263132593620244384494602291290778697776519520762907435079401706211234636503068290045471048118431027391874159694642289669506039158533993860293107646463 μ = 1799551627328263132593620244384494602291290778697776519520762907435079401706211234636503068290045471048118431027391874159694642289669506039158533993860293107646463) (hw : Within μ σ x) :
    WithinOut μ σ (execPowerOn x) := by
  unfold execPowerOn
  repeat' first
    | with_reducible apply WithinOut.next
    | with_reducible apply WithinOut.ite
    | with_reducible assumption
    | with_reducible apply Within.refl
    | with_reducible apply Eq.refl
    | ((with_reducible apply fun k => sub_trans k hμ); exact rfl)
    | ((with_reducible apply sub_set hμ); exact rfl)
    | exact (fun _ => rfl)
    | intro _
    | with_reducible apply Within.ite
    | with_reducible apply within_resetAll
    | with_reducible apply Within.foldl
    | (extract_lets +onlyGivenNames a; first | (refine Within.cutAny (μ := μ) (σ := σ) (a := a) ?_ ?_; all_goals (first | (intro ha; clear_value a) | (unfold a; clear a))) | skip)
    | split

theorem within_execSysRstN {μ : Nat} {σ x : State}   (hμ : Nat.land 1799551627328263132593620244384494602291290778697776519520762907435079401706211234636503068290045471048118431027391874159694642289669506039158533993860293107646463 μ = 1799551627328263132593620244384494602291290778697776519520762907435079401706211234636503068290045471048118431027391874159694642289669506039158533993860293107646463) (hw : Within μ σ x) :
    WithinOut μ σ (execSysRstN x) := by
  unfold execSysRstN
  repeat' first
    | with_reducible apply WithinOut.next
    | with_reducible apply WithinOut.ite
    | with_reducible assumption
    | with_reducible apply Within.refl
    | with_reducible apply Eq.refl
    | ((with_reducible apply fun k => sub_trans k hμ); exact rfl)
    | ((with_reducible apply sub_set hμ); exact rfl)
    | intro _
    | with_reducible apply Within.ite
    | with_reducible apply within_resetBlocks
    | with_reducible apply Within.foldl
    | (extract_lets +onlyGivenNames a; first | (refine Within.cutAny (μ := μ) (σ := σ) (a := a) ?_ ?_; all_goals (first | (intro ha; clear_value a) | (unfold a; clear a))) | skip)
    | split

theorem within_execSlowLoRead {μ : Nat} {σ x : State} (fn : ℕ)  (hμ : Nat.land 3529417728246369490103468044427714111213158341149459263178439420199542276220440389856541262424603685724392572692290293186893951602997002398200642185321850619904 μ = 3529417728246369490103468044427714111213158341149459263178439420199542276220440389856541262424603685724392572692290293186893951602997002398200642185321850619904) (hw : Within μ σ x) :
    WithinOut μ σ (execSlowLoRead fn x) := by
  unfold execSlowLoRead
  repeat' first
    | with_reducible apply WithinOut.next
    | with_reducible apply WithinOut.ite
    | with_reducible assumption
    | with_reducible apply Within.refl
    | with_reducible apply Eq.refl
    | ((with_reducible apply fun k => sub_trans k hμ); exact rfl)
    | ((with_reducible apply sub_set hμ); exact rfl)
    | intro _
    | with_reducible apply Within.ite
    | with_reducible apply within_hostRead
    | with_reducible apply within_slowLoRead
    | with_reducible apply Within.foldl
    | (extract_lets +onlyGivenNames a; first | (refine Within.cutAny (μ := μ) (σ := σ) (a := a) ?_ ?_; all_goals (first | (intro ha; clear_value a) | (unfold a; clear a))) | skip)
    | split

theorem within_alarmReached {μ : Nat} {σ x : State}   (hμ : Nat.land 228475053824174468860241995132626814231313504338782008548642707156545646422738713433749661892355888553939500495405238884920793258792263094801801407347713038632960 μ = 228475053824174468860241995132626814231313504338782008548642707156545646422738713433749661892355888553939500495405238884920793258792263094801801407347713038632960) (hw : Within μ σ x) :
    Within μ σ (alarmReached x) := by
  unfold alarmReached
  repeat' first
    | with_reducible assumption
    | with_reducible apply Within.refl
    | with_reducible apply Eq.refl
    | ((with_reducible apply fun k => sub_trans k hμ); exact rfl)
    | ((with_reducible apply sub_set hμ); exact rfl)
    | ((with_reducible apply Or.inl); with_reducible apply Eq.refl)
    | ((with_reducible apply Or.inr); (with_reducible apply sub_set hμ); exact rfl)
    | intro _
    | with_reducible apply Within.ite
    | with_reducible apply within_wake
    | with_reducible apply Within.foldl
    | (extract_lets +onlyGivenNames a; first | (refine Within.cutAny (μ := μ) (σ := σ) (a := a) ?_ ?_; all_goals (first | (intro ha; clear_value a) | (unfold a; clear a))) | skip)
    | split
    | (with_reducible apply Within.upd)

theorem within_execSlowAlarm {μ : Nat} {σ x : State}   (hμ : Nat.land 228475053824174468860241995132626814231313504338782008548642707156545646422738713433749661892355888553939500495405238884920793258792263094801801407347713038632960 μ = 228475053824174468860241995132626814231313504338782008548642707156545646422738713433749661892355888553939500495405238884920793258792263094801801407347713038632960) (hw : Within μ σ x) :
    WithinOut μ σ (execSlowAlarm x) := by
  unfold execSlowAlarm
  repeat' first
    | with_reducible apply WithinOut.next
    | with_reducible apply WithinOut.ite
    | with_reducible assumption
    | with_reducible apply Within.refl
    | with_reducible apply Eq.refl
    | ((with_reducible apply fun k => sub_trans k hμ); exact rfl)
    | ((with_reducible apply sub_set hμ); exact rfl)
    | intro _
    | with_reducible apply Within.ite
    | with_reducible apply within_alarmReached
    | with_reducible apply Within.foldl
    | (extract_lets +onlyGivenNames a; first | (refine Within.cutAny (μ := μ) (σ := σ) (a := a) ?_ ?_; all_goals (first | (intro ha; clear_value a) | (unfold a; clear a))) | skip)
    | split

theorem within_execModeReqSafe {μ : Nat} {σ x : State} (fn : ℕ)  (hμ : Nat.land 1763560726714527900576903299305210692590990857520780663759498486086222356012796855823304974280967058280189796674309024158492936989972091676717431178012771022292992 μ = 1763560726714527900576903299305210692590990857520780663759498486086222356012796855823304974280967058280189796674309024158492936989972091676717431178012771022292992) (hw : Within μ σ x) :
    WithinOut μ σ (execModeReqSafe fn x) := by
  unfold execModeReqSafe
  repeat' first
    | with_reducible apply WithinOut.next
    | with_reducible apply WithinOut.ite
    | with_reducible assumption
    | with_reducible apply Within.refl
    | with_reducible apply Eq.refl
    | ((with_reducible apply fun k => sub_trans k hμ); exact rfl)
    | ((with_reducible apply sub_set hμ); exact rfl)
    | intro _
    | with_reducible apply Within.ite
    | with_reducible apply within_hostWrite
    | with_reducible apply within_reqSafe
    | with_reducible apply Within.foldl
    | (extract_lets +onlyGivenNames a; first | (refine Within.cutAny (μ := μ) (σ := σ) (a := a) ?_ ?_; all_goals (first | (intro ha; clear_value a) | (unfold a; clear a))) | skip)
    | split

theorem within_execModeReqIdle {μ : Nat} {σ x : State} (fn : ℕ)  (hμ : Nat.land 340947898687754378430505457824776360703055932296329924376161596471841585939525910371434888466506622636867880557404224635629515878509930422737058161934898745591808 μ = 340947898687754378430505457824776360703055932296329924376161596471841585939525910371434888466506622636867880557404224635629515878509930422737058161934898745591808) (hw : Within μ σ x) :
    WithinOut μ σ (execModeReqIdle fn x) := by
  unfold execModeReqIdle
  repeat' first
    | with_reducible apply WithinOut.next
    | with_reducible apply WithinOut.ite
    | with_reducible assumption
    | with_reducible apply Within.refl
    | with_reducible apply Eq.refl
    | ((with_reducible apply fun k => sub_trans k hμ); exact rfl)
    | ((with_reducible apply sub_set hμ); exact rfl)
    | intro _
    | with_reducible apply Within.ite
    | with_reducible apply within_hostWrite
    | with_reducible apply within_reqIdle
    | with_reducible apply Within.foldl
    | (extract_lets +onlyGivenNames a; first | (refine Within.cutAny (μ := μ) (σ := σ) (a := a) ?_ ?_; all_goals (first | (intro ha; clear_value a) | (unfold a; clear a))) | skip)
    | split

theorem within_railLost {μ : Nat} {σ x : State} (rail : ℕ)  (hμ : Nat.land 56539106072908298546665520023773392506479484700019806659891398441363832832 μ = 56539106072908298546665520023773392506479484700019806659891398441363832832) (hw : Within μ σ x) :
    Within μ σ (railLost rail x) := by
  unfold railLost
  repeat' first
    | with_reducible assumption
    | with_reducible apply Within.refl
    | with_reducible apply Eq.refl
    | ((with_reducible apply fun k => sub_trans k hμ); exact rfl)
    | ((with_reducible apply sub_set hμ); exact rfl)
    | intro _
    | with_reducible apply Within.ite
    | with_reducible apply within_put
    | with_reducible apply Within.foldl
    | (extract_lets +onlyGivenNames a; first | (refine Within.cutAny (μ := μ) (σ := σ) (a := a) ?_ ?_; all_goals (first | (intro ha; clear_value a) | (unfold a; clear a))) | skip)
    | split

theorem within_execRailFault {μ : Nat} {σ x : State} (rail : ℕ)  (hμ : Nat.land 1799551627328263132593620244384494602291290778697776519520762907435079401706211234636503068290045471048118431027391874159694642289669506039158533993860293107646463 μ = 1799551627328263132593620244384494602291290778697776519520762907435079401706211234636503068290045471048118431027391874159694642289669506039158533993860293107646463) (hw : Within μ σ x) :
    WithinOut μ σ (execRailFault rail x) := by
  unfold execRailFault
  repeat' first
    | with_reducible apply WithinOut.next
    | with_reducible apply WithinOut.ite
    | with_reducible assumption
    | with_reducible apply Within.refl
    | with_reducible apply Eq.refl
    | ((with_reducible apply fun k => sub_trans k hμ); exact rfl)
    | ((with_reducible apply sub_set hμ); exact rfl)
    | ((with_reducible apply Or.inl); with_reducible apply Eq.refl)
    | ((with_reducible apply Or.inr); (with_reducible apply sub_set hμ); exact rfl)
    | exact (fun _ => rfl)
    | intro _
    | with_reducible apply Within.ite
    | with_reducible apply within_resetAll
    | with_reducible apply within_put
    | with_reducible apply within_resetBlocks
    | with_reducible apply within_railLost
    | with_reducible apply Within.foldl
    | (extract_lets +onlyGivenNames a; first | (refine Within.cutAny (μ := μ) (σ := σ) (a := a) ?_ ?_; all_goals (first | (intro ha; clear_value a) | (unfold a; clear a))) | skip)
    | split
    | (with_reducible apply Within.upd)

theorem within_execSoftRst {μ : Nat} {σ x : State} (fn : ℕ)  (hμ : Nat.land 1799565356923583393813050208186092765077725317568376806131581696361997772792578029948607313409326793957228385620014657121410716533645505472446159141916875337760767 μ = 1799565356923583393813050208186092765077725317568376806131581696361997772792578029948607313409326793957228385620014657121410716533645505472446159141916875337760767) (hw : Within μ σ x) :
    WithinOut μ σ (execSoftRst fn x) := by
  unfold execSoftRst
  repeat' first
    | with_reducible apply WithinOut.next
    | with_reducible apply WithinOut.ite
    | with_reducible assumption
    | with_reducible apply Within.refl
    | with_reducible apply Eq.refl
    | ((with_reducible apply fun k => sub_trans k hμ); exact rfl)
    | ((with_reducible apply sub_set hμ); exact rfl)
    | intro _
    | with_reducible apply Within.ite
    | with_reducible apply within_hostWrite
    | with_reducible apply within_softReset
    | with_reducible apply Within.foldl
    | (extract_lets +onlyGivenNames a; first | (refine Within.cutAny (μ := μ) (σ := σ) (a := a) ?_ ?_; all_goals (first | (intro ha; clear_value a) | (unfold a; clear a))) | skip)
    | split

theorem within_execAonRstN {μ : Nat} {σ x : State}   (hμ : Nat.land 1799551627328263132593620244384494602291290778697776519520762907435079401706211234636503068290045471048118431027391874159694642289669506039158533993860293107646463 μ = 1799551627328263132593620244384494602291290778697776519520762907435079401706211234636503068290045471048118431027391874159694642289669506039158533993860293107646463) (hw : Within μ σ x) :
    WithinOut μ σ (execAonRstN x) := by
  unfold execAonRstN
  repeat' first
    | with_reducible apply WithinOut.next
    | with_reducible apply WithinOut.ite
    | with_reducible assumption
    | with_reducible apply Within.refl
    | with_reducible apply Eq.refl
    | ((with_reducible apply fun k => sub_trans k hμ); exact rfl)
    | ((with_reducible apply sub_set hμ); exact rfl)
    | intro _
    | with_reducible apply Within.ite
    | with_reducible apply within_resetAll
    | with_reducible apply Within.foldl
    | (extract_lets +onlyGivenNames a; first | (refine Within.cutAny (μ := μ) (σ := σ) (a := a) ?_ ?_; all_goals (first | (intro ha; clear_value a) | (unfold a; clear a))) | skip)
    | split

theorem within_avsDue {μ : Nat} {σ x : State}   (hμ : Nat.land 225028067299081386457106708193888069662092089138697551319950512192102105551775165388577505020882480312155773087412742526456858766630711584176176647382751573442560 μ = 225028067299081386457106708193888069662092089138697551319950512192102105551775165388577505020882480312155773087412742526456858766630711584176176647382751573442560) (hw : Within μ σ x) :
    Within μ σ (avsDue x) := by
  unfold avsDue
  repeat' first
    | with_reducible assumption
    | with_reducible apply Within.refl
    | with_reducible apply Eq.refl
    | ((with_reducible apply fun k => sub_trans k hμ); exact rfl)
    | ((with_reducible apply sub_set hμ); exact rfl)
    | intro _
    | with_reducible apply Within.ite
    | with_reducible apply within_advance
    | with_reducible apply Within.foldl
    | (extract_lets +onlyGivenNames a; first | (refine Within.cutAny (μ := μ) (σ := σ) (a := a) ?_ ?_; all_goals (first | (intro ha; clear_value a) | (unfold a; clear a))) | skip)
    | split

theorem within_execAvsCommand {μ : Nat} {σ x : State} (acked : Bool)  (hμ : Nat.land 228557458211711896062015977090265787361612992521115369398342196165178760384467545455322095340531789362205840017869800708359667406746680710654056637859360103483392 μ = 228557458211711896062015977090265787361612992521115369398342196165178760384467545455322095340531789362205840017869800708359667406746680710654056637859360103483392) (hw : Within μ σ x) :
    WithinOut μ σ (execAvsCommand acked x) := by
  unfold execAvsCommand
  repeat' first
    | with_reducible apply WithinOut.next
    | with_reducible apply WithinOut.ite
    | with_reducible assumption
    | with_reducible apply Within.refl
    | with_reducible apply Eq.refl
    | ((with_reducible apply fun k => sub_trans k hμ); exact rfl)
    | ((with_reducible apply sub_set hμ); exact rfl)
    | ((with_reducible apply Or.inl); with_reducible apply Eq.refl)
    | ((with_reducible apply Or.inr); (with_reducible apply sub_set hμ); exact rfl)
    | intro _
    | with_reducible apply Within.ite
    | with_reducible apply within_draw
    | with_reducible apply within_put
    | with_reducible apply within_raise0
    | with_reducible apply within_setBit
    | with_reducible apply within_avsDue
    | with_reducible apply Within.foldl
    | (extract_lets +onlyGivenNames a; first | (refine Within.cutAny (μ := μ) (σ := σ) (a := a) ?_ ?_; all_goals (first | (intro ha; clear_value a) | (unfold a; clear a))) | skip)
    | split
    | (with_reducible apply Within.upd)

theorem within_execDieTempCross {μ : Nat} {σ x : State} (temp : Byte)  (hμ : Nat.land 1763560726714527900576903299305210692590990857520780663759498486086222356012796855704734779524201567525834572780015608959886063637885799931134230138703525955258368 μ = 1763560726714527900576903299305210692590990857520780663759498486086222356012796855704734779524201567525834572780015608959886063637885799931134230138703525955258368) (hw : Within μ σ x) :
    WithinOut μ σ (execDieTempCross temp x) := by
  unfold execDieTempCross
  repeat' first
    | with_reducible apply WithinOut.next
    | with_reducible apply WithinOut.ite
    | with_reducible assumption
    | with_reducible apply Within.refl
    | with_reducible apply Eq.refl
    | ((with_reducible apply fun k => sub_trans k hμ); exact rfl)
    | ((with_reducible apply sub_set hμ); exact rfl)
    | intro _
    | with_reducible apply Within.ite
    | with_reducible apply within_put
    | with_reducible apply within_raise0
    | with_reducible apply within_setBit
    | with_reducible apply within_enterSafe
    | with_reducible apply Within.foldl
    | (extract_lets +onlyGivenNames a; first | (refine Within.cutAny (μ := μ) (σ := σ) (a := a) ?_ ?_; all_goals (first | (intro ha; clear_value a) | (unfold a; clear a))) | skip)
    | split

theorem within_execHoldEnWrite {μ : Nat} {σ x : State} (fn : ℕ) (v : W32)  (hμ : Nat.land 340947898687754378430505457824776360703055932296329924376161596471841585939525910369582229173486081737165381463645224053325322743730856403057401790657899012311040 μ = 340947898687754378430505457824776360703055932296329924376161596471841585939525910369582229173486081737165381463645224053325322743730856403057401790657899012311040) (hw : Within μ σ x) :
    WithinOut μ σ (execHoldEnWrite fn v x) := by
  unfold execHoldEnWrite
  repeat' first
    | with_reducible apply WithinOut.next
    | with_reducible apply WithinOut.ite
    | with_reducible assumption
    | with_reducible apply Within.refl
    | with_reducible apply Eq.refl
    | ((with_reducible apply fun k => sub_trans k hμ); exact rfl)
    | ((with_reducible apply sub_set hμ); exact rfl)
    | intro _
    | with_reducible apply Within.ite
    | with_reducible apply within_hostWrite
    | with_reducible apply within_pwrCtrlWrite
    | with_reducible apply Within.foldl
    | (extract_lets +onlyGivenNames a; first | (refine Within.cutAny (μ := μ) (σ := σ) (a := a) ?_ ?_; all_goals (first | (intro ha; clear_value a) | (unfold a; clear a))) | skip)
    | split

theorem within_execWakeSource {μ : Nat} {σ x : State} (src : ℕ)  (hμ : Nat.land 228475053824174468860241995132626814231313504338782008548642707156545646422738713433749661892355888553939500495405238884920793258792263094801801407347713038632960 μ = 228475053824174468860241995132626814231313504338782008548642707156545646422738713433749661892355888553939500495405238884920793258792263094801801407347713038632960) (hw : Within μ σ x) :
    WithinOut μ σ (execWakeSource src x) := by
  unfold execWakeSource
  repeat' first
    | with_reducible apply WithinOut.next
    | with_reducible apply WithinOut.ite
    | with_reducible assumption
    | with_reducible apply Within.refl
    | with_reducible apply Eq.refl
    | ((with_reducible apply fun k => sub_trans k hμ); exact rfl)
    | ((with_reducible apply sub_set hμ); exact rfl)
    | intro _
    | with_reducible apply Within.ite
    | with_reducible apply within_wake
    | with_reducible apply within_alarmReached
    | with_reducible apply Within.foldl
    | (extract_lets +onlyGivenNames a; first | (refine Within.cutAny (μ := μ) (σ := σ) (a := a) ?_ ?_; all_goals (first | (intro ha; clear_value a) | (unfold a; clear a))) | skip)
    | split

theorem within_execHbmSelfRefresh {μ : Nat} {σ x : State}   (hμ : Nat.land 225028067299081386457106708193888069662092089138697551319950512192102105551775165388577505020882480312155773087412742526456858766630711584176176647382751573442560 μ = 225028067299081386457106708193888069662092089138697551319950512192102105551775165388577505020882480312155773087412742526456858766630711584176176647382751573442560) (hw : Within μ σ x) :
    WithinOut μ σ (execHbmSelfRefresh x) := by
  unfold execHbmSelfRefresh
  repeat' first
    | with_reducible apply WithinOut.next
    | with_reducible apply WithinOut.ite
    | with_reducible assumption
    | with_reducible apply Within.refl
    | with_reducible apply Eq.refl
    | ((with_reducible apply fun k => sub_trans k hμ); exact rfl)
    | ((with_reducible apply sub_set hμ); exact rfl)
    | ((with_reducible apply Or.inl); with_reducible apply Eq.refl)
    | ((with_reducible apply Or.inr); (with_reducible apply sub_set hμ); exact rfl)
    | intro _
    | with_reducible apply Within.ite
    | with_reducible apply within_advance
    | with_reducible apply Within.foldl
    | (extract_lets +onlyGivenNames a; first | (refine Within.cutAny (μ := μ) (σ := σ) (a := a) ?_ ?_; all_goals (first | (intro ha; clear_value a) | (unfold a; clear a))) | skip)
    | split
    | (with_reducible apply Within.upd)

theorem within_execHbmStackTempCross {μ : Nat} {σ x : State} (above : Bool)  (hμ : Nat.land 224945689727159819140526925384299092943484855915095831655037778630591879033574393515952034305194542857496045531676044756160413302774714984450425759043258192756736 μ = 224945689727159819140526925384299092943484855915095831655037778630591879033574393515952034305194542857496045531676044756160413302774714984450425759043258192756736) (hw : Within μ σ x) :
    WithinOut μ σ (execHbmStackTempCross above x) := by
  unfold execHbmStackTempCross
  repeat' first
    | with_reducible apply WithinOut.next
    | with_reducible apply WithinOut.ite
    | with_reducible assumption
    | with_reducible apply Within.refl
    | with_reducible apply Eq.refl
    | ((with_reducible apply fun k => sub_trans k hμ); exact rfl)
    | ((with_reducible apply sub_set hμ); exact rfl)
    | ((with_reducible apply Or.inl); with_reducible apply Eq.refl)
    | ((with_reducible apply Or.inr); (with_reducible apply sub_set hμ); exact rfl)
    | intro _
    | with_reducible apply Within.ite
    | with_reducible apply Within.foldl
    | (extract_lets +onlyGivenNames a; first | (refine Within.cutAny (μ := μ) (σ := σ) (a := a) ?_ ?_; all_goals (first | (intro ha; clear_value a) | (unfold a; clear a))) | skip)
    | split
    | (with_reducible apply Within.upd)

theorem within_execModeReqShow {μ : Nat} {σ x : State} (fn : ℕ)  (hμ : Nat.land 340947898687754378430505457824776360703055932296329924376161596471841585939525910371434888466506622636867880557404224635629515878509930422737058161934898745591808 μ = 340947898687754378430505457824776360703055932296329924376161596471841585939525910371434888466506622636867880557404224635629515878509930422737058161934898745591808) (hw : Within μ σ x) :
    WithinOut μ σ (execModeReqShow fn x) := by
  unfold execModeReqShow
  repeat' first
    | with_reducible apply WithinOut.next
    | with_reducible apply WithinOut.ite
    | with_reducible assumption
    | with_reducible apply Within.refl
    | with_reducible apply Eq.refl
    | ((with_reducible apply fun k => sub_trans k hμ); exact rfl)
    | ((with_reducible apply sub_set hμ); exact rfl)
    | intro _
    | with_reducible apply Within.ite
    | with_reducible apply within_hostWrite
    | with_reducible apply within_reqShow
    | with_reducible apply Within.foldl
    | (extract_lets +onlyGivenNames a; first | (refine Within.cutAny (μ := μ) (σ := σ) (a := a) ?_ ?_; all_goals (first | (intro ha; clear_value a) | (unfold a; clear a))) | skip)
    | split

/-! ## Selftest -/

theorem within_execRotDrainTimeout {μ : Nat} {σ x : State}   (hμ : Nat.land 678448810850415674457875628710813976836890449392575391523630997979239631008088279956472219708033765657807812308453810617254851836084485156570534836385062762596352 μ = 678448810850415674457875628710813976836890449392575391523630997979239631008088279956472219708033765657807812308453810617254851836084485156570534836385062762596352) (hw : Within μ σ x) :
    WithinOut μ σ (execRotDrainTimeout x) := by
  unfold execRotDrainTimeout
  repeat' first
    | with_reducible apply WithinOut.next
    | with_reducible apply WithinOut.ite
    | with_reducible assumption
    | with_reducible apply Within.refl
    | with_reducible apply Eq.refl
    | ((with_reducible apply fun k => sub_trans k hμ); exact rfl)
    | ((with_reducible apply sub_set hμ); exact rfl)
    | intro _
    | with_reducible apply Within.ite
    | with_reducible apply within_advance
    | with_reducible apply within_endRotStep
    | with_reducible apply within_bump
    | with_reducible apply within_put
    | with_reducible apply Within.foldl
    | (extract_lets +onlyGivenNames a; first | (refine Within.cutAny (μ := μ) (σ := σ) (a := a) ?_ ?_; all_goals (first | (intro ha; clear_value a) | (unfold a; clear a))) | skip)
    | split

theorem within_execRotStepStart {μ : Nat} {σ x : State}   (hμ : Nat.land 674919446753401024738160558962486255549061800968889214630026069453285863618923952450124348476024512055582036312988936449214801446584125947178169671495029146779648 μ = 674919446753401024738160558962486255549061800968889214630026069453285863618923952450124348476024512055582036312988936449214801446584125947178169671495029146779648) (hw : Within μ σ x) :
    WithinOut μ σ (execRotStepStart x) := by
  unfold execRotStepStart
  repeat' first
    | with_reducible apply WithinOut.next
    | with_reducible apply WithinOut.ite
    | with_reducible assumption
    | with_reducible apply Within.refl
    | with_reducible apply Eq.refl
    | ((with_reducible apply fun k => sub_trans k hμ); exact rfl)
    | ((with_reducible apply sub_set hμ); exact rfl)
    | ((with_reducible apply Or.inl); with_reducible apply Eq.refl)
    | ((with_reducible apply Or.inr); (with_reducible apply sub_set hμ); exact rfl)
    | intro _
    | with_reducible apply Within.ite
    | with_reducible apply within_advance
    | with_reducible apply within_put
    | with_reducible apply Within.foldl
    | (extract_lets +onlyGivenNames a; first | (refine Within.cutAny (μ := μ) (σ := σ) (a := a) ?_ ?_; all_goals (first | (intro ha; clear_value a) | (unfold a; clear a))) | skip)
    | split
    | (with_reducible apply Within.upd)

theorem within_execStop {μ : Nat} {σ x : State} (fn : ℕ)  (hμ : Nat.land 1763560726714527900576903299305210692590990857520780663759498486086222356012796855821452300853169999153412660914170017632840617235321842652086109833886160948054016 μ = 1763560726714527900576903299305210692590990857520780663759498486086222356012796855821452300853169999153412660914170017632840617235321842652086109833886160948054016) (hw : Within μ σ x) :
    WithinOut μ σ (execStop fn x) := by
  unfold execStop
  repeat' first
    | with_reducible apply WithinOut.next
    | with_reducible apply WithinOut.ite
    | with_reducible assumption
    | with_reducible apply Within.refl
    | with_reducible apply Eq.refl
    | ((with_reducible apply fun k => sub_trans k hμ); exact rfl)
    | ((with_reducible apply sub_set hμ); exact rfl)
    | intro _
    | with_reducible apply Within.ite
    | with_reducible apply within_hostWrite
    | with_reducible apply within_bistCmdWrite
    | with_reducible apply Within.foldl
    | (extract_lets +onlyGivenNames a; first | (refine Within.cutAny (μ := μ) (σ := σ) (a := a) ?_ ?_; all_goals (first | (intro ha; clear_value a) | (unfold a; clear a))) | skip)
    | split

theorem within_reportClock {μ : Nat} {σ x : State} (input : ℕ) (lost : Bool)  (hμ : Nat.land 1763560726714527900576903299305210692590990857520780663759498486086222356012796855704735684149898734058611319428335989401068402905232869672647943219023672328079360 μ = 1763560726714527900576903299305210692590990857520780663759498486086222356012796855704735684149898734058611319428335989401068402905232869672647943219023672328079360) (hw : Within μ σ x) :
    Within μ σ (reportClock input lost x) := by
  unfold reportClock
  repeat' first
    | with_reducible assumption
    | with_reducible apply Within.refl
    | with_reducible apply Eq.refl
    | ((with_reducible apply fun k => sub_trans k hμ); exact rfl)
    | ((with_reducible apply sub_set hμ); exact rfl)
    | intro _
    | with_reducible apply Within.ite
    | with_reducible apply within_put
    | with_reducible apply within_raise0
    | with_reducible apply within_setBit
    | with_reducible apply within_clockLost
    | with_reducible apply Within.foldl
    | (extract_lets +onlyGivenNames a; first | (refine Within.cutAny (μ := μ) (σ := σ) (a := a) ?_ ?_; all_goals (first | (intro ha; clear_value a) | (unfold a; clear a))) | skip)
    | split

theorem within_findClocks {μ : Nat} {σ x : State}   (hμ : Nat.land 1763560726714527900576903299305210692590990857520780663759498486086222356012796855704735684149898734058611319428335989401068402905232869672647943219023672328079360 μ = 1763560726714527900576903299305210692590990857520780663759498486086222356012796855704735684149898734058611319428335989401068402905232869672647943219023672328079360) (hw : Within μ σ x) :
    Within μ σ (findClocks x) := by
  unfold findClocks
  repeat' first
    | with_reducible assumption
    | with_reducible apply Within.refl
    | with_reducible apply Eq.refl
    | ((with_reducible apply fun k => sub_trans k hμ); exact rfl)
    | ((with_reducible apply sub_set hμ); exact rfl)
    | intro _
    | with_reducible apply Within.ite
    | with_reducible apply within_reportClock
    | with_reducible apply Within.forEach
    | with_reducible apply Within.foldl
    | (extract_lets +onlyGivenNames a; first | (refine Within.cutAny (μ := μ) (σ := σ) (a := a) ?_ ?_; all_goals (first | (intro ha; clear_value a) | (unfold a; clear a))) | skip)
    | split

theorem within_execResetRelease {μ : Nat} {σ x : State} (bootMode : BitVec 2) (rails : BitVec 9)  (hμ : Nat.land 1763643104286449467893483082114799669309598090744382383424411219647732582530997749942851562634091265993255850295704405137025779972886785705731948457111703538124800 μ = 1763643104286449467893483082114799669309598090744382383424411219647732582530997749942851562634091265993255850295704405137025779972886785705731948457111703538124800) (hw : Within μ σ x) :
    WithinOut μ σ (execResetRelease bootMode rails x) := by
  unfold execResetRelease
  repeat' first
    | with_reducible apply WithinOut.next
    | with_reducible apply WithinOut.ite
    | with_reducible assumption
    | with_reducible apply Within.refl
    | with_reducible apply Eq.refl
    | ((with_reducible apply fun k => sub_trans k hμ); exact rfl)
    | ((with_reducible apply sub_set hμ); exact rfl)
    | ((with_reducible apply Or.inl); with_reducible apply Eq.refl)
    | ((with_reducible apply Or.inr); (with_reducible apply sub_set hμ); exact rfl)
    | intro _
    | with_reducible apply Within.ite
    | with_reducible apply within_loadTrims
    | with_reducible apply within_startTime
    | with_reducible apply within_wr
    | with_reducible apply within_put
    | with_reducible apply within_enterSafe
    | with_reducible apply within_bootNext
    | with_reducible apply within_startSet
    | with_reducible apply within_findClocks
    | with_reducible apply Within.foldl
    | (extract_lets +onlyGivenNames a; first | (refine Within.cutAny (μ := μ) (σ := σ) (a := a) ?_ ?_; all_goals (first | (intro ha; clear_value a) | (unfold a; clear a))) | skip)
    | split
    | (with_reducible apply Within.upd)

theorem within_execModeTransitionDone {μ : Nat} {σ x : State}   (hμ : Nat.land 1799565356923583393813050208186092765077725317568376806131581696361997772792578029948607313409326793957228385620014657121410716533645505472446159141916875337760767 μ = 1799565356923583393813050208186092765077725317568376806131581696361997772792578029948607313409326793957228385620014657121410716533645505472446159141916875337760767) (hw : Within μ σ x) :
    WithinOut μ σ (execModeTransitionDone x) := by
  unfold execModeTransitionDone
  repeat' first
    | with_reducible apply WithinOut.next
    | with_reducible apply WithinOut.ite
    | with_reducible assumption
    | with_reducible apply Within.refl
    | with_reducible apply Eq.refl
    | ((with_reducible apply fun k => sub_trans k hμ); exact rfl)
    | ((with_reducible apply sub_set hμ); exact rfl)
    | ((with_reducible apply Or.inl); with_reducible apply Eq.refl)
    | ((with_reducible apply Or.inr); (with_reducible apply sub_set hμ); exact rfl)
    | intro _
    | with_reducible apply Within.ite
    | with_reducible apply within_advance
    | with_reducible apply within_powerDown
    | with_reducible apply within_arriveSafe
    | with_reducible apply within_startSet
    | with_reducible apply within_enterMode
    | with_reducible apply within_put
    | with_reducible apply Within.foldl
    | (extract_lets +onlyGivenNames a; first | (refine Within.cutAny (μ := μ) (σ := σ) (a := a) ?_ ?_; all_goals (first | (intro ha; clear_value a) | (unfold a; clear a))) | skip)
    | split
    | (with_reducible apply Within.upd)

theorem within_execLcReq {μ : Nat} {σ x : State} (fn : ℕ) (v : W32)  (hμ : Nat.land 116112045723156649045418242853262570051047387346036385607674129256596675596885879350464138154071474368705676839976435561708345117925168128718396000005285734270976 μ = 116112045723156649045418242853262570051047387346036385607674129256596675596885879350464138154071474368705676839976435561708345117925168128718396000005285734270976) (hw : Within μ σ x) :
    WithinOut μ σ (execLcReq fn v x) := by
  unfold execLcReq
  repeat' first
    | with_reducible apply WithinOut.next
    | with_reducible apply WithinOut.ite
    | with_reducible assumption
    | with_reducible apply Within.refl
    | with_reducible apply Eq.refl
    | ((with_reducible apply fun k => sub_trans k hμ); exact rfl)
    | ((with_reducible apply sub_set hμ); exact rfl)
    | intro _
    | with_reducible apply Within.ite
    | with_reducible apply within_hostWrite
    | with_reducible apply within_lcRequest
    | with_reducible apply Within.foldl
    | (extract_lets +onlyGivenNames a; first | (refine Within.cutAny (μ := μ) (σ := σ) (a := a) ?_ ?_; all_goals (first | (intro ha; clear_value a) | (unfold a; clear a))) | skip)
    | split

theorem within_execBwWindowEnd {μ : Nat} {σ x : State} (p : ℕ)  (hμ : Nat.land 284793853827885990961953509288290564185791951541157686127314885375703845627572299666186773583326863438088593447911714706418657723856640596712041119235250793236480 μ = 284793853827885990961953509288290564185791951541157686127314885375703845627572299666186773583326863438088593447911714706418657723856640596712041119235250793236480) (hw : Within μ σ x) :
    WithinOut μ σ (execBwWindowEnd p x) := by
  unfold execBwWindowEnd
  repeat' first
    | with_reducible apply WithinOut.next
    | with_reducible apply WithinOut.ite
    | with_reducible assumption
    | with_reducible apply Within.refl
    | with_reducible apply Eq.refl
    | ((with_reducible apply fun k => sub_trans k hμ); exact rfl)
    | ((with_reducible apply sub_set hμ); exact rfl)
    | intro _
    | with_reducible apply Within.ite
    | with_reducible apply within_bwClose
    | with_reducible apply within_advance
    | with_reducible apply Within.foldl
    | (extract_lets +onlyGivenNames a; first | (refine Within.cutAny (μ := μ) (σ := σ) (a := a) ?_ ?_; all_goals (first | (intro ha; clear_value a) | (unfold a; clear a))) | skip)
    | split

theorem within_execBistBlockDone {μ : Nat} {σ x : State} (b : ℕ) (ranToEnd : Bool) (signatureOk : Bool) (countOk : Bool)  (hμ : Nat.land 1763560726714527900576903299305210692590990857520780663759498486086222356012796855702881201470707341866280690371556222059953640211480350589596350532201854059694080 μ = 1763560726714527900576903299305210692590990857520780663759498486086222356012796855702881201470707341866280690371556222059953640211480350589596350532201854059694080) (hw : Within μ σ x) :
    WithinOut μ σ (execBistBlockDone b ranToEnd signatureOk countOk x) := by
  unfold execBistBlockDone
  repeat' first
    | with_reducible apply WithinOut.next
    | with_reducible apply WithinOut.ite
    | with_reducible assumption
    | with_reducible apply Within.refl
    | with_reducible apply Eq.refl
    | ((with_reducible apply fun k => sub_trans k hμ); exact rfl)
    | ((with_reducible apply sub_set hμ); exact rfl)
    | ((with_reducible apply Or.inl); with_reducible apply Eq.refl)
    | ((with_reducible apply Or.inr); (with_reducible apply sub_set hμ); exact rfl)
    | intro _
    | with_reducible apply Within.ite
    | with_reducible apply within_put
    | with_reducible apply within_blockResult
    | with_reducible apply within_endRotStep
    | with_reducible apply within_removeCluster
    | with_reducible apply within_nextBlock
    | with_reducible apply Within.foldl
    | (extract_lets +onlyGivenNames a; first | (refine Within.cutAny (μ := μ) (σ := σ) (a := a) ?_ ?_; all_goals (first | (intro ha; clear_value a) | (unfold a; clear a))) | skip)
    | split
    | (with_reducible apply Within.upd)

theorem within_execCntSnap {μ : Nat} {σ x : State} (fn : ℕ)  (hμ : Nat.land 116003925160009591942407277915677038107875393740059128547476166457114503292120358694950547821347593145574900053147361851292271234694520574248217581819100703770624 μ = 116003925160009591942407277915677038107875393740059128547476166457114503292120358694950547821347593145574900053147361851292271234694520574248217581819100703770624) (hw : Within μ σ x) :
    WithinOut μ σ (execCntSnap fn x) := by
  unfold execCntSnap
  repeat' first
    | with_reducible apply WithinOut.next
    | with_reducible apply WithinOut.ite
    | with_reducible assumption
    | with_reducible apply Within.refl
    | with_reducible apply Eq.refl
    | ((with_reducible apply fun k => sub_trans k hμ); exact rfl)
    | ((with_reducible apply sub_set hμ); exact rfl)
    | intro _
    | with_reducible apply Within.ite
    | with_reducible apply within_hostWrite
    | with_reducible apply within_snapCounters
    | with_reducible apply Within.foldl
    | (extract_lets +onlyGivenNames a; first | (refine Within.cutAny (μ := μ) (σ := σ) (a := a) ?_ ?_; all_goals (first | (intro ha; clear_value a) | (unfold a; clear a))) | skip)
    | split

theorem within_execOtpGo {μ : Nat} {σ x : State} (fn : ℕ)  (hμ : Nat.land 116112045723156649045418242853262570051047387346036385607674129256596675596885880299032933186165747278599186031147776695696059498852668739954924192829643744626688 μ = 116112045723156649045418242853262570051047387346036385607674129256596675596885880299032933186165747278599186031147776695696059498852668739954924192829643744626688) (hw : Within μ σ x) :
    WithinOut μ σ (execOtpGo fn x) := by
  unfold execOtpGo
  repeat' first
    | with_reducible apply WithinOut.next
    | with_reducible apply WithinOut.ite
    | with_reducible assumption
    | with_reducible apply Within.refl
    | with_reducible apply Eq.refl
    | ((with_reducible apply fun k => sub_trans k hμ); exact rfl)
    | ((with_reducible apply sub_set hμ); exact rfl)
    | intro _
    | with_reducible apply Within.ite
    | with_reducible apply within_hostWrite
    | with_reducible apply within_otpProgram
    | with_reducible apply Within.foldl
    | (extract_lets +onlyGivenNames a; first | (refine Within.cutAny (μ := μ) (σ := σ) (a := a) ?_ ?_; all_goals (first | (intro ha; clear_value a) | (unfold a; clear a))) | skip)
    | split

theorem within_execModeReqTest {μ : Nat} {σ x : State} (fn : ℕ)  (hμ : Nat.land 340947898687754378430505457824776360703055932296329924376161596471841585939525910371434888466506622636867880557404224635629515878509930422737058161934898745591808 μ = 340947898687754378430505457824776360703055932296329924376161596471841585939525910371434888466506622636867880557404224635629515878509930422737058161934898745591808) (hw : Within μ σ x) :
    WithinOut μ σ (execModeReqTest fn x) := by
  unfold execModeReqTest
  repeat' first
    | with_reducible apply WithinOut.next
    | with_reducible apply WithinOut.ite
    | with_reducible assumption
    | with_reducible apply Within.refl
    | with_reducible apply Eq.refl
    | ((with_reducible apply fun k => sub_trans k hμ); exact rfl)
    | ((with_reducible apply sub_set hμ); exact rfl)
    | intro _
    | with_reducible apply Within.ite
    | with_reducible apply within_hostWrite
    | with_reducible apply within_reqTest
    | with_reducible apply Within.foldl
    | (extract_lets +onlyGivenNames a; first | (refine Within.cutAny (μ := μ) (σ := σ) (a := a) ?_ ?_; all_goals (first | (intro ha; clear_value a) | (unfold a; clear a))) | skip)
    | split

theorem within_execTagSample {μ : Nat} {σ x : State} (core : ℕ) (stall : BitVec 16) (cause : Byte) (paired : Bool) (predOff : Bool)  (hμ : Nat.land 1128923698105846414564702941047334081147328063223279235793505084634454160285611719047396502158802525554136395074715834583957820084027019907654847859258368699942912 μ = 1128923698105846414564702941047334081147328063223279235793505084634454160285611719047396502158802525554136395074715834583957820084027019907654847859258368699942912) (hw : Within μ σ x) :
    WithinOut μ σ (execTagSample core stall cause paired predOff x) := by
  unfold execTagSample
  repeat' first
    | with_reducible apply WithinOut.next
    | with_reducible apply WithinOut.ite
    | with_reducible assumption
    | with_reducible apply Within.refl
    | with_reducible apply Eq.refl
    | ((with_reducible apply fun k => sub_trans k hμ); exact rfl)
    | ((with_reducible apply sub_set hμ); exact rfl)
    | ((with_reducible apply Or.inl); with_reducible apply Eq.refl)
    | ((with_reducible apply Or.inr); (with_reducible apply sub_set hμ); exact rfl)
    | intro _
    | with_reducible apply Within.ite
    | with_reducible apply within_tagWrite
    | with_reducible apply Within.foldl
    | (extract_lets +onlyGivenNames a; first | (refine Within.cutAny (μ := μ) (σ := σ) (a := a) ?_ ?_; all_goals (first | (intro ha; clear_value a) | (unfold a; clear a))) | skip)
    | split
    | (with_reducible apply Within.upd)

theorem within_execRotClusterDrained {μ : Nat} {σ x : State}   (hμ : Nat.land 449892237554027154607268223506198071061121870509604181223251731569116156260046719357103719031851297704393708916985846929766912367621919217474695138460678045564928 μ = 449892237554027154607268223506198071061121870509604181223251731569116156260046719357103719031851297704393708916985846929766912367621919217474695138460678045564928) (hw : Within μ σ x) :
    WithinOut μ σ (execRotClusterDrained x) := by
  unfold execRotClusterDrained
  repeat' first
    | with_reducible apply WithinOut.next
    | with_reducible apply WithinOut.ite
    | with_reducible assumption
    | with_reducible apply Within.refl
    | with_reducible apply Eq.refl
    | ((with_reducible apply fun k => sub_trans k hμ); exact rfl)
    | ((with_reducible apply sub_set hμ); exact rfl)
    | ((with_reducible apply Or.inl); with_reducible apply Eq.refl)
    | ((with_reducible apply Or.inr); (with_reducible apply sub_set hμ); exact rfl)
    | intro _
    | with_reducible apply Within.ite
    | with_reducible apply within_startBlock
    | with_reducible apply Within.foldl
    | (extract_lets +onlyGivenNames a; first | (refine Within.cutAny (μ := μ) (σ := σ) (a := a) ?_ ?_; all_goals (first | (intro ha; clear_value a) | (unfold a; clear a))) | skip)
    | split
    | (with_reducible apply Within.upd)

theorem within_execShutdownRun {μ : Nat} {σ x : State} (fn : ℕ)  (hμ : Nat.land 1763560726714527900576903299305210692590990857520780663759498486086222356012796855821452300853169999153412660914170017632840617235321842652086109833886160948054016 μ = 1763560726714527900576903299305210692590990857520780663759498486086222356012796855821452300853169999153412660914170017632840617235321842652086109833886160948054016) (hw : Within μ σ x) :
    WithinOut μ σ (execShutdownRun fn x) := by
  unfold execShutdownRun
  repeat' first
    | with_reducible apply WithinOut.next
    | with_reducible apply WithinOut.ite
    | with_reducible assumption
    | with_reducible apply Within.refl
    | with_reducible apply Eq.refl
    | ((with_reducible apply fun k => sub_trans k hμ); exact rfl)
    | ((with_reducible apply sub_set hμ); exact rfl)
    | intro _
    | with_reducible apply Within.ite
    | with_reducible apply within_hostWrite
    | with_reducible apply within_bistCmdWrite
    | with_reducible apply Within.foldl
    | (extract_lets +onlyGivenNames a; first | (refine Within.cutAny (μ := μ) (σ := σ) (a := a) ?_ ?_; all_goals (first | (intro ha; clear_value a) | (unfold a; clear a))) | skip)
    | split

theorem within_execCntLoRead {μ : Nat} {σ x : State} (fn : ℕ) (n : ℕ)  (hμ : Nat.land 3529417728246369490103468044427714111213158341149459263178439420199542276222383058734292980340858623203269718472846711544287343041043744303007348469537917913088 μ = 3529417728246369490103468044427714111213158341149459263178439420199542276222383058734292980340858623203269718472846711544287343041043744303007348469537917913088) (hw : Within μ σ x) :
    WithinOut μ σ (execCntLoRead fn n x) := by
  unfold execCntLoRead
  repeat' first
    | with_reducible apply WithinOut.next
    | with_reducible apply WithinOut.ite
    | with_reducible assumption
    | with_reducible apply Within.refl
    | with_reducible apply Eq.refl
    | ((with_reducible apply fun k => sub_trans k hμ); exact rfl)
    | ((with_reducible apply sub_set hμ); exact rfl)
    | intro _
    | with_reducible apply Within.ite
    | with_reducible apply within_hostRead
    | with_reducible apply within_cntLoRead
    | with_reducible apply Within.foldl
    | (extract_lets +onlyGivenNames a; first | (refine Within.cutAny (μ := μ) (σ := σ) (a := a) ?_ ?_; all_goals (first | (intro ha; clear_value a) | (unfold a; clear a))) | skip)
    | split

theorem within_execModeReqSleep {μ : Nat} {σ x : State} (fn : ℕ)  (hμ : Nat.land 1763560726714527900576903299305210692590990857520780663759498486086222356012796855823304974280967058280189796674309024158492936989972091676717431178012771022292992 μ = 1763560726714527900576903299305210692590990857520780663759498486086222356012796855823304974280967058280189796674309024158492936989972091676717431178012771022292992) (hw : Within μ σ x) :
    WithinOut μ σ (execModeReqSleep fn x) := by
  unfold execModeReqSleep
  repeat' first
    | with_reducible apply WithinOut.next
    | with_reducible apply WithinOut.ite
    | with_reducible assumption
    | with_reducible apply Within.refl
    | with_reducible apply Eq.refl
    | ((with_reducible apply fun k => sub_trans k hμ); exact rfl)
    | ((with_reducible apply sub_set hμ); exact rfl)
    | intro _
    | with_reducible apply Within.ite
    | with_reducible apply within_hostWrite
    | with_reducible apply within_reqSleep
    | with_reducible apply Within.foldl
    | (extract_lets +onlyGivenNames a; first | (refine Within.cutAny (μ := μ) (σ := σ) (a := a) ?_ ?_; all_goals (first | (intro ha; clear_value a) | (unfold a; clear a))) | skip)
    | split

/-! ## Render -/

/-! ## Twin -/

theorem within_execMemw {μ : Nat} {σ x : State} (h : JHead) (addr4 : W64) (data : List Byte)  (hμ : Nat.land 1348820570494522909226608470726358777084741544103704436983014034414921124444915061651629805499859384839063824028888997771953048493455095104368217122071121699536895 μ = 1348820570494522909226608470726358777084741544103704436983014034414921124444915061651629805499859384839063824028888997771953048493455095104368217122071121699536895) (hw : Within μ σ x) :
    WithinOut μ σ (execMemw h addr4 data x) := by
  unfold execMemw
  repeat' first
    | with_reducible apply WithinOut.next
    | with_reducible apply WithinOut.ite
    | with_reducible assumption
    | with_reducible apply Within.refl
    | with_reducible apply Eq.refl
    | ((with_reducible apply fun k => sub_trans k hμ); exact rfl)
    | ((with_reducible apply sub_set hμ); exact rfl)
    | intro _
    | with_reducible apply Within.ite
    | with_reducible apply within_receive
    | with_reducible apply Within.foldl
    | (extract_lets +onlyGivenNames a; first | (refine Within.cutAny (μ := μ) (σ := σ) (a := a) ?_ ?_; all_goals (first | (intro ha; clear_value a) | (unfold a; clear a))) | skip)
    | split

theorem within_execCopyRecord {μ : Nat} {σ x : State} (_h : JHead) (_last : Bool) (kind : W32) (index : W64) (data : List Byte)  (hμ : Nat.land 1291701994747790311207907365979552048408758952730130423139360645755644924943926804322850094405987155880568374689892464919683073284795687145632555026807600854335487 μ = 1291701994747790311207907365979552048408758952730130423139360645755644924943926804322850094405987155880568374689892464919683073284795687145632555026807600854335487) (hw : Within μ σ x) :
    WithinOut μ σ (execCopyRecord _h _last kind index data x) := by
  unfold execCopyRecord
  repeat' first
    | with_reducible apply WithinOut.next
    | with_reducible apply WithinOut.ite
    | with_reducible assumption
    | with_reducible apply Within.refl
    | with_reducible apply Eq.refl
    | ((with_reducible apply fun k => sub_trans k hμ); exact rfl)
    | ((with_reducible apply sub_set hμ); exact rfl)
    | ((with_reducible apply Or.inl); with_reducible apply Eq.refl)
    | ((with_reducible apply Or.inr); (with_reducible apply sub_set hμ); exact rfl)
    | intro _
    | with_reducible apply Within.ite
    | with_reducible apply within_copyBlock
    | with_reducible apply within_wr
    | with_reducible apply Within.foldl
    | (extract_lets +onlyGivenNames a; first | (refine Within.cutAny (μ := μ) (σ := σ) (a := a) ?_ ?_; all_goals (first | (intro ha; clear_value a) | (unfold a; clear a))) | skip)
    | split
    | (with_reducible apply Within.upd)

theorem within_execTwinEnWrite {μ : Nat} {σ x : State} (fn : ℕ) (v : W32)  (hμ : Nat.land 116002208960594559289978532440477267759571076381234092721123817841249706905951516853630177200360090029169052894887512169720143779589915550868206265174700098340864 μ = 116002208960594559289978532440477267759571076381234092721123817841249706905951516853630177200360090029169052894887512169720143779589915550868206265174700098340864) (hw : Within μ σ x) :
    WithinOut μ σ (execTwinEnWrite fn v x) := by
  unfold execTwinEnWrite
  repeat' first
    | with_reducible apply WithinOut.next
    | with_reducible apply WithinOut.ite
    | with_reducible assumption
    | with_reducible apply Within.refl
    | with_reducible apply Eq.refl
    | ((with_reducible apply fun k => sub_trans k hμ); exact rfl)
    | ((with_reducible apply sub_set hμ); exact rfl)
    | intro _
    | with_reducible apply Within.ite
    | with_reducible apply within_hostWrite
    | with_reducible apply within_twinCtrlWrite
    | with_reducible apply Within.foldl
    | (extract_lets +onlyGivenNames a; first | (refine Within.cutAny (μ := μ) (σ := σ) (a := a) ?_ ?_; all_goals (first | (intro ha; clear_value a) | (unfold a; clear a))) | skip)
    | split

theorem within_execWireSilent {μ : Nat} {σ x : State}   (hμ : Nat.land 228557431396096036176821777942215790949920737562383728213555440718055872940939485306375015998294346368605526737080248829556764562602037457479562068166209926350848 μ = 228557431396096036176821777942215790949920737562383728213555440718055872940939485306375015998294346368605526737080248829556764562602037457479562068166209926350848) (hw : Within μ σ x) :
    WithinOut μ σ (execWireSilent x) := by
  unfold execWireSilent
  repeat' first
    | with_reducible apply WithinOut.next
    | with_reducible apply WithinOut.ite
    | with_reducible assumption
    | with_reducible apply Within.refl
    | with_reducible apply Eq.refl
    | ((with_reducible apply fun k => sub_trans k hμ); exact rfl)
    | ((with_reducible apply sub_set hμ); exact rfl)
    | intro _
    | with_reducible apply Within.ite
    | with_reducible apply within_twinEvent
    | with_reducible apply within_put
    | with_reducible apply within_advance
    | with_reducible apply Within.foldl
    | (extract_lets +onlyGivenNames a; first | (refine Within.cutAny (μ := μ) (σ := σ) (a := a) ?_ ?_; all_goals (first | (intro ha; clear_value a) | (unfold a; clear a))) | skip)
    | split

theorem within_execRegw {μ : Nat} {σ x : State} (a0 : Sys2Proof.JHead) (off : ℕ) (v : Sys2Proof.W32) (fn : ℕ) (task : Option Sys2Proof.TaskRef)  (hμ : Nat.land 1348820570494522909226608470726358777084741544103704436983014034414921124444915061651629805499859384839063824028888997771953048493455095104368217122071121699536895 μ = 1348820570494522909226608470726358777084741544103704436983014034414921124444915061651629805499859384839063824028888997771953048493455095104368217122071121699536895) (hw : Within μ σ x) :
    WithinOut μ σ (execRegw a0 off v fn task x) := by
  unfold execRegw
  repeat' first
    | with_reducible apply WithinOut.next
    | with_reducible apply WithinOut.ite
    | with_reducible assumption
    | with_reducible apply Within.refl
    | with_reducible apply Eq.refl
    | ((with_reducible apply fun k => sub_trans k hμ); exact rfl)
    | ((with_reducible apply sub_set hμ); exact rfl)
    | intro _
    | with_reducible apply Within.ite
    | with_reducible apply within_receive
    | with_reducible apply Within.foldl
    | (extract_lets +onlyGivenNames a; first | (refine Within.cutAny (μ := μ) (σ := σ) (a := a) ?_ ?_; all_goals (first | (intro ha; clear_value a) | (unfold a; clear a))) | skip)
    | split

theorem within_execCommit {μ : Nat} {σ x : State} (c : ℕ)  (hμ : Nat.land 1798794327520764114824242104304545939690318489157497819958002325237615109030264620556159344825936408008715642647977785054570320562860521672994819528497131465736191 μ = 1798794327520764114824242104304545939690318489157497819958002325237615109030264620556159344825936408008715642647977785054570320562860521672994819528497131465736191) (hw : Within μ σ x) :
    WithinOut μ σ (execCommit c x) := by
  unfold execCommit
  repeat' first
    | with_reducible apply WithinOut.next
    | with_reducible apply WithinOut.ite
    | with_reducible assumption
    | with_reducible apply Within.refl
    | with_reducible apply Eq.refl
    | ((with_reducible apply fun k => sub_trans k hμ); exact rfl)
    | ((with_reducible apply sub_set hμ); exact rfl)
    | intro _
    | with_reducible apply Within.ite
    | with_reducible apply within_pump
    | with_reducible apply within_tryCommit
    | with_reducible apply within_advance
    | with_reducible apply within_commitNow
    | with_reducible apply Within.foldl
    | (extract_lets +onlyGivenNames a; first | (refine Within.cutAny (μ := μ) (σ := σ) (a := a) ?_ ?_; all_goals (first | (intro ha; clear_value a) | (unfold a; clear a))) | skip)
    | split

theorem within_beginCopy {μ : Nat} {σ x : State}   (hμ : Nat.land 112472844863579909570263462692149546471742427957547915827518889315295939516787196757976017318239183751721553664272163072728817510213972824314490203422210467561472 μ = 112472844863579909570263462692149546471742427957547915827518889315295939516787196757976017318239183751721553664272163072728817510213972824314490203422210467561472) (hw : Within μ σ x) :
    Within μ σ (beginCopy x) := by
  unfold beginCopy
  repeat' first
    | with_reducible assumption
    | with_reducible apply Within.refl
    | with_reducible apply Eq.refl
    | ((with_reducible apply fun k => sub_trans k hμ); exact rfl)
    | ((with_reducible apply sub_set hμ); exact rfl)
    | ((with_reducible apply Or.inl); with_reducible apply Eq.refl)
    | ((with_reducible apply Or.inr); (with_reducible apply sub_set hμ); exact rfl)
    | intro _
    | with_reducible apply Within.ite
    | with_reducible apply within_wr
    | with_reducible apply Within.foldl
    | (extract_lets +onlyGivenNames a; first | (refine Within.cutAny (μ := μ) (σ := σ) (a := a) ?_ ?_; all_goals (first | (intro ha; clear_value a) | (unfold a; clear a))) | skip)
    | split
    | (with_reducible apply Within.upd)

theorem within_copyRecordOf {μ : Nat} {σ x : State} (kind : ℕ) (index : ℕ) (last : Bool) (data : List Sys2Proof.Byte)  (hμ : Nat.land 112472844863579909570263462692149546471742427957547915827518889315295939516787196757976017152597271428748022765838022378080206651387357492225212879521629096378368 μ = 112472844863579909570263462692149546471742427957547915827518889315295939516787196757976017152597271428748022765838022378080206651387357492225212879521629096378368) (hw : Within μ σ x) :
    Within μ σ (copyRecordOf kind index last data x) := by
  unfold copyRecordOf
  repeat' first
    | with_reducible assumption
    | with_reducible apply Within.refl
    | with_reducible apply Eq.refl
    | ((with_reducible apply fun k => sub_trans k hμ); exact rfl)
    | ((with_reducible apply sub_set hμ); exact rfl)
    | intro _
    | with_reducible apply Within.ite
    | with_reducible apply within_sendPlain
    | with_reducible apply Within.foldl
    | (extract_lets +onlyGivenNames a; first | (refine Within.cutAny (μ := μ) (σ := σ) (a := a) ?_ ?_; all_goals (first | (intro ha; clear_value a) | (unfold a; clear a))) | skip)
    | split

theorem within_sendCopyItem {μ : Nat} {σ x : State} (a0 : Sys2Proof.Machine.CopyItem) (last : Bool)  (hμ : Nat.land 112473702963287425896477835429749431645894586636960433740695063623228337709685121464982532531217198058287187121072371142542177637470283720253975170156621388054528 μ = 112473702963287425896477835429749431645894586636960433740695063623228337709685121464982532531217198058287187121072371142542177637470283720253975170156621388054528) (hw : Within μ σ x) :
    Within μ σ (sendCopyItem a0 last x) := by
  unfold sendCopyItem
  repeat' first
    | with_reducible assumption
    | with_reducible apply Within.refl
    | with_reducible apply Eq.refl
    | ((with_reducible apply fun k => sub_trans k hμ); exact rfl)
    | ((with_reducible apply sub_set hμ); exact rfl)
    | ((with_reducible apply Or.inl); with_reducible apply Eq.refl)
    | ((with_reducible apply Or.inr); (with_reducible apply sub_set hμ); exact rfl)
    | intro _
    | with_reducible apply Within.ite
    | with_reducible apply within_copyRecordOf
    | with_reducible apply within_wr
    | with_reducible apply within_sendRecord
    | with_reducible apply Within.foldl
    | (extract_lets +onlyGivenNames a; first | (refine Within.cutAny (μ := μ) (σ := σ) (a := a) ?_ ?_; all_goals (first | (intro ha; clear_value a) | (unfold a; clear a))) | skip)
    | split
    | (with_reducible apply Within.upd)

theorem within_execCopySend {μ : Nat} {σ x : State}   (hμ : Nat.land 112473702963287425896477835429749431645894586636960433740695063623228337709685121464982532641645139606936207720028464938974584876688027274980160052757008968843264 μ = 112473702963287425896477835429749431645894586636960433740695063623228337709685121464982532641645139606936207720028464938974584876688027274980160052757008968843264) (hw : Within μ σ x) :
    WithinOut μ σ (execCopySend x) := by
  unfold execCopySend
  repeat' first
    | with_reducible apply WithinOut.next
    | with_reducible apply WithinOut.ite
    | with_reducible assumption
    | with_reducible apply Within.refl
    | with_reducible apply Eq.refl
    | ((with_reducible apply fun k => sub_trans k hμ); exact rfl)
    | ((with_reducible apply sub_set hμ); exact rfl)
    | ((with_reducible apply Or.inl); with_reducible apply Eq.refl)
    | ((with_reducible apply Or.inr); (with_reducible apply sub_set hμ); exact rfl)
    | intro _
    | with_reducible apply Within.ite
    | with_reducible apply within_beginCopy
    | with_reducible apply within_sendCopyItem
    | with_reducible apply Within.foldl
    | (extract_lets +onlyGivenNames a; first | (refine Within.cutAny (μ := μ) (σ := σ) (a := a) ?_ ?_; all_goals (first | (intro ha; clear_value a) | (unfold a; clear a))) | skip)
    | split
    | (with_reducible apply Within.upd)

theorem within_execTwinLinkChange {μ : Nat} {σ x : State} (lane : ℕ) (up : Bool)  (hμ : Nat.land 3529364097014649719715069748327721287828648423686176893604928525953767389164319917797510977411866056449753649667506303099905795971325873303385420783458352908288 μ = 3529364097014649719715069748327721287828648423686176893604928525953767389164319917797510977411866056449753649667506303099905795971325873303385420783458352908288) (hw : Within μ σ x) :
    WithinOut μ σ (execTwinLinkChange lane up x) := by
  unfold execTwinLinkChange
  repeat' first
    | with_reducible apply WithinOut.next
    | with_reducible apply WithinOut.ite
    | with_reducible assumption
    | with_reducible apply Within.refl
    | with_reducible apply Eq.refl
    | ((with_reducible apply fun k => sub_trans k hμ); exact rfl)
    | ((with_reducible apply sub_set hμ); exact rfl)
    | intro _
    | with_reducible apply Within.ite
    | with_reducible apply within_twinLaneTo
    | with_reducible apply Within.foldl
    | (extract_lets +onlyGivenNames a; first | (refine Within.cutAny (μ := μ) (σ := σ) (a := a) ?_ ?_; all_goals (first | (intro ha; clear_value a) | (unfold a; clear a))) | skip)
    | split

theorem within_execCopyEnd {μ : Nat} {σ x : State} (h : JHead) (cpos : W32)  (hμ : Nat.land 1348820570494522909226608470726358777084741544103704436983014034414921124444915061651629805499859384839063824028888997771953048493455095104368217122071121699536895 μ = 1348820570494522909226608470726358777084741544103704436983014034414921124444915061651629805499859384839063824028888997771953048493455095104368217122071121699536895) (hw : Within μ σ x) :
    WithinOut μ σ (execCopyEnd h cpos x) := by
  unfold execCopyEnd
  repeat' first
    | with_reducible apply WithinOut.next
    | with_reducible apply WithinOut.ite
    | with_reducible assumption
    | with_reducible apply Within.refl
    | with_reducible apply Eq.refl
    | ((with_reducible apply fun k => sub_trans k hμ); exact rfl)
    | ((with_reducible apply sub_set hμ); exact rfl)
    | ((with_reducible apply Or.inl); with_reducible apply Eq.refl)
    | ((with_reducible apply Or.inr); (with_reducible apply sub_set hμ); exact rfl)
    | intro _
    | with_reducible apply Within.ite
    | with_reducible apply within_pump
    | with_reducible apply within_resumeCopy
    | with_reducible apply within_setRole
    | with_reducible apply within_wr
    | with_reducible apply Within.foldl
    | (extract_lets +onlyGivenNames a; first | (refine Within.cutAny (μ := μ) (σ := σ) (a := a) ?_ ?_; all_goals (first | (intro ha; clear_value a) | (unfold a; clear a))) | skip)
    | split
    | (with_reducible apply Within.upd)

theorem within_execWaitTimeout {μ : Nat} {σ x : State}   (hμ : Nat.land 337501770262368812353584543623637501307986675775657985060645575815330443261460286853560041031873914592910339785746084980796806711794500210586923098544555048304640 μ = 337501770262368812353584543623637501307986675775657985060645575815330443261460286853560041031873914592910339785746084980796806711794500210586923098544555048304640) (hw : Within μ σ x) :
    WithinOut μ σ (execWaitTimeout x) := by
  unfold execWaitTimeout
  repeat' first
    | with_reducible apply WithinOut.next
    | with_reducible apply WithinOut.ite
    | with_reducible assumption
    | with_reducible apply Within.refl
    | with_reducible apply Eq.refl
    | ((with_reducible apply fun k => sub_trans k hμ); exact rfl)
    | ((with_reducible apply sub_set hμ); exact rfl)
    | intro _
    | with_reducible apply Within.ite
    | with_reducible apply within_becomeActive
    | with_reducible apply within_advance
    | with_reducible apply Within.foldl
    | (extract_lets +onlyGivenNames a; first | (refine Within.cutAny (μ := μ) (σ := σ) (a := a) ?_ ?_; all_goals (first | (intro ha; clear_value a) | (unfold a; clear a))) | skip)
    | split

theorem within_execLayerRecord {μ : Nat} {σ x : State} (h : JHead) (last : Bool) (layer : ℕ) (_version : W32) (buf : W32) (off : W32) (data : List Byte)  (hμ : Nat.land 1348820570494522909226608470726358777084741544103704436983014034414921124444915061651629805499859384839063824028888997771953048493455095104368217122071121699536895 μ = 1348820570494522909226608470726358777084741544103704436983014034414921124444915061651629805499859384839063824028888997771953048493455095104368217122071121699536895) (hw : Within μ σ x) :
    WithinOut μ σ (execLayerRecord h last layer _version buf off data x) := by
  unfold execLayerRecord
  repeat' first
    | with_reducible apply WithinOut.next
    | with_reducible apply WithinOut.ite
    | with_reducible assumption
    | with_reducible apply Within.refl
    | with_reducible apply Eq.refl
    | ((with_reducible apply fun k => sub_trans k hμ); exact rfl)
    | ((with_reducible apply sub_set hμ); exact rfl)
    | intro _
    | with_reducible apply Within.ite
    | with_reducible apply within_receive
    | with_reducible apply Within.foldl
    | (extract_lets +onlyGivenNames a; first | (refine Within.cutAny (μ := μ) (σ := σ) (a := a) ?_ ?_; all_goals (first | (intro ha; clear_value a) | (unfold a; clear a))) | skip)
    | split

theorem within_execCommitRecord {μ : Nat} {σ x : State} (h : JHead) (miss : Bool) (c : ℕ) (e : W32) (digest : W32) (tiles : List W32)  (hμ : Nat.land 1348820570494522909226608470726358777084741544103704436983014034414921124444915061651629805499859384839063824028888997771953048493455095104368217122071121699536895 μ = 1348820570494522909226608470726358777084741544103704436983014034414921124444915061651629805499859384839063824028888997771953048493455095104368217122071121699536895) (hw : Within μ σ x) :
    WithinOut μ σ (execCommitRecord h miss c e digest tiles x) := by
  unfold execCommitRecord
  repeat' first
    | with_reducible apply WithinOut.next
    | with_reducible apply WithinOut.ite
    | with_reducible assumption
    | with_reducible apply Within.refl
    | with_reducible apply Eq.refl
    | ((with_reducible apply fun k => sub_trans k hμ); exact rfl)
    | ((with_reducible apply sub_set hμ); exact rfl)
    | intro _
    | with_reducible apply Within.ite
    | with_reducible apply within_receive
    | with_reducible apply Within.foldl
    | (extract_lets +onlyGivenNames a; first | (refine Within.cutAny (μ := μ) (σ := σ) (a := a) ?_ ?_; all_goals (first | (intro ha; clear_value a) | (unfold a; clear a))) | skip)
    | split

theorem within_execAck {μ : Nat} {σ x : State} (_h : JHead) (_jseq : W32) (peer : Byte) (_diverged : Bool) (_t2 : W64) (t3 : W64) (t4 : W64)  (hμ : Nat.land 337500912162661296027370170886037616133834517096245467147469401507398045068562362146553522173479751740903795853250764904537065418018069076401389526904380669820928 μ = 337500912162661296027370170886037616133834517096245467147469401507398045068562362146553522173479751740903795853250764904537065418018069076401389526904380669820928) (hw : Within μ σ x) :
    WithinOut μ σ (execAck _h _jseq peer _diverged _t2 t3 t4 x) := by
  unfold execAck
  repeat' first
    | with_reducible apply WithinOut.next
    | with_reducible apply WithinOut.ite
    | with_reducible assumption
    | with_reducible apply Within.refl
    | with_reducible apply Eq.refl
    | ((with_reducible apply fun k => sub_trans k hμ); exact rfl)
    | ((with_reducible apply sub_set hμ); exact rfl)
    | ((with_reducible apply Or.inl); with_reducible apply Eq.refl)
    | ((with_reducible apply Or.inr); (with_reducible apply sub_set hμ); exact rfl)
    | intro _
    | with_reducible apply Within.ite
    | with_reducible apply within_advance
    | with_reducible apply Within.foldl
    | (extract_lets +onlyGivenNames a; first | (refine Within.cutAny (μ := μ) (σ := σ) (a := a) ?_ ?_; all_goals (first | (intro ha; clear_value a) | (unfold a; clear a))) | skip)
    | split
    | (with_reducible apply Within.upd)

theorem within_execLeaseExpiry {μ : Nat} {σ x : State}   (hμ : Nat.land 1798794327520764114824242104304545939690318489157497819958002325237615109030264620556159344825936408008715642647977785054570320562860521672994819528497131465736191 μ = 1798794327520764114824242104304545939690318489157497819958002325237615109030264620556159344825936408008715642647977785054570320562860521672994819528497131465736191) (hw : Within μ σ x) :
    WithinOut μ σ (execLeaseExpiry x) := by
  unfold execLeaseExpiry
  repeat' first
    | with_reducible apply WithinOut.next
    | with_reducible apply WithinOut.ite
    | with_reducible assumption
    | with_reducible apply Within.refl
    | with_reducible apply Eq.refl
    | ((with_reducible apply fun k => sub_trans k hμ); exact rfl)
    | ((with_reducible apply sub_set hμ); exact rfl)
    | intro _
    | with_reducible apply Within.ite
    | with_reducible apply within_expire
    | with_reducible apply within_advance
    | with_reducible apply Within.foldl
    | (extract_lets +onlyGivenNames a; first | (refine Within.cutAny (μ := μ) (σ := σ) (a := a) ?_ ?_; all_goals (first | (intro ha; clear_value a) | (unfold a; clear a))) | skip)
    | split

theorem within_execLeaseLapse {μ : Nat} {σ x : State}   (hμ : Nat.land 1313751724832129829612429231346201483422628378914190720114335662386548824463848832858712998917380644101195007145261666818536890862615162970473674899682477656262656 μ = 1313751724832129829612429231346201483422628378914190720114335662386548824463848832858712998917380644101195007145261666818536890862615162970473674899682477656262656) (hw : Within μ σ x) :
    WithinOut μ σ (execLeaseLapse x) := by
  unfold execLeaseLapse
  repeat' first
    | with_reducible apply WithinOut.next
    | with_reducible apply WithinOut.ite
    | with_reducible assumption
    | with_reducible apply Within.refl
    | with_reducible apply Eq.refl
    | ((with_reducible apply fun k => sub_trans k hμ); exact rfl)
    | ((with_reducible apply sub_set hμ); exact rfl)
    | intro _
    | with_reducible apply Within.ite
    | with_reducible apply within_lapseToIdle
    | with_reducible apply within_advance
    | with_reducible apply Within.foldl
    | (extract_lets +onlyGivenNames a; first | (refine Within.cutAny (μ := μ) (σ := σ) (a := a) ?_ ?_; all_goals (first | (intro ha; clear_value a) | (unfold a; clear a))) | skip)
    | split

theorem within_execCmdRecord {μ : Nat} {σ x : State} (h : JHead) (entry : List W32) (cpl : List W32)  (hμ : Nat.land 1348820570494522909226608470726358777084741544103704436983014034414921124444915061651629805499859384839063824028888997771953048493455095104368217122071121699536895 μ = 1348820570494522909226608470726358777084741544103704436983014034414921124444915061651629805499859384839063824028888997771953048493455095104368217122071121699536895) (hw : Within μ σ x) :
    WithinOut μ σ (execCmdRecord h entry cpl x) := by
  unfold execCmdRecord
  repeat' first
    | with_reducible apply WithinOut.next
    | with_reducible apply WithinOut.ite
    | with_reducible assumption
    | with_reducible apply Within.refl
    | with_reducible apply Eq.refl
    | ((with_reducible apply fun k => sub_trans k hμ); exact rfl)
    | ((with_reducible apply sub_set hμ); exact rfl)
    | intro _
    | with_reducible apply Within.ite
    | with_reducible apply within_receive
    | with_reducible apply Within.foldl
    | (extract_lets +onlyGivenNames a; first | (refine Within.cutAny (μ := μ) (σ := σ) (a := a) ?_ ?_; all_goals (first | (intro ha; clear_value a) | (unfold a; clear a))) | skip)
    | split

theorem within_execEpstate {μ : Nat} {σ x : State} (h : JHead) (e : ℕ) (status : List W32) (strings : W64)  (hμ : Nat.land 1348820570494522909226608470726358777084741544103704436983014034414921124444915061651629805499859384839063824028888997771953048493455095104368217122071121699536895 μ = 1348820570494522909226608470726358777084741544103704436983014034414921124444915061651629805499859384839063824028888997771953048493455095104368217122071121699536895) (hw : Within μ σ x) :
    WithinOut μ σ (execEpstate h e status strings x) := by
  unfold execEpstate
  repeat' first
    | with_reducible apply WithinOut.next
    | with_reducible apply WithinOut.ite
    | with_reducible assumption
    | with_reducible apply Within.refl
    | with_reducible apply Eq.refl
    | ((with_reducible apply fun k => sub_trans k hμ); exact rfl)
    | ((with_reducible apply sub_set hμ); exact rfl)
    | intro _
    | with_reducible apply Within.ite
    | with_reducible apply within_receive
    | with_reducible apply Within.foldl
    | (extract_lets +onlyGivenNames a; first | (refine Within.cutAny (μ := μ) (σ := σ) (a := a) ?_ ?_; all_goals (first | (intro ha; clear_value a) | (unfold a; clear a))) | skip)
    | split

theorem within_execRenew {μ : Nat} {σ x : State} (h : JHead) (b : W64) (t1 : W64) (_act : Byte) (t3 : W64) (t4 : W64) (t2 : W64)  (hμ : Nat.land 1348902948066444476543188253535947753803348777327306156647926767976431350963115833524255276215547322293723551584625695542249493957311091704093968010410615080222719 μ = 1348902948066444476543188253535947753803348777327306156647926767976431350963115833524255276215547322293723551584625695542249493957311091704093968010410615080222719) (hw : Within μ σ x) :
    WithinOut μ σ (execRenew h b t1 _act t3 t4 t2 x) := by
  unfold execRenew
  repeat' first
    | with_reducible apply WithinOut.next
    | with_reducible apply WithinOut.ite
    | with_reducible assumption
    | with_reducible apply Within.refl
    | with_reducible apply Eq.refl
    | ((with_reducible apply fun k => sub_trans k hμ); exact rfl)
    | ((with_reducible apply sub_set hμ); exact rfl)
    | intro _
    | with_reducible apply Within.ite
    | with_reducible apply within_advance
    | with_reducible apply within_heardRenew
    | with_reducible apply within_beginTrans
    | with_reducible apply within_enterCopy
    | with_reducible apply within_twinEvent
    | with_reducible apply Within.foldl
    | (extract_lets +onlyGivenNames a; first | (refine Within.cutAny (μ := μ) (σ := σ) (a := a) ?_ ?_; all_goals (first | (intro ha; clear_value a) | (unfold a; clear a))) | skip)
    | split

theorem within_execHandover {μ : Nat} {σ x : State} (h : JHead) (b : W64)  (hμ : Nat.land 1348820570494522909226608470726358777084741544103704436983014034414921124444915061651629805499859384839063824028888997771953048493455095104368217122071121699536895 μ = 1348820570494522909226608470726358777084741544103704436983014034414921124444915061651629805499859384839063824028888997771953048493455095104368217122071121699536895) (hw : Within μ σ x) :
    WithinOut μ σ (execHandover h b x) := by
  unfold execHandover
  repeat' first
    | with_reducible apply WithinOut.next
    | with_reducible apply WithinOut.ite
    | with_reducible assumption
    | with_reducible apply Within.refl
    | with_reducible apply Eq.refl
    | ((with_reducible apply fun k => sub_trans k hμ); exact rfl)
    | ((with_reducible apply sub_set hμ); exact rfl)
    | intro _
    | with_reducible apply Within.ite
    | with_reducible apply within_receive
    | with_reducible apply Within.foldl
    | (extract_lets +onlyGivenNames a; first | (refine Within.cutAny (μ := μ) (σ := σ) (a := a) ?_ ?_; all_goals (first | (intro ha; clear_value a) | (unfold a; clear a))) | skip)
    | split

theorem within_execAssume {μ : Nat} {σ x : State} (fn : ℕ)  (hμ : Nat.land 1348817111280076984036556780627909239976440654427322724145522581736068644229795302676509790616290457777979480000669585658551928224953329622153170942189678129840127 μ = 1348817111280076984036556780627909239976440654427322724145522581736068644229795302676509790616290457777979480000669585658551928224953329622153170942189678129840127) (hw : Within μ σ x) :
    WithinOut μ σ (execAssume fn x) := by
  unfold execAssume
  repeat' first
    | with_reducible apply WithinOut.next
    | with_reducible apply WithinOut.ite
    | with_reducible assumption
    | with_reducible apply Within.refl
    | with_reducible apply Eq.refl
    | ((with_reducible apply fun k => sub_trans k hμ); exact rfl)
    | ((with_reducible apply sub_set hμ); exact rfl)
    | intro _
    | with_reducible apply Within.ite
    | with_reducible apply within_hostWrite
    | with_reducible apply within_twinCmdWrite
    | with_reducible apply Within.foldl
    | (extract_lets +onlyGivenNames a; first | (refine Within.cutAny (μ := μ) (σ := σ) (a := a) ?_ ?_; all_goals (first | (intro ha; clear_value a) | (unfold a; clear a))) | skip)
    | split

theorem within_execLeaseRenew {μ : Nat} {σ x : State}   (hμ : Nat.land 1313751724832129829612429231346201483422628378914190720114335662386548824463848832858712998920831517274590289038979044749675403588840717456558868177263739768162304 μ = 1313751724832129829612429231346201483422628378914190720114335662386548824463848832858712998920831517274590289038979044749675403588840717456558868177263739768162304) (hw : Within μ σ x) :
    WithinOut μ σ (execLeaseRenew x) := by
  unfold execLeaseRenew
  repeat' first
    | with_reducible apply WithinOut.next
    | with_reducible apply WithinOut.ite
    | with_reducible assumption
    | with_reducible apply Within.refl
    | with_reducible apply Eq.refl
    | ((with_reducible apply fun k => sub_trans k hμ); exact rfl)
    | ((with_reducible apply sub_set hμ); exact rfl)
    | intro _
    | with_reducible apply Within.ite
    | with_reducible apply within_renewAt
    | with_reducible apply within_advance
    | with_reducible apply within_lapseToIdle
    | with_reducible apply Within.foldl
    | (extract_lets +onlyGivenNames a; first | (refine Within.cutAny (μ := μ) (σ := σ) (a := a) ?_ ?_; all_goals (first | (intro ha; clear_value a) | (unfold a; clear a))) | skip)
    | split

theorem within_execLeaseInEdge {μ : Nat} {σ x : State} (at_ : W64)  (hμ : Nat.land 341030276259675945747085240634365337421663165519931644041074330033351812457726682064351033150891617797353549502918271207636971213989394949704774947687839022729216 μ = 341030276259675945747085240634365337421663165519931644041074330033351812457726682064351033150891617797353549502918271207636971213989394949704774947687839022729216) (hw : Within μ σ x) :
    WithinOut μ σ (execLeaseInEdge at_ x) := by
  unfold execLeaseInEdge
  repeat' first
    | with_reducible apply WithinOut.next
    | with_reducible apply WithinOut.ite
    | with_reducible assumption
    | with_reducible apply Within.refl
    | with_reducible apply Eq.refl
    | ((with_reducible apply fun k => sub_trans k hμ); exact rfl)
    | ((with_reducible apply sub_set hμ); exact rfl)
    | ((with_reducible apply Or.inl); with_reducible apply Eq.refl)
    | ((with_reducible apply Or.inr); (with_reducible apply sub_set hμ); exact rfl)
    | intro _
    | with_reducible apply Within.ite
    | with_reducible apply within_advance
    | with_reducible apply within_put
    | with_reducible apply within_twinEvent
    | with_reducible apply Within.foldl
    | (extract_lets +onlyGivenNames a; first | (refine Within.cutAny (μ := μ) (σ := σ) (a := a) ?_ ?_; all_goals (first | (intro ha; clear_value a) | (unfold a; clear a))) | skip)
    | split
    | (with_reducible apply Within.upd)

theorem within_execResync {μ : Nat} {σ x : State} (fn : ℕ)  (hμ : Nat.land 1348817111280076984036556780627909239976440654427322724145522581736068644229795302676509790616290457777979480000669585658551928224953329622153170942189678129840127 μ = 1348817111280076984036556780627909239976440654427322724145522581736068644229795302676509790616290457777979480000669585658551928224953329622153170942189678129840127) (hw : Within μ σ x) :
    WithinOut μ σ (execResync fn x) := by
  unfold execResync
  repeat' first
    | with_reducible apply WithinOut.next
    | with_reducible apply WithinOut.ite
    | with_reducible assumption
    | with_reducible apply Within.refl
    | with_reducible apply Eq.refl
    | ((with_reducible apply fun k => sub_trans k hμ); exact rfl)
    | ((with_reducible apply sub_set hμ); exact rfl)
    | intro _
    | with_reducible apply Within.ite
    | with_reducible apply within_hostWrite
    | with_reducible apply within_twinCmdWrite
    | with_reducible apply Within.foldl
    | (extract_lets +onlyGivenNames a; first | (refine Within.cutAny (μ := μ) (σ := σ) (a := a) ?_ ?_; all_goals (first | (intro ha; clear_value a) | (unfold a; clear a))) | skip)
    | split

theorem within_execChangeRecord {μ : Nat} {σ x : State} (h : JHead) (id : W32) (ctx : ℕ) (tmode : Byte) (value : W32) (version : W32) (target : W64)  (hμ : Nat.land 1348820570494522909226608470726358777084741544103704436983014034414921124444915061651629805499859384839063824028888997771953048493455095104368217122071121699536895 μ = 1348820570494522909226608470726358777084741544103704436983014034414921124444915061651629805499859384839063824028888997771953048493455095104368217122071121699536895) (hw : Within μ σ x) :
    WithinOut μ σ (execChangeRecord h id ctx tmode value version target x) := by
  unfold execChangeRecord
  repeat' first
    | with_reducible apply WithinOut.next
    | with_reducible apply WithinOut.ite
    | with_reducible assumption
    | with_reducible apply Within.refl
    | with_reducible apply Eq.refl
    | ((with_reducible apply fun k => sub_trans k hμ); exact rfl)
    | ((with_reducible apply sub_set hμ); exact rfl)
    | intro _
    | with_reducible apply Within.ite
    | with_reducible apply within_receive
    | with_reducible apply Within.foldl
    | (extract_lets +onlyGivenNames a; first | (refine Within.cutAny (μ := μ) (σ := σ) (a := a) ?_ ?_; all_goals (first | (intro ha; clear_value a) | (unfold a; clear a))) | skip)
    | split

theorem within_execShadowWaitExpire {μ : Nat} {σ x : State}   (hμ : Nat.land 1348902948066444476543188253535947753803348777327306156647926767976431350963115833524255276215547322293723551584625695542249493957311091704093968010410615080222719 μ = 1348902948066444476543188253535947753803348777327306156647926767976431350963115833524255276215547322293723551584625695542249493957311091704093968010410615080222719) (hw : Within μ σ x) :
    WithinOut μ σ (execShadowWaitExpire x) := by
  unfold execShadowWaitExpire
  repeat' first
    | with_reducible apply WithinOut.next
    | with_reducible apply WithinOut.ite
    | with_reducible assumption
    | with_reducible apply Within.refl
    | with_reducible apply Eq.refl
    | ((with_reducible apply fun k => sub_trans k hμ); exact rfl)
    | ((with_reducible apply sub_set hμ); exact rfl)
    | intro _
    | with_reducible apply Within.ite
    | with_reducible apply within_advance
    | with_reducible apply within_pump
    | with_reducible apply within_commitWaiting
    | with_reducible apply Within.foldl
    | (extract_lets +onlyGivenNames a; first | (refine Within.cutAny (μ := μ) (σ := σ) (a := a) ?_ ?_; all_goals (first | (intro ha; clear_value a) | (unfold a; clear a))) | skip)
    | split

theorem within_execResign {μ : Nat} {σ x : State} (fn : ℕ)  (hμ : Nat.land 1348817111280076984036556780627909239976440654427322724145522581736068644229795302676509790616290457777979480000669585658551928224953329622153170942189678129840127 μ = 1348817111280076984036556780627909239976440654427322724145522581736068644229795302676509790616290457777979480000669585658551928224953329622153170942189678129840127) (hw : Within μ σ x) :
    WithinOut μ σ (execResign fn x) := by
  unfold execResign
  repeat' first
    | with_reducible apply WithinOut.next
    | with_reducible apply WithinOut.ite
    | with_reducible assumption
    | with_reducible apply Within.refl
    | with_reducible apply Eq.refl
    | ((with_reducible apply fun k => sub_trans k hμ); exact rfl)
    | ((with_reducible apply sub_set hμ); exact rfl)
    | intro _
    | with_reducible apply Within.ite
    | with_reducible apply within_hostWrite
    | with_reducible apply within_twinCmdWrite
    | with_reducible apply Within.foldl
    | (extract_lets +onlyGivenNames a; first | (refine Within.cutAny (μ := μ) (σ := σ) (a := a) ?_ ?_; all_goals (first | (intro ha; clear_value a) | (unfold a; clear a))) | skip)
    | split

theorem within_execTakeover {μ : Nat} {σ x : State}   (hμ : Nat.land 376178040279544667487792572725662070694082674256665367737173982944381793556722681051218542048223267849001248826926688267179223942501562766080151207386354450188288 μ = 376178040279544667487792572725662070694082674256665367737173982944381793556722681051218542048223267849001248826926688267179223942501562766080151207386354450188288) (hw : Within μ σ x) :
    WithinOut μ σ (execTakeover x) := by
  unfold execTakeover
  repeat' first
    | with_reducible apply WithinOut.next
    | with_reducible apply WithinOut.ite
    | with_reducible assumption
    | with_reducible apply Within.refl
    | with_reducible apply Eq.refl
    | ((with_reducible apply fun k => sub_trans k hμ); exact rfl)
    | ((with_reducible apply sub_set hμ); exact rfl)
    | ((with_reducible apply Or.inl); with_reducible apply Eq.refl)
    | ((with_reducible apply Or.inr); (with_reducible apply sub_set hμ); exact rfl)
    | intro _
    | with_reducible apply Within.ite
    | with_reducible apply within_advance
    | with_reducible apply within_renewAt
    | with_reducible apply within_setRole
    | with_reducible apply within_wholePicture
    | with_reducible apply within_followDomain
    | with_reducible apply within_enterMode
    | with_reducible apply within_twinEvent
    | with_reducible apply within_bump
    | with_reducible apply Within.foldl
    | (extract_lets +onlyGivenNames a; first | (refine Within.cutAny (μ := μ) (σ := σ) (a := a) ?_ ?_; all_goals (first | (intro ha; clear_value a) | (unfold a; clear a))) | skip)
    | split
    | (with_reducible apply Within.upd)

theorem within_execLeaveSafe {μ : Nat} {σ x : State} (fn : ℕ)  (hμ : Nat.land 1348817111280076984036556780627909239976440654427322724145522581736068644229795302676509790616290457777979480000669585658551928224953329622153170942189678129840127 μ = 1348817111280076984036556780627909239976440654427322724145522581736068644229795302676509790616290457777979480000669585658551928224953329622153170942189678129840127) (hw : Within μ σ x) :
    WithinOut μ σ (execLeaveSafe fn x) := by
  unfold execLeaveSafe
  repeat' first
    | with_reducible apply WithinOut.next
    | with_reducible apply WithinOut.ite
    | with_reducible assumption
    | with_reducible apply Within.refl
    | with_reducible apply Eq.refl
    | ((with_reducible apply fun k => sub_trans k hμ); exact rfl)
    | ((with_reducible apply sub_set hμ); exact rfl)
    | intro _
    | with_reducible apply Within.ite
    | with_reducible apply within_hostWrite
    | with_reducible apply within_twinCmdWrite
    | with_reducible apply Within.foldl
    | (extract_lets +onlyGivenNames a; first | (refine Within.cutAny (μ := μ) (σ := σ) (a := a) ?_ ?_; all_goals (first | (intro ha; clear_value a) | (unfold a; clear a))) | skip)
    | split

/-! ## Bus -/

theorem within_execCalWrite {μ : Nat} {σ x : State} (fn : ℕ) (off : ℕ) (v : W32)  (hμ : Nat.land 1799565383739199253698244407334142761489417572527108447316368451809120660236106090095701267013075390291035241000078373494382818241153271096339299034784173349928959 μ = 1799565383739199253698244407334142761489417572527108447316368451809120660236106090095701267013075390291035241000078373494382818241153271096339299034784173349928959) (hw : Within μ σ x) :
    WithinOut μ σ (execCalWrite fn off v x) := by
  unfold execCalWrite
  repeat' first
    | with_reducible apply WithinOut.next
    | with_reducible apply WithinOut.ite
    | with_reducible assumption
    | with_reducible apply Within.refl
    | with_reducible apply Eq.refl
    | ((with_reducible apply fun k => sub_trans k hμ); exact rfl)
    | ((with_reducible apply sub_set hμ); exact rfl)
    | exact sub_set (sub_trans rfl hμ) (all_reg _)
    | intro _
    | with_reducible apply Within.ite
    | with_reducible apply within_busWrite
    | with_reducible apply Within.foldl
    | (extract_lets +onlyGivenNames a; first | (refine Within.cutAny (μ := μ) (σ := σ) (a := a) ?_ ?_; all_goals (first | (intro ha; clear_value a) | (unfold a; clear a))) | skip)
    | split

theorem within_execShadowedWrite {μ : Nat} {σ x : State} (fn : ℕ) (off : ℕ) (v : W32)  (hμ : Nat.land 1799565383739199253698244407334142761489417572527108447316368451809120660236106090095701267013075390291035241000078373494382818241153271096339299034784173349928959 μ = 1799565383739199253698244407334142761489417572527108447316368451809120660236106090095701267013075390291035241000078373494382818241153271096339299034784173349928959) (hw : Within μ σ x) :
    WithinOut μ σ (execShadowedWrite fn off v x) := by
  unfold execShadowedWrite
  repeat' first
    | with_reducible apply WithinOut.next
    | with_reducible apply WithinOut.ite
    | with_reducible assumption
    | with_reducible apply Within.refl
    | with_reducible apply Eq.refl
    | ((with_reducible apply fun k => sub_trans k hμ); exact rfl)
    | ((with_reducible apply sub_set hμ); exact rfl)
    | exact sub_set (sub_trans rfl hμ) (all_reg _)
    | intro _
    | with_reducible apply Within.ite
    | with_reducible apply within_busWrite
    | with_reducible apply Within.foldl
    | (extract_lets +onlyGivenNames a; first | (refine Within.cutAny (μ := μ) (σ := σ) (a := a) ?_ ?_; all_goals (first | (intro ha; clear_value a) | (unfold a; clear a))) | skip)
    | split

theorem within_execBootGo {μ : Nat} {σ x : State} (fn : ℕ)  (hμ : Nat.land 340947898687754378430505457824776360703055932296329924376161596471841585939525910369698003594252750148745656615678904531993434453557528210907278158603799215753216 μ = 340947898687754378430505457824776360703055932296329924376161596471841585939525910369698003594252750148745656615678904531993434453557528210907278158603799215753216) (hw : Within μ σ x) :
    WithinOut μ σ (execBootGo fn x) := by
  unfold execBootGo
  repeat' first
    | with_reducible apply WithinOut.next
    | with_reducible apply WithinOut.ite
    | with_reducible assumption
    | with_reducible apply Within.refl
    | with_reducible apply Eq.refl
    | ((with_reducible apply fun k => sub_trans k hμ); exact rfl)
    | ((with_reducible apply sub_set hμ); exact rfl)
    | intro _
    | with_reducible apply Within.ite
    | with_reducible apply within_hostWrite
    | with_reducible apply within_bootGoWrite
    | with_reducible apply Within.foldl
    | (extract_lets +onlyGivenNames a; first | (refine Within.cutAny (μ := μ) (σ := σ) (a := a) ?_ ?_; all_goals (first | (intro ha; clear_value a) | (unfold a; clear a))) | skip)
    | split

theorem within_keepSetting {μ : Nat} {σ x : State} (off : ℕ) (setting : Sys2Proof.W32) (before : Sys2Proof.Machine.State)  (hμ : Nat.land 65185151242703554760590262029100101153646988597309960020356494379340201592426774597868716031 μ = 65185151242703554760590262029100101153646988597309960020356494379340201592426774597868716031) (hw : Within μ σ x) :
    Within μ σ (keepSetting off setting before x) := by
  unfold keepSetting
  repeat' first
    | with_reducible assumption
    | with_reducible apply Within.refl
    | with_reducible apply Eq.refl
    | ((with_reducible apply fun k => sub_trans k hμ); exact rfl)
    | ((with_reducible apply sub_set hμ); exact rfl)
    | exact sub_set hμ (all_reg _)
    | intro _
    | with_reducible apply Within.ite
    | with_reducible apply within_wr
    | with_reducible apply Within.foldl
    | (extract_lets +onlyGivenNames a; first | (refine Within.cutAny (μ := μ) (σ := σ) (a := a) ?_ ?_; all_goals (first | (intro ha; clear_value a) | (unfold a; clear a))) | skip)
    | split

theorem within_turnTie {μ : Nat} {σ x : State} (off : ℕ) (loser : ℕ)  (hμ : Nat.land 3514776401986872174070733209129673327241950873673372369609965291102998109899599898686750536018664732148375711432438199315006457855854921632037902485050909261824 μ = 3514776401986872174070733209129673327241950873673372369609965291102998109899599898686750536018664732148375711432438199315006457855854921632037902485050909261824) (hw : Within μ σ x) :
    Within μ σ (turnTie off loser x) := by
  unfold turnTie
  repeat' first
    | with_reducible assumption
    | with_reducible apply Within.refl
    | with_reducible apply Eq.refl
    | ((with_reducible apply fun k => sub_trans k hμ); exact rfl)
    | ((with_reducible apply sub_set hμ); exact rfl)
    | intro _
    | with_reducible apply Within.ite
    | with_reducible apply within_semTieSet
    | with_reducible apply within_busTieSet
    | with_reducible apply Within.foldl
    | (extract_lets +onlyGivenNames a; first | (refine Within.cutAny (μ := μ) (σ := σ) (a := a) ?_ ?_; all_goals (first | (intro ha; clear_value a) | (unfold a; clear a))) | skip)
    | split

theorem within_barWrite {μ : Nat} {σ x : State} (fn : ℕ) (off : ℕ) (v : Sys2Proof.W32) (size : ℕ) (setting : Sys2Proof.W32) (other : Option (ℕ × Sys2Proof.W32))  (hμ : Nat.land 1799565383739199253698244407334142761489417572527108447316368451809120660236106090095701267013075390291035241000078373494382818241153271096339299034784173349928959 μ = 1799565383739199253698244407334142761489417572527108447316368451809120660236106090095701267013075390291035241000078373494382818241153271096339299034784173349928959) (hw : Within μ σ x) :
    Within μ σ (barWrite fn off v size setting other x) := by
  unfold barWrite
  repeat' first
    | with_reducible assumption
    | with_reducible apply Within.refl
    | with_reducible apply Eq.refl
    | ((with_reducible apply fun k => sub_trans k hμ); exact rfl)
    | ((with_reducible apply sub_set hμ); exact rfl)
    | intro _
    | with_reducible apply Within.ite
    | with_reducible apply within_keepSetting
    | with_reducible apply within_sizedWrite
    | with_reducible apply within_turnTie
    | with_reducible apply within_busWrite
    | with_reducible apply Within.foldl
    | (extract_lets +onlyGivenNames a; first | (refine Within.cutAny (μ := μ) (σ := σ) (a := a) ?_ ?_; all_goals (first | (intro ha; clear_value a) | (unfold a; clear a))) | skip)
    | split

theorem within_payVectors {μ : Nat} {σ x : State} (f : ℕ)  (hμ : Nat.land 3514776401986872174070733209129673327241950873673372369609965291102998109899599898686750536018664732148375711432438199315006457855854921632037902485050909261824 μ = 3514776401986872174070733209129673327241950873673372369609965291102998109899599898686750536018664732148375711432438199315006457855854921632037902485050909261824) (hw : Within μ σ x) :
    Within μ σ (payVectors f x) := by
  unfold payVectors
  repeat' first
    | with_reducible assumption
    | with_reducible apply Within.refl
    | with_reducible apply Eq.refl
    | ((with_reducible apply fun k => sub_trans k hμ); exact rfl)
    | ((with_reducible apply sub_set hμ); exact rfl)
    | ((with_reducible apply Or.inl); with_reducible apply Eq.refl)
    | ((with_reducible apply Or.inr); (with_reducible apply sub_set hμ); exact rfl)
    | intro _
    | with_reducible apply Within.ite
    | with_reducible apply within_signalVector
    | with_reducible apply Within.forEach
    | with_reducible apply Within.foldl
    | (extract_lets +onlyGivenNames a; first | (refine Within.cutAny (μ := μ) (σ := σ) (a := a) ?_ ?_; all_goals (first | (intro ha; clear_value a) | (unfold a; clear a))) | skip)
    | split
    | (with_reducible apply Within.upd)

theorem within_bar4Write {μ : Nat} {σ x : State} (f : ℕ) (off : ℕ) (v : Sys2Proof.W32)  (hμ : Nat.land 3514776401986872174070733209129673327241950873673372369609965291102998109899599898686750536018664732148375711432438199315006457855854921632037902485050909261824 μ = 3514776401986872174070733209129673327241950873673372369609965291102998109899599898686750536018664732148375711432438199315006457855854921632037902485050909261824) (hw : Within μ σ x) :
    Within μ σ (bar4Write f off v x) := by
  unfold bar4Write
  repeat' first
    | with_reducible assumption
    | with_reducible apply Within.refl
    | with_reducible apply Eq.refl
    | ((with_reducible apply fun k => sub_trans k hμ); exact rfl)
    | ((with_reducible apply sub_set hμ); exact rfl)
    | ((with_reducible apply Or.inl); with_reducible apply Eq.refl)
    | ((with_reducible apply Or.inr); (with_reducible apply sub_set hμ); exact rfl)
    | intro _
    | with_reducible apply Within.ite
    | with_reducible apply within_payVectors
    | with_reducible apply Within.foldl
    | (extract_lets +onlyGivenNames a; first | (refine Within.cutAny (μ := μ) (σ := σ) (a := a) ?_ ?_; all_goals (first | (intro ha; clear_value a) | (unfold a; clear a))) | skip)
    | split
    | (with_reducible apply Within.upd)

theorem within_configWrite {μ : Nat} {σ x : State} (f : ℕ) (off : ℕ) (v : Sys2Proof.W32)  (hμ : Nat.land 1243373604695543939732881191169619068865644088547268423578929579425995536199431581835600885118930589216367493863915489316503413198946732127930515579172219951007780 μ = 1243373604695543939732881191169619068865644088547268423578929579425995536199431581835600885118930589216367493863915489316503413198946732127930515579172219951007780) (hw : Within μ σ x) :
    Within μ σ (configWrite f off v x) := by
  unfold configWrite
  repeat' first
    | with_reducible assumption
    | with_reducible apply Within.refl
    | with_reducible apply Eq.refl
    | ((with_reducible apply fun k => sub_trans k hμ); exact rfl)
    | ((with_reducible apply sub_set hμ); exact rfl)
    | ((with_reducible apply Or.inl); with_reducible apply Eq.refl)
    | ((with_reducible apply Or.inr); (with_reducible apply sub_set hμ); exact rfl)
    | intro _
    | with_reducible apply Within.ite
    | with_reducible apply within_payVectors
    | with_reducible apply within_setVfs
    | with_reducible apply Within.foldl
    | (extract_lets +onlyGivenNames a; first | (refine Within.cutAny (μ := μ) (σ := σ) (a := a) ?_ ?_; all_goals (first | (intro ha; clear_value a) | (unfold a; clear a))) | skip)
    | split
    | (with_reducible apply Within.upd)

theorem within_execRegisterWrite {μ : Nat} {σ x : State} (fn : ℕ) (sp : Sys2Proof.Space) (off : ℕ) (v : Sys2Proof.W32) (size : ℕ) (setting : Sys2Proof.W32) (other : Option (ℕ × Sys2Proof.W32))  (hμ : Nat.land 1799565383739199253698244407334142761489417572527108447316368451809120660236106090095701267013075390291035241000078373494382818241153271096339299034784173349928959 μ = 1799565383739199253698244407334142761489417572527108447316368451809120660236106090095701267013075390291035241000078373494382818241153271096339299034784173349928959) (hw : Within μ σ x) :
    WithinOut μ σ (execRegisterWrite fn sp off v size setting other x) := by
  unfold execRegisterWrite
  repeat' first
    | with_reducible apply WithinOut.next
    | with_reducible apply WithinOut.ite
    | with_reducible assumption
    | with_reducible apply Within.refl
    | with_reducible apply Eq.refl
    | ((with_reducible apply fun k => sub_trans k hμ); exact rfl)
    | ((with_reducible apply sub_set hμ); exact rfl)
    | intro _
    | with_reducible apply Within.ite
    | with_reducible apply within_barWrite
    | with_reducible apply within_bar4Write
    | with_reducible apply within_configWrite
    | with_reducible apply Within.foldl
    | (extract_lets +onlyGivenNames a; first | (refine Within.cutAny (μ := μ) (σ := σ) (a := a) ?_ ?_; all_goals (first | (intro ha; clear_value a) | (unfold a; clear a))) | skip)
    | split

theorem within_keepRc {μ : Nat} {σ x : State} (off : ℕ) (setting : Sys2Proof.W32)  (hμ : Nat.land 65185151242703554760590262029100101153646988597309960020356494379340201592426774597868716031 μ = 65185151242703554760590262029100101153646988597309960020356494379340201592426774597868716031) (hw : Within μ σ x) :
    Within μ σ (keepRc off setting x) := by
  unfold keepRc
  repeat' first
    | with_reducible assumption
    | with_reducible apply Within.refl
    | with_reducible apply Eq.refl
    | ((with_reducible apply fun k => sub_trans k hμ); exact rfl)
    | ((with_reducible apply sub_set hμ); exact rfl)
    | exact sub_set hμ (all_reg _)
    | intro _
    | with_reducible apply Within.ite
    | with_reducible apply within_wr
    | with_reducible apply Within.foldl
    | (extract_lets +onlyGivenNames a; first | (refine Within.cutAny (μ := μ) (σ := σ) (a := a) ?_ ?_; all_goals (first | (intro ha; clear_value a) | (unfold a; clear a))) | skip)
    | split

theorem within_wordRead {μ : Nat} {σ x : State} (fn : ℕ) (off : ℕ)  (hμ : Nat.land 59765840160036324275235199390502487347084372319923417176937884077847577219765281294528187349312927805166578256129186341082662439283943653600618274565177969999871 μ = 59765840160036324275235199390502487347084372319923417176937884077847577219765281294528187349312927805166578256129186341082662439283943653600618274565177969999871) (hw : Within μ σ x) :
    Within μ σ (wordRead fn off x) := by
  unfold wordRead
  repeat' first
    | with_reducible assumption
    | with_reducible apply Within.refl
    | with_reducible apply Eq.refl
    | ((with_reducible apply fun k => sub_trans k hμ); exact rfl)
    | ((with_reducible apply sub_set hμ); exact rfl)
    | ((with_reducible apply Or.inl); with_reducible apply Eq.refl)
    | ((with_reducible apply Or.inr); (with_reducible apply sub_set hμ); exact rfl)
    | intro _
    | with_reducible apply Within.ite
    | with_reducible apply within_hostRead
    | with_reducible apply within_busRead
    | with_reducible apply within_denied
    | with_reducible apply Within.foldl
    | (extract_lets +onlyGivenNames a; first | (refine Within.cutAny (μ := μ) (σ := σ) (a := a) ?_ ?_; all_goals (first | (intro ha; clear_value a) | (unfold a; clear a))) | skip)
    | split
    | (with_reducible apply Within.upd)

theorem within_sizedRead {μ : Nat} {σ x : State} (fn : ℕ) (off : ℕ) (size : ℕ)  (hμ : Nat.land 59765840160036324275235199390502487347084372319923417176937884077847577219765281294528187349312927805166578256129186341082662439283943653600618274565177969999871 μ = 59765840160036324275235199390502487347084372319923417176937884077847577219765281294528187349312927805166578256129186341082662439283943653600618274565177969999871) (hw : Within μ σ x) :
    Within μ σ (sizedRead fn off size x) := by
  unfold sizedRead
  repeat' first
    | with_reducible assumption
    | with_reducible apply Within.refl
    | with_reducible apply Eq.refl
    | ((with_reducible apply fun k => sub_trans k hμ); exact rfl)
    | ((with_reducible apply sub_set hμ); exact rfl)
    | ((with_reducible apply Or.inl); with_reducible apply Eq.refl)
    | ((with_reducible apply Or.inr); (with_reducible apply sub_set hμ); exact rfl)
    | intro _
    | with_reducible apply Within.ite
    | with_reducible apply within_wordRead
    | with_reducible apply Within.foldl
    | (extract_lets +onlyGivenNames a; first | (refine Within.cutAny (μ := μ) (σ := σ) (a := a) ?_ ?_; all_goals (first | (intro ha; clear_value a) | (unfold a; clear a))) | skip)
    | split
    | (with_reducible apply Within.upd)

theorem within_readPair {μ : Nat} {σ x : State} (fn : ℕ) (off : ℕ) (size : ℕ) (g : ℕ) (w : Option Sys2Proof.W32)  (hμ : Nat.land 1799565383739199253698244407334142761489417572527108447316368451809120660236106090095701267013075390291035241000078373494382818241153271096339299034784173349928959 μ = 1799565383739199253698244407334142761489417572527108447316368451809120660236106090095701267013075390291035241000078373494382818241153271096339299034784173349928959) (hw : Within μ σ x) :
    Within μ σ (readPair fn off size g w x) := by
  unfold readPair
  repeat' first
    | with_reducible assumption
    | with_reducible apply Within.refl
    | with_reducible apply Eq.refl
    | ((with_reducible apply fun k => sub_trans k hμ); exact rfl)
    | ((with_reducible apply sub_set hμ); exact rfl)
    | ((with_reducible apply Or.inl); with_reducible apply Eq.refl)
    | ((with_reducible apply Or.inr); (with_reducible apply sub_set hμ); exact rfl)
    | intro _
    | with_reducible apply Within.ite
    | with_reducible apply within_semReadBoth
    | with_reducible apply within_turnTie
    | with_reducible apply within_sizedRead
    | with_reducible apply within_busWrite
    | with_reducible apply within_wordRead
    | with_reducible apply Within.foldl
    | (extract_lets +onlyGivenNames a; first | (refine Within.cutAny (μ := μ) (σ := σ) (a := a) ?_ ?_; all_goals (first | (intro ha; clear_value a) | (unfold a; clear a))) | skip)
    | split
    | (with_reducible apply Within.upd)

theorem within_execRcRead {μ : Nat} {σ x : State} (fn : ℕ) (sp : Sys2Proof.Space) (off : ℕ) (size : ℕ) (setting : Sys2Proof.W32) (other : Option (ℕ × Option Sys2Proof.W32))  (hμ : Nat.land 1799565383739199253698244407334142761489417572527108447316368451809120660236106090095701267013075390291035241000078373494382818241153271096339299034784173349928959 μ = 1799565383739199253698244407334142761489417572527108447316368451809120660236106090095701267013075390291035241000078373494382818241153271096339299034784173349928959) (hw : Within μ σ x) :
    WithinOut μ σ (execRcRead fn sp off size setting other x) := by
  unfold execRcRead
  repeat' first
    | with_reducible apply WithinOut.next
    | with_reducible apply WithinOut.ite
    | with_reducible assumption
    | with_reducible apply Within.refl
    | with_reducible apply Eq.refl
    | ((with_reducible apply fun k => sub_trans k hμ); exact rfl)
    | ((with_reducible apply sub_set hμ); exact rfl)
    | ((with_reducible apply Or.inl); with_reducible apply Eq.refl)
    | ((with_reducible apply Or.inr); (with_reducible apply sub_set hμ); exact rfl)
    | intro _
    | with_reducible apply Within.ite
    | with_reducible apply within_keepRc
    | with_reducible apply within_sizedRead
    | with_reducible apply within_readPair
    | with_reducible apply Within.foldl
    | (extract_lets +onlyGivenNames a; first | (refine Within.cutAny (μ := μ) (σ := σ) (a := a) ?_ ?_; all_goals (first | (intro ha; clear_value a) | (unfold a; clear a))) | skip)
    | split
    | (with_reducible apply Within.upd)

/-! ## Boot -/

theorem within_execBootImageCheck {μ : Nat} {σ x : State} (flash : Option Sys2Proof.FlashRead)  (hμ : Nat.land 1799565383739199253698244407334142761489417572527108447316368451809120660236106090095701267013075390291035241000078373494382818241153271096339299034784173349928959 μ = 1799565383739199253698244407334142761489417572527108447316368451809120660236106090095701267013075390291035241000078373494382818241153271096339299034784173349928959) (hw : Within μ σ x) :
    WithinOut μ σ (execBootImageCheck flash x) := by
  unfold execBootImageCheck
  repeat' first
    | with_reducible apply WithinOut.next
    | with_reducible apply WithinOut.ite
    | with_reducible assumption
    | with_reducible apply Within.refl
    | with_reducible apply Eq.refl
    | ((with_reducible apply fun k => sub_trans k hμ); exact rfl)
    | ((with_reducible apply sub_set hμ); exact rfl)
    | ((with_reducible apply Or.inl); with_reducible apply Eq.refl)
    | ((with_reducible apply Or.inr); (with_reducible apply sub_set hμ); exact rfl)
    | intro _
    | with_reducible apply Within.ite
    | with_reducible apply within_takeImage
    | with_reducible apply within_bootReject
    | with_reducible apply Within.foldl
    | (extract_lets +onlyGivenNames a; first | (refine Within.cutAny (μ := μ) (σ := σ) (a := a) ?_ ?_; all_goals (first | (intro ha; clear_value a) | (unfold a; clear a))) | skip)
    | split
    | (with_reducible apply Within.upd)

theorem within_noteClock {μ : Nat} {σ x : State} (input : ℕ) (lost : Bool)  (hμ : Nat.land 224945689727159819140526925384299092943484855915095831655037778630591879033574393515952034305194542857496045531676044756160413302774714984450425759043258192756736 μ = 224945689727159819140526925384299092943484855915095831655037778630591879033574393515952034305194542857496045531676044756160413302774714984450425759043258192756736) (hw : Within μ σ x) :
    Within μ σ (noteClock input lost x) := by
  unfold noteClock
  repeat' first
    | with_reducible assumption
    | with_reducible apply Within.refl
    | with_reducible apply Eq.refl
    | ((with_reducible apply fun k => sub_trans k hμ); exact rfl)
    | ((with_reducible apply sub_set hμ); exact rfl)
    | ((with_reducible apply Or.inl); with_reducible apply Eq.refl)
    | ((with_reducible apply Or.inr); (with_reducible apply sub_set hμ); exact rfl)
    | intro _
    | with_reducible apply Within.ite
    | with_reducible apply Within.foldl
    | (extract_lets +onlyGivenNames a; first | (refine Within.cutAny (μ := μ) (σ := σ) (a := a) ?_ ?_; all_goals (first | (intro ha; clear_value a) | (unfold a; clear a))) | skip)
    | split
    | (with_reducible apply Within.upd)

theorem within_execRefClockLoss {μ : Nat} {σ x : State} (input : ℕ) (lost : Bool)  (hμ : Nat.land 1763560726714527900576903299305210692590990857520780663759498486086222356012796855704735684149898734058611319428335989401068402905232869672647943219023672328079360 μ = 1763560726714527900576903299305210692590990857520780663759498486086222356012796855704735684149898734058611319428335989401068402905232869672647943219023672328079360) (hw : Within μ σ x) :
    WithinOut μ σ (execRefClockLoss input lost x) := by
  unfold execRefClockLoss
  repeat' first
    | with_reducible apply WithinOut.next
    | with_reducible apply WithinOut.ite
    | with_reducible assumption
    | with_reducible apply Within.refl
    | with_reducible apply Eq.refl
    | ((with_reducible apply fun k => sub_trans k hμ); exact rfl)
    | ((with_reducible apply sub_set hμ); exact rfl)
    | intro _
    | with_reducible apply Within.ite
    | with_reducible apply within_noteClock
    | with_reducible apply within_reportClock
    | with_reducible apply Within.foldl
    | (extract_lets +onlyGivenNames a; first | (refine Within.cutAny (μ := μ) (σ := σ) (a := a) ?_ ?_; all_goals (first | (intro ha; clear_value a) | (unfold a; clear a))) | skip)
    | split

/-! ## Tick -/

end Sys2Proof.Machine
end

