-- ==== Sys2Proof/Laws/FootprintQ.lean ====
section
/-!
SUPPORT. Every instruction keeps a sound state sound.
-/

set_option linter.unreachableTactic false
set_option linter.unusedTactic false

namespace Sys2Proof.Machine

/-- Every register and every part. -/
abbrev allBits : Nat := 1799565504409470623181618303500367745342032719841400832647908851321173588546831118054069297639682044693064936563376499862797255568443837063656836125912416535969791

/-- What a body has done keeps a sound state sound. -/
def Res.Keeps (σ : State) : Res → Prop
  | .keep s t => Within allBits σ s ∧ (Sound σ → Fits t)
  | .gone s => Within allBits σ s
  | .exc _ => True

theorem keeps_keep {σ s : State} {t : Task} (h : Within allBits σ s) (ht : Sound σ → Fits t) : (Res.keep s t).Keeps σ := ⟨h, ht⟩
theorem keeps_gone {σ s : State} (h : Within allBits σ s) : (Res.gone s).Keeps σ := h
theorem keeps_exc {σ : State} (x : Exc) : (Res.exc x).Keeps σ := trivial

/-- An instruction whose body keeps a sound state sound does so. -/
theorem within_issue {σ x : State} (k : Nat) (us : Use) (l : Bool) (body : Body)
    (hb : ∀ y u, Within allBits σ y → (Sound σ → Fits u) → (body y u).Keeps σ) (hw : Within allBits σ x) :
    Within allBits σ (issue k us l body x) := by
  unfold issue
  split
  · exact hw
  · rename_i t ht
    have hf : Sound σ → Fits t := fits_on ht hw
    have h1 : Within allBits σ (tagTick k (charge us t x)) := by
      have h0 : Within allBits σ (charge us t x) := by
        unfold charge
        exact within_draw rfl (hw.sched rfl (fun _ hx => hx.tasks))
      unfold tagTick
      split
      · exact h0.set rfl (fun p hp => by cases p <;> first | rfl | exact Bool.noConfusion hp) rfl rfl rfl rfl
      · exact h0
    split
    · exact within_terminate t _ _ hf rfl hw
    split
    · exact within_terminate t _ _ hf rfl hw
    split
    · exact within_terminate t _ _ hf rfl hw
    · · dsimp only
        have hf1 : Sound σ → Fits (counted x us t) := hf
        split
        · have := hb (tagTick k (charge us t x)) (counted x us t) h1 hf1
          generalize body _ _ = r at this
          cases r with
          | keep s' t' => exact within_setTask t' this.2 rfl this.1
          | gone s' => exact this
          | exc e =>
            show Within allBits σ (raiseExc _ _ _)
            unfold raiseExc
            split
            · exact within_park _ _ _ hf1 rfl h1
            · split
              · exact within_demote _ hf1 rfl h1
              · exact within_terminate _ _ _ hf1 rfl h1
        · exact within_terminate _ _ _ hf1 rfl h1

/-! ## Tasks that keep their slot and context -/

theorem fits_setS {σ : State} {t : Task} (d : BitVec 5) (v : W32) (h : Sound σ → Fits t) : Sound σ → Fits (setS d v t) :=
  fits_same (by unfold setS; split <;> rfl) (by unfold setS; split <;> rfl) h
theorem fits_setP {σ : State} {t : Task} (d : Nat) (v : W16) (h : Sound σ → Fits t) : Sound σ → Fits (setP d v t) :=
  fits_same (by unfold setP; split <;> rfl) (by unfold setP; split <;> rfl) h
theorem fits_writeLanes {σ : State} {t : Task} (f : F) (r : Nat) (v : Nat → W32) (h : Sound σ → Fits t) : Sound σ → Fits (writeLanes f r v t) :=
  fits_same (by rw [writeLanes_frame]) (by rw [writeLanes_frame]) h
theorem fits_writeGroup {σ : State} {t : Task} (f : F) (r : Nat) (v : Nat → Nat → Nat) (h : Sound σ → Fits t) : Sound σ → Fits (writeGroup f r v t) :=
  fits_same (by rw [writeGroup_frame]) (by rw [writeGroup_frame]) h
theorem fits_fold {σ : State} {α : Type} (g : Task → α → Task) (hg : ∀ t x, (g t x).slot = t.slot ∧ (g t x).ctx = t.ctx) (xs : List α) {t : Task}
    (h : Sound σ → Fits t) : Sound σ → Fits (xs.foldl g t) := by
  induction xs generalizing t with
  | nil => exact h
  | cons a xs ih => exact ih (fits_same (hg t a).1 (hg t a).2 h)
theorem fits_writePair {σ : State} {t : Task} (f : F) (r : Nat) (v : Nat → Nat → Nat) (h : Sound σ → Fits t) : Sound σ → Fits (writePair f r v t) := by
  unfold writePair
  refine fits_fold _ ?_ _ h
  intro _ _
  exact ⟨rfl, rfl⟩
theorem fits_advancePc {σ : State} {t : Task} (h : Sound σ → Fits t) : Sound σ → Fits (advancePc t) := h
theorem fits_record {σ : State} {t : Task} (s : State) (k : InKey) (h : Sound σ → Fits t) : Sound σ → Fits (record s k t) :=
  fits_same (by unfold record; split <;> rfl) (by unfold record; split <;> rfl) h
theorem fits_loadRecord {σ : State} {t : Task} (sp : BitVec 2) (f : F) (s : State) (h : Sound σ → Fits t) : Sound σ → Fits (loadRecord sp f s t) := by
  unfold loadRecord; split
  · exact fits_record _ _ h
  · exact h
theorem fits_ite {σ : State} {c : Prop} {_ : Decidable c} {t u : Task} (h1 : Sound σ → Fits t) (h2 : Sound σ → Fits u) : Sound σ → Fits (if c then t else u) := by
  split
  · exact h1
  · exact h2
theorem fits_setPkt {σ : State} {t : Task} (b : PktBuf) (h : Sound σ → Fits t) : Sound σ → Fits (setPkt b t) := h
theorem fits_dropPkt {σ : State} {t : Task} (b : W32) (h : Sound σ → Fits t) : Sound σ → Fits (dropPkt b t) := h

/-! ## Shared forms -/

theorem within_pure {σ x : State} (k : Nat) (us : Use) (l : Bool) (g : Task → Task) (hg : ∀ u, (Sound σ → Fits u) → (Sound σ → Fits (g u)))
    (hw : Within allBits σ x) : Within allBits σ (issue k us l (pureBody g) x) :=
  within_issue _ _ _ _ (fun y u hy hu => keeps_keep hy (fits_advancePc (hg u hu))) hw

theorem within_scalarOp {σ x : State} (k : Nat) (f : F) (us : Use) (l : Bool) (v : Task → W32) (hw : Within allBits σ x) :
    Within allBits σ (scalarOp k f us l v x) := within_pure _ _ _ _ (fun u hu => fits_ite (fits_setS _ _ hu) hu) hw
theorem within_predOp {σ x : State} (k : Nat) (f : F) (srcs : List Nat) (l : Bool) (v : Task → W16) (hw : Within allBits σ x) :
    Within allBits σ (predOp k f srcs l v x) := within_pure _ _ _ _ (fun u hu => fits_ite (fits_setP _ _ hu) hu) hw
theorem within_vecOp {σ x : State} (k : Nat) (f : F) (us : Use) (l : Bool) (v : Task → Nat → W32) (hw : Within allBits σ x) :
    Within allBits σ (vecOp k f us l v x) := within_pure _ _ _ _ (fun u hu => fits_writeLanes _ _ _ hu) hw
theorem within_vecCmp {σ x : State} (k : Nat) (f : F) (l : Bool) (v : Task → Nat → Bool) (hw : Within allBits σ x) :
    Within allBits σ (vecCmp k f l v x) := within_pure _ _ _ _ (fun u hu => fits_setP _ _ hu) hw
theorem within_groupOp {σ x : State} (k : Nat) (f : F) (us : Use) (l : Bool) (v : Task → Nat → Nat → Nat) (hw : Within allBits σ x) :
    Within allBits σ (groupOp k f us l v x) := within_pure _ _ _ _ (fun u hu => fits_writeGroup _ _ _ hu) hw
theorem within_packPair {σ x : State} (k : Nat) (f : F) (g : Nat → Nat) (hw : Within allBits σ x) :
    Within allBits σ (packPair k f g x) := within_pure _ _ _ _ (fun u hu => fits_writePair _ _ _ hu) hw

theorem keeps_extra {σ s : State} {t : Task} (n : Nat) (h : Within allBits σ s) (ht : Sound σ → Fits t) : (extraCycles n s t).Keeps σ :=
  keeps_keep (h.sched rfl (fun _ hx => hx.tasks)) ht

theorem within_directBranch {σ x : State} (k : Nat) (f : F) (l link : Bool) (c : Task → Bool) (hw : Within allBits σ x) :
    Within allBits σ (directBranch k f l link c x) := by
  unfold directBranch
  refine within_issue _ _ _ _ (fun y u hy hu => ?_) hw
  split
  · exact keeps_extra _ hy (fits_ite (t := setS 31 (u.pc + 8) u) (fits_setS _ _ hu) hu)
  · exact keeps_extra _ hy (fits_advancePc hu)

theorem within_indirectBranch {σ x : State} (k : Nat) (f : F) (l link : Bool) (hw : Within allBits σ x) :
    Within allBits σ (indirectBranch k f l link x) := by
  unfold indirectBranch
  refine within_issue _ _ _ _ (fun y u hy hu => ?_) hw
  split
  · dsimp only
    split
    · exact keeps_exc _
    · exact keeps_extra _ hy (fits_ite (t := setS 31 (u.pc + 8) u) (fits_setS _ _ hu) hu)
  · exact keeps_extra _ hy (fits_advancePc hu)

theorem within_noteTimed {σ x : State} (k : InKey) (t : Task) (hw : Within allBits σ x) : Within allBits σ (noteTimed k t x) := by
  unfold noteTimed
  split
  · exact within_markTimed t rfl hw
  · exact hw

theorem within_crTimed {σ x : State} (n : Nat) (t : Task) (hw : Within allBits σ x) : Within allBits σ (crTimed n t x) := by
  unfold crTimed
  split
  · exact within_markTimed t rfl hw
  · exact hw

theorem within_inputRead {σ x : State} (k : Nat) (f : F) (spec ver : Bool) (hw : Within allBits σ x) :
    Within allBits σ (inputRead k f spec ver x) := by
  unfold inputRead
  refine within_issue _ _ _ _ (fun y u hy hu => ?_) hw
  split
  · exact keeps_keep hy (fits_advancePc hu)
  · split
    · exact keeps_exc _
    · split
      · exact keeps_exc _
      · exact keeps_keep (within_noteTimed _ _ hy) (fits_advancePc (fits_setS _ _ (fits_ite (fits_record _ _ hu) hu)))

theorem keeps_storeDo {σ y : State} {u : Task} (sp : BitVec 2) (ty : Nat) (st : Stores) (hy : Within allBits σ y) (hu : Sound σ → Fits u) :
    (storeDo sp ty st y u).Keeps σ := by
  unfold storeDo
  split
  · refine keeps_keep hy (fits_advancePc (fits_fold _ ?_ _ hu))
    intro _ _
    exact ⟨rfl, rfl⟩
  · split
    · exact keeps_keep hy (fits_advancePc hu)
    · split
      · exact keeps_keep (within_bump _ rfl hy) (fits_advancePc hu)
      · exact keeps_keep hy hu
  · exact keeps_keep hy hu

theorem keeps_storeBody {σ y : State} {u : Task} (sp : BitVec 2) (ty : Nat) (f : F) (st : Stores) (hy : Within allBits σ y) (hu : Sound σ → Fits u) :
    (storeBody sp ty f st y u).Keeps σ := by
  unfold storeBody
  split
  · exact keeps_exc _
  · exact keeps_storeDo _ _ _ hy hu

theorem within_pktOp {σ x : State} (k : Nat) (us : Use) (f : F) (l : Bool) (pre : State → Task → Option Exc) (body : Body)
    (hb : ∀ y u, Within allBits σ y → (Sound σ → Fits u) → (body y u).Keeps σ) (hw : Within allBits σ x) :
    Within allBits σ (pktOp k us f l pre body x) := by
  unfold pktOp
  refine within_issue _ _ _ _ (fun y u hy hu => ?_) hw
  split
  · exact keeps_keep hy (fits_advancePc hu)
  · split
    · exact keeps_exc _
    · split
      · exact keeps_exc _
      · split
        · exact keeps_exc _
        · exact hb y u hy hu

theorem within_taskOp {σ x : State} (k cyc : Nat) (f : F) (body : Body)
    (hb : ∀ y u, Within allBits σ y → (Sound σ → Fits u) → (body y u).Keeps σ) (hw : Within allBits σ x) :
    Within allBits σ (taskOp k cyc f body x) := by
  unfold taskOp
  refine within_issue _ _ _ _ (fun y u hy hu => ?_) hw
  split
  · exact hb y u hy hu
  · exact keeps_keep hy (fits_advancePc hu)

theorem fits_cancelTarget {σ y : State} {u v : Task} {h : W32} (hc : cancelTarget y u h = some v) (hy : Within allBits σ y) : Sound σ → Fits v := by
  unfold cancelTarget at hc
  split at hc
  · split at hc
    · split at hc
      · rename_i w hw
        split at hc
        · cases hc; exact fits_at hw hy
        · cases hc
      · cases hc
    · cases hc
  · split at hc
    · rename_i w hw
      split at hc
      · cases hc; exact fits_at hw hy
      · cases hc
    · cases hc

theorem fits_nextSlot {σ y : State} {n : Nat} (h : nextSlot y = some n) (hy : Within allBits σ y) : Sound σ → n < 65536 := by
  intro hs
  have := (hy.sound hs).tasks.2.2
  unfold nextSlot at h
  split at h
  · cases h; assumption
  · exact this n (List.mem_of_mem_head? h)

theorem within_loadWake {σ x : State} (sp : BitVec 2) (offs : List Int) (hw : Within allBits σ x) : Within allBits σ (loadWake sp offs x) := by
  unfold loadWake
  split
  · exact hw
  · exact within_wakeMem rfl hw

/-! ## The instructions -/

theorem within_execAdd {σ x : State} (k : Nat) (f : F) (hw : Within allBits σ x) : WithinOut allBits σ (execAdd k f x) := by
  unfold execAdd
  exact WithinOut.next (within_scalarOp _ _ _ _ _ hw)

theorem within_execSub {σ x : State} (k : Nat) (f : F) (hw : Within allBits σ x) : WithinOut allBits σ (execSub k f x) := by
  unfold execSub
  exact WithinOut.next (within_scalarOp _ _ _ _ _ hw)

theorem within_execAnd {σ x : State} (k : Nat) (f : F) (hw : Within allBits σ x) : WithinOut allBits σ (execAnd k f x) := by
  unfold execAnd
  exact WithinOut.next (within_scalarOp _ _ _ _ _ hw)

theorem within_execOr {σ x : State} (k : Nat) (f : F) (hw : Within allBits σ x) : WithinOut allBits σ (execOr k f x) := by
  unfold execOr
  exact WithinOut.next (within_scalarOp _ _ _ _ _ hw)

theorem within_execXor {σ x : State} (k : Nat) (f : F) (hw : Within allBits σ x) : WithinOut allBits σ (execXor k f x) := by
  unfold execXor
  exact WithinOut.next (within_scalarOp _ _ _ _ _ hw)

theorem within_execShl {σ x : State} (k : Nat) (f : F) (hw : Within allBits σ x) : WithinOut allBits σ (execShl k f x) := by
  unfold execShl
  exact WithinOut.next (within_scalarOp _ _ _ _ _ hw)

theorem within_execShr {σ x : State} (k : Nat) (f : F) (hw : Within allBits σ x) : WithinOut allBits σ (execShr k f x) := by
  unfold execShr
  exact WithinOut.next (within_scalarOp _ _ _ _ _ hw)

theorem within_execSra {σ x : State} (k : Nat) (f : F) (hw : Within allBits σ x) : WithinOut allBits σ (execSra k f x) := by
  unfold execSra
  exact WithinOut.next (within_scalarOp _ _ _ _ _ hw)

theorem within_execSlt {σ x : State} (k : Nat) (f : F) (hw : Within allBits σ x) : WithinOut allBits σ (execSlt k f x) := by
  unfold execSlt
  exact WithinOut.next (within_scalarOp _ _ _ _ _ hw)

theorem within_execSltu {σ x : State} (k : Nat) (f : F) (hw : Within allBits σ x) : WithinOut allBits σ (execSltu k f x) := by
  unfold execSltu
  exact WithinOut.next (within_scalarOp _ _ _ _ _ hw)

theorem within_execMin {σ x : State} (k : Nat) (f : F) (hw : Within allBits σ x) : WithinOut allBits σ (execMin k f x) := by
  unfold execMin
  exact WithinOut.next (within_scalarOp _ _ _ _ _ hw)

theorem within_execMax {σ x : State} (k : Nat) (f : F) (hw : Within allBits σ x) : WithinOut allBits σ (execMax k f x) := by
  unfold execMax
  exact WithinOut.next (within_scalarOp _ _ _ _ _ hw)

theorem within_execMinu {σ x : State} (k : Nat) (f : F) (hw : Within allBits σ x) : WithinOut allBits σ (execMinu k f x) := by
  unfold execMinu
  exact WithinOut.next (within_scalarOp _ _ _ _ _ hw)

theorem within_execMaxu {σ x : State} (k : Nat) (f : F) (hw : Within allBits σ x) : WithinOut allBits σ (execMaxu k f x) := by
  unfold execMaxu
  exact WithinOut.next (within_scalarOp _ _ _ _ _ hw)

theorem within_execSel {σ x : State} (k : Nat) (f : F) (hw : Within allBits σ x) : WithinOut allBits σ (execSel k f x) := by
  unfold execSel
  exact WithinOut.next (within_scalarOp _ _ _ _ _ hw)

theorem within_execMul {σ x : State} (k : Nat) (f : F) (hw : Within allBits σ x) : WithinOut allBits σ (execMul k f x) := by
  unfold execMul
  exact WithinOut.next (within_scalarOp _ _ _ _ _ hw)

theorem within_execMulh {σ x : State} (k : Nat) (f : F) (hw : Within allBits σ x) : WithinOut allBits σ (execMulh k f x) := by
  unfold execMulh
  exact WithinOut.next (within_scalarOp _ _ _ _ _ hw)

theorem within_execMulhu {σ x : State} (k : Nat) (f : F) (hw : Within allBits σ x) : WithinOut allBits σ (execMulhu k f x) := by
  unfold execMulhu
  exact WithinOut.next (within_scalarOp _ _ _ _ _ hw)

theorem within_execMad {σ x : State} (k : Nat) (f : F) (hw : Within allBits σ x) : WithinOut allBits σ (execMad k f x) := by
  unfold execMad
  exact WithinOut.next (within_scalarOp _ _ _ _ _ hw)

theorem within_execDiv {σ x : State} (k : Nat) (f : F) (hw : Within allBits σ x) : WithinOut allBits σ (execDiv k f x) := by
  unfold execDiv
  exact WithinOut.next (within_scalarOp _ _ _ _ _ hw)

theorem within_execDivu {σ x : State} (k : Nat) (f : F) (hw : Within allBits σ x) : WithinOut allBits σ (execDivu k f x) := by
  unfold execDivu
  exact WithinOut.next (within_scalarOp _ _ _ _ _ hw)

theorem within_execRem {σ x : State} (k : Nat) (f : F) (hw : Within allBits σ x) : WithinOut allBits σ (execRem k f x) := by
  unfold execRem
  exact WithinOut.next (within_scalarOp _ _ _ _ _ hw)

theorem within_execRemu {σ x : State} (k : Nat) (f : F) (hw : Within allBits σ x) : WithinOut allBits σ (execRemu k f x) := by
  unfold execRemu
  exact WithinOut.next (within_scalarOp _ _ _ _ _ hw)

theorem within_execPxmul {σ x : State} (k : Nat) (f : F) (hw : Within allBits σ x) : WithinOut allBits σ (execPxmul k f x) := by
  unfold execPxmul
  exact WithinOut.next (within_scalarOp _ _ _ _ _ hw)

theorem within_execPxadd {σ x : State} (k : Nat) (f : F) (hw : Within allBits σ x) : WithinOut allBits σ (execPxadd k f x) := by
  unfold execPxadd
  exact WithinOut.next (within_scalarOp _ _ _ _ _ hw)

theorem within_execPxsub {σ x : State} (k : Nat) (f : F) (hw : Within allBits σ x) : WithinOut allBits σ (execPxsub k f x) := by
  unfold execPxsub
  exact WithinOut.next (within_scalarOp _ _ _ _ _ hw)

theorem within_execPand {σ x : State} (k : Nat) (f : F) (hw : Within allBits σ x) : WithinOut allBits σ (execPand k f x) := by
  unfold execPand
  exact WithinOut.next (within_predOp _ _ _ _ _ hw)

theorem within_execPor {σ x : State} (k : Nat) (f : F) (hw : Within allBits σ x) : WithinOut allBits σ (execPor k f x) := by
  unfold execPor
  exact WithinOut.next (within_predOp _ _ _ _ _ hw)

theorem within_execPxor {σ x : State} (k : Nat) (f : F) (hw : Within allBits σ x) : WithinOut allBits σ (execPxor k f x) := by
  unfold execPxor
  exact WithinOut.next (within_predOp _ _ _ _ _ hw)

theorem within_execPandn {σ x : State} (k : Nat) (f : F) (hw : Within allBits σ x) : WithinOut allBits σ (execPandn k f x) := by
  unfold execPandn
  exact WithinOut.next (within_predOp _ _ _ _ _ hw)

theorem within_execPmov {σ x : State} (k : Nat) (f : F) (hw : Within allBits σ x) : WithinOut allBits σ (execPmov k f x) := by
  unfold execPmov
  exact WithinOut.next (within_predOp _ _ _ _ _ hw)

theorem within_execPrd {σ x : State} (k : Nat) (f : F) (hw : Within allBits σ x) : WithinOut allBits σ (execPrd k f x) := by
  unfold execPrd
  exact WithinOut.next (within_scalarOp _ _ _ _ _ hw)

theorem within_execAddi {σ x : State} (k : Nat) (f : F) (hw : Within allBits σ x) : WithinOut allBits σ (execAddi k f x) := by
  unfold execAddi
  exact WithinOut.next (within_scalarOp _ _ _ _ _ hw)

theorem within_execAndi {σ x : State} (k : Nat) (f : F) (hw : Within allBits σ x) : WithinOut allBits σ (execAndi k f x) := by
  unfold execAndi
  exact WithinOut.next (within_scalarOp _ _ _ _ _ hw)

theorem within_execOri {σ x : State} (k : Nat) (f : F) (hw : Within allBits σ x) : WithinOut allBits σ (execOri k f x) := by
  unfold execOri
  exact WithinOut.next (within_scalarOp _ _ _ _ _ hw)

theorem within_execXori {σ x : State} (k : Nat) (f : F) (hw : Within allBits σ x) : WithinOut allBits σ (execXori k f x) := by
  unfold execXori
  exact WithinOut.next (within_scalarOp _ _ _ _ _ hw)

theorem within_execShli {σ x : State} (k : Nat) (f : F) (hw : Within allBits σ x) : WithinOut allBits σ (execShli k f x) := by
  unfold execShli
  exact WithinOut.next (within_scalarOp _ _ _ _ _ hw)

theorem within_execShri {σ x : State} (k : Nat) (f : F) (hw : Within allBits σ x) : WithinOut allBits σ (execShri k f x) := by
  unfold execShri
  exact WithinOut.next (within_scalarOp _ _ _ _ _ hw)

theorem within_execSrai {σ x : State} (k : Nat) (f : F) (hw : Within allBits σ x) : WithinOut allBits σ (execSrai k f x) := by
  unfold execSrai
  exact WithinOut.next (within_scalarOp _ _ _ _ _ hw)

theorem within_execSlti {σ x : State} (k : Nat) (f : F) (hw : Within allBits σ x) : WithinOut allBits σ (execSlti k f x) := by
  unfold execSlti
  exact WithinOut.next (within_scalarOp _ _ _ _ _ hw)

theorem within_execSltiu {σ x : State} (k : Nat) (f : F) (hw : Within allBits σ x) : WithinOut allBits σ (execSltiu k f x) := by
  unfold execSltiu
  exact WithinOut.next (within_scalarOp _ _ _ _ _ hw)

theorem within_execMuli {σ x : State} (k : Nat) (f : F) (hw : Within allBits σ x) : WithinOut allBits σ (execMuli k f x) := by
  unfold execMuli
  exact WithinOut.next (within_scalarOp _ _ _ _ _ hw)

theorem within_execLi {σ x : State} (k : Nat) (f : F) (hw : Within allBits σ x) : WithinOut allBits σ (execLi k f x) := by
  unfold execLi
  exact WithinOut.next (within_scalarOp _ _ _ _ _ hw)

theorem within_execVadd {σ x : State} (k : Nat) (t : BitVec 3) (f : F) (hw : Within allBits σ x) : WithinOut allBits σ (execVadd k t f x) := by
  unfold execVadd
  exact WithinOut.next (within_vecOp _ _ _ _ _ hw)

theorem within_execVsub {σ x : State} (k : Nat) (t : BitVec 3) (f : F) (hw : Within allBits σ x) : WithinOut allBits σ (execVsub k t f x) := by
  unfold execVsub
  exact WithinOut.next (within_vecOp _ _ _ _ _ hw)

theorem within_execVadds {σ x : State} (k : Nat) (t : BitVec 3) (f : F) (hw : Within allBits σ x) : WithinOut allBits σ (execVadds k t f x) := by
  unfold execVadds
  exact WithinOut.next (within_vecOp _ _ _ _ _ hw)

theorem within_execVsubs {σ x : State} (k : Nat) (t : BitVec 3) (f : F) (hw : Within allBits σ x) : WithinOut allBits σ (execVsubs k t f x) := by
  unfold execVsubs
  exact WithinOut.next (within_vecOp _ _ _ _ _ hw)

theorem within_execVand {σ x : State} (k : Nat) (t : BitVec 3) (f : F) (hw : Within allBits σ x) : WithinOut allBits σ (execVand k t f x) := by
  unfold execVand
  exact WithinOut.next (within_vecOp _ _ _ _ _ hw)

theorem within_execVor {σ x : State} (k : Nat) (t : BitVec 3) (f : F) (hw : Within allBits σ x) : WithinOut allBits σ (execVor k t f x) := by
  unfold execVor
  exact WithinOut.next (within_vecOp _ _ _ _ _ hw)

theorem within_execVxor {σ x : State} (k : Nat) (t : BitVec 3) (f : F) (hw : Within allBits σ x) : WithinOut allBits σ (execVxor k t f x) := by
  unfold execVxor
  exact WithinOut.next (within_vecOp _ _ _ _ _ hw)

theorem within_execVshl {σ x : State} (k : Nat) (t : BitVec 3) (f : F) (hw : Within allBits σ x) : WithinOut allBits σ (execVshl k t f x) := by
  unfold execVshl
  exact WithinOut.next (within_vecOp _ _ _ _ _ hw)

theorem within_execVshr {σ x : State} (k : Nat) (t : BitVec 3) (f : F) (hw : Within allBits σ x) : WithinOut allBits σ (execVshr k t f x) := by
  unfold execVshr
  exact WithinOut.next (within_vecOp _ _ _ _ _ hw)

theorem within_execVmin {σ x : State} (k : Nat) (t : BitVec 3) (f : F) (hw : Within allBits σ x) : WithinOut allBits σ (execVmin k t f x) := by
  unfold execVmin
  exact WithinOut.next (within_vecOp _ _ _ _ _ hw)

theorem within_execVmax {σ x : State} (k : Nat) (t : BitVec 3) (f : F) (hw : Within allBits σ x) : WithinOut allBits σ (execVmax k t f x) := by
  unfold execVmax
  exact WithinOut.next (within_vecOp _ _ _ _ _ hw)

theorem within_execVmul {σ x : State} (k : Nat) (t : BitVec 3) (f : F) (hw : Within allBits σ x) : WithinOut allBits σ (execVmul k t f x) := by
  unfold execVmul
  exact WithinOut.next (within_vecOp _ _ _ _ _ hw)

theorem within_execVmad {σ x : State} (k : Nat) (t : BitVec 3) (f : F) (hw : Within allBits σ x) : WithinOut allBits σ (execVmad k t f x) := by
  unfold execVmad
  exact WithinOut.next (within_vecOp _ _ _ _ _ hw)

theorem within_execVsel {σ x : State} (k : Nat) (t : BitVec 3) (f : F) (hw : Within allBits σ x) : WithinOut allBits σ (execVsel k t f x) := by
  unfold execVsel
  exact WithinOut.next (within_vecOp _ _ _ _ _ hw)

theorem within_execVcmpeq {σ x : State} (k : Nat) (t : BitVec 3) (f : F) (hw : Within allBits σ x) : WithinOut allBits σ (execVcmpeq k t f x) := by
  unfold execVcmpeq
  exact WithinOut.next (within_vecCmp _ _ _ _ hw)

theorem within_execVcmplt {σ x : State} (k : Nat) (t : BitVec 3) (f : F) (hw : Within allBits σ x) : WithinOut allBits σ (execVcmplt k t f x) := by
  unfold execVcmplt
  exact WithinOut.next (within_vecCmp _ _ _ _ hw)

theorem within_execVcmple {σ x : State} (k : Nat) (t : BitVec 3) (f : F) (hw : Within allBits σ x) : WithinOut allBits σ (execVcmple k t f x) := by
  unfold execVcmple
  exact WithinOut.next (within_vecCmp _ _ _ _ hw)

theorem within_execVbcst {σ x : State} (k : Nat) (t : BitVec 3) (f : F) (hw : Within allBits σ x) : WithinOut allBits σ (execVbcst k t f x) := by
  unfold execVbcst
  exact WithinOut.next (within_vecOp _ _ _ _ _ hw)

theorem within_execVext {σ x : State} (k : Nat) (t : BitVec 3) (f : F) (hw : Within allBits σ x) : WithinOut allBits σ (execVext k t f x) := by
  unfold execVext
  refine WithinOut.next (within_pure _ _ _ _ (fun u hu => ?_) hw)
  repeat' first
    | with_reducible apply keeps_exc
    | with_reducible apply keeps_keep
    | with_reducible apply keeps_gone
    | with_reducible assumption
    | with_reducible apply fits_advancePc
    | with_reducible apply fits_setS
    | with_reducible apply fits_writeLanes
    | with_reducible apply fits_writeGroup
    | with_reducible apply fits_record
    | with_reducible apply fits_loadRecord
    | with_reducible apply fits_ite
    | with_reducible apply fits_setPkt
    | with_reducible apply fits_dropPkt
    | with_reducible apply keeps_storeBody
    | with_reducible apply within_noteTimed
    | with_reducible apply within_crTimed
    | refine within_journal _ _ rfl ?_
    | refine within_etabWordWrite _ _ _ rfl ?_
    | refine within_flushStores _ rfl ?_
    | refine within_enqueue _ _ rfl ?_
    | refine within_draw rfl ?_
    | refine within_raise _ _ rfl ?_
    | refine within_loadWake _ _ ?_
    | refine within_wakeMem rfl ?_
    | (with_reducible apply within_yieldTask; rotate_left; exact rfl)
    | (with_reducible apply within_completeOk; rotate_left; exact rfl)
    | with_reducible apply Within.ite
    | exact hu
    | split
    | dsimp only

theorem within_execVradd {σ x : State} (k : Nat) (t : BitVec 3) (f : F) (hw : Within allBits σ x) : WithinOut allBits σ (execVradd k t f x) := by
  unfold execVradd
  refine WithinOut.next (within_pure _ _ _ _ (fun u hu => ?_) hw)
  repeat' first
    | with_reducible apply keeps_exc
    | with_reducible apply keeps_keep
    | with_reducible apply keeps_gone
    | with_reducible assumption
    | with_reducible apply fits_advancePc
    | with_reducible apply fits_setS
    | with_reducible apply fits_writeLanes
    | with_reducible apply fits_writeGroup
    | with_reducible apply fits_record
    | with_reducible apply fits_loadRecord
    | with_reducible apply fits_ite
    | with_reducible apply fits_setPkt
    | with_reducible apply fits_dropPkt
    | with_reducible apply keeps_storeBody
    | with_reducible apply within_noteTimed
    | with_reducible apply within_crTimed
    | refine within_journal _ _ rfl ?_
    | refine within_etabWordWrite _ _ _ rfl ?_
    | refine within_flushStores _ rfl ?_
    | refine within_enqueue _ _ rfl ?_
    | refine within_draw rfl ?_
    | refine within_raise _ _ rfl ?_
    | refine within_loadWake _ _ ?_
    | refine within_wakeMem rfl ?_
    | (with_reducible apply within_yieldTask; rotate_left; exact rfl)
    | (with_reducible apply within_completeOk; rotate_left; exact rfl)
    | with_reducible apply Within.ite
    | exact hu
    | split
    | dsimp only

theorem within_execVperm {σ x : State} (k : Nat) (t : BitVec 3) (f : F) (hw : Within allBits σ x) : WithinOut allBits σ (execVperm k t f x) := by
  unfold execVperm
  exact WithinOut.next (within_vecOp _ _ _ _ _ hw)

theorem within_execVfadd {σ x : State} (k : Nat) (half : Bool) (f : F) (hw : Within allBits σ x) : WithinOut allBits σ (execVfadd k half f x) := by
  unfold execVfadd
  exact WithinOut.next (within_vecOp _ _ _ _ _ hw)

theorem within_execVfsub {σ x : State} (k : Nat) (half : Bool) (f : F) (hw : Within allBits σ x) : WithinOut allBits σ (execVfsub k half f x) := by
  unfold execVfsub
  exact WithinOut.next (within_vecOp _ _ _ _ _ hw)

theorem within_execVfmul {σ x : State} (k : Nat) (half : Bool) (f : F) (hw : Within allBits σ x) : WithinOut allBits σ (execVfmul k half f x) := by
  unfold execVfmul
  exact WithinOut.next (within_vecOp _ _ _ _ _ hw)

theorem within_execVfma {σ x : State} (k : Nat) (half : Bool) (f : F) (hw : Within allBits σ x) : WithinOut allBits σ (execVfma k half f x) := by
  unfold execVfma
  exact WithinOut.next (within_vecOp _ _ _ _ _ hw)

theorem within_execVfmin {σ x : State} (k : Nat) (half : Bool) (f : F) (hw : Within allBits σ x) : WithinOut allBits σ (execVfmin k half f x) := by
  unfold execVfmin
  exact WithinOut.next (within_vecOp _ _ _ _ _ hw)

theorem within_execVfmax {σ x : State} (k : Nat) (half : Bool) (f : F) (hw : Within allBits σ x) : WithinOut allBits σ (execVfmax k half f x) := by
  unfold execVfmax
  exact WithinOut.next (within_vecOp _ _ _ _ _ hw)

theorem within_execVfdiv {σ x : State} (k : Nat) (half : Bool) (f : F) (hw : Within allBits σ x) : WithinOut allBits σ (execVfdiv k half f x) := by
  unfold execVfdiv
  exact WithinOut.next (within_vecOp _ _ _ _ _ hw)

theorem within_execVfsqrt {σ x : State} (k : Nat) (half : Bool) (f : F) (hw : Within allBits σ x) : WithinOut allBits σ (execVfsqrt k half f x) := by
  unfold execVfsqrt
  exact WithinOut.next (within_vecOp _ _ _ _ _ hw)

theorem within_execVfcmpeq {σ x : State} (k : Nat) (half : Bool) (f : F) (hw : Within allBits σ x) : WithinOut allBits σ (execVfcmpeq k half f x) := by
  unfold execVfcmpeq
  exact WithinOut.next (within_vecCmp _ _ _ _ hw)

theorem within_execVfcmplt {σ x : State} (k : Nat) (half : Bool) (f : F) (hw : Within allBits σ x) : WithinOut allBits σ (execVfcmplt k half f x) := by
  unfold execVfcmplt
  exact WithinOut.next (within_vecCmp _ _ _ _ hw)

theorem within_execVfcmple {σ x : State} (k : Nat) (half : Bool) (f : F) (hw : Within allBits σ x) : WithinOut allBits σ (execVfcmple k half f x) := by
  unfold execVfcmple
  exact WithinOut.next (within_vecCmp _ _ _ _ hw)

theorem within_execVftoi {σ x : State} (k : Nat) (half : Bool) (f : F) (hw : Within allBits σ x) : WithinOut allBits σ (execVftoi k half f x) := by
  unfold execVftoi
  exact WithinOut.next (within_vecOp _ _ _ _ _ hw)

theorem within_execVitof {σ x : State} (k : Nat) (half : Bool) (f : F) (hw : Within allBits σ x) : WithinOut allBits σ (execVitof k half f x) := by
  unfold execVitof
  exact WithinOut.next (within_vecOp _ _ _ _ _ hw)

theorem within_execVftopx {σ x : State} (k : Nat) (half : Bool) (f : F) (hw : Within allBits σ x) : WithinOut allBits σ (execVftopx k half f x) := by
  unfold execVftopx
  exact WithinOut.next (within_vecOp _ _ _ _ _ hw)

theorem within_execVpxtof {σ x : State} (k : Nat) (half : Bool) (f : F) (hw : Within allBits σ x) : WithinOut allBits σ (execVpxtof k half f x) := by
  unfold execVpxtof
  exact WithinOut.next (within_vecOp _ _ _ _ _ hw)

theorem within_execVfradd {σ x : State} (k : Nat) (half : Bool) (f : F) (hw : Within allBits σ x) : WithinOut allBits σ (execVfradd k half f x) := by
  unfold execVfradd
  refine WithinOut.next (within_pure _ _ _ _ (fun u hu => ?_) hw)
  repeat' first
    | with_reducible apply keeps_exc
    | with_reducible apply keeps_keep
    | with_reducible apply keeps_gone
    | with_reducible assumption
    | with_reducible apply fits_advancePc
    | with_reducible apply fits_setS
    | with_reducible apply fits_writeLanes
    | with_reducible apply fits_writeGroup
    | with_reducible apply fits_record
    | with_reducible apply fits_loadRecord
    | with_reducible apply fits_ite
    | with_reducible apply fits_setPkt
    | with_reducible apply fits_dropPkt
    | with_reducible apply keeps_storeBody
    | with_reducible apply within_noteTimed
    | with_reducible apply within_crTimed
    | refine within_journal _ _ rfl ?_
    | refine within_etabWordWrite _ _ _ rfl ?_
    | refine within_flushStores _ rfl ?_
    | refine within_enqueue _ _ rfl ?_
    | refine within_draw rfl ?_
    | refine within_raise _ _ rfl ?_
    | refine within_loadWake _ _ ?_
    | refine within_wakeMem rfl ?_
    | (with_reducible apply within_yieldTask; rotate_left; exact rfl)
    | (with_reducible apply within_completeOk; rotate_left; exact rfl)
    | with_reducible apply Within.ite
    | exact hu
    | split
    | dsimp only

theorem within_execVfabs {σ x : State} (k : Nat) (half : Bool) (f : F) (hw : Within allBits σ x) : WithinOut allBits σ (execVfabs k half f x) := by
  unfold execVfabs
  exact WithinOut.next (within_vecOp _ _ _ _ _ hw)

theorem within_execVfneg {σ x : State} (k : Nat) (half : Bool) (f : F) (hw : Within allBits σ x) : WithinOut allBits σ (execVfneg k half f x) := by
  unfold execVfneg
  exact WithinOut.next (within_vecOp _ _ _ _ _ hw)

theorem within_execVmix {σ x : State} (k : Nat) (t : BitVec 3) (f : F) (hw : Within allBits σ x) : WithinOut allBits σ (execVmix k t f x) := by
  unfold execVmix
  exact WithinOut.next (within_groupOp _ _ _ _ _ hw)

theorem within_execVmat3 {σ x : State} (k : Nat) (f : F) (hw : Within allBits σ x) : WithinOut allBits σ (execVmat3 k f x) := by
  unfold execVmat3
  exact WithinOut.next (within_groupOp _ _ _ _ _ hw)

theorem within_execVdith {σ x : State} (k : Nat) (n : BitVec 4) (f : F) (hw : Within allBits σ x) : WithinOut allBits σ (execVdith k n f x) := by
  unfold execVdith
  exact WithinOut.next (within_groupOp _ _ _ _ _ hw)

theorem within_execVunpkP16 {σ x : State} (k : Nat) (f : F) (hw : Within allBits σ x) : WithinOut allBits σ (execVunpkP16 k f x) := by
  unfold execVunpkP16
  exact WithinOut.next (within_groupOp _ _ _ _ _ hw)

theorem within_execVunpkU8 {σ x : State} (k : Nat) (f : F) (hw : Within allBits σ x) : WithinOut allBits σ (execVunpkU8 k f x) := by
  unfold execVunpkU8
  exact WithinOut.next (within_groupOp _ _ _ _ _ hw)

theorem within_execVunpkF16 {σ x : State} (k : Nat) (f : F) (hw : Within allBits σ x) : WithinOut allBits σ (execVunpkF16 k f x) := by
  unfold execVunpkF16
  exact WithinOut.next (within_groupOp _ _ _ _ _ hw)

theorem within_execVpackP16 {σ x : State} (k : Nat) (f : F) (hw : Within allBits σ x) : WithinOut allBits σ (execVpackP16 k f x) := by
  unfold execVpackP16
  exact WithinOut.next (within_packPair _ _ _ hw)

theorem within_execVpackU8 {σ x : State} (k : Nat) (f : F) (hw : Within allBits σ x) : WithinOut allBits σ (execVpackU8 k f x) := by
  unfold execVpackU8
  exact WithinOut.next (within_vecOp _ _ _ _ _ hw)

theorem within_execVpackF16 {σ x : State} (k : Nat) (f : F) (hw : Within allBits σ x) : WithinOut allBits σ (execVpackF16 k f x) := by
  unfold execVpackF16
  exact WithinOut.next (within_packPair _ _ _ hw)

theorem within_execLd {σ x : State} (k : Nat) (sp : BitVec 2) (t : BitVec 3) (f : F) (hw : Within allBits σ x) : WithinOut allBits σ (execLd k sp t f x) := by
  unfold execLd
  refine WithinOut.next (within_issue _ _ _ _ (fun y u hy hu => ?_) hw)
  repeat' first
    | with_reducible apply keeps_exc
    | with_reducible apply keeps_keep
    | with_reducible apply keeps_gone
    | with_reducible assumption
    | with_reducible apply fits_advancePc
    | with_reducible apply fits_setS
    | with_reducible apply fits_writeLanes
    | with_reducible apply fits_writeGroup
    | with_reducible apply fits_record
    | with_reducible apply fits_loadRecord
    | with_reducible apply fits_ite
    | with_reducible apply fits_setPkt
    | with_reducible apply fits_dropPkt
    | with_reducible apply keeps_storeBody
    | with_reducible apply within_noteTimed
    | with_reducible apply within_crTimed
    | refine within_journal _ _ rfl ?_
    | refine within_etabWordWrite _ _ _ rfl ?_
    | refine within_flushStores _ rfl ?_
    | refine within_enqueue _ _ rfl ?_
    | refine within_draw rfl ?_
    | refine within_raise _ _ rfl ?_
    | refine within_loadWake _ _ ?_
    | refine within_wakeMem rfl ?_
    | (with_reducible apply within_yieldTask; rotate_left; exact rfl)
    | (with_reducible apply within_completeOk; rotate_left; exact rfl)
    | with_reducible apply Within.ite
    | exact hu
    | split
    | dsimp only

theorem within_execVld {σ x : State} (k : Nat) (sp : BitVec 2) (t : BitVec 3) (f : F) (hw : Within allBits σ x) : WithinOut allBits σ (execVld k sp t f x) := by
  unfold execVld
  refine WithinOut.next (within_issue _ _ _ _ (fun y u hy hu => ?_) hw)
  repeat' first
    | with_reducible apply keeps_exc
    | with_reducible apply keeps_keep
    | with_reducible apply keeps_gone
    | with_reducible assumption
    | with_reducible apply fits_advancePc
    | with_reducible apply fits_setS
    | with_reducible apply fits_writeLanes
    | with_reducible apply fits_writeGroup
    | with_reducible apply fits_record
    | with_reducible apply fits_loadRecord
    | with_reducible apply fits_ite
    | with_reducible apply fits_setPkt
    | with_reducible apply fits_dropPkt
    | with_reducible apply keeps_storeBody
    | with_reducible apply within_noteTimed
    | with_reducible apply within_crTimed
    | refine within_journal _ _ rfl ?_
    | refine within_etabWordWrite _ _ _ rfl ?_
    | refine within_flushStores _ rfl ?_
    | refine within_enqueue _ _ rfl ?_
    | refine within_draw rfl ?_
    | refine within_raise _ _ rfl ?_
    | refine within_loadWake _ _ ?_
    | refine within_wakeMem rfl ?_
    | (with_reducible apply within_yieldTask; rotate_left; exact rfl)
    | (with_reducible apply within_completeOk; rotate_left; exact rfl)
    | with_reducible apply Within.ite
    | exact hu
    | split
    | dsimp only

theorem within_execVldb {σ x : State} (k : Nat) (sp : BitVec 2) (t : BitVec 3) (f : F) (hw : Within allBits σ x) : WithinOut allBits σ (execVldb k sp t f x) := by
  unfold execVldb
  refine WithinOut.next (within_issue _ _ _ _ (fun y u hy hu => ?_) hw)
  repeat' first
    | with_reducible apply keeps_exc
    | with_reducible apply keeps_keep
    | with_reducible apply keeps_gone
    | with_reducible assumption
    | with_reducible apply fits_advancePc
    | with_reducible apply fits_setS
    | with_reducible apply fits_writeLanes
    | with_reducible apply fits_writeGroup
    | with_reducible apply fits_record
    | with_reducible apply fits_loadRecord
    | with_reducible apply fits_ite
    | with_reducible apply fits_setPkt
    | with_reducible apply fits_dropPkt
    | with_reducible apply keeps_storeBody
    | with_reducible apply within_noteTimed
    | with_reducible apply within_crTimed
    | refine within_journal _ _ rfl ?_
    | refine within_etabWordWrite _ _ _ rfl ?_
    | refine within_flushStores _ rfl ?_
    | refine within_enqueue _ _ rfl ?_
    | refine within_draw rfl ?_
    | refine within_raise _ _ rfl ?_
    | refine within_loadWake _ _ ?_
    | refine within_wakeMem rfl ?_
    | (with_reducible apply within_yieldTask; rotate_left; exact rfl)
    | (with_reducible apply within_completeOk; rotate_left; exact rfl)
    | with_reducible apply Within.ite
    | exact hu
    | split
    | dsimp only

theorem within_execSt {σ x : State} (k : Nat) (sp : BitVec 2) (t : BitVec 3) (f : F) (hw : Within allBits σ x) : WithinOut allBits σ (execSt k sp t f x) := by
  unfold execSt
  refine WithinOut.next (within_issue _ _ _ _ (fun y u hy hu => ?_) hw)
  repeat' first
    | with_reducible apply keeps_exc
    | with_reducible apply keeps_keep
    | with_reducible apply keeps_gone
    | with_reducible assumption
    | with_reducible apply fits_advancePc
    | with_reducible apply fits_setS
    | with_reducible apply fits_writeLanes
    | with_reducible apply fits_writeGroup
    | with_reducible apply fits_record
    | with_reducible apply fits_loadRecord
    | with_reducible apply fits_ite
    | with_reducible apply fits_setPkt
    | with_reducible apply fits_dropPkt
    | with_reducible apply keeps_storeBody
    | with_reducible apply within_noteTimed
    | with_reducible apply within_crTimed
    | refine within_journal _ _ rfl ?_
    | refine within_etabWordWrite _ _ _ rfl ?_
    | refine within_flushStores _ rfl ?_
    | refine within_enqueue _ _ rfl ?_
    | refine within_draw rfl ?_
    | refine within_raise _ _ rfl ?_
    | refine within_loadWake _ _ ?_
    | refine within_wakeMem rfl ?_
    | (with_reducible apply within_yieldTask; rotate_left; exact rfl)
    | (with_reducible apply within_completeOk; rotate_left; exact rfl)
    | with_reducible apply Within.ite
    | exact hu
    | split
    | dsimp only

theorem within_execVst {σ x : State} (k : Nat) (sp : BitVec 2) (t : BitVec 3) (f : F) (hw : Within allBits σ x) : WithinOut allBits σ (execVst k sp t f x) := by
  unfold execVst
  refine WithinOut.next (within_issue _ _ _ _ (fun y u hy hu => ?_) hw)
  repeat' first
    | with_reducible apply keeps_exc
    | with_reducible apply keeps_keep
    | with_reducible apply keeps_gone
    | with_reducible assumption
    | with_reducible apply fits_advancePc
    | with_reducible apply fits_setS
    | with_reducible apply fits_writeLanes
    | with_reducible apply fits_writeGroup
    | with_reducible apply fits_record
    | with_reducible apply fits_loadRecord
    | with_reducible apply fits_ite
    | with_reducible apply fits_setPkt
    | with_reducible apply fits_dropPkt
    | with_reducible apply keeps_storeBody
    | with_reducible apply within_noteTimed
    | with_reducible apply within_crTimed
    | refine within_journal _ _ rfl ?_
    | refine within_etabWordWrite _ _ _ rfl ?_
    | refine within_flushStores _ rfl ?_
    | refine within_enqueue _ _ rfl ?_
    | refine within_draw rfl ?_
    | refine within_raise _ _ rfl ?_
    | refine within_loadWake _ _ ?_
    | refine within_wakeMem rfl ?_
    | (with_reducible apply within_yieldTask; rotate_left; exact rfl)
    | (with_reducible apply within_completeOk; rotate_left; exact rfl)
    | with_reducible apply Within.ite
    | exact hu
    | split
    | dsimp only

theorem within_execVlut {σ x : State} (k : Nat) (t : BitVec 3) (f : F) (hw : Within allBits σ x) : WithinOut allBits σ (execVlut k t f x) := by
  unfold execVlut
  refine WithinOut.next ?_
  unfold lutOp
  refine within_issue _ _ _ _ (fun y u hy hu => ?_) hw
  repeat' first
    | with_reducible apply keeps_exc
    | with_reducible apply keeps_keep
    | with_reducible apply keeps_gone
    | with_reducible assumption
    | with_reducible apply fits_advancePc
    | with_reducible apply fits_setS
    | with_reducible apply fits_writeLanes
    | with_reducible apply fits_writeGroup
    | with_reducible apply fits_record
    | with_reducible apply fits_loadRecord
    | with_reducible apply fits_ite
    | with_reducible apply fits_setPkt
    | with_reducible apply fits_dropPkt
    | with_reducible apply keeps_storeBody
    | with_reducible apply within_noteTimed
    | with_reducible apply within_crTimed
    | refine within_journal _ _ rfl ?_
    | refine within_etabWordWrite _ _ _ rfl ?_
    | refine within_flushStores _ rfl ?_
    | refine within_enqueue _ _ rfl ?_
    | refine within_draw rfl ?_
    | refine within_raise _ _ rfl ?_
    | refine within_loadWake _ _ ?_
    | refine within_wakeMem rfl ?_
    | (with_reducible apply within_yieldTask; rotate_left; exact rfl)
    | (with_reducible apply within_completeOk; rotate_left; exact rfl)
    | with_reducible apply Within.ite
    | exact hu
    | split
    | dsimp only

theorem within_execVluti {σ x : State} (k : Nat) (t : BitVec 3) (f : F) (hw : Within allBits σ x) : WithinOut allBits σ (execVluti k t f x) := by
  unfold execVluti
  refine WithinOut.next ?_
  unfold lutOp
  refine within_issue _ _ _ _ (fun y u hy hu => ?_) hw
  repeat' first
    | with_reducible apply keeps_exc
    | with_reducible apply keeps_keep
    | with_reducible apply keeps_gone
    | with_reducible assumption
    | with_reducible apply fits_advancePc
    | with_reducible apply fits_setS
    | with_reducible apply fits_writeLanes
    | with_reducible apply fits_writeGroup
    | with_reducible apply fits_record
    | with_reducible apply fits_loadRecord
    | with_reducible apply fits_ite
    | with_reducible apply fits_setPkt
    | with_reducible apply fits_dropPkt
    | with_reducible apply keeps_storeBody
    | with_reducible apply within_noteTimed
    | with_reducible apply within_crTimed
    | refine within_journal _ _ rfl ?_
    | refine within_etabWordWrite _ _ _ rfl ?_
    | refine within_flushStores _ rfl ?_
    | refine within_enqueue _ _ rfl ?_
    | refine within_draw rfl ?_
    | refine within_raise _ _ rfl ?_
    | refine within_loadWake _ _ ?_
    | refine within_wakeMem rfl ?_
    | (with_reducible apply within_yieldTask; rotate_left; exact rfl)
    | (with_reducible apply within_completeOk; rotate_left; exact rfl)
    | with_reducible apply Within.ite
    | exact hu
    | split
    | dsimp only

theorem within_execVgath {σ x : State} (k : Nat) (t : BitVec 3) (f : F) (hw : Within allBits σ x) : WithinOut allBits σ (execVgath k t f x) := by
  unfold execVgath
  refine WithinOut.next (within_issue _ _ _ _ (fun y u hy hu => ?_) hw)
  repeat' first
    | with_reducible apply keeps_exc
    | with_reducible apply keeps_keep
    | with_reducible apply keeps_gone
    | with_reducible assumption
    | with_reducible apply fits_advancePc
    | with_reducible apply fits_setS
    | with_reducible apply fits_writeLanes
    | with_reducible apply fits_writeGroup
    | with_reducible apply fits_record
    | with_reducible apply fits_loadRecord
    | with_reducible apply fits_ite
    | with_reducible apply fits_setPkt
    | with_reducible apply fits_dropPkt
    | with_reducible apply keeps_storeBody
    | with_reducible apply within_noteTimed
    | with_reducible apply within_crTimed
    | refine within_journal _ _ rfl ?_
    | refine within_etabWordWrite _ _ _ rfl ?_
    | refine within_flushStores _ rfl ?_
    | refine within_enqueue _ _ rfl ?_
    | refine within_draw rfl ?_
    | refine within_raise _ _ rfl ?_
    | refine within_loadWake _ _ ?_
    | refine within_wakeMem rfl ?_
    | (with_reducible apply within_yieldTask; rotate_left; exact rfl)
    | (with_reducible apply within_completeOk; rotate_left; exact rfl)
    | with_reducible apply Within.ite
    | exact hu
    | split
    | dsimp only

theorem within_execVgathl {σ x : State} (k : Nat) (t : BitVec 3) (f : F) (hw : Within allBits σ x) : WithinOut allBits σ (execVgathl k t f x) := by
  unfold execVgathl
  refine WithinOut.next (within_issue _ _ _ _ (fun y u hy hu => ?_) hw)
  repeat' first
    | with_reducible apply keeps_exc
    | with_reducible apply keeps_keep
    | with_reducible apply keeps_gone
    | with_reducible assumption
    | with_reducible apply fits_advancePc
    | with_reducible apply fits_setS
    | with_reducible apply fits_writeLanes
    | with_reducible apply fits_writeGroup
    | with_reducible apply fits_record
    | with_reducible apply fits_loadRecord
    | with_reducible apply fits_ite
    | with_reducible apply fits_setPkt
    | with_reducible apply fits_dropPkt
    | with_reducible apply keeps_storeBody
    | with_reducible apply within_noteTimed
    | with_reducible apply within_crTimed
    | refine within_journal _ _ rfl ?_
    | refine within_etabWordWrite _ _ _ rfl ?_
    | refine within_flushStores _ rfl ?_
    | refine within_enqueue _ _ rfl ?_
    | refine within_draw rfl ?_
    | refine within_raise _ _ rfl ?_
    | refine within_loadWake _ _ ?_
    | refine within_wakeMem rfl ?_
    | (with_reducible apply within_yieldTask; rotate_left; exact rfl)
    | (with_reducible apply within_completeOk; rotate_left; exact rfl)
    | with_reducible apply Within.ite
    | exact hu
    | split
    | dsimp only

theorem within_execVscat {σ x : State} (k : Nat) (t : BitVec 3) (f : F) (hw : Within allBits σ x) : WithinOut allBits σ (execVscat k t f x) := by
  unfold execVscat
  refine WithinOut.next (within_issue _ _ _ _ (fun y u hy hu => ?_) hw)
  repeat' first
    | with_reducible apply keeps_exc
    | with_reducible apply keeps_keep
    | with_reducible apply keeps_gone
    | with_reducible assumption
    | with_reducible apply fits_advancePc
    | with_reducible apply fits_setS
    | with_reducible apply fits_writeLanes
    | with_reducible apply fits_writeGroup
    | with_reducible apply fits_record
    | with_reducible apply fits_loadRecord
    | with_reducible apply fits_ite
    | with_reducible apply fits_setPkt
    | with_reducible apply fits_dropPkt
    | with_reducible apply keeps_storeBody
    | with_reducible apply within_noteTimed
    | with_reducible apply within_crTimed
    | refine within_journal _ _ rfl ?_
    | refine within_etabWordWrite _ _ _ rfl ?_
    | refine within_flushStores _ rfl ?_
    | refine within_enqueue _ _ rfl ?_
    | refine within_draw rfl ?_
    | refine within_raise _ _ rfl ?_
    | refine within_loadWake _ _ ?_
    | refine within_wakeMem rfl ?_
    | (with_reducible apply within_yieldTask; rotate_left; exact rfl)
    | (with_reducible apply within_completeOk; rotate_left; exact rfl)
    | with_reducible apply Within.ite
    | exact hu
    | split
    | dsimp only

theorem within_execVsamp {σ x : State} (k : Nat) (nearest : Bool) (edge : BitVec 2) (f : F) (hw : Within allBits σ x) : WithinOut allBits σ (execVsamp k nearest edge f x) := by
  unfold execVsamp
  refine WithinOut.next (within_issue _ _ _ _ (fun y u hy hu => ?_) hw)
  repeat' first
    | with_reducible apply keeps_exc
    | with_reducible apply keeps_keep
    | with_reducible apply keeps_gone
    | with_reducible assumption
    | with_reducible apply fits_advancePc
    | with_reducible apply fits_setS
    | with_reducible apply fits_writeLanes
    | with_reducible apply fits_writeGroup
    | with_reducible apply fits_record
    | with_reducible apply fits_loadRecord
    | with_reducible apply fits_ite
    | with_reducible apply fits_setPkt
    | with_reducible apply fits_dropPkt
    | with_reducible apply keeps_storeBody
    | with_reducible apply within_noteTimed
    | with_reducible apply within_crTimed
    | refine within_journal _ _ rfl ?_
    | refine within_etabWordWrite _ _ _ rfl ?_
    | refine within_flushStores _ rfl ?_
    | refine within_enqueue _ _ rfl ?_
    | refine within_draw rfl ?_
    | refine within_raise _ _ rfl ?_
    | refine within_loadWake _ _ ?_
    | refine within_wakeMem rfl ?_
    | (with_reducible apply within_yieldTask; rotate_left; exact rfl)
    | (with_reducible apply within_completeOk; rotate_left; exact rfl)
    | with_reducible apply Within.ite
    | exact hu
    | split
    | dsimp only

theorem within_execSpecIn {σ x : State} (k : Nat) (f : F) (hw : Within allBits σ x) : WithinOut allBits σ (execSpecIn k f x) := by
  unfold execSpecIn
  exact WithinOut.next (within_inputRead _ _ _ _ hw)

theorem within_execFirmIn {σ x : State} (k : Nat) (f : F) (hw : Within allBits σ x) : WithinOut allBits σ (execFirmIn k f x) := by
  unfold execFirmIn
  exact WithinOut.next (within_inputRead _ _ _ _ hw)

theorem within_execSpecVer {σ x : State} (k : Nat) (f : F) (hw : Within allBits σ x) : WithinOut allBits σ (execSpecVer k f x) := by
  unfold execSpecVer
  exact WithinOut.next (within_inputRead _ _ _ _ hw)

theorem within_execFirmVer {σ x : State} (k : Nat) (f : F) (hw : Within allBits σ x) : WithinOut allBits σ (execFirmVer k f x) := by
  unfold execFirmVer
  exact WithinOut.next (within_inputRead _ _ _ _ hw)

theorem within_execEtabRd {σ x : State} (k : Nat) (f : F) (hw : Within allBits σ x) : WithinOut allBits σ (execEtabRd k f x) := by
  unfold execEtabRd
  refine WithinOut.next (within_issue _ _ _ _ (fun y u hy hu => ?_) hw)
  repeat' first
    | with_reducible apply keeps_exc
    | with_reducible apply keeps_keep
    | with_reducible apply keeps_gone
    | with_reducible assumption
    | with_reducible apply fits_advancePc
    | with_reducible apply fits_setS
    | with_reducible apply fits_writeLanes
    | with_reducible apply fits_writeGroup
    | with_reducible apply fits_record
    | with_reducible apply fits_loadRecord
    | with_reducible apply fits_ite
    | with_reducible apply fits_setPkt
    | with_reducible apply fits_dropPkt
    | with_reducible apply keeps_storeBody
    | with_reducible apply within_noteTimed
    | with_reducible apply within_crTimed
    | refine within_journal _ _ rfl ?_
    | refine within_etabWordWrite _ _ _ rfl ?_
    | refine within_flushStores _ rfl ?_
    | refine within_enqueue _ _ rfl ?_
    | refine within_draw rfl ?_
    | refine within_raise _ _ rfl ?_
    | refine within_loadWake _ _ ?_
    | refine within_wakeMem rfl ?_
    | (with_reducible apply within_yieldTask; rotate_left; exact rfl)
    | (with_reducible apply within_completeOk; rotate_left; exact rfl)
    | with_reducible apply Within.ite
    | exact hu
    | split
    | dsimp only

theorem within_execBra {σ x : State} (k : Nat) (f : F) (hw : Within allBits σ x) : WithinOut allBits σ (execBra k f x) := by
  unfold execBra
  exact WithinOut.next (within_directBranch _ _ _ _ _ hw)

theorem within_execBeq {σ x : State} (k : Nat) (f : F) (hw : Within allBits σ x) : WithinOut allBits σ (execBeq k f x) := by
  unfold execBeq
  exact WithinOut.next (within_directBranch _ _ _ _ _ hw)

theorem within_execBne {σ x : State} (k : Nat) (f : F) (hw : Within allBits σ x) : WithinOut allBits σ (execBne k f x) := by
  unfold execBne
  exact WithinOut.next (within_directBranch _ _ _ _ _ hw)

theorem within_execBlt {σ x : State} (k : Nat) (f : F) (hw : Within allBits σ x) : WithinOut allBits σ (execBlt k f x) := by
  unfold execBlt
  exact WithinOut.next (within_directBranch _ _ _ _ _ hw)

theorem within_execBge {σ x : State} (k : Nat) (f : F) (hw : Within allBits σ x) : WithinOut allBits σ (execBge k f x) := by
  unfold execBge
  exact WithinOut.next (within_directBranch _ _ _ _ _ hw)

theorem within_execBltu {σ x : State} (k : Nat) (f : F) (hw : Within allBits σ x) : WithinOut allBits σ (execBltu k f x) := by
  unfold execBltu
  exact WithinOut.next (within_directBranch _ _ _ _ _ hw)

theorem within_execBgeu {σ x : State} (k : Nat) (f : F) (hw : Within allBits σ x) : WithinOut allBits σ (execBgeu k f x) := by
  unfold execBgeu
  exact WithinOut.next (within_directBranch _ _ _ _ _ hw)

theorem within_execBany {σ x : State} (k : Nat) (f : F) (hw : Within allBits σ x) : WithinOut allBits σ (execBany k f x) := by
  unfold execBany
  exact WithinOut.next (within_directBranch _ _ _ _ _ hw)

theorem within_execBall {σ x : State} (k : Nat) (f : F) (hw : Within allBits σ x) : WithinOut allBits σ (execBall k f x) := by
  unfold execBall
  exact WithinOut.next (within_directBranch _ _ _ _ _ hw)

theorem within_execBnone {σ x : State} (k : Nat) (f : F) (hw : Within allBits σ x) : WithinOut allBits σ (execBnone k f x) := by
  unfold execBnone
  exact WithinOut.next (within_directBranch _ _ _ _ _ hw)

theorem within_execCall {σ x : State} (k : Nat) (f : F) (hw : Within allBits σ x) : WithinOut allBits σ (execCall k f x) := by
  unfold execCall
  exact WithinOut.next (within_directBranch _ _ _ _ _ hw)

theorem within_execJr {σ x : State} (k : Nat) (f : F) (hw : Within allBits σ x) : WithinOut allBits σ (execJr k f x) := by
  unfold execJr
  exact WithinOut.next (within_indirectBranch _ _ _ _ hw)

theorem within_execCallr {σ x : State} (k : Nat) (f : F) (hw : Within allBits σ x) : WithinOut allBits σ (execCallr k f x) := by
  unfold execCallr
  exact WithinOut.next (within_indirectBranch _ _ _ _ hw)

theorem within_execYield {σ x : State} (k : Nat) (f : F) (hw : Within allBits σ x) : WithinOut allBits σ (execYield k f x) := by
  unfold execYield
  refine WithinOut.next (within_taskOp _ _ _ _ (fun y u hy hu => ?_) hw)
  exact keeps_gone (within_yieldTask _ (fits_advancePc hu) rfl hy)

theorem within_execDone {σ x : State} (k : Nat) (f : F) (hw : Within allBits σ x) : WithinOut allBits σ (execDone k f x) := by
  unfold execDone
  refine WithinOut.next (within_taskOp _ _ _ _ (fun y u hy hu => ?_) hw)
  exact keeps_gone (within_completeOk _ _ (fits_advancePc hu) rfl hy)

theorem within_execSpawn {σ x : State} (k : Nat) (f : F) (hw : Within allBits σ x) : WithinOut allBits σ (execSpawn k f x) := by
  unfold execSpawn
  refine WithinOut.next (within_taskOp _ _ _ _ (fun y u hy hu => ?_) hw)
  dsimp only
  split
  · exact keeps_exc _
  · split
    · exact keeps_exc _
    · split
      · exact keeps_exc _
      · split
        · exact keeps_gone (within_setTask _ (fits_same rfl rfl hu) rfl hy)
        · rename_i slot hs
          have hn : nextSlot y = some slot := by
            split at hs
            · cases hs
            · exact hs
          exact keeps_keep (within_createTask _ _ _ _ _ _ _ (fits_nextSlot hn hy) rfl hy) (fits_advancePc (fits_setS _ _ (fits_same rfl rfl hu)))

theorem within_execPost {σ x : State} (k : Nat) (f : F) (hw : Within allBits σ x) : WithinOut allBits σ (execPost k f x) := by
  unfold execPost
  refine WithinOut.next (within_taskOp _ _ _ _ (fun y u hy hu => ?_) hw)
  split
  · exact keeps_exc _
  · exact keeps_keep (within_raise _ _ rfl (hy.sched rfl (fun _ hx => hx.tasks))) (fits_advancePc hu)

theorem within_execCancel {σ x : State} (k : Nat) (f : F) (hw : Within allBits σ x) : WithinOut allBits σ (execCancel k f x) := by
  unfold execCancel
  refine WithinOut.next (within_taskOp _ _ _ _ (fun y u hy hu => ?_) hw)
  split
  · exact keeps_exc _
  · split
    · exact keeps_keep hy (fits_advancePc hu)
    · rename_i v hv
      split
      · exact keeps_gone (within_cancelTask _ (fits_advancePc hu) rfl hy)
      · exact keeps_keep (within_cancelTask _ (fits_cancelTarget hv hy) rfl hy) (fits_advancePc hu)

theorem within_execNop {σ x : State} (k : Nat) (f : F) (hw : Within allBits σ x) : WithinOut allBits σ (execNop k f x) := by
  unfold execNop
  refine WithinOut.next (within_pure _ _ _ _ (fun u hu => ?_) hw)
  repeat' first
    | with_reducible apply keeps_exc
    | with_reducible apply keeps_keep
    | with_reducible apply keeps_gone
    | with_reducible assumption
    | with_reducible apply fits_advancePc
    | with_reducible apply fits_setS
    | with_reducible apply fits_writeLanes
    | with_reducible apply fits_writeGroup
    | with_reducible apply fits_record
    | with_reducible apply fits_loadRecord
    | with_reducible apply fits_ite
    | with_reducible apply fits_setPkt
    | with_reducible apply fits_dropPkt
    | with_reducible apply keeps_storeBody
    | with_reducible apply within_noteTimed
    | with_reducible apply within_crTimed
    | refine within_journal _ _ rfl ?_
    | refine within_etabWordWrite _ _ _ rfl ?_
    | refine within_flushStores _ rfl ?_
    | refine within_enqueue _ _ rfl ?_
    | refine within_draw rfl ?_
    | refine within_raise _ _ rfl ?_
    | refine within_loadWake _ _ ?_
    | refine within_wakeMem rfl ?_
    | (with_reducible apply within_yieldTask; rotate_left; exact rfl)
    | (with_reducible apply within_completeOk; rotate_left; exact rfl)
    | with_reducible apply Within.ite
    | exact hu
    | split
    | dsimp only

theorem within_execCrr {σ x : State} (k : Nat) (f : F) (hw : Within allBits σ x) : WithinOut allBits σ (execCrr k f x) := by
  unfold execCrr
  refine WithinOut.next (within_issue _ _ _ _ (fun y u hy hu => ?_) hw)
  repeat' first
    | with_reducible apply keeps_exc
    | with_reducible apply keeps_keep
    | with_reducible apply keeps_gone
    | with_reducible assumption
    | with_reducible apply fits_advancePc
    | with_reducible apply fits_setS
    | with_reducible apply fits_writeLanes
    | with_reducible apply fits_writeGroup
    | with_reducible apply fits_record
    | with_reducible apply fits_loadRecord
    | with_reducible apply fits_ite
    | with_reducible apply fits_setPkt
    | with_reducible apply fits_dropPkt
    | with_reducible apply keeps_storeBody
    | with_reducible apply within_noteTimed
    | with_reducible apply within_crTimed
    | refine within_journal _ _ rfl ?_
    | refine within_etabWordWrite _ _ _ rfl ?_
    | refine within_flushStores _ rfl ?_
    | refine within_enqueue _ _ rfl ?_
    | refine within_draw rfl ?_
    | refine within_raise _ _ rfl ?_
    | refine within_loadWake _ _ ?_
    | refine within_wakeMem rfl ?_
    | (with_reducible apply within_yieldTask; rotate_left; exact rfl)
    | (with_reducible apply within_completeOk; rotate_left; exact rfl)
    | with_reducible apply Within.ite
    | exact hu
    | split
    | dsimp only

theorem within_execVcrr {σ x : State} (k : Nat) (f : F) (hw : Within allBits σ x) : WithinOut allBits σ (execVcrr k f x) := by
  unfold execVcrr
  refine WithinOut.next (within_issue _ _ _ _ (fun y u hy hu => ?_) hw)
  split
  · refine keeps_keep (within_crTimed _ _ hy) (fits_advancePc (fits_fold _ ?_ _ hu))
    intro _ _
    exact ⟨rfl, rfl⟩
  · exact keeps_exc _

theorem within_execFence {σ x : State} (k : Nat) (f : F) (hw : Within allBits σ x) : WithinOut allBits σ (execFence k f x) := by
  unfold execFence
  refine WithinOut.next (within_issue _ _ _ _ (fun y u hy hu => ?_) hw)
  exact keeps_keep (within_flushStores _ rfl hy) (fits_advancePc (fits_same rfl rfl hu))

theorem within_execBrk {σ x : State} (k : Nat) (f : F) (hw : Within allBits σ x) : WithinOut allBits σ (execBrk k f x) := by
  unfold execBrk
  refine WithinOut.next (within_issue _ _ _ _ (fun y u hy hu => ?_) hw)
  repeat' first
    | with_reducible apply keeps_exc
    | with_reducible apply keeps_keep
    | with_reducible apply keeps_gone
    | with_reducible assumption
    | with_reducible apply fits_advancePc
    | with_reducible apply fits_setS
    | with_reducible apply fits_writeLanes
    | with_reducible apply fits_writeGroup
    | with_reducible apply fits_record
    | with_reducible apply fits_loadRecord
    | with_reducible apply fits_ite
    | with_reducible apply fits_setPkt
    | with_reducible apply fits_dropPkt
    | with_reducible apply keeps_storeBody
    | with_reducible apply within_noteTimed
    | with_reducible apply within_crTimed
    | refine within_journal _ _ rfl ?_
    | refine within_etabWordWrite _ _ _ rfl ?_
    | refine within_flushStores _ rfl ?_
    | refine within_enqueue _ _ rfl ?_
    | refine within_draw rfl ?_
    | refine within_raise _ _ rfl ?_
    | refine within_loadWake _ _ ?_
    | refine within_wakeMem rfl ?_
    | (with_reducible apply within_yieldTask; rotate_left; exact rfl)
    | (with_reducible apply within_completeOk; rotate_left; exact rfl)
    | with_reducible apply Within.ite
    | exact hu
    | split
    | dsimp only

theorem within_execTrap {σ x : State} (k : Nat) (f : F) (hw : Within allBits σ x) : WithinOut allBits σ (execTrap k f x) := by
  unfold execTrap
  refine WithinOut.next (within_issue _ _ _ _ (fun y u hy hu => ?_) hw)
  repeat' first
    | with_reducible apply keeps_exc
    | with_reducible apply keeps_keep
    | with_reducible apply keeps_gone
    | with_reducible assumption
    | with_reducible apply fits_advancePc
    | with_reducible apply fits_setS
    | with_reducible apply fits_writeLanes
    | with_reducible apply fits_writeGroup
    | with_reducible apply fits_record
    | with_reducible apply fits_loadRecord
    | with_reducible apply fits_ite
    | with_reducible apply fits_setPkt
    | with_reducible apply fits_dropPkt
    | with_reducible apply keeps_storeBody
    | with_reducible apply within_noteTimed
    | with_reducible apply within_crTimed
    | refine within_journal _ _ rfl ?_
    | refine within_etabWordWrite _ _ _ rfl ?_
    | refine within_flushStores _ rfl ?_
    | refine within_enqueue _ _ rfl ?_
    | refine within_draw rfl ?_
    | refine within_raise _ _ rfl ?_
    | refine within_loadWake _ _ ?_
    | refine within_wakeMem rfl ?_
    | (with_reducible apply within_yieldTask; rotate_left; exact rfl)
    | (with_reducible apply within_completeOk; rotate_left; exact rfl)
    | with_reducible apply Within.ite
    | exact hu
    | split
    | dsimp only

theorem within_execCntAdd {σ x : State} (k : Nat) (f : F) (hw : Within allBits σ x) : WithinOut allBits σ (execCntAdd k f x) := by
  unfold execCntAdd
  refine WithinOut.next (within_issue _ _ _ _ (fun y u hy hu => ?_) hw)
  split
  · exact keeps_exc _
  · refine keeps_keep ?_ (fits_advancePc hu)
    exact hy.set rfl (fun p hp => by cases p <;> first | rfl | exact Bool.noConfusion hp) rfl rfl rfl rfl

theorem within_execReservedInstruction {σ x : State} (k : Nat) (w : W64) (hw : Within allBits σ x) : WithinOut allBits σ (execReservedInstruction k w x) := by
  unfold execReservedInstruction
  split
  · exact WithinOut.next (within_issue _ _ _ _ (fun y u hy hu => keeps_keep hy hu) hw)
  · exact WithinOut.next hw

theorem within_execPktAlloc {σ x : State} (k : Nat) (f : F) (hw : Within allBits σ x) : WithinOut allBits σ (execPktAlloc k f x) := by
  unfold execPktAlloc
  refine WithinOut.next (within_pktOp _ _ _ _ _ _ (fun y u hy hu => ?_) hw)
  repeat' first
    | with_reducible apply keeps_exc
    | with_reducible apply keeps_keep
    | with_reducible apply keeps_gone
    | with_reducible assumption
    | with_reducible apply fits_advancePc
    | with_reducible apply fits_setS
    | with_reducible apply fits_writeLanes
    | with_reducible apply fits_writeGroup
    | with_reducible apply fits_record
    | with_reducible apply fits_loadRecord
    | with_reducible apply fits_ite
    | with_reducible apply fits_setPkt
    | with_reducible apply fits_dropPkt
    | with_reducible apply keeps_storeBody
    | with_reducible apply within_noteTimed
    | with_reducible apply within_crTimed
    | refine within_journal _ _ rfl ?_
    | refine within_etabWordWrite _ _ _ rfl ?_
    | refine within_flushStores _ rfl ?_
    | refine within_enqueue _ _ rfl ?_
    | refine within_draw rfl ?_
    | refine within_raise _ _ rfl ?_
    | refine within_loadWake _ _ ?_
    | refine within_wakeMem rfl ?_
    | (with_reducible apply within_yieldTask; rotate_left; exact rfl)
    | (with_reducible apply within_completeOk; rotate_left; exact rfl)
    | with_reducible apply Within.ite
    | exact hu
    | split
    | dsimp only

theorem within_execPktRd {σ x : State} (k : Nat) (f : F) (hw : Within allBits σ x) : WithinOut allBits σ (execPktRd k f x) := by
  unfold execPktRd
  refine WithinOut.next (within_pktOp _ _ _ _ _ _ (fun y u hy hu => ?_) hw)
  repeat' first
    | with_reducible apply keeps_exc
    | with_reducible apply keeps_keep
    | with_reducible apply keeps_gone
    | with_reducible assumption
    | with_reducible apply fits_advancePc
    | with_reducible apply fits_setS
    | with_reducible apply fits_writeLanes
    | with_reducible apply fits_writeGroup
    | with_reducible apply fits_record
    | with_reducible apply fits_loadRecord
    | with_reducible apply fits_ite
    | with_reducible apply fits_setPkt
    | with_reducible apply fits_dropPkt
    | with_reducible apply keeps_storeBody
    | with_reducible apply within_noteTimed
    | with_reducible apply within_crTimed
    | refine within_journal _ _ rfl ?_
    | refine within_etabWordWrite _ _ _ rfl ?_
    | refine within_flushStores _ rfl ?_
    | refine within_enqueue _ _ rfl ?_
    | refine within_draw rfl ?_
    | refine within_raise _ _ rfl ?_
    | refine within_loadWake _ _ ?_
    | refine within_wakeMem rfl ?_
    | (with_reducible apply within_yieldTask; rotate_left; exact rfl)
    | (with_reducible apply within_completeOk; rotate_left; exact rfl)
    | with_reducible apply Within.ite
    | exact hu
    | split
    | dsimp only

theorem within_execPktWr {σ x : State} (k : Nat) (f : F) (hw : Within allBits σ x) : WithinOut allBits σ (execPktWr k f x) := by
  unfold execPktWr
  refine WithinOut.next (within_pktOp _ _ _ _ _ _ (fun y u hy hu => ?_) hw)
  repeat' first
    | with_reducible apply keeps_exc
    | with_reducible apply keeps_keep
    | with_reducible apply keeps_gone
    | with_reducible assumption
    | with_reducible apply fits_advancePc
    | with_reducible apply fits_setS
    | with_reducible apply fits_writeLanes
    | with_reducible apply fits_writeGroup
    | with_reducible apply fits_record
    | with_reducible apply fits_loadRecord
    | with_reducible apply fits_ite
    | with_reducible apply fits_setPkt
    | with_reducible apply fits_dropPkt
    | with_reducible apply keeps_storeBody
    | with_reducible apply within_noteTimed
    | with_reducible apply within_crTimed
    | refine within_journal _ _ rfl ?_
    | refine within_etabWordWrite _ _ _ rfl ?_
    | refine within_flushStores _ rfl ?_
    | refine within_enqueue _ _ rfl ?_
    | refine within_draw rfl ?_
    | refine within_raise _ _ rfl ?_
    | refine within_loadWake _ _ ?_
    | refine within_wakeMem rfl ?_
    | (with_reducible apply within_yieldTask; rotate_left; exact rfl)
    | (with_reducible apply within_completeOk; rotate_left; exact rfl)
    | with_reducible apply Within.ite
    | exact hu
    | split
    | dsimp only

theorem within_execPktLen {σ x : State} (k : Nat) (f : F) (hw : Within allBits σ x) : WithinOut allBits σ (execPktLen k f x) := by
  unfold execPktLen
  refine WithinOut.next (within_pktOp _ _ _ _ _ _ (fun y u hy hu => ?_) hw)
  repeat' first
    | with_reducible apply keeps_exc
    | with_reducible apply keeps_keep
    | with_reducible apply keeps_gone
    | with_reducible assumption
    | with_reducible apply fits_advancePc
    | with_reducible apply fits_setS
    | with_reducible apply fits_writeLanes
    | with_reducible apply fits_writeGroup
    | with_reducible apply fits_record
    | with_reducible apply fits_loadRecord
    | with_reducible apply fits_ite
    | with_reducible apply fits_setPkt
    | with_reducible apply fits_dropPkt
    | with_reducible apply keeps_storeBody
    | with_reducible apply within_noteTimed
    | with_reducible apply within_crTimed
    | refine within_journal _ _ rfl ?_
    | refine within_etabWordWrite _ _ _ rfl ?_
    | refine within_flushStores _ rfl ?_
    | refine within_enqueue _ _ rfl ?_
    | refine within_draw rfl ?_
    | refine within_raise _ _ rfl ?_
    | refine within_loadWake _ _ ?_
    | refine within_wakeMem rfl ?_
    | (with_reducible apply within_yieldTask; rotate_left; exact rfl)
    | (with_reducible apply within_completeOk; rotate_left; exact rfl)
    | with_reducible apply Within.ite
    | exact hu
    | split
    | dsimp only

theorem within_execPktSend {σ x : State} (k : Nat) (f : F) (hw : Within allBits σ x) : WithinOut allBits σ (execPktSend k f x) := by
  unfold execPktSend
  refine WithinOut.next (within_issue _ _ _ _ (fun y u hy hu => ?_) hw)
  repeat' first
    | with_reducible apply keeps_exc
    | with_reducible apply keeps_keep
    | with_reducible apply keeps_gone
    | with_reducible assumption
    | with_reducible apply fits_advancePc
    | with_reducible apply fits_setS
    | with_reducible apply fits_writeLanes
    | with_reducible apply fits_writeGroup
    | with_reducible apply fits_record
    | with_reducible apply fits_loadRecord
    | with_reducible apply fits_ite
    | with_reducible apply fits_setPkt
    | with_reducible apply fits_dropPkt
    | with_reducible apply keeps_storeBody
    | with_reducible apply within_noteTimed
    | with_reducible apply within_crTimed
    | refine within_journal _ _ rfl ?_
    | refine within_etabWordWrite _ _ _ rfl ?_
    | refine within_flushStores _ rfl ?_
    | refine within_enqueue _ _ rfl ?_
    | refine within_draw rfl ?_
    | refine within_raise _ _ rfl ?_
    | refine within_loadWake _ _ ?_
    | refine within_wakeMem rfl ?_
    | (with_reducible apply within_yieldTask; rotate_left; exact rfl)
    | (with_reducible apply within_completeOk; rotate_left; exact rfl)
    | with_reducible apply Within.ite
    | exact hu
    | split
    | dsimp only

theorem within_execPktFree {σ x : State} (k : Nat) (f : F) (hw : Within allBits σ x) : WithinOut allBits σ (execPktFree k f x) := by
  unfold execPktFree
  refine WithinOut.next (within_pktOp _ _ _ _ _ _ (fun y u hy hu => ?_) hw)
  repeat' first
    | with_reducible apply keeps_exc
    | with_reducible apply keeps_keep
    | with_reducible apply keeps_gone
    | with_reducible assumption
    | with_reducible apply fits_advancePc
    | with_reducible apply fits_setS
    | with_reducible apply fits_writeLanes
    | with_reducible apply fits_writeGroup
    | with_reducible apply fits_record
    | with_reducible apply fits_loadRecord
    | with_reducible apply fits_ite
    | with_reducible apply fits_setPkt
    | with_reducible apply fits_dropPkt
    | with_reducible apply keeps_storeBody
    | with_reducible apply within_noteTimed
    | with_reducible apply within_crTimed
    | refine within_journal _ _ rfl ?_
    | refine within_etabWordWrite _ _ _ rfl ?_
    | refine within_flushStores _ rfl ?_
    | refine within_enqueue _ _ rfl ?_
    | refine within_draw rfl ?_
    | refine within_raise _ _ rfl ?_
    | refine within_loadWake _ _ ?_
    | refine within_wakeMem rfl ?_
    | (with_reducible apply within_yieldTask; rotate_left; exact rfl)
    | (with_reducible apply within_completeOk; rotate_left; exact rfl)
    | with_reducible apply Within.ite
    | exact hu
    | split
    | dsimp only

theorem within_execEtabWr {σ x : State} (k : Nat) (f : F) (hw : Within allBits σ x) : WithinOut allBits σ (execEtabWr k f x) := by
  unfold execEtabWr
  refine WithinOut.next (within_issue _ _ _ _ (fun y u hy hu => ?_) hw)
  repeat' first
    | with_reducible apply keeps_exc
    | with_reducible apply keeps_keep
    | with_reducible apply keeps_gone
    | with_reducible assumption
    | with_reducible apply fits_advancePc
    | with_reducible apply fits_setS
    | with_reducible apply fits_writeLanes
    | with_reducible apply fits_writeGroup
    | with_reducible apply fits_record
    | with_reducible apply fits_loadRecord
    | with_reducible apply fits_ite
    | with_reducible apply fits_setPkt
    | with_reducible apply fits_dropPkt
    | with_reducible apply keeps_storeBody
    | with_reducible apply within_noteTimed
    | with_reducible apply within_crTimed
    | refine within_journal _ _ rfl ?_
    | refine within_etabWordWrite _ _ _ rfl ?_
    | refine within_flushStores _ rfl ?_
    | refine within_enqueue _ _ rfl ?_
    | refine within_draw rfl ?_
    | refine within_raise _ _ rfl ?_
    | refine within_loadWake _ _ ?_
    | refine within_wakeMem rfl ?_
    | (with_reducible apply within_yieldTask; rotate_left; exact rfl)
    | (with_reducible apply within_completeOk; rotate_left; exact rfl)
    | with_reducible apply Within.ite
    | exact hu
    | split
    | dsimp only

end Sys2Proof.Machine
end

