-- ==== Sys2Proof/Laws/Sound.lean ====
section
/-!
SUPPORT. Every command answers a next state, leaves the queue alone, and keeps a sound state sound.
-/

namespace Sys2Proof.Machine

/-- Every command answers a next state, with the queue as it was, and keeps a sound state sound. -/
theorem within_exec (i : Instr) (s : State) : WithinOut allBits s (exec i s) := by
  cases i with
  | add a0 a1 => exact within_execAdd a0 a1 (Within.refl s)
  | sub a0 a1 => exact within_execSub a0 a1 (Within.refl s)
  | and a0 a1 => exact within_execAnd a0 a1 (Within.refl s)
  | or a0 a1 => exact within_execOr a0 a1 (Within.refl s)
  | xor a0 a1 => exact within_execXor a0 a1 (Within.refl s)
  | shl a0 a1 => exact within_execShl a0 a1 (Within.refl s)
  | shr a0 a1 => exact within_execShr a0 a1 (Within.refl s)
  | sra a0 a1 => exact within_execSra a0 a1 (Within.refl s)
  | slt a0 a1 => exact within_execSlt a0 a1 (Within.refl s)
  | sltu a0 a1 => exact within_execSltu a0 a1 (Within.refl s)
  | min a0 a1 => exact within_execMin a0 a1 (Within.refl s)
  | max a0 a1 => exact within_execMax a0 a1 (Within.refl s)
  | minu a0 a1 => exact within_execMinu a0 a1 (Within.refl s)
  | maxu a0 a1 => exact within_execMaxu a0 a1 (Within.refl s)
  | sel a0 a1 => exact within_execSel a0 a1 (Within.refl s)
  | mul a0 a1 => exact within_execMul a0 a1 (Within.refl s)
  | mulh a0 a1 => exact within_execMulh a0 a1 (Within.refl s)
  | mulhu a0 a1 => exact within_execMulhu a0 a1 (Within.refl s)
  | mad a0 a1 => exact within_execMad a0 a1 (Within.refl s)
  | div a0 a1 => exact within_execDiv a0 a1 (Within.refl s)
  | divu a0 a1 => exact within_execDivu a0 a1 (Within.refl s)
  | rem a0 a1 => exact within_execRem a0 a1 (Within.refl s)
  | remu a0 a1 => exact within_execRemu a0 a1 (Within.refl s)
  | pxmul a0 a1 => exact within_execPxmul a0 a1 (Within.refl s)
  | pxadd a0 a1 => exact within_execPxadd a0 a1 (Within.refl s)
  | pxsub a0 a1 => exact within_execPxsub a0 a1 (Within.refl s)
  | pand a0 a1 => exact within_execPand a0 a1 (Within.refl s)
  | por a0 a1 => exact within_execPor a0 a1 (Within.refl s)
  | pxor a0 a1 => exact within_execPxor a0 a1 (Within.refl s)
  | pandn a0 a1 => exact within_execPandn a0 a1 (Within.refl s)
  | pmov a0 a1 => exact within_execPmov a0 a1 (Within.refl s)
  | prd a0 a1 => exact within_execPrd a0 a1 (Within.refl s)
  | addi a0 a1 => exact within_execAddi a0 a1 (Within.refl s)
  | andi a0 a1 => exact within_execAndi a0 a1 (Within.refl s)
  | ori a0 a1 => exact within_execOri a0 a1 (Within.refl s)
  | xori a0 a1 => exact within_execXori a0 a1 (Within.refl s)
  | shli a0 a1 => exact within_execShli a0 a1 (Within.refl s)
  | shri a0 a1 => exact within_execShri a0 a1 (Within.refl s)
  | srai a0 a1 => exact within_execSrai a0 a1 (Within.refl s)
  | slti a0 a1 => exact within_execSlti a0 a1 (Within.refl s)
  | sltiu a0 a1 => exact within_execSltiu a0 a1 (Within.refl s)
  | muli a0 a1 => exact within_execMuli a0 a1 (Within.refl s)
  | li a0 a1 => exact within_execLi a0 a1 (Within.refl s)
  | vadd a0 a1 a2 => exact within_execVadd a0 a1 a2 (Within.refl s)
  | vsub a0 a1 a2 => exact within_execVsub a0 a1 a2 (Within.refl s)
  | vadds a0 a1 a2 => exact within_execVadds a0 a1 a2 (Within.refl s)
  | vsubs a0 a1 a2 => exact within_execVsubs a0 a1 a2 (Within.refl s)
  | vand a0 a1 a2 => exact within_execVand a0 a1 a2 (Within.refl s)
  | vor a0 a1 a2 => exact within_execVor a0 a1 a2 (Within.refl s)
  | vxor a0 a1 a2 => exact within_execVxor a0 a1 a2 (Within.refl s)
  | vshl a0 a1 a2 => exact within_execVshl a0 a1 a2 (Within.refl s)
  | vshr a0 a1 a2 => exact within_execVshr a0 a1 a2 (Within.refl s)
  | vmin a0 a1 a2 => exact within_execVmin a0 a1 a2 (Within.refl s)
  | vmax a0 a1 a2 => exact within_execVmax a0 a1 a2 (Within.refl s)
  | vmul a0 a1 a2 => exact within_execVmul a0 a1 a2 (Within.refl s)
  | vmad a0 a1 a2 => exact within_execVmad a0 a1 a2 (Within.refl s)
  | vsel a0 a1 a2 => exact within_execVsel a0 a1 a2 (Within.refl s)
  | vcmpeq a0 a1 a2 => exact within_execVcmpeq a0 a1 a2 (Within.refl s)
  | vcmplt a0 a1 a2 => exact within_execVcmplt a0 a1 a2 (Within.refl s)
  | vcmple a0 a1 a2 => exact within_execVcmple a0 a1 a2 (Within.refl s)
  | vbcst a0 a1 a2 => exact within_execVbcst a0 a1 a2 (Within.refl s)
  | vext a0 a1 a2 => exact within_execVext a0 a1 a2 (Within.refl s)
  | vradd a0 a1 a2 => exact within_execVradd a0 a1 a2 (Within.refl s)
  | vperm a0 a1 a2 => exact within_execVperm a0 a1 a2 (Within.refl s)
  | vfadd a0 a1 a2 => exact within_execVfadd a0 a1 a2 (Within.refl s)
  | vfsub a0 a1 a2 => exact within_execVfsub a0 a1 a2 (Within.refl s)
  | vfmul a0 a1 a2 => exact within_execVfmul a0 a1 a2 (Within.refl s)
  | vfma a0 a1 a2 => exact within_execVfma a0 a1 a2 (Within.refl s)
  | vfmin a0 a1 a2 => exact within_execVfmin a0 a1 a2 (Within.refl s)
  | vfmax a0 a1 a2 => exact within_execVfmax a0 a1 a2 (Within.refl s)
  | vfdiv a0 a1 a2 => exact within_execVfdiv a0 a1 a2 (Within.refl s)
  | vfsqrt a0 a1 a2 => exact within_execVfsqrt a0 a1 a2 (Within.refl s)
  | vfcmpeq a0 a1 a2 => exact within_execVfcmpeq a0 a1 a2 (Within.refl s)
  | vfcmplt a0 a1 a2 => exact within_execVfcmplt a0 a1 a2 (Within.refl s)
  | vfcmple a0 a1 a2 => exact within_execVfcmple a0 a1 a2 (Within.refl s)
  | vftoi a0 a1 a2 => exact within_execVftoi a0 a1 a2 (Within.refl s)
  | vitof a0 a1 a2 => exact within_execVitof a0 a1 a2 (Within.refl s)
  | vftopx a0 a1 a2 => exact within_execVftopx a0 a1 a2 (Within.refl s)
  | vpxtof a0 a1 a2 => exact within_execVpxtof a0 a1 a2 (Within.refl s)
  | vfradd a0 a1 a2 => exact within_execVfradd a0 a1 a2 (Within.refl s)
  | vfabs a0 a1 a2 => exact within_execVfabs a0 a1 a2 (Within.refl s)
  | vfneg a0 a1 a2 => exact within_execVfneg a0 a1 a2 (Within.refl s)
  | vmix a0 a1 a2 => exact within_execVmix a0 a1 a2 (Within.refl s)
  | vmat3 a0 a1 => exact within_execVmat3 a0 a1 (Within.refl s)
  | vdith a0 a1 a2 => exact within_execVdith a0 a1 a2 (Within.refl s)
  | vunpkP16 a0 a1 => exact within_execVunpkP16 a0 a1 (Within.refl s)
  | vunpkU8 a0 a1 => exact within_execVunpkU8 a0 a1 (Within.refl s)
  | vunpkF16 a0 a1 => exact within_execVunpkF16 a0 a1 (Within.refl s)
  | vpackP16 a0 a1 => exact within_execVpackP16 a0 a1 (Within.refl s)
  | vpackU8 a0 a1 => exact within_execVpackU8 a0 a1 (Within.refl s)
  | vpackF16 a0 a1 => exact within_execVpackF16 a0 a1 (Within.refl s)
  | vlut a0 a1 a2 => exact within_execVlut a0 a1 a2 (Within.refl s)
  | vluti a0 a1 a2 => exact within_execVluti a0 a1 a2 (Within.refl s)
  | vgath a0 a1 a2 => exact within_execVgath a0 a1 a2 (Within.refl s)
  | vgathl a0 a1 a2 => exact within_execVgathl a0 a1 a2 (Within.refl s)
  | vscat a0 a1 a2 => exact within_execVscat a0 a1 a2 (Within.refl s)
  | ld a0 a1 a2 a3 => exact within_execLd a0 a1 a2 a3 (Within.refl s)
  | vld a0 a1 a2 a3 => exact within_execVld a0 a1 a2 a3 (Within.refl s)
  | vldb a0 a1 a2 a3 => exact within_execVldb a0 a1 a2 a3 (Within.refl s)
  | st a0 a1 a2 a3 => exact within_execSt a0 a1 a2 a3 (Within.refl s)
  | vst a0 a1 a2 a3 => exact within_execVst a0 a1 a2 a3 (Within.refl s)
  | reservedInstruction a0 a1 => exact within_execReservedInstruction a0 a1 (Within.refl s)
  | vsamp a0 a1 a2 a3 => exact within_execVsamp a0 a1 a2 a3 (Within.refl s)
  | specIn a0 a1 => exact within_execSpecIn a0 a1 (Within.refl s)
  | firmIn a0 a1 => exact within_execFirmIn a0 a1 (Within.refl s)
  | specVer a0 a1 => exact within_execSpecVer a0 a1 (Within.refl s)
  | firmVer a0 a1 => exact within_execFirmVer a0 a1 (Within.refl s)
  | etabRd a0 a1 => exact within_execEtabRd a0 a1 (Within.refl s)
  | etabWr a0 a1 => exact within_execEtabWr a0 a1 (Within.refl s)
  | pktAlloc a0 a1 => exact within_execPktAlloc a0 a1 (Within.refl s)
  | pktRd a0 a1 => exact within_execPktRd a0 a1 (Within.refl s)
  | pktWr a0 a1 => exact within_execPktWr a0 a1 (Within.refl s)
  | pktLen a0 a1 => exact within_execPktLen a0 a1 (Within.refl s)
  | pktSend a0 a1 => exact within_execPktSend a0 a1 (Within.refl s)
  | pktFree a0 a1 => exact within_execPktFree a0 a1 (Within.refl s)
  | yield a0 a1 => exact within_execYield a0 a1 (Within.refl s)
  | done a0 a1 => exact within_execDone a0 a1 (Within.refl s)
  | spawn a0 a1 => exact within_execSpawn a0 a1 (Within.refl s)
  | post a0 a1 => exact within_execPost a0 a1 (Within.refl s)
  | cancel a0 a1 => exact within_execCancel a0 a1 (Within.refl s)
  | bra a0 a1 => exact within_execBra a0 a1 (Within.refl s)
  | beq a0 a1 => exact within_execBeq a0 a1 (Within.refl s)
  | bne a0 a1 => exact within_execBne a0 a1 (Within.refl s)
  | blt a0 a1 => exact within_execBlt a0 a1 (Within.refl s)
  | bge a0 a1 => exact within_execBge a0 a1 (Within.refl s)
  | bltu a0 a1 => exact within_execBltu a0 a1 (Within.refl s)
  | bgeu a0 a1 => exact within_execBgeu a0 a1 (Within.refl s)
  | bany a0 a1 => exact within_execBany a0 a1 (Within.refl s)
  | ball a0 a1 => exact within_execBall a0 a1 (Within.refl s)
  | bnone a0 a1 => exact within_execBnone a0 a1 (Within.refl s)
  | call a0 a1 => exact within_execCall a0 a1 (Within.refl s)
  | jr a0 a1 => exact within_execJr a0 a1 (Within.refl s)
  | callr a0 a1 => exact within_execCallr a0 a1 (Within.refl s)
  | nop a0 a1 => exact within_execNop a0 a1 (Within.refl s)
  | crr a0 a1 => exact within_execCrr a0 a1 (Within.refl s)
  | vcrr a0 a1 => exact within_execVcrr a0 a1 (Within.refl s)
  | fence a0 a1 => exact within_execFence a0 a1 (Within.refl s)
  | brk a0 a1 => exact within_execBrk a0 a1 (Within.refl s)
  | trap a0 a1 => exact within_execTrap a0 a1 (Within.refl s)
  | cntAdd a0 a1 => exact within_execCntAdd a0 a1 (Within.refl s)
  | task a0 a1 => exact within_execTask a0 a1 rfl (Within.refl s)
  | cue a0 a1 a2 a3 => exact within_execCue a0 a1 a2 a3 rfl (Within.refl s)
  | alloc a0 a1 => exact within_execAlloc a0 a1 rfl (Within.refl s)
  | retire a0 a1 => exact within_execRetire a0 a1 rfl (Within.refl s)
  | layerNew a0 a1 a2 a3 a4 a5 => exact within_execLayerNew a0 a1 a2 a3 a4 a5 rfl (Within.refl s)
  | layerSet a0 a1 a2 a3 => exact within_execLayerSet a0 a1 a2 a3 rfl (Within.refl s)
  | importLayer a0 a1 a2 a3 a4 a5 => exact within_execImportLayer a0 a1 a2 a3 a4 a5 rfl (Within.refl s)
  | layerDel a0 a1 => exact within_execLayerDel a0 a1 rfl (Within.refl s)
  | badCommand a0 a1 a2 a3 => exact within_execBadCommand a0 a1 a2 a3 rfl (Within.refl s)
  | registerWrite a0 a1 a2 a3 a4 a5 a6 => exact within_execRegisterWrite a0 a1 a2 a3 a4 a5 a6 rfl (Within.refl s)
  | semClaim a0 a1 a2 => exact within_execSemClaim a0 a1 a2 rfl (Within.refl s)
  | semRelease a0 a1 a2 a3 => exact within_execSemRelease a0 a1 a2 a3 rfl (Within.refl s)
  | semForce a0 a1 => exact within_execSemForce a0 a1 rfl (Within.refl s)
  | semLeaseExpire a0 => exact within_execSemLeaseExpire a0 rfl (Within.refl s)
  | ringEnable a0 a1 a2 => exact within_execRingEnable a0 a1 a2 rfl (Within.refl s)
  | ringTailWrite a0 a1 a2 a3 => exact within_execRingTailWrite a0 a1 a2 a3 rfl (Within.refl s)
  | ringHeadWrite a0 a1 a2 => exact within_execRingHeadWrite a0 a1 a2 rfl (Within.refl s)
  | ringFlush a0 a1 => exact within_execRingFlush a0 a1 rfl (Within.refl s)
  | flushComplete a0 a1 => exact within_execFlushComplete a0 a1 rfl (Within.refl s)
  | producerResume a0 a1 => exact within_execProducerResume a0 a1 rfl (Within.refl s)
  | bar2Write a0 a1 a2 a3 => exact within_execBar2Write a0 a1 a2 a3 rfl (Within.refl s)
  | bar2Read a0 a1 a2 => exact within_execBar2Read a0 a1 a2 rfl (Within.refl s)
  | importDone a0 a1 a2 => exact within_execImportDone a0 a1 a2 rfl (Within.refl s)
  | importDmaFault a0 a1 => exact within_execImportDmaFault a0 a1 rfl (Within.refl s)
  | fenceComplete a0 => exact within_execFenceComplete a0 rfl (Within.refl s)
  | functionLevelReset a0 => exact within_execFunctionLevelReset a0 rfl (Within.refl s)
  | perstN a0 a1 => exact within_execPerstN a0 a1 rfl (Within.refl s)
  | pcieLinkChange a0 a1 a2 => exact within_execPcieLinkChange a0 a1 a2 rfl (Within.refl s)
  | dispatch => exact within_execDispatch rfl (Within.refl s)
  | affinityWaitEnd a0 => exact within_execAffinityWaitEnd a0 rfl (Within.refl s)
  | tileTaskCreate => exact within_execTileTaskCreate rfl (Within.refl s)
  | taskRecreate => exact within_execTaskRecreate rfl (Within.refl s)
  | taskRebind a0 => exact within_execTaskRebind a0 rfl (Within.refl s)
  | schedCancel a0 a1 a2 => exact within_execSchedCancel a0 a1 a2 rfl (Within.refl s)
  | schedKick a0 a1 => exact within_execSchedKick a0 a1 rfl (Within.refl s)
  | ctxDisable a0 a1 a2 => exact within_execCtxDisable a0 a1 a2 rfl (Within.refl s)
  | coreTimePeriodEnd a0 => exact within_execCoreTimePeriodEnd a0 rfl (Within.refl s)
  | inputLogEnter a0 a1 => exact within_execInputLogEnter a0 a1 rfl (Within.refl s)
  | frameInstant a0 => exact within_execFrameInstant a0 rfl (Within.refl s)
  | commit a0 => exact within_execCommit a0 rfl (Within.refl s)
  | stallRelease a0 => exact within_execStallRelease a0 rfl (Within.refl s)
  | canvasEnable a0 a1 a2 => exact within_execCanvasEnable a0 a1 a2 rfl (Within.refl s)
  | canvasDisable a0 a1 a2 => exact within_execCanvasDisable a0 a1 a2 rfl (Within.refl s)
  | squash a0 a1 => exact within_execSquash a0 a1 rfl (Within.refl s)
  | pin a0 a1 => exact within_execPin a0 a1 rfl (Within.refl s)
  | unpin a0 a1 => exact within_execUnpin a0 a1 rfl (Within.refl s)
  | wake a0 a1 => exact within_execWake a0 a1 rfl (Within.refl s)
  | shadowedWrite a0 a1 a2 => exact within_execShadowedWrite a0 a1 a2 rfl (Within.refl s)
  | glazeSegment a0 a1 => exact within_execGlazeSegment a0 a1 rfl (Within.refl s)
  | windowEnd a0 a1 => exact within_execWindowEnd a0 a1 rfl (Within.refl s)
  | planeCut a0 a1 a2 => exact within_execPlaneCut a0 a1 a2 rfl (Within.refl s)
  | mordWrite a0 a1 => exact within_execMordWrite a0 a1 rfl (Within.refl s)
  | mordRead a0 => exact within_execMordRead a0 rfl (Within.refl s)
  | etabStageWrite a0 a1 a2 a3 => exact within_execEtabStageWrite a0 a1 a2 a3 rfl (Within.refl s)
  | etabPublish a0 a1 a2 => exact within_execEtabPublish a0 a1 a2 rfl (Within.refl s)
  | viewWrite a0 a1 a2 a3 => exact within_execViewWrite a0 a1 a2 a3 rfl (Within.refl s)
  | tableBaseWrite a0 a1 a2 => exact within_execTableBaseWrite a0 a1 a2 rfl (Within.refl s)
  | fltClr a0 a1 => exact within_execFltClr a0 a1 rfl (Within.refl s)
  | drvKick a0 a1 => exact within_execDrvKick a0 a1 rfl (Within.refl s)
  | blackoutOn a0 => exact within_execBlackoutOn a0 rfl (Within.refl s)
  | blackoutOff a0 => exact within_execBlackoutOff a0 rfl (Within.refl s)
  | blackoutRepeat => exact within_execBlackoutRepeat rfl (Within.refl s)
  | clear a0 a1 a2 => exact within_execClear a0 a1 a2 rfl (Within.refl s)
  | force a0 a1 a2 => exact within_execForce a0 a1 a2 rfl (Within.refl s)
  | streamTerminated a0 a1 a2 => exact within_execStreamTerminated a0 a1 a2 rfl (Within.refl s)
  | latch a0 => exact within_execLatch a0 rfl (Within.refl s)
  | beacon a0 => exact within_execBeacon a0 rfl (Within.refl s)
  | sacnSync a0 => exact within_execSacnSync a0 rfl (Within.refl s)
  | dmxPacketStart a0 => exact within_execDmxPacketStart a0 rfl (Within.refl s)
  | dmxPacketEnd a0 => exact within_execDmxPacketEnd a0 rfl (Within.refl s)
  | stat a0 a1 => exact within_execStat a0 a1 rfl (Within.refl s)
  | nodeLost a0 => exact within_execNodeLost a0 rfl (Within.refl s)
  | setGo a0 => exact within_execSetGo a0 rfl (Within.refl s)
  | otLoRead a0 => exact within_execOtLoRead a0 rfl (Within.refl s)
  | measPush a0 a1 => exact within_execMeasPush a0 a1 rfl (Within.refl s)
  | annKick a0 a1 => exact within_execAnnKick a0 a1 rfl (Within.refl s)
  | announceTimeout a0 => exact within_execAnnounceTimeout a0 rfl (Within.refl s)
  | timeSelWrite a0 a1 => exact within_execTimeSelWrite a0 a1 rfl (Within.refl s)
  | domEnWrite a0 a1 a2 => exact within_execDomEnWrite a0 a1 a2 rfl (Within.refl s)
  | fcEnable a0 a1 a2 => exact within_execFcEnable a0 a1 a2 rfl (Within.refl s)
  | fcCtrlWrite a0 a1 a2 => exact within_execFcCtrlWrite a0 a1 a2 rfl (Within.refl s)
  | fcPhaseWrite a0 a1 a2 => exact within_execFcPhaseWrite a0 a1 a2 rfl (Within.refl s)
  | nextLoRead a0 a1 => exact within_execNextLoRead a0 a1 rfl (Within.refl s)
  | tsqPop a0 a1 a2 => exact within_execTsqPop a0 a1 a2 rfl (Within.refl s)
  | tsqFlush a0 a1 => exact within_execTsqFlush a0 a1 rfl (Within.refl s)
  | ppsInEdge a0 a1 => exact within_execPpsInEdge a0 a1 rfl (Within.refl s)
  | ppsInLoRead a0 => exact within_execPpsInLoRead a0 rfl (Within.refl s)
  | ppsOutPulse a0 => exact within_execPpsOutPulse a0 rfl (Within.refl s)
  | ref10Window a0 => exact within_execRef10Window a0 rfl (Within.refl s)
  | ref10Loss => exact within_execRef10Loss rfl (Within.refl s)
  | frameStart a0 => exact within_execFrameStart a0 rfl (Within.refl s)
  | txFrameEnd a0 => exact within_execTxFrameEnd a0 rfl (Within.refl s)
  | txDescriptorFrame a0 a1 a2 a3 => exact within_execTxDescriptorFrame a0 a1 a2 a3 rfl (Within.refl s)
  | gateCycleStart a0 => exact within_execGateCycleStart a0 rfl (Within.refl s)
  | swap a0 a1 a2 => exact within_execSwap a0 a1 a2 rfl (Within.refl s)
  | portDisable a0 a1 a2 => exact within_execPortDisable a0 a1 a2 rfl (Within.refl s)
  | pauseFrame a0 a1 => exact within_execPauseFrame a0 a1 rfl (Within.refl s)
  | pauseExpire a0 a1 => exact within_execPauseExpire a0 a1 rfl (Within.refl s)
  | pauseWdTrip a0 a1 => exact within_execPauseWdTrip a0 a1 rfl (Within.refl s)
  | pauseRecEnd a0 a1 => exact within_execPauseRecEnd a0 a1 rfl (Within.refl s)
  | lpiEnter a0 => exact within_execLpiEnter a0 rfl (Within.refl s)
  | lpiWake a0 => exact within_execLpiWake a0 rfl (Within.refl s)
  | eeeOkWrite a0 a1 a2 => exact within_execEeeOkWrite a0 a1 a2 rfl (Within.refl s)
  | linkChange a0 a1 a2 => exact within_execLinkChange a0 a1 a2 rfl (Within.refl s)
  | serviceFrameRx a0 a1 => exact within_execServiceFrameRx a0 a1 rfl (Within.refl s)
  | flowFrameRx a0 a1 => exact within_execFlowFrameRx a0 a1 rfl (Within.refl s)
  | badFrameRx a0 a1 => exact within_execBadFrameRx a0 a1 rfl (Within.refl s)
  | videoPacketRx a0 a1 a2 a3 => exact within_execVideoPacketRx a0 a1 a2 a3 rfl (Within.refl s)
  | audioPacketRx a0 a1 a2 a3 => exact within_execAudioPacketRx a0 a1 a2 a3 rfl (Within.refl s)
  | ancPacketRx a0 a1 a2 a3 => exact within_execAncPacketRx a0 a1 a2 a3 rfl (Within.refl s)
  | ltcWord a0 a1 => exact within_execLtcWord a0 a1 rfl (Within.refl s)
  | sacnPacketRx a0 a1 a2 => exact within_execSacnPacketRx a0 a1 a2 rfl (Within.refl s)
  | sacnSourceTimeout a0 a1 => exact within_execSacnSourceTimeout a0 a1 rfl (Within.refl s)
  | legLoss a0 a1 a2 => exact within_execLegLoss a0 a1 a2 rfl (Within.refl s)
  | tcLoss a0 => exact within_execTcLoss a0 rfl (Within.refl s)
  | t1sCollision a0 a1 => exact within_execT1sCollision a0 a1 rfl (Within.refl s)
  | backoffExpire a0 => exact within_execBackoffExpire a0 rfl (Within.refl s)
  | plcaBeaconChange a0 a1 => exact within_execPlcaBeaconChange a0 a1 rfl (Within.refl s)
  | go a0 a1 a2 => exact within_execGo a0 a1 a2 rfl (Within.refl s)
  | rdmListenEnd a0 a1 a2 a3 => exact within_execRdmListenEnd a0 a1 a2 a3 rfl (Within.refl s)
  | leaseRenew => exact within_execLeaseRenew rfl (Within.refl s)
  | leaseLapse => exact within_execLeaseLapse rfl (Within.refl s)
  | leaseExpiry => exact within_execLeaseExpiry rfl (Within.refl s)
  | takeover => exact within_execTakeover rfl (Within.refl s)
  | waitTimeout => exact within_execWaitTimeout rfl (Within.refl s)
  | leaseInEdge a0 => exact within_execLeaseInEdge a0 rfl (Within.refl s)
  | wireSilent => exact within_execWireSilent rfl (Within.refl s)
  | twinLinkChange a0 a1 => exact within_execTwinLinkChange a0 a1 rfl (Within.refl s)
  | renew a0 a1 a2 a3 a4 a5 a6 => exact within_execRenew a0 a1 a2 a3 a4 a5 a6 rfl (Within.refl s)
  | commitRecord a0 a1 a2 a3 a4 a5 => exact within_execCommitRecord a0 a1 a2 a3 a4 a5 rfl (Within.refl s)
  | changeRecord a0 a1 a2 a3 a4 a5 a6 => exact within_execChangeRecord a0 a1 a2 a3 a4 a5 a6 rfl (Within.refl s)
  | regw a0 a1 a2 a3 a4 => exact within_execRegw a0 a1 a2 a3 a4 rfl (Within.refl s)
  | cmdRecord a0 a1 a2 => exact within_execCmdRecord a0 a1 a2 rfl (Within.refl s)
  | memw a0 a1 a2 => exact within_execMemw a0 a1 a2 rfl (Within.refl s)
  | layerRecord a0 a1 a2 a3 a4 a5 a6 => exact within_execLayerRecord a0 a1 a2 a3 a4 a5 a6 rfl (Within.refl s)
  | epstate a0 a1 a2 a3 => exact within_execEpstate a0 a1 a2 a3 rfl (Within.refl s)
  | handover a0 a1 => exact within_execHandover a0 a1 rfl (Within.refl s)
  | copyRecord a0 a1 a2 a3 a4 => exact within_execCopyRecord a0 a1 a2 a3 a4 rfl (Within.refl s)
  | copyEnd a0 a1 => exact within_execCopyEnd a0 a1 rfl (Within.refl s)
  | ack a0 a1 a2 a3 a4 a5 a6 => exact within_execAck a0 a1 a2 a3 a4 a5 a6 rfl (Within.refl s)
  | copySend => exact within_execCopySend rfl (Within.refl s)
  | shadowWaitExpire => exact within_execShadowWaitExpire rfl (Within.refl s)
  | resign a0 => exact within_execResign a0 rfl (Within.refl s)
  | assume a0 => exact within_execAssume a0 rfl (Within.refl s)
  | resync a0 => exact within_execResync a0 rfl (Within.refl s)
  | leaveSafe a0 => exact within_execLeaveSafe a0 rfl (Within.refl s)
  | twinEnWrite a0 a1 => exact within_execTwinEnWrite a0 a1 rfl (Within.refl s)
  | modeReqShow a0 => exact within_execModeReqShow a0 rfl (Within.refl s)
  | modeReqIdle a0 => exact within_execModeReqIdle a0 rfl (Within.refl s)
  | modeReqTest a0 => exact within_execModeReqTest a0 rfl (Within.refl s)
  | modeReqSleep a0 => exact within_execModeReqSleep a0 rfl (Within.refl s)
  | modeReqSafe a0 => exact within_execModeReqSafe a0 rfl (Within.refl s)
  | modeTransitionDone => exact within_execModeTransitionDone rfl (Within.refl s)
  | holdEnWrite a0 a1 => exact within_execHoldEnWrite a0 a1 rfl (Within.refl s)
  | hbmSelfRefresh => exact within_execHbmSelfRefresh rfl (Within.refl s)
  | softRst a0 => exact within_execSoftRst a0 rfl (Within.refl s)
  | powerOn => exact within_execPowerOn rfl (Within.refl s)
  | aonRstN => exact within_execAonRstN rfl (Within.refl s)
  | sysRstN => exact within_execSysRstN rfl (Within.refl s)
  | resetRelease a0 a1 => exact within_execResetRelease a0 a1 rfl (Within.refl s)
  | railFault a0 => exact within_execRailFault a0 rfl (Within.refl s)
  | refClockLoss a0 a1 => exact within_execRefClockLoss a0 a1 rfl (Within.refl s)
  | avsCommand a0 => exact within_execAvsCommand a0 rfl (Within.refl s)
  | dieTempCross a0 => exact within_execDieTempCross a0 rfl (Within.refl s)
  | wakeSource a0 => exact within_execWakeSource a0 rfl (Within.refl s)
  | slowAlarm => exact within_execSlowAlarm rfl (Within.refl s)
  | slowLoRead a0 => exact within_execSlowLoRead a0 rfl (Within.refl s)
  | bootGo a0 => exact within_execBootGo a0 rfl (Within.refl s)
  | bootImageCheck a0 => exact within_execBootImageCheck a0 rfl (Within.refl s)
  | bistBlockDone a0 a1 a2 a3 => exact within_execBistBlockDone a0 a1 a2 a3 rfl (Within.refl s)
  | shutdownRun a0 => exact within_execShutdownRun a0 rfl (Within.refl s)
  | stop a0 => exact within_execStop a0 rfl (Within.refl s)
  | rotStepStart => exact within_execRotStepStart rfl (Within.refl s)
  | rotClusterDrained => exact within_execRotClusterDrained rfl (Within.refl s)
  | rotDrainTimeout => exact within_execRotDrainTimeout rfl (Within.refl s)
  | otpGo a0 => exact within_execOtpGo a0 rfl (Within.refl s)
  | lcReq a0 a1 => exact within_execLcReq a0 a1 rfl (Within.refl s)
  | calWrite a0 a1 a2 => exact within_execCalWrite a0 a1 a2 rfl (Within.refl s)
  | cntLoRead a0 a1 => exact within_execCntLoRead a0 a1 rfl (Within.refl s)
  | cntSnap a0 => exact within_execCntSnap a0 rfl (Within.refl s)
  | rcRead a0 a1 a2 a3 a4 a5 => exact within_execRcRead a0 a1 a2 a3 a4 a5 rfl (Within.refl s)
  | tagSample a0 a1 a2 a3 a4 => exact within_execTagSample a0 a1 a2 a3 a4 rfl (Within.refl s)
  | bwWindowEnd a0 => exact within_execBwWindowEnd a0 rfl (Within.refl s)
  | ringDmaFault a0 => exact within_execRingDmaFault a0 rfl (Within.refl s)
  | fillCopyComplete a0 => exact within_execFillCopyComplete a0 rfl (Within.refl s)
  | ref10Return a0 => exact within_execRef10Return a0 rfl (Within.refl s)
  | hbmStackTempCross a0 => exact within_execHbmStackTempCross a0 rfl (Within.refl s)

theorem exec_pending {i : Instr} {s t : State} (h : exec i s = .next t) : t.pending = s.pending := by
  obtain ⟨u, hu, w⟩ := within_exec i s
  rw [hu] at h
  cases h
  exact w.part .pending rfl

theorem exec_sound {i : Instr} {s t : State} (h : exec i s = .next t) (hs : Sound s) : Sound t := by
  obtain ⟨u, hu, w⟩ := within_exec i s
  rw [hu] at h
  cases h
  exact w.sound hs

end Sys2Proof.Machine
end

