-- ==== Sys2Proof/Laws/Access.lean ====
section
/-!
SUPPORT. Accesses of a host that take effect, the journal record of a write, and the passing of time to an instant.
-/

namespace Sys2Proof.Machine

set_option Elab.async false

/-- What a record of the journal leaves alone: everything but JSEQ, the counts of records and the last one sent. -/
structure Noted (s u : State) : Prop where
  frame : u = { s with regs := u.regs, cnt := u.cnt, twn := { s.twn with sent := u.twn.sent, sends := u.twn.sends } }
  reg : ∀ q i j, q ≠ .jseqTx → rd u q i j = rd s q i j
  cnt : ∀ k, k ≠ Cnt.journalTx.ctorIdx → counter u k = counter s k
  sound : Sound s → Sound u

theorem Noted.refl (s : State) : Noted s s := ⟨rfl, fun _ _ _ _ => rfl, fun _ _ => rfl, fun h => h⟩

theorem noted_journal (ty : Nat) (p : List Byte) (s : State) : Noted s (journal ty p s) := by
  have hs : Sound s → Sound (journal ty p s) := (within_journal ty p (μ := footprint [.jseqTx] [.cnt, .twn]) (by decide +kernel) (Within.refl s)).sound
  revert hs
  unfold journal sendRecord putRecord
  split
  · split
    · exact fun hs => ⟨rfl, fun q i j h => rd_wr_reg h _ _ _ _ _ _, fun k h => counter_bump_ne .journalTx (wr .jseqTx _ s) k h, hs⟩
    · exact fun hs => ⟨rfl, fun _ _ _ _ => rfl, fun _ _ => rfl, hs⟩
  · exact fun _ => Noted.refl s

theorem Noted.get {s u : State} (a : Noted s u) (f : Fld) (i j : Nat) (h : f.reg ≠ .jseqTx) : get u f i j = get s f i j :=
  get_of_rd (a.reg _ _ _ h)

theorem Noted.on {s u : State} (a : Noted s u) (f : Fld) (i j : Nat) (h : f.reg ≠ .jseqTx) : on u f i j = on s f i j := by
  unfold Machine.on; rw [a.get f i j h]

theorem Noted.calm {s u : State} (a : Noted s u) : Calm s u := by
  refine ⟨⟨fun _ _ => a.reg _ _ _ (by decide), fun _ _ => a.reg _ _ _ (by decide), fun _ _ => a.reg _ _ _ (by decide), ?_⟩, ?_⟩
  · rw [a.frame]
  · rw [a.frame]; exact ⟨rfl, rfl, rfl⟩

/-- A write that takes effect: its effect on the state with its journal record. -/
theorem hostWrite_of {s : State} {fn : Nat} {r : RegId} {i j : Nat} (h : Writable s fn r i j) (v : W32) (effect : State → State) :
    ∃ x, Noted s x ∧ hostWrite fn r i j v effect s = effect x := by
  unfold hostWrite
  dsimp only
  rw [h.known, h.up, if_neg (by simp), if_neg, h.present, if_neg (by simp), h.quiet, if_neg (by simp), if_neg, if_neg]
  · split
    · exact ⟨_, noted_journal _ _ s, rfl⟩
    · exact ⟨s, Noted.refl s, rfl⟩
  · rcases h.active with e | e <;> simp [e]
  · rcases h.safe with e | e <;> simp [e]
  · rcases h.may with e | e <;> simp [e]

/-- A read that takes effect. -/
theorem hostRead_of {s : State} {fn : Nat} {r : RegId} {i j : Nat} (h : Reaches s fn r i j) (effect : State → State × W32) :
    hostRead fn r i j effect s = { (effect s).1 with rdata := leBytes 4 (effect s).2.toNat } := by
  unfold hostRead
  dsimp only
  rw [h.known, h.up, if_neg (by simp), if_neg, h.present, if_neg (by simp), h.quiet, if_neg (by simp)]
  rcases h.may with e | e <;> simp [e]

/-- Time moved to an instant changes time only. -/
theorem advance_frame (t : W64) (s : State) : advance t s =
    { s with ot := timeAt s t, otFrac := (advance t s).otFrac, pwr := { s.pwr with slow := (advance t s).pwr.slow } } := by
  unfold advance timeAt
  split <;> rfl

theorem advance_ot (t : W64) (s : State) : (advance t s).ot = timeAt s t := by rw [advance_frame]

theorem advance_regs (t : W64) (s : State) : (advance t s).regs = s.regs := by rw [advance_frame]

theorem rd_advance (t : W64) (s : State) (r : RegId) (i j : Nat) : rd (advance t s) r i j = rd s r i j :=
  rd_congr (advance_regs t s) r i j

theorem get_advance (t : W64) (s : State) (f : Fld) (i j : Nat) : get (advance t s) f i j = get s f i j :=
  get_congr (advance_regs t s) f i j

/-- A register of no ring is as before when an event is raised. -/
theorem rd_raise (ev detail : Nat) (s : State) (r : RegId) (i j : Nat) (h1 : r ≠ .ringTail) (h2 : r ≠ .ringStatus) (h3 : r ≠ .hostStatus) :
    rd (raise ev detail s) r i j = rd s r i j := (eventOnly_raise ev detail s).regs r i j h1 h2 h3

theorem get_raise (ev detail : Nat) (s : State) (f : Fld) (i j : Nat) (h1 : f.reg ≠ .ringTail) (h2 : f.reg ≠ .ringStatus) (h3 : f.reg ≠ .hostStatus) :
    get (raise ev detail s) f i j = get s f i j := get_of_rd (rd_raise ev detail s _ i j h1 h2 h3)

theorem on_raise (ev detail : Nat) (s : State) (f : Fld) (i j : Nat) (h1 : f.reg ≠ .ringTail) (h2 : f.reg ≠ .ringStatus) (h3 : f.reg ≠ .hostStatus) :
    on (raise ev detail s) f i j = on s f i j := by unfold on; rw [get_raise _ _ _ _ _ _ h1 h2 h3]

theorem counter_raise (ev detail : Nat) (s : State) (k : Nat) (h : k ≠ Cnt.evtDrop.ctorIdx) (hp : k ≠ Cnt.poison.ctorIdx) :
    counter (raise ev detail s) k = counter s k := (eventOnly_raise ev detail s).cnt k h hp

theorem on_put_same (f : Fld) (v : Nat) (s : State) (i j : Nat) (h : f.lo + f.w ≤ 32) (hv : v < 2 ^ f.w) :
    on (put f v s i j) f i j = (v == 1) := by
  unfold on; rw [get_put_same _ _ _ _ _ h, Nat.mod_eq_of_lt hv]

theorem on_put_fld (f g : Fld) (v : Nat) (s : State) (i j : Nat) (hr : g.reg = f.reg) (hb : g.lo + g.w ≤ 32)
    (h : g.lo + g.w ≤ f.lo ∨ f.lo + f.w ≤ g.lo) : on (put f v s i j) g i j = on s g i j := by
  unfold on; rw [get_put_fld _ _ _ _ _ _ hr hb h]

theorem counter_bump (c : Cnt) (s : State) (k : Nat) : counter (bump c s) k = if k = c.ctorIdx then counter s k + 1 else counter s k := by
  by_cases h : k = c.ctorIdx
  · rw [if_pos h, h]; exact counter_bump_same c s
  · rw [if_neg h]; exact counter_bump_ne c s k h

/-- A bit that has been set reads 1. -/
theorem hasBit_setBit (f : Fld) (b : Nat) (s : State) (i j : Nat) (h : f.lo + f.w ≤ 32) (hb : b < f.w) :
    hasBit (setBit f b s i j) f b i j = true := by
  unfold hasBit setBit
  rw [get_put_same _ _ _ _ _ h, beq_iff_eq]
  have : ((get s f i j ||| 2 ^ b) % 2 ^ f.w).testBit b = true := by
    rw [Nat.testBit_mod_two_pow, Nat.testBit_lor, Nat.testBit_two_pow_self]
    simp [hb]
  rw [Nat.testBit_eq_decide_div_mod_eq] at this
  exact of_decide_eq_true this

theorem on_iff (s : State) (f : Fld) (i j : Nat) : on s f i j = true ↔ get s f i j = 1 := by unfold on; simp

theorem on_false_get {s : State} {f : Fld} {i j : Nat} (hw : f.w = 1) : on s f i j = false ↔ get s f i j = 0 := by
  unfold on get bitsOf
  rw [hw]
  simp only [beq_eq_false_iff_ne, ne_eq]
  omega

/-- A write that takes effect in a block that is not journaled. -/
theorem hostWrite_plain {s : State} {fn : Nat} {r : RegId} {i j : Nat} (h : Writable s fn r i j) (hj : journaled (r.off i j) = false) (v : W32)
    (effect : State → State) : hostWrite fn r i j v effect s = effect s := by
  unfold hostWrite
  dsimp only
  rw [h.known, h.up, if_neg (by simp), if_neg, h.present, if_neg (by simp), h.quiet, if_neg (by simp), if_neg, hj, Bool.and_false,
    if_neg (by simp), if_neg (by simp)]
  · rcases h.safe with e | e <;> simp [e]
  · rcases h.may with e | e <;> simp [e]

theorem get_lt (s : State) (f : Fld) (i j : Nat) : get s f i j < 2 ^ f.w := by
  unfold get bitsOf
  exact Nat.mod_lt _ (Nat.two_pow_pos _)

/-! ## Status bits stay set -/

/-- A bit that is set stays set when a bit is set. -/
theorem setBit_keeps (f : Fld) (b c : Nat) (s : State) (i k : Nat) (hf : f.lo + f.w ≤ 32) (h : hasBit s f c k 0 = true) :
    hasBit (setBit f b s i 0) f c k 0 = true := by
  by_cases e : k = i
  · subst e
    unfold hasBit setBit at *
    rw [get_put_same _ _ _ _ _ hf, beq_iff_eq] at *
    have hlt : get s f k 0 < 2 ^ f.w := by unfold get bitsOf; exact Nat.mod_lt _ (Nat.two_pow_pos _)
    have h' : (get s f k 0).testBit c = true := by rw [Nat.testBit_eq_decide_div_mod_eq]; simpa using h
    have hc : c < f.w := by
      apply Classical.byContradiction
      intro hn
      have : (get s f k 0).testBit c = false := Nat.testBit_lt_two_pow (Nat.lt_of_lt_of_le hlt (Nat.pow_le_pow_right (by decide) (by omega)))
      rw [this] at h'; simp at h'
    have : ((get s f k 0 ||| 2 ^ b) % 2 ^ f.w).testBit c = true := by
      rw [Nat.testBit_mod_two_pow, Nat.testBit_lor, h']
      simp [hc]
    rw [Nat.testBit_eq_decide_div_mod_eq] at this
    exact of_decide_eq_true this
  · unfold hasBit setBit at *
    rw [get_put_idx _ _ _ _ _ _ _ rfl e]
    exact h

theorem hasBit_rd {s t : State} {f : Fld} {i j : Nat} (h : rd t f.reg i j = rd s f.reg i j) (b : Nat) : hasBit t f b i j = hasBit s f b i j := by
  unfold hasBit; rw [get_of_rd h]

theorem judgeParity_keeps (q : Nat) (s : State) (b r : Nat) (h : hasBit s fld.ringStatus.RING_STATUS b r = true) :
    hasBit (judgeParity q s) fld.ringStatus.RING_STATUS b r = true := by
  unfold judgeParity
  split
  · exact h
  · unfold notePoison
    refine setBit_keeps _ _ _ _ _ _ (by decide) ?_
    rw [← h]
    exact hasBit_rd ((rd_wr_reg (by decide) _ _ _ _ _ _).trans (rd_congr rfl _ _ _)) b

theorem deliverTo_keeps (f ev detail : Nat) (s : State) (b r : Nat) (h : hasBit s fld.ringStatus.RING_STATUS b r = true) :
    hasBit (deliverTo f ev detail s) fld.ringStatus.RING_STATUS b r = true := by
  rw [← judgeParity_keeps (get s fld.route.RING f ev) s b r h]
  refine hasBit_rd ?_ b
  rw [rd_congr (deliverTo_regs f ev detail s), rd_congr (ringAppend_regs _ _ _)]
  exact rd_wr_reg (by decide) _ _ _ _ _ _

/-- An event raised clears no bit of a ring's status. -/
theorem raiseF_keeps (fuel ev detail : Nat) (s : State) (b r : Nat) (h : hasBit s fld.ringStatus.RING_STATUS b r = true) :
    hasBit (raiseF fuel ev detail s) fld.ringStatus.RING_STATUS b r = true := by
  induction fuel generalizing ev detail s with
  | zero => exact h
  | succ n ih =>
    have one : ∀ t f, hasBit t fld.ringStatus.RING_STATUS b r = true → hasBit (raiseStep n ev detail t f) fld.ringStatus.RING_STATUS b r = true := by
      intro t f ht
      have hd := deliverTo_keeps f ev detail t b r ht
      unfold raiseStep
      generalize deliverTo f ev detail t = x at hd
      split
      · extract_lets q y u
        split
        · have hy : hasBit u fld.ringStatus.RING_STATUS b r = true := by
            unfold u
            split
            · exact ih _ _ _ (setBit_keeps _ _ _ _ _ _ (by decide) hd)
            · exact hd
          split
          · exact hy
          · exact ih _ _ _ hy
        · split
          · exact ht
          · refine ih _ _ _ (setBit_keeps _ _ _ _ _ _ (by decide) ?_)
            rw [← ht]; exact hasBit_rd (rd_congr rfl _ _ _) b
      · exact ht
    rw [raiseF_succ]
    generalize List.range 32 = fs
    induction fs generalizing s with
    | nil => exact h
    | cons f fs ihf =>
      rw [List.foldl_cons]
      exact ihf _ (one s f h)

theorem raise_keeps (ev detail : Nat) (s : State) (b r : Nat) (h : hasBit s fld.ringStatus.RING_STATUS b r = true) :
    hasBit (raise ev detail s) fld.ringStatus.RING_STATUS b r = true := raiseF_keeps 64 ev detail s b r h

end Sys2Proof.Machine
end

