-- ==== Sys2Proof/Laws/RingCommands.lean ====
section
/-!
SUPPORT. Commands of the rings: what starts, what completes, and what completion leaves alone.
-/

namespace Sys2Proof.Machine

set_option Elab.async false


/-- From `s` to `t` no ring but those of events has moved, and nothing has begun to wait for a completion ring. -/
structure RingsStay (s t : State) : Prop where
  ctrl : ∀ i j, rd t .ringCtrl i j = rd s .ringCtrl i j
  head : ∀ i j, rd t .ringHead i j = rd s .ringHead i j
  tail : ∀ r, get s fld.ringCtrl.KIND r ≠ 2 → rd t .ringTail r 0 = rd s .ringTail r 0
  wait : t.hst.cplWait = s.hst.cplWait

theorem RingsStay.trans {s t u : State} (a : RingsStay s t) (b : RingsStay t u) : RingsStay s u := by
  refine ⟨fun i j => (b.ctrl i j).trans (a.ctrl i j), fun i j => (b.head i j).trans (a.head i j),
    fun r h => (b.tail r (fun e => h ?_)).trans (a.tail r h), b.wait.trans a.wait⟩
  rw [← e]; exact (get_of_rd (f := fld.ringCtrl.KIND) (a.ctrl _ _)).symm

theorem RingCalm.stay {s t : State} (h : RingCalm s t) : RingsStay s t := ⟨h.ctrl, h.head, h.tail, by rw [h.host]⟩

theorem ringsStay_regs {s t : State} (h : t.regs = s.regs) (hw : t.hst.cplWait = s.hst.cplWait) : RingsStay s t :=
  ⟨fun _ _ => rd_congr h _ _ _, fun _ _ => rd_congr h _ _ _, fun _ _ => rd_congr h _ _ _, hw⟩

theorem RingsStay.fld {s t : State} (h : RingsStay s t) (f : Fld) (r : Nat) (hf : f.reg = .ringCtrl ∨ f.reg = .ringHead) :
    get t f r = get s f r := by
  obtain ⟨reg, lo, w⟩ := f
  rcases hf with rfl | rfl
  · exact get_of_rd (h.ctrl _ _)
  · exact get_of_rd (h.head _ _)

theorem RingsStay.occ {s t : State} (h : RingsStay s t) {r : Nat} (hk : get s fld.ringCtrl.KIND r ≠ 2) : ringOcc t r = ringOcc s r := by
  have e : get t fld.ringTail.TAIL r = get s fld.ringTail.TAIL r := get_of_rd (h.tail r hk)
  unfold ringOcc ringSize
  rw [h.fld fld.ringHead.HEAD r (.inr rfl), h.fld fld.ringCtrl.LOG2SZ r (.inl rfl), e]

theorem RingsStay.takes {s t : State} (h : RingsStay s t) {r fn : Nat} (hk : get s fld.ringCtrl.KIND r ≠ 2) :
    cplTakes t r fn = cplTakes s r fn := by
  unfold cplTakes ringRuns ringRoom on ringSize
  rw [h.occ hk, h.fld fld.ringCtrl.KIND r (.inl rfl), h.fld fld.ringCtrl.EN r (.inl rfl), h.fld fld.ringCtrl.FN r (.inl rfl),
    h.fld fld.ringCtrl.LOG2SZ r (.inl rfl)]

theorem kind_of_runs {s : State} {r k : Nat} (h : ringRuns s r k = true) : get s fld.ringCtrl.KIND r = k := by
  unfold ringRuns at h
  simp only [Bool.and_eq_true, beq_iff_eq] at h
  exact h.2

theorem kind_of_takes {s : State} {r f : Nat} (h : cplTakes s r f = true) : get s fld.ringCtrl.KIND r = 1 := by
  unfold cplTakes at h
  simp only [Bool.and_eq_true] at h
  exact kind_of_runs h.1.1

/-- A record produced on a ring moves its TAIL by one entry. -/
theorem ringProduce_tail (r : Nat) (ws : List W32) (s : State) (h : get s fld.ringCtrl.KIND r ≠ 2) :
    get (ringProduce r ws s) fld.ringTail.TAIL r = (get s fld.ringTail.TAIL r + 1) % ringSize s r % 65536 := by
  have tl : get (ringAppend r ws s) fld.ringTail.TAIL r = (get s fld.ringTail.TAIL r + 1) % ringSize s r % 65536 := by
    rw [get_congr (ringAppend_regs r ws s), get_put_same _ _ _ _ _ (by decide)]
    rfl
  rw [← tl]
  refine get_of_rd (f := fld.ringTail.TAIL) ?_
  have k1 := (eventOnly_ringAppend r ws s).kind r
  have k0 : get s fld.ringCtrl.KIND r = get (ringAppend r ws s) fld.ringCtrl.KIND r := k1.symm
  have level : ∀ (c : Prop) [Decidable c], EventOnly (ringAppend r ws s) (if c then raise 0 r (setBit fld.ringStatus.RING_STATUS 0 (ringAppend r ws s) r) else ringAppend r ws s) ∧
      rd (if c then raise 0 r (setBit fld.ringStatus.RING_STATUS 0 (ringAppend r ws s) r) else ringAppend r ws s) .ringTail r 0 = rd (ringAppend r ws s) .ringTail r 0 := by
    intro c _
    split
    · have k2 : get (setBit fld.ringStatus.RING_STATUS 0 (ringAppend r ws s) r) fld.ringCtrl.KIND r ≠ 2 := by
        rw [(eventOnly_status 0 (ringAppend r ws s) r).kind, k1]; exact h
      exact ⟨(eventOnly_status _ _ _).trans (eventOnly_raise _ _ _), (raise_tail _ _ _ _ k2).trans (setBit_status_tail _ _ _ _)⟩
    · exact ⟨EventOnly.refl _, rfl⟩
  unfold ringProduce
  dsimp only
  obtain ⟨e1, e2⟩ := level (crosses (ringOcc s r) (ringOcc (ringAppend r ws s) r) (get s fld.ringLevel.RING_LEVEL r) = true)
  split
  · exact e2
  · refine (raise_tail _ _ _ _ ?_).trans e2
    rw [e1.kind, k1]; exact h

theorem advanceHead_stay (r n : Nat) (s : State) : ∀ q i j, q ≠ .ringHead → rd (advanceHead r n s) q i j = rd s q i j := by
  intro q i j h
  unfold advanceHead
  split
  · rfl
  · exact rd_wr_reg h _ _ _ _ _ _

theorem advanceHead_hst (r n : Nat) (s : State) : (advanceHead r n s).hst = s.hst := by
  unfold advanceHead; split <;> rfl

/-- What the completion of a command does to its rings. -/
theorem completes_of {s x : State} {h : Cmd} {span : Nat} (hs : AtHead s h span) (hc : RingsStay s x) (op status : Nat) (result : W32) :
    Completes s (completeCmd h op span status result x) h span := by
  have hk0 := kind_of_runs hs.runs
  have hk1 := kind_of_takes hs.record
  have hne : get s fld.ringCtrl.CPL h.ring ≠ h.ring := by intro e; rw [e] at hk1; omega
  have eC : get x fld.ringCtrl.CPL h.ring = get s fld.ringCtrl.CPL h.ring := hc.fld _ _ (.inl rfl)
  have eF : get x fld.ringCtrl.FN h.ring = get s fld.ringCtrl.FN h.ring := hc.fld _ _ (.inl rfl)
  generalize hcp : get s fld.ringCtrl.CPL h.ring = cp at *
  -- the state after HEAD has moved
  generalize hy : advanceHead h.ring span x = y
  have yreg : ∀ q i j, q ≠ .ringHead → rd y q i j = rd x q i j := by rw [← hy]; exact advanceHead_stay _ _ _
  have yhead : get y fld.ringHead.HEAD h.ring = (get s fld.ringHead.HEAD h.ring + span) % ringSize s h.ring % 65536 := by
    rw [← hy]
    unfold advanceHead
    rw [hc.occ (by omega), if_neg (Nat.not_lt.mpr hs.there), get_put_same _ _ _ _ _ (by decide), hc.fld _ _ (.inr rfl)]
    unfold ringSize
    rw [hc.fld _ _ (.inl rfl)]
    rfl
  have yC : ∀ f : Fld, f.reg = .ringCtrl → ∀ r, get y f r = get s f r := by
    intro f hf r
    have : get y f r = get x f r := get_of_rd (yreg _ _ _ (by rw [hf]; decide))
    rw [this]; exact hc.fld _ _ (.inl hf)
  have ytail : get y fld.ringTail.TAIL cp = get s fld.ringTail.TAIL cp := by
    have a : get y fld.ringTail.TAIL cp = get x fld.ringTail.TAIL cp := get_of_rd (yreg _ _ _ (by decide))
    rw [a]; exact get_of_rd (hc.tail cp (by omega))
  have yheadc : get y fld.ringHead.HEAD cp = get s fld.ringHead.HEAD cp := by
    have a : get y fld.ringHead.HEAD cp = get x fld.ringHead.HEAD cp := by
      rw [← hy]; unfold advanceHead; split
      · rfl
      · exact get_put_idx _ _ _ _ _ _ _ rfl hne
    rw [a]; exact hc.fld _ _ (.inr rfl)
  have ytakes : cplTakes y cp (get s fld.ringCtrl.FN h.ring) = true := by
    have := hs.record
    rw [hcp] at this
    rw [← this]
    unfold cplTakes ringRuns ringRoom ringOcc ringSize on
    rw [ytail, yheadc, yC fld.ringCtrl.EN rfl, yC fld.ringCtrl.KIND rfl, yC fld.ringCtrl.FN rfl, yC fld.ringCtrl.LOG2SZ rfl]
  have ywait : y.hst.cplWait = s.hst.cplWait := by rw [← hy, advanceHead_hst]; exact hc.wait
  generalize hws : cmdRecordWords h op status result = ws
  have prod : produceOrWait cp (get s fld.ringCtrl.FN h.ring) ws y = ringProduce cp ws y := by
    unfold produceOrWait
    dsimp only
    rw [ytakes, ywait, if_pos]
    rw [Bool.and_true, Bool.not_eq_true', List.any_eq_false]
    intro w hw e
    have := hs.order w hw
    rw [hcp] at this
    cases w <;> simp at e this <;> exact this e
  have fin : ∀ z, (∀ r i j, r ≠ .ringTail → r ≠ .ringStatus → r ≠ .hostStatus → rd z r i j = rd (ringProduce cp ws y) r i j) → (∀ r, get y fld.ringCtrl.KIND r ≠ 2 → rd z .ringTail r 0 = rd (ringProduce cp ws y) .ringTail r 0) →
      Completes s z h span := by
    intro z hz ht
    refine ⟨?_, ?_⟩
    · rw [← yhead]
      exact get_of_rd ((hz _ _ _ (by decide) (by decide) (by decide)).trans ((eventOnly_ringProduce cp ws y).regs _ _ _ (by decide) (by decide) (by decide)))
    · rw [hcp]
      have hky : get y fld.ringCtrl.KIND cp ≠ 2 := by rw [yC _ rfl]; omega
      have : get z fld.ringTail.TAIL cp = get (ringProduce cp ws y) fld.ringTail.TAIL cp := get_of_rd (ht cp hky)
      rw [this, ringProduce_tail cp ws y hky, ytail]
      unfold ringSize
      rw [yC _ rfl]
  unfold completeCmd
  dsimp only
  have eC' : get y fld.ringCtrl.CPL h.ring = cp := by rw [yC _ rfl, hcp]
  have eF' : get y fld.ringCtrl.FN h.ring = get s fld.ringCtrl.FN h.ring := yC _ rfl _
  rw [hy, eC', eF', hws, prod]
  split
  · exact fin _ (fun _ _ _ _ _ _ => rfl) (fun _ _ => rfl)
  · refine fin _ (fun r i j h1 h2 h3 => (eventOnly_raise _ _ _).regs r i j h1 h2 h3) (fun r hr => ?_)
    refine raise_tail _ _ _ _ ?_
    show get (ringProduce cp ws y) fld.ringCtrl.KIND r ≠ 2
    rw [(eventOnly_ringProduce cp ws y).kind]
    exact hr

theorem produceOrWait_host (cpl fn : Nat) (ws : List W32) (s : State) : ∃ e m p q w,
    (produceOrWait cpl fn ws s).hst = { s.hst with evSeq := e, msix := m, msixPend := p, parity := q, cplWait := w } := by
  unfold produceOrWait
  dsimp only
  split
  · rw [(eventOnly_ringProduce _ _ _).frame]
    exact ⟨_, _, _, _, _, rfl⟩
  · exact ⟨_, _, _, _, _, rfl⟩

theorem raise_host (ev detail : Nat) (s : State) : ∃ e m p q, (raise ev detail s).hst = { s.hst with evSeq := e, msix := m, msixPend := p, parity := q } := by
  have e := (eventOnly_raise ev detail s).frame
  generalize raise ev detail s = t at e ⊢
  rw [e]
  exact ⟨_, _, _, _, rfl⟩

theorem completeCmd_host (h : Cmd) (op span status : Nat) (result : W32) (s : State) : ∃ e m p q w,
    (completeCmd h op span status result s).hst = { s.hst with evSeq := e, msix := m, msixPend := p, parity := q, cplWait := w } := by
  unfold completeCmd
  dsimp only
  obtain ⟨e, m, p, q, w, hp⟩ := produceOrWait_host (get (advanceHead h.ring span s) fld.ringCtrl.CPL h.ring)
    (get (advanceHead h.ring span s) fld.ringCtrl.FN h.ring) (cmdRecordWords h op status result) (advanceHead h.ring span s)
  rw [advanceHead_hst] at hp
  split
  · exact ⟨e, m, p, q, w, hp⟩
  · obtain ⟨e2, m2, p2, q2, h2⟩ := raise_host 3 h.ring (bump .cmdErr (produceOrWait (get (advanceHead h.ring span s) fld.ringCtrl.CPL h.ring)
      (get (advanceHead h.ring span s) fld.ringCtrl.FN h.ring) (cmdRecordWords h op status result) (advanceHead h.ring span s)))
    refine ⟨e2, m2, p2, q2, w, h2.trans ?_⟩
    rw [bump_hst, hp]

/-- The state as a command that ends with OK completes it: journaled, and the JSEQ of a TASK noted (R317). -/
def okEnd (s : State) (h : Cmd) (op : Nat) (entry : List W32) (res : W32) (x : State) : State :=
  noteOrigin op s.sch.nextId (rd (journalCmd h op entry 0 res x) .jseqTx) (journalCmd h op entry 0 res x)

/-- A ring with an entry that may start is not idle. -/
theorem ringIdle_of {s : State} {h : Cmd} {span : Nat} (hs : AtHead s h span) : ringIdle s h.ring span = false := by
  unfold ringIdle
  have hm : (mode s == 7) = false := by simpa using hs.fetches.2.1
  have hd : decide (ringOcc s h.ring < span) = false := by simpa using hs.there
  rw [hs.runs, hs.first.1, hs.fetches.1, hs.fetches.2.2, hm, hd]
  rfl

/-- The form of a command that starts. -/
theorem cmdRow_starts {s : State} {h : Cmd} {i : Instr} {op span : Nat} {entry : List W32} {body : State → CmdEnd}
    (hs : Starts s h span) (he : entry.length / 8 = span) :
    cmdRow i h op entry body s = match body s with
      | .runs t => t
      | .waits => holdCmd i h.ring s
      | .ends st res t => completeCmd h op span st res (if st = 0 then okEnd s h op entry res t else t) := by
  unfold cmdRow runCmdRow
  dsimp only
  rw [hs.entry.first.2, if_neg (by simp), he, ringIdle_of hs.entry, if_neg (by simp), hs.entry.record, if_neg (by simp), hs.active, if_neg (by simp),
    hs.owner, if_neg (by simp)]
  cases body s with
  | runs t => rfl
  | waits => rfl
  | ends st res t =>
    dsimp only
    by_cases h0 : st = 0
    · subst h0; rfl
    · rw [if_neg h0, if_neg h0]

theorem calm_journal {s x : State} (ty : Nat) (p : List Byte) (h : Calm s x) : Calm s (journal ty p x) := by
  unfold journal sendRecord putRecord
  refine Calm.ite (Calm.ite ?_ h) h
  refine Calm.same (x := wr .jseqTx (rd x .jseqTx + 1) x) (calm_wr _ _ _ _ (by decide) (by decide) (by decide) h) rfl rfl ⟨rfl, rfl, rfl⟩

theorem calm_journalCmd {s x : State} (h : Cmd) (op : Nat) (entry : List W32) (st : Nat) (res : W32) (hc : Calm s x) :
    Calm s (journalCmd h op entry st res x) := calm_journal _ _ hc

theorem journal_parts (ty : Nat) (p : List Byte) (s : State) : (journal ty p s).sch = s.sch ∧ (journal ty p s).fmem = s.fmem ∧
    (journal ty p s).vat = s.vat ∧ (journal ty p s).hst = s.hst ∧ ∀ r i j, r ≠ .jseqTx → rd (journal ty p s) r i j = rd s r i j := by
  unfold journal sendRecord putRecord
  split
  · split
    · exact ⟨rfl, rfl, rfl, rfl, fun r i j h => rd_wr_reg h _ _ _ _ _ _⟩
    · exact ⟨rfl, rfl, rfl, rfl, fun _ _ _ _ => rfl⟩
  · exact ⟨rfl, rfl, rfl, rfl, fun _ _ _ _ => rfl⟩

/-- What the completion of a command leaves alone. -/
theorem completeCmd_parts (h : Cmd) (op span status : Nat) (result : W32) (s : State) :
    (completeCmd h op span status result s).sch = s.sch ∧ (completeCmd h op span status result s).fmem = s.fmem ∧
    (completeCmd h op span status result s).vat = s.vat ∧
    ∀ r i j, r ≠ .ringHead → r ≠ .ringTail → r ≠ .ringStatus → r ≠ .hostStatus → rd (completeCmd h op span status result s) r i j = rd s r i j := by
  have w := (within_completeCmd h op span status result (μ := footprint [.ringHead, .ringTail, .ringStatus, .hostStatus] [.cnt, .hmem, .hst])
    (by decide +kernel) (Within.refl s)).leaves [.ringHead, .ringTail, .ringStatus, .hostStatus] [.cnt, .hmem, .hst] (by decide +kernel)
  exact ⟨w.2 .sch (by decide), w.2 .fmem (by decide), w.2 .vat (by decide), fun r i j h1 h2 h3 h4 => w.1 r (by simp [h1, h2, h3, h4]) i j⟩

/-- Noting a TASK's JSEQ touches nothing but the twin unit. -/
theorem noteOrigin_frame (op id : Nat) (j : W32) (s : State) : noteOrigin op id j s = { s with twn := (noteOrigin op id j s).twn } := by
  unfold noteOrigin
  split <;> rfl

theorem okEnd_parts (s : State) (h : Cmd) (op : Nat) (entry : List W32) (res : W32) (x : State) :
    (okEnd s h op entry res x).sch = x.sch ∧ (okEnd s h op entry res x).fmem = x.fmem ∧
    (okEnd s h op entry res x).vat = x.vat ∧ (okEnd s h op entry res x).hst = x.hst ∧
    ∀ r i j, r ≠ .jseqTx → rd (okEnd s h op entry res x) r i j = rd x r i j := by
  have j := journal_parts 0x04 (wordBytes entry ++ wordBytes (cmdRecordWords h op 0 res)) x
  unfold okEnd
  rw [noteOrigin_frame]
  exact j

theorem calm_okEnd {s y x : State} (h : Cmd) (op : Nat) (entry : List W32) (res : W32) (hc : Calm s x) : Calm s (okEnd y h op entry res x) := by
  have c := calm_journalCmd h op entry 0 res hc
  unfold okEnd
  rw [noteOrigin_frame]
  exact Calm.same c rfl rfl ⟨rfl, rfl, rfl⟩

/-- The end of a command with OK: journaled and completed. -/
theorem ends_ok {s x : State} {h : Cmd} {span : Nat} (hs : AtHead s h span) (hc : RingsStay s x) (op : Nat) (entry : List W32) (res : W32) :
    ∃ t, t = completeCmd h op span 0 res (if (0 : Nat) = 0 then okEnd s h op entry res x else x) ∧
      Completes s t h span ∧ t.sch = x.sch ∧ t.fmem = x.fmem ∧ t.vat = x.vat ∧
      (∃ e m p q w, t.hst = { x.hst with evSeq := e, msix := m, msixPend := p, parity := q, cplWait := w }) ∧
      ∀ r i j, r ≠ .jseqTx → r ≠ .ringHead → r ≠ .ringTail → r ≠ .ringStatus → r ≠ .hostStatus → rd t r i j = rd x r i j := by
  rw [if_pos rfl]
  refine ⟨_, rfl, ?_, ?_⟩
  · exact completes_of hs (hc.trans (calm_okEnd h op entry res (Calm.refl x)).ring.stay) _ _ _
  · have c := completeCmd_parts h op span 0 res (okEnd s h op entry res x)
    have j := okEnd_parts s h op entry res x
    obtain ⟨e, m, p, q, w, hh⟩ := completeCmd_host h op span 0 res (okEnd s h op entry res x)
    refine ⟨c.1.trans j.1, c.2.1.trans j.2.1, c.2.2.1.trans j.2.2.1, ⟨e, m, p, q, w, ?_⟩,
      fun r i k h0 h1 h2 h3 h4 => (c.2.2.2 r i k h1 h2 h3 h4).trans (j.2.2.2.2 r i k h0)⟩
    rw [hh, j.2.2.2.1]

end Sys2Proof.Machine
end

