-- ==== Sys2Proof/Laws/HostCommands.lean ====
section
/-!
SUPPORT. What each command of a ring does when it starts.
-/

namespace Sys2Proof.Machine

set_option Elab.async false


theorem task_completes {s : State} {h : Cmd} (hs : Starts s h 2) (desc d : List W32) (slot : Nat)
    (hd : d = withCtx (eightWords desc) h.ctx.toNat) (h1 : descBad s d h.ctx.toNat = false) (h2 : dEmode d ≠ 1) (h3 : specCommitted s d = false)
    (h4 : nextSlot s = some slot) (h5 : slotQuotaHit s h.ctx.toNat = false) :
    ∃ t u, exec (.task h desc) s = .next t ∧ Completes s t h 2 ∧ taskAt t slot = some u ∧ u.desc = d ∧ u.ctx = h.ctx.toNat ∧
        u.epoch = (if dEmode d = 2 then none else some (BitVec.ofNat 32 (dw d 2))) ∧ u.prog = progSnap s (dProg d) ∧
        u.pc = 0 ∧ ∀ q, q ≠ slot → taskAt t q = taskAt s q := by
  generalize hb : createTask d h.ctx.toNat (if dEmode d = 2 then none else some (BitVec.ofNat 32 (dw d 2))) (progSnap s (dProg d)) none none slot s = x
  have body : cmdTask h (eightWords desc) s = .ends 0 (BitVec.ofNat 32 slot) x := by
    unfold cmdTask
    dsimp only
    rw [← hd, h1, h3, h4]
    simp only [Bool.false_or, beq_iff_eq, h2, if_false, h5]
    rw [← hb]
    rfl
  have hx : RingsStay s x := by rw [← hb]; exact (calm_createTask _ _ _ _ _ _ _ (Calm.refl s)).ring.stay
  obtain ⟨t, ht, hc, k1, -, -, -, -⟩ := ends_ok hs.entry hx 0x01 ([cmdWord h 1 true, 0, 0, 0, 0, 0, 0, 0] ++ eightWords desc) (BitVec.ofNat 32 slot)
  have ex : exec (.task h desc) s = .next t := by
    show Host.Outcome.next (doTask cmdRow h desc s) = _
    unfold doTask
    rw [cmdRow_starts (span := 2) hs (by simp [eightWords]), body, ht]
  have c := createTask_at d h.ctx.toNat (if dEmode d = 2 then none else some (BitVec.ofNat 32 (dw d 2))) (progSnap s (dProg d)) none none slot s
  rw [hb] at c
  obtain ⟨⟨u, hu, eu⟩, ho⟩ := c
  have et : ∀ q, taskAt t q = taskAt x q := taskAt_congr (congrArg Sched.tasks k1)
  refine ⟨t, u, ex, hc, (et slot).trans hu, ?_, ?_, ?_, ?_, ?_, fun q hq => (et q).trans (ho q hq)⟩
  · rw [eu]; rfl
  · rw [eu]
    show h.ctx.toNat % 128 = h.ctx.toNat
    have := h.ctx.isLt
    omega
  · rw [eu]; rfl
  · rw [eu]; rfl
  · rw [eu]; rfl

/-! ## Changes -/

theorem newestVersion_congr {s t : State} (h : t.vat.versions = s.vat.versions) (k : InKey) : newestVersion t k = newestVersion s k := by
  unfold newestVersion; rw [h]

theorem newestVersion_set (k : InKey) (v : W32) (s : State) : newestVersion (setVersion k v s) k = v := by
  unfold newestVersion setVersion
  simp

theorem pruneLog_keeps {s : State} {x : Change} (hx : x ∈ s.vat.inputs) (hk : x.key.kind ≠ 7 ∨ x.key.idx < 1024)
    (hn : ∀ q ∈ s.vat.inputs, q.key = x.key → q.version.toNat ≤ x.version.toNat) : x ∈ (pruneLog s).vat.inputs := by
  unfold pruneLog
  show x ∈ List.filter _ s.vat.inputs
  rw [List.mem_filter]
  refine ⟨hx, ?_⟩
  have hg : goneRecord s x = false := by
    unfold goneRecord
    rcases hk with h | h
    · simp [h]
    · rw [show decide (1024 ≤ x.key.idx) = false by simpa using h, Bool.and_false, Bool.false_and]
  rw [hg, Bool.not_false, Bool.and_true, Bool.or_eq_true]
  left
  rw [Bool.not_eq_true', List.any_eq_false]
  intro q hq
  unfold outranks
  have := hn q hq
  intro e
  simp only [Bool.and_eq_true, beq_iff_eq, decide_eq_true_eq] at e
  have := this e.1.1
  omega

theorem logCalm_put (f : Fld) (v : Nat) (s : State) (i j : Nat) : LogCalm s (put f v s i j) := ⟨rfl, rfl, rfl⟩

/-- What entering the log does: the record is there, its version is the newest, and the rings stay. -/
theorem logChange_enters (k : InKey) (value buf : W32) (g : ATarget) (s : State) (hb : s.vat.badNext = false)
    (hk : k.kind ≠ 7 ∨ k.idx < 1024) (hn : NextIsNewest s k) :
    EntersLog s (logChange k value buf g s) k value buf g ∧ RingCalm s (logChange k value buf g s) := by
  unfold EntersLog
  generalize hx : (⟨k, newestVersion s k + 1, value, buf, g, targetInst s g,
      ((runningCanvases s).filter (placedOn s k)).map (fun c => (c, placeEpoch s c g))⟩ : Change) = x
  unfold logChange
  rw [hb, if_neg (by simp)]
  unfold takeChange
  dsimp only
  rw [hx]
  generalize hs1 : setVersion k (newestVersion s k + 1) { s with vat := { s.vat with inputs := s.vat.inputs ++ [x] } } = s1
  have r1 : RingCalm s s1 := by rw [← hs1]; exact ⟨fun _ _ => rfl, fun _ _ => rfl, fun _ _ => rfl, rfl⟩
  have i1 : s1.vat.inputs = s.vat.inputs ++ [x] := by rw [← hs1]; rfl
  have v1 : newestVersion s1 k = newestVersion s k + 1 := by rw [← hs1]; exact newestVersion_set _ _ _
  generalize hs2 : (if k.kind = 7 then wr .layerVersion (newestVersion s k + 1) s1 k.idx else s1) = s2
  have c2 : Calm s1 s2 := by
    rw [← hs2]
    exact Calm.ite (calm_wr _ _ _ _ (by decide) (by decide) (by decide) (Calm.refl _)) (Calm.refl _)
  generalize hs3 : Machine.forEach ((runningCanvases s).filter (placedOn s k)) (fun c u => changeOn x c
    (((runningCanvases s).filter (placedOn s k)).filter (fun c => isLate s c g) |>.contains c) u) s2 = s3
  have c3 : Calm s2 s3 := by
    rw [← hs3]
    exact Calm.forEach (Calm.refl _) (fun _ _ h => calm_changeOn _ _ _ h)
  have i3 : s3.vat.inputs = s.vat.inputs ++ [x] := (c2.trans c3).log.inputs.trans i1
  have v3 : newestVersion s3 k = newestVersion s k + 1 := (newestVersion_congr (c2.trans c3).log.versions k).trans v1
  generalize hs4 : pruneLog s3 = s4
  have r4 : RingCalm s3 s4 := by rw [← hs4]; exact ⟨fun _ _ => rfl, fun _ _ => rfl, fun _ _ => rfl, rfl⟩
  have v4 : newestVersion s4 k = newestVersion s k + 1 := by rw [← v3, ← hs4]; rfl
  have i4 : x ∈ s4.vat.inputs := by
    rw [← hs4]
    refine pruneLog_keeps (by rw [i3]; simp) (by rw [← hx]; exact hk) (fun q hq e => ?_)
    rw [i3, List.mem_append, List.mem_singleton] at hq
    rcases hq with hq | rfl
    · have := hn q hq (by rw [e, ← hx])
      rw [← hx]; dsimp only; omega
    · exact Nat.le_refl _
  have c5 := calm_releaseOnInput x (Calm.refl s4)
  generalize releaseOnInput x s4 = s5 at c5 ⊢
  have c6 : Calm s5 (if get s5 fld.inputLogMax.MAX_USED < s5.vat.inputs.length then put fld.inputLogMax.MAX_USED s5.vat.inputs.length s5 else s5) :=
    Calm.ite (calm_put _ _ _ _ (by decide) (by decide) (by decide) (Calm.refl _)) (Calm.refl _)
  generalize (if get s5 fld.inputLogMax.MAX_USED < s5.vat.inputs.length then put fld.inputLogMax.MAX_USED s5.vat.inputs.length s5 else s5) = s6 at c6 ⊢
  have c7 : Calm s4 (if s5.vat.inputs.length = logSize then raise0 38 (setBit fld.inputLogStatus.FULL 0 s6) else s6) :=
    (c5.trans c6).trans (Calm.ite (calm_raise0 _ (calm_put _ _ _ _ (by decide) (by decide) (by decide) (Calm.refl _))) (Calm.refl _))
  refine ⟨⟨(newestVersion_congr c7.log.versions k).trans v4, ?_⟩, ((r1.trans (c2.trans c3).ring).trans r4).trans c7.ring⟩
  show x ∈ (if s5.vat.inputs.length = logSize then raise0 38 (setBit fld.inputLogStatus.FULL 0 s6) else s6).vat.inputs
  rw [c7.log.inputs]
  exact i4

/-- A command whose change enters the log. -/
theorem change_completes {s : State} {h : Cmd} (hs : Starts s h 1) (op : Nat) (entry : List W32) (k : InKey) (value buf : W32)
    (g : ATarget) (hr : logRoom s = true) (hd : s.vat.badNext = false) (hk : k.kind ≠ 7 ∨ k.idx < 1024) (hn : NextIsNewest s k) (i : Instr) (body : State → CmdEnd)
    (hb : body s = cmdChange h op entry k value buf g s) (he : entry.length / 8 = 1) :
    ∃ t, cmdRow i h op entry body s = t ∧ Completes s t h 1 ∧ EntersLog s t k value buf g := by
  obtain ⟨⟨e1, e2⟩, rc⟩ := logChange_enters k value buf g s hd hk hn
  generalize hx : logChange k value buf g s = x at e1 e2 rc
  have body' : body s = .ends 0 (newestVersion x k) x := by
    rw [hb]; unfold cmdChange; rw [if_pos hr, hx]
  obtain ⟨t, ht, hc, -, -, k3, -, -⟩ := ends_ok hs.entry rc.stay op entry (newestVersion x k)
  refine ⟨t, ?_, hc, ?_, ?_⟩
  · rw [cmdRow_starts (span := 1) hs he, body', ht]
  · rw [newestVersion_congr (s := x) (t := t) (by rw [k3])]; exact e1
  · rw [k3]; exact e2

/-- A record that fails its parity changes the log in nothing but the discarded record (R286). -/
theorem discardChange_calm (s : State) : RingCalm s (discardChange s) ∧ (discardChange s).vat = { s.vat with badNext := false } := by
  unfold discardChange
  generalize hx : ({ s with vat := { s.vat with badNext := false } } : State) = x
  have c : Calm s x := by rw [← hx]; exact (Calm.refl s).same rfl rfl ⟨rfl, rfl, rfl⟩
  have c2 := calm_raise0 10 (calm_put fld.hostStatus.HOST_STATUS (get (bump .poison x) fld.hostStatus.HOST_STATUS ||| 2 ^ 1) 0 0
    (by decide) (by decide) (by decide) (calm_bump .poison c))
  refine ⟨c2.ring, ?_⟩
  rw [(eventOnly_raise0 _ _).frame, ← hx]; rfl

theorem cue_completes {s : State} {h : Cmd} (hs : Starts s h 1) (index value : W32) (tgt : Tgt) (g : ATarget) (k : InKey)
    (hg : parseTarget s h.ctx.toNat tgt = some g) (hi : index.toNat < 65536) (hk : k = (⟨1, h.ctx.toNat, index.toNat⟩ : InKey)) :
    (logRoom s = true → s.vat.badNext = false → NextIsNewest s k →
      ∃ t, exec (.cue h index value tgt) s = .next t ∧ Completes s t h 1 ∧ EntersLog s t k value 0 g) ∧
    (logRoom s = true → s.vat.badNext = true →
      ∃ t, exec (.cue h index value tgt) s = .next t ∧ Completes s t h 1 ∧ t.vat = { s.vat with badNext := false }) ∧
    (logRoom s = false → ∃ t, exec (.cue h index value tgt) s = .next t ∧
      t.vat = { s.vat with waiting := s.vat.waiting ++ [⟨k, value, 0, g, some (h, 2, cueEntry h index value tgt)⟩] } ∧
      ringBusy t h.ring = true ∧ counter t Cnt.inputLogFull.ctorIdx = counter s Cnt.inputLogFull.ctorIdx + 1) := by
  have body : cmdCue h index value tgt s = cmdChange h 0x02 (cueEntry h index value tgt) k value 0 g s := by
    unfold cmdCue
    rw [hg]
    dsimp only
    rw [if_neg (by omega), hk]
  have ex : exec (.cue h index value tgt) s = .next (cmdRow (.cue h index value tgt) h 0x02 (cueEntry h index value tgt) (cmdCue h index value tgt) s) := rfl
  refine ⟨fun hr hd hn => ?_, fun hr hd => ?_, fun hr => ?_⟩
  · obtain ⟨t, ht, hc, hl⟩ := change_completes hs 0x02 (cueEntry h index value tgt) k value 0 g hr hd (.inl (by rw [hk]; simp)) hn (.cue h index value tgt) _ body (by simp [cueEntry])
    exact ⟨t, by rw [ex, ht], hc, hl⟩
  · obtain ⟨c1, c2⟩ := discardChange_calm s
    obtain ⟨t, ht, hc, -, -, k3, -, -⟩ := ends_ok hs.entry c1.stay 0x02 (cueEntry h index value tgt) (newestVersion (discardChange s) k)
    refine ⟨t, ?_, hc, k3.trans c2⟩
    rw [ex, cmdRow_starts (span := 1) hs (by simp [cueEntry]), body]
    unfold cmdChange logChange
    rw [if_pos hr, hd, if_pos rfl, ht]
  · refine ⟨_, ex, ?_⟩
    rw [cmdRow_starts (span := 1) hs (by simp [cueEntry]), body]
    unfold cmdChange
    rw [if_neg (by simp [hr])]
    refine ⟨rfl, ?_, counter_bump_same _ _⟩
    unfold ringBusy waitChange
    simp [bump, count]

/-! ## Allocations -/

theorem allocPlace_some {s : State} {n : Nat} (h : ∃ b, mibFree s b n = true) : ∃ b, allocPlace s n = some b ∧ mibFree s b n = true := by
  cases hp : allocPlace s n with
  | some b => exact ⟨b, rfl, List.find?_some (p := fun b => mibFree s b n) hp⟩
  | none =>
    exfalso
    unfold allocPlace at hp
    rw [List.find?_eq_none] at hp
    obtain ⟨b, hb⟩ := h
    unfold mibFree at hb hp
    simp only [Bool.and_eq_true, decide_eq_true_eq, List.all_eq_true, Bool.or_eq_true] at hb
    -- the highest end below `b`
    have key : ∀ (xs : List Alloc), (∀ a ∈ xs, a ∈ s.hst.allocs) →
        ∃ m, m ≤ b ∧ (m = 0 ∨ ∃ a ∈ s.hst.allocs, m = a.base + a.size) ∧ ∀ a ∈ xs, a.base + a.size ≤ b → a.base + a.size ≤ m := by
      intro xs
      induction xs with
      | nil => exact fun _ => ⟨0, Nat.zero_le _, .inl rfl, by simp⟩
      | cons a xs ih =>
        intro ha
        obtain ⟨m, h1, h2, h3⟩ := ih (fun x hx => ha x (List.mem_cons_of_mem _ hx))
        by_cases hc : a.base + a.size ≤ b ∧ m < a.base + a.size
        · refine ⟨a.base + a.size, hc.1, .inr ⟨a, ha a List.mem_cons_self, rfl⟩, fun x hx hxb => ?_⟩
          rcases List.mem_cons.mp hx with rfl | hx
          · exact Nat.le_refl _
          · have := h3 x hx hxb; omega
        · refine ⟨m, h1, h2, fun x hx hxb => ?_⟩
          rcases List.mem_cons.mp hx with rfl | hx
          · omega
          · exact h3 x hx hxb
    obtain ⟨m, h1, h2, h3⟩ := key s.hst.allocs (fun _ h => h)
    refine hp m ?_ ?_
    · rcases h2 with rfl | ⟨a, ha, rfl⟩
      · simp
      · refine List.mem_cons_of_mem _ (List.mem_cons_of_mem _ (List.mem_map.mpr ⟨a, ha, rfl⟩))
    · simp only [Bool.and_eq_true, decide_eq_true_eq, List.all_eq_true, Bool.or_eq_true]
      refine ⟨by omega, fun a ha => ?_⟩
      rcases hb.2 a ha with h4 | h4
      · left; omega
      · right; exact h3 a ha h4

theorem refreshCtx_fmem (c : Nat) (s : State) : (refreshCtx c s).fmem = s.fmem ∧ (refreshCtx c s).vat = s.vat ∧
    ∀ r i j, r ≠ .ringTail → r ≠ .ringStatus → r ≠ .hostStatus → r ≠ .ctxStatus → r ≠ .ctxEvent → rd (refreshCtx c s) r i j = rd s r i j := by
  have w := (within_refreshCtx c (μ := footprint [.ringTail, .ringStatus, .hostStatus, .ctxStatus, .ctxEvent] [.cnt, .hmem, .hst]) (by decide +kernel) (Within.refl s)).leaves [.ringTail, .ringStatus, .hostStatus, .ctxStatus, .ctxEvent] [.cnt, .hmem, .hst] (by decide +kernel)
  exact ⟨w.2 .fmem (by decide), w.2 .vat (by decide), fun r i j h1 h2 h3 h4 h5 => w.1 r (by simp [h1, h2, h3, h4, h5]) i j⟩

theorem alloc_completes {s : State} {h : Cmd} (hs : Starts s h 1) (mib : W32) (h1 : 1 ≤ mib.toNat) (h2 : mib.toNat ≤ memMib s.member)
    (h3 : memQuotaHit s h.ctx.toNat = false) (h4 : ∃ b, mibFree s b mib.toNat = true) :
    ∃ t b, exec (.alloc h mib) s = .next t ∧ Completes s t h 1 ∧ mibFree s b mib.toNat = true ∧
          t.hst.allocs = s.hst.allocs ++ [⟨b, mib.toNat, h.ctx.toNat, none⟩] ∧
          ∀ a, memGet t.fmem a =
            if b * 1048576 ≤ a ∧ a < (b + mib.toNat) * 1048576 then 0 else memGet s.fmem a := by
  obtain ⟨b, hb, hf⟩ := allocPlace_some h4
  generalize hs1 : fmemZero (b * 1048576) (mib.toNat * 1048576)
    { s with hst := { s.hst with allocs := s.hst.allocs ++ [⟨b, mib.toNat, h.ctx.toNat, none⟩] } } = s1
  have body : cmdAlloc h mib s = .ends 0 (BitVec.ofNat 32 (b * 4096)) (draw (refreshCtx h.ctx.toNat s1)) := by
    unfold cmdAlloc
    dsimp only
    rw [if_neg (by simp; omega), if_neg (by simp [h3]), hb, ← hs1]
  have hc := calm_draw (calm_refreshCtx h.ctx.toNat (Calm.refl s1))
  have hx : RingsStay s (draw (refreshCtx h.ctx.toNat s1)) :=
    (ringsStay_regs (by rw [← hs1]; rfl) (by rw [← hs1]; rfl)).trans hc.ring.stay
  obtain ⟨t, ht, hcp, -, k2, -, ⟨e, m, p, q, w, k4⟩, -⟩ := ends_ok hs.entry hx 0x10 [cmdWord h 0x10 false, mib, 0, 0, 0, 0, 0, 0] (BitVec.ofNat 32 (b * 4096))
  refine ⟨t, b, ?_, hcp, hf, ?_, fun a => ?_⟩
  · show Host.Outcome.next (doAlloc cmdRow h mib s) = _
    unfold doAlloc
    rw [cmdRow_starts (span := 1) hs (by simp), body, ht]
  · rw [k4, hc.ring.host, ← hs1]; rfl
  · rw [k2]
    have : (draw (refreshCtx h.ctx.toNat s1)).fmem = s1.fmem :=
      (refreshCtx_fmem h.ctx.toNat s1).1
    rw [this, ← hs1]
    show memGet (memZero s.fmem (b * 1048576) (mib.toNat * 1048576)) a = _
    rw [memGet_memZero, Nat.add_mul]
    by_cases hq : b * 1048576 ≤ a ∧ a < b * 1048576 + mib.toNat * 1048576
    · rw [if_pos hq, if_neg (by omega)]
    · rw [if_neg hq, if_pos (by omega)]

theorem retire_completes {s : State} {h : Cmd} (hs : Starts s h 1) (addr : W32) (a : Alloc) (n : W32)
    (ha : s.hst.allocs.find? (fun x => x.base * 4096 == addr.toNat && x.ctx == h.ctx.toNat) = some a)
    (h1 : a.fence = none) (h2 : allocUsed s a = false) (hn : n = Map.get (fun _ => 0) s.hst.fenceNext h.ctx.toNat + 1) :
        ∃ t, exec (.retire h addr) s = .next t ∧ Completes s t h 1 ∧
          Map.get (fun _ => 0) t.hst.fenceNext h.ctx.toNat = n ∧ ({ a with fence := some n } : Alloc) ∈ t.hst.allocs ∧
          t.hst.fences = s.hst.fences ++
            [⟨h.ctx.toNat, n, a.base, s.sch.nextId, firmJobs s h.ctx.toNat⟩] := by
  generalize hs1 : ({ s with hst := { s.hst with
        allocs := s.hst.allocs.map (fun x => if x = a then { x with fence := some n } else x)
        fenceNext := Map.put s.hst.fenceNext h.ctx.toNat n
        fences := s.hst.fences ++ [⟨h.ctx.toNat, n, a.base, s.sch.nextId, firmJobs s h.ctx.toNat⟩] } } : State) = s1
  have body : cmdRetire h addr s = .ends 0 n s1 := by
    unfold cmdRetire
    dsimp only
    rw [ha]
    dsimp only
    rw [h1, h2, if_neg (by simp), ← hn, ← hs1]
  have hx : RingsStay s s1 := ringsStay_regs (by rw [← hs1]) (by rw [← hs1])
  obtain ⟨t, ht, hcp, -, -, -, ⟨e, m, p, q, w, k4⟩, -⟩ := ends_ok hs.entry hx 0x11 [cmdWord h 0x11 false, addr, 0, 0, 0, 0, 0, 0] n
  refine ⟨t, ?_, hcp, ?_, ?_, ?_⟩
  · show Host.Outcome.next (doRetire cmdRow h addr s) = _
    unfold doRetire
    rw [cmdRow_starts (span := 1) hs (by simp), body, ht]
  · rw [k4, ← hs1]
    exact map_get_put_same _ _ _ _
  · rw [k4, ← hs1]
    exact List.mem_map.mpr ⟨a, List.mem_of_find?_eq_some ha, by simp⟩
  · rw [k4, ← hs1]

theorem layerOf_congr {s t : State} (h : t.hst.layers = s.hst.layers) (q : Nat) : layerOf t q = layerOf s q := by
  unfold layerOf; rw [h]

theorem layerOf_setLayer (n : Nat) (l : Layer) (s : State) (q : Nat) : layerOf (setLayer n l s) q = if q = n then some l else layerOf s q := by
  unfold layerOf setLayer
  by_cases h : q = n
  · subst h; simp
  · rw [if_neg h]; exact map_find_put_ne _ _ h

theorem layerNew_completes {s : State} {h : Cmd} (hs : Starts s h 1) (layer size form pool nbuf : W32) (l : Layer) (h0 : layer.toNat < 1024)
    (hl : l = ⟨h.ctx.toNat, size.toNat % 65536, size.toNat / 65536, form.toNat % 4, form.toNat / 4 % 2 == 1,
          if form.toNat / 8 % 2 = 1 then some (form.toNat / 16 % 64) else none, pool, nbuf.toNat % 16⟩)
    (h1 : 1 ≤ l.width) (h2 : l.width ≤ 16384) (h3 : 1 ≤ l.height) (h4 : l.height ≤ 16384) (h5 : l.fmt ≠ 3) (h6 : 2 ≤ l.nbuf) (h7 : l.nbuf ≤ 8)
    (h8 : ctxHolds s h.ctx.toNat (pool.toNat * 256) (l.nbuf * bufStride l) = true) (h9 : layerOf s layer.toNat = none)
    (h10 : layerQuotaHit s h.ctx.toNat = false) :
        ∃ t, exec (.layerNew h layer size form pool nbuf) s = .next t ∧ Completes s t h 1 ∧
          (∀ q, layerOf t q = if q = layer.toNat then some l else layerOf s q) ∧
          (on t fld.layerStatus.VALID layer.toNat = true ∧ get t fld.layerStatus.CTX layer.toNat = h.ctx.toNat ∧
            rd t .layerVersion layer.toNat = 0) ∧
          ∀ a, memGet t.fmem a =
            if pool.toNat * 256 ≤ a ∧ a < pool.toNat * 256 + bufStride l then 0 else memGet s.fmem a := by
  generalize hs1 : fmemZero (pool.toNat * 256) (bufStride l) (setLayer layer.toNat l s) = s1
  generalize hs2 : wr .layerDoneEpoch 0 (wr .layerVersion 0 (wr .layerStatus (BitVec.ofNat 32 (1 + 65536 * h.ctx.toNat)) s1 layer.toNat) layer.toNat) layer.toNat = s2
  have body : cmdLayerNew h layer size form pool nbuf s = .ends 0 0 (refreshCtx h.ctx.toNat s2) := by
    unfold cmdLayerNew
    extract_lets c n l'
    have e : l' = l := hl.symm
    clear_value l'
    subst e
    rw [h8, if_neg, if_neg (by simp [h9, n]), if_neg (by simp [h10, c])]
    · rw [← hs2, ← hs1]
    · simp only [Bool.or_eq_true, decide_eq_true_eq, Bool.not_true, not_or, Bool.false_eq_true, not_false_eq_true, and_true]
      omega
  have w2 : Calm s1 s2 := by
    rw [← hs2]
    exact calm_wr _ _ _ _ (by decide) (by decide) (by decide) (calm_wr _ _ _ _ (by decide) (by decide) (by decide)
      (calm_wr _ _ _ _ (by decide) (by decide) (by decide) (Calm.refl _)))
  have hc := calm_refreshCtx h.ctx.toNat w2
  have hx : RingsStay s (refreshCtx h.ctx.toNat s2) :=
    (ringsStay_regs (by rw [← hs1]; rfl) (by rw [← hs1]; rfl)).trans hc.ring.stay
  have r2 := refreshCtx_fmem h.ctx.toNat s2
  obtain ⟨t, ht, hcp, -, k2, -, ⟨e, m, p, q, w, k4⟩, k5⟩ := ends_ok hs.entry hx 0x20 [cmdWord h 0x20 false, layer, size, form, pool, nbuf, 0, 0] 0
  have hreg : ∀ r, r = .layerStatus ∨ r = .layerVersion → rd t r layer.toNat 0 = rd s2 r layer.toNat 0 := by
    rintro r (rfl | rfl) <;>
    exact (k5 _ _ _ (by decide) (by decide) (by decide) (by decide) (by decide)).trans (r2.2.2 _ _ _ (by decide) (by decide) (by decide) (by decide) (by decide))
  have hst2 : rd s2 .layerStatus layer.toNat 0 = BitVec.ofNat 32 (1 + 65536 * h.ctx.toNat) := by
    rw [← hs2, rd_wr_reg (by decide), rd_wr_reg (by decide), rd_wr_same]
  have hct := h.ctx.isLt
  refine ⟨t, ?_, hcp, fun q => ?_, ⟨?_, ?_, ?_⟩, fun a => ?_⟩
  · show Host.Outcome.next (doLayerNew cmdRow h layer size form pool nbuf s) = _
    unfold doLayerNew
    rw [cmdRow_starts (span := 1) hs (by simp), body, ht]
  · rw [← layerOf_setLayer]
    refine (layerOf_congr ?_ q).trans (layerOf_congr (t := s1) (by rw [← hs1]; rfl) q)
    rw [k4, hc.ring.host]
  · unfold on get
    rw [show rd t fld.layerStatus.VALID.reg layer.toNat 0 = _ from (hreg _ (.inl rfl)).trans hst2]
    simp [bitsOf, fld.layerStatus.VALID]
    omega
  · unfold get
    rw [show rd t fld.layerStatus.CTX.reg layer.toNat 0 = _ from (hreg _ (.inl rfl)).trans hst2]
    simp [bitsOf, fld.layerStatus.CTX]
    omega
  · rw [hreg _ (.inr rfl), ← hs2, rd_wr_reg (by decide), rd_wr_same]
  · rw [k2, r2.1, ← hs2]
    show memGet s1.fmem a = _
    rw [← hs1]
    show memGet (memZero s.fmem (pool.toNat * 256) (bufStride l)) a = _
    rw [memGet_memZero]
    by_cases hq : pool.toNat * 256 ≤ a ∧ a < pool.toNat * 256 + bufStride l
    · rw [if_pos hq, if_neg (by omega)]
    · rw [if_neg hq, if_pos (by omega)]

theorem layerSet_completes {s : State} {h : Cmd} (hs : Starts s h 1) (layer buf : W32) (l : Layer) (tgt : Tgt) (g : ATarget)
    (h1 : layerOf s layer.toNat = some l) (h2 : l.ctx = h.ctx.toNat) (h3 : parseTarget s h.ctx.toNat tgt = some g)
    (h4 : l.host = false) (h5 : ctxHolds s h.ctx.toNat (buf.toNat * 256) (bufStride l) = true) (h6 : layer.toNat < 1024) (hr : logRoom s = true)
    (hd : s.vat.badNext = false) (hn : NextIsNewest s ⟨7, 0, layer.toNat⟩) :
    ∃ t, exec (.layerSet h layer buf tgt) s = .next t ∧ Completes s t h 1 ∧
      EntersLog s t ⟨7, 0, layer.toNat⟩ (BitVec.ofNat 32 (l.width + 65536 * l.height)) buf g := by
  have body : cmdLayerSet h layer buf tgt s =
      cmdChange h 0x21 (setEntry h layer buf tgt) ⟨7, 0, layer.toNat⟩ (layerValue l) buf g s := by
    unfold cmdLayerSet
    dsimp only
    rw [h1, h3]
    dsimp only
    rw [h2, h4, h5, if_neg (by simp)]
  obtain ⟨t, ht, hc, hl⟩ := change_completes hs 0x21 (setEntry h layer buf tgt) _ _ _ _ hr hd (.inr h6) hn (.layerSet h layer buf tgt) _ body (by simp [setEntry])
  refine ⟨t, ?_, hc, hl⟩
  show Host.Outcome.next (doLayerSet cmdRow h layer buf tgt s) = _
  unfold doLayerSet
  rw [ht]

theorem import_starts {s : State} {h : Cmd} (hs : Starts s h 1) (layer lo hi pitch : W32) (l : Layer) (tgt : Tgt) (g : ATarget)
    (h1 : layerOf s layer.toNat = some l) (h2 : l.ctx = h.ctx.toNat) (h3 : parseTarget s h.ctx.toNat tgt = some g)
    (h4 : l.host = true)
    (h6 : ∃ b ∈ poolBufs l, bufsDone s l.ctx (fun x => x == b) s.sch.nextId (firmJobs s l.ctx) = true) :
    ∃ b i, b ∈ poolBufs l ∧ bufsDone s l.ctx (fun x => x == b) s.sch.nextId (firmJobs s l.ctx) = true ∧
      i.layer = layer.toNat ∧ i.buf = b ∧ i.addr = BitVec.ofNat 64 (lo.toNat + 2 ^ 32 * hi.toNat) ∧ i.pitch = pitch.toNat % 2 ^ 24 ∧ i.cmd = some h ∧ i.target = g ∧
      exec (.importLayer h layer lo hi pitch tgt) s = .next { s with hst := { s.hst with imports := s.hst.imports ++ [i] } } := by
  cases hb : freeBuf s l with
  | none =>
    exfalso
    unfold freeBuf at hb
    rw [List.find?_eq_none] at hb
    obtain ⟨b, hb1, hb2⟩ := h6
    exact hb b hb1 hb2
  | some b =>
    refine ⟨b, ⟨layer.toNat, b, BitVec.ofNat 64 (lo.toNat + 2 ^ 32 * hi.toNat), pitch.toNat % 2 ^ 24, some h,
        [cmdWord h 0x22 false, layer, lo, hi, pitch, tgt.w3, tgt.w4, tgt.w5], g, 0⟩,
      List.mem_of_find?_eq_some hb,
      List.find?_some (p := fun b => bufsDone s l.ctx (fun x => x == b) s.sch.nextId (firmJobs s l.ctx)) hb,
      rfl, rfl, rfl, rfl, rfl, rfl, ?_⟩
    show Host.Outcome.next (doImport cmdRow h layer lo hi pitch tgt s) = _
    unfold doImport
    dsimp only
    rw [cmdRow_starts (span := 1) hs (by simp)]
    unfold cmdImport
    dsimp only
    rw [h1, h3]
    dsimp only
    rw [h2, h4, if_neg (by simp), hb]
    rfl

theorem layerDel_completes {s : State} {h : Cmd} (hs : Starts s h 1) (layer : W32) (l : Layer)
    (h1 : layerOf s layer.toNat = some l) (h2 : l.ctx = h.ctx.toNat) (h5 : ∀ i ∈ s.hst.imports, i.layer ≠ layer.toNat) :
    ∃ t, exec (.layerDel h layer) s = .next t ∧ Completes s t h 1 ∧
          (∀ q, layerOf t q = if q = layer.toNat then none else layerOf s q) ∧ rd t .layerStatus layer.toNat = 0 ∧
          t.hst.gone = s.hst.gone ++ [⟨layer.toNat, s.sch.nextId, 1024 + s.hst.goneCount, l⟩] ∧
          t.vat.inputs = s.vat.inputs.map (fun x =>
            if x.key = ⟨7, 0, layer.toNat⟩ then { x with key := ⟨7, 0, 1024 + s.hst.goneCount⟩ } else x) := by
  generalize hs1 : rekeyLayer layer.toNat (1024 + s.hst.goneCount) ({ s with hst := { s.hst with
        layers := Map.del s.hst.layers layer.toNat
        gone := s.hst.gone ++ [⟨layer.toNat, s.sch.nextId, 1024 + s.hst.goneCount, l⟩], goneCount := s.hst.goneCount + 1 } } : State) = s1
  generalize hs2 : wr .layerVersion 0 (wr .layerStatus 0 s1 layer.toNat) layer.toNat = s2
  have hi : s.hst.imports.any (fun i => i.layer == layer.toNat) = false := by
    rw [List.any_eq_false]
    intro i hi
    simpa using h5 i hi
  have body : cmdLayerDel h layer s = .ends 0 0 (refreshCtx l.ctx s2) := by
    unfold cmdLayerDel
    dsimp only
    rw [h1]
    dsimp only
    rw [hi, h2, if_neg (by simp), if_neg (by simp), ← h2, ← hs2, ← hs1]
  have w2 : Calm s1 s2 := by
    rw [← hs2]
    exact calm_wr _ _ _ _ (by decide) (by decide) (by decide) (calm_wr _ _ _ _ (by decide) (by decide) (by decide) (Calm.refl _))
  have hc := calm_refreshCtx l.ctx w2
  have hx : RingsStay s (refreshCtx l.ctx s2) :=
    (ringsStay_regs (by rw [← hs1]; rfl) (by rw [← hs1]; rfl)).trans hc.ring.stay
  have r2 := refreshCtx_fmem l.ctx s2
  obtain ⟨t, ht, hcp, -, -, k3, ⟨e, m, p, q, w, k4⟩, k5⟩ := ends_ok hs.entry hx 0x23 [cmdWord h 0x23 false, layer, 0, 0, 0, 0, 0, 0] 0
  refine ⟨t, ?_, hcp, fun q => ?_, ?_, ?_, ?_⟩
  · show Host.Outcome.next (doLayerDel cmdRow h layer s) = _
    unfold doLayerDel
    rw [cmdRow_starts (span := 1) hs (by simp), body, ht]
  · rw [layerOf_congr (s := s1) (t := t) (by rw [k4, hc.ring.host]), ← hs1]
    unfold layerOf rekeyLayer
    by_cases h : q = layer.toNat
    · subst h; rw [if_pos rfl]; exact map_find_del_same _ _
    · rw [if_neg h]; exact map_find_del_ne _ h
  · rw [(k5 _ _ _ (by decide) (by decide) (by decide) (by decide) (by decide)).trans (r2.2.2 _ _ _ (by decide) (by decide) (by decide) (by decide) (by decide)),
      ← hs2, rd_wr_reg (by decide), rd_wr_same]
  · rw [k4, hc.ring.host, ← hs1]; rfl
  · rw [k3, hc.log.inputs, ← hs1]; rfl

theorem bad_form {s : State} {h : Cmd} {op : Byte} {ext p : Bool} (hs : AtHead s h (if ext then 2 else 1)) :
    exec (.badCommand h op ext p) s = .next (if p = true then
      completeCmd h op.toNat (if ext then 2 else 1) 0x1A 0 (raise0 10 (notePoison h.ring s))
    else if standby s = true then completeCmd h op.toNat (if ext then 2 else 1) 0x1C 0 s
    else if knownOp op.toNat = false then completeCmd h op.toNat (if ext then 2 else 1) 0x10 0 s
    else if mayCommand s h = false then completeCmd h op.toNat (if ext then 2 else 1) 0x12 0 s
    else if (ext != (op == 1)) = true then completeCmd h op.toNat (if ext then 2 else 1) 0x11 0 s
    else s) := by
  show Host.Outcome.next _ = _
  rw [hs.first.2, if_neg (by simp)]
  unfold badEntry
  dsimp only
  rw [ringIdle_of hs, if_neg (by simp), hs.record, if_neg (by simp)]
  simp only [Bool.not_eq_true']

/-! ## What an event raised keeps -/

/-- A relation that the steps of an event keep holds across it. -/
theorem raiseF_rel {R : State → State → Prop} (h0 : ∀ t, R t t) (ht : ∀ {a b c}, R a b → R b c → R a c)
    (hd : ∀ f ev d t, R t (deliverTo f ev d t)) (hs : ∀ b t r, R t (setBit fld.ringStatus.RING_STATUS b t r))
    (hb : ∀ t, R t (bump .evtDrop t)) (fuel ev detail : Nat) (s : State) : R s (raiseF fuel ev detail s) := by
  induction fuel generalizing ev detail s with
  | zero => exact h0 s
  | succ n ih =>
    unfold raiseF
    generalize List.range 32 = fs
    induction fs generalizing s with
    | nil => exact h0 s
    | cons f fs ihf =>
      rw [List.foldl_cons]
      refine ht ?_ (ihf _)
      split
      · extract_lets r x y
        split
        · have hy : R s y := by
            unfold y
            split
            · exact ht (ht (hd f ev detail s) (hs _ _ _)) (ih _ _ _)
            · exact hd f ev detail s
          split
          · exact hy
          · exact ht hy (ih _ _ _)
        · split
          · exact h0 s
          · exact ht (ht (hb s) (hs _ _ _)) (ih _ _ _)
      · exact h0 s

theorem ringProduce_rel {R : State → State → Prop} (h0 : ∀ t, R t t) (ht : ∀ {a b c}, R a b → R b c → R a c)
    (hd : ∀ f ev d t, R t (deliverTo f ev d t)) (hs : ∀ b t r, R t (setBit fld.ringStatus.RING_STATUS b t r))
    (hb : ∀ t, R t (bump .evtDrop t)) (ha : ∀ r ws t, R t (ringAppend r ws t)) (r : Nat) (ws : List W32) (s : State) :
    R s (ringProduce r ws s) := by
  unfold ringProduce
  extract_lets x y
  have hy : R s y := by
    unfold y
    split
    · exact ht (ht (ha r ws s) (hs _ _ _)) (raiseF_rel h0 ht hd hs hb _ _ _ _)
    · exact ha r ws s
  split
  · exact hy
  · exact ht hy (raiseF_rel h0 ht hd hs hb _ _ _ _)

/-- With no word that fails its parity, none fails and none is counted. -/
def Clean (s t : State) : Prop :=
  s.hst.parity = [] → t.hst.parity = [] ∧ counter t Cnt.poison.ctorIdx = counter s Cnt.poison.ctorIdx

theorem Clean.refl (s : State) : Clean s s := fun h => ⟨h, rfl⟩

theorem Clean.trans {a b c : State} (h : Clean a b) (k : Clean b c) : Clean a c :=
  fun e => ⟨(k (h e).1).1, (k (h e).1).2.trans (h e).2⟩

theorem clean_ringAppend (r : Nat) (ws : List W32) (s : State) : Clean s (ringAppend r ws s) := by
  intro h
  have p : parityOf s r = 0 := by unfold parityOf; rw [h]; rfl
  have j : judgeParity r s = s := if_pos p
  unfold ringAppend
  dsimp only
  rw [j]
  exact ⟨h, rfl⟩

theorem clean_deliverTo (f ev d : Nat) (s : State) : Clean s (deliverTo f ev d s) := by
  intro h
  obtain ⟨a, b⟩ := clean_ringAppend (get s fld.route.RING f ev) (eventRecord s f ev d) s h
  unfold deliverTo signalVector
  dsimp only
  split
  · split
    · exact ⟨a, b⟩
    · split
      · exact ⟨a, b⟩
      · exact ⟨a, b⟩
  · exact ⟨a, b⟩

theorem clean_status (b : Nat) (s : State) (r : Nat) : Clean s (setBit fld.ringStatus.RING_STATUS b s r) := fun h => ⟨h, rfl⟩

theorem clean_bump (c : Cnt) (s : State) (hc : Cnt.poison.ctorIdx ≠ c.ctorIdx) : Clean s (bump c s) :=
  fun h => ⟨h, counter_bump_ne _ _ _ hc⟩

theorem clean_drop (s : State) : Clean s (bump .evtDrop s) := clean_bump _ _ (by decide)

theorem clean_raise (ev d : Nat) (s : State) : Clean s (raise ev d s) :=
  raiseF_rel (R := Clean) Clean.refl Clean.trans clean_deliverTo clean_status clean_drop 64 ev d s

theorem clean_ringProduce (r : Nat) (ws : List W32) (s : State) : Clean s (ringProduce r ws s) :=
  ringProduce_rel (R := Clean) Clean.refl Clean.trans clean_deliverTo clean_status clean_drop clean_ringAppend r ws s

theorem clean_produceOrWait (c f : Nat) (ws : List W32) (s : State) : Clean s (produceOrWait c f ws s) := by
  unfold produceOrWait
  dsimp only
  split
  · exact clean_ringProduce _ _ _
  · exact fun h => ⟨h, rfl⟩

theorem clean_advanceHead (r n : Nat) (s : State) : Clean s (advanceHead r n s) := by
  unfold advanceHead
  split <;> exact fun h => ⟨h, rfl⟩

/-- Bits of HOST_STATUS that are set stay set. -/
def HostKeeps (s t : State) : Prop :=
  ∀ b, hasBit s fld.hostStatus.HOST_STATUS b = true → hasBit t fld.hostStatus.HOST_STATUS b = true

theorem HostKeeps.refl (s : State) : HostKeeps s s := fun _ h => h

theorem HostKeeps.trans {a b c : State} (h : HostKeeps a b) (k : HostKeeps b c) : HostKeeps a c := fun i e => k i (h i e)

theorem HostKeeps.same {s t : State} (h : rd t .hostStatus 0 0 = rd s .hostStatus 0 0) : HostKeeps s t :=
  fun b e => (hasBit_rd (f := fld.hostStatus.HOST_STATUS) h b).trans e

theorem hostKeeps_ringAppend (r : Nat) (ws : List W32) (s : State) : HostKeeps s (ringAppend r ws s) := by
  refine HostKeeps.trans (b := judgeParity r s) ?_ (.same ?_)
  · unfold judgeParity notePoison
    split
    · exact fun _ h => h
    · intro b h
      refine (hasBit_rd (f := fld.hostStatus.HOST_STATUS) (rd_wr_reg (by decide) _ _ _ _ _ _) b).trans ?_
      refine setBit_keeps _ _ _ _ _ _ (by decide) ?_
      exact (hasBit_rd (f := fld.hostStatus.HOST_STATUS) (rd_congr rfl _ _ _) b).trans h
  · rw [rd_congr (ringAppend_regs _ _ _)]
    exact rd_wr_reg (by decide) _ _ _ _ _ _

theorem hostKeeps_deliverTo (f ev d : Nat) (s : State) : HostKeeps s (deliverTo f ev d s) :=
  (hostKeeps_ringAppend (get s fld.route.RING f ev) (eventRecord s f ev d) s).trans
    (.same (rd_congr (deliverTo_regs f ev d s) _ _ _))

theorem hostKeeps_status (b : Nat) (s : State) (r : Nat) : HostKeeps s (setBit fld.ringStatus.RING_STATUS b s r) :=
  .same (rd_wr_reg (by decide) _ _ _ _ _ _)

theorem hostKeeps_bump (c : Cnt) (s : State) : HostKeeps s (bump c s) := fun _ h => h

theorem hostKeeps_raise (ev d : Nat) (s : State) : HostKeeps s (raise ev d s) :=
  raiseF_rel (R := HostKeeps) HostKeeps.refl HostKeeps.trans hostKeeps_deliverTo hostKeeps_status (hostKeeps_bump .evtDrop) 64 ev d s

theorem hostKeeps_produceOrWait (c f : Nat) (ws : List W32) (s : State) : HostKeeps s (produceOrWait c f ws s) := by
  unfold produceOrWait
  dsimp only
  split
  · exact ringProduce_rel (R := HostKeeps) HostKeeps.refl HostKeeps.trans hostKeeps_deliverTo hostKeeps_status (hostKeeps_bump .evtDrop)
      hostKeeps_ringAppend c ws s
  · exact fun _ h => h

theorem clean_rest (h : Cmd) (op span status : Nat) (result : W32) (s : State) : ∀ u, u = produceOrWait
    (get (advanceHead h.ring span s) fld.ringCtrl.CPL h.ring) (get (advanceHead h.ring span s) fld.ringCtrl.FN h.ring)
    (cmdRecordWords h op status result) (advanceHead h.ring span s) → Clean s u ∧ HostKeeps s u := by
  rintro u rfl
  have hh : HostKeeps s (advanceHead h.ring span s) := by
    unfold advanceHead
    split
    · exact fun _ h => h
    · exact .same (rd_wr_reg (by decide) _ _ _ _ _ _)
  exact ⟨(clean_advanceHead _ _ s).trans (clean_produceOrWait _ _ _ _), hh.trans (hostKeeps_produceOrWait _ _ _ _)⟩

/-- A command that completes counts no poisoned word where no word fails its parity. -/
theorem completeCmd_clean (h : Cmd) (op span status : Nat) (result : W32) (s : State) : Clean s (completeCmd h op span status result s) := by
  have k := (clean_rest h op span status result s _ rfl).1
  unfold completeCmd
  dsimp only
  split
  · exact k
  · exact (k.trans (clean_bump .cmdErr _ (by decide))).trans (clean_raise _ _ _)

theorem completeCmd_keeps (h : Cmd) (op span status : Nat) (result : W32) (s : State) : HostKeeps s (completeCmd h op span status result s) := by
  have k := (clean_rest h op span status result s _ rfl).2
  unfold completeCmd
  dsimp only
  split
  · exact k
  · exact k.trans ((hostKeeps_bump .cmdErr _).trans (hostKeeps_raise _ _ _))

/-- A command that completes with an error is counted. -/
theorem completeCmd_error (h : Cmd) (op span status : Nat) (result : W32) (s : State) (hst : status ≠ 0) :
    counter (completeCmd h op span status result s) Cnt.cmdErr.ctorIdx = counter s Cnt.cmdErr.ctorIdx + 1 := by
  have hp : ∀ c f ws y, counter (produceOrWait c f ws y) Cnt.cmdErr.ctorIdx = counter y Cnt.cmdErr.ctorIdx := by
    intro c f ws y
    unfold produceOrWait
    dsimp only
    split
    · exact (eventOnly_ringProduce _ _ _).cnt _ (by decide) (by decide)
    · rfl
  have ha : counter (advanceHead h.ring span s) Cnt.cmdErr.ctorIdx = counter s Cnt.cmdErr.ctorIdx := by
    unfold advanceHead; split <;> rfl
  unfold completeCmd
  dsimp only
  rw [if_neg hst, (eventOnly_raise _ _ _).cnt _ (by decide) (by decide), counter_bump_same, hp, ha]

theorem poisoned_completes {s : State} {h : Cmd} {op : Byte} {ext : Bool} (hs : AtHead s h (if ext then 2 else 1)) :
      (∃ t, exec (.badCommand h op ext true) s = .next t ∧ Completes s t h (if ext then 2 else 1) ∧
        (s.hst.parity = [] → counter t Cnt.poison.ctorIdx = counter s Cnt.poison.ctorIdx + 1) ∧
        counter t Cnt.cmdErr.ctorIdx = counter s Cnt.cmdErr.ctorIdx + 1 ∧
        hasBit t fld.hostStatus.HOST_STATUS 1 = true) := by
  refine ⟨_, (bad_form hs).trans (congrArg _ (if_pos rfl)), ?_⟩
  generalize hy : notePoison h.ring s = y
  have c0 : Calm s y := by
    rw [← hy]
    exact calm_put _ _ _ _ (by decide) (by decide) (by decide) (calm_put _ _ _ _ (by decide) (by decide) (by decide) (calm_bump _ (Calm.refl _)))
  have c1 := completeCmd_error h op.toNat (if ext then 2 else 1) 0x1A 0 (raise0 10 y) (by decide)
  have c2 := completeCmd_clean h op.toNat (if ext then 2 else 1) 0x1A 0 (raise0 10 y)
  have c3 := completeCmd_keeps h op.toNat (if ext then 2 else 1) 0x1A 0 (raise0 10 y)
  refine ⟨completes_of hs (calm_raise0 10 c0).ring.stay _ _ _, fun hq => ?_, ?_, ?_⟩
  · rw [(((clean_raise 10 noDetail y).trans c2) (by rw [← hy]; exact hq)).2, ← hy]
    exact counter_bump_same _ _
  · rw [c1, (eventOnly_raise0 10 y).cnt _ (by decide) (by decide), ← hy]
    exact congrArg (· + 1) (counter_bump_ne .poison s _ (by decide))
  · refine c3 1 (hostKeeps_raise 10 noDetail y 1 ?_)
    rw [← hy]
    refine (hasBit_rd (f := fld.hostStatus.HOST_STATUS) (rd_wr_reg (by decide) _ _ _ _ _ _) 1).trans ?_
    exact hasBit_setBit _ _ _ _ _ (by decide) (by decide)

end Sys2Proof.Machine
end

