-- ==== Sys2Proof/Laws/HostEvents.lean ====
section
/-!
SUPPORT. The BAR2 window, imports, fences, resets of functions, links, and changes that wait for the input log.
-/

namespace Sys2Proof.Machine

set_option Elab.async false


/-! ## BAR2 -/

theorem memGet_memWrite (m : List Host.Cell) (a q : Nat) (bs : List Byte) :
    memGet (memWrite m a bs) q = if a ≤ q ∧ q < a + bs.length then bs.getD (q - a) 0 else memGet m q := by
  by_cases h : a ≤ q ∧ q < a + bs.length
  · rw [if_pos h]
    have := memGet_memWrite_in m a (q - a) bs (by omega)
    rw [show a + (q - a) = q by omega] at this
    rw [this]
    simp [List.getD_eq_getElem?_getD, List.getElem?_eq_getElem (show q - a < bs.length by omega)]
  · rw [if_neg h]
    exact memGet_memWrite_out m a q bs (by omega)

theorem memRead_eq (m : List Host.Cell) (a n : Nat) : memRead m a n = (List.range n).map (fun k => memGet m (a + k)) := by
  induction n generalizing a with
  | zero => rfl
  | succ n ih =>
    rw [List.range_succ_eq_map, List.map_cons, List.map_map]
    show memGet m a :: memRead m (a + 1) n = _
    rw [ih]
    congr 1
    exact List.map_congr_left (fun k _ => by show memGet m (a + 1 + k) = memGet m (a + (k + 1)); congr 1; omega)

theorem stackRead_eq (s : State) (a n : Nat) : stackRead s a n =
    (List.range n).map (fun k => if a + k < memMib s.member * 1048576 then memGet s.fmem (a + k) else 0) := by
  unfold stackRead
  rw [memRead_eq]
  apply List.ext_getElem
  · simp
  · intro k h1 h2
    simp

theorem bar2_form {s : State} {fn off : Nat} (h1 : pcieFn s fn = true) (h2 : hostUp s fn = true) (h3 : mode s ≠ 7) (h4 : blockTested s 27 = false)
    (data : List Byte) (p : Bool) (hm : bar2May s fn (bar2Addr s fn off) data.length = true) (hs : standby s = false) (u : State)
    (hu : u = put fld.hostErrFn.HOST_ERR_FN fn (wr .hostErrAddr (BitVec.ofNat 32 (bar2Addr s fn off / 256)) (bump .retireWrite s))) :
    exec (.bar2Write fn off data p) s = .next (if bar2Lands s (bar2Addr s fn off) data.length then
      journalMem (bar2Addr s fn off) data (when p (markBad (bar2Addr s fn off) data.length) (fmemPut (bar2Addr s fn off) data s))
      else raise0 8 (setBit fld.hostStatus.HOST_STATUS 0 u)) := by
  show execBar2Write fn off data p s = _
  unfold execBar2Write
  dsimp only
  rw [h1, h2, h4, if_neg (by simp [h3]), hm, if_neg (by simp), hs, if_neg (by simp), hu]
  split <;> rfl

theorem raise0_frame (ev : Nat) (u : State) : (raise0 ev u).fmem = u.fmem ∧ (raise0 ev u).vat = u.vat ∧ (raise0 ev u).sch = u.sch := by
  unfold raise0
  have e := (eventOnly_raise ev noDetail u).frame
  generalize raise ev noDetail u = t at e ⊢
  rw [e]
  exact ⟨rfl, rfl, rfl⟩

theorem rd_raise0 (ev : Nat) (s : State) (r : RegId) (i j : Nat) (h1 : r ≠ .ringTail) (h2 : r ≠ .ringStatus) (h3 : r ≠ .hostStatus) :
    rd (raise0 ev s) r i j = rd s r i j := rd_raise ev noDetail s r i j h1 h2 h3

theorem get_raise0 (ev : Nat) (s : State) (f : Fld) (i j : Nat) (h1 : f.reg ≠ .ringTail) (h2 : f.reg ≠ .ringStatus)
    (h3 : f.reg ≠ .hostStatus) : get (raise0 ev s) f i j = get s f i j := get_raise ev noDetail s f i j h1 h2 h3

theorem on_raise0 (ev : Nat) (s : State) (f : Fld) (i j : Nat) (h1 : f.reg ≠ .ringTail) (h2 : f.reg ≠ .ringStatus)
    (h3 : f.reg ≠ .hostStatus) : on (raise0 ev s) f i j = on s f i j := on_raise ev noDetail s f i j h1 h2 h3

theorem hasBit_raise0 (ev : Nat) (s : State) (f : Fld) (b i j : Nat) (h1 : f.reg ≠ .ringTail) (h2 : f.reg ≠ .ringStatus)
    (h3 : f.reg ≠ .hostStatus) : hasBit (raise0 ev s) f b i j = hasBit s f b i j := by unfold hasBit; rw [get_raise0 _ _ _ _ _ h1 h2 h3]

theorem counter_raise0 (ev : Nat) (s : State) (k : Nat) (h : k ≠ Cnt.evtDrop.ctorIdx) (hp : k ≠ Cnt.poison.ctorIdx) :
    counter (raise0 ev s) k = counter s k := counter_raise ev noDetail s k h hp

theorem bar2_refused (fn x : Nat) (s u : State) (hu : u = put fld.hostErrFn.HOST_ERR_FN fn (wr .hostErrAddr (BitVec.ofNat 32 x) (bump .retireWrite s))) :
    ∀ t, t = raise0 8 (setBit fld.hostStatus.HOST_STATUS 0 u) → t.fmem = s.fmem ∧
          counter t Cnt.retireWrite.ctorIdx = counter s Cnt.retireWrite.ctorIdx + 1 ∧
          hasBit t fld.hostStatus.HOST_STATUS 0 = true ∧ rd t .hostErrAddr = BitVec.ofNat 32 x := by
  rintro t rfl
  refine ⟨?_, ?_, ?_, ?_⟩
  · rw [(raise0_frame _ _).1, hu]; rfl
  · rw [counter_raise0 _ _ _ (by decide) (by decide), hu]
    exact counter_bump_same .retireWrite s
  · exact hostKeeps_raise 8 noDetail _ 0 (hasBit_setBit _ _ _ _ _ (by decide) (by decide))
  · rw [rd_raise0 _ _ _ _ _ (by decide) (by decide) (by decide), hu]
    have e1 : ∀ y, rd (setBit fld.hostStatus.HOST_STATUS 0 y) .hostErrAddr = rd y .hostErrAddr := fun y => rd_wr_reg (by decide) _ _ _ _ _ _
    have e2 : ∀ y, rd (put fld.hostErrFn.HOST_ERR_FN fn y) .hostErrAddr = rd y .hostErrAddr := fun y => rd_wr_reg (by decide) _ _ _ _ _ _
    rw [e1, e2, rd_wr_same]

theorem bar2_lands (s : State) (a : Nat) (data : List Byte) (p : Bool) : ∀ t, t = journalMem a data (when p (markBad a data.length) (fmemPut a data s)) →
    (mode s = 4 → t.pwr.selfRef = false) ∧
    (∀ q, memGet t.fmem q = if a ≤ q ∧ q < a + data.length then data.getD (q - a) 0 else memGet s.fmem q) ∧
    ∀ q, q ∈ t.fbad ↔ if a ≤ q ∧ q < a + data.length then p = true else q ∈ s.fbad := by
  rintro t rfl
  generalize hu : when p (markBad a data.length) (fmemPut a data s) = u
  have n := (noted_journal 0x05 (leBytes 8 (a / 4) ++ data) u).frame
  unfold journalMem
  generalize journal 0x05 (leBytes 8 (a / 4) ++ data) u = t at n ⊢
  rw [n]
  have k1 : u.pwr = (wakeMem s).pwr := by rw [← hu]; cases p <;> rfl
  have k2 : u.fmem = memWrite s.fmem a data := by rw [← hu]; cases p <;> rfl
  refine ⟨fun hm => ?_, fun q => ?_, fun q => ?_⟩
  · show u.pwr.selfRef = false
    rw [k1]
    unfold wakeMem
    unfold mode at hm
    rw [if_pos hm]
  · show memGet u.fmem q = _
    rw [k2]; exact memGet_memWrite s.fmem a q data
  · show q ∈ u.fbad ↔ _
    rw [← hu]
    cases p
    · show q ∈ s.fbad.filter _ ↔ _
      rw [List.mem_filter]
      split <;> simp <;> omega
    · show q ∈ List.filter _ (List.filter _ s.fbad) ++ _ ↔ _
      rw [List.mem_append, List.mem_filter, List.mem_filter, List.mem_map]
      split
      · rename_i h
        simp only [iff_true]
        exact .inr ⟨q - a, List.mem_range.mpr (by omega), by omega⟩
      · rename_i h
        simp only [Bool.or_eq_true, decide_eq_true_eq, List.mem_range]
        refine ⟨?_, fun k => .inl ⟨⟨k, by omega⟩, by omega⟩⟩
        rintro (⟨⟨k, -⟩, -⟩ | ⟨x, hx, rfl⟩)
        · exact k
        · omega

theorem bar2_writes {s : State} {fn off : Nat} (h1 : pcieFn s fn = true) (h2 : hostUp s fn = true) (h3 : mode s ≠ 7) (h4 : blockTested s 27 = false)
    (data : List Byte) (p : Bool) (hm : bar2May s fn (bar2Addr s fn off) data.length = true) (hs : standby s = false) :
      ∃ t, exec (.bar2Write fn off data p) s = .next t ∧
        (bar2Lands s (bar2Addr s fn off) data.length = true → (mode s = 4 → t.pwr.selfRef = false) ∧
          (∀ a, memGet t.fmem a =
            if bar2Addr s fn off ≤ a ∧ a < bar2Addr s fn off + data.length then data.getD (a - bar2Addr s fn off) 0
            else memGet s.fmem a) ∧
          ∀ a, a ∈ t.fbad ↔ if bar2Addr s fn off ≤ a ∧ a < bar2Addr s fn off + data.length then p = true else a ∈ s.fbad) ∧
        (bar2Lands s (bar2Addr s fn off) data.length = false → t.fmem = s.fmem ∧
          counter t Cnt.retireWrite.ctorIdx = counter s Cnt.retireWrite.ctorIdx + 1 ∧
          hasBit t fld.hostStatus.HOST_STATUS 0 = true ∧
          rd t .hostErrAddr = BitVec.ofNat 32 (bar2Addr s fn off / 256)) := by
  refine ⟨_, bar2_form h1 h2 h3 h4 data p hm hs _ rfl, fun hl => ?_, fun hl => ?_⟩
  · exact bar2_lands s _ data p _ (if_pos hl)
  · exact bar2_refused fn _ s _ rfl _ (if_neg (by rw [hl]; simp))

theorem bar2_reads {s : State} {fn off : Nat} (h1 : pcieFn s fn = true) (h2 : hostUp s fn = true) (h3 : mode s ≠ 7) (h4 : blockTested s 27 = false) (n : Nat)
    (hm : bar2May s fn (bar2Addr s fn off) n = true) :
      ∃ t, exec (.bar2Read fn off n) s = .next t ∧ (mode s = 4 → t.pwr.selfRef = false) ∧ t.rdata = (List.range n).map (fun k =>
        if bar2Addr s fn off + k < memMib s.member * 1048576 then memGet s.fmem (bar2Addr s fn off + k) else 0) := by
  refine ⟨{ wakeMem s with rdata := stackRead s (bar2Addr s fn off) n }, ?_, fun hm => ?_, stackRead_eq _ _ _⟩
  · show execBar2Read fn off n s = _
    unfold execBar2Read
    dsimp only
    rw [h1, h2, h4, if_neg (by simp [h3]), hm, if_neg (by simp)]
  · show (wakeMem s).pwr.selfRef = false
    unfold wakeMem
    unfold mode at hm
    rw [if_pos hm]

/-- A change taken leaves the changes that wait. -/
theorem takeChange_waiting (k : InKey) (value buf : W32) (g : ATarget) (s : State) : (takeChange k value buf g s).vat.waiting = s.vat.waiting := by
  unfold takeChange
  extract_lets ver cs lates x s0 s1 s2 s3 s4 n s5
  have c2 : Calm s1 s2 := Calm.ite (calm_wr _ _ _ _ (by decide) (by decide) (by decide) (Calm.refl _)) (Calm.refl _)
  have c3 : Calm s2 s3 := Calm.forEach (Calm.refl _) (fun _ _ h => calm_changeOn _ _ _ h)
  have c4 : Calm (pruneLog s3) s4 := calm_releaseOnInput x (Calm.refl _)
  have c5 : Calm s4 s5 := Calm.ite (calm_put _ _ _ _ (by decide) (by decide) (by decide) (Calm.refl _)) (Calm.refl _)
  have w1 : s1.vat.waiting = s.vat.waiting := rfl
  have w3 : (pruneLog s3).vat.waiting = s3.vat.waiting := rfl
  have c6 : Calm s5 (if n = logSize then raise0 38 (setBit fld.inputLogStatus.FULL 0 s5) else s5) :=
    Calm.ite (calm_raise0 _ (calm_put _ _ _ _ (by decide) (by decide) (by decide) (Calm.refl _))) (Calm.refl _)
  rw [c6.log.waiting, c5.log.waiting, c4.log.waiting, w3, c3.log.waiting, c2.log.waiting, w1]

/-- Entering the log leaves the changes that wait. -/
theorem logChange_waiting (k : InKey) (value buf : W32) (g : ATarget) (s : State) : (logChange k value buf g s).vat.waiting = s.vat.waiting := by
  unfold logChange
  split
  · rw [(discardChange_calm s).2]
  · exact takeChange_waiting k value buf g s

/-! ## Imports -/

/-- What enters the log does so as from a state that agrees on what places it. -/
theorem enters_of {s x t : State} {k : InKey} {value buf : W32} {g : ATarget}
    (hr : ∀ r i j, r ≠ .layerStatus → r ≠ .layerDoneEpoch → rd x r i j = rd s r i j)
    (hv : x.vat = s.vat) (ht : x.tim = s.tim) (ho : x.ot = s.ot) (hf : x.inForce = s.inForce)
    (hl : ∀ n, (layerOf x n).map (fun l => l.ctx) = (layerOf s n).map (fun l => l.ctx))
    (h : EntersLog x t k value buf g) : EntersLog s t k value buf g := by
  have eg : ∀ (f : Fld) i j, f.reg ≠ .layerStatus → f.reg ≠ .layerDoneEpoch → get x f i j = get s f i j := fun f i j h1 h2 => get_of_rd (hr _ i j h1 h2)
  have ev : newestVersion x k = newestVersion s k := newestVersion_congr (by rw [hv]) k
  have et : targetInst x g = targetInst s g := by unfold targetInst; rw [ho]
  have er : runningCanvases x = runningCanvases s := by
    unfold runningCanvases canvasRuns on
    congr 1
    funext c
    rw [eg _ _ _ (by decide) (by decide)]
  have eo : inputOwner x k = inputOwner s k := by
    have vo : ∀ n e, viewOwnerFrom x e n = viewOwnerFrom s e n := by
      intro n e
      induction n with
      | zero => rfl
      | succ n ih =>
        unfold viewOwnerFrom
        rw [ih, eg fld.viewBase.VIEW_BASE _ _ (by decide) (by decide), eg fld.viewN.VIEW_N _ _ (by decide) (by decide)]
    unfold inputOwner viewOwner
    rw [vo, hl, eg fld.kg.CTX _ _ (by decide) (by decide)]
  have ec : ∀ c, canvasCtx x c = canvasCtx s c := fun c => eg _ _ _ (by decide) (by decide)
  have ep : placedOn x k = placedOn s k := by
    funext c
    unfold placedOn
    rw [eo, ec]
  have ef : ∀ c, canvasFc x c = canvasFc s c := by
    intro c
    unfold canvasFc eff
    rw [hf, eg _ _ _ (by decide) (by decide)]
  have ea : ∀ n u, epochAtOrAfter x n u = epochAtOrAfter s n u := by
    intro n u
    unfold epochAtOrAfter fclock
    rw [ht]
  have e1 : ∀ c, rmEp x c = rmEp s c := fun c => hr _ _ _ (by decide) (by decide)
  have e2 : ∀ c, wpEp x c = wpEp s c := fun c => hr _ _ _ (by decide) (by decide)
  have e3 : ∀ c, txv x c = txv s c := fun c => by unfold txv on; rw [eg _ _ _ (by decide) (by decide)]
  have erun : ∀ c, canvasRuns x c = canvasRuns s c := by
    intro c
    unfold canvasRuns on
    rw [eg _ _ _ (by decide) (by decide)]
  have esb : standby x = standby s := by
    unfold standby role
    rw [eg _ _ _ (by decide) (by decide)]
  have erec : ∀ c e, epochRec x c e = epochRec s c e := by
    intro c e; unfold epochRec; rw [hv]
  have efc : ∀ n, fclock x n = fclock s n := by intro n; unfold fclock; rw [ht]
  have erate : ∀ n, fcPeriod x n = fcPeriod s n := by
    intro n
    unfold fcPeriod rateInForce
    rw [efc, ho, eg fld.fcCtrl.RATE _ _ (by decide) (by decide)]
  have elead : ∀ c e, leadOf x c e = leadOf s c e := by
    intro c e
    unfold leadOf periodAt eff
    rw [hf, eg fld.commitLead.COMMIT_LEAD _ _ (by decide) (by decide), ef, efc, ho, erate]
  have edue : ∀ c, commitDue x c = commitDue s c := by
    intro c
    unfold commitDue commitInst latchOf instOf
    rw [erun, esb, e1, erec, elead, ef, efc, ho]
  have enow : ∀ c, rmNow x c = rmNow s c := by
    intro c
    unfold rmNow
    rw [edue, e1]
  have eap : ∀ c, appEpoch x c g = appEpoch s c g := by
    intro c
    unfold appEpoch
    cases g <;> simp only [enow, e2, ef, ea]
  have epl : ∀ c, placeEpoch x c g = placeEpoch s c g := by
    intro c
    unfold placeEpoch isLate
    rw [eap, enow, e3, edue]
  unfold EntersLog at h ⊢
  rw [ev, et, er, ep] at h
  simp only [epl] at h
  exact h

theorem next_newest_of {s x : State} {k : InKey} (hv : x.vat = s.vat) (h : NextIsNewest s k) : NextIsNewest x k := by
  unfold NextIsNewest
  rw [hv, newestVersion_congr (s := s) (t := x) (by rw [hv])]
  exact h

/-- A change entered while no canvas runs touches no byte of frame memory. -/
theorem logChange_fmem {s : State} (k : InKey) (value buf : W32) (g : ATarget) (h : runningCanvases s = []) :
    (logChange k value buf g s).fmem = s.fmem := by
  have rel : ∀ x y, (releaseOnInput x y).fmem = y.fmem := fun x y =>
    (within_releaseOnInput x (μ := footprint [.ringTail, .ringStatus, .hostStatus, .ctxStatus, .ctxEvent, .tmplBind, .tmplReleased, .tmplDrop] [.cnt, .hmem, .sch, .hst]) (by decide +kernel) (Within.refl y)).part .fmem (by decide +kernel)
  have rs : ∀ ev x, (raise0 ev x).fmem = x.fmem := fun ev x => by
    unfold raise0
    have e := (eventOnly_raise ev noDetail x).frame
    generalize raise ev noDetail x = t at e ⊢
    rw [e]
  unfold logChange
  split
  · unfold discardChange; rw [rs]; rfl
  unfold takeChange
  extract_lets ver cs lates x s1' s1 s2 s3 s4 n s5
  have c0 : cs = [] := by show (runningCanvases s).filter (placedOn s k) = []; rw [h]; rfl
  have f1 : s1.fmem = s.fmem := rfl
  have f2 : s2.fmem = s1.fmem := by
    show (if k.kind = 7 then wr .layerVersion ver s1 k.idx else s1).fmem = _
    split <;> rfl
  have f3 : s3 = s2 := by
    show Machine.forEach cs _ s2 = s2
    rw [c0]; rfl
  have f4 : s4.fmem = s2.fmem := by
    show (releaseOnInput x (pruneLog s3)).fmem = _
    rw [rel, f3]; rfl
  have f5 : s5.fmem = s4.fmem := by
    show (if get s4 fld.inputLogMax.MAX_USED < n then put fld.inputLogMax.MAX_USED n s4 else s4).fmem = _
    split <;> rfl
  clear_value s5 s4 s3 s2 s1
  split
  · rw [rs]
    show s5.fmem = _
    rw [f5, f4, f2, f1]
  · rw [f5, f4, f2, f1]


theorem Noted.same {s u : State} (a : Noted s u) : u.fmem = s.fmem ∧ u.vat = s.vat ∧ u.hst = s.hst ∧ u.sch = s.sch := by
  rw [a.frame]; exact ⟨rfl, rfl, rfl, rfl⟩

theorem Noted.trans {s u t : State} (a : Noted s u) (b : Noted u t) : Noted s t := by
  refine ⟨?_, fun q i j h => (b.reg q i j h).trans (a.reg q i j h), fun k h => (b.cnt k h).trans (a.cnt k h), fun h => b.sound (a.sound h)⟩
  have h1 := b.frame
  have h2 := a.frame
  rw [h1, h2]

theorem noted_chunks (n : Nat) (ver buf : W32) (k off : Nat) (data : List Byte) (s : State) : Noted s (journalChunks n ver buf k off data s) := by
  induction k generalizing off data s with
  | zero => exact Noted.refl s
  | succ k ih =>
    unfold journalChunks
    extract_lets last u
    have hu : Noted s u := noted_journal _ _ s
    split
    · exact hu
    · exact hu.trans (ih _ _ _)

theorem noted_layer (n : Nat) (ver buf : W32) (data : List Byte) (s : State) : Noted s (journalLayer n ver buf data s) := noted_chunks _ _ _ _ _ _ s

theorem completeCmd_layers (h : Cmd) (op span status : Nat) (result : W32) (s : State) :
    (completeCmd h op span status result s).hst.layers = s.hst.layers ∧ (completeCmd h op span status result s).hst.imports = s.hst.imports := by
  obtain ⟨e, m, p, q, w, k⟩ := completeCmd_host h op span status result s
  rw [k]
  exact ⟨rfl, rfl⟩

theorem imports_end {s : State} {n k : Nat} {l : Layer} {i : Import} (hl : layerOf s n = some l) (hi : runningImport s n k = some i)
    (data : List Byte) (len : Nat) (hs : standby s = false) (hlen : len = l.width * l.height * (if l.fmt = 1 then 4 else 8))
    (hd : data.length = len) (hr : logRoom s = true) (hb : s.vat.badNext = false) (hn : NextIsNewest s ⟨7, 0, n⟩) (hk : n < 1024) :
      ∃ t, exec (.importDone n k data) s = .next t ∧ layerOf t n = some l ∧ t.hst.imports = s.hst.imports.erase i ∧
        on t fld.layerStatus.STALE n = false ∧
        EntersLog s t ⟨7, 0, n⟩ (BitVec.ofNat 32 (l.width + 65536 * l.height)) i.buf i.target ∧
        (runningCanvases s = [] → ∀ a, memGet t.fmem a =
          if i.buf.toNat * 256 ≤ a ∧ a < i.buf.toNat * 256 + len then data.getD (a - i.buf.toNat * 256) 0
          else memGet s.fmem a) := by
  have hll : layerLen l = len := by rw [hlen]; rfl
  have htk : data.take len = data := by rw [← hd]; exact List.take_length
  generalize hx : put fld.layerStatus.STALE 0 (fmemPut (i.buf.toNat * 256) data (endImport i s)) n = x
  have xv : x.vat = s.vat := by rw [← hx]; rfl
  have xr : logRoom x = true := by unfold logRoom; rw [xv]; exact hr
  have xreg : ∀ r i j, r ≠ .layerStatus → rd x r i j = rd s r i j := fun r i j h => by
    rw [← hx]; exact (rd_wr_reg h _ _ _ _ _ _).trans (rd_congr rfl _ _ _)
  have xl : x.hst.layers = s.hst.layers ∧ x.hst.imports = s.hst.imports.erase i := by rw [← hx]; exact ⟨rfl, rfl⟩
  have xst : on x fld.layerStatus.STALE n = false := by
    rw [← hx, on_put_same _ _ _ _ _ (by decide) (by decide)]; rfl
  have xm : ∀ a, memGet x.fmem a = if i.buf.toNat * 256 ≤ a ∧ a < i.buf.toNat * 256 + len then data.getD (a - i.buf.toNat * 256) 0
          else memGet s.fmem a := fun a => by
    rw [← hx, ← hd]; exact memGet_memWrite s.fmem _ a data
  have xrest : x.tim = s.tim ∧ x.ot = s.ot ∧ x.inForce = s.inForce := by rw [← hx]; exact ⟨rfl, rfl, rfl⟩
  -- the change entered from a state like `x`
  have key : ∀ y, (∀ r i j, r ≠ .layerDoneEpoch → rd y r i j = rd x r i j) → y.vat = x.vat → y.hst = x.hst → y.fmem = x.fmem →
      y.tim = x.tim ∧ y.ot = x.ot ∧ y.inForce = x.inForce → ∀ z, z = logChange ⟨7, 0, n⟩ (layerValue l) i.buf i.target y →
      EntersLog s z ⟨7, 0, n⟩ (BitVec.ofNat 32 (l.width + 65536 * l.height)) i.buf i.target ∧
      (z.hst.layers = s.hst.layers ∧ z.hst.imports = s.hst.imports.erase i) ∧
      on z fld.layerStatus.STALE n = false ∧ (runningCanvases s = [] → z.fmem = x.fmem) := by
    intro y yr yv yh yf yrest z hz
    have nn : NextIsNewest y ⟨7, 0, n⟩ := next_newest_of (yv.trans xv) hn
    obtain ⟨e1, e2⟩ := logChange_enters ⟨7, 0, n⟩ (layerValue l) i.buf i.target y (by rw [yv, xv]; exact hb) (.inr hk) nn
    rw [← hz] at e1 e2
    refine ⟨?_, ?_, ?_, ?_⟩
    · refine enters_of (fun r i j h1 h2 => (yr r i j h2).trans (xreg r i j h1)) (yv.trans xv) (yrest.1.trans xrest.1) (yrest.2.1.trans xrest.2.1)
        (yrest.2.2.trans xrest.2.2) (fun q => ?_) e1
      rw [layerOf_congr (s := s) (t := y) (by rw [yh]; exact xl.1)]
    · have eh := e2.host
      generalize z.hst = zh at eh ⊢
      rw [eh, yh]
      exact xl
    · have : rd z .layerStatus n 0 = rd x .layerStatus n 0 := by
        rw [hz]
        refine Eq.trans ?_ (yr _ _ _ (by decide))
        exact (within_logChange ⟨7, 0, n⟩ (layerValue l) i.buf i.target (μ := footprint [.ringTail, .ringStatus, .hostStatus, .layerVersion, .ctxCtrl, .ctxStatus,
          .ctxEvent, .tmplBind, .tmplReleased, .tmplDrop, .canvasStatus, .canvasEvent, .inputLogStatus, .inputLogMax, .pwrMode]
          [.free, .cnt, .fmem, .fbad, .hmem, .sch, .vat, .hst, .pwr]) (by decide +kernel) (Within.refl y)).reg .layerStatus (by decide +kernel) n 0
      rw [← xst]
      unfold on
      rw [get_of_rd (f := fld.layerStatus.STALE) this]
    · intro hc
      rw [hz, ← yf]
      refine logChange_fmem _ _ _ _ ?_
      have : runningCanvases y = runningCanvases s := by
        unfold runningCanvases canvasRuns on
        congr 1
        funext c
        rw [get_of_rd (f := fld.canvasStatus.RUN) ((yr _ _ _ (by decide)).trans (xreg _ _ _ (by decide)))]
      rw [this]; exact hc
  have lay : ∀ t : State, t.hst.layers = s.hst.layers → layerOf t n = some l := fun t ht => (layerOf_congr ht n).trans hl
  cases hc : i.cmd with
  | some h =>
    obtain ⟨k1, k2, k3, k4⟩ := key x (fun _ _ _ _ => rfl) rfl rfl rfl ⟨rfl, rfl, rfl⟩ _ rfl
    generalize hz : logChange ⟨7, 0, n⟩ (layerValue l) i.buf i.target x = z at k1 k2 k3 k4
    have nj := noted_layer n (newestVersion z ⟨7, 0, n⟩) i.buf data z
    have ex : exec (.importDone n k data) s = .next (completeCmd h 0x22 1 0 (newestVersion z ⟨7, 0, n⟩)
        (journalCmd h 0x22 i.entry 0 (newestVersion z ⟨7, 0, n⟩) (journalLayer n (newestVersion z ⟨7, 0, n⟩) i.buf data z))) := by
      show execImportDone n k data s = _
      unfold execImportDone
      rw [hl, hs, if_neg (by simp), hi]
      dsimp only
      rw [hll, htk, hx, hc]
      dsimp only
      rw [xr, if_pos rfl, hz]
    generalize journalLayer n (newestVersion z ⟨7, 0, n⟩) i.buf data z = w at nj ex
    have nk : Noted w (journalCmd h 0x22 i.entry 0 (newestVersion z ⟨7, 0, n⟩) w) := noted_journal _ _ _
    generalize journalCmd h 0x22 i.entry 0 (newestVersion z ⟨7, 0, n⟩) w = w2 at nk ex
    have cp := completeCmd_parts h 0x22 1 0 (newestVersion z ⟨7, 0, n⟩) w2
    have cl := completeCmd_layers h 0x22 1 0 (newestVersion z ⟨7, 0, n⟩) w2
    generalize completeCmd h 0x22 1 0 (newestVersion z ⟨7, 0, n⟩) w2 = t at ex cp cl
    have wv : w2.vat = z.vat := nk.same.2.1.trans nj.same.2.1
    have wh : w2.hst = z.hst := nk.same.2.2.1.trans nj.same.2.2.1
    have wf : w2.fmem = z.fmem := nk.same.1.trans nj.same.1
    refine ⟨t, ex, lay t ?_, ?_, ?_, ?_, fun hrc a => ?_⟩
    · rw [cl.1, wh]; exact k2.1
    · rw [cl.2, wh]; exact k2.2
    · rw [← k3]
      unfold on
      rw [get_of_rd (f := fld.layerStatus.STALE) ((cp.2.2.2 _ _ _ (by decide) (by decide) (by decide) (by decide)).trans
        ((nk.reg _ _ _ (by decide)).trans (nj.reg _ _ _ (by decide))))]
    · unfold EntersLog at k1 ⊢
      rw [newestVersion_congr (s := z) (t := t) (by rw [cp.2.2.1, wv]), cp.2.2.1, wv]
      exact k1
    · rw [cp.2.1, wf, k4 hrc]; exact xm a
  | none =>
    generalize hy : wr .layerDoneEpoch i.epoch x n = y
    have yr : ∀ r i j, r ≠ .layerDoneEpoch → rd y r i j = rd x r i j := fun r i j h => by rw [← hy]; exact rd_wr_reg h _ _ _ _ _ _
    have yy : y.vat = x.vat ∧ y.hst = x.hst ∧ y.fmem = x.fmem ∧ y.tim = x.tim ∧ y.ot = x.ot ∧ y.inForce = x.inForce := by
      rw [← hy]; exact ⟨rfl, rfl, rfl, rfl, rfl, rfl⟩
    obtain ⟨k1, k2, k3, k4⟩ := key y yr yy.1 yy.2.1 yy.2.2.1 yy.2.2.2 _ rfl
    generalize hz : logChange ⟨7, 0, n⟩ (layerValue l) i.buf i.target y = z at k1 k2 k3 k4
    have ne : enterChange ⟨7, 0, n⟩ (layerValue l) i.buf i.target y = z := by
      have yroom : logRoom y = true := by unfold logRoom; rw [yy.1]; exact xr
      have yb : y.vat.badNext = false := by rw [yy.1, xv]; exact hb
      rw [← hz]
      unfold enterChange logChange
      rw [yroom, yb, if_neg (by simp), if_neg (by simp), if_neg (by simp)]
      rfl
    have nj := noted_layer n (newestVersion z ⟨7, 0, n⟩) i.buf data z
    have ex : exec (.importDone n k data) s = .next (journalLayer n (newestVersion z ⟨7, 0, n⟩) i.buf data z) := by
      show execImportDone n k data s = _
      unfold execImportDone
      rw [hl, hs, if_neg (by simp), hi]
      dsimp only
      rw [hll, htk, hx, hc]
      dsimp only
      rw [hy, ne]
    generalize journalLayer n (newestVersion z ⟨7, 0, n⟩) i.buf data z = t at nj ex
    refine ⟨t, ex, lay t ?_, ?_, ?_, ?_, fun hrc a => ?_⟩
    · rw [nj.same.2.2.1]; exact k2.1
    · rw [nj.same.2.2.1]; exact k2.2
    · rw [← k3]
      exact nj.on _ _ _ (by decide)
    · unfold EntersLog at k1 ⊢
      rw [newestVersion_congr (s := z) (by rw [nj.same.2.1]), nj.same.2.1]
      exact k1
    · rw [nj.same.1, k4 hrc]; exact xm a

/-- A completion counts only failed commands, dropped events and poisoned words. -/
theorem completeCmd_counter (h : Cmd) (op span status : Nat) (result : W32) (s : State) (k : Nat) (h1 : k ≠ Cnt.cmdErr.ctorIdx)
    (h2 : k ≠ Cnt.evtDrop.ctorIdx) (h3 : k ≠ Cnt.poison.ctorIdx) : counter (completeCmd h op span status result s) k = counter s k := by
  have hp : ∀ c f ws y, counter (produceOrWait c f ws y) k = counter y k := by
    intro c f ws y
    unfold produceOrWait
    dsimp only
    split
    · exact (eventOnly_ringProduce _ _ _).cnt k h2 h3
    · rfl
  have ha : counter (advanceHead h.ring span s) k = counter s k := by
    unfold advanceHead; split <;> rfl
  unfold completeCmd
  dsimp only
  split
  · rw [hp, ha]
  · rw [counter_raise _ _ _ _ h2 h3, counter_bump_ne _ _ _ h1, hp, ha]

theorem import_faults {s : State} {n k : Nat} {l : Layer} {i : Import} (hl : layerOf s n = some l) (hi : runningImport s n k = some i) :
    ∃ t, exec (.importDmaFault n k) s = .next t ∧ layerOf t n = some l ∧ t.hst.imports = s.hst.imports.erase i ∧
      on t fld.layerStatus.STALE n = true ∧ counter t Cnt.dmaFault.ctorIdx = counter s Cnt.dmaFault.ctorIdx + 1 := by
  generalize hx : bump .dmaFault (put fld.layerStatus.STALE 1 (endImport i s) n) = x
  have xl : x.hst.layers = s.hst.layers ∧ x.hst.imports = s.hst.imports.erase i := by rw [← hx]; exact ⟨rfl, rfl⟩
  have xs : on x fld.layerStatus.STALE n = true := by
    have : on x fld.layerStatus.STALE n = on (put fld.layerStatus.STALE 1 (endImport i s) n) fld.layerStatus.STALE n := by
      rw [← hx]; exact on_congr rfl _ _ _
    rw [this, on_put_same _ _ _ _ _ (by decide) (by decide)]; rfl
  have xc : counter x Cnt.dmaFault.ctorIdx = counter s Cnt.dmaFault.ctorIdx + 1 := by
    rw [← hx, counter_bump_same]; rfl
  obtain ⟨e, m, p, q, hh⟩ := raise_host 6 n x
  have y1 : (raise 6 n x).hst.layers = s.hst.layers ∧ (raise 6 n x).hst.imports = s.hst.imports.erase i := by rw [hh]; exact xl
  have y2 : on (raise 6 n x) fld.layerStatus.STALE n = true := by
    rw [on_raise _ _ _ _ _ _ (by decide) (by decide) (by decide)]; exact xs
  have y3 : counter (raise 6 n x) Cnt.dmaFault.ctorIdx = counter s Cnt.dmaFault.ctorIdx + 1 := by
    rw [counter_raise _ _ _ _ (by decide) (by decide)]; exact xc
  cases hc : i.cmd with
  | none =>
    refine ⟨raise 6 n x, ?_, (layerOf_congr y1.1 n).trans hl, y1.2, y2, y3⟩
    show execImportDmaFault n k s = _
    unfold execImportDmaFault
    rw [hl, hi]
    dsimp only
    rw [hc, hx]
  | some h =>
    have cl := completeCmd_layers h 0x22 1 0x18 0 (raise 6 n x)
    refine ⟨completeCmd h 0x22 1 0x18 0 (raise 6 n x), ?_, (layerOf_congr (cl.1.trans y1.1) n).trans hl, cl.2.trans y1.2, ?_, ?_⟩
    · show execImportDmaFault n k s = _
      unfold execImportDmaFault
      rw [hl, hi]
      dsimp only
      rw [hc, hx]
    · rw [← y2]
      unfold on
      rw [get_of_rd (f := fld.layerStatus.STALE) ((completeCmd_parts h 0x22 1 0x18 0 (raise 6 n x)).2.2.2 _ _ _ (by decide) (by decide) (by decide) (by decide))]
    · rw [← y3]
      exact completeCmd_counter _ _ _ _ _ _ _ (by decide) (by decide) (by decide)


/-! ## Fences, resets and links -/

theorem refreshCtx_host (c : Nat) (s : State) : (refreshCtx c s).hst.fences = s.hst.fences ∧ (refreshCtx c s).hst.allocs = s.hst.allocs := by
  have := (calm_refreshCtx c (Calm.refl s)).ring.host
  generalize refreshCtx c s = t at this ⊢
  rw [this]
  exact ⟨rfl, rfl⟩

theorem fence_completes {s : State} {c : Nat} {f : Fence} (h1 : s.hst.fences.find? (fun f => f.ctx == c) = some f) (h2 : fenceReady s f = true) :
    ∃ t, exec (.fenceComplete c) s = .next t ∧ rd t .ctxFence c = f.num ∧
      t.hst.fences = s.hst.fences.filter (fun x => x != f) ∧
      ∀ a, a ∈ t.hst.allocs ↔ a ∈ s.hst.allocs ∧ ¬ (a.fence = some f.num ∧ a.ctx = c) := by
  generalize hx : wr .ctxFence f.num { s with hst := { s.hst with
        fences := s.hst.fences.filter (fun x => x != f)
        allocs := s.hst.allocs.filter (fun a => !(a.fence == some f.num && a.ctx == c)) } } c = x
  have xh : x.hst.fences = s.hst.fences.filter (fun x => x != f) ∧ x.hst.allocs = s.hst.allocs.filter (fun a => !(a.fence == some f.num && a.ctx == c)) := by
    rw [← hx]; exact ⟨rfl, rfl⟩
  have xr : rd x .ctxFence c = f.num := by rw [← hx]; exact rd_wr_same _ _ _ _ _
  have r := refreshCtx_host c x
  obtain ⟨e, m, p, q, hh⟩ := raise_host 7 c (refreshCtx c x)
  refine ⟨raise 7 c (refreshCtx c x), ?_, ?_, ?_, ?_⟩
  · show execFenceComplete c s = _
    unfold execFenceComplete
    rw [h1]
    dsimp only
    rw [h2, if_neg (by simp), hx]
  · rw [rd_raise _ _ _ _ _ _ (by decide) (by decide) (by decide), (refreshCtx_fmem c x).2.2 _ _ _ (by decide) (by decide) (by decide) (by decide) (by decide)]
    exact xr
  · rw [hh]; exact r.1.trans xh.1
  · intro a
    rw [hh]
    show a ∈ (refreshCtx c x).hst.allocs ↔ _
    rw [r.2, xh.2, List.mem_filter]
    by_cases k1 : a.fence = some f.num <;> by_cases k2 : a.ctx = c <;> simp [k1, k2]

/-- A field that reads 0 still does when the field of some instance is set to 0. -/
theorem on_put_zero (f : Fld) (s : State) (i j k l : Nat) (hf : f.lo + f.w ≤ 32) (h : on s f k l = false) : on (put f 0 s i j) f k l = false := by
  by_cases e : f.reg.key k l = f.reg.key i j
  · have : on (put f 0 s i j) f k l = on (put f 0 s i j) f i j := by
      unfold on get rd; rw [e]
    rw [this, on_put_same _ _ _ _ _ hf (Nat.two_pow_pos _)]
    rfl
  · rw [← h]
    have : rd (put f 0 s i j) f.reg k l = rd s f.reg k l := rd_wr_key f.reg f.reg _ s i j k l e
    unfold on
    rw [get_of_rd (f := f) this]

/-- What holds of a step at each element, and is kept by every step, holds after the whole list. -/
theorem forEach_all {P : State → Prop} {α : Type} {f : α → State → State} (keep : ∀ a u, P u → P (f a u)) (xs : List α) (u : State) (h : P u) :
    P (forEach xs f u) := by
  induction xs generalizing u with
  | nil => exact h
  | cons x xs ih => exact ih (f x u) (keep x u h)

theorem forEach_mem {P Q : State → Prop} {α : Type} {f : α → State → State} (a : α) (keepP : ∀ b u, b ≠ a → P u → P (f b u))
    (set : ∀ u, P u → Q (f a u)) (keepQ : ∀ b u, Q u → Q (f b u)) (xs : List α) (ha : a ∈ xs) (u : State) (h : P u) : Q (forEach xs f u) := by
  induction xs generalizing u with
  | nil => simp at ha
  | cons x xs ih =>
    show Q (forEach xs f (f x u))
    by_cases e : x = a
    · subst e
      exact forEach_all keepQ xs _ (set u h)
    · exact ih (by rcases List.mem_cons.mp ha with k | k; exact absurd k.symm e; exact k) _ (keepP x u e h)

/-- What a function's reset does to a ring. -/
def ringOffIf (f r : Nat) (u : State) : State := if get u fld.ringCtrl.FN r == f then put fld.ringCtrl.EN 0 u r else u

theorem clearFn_regs (f : Nat) (s : State) : (clearFn f s).regs = (forEach (List.range 128) (fun e u => put fld.route.EN 0 u f e)
    (forEach (List.range 128) (resetCtx f) (forEach (List.range 256) (semReset f) (forEach (List.range 64) (ringOffIf f) s)))).regs := by
  unfold clearFn ringOffIf
  dsimp only

/-- What the resets of other functions leave of a function's rings and semaphores. -/
structure BeforeReset (f : Nat) (s u : State) : Prop where
  fn : ∀ r, get u fld.ringCtrl.FN r = get s fld.ringCtrl.FN r
  sem : ∀ n, on s fld.sem.HELD n = true → get s fld.sem.OWNER n = f → rd u .sem n = rd s .sem n

/-- What a function's own reset leaves of its rings, semaphores and routes. -/
structure AfterReset (f : Nat) (s u : State) : Prop where
  fn : ∀ r, get u fld.ringCtrl.FN r = get s fld.ringCtrl.FN r
  ring : ∀ r, r < 64 → get s fld.ringCtrl.FN r = f → on u fld.ringCtrl.EN r = false
  sem : ∀ n, n < 256 → on s fld.sem.HELD n = true → get s fld.sem.OWNER n = f →
    on u fld.sem.HELD n = false ∧ get u fld.sem.GEN n = (get s fld.sem.GEN n + 1) % 2 ^ fld.sem.GEN.w
  route : ∀ e, e < 128 → on u fld.route.EN f e = false

theorem ringOff_fn (f r q : Nat) (u : State) : get (ringOffIf f r u) fld.ringCtrl.FN q = get u fld.ringCtrl.FN q := by
  unfold ringOffIf
  split
  · by_cases e : q = r
    · subst e; exact get_put_fld _ _ _ _ _ _ (by rfl) (by decide) (by decide)
    · exact get_put_idx _ _ _ _ _ _ _ (by rfl) e
  · rfl

theorem ringOff_reg (f r : Nat) (u : State) (q : RegId) (h : q ≠ .ringCtrl) (i j : Nat) : rd (ringOffIf f r u) q i j = rd u q i j := by
  unfold ringOffIf
  split
  · exact rd_wr_reg h _ _ _ _ _ _
  · rfl

theorem ringOff_off (f r q : Nat) (u : State) (h : on u fld.ringCtrl.EN q = false) : on (ringOffIf f r u) fld.ringCtrl.EN q = false := by
  unfold ringOffIf
  split
  · exact on_put_zero _ _ _ _ _ _ (by decide) h
  · exact h

theorem semReset_reg (f n : Nat) (u : State) (q : RegId) (h : q ≠ .sem) (i j : Nat) : rd (semReset f n u) q i j = rd u q i j := by
  unfold semReset semFree
  split
  · exact (rd_wr_reg h _ _ _ _ _ _).trans ((rd_wr_reg h _ _ _ _ _ _).trans (rd_wr_reg h _ _ _ _ _ _))
  · rfl

theorem semReset_ne (f n k : Nat) (u : State) (h : k ≠ n) : rd (semReset f n u) .sem k = rd u .sem k := by
  unfold semReset semFree
  split
  · exact (rd_wr_idx _ h _ _ _).trans ((rd_wr_idx _ h _ _ _).trans (rd_wr_idx _ h _ _ _))
  · rfl

theorem ctxOff_reg (f c : Nat) (u : State) (q : RegId) (h : q = .sem ∨ q = .ringCtrl ∨ q = .route) (i j : Nat) : rd (resetCtx f c u) q i j = rd u q i j := by
  refine (within_resetCtx f c (μ := footprint [.ringTail, .ringStatus, .hostStatus, .ctxCtrl, .ctxStatus, .ctxEvent, .tmplBind, .tmplReleased, .tmplDrop, .jseqTx]
    [.cnt, .fmem, .fbad, .hmem, .sch, .vat, .hst, .twn, .pwr]) (by decide +kernel) (Within.refl u)).reg q ?_ i j
  rcases h with rfl | rfl | rfl <;> decide +kernel

theorem rd_of_forEach {α : Type} {f : α → State → State} {q : RegId} {i j : Nat} (h : ∀ a u, rd (f a u) q i j = rd u q i j) (xs : List α) (u : State) :
    rd (forEach xs f u) q i j = rd u q i j :=
  forEach_all (P := fun x => rd x q i j = rd u q i j) (fun a y hy => (h a y).trans hy) xs u rfl

/-- The later parts of a reset, of any function, leave the rings and the semaphores alone. -/
theorem reset_tail (g : Nat) (x : State) (q : RegId) (h : q = .sem ∨ q = .ringCtrl) (i j : Nat) :
    rd (forEach (List.range 128) (fun e u => put fld.route.EN 0 u g e) (forEach (List.range 128) (resetCtx g) x)) q i j = rd x q i j := by
  have h3 : q ≠ .route := by rcases h with rfl | rfl <;> decide
  rw [rd_of_forEach (f := fun e u => put fld.route.EN 0 u g e) (fun e u => rd_wr_reg h3 _ _ _ _ _ _),
    rd_of_forEach (fun c u => ctxOff_reg g c u q (by rcases h with h | h <;> simp [h]) i j)]

theorem rd_clearFn (g : Nat) (u : State) (q : RegId) (h : q = .sem ∨ q = .ringCtrl) (i j : Nat) :
    rd (clearFn g u) q i j = rd (forEach (List.range 256) (semReset g) (forEach (List.range 64) (ringOffIf g) u)) q i j :=
  (rd_congr (clearFn_regs g u) _ _ _).trans (reset_tail g _ q h i j)

theorem resets_fn (g : Nat) (u : State) (r : Nat) : get (clearFn g u) fld.ringCtrl.FN r = get u fld.ringCtrl.FN r := by
  rw [get_of_rd (f := fld.ringCtrl.FN) (rd_clearFn g u .ringCtrl (.inr rfl) r 0),
    get_of_rd (f := fld.ringCtrl.FN) (rd_of_forEach (fun n u => semReset_reg g n u _ (by decide) _ _) _ _)]
  exact forEach_all (P := fun x => get x fld.ringCtrl.FN r = get u fld.ringCtrl.FN r) (fun a y hy => (ringOff_fn g a r y).trans hy) _ _ rfl

theorem resets_sem (g : Nat) (u : State) (n : Nat) :
    rd (clearFn g u) .sem n = rd (forEach (List.range 256) (semReset g) (forEach (List.range 64) (ringOffIf g) u)) .sem n :=
  rd_clearFn g u .sem (.inl rfl) n 0

theorem before_reset {f g : Nat} {s u : State} (hg : g ≠ f) (h : BeforeReset f s u) : BeforeReset f s (clearFn g u) := by
  refine ⟨fun r => (resets_fn g u r).trans (h.fn r), fun n h1 h2 => ?_⟩
  rw [resets_sem, ← h.sem n h1 h2]
  have e0 : rd (forEach (List.range 64) (ringOffIf g) u) .sem n = rd u .sem n := rd_of_forEach (fun r y => ringOff_reg g r y _ (by decide) _ _) _ _
  rw [← e0]
  refine forEach_all (P := fun x => rd x .sem n = rd (forEach (List.range 64) (ringOffIf g) u) .sem n) (fun a y hy => ?_) _ _ rfl
  by_cases e : n = a
  · subst e
    rw [← hy]
    unfold semReset
    rw [if_neg]
    have : get y fld.sem.OWNER n = f := by
      rw [← h2]; exact get_of_rd (f := fld.sem.OWNER) ((hy.trans e0).trans (h.sem n h1 h2))
    rw [this]
    simp [Ne.symm hg]
  · rw [semReset_ne g a n y e]; exact hy

theorem sem_freed (f n : Nat) (u : State) (h1 : on u fld.sem.HELD n = true) (h2 : get u fld.sem.OWNER n = f) :
    on (semReset f n u) fld.sem.HELD n = false ∧ get (semReset f n u) fld.sem.GEN n = (get u fld.sem.GEN n + 1) % 2 ^ fld.sem.GEN.w := by
  unfold semReset semFree
  rw [h1, h2, if_pos (by simp)]
  refine ⟨?_, ?_⟩
  · rw [on_put_fld _ _ _ _ _ _ (by rfl) (by decide) (by decide), on_put_same _ _ _ _ _ (by decide) (by decide)]; rfl
  · rw [get_put_fld _ _ _ _ _ _ (by rfl) (by decide) (by decide), get_put_fld _ _ _ _ _ _ (by rfl) (by decide) (by decide),
      get_put_same _ _ _ _ _ (by decide)]

theorem sem_unheld (g k n : Nat) (u : State) (h : on u fld.sem.HELD n = false) : rd (semReset g k u) .sem n = rd u .sem n := by
  by_cases e : n = k
  · subst e
    unfold semReset
    rw [h, if_neg (by simp)]
  · exact semReset_ne g k n u e

theorem reset_own {f : Nat} {s u : State} (h : BeforeReset f s u) : AfterReset f s (clearFn f u) := by
  refine ⟨fun r => (resets_fn f u r).trans (h.fn r), fun r hr hf => ?_, fun n hn h1 h2 => ?_, fun e he => ?_⟩
  · unfold on
    rw [get_of_rd (f := fld.ringCtrl.EN) (rd_clearFn f u .ringCtrl (.inr rfl) r 0),
      get_of_rd (f := fld.ringCtrl.EN) (rd_of_forEach (fun n u => semReset_reg f n u _ (by decide) _ _) _ _)]
    refine forEach_mem (P := fun x => get x fld.ringCtrl.FN r = f) (Q := fun x => on x fld.ringCtrl.EN r = false) r (fun a y _ hy => ?_) (fun y hy => ?_)
      (fun a y hy => ringOff_off f a r y hy) (List.range 64) (List.mem_range.mpr hr) u ((h.fn r).trans hf)
    · exact (ringOff_fn f a r y).trans hy
    · unfold ringOffIf
      rw [if_pos (by simpa using hy), on_put_same _ _ _ _ _ (by decide) (by decide)]; rfl
  · have e0 : rd (forEach (List.range 64) (ringOffIf f) u) .sem n = rd s .sem n :=
      (rd_of_forEach (fun r y => ringOff_reg f r y _ (by decide) _ _) _ _).trans (h.sem n h1 h2)
    have q := forEach_mem (P := fun x => rd x .sem n = rd s .sem n)
      (Q := fun x => on x fld.sem.HELD n = false ∧ get x fld.sem.GEN n = (get s fld.sem.GEN n + 1) % 2 ^ fld.sem.GEN.w) (f := semReset f) n
      (fun a y ha hy => (semReset_ne f a n y (Ne.symm ha)).trans hy) (fun y hy => ?_) (fun a y hy => ?_) (List.range 256) (List.mem_range.mpr hn)
      (forEach (List.range 64) (ringOffIf f) u) e0
    · have es := resets_sem f u n
      unfold on at q ⊢
      rw [get_of_rd (f := fld.sem.HELD) es, get_of_rd (f := fld.sem.GEN) es]
      exact q
    · have k1 : on y fld.sem.HELD n = true := by rw [← h1]; unfold on; rw [get_of_rd (f := fld.sem.HELD) hy]
      have k2 : get y fld.sem.OWNER n = f := by rw [← h2]; exact get_of_rd (f := fld.sem.OWNER) hy
      have := sem_freed f n y k1 k2
      rw [get_of_rd (f := fld.sem.GEN) hy] at this
      exact this
    · have es := sem_unheld f a n y hy.1
      unfold on
      rw [get_of_rd (f := fld.sem.HELD) es, get_of_rd (f := fld.sem.GEN) es]
      exact hy
  · rw [on_congr (clearFn_regs f u)]
    refine forEach_mem (P := fun _ => True) (Q := fun x => on x fld.route.EN f e = false) e (fun _ _ _ _ => trivial) (fun y _ => ?_)
      (fun a y hy => on_put_zero _ _ _ _ _ _ (by decide) hy) (List.range 128) (List.mem_range.mpr he) _ trivial
    rw [on_put_same _ _ _ _ _ (by decide) (by decide)]; rfl

theorem after_reset {f g : Nat} {s u : State} (h : AfterReset f s u) : AfterReset f s (clearFn g u) := by
  refine ⟨fun r => (resets_fn g u r).trans (h.fn r), fun r hr hf => ?_, fun n hn h1 h2 => ?_, fun e he => ?_⟩
  · unfold on
    rw [get_of_rd (f := fld.ringCtrl.EN) (rd_clearFn g u .ringCtrl (.inr rfl) r 0),
      get_of_rd (f := fld.ringCtrl.EN) (rd_of_forEach (fun n u => semReset_reg g n u _ (by decide) _ _) _ _)]
    exact forEach_all (P := fun x => on x fld.ringCtrl.EN r = false) (fun a y hy => ringOff_off g a r y hy) _ _ (h.ring r hr hf)
  · have q := h.sem n hn h1 h2
    have e0 : rd (forEach (List.range 64) (ringOffIf g) u) .sem n = rd u .sem n := rd_of_forEach (fun r y => ringOff_reg g r y _ (by decide) _ _) _ _
    have e1 : rd (forEach (List.range 256) (semReset g) (forEach (List.range 64) (ringOffIf g) u)) .sem n = rd u .sem n := by
      refine forEach_all (P := fun x => rd x .sem n = rd u .sem n) (fun a y hy => ?_) _ _ e0
      rw [sem_unheld g a n y]
      · exact hy
      · rw [← q.1]; unfold on; rw [get_of_rd (f := fld.sem.HELD) hy]
    have es := (resets_sem g u n).trans e1
    unfold on
    rw [get_of_rd (f := fld.sem.HELD) es, get_of_rd (f := fld.sem.GEN) es]
    exact q
  · have q := h.route e he
    rw [on_congr (clearFn_regs g u)]
    refine forEach_all (P := fun x => on x fld.route.EN f e = false) (fun a y hy => on_put_zero _ _ _ _ _ _ (by decide) hy) _ _ ?_
    rw [← q]
    unfold on
    rw [get_of_rd (f := fld.route.EN) (rd_of_forEach (fun c u => ctxOff_reg g c u .route (.inr (.inr rfl)) f e) _ _),
      get_of_rd (f := fld.route.EN) (rd_of_forEach (fun n u => semReset_reg g n u _ (by decide) _ _) _ _),
      get_of_rd (f := fld.route.EN) (rd_of_forEach (fun r u => ringOff_reg g r u _ (by decide) _ _) _ _)]

/-- What is reset stays so where the rings, semaphores and routes stay. -/
theorem AfterReset.same {f : Nat} {s u t : State} (h : AfterReset f s u)
    (e : ∀ q, q = .ringCtrl ∨ q = .sem ∨ q = .route → ∀ i j, rd t q i j = rd u q i j) : AfterReset f s t := by
  have c := fun i j => e .ringCtrl (.inl rfl) i j
  have m := fun i j => e .sem (.inr (.inl rfl)) i j
  have r := fun i j => e .route (.inr (.inr rfl)) i j
  refine ⟨fun q => (get_of_rd (f := fld.ringCtrl.FN) (c q 0)).trans (h.fn q), fun q hq hf => ?_, fun n hn h1 h2 => ?_, fun k hk => ?_⟩
  · unfold on; rw [get_of_rd (f := fld.ringCtrl.EN) (c q 0)]; exact h.ring q hq hf
  · unfold on; rw [get_of_rd (f := fld.sem.HELD) (m n 0), get_of_rd (f := fld.sem.GEN) (m n 0)]; exact h.sem n hn h1 h2
  · unfold on; rw [get_of_rd (f := fld.route.EN) (r f k)]; exact h.route k hk

theorem BeforeReset.same {f : Nat} {s u t : State} (h : BeforeReset f s u)
    (e : ∀ q, q = .ringCtrl ∨ q = .sem ∨ q = .route → ∀ i j, rd t q i j = rd u q i j) : BeforeReset f s t :=
  ⟨fun q => (get_of_rd (f := fld.ringCtrl.FN) (e _ (.inl rfl) q 0)).trans (h.fn q),
    fun n h1 h2 => (e _ (.inr (.inl rfl)) n 0).trans (h.sem n h1 h2)⟩

theorem rd_raised (ev d : Nat) (u : State) : ∀ q, q = .ringCtrl ∨ q = .sem ∨ q = .route → ∀ i j, rd (raise ev d u) q i j = rd u q i j := by
  intro q h i j
  refine rd_raise _ _ _ _ _ _ ?_ ?_ ?_ <;> rcases h with rfl | rfl | rfl <;> decide

theorem after_setVfs {f : Nat} {s u : State} (h : AfterReset f s u) (p n : Nat) : AfterReset f s (setVfs p n u) := by
  unfold setVfs
  dsimp only
  have : AfterReset f s (forEach (u.hst.fnPresent.filter (fun f => f / 16 == p && decide (Nat.min n 15 < f % 16))) clearFn u) :=
    forEach_all (P := AfterReset f s) (fun g x hx => after_reset hx) _ _ h
  exact this.same (fun _ _ _ _ => rd_congr rfl _ _ _)

theorem after_perst {f : Nat} {s u : State} (h : AfterReset f s u) (ps : List Nat) : AfterReset f s { u with hst := { u.hst with perst := ps } } :=
  h.same (fun _ _ _ _ => rd_congr rfl _ _ _)

theorem after_link {f : Nat} {s u : State} (h : AfterReset f s u) (p a b : Nat) : AfterReset f s (pcieLinkTo p a b u) := by
  unfold pcieLinkTo
  extract_lets lo old new
  split
  · exact h
  · refine h.same (fun q hq i j => (rd_raised _ _ _ q hq i j).trans ?_)
    rcases hq with rfl | rfl | rfl <;>
    exact (rd_wr_reg (by decide) _ _ _ _ _ _).trans (rd_wr_reg (by decide) _ _ _ _ _ _)

theorem resets {s : State} {fn : Nat} (hp : pcieFn s fn = true) (hf : fn < 32) (i : Instr)
    (hi : i = .functionLevelReset fn ∨ i = .perstN (fn / 16) true) :
    ∃ t, exec i s = .next t ∧ (∀ r, r < 64 → get s fld.ringCtrl.FN r = fn → on t fld.ringCtrl.EN r = false) ∧
      (∀ n, n < 256 → on s fld.sem.HELD n = true → get s fld.sem.OWNER n = fn → on t fld.sem.HELD n = false ∧
        get t fld.sem.GEN n = (get s fld.sem.GEN n + 1) % 2 ^ fld.sem.GEN.w) ∧
      ∀ e, e < 128 → on t fld.route.EN fn e = false := by
  have b0 : BeforeReset fn s s := ⟨fun _ => rfl, fun _ _ _ => rfl⟩
  have raised : ∀ g u, ∀ q, q = .ringCtrl ∨ q = .sem ∨ q = .route → ∀ i j, rd (resetFn g u) q i j = rd (clearFn g u) q i j := by
    intro g u
    unfold resetFn raise0
    exact rd_raised 13 noDetail (clearFn g u)
  have own : ∀ u, BeforeReset fn s u → AfterReset fn s (resetFn fn u) := fun u h => (reset_own h).same (raised fn u)
  have fin : ∀ t, AfterReset fn s t → (∀ r, r < 64 → get s fld.ringCtrl.FN r = fn → on t fld.ringCtrl.EN r = false) ∧
      (∀ n, n < 256 → on s fld.sem.HELD n = true → get s fld.sem.OWNER n = fn → on t fld.sem.HELD n = false ∧
        get t fld.sem.GEN n = (get s fld.sem.GEN n + 1) % 2 ^ fld.sem.GEN.w) ∧
      ∀ e, e < 128 → on t fld.route.EN fn e = false := fun t h => ⟨h.ring, h.sem, h.route⟩
  rcases hi with rfl | rfl
  · refine ⟨flrFn fn s, ?_, fin _ ?_⟩
    · show execFunctionLevelReset fn s = _
      unfold execFunctionLevelReset
      rw [hp, if_pos rfl]
    · unfold flrFn
      split
      · exact after_setVfs (own s b0) _ _
      · exact own s b0
  · have q : AfterReset fn s (forEach (s.hst.fnPresent.filter (fun f => f / 16 == fn / 16)) resetFn s) := by
      refine forEach_mem (P := BeforeReset fn s) (Q := AfterReset fn s) fn
        (fun g u hg h => (before_reset hg h).same (raised g u)) (fun u h => own u h)
        (fun g u h => (after_reset h).same (raised g u)) _ ?_ s b0
      rw [List.mem_filter]
      unfold pcieFn at hp
      exact ⟨by simpa using hp, by simp⟩
    refine ⟨_, ?_, fin _ (after_link (after_perst (after_setVfs q (fn / 16) 0) (s.hst.perst.filter (fun h => h != fn / 16) ++ [fn / 16])) (fn / 16) 0 0)⟩
    show execPerstN (fn / 16) true s = _
    unfold execPerstN
    rw [if_neg (by omega)]
    dsimp only
    rw [if_neg (by simp)]


/-! ## Links -/

theorem link_fields (n : Nat) (hn : n < 2 ^ 32) (a b : BitVec 2) (lo : Nat) (hl : lo = 0 ∨ lo = 16) :
    withBits (withBits n lo 2 a.toNat) (lo + 4) 2 b.toNat < 2 ^ 32 ∧
    bitsOf (withBits (withBits n lo 2 a.toNat) (lo + 4) 2 b.toNat) lo 2 = a.toNat ∧
    bitsOf (withBits (withBits n lo 2 a.toNat) (lo + 4) 2 b.toNat) (lo + 4) 2 = b.toNat := by
  have ha := a.isLt
  have hb := b.isLt
  refine ⟨?_, ?_, ?_⟩
  · rcases hl with rfl | rfl <;> simp only [withBits, bitsOf] <;> omega
  · rw [bitsOf_withBits_below _ _ _ _ _ _ (by omega), bitsOf_withBits_same]; exact Nat.mod_eq_of_lt ha
  · rw [bitsOf_withBits_same]; exact Nat.mod_eq_of_lt hb

theorem link_changes (s : State) (p lo : Nat) (hp : p < 2) (hh : s.hst.perst.contains p = false) (hl : lo = if p = 0 then 0 else 16) (rate width : BitVec 2) :
    ∃ t, exec (.pcieLinkChange p rate width) s = .next t ∧ bitsOf (rd t .pcieLink).toNat lo 2 = rate.toNat ∧
      bitsOf (rd t .pcieLink).toNat (lo + 4) 2 = width.toNat ∧
      (rd t .pcieLink ≠ rd s .pcieLink → hasBit t fld.hostStatus.HOST_STATUS 3 = true) := by
  refine ⟨pcieLinkTo p rate.toNat width.toNat s, ?_, ?_⟩
  · show execPcieLinkChange p rate width s = _
    unfold execPcieLinkChange
    rw [hh, if_neg (by simp; omega)]
  obtain ⟨k0, k1, k2⟩ := link_fields (rd s .pcieLink).toNat (rd s .pcieLink).isLt rate width lo (by split at hl <;> simp [hl])
  unfold pcieLinkTo
  extract_lets lo' old new
  have hlo : lo' = lo := hl.symm
  have hnew : new = withBits (withBits (rd s .pcieLink).toNat lo 2 rate.toNat) (lo + 4) 2 width.toNat := by
    show withBits (withBits old lo' 2 rate.toNat) (lo' + 4) 2 width.toNat = _
    rw [hlo]
  have hold : old = (rd s .pcieLink).toNat := rfl
  clear_value lo' old new
  rw [← hnew] at k0 k1 k2
  split
  · rename_i e
    rw [← hold, ← e]
    exact ⟨k1, k2, fun h => absurd rfl h⟩
  · have e1 : rd (raise 12 p (setBit fld.hostStatus.HOST_STATUS 3 (wr .pcieLink (BitVec.ofNat 32 new) s))) .pcieLink = BitVec.ofNat 32 new := by
      rw [rd_raise _ _ _ _ _ _ (by decide) (by decide) (by decide)]
      exact (rd_wr_reg (by decide) _ _ _ _ _ _).trans (rd_wr_same _ _ _ _ _)
    rw [e1, BitVec.toNat_ofNat, Nat.mod_eq_of_lt k0]
    exact ⟨k1, k2, fun _ => hostKeeps_raise 12 p _ 3 (hasBit_setBit _ _ _ _ _ (by decide) (by decide))⟩

/-! ## Waiting changes -/

theorem erase_newest {s : State} {k : InKey} {w : List Waiting} (h : NextIsNewest s k) :
    NextIsNewest { s with vat := { s.vat with waiting := w } } k := h

theorem waiting_enters {s : State} {n : Nat} {w : Waiting} (h1 : s.vat.waiting[n]? = some w) (hr : logRoom s = true) (hb : s.vat.badNext = false)
    (hn : NextIsNewest s w.key) (hk : w.key.kind ≠ 7 ∨ w.key.idx < 1024) :
    ∃ t, exec (.inputLogEnter n false) s = .next t ∧ EntersLog s t w.key w.value w.buf w.target ∧
      t.vat.waiting = s.vat.waiting.eraseIdx n := by
  generalize hx : ({ s with vat := { s.vat with waiting := s.vat.waiting.eraseIdx n } } : State) = x
  have nx : NextIsNewest x w.key := by rw [← hx]; exact hn
  obtain ⟨e1, e2⟩ := logChange_enters w.key w.value w.buf w.target x (by rw [← hx]; exact hb) hk nx
  have e0 : EntersLog s (logChange w.key w.value w.buf w.target x) w.key w.value w.buf w.target := by
    rw [← hx] at e1 ⊢
    exact e1
  have ew : (logChange w.key w.value w.buf w.target x).vat.waiting = s.vat.waiting.eraseIdx n := by
    rw [logChange_waiting, ← hx]
  generalize hz : logChange w.key w.value w.buf w.target x = z at e0 ew
  have fin : ∀ t : State, t.vat = z.vat → EntersLog s t w.key w.value w.buf w.target ∧ t.vat.waiting = s.vat.waiting.eraseIdx n := by
    intro t ht
    unfold EntersLog at e0 ⊢
    rw [newestVersion_congr (s := z) (t := t) (by rw [ht]), ht]
    exact ⟨e0, ew⟩
  have ex : execInputLogEnter n false s = (match w.cmd with
      | some (h, op, entry) => .next (completeCmd h op (opSpan op) 0 (newestVersion z w.key) (journalCmd h op entry 0 (newestVersion z w.key) z))
      | none => .next (journalChange w.key w.value w.target z)) := by
    unfold execInputLogEnter
    dsimp only
    rw [if_neg (by simp), h1]
    dsimp only
    rw [hr, if_neg (by simp), hx, hz, hb]
    rfl
  cases hc : w.cmd with
  | none =>
    refine ⟨journalChange w.key w.value w.target z, ?_, fin _ ?_⟩
    · show execInputLogEnter n false s = _
      rw [ex, hc]
    · unfold journalChange
      split
      · exact (noted_journal _ _ _).same.2.1
      · rfl
  | some c =>
    obtain ⟨h, op, entry⟩ := c
    refine ⟨completeCmd h op (opSpan op) 0 (newestVersion z w.key) (journalCmd h op entry 0 (newestVersion z w.key) z), ?_, fin _ ?_⟩
    · show execInputLogEnter n false s = _
      rw [ex, hc]
    · rw [(completeCmd_parts _ _ _ _ _ _).2.2.1]
      exact (noted_journal _ _ _).same.2.1

theorem waiting_poisoned {s : State} {n : Nat} {w : Waiting} (p : Bool) (h1 : s.vat.waiting[n]? = some w) (hr : logRoom s = true)
    (hp : p = true ∨ s.vat.badNext = true) :
    ∃ t, exec (.inputLogEnter n p) s = .next t ∧ t.vat = { s.vat with waiting := s.vat.waiting.eraseIdx n, badNext := false } ∧
      (s.hst.parity = [] → counter t Cnt.poison.ctorIdx = counter s Cnt.poison.ctorIdx + 1) ∧ hasBit t fld.hostStatus.HOST_STATUS 1 = true := by
  generalize hx : ({ s with vat := { s.vat with waiting := s.vat.waiting.eraseIdx n, badNext := true } } : State) = x
  have xs : (discardChange x).vat = { s.vat with waiting := s.vat.waiting.eraseIdx n, badNext := false } := by
    rw [(discardChange_calm x).2, ← hx]
  have xc : s.hst.parity = [] → (discardChange x).hst.parity = [] ∧ counter (discardChange x) Cnt.poison.ctorIdx = counter s Cnt.poison.ctorIdx + 1 := by
    intro he
    have hxp : x.hst.parity = [] := by rw [← hx]; exact he
    unfold discardChange raise0
    obtain ⟨a, b⟩ := clean_raise 10 noDetail (setBit fld.hostStatus.HOST_STATUS 1 (bump .poison { x with vat := { x.vat with badNext := false } })) hxp
    refine ⟨a, b.trans ?_⟩
    have : counter x Cnt.poison.ctorIdx = counter s Cnt.poison.ctorIdx := by rw [← hx]; rfl
    rw [← this]
    exact counter_bump_same .poison _
  have xb : hasBit (discardChange x) fld.hostStatus.HOST_STATUS 1 = true := by
    unfold discardChange raise0
    generalize bump .poison { x with vat := { x.vat with badNext := false } } = u
    exact hostKeeps_raise 10 noDetail (setBit fld.hostStatus.HOST_STATUS 1 u) 1 (hasBit_setBit _ _ _ _ _ (by decide) (by decide))
  have lc : logChange w.key w.value w.buf w.target x = discardChange x := by
    unfold logChange; rw [if_pos (by rw [← hx])]
  generalize discardChange x = z at xs xc xb lc
  have ex : execInputLogEnter n p s = (match w.cmd with
      | some (h, op, _) => .next (completeCmd h op (opSpan op) 0 (newestVersion z w.key) z)
      | none => .next z) := by
    have e0 : (if p then { s with vat := { s.vat with badNext := true } } else s : State) = { s with vat := { s.vat with badNext := true } } := by
      cases p
      · rcases hp with hp | hp
        · simp at hp
        · rw [if_neg (by simp)]
          exact congrArg (fun b => ({ s with vat := { s.vat with badNext := b } } : State)) hp
      · rfl
    unfold execInputLogEnter
    dsimp only
    rw [e0]
    dsimp only
    rw [h1]
    have hr2 : logRoom ({ s with vat := { s.vat with badNext := true } } : State) = true := hr
    dsimp only
    rw [hr2, if_neg (by simp), hx, lc]
    rfl
  cases hc : w.cmd with
  | none =>
    refine ⟨z, ?_, xs, fun he => (xc he).2, xb⟩
    show execInputLogEnter n p s = _
    rw [ex, hc]
  | some c =>
    obtain ⟨h, op, entry⟩ := c
    refine ⟨completeCmd h op (opSpan op) 0 (newestVersion z w.key) z, ?_, ?_, fun he => ?_, ?_⟩
    · show execInputLogEnter n p s = _
      rw [ex, hc]
    · rw [(completeCmd_parts _ _ _ _ _ _).2.2.1]; exact xs
    · rw [(completeCmd_clean h op (opSpan op) 0 (newestVersion z w.key) z (xc he).1).2]; exact (xc he).2
    · exact completeCmd_keeps h op (opSpan op) 0 (newestVersion z w.key) z 1 xb

/-- Where no change waits at that place, the parity of the next record to enter fails (R286). -/
theorem waiting_none {s : State} {n : Nat} (p : Bool) (h1 : s.vat.waiting[n]? = none) :
    exec (.inputLogEnter n p) s = .next { s with vat := { s.vat with badNext := p || s.vat.badNext } } := by
  show execInputLogEnter n p s = _
  unfold execInputLogEnter
  cases p
  · dsimp only
    rw [if_neg (by simp), h1]
    rfl
  · dsimp only
    rw [if_pos rfl]
    dsimp only
    rw [h1]
    rfl

end Sys2Proof.Machine
end

