-- ==== Sys2Proof/Laws/RegisterAccess.lean ====
section
/-!
SUPPORT. Writes and reads of registers: the bits that a write takes, shadowed writes, two ports in one cycle, and reads.
-/

namespace Sys2Proof.Machine

set_option Elab.async false


theorem regId_off_plain (r : RegId) (i j : Nat) : r.off i j = r.desc.base + r.desc.step * i + r.desc.step2 * j := rfl

/-- The bits of a word that a complement keeps. -/
theorem testBit_inv {x b : Nat} (h : x < 2 ^ 32) : (0xFFFFFFFF - x).testBit b = (decide (b < 32) && !x.testBit b) := by
  have := Nat.testBit_two_pow_sub_succ (x := x) (n := 32) h b
  rw [show (2 : Nat) ^ 32 - (x + 1) = 0xFFFFFFFF - x from by omega] at this
  exact this

theorem land_lt {x y : Nat} (h : y < 2 ^ 32) : Nat.land x y < 2 ^ 32 := Nat.lt_of_le_of_lt Nat.and_le_right h
theorem land_lt_left {x y : Nat} (h : x < 2 ^ 32) : Nat.land x y < 2 ^ 32 := Nat.lt_of_le_of_lt Nat.and_le_left h

/-- The merge of a written word, bit by bit (R11). -/
theorem mergeWrite_bit (s : State) (fn : Nat) (r : RegId) (i j : Nat) (v : W32) (b : Nat) (hb : b < 32) :
    (mergeWrite s (isPf fn) r i j v).getLsbD b = bitWritten s fn r i j v b := by
  have hold : ∀ m, m = Nat.lor (Nat.lor (if unitOn s r i then r.desc.locked else 0) (if isPf fn then 0 else r.desc.pfOnly)) (absentBits s r i) →
      m.testBit b = ((unitOn s r i && r.desc.locked.testBit b) || (!isPf fn && r.desc.pfOnly.testBit b) || (absentBits s r i).testBit b) := by
    intro m hm
    rw [hm]
    show ((_ ||| _) ||| _ : Nat).testBit b = _
    rw [Nat.testBit_lor, Nat.testBit_lor]
    cases unitOn s r i <;> cases isPf fn <;> simp
  unfold mergeWrite
  dsimp only
  generalize hm : Nat.lor (Nat.lor (if unitOn s r i then r.desc.locked else 0) (if isPf fn then 0 else r.desc.pfOnly)) (absentBits s r i) = m
  have hmb := hold m hm.symm
  generalize htk : Nat.land r.desc.rw (0xFFFFFFFF - Nat.land m 0xFFFFFFFF) = take
  have htl : take < 2 ^ 32 := by rw [← htk]; exact land_lt (by omega)
  have htb : take.testBit b = bitTaken s fn r i b := by
    rw [← htk]
    show (_ &&& _ : Nat).testBit b = _
    rw [Nat.testBit_land, testBit_inv (land_lt (by decide))]
    have : (Nat.land m 0xFFFFFFFF).testBit b = m.testBit b := by
      show (_ &&& _ : Nat).testBit b = _
      rw [Nat.testBit_land, show (0xFFFFFFFF : Nat) = 2 ^ 32 - 1 from rfl, Nat.testBit_two_pow_sub_one]; simp [hb]
    rw [this, hmb]
    unfold bitTaken
    cases r.desc.rw.testBit b <;> cases unitOn s r i <;> cases r.desc.locked.testBit b <;> cases isPf fn <;> cases r.desc.pfOnly.testBit b <;>
      cases (absentBits s r i).testBit b <;> simp [hb]
  rw [BitVec.getLsbD_ofNat]
  show (decide (b < 32) && ((_ ||| _) ||| _ : Nat).testBit b) = _
  rw [Nat.testBit_lor, Nat.testBit_lor]
  show (decide (b < 32) && (((_ &&& _ : Nat).testBit b || (_ &&& _ : Nat).testBit b) || (_ &&& _ : Nat).testBit b)) = _
  rw [Nat.testBit_land, Nat.testBit_land, Nat.testBit_land, testBit_inv (land_lt v.isLt), htb]
  show (decide (b < 32) && ((((_ &&& _ : Nat).testBit b && (decide (b < 32) && !(_ &&& _ : Nat).testBit b)) || _) || _)) = _
  rw [Nat.testBit_land, Nat.testBit_land, testBit_inv htl, htb]
  unfold bitWritten
  have e1 : (rd s r i j).toNat.testBit b = (rd s r i j).getLsbD b := rfl
  have e2 : v.toNat.testBit b = v.getLsbD b := rfl
  rw [e1, e2]
  cases bitTaken s fn r i b <;> cases (rd s r i j).getLsbD b <;> cases v.getLsbD b <;> cases r.desc.w1c.testBit b <;> cases r.desc.w1s.testBit b <;> simp [hb]

/-- A record of the journal does not change what a write makes of a register. -/
theorem bitWritten_noted {s x : State} (h : Noted s x) (fn : Nat) (r : RegId) (hr : r ≠ .jseqTx) (i j : Nat) (v : W32) (b : Nat) :
    bitWritten x fn r i j v b = bitWritten s fn r i j v b := by
  have e1 : unitOn x r i = unitOn s r i := by
    unfold unitOn
    split <;> first | exact h.on _ _ _ (by decide) | rfl
  have e2 : absentBits x r i = absentBits s r i := by
    have : x.member = s.member := by rw [h.frame]
    unfold absentBits; rw [this]
  unfold bitWritten bitTaken
  rw [e1, e2, h.reg r i j hr]

theorem wrote_plain (s : State) (fn : Nat) (r : RegId) (i j : Nat) (v : W32) : Wrote s (plainWrite (isPf fn) r i j v s) fn r i j v := by
  intro b hb
  unfold plainWrite
  rw [rd_wr_same]
  exact mergeWrite_bit s fn r i j v b hb

/-- The effect of a write that only stores. -/
theorem busEffect_stores {r : RegId} (h : storesOnly r = true) (fn i j : Nat) (v : W32) (s : State) :
    busEffect fn r i j v s = plainWrite (isPf fn) r i j v s := by
  unfold busEffect renderEffect controlEffect
  cases r <;> simp [storesOnly, RegId.desc] at h ⊢


theorem wrote_noted {s x t : State} {fn : Nat} {r : RegId} {i j : Nat} {v : W32} (h : Noted s x) (hr : r ≠ .jseqTx) (hw : Wrote x t fn r i j v) :
    Wrote s t fn r i j v := fun b hb => by rw [hw b hb]; exact bitWritten_noted h fn r hr i j v b

theorem storesOnly_jseq {r : RegId} (h : storesOnly r = true) : r ≠ .jseqTx := by rintro rfl; simp [storesOnly] at h

/-- What hardware sets in the cycle of a write stays set (R12). -/
theorem keepSetting_bit {off : Nat} {r : RegId} {i j : Nat} (ha : regAt off = some ⟨r, i, j⟩) (setting : W32) (x t : State) (b : Nat) :
    (rd (keepSetting off setting x t) r i j).getLsbD b =
      ((rd t r i j).getLsbD b || (setting.getLsbD b && (decide (b < 32) && r.desc.w1c.testBit b) && (rd x r i j).getLsbD b)) := by
  unfold keepSetting
  rw [ha]
  dsimp only
  have e : ∀ w : W32, w = setting &&& BitVec.ofNat 32 r.desc.w1c &&& rd x r i j →
      w.getLsbD b = (setting.getLsbD b && (decide (b < 32) && r.desc.w1c.testBit b) && (rd x r i j).getLsbD b) := by
    intro w hw; rw [hw, BitVec.getLsbD_and, BitVec.getLsbD_and, BitVec.getLsbD_ofNat]
  rw [← e _ rfl]
  split
  · rename_i h; rw [h]; simp
  · rw [rd_wr_same, BitVec.getLsbD_or]

/-- With no W1C bit there is nothing for hardware to keep. -/
theorem keepSetting_none {off : Nat} {r : RegId} {i j : Nat} (ha : regAt off = some ⟨r, i, j⟩) (hc : r.desc.w1c = 0) (setting : W32) (x t : State) :
    keepSetting off setting x t = t := by
  unfold keepSetting
  rw [ha]
  dsimp only
  rw [hc, if_pos (by simp)]

theorem write_stores {s : State} {fn off : Nat} {r : RegId} {i j : Nat} {v : W32} (ha : regAt off = some ⟨r, i, j⟩) (hs : storesOnly r = true)
    (h : Writable s fn r i j) (setting : W32) : ∃ t, exec (.registerWrite fn .bar0 off v 4 setting none) s = .next t ∧
      ∀ b, b < 32 → (rd t r i j).getLsbD b =
        (bitWritten s fn r i j v b || (setting.getLsbD b && r.desc.w1c.testBit b && (rd s r i j).getLsbD b)) := by
  obtain ⟨x, hx, e⟩ := hostWrite_of h v (busEffect fn r i j v)
  have w : Wrote s (plainWrite (isPf fn) r i j v x) fn r i j v := wrote_noted hx (storesOnly_jseq hs) (wrote_plain x fn r i j v)
  refine ⟨keepSetting off setting s (plainWrite (isPf fn) r i j v x), ?_, fun b hb => ?_⟩
  · show execRegisterWrite fn .bar0 off v 4 setting none s = _
    unfold execRegisterWrite barWrite sizedWrite busWrite
    dsimp only
    rw [if_pos rfl, ha]
    dsimp only
    rw [e, busEffect_stores hs]
  · rw [keepSetting_bit ha, w b hb]
    simp [hb]

/-- A write of a register that only stores leaves alone what decides whether another write of it takes effect. -/
theorem writable_after {s x : State} {g : Nat} {r : RegId} {i j : Nat} (h : Writable s g r i j) (hp : isPf g = true)
    (he : x = { s with regs := x.regs, hst := { s.hst with busTie := x.hst.busTie } }) (hr : ∀ q, q ≠ r → ∀ k l, rd x q k l = rd s q k l)
    (hq : storesOnly r = true) (hw : r ≠ .bistRes ∧ r ≠ .pwrMode ∧ r ≠ .twinStatus ∧ r ≠ .sched) : Writable x g r i j := by
  have eq : ∀ (f : Fld) k l, f.reg ≠ r → get x f k l = get s f k l := fun f k l hf => get_of_rd (hr _ hf k l)
  have e1 : fnExists x g = fnExists s g := by
    unfold fnExists on
    rw [eq fld.sched.SVC _ _ (Ne.symm hw.2.2.2), he]
  have e2 : mode x = mode s := by
    unfold mode
    exact eq _ _ _ (Ne.symm hw.2.1)
  have e3 : hostUp x = hostUp s := by
    unfold hostUp; rw [e2, he]
  have e4 : absentReg x r i = absentReg s r i := by
    have : x.member = s.member := by rw [he]
    unfold absentReg; rw [this]
  have e5 : underTest x r i j = underTest s r i j := by
    unfold underTest
    congr 1
    funext b
    unfold blockTested
    rw [eq fld.bistRes.RESULT _ _ (Ne.symm hw.1)]
  have e6 : standby x = standby s := by
    unfold standby role
    rw [eq _ _ _ (Ne.symm hw.2.2.1)]
  exact ⟨⟨by rw [e1]; exact h.known, by rw [e3]; exact h.up, .inl hp, by rw [e4]; exact h.present, by rw [e5]; exact h.quiet⟩,
    by rw [e2]; exact h.safe, by rw [e6]; exact h.active⟩

theorem sizedWrite_stores {s : State} {fn off : Nat} {r : RegId} {i j : Nat} {v : W32} (ha : regAt off = some ⟨r, i, j⟩) (hs : storesOnly r = true)
    (hj : journaled (r.off i j) = false) (h : Writable s fn r i j) : busWrite fn off v s = plainWrite (isPf fn) r i j v s := by
  unfold busWrite
  rw [ha]
  dsimp only
  rw [hostWrite_plain h hj, busEffect_stores hs]

/-- Two writes of a register, one after the other: the later one stands. -/
theorem two_writes {s x : State} {f g off : Nat} {r : RegId} {i j : Nat} {v w : W32} (ha : regAt off = some ⟨r, i, j⟩) (hs : storesOnly r = true)
    (hj : journaled (r.off i j) = false) (h1 : Writable s f r i j) (h2 : Writable s g r i j) (p1 : isPf f = true) (p2 : isPf g = true)
    (hrw : r.desc.rw ≠ 0) (hc : r.desc.w1c = 0) (hw : r.desc.w1s = 0) (b : Bool) (hx : x = { s with hst := { s.hst with busTie := b } }) :
    Wrote s (busWrite g off w (busWrite f off v x)) g r i j w ∧ (busWrite g off w (busWrite f off v x)).hst.busTie = b := by
  have ne : r ≠ .bistRes ∧ r ≠ .pwrMode ∧ r ≠ .twinStatus ∧ r ≠ .sched := by
    refine ⟨?_, ?_, ?_, ?_⟩ <;> rintro rfl <;> simp [storesOnly, RegId.desc] at hs hrw
  have hx0 : Writable x f r i j := writable_after h1 p1 (by rw [hx]) (fun q _ k l => rd_congr (by rw [hx]) _ _ _) hs ne
  rw [sizedWrite_stores ha hs hj hx0]
  generalize hy : plainWrite (isPf f) r i j v x = y
  have y1 : y = { s with regs := y.regs, hst := { s.hst with busTie := y.hst.busTie } } := by
    rw [← hy, hx]; rfl
  have y2 : ∀ q, q ≠ r → ∀ k l, rd y q k l = rd s q k l := by
    intro q hq k l
    rw [← hy]
    exact (rd_wr_reg hq _ _ _ _ _ _).trans (rd_congr (by rw [hx]) _ _ _)
  have y3 : y.hst.busTie = b := by rw [← hy, hx]; rfl
  have hyw : Writable y g r i j := writable_after h2 p2 y1 y2 hs ne
  rw [sizedWrite_stores ha hs hj hyw]
  refine ⟨fun b hb => ?_, y3⟩
  rw [wrote_plain y g r i j w b hb]
  have mem : y.member = s.member := by rw [y1]
  have un : unitOn y r i = unitOn s r i := by
    have eq : ∀ (f : Fld) k l, f.reg ≠ r → get y f k l = get s f k l := fun f k l hf => get_of_rd (y2 _ hf k l)
    unfold unitOn on
    cases r <;> first | rfl | (simp [storesOnly] at hs; done) | (dsimp only; rw [eq _ _ _ (by decide)])
  have ab : absentBits y r i = absentBits s r i := by unfold absentBits; rw [mem]
  unfold bitWritten
  have bt : ∀ f, isPf f = true → bitTaken y f r i b = bitTaken s g r i b := by
    intro f hf
    unfold bitTaken
    rw [un, ab, hf, p2]
  rw [bt g p2, hc, hw]
  by_cases k : bitTaken s g r i b = true
  · rw [if_pos k, if_pos k]
  · rw [if_neg k, if_neg k]
    have old : (rd y r i j).getLsbD b = (rd s r i j).getLsbD b := by
      rw [← hy, wrote_plain x f r i j v b hb]
      have bx : bitTaken x f r i b = bitTaken s g r i b := by
        unfold bitTaken
        rw [p1, p2, hx]
        rfl
      unfold bitWritten
      rw [bx, if_neg k, hc, hw, hx]
      have : ∀ z : State, z.regs = s.regs → ((rd z r i j).getLsbD b && !((0 : Nat).testBit b && v.getLsbD b) || v.getLsbD b && (0 : Nat).testBit b) = (rd s r i j).getLsbD b := by
        intro z hz
        rw [rd_congr hz]; simp
      exact this _ rfl
    rw [old]

theorem write_ties {s : State} {fn off : Nat} {r : RegId} {i j : Nat} {v : W32} (ha : regAt off = some ⟨r, i, j⟩) (hs : storesOnly r = true)
    (h : Writable s fn r i j) (setting : W32) (g : Nat) (w : W32) (hg : acrossPorts s fn g = true) (p1 : isPf fn = true) (p2 : isPf g = true)
    (hj : journaled (r.off i j) = false) (h2 : Writable s g r i j) (hrw : r.desc.rw ≠ 0) (hc : r.desc.w1c = 0) (hw : r.desc.w1s = 0) :
        ∃ t, exec (.registerWrite fn .bar0 off v 4 setting (some (g, w))) s = .next t ∧
          (((fn / 16 == 1) = s.hst.busTie → Wrote s t g r i j w ∧ t.hst.busTie = (g / 16 == 1)) ∧
           ((fn / 16 == 1) ≠ s.hst.busTie → Wrote s t fn r i j v ∧ t.hst.busTie = (fn / 16 == 1))) := by
  have hsem : semAtOff off = none := by
    unfold semAtOff
    rw [ha]
    dsimp only
    rw [if_neg (by rintro rfl; simp [storesOnly] at hs)]
  have hne : g ≠ fn := by
    rintro rfl
    unfold acrossPorts at hg
    simp at hg
  by_cases e : (fn / 16 == 1) = s.hst.busTie
  · refine ⟨busWrite g off w (busWrite fn off v (busTieSet g s)), ?_, fun _ => ?_, fun k => absurd e k⟩
    · show execRegisterWrite fn .bar0 off v 4 setting (some (g, w)) s = _
      have o : busOrder s off fn g = (fn, g) := by
        unfold busOrder; rw [hsem]; exact if_pos (by simp [e])
      unfold execRegisterWrite barWrite sizedWrite turnTie
      dsimp only
      rw [hg, hsem, if_neg (by simp), o]
      dsimp only
      rw [if_pos rfl, if_pos rfl, keepSetting_none ha hc]
    · exact two_writes ha hs hj h h2 p1 p2 hrw hc hw _ rfl
  · refine ⟨busWrite fn off v (busWrite g off w (busTieSet fn s)), ?_, fun k => absurd k e, fun _ => ?_⟩
    · show execRegisterWrite fn .bar0 off v 4 setting (some (g, w)) s = _
      have o : busOrder s off fn g = (g, fn) := by
        unfold busOrder; rw [hsem]; exact if_neg (by simp [e])
      unfold execRegisterWrite barWrite sizedWrite turnTie
      dsimp only
      rw [hg, hsem, if_neg (by simp), o]
      dsimp only
      rw [if_neg hne, if_pos rfl, keepSetting_none ha hc]
    · exact two_writes ha hs hj h2 h p2 p1 hrw hc hw _ rfl

/-! ## Shadowed writes -/

/-- The end of rest leaves the other bits of CANVAS_STATUS, the values in force and the shadowed registers alone. -/
theorem endRest_shadow (c : Nat) (s : State) : on (endRest c s) fld.canvasStatus.SHADOW c = on s fld.canvasStatus.SHADOW c ∧
    (endRest c s).inForce = s.inForce ∧ ∀ r ∈ shadowedRegs, ∀ i j, rd (endRest c s) r i j = rd s r i j := by
  have w := (within_endRest c (μ := footprint [.ringTail, .ringStatus, .hostStatus, .ctxStatus, .ctxEvent, .tmplBind, .tmplReleased, .tmplDrop, .canvasStatus, .pwrMode]
    [.cnt, .hmem, .sch, .vat, .hst, .pwr]) (by decide +kernel) (Within.refl s))
  refine ⟨?_, w.part .inForce (by decide +kernel), fun r hr i j => w.reg r ?_ i j⟩
  · unfold endRest
    dsimp only
    split
    · unfold on
      have e1 : ∀ x, rd (raise 39 c x) .canvasStatus c = rd x .canvasStatus c := fun x => rd_raise _ _ _ _ _ _ (by decide) (by decide) (by decide)
      have e2 : ∀ xs y, rd (forEach xs (fun e u => releaseTmpls c e u) y) .canvasStatus c = rd y .canvasStatus c := fun xs y =>
        (Within.forEach (Within.refl y) (fun a z k => within_releaseTmpls c a (μ := footprint [.ringTail, .ringStatus, .hostStatus, .ctxStatus, .ctxEvent, .tmplBind,
          .tmplReleased, .tmplDrop] [.cnt, .hmem, .sch, .vat, .hst, .free]) (by decide +kernel) k)).reg .canvasStatus (by decide +kernel) c 0
      have e3 : ∀ x, rd (holdEnds x) .canvasStatus c = rd x .canvasStatus c := fun x =>
        (within_holdEnds (μ := footprint [.pwrMode] [.pwr]) (by decide +kernel) (Within.refl x)).reg .canvasStatus (by decide +kernel) c 0
      have e4 : get (put fld.canvasStatus.RESTING 0 (setCanvas c { canvasOf s c with quiet := 0 } s) c) fld.canvasStatus.SHADOW c =
          get s fld.canvasStatus.SHADOW c := by
        rw [get_put_fld _ _ _ _ _ _ (by rfl) (by decide) (by decide)]
        exact get_congr rfl _ _ _
      rw [← e4]
      congr 1
      exact get_of_rd (f := fld.canvasStatus.SHADOW) ((e2 _ _).trans ((e1 _).trans (e3 _)))
    · rfl
  · revert r; decide +kernel

theorem regAt_inside {off : Nat} {r : RegId} {i j : Nat} (h : regAt off = some ⟨r, i, j⟩) : i < r.desc.n ∧ j < r.desc.n2 := by
  have one : ∀ q : RegId, q.at? off = some ⟨r, i, j⟩ → i < r.desc.n ∧ j < r.desc.n2 := by
    intro q hq
    unfold RegId.at? at hq
    extract_lets d rel i0 rel2 j0 at hq
    clear_value i0 rel2 j0
    by_cases h1 : off < d.base
    · rw [if_pos h1] at hq; cases hq
    · rw [if_neg h1] at hq
      by_cases h2 : (decide (i0 < d.n) && decide (j0 < d.n2) && rel2 == j0 * d.step2) = true
      · rw [if_pos h2, Option.some.injEq, RegAt.mk.injEq] at hq
        obtain ⟨rfl, rfl, rfl⟩ := hq
        simp only [Bool.and_eq_true, decide_eq_true_eq] at h2
        exact h2.1
      · rw [if_neg h2] at hq; cases hq
  have all : ∀ rs : List RegId, findReg off rs = some ⟨r, i, j⟩ → i < r.desc.n ∧ j < r.desc.n2 := by
    intro rs
    induction rs with
    | nil => intro e; cases e
    | cons q qs ih =>
      intro e
      unfold findReg at e
      split at e
      · rename_i a ha
        rw [Option.some.injEq] at e
        subst e
        exact one q ha
      · exact ih e
  exact all _ h

theorem refresh_kept {s : State} {fn i j : Nat} {v : W32} (hv : v.toNat % 256 ≠ 0) :
    (mergeWrite s (isPf fn) .refresh i j v).toNat % 256 ≠ 0 := by
  have hb : ∀ b, b < 8 → (mergeWrite s (isPf fn) .refresh i j v).toNat.testBit b = v.toNat.testBit b := by
    intro b hb
    have := mergeWrite_bit s fn .refresh i j v b (by omega)
    have e : bitWritten s fn .refresh i j v b = v.getLsbD b := by
      unfold bitWritten
      rw [if_pos]
      have r1 : (RegId.refresh.desc.rw).testBit b = true := by
        rcases (by omega : b = 0 ∨ b = 1 ∨ b = 2 ∨ b = 3 ∨ b = 4 ∨ b = 5 ∨ b = 6 ∨ b = 7) with rfl | rfl | rfl | rfl | rfl | rfl | rfl | rfl <;> decide
      unfold bitTaken
      rw [r1]
      simp [RegId.desc, absentBits, unitOn]
    exact this.trans e
  have : (mergeWrite s (isPf fn) .refresh i j v).toNat % 2 ^ 8 = v.toNat % 2 ^ 8 := by
    apply Nat.eq_of_testBit_eq
    intro b
    rw [Nat.testBit_mod_two_pow, Nat.testBit_mod_two_pow]
    by_cases h : b < 8
    · rw [hb b h]
    · simp [h]
  intro e
  exact hv (this ▸ e)

theorem map_find_of_isSome {α : Type} {m : List (Nat × α)} {k : Nat} (h : (Map.find? m k).isSome = true) : ∃ v, Map.find? m k = some v :=
  Option.isSome_iff_exists.mp h

theorem shadow_effect {x : State} {fn : Nat} {r : RegId} {i j : Nat} {v : W32} (hr : r ∈ shadowedRegs)
    (hz : r ≠ .refresh ∨ v.toNat % 256 ≠ 0) : ∀ t, t = shadowWrite (isPf fn) r i j v x → Wrote x t fn r i j v ∧
        (on x fld.canvasCtrl.EN i = true → (∀ f, f.reg = r → eff t f i j = eff x f i j ∨
            Nat.land (Nat.xor (rd x r i j).toNat (rd t r i j).toNat) r.desc.shadow = 0) ∧
          (Nat.land (Nat.xor (rd x r i j).toNat (rd t r i j).toNat) r.desc.shadow ≠ 0 → on t fld.canvasStatus.SHADOW i = true)) := by
  intro t ht
  have hcs : r ≠ .canvasStatus := by rintro rfl; simp [shadowedRegs] at hr
  unfold shadowWrite at ht
  extract_lets old new0 new changed s1 s2 at ht
  have en : new = mergeWrite x (isPf fn) r i j v := by
    show (if r = .refresh && new0.toNat % 256 = 0 then mixBits 0xFF old new0 else new0) = new0
    rw [if_neg]
    rcases hz with hz | hz
    · simp [hz]
    · rintro hc
      simp only [Bool.and_eq_true, decide_eq_true_eq] at hc
      obtain ⟨hc1, hc2⟩ := hc
      subst hc1
      exact refresh_kept hz hc2
  have e1 : rd s1 r i j = new := rd_wr_same _ _ _ _ _
  have w1 : ∀ u, rd u r i j = new → Wrote x u fn r i j v := fun u hu b hb => by
    rw [hu, en]; exact mergeWrite_bit x fn r i j v b hb
  by_cases hch : (!changed || !on x fld.canvasCtrl.EN i) = true
  · rw [if_pos hch] at ht
    subst ht
    refine ⟨w1 _ e1, fun hen => ?_⟩
    rw [hen] at hch
    have : Nat.land (Nat.xor (rd x r i j).toNat (rd s1 r i j).toNat) r.desc.shadow = 0 := by
      rw [e1]
      have h0 : changed = false := by simpa using hch
      have h0' : (Nat.land (Nat.xor old.toNat new.toNat) r.desc.shadow != 0) = false := h0
      simpa using h0'
    exact ⟨fun f _ => .inr this, fun k => absurd this k⟩
  · rw [if_neg hch] at ht
    obtain ⟨a1, a2, a3⟩ := endRest_shadow i (put fld.canvasStatus.SHADOW 1 s2 i)
    have i2 : rd s2 r i j = new := by
      show rd (if (Map.find? s1.inForce (r.key i j)).isSome then s1 else { s1 with inForce := Map.put s1.inForce (r.key i j) old }) r i j = new
      split
      · exact e1
      · exact e1
    have e2 : rd t r i j = new := by
      rw [ht, a3 r hr]
      exact (rd_wr_reg hcs _ _ _ _ _ _).trans i2
    refine ⟨w1 _ e2, fun hen => ⟨fun f hf => .inl ?_, fun _ => ?_⟩⟩
    · obtain ⟨reg, lo, w⟩ := f
      dsimp only at hf
      subst hf
      have ti : t.inForce = s2.inForce := by rw [ht, a2]; rfl
      have s1i : s1.inForce = x.inForce := rfl
      have old' : old = rd x reg i j := rfl
      clear_value old new0 new changed
      unfold eff get
      rw [ti]
      show (match Map.find? (if (Map.find? s1.inForce (reg.key i j)).isSome then s1 else { s1 with inForce := Map.put s1.inForce (reg.key i j) old }).inForce (reg.key i j) with
        | some v => bitsOf v.toNat lo w | none => _) = _
      by_cases hs : (Map.find? s1.inForce (reg.key i j)).isSome = true
      · rw [if_pos hs, s1i]
        rw [s1i] at hs
        obtain ⟨u, hu⟩ := map_find_of_isSome hs
        simp only [hu]
      · rw [if_neg hs]
        simp only [map_find_put_same]
        rw [s1i] at hs
        have : Map.find? x.inForce (reg.key i j) = none := by
          cases hq : Map.find? x.inForce (reg.key i j) with
          | none => rfl
          | some u => rw [hq] at hs; simp at hs
        rw [this, old']
    · rw [ht, a1, on_put_same _ _ _ _ _ (by decide) (by decide)]; rfl

theorem shadowed_journaled {r : RegId} (hr : r ∈ shadowedRegs) {i j : Nat} (hi : i < r.desc.n) (hj : j < r.desc.n2) : journaled (r.off i j) = true := by
  have all : ∀ r ∈ shadowedRegs, 0x40000 ≤ r.desc.base ∧ r.desc.base ≤ 0xA2018 ∧ r.desc.step ≤ 0x80 ∧ r.desc.step2 ≤ 0x20 ∧ r.desc.n ≤ 64 ∧ r.desc.n2 ≤ 4 := by
    decide +kernel
  obtain ⟨h1, h2, h3, h4, h5, h6⟩ := all r hr
  have m1 : r.desc.step * i ≤ 0x80 * 64 := Nat.mul_le_mul h3 (by omega)
  have m2 : r.desc.step2 * j ≤ 0x20 * 4 := Nat.mul_le_mul h4 (by omega)
  unfold journaled RegId.off
  rw [Bool.or_eq_true, Bool.and_eq_true, decide_eq_true_eq, decide_eq_true_eq]
  omega

theorem shadow_writes {s : State} {fn off : Nat} {r : RegId} {i j : Nat} {v : W32} (ha : regAt off = some ⟨r, i, j⟩) (hr : r ∈ shadowedRegs)
    (hz : r ≠ .refresh ∨ v.toNat % 256 ≠ 0) (h : Writable s fn r i j) :
      ∃ t, exec (.shadowedWrite fn off v) s = .next t ∧ Wrote s t fn r i j v ∧
        (on s fld.canvasCtrl.EN i = true → (∀ f, f.reg = r → eff t f i j = eff s f i j ∨
            Nat.land (Nat.xor (rd s r i j).toNat (rd t r i j).toNat) r.desc.shadow = 0) ∧
          (Nat.land (Nat.xor (rd s r i j).toNat (rd t r i j).toNat) r.desc.shadow ≠ 0 → on t fld.canvasStatus.SHADOW i = true)) := by
  obtain ⟨x, hx, e⟩ := hostWrite_of h v (busEffect fn r i j v)
  have hn : r ≠ .jseqTx := by rintro rfl; simp [shadowedRegs] at hr
  have ins := regAt_inside ha
  have hj : journaled (r.off i j) = true := shadowed_journaled hr ins.1 ins.2
  have be : busEffect fn r i j v x = shadowWrite (isPf fn) r i j v x := by
    unfold busEffect renderEffect
    rw [hj, if_pos rfl]
    simp only [shadowedRegs, List.mem_cons, List.not_mem_nil, or_false] at hr
    rcases hr with rfl | rfl | rfl | rfl | rfl | rfl | rfl | rfl | rfl | rfl | rfl | rfl | rfl <;> rfl
  obtain ⟨f1, f2⟩ := shadow_effect (x := x) (fn := fn) (i := i) (j := j) hr hz _ rfl
  refine ⟨shadowWrite (isPf fn) r i j v x, ?_, wrote_noted hx hn f1, ?_⟩
  · show execShadowedWrite fn off v s = _
    unfold execShadowedWrite busWrite
    rw [ha]
    dsimp only
    rw [e, be]
  · rw [hx.on _ _ _ (by decide)] at f2
    rw [← hx.reg r i j hn]
    intro hen
    obtain ⟨g1, g2⟩ := f2 hen
    refine ⟨fun f hf => ?_, g2⟩
    have ee : eff x f i j = eff s f i j := by
      have : x.inForce = s.inForce := by rw [hx.frame]
      unfold eff
      rw [this, hx.get f i j (by rw [hf]; exact hn)]
    rw [← ee]
    exact g1 f hf

/-! ## Reads -/

/-- What hardware sets in the cycle of a read stays set after the clearing (R12). -/
theorem keepRc_bit {off : Nat} {r : RegId} {i j : Nat} (ha : regAt (off / 4 * 4) = some ⟨r, i, j⟩) (setting : W32) (t : State) (b : Nat) :
    (rd (keepRc off setting t) r i j).getLsbD b =
      ((rd t r i j).getLsbD b || (setting.getLsbD b && (decide (b < 32) && r.desc.rc.testBit b))) ∧ (keepRc off setting t).rdata = t.rdata := by
  unfold keepRc
  rw [ha]
  dsimp only
  have e : ∀ w : W32, w = setting &&& BitVec.ofNat 32 r.desc.rc →
      w.getLsbD b = (setting.getLsbD b && (decide (b < 32) && r.desc.rc.testBit b)) := by
    intro w hw; rw [hw, BitVec.getLsbD_and, BitVec.getLsbD_ofNat]
  rw [← e _ rfl]
  split
  · rename_i h; rw [h]; simp
  · rw [rd_wr_same, BitVec.getLsbD_or]; exact ⟨rfl, rfl⟩

/-- A read of a word without read effects. -/
theorem wordRead_plain {s : State} {fn off : Nat} {r : RegId} {i j : Nat} (ha : regAt off = some ⟨r, i, j⟩) (hr : readActs r = false)
    (h : Reaches s fn r i j) :
    wordRead fn off s = { wr r (rd s r i j &&& ~~~ (word r.desc.rc)) s i j with rdata := leBytes 4 (peek fn s r i j).toNat } := by
  have eb : busRead fn r i j s = (wr r (rd s r i j &&& ~~~ (word r.desc.rc)) s i j, peek fn s r i j) := by
    unfold busRead
    cases r <;> first | exact absurd hr (by decide) | rfl
  unfold wordRead
  rw [ha]
  dsimp only
  rw [hostRead_of h, eb]

theorem read_returns {s : State} {fn off n : Nat} {r : RegId} {i j : Nat} (hn : n = 1 ∨ n = 2 ∨ n = 4) (hal : off % n = 0)
    (ha : regAt (off / 4 * 4) = some ⟨r, i, j⟩) (hr : readActs r = false) (h : Reaches s fn r i j) (setting : W32) :
      ∃ t, exec (.rcRead fn .bar0 off n setting none) s = .next t ∧ t.rdata = ((leBytes 4 (peek fn s r i j).toNat).drop (off % 4)).take n ∧
        (r.desc.rc ≠ 0 → peek fn s r i j = rd s r i j) ∧
        ∀ b, b < 32 → (rd t r i j).getLsbD b =
          (((rd s r i j).getLsbD b && !r.desc.rc.testBit b) || (setting.getLsbD b && r.desc.rc.testBit b)) := by
  have key : ∃ u, sizedRead fn off n s = u ∧ u.rdata = ((leBytes 4 (peek fn s r i j).toNat).drop (off % 4)).take n ∧
      rd u r i j = rd s r i j &&& ~~~ (word r.desc.rc) := by
    refine ⟨_, rfl, ?_, ?_⟩ <;> unfold sizedRead
    · split
      · rename_i h4
        subst h4
        have e : off / 4 * 4 = off := by omega
        rw [e] at ha
        rw [wordRead_plain ha hr h, hal]
        exact (List.take_of_length_le (by simp [leBytes])).symm
      · rw [if_pos ⟨by omega, hal⟩]
        dsimp only
        rw [h.known, h.up, if_neg (by simp), wordRead_plain ha hr h]
    · split
      · rename_i h4
        subst h4
        have e : off / 4 * 4 = off := by omega
        rw [e] at ha
        rw [wordRead_plain ha hr h]
        exact (rd_congr rfl _ _ _).trans (rd_wr_same _ _ _ _ _)
      · rw [if_pos ⟨by omega, hal⟩]
        dsimp only
        rw [h.known, h.up, if_neg (by simp), wordRead_plain ha hr h]
        exact (rd_congr rfl _ _ _).trans (rd_wr_same _ _ _ _ _)
  obtain ⟨u, hu, k1, k2⟩ := key
  refine ⟨keepRc off setting u, ?_, ?_, ?_, ?_⟩
  · show execRcRead fn .bar0 off n setting none s = _
    unfold execRcRead
    dsimp only
    rw [hu]
  · rw [(keepRc_bit ha setting u 0).2, k1]
  · intro hc
    have two : r = .inputLogMax ∨ r = .peakTx := by
      revert hc hr
      cases r <;> decide
    have one : ∀ w : W32, w &&& ~~~(word 0) = w := fun w => by
      show w &&& BitVec.allOnes 32 = w
      exact BitVec.and_allOnes
    rcases two with rfl | rfl <;> exact one _
  · intro b hb
    rw [(keepRc_bit ha setting u b).1, k2, BitVec.getLsbD_and, BitVec.getLsbD_not]
    unfold word
    rw [BitVec.getLsbD_ofNat]
    simp [hb]

end Sys2Proof.Machine
end

