-- ==== Sys2Proof/Laws/Parts.lean ====
section
/-!
SUPPORT. What a raised event leaves alone, and single fields under writes of other registers.
-/

namespace Sys2Proof.Machine


/-! ## What an event raised leaves -/

theorem raise_tim (ev d : Nat) (s : State) : (raise ev d s).tim = s.tim := by rw [(eventOnly_raise ev d s).frame]
theorem raise_ot (ev d : Nat) (s : State) : (raise ev d s).ot = s.ot := by rw [(eventOnly_raise ev d s).frame]
theorem raise_otFrac (ev d : Nat) (s : State) : (raise ev d s).otFrac = s.otFrac := by rw [(eventOnly_raise ev d s).frame]
theorem raise_prt (ev d : Nat) (s : State) : (raise ev d s).prt = s.prt := by rw [(eventOnly_raise ev d s).frame]
theorem raise_pwr (ev d : Nat) (s : State) : (raise ev d s).pwr = s.pwr := by rw [(eventOnly_raise ev d s).frame]
theorem raise_twn (ev d : Nat) (s : State) : (raise ev d s).twn = s.twn := by rw [(eventOnly_raise ev d s).frame]
theorem raise_bst (ev d : Nat) (s : State) : (raise ev d s).bst = s.bst := by rw [(eventOnly_raise ev d s).frame]
theorem raise_epg (ev d : Nat) (s : State) : (raise ev d s).epg = s.epg := by rw [(eventOnly_raise ev d s).frame]
theorem raise_glz (ev d : Nat) (s : State) : (raise ev d s).glz = s.glz := by rw [(eventOnly_raise ev d s).frame]
theorem raise_otp (ev d : Nat) (s : State) : (raise ev d s).otp = s.otp := by rw [(eventOnly_raise ev d s).frame]
theorem raise_vat (ev d : Nat) (s : State) : (raise ev d s).vat = s.vat := by rw [(eventOnly_raise ev d s).frame]
theorem raise_sch (ev d : Nat) (s : State) : (raise ev d s).sch = s.sch := by rw [(eventOnly_raise ev d s).frame]
theorem raise_fmem (ev d : Nat) (s : State) : (raise ev d s).fmem = s.fmem := by rw [(eventOnly_raise ev d s).frame]
theorem raise_rdata (ev d : Nat) (s : State) : (raise ev d s).rdata = s.rdata := by rw [(eventOnly_raise ev d s).frame]

theorem raise0_tim (ev : Nat) (s : State) : (raise0 ev s).tim = s.tim := raise_tim _ _ s
theorem raise0_ot (ev : Nat) (s : State) : (raise0 ev s).ot = s.ot := raise_ot _ _ s
theorem raise0_otFrac (ev : Nat) (s : State) : (raise0 ev s).otFrac = s.otFrac := raise_otFrac _ _ s
theorem raise0_prt (ev : Nat) (s : State) : (raise0 ev s).prt = s.prt := raise_prt _ _ s
theorem raise0_pwr (ev : Nat) (s : State) : (raise0 ev s).pwr = s.pwr := raise_pwr _ _ s
theorem raise0_twn (ev : Nat) (s : State) : (raise0 ev s).twn = s.twn := raise_twn _ _ s
theorem raise0_bst (ev : Nat) (s : State) : (raise0 ev s).bst = s.bst := raise_bst _ _ s
theorem raise0_epg (ev : Nat) (s : State) : (raise0 ev s).epg = s.epg := raise_epg _ _ s
theorem raise0_glz (ev : Nat) (s : State) : (raise0 ev s).glz = s.glz := raise_glz _ _ s
theorem raise0_otp (ev : Nat) (s : State) : (raise0 ev s).otp = s.otp := raise_otp _ _ s
theorem raise0_rdata (ev : Nat) (s : State) : (raise0 ev s).rdata = s.rdata := raise_rdata _ _ s

/-! ## Fields under writes -/

theorem on_put_reg (f g : Fld) (v : Nat) (s : State) (i j k l : Nat) (h : g.reg ≠ f.reg) : on (put f v s i j) g k l = on s g k l := by
  unfold on; rw [get_put_reg _ _ _ _ _ _ _ _ h]

theorem hasBit_put_reg (f g : Fld) (v : Nat) (s : State) (b i j k l : Nat) (h : g.reg ≠ f.reg) : hasBit (put f v s i j) g b k l = hasBit s g b k l := by
  unfold hasBit; rw [get_put_reg _ _ _ _ _ _ _ _ h]

theorem rd_put_reg (f : Fld) (r : RegId) (v : Nat) (s : State) (i j k l : Nat) (h : r ≠ f.reg) : rd (put f v s i j) r k l = rd s r k l :=
  rd_wr_reg h _ _ _ _ _ _

theorem rd_setBit_reg (f : Fld) (r : RegId) (b : Nat) (s : State) (i j k l : Nat) (h : r ≠ f.reg) : rd (setBit f b s i j) r k l = rd s r k l :=
  rd_wr_reg h _ _ _ _ _ _

theorem get_setBit_reg (f g : Fld) (b : Nat) (s : State) (i j k l : Nat) (h : g.reg ≠ f.reg) : get (setBit f b s i j) g k l = get s g k l :=
  get_put_reg _ _ _ _ _ _ _ _ h

theorem on_setBit_reg (f g : Fld) (b : Nat) (s : State) (i j k l : Nat) (h : g.reg ≠ f.reg) : on (setBit f b s i j) g k l = on s g k l :=
  on_put_reg _ _ _ _ _ _ _ _ h

theorem on_wr_reg (r : RegId) (g : Fld) (v : W32) (s : State) (i j k l : Nat) (h : g.reg ≠ r) : on (wr r v s i j) g k l = on s g k l := by
  unfold on; rw [get_wr_reg _ _ _ _ _ _ _ _ h]

/-- A register after a write is the same with the write's journal record before it. -/
theorem mergeWrite_noted {s x : State} (h : Noted s x) (fn : Nat) (r : RegId) (hr : r ≠ .jseqTx) (i j : Nat) (v : W32) :
    mergeWrite x (isPf fn) r i j v = mergeWrite s (isPf fn) r i j v := by
  apply BitVec.eq_of_getLsbD_eq
  intro b hb
  rw [mergeWrite_bit x fn r i j v b hb, mergeWrite_bit s fn r i j v b hb, bitWritten_noted h fn r hr]

theorem plainWrite_rd (pf : Bool) (r : RegId) (i j : Nat) (v : W32) (s : State) : rd (plainWrite pf r i j v s) r i j = mergeWrite s pf r i j v :=
  rd_wr_same _ _ _ _ _

theorem plainWrite_noted {s x : State} (h : Noted s x) (fn : Nat) (r : RegId) (hr : r ≠ .jseqTx) (i j : Nat) (v : W32) :
    rd (plainWrite (isPf fn) r i j v x) r i j = rd (plainWrite (isPf fn) r i j v s) r i j := by
  rw [plainWrite_rd, plainWrite_rd, mergeWrite_noted h fn r hr]

end Sys2Proof.Machine
end

