-- ==== Sys2Proof/Laws/VenueTime.lean ====
section
/-!
SUPPORT. Venue time: outward time, the domains, the servo, and switches.
-/

namespace Sys2Proof.Machine


/-! ## Outward time -/

theorem timeEvent_tim (b ev : Nat) (s : State) : (timeEvent b ev s).tim = s.tim := raise0_tim _ _
theorem timeEvent_ot (b ev : Nat) (s : State) : (timeEvent b ev s).ot = s.ot := raise0_ot _ _
theorem rd_timeEvent (b ev : Nat) (s : State) (r : RegId) (i j : Nat) (h1 : r ≠ .ringTail) (h2 : r ≠ .ringStatus) (h5 : r ≠ .hostStatus) (h3 : r ≠ .timeEvent) :
    rd (timeEvent b ev s) r i j = rd s r i j := (rd_raise0 _ _ _ _ _ h1 h2 h5).trans (rd_setBit_reg _ _ _ _ _ _ _ _ h3)
theorem get_timeEvent (b ev : Nat) (s : State) (f : Fld) (i j : Nat) (h1 : f.reg ≠ .ringTail) (h2 : f.reg ≠ .ringStatus) (h5 : f.reg ≠ .hostStatus) (h3 : f.reg ≠ .timeEvent) :
    get (timeEvent b ev s) f i j = get s f i j := get_of_rd (rd_timeEvent b ev s _ i j h1 h2 h5 h3)
theorem on_timeEvent (b ev : Nat) (s : State) (f : Fld) (i j : Nat) (h1 : f.reg ≠ .ringTail) (h2 : f.reg ≠ .ringStatus) (h5 : f.reg ≠ .hostStatus) (h3 : f.reg ≠ .timeEvent) :
    on (timeEvent b ev s) f i j = on s f i j := by unfold on; rw [get_timeEvent b ev s f i j h1 h2 h5 h3]
theorem counter_timeEvent (b ev : Nat) (s : State) (k : Nat) (h : k ≠ Cnt.evtDrop.ctorIdx) (h2 : k ≠ Cnt.poison.ctorIdx) : counter (timeEvent b ev s) k = counter s k :=
  counter_raise0 _ _ _ h h2
theorem timeEvent_bit (b ev : Nat) (s : State) (hb : b < 9) : hasBit (timeEvent b ev s) fld.timeEvent.TIME_EVENT b = true := by
  unfold timeEvent
  rw [hasBit_raise0 _ _ _ _ _ _ (by decide) (by decide) (by decide), hasBit_setBit _ _ _ _ _ (by decide) hb]

theorem set_goes {s : State} {fn : Nat} (h : Writable s fn .setGo 0 0) : ∃ t, exec (.setGo fn) s = .next t ∧
      (clocksStopped s = true → t.ot = BitVec.ofNat 64 ((rd s .setLo).toNat + 2 ^ 32 * (rd s .setHi).toNat) ∧ t.otFrac = 0 ∧
        on t fld.timeStatus.STEPPED = true) ∧
      (clocksStopped s = false → t.ot = s.ot ∧ hasBit t fld.timeEvent.TIME_EVENT 6 = true) := by
  obtain ⟨x, hx, he⟩ := hostWrite_of h 1 setGoWrite
  refine ⟨setGoWrite x, congrArg _ he, fun hc => ?_, fun hc => ?_⟩
  · have xc : clocksStopped x = true := by rw [← hc]; unfold clocksStopped; rw [hx.frame]
    unfold setGoWrite
    rw [if_pos xc]
    unfold stepTime
    rw [raise0_ot, raise0_otFrac, on_raise0 _ _ _ _ _ (by decide) (by decide) (by decide), on_put_same _ _ _ _ _ (by decide) (by decide),
      hx.reg _ _ _ (by decide), hx.reg _ _ _ (by decide)]
    exact ⟨rfl, rfl, rfl⟩
  · have xc : clocksStopped x = false := by rw [← hc]; unfold clocksStopped; rw [hx.frame]
    unfold setGoWrite
    rw [xc, if_neg (by decide)]
    exact ⟨(timeEvent_ot _ _ _).trans (by rw [hx.frame]), timeEvent_bit _ _ _ (by decide)⟩

theorem ot_read {s : State} {fn : Nat} (h : Reaches s fn .otLo 0 0) : ∃ t, exec (.otLoRead fn) s = .next t ∧
      t.rdata = leBytes 4 (s.ot.toNat % 2 ^ 32) ∧ rd t .otHi = BitVec.ofNat 32 (s.ot.toNat / 2 ^ 32) ∧
      rd t .otFrac = BitVec.ofNat 32 (s.otFrac.toNat / 2 ^ 32) := by
  refine ⟨_, congrArg Host.Outcome.next (hostRead_of h otLoRead), ?_, ?_, ?_⟩
  · show leBytes 4 (BitVec.ofNat 32 s.ot.toNat).toNat = _
    rw [BitVec.toNat_ofNat]
  · show rd (wr .otFrac (frac16 s) (wr .otHi _ s)) .otHi = _
    rw [rd_wr_reg (by decide), rd_wr_same]
  · show rd (wr .otFrac (frac16 s) (wr .otHi _ s)) .otFrac = _
    rw [rd_wr_same]; rfl

/-! ## Domains -/

theorem domOf_setDom (d : Nat) (x : Dom) (s : State) : domOf (setDom d x s) d = x := by
  unfold domOf setDom
  split <;> rfl

theorem domOf_setDom_ne {d e : Nat} (hd : d < 2) (he : e < 2) (h : e ≠ d) (x : Dom) (s : State) : domOf (setDom d x s) e = domOf s e := by
  unfold domOf setDom
  split <;> split <;> first | rfl | omega

theorem setDom_regs (d : Nat) (x : Dom) (s : State) : (setDom d x s).regs = s.regs := by unfold setDom; split <;> rfl
theorem setDom_free (d : Nat) (x : Dom) (s : State) : (setDom d x s).free = s.free := by unfold setDom; split <;> rfl
theorem setDom_servo (d : Nat) (x : Dom) (s : State) : (setDom d x s).tim.acc = s.tim.acc ∧ (setDom d x s).tim.adj = s.tim.adj := by
  unfold setDom; split <;> exact ⟨rfl, rfl⟩

theorem domOf_tim {s t : State} (h : t.tim = s.tim) (d : Nat) : domOf t d = domOf s d := by unfold domOf; rw [h]

theorem domOf_parts {s t : State} (h0 : t.tim.dom0 = s.tim.dom0) (h1 : t.tim.dom1 = s.tim.dom1) (d : Nat) : domOf t d = domOf s d := by
  unfold domOf; rw [h0, h1]

theorem startSwitch_dom (d e : Nat) (s : State) : domOf (startSwitch d s) e = domOf s e := by
  unfold startSwitch
  rw [domOf_tim (timeEvent_tim _ _ _)]
  rfl

theorem rd_startSwitch (d : Nat) (s : State) (r : RegId) (i j : Nat) (h1 : r ≠ .ringTail) (h2 : r ≠ .ringStatus) (h5 : r ≠ .hostStatus) (h3 : r ≠ .timeEvent) (h4 : r ≠ .timeStatus) :
    rd (startSwitch d s) r i j = rd s r i j := by
  unfold startSwitch
  dsimp only
  rw [rd_timeEvent _ _ _ _ _ _ h1 h2 h5 h3, rd_put_reg _ _ _ _ _ _ _ _ h4, rd_put_reg _ _ _ _ _ _ _ _ h4, rd_put_reg _ _ _ _ _ _ _ _ h4]
  rfl

theorem startSwitch_is (d : Nat) (s : State) (hd : d < 2) : actDom (startSwitch d s) = d ∧ on (startSwitch d s) fld.timeStatus.SWITCHING = true := by
  unfold startSwitch actDom
  dsimp only
  rw [get_timeEvent _ _ _ _ _ _ (by decide) (by decide) (by decide) (by decide), on_timeEvent _ _ _ _ _ _ (by decide) (by decide) (by decide) (by decide),
    get_put_fld _ _ _ _ _ _ (by rfl) (by decide) (by decide), get_put_same _ _ _ _ _ (by decide),
    on_put_fld _ _ _ _ _ _ (by rfl) (by decide) (by decide), on_put_fld _ _ _ _ _ _ (by rfl) (by decide) (by decide), on_put_same _ _ _ _ _ (by decide) (by decide)]
  exact ⟨Nat.mod_eq_of_lt hd, rfl⟩

theorem startSwitch_pending (d : Nat) (s : State) : on (startSwitch d s) fld.timeStatus.PENDING = on s fld.timeStatus.PENDING := by
  unfold startSwitch
  dsimp only
  rw [on_timeEvent _ _ _ _ _ _ (by decide) (by decide) (by decide) (by decide), on_put_fld _ _ _ _ _ _ (by rfl) (by decide) (by decide),
    on_put_fld _ _ _ _ _ _ (by rfl) (by decide) (by decide), on_put_fld _ _ _ _ _ _ (by rfl) (by decide) (by decide)]
  rfl

theorem beginHoldover_dom (e : Nat) (s : State) : domOf (beginHoldover s) e = domOf s e := by
  unfold beginHoldover
  rw [domOf_tim (timeEvent_tim _ _ _)]
  rfl

theorem rd_beginHoldover (s : State) (r : RegId) (i j : Nat) (h1 : r ≠ .ringTail) (h2 : r ≠ .ringStatus) (h5 : r ≠ .hostStatus) (h3 : r ≠ .timeEvent) (h4 : r ≠ .timeStatus) :
    rd (beginHoldover s) r i j = rd s r i j := by
  unfold beginHoldover
  dsimp only
  rw [rd_timeEvent _ _ _ _ _ _ h1 h2 h5 h3, rd_put_reg _ _ _ _ _ _ _ _ h4, rd_put_reg _ _ _ _ _ _ _ _ h4]; rfl

theorem loseFollowed_dom (e : Nat) (s : State) : domOf (loseFollowed s) e = domOf s e := by
  unfold loseFollowed
  dsimp only
  split
  · exact startSwitch_dom _ _ _
  · exact beginHoldover_dom _ _

theorem rd_loseFollowed (s : State) (r : RegId) (i j : Nat) (h1 : r ≠ .ringTail) (h2 : r ≠ .ringStatus) (h5 : r ≠ .hostStatus) (h3 : r ≠ .timeEvent) (h4 : r ≠ .timeStatus) :
    rd (loseFollowed s) r i j = rd s r i j := by
  unfold loseFollowed
  dsimp only
  split
  · exact rd_startSwitch _ _ _ _ _ h1 h2 h5 h3 h4
  · exact rd_beginHoldover _ _ _ _ h1 h2 h5 h3 h4

theorem enterLost_dom (d : Nat) (s : State) : domOf (enterLost d s) d = { domOf s d with st := 3, alarms := 0 } := by
  unfold enterLost
  dsimp only
  split
  · rw [loseFollowed_dom, domOf_tim (timeEvent_tim _ _ _)]; exact domOf_setDom _ _ _
  · rw [domOf_tim (timeEvent_tim _ _ _)]; exact domOf_setDom _ _ _

theorem rd_enterLost (d : Nat) (s : State) (r : RegId) (i j : Nat) (h1 : r ≠ .ringTail) (h2 : r ≠ .ringStatus) (h5 : r ≠ .hostStatus) (h3 : r ≠ .timeEvent) (h4 : r ≠ .timeStatus) :
    rd (enterLost d s) r i j = rd s r i j := by
  unfold enterLost
  dsimp only
  split
  · rw [rd_loseFollowed _ _ _ _ h1 h2 h5 h3 h4, rd_timeEvent _ _ _ _ _ _ h1 h2 h5 h3]; exact rd_congr (setDom_regs _ _ _) _ _ _
  · rw [rd_timeEvent _ _ _ _ _ _ h1 h2 h5 h3]; exact rd_congr (setDom_regs _ _ _) _ _ _


theorem stepTime_dom (t : W64) (f : BitVec 48) (s : State) (e : Nat) : domOf (stepTime t f s) e = domOf s e := domOf_tim (raise0_tim _ _) e

theorem selActs_dom (s : State) (e : Nat) : domOf (selActs s) e = domOf s e := by
  unfold selActs
  dsimp only
  split
  · rfl
  · split
    · rfl
    · exact startSwitch_dom _ _ _

theorem enterTrack_eq (d : Nat) (s : State) : enterTrack d s =
    if followsTwin s then s
    else if on (firstStep d s) fld.timeStatus.HOLDOVER && (d == actDom (firstStep d s) || on (firstStep d s) fld.timeCtrl.AUTO) then
      startSwitch d (firstStep d s)
    else if anyCanvas (firstStep d s) then firstStep d s else selActs (firstStep d s) := rfl

theorem firstStep_dom (d e : Nat) (s : State) : domOf (firstStep d s) e = domOf s e := by
  unfold firstStep
  split
  · dsimp only
    split
    · exact stepTime_dom _ _ _ _
    · rfl
  · rfl

theorem rd_firstStep (d : Nat) (s : State) (r : RegId) (i j : Nat) (h1 : r ≠ .ringTail) (h2 : r ≠ .ringStatus) (h5 : r ≠ .hostStatus) (h4 : r ≠ .timeStatus) :
    rd (firstStep d s) r i j = rd s r i j := by
  unfold firstStep
  split
  · dsimp only
    split
    · unfold stepTime; rw [rd_raise0 _ _ _ _ _ h1 h2 h5, rd_put_reg _ _ _ _ _ _ _ _ h4]; rfl
    · rfl
  · rfl

theorem enterTrack_dom (d e : Nat) (s : State) : domOf (enterTrack d s) e = domOf s e := by
  rw [enterTrack_eq]
  split
  · rfl
  · split
    · rw [startSwitch_dom, firstStep_dom]
    · split
      · exact firstStep_dom _ _ _
      · rw [selActs_dom, firstStep_dom]

theorem settleStep_dom (theta : Int) (s : State) (e : Nat) : domOf (settleStep theta s) e = domOf s e := by
  unfold settleStep
  split
  · rfl
  · dsimp only
    generalize (if theta.natAbs ≤ get s fld.settle.SETTLE_NS * 65536 then s.tim.settle + 1 else 0) = n
    split
    · rw [domOf_tim (timeEvent_tim _ _ _)]; rfl
    · rfl

/-- Registers that time events and switches write. -/
def timeRegs : List RegId := [.ringTail, .ringStatus, .hostStatus, .timeEvent, .timeStatus]

theorem rd_selActs (s : State) (r : RegId) (i j : Nat) (h : r ∉ timeRegs) : rd (selActs s) r i j = rd s r i j := by
  simp only [timeRegs, List.mem_cons, List.not_mem_nil, or_false, not_or] at h
  unfold selActs
  dsimp only
  split
  · rfl
  · split
    · exact rd_put_reg _ _ _ _ _ _ _ _ h.2.2.2.2
    · rw [rd_startSwitch _ _ _ _ _ h.1 h.2.1 h.2.2.1 h.2.2.2.1 h.2.2.2.2]; exact rd_put_reg _ _ _ _ _ _ _ _ h.2.2.2.2

theorem rd_enterTrack (d : Nat) (s : State) (r : RegId) (i j : Nat) (h : r ∉ timeRegs) : rd (enterTrack d s) r i j = rd s r i j := by
  have h' := h
  simp only [timeRegs, List.mem_cons, List.not_mem_nil, or_false, not_or] at h
  have h2 := rd_firstStep d s r i j h.1 h.2.1 h.2.2.1 h.2.2.2.2
  rw [enterTrack_eq]
  split
  · rfl
  · split
    · exact (rd_startSwitch _ _ _ _ _ h.1 h.2.1 h.2.2.1 h.2.2.2.1 h.2.2.2.2).trans h2
    · split
      · exact h2
      · rw [rd_selActs _ _ _ _ h', h2]

theorem rd_settleStep (theta : Int) (s : State) (r : RegId) (i j : Nat) (h : r ∉ timeRegs) : rd (settleStep theta s) r i j = rd s r i j := by
  simp only [timeRegs, List.mem_cons, List.not_mem_nil, or_false, not_or] at h
  unfold settleStep
  split
  · rfl
  · dsimp only
    generalize (if theta.natAbs ≤ get s fld.settle.SETTLE_NS * 65536 then s.tim.settle + 1 else 0) = n
    split
    · rw [rd_timeEvent _ _ _ _ _ _ h.1 h.2.1 h.2.2.1 h.2.2.2.1, rd_put_reg _ _ _ _ _ _ _ _ h.2.2.2.2]; rfl
    · rfl

theorem settleStep_servo (theta : Int) (s : State) : (settleStep theta s).tim.acc = s.tim.acc ∧ (settleStep theta s).tim.adj = s.tim.adj := by
  unfold settleStep
  split
  · exact ⟨rfl, rfl⟩
  · dsimp only
    generalize (if theta.natAbs ≤ get s fld.settle.SETTLE_NS * 65536 then s.tim.settle + 1 else 0) = n
    split
    · rw [timeEvent_tim]; exact ⟨rfl, rfl⟩
    · exact ⟨rfl, rfl⟩


theorem alarmStep_congr {s t : State} (d : Nat) (theta : Int) (h : ∀ r i j, r ≠ .domSamples → r ≠ .jseqTx → rd t r i j = rd s r i j) (hd : domOf t d = domOf s d) :
    alarmStep t d theta = alarmStep s d theta := by
  have g : ∀ f : Fld, f.reg ≠ .domSamples → f.reg ≠ .jseqTx → get t f 0 0 = get s f 0 0 := fun f h1 h2 => get_of_rd (h _ _ _ h1 h2)
  unfold alarmStep actDom tracks on
  rw [g fld.timeStatus.ACT (by decide) (by decide), g fld.timeStatus.SWITCHING (by decide) (by decide), g fld.alarm.ALARM_NS (by decide) (by decide), g fld.alarm.ALARM_N (by decide) (by decide), hd]

theorem servoStep_congr {s t : State} (theta : Int) (h : ∀ r i j, r ≠ .domSamples → r ≠ .jseqTx → rd t r i j = rd s r i j)
    (ha : t.tim.acc = s.tim.acc) (hb : t.tim.adj = s.tim.adj) : servoStep t theta = servoStep s theta := by
  have g : ∀ f : Fld, f.reg ≠ .domSamples → f.reg ≠ .jseqTx → get t f 0 0 = get s f 0 0 := fun f h1 h2 => get_of_rd (h _ _ _ h1 h2)
  unfold servoStep on
  rw [g fld.kp.KP (by decide) (by decide), g fld.adjMax.ADJ_MAX (by decide) (by decide), g fld.fstep.FSTEP (by decide) (by decide), g fld.slew.SLEW (by decide) (by decide),
    g fld.ki.KI (by decide) (by decide), g fld.timeStatus.SWITCHING (by decide) (by decide), ha, hb]

theorem sample_taken (d : Nat) (delay : Int) (m : Meas) (s : State) (x : Dom) (hx : x = domOf s d) (davg theta : Int)
    (h1 : davg = (if x.total = 0 then delay else x.davg + (delay - x.davg).tdiv (2 ^ get s fld.annTo.DELAY_SHIFT : Nat)))
    (h2 : theta = timeDiff m.a m.b * 65536 + davg + asymOf s d * 65536) :
    ∃ t, acceptSample d delay m s = t ∧ rd t .domSamples d = rd s .domSamples d + 1 ∧
            domOf t d = { x with
              theta := theta, davg := davg, rate := domRate s x theta m.b, prevTheta := theta, prevB := m.b
              total := x.total + 1, run := x.run + 1
              alarms := if (alarmStep s d theta).1 then 0 else (alarmStep s d theta).2
              st := if (alarmStep s d theta).1 then 3 else if x.st = 1 ∧ 8 ≤ x.run + 1 then 2 else x.st } ∧
            (x.st = 2 → actDom s = d → on s fld.timeStatus.HOLDOVER = false → followsTwin s = false →
              (alarmStep s d theta).1 = false → t.tim.acc = (servoStep s theta).1 ∧ t.tim.adj = (servoStep s theta).2) := by
  generalize hs0 : wr .domSamples (rd s .domSamples d + 1) (if x.total != 0 && m.b = x.prevB then draw s else s) d = s0
  have r0 : ∀ r i j, r ≠ .domSamples → r ≠ .jseqTx → rd s0 r i j = rd s r i j := by
    intro r i j h _
    rw [← hs0, rd_wr_reg h]
    split <;> rfl
  have t0 : s0.tim = s.tim := by
    rw [← hs0]
    show (if _ then draw s else s).tim = _
    split <;> rfl
  have w0 : s0.twn = s.twn := by
    rw [← hs0]
    show (if _ then draw s else s).twn = _
    split <;> rfl
  have d0 : rd s0 .domSamples d = rd s .domSamples d + 1 := by rw [← hs0, rd_wr_same]
  have al : alarmStep s0 d theta = alarmStep s d theta := alarmStep_congr d theta r0 (domOf_tim t0 d)
  generalize hy : ({ x with
    theta := theta, davg := davg, rate := domRate s x theta m.b, prevTheta := theta, prevB := m.b, total := x.total + 1, run := x.run + 1
    alarms := (alarmStep s0 d theta).2, st := if x.st = 1 ∧ 8 ≤ x.run + 1 then 2 else x.st } : Dom) = y
  generalize hs1 : setDom d y s0 = s1
  generalize hs2 : (if x.st = 1 && decide (8 ≤ x.run + 1) then enterTrack d s1 else s1) = s2
  generalize hs3 : (if actDom s2 == d && !on s2 fld.timeStatus.HOLDOVER && !followsTwin s2 then
      settleStep theta { s2 with tim := { s2.tim with acc := (servoStep s2 theta).1, adj := (servoStep s2 theta).2 } } else s2) = s3
  have he : acceptSample d delay m s = if (alarmStep s0 d theta).1 then enterLost d (timeEvent 4 67 s3) else s3 := by
    rw [← hs3, ← hs2, ← hs1, ← hy, ← hs0, h2, h1, hx]
    rfl
  have y1 : domOf s1 d = y := by rw [← hs1, domOf_setDom]
  have y2 : domOf s2 d = y := by
    rw [← hs2]
    split
    · rw [enterTrack_dom, y1]
    · exact y1
  have y3 : domOf s3 d = y := by
    rw [← hs3]
    split
    · rw [settleStep_dom]; exact y2
    · exact y2
  have c1 : rd s1 .domSamples d = rd s .domSamples d + 1 := by rw [← d0, ← hs1]; exact rd_congr (setDom_regs _ _ _) _ _ _
  have c2 : rd s2 .domSamples d = rd s .domSamples d + 1 := by
    rw [← c1, ← hs2]
    split
    · exact rd_enterTrack _ _ _ _ _ (by decide)
    · rfl
  have c3 : rd s3 .domSamples d = rd s .domSamples d + 1 := by
    rw [← c2, ← hs3]
    split
    · rw [rd_settleStep _ _ _ _ _ (by decide)]; rfl
    · rfl
  refine ⟨_, he, ?_, ?_, ?_⟩
  · split
    · rw [rd_enterLost _ _ _ _ _ (by decide) (by decide) (by decide) (by decide) (by decide), rd_timeEvent _ _ _ _ _ _ (by decide) (by decide) (by decide) (by decide), c3]
    · exact c3
  · rw [al]
    split
    · rw [enterLost_dom, domOf_tim (timeEvent_tim _ _ _), y3, ← hy]
    · rw [y3, ← hy, al]
  · intro hst ha hh hf hal
    rw [al, hal, if_neg (by decide)]
    have e2 : s2 = s1 := by rw [← hs2, hst]; rfl
    have r1 : ∀ r i j, r ≠ .domSamples → r ≠ .jseqTx → rd s1 r i j = rd s r i j := fun r i j h h' => by
      rw [← r0 r i j h h', ← hs1]; exact rd_congr (setDom_regs _ _ _) _ _ _
    have a1 : s1.tim.acc = s.tim.acc ∧ s1.tim.adj = s.tim.adj := by rw [← hs1, (setDom_servo _ _ _).1, (setDom_servo _ _ _).2, t0]; exact ⟨rfl, rfl⟩
    have cond : (actDom s1 == d && !on s1 fld.timeStatus.HOLDOVER && !followsTwin s1) = true := by
      have f1 : followsTwin s1 = false := by
        rw [← hf]; unfold followsTwin role
        rw [get_of_rd (f := fld.twinStatus.ROLE) (r1 _ _ _ (by decide) (by decide))]
      unfold actDom on at *
      rw [get_of_rd (f := fld.timeStatus.ACT) (r1 _ _ _ (by decide) (by decide)), get_of_rd (f := fld.timeStatus.HOLDOVER) (r1 _ _ _ (by decide) (by decide)), ha, hh, f1]
      simp
    rw [← hs3, e2, if_pos cond, (settleStep_servo _ _).1, (settleStep_servo _ _).2]
    exact ⟨by rw [← servoStep_congr theta r1 a1.1 a1.2], by rw [← servoStep_congr theta r1 a1.1 a1.2]⟩


theorem Noted.tim {s x : State} (h : Noted s x) : x.tim = s.tim := by rw [h.frame]
theorem Noted.ot {s x : State} (h : Noted s x) : x.ot = s.ot := by rw [h.frame]
theorem Noted.prt {s x : State} (h : Noted s x) : x.prt = s.prt := by rw [h.frame]
theorem Noted.pwr {s x : State} (h : Noted s x) : x.pwr = s.pwr := by rw [h.frame]

theorem measOf_noted {s x : State} (h : Noted s x) (d : Nat) : measOf x d = measOf s d := by
  unfold measOf measPair
  simp only [h.reg .meas _ _ (by decide)]

theorem pushes {s : State} {fn d : Nat} {x : Dom} (hd : d < 2) (hx : x = domOf s d) (m : Meas) (delay : Int) (hm : m = measOf s d)
    (hdl : delay = measDelay (on s fld.domCfg.MODE d) m) (hw : Writable s fn .measPush d 0) (he : on s fld.timeCtrl.EN = true) (hst : x.st ≠ 0) :
        ∃ t, exec (.measPush fn d) s = .next t ∧
          (measRejected x delay = true → t.tim = s.tim ∧
            counter t Cnt.sampleRej.ctorIdx = counter s Cnt.sampleRej.ctorIdx + 1) ∧
          (measRejected x delay = false → ∀ davg theta, davg = (if x.total = 0 then delay
              else x.davg + (delay - x.davg).tdiv (2 ^ get s fld.annTo.DELAY_SHIFT : Nat)) →
            theta = timeDiff m.a m.b * 65536 + davg + asymOf s d * 65536 →
            rd t .domSamples d = rd s .domSamples d + 1 ∧
            domOf t d = { x with
              theta := theta, davg := davg, rate := domRate s x theta m.b, prevTheta := theta, prevB := m.b
              total := x.total + 1, run := x.run + 1
              alarms := if (alarmStep s d theta).1 then 0 else (alarmStep s d theta).2
              st := if (alarmStep s d theta).1 then 3 else if x.st = 1 ∧ 8 ≤ x.run + 1 then 2 else x.st } ∧
            (x.st = 2 → actDom s = d → on s fld.timeStatus.HOLDOVER = false → followsTwin s = false →
              (alarmStep s d theta).1 = false → t.tim.acc = (servoStep s theta).1 ∧ t.tim.adj = (servoStep s theta).2)) := by
  obtain ⟨u, hu, hex⟩ := hostWrite_of hw 1 (measPushWrite d)
  have ex : exec (.measPush fn d) s = .next (measPushWrite d u) := by
    show execMeasPush fn d s = _
    unfold execMeasPush
    rw [if_neg (by omega), hex]
  have ud : domOf u d = x := by rw [hx]; exact domOf_tim hu.tim d
  have um : measOf u d = m := by rw [hm]; exact measOf_noted hu d
  have mp : measPushWrite d u = if measRejected x delay then bump .sampleRej u else acceptSample d delay m u := by
    unfold measPushWrite
    dsimp only
    rw [hu.on _ _ _ (by decide), he, ud, um, hu.on _ _ _ (by decide), ← hdl, if_neg (by simpa using hst)]
  refine ⟨_, ex, ?_, ?_⟩
  all_goals rw [mp]
  · intro hr
    rw [if_pos hr]
    refine ⟨hu.tim, ?_⟩
    rw [counter_bump, if_pos rfl, hu.cnt _ (by decide)]
  · intro hr davg theta h1 h2
    rw [hr]
    have ua : asymOf u d = asymOf s d := by
      unfold asymOf effCal
      rw [hu.get _ _ _ (by decide), show u.calOld = s.calOld by rw [hu.frame]]
    have ur : domRate u x theta m.b = domRate s x theta m.b := by
      unfold domRate
      rw [show u.free = s.free by rw [hu.frame]]
    have ual : alarmStep u d theta = alarmStep s d theta := alarmStep_congr d theta (fun r i j _ h => hu.reg r i j h) (domOf_tim hu.tim d)
    have usv : servoStep u theta = servoStep s theta := servoStep_congr theta (fun r i j _ h => hu.reg r i j h) (by rw [hu.tim]) (by rw [hu.tim])
    obtain ⟨t, ht, t1, t2, t3⟩ := sample_taken d delay m u x ud.symm davg theta (by rw [hu.get _ _ _ (by decide)]; exact h1) (by rw [ua]; exact h2)
    rw [if_neg (by decide), ht, t1, t2, hu.reg _ _ _ (by decide), ur, ual]
    refine ⟨rfl, rfl, fun a1 a2 a3 a4 a5 => ?_⟩
    have uf : followsTwin u = followsTwin s := by unfold followsTwin role; rw [hu.get _ _ _ (by decide)]
    rw [← usv]
    exact t3 a1 (by unfold actDom; rw [hu.get _ _ _ (by decide)]; exact a2) (by rw [hu.on _ _ _ (by decide)]; exact a3) (by rw [uf]; exact a4)
      (by rw [ual]; exact a5)

theorem kicks_announce {s : State} {fn d : Nat} {x : Dom} (hd : d < 2) (hx : x = domOf s d) (hw : Writable s fn .annKick d 0) (hst : x.st ≠ 0) :
    ∃ t, exec (.annKick fn d) s = .next t ∧
        domOf t d = { x with annAt := s.ot, st := if x.st = 3 then 1 else x.st, run := if x.st = 3 then 0 else x.run } := by
  obtain ⟨u, hu, hex⟩ := hostWrite_of hw 1 (annKickWrite d)
  have ud : domOf u d = x := by rw [hx]; exact domOf_tim hu.tim d
  refine ⟨annKickWrite d u, ?_, ?_⟩
  · show execAnnKick fn d s = _
    unfold execAnnKick
    rw [if_neg (by omega), hex]
  · unfold annKickWrite
    dsimp only
    rw [ud, if_neg hst, domOf_setDom, hu.ot]

theorem beginHoldover_is (s : State) : on (beginHoldover s) fld.timeStatus.HOLDOVER = true := by
  unfold beginHoldover
  dsimp only
  rw [on_timeEvent _ _ _ _ _ _ (by decide) (by decide) (by decide) (by decide), on_put_fld _ _ _ _ _ _ (by rfl) (by decide) (by decide),
    on_put_same _ _ _ _ _ (by decide) (by decide)]
  rfl

theorem loseFollowed_is (s : State) (ha : actDom s < 2) :
    ((tracks s (1 - actDom s) && on s fld.timeCtrl.AUTO) = true → actDom (loseFollowed s) = 1 - actDom s ∧
          on (loseFollowed s) fld.timeStatus.SWITCHING = true) ∧
    ((tracks s (1 - actDom s) && on s fld.timeCtrl.AUTO) = false → on (loseFollowed s) fld.timeStatus.HOLDOVER = true) := by
  unfold loseFollowed
  dsimp only
  constructor
  · intro h
    rw [if_pos h]
    exact startSwitch_is _ _ (by omega)
  · intro h
    rw [if_neg (by simp [h])]
    exact beginHoldover_is s

theorem counter_loseFollowed (s : State) (k : Nat) (h : k ≠ Cnt.evtDrop.ctorIdx) (h2 : k ≠ Cnt.poison.ctorIdx) : counter (loseFollowed s) k = counter s k := by
  unfold loseFollowed
  dsimp only
  split
  · unfold startSwitch; rw [counter_timeEvent _ _ _ _ h h2]; rfl
  · unfold beginHoldover; rw [counter_timeEvent _ _ _ _ h h2]; rfl

theorem loseFollowed_ot (s : State) : (loseFollowed s).ot = s.ot := by
  unfold loseFollowed
  dsimp only
  split
  · unfold startSwitch; rw [timeEvent_ot]; rfl
  · unfold beginHoldover; rw [timeEvent_ot]; rfl

theorem announce_ends {s : State} {d : Nat} {x : Dom} (hd : d < 2) (hx : x = domOf s d) (hst : x.st = 2) (at_ : W64)
    (hat : at_ = x.annAt + BitVec.ofNat 64 (get s fld.annTo.ANN_TO_MS * 1000000)) :
      ∃ t, exec (.announceTimeout d) s = .next t ∧ domOf t d = { x with st := 3, alarms := 0 } ∧
        t.ot = timeAt s at_ ∧
        counter t Cnt.domLost.ctorIdx = counter s Cnt.domLost.ctorIdx + 1 ∧
        (actDom s = d → followsTwin s = false → (tracks s (1 - d) && on s fld.timeCtrl.AUTO) = true → actDom t = 1 - d ∧
          on t fld.timeStatus.SWITCHING = true) ∧
        (actDom s = d → followsTwin s = false → (tracks s (1 - d) && on s fld.timeCtrl.AUTO) = false →
          on t fld.timeStatus.HOLDOVER = true) := by
  have ht : tracks s d = true := by unfold tracks; rw [← hx, hst]; rfl
  generalize hu : advance at_ s = u
  have ex : exec (.announceTimeout d) s = .next (enterLost d u) := by
    show execAnnounceTimeout d s = _
    unfold execAnnounceTimeout
    rw [ht, if_neg (by simp; omega), ← hx, ← hat, hu]
  have uo : u.ot = timeAt s at_ := by rw [← hu]; exact advance_ot _ _
  have ut : u.tim = s.tim := by rw [← hu, advance_frame]
  have ur : u.regs = s.regs := by rw [← hu]; exact advance_regs _ _
  have uc : u.cnt = s.cnt := by rw [← hu, advance_frame]
  generalize hw : timeEvent (2 + d) 66 (bump .domLost (setDom d { domOf u d with st := 3, alarms := 0 } u)) = w
  have wrd : ∀ r i j, r ∉ timeRegs → rd w r i j = rd s r i j := by
    intro r i j h
    simp only [timeRegs, List.mem_cons, List.not_mem_nil, or_false, not_or] at h
    rw [← hw, rd_timeEvent _ _ _ _ _ _ h.1 h.2.1 h.2.2.1 h.2.2.2.1]
    exact (rd_congr (setDom_regs _ _ _) _ _ _).trans (rd_congr ur _ _ _)
  have wa : get w fld.timeStatus.ACT = get s fld.timeStatus.ACT := by
    rw [← hw, get_timeEvent _ _ _ _ _ _ (by decide) (by decide) (by decide) (by decide)]
    exact (get_congr (setDom_regs _ _ _) _ _ _).trans (get_congr ur _ _ _)
  have wt : ∀ e, e < 2 → e ≠ d → tracks w e = tracks s e := by
    intro e he hne
    unfold tracks
    rw [← hw, domOf_tim (timeEvent_tim _ _ _)]
    show ((domOf (setDom d _ u) e).st == 2) = _
    rw [domOf_setDom_ne hd he hne, domOf_tim ut]
  have wc : counter w Cnt.domLost.ctorIdx = counter s Cnt.domLost.ctorIdx + 1 := by
    rw [← hw, counter_timeEvent _ _ _ _ (by decide) (by decide), counter_bump, if_pos rfl, counter_congr (s := s)]
    rw [show (setDom d _ u).cnt = u.cnt by unfold setDom; split <;> rfl, uc]
  have wo : w.ot = u.ot := by rw [← hw, timeEvent_ot]; show (setDom d _ u).ot = _; unfold setDom; split <;> rfl
  have wf : followsTwin w = followsTwin s := by
    unfold followsTwin role
    rw [get_of_rd (f := fld.twinStatus.ROLE) (wrd _ _ _ (by decide))]
  have el : enterLost d u = if (tracks s d && actDom s == d && !followsTwin s) = true then loseFollowed w else w := by
    unfold enterLost
    rw [hw]
    have : tracks u d = tracks s d := by unfold tracks; rw [domOf_tim ut]
    show (if (tracks u d && get w fld.timeStatus.ACT == d && !followsTwin w) = true then _ else _) = _
    rw [this, wa, wf]; rfl
  refine ⟨_, ex, ?_, ?_, ?_, fun ha hf h => ?_, fun ha hf h => ?_⟩
  · rw [enterLost_dom, domOf_tim ut, hx]
  · rw [el, ← uo, ← wo]
    split
    · exact loseFollowed_ot _
    · rfl
  · rw [el, ← wc]
    split
    · exact counter_loseFollowed _ _ (by decide) (by decide)
    · rfl
  all_goals
    have wad : actDom w = d := wa.trans ha
    have lf := loseFollowed_is w (by omega)
    rw [wad, wt _ (by omega) (by omega), show on w fld.timeCtrl.AUTO = on s fld.timeCtrl.AUTO from by
      unfold on; rw [get_of_rd (f := fld.timeCtrl.AUTO) (wrd _ _ _ (by decide))]] at lf
    rw [el, if_pos (by rw [ht, ha, hf]; simp)]
  · exact lf.1 h
  · exact lf.2 h


theorem domOf_regs (r : RegId) (v : W32) (s : State) (i j d : Nat) : domOf (wr r v s i j) d = domOf s d := rfl

theorem domain_enables {s : State} {fn d : Nat} {x : Dom} (hd : d < 2) (hx : x = domOf s d) (v : W32) (u : State) (hw : Writable s fn .domCfg d 0)
    (hu : u = plainWrite (isPf fn) .domCfg d 0 v s) :
        ∃ t, exec (.domEnWrite fn d v) s = .next t ∧ rd t .domCfg d = rd u .domCfg d ∧
          (on s fld.domCfg.EN d = false → on u fld.domCfg.EN d = true → domOf t d = { domOff with st := 1, theta := x.theta, annAt := s.ot }) ∧
          (on s fld.domCfg.EN d = true → on u fld.domCfg.EN d = false → domOf t d = { x with st := 0 } ∧
            (x.st = 2 → actDom s = d → followsTwin s = false → on t fld.timeStatus.HOLDOVER = true)) := by
  obtain ⟨y, hy, hex⟩ := hostWrite_of hw v (domCfgWrite (isPf fn) d v)
  generalize hz : plainWrite (isPf fn) .domCfg d 0 v y = z
  have zr : rd z .domCfg d = rd u .domCfg d := by rw [← hz, hu]; exact plainWrite_noted hy fn _ (by decide) _ _ _
  have zo : on z fld.domCfg.EN d = on u fld.domCfg.EN d := by unfold on; rw [get_of_rd (f := fld.domCfg.EN) zr]
  have yo : on y fld.domCfg.EN d = on s fld.domCfg.EN d := hy.on _ _ _ (by decide)
  have zt : z.tim = s.tim := by rw [← hz]; exact hy.tim
  have zot : z.ot = s.ot := by rw [← hz]; exact hy.ot
  generalize hw2 : setDom d { domOf z d with st := 0 } z = w
  have wd : domOf w d = { x with st := 0 } := by rw [← hw2, domOf_setDom, hx, domOf_tim zt]
  have form : domCfgWrite (isPf fn) d v y =
      if (!on s fld.domCfg.EN d && on u fld.domCfg.EN d) = true then setDom d { domOff with st := 1, theta := x.theta, annAt := s.ot } z
      else if (on s fld.domCfg.EN d && !on u fld.domCfg.EN d) = true then
        (if (tracks z d && actDom z == d && !followsTwin z) = true then beginHoldover w else w) else z := by
    unfold domCfgWrite
    dsimp only
    rw [hz, zo, yo, zot]
    rw [← hw2, hx, domOf_tim zt]
  refine ⟨domCfgWrite (isPf fn) d v y, ?_, ?_, fun h1 h2 => ?_, fun h1 h2 => ?_⟩
  · show execDomEnWrite fn d v s = _
    unfold execDomEnWrite
    rw [if_neg (by omega), hex]
  · rw [form, ← zr]
    have wz : rd w .domCfg d = rd z .domCfg d := by rw [← hw2]; exact rd_congr (setDom_regs _ _ _) _ _ _
    split
    · exact rd_congr (setDom_regs _ _ _) _ _ _
    · split
      · split
        · rw [rd_beginHoldover _ _ _ _ (by decide) (by decide) (by decide) (by decide) (by decide), wz]
        · exact wz
      · rfl
  · rw [form, h1, h2, if_pos (by decide), domOf_setDom]
  · rw [form, h1, h2, if_neg (by decide), if_pos (by decide)]
    refine ⟨?_, fun h3 h4 h5 => ?_⟩
    · split
      · rw [beginHoldover_dom, wd]
      · exact wd
    · have zr' : ∀ q i j, q ≠ .domCfg → q ≠ .jseqTx → rd z q i j = rd s q i j := fun q i j h1 h2 => by
        rw [← hz, ← hy.reg q i j h2]; exact rd_wr_reg h1 _ _ _ _ _ _
      rw [if_pos]
      · exact beginHoldover_is w
      · have e1 : tracks z d = true := by unfold tracks; rw [domOf_tim zt, ← hx, h3]; rfl
        have e2 : actDom z = d := by
          rw [← h4]; unfold actDom; rw [get_of_rd (f := fld.timeStatus.ACT) (zr' _ _ _ (by decide) (by decide))]
        have e3 : followsTwin z = false := by
          rw [← h5]; unfold followsTwin role; rw [get_of_rd (f := fld.twinStatus.ROLE) (zr' _ _ _ (by decide) (by decide))]
        rw [e1, e2, e3]; simp

theorem anyCanvas_of {s t : State} (h : ∀ c, rd t .canvasCtrl c = rd s .canvasCtrl c) : anyCanvas t = anyCanvas s := by
  unfold anyCanvas on
  congr 1
  funext c
  rw [get_of_rd (f := fld.canvasCtrl.EN) (h c)]

theorem selects {s : State} {fn : Nat} (v : W32) (u : State) (hw : Writable s fn .timeCtrl 0 0) (hu : u = plainWrite (isPf fn) .timeCtrl 0 0 v s) :
      ∃ t, exec (.timeSelWrite fn v) s = .next t ∧ rd t .timeCtrl = rd u .timeCtrl ∧
        (get u fld.timeCtrl.SEL ≠ get s fld.timeCtrl.SEL →
          (anyCanvas s = true ∨ tracks s (get u fld.timeCtrl.SEL) = false ∨ followsTwin s = true → on t fld.timeStatus.PENDING = true ∧ actDom t = actDom s) ∧
          (anyCanvas s = false → tracks s (get u fld.timeCtrl.SEL) = true → followsTwin s = false → on t fld.timeStatus.PENDING = false ∧
            actDom t = get u fld.timeCtrl.SEL)) := by
  obtain ⟨y, hy, hex⟩ := hostWrite_of hw v (timeCtrlWrite (isPf fn) v)
  generalize hz : plainWrite (isPf fn) .timeCtrl 0 0 v y = z
  have zr : rd z .timeCtrl = rd u .timeCtrl := by rw [← hz, hu]; exact plainWrite_noted hy fn _ (by decide) _ _ _
  have zo : ∀ q i j, q ≠ .timeCtrl → q ≠ .jseqTx → rd z q i j = rd s q i j := fun q i j h1 h2 => by
    rw [← hz, ← hy.reg q i j h2]; exact rd_wr_reg h1 _ _ _ _ _ _
  have zs : get z fld.timeCtrl.SEL = get u fld.timeCtrl.SEL := get_of_rd zr
  have zt : z.tim = s.tim := by rw [← hz]; exact hy.tim
  generalize hp : (if get z fld.timeCtrl.SEL != get s fld.timeCtrl.SEL then put fld.timeStatus.PENDING 1 z else z) = p
  have pr : rd p .timeCtrl = rd u .timeCtrl := by
    rw [← hp, ← zr]
    split
    · exact rd_put_reg _ _ _ _ _ _ _ _ (by decide)
    · rfl
  have pc : anyCanvas p = anyCanvas s := by
    refine anyCanvas_of (fun c => ?_)
    rw [← zo .canvasCtrl c 0 (by decide) (by decide), ← hp]
    split
    · exact rd_put_reg _ _ _ _ _ _ _ _ (by decide)
    · rfl
  have pt : p.tim = s.tim := by rw [← zt, ← hp]; split <;> rfl
  have form : timeCtrlWrite (isPf fn) v y = if anyCanvas s then p else selActs p := by
    unfold timeCtrlWrite
    dsimp only
    rw [hz, hy.get _ _ _ (by decide), hp, pc]
  refine ⟨timeCtrlWrite (isPf fn) v y, congrArg Host.Outcome.next hex, ?_, fun hne => ?_⟩
  · rw [form]
    split
    · exact pr
    · rw [rd_selActs _ _ _ _ (by decide), pr]
  · have hne' : (get z fld.timeCtrl.SEL != get s fld.timeCtrl.SEL) = true := by rw [zs]; simpa using hne
    rw [hne', if_pos rfl] at hp
    have pp : on p fld.timeStatus.PENDING = true := by rw [← hp, on_put_same _ _ _ _ _ (by decide) (by decide)]; rfl
    have pa : actDom p = actDom s := by
      unfold actDom
      rw [← hp, get_put_fld _ _ _ _ _ _ (by rfl) (by decide) (by decide), get_of_rd (f := fld.timeStatus.ACT) (zo _ _ _ (by decide) (by decide))]
    have ps : get p fld.timeCtrl.SEL = get u fld.timeCtrl.SEL := get_of_rd pr
    have pk : tracks p (get u fld.timeCtrl.SEL) = tracks s (get u fld.timeCtrl.SEL) := by unfold tracks; rw [domOf_tim pt]
    have pf : followsTwin p = followsTwin s := by
      unfold followsTwin role
      rw [← hp, get_of_rd (f := fld.twinStatus.ROLE) (rd_put_reg _ _ _ _ _ _ _ _ (by decide)), get_of_rd (f := fld.twinStatus.ROLE) (zo _ _ _ (by decide) (by decide))]
    have lt : get u fld.timeCtrl.SEL < 2 := get_lt u _ _ _
    rw [form]
    constructor
    · intro h
      split
      · exact ⟨pp, pa⟩
      · rename_i hc
        rcases h with h | h | h
        · exact absurd h hc
        · unfold selActs
          dsimp only
          rw [ps, pk, h, if_pos (by simp)]
          exact ⟨pp, pa⟩
        · unfold selActs
          dsimp only
          rw [pf, h, if_pos (by simp)]
          exact ⟨pp, pa⟩
    · intro h1 h2 h3
      rw [h1, if_neg (by decide)]
      unfold selActs
      dsimp only
      rw [ps, pk, h2, pp, pf, h3, if_neg (by decide)]
      split
      · rename_i hc
        refine ⟨by rw [on_put_same _ _ _ _ _ (by decide) (by decide)]; rfl, ?_⟩
        unfold actDom
        rw [get_put_fld _ _ _ _ _ _ (by rfl) (by decide) (by decide)]
        simp only [Bool.and_eq_true, beq_iff_eq] at hc
        exact hc.1.1
      · rw [startSwitch_pending, on_put_same _ _ _ _ _ (by decide) (by decide)]
        exact ⟨rfl, (startSwitch_is _ _ lt).1⟩

end Sys2Proof.Machine
end

