-- ==== Sys2Proof/Laws/FrameClocks.lean ====
section
/-!
SUPPORT. Frame clocks, transmit timestamps, PPS and the 10 MHz reference.
-/

namespace Sys2Proof.Machine


/-! ## Frame clocks -/

theorem fclock_tim {s t : State} (h : t.tim = s.tim) (n : Nat) : fclock t n = fclock s n := by unfold fclock; rw [h]

theorem fclock_setFc (n : Nat) (f : FClock) (s : State) : fclock (setFc n f s) n = some f := map_find_put_same _ _ _

theorem fcRefuse_is (n : Nat) (s : State) : on (fcRefuse n s) fld.fcStatus.CFG_ERR n = true ∧ hasBit (fcRefuse n s) fld.timeEvent.TIME_EVENT 7 = true ∧
    (fcRefuse n s).tim = s.tim ∧ ∀ r, r ≠ .fcStatus → r ≠ .ringTail → r ≠ .ringStatus → r ≠ .hostStatus → r ≠ .timeEvent → ∀ i j, rd (fcRefuse n s) r i j = rd s r i j := by
  unfold fcRefuse
  refine ⟨?_, timeEvent_bit _ _ _ (by decide), timeEvent_tim _ _ _, fun r h1 h2 h3 h5 h4 i j => ?_⟩
  · rw [on_timeEvent _ _ _ _ _ _ (by decide) (by decide) (by decide) (by decide), on_put_same _ _ _ _ _ (by decide) (by decide)]; rfl
  · rw [rd_timeEvent _ _ _ _ _ _ h2 h3 h5 h4, rd_put_reg _ _ _ _ _ _ _ _ h1]

theorem fcChange_is (n : Nat) (s : State) : (∀ r, r ≠ .fcStatus → r ≠ .switchEpoch → ∀ i j, rd (fcChange n s) r i j = rd s r i j) ∧
    on (fcChange n s) fld.fcStatus.CFG_ERR n = on s fld.fcStatus.CFG_ERR n ∧
    (∀ f, fclock s n = some f → fclock (fcChange n s) n =
      some { f with segs := changedSegs f s.ot (get s fld.fcCtrl.RATE n) (get s fld.fcPhase.PHASE n) }) := by
  unfold fcChange
  cases hf : fclock s n with
  | none => exact ⟨fun _ _ _ _ _ => rfl, rfl, fun _ h => by simp at h⟩
  | some f =>
    dsimp only
    generalize hf' : ({ f with segs := changedSegs f s.ot (get s fld.fcCtrl.RATE n) (get s fld.fcPhase.PHASE n) } : FClock) = f'
    generalize (if fcPending f' (setFc n f' s).ot = true then 1 else 0) = b
    split
    · refine ⟨fun r h1 h2 i j => ?_, ?_, fun g hg => ?_⟩
      · rw [rd_wr_reg h2, rd_put_reg _ _ _ _ _ _ _ _ h1]; rfl
      · rw [on_wr_reg _ _ _ _ _ _ _ _ (by decide), on_put_fld _ _ _ _ _ _ (by rfl) (by decide) (by decide)]; rfl
      · simp only [Option.some.injEq] at hg; subst hg; rw [hf']; exact map_find_put_same _ _ _
    · refine ⟨fun r h1 h2 i j => ?_, ?_, fun g hg => ?_⟩
      · rw [rd_put_reg _ _ _ _ _ _ _ _ h1]; rfl
      · rw [on_put_fld _ _ _ _ _ _ (by rfl) (by decide) (by decide)]; rfl
      · simp only [Option.some.injEq] at hg; subst hg; rw [hf']; exact map_find_put_same _ _ _


theorem rateOf_lt {c : Nat} : c % 32 < 32 := Nat.mod_lt _ (by decide)

/-- The frame clock's own registers after a write of FC_CTRL that is not refused. -/
theorem fcCtrl_form {s y : State} (hy : Noted s y) {fn n : Nat} {v : W32} (u : State) (hu : u = plainWrite (isPf fn) .fcCtrl n 0 v s)
    (h : ((rateOf (v.toNat / 2 % 32)).isNone || decide (periodOf (v.toNat / 2 % 32) ≤ get s fld.fcPhase.PHASE n)) = false) :
    ∃ z, (∀ f : Fld, f.reg = .fcCtrl → f.lo + f.w ≤ 32 → 1 ≤ f.lo → get z f n = get u f n) ∧ (∀ r, r ≠ .fcStatus → r ≠ .fcCtrl → r ≠ .jseqTx → ∀ i j, rd z r i j = rd s r i j) ∧
      on z fld.fcStatus.CFG_ERR n = false ∧ z.tim = s.tim ∧ z.ot = s.ot ∧
      (on z fld.fcCtrl.EN n = if (on s fld.fcCtrl.EN n && fcBound s n) = true then true else on u fld.fcCtrl.EN n) ∧
      fcCtrlEffect (isPf fn) n v y =
        if (!on s fld.fcCtrl.EN n && on z fld.fcCtrl.EN n) = true then fcStart n z
        else if (on s fld.fcCtrl.EN n && !on z fld.fcCtrl.EN n) = true then fcStop n z
        else if (on s fld.fcCtrl.EN n && get s fld.fcCtrl.RATE n != v.toNat / 2 % 32) = true then fcChange n z else z := by
  generalize hp : put fld.fcStatus.CFG_ERR 0 (plainWrite (isPf fn) .fcCtrl n 0 v y) n = p
  have pr : rd p .fcCtrl n = rd u .fcCtrl n := by
    rw [← hp, hu, rd_put_reg _ _ _ _ _ _ _ _ (by decide)]; exact plainWrite_noted hy fn _ (by decide) _ _ _
  have po : ∀ r, r ≠ .fcStatus → r ≠ .fcCtrl → r ≠ .jseqTx → ∀ i j, rd p r i j = rd s r i j := fun r h1 h2 h3 i j => by
    rw [← hp, rd_put_reg _ _ _ _ _ _ _ _ h1, ← hy.reg r i j h3]; exact rd_wr_reg h2 _ _ _ _ _ _
  have pe : on p fld.fcStatus.CFG_ERR n = false := by rw [← hp, on_put_same _ _ _ _ _ (by decide) (by decide)]; rfl
  have pt : p.tim = s.tim := by rw [← hp]; exact hy.tim
  have pot : p.ot = s.ot := by rw [← hp]; exact hy.ot
  have pb : fcBound p n = fcBound s n := by
    unfold fcBound canvasFc eff
    congr 1
    funext c
    rw [show p.inForce = s.inForce from by rw [← hp]; show y.inForce = _; rw [hy.frame],
      show on p fld.canvasCtrl.EN c = on s fld.canvasCtrl.EN c from by unfold on; rw [get_of_rd (f := fld.canvasCtrl.EN) (po _ (by decide) (by decide) (by decide) _ _)],
      get_of_rd (f := fld.canvasCtrl.FC) (po _ (by decide) (by decide) (by decide) _ _)]
  generalize hz : (if (on s fld.fcCtrl.EN n && fcBound s n) = true then put fld.fcCtrl.EN 1 p n else p) = z
  refine ⟨z, fun f hf hw hl => ?_, fun r h1 h2 h3 i j => ?_, ?_, ?_, ?_, ?_, ?_⟩
  · rw [← hz, ← get_of_rd (s := u) (u := p) (f := f) (i := n) (j := 0) (by rw [hf]; exact pr)]
    split
    · exact get_put_fld fld.fcCtrl.EN f 1 p n 0 hf hw (.inr hl)
    · rfl
  · rw [← hz, ← po r h1 h2 h3 i j]
    split
    · exact rd_put_reg _ _ _ _ _ _ _ _ h2
    · rfl
  · rw [← pe, ← hz]
    split
    · exact on_put_reg _ _ _ _ _ _ _ _ (by decide)
    · rfl
  · rw [← hz]; split <;> exact pt
  · rw [← hz]; split <;> exact pot
  · rw [← hz]
    split
    · rw [on_put_same _ _ _ _ _ (by decide) (by decide)]; rfl
    · unfold on; rw [get_of_rd (f := fld.fcCtrl.EN) pr]
  · unfold fcCtrlEffect
    dsimp only
    rw [hy.get _ _ _ (by decide), hy.get _ _ _ (by decide), hy.on _ _ _ (by decide), h, if_neg (by decide), hp, pb, hz]

theorem fc_controls {s : State} {fn n : Nat} {v : W32} (u : State) (hn : n < 4) (hw : Writable s fn .fcCtrl n 0)
    (hu : u = plainWrite (isPf fn) .fcCtrl n 0 v s) (i : Instr) (hi : i = .fcEnable fn n v ∨ i = .fcCtrlWrite fn n v) :
      ((rateOf (v.toNat / 2 % 32)).isNone = true ∨ periodOf (v.toNat / 2 % 32) ≤ get s fld.fcPhase.PHASE n →
        ∃ t, exec i s = .next t ∧ on t fld.fcStatus.CFG_ERR n = true ∧ hasBit t fld.timeEvent.TIME_EVENT 7 = true ∧
          rd t .fcCtrl n = rd s .fcCtrl n ∧ t.tim = s.tim) ∧
      ((rateOf (v.toNat / 2 % 32)).isSome = true → get s fld.fcPhase.PHASE n < periodOf (v.toNat / 2 % 32) →
        ∃ t, exec i s = .next t ∧ on t fld.fcStatus.CFG_ERR n = false ∧ get t fld.fcCtrl.RATE n = get u fld.fcCtrl.RATE n ∧
          (on s fld.fcCtrl.EN n = false → on u fld.fcCtrl.EN n = true → on t fld.fcStatus.RUN n = true ∧
            ∃ f, fclock t n = some f ∧ f.segs = [⟨0, get u fld.fcCtrl.RATE n, get s fld.fcPhase.PHASE n, fbaseOf s n⟩] ∧
              f.seen = frameFrom (s.ot.toNat + 1) f.segs - 1) ∧
          (on s fld.fcCtrl.EN n = true → on u fld.fcCtrl.EN n = false → fcBound s n = false →
            on t fld.fcStatus.RUN n = false ∧ fclock t n = none) ∧
          (on s fld.fcCtrl.EN n = true → fcBound s n = true → on t fld.fcCtrl.EN n = true) ∧
          (on s fld.fcCtrl.EN n = true → on u fld.fcCtrl.EN n = true → get s fld.fcCtrl.RATE n ≠ v.toNat / 2 % 32 →
            ∀ f, fclock s n = some f →
            fclock t n = some { f with segs := changedSegs f s.ot (get u fld.fcCtrl.RATE n) (get s fld.fcPhase.PHASE n) })) := by
  obtain ⟨y, hy, hex⟩ := hostWrite_of hw v (fcCtrlEffect (isPf fn) n v)
  have ex : exec i s = .next (fcCtrlEffect (isPf fn) n v y) := by
    rcases hi with rfl | rfl
    · show execFcEnable fn n v s = _
      unfold execFcEnable
      rw [if_neg (by omega), hex]
    · show execFcCtrlWrite fn n v s = _
      unfold execFcCtrlWrite
      rw [if_neg (by omega), hex]
  constructor
  · intro h
    have e : fcCtrlEffect (isPf fn) n v y = fcRefuse n y := by
      unfold fcCtrlEffect
      dsimp only
      rw [hy.get _ _ _ (by decide), if_pos (by simpa using h)]
    obtain ⟨r1, r2, r3, r4⟩ := fcRefuse_is n y
    exact ⟨_, ex, by rw [e]; exact r1, by rw [e]; exact r2, by rw [e, r4 _ (by decide) (by decide) (by decide) (by decide) (by decide), hy.reg _ _ _ (by decide)], by rw [e, r3, hy.tim]⟩
  · intro h1 h2
    have h : ((rateOf (v.toNat / 2 % 32)).isNone || decide (periodOf (v.toNat / 2 % 32) ≤ get s fld.fcPhase.PHASE n)) = false := by
      rw [Bool.or_eq_false_iff]
      exact ⟨by rw [Option.isNone_eq_false_iff]; exact h1, decide_eq_false (by omega)⟩
    obtain ⟨z, z1, z2, z3, z4, z5, z6, z7⟩ := fcCtrl_form hy u hu h
    have zr : get z fld.fcCtrl.RATE n = get u fld.fcCtrl.RATE n := z1 _ rfl (by decide) (by decide)
    have zp : get z fld.fcPhase.PHASE n = get s fld.fcPhase.PHASE n := get_of_rd (z2 _ (by decide) (by decide) (by decide) _ _)
    have zb : fbaseOf z n = fbaseOf s n := by
      unfold fbaseOf
      rw [get_of_rd (f := fld.fbaseLo.FBASE_LO) (z2 _ (by decide) (by decide) (by decide) _ _), get_of_rd (f := fld.fbaseHi.FBASE_HI) (z2 _ (by decide) (by decide) (by decide) _ _)]
    obtain ⟨c1, c2, c3⟩ := fcChange_is n z
    refine ⟨_, ex, ?_, ?_, fun a1 a2 => ?_, fun a1 a2 a3 => ?_, fun a1 a2 => ?_, fun a1 a2 a3 f hf => ?_⟩
    · rw [z7]
      split
      · unfold fcStart; rw [on_put_fld _ _ _ _ _ _ (by rfl) (by decide) (by decide)]; exact z3
      · split
        · unfold fcStop; rw [on_put_fld _ _ _ _ _ _ (by rfl) (by decide) (by decide), on_put_fld _ _ _ _ _ _ (by rfl) (by decide) (by decide)]; exact z3
        · split
          · rw [c2, z3]
          · exact z3
    · rw [z7, ← zr]
      split
      · unfold fcStart; rw [get_put_reg _ _ _ _ _ _ _ _ (by decide)]; rfl
      · split
        · unfold fcStop; rw [get_put_reg _ _ _ _ _ _ _ _ (by decide), get_put_reg _ _ _ _ _ _ _ _ (by decide)]; rfl
        · split
          · exact get_of_rd (c1 _ (by decide) (by decide) _ _)
          · rfl
    · have : on z fld.fcCtrl.EN n = true := by rw [z6, a1, a2]; rfl
      rw [z7, a1, this, if_pos (by decide)]
      unfold fcStart
      refine ⟨by rw [on_put_same _ _ _ _ _ (by decide) (by decide)]; rfl, _, fclock_setFc _ _ _, ?_, ?_⟩
      · dsimp only
        rw [zr, zp, zb]
      · dsimp only
        rw [z5]
    · have : on z fld.fcCtrl.EN n = false := by rw [z6, a1, a2, a3]; rfl
      rw [z7, a1, this, if_neg (by decide), if_pos (by decide)]
      unfold fcStop
      refine ⟨?_, map_find_del_same _ _⟩
      rw [on_put_fld _ _ _ _ _ _ (by rfl) (by decide) (by decide), on_put_same _ _ _ _ _ (by decide) (by decide)]; rfl
    · have : on z fld.fcCtrl.EN n = true := by rw [z6, a1, a2]; rfl
      rw [z7, a1, this, if_neg (by decide), if_neg (by decide)]
      split
      · unfold on; rw [get_of_rd (f := fld.fcCtrl.EN) (c1 _ (by decide) (by decide) _ _)]; exact this
      · exact this
    · have : on z fld.fcCtrl.EN n = true := by rw [z6, a2]; simp
      rw [z7, a1, this, if_neg (by decide), if_neg (by decide), if_pos (by simpa using a3), c3 f (by rw [fclock_tim z4, hf]), zr, zp, z5]


theorem fc_phases {s : State} {fn n : Nat} {v : W32} (u : State) (hn : n < 4) (hw : Writable s fn .fcPhase n 0)
    (hu : u = plainWrite (isPf fn) .fcPhase n 0 v s) :
      (periodOf (get s fld.fcCtrl.RATE n) ≤ v.toNat % 2 ^ 30 →
        ∃ t, exec (.fcPhaseWrite fn n v) s = .next t ∧ on t fld.fcStatus.CFG_ERR n = true ∧
          hasBit t fld.timeEvent.TIME_EVENT 7 = true ∧ rd t .fcPhase n = rd s .fcPhase n ∧ t.tim = s.tim) ∧
      (v.toNat % 2 ^ 30 < periodOf (get s fld.fcCtrl.RATE n) →
        ∃ t, exec (.fcPhaseWrite fn n v) s = .next t ∧ on t fld.fcStatus.CFG_ERR n = false ∧ rd t .fcPhase n = rd u .fcPhase n ∧
          (get u fld.fcPhase.PHASE n ≠ get s fld.fcPhase.PHASE n → ∀ f, fclock s n = some f →
            fclock t n = some { f with segs := changedSegs f s.ot (get s fld.fcCtrl.RATE n) (get u fld.fcPhase.PHASE n) })) := by
  obtain ⟨y, hy, hex⟩ := hostWrite_of hw v (fcPhaseEffect (isPf fn) n v)
  have ex : exec (.fcPhaseWrite fn n v) s = .next (fcPhaseEffect (isPf fn) n v y) := by
    show execFcPhaseWrite fn n v s = _
    unfold execFcPhaseWrite
    rw [if_neg (by omega), hex]
  constructor
  · intro h
    have e : fcPhaseEffect (isPf fn) n v y = fcRefuse n y := by
      unfold fcPhaseEffect
      dsimp only
      rw [hy.get _ _ _ (by decide), if_pos h]
    obtain ⟨r1, r2, r3, r4⟩ := fcRefuse_is n y
    exact ⟨_, ex, by rw [e]; exact r1, by rw [e]; exact r2, by rw [e, r4 _ (by decide) (by decide) (by decide) (by decide) (by decide), hy.reg _ _ _ (by decide)], by rw [e, r3, hy.tim]⟩
  · intro h
    generalize hp : put fld.fcStatus.CFG_ERR 0 (plainWrite (isPf fn) .fcPhase n 0 v y) n = p
    have pr : rd p .fcPhase n = rd u .fcPhase n := by
      rw [← hp, hu, rd_put_reg _ _ _ _ _ _ _ _ (by decide)]; exact plainWrite_noted hy fn _ (by decide) _ _ _
    have pe : on p fld.fcStatus.CFG_ERR n = false := by rw [← hp, on_put_same _ _ _ _ _ (by decide) (by decide)]; rfl
    have pt : p.tim = s.tim := by rw [← hp]; exact hy.tim
    have pot : p.ot = s.ot := by rw [← hp]; exact hy.ot
    have pc : get p fld.fcCtrl.RATE n = get s fld.fcCtrl.RATE n := by
      rw [← hp, get_put_reg _ _ _ _ _ _ _ _ (by decide), ← hy.get _ _ _ (by decide)]
      exact get_wr_reg _ _ _ _ _ _ _ _ (by decide)
    have pp : get p fld.fcPhase.PHASE n = get u fld.fcPhase.PHASE n := get_of_rd pr
    have form : fcPhaseEffect (isPf fn) n v y = if get u fld.fcPhase.PHASE n = get s fld.fcPhase.PHASE n then p else fcChange n p := by
      unfold fcPhaseEffect
      dsimp only
      rw [hy.get _ _ _ (by decide), hy.get _ _ _ (by decide), if_neg (by omega), hp, pp]
    obtain ⟨c1, c2, c3⟩ := fcChange_is n p
    refine ⟨_, ex, ?_, ?_, fun hne f hf => ?_⟩
    · rw [form]
      split
      · exact pe
      · rw [c2, pe]
    · rw [form]
      split
      · exact pr
      · rw [c1 _ (by decide) (by decide), pr]
    · rw [form, if_neg hne, c3 f (by rw [fclock_tim pt, hf]), pc, pp, pot]

/-- The data a read returns is no register. -/
theorem rd_rdata (x : State) (b : List Byte) (r : RegId) (i j : Nat) : rd { x with rdata := b } r i j = rd x r i j := rfl

theorem next_reads {s : State} {fn n : Nat} (hn : n < 4) (h : Reaches s fn .nextLo n 0) : ∃ t, exec (.nextLoRead fn n) s = .next t ∧
      (fclock s n = none → t.rdata = leBytes 4 0) ∧
      ∀ f, fclock s n = some f → t.rdata = leBytes 4 ((f.inst (f.next s.ot)).toNat % 2 ^ 32) ∧
        rd t .nextHi n = BitVec.ofNat 32 ((f.inst (f.next s.ot)).toNat / 2 ^ 32) ∧
        rd t .nextEpoch n = BitVec.ofNat 32 (f.next s.ot).toNat := by
  refine ⟨{ (nextLoRead n s).1 with rdata := leBytes 4 (nextLoRead n s).2.toNat }, ?_, fun hf => ?_, fun f hf => ?_⟩
  · show execNextLoRead fn n s = _
    unfold execNextLoRead
    rw [if_neg (by omega), hostRead_of h]
  · have : nextLoRead n s = (s, 0) := by unfold nextLoRead; rw [hf]
    rw [this]; rfl
  · have e : nextLoRead n s = (wr .nextEpoch (BitVec.ofNat 32 (f.next s.ot).toNat) (wr .nextHi (BitVec.ofNat 32 ((f.inst (f.next s.ot)).toNat / 2 ^ 32)) s n) n,
      BitVec.ofNat 32 (f.inst (f.next s.ot)).toNat) := by unfold nextLoRead; rw [hf]
    rw [e]
    refine ⟨?_, ?_, ?_⟩
    · show leBytes 4 (BitVec.ofNat 32 _).toNat = _
      rw [BitVec.toNat_ofNat]
    · rw [rd_rdata, rd_wr_reg (by decide), rd_wr_same]
    · rw [rd_rdata, rd_wr_same]

/-! ## Transmit timestamps -/

theorem portOf_setPort (p : Nat) (v : Port) (s : State) : portOf (setPort p v s) p = v := by
  unfold portOf setPort
  simp

theorem portOf_prt {s t : State} (h : t.prt = s.prt) (p : Nat) : portOf t p = portOf s p := by unfold portOf; rw [h]

theorem pops {s : State} {fn p : Nat} (poison : BitVec 4) (hp : p < 32) (h : Reaches s fn .tsqE0 p 0) : ∃ t, exec (.tsqPop fn p poison) s = .next t ∧
      ((portOf s p).tsq = [] → t.rdata = leBytes 4 0) ∧
      ∀ e rest, (portOf s p).tsq = e :: rest → (portOf t p).tsq = rest ∧ t.rdata = leBytes 4 ((tsWords e poison).getD 0 0).toNat ∧
        rd t .tsqE1 p = (tsWords e poison).getD 1 0 ∧ rd t .tsqE2 p = (tsWords e poison).getD 2 0 ∧
        rd t .tsqE3 p = (tsWords e poison).getD 3 0 ∧
        (poison ≠ 0 → s.hst.parity = [] → counter t Cnt.poison.ctorIdx = counter s Cnt.poison.ctorIdx + 1) := by
  refine ⟨{ (tsqPopRead p poison s).1 with rdata := leBytes 4 (tsqPopRead p poison s).2.toNat }, ?_, fun hq => ?_, fun e rest hq => ?_⟩
  · show execTsqPop fn p poison s = _
    unfold execTsqPop
    rw [if_neg (by omega), hostRead_of h]
  · have : tsqPopRead p poison s = (s, 0) := by unfold tsqPopRead; dsimp only; rw [hq]
    rw [this]; rfl
  · generalize hw : tsWords e poison = w
    generalize hx : wr .tsqE3 (w.getD 3 0) (wr .tsqE2 (w.getD 2 0) (wr .tsqE1 (w.getD 1 0) (setPort p { portOf s p with tsq := rest } s) p) p) p = x
    have e : tsqPopRead p poison s = (if poison = 0 then x else raise0 10 (setBit fld.hostStatus.HOST_STATUS 1 (bump .poison x)), w.getD 0 0) := by
      unfold tsqPopRead; dsimp only; rw [hq, ← hx, ← hw]
    have x1 : (portOf x p).tsq = rest := by rw [← hx]; show (portOf (setPort p _ s) p).tsq = _; rw [portOf_setPort]
    have x2 : rd x .tsqE1 p = w.getD 1 0 := by rw [← hx, rd_wr_reg (by decide), rd_wr_reg (by decide), rd_wr_same]
    have x3 : rd x .tsqE2 p = w.getD 2 0 := by rw [← hx, rd_wr_reg (by decide), rd_wr_same]
    have x4 : rd x .tsqE3 p = w.getD 3 0 := by rw [← hx, rd_wr_same]
    have x5 : x.cnt = s.cnt := by rw [← hx]; rfl
    have x6 : x.hst = s.hst := by rw [← hx]; rfl
    clear hx
    have r : ∀ q i, q ≠ .ringTail → q ≠ .ringStatus → q ≠ .hostStatus → rd (raise0 10 (setBit fld.hostStatus.HOST_STATUS 1 (bump .poison x))) q i 0 = rd x q i 0 :=
      fun q i h1 h2 h3 => (rd_raise0 _ _ _ _ _ h1 h2 h3).trans (rd_setBit_reg _ _ _ _ _ _ _ _ h3)
    have rp : (raise0 10 (setBit fld.hostStatus.HOST_STATUS 1 (bump .poison x))).prt = x.prt := raise0_prt _ _
    have rc : s.hst.parity = [] → counter (raise0 10 (setBit fld.hostStatus.HOST_STATUS 1 (bump .poison x))) Cnt.poison.ctorIdx = counter s Cnt.poison.ctorIdx + 1 := by
      intro hpar
      unfold raise0
      rw [(clean_raise 10 noDetail (setBit fld.hostStatus.HOST_STATUS 1 (bump .poison x)) (by rw [← hpar, ← x6]; rfl)).2]
      show counter (bump .poison x) _ = _
      rw [counter_bump, if_pos rfl, counter_congr x5]
    generalize raise0 10 (setBit fld.hostStatus.HOST_STATUS 1 (bump .poison x)) = z at e r rp rc
    generalize hy : (if poison = 0 then x else z) = y at e
    have y0 : y.prt = x.prt := by rw [← hy]; split <;> first | rfl | exact rp
    have y1 : ∀ q i, q ≠ .ringTail → q ≠ .ringStatus → q ≠ .hostStatus → rd y q i 0 = rd x q i 0 := by
      intro q i h1 h2 h3
      rw [← hy]; split
      · rfl
      · exact r q i h1 h2 h3
    rw [e]
    refine ⟨?_, rfl, ?_, ?_, ?_, fun hne hpar => ?_⟩
    · rw [← x1, ← portOf_prt y0]; rfl
    · rw [← x2]; exact y1 _ _ (by decide) (by decide) (by decide)
    · rw [← x3]; exact y1 _ _ (by decide) (by decide) (by decide)
    · rw [← x4]; exact y1 _ _ (by decide) (by decide) (by decide)
    · rw [if_neg hne] at hy
      rw [← rc hpar, hy]; rfl

theorem flushes_stamps {s : State} {fn p : Nat} (hp : p < 32) (h : Writable s fn .tsqCtrl p 0) : ∃ t, exec (.tsqFlush fn p) s = .next t ∧ (portOf t p).tsq = [] := by
  obtain ⟨y, hy, hex⟩ := hostWrite_of h (rd s .tsqCtrl p ||| 0x100) (tsqCtrlWrite (isPf fn) p (rd s .tsqCtrl p ||| 0x100))
  refine ⟨tsqCtrlWrite (isPf fn) p (rd s .tsqCtrl p ||| 0x100) y, ?_, ?_⟩
  · show execTsqFlush fn p s = _
    unfold execTsqFlush
    rw [if_neg (by omega)]
    exact congrArg Host.Outcome.next hex
  · unfold tsqCtrlWrite
    have : (rd s .tsqCtrl p ||| 0x100).toNat / 256 % 2 = 1 := by
      have h : ((rd s .tsqCtrl p ||| 0x100).toNat).testBit 8 = true := by
        rw [BitVec.toNat_or, Nat.testBit_lor]; simp; right; decide
      rw [Nat.testBit_eq_decide_div_mod_eq] at h
      exact of_decide_eq_true h
    dsimp only
    rw [if_pos this, portOf_setPort]

/-! ## PPS and the 10 MHz reference -/

theorem pps_in {s : State} (at_ : W64) (frac : BitVec 16) (h : mode s ≠ 0) : ∃ t, exec (.ppsInEdge at_ frac) s = .next t ∧ t.ot = timeAt s at_ ∧
      t.tim.ppsIn = some (at_ - BitVec.ofInt 64 (sgn 32 (effCal s fld.ppsInAdj.PPS_IN_ADJ)), frac) := by
  refine ⟨raise0 74 { advance at_ s with tim := { (advance at_ s).tim with ppsIn := some (at_ - BitVec.ofInt 64 (sgn 32 (effCal s fld.ppsInAdj.PPS_IN_ADJ)), frac) } }, ?_, ?_, ?_⟩
  · show execPpsInEdge at_ frac s = _
    unfold execPpsInEdge
    rw [if_neg h]
  · rw [raise0_ot]; exact advance_ot _ _
  · rw [raise0_tim]

theorem pps_reads {s : State} {fn : Nat} (h : Reaches s fn .ppsInLo 0 0) : ∃ t, exec (.ppsInLoRead fn) s = .next t ∧ ∀ x f, s.tim.ppsIn = some (x, f) →
      t.rdata = leBytes 4 (x.toNat % 2 ^ 32) ∧ rd t .ppsInHi = BitVec.ofNat 32 (x.toNat / 2 ^ 32) ∧
      rd t .ppsInFrac = BitVec.ofNat 32 f.toNat := by
  refine ⟨_, congrArg Host.Outcome.next (hostRead_of h ppsInLoRead), fun x f hf => ?_⟩
  have e : ppsInLoRead s = (wr .ppsInFrac (BitVec.ofNat 32 f.toNat) (wr .ppsInHi (BitVec.ofNat 32 (x.toNat / 2 ^ 32)) s), BitVec.ofNat 32 x.toNat) := by
    unfold ppsInLoRead; rw [hf]
  rw [e]
  refine ⟨?_, ?_, ?_⟩
  · show leBytes 4 (BitVec.ofNat 32 _).toNat = _
    rw [BitVec.toNat_ofNat]
  · rw [rd_rdata, rd_wr_reg (by decide), rd_wr_same]
  · rw [rd_rdata, rd_wr_same]

theorem pps_out {s : State} {i : Nat} (last x : W64) (hi : i < 2) (h0 : mode s ≠ 0) (h7 : mode s ≠ 7) (he : on s fld.ppsOut.EN i = true)
    (h3 : get s fld.ppsOut.SRC i ≠ 3) (hl : last = Map.get (fun _ => s.ot - 1) s.tim.ppsLast i)
    (hx : x = ppsNext s i (if timeDiff last (s.ot - 1) > 0 then last else s.ot - 1)) :
      ∃ t, exec (.ppsOutPulse i) s = .next t ∧ t.ot = timeAt s x ∧ Map.find? t.tim.ppsLast i = some x ∧
        Map.find? t.tim.ppsFall i = some (x + BitVec.ofNat 64 (1000 * get s fld.ppsOut.WIDTH i)) := by
  refine ⟨{ advance x s with tim := { (advance x s).tim with
    ppsLast := Map.put (advance x s).tim.ppsLast i x
    ppsFall := Map.put (advance x s).tim.ppsFall i (x + BitVec.ofNat 64 (1000 * get s fld.ppsOut.WIDTH i)) } }, ?_, ?_, ?_, ?_⟩
  · show execPpsOutPulse i s = _
    unfold execPpsOutPulse
    rw [if_neg (by simp [h0, h7, he, h3]; omega), ← hl]
    dsimp only
    rw [← hx, get_advance]
  · exact advance_ot x s
  · exact map_find_put_same (advance x s).tim.ppsLast i x
  · exact map_find_put_same (advance x s).tim.ppsFall i _

theorem ref10Start_is (at_ : W64) (s : State) : (ref10Start at_ s).ot = s.ot ∧ (ref10Start at_ s).tim.ref10 = some at_ ∧
    on (ref10Start at_ s) fld.timeStatus.REF10_OK = true ∧ rd (ref10Start at_ s) .ref10Err = rd s .ref10Err := by
  unfold ref10Start
  refine ⟨by unfold put wr; rfl, by unfold put wr; rfl, ?_, ?_⟩
  · rw [on_put_same _ _ _ _ _ (by decide) (by decide)]; rfl
  · rw [rd_put_reg _ _ _ _ _ _ _ _ (by decide)]; rfl

theorem ref10_windows {s : State} (at_ : W64) : ∃ t, exec (.ref10Window at_) s = .next t ∧ t.ot = timeAt s at_ ∧ t.tim.ref10 = some at_ ∧
      on t fld.timeStatus.REF10_OK = true ∧
      ∀ x, s.tim.ref10 = some x → rd t .ref10Err = BitVec.ofInt 32 (timeDiff at_ x - 1000000000) := by
  have at10 : (advance at_ s).tim.ref10 = s.tim.ref10 := by rw [advance_frame]
  cases h : s.tim.ref10 with
  | none =>
    refine ⟨ref10Start at_ (advance at_ s), ?_, ?_, ?_, ?_, fun x hx => by simp at hx⟩
    · show execRef10Window at_ s = _
      unfold execRef10Window
      dsimp only
      rw [at10, h]
    · rw [(ref10Start_is _ _).1, advance_ot]
    · exact (ref10Start_is _ _).2.1
    · exact (ref10Start_is _ _).2.2.1
  | some x =>
    generalize hv : BitVec.ofInt 32 (timeDiff at_ x - 1000000000) = v
    refine ⟨ref10Start at_ (wr .ref10Err v (advance at_ s)), ?_, ?_, ?_, ?_, fun y hy => ?_⟩
    · show execRef10Window at_ s = _
      unfold execRef10Window
      dsimp only
      rw [at10, h, ← hv]
    · rw [(ref10Start_is _ _).1]; exact advance_ot _ _
    · exact (ref10Start_is _ _).2.1
    · exact (ref10Start_is _ _).2.2.1
    · simp only [Option.some.injEq] at hy
      rw [(ref10Start_is _ _).2.2.2, rd_wr_same, ← hv, hy]

theorem ref10_lost {s : State} (h : on s fld.timeStatus.REF10_OK = true) : ∃ t, exec .ref10Loss s = .next t ∧ on t fld.timeStatus.REF10_OK = false ∧
      t.tim.ref10 = none ∧ hasBit t fld.timeEvent.TIME_EVENT 8 = true := by
  refine ⟨timeEvent 8 75 (put fld.timeStatus.REF10_OK 0 { s with tim := { s.tim with ref10 := none } }), ?_, ?_, ?_, timeEvent_bit _ _ _ (by decide)⟩
  · show execRef10Loss s = _
    unfold execRef10Loss
    rw [h, if_neg (by decide)]
  · rw [on_timeEvent _ _ _ _ _ _ (by decide) (by decide) (by decide) (by decide), on_put_same _ _ _ _ _ (by decide) (by decide)]; rfl
  · rw [timeEvent_tim]; rfl

theorem ref10_returns {s : State} (at_ : W64) (h : on s fld.timeStatus.REF10_OK = false) : ∃ t, exec (.ref10Return at_) s = .next t ∧
      on t fld.timeStatus.REF10_OK = true ∧ t.tim.ref10 = some at_ ∧ t.ot = timeAt s at_ := by
  refine ⟨ref10Start at_ (advance at_ s), ?_, (ref10Start_is _ _).2.2.1, (ref10Start_is _ _).2.1, ?_⟩
  · show execRef10Return at_ s = _
    unfold execRef10Return
    rw [h, if_neg (by decide)]
  · rw [(ref10Start_is _ _).1, advance_ot]

end Sys2Proof.Machine
end

