-- ==== Sys2Proof/Laws/Modes.lean ====
section
/-!
SUPPORT. Mode requests, sets of test blocks, canvases that stop, SAFE.
-/

namespace Sys2Proof.Machine

set_option Elab.async false


/-- Every bit but those of some registers and parts: the footprint of an operation that leaves these alone. -/
def outside (rs : List RegId) (ps : List Part) : Nat := Nat.xor allBits (footprint rs ps)

/-! ## Mode requests -/

theorem modeErr_is (s : State) : hasBit (modeErr s) fld.pwrEvent.PWR_EVENT 0 = true ∧ (modeErr s).pwr = s.pwr ∧ mode (modeErr s) = mode s :=
  ⟨hasBit_setBit _ _ _ _ _ (by decide) (by decide), rfl, get_setBit_reg _ _ _ _ _ _ _ _ (by decide)⟩

theorem beginTrans_is (target : Nat) (after : Bool) (s : State) (h : s.pwr.trans = none) :
    beginTrans target after s = put fld.pwrMode.BUSY 1 { s with pwr := { s.pwr with trans := some ⟨target, s.ot + BitVec.ofNat 64 (transTime (mode s) target), after, 0⟩ } } := by
  unfold beginTrans safePending
  rw [h, if_neg (by decide)]

theorem busy_put (s : State) : busy (put fld.pwrMode.BUSY 1 s) = true := by
  unfold busy
  rw [on_put_same _ _ _ _ _ (by decide) (by decide)]; rfl

theorem mode_put (b : Nat) (s : State) : mode (put fld.pwrMode.BUSY b s) = mode s := by
  unfold mode
  exact get_put_fld fld.pwrMode.BUSY fld.pwrMode.MODE b s 0 0 rfl (by decide) (by decide)

theorem begun (target : Nat) (s : State) (h : s.pwr.trans = none) : busy (beginTrans target false s) = true ∧ mode (beginTrans target false s) = mode s ∧
    (beginTrans target false s).pwr.trans = some ⟨target, s.ot + BitVec.ofNat 64 (transTime (mode s) target), false, 0⟩ := by
  rw [beginTrans_is _ _ _ h]
  exact ⟨busy_put _, mode_put _ _, rfl⟩

theorem mode_noted {s x : State} (h : Noted s x) : mode x = mode s := h.get _ _ _ (by decide)
theorem busy_noted {s x : State} (h : Noted s x) : busy x = busy s := h.on _ _ _ (by decide)
theorem role_noted {s x : State} (h : Noted s x) : role x = role s := h.get _ _ _ (by decide)

theorem mode_requests {s : State} {fn : Nat} (hw : Writable s fn .pwrCmd 0 0) (hb : busy s = false) (ht : s.pwr.trans = none) (i : Instr) (target : Nat)
    (hi : (i = .modeReqShow fn ∧ target = 5 ∧ mode s = 3 ∧ role s = 0) ∨
            (i = .modeReqIdle fn ∧ target = 3 ∧
              (((mode s = 5 ∨ mode s = 4) ∧ anyCanvas s = false) ∨ (mode s = 7 ∧ safeExit s = true))) ∨
            (i = .modeReqTest fn ∧ target = 2 ∧ mode s = 3 ∧
              ((selBlocks s).contains 127 = false ∨ get s fld.lcState.LC_STATE ≠ 2)) ∨
            (i = .modeReqSleep fn ∧ target = 0 ∧ mode s = 3 ∧ s.bst.kind = 0 ∧ s.member = .zx9160)) :
          ∃ t, exec i s = .next t ∧ busy t = true ∧ mode t = mode s ∧
            t.pwr.trans = some ⟨target, s.ot + BitVec.ofNat 64 (transTime (mode s) target), false, 0⟩ := by
  have fin : ∀ (i : Instr) (v : W32) (e : State → State), exec i s = .next (hostWrite fn .pwrCmd 0 0 v e s) → (∀ x, Noted s x → e x = beginTrans target false x) →
      ∃ t, exec i s = .next t ∧ busy t = true ∧ mode t = mode s ∧ t.pwr.trans = some ⟨target, s.ot + BitVec.ofNat 64 (transTime (mode s) target), false, 0⟩ := by
    intro i v e h1 h2
    obtain ⟨x, hx, he⟩ := hostWrite_of hw v e
    have xt : x.pwr.trans = none := by rw [hx.pwr, ht]
    obtain ⟨b1, b2, b3⟩ := begun target x xt
    refine ⟨beginTrans target false x, by rw [h1, he, h2 x hx], b1, b2.trans (mode_noted hx), ?_⟩
    rw [b3, hx.ot, mode_noted hx]
  rcases hi with ⟨rfl, rfl, h1, h2⟩ | ⟨rfl, rfl, h1⟩ | ⟨rfl, rfl, h1, h2⟩ | ⟨rfl, rfl, h1, h2, h3⟩
  · refine fin _ 5 reqShow rfl (fun x hx => ?_)
    unfold reqShow
    rw [busy_noted hx, hb, mode_noted hx, role_noted hx, h1, h2]
    rfl
  · refine fin _ 3 reqIdle rfl (fun x hx => ?_)
    have e1 : anyCanvas x = anyCanvas s := anyCanvas_of (fun c => hx.reg _ _ _ (by decide))
    have e2 : safeExit x = safeExit s := by unfold safeExit; rw [hx.get _ _ _ (by decide), hx.get _ _ _ (by decide), hx.get _ _ _ (by decide)]
    unfold reqIdle
    rw [busy_noted hx, hb, mode_noted hx, e1, e2]
    rcases h1 with ⟨h1 | h1, h2⟩ | ⟨h1, h2⟩ <;> rw [h1, h2] <;> simp
  · refine fin _ 2 reqTest rfl (fun x hx => ?_)
    have e1 : selBlocks x = selBlocks s := by
      unfold selBlocks hasBit
      rw [show x.member = s.member by rw [hx.frame]]
      congr 1; funext b
      rw [hx.get _ _ _ (by decide)]
    unfold reqTest
    rw [busy_noted hx, hb, mode_noted hx, h1, e1, hx.get _ _ _ (by decide)]
    rcases h2 with h2 | h2
    · rw [h2]; rfl
    · rw [if_neg h2]; simp
  · refine fin _ 0 reqSleep rfl (fun x hx => ?_)
    unfold reqSleep
    rw [busy_noted hx, hb, mode_noted hx, h1, show x.bst = s.bst by rw [hx.frame], h2, show x.member = s.member by rw [hx.frame], h3]
    rfl

theorem mode_refused {s : State} {fn : Nat} (hw : Writable s fn .pwrCmd 0 0) (hb : busy s = true) (i : Instr)
    (hi : i ∈ [Instr.modeReqShow fn, .modeReqIdle fn, .modeReqTest fn, .modeReqSleep fn, .modeReqSafe fn]) :
        ∃ t, exec i s = .next t ∧ hasBit t fld.pwrEvent.PWR_EVENT 0 = true ∧ t.pwr = s.pwr ∧ mode t = mode s := by
  have fin : ∀ (i : Instr) (v : W32) (e : State → State), exec i s = .next (hostWrite fn .pwrCmd 0 0 v e s) → (∀ x, busy x = true → e x = modeErr x) →
      ∃ t, exec i s = .next t ∧ hasBit t fld.pwrEvent.PWR_EVENT 0 = true ∧ t.pwr = s.pwr ∧ mode t = mode s := by
    intro i v e h1 h2
    obtain ⟨x, hx, he⟩ := hostWrite_of hw v e
    obtain ⟨b1, b2, b3⟩ := modeErr_is x
    exact ⟨modeErr x, by rw [h1, he, h2 x (by rw [busy_noted hx, hb])], b1, b2.trans hx.pwr, b3.trans (mode_noted hx)⟩
  simp only [List.mem_cons, List.not_mem_nil, or_false] at hi
  rcases hi with rfl | rfl | rfl | rfl | rfl
  · exact fin _ 5 reqShow rfl (fun x hx => by unfold reqShow; rw [hx]; rfl)
  · exact fin _ 3 reqIdle rfl (fun x hx => by unfold reqIdle; rw [hx]; rfl)
  · exact fin _ 2 reqTest rfl (fun x hx => by unfold reqTest; rw [hx]; rfl)
  · exact fin _ 0 reqSleep rfl (fun x hx => by unfold reqSleep; rw [hx]; rfl)
  · exact fin _ 7 reqSafe rfl (fun x hx => by unfold reqSafe; rw [hx]; rfl)

theorem enterSafe_begins (cause : Nat) (s : State) (h0 : mode s ≠ 0) (h7 : mode s ≠ 7) (h1 : mode s ≠ 1 ∨ cause < 5) : ∃ tr,
    enterSafe cause s = put fld.pwrMode.BUSY 1 { s with pwr := { s.pwr with trans := some tr } } ∧ tr.target = 7 ∧ cause ≤ tr.cause ∧
      (s.pwr.trans = none → tr = ⟨7, s.ot + 1000, false, cause⟩) := by
  unfold enterSafe
  rw [if_neg h0, if_neg h7, if_neg (by simp; rcases h1 with h | h <;> omega)]
  refine ⟨_, rfl, ?_, ?_, ?_⟩
  · split
    · split
      · assumption
      · rfl
    · rfl
  · split
    · split
      · exact Nat.le_max_right _ _
      · exact Nat.le_refl _
    · exact Nat.le_refl _
  · intro h
    rw [h]

theorem safe_requests {s : State} {fn : Nat} (hw : Writable s fn .pwrCmd 0 0) (hb : busy s = false) (ht : s.pwr.trans = none) (h0 : mode s ≠ 0) (h7 : mode s ≠ 7) :
    ∃ t, exec (.modeReqSafe fn) s = .next t ∧ busy t = true ∧ t.pwr.trans = some ⟨7, s.ot + 1000, false, 1⟩ := by
  obtain ⟨x, hx, he⟩ := hostWrite_of hw 7 reqSafe
  obtain ⟨tr, e1, _, _, e4⟩ := enterSafe_begins 1 x (by rw [mode_noted hx]; exact h0) (by rw [mode_noted hx]; exact h7) (.inr (by decide))
  have e : reqSafe x = enterSafe 1 x := by unfold reqSafe; rw [busy_noted hx, hb]; rfl
  refine ⟨enterSafe 1 x, ?_, ?_, ?_⟩
  · show Host.Outcome.next (hostWrite fn .pwrCmd 0 0 7 reqSafe s) = _
    rw [he, e]
  · rw [e1]; exact busy_put _
  · rw [e1]
    show some tr = _
    rw [e4 (by rw [hx.pwr, ht]), hx.ot]


/-! ## Sets of test blocks -/

theorem rd_bump (c : Cnt) (s : State) (r : RegId) (i j : Nat) : rd (bump c s) r i j = rd s r i j := rfl
theorem rd_bst (s : State) (b : Bst) (r : RegId) (i j : Nat) : rd { s with bst := b } r i j = rd s r i j := rfl
theorem rd_pwr (s : State) (b : Pwr) (r : RegId) (i j : Nat) : rd { s with pwr := b } r i j = rd s r i j := rfl

theorem forEach_same {α β : Type} (g : State → β) (f : α → State → State) (h : ∀ a u, g (f a u) = g u) (xs : List α) (s : State) : g (forEach xs f s) = g s :=
  forEach_all (P := fun u => g u = g s) (fun a u hu => (h a u).trans hu) xs s rfl

theorem startSet_is (kind : Nat) (bs : List Nat) (s : State) (h : bs ≠ []) : (startSet kind bs s).bst.kind = kind ∧ (startSet kind bs s).bst.todo = bs ∧
    (startSet kind bs s).pwr = s.pwr ∧ (startSet kind bs s).bst.releaseDue = s.bst.releaseDue ∧ (startSet kind bs s).ot = s.ot ∧
    (∀ r, r ≠ .bistRes → r ≠ .bistStatus → ∀ i j, rd (startSet kind bs s) r i j = rd s r i j) := by
  obtain ⟨b, rest, rfl⟩ : ∃ b rest, bs = b :: rest := by cases bs with | nil => exact absurd rfl h | cons b r => exact ⟨b, r, rfl⟩
  generalize hx : forEach (b :: rest) (fun b t => put fld.bistRes.RESULT 0 t b) s = x
  have e : startSet kind (b :: rest) s = startBlock b { x with bst := { x.bst with todo := b :: rest, kind := kind, blocks := b :: rest } } := by
    unfold startSet
    rw [hx]
    rfl
  have x1 : x.pwr = s.pwr := by rw [← hx]; exact forEach_same (fun u => u.pwr) (fun b t => put fld.bistRes.RESULT 0 t b) (fun _ _ => rfl) _ _
  have x2 : x.bst = s.bst := by rw [← hx]; exact forEach_same (fun u => u.bst) (fun b t => put fld.bistRes.RESULT 0 t b) (fun _ _ => rfl) _ _
  have x3 : x.ot = s.ot := by rw [← hx]; exact forEach_same (fun u => u.ot) (fun b t => put fld.bistRes.RESULT 0 t b) (fun _ _ => rfl) _ _
  rw [e]
  unfold startBlock
  refine ⟨rfl, rfl, x1, ?_, x3, fun r h1 h2 i j => ?_⟩
  · show x.bst.releaseDue = _
    rw [x2]
  · rw [rd_bump, rd_put_reg _ _ _ _ _ _ _ _ h2, rd_put_reg _ _ _ _ _ _ _ _ h1, rd_put_reg _ _ _ _ _ _ _ _ h1, rd_bst, ← hx]
    exact forEach_same (fun u => rd u r i j) (fun b t => put fld.bistRes.RESULT 0 t b) (fun _ _ => rd_put_reg _ _ _ _ _ _ _ _ h1) _ _

theorem startBlocks_some (m : Member) : startBlocks m ≠ [] := by cases m <;> decide

theorem sleep_tests {s : State} {fn : Nat} (hw : Writable s fn .pwrCmd 0 0) (hb : busy s = false) (ht : s.pwr.trans = none) (h3 : mode s = 3) (hk : s.bst.kind = 0)
    (hm : s.member ≠ .zx9160) : ∃ t, exec (.modeReqSleep fn) s = .next t ∧ busy t = true ∧
          t.bst.kind = 2 ∧ t.bst.todo = startBlocks s.member ∧
          t.pwr.trans = some ⟨0, s.ot + BitVec.ofNat 64 (transTime 3 0), true, 0⟩ := by
  obtain ⟨x, hx, he⟩ := hostWrite_of hw 0 reqSleep
  have xm : x.member = s.member := by rw [hx.frame]
  have e : reqSleep x = startSet 2 (startBlocks s.member) (beginTrans 0 true x) := by
    unfold reqSleep
    rw [busy_noted hx, hb, mode_noted hx, h3, show x.bst = s.bst by rw [hx.frame], hk, if_neg (by decide), xm, if_neg hm]
  have bt := beginTrans_is 0 true x (by rw [hx.pwr, ht])
  obtain ⟨s1, s2, s3, _, _, s6⟩ := startSet_is 2 (startBlocks s.member) (beginTrans 0 true x) (startBlocks_some _)
  refine ⟨startSet 2 (startBlocks s.member) (beginTrans 0 true x), ?_, ?_, s1, s2, ?_⟩
  · show Host.Outcome.next (hostWrite fn .pwrCmd 0 0 0 reqSleep s) = _
    rw [he, e]
  · unfold busy on
    rw [get_of_rd (f := fld.pwrMode.BUSY) (s6 _ (by decide) (by decide) _ _), bt]
    exact busy_put _
  · rw [s3, bt]
    show some (⟨0, x.ot + BitVec.ofNat 64 (transTime (mode x) 0), true, 0⟩ : Trans) = _
    rw [hx.ot, mode_noted hx, h3]

/-! ## The end of a transition -/

theorem mode_put_mode (m : Nat) (s : State) (h : m < 8) : mode (put fld.pwrMode.MODE m s) = m := by
  unfold mode
  rw [get_put_same _ _ _ _ _ (by decide)]
  exact Nat.mod_eq_of_lt h

theorem enterMode_is (m : Nat) (s : State) (hm : m < 8) (h : m = 7 ∨ safePending s = false) : mode (enterMode m s) = m ∧ (enterMode m s).pwr = { s.pwr with trans := none } ∧
    busy (enterMode m s) = false ∧ (enterMode m s).ot = s.ot ∧ (∀ r, r ≠ .pwrMode → r ≠ .ringTail → r ≠ .ringStatus → r ≠ .hostStatus → ∀ i j, rd (enterMode m s) r i j = rd s r i j) := by
  have e : enterMode m s = raise0 104 (put fld.pwrMode.MODE m (endTrans s)) := by
    unfold enterMode
    rw [if_neg]
    rcases h with h | h <;> simp [h]
  rw [e]
  refine ⟨?_, ?_, ?_, ?_, fun r h1 h2 h3 h4 i j => ?_⟩
  · unfold mode
    rw [get_raise0 _ _ _ _ _ (by decide) (by decide) (by decide)]
    exact mode_put_mode m _ hm
  · rw [raise0_pwr]; rfl
  · unfold busy
    rw [on_raise0 _ _ _ _ _ (by decide) (by decide) (by decide), on_put_fld _ _ _ _ _ _ (by rfl) (by decide) (by decide)]
    unfold endTrans
    rw [on_put_same _ _ _ _ _ (by decide) (by decide)]; rfl
  · rw [raise0_ot]; rfl
  · rw [rd_raise0 _ _ _ _ _ h2 h3 h4, rd_put_reg _ _ _ _ _ _ _ _ h1]
    unfold endTrans
    rw [rd_put_reg _ _ _ _ _ _ _ _ h1]; rfl

theorem advance_pwr (t : W64) (s : State) : (advance t s).pwr.trans = s.pwr.trans ∧ (advance t s).member = s.member := by
  rw [advance_frame]; exact ⟨rfl, rfl⟩


/-! ## Canvases that stop -/

/-- A canvas that stops reads EN = 0; no other canvas's CANVAS_CTRL changes. -/
theorem stopCanvas_ctrl (c k : Nat) (s : State) : (k = c → on (stopCanvas c s) fld.canvasCtrl.EN k = false) ∧
    (k ≠ c → rd (stopCanvas c s) .canvasCtrl k = rd s .canvasCtrl k) := by
  generalize hy : put fld.canvasCtrl.EN 0 (forEach (pendingRegs s c) applyReg s) c = y
  have y1 : on y fld.canvasCtrl.EN c = false := by rw [← hy, on_put_same _ _ _ _ _ (by decide) (by decide)]; rfl
  have y2 : k ≠ c → rd y .canvasCtrl k = rd s .canvasCtrl k := by
    intro h
    rw [← hy]
    refine (rd_wr_idx .canvasCtrl h _ _ _).trans ?_
    exact forEach_same (fun u => rd u .canvasCtrl k) applyReg (fun _ _ => rfl) _ _
  have tail : rd (stopCanvas c s) .canvasCtrl k = rd y .canvasCtrl k := by
    unfold stopCanvas
    dsimp only
    rw [hy]
    split
    · exact rd_put_reg _ _ _ _ _ _ _ _ (by decide)
    · rw [rd_wr_reg (by decide)]
      refine (forEach_same (fun u => rd u .canvasCtrl k) (fun p u => if (portOf u p).queue.any (isOfCanvas c) then dequeue p (isOfCanvas c) u else u) (fun p u => ?_) _ _).trans ?_
      · split
        · exact (within_dequeue p (isOfCanvas c) (μ := outside [.canvasCtrl] []) (by decide +kernel) (Within.refl u)).reg .canvasCtrl (by decide +kernel) k 0
        · rfl
      · show rd (cancelEpochs c (fun _ => true) y) .canvasCtrl k = _
        exact (within_cancelEpochs c (fun _ => true) (μ := outside [.canvasCtrl] []) (by decide +kernel) (Within.refl y)).reg .canvasCtrl (by decide +kernel) k 0
  constructor
  · intro h
    subst h
    unfold on
    rw [get_of_rd (f := fld.canvasCtrl.EN) tail]
    exact y1
  · intro h
    rw [tail, y2 h]

theorem stopCanvas_off (c k : Nat) (s : State) (h : on s fld.canvasCtrl.EN k = false) : on (stopCanvas c s) fld.canvasCtrl.EN k = false := by
  by_cases e : k = c
  · exact (stopCanvas_ctrl c k s).1 e
  · unfold on
    rw [get_of_rd (f := fld.canvasCtrl.EN) ((stopCanvas_ctrl c k s).2 e)]
    exact h

theorem holdEnds_reg (s : State) (r : RegId) (h : r ≠ .pwrMode) (i j : Nat) : rd (holdEnds s) r i j = rd s r i j := by
  unfold holdEnds
  split
  · unfold beginTrans
    split
    · rfl
    · exact rd_put_reg _ _ _ _ _ _ _ _ h
  · rfl

theorem halves_self (s : State) (c : Nat) : c ∈ halves s c := by
  unfold halves
  split
  · by_cases h : c ≤ mateOf s c
    · rw [show Nat.min c (mateOf s c) = c from Nat.min_eq_left h]; exact List.mem_cons_self
    · rw [show Nat.max c (mateOf s c) = c from Nat.max_eq_left (by omega)]; simp
  · simp

/-- A canvas that is disabled reads EN = 0, and no canvas is enabled. -/
theorem disableCanvas_off (c k : Nat) (s : State) : (on s fld.canvasCtrl.EN k = false → on (disableCanvas c s) fld.canvasCtrl.EN k = false) ∧
    on (disableCanvas c s) fld.canvasCtrl.EN c = false := by
  have keep : ∀ k, on s fld.canvasCtrl.EN k = false → on (disableCanvas c s) fld.canvasCtrl.EN k = false := by
    intro k h
    unfold disableCanvas on
    dsimp only
    rw [get_of_rd (f := fld.canvasCtrl.EN) (holdEnds_reg _ _ (by decide) _ _)]
    exact forEach_all (P := fun u => on u fld.canvasCtrl.EN k = false) (fun a u hu => stopCanvas_off a k u hu) _ _ h
  refine ⟨keep k, ?_⟩
  by_cases h : on s fld.canvasCtrl.EN c = true
  · unfold disableCanvas on
    dsimp only
    rw [get_of_rd (f := fld.canvasCtrl.EN) (holdEnds_reg _ _ (by decide) _ _)]
    exact forEach_mem (P := fun _ => True) (Q := fun u => on u fld.canvasCtrl.EN c = false) (f := stopCanvas) c (fun _ _ _ _ => trivial)
      (fun u _ => (stopCanvas_ctrl c c u).1 rfl) (fun b u hu => stopCanvas_off b c u hu) _ (List.mem_filter.mpr ⟨halves_self s c, h⟩) s trivial
  · exact keep c (by simpa using h)

theorem disableAll_off (s : State) (k : Nat) (hk : k < 64) : on (disableAll s) fld.canvasCtrl.EN k = false := by
  have keep : ∀ (xs : List Nat) u, on u fld.canvasCtrl.EN k = false →
      on (forEach xs (fun c u => if on u fld.canvasCtrl.EN c then disableCanvas c u else u) u) fld.canvasCtrl.EN k = false := by
    intro xs u h
    refine forEach_all (P := fun u => on u fld.canvasCtrl.EN k = false) (fun a u hu => ?_) _ _ h
    split
    · exact (disableCanvas_off a k u).1 hu
    · exact hu
  unfold disableAll
  by_cases h : on s fld.canvasCtrl.EN k = true
  · refine forEach_mem (P := fun _ => True) (Q := fun u => on u fld.canvasCtrl.EN k = false) (f := fun c u => if on u fld.canvasCtrl.EN c then disableCanvas c u else u) k
      (fun _ _ _ _ => trivial) (fun u _ => ?_) (fun b u hu => ?_) _ (List.mem_filter.mpr ⟨List.mem_range.mpr hk, h⟩) s trivial
    · split
      · exact (disableCanvas_off k k u).2
      · simpa using ‹¬on u fld.canvasCtrl.EN k = true›
    · split
      · exact (disableCanvas_off b k u).1 hu
      · exact hu
  · exact keep _ _ (by simpa using h)

theorem arriveSafe_is (cause : Nat) (s : State) : mode (arriveSafe cause s) = 7 ∧ get (arriveSafe cause s) fld.safeCause.SAFE_CAUSE = cause % 8 ∧
    (arriveSafe cause s).pwr.trans = none ∧ (arriveSafe cause s).pwr.gated = [] ∧
    ∀ c, c < 64 → on (arriveSafe cause s) fld.canvasCtrl.EN c = false := by
  generalize hx : (if role (abortTests s) = 2 then lapse (abortTests s) else if role (abortTests s) = 0 || role (abortTests s) = 7 then abortTests s else setRole 1 (abortTests s)) = x
  generalize hy : cutOutputs (cancelAll (disableAll x)) = y
  have ye : ∀ c, c < 64 → on y fld.canvasCtrl.EN c = false := by
    intro c hc
    rw [← disableAll_off x c hc, ← hy]
    unfold on
    show (get (cancelAll (disableAll x)) _ _ _ == 1) = _
    rw [get_of_rd (f := fld.canvasCtrl.EN) ((within_cancelAll (μ := outside [.canvasCtrl] []) (by decide +kernel) (Within.refl (disableAll x))).reg .canvasCtrl (by decide +kernel) c 0)]
  generalize hz : put fld.safeCause.SAFE_CAUSE cause { y with pwr := { y.pwr with image := none, gated := [], selfRef := false } } = z
  have e : arriveSafe cause s = raise0 110 (enterMode 7 z) := by
    rw [← hz, ← hy, ← hx]; rfl
  obtain ⟨m1, m2, _, _, m5⟩ := enterMode_is 7 z (by decide) (.inl rfl)
  have zc : get z fld.safeCause.SAFE_CAUSE = cause % 8 := by rw [← hz, get_put_same _ _ _ _ _ (by decide)]; rfl
  rw [e]
  refine ⟨?_, ?_, ?_, ?_, fun c hc => ?_⟩
  · unfold mode
    rw [get_raise0 _ _ _ _ _ (by decide) (by decide) (by decide)]; exact m1
  · rw [get_raise0 _ _ _ _ _ (by decide) (by decide) (by decide), get_of_rd (f := fld.safeCause.SAFE_CAUSE) (m5 _ (by decide) (by decide) (by decide) (by decide) _ _), zc]
  · rw [raise0_pwr, m2]
  · rw [raise0_pwr, m2, ← hz]; rfl
  · rw [on_raise0 _ _ _ _ _ (by decide) (by decide) (by decide), ← ye c hc]
    unfold on
    rw [get_of_rd (f := fld.canvasCtrl.EN) (m5 _ (by decide) (by decide) (by decide) (by decide) _ _), ← hz, get_put_reg _ _ _ _ _ _ _ _ (by decide)]
    rfl

end Sys2Proof.Machine
end

