-- ==== Sys2Proof/Laws/Power.lean ====
section
/-!
SUPPORT. Transitions, resets, the release from reset, clocks, core voltage, temperature and slow time.
-/

namespace Sys2Proof.Machine

set_option Elab.async false


/-! ## Transitions -/

theorem powerDown_is (s : State) : mode (powerDown s) = 0 ∧ (powerDown s).fmem = [] ∧ (powerDown s).sch.tasks = [] ∧ (powerDown s).hst.allocs = [] ∧
    (powerDown s).pwr.slow = s.ot.toNat * 64 / slowTick * slowTick := by
  unfold powerDown
  dsimp only
  refine ⟨mode_put_mode 0 _ (by decide), rfl, rfl, rfl, ?_⟩
  show (raise0 104 s).ot.toNat * 64 / slowTick * slowTick = _
  rw [raise0_ot]

theorem selBlocks_congr {s t : State} (hm : t.member = s.member) (h : ∀ k, rd t .bistSel k = rd s .bistSel k) : selBlocks t = selBlocks s := by
  unfold selBlocks hasBit
  rw [hm]
  congr 1; funext b
  rw [get_of_rd (f := fld.bistSel.BIST_SEL) (h _)]

theorem transitions {s : State} (tr : Trans) (h : s.pwr.trans = some tr) (ha : tr.afterSet = false) : ∃ t, exec .modeTransitionDone s = .next t ∧
      (tr.target = 3 ∨ tr.target = 5 → mode t = tr.target ∧ t.pwr.trans = none ∧ busy t = false ∧ t.pwr.gated = [] ∧
        t.pwr.selfRef = false ∧ t.ot = timeAt s tr.due) ∧
      (tr.target = 2 → selBlocks s ≠ [] → mode t = 2 ∧ t.bst.kind = 4 ∧ t.bst.todo = selBlocks s) ∧
      (tr.target = 7 → mode t = 7 ∧ get t fld.safeCause.SAFE_CAUSE = tr.cause % 8 ∧ t.pwr.trans = none ∧ t.pwr.gated = [] ∧
        ∀ c, c < 64 → on t fld.canvasCtrl.EN c = false) ∧
      (tr.target = 0 → mode t = 0 ∧ t.fmem = [] ∧ t.sch.tasks = [] ∧ t.hst.allocs = [] ∧
        t.pwr.slow = (timeAt s tr.due).toNat * 64 / slowTick * slowTick) := by
  generalize hx : advance tr.due s = x
  have xo : x.ot = timeAt s tr.due := by rw [← hx]; exact advance_ot _ _
  have xt : x.pwr.trans = some tr := by rw [← hx, (advance_pwr _ _).1, h]
  have xm : x.member = s.member := by rw [← hx, (advance_pwr _ _).2]
  have xr : ∀ r i j, rd x r i j = rd s r i j := fun r i j => by rw [← hx]; exact rd_advance _ _ _ _ _
  have sp : safePending x = (tr.target == 7) := by unfold safePending; rw [xt]
  have go : exec .modeTransitionDone s = if tr.target = 0 then .next (powerDown x)
      else if tr.target = 7 then .next (arriveSafe tr.cause x)
      else if tr.target = 2 then .next (startSet 4 (selBlocks x) (enterMode 2 x))
      else .next (enterMode tr.target (if mode x = 7 then put fld.safeCause.SAFE_CAUSE 0 { x with pwr := { x.pwr with gated := [], selfRef := false } }
        else { x with pwr := { x.pwr with gated := [], selfRef := false } })) := by
    show execModeTransitionDone s = _
    unfold execModeTransitionDone
    rw [h]
    dsimp only
    rw [ha, if_neg (by decide), hx]
    rfl
  by_cases h0 : tr.target = 0
  · rw [go, if_pos h0]
    obtain ⟨a1, a2, a3, a4, a5⟩ := powerDown_is x
    exact ⟨_, rfl, fun k => by omega, fun k => by omega, fun k => by omega, fun _ => ⟨a1, a2, a3, a4, by rw [a5, xo]⟩⟩
  rw [if_neg h0] at go
  by_cases h7 : tr.target = 7
  · rw [go, if_pos h7]
    exact ⟨_, rfl, fun k => by omega, fun k => by omega, fun _ => arriveSafe_is _ _, fun k => absurd k h0⟩
  rw [if_neg h7] at go
  have sp' : safePending x = false := by rw [sp]; simpa using h7
  by_cases h2 : tr.target = 2
  · rw [go, if_pos h2]
    refine ⟨_, rfl, fun k => by omega, fun _ hs => ?_, fun k => absurd k h7, fun k => absurd k h0⟩
    have es : selBlocks x = selBlocks s := selBlocks_congr xm (fun k => xr _ _ _)
    obtain ⟨m1, _, _, _, m5⟩ := enterMode_is 2 x (by decide) (.inr sp')
    obtain ⟨a1, a2, _, _, _, a6⟩ := startSet_is 4 (selBlocks x) (enterMode 2 x) (by rw [es]; exact hs)
    refine ⟨?_, a1, by rw [a2, es]⟩
    unfold mode
    rw [get_of_rd (f := fld.pwrMode.MODE) (a6 _ (by decide) (by decide) _ _)]; exact m1
  rw [if_neg h2] at go
  generalize hy : (if mode x = 7 then put fld.safeCause.SAFE_CAUSE 0 { x with pwr := { x.pwr with gated := [], selfRef := false } }
        else { x with pwr := { x.pwr with gated := [], selfRef := false } }) = y at go
  have y1 : y.pwr = { x.pwr with gated := [], selfRef := false } := by rw [← hy]; split <;> rfl
  have y2 : y.ot = x.ot := by rw [← hy]; split <;> rfl
  have y3 : safePending y = false := by rw [← sp']; unfold safePending; rw [y1]
  refine ⟨_, go, fun k => ?_, fun k => absurd k h2, fun k => absurd k h7, fun k => absurd k h0⟩
  obtain ⟨m1, m2, m3, m4, _⟩ := enterMode_is tr.target y (by omega) (.inr y3)
  exact ⟨m1, by rw [m2], m3, by rw [m2, y1], by rw [m2, y1], by rw [m4, y2, xo]⟩

theorem hold_writes {s : State} {fn : Nat} (v : W32) (u : State) (hw : Writable s fn .pwrCtrl 0 0) (hu : u = plainWrite (isPf fn) .pwrCtrl 0 0 v s) :
      ∃ t, exec (.holdEnWrite fn v) s = .next t ∧ rd t .pwrCtrl = rd u .pwrCtrl ∧
        (on s fld.pwrCtrl.HOLD_EN = true → on u fld.pwrCtrl.HOLD_EN = false → mode s = 4 → s.pwr.trans = none →
          t.pwr.trans = some ⟨5, s.ot + BitVec.ofNat 64 (transTime 4 5), false, 0⟩) := by
  obtain ⟨y, hy, hex⟩ := hostWrite_of hw v (pwrCtrlWrite (isPf fn) v)
  generalize hz : plainWrite (isPf fn) .pwrCtrl 0 0 v y = z
  have zr : rd z .pwrCtrl = rd u .pwrCtrl := by rw [← hz, hu]; exact plainWrite_noted hy fn _ (by decide) _ _ _
  have zo : on z fld.pwrCtrl.HOLD_EN = on u fld.pwrCtrl.HOLD_EN := by unfold on; rw [get_of_rd (f := fld.pwrCtrl.HOLD_EN) zr]
  have form : pwrCtrlWrite (isPf fn) v y = if (on s fld.pwrCtrl.HOLD_EN && !on u fld.pwrCtrl.HOLD_EN) = true then holdEnds z else z := by
    unfold pwrCtrlWrite
    dsimp only
    rw [hz, hy.on _ _ _ (by decide), zo]
  refine ⟨_, congrArg Host.Outcome.next hex, ?_, fun h1 h2 h3 h4 => ?_⟩
  · rw [form, ← zr]
    split
    · exact holdEnds_reg _ _ (by decide) _ _
    · rfl
  · rw [form, h1, h2, if_pos (by decide)]
    have zm : mode z = 4 := by
      rw [← h3, ← mode_noted hy, ← hz]
      exact get_wr_reg _ _ _ _ _ _ _ _ (by decide)
    have zt : z.pwr.trans = none := by rw [← h4, ← hy.pwr, ← hz]; rfl
    have zot : z.ot = s.ot := by rw [← hy.ot, ← hz]; rfl
    unfold holdEnds
    rw [zm, zt, if_pos (by decide), (begun 5 z zt).2.2, zm, zot]

/-! ## Resets -/

theorem rd_cold (m : Member) (p : List Instr) (f h : List Host.Cell) (o : Map W32) (fns : List Nat) (w : Pwr) (ret : Option Bool) (free : Nat) (r : RegId) (i j : Nat) :
    rd (State.coldStart m p f h o fns w ret free) r i j = BitVec.ofNat 32 r.desc.reset := rfl

theorem whole_resets {s : State} (i : Instr) (bit : Nat) (hi : (i = .powerOn ∧ bit = 0) ∨ (i = .aonRstN ∧ bit = 1) ∨ (i = .railFault 0 ∧ bit = 0)) :
      ∃ t, exec i s = .next t ∧ rd t .rstCause = BitVec.ofNat 32 (2 ^ bit) ∧ t.bst.releaseDue = true ∧ t.bst.todo = [] ∧
        t.sch.tasks = [] ∧ t.hst.allocs = [] ∧ t.cnt = [] ∧ t.pending = s.pending ∧
        ∀ r, r ≠ .rstCause → r ≠ .lcState → ∀ i j, rd t r i j = BitVec.ofNat 32 r.desc.reset := by
  have key : ∀ f, rd (resetAll bit f s) .rstCause = BitVec.ofNat 32 (2 ^ bit) ∧ (resetAll bit f s).bst.releaseDue = true ∧ (resetAll bit f s).bst.todo = [] ∧ (resetAll bit f s).sch.tasks = [] ∧
      (resetAll bit f s).hst.allocs = [] ∧ (resetAll bit f s).cnt = [] ∧ (resetAll bit f s).pending = s.pending ∧
      ∀ r, r ≠ .rstCause → r ≠ .lcState → ∀ i j, rd (resetAll bit f s) r i j = BitVec.ofNat 32 r.desc.reset := by
    intro f
    unfold resetAll
    refine ⟨rd_wr_same _ _ _ _ _, rfl, rfl, rfl, rfl, rfl, rfl, fun r h1 h2 i j => ?_⟩
    rw [rd_wr_reg h1, rd_put_reg _ _ _ _ _ _ _ _ h2, rd_cold]
  rcases hi with ⟨rfl, rfl⟩ | ⟨rfl, rfl⟩ | ⟨rfl, rfl⟩
  · exact ⟨_, rfl, key _⟩
  · exact ⟨_, rfl, key _⟩
  · exact ⟨_, rfl, key _⟩

theorem cold_regs (f : List Host.Cell) (p : Pwr) (s : State) : (∀ r ∈ [RegId.rstCause, .railGood, .wakeEn, .alarmLo, .alarmHi], rd (coldBlocks f p s) r = rd s r) ∧
    ∀ r, r ∉ [RegId.rstCause, .railGood, .wakeEn, .alarmLo, .alarmHi, .lcState] → ∀ i j, rd (coldBlocks f p s) r i j = BitVec.ofNat 32 r.desc.reset := by
  unfold coldBlocks
  dsimp only
  constructor
  · intro r hr
    rw [rd_put_reg _ _ _ _ _ _ _ _ (by intro e; subst e; revert hr; decide)]
    simp only [List.mem_cons, List.not_mem_nil, or_false] at hr
    rcases hr with rfl | rfl | rfl | rfl | rfl
    · rw [rd_wr_reg (by decide), rd_wr_reg (by decide), rd_wr_same]
    · rw [rd_wr_reg (by decide), rd_wr_reg (by decide), rd_wr_reg (by decide), rd_wr_same]
    · rw [rd_wr_reg (by decide), rd_wr_reg (by decide), rd_wr_reg (by decide), rd_wr_reg (by decide), rd_wr_same]
    · rw [rd_wr_reg (by decide), rd_wr_same]
    · rw [rd_wr_same]
  · intro r hr i j
    simp only [List.mem_cons, List.not_mem_nil, or_false, not_or] at hr
    rw [rd_put_reg _ _ _ _ _ _ _ _ hr.2.2.2.2.2, rd_wr_reg hr.2.2.2.2.1, rd_wr_reg hr.2.2.2.1, rd_wr_reg hr.1, rd_wr_reg hr.2.1, rd_wr_reg hr.2.2.1, rd_cold]

theorem noteCause_bit (bit : Nat) (o : Bool) (s : State) (hb : bit < 7) : hasBit (noteCause bit o s) fld.rstCause.RST_CAUSE bit = true ∧
    (∀ r, r ≠ .rstCause → ∀ i j, rd (noteCause bit o s) r i j = rd s r i j) := by
  unfold noteCause
  refine ⟨?_, fun r h i j => rd_wr_reg h _ _ _ _ _ _⟩
  unfold hasBit get
  rw [show fld.rstCause.RST_CAUSE.reg = .rstCause from rfl, rd_wr_same]
  show (bitsOf _ 0 7 / 2 ^ bit % 2 == 1) = true
  unfold bitsOf
  rw [BitVec.toNat_ofNat, beq_iff_eq]
  have : ((Nat.lor (if o then (rd s .rstCause).toNat else 0) (2 ^ bit)) % 2 ^ 32 / 2 ^ 0 % 2 ^ 7).testBit bit = true := by
    rw [Nat.testBit_mod_two_pow, Nat.testBit_div_two_pow, Nat.testBit_mod_two_pow, show Nat.lor = (· ||| ·) from rfl]
    simp only [Nat.testBit_lor]
    simp; omega
  rw [Nat.testBit_eq_decide_div_mod_eq] at this
  exact of_decide_eq_true this

theorem block_resets {s : State} {fn : Nat} (i : Instr) (bit : Nat) (hi : (i = .sysRstN ∧ bit = 2) ∨ (i = .softRst fn ∧ bit = 3 ∧ Writable s fn .pwrCmd 0 0) ∨
        (∃ rail, i = .railFault rail ∧ 0 < rail ∧ rail < 9 ∧ mode s ≠ 0 ∧ bit = 4)) :
      ∃ t, exec i s = .next t ∧ hasBit t fld.rstCause.RST_CAUSE bit = true ∧ t.bst.releaseDue = true ∧ t.bst.todo = [] ∧ t.sch.tasks = [] ∧
        t.hst.allocs = [] ∧ t.cnt = [] ∧ t.fmem = s.fmem ∧ t.bst.retained = s.bst.retained ∧ t.pwr.slow = s.pwr.slow ∧
        (∀ r ∈ [RegId.wakeEn, .alarmLo, .alarmHi], rd t r = rd s r) ∧
        (∀ rail, i = .railFault rail → get t fld.railGood.SUPPLY_FAIL = 2 ^ rail % 512 ∧
          get t fld.railGood.RAIL_GOOD = Nat.land (get s fld.railGood.RAIL_GOOD) (0x1FF - 2 ^ rail)) ∧
        ∀ r, r ∉ [RegId.rstCause, .railGood, .wakeEn, .alarmLo, .alarmHi, .lcState] → ∀ i j,
          rd t r i j = BitVec.ofNat 32 r.desc.reset := by
  have key : ∀ u : State, u.fmem = s.fmem → u.bst = s.bst → u.pwr.slow = s.pwr.slow → (∀ r ∈ [RegId.wakeEn, .alarmLo, .alarmHi], rd u r = rd s r) → ∀ bit, bit < 7 →
      hasBit (resetBlocks bit u) fld.rstCause.RST_CAUSE bit = true ∧ (resetBlocks bit u).bst.releaseDue = true ∧ (resetBlocks bit u).bst.todo = [] ∧ (resetBlocks bit u).sch.tasks = [] ∧
        (resetBlocks bit u).hst.allocs = [] ∧ (resetBlocks bit u).cnt = [] ∧ (resetBlocks bit u).fmem = s.fmem ∧ (resetBlocks bit u).bst.retained = s.bst.retained ∧
        (resetBlocks bit u).pwr.slow = s.pwr.slow ∧ (∀ r ∈ [RegId.wakeEn, .alarmLo, .alarmHi], rd (resetBlocks bit u) r = rd s r) ∧
        rd (resetBlocks bit u) .railGood = rd u .railGood ∧
        ∀ r, r ∉ [RegId.rstCause, .railGood, .wakeEn, .alarmLo, .alarmHi, .lcState] → ∀ i j, rd (resetBlocks bit u) r i j = BitVec.ofNat 32 r.desc.reset := by
    intro u h1 h2 h3 h4 bit hb
    obtain ⟨n1, n2⟩ := noteCause_bit bit (!u.pwr.held.isEmpty) u hb
    unfold resetBlocks
    dsimp only
    generalize hy : noteCause bit (!u.pwr.held.isEmpty) u = y at n1 n2
    have y0 : y.fmem = u.fmem ∧ y.bst = u.bst ∧ y.pwr = u.pwr := by rw [← hy]; exact ⟨rfl, rfl, rfl⟩
    obtain ⟨c1, c2⟩ := cold_regs y.fmem { pwrReset with slow := y.pwr.slow, held := y.pwr.held ++ [bit], supplyEv := y.pwr.supplyEv, clocks := y.pwr.clocks } y
    refine ⟨?_, rfl, rfl, rfl, rfl, rfl, ?_, ?_, ?_, fun r hr => ?_, ?_, c2⟩
    · rw [← n1]; exact hasBit_rd (c1 _ (by decide)) _
    · show y.fmem = _; rw [y0.1, h1]
    · show y.bst.retained = _; rw [y0.2.1, h2]
    · show y.pwr.slow = _; rw [y0.2.2, h3]
    · rw [c1 r (by revert hr; simp; intro h; rcases h with rfl | rfl | rfl <;> simp), n2 r (by intro e; subst e; revert hr; decide), h4 r hr]
    · rw [c1 _ (by decide), n2 _ (by decide)]
  rcases hi with ⟨rfl, rfl⟩ | ⟨rfl, rfl, hw⟩ | ⟨rail, rfl, r1, r2, r3, rfl⟩
  · obtain ⟨k1, k2, k3, k4, k5, k6, k7, k8, k9, k9', _, k11⟩ := key s rfl rfl rfl (fun _ _ => rfl) 2 (by decide)
    exact ⟨_, rfl, k1, k2, k3, k4, k5, k6, k7, k8, k9, k9', fun _ h => (by simp at h), k11⟩
  · obtain ⟨x, hx, hex⟩ := hostWrite_of hw 0x100 softReset
    obtain ⟨k1, k2, k3, k4, k5, k6, k7, k8, k9, k9', _, k11⟩ := key x hx.same.1 (by rw [hx.frame]) (by rw [hx.pwr]) (fun r hr => hx.reg r 0 0 (by intro e; subst e; revert hr; decide)) 3 (by decide)
    exact ⟨_, congrArg Host.Outcome.next hex, k1, k2, k3, k4, k5, k6, k7, k8, k9, k9', fun _ h => (by simp at h), k11⟩
  · generalize hu : railLost rail (put fld.railGood.SUPPLY_FAIL (2 ^ rail) { s with pwr := { s.pwr with supplyEv := true } }) = u
    unfold railLost at hu
    have ug : get u fld.railGood.SUPPLY_FAIL = 2 ^ rail % 512 := by
      rw [← hu, get_put_fld _ _ _ _ _ _ (by rfl) (by decide) (by decide), get_put_same _ _ _ _ _ (by decide)]; rfl
    have ur : get u fld.railGood.RAIL_GOOD = Nat.land (get s fld.railGood.RAIL_GOOD) (0x1FF - 2 ^ rail) := by
      rw [← hu, get_put_same _ _ _ _ _ (by decide), get_put_fld _ _ _ _ _ _ (by rfl) (by decide) (by decide)]
      exact Nat.mod_eq_of_lt (Nat.lt_of_le_of_lt Nat.and_le_right (Nat.lt_of_le_of_lt (Nat.sub_le _ _) (by decide) : 0x1FF - 2 ^ rail < 2 ^ 9))
    obtain ⟨k1, k2, k3, k4, k5, k6, k7, k8, k9, k9', k10, k11⟩ := key u (by rw [← hu, put_fmem, put_fmem]) (by rw [← hu, put_bst, put_bst]) (by rw [← hu, put_pwr, put_pwr])
      (fun r hr => by
        rw [← hu, rd_put_reg _ _ _ _ _ _ _ _ (by intro e; subst e; revert hr; decide), rd_put_reg _ _ _ _ _ _ _ _ (by intro e; subst e; revert hr; decide)]; rfl) 4 (by decide)
    refine ⟨_, ?_, k1, k2, k3, k4, k5, k6, k7, k8, k9, k9', fun q hq => ?_, k11⟩
    · show execRailFault rail s = _
      unfold execRailFault
      rw [if_neg (by omega), if_neg (by omega), if_neg r3, ← hu]
      rfl
    · simp only [Instr.railFault.injEq] at hq
      rw [get_of_rd (f := fld.railGood.SUPPLY_FAIL) k10, get_of_rd (f := fld.railGood.RAIL_GOOD) k10, ug, ur, hq]
      exact ⟨rfl, rfl⟩


/-! ## Release from reset -/

/-- What an OTP word that fails its check, or a refused OTP_GO, leaves. -/
theorem otpFault_rest (s : State) : (otpFault s).otp = s.otp ∧ (otpFault s).pwr = s.pwr ∧ (otpFault s).bst = s.bst ∧ (otpFault s).member = s.member ∧
    ∀ r, r ≠ .otpCtrl → r ≠ .ringTail → r ≠ .ringStatus → r ≠ .hostStatus → ∀ i j, rd (otpFault s) r i j = rd s r i j := by
  unfold otpFault
  refine ⟨raise0_otp _ _, raise0_pwr _ _, raise0_bst _ _, ?_, fun r h1 h2 h3 h4 i j => ?_⟩
  · rw [(eventOnly_raise0 118 _).frame]; rfl
  · rw [rd_raise0 _ _ _ _ _ h2 h3 h4, rd_put_reg _ _ _ _ _ _ _ _ h1, rd_bump]

/-- The value that a factory trim is loaded at (R361). -/
def trimOf (s : State) (k : Nat) : Nat :=
  if Config.trimCheck k (otpWord s (64 + k)) then (otpWord s (64 + k)).toNat % 65536 else (Config.trimMid k).toNat

theorem loadTrim_rest (k : Nat) (s : State) : (loadTrim k s).otp = s.otp ∧ (loadTrim k s).pwr = s.pwr ∧ (loadTrim k s).bst = s.bst ∧
    (loadTrim k s).member = s.member ∧ get (loadTrim k s) fld.fact.FACT k = trimOf s k ∧
    (∀ i, i ≠ k → get (loadTrim k s) fld.fact.FACT i = get s fld.fact.FACT i) ∧
    ∀ r, r ≠ .fact → r ≠ .otpCtrl → r ≠ .ringTail → r ≠ .ringStatus → r ≠ .hostStatus → ∀ i j, rd (loadTrim k s) r i j = rd s r i j := by
  unfold loadTrim trimOf
  dsimp only
  split
  · refine ⟨rfl, rfl, rfl, rfl, ?_, fun i h => ?_, fun r h _ _ _ _ i j => rd_put_reg _ _ _ _ _ _ _ _ h⟩
    · rw [get_put_same _ _ _ _ _ (by decide)]; rfl
    · exact get_put_idx _ _ _ _ _ _ _ (by rfl) h
  · obtain ⟨o1, o2, o3, o4, o5⟩ := otpFault_rest (put fld.fact.FACT (Config.trimMid k).toNat s k)
    refine ⟨o1, o2, o3, o4, ?_, fun i h => ?_, fun r h1 h2 h3 h4 h5 i j => ?_⟩
    · rw [get_of_rd (f := fld.fact.FACT) (o5 _ (by decide) (by decide) (by decide) (by decide) _ _), get_put_same _ _ _ _ _ (by decide)]
      exact Nat.mod_eq_of_lt (Config.trimMid k).isLt
    · rw [get_of_rd (f := fld.fact.FACT) (o5 _ (by decide) (by decide) (by decide) (by decide) _ _)]
      exact get_put_idx _ _ _ _ _ _ _ (by rfl) h
    · rw [o5 r h2 h3 h4 h5, rd_put_reg _ _ _ _ _ _ _ _ h1]

theorem loadTrims_fact (s : State) (k : Nat) (hk : k < 60) : get (loadTrims s) fld.fact.FACT k = trimOf s k := by
  have same : ∀ u : State, u.otp = s.otp → trimOf u k = trimOf s k := fun u h => by unfold trimOf otpWord; rw [h]
  have res := forEach_mem (P := fun u => u.otp = s.otp) (Q := fun u => u.otp = s.otp ∧ get u fld.fact.FACT k = trimOf s k)
    (f := loadTrim) k (fun b u _ h => (loadTrim_rest b u).1.trans h)
    (fun u h => ⟨(loadTrim_rest k u).1.trans h, (loadTrim_rest k u).2.2.2.2.1.trans (same u h)⟩)
    (fun b u h => ⟨(loadTrim_rest b u).1.trans h.1, by
      by_cases e : k = b
      · subst e; exact (loadTrim_rest k u).2.2.2.2.1.trans (same u h.1)
      · rw [← h.2]; exact (loadTrim_rest b u).2.2.2.2.2.1 k e⟩)
    (List.range 60) (List.mem_range.mpr hk) s rfl
  exact res.2

theorem loadTrims_rest (s : State) : (loadTrims s).pwr = s.pwr ∧ (loadTrims s).bst = s.bst ∧ (loadTrims s).member = s.member ∧
    ∀ r, r ≠ .fact → r ≠ .otpCtrl → r ≠ .ringTail → r ≠ .ringStatus → r ≠ .hostStatus → ∀ i j, rd (loadTrims s) r i j = rd s r i j := by
  unfold loadTrims
  refine ⟨?_, ?_, ?_, fun r h1 h2 h3 h4 h5 i j => ?_⟩
  · exact forEach_same (fun u => u.pwr) loadTrim (fun k u => (loadTrim_rest k u).2.1) _ _
  · exact forEach_same (fun u => u.bst) loadTrim (fun k u => (loadTrim_rest k u).2.2.1) _ _
  · exact forEach_same (fun u => u.member) loadTrim (fun k u => (loadTrim_rest k u).2.2.2.1) _ _
  · exact forEach_same (fun u => rd u r i j) loadTrim (fun k u => (loadTrim_rest k u).2.2.2.2.2.2 r h1 h2 h3 h4 h5 i j) _ _

/-- What a loss or return of a reference input may touch where no test is left to run, but the 25 MHz reference's loss. -/
def clockBits : Nat := footprint [.ringTail, .ringStatus, .hostStatus, .pcieLink, .portStatus, .portEvent, .twinStatus, .twinEvent, .clkStatus, .pwrEvent]
  [.cnt, .hmem, .hst, .prt, .twn]

theorem serdesLost_idle {s x : State} (h : x.bst.todo = []) (hw : Within clockBits s x) : Within clockBits s (serdesLost x) := by
  generalize hy : twinLaneTo 1 false (twinLaneTo 0 false
    (forEach (List.range 16) (fun p t => settleLink p (setPort p { portOf t p with pcsUp := false } t)) x)) = y
  have wy : ∀ z, Within clockBits z x → Within clockBits z y := fun z hz => by
    rw [← hy]
    exact within_twinLaneTo _ _ (by decide +kernel) (within_twinLaneTo _ _ (by decide +kernel)
      (hz.forEach (fun p u hu => within_settleLink p (by decide +kernel) (within_setPort p _ (by decide +kernel) hu))))
  have yb : y.bst = x.bst := (wy x (Within.refl x)).part .bst (by decide +kernel)
  have e : serdesLost x = y := by
    unfold serdesLost
    dsimp only
    rw [hy, yb, h]
  rw [e]
  exact wy s hw

theorem reportClock_idle {s x : State} (n : Nat) (lost : Bool) (hn : n = 1 → lost = false) (h : x.bst.todo = []) (hw : Within clockBits s x) :
    Within clockBits s (reportClock n lost x) := by
  unfold reportClock
  split
  · exact hw
  · extract_lets v y z
    have wz : ∀ q, Within clockBits q x → Within clockBits q z := fun q hq =>
      within_raise0 106 (by decide +kernel) (within_setBit _ _ _ _ (by decide +kernel) (within_put _ _ _ _ (by decide +kernel) hq))
    have zb : z.bst = x.bst := (wz x (Within.refl x)).part .bst (by decide +kernel)
    split
    · rename_i hl
      unfold clockLost
      split
      · exact absurd (hn rfl) (by simp [hl])
      · exact serdesLost_idle (by rw [zb]; exact h) (wz s hw)
      · exact within_pcieLinkTo _ _ _ (by decide +kernel) (wz s hw)
      · exact within_pcieLinkTo _ _ _ (by decide +kernel) (wz s hw)
      · exact wz s hw
    · exact wz s hw

theorem findClocks_idle {s : State} (h : s.bst.todo = []) (h1 : s.pwr.clocks.testBit 1 = false) : Within clockBits s (findClocks s) := by
  unfold findClocks
  refine (Within.refl s).forEach (fun n u hu => ?_)
  exact reportClock_idle n _ (by rintro rfl; exact h1) (by rw [hu.part .bst (by decide +kernel)]; exact h) hu

theorem abort_release (s : State) : (abortTests s).bst.releaseDue = s.bst.releaseDue := by
  have e0 : ∀ u, (endRotStep u).bst.releaseDue = u.bst.releaseDue := by
    intro u
    unfold endRotStep
    dsimp only
    split <;> split <;> first | rfl | (rw [raise0_bst]; rfl)
  have e1 : ∀ b u, (abortBlock b u).bst = u.bst := fun b u => by
    unfold abortBlock
    rw [raise0_bst]; rfl
  have e2 : (abortRot s).bst.releaseDue = s.bst.releaseDue := by
    unfold abortRot
    split
    · rfl
    · dsimp only
      rw [e0]
      show (abortBlock _ s).bst.releaseDue = _
      rw [e1]
  unfold abortTests
  dsimp only
  split
  · exact e2
  · show (abortBlock _ _).bst.releaseDue = _
    rw [e1]; exact e2

theorem arriveSafe_release (cause : Nat) (s : State) : (arriveSafe cause s).bst.releaseDue = s.bst.releaseDue := by
  generalize hx : (if role (abortTests s) = 2 then lapse (abortTests s) else if role (abortTests s) = 0 || role (abortTests s) = 7 then abortTests s else setRole 1 (abortTests s)) = x
  have xb : x.bst = (abortTests s).bst := by
    rw [← hx]
    split
    · exact (within_lapse (μ := outside [] [.bst]) (by decide +kernel) (Within.refl (abortTests s))).part .bst (by decide +kernel)
    · split <;> rfl
  have yb : (cutOutputs (cancelAll (disableAll x))).bst = x.bst :=
    (within_cutOutputs (μ := outside [] [.bst]) (by decide +kernel) (within_cancelAll (by decide +kernel) (within_disableAll (by decide +kernel) (Within.refl x)))).part .bst (by decide +kernel)
  generalize hy : cutOutputs (cancelAll (disableAll x)) = y at yb
  generalize hz : put fld.safeCause.SAFE_CAUSE cause { y with pwr := { y.pwr with image := none, gated := [], selfRef := false } } = z
  have e : arriveSafe cause s = raise0 110 (enterMode 7 z) := by
    rw [← hz, ← hy, ← hx]; rfl
  have zb : z.bst = y.bst := by rw [← hz]; rfl
  rw [e, raise0_bst]
  have : (enterMode 7 z).bst = z.bst := by
    unfold enterMode
    rw [raise0_bst]
    show (if _ then z else endTrans z).bst = _
    split <;> rfl
  rw [this, zb, yb, xb, abort_release]

theorem startTime_rest (s : State) : (startTime s).pwr = s.pwr ∧ (startTime s).bst = s.bst ∧ (startTime s).member = s.member ∧ (startTime s).otp = s.otp ∧
    (startTime s).regs = s.regs := by
  unfold startTime
  exact ⟨rfl, rfl, rfl, rfl, rfl⟩

theorem release_held {s : State} (b : BitVec 2) (rails : BitVec 9) (hm : mode s = 1) (hd : s.bst.releaseDue = true)
    (h : rails ≠ 0x1FF ∨ s.pwr.clocks.testBit 1 = true) : exec (.resetRelease b rails) s = .next (put fld.railGood.RAIL_GOOD rails.toNat s) := by
  show execResetRelease b rails s = _
  unfold execResetRelease
  rw [hm, hd, if_neg (by decide)]
  dsimp only
  rw [if_pos]
  rcases h with h | h
  · exact Bool.or_eq_true_iff.mpr (.inl (decide_eq_true h))
  · rw [show (put fld.railGood.RAIL_GOOD rails.toNat s).pwr = s.pwr from rfl, h]; simp

theorem releases {s : State} (b : BitVec 2) (hm : mode s = 1) (hd : s.bst.releaseDue = true) (hc : s.pwr.clocks.testBit 1 = false) (ht : s.bst.todo = []) :
    ∃ t, exec (.resetRelease b 0x1FF) s = .next t ∧
      t.bst.releaseDue = false ∧ (∀ k, k < 60 → get t fld.fact.FACT k = trimOf s k) ∧
      (b = 3 → mode t = 7 ∧ get t fld.safeCause.SAFE_CAUSE = 5) ∧
      (b ≠ 3 → s.member = .zx9160 ∨ s.bst.retained ≠ some true → t.bst.kind = 1 ∧ t.bst.todo = startBlocks s.member) ∧
      (b ≠ 3 → s.member ≠ .zx9160 → s.bst.retained = some true → on t fld.bistStatus.RET_VALID = true ∧
        t.pwr.image = if b = 1 then none else some 0) := by
  generalize hr : put fld.railGood.RAIL_GOOD 0x1FF s = r0
  have r0b : r0.bst = s.bst ∧ r0.pwr = s.pwr ∧ r0.member = s.member ∧ r0.otp = s.otp := by
    rw [← hr]; exact ⟨put_bst _ _ _ _ _, put_pwr _ _ _ _ _, put_member _ _ _ _ _, put_otp _ _ _ _ _⟩
  generalize hx : startTime (wr .bootStatus 0 { r0 with
      pwr := { r0.pwr with held := [], bootMode := b.toNat }
      bst := { r0.bst with releaseDue := false, retained := none } }) = x
  have x1 : x.pwr = { s.pwr with held := [], bootMode := b.toNat } := by rw [← hx, (startTime_rest _).1, wr_pwr, r0b.2.1]
  have x2 : x.bst = { s.bst with releaseDue := false, retained := none } := by rw [← hx, (startTime_rest _).2.1, wr_bst, r0b.1]
  have x3 : x.member = s.member := by rw [← hx, (startTime_rest _).2.2.1, wr_member, r0b.2.2.1]
  have x4 : x.otp = s.otp := by rw [← hx, (startTime_rest _).2.2.2.1, wr_otp, r0b.2.2.2]
  have x5 : mode x = 1 := by
    rw [← hm, ← hx]
    unfold mode
    rw [get_congr (startTime_rest _).2.2.2.2, get_wr_reg _ _ _ _ _ _ _ _ (by decide), ← get_put_reg fld.railGood.RAIL_GOOD fld.pwrMode.MODE 0x1FF s 0 0 0 0 (by decide), hr]
    rfl
  obtain ⟨l1, l2, l3, l4⟩ := loadTrims_rest x
  have lf : ∀ k, k < 60 → get (loadTrims x) fld.fact.FACT k = trimOf s k := fun k hk => by
    rw [loadTrims_fact _ _ hk]; unfold trimOf otpWord; rw [x4]
  generalize hw : loadTrims x = w at l1 l2 l3 l4 lf
  have fw := findClocks_idle (s := w) (by rw [l2, x2]; exact ht) (by rw [l1, x1]; exact hc)
  generalize hy : findClocks w = y at fw
  have y1 : y.pwr = { s.pwr with held := [], bootMode := b.toNat } := Eq.trans (fw.part .pwr (by decide +kernel)) (l1.trans x1)
  have y2 : y.bst = { s.bst with releaseDue := false, retained := none } := Eq.trans (fw.part .bst (by decide +kernel)) (l2.trans x2)
  have y3 : y.member = s.member := Eq.trans (fw.part .member (by decide +kernel)) (l3.trans x3)
  have yf : ∀ k, k < 60 → get y fld.fact.FACT k = trimOf s k := fun k hk => (get_of_rd (f := fld.fact.FACT) (fw.reg .fact (by decide +kernel) _ _)).trans (lf k hk)
  have ym : mode y = 1 := by
    unfold mode
    rw [get_of_rd (f := fld.pwrMode.MODE) (fw.reg .pwrMode (by decide +kernel) _ _),
      get_of_rd (f := fld.pwrMode.MODE) (l4 _ (by decide) (by decide) (by decide) (by decide) (by decide) _ _)]
    exact x5
  have go : exec (.resetRelease b 0x1FF) s = if b = 3 then .next (enterSafe 5 y) else if (s.member != .zx9160 && s.bst.retained == some true) = true then
      .next (bootNext (put fld.bistStatus.RET_VALID 1 y)) else .next (startSet 1 (startBlocks s.member) y) := by
    show execResetRelease b 0x1FF s = _
    unfold execResetRelease
    rw [hm, hd, if_neg (by decide)]
    dsimp only
    rw [show (0x1FF : BitVec 9).toNat = 0x1FF from rfl, hr, r0b.2.1, hc, if_neg (by simp)]
    rw [← r0b.2.1, hx, hw, hy, y3, r0b.1]
  by_cases h3 : b = 3
  · rw [go, if_pos h3]
    have es : enterSafe 5 y = arriveSafe 5 y := by
      unfold enterSafe
      rw [ym]; rfl
    refine ⟨_, rfl, ?_, fun k hk => ?_, fun _ => ?_, fun h => absurd h3 h, fun h => absurd h3 h⟩
    · rw [es, arriveSafe_release, y2]
    · rw [es, ← yf k hk]
      exact get_of_rd ((within_arriveSafe 5 (μ := outside [.fact] []) (by decide +kernel) (Within.refl y)).reg .fact (by decide +kernel) k 0)
    · rw [es]
      obtain ⟨a1, a2, _⟩ := arriveSafe_is 5 y
      exact ⟨a1, a2⟩
  rw [if_neg h3] at go
  by_cases hk : (s.member != .zx9160 && s.bst.retained == some true) = true
  · rw [if_pos hk] at go
    simp only [Bool.and_eq_true, bne_iff_ne, ne_eq, beq_iff_eq] at hk
    refine ⟨_, go, ?_, fun k hk => ?_, fun h => absurd h h3, fun _ h => ?_, fun _ _ _ => ⟨?_, ?_⟩⟩
    · show y.bst.releaseDue = _
      rw [y2]
    · rw [← yf k hk]
      show get (put fld.bistStatus.RET_VALID 1 y) fld.fact.FACT k = _
      exact get_put_reg _ _ _ _ _ _ _ _ (by decide)
    · rcases h with h | h
      · exact absurd h hk.1
      · exact absurd hk.2 h
    · show on (put fld.bistStatus.RET_VALID 1 y) fld.bistStatus.RET_VALID = true
      rw [on_put_same _ _ _ _ _ (by decide) (by decide)]; rfl
    · show (if y.pwr.bootMode = 1 then none else some 0) = _
      rw [y1]
      have : (b.toNat = 1) ↔ (b = 1) := by constructor <;> intro h; exact BitVec.eq_of_toNat_eq (by simpa using h); rw [h]; rfl
      simp only [this]
  · rw [if_neg hk] at go
    obtain ⟨a1, a2, _, a4, _, a6⟩ := startSet_is 1 (startBlocks s.member) y (startBlocks_some _)
    refine ⟨_, go, ?_, fun k hk => ?_, fun h => absurd h h3, fun _ _ => ⟨a1, a2⟩, fun _ h1 h2 => absurd (by simp [h1, h2]) hk⟩
    · rw [a4, y2]
    · rw [← yf k hk]
      exact get_of_rd (a6 _ (by decide) (by decide) _ _)

/-! ## Clocks, voltage, temperature -/

theorem bit_changed (v n : Nat) (hv : v < 32) (hn : n < 5) (lost : Bool) (h : (v / 2 ^ n % 2 == 1) ≠ lost) :
    ((if lost then v + 2 ^ n else v - 2 ^ n) % 2 ^ 5 / 2 ^ n % 2 == 1) = lost := by
  have : n = 0 ∨ n = 1 ∨ n = 2 ∨ n = 3 ∨ n = 4 := by omega
  rcases this with rfl | rfl | rfl | rfl | rfl <;> cases lost <;> revert v <;> decide

theorem noteClock_bit (n : Nat) (lost : Bool) (s : State) : (noteClock n lost s).pwr.clocks.testBit n = lost := by
  unfold noteClock
  dsimp only
  split
  · next h => exact eq_of_beq h
  · next h =>
    cases lost
    · have hb : s.pwr.clocks.testBit n = true := by simpa using h
      have hle : 2 ^ n ≤ s.pwr.clocks := Nat.ge_two_pow_of_testBit hb
      have e := Nat.testBit_two_pow_add_eq (s.pwr.clocks - 2 ^ n) n
      rw [Nat.add_sub_cancel' hle, hb] at e
      rw [if_neg (by decide)]
      cases hq : (s.pwr.clocks - 2 ^ n).testBit n
      · rfl
      · rw [hq] at e; exact absurd e (by decide)
    · have hb : s.pwr.clocks.testBit n = false := by simpa using h
      rw [if_pos rfl, Nat.add_comm, Nat.testBit_two_pow_add_eq, hb]; rfl

theorem clock_held {s : State} (n : Nat) (lost : Bool) (hn : n < 5) (h : mode s = 0 ∨ s.bst.releaseDue = true) :
    ∃ t, exec (.refClockLoss n lost) s = .next t ∧ t = { s with pwr := { s.pwr with clocks := t.pwr.clocks } } ∧ t.pwr.clocks.testBit n = lost := by
  refine ⟨noteClock n lost s, ?_, rfl, noteClock_bit n lost s⟩
  show execRefClockLoss n lost s = _
  unfold execRefClockLoss
  rw [if_neg (by omega)]
  dsimp only
  rw [if_pos]
  have e1 : mode (noteClock n lost s) = mode s := rfl
  have e2 : (noteClock n lost s).bst = s.bst := rfl
  rw [e1, e2]
  rcases h with h | h <;> simp [h]

theorem clock_losses {s : State} (n : Nat) (lost : Bool) (h0 : mode s ≠ 0) (hr : s.bst.releaseDue = false) (hn : n < 5)
    (hb : hasBit s fld.clkStatus.CLK_STATUS n ≠ lost) :
      ∃ t, exec (.refClockLoss n lost) s = .next t ∧ hasBit t fld.clkStatus.CLK_STATUS n = lost ∧
        hasBit t fld.pwrEvent.PWR_EVENT 1 = true ∧
        (lost = true → n = 1 → mode s ≠ 7 → ∃ tr, t.pwr.trans = some tr ∧ tr.target = 7 ∧ 4 ≤ tr.cause) := by
  generalize hq : noteClock n lost s = q
  have qr : ∀ r i j, rd q r i j = rd s r i j := fun r i j => by rw [← hq]; rfl
  have qb : q.bst = s.bst := by rw [← hq]; rfl
  have qm : mode q = mode s := get_of_rd (f := fld.pwrMode.MODE) (qr _ _ _)
  have qh : hasBit q fld.clkStatus.CLK_STATUS n = hasBit s fld.clkStatus.CLK_STATUS n := hasBit_rd (qr _ _ _) _
  generalize hv : get q fld.clkStatus.CLK_STATUS = v
  have hlt : v < 32 := by rw [← hv]; exact get_lt q fld.clkStatus.CLK_STATUS 0 0
  generalize hp : put fld.clkStatus.CLK_STATUS (if lost then v + 2 ^ n else v - 2 ^ n) q = p
  have p1 : hasBit p fld.clkStatus.CLK_STATUS n = lost := by
    unfold hasBit
    rw [← hp, get_put_same _ _ _ _ _ (by decide)]
    exact bit_changed v n hlt hn lost (by rw [← hv]; exact fun e => hb (qh ▸ e))
  generalize hx : raise0 106 (setBit fld.pwrEvent.PWR_EVENT 1 p) = x
  have x1 : hasBit x fld.clkStatus.CLK_STATUS n = lost := by
    rw [← hx, hasBit_raise0 _ _ _ _ _ _ (by decide) (by decide) (by decide), ← p1]
    exact hasBit_rd (rd_setBit_reg _ _ _ _ _ _ _ _ (by decide)) _
  have x2 : hasBit x fld.pwrEvent.PWR_EVENT 1 = true := by
    rw [← hx, hasBit_raise0 _ _ _ _ _ _ (by decide) (by decide) (by decide), hasBit_setBit _ _ _ _ _ (by decide) (by decide)]
  have x3 : mode x = mode s := by
    rw [← qm]
    unfold mode
    rw [← hx, get_raise0 _ _ _ _ _ (by decide) (by decide) (by decide), get_setBit_reg _ _ _ _ _ _ _ _ (by decide), ← hp, get_put_reg _ _ _ _ _ _ _ _ (by decide)]
  refine ⟨if lost then clockLost n x else x, ?_, ?_, ?_, fun h1 h2 h3 => ?_⟩
  · show execRefClockLoss n lost s = _
    unfold execRefClockLoss
    rw [if_neg (by omega)]
    dsimp only
    rw [hq, qm, qb, hr, if_neg (by simp [h0])]
    unfold reportClock
    rw [qh, if_neg (by simpa using hb)]
    dsimp only
    rw [hv, hp, hx]
  · split
    · rw [← x1]
      exact hasBit_rd ((within_clockLost n (μ := outside [.clkStatus] []) (by decide +kernel) (Within.refl x)).reg .clkStatus (by decide +kernel) 0 0) _
    · exact x1
  · split
    · rw [← x2]
      exact hasBit_rd ((within_clockLost n (μ := outside [.pwrEvent] []) (by decide +kernel) (Within.refl x)).reg .pwrEvent (by decide +kernel) 0 0) _
    · exact x2
  · subst h1 h2
    obtain ⟨tr, e1, e2, e3, _⟩ := enterSafe_begins 4 x (by rw [x3]; exact h0) (by rw [x3]; exact h3) (.inr (by decide))
    refine ⟨tr, ?_, e2, e3⟩
    show (enterSafe 4 x).pwr.trans = some tr
    rw [e1]; rfl

theorem clocked_fails (s : State) (o : W64) (f : BitVec 48) (q : Nat) :
    ({ s with ot := o, otFrac := f, pwr := { s.pwr with slow := q } } : State).pwr.avsFails = s.pwr.avsFails := rfl

theorem advance_fails (t : W64) (s : State) : (advance t s).pwr.avsFails = s.pwr.avsFails :=
  (congrArg (fun u => u.pwr.avsFails) (advance_frame t s)).trans (clocked_fails s _ _ _)

theorem avs_commands {s : State} (h0 : mode s ≠ 0) (he : on s fld.avsCtrl.AVS_EN = true) (hf : s.pwr.avsFails < 3) (at_ : W64)
    (ha : at_ = (match s.pwr.avsAt with | none => s.ot | some a => timeAt s (a + 100000))) :
      (∃ t, exec (.avsCommand true) s = .next t ∧ get t fld.avsCtrl.VCORE_MV = avsStep s % 1024 ∧ t.pwr.avsFails = 0 ∧
        t.pwr.avsAt = some at_ ∧ t.pwr.vout = some (get s fld.avsCtrl.AVS_ADDR, avsStep s / 5) ∧ t.ot = at_) ∧
      (∃ t, exec (.avsCommand false) s = .next t ∧ get t fld.avsCtrl.VCORE_MV = get s fld.avsCtrl.VCORE_MV ∧
        t.pwr.avsFails = s.pwr.avsFails + 1 ∧ t.pwr.vout = some (get s fld.avsCtrl.AVS_ADDR, avsStep s / 5) ∧ t.ot = at_ ∧
        (s.pwr.avsFails = 2 → hasBit t fld.pwrEvent.PWR_EVENT 2 = true ∧
          t.pwr.coreMhz = min s.pwr.coreMhz (Config.coreAllowed (get s fld.avsCtrl.VCORE_MV)))) := by
  generalize hx : avsDue s = x
  obtain ⟨x1, x2, x3, x4, x5⟩ : x.ot = at_ ∧ (∀ r i j, rd x r i j = rd s r i j) ∧ x.free = s.free ∧ x.pwr.avsFails = s.pwr.avsFails ∧
      x.pwr.coreMhz = s.pwr.coreMhz := by
    cases hv : s.pwr.avsAt with
    | none =>
      have e : x = s := by rw [← hx]; unfold avsDue; rw [hv]
      rw [hv] at ha
      rw [e, ha]
      exact ⟨rfl, fun _ _ _ => rfl, rfl, rfl, rfl⟩
    | some a =>
      have e : x = advance (a + 100000) s := by rw [← hx]; unfold avsDue; rw [hv]
      rw [hv] at ha
      dsimp only at ha
      generalize a + 100000 = z at e ha
      rw [e, ha]
      exact ⟨advance_ot _ _, fun r i j => rd_advance _ _ _ _ _, by rw [advance_frame], advance_fails _ _, by rw [advance_frame]⟩
  have xs : avsStep x = avsStep s := by unfold avsStep avsGoal; rw [x3, get_of_rd (f := fld.avsCtrl.VCORE_MV) (x2 _ _ _)]
  have xa : get x fld.avsCtrl.AVS_ADDR = get s fld.avsCtrl.AVS_ADDR := get_of_rd (x2 _ _ _)
  have c : (mode s = 0 || !on s fld.avsCtrl.AVS_EN || 3 ≤ s.pwr.avsFails) = false := by simp [h0, he]; omega
  constructor
  · refine ⟨put fld.avsCtrl.VCORE_MV (avsStep x) (draw { x with pwr := { x.pwr with avsAt := some x.ot, avsFails := 0, vout := some (get x fld.avsCtrl.AVS_ADDR, voutWord (avsStep x)) } }), ?_, ?_, rfl, ?_, ?_, x1⟩
    · show execAvsCommand true s = _
      unfold execAvsCommand
      rw [c, if_neg (by decide)]
      dsimp only
      rw [hx]
      rfl
    · rw [get_put_same _ _ _ _ _ (by decide), xs]; rfl
    · show some x.ot = _; rw [x1]
    · show some (get x fld.avsCtrl.AVS_ADDR, voutWord (avsStep x)) = _; rw [xa, xs]; rfl
  · generalize hy : draw { x with pwr := { x.pwr with avsAt := some x.ot, avsFails := x.pwr.avsFails + 1, vout := some (get x fld.avsCtrl.AVS_ADDR, voutWord (avsStep x)) } } = y
    have y1 : y.ot = at_ := by rw [← hy]; exact x1
    have y2 : y.pwr.avsFails = s.pwr.avsFails + 1 := by rw [← hy, ← x4]; rfl
    have y3 : ∀ r i j, rd y r i j = rd s r i j := fun r i j => by rw [← hy, ← x2]; rfl
    have y4 : y.pwr.vout = some (get s fld.avsCtrl.AVS_ADDR, avsStep s / 5) := by rw [← hy, ← xa, ← xs]; rfl
    have y5 : y.pwr.coreMhz = s.pwr.coreMhz := by rw [← hy, ← x5]; rfl
    generalize hz : ({ y with pwr := { y.pwr with coreMhz := Nat.min y.pwr.coreMhz (Config.coreAllowed (get y fld.avsCtrl.VCORE_MV)) } } : State) = z
    have z1 : z.ot = y.ot ∧ z.pwr.avsFails = y.pwr.avsFails ∧ z.pwr.vout = y.pwr.vout ∧ (∀ r i j, rd z r i j = rd y r i j) ∧
        z.pwr.coreMhz = min s.pwr.coreMhz (Config.coreAllowed (get s fld.avsCtrl.VCORE_MV)) := by
      refine ⟨by rw [← hz], by rw [← hz], by rw [← hz], fun r i j => by rw [← hz]; rfl, ?_⟩
      rw [← hz]
      show Nat.min y.pwr.coreMhz _ = _
      rw [y5, get_of_rd (f := fld.avsCtrl.VCORE_MV) (y3 _ 0 0)]
    have go : exec (.avsCommand false) s = .next (if y.pwr.avsFails = 3 then raise0 107 (setBit fld.pwrEvent.PWR_EVENT 2 z) else y) := by
      show execAvsCommand false s = _
      unfold execAvsCommand
      rw [c, if_neg (by decide)]
      dsimp only
      rw [hx]
      simp only [Bool.false_eq_true, if_false]
      dsimp only at hy
      rw [hy, hz]
      split <;> rfl
    refine ⟨_, go, ?_, ?_, ?_, ?_, fun h2 => ?_⟩
    · rw [← get_of_rd (f := fld.avsCtrl.VCORE_MV) (y3 _ 0 0)]
      split
      · rw [get_raise0 _ _ _ _ _ (by decide) (by decide) (by decide), get_setBit_reg _ _ _ _ _ _ _ _ (by decide)]
        exact get_of_rd (z1.2.2.2.1 _ _ _)
      · rfl
    · rw [← y2]; split
      · rw [raise0_pwr]; exact z1.2.1
      · rfl
    · rw [← y4]; split
      · rw [raise0_pwr]; exact z1.2.2.1
      · rfl
    · rw [← y1]; split
      · rw [raise0_ot]; exact z1.1
      · rfl
    · rw [if_pos (by rw [y2, h2])]
      refine ⟨?_, ?_⟩
      · rw [hasBit_raise0 _ _ _ _ _ _ (by decide) (by decide) (by decide), hasBit_setBit _ _ _ _ _ (by decide) (by decide)]
      · rw [raise0_pwr]; exact z1.2.2.2.2

theorem temperature {s : State} (h0 : mode s ≠ 0) (temp : Byte) : ∃ t, exec (.dieTempCross temp) s = .next t ∧ get t fld.dieTemp.DIE_TEMP = temp.toNat ∧
      (sgn 8 (get s fld.dieTemp.DIE_TEMP) < sgn 8 (get s fld.dieTemp.TEMP_WARN) →
        sgn 8 (get s fld.dieTemp.TEMP_WARN) ≤ temp.toInt → hasBit t fld.pwrEvent.PWR_EVENT 3 = true) ∧
      (115 ≤ temp.toInt → mode s ≠ 7 → ∃ tr, t.pwr.trans = some tr ∧ tr.target = 7 ∧ 3 ≤ tr.cause) := by
  generalize hy : (if sgn 8 (get s fld.dieTemp.DIE_TEMP) < sgn 8 (get s fld.dieTemp.TEMP_WARN) ∧ sgn 8 (get s fld.dieTemp.TEMP_WARN) ≤ temp.toInt then
      raise0 108 (setBit fld.pwrEvent.PWR_EVENT 3 (put fld.dieTemp.DIE_TEMP temp.toNat s)) else put fld.dieTemp.DIE_TEMP temp.toNat s) = y
  have y1 : get y fld.dieTemp.DIE_TEMP = temp.toNat := by
    rw [← hy]
    split
    · rw [get_raise0 _ _ _ _ _ (by decide) (by decide) (by decide), get_setBit_reg _ _ _ _ _ _ _ _ (by decide), get_put_same _ _ _ _ _ (by decide)]
      exact Nat.mod_eq_of_lt temp.isLt
    · rw [get_put_same _ _ _ _ _ (by decide)]
      exact Nat.mod_eq_of_lt temp.isLt
  have y2 : sgn 8 (get s fld.dieTemp.DIE_TEMP) < sgn 8 (get s fld.dieTemp.TEMP_WARN) → sgn 8 (get s fld.dieTemp.TEMP_WARN) ≤ temp.toInt → hasBit y fld.pwrEvent.PWR_EVENT 3 = true := by
    intro a1 a2
    rw [← hy, if_pos ⟨a1, a2⟩, hasBit_raise0 _ _ _ _ _ _ (by decide) (by decide) (by decide), hasBit_setBit _ _ _ _ _ (by decide) (by decide)]
  have y3 : mode y = mode s := by
    unfold mode
    rw [← hy]
    split
    · rw [get_raise0 _ _ _ _ _ (by decide) (by decide) (by decide), get_setBit_reg _ _ _ _ _ _ _ _ (by decide), get_put_reg _ _ _ _ _ _ _ _ (by decide)]
    · rw [get_put_reg _ _ _ _ _ _ _ _ (by decide)]
  refine ⟨if 115 ≤ temp.toInt then enterSafe 3 y else y, ?_, ?_, fun a1 a2 => ?_, fun a1 a2 => ?_⟩
  · show execDieTempCross temp s = _
    unfold execDieTempCross
    rw [if_neg h0]
    dsimp only
    rw [hy]
  · rw [← y1]
    split
    · exact get_of_rd ((within_enterSafe 3 (μ := outside [.dieTemp] []) (by decide +kernel) (Within.refl y)).reg .dieTemp (by decide +kernel) 0 0)
    · rfl
  · rw [← y2 a1 a2]
    split
    · exact hasBit_rd ((within_enterSafe 3 (μ := outside [.pwrEvent] []) (by decide +kernel) (Within.refl y)).reg .pwrEvent (by decide +kernel) 0 0) _
    · rfl
  · obtain ⟨tr, e1, e2, e3, _⟩ := enterSafe_begins 3 y (by rw [y3]; exact h0) (by rw [y3]; exact a2) (.inr (by decide))
    refine ⟨tr, ?_, e2, e3⟩
    rw [if_pos a1, e1]; rfl

/-! ## Wake and slow time -/

theorem wake_is (s : State) : mode (wake s) = 1 ∧ rd (wake s) .rstCause = 0x40 ∧ (wake s).pwr = s.pwr := by
  unfold wake
  refine ⟨?_, ?_, by rw [raise0_pwr]; rfl⟩
  · unfold mode
    rw [get_raise0 _ _ _ _ _ (by decide) (by decide) (by decide)]
    exact mode_put_mode 1 _ (by decide)
  · rw [rd_raise0 _ _ _ _ _ (by decide) (by decide) (by decide), rd_put_reg _ _ _ _ _ _ _ _ (by decide)]
    unfold noteCause
    rw [rd_wr_same, if_neg (by decide)]; rfl

theorem wakes {s : State} (h0 : mode s = 0) :
      (∀ src, src < 4 → src ≠ 1 → hasBit s fld.wakeEn.WAKE_EN src = true → ∃ t, exec (.wakeSource src) s = .next t ∧ mode t = 1 ∧
        rd t .rstCause = 0x40) ∧
      (∀ i, i = .slowAlarm ∨ i = .wakeSource 1 → hasBit s fld.wakeEn.WAKE_EN 1 = true → s.pwr.slow / slowTick ≤ alarmTime s → ∃ t, exec i s = .next t ∧
        mode t = 1 ∧ rd t .rstCause = 0x40 ∧ t.pwr.slow = Nat.max s.pwr.slow (alarmTime s * slowTick)) := by
  constructor
  · intro src h1 h2 h3
    obtain ⟨w1, w2, _⟩ := wake_is s
    refine ⟨wake s, ?_, w1, w2⟩
    show execWakeSource src s = _
    unfold execWakeSource
    rw [if_neg h2, h0, h3, if_pos (by simp [h1])]
  · intro i hi h1 h2
    generalize hx : ({ s with pwr := { s.pwr with slow := Nat.max s.pwr.slow (alarmTime s * slowTick) } } : State) = x
    obtain ⟨w1, w2, w3⟩ := wake_is x
    refine ⟨wake x, ?_, w1, w2, by rw [w3, ← hx]⟩
    have e : exec i s = .next (alarmReached s) := by rcases hi with rfl | rfl <;> rfl
    rw [e]
    unfold alarmReached
    rw [h0, h1, if_neg (by simp; omega), hx]

theorem slow_reads {s : State} {fn : Nat} (h : Reaches s fn .slowLo 0 0) : ∃ t, exec (.slowLoRead fn) s = .next t ∧
      t.rdata = leBytes 4 ((slowTime s).toNat % 2 ^ 32) ∧ rd t .slowHi = BitVec.ofNat 32 ((slowTime s).toNat / 2 ^ 32) := by
  refine ⟨_, congrArg Host.Outcome.next (hostRead_of h slowLoRead), ?_, ?_⟩
  · show leBytes 4 (BitVec.ofNat 32 _).toNat = _
    rw [BitVec.toNat_ofNat]
  · rw [rd_rdata]
    unfold slowLoRead
    rw [rd_wr_same]

end Sys2Proof.Machine
end

