-- ==== Sys2Proof/Laws/SelfTest.lean ====
section
/-!
SUPPORT. Boot, self-test and cluster rotation.
-/

namespace Sys2Proof.Machine

set_option Elab.async false


theorem on_of_rd {s u : State} {f : Fld} {i j : Nat} (h : rd u f.reg i j = rd s f.reg i j) : on u f i j = on s f i j := by
  unfold on; rw [get_of_rd h]

/-! ## Boot -/

theorem boot_goes {s : State} {fn : Nat} (h : Writable s fn .bootGo 0 0) (ha : awaitsHost s = true) : ∃ t, exec (.bootGo fn) s = .next t ∧
      t.pwr.image = some (2 + fn / 16 % 2) ∧ rd t .bootStatus = 0 := by
  have e := hostWrite_plain h (by decide) 1 (bootGoWrite fn)
  refine ⟨bootGoWrite fn s, congrArg Host.Outcome.next e, ?_, ?_⟩
  · unfold bootGoWrite
    rw [if_pos ha]; rfl
  · unfold bootGoWrite
    rw [if_pos ha, rd_wr_same]

theorem enterMode_mode (m : Nat) (s : State) (hm : m < 8) : mode (enterMode m s) = m ∧ (enterMode m s).pwr.image = s.pwr.image ∧ (enterMode m s).bst = s.bst ∧
    (∀ r, r ≠ .pwrMode → r ≠ .ringTail → r ≠ .ringStatus → r ≠ .hostStatus → ∀ i j, rd (enterMode m s) r i j = rd s r i j) := by
  unfold enterMode
  refine ⟨?_, ?_, ?_, fun r h1 h2 h3 h4 i j => ?_⟩
  · unfold mode
    rw [get_raise0 _ _ _ _ _ (by decide) (by decide) (by decide)]
    exact mode_put_mode m _ hm
  · rw [raise0_pwr, put_pwr]
    split <;> rfl
  · rw [raise0_bst, put_bst]
    split <;> rfl
  · rw [rd_raise0 _ _ _ _ _ h2 h3 h4, rd_put_reg _ _ _ _ _ _ _ _ h1]
    split
    · rfl
    · unfold endTrans
      rw [rd_put_reg _ _ _ _ _ _ _ _ h1]; rfl

theorem bootDone_is (src : Nat) (s : State) (h : src < 4) : mode (bootDone src s) = 3 ∧ on (bootDone src s) fld.bootStatus.DONE = true ∧
    get (bootDone src s) fld.bootStatus.SRC = src ∧ (bootDone src s).pwr.image = none := by
  generalize hx : put fld.bootStatus.DONE 1 (put fld.bootStatus.SRC src { s with pwr := { s.pwr with image := none } }) = x
  have e : bootDone src s = raise0 109 (enterMode 3 x) := by rw [← hx]; rfl
  obtain ⟨m1, m2, _, m4⟩ := enterMode_mode 3 x (by decide)
  rw [e]
  refine ⟨?_, ?_, ?_, ?_⟩
  · unfold mode
    rw [get_raise0 _ _ _ _ _ (by decide) (by decide) (by decide)]; exact m1
  · rw [on_raise0 _ _ _ _ _ (by decide) (by decide) (by decide)]
    unfold on
    rw [get_of_rd (f := fld.bootStatus.DONE) (m4 _ (by decide) (by decide) (by decide) (by decide) _ _), ← hx, get_put_same _ _ _ _ _ (by decide)]; rfl
  · rw [get_raise0 _ _ _ _ _ (by decide) (by decide) (by decide), get_of_rd (f := fld.bootStatus.SRC) (m4 _ (by decide) (by decide) (by decide) (by decide) _ _), ← hx,
      get_put_fld _ _ _ _ _ _ (by rfl) (by decide) (by decide), get_put_same _ _ _ _ _ (by decide)]
    exact Nat.mod_eq_of_lt h
  · rw [raise0_pwr, m2, ← hx]; rfl

theorem arriveSafe_image (cause : Nat) (s : State) : (arriveSafe cause s).pwr.image = none := by
  generalize hx : (if role (abortTests s) = 2 then lapse (abortTests s) else if role (abortTests s) = 0 || role (abortTests s) = 7 then abortTests s else setRole 1 (abortTests s)) = x
  generalize hy : cutOutputs (cancelAll (disableAll x)) = y
  generalize hz : put fld.safeCause.SAFE_CAUSE cause { y with pwr := { y.pwr with image := none, gated := [], selfRef := false } } = z
  have e : arriveSafe cause s = raise0 110 (enterMode 7 z) := by
    rw [← hz, ← hy, ← hx]; rfl
  rw [e, raise0_pwr, (enterMode_mode 7 z (by decide)).2.1, ← hz]; rfl

theorem bootReject_is (src err : Nat) (s : State) (he : err < 16) : get (bootReject src err s) fld.bootStatus.ERR = err ∧
    (src = 0 → (bootReject src err s).pwr.image = some 1) ∧ (src ≠ 0 → (bootReject src err s).pwr.image = none) ∧
    (mode s = 1 → src = 1 → s.pwr.bootMode = 2 → mode (bootReject src err s) = 7 ∧ get (bootReject src err s) fld.safeCause.SAFE_CAUSE = 5) := by
  generalize hx : raise0 109 (put fld.bootStatus.ERR err s) = x
  have x1 : get x fld.bootStatus.ERR = err := by
    rw [← hx, get_raise0 _ _ _ _ _ (by decide) (by decide) (by decide), get_put_same _ _ _ _ _ (by decide)]
    exact Nat.mod_eq_of_lt he
  have x2 : x.pwr = s.pwr := by rw [← hx, raise0_pwr]; rfl
  have x3 : mode x = mode s := by
    unfold mode
    rw [← hx, get_raise0 _ _ _ _ _ (by decide) (by decide) (by decide), get_put_reg _ _ _ _ _ _ _ _ (by decide)]
  generalize hy : ({ x with pwr := { x.pwr with image := none } } : State) = y
  have y1 : mode y = mode s := by rw [← x3, ← hy]; rfl
  have y2 : y.pwr = { s.pwr with image := none } := by rw [← x2, ← hy]
  have e : bootReject src err s = if src = 0 then { x with pwr := { x.pwr with image := some 1 } } else if (src = 1 && s.pwr.bootMode == 2) = true then enterSafe 5 y else y := by
    unfold bootReject
    rw [hx, ← x2, ← hy]
  have image : ∀ u : State, u.pwr.image = none → (enterSafe 5 u).pwr.image = none := by
    intro u hu
    unfold enterSafe
    split
    · exact hu
    · split
      · unfold endTrans
        rw [put_pwr]
        dsimp only
        split <;> exact hu
      · split
        · exact arriveSafe_image 5 u
        · exact hu
  refine ⟨?_, fun h => ?_, fun h => ?_, fun h1 h2 h3 => ?_⟩
  · rw [e]
    split
    · exact x1
    · split
      · rw [← x1]
        refine (get_of_rd ((within_enterSafe 5 (μ := outside [.bootStatus] []) (by decide +kernel) (Within.refl y)).reg .bootStatus (by decide +kernel) 0 0)).trans ?_
        rw [← hy]; rfl
      · rw [← x1, ← hy]; rfl
  · rw [e, if_pos h]
  · rw [e, if_neg h]
    split
    · exact image y (by rw [y2])
    · rw [y2]
  · have es : enterSafe 5 y = arriveSafe 5 y := by
      unfold enterSafe
      rw [y1, h1]; rfl
    rw [e, h2, h3, if_neg (by decide), if_pos (by decide), es]
    obtain ⟨a1, a2, _⟩ := arriveSafe_is 5 y
    exact ⟨a1, a2⟩


theorem imageError_lt (s : State) (b : List Byte) : imageError s b < 16 := by
  unfold imageError
  dsimp only
  repeat' split
  all_goals decide

/-- What rejects an image rests on registers and OTP words alone. -/
theorem imageError_congr {s u : State} (hr : u.regs = s.regs) (ho : u.otp = s.otp) (b : List Byte) : imageError u b = imageError s b := by
  have k : ∀ h, keyTrusted u h = keyTrusted s h := fun h => by unfold keyTrusted keySlot otpWord; rw [get_congr hr, ho]
  have v : svnMin u = svnMin s := by unfold svnMin otpWord; rw [ho]
  unfold imageError
  simp only [k, v]

theorem image_checks {s : State} (flash : Option FlashRead) (src : Nat) (h1 : mode s = 1) (h2 : s.pwr.image = some src) :
    ∃ t, exec (.bootImageCheck flash) s = .next t ∧
      ∀ img s0, img = (if 2 ≤ src then some (hostImage s) else flash.map (fun x => flashImage src x.cells)) →
      s0 = (if 2 ≤ src then s else flash.elim s (fun x => { s with pwr := { s.pwr with octal := x.octal } })) →
      (∀ err, err = (match img with | none => 6 | some b => imageError s b) → err ≠ 0 →
        get t fld.bootStatus.ERR = err ∧ (src = 0 → t.pwr.image = some 1) ∧ (src ≠ 0 → t.pwr.image = none) ∧
        (src = 1 → s.pwr.bootMode = 2 → mode t = 7 ∧ get t fld.safeCause.SAFE_CAUSE = 5)) ∧
      (∀ b ws, img = some b → imageError s b = 0 → ws = bodyWords (imageBody b) → src < 4 →
        ((loadBody ws.length ws s0).2 = true → mode t = 3 ∧ on t fld.bootStatus.DONE = true ∧
          get t fld.bootStatus.SRC = src ∧ t.pwr.image = none) ∧
        ((loadBody ws.length ws s0).2 = false → get t fld.bootStatus.ERR = 5)) := by
  generalize hi : (if 2 ≤ src then some (hostImage s) else flash.map (fun x => flashImage src x.cells)) = im
  generalize hs0 : (if 2 ≤ src then s else flash.elim s (fun x => { s with pwr := { s.pwr with octal := x.octal } })) = u
  have um : mode u = mode s ∧ u.pwr.bootMode = s.pwr.bootMode ∧ ∀ b, imageError u b = imageError s b := by
    rw [← hs0]
    split
    · exact ⟨rfl, rfl, fun _ => rfl⟩
    · cases flash with
      | none => exact ⟨rfl, rfl, fun _ => rfl⟩
      | some x => exact ⟨rfl, rfl, fun b => imageError_congr rfl rfl b⟩
  have go : exec (.bootImageCheck flash) s = .next (im.elim (bootReject src 6 u) (fun b => takeImage src b u)) := by
    show execBootImageCheck flash s = _
    unfold execBootImageCheck
    rw [h1, h2, if_neg (by decide)]
    dsimp only
    by_cases h : 2 ≤ src
    · rw [if_pos h] at hi hs0
      rw [if_pos h, ← hi, ← hs0]; rfl
    · rw [if_neg h] at hi hs0
      rw [if_neg h, ← hi, ← hs0]
      cases flash with
      | none => rfl
      | some x =>
        dsimp only [Option.map, Option.elim]
  refine ⟨_, go, fun img s0 hm hs1 => ?_⟩
  rw [hs1]
  subst hm
  have u1 : mode u = 1 := um.1.trans h1
  cases img with
  | none =>
    refine ⟨fun err he _ => ?_, fun b ws hb => by simp at hb⟩
    subst he
    obtain ⟨a1, a2, a3, a4⟩ := bootReject_is src 6 u (by decide)
    exact ⟨a1, a2, a3, fun k1 k2 => a4 u1 k1 (um.2.1.trans k2)⟩
  | some b =>
    refine ⟨fun err he hne => ?_, fun c ws hb h0 hws hs => ?_⟩
    · subst he
      obtain ⟨a1, a2, a3, a4⟩ := bootReject_is src (imageError s b) u (imageError_lt s b)
      have e : takeImage src b u = bootReject src (imageError s b) u := by
        unfold takeImage
        dsimp only
        rw [um.2.2, if_pos (by simpa using hne)]
      dsimp only [Option.elim]
      rw [e]
      exact ⟨a1, a2, a3, fun k1 k2 => a4 u1 k1 (um.2.1.trans k2)⟩
    · simp only [Option.some.injEq] at hb
      subst hb
      have e : takeImage src b u = if (loadBody ws.length ws u).2 = true then bootDone src (loadBody ws.length ws u).1 else bootReject src 5 (loadBody ws.length ws u).1 := by
        unfold takeImage
        dsimp only
        rw [um.2.2, h0, if_neg (by decide), hws]
      dsimp only [Option.elim]
      rw [e]
      constructor
      · intro h
        rw [if_pos h]
        exact bootDone_is src _ hs
      · intro h
        rw [h, if_neg (by decide)]
        exact (bootReject_is src 5 _ (by decide)).1

/-! ## Blocks under test -/

theorem blockResult_is (b : Nat) (ran pass : Bool) (s : State) : get (blockResult b ran pass s) fld.bistRes.RESULT b = (if !ran then 3 else if pass then 1 else 2) ∧
    (∀ k, k ≠ b → rd (blockResult b ran pass s) .bistRes k = rd s .bistRes k) ∧
    (blockResult b ran pass s).bst.todo = s.bst.todo ∧ (blockResult b ran pass s).bst.kind = s.bst.kind ∧ (blockResult b ran pass s).bst.blocks = s.bst.blocks ∧
    (blockResult b ran pass s).bst.rotStep = s.bst.rotStep ∧ (blockResult b ran pass s).bst.removed = s.bst.removed ∧
    (∀ r, r ≠ .bistRes → r ≠ .bistEvent → r ≠ .ringTail → r ≠ .ringStatus → r ≠ .hostStatus → ∀ i j, rd (blockResult b ran pass s) r i j = rd s r i j) ∧
    (ran = true → pass = false → hasBit (blockResult b ran pass s) fld.bistEvent.BIST_EVENT 1 = true ∧
      counter (blockResult b ran pass s) Cnt.bistFail.ctorIdx = counter s Cnt.bistFail.ctorIdx + 1) := by
  unfold blockResult
  cases ran
  · rw [if_pos (by rfl)]
    unfold abortBlock
    refine ⟨?_, fun k hk => ?_, ?_, ?_, ?_, ?_, ?_, fun r g1 g2 g3 g4 g5 i j => ?_, fun h => by simp at h⟩
    · rw [get_raise0 _ _ _ _ _ (by decide) (by decide) (by decide), get_setBit_reg _ _ _ _ _ _ _ _ (by decide)]
      refine (get_of_rd (f := fld.bistRes.RESULT) (rd_bump _ _ _ _ _)).trans ?_
      rw [get_put_same _ _ _ _ _ (by decide)]; rfl
    · rw [rd_raise0 _ _ _ _ _ (by decide) (by decide) (by decide), rd_setBit_reg _ _ _ _ _ _ _ _ (by decide), rd_bump]
      exact rd_wr_idx .bistRes hk _ _ _
    all_goals try (rw [raise0_bst]; rfl)
    rw [rd_raise0 _ _ _ _ _ g3 g4 g5, rd_setBit_reg _ _ _ _ _ _ _ _ g2, rd_bump, rd_put_reg _ _ _ _ _ _ _ _ g1]
  · rw [if_neg (by decide)]
    cases pass
    · rw [if_neg (by decide)]
      unfold failBlock
      dsimp only
      refine ⟨?_, fun k hk => ?_, ?_, ?_, ?_, ?_, ?_, fun r g1 g2 g3 g4 g5 i j => ?_, fun _ _ => ⟨?_, ?_⟩⟩
      · rw [get_raise0 _ _ _ _ _ (by decide) (by decide) (by decide), get_setBit_reg _ _ _ _ _ _ _ _ (by decide)]
        refine (get_of_rd (f := fld.bistRes.RESULT) (rd_bump _ _ _ _ _)).trans ?_
        rw [get_put_same _ _ _ _ _ (by decide)]; rfl
      · rw [rd_raise0 _ _ _ _ _ (by decide) (by decide) (by decide), rd_setBit_reg _ _ _ _ _ _ _ _ (by decide), rd_bump]
        exact (rd_wr_idx .bistRes hk _ _ _).trans (rd_bst _ _ _ _ _)
      all_goals try (rw [raise0_bst]; rfl)
      · rw [rd_raise0 _ _ _ _ _ g3 g4 g5, rd_setBit_reg _ _ _ _ _ _ _ _ g2, rd_bump, rd_put_reg _ _ _ _ _ _ _ _ g1, rd_bst]
      · rw [hasBit_raise0 _ _ _ _ _ _ (by decide) (by decide) (by decide), hasBit_setBit _ _ _ _ _ (by decide) (by decide)]
      · rw [counter_raise0 _ _ _ (by decide) (by decide)]
        refine (counter_congr (s := bump .bistFail (put fld.bistRes.RESULT 2 { s with bst := { s.bst with retained := none } } b)) rfl _).trans ?_
        rw [counter_bump, if_pos rfl]
        rfl
    · rw [if_pos rfl]
      refine ⟨?_, fun k hk => rd_wr_idx .bistRes hk _ _ _, rfl, rfl, rfl, rfl, rfl, fun r g1 g2 g3 g4 g5 i j => rd_put_reg _ _ _ _ _ _ _ _ g1, fun _ h => by simp at h⟩
      rw [get_put_same _ _ _ _ _ (by decide)]; rfl

theorem startBlock_is (b : Nat) (s : State) : get (startBlock b s) fld.bistRes.RESULT b = 4 ∧ (∀ k, k ≠ b → rd (startBlock b s) .bistRes k = rd s .bistRes k) ∧
    (startBlock b s).bst = s.bst ∧ on (startBlock b s) fld.bistStatus.BUSY = true ∧
    (∀ r, r ≠ .bistRes → r ≠ .bistStatus → ∀ i j, rd (startBlock b s) r i j = rd s r i j) ∧
    (∀ k, k ≠ Cnt.bistRuns.ctorIdx → counter (startBlock b s) k = counter s k) := by
  unfold startBlock
  refine ⟨?_, fun k hk => ?_, rfl, ?_, fun r g1 g2 i j => ?_, fun k hk => ?_⟩
  · refine (get_of_rd (f := fld.bistRes.RESULT) (rd_bump _ _ _ _ _)).trans ?_
    rw [get_put_reg _ _ _ _ _ _ _ _ (by decide), get_put_fld _ _ _ _ _ _ (by rfl) (by decide) (by decide), get_put_same _ _ _ _ _ (by decide)]; rfl
  · rw [rd_bump, rd_put_reg _ _ _ _ _ _ _ _ (by decide)]
    exact (rd_wr_idx .bistRes hk _ _ _).trans (rd_wr_idx .bistRes hk _ _ _)
  · unfold on
    rw [get_of_rd (f := fld.bistStatus.BUSY) (rd_bump _ _ _ _ _), get_put_same _ _ _ _ _ (by decide)]; rfl
  · rw [rd_bump, rd_put_reg _ _ _ _ _ _ _ _ g2, rd_put_reg _ _ _ _ _ _ _ _ g1, rd_put_reg _ _ _ _ _ _ _ _ g1]
  · rw [counter_bump, if_neg hk]; rfl

/-- A set of kind 2, 3 or 4 that ends. -/
theorem finishSet_is (s : State) (hk : s.bst.kind = 2 ∨ s.bst.kind = 3 ∨ s.bst.kind = 4) : (finishSet s).bst.todo = [] ∧ (finishSet s).bst.kind = 0 ∧
    (∀ k, rd (finishSet s) .bistRes k = rd s .bistRes k) ∧ on (finishSet s) fld.bistStatus.BUSY = false ∧
    get (finishSet s) fld.bistStatus.VERDICT = setVerdict s s.bst.blocks ∧
    (s.bst.kind = 3 ∨ s.bst.kind = 4 → hasBit (finishSet s) fld.bistEvent.BIST_EVENT 0 = true) ∧ (s.bst.kind = 4 → mode (finishSet s) = 3) := by
  have vlt : setVerdict s s.bst.blocks < 4 := by unfold setVerdict; dsimp only; repeat' split
                                                 all_goals decide
  generalize hx : put fld.bistStatus.VERDICT (setVerdict s s.bst.blocks) (put fld.bistStatus.BUSY 0 { s with bst := { s.bst with todo := [], kind := 0, blocks := [] } }) = x
  have fin : finishSet s = (match s.bst.kind with
      | 1 => if setVerdict s s.bst.blocks = 2 then enterSafe 6 x else bootNext x
      | 2 => beginTrans 0 false { x with bst := { x.bst with retained := if setVerdict s s.bst.blocks = 3 then none else some (setVerdict s s.bst.blocks == 1) } }
      | 3 => raise0 112 (setBit fld.bistEvent.BIST_EVENT 0 (put fld.bistCmd.SHUTDOWN_RUN 0 { x with bst := { x.bst with retained := if setVerdict s s.bst.blocks = 3 then none else some (setVerdict s s.bst.blocks == 1) } }))
      | 4 => enterMode 3 (raise0 112 (setBit fld.bistEvent.BIST_EVENT 0 x))
      | _ => x) := by
    rw [← hx]; rfl
  generalize setVerdict s s.bst.blocks = v at vlt hx fin
  have x1 : x.bst.todo = [] ∧ x.bst.kind = 0 := by rw [← hx]; exact ⟨rfl, rfl⟩
  have x2 : ∀ k, rd x .bistRes k = rd s .bistRes k := fun k => by
    rw [← hx, rd_put_reg _ _ _ _ _ _ _ _ (by decide), rd_put_reg _ _ _ _ _ _ _ _ (by decide)]; rfl
  have x3 : on x fld.bistStatus.BUSY = false := by
    rw [← hx, on_put_fld _ _ _ _ _ _ (by rfl) (by decide) (by decide), on_put_same _ _ _ _ _ (by decide) (by decide)]; rfl
  have x4 : get x fld.bistStatus.VERDICT = v := by rw [← hx, get_put_same _ _ _ _ _ (by decide)]; exact Nat.mod_eq_of_lt vlt
  clear hx
  rcases hk with hk | hk | hk <;> rw [hk] at fin ⊢
  · generalize hy : ({ x with bst := { x.bst with retained := if v = 3 then none else some (v == 1) } } : State) = y
    have y1 : y.bst.todo = [] ∧ y.bst.kind = 0 := by rw [← hy]; exact x1
    have y2 : ∀ r i j, rd y r i j = rd x r i j := fun r i j => by rw [← hy]; rfl
    replace fin : finishSet s = beginTrans 0 false y := by rw [fin, ← hy]; rfl
    rw [fin]
    have b1 : (beginTrans 0 false y).bst = y.bst := by unfold beginTrans; split <;> rfl
    have b2 : ∀ r, r ≠ .pwrMode → ∀ i j, rd (beginTrans 0 false y) r i j = rd x r i j := fun r hr i j => by
      rw [← y2]
      unfold beginTrans
      split
      · rfl
      · exact rd_put_reg _ _ _ _ _ _ _ _ hr
    refine ⟨by rw [b1]; exact y1.1, by rw [b1]; exact y1.2, fun k => (b2 _ (by decide) _ _).trans (x2 k), ?_, ?_, fun h => by omega, fun h => by omega⟩
    · exact (on_of_rd (b2 _ (by decide) _ _)).trans x3
    · rw [← x4]; exact get_of_rd (b2 _ (by decide) _ _)
  · generalize hy : put fld.bistCmd.SHUTDOWN_RUN 0 { x with bst := { x.bst with retained := if v = 3 then none else some (v == 1) } } = y
    replace fin : finishSet s = raise0 112 (setBit fld.bistEvent.BIST_EVENT 0 y) := by rw [fin, ← hy]; rfl
    rw [fin]
    have y1 : y.bst.todo = [] ∧ y.bst.kind = 0 := by rw [← hy]; exact x1
    have y2 : ∀ r, r ≠ .bistCmd → ∀ i j, rd y r i j = rd x r i j := fun r hr i j => by rw [← hy, rd_put_reg _ _ _ _ _ _ _ _ hr]; rfl
    have b2 : ∀ r, r ≠ .bistCmd → r ≠ .bistEvent → r ≠ .ringTail → r ≠ .ringStatus → r ≠ .hostStatus → ∀ i j, rd (raise0 112 (setBit fld.bistEvent.BIST_EVENT 0 y)) r i j = rd x r i j := fun r h1 h2 h3 h4 h5 i j => by
      rw [rd_raise0 _ _ _ _ _ h3 h4 h5, rd_setBit_reg _ _ _ _ _ _ _ _ h2, y2 r h1]
    refine ⟨?_, ?_, fun k => (b2 _ (by decide) (by decide) (by decide) (by decide) (by decide) _ _).trans (x2 k), ?_, ?_, fun _ => ?_, fun h => by omega⟩
    · rw [raise0_bst]; exact y1.1
    · rw [raise0_bst]; exact y1.2
    · rw [← x3]; unfold on; rw [get_of_rd (f := fld.bistStatus.BUSY) (b2 _ (by decide) (by decide) (by decide) (by decide) (by decide) _ _)]
    · rw [← x4]; exact get_of_rd (b2 _ (by decide) (by decide) (by decide) (by decide) (by decide) _ _)
    · rw [hasBit_raise0 _ _ _ _ _ _ (by decide) (by decide) (by decide), hasBit_setBit _ _ _ _ _ (by decide) (by decide)]
  · generalize hy : raise0 112 (setBit fld.bistEvent.BIST_EVENT 0 x) = y
    replace fin : finishSet s = enterMode 3 y := by rw [fin, ← hy]; rfl
    rw [fin]
    have y1 : y.bst = x.bst := by rw [← hy, raise0_bst]; rfl
    have y2 : ∀ r, r ≠ .bistEvent → r ≠ .ringTail → r ≠ .ringStatus → r ≠ .hostStatus → ∀ i j, rd y r i j = rd x r i j := fun r h2 h3 h4 h5 i j => by
      rw [← hy, rd_raise0 _ _ _ _ _ h3 h4 h5, rd_setBit_reg _ _ _ _ _ _ _ _ h2]
    have y3 : hasBit y fld.bistEvent.BIST_EVENT 0 = true := by
      rw [← hy, hasBit_raise0 _ _ _ _ _ _ (by decide) (by decide) (by decide), hasBit_setBit _ _ _ _ _ (by decide) (by decide)]
    obtain ⟨m1, _, m3, m4⟩ := enterMode_mode 3 y (by decide)
    refine ⟨by rw [m3, y1]; exact x1.1, by rw [m3, y1]; exact x1.2, fun k => ?_, ?_, ?_, fun _ => ?_, fun _ => m1⟩
    · rw [m4 _ (by decide) (by decide) (by decide) (by decide), y2 _ (by decide) (by decide) (by decide) (by decide), x2]
    · rw [← x3]; unfold on; rw [get_of_rd (f := fld.bistStatus.BUSY) (m4 _ (by decide) (by decide) (by decide) (by decide) _ _), get_of_rd (f := fld.bistStatus.BUSY) (y2 _ (by decide) (by decide) (by decide) (by decide) _ _)]
    · rw [← x4, get_of_rd (f := fld.bistStatus.VERDICT) (m4 _ (by decide) (by decide) (by decide) (by decide) _ _), get_of_rd (f := fld.bistStatus.VERDICT) (y2 _ (by decide) (by decide) (by decide) (by decide) _ _)]
    · rw [← y3]; exact hasBit_rd (m4 _ (by decide) (by decide) (by decide) (by decide) _ _) _

theorem setVerdict_congr {s t : State} (h : ∀ k, rd t .bistRes k = rd s .bistRes k) (bs : List Nat) : setVerdict t bs = setVerdict s bs := by
  unfold setVerdict
  simp only [get_of_rd (f := fld.bistRes.RESULT) (h _)]


theorem removeCluster_is (b : Nat) (s : State) : (removeCluster b s).regs = s.regs ∧ (removeCluster b s).cnt = s.cnt ∧ (removeCluster b s).bst.todo = s.bst.todo ∧
    (removeCluster b s).bst.kind = s.bst.kind ∧ (removeCluster b s).bst.blocks = s.bst.blocks ∧ (b < 20 → b ∈ (removeCluster b s).bst.removed) := by
  unfold removeCluster
  split
  · exact ⟨rfl, rfl, rfl, rfl, rfl, fun _ => by simp⟩
  · exact ⟨rfl, rfl, rfl, rfl, rfl, fun h => by omega⟩

/-- What BIST_BLOCK_DONE leaves of a block before the next begins. -/
theorem block_ends {s : State} (b : Nat) (ran pass : Bool) (rest : List Nat) : ∃ x,
    x = (let u := blockResult b ran pass s
         let u := if ((ran && !pass) && u.bst.kind == 4) = true then removeCluster b u else u
         { u with bst := { u.bst with todo := rest } } : State) ∧ x.bst.todo = rest ∧ x.bst.kind = s.bst.kind ∧ x.bst.blocks = s.bst.blocks ∧
      (∀ r i j, rd x r i j = rd (blockResult b ran pass s) r i j) ∧ ∀ k, counter x k = counter (blockResult b ran pass s) k := by
  obtain ⟨_, _, _, r4, r5, _⟩ := blockResult_is b ran pass s
  refine ⟨_, rfl, rfl, ?_, ?_, fun r i j => ?_, fun k => ?_⟩
  all_goals dsimp only
  · split
    · rw [(removeCluster_is _ _).2.2.2.1, r4]
    · exact r4
  · split
    · rw [(removeCluster_is _ _).2.2.2.2.1, r5]
    · exact r5
  · rw [rd_bst]
    split
    · exact rd_congr (removeCluster_is _ _).1 _ _ _
    · rfl
  · show counter (if _ then _ else _) k = _
    split
    · exact counter_congr (removeCluster_is _ _).2.1 _
    · rfl

theorem blocks_done {s : State} (b : Nat) (ran sig cnt : Bool) (hr : s.bst.rotStep ≠ 2 ∨ rotCluster s ≠ b) :
      (∀ c rest, s.bst.todo = b :: c :: rest → c ≠ b → ∃ t, exec (.bistBlockDone b ran sig cnt) s = .next t ∧
        t.bst.todo = c :: rest ∧ t.bst.kind = s.bst.kind ∧
        get t fld.bistRes.RESULT b = (if !ran then 3 else if sig && cnt then 1 else 2) ∧ get t fld.bistRes.RESULT c = 4 ∧
        (ran = true → (sig && cnt) = false → hasBit t fld.bistEvent.BIST_EVENT 1 = true ∧
          counter t Cnt.bistFail.ctorIdx = counter s Cnt.bistFail.ctorIdx + 1)) ∧
      (s.bst.todo = [b] → s.bst.kind = 3 ∨ s.bst.kind = 4 → ∃ t, exec (.bistBlockDone b ran sig cnt) s = .next t ∧
        t.bst.todo = [] ∧ t.bst.kind = 0 ∧ get t fld.bistRes.RESULT b = (if !ran then 3 else if sig && cnt then 1 else 2) ∧
        on t fld.bistStatus.BUSY = false ∧ get t fld.bistStatus.VERDICT = setVerdict t s.bst.blocks ∧
        hasBit t fld.bistEvent.BIST_EVENT 0 = true ∧ (s.bst.kind = 4 → mode t = 3)) := by
  have cond : (s.bst.rotStep = 2 && rotCluster s == b) = false := by
    rcases hr with h | h <;> simp [h]
  obtain ⟨r1, r2, r3, r4, r5, _, _, _, r9⟩ := blockResult_is b ran (sig && cnt) s
  have go : ∀ rest, s.bst.todo = b :: rest → ∃ x, exec (.bistBlockDone b ran sig cnt) s = .next (nextBlock x) ∧ x.bst.todo = rest ∧ x.bst.kind = s.bst.kind ∧
      x.bst.blocks = s.bst.blocks ∧ (∀ r i j, rd x r i j = rd (blockResult b ran (sig && cnt) s) r i j) ∧ ∀ k, counter x k = counter (blockResult b ran (sig && cnt) s) k := by
    intro rest h
    obtain ⟨x, hx, x1, x2, x3, x4, x5⟩ := block_ends (s := s) b ran (sig && cnt) rest
    refine ⟨x, ?_, x1, x2, x3, x4, x5⟩
    show execBistBlockDone b ran sig cnt s = _
    unfold execBistBlockDone
    dsimp only
    rw [if_neg (by simpa using cond), h, if_pos (by simp), hx]
    dsimp only
    congr 2
    have : (if ((ran && !(sig && cnt)) && (blockResult b ran (sig && cnt) s).bst.kind == 4) = true then removeCluster b (blockResult b ran (sig && cnt) s)
        else blockResult b ran (sig && cnt) s).bst.todo = b :: rest := by
      split
      · rw [(removeCluster_is _ _).2.2.1, r3, h]
      · rw [r3, h]
    rw [this]; rfl
  constructor
  · intro c rest h hne
    obtain ⟨x, hx, x1, x2, _, x4, x5⟩ := go _ h
    have nb : nextBlock x = startBlock c x := by unfold nextBlock; rw [x1]
    obtain ⟨s1, s2, s3, s4, s5, s6⟩ := startBlock_is c x
    rw [nb] at hx
    refine ⟨_, hx, by rw [s3, x1], by rw [s3, x2], ?_, s1, fun a1 a2 => ⟨?_, ?_⟩⟩
    · rw [get_of_rd (f := fld.bistRes.RESULT) (s2 _ hne.symm), get_of_rd (f := fld.bistRes.RESULT) (x4 _ _ _), r1]
    · rw [← (r9 a1 a2).1]
      exact hasBit_rd ((s5 _ (by decide) (by decide) _ _).trans (x4 _ _ _)) _
    · rw [s6 _ (by decide), x5, (r9 a1 a2).2]
  · intro h hk
    obtain ⟨x, hx, x1, x2, x3, x4, _⟩ := go _ h
    have nb : nextBlock x = finishSet x := by unfold nextBlock; rw [x1]
    obtain ⟨f1, f2, f3, f4, f5, f6, f7⟩ := finishSet_is x (by rw [x2]; exact .inr hk)
    rw [nb] at hx
    refine ⟨_, hx, f1, f2, ?_, f4, ?_, f6 (by rw [x2]; exact hk), fun k => f7 (by rw [x2]; exact k)⟩
    · rw [get_of_rd (f := fld.bistRes.RESULT) (f3 _), get_of_rd (f := fld.bistRes.RESULT) (x4 _ _ _), r1]
    · rw [f5, x3, setVerdict_congr f3]

theorem endRotStep_is (s : State) : (endRotStep s).bst.rotStep = 0 ∧ on (endRotStep s) fld.bistStatus.ROT_ACTIVE = false ∧ (endRotStep s).bst.removed = s.bst.removed ∧
    (endRotStep s).ot = s.ot ∧ (∀ r, r ≠ .bistStatus → r ≠ .ringTail → r ≠ .ringStatus → r ≠ .hostStatus → ∀ i j, rd (endRotStep s) r i j = rd s r i j) ∧
    ∀ k, k ≠ Cnt.evtDrop.ctorIdx → k ≠ Cnt.poison.ctorIdx → counter (endRotStep s) k = counter s k := by
  generalize hx : put fld.bistStatus.ROT_ACTIVE 0 { s with bst := { s.bst with rotStep := 0 } } = x
  generalize hy : (if x.bst.todo.isEmpty then put fld.bistStatus.BUSY 0 x else x) = y
  have e : ∃ b : Bool, endRotStep s = if b = true then raise0 116 y else y := by
    refine ⟨!(List.range 20).any (fun j => decide (rotCluster s < j) && rotTakes s j), ?_⟩
    rw [← hy, ← hx]; rfl
  have x1 : on x fld.bistStatus.ROT_ACTIVE = false := by rw [← hx, on_put_same _ _ _ _ _ (by decide) (by decide)]; rfl
  have y1 : on y fld.bistStatus.ROT_ACTIVE = false := by
    rw [← hy]; split
    · rw [on_put_fld _ _ _ _ _ _ (by rfl) (by decide) (by decide)]; exact x1
    · exact x1
  have y2 : y.bst = { s.bst with rotStep := 0 } := by rw [← hy, ← hx]; split <;> rfl
  have y3 : y.ot = s.ot := by rw [← hy, ← hx]; split <;> rfl
  have y4 : ∀ r, r ≠ .bistStatus → ∀ i j, rd y r i j = rd s r i j := fun r h i j => by
    have : rd x r i j = rd s r i j := by rw [← hx, rd_put_reg _ _ _ _ _ _ _ _ h]; rfl
    rw [← this, ← hy]; split
    · exact rd_put_reg _ _ _ _ _ _ _ _ h
    · rfl
  have y5 : y.cnt = s.cnt := by rw [← hy, ← hx]; split <;> rfl
  obtain ⟨b, e⟩ := e
  rw [e]
  cases b
  · rw [if_neg (by decide)]
    exact ⟨by rw [y2], y1, by rw [y2], y3, fun r h _ _ _ => y4 r h, fun k _ _ => counter_congr y5 k⟩
  · rw [if_pos rfl]
    refine ⟨by rw [raise0_bst, y2], by rw [on_raise0 _ _ _ _ _ (by decide) (by decide) (by decide)]; exact y1, by rw [raise0_bst, y2], by rw [raise0_ot, y3],
      fun r h h1 h2 h3 i j => by rw [rd_raise0 _ _ _ _ _ h1 h2 h3, y4 r h], fun k h h2 => by rw [counter_raise0 _ _ _ h h2]; exact counter_congr y5 k⟩

theorem rotation_done {s : State} (b : Nat) (ran sig cnt : Bool) (hb : b < 20) (h2 : s.bst.rotStep = 2) (hc : rotCluster s = b) :
      ∃ t, exec (.bistBlockDone b ran sig cnt) s = .next t ∧ t.bst.rotStep = 0 ∧ on t fld.bistStatus.ROT_ACTIVE = false ∧
        get t fld.bistRes.RESULT b = (if !ran then 3 else if sig && cnt then 1 else 2) ∧ on t fld.bistRes.FIELD b = true ∧
        (ran = true → (sig && cnt) = false → b ∈ t.bst.removed) := by
  obtain ⟨r1, _⟩ := blockResult_is b ran (sig && cnt) s
  generalize hx : put fld.bistRes.FIELD 1 (blockResult b ran (sig && cnt) s) b = x
  have x1 : get x fld.bistRes.RESULT b = (if !ran then 3 else if sig && cnt then 1 else 2) := by
    rw [← hx, get_put_fld _ _ _ _ _ _ (by rfl) (by decide) (by decide), r1]
  have x2 : on x fld.bistRes.FIELD b = true := by rw [← hx, on_put_same _ _ _ _ _ (by decide) (by decide)]; rfl
  generalize hy : (if (ran && !(sig && cnt)) = true then removeCluster b x else x) = y
  have y1 : ∀ r i j, rd y r i j = rd x r i j := fun r i j => by
    rw [← hy]; split
    · exact rd_congr (removeCluster_is _ _).1 _ _ _
    · rfl
  obtain ⟨e1, e2, e3, _, e5, _⟩ := endRotStep_is y
  refine ⟨endRotStep y, ?_, e1, e2, ?_, ?_, fun a1 a2 => ?_⟩
  · show execBistBlockDone b ran sig cnt s = _
    unfold execBistBlockDone
    dsimp only
    rw [if_pos (by simp [h2, hc]), hx, hy]
  · rw [← x1]; exact get_of_rd ((e5 _ (by decide) (by decide) (by decide) (by decide) _ _).trans (y1 _ _ _))
  · rw [← x2]; exact on_of_rd ((e5 _ (by decide) (by decide) (by decide) (by decide) _ _).trans (y1 _ _ _))
  · rw [e3, ← hy, a1, a2, if_pos (by decide)]
    exact (removeCluster_is b x).2.2.2.2.2 hb

theorem rot_starts {s : State} (k : Nat) (hk : rotPick s = some k) (h4 : 4 ≤ mode s) (h6 : mode s ≤ 6) (he : on s fld.bistCmd.ROT_EN = true) (h0 : s.bst.rotStep = 0) :
      ∃ t, exec .rotStepStart s = .next t ∧ t.bst.rotStep = 1 ∧ t.bst.rotNext = k + 1 ∧ rotCluster t = k % 32 ∧
        on t fld.bistStatus.ROT_ACTIVE = true ∧ t.ot = timeAt s ((rotDue s).getD s.ot) ∧ t.bst.rotAt = some t.ot := by
  generalize hx : advance ((rotDue s).getD s.ot) s = x
  have x1 : x.ot = timeAt s ((rotDue s).getD s.ot) := by rw [← hx]; exact advance_ot _ _
  refine ⟨put fld.bistStatus.BUSY 1 (put fld.bistStatus.ROT_ACTIVE 1 (put fld.bistStatus.ROT_CLUSTER k { x with bst := { x.bst with rotStep := 1, rotAt := some x.ot, rotNext := k + 1 } })),
    ?_, rfl, rfl, ?_, ?_, x1, rfl⟩
  · show execRotStepStart s = _
    unfold execRotStepStart
    rw [if_neg (by simp [he, h0]; omega), hk]
    dsimp only
    rw [hx]
  · unfold rotCluster
    rw [get_put_fld _ _ _ _ _ _ (by rfl) (by decide) (by decide), get_put_fld _ _ _ _ _ _ (by rfl) (by decide) (by decide), get_put_same _ _ _ _ _ (by decide)]; rfl
  · rw [on_put_fld _ _ _ _ _ _ (by rfl) (by decide) (by decide), on_put_same _ _ _ _ _ (by decide) (by decide)]; rfl

theorem rot_drains {s : State} (h1 : s.bst.rotStep = 1) (k : Nat) (hk : rotCluster s = k) :
      (clusterBusy s k = false → ∃ t, exec .rotClusterDrained s = .next t ∧ t.bst.rotStep = 2 ∧
        get t fld.bistRes.RESULT k = 4 ∧ on t fld.bistStatus.BUSY = true) ∧
      (clusterBusy s k = true → ∃ t, exec .rotDrainTimeout s = .next t ∧ t.bst.rotStep = 0 ∧
        get t fld.bistRes.RESULT k = 0 ∧ counter t Cnt.rotSkip.ctorIdx = counter s Cnt.rotSkip.ctorIdx + 1 ∧
        t.ot = timeAt s (s.bst.rotAt.getD s.ot + BitVec.ofNat 64 (get s fld.rotCfg.ROT_DRAIN_US * 1000))) := by
  constructor
  · intro hb
    obtain ⟨s1, _, s3, s4, _⟩ := startBlock_is k { s with bst := { s.bst with rotStep := 2 } }
    refine ⟨startBlock k { s with bst := { s.bst with rotStep := 2 } }, ?_, by rw [s3], s1, s4⟩
    show execRotClusterDrained s = _
    unfold execRotClusterDrained
    rw [hk, hb, h1, if_neg (by decide)]
  · intro hb
    generalize hd : s.bst.rotAt.getD s.ot + BitVec.ofNat 64 (get s fld.rotCfg.ROT_DRAIN_US * 1000) = at_
    generalize hx : advance at_ s = x
    have x1 : x.ot = timeAt s at_ := by rw [← hx]; exact advance_ot _ _
    have x2 : rotCluster x = k := by unfold rotCluster; rw [← hx, get_advance]; exact hk
    have x3 : x.cnt = s.cnt := by rw [← hx, advance_frame]
    generalize hy : bump .rotSkip (put fld.bistRes.FIELD 1 (put fld.bistRes.RESULT 0 x k) k) = y
    obtain ⟨e1, _, _, e4, e5, e6⟩ := endRotStep_is y
    refine ⟨endRotStep y, ?_, e1, ?_, ?_, ?_⟩
    · show execRotDrainTimeout s = _
      unfold execRotDrainTimeout
      rw [hk, hb, h1, if_neg (by decide)]
      dsimp only
      rw [hd, hx, x2, hy]
    · rw [get_of_rd (f := fld.bistRes.RESULT) (e5 _ (by decide) (by decide) (by decide) (by decide) _ _), ← hy]
      refine (get_of_rd (f := fld.bistRes.RESULT) (rd_bump _ _ _ _ _)).trans ?_
      rw [get_put_fld _ _ _ _ _ _ (by rfl) (by decide) (by decide), get_put_same _ _ _ _ _ (by decide)]; rfl
    · rw [e6 _ (by decide) (by decide), ← hy, counter_bump, if_pos rfl]
      exact congrArg (· + 1) (counter_congr (s := s) x3 _)
    · rw [e4, ← hy]; exact x1

end Sys2Proof.Machine
end

