-- ==== Sys2Proof/Laws/Calibration.lean ====
section
/-!
SUPPORT. Self-test commands, OTP, calibration, counters and tags.
-/

namespace Sys2Proof.Machine


/-! ## Commands of the self-test -/

theorem bistCmdWord_bits (s : State) (bit : Nat) (hb : bit = 0 ∨ bit = 3) : (bistCmdWord s bit).toNat % 2 = (if bit = 0 then 1 else 0) ∧
    (bistCmdWord s bit).toNat / 8 % 2 = (if bit = 3 then 1 else 0) := by
  have e : (bistCmdWord s bit).toNat = Nat.lor (Nat.land (rd s .bistCmd).toNat 6) (2 ^ bit) := by
    unfold bistCmdWord
    rw [BitVec.toNat_ofNat, Nat.mod_eq_of_lt]
    refine Nat.or_lt_two_pow (Nat.lt_of_le_of_lt Nat.and_le_right (by decide)) ?_
    rcases hb with rfl | rfl <;> decide
  rw [e]
  have t : ∀ n k : Nat, n / 2 ^ k % 2 = (if n.testBit k = true then 1 else 0) := fun n k => by
    rw [Nat.testBit_eq_decide_div_mod_eq]
    have := Nat.mod_two_eq_zero_or_one (n / 2 ^ k)
    rcases this with h | h <;> simp [h]
  have b0 := t (Nat.lor (Nat.land (rd s .bistCmd).toNat 6) (2 ^ bit)) 0
  have b3 := t (Nat.lor (Nat.land (rd s .bistCmd).toNat 6) (2 ^ bit)) 3
  rw [Nat.pow_zero, Nat.div_one] at b0
  rw [b0, show (8 : Nat) = 2 ^ 3 from rfl, b3]
  have p : ∀ k, (Nat.lor (Nat.land (rd s .bistCmd).toNat 6) (2 ^ bit)).testBit k = (((rd s .bistCmd).toNat.testBit k && (6 : Nat).testBit k) || (2 ^ bit).testBit k) := fun k => by
    show ((rd s .bistCmd).toNat &&& 6 ||| 2 ^ bit).testBit k = _
    rw [Nat.testBit_or, Nat.testBit_and]
  rw [p, p]
  rcases hb with rfl | rfl <;> simp [Nat.testBit]

theorem shutdown_runs {s : State} {fn : Nat} (hw : Writable s fn .bistCmd 0 0) (hm : s.member ≠ .zx9160) (h3 : mode s = 3) (hb : busy s = false)
    (hk : s.bst.kind = 0) (hs : on s fld.bistCmd.SHUTDOWN_RUN = false) :
        ∃ t, exec (.shutdownRun fn) s = .next t ∧ t.bst.kind = 3 ∧ t.bst.todo = startBlocks s.member ∧
          on t fld.bistCmd.SHUTDOWN_RUN = true := by
  obtain ⟨b1, b2⟩ := bistCmdWord_bits s 0 (.inl rfl)
  have e := hostWrite_plain hw (by decide) (bistCmdWord s 0) (bistCmdWrite (isPf fn) (bistCmdWord s 0))
  generalize hx : plainWrite (isPf fn) .bistCmd 0 0 (bistCmdWord s 0) s = x at *
  have xm : x.member = s.member := by rw [← hx]; rfl
  have xr : ∀ r, r ≠ .bistCmd → ∀ i j, rd x r i j = rd s r i j := fun r h i j => by rw [← hx]; exact rd_wr_reg h _ _ _ _ _ _
  have x3 : mode x = 3 := by rw [← h3]; exact get_of_rd (f := fld.pwrMode.MODE) (xr _ (by decide) _ _)
  have xb : busy x = false := by rw [← hb]; exact on_of_rd (f := fld.pwrMode.BUSY) (xr _ (by decide) _ _)
  have xk : x.bst.kind = 0 := by rw [← hk, ← hx]; rfl
  obtain ⟨a1, a2, _, _, _, a6⟩ := startSet_is 3 (startBlocks x.member) (put fld.bistCmd.SHUTDOWN_RUN 1 x) (startBlocks_some _)
  refine ⟨_, congrArg Host.Outcome.next e, ?_⟩
  have f : bistCmdWrite (isPf fn) (bistCmdWord s 0) s = startSet 3 (startBlocks x.member) (put fld.bistCmd.SHUTDOWN_RUN 1 x) := by
    unfold bistCmdWrite
    dsimp only
    rw [hx, b1, b2, hs]
    simp only [if_pos, Bool.not_false, Bool.and_true, decide_true]
    rw [if_neg (by decide)]
    unfold shutdownSet
    rw [if_neg (by simp [xm, hm, x3, xb, xk])]
  rw [f]
  refine ⟨a1, by rw [a2, xm], ?_⟩
  rw [on_of_rd (f := fld.bistCmd.SHUTDOWN_RUN) (a6 _ (by decide) (by decide) _ _), on_put_same _ _ _ _ _ (by decide) (by decide)]; rfl

theorem stop_ends {s : State} {fn : Nat} (hw : Writable s fn .bistCmd 0 0) (b : Nat) (rest : List Nat) (ht : s.bst.todo = b :: rest)
    (hk : s.bst.kind = 2 ∨ s.bst.kind = 3 ∨ s.bst.kind = 4) :
        ∃ t, exec (.stop fn) s = .next t ∧ t.bst.todo = [] ∧ t.bst.kind = 0 ∧ get t fld.bistRes.RESULT b = 3 ∧
          on t fld.bistStatus.BUSY = false ∧ get t fld.bistStatus.VERDICT = setVerdict t s.bst.blocks := by
  obtain ⟨b1, b2⟩ := bistCmdWord_bits s 3 (.inr rfl)
  have e := hostWrite_plain hw (by decide) (bistCmdWord s 3) (bistCmdWrite (isPf fn) (bistCmdWord s 3))
  generalize hx : plainWrite (isPf fn) .bistCmd 0 0 (bistCmdWord s 3) s = x at *
  have xb : x.bst = s.bst := by rw [← hx]; rfl
  generalize hy : abortBlock b { x with bst := { x.bst with todo := [] } } = y
  have yb : y.bst = { s.bst with todo := [] } := by
    rw [← hy, ← xb]
    unfold abortBlock
    rw [raise0_bst]; rfl
  have yr : get y fld.bistRes.RESULT b = 3 := by
    rw [← hy]
    unfold abortBlock
    rw [get_raise0 _ _ _ _ _ (by decide) (by decide) (by decide), get_setBit_reg _ _ _ _ _ _ _ _ (by decide)]
    refine (get_of_rd (f := fld.bistRes.RESULT) (rd_bump _ _ _ _ _)).trans ?_
    rw [get_put_same _ _ _ _ _ (by decide)]; rfl
  obtain ⟨a1, a2, a3, a4, a5, _⟩ := finishSet_is y (by rw [yb]; exact hk)
  have f : bistCmdWrite (isPf fn) (bistCmdWord s 3) s = finishSet y := by
    unfold bistCmdWrite
    dsimp only
    rw [hx, b1, b2]
    rw [if_pos (by decide), if_neg (by simp)]
    unfold stopTests
    rw [xb, ht]
    dsimp only
    rw [← hy, xb]
  refine ⟨_, congrArg Host.Outcome.next e, ?_⟩
  rw [f]
  refine ⟨a1, a2, by rw [get_of_rd (f := fld.bistRes.RESULT) (a3 _)]; exact yr, a4, ?_⟩
  rw [a5, setVerdict_congr a3, yb]

/-! ## OTP and life cycle -/

theorem otp_programs {s : State} {fn : Nat} (hw : Writable s fn .otpCtrl 0 0) (a : Nat) (ha : a = get s fld.otpAddr.OTP_ADDR) :
      ∃ t, exec (.otpGo fn) s = .next t ∧ on t fld.otpCtrl.OTP_ERR = !otpMay s a ∧
        (∀ q, otpWord t q = if q = a ∧ otpMay s a = true then otpWord s a ||| rd s .otpData else otpWord s q) ∧
        (otpMay s a = false → counter t Cnt.otpErr.ctorIdx = counter s Cnt.otpErr.ctorIdx + 1) := by
  subst ha
  have e := hostWrite_plain hw (by decide) 1 otpProgram
  refine ⟨_, congrArg Host.Outcome.next e, ?_⟩
  unfold otpProgram
  dsimp only
  generalize get s fld.otpAddr.OTP_ADDR = a
  by_cases h : otpMay s a = true
  · rw [if_pos h, h]
    refine ⟨by rw [on_put_same _ _ _ _ _ (by decide) (by decide)]; rfl, fun q => ?_, fun k => by cases k⟩
    have k : otpWord (put fld.otpCtrl.OTP_ERR 0 { s with otp := Map.set (fun _ => 0) s.otp a (otpWord s a ||| rd s .otpData) }) q =
        Map.get (fun _ => 0) (Map.set (fun _ => 0) s.otp a (otpWord s a ||| rd s .otpData)) q := rfl
    rw [k]
    by_cases hq : q = a
    · subst hq
      rw [map_get_set_same, if_pos ⟨rfl, rfl⟩]
    · rw [map_get_set_ne _ _ _ hq, if_neg (by simp [hq])]; rfl
  · have h' : otpMay s a = false := by simpa using h
    rw [if_neg h, h']
    refine ⟨?_, fun q => ?_, fun _ => ?_⟩
    · unfold otpFault
      rw [on_raise0 _ _ _ _ _ (by decide) (by decide) (by decide), on_put_same _ _ _ _ _ (by decide) (by decide)]; rfl
    · unfold otpWord
      rw [(otpFault_rest s).1, if_neg (by simp)]
    · unfold otpFault
      rw [counter_raise0 _ _ _ (by decide) (by decide)]
      exact (counter_bump .otpErr s _).trans (if_pos rfl)

theorem lc_requests {s : State} {fn : Nat} (v : W32) (hw : Writable s fn .lcReq 0 0) : ∃ t, exec (.lcReq fn v) s = .next t ∧ rd t .lcState = rd s .lcState ∧
      (∀ q, otpWord t q =
        if q = 3 ∧ get s fld.lcState.LC_STATE = 2 ∧ unlockOk s v = true then 0xFFFFFFFF else otpWord s q) ∧
      (get s fld.lcState.LC_STATE ≠ 2 ∨ unlockOk s v = false → hasBit t fld.bistEvent.BIST_EVENT 4 = true) := by
  have e := hostWrite_plain hw (by decide) v (lcRequest v)
  refine ⟨_, congrArg Host.Outcome.next e, ?_⟩
  have deny : rd (lcDenied s) .lcState = rd s .lcState ∧ (∀ q, otpWord (lcDenied s) q = otpWord s q) ∧ hasBit (lcDenied s) fld.bistEvent.BIST_EVENT 4 = true := by
    unfold lcDenied
    refine ⟨?_, fun q => by unfold otpWord; rw [raise0_otp]; rfl, ?_⟩
    · rw [rd_raise0 _ _ _ _ _ (by decide) (by decide) (by decide), rd_setBit_reg _ _ _ _ _ _ _ _ (by decide)]
    · rw [hasBit_raise0 _ _ _ _ _ _ (by decide) (by decide) (by decide)]
      exact hasBit_setBit _ _ _ _ _ (by decide) (by decide)
  obtain ⟨d1, d2, d3⟩ := deny
  unfold lcRequest
  by_cases h2 : get s fld.lcState.LC_STATE = 2
  · rw [h2, if_neg (by decide)]
    by_cases hu : unlockOk s v = true
    · rw [if_pos hu]
      refine ⟨?_, fun q => ?_, fun k => by simp [hu] at k⟩
      · rw [rd_raise0 _ _ _ _ _ (by decide) (by decide) (by decide)]; rfl
      · unfold otpWord
        rw [raise0_otp]
        dsimp only
        by_cases hq : q = 3
        · subst hq
          rw [map_get_set_same, if_pos ⟨rfl, rfl, hu⟩]
        · rw [map_get_set_ne _ _ _ hq, if_neg (by simp [hq])]
    · rw [if_neg hu]
      exact ⟨d1, fun q => by rw [d2, if_neg (by simp [hu])], fun _ => d3⟩
  · rw [if_pos (by simpa using h2)]
    exact ⟨d1, fun q => by rw [d2, if_neg (by simp [h2])], fun _ => d3⟩

/-! ## User calibration -/

/-- A change of a PPS output's setting leaves the registers and the held values as the change made them (R236). -/
theorem ppsChange_frame (i : Nat) (f : State → State) (s : State) : (ppsChange i f s).regs = (f s).regs ∧ (ppsChange i f s).calOld = (f s).calOld := by
  unfold ppsChange
  extract_lets t old held
  split <;> exact ⟨rfl, rfl⟩

theorem busEffect_cal {r : RegId} {i : Nat} (h : r.desc.cal = true) (hi : i < r.desc.n) (fn : Nat) (v : W32) (s : State) :
    (busEffect fn r i 0 v s).regs = (calStore (isPf fn) r i v s).regs ∧ (busEffect fn r i 0 v s).calOld = (calStore (isPf fn) r i v s).calOld := by
  have key : busEffect fn r i 0 v s = calStore (isPf fn) r i v s ∨ busEffect fn r i 0 v s = ppsChange i (calStore (isPf fn) r i v) s := by
    unfold busEffect renderEffect controlEffect
    cases r <;> simp [RegId.desc] at h hi ⊢ <;> simp [journaled, RegId.off, RegId.desc] <;> omega
  rcases key with e | e <;> rw [e]
  · exact ⟨rfl, rfl⟩
  · exact ppsChange_frame _ _ _

theorem calEffect_rd (q : RegId) (k : Nat) (s : State) (r : RegId) (h1 : r ≠ .calEvent) (h2 : r ≠ .ringTail) (h3 : r ≠ .ringStatus) (h4 : r ≠ .hostStatus) (i j : Nat) :
    rd (calEffect q k s) r i j = rd s r i j ∧ (calEffect q k s).calOld = s.calOld := by
  unfold calEffect
  split
  · exact ⟨rfl, rfl⟩
  · refine ⟨by rw [rd_raise0 _ _ _ _ _ h2 h3 h4, rd_setBit_reg _ _ _ _ _ _ _ _ h1, rd_bump], ?_⟩
    rw [(eventOnly_raise0 119 _).frame]; rfl

theorem cal_writes {s : State} {fn : Nat} (off : Nat) (r : RegId) (i : Nat) (v : W32) (u : State) (ha : regAt off = some ⟨r, i, 0⟩) (hc : r.desc.cal = true)
    (hw : Writable s fn r i 0) (hu : u = plainWrite (isPf fn) r i 0 v s) : ∃ t, exec (.calWrite fn off v) s = .next t ∧ rd t r i = rd u r i ∧
        ∀ hold, hold = (decide (4 ≤ mode s) && decide (mode s ≤ 6) && (fclock s (get s fld.calCtrl.FC)).isSome) →
        ∀ f, f.reg = r → effCal t f i = if hold = true then effCal s f i else get u f i := by
  have ne : r ≠ .calEvent ∧ r ≠ .calStatus ∧ r ≠ .ringTail ∧ r ≠ .ringStatus ∧ r ≠ .hostStatus ∧ r ≠ .pwrMode ∧ journaled (r.off i 0) = false := by
    have hi := (regAt_inside ha).1
    clear ha hw hu
    cases r <;> simp [RegId.desc] at hc hi ⊢ <;> simp [journaled, RegId.off, RegId.desc] <;> omega
  obtain ⟨n1, n2, n3, n4, n6, n5, nj⟩ := ne
  have e := hostWrite_plain hw nj v (busEffect fn r i 0 v)
  obtain ⟨b1, b2⟩ := busEffect_cal hc (regAt_inside ha).1 fn v s
  generalize busEffect fn r i 0 v s = t at e b1 b2
  refine ⟨t, ?_, ?_⟩
  · show execCalWrite fn off v s = _
    unfold execCalWrite busWrite
    rw [ha]
    exact congrArg Host.Outcome.next e
  have uc : u.calOld = s.calOld := by rw [hu]; rfl
  have back : ∀ f : Fld, effCal t f i = effCal (calStore (isPf fn) r i v s) f i := fun f => by unfold effCal; rw [b2, get_congr b1]
  rw [rd_congr b1]
  simp only [back]
  clear back b1 b2 e
  unfold calStore
  rw [← hu]
  have uk : ∀ (f : Fld), f.reg = r → get s f i = bitsOf (rd s r i).toNat f.lo f.w := fun f hf => by subst hf; rfl
  generalize hk : r.key i 0 = key
  dsimp only
  generalize hh : (decide (4 ≤ mode s) && decide (mode s ≤ 6) && (fclock s (get s fld.calCtrl.FC)).isSome) = hold
  cases hold
  · rw [if_neg (by decide)]
    have z : ∃ z : State, (if (Map.del u.calOld key).isEmpty = true then put fld.calStatus.PENDING 0 { u with calOld := Map.del u.calOld key }
        else { u with calOld := Map.del u.calOld key }) = z ∧ z.calOld = Map.del u.calOld key ∧ rd z r i = rd u r i := by
      refine ⟨_, rfl, ?_, ?_⟩
      · split <;> rfl
      · split
        · exact rd_put_reg _ _ _ _ _ _ _ _ n2
        · rfl
    obtain ⟨z, z1, z2, z3⟩ := z
    rw [z1]
    obtain ⟨c1, c2⟩ := calEffect_rd r i z r n1 n3 n4 n6 i 0
    refine ⟨c1.trans z3, fun h0 e0 f fr => ?_⟩
    subst fr
    rw [e0, if_neg (by decide)]
    unfold effCal
    rw [hk, c2, z2, map_find_del_same]
    exact get_of_rd (c1.trans z3)
  · rw [if_pos rfl, uc]
    cases hf : Map.find? s.calOld key with
    | some w =>
      refine ⟨rfl, fun h0 e0 f fr => ?_⟩
      subst fr
      rw [e0, if_pos rfl]
      unfold effCal
      rw [hk, uc, hf]
    | none =>
      refine ⟨rd_put_reg _ _ _ _ _ _ _ _ n2, fun h0 e0 f fr => ?_⟩
      subst fr
      rw [e0, if_pos rfl]
      unfold effCal
      rw [hk, hf]
      show (match Map.find? (Map.put s.calOld key (rd s f.reg i)) key with | some v => _ | none => _) = _
      rw [map_find_put_same]
      rfl

/-! ## Counters -/

theorem counter_reads {s : State} {fn : Nat} (n : Nat) (hn : n < 512) (hr : Reaches s fn .cntLo n 0) : ∃ t, exec (.cntLoRead fn n) s = .next t ∧
      t.rdata = leBytes 4 ((counter s n).toNat % 2 ^ 32) ∧ get t fld.cntHi.HI n = (counter s n).toNat / 2 ^ 32 % 2 ^ 16 := by
  refine ⟨hostRead fn .cntLo n 0 (cntLoRead n) s, ?_, ?_, ?_⟩
  · show execCntLoRead fn n s = _
    unfold execCntLoRead
    rw [if_neg (by omega)]
  · rw [hostRead_of hr]
    unfold cntLoRead
    dsimp only
    rw [BitVec.toNat_ofNat]
  · rw [hostRead_of hr]
    exact get_put_same fld.cntHi.HI _ s n 0 (by decide)

theorem counters_snap {s : State} {fn : Nat} (hw : Writable s fn .cntSnap 0 0) : ∃ t, exec (.cntSnap fn) s = .next t ∧ t.snap = s.cnt ∧
      rd t .snapTimeLo = BitVec.ofNat 32 s.ot.toNat ∧ rd t .snapTimeHi = BitVec.ofNat 32 (s.ot.toNat / 2 ^ 32) := by
  have e := hostWrite_plain hw (by decide) 1 snapCounters
  refine ⟨_, congrArg Host.Outcome.next e, rfl, ?_, rd_wr_same _ _ _ _ _⟩
  unfold snapCounters
  rw [rd_wr_reg (by decide), rd_wr_same]

/-! ## Tagging -/

theorem memRead_memWrite (m : List Host.Cell) (a n : Nat) (bs : List Byte) (h : bs.length = n) : memRead (memWrite m a bs) a n = bs := by
  rw [memRead_eq]
  apply List.ext_getElem
  · simp [h]
  · intro k h1 h2
    rw [List.getElem_map, List.getElem_range, memGet_memWrite, if_pos (by omega), List.getD_eq_getElem?_getD, Nat.add_sub_cancel_left,
      List.getElem?_eq_getElem h2]
    rfl

theorem wordBytes_length (ws : List W32) : (wordBytes ws).length = 4 * ws.length := by
  unfold wordBytes
  induction ws with
  | nil => rfl
  | cons w r ih => rw [List.flatMap_cons, List.length_append, ih, List.length_cons, show (leBytes 4 w.toNat).length = 4 from by simp [leBytes]]; omega

theorem tag_samples {s : State} (core : Nat) (stall : BitVec 16) (cause : Byte) (paired off : Bool) (u : Task) (n tail base : Nat)
    (hu : taskOn s core = some u) (he : on s fld.tagCtrl.TAG_EN = true) (hi : tagInterval s core ≤ Map.get (fun _ => 0) s.tagCount core)
    (hn : n = 2 ^ get s fld.tagCtrl.TAG_LOG2) (ht : tail = get s fld.tagTail.TAG_TAIL) (hb : base = (rd s .tagBase).toNat * 256) :
      ∃ t, exec (.tagSample core stall cause paired off) s = .next t ∧ Map.get (fun _ => 0) t.tagCount core = 0 ∧
        (tagOcc s + 1 < n → (allocAt s base (16 * n)).isSome = true →
          counter t Cnt.tagTaken.ctorIdx = counter s Cnt.tagTaken.ctorIdx + 1 ∧
          get t fld.tagTail.TAG_TAIL = (tail + 1) % n % 65536 ∧
          memRead t.fmem (base + 16 * tail) 16 = wordBytes (tagRecord core u stall cause paired off)) ∧
        (n ≤ tagOcc s + 1 ∨ (allocAt s base (16 * n)).isNone = true → t.fmem = s.fmem ∧
          counter t Cnt.tagLost.ctorIdx = counter s Cnt.tagLost.ctorIdx + 1) := by
  subst hn ht hb
  generalize hx : ({ s with tagCount := Map.del s.tagCount core, tagDraws := Map.set (fun _ => 0) s.tagDraws core (Map.get (fun _ => 0) s.tagDraws core + 1) } : State) = x
  have ex : exec (.tagSample core stall cause paired off) s = .next (tagWrite (tagRecord core u stall cause paired off) x) := by
    show execTagSample core stall cause paired off s = _
    unfold execTagSample
    rw [hu]
    dsimp only
    rw [if_neg (by simp [he]; omega), hx]
  have xc : x.tagCount = Map.del s.tagCount core := by rw [← hx]
  have xg : ∀ f i j, get x f i j = get s f i j := fun f i j => by rw [← hx]; rfl
  have xr : rd x .tagBase = rd s .tagBase := by rw [← hx]; rfl
  have xo : tagOcc x = tagOcc s := by rw [← hx]; rfl
  have xa : ∀ a n, allocAt x a n = allocAt s a n := fun a n => by rw [← hx]; rfl
  have xf : x.fmem = s.fmem := by rw [← hx]
  have xn : ∀ k, counter x k = counter s k := fun k => by rw [← hx]; rfl
  refine ⟨_, ex, ?_⟩
  generalize hr : tagRecord core u stall cause paired off = ws
  have wl : (wordBytes ws).length = 16 := by rw [wordBytes_length, ← hr]; rfl
  unfold tagWrite
  dsimp only
  simp only [xg, xr, xo, xa]
  split
  · next c =>
    refine ⟨by rw [(eventOnly_raise0 121 _).frame]; show Map.get _ x.tagCount core = 0; rw [xc, map_get_del_same], fun h1 h2 => ?_, fun _ => ⟨?_, ?_⟩⟩
    · have h3 : (allocAt s ((rd s .tagBase).toNat * 256) (16 * 2 ^ get s fld.tagCtrl.TAG_LOG2)).isNone = false := by
        rw [← Option.not_isSome, h2]; rfl
      rw [h3] at c
      simp at c; omega
    · rw [(raise0_frame _ _).1]; exact xf
    · rw [counter_raise0 _ _ _ (by decide) (by decide)]
      exact (counter_bump .tagLost x _).trans (by rw [if_pos rfl, xn])
  · next c =>
    generalize hy : put fld.tagTail.TAG_TAIL ((get s fld.tagTail.TAG_TAIL + 1) % 2 ^ get s fld.tagCtrl.TAG_LOG2)
      (bump .tagTaken (fmemPut ((rd s .tagBase).toNat * 256 + 16 * get s fld.tagTail.TAG_TAIL) (wordBytes ws) x)) = y
    have yc : y.tagCount = Map.del s.tagCount core := by rw [← hy, ← xc]; rfl
    have yt : get y fld.tagTail.TAG_TAIL = (get s fld.tagTail.TAG_TAIL + 1) % 2 ^ get s fld.tagCtrl.TAG_LOG2 % 65536 := by
      rw [← hy, get_put_same _ _ _ _ _ (by decide)]; rfl
    have yn : counter y Cnt.tagTaken.ctorIdx = counter s Cnt.tagTaken.ctorIdx + 1 := by
      rw [← hy]
      refine (counter_bump .tagTaken (fmemPut _ (wordBytes ws) x) _).trans ?_
      rw [if_pos rfl]
      exact congrArg (· + 1) (xn _)
    have yf : memRead y.fmem ((rd s .tagBase).toNat * 256 + 16 * get s fld.tagTail.TAG_TAIL) 16 = wordBytes ws := by
      rw [← hy]
      exact memRead_memWrite x.fmem _ 16 _ wl
    have fin : ∀ b : Bool, ∀ t, t = (if b = true then raise0 120 (setBit fld.tagStatus.TAG_STATUS 0 y) else y) → t.tagCount = y.tagCount ∧
        get t fld.tagTail.TAG_TAIL = get y fld.tagTail.TAG_TAIL ∧ counter t Cnt.tagTaken.ctorIdx = counter y Cnt.tagTaken.ctorIdx ∧ t.fmem = y.fmem := by
      rintro (_ | _) t rfl
      · exact ⟨rfl, rfl, rfl, rfl⟩
      · rw [if_pos rfl]
        refine ⟨by rw [(eventOnly_raise0 120 _).frame]; rfl, ?_, ?_, by rw [(raise0_frame _ _).1]; rfl⟩
        · rw [get_raise0 _ _ _ _ _ (by decide) (by decide) (by decide), get_setBit_reg _ _ _ _ _ _ _ _ (by decide)]
        · rw [counter_raise0 _ _ _ (by decide) (by decide)]; rfl
    obtain ⟨f1, f2, f3, f4⟩ := fin _ _ rfl
    refine ⟨by rw [f1, yc, map_get_del_same], fun _ _ => ⟨by rw [f3, yn], by rw [f2, yt], by rw [f4, yf]⟩, fun h => ?_⟩
    exfalso
    apply c
    rcases h with h | h
    · simp [h]
    · simp [h]

end Sys2Proof.Machine
end

