-- ==== Sys2Proof/Laws/Encoding.lean ====
section
/-!
SUPPORT. The bits of an instruction word: packing fields and reading them back, and decoding by parts.
-/

namespace Sys2Proof

theorem fields_pack (m : BitVec 6) (fn : BitVec 8) (f : F) : fieldsOf (packWord m fn f) = f := by
  obtain ⟨d, a, b, p, imm⟩ := f
  unfold fieldsOf packWord
  simp only [F.mk.injEq]
  refine ⟨?_, ?_, ?_, ?_, ?_⟩ <;> (ext i hi; rw [← BitVec.getLsbD_eq_getElem, BitVec.getLsbD_extractLsb']; simp only [hi, decide_true, Bool.true_and]; change BitVec.getLsbD (w := 6+5+5+5+3+8+32) _ _ = _ ; simp only [BitVec.getLsbD_append])
  all_goals (repeat (first | rw [if_pos (by omega)] | rw [if_neg (by omega)]))
  all_goals rw [← BitVec.getLsbD_eq_getElem]
  all_goals (congr 1; omega)

theorem major_pack (m : BitVec 6) (fn : BitVec 8) (f : F) : majorOf (packWord m fn f) = m := by
  unfold majorOf packWord
  ext i hi
  rw [← BitVec.getLsbD_eq_getElem, BitVec.getLsbD_extractLsb']
  simp only [hi, decide_true, Bool.true_and]
  change BitVec.getLsbD (w := 6+5+5+5+3+8+32) _ _ = _
  simp only [BitVec.getLsbD_append]
  repeat (first | rw [if_pos (by omega)] | rw [if_neg (by omega)])
  rw [← BitVec.getLsbD_eq_getElem]
  congr 1; omega

theorem func_pack (m : BitVec 6) (fn : BitVec 8) (f : F) : funcOf (packWord m fn f) = fn := by
  unfold funcOf packWord
  ext i hi
  rw [← BitVec.getLsbD_eq_getElem, BitVec.getLsbD_extractLsb']
  simp only [hi, decide_true, Bool.true_and]
  change BitVec.getLsbD (w := 6+5+5+5+3+8+32) _ _ = _
  simp only [BitVec.getLsbD_append]
  repeat (first | rw [if_pos (by omega)] | rw [if_neg (by omega)])
  rw [← BitVec.getLsbD_eq_getElem]
  congr 1; omega

theorem pack_parts (w : W64) : packWord (majorOf w) (funcOf w) (fieldsOf w) = w := by
  unfold packWord majorOf funcOf fieldsOf
  apply BitVec.eq_of_getLsbD_eq
  intro i hi
  change BitVec.getLsbD (w := 6+5+5+5+3+8+32) _ _ = _
  simp only [BitVec.getLsbD_append, BitVec.getLsbD_extractLsb']
  repeat' split
  all_goals (rw [decide_eq_true (by omega), Bool.true_and]; congr 1; omega)

/-- The instruction that a major opcode, a function code and fields spell. -/
def decodeParts (k : Nat) (m : BitVec 6) (fn : BitVec 8) (f : F) : Option Instr :=
  match m.toNat with
  | 0x00 => decAlu k fn f
  | 0x01 => decImm k fn f
  | 0x08 => decVint k fn f
  | 0x09 => decVfloat k fn f
  | 0x0A => decPixel k fn f
  | 0x0C => decLut k fn f
  | 0x10 => decMem k fn f
  | 0x11 => decSamp k fn f
  | 0x14 => decInput k fn f
  | 0x18 => decPkt k fn f
  | 0x1C => decTask k fn f
  | 0x20 => decBranch k fn f
  | 0x3F => decSystem k fn f
  | _ => none

theorem decodeWord_parts (k : Nat) (w : W64) : decodeWord k w = decodeParts k (majorOf w) (funcOf w) (fieldsOf w) := rfl

theorem decodeWord_pack (k : Nat) (m : BitVec 6) (fn : BitVec 8) (f : F) : decodeWord k (packWord m fn f) = decodeParts k m fn f := by
  rw [decodeWord_parts, fields_pack, major_pack, func_pack]

/-! ## Function codes made of parts -/

theorem vint_type (op : BitVec 5) (t : BitVec 3) : (op ++ t).extractLsb' 0 3 = t := by revert op t; decide
theorem vint_op (op : BitVec 5) (t : BitVec 3) : (op ++ t).toNat / 8 = op.toNat := by revert op t; decide
theorem float_prec (op : BitVec 7) (h : Bool) : (op ++ BitVec.ofBool h).getLsbD 0 = h := by revert op h; decide
theorem float_op (op : BitVec 7) (h : Bool) : (op ++ BitVec.ofBool h).toNat / 2 = op.toNat := by revert op h; decide
theorem mix_lt (t : BitVec 3) : ((0 : BitVec 5) ++ t).toNat < 8 := by revert t; decide
theorem dith_code (n : BitVec 4) (h : n.toNat ≤ 8) : ¬ ((2 : BitVec 4) ++ n).toNat < 8 ∧
    (decide (0x20 ≤ ((2 : BitVec 4) ++ n).toNat) && decide (((2 : BitVec 4) ++ n).toNat ≤ 0x28)) = true ∧
    ((2 : BitVec 4) ++ n).extractLsb' 0 4 = n := by revert n; decide
theorem mem_space (sp : BitVec 2) (t m : BitVec 3) : (sp ++ t ++ m).extractLsb' 6 2 = sp := by revert sp t m; decide
theorem mem_type (sp : BitVec 2) (t m : BitVec 3) : (sp ++ t ++ m).extractLsb' 3 3 = t := by revert sp t m; decide
theorem mem_mode (sp : BitVec 2) (t m : BitVec 3) : (sp ++ t ++ m).toNat % 8 = m.toNat := by revert sp t m; decide
theorem samp_code (nr : Bool) (e : BitVec 2) (h : e ≠ 3) :
    (decide (8 ≤ ((0 : BitVec 5) ++ BitVec.ofBool nr ++ e).toNat) ||
      decide (((0 : BitVec 5) ++ BitVec.ofBool nr ++ e).extractLsb' 0 2 = 3)) = false ∧
    ((0 : BitVec 5) ++ BitVec.ofBool nr ++ e).getLsbD 2 = nr ∧
    ((0 : BitVec 5) ++ BitVec.ofBool nr ++ e).extractLsb' 0 2 = e := by revert nr e; decide

/-! ## What spells a word -/

/-- The instruction `i` has the word made of `m`, `fn` and `f`, stands on core `k`, and its codes are assigned. -/
def Spells (k : Nat) (m : BitVec 6) (fn : BitVec 8) (f : F) (i : Instr) : Prop :=
  partsOf i = some (m, fn, f) ∧ coreOf i = k ∧ codesOk i = true

theorem lit8 {x : BitVec 8} {n : Nat} (h : x.toNat = n) : x = BitVec.ofNat 8 n := by
  rw [← h, BitVec.ofNat_toNat, BitVec.setWidth_eq]

theorem lit6 {x : BitVec 6} {n : Nat} (h : x.toNat = n) : x = BitVec.ofNat 6 n := by
  rw [← h, BitVec.ofNat_toNat, BitVec.setWidth_eq]

theorem op_type {x : BitVec 8} {n : Nat} (h : x.toNat / 8 = n) : x = BitVec.ofNat 5 n ++ x.extractLsb' 0 3 := by
  subst h; revert x; decide

theorem op_prec {x : BitVec 8} {n : Nat} (h : x.toNat / 2 = n) : x = BitVec.ofNat 7 n ++ BitVec.ofBool (x.getLsbD 0) := by
  subst h; revert x; decide

theorem mem_parts {x : BitVec 8} {n : Nat} (h : x.toNat % 8 = n) : x = x.extractLsb' 6 2 ++ x.extractLsb' 3 3 ++ BitVec.ofNat 3 n := by
  subst h; revert x; decide

theorem mix_parts {x : BitVec 8} (h : x.toNat < 8) : x = (0 : BitVec 5) ++ x.extractLsb' 0 3 := by revert x; decide

theorem dith_parts {x : BitVec 8} (h : (decide (0x20 ≤ x.toNat) && decide (x.toNat ≤ 0x28)) = true) :
    x = (2 : BitVec 4) ++ x.extractLsb' 0 4 ∧ (x.extractLsb' 0 4).toNat ≤ 8 := by revert x; decide

theorem samp_parts {x : BitVec 8} (h : ¬ (decide (8 ≤ x.toNat) || decide (x.extractLsb' 0 2 = 3)) = true) :
    x = (0 : BitVec 5) ++ BitVec.ofBool (x.getLsbD 2) ++ x.extractLsb' 0 2 ∧ (x.extractLsb' 0 2 != 3) = true := by
  revert x; decide

variable {k : Nat} {fn : BitVec 8} {f : F} {i : Instr}

theorem alu_spells (h : decAlu k fn f = some i) : Spells k 0 fn f i := by
  unfold decAlu at h
  split at h <;> cases h <;> rename_i e <;> rw [lit8 e] <;> exact ⟨rfl, rfl, rfl⟩

theorem imm_spells (h : decImm k fn f = some i) : Spells k 1 fn f i := by
  unfold decImm at h
  split at h <;> cases h <;> rename_i e <;> rw [lit8 e] <;> exact ⟨rfl, rfl, rfl⟩

theorem input_spells (h : decInput k fn f = some i) : Spells k 20 fn f i := by
  unfold decInput at h
  split at h <;> cases h <;> rename_i e <;> rw [lit8 e] <;> exact ⟨rfl, rfl, rfl⟩

theorem pkt_spells (h : decPkt k fn f = some i) : Spells k 24 fn f i := by
  unfold decPkt at h
  split at h <;> cases h <;> rename_i e <;> rw [lit8 e] <;> exact ⟨rfl, rfl, rfl⟩

theorem task_spells (h : decTask k fn f = some i) : Spells k 28 fn f i := by
  unfold decTask at h
  split at h <;> cases h <;> rename_i e <;> rw [lit8 e] <;> exact ⟨rfl, rfl, rfl⟩

theorem branch_spells (h : decBranch k fn f = some i) : Spells k 32 fn f i := by
  unfold decBranch at h
  split at h <;> cases h <;> rename_i e <;> rw [lit8 e] <;> exact ⟨rfl, rfl, rfl⟩

theorem system_spells (h : decSystem k fn f = some i) : Spells k 63 fn f i := by
  unfold decSystem at h
  split at h <;> cases h <;> rename_i e <;> rw [lit8 e] <;> exact ⟨rfl, rfl, rfl⟩

theorem vint_spells (h : decVint k fn f = some i) : Spells k 8 fn f i := by
  unfold decVint at h
  dsimp only at h
  split at h
  · cases h
  · rename_i ht
    have ht' : decide ((fn.extractLsb' 0 3).toNat < 5) = true := decide_eq_true (by omega)
    split at h <;> cases h <;> rename_i e <;>
      exact ⟨congrArg (fun x => some (8, x, f)) (op_type e).symm, rfl, ht'⟩

theorem vfloat_spells (h : decVfloat k fn f = some i) : Spells k 9 fn f i := by
  unfold decVfloat at h
  dsimp only at h
  split at h <;> cases h <;> rename_i e <;>
    exact ⟨congrArg (fun x => some (9, x, f)) (op_prec e).symm, rfl, rfl⟩

theorem lut_spells (h : decLut k fn f = some i) : Spells k 12 fn f i := by
  unfold decLut at h
  dsimp only at h
  split at h
  · rename_i e
    split at h <;> cases h
    rename_i ht
    exact ⟨congrArg (fun x => some (12, x, f)) (op_type e).symm, rfl, decide_eq_true ht⟩
  · rename_i e
    split at h <;> cases h
    rename_i ht
    exact ⟨congrArg (fun x => some (12, x, f)) (op_type e).symm, rfl, decide_eq_true ht⟩
  all_goals cases h
  all_goals (rename_i e; exact ⟨congrArg (fun x => some (12, x, f)) (op_type e).symm, rfl, rfl⟩)

theorem mem_spells (h : decMem k fn f = some i) : Spells k 16 fn f i := by
  unfold decMem at h
  dsimp only at h
  split at h <;> rename_i e
  case h_4 | h_5 =>
    split at h <;> cases h
    rename_i ht
    exact ⟨congrArg (fun x => some (16, x, f)) (mem_parts e).symm, rfl, by simpa [codesOk] using ht⟩
  all_goals cases h
  all_goals exact ⟨congrArg (fun x => some (16, x, f)) (mem_parts e).symm, rfl, rfl⟩

theorem samp_spells (h : decSamp k fn f = some i) : Spells k 17 fn f i := by
  unfold decSamp at h
  dsimp only at h
  split at h <;> cases h
  rename_i e
  exact ⟨congrArg (fun x => some (17, x, f)) (samp_parts e).1.symm, rfl, (samp_parts e).2⟩

theorem pixel_spells (h : decPixel k fn f = some i) : Spells k 10 fn f i := by
  unfold decPixel at h
  split at h
  · cases h
    rename_i e
    exact ⟨congrArg (fun x => some (10, x, f)) (mix_parts e).symm, rfl, rfl⟩
  · split at h
    · cases h
      rename_i e
      exact ⟨congrArg (fun x => some (10, x, f)) (dith_parts e).1.symm, rfl, decide_eq_true (dith_parts e).2⟩
    · split at h <;> cases h <;> rename_i e <;> rw [lit8 e] <;> exact ⟨rfl, rfl, rfl⟩

theorem parts_spell {m : BitVec 6} (h : decodeParts k m fn f = some i) : Spells k m fn f i := by
  unfold decodeParts at h
  split at h <;> rename_i e <;> first
    | cases h; done
    | (rw [lit6 e]
       first
       | exact alu_spells h
       | exact imm_spells h
       | exact vint_spells h
       | exact vfloat_spells h
       | exact pixel_spells h
       | exact lut_spells h
       | exact mem_spells h
       | exact samp_spells h
       | exact input_spells h
       | exact pkt_spells h
       | exact task_spells h
       | exact branch_spells h
       | exact system_spells h)

end Sys2Proof
end

