-- ==== Sys2Proof/Laws/Frames.lean ====
section
/-!
SUPPORT. The frame of every command of a host or of the device's surroundings: what it changes at most, from its
footprint.
-/

namespace Sys2Proof.Machine

section

set_option Elab.async false

theorem out_within {m : Nat} {s t : State} {o : Out} (h : WithinOut m s o) (e : o = .next t) : Within m s t := by
  obtain ⟨u, hu, w⟩ := h
  rw [hu] at e
  cases e
  exact w

theorem leaves_any {m : Nat} {s t : State} (h : Within m s t) (ps : List Part)
    (hm : ∀ p : Part, p ∉ ps → m.testBit p.bit = false) : RegSet.leaves .any ps s t :=
  fun p hp => h.part p (hm p hp)

theorem frame_task (h : Cmd) (desc : List W32) (σ τ : State) (rs : RegSet) (ps : List Part) (hc : mayChange (.task h desc) = some (rs, ps)) (hx : exec (.task h desc) σ = .next τ) : rs.leaves ps σ τ := by
  cases hc
  exact (out_within (within_execTask h desc (μ := 116880903061091277333496215742759686091381564099652435813526309164025456433426416650445215765307881108258101053507654955185806334157230028218555255025920538332160) rfl (Within.refl _)) hx).leaves _ _ (by decide +kernel)
theorem frame_cue (h : Cmd) (index value : W32) (tgt : Tgt) (σ τ : State) (rs : RegSet) (ps : List Part) (hc : mayChange (.cue h index value tgt) = some (rs, ps)) (hx : exec (.cue h index value tgt) σ = .next τ) : rs.leaves ps σ τ := by
  cases hc
  exact (out_within (within_execCue h index value tgt (μ := 1243373631511159799618075390317669065277336343506000064763716334873118423642959641982694842256373315106943008410574207175312546561422291600002310875599997493332992) rfl (Within.refl _)) hx).leaves _ _ (by decide +kernel)
theorem frame_alloc (h : Cmd) (mib : W32) (σ τ : State) (rs : RegSet) (ps : List Part) (hc : mayChange (.alloc h mib) = some (rs, ps)) (hx : exec (.alloc h mib) σ = .next τ) : rs.leaves ps σ τ := by
  cases hc
  exact (out_within (within_execAlloc h mib (μ := 1240737549209669645487522340410821810281904880350745035486508860904791175060534942058679775820665187001063067460404877039989260063062606560599627041516537902025728) rfl (Within.refl _)) hx).leaves _ _ (by decide +kernel)
theorem frame_retire (h : Cmd) (addr : W32) (σ τ : State) (rs : RegSet) (ps : List Part) (hc : mayChange (.retire h addr) = some (rs, ps)) (hx : exec (.retire h addr) σ = .next τ) : rs.leaves ps σ τ := by
  cases hc
  exact (out_within (within_execRetire h addr (μ := 116002208960594559289978532440477267759571076381234092721123817841249706905951516675773528131303214925221007125649545405357054719693266297810545779398060741250048) rfl (Within.refl _)) hx).leaves _ _ (by decide +kernel)
theorem frame_layerNew (h : Cmd) (layer size form pool nbuf : W32) (σ τ : State) (rs : RegSet) (ps : List Part) (hc : mayChange (.layerNew h layer size form pool nbuf) = some (rs, ps)) (hx : exec (.layerNew h layer size form pool nbuf) σ = .next τ) : rs.leaves ps σ τ := by
  cases hc
  exact (out_within (within_execLayerNew h layer size form pool nbuf (μ := 1240737522394053785602328141262771813870212625392013394301722105457668287617006881911585822216916590667256212080341160667017158355554840936706487148649239890775040) rfl (Within.refl _)) hx).leaves _ _ (by decide +kernel)
theorem frame_layerSet (h : Cmd) (layer buf : W32) (tgt : Tgt) (σ τ : State) (rs : RegSet) (ps : List Part) (hc : mayChange (.layerSet h layer buf tgt) = some (rs, ps)) (hx : exec (.layerSet h layer buf tgt) σ = .next τ) : rs.leaves ps σ τ := by
  cases hc
  exact (out_within (within_execLayerSet h layer buf tgt (μ := 1243373631511159799618075390317669065277336343506000064763716334873118423642959641982694842256373315106943008410574207175312546561422291600002310875599997493332992) rfl (Within.refl _)) hx).leaves _ _ (by decide +kernel)
theorem frame_importLayer (h : Cmd) (layer busLo busHi pitch : W32) (tgt : Tgt) (σ τ : State) (rs : RegSet) (ps : List Part) (hc : mayChange (.importLayer h layer busLo busHi pitch tgt) = some (rs, ps)) (hx : exec (.importLayer h layer busLo busHi pitch tgt) σ = .next τ) : rs.leaves ps σ τ := by
  cases hc
  exact (out_within (within_execImportLayer h layer busLo busHi pitch tgt (μ := 116002208960594559289978532440477267759571076381234092721123817841249706905951516675773528131303214925221007125649545405357054719693266297810545779398060741250048) rfl (Within.refl _)) hx).leaves _ _ (by decide +kernel)
theorem frame_layerDel (h : Cmd) (layer : W32) (σ τ : State) (rs : RegSet) (ps : List Part) (hc : mayChange (.layerDel h layer) = some (rs, ps)) (hx : exec (.layerDel h layer) σ = .next τ) : rs.leaves ps σ τ := by
  cases hc
  exact (out_within (within_execLayerDel h layer (μ := 117759597161587995377013899045042104423192051818070778905928800486801205960901316625116903399312547291295194981365764505014557948621193758626564730647183266040832) rfl (Within.refl _)) hx).leaves _ _ (by decide +kernel)
theorem frame_badCommand (h : Cmd) (op : Byte) (ext poisoned : Bool) (σ τ : State) (rs : RegSet) (ps : List Part) (hc : mayChange (.badCommand h op ext poisoned) = some (rs, ps)) (hx : exec (.badCommand h op ext poisoned) σ = .next τ) : rs.leaves ps σ τ := by
  cases hc
  exact (out_within (within_execBadCommand h op ext poisoned (μ := 3529364097014649719715069748327721287828648423686176893604928525953767389164319917797510975255070323077702466094145096138335342080354319500139622295169532972032) rfl (Within.refl _)) hx).leaves _ _ (by decide +kernel)
theorem frame_registerWrite (fn : Nat) (sp : Space) (off : Nat) (v : W32) (size : Nat) (setting : W32) (other : Option (Nat × W32)) (σ τ : State) (rs : RegSet) (ps : List Part) (hc : mayChange (.registerWrite fn sp off v size setting other) = some (rs, ps)) (hx : exec (.registerWrite fn sp off v size setting other) σ = .next τ) : rs.leaves ps σ τ := by
  cases hc
  exact leaves_any (out_within (within_execRegisterWrite fn sp off v size setting other (μ := 1799565383739199253698244407334142761489417572527108447316368451809120660236106090095701267013075390291035241000078373494382818241153271096339299034784173349928959) rfl (Within.refl _)) hx) _ (by intro p hp; cases p <;> first | decide +kernel | exact absurd (by simp) hp)
theorem frame_semClaim (n fn : Nat) (other : Option Nat) (σ τ : State) (rs : RegSet) (ps : List Part) (hc : mayChange (.semClaim n fn other) = some (rs, ps)) (hx : exec (.semClaim n fn other) σ = .next τ) : rs.leaves ps σ τ := by
  cases hc
  exact (out_within (within_execSemClaim n fn other (μ := 3529417728246369490103468044427714111213158341149459263178439420199542276220440389842067251269939161296446199566204304705235203519791931893268444184332709414916) rfl (Within.refl _)) hx).leaves _ _ (by decide +kernel)
theorem frame_semRelease (n fn : Nat) (v : W32) (claim : Option Nat) (σ τ : State) (rs : RegSet) (ps : List Part) (hc : mayChange (.semRelease n fn v claim) = some (rs, ps)) (hx : exec (.semRelease n fn v claim) σ = .next τ) : rs.leaves ps σ τ := by
  cases hc
  exact (out_within (within_execSemRelease n fn v claim (μ := 116002262591826279060366930736577260582955586298697375090697328735495481793007637147818084407318083763439750859121604613923954581132703910203674601287223917692932) rfl (Within.refl _)) hx).leaves _ _ (by decide +kernel)
theorem frame_semForce (fn : Nat) (v : W32) (σ τ : State) (rs : RegSet) (ps : List Part) (hc : mayChange (.semForce fn v) = some (rs, ps)) (hx : exec (.semForce fn v) σ = .next τ) : rs.leaves ps σ τ := by
  cases hc
  exact (out_within (within_execSemForce fn v (μ := 116002208960594559289978532440477267759571076381234092721123817841249706905951516853630177199820891095826040098994171867979751166117172662417394815552627893356548) rfl (Within.refl _)) hx).leaves _ _ (by decide +kernel)
theorem frame_semLeaseExpire (n : Nat) (σ τ : State) (rs : RegSet) (ps : List Part) (hc : mayChange (.semLeaseExpire n) = some (rs, ps)) (hx : exec (.semLeaseExpire n) σ = .next τ) : rs.leaves ps σ τ := by
  cases hc
  exact (out_within (within_execSemLeaseExpire n (μ := 228557431396096036176821777942215790949920737562383728213555440718055872940939485306375015996137550635233475553506887622595194108711065903676316269677921106413572) rfl (Within.refl _)) hx).leaves _ _ (by decide +kernel)
theorem frame_ringEnable (r fn : Nat) (v : W32) (σ τ : State) (rs : RegSet) (ps : List Part) (hc : mayChange (.ringEnable r fn v) = some (rs, ps)) (hx : exec (.ringEnable r fn v) σ = .next τ) : rs.leaves ps σ τ := by
  cases hc
  exact (out_within (within_execRingEnable r fn v (μ := 340947898687754378430505457824776360703055932296329924376161596471841585939525910369582211505015433953322085630670216624140164468891887646867820574595886086113312) rfl (Within.refl _)) hx).leaves _ _ (by decide +kernel)
theorem frame_ringTailWrite (r fn : Nat) (v : W32) (posted : List RxPost) (σ τ : State) (rs : RegSet) (ps : List Part) (hc : mayChange (.ringTailWrite r fn v posted) = some (rs, ps)) (hx : exec (.ringTailWrite r fn v posted) σ = .next τ) : rs.leaves ps σ τ := by
  cases hc
  exact (out_within (within_execRingTailWrite r fn v posted (μ := 116002208960594559289978532440477267759571076381234092721123817841249706905951516853630177199820891095826040098994171867979751166117172662417394815552627893356544) rfl (Within.refl _)) hx).leaves _ _ (by decide +kernel)
theorem frame_ringHeadWrite (r fn : Nat) (v : W32) (σ τ : State) (rs : RegSet) (ps : List Part) (hc : mayChange (.ringHeadWrite r fn v) = some (rs, ps)) (hx : exec (.ringHeadWrite r fn v) σ = .next τ) : rs.leaves ps σ τ := by
  cases hc
  exact (out_within (within_execRingHeadWrite r fn v (μ := 116002208960594559289978532440477267759571076381234092721123817841249706905951516853630177199820891095826040098994171867979751166117172662417394815552627893357568) rfl (Within.refl _)) hx).leaves _ _ (by decide +kernel)
theorem frame_ringFlush (r fn : Nat) (σ τ : State) (rs : RegSet) (ps : List Part) (hc : mayChange (.ringFlush r fn) = some (rs, ps)) (hx : exec (.ringFlush r fn) σ = .next τ) : rs.leaves ps σ τ := by
  cases hc
  exact (out_within (within_execRingFlush r fn (μ := 116002208960594559289978532440477267759571076381234092721123817841249706905951516853630177199820891095826040098994171867979751166117172662417394815552627893356576) rfl (Within.refl _)) hx).leaves _ _ (by decide +kernel)
theorem frame_flushComplete (r : Nat) (heads : List FlushedEntry) (σ τ : State) (rs : RegSet) (ps : List Part) (hc : mayChange (.flushComplete r heads) = some (rs, ps)) (hx : exec (.flushComplete r heads) σ = .next τ) : rs.leaves ps σ τ := by
  cases hc
  exact (out_within (within_execFlushComplete r heads (μ := 61523174729798040591882167698967331187320837839296820992169355829153236202507718246128894819563038403525901704729375384835941896701960526428765013298509535792160) rfl (Within.refl _)) hx).leaves _ _ (by decide +kernel)
theorem frame_producerResume (r : Nat) (bad : Byte) (σ τ : State) (rs : RegSet) (ps : List Part) (hc : mayChange (.producerResume r bad) = some (rs, ps)) (hx : exec (.producerResume r bad) σ = .next τ) : rs.leaves ps σ τ := by
  cases hc
  exact (out_within (within_execProducerResume r bad (μ := 1243373631511159799618075390317669065277336343506000064763716334873118423642959641982694842256373315106943008410574207175312546561422291600002310875599997493988352) rfl (Within.refl _)) hx).leaves _ _ (by decide +kernel)
theorem frame_bar2Write (fn off : Nat) (data : List Byte) (poisoned : Bool) (σ τ : State) (rs : RegSet) (ps : List Part) (hc : mayChange (.bar2Write fn off data poisoned) = some (rs, ps)) (hx : exec (.bar2Write fn off data poisoned) σ = .next τ) : rs.leaves ps σ τ := by
  cases hc
  exact (out_within (within_execBar2Write fn off data poisoned (μ := 1240737522394053785602328141262771813870212625392013394301722105457668287617006881911585822216916590667256212080341160667017158355554840936706487148642642845255680) rfl (Within.refl _)) hx).leaves _ _ (by decide +kernel)
theorem frame_bar2Read (fn off n : Nat) (σ τ : State) (rs : RegSet) (ps : List Part) (hc : mayChange (.bar2Read fn off n) = some (rs, ps)) (hx : exec (.bar2Read fn off n) σ = .next τ) : rs.leaves ps σ τ := by
  cases hc
  exact (out_within (within_execBar2Read fn off n (μ := 228475107455406188630630393428726807054698014256245290918216218050791421309794833727937452487946805848187458757897622598242952059870600551736845167073023775229952) rfl (Within.refl _)) hx).leaves _ _ (by decide +kernel)
theorem frame_importDone (layer i : Nat) (data : List Byte) (σ τ : State) (rs : RegSet) (ps : List Part) (hc : mayChange (.importDone layer i data) = some (rs, ps)) (hx : exec (.importDone layer i data) σ = .next τ) : rs.leaves ps σ τ := by
  cases hc
  exact (out_within (within_execImportDone layer i data (μ := 1243373631511159799618075390317669065277336343506000064763716334873118423642959641982694842256373315106943008410574207175312546561422291600002310875599997493988352) rfl (Within.refl _)) hx).leaves _ _ (by decide +kernel)
theorem frame_importDmaFault (layer i : Nat) (σ τ : State) (rs : RegSet) (ps : List Part) (hc : mayChange (.importDmaFault layer i) = some (rs, ps)) (hx : exec (.importDmaFault layer i) σ = .next τ) : rs.leaves ps σ τ := by
  cases hc
  exact (out_within (within_execImportDmaFault layer i (μ := 3529364097014649719715069748327721287828648423686176893604928525953767389164319917797510975255070323077702466094145096138335342080354319500139622295169533103104) rfl (Within.refl _)) hx).leaves _ _ (by decide +kernel)
theorem frame_fenceComplete (ctx : Nat) (σ τ : State) (rs : RegSet) (ps : List Part) (hc : mayChange (.fenceComplete ctx) = some (rs, ps)) (hx : exec (.fenceComplete ctx) σ = .next τ) : rs.leaves ps σ τ := by
  cases hc
  exact (out_within (within_execFenceComplete ctx (μ := 3529364097014649719715069748327721287828648423686176893604928525953767389164319917797510975255070323077702466094145096138335342080354319500139622301766602803200) rfl (Within.refl _)) hx).leaves _ _ (by decide +kernel)
theorem frame_functionLevelReset (fn : Nat) (σ τ : State) (rs : RegSet) (ps : List Part) (hc : mayChange (.functionLevelReset fn) = some (rs, ps)) (hx : exec (.functionLevelReset fn) σ = .next τ) : rs.leaves ps σ τ := by
  cases hc
  exact (out_within (within_execFunctionLevelReset fn (μ := 1243373604695543939732881191169619068865644088547268423578929579425995536199431581835600885118930589216367493863915489316503413198946732127930515579172219951007780) rfl (Within.refl _)) hx).leaves _ _ (by decide +kernel)
theorem frame_perstN (host : Nat) (low : Bool) (σ τ : State) (rs : RegSet) (ps : List Part) (hc : mayChange (.perstN host low) = some (rs, ps)) (hx : exec (.perstN host low) σ = .next τ) : rs.leaves ps σ τ := by
  cases hc
  exact (out_within (within_execPerstN host low (μ := 1243373604695543939732881191169619068865644088547268423578929579425995536199431581835600885118930589216367493863915489316503413198946732127930515579172219984562212) rfl (Within.refl _)) hx).leaves _ _ (by decide +kernel)
theorem frame_pcieLinkChange (host : Nat) (rate width : BitVec 2) (σ τ : State) (rs : RegSet) (ps : List Part) (hc : mayChange (.pcieLinkChange host rate width) = some (rs, ps)) (hx : exec (.pcieLinkChange host rate width) σ = .next τ) : rs.leaves ps σ τ := by
  cases hc
  exact (out_within (within_execPcieLinkChange host rate width (μ := 3529364097014649719715069748327721287828648423686176893604928525953767389164319917797510975255070323077702466094145096138335342080354319500139622295169566525440) rfl (Within.refl _)) hx).leaves _ _ (by decide +kernel)
theorem frame_dispatch (σ τ : State) (rs : RegSet) (ps : List Part) (hc : mayChange (.dispatch) = some (rs, ps)) (hx : exec (.dispatch) σ = .next τ) : rs.leaves ps σ τ := by
  cases hc
  exact (out_within (within_execDispatch  (μ := 878694100496718043517683302282418331810487718418343092402491322775749527474899974671687634004666183037093927858109549828751614463963730408009475621262727315456) rfl (Within.refl _)) hx).leaves _ _ (by decide +kernel)
theorem frame_affinityWaitEnd (slot : Nat) (σ τ : State) (rs : RegSet) (ps : List Part) (hc : mayChange (.affinityWaitEnd slot) = some (rs, ps)) (hx : exec (.affinityWaitEnd slot) σ = .next τ) : rs.leaves ps σ τ := by
  cases hc
  exact (out_within (within_execAffinityWaitEnd slot (μ := 225906761399578104500624391496170487993902576857115894412353003514877855079250065363249192654887146495192867015270852076285610381094675314584186123004014300758016) rfl (Within.refl _)) hx).leaves _ _ (by decide +kernel)
theorem frame_tileTaskCreate (σ τ : State) (rs : RegSet) (ps : List Part) (hc : mayChange (.tileTaskCreate) = some (rs, ps)) (hx : exec (.tileTaskCreate) σ = .next τ) : rs.leaves ps σ τ := by
  cases hc
  exact (out_within (within_execTileTaskCreate  (μ := 4408058197511367763232753050610139619639136142104519986007419848729516916639219892469198609259736506114796393952254645967086956544318049908149097923029330053120) rfl (Within.refl _)) hx).leaves _ _ (by decide +kernel)
theorem frame_taskRecreate (σ τ : State) (rs : RegSet) (ps : List Part) (hc : mayChange (.taskRecreate) = some (rs, ps)) (hx : exec (.taskRecreate) σ = .next τ) : rs.leaves ps σ τ := by
  cases hc
  exact (out_within (within_execTaskRecreate  (μ := 4408058197511367763232753050610139619639136142104519986007419848729516916639219892469198609259736506114796393952254645967086956544318049908149097923029330053120) rfl (Within.refl _)) hx).leaves _ _ (by decide +kernel)
theorem frame_taskRebind (slot : Nat) (σ τ : State) (rs : RegSet) (ps : List Part) (hc : mayChange (.taskRebind slot) = some (rs, ps)) (hx : exec (.taskRebind slot) σ = .next τ) : rs.leaves ps σ τ := by
  cases hc
  exact (out_within (within_execTaskRebind slot (μ := 878694100496718043517683302282418331810487718418343092402491322775749527474899974671687634004666183037093927858109549828751614463963730408009475621262727315456) rfl (Within.refl _)) hx).leaves _ _ (by decide +kernel)
theorem frame_schedCancel (fn : Nat) (v : W32) (same : Bool) (σ τ : State) (rs : RegSet) (ps : List Part) (hc : mayChange (.schedCancel fn v same) = some (rs, ps)) (hx : exec (.schedCancel fn v same) σ = .next τ) : rs.leaves ps σ τ := by
  cases hc
  exact (out_within (within_execSchedCancel fn v same (μ := 1243373604695543939732881191169619068865644088547268423578929579425995536199431582013457534187448265386972526837260115779126109645370638492537364615326787101018112) rfl (Within.refl _)) hx).leaves _ _ (by decide +kernel)
theorem frame_schedKick (fn : Nat) (v : W32) (σ τ : State) (rs : RegSet) (ps : List Part) (hc : mayChange (.schedKick fn v) = some (rs, ps)) (hx : exec (.schedKick fn v) σ = .next τ) : rs.leaves ps σ τ := by
  cases hc
  exact (out_within (within_execSchedKick fn v (μ := 116880903061091277333496215742759686091381564099652435813526309164025456433426416828301864833825557278863134026852281417808502780581136392825404294839662387677184) rfl (Within.refl _)) hx).leaves _ _ (by decide +kernel)
theorem frame_ctxDisable (fn ctx : Nat) (v : W32) (σ τ : State) (rs : RegSet) (ps : List Part) (hc : mayChange (.ctxDisable fn ctx v) = some (rs, ps)) (hx : exec (.ctxDisable fn ctx v) σ = .next τ) : rs.leaves ps σ τ := by
  cases hc
  exact (out_within (within_execCtxDisable fn ctx v (μ := 1243377037094374005037738682120018609562252723264918495231634276657725128971023280841483595467268596114250015485415811519555128206364638350859270902340932658546688) rfl (Within.refl _)) hx).leaves _ _ (by decide +kernel)
theorem frame_coreTimePeriodEnd (ctx : Nat) (σ τ : State) (rs : RegSet) (ps : List Part) (hc : mayChange (.coreTimePeriodEnd ctx) = some (rs, ps)) (hx : exec (.coreTimePeriodEnd ctx) σ = .next τ) : rs.leaves ps σ τ := by
  cases hc
  exact (out_within (within_execCoreTimePeriodEnd ctx (μ := 229436125496592754220339461244498209281731225280802071305957932040831622468414385281046703630142216818270569481364997172423945723175029634084325745306330659309568) rfl (Within.refl _)) hx).leaves _ _ (by decide +kernel)
theorem frame_inputLogEnter (i : Nat) (poisoned : Bool) (σ τ : State) (rs : RegSet) (ps : List Part) (hc : mayChange (.inputLogEnter i poisoned) = some (rs, ps)) (hx : exec (.inputLogEnter i poisoned) σ = .next τ) : rs.leaves ps σ τ := by
  cases hc
  exact (out_within (within_execInputLogEnter i poisoned (μ := 1243373631511159799618075390317669065277336343506000064763716334873118423642959641982694842256373315106943008410574207175312546561422291600002310875599997493332992) rfl (Within.refl _)) hx).leaves _ _ (by decide +kernel)
theorem frame_frameInstant (fc : Nat) (σ τ : State) (rs : RegSet) (ps : List Part) (hc : mayChange (.frameInstant fc) = some (rs, ps)) (hx : exec (.frameInstant fc) σ = .next τ) : rs.leaves ps σ τ := by
  cases hc
  exact (out_within (within_execFrameInstant fc (μ := 334879846606052677605568643887188351686065830830709501350844977927887764861851435657756800451729899473408409257806353983642143922923189504469647775244887265396736) rfl (Within.refl _)) hx).leaves _ _ (by decide +kernel)
theorem frame_commit (c : Nat) (σ τ : State) (rs : RegSet) (ps : List Part) (hc : mayChange (.commit c) = some (rs, ps)) (hx : exec (.commit c) σ = .next τ) : rs.leaves ps σ τ := by
  cases hc
  exact leaves_any (out_within (within_execCommit c (μ := 1798794327520764114824242104304545939690318489157497819958002325237615109030264620556159344825936408008715642647977785054570320562860521672994819528497131465736191) rfl (Within.refl _)) hx) _ (by intro p hp; cases p <;> first | decide +kernel | exact absurd (by simp) hp)
theorem frame_stallRelease (c : Nat) (σ τ : State) (rs : RegSet) (ps : List Part) (hc : mayChange (.stallRelease c) = some (rs, ps)) (hx : exec (.stallRelease c) σ = .next τ) : rs.leaves ps σ τ := by
  cases hc
  exact (out_within (within_execStallRelease c (μ := 6165446398504803850268119655174976283260111578941206170812402494281015971589019841812573877269068872188984249668473745624590185472245510856394314345079547906048) rfl (Within.refl _)) hx).leaves _ _ (by decide +kernel)
theorem frame_canvasEnable (fn c : Nat) (v : W32) (σ τ : State) (rs : RegSet) (ps : List Part) (hc : mayChange (.canvasEnable fn c v) = some (rs, ps)) (hx : exec (.canvasEnable fn c v) σ = .next τ) : rs.leaves ps σ τ := by
  cases hc
  exact (out_within (within_execCanvasEnable fn c v (μ := 1313669347260208262295849448536612506704021145690589000449422928825038597945648061163944177271504460257163543273013612235040084117517655667858671751285398044690432) rfl (Within.refl _)) hx).leaves _ _ (by decide +kernel)
theorem frame_canvasDisable (fn c : Nat) (v : W32) (σ τ : State) (rs : RegSet) (ps : List Part) (hc : mayChange (.canvasDisable fn c v) = some (rs, ps)) (hx : exec (.canvasDisable fn c v) σ = .next τ) : rs.leaves ps σ τ := by
  cases hc
  exact (out_within (within_execCanvasDisable fn c v (μ := 1313669347260208262295849448536612506704021145690589000449422928825038597945648061163944177271504460257163543273013612235040084117517655667858671751285398044690432) rfl (Within.refl _)) hx).leaves _ _ (by decide +kernel)
theorem frame_squash (fn c : Nat) (σ τ : State) (rs : RegSet) (ps : List Part) (hc : mayChange (.squash fn c) = some (rs, ps)) (hx : exec (.squash fn c) σ = .next τ) : rs.leaves ps σ τ := by
  cases hc
  exact (out_within (within_execSquash fn c (μ := 1243373631511159799618075390317669065277336343506000064763716334873118423642959642160551491324890991277548041383918833637935243007846197867781757546995359183554560) rfl (Within.refl _)) hx).leaves _ _ (by decide +kernel)
theorem frame_pin (fn c : Nat) (σ τ : State) (rs : RegSet) (ps : List Part) (hc : mayChange (.pin fn c) = some (rs, ps)) (hx : exec (.pin fn c) σ = .next τ) : rs.leaves ps σ τ := by
  cases hc
  exact (out_within (within_execPin fn c (μ := 1243373631511159799618075390317669065277336343506000064763716334873118423642959642160551491324890991277548041383918833637935243007846197867781757546995359183554560) rfl (Within.refl _)) hx).leaves _ _ (by decide +kernel)
theorem frame_unpin (fn c : Nat) (σ τ : State) (rs : RegSet) (ps : List Part) (hc : mayChange (.unpin fn c) = some (rs, ps)) (hx : exec (.unpin fn c) σ = .next τ) : rs.leaves ps σ τ := by
  cases hc
  exact (out_within (within_execUnpin fn c (μ := 1243373631511159799618075390317669065277336343506000064763716334873118423642959642160551491324890991277548041383918833637935243007846197867781757546995359183554560) rfl (Within.refl _)) hx).leaves _ _ (by decide +kernel)
theorem frame_wake (fn c : Nat) (σ τ : State) (rs : RegSet) (ps : List Part) (hc : mayChange (.wake fn c) = some (rs, ps)) (hx : exec (.wake fn c) σ = .next τ) : rs.leaves ps σ τ := by
  cases hc
  exact (out_within (within_execWake fn c (μ := 1243373631511159799618075390317669065277336343506000064763716334873118423642959642160551491324890991277548041383918833637935243007846197867781757546995359183554560) rfl (Within.refl _)) hx).leaves _ _ (by decide +kernel)
theorem frame_shadowedWrite (fn off : Nat) (v : W32) (σ τ : State) (rs : RegSet) (ps : List Part) (hc : mayChange (.shadowedWrite fn off v) = some (rs, ps)) (hx : exec (.shadowedWrite fn off v) σ = .next τ) : rs.leaves ps σ τ := by
  cases hc
  exact leaves_any (out_within (within_execShadowedWrite fn off v (μ := 1799565383739199253698244407334142761489417572527108447316368451809120660236106090095701267013075390291035241000078373494382818241153271096339299034784173349928959) rfl (Within.refl _)) hx) _ (by intro p hp; cases p <;> first | decide +kernel | exact absurd (by simp) hp)
theorem frame_glazeSegment (pipe : Nat) (dataError : Bool) (σ τ : State) (rs : RegSet) (ps : List Part) (hc : mayChange (.glazeSegment pipe dataError) = some (rs, ps)) (hx : exec (.glazeSegment pipe dataError) σ = .next τ) : rs.leaves ps σ τ := by
  cases hc
  exact (out_within (within_execGlazeSegment pipe dataError (μ := 328646181280800325821257891592822504057709104238473121082526717952981092554877310546321935556981558046802455773594678534170229268655138130890885126371698005788672) rfl (Within.refl _)) hx).leaves _ _ (by decide +kernel)
theorem frame_windowEnd (c : Nat) (e : W32) (σ τ : State) (rs : RegSet) (ps : List Part) (hc : mayChange (.windowEnd c e) = some (rs, ps)) (hx : exec (.windowEnd c e) σ = .next τ) : rs.leaves ps σ τ := by
  cases hc
  exact (out_within (within_execWindowEnd c e (μ := 298852959435833479658236442124809257494759755035851175605754746540115835138931483280110026716510845278200989782155651653496813662889687917957310789857239707437056) rfl (Within.refl _)) hx).leaves _ _ (by decide +kernel)
theorem frame_planeCut (c : Nat) (e : W32) (p : Nat) (σ τ : State) (rs : RegSet) (ps : List Part) (hc : mayChange (.planeCut c e p) = some (rs, ps)) (hx : exec (.planeCut c e p) σ = .next τ) : rs.leaves ps σ τ := by
  cases hc
  exact (out_within (within_execPlaneCut c e p (μ := 239087172907028875153389641030406762971059892633391040798390373356514097991373564983324507164957139240749275933142495323716884598054131270704328257322955210489856) rfl (Within.refl _)) hx).leaves _ _ (by decide +kernel)
theorem frame_mordWrite (fn : Nat) (v : W32) (σ τ : State) (rs : RegSet) (ps : List Part) (hc : mayChange (.mordWrite fn v) = some (rs, ps)) (hx : exec (.mordWrite fn v) σ = .next τ) : rs.leaves ps σ τ := by
  cases hc
  exact (out_within (within_execMordWrite fn v (μ := 130061314568542047986261465276995961068538879875927582199563679005661699345549916448377179343895550024419542944723924665239776997540595443795644638943518778214400) rfl (Within.refl _)) hx).leaves _ _ (by decide +kernel)
theorem frame_mordRead (fn : Nat) (σ τ : State) (rs : RegSet) (ps : List Part) (hc : mayChange (.mordRead fn) = some (rs, ps)) (hx : exec (.mordRead fn) σ = .next τ) : rs.leaves ps σ τ := by
  cases hc
  exact (out_within (within_execMordRead fn (μ := 3529417728246369490103468044427714111213158341149459263178439420199542276220440389842067251269939161296446199566204304705235203519792550863288086874470158977024) rfl (Within.refl _)) hx).leaves _ _ (by decide +kernel)
theorem frame_etabStageWrite (fn e k : Nat) (v : W32) (σ τ : State) (rs : RegSet) (ps : List Part) (hc : mayChange (.etabStageWrite fn e k v) = some (rs, ps)) (hx : exec (.etabStageWrite fn e k v) σ = .next τ) : rs.leaves ps σ τ := by
  cases hc
  exact (out_within (within_execEtabStageWrite fn e k v (μ := 1271491842727054777010641255990706451895271950495387043720596057201942412596228394019017668149931685953491369178315126564327799930657923401175681369729565127362560) rfl (Within.refl _)) hx).leaves _ _ (by decide +kernel)
theorem frame_etabPublish (fn e : Nat) (v : W32) (σ τ : State) (rs : RegSet) (ps : List Part) (hc : mayChange (.etabPublish fn e v) = some (rs, ps)) (hx : exec (.etabPublish fn e v) σ = .next τ) : rs.leaves ps σ τ := by
  cases hc
  exact (out_within (within_execEtabPublish fn e v (μ := 1271491842727054777010641255990706451895271950495387043720596057201942412596228394019017668149931685953491369178315126564327799930657923401175681369729565127362560) rfl (Within.refl _)) hx).leaves _ _ (by decide +kernel)
theorem frame_viewWrite (fn ctx : Nat) (isN : Bool) (v : W32) (σ τ : State) (rs : RegSet) (ps : List Part) (hc : mayChange (.viewWrite fn ctx isN v) = some (rs, ps)) (hx : exec (.viewWrite fn ctx isN v) σ = .next τ) : rs.leaves ps σ τ := by
  cases hc
  exact (out_within (within_execViewWrite fn ctx isN v (μ := 1243373631511159799618075390317669065277336343506000064763716334873118423642959642160551491324890991277548041383918833637939326396249249226170720407043745863976960) rfl (Within.refl _)) hx).leaves _ _ (by decide +kernel)
theorem frame_tableBaseWrite (fn : Nat) (isStbl : Bool) (v : W32) (σ τ : State) (rs : RegSet) (ps : List Part) (hc : mayChange (.tableBaseWrite fn isStbl v) = some (rs, ps)) (hx : exec (.tableBaseWrite fn isStbl v) σ = .next τ) : rs.leaves ps σ τ := by
  cases hc
  exact (out_within (within_execTableBaseWrite fn isStbl v (μ := 116002208960594559289978532440477267759571076381234092721123817841249706905951516853630177199820891095826040098994171867979755184954941168373979298156786709710848) rfl (Within.refl _)) hx).leaves _ _ (by decide +kernel)
theorem frame_fltClr (fn : Nat) (v : W32) (σ τ : State) (rs : RegSet) (ps : List Part) (hc : mayChange (.fltClr fn v) = some (rs, ps)) (hx : exec (.fltClr fn v) σ = .next τ) : rs.leaves ps σ τ := by
  cases hc
  exact (out_within (within_execFltClr fn v (μ := 1271491842727054777010641255990706451895271950495387043720596057201942408522156441350045495613040309134735047075378339232455294670693037337665463131634971919534080) rfl (Within.refl _)) hx).leaves _ _ (by decide +kernel)
theorem frame_drvKick (fn : Nat) (v : W32) (σ τ : State) (rs : RegSet) (ps : List Part) (hc : mayChange (.drvKick fn v) = some (rs, ps)) (hx : exec (.drvKick fn v) σ = .next τ) : rs.leaves ps σ τ := by
  cases hc
  exact (out_within (within_execDrvKick fn v (μ := 144120420176489536682544398113514654377506683370621071678003540170073691785148316043124181487970208953013045790453677462499802828964012035473698035433035167451136) rfl (Within.refl _)) hx).leaves _ _ (by decide +kernel)
theorem frame_blackoutOn (fn : Nat) (σ τ : State) (rs : RegSet) (ps : List Part) (hc : mayChange (.blackoutOn fn) = some (rs, ps)) (hx : exec (.blackoutOn fn) σ = .next τ) : rs.leaves ps σ τ := by
  cases hc
  exact (out_within (within_execBlackoutOn fn (μ := 200356869423895351352870328607639424025070152308126670776549740274844548987069974569206143668017441001193912553436405024512050397461321522787377289887076698834944) rfl (Within.refl _)) hx).leaves _ _ (by decide +kernel)
theorem frame_blackoutOff (fn : Nat) (σ τ : State) (rs : RegSet) (ps : List Part) (hc : mayChange (.blackoutOff fn) = some (rs, ps)) (hx : exec (.blackoutOff fn) σ = .next τ) : rs.leaves ps σ τ := by
  cases hc
  exact (out_within (within_execBlackoutOff fn (μ := 200356869423895351352870328607639424025070152308126670776549740274844548987069974569206143668017441001193912553436405024512050397461321522787377289887076698834944) rfl (Within.refl _)) hx).leaves _ _ (by decide +kernel)
theorem frame_blackoutRepeat (σ τ : State) (rs : RegSet) (ps : List Part) (hc : mayChange (.blackoutRepeat) = some (rs, ps)) (hx : exec (.blackoutRepeat) σ = .next τ) : rs.leaves ps σ τ := by
  cases hc
  exact (out_within (within_execBlackoutRepeat  (μ := 312912091859396828239713574109377947215419813489276306268981363151650715022057943021950982464334100540601348007949120779127450804759349646738365822186440940865536) rfl (Within.refl _)) hx).leaves _ _ (by decide +kernel)
theorem frame_clear (fn g : Nat) (v : W32) (σ τ : State) (rs : RegSet) (ps : List Part) (hc : mayChange (.clear fn g v) = some (rs, ps)) (hx : exec (.clear fn g v) σ = .next τ) : rs.leaves ps σ τ := by
  cases hc
  exact (out_within (within_execClear fn g v (μ := 1271491842727054777010641255990706451895271950495387043720596057201942408522156441350045495613040309134735047075378339232477072742175977399327119106510605085067264) rfl (Within.refl _)) hx).leaves _ _ (by decide +kernel)
theorem frame_force (fn g : Nat) (v : W32) (σ τ : State) (rs : RegSet) (ps : List Part) (hc : mayChange (.force fn g v) = some (rs, ps)) (hx : exec (.force fn g v) σ = .next τ) : rs.leaves ps σ τ := by
  cases hc
  exact (out_within (within_execForce fn g v (μ := 1271491842727054777010641255990706451895271950495387043720596057201942408522156441350045495613040309134735047075378339232477072742175977399327119106510605085067264) rfl (Within.refl _)) hx).leaves _ _ (by decide +kernel)
theorem frame_streamTerminated (fn u : Nat) (v : W32) (σ τ : State) (rs : RegSet) (ps : List Part) (hc : mayChange (.streamTerminated fn u v) = some (rs, ps)) (hx : exec (.streamTerminated fn u v) σ = .next τ) : rs.leaves ps σ τ := by
  cases hc
  exact (out_within (within_execStreamTerminated fn u v (μ := 439361637943386799304485987680407213865830556759184350725240624622725533016714707532811226513538046453476605550778486206528366435627549506285369167391696235808768) rfl (Within.refl _)) hx).leaves _ _ (by decide +kernel)
theorem frame_latch (c : Nat) (σ τ : State) (rs : RegSet) (ps : List Part) (hc : mayChange (.latch c) = some (rs, ps)) (hx : exec (.latch c) σ = .next τ) : rs.leaves ps σ τ := by
  cases hc
  exact (out_within (within_execLatch c (μ := 312912065043780968354519374961327950803727558530544665084194607704527827578529882874857028860585504206794492627885404406155349097251584022845225929319142928697344) rfl (Within.refl _)) hx).leaves _ _ (by decide +kernel)
theorem frame_beacon (c : Nat) (σ τ : State) (rs : RegSet) (ps : List Part) (hc : mayChange (.beacon c) = some (rs, ps)) (hx : exec (.beacon c) σ = .next τ) : rs.leaves ps σ τ := by
  cases hc
  exact (out_within (within_execBeacon c (μ := 312912065043780968354519374961327950803727558530544665084194607704527827578529882874857028860585504206794492627885404406155349097251584022845225929319142928697344) rfl (Within.refl _)) hx).leaves _ _ (by decide +kernel)
theorem frame_sacnSync (c : Nat) (σ τ : State) (rs : RegSet) (ps : List Part) (hc : mayChange (.sacnSync c) = some (rs, ps)) (hx : exec (.sacnSync c) σ = .next τ) : rs.leaves ps σ τ := by
  cases hc
  exact (out_within (within_execSacnSync c (μ := 312912065043780968354519374961327950803727558530544665084194607704527827578529882874857028860585504206794492627885404406155349097251584022845225929319142928697344) rfl (Within.refl _)) hx).leaves _ _ (by decide +kernel)
theorem frame_dmxPacketStart (p : Nat) (σ τ : State) (rs : RegSet) (ps : List Part) (hc : mayChange (.dmxPacketStart p) = some (rs, ps)) (hx : exec (.dmxPacketStart p) σ = .next τ) : rs.leaves ps σ τ := by
  cases hc
  exact (out_within (within_execDmxPacketStart p (μ := 281182112158949773925658656730373866179356069893869789568797223288239848791967991894940042881493178571870056914595055945200516628468393730563032198804072740945920) rfl (Within.refl _)) hx).leaves _ _ (by decide +kernel)
theorem frame_dmxPacketEnd (p : Nat) (σ τ : State) (rs : RegSet) (ps : List Part) (hc : mayChange (.dmxPacketEnd p) = some (rs, ps)) (hx : exec (.dmxPacketEnd p) σ = .next τ) : rs.leaves ps σ τ := by
  cases hc
  exact (out_within (within_execDmxPacketEnd p (μ := 281265347830578857568452812277562728072115461796884027146886131157682473503066688474572028917136198708349156632370677650604216732572890294869259658897102511013888) rfl (Within.refl _)) hx).leaves _ _ (by decide +kernel)
theorem frame_stat (port : Nat) (m : RxFrame) (σ τ : State) (rs : RegSet) (ps : List Part) (hc : mayChange (.stat port m) = some (rs, ps)) (hx : exec (.stat port m) σ = .next τ) : rs.leaves ps σ τ := by
  cases hc
  exact (out_within (within_execStat port m (μ := 1327810642730766299112352770146370201849750397697762721299268235421100604798750811423802325836509206133163753040689421729190927743757737950390373206070466422523904) rfl (Within.refl _)) hx).leaves _ _ (by decide +kernel)
theorem frame_nodeLost (e : Nat) (σ τ : State) (rs : RegSet) (ps : List Part) (hc : mayChange (.nodeLost e) = some (rs, ps)) (hx : exec (.nodeLost e) σ = .next τ) : rs.leaves ps σ τ := by
  cases hc
  exact (out_within (within_execNodeLost e (μ := 1271574220298976344327221038800295428613879183718988763385508790763452635040357213044814317260210570418789741657770410540150824418064059204277766766309651874334720) rfl (Within.refl _)) hx).leaves _ _ (by decide +kernel)
theorem frame_setGo (fn : Nat) (σ τ : State) (rs : RegSet) (ps : List Part) (hc : mayChange (.setGo fn) = some (rs, ps)) (hx : exec (.setGo fn) σ = .next τ) : rs.leaves ps σ τ := by
  cases hc
  exact (out_within (within_execSetGo fn (μ := 116084586532516126606558315250066244478178309604835812386036551402759933424152288726255647915508828550485768804102525287692840398733439624875033417946462911744000) rfl (Within.refl _)) hx).leaves _ _ (by decide +kernel)
theorem frame_otLoRead (fn : Nat) (σ τ : State) (rs : RegSet) (ps : List Part) (hc : mayChange (.otLoRead fn) = some (rs, ps)) (hx : exec (.otLoRead fn) σ = .next τ) : rs.leaves ps σ τ := by
  cases hc
  exact (out_within (within_execOtLoRead fn (μ := 3529417728246369490103468044427714111213158341149459263178439420199542276220440389842067251269939161296455394539449500038385353601954833748370156619065811027968) rfl (Within.refl _)) hx).leaves _ _ (by decide +kernel)
theorem frame_measPush (fn d : Nat) (σ τ : State) (rs : RegSet) (ps : List Part) (hc : mayChange (.measPush fn d) = some (rs, ps)) (hx : exec (.measPush fn d) σ = .next τ) : rs.leaves ps σ τ := by
  cases hc
  exact (out_within (within_execMeasPush fn d (μ := 123114166152105730839893980816375587544354466310914198310043237432088817087479548670723102591294757639598490249443202369233320136653925057503980382943589439653888) rfl (Within.refl _)) hx).leaves _ _ (by decide +kernel)
theorem frame_annKick (fn d : Nat) (σ τ : State) (rs : RegSet) (ps : List Part) (hc : mayChange (.annKick fn d) = some (rs, ps)) (hx : exec (.annKick fn d) σ = .next τ) : rs.leaves ps σ τ := by
  cases hc
  exact (out_within (within_execAnnKick fn d (μ := 123031761764568303638119998858736614414054978128580837460343748423455703125750716651003678271858220560122791521859048266609764081828882505681470620522729711880192) rfl (Within.refl _)) hx).leaves _ _ (by decide +kernel)
theorem frame_announceTimeout (d : Nat) (σ τ : State) (rs : RegSet) (ps : List Part) (hc : mayChange (.announceTimeout d) = some (rs, ps)) (hx : exec (.announceTimeout d) σ = .next τ) : rs.leaves ps σ τ := by
  cases hc
  exact (out_within (within_execAnnounceTimeout d (μ := 235586984200069780524963244360475137604404639309730472952775371300261869160738685103748517068174880099530228125743419670641850793183046109672279788702364562638848) rfl (Within.refl _)) hx).leaves _ _ (by decide +kernel)
theorem frame_timeSelWrite (fn : Nat) (v : W32) (σ τ : State) (rs : RegSet) (ps : List Part) (hc : mayChange (.timeSelWrite fn v) = some (rs, ps)) (hx : exec (.timeSelWrite fn v) σ = .next τ) : rs.leaves ps σ τ := by
  cases hc
  exact (out_within (within_execTimeSelWrite fn v (μ := 123031761764568303638119998858736614414054978128580837460343748423455703125750716651003678271858220560122792862792646524262515145382531262202006286919461622532096) rfl (Within.refl _)) hx).leaves _ _ (by decide +kernel)
theorem frame_domEnWrite (fn d : Nat) (v : W32) (σ τ : State) (rs : RegSet) (ps : List Part) (hc : mayChange (.domEnWrite fn d v) = some (rs, ps)) (hx : exec (.domEnWrite fn d v) σ = .next τ) : rs.leaves ps σ τ := by
  cases hc
  exact (out_within (within_execDomEnWrite fn d v (μ := 123031761764568303638119998858736614414054978128580837460343748423455703125750716651003678271858220662966827503806081550711981760423559429834349936675812808869888) rfl (Within.refl _)) hx).leaves _ _ (by decide +kernel)
theorem frame_fcEnable (fn n : Nat) (v : W32) (σ τ : State) (rs : RegSet) (ps : List Part) (hc : mayChange (.fcEnable fn n v) = some (rs, ps)) (hx : exec (.fcEnable fn n v) σ = .next τ) : rs.leaves ps σ τ := by
  cases hc
  exact (out_within (within_execFcEnable fn n v (μ := 123031761764568303638119998858736614414054978128580837460343748423455703125750716651003678271858220560122792288106818699554193261002396080836065316699651948169216) rfl (Within.refl _)) hx).leaves _ _ (by decide +kernel)
theorem frame_fcCtrlWrite (fn n : Nat) (v : W32) (σ τ : State) (rs : RegSet) (ps : List Part) (hc : mayChange (.fcCtrlWrite fn n v) = some (rs, ps)) (hx : exec (.fcCtrlWrite fn n v) σ = .next τ) : rs.leaves ps σ τ := by
  cases hc
  exact (out_within (within_execFcCtrlWrite fn n v (μ := 123031761764568303638119998858736614414054978128580837460343748423455703125750716651003678271858220560122792288106818699554193261002396080836065316699651948169216) rfl (Within.refl _)) hx).leaves _ _ (by decide +kernel)
theorem frame_fcPhaseWrite (fn n : Nat) (v : W32) (σ τ : State) (rs : RegSet) (ps : List Part) (hc : mayChange (.fcPhaseWrite fn n v) = some (rs, ps)) (hx : exec (.fcPhaseWrite fn n v) σ = .next τ) : rs.leaves ps σ τ := by
  cases hc
  exact (out_within (within_execFcPhaseWrite fn n v (μ := 123031761764568303638119998858736614414054978128580837460343748423455703125750716651003678271858220560122792288106818699554193261002396080836065321203251575539712) rfl (Within.refl _)) hx).leaves _ _ (by decide +kernel)
theorem frame_nextLoRead (fn n : Nat) (σ τ : State) (rs : RegSet) (ps : List Part) (hc : mayChange (.nextLoRead fn n) = some (rs, ps)) (hx : exec (.nextLoRead fn n) σ = .next τ) : rs.leaves ps σ τ := by
  cases hc
  exact (out_within (within_execNextLoRead fn n (μ := 3529417728246369490103468044427714111213158341149459263178439420199542276220440389842067251269939161296446199566204304705235203519791931893268876529896936982528) rfl (Within.refl _)) hx).leaves _ _ (by decide +kernel)
theorem frame_tsqPop (fn p : Nat) (poison : BitVec 4) (σ τ : State) (rs : RegSet) (ps : List Part) (hc : mayChange (.tsqPop fn p poison) = some (rs, ps)) (hx : exec (.tsqPop fn p poison) σ = .next τ) : rs.leaves ps σ τ := by
  cases hc
  exact (out_within (within_execTsqPop fn p poison (μ := 59765840160036324275235199390502487347084372319923417176937884077847512034614038768830075827580369852337335987395382312845909617633186928690736384405630087088128) rfl (Within.refl _)) hx).leaves _ _ (by decide +kernel)
theorem frame_tsqFlush (fn p : Nat) (σ τ : State) (rs : RegSet) (ps : List Part) (hc : mayChange (.tsqFlush fn p) = some (rs, ps)) (hx : exec (.tsqFlush fn p) σ = .next τ) : rs.leaves ps σ τ := by
  cases hc
  exact (out_within (within_execTsqFlush fn p (μ := 172238631392384514075110263786552040995442290360008050634883262498897676664345115232618185776133006783533626801810516564563364307147669980741271541553994246670336) rfl (Within.refl _)) hx).leaves _ _ (by decide +kernel)
theorem frame_ppsInEdge (at_ : W64) (frac : BitVec 16) (σ τ : State) (rs : RegSet) (ps : List Part) (hc : mayChange (.ppsInEdge at_ frac) = some (rs, ps)) (hx : exec (.ppsInEdge at_ frac) σ = .next τ) : rs.leaves ps σ τ := by
  cases hc
  exact (out_within (within_execPpsInEdge at_ frac (μ := 235586984200069780524963244360475137604404639309730472952775371300261869160738685103748517068174880099530226976371764021225207024422775746940392074648022924937216) rfl (Within.refl _)) hx).leaves _ _ (by decide +kernel)
theorem frame_ppsInLoRead (fn : Nat) (σ τ : State) (rs : RegSet) (ps : List Part) (hc : mayChange (.ppsInLoRead fn) = some (rs, ps)) (hx : exec (.ppsInLoRead fn) σ = .next τ) : rs.leaves ps σ τ := by
  cases hc
  exact (out_within (within_execPpsInLoRead fn (μ := 3529417728246369490103468044427714111213158341149459263178439420199542276220440389842067251269939180579702730674087611208780311613743162159704369577846733031424) rfl (Within.refl _)) hx).leaves _ _ (by decide +kernel)
theorem frame_ppsOutPulse (i : Nat) (σ τ : State) (rs : RegSet) (ps : List Part) (hc : mayChange (.ppsOutPulse i) = some (rs, ps)) (hx : exec (.ppsOutPulse i) σ = .next τ) : rs.leaves ps σ τ := by
  cases hc
  exact (out_within (within_execPpsOutPulse i (μ := 232057620103055130805248174612147416316575990886044296059170442774308101771574365185951006092919809776452524510277618925086871682342421427440252452352853391966208) rfl (Within.refl _)) hx).leaves _ _ (by decide +kernel)
theorem frame_ref10Window (at_ : W64) (σ τ : State) (rs : RegSet) (ps : List Part) (hc : mayChange (.ref10Window at_) = some (rs, ps)) (hx : exec (.ref10Window at_) σ = .next τ) : rs.leaves ps σ τ := by
  cases hc
  exact (out_within (within_execRef10Window at_ (μ := 232057620103055130805248174612147416316575990886044296059170442774308101771574365185951006092919809827874542309689192958901873226846381495728044158087004667510784) rfl (Within.refl _)) hx).leaves _ _ (by decide +kernel)
theorem frame_ref10Loss (σ τ : State) (rs : RegSet) (ps : List Part) (hc : mayChange (.ref10Loss) = some (rs, ps)) (hx : exec (.ref10Loss) σ = .next τ) : rs.leaves ps σ τ := by
  cases hc
  exact (out_within (within_execRef10Loss  (μ := 10558916900988394067856536166587067942312550171032921632824859108159763608963519715171012047292399787374455038330677144184992026552334525496103141319612989196288) rfl (Within.refl _)) hx).leaves _ _ (by decide +kernel)
theorem frame_frameStart (p : Nat) (σ τ : State) (rs : RegSet) (ps : List Part) (hc : mayChange (.frameStart p) = some (rs, ps)) (hx : exec (.frameStart p) σ = .next τ) : rs.leaves ps σ τ := by
  cases hc
  exact (out_within (within_execFrameStart p (μ := 59765786528804604504846801094402494523699862402460134807364373183601737147557918296785519551553706037451713849013156329779929064835279348684182607352707093121024) rfl (Within.refl _)) hx).leaves _ _ (by decide +kernel)
theorem frame_txFrameEnd (p : Nat) (σ τ : State) (rs : RegSet) (ps : List Part) (hc : mayChange (.txFrameEnd p) = some (rs, ps)) (hx : exec (.txFrameEnd p) σ = .next τ) : rs.leaves ps σ τ := by
  cases hc
  exact (out_within (within_execTxFrameEnd p (μ := 284793853827885990961953509288290564185791951541157686127314885375703842699333083685363024572517066189608938855809899856896356326425656083056544426882046485350400) rfl (Within.refl _)) hx).leaves _ _ (by decide +kernel)
theorem frame_txDescriptorFrame (r : Nat) (ds : List TxDesc) (data : List Byte) (poisoned : Bool) (σ τ : State) (rs : RegSet) (ps : List Part) (hc : mayChange (.txDescriptorFrame r ds data poisoned) = some (rs, ps)) (hx : exec (.txDescriptorFrame r ds data poisoned) σ = .next τ) : rs.leaves ps σ τ := by
  cases hc
  exact (out_within (within_execTxDescriptorFrame r ds data poisoned (μ := 59765786528804604504846801094402494523699862402460134807364373183601737147557918296785519551553706037451713849013156285178438667774033065612746062055984081161216) rfl (Within.refl _)) hx).leaves _ _ (by decide +kernel)
theorem frame_gateCycleStart (p : Nat) (σ τ : State) (rs : RegSet) (ps : List Part) (hc : mayChange (.gateCycleStart p) = some (rs, ps)) (hx : exec (.gateCycleStart p) σ = .next τ) : rs.leaves ps σ τ := by
  cases hc
  exact (out_within (within_execGateCycleStart p (μ := 281264489730871341242238439539962842897963303117471509233709956849750075310168763767565513597181116026529784470331771556093120916822903558863401205832770905964544) rfl (Within.refl _)) hx).leaves _ _ (by decide +kernel)
theorem frame_swap (fn p : Nat) (v : W32) (σ τ : State) (rs : RegSet) (ps : List Part) (hc : mayChange (.swap fn p v) = some (rs, ps)) (hx : exec (.swap fn p v) σ = .next τ) : rs.leaves ps σ τ := by
  cases hc
  exact (out_within (within_execSwap fn p v (μ := 116002208960594559289978532440477267759571076381234092721123817841249706905951516853630177199820891095826040098994172581603597519097113191560379540300196084729856) rfl (Within.refl _)) hx).leaves _ _ (by decide +kernel)
theorem frame_portDisable (fn p : Nat) (v : W32) (σ τ : State) (rs : RegSet) (ps : List Part) (hc : mayChange (.portDisable fn p v) = some (rs, ps)) (hx : exec (.portDisable fn p v) σ = .next τ) : rs.leaves ps σ τ := by
  cases hc
  exact (out_within (within_execPortDisable fn p v (μ := 172238631392384514075110263786552040995442290360008050634883262498897676664345115232618185776119526810200051481920490634896337751810067149992702272437851810449408) rfl (Within.refl _)) hx).leaves _ _ (by decide +kernel)
theorem frame_pauseFrame (p : Nat) (m : RxFrame) (σ τ : State) (rs : RegSet) (ps : List Part) (hc : mayChange (.pauseFrame p m) = some (rs, ps)) (hx : exec (.pauseFrame p m) σ = .next τ) : rs.leaves ps σ τ := by
  cases hc
  exact (out_within (within_execPauseFrame p m (μ := 281265347830578857568452812277562728072115461796884027146886131157682473503066688474572028917136198708349156632370677672904961931103513436404977931545464016994304) rfl (Within.refl _)) hx).leaves _ _ (by decide +kernel)
theorem frame_pauseExpire (p cls : Nat) (σ τ : State) (rs : RegSet) (ps : List Part) (hc : mayChange (.pauseExpire p cls) = some (rs, ps)) (hx : exec (.pauseExpire p cls) σ = .next τ) : rs.leaves ps σ τ := by
  cases hc
  exact (out_within (within_execPauseExpire p cls (μ := 281264489730871341242238439539962842897963303117471509233709956849750075310168763767565513597181116026529784470331753737797707290855013471824501359791927627612160) rfl (Within.refl _)) hx).leaves _ _ (by decide +kernel)
theorem frame_pauseWdTrip (p cls : Nat) (σ τ : State) (rs : RegSet) (ps : List Part) (hc : mayChange (.pauseWdTrip p cls) = some (rs, ps)) (hx : exec (.pauseWdTrip p cls) σ = .next τ) : rs.leaves ps σ τ := by
  cases hc
  exact (out_within (within_execPauseWdTrip p cls (μ := 284793853827885990961953509288290564185791951541157686127314885375703842699333083685363024572436186349607486936425898878537533029996614074396077527383820172544000) rfl (Within.refl _)) hx).leaves _ _ (by decide +kernel)
theorem frame_pauseRecEnd (p cls : Nat) (σ τ : State) (rs : RegSet) (ps : List Part) (hc : mayChange (.pauseRecEnd p cls) = some (rs, ps)) (hx : exec (.pauseRecEnd p cls) σ = .next τ) : rs.leaves ps σ τ := by
  cases hc
  exact (out_within (within_execPauseRecEnd p cls (μ := 281264489730871341242238439539962842897963303117471509233709956849750075310168763767565513597181116026529784470331753737797707290855013471824501359791927627612160) rfl (Within.refl _)) hx).leaves _ _ (by decide +kernel)
theorem frame_lpiEnter (p : Nat) (σ τ : State) (rs : RegSet) (ps : List Part) (hc : mayChange (.lpiEnter p) = some (rs, ps)) (hx : exec (.lpiEnter p) σ = .next τ) : rs.leaves ps σ τ := by
  cases hc
  exact (out_within (within_execLpiEnter p (μ := 225028925398788902783321080931487954836244247818110069233126686500034503744673090095584020340837562993975145249451666483864858605409834690292371491784649468805120) rfl (Within.refl _)) hx).leaves _ _ (by decide +kernel)
theorem frame_lpiWake (p : Nat) (σ τ : State) (rs : RegSet) (ps : List Part) (hc : mayChange (.lpiWake p) = some (rs, ps)) (hx : exec (.lpiWake p) σ = .next τ) : rs.leaves ps σ τ := by
  cases hc
  exact (out_within (within_execLpiWake p (μ := 281264489730871341242238439539962842897963303117471509233709956849750075310168763767565513597181116026529784470331753737797707290855013471824501359791927627612160) rfl (Within.refl _)) hx).leaves _ _ (by decide +kernel)
theorem frame_eeeOkWrite (fn p : Nat) (v : W32) (σ τ : State) (rs : RegSet) (ps : List Part) (hc : mayChange (.eeeOkWrite fn p v) = some (rs, ps)) (hx : exec (.eeeOkWrite fn p v) σ = .next τ) : rs.leaves ps σ τ := by
  cases hc
  exact (out_within (within_execEeeOkWrite fn p v (μ := 172238631392384514075110263786552040995442290360008050634883262498897676664345115232618185776119526810200051481913183257726561278586459682351465709148695995369472) rfl (Within.refl _)) hx).leaves _ _ (by decide +kernel)
theorem frame_linkChange (p : Nat) (pcsUp lpiRx : Bool) (σ τ : State) (rs : RegSet) (ps : List Part) (hc : mayChange (.linkChange p pcsUp lpiRx) = some (rs, ps)) (hx : exec (.linkChange p pcsUp lpiRx) σ = .next τ) : rs.leaves ps σ τ := by
  cases hc
  exact (out_within (within_execLinkChange p pcsUp lpiRx (μ := 59765786528804604504846801094402494523699862402460134807364373183601737147557918296785519551553706037451713849013156352080674263365902490219900880001068599101440) rfl (Within.refl _)) hx).leaves _ _ (by decide +kernel)
theorem frame_serviceFrameRx (p : Nat) (m : RxFrame) (σ τ : State) (rs : RegSet) (ps : List Part) (hc : mayChange (.serviceFrameRx p m) = some (rs, ps)) (hx : exec (.serviceFrameRx p m) σ = .next τ) : rs.leaves ps σ τ := by
  cases hc
  exact (out_within (within_execServiceFrameRx p m (μ := 1327810642730766299112352770146370201849750397697762721299268235421100608872822764092774498373400582951920075143626209105643142670844938665478626206972028916091904) rfl (Within.refl _)) hx).leaves _ _ (by decide +kernel)
theorem frame_flowFrameRx (p : Nat) (m : RxFrame) (σ τ : State) (rs : RegSet) (ps : List Part) (hc : mayChange (.flowFrameRx p m) = some (rs, ps)) (hx : exec (.flowFrameRx p m) σ = .next τ) : rs.leaves ps σ τ := by
  cases hc
  exact (out_within (within_execFlowFrameRx p m (μ := 285672574743998568890665391738622978929294694218307670404504132145602479670336043807128665810189448866451436244347724779037641153437720287161508626889791173053440) rfl (Within.refl _)) hx).leaves _ _ (by decide +kernel)
theorem frame_badFrameRx (p : Nat) (m : RxFrame) (σ τ : State) (rs : RegSet) (ps : List Part) (hc : mayChange (.badFrameRx p m) = some (rs, ps)) (hx : exec (.badFrameRx p m) σ = .next τ) : rs.leaves ps σ τ := by
  cases hc
  exact (out_within (within_execBadFrameRx p m (μ := 284793853827885990961953509288290564185791951541157686127314885375703842699333083685363024572436186349607486936425898856236787831465990932860359254735458666564608) rfl (Within.refl _)) hx).leaves _ _ (by decide +kernel)
theorem frame_videoPacketRx (p : Nat) (m : RxFrame) (v : VideoPkt) (ovf : Bool) (σ τ : State) (rs : RegSet) (ps : List Part) (hc : mayChange (.videoPacketRx p m v ovf) = some (rs, ps)) (hx : exec (.videoPacketRx p m v ovf) σ = .next τ) : rs.leaves ps σ τ := by
  cases hc
  exact (out_within (within_execVideoPacketRx p m v ovf (μ := 1184583477534185398133776192726286017352948644636841156052875394361530544376814055405223284352855019234146646359815613780893189311612993904481243317968701283649536) rfl (Within.refl _)) hx).leaves _ _ (by decide +kernel)
theorem frame_audioPacketRx (p : Nat) (m : RxFrame) (v : AudioPkt) (ovf : Bool) (σ τ : State) (rs : RegSet) (ps : List Part) (hc : mayChange (.audioPacketRx p m v ovf) = some (rs, ps)) (hx : exec (.audioPacketRx p m v ovf) σ = .next τ) : rs.leaves ps σ τ := by
  cases hc
  exact (out_within (within_execAudioPacketRx p m v ovf (μ := 1299692431514871321719786904473332815231814790708375742342388513092276619919554012234308321548359888275976747349229916179250585748033213228912104748997028434167808) rfl (Within.refl _)) hx).leaves _ _ (by decide +kernel)
theorem frame_ancPacketRx (p : Nat) (m : RxFrame) (v : AncPkt) (ovf : Bool) (σ τ : State) (rs : RegSet) (ps : List Part) (hc : mayChange (.ancPacketRx p m v ovf) = some (rs, ps)) (hx : exec (.ancPacketRx p m v ovf) σ = .next τ) : rs.leaves ps σ τ := by
  cases hc
  exact (out_within (within_execAncPacketRx p m v ovf (μ := 1299692431514871321719786904473332815231814790708375742342388513092276619919554012234308321548359888275976747349416988388828941321563284887499788975512987799668736) rfl (Within.refl _)) hx).leaves _ _ (by decide +kernel)
theorem frame_ltcWord (at_ : W64) (tc : TcWord) (σ τ : State) (rs : RegSet) (ps : List Part) (hc : mayChange (.ltcWord at_ tc) = some (rs, ps)) (hx : exec (.ltcWord at_ tc) σ = .next τ) : rs.leaves ps σ τ := by
  cases hc
  exact (out_within (within_execLtcWord at_ tc (μ := 1299692431514871321719786904473332815231814790708375742342388513092276619919554012234308321548359888275976747349416988344227450924502038604428352430216264787707904) rfl (Within.refl _)) hx).leaves _ _ (by decide +kernel)
theorem frame_sacnPacketRx (p : Nat) (m : RxFrame) (v : SacnPkt) (σ τ : State) (rs : RegSet) (ps : List Part) (hc : mayChange (.sacnPacketRx p m v) = some (rs, ps)) (hx : exec (.sacnPacketRx p m v) σ = .next τ) : rs.leaves ps σ τ := by
  cases hc
  exact (out_within (within_execSacnPacketRx p m v (μ := 1299692431514871321719786904473332815231814790708375742342388513092276619919554012234308321548359888275976747349229916134649095350971966945840668203700305422206976) rfl (Within.refl _)) hx).leaves _ _ (by decide +kernel)
theorem frame_sacnSourceTimeout (u : Nat) (cid : Nat) (σ τ : State) (rs : RegSet) (ps : List Part) (hc : mayChange (.sacnSourceTimeout u cid) = some (rs, ps)) (hx : exec (.sacnSourceTimeout u cid) σ = .next τ) : rs.leaves ps σ τ := by
  cases hc
  exact (out_within (within_execSacnSourceTimeout u cid (μ := 1299692431514871321719786904473332815231814790708375742342388513092276619919554012234308321548359888275976747349229916134649095350971966945840668203700305422206976) rfl (Within.refl _)) hx).leaves _ _ (by decide +kernel)
theorem frame_legLoss (kind : LegKind) (s leg : Nat) (σ τ : State) (rs : RegSet) (ps : List Part) (hc : mayChange (.legLoss kind s leg) = some (rs, ps)) (hx : exec (.legLoss kind s leg) σ = .next τ) : rs.leaves ps σ τ := by
  cases hc
  exact (out_within (within_execLegLoss kind s leg (μ := 284793853827885990961953509288290564185791951541157686127314885375703842699333083685363024572436186349607486936800043230792008581464887966964291162470654385604608) rfl (Within.refl _)) hx).leaves _ _ (by decide +kernel)
theorem frame_tcLoss (n : Nat) (σ τ : State) (rs : RegSet) (ps : List Part) (hc : mayChange (.tcLoss n) = some (rs, ps)) (hx : exec (.tcLoss n) σ = .next τ) : rs.leaves ps σ τ := by
  cases hc
  exact (out_within (within_execTcLoss n (μ := 1243456009083081366934655173127258041995943576729601784428629068434628650161160413855320312972061252561602735966497977155187347598808359858315745990455450239518720) rfl (Within.refl _)) hx).leaves _ _ (by decide +kernel)
theorem frame_t1sCollision (p : Nat) (lateColl : Bool) (σ τ : State) (rs : RegSet) (ps : List Part) (hc : mayChange (.t1sCollision p lateColl) = some (rs, ps)) (hx : exec (.t1sCollision p lateColl) σ = .next τ) : rs.leaves ps σ τ := by
  cases hc
  exact (out_within (within_execT1sCollision p lateColl (μ := 59765813344420464390041000242452490935392117361191775992151128630724624591085978443879473155302302371258569229082718664699863986954613428836751087001905823500288) rfl (Within.refl _)) hx).leaves _ _ (by decide +kernel)
theorem frame_backoffExpire (p : Nat) (σ τ : State) (rs : RegSet) (ps : List Part) (hc : mayChange (.backoffExpire p) = some (rs, ps)) (hx : exec (.backoffExpire p) σ = .next τ) : rs.leaves ps σ τ := by
  cases hc
  exact (out_within (within_execBackoffExpire p (μ := 281264489730871341242238439539962842897963303117471509233709956849750075310168763767565513597181116026529784470331753715496962092324390330288783087143566121631744) rfl (Within.refl _)) hx).leaves _ _ (by decide +kernel)
theorem frame_plcaBeaconChange (p : Nat) (active : Bool) (σ τ : State) (rs : RegSet) (ps : List Part) (hc : mayChange (.plcaBeaconChange p active) = some (rs, ps)) (hx : exec (.plcaBeaconChange p active) σ = .next τ) : rs.leaves ps σ τ := by
  cases hc
  exact (out_within (within_execPlcaBeaconChange p active (μ := 59765786528804604504846801094402494523699862402460134807364373183601737147557918296785519551553706037451713849019002291727762279446847804943611194134607811332096) rfl (Within.refl _)) hx).leaves _ _ (by decide +kernel)
theorem frame_go (fn p : Nat) (v : W32) (σ τ : State) (rs : RegSet) (ps : List Part) (hc : mayChange (.go fn p v) = some (rs, ps)) (hx : exec (.go fn p v) σ = .next τ) : rs.leaves ps σ τ := by
  cases hc
  exact (out_within (within_execGo fn p v (μ := 172238631392384514075110263786552040995442290360008050634883262498897676664345115232618185776119526810200051517831047296064124609584609857365372746377640617723904) rfl (Within.refl _)) hx).leaves _ _ (by decide +kernel)
theorem frame_rdmListenEnd (p : Nat) (brk : Bool) (resp : List Byte) (err : Bool) (σ τ : State) (rs : RegSet) (ps : List Part) (hc : mayChange (.rdmListenEnd p brk resp err) = some (rs, ps)) (hx : exec (.rdmListenEnd p brk resp err) σ = .next τ) : rs.leaves ps σ τ := by
  cases hc
  exact (out_within (within_execRdmListenEnd p brk resp err (μ := 284793853827885990961953509288290564185791951541157686127314885375703842699333083685363024572436186349607487068124734354797621199575192295518618176674128967256064) rfl (Within.refl _)) hx).leaves _ _ (by decide +kernel)
theorem frame_leaseRenew (σ τ : State) (rs : RegSet) (ps : List Part) (hc : mayChange (.leaseRenew) = some (rs, ps)) (hx : exec (.leaseRenew) σ = .next τ) : rs.leaves ps σ τ := by
  cases hc
  exact (out_within (within_execLeaseRenew  (μ := 1313751724832129829612429231346201483422628378914190720114335662386548824463848832858712998920831517274590289038979044749675403588840717456558868177263739768162304) rfl (Within.refl _)) hx).leaves _ _ (by decide +kernel)
theorem frame_leaseLapse (σ τ : State) (rs : RegSet) (ps : List Part) (hc : mayChange (.leaseLapse) = some (rs, ps)) (hx : exec (.leaseLapse) σ = .next τ) : rs.leaves ps σ τ := by
  cases hc
  exact (out_within (within_execLeaseLapse  (μ := 1313751724832129829612429231346201483422628378914190720114335662386548824463848832858712998917380644101195007145261666818536890862615162970473674899682477656262656) rfl (Within.refl _)) hx).leaves _ _ (by decide +kernel)
theorem frame_leaseExpiry (σ τ : State) (rs : RegSet) (ps : List Part) (hc : mayChange (.leaseExpiry) = some (rs, ps)) (hx : exec (.leaseExpiry) σ = .next τ) : rs.leaves ps σ τ := by
  cases hc
  exact leaves_any (out_within (within_execLeaseExpiry  (μ := 1798794327520764114824242104304545939690318489157497819958002325237615109030264620556159344825936408008715642647977785054570320562860521672994819528497131465736191) rfl (Within.refl _)) hx) _ (by intro p hp; cases p <;> first | decide +kernel | exact absurd (by simp) hp)
theorem frame_takeover (σ τ : State) (rs : RegSet) (ps : List Part) (hc : mayChange (.takeover) = some (rs, ps)) (hx : exec (.takeover) σ = .next τ) : rs.leaves ps σ τ := by
  cases hc
  exact (out_within (within_execTakeover  (μ := 376178040279544667487792572725662070694082674256665367737173982944381793556722681051218542048223267849001248826926688267179223942501562766080151207386354450188288) rfl (Within.refl _)) hx).leaves _ _ (by decide +kernel)
theorem frame_waitTimeout (σ τ : State) (rs : RegSet) (ps : List Part) (hc : mayChange (.waitTimeout) = some (rs, ps)) (hx : exec (.waitTimeout) σ = .next τ) : rs.leaves ps σ τ := by
  cases hc
  exact (out_within (within_execWaitTimeout  (μ := 337501770262368812353584543623637501307986675775657985060645575815330443261460286853560041031873914592910339785746084980796806711794500210586923098544555048304640) rfl (Within.refl _)) hx).leaves _ _ (by decide +kernel)
theorem frame_leaseInEdge (at_ : W64) (σ τ : State) (rs : RegSet) (ps : List Part) (hc : mayChange (.leaseInEdge at_) = some (rs, ps)) (hx : exec (.leaseInEdge at_) σ = .next τ) : rs.leaves ps σ τ := by
  cases hc
  exact (out_within (within_execLeaseInEdge at_ (μ := 341030276259675945747085240634365337421663165519931644041074330033351812457726682064351033150891617797353549502918271207636971213989394949704774947687839022729216) rfl (Within.refl _)) hx).leaves _ _ (by decide +kernel)
theorem frame_wireSilent (σ τ : State) (rs : RegSet) (ps : List Part) (hc : mayChange (.wireSilent) = some (rs, ps)) (hx : exec (.wireSilent) σ = .next τ) : rs.leaves ps σ τ := by
  cases hc
  exact (out_within (within_execWireSilent  (μ := 228557431396096036176821777942215790949920737562383728213555440718055872940939485306375015998294346368605526737080248829556764562602037457479562068166209926350848) rfl (Within.refl _)) hx).leaves _ _ (by decide +kernel)
theorem frame_twinLinkChange (lane : Nat) (up : Bool) (σ τ : State) (rs : RegSet) (ps : List Part) (hc : mayChange (.twinLinkChange lane up) = some (rs, ps)) (hx : exec (.twinLinkChange lane up) σ = .next τ) : rs.leaves ps σ τ := by
  cases hc
  exact (out_within (within_execTwinLinkChange lane up (μ := 3529364097014649719715069748327721287828648423686176893604928525953767389164319917797510977411866056449753649667506303099905795971325873303385420783458352908288) rfl (Within.refl _)) hx).leaves _ _ (by decide +kernel)
theorem frame_renew (h : JHead) (b : W64) (t1 : W64) (act : Byte) (t3 t4 : W64) (t2 : W64) (σ τ : State) (rs : RegSet) (ps : List Part) (hc : mayChange (.renew h b t1 act t3 t4 t2) = some (rs, ps)) (hx : exec (.renew h b t1 act t3 t4 t2) σ = .next τ) : rs.leaves ps σ τ := by
  cases hc
  exact leaves_any (out_within (within_execRenew h b t1 act t3 t4 t2 (μ := 1348902948066444476543188253535947753803348777327306156647926767976431350963115833524255276215547322293723551584625695542249493957311091704093968010410615080222719) rfl (Within.refl _)) hx) _ (by intro p hp; cases p <;> first | decide +kernel | exact absurd (by simp) hp)
theorem frame_commitRecord (h : JHead) (miss : Bool) (c : Nat) (e digest : W32) (tiles : List W32) (σ τ : State) (rs : RegSet) (ps : List Part) (hc : mayChange (.commitRecord h miss c e digest tiles) = some (rs, ps)) (hx : exec (.commitRecord h miss c e digest tiles) σ = .next τ) : rs.leaves ps σ τ := by
  cases hc
  exact leaves_any (out_within (within_execCommitRecord h miss c e digest tiles (μ := 1348820570494522909226608470726358777084741544103704436983014034414921124444915061651629805499859384839063824028888997771953048493455095104368217122071121699536895) rfl (Within.refl _)) hx) _ (by intro p hp; cases p <;> first | decide +kernel | exact absurd (by simp) hp)
theorem frame_changeRecord (h : JHead) (id : W32) (ctx : Nat) (tmode : Byte) (value version : W32) (target : W64) (σ τ : State) (rs : RegSet) (ps : List Part) (hc : mayChange (.changeRecord h id ctx tmode value version target) = some (rs, ps)) (hx : exec (.changeRecord h id ctx tmode value version target) σ = .next τ) : rs.leaves ps σ τ := by
  cases hc
  exact leaves_any (out_within (within_execChangeRecord h id ctx tmode value version target (μ := 1348820570494522909226608470726358777084741544103704436983014034414921124444915061651629805499859384839063824028888997771953048493455095104368217122071121699536895) rfl (Within.refl _)) hx) _ (by intro p hp; cases p <;> first | decide +kernel | exact absurd (by simp) hp)
theorem frame_regw (h : JHead) (off : Nat) (v : W32) (fn : Nat) (task : Option TaskRef) (σ τ : State) (rs : RegSet) (ps : List Part) (hc : mayChange (.regw h off v fn task) = some (rs, ps)) (hx : exec (.regw h off v fn task) σ = .next τ) : rs.leaves ps σ τ := by
  cases hc
  exact leaves_any (out_within (within_execRegw h off v fn task (μ := 1348820570494522909226608470726358777084741544103704436983014034414921124444915061651629805499859384839063824028888997771953048493455095104368217122071121699536895) rfl (Within.refl _)) hx) _ (by intro p hp; cases p <;> first | decide +kernel | exact absurd (by simp) hp)
theorem frame_cmdRecord (h : JHead) (entry : List W32) (cpl : List W32) (σ τ : State) (rs : RegSet) (ps : List Part) (hc : mayChange (.cmdRecord h entry cpl) = some (rs, ps)) (hx : exec (.cmdRecord h entry cpl) σ = .next τ) : rs.leaves ps σ τ := by
  cases hc
  exact leaves_any (out_within (within_execCmdRecord h entry cpl (μ := 1348820570494522909226608470726358777084741544103704436983014034414921124444915061651629805499859384839063824028888997771953048493455095104368217122071121699536895) rfl (Within.refl _)) hx) _ (by intro p hp; cases p <;> first | decide +kernel | exact absurd (by simp) hp)
theorem frame_memw (h : JHead) (addr4 : W64) (data : List Byte) (σ τ : State) (rs : RegSet) (ps : List Part) (hc : mayChange (.memw h addr4 data) = some (rs, ps)) (hx : exec (.memw h addr4 data) σ = .next τ) : rs.leaves ps σ τ := by
  cases hc
  exact leaves_any (out_within (within_execMemw h addr4 data (μ := 1348820570494522909226608470726358777084741544103704436983014034414921124444915061651629805499859384839063824028888997771953048493455095104368217122071121699536895) rfl (Within.refl _)) hx) _ (by intro p hp; cases p <;> first | decide +kernel | exact absurd (by simp) hp)
theorem frame_layerRecord (h : JHead) (last : Bool) (layer : Nat) (version buf off : W32) (data : List Byte) (σ τ : State) (rs : RegSet) (ps : List Part) (hc : mayChange (.layerRecord h last layer version buf off data) = some (rs, ps)) (hx : exec (.layerRecord h last layer version buf off data) σ = .next τ) : rs.leaves ps σ τ := by
  cases hc
  exact leaves_any (out_within (within_execLayerRecord h last layer version buf off data (μ := 1348820570494522909226608470726358777084741544103704436983014034414921124444915061651629805499859384839063824028888997771953048493455095104368217122071121699536895) rfl (Within.refl _)) hx) _ (by intro p hp; cases p <;> first | decide +kernel | exact absurd (by simp) hp)
theorem frame_epstate (h : JHead) (e : Nat) (status : List W32) (strings : W64) (σ τ : State) (rs : RegSet) (ps : List Part) (hc : mayChange (.epstate h e status strings) = some (rs, ps)) (hx : exec (.epstate h e status strings) σ = .next τ) : rs.leaves ps σ τ := by
  cases hc
  exact leaves_any (out_within (within_execEpstate h e status strings (μ := 1348820570494522909226608470726358777084741544103704436983014034414921124444915061651629805499859384839063824028888997771953048493455095104368217122071121699536895) rfl (Within.refl _)) hx) _ (by intro p hp; cases p <;> first | decide +kernel | exact absurd (by simp) hp)
theorem frame_handover (h : JHead) (b : W64) (σ τ : State) (rs : RegSet) (ps : List Part) (hc : mayChange (.handover h b) = some (rs, ps)) (hx : exec (.handover h b) σ = .next τ) : rs.leaves ps σ τ := by
  cases hc
  exact leaves_any (out_within (within_execHandover h b (μ := 1348820570494522909226608470726358777084741544103704436983014034414921124444915061651629805499859384839063824028888997771953048493455095104368217122071121699536895) rfl (Within.refl _)) hx) _ (by intro p hp; cases p <;> first | decide +kernel | exact absurd (by simp) hp)
theorem frame_copyRecord (h : JHead) (last : Bool) (kind : W32) (index : W64) (data : List Byte) (σ τ : State) (rs : RegSet) (ps : List Part) (hc : mayChange (.copyRecord h last kind index data) = some (rs, ps)) (hx : exec (.copyRecord h last kind index data) σ = .next τ) : rs.leaves ps σ τ := by
  cases hc
  exact leaves_any (out_within (within_execCopyRecord h last kind index data (μ := 1291701994747790311207907365979552048408758952730130423139360645755644924943926804322850094405987155880568374689892464919683073284795687145632555026807600854335487) rfl (Within.refl _)) hx) _ (by intro p hp; cases p <;> first | decide +kernel | exact absurd (by simp) hp)
theorem frame_copyEnd (h : JHead) (cpos : W32) (σ τ : State) (rs : RegSet) (ps : List Part) (hc : mayChange (.copyEnd h cpos) = some (rs, ps)) (hx : exec (.copyEnd h cpos) σ = .next τ) : rs.leaves ps σ τ := by
  cases hc
  exact leaves_any (out_within (within_execCopyEnd h cpos (μ := 1348820570494522909226608470726358777084741544103704436983014034414921124444915061651629805499859384839063824028888997771953048493455095104368217122071121699536895) rfl (Within.refl _)) hx) _ (by intro p hp; cases p <;> first | decide +kernel | exact absurd (by simp) hp)
theorem frame_ack (h : JHead) (jseq : W32) (role : Byte) (diverged : Bool) (t2 t3 t4 : W64) (σ τ : State) (rs : RegSet) (ps : List Part) (hc : mayChange (.ack h jseq role diverged t2 t3 t4) = some (rs, ps)) (hx : exec (.ack h jseq role diverged t2 t3 t4) σ = .next τ) : rs.leaves ps σ τ := by
  cases hc
  exact (out_within (within_execAck h jseq role diverged t2 t3 t4 (μ := 337500912162661296027370170886037616133834517096245467147469401507398045068562362146553522173479751740903795853250764904537065418018069076401389526904380669820928) rfl (Within.refl _)) hx).leaves _ _ (by decide +kernel)
theorem frame_copySend (σ τ : State) (rs : RegSet) (ps : List Part) (hc : mayChange (.copySend) = some (rs, ps)) (hx : exec (.copySend) σ = .next τ) : rs.leaves ps σ τ := by
  cases hc
  exact (out_within (within_execCopySend  (μ := 112473702963287425896477835429749431645894586636960433740695063623228337709685121464982532641645139606936207720028464938974584876688027274980160052757008968843264) rfl (Within.refl _)) hx).leaves _ _ (by decide +kernel)
theorem frame_shadowWaitExpire (σ τ : State) (rs : RegSet) (ps : List Part) (hc : mayChange (.shadowWaitExpire) = some (rs, ps)) (hx : exec (.shadowWaitExpire) σ = .next τ) : rs.leaves ps σ τ := by
  cases hc
  exact leaves_any (out_within (within_execShadowWaitExpire  (μ := 1348902948066444476543188253535947753803348777327306156647926767976431350963115833524255276215547322293723551584625695542249493957311091704093968010410615080222719) rfl (Within.refl _)) hx) _ (by intro p hp; cases p <;> first | decide +kernel | exact absurd (by simp) hp)
theorem frame_resign (fn : Nat) (σ τ : State) (rs : RegSet) (ps : List Part) (hc : mayChange (.resign fn) = some (rs, ps)) (hx : exec (.resign fn) σ = .next τ) : rs.leaves ps σ τ := by
  cases hc
  exact leaves_any (out_within (within_execResign fn (μ := 1348817111280076984036556780627909239976440654427322724145522581736068644229795302676509790616290457777979480000669585658551928224953329622153170942189678129840127) rfl (Within.refl _)) hx) _ (by intro p hp; cases p <;> first | decide +kernel | exact absurd (by simp) hp)
theorem frame_assume (fn : Nat) (σ τ : State) (rs : RegSet) (ps : List Part) (hc : mayChange (.assume fn) = some (rs, ps)) (hx : exec (.assume fn) σ = .next τ) : rs.leaves ps σ τ := by
  cases hc
  exact leaves_any (out_within (within_execAssume fn (μ := 1348817111280076984036556780627909239976440654427322724145522581736068644229795302676509790616290457777979480000669585658551928224953329622153170942189678129840127) rfl (Within.refl _)) hx) _ (by intro p hp; cases p <;> first | decide +kernel | exact absurd (by simp) hp)
theorem frame_resync (fn : Nat) (σ τ : State) (rs : RegSet) (ps : List Part) (hc : mayChange (.resync fn) = some (rs, ps)) (hx : exec (.resync fn) σ = .next τ) : rs.leaves ps σ τ := by
  cases hc
  exact leaves_any (out_within (within_execResync fn (μ := 1348817111280076984036556780627909239976440654427322724145522581736068644229795302676509790616290457777979480000669585658551928224953329622153170942189678129840127) rfl (Within.refl _)) hx) _ (by intro p hp; cases p <;> first | decide +kernel | exact absurd (by simp) hp)
theorem frame_leaveSafe (fn : Nat) (σ τ : State) (rs : RegSet) (ps : List Part) (hc : mayChange (.leaveSafe fn) = some (rs, ps)) (hx : exec (.leaveSafe fn) σ = .next τ) : rs.leaves ps σ τ := by
  cases hc
  exact leaves_any (out_within (within_execLeaveSafe fn (μ := 1348817111280076984036556780627909239976440654427322724145522581736068644229795302676509790616290457777979480000669585658551928224953329622153170942189678129840127) rfl (Within.refl _)) hx) _ (by intro p hp; cases p <;> first | decide +kernel | exact absurd (by simp) hp)
theorem frame_twinEnWrite (fn : Nat) (v : W32) (σ τ : State) (rs : RegSet) (ps : List Part) (hc : mayChange (.twinEnWrite fn v) = some (rs, ps)) (hx : exec (.twinEnWrite fn v) σ = .next τ) : rs.leaves ps σ τ := by
  cases hc
  exact (out_within (within_execTwinEnWrite fn v (μ := 116002208960594559289978532440477267759571076381234092721123817841249706905951516853630177200360090029169052894887512169720143779589915550868206265174700098340864) rfl (Within.refl _)) hx).leaves _ _ (by decide +kernel)
theorem frame_modeReqShow (fn : Nat) (σ τ : State) (rs : RegSet) (ps : List Part) (hc : mayChange (.modeReqShow fn) = some (rs, ps)) (hx : exec (.modeReqShow fn) σ = .next τ) : rs.leaves ps σ τ := by
  cases hc
  exact (out_within (within_execModeReqShow fn (μ := 340947898687754378430505457824776360703055932296329924376161596471841585939525910371434888466506622636867880557404224635629515878509930422737058161934898745591808) rfl (Within.refl _)) hx).leaves _ _ (by decide +kernel)
theorem frame_modeReqIdle (fn : Nat) (σ τ : State) (rs : RegSet) (ps : List Part) (hc : mayChange (.modeReqIdle fn) = some (rs, ps)) (hx : exec (.modeReqIdle fn) σ = .next τ) : rs.leaves ps σ τ := by
  cases hc
  exact (out_within (within_execModeReqIdle fn (μ := 340947898687754378430505457824776360703055932296329924376161596471841585939525910371434888466506622636867880557404224635629515878509930422737058161934898745591808) rfl (Within.refl _)) hx).leaves _ _ (by decide +kernel)
theorem frame_modeReqTest (fn : Nat) (σ τ : State) (rs : RegSet) (ps : List Part) (hc : mayChange (.modeReqTest fn) = some (rs, ps)) (hx : exec (.modeReqTest fn) σ = .next τ) : rs.leaves ps σ τ := by
  cases hc
  exact (out_within (within_execModeReqTest fn (μ := 340947898687754378430505457824776360703055932296329924376161596471841585939525910371434888466506622636867880557404224635629515878509930422737058161934898745591808) rfl (Within.refl _)) hx).leaves _ _ (by decide +kernel)
theorem frame_modeReqSleep (fn : Nat) (σ τ : State) (rs : RegSet) (ps : List Part) (hc : mayChange (.modeReqSleep fn) = some (rs, ps)) (hx : exec (.modeReqSleep fn) σ = .next τ) : rs.leaves ps σ τ := by
  cases hc
  exact (out_within (within_execModeReqSleep fn (μ := 1763560726714527900576903299305210692590990857520780663759498486086222356012796855823304974280967058280189796674309024158492936989972091676717431178012771022292992) rfl (Within.refl _)) hx).leaves _ _ (by decide +kernel)
theorem frame_modeReqSafe (fn : Nat) (σ τ : State) (rs : RegSet) (ps : List Part) (hc : mayChange (.modeReqSafe fn) = some (rs, ps)) (hx : exec (.modeReqSafe fn) σ = .next τ) : rs.leaves ps σ τ := by
  cases hc
  exact (out_within (within_execModeReqSafe fn (μ := 1763560726714527900576903299305210692590990857520780663759498486086222356012796855823304974280967058280189796674309024158492936989972091676717431178012771022292992) rfl (Within.refl _)) hx).leaves _ _ (by decide +kernel)
theorem frame_modeTransitionDone (σ τ : State) (rs : RegSet) (ps : List Part) (hc : mayChange (.modeTransitionDone) = some (rs, ps)) (hx : exec (.modeTransitionDone) σ = .next τ) : rs.leaves ps σ τ := by
  cases hc
  exact leaves_any (out_within (within_execModeTransitionDone  (μ := 1799565356923583393813050208186092765077725317568376806131581696361997772792578029948607313409326793957228385620014657121410716533645505472446159141916875337760767) rfl (Within.refl _)) hx) _ (by intro p hp; cases p <;> first | decide +kernel | exact absurd (by simp) hp)
theorem frame_holdEnWrite (fn : Nat) (v : W32) (σ τ : State) (rs : RegSet) (ps : List Part) (hc : mayChange (.holdEnWrite fn v) = some (rs, ps)) (hx : exec (.holdEnWrite fn v) σ = .next τ) : rs.leaves ps σ τ := by
  cases hc
  exact (out_within (within_execHoldEnWrite fn v (μ := 340947898687754378430505457824776360703055932296329924376161596471841585939525910369582229173486081737165381463645224053325322743730856403057401790657899012311040) rfl (Within.refl _)) hx).leaves _ _ (by decide +kernel)
theorem frame_hbmSelfRefresh (σ τ : State) (rs : RegSet) (ps : List Part) (hc : mayChange (.hbmSelfRefresh) = some (rs, ps)) (hx : exec (.hbmSelfRefresh) σ = .next τ) : rs.leaves ps σ τ := by
  cases hc
  exact (out_within (within_execHbmSelfRefresh  (μ := 225028067299081386457106708193888069662092089138697551319950512192102105551775165388577505020882480312155773087412742526456858766630711584176176647382751573442560) rfl (Within.refl _)) hx).leaves _ _ (by decide +kernel)
theorem frame_softRst (fn : Nat) (σ τ : State) (rs : RegSet) (ps : List Part) (hc : mayChange (.softRst fn) = some (rs, ps)) (hx : exec (.softRst fn) σ = .next τ) : rs.leaves ps σ τ := by
  cases hc
  exact leaves_any (out_within (within_execSoftRst fn (μ := 1799565356923583393813050208186092765077725317568376806131581696361997772792578029948607313409326793957228385620014657121410716533645505472446159141916875337760767) rfl (Within.refl _)) hx) _ (by intro p hp; cases p <;> first | decide +kernel | exact absurd (by simp) hp)
theorem frame_powerOn (σ τ : State) (rs : RegSet) (ps : List Part) (hc : mayChange (.powerOn) = some (rs, ps)) (hx : exec (.powerOn) σ = .next τ) : rs.leaves ps σ τ := by
  cases hc
  exact leaves_any (out_within (within_execPowerOn  (μ := 1799551627328263132593620244384494602291290778697776519520762907435079401706211234636503068290045471048118431027391874159694642289669506039158533993860293107646463) rfl (Within.refl _)) hx) _ (by intro p hp; cases p <;> first | decide +kernel | exact absurd (by simp) hp)
theorem frame_aonRstN (σ τ : State) (rs : RegSet) (ps : List Part) (hc : mayChange (.aonRstN) = some (rs, ps)) (hx : exec (.aonRstN) σ = .next τ) : rs.leaves ps σ τ := by
  cases hc
  exact leaves_any (out_within (within_execAonRstN  (μ := 1799551627328263132593620244384494602291290778697776519520762907435079401706211234636503068290045471048118431027391874159694642289669506039158533993860293107646463) rfl (Within.refl _)) hx) _ (by intro p hp; cases p <;> first | decide +kernel | exact absurd (by simp) hp)
theorem frame_sysRstN (σ τ : State) (rs : RegSet) (ps : List Part) (hc : mayChange (.sysRstN) = some (rs, ps)) (hx : exec (.sysRstN) σ = .next τ) : rs.leaves ps σ τ := by
  cases hc
  exact leaves_any (out_within (within_execSysRstN  (μ := 1799551627328263132593620244384494602291290778697776519520762907435079401706211234636503068290045471048118431027391874159694642289669506039158533993860293107646463) rfl (Within.refl _)) hx) _ (by intro p hp; cases p <;> first | decide +kernel | exact absurd (by simp) hp)
theorem frame_resetRelease (bootMode : BitVec 2) (rails : BitVec 9) (σ τ : State) (rs : RegSet) (ps : List Part) (hc : mayChange (.resetRelease bootMode rails) = some (rs, ps)) (hx : exec (.resetRelease bootMode rails) σ = .next τ) : rs.leaves ps σ τ := by
  cases hc
  exact (out_within (within_execResetRelease bootMode rails (μ := 1763643104286449467893483082114799669309598090744382383424411219647732582530997749942851562634091265993255850295704405137025779972886785705731948457111703538124800) rfl (Within.refl _)) hx).leaves _ _ (by decide +kernel)
theorem frame_railFault (rail : Nat) (σ τ : State) (rs : RegSet) (ps : List Part) (hc : mayChange (.railFault rail) = some (rs, ps)) (hx : exec (.railFault rail) σ = .next τ) : rs.leaves ps σ τ := by
  cases hc
  exact leaves_any (out_within (within_execRailFault rail (μ := 1799551627328263132593620244384494602291290778697776519520762907435079401706211234636503068290045471048118431027391874159694642289669506039158533993860293107646463) rfl (Within.refl _)) hx) _ (by intro p hp; cases p <;> first | decide +kernel | exact absurd (by simp) hp)
theorem frame_refClockLoss (input : Nat) (lost : Bool) (σ τ : State) (rs : RegSet) (ps : List Part) (hc : mayChange (.refClockLoss input lost) = some (rs, ps)) (hx : exec (.refClockLoss input lost) σ = .next τ) : rs.leaves ps σ τ := by
  cases hc
  exact (out_within (within_execRefClockLoss input lost (μ := 1763560726714527900576903299305210692590990857520780663759498486086222356012796855704735684149898734058611319428335989401068402905232869672647943219023672328079360) rfl (Within.refl _)) hx).leaves _ _ (by decide +kernel)
theorem frame_avsCommand (acked : Bool) (σ τ : State) (rs : RegSet) (ps : List Part) (hc : mayChange (.avsCommand acked) = some (rs, ps)) (hx : exec (.avsCommand acked) σ = .next τ) : rs.leaves ps σ τ := by
  cases hc
  exact (out_within (within_execAvsCommand acked (μ := 228557458211711896062015977090265787361612992521115369398342196165178760384467545455322095340531789362205840017869800708359667406746680710654056637859360103483392) rfl (Within.refl _)) hx).leaves _ _ (by decide +kernel)
theorem frame_dieTempCross (temp : Byte) (σ τ : State) (rs : RegSet) (ps : List Part) (hc : mayChange (.dieTempCross temp) = some (rs, ps)) (hx : exec (.dieTempCross temp) σ = .next τ) : rs.leaves ps σ τ := by
  cases hc
  exact (out_within (within_execDieTempCross temp (μ := 1763560726714527900576903299305210692590990857520780663759498486086222356012796855704734779524201567525834572780015608959886063637885799931134230138703525955258368) rfl (Within.refl _)) hx).leaves _ _ (by decide +kernel)
theorem frame_wakeSource (src : Nat) (σ τ : State) (rs : RegSet) (ps : List Part) (hc : mayChange (.wakeSource src) = some (rs, ps)) (hx : exec (.wakeSource src) σ = .next τ) : rs.leaves ps σ τ := by
  cases hc
  exact (out_within (within_execWakeSource src (μ := 228475053824174468860241995132626814231313504338782008548642707156545646422738713433749661892355888553939500495405238884920793258792263094801801407347713038632960) rfl (Within.refl _)) hx).leaves _ _ (by decide +kernel)
theorem frame_slowAlarm (σ τ : State) (rs : RegSet) (ps : List Part) (hc : mayChange (.slowAlarm) = some (rs, ps)) (hx : exec (.slowAlarm) σ = .next τ) : rs.leaves ps σ τ := by
  cases hc
  exact (out_within (within_execSlowAlarm  (μ := 228475053824174468860241995132626814231313504338782008548642707156545646422738713433749661892355888553939500495405238884920793258792263094801801407347713038632960) rfl (Within.refl _)) hx).leaves _ _ (by decide +kernel)
theorem frame_slowLoRead (fn : Nat) (σ τ : State) (rs : RegSet) (ps : List Part) (hc : mayChange (.slowLoRead fn) = some (rs, ps)) (hx : exec (.slowLoRead fn) σ = .next τ) : rs.leaves ps σ τ := by
  cases hc
  exact (out_within (within_execSlowLoRead fn (μ := 3529417728246369490103468044427714111213158341149459263178439420199542276220440389856541262424603685724392572692290293186893951602997002398200642185321850619904) rfl (Within.refl _)) hx).leaves _ _ (by decide +kernel)
theorem frame_bootGo (fn : Nat) (σ τ : State) (rs : RegSet) (ps : List Part) (hc : mayChange (.bootGo fn) = some (rs, ps)) (hx : exec (.bootGo fn) σ = .next τ) : rs.leaves ps σ τ := by
  cases hc
  exact (out_within (within_execBootGo fn (μ := 340947898687754378430505457824776360703055932296329924376161596471841585939525910369698003594252750148745656615678904531993434453557528210907278158603799215753216) rfl (Within.refl _)) hx).leaves _ _ (by decide +kernel)
theorem frame_bootImageCheck (flash : Option FlashRead) (σ τ : State) (rs : RegSet) (ps : List Part) (hc : mayChange (.bootImageCheck flash) = some (rs, ps)) (hx : exec (.bootImageCheck flash) σ = .next τ) : rs.leaves ps σ τ := by
  cases hc
  exact leaves_any (out_within (within_execBootImageCheck flash (μ := 1799565383739199253698244407334142761489417572527108447316368451809120660236106090095701267013075390291035241000078373494382818241153271096339299034784173349928959) rfl (Within.refl _)) hx) _ (by intro p hp; cases p <;> first | decide +kernel | exact absurd (by simp) hp)
theorem frame_bistBlockDone (b : Nat) (ranToEnd signatureOk countOk : Bool) (σ τ : State) (rs : RegSet) (ps : List Part) (hc : mayChange (.bistBlockDone b ranToEnd signatureOk countOk) = some (rs, ps)) (hx : exec (.bistBlockDone b ranToEnd signatureOk countOk) σ = .next τ) : rs.leaves ps σ τ := by
  cases hc
  exact (out_within (within_execBistBlockDone b ranToEnd signatureOk countOk (μ := 1763560726714527900576903299305210692590990857520780663759498486086222356012796855702881201470707341866280690371556222059953640211480350589596350532201854059694080) rfl (Within.refl _)) hx).leaves _ _ (by decide +kernel)
theorem frame_shutdownRun (fn : Nat) (σ τ : State) (rs : RegSet) (ps : List Part) (hc : mayChange (.shutdownRun fn) = some (rs, ps)) (hx : exec (.shutdownRun fn) σ = .next τ) : rs.leaves ps σ τ := by
  cases hc
  exact (out_within (within_execShutdownRun fn (μ := 1763560726714527900576903299305210692590990857520780663759498486086222356012796855821452300853169999153412660914170017632840617235321842652086109833886160948054016) rfl (Within.refl _)) hx).leaves _ _ (by decide +kernel)
theorem frame_stop (fn : Nat) (σ τ : State) (rs : RegSet) (ps : List Part) (hc : mayChange (.stop fn) = some (rs, ps)) (hx : exec (.stop fn) σ = .next τ) : rs.leaves ps σ τ := by
  cases hc
  exact (out_within (within_execStop fn (μ := 1763560726714527900576903299305210692590990857520780663759498486086222356012796855821452300853169999153412660914170017632840617235321842652086109833886160948054016) rfl (Within.refl _)) hx).leaves _ _ (by decide +kernel)
theorem frame_rotStepStart (σ τ : State) (rs : RegSet) (ps : List Part) (hc : mayChange (.rotStepStart) = some (rs, ps)) (hx : exec (.rotStepStart) σ = .next τ) : rs.leaves ps σ τ := by
  cases hc
  exact (out_within (within_execRotStepStart  (μ := 674919446753401024738160558962486255549061800968889214630026069453285863618923952450124348476024512055582036312988936449214801446584125947178169671495029146779648) rfl (Within.refl _)) hx).leaves _ _ (by decide +kernel)
theorem frame_rotClusterDrained (σ τ : State) (rs : RegSet) (ps : List Part) (hc : mayChange (.rotClusterDrained) = some (rs, ps)) (hx : exec (.rotClusterDrained) σ = .next τ) : rs.leaves ps σ τ := by
  cases hc
  exact (out_within (within_execRotClusterDrained  (μ := 449892237554027154607268223506198071061121870509604181223251731569116156260046719357103719031851297704393708916985846929766912367621919217474695138460678045564928) rfl (Within.refl _)) hx).leaves _ _ (by decide +kernel)
theorem frame_rotDrainTimeout (σ τ : State) (rs : RegSet) (ps : List Part) (hc : mayChange (.rotDrainTimeout) = some (rs, ps)) (hx : exec (.rotDrainTimeout) σ = .next τ) : rs.leaves ps σ τ := by
  cases hc
  exact (out_within (within_execRotDrainTimeout  (μ := 678448810850415674457875628710813976836890449392575391523630997979239631008088279956472219708033765657807812308453810617254851836084485156570534836385062762596352) rfl (Within.refl _)) hx).leaves _ _ (by decide +kernel)
theorem frame_otpGo (fn : Nat) (σ τ : State) (rs : RegSet) (ps : List Part) (hc : mayChange (.otpGo fn) = some (rs, ps)) (hx : exec (.otpGo fn) σ = .next τ) : rs.leaves ps σ τ := by
  cases hc
  exact (out_within (within_execOtpGo fn (μ := 116112045723156649045418242853262570051047387346036385607674129256596675596885880299032933186165747278599186031147776695696059498852668739954924192829643744626688) rfl (Within.refl _)) hx).leaves _ _ (by decide +kernel)
theorem frame_lcReq (fn : Nat) (v : W32) (σ τ : State) (rs : RegSet) (ps : List Part) (hc : mayChange (.lcReq fn v) = some (rs, ps)) (hx : exec (.lcReq fn v) σ = .next τ) : rs.leaves ps σ τ := by
  cases hc
  exact (out_within (within_execLcReq fn v (μ := 116112045723156649045418242853262570051047387346036385607674129256596675596885879350464138154071474368705676839976435561708345117925168128718396000005285734270976) rfl (Within.refl _)) hx).leaves _ _ (by decide +kernel)
theorem frame_calWrite (fn off : Nat) (v : W32) (σ τ : State) (rs : RegSet) (ps : List Part) (hc : mayChange (.calWrite fn off v) = some (rs, ps)) (hx : exec (.calWrite fn off v) σ = .next τ) : rs.leaves ps σ τ := by
  cases hc
  exact leaves_any (out_within (within_execCalWrite fn off v (μ := 1799565383739199253698244407334142761489417572527108447316368451809120660236106090095701267013075390291035241000078373494382818241153271096339299034784173349928959) rfl (Within.refl _)) hx) _ (by intro p hp; cases p <;> first | decide +kernel | exact absurd (by simp) hp)
theorem frame_cntLoRead (fn n : Nat) (σ τ : State) (rs : RegSet) (ps : List Part) (hc : mayChange (.cntLoRead fn n) = some (rs, ps)) (hx : exec (.cntLoRead fn n) σ = .next τ) : rs.leaves ps σ τ := by
  cases hc
  exact (out_within (within_execCntLoRead fn n (μ := 3529417728246369490103468044427714111213158341149459263178439420199542276222383058734292980340858623203269718472846711544287343041043744303007348469537917913088) rfl (Within.refl _)) hx).leaves _ _ (by decide +kernel)
theorem frame_cntSnap (fn : Nat) (σ τ : State) (rs : RegSet) (ps : List Part) (hc : mayChange (.cntSnap fn) = some (rs, ps)) (hx : exec (.cntSnap fn) σ = .next τ) : rs.leaves ps σ τ := by
  cases hc
  exact (out_within (within_execCntSnap fn (μ := 116003925160009591942407277915677038107875393740059128547476166457114503292120358694950547821347593145574900053147361851292271234694520574248217581819100703770624) rfl (Within.refl _)) hx).leaves _ _ (by decide +kernel)
theorem frame_rcRead (fn : Nat) (sp : Space) (off size : Nat) (setting : W32) (other : Option (Nat × Option W32)) (σ τ : State) (rs : RegSet) (ps : List Part) (hc : mayChange (.rcRead fn sp off size setting other) = some (rs, ps)) (hx : exec (.rcRead fn sp off size setting other) σ = .next τ) : rs.leaves ps σ τ := by
  cases hc
  exact leaves_any (out_within (within_execRcRead fn sp off size setting other (μ := 1799565383739199253698244407334142761489417572527108447316368451809120660236106090095701267013075390291035241000078373494382818241153271096339299034784173349928959) rfl (Within.refl _)) hx) _ (by intro p hp; cases p <;> first | decide +kernel | exact absurd (by simp) hp)
theorem frame_tagSample (core : Nat) (stall : BitVec 16) (cause : Byte) (paired predOff : Bool) (σ τ : State) (rs : RegSet) (ps : List Part) (hc : mayChange (.tagSample core stall cause paired predOff) = some (rs, ps)) (hx : exec (.tagSample core stall cause paired predOff) σ = .next τ) : rs.leaves ps σ τ := by
  cases hc
  exact (out_within (within_execTagSample core stall cause paired predOff (μ := 1128923698105846414564702941047334081147328063223279235793505084634454160285611719047396502158802525554136395074715834583957820084027019907654847859258368699942912) rfl (Within.refl _)) hx).leaves _ _ (by decide +kernel)
theorem frame_bwWindowEnd (p : Nat) (σ τ : State) (rs : RegSet) (ps : List Part) (hc : mayChange (.bwWindowEnd p) = some (rs, ps)) (hx : exec (.bwWindowEnd p) σ = .next τ) : rs.leaves ps σ τ := by
  cases hc
  exact (out_within (within_execBwWindowEnd p (μ := 284793853827885990961953509288290564185791951541157686127314885375703845627572299666186773583326863438088593447911714706418657723856640596712041119235250793236480) rfl (Within.refl _)) hx).leaves _ _ (by decide +kernel)
theorem frame_ringDmaFault (r : Nat) (σ τ : State) (rs : RegSet) (ps : List Part) (hc : mayChange (.ringDmaFault r) = some (rs, ps)) (hx : exec (.ringDmaFault r) σ = .next τ) : rs.leaves ps σ τ := by
  cases hc
  exact (out_within (within_execRingDmaFault r (μ := 3529364097014649719715069748327721287828648423686176893604928525953767389164319917797510975255070323077702466094145096138335342080354319500139622295169532971040) rfl (Within.refl _)) hx).leaves _ _ (by decide +kernel)
theorem frame_fillCopyComplete (c : Nat) (σ τ : State) (rs : RegSet) (ps : List Part) (hc : mayChange (.fillCopyComplete c) = some (rs, ps)) (hx : exec (.fillCopyComplete c) σ = .next τ) : rs.leaves ps σ τ := by
  cases hc
  exact (out_within (within_execFillCopyComplete c (μ := 6165446398504803850268119655174976283260111578941206170812402494281015971589019841812573877269068872188984249668473745624590185472245511007510041796908194744320) rfl (Within.refl _)) hx).leaves _ _ (by decide +kernel)
theorem frame_ref10Return (at_ : W64) (σ τ : State) (rs : RegSet) (ps : List Part) (hc : mayChange (.ref10Return at_) = some (rs, ps)) (hx : exec (.ref10Return at_) σ = .next τ) : rs.leaves ps σ τ := by
  cases hc
  exact (out_within (within_execRef10Return at_ (μ := 232057620103055130805248174612147416316575990886044296059170442774308101771574365185951006092919809776452524893401504141559086271929178215017548357037633937866752) rfl (Within.refl _)) hx).leaves _ _ (by decide +kernel)
theorem frame_hbmStackTempCross (above : Bool) (σ τ : State) (rs : RegSet) (ps : List Part) (hc : mayChange (.hbmStackTempCross above) = some (rs, ps)) (hx : exec (.hbmStackTempCross above) σ = .next τ) : rs.leaves ps σ τ := by
  cases hc
  exact (out_within (within_execHbmStackTempCross above (μ := 224945689727159819140526925384299092943484855915095831655037778630591879033574393515952034305194542857496045531676044756160413302774714984450425759043258192756736) rfl (Within.refl _)) hx).leaves _ _ (by decide +kernel)

end

end Sys2Proof.Machine
end

