-- ==== Sys2Proof/Laws/Scheduling.lean ====
section
/-!
SUPPORT. The scheduler: which task DISPATCH takes, what the queues of tasks to create do, how a context closes.
-/

namespace Sys2Proof.Machine

set_option Elab.async false


/-! ## Choice -/

theorem bestOf_prio (s : State) (k : Nat) (ts : List Task) (u : Task) (h : bestOf s k ts = some u) :
    u ∈ ts ∧ ∀ v ∈ ts, effPrio s u ≤ effPrio s v := by
  have step : ∀ (ts : List Task) (b : Option Task) (seen : List Task), (∀ x, b = some x → x ∈ seen ∧ ∀ v ∈ seen, effPrio s x ≤ effPrio s v) → (b = none → seen = []) →
      ∀ u, ts.foldl (fun best t => match best with
        | some b => if better s k t b then some t else some b
        | none => some t) b = some u → u ∈ seen ++ ts ∧ ∀ v ∈ seen ++ ts, effPrio s u ≤ effPrio s v := by
    intro ts
    induction ts with
    | nil =>
      intro b seen hb _ u hu
      rw [List.append_nil]
      exact hb u hu
    | cons t ts ih =>
      intro b seen hb hn u hu
      rw [List.foldl_cons] at hu
      have e : seen ++ t :: ts = (seen ++ [t]) ++ ts := by simp
      rw [e]
      refine ih _ (seen ++ [t]) ?_ ?_ u hu
      · intro x hx
        cases b with
        | none =>
          simp only [Option.some.injEq] at hx
          subst hx
          rw [hn rfl]
          simp
        | some b =>
          obtain ⟨b1, b2⟩ := hb b rfl
          dsimp only at hx
          by_cases hc : better s k t b = true
          · rw [if_pos hc, Option.some.injEq] at hx
            subst hx
            refine ⟨by simp, fun v hv => ?_⟩
            have le : effPrio s t ≤ effPrio s b := by
              unfold better at hc
              simp only [Bool.or_eq_true, Bool.and_eq_true, decide_eq_true_eq, beq_iff_eq] at hc
              rcases hc with hc | hc
              · omega
              · omega
            rcases List.mem_append.mp hv with hv | hv
            · exact Nat.le_trans le (b2 v hv)
            · simp only [List.mem_singleton] at hv
              rw [hv]
          · rw [if_neg hc, Option.some.injEq] at hx
            subst hx
            refine ⟨by simp [b1], fun v hv => ?_⟩
            rcases List.mem_append.mp hv with hv | hv
            · exact b2 v hv
            · simp only [List.mem_singleton] at hv
              subst hv
              unfold better at hc
              simp only [Bool.or_eq_true, decide_eq_true_eq, not_or] at hc
              omega
      · intro hb'
        cases b with
        | none => simp at hb'
        | some b => dsimp only at hb'; split at hb' <;> cases hb'
  have := step ts none [] (fun x hx => by cases hx) (fun _ => rfl) u h
  simpa using this

theorem choose_is {s : State} {k : Nat} {u : Task} (h : choose s k = some u) : u ∈ allTasks s ∧ u.st = .ready ∧ candidate s (k / 8) u = true ∧
    (∀ v ∈ allTasks s, v.st = .ready → candidate s (k / 8) v = true → v.affine = some (k / 8) → effPrio s u ≤ effPrio s v) ∧
    ((∀ v ∈ allTasks s, v.st = .ready → candidate s (k / 8) v = true → v.affine ≠ some (k / 8)) →
      ∀ v ∈ allTasks s, v.st = .ready → candidate s (k / 8) v = true → mayTake s k v = true → effPrio s u ≤ effPrio s v) := by
  unfold choose at h
  extract_lets ready aff at h
  have inReady : ∀ v, v ∈ ready ↔ v ∈ allTasks s ∧ v.st = .ready ∧ candidate s (k / 8) v = true := by
    intro v
    show v ∈ List.filter _ _ ↔ _
    rw [List.mem_filter, Bool.and_eq_true, beq_iff_eq]
  have inAff : ∀ v, v ∈ aff ↔ v ∈ ready ∧ v.affine = some (k / 8) := by
    intro v
    show v ∈ List.filter _ _ ↔ _
    rw [List.mem_filter, beq_iff_eq]
  split at h
  · rename_i he
    obtain ⟨h1, h4⟩ := bestOf_prio s k _ u h
    have h2 := (inReady u).mp (List.mem_of_mem_filter h1)
    refine ⟨h2.1, h2.2.1, h2.2.2, fun v a b c d => ?_, fun _ v a b c d => h4 v (List.mem_filter.mpr ⟨(inReady v).mpr ⟨a, b, c⟩, d⟩)⟩
    have : v ∈ aff := (inAff v).mpr ⟨(inReady v).mpr ⟨a, b, c⟩, d⟩
    rw [List.isEmpty_iff.mp he] at this
    simp at this
  · obtain ⟨h1, h3⟩ := bestOf_prio s k _ u h
    have h2 := (inReady u).mp ((inAff u).mp h1).1
    exact ⟨h2.1, h2.2.1, h2.2.2, fun v a b c d => h3 v ((inAff v).mpr ⟨(inReady v).mpr ⟨a, b, c⟩, d⟩),
      fun hn => absurd ((inAff u).mp h1).2 (hn u h2.1 h2.2.1 h2.2.2)⟩

/-- An entry of a map in rising order is what its key finds. -/
theorem map_find_of_mem {α : Type} (m : Map α) (b : Nat) (h : Map.risesFrom b m = true) (q : Nat) (t : α) (hm : (q, t) ∈ m) : Map.find? m q = some t := by
  have low : ∀ (m : Map α) (b : Nat), Map.risesFrom b m = true → (q, t) ∈ m → b ≤ q := by
    intro m
    induction m with
    | nil => intro b _ hm; simp at hm
    | cons y m ih =>
      obtain ⟨j, w⟩ := y
      intro b hr hm
      unfold Map.risesFrom at hr
      simp only [Bool.and_eq_true, decide_eq_true_eq] at hr
      rcases List.mem_cons.mp hm with hm | hm
      · cases hm; exact hr.1
      · have := ih _ hr.2 hm; omega
  induction m generalizing b with
  | nil => simp at hm
  | cons x m ih =>
    obtain ⟨j, w⟩ := x
    unfold Map.risesFrom at h
    simp only [Bool.and_eq_true, decide_eq_true_eq] at h
    rcases List.mem_cons.mp hm with hm | hm
    · cases hm; simp [Map.find?]
    · have := low m _ h.2 hm
      unfold Map.find?
      rw [if_neg (by omega)]
      exact ih _ h.2 hm

theorem task_slot {s : State} (hf : TasksFit s) {q : Nat} {u : Task} (h : taskAt s q = some u) : u.slot = q ∧ u.slot < 65536 ∧ u.ctx < 128 := by
  have := hf.2.1 _ (map_find_mem _ _ _ h)
  refine ⟨this.1, ?_, this.2.2⟩
  rw [this.1]; exact this.2.1

theorem mem_tasks_slot {s : State} (hf : TasksFit s) {u : Task} (h : u ∈ allTasks s) : taskAt s u.slot = some u := by
  obtain ⟨e, he, rfl⟩ := List.mem_map.mp h
  unfold taskAt
  rw [(hf.2.1 e he).1]
  exact map_find_of_mem _ _ hf.1 _ _ he

theorem find_range (p : Nat → Bool) (n k : Nat) (hk : k < n) (hp : p k = true) (hm : ∀ q, q < k → p q = false) : (List.range n).find? p = some k := by
  rw [List.find?_eq_some_iff_append]
  refine ⟨hp, List.range k, (List.range (n - k - 1)).map (fun x => x + (k + 1)), ?_, fun q hq => ?_⟩
  · apply List.ext_getElem
    · simp; omega
    · intro i h1 h2
      simp only [List.getElem_range, List.getElem_append, List.getElem_cons, List.length_range, List.getElem_map]
      split
      · rfl
      · split <;> omega
  · rw [hm q (List.mem_range.mp hq)]; rfl

theorem dispatches {s : State} (hf : TasksFit s) (k : Nat) (u : Task) (h0 : on s fld.sched.EN = true) (hb : blockTested s 20 = false)
    (hk : k < clusters s.member * 8)
    (h1 : clusterOpen s (k / 8) = true) (h2 : taskOn s k = none) (h3 : choose s k = some u)
    (h4 : ∀ q, q < k → (clusterOpen s (q / 8) && (taskOn s q).isNone && (choose s q).isSome) = false) :
      ∃ t w, exec .dispatch s = .next t ∧ taskAt t u.slot = some w ∧ (∀ q, q ≠ u.slot → taskAt t q = taskAt s q) ∧
        w.st = .running k ∧ w.lastCore = some k ∧
        (u.saved = true → w = { u with
          st := .running k, lastCore := some k, saved := false, spill := none, front := none, was := some u.st }) ∧
        (u.saved = false → w.pc = BitVec.ofNat 32 (u.prog.entry * 8) ∧ (∀ r, sreg w r = 0) ∧ (∀ q l, lane w q l = 0) ∧
          (∀ r, r % 8 ≠ 0 → preg w r = 0) ∧ w.scratch = [] ∧ w.staged = [] ∧ w.steps = 0 ∧ w.runs = u.runs + 1 ∧
          w.core = k ∧ (w.torg, w.tsize) = tileWords s u ∧ w.priv = privileged s u) := by
  have hex : exec .dispatch s = .next (startRun k u s) := by
    show execDispatch s = _
    unfold execDispatch
    rw [h0, hb, if_pos (by rfl), find_range _ _ k hk (by rw [h1, h2, h3]; rfl) h4]
    dsimp only
    rw [h3]
  cases hs : u.saved
  · have hw : ∃ w, startRun k u s = setTask w s ∧ w.slot = u.slot ∧ w.st = .running k ∧ w.lastCore = some k ∧
        w.pc = BitVec.ofNat 32 (u.prog.entry * 8) ∧ w.sregs = [] ∧ w.vregs = [] ∧ w.pregs = [] ∧ w.scratch = [] ∧ w.staged = [] ∧
        w.steps = 0 ∧ w.runs = u.runs + 1 ∧ w.core = k ∧ (w.torg, w.tsize) = tileWords s u ∧ w.priv = privileged s u := by
      unfold startRun
      rw [hs, if_neg (by simp)]
      exact ⟨_, rfl, rfl, rfl, rfl, rfl, rfl, rfl, rfl, rfl, rfl, rfl, rfl, rfl, rfl, rfl⟩
    obtain ⟨w, w0, w1, w2, w3, w4, w5, w6, w7, w8, w9, w10, w11⟩ := hw
    refine ⟨startRun k u s, w, hex, ?_, fun q hq => ?_, w2, w3, fun e => by simp at e, fun _ => ⟨w4, fun r => ?_, fun q l => ?_, fun r hr => ?_, w8, w9, w10, w11⟩⟩
    · rw [w0, ← w1]; exact taskAt_setTask_same _ _
    · rw [w0]
      exact taskAt_setTask_ne _ _ (by rw [w1]; exact hq)
    · unfold sreg; rw [w5]; split <;> rfl
    · unfold lane; rw [w6]; rfl
    · unfold preg; rw [w7, if_neg hr]; rfl
  · refine ⟨_, { u with st := .running k, lastCore := some k, saved := false, spill := none, front := none, was := some u.st }, hex, ?_, ?_,
      rfl, rfl, fun _ => rfl, fun e => by simp at e⟩
    · unfold startRun
      rw [hs, if_pos rfl]
      exact taskAt_setTask_same { u with st := .running k, lastCore := some k, saved := false, spill := none, front := none, was := some u.st } s
    · intro q hq
      unfold startRun
      rw [hs, if_pos rfl]
      exact taskAt_setTask_ne _ _ hq

/-! ## Waits, rebinding, creation -/

theorem affinity_ends {s : State} (hf : TasksFit s) {slot : Nat} {u : Task} (h : taskAt s slot = some u) (hr : u.st = .ready) :
    ∃ t, exec (.affinityWaitEnd slot) s = .next t ∧ taskAt t slot = some { u with waited := true } ∧
      t.ot = timeAt s (u.readyAt + affinityWait) := by
  refine ⟨setTask { u with waited := true } (advance (u.readyAt + affinityWait) s), ?_, ?_, advance_ot _ _⟩
  · show execAffinityWaitEnd slot s = _
    unfold execAffinityWaitEnd
    rw [h]
    dsimp only
    rw [if_pos hr]
  · have := taskAt_setTask_same { u with waited := true } (advance (u.readyAt + affinityWait) s)
    rw [← (task_slot hf h).1]
    exact this

theorem rebinds {s : State} (hf : TasksFit s) {slot : Nat} {u : Task} (h : taskAt s slot = some u) (k c : Nat) (h1 : u.spill = some k)
    (h2 : clusterGone s k = true) (h3 : rebindTo s u = some c) : ∃ t, exec (.taskRebind slot) s = .next t ∧
          taskAt t slot = some { u with spill := some c, affine := if dNoaff u.desc then none else some c } := by
  refine ⟨setTask { u with spill := some c, affine := if dNoaff u.desc then none else some c } s, ?_, ?_⟩
  · show execTaskRebind slot s = _
    unfold execTaskRebind
    rw [h]
    dsimp only
    rw [h1]
    dsimp only
    rw [h2, if_neg (by simp), h3]
  · have := taskAt_setTask_same { u with spill := some c, affine := if dNoaff u.desc then none else some c } s
    rw [← (task_slot hf h).1]
    exact this

/-- Creating a task leaves the queues of tasks to create. -/
theorem createTask_queues (d : List W32) (c : Nat) (epoch : Option W32) (pg : ProgSnap) (tmpl parent : Option Nat) (slot : Nat) (s : State) :
    (createTask d c epoch pg tmpl parent slot s).sch.createQ = s.sch.createQ ∧ (createTask d c epoch pg tmpl parent slot s).sch.recreateQ = s.sch.recreateQ := by
  unfold createTask
  extract_lets t before src s1 s2 s3
  have h1 : s1.sch.createQ = s.sch.createQ ∧ s1.sch.recreateQ = s.sch.recreateQ := by
    show (takeSlot { s with sch := { s.sch with nextId := s.sch.nextId + 1 } }).sch.createQ = _ ∧ (takeSlot { s with sch := { s.sch with nextId := s.sch.nextId + 1 } }).sch.recreateQ = _
    unfold takeSlot
    split <;> exact ⟨rfl, rfl⟩
  have h2 : s2.sch.createQ = s1.sch.createQ ∧ s2.sch.recreateQ = s1.sch.recreateQ := by
    show (if releaseHolds s1 t = true then makeReady t s1 else setTask t s1).sch.createQ = _ ∧ (if releaseHolds s1 t = true then makeReady t s1 else setTask t s1).sch.recreateQ = _
    split <;> exact ⟨rfl, rfl⟩
  have h3 : s3.sch = s2.sch := by
    show (if crosses before (slotsUsed s2) (get s2 fld.slotLevel.SLOT_LEVEL) = true then raise0 16 s2 else s2).sch = s2.sch
    split
    · rw [(eventOnly_raise0 16 s2).frame]
    · rfl
  rw [refreshCtx_sch, h3, h2.1, h2.2]
  exact h1

theorem tile_created {s : State} {slot : Nat} (hs : nextSlot s = some slot) (j : CreateJob)
    (hj : s.sch.createQ.find? (fun j => !slotQuotaHit s j.ctx && !blockTested s 20) = some j) :
        ∃ t u, exec .tileTaskCreate s = .next t ∧ taskAt t slot = some u ∧ (∀ q, q ≠ slot → taskAt t q = taskAt s q) ∧
          u.desc = withTile j.desc (j.next / tileCols s j.canvas) (j.next % tileCols s j.canvas) ∧ u.ctx = j.ctx % 128 ∧
          u.epoch = j.epoch ∧ u.prog = j.prog ∧ u.tmpl = some j.tmpl ∧ u.parent = none ∧
          t.sch.createQ = takeTile s.sch.createQ j := by
  generalize hx : ({ s with sch := { s.sch with createQ := takeTile s.sch.createQ j } } : State) = x
  obtain ⟨⟨u, u1, u2⟩, u3⟩ := createTask_at (withTile j.desc (j.next / tileCols s j.canvas) (j.next % tileCols s j.canvas)) j.ctx j.epoch j.prog
    (some j.tmpl) none slot x
  refine ⟨createTask (withTile j.desc (j.next / tileCols s j.canvas) (j.next % tileCols s j.canvas)) j.ctx j.epoch j.prog (some j.tmpl) none slot x,
    u, ?_, u1, fun q hq => (u3 q hq).trans (by rw [← hx]; rfl), ?_⟩
  · show execTileTaskCreate s = _
    unfold execTileTaskCreate
    rw [hj, hs]
    dsimp only
    rw [hx]
  · rw [(createTask_queues _ _ _ _ _ _ _ x).1]
    refine ⟨?_, ?_, ?_, ?_, ?_, ?_, by rw [← hx]⟩ <;> rw [u2] <;> rfl

theorem task_recreated {s : State} {slot : Nat} (hs : nextSlot s = some slot) (d : DoneTask)
    (hd : s.sch.recreateQ.find? (fun d => slotFree s d.ctx && ctxLive s d.ctx && !blockTested s 20) = some d) :
        ∃ t u, exec .taskRecreate s = .next t ∧ taskAt t slot = some u ∧ (∀ q, q ≠ slot → taskAt t q = taskAt s q) ∧
          u.id = d.id ∧ u.desc = d.desc ∧ u.ctx = d.ctx % 128 ∧ u.epoch = some d.epoch ∧ u.prog = d.prog ∧
          u.runs = d.runs ∧ u.readSet = [] ∧ u.lastCore = d.core ∧
          t.sch.recreateQ = s.sch.recreateQ.filter (fun x => x.id != d.id) := by
  generalize hx : ({ s with sch := { s.sch with recreateQ := s.sch.recreateQ.filter (fun x => x.id != d.id) } } : State) = x
  obtain ⟨⟨u, u1, u2⟩, u3⟩ := createTask_at d.desc d.ctx (some d.epoch) d.prog d.tmpl d.parent slot x
  have q1 := (createTask_queues d.desc d.ctx (some d.epoch) d.prog d.tmpl d.parent slot x).2
  have us : u.slot = slot := by rw [u2]; rfl
  generalize hy : createTask d.desc d.ctx (some d.epoch) d.prog d.tmpl d.parent slot x = y at u1 u3 q1
  generalize hw : (let t : Task := { u with id := d.id, depth := d.depth, runs := d.runs, cycles := d.cycles, lastCore := d.core }
      ({ t with affine := affineOf y t } : Task)) = w
  have ws : w.slot = slot := by rw [← hw]; exact us
  refine ⟨setTask w y, w, ?_, ?_, fun q hq => ?_, ?_⟩
  · show execTaskRecreate s = _
    unfold execTaskRecreate
    rw [hd, hs]
    dsimp only
    rw [hx, hy, u1]
    dsimp only
    rw [← hw]
  · rw [← ws]; exact taskAt_setTask_same _ _
  · rw [taskAt_setTask_ne _ _ (by rw [ws]; exact hq), u3 q hq, ← hx]
    rfl
  · refine ⟨?_, ?_, ?_, ?_, ?_, ?_, ?_, ?_, ?_⟩
    · rw [← hw]
    · rw [← hw, u2]; rfl
    · rw [← hw, u2]; rfl
    · rw [← hw, u2]; rfl
    · rw [← hw, u2]; rfl
    · rw [← hw]
    · rw [← hw, u2]; rfl
    · rw [← hw]
    · show y.sch.recreateQ = _
      rw [q1, ← hx]


/-! ## Cancel and kick -/

/-- What `Ended` says of the first state is not touched by a journal record. -/
theorem noted_ended {s u v : State} (a : Noted s u) {t : Task} {record : Bool} {status code : Nat} {info : W32}
    (h : Ended u v t record status code info) : Ended s v t record status code info := by
  have e1 : on u fld.ctxCpl.EN t.ctx = on s fld.ctxCpl.EN t.ctx := a.on _ _ _ (by decide)
  have e2 : get u fld.ctxCpl.RING t.ctx = get s fld.ctxCpl.RING t.ctx := a.get _ _ _ (by decide)
  have e3 : ∀ r, ringSize u r = ringSize s r := fun r => by unfold ringSize; rw [a.get _ _ _ (by decide)]
  have e4 : ∀ r, get u fld.ringTail.TAIL r = get s fld.ringTail.TAIL r := fun r => a.get _ _ _ (by decide)
  have e5 : ctxCplTakes u t.ctx = ctxCplTakes s t.ctx := by
    unfold ctxCplTakes ctxOwner cplTakes ringRuns ringRoom ringOcc
    rw [e2, e3, e4, a.get fld.ctxCtrl.OWNER _ _ (by decide), a.on fld.ringCtrl.EN _ _ (by decide), a.get fld.ringCtrl.KIND _ _ (by decide),
      a.get fld.ringCtrl.FN _ _ (by decide), a.get fld.ringHead.HEAD _ _ (by decide)]
  unfold Ended at h ⊢
  rw [e1, e5, e2, e3, e4] at h
  exact h

theorem Noted.tasks {s u : State} (a : Noted s u) (q : Nat) : taskAt u q = taskAt s q := taskAt_congr (by rw [a.frame]) q
theorem Noted.fit {s u : State} (a : Noted s u) (h : TasksFit s) : TasksFit u := by
  have : u.sch = s.sch := by rw [a.frame]
  unfold TasksFit; rw [this]; exact h

theorem cancels {s : State} (hf : TasksFit s) {slot : Nat} {u : Task} (h : taskAt s slot = some u) (fn : Nat) (v : W32) (same : Bool)
    (hv : v.toNat % 65536 = slot) (hw : Writable s fn .schedCancel 0 0) :
        (v.toNat / 65536 % 128 = u.ctx → isPf fn = true ∨ ctxOwner s u.ctx = fn → u.finishing = none →
          ∃ t, exec (.schedCancel fn v same) s = .next t ∧
            Ended s t u true (if cancelState same u = .waiting ∨ cancelState same u = .ready then 5 else 4) 0 0) ∧
        (v.toNat / 65536 % 128 ≠ u.ctx →
          ∃ t, exec (.schedCancel fn v same) s = .next t ∧ taskAt t slot = some u ∧
            counter t Cnt.cancelRefused.ctorIdx = counter s Cnt.cancelRefused.ctorIdx + 1) := by
  obtain ⟨x, hx, he⟩ := hostWrite_of hw v (cancelWrite fn v same)
  have hex : exec (.schedCancel fn v same) s = .next (cancelWrite fn v same x) := congrArg _ he
  obtain ⟨s1, s2, s3⟩ := task_slot hf h
  have ow : ctxOwner x u.ctx = ctxOwner s u.ctx := hx.get _ _ _ (by decide)
  refine ⟨fun hc ho hfin => ⟨_, hex, ?_⟩, fun hc => ⟨_, hex, ?_⟩⟩
  · unfold cancelWrite
    dsimp only
    rw [hv, hc, ow, if_neg, hx.tasks, h]
    · dsimp only
      rw [if_pos rfl]
      exact noted_ended hx (cancelBy_ended (cancelState same u) u x (hx.fit hf) s2 s3 hfin)
    · rcases ho with ho | ho <;> simp [ho]
  · unfold cancelWrite
    dsimp only
    rw [hv, hx.tasks, h]
    dsimp only
    rw [if_neg (Ne.symm hc)]
    split
    · exact ⟨(taskAt_congr rfl slot).trans ((hx.tasks slot).trans h), by rw [counter_bump_same, hx.cnt _ (by decide)]⟩
    · exact ⟨(taskAt_congr rfl slot).trans ((hx.tasks slot).trans h), by rw [counter_bump_same, hx.cnt _ (by decide)]⟩

theorem tmplDesc_noted {s x : State} (hx : Noted s x) (n : Nat) : tmplDesc x n = tmplDesc s n := by
  unfold tmplDesc
  exact List.map_congr_left (fun k _ => hx.reg _ _ _ (by decide))

theorem descBad_congr {s x : State} (h : ∀ r i j, r ≠ .jseqTx → r ≠ .tmplReleased → rd x r i j = rd s r i j) (d : List W32) (c : Nat) : descBad x d c = descBad s d c := by
  have g : ∀ (f : Fld) i j, f.reg ≠ .jseqTx → f.reg ≠ .tmplReleased → get x f i j = get s f i j := fun f i j h1 h2 => get_of_rd (h _ _ _ h1 h2)
  unfold descBad canvasCtx progValid tileCols tileRows on
  rw [g fld.canvasCtrl.CTX _ _ (by decide) (by decide), g fld.progCtrl.VALID _ _ (by decide) (by decide), g fld.progCtrl.CTX _ _ (by decide) (by decide),
    g fld.canvasWidth.WIDTH _ _ (by decide) (by decide), g fld.canvasTile.TW _ _ (by decide) (by decide),
    g fld.canvasHeight.HEIGHT _ _ (by decide) (by decide), g fld.canvasTile.TH _ _ (by decide) (by decide)]

theorem createTask_reg (d : List W32) (c : Nat) (epoch : Option W32) (pg : ProgSnap) (tmpl parent : Option Nat) (slot : Nat) (s : State) (n : Nat) :
    rd (createTask d c epoch pg tmpl parent slot s) .tmplReleased n = rd s .tmplReleased n := by
  unfold createTask
  extract_lets t before src s1 s2 s3
  have h1 : s1.regs = s.regs := by
    show (takeSlot { s with sch := { s.sch with nextId := s.sch.nextId + 1 } }).regs = _
    unfold takeSlot
    split <;> rfl
  have h2 : s2.regs = s1.regs := by
    show (if releaseHolds s1 t = true then makeReady t s1 else setTask t s1).regs = _
    split <;> rfl
  have h3 : rd s3 .tmplReleased n = rd s2 .tmplReleased n := by
    show rd (if crosses before (slotsUsed s2) (get s2 fld.slotLevel.SLOT_LEVEL) = true then raise0 16 s2 else s2) .tmplReleased n = _
    split
    · exact rd_raise 16 noDetail s2 _ _ _ (by decide) (by decide) (by decide)
    · rfl
  have h4 : rd (refreshCtx c s3) .tmplReleased n = rd s3 .tmplReleased n :=
    (within_refreshCtx c (μ := footprint [.ringTail, .ringStatus, .hostStatus, .ctxStatus, .ctxEvent] [.cnt, .hmem, .hst]) (by decide +kernel)
      (Within.refl s3)).reg .tmplReleased (by decide +kernel) n 0
  rw [h4, h3, rd_congr h2, rd_congr h1]

theorem kicks {s : State} {slot : Nat} (hs : nextSlot s = some slot) (fn : Nat) (v : W32) (n : Nat) (d : List W32) (hn : n = v.toNat % 256)
    (hd : d = tmplDesc s n) (hw : Writable s fn .schedKick 0 0) (ho : isPf fn = true ∨ ctxOwner s (tmplCtx s n) = fn) (h8 : tmplKind s n = 8) (ht : tmplTaken s n = false)
    (hl : tmplLive s n d = true) (hb : descBad s d (dCtx d) = false) (he : dEmode d ≠ 1) (hq : slotQuotaHit s (dCtx d) = false) :
        ∃ t u, exec (.schedKick fn v) s = .next t ∧ taskAt t slot = some u ∧ u.desc = d ∧ u.ctx = dCtx d % 128 ∧
          u.tmpl = some n ∧ u.epoch = (if dEmode d = 2 then none else some (BitVec.ofNat 32 (dw d 2))) ∧
          rd t .tmplReleased n = rd s .tmplReleased n + 1 := by
  obtain ⟨x, hx, hx2⟩ := hostWrite_of hw v (kickSched fn v)
  have hex : exec (.schedKick fn v) s = .next (kickSched fn v x) := congrArg _ hx2
  have xd : tmplDesc x n = d := (tmplDesc_noted hx n).trans hd.symm
  have xc : tmplCtx x n = tmplCtx s n := by unfold tmplCtx; rw [tmplDesc_noted hx]
  have xk : tmplKind x n = 8 := (hx.get _ _ _ (by decide)).trans h8
  have xo : ctxOwner x (tmplCtx s n) = ctxOwner s (tmplCtx s n) := hx.get _ _ _ (by decide)
  have xs : x.sch = s.sch := by rw [hx.frame]
  have xl : tmplLive x n d = true := by
    rw [← hl]; unfold tmplLive ctxLive; rw [hx.on _ _ _ (by decide), hx.on _ _ _ (by decide), hx.get _ _ _ (by decide), xs]
  have xt : tmplTaken x n = false := by rw [← ht]; unfold tmplTaken; rw [xs]
  have xb : descBad x d (dCtx d) = false := (descBad_congr (fun r i j h _ => hx.reg r i j h) d _).trans hb
  generalize hy : countRelease n x = y
  have yn : nextSlot y = some slot := by
    have ys : y.sch = s.sch := by rw [← hy]; exact xs
    rw [← hs]; unfold nextSlot; rw [ys]
  have yq : slotQuotaHit y (dCtx d) = false := by
    rw [← hq, ← hy]
    unfold slotQuotaHit ctxSlots
    show atQuota (get (countRelease n x) fld.ctxQuotaSlots.QUOTA_SLOTS (dCtx d)) _ = _
    have e1 : get (countRelease n x) fld.ctxQuotaSlots.QUOTA_SLOTS (dCtx d) = get s fld.ctxQuotaSlots.QUOTA_SLOTS (dCtx d) :=
      (get_of_rd (f := fld.ctxQuotaSlots.QUOTA_SLOTS) (rd_wr_reg (by decide) _ _ _ _ _ _)).trans (hx.get _ _ _ (by decide))
    rw [e1]
    show atQuota _ (x.sch.tasks.filter _).length = _
    rw [xs]
  have hk : kickSched fn v x = createTask d (dCtx d) (if dEmode d = 2 then none else some (BitVec.ofNat 32 (dw d 2))) (progSnap y (dProg d)) (some n) none slot y := by
    unfold kickSched
    dsimp only
    rw [← hn, xc, xo, if_neg (by rcases ho with ho | ho <;> simp [ho]), if_pos ⟨xk, xt⟩, xd]
    unfold releaseOne
    rw [xl, if_neg (by simp)]
    dsimp only
    rw [xb, if_neg (by simp [he]), hy, yn]
    dsimp only
    rw [yq, if_neg (by simp), if_neg he]
    rfl
  obtain ⟨⟨u, u1, u2⟩, -⟩ := createTask_at d (dCtx d) (if dEmode d = 2 then none else some (BitVec.ofNat 32 (dw d 2))) (progSnap y (dProg d)) (some n) none slot y
  have ur := createTask_reg d (dCtx d) (if dEmode d = 2 then none else some (BitVec.ofNat 32 (dw d 2))) (progSnap y (dProg d)) (some n) none slot y n
  rw [← hk] at u1 ur
  refine ⟨_, u, hex, u1, ?_, ?_, ?_, ?_, ?_⟩
  · rw [u2]; rfl
  · rw [u2]; rfl
  · rw [u2]; rfl
  · rw [u2]; rfl
  · rw [ur, ← hy]
    unfold countRelease
    rw [rd_wr_same, hx.reg _ _ _ (by decide)]


/-! ## Contexts that end, and their core time -/

theorem forEach_all' {P : State → Prop} {α : Type} {f : α → State → State} (xs : List α) (keep : ∀ a ∈ xs, ∀ u, P u → P (f a u)) (u : State) (h : P u) :
    P (forEach xs f u) := by
  induction xs generalizing u with
  | nil => exact h
  | cons x xs ih => exact ih (fun a ha => keep a (List.mem_cons_of_mem _ ha)) (f x u) (keep x List.mem_cons_self u h)

theorem forEach_mem' {P Q : State → Prop} {α : Type} [DecidableEq α] {f : α → State → State} (a : α) (xs : List α) (ha : a ∈ xs)
    (keepP : ∀ b ∈ xs, ∀ u, P u → P (f b u)) (set : ∀ u, P u → Q (f a u)) (keepQ : ∀ b ∈ xs, ∀ u, Q u → Q (f b u)) (u : State) (h : P u) :
    Q (forEach xs f u) := by
  induction xs generalizing u with
  | nil => simp at ha
  | cons x xs ih =>
    show Q (forEach xs f (f x u))
    by_cases e : x = a
    · subst e
      exact forEach_all' xs (fun b hb => keepQ b (List.mem_cons_of_mem _ hb)) _ (set u h)
    · exact ih (by rcases List.mem_cons.mp ha with k | k; exact absurd k.symm e; exact k) (fun b hb => keepP b (List.mem_cons_of_mem _ hb))
        (fun b hb => keepQ b (List.mem_cons_of_mem _ hb)) _ (keepP x List.mem_cons_self u h)

/-- A slot holds a live task of a context: one that is not waiting for its record. -/
def LiveIn (s : State) (c q : Nat) : Prop := ∃ u, taskAt s q = some u ∧ u.ctx = c ∧ u.finishing = none

/-- The context of the task in a slot, and whether it waits for its record. -/
def holdsAt (s : State) (q : Nat) : Option (Nat × Bool) := (taskAt s q).map (fun u => (u.ctx, u.finishing.isSome))

theorem liveIn_iff (s : State) (c q : Nat) : LiveIn s c q ↔ holdsAt s q = some (c, false) := by
  unfold LiveIn holdsAt
  cases h : taskAt s q with
  | none => simp
  | some u => simp

theorem holdsAt_congr {s u : State} (h : u.sch.tasks = s.sch.tasks) (q : Nat) : holdsAt u q = holdsAt s q := by
  unfold holdsAt; rw [taskAt_congr h]

theorem holdsAt_set (t : Task) (s : State) (q : Nat) : holdsAt (setTask t s) q = if q = t.slot then some (t.ctx, t.finishing.isSome) else holdsAt s q := by
  by_cases e : q = t.slot
  · subst e
    rw [if_pos rfl]
    unfold holdsAt
    rw [taskAt_setTask_same]; rfl
  · rw [if_neg e]
    unfold holdsAt
    rw [taskAt_setTask_ne _ _ e]

theorem holdsAt_readyAll (ts : List Task) (s : State) (h : ∀ t ∈ ts, holdsAt s t.slot = some (t.ctx, t.finishing.isSome)) (q : Nat) :
    holdsAt (forEach ts makeReady s) q = holdsAt s q := by
  induction ts generalizing s with
  | nil => rfl
  | cons t ts ih =>
    have one : ∀ p, holdsAt (makeReady t s) p = holdsAt s p := by
      intro p
      unfold makeReady
      rw [holdsAt_set]
      by_cases e : p = t.slot
      · rw [e, if_pos rfl]; exact (h t List.mem_cons_self).symm
      · rw [if_neg e]
    show holdsAt (forEach ts makeReady (makeReady t s)) q = _
    rw [ih (makeReady t s) (fun w hw => by rw [one]; exact h w (List.mem_cons_of_mem _ hw)), one]

theorem holdsAt_wake (s : State) (hf : TasksFit s) (q : Nat) : holdsAt (wakeSpawners s) q = holdsAt s q := by
  unfold wakeSpawners
  refine holdsAt_readyAll _ s (fun t ht => ?_) q
  unfold holdsAt
  rw [mem_tasks_slot hf (List.mem_of_mem_filter ht)]
  rfl

/-- A freed slot is empty, and no other has changed hands. -/
theorem holdsAt_free (t : Task) (s : State) (hf : TasksFit s) (hs : t.slot < 65536) (q : Nat) :
    holdsAt (freeTask t s) q = if q = t.slot then none else holdsAt s q := by
  unfold freeTask
  dsimp only
  generalize hy : ({ s with sch := { s.sch with tasks := Map.del s.sch.tasks t.slot, slotFreed := s.sch.slotFreed ++ [t.slot] } } : State) = y
  have fy : TasksFit y := by
    rw [← hy]
    refine ⟨map_rises_filter _ _ _ hf.1, fun e he => hf.2.1 e (List.mem_of_mem_filter he), fun p hp => ?_⟩
    rcases List.mem_append.mp hp with hp | hp
    · exact hf.2.2 p hp
    · rw [List.mem_singleton.mp hp]; exact hs
  have fz : TasksFit (refreshCtx t.ctx y) := by unfold TasksFit; rw [refreshCtx_sch]; exact fy
  rw [holdsAt_congr (closeCtx_parts _ _).1, holdsAt_wake _ fz, holdsAt_congr (congrArg Sched.tasks (refreshCtx_sch _ _)), ← hy]
  unfold holdsAt taskAt
  by_cases e : q = t.slot
  · rw [if_pos e, e]; simp
  · rw [if_neg e]; show Option.map _ (Map.find? (Map.del s.sch.tasks t.slot) q) = _; rw [map_find_del_ne _ e]

/-- A cancelled task is gone, or waits for its record; no other slot has changed hands. -/
theorem holdsAt_cancel (t : Task) (s : State) (hf : TasksFit s) (hs : t.slot < 65536) (q : Nat) :
    (q ≠ t.slot → holdsAt (cancelTask t s) q = holdsAt s q) ∧
    (t.finishing = none → holdsAt (cancelTask t s) t.slot = none ∨ holdsAt (cancelTask t s) t.slot = some (t.ctx, true)) := by
  cases hfin : t.finishing with
  | some w =>
    refine ⟨fun _ => ?_, fun h => by simp at h⟩
    unfold cancelTask cancelBy
    rw [hfin]
    rfl
  | none =>
    generalize hu : fillFor t (flushStores t s) = u
    have ut : u.sch = s.sch := by rw [← hu, fillFor_frame, flushStores_frame]
    have uf : TasksFit u := by unfold TasksFit; rw [ut]; exact hf
    have hc : ∃ status, cancelTask t s = depart t (taskRecord t status 0 0 0) true u := by
      refine ⟨if t.st = .waiting ∨ t.st = .ready then 5 else 4, ?_⟩
      unfold cancelTask cancelBy
      rw [hfin]
      simp only [hu, Option.isSome_none, Bool.false_eq_true, if_false]
      cases t.st <;> simp [finish]
    obtain ⟨status, hc⟩ := hc
    rw [hc]
    unfold depart
    split
    · split
      · have wf : TasksFit (writeTaskRecord t.ctx (taskRecord t status 0 0 0) u) := by unfold TasksFit; rw [writeTaskRecord_sch]; exact uf
        refine ⟨fun h => ?_, fun _ => .inl ?_⟩
        · rw [holdsAt_free _ _ wf hs, if_neg h, holdsAt_congr (congrArg Sched.tasks (writeTaskRecord_sch _ _ _)), holdsAt_congr (congrArg Sched.tasks ut)]
        · rw [holdsAt_free _ _ wf hs, if_pos rfl]
      · refine ⟨fun h => ?_, fun _ => .inr ?_⟩
        · rw [holdsAt_set, if_neg (by exact h), holdsAt_congr (congrArg Sched.tasks ut)]
        · rw [holdsAt_set, if_pos rfl]; rfl
    · refine ⟨fun h => ?_, fun _ => .inl ?_⟩
      · rw [holdsAt_free _ _ uf hs, if_neg h, holdsAt_congr (congrArg Sched.tasks ut)]
      · rw [holdsAt_free _ _ uf hs, if_pos rfl]

/-- What disabling a context has promised: it is closing, or reads EN = 0. -/
def Closing (s : State) (c : Nat) : Prop := c ∈ s.sch.ctxClosing ∨ on s fld.ctxCtrl.EN c = false

/-- Operations that leave the queues of tasks to create, the contexts that close, and EN of contexts. -/
structure Quiet (s t : State) : Prop where
  create : t.sch.createQ = s.sch.createQ
  again : t.sch.recreateQ = s.sch.recreateQ
  closing : ∀ c, Closing s c → Closing t c

theorem Quiet.trans {s t u : State} (a : Quiet s t) (b : Quiet t u) : Quiet s u :=
  ⟨b.create.trans a.create, b.again.trans a.again, fun c h => b.closing c (a.closing c h)⟩

theorem quiet_of {s t : State} (h1 : t.sch = s.sch) (h2 : ∀ c, rd t .ctxCtrl c = rd s .ctxCtrl c) : Quiet s t := by
  refine ⟨by rw [h1], by rw [h1], fun c h => ?_⟩
  unfold Closing on at *
  rw [h1, get_of_rd (f := fld.ctxCtrl.EN) (h2 c)]
  exact h

theorem quiet_setTask (t : Task) (s : State) : Quiet s (setTask t s) := ⟨rfl, rfl, fun _ h => h⟩

theorem quiet_closeCtx (d : Nat) (s : State) : Quiet s (closeCtx d s) := by
  unfold closeCtx
  split
  · refine ⟨rfl, rfl, fun c h => ?_⟩
    by_cases e : c = d
    · subst e
      right
      rw [on_put_same _ _ _ _ _ (by decide) (by decide)]; rfl
    · unfold Closing at *
      rcases h with h | h
      · left
        show c ∈ s.sch.ctxClosing.filter _
        rw [List.mem_filter]
        exact ⟨h, by simpa using e⟩
      · right
        rw [← h]
        unfold on
        rw [get_put_idx _ _ _ _ _ _ _ (by rfl) e]
        rfl
  · exact ⟨rfl, rfl, fun _ h => h⟩

theorem quiet_freeTask (t : Task) (s : State) : Quiet s (freeTask t s) := by
  unfold freeTask
  dsimp only
  generalize hy : ({ s with sch := { s.sch with tasks := Map.del s.sch.tasks t.slot, slotFreed := s.sch.slotFreed ++ [t.slot] } } : State) = y
  have q1 : Quiet s y := by rw [← hy]; exact ⟨rfl, rfl, fun _ h => h⟩
  have q2 : Quiet y (refreshCtx t.ctx y) := quiet_of (refreshCtx_sch _ _)
    (fun c => (refreshCtx_fmem t.ctx y).2.2 _ _ _ (by decide) (by decide) (by decide) (by decide) (by decide))
  have q3 : Quiet (refreshCtx t.ctx y) (wakeSpawners (refreshCtx t.ctx y)) := by
    rw [wakeSpawners_frame]; exact ⟨rfl, rfl, fun _ h => h⟩
  exact ((q1.trans q2).trans q3).trans (quiet_closeCtx _ _)

theorem quiet_cancel (t : Task) (s : State) : Quiet s (cancelTask t s) := by
  unfold cancelTask cancelBy
  split
  · exact ⟨rfl, rfl, fun _ h => h⟩
  · generalize hu : fillFor t (flushStores t s) = u
    have q1 : Quiet s u := by
      rw [← hu, fillFor_frame, flushStores_frame]
      exact ⟨rfl, rfl, fun _ h => h⟩
    have q2 : ∀ status, status ≠ 0 → Quiet u (finish t status 0 0 0 u) := by
      intro status hst
      unfold finish depart
      rw [if_neg hst]
      split
      · split
        · refine (quiet_of (writeTaskRecord_sch _ _ _) (fun c => ?_)).trans (quiet_freeTask _ _)
          exact (writeTaskRecord_events _ _ _).regs _ _ _ (by decide) (by decide) (by decide)
        · exact quiet_setTask _ _
      · exact quiet_freeTask _ _
    refine q1.trans (q2 _ ?_)
    cases t.st <;> simp

/-- Noting the tiles that were still to come changes the canvases' epochs alone. -/
theorem noteUndone_frame (c : Nat) (s : State) : noteUndone c s = { s with vat := (noteUndone c s).vat } := by
  have step : ∀ {α : Type} (l : List α) (f : α → State → State) (_ : ∀ a u, f a u = { u with vat := (f a u).vat }) (u : State),
      forEach l f u = { u with vat := (forEach l f u).vat } := by
    intro α l f hf u
    refine forEach_all (P := fun w => w = { u with vat := w.vat }) (fun a w h => ?_) l u rfl
    have := hf a w
    rw [this, h]
  have rec_ : ∀ d e g u, updRec d e g u = { u with vat := (updRec d e g u).vat } := fun _ _ _ _ => rfl
  unfold noteUndone
  extract_lets s1
  have h1 : s1 = { s with vat := s1.vat } := step _ _ (fun j u => by cases j.epoch <;> first | rfl | exact rec_ _ _ _ _) s
  have h2 := step (s.sch.recreateQ.filter (fun d => d.ctx == c)) _ (fun d u => rec_ d.canvas d.epoch
    (fun r => { r with undone := r.undone ++ [tileNo u d.canvas (dRow d.desc) (dCol d.desc)] }) u) s1
  have key : ∀ (a : State) (v : Vat), a = { s with vat := a.vat } → { a with vat := v } = { s with vat := v } := fun a v h => by rw [h]
  exact h2.trans (key s1 _ h1)

theorem ctx_disables {s : State} (hs : Sound s) (fn c : Nat) (v : W32) (hc : c < 128) (hw : Writable s fn .ctxCtrl c 0)
    (h1 : on s fld.ctxCtrl.EN c = true) (h2 : v.toNat % 2 = 0) (h3 : c ∉ s.sch.ctxClosing) :
      ∃ t, exec (.ctxDisable fn c v) s = .next t ∧ (∀ j ∈ t.sch.createQ, j.ctx ≠ c) ∧ (∀ d ∈ t.sch.recreateQ, d.ctx ≠ c) ∧
        (∀ q u, taskAt t q = some u → u.ctx = c → u.finishing.isSome = true) ∧
        (ctxSlots t c = 0 → on t fld.ctxCtrl.EN c = false) := by
  obtain ⟨x, hx, hx2⟩ := hostWrite_of hw v (ctxWrite (isPf fn) c v)
  have xs : x.sch = s.sch := by rw [hx.frame]
  have xe : on x fld.ctxCtrl.EN c = true := (hx.on _ _ _ (by decide)).trans h1
  obtain ⟨y, hy, y1, y2, y3⟩ : ∃ y, ctxWrite (isPf fn) c v x = disableCtx c y ∧ y.sch = s.sch ∧ on y fld.ctxCtrl.EN c = true ∧ Sound y := by
    unfold ctxWrite
    dsimp only
    rw [xe, show (v.toNat % 2 == 1) = false by simp [h2], if_pos (by rfl)]
    refine ⟨_, rfl, xs, ?_, ?_⟩
    · rw [on_put_same _ _ _ _ _ (by decide) (by decide)]; rfl
    · exact (within_put fld.ctxCtrl.EN 1 c 0 (m := footprint [.ctxCtrl] []) (by decide +kernel)
        (within_plainWrite (isPf fn) .ctxCtrl c 0 _ (by decide +kernel) (Within.refl x))).sound (hx.sound hs)
  generalize hn : noteUndone c y = y0
  have n0 : y0 = { y with vat := y0.vat } := by rw [← hn]; exact noteUndone_frame c y
  have n1 : y0.sch = s.sch := by rw [n0]; exact y1
  have n3 : Sound y0 := by rw [n0]; exact ⟨y3.fmem, y3.hmem, y3.regs, y3.tasks⟩
  generalize hz : ({ y0 with sch := { y0.sch with
      ctxClosing := y0.sch.ctxClosing ++ [c]
      createQ := y0.sch.createQ.filter (fun j => j.ctx != c)
      recreateQ := y0.sch.recreateQ.filter (fun d => d.ctx != c) } } : State) = z
  have zs : Sound z := by rw [← hz]; exact ⟨n3.fmem, n3.hmem, n3.regs, n3.tasks⟩
  have hd : disableCtx c y = closeCtx c (cancelCtx c z) := by
    unfold disableCtx
    rw [y2, if_neg (by rw [y1]; simpa using h3)]
    dsimp only
    rw [hn, hz]
  -- the tasks that are left
  have inv : Quiet z (cancelCtx c z) := by
    unfold cancelCtx
    exact forEach_all (P := fun w => Quiet z w) (fun a w h => h.trans (quiet_cancel a w)) _ z ⟨rfl, rfl, fun _ h => h⟩
  have fits : ∀ u ∈ (allTasks z).filter (fun t => t.ctx == c), Fits u := fun u hu => fits_filter hu (Within.refl (m := 0) z) zs
  have gone : ∀ q, ¬ LiveIn (cancelCtx c z) c q := by
    intro q hq
    have keep : ∀ a ∈ (allTasks z).filter (fun t => t.ctx == c), ∀ w, Sound w → Sound (cancelTask a w) := fun a ha w hw =>
      (within_cancelTask a (μ := allBits) (fun _ => fits a ha) (by decide +kernel) (Within.refl w)).sound hw
    by_cases hl : LiveIn z c q
    · obtain ⟨u, hu, hu1, hu2⟩ := hl
      have us := task_slot zs.tasks hu
      have um : u ∈ (allTasks z).filter (fun t => t.ctx == c) := by
        rw [List.mem_filter]
        exact ⟨List.mem_map.mpr ⟨(q, u), map_find_mem _ _ _ hu, rfl⟩, by simpa using hu1⟩
      have := forEach_mem' (P := Sound) (Q := fun w => Sound w ∧ ¬ LiveIn w c q) (f := cancelTask) u ((allTasks z).filter (fun t => t.ctx == c)) um
        (fun b hb w hw => keep b hb w hw)
        (fun w hw => ⟨keep u um w hw, fun hlive => by
          rw [liveIn_iff] at hlive
          have := (holdsAt_cancel u w hw.tasks us.2.1 q).2 hu2
          rw [us.1, hlive] at this
          simp at this⟩)
        (fun b hb w hw => ⟨keep b hb w hw.1, fun hlive => by
          by_cases hfb : q = b.slot
          · cases hfin : b.finishing with
            | none =>
              rw [liveIn_iff, hfb] at hlive
              rcases (holdsAt_cancel b w hw.1.tasks (fits b hb).1 q).2 hfin with e | e <;> rw [e] at hlive <;> simp at hlive
            | some f =>
              unfold cancelTask cancelBy at hlive
              simp only [hfin, Option.isSome_some, if_true] at hlive
              exact hw.2 hlive
          · apply hw.2
            rw [liveIn_iff, ← (holdsAt_cancel b w hw.1.tasks (fits b hb).1 q).1 hfb, ← liveIn_iff]
            exact hlive⟩)
        z zs
      exact this.2 hq
    · have := forEach_all' (P := fun w => Sound w ∧ ¬ LiveIn w c q) (f := cancelTask) ((allTasks z).filter (fun t => t.ctx == c))
        (fun b hb w hw => ⟨keep b hb w hw.1, fun hlive => by
          by_cases hfb : q = b.slot
          · cases hfin : b.finishing with
            | none =>
              rw [liveIn_iff, hfb] at hlive
              rcases (holdsAt_cancel b w hw.1.tasks (fits b hb).1 q).2 hfin with e | e <;> rw [e] at hlive <;> simp at hlive
            | some f =>
              unfold cancelTask cancelBy at hlive
              simp only [hfin, Option.isSome_some, if_true] at hlive
              exact hw.2 hlive
          · apply hw.2
            rw [liveIn_iff, ← (holdsAt_cancel b w hw.1.tasks (fits b hb).1 q).1 hfb, ← liveIn_iff]
            exact hlive⟩)
        z ⟨zs, hl⟩
      exact this.2 hq
  have qt := inv.trans (quiet_closeCtx c (cancelCtx c z))
  refine ⟨closeCtx c (cancelCtx c z), ?_, fun j hj => ?_, fun d hd => ?_, fun q u hu hc' => ?_, fun h0 => ?_⟩
  · show execCtxDisable fn c v s = _
    unfold execCtxDisable
    rw [if_neg (by omega), hx2, hy, hd]
  · rw [qt.create, ← hz] at hj
    have := (List.mem_filter.mp hj).2
    simpa using this
  · rw [qt.again, ← hz] at hd
    have := (List.mem_filter.mp hd).2
    simpa using this
  · rw [taskAt_congr (closeCtx_parts _ _).1] at hu
    cases hfin : u.finishing with
    | some w => rfl
    | none => exact absurd ⟨u, hu, hc', hfin⟩ (gone q)
  · have cl : Closing (cancelCtx c z) c := inv.closing c (.inl (by rw [← hz]; simp))
    have c0 : ctxSlots (cancelCtx c z) c = 0 := by
      rw [← h0]
      unfold ctxSlots
      rw [(closeCtx_parts _ _).1]
    generalize cancelCtx c z = w at cl c0 ⊢
    unfold closeCtx
    rcases cl with cl | cl
    · rw [c0, if_pos (by simpa using cl), on_put_same _ _ _ _ _ (by decide) (by decide)]; rfl
    · split
      · rw [on_put_same _ _ _ _ _ (by decide) (by decide)]; rfl
      · exact cl

/-! ## Core time -/

theorem quotaBit_bit (c bit : Nat) (live : Bool) (s : State) (hb : bit < 4) (hw : fld.ctxStatus.CTX_STATUS.w = 4) :
    hasBit (quotaBit c bit live s) fld.ctxStatus.CTX_STATUS bit c = live := by
  unfold quotaBit
  extract_lets old v s1
  have b1 : hasBit s1 fld.ctxStatus.CTX_STATUS bit c = live := by
    show hasBit (put fld.ctxStatus.CTX_STATUS (if live = true then Nat.lor v (2 ^ bit) else if old = true then v - 2 ^ bit else v) s c) fld.ctxStatus.CTX_STATUS bit c = live
    have hv : v < 16 := by have := get_lt s fld.ctxStatus.CTX_STATUS c 0; rw [hw] at this; exact this
    have ho : old = decide (v / 2 ^ bit % 2 = 1) := by
      show hasBit s fld.ctxStatus.CTX_STATUS bit c = _
      unfold hasBit
      show (v / 2 ^ bit % 2 == 1) = _
      rw [Bool.eq_iff_iff]; simp
    unfold hasBit
    rw [get_put_same _ _ _ _ _ (by decide), hw, ho]
    clear ho; clear_value v s1 ; clear old
    have hb' : bit = 0 ∨ bit = 1 ∨ bit = 2 ∨ bit = 3 := by omega
    revert hv
    rcases hb' with rfl | rfl | rfl | rfl <;> cases live <;> revert v <;> decide
  clear_value s1
  split
  · rw [← b1]
    refine (hasBit_rd (rd_raise _ _ _ _ _ _ (by decide) (by decide) (by decide)) _).trans (hasBit_rd ?_ _)
    exact rd_wr_reg (by decide) _ _ _ _ _ _
  · exact b1

theorem core_time {s : State} (c used : Nat) (f : FClock) (hc : c < 128) (h1 : fclock s (get s fld.ctxCtrl.FC c) = some f)
    (hu : used = Map.get (fun _ => 0) s.sch.ctCount c) :
      ∃ t, exec (.coreTimePeriodEnd c) s = .next t ∧
        t.ot = timeAt s (f.inst (periodFrame s c (get s fld.ctxCtrl.FC c) f)) ∧
        get t fld.ctxUseCt.USE_CT c = min (used / 1024) (2 ^ 24 - 1) ∧
        Map.get (fun _ => 0) t.sch.ctCount c = 0 ∧
        hasBit t fld.ctxStatus.CTX_STATUS 1 c =
          (get s fld.ctxQuotaCt.QUOTA_CT c != 0 && decide (get s fld.ctxQuotaCt.QUOTA_CT c * 1024 < used)) := by
  generalize ha : advance (f.inst (periodFrame s c (get s fld.ctxCtrl.FC c) f)) s = a
  have a1 : a.ot = timeAt s (f.inst (periodFrame s c (get s fld.ctxCtrl.FC c) f)) := by rw [← ha, advance_ot]
  have a2 : a.sch = s.sch := by rw [← ha, advance_frame]
  have a3 : ∀ g i j, get a g i j = get s g i j := fun g i j => by rw [← ha, get_advance]
  generalize hb : ({ a with sch := { a.sch with ctEnd := Map.put a.sch.ctEnd c (get s fld.ctxCtrl.FC c, periodFrame s c (get s fld.ctxCtrl.FC c) f) } } : State) = b
  have b2 : Map.get (fun _ => 0) b.sch.ctCount c = used := by rw [← hb, hu]; exact congrArg (fun x => Map.get (fun _ => 0) x.ctCount c) a2
  have b3 : ∀ g i j, get b g i j = get s g i j := fun g i j => by rw [← hb]; exact a3 g i j
  generalize hx : put fld.ctxUseCt.USE_CT (Nat.min (used / 1024) 0xFFFFFF) { b with sch := { b.sch with ctCount := Map.del b.sch.ctCount c } } c = x
  generalize hq : (get s fld.ctxQuotaCt.QUOTA_CT c != 0 && decide (get s fld.ctxQuotaCt.QUOTA_CT c * 1024 < used)) = q
  have w := within_quotaBit c 1 q (μ := footprint [.ringTail, .ringStatus, .hostStatus, .ctxStatus, .ctxEvent] [.cnt, .hmem, .hst]) (by decide +kernel) (Within.refl x)
  refine ⟨quotaBit c 1 q x, ?_, ?_, ?_, ?_, ?_⟩
  · show execCoreTimePeriodEnd c s = _
    unfold execCoreTimePeriodEnd
    dsimp only
    rw [if_neg (by omega), h1]
    dsimp only
    rw [ha, hb]
    unfold endPeriod
    dsimp only
    rw [b2, b3, hx, hq]
  · rw [← a1]
    refine Eq.trans (w.part .ot (by decide +kernel)) ?_
    rw [← hx, ← hb]
    rfl
  · rw [get_of_rd (f := fld.ctxUseCt.USE_CT) (w.reg .ctxUseCt (by decide +kernel) c 0), ← hx, get_put_same _ _ _ _ _ (by decide)]
    show min (used / 1024) 16777215 % 16777216 = min (used / 1024) 16777215
    omega
  · rw [quotaBit_sch, ← hx]
    show Map.get (fun _ => 0) (Map.del b.sch.ctCount c) c = 0
    rw [map_get_del_same]
  · exact quotaBit_bit _ _ _ _ (by decide) rfl

end Sys2Proof.Machine
end

