-- ==== Sys2Proof/Laws/VatReleases.lean ====
section
/-!
SUPPORT. Releases of a canvas's epochs.
-/

namespace Sys2Proof.Machine

set_option Elab.async false


/-! ## Releases -/

theorem releaseEpoch_reg (c k : Nat) (e : W32) (s : State) (r : RegId)
    (hr : r ∈ [RegId.canvasStatus, .rmEpoch, .txEpoch, .canvasCtrl, .canvasCommits, .canvasFilled]) (i j : Nat) :
    rd (releaseEpoch c k e s) r i j = rd s r i j := by
  have w := within_releaseEpoch c k e (μ := outside [.canvasStatus, .rmEpoch, .txEpoch, .canvasCtrl, .canvasCommits, .canvasFilled] []) (by decide +kernel) (Within.refl s)
  refine w.reg r ?_ i j
  simp only [List.mem_cons, List.not_mem_nil, or_false] at hr
  rcases hr with rfl | rfl | rfl | rfl | rfl | rfl <;> decide +kernel

theorem releaseEpoch_part (c k : Nat) (e : W32) (s : State) : (releaseEpoch c k e s).inForce = s.inForce ∧ (releaseEpoch c k e s).ot = s.ot ∧
    (releaseEpoch c k e s).tim = s.tim ∧ (releaseEpoch c k e s).glz = s.glz ∧ (releaseEpoch c k e s).prt = s.prt := by
  have w := within_releaseEpoch c k e (μ := outside [] [.inForce, .ot, .tim, .glz, .prt]) (by decide +kernel) (Within.refl s)
  exact ⟨w.part .inForce (by decide +kernel), w.part .ot (by decide +kernel), w.part .tim (by decide +kernel), w.part .glz (by decide +kernel), w.part .prt (by decide +kernel)⟩

theorem releaseEpoch_is (c k : Nat) (e : W32) (s : State) : wpEp (releaseEpoch c k e s) c = e ∧ get (releaseEpoch c k e s) fld.vatSlots.WP_SLOT c = k % 8 ∧
    on (releaseEpoch c k e s) fld.vatSlots.TXV c = on s fld.vatSlots.TXV c ∧
    (∃ l d, canvasOf (releaseEpoch c k e s) c = { canvasOf s c with
      epochs := (canvasOf s c).epochs ++ [⟨e, k, l, d, false, ((canvasOf s c).marks.filter (fun x => x.1 == e)).map (fun x => x.2), [], [], false, false, []⟩]
      snaps := (canvasOf (releaseEpoch c k e s) c).snaps
      marks := (canvasOf s c).marks.filter (fun x => x.1 != e) }) := by
  unfold releaseEpoch
  dsimp only
  generalize hx : setCanvas c { canvasOf s c with
    epochs := (canvasOf s c).epochs ++ [⟨e, k, instOf s (canvasFc s c) e, eff s fld.canvasCtrl.DEPTH c, false, ((canvasOf s c).marks.filter (fun x => x.1 == e)).map (fun x => x.2), [], [], false, false, []⟩]
    marks := (canvasOf s c).marks.filter (fun x => x.1 != e)
    snaps := (canvasOf s c).snaps ++ [⟨e, publishedEtab s, currentViews s⟩] } s = x
  generalize hy : put fld.vatSlots.WP_SLOT k (wr .wpEpoch e x c) c = y
  generalize hz : (if e = rmEp y c then put fld.vatSlots.RM_SLOT k y c else y) = z
  have xv : x.vat = (setCanvas c { canvasOf s c with
    epochs := (canvasOf s c).epochs ++ [⟨e, k, instOf s (canvasFc s c) e, eff s fld.canvasCtrl.DEPTH c, false, ((canvasOf s c).marks.filter (fun x => x.1 == e)).map (fun x => x.2), [], [], false, false, []⟩]
    marks := (canvasOf s c).marks.filter (fun x => x.1 != e)
    snaps := (canvasOf s c).snaps ++ [⟨e, publishedEtab s, currentViews s⟩] } s).vat := by rw [← hx]
  have zv : z.vat = x.vat := by rw [← hz, ← hy]; split <;> rfl
  generalize hq : (if on z fld.canvasStatus.RESTING c = true then z else releaseTmpls c e z) = q
  have wq : Within (outside [.wpEpoch, .vatSlots] [.vat]) z q := by
    rw [← hq]
    split
    · exact Within.refl z
    · exact within_releaseTmpls c e (by decide +kernel) (Within.refl z)
  generalize hu : wakeWaiting (fun t => t.canvas == some c && t.epoch == some e && !dFirm t.desc) q = u
  have w : Within (outside [.wpEpoch, .vatSlots] [.vat]) z u := by
    rw [← hu]
    exact within_wakeWaiting _ (by decide +kernel) wq
  have fw : ∀ i j, rd u .wpEpoch i j = rd z .wpEpoch i j := w.reg .wpEpoch (by decide +kernel)
  have fs : ∀ i j, rd u .vatSlots i j = rd z .vatSlots i j := w.reg .vatSlots (by decide +kernel)
  have fv : u.vat = z.vat := w.part .vat (by decide +kernel)
  refine ⟨?_, ?_, ?_, ?_⟩
  · unfold wpEp
    rw [fw, ← hz]
    have : rd y .wpEpoch c = e := by rw [← hy, rd_put_reg _ _ _ _ _ _ _ _ (by decide), rd_wr_same]
    split
    · rw [rd_put_reg _ _ _ _ _ _ _ _ (by decide)]; exact this
    · exact this
  · rw [get_of_rd (f := fld.vatSlots.WP_SLOT) (fs _ _), ← hz]
    have : get y fld.vatSlots.WP_SLOT c = k % 8 := by rw [← hy, get_put_same _ _ _ _ _ (by decide)]; rfl
    split
    · rw [get_put_fld _ _ _ _ _ _ (by rfl) (by decide) (by decide)]; exact this
    · exact this
  · rw [on_of_rd (f := fld.vatSlots.TXV) (fs _ _), ← hz]
    have : on y fld.vatSlots.TXV c = on s fld.vatSlots.TXV c := by
      rw [← hy, on_put_fld _ _ _ _ _ _ (by rfl) (by decide) (by decide), on_wr_reg _ _ _ _ _ _ _ _ (by decide), ← hx]; rfl
    split
    · rw [on_put_fld _ _ _ _ _ _ (by rfl) (by decide) (by decide)]; exact this
    · exact this
  · refine ⟨instOf s (canvasFc s c) e, eff s fld.canvasCtrl.DEPTH c, ?_⟩
    have ku : canvasOf u c = canvasOf x c := by
      unfold canvasOf
      rw [fv, zv]
    have kk : canvasOf x c = { canvasOf s c with
      epochs := (canvasOf s c).epochs ++ [⟨e, k, instOf s (canvasFc s c) e, eff s fld.canvasCtrl.DEPTH c, false, ((canvasOf s c).marks.filter (fun x => x.1 == e)).map (fun x => x.2), [], [], false, false, []⟩]
      marks := (canvasOf s c).marks.filter (fun x => x.1 != e)
      snaps := (canvasOf s c).snaps ++ [⟨e, publishedEtab s, currentViews s⟩] } := by
      rw [← hx]
      exact map_get_put_same _ _ _ _
    rw [ku, kk]

theorem map_get_find {α : Type} (d : Nat → α) (m : Map α) (k : Nat) : Map.get d m k = (Map.find? m k).getD (d k) := by
  induction m with
  | nil => rfl
  | cons e m ih =>
    obtain ⟨j, w⟩ := e
    unfold Map.get Map.find?
    split
    · rfl
    · exact ih

theorem epochRec_eq (s : State) (c : Nat) (e : W32) : epochRec s c e = (canvasOf s c).epochs.find? (fun r => r.epoch == e) := by
  unfold epochRec canvasOf
  rw [map_get_find]
  cases Map.find? s.vat.canvases c with
  | none => rfl
  | some v => rfl

/-- What the releases up to WP = RM + N − 2 keep, where each part of them keeps it. -/
theorem releaseUp_keeps (P : State → Prop) (c : Nat) (stall : ∀ u b, P u → P (put fld.canvasStatus.STALL b u c))
    (rel : ∀ u k, P u → P (releaseEpoch c k (wpEp u c + 1) u)) (begins : ∀ u, P u → P (beginStall c u)) :
    ∀ n u, P u → P (releaseUp c n u) := by
  intro n
  induction n with
  | zero => exact fun u h => h
  | succ n ih =>
    intro u h
    unfold releaseUp
    split
    · exact stall u 0 h
    · split
      · next k _ => exact ih _ (rel u k h)
      · split
        · exact h
        · exact begins u h

theorem beginStall_reg (c : Nat) (s : State) (f : Fld) (i j : Nat) (h1 : f.reg ≠ .ringTail) (h2 : f.reg ≠ .ringStatus) (h3 : f.reg ≠ .canvasEvent)
    (h4 : f.reg ≠ .canvasStatus) (h5 : f.reg ≠ .hostStatus) : get (beginStall c s) f i j = get s f i j := by
  unfold beginStall
  split
  · rfl
  · rw [get_raise _ _ _ _ _ _ h1 h2 h5]
    refine (get_of_rd (rd_bump _ _ _ _ _)).trans ?_
    rw [get_setBit_reg _ _ _ _ _ _ _ _ h3]
    exact get_put_reg _ _ _ _ _ _ _ _ h4

theorem beginStall_status (c : Nat) (s : State) (f : Fld) (hf : f.reg = .canvasStatus) (hb : f.lo + f.w ≤ 32)
    (h : f.lo + f.w ≤ fld.canvasStatus.STALL.lo ∨ fld.canvasStatus.STALL.lo + fld.canvasStatus.STALL.w ≤ f.lo) :
    get (beginStall c s) f c = get s f c := by
  unfold beginStall
  split
  · rfl
  · rw [get_raise _ _ _ _ _ _ (by rw [hf]; decide) (by rw [hf]; decide) (by rw [hf]; decide)]
    refine (get_of_rd (rd_bump _ _ _ _ _)).trans ?_
    rw [get_setBit_reg _ _ _ _ _ _ _ _ (by rw [hf]; decide)]
    exact get_put_fld _ _ _ _ _ _ hf hb h

theorem beginStall_part (c : Nat) (s : State) : (beginStall c s).vat = s.vat ∧ (beginStall c s).inForce = s.inForce ∧ (beginStall c s).ot = s.ot ∧
    (beginStall c s).tim = s.tim ∧ (beginStall c s).sch = s.sch := by
  unfold beginStall
  split
  · exact ⟨rfl, rfl, rfl, rfl, rfl⟩
  · rw [(eventOnly_raise 34 c _).frame]
    exact ⟨rfl, rfl, rfl, rfl, rfl⟩

/-- A field of CANVAS_STATUS but STALL, through the releases. -/
theorem releaseUp_status (c n : Nat) (s : State) (f : Fld) (hf : f.reg = .canvasStatus) (hb : f.lo + f.w ≤ 32)
    (h : f.lo + f.w ≤ fld.canvasStatus.STALL.lo ∨ fld.canvasStatus.STALL.lo + fld.canvasStatus.STALL.w ≤ f.lo) :
    get (releaseUp c n s) f c = get s f c := by
  refine releaseUp_keeps (fun u => get u f c = get s f c) c (fun u b hu => ?_) (fun u k hu => ?_) (fun u hu => ?_) n s rfl
  · rw [get_put_fld _ _ _ _ _ _ hf hb h]; exact hu
  · rw [get_of_rd (releaseEpoch_reg _ _ _ _ _ (by rw [hf]; decide) _ _)]; exact hu
  · rw [beginStall_status _ _ _ hf hb h]; exact hu

theorem releaseUp_txv (c n : Nat) (s : State) : txv (releaseUp c n s) c = txv s c := by
  refine releaseUp_keeps (fun u => txv u c = txv s c) c (fun u b hu => ?_) (fun u k hu => ?_) (fun u hu => ?_) n s rfl
  · rw [← hu]; exact on_put_reg _ _ _ _ _ _ _ _ (by decide)
  · rw [← hu]; exact (releaseEpoch_is c k _ u).2.2.1
  · rw [← hu]; unfold txv on; rw [beginStall_reg _ _ _ _ _ (by decide) (by decide) (by decide) (by decide) (by decide)]

/-- What the releases leave alone. -/
theorem releaseUp_reg (c n : Nat) (s : State) (r : RegId) (hr : r ∈ [RegId.rmEpoch, .txEpoch, .canvasCtrl, .canvasCommits, .canvasFilled]) (i j : Nat) :
    rd (releaseUp c n s) r i j = rd s r i j := by
  have w := within_releaseUp c n (μ := outside [.rmEpoch, .txEpoch, .canvasCtrl, .canvasCommits, .canvasFilled] []) (by decide +kernel) (Within.refl s)
  refine w.reg r ?_ i j
  simp only [List.mem_cons, List.not_mem_nil, or_false] at hr
  rcases hr with rfl | rfl | rfl | rfl | rfl <;> decide +kernel

/-- The record of an epoch stays through the releases. -/
theorem releaseUp_rec (c n : Nat) (s : State) (e : W32) (r : EpochRec) (h : epochRec s c e = some r) : epochRec (releaseUp c n s) c e = some r := by
  refine releaseUp_keeps (fun u => epochRec u c e = some r) c (fun u b hu => ?_) (fun u k hu => ?_) (fun u hu => ?_) n s h
  · rw [← hu]; rfl
  · rw [epochRec_eq] at hu ⊢
    obtain ⟨l, d, hc⟩ := (releaseEpoch_is c k (wpEp u c + 1) u).2.2.2
    rw [hc, List.find?_append, hu]; rfl
  · rw [← hu]
    unfold epochRec
    rw [(beginStall_part c u).1]

end Sys2Proof.Machine
end

