-- ==== Sys2Proof/Laws/VatCommit.lean ====
section
/-!
SUPPORT. The commit of a canvas.
-/

namespace Sys2Proof.Machine

set_option Elab.async false


/-! ## The commit -/

theorem map_put_cons {α : Type} (m : Map α) (j k : Nat) (x v : α) : Map.put ((j, x) :: m) k v =
    if k < j then (k, v) :: (j, x) :: m else if k = j then (k, v) :: m else (j, x) :: Map.put m k v := rfl

theorem map_put_put {α : Type} (m : Map α) (k : Nat) (v w : α) : Map.put (Map.put m k v) k w = Map.put m k w := by
  induction m with
  | nil => simp [Map.put]
  | cons e m ih =>
    obtain ⟨j, x⟩ := e
    rw [map_put_cons, map_put_cons]
    by_cases h1 : k < j
    · rw [if_pos h1, if_pos h1, map_put_cons, if_neg (by omega), if_pos rfl]
    · rw [if_neg h1, if_neg h1]
      by_cases h2 : k = j
      · rw [if_pos h2, if_pos h2, map_put_cons, if_neg (by omega), if_pos rfl]
      · rw [if_neg h2, if_neg h2, map_put_cons, if_neg h1, if_neg h2, ih]

theorem fixSlots_is (c : Nat) (s : State) : (∀ r, r ≠ .vatSlots → ∀ i j, rd (fixSlots c s) r i j = rd s r i j) ∧ txv (fixSlots c s) c = txv s c ∧
    (fixSlots c s).vat = s.vat ∧ (fixSlots c s).sch = s.sch ∧ (fixSlots c s).inForce = s.inForce ∧ (fixSlots c s).ot = s.ot ∧ (fixSlots c s).tim = s.tim := by
  unfold fixSlots
  dsimp only
  generalize hx : put fld.vatSlots.WP_SLOT (slotOf s c (wpEp s c)) (put fld.vatSlots.RM_SLOT (slotOf s c (rmEp s c)) s c) c = x
  have x1 : ∀ r, r ≠ .vatSlots → ∀ i j, rd x r i j = rd s r i j := fun r h i j => by
    rw [← hx, rd_put_reg _ _ _ _ _ _ _ _ h, rd_put_reg _ _ _ _ _ _ _ _ h]
  have x2 : txv x c = txv s c := by
    rw [← hx]
    unfold txv
    rw [on_put_fld _ _ _ _ _ _ (by rfl) (by decide) (by decide), on_put_fld _ _ _ _ _ _ (by rfl) (by decide) (by decide)]
  have x3 : x.vat = s.vat ∧ x.sch = s.sch ∧ x.inForce = s.inForce ∧ x.ot = s.ot ∧ x.tim = s.tim := by rw [← hx]; exact ⟨rfl, rfl, rfl, rfl, rfl⟩
  split
  · refine ⟨fun r h i j => by rw [rd_put_reg _ _ _ _ _ _ _ _ h, x1 r h], ?_, x3⟩
    rw [← x2]
    exact on_put_fld _ _ _ _ _ _ (by rfl) (by decide) (by decide)
  · exact ⟨x1, x2, x3⟩

theorem endCopies_is (c : Nat) (s : State) : (∃ v : Canvas, endCopies c s = setCanvas c v s ∧ v.epochs = ((canvasOf s c).epochs.map (fun r => { r with copying := [] })).filter
    (fun r => !txv s c || !r.committed || r.epoch == txEp s c)) := by
  unfold endCopies
  dsimp only
  have t : txv (setCanvas c { canvasOf s c with epochs := (canvasOf s c).epochs.map (fun r => { r with copying := [] }) } s) c = txv s c := rfl
  rw [t]
  cases h : txv s c
  · rw [if_neg (by decide)]
    refine ⟨_, rfl, ?_⟩
    simp
  · rw [if_pos rfl]
    unfold keepRecs
    dsimp only
    have e : txEp (setCanvas c { canvasOf s c with epochs := (canvasOf s c).epochs.map (fun r => { r with copying := [] }) } s) c = txEp s c := rfl
    rw [e]
    have k : canvasOf (setCanvas c { canvasOf s c with epochs := (canvasOf s c).epochs.map (fun r => { r with copying := [] }) } s) c =
        { canvasOf s c with epochs := (canvasOf s c).epochs.map (fun r => { r with copying := [] }) } := map_get_put_same _ _ _ _
    rw [k]
    refine ⟨{ canvasOf s c with epochs := ((canvasOf s c).epochs.map (fun r => { r with copying := [] })).filter (fun r => !r.committed || r.epoch == txEp s c) }, ?_, ?_⟩
    · unfold setCanvas
      dsimp only
      rw [map_put_put]
    · simp

theorem endCopies_rec {s : State} (c : Nat) (e : W32) (r : EpochRec) (h : epochRec s c e = some r) (ho : r.committed = false) :
    epochRec (endCopies c s) c e = some { r with copying := [] } := by
  obtain ⟨v, hv, he⟩ := endCopies_is c s
  rw [epochRec_eq] at h ⊢
  have k : canvasOf (endCopies c s) c = v := by rw [hv]; exact map_get_put_same _ _ _ _
  rw [k, he]
  generalize (canvasOf s c).epochs = xs at h
  generalize txv s c = b
  generalize txEp s c = t
  clear he k hv v
  induction xs with
  | nil => simp at h
  | cons x xs ih =>
    rw [List.find?_cons] at h
    by_cases hx : (x.epoch == e) = true
    · rw [hx] at h
      obtain rfl : x = r := by simpa using h
      rw [List.map_cons, List.filter_cons_of_pos (by simp [ho]), List.find?_cons_of_pos (by simpa using hx)]
    · have hx' : (x.epoch == e) = false := by simpa using hx
      rw [hx'] at h
      rw [List.map_cons, List.filter_cons]
      split
      · rw [List.find?_cons_of_neg (by simpa using hx)]
        exact ih h
      · exact ih h

/-- The state in which a canvas's commit begins: its copies ended and what could be released released. -/
theorem commit_begins {u : State} (c : Nat) (e : W32) (r : EpochRec) (h : epochRec u c e = some r) (ho : r.committed = false) :
    ∀ x, x = fixSlots c (releaseUp c 9 (endCopies c u)) → epochRec x c e = some { r with copying := [] } ∧ x.inForce = u.inForce ∧ x.ot = u.ot ∧ x.tim = u.tim ∧
      (∀ q ∈ [RegId.rmEpoch, .txEpoch, .canvasCtrl, .canvasCommits, .canvasFilled], ∀ i j, rd x q i j = rd u q i j) ∧ txv x c = txv u c ∧
      (∀ f : Fld, f.reg = .canvasStatus → f.lo + f.w ≤ 32 →
        f.lo + f.w ≤ fld.canvasStatus.STALL.lo ∨ fld.canvasStatus.STALL.lo + fld.canvasStatus.STALL.w ≤ f.lo → get x f c = get u f c) := by
  rintro x rfl
  obtain ⟨f1, f2, f3, _, f5, f6, f7⟩ := fixSlots_is c (releaseUp c 9 (endCopies c u))
  obtain ⟨v, hv, _⟩ := endCopies_is c u
  have w := within_releaseUp c 9 (μ := outside [] [.inForce, .ot, .tim]) (by decide +kernel) (Within.refl (endCopies c u))
  refine ⟨?_, ?_, ?_, ?_, fun q hq i j => ?_, ?_, fun f hf hb hh => ?_⟩
  · have := releaseUp_rec c 9 (endCopies c u) e _ (endCopies_rec c e r h ho)
    rw [← this]
    unfold epochRec
    rw [f3]
  · rw [f5, show (releaseUp c 9 (endCopies c u)).inForce = _ from w.part .inForce (by decide +kernel), hv]; rfl
  · rw [f6, show (releaseUp c 9 (endCopies c u)).ot = _ from w.part .ot (by decide +kernel), hv]; rfl
  · rw [f7, show (releaseUp c 9 (endCopies c u)).tim = _ from w.part .tim (by decide +kernel), hv]; rfl
  · rw [f1 q (by simp only [List.mem_cons, List.not_mem_nil, or_false] at hq; rcases hq with rfl | rfl | rfl | rfl | rfl <;> decide), releaseUp_reg c 9 _ q hq, hv]; rfl
  · rw [f2, releaseUp_txv, hv]; rfl
  · rw [get_of_rd (f1 f.reg (by rw [hf]; decide) _ _), releaseUp_status c 9 _ f hf hb hh, hv]; rfl


theorem quietStep_status (c : Nat) (r : EpochRec) (d : List Nat) (n : Nat) (p : Bool) (s : State) (f : Fld) (hf : f.reg = .canvasStatus) (hb : f.lo + f.w ≤ 32)
    (h : f.lo + f.w ≤ fld.canvasStatus.RESTING.lo ∨ fld.canvasStatus.RESTING.lo + fld.canvasStatus.RESTING.w ≤ f.lo) :
    get (quietStep c r d n p s) f c = get s f c := by
  unfold quietStep
  extract_lets v ok m y
  have yr : get y f c = get s f c := rfl
  split
  · rw [get_raise _ _ _ _ _ _ (by rw [hf]; decide) (by rw [hf]; decide) (by rw [hf]; decide), get_put_fld _ _ _ _ _ _ hf hb h]
    exact (get_of_rd (f := f) ((within_stopCreating c (μ := outside [.canvasStatus] []) (by decide +kernel) (Within.refl y)).reg f.reg
      (by rw [hf]; decide +kernel) _ _)).trans yr
  · exact yr

theorem settleEpoch_epoch (c : Nat) (k : CommitKind) (r : EpochRec) (prev : Option EpochRec) (unf : List Nat) (s : State) :
    (settleEpoch c k r prev unf s).1.epoch = r.epoch := by
  unfold settleEpoch
  dsimp only
  split <;> rfl

theorem afterCommit_is (c : Nat) (v : CommitEnv) (prev : Option W32) (r : EpochRec) (unf : List Nat) (filled : Nat) (s : State) :
    ∀ t, t = afterCommit c v prev r unf filled s → (∀ q ∈ [RegId.rmEpoch, .txEpoch, .vatSlots, .canvasCommits], ∀ i j, rd t q i j = rd s q i j) ∧ t.ot = s.ot ∧
      get t fld.canvasStatus.MISSRUN c = get s fld.canvasStatus.MISSRUN c ∧ get t fld.canvasFilled.FILLED c = filled % 2 ^ 17 := by
  rintro t rfl
  have w := within_afterCommit c v prev r unf filled (μ := outside [.rmEpoch, .txEpoch, .vatSlots, .canvasCommits] [.ot]) (by decide +kernel) (Within.refl s)
  refine ⟨fun q hq i j => ?_, w.part .ot (by decide +kernel), ?_⟩
  · refine w.reg q ?_ i j
    simp only [List.mem_cons, List.not_mem_nil, or_false] at hq
    rcases hq with rfl | rfl | rfl | rfl <;> decide +kernel
  · unfold afterCommit
    extract_lets dirty cv k sn a b d f g h y
    have tl : Within (outside [.canvasStatus, .canvasFilled] []) { g with twn := { h with cpos := h.cpos + 1 } } (pruneSnaps c (pruneLog y)) :=
      within_pruneSnaps c (by decide +kernel) (within_pruneLog (by decide +kernel) (within_journalCommit c r v.miss unf (by decide +kernel) (Within.refl _)))
    have mid : Within (outside [.canvasStatus, .canvasFilled] []) d (autoImports c (wpEp f c) f) :=
      within_autoImports c _ (by decide +kernel) (within_sendEpoch c r.slot r.epoch prev dirty k (by decide +kernel) (Within.refl d))
    have qf : Within (outside [.canvasFilled] []) (autoImports c (wpEp f c) f) g := within_quietStep c r dirty filled v.pending (by decide +kernel) (Within.refl _)
    have df : get d fld.canvasFilled.FILLED c = filled % 2 ^ 17 := by
      rw [get_wr_reg _ _ _ _ _ _ _ _ (by decide), get_put_same _ _ _ _ _ (by decide)]; rfl
    have dm : get d fld.canvasStatus.MISSRUN c = get s fld.canvasStatus.MISSRUN c := by
      rw [get_wr_reg _ _ _ _ _ _ _ _ (by decide), get_put_reg _ _ _ _ _ _ _ _ (by decide), get_put_reg _ _ _ _ _ _ _ _ (by decide)]; rfl
    constructor
    · refine Eq.trans ?_ dm
      refine (get_of_rd (f := fld.canvasStatus.MISSRUN) (tl.reg .canvasStatus (by decide +kernel) _ _)).trans ?_
      refine (quietStep_status c r dirty filled v.pending _ _ rfl (by decide) (by decide)).trans ?_
      exact get_of_rd (f := fld.canvasStatus.MISSRUN) (mid.reg .canvasStatus (by decide +kernel) _ _)
    · refine Eq.trans ?_ df
      refine (get_of_rd (f := fld.canvasFilled.FILLED) (tl.reg .canvasFilled (by decide +kernel) _ _)).trans ?_
      refine (get_of_rd (f := fld.canvasFilled.FILLED) (qf.reg .canvasFilled (by decide +kernel) _ _)).trans ?_
      exact get_of_rd (f := fld.canvasFilled.FILLED) (mid.reg .canvasFilled (by decide +kernel) _ _)

theorem movePointers_is (c : Nat) (r : EpochRec) (s : State) : rmEp (movePointers c r s) c = r.epoch + 1 ∧ txEp (movePointers c r s) c = r.epoch ∧
    txv (movePointers c r s) c = true ∧ rd (movePointers c r s) .canvasCommits c = rd s .canvasCommits c + 1 ∧
    (∀ q, q ∉ [RegId.rmEpoch, .txEpoch, .vatSlots, .canvasCommits] → ∀ i j, rd (movePointers c r s) q i j = rd s q i j) ∧
    (movePointers c r s).inForce = s.inForce ∧ (movePointers c r s).ot = s.ot ∧ (movePointers c r s).tim = s.tim := by
  unfold movePointers
  extract_lets v kp ks y z
  have yr : ∀ q i j, rd y q i j = rd s q i j := fun _ _ _ => rfl
  have hz : z = put fld.vatSlots.TXV 1 (wr .txEpoch r.epoch (wr .rmEpoch (r.epoch + 1) y c) c) c := rfl
  have zr : ∀ q, q ∉ [RegId.rmEpoch, .txEpoch, .vatSlots] → ∀ i j, rd z q i j = rd s q i j := by
    intro q hq i j
    simp only [List.mem_cons, List.not_mem_nil, or_false, not_or] at hq
    rw [hz, rd_put_reg _ _ _ _ _ _ _ _ hq.2.2, rd_wr_reg hq.2.1, rd_wr_reg hq.1, yr]
  refine ⟨?_, ?_, ?_, ?_, fun q hq i j => ?_, by rw [wr_inForce, hz, put_inForce, wr_inForce, wr_inForce]; rfl,
    by rw [wr_ot, hz, put_ot, wr_ot, wr_ot]; rfl, by rw [wr_tim, hz, put_tim, wr_tim, wr_tim]; rfl⟩
  · unfold rmEp
    rw [rd_wr_reg (by decide), hz, rd_put_reg _ _ _ _ _ _ _ _ (by decide), rd_wr_reg (by decide), rd_wr_same]
  · unfold txEp
    rw [rd_wr_reg (by decide), hz, rd_put_reg _ _ _ _ _ _ _ _ (by decide), rd_wr_same]
  · unfold txv
    rw [on_wr_reg _ _ _ _ _ _ _ _ (by decide), hz, on_put_same _ _ _ _ _ (by decide) (by decide)]; rfl
  · rw [rd_wr_same, zr _ (by decide)]
  · simp only [List.mem_cons, List.not_mem_nil, or_false, not_or] at hq
    rw [rd_wr_reg hq.2.2.2, zr _ (by simp [hq.1, hq.2.1, hq.2.2.1])]

/-- What follows the pointers, told from outside. -/
theorem commitHalf_is {x : State} (c : Nat) (v : CommitEnv) (e : W32) (r : EpochRec) (he : rmEp x c = e) (hr : epochRec x c e = some r) (hm : v.miss = false)
    (hf : canvasFc x c = v.oldFc) (hs : rateSwitch x v.oldFc e = false) :
    ∀ t, t = commitHalf c v [] x → rmEp t c = e + 1 ∧ txEp t c = e ∧ txv t c = true ∧ rd t .canvasCommits c = rd x .canvasCommits c + 1 ∧
      get t fld.canvasStatus.MISSRUN c = 0 ∧ t.ot = x.ot ∧ (on x fld.canvasStatus.RESTING c = false → get t fld.canvasFilled.FILLED c =
        (fillsOf .normal [] (unfinishedTiles x c e) r.fills).length % 2 ^ 17) := by
  rintro t rfl
  unfold commitHalf
  dsimp only
  rw [he, hr]
  dsimp only
  rw [hm]
  simp only [Bool.false_eq_true, if_false]
  generalize hk : (if on x fld.canvasStatus.RESTING c = true then CommitKind.rest else CommitKind.normal) = kind
  generalize hunf : (if kind = CommitKind.normal then List.filter (fun n => (unfinishedTiles x c e).contains n || List.contains [] n) (List.range (tileCount x c)) else []) = unf
  generalize hfil : (if kind = CommitKind.normal then (fillsOf kind [] unf r.fills).length else 0) = filled
  generalize hprevE : (if txv x c = true then some (txEp x c) else none) = prevE
  generalize hprev : (if txv x c = true then epochRec x c (txEp x c) else none) = prev
  generalize hy : freezeEpoch c e x = y
  generalize hz : settleEpoch c kind ((epochRec y c e).getD r) prev unf y = z
  have yp : y.vat = x.vat ∧ y.inForce = x.inForce ∧ y.ot = x.ot ∧ y.tim = x.tim := by
    have w := within_freezeEpoch c e (μ := outside [] [.vat, .inForce, .ot, .tim]) (by decide +kernel) (Within.refl x)
    rw [hy] at w
    exact ⟨w.part .vat (by decide +kernel), w.part .inForce (by decide +kernel), w.part .ot (by decide +kernel), w.part .tim (by decide +kernel)⟩
  have yr : ∀ q ∈ [RegId.canvasCtrl, .canvasCommits], ∀ i j, rd y q i j = rd x q i j := by
    have w := within_freezeEpoch c e (μ := outside [.canvasCtrl, .canvasCommits] []) (by decide +kernel) (Within.refl x)
    rw [hy] at w
    intro q hq i j
    simp only [List.mem_cons, List.not_mem_nil, or_false] at hq
    rcases hq with rfl | rfl
    · exact w.reg .canvasCtrl (by decide +kernel) i j
    · exact w.reg .canvasCommits (by decide +kernel) i j
  have yrec : epochRec y c e = some r := by rw [← hr]; unfold epochRec; rw [yp.1]
  rw [yrec, Option.getD_some] at hz
  have re : r.epoch = e := by
    rw [epochRec_eq] at hr
    simpa using List.find?_some hr
  have z1 := settleEpoch_epoch c kind r prev unf y
  rw [hz, re] at z1
  have zw := within_settleEpoch c kind r prev unf (μ := outside [.canvasCtrl, .canvasCommits] [.inForce, .ot, .tim]) (by decide +kernel) (Within.refl y)
  rw [hz] at zw
  generalize hw : reportUnfinished c unf z.2 = w
  have wp : w.inForce = x.inForce ∧ w.ot = x.ot ∧ w.tim = x.tim := by
    have h := within_reportUnfinished c unf (μ := outside [.canvasCtrl, .canvasCommits] [.inForce, .ot, .tim]) (by decide +kernel) zw
    rw [hw] at h
    have h1 : w.inForce = y.inForce := h.part .inForce (by decide +kernel)
    have h2 : w.ot = y.ot := h.part .ot (by decide +kernel)
    have h3 : w.tim = y.tim := h.part .tim (by decide +kernel)
    exact ⟨h1.trans yp.2.1, h2.trans yp.2.2.1, h3.trans yp.2.2.2⟩
  have wr' : ∀ q ∈ [RegId.canvasCtrl, .canvasCommits], ∀ i j, rd w q i j = rd x q i j := by
    have h := within_reportUnfinished c unf (μ := outside [.canvasCtrl, .canvasCommits] [.inForce, .ot, .tim]) (by decide +kernel) zw
    rw [hw] at h
    intro q hq i j
    refine Eq.trans ?_ (yr q hq i j)
    simp only [List.mem_cons, List.not_mem_nil, or_false] at hq
    rcases hq with rfl | rfl
    · exact h.reg .canvasCtrl (by decide +kernel) i j
    · exact h.reg .canvasCommits (by decide +kernel) i j
  generalize hmv : movePointers c z.1 w = m
  obtain ⟨m1, m2, m3, m4, m5, m6, m7, m8⟩ := movePointers_is c z.1 w
  rw [hmv] at m1 m2 m3 m4 m5 m6 m7 m8
  rw [z1] at m1 m2
  generalize hp : takeTmpls c (put fld.canvasStatus.MISSRUN 0 m c) = p
  have wt := within_takeTmpls c (μ := footprint [] [.sch]) (by decide +kernel) (Within.refl (put fld.canvasStatus.MISSRUN 0 m c))
  rw [hp] at wt
  have pr : ∀ q ∈ [RegId.rmEpoch, .txEpoch, .vatSlots, .canvasCommits, .canvasCtrl], ∀ i j, rd p q i j = rd m q i j := by
    intro q hq i j
    have : ∀ q : RegId, q ∈ [RegId.rmEpoch, .txEpoch, .vatSlots, .canvasCommits, .canvasCtrl] → (footprint [] [.sch]).testBit q.num = false ∧ q ≠ .canvasStatus := by decide +kernel
    rw [wt.reg q (this q hq).1, rd_put_reg _ _ _ _ _ _ _ _ (this q hq).2]
  have pm : rmEp p c = e + 1 ∧ txEp p c = e ∧ txv p c = true ∧ rd p .canvasCommits c = rd x .canvasCommits c + 1 ∧ get p fld.canvasStatus.MISSRUN c = 0 ∧
      (∀ i j, rd p .canvasCtrl i j = rd x .canvasCtrl i j) ∧ p.inForce = x.inForce ∧ p.ot = x.ot ∧ p.tim = x.tim := by
    have i1 : p.inForce = (put fld.canvasStatus.MISSRUN 0 m c).inForce := wt.part .inForce (by decide +kernel)
    have i2 : p.ot = (put fld.canvasStatus.MISSRUN 0 m c).ot := wt.part .ot (by decide +kernel)
    have i3 : p.tim = (put fld.canvasStatus.MISSRUN 0 m c).tim := wt.part .tim (by decide +kernel)
    rw [put_inForce] at i1
    rw [put_ot] at i2
    rw [put_tim] at i3
    refine ⟨(pr _ (by decide) _ _).trans m1, (pr _ (by decide) _ _).trans m2, (on_of_rd (f := fld.vatSlots.TXV) (pr _ (by decide) _ _)).trans m3, ?_, ?_,
      fun i j => ?_, (i1.trans m6).trans wp.1, (i2.trans m7).trans wp.2.1, (i3.trans m8).trans wp.2.2⟩
    · rw [pr _ (by decide), m4, wr' .canvasCommits (by decide)]
    · exact (get_of_rd (f := fld.canvasStatus.MISSRUN) (wt.reg .canvasStatus (by decide +kernel) _ _)).trans (get_put_same fld.canvasStatus.MISSRUN 0 m c 0 (by decide))
    · rw [pr _ (by decide), m5 _ (by decide), wr' .canvasCtrl (by decide)]
  obtain ⟨p1, p2, p3, p4, p5, p6, p7, p8, p9⟩ := pm
  have pf : canvasFc p c = v.oldFc := by
    rw [← hf]
    unfold canvasFc eff
    rw [p7, show get p fld.canvasCtrl.FC c = get x fld.canvasCtrl.FC c from get_of_rd (p6 _ _)]
  have ps : rateSwitch p v.oldFc e = false := by
    rw [← hs]
    unfold rateSwitch fclock
    rw [p8, p9]
  have hc : (canvasFc p c != v.oldFc || rateSwitch p v.oldFc e) = false := by rw [pf, ps]; simp
  rw [hc]
  simp only [Bool.false_eq_true, if_false]
  generalize (rmEp p c + BitVec.ofNat 32 (eff p fld.canvasCtrl.DEPTH c) - 2) = lim
  generalize hq1 : withdrawAbove c lim p = q1
  have w1 : Within (outside [.rmEpoch, .txEpoch, .vatSlots, .canvasCommits, .canvasStatus] [.ot]) p q1 := by
    rw [← hq1]; exact within_withdrawAbove c lim (by decide +kernel) (Within.refl p)
  generalize hq2 : fixSlots c (releaseUp c 9 q1) = q2
  obtain ⟨f1, f2, _, _, _, f6, _⟩ := fixSlots_is c (releaseUp c 9 q1)
  rw [hq2] at f1 f2 f6
  generalize hq3 : releaseCommitted c e (if on q2 fld.canvasEvtEn.EVT_EN_COMMIT c = true then raise 32 c q2 else q2) = q3
  have w3 : Within (outside [.rmEpoch, .txEpoch, .vatSlots, .canvasCommits, .canvasStatus] [.ot]) q2 q3 := by
    rw [← hq3]
    refine within_releaseCommitted c e (by decide +kernel) ?_
    split
    · exact within_raise 32 c (by decide +kernel) (Within.refl q2)
    · exact Within.refl q2
  obtain ⟨a1, a2, a3, a4⟩ := afterCommit_is c v prevE z.1 unf filled q3 _ rfl
  have ru := releaseUp_reg c 9 q1
  have chain : ∀ q ∈ [RegId.rmEpoch, .txEpoch, .canvasCommits], ∀ i j, rd (afterCommit c v prevE z.1 unf filled q3) q i j = rd p q i j := by
    intro q hq i j
    simp only [List.mem_cons, List.not_mem_nil, or_false] at hq
    rcases hq with rfl | rfl | rfl
    · rw [a1 _ (by decide), w3.reg .rmEpoch (by decide +kernel), f1 _ (by decide), ru _ (by decide), w1.reg .rmEpoch (by decide +kernel)]
    · rw [a1 _ (by decide), w3.reg .txEpoch (by decide +kernel), f1 _ (by decide), ru _ (by decide), w1.reg .txEpoch (by decide +kernel)]
    · rw [a1 _ (by decide), w3.reg .canvasCommits (by decide +kernel), f1 _ (by decide), ru _ (by decide), w1.reg .canvasCommits (by decide +kernel)]
  have ro : (releaseUp c 9 q1).ot = q1.ot := (within_releaseUp c 9 (μ := outside [] [.ot]) (by decide +kernel) (Within.refl q1)).part .ot (by decide +kernel)
  have o1 : q1.ot = p.ot := w1.part .ot (by decide +kernel)
  have o3 : q3.ot = q2.ot := w3.part .ot (by decide +kernel)
  refine ⟨?_, ?_, ?_, ?_, ?_, ?_, fun hr0 => ?_⟩
  · rw [← p1]; exact chain _ (by decide) _ _
  · rw [← p2]; exact chain _ (by decide) _ _
  · rw [← p3]
    show on _ fld.vatSlots.TXV c = _
    rw [on_of_rd (f := fld.vatSlots.TXV) (a1 _ (by decide) _ _), on_of_rd (f := fld.vatSlots.TXV) (w3.reg .vatSlots (by decide +kernel) _ _)]
    refine f2.trans ((releaseUp_txv c 9 q1).trans ?_)
    exact on_of_rd (f := fld.vatSlots.TXV) (w1.reg .vatSlots (by decide +kernel) _ _)
  · rw [← p4]; exact chain _ (by decide) _ _
  · refine Eq.trans ?_ p5
    rw [a3, get_of_rd (f := fld.canvasStatus.MISSRUN) (w3.reg .canvasStatus (by decide +kernel) _ _), get_of_rd (f := fld.canvasStatus.MISSRUN) (f1 .canvasStatus (by decide) _ _),
      releaseUp_status c 9 q1 _ rfl (by decide) (by decide), get_of_rd (f := fld.canvasStatus.MISSRUN) (w1.reg .canvasStatus (by decide +kernel) _ _)]
  · rw [a2, o3, f6, ro, o1, p8]
  · rw [a4, ← hfil]
    rw [hr0] at hk
    simp only [Bool.false_eq_true, if_false] at hk
    rw [← hk] at hunf ⊢
    simp only [if_true] at hunf ⊢
    have hu : unf = unfinishedTiles x c e := by
      rw [← hunf]
      unfold unfinishedTiles
      extract_lets at_ stopped again jobs all
      refine List.filter_congr (fun n hn => ?_)
      simp [hn]
    rw [hu]

theorem unfinishedTiles_congr {s t : State} (c : Nat) (e : W32) {r q : EpochRec} (he : epochRec s c e = some r) (hq : epochRec t c e = some q) (hu : q.undone = r.undone) (h : t.sch = s.sch)
    (hr : ∀ q ∈ [RegId.canvasWidth, .canvasHeight, .canvasTile], ∀ i j, rd t q i j = rd s q i j) : unfinishedTiles t c e = unfinishedTiles s c e := by
  have hw : get t fld.canvasWidth.WIDTH c = get s fld.canvasWidth.WIDTH c := get_of_rd (hr _ (by decide) _ _)
  have hh : get t fld.canvasHeight.HEIGHT c = get s fld.canvasHeight.HEIGHT c := get_of_rd (hr _ (by decide) _ _)
  have h1 : get t fld.canvasTile.TW c = get s fld.canvasTile.TW c := get_of_rd (hr _ (by decide) _ _)
  have h2 : get t fld.canvasTile.TH c = get s fld.canvasTile.TH c := get_of_rd (hr _ (by decide) _ _)
  unfold unfinishedTiles tileCount tileNo tileRows tileCols allTasks
  rw [hw, hh, h1, h2, h, he, hq]
  dsimp only
  rw [hu]

theorem commits {s : State} (c : Nat) (hc : c < 64) (e : W32) (r : EpochRec) (at_ : W64) (u : State) (hrun : canvasRuns s c = true) (hst : standby s = false)
    (hh : halves s c = [c]) (he : e = rmEp s c) (hr : epochRec s c e = some r) (ho : r.committed = false) (hp : pendingRegs s c = [])
    (ha : at_ = commitInst s c e) (hu : u = advance at_ s) (hs : rateSwitch u (canvasFc s c) e = false) :
      ∃ t, exec (.commit c) s = .next t ∧ t.ot = timeAt s at_ ∧ txv t c = true ∧
        txEp t c = e ∧ rmEp t c = e + 1 ∧ rd t .canvasCommits c = rd s .canvasCommits c + 1 ∧
        get t fld.canvasStatus.MISSRUN c = 0 ∧
        (epochDiff (e + BitVec.ofNat 32 (eff s fld.canvasCtrl.DEPTH c) - 2) (wpEp s c) ≤ 0 →
          on s fld.canvasStatus.RESTING c = false → get t fld.canvasFilled.FILLED c =
            (fillsOf .normal [] (unfinishedTiles s c e) r.fills).length % 2 ^ fld.canvasFilled.FILLED.w) := by
  have ur : ∀ q i j, rd u q i j = rd s q i j := fun q i j => by rw [hu]; exact rd_advance _ _ _ _ _
  have uo : u.ot = timeAt s at_ := by rw [hu]; exact advance_ot _ _
  have uv : u.vat = s.vat := by rw [hu, advance_frame]
  have us : u.sch = s.sch := by rw [hu, advance_frame]
  have ui : u.inForce = s.inForce := by rw [hu, advance_frame]
  have urec : epochRec u c e = some r := by rw [← hr]; unfold epochRec; rw [uv]
  generalize hx : fixSlots c (releaseUp c 9 (endCopies c u)) = x
  obtain ⟨x1, x2, x3, x4, x5, x6, x7⟩ := commit_begins c e r urec ho x hx.symm
  have xp : pendingRegs x c = [] := by
    rw [← hp]
    unfold pendingRegs
    rw [x2, ui]
  have xr : rmEp x c = e := by rw [he]; exact (x5 .rmEpoch (by decide) _ _).trans (ur _ _ _)
  have xfc : canvasFc x c = canvasFc s c := by
    unfold canvasFc eff
    rw [x2, ui, get_of_rd (f := fld.canvasCtrl.FC) ((x5 .canvasCtrl (by decide) _ _).trans (ur _ _ _))]
  have xsw : rateSwitch x (canvasFc s c) e = false := by
    rw [← hs]
    unfold rateSwitch fclock
    rw [x3, x4]
  generalize hv : (⟨false, canvasFc x c, periodAt x (canvasFc x c) (rmEp x c), latchOf x c (rmEp x c), false, false⟩ : CommitEnv) = v
  have env : commitEnv c true x = (v, x) := by
    have as : applyShadows c true (periodAt x (canvasFc x c) (rmEp x c)) x = x := by
      unfold applyShadows
      dsimp only
      rw [xp]
      rfl
    unfold commitEnv
    dsimp only
    rw [as, xp, ← hv]
    rfl
  generalize hy : commitHalf c v [] x = y
  obtain ⟨y1, y2, y3, y4, y5, y6, y7⟩ := commitHalf_is c v e _ xr x1 (by rw [← hv]) (by rw [← hv]) (by rw [← hv, xfc]; exact xsw) y hy.symm
  have now : ∃ b : Bool, commitNow [c] u = if b = true then enterHold (selActs y) else selActs y := by
    refine ⟨holdDue (selActs y), ?_⟩
    unfold commitNow
    have f0 : forEach [c] (fun c u => fixSlots c (releaseUp c 9 (endCopies c u))) u = x := hx
    have f1 : ([c].foldl (fun (x : List (Nat × CommitEnv) × State) c => let y := commitEnv c true x.2; (x.1 ++ [(c, y.1)], y.2)) ([], x)) = ([(c, v)], x) := by
      show ([] ++ [(c, (commitEnv c true x).1)], (commitEnv c true x).2) = _
      rw [env]; rfl
    dsimp only
    rw [f0, f1]
    have f2 : (decide (2 ≤ [c].length) && [c].any (fun c => !halfReady x c) && decide (get x fld.canvasStatus.MISSRUN ([c].headD 0) < eff x fld.canvasCtrl.MISS_MAX ([c].headD 0))) = false := rfl
    have f3 : ({ v with miss := false } : CommitEnv) = v := by rw [← hv]
    dsimp only
    rw [f2]
    have f4 : forEach [(c, v)] (fun (y : Nat × CommitEnv) u => commitHalf y.1 { y.2 with miss := false } [] u) x = y := by
      show commitHalf c { v with miss := false } [] x = y
      rw [f3, hy]
    simp only [Bool.false_eq_true, if_false]
    rw [f4]
  obtain ⟨b, now⟩ := now
  generalize ht : commitNow [c] u = t at now
  have w : Within (outside [.rmEpoch, .txEpoch, .vatSlots, .canvasCommits, .canvasStatus, .canvasFilled] [.ot]) y t := by
    rw [now]
    split
    · exact within_enterHold (by decide +kernel) (within_selActs (by decide +kernel) (Within.refl y))
    · exact within_selActs (by decide +kernel) (Within.refl y)
  have ex : exec (.commit c) s = .next t := by
    show execCommit c s = _
    unfold execCommit
    rw [hrun, if_neg (by simp; omega), hst, if_neg (by decide), hh, ← he, ← ha, ← hu, ht]
  have to' : t.ot = y.ot := w.part .ot (by decide +kernel)
  refine ⟨t, ex, by rw [to', y6, x3, uo], ?_, ?_, ?_, ?_, ?_, fun hd hz => ?_⟩
  · exact (on_of_rd (f := fld.vatSlots.TXV) (w.reg .vatSlots (by decide +kernel) _ _)).trans y3
  · exact (w.reg .txEpoch (by decide +kernel) _ _).trans y2
  · exact (w.reg .rmEpoch (by decide +kernel) _ _).trans y1
  · rw [w.reg .canvasCommits (by decide +kernel), y4, x5 _ (by decide), ur]
  · exact (get_of_rd (f := fld.canvasStatus.MISSRUN) (w.reg .canvasStatus (by decide +kernel) _ _)).trans y5
  · have xz : on x fld.canvasStatus.RESTING c = false := by
      rw [← hz]
      unfold on
      rw [x7 _ rfl (by decide) (by decide), get_of_rd (f := fld.canvasStatus.RESTING) (ur _ _ _)]
    refine (get_of_rd (f := fld.canvasFilled.FILLED) (w.reg .canvasFilled (by decide +kernel) _ _)).trans ((y7 xz).trans ?_)
    obtain ⟨cv, hcv, _⟩ := endCopies_is c u
    have rel : releaseUp c 9 (endCopies c u) = put fld.canvasStatus.STALL 0 (endCopies c u) c := by
      have q1 : rmEp (endCopies c u) c = e := by rw [hcv, he]; exact ur _ _ _
      have q2 : wpEp (endCopies c u) c = wpEp s c := by rw [hcv]; exact ur _ _ _
      have q3 : eff (endCopies c u) fld.canvasCtrl.DEPTH c = eff s fld.canvasCtrl.DEPTH c := by
        rw [hcv]
        unfold eff
        have g : get (setCanvas c cv u) fld.canvasCtrl.DEPTH c = get s fld.canvasCtrl.DEPTH c := get_of_rd (f := fld.canvasCtrl.DEPTH) (ur _ _ _)
        rw [g, ← ui]; rfl
      unfold releaseUp
      rw [q1, q2, q3, if_pos hd]
    obtain ⟨f1, _, _, f4, _⟩ := fixSlots_is c (releaseUp c 9 (endCopies c u))
    rw [hx] at f1 f4
    have un : unfinishedTiles x c e = unfinishedTiles s c e := by
      refine unfinishedTiles_congr c e hr x1 rfl ?_ (fun q hq i j => ?_)
      · rw [f4, rel, hcv, put_sch, ← us]; rfl
      · have ne : q ≠ .vatSlots ∧ q ≠ .canvasStatus := by
          simp only [List.mem_cons, List.not_mem_nil, or_false] at hq
          rcases hq with rfl | rfl | rfl <;> exact ⟨by decide, by decide⟩
        rw [f1 q ne.1, rel, rd_put_reg _ _ _ _ _ _ _ _ ne.2, hcv]
        exact ur _ _ _
    rw [un]
    rfl

end Sys2Proof.Machine
end

