-- ==== Sys2Proof/Laws/VatControl.lean ====
section
/-!
SUPPORT. Stalls, copies, VAT_CMD, enable and disable.
-/

namespace Sys2Proof.Machine

set_option Elab.async false


/-! ## Stalls and copies -/

theorem stall_releases {s : State} (c k : Nat) (hr : canvasRuns s c = true) (hs : on s fld.canvasStatus.STALL c = true) (hf : freeSlot s c = some k) :
      ∃ t, exec (.stallRelease c) s = .next t ∧ wpEp t c = wpEp s c + 1 ∧ get t fld.vatSlots.WP_SLOT c = k % 8 ∧
        on t fld.canvasStatus.STALL c =
          decide (0 < epochDiff (rmEp s c + BitVec.ofNat 32 (eff s fld.canvasCtrl.DEPTH c) - 2) (wpEp s c + 1)) := by
  generalize hx : releaseEpoch c k (wpEp s c + 1) s = x
  obtain ⟨r1, r2, _, _⟩ := releaseEpoch_is c k (wpEp s c + 1) s
  have rr := releaseEpoch_reg c k (wpEp s c + 1) s
  have rp := releaseEpoch_part c k (wpEp s c + 1) s
  rw [hx] at r1 r2 rr rp
  have xm : rmEp x c = rmEp s c := rr _ (by decide) _ _
  have xd : eff x fld.canvasCtrl.DEPTH c = eff s fld.canvasCtrl.DEPTH c := by
    unfold eff
    rw [rp.1, get_of_rd (f := fld.canvasCtrl.DEPTH) (rr _ (by decide) _ _)]
  generalize hd : epochDiff (rmEp s c + BitVec.ofNat 32 (eff s fld.canvasCtrl.DEPTH c) - 2) (wpEp s c + 1) = d
  have ex : exec (.stallRelease c) s = .next (if d ≤ 0 then put fld.canvasStatus.STALL 0 x c else x) := by
    show execStallRelease c s = _
    unfold execStallRelease
    rw [hr, hs, if_neg (by decide), hf]
    dsimp only
    rw [hx, xm, xd, r1, hd]
  refine ⟨_, ex, ?_, ?_, ?_⟩
  · rw [← r1]
    split
    · exact rd_put_reg _ _ _ _ _ _ _ _ (by decide)
    · rfl
  · rw [← r2]
    split
    · exact get_put_reg _ _ _ _ _ _ _ _ (by decide)
    · rfl
  · by_cases h : d ≤ 0
    · rw [if_pos h, on_put_same _ _ _ _ _ (by decide) (by decide)]
      rw [decide_eq_false (by omega)]; rfl
    · rw [if_neg h, on_of_rd (f := fld.canvasStatus.STALL) (rr _ (by decide) _ _), hs]
      rw [decide_eq_true (by omega)]

theorem copies_end {s : State} (c : Nat) (hr : canvasRuns s c = true) (hc : copying s c = true) : ∃ t, exec (.fillCopyComplete c) s = .next t ∧ copying t c = false := by
  refine ⟨fixSlots c (releaseUp c 9 (endCopies c s)), ?_, ?_⟩
  · show execFillCopyComplete c s = _
    unfold execFillCopyComplete
    rw [hr, hc, if_neg (by decide)]
  · obtain ⟨_, _, f3, _⟩ := fixSlots_is c (releaseUp c 9 (endCopies c s))
    have k : ∀ t u : State, t.vat = u.vat → copying t c = copying u c := fun t u h => by unfold copying canvasOf; rw [h]
    rw [k _ _ f3]
    refine releaseUp_keeps (fun u => copying u c = false) c (fun u b hu => hu) (fun u j hu => ?_) (fun u hu => ?_) 9 _ ?_
    · obtain ⟨l, d, h⟩ := (releaseEpoch_is c j (wpEp u c + 1) u).2.2.2
      unfold copying at hu ⊢
      rw [h, List.any_append, hu]; rfl
    · rw [k _ _ (beginStall_part c u).1]; exact hu
    · obtain ⟨v, hv, he⟩ := endCopies_is c s
      unfold copying
      have e : canvasOf (endCopies c s) c = v := by rw [hv]; exact map_get_put_same _ _ _ _
      rw [e, he, List.any_eq_false]
      intro r hr
      obtain ⟨r0, _, rfl⟩ := List.mem_map.mp (List.mem_filter.mp hr).1
      simp

/-! ## VAT_CMD -/

theorem vatCmd_is {s : State} {fn c : Nat} (hc : c < 64) (hw : Writable s fn .vatCmd c 0) (v : W32) : ∃ x, Noted s x ∧ vatCmd fn c v s = vatCmdWrite c v x := by
  unfold vatCmd
  rw [if_neg (by omega)]
  exact hostWrite_of hw v (vatCmdWrite c v)

theorem pins {s : State} {fn c : Nat} (hc : c < 64) (hw : Writable s fn .vatCmd c 0) (hr : canvasRuns s c = true) (ht : txv s c = true)
    (hd : eff s fld.canvasCtrl.DEPTH c ≠ 2) (hp : on s fld.vatSlots.PINNED c = false) :
        ∃ t, exec (.pin fn c) s = .next t ∧ on t fld.vatSlots.PINNED c = true ∧
          get t fld.vatSlots.PIN_SLOT c = slotOf s c (txEp s c) % 8 := by
  obtain ⟨x, hx, he⟩ := vatCmd_is hc hw 2
  have e : vatCmdWrite c 2 x = pinCanvas c x := by
    rfl
  have xv : x.vat = s.vat := by rw [hx.frame]
  have xi : x.inForce = s.inForce := by rw [hx.frame]
  have h1 : canvasRuns x c = true := (hx.on _ _ _ (by decide)).trans hr
  have h2 : txv x c = true := (hx.on _ _ _ (by decide)).trans ht
  have h3 : on x fld.vatSlots.PINNED c = false := (hx.on _ _ _ (by decide)).trans hp
  have h4 : eff x fld.canvasCtrl.DEPTH c ≠ 2 := by
    unfold eff at hd ⊢
    rw [xi, hx.get _ _ _ (by decide)]; exact hd
  have h5 : slotOf x c (txEp x c) = slotOf s c (txEp s c) := by
    unfold slotOf epochRec
    rw [xv, show txEp x c = txEp s c from hx.reg _ _ _ (by decide)]
  have f : pinCanvas c x = put fld.vatSlots.PINNED 1 (put fld.vatSlots.PIN_SLOT (slotOf s c (txEp s c)) x c) c := by
    unfold pinCanvas
    rw [h1, h2, h3, if_neg (by simpa using h4), h5]
  refine ⟨_, congrArg Host.Outcome.next (he.trans (e.trans f)), ?_, ?_⟩
  · rw [on_put_same _ _ _ _ _ (by decide) (by decide)]; rfl
  · rw [get_put_fld _ _ _ _ _ _ (by rfl) (by decide) (by decide), get_put_same _ _ _ _ _ (by decide)]; rfl

theorem unpins {s : State} {fn c : Nat} (hc : c < 64) (hw : Writable s fn .vatCmd c 0) : ∃ t, exec (.unpin fn c) s = .next t ∧ on t fld.vatSlots.PINNED c = false := by
  obtain ⟨x, hx, he⟩ := vatCmd_is hc hw 4
  have e : vatCmdWrite c 4 x = unpinCanvas c x := by
    rfl
  refine ⟨_, congrArg Host.Outcome.next (he.trans e), ?_⟩
  unfold unpinCanvas
  rw [on_put_same _ _ _ _ _ (by decide) (by decide)]; rfl

theorem wakes_rest {s : State} {fn c : Nat} (hc : c < 64) (hw : Writable s fn .vatCmd c 0) : ∃ t, exec (.wake fn c) s = .next t ∧ on t fld.canvasStatus.RESTING c = false := by
  obtain ⟨x, hx, he⟩ := vatCmd_is hc hw 8
  have e : vatCmdWrite c 8 x = endRest c x := by
    rfl
  refine ⟨_, congrArg Host.Outcome.next (he.trans e), ?_⟩
  unfold endRest
  split
  · extract_lets v y
    have w : ∀ es : List W32, ∀ u, rd (forEach es (fun e u => releaseTmpls c e u) u) .canvasStatus c = rd u .canvasStatus c := fun es u =>
      forEach_same (fun u => rd u .canvasStatus c) (fun e u => releaseTmpls c e u)
        (fun e u => (within_releaseTmpls c e (μ := outside [.canvasStatus] []) (by decide +kernel) (Within.refl u)).reg .canvasStatus (by decide +kernel) _ _) es u
    refine (on_of_rd (f := fld.canvasStatus.RESTING) (w _ y)).trans ?_
    rw [on_raise _ _ _ _ _ _ (by decide) (by decide) (by decide), on_of_rd (f := fld.canvasStatus.RESTING) (holdEnds_reg _ _ (by decide) _ _),
      on_put_same _ _ _ _ _ (by decide) (by decide)]; rfl
  · next h => simpa using h

theorem squashes {s : State} {fn c : Nat} (hc : c < 64) (hw : Writable s fn .vatCmd c 0) (u : Task) (hu : taskAt s u.slot = some u)
    (hh : (allTasks s).filter (fun t => match t.canvas, t.epoch with
          | some c', some e => c' == c && openEp s c e && undoable t && t.finishing.isNone
          | _, _ => false) = [u]) (hd : s.sch.doneTasks.filter (fun d => d.canvas == c && openEp s c d.epoch) = []) :
        ∃ t w, exec (.squash fn c) s = .next t ∧ taskAt t u.slot = some w ∧ w.id = u.id ∧ w.st = .ready ∧ w.steps = 0 ∧
          w.saved = false ∧ w.readSet = [] ∧ w.firm = dFirm u.desc := by
  obtain ⟨x, hx, he⟩ := vatCmd_is hc hw 1
  have e : vatCmdWrite c 1 x = squashCanvas c x := by
    rfl
  have xs : x.sch = s.sch := by rw [hx.frame]
  have xv : x.vat = s.vat := by rw [hx.frame]
  have xo : ∀ e, openEp x c e = openEp s c e := fun e => by unfold openEp epochRec; rw [xv]
  have f : squashCanvas c x = squash u x := by
    unfold squashCanvas
    extract_lets hit s1
    have h1 : (allTasks x).filter hit = [u] := by
      rw [← hh]
      unfold allTasks
      rw [xs]
      refine List.filter_congr (fun t _ => ?_)
      show (match t.canvas, t.epoch with | some c', some e => _ | _, _ => _) = _
      split <;> simp_all
    have h2 : x.sch.doneTasks.filter (fun d => d.canvas == c && openEp x c d.epoch) = [] := by
      rw [xs, ← hd]
      exact List.filter_congr (fun d _ => by rw [xo])
    have ht : taskAt x u.slot = some u := by unfold taskAt; rw [xs]; exact hu
    rw [h2]
    show s1 = _
    show forEach ((allTasks x).filter hit) _ x = _
    rw [h1]
    show (match taskAt x u.slot with | some t' => if t'.id = u.id then squash t' x else x | none => x) = _
    rw [ht]
    simp
  refine ⟨_, _, congrArg Host.Outcome.next (he.trans (e.trans f)), map_find_put_same _ _ _, ?_⟩
  exact ⟨rfl, rfl, rfl, rfl, rfl, rfl⟩



/-! ## Enable and disable -/

/-- Two states that differ in the journal alone. -/
structure Alike (u y : State) : Prop where
  reg : ∀ q i j, q ≠ .jseqTx → rd y q i j = rd u q i j
  frame : y = { u with regs := y.regs, cnt := y.cnt, twn := y.twn }

theorem Alike.get {u y : State} (h : Alike u y) (f : Fld) (i j : Nat) (hf : f.reg ≠ .jseqTx) : get y f i j = get u f i j := get_of_rd (h.reg _ _ _ hf)

theorem Alike.eff {u y : State} (h : Alike u y) (f : Fld) (i j : Nat) (hf : f.reg ≠ .jseqTx) : eff y f i j = eff u f i j := by
  unfold Machine.eff
  rw [h.get f i j hf, show y.inForce = u.inForce from by rw [h.frame]]

theorem Alike.on {u y : State} (h : Alike u y) (f : Fld) (i j : Nat) (hf : f.reg ≠ .jseqTx) : on y f i j = on u f i j := by
  unfold Machine.on; rw [h.get f i j hf]

theorem alike_wr {s x : State} (h : Noted s x) (r : RegId) (v : W32) (i j : Nat) (hr : r ≠ .jseqTx) : Alike (wr r v s i j) (wr r v x i j) := by
  refine ⟨fun q k l hq => ?_, ?_⟩
  · by_cases e : q = r
    · subst e
      by_cases e : q.key k l = q.key i j
      · unfold rd wr
        rw [e, map_get_set_same, map_get_set_same]
      · rw [rd_wr_key _ _ _ _ _ _ _ _ e, rd_wr_key _ _ _ _ _ _ _ _ e, h.reg _ _ _ hq]
    · rw [rd_wr_reg e, rd_wr_reg e, h.reg _ _ _ hq]
  · unfold wr
    rw [h.frame]

theorem Alike.spanOk {u y : State} (h : Alike u y) (c : Nat) : spanOk y c = spanOk u c := by
  unfold Machine.spanOk mateOf pairAgrees
  simp (disch := decide) only [h.get, h.on, h.eff, List.all_cons, List.all_nil]

theorem Alike.halves {u y : State} (h : Alike u y) (c : Nat) : halves y c = halves u c := by
  unfold Machine.halves
  rw [h.spanOk]
  unfold mateOf
  rw [h.get _ _ _ (by decide)]

theorem Alike.enableOk {u y : State} (h : Alike u y) (c : Nat) : enableOk y c = enableOk u c := by
  have h1 : y.tim = u.tim := by rw [h.frame]
  have h2 : y.hst = u.hst := by rw [h.frame]
  have h3 : y.member = u.member := by rw [h.frame]
  have h4 : y.ot = u.ot := by rw [h.frame]
  unfold Machine.enableOk
  rw [h.spanOk]
  unfold geometryOk baseOk timingOk gainOk planeOk ctxHolds canvasCtx canvasFc fcPeriod rateInForce fclock mode
  simp (disch := decide) only [h.get, h.on, h.eff, h.reg, h1, h2, h3, h4]

theorem Alike.firstMark {u y : State} (h : Alike u y) (c : Nat) : firstMark y c = firstMark u c := by
  have h1 : y.tim = u.tim := by rw [h.frame]
  have h4 : y.ot = u.ot := by rw [h.frame]
  unfold Machine.firstMark canvasFc fcPeriod rateInForce epochAtOrAfter fclock
  simp (disch := decide) only [h.get, h.on, h.eff, h.reg, h1, h4]

theorem Noted.alike {s x : State} (h : Noted s x) : Alike s x := ⟨h.reg, by rw [h.frame]⟩

theorem placeLog_rd (c : Nat) (e : W32) (t : State) (q : RegId) (i j : Nat) : rd (placeLog c e t) q i j = rd t q i j := rfl

theorem startCanvas_is (c : Nat) (e : W32) (s : State) : rmEp (startCanvas c e s) c = e ∧ txv (startCanvas c e s) c = false ∧ txEp (startCanvas c e s) c = 0xFFFFFFFF ∧
    canvasRuns (startCanvas c e s) c = true ∧ ∀ i j, rd (startCanvas c e s) .canvasCtrl i j = rd s .canvasCtrl i j := by
  refine ⟨?_, ?_, ?_, ?_, fun i j => (within_startCanvas c e (μ := outside [.canvasCtrl] []) (by decide +kernel) (Within.refl s)).reg .canvasCtrl (by decide +kernel) i j⟩ <;>
  · unfold startCanvas
    extract_lets z v a b d y
    have hb : b = put fld.vatSlots.TXV 0 (wr .txEpoch 0xFFFFFFFF (wr .wpEpoch (e - 1) (wr .rmEpoch e a c) c) c) c := rfl
    have hd : d = put fld.vatSlots.TX_SLOT 0 b c := rfl
    have hy : y = wr .canvasStatus (BitVec.ofNat 32 (1 + 8 * get d fld.canvasStatus.SHADOW c)) d c := rfl
    obtain ⟨f1, f2, _⟩ := fixSlots_is c (releaseUp c 9 (takeTmpls c y))
    have w := within_takeTmpls c (μ := footprint [] [.sch]) (by decide +kernel) (Within.refl y)
    have pl : ∀ q ∈ [RegId.rmEpoch, .txEpoch, .vatSlots, .canvasStatus], ∀ i j, rd (takeTmpls c y) q i j = rd y q i j := fun q hq i j => by
      refine w.reg q ?_ i j
      have : ∀ q ∈ [RegId.rmEpoch, .txEpoch, .vatSlots, .canvasStatus], (footprint [] [.sch]).testBit q.num = false := by decide +kernel
      exact this q hq
    first
    | (unfold rmEp
       rw [f1 _ (by decide), releaseUp_reg c 9 _ _ (by decide), pl _ (by decide), hy, rd_wr_reg (by decide), hd, rd_put_reg _ _ _ _ _ _ _ _ (by decide), hb,
         rd_put_reg _ _ _ _ _ _ _ _ (by decide), rd_wr_reg (by decide), rd_wr_reg (by decide), rd_wr_same])
    | (unfold txEp
       rw [f1 _ (by decide), releaseUp_reg c 9 _ _ (by decide), pl _ (by decide), hy, rd_wr_reg (by decide), hd, rd_put_reg _ _ _ _ _ _ _ _ (by decide), hb,
         rd_put_reg _ _ _ _ _ _ _ _ (by decide), rd_wr_same])
    | (rw [f2, releaseUp_txv]
       show on (takeTmpls c y) fld.vatSlots.TXV c = _
       rw [on_of_rd (f := fld.vatSlots.TXV) (pl _ (by decide) _ _), hy, on_wr_reg _ _ _ _ _ _ _ _ (by decide), hd, on_put_fld _ _ _ _ _ _ (by rfl) (by decide) (by decide), hb,
         on_put_same _ _ _ _ _ (by decide) (by decide)]
       rfl)
    | (unfold canvasRuns
       rw [on_of_rd (f := fld.canvasStatus.RUN) (f1 _ (by decide) _ _)]
       unfold on
       rw [releaseUp_status c 9 _ _ rfl (by decide) (by decide), get_of_rd (f := fld.canvasStatus.RUN) (pl _ (by decide) _ _), hy]
       generalize get d fld.canvasStatus.SHADOW c = m
       unfold get
       rw [show fld.canvasStatus.RUN.reg = .canvasStatus from rfl, rd_wr_same]
       show ((BitVec.ofNat 32 (1 + 8 * m)).toNat / 2 ^ 0 % 2 ^ 1 == 1) = true
       rw [BitVec.toNat_ofNat]
       have : (1 + 8 * m) % 2 ^ 32 / 2 ^ 0 % 2 ^ 1 = 1 := by omega
       rw [this]; rfl)

/-- EN after a write of CANVAS_CTRL. -/
theorem en_written {s x : State} (hx : Noted s x) (fn c : Nat) (v : W32) : on (plainWrite (isPf fn) .canvasCtrl c 0 v x) fld.canvasCtrl.EN c = (v.toNat % 2 == 1) := by
  have h := mergeWrite_bit x fn .canvasCtrl c 0 v 0 (by decide)
  have t : bitTaken x fn .canvasCtrl c 0 = true := by
    unfold bitTaken
    have e1 : RegId.canvasCtrl.desc.rw.testBit 0 = true := by decide
    have e2 : RegId.canvasCtrl.desc.locked.testBit 0 = false := by decide
    have e3 : RegId.canvasCtrl.desc.pfOnly.testBit 0 = false := by decide
    have e4 : (absentBits x .canvasCtrl c).testBit 0 = false := Nat.zero_testBit 0
    rw [e1, e2, e3, e4]; simp
  unfold bitWritten at h
  rw [t, if_pos rfl] at h
  unfold on get
  rw [show fld.canvasCtrl.EN.reg = .canvasCtrl from rfl, plainWrite_rd]
  show (bitsOf (mergeWrite x (isPf fn) .canvasCtrl c 0 v).toNat 0 1 == 1) = _
  unfold bitsOf
  rw [Nat.pow_zero, Nat.div_one, Nat.pow_one]
  have g : ∀ w : W32, w.getLsbD 0 = (w.toNat % 2 == 1) := fun w => by
    rw [BitVec.getLsbD, Nat.testBit_zero]
    rcases Nat.mod_two_eq_zero_or_one w.toNat with k | k <;> rw [k] <;> decide
  rw [← g, ← g, h]

theorem canvas_starts {s : State} {fn c : Nat} (hc : c < 64) (v : W32) (u : State) (hw : Writable s fn .canvasCtrl c 0) (hu : u = plainWrite (isPf fn) .canvasCtrl c 0 v s)
    (he : on s fld.canvasCtrl.EN c = false) (hv : v.toNat % 2 = 1) :
        (enableOk u c = true → halves u c = [c] → ∃ t, exec (.canvasEnable fn c v) s = .next t ∧ canvasRuns t c = true ∧
          on t fld.canvasCtrl.EN c = true ∧ rmEp t c = firstMark u c ∧ txv t c = false ∧ txEp t c = 0xFFFFFFFF) ∧
        (enableOk u c = false → ∃ t, exec (.canvasEnable fn c v) s = .next t ∧ on t fld.canvasCtrl.EN c = false ∧
          on t fld.canvasStatus.CFG_ERR c = true ∧ canvasRuns t c = canvasRuns s c) := by
  obtain ⟨x, hx, hex⟩ := hostWrite_of hw v (canvasCtrlWrite (isPf fn) c v)
  generalize hy : plainWrite (isPf fn) .canvasCtrl c 0 v x = y
  have al : Alike u y := by
    rw [hu, ← hy]
    unfold plainWrite
    rw [mergeWrite_noted hx fn _ (by decide)]
    exact alike_wr hx _ _ _ _ (by decide)
  have f : canvasCtrlWrite (isPf fn) c v x = enableCanvas c y := by
    unfold canvasCtrlWrite
    dsimp only
    rw [hx.on _ _ _ (by decide), he, hv, hy]
    rfl
  have go : exec (.canvasEnable fn c v) s = .next (enableCanvas c y) := by
    show execCanvasEnable fn c v s = _
    unfold execCanvasEnable
    rw [if_neg (by omega), hex, f]
  refine ⟨fun h1 h2 => ⟨_, go, ?_⟩, fun h1 => ⟨_, go, ?_⟩⟩
  · generalize hz : holdEnds (put fld.canvasStatus.CFG_ERR 0 y c) = z
    have zr : ∀ q, q ≠ .canvasStatus → q ≠ .pwrMode → ∀ i j, rd z q i j = rd y q i j := fun q n1 n2 i j => by
      rw [← hz, holdEnds_reg _ _ n2, rd_put_reg _ _ _ _ _ _ _ _ n1]
    have w := within_holdEnds (μ := outside [] [.inForce, .ot, .tim]) (by decide +kernel) (Within.refl (put fld.canvasStatus.CFG_ERR 0 y c))
    rw [hz] at w
    have zi : z.inForce = y.inForce := w.part .inForce (by decide +kernel)
    have zo : z.ot = y.ot := w.part .ot (by decide +kernel)
    have zt : z.tim = y.tim := w.part .tim (by decide +kernel)
    have zg : ∀ (f : Fld) i j, f.reg ≠ .canvasStatus ∧ f.reg ≠ .pwrMode → get z f i j = get y f i j := fun f i j h => get_of_rd (zr _ h.1 h.2 _ _)
    have ze : ∀ (f : Fld) i j, f.reg ≠ .canvasStatus ∧ f.reg ≠ .pwrMode → eff z f i j = eff y f i j := fun f i j h => by
      unfold eff; rw [zg f i j h, zi]
    have zon : ∀ (f : Fld) i j, f.reg ≠ .canvasStatus ∧ f.reg ≠ .pwrMode → on z f i j = on y f i j := fun f i j h => by
      unfold on; rw [zg f i j h]
    have zh : halves z c = [c] := by
      rw [← h2, ← al.halves]
      unfold halves spanOk mateOf pairAgrees
      simp (disch := decide) only [zg, ze, zon, List.all_cons, List.all_nil]
      rfl
    have zm : firstMark z c = firstMark u c := by
      rw [← al.firstMark]
      unfold firstMark canvasFc fcPeriod rateInForce epochAtOrAfter fclock
      simp (disch := decide) only [zg, ze, zt, zo]
    have zen : on z fld.canvasCtrl.EN c = true := by
      rw [zon _ _ _ (by decide), ← hy, en_written hx, hv]; rfl
    have g : enableCanvas c y = startCanvas c (firstMark u c) z := by
      unfold enableCanvas
      rw [al.enableOk, h1, if_neg (by decide)]
      dsimp only
      rw [hz, zh]
      show (if (on z fld.canvasCtrl.EN c && true) = true then startCanvases [c] z else z) = _
      rw [zen, if_pos (by decide)]
      show startCanvas c (firstMark z c) z = _
      rw [zm]
    rw [g]
    obtain ⟨a1, a2, a3, a4, a5⟩ := startCanvas_is c (firstMark u c) z
    exact ⟨a4, (on_of_rd (f := fld.canvasCtrl.EN) (a5 _ _)).trans zen, a1, a2, a3⟩
  · have g : enableCanvas c y = put fld.canvasStatus.CFG_ERR 1 (put fld.canvasCtrl.EN 0 y c) c := by
      unfold enableCanvas
      rw [al.enableOk, h1, if_pos (by decide)]
    rw [g]
    refine ⟨?_, ?_, ?_⟩
    · rw [on_put_reg _ _ _ _ _ _ _ _ (by decide), on_put_same _ _ _ _ _ (by decide) (by decide)]; rfl
    · rw [on_put_same _ _ _ _ _ (by decide) (by decide)]; rfl
    · unfold canvasRuns
      rw [on_put_fld _ _ _ _ _ _ (by rfl) (by decide) (by decide), on_put_reg _ _ _ _ _ _ _ _ (by decide), al.on _ _ _ (by decide), hu]
      exact on_wr_reg _ _ _ _ _ _ _ _ (by decide)

theorem stopCanvas_is (c : Nat) (s : State) (hr : canvasRuns s c = true) : canvasRuns (stopCanvas c s) c = false ∧ (canvasOf (stopCanvas c s) c).epochs = [] ∧
    (∀ g ∈ (stopCanvas c s).glz.work, g.canvas ≠ c) ∧ ∀ w ∈ (stopCanvas c s).glz.wins, w.canvas ≠ c := by
  unfold stopCanvas
  extract_lets a b v d e0 e1 e f st
  have ar : canvasRuns a c = true := by
    rw [← hr]
    unfold canvasRuns
    rw [on_put_reg _ _ _ _ _ _ _ _ (by decide)]
    exact forEach_same (fun u => on u fld.canvasStatus.RUN c) applyReg (fun _ _ => rfl) _ _
  rw [ar, if_neg (by decide)]
  have dq : ∀ (p : Nat) (u : State), (dequeue p (isOfCanvas c) u).vat = u.vat ∧ (dequeue p (isOfCanvas c) u).glz = u.glz := fun p u => by
    have w := within_dequeue p (isOfCanvas c) (μ := outside [] [.vat, .glz]) (by decide +kernel) (Within.refl u)
    exact ⟨w.part .vat (by decide +kernel), w.part .glz (by decide +kernel)⟩
  have fv : f.vat = e.vat := forEach_same (fun u => u.vat) (fun p u => if (portOf u p).queue.any (isOfCanvas c) then dequeue p (isOfCanvas c) u else u)
    (fun p u => by split; exact (dq p u).1; rfl) _ _
  have fg : f.glz = e.glz := forEach_same (fun u => u.glz) (fun p u => if (portOf u p).queue.any (isOfCanvas c) then dequeue p (isOfCanvas c) u else u)
    (fun p u => by split; exact (dq p u).2; rfl) _ _
  refine ⟨?_, ?_, fun g hg => ?_, fun w hw => ?_⟩
  · unfold canvasRuns on get
    rw [show fld.canvasStatus.RUN.reg = .canvasStatus from rfl, rd_wr_same]
    unfold bitsOf
    show ((BitVec.ofNat 32 (16 * st)).toNat / 2 ^ 0 % 2 ^ 1 == 1) = false
    rw [BitVec.toNat_ofNat]
    have : 16 * st % 2 ^ 32 / 2 ^ 0 % 2 ^ 1 = 0 := by omega
    rw [this]; rfl
  · unfold canvasOf
    rw [wr_vat, fv]
    have : Map.get (fun _ => canvasIdle) e.vat.canvases c = { v with epochs := [], quiet := 0, marks := [] } := map_get_put_same _ _ _ _
    rw [this]
  · rw [wr_glz, fg] at hg
    have := (List.mem_filter.mp hg).2
    simpa using this
  · rw [wr_glz, fg] at hw
    have := (List.mem_filter.mp hw).2
    simpa using this

theorem canvas_stops {s : State} {fn c : Nat} (hc : c < 64) (v : W32) (hw : Writable s fn .canvasCtrl c 0)
    (he : on s fld.canvasCtrl.EN c = true) (hv : v.toNat % 2 = 0) (hh : halves s c = [c]) (hr : canvasRuns s c = true) :
        ∃ t, exec (.canvasDisable fn c v) s = .next t ∧ on t fld.canvasCtrl.EN c = false ∧ canvasRuns t c = false ∧
          (canvasOf t c).epochs = [] ∧ (∀ g ∈ t.glz.work, g.canvas ≠ c) ∧ ∀ w ∈ t.glz.wins, w.canvas ≠ c := by
  obtain ⟨x, hx, hex⟩ := hostWrite_of hw v (canvasCtrlWrite (isPf fn) c v)
  obtain ⟨q1, q2, q3, q4⟩ := stopCanvas_is c x ((hx.on _ _ _ (by decide)).trans hr)
  generalize hz : stopCanvas c x = z at q1 q2 q3 q4
  have f : canvasCtrlWrite (isPf fn) c v x = wr .canvasCtrl (mixBits 0xFFFFFFFE (mergeWrite x (isPf fn) .canvasCtrl c 0 v) 0) (holdEnds z) c := by
    unfold canvasCtrlWrite
    dsimp only
    rw [hx.on _ _ _ (by decide), he, hv, if_pos (by decide)]
    unfold disableCanvas
    dsimp only
    rw [hx.alike.halves, hh]
    have : [c].filter (fun h => on x fld.canvasCtrl.EN h) = [c] := by
      simp [hx.on _ _ _ (show fld.canvasCtrl.EN.reg ≠ .jseqTx by decide), he]
    rw [this]
    show wr .canvasCtrl _ (holdEnds (stopCanvas c x)) c = _
    rw [hz]
  have w := within_holdEnds (μ := outside [.canvasStatus] [.vat, .glz]) (by decide +kernel) (Within.refl z)
  have hv' : (holdEnds z).vat = z.vat := w.part .vat (by decide +kernel)
  have hg' : (holdEnds z).glz = z.glz := w.part .glz (by decide +kernel)
  have go : exec (.canvasDisable fn c v) s = .next (canvasCtrlWrite (isPf fn) c v x) := by
    show execCanvasDisable fn c v s = _
    unfold execCanvasDisable
    rw [if_neg (by omega), hex]
  refine ⟨_, go, ?_⟩
  rw [f]
  refine ⟨?_, ?_, ?_, ?_, ?_⟩
  · unfold on get
    rw [show fld.canvasCtrl.EN.reg = .canvasCtrl from rfl, rd_wr_same]
    unfold mixBits bitsOf
    generalize (mergeWrite x (isPf fn) .canvasCtrl c 0 v).toNat = n
    have e : (BitVec.ofNat 32 (Nat.lor (Nat.land n 0xFFFFFFFE) (Nat.land (0 : W32).toNat (0xFFFFFFFF - Nat.land 0xFFFFFFFE 0xFFFFFFFF)))).toNat / 2 ^ 0 % 2 ^ 1 = 0 := by
      rw [show Nat.land (0 : W32).toNat (0xFFFFFFFF - Nat.land 0xFFFFFFFE 0xFFFFFFFF) = 0 from by decide]
      show (BitVec.ofNat 32 ((n &&& 0xFFFFFFFE) ||| 0)).toNat / 2 ^ 0 % 2 ^ 1 = 0
      rw [Nat.or_zero, BitVec.toNat_ofNat]
      have b : (n &&& 0xFFFFFFFE).testBit 0 = false := by rw [Nat.testBit_and]; simp [Nat.testBit]
      rw [Nat.testBit_zero] at b
      have := of_decide_eq_false b
      omega
    rw [show fld.canvasCtrl.EN.lo = 0 from rfl, show fld.canvasCtrl.EN.w = 1 from rfl, e]; rfl
  · rw [← q1]
    unfold canvasRuns
    rw [on_wr_reg _ _ _ _ _ _ _ _ (by decide)]
    exact on_of_rd (f := fld.canvasStatus.RUN) (w.reg .canvasStatus (by decide +kernel) _ _)
  · rw [← q2]
    show (canvasOf (holdEnds z) c).epochs = _
    unfold canvasOf
    rw [hv']
  · intro g hg
    have : g ∈ (holdEnds z).glz.work := hg
    rw [hg'] at this
    exact q3 g this
  · intro g hg
    have : g ∈ (holdEnds z).glz.wins := hg
    rw [hg'] at this
    exact q4 g this

end Sys2Proof.Machine
end

