-- ==== Sys2Proof/Laws/Glazing.lean ====
section
/-!
SUPPORT. Frame instants, segments, windows and the Mordant window.
-/

namespace Sys2Proof.Machine

set_option Elab.async false


/-! ## Frame instants -/

theorem frame_instants {s : State} (n : Nat) (f : FClock) (hf : fclock s n = some f) :
      ∃ t, exec (.frameInstant n) s = .next t ∧ fclock t n = some { f with seen := f.seen + 1 } ∧
      t.ot = timeAt s (f.inst (f.seen + 1)) ∧
      (get s fld.calCtrl.FC = n → on s fld.calStatus.PENDING = true → t.calOld = [] ∧ on t fld.calStatus.PENDING = false) := by
  generalize hx : advance (f.inst (f.seen + 1)) s = x
  have xr : ∀ q i j, rd x q i j = rd s q i j := fun q i j => by rw [← hx]; exact rd_advance _ _ _ _ _
  have xo : x.ot = timeAt s (f.inst (f.seen + 1)) := by rw [← hx]; exact advance_ot _ _
  generalize hy : enterStretch n (f.seen + 1) (setFc n { f with seen := f.seen + 1 } x) = y
  have wy := within_enterStretch n (f.seen + 1) (μ := outside [.calCtrl, .calStatus] [.ot, .tim]) (by decide +kernel) (Within.refl (setFc n { f with seen := f.seen + 1 } x))
  rw [hy] at wy
  have yt : y.tim = (setFc n { f with seen := f.seen + 1 } x).tim := wy.part .tim (by decide +kernel)
  have yo : y.ot = x.ot := wy.part .ot (by decide +kernel)
  have yc : ∀ q ∈ [RegId.calCtrl, .calStatus], ∀ i j, rd y q i j = rd s q i j := by
    intro q hq i j
    simp only [List.mem_cons, List.not_mem_nil, or_false] at hq
    rcases hq with rfl | rfl
    · exact (wy.reg .calCtrl (by decide +kernel) _ _).trans (xr _ _ _)
    · exact (wy.reg .calStatus (by decide +kernel) _ _).trans (xr _ _ _)
  have c1 : get y fld.calCtrl.FC = get s fld.calCtrl.FC := get_of_rd (yc _ (by decide) _ _)
  have c2 : on y fld.calStatus.PENDING = on s fld.calStatus.PENDING := on_of_rd (f := fld.calStatus.PENDING) (yc _ (by decide) _ _)
  generalize hz : (if (get y fld.calCtrl.FC == n && on y fld.calStatus.PENDING) = true then ppsChange 0 (ppsChange 1 calRelease) y else y) = z
  have wz : Within (outside [] [.ot]) y z := by
    rw [← hz]
    split
    · exact within_ppsChange 0 _ (fun u hu => within_ppsChange 1 _ (fun v hv => within_calRelease (by decide +kernel) hv) (by decide +kernel) hu) (by decide +kernel) (Within.refl y)
    · exact Within.refl y
  have zf : fclock z n = fclock y n := by
    have pc : ∀ (i : Nat) (f : State → State) (u : State), fclock (ppsChange i f u) n = fclock (f u) n := fun i f u => by
      unfold ppsChange
      extract_lets a old held
      split <;> rfl
    rw [← hz]
    split
    · rw [pc, pc]
      unfold fclock
      rw [show (calRelease y).tim = y.tim from (within_calRelease (μ := outside [] [.tim]) (by decide +kernel) (Within.refl y)).part .tim (by decide +kernel)]
    · rfl
  have wf : ∀ (cs : List Nat) u, Within (outside [.calStatus] [.ot, .tim, .calOld]) u (forEach cs keepUniverses u) := fun cs u =>
    Within.forEach (Within.refl u) (fun c v hv => within_keepUniverses c (by decide +kernel) hv)
  have wk := within_releaseKind 4 n none (μ := outside [.calStatus] [.ot, .tim, .calOld]) (by decide +kernel) (Within.refl z)
  generalize hw : releaseKind 4 n none z = w at wk
  have wt := wf ((List.range 64).filter (fun c => canvasFc w c == n)) w
  generalize ht : forEach ((List.range 64).filter (fun c => canvasFc w c == n)) keepUniverses w = t at wt
  have ex : exec (.frameInstant n) s = .next t := by
    show execFrameInstant n s = _
    unfold execFrameInstant
    rw [hf]
    dsimp only
    rw [hx, hy, hz, hw, ht]
  have t1 : t.tim = w.tim := wt.part .tim (by decide +kernel)
  have t2 : w.tim = z.tim := wk.part .tim (by decide +kernel)
  have o1 : t.ot = w.ot := wt.part .ot (by decide +kernel)
  have o2 : w.ot = z.ot := wk.part .ot (by decide +kernel)
  have o3 : z.ot = y.ot := wz.part .ot (by decide +kernel)
  refine ⟨t, ex, ?_, by rw [o1, o2, o3, yo, xo], fun h1 h2 => ?_⟩
  · have e : fclock t n = fclock y n := by rw [← zf]; unfold fclock; rw [t1, t2]
    rw [e]
    unfold fclock
    rw [yt]
    exact map_find_put_same _ _ _
  · have k1 : t.calOld = w.calOld := wt.part .calOld (by decide +kernel)
    have k2 : w.calOld = z.calOld := wk.part .calOld (by decide +kernel)
    have kz : z.calOld = [] ∧ on z fld.calStatus.PENDING = false := by
      rw [← hz, c1, c2, h1, h2, if_pos (by simp)]
      obtain ⟨r0, o0⟩ := ppsChange_frame 0 (ppsChange 1 calRelease) y
      obtain ⟨r1, o1⟩ := ppsChange_frame 1 calRelease y
      rw [o0, o1, on_of_rd (f := fld.calStatus.PENDING) (rd_congr (r0.trans r1) _ _ _)]
      unfold calRelease
      extract_lets held a due b
      have ce : ∀ (r : RegId) (is : List Nat) u, (forEach is (calEffect r) u).calOld = u.calOld ∧ rd (forEach is (calEffect r) u) .calStatus 0 0 = rd u .calStatus 0 0 := by
        intro r is u
        exact ⟨forEach_same (fun u => u.calOld) (calEffect r) (fun i u => (calEffect_rd r i u .calStatus (by decide) (by decide) (by decide) (by decide) 0 0).2) is u,
          forEach_same (fun u => rd u .calStatus 0 0) (calEffect r) (fun i u => (calEffect_rd r i u .calStatus (by decide) (by decide) (by decide) (by decide) 0 0).1) is u⟩
      obtain ⟨e1, e2⟩ := ce .userImp ((List.range 34).filter (due .userImp)) b
      obtain ⟨e3, e4⟩ := ce .userTempOfs ((List.range 16).filter (due .userTempOfs)) a
      refine ⟨e1.trans (e3.trans rfl), ?_⟩
      have g : rd (forEach ((List.range 34).filter (due .userImp)) (calEffect .userImp) b) .calStatus 0 0 = rd a .calStatus 0 0 := by rw [e2, e4]
      rw [on_of_rd (f := fld.calStatus.PENDING) g, on_put_same _ _ _ _ _ (by decide) (by decide)]; rfl
    refine ⟨by rw [k1, k2, kz.1], ?_⟩
    rw [on_of_rd (f := fld.calStatus.PENDING) (wt.reg .calStatus (by decide +kernel) _ _), on_of_rd (f := fld.calStatus.PENDING) (wk.reg .calStatus (by decide +kernel) _ _), kz.2]

/-! ## The Glaze stage -/

theorem setWin_work (w : Win) (s : State) : (setWin w s).glz.work = s.glz.work := rfl

theorem settleTiles_is (c : Nat) (e : W32) (s : State) : (settleTiles c e s).glz.work = s.glz.work ∧ (settleTiles c e s).regs = s.regs ∧ (settleTiles c e s).cnt = s.cnt ∧
    (settleTiles c e s).prt = s.prt ∧ (settleTiles c e s).epg = s.epg := by
  unfold settleTiles
  split
  · exact ⟨rfl, rfl, rfl, rfl, rfl⟩
  · exact ⟨rfl, rfl, rfl, rfl, rfl⟩

theorem noteGlazed_work (c : Nat) (e : W32) (items : List (Nat × (Nat × Nat))) (s : State) : (noteGlazed c e items s).glz.work = s.glz.work := by
  unfold noteGlazed
  extract_lets fresh a first b d
  have hb : b.glz.work = s.glz.work := by
    show (match winOf a c e with | some w => setWin { w with lateLines := w.lateLines ++ fresh } a | none => a).glz.work = _
    split <;> rfl
  split
  · rfl
  · split
    · rw [raise_glz]; exact hb
    · exact hb

theorem enqueue_glz (p : Nat) (f : QFrame) (s : State) : (enqueue p f s).glz = s.glz :=
  (within_enqueue p f (μ := outside [] [.glz]) (by decide +kernel) (Within.refl s)).part .glz (by decide +kernel)

theorem sendUniv_work (u c slot : Nat) (ep : W32) (opts : Byte) (s : State) : (sendUniv u c slot ep opts s).glz.work = s.glz.work := by
  unfold sendUniv
  dsimp only
  rw [enqueue_glz]
  dsimp only
  rw [noteGlazed_work, put_glz, wakeMem_glz]

theorem showDmx_work (p c slot : Nat) (e : W32) (s : State) : (showDmx p c slot e s).glz.work = s.glz.work := by
  unfold showDmx
  dsimp only
  rw [show ∀ (v : Canvas) (x : State), (setCanvas c v x).glz = x.glz from fun _ _ => rfl, noteGlazed_work, wakeMem_glz]

/-- Whatever a segment feeds, the rest of the work queue stays. -/
theorem glazeSeg_work (g : Seg) (w : Win) (s : State) : (glazeSeg g w s).glz.work = s.glz.work := by
  unfold glazeSeg
  extract_lets sn items late codes
  split
  · exact sendUniv_work _ _ _ _ _ s
  · exact showDmx_work _ _ _ _ s
  · have e := (within_sendPix sn.etab g codes (μ := outside [] [.glz]) (by decide +kernel) (Within.refl (noteGlazed g.canvas g.epoch items (wakeMem s)))).part .glz (by decide +kernel)
    rw [e, noteGlazed_work, wakeMem_glz]

theorem segments {s : State} (pipe : Nat) (err : Bool) (g : Seg) (w : Win) (hp : pipe < 8) (hf : pipeFree s pipe = true) (hb : blockTested s 22 = false)
    (hg : nextSeg s = some g) (hw : winOf s g.canvas g.epoch = some w) :
      ∃ t, exec (.glazeSegment pipe err) s = .next t ∧ t.glz.work = s.glz.work.filter (fun x => x != g) ∧
        ((err || (segItems (snapAt s g.canvas g.epoch).etab g).any (fun q => pixelBad s g.canvas w.slot q.2)) = true →
          hasBit t fld.glzEvent.GLZ_EVENT 2 g.canvas = true ∧
          counter t Cnt.glazeData.ctorIdx = counter s Cnt.glazeData.ctorIdx + 1 ∧ t.prt = s.prt ∧ t.epg = s.epg) := by
  generalize hits : segItems (snapAt s g.canvas g.epoch).etab g = items
  generalize hbad : (err || items.any (fun q => pixelBad s g.canvas w.slot q.2)) = bad
  generalize hx : holdPipe pipe items.length (takeSeg g s) = x
  have ex : exec (.glazeSegment pipe err) s = .next (settleTiles g.canvas g.epoch (if bad = true then abandonData g w x else glazeSeg g w x)) := by
    show execGlazeSegment pipe err s = _
    unfold execGlazeSegment
    rw [hf, hb, if_neg (by simp; omega), hg]
    dsimp only
    rw [hw]
    dsimp only
    rw [hits, hbad, hx]
  have xw : x.glz.work = s.glz.work.filter (fun y => y != g) := by rw [← hx]; rfl
  have xc : x.cnt = s.cnt := by rw [← hx]; rfl
  have xp : x.prt = s.prt := by rw [← hx]; rfl
  have xe : x.epg = s.epg := by rw [← hx]; rfl
  refine ⟨_, ex, ?_, fun he => ?_⟩
  · rw [(settleTiles_is _ _ _).1, ← xw]
    split
    · unfold abandonData noteData
      rw [raise_glz]; rfl
    · exact glazeSeg_work g w x
  · obtain ⟨_, s2, s3, s4, s5⟩ := settleTiles_is g.canvas g.epoch (if bad = true then abandonData g w x else glazeSeg g w x)
    rw [if_pos he] at s2 s3 s4 s5 ⊢
    have base : hasBit (abandonData g w x) fld.glzEvent.GLZ_EVENT 2 g.canvas = true ∧
        counter (abandonData g w x) Cnt.glazeData.ctorIdx = counter s Cnt.glazeData.ctorIdx + 1 ∧ (abandonData g w x).prt = s.prt ∧
        (abandonData g w x).epg = s.epg := by
      unfold abandonData
      extract_lets m
      generalize hy : setWin { w with badTiles := w.badTiles ++ segTiles x m g, abandoned := w.abandoned + 1 } x = y
      have yc : y.cnt = s.cnt := by rw [← hy, ← xc]; rfl
      have yp : y.prt = s.prt := by rw [← hy, ← xp]; rfl
      have ye : y.epg = s.epg := by rw [← hy, ← xe]; rfl
      unfold noteData
      refine ⟨?_, ?_, by rw [raise_prt]; exact yp, by rw [raise_epg]; exact ye⟩
      · unfold hasBit
        rw [get_raise _ _ _ _ _ _ (by decide) (by decide) (by decide)]
        exact hasBit_setBit _ _ _ _ _ (by decide) (by decide)
      · rw [counter_raise _ _ _ _ (by decide) (by decide)]
        refine (counter_congr (s := bump .glazeData y) (setBit_cnt _ _ _ _ _) _).trans ?_
        refine (counter_bump .glazeData y _).trans ?_
        rw [if_pos rfl, counter_congr yc]
    obtain ⟨q1, q2, q3, q4⟩ := base
    refine ⟨?_, by rw [counter_congr s3, q2], by rw [s4, q3], by rw [s5, q4]⟩
    rw [← q1]
    unfold hasBit
    rw [get_of_rd (f := fld.glzEvent.GLZ_EVENT) (rd_congr s2 _ _ _)]

theorem windows_end {s : State} (c : Nat) (e : W32) (w : Win) (left : Nat) (hw : winOf s c e = some w)
    (hl : left = (s.glz.work.filter (fun g => g.canvas == c && g.epoch == e)).length) :
      ∃ t, exec (.windowEnd c e) s = .next t ∧ winOf t c e = none ∧ t.ot = timeAt s w.fin ∧
        (∀ g ∈ t.glz.work, g.canvas ≠ c ∨ g.epoch ≠ e) ∧
        get t fld.glzAbandoned.ABANDONED c = (w.abandoned + left) % 2 ^ fld.glzAbandoned.ABANDONED.w ∧
        get t fld.glzLateLines.LATE_LINES c = w.lateLines.length % 2 ^ fld.glzLateLines.LATE_LINES.w ∧
        (left ≠ 0 → hasBit t fld.glzEvent.GLZ_EVENT 1 c = true) := by
  generalize hx : advance w.fin s = x
  have xo : x.ot = timeAt s w.fin := by rw [← hx]; exact advance_ot _ _
  have xg : x.glz = s.glz := by rw [← hx, advance_frame]
  generalize hd : s.glz.work.filter (fun g => g.canvas == c && g.epoch == e) = lf at hl
  generalize hy : ({ x with glz := { x.glz with
      work := s.glz.work.filter (fun g => !(g.canvas == c && g.epoch == e))
      wins := s.glz.wins.filter (fun x => !(x.canvas == c && x.epoch == e)) } } : State) = y
  generalize hz : put fld.glzAbandoned.ABANDONED (w.abandoned + lf.length) (put fld.glzLateLines.LATE_LINES w.lateLines.length y c) c = z
  have wd := within_dropStale c e (μ := outside [.glzAbandoned, .glzLateLines] [.ot, .glz]) (by decide +kernel) (Within.refl z)
  generalize hu : dropStale c e z = u at wd
  have ug : u.glz = z.glz := wd.part .glz (by decide +kernel)
  have uo : u.ot = z.ot := wd.part .ot (by decide +kernel)
  have zg : z.glz = y.glz := by rw [← hz]; rfl
  have zo : z.ot = x.ot := by rw [← hz, put_ot, put_ot, ← hy]
  have ua : get u fld.glzAbandoned.ABANDONED c = (w.abandoned + left) % 2 ^ 24 := by
    rw [get_of_rd (f := fld.glzAbandoned.ABANDONED) (wd.reg .glzAbandoned (by decide +kernel) _ _), ← hz, get_put_same _ _ _ _ _ (by decide), hl]; rfl
  have ul : get u fld.glzLateLines.LATE_LINES c = w.lateLines.length % 2 ^ 24 := by
    rw [get_of_rd (f := fld.glzLateLines.LATE_LINES) (wd.reg .glzLateLines (by decide +kernel) _ _), ← hz, get_put_reg _ _ _ _ _ _ _ _ (by decide), get_put_same _ _ _ _ _ (by decide)]; rfl
  have ex : exec (.windowEnd c e) s = .next (if lf.isEmpty then u
      else raise 49 c (setBit fld.glzEvent.GLZ_EVENT 1 (count Cnt.glazeLate.ctorIdx lf.length u) c)) := by
    show execWindowEnd c e s = _
    unfold execWindowEnd
    rw [hw]
    dsimp only
    rw [hx, xg, hd]
    rw [xg] at hy
    rw [hy, hz, hu]
  have tg : ∀ b : Bool, ∀ t, t = (if b then u else raise 49 c (setBit fld.glzEvent.GLZ_EVENT 1 (count Cnt.glazeLate.ctorIdx lf.length u) c)) →
      t.glz = y.glz ∧ t.ot = x.ot ∧ get t fld.glzAbandoned.ABANDONED c = (w.abandoned + left) % 2 ^ 24 ∧
      get t fld.glzLateLines.LATE_LINES c = w.lateLines.length % 2 ^ 24 ∧ (b = false → hasBit t fld.glzEvent.GLZ_EVENT 1 c = true) := by
    rintro (_ | _) t rfl
    · simp only [Bool.false_eq_true, if_false]
      refine ⟨by rw [raise_glz, ← zg, ← ug]; rfl, by rw [raise_ot, ← zo, ← uo]; rfl, ?_, ?_, fun _ => ?_⟩
      · rw [get_raise _ _ _ _ _ _ (by decide) (by decide) (by decide), get_setBit_reg _ _ _ _ _ _ _ _ (by decide)]; exact ua
      · rw [get_raise _ _ _ _ _ _ (by decide) (by decide) (by decide), get_setBit_reg _ _ _ _ _ _ _ _ (by decide)]; exact ul
      · unfold hasBit
        rw [get_raise _ _ _ _ _ _ (by decide) (by decide) (by decide)]
        exact hasBit_setBit _ _ _ _ _ (by decide) (by decide)
    · exact ⟨by rw [ug, zg], by rw [uo, zo], ua, ul, fun k => by cases k⟩
  obtain ⟨a1, a2, a3, a4, a5⟩ := tg lf.isEmpty _ rfl
  refine ⟨_, ex, ?_, by rw [a2, xo], fun g hg => ?_, a3, a4, fun h => a5 ?_⟩
  · unfold winOf
    rw [a1, ← hy]
    rw [List.find?_eq_none]
    intro v hv
    have := (List.mem_filter.mp hv).2
    simp at this ⊢
    intro k
    rcases this with h | h
    · exact absurd k h
    · exact h
  · rw [a1, ← hy] at hg
    have := (List.mem_filter.mp hg).2
    by_cases k : g.canvas = c
    · right; simpa [k] using this
    · exact .inl k
  · cases lf with
    | nil => exact absurd hl h
    | cons _ _ => rfl

theorem plane_cuts {s : State} (c : Nat) (e : W32) (w : Win) (hw : winOf s c e = some w) (p : Nat) (hp : p < 4) (he : eff s fld.planeCtrl.EN c p = 1) :
      ∃ t, exec (.planeCut c e p) s = .next t ∧
        winOf t c e = some { w with cutPlanes := w.cutPlanes ++ [p] } ∧ t.ot = timeAt s (planeCutAt s c p e) := by
  refine ⟨setWin { w with cutPlanes := w.cutPlanes ++ [p] } (advance (planeCutAt s c p e) s), ?_, ?_, advance_ot _ _⟩
  · show execPlaneCut c e p s = _
    unfold execPlaneCut
    rw [hw]
    dsimp only
    rw [if_neg (by simp [he]; omega)]
  · have g : (advance (planeCutAt s c p e) s).glz = s.glz := by rw [advance_frame]
    unfold winOf setWin
    dsimp only
    rw [g]
    unfold winOf at hw
    have hk := List.find?_some hw
    simp only [Bool.and_eq_true, beq_iff_eq] at hk
    obtain ⟨k1, k2⟩ := hk
    subst k1 k2
    generalize s.glz.wins = xs at hw
    induction xs with
    | nil => simp at hw
    | cons x xs ih =>
      rw [List.find?_cons] at hw
      rw [List.map_cons]
      by_cases h : (x.canvas == w.canvas && x.epoch == w.epoch) = true
      · rw [h] at hw
        obtain rfl : x = w := by simpa using hw
        rw [if_pos ⟨rfl, rfl⟩, List.find?_cons_of_pos (by simp)]
      · have h' : (x.canvas == w.canvas && x.epoch == w.epoch) = false := by simpa using h
        rw [h'] at hw
        rw [if_neg (by simpa using h), List.find?_cons_of_neg (by simpa using h)]
        exact ih hw

theorem mordant {s : State} {fn : Nat} (a : Nat) (ha : a = get s fld.mordAddr.MORD_ADDR) :
      (∀ v, Writable s fn .mordData 0 0 → ∃ t, exec (.mordWrite fn v) s = .next t ∧
        get t fld.mordAddr.MORD_ADDR = a / 2 ^ 18 * 2 ^ 18 + (a + 1) % 2 ^ 18 ∧
        (bankUsed s (a / 2 ^ 20 % 2) = false → Map.get (fun _ => 0) t.glz.mord a = v &&& BitVec.ofNat 32 (mordMask a) ∧
          ∀ q, q ≠ a → Map.get (fun _ => 0) t.glz.mord q = Map.get (fun _ => 0) s.glz.mord q) ∧
        (bankUsed s (a / 2 ^ 20 % 2) = true → t.glz = s.glz ∧ on t fld.mordStatus.WR_REFUSED = true ∧
          counter t Cnt.mordRefused.ctorIdx = counter s Cnt.mordRefused.ctorIdx + 1)) ∧
      (Reaches s fn .mordData 0 0 → ∃ t, exec (.mordRead fn) s = .next t ∧
        t.rdata = leBytes 4 (Map.get (fun _ => 0) s.glz.mord a).toNat ∧
        get t fld.mordAddr.MORD_ADDR = a / 2 ^ 18 * 2 ^ 18 + (a + 1) % 2 ^ 18) := by
  have al : a < 2 ^ 21 := by rw [ha]; exact Nat.mod_lt _ (by decide)
  have nx : ∀ u : State, get u fld.mordAddr.MORD_ADDR = a → get (mordNext u) fld.mordAddr.MORD_ADDR = a / 2 ^ 18 * 2 ^ 18 + (a + 1) % 2 ^ 18 := by
    intro u hu
    unfold mordNext
    dsimp only
    rw [hu, get_put_same _ _ _ _ _ (by decide)]
    show (a / 2 ^ 18 * 2 ^ 18 + (a + 1) % 2 ^ 18) % 2 ^ 21 = _
    omega
  constructor
  · intro v hw
    obtain ⟨x, hx, hex⟩ := hostWrite_of hw v (mordStore v)
    have xa : get x fld.mordAddr.MORD_ADDR = a := by rw [ha]; exact hx.get _ _ _ (by decide)
    have xb : bankUsed x (a / 2 ^ 20 % 2) = bankUsed s (a / 2 ^ 20 % 2) := by
      unfold bankUsed
      simp (disch := decide) only [hx.alike.on, hx.alike.eff, hx.alike.get]
    have xg : x.glz = s.glz := by rw [hx.frame]
    refine ⟨_, congrArg Host.Outcome.next hex, ?_, fun hb => ?_, fun hb => ?_⟩
    · unfold mordStore
      dsimp only
      rw [xa]
      refine nx _ ?_
      split
      · rw [get_raise0 _ _ _ _ _ (by decide) (by decide) (by decide), get_put_reg _ _ _ _ _ _ _ _ (by decide)]; exact xa
      · exact xa
    · have f : mordStore v x = mordNext { x with glz := { x.glz with mord := Map.set (fun _ => 0) x.glz.mord a (BitVec.ofNat 32 (Nat.land v.toNat (mordMask a))) } } := by
        unfold mordStore
        dsimp only
        rw [xa, xb, hb, if_neg (by decide)]
      have tm : (mordStore v x).glz.mord = Map.set (fun _ => 0) s.glz.mord a (BitVec.ofNat 32 (Nat.land v.toNat (mordMask a))) := by rw [f, ← xg]; rfl
      rw [tm]
      refine ⟨?_, fun q hq => map_get_set_ne _ _ _ hq⟩
      rw [map_get_set_same]
      apply BitVec.eq_of_toNat_eq
      rw [BitVec.toNat_ofNat, BitVec.toNat_and, BitVec.toNat_ofNat]
      have ml : mordMask a < 2 ^ 32 := by
        unfold mordMask
        dsimp only
        repeat' split
        all_goals decide
      rw [Nat.mod_eq_of_lt ml]
      exact Nat.mod_eq_of_lt (Nat.lt_of_le_of_lt Nat.and_le_right ml)
    · have f : mordStore v x = mordNext (raise0 51 (put fld.mordStatus.WR_REFUSED 1 (bump .mordRefused x))) := by
        unfold mordStore
        dsimp only
        rw [xa, xb, hb, if_pos rfl]
      rw [f]
      unfold mordNext
      dsimp only
      refine ⟨?_, ?_, ?_⟩
      · rw [put_glz, raise0_glz, put_glz, bump_glz, xg]
      · rw [on_put_reg _ _ _ _ _ _ _ _ (by decide), on_raise0 _ _ _ _ _ (by decide) (by decide) (by decide), on_put_same _ _ _ _ _ (by decide) (by decide)]; rfl
      · refine (counter_congr (s := raise0 51 (put fld.mordStatus.WR_REFUSED 1 (bump .mordRefused x))) (put_cnt _ _ _ _ _) _).trans ?_
        rw [counter_raise0 _ _ _ (by decide) (by decide)]
        refine (counter_bump .mordRefused x _).trans ?_
        rw [if_pos rfl, hx.cnt _ (by decide)]
  · intro hr
    refine ⟨hostRead fn .mordData 0 0 mordRead s, rfl, ?_, ?_⟩
    · rw [hostRead_of hr, ha]; rfl
    · have e : (hostRead fn .mordData 0 0 mordRead s).regs = (mordNext s).regs := by rw [hostRead_of hr]; rfl
      rw [get_congr e]
      exact nx s ha.symm

end Sys2Proof.Machine
end

