-- ==== Sys2Proof/Laws/PerInstr.lean ====
section
/-!
SUPPORT. One statement per instruction: decoding the word of a well-formed instruction gives the instruction back (R32,
R35). A command that is no Quolasyn instruction has no word.
-/

namespace Sys2Proof.Laws.RoundTrip

/-- Decoding the word of the well-formed instruction `i`, if it has one, gives `i` back. -/
def Statement (i : Instr) : Prop :=
  ∀ w, wellFormed i = true → encode i = some w → decodeWord (coreOf i) w = some i

/-- The round trip by parts. -/
theorem of_parts {i : Instr} {m : BitVec 6} {fn : BitVec 8} {f : F} (hp : partsOf i = some (m, fn, f))
    (hd : codesOk i = true → decodeParts (coreOf i) m fn f = some i) : Statement i := by
  intro w hw he
  unfold encode at he
  rw [hp] at he
  cases he
  rw [decodeWord_pack]
  unfold wellFormed at hw
  rw [Bool.and_eq_true] at hw
  exact hd hw.1

/-- An instruction without a word. -/
theorem of_none {i : Instr} (hp : encode i = none) : Statement i := by
  intro w _ he
  rw [hp] at he
  cases he

theorem add (k : Nat) (f : F) : Statement (.add k f) := of_parts rfl (fun _ => rfl)
theorem sub (k : Nat) (f : F) : Statement (.sub k f) := of_parts rfl (fun _ => rfl)
theorem and (k : Nat) (f : F) : Statement (.and k f) := of_parts rfl (fun _ => rfl)
theorem or (k : Nat) (f : F) : Statement (.or k f) := of_parts rfl (fun _ => rfl)
theorem xor (k : Nat) (f : F) : Statement (.xor k f) := of_parts rfl (fun _ => rfl)
theorem shl (k : Nat) (f : F) : Statement (.shl k f) := of_parts rfl (fun _ => rfl)
theorem shr (k : Nat) (f : F) : Statement (.shr k f) := of_parts rfl (fun _ => rfl)
theorem sra (k : Nat) (f : F) : Statement (.sra k f) := of_parts rfl (fun _ => rfl)
theorem slt (k : Nat) (f : F) : Statement (.slt k f) := of_parts rfl (fun _ => rfl)
theorem sltu (k : Nat) (f : F) : Statement (.sltu k f) := of_parts rfl (fun _ => rfl)
theorem min (k : Nat) (f : F) : Statement (.min k f) := of_parts rfl (fun _ => rfl)
theorem max (k : Nat) (f : F) : Statement (.max k f) := of_parts rfl (fun _ => rfl)
theorem minu (k : Nat) (f : F) : Statement (.minu k f) := of_parts rfl (fun _ => rfl)
theorem maxu (k : Nat) (f : F) : Statement (.maxu k f) := of_parts rfl (fun _ => rfl)
theorem sel (k : Nat) (f : F) : Statement (.sel k f) := of_parts rfl (fun _ => rfl)
theorem mul (k : Nat) (f : F) : Statement (.mul k f) := of_parts rfl (fun _ => rfl)
theorem mulh (k : Nat) (f : F) : Statement (.mulh k f) := of_parts rfl (fun _ => rfl)
theorem mulhu (k : Nat) (f : F) : Statement (.mulhu k f) := of_parts rfl (fun _ => rfl)
theorem mad (k : Nat) (f : F) : Statement (.mad k f) := of_parts rfl (fun _ => rfl)
theorem div (k : Nat) (f : F) : Statement (.div k f) := of_parts rfl (fun _ => rfl)
theorem divu (k : Nat) (f : F) : Statement (.divu k f) := of_parts rfl (fun _ => rfl)
theorem rem (k : Nat) (f : F) : Statement (.rem k f) := of_parts rfl (fun _ => rfl)
theorem remu (k : Nat) (f : F) : Statement (.remu k f) := of_parts rfl (fun _ => rfl)
theorem pxmul (k : Nat) (f : F) : Statement (.pxmul k f) := of_parts rfl (fun _ => rfl)
theorem pxadd (k : Nat) (f : F) : Statement (.pxadd k f) := of_parts rfl (fun _ => rfl)
theorem pxsub (k : Nat) (f : F) : Statement (.pxsub k f) := of_parts rfl (fun _ => rfl)
theorem pand (k : Nat) (f : F) : Statement (.pand k f) := of_parts rfl (fun _ => rfl)
theorem por (k : Nat) (f : F) : Statement (.por k f) := of_parts rfl (fun _ => rfl)
theorem pxor (k : Nat) (f : F) : Statement (.pxor k f) := of_parts rfl (fun _ => rfl)
theorem pandn (k : Nat) (f : F) : Statement (.pandn k f) := of_parts rfl (fun _ => rfl)
theorem pmov (k : Nat) (f : F) : Statement (.pmov k f) := of_parts rfl (fun _ => rfl)
theorem prd (k : Nat) (f : F) : Statement (.prd k f) := of_parts rfl (fun _ => rfl)
theorem addi (k : Nat) (f : F) : Statement (.addi k f) := of_parts rfl (fun _ => rfl)
theorem andi (k : Nat) (f : F) : Statement (.andi k f) := of_parts rfl (fun _ => rfl)
theorem ori (k : Nat) (f : F) : Statement (.ori k f) := of_parts rfl (fun _ => rfl)
theorem xori (k : Nat) (f : F) : Statement (.xori k f) := of_parts rfl (fun _ => rfl)
theorem shli (k : Nat) (f : F) : Statement (.shli k f) := of_parts rfl (fun _ => rfl)
theorem shri (k : Nat) (f : F) : Statement (.shri k f) := of_parts rfl (fun _ => rfl)
theorem srai (k : Nat) (f : F) : Statement (.srai k f) := of_parts rfl (fun _ => rfl)
theorem slti (k : Nat) (f : F) : Statement (.slti k f) := of_parts rfl (fun _ => rfl)
theorem sltiu (k : Nat) (f : F) : Statement (.sltiu k f) := of_parts rfl (fun _ => rfl)
theorem muli (k : Nat) (f : F) : Statement (.muli k f) := of_parts rfl (fun _ => rfl)
theorem li (k : Nat) (f : F) : Statement (.li k f) := of_parts rfl (fun _ => rfl)
theorem vadd (k : Nat) (t : BitVec 3) (f : F) : Statement (.vadd k t f) := of_parts rfl (fun h => by
  show decVint k _ f = _
  unfold decVint
  rw [vint_type, vint_op]
  exact if_neg (by have := of_decide_eq_true h; omega))
theorem vsub (k : Nat) (t : BitVec 3) (f : F) : Statement (.vsub k t f) := of_parts rfl (fun h => by
  show decVint k _ f = _
  unfold decVint
  rw [vint_type, vint_op]
  exact if_neg (by have := of_decide_eq_true h; omega))
theorem vadds (k : Nat) (t : BitVec 3) (f : F) : Statement (.vadds k t f) := of_parts rfl (fun h => by
  show decVint k _ f = _
  unfold decVint
  rw [vint_type, vint_op]
  exact if_neg (by have := of_decide_eq_true h; omega))
theorem vsubs (k : Nat) (t : BitVec 3) (f : F) : Statement (.vsubs k t f) := of_parts rfl (fun h => by
  show decVint k _ f = _
  unfold decVint
  rw [vint_type, vint_op]
  exact if_neg (by have := of_decide_eq_true h; omega))
theorem vand (k : Nat) (t : BitVec 3) (f : F) : Statement (.vand k t f) := of_parts rfl (fun h => by
  show decVint k _ f = _
  unfold decVint
  rw [vint_type, vint_op]
  exact if_neg (by have := of_decide_eq_true h; omega))
theorem vor (k : Nat) (t : BitVec 3) (f : F) : Statement (.vor k t f) := of_parts rfl (fun h => by
  show decVint k _ f = _
  unfold decVint
  rw [vint_type, vint_op]
  exact if_neg (by have := of_decide_eq_true h; omega))
theorem vxor (k : Nat) (t : BitVec 3) (f : F) : Statement (.vxor k t f) := of_parts rfl (fun h => by
  show decVint k _ f = _
  unfold decVint
  rw [vint_type, vint_op]
  exact if_neg (by have := of_decide_eq_true h; omega))
theorem vshl (k : Nat) (t : BitVec 3) (f : F) : Statement (.vshl k t f) := of_parts rfl (fun h => by
  show decVint k _ f = _
  unfold decVint
  rw [vint_type, vint_op]
  exact if_neg (by have := of_decide_eq_true h; omega))
theorem vshr (k : Nat) (t : BitVec 3) (f : F) : Statement (.vshr k t f) := of_parts rfl (fun h => by
  show decVint k _ f = _
  unfold decVint
  rw [vint_type, vint_op]
  exact if_neg (by have := of_decide_eq_true h; omega))
theorem vmin (k : Nat) (t : BitVec 3) (f : F) : Statement (.vmin k t f) := of_parts rfl (fun h => by
  show decVint k _ f = _
  unfold decVint
  rw [vint_type, vint_op]
  exact if_neg (by have := of_decide_eq_true h; omega))
theorem vmax (k : Nat) (t : BitVec 3) (f : F) : Statement (.vmax k t f) := of_parts rfl (fun h => by
  show decVint k _ f = _
  unfold decVint
  rw [vint_type, vint_op]
  exact if_neg (by have := of_decide_eq_true h; omega))
theorem vmul (k : Nat) (t : BitVec 3) (f : F) : Statement (.vmul k t f) := of_parts rfl (fun h => by
  show decVint k _ f = _
  unfold decVint
  rw [vint_type, vint_op]
  exact if_neg (by have := of_decide_eq_true h; omega))
theorem vmad (k : Nat) (t : BitVec 3) (f : F) : Statement (.vmad k t f) := of_parts rfl (fun h => by
  show decVint k _ f = _
  unfold decVint
  rw [vint_type, vint_op]
  exact if_neg (by have := of_decide_eq_true h; omega))
theorem vsel (k : Nat) (t : BitVec 3) (f : F) : Statement (.vsel k t f) := of_parts rfl (fun h => by
  show decVint k _ f = _
  unfold decVint
  rw [vint_type, vint_op]
  exact if_neg (by have := of_decide_eq_true h; omega))
theorem vcmpeq (k : Nat) (t : BitVec 3) (f : F) : Statement (.vcmpeq k t f) := of_parts rfl (fun h => by
  show decVint k _ f = _
  unfold decVint
  rw [vint_type, vint_op]
  exact if_neg (by have := of_decide_eq_true h; omega))
theorem vcmplt (k : Nat) (t : BitVec 3) (f : F) : Statement (.vcmplt k t f) := of_parts rfl (fun h => by
  show decVint k _ f = _
  unfold decVint
  rw [vint_type, vint_op]
  exact if_neg (by have := of_decide_eq_true h; omega))
theorem vcmple (k : Nat) (t : BitVec 3) (f : F) : Statement (.vcmple k t f) := of_parts rfl (fun h => by
  show decVint k _ f = _
  unfold decVint
  rw [vint_type, vint_op]
  exact if_neg (by have := of_decide_eq_true h; omega))
theorem vbcst (k : Nat) (t : BitVec 3) (f : F) : Statement (.vbcst k t f) := of_parts rfl (fun h => by
  show decVint k _ f = _
  unfold decVint
  rw [vint_type, vint_op]
  exact if_neg (by have := of_decide_eq_true h; omega))
theorem vext (k : Nat) (t : BitVec 3) (f : F) : Statement (.vext k t f) := of_parts rfl (fun h => by
  show decVint k _ f = _
  unfold decVint
  rw [vint_type, vint_op]
  exact if_neg (by have := of_decide_eq_true h; omega))
theorem vradd (k : Nat) (t : BitVec 3) (f : F) : Statement (.vradd k t f) := of_parts rfl (fun h => by
  show decVint k _ f = _
  unfold decVint
  rw [vint_type, vint_op]
  exact if_neg (by have := of_decide_eq_true h; omega))
theorem vperm (k : Nat) (t : BitVec 3) (f : F) : Statement (.vperm k t f) := of_parts rfl (fun h => by
  show decVint k _ f = _
  unfold decVint
  rw [vint_type, vint_op]
  exact if_neg (by have := of_decide_eq_true h; omega))
theorem vfadd (k : Nat) (half : Bool) (f : F) : Statement (.vfadd k half f) := of_parts rfl (fun _ => by show decVfloat k _ f = _; unfold decVfloat; rw [float_prec, float_op]; rfl)
theorem vfsub (k : Nat) (half : Bool) (f : F) : Statement (.vfsub k half f) := of_parts rfl (fun _ => by show decVfloat k _ f = _; unfold decVfloat; rw [float_prec, float_op]; rfl)
theorem vfmul (k : Nat) (half : Bool) (f : F) : Statement (.vfmul k half f) := of_parts rfl (fun _ => by show decVfloat k _ f = _; unfold decVfloat; rw [float_prec, float_op]; rfl)
theorem vfma (k : Nat) (half : Bool) (f : F) : Statement (.vfma k half f) := of_parts rfl (fun _ => by show decVfloat k _ f = _; unfold decVfloat; rw [float_prec, float_op]; rfl)
theorem vfmin (k : Nat) (half : Bool) (f : F) : Statement (.vfmin k half f) := of_parts rfl (fun _ => by show decVfloat k _ f = _; unfold decVfloat; rw [float_prec, float_op]; rfl)
theorem vfmax (k : Nat) (half : Bool) (f : F) : Statement (.vfmax k half f) := of_parts rfl (fun _ => by show decVfloat k _ f = _; unfold decVfloat; rw [float_prec, float_op]; rfl)
theorem vfdiv (k : Nat) (half : Bool) (f : F) : Statement (.vfdiv k half f) := of_parts rfl (fun _ => by show decVfloat k _ f = _; unfold decVfloat; rw [float_prec, float_op]; rfl)
theorem vfsqrt (k : Nat) (half : Bool) (f : F) : Statement (.vfsqrt k half f) := of_parts rfl (fun _ => by show decVfloat k _ f = _; unfold decVfloat; rw [float_prec, float_op]; rfl)
theorem vfcmpeq (k : Nat) (half : Bool) (f : F) : Statement (.vfcmpeq k half f) := of_parts rfl (fun _ => by show decVfloat k _ f = _; unfold decVfloat; rw [float_prec, float_op]; rfl)
theorem vfcmplt (k : Nat) (half : Bool) (f : F) : Statement (.vfcmplt k half f) := of_parts rfl (fun _ => by show decVfloat k _ f = _; unfold decVfloat; rw [float_prec, float_op]; rfl)
theorem vfcmple (k : Nat) (half : Bool) (f : F) : Statement (.vfcmple k half f) := of_parts rfl (fun _ => by show decVfloat k _ f = _; unfold decVfloat; rw [float_prec, float_op]; rfl)
theorem vftoi (k : Nat) (half : Bool) (f : F) : Statement (.vftoi k half f) := of_parts rfl (fun _ => by show decVfloat k _ f = _; unfold decVfloat; rw [float_prec, float_op]; rfl)
theorem vitof (k : Nat) (half : Bool) (f : F) : Statement (.vitof k half f) := of_parts rfl (fun _ => by show decVfloat k _ f = _; unfold decVfloat; rw [float_prec, float_op]; rfl)
theorem vftopx (k : Nat) (half : Bool) (f : F) : Statement (.vftopx k half f) := of_parts rfl (fun _ => by show decVfloat k _ f = _; unfold decVfloat; rw [float_prec, float_op]; rfl)
theorem vpxtof (k : Nat) (half : Bool) (f : F) : Statement (.vpxtof k half f) := of_parts rfl (fun _ => by show decVfloat k _ f = _; unfold decVfloat; rw [float_prec, float_op]; rfl)
theorem vfradd (k : Nat) (half : Bool) (f : F) : Statement (.vfradd k half f) := of_parts rfl (fun _ => by show decVfloat k _ f = _; unfold decVfloat; rw [float_prec, float_op]; rfl)
theorem vfabs (k : Nat) (half : Bool) (f : F) : Statement (.vfabs k half f) := of_parts rfl (fun _ => by show decVfloat k _ f = _; unfold decVfloat; rw [float_prec, float_op]; rfl)
theorem vfneg (k : Nat) (half : Bool) (f : F) : Statement (.vfneg k half f) := of_parts rfl (fun _ => by show decVfloat k _ f = _; unfold decVfloat; rw [float_prec, float_op]; rfl)
theorem vmix (k : Nat) (t : BitVec 3) (f : F) : Statement (.vmix k t f) := of_parts rfl (fun _ => by show decPixel k _ f = _; unfold decPixel; rw [if_pos (mix_lt t), vint_type])
theorem vmat3 (k : Nat) (f : F) : Statement (.vmat3 k f) := of_parts rfl (fun _ => rfl)
theorem vdith (k : Nat) (n : BitVec 4) (f : F) : Statement (.vdith k n f) := of_parts rfl (fun h => by
  obtain ⟨h1, h2, h3⟩ := dith_code n (of_decide_eq_true h)
  show decPixel k _ f = _
  unfold decPixel
  rw [if_neg h1, if_pos h2, h3])
theorem vunpkP16 (k : Nat) (f : F) : Statement (.vunpkP16 k f) := of_parts rfl (fun _ => rfl)
theorem vunpkU8 (k : Nat) (f : F) : Statement (.vunpkU8 k f) := of_parts rfl (fun _ => rfl)
theorem vunpkF16 (k : Nat) (f : F) : Statement (.vunpkF16 k f) := of_parts rfl (fun _ => rfl)
theorem vpackP16 (k : Nat) (f : F) : Statement (.vpackP16 k f) := of_parts rfl (fun _ => rfl)
theorem vpackU8 (k : Nat) (f : F) : Statement (.vpackU8 k f) := of_parts rfl (fun _ => rfl)
theorem vpackF16 (k : Nat) (f : F) : Statement (.vpackF16 k f) := of_parts rfl (fun _ => rfl)
theorem vlut (k : Nat) (t : BitVec 3) (f : F) : Statement (.vlut k t f) := of_parts rfl (fun h => by show decLut k _ f = _; unfold decLut; rw [vint_type, vint_op]; exact if_pos (of_decide_eq_true h))
theorem vluti (k : Nat) (t : BitVec 3) (f : F) : Statement (.vluti k t f) := of_parts rfl (fun h => by show decLut k _ f = _; unfold decLut; rw [vint_type, vint_op]; exact if_pos (of_decide_eq_true h))
theorem vgath (k : Nat) (t : BitVec 3) (f : F) : Statement (.vgath k t f) := of_parts rfl (fun _ => by show decLut k _ f = _; unfold decLut; rw [vint_type, vint_op]; rfl)
theorem vgathl (k : Nat) (t : BitVec 3) (f : F) : Statement (.vgathl k t f) := of_parts rfl (fun _ => by show decLut k _ f = _; unfold decLut; rw [vint_type, vint_op]; rfl)
theorem vscat (k : Nat) (t : BitVec 3) (f : F) : Statement (.vscat k t f) := of_parts rfl (fun _ => by show decLut k _ f = _; unfold decLut; rw [vint_type, vint_op]; rfl)
theorem ld (k : Nat) (sp : BitVec 2) (t : BitVec 3) (f : F) : Statement (.ld k sp t f) := of_parts rfl (fun _ => by show decMem k _ f = _; unfold decMem; rw [mem_space, mem_type, mem_mode]; rfl)
theorem vld (k : Nat) (sp : BitVec 2) (t : BitVec 3) (f : F) : Statement (.vld k sp t f) := of_parts rfl (fun _ => by show decMem k _ f = _; unfold decMem; rw [mem_space, mem_type, mem_mode]; rfl)
theorem vldb (k : Nat) (sp : BitVec 2) (t : BitVec 3) (f : F) : Statement (.vldb k sp t f) := of_parts rfl (fun _ => by show decMem k _ f = _; unfold decMem; rw [mem_space, mem_type, mem_mode]; rfl)
theorem st (k : Nat) (sp : BitVec 2) (t : BitVec 3) (f : F) : Statement (.st k sp t f) := of_parts rfl (fun h => by show decMem k _ f = _; unfold decMem; rw [mem_space, mem_type, mem_mode]; exact if_neg (by simpa [codesOk] using h))
theorem vst (k : Nat) (sp : BitVec 2) (t : BitVec 3) (f : F) : Statement (.vst k sp t f) := of_parts rfl (fun h => by show decMem k _ f = _; unfold decMem; rw [mem_space, mem_type, mem_mode]; exact if_neg (by simpa [codesOk] using h))
theorem reservedInstruction (k : Nat) (w : W64) : Statement (.reservedInstruction k w) := of_none rfl
theorem vsamp (k : Nat) (nearest : Bool) (edge : BitVec 2) (f : F) : Statement (.vsamp k nearest edge f) := of_parts rfl (fun h => by
  obtain ⟨h1, h2, h3⟩ := samp_code nearest edge (by simpa [codesOk] using h)
  show decSamp k _ f = _
  unfold decSamp
  dsimp only
  rw [h1, h2, h3]
  rfl)
theorem specIn (k : Nat) (f : F) : Statement (.specIn k f) := of_parts rfl (fun _ => rfl)
theorem firmIn (k : Nat) (f : F) : Statement (.firmIn k f) := of_parts rfl (fun _ => rfl)
theorem specVer (k : Nat) (f : F) : Statement (.specVer k f) := of_parts rfl (fun _ => rfl)
theorem firmVer (k : Nat) (f : F) : Statement (.firmVer k f) := of_parts rfl (fun _ => rfl)
theorem etabRd (k : Nat) (f : F) : Statement (.etabRd k f) := of_parts rfl (fun _ => rfl)
theorem etabWr (k : Nat) (f : F) : Statement (.etabWr k f) := of_parts rfl (fun _ => rfl)
theorem pktAlloc (k : Nat) (f : F) : Statement (.pktAlloc k f) := of_parts rfl (fun _ => rfl)
theorem pktRd (k : Nat) (f : F) : Statement (.pktRd k f) := of_parts rfl (fun _ => rfl)
theorem pktWr (k : Nat) (f : F) : Statement (.pktWr k f) := of_parts rfl (fun _ => rfl)
theorem pktLen (k : Nat) (f : F) : Statement (.pktLen k f) := of_parts rfl (fun _ => rfl)
theorem pktSend (k : Nat) (f : F) : Statement (.pktSend k f) := of_parts rfl (fun _ => rfl)
theorem pktFree (k : Nat) (f : F) : Statement (.pktFree k f) := of_parts rfl (fun _ => rfl)
theorem yield (k : Nat) (f : F) : Statement (.yield k f) := of_parts rfl (fun _ => rfl)
theorem done (k : Nat) (f : F) : Statement (.done k f) := of_parts rfl (fun _ => rfl)
theorem spawn (k : Nat) (f : F) : Statement (.spawn k f) := of_parts rfl (fun _ => rfl)
theorem post (k : Nat) (f : F) : Statement (.post k f) := of_parts rfl (fun _ => rfl)
theorem cancel (k : Nat) (f : F) : Statement (.cancel k f) := of_parts rfl (fun _ => rfl)
theorem bra (k : Nat) (f : F) : Statement (.bra k f) := of_parts rfl (fun _ => rfl)
theorem beq (k : Nat) (f : F) : Statement (.beq k f) := of_parts rfl (fun _ => rfl)
theorem bne (k : Nat) (f : F) : Statement (.bne k f) := of_parts rfl (fun _ => rfl)
theorem blt (k : Nat) (f : F) : Statement (.blt k f) := of_parts rfl (fun _ => rfl)
theorem bge (k : Nat) (f : F) : Statement (.bge k f) := of_parts rfl (fun _ => rfl)
theorem bltu (k : Nat) (f : F) : Statement (.bltu k f) := of_parts rfl (fun _ => rfl)
theorem bgeu (k : Nat) (f : F) : Statement (.bgeu k f) := of_parts rfl (fun _ => rfl)
theorem bany (k : Nat) (f : F) : Statement (.bany k f) := of_parts rfl (fun _ => rfl)
theorem ball (k : Nat) (f : F) : Statement (.ball k f) := of_parts rfl (fun _ => rfl)
theorem bnone (k : Nat) (f : F) : Statement (.bnone k f) := of_parts rfl (fun _ => rfl)
theorem call (k : Nat) (f : F) : Statement (.call k f) := of_parts rfl (fun _ => rfl)
theorem jr (k : Nat) (f : F) : Statement (.jr k f) := of_parts rfl (fun _ => rfl)
theorem callr (k : Nat) (f : F) : Statement (.callr k f) := of_parts rfl (fun _ => rfl)
theorem nop (k : Nat) (f : F) : Statement (.nop k f) := of_parts rfl (fun _ => rfl)
theorem crr (k : Nat) (f : F) : Statement (.crr k f) := of_parts rfl (fun _ => rfl)
theorem vcrr (k : Nat) (f : F) : Statement (.vcrr k f) := of_parts rfl (fun _ => rfl)
theorem fence (k : Nat) (f : F) : Statement (.fence k f) := of_parts rfl (fun _ => rfl)
theorem brk (k : Nat) (f : F) : Statement (.brk k f) := of_parts rfl (fun _ => rfl)
theorem trap (k : Nat) (f : F) : Statement (.trap k f) := of_parts rfl (fun _ => rfl)
theorem cntAdd (k : Nat) (f : F) : Statement (.cntAdd k f) := of_parts rfl (fun _ => rfl)
theorem task (h : Cmd) (desc : List W32) : Statement (.task h desc) := of_none rfl
theorem cue (h : Cmd) (index value : W32) (tgt : Tgt) : Statement (.cue h index value tgt) := of_none rfl
theorem alloc (h : Cmd) (mib : W32) : Statement (.alloc h mib) := of_none rfl
theorem retire (h : Cmd) (addr : W32) : Statement (.retire h addr) := of_none rfl
theorem layerNew (h : Cmd) (layer size form pool nbuf : W32) : Statement (.layerNew h layer size form pool nbuf) := of_none rfl
theorem layerSet (h : Cmd) (layer buf : W32) (tgt : Tgt) : Statement (.layerSet h layer buf tgt) := of_none rfl
theorem importLayer (h : Cmd) (layer busLo busHi pitch : W32) (tgt : Tgt) : Statement (.importLayer h layer busLo busHi pitch tgt) := of_none rfl
theorem layerDel (h : Cmd) (layer : W32) : Statement (.layerDel h layer) := of_none rfl
theorem badCommand (h : Cmd) (op : Byte) (ext poisoned : Bool) : Statement (.badCommand h op ext poisoned) := of_none rfl
theorem registerWrite (fn : Nat) (sp : Space) (off : Nat) (v : W32) (size : Nat) (setting : W32) (other : Option (Nat × W32)) : Statement (.registerWrite fn sp off v size setting other) := of_none rfl
theorem semClaim (n fn : Nat) (other : Option Nat) : Statement (.semClaim n fn other) := of_none rfl
theorem semRelease (n fn : Nat) (v : W32) (claim : Option Nat) : Statement (.semRelease n fn v claim) := of_none rfl
theorem semForce (fn : Nat) (v : W32) : Statement (.semForce fn v) := of_none rfl
theorem semLeaseExpire (n : Nat) : Statement (.semLeaseExpire n) := of_none rfl
theorem ringEnable (r fn : Nat) (v : W32) : Statement (.ringEnable r fn v) := of_none rfl
theorem ringTailWrite (r fn : Nat) (v : W32) (posted : List RxPost) : Statement (.ringTailWrite r fn v posted) := of_none rfl
theorem ringHeadWrite (r fn : Nat) (v : W32) : Statement (.ringHeadWrite r fn v) := of_none rfl
theorem ringFlush (r fn : Nat) : Statement (.ringFlush r fn) := of_none rfl
theorem flushComplete (r : Nat) (heads : List FlushedEntry) : Statement (.flushComplete r heads) := of_none rfl
theorem producerResume (r : Nat) (bad : Byte) : Statement (.producerResume r bad) := of_none rfl
theorem bar2Write (fn off : Nat) (data : List Byte) (poisoned : Bool) : Statement (.bar2Write fn off data poisoned) := of_none rfl
theorem bar2Read (fn off n : Nat) : Statement (.bar2Read fn off n) := of_none rfl
theorem importDone (layer i : Nat) (data : List Byte) : Statement (.importDone layer i data) := of_none rfl
theorem importDmaFault (layer i : Nat) : Statement (.importDmaFault layer i) := of_none rfl
theorem fenceComplete (ctx : Nat) : Statement (.fenceComplete ctx) := of_none rfl
theorem functionLevelReset (fn : Nat) : Statement (.functionLevelReset fn) := of_none rfl
theorem perstN (host : Nat) (low : Bool) : Statement (.perstN host low) := of_none rfl
theorem pcieLinkChange (host : Nat) (rate width : BitVec 2) : Statement (.pcieLinkChange host rate width) := of_none rfl
theorem dispatch : Statement .dispatch := of_none rfl
theorem affinityWaitEnd (slot : Nat) : Statement (.affinityWaitEnd slot) := of_none rfl
theorem tileTaskCreate : Statement .tileTaskCreate := of_none rfl
theorem taskRecreate : Statement .taskRecreate := of_none rfl
theorem taskRebind (slot : Nat) : Statement (.taskRebind slot) := of_none rfl
theorem schedCancel (fn : Nat) (v : W32) (same : Bool) : Statement (.schedCancel fn v same) := of_none rfl
theorem schedKick (fn : Nat) (v : W32) : Statement (.schedKick fn v) := of_none rfl
theorem ctxDisable (fn ctx : Nat) (v : W32) : Statement (.ctxDisable fn ctx v) := of_none rfl
theorem coreTimePeriodEnd (ctx : Nat) : Statement (.coreTimePeriodEnd ctx) := of_none rfl
theorem inputLogEnter (i : Nat) (poisoned : Bool) : Statement (.inputLogEnter i poisoned) := of_none rfl
theorem frameInstant (fc : Nat) : Statement (.frameInstant fc) := of_none rfl
theorem commit (c : Nat) : Statement (.commit c) := of_none rfl
theorem stallRelease (c : Nat) : Statement (.stallRelease c) := of_none rfl
theorem canvasEnable (fn c : Nat) (v : W32) : Statement (.canvasEnable fn c v) := of_none rfl
theorem canvasDisable (fn c : Nat) (v : W32) : Statement (.canvasDisable fn c v) := of_none rfl
theorem squash (fn c : Nat) : Statement (.squash fn c) := of_none rfl
theorem pin (fn c : Nat) : Statement (.pin fn c) := of_none rfl
theorem unpin (fn c : Nat) : Statement (.unpin fn c) := of_none rfl
theorem wake (fn c : Nat) : Statement (.wake fn c) := of_none rfl
theorem shadowedWrite (fn off : Nat) (v : W32) : Statement (.shadowedWrite fn off v) := of_none rfl
theorem glazeSegment (pipe : Nat) (dataError : Bool) : Statement (.glazeSegment pipe dataError) := of_none rfl
theorem windowEnd (c : Nat) (e : W32) : Statement (.windowEnd c e) := of_none rfl
theorem planeCut (c : Nat) (e : W32) (p : Nat) : Statement (.planeCut c e p) := of_none rfl
theorem mordWrite (fn : Nat) (v : W32) : Statement (.mordWrite fn v) := of_none rfl
theorem mordRead (fn : Nat) : Statement (.mordRead fn) := of_none rfl
theorem etabStageWrite (fn e k : Nat) (v : W32) : Statement (.etabStageWrite fn e k v) := of_none rfl
theorem etabPublish (fn e : Nat) (v : W32) : Statement (.etabPublish fn e v) := of_none rfl
theorem viewWrite (fn ctx : Nat) (isN : Bool) (v : W32) : Statement (.viewWrite fn ctx isN v) := of_none rfl
theorem tableBaseWrite (fn : Nat) (isStbl : Bool) (v : W32) : Statement (.tableBaseWrite fn isStbl v) := of_none rfl
theorem fltClr (fn : Nat) (v : W32) : Statement (.fltClr fn v) := of_none rfl
theorem drvKick (fn : Nat) (v : W32) : Statement (.drvKick fn v) := of_none rfl
theorem blackoutOn (fn : Nat) : Statement (.blackoutOn fn) := of_none rfl
theorem blackoutOff (fn : Nat) : Statement (.blackoutOff fn) := of_none rfl
theorem blackoutRepeat : Statement .blackoutRepeat := of_none rfl
theorem clear (fn g : Nat) (v : W32) : Statement (.clear fn g v) := of_none rfl
theorem force (fn g : Nat) (v : W32) : Statement (.force fn g v) := of_none rfl
theorem streamTerminated (fn u : Nat) (v : W32) : Statement (.streamTerminated fn u v) := of_none rfl
theorem latch (c : Nat) : Statement (.latch c) := of_none rfl
theorem beacon (c : Nat) : Statement (.beacon c) := of_none rfl
theorem sacnSync (c : Nat) : Statement (.sacnSync c) := of_none rfl
theorem dmxPacketStart (p : Nat) : Statement (.dmxPacketStart p) := of_none rfl
theorem dmxPacketEnd (p : Nat) : Statement (.dmxPacketEnd p) := of_none rfl
theorem stat (port : Nat) (m : RxFrame) : Statement (.stat port m) := of_none rfl
theorem nodeLost (e : Nat) : Statement (.nodeLost e) := of_none rfl
theorem setGo (fn : Nat) : Statement (.setGo fn) := of_none rfl
theorem otLoRead (fn : Nat) : Statement (.otLoRead fn) := of_none rfl
theorem measPush (fn d : Nat) : Statement (.measPush fn d) := of_none rfl
theorem annKick (fn d : Nat) : Statement (.annKick fn d) := of_none rfl
theorem announceTimeout (d : Nat) : Statement (.announceTimeout d) := of_none rfl
theorem timeSelWrite (fn : Nat) (v : W32) : Statement (.timeSelWrite fn v) := of_none rfl
theorem domEnWrite (fn d : Nat) (v : W32) : Statement (.domEnWrite fn d v) := of_none rfl
theorem fcEnable (fn n : Nat) (v : W32) : Statement (.fcEnable fn n v) := of_none rfl
theorem fcCtrlWrite (fn n : Nat) (v : W32) : Statement (.fcCtrlWrite fn n v) := of_none rfl
theorem fcPhaseWrite (fn n : Nat) (v : W32) : Statement (.fcPhaseWrite fn n v) := of_none rfl
theorem nextLoRead (fn n : Nat) : Statement (.nextLoRead fn n) := of_none rfl
theorem tsqPop (fn p : Nat) (poison : BitVec 4) : Statement (.tsqPop fn p poison) := of_none rfl
theorem tsqFlush (fn p : Nat) : Statement (.tsqFlush fn p) := of_none rfl
theorem ppsInEdge (at_ : W64) (frac : BitVec 16) : Statement (.ppsInEdge at_ frac) := of_none rfl
theorem ppsInLoRead (fn : Nat) : Statement (.ppsInLoRead fn) := of_none rfl
theorem ppsOutPulse (i : Nat) : Statement (.ppsOutPulse i) := of_none rfl
theorem ref10Window (at_ : W64) : Statement (.ref10Window at_) := of_none rfl
theorem ref10Loss : Statement .ref10Loss := of_none rfl
theorem frameStart (p : Nat) : Statement (.frameStart p) := of_none rfl
theorem txFrameEnd (p : Nat) : Statement (.txFrameEnd p) := of_none rfl
theorem txDescriptorFrame (r : Nat) (ds : List TxDesc) (data : List Byte) (poisoned : Bool) : Statement (.txDescriptorFrame r ds data poisoned) := of_none rfl
theorem gateCycleStart (p : Nat) : Statement (.gateCycleStart p) := of_none rfl
theorem swap (fn p : Nat) (v : W32) : Statement (.swap fn p v) := of_none rfl
theorem portDisable (fn p : Nat) (v : W32) : Statement (.portDisable fn p v) := of_none rfl
theorem pauseFrame (p : Nat) (m : RxFrame) : Statement (.pauseFrame p m) := of_none rfl
theorem pauseExpire (p cls : Nat) : Statement (.pauseExpire p cls) := of_none rfl
theorem pauseWdTrip (p cls : Nat) : Statement (.pauseWdTrip p cls) := of_none rfl
theorem pauseRecEnd (p cls : Nat) : Statement (.pauseRecEnd p cls) := of_none rfl
theorem lpiEnter (p : Nat) : Statement (.lpiEnter p) := of_none rfl
theorem lpiWake (p : Nat) : Statement (.lpiWake p) := of_none rfl
theorem eeeOkWrite (fn p : Nat) (v : W32) : Statement (.eeeOkWrite fn p v) := of_none rfl
theorem linkChange (p : Nat) (pcsUp lpiRx : Bool) : Statement (.linkChange p pcsUp lpiRx) := of_none rfl
theorem serviceFrameRx (p : Nat) (m : RxFrame) : Statement (.serviceFrameRx p m) := of_none rfl
theorem flowFrameRx (p : Nat) (m : RxFrame) : Statement (.flowFrameRx p m) := of_none rfl
theorem badFrameRx (p : Nat) (m : RxFrame) : Statement (.badFrameRx p m) := of_none rfl
theorem videoPacketRx (p : Nat) (m : RxFrame) (v : VideoPkt) (ovf : Bool) : Statement (.videoPacketRx p m v ovf) := of_none rfl
theorem audioPacketRx (p : Nat) (m : RxFrame) (v : AudioPkt) (ovf : Bool) : Statement (.audioPacketRx p m v ovf) := of_none rfl
theorem ancPacketRx (p : Nat) (m : RxFrame) (v : AncPkt) (ovf : Bool) : Statement (.ancPacketRx p m v ovf) := of_none rfl
theorem ltcWord (at_ : W64) (tc : TcWord) : Statement (.ltcWord at_ tc) := of_none rfl
theorem sacnPacketRx (p : Nat) (m : RxFrame) (v : SacnPkt) : Statement (.sacnPacketRx p m v) := of_none rfl
theorem sacnSourceTimeout (u : Nat) (cid : Nat) : Statement (.sacnSourceTimeout u cid) := of_none rfl
theorem legLoss (kind : LegKind) (s leg : Nat) : Statement (.legLoss kind s leg) := of_none rfl
theorem tcLoss (n : Nat) : Statement (.tcLoss n) := of_none rfl
theorem t1sCollision (p : Nat) (lateColl : Bool) : Statement (.t1sCollision p lateColl) := of_none rfl
theorem backoffExpire (p : Nat) : Statement (.backoffExpire p) := of_none rfl
theorem plcaBeaconChange (p : Nat) (active : Bool) : Statement (.plcaBeaconChange p active) := of_none rfl
theorem go (fn p : Nat) (v : W32) : Statement (.go fn p v) := of_none rfl
theorem rdmListenEnd (p : Nat) (brk : Bool) (resp : List Byte) (err : Bool) : Statement (.rdmListenEnd p brk resp err) := of_none rfl
theorem leaseRenew : Statement .leaseRenew := of_none rfl
theorem leaseLapse : Statement .leaseLapse := of_none rfl
theorem leaseExpiry : Statement .leaseExpiry := of_none rfl
theorem takeover : Statement .takeover := of_none rfl
theorem waitTimeout : Statement .waitTimeout := of_none rfl
theorem leaseInEdge (at_ : W64) : Statement (.leaseInEdge at_) := of_none rfl
theorem wireSilent : Statement .wireSilent := of_none rfl
theorem twinLinkChange (lane : Nat) (up : Bool) : Statement (.twinLinkChange lane up) := of_none rfl
theorem renew (h : JHead) (b : W64) (t1 : W64) (act : Byte) (t3 t4 : W64) (t2 : W64) : Statement (.renew h b t1 act t3 t4 t2) := of_none rfl
theorem commitRecord (h : JHead) (miss : Bool) (c : Nat) (e digest : W32) (tiles : List W32) : Statement (.commitRecord h miss c e digest tiles) := of_none rfl
theorem changeRecord (h : JHead) (id : W32) (ctx : Nat) (tmode : Byte) (value version : W32) (target : W64) : Statement (.changeRecord h id ctx tmode value version target) := of_none rfl
theorem regw (h : JHead) (off : Nat) (v : W32) (fn : Nat) (task : Option TaskRef) : Statement (.regw h off v fn task) := of_none rfl
theorem cmdRecord (h : JHead) (entry : List W32) (cpl : List W32) : Statement (.cmdRecord h entry cpl) := of_none rfl
theorem memw (h : JHead) (addr4 : W64) (data : List Byte) : Statement (.memw h addr4 data) := of_none rfl
theorem layerRecord (h : JHead) (last : Bool) (layer : Nat) (version buf off : W32) (data : List Byte) : Statement (.layerRecord h last layer version buf off data) := of_none rfl
theorem epstate (h : JHead) (e : Nat) (status : List W32) (strings : W64) : Statement (.epstate h e status strings) := of_none rfl
theorem handover (h : JHead) (b : W64) : Statement (.handover h b) := of_none rfl
theorem copyRecord (h : JHead) (last : Bool) (kind : W32) (index : W64) (data : List Byte) : Statement (.copyRecord h last kind index data) := of_none rfl
theorem copyEnd (h : JHead) (cpos : W32) : Statement (.copyEnd h cpos) := of_none rfl
theorem ack (h : JHead) (jseq : W32) (role : Byte) (diverged : Bool) (t2 t3 t4 : W64) : Statement (.ack h jseq role diverged t2 t3 t4) := of_none rfl
theorem copySend : Statement .copySend := of_none rfl
theorem shadowWaitExpire : Statement .shadowWaitExpire := of_none rfl
theorem resign (fn : Nat) : Statement (.resign fn) := of_none rfl
theorem assume (fn : Nat) : Statement (.assume fn) := of_none rfl
theorem resync (fn : Nat) : Statement (.resync fn) := of_none rfl
theorem leaveSafe (fn : Nat) : Statement (.leaveSafe fn) := of_none rfl
theorem twinEnWrite (fn : Nat) (v : W32) : Statement (.twinEnWrite fn v) := of_none rfl
theorem modeReqShow (fn : Nat) : Statement (.modeReqShow fn) := of_none rfl
theorem modeReqIdle (fn : Nat) : Statement (.modeReqIdle fn) := of_none rfl
theorem modeReqTest (fn : Nat) : Statement (.modeReqTest fn) := of_none rfl
theorem modeReqSleep (fn : Nat) : Statement (.modeReqSleep fn) := of_none rfl
theorem modeReqSafe (fn : Nat) : Statement (.modeReqSafe fn) := of_none rfl
theorem modeTransitionDone : Statement .modeTransitionDone := of_none rfl
theorem holdEnWrite (fn : Nat) (v : W32) : Statement (.holdEnWrite fn v) := of_none rfl
theorem hbmSelfRefresh : Statement .hbmSelfRefresh := of_none rfl
theorem softRst (fn : Nat) : Statement (.softRst fn) := of_none rfl
theorem powerOn : Statement .powerOn := of_none rfl
theorem aonRstN : Statement .aonRstN := of_none rfl
theorem sysRstN : Statement .sysRstN := of_none rfl
theorem resetRelease (bootMode : BitVec 2) (rails : BitVec 9) : Statement (.resetRelease bootMode rails) := of_none rfl
theorem railFault (rail : Nat) : Statement (.railFault rail) := of_none rfl
theorem refClockLoss (input : Nat) (lost : Bool) : Statement (.refClockLoss input lost) := of_none rfl
theorem avsCommand (acked : Bool) : Statement (.avsCommand acked) := of_none rfl
theorem dieTempCross (temp : Byte) : Statement (.dieTempCross temp) := of_none rfl
theorem wakeSource (src : Nat) : Statement (.wakeSource src) := of_none rfl
theorem slowAlarm : Statement .slowAlarm := of_none rfl
theorem slowLoRead (fn : Nat) : Statement (.slowLoRead fn) := of_none rfl
theorem bootGo (fn : Nat) : Statement (.bootGo fn) := of_none rfl
theorem bootImageCheck (flash : Option FlashRead) : Statement (.bootImageCheck flash) := of_none rfl
theorem bistBlockDone (b : Nat) (ranToEnd signatureOk countOk : Bool) : Statement (.bistBlockDone b ranToEnd signatureOk countOk) := of_none rfl
theorem shutdownRun (fn : Nat) : Statement (.shutdownRun fn) := of_none rfl
theorem stop (fn : Nat) : Statement (.stop fn) := of_none rfl
theorem rotStepStart : Statement .rotStepStart := of_none rfl
theorem rotClusterDrained : Statement .rotClusterDrained := of_none rfl
theorem rotDrainTimeout : Statement .rotDrainTimeout := of_none rfl
theorem otpGo (fn : Nat) : Statement (.otpGo fn) := of_none rfl
theorem lcReq (fn : Nat) (v : W32) : Statement (.lcReq fn v) := of_none rfl
theorem calWrite (fn off : Nat) (v : W32) : Statement (.calWrite fn off v) := of_none rfl
theorem cntLoRead (fn n : Nat) : Statement (.cntLoRead fn n) := of_none rfl
theorem cntSnap (fn : Nat) : Statement (.cntSnap fn) := of_none rfl
theorem rcRead (fn : Nat) (sp : Space) (off size : Nat) (setting : W32) (other : Option (Nat × Option W32)) : Statement (.rcRead fn sp off size setting other) := of_none rfl
theorem tagSample (core : Nat) (stall : BitVec 16) (cause : Byte) (paired predOff : Bool) : Statement (.tagSample core stall cause paired predOff) := of_none rfl
theorem bwWindowEnd (p : Nat) : Statement (.bwWindowEnd p) := of_none rfl
theorem ringDmaFault (r : Nat) : Statement (.ringDmaFault r) := of_none rfl
theorem fillCopyComplete (c : Nat) : Statement (.fillCopyComplete c) := of_none rfl
theorem ref10Return (at_ : W64) : Statement (.ref10Return at_) := of_none rfl
theorem hbmStackTempCross (above : Bool) : Statement (.hbmStackTempCross above) := of_none rfl

end Sys2Proof.Laws.RoundTrip
end

