-- ==== Sys2Proof/Laws/Pixels.lean ====
section
/-!
SUPPORT. What the provers need of the pixel operations.
-/

namespace Sys2Proof.Machine

theorem group_of {s : State} {k : Nat} {t : Task} (h : Ready s k t) {i : Instr} {f : F} {us : Use} {l : Bool} {val : Task → Nat → Nat → Nat}
    {v : Nat → Nat → Nat} (hl : l = true) (hd : f.d.toNat % 4 = 0) (hx : exec i s = .next (groupOp k f us l val s))
    (hv : ∀ n, val (counted n us t) = v) : WritesGroup s t i f f.d.toNat v := by
  refine writesGroup_of h (u := us) (g := fun t => writeGroup f f.d.toNat (val t) t) ?_ (fun n => by rw [hv n])
  rw [hx]; unfold groupOp
  rw [show (l && isGroup f.d) = true by simp [hl, isGroup, hd]]

theorem divEven_mul (n : Nat) : divEven (n * 65535) 65535 = n := by
  unfold divEven; simp

theorem pxMul_one (a : Nat) : pxMul a 65535 = a := divEven_mul a

theorem pxMul_zero (a : Nat) : pxMul a 0 = 0 := by unfold pxMul divEven; simp

theorem chan_lt (t : Task) (r ch i : Nat) : chan t r ch i < 65536 := Nat.mod_lt _ (by decide)

theorem near (n : Nat) : 2 * (divEven n 65535 * 65535) ≤ 2 * n + 65535 ∧ 2 * n ≤ 2 * (divEven n 65535 * 65535) + 65535 := by
  unfold divEven
  simp only
  split
  · omega
  · split <;> omega

theorem opq (a b : Nat) (ha : a < 65536) (hb : b < 65536) (h : pxMul a b = 65535) : a = 65535 := by
  unfold pxMul at h
  have := (near (a * b)).1
  rw [h] at this
  by_contra hne
  have h1 : a ≤ 65534 := by omega
  have : a * b ≤ 65534 * 65535 := Nat.mul_le_mul h1 (by omega)
  omega

theorem toU8_lt (c : Nat) (h : c < 65536) : toU8 c < 256 := by unfold toU8; omega

end Sys2Proof.Machine
end

