-- ==== Sys2Proof/Laws/RingRegisters.lean ====
section
/-!
SUPPORT. Ring registers: enabling, TAIL and HEAD, the flush, what waits for a completion ring, and DMA faults.
-/

namespace Sys2Proof.Machine


theorem ring_plain {r : Nat} (hr : r < 64) (q : RegId) (hq : q = .ringCtrl ∨ q = .ringTail ∨ q = .ringHead) : journaled (q.off r 0) = false := by
  rcases hq with rfl | rfl | rfl <;> simp [RegId.off, RegId.desc, journaled] <;> omega

theorem withBits_same {n lo : Nat} (h : n / 2 ^ lo % 2 = 0) : withBits n lo 1 0 = n := by
  have : bitsOf n lo 1 = 0 := h
  simp [withBits, this]

theorem ringFits_congr {a b : State} (h1 : ∀ q, rd a .ringCtrl q 0 = rd b .ringCtrl q 0) (h2 : ∀ q, rd a .ctxCpl q 0 = rd b .ctxCpl q 0)
    (h3 : a.hst = b.hst) (r : Nat) : ringFits a r = ringFits b r := by
  have e : ∀ (f : Fld) q, f.reg = .ringCtrl → get a f q 0 = get b f q 0 := fun f q hf => by
    obtain ⟨_, _, _⟩ := f; dsimp only at hf; subst hf; exact get_of_rd (h1 q)
  have e2 : ∀ (f : Fld) q, f.reg = .ctxCpl → get a f q 0 = get b f q 0 := fun f q hf => by
    obtain ⟨_, _, _⟩ := f; dsimp only at hf; subst hf; exact get_of_rd (h2 q)
  unfold ringFits cplFits pcieFn cplNamed ctxBound ringRuns on
  simp only [e fld.ringCtrl.KIND _ rfl, e fld.ringCtrl.FN _ rfl, e fld.ringCtrl.LOG2SZ _ rfl, e fld.ringCtrl.CPL _ rfl, e fld.ringCtrl.EN _ rfl, h3,
    e2 fld.ctxCpl.EN _ rfl, e2 fld.ctxCpl.RING _ rfl]

/-- Raising EV_SUPPLY touches no register but those of rings and the host status. -/
theorem rd_pay (s : State) (q : RegId) (i j : Nat) (h1 : q ≠ .ringTail) (h2 : q ≠ .ringStatus) (h3 : q ≠ .hostStatus) :
    rd (paySupplyEvent s) q i j = rd s q i j := by
  unfold paySupplyEvent
  split
  · exact (rd_raise _ _ _ _ _ _ h1 h2 h3).trans (rd_congr rfl _ _ _)
  · rfl

/-- EN of a ring takes the value written. -/
theorem ring_en (pf : Bool) (r : Nat) (w : W32) (s : State) : on (plainWrite pf .ringCtrl r 0 w s) fld.ringCtrl.EN r = w.getLsbD 0 := by
  have h : (rd (plainWrite pf .ringCtrl r 0 w s) .ringCtrl r 0).getLsbD 0 = w.getLsbD 0 := by
    unfold plainWrite
    rw [rd_wr_same]
    have := mergeWrite_bit s (if pf then 0 else 1) .ringCtrl r 0 w 0 (by decide)
    have e : isPf (if pf then 0 else 1) = pf := by cases pf <;> rfl
    rw [e] at this
    rw [this]
    have ab : absentBits s .ringCtrl r = 0 := rfl
    unfold bitWritten bitTaken
    rw [e, ab, if_pos]
    cases pf <;> cases unitOn s .ringCtrl r <;> decide
  unfold on get bitsOf
  show ((rd (plainWrite pf .ringCtrl r 0 w s) .ringCtrl r 0).toNat / 2 ^ 0 % 2 ^ 1 == 1) = _
  rw [← h, BitVec.getLsbD, Nat.testBit_zero]
  simp only [Nat.pow_zero, Nat.div_one, Nat.pow_one]
  rw [Bool.eq_iff_iff]; simp

theorem ring_enables {s : State} {r fn : Nat} {v : W32} (hr : r < 64) (h : Writable s fn .ringCtrl r 0) (h0 : on s fld.ringCtrl.EN r = false)
    (hv : v.toNat / 2 ^ 15 % 2 = 0) :
    (pcieFn s (v.toNat / 16 % 32) = true → ∀ u, u = plainWrite (isPf fn) .ringCtrl r 0 v s →
      on u fld.ringCtrl.EN r = true → ∃ t, exec (.ringEnable r fn v) s = .next t ∧
        on t fld.ringCtrl.EN r = ringFits u r ∧ on t fld.ringCtrl.ERR r = !ringFits u r ∧
        ∀ f ∈ [fld.ringCtrl.KIND, fld.ringCtrl.FN, fld.ringCtrl.LOG2SZ, fld.ringCtrl.CPL], get t f r = get u f r) ∧
    (pcieFn s (v.toNat / 16 % 32) = false → isPf fn = true → v.toNat % 2 = 1 → ∃ t, exec (.ringEnable r fn v) s = .next t ∧
        on t fld.ringCtrl.EN r = false ∧ on t fld.ringCtrl.ERR r = true) := by
  have ex : exec (.ringEnable r fn v) s = .next (paySupplyEvent (ringCtrlWrite (isPf fn) r v s)) := by
    show execRingEnable r fn v s = _
    unfold execRingEnable
    rw [if_neg (by omega), hostWrite_plain h (ring_plain hr _ (.inl rfl))]
  have pay : ∀ x (f : Fld), f.reg = .ringCtrl → get (paySupplyEvent x) f r = get x f r := fun x f hf => by
    refine get_of_rd ?_
    rw [hf]; exact rd_pay _ _ _ _ (by decide) (by decide) (by decide)
  have payOn : ∀ x (f : Fld), f.reg = .ringCtrl → on (paySupplyEvent x) f r = on x f r := fun x f hf => by
    unfold on; rw [pay x f hf]
  have bad : ∀ x, on (ringErr r (put fld.ringCtrl.ERR 1 (put fld.ringCtrl.EN 0 x r) r)) fld.ringCtrl.EN r = false ∧
      on (ringErr r (put fld.ringCtrl.ERR 1 (put fld.ringCtrl.EN 0 x r) r)) fld.ringCtrl.ERR r = true := by
    intro x
    unfold ringErr
    refine ⟨?_, ?_⟩
    · rw [on_raise _ _ _ _ _ _ (by decide) (by decide) (by decide), on_put_fld _ _ _ _ _ _ (by rfl) (by decide) (by decide), on_put_same _ _ _ _ _ (by decide) (by decide)]
      rfl
    · rw [on_raise _ _ _ _ _ _ (by decide) (by decide) (by decide), on_put_same _ _ _ _ _ (by decide) (by decide)]
      rfl
  refine ⟨fun hp u hu he => ⟨_, ex, ?_⟩, fun hp hf hb => ⟨_, ex, ?_⟩⟩
  · rw [payOn _ _ rfl, payOn _ _ rfl]
    suffices k : on (ringCtrlWrite (isPf fn) r v s) fld.ringCtrl.EN r = ringFits u r ∧
        on (ringCtrlWrite (isPf fn) r v s) fld.ringCtrl.ERR r = !ringFits u r ∧
        ∀ f ∈ [fld.ringCtrl.KIND, fld.ringCtrl.FN, fld.ringCtrl.LOG2SZ, fld.ringCtrl.CPL],
          get (ringCtrlWrite (isPf fn) r v s) f r = get u f r by
      refine ⟨k.1, k.2.1, fun f hf => ?_⟩
      rw [pay _ _ (by simp only [List.mem_cons, List.not_mem_nil, or_false] at hf; rcases hf with rfl | rfl | rfl | rfl <;> rfl)]
      exact k.2.2 f hf
    unfold ringCtrlWrite
    dsimp only
    rw [hv, if_neg (by decide), hp]
    simp only [Bool.not_true, Bool.and_false, Bool.false_eq_true, if_false, Bool.not_false, Bool.true_and]
    rw [withBits_same hv, BitVec.ofNat_toNat, BitVec.setWidth_eq, ← hu, h0, he, if_pos (by rfl)]
    cases hf : ringFits u r
    · rw [if_neg (by simp)]
      refine ⟨(bad u).1, (bad u).2, fun f hf' => ?_⟩
      unfold ringErr
      simp only [List.mem_cons, List.not_mem_nil, or_false] at hf'
      rcases hf' with rfl | rfl | rfl | rfl <;>
      rw [get_raise _ _ _ _ _ _ (by decide) (by decide) (by decide), get_put_fld _ _ _ _ _ _ (by rfl) (by decide) (by decide), get_put_fld _ _ _ _ _ _ (by rfl) (by decide) (by decide)]
    · rw [if_pos rfl]
      refine ⟨?_, ?_, ?_⟩
      · rw [on_put_fld _ _ _ _ _ _ (by rfl) (by decide) (by decide)]; exact he
      · rw [on_put_same _ _ _ _ _ (by decide) (by decide)]
        rfl
      · intro f hf'
        simp only [List.mem_cons, List.not_mem_nil, or_false] at hf'
        rcases hf' with rfl | rfl | rfl | rfl <;>
        rw [get_put_fld _ _ _ _ _ _ (by rfl) (by decide) (by decide)]
  · rw [payOn _ _ rfl, payOn _ _ rfl]
    unfold ringCtrlWrite
    dsimp only
    rw [hv, if_neg (by decide), hp, hf]
    simp only [Bool.not_false, Bool.and_true, if_true, Bool.not_true, Bool.false_and, Bool.false_eq_true, if_false]
    rw [ring_en, h0, if_pos]
    · exact bad _
    · rw [Bool.not_false, Bool.true_and, BitVec.getLsbD_ofNat]
      have e1 : bitsOf (withBits (withBits v.toNat 4 5 (get s fld.ringCtrl.FN r)) 15 1 0) 0 1 = bitsOf v.toNat 0 1 := by
        rw [bitsOf_withBits_below _ _ _ _ _ _ (by decide), bitsOf_withBits_below _ _ _ _ _ _ (by decide)]
      rw [Nat.testBit_zero]
      unfold bitsOf at e1
      simp only [Nat.pow_zero, Nat.div_one, Nat.pow_one] at e1
      simp [e1, hb]

theorem posted_set (r : Nat) (q : List RxPost) (s : State) : postedOn (setPosted r q s) r = q := map_get_put_same _ _ _ _

theorem tail_writes {s : State} {r fn : Nat} {v : W32} (hr : r < 64) (h : Writable s fn .ringTail r 0) (hd : deviceProduces s r = false)
    (posted : List RxPost) (x added : Nat) (hx : x = v.toNat % 65536)
    (ha : added = (x + ringSize s r - get s fld.ringTail.TAIL r) % ringSize s r) :
      ∃ t, exec (.ringTailWrite r fn v posted) s = .next t ∧
        (x < ringSize s r → ringOcc s r + added < ringSize s r →
          get t fld.ringTail.TAIL r = x ∧
          (get s fld.ringCtrl.KIND r = 3 → postedOn t r = postedOn s r ++ posted.take added) ∧
          (crosses (ringOcc s r) (ringOcc s r + added) (get s fld.ringLevel.RING_LEVEL r) = true →
            hasBit t fld.ringStatus.RING_STATUS 0 r = true)) ∧
        (ringSize s r ≤ x ∨ ringSize s r ≤ ringOcc s r + added → get t fld.ringTail.TAIL r = get s fld.ringTail.TAIL r) := by
  have ex : exec (.ringTailWrite r fn v posted) s = .next (ringTailEffect r v posted s) := by
    show execRingTailWrite r fn v posted s = _
    unfold execRingTailWrite
    rw [if_neg (by omega), hostWrite_plain h (ring_plain hr _ (.inr (.inl rfl)))]
  have hk2 : get s fld.ringCtrl.KIND r ≠ 2 := by
    intro e; unfold deviceProduces at hd; rw [e] at hd; simp at hd
  refine ⟨_, ex, ?_, ?_⟩
  · intro h1 h2
    unfold ringTailEffect
    dsimp only
    rw [hd, if_neg (by simp), ← hx, ← ha, if_neg (by simp; omega)]
    have k1 : get (put fld.ringTail.TAIL x s r) fld.ringCtrl.KIND r = get s fld.ringCtrl.KIND r := get_put_reg _ _ _ _ _ _ _ _ (by decide)
    have k2 : get (put fld.ringTail.TAIL x s r) fld.ringTail.TAIL r = x := by
      rw [get_put_same _ _ _ _ _ (by decide)]; exact Nat.mod_eq_of_lt (by rw [hx]; exact Nat.mod_lt _ (by decide))
    have k3 : get (put fld.ringTail.TAIL x s r) fld.ringLevel.RING_LEVEL r = get s fld.ringLevel.RING_LEVEL r := get_put_reg _ _ _ _ _ _ _ _ (by decide)
    have k4 : postedOn (put fld.ringTail.TAIL x s r) r = postedOn s r := rfl
    rw [k1]
    generalize put fld.ringTail.TAIL x s r = u at k1 k2 k3 k4 ⊢
    have kk : ∀ w, w = (if get s fld.ringCtrl.KIND r = 3 then setPosted r (postedOn u r ++ posted.take added) u else u) →
        get w fld.ringTail.TAIL r = x ∧ get w fld.ringLevel.RING_LEVEL r = get s fld.ringLevel.RING_LEVEL r ∧
        get w fld.ringCtrl.KIND r ≠ 2 ∧
        (get s fld.ringCtrl.KIND r = 3 → postedOn w r = postedOn s r ++ posted.take added) := by
      intro w hw
      by_cases hk : get s fld.ringCtrl.KIND r = 3
      · rw [if_pos hk, k4] at hw
        have er : w.regs = u.regs := by rw [hw]; rfl
        refine ⟨(get_congr er _ _ _).trans k2, (get_congr er _ _ _).trans k3, ?_, fun _ => ?_⟩
        · rw [get_congr er, k1]; exact hk2
        · rw [hw]; exact posted_set _ _ _
      · rw [if_neg hk] at hw
        subst hw
        exact ⟨k2, k3, by rw [k1]; exact hk2, fun a => absurd a hk⟩
    obtain ⟨w1, w2, w3, w4⟩ := kk _ rfl
    generalize (if get s fld.ringCtrl.KIND r = 3 then setPosted r (postedOn u r ++ posted.take added) u else u) = w at w1 w2 w3 w4 ⊢
    rw [w2]
    split
    · have e1 : get (raise 0 r (setBit fld.ringStatus.RING_STATUS 0 w r)) fld.ringTail.TAIL r = x := by
        rw [← w1]
        refine get_of_rd (f := fld.ringTail.TAIL) ((raise_tail _ _ _ _ ?_).trans (setBit_status_tail _ _ _ _))
        rw [(eventOnly_status 0 w r).kind]; exact w3
      refine ⟨e1, fun a => ?_, fun _ => ?_⟩
      · rw [← w4 a]
        obtain ⟨e, m, p, q, hh⟩ := raise_host 0 r (setBit fld.ringStatus.RING_STATUS 0 w r)
        unfold postedOn
        rw [hh]
        rfl
      · exact raise_keeps _ _ _ _ _ (hasBit_setBit _ _ _ _ _ (by decide) (by decide))
    · rename_i hc
      exact ⟨w1, w4, fun a => absurd a (by simpa using hc)⟩
  · intro h1
    unfold ringTailEffect
    dsimp only
    rw [hd, if_neg (by simp), ← hx, ← ha, if_pos (by simp; omega)]
    exact get_of_rd (f := fld.ringTail.TAIL) (raise_tail _ _ _ _ hk2)

theorem head_writes {s : State} {r fn : Nat} {v : W32} (hr : r < 64) (h : Writable s fn .ringHead r 0) (hd : deviceProduces s r = true)
    (x : Nat) (hx : x = v.toNat % 65536) :
      ∃ t, exec (.ringHeadWrite r fn v) s = .next t ∧ get t fld.ringHead.HEAD r =
        if x < ringSize s r ∧ (x + ringSize s r - get s fld.ringHead.HEAD r) % ringSize s r ≤ ringOcc s r then x
        else get s fld.ringHead.HEAD r := by
  have ex : exec (.ringHeadWrite r fn v) s = .next (ringHeadEffect r v s) := by
    show execRingHeadWrite r fn v s = _
    unfold execRingHeadWrite
    rw [if_neg (by omega), hostWrite_plain h (ring_plain hr _ (.inr (.inr rfl)))]
  refine ⟨_, ex, ?_⟩
  unfold ringHeadEffect ringErr
  dsimp only
  rw [hd, if_neg (by simp), ← hx]
  split
  · rename_i c
    rw [if_neg (by simp at c; omega), get_raise _ _ _ _ _ _ (by decide) (by decide) (by decide)]
  · rename_i c
    rw [if_pos (by simp at c; omega), get_put_same _ _ _ _ _ (by decide)]
    exact Nat.mod_eq_of_lt (by rw [hx]; exact Nat.mod_lt _ (by decide))

theorem ring_flushes {s : State} {r fn : Nat} (hr : r < 64) (h : Writable s fn .ringCtrl r 0) : ∃ t, exec (.ringFlush r fn) s = .next t ∧
      get t fld.ringCtrl.FLUSH r = if deviceProduces s r then get s fld.ringCtrl.FLUSH r else 1 := by
  have ex : exec (.ringFlush r fn) s = .next (flushWrite r s) := by
    show execRingFlush r fn s = _
    unfold execRingFlush
    rw [if_neg (by omega), hostWrite_plain h (ring_plain hr _ (.inl rfl))]
  refine ⟨_, ex, ?_⟩
  unfold flushWrite
  cases deviceProduces s r
  · rw [if_neg (by simp), if_neg (by simp), get_put_same _ _ _ _ _ (by decide)]; rfl
  · rw [if_pos rfl, if_pos rfl]

theorem posted_writeBack (r w2 w3 : Nat) (ts : W64) (frac flen : Nat) (s : State) :
    postedOn (rxWriteBack r w2 w3 ts frac flen s) r = (postedOn s r).drop 1 := by
  unfold rxWriteBack
  exact map_get_put_same _ _ _ _

theorem posted_flush (r n : Nat) (s : State) : postedOn (rxFlush r n s) r = (postedOn s r).drop n := by
  induction n generalizing s with
  | zero => rfl
  | succ n ih =>
    unfold rxFlush
    rw [ih, posted_writeBack, List.drop_drop, Nat.add_comm]

theorem flush_completes {s : State} {r : Nat} (hr : r < 64) (h1 : on s fld.ringCtrl.FLUSH r = true) (h2 : ringStarted s r = false) :
      (get s fld.ringCtrl.KIND r = 3 → ∀ heads, ∃ t, exec (.flushComplete r heads) s = .next t ∧
        on t fld.ringCtrl.FLUSH r = false ∧ postedOn t r = (postedOn s r).drop (ringOcc s r)) ∧
      (get s fld.ringCtrl.KIND r ≠ 3 → ∀ heads : List FlushedEntry, (heads.map (fun x => x.span)).sum = ringOcc s r →
        ∃ t, exec (.flushComplete r heads) s = .next t ∧ on t fld.ringCtrl.FLUSH r = false ∧
          get t fld.ringHead.HEAD r = get t fld.ringTail.TAIL r) := by
  refine ⟨fun hk heads => ?_, fun hk heads hs => ?_⟩
  · refine ⟨put fld.ringCtrl.FLUSH 0 (rxFlush r (ringOcc s r) s) r, ?_, ?_, ?_⟩
    · show execFlushComplete r heads s = _
      unfold execFlushComplete
      rw [if_neg (by simp [h1, h2]; omega), if_pos hk]
    · rw [on_put_same _ _ _ _ _ (by decide) (by decide)]; rfl
    · exact posted_flush r _ s
  · generalize hu : forEach heads (flushEntry r) (forEach (List.range 32) (dropRingFrames r) (dropHeld r s)) = u
    refine ⟨put fld.ringCtrl.FLUSH 0 (put fld.ringHead.HEAD (get u fld.ringTail.TAIL r) u r) r, ?_, ?_, ?_⟩
    · show execFlushComplete r heads s = _
      unfold execFlushComplete
      rw [if_neg (by simp [h1, h2]; omega), if_neg hk, if_neg (by simp [hs])]
      dsimp only
      rw [hu]
    · rw [on_put_same _ _ _ _ _ (by decide) (by decide)]; rfl
    · rw [get_put_reg _ _ _ _ _ _ _ _ (by decide), get_put_same _ _ _ _ _ (by decide), get_put_reg _ _ _ _ _ _ _ _ (by decide),
        get_put_reg _ _ _ _ _ _ _ _ (by decide)]
      exact Nat.mod_eq_of_lt (get_lt u fld.ringTail.TAIL r 0)

/-- A record written with a word that fails its parity marks its ring. -/
theorem ringProduce_poisons (r : Nat) (ws : List W32) (s : State) (h : parityOf s r ≠ 0) :
    hasBit (ringProduce r ws s) fld.ringStatus.RING_STATUS 2 r = true := by
  have h1 : hasBit (ringAppend r ws s) fld.ringStatus.RING_STATUS 2 r = true := by
    refine (hasBit_rd (f := fld.ringStatus.RING_STATUS) ((rd_congr (ringAppend_regs _ _ _) _ _ _).trans (rd_wr_reg (by decide) _ _ _ _ _ _)) 2).trans ?_
    unfold judgeParity
    rw [if_neg h]
    exact hasBit_setBit _ _ _ _ _ (by decide) (by decide)
  unfold ringProduce
  extract_lets x y
  have h2 : hasBit y fld.ringStatus.RING_STATUS 2 r = true := by
    unfold y
    split
    · exact raise_keeps _ _ _ _ _ (setBit_keeps _ _ _ _ _ _ (by decide) h1)
    · exact h1
  rw [if_neg h]
  exact raise_keeps _ _ _ _ _ h2

theorem producer_resumes {s : State} {r : Nat} (fn : Nat) (ws : List W32) (bad : Byte) (h : cplTakes s r fn = true)
    (hw : s.hst.cplWait = [.record r fn ws]) (ht : ∀ u ∈ allTasks s, u.finishing = none) :
      ∃ t, exec (.producerResume r bad) s = .next t ∧ t.hst.cplWait = [] ∧
        get t fld.ringTail.TAIL r = (get s fld.ringTail.TAIL r + 1) % ringSize s r % 65536 ∧
        (bad ≠ 0 → hasBit t fld.ringStatus.RING_STATUS 2 r = true) := by
  have hrun : ringRuns s r 1 = true := by
    unfold cplTakes at h; simp only [Bool.and_eq_true] at h; exact h.1.1
  have hk : get s fld.ringCtrl.KIND r = 1 := by
    unfold ringRuns at hrun; simp only [Bool.and_eq_true, beq_iff_eq] at hrun; exact hrun.2
  generalize ha : ({ s with hst := { s.hst with parity := Map.set (fun _ => 0) s.hst.parity r bad, cplWait := [] } } : State) = a
  have hr : resumeTasks r (ringProduce r ws a) = ringProduce r ws a := by
    unfold resumeTasks
    have : allTasks (ringProduce r ws a) = allTasks s := by
      have e := (eventOnly_ringProduce r ws a).frame
      generalize ringProduce r ws a = z at e ⊢
      rw [e, ← ha]; rfl
    rw [this]
    have nil : ∀ f : Task → Bool, (∀ u ∈ allTasks s, f u = false) → (allTasks s).filter f = [] := fun f hf => by
      rw [List.filter_eq_nil_iff]; intro u hu; rw [hf u hu]; simp
    rw [nil _ (fun u hu => by rw [ht u hu]; rfl)]
    rfl
  refine ⟨ringProduce r ws a, ?_, ?_, ?_, fun hb => ?_⟩
  · show execProducerResume r bad s = _
    unfold execProducerResume
    dsimp only
    rw [if_neg (by show ¬(!ringRuns s r 1) = true; rw [hrun]; simp), hw, ha]
    unfold forEach
    rw [List.foldl_cons, List.foldl_nil]
    unfold resumeOne
    have : cplTakes a r fn = cplTakes s r fn := by rw [← ha]; rfl
    dsimp only
    rw [this, h, if_pos (by simp), hr]
  · have e := (eventOnly_ringProduce r ws a).frame
    generalize ringProduce r ws a = z at e ⊢
    rw [e, ← ha]
  · have e0 : get a fld.ringCtrl.KIND r = 1 := by rw [← ha]; exact hk
    rw [ringProduce_tail r ws a (by rw [e0]; decide), ← ha]
    rfl
  · refine ringProduce_poisons r ws a ?_
    have : parityOf a r = bad := by
      rw [← ha]
      exact map_get_set_same _ _ _ _
    rw [this]; exact hb

theorem ring_faults {s : State} {r : Nat} (hr : r < 64) (h : on s fld.ringCtrl.EN r = true) :
    ∃ t, exec (.ringDmaFault r) s = .next t ∧ on t fld.ringCtrl.EN r = false ∧
      hasBit t fld.ringStatus.RING_STATUS 3 r = true ∧
      counter t Cnt.dmaFault.ctorIdx = counter s Cnt.dmaFault.ctorIdx + 1 := by
  refine ⟨raise 9 r (setBit fld.ringStatus.RING_STATUS 3 (put fld.ringCtrl.EN 0 (bump .dmaFault s) r) r), ?_, ?_, ?_, ?_⟩
  · show execRingDmaFault r s = _
    unfold execRingDmaFault
    rw [if_neg (by simp [h]; omega)]
  · rw [on_raise _ _ _ _ _ _ (by decide) (by decide) (by decide)]
    unfold on setBit
    rw [get_put_reg _ _ _ _ _ _ _ _ (by decide), get_put_same _ _ _ _ _ (by decide)]
    rfl
  · exact raise_keeps _ _ _ _ _ (hasBit_setBit _ _ _ _ _ (by decide) (by decide))
  · rw [counter_raise _ _ _ _ (by decide) (by decide)]
    exact counter_bump_same .dmaFault s

end Sys2Proof.Machine
end

