-- ==== Sys2Proof/Laws/Scalar.lean ====
section
/-!
SUPPORT. What the provers need of the scalar operations against the arithmetic of the rules.
-/

namespace Sys2Proof.Machine

theorem tbl_alu2 {s : State} {k : Nat} {t : Task} (h : Ready s k t) {i : Instr} {f : F} {cyc : Nat}
    {g : W32 → W32 → W32} {v : W32} (he : Enabled t f) (hz : f.imm = 0) (hx : exec i s = .next (alu2 k f cyc g s))
    (hv : g (sreg t f.a) (sreg t f.b) = v) : WritesScalar s t i f.d v := by
  refine writesScalar_of h he (u := sUse cyc f [regS f.a, regS f.b]) (val := fun t => g (sreg t f.a) (sreg t f.b)) ?_ (fun n => by simpa using hv)
  rw [hx]; unfold alu2; rw [show immZero f = true by simp [immZero, hz]]

theorem tbl_alu3 {s : State} {k : Nat} {t : Task} (h : Ready s k t) {i : Instr} {f : F} {c : BitVec 5}
    {g : W32 → W32 → W32 → W32} {v : W32} (he : Enabled t f) (hc : f.imm = c.setWidth 32) (hx : exec i s = .next (alu3 k f g s))
    (hv : g (sreg t f.a) (sreg t f.b) (sreg t c) = v) : WritesScalar s t i f.d v := by
  have hcf : cField f = c := by
    unfold cField; rw [hc]; apply BitVec.eq_of_toNat_eq; simp
    omega
  have hl : immC f = true := by
    unfold immC; rw [hc]; simp; omega
  refine writesScalar_of h he (u := sUse 1 f [regS f.a, regS f.b, regS (cField f)])
    (val := fun t => g (sreg t f.a) (sreg t f.b) (sreg t (cField f))) ?_ (fun n => by simpa [hcf] using hv)
  rw [hx]; unfold alu3; rw [hl]

theorem tbl_imm {s : State} {k : Nat} {t : Task} (h : Ready s k t) {i : Instr} {f : F} {l : Bool}
    {g : W32 → W32 → W32} {v : W32} (he : Enabled t f) (hb : f.b = 0) (hl : l = true) (hx : exec i s = .next (aluImm k f l g s))
    (hv : g (sreg t f.a) f.imm = v) : WritesScalar s t i f.d v := by
  refine writesScalar_of h he (u := sUse 1 f [regS f.a]) (val := fun t => g (sreg t f.a) f.imm) ?_ (fun n => by simpa using hv)
  rw [hx]; unfold aluImm; rw [hl]; simp [hb]

theorem mulHi_eq (a b : W32) : mulHi a b = (a.signExtend 64 * b.signExtend 64).extractLsb' 32 32 := by
  unfold mulHi
  apply BitVec.eq_of_toInt_eq
  have ha := BitVec.le_toInt a; have ha2 := BitVec.toInt_lt (x := a)
  have hb := BitVec.le_toInt b; have hb2 := BitVec.toInt_lt (x := b)
  have hp : (a.signExtend 64 * b.signExtend 64).toInt = a.toInt * b.toInt := by
    rw [BitVec.toInt_mul, BitVec.toInt_signExtend_of_le (by omega), BitVec.toInt_signExtend_of_le (by omega)]
    rw [Int.bmod_eq_of_le] <;> norm_num at * <;> nlinarith
  have : (a.signExtend 64 * b.signExtend 64).extractLsb' 32 32 = BitVec.ofInt 32 ((a.signExtend 64 * b.signExtend 64).toInt / 4294967296) := by
    apply BitVec.eq_of_toNat_eq
    generalize a.signExtend 64 * b.signExtend 64 = x
    simp [BitVec.extractLsb'_toNat, Nat.shiftRight_eq_div_pow, BitVec.toNat_ofInt]
    have := x.isLt
    rw [BitVec.toInt_eq_toNat_bmod]
    unfold Int.bmod
    norm_num
    split <;> omega
  rw [this, hp]

theorem mulHiU_eq (a b : W32) : mulHiU a b = (a.setWidth 64 * b.setWidth 64).extractLsb' 32 32 := by
  unfold mulHiU
  apply BitVec.eq_of_toNat_eq
  have ha := a.isLt
  have hb := b.isLt
  have h1 : a.toNat * b.toNat < 2^64 := by nlinarith
  simp [BitVec.extractLsb'_toNat, Nat.shiftRight_eq_div_pow]
  rw [Nat.mod_eq_of_lt (a := _ * _) (b := 18446744073709551616) (by omega)]

theorem shl_eq (a : W32) (n : Nat) : a <<< n = BitVec.ofNat 32 (a.toNat * 2^n) := by
  apply BitVec.eq_of_toNat_eq; simp [Nat.shiftLeft_eq]

theorem shr_eq (a : W32) (n : Nat) : a >>> n = BitVec.ofNat 32 (a.toNat / 2^n) := by
  apply BitVec.eq_of_toNat_eq; simp [Nat.shiftRight_eq_div_pow]
  have := a.isLt
  rw [Nat.mod_eq_of_lt]; exact lt_of_le_of_lt (Nat.div_le_self _ _) this

theorem sra_eq (a : W32) (n : Nat) : a.sshiftRight n = BitVec.ofInt 32 (a.toInt / 2^n) := by
  apply BitVec.eq_of_toInt_eq
  have e : a.toInt / 2 ^ n = (a.sshiftRight n).toInt := by
    rw [BitVec.toInt_sshiftRight, Int.shiftRight_eq_div_pow]; norm_cast
  rw [e, BitVec.ofInt_toInt]

theorem smin_eq (a b : W32) : sMin a b = BitVec.ofInt 32 (min a.toInt b.toInt) := by
  unfold sMin; apply BitVec.eq_of_toInt_eq
  rw [BitVec.slt_eq_decide]
  by_cases h : a.toInt < b.toInt
  · simp [h, min_eq_left h.le]
  · simp [h, min_eq_right (not_lt.mp h)]

theorem smax_eq (a b : W32) : sMax a b = BitVec.ofInt 32 (max a.toInt b.toInt) := by
  unfold sMax; apply BitVec.eq_of_toInt_eq
  rw [BitVec.slt_eq_decide]
  by_cases h : a.toInt < b.toInt
  · simp [h, max_eq_right h.le]
  · simp [h, max_eq_left (not_lt.mp h)]

theorem umin_eq (a b : W32) : uMin a b = BitVec.ofNat 32 (min a.toNat b.toNat) := by
  unfold uMin; apply BitVec.eq_of_toNat_eq
  rw [BitVec.ult_eq_decide]
  by_cases h : a.toNat < b.toNat
  · simp [h, min_eq_left h.le]
  · simp [h, min_eq_right (not_lt.mp h)]

theorem umax_eq (a b : W32) : uMax a b = BitVec.ofNat 32 (max a.toNat b.toNat) := by
  unfold uMax; apply BitVec.eq_of_toNat_eq
  rw [BitVec.ult_eq_decide]
  by_cases h : a.toNat < b.toNat
  · simp [h, max_eq_right h.le]
  · simp [h, max_eq_left (not_lt.mp h)]

theorem divEven_near (n : Nat) : 2 * (divEven n 65535 * 65535) < 2 * n + 65535 ∧ 2 * n < 2 * (divEven n 65535 * 65535) + 65535 := by
  unfold divEven
  simp only
  split
  · omega
  · split <;> omega

theorem tbl_pred {s : State} {k : Nat} {t : Task} (h : Ready s k t) {i : Instr} {f : F} {srcs : List Nat} {l : Bool} {val : Task → W16} {v : W16}
    (he : Enabled t f) (hz : f.imm = 0) (hl : l = true) (hd : f.d.toNat < 8) (hx : exec i s = .next (predOp k f srcs l val s))
    (hv : ∀ n u, val (counted n u t) = v) : WritesPredicate s t i f.d.toNat v := by
  refine writesPredicate_of h hd (u := ⟨1, 0, false, false, regP f.p.toNat :: srcs, [regP f.d.toNat]⟩)
    (g := fun t => if predRuns f.p (maskOf t f) then setP f.d.toNat (val t) t else t) ?_ ?_
  · rw [hx]; unfold predOp; simp [hl, immZero, hz, isPredF, hd]
  · intro n
    have : predRuns f.p (maskOf t f) = true := he
    simp [this, hv]

end Sys2Proof.Machine
end

