-- ==== Sys2Proof/Laws/Semaphores.lean ====
section
/-!
SUPPORT. Semaphores: what their reads, writes and leases do.
-/

namespace Sys2Proof.Machine

set_option Elab.async false

/-! ## Semaphores -/

/-- The claim of a free semaphore. -/
def semTake (n f : Nat) (s : State) : State :=
  semLease n (put fld.sem.EXPIRED 0 (put fld.sem.GEN (get s fld.sem.GEN n + 1) (put fld.sem.OWNER f (put fld.sem.HELD 1 s n) n) n) n)

theorem semRead_free {s : State} {n f : Nat} (h : on s fld.sem.HELD n = false) :
    semRead n f s = (semTake n f s, rd (semTake n f s) .sem n ||| 0x40) := by
  unfold semRead
  rw [h, if_pos (by simp)]
  rfl

theorem semRead_own {s : State} {n f : Nat} (h : on s fld.sem.HELD n = true) (ho : get s fld.sem.OWNER n = f) :
    semRead n f s = (semLease n (put fld.sem.EXPIRED 0 s n), rd (semLease n (put fld.sem.EXPIRED 0 s n)) .sem n) := by
  unfold semRead
  rw [h, if_neg (by simp), if_pos (by simp [ho])]

theorem semRead_other {s : State} {n f : Nat} (h : on s fld.sem.HELD n = true) (ho : get s fld.sem.OWNER n ≠ f) :
    semRead n f s = (s, rd s .sem n) := by
  unfold semRead
  rw [h, if_neg (by simp), if_neg (by simp [ho])]

theorem semLease_get (n : Nat) (s : State) (g : Fld) (i j : Nat) : get (semLease n s) g i j = get s g i j := rfl

theorem semLease_at (n : Nat) (s : State) : Map.get (fun _ => 0) (semLease n s).hst.semAt n = s.ot := map_get_put_same _ _ _ _

theorem semLease_tie (n : Nat) (s : State) : (semLease n s).hst.semTie = s.hst.semTie := rfl

theorem semTake_facts (n f : Nat) (s : State) (hf : f < 32) : on (semTake n f s) fld.sem.HELD n = true ∧ get (semTake n f s) fld.sem.OWNER n = f ∧
    on (semTake n f s) fld.sem.EXPIRED n = false ∧ get (semTake n f s) fld.sem.GEN n = (get s fld.sem.GEN n + 1) % 2 ^ fld.sem.GEN.w ∧
    Map.get (fun _ => 0) (semTake n f s).hst.semAt n = s.ot ∧ (semTake n f s).hst.semTie = s.hst.semTie := by
  have e : ∀ g : Fld, get (semTake n f s) g n = get (put fld.sem.EXPIRED 0 (put fld.sem.GEN (get s fld.sem.GEN n + 1) (put fld.sem.OWNER f (put fld.sem.HELD 1 s n) n) n) n) g n :=
    fun g => semLease_get n _ g n 0
  refine ⟨?_, ?_, ?_, ?_, ?_, ?_⟩
  · rw [on_iff, e, get_put_fld _ _ _ _ _ _ (by rfl) (by decide) (by decide), get_put_fld _ _ _ _ _ _ (by rfl) (by decide) (by decide),
      get_put_fld _ _ _ _ _ _ (by rfl) (by decide) (by decide), get_put_same _ _ _ _ _ (by decide)]
    rfl
  · rw [e, get_put_fld _ _ _ _ _ _ (by rfl) (by decide) (by decide), get_put_fld _ _ _ _ _ _ (by rfl) (by decide) (by decide),
      get_put_same _ _ _ _ _ (by decide)]
    exact Nat.mod_eq_of_lt hf
  · unfold on
    rw [e, get_put_same _ _ _ _ _ (by decide)]
    rfl
  · rw [e, get_put_fld _ _ _ _ _ _ (by rfl) (by decide) (by decide), get_put_same _ _ _ _ _ (by decide)]
  · refine (semLease_at n _).trans ?_
    rw [put_ot, put_ot, put_ot, put_ot]
  · refine (semLease_tie n _).trans ?_
    rw [put_hst, put_hst, put_hst, put_hst]

theorem semReadAs_of {s : State} {n f : Nat} (hp : pcieFn s f = true) (h : Reaches s f .sem n 0) :
    semReadAs n f s = { (semRead n f s).1 with rdata := leBytes 4 (semRead n f s).2.toNat } := by
  unfold semReadAs
  rw [if_pos hp]
  exact hostRead_of h _

theorem on_rdata (s : State) (x : List Byte) (f : Fld) (i j : Nat) : on { s with rdata := x } f i j = on s f i j := rfl
theorem get_rdata (s : State) (x : List Byte) (f : Fld) (i j : Nat) : get { s with rdata := x } f i j = get s f i j := rfl

theorem rdata_eq (u : State) (n : Nat) (b : Bool) (x : W32) (h : x = rd u .sem n ||| (if b = true then 0 else 0x40)) :
    ({ u with rdata := leBytes 4 x.toNat } : State).rdata =
      leBytes 4 (rd { u with rdata := leBytes 4 x.toNat } .sem n ||| (if b = true then 0 else 0x40)).toNat := by
  have : rd { u with rdata := leBytes 4 x.toNat } .sem n = rd u .sem n := rd_congr rfl _ _ _
  rw [this, ← h]

theorem hst_rdata (u : State) (b : List Byte) : ({ u with rdata := b } : State).hst = u.hst := rfl

theorem sem_claims {s : State} {n fn : Nat} (hn : n < 256) (hf : fn < 32) (hp : pcieFn s fn = true) (h : Reaches s fn .sem n 0) :
      ∃ t, exec (.semClaim n fn none) s = .next t ∧ t.rdata = leBytes 4 (rd t .sem n ||| (if on s fld.sem.HELD n then 0 else 0x40)).toNat ∧
        (on s fld.sem.HELD n = false → on t fld.sem.HELD n = true ∧ get t fld.sem.OWNER n = fn ∧
          on t fld.sem.EXPIRED n = false ∧ get t fld.sem.GEN n = (get s fld.sem.GEN n + 1) % 2 ^ fld.sem.GEN.w ∧
          Map.get (fun _ => 0) t.hst.semAt n = s.ot) ∧
        (on s fld.sem.HELD n = true → get s fld.sem.OWNER n = fn → on t fld.sem.HELD n = true ∧
          get t fld.sem.OWNER n = fn ∧ on t fld.sem.EXPIRED n = false ∧ Map.get (fun _ => 0) t.hst.semAt n = s.ot) ∧
        (on s fld.sem.HELD n = true → get s fld.sem.OWNER n ≠ fn → rd t .sem n = rd s .sem n) := by
  have ex : exec (.semClaim n fn none) s = .next (semReadAs n fn s) := by
    show execSemClaim n fn none s = _
    unfold execSemClaim
    rw [if_neg (by omega)]
  refine ⟨_, ex, ?_⟩
  rw [semReadAs_of hp h]
  cases hh : on s fld.sem.HELD n
  · rw [semRead_free hh]
    obtain ⟨a, b, c, d, e, -⟩ := semTake_facts n fn s hf
    generalize semTake n fn s = u at a b c d e ⊢
    exact ⟨rdata_eq u n false _ (by simp), fun _ => ⟨(on_rdata u _ _ _ _).trans a, (get_rdata u _ _ _ _).trans b, (on_rdata u _ _ _ _).trans c,
      (get_rdata u _ _ _ _).trans d, (congrArg (fun h => Map.get (fun _ => 0) h.semAt n) (hst_rdata u _)).trans e⟩, fun x => by simp at x, fun x => by simp at x⟩
  · by_cases ho : get s fld.sem.OWNER n = fn
    · rw [semRead_own hh ho]
      have a : on (semLease n (put fld.sem.EXPIRED 0 s n)) fld.sem.HELD n = true := (on_congr (semLease_regs n _) _ _ _).trans (by
        rw [on_put_fld _ _ _ _ _ _ (by rfl) (by decide) (by decide)]; exact hh)
      have b : get (semLease n (put fld.sem.EXPIRED 0 s n)) fld.sem.OWNER n = fn := (semLease_get n _ _ _ _).trans (by
        rw [get_put_fld _ _ _ _ _ _ (by rfl) (by decide) (by decide)]; exact ho)
      have c : on (semLease n (put fld.sem.EXPIRED 0 s n)) fld.sem.EXPIRED n = false := (on_congr (semLease_regs n _) _ _ _).trans (by
        rw [on_put_same _ _ _ _ _ (by decide) (by decide)]; rfl)
      have d := (semLease_at n (put fld.sem.EXPIRED 0 s n)).trans (put_ot _ _ _ _ _)
      generalize semLease n (put fld.sem.EXPIRED 0 s n) = u at a b c d ⊢
      exact ⟨rdata_eq u n true _ (by simp), fun x => by simp at x, fun _ _ => ⟨(on_rdata u _ _ _ _).trans a, (get_rdata u _ _ _ _).trans b, (on_rdata u _ _ _ _).trans c,
        (congrArg (fun h => Map.get (fun _ => 0) h.semAt n) (hst_rdata u _)).trans d⟩, fun _ k => absurd ho k⟩
    · rw [semRead_other hh ho]
      refine ⟨?_, fun x => by simp at x, fun _ k => absurd k ho, fun _ _ => rfl⟩
      exact rdata_eq _ _ _ _ (by simp)

theorem raise_semTie (ev d : Nat) (s : State) : (raise ev d s).hst.semTie = s.hst.semTie := by
  obtain ⟨e, m, p, q, h⟩ := raise_host ev d s
  rw [h]

theorem denied_sem (fn a n : Nat) (s : State) : rd (denied fn a s) .sem n = rd s .sem n ∧ (denied fn a s).hst.semTie = s.hst.semTie := by
  refine ⟨(within_denied fn a (μ := footprint [.ringTail, .ringStatus, .hostStatus, .hostErrAddr, .hostErrFn] [.cnt, .hmem, .hst])
    (by decide +kernel) (Within.refl s)).reg .sem (by decide +kernel) n 0, ?_⟩
  unfold denied raise0
  rw [raise_semTie]
  simp only [setBit_hst, put_hst, wr_hst, bump_hst]

theorem collide_sem (fn off n : Nat) (s : State) : rd (collide fn off s) .sem n = rd s .sem n ∧ (collide fn off s).hst.semTie = s.hst.semTie := by
  refine ⟨(within_collide fn off (μ := footprint [.ringTail, .ringStatus, .hostStatus, .bistEvent, .collide] [.cnt, .hmem, .hst])
    (by decide +kernel) (Within.refl s)).reg .sem (by decide +kernel) n 0, ?_⟩
  unfold collide
  extract_lets a b
  have hb : b.hst = s.hst := by
    show (if hasBit a fld.bistEvent.BIST_EVENT 3 = true then a else put fld.collide.COLLIDE_FN fn (put fld.collide.COLLIDE_ADDR off a)).hst = _
    split
    · exact bump_hst _ _
    · rw [put_hst, put_hst]; exact bump_hst _ _
  clear_value b
  unfold raise0
  have e : (setBit fld.bistEvent.BIST_EVENT 3 b).hst = s.hst := by rw [setBit_hst]; exact hb
  generalize setBit fld.bistEvent.BIST_EVENT 3 b = u at e ⊢
  rw [raise_semTie, e]

/-- A read by another function than the holder leaves a semaphore alone. -/
theorem semReadAs_other {s : State} {n f : Nat} (h : on s fld.sem.HELD n = true) (ho : get s fld.sem.OWNER n ≠ f) :
    rd (semReadAs n f s) .sem n = rd s .sem n ∧ (semReadAs n f s).hst.semTie = s.hst.semTie := by
  unfold semReadAs hostRead
  rw [semRead_other h ho]
  dsimp only
  split
  · split
    · exact ⟨rfl, rfl⟩
    · split
      · exact denied_sem f _ n s
      · split
        · exact ⟨rfl, rfl⟩
        · split
          · exact collide_sem f _ n s
          · exact ⟨rfl, rfl⟩
  · exact ⟨rfl, rfl⟩

theorem sem_tie {s : State} {n fn g : Nat} (hn : n < 256) (hf : fn < 32) (hg : g < 32) (ha : acrossPorts s fn g = true)
    (h1 : Reaches s fn .sem n 0) (h2 : Reaches s g .sem n 0) (hh : on s fld.sem.HELD n = false) :
      ∃ t, exec (.semClaim n fn (some g)) s = .next t ∧ on t fld.sem.HELD n = true ∧
        (get t fld.sem.OWNER n = if semH1First s n = (fn / 16 == 1) then fn else g) ∧
        semH1First t n = !semH1First s n := by
  have ex : exec (.semClaim n fn (some g)) s = .next (semReadBoth n fn g s) := by
    show execSemClaim n fn (some g) s = _
    unfold execSemClaim
    rw [if_neg (by omega)]
    dsimp only
    rw [if_pos ha]
  refine ⟨_, ex, ?_⟩
  unfold acrossPorts at ha
  simp only [Bool.and_eq_true, bne_iff_ne] at ha
  obtain ⟨⟨p1, p2⟩, hne⟩ := ha
  have key : ∀ a b : Nat, a < 32 → pcieFn s a = true → Reaches s a .sem n 0 → a / 16 ≠ b / 16 → ∀ s1, s1 = semReadAs n a s → ∀ s3,
      s3 = (if (!on s fld.sem.HELD n && on s1 fld.sem.HELD n) = true then semTieSet n b (semReadAs n b s1) else semReadAs n b s1) →
      on s3 fld.sem.HELD n = true ∧ get s3 fld.sem.OWNER n = a ∧ semH1First s3 n = (b / 16 == 1) := by
    intro a b hlt hp hr hd s1 e1 s3 e3
    rw [semReadAs_of hp hr, semRead_free hh] at e1
    dsimp only at e1
    obtain ⟨f1, f2, -, -, -, -⟩ := semTake_facts n a s hlt
    generalize semTake n a s = u at e1 f1 f2
    have g1 : on s1 fld.sem.HELD n = true := by rw [e1, on_rdata]; exact f1
    have g2 : get s1 fld.sem.OWNER n = a := by rw [e1, get_rdata]; exact f2
    have ob := semReadAs_other (f := b) g1 (by rw [g2]; intro e; exact hd (by rw [e]))
    rw [hh, g1, if_pos (by rfl)] at e3
    have r3 : rd s3 .sem n = rd s1 .sem n := by rw [e3]; exact ob.1
    refine ⟨?_, ?_, ?_⟩
    · rw [on_iff] at g1 ⊢
      rw [← g1]; exact get_of_rd (f := fld.sem.HELD) r3
    · rw [← g2]; exact get_of_rd (f := fld.sem.OWNER) r3
    · rw [e3]; exact map_get_put_same _ _ _ _
  have e0 : on (semReadBoth n fn g s) fld.sem.HELD n = true ∧ get (semReadBoth n fn g s) fld.sem.OWNER n = (semFirst s n fn g).1 ∧
      semH1First (semReadBoth n fn g s) n = ((semFirst s n fn g).2 / 16 == 1) := by
    have kk : ∀ s3, s3 = (if (!on s fld.sem.HELD n && on (semReadAs n (semFirst s n fn g).1 s) fld.sem.HELD n) = true then semTieSet n (semFirst s n fn g).2 (semReadAs n (semFirst s n fn g).2 (semReadAs n (semFirst s n fn g).1 s)) else semReadAs n (semFirst s n fn g).2 (semReadAs n (semFirst s n fn g).1 s)) →
        on s3 fld.sem.HELD n = true ∧ get s3 fld.sem.OWNER n = (semFirst s n fn g).1 ∧ semH1First s3 n = ((semFirst s n fn g).2 / 16 == 1) := by
      unfold semFirst
      by_cases hc : ((fn / 16 == 1) == semH1First s n) = true
      · rw [if_pos hc]
        exact key fn g hf p1 h1 hne _ rfl
      · rw [if_neg hc]
        exact key g fn hg p2 h2 (Ne.symm hne) _ rfl
    unfold semReadBoth
    extract_lets o s1 s2 s3
    have k3 := kk s3 rfl
    clear_value s3
    exact k3
  refine ⟨e0.1, ?_, ?_⟩
  · rw [e0.2.1]
    unfold semFirst
    cases semH1First s n <;> cases (fn / 16 == 1) <;> rfl
  · rw [e0.2.2]
    unfold semFirst
    have d : (g / 16 == 1) = !(fn / 16 == 1) := by
      have b1 : fn / 16 < 2 := by omega
      have b2 : g / 16 < 2 := by omega
      by_cases e : fn / 16 = 1
      · have : g / 16 = 0 := by omega
        simp [e, this]
      · have e' : fn / 16 = 0 := by omega
        have : g / 16 = 1 := by omega
        simp [e', this]
    cases hx : semH1First s n <;> cases hy : (fn / 16 == 1) <;> rw [hy] at d <;> simp [d, hy]

theorem semFree_facts (n : Nat) (s : State) : on (semFree n s) fld.sem.HELD n = false ∧ on (semFree n s) fld.sem.EXPIRED n = false ∧
    get (semFree n s) fld.sem.GEN n = get s fld.sem.GEN n ∧ (semFree n s).cnt = s.cnt := by
  unfold semFree
  refine ⟨?_, ?_, ?_, rfl⟩
  · rw [on_put_fld _ _ _ _ _ _ (by rfl) (by decide) (by decide), on_put_same _ _ _ _ _ (by decide) (by decide)]; rfl
  · rw [on_put_same _ _ _ _ _ (by decide) (by decide)]; rfl
  · rw [get_put_fld _ _ _ _ _ _ (by rfl) (by decide) (by decide), get_put_fld _ _ _ _ _ _ (by rfl) (by decide) (by decide)]

theorem sem_release {s : State} {n fn : Nat} (hn : n < 256) (v : W32) (hp : pcieFn s fn = true) (h : Writable s fn .sem n 0) :
      ∃ t, exec (.semRelease n fn v none) s = .next t ∧
        (on s fld.sem.HELD n = true → get s fld.sem.OWNER n = fn → v.toNat % 32 = fn →
          on t fld.sem.HELD n = false ∧ on t fld.sem.EXPIRED n = false ∧ get t fld.sem.GEN n = get s fld.sem.GEN n) ∧
        (on s fld.sem.HELD n = false ∨ get s fld.sem.OWNER n ≠ fn ∨ v.toNat % 32 ≠ fn → rd t .sem n = rd s .sem n ∧
          counter t Cnt.semBadRel.ctorIdx = counter s Cnt.semBadRel.ctorIdx + 1) := by
  obtain ⟨x, hx, he⟩ := hostWrite_of h v (semWrite n fn v)
  have ex : exec (.semRelease n fn v none) s = .next (semWrite n fn v x) := by
    show execSemRelease n fn v none s = _
    unfold execSemRelease semWriteAs
    rw [if_neg (by omega), if_pos hp, he]
  refine ⟨_, ex, ?_, ?_⟩
  · intro a b c
    unfold semWrite
    rw [hx.on _ _ _ (by decide), hx.get _ _ _ (by decide), a, b, c, if_pos (by simp)]
    obtain ⟨f1, f2, f3, -⟩ := semFree_facts n x
    exact ⟨f1, f2, f3.trans (hx.get _ _ _ (by decide))⟩
  · intro a
    unfold semWrite
    rw [hx.on _ _ _ (by decide), hx.get _ _ _ (by decide), if_neg]
    · exact ⟨hx.reg _ _ _ (by decide), by rw [counter_bump_same, hx.cnt _ (by decide)]⟩
    · rcases a with a | a | a <;> simp [a]

theorem sem_force {s : State} {n fn : Nat} (v : W32) (hv : v.toNat % 256 = n) (hp : pcieFn s fn = true) (h : Writable s fn .semForce 0 0)
    (a : on s fld.sem.HELD n = true) (b : on s fld.sem.EXPIRED n = true) (c : get s fld.sem.OWNER n / 16 ≠ fn / 16) :
      ∃ t, exec (.semForce fn v) s = .next t ∧ on t fld.sem.HELD n = false ∧ on t fld.sem.EXPIRED n = false ∧
        counter t Cnt.semForced.ctorIdx = counter s Cnt.semForced.ctorIdx + 1 := by
  obtain ⟨x, hx, he⟩ := hostWrite_of h v (semForceWrite fn v)
  have ex : exec (.semForce fn v) s = .next (semForceWrite fn v x) := congrArg _ he
  refine ⟨_, ex, ?_⟩
  unfold semForceWrite
  dsimp only
  rw [hv, hx.on _ _ _ (by decide), hx.on _ _ _ (by decide), hx.get _ _ _ (by decide), a, b, if_pos (by simpa using c)]
  obtain ⟨f1, f2, -, f4⟩ := semFree_facts n (raise 4 n (bump .semForced x))
  refine ⟨f1, f2, ?_⟩
  rw [counter_congr f4, counter_raise _ _ _ _ (by decide) (by decide), counter_bump_same, hx.cnt _ (by decide)]

theorem sem_expires {s : State} {n : Nat} (hn : n < 256) (a : on s fld.sem.HELD n = true) (b : on s fld.sem.EXPIRED n = false)
    (c : get s fld.semCfg.LEASE_US n ≠ 0) :
      ∃ t, exec (.semLeaseExpire n) s = .next t ∧ on t fld.sem.EXPIRED n = true ∧ on t fld.sem.HELD n = true ∧
        t.ot = timeAt s (Map.get (fun _ => 0) s.hst.semAt n + BitVec.ofNat 64 (get s fld.semCfg.LEASE_US n * 1000)) := by
  generalize hd : Map.get (fun _ => 0) s.hst.semAt n + BitVec.ofNat 64 (get s fld.semCfg.LEASE_US n * 1000) = due
  have ex : exec (.semLeaseExpire n) s = .next (raise 5 n (put fld.sem.EXPIRED 1 (advance due s) n)) := by
    show execSemLeaseExpire n s = _
    unfold execSemLeaseExpire
    dsimp only
    rw [if_neg (by simp [a, b]; exact ⟨by omega, c⟩), hd]
  refine ⟨_, ex, ?_, ?_, ?_⟩
  · rw [on_raise _ _ _ _ _ _ (by decide) (by decide) (by decide), on_put_same _ _ _ _ _ (by decide) (by decide)]; rfl
  · rw [on_raise _ _ _ _ _ _ (by decide) (by decide) (by decide), on_put_fld _ _ _ _ _ _ (by rfl) (by decide) (by decide), on_congr (advance_regs _ _)]
    exact a
  · have e := (eventOnly_raise 5 n (put fld.sem.EXPIRED 1 (advance due s) n)).frame
    generalize raise 5 n (put fld.sem.EXPIRED 1 (advance due s) n) = t at e ⊢
    rw [e]
    exact advance_ot _ _

end Sys2Proof.Machine
end

