-- ==== Sys2Proof/Tests/Slice0.lean ====
section
/-!
SUPPORT. Tests: well-formedness refuses each kind of ill-formed term, words written out from the encoding tables decode
to the instructions they stand for, and for each statement that has hypotheses a concrete state that meets them.
-/

namespace Sys2Proof.Tests
open Sys2Proof Sys2Proof.Machine

set_option Elab.async false

/-! ## Well-formedness -/

/-- A core that no member has, a reserved type, and each code that its table does not list. -/
theorem test_wellFormed_refuses_codes :
    wellFormed (.add 160 ⟨1, 2, 3, 0, 0⟩) = false ∧ wellFormed (.vadd 0 5 ⟨1, 2, 3, 0, 0⟩) = false ∧
    wellFormed (.vdith 0 9 ⟨4, 8, 1, 0, 0⟩) = false ∧ wellFormed (.vlut 0 5 ⟨1, 2, 3, 0, 0⟩) = false ∧
    wellFormed (.st 0 2 0 ⟨0, 1, 2, 0, 0⟩) = false ∧ wellFormed (.vsamp 0 false 3 ⟨4, 1, 2, 0, 0⟩) = false := by decide
/-- A ring, a semaphore, a function, an offset and a size outside their ranges. -/
theorem test_wellFormed_refuses_ranges :
    wellFormed (.alloc ⟨64, 0, 0⟩ 1) = false ∧ wellFormed (.semClaim 256 0 none) = false ∧
    wellFormed (.semForce 33 0) = false ∧ wellFormed (.registerWrite 0 .bar0 16777216 0 4 0 none) = false ∧
    wellFormed (.rcRead 0 .bar0 0 5 0 none) = false := by decide
/-- The same terms inside their ranges. -/
theorem test_wellFormed_accepts :
    wellFormed (.add 159 ⟨1, 2, 3, 0, 0⟩) = true ∧ wellFormed (.vadd 0 4 ⟨1, 2, 3, 0, 0⟩) = true ∧
    wellFormed (.vdith 0 8 ⟨4, 8, 1, 0, 0⟩) = true ∧ wellFormed (.alloc ⟨63, 0, 0⟩ 1) = true ∧
    wellFormed (.semClaim 255 32 none) = true := by decide

/-! ## Small states -/

/-- A FIRM task of context 0 with service privilege on core 0, with a program of 16 words and 256 bytes of scratch. -/
def firmTask : Task where
  id := 1
  slot := 0
  desc := [0x0200FF10, 0, 0, 0, 0, 0, 0, 0]
  ctx := 0
  canvas := none
  epoch := none
  prog := ⟨0, 0, 16, 0, 256, true⟩
  depth := 0
  tmpl := none
  parent := none
  st := .running 0
  firm := true
  demoted := false
  resumed := false
  inep := 0
  readSet := []
  demSet := []
  excode := 0
  exinfo := 0
  saved := false
  pc := 0
  sregs := [(1, 5), (4, 0x80000000), (5, 0xFFFFFFFF)]
  vregs := []
  pregs := []
  core := 0
  torg := 0
  tsize := 0
  priv := true
  front := none
  was := none
  scratch := []
  staged := []
  stores := []
  children := []
  pkts := []
  steps := 0
  runs := 1
  cycles := 0
  timed := false
  latch := 0
  period := 0
  lastCore := some 0
  affine := none
  readyAt := 0
  waited := false
  spill := none
  finishing := none

/-- The device after its release from reset. -/
def live : State := { State.reset with bst := { State.reset.bst with releaseDue := false } }

/-- The device with one task, service programs allowed. -/
def withTask (t : Task) : State :=
  put fld.sched.SVC 1 { live with sch := { live.sch with tasks := [(t.slot, t)], slotFresh := t.slot + 1 } }

/-- A SPEC task of epoch 5 of canvas 0. -/
def specTask : Task :=
  { firmTask with desc := [0, 0, 5, 0, 0, 0, 0, 0], canvas := some 0, epoch := some 5, firm := false, inep := 5 }

/-- The same with its open epoch. -/
def withSpec : State :=
  { withTask specTask with vat := { live.vat with
      canvases := [(0, { canvasIdle with epochs := [⟨5, 0, 0, 4, false, [], [], [], false, false, []⟩] })] } }

/-- Whether a command answers a next state that has a property. -/
def Next (i : Instr) (s : State) (q : State → Bool) : Bool :=
  match exec i s with
  | .next t => q t
  | _ => false

/-! ## Words -/

/-- One word of each of the groups made bit by bit from Tables 2-7, 2-8 and
the function tables. -/
theorem test_words_decode :
    decodeWord 0 0x04E000200000002A#64 = some (.li 0 ⟨7, 0, 0, 0, 42⟩) ∧
    decodeWord 0 0x4082003900000040#64 = some (.vld 0 0 7 ⟨4, 2, 0, 0, 0x40⟩) ∧
    decodeWord 0 0x4003327D00000010#64 = some (.vst 0 1 7 ⟨0, 3, 6, 2, 0x10⟩) ∧
    decodeWord 5 0x2022196200000009#64 = some (.vmad 5 2 ⟨1, 2, 3, 1, 9⟩) ∧
    decodeWord 0 0x2443200900000000#64 = some (.vfmin 0 true ⟨2, 3, 4, 0, 0⟩) ∧
    decodeWord 0 0x2904082200000000#64 = some (.vdith 0 2 ⟨8, 4, 1, 0, 0⟩) ∧
    decodeWord 0 0x2888003A00000000#64 = some (.vpackF16 0 ⟨4, 8, 0, 0, 0⟩) ∧
    decodeWord 0 0x3022181200000000#64 = some (.vluti 0 2 ⟨1, 2, 3, 0, 0⟩) ∧
    decodeWord 0 0x3022183500000000#64 = some (.vscat 0 5 ⟨1, 2, 3, 0, 0⟩) ∧
    decodeWord 0 0x506100080000000F#64 = some (.etabRd 0 ⟨3, 1, 0, 0, 15⟩) ∧
    decodeWord 0 0x6001100200000006#64 = some (.pktWr 0 ⟨0, 1, 2, 0, 6⟩) ∧
    decodeWord 0 0x7041000200000000#64 = some (.spawn 0 ⟨2, 1, 0, 0, 0⟩) ∧
    decodeWord 0 0x83E0001000000008#64 = some (.call 0 ⟨31, 0, 0, 0, 8⟩) ∧
    decodeWord 0 0xFC01001800000007#64 = some (.cntAdd 0 ⟨0, 1, 0, 0, 7⟩) := by decide +kernel

/-! ## Hypotheses of the statements about instructions -/

/-- ScalarSumsAndProducts, ScalarLogicAndShifts, ScalarComparesAndChoices, PxArithmetic: every clause's fields. -/
theorem test_hyp_scalar : Ready (withTask firmTask) 0 firmTask ∧ Enabled firmTask ⟨2, 1, 4, 0, 0⟩ ∧
    Enabled firmTask ⟨2, 1, 0, 0, 31⟩ ∧ (31 : W32) = BitVec.setWidth 32 (31 : BitVec 5) ∧ Enabled firmTask ⟨2, 0, 0, 0, 31⟩ :=
  ⟨⟨by decide +kernel, by decide +kernel, by decide +kernel, by decide +kernel⟩, by decide +kernel⟩
/-- DivisionWithItsCorners: a zero divisor, an ordinary one, and −2^31 by −1. -/
theorem test_hyp_division : Ready (withTask firmTask) 0 firmTask ∧ Enabled firmTask ⟨2, 1, 3, 0, 0⟩ ∧ sreg firmTask 3 = 0 ∧
    sreg firmTask 1 ≠ 0 ∧ sreg firmTask 4 = 0x80000000 ∧ sreg firmTask 5 = 0xFFFFFFFF :=
  ⟨⟨by decide +kernel, by decide +kernel, by decide +kernel, by decide +kernel⟩, by decide +kernel⟩
/-- PredicateOperations, and a predicate number that it shuts out, which FieldsThatMustBeZero covers. -/
theorem test_hyp_predicates : Ready (withTask firmTask) 0 firmTask ∧ Enabled firmTask ⟨7, 7, 7, 0, 0⟩ ∧
    Enabled firmTask ⟨7, 31, 0, 0, 0⟩ ∧ Enabled firmTask ⟨31, 7, 0, 0, 0⟩ :=
  ⟨⟨by decide +kernel, by decide +kernel, by decide +kernel, by decide +kernel⟩, by decide +kernel⟩
/-- DisabledScalarHasNoEffect. -/
theorem test_hyp_disabled : Ready (withTask firmTask) 0 firmTask ∧ (F.mk 2 1 4 7 0).p ≠ 0 ∧ maskOf firmTask ⟨2, 1, 4, 7, 0⟩ = 0 :=
  ⟨⟨by decide +kernel, by decide +kernel, by decide +kernel, by decide +kernel⟩, by decide +kernel⟩
/-- FieldsThatMustBeZero, BreakTrapAndReservedWords, PacketFaults: the table of tasks fits, and a word is reserved. -/
theorem test_hyp_reserved : Ready (withTask firmTask) 0 firmTask ∧ TasksFit (withTask firmTask) ∧
    decodeWord 0 0x0800000000000000#64 = none :=
  ⟨⟨by decide +kernel, by decide +kernel, by decide +kernel, by decide +kernel⟩, by decide +kernel⟩
/-- StepLimitAndEndOfImage: at the limit of 256 steps, and past the image with no limit. -/
theorem test_hyp_limit :
    taskOn (withTask { firmTask with desc := [0x0200FF10, 0x1000, 0, 0, 0, 0, 0, 0], steps := 256 }) (coreOf (.nop 0 ⟨0, 0, 0, 0, 0⟩))
      = some { firmTask with desc := [0x0200FF10, 0x1000, 0, 0, 0, 0, 0, 0], steps := 256 } ∧
    dSteps [0x0200FF10, 0x1000, 0, 0, 0, 0, 0, 0] = 1 ∧ (encode (.nop 0 ⟨0, 0, 0, 0, 0⟩)).isSome ∧
    TasksFit (withTask { firmTask with desc := [0x0200FF10, 0x1000, 0, 0, 0, 0, 0, 0], steps := 256 }) ∧
    taskOn (withTask { firmTask with pc := 128 }) 0 = some { firmTask with pc := 128 } ∧ firmTask.prog.len * 8 = 128 := by
  decide +kernel
/-- The vector statements: every type, a third source, and a group and a pair of registers. -/
theorem test_hyp_vector : Ready (withTask firmTask) 0 firmTask ∧ (4 : BitVec 3).toNat < 5 ∧
    (31 : W32) = BitVec.setWidth 32 (31 : BitVec 5) ∧ (7 : W32) = BitVec.setWidth 32 (7 : BitVec 3) ∧
    (28 : BitVec 5).toNat % 4 = 0 ∧ (30 : BitVec 5).toNat % 2 = 0 ∧ (8 : BitVec 4).toNat ≤ 8 ∧ maskOf firmTask ⟨4, 8, 2, 0, 0⟩ ≠ 0 :=
  ⟨⟨by decide +kernel, by decide +kernel, by decide +kernel, by decide +kernel⟩, by decide +kernel⟩

/-- A layer of 4 × 4 pixels of context 0 and 1 MiB of frame memory of it. -/
def withLayer (t : Task) : State :=
  put fld.layerStatus.VALID 1 { withTask t with hst := { live.hst with
    allocs := [⟨1, 1, 0, none⟩], layers := [(0, ⟨0, 4, 4, 1, false, none, 0, 2⟩)] } } 0

/-- The FIRM task with the address of that memory in s2, and the FIRM task of a tile of canvas 0. -/
def memTask : Task := { firmTask with sregs := [(2, 0x1000)] }
/-- The FIRM task of a tile. -/
def tileTask : Task := { firmTask with canvas := some 0, epoch := some 5 }
/-- LoadsFromFourSpaces, StoresToThreeSpaces: scratch, layer and frame memory of a FIRM task, aligned and inside. -/
theorem test_hyp_memory : Ready (withLayer memTask) 0 memTask ∧
    LoadOk (withLayer firmTask) firmTask ⟨2, 3, 0, 0, 252⟩ 0 3 (spaceAddr firmTask ⟨2, 3, 0, 0, 252⟩ 0) ∧
    LoadOk (withLayer firmTask) firmTask ⟨2, 3, 3, 0, 60⟩ 2 3 (spaceAddr firmTask ⟨2, 3, 3, 0, 60⟩ 2) ∧
    setFull firmTask ⟨7, 0, layerIdx (withLayer firmTask) firmTask (sreg firmTask 3)⟩ = false ∧ undoable firmTask = false ∧
    LoadOk (withLayer memTask) memTask ⟨0, 2, 0, 0, 8⟩ 3 3 (spaceAddr memTask ⟨0, 2, 0, 0, 8⟩ 3) := by
  unfold LoadOk ElementOk
  exact ⟨⟨by decide +kernel, by decide +kernel, by decide +kernel, by decide +kernel⟩, by decide +kernel⟩

/-- Canvas 0 of one tile. -/
def withTile (s : State) : State := wr .canvasWidth 64 (wr .canvasHeight 32 s 0) 0

/-- StoresToThreeSpaces: the output tile of an open epoch; FrozenStoreIsDiscarded: that of a FIRM task. -/
theorem test_hyp_tile : Ready (withTile withSpec) 0 specTask ∧ Ready (withTile (withTask tileTask)) 0 tileTask ∧
    tileFrozen (withTile withSpec) specTask = false ∧
    ElementOk (withTile withSpec) specTask ⟨0, 3, 1, 0, 8⟩ 1 3 (spaceAddr specTask ⟨0, 3, 1, 0, 8⟩ 1) ∧
    tileFrozen (withTile (withTask tileTask)) tileTask = true ∧
    ElementOk (withTile (withTask tileTask)) tileTask ⟨0, 3, 1, 0, 8⟩ 1 3 (spaceAddr tileTask ⟨0, 3, 1, 0, 8⟩ 1) := by
  unfold ElementOk
  exact ⟨⟨by decide +kernel, by decide +kernel, by decide +kernel, by decide +kernel⟩, ⟨by decide +kernel, by decide +kernel, by decide +kernel, by decide +kernel⟩,
    by decide +kernel⟩
/-- LoadAndStoreFaults: no layer; a misaligned address; one outside its space; a poisoned byte; frame memory of a task that can
be undone. -/
theorem test_hyp_faults : layerFor (withTask firmTask) firmTask (sreg firmTask 3) = none ∧
    spaceAddr firmTask ⟨2, 3, 0, 0, 2⟩ 0 % (typeBytes 3 : Int) ≠ 0 ∧
    spaceAddr firmTask ⟨2, 3, 0, 0, 256⟩ 0 % (typeBytes 3 : Int) = 0 ∧
    spInside 0 ⟨2, 3, 0, 0, 256⟩ (typeBytes 3) (withTask firmTask) firmTask (spaceAddr firmTask ⟨2, 3, 0, 0, 256⟩ 0) = false ∧
    spInside 3 ⟨0, 2, 0, 0, 8⟩ (typeBytes 3) { withLayer memTask with fbad := [0x100009] } memTask
      (spaceAddr memTask ⟨0, 2, 0, 0, 8⟩ 3) = true ∧
    badByte 3 ⟨0, 2, 0, 0, 8⟩ { withLayer memTask with fbad := [0x100009] } memTask (typeBytes 3)
      (spaceAddr memTask ⟨0, 2, 0, 0, 8⟩ 3) = some 0x100009 ∧
    undoable specTask = true := by decide +kernel

/-- TablesGatherAndScatter, LayerSampling. -/
theorem test_hyp_tables : (0 + 2 * 2 ^ 8 ≤ ({ firmTask with prog := ⟨0, 0, 16, 0, 1024, true⟩ } : Task).prog.scratch) ∧
    (0 + 2 * (2 ^ 8 + 1) ≤ ({ firmTask with prog := ⟨0, 0, 16, 0, 1024, true⟩ } : Task).prog.scratch) ∧
    (∀ l < 16, (maskOf firmTask ⟨1, 3, 2, 0, 0⟩).getLsbD l = true →
      ((sreg firmTask 3).toNat + (lane firmTask 2 l).toNat) % 4 = 0 ∧ (sreg firmTask 3).toNat + (lane firmTask 2 l).toNat + 4 ≤ 256) ∧
    layerFor (withLayer firmTask) firmTask (sreg firmTask 3) = some (0, ⟨0, 4, 4, 1, false, none, 0, 2⟩) ∧
    setFull firmTask ⟨7, 0, 0⟩ = false := by decide +kernel

/-- A cue change of context 0 that applies on canvas 0 at epoch 5, and one at epoch 9. -/
def withCues : State :=
  { withTask specTask with vat := { withSpec.vat with inputs :=
      [⟨⟨1, 0, 7⟩, 1, 99, 0, .arrival, 0, [(0, 5)]⟩, ⟨⟨1, 0, 7⟩, 2, 77, 0, .arrival, 0, [(0, 9)]⟩,
        ⟨⟨1, 0, 8⟩, 1, 55, 0, .arrival, 0, [(0, 9)]⟩] } }
/-- InputValueIsMostRecentChange: of two changes one applies at epoch 6, and of another input none; the value that the rule
gives. -/
theorem test_hyp_inputValue : 0 ≤ epochDiff (logEpoch withCues 0 6) 5 ∧ epochDiff (logEpoch withCues 0 6) 9 < 0 ∧
    valueFor withCues ⟨1, 0, 7⟩ (some (0, 6)) = 99 ∧ valueFor withCues ⟨1, 0, 8⟩ (some (0, 6)) = 0 ∧
    valueFor withCues ⟨1, 0, 7⟩ (some (0, 9)) = 77 := by decide +kernel
/-- InputInstructions: a CUE that is read, and an ID of a reserved kind. -/
theorem test_hyp_inputs : Ready withCues 0 specTask ∧ inputKey withCues specTask (sreg specTask 3 + 0x10000007) = some ⟨1, 0, 7⟩ ∧
    setFull specTask ⟨1, 0, 7⟩ = false ∧ inputKey withCues specTask (sreg specTask 3 + 0x20000000) = none ∧ TasksFit withCues :=
  ⟨⟨by decide +kernel, by decide +kernel, by decide +kernel, by decide +kernel⟩, by decide +kernel⟩
/-- EndpointTableInstructions: with privilege, and without it. -/
theorem test_hyp_etab : etabReadable (withTask firmTask) firmTask (sreg firmTask 3).toNat = true ∧
    privileged (withTask firmTask) firmTask = true ∧ undoable firmTask = false ∧ standby (withTask firmTask) = false ∧
    (sreg firmTask 3).toNat < endpoints (withTask firmTask).member ∧
    entryReason (withTask firmTask) (stagedEntry (withTask firmTask) 0 0) 0 ≠ 0 ∧ (0 : W32).toNat % 2 = 0 ∧
    etabReadable (withTask { firmTask with prog := ⟨0, 0, 16, 0, 256, false⟩ }) { firmTask with prog := ⟨0, 0, 16, 0, 256, false⟩ } 0
      = false := by decide +kernel

/-- The FIRM task with one packet buffer, its handle and a length in registers. -/
def pktTask : Task := { firmTask with pkts := [⟨9, [], none, 0⟩], sregs := [(1, 5), (6, 9), (7, 64)] }
/-- PacketBuffers, PacketSend, PacketFaults. -/
theorem test_hyp_packets : Ready (withTask pktTask) 0 pktTask ∧ privileged (withTask pktTask) pktTask = true ∧
    pktOf pktTask (sreg pktTask 6) = some ⟨9, [], none, 0⟩ ∧ pktOf pktTask (sreg pktTask 3) = none ∧
    (sreg pktTask 3).toNat % 4 = 0 ∧ 60 ≤ (sreg pktTask 7).toNat ∧ (sreg pktTask 7).toNat ≤ 9600 ∧
    (sreg pktTask 3).toNat = 0 + 256 * 0 ∧ (sreg pktTask 1).toNat % 4 ≠ 0 ∧
    privileged (withTask { pktTask with prog := ⟨0, 0, 16, 0, 256, false⟩ }) { pktTask with prog := ⟨0, 0, 16, 0, 256, false⟩ } = false :=
  ⟨⟨by decide +kernel, by decide +kernel, by decide +kernel, by decide +kernel⟩, by decide +kernel⟩
/-- YieldDoneAndPost: a FIRM task of no template. -/
theorem test_hyp_task : Ready (withTask firmTask) 0 firmTask ∧ TasksFit (withTask firmTask) ∧ undoable firmTask = false ∧
    firmTask.tmpl = none :=
  ⟨⟨by decide +kernel, by decide +kernel, by decide +kernel, by decide +kernel⟩, by decide +kernel⟩

/-- A FIRM task with the descriptor of a FIRM child of no canvas in its scratch area. -/
def spawner : Task :=
  { firmTask with scratch := (List.range 32).map (fun k => (k, ([0x10, 0xFF, 0, 2] : List Byte).getD k 0)) }
/-- SpawnCreatesAChild: the child's program exists; it does not; no slot is free. -/
theorem test_hyp_spawn : descBad (put fld.progCtrl.VALID 1 (withTask spawner) 0) (childDesc spawner (spawnDesc spawner 0)) 0 = false ∧
    nextSlot (put fld.progCtrl.VALID 1 (withTask spawner) 0) = some 1 ∧
    slotQuotaHit (put fld.progCtrl.VALID 1 (withTask spawner) 0) 0 = false ∧
    descBad (withTask spawner) (childDesc spawner (spawnDesc spawner 0)) 0 = true ∧
    nextSlot { withTask spawner with sch := { (withTask spawner).sch with slotFresh := 65536 } } = none := by decide +kernel
/-- CancelEndsTheNamedTask: a handle of no task, and one of another task of the context that runs. -/
theorem test_hyp_cancel :
    cancelTarget (withTask firmTask) firmTask (sreg firmTask 3) = none ∧
    cancelTarget { withTask firmTask with sch := { (withTask firmTask).sch with
        tasks := [(0, firmTask), (1, { firmTask with slot := 1, id := 2, st := .ready })] } } firmTask 0x80000001
      = some { firmTask with slot := 1, id := 2, st := .ready } := by decide +kernel
/-- SideEffectsPark: a SPEC task that can be undone, at a POST. -/
theorem test_hyp_park : Ready withSpec 0 specTask ∧ Enabled specTask ⟨0, 1, 2, 0, 0⟩ ∧ undoable specTask = true ∧
    pureChild specTask (childDesc specTask [0x10, 0, 5, 0, 0, 0, 0, 0]) = false :=
  ⟨⟨by decide +kernel, by decide +kernel, by decide +kernel, by decide +kernel⟩, by decide +kernel⟩
/-- Branches: targets that are multiples of 8 and not. -/
theorem test_hyp_branches : Ready (withTask firmTask) 0 firmTask ∧ (sreg firmTask 3).toNat % 8 = 0 ∧ (sreg firmTask 1).toNat % 8 ≠ 0 ∧
    maskOf firmTask ⟨0, 0, 0, 0, 8⟩ = 0xFFFF ∧ maskOf firmTask ⟨0, 0, 0, 1, 8⟩ = 0 :=
  ⟨⟨by decide +kernel, by decide +kernel, by decide +kernel, by decide +kernel⟩, by decide +kernel⟩
/-- SystemInstructions: a task with a canvas and one without. -/
theorem test_hyp_system : Ready withSpec 0 specTask ∧ specTask.canvas = some 0 ∧ specTask.epoch = some 5 ∧
    firmTask.canvas = none ∧ undoable firmTask = false ∧ TasksFit withSpec :=
  ⟨⟨by decide +kernel, by decide +kernel, by decide +kernel, by decide +kernel⟩, by decide +kernel⟩

/-! ## Hypotheses of the statements about the machine and the words -/

/-- EmptyQueueIsOneTimeCycle, StepKeepsSound, CommandsLeaveTheRest. -/
theorem test_hyp_steps : State.reset.pending = [] ∧
    (memWf (withTask firmTask).fmem && memWf (withTask firmTask).hmem && Map.risesFrom 0 (withTask firmTask).regs) = true ∧
    TasksFit (withTask firmTask) ∧ Next (.addi 0 ⟨2, 1, 0, 0, 7⟩) (withTask firmTask) (fun t => (taskAt t 0).any (fun u => sreg u 2 == 12)) = true ∧
    (mayChange (.cntSnap 0)).isSome = true ∧ Next (.cntSnap 0) State.reset (fun _ => true) = true := by decide +kernel
/-- DecodeOfEncode, EncodeOfDecode. -/
theorem test_hyp_encode : wellFormed (.vadd 159 4 ⟨31, 31, 31, 7, 0xFFFFFFFF⟩) = true ∧
    (encode (.vadd 159 4 ⟨31, 31, 31, 7, 0xFFFFFFFF⟩)).isSome = true ∧ (decodeWord 0 0x4082003900000040#64).isSome = true := by
  decide +kernel

/-! ## Hypotheses of the statements about the block's commands -/

/-- The device after reset with some fields set: field, instance, value. -/
def fields (s : State) (l : List (Fld × Nat × Nat)) : State := l.foldl (fun u x => put x.1 x.2.2 u x.2.1) s

/-- Whether function 0 reaches an instance of a register and a write of it takes effect. -/
def writable0 (s : State) (r : RegId) (i j : Nat) : Bool :=
  fnExists s 0 && hostUp s 0 && !absentReg s r i && !underTest s r i j && (mode s != 7 || safeMay r (r.off i j))
    && (!standby s || !journaled (r.off i j))

/-- A Boolean form of what `Writable` asks of function 0. -/
theorem writable_of_writable0 {s : State} {r : RegId} {i j : Nat} (h : writable0 s r i j = true) : Writable s 0 r i j := by
  simp only [writable0, Bool.and_eq_true, Bool.not_eq_true', Bool.or_eq_true, bne_iff_ne] at h
  exact { known := h.1.1.1.1.1, up := h.1.1.1.1.2, may := Or.inl rfl, present := h.1.1.1.2, quiet := h.1.1.2, safe := h.1.2, active := h.2 }

/-- A CMD ring 0 of 16 entries with four entries and its CPL ring 1, of function 0. -/
def withRings : State :=
  wr .ringTail 4 (fields live [(fld.ringCtrl.KIND, 0, 0), (fld.ringCtrl.LOG2SZ, 0, 4), (fld.ringCtrl.CPL, 0, 1),
    (fld.ringCtrl.EN, 0, 1), (fld.ringCtrl.KIND, 1, 1), (fld.ringCtrl.LOG2SZ, 1, 4), (fld.ringCtrl.EN, 1, 1)]) 0

/-- An entry of two ring entries starts. -/
theorem test_starts : Starts withRings ⟨0, 7, 0⟩ 2 :=
  ⟨⟨by decide +kernel, by decide +kernel, by decide +kernel, by decide +kernel, (fun _ h => nomatch h), by decide +kernel⟩,
    by decide +kernel, by decide +kernel⟩

/-- RingCommandsComplete, TASK: the program exists and a slot is free. -/
theorem test_hyp_cmdTask :
    let s := fields withRings [(fld.progCtrl.VALID, 0, 1)]
    let d := withCtx (eightWords [0x0200FF10]) 0
    descBad s d 0 = false ∧ dEmode d ≠ 1 ∧ specCommitted s d = false ∧ nextSlot s = some 0 ∧ slotQuotaHit s 0 = false := by
  decide +kernel
/-- RingCommandsComplete, CUE (into the log, lost to a parity fault, waiting for room), ALLOC, RETIRE. -/
theorem test_hyp_cmdCue : parseTarget withRings 0 ⟨0, 0, 0⟩ = some .arrival ∧ logRoom withRings = true ∧
    withRings.vat.badNext = false ∧
    (∀ q ∈ withRings.vat.inputs, q.key = (⟨1, 0, 3⟩ : InKey) → q.version.toNat < (newestVersion withRings ⟨1, 0, 3⟩ + 1).toNat) ∧
    memQuotaHit withRings 0 = false ∧ mibFree withRings 5 1 = true ∧ 1 ≤ memMib withRings.member ∧
    ({ withRings with hst := { withRings.hst with allocs := [⟨1, 1, 0, none⟩] } } : State).hst.allocs.find?
      (fun x => x.base * 4096 == 4096 && x.ctx == 0) = some ⟨1, 1, 0, none⟩ ∧
    allocUsed { withRings with hst := { withRings.hst with allocs := [⟨1, 1, 0, none⟩] } } ⟨1, 1, 0, none⟩ = false := by decide +kernel

/-- RingCommandsComplete, the layer commands: a new layer in 1 MiB of its context; a layer of the host's with a free buffer;
and one of the tasks'; an EXT that is not that of its OP. -/
theorem test_hyp_cmdLayer :
    let a := { withRings with hst := { withRings.hst with allocs := [⟨1, 1, 0, none⟩] } }
    let l : Layer := ⟨0, 4, 4, 1, false, none, 4096, 2⟩
    let m : Layer := { l with host := true }
    let b := { a with hst := { a.hst with layers := [(0, l), (1, m)] } }
    ctxHolds a 0 (4096 * 256) (2 * bufStride l) = true ∧ layerOf a 0 = none ∧ layerQuotaHit a 0 = false ∧
    layerOf b 0 = some l ∧ ctxHolds b 0 (4096 * 256) (bufStride l) = true ∧ layerOf b 1 = some m ∧ b.hst.imports = [] ∧
    (poolBufs m).any (fun x => bufsDone b 0 (fun y => y == x) b.sch.nextId (firmJobs b 0)) = true ∧ knownOp 0x7F = false := by
  decide +kernel

/-- SemaphoresWork: a free semaphore, one held by the reader, one held by another, one whose lease runs, one expired; functions
of both ports. -/
theorem test_hyp_semaphores :
    let h := fields live [(fld.sem.HELD, 3, 1), (fld.sem.OWNER, 3, 16), (fld.semCfg.LEASE_US, 3, 500), (fld.sem.HELD, 4, 1)]
    let x := fields h [(fld.sem.EXPIRED, 3, 1)]
    pcieFn h 0 = true ∧ acrossPorts h 0 16 = true ∧ writable0 h .sem 2 0 = true ∧ writable0 h .semForce 0 0 = true ∧
    on h fld.sem.HELD 2 = false ∧ on h fld.sem.HELD 4 = true ∧ get h fld.sem.OWNER 4 = 0 ∧ get h fld.sem.OWNER 3 ≠ 0 ∧
    on h fld.sem.EXPIRED 3 = false ∧ get h fld.semCfg.LEASE_US 3 ≠ 0 ∧ on x fld.sem.EXPIRED 3 = true ∧
    get x fld.sem.OWNER 3 / 16 ≠ 0 / 16 := by decide +kernel
/-- RingRegistersWork: a ring that fits and one that does not; a TAIL inside and one outside; a CPL ring; a flush; a waiting record;
an owner that does not exist. -/
theorem test_hyp_rings :
    let u := plainWrite true .ringCtrl 5 0 0x00000401 live
    let w := { fields withRings [(fld.ringCtrl.FLUSH, 0, 1), (fld.ringCtrl.EN, 0, 0)] with
      hst := { withRings.hst with cplWait := [.record 1 0 [1, 2]] } }
    writable0 live .ringCtrl 5 0 = true ∧ on live fld.ringCtrl.EN 5 = false ∧ on u fld.ringCtrl.EN 5 = true ∧
    pcieFn live 0 = true ∧ pcieFn live 5 = false ∧
    deviceProduces withRings 0 = false ∧ deviceProduces withRings 1 = true ∧ 5 < ringSize withRings 0 ∧ ringOcc withRings 0 = 4 ∧
    ringSize withRings 0 = 16 ∧ on w fld.ringCtrl.FLUSH 0 = true ∧ ringStarted w 0 = false ∧
    cplTakes w 1 0 = true ∧ (∀ t ∈ allTasks w, t.finishing = none) ∧ on withRings fld.ringCtrl.EN 1 = true := by decide +kernel

/-- HostAccessWorks: registers that only store, are shadowed, and can be read; a BAR2 address; an import; a ready fence; a change
that waits; a ring that an enabled plane names. -/
theorem test_hyp_hostAccess :
    let l : Layer := ⟨0, 4, 4, 1, true, none, 8192, 2⟩
    let i : Import := ⟨1, 8192, 0, 16, none, [], .arrival, 0⟩
    let s := { live with
      hst := { live.hst with
        layers := [(1, l)], imports := [i], fences := [⟨0, 1, 1, 0, []⟩], allocs := [⟨1, 1, 0, some 1⟩] }
      vat := { live.vat with waiting := [⟨⟨1, 0, 3⟩, 9, 0, .arrival, none⟩] } }
    let n := fields s [(fld.canvasCtrl.EN, 0, 1), (fld.planeCtrl.EN, 0, 1)]
    (regAt (RegId.off .epHold 0 0)).isSome = true ∧ storesOnly .epHold = true ∧ writable0 s .epHold 0 0 = true ∧
    writable0 s .ppsOut 0 0 = true ∧ writable0 s .progLen 0 0 = true ∧ writable0 s .vsize 0 0 = true ∧
    ringNamed n 0 = true ∧ ringNamed s 0 = false ∧
    acrossPorts s 0 16 = true ∧ readActs .idLo = false ∧ pcieFn s 0 = true ∧ hostUp s 0 = true ∧ mode s ≠ 7 ∧
    blockTested s 27 = false ∧
    bar2May s 0 (bar2Addr s 0 0) 4 = true ∧ standby s = false ∧ layerOf s 1 = some l ∧ runningImport s 1 0 = some i ∧
    logRoom s = true ∧ runningCanvases s = [] ∧ s.vat.badNext = false ∧ s.hst.perst.contains 0 = false ∧
    s.hst.fences.find? (fun f => f.ctx == 0) = some ⟨0, 1, 1, 0, []⟩ ∧
    fenceReady { s with hst := { s.hst with imports := [] } } ⟨0, 1, 1, 0, []⟩ = true ∧
    s.vat.waiting[0]? = some ⟨⟨1, 0, 3⟩, 9, 0, .arrival, none⟩ ∧ s.vat.waiting[1]? = none := by decide +kernel

/-- A READY task of context 0 with the scheduler on and every cluster open. -/
def withReady : State :=
  fields (withTask { firmTask with st := .ready, lastCore := none }) [(fld.sched.EN, 0, 1), (fld.schedClusters.SCHED_CLUSTERS, 0, 0xFFFFF),
    (fld.pwrMode.MODE, 0, 5), (fld.ctxCtrl.EN, 0, 1)]
/-- SchedulerWorks: a sound state with a dispatch, an affinity wait, a cancel, a disabled context, an end of a period. -/
theorem test_hyp_scheduler : (memWf withReady.fmem && memWf withReady.hmem && Map.risesFrom 0 withReady.regs) = true ∧
    TasksFit withReady ∧ on withReady fld.sched.EN = true ∧ blockTested withReady 20 = false ∧ clusterOpen withReady 0 = true ∧
    taskOn withReady 0 = none ∧ choose withReady 0 = some { firmTask with st := .ready, lastCore := none } ∧
    taskAt withReady 0 = some { firmTask with st := .ready, lastCore := none } ∧ writable0 withReady .schedCancel 0 0 = true ∧
    writable0 withReady .ctxCtrl 0 0 = true ∧ on withReady fld.ctxCtrl.EN 0 = true ∧ withReady.sch.ctxClosing = [] ∧
    nextSlot withReady = some 1 ∧
    (fclock { withReady with tim := { withReady.tim with fcs := [(0, ⟨[⟨0, 10, 0, 0⟩], 5⟩)] } }
      (get withReady fld.ctxCtrl.FC 0)).isSome = true := by decide +kernel

/-- SchedulerWorks: a tile task to create, a task to create again, a kick, and a saved task whose cluster is gone. -/
theorem test_hyp_creation :
    let d : DoneTask := ⟨9, [0, 0, 5, 0, 0, 0, 0, 0], 0, 0, 5, ⟨0, 0, 16, 0, 256, false⟩, 0, none, none, [], [], [], false, 1, 0, none⟩
    let j : CreateJob := ⟨1, 0, [0, 0, 5, 0, 0, 0, 0, 0], 0, 0, some 5, ⟨0, 0, 16, 0, 256, false⟩, 0, 1⟩
    let s := { withReady with sch := { withReady.sch with createQ := [j], recreateQ := [d] } }
    let k := wr .tmplDesc 0x0200FF10 (fields withReady [(fld.tmplBind.KIND, 2, 8), (fld.progCtrl.VALID, 0, 1)]) 2 0
    let g := fields withReady [(fld.schedClusters.SCHED_CLUSTERS, 0, 0xFFFFE)]
    s.sch.createQ.find? (fun j => !slotQuotaHit s j.ctx && !blockTested s 20) = some j ∧
    s.sch.recreateQ.find? (fun d => slotFree s d.ctx && ctxLive s d.ctx && !blockTested s 20) = some d ∧
    writable0 k .schedKick 0 0 = true ∧ tmplKind k 2 = 8 ∧ tmplTaken k 2 = false ∧ tmplLive k 2 (tmplDesc k 2) = true ∧
    descBad k (tmplDesc k 2) (dCtx (tmplDesc k 2)) = false ∧ dEmode (tmplDesc k 2) ≠ 1 ∧ slotQuotaHit k (dCtx (tmplDesc k 2)) = false ∧
    clusterGone g 0 = true ∧ rebindTo g { firmTask with st := .ready, spill := some 0, prog := ⟨0, 0, 16, 0, 256, false⟩ } = some 1 := by decide +kernel

/-- A canvas of 64 × 32 pixels that runs in SHOW on frame clock 0 at 60 Hz, with its epoch 5 to commit, 16 MiB of memory and
the latch instant of that epoch. -/
def withShow : State :=
  { fields (wr .rmEpoch 5 (wr .wpEpoch 5 (wr .vatBase 4096 live 0) 0) 0) [(fld.pwrMode.MODE, 0, 5), (fld.canvasCtrl.EN, 0, 1),
      (fld.canvasStatus.RUN, 0, 1), (fld.canvasWidth.WIDTH, 0, 64), (fld.canvasHeight.HEIGHT, 0, 32), (fld.fcCtrl.RATE, 0, 10),
      (fld.fcCtrl.EN, 0, 1), (fld.vatSize.STRIDE, 0, 64), (fld.epCtrl.EN, 0, 1), (fld.twinCtrl.LFC, 0, 0)] with
    vat := { live.vat with canvases := [(0, { canvasIdle with epochs := [⟨5, 0, 100000000, 4, false, [], [], [], false, false, []⟩] })] }
    tim := { live.tim with fcs := [(0, ⟨[⟨0, 10, 0, 0⟩], 5⟩)] }
    hst := { live.hst with allocs := [⟨1, 16, 0, none⟩] } }
/-- VatAndGlazeWork: a commit, a stall with a free slot, fill copies, a pin, a frame instant, Mordant's window. -/
theorem test_hyp_vat :
    let at_ := commitInst withShow 0 5
    let st := fields withShow [(fld.canvasStatus.STALL, 0, 1)]
    let cp := { withShow with vat := { withShow.vat with canvases :=
      [(0, { canvasIdle with epochs := [⟨5, 0, 0, 4, true, [], [], [1], false, false, []⟩] })] } }
    let tx := fields withShow [(fld.vatSlots.TXV, 0, 1)]
    canvasRuns withShow 0 = true ∧ standby withShow = false ∧ halves withShow 0 = [0] ∧ rmEp withShow 0 = 5 ∧
    epochRec withShow 0 5 = some ⟨5, 0, 100000000, 4, false, [], [], [], false, false, []⟩ ∧ pendingRegs withShow 0 = [] ∧
    rateSwitch (advance at_ withShow) (canvasFc withShow 0) 5 = false ∧ canvasRuns st 0 = true ∧ on st fld.canvasStatus.STALL 0 = true ∧
    (freeSlot st 0).isSome = true ∧ copying cp 0 = true ∧ txv tx 0 = true ∧ eff tx fld.canvasCtrl.DEPTH 0 ≠ 2 ∧
    on tx fld.vatSlots.PINNED 0 = false ∧ writable0 withShow .vatCmd 0 0 = true ∧ writable0 withShow .mordData 0 0 = true ∧
    (fclock withShow 0).isSome = true ∧ bankUsed withShow 0 = true ∧ bankUsed live 0 = false := by decide +kernel
/-- VatAndGlazeWork: a canvas that may be enabled, one that may not, one to disable. -/
theorem test_hyp_enable :
    let s := fields withShow [(fld.canvasCtrl.EN, 0, 0), (fld.canvasStatus.RUN, 0, 0)]
    let v : W32 := rd s .canvasCtrl 0 ||| 1
    writable0 s .canvasCtrl 0 0 = true ∧ on s fld.canvasCtrl.EN 0 = false ∧ enableOk (plainWrite true .canvasCtrl 0 0 v s) 0 = true ∧
    halves (plainWrite true .canvasCtrl 0 0 v s) 0 = [0] ∧ enableOk (plainWrite true .canvasCtrl 0 0 1 live) 0 = false ∧
    on withShow fld.canvasCtrl.EN 0 = true := by decide +kernel
/-- VatAndGlazeWork: a SPEC task to squash; a segment and its window, with good data and with bad; a plane. -/
theorem test_hyp_glaze :
    let t := specTask
    let s := { withShow with sch := { withShow.sch with tasks := [(0, t)] } }
    let g := { withShow with glz := { withShow.glz with
      work := [⟨.pix, 0, 5, 3, 0, false, 1⟩], wins := [⟨0, 5, 0, 200000000, [], [], [], [], 0⟩] } }
    taskAt s t.slot = some t ∧ (allTasks s).filter (fun t => match t.canvas, t.epoch with
      | some c', some e => c' == 0 && openEp s 0 e && undoable t && t.finishing.isNone
      | _, _ => false) = [t] ∧ s.sch.doneTasks = [] ∧
    nextSeg g = some ⟨.pix, 0, 5, 3, 0, false, 1⟩ ∧ (winOf g 0 5).isSome = true ∧ pipeFree g 0 = true ∧ blockTested g 22 = false ∧
    pixelBad { g with fbad := [slotAddr g 0 0] } 0 0 (0, 0) = true ∧
    eff (fields g [(fld.planeCtrl.EN, 0, 1)]) fld.planeCtrl.EN 0 0 = 1 := by decide +kernel

/-- A frame as it is received: destination MAC, EtherType and what follows, padded. -/
def frameTo (dst ty : Nat) (body : List Byte) : RxFrame :=
  let b := beBytes 6 dst ++ beBytes 6 1 ++ beBytes 2 ty ++ body
  ⟨500, 0, b ++ List.replicate (60 - b.length) 0, false, false, false⟩
/-- A STAT of node 0 on canvas 0 with one output and two strings. -/
def statFrame (output : Byte) : RxFrame :=
  frameTo 0xFFFFFFFFFFFF 0x88B5 ([1, 7, 0, 0] ++ beBytes 4 3 ++ beBytes 4 0 ++ beBytes 2 9 ++ beBytes 2 28 ++ beBytes 8 0
    ++ [1, 0, 40, 0, 0, 9, 0, 0] ++ [output, 2, 0, 0, 0x01] ++ List.replicate 15 0)

/-- EndpointsWork: the registers, a view, table bases, a kill group, a blackout with a port that sends, a universe that stops. -/
theorem test_hyp_endpoints :
    let s := fields withShow [(fld.macCtrl.EN, 3, 1), (fld.univCtrl.EN, 2, 1), (fld.univCtrl.PORT, 2, 3), (fld.epBlackout.BLACKOUT_ON, 0, 1)]
    writable0 s .etabWord 7 3 = true ∧ writable0 s .etabWord 7 0 = true ∧ entryReason s (stagedEntry s 7 0) 7 ≠ 0 ∧
    eValid (stagedEntry s 7 0) 7 = false ∧ writable0 s .viewBase 0 0 = true ∧ viewClash s 0 0 0 = false ∧ writable0 s .drvBase 0 0 = true ∧
    (∃ a ∈ s.hst.allocs, a.base * 4096 = (4096 : W32).toNat ∧ endpoints s.member * 32 / 1048576 ≤ a.size) ∧ writable0 s .epDrvKick 0 0 = true ∧
    writable0 s .epFltClr 0 0 = true ∧ writable0 s .kg 5 0 = true ∧ writable0 s .epBlackout 0 0 = true ∧ portSends s 3 = true ∧
    on s fld.epBlackout.BLACKOUT_ON = true ∧ writable0 s .univCtrl 2 0 = true ∧ on s fld.univCtrl.EN 2 = true ∧
    get s fld.univCtrl.PORT 2 = 3 ∧ on s fld.epCtrl.EN = true ∧ on live fld.epCtrl.EN = false := by decide +kernel
/-- EndpointsWork: LATCH, the beacon in HOLD, the sACN synchronisation, a DMX packet, a STAT that is accepted and one of an output
that the node lacks, a node that is lost. -/
theorem test_hyp_latches :
    let s := fields withShow [(fld.vatSlots.TXV, 0, 1), (fld.sacnSync.SACN_SYNC, 0, 1), (fld.dmxCanvas.DMX_EN, 0, 1), (fld.macCtrl.EN, 3, 1)]
    let h := fields s [(fld.pwrMode.MODE, 0, 4), (fld.canvasStatus.RESTING, 0, 1)]
    let e := wr .etabWord 1 s 7 0
    canLatch s 0 = true ∧ Map.find? s.epg.latched 0 ≠ some (txEp s 0) ∧ mode h = 4 ∧ on h fld.canvasStatus.RESTING 0 = true ∧
    canLatch h 0 = true ∧ get s fld.sacnSync.SACN_SYNC 0 ≠ 0 ∧ Map.find? s.epg.synced 0 ≠ some (txEp s 0) ∧
    get s fld.dmxCanvas.DMX_CANVAS 0 = 0 ∧ on s fld.dmxCanvas.DMX_EN 0 = true ∧ dmxDue { s with ot := 90000000 } 0 = true ∧
    on s fld.epCtrl.EN = true ∧ mode s ≠ 7 ∧ blockTested s 26 = false ∧ canvasRuns s 0 = true ∧
    (fclock s (canvasFc s 0)).isSome = true ∧ eValid (publishedEtab e) 7 = true ∧ eTransport (publishedEtab e) 7 < 2 ∧
    (epOf e 7).lost = false ∧ standby e = false ∧ eNode (publishedEtab e) 7 = 0 ∧ eOutput (publishedEtab e) 7 = 0 ∧
    nodeEntries (publishedEtab e) 0 = [7] ∧ eCanvas (publishedEtab e) 7 = 0 := by
  decide +kernel
/-- EndpointsWork: the STATs of those two frames. -/
theorem test_hyp_stat :
    let e := wr .etabWord 1 (fields withShow [(fld.macCtrl.EN, 3, 1)]) 7 0
    (match rxRoute e 3 (statFrame 0) with
      | .stat g => (statOf g).malformed == false && (statOf g).node == 0 && (statOf g).canvas == 0 && (statOf g).epoch == 3
        && (statOf g).temp == 40 && (statOf g).records == [⟨0, [0, 1]⟩]
      | _ => false) = true ∧
    (match rxRoute e 3 (statFrame 4) with | .stat g => (statOf g).records == [⟨4, [0, 1]⟩] | _ => false) = true := by
  decide +kernel

/-- TimeAndClocksWork: SET_GO, a read of OT_LO, a sample that is rejected and one that is accepted, ANN_KICK, the time-out. -/
theorem test_hyp_time :
    let s := fields live [(fld.timeCtrl.EN, 0, 1), (fld.domCfg.EN, 0, 1)]
    let d := { s with tim := { s.tim with dom0 := { domOff with st := 2 } } }
    let b := wr .meas 100 d 0 2
    writable0 s .setGo 0 0 = true ∧ clocksStopped s = true ∧ clocksStopped withShow = false ∧ writable0 d .measPush 0 0 = true ∧
    on d fld.timeCtrl.EN = true ∧ (domOf d 0).st ≠ 0 ∧ ¬ (measDelay (on d fld.domCfg.MODE 0) (measOf d 0) < 0) ∧ (domOf d 0).total = 0 ∧
    writable0 d .annKick 0 0 = true ∧ (domOf d 0).st = 2 ∧ writable0 d .domCfg 0 0 = true ∧ writable0 d .timeCtrl 0 0 = true ∧
    followsTwin d = false ∧ tracks d 0 = true ∧ tracks d 1 = false ∧ measDelay (on b fld.domCfg.MODE 0) (measOf b 0) ≠ measDelay (on d fld.domCfg.MODE 0) (measOf d 0) := by decide +kernel
/-- TimeAndClocksWork: frame clocks inside and outside the limits, NEXT_LO, the timestamp queue, PPS and the 10 MHz reference. -/
theorem test_hyp_clocks :
    let p := (rateOf 10).isSome
    let q := { fields live [(fld.ppsOut.EN, 0, 1), (fld.pwrMode.MODE, 0, 5), (fld.timeStatus.REF10_OK, 0, 1)] with
      prt := { live.prt with ports := [(3, { portIdle with tsq := [⟨1, 2, 3, 4⟩] })] }
      tim := { live.tim with ppsIn := some (9, 1), ref10 := some 5 } }
    p = true ∧ (rateOf 0).isNone = true ∧ get live fld.fcPhase.PHASE 1 < periodOf 10 ∧ writable0 live .fcCtrl 1 0 = true ∧
    on live fld.fcCtrl.EN 1 = false ∧ on withShow fld.fcCtrl.EN 0 = true ∧ fcBound withShow 0 = true ∧
    writable0 live .fcPhase 1 0 = true ∧ (fclock withShow 0).isSome = true ∧ fclock live 0 = none ∧
    mode q ≠ 7 ∧ q.hst.parity = [] ∧ (portOf q 3).tsq = [⟨1, 2, 3, 4⟩] ∧ writable0 q .tsqE0 3 0 = true ∧ writable0 q .tsqCtrl 3 0 = true ∧ mode q = 5 ∧
    on q fld.ppsOut.EN 0 = true ∧ get q fld.ppsOut.SRC 0 ≠ 3 ∧ on q fld.timeStatus.REF10_OK = true ∧
    on live fld.timeStatus.REF10_OK = false := by decide +kernel

/-- A frame of class 5. -/
def frame5 : QFrame := ⟨5, 0, .pkt, none, [1, 2, 3], 60, 0, false, false⟩
/-- Port 3 on, with a frame in its queue; port 16 with a frame on the wire. -/
def withPorts : State :=
  { fields withShow [(fld.macCtrl.EN, 3, 1), (fld.t1sCtrl.EN, 0, 1), (fld.ringCtrl.KIND, 4, 4), (fld.ringCtrl.LOG2SZ, 4, 4),
      (fld.ringCtrl.EN, 4, 1), (fld.ringTail.TAIL, 4, 1), (fld.gateCtrl.GATE_EN, 3, 1), (fld.macCtrl.PAUSE_MODE, 3, 1),
      (fld.eeeCfg.EEE_OK, 3, 1), (fld.macCtrl.LPI_EN, 3, 1), (fld.bwCtrl.BW_EN, 3, 1), (fld.bwCtrl.BW_WIN_US, 3, 1000)] with
    prt := { live.prt with
      ports := [(3, { portIdle with queue := [frame5] }), (4, { portIdle with paused := [(5, 9000)], wdEnd := [(6, 9000)], backoff := some 7 }),
        (16, { portIdle with wire := some frame5 })]
      dmxs := [(1, { dmxIdle with rdm := 2 })] } }
/-- PortsWork: a frame that starts and one that ends, a TX ring, a gate cycle, SWAP, a disabled port, pause, LPI, a collision. -/
theorem test_hyp_ports :
    portReady withPorts 3 = true ∧ headOf (portOf withPorts 3) 5 = some frame5 ∧ headOf (portOf withPorts 3) 7 = none ∧
    gateTooShort withPorts 3 5 (wireTime withPorts 3 frame5) = false ∧ Map.find? (portOf withPorts 3).paused 5 = none ∧
    gateAdmits withPorts 3 5 (wireTime withPorts 3 frame5) = true ∧ classOpen withPorts 5 = true ∧ lateBy withPorts frame5 = false ∧
    (portOf withPorts 16).wire = some frame5 ∧ ringRuns withPorts 4 4 = true ∧ on withPorts fld.ringCtrl.FLUSH 4 = false ∧
    ringOcc withPorts 4 = 1 ∧ portSends withPorts 3 = true ∧ portPresent withPorts.member 3 = true ∧ (portOf withPorts 3).gateOn = none ∧
    on withPorts fld.gateCtrl.GATE_EN 3 = true ∧ (nextCycle withPorts 0 0 0).isSome = true ∧ writable0 withPorts .gateCtrl 3 0 = true ∧
    writable0 withPorts .macCtrl 3 0 = true ∧ writable0 withPorts .t1sCtrl 0 0 = true ∧ on withPorts fld.t1sCtrl.EN 0 = true ∧
    blockTested withPorts 24 = false ∧ portPresent withPorts.member 3 = true ∧
    rxRoute withPorts 3 (frameTo 0x0180C2000001 0x8808 [0, 1, 0, 9]) = .pause (.pause 9) ∧
    (match rxRoute withPorts 3 (frameTo 0x0180C2000001 0x8808 [1, 1, 0, 0x20, 0, 0, 0, 0, 0, 0, 0, 0, 0, 0, 0, 5]) with
      | .pause (.pfc 0x20 qs) => qs.getD 5 0 == 5
      | _ => false) = true ∧ get withPorts fld.macCtrl.PAUSE_MODE 3 = 1 ∧ Map.find? (portOf withPorts 3).wdEnd 5 = none := by
  decide +kernel
/-- PortsWork: the ends of pause and of back-off, LPI, PLCA, RDM, a bandwidth window. -/
theorem test_hyp_ports2 :
    let i := { withPorts with prt := { withPorts.prt with ports := [] } }
    Map.find? (portOf withPorts 4).paused 5 = some 9000 ∧ Map.find? (portOf withPorts 4).wdEnd 6 = some 9000 ∧
    (portOf withPorts 4).backoff = some 7 ∧ portSends i 3 = true ∧ on i fld.macCtrl.LPI_EN 3 = true ∧ on i fld.eeeCfg.EEE_OK 3 = true ∧
    on i fld.portStatus.LPI_TX 3 = false ∧ (portOf i 3).queue = [] ∧ (portOf i 3).wire = none ∧ writable0 i .eeeCfg 3 0 = true ∧
    plcaRuns withPorts 0 = false ∧ portHears withPorts 16 = true ∧
    on (fields withPorts [(fld.t1sCtrl.PLCA_EN, 0, 1), (fld.t1sCtrl.NODE_ID, 0, 3)]) fld.t1sCtrl.PLCA_EN 0 = true ∧
    get (fields withPorts [(fld.t1sCtrl.PLCA_EN, 0, 1), (fld.t1sCtrl.NODE_ID, 0, 3)]) fld.t1sCtrl.NODE_ID 0 ≠ 0 ∧ (dmxOf withPorts 0).busy = none ∧
    (portOf { withPorts with prt := { withPorts.prt with ports := [(16, { portIdle with wire := some frame5, dropDue := true })] } } 16).dropDue = true ∧
    writable0 withPorts .rdmCtrl 0 0 = true ∧ on withPorts fld.rdmStatus.BUSY 0 = false ∧ (dmxOf withPorts 1).rdm = 2 ∧
    on withPorts fld.bwCtrl.BW_EN 3 = true ∧ (bwEnd withPorts 3).isSome = true := by decide +kernel

/-- A UDP datagram to 10.0.0.1, port 5004, in a frame to everyone. -/
def udpFrame : RxFrame :=
  frameTo 0xFFFFFFFFFFFF 0x0800 ([0x45, 0, 0, 0, 0, 0, 0, 0, 9, 17, 0, 0, 10, 0, 0, 2, 10, 0, 0, 1] ++ beBytes 2 5004 ++ beBytes 2 5004)
/-- A REPLY of a node without a number. -/
def replyFrame : RxFrame :=
  frameTo 0xFFFFFFFFFFFF 0x88B5 ([1, 6, 0, 0] ++ List.replicate 10 0 ++ beBytes 2 32 ++ List.replicate 8 0 ++ [1, 2] ++ List.replicate 30 0)
/-- Port 3 with rings for frames, of which ring 6 has a posted buffer. -/
def receiving : State :=
  { fields withPorts [(fld.rxDef.DEF_EN, 3, 1), (fld.rxDef.DEF_RING, 3, 6), (fld.ringCtrl.KIND, 6, 3), (fld.ringCtrl.LOG2SZ, 6, 4),
      (fld.ringCtrl.EN, 6, 1), (fld.ringTail.TAIL, 6, 2), (fld.rxDef.SVC_EN, 3, 1), (fld.rxDef.SVC_RING, 3, 6), (fld.sched.SVC, 0, 1),
      (fld.macCtrl.BAD_DELIVER, 3, 1)] with
    hst := { withPorts.hst with rxPosted := [(6, [⟨4096, 2048⟩])] } }
/-- ReceptionWorks: a frame that the filter drops, frames to a ring with a buffer and without one by each of the four ways, a
REPLY. -/
theorem test_hyp_rx :
    let f := wr .flowIp0 0x0A000001 (fields receiving [(fld.flowCtrl.EN, 3, 1), (fld.flowCtrl.KIND, 3, 0), (fld.flowCtrl.TARGET, 3, 6),
      (fld.flowCtrl.UDP_PORT, 3, 5004)]) 3 0
    rxRoute receiving 3 (frameTo 0x020000000009 0x0806 []) = .filtered ∧
    rxRoute receiving 3 (frameTo 0xFFFFFFFFFFFF 0x0806 []) = .other ∧ on receiving fld.rxDef.DEF_EN 3 = true ∧
    get receiving fld.rxDef.DEF_RING 3 = 6 ∧
    rxRoute receiving 3 (frameTo 0xFFFFFFFFFFFF 0x88CC []) = .service none ∧ on receiving fld.rxDef.SVC_EN 3 = true ∧
    rxRoute f 3 udpFrame = .flow 0 ∧ get f fld.flowCtrl.KIND 3 0 = 0 ∧ get f fld.flowCtrl.TARGET 3 0 = 6 ∧
    rxRoute receiving 3 { udpFrame with fcs := true } = .bad 1 ∧ on receiving fld.macCtrl.BAD_DELIVER 3 = true ∧
    svcTmpls receiving 6 = [] ∧ ringRuns receiving 6 3 = true ∧ on receiving fld.ringCtrl.FLUSH 6 = false ∧
    postedOn receiving 6 = [⟨4096, 2048⟩] ∧ 0 < ringOcc receiving 6 ∧ udpFrame.bytes.length ≤ 2048 ∧ udpFrame.poisoned = false ∧
    postedOn withPorts 6 = [] ∧ svcOn receiving = true ∧
    (match rxRoute receiving 3 replyFrame with | .service (some q) => q.node == 0 | _ => false) = true := by
  decide +kernel
/-- Port 3 with a flow entry of a kind for that datagram and a target. -/
def flowing (kind target : Nat) : State :=
  wr .flowIp0 0x0A000001 (fields withPorts [(fld.flowCtrl.EN, 3, 1), (fld.flowCtrl.KIND, 3, kind), (fld.flowCtrl.TARGET, 3, target),
    (fld.flowCtrl.UDP_PORT, 3, 5004), (fld.sched.SVC, 0, 1)]) 3 0
/-- Target 1 of a kind has heard a leg and a packet; timecode 2 has a word. -/
def streaming (kind : Nat) : State :=
  let g : Merge := { mergeIdle with high := some 9000, seen := [9000], legAt := [(48, 7)] }
  { flowing kind 1 with
    prt := { withPorts.prt with
      vids := [(1, ⟨g, [⟨1, 5, 0⟩]⟩)], auds := [(1, ⟨g, none, 0, [], some 3⟩)], ancs := [(1, g)], tcAt := [(2, 700)] } }
/-- ReceptionWorks: packets of a video, an audio and a timecode target, a leg that falls silent. -/
theorem test_hyp_streams :
    let v := streaming 1
    kindRoute v 1 3 udpFrame = some 0 ∧ kindRoute (streaming 2) 2 3 udpFrame = some 0 ∧ kindRoute (streaming 3) 3 3 udpFrame = some 0 ∧
    get v fld.flowCtrl.TARGET 3 0 = 1 ∧ mayOverflow v = false ∧
    (match mergeSeq (heard (vidOf v 1).merge 48 9) 9000 with | .dup => true | _ => false) = true ∧
    (match mergeSeq (heard (vidOf v 1).merge 48 9) 10 with | .stale => true | _ => false) = true ∧
    (match mergeSeq (heard (vidOf v 1).merge 48 9) 9001 with | .accept _ => true | _ => false) = true ∧
    videoBad v 1 ⟨9001, 5, true, []⟩ = true ∧ (vidOf v 1).frames = [⟨1, 5, 0⟩] ∧
    videoBad (fields v [(fld.vsize.VHEIGHT, 1, 8)]) 1 ⟨9001, 5, false, [⟨0, 0, []⟩]⟩ = false ∧
    on (fields (streaming 2) [(fld.aud.AUD_EN, 1, 1)]) fld.aud.AUD_EN 1 = true ∧ (audOf (streaming 2) 1).closed = some 3 ∧
    (audOf (streaming 2) 1).seg = none ∧ (audOf (streaming 2) 1).samples = [] ∧ 3 + 2 = 240 / 48 ∧ 3 + 1 = 192 / 48 ∧
    (legsOf v 1 1)[0]? = some 48 ∧ Map.find? (targetMerge v 1 1).legAt 48 = some 7 ∧
    (targetMerge v 1 1).silent.contains 48 = false ∧ Map.find? v.prt.tcAt 2 = some 700 ∧
    on (fields v [(fld.tcReg.VALID, 2, 1)]) fld.tcReg.VALID 2 = true := by decide +kernel
/-- ReceptionWorks: live entries on nine ports may pass 200 Gb/s. -/
theorem test_hyp_overflow :
    let s := fields (flowing 1 1) ((List.range 9).flatMap (fun p => [(fld.macCtrl.EN, p, 1), (fld.flowCtrl.EN, p, 1), (fld.flowCtrl.KIND, p, 1)]))
    mayOverflow s = true ∧ kindRoute s 1 3 udpFrame = some 0 := by decide +kernel
/-- ReceptionWorks: the timecode gates, a subscription with one source, a packet of its universe. -/
theorem test_hyp_subscriptions :
    let s := { fields (flowing 4 0) [(fld.subCtrl.EN, 4, 1), (fld.subCtrl.UNIV, 4, 63)] with
      prt := { withPorts.prt with subs := [(4, ⟨[⟨77, 100, 0, [1]⟩], []⟩)] } }
    on (fields s [(fld.tcReg.TC_EN, 0, 1)]) fld.tcReg.TC_EN 0 = true ∧ portClock s = true ∧ s.vat.badNext = false ∧
    kindRoute s 4 3 udpFrame = some 0 ∧ svcOn s = true ∧ subsOf s 63 = [4] ∧ (subOf s 4).srcs.length < 8 ∧
    ((subOf s 4).srcs.find? (fun y => y.cid == 77)).isSome = true ∧ logRoom s = true ∧ standby s = false := by decide +kernel

/-- The device in a role with the frame clock of its lease. -/
def inRole (r m : Nat) : State :=
  fields { withShow with twn := { live.twn with renewed := some 3, leaseEnd := 900000000, takeAt := some 50 } }
    [(fld.twinStatus.ROLE, 0, r), (fld.pwrMode.MODE, 0, m), (fld.twinStatus.LEASE, 0, 1), (fld.twinCtrl.LEASE_N, 0, 3)]
/-- TwinLeaseWorks: a holder that renews or lapses, a standby that expires in each way, the takeover, WAIT, the wire. -/
theorem test_hyp_twin :
    let w := fields (inRole 1 3) [(fld.twinCtrl.PRIMARY, 0, 1)]
    let i := fields (inRole 5 6) [(fld.twinStatus.STALE, 0, 1), (fld.twinStatus.WIRE, 0, 1), (fld.twinCtrl.STALE_TAKE, 0, 0)]
    (match leaseClock (inRole 2 5) with
      | some f => decide (0 > timeDiff (f.cur 0) 4) && !commitsStopped (advance (f.inst 4) (inRole 2 5)) && decide (timeDiff (f.inst 4) 900000000 < 0)
      | none => false) = true ∧
    (match leaseClock { inRole 2 5 with ot := 500000000 } with
      | some f => decide (0 ≤ timeDiff (f.cur 500000000) 4) && commitsStopped (advance (f.inst (f.cur 500000000)) { inRole 2 5 with ot := 500000000 })
          && decide (timeDiff (f.inst (f.cur 500000000)) 900000000 < 0)
      | none => false) = true ∧ role (inRole 2 5) = 2 ∧ on (inRole 2 5) fld.twinStatus.LEASE = true ∧
    (inRole 2 5).twn.renewed = some 3 ∧ role (inRole 3 6) = 3 ∧ mode (inRole 3 6) = 6 ∧ role i = 5 ∧ on i fld.twinStatus.STALE = true ∧
    on i fld.twinCtrl.STALE_TAKE = false ∧ on (inRole 5 6) fld.twinStatus.STALE = false ∧ (inRole 5 6).twn.buffered = [] ∧
    (inRole 5 6).twn.wait = [] ∧ role (inRole 6 6) = 6 ∧ (inRole 6 6).twn.takeAt = some 50 ∧ role w = 1 ∧ mode w = 3 ∧ busy w = false ∧
    safePending w = false ∧ on w fld.twinCtrl.PRIMARY = true ∧ writable0 w .twinCmd 0 0 = true ∧ writable0 w .twinCtrl 0 0 = true ∧
    on i fld.twinStatus.WIRE = true ∧ (leaseClock (plainWrite true .twinCtrl 0 0 1 w)).isSome = true := by decide +kernel
/-- TwinLeaseWorks: the host's commands in the roles where they act. -/
theorem test_hyp_twinCmd :
    let o := fields (inRole 7 7) [(fld.safeCause.SAFE_CAUSE, 0, 2)]
    writable0 (inRole 2 5) .twinCmd 0 0 = true ∧ writable0 (inRole 4 6) .twinCmd 0 0 = true ∧ role (inRole 4 6) = 4 ∧
    role o = 7 ∧ mode o = 7 ∧ busy o = false ∧ safePending o = false ∧ get o fld.safeCause.SAFE_CAUSE = 2 ∧
    writable0 o .twinCmd 0 0 = true ∧ on (inRole 1 3) fld.twinCtrl.EN = false ∧ mode (inRole 2 5) ≠ 3 := by decide +kernel
/-- TwinJournalWorks: a standby that buffers, one that applies, the copy and its sender, the wait for tiles. -/
theorem test_hyp_journal :
    let c := inRole 3 6
    let i := fields (inRole 5 6) [(fld.twinCtrl.AUTO_RESYNC, 0, 0)]
    let w := { i with twn := { i.twn with wait := [⟨0, 5, 0, false, [], 0⟩] } }
    let u := advance (commitInst w 0 5) (advance (0 + BitVec.ofNat 64 (get w fld.twinCtrl.SHADOW_WAIT * fcPeriod w (canvasFc w 0))) w)
    jseqAhead i ⟨1, 0, 0⟩ = 0 ∧ jseqAhead i ⟨5, 0, 0⟩ = 4 ∧ jseqAhead i ⟨0, 0, 0⟩ = -1 ∧ rd i .jseqRx = 0 ∧ i.vat.badNext = false ∧
    c.twn.copyLost = false ∧ c.twn.copyFrom = none ∧ c.twn.wait = [] ∧ c.twn.buffered = [] ∧ on i fld.twinCtrl.AUTO_RESYNC = false ∧ recordBytes (.memw 0 [1, 2]) ≤ get c fld.jbufMib.JBUF_MIB * 1048576 ∧
    role i = 5 ∧ i.twn.wait = [] ∧ canvasRuns i 0 = true ∧ rmEp i 0 = 5 ∧ timeDiff i.ot (commitInst i 0 5) < 0 ∧
    epochDiff 7 (newestVersion i (recKey 0x10000003 0)) > 0 ∧ journaled (RegId.off .kp 0 0) = journaled (RegId.off .kp 0 0) ∧
    mibFree i 40 2 = true ∧ role (inRole 2 5) = 2 ∧ twinLink (fields (inRole 2 5) [(fld.twinStatus.LINK0, 0, 1)]) = true ∧
    standby w = true ∧ halves w 0 = [0] ∧ (epochRec w 0 5).isSome = true ∧ pendingRegs w 0 = [] ∧
    rateSwitch u (canvasFc w 0) 5 = false ∧ (inRole 2 5).twn.copySend = false ∧ 1 < (copyItems (inRole 2 5)).length := by decide +kernel

/-- ModesWork: the requests, the end of a transition, HOLD, resets and the release, clocks, voltage, SLEEP. -/
theorem test_hyp_modes :
    let idle := fields live [(fld.pwrMode.MODE, 0, 3)]
    let go := { fields idle [(fld.pwrMode.BUSY, 0, 1)] with pwr := { live.pwr with trans := some ⟨5, 50000, false, 0⟩ } }
    let hold := fields live [(fld.pwrMode.MODE, 0, 4), (fld.pwrCtrl.HOLD_EN, 0, 1), (fld.avsCtrl.AVS_EN, 0, 1)]
    let sleep := fields live [(fld.pwrMode.MODE, 0, 0), (fld.wakeEn.WAKE_EN, 0, 2)]
    let safe := fields live [(fld.pwrMode.MODE, 0, 7)]
    writable0 idle .pwrCmd 0 0 = true ∧ busy idle = false ∧ idle.pwr.trans = none ∧ mode idle = 3 ∧ role idle = 0 ∧
    (selBlocks idle).contains 127 = false ∧ idle.bst.kind = 0 ∧ idle.member = .zx9160 ∧ busy go = true ∧
    go.pwr.trans = some ⟨5, 50000, false, 0⟩ ∧ writable0 hold .pwrCtrl 0 0 = true ∧ on hold fld.pwrCtrl.HOLD_EN = true ∧ mode hold = 4 ∧
    hold.pwr.trans = none ∧ hold.pwr.selfRef = false ∧ hold.pwr.avsAt = none ∧ mode State.reset = 1 ∧ State.reset.bst.releaseDue = true ∧
    State.reset.pwr.clocks.testBit 1 = false ∧ State.reset.bst.todo = [] ∧ idle.bst.releaseDue = false ∧ hasBit idle fld.clkStatus.CLK_STATUS 1 ≠ true ∧
    on hold fld.avsCtrl.AVS_EN = true ∧ hold.pwr.avsFails < 3 ∧ mode sleep = 0 ∧ hasBit sleep fld.wakeEn.WAKE_EN 1 = true ∧
    sleep.pwr.slow / slowTick ≤ alarmTime sleep ∧ writable0 idle .slowLo 0 0 = true ∧ mode safe = 7 := by decide +kernel
/-- SelfTestWorks: the boot from a host, block results, the rotation, OTP, the life cycle, counters. -/
theorem test_hyp_selfTest :
    let wait := live
    let load := { wait with pwr := { wait.pwr with image := some 2 } }
    let set := { fields live [(fld.pwrMode.MODE, 0, 3)] with bst := { live.bst with todo := [32, 33], kind := 3, blocks := [32, 33] } }
    let last := { set with bst := { set.bst with todo := [33] } }
    let rot := fields withReady [(fld.bistCmd.ROT_EN, 0, 1)]
    let step := { fields rot [(fld.bistStatus.ROT_CLUSTER, 0, 1)] with bst := { rot.bst with rotStep := 1 } }
    writable0 wait .bootGo 0 0 = true ∧ awaitsHost wait = true ∧ mode load = 1 ∧ load.pwr.image = some 2 ∧ imageError load [] ≠ 0 ∧
    set.bst.todo = [32, 33] ∧ set.bst.rotStep ≠ 2 ∧ last.bst.todo = [33] ∧ last.bst.kind = 3 ∧ writable0 set .bistCmd 0 0 = true ∧
    (rotPick rot).isSome = true ∧ 4 ≤ mode rot ∧ mode rot ≤ 6 ∧ on rot fld.bistCmd.ROT_EN = true ∧ rot.bst.rotStep = 0 ∧
    step.bst.rotStep = 1 ∧ rotCluster step = 1 ∧ clusterBusy step 1 = false ∧ writable0 set .otpCtrl 0 0 = true ∧
    writable0 set .lcReq 0 0 = true ∧ writable0 set .cntLo 0 0 = true ∧ writable0 set .cntSnap 0 0 = true := by decide +kernel
/-- SelfTestWorks: a calibration register, the shut-down run of another member, a tag. -/
theorem test_hyp_tags :
    let s := { fields (withTask firmTask) [(fld.tagCtrl.TAG_EN, 0, 1), (fld.tagCtrl.TAG_LOG2, 0, 4), (fld.tagCtrl.TAG_PERIOD, 0, 0)] with member := .zx9080 }
    let i := fields s [(fld.pwrMode.MODE, 0, 3)]
    taskOn s 0 = some firmTask ∧ on s fld.tagCtrl.TAG_EN = true ∧ get s fld.tagCtrl.TAG_PERIOD = 0 ∧ tagOcc s + 1 < 2 ^ get s fld.tagCtrl.TAG_LOG2 ∧
    i.member ≠ .zx9160 ∧ mode i = 3 ∧ busy i = false ∧ i.bst.kind = 0 ∧ on i fld.bistCmd.SHUTDOWN_RUN = false ∧
    (regList.find? (fun r => r.desc.cal)).isSome = true := by decide +kernel

end Sys2Proof.Tests
end

/-!
The frames of the commands (O46), and the accesses of a host (O50): what a write of a register with effects of its own does,
and the clauses of O50 put together from the laws of accesses and of the host's events.
-/

namespace Sys2Proof.Machine

/-! ## Frames of the commands -/

/-- Settles O46: each command of a host or of the surroundings has its frame in the laws, by its own name, and `mayChange`
lists nothing for an instruction of Quolasyn. -/
theorem commandsLeaveTheRest : Obligations.CommandsLeaveTheRest := by
  intro i σ τ rs ps hc hx
  cases i with
  | task h desc => exact frame_task h desc σ τ rs ps hc hx
  | cue h index value tgt => exact frame_cue h index value tgt σ τ rs ps hc hx
  | alloc h mib => exact frame_alloc h mib σ τ rs ps hc hx
  | retire h addr => exact frame_retire h addr σ τ rs ps hc hx
  | layerNew h layer size form pool nbuf => exact frame_layerNew h layer size form pool nbuf σ τ rs ps hc hx
  | layerSet h layer buf tgt => exact frame_layerSet h layer buf tgt σ τ rs ps hc hx
  | importLayer h layer busLo busHi pitch tgt => exact frame_importLayer h layer busLo busHi pitch tgt σ τ rs ps hc hx
  | layerDel h layer => exact frame_layerDel h layer σ τ rs ps hc hx
  | badCommand h op ext poisoned => exact frame_badCommand h op ext poisoned σ τ rs ps hc hx
  | registerWrite fn sp off v size setting other => exact frame_registerWrite fn sp off v size setting other σ τ rs ps hc hx
  | semClaim n fn other => exact frame_semClaim n fn other σ τ rs ps hc hx
  | semRelease n fn v claim => exact frame_semRelease n fn v claim σ τ rs ps hc hx
  | semForce fn v => exact frame_semForce fn v σ τ rs ps hc hx
  | semLeaseExpire n => exact frame_semLeaseExpire n σ τ rs ps hc hx
  | ringEnable r fn v => exact frame_ringEnable r fn v σ τ rs ps hc hx
  | ringTailWrite r fn v posted => exact frame_ringTailWrite r fn v posted σ τ rs ps hc hx
  | ringHeadWrite r fn v => exact frame_ringHeadWrite r fn v σ τ rs ps hc hx
  | ringFlush r fn => exact frame_ringFlush r fn σ τ rs ps hc hx
  | flushComplete r heads => exact frame_flushComplete r heads σ τ rs ps hc hx
  | producerResume r bad => exact frame_producerResume r bad σ τ rs ps hc hx
  | bar2Write fn off data poisoned => exact frame_bar2Write fn off data poisoned σ τ rs ps hc hx
  | bar2Read fn off n => exact frame_bar2Read fn off n σ τ rs ps hc hx
  | importDone layer i data => exact frame_importDone layer i data σ τ rs ps hc hx
  | importDmaFault layer i => exact frame_importDmaFault layer i σ τ rs ps hc hx
  | fenceComplete ctx => exact frame_fenceComplete ctx σ τ rs ps hc hx
  | functionLevelReset fn => exact frame_functionLevelReset fn σ τ rs ps hc hx
  | perstN host low => exact frame_perstN host low σ τ rs ps hc hx
  | pcieLinkChange host rate width => exact frame_pcieLinkChange host rate width σ τ rs ps hc hx
  | dispatch => exact frame_dispatch σ τ rs ps hc hx
  | affinityWaitEnd slot => exact frame_affinityWaitEnd slot σ τ rs ps hc hx
  | tileTaskCreate => exact frame_tileTaskCreate σ τ rs ps hc hx
  | taskRecreate => exact frame_taskRecreate σ τ rs ps hc hx
  | taskRebind slot => exact frame_taskRebind slot σ τ rs ps hc hx
  | schedCancel fn v same => exact frame_schedCancel fn v same σ τ rs ps hc hx
  | schedKick fn v => exact frame_schedKick fn v σ τ rs ps hc hx
  | ctxDisable fn ctx v => exact frame_ctxDisable fn ctx v σ τ rs ps hc hx
  | coreTimePeriodEnd ctx => exact frame_coreTimePeriodEnd ctx σ τ rs ps hc hx
  | inputLogEnter i poisoned => exact frame_inputLogEnter i poisoned σ τ rs ps hc hx
  | frameInstant fc => exact frame_frameInstant fc σ τ rs ps hc hx
  | commit c => exact frame_commit c σ τ rs ps hc hx
  | stallRelease c => exact frame_stallRelease c σ τ rs ps hc hx
  | canvasEnable fn c v => exact frame_canvasEnable fn c v σ τ rs ps hc hx
  | canvasDisable fn c v => exact frame_canvasDisable fn c v σ τ rs ps hc hx
  | squash fn c => exact frame_squash fn c σ τ rs ps hc hx
  | pin fn c => exact frame_pin fn c σ τ rs ps hc hx
  | unpin fn c => exact frame_unpin fn c σ τ rs ps hc hx
  | wake fn c => exact frame_wake fn c σ τ rs ps hc hx
  | shadowedWrite fn off v => exact frame_shadowedWrite fn off v σ τ rs ps hc hx
  | glazeSegment pipe dataError => exact frame_glazeSegment pipe dataError σ τ rs ps hc hx
  | windowEnd c e => exact frame_windowEnd c e σ τ rs ps hc hx
  | planeCut c e p => exact frame_planeCut c e p σ τ rs ps hc hx
  | mordWrite fn v => exact frame_mordWrite fn v σ τ rs ps hc hx
  | mordRead fn => exact frame_mordRead fn σ τ rs ps hc hx
  | etabStageWrite fn e k v => exact frame_etabStageWrite fn e k v σ τ rs ps hc hx
  | etabPublish fn e v => exact frame_etabPublish fn e v σ τ rs ps hc hx
  | viewWrite fn ctx isN v => exact frame_viewWrite fn ctx isN v σ τ rs ps hc hx
  | tableBaseWrite fn isStbl v => exact frame_tableBaseWrite fn isStbl v σ τ rs ps hc hx
  | fltClr fn v => exact frame_fltClr fn v σ τ rs ps hc hx
  | drvKick fn v => exact frame_drvKick fn v σ τ rs ps hc hx
  | blackoutOn fn => exact frame_blackoutOn fn σ τ rs ps hc hx
  | blackoutOff fn => exact frame_blackoutOff fn σ τ rs ps hc hx
  | blackoutRepeat => exact frame_blackoutRepeat σ τ rs ps hc hx
  | clear fn g v => exact frame_clear fn g v σ τ rs ps hc hx
  | force fn g v => exact frame_force fn g v σ τ rs ps hc hx
  | streamTerminated fn u v => exact frame_streamTerminated fn u v σ τ rs ps hc hx
  | latch c => exact frame_latch c σ τ rs ps hc hx
  | beacon c => exact frame_beacon c σ τ rs ps hc hx
  | sacnSync c => exact frame_sacnSync c σ τ rs ps hc hx
  | dmxPacketStart p => exact frame_dmxPacketStart p σ τ rs ps hc hx
  | dmxPacketEnd p => exact frame_dmxPacketEnd p σ τ rs ps hc hx
  | stat port m => exact frame_stat port m σ τ rs ps hc hx
  | nodeLost e => exact frame_nodeLost e σ τ rs ps hc hx
  | setGo fn => exact frame_setGo fn σ τ rs ps hc hx
  | otLoRead fn => exact frame_otLoRead fn σ τ rs ps hc hx
  | measPush fn d => exact frame_measPush fn d σ τ rs ps hc hx
  | annKick fn d => exact frame_annKick fn d σ τ rs ps hc hx
  | announceTimeout d => exact frame_announceTimeout d σ τ rs ps hc hx
  | timeSelWrite fn v => exact frame_timeSelWrite fn v σ τ rs ps hc hx
  | domEnWrite fn d v => exact frame_domEnWrite fn d v σ τ rs ps hc hx
  | fcEnable fn n v => exact frame_fcEnable fn n v σ τ rs ps hc hx
  | fcCtrlWrite fn n v => exact frame_fcCtrlWrite fn n v σ τ rs ps hc hx
  | fcPhaseWrite fn n v => exact frame_fcPhaseWrite fn n v σ τ rs ps hc hx
  | nextLoRead fn n => exact frame_nextLoRead fn n σ τ rs ps hc hx
  | tsqPop fn p poison => exact frame_tsqPop fn p poison σ τ rs ps hc hx
  | tsqFlush fn p => exact frame_tsqFlush fn p σ τ rs ps hc hx
  | ppsInEdge at_ frac => exact frame_ppsInEdge at_ frac σ τ rs ps hc hx
  | ppsInLoRead fn => exact frame_ppsInLoRead fn σ τ rs ps hc hx
  | ppsOutPulse i => exact frame_ppsOutPulse i σ τ rs ps hc hx
  | ref10Window at_ => exact frame_ref10Window at_ σ τ rs ps hc hx
  | ref10Loss => exact frame_ref10Loss σ τ rs ps hc hx
  | frameStart p => exact frame_frameStart p σ τ rs ps hc hx
  | txFrameEnd p => exact frame_txFrameEnd p σ τ rs ps hc hx
  | txDescriptorFrame r ds data poisoned => exact frame_txDescriptorFrame r ds data poisoned σ τ rs ps hc hx
  | gateCycleStart p => exact frame_gateCycleStart p σ τ rs ps hc hx
  | swap fn p v => exact frame_swap fn p v σ τ rs ps hc hx
  | portDisable fn p v => exact frame_portDisable fn p v σ τ rs ps hc hx
  | pauseFrame p m => exact frame_pauseFrame p m σ τ rs ps hc hx
  | pauseExpire p cls => exact frame_pauseExpire p cls σ τ rs ps hc hx
  | pauseWdTrip p cls => exact frame_pauseWdTrip p cls σ τ rs ps hc hx
  | pauseRecEnd p cls => exact frame_pauseRecEnd p cls σ τ rs ps hc hx
  | lpiEnter p => exact frame_lpiEnter p σ τ rs ps hc hx
  | lpiWake p => exact frame_lpiWake p σ τ rs ps hc hx
  | eeeOkWrite fn p v => exact frame_eeeOkWrite fn p v σ τ rs ps hc hx
  | linkChange p pcsUp lpiRx => exact frame_linkChange p pcsUp lpiRx σ τ rs ps hc hx
  | serviceFrameRx p m => exact frame_serviceFrameRx p m σ τ rs ps hc hx
  | flowFrameRx p m => exact frame_flowFrameRx p m σ τ rs ps hc hx
  | badFrameRx p m => exact frame_badFrameRx p m σ τ rs ps hc hx
  | videoPacketRx p m v ovf => exact frame_videoPacketRx p m v ovf σ τ rs ps hc hx
  | audioPacketRx p m v ovf => exact frame_audioPacketRx p m v ovf σ τ rs ps hc hx
  | ancPacketRx p m v ovf => exact frame_ancPacketRx p m v ovf σ τ rs ps hc hx
  | ltcWord at_ tc => exact frame_ltcWord at_ tc σ τ rs ps hc hx
  | sacnPacketRx p m v => exact frame_sacnPacketRx p m v σ τ rs ps hc hx
  | sacnSourceTimeout u cid => exact frame_sacnSourceTimeout u cid σ τ rs ps hc hx
  | legLoss kind s leg => exact frame_legLoss kind s leg σ τ rs ps hc hx
  | tcLoss n => exact frame_tcLoss n σ τ rs ps hc hx
  | t1sCollision p lateColl => exact frame_t1sCollision p lateColl σ τ rs ps hc hx
  | backoffExpire p => exact frame_backoffExpire p σ τ rs ps hc hx
  | plcaBeaconChange p active => exact frame_plcaBeaconChange p active σ τ rs ps hc hx
  | go fn p v => exact frame_go fn p v σ τ rs ps hc hx
  | rdmListenEnd p brk resp err => exact frame_rdmListenEnd p brk resp err σ τ rs ps hc hx
  | leaseRenew => exact frame_leaseRenew σ τ rs ps hc hx
  | leaseLapse => exact frame_leaseLapse σ τ rs ps hc hx
  | leaseExpiry => exact frame_leaseExpiry σ τ rs ps hc hx
  | takeover => exact frame_takeover σ τ rs ps hc hx
  | waitTimeout => exact frame_waitTimeout σ τ rs ps hc hx
  | leaseInEdge at_ => exact frame_leaseInEdge at_ σ τ rs ps hc hx
  | wireSilent => exact frame_wireSilent σ τ rs ps hc hx
  | twinLinkChange lane up => exact frame_twinLinkChange lane up σ τ rs ps hc hx
  | renew h b t1 act t3 t4 t2 => exact frame_renew h b t1 act t3 t4 t2 σ τ rs ps hc hx
  | commitRecord h miss c e digest tiles => exact frame_commitRecord h miss c e digest tiles σ τ rs ps hc hx
  | changeRecord h id ctx tmode value version target => exact frame_changeRecord h id ctx tmode value version target σ τ rs ps hc hx
  | regw h off v fn task => exact frame_regw h off v fn task σ τ rs ps hc hx
  | cmdRecord h entry cpl => exact frame_cmdRecord h entry cpl σ τ rs ps hc hx
  | memw h addr4 data => exact frame_memw h addr4 data σ τ rs ps hc hx
  | layerRecord h last layer version buf off data => exact frame_layerRecord h last layer version buf off data σ τ rs ps hc hx
  | epstate h e status strings => exact frame_epstate h e status strings σ τ rs ps hc hx
  | handover h b => exact frame_handover h b σ τ rs ps hc hx
  | copyRecord h last kind index data => exact frame_copyRecord h last kind index data σ τ rs ps hc hx
  | copyEnd h cpos => exact frame_copyEnd h cpos σ τ rs ps hc hx
  | ack h jseq role diverged t2 t3 t4 => exact frame_ack h jseq role diverged t2 t3 t4 σ τ rs ps hc hx
  | copySend => exact frame_copySend σ τ rs ps hc hx
  | shadowWaitExpire => exact frame_shadowWaitExpire σ τ rs ps hc hx
  | resign fn => exact frame_resign fn σ τ rs ps hc hx
  | assume fn => exact frame_assume fn σ τ rs ps hc hx
  | resync fn => exact frame_resync fn σ τ rs ps hc hx
  | leaveSafe fn => exact frame_leaveSafe fn σ τ rs ps hc hx
  | twinEnWrite fn v => exact frame_twinEnWrite fn v σ τ rs ps hc hx
  | modeReqShow fn => exact frame_modeReqShow fn σ τ rs ps hc hx
  | modeReqIdle fn => exact frame_modeReqIdle fn σ τ rs ps hc hx
  | modeReqTest fn => exact frame_modeReqTest fn σ τ rs ps hc hx
  | modeReqSleep fn => exact frame_modeReqSleep fn σ τ rs ps hc hx
  | modeReqSafe fn => exact frame_modeReqSafe fn σ τ rs ps hc hx
  | modeTransitionDone => exact frame_modeTransitionDone σ τ rs ps hc hx
  | holdEnWrite fn v => exact frame_holdEnWrite fn v σ τ rs ps hc hx
  | hbmSelfRefresh => exact frame_hbmSelfRefresh σ τ rs ps hc hx
  | softRst fn => exact frame_softRst fn σ τ rs ps hc hx
  | powerOn => exact frame_powerOn σ τ rs ps hc hx
  | aonRstN => exact frame_aonRstN σ τ rs ps hc hx
  | sysRstN => exact frame_sysRstN σ τ rs ps hc hx
  | resetRelease bootMode rails => exact frame_resetRelease bootMode rails σ τ rs ps hc hx
  | railFault rail => exact frame_railFault rail σ τ rs ps hc hx
  | refClockLoss input lost => exact frame_refClockLoss input lost σ τ rs ps hc hx
  | avsCommand acked => exact frame_avsCommand acked σ τ rs ps hc hx
  | dieTempCross temp => exact frame_dieTempCross temp σ τ rs ps hc hx
  | wakeSource src => exact frame_wakeSource src σ τ rs ps hc hx
  | slowAlarm => exact frame_slowAlarm σ τ rs ps hc hx
  | slowLoRead fn => exact frame_slowLoRead fn σ τ rs ps hc hx
  | bootGo fn => exact frame_bootGo fn σ τ rs ps hc hx
  | bootImageCheck flash => exact frame_bootImageCheck flash σ τ rs ps hc hx
  | bistBlockDone b ranToEnd signatureOk countOk => exact frame_bistBlockDone b ranToEnd signatureOk countOk σ τ rs ps hc hx
  | shutdownRun fn => exact frame_shutdownRun fn σ τ rs ps hc hx
  | stop fn => exact frame_stop fn σ τ rs ps hc hx
  | rotStepStart => exact frame_rotStepStart σ τ rs ps hc hx
  | rotClusterDrained => exact frame_rotClusterDrained σ τ rs ps hc hx
  | rotDrainTimeout => exact frame_rotDrainTimeout σ τ rs ps hc hx
  | otpGo fn => exact frame_otpGo fn σ τ rs ps hc hx
  | lcReq fn v => exact frame_lcReq fn v σ τ rs ps hc hx
  | calWrite fn off v => exact frame_calWrite fn off v σ τ rs ps hc hx
  | cntLoRead fn n => exact frame_cntLoRead fn n σ τ rs ps hc hx
  | cntSnap fn => exact frame_cntSnap fn σ τ rs ps hc hx
  | rcRead fn sp off size setting other => exact frame_rcRead fn sp off size setting other σ τ rs ps hc hx
  | tagSample core stall cause paired predOff => exact frame_tagSample core stall cause paired predOff σ τ rs ps hc hx
  | bwWindowEnd p => exact frame_bwWindowEnd p σ τ rs ps hc hx
  | ringDmaFault r => exact frame_ringDmaFault r σ τ rs ps hc hx
  | fillCopyComplete c => exact frame_fillCopyComplete c σ τ rs ps hc hx
  | ref10Return at_ => exact frame_ref10Return at_ σ τ rs ps hc hx
  | hbmStackTempCross above => exact frame_hbmStackTempCross above σ τ rs ps hc hx
  | _ => cases hc

/-! ## Writes of registers with effects of their own -/

/-- A bit of a register outside a field is as before when the field is written. -/
theorem rd_put_bit (f : Fld) (v : Nat) (s : State) (i j b : Nat) (hb : b < 32) (h : b < f.lo ∨ f.lo + f.w ≤ b) :
    (rd (put f v s i j) f.reg i j).getLsbD b = (rd s f.reg i j).getLsbD b := by
  have bit : ∀ u : State, (rd u f.reg i j).getLsbD b = decide (get u ⟨f.reg, b, 1⟩ i j = 1) :=
    fun u => Nat.testBit_eq_decide_div_mod_eq
  rw [bit, bit, get_put_fld f ⟨f.reg, b, 1⟩ v s i j rfl hb h]

/-- A record of the journal leaves every value in force, but that of JSEQ. -/
theorem Noted.eff {s x : State} (h : Noted s x) (f : Fld) (i j : Nat) (hf : f.reg ≠ .jseqTx) : eff x f i j = eff s f i j := by
  have hi : x.inForce = s.inForce := by rw [h.frame]
  unfold Machine.eff
  rw [hi, h.get f i j hf]

/-- A record of the journal leaves alone whether an enabled plane names a stream ring. -/
theorem Noted.ringNamed {s x : State} (h : Noted s x) (r : Nat) : ringNamed x r = ringNamed s r := by
  unfold Machine.ringNamed
  simp only [h.on fld.canvasCtrl.EN _ _ (by decide), h.eff fld.planeCtrl.EN _ _ (by decide),
    h.eff fld.planeCtrl.STREAM _ _ (by decide)]

/-- REGISTER_WRITE of a register with no W1C bit has the register's effect, after its journal record. -/
theorem write_effect {s : State} {fn off : Nat} {r : RegId} {i j : Nat} (ha : regAt off = some ⟨r, i, j⟩) (hc : r.desc.w1c = 0)
    (h : Writable s fn r i j) (v setting : W32) :
    ∃ x, Noted s x ∧ exec (.registerWrite fn .bar0 off v 4 setting none) s = .next (busEffect fn r i j v x) := by
  obtain ⟨x, hx, e⟩ := hostWrite_of h v (busEffect fn r i j v)
  refine ⟨x, hx, ?_⟩
  show Host.Outcome.next (keepSetting off setting s (sizedWrite fn off v 4 s)) = _
  rw [keepSetting_none ha hc, sizedWrite, if_pos rfl, busWrite, ha]
  exact congrArg Host.Outcome.next e

/-- The registers of a program. -/
def progRegs : List RegId := [.progBase, .progLen, .progCtrl, .progEntry]

/-- The registers of a stream ring that an enabled plane holds (R171). -/
def streamRegs : List RegId := [.vringBase, .lineStride, .vsize, .ringFmt, .frameNs]

/-- The registers of programs and of stream rings lie in journaled blocks. -/
theorem journaled_render {r : RegId} {i j : Nat} (hr : r ∈ progRegs ++ streamRegs) (hi : i < r.desc.n) :
    journaled (r.off i j) = true := by
  have place : ∀ q ∈ progRegs ++ streamRegs, 0x40000 ≤ q.desc.base ∧ q.desc.base < 0xB0000 ∧ q.desc.step ≤ 0x40 ∧
      q.desc.n ≤ 1024 ∧ q.desc.step2 = 0 := by decide
  obtain ⟨hlo, hhi, hstep, hn, hstep2⟩ := place r hr
  have := Nat.mul_le_mul hstep (Nat.le_of_lt (Nat.lt_of_lt_of_le hi hn))
  simp only [journaled, RegId.off, hstep2, Bool.or_eq_true, Bool.and_eq_true, decide_eq_true_eq]
  omega

/-- The effect of a write of a program's register. -/
theorem busEffect_prog {r : RegId} {i j : Nat} (hr : r ∈ progRegs) (hi : i < r.desc.n) (hj : j < r.desc.n2) (fn : Nat) (v : W32)
    (s : State) : busEffect fn r i j v s = progWrite (isPf fn) r i v s ∧ j = 0 := by
  have one : ∀ q ∈ progRegs, q.desc.n2 = 1 := by decide
  refine ⟨?_, by have := one r hr; omega⟩
  rw [busEffect, journaled_render (List.mem_append_left _ hr) hi, if_pos rfl]
  simp only [progRegs, List.mem_cons, List.not_mem_nil, or_false] at hr
  rcases hr with rfl | rfl | rfl | rfl <;> rfl

/-- The effect of a write of a stream ring's register. -/
theorem busEffect_stream {r : RegId} {i j : Nat} (hr : r ∈ streamRegs) (hi : i < r.desc.n) (fn : Nat) (v : W32) (s : State) :
    busEffect fn r i j v s = if ringNamed s i then s else plainWrite (isPf fn) r i j v s := by
  rw [busEffect, journaled_render (List.mem_append_right _ hr) hi, if_pos rfl]
  simp only [streamRegs, List.mem_cons, List.not_mem_nil, or_false] at hr
  rcases hr with rfl | rfl | rfl | rfl | rfl <;> rfl

/-- What a host loads has no service privilege (R20). -/
theorem progWrite_svc (pf : Bool) (r : RegId) (n : Nat) (v : W32) (s : State) : on (progWrite pf r n v s) fld.progCtrl.SVC n = false := by
  rw [progWrite, on_put_same _ _ _ _ _ (by decide) (by decide)]
  rfl

/-- A write of a program's register stores every bit but SVC. -/
theorem progWrite_bit (fn : Nat) (r : RegId) (n : Nat) (v : W32) (s : State) (b : Nat) (hb : b < 32)
    (h : r ≠ .progCtrl ∨ b ≠ fld.progCtrl.SVC.lo) :
    (rd (progWrite (isPf fn) r n v s) r n).getLsbD b = bitWritten s fn r n 0 v b := by
  rw [← wrote_plain s fn r n 0 v b hb, progWrite]
  by_cases hr : r = .progCtrl
  · subst hr
    have hb' : b ≠ 8 := by simpa [fld.progCtrl.SVC] using h
    exact rd_put_bit fld.progCtrl.SVC 0 _ n 0 b hb (by simp only [fld.progCtrl.SVC]; omega)
  · rw [rd_put_reg _ _ _ _ _ _ _ _ hr]

/-- A write of PPS_OUT stores: what is held back is the output's old setting, which is no register (R236). -/
theorem write_ppsOut {s : State} {fn off i j : Nat} (ha : regAt off = some ⟨.ppsOut, i, j⟩) (h : Writable s fn .ppsOut i j)
    (v setting : W32) : ∃ t, exec (.registerWrite fn .bar0 off v 4 setting none) s = .next t ∧ Wrote s t fn .ppsOut i j v := by
  obtain ⟨x, hx, e⟩ := write_effect ha rfl h v setting
  have hu : journaled (RegId.ppsOut.off i j) = false := by
    obtain ⟨hi, hj⟩ : i < 2 ∧ j < 1 := regAt_inside ha
    obtain rfl : j = 0 := by omega
    rcases (by omega : i = 0 ∨ i = 1) with rfl | rfl <;> rfl
  have he : busEffect fn .ppsOut i j v x = ppsChange i (plainWrite (isPf fn) .ppsOut i j v) x := by
    rw [busEffect, hu]
    rfl
  refine ⟨_, e, wrote_noted hx (by decide) fun b hb => ?_⟩
  rw [he, rd_congr (ppsChange_frame i _ x).1]
  exact wrote_plain x fn .ppsOut i j v b hb

/-- A write of a program's register takes the service privilege away, and stores every other bit. -/
theorem write_prog {s : State} {fn off i j : Nat} {r : RegId} (hr : r ∈ progRegs) (ha : regAt off = some ⟨r, i, j⟩)
    (h : Writable s fn r i j) (v setting : W32) : ∃ t, exec (.registerWrite fn .bar0 off v 4 setting none) s = .next t ∧
      on t fld.progCtrl.SVC i = false ∧ ∀ b, b < 32 → r ≠ .progCtrl ∨ b ≠ fld.progCtrl.SVC.lo →
        (rd t r i j).getLsbD b = bitWritten s fn r i j v b := by
  have plain : ∀ q ∈ progRegs, q.desc.w1c = 0 ∧ q ≠ .jseqTx := by decide
  obtain ⟨hc, hq⟩ := plain r hr
  obtain ⟨hi, hj⟩ := regAt_inside ha
  obtain ⟨x, hx, e⟩ := write_effect ha hc h v setting
  obtain ⟨he, rfl⟩ := busEffect_prog hr hi hj fn v x
  refine ⟨_, e, by rw [he]; exact progWrite_svc _ _ _ _ _, fun b hb hne => ?_⟩
  rw [he, progWrite_bit fn r i v x b hb hne, bitWritten_noted hx fn r hq]

/-- A write of a stream ring's register stores, unless an enabled plane names the ring (R171). -/
theorem write_stream {s : State} {fn off i j : Nat} {r : RegId} (hr : r ∈ streamRegs) (ha : regAt off = some ⟨r, i, j⟩)
    (h : Writable s fn r i j) (v setting : W32) : ∃ t, exec (.registerWrite fn .bar0 off v 4 setting none) s = .next t ∧
      (ringNamed s i = true → rd t r i j = rd s r i j) ∧ (ringNamed s i = false → Wrote s t fn r i j v) := by
  have plain : ∀ q ∈ streamRegs, q.desc.w1c = 0 ∧ q ≠ .jseqTx := by decide
  obtain ⟨hc, hq⟩ := plain r hr
  have hi := (regAt_inside ha).1
  obtain ⟨x, hx, e⟩ := write_effect ha hc h v setting
  refine ⟨_, e, fun hn => ?_, fun hn => ?_⟩ <;> rw [busEffect_stream hr hi, hx.ringNamed, hn]
  · exact hx.reg r i j hq
  · exact wrote_noted hx hq (wrote_plain x fn r i j v)

/-! ## The accesses of a host -/

/-- Settles O50, clause by clause: writes of registers, which only store or have effects of their own, shadowed writes and
reads; BAR2; imports; fences; resets; links; and the changes that wait for the input log. -/
theorem hostAccessWorks : Obligations.HostAccessWorks := by
  refine ⟨fun s fn off r i j v ha => ⟨?stores, ?acts, ?shadowed, ?reads⟩,
    ?bar2, ?imports, ?fences, ?resets, ?links, ?waiting, ?empty⟩
  case stores =>
    exact fun setting hs h => ⟨write_stores ha hs h setting, fun g w hg hf hgp hj hw hrw hc hs1 =>
      write_ties ha hs h setting g w hg hf hgp hj hw hrw hc hs1⟩
  case acts =>
    refine fun setting h => ⟨fun hr => ?_, fun hr => ?_, fun hr => write_stream hr ha h v setting⟩
    · by_cases hp : r = .ppsOut
      · subst hp
        obtain ⟨t, e, hw⟩ := write_ppsOut ha h v setting
        exact ⟨t, e, hw, fun k => absurd rfl k⟩
      · have hm : r ∈ progRegs ∧ r ≠ .progCtrl := by
          simp only [List.mem_cons, List.not_mem_nil, or_false] at hr
          rcases hr with rfl | rfl | rfl | rfl
          · exact absurd rfl hp
          all_goals decide
        obtain ⟨t, e, hsvc, hw⟩ := write_prog hm.1 ha h v setting
        exact ⟨t, e, fun b hb => hw b hb (.inl hm.2), fun _ => hsvc⟩
    · obtain ⟨t, e, hsvc, hw⟩ := write_prog (by subst hr; decide) ha h v setting
      exact ⟨t, e, hsvc, fun b hb hne => hw b hb (.inr hne)⟩
  case shadowed => exact fun hr _ hz h => shadow_writes ha hr hz h
  case reads =>
    intro n at_ setting hn hal hoff hr h
    subst hoff
    exact read_returns hn hal ha hr h setting
  case bar2 =>
    exact fun s fn off hp hu hm hb => ⟨bar2_writes hp hu hm hb, bar2_reads hp hu hm hb⟩
  case imports =>
    exact fun s n k l i hl hi => ⟨fun data len hs hlen hd hr hb hk hn => imports_end hl hi data len hs hlen hd hr hb hn hk,
      import_faults hl hi⟩
  case fences => exact fun s c f hf hr => fence_completes hf hr
  case resets => exact fun s fn hp hf => resets hp hf
  case links =>
    exact fun s rate width => ⟨fun h => link_changes s 0 0 (by decide) h rfl rate width,
      fun h => link_changes s 1 16 (by decide) h rfl rate width⟩
  case waiting =>
    exact fun s n w hw hr => ⟨fun hn hb hk => waiting_enters hw hr hb hn hk, fun p => waiting_poisoned p hw hr⟩
  case empty => exact fun s n p => waiting_none p

end Sys2Proof.Machine

/-!
The words of Quolasyn (O43, O44, O45): each instruction's round trip, and the instruction that each word spells.
-/

namespace Sys2Proof.Laws.RoundTrip

/-- The round trip of every command: an instruction of Quolasyn has its own, and no other command has a word. -/
theorem roundTrip (i : Instr) : Statement i := by
  cases i with
  | add k f => exact add k f
  | sub k f => exact sub k f
  | and k f => exact and k f
  | or k f => exact or k f
  | xor k f => exact xor k f
  | shl k f => exact shl k f
  | shr k f => exact shr k f
  | sra k f => exact sra k f
  | slt k f => exact slt k f
  | sltu k f => exact sltu k f
  | min k f => exact min k f
  | max k f => exact max k f
  | minu k f => exact minu k f
  | maxu k f => exact maxu k f
  | sel k f => exact sel k f
  | mul k f => exact mul k f
  | mulh k f => exact mulh k f
  | mulhu k f => exact mulhu k f
  | mad k f => exact mad k f
  | div k f => exact div k f
  | divu k f => exact divu k f
  | rem k f => exact rem k f
  | remu k f => exact remu k f
  | pxmul k f => exact pxmul k f
  | pxadd k f => exact pxadd k f
  | pxsub k f => exact pxsub k f
  | pand k f => exact pand k f
  | por k f => exact por k f
  | pxor k f => exact pxor k f
  | pandn k f => exact pandn k f
  | pmov k f => exact pmov k f
  | prd k f => exact prd k f
  | addi k f => exact addi k f
  | andi k f => exact andi k f
  | ori k f => exact ori k f
  | xori k f => exact xori k f
  | shli k f => exact shli k f
  | shri k f => exact shri k f
  | srai k f => exact srai k f
  | slti k f => exact slti k f
  | sltiu k f => exact sltiu k f
  | muli k f => exact muli k f
  | li k f => exact li k f
  | vadd k x f => exact vadd k x f
  | vsub k x f => exact vsub k x f
  | vadds k x f => exact vadds k x f
  | vsubs k x f => exact vsubs k x f
  | vand k x f => exact vand k x f
  | vor k x f => exact vor k x f
  | vxor k x f => exact vxor k x f
  | vshl k x f => exact vshl k x f
  | vshr k x f => exact vshr k x f
  | vmin k x f => exact vmin k x f
  | vmax k x f => exact vmax k x f
  | vmul k x f => exact vmul k x f
  | vmad k x f => exact vmad k x f
  | vsel k x f => exact vsel k x f
  | vcmpeq k x f => exact vcmpeq k x f
  | vcmplt k x f => exact vcmplt k x f
  | vcmple k x f => exact vcmple k x f
  | vbcst k x f => exact vbcst k x f
  | vext k x f => exact vext k x f
  | vradd k x f => exact vradd k x f
  | vperm k x f => exact vperm k x f
  | vfadd k x f => exact vfadd k x f
  | vfsub k x f => exact vfsub k x f
  | vfmul k x f => exact vfmul k x f
  | vfma k x f => exact vfma k x f
  | vfmin k x f => exact vfmin k x f
  | vfmax k x f => exact vfmax k x f
  | vfdiv k x f => exact vfdiv k x f
  | vfsqrt k x f => exact vfsqrt k x f
  | vfcmpeq k x f => exact vfcmpeq k x f
  | vfcmplt k x f => exact vfcmplt k x f
  | vfcmple k x f => exact vfcmple k x f
  | vftoi k x f => exact vftoi k x f
  | vitof k x f => exact vitof k x f
  | vftopx k x f => exact vftopx k x f
  | vpxtof k x f => exact vpxtof k x f
  | vfradd k x f => exact vfradd k x f
  | vfabs k x f => exact vfabs k x f
  | vfneg k x f => exact vfneg k x f
  | vmix k x f => exact vmix k x f
  | vdith k x f => exact vdith k x f
  | vmat3 k f => exact vmat3 k f
  | vunpkP16 k f => exact vunpkP16 k f
  | vunpkU8 k f => exact vunpkU8 k f
  | vunpkF16 k f => exact vunpkF16 k f
  | vpackP16 k f => exact vpackP16 k f
  | vpackU8 k f => exact vpackU8 k f
  | vpackF16 k f => exact vpackF16 k f
  | vlut k x f => exact vlut k x f
  | vluti k x f => exact vluti k x f
  | vgath k x f => exact vgath k x f
  | vgathl k x f => exact vgathl k x f
  | vscat k x f => exact vscat k x f
  | ld k x y f => exact ld k x y f
  | vld k x y f => exact vld k x y f
  | vldb k x y f => exact vldb k x y f
  | st k x y f => exact st k x y f
  | vst k x y f => exact vst k x y f
  | vsamp k x y f => exact vsamp k x y f
  | specIn k f => exact specIn k f
  | firmIn k f => exact firmIn k f
  | specVer k f => exact specVer k f
  | firmVer k f => exact firmVer k f
  | etabRd k f => exact etabRd k f
  | etabWr k f => exact etabWr k f
  | pktAlloc k f => exact pktAlloc k f
  | pktRd k f => exact pktRd k f
  | pktWr k f => exact pktWr k f
  | pktLen k f => exact pktLen k f
  | pktSend k f => exact pktSend k f
  | pktFree k f => exact pktFree k f
  | yield k f => exact yield k f
  | done k f => exact done k f
  | spawn k f => exact spawn k f
  | post k f => exact post k f
  | cancel k f => exact cancel k f
  | bra k f => exact bra k f
  | beq k f => exact beq k f
  | bne k f => exact bne k f
  | blt k f => exact blt k f
  | bge k f => exact bge k f
  | bltu k f => exact bltu k f
  | bgeu k f => exact bgeu k f
  | bany k f => exact bany k f
  | ball k f => exact ball k f
  | bnone k f => exact bnone k f
  | call k f => exact call k f
  | jr k f => exact jr k f
  | callr k f => exact callr k f
  | nop k f => exact nop k f
  | crr k f => exact crr k f
  | vcrr k f => exact vcrr k f
  | fence k f => exact fence k f
  | brk k f => exact brk k f
  | trap k f => exact trap k f
  | cntAdd k f => exact cntAdd k f
  | _ => exact of_none rfl

end Sys2Proof.Laws.RoundTrip

namespace Sys2Proof.Machine

/-- Settles O43, by the round trip of each instruction. -/
theorem decodeOfEncode : Obligations.DecodeOfEncode := Laws.RoundTrip.roundTrip

/-- What a word spells has that word (R32): its bits are its opcode, its function code and its fields. -/
theorem encode_of_spells {k : Nat} {w : W64} {i : Instr} (h : Spells k (majorOf w) (funcOf w) (fieldsOf w) i) :
    encode i = some w := by
  obtain ⟨hparts, -, -⟩ := h
  rw [encode, hparts, Option.map_some, pack_parts]

/-- Settles O44: a word that decodes spells its instruction by its parts, and the parts make the word again. -/
theorem encodeOfDecode : Obligations.EncodeOfDecode := by
  intro k w i h
  have hs : Spells k (majorOf w) (funcOf w) (fieldsOf w) i := parts_spell h
  exact ⟨encode_of_spells hs, hs.2⟩

/-- Settles O45, by decoding the five words. -/
theorem encodingsOfTheReference : Obligations.EncodingsOfTheReference := by
  unfold Obligations.EncodingsOfTheReference
  decide +kernel

end Sys2Proof.Machine

/-!
The scalar core: division (O4), px16 arithmetic (O5), operations under a zero predicate (O7), fields that must be zero (O8),
and the words that end their task (O10).
-/

namespace Sys2Proof.Machine

/-! ## Division (R52) -/

/-- Both quotients give all ones for a zero divisor, the signed one +1 for a negative dividend. -/
theorem quotS_zero (a : W32) : quotS a 0 = if 0 ≤ a.toInt then 0xFFFFFFFF else 1 := by
  unfold quotS
  by_cases h : a.toInt < 0
  · simp [h]
  · simp [h, not_lt.mp h]

theorem quotU_zero (a : W32) : quotU a 0 = 0xFFFFFFFF := rfl
theorem remU_zero (a : W32) : remU a 0 = a := rfl
theorem remS_zero (a : W32) : remS a 0 = a := rfl

theorem quotU_ne {a b : W32} (hb : b ≠ 0) : quotU a b = BitVec.ofNat 32 (a.toNat / b.toNat) := if_neg hb
theorem remU_ne {a b : W32} (hb : b ≠ 0) : remU a b = BitVec.ofNat 32 (a.toNat % b.toNat) := if_neg hb

/-- The signed quotient is the library's truncating division. -/
theorem quotS_sdiv {a b : W32} (hb : b ≠ 0) : quotS a b = a.sdiv b := by
  unfold quotS
  rw [if_neg hb]
  apply BitVec.eq_of_toInt_eq
  rw [BitVec.toInt_ofInt, BitVec.toInt_sdiv]

/-- The signed remainder is the library's, of the dividend's sign. -/
theorem remS_srem {a b : W32} (hb : b ≠ 0) : remS a b = a.srem b := by
  unfold remS
  rw [if_neg hb, ← BitVec.toInt_srem, BitVec.ofInt_toInt]

/-- The quotient fits its 32 bits except for −2^31 ÷ −1. -/
theorem quotS_toInt {a b : W32} (hb : b ≠ 0) (hab : ¬ (a = 0x80000000 ∧ b = 0xFFFFFFFF)) :
    (quotS a b).toInt = a.toInt.tdiv b.toInt := by
  rw [quotS_sdiv hb]
  apply BitVec.toInt_sdiv_of_ne_or_ne
  exact not_and_or.mp hab

theorem remS_toInt {a b : W32} (hb : b ≠ 0) : (remS a b).toInt = a.toInt.tmod b.toInt := by
  rw [remS_srem hb, BitVec.toInt_srem]

theorem toInt_ne_zero {b : W32} (hb : b ≠ 0) : b.toInt ≠ 0 := fun h => hb (BitVec.eq_of_toInt_eq h)

/-- Quotient and remainder make the dividend again. -/
theorem quotS_mul_add_remS {a b : W32} (hb : b ≠ 0) (hab : ¬ (a = 0x80000000 ∧ b = 0xFFFFFFFF)) :
    a.toInt = (quotS a b).toInt * b.toInt + (remS a b).toInt := by
  rw [quotS_toInt hb hab, remS_toInt hb, Int.tdiv_mul_add_tmod]

theorem remS_lt {a b : W32} (hb : b ≠ 0) : (remS a b).toInt.natAbs < b.toInt.natAbs := by
  rw [remS_toInt hb, Int.natAbs_tmod]
  exact Nat.mod_lt _ (Int.natAbs_pos.mpr (toInt_ne_zero hb))

/-- A remainder that is not zero has the dividend's sign, so the quotient truncates. -/
theorem remS_sign {a b : W32} (hb : b ≠ 0) (hr : remS a b ≠ 0) : 0 ≤ (remS a b).toInt ↔ 0 ≤ a.toInt := by
  have hr' := toInt_ne_zero hr
  rw [remS_toInt hb] at hr' ⊢
  constructor
  · intro h
    by_contra ha
    have hneg := Int.tmod_nonneg b.toInt (a := -a.toInt) (by omega)
    rw [Int.neg_tmod] at hneg
    omega
  · exact Int.tmod_nonneg b.toInt

/-- Settles O4: the four divisions are `alu2`, and their functions are those of R52. -/
theorem divisionWithItsCorners : Obligations.DivisionWithItsCorners := by
  intro s k t f h he hz
  have writes : ∀ {i : Instr} {g : W32 → W32 → W32}, exec i s = .next (alu2 k f 12 g s) → ∀ {v : W32},
      g (sreg t f.a) (sreg t f.b) = v → WritesScalar s t i f.d v := fun hx _ hv => tbl_alu2 h he hz hx hv
  refine ⟨fun hb => ?zero, fun hb => ?ordinary⟩
  case zero =>
    refine ⟨writes rfl ?_, writes rfl ?_, writes rfl ?_, writes rfl ?_⟩ <;> rw [hb]
    · exact quotU_zero _
    · exact remU_zero _
    · exact quotS_zero _
    · exact remS_zero _
  case ordinary =>
    refine ⟨writes rfl (quotU_ne hb), writes rfl (remU_ne hb), _, _, writes rfl rfl, writes rfl rfl, ?_, fun hab => ?_⟩
    · rintro ⟨ha, hb'⟩
      rw [ha, hb']
      decide
    · exact ⟨quotS_mul_add_remS hb hab, remS_lt hb, remS_sign hb⟩

/-! ## px16 arithmetic (R25) -/

theorem pxAdd_min (a b : Nat) : pxAdd a b = min (a + b) 65535 := by
  unfold pxAdd
  split <;> omega

/-- The product of two px16 numbers is a px16 number. -/
theorem pxMul_le {a b : Nat} (ha : a < 65536) (hb : b < 65536) : pxMul a b ≤ 65535 := by
  have hab : a * b ≤ 65535 * 65535 := Nat.mul_le_mul (by omega) (by omega)
  have hnear := (divEven_near (a * b)).1
  unfold pxMul
  omega

/-- Settles O5: the three operations are `alu2` of a px16 function on low halves. -/
theorem pxArithmetic : Obligations.PxArithmetic := by
  rintro s k t f h he hz a b rfl rfl
  refine ⟨tbl_alu2 h he hz rfl (congrArg _ (pxAdd_min _ _)), tbl_alu2 h he hz rfl rfl,
    pxMul _ _, tbl_alu2 h he hz rfl rfl, pxMul_le (Nat.mod_lt _ (by decide)) (Nat.mod_lt _ (by decide)), divEven_near _⟩

/-! ## Operations under a zero predicate (R34) -/

/-- A predicate other than p0 that is zero lets no scalar operation run. -/
theorem not_enabled_of_zero {t : Task} {f : F} (hp : f.p ≠ 0) (hm : maskOf t f = 0) : ¬ Enabled t f := by
  unfold Enabled predRuns
  rw [beq_eq_false_iff_ne.mpr hp, hm]
  decide

/-- A scalar operation whose fields are legal only advances the pc where its predicate lets it do nothing. -/
theorem goesOn_scalarOp {s : State} {k : Nat} {t : Task} (h : Ready s k t) {f : F} (hd : ¬ Enabled t f) {i : Instr} {u : Use}
    {legal : Bool} {val : Task → W32} (hl : legal = true) (hx : exec i s = .next (scalarOp k f u legal val s)) :
    GoesOn s t i (t.pc + 8) t :=
  disabled_of h hd (hl ▸ hx)

/-- The shape of two sources: the immediate is zero. -/
theorem goesOn_alu2 {s : State} {k : Nat} {t : Task} (h : Ready s k t) {f : F} (hd : ¬ Enabled t f) (hz : f.imm = 0) {i : Instr}
    {cyc : Nat} {g : W32 → W32 → W32} (hx : exec i s = .next (alu2 k f cyc g s)) : GoesOn s t i (t.pc + 8) t :=
  goesOn_scalarOp h hd (by simp [immZero, hz]) hx

/-- The shape of three sources: the immediate names the third. -/
theorem goesOn_alu3 {s : State} {k : Nat} {t : Task} (h : Ready s k t) {f : F} (hd : ¬ Enabled t f) (hz : f.imm.toNat < 32)
    {i : Instr} {g : W32 → W32 → W32 → W32} (hx : exec i s = .next (alu3 k f g s)) : GoesOn s t i (t.pc + 8) t :=
  goesOn_scalarOp h hd (by simp [immC, hz]) hx

/-- The shape of an immediate: b is zero, and what else the operation asks holds. -/
theorem goesOn_aluImm {s : State} {k : Nat} {t : Task} (h : Ready s k t) {f : F} (hd : ¬ Enabled t f) (hb : f.b = 0) {i : Instr}
    {legal : Bool} {g : W32 → W32 → W32} (hl : legal = true) (hx : exec i s = .next (aluImm k f legal g s)) :
    GoesOn s t i (t.pc + 8) t :=
  goesOn_scalarOp h hd (by simp [hb, hl]) hx

/-- Settles O7: each instruction has one of the three shapes. -/
theorem disabledScalarHasNoEffect : Obligations.DisabledScalarHasNoEffect := by
  intro s k t f h hp hm
  have hd := not_enabled_of_zero hp hm
  simp only [List.forall_mem_cons, List.not_mem_nil, false_implies, implies_true, and_true]
  refine ⟨fun hz => ?twoSources, fun hz => ?threeSources, fun hb => ?immediate, fun hb hz => ?shift, fun hb ha => ?li⟩
  case twoSources => and_intros <;> exact goesOn_alu2 h hd hz rfl
  case threeSources => and_intros <;> exact goesOn_alu3 h hd hz rfl
  case immediate => and_intros <;> exact goesOn_aluImm h hd hb rfl rfl
  case shift => and_intros <;> exact goesOn_aluImm h hd hb (decide_eq_true hz) rfl
  case li => exact goesOn_aluImm h hd hb (beq_iff_eq.mpr ha) rfl

/-! ## Fields that must be zero (R33, R59) -/

/-- Instruction `i` issues in `s` on core `k` and the check of its fields answers `legal`. -/
def ChecksTo (s : State) (k : Nat) (i : Instr) (legal : Bool) : Prop :=
  ∃ us body, exec i s = .next (issue k us legal body s)

/-- A check that fails raises ILLEGAL, whatever the predicate says (log 17). -/
theorem ChecksTo.terminates {s : State} {k : Nat} {t : Task} {i : Instr} (h : Ready s k t) (hf : TasksFit s) {legal : Bool}
    (hx : ChecksTo s k i legal) (hl : legal = false) : Terminates s t i 1 1 t.pc := by
  obtain ⟨us, body, e⟩ := hx
  exact illegal_of h hf hl e

/-- Settles O8: what each clause says of the fields makes the instruction's check fail. -/
theorem fieldsThatMustBeZero : Obligations.FieldsThatMustBeZero := by
  intro s k t f h hf
  have refused : ∀ {i : Instr} {legal : Bool}, ChecksTo s k i legal → legal = false → Terminates s t i 1 1 t.pc :=
    fun hx hl => hx.terminates h hf hl
  simp only [List.forall_mem_cons, List.not_mem_nil, false_implies, implies_true, and_true]
  refine ⟨fun hi => ?twoSources, fun hi => ?otherGroups, fun hi => ?third, fun hb => ?fieldB, fun hp => ?system,
    fun hd => ?destination, fun ha => ?source, fun ty ht => ?types⟩
  case twoSources | otherGroups =>
    have hz : immZero f = false := beq_eq_false_iff_ne.mpr hi
    and_intros <;> exact refused ⟨_, _, rfl⟩ (by simp only [hz, Bool.and_false, Bool.false_and])
  case third =>
    have hc : immC f = false := decide_eq_false (not_lt.mpr hi)
    and_intros <;> exact refused ⟨_, _, rfl⟩ (by simp only [hc, Bool.and_false])
  case fieldB =>
    have hz : (f.b == 0) = false := beq_eq_false_iff_ne.mpr hb
    and_intros <;> exact refused ⟨_, _, rfl⟩ (by simp only [sysZero, hz, Bool.and_false, Bool.false_and])
  case system =>
    have hz : sysZero f = false := by rw [sysZero, beq_eq_false_iff_ne.mpr hp, Bool.and_false]
    and_intros <;> exact refused ⟨_, _, rfl⟩ (by simp only [hz, Bool.false_and])
  case destination =>
    have hn : isPredF f.d = false := decide_eq_false (not_lt.mpr hd)
    and_intros <;> exact refused ⟨_, _, rfl⟩ (by simp only [hn, Bool.and_false])
  case source =>
    have hn : isPredF f.a = false := decide_eq_false (not_lt.mpr ha)
    and_intros <;> exact refused ⟨_, _, rfl⟩ (by simp only [hn, Bool.and_false, Bool.false_and])
  case types =>
    have hn : intType ty = false := decide_eq_false (not_lt.mpr ht)
    have hl : decide (ty.toNat ≤ 4) = false := decide_eq_false (by omega)
    and_intros <;> exact refused ⟨_, _, rfl⟩ (by simp only [hn, hl, Bool.false_and])

/-! ## Words that end their task (R35, R55, R88) -/

/-- Settles O10: BRK and TRAP raise the exceptions that end their task, and a reserved word passes no check. -/
theorem breakTrapAndReservedWords : Obligations.BreakTrapAndReservedWords := by
  intro s k t f w h hf
  refine ⟨fun hb hp => ?_, fun hw => ?_⟩
  · have hz : sysZero f = true := by simp [sysZero, hb, hp]
    exact ⟨exc_of h hf hz ⟨0x0B, f.imm⟩ rfl (by simp) (by simp) (by simp) rfl,
      exc_of h hf hz ⟨0x0C, f.imm⟩ rfl (by simp) (by simp) (by simp) rfl⟩
  · have hx : exec (.reservedInstruction k w) s = .next (issue k (aloneUse 1) false (fun s t => .keep s t) s) := by
      show execReservedInstruction k w s = _
      rw [execReservedInstruction, hw, Option.isNone_none, if_pos rfl]
    exact illegal_of h hf rfl hx

end Sys2Proof.Machine

/-!
Memory accesses and inputs: stores to a frozen tile (O21), the faults of loads and stores (O22), the value of an input (O25),
and the side effects of a task that can still be undone (O34).
-/

namespace Sys2Proof.Machine

/-- One element that may be reached raises neither ALIGN nor MEM_FAULT. -/
theorem checkElems_one {o : Int} {n : Nat} {inside : Int → Bool} (h : o % (n : Int) = 0 ∧ inside o = true) :
    checkElems [o] n inside = none := checkElems_none _ _ _ (List.forall_mem_singleton.mpr h)

/-! ## Stores to a frozen tile (R41, R45) -/

/-- A store to a frozen output tile only counts. -/
theorem storeDo_frozen {s : State} {t : Task} (h : tileFrozen s t = true) (ty : Nat) (x : Int × Nat) :
    storeDo 1 ty [x] s t = .keep (bump .frozenStore s) (advancePc t) := by
  show (if tileFrozen s t = true then _ else _) = _
  rw [if_pos h]

/-- ST under its predicate runs the store of its one element. -/
theorem exec_st_runs {s : State} {k : Nat} {t : Task} {f : F} (h : Ready s k t) (he : Enabled t f) {sp : BitVec 2} (hsp : sp ≠ 2)
    (hd : f.d = 0) (ty : BitVec 3) : ∃ us, exec (.st k sp ty f) s = .next (settle (counted s us t) (issued k us t s)
      (storeBody sp ty.toNat f [(spaceAddr t f sp, laneNat ty.toNat (sreg t f.b))] (issued k us t s) (counted s us t))) := by
  refine ⟨memUse 0 sp f [regS f.b] [], congrArg Host.Outcome.next ?_⟩
  have hl : storeLegal sp f = true := by rw [storeLegal, bne_iff_ne.mpr hsp, hd]; rfl
  rw [hl, issue_legal h]
  simp only [maskOf_counted, he, Bool.not_true, Bool.false_eq_true, if_false]
  rw [← spBase_eq]
  rfl

/-- Settles O21: the store meets no exception, so the frozen tile counts it and the task goes on. -/
theorem frozenStoreIsDiscarded : Obligations.FrozenStoreIsDiscarded := by
  intro s k t f ty h hd he hfz hok
  obtain ⟨us, hx⟩ := exec_st_runs h he (sp := 1) (by decide) hd ty
  have hnone : storeExc 1 ty.toNat f [(spaceAddr t f 1, laneNat ty.toNat (sreg t f.b))] (issued k us t s) (counted s us t) = none := by
    rw [storeExc_issued']
    exact storeExc_ok (by simpa using hok) (fun h3 => absurd h3.1 (by decide))
  rw [storeBody, hnone] at hx
  dsimp only at hx
  rw [storeDo_frozen (by rw [tileFrozen_issued]; exact hfz)] at hx
  have hframe := issued_frame k us t s
  refine ⟨_, advancePc (counted s us t), hx, ?_, fun n hn => ?_, ?_, ?_, taskAt_setTask_same _ _, rfl⟩
  · show counter (bump .frozenStore (issued k us t s)) _ = _
    rw [counter_bump_same, hframe]; rfl
  · show counter (bump .frozenStore (issued k us t s)) n = _
    rw [counter_bump_ne _ _ _ hn, hframe]; rfl
  · show (issued k us t s).fmem = _
    rw [hframe]
  · show (issued k us t s).regs = _
    rw [hframe]

/-! ## Faults of loads and stores (R40, R55, R56) -/

/-- An exception of a load's one element ends the task of LD. -/
theorem ld_terminates {s : State} {k : Nat} {t : Task} {f : F} (h : Ready s k t) (he : Enabled t f) (hf : TasksFit s)
    {sp : BitVec 2} (hl : sp = 2 ∨ f.b = 0) {ty : BitVec 3} {x : Exc} (hx : loadExc sp ty.toNat f [spaceAddr t f sp] s t = some x)
    (hc : x.code = 3 ∨ x.code = 4 ∨ x.code = 5) : Terminates s t (.ld k sp ty f) 1 x.code x.info := by
  have := exc_of h hf (legal_ld hl) x (i := .ld k sp ty f) (us := memUse 0 sp f [] [regS f.d]) ?_ (by omega) (by omega) (by omega) rfl
  · rwa [if_neg (by omega)] at this
  · simp only [maskOf_counted, he, Bool.not_true, Bool.false_eq_true, if_false]
    have hb : spBase sp f (counted s (memUse 0 sp f [] [regS f.d]) t) = spaceAddr t f sp := spBase_eq sp f _
    rw [hb, loadExc_issued, hx]

/-- An exception of a store's one element ends the task of ST. -/
theorem st_terminates {s : State} {k : Nat} {t : Task} {f : F} (h : Ready s k t) (he : Enabled t f) (hf : TasksFit s)
    {sp : BitVec 2} (hsp : sp ≠ 2) (hd : f.d = 0) {ty : BitVec 3} {x : Exc}
    (hx : ∀ v, storeExc sp ty.toNat f [(spaceAddr t f sp, v)] s t = some x) (hc : x.code = 3 ∨ x.code = 4) :
    Terminates s t (.st k sp ty f) 1 x.code x.info := by
  obtain ⟨us, hx'⟩ := exec_st_runs h he hsp hd ty
  rw [storeBody, storeExc_issued', hx] at hx'
  have := terminates_issued h.running hf x.code x.info (by omega) (i := .st k sp ty f) (us := us) ?_
  · rwa [if_neg (by omega)] at this
  · rw [hx']
    simp only [settle, raiseExc, if_neg (show x.code ≠ 7 by omega), if_neg (show x.code ≠ 8 by omega)]

section LoadExceptions

variable {s : State} {t : Task} {f : F} {sp : BitVec 2} {ty : Nat} {o : Int}

theorem loadExc_align (h : o % (typeBytes ty : Int) ≠ 0) : loadExc sp ty f [o] s t = some ⟨3, infoOf o⟩ := by
  unfold loadExc
  rw [checkElems_align _ _ _ h]
  rfl

/-- Outside its space, or frame memory in a task that can still be undone (R40). -/
theorem loadExc_fault (h : o % (typeBytes ty : Int) = 0)
    (hi : spInside sp f (typeBytes ty) s t o = false ∨ (sp = 3 ∧ undoable t = true)) :
    loadExc sp ty f [o] s t = some ⟨4, infoOf o⟩ := by
  unfold loadExc
  rw [checkElems_fault _ _ _ h]
  · rfl
  · rcases hi with hi | ⟨rfl, hu⟩
    · rw [hi, Bool.and_false]
    · simp [classFault, hu]

theorem loadExc_data (h : ElementOk s t f sp ty o) (h3 : ¬ (sp = 3 ∧ undoable t = true)) {a : Nat}
    (ha : badByte sp f s t (typeBytes ty) o = some a) : loadExc sp ty f [o] s t = some ⟨5, BitVec.ofNat 32 a⟩ := by
  have hc : classFault sp false t = false := by
    by_contra hc
    simp only [classFault, Bool.not_false, Bool.and_true, Bool.not_eq_false, Bool.and_eq_true, beq_iff_eq] at hc
    exact h3 hc
  have hd : dataExc sp (typeBytes ty) f [o] s t = some ⟨5, BitVec.ofNat 32 a⟩ := by simp [dataExc, ha]
  unfold loadExc
  obtain ⟨halign, hin⟩ := h
  rw [checkElems_one, hd]
  · rfl
  · exact ⟨halign, by rw [hc, hin]; rfl⟩

theorem storeExc_align (h : o % (typeBytes ty : Int) ≠ 0) (v : Nat) : storeExc sp ty f [(o, v)] s t = some ⟨3, infoOf o⟩ := by
  unfold storeExc
  rw [List.map_cons, List.map_nil, checkElems_align _ _ _ h]

theorem storeExc_fault (h : o % (typeBytes ty : Int) = 0) (hi : spInside sp f (typeBytes ty) s t o = false) (v : Nat) :
    storeExc sp ty f [(o, v)] s t = some ⟨4, infoOf o⟩ := by
  unfold storeExc
  rw [List.map_cons, List.map_nil, checkElems_fault _ _ _ h hi]

end LoadExceptions

/-- VSAMP of a layer that the task may not read raises INPUT_FAULT (R75). -/
theorem vsamp_terminates {s : State} {k : Nat} {t : Task} {f : F} (h : Ready s k t) (hf : TasksFit s) {nearest : Bool}
    {edge : BitVec 2} (hl : (edge != 3 && immZero f && isGroup f.d && isPair f.b) = true) (hm : maskOf t f ≠ 0)
    (hn : layerFor s t (sreg t f.a) = none) : Terminates s t (.vsamp k nearest edge f) 1 6 (layerInfo (sreg t f.a)) := by
  refine exc_of h hf hl ⟨6, layerInfo (sreg t f.a)⟩ (us := gathUse f (regS f.a :: regsV f.b 2) (regsV f.d 4)) ?_
    (by simp) (by simp) (by simp) rfl
  have hne : (activeLanes (counted s (gathUse f (regS f.a :: regsV f.b 2) (regsV f.d 4)) t) f).isEmpty = false := nonempty_of hm
  simp only [hne, Bool.false_eq_true, if_false, sreg_counted, layerFor_issued, hn]

/-- Settles O22: the exception that each clause's access meets first. -/
theorem loadAndStoreFaults : Obligations.LoadAndStoreFaults := by
  intro s k t f sp ty h he hf
  refine ⟨fun hl => ⟨fun ha => ?_, fun ha hi => ?_, fun hok h3 a hb => ?_⟩, fun nearest edge hedge hz hd hb hm hn => ?_,
    fun hsp hd => ⟨fun ha => ?_, fun ha hi => ?_⟩⟩
  · exact ld_terminates h he hf hl (loadExc_align ha) (.inl rfl)
  · exact ld_terminates h he hf hl (loadExc_fault ha hi) (.inr (.inl rfl))
  · exact ld_terminates h he hf hl (loadExc_data hok h3 hb) (.inr (.inr rfl))
  · exact vsamp_terminates h hf (by rw [bne_iff_ne.mpr hedge]; simp [immZero, hz, isGroup, isPair, hd, hb]) hm hn
  · exact st_terminates h he hf hsp hd (storeExc_align ha) (.inl rfl)
  · exact st_terminates h he hf hsp hd (storeExc_fault ha hi) (.inr rfl)

/-! ## Side effects of a task that can still be undone (R40, R41, R56) -/

section SideEffects

variable {s : State} {k : Nat} {t : Task} {f : F}

/-- A task instruction whose body parks. -/
theorem taskOp_parks (h : Ready s k t) (he : Enabled t f) (hz : f.imm = 0) {cyc : Nat} {body : Body} {i : Instr}
    (hb : body (issued k (aloneUse cyc) t s) (counted s (aloneUse cyc) t) = .exc ⟨7, t.pc⟩)
    (hx : exec i s = .next (taskOp k cyc f body s)) : ParksAt s t i := by
  refine parks_of h (us := aloneUse cyc) (by simp [immZero, hz]) ?_ hx
  simp only [maskOf_counted, he, if_true]
  exact hb

/-- A packet instruction whose other causes do not hold. -/
theorem pktOp_parks (h : Ready s k t) (he : Enabled t f) (hu : undoable t = true) (hp : privileged s t = true) {us : Use}
    {legal : Bool} {pre : State → Task → Option Exc} {body : Body} {i : Instr} (hl : legal = true)
    (hpre : pre (issued k us t s) (counted s us t) = none) (hx : exec i s = .next (pktOp k us f legal pre body s)) :
    ParksAt s t i := by
  refine parks_of h (us := us) hl ?_ hx
  have hu' : undoable (counted s us t) = true := hu
  simp only [maskOf_counted, he, Bool.not_true, Bool.false_eq_true, if_false, privileged_issued, hp, hpre, hu', if_true]
  rfl

theorem pktSend_parks (h : Ready s k t) (he : Enabled t f) (hu : undoable t = true) (hp : privileged s t = true) (hz : f.imm = 0)
    {b : PktBuf} (hb : pktOf t (sreg t f.a) = some b) (hs : sendZero (sreg t f.b) = true) : ParksAt s t (.pktSend k f) := by
  refine parks_of h (us := pktUse 2 f [regS f.a, regS f.b] []) (l := immZero f) (by simp [immZero, hz]) ?_ rfl
  have hu' : undoable (counted s (pktUse 2 f [regS f.a, regS f.b] []) t) = true := hu
  have hb' : pktOf (counted s (pktUse 2 f [regS f.a, regS f.b] []) t) (sreg t f.a) = some b := hb
  simp only [maskOf_counted, he, sreg_counted, hs, Bool.not_true, Bool.and_false, Bool.false_eq_true, if_false, privileged_issued,
    hp, hb', hu', if_true]
  rfl

/-- The length of PKT.LEN is within its bounds (R81). -/
theorem pktLen_parks (h : Ready s k t) (he : Enabled t f) (hu : undoable t = true) (hp : privileged s t = true) (hz : f.imm = 0)
    {b : PktBuf} (hb : pktOf t (sreg t f.a) = some b) (hlo : 60 ≤ (sreg t f.b).toNat) (hhi : (sreg t f.b).toNat ≤ 9600) :
    ParksAt s t (.pktLen k f) := by
  refine pktOp_parks h he hu hp (us := pktUse 1 f [regS f.a, regS f.b] []) (legal := immZero f) (by simp [immZero, hz]) ?_ rfl
  simp only [heldOr_none hb, sreg_counted]
  simp [not_lt.mpr hlo, not_lt.mpr hhi]

theorem etabWr_parks (h : Ready s k t) (he : Enabled t f) (hu : undoable t = true) (hp : privileged s t = true) (hb : f.b = 0)
    (hi : f.imm.toNat < 16) : ParksAt s t (.etabWr k f) := by
  refine parks_of h (us := etabWrUse f) (l := f.b == 0 && decide (f.imm.toNat < 16)) (by simp [hb, hi]) ?_ rfl
  have hu' : undoable (counted s (etabWrUse f) t) = true := hu
  simp only [maskOf_counted, he, Bool.not_true, Bool.false_eq_true, if_false, privileged_issued, hp, hu', if_true]
  rfl

theorem cntAdd_parks (h : Ready s k t) (hu : undoable t = true) (hb : f.b = 0) (hp : f.p = 0) (hi : f.imm.toNat < 8) :
    ParksAt s t (.cntAdd k f) := by
  refine parks_of h (us := aloneUse 1) (l := sysZero f && decide (f.imm.toNat < 8)) (by simp [sysZero, hb, hp, hi]) ?_ rfl
  exact if_pos hu

/-- A store to frame memory whose element may be reached. -/
theorem st_parks (h : Ready s k t) (he : Enabled t f) (hu : undoable t = true) (hd : f.d = 0) {ty : BitVec 3}
    (hok : ElementOk s t f 3 ty.toNat (spaceAddr t f 3)) : ParksAt s t (.st k 3 ty f) := by
  refine parks_of h (us := memUse 0 3 f [regS f.b] []) (l := storeLegal 3 f) (by simp [storeLegal, hd]) ?_ rfl
  simp only [maskOf_counted, he, Bool.not_true, Bool.false_eq_true, if_false]
  have hx : ∀ v, storeExc 3 ty.toNat f [(spaceAddr t f 3, v)] s t = some ⟨7, t.pc⟩ := by
    intro v
    unfold storeExc
    rw [List.map_cons, List.map_nil, checkElems_one hok]
    exact if_pos (by simp [hu])
  have hb : spBase 3 f (counted s (memUse 0 3 f [regS f.b] []) t) = spaceAddr t f 3 := spBase_eq 3 f _
  rw [storeBody, hb, storeExc_issued', hx]

end SideEffects

/-- Settles O34: each of the listed instructions reaches its side effect and parks there. -/
theorem sideEffectsPark : Obligations.SideEffectsPark := by
  intro s k t f h he hu i hi
  rcases hi with ⟨hi, hz⟩ | ⟨rfl, hb, hp, hi⟩ | ⟨hp, hz, rfl⟩ | ⟨hp, hz, hheld, hi⟩ | ⟨hp, rfl, hb, hi⟩ |
    ⟨rfl, hz, h32, hin, hd⟩ | ⟨ty, rfl, hd, hok⟩
  · simp only [List.mem_cons, List.not_mem_nil, or_false] at hi
    rcases hi with rfl | rfl <;> exact taskOp_parks h he hz (if_pos hu) rfl
  · exact cntAdd_parks h hu hb hp hi
  · exact pktOp_parks h he hu hp (legal := immZero f) (by simp [immZero, hz]) rfl rfl
  · obtain ⟨b, hb⟩ := Option.ne_none_iff_exists'.mp hheld
    have hl : immZero f = true := by simp [immZero, hz]
    have hc : immC f = true := by simp [immC, hz]
    rcases hi with ⟨rfl, hs⟩ | rfl | ⟨rfl, hlo, hhi⟩ | ⟨hi, h4, hlt⟩
    · exact pktSend_parks h he hu hp hz hb hs
    · exact pktOp_parks h he hu hp hl (heldOr_none hb) rfl
    · exact pktLen_parks h he hu hp hz hb hlo hhi
    · simp only [List.mem_cons, List.not_mem_nil, or_false] at hi
      rcases hi with rfl | rfl
      · exact pktOp_parks h he hu hp hl (wordOr_none hb h4 hlt) rfl
      · exact pktOp_parks h he hu hp hc (wordOr_none hb h4 hlt) rfl
  · exact etabWr_parks h he hu hp hb hi
  · obtain ⟨hbad, hpure⟩ := hd _ rfl
    exact taskOp_parks h he hz (spawnBody_park h32 hin hbad hpure hu) (exec_spawn k f s)
  · exact st_parks h he hu hd hok

/-! ## The value of an input (R37, R128, R388) -/

section Inputs

variable {s : State} {key : InKey} {c : Nat} {e : W32}

/-- A task reads value and version of the newest change that applies. -/
theorem read_of_changeAt (hk : key.kind ≠ 8) {x : Change} (hx : changeAt s key c e = some x) :
    valueFor s key (some (c, e)) = x.value ∧ versionFor s key (some (c, e)) = x.version := by
  simp only [valueFor, if_neg hk, versionFor, changeFor, hx, and_self]

/-- Where no change applies, it reads the initial value at version 0. -/
theorem read_of_no_change (hk : key.kind ≠ 8) (hx : changeAt s key c e = none) :
    valueFor s key (some (c, e)) = initialValue s key ∧ versionFor s key (some (c, e)) = 0 := by
  simp only [valueFor, if_neg hk, versionFor, changeFor, hx, and_self]

/-- The newest change that applies is read, whatever the input (R128). -/
theorem read_newest (hk : key.kind ≠ 8) {x : Change} (hm : x ∈ s.vat.inputs) (ha : appliesAt s key c e x = true)
    (hnew : ∀ y ∈ s.vat.inputs, appliesAt s key c e y = true → y ≠ x → y.version.toNat < x.version.toNat) :
    valueFor s key (some (c, e)) = x.value ∧ versionFor s key (some (c, e)) = x.version :=
  read_of_changeAt hk (changeAt_newest hm ha hnew)

/-- The initial values of R388, for every layer number that the device has (R31: below 1,024). -/
theorem read_initial (hk : key.kind ≠ 8) (hno : ∀ x ∈ s.vat.inputs, appliesAt s key c e x = false) :
    versionFor s key (some (c, e)) = 0 ∧
      (key.kind ≠ 5 → key.kind ≠ 7 → valueFor s key (some (c, e)) = 0) ∧
      (key.kind = 5 → valueFor s key (some (c, e)) = 0x0180FFFF) ∧
      (∀ l, key.kind = 7 → key.idx < 1024 → layerOf s key.idx = some l →
        valueFor s key (some (c, e)) = BitVec.ofNat 32 (l.width + 65536 * l.height)) := by
  obtain ⟨hval, hver⟩ := read_of_no_change hk (changeAt_none hno)
  rw [hval]
  refine ⟨hver, fun h5 h7 => ?_, fun h5 => ?_, fun l h7 hi hl => ?_⟩
  · rw [initialValue, if_neg h5, if_neg h7]
  · rw [initialValue, if_pos h5]
  · rw [initialValue, if_neg (by omega), if_pos h7, anyLayer, if_pos hi, hl]

end Inputs

/-- A state that lists a layer under the number 1,024, which is no layer number: the input log keeps deleted layers there. -/
def layerAboveRange : State :=
  { State.reset with hst := { State.reset.hst with layers := [(1024, ⟨0, 4, 4, 1, false, none, 0, 2⟩)] } }

/-- Refutes O25: its last clause also takes a layer listed under a number of 1,024 or more, where the model looks among the
deleted layers (log 101) and, finding none, gives 0 for the 4 × 4 layer. For numbers below 1,024 the clauses hold: `read_newest`
and `read_initial`. -/
theorem not_inputValueIsMostRecentChange : ¬ Obligations.InputValueIsMostRecentChange := by
  intro h
  obtain ⟨-, hinit⟩ := h layerAboveRange ⟨7, 0, 1024⟩ 0 0 (by decide)
  obtain ⟨-, -, -, hlayer⟩ := hinit (by intro x hx; cases hx)
  have hsize : valueFor layerAboveRange ⟨7, 0, 1024⟩ (some (0, 0)) = 0x00040004 := hlayer _ rfl rfl
  have hzero : valueFor layerAboveRange ⟨7, 0, 1024⟩ (some (0, 0)) = 0 := by decide +kernel
  exact absurd (hsize.symm.trans hzero) (by decide)

end Sys2Proof.Machine

/-!
The scalar core, continued: sums and products (O1), logic and shifts (O2), compares and choices (O3), predicate operations
(O6), and the two causes that keep an instruction from issuing (O9).
-/

namespace Sys2Proof.Machine

/-! ## Sums, differences and products (R52, R61, R62) -/

theorem add_eq_ofNat (a b : W32) : a + b = BitVec.ofNat 32 (a.toNat + b.toNat) := by
  rw [BitVec.ofNat_add, BitVec.ofNat_toNat, BitVec.ofNat_toNat, BitVec.setWidth_eq, BitVec.setWidth_eq]

theorem mul_eq_ofNat (a b : W32) : a * b = BitVec.ofNat 32 (a.toNat * b.toNat) := by
  rw [BitVec.ofNat_mul, BitVec.ofNat_toNat, BitVec.ofNat_toNat, BitVec.setWidth_eq, BitVec.setWidth_eq]

theorem mul_add_eq_ofNat (a b c : W32) : a * b + c = BitVec.ofNat 32 (a.toNat * b.toNat + c.toNat) := by
  rw [BitVec.ofNat_add, ← mul_eq_ofNat, BitVec.ofNat_toNat, BitVec.setWidth_eq]

theorem sub_eq_ofInt (a b : W32) : a - b = BitVec.ofInt 32 (a.toInt - b.toInt) := by
  apply BitVec.eq_of_toInt_eq
  rw [BitVec.toInt_sub, BitVec.toInt_ofInt]

theorem mul_eq_ofInt (a b : W32) : a * b = BitVec.ofInt 32 (a.toInt * b.toInt) := by
  rw [BitVec.ofInt_mul, BitVec.ofInt_toInt, BitVec.ofInt_toInt]

/-- Settles O1: each instruction is a table form of a function that agrees with the arithmetic of the rule. -/
theorem scalarSumsAndProducts : Obligations.ScalarSumsAndProducts := by
  intro s k t f h he
  refine ⟨fun hz => ⟨?add, ?sub, ?mul, ?mulh, ?mulhu⟩, fun c hc => ?mad, fun hb => ⟨?addi, ?muli, fun ha => ?li⟩⟩
  case add => exact tbl_alu2 h he hz rfl (add_eq_ofNat _ _)
  case sub => exact tbl_alu2 h he hz rfl (sub_eq_ofInt _ _)
  case mul => exact tbl_alu2 h he hz rfl (mul_eq_ofInt _ _)
  case mulh => exact tbl_alu2 h he hz rfl (mulHi_eq _ _)
  case mulhu => exact tbl_alu2 h he hz rfl (mulHiU_eq _ _)
  case mad => exact tbl_alu3 h he hc rfl (mul_add_eq_ofNat _ _ _)
  case addi => exact tbl_imm h he hb rfl rfl (add_eq_ofNat _ _)
  case muli => exact tbl_imm h he hb rfl rfl (mul_eq_ofNat _ _)
  case li => exact tbl_imm h he hb (beq_iff_eq.mpr ha) rfl rfl

/-! ## Logic and shifts (R61, R62) -/

theorem sh_ofNat {n : Nat} (hn : n < 32) : sh (BitVec.ofNat 32 n) = n := by
  rw [sh, BitVec.toNat_ofNat]
  omega

theorem immC_ofNat {f : F} {n : Nat} (hn : n < 32) (hi : f.imm = BitVec.ofNat 32 n) : immC f = true := by
  rw [immC, hi, BitVec.toNat_ofNat, decide_eq_true_eq]
  omega

/-- Settles O2: the shifts by a register and by an immediate are one function of the count. -/
theorem scalarLogicAndShifts : Obligations.ScalarLogicAndShifts := by
  intro s k t f h he
  refine ⟨fun hz => ⟨?and, ?or, ?xor, ?shl, ?shr, ?sra⟩, fun c hc => ?sel, fun hb => ⟨?andi, ?ori, ?xori, fun n hn hi => ?shifts⟩⟩
  case and | or | xor => exact tbl_alu2 h he hz rfl rfl
  case shl => exact tbl_alu2 h he hz rfl (shl_eq _ _)
  case shr => exact tbl_alu2 h he hz rfl (shr_eq _ _)
  case sra => exact tbl_alu2 h he hz rfl (sra_eq _ _)
  case sel => exact tbl_alu3 h he hc rfl (ite_not _ _ _)
  case andi | ori | xori => exact tbl_imm h he hb rfl rfl rfl
  case shifts =>
    have hsh : sh f.imm = n := hi ▸ sh_ofNat hn
    have hl := immC_ofNat hn hi
    exact ⟨tbl_imm h he hb hl rfl (hsh ▸ shl_eq _ _), tbl_imm h he hb hl rfl (hsh ▸ shr_eq _ _),
      tbl_imm h he hb hl rfl (hsh ▸ sra_eq _ _)⟩

/-! ## Compares and choices (R61, R62) -/

theorem w1_slt (a b : W32) : w1 (a.slt b) = if a.toInt < b.toInt then 1 else 0 := by
  rw [w1, BitVec.slt_eq_decide]
  simp only [decide_eq_true_eq]

theorem w1_ult (a b : W32) : w1 (a.ult b) = if a.toNat < b.toNat then 1 else 0 := by
  rw [w1, BitVec.ult_eq_decide]
  simp only [decide_eq_true_eq]

/-- Settles O3. -/
theorem scalarComparesAndChoices : Obligations.ScalarComparesAndChoices := by
  intro s k t f h he
  refine ⟨fun hz => ⟨?slt, ?sltu, ?min, ?max, ?minu, ?maxu⟩, fun hb => ⟨?slti, ?sltiu⟩⟩
  case slt => exact tbl_alu2 h he hz rfl (w1_slt _ _)
  case sltu => exact tbl_alu2 h he hz rfl (w1_ult _ _)
  case min => exact tbl_alu2 h he hz rfl (smin_eq _ _)
  case max => exact tbl_alu2 h he hz rfl (smax_eq _ _)
  case minu => exact tbl_alu2 h he hz rfl (umin_eq _ _)
  case maxu => exact tbl_alu2 h he hz rfl (umax_eq _ _)
  case slti => exact tbl_imm h he hb rfl rfl (w1_slt _ _)
  case sltiu => exact tbl_imm h he hb rfl rfl (w1_ult _ _)

/-! ## Predicate operations (R61, R24) -/

/-- A predicate operation of two predicates. -/
theorem writesPredicate_pred2 {s : State} {k : Nat} {t : Task} (h : Ready s k t) {f : F} (he : Enabled t f) (hz : f.imm = 0)
    (hd : f.d.toNat < 8) (ha : f.a.toNat < 8) (hb : f.b.toNat < 8) {i : Instr} {g : W16 → W16 → W16} {v : W16}
    (hx : exec i s = .next (pred2 k f g s)) (hv : g (preg t f.a.toNat) (preg t f.b.toNat) = v) :
    WritesPredicate s t i f.d.toNat v :=
  tbl_pred h he hz (by simp [isPredF, ha, hb]) hd hx (fun _ _ => hv)

/-- A scalar instruction whose check of its fields passes. -/
theorem writesScalar_scalarOp {s : State} {k : Nat} {t : Task} (h : Ready s k t) {f : F} (he : Enabled t f) {i : Instr} {u : Use}
    {legal : Bool} {val : Task → W32} {v : W32} (hx : exec i s = .next (scalarOp k f u legal val s)) (hl : legal = true)
    (hv : ∀ n, val (counted n u t) = v) : WritesScalar s t i f.d v :=
  writesScalar_of h he (hl ▸ hx) hv

/-- Settles O6. -/
theorem predicateOperations : Obligations.PredicateOperations := by
  intro s k t f h he hz
  refine ⟨fun hd ha hb => ?two, fun hd hb => ?pmov, fun ha hb => ?prd⟩
  case two => and_intros <;> exact writesPredicate_pred2 h he hz hd ha hb rfl rfl
  case pmov => exact tbl_pred h he hz (beq_iff_eq.mpr hb) hd rfl (fun _ _ => BitVec.ofNat_toNat _ _)
  case prd =>
    exact writesScalar_scalarOp h he rfl (by simp [immZero, hz, hb, isPredF, ha]) (fun _ => BitVec.ofNat_toNat _ _)

/-! ## What keeps an instruction from issuing (R85, R90) -/

/-- At the step limit an instruction of any kind raises STEP_LIMIT. -/
theorem issue_at_limit {s : State} {k : Nat} {t : Task} (h : taskOn s k = some t) (hl : stepLimitHit t = true) (us : Use)
    (legal : Bool) (body : Body) : issue k us legal body s = terminate t 0x0A (BitVec.ofNat 32 t.steps) s := by
  unfold issue
  simp only [h, hl, if_true]

/-- Below it, a fetch beyond the image raises MEM_FAULT. -/
theorem issue_beyond_image {s : State} {k : Nat} {t : Task} (h : taskOn s k = some t) (hl : stepLimitHit t = false)
    (hb : beyondImage t = true) (us : Use) (legal : Bool) (body : Body) : issue k us legal body s = terminate t 4 t.pc s := by
  unfold issue
  simp only [h, hl, hb, if_true, Bool.false_eq_true, if_false]

/-- Settles O9: every instruction with a word goes through the checks of `issue`. -/
theorem stepLimitAndEndOfImage : Obligations.StepLimitAndEndOfImage := by
  intro s i t hi ht hf
  obtain ⟨us, legal, body, hx⟩ := exec_issue i s hi
  refine ⟨fun hd hs => ?limit, fun hs hp => ?image⟩
  case limit =>
    have hhit : stepLimitHit t = true := by simp [stepLimitHit, hd, hs]
    rw [issue_at_limit ht hhit, hs] at hx
    exact terminates_now ht hf 0x0A _ (by decide) (by decide) hx
  case image =>
    have hhit : stepLimitHit t = false := by
      rcases hs with h0 | hlt
      · simp [stepLimitHit, h0]
      · simp [stepLimitHit, not_le.mpr hlt]
    rw [issue_beyond_image ht hhit (decide_eq_true hp)] at hx
    exact terminates_now ht hf 4 _ (by decide) (by decide) hx

end Sys2Proof.Machine

/-!
The vector integer group: sums and products (O11), bits, shifts and choices (O12), selections and the sum of the lanes (O13),
and the compares of integers and of floats (O14).
-/

namespace Sys2Proof.Machine

/-! ## Instructions whose fields are legal -/

/-- A vector instruction whose check of its fields passes. -/
theorem writesVector_legal {s : State} {k : Nat} {t : Task} (h : Ready s k t) {i : Instr} {f : F} {u : Use} {legal : Bool}
    {val : Task → Nat → W32} {v : Nat → W32} (hx : exec i s = .next (vecOp k f u legal val s)) (hl : legal = true)
    (hv : ∀ n l, val (counted n u t) l = v l) : WritesVector s t i f f.d.toNat v :=
  writesVector_of h (hl ▸ hx) hv

/-- A vector instruction with a scalar result, whose check of its fields passes. -/
theorem writesScalar_legal {s : State} {k : Nat} {t : Task} (h : Ready s k t) {i : Instr} {d : BitVec 5} {u : Use} {legal : Bool}
    {g : Task → Task} {v : W32} (hx : exec i s = .next (issue k u legal (pureBody g) s)) (hl : legal = true)
    (hg : ∀ n, g (counted n u t) = setS d v (counted n u t)) : WritesScalar s t i d v :=
  writesScalar_pure h (hl ▸ hx) hg

theorem intType_true {ty : BitVec 3} (ht : ty.toNat < 5) : intType ty = true := decide_eq_true ht

theorem immZero_true {f : F} (hz : f.imm = 0) : immZero f = true := beq_iff_eq.mpr hz

/-! ## Sums, differences and products (R63) -/

section Integer

variable {s : State} {k : Nat} {t : Task} {f : F} {ty : BitVec 3}

theorem wrapped_vSum (ht : ty.toNat < 5) (a b : W32) :
    Wrapped ty.toNat (laneInt ty.toNat a + laneInt ty.toNat b) (vSum false ty.toNat a b) := wrapped_laneWrap ht _

theorem wrapped_vDiff (ht : ty.toNat < 5) (a b : W32) :
    Wrapped ty.toNat (laneInt ty.toNat a - laneInt ty.toNat b) (vDiff false ty.toNat a b) := wrapped_laneWrap ht _

theorem saturated_vSum (ht : ty.toNat < 5) (a b : W32) :
    Saturated ty.toNat (laneInt ty.toNat a + laneInt ty.toNat b) (vSum true ty.toNat a b) := saturated_laneSat ht _

theorem saturated_vDiff (ht : ty.toNat < 5) (a b : W32) :
    Saturated ty.toNat (laneInt ty.toNat a - laneInt ty.toNat b) (vDiff true ty.toNat a b) := saturated_laneSat ht _

theorem writesVector_vmad (h : Ready s k t) (ht : ty.toNat < 5) {c : BitVec 5} (hc : f.imm = c.setWidth 32) :
    WritesVector s t (.vmad k ty f) f f.d.toNat (fun l => laneWrap ty.toNat
      (laneInt ty.toNat (lane t f.a.toNat l) * laneInt ty.toNat (lane t f.b.toNat l) + laneInt ty.toNat (lane t c.toNat l))) := by
  obtain ⟨hcf, hl⟩ := cField_of hc
  refine writesVector_legal h rfl (by rw [intType_true ht, hl]; rfl) (fun n l => ?_)
  rw [lc, hcf]
  rfl

/-- Settles O11: the lane functions wrap or saturate at the type's width. -/
theorem vectorIntegerArithmetic : Obligations.VectorIntegerArithmetic := by
  intro s k t f ty h ht
  refine ⟨fun hz => ?two, fun c hc => ?mad⟩
  case two =>
    exact ⟨_, _, _, _, _, vint2_of h ht hz rfl, vint2_of h ht hz rfl, vint2_of h ht hz rfl, vint2_of h ht hz rfl,
      vint2_of h ht hz rfl, fun l => ⟨wrapped_vSum ht _ _, wrapped_vDiff ht _ _, saturated_vSum ht _ _, saturated_vDiff ht _ _,
        wrapped_laneWrap ht _⟩⟩
  case mad => exact ⟨_, writesVector_vmad h ht hc, fun l => wrapped_laneWrap ht _⟩

/-! ## Bits, shifts and choices (R63) -/

/-- A bitwise operation at the type's width is the one of the whole lanes, cut to the width. -/
theorem laneNat_vBits (ht : ty.toNat < 5) {g : Nat → Nat → Nat} {a b c : W32}
    (hg : laneNat ty.toNat c = g (laneNat ty.toNat a) (laneNat ty.toNat b)) :
    Extended ty.toNat (vBits ty.toNat g a b) ∧ laneNat ty.toNat (vBits ty.toNat g a b) = laneNat ty.toNat c := by
  refine ⟨extended_extend ht _, ?_⟩
  rw [vBits, laneNat_extend ht, ← hg]
  exact Nat.mod_eq_of_lt (laneNat_lt _ _)

theorem laneNat_vShiftL (ht : ty.toNat < 5) (a b : W32) : Extended ty.toNat (vShiftL ty.toNat a b) ∧
    laneNat ty.toNat (vShiftL ty.toNat a b) = laneNat ty.toNat a * 2 ^ (b.toNat % 32) % 2 ^ typeBits ty.toNat := by
  refine ⟨extended_extend ht _, ?_⟩
  rw [vShiftL, laneNat_extend ht, Nat.mod_mod]

/-- A value in the range of its type is not changed by wrapping it there. -/
theorem laneInt_laneWrap (ht : ty.toNat < 5) {x : Int} (h1 : typeMin ty.toNat ≤ x) (h2 : x ≤ typeMax ty.toNat) :
    Extended ty.toNat (laneWrap ty.toNat x) ∧ laneInt ty.toNat (laneWrap ty.toNat x) = x := by
  have hw := wrapped_laneWrap ht x
  exact ⟨hw.1, laneInt_of_wrapped ht hw h1 h2⟩

theorem laneInt_vShiftR (ht : ty.toNat < 5) (a b : W32) : Extended ty.toNat (vShiftR ty.toNat a b) ∧
    laneInt ty.toNat (vShiftR ty.toNat a b) = laneInt ty.toNat a / 2 ^ (b.toNat % 32) := by
  obtain ⟨h1, h2⟩ := ediv_range ht a (b.toNat % 32)
  obtain ⟨hext, hval⟩ := laneInt_laneWrap ht h1 h2
  refine ⟨hext, hval.trans ?_⟩
  push_cast
  rfl

theorem vPick_min (a b : W32) : vPick false ty.toNat a b = laneWrap ty.toNat (min (laneInt ty.toNat a) (laneInt ty.toNat b)) := by
  unfold vPick
  by_cases h : laneInt ty.toNat a < laneInt ty.toNat b
  · rw [min_eq_left h.le, decide_eq_true h]; rfl
  · rw [min_eq_right (not_lt.mp h), decide_eq_false h]; rfl

theorem vPick_max (a b : W32) : vPick true ty.toNat a b = laneWrap ty.toNat (max (laneInt ty.toNat a) (laneInt ty.toNat b)) := by
  unfold vPick
  by_cases h : laneInt ty.toNat a < laneInt ty.toNat b
  · rw [max_eq_right h.le, decide_eq_true h]; rfl
  · rw [max_eq_left (not_lt.mp h), decide_eq_false h]; rfl

theorem laneInt_vPick_min (ht : ty.toNat < 5) (a b : W32) : Extended ty.toNat (vPick false ty.toNat a b) ∧
    laneInt ty.toNat (vPick false ty.toNat a b) = min (laneInt ty.toNat a) (laneInt ty.toNat b) := by
  obtain ⟨ha, ha'⟩ := laneInt_range ht a
  obtain ⟨hb, hb'⟩ := laneInt_range ht b
  rw [vPick_min]
  exact laneInt_laneWrap ht (le_min ha hb) (min_le_of_left_le ha')

theorem laneInt_vPick_max (ht : ty.toNat < 5) (a b : W32) : Extended ty.toNat (vPick true ty.toNat a b) ∧
    laneInt ty.toNat (vPick true ty.toNat a b) = max (laneInt ty.toNat a) (laneInt ty.toNat b) := by
  obtain ⟨ha, ha'⟩ := laneInt_range ht a
  obtain ⟨hb, hb'⟩ := laneInt_range ht b
  rw [vPick_max]
  exact laneInt_laneWrap ht (le_max_of_le_left ha) (max_le ha' hb')

/-- Settles O12: all seven are `vint2` of a lane function. -/
theorem vectorBitsShiftsAndChoices : Obligations.VectorBitsShiftsAndChoices := by
  intro s k t f ty h ht hz
  exact ⟨_, _, _, _, _, _, _, vint2_of h ht hz rfl, vint2_of h ht hz rfl, vint2_of h ht hz rfl, vint2_of h ht hz rfl,
    vint2_of h ht hz rfl, vint2_of h ht hz rfl, vint2_of h ht hz rfl, fun l =>
      ⟨laneNat_vBits ht (laneNat_land _ _ _), laneNat_vBits ht (laneNat_lor _ _ _), laneNat_vBits ht (laneNat_xor _ _ _),
        laneNat_vShiftL ht _ _, laneInt_vShiftR ht _ _, laneInt_vPick_min ht _ _, laneInt_vPick_max ht _ _⟩⟩

/-! ## Selections and the sum of the lanes (R63, R64) -/

theorem writesVector_vsel (h : Ready s k t) (ht : ty.toNat < 5) {c : BitVec 3} (hc : f.imm = c.setWidth 32) :
    WritesVector s t (.vsel k ty f) f f.d.toNat (fun l => extend ty.toNat (laneNat ty.toNat
      (if (preg t c.toNat).getLsbD l then lane t f.a.toNat l else lane t f.b.toNat l))) := by
  have hlt := c.isLt
  have hn : f.imm.toNat = c.toNat := by
    rw [hc, BitVec.toNat_setWidth]
    omega
  refine writesVector_legal h rfl (by rw [intType_true ht, hn, decide_eq_true hlt]; rfl) (fun n l => ?_)
  rw [hn]
  rfl

theorem writesVector_vbcst (h : Ready s k t) (ht : ty.toNat < 5) (hz : f.imm = 0) (hb : f.b = 0) :
    WritesVector s t (.vbcst k ty f) f f.d.toNat (fun _ => extend ty.toNat (laneNat ty.toNat (sreg t f.a))) :=
  writesVector_legal h rfl (by rw [intType_true ht, immZero_true hz, hb]; rfl) (fun _ _ => rfl)

theorem writesVector_vperm (h : Ready s k t) (ht : ty.toNat < 5) (hz : f.imm = 0) :
    WritesVector s t (.vperm k ty f) f f.d.toNat (fun l => extend ty.toNat
      (laneNat ty.toNat (lane t f.a.toNat ((lane t f.b.toNat l).toNat % 16)))) :=
  writesVector_legal h rfl (by rw [intType_true ht, immZero_true hz]; rfl) (fun _ _ => rfl)

theorem writesScalar_vext (h : Ready s k t) (ht : ty.toNat < 5) (hz : f.imm = 0) :
    WritesScalar s t (.vext k ty f) f.d (extend ty.toNat (laneNat ty.toNat (lane t f.a.toNat ((sreg t f.b).toNat % 16)))) :=
  writesScalar_legal h rfl (by rw [intType_true ht, immZero_true hz]; rfl) (fun _ => rfl)

theorem writesScalar_vradd (h : Ready s k t) (ht : ty.toNat < 5) (hz : f.imm = 0) :
    WritesScalar s t (.vradd k ty f) f.d (laneWrap ty.toNat (laneTotal ty.toNat f t)) :=
  writesScalar_legal h rfl (by rw [intType_true ht, immZero_true hz]; rfl) (fun _ => rfl)

/-- Settles O13: a selection extends the low bits of a lane, and VRADD wraps the sum. -/
theorem vectorSelectionsAndSums : Obligations.VectorSelectionsAndSums := by
  intro s k t f ty h ht
  refine ⟨fun c hc => ?sel, fun hz hb => ?bcst, fun hz => ⟨?perm, ?ext, ?radd⟩⟩
  case sel => exact ⟨_, writesVector_vsel h ht hc, fun l => wrapped_extend ht _⟩
  case bcst => exact ⟨_, writesVector_vbcst h ht hz hb, wrapped_extend ht _⟩
  case perm => exact ⟨_, writesVector_vperm h ht hz, fun l => wrapped_extend ht _⟩
  case ext => exact ⟨_, writesScalar_vext h ht hz, wrapped_extend ht _⟩
  case radd => exact ⟨_, writesScalar_vradd h ht hz, lane_sum ty.toNat f t ▸ wrapped_laneWrap ht _⟩

end Integer

/-! ## Compares (R64, R65) -/

section Compares

variable {s : State} {k : Nat} {t : Task} {f : F}

theorem writesPredicate_vcmp (h : Ready s k t) (hz : f.imm = 0) (hd : f.d.toNat < 8) {ty : BitVec 3} (ht : ty.toNat < 5)
    {op : Nat} {i : Instr} (hx : exec i s = .next (vecCmp k f (intType ty && immZero f)
      (fun u i => cmpLane op ty.toNat (la f u i) (lb f u i)) s)) :
    WritesPredicate s t i f.d.toNat (predMerge (maskOf t f) (preg t f.d.toNat)
      (fun l => cmpLane op ty.toNat (lane t f.a.toNat l) (lane t f.b.toNat l))) :=
  writesPredicate_cmp h (by rw [intType_true ht, immZero_true hz]; rfl) hd hx (fun _ _ _ => rfl)

theorem writesPredicate_vfcmp (h : Ready s k t) (hz : f.imm = 0) (hd : f.d.toNat < 8) {half : Bool} {op : Nat} {i : Instr}
    (hx : exec i s = .next (vecCmp k f (immZero f) (fun u i => fcmpLane op (fmtOf half) (la f u i) (lb f u i)) s)) :
    WritesPredicate s t i f.d.toNat (predMerge (maskOf t f) (preg t f.d.toNat)
      (fun l => fcmpLane op (fmtOf half) (lane t f.a.toNat l) (lane t f.b.toNat l))) :=
  writesPredicate_cmp h (immZero_true hz) hd hx (fun _ _ _ => rfl)

end Compares

/-- Settles O14: a compare merges the truth of each active lane into the old predicate. -/
theorem vectorCompares : Obligations.VectorCompares := by
  intro s k t f h hz hd
  refine ⟨fun ty ht => ?integers, fun half => ?floats⟩
  case integers =>
    exact ⟨_, _, _, writesPredicate_vcmp h hz hd ht rfl, writesPredicate_vcmp h hz hd ht rfl, writesPredicate_vcmp h hz hd ht rfl,
      fun l hl => ⟨predMerge_bit _ _ _ l hl, predMerge_bit _ _ _ l hl, predMerge_bit _ _ _ l hl⟩⟩
  case floats =>
    refine ⟨_, _, _, writesPredicate_vfcmp h hz hd rfl, writesPredicate_vfcmp h hz hd rfl, writesPredicate_vfcmp h hz hd rfl,
      fun l hl => ?_⟩
    simp only [predMerge_bit _ _ _ l hl]
    by_cases hon : (maskOf t f).getLsbD l = true
    · simp only [if_pos hon]
      refine ⟨rfl, rfl, Bool.or_comm _ _, fun hn => ?_⟩
      obtain ⟨heq, hlt⟩ := fnan half _ _ hn
      exact congrArg₂ or hlt heq
    · simp only [if_neg hon, and_self]

end Sys2Proof.Machine

/-!
The vector float group: arithmetic with the canonical NaN (O15), choices and conversions (O16).
-/

namespace Sys2Proof.Machine

/-! ## NaN operands (R51) -/

section NaN

variable {fm : FFmt} {a b c : Nat}

theorem fadd_nan (h : fisNan fm a = true ∨ fisNan fm b = true) : fadd fm a b = fm.nan :=
  faddV_nan _ _ _ (h.imp nanV.mp nanV.mp)

theorem fsub_nan (h : fisNan fm a = true ∨ fisNan fm b = true) : fsub fm a b = fm.nan :=
  faddV_nan _ _ _ (h.imp nanV.mp (fun hb => by rw [nanV.mp hb, fnegV]))

theorem fmul_nan (h : fisNan fm a = true ∨ fisNan fm b = true) : fmul fm a b = fm.nan := by
  rw [fmul, fmulV_nan _ _ (h.imp nanV.mp nanV.mp), fenc]

theorem fdiv_nan (h : fisNan fm a = true ∨ fisNan fm b = true) : fdiv fm a b = fm.nan := by
  unfold fdiv
  rcases h with h | h <;> rw [nanV.mp h]
  cases fdec fm a <;> rfl

theorem ffma_nan (h : fisNan fm a = true ∨ fisNan fm b = true ∨ fisNan fm c = true) : ffma fm a b c = fm.nan := by
  refine faddV_nan _ _ _ ?_
  rcases h with h | h | h
  · exact .inl (fmulV_nan _ _ (.inl (nanV.mp h)))
  · exact .inl (fmulV_nan _ _ (.inr (nanV.mp h)))
  · exact .inr (nanV.mp h)

theorem fsqrt_nan (h : fisNan fm a = true) : fsqrt fm a = fm.nan := by rw [fsqrt, nanV.mp h]

end NaN

section Float

variable {s : State} {k : Nat} {t : Task} {f : F} {half : Bool}

theorem writesVector_vfma (h : Ready s k t) {c : BitVec 5} (hc : f.imm = c.setWidth 32) :
    WritesVector s t (.vfma k half f) f f.d.toNat (fun l => BitVec.ofNat 32 (ffma (fmtOf half)
      (fl half (lane t f.a.toNat l)) (fl half (lane t f.b.toNat l)) (fl half (lane t c.toNat l)))) := by
  obtain ⟨hcf, hl⟩ := cField_of hc
  refine writesVector_legal h rfl hl (fun n l => ?_)
  rw [lc, hcf]
  rfl

theorem writesScalar_vfradd (h : Ready s k t) (hz : f.imm = 0) : WritesScalar s t (.vfradd k half f) f.d
    (BitVec.ofNat 32 (pairTree (fmtOf half) (fun l => if (maskOf t f).getLsbD l then fl half (lane t f.a.toNat l) else 0) 4 0)) := by
  rw [← treeSum_eq]
  exact writesScalar_legal h rfl (immZero_true hz) (fun _ => rfl)

end Float

/-- Settles O15: the lanes are the functions of R51, each of which answers the canonical NaN to a NaN. -/
theorem vectorFloatArithmetic : Obligations.VectorFloatArithmetic := by
  intro s k t f half h
  refine ⟨fun hz => ?two, fun c hc => ?fma, fun hz hb => ?sqrt, fun hz => writesScalar_vfradd h hz⟩
  case two =>
    refine ⟨_, _, _, _, vfl2_of h hz rfl, vfl2_of h hz rfl, vfl2_of h hz rfl, vfl2_of h hz rfl, fun l =>
      ⟨rfl, rfl, rfl, rfl, fun hn => ⟨?_, ?_, ?_, ?_⟩⟩⟩
    · exact congrArg _ (fadd_nan hn)
    · exact congrArg _ (fsub_nan hn)
    · exact congrArg _ (fmul_nan hn)
    · exact congrArg _ (fdiv_nan hn)
  case fma => exact ⟨_, writesVector_vfma h hc, fun l => ⟨rfl, fun hn => congrArg _ (ffma_nan hn)⟩⟩
  case sqrt =>
    exact ⟨_, vfl1_of h hz (by rw [hb]; rfl) rfl, fun l => ⟨rfl, fun hn => congrArg _ (fsqrt_nan hn)⟩⟩

/-! ## VFMIN and VFMAX (R65) -/

section Choices

variable {fm : FFmt} {a b : Nat}

theorem fpick_nan_nan (ha : fisNan fm a = true) (hb : fisNan fm b = true) (m : Bool) : fpick fm m a b = fm.nan := by
  rw [fpick, if_pos ha, if_pos hb]

theorem fpick_nan_left (ha : fisNan fm a = true) (hb : fisNan fm b = false) (m : Bool) : fpick fm m a b = b := by
  rw [fpick, if_pos ha, hb]; rfl

theorem fpick_nan_right (ha : fisNan fm a = false) (hb : fisNan fm b = true) (m : Bool) : fpick fm m a b = a := by
  rw [fpick, ha, hb]; rfl

/-- Without a NaN the choice is between the operands. -/
theorem fpick_number (ha : fisNan fm a = false) (hb : fisNan fm b = false) (m : Bool) :
    fpick fm m a b = if (flt fm a b || (feq fm a b && bitsOf a (fm.eb + fm.fb) 1 == 1)) == m then b else a := by
  rw [fpick, ha, hb]; rfl

theorem fpick_either (ha : fisNan fm a = false) (hb : fisNan fm b = false) (m : Bool) : fpick fm m a b = a ∨ fpick fm m a b = b := by
  rw [fpick_number ha hb]
  split
  · exact .inr rfl
  · exact .inl rfl

theorem fpick_of_flt (h : flt fm a b = true) : fpick fm false a b = a ∧ fpick fm true a b = b := by
  obtain ⟨ha, hb⟩ := flt_nan h
  rw [fpick_number ha hb, fpick_number ha hb, h]
  exact ⟨rfl, rfl⟩

/-- A number below another is neither above it nor equal to it. -/
theorem not_flt_feq_of_flt (h : flt fm b a = true) : flt fm a b = false ∧ feq fm a b = false := by
  unfold flt at h
  unfold flt feq
  cases ha : fdec fm a with
  | nan => exact ⟨rfl, rfl⟩
  | inf x => cases hb : fdec fm b with
    | nan => exact ⟨rfl, rfl⟩
    | inf y => rw [ha, hb] at h; cases x <;> cases y <;> simp_all
    | fin y n g => rw [ha, hb] at h; cases x <;> simp_all
  | fin x m e => cases hb : fdec fm b with
    | nan => exact ⟨rfl, rfl⟩
    | inf y => rw [ha, hb] at h; cases y <;> simp_all
    | fin y n g =>
      rw [ha, hb] at h
      have hsum := fsumInt_swap y n g x m e
      simp only [decide_eq_true_eq] at h
      simp only [decide_eq_false_iff_not]
      omega

theorem fpick_of_gt (h : flt fm b a = true) : fpick fm false a b = b ∧ fpick fm true a b = a := by
  obtain ⟨hb, ha⟩ := flt_nan h
  obtain ⟨hlt, heq⟩ := not_flt_feq_of_flt h
  rw [fpick_number ha hb, fpick_number ha hb, hlt, heq]
  exact ⟨rfl, rfl⟩

end Choices

/-- −0.0 is below +0.0, whichever operand it is (R65). -/
theorem fpick_zeros (half : Bool) (top : Nat) (htop : top = if half then 0x8000 else 0x80000000) :
    fpick (fmtOf half) false top 0 = top ∧ fpick (fmtOf half) true top 0 = 0 ∧
    fpick (fmtOf half) false 0 top = top ∧ fpick (fmtOf half) true 0 top = 0 := by
  subst htop
  cases half <;> decide +kernel

/-! ## Conversions (R25, R65) -/

theorem ftoi_nan {fm : FFmt} {a : Nat} (h : fisNan fm a = true) : ftoi fm a = 0 := by rw [ftoi, nanV.mp h]

theorem ftopx_nan {fm : FFmt} {a : Nat} (h : fisNan fm a = true) : ftopx fm a = 0 := by rw [ftopx, nanV.mp h]

theorem ftoi_inf {fm : FFmt} {a : Nat} {neg : Bool} (h : fdec fm a = .inf neg) :
    ftoi fm a = if neg then 0x80000000 else 0x7FFFFFFF := by
  rw [ftoi, h]
  cases neg <;> rfl

/-- A pattern of the greatest exponent that is no NaN is an infinity. -/
theorem fdec_top {fm : FFmt} {a : Nat} (hn : fisNan fm a = false) (he : a / 2 ^ fm.fb % 2 ^ fm.eb = 2 ^ fm.eb - 1) :
    fdec fm a = .inf (decide (a / 2 ^ (fm.eb + fm.fb) % 2 = 1)) := by
  have hd : fdec fm a = if a % 2 ^ fm.fb = 0 then .inf (decide (a / 2 ^ (fm.eb + fm.fb) % 2 = 1)) else .nan := if_pos he
  rw [hd]
  refine if_pos ?_
  by_contra hf
  rw [if_neg hf] at hd
  exact absurd (nanV.mpr hd) (by rw [hn]; decide)

/-- A magnitude of 2^31 or more saturates. -/
theorem ftoi_large {fm : FFmt} {a : Nat} {neg : Bool} {m : Nat} {e : Int} (h : fdec fm a = .fin neg m e)
    (hm : 2 ^ 31 ≤ roundInt m e) : ftoi fm a = if neg then 0x80000000 else 0x7FFFFFFF := by
  rw [ftoi, h]
  have hm' : (2 : Int) ^ 31 ≤ (roundInt m e : Int) := by exact_mod_cast hm
  dsimp only
  rw [clampInt_eq _ _ _ (by norm_num)]
  cases neg
  · rw [if_neg Bool.false_ne_true, min_eq_left (by omega)]; rfl
  · rw [if_pos rfl, min_eq_right (by omega), max_eq_left (by omega)]; rfl

theorem ftoi_saturates_fp16 {a : Nat} (ha : a < 2 ^ 16) (hn : fisNan fp16 a = false) (he : a / 2 ^ 10 % 32 = 31) :
    ftoi fp16 a = if 0x8000 ≤ a then 0x80000000 else 0x7FFFFFFF := by
  rw [ftoi_inf (fdec_top hn he)]
  have hs : a / 2 ^ (fp16.eb + fp16.fb) % 2 = 1 ↔ 0x8000 ≤ a := by
    show a / 2 ^ 15 % 2 = 1 ↔ _
    omega
  simp only [decide_eq_true_eq, hs]

theorem ftoi_saturates_fp32 {a : Nat} (ha : a < 2 ^ 32) (hn : fisNan fp32 a = false) (he : 158 ≤ a / 2 ^ 23 % 256) :
    ftoi fp32 a = if 0x80000000 ≤ a then 0x80000000 else 0x7FFFFFFF := by
  have hs : a / 2 ^ (fp32.eb + fp32.fb) % 2 = 1 ↔ 0x80000000 ≤ a := by
    show a / 2 ^ 31 % 2 = 1 ↔ _
    omega
  by_cases h255 : a / 2 ^ 23 % 256 = 255
  · rw [ftoi_inf (fdec_top hn h255)]
    simp only [decide_eq_true_eq, hs]
  · have hd : fdec fp32 a = .fin (decide (a / 2 ^ (fp32.eb + fp32.fb) % 2 = 1)) (2 ^ 23 + a % 2 ^ 23)
        (fp32.qmin + (a / 2 ^ 23 % 256 : Nat) - 1) :=
      (if_neg h255).trans (if_neg (show ¬ a / 2 ^ 23 % 256 = 0 by omega))
    have hexp : 8 ≤ fp32.qmin + (a / 2 ^ 23 % 256 : Nat) - 1 := by
      show 8 ≤ (2 - 2 ^ 7 - 23 : Int) + (a / 2 ^ 23 % 256 : Nat) - 1
      omega
    rw [ftoi_large hd]
    · simp only [decide_eq_true_eq, hs]
    · rw [roundInt, if_pos (by omega)]
      calc 2 ^ 31 = 2 ^ 23 * 2 ^ 8 := by norm_num
        _ ≤ (2 ^ 23 + a % 2 ^ 23) * 2 ^ (fp32.qmin + (a / 2 ^ 23 % 256 : Nat) - 1).toNat :=
          Nat.mul_le_mul (Nat.le_add_right _ _) (Nat.pow_le_pow_right (by decide) (by omega))

/-! ## The sign bit alone (R65) -/

theorem xor_two_pow {n a : Nat} (ha : a < 2 * 2 ^ n) : a ^^^ 2 ^ n = if a < 2 ^ n then a + 2 ^ n else a - 2 ^ n := by
  have hdiv : (a ^^^ 2 ^ n) / 2 ^ n = a / 2 ^ n ^^^ 1 := by rw [Nat.xor_div_two_pow, Nat.div_self (Nat.two_pow_pos n)]
  have hmod : (a ^^^ 2 ^ n) % 2 ^ n = a % 2 ^ n := by rw [Nat.xor_mod_two_pow, Nat.mod_self, Nat.xor_zero]
  have hsplit := Nat.div_add_mod (a ^^^ 2 ^ n) (2 ^ n)
  rw [hdiv, hmod] at hsplit
  by_cases h : a < 2 ^ n
  · rw [Nat.div_eq_of_lt h, Nat.mod_eq_of_lt h] at hsplit
    rw [if_pos h, ← hsplit, Nat.zero_xor, Nat.mul_one, Nat.add_comm]
  · have h1 : a / 2 ^ n = 1 := Nat.div_eq_of_lt_le (by omega) (by omega)
    have h2 := Nat.div_add_mod a (2 ^ n)
    rw [h1] at hsplit h2
    rw [if_neg h, ← hsplit, Nat.xor_self]
    omega

theorem fabs_lane (half : Bool) (x : W32) : BitVec.ofNat 32 (fabs (fmtOf half) (fl half x)) =
    x &&& (if half then 0xFFFF else 0xFFFFFFFF) &&& ~~~(if half then 0x8000 else 0x80000000) := by
  apply BitVec.eq_of_toNat_eq
  cases half
  · show x.toNat % 2 ^ 32 % 2 ^ 31 % 2 ^ 32 = (x &&& 0xFFFFFFFF &&& 0x7FFFFFFF).toNat
    rw [BitVec.and_assoc, BitVec.toNat_and, show (0xFFFFFFFF &&& 0x7FFFFFFF : W32).toNat = 2 ^ 31 - 1 from rfl,
      Nat.and_two_pow_sub_one_eq_mod]
    omega
  · show x.toNat % 2 ^ 16 % 2 ^ 15 % 2 ^ 32 = (x &&& 0xFFFF &&& 0xFFFF7FFF).toNat
    rw [BitVec.and_assoc, BitVec.toNat_and, show (0xFFFF &&& 0xFFFF7FFF : W32).toNat = 2 ^ 15 - 1 from rfl,
      Nat.and_two_pow_sub_one_eq_mod]
    omega

/-- Inverting the sign bit of a pattern. -/
theorem withBits_flip {n a : Nat} (ha : a < 2 * 2 ^ n) : withBits a n 1 (1 - bitsOf a n 1) = a ^^^ 2 ^ n := by
  rw [xor_two_pow ha, withBits, bitsOf]
  by_cases h : a < 2 ^ n
  · rw [if_pos h, Nat.div_eq_of_lt h]
    simp
  · have h1 : a / 2 ^ n = 1 := Nat.div_eq_of_lt_le (by omega) (by omega)
    rw [if_neg h, h1]
    simp

theorem fneg_eq_xor {fm : FFmt} {a : Nat} (ha : a < 2 * 2 ^ (fm.eb + fm.fb)) : fneg fm a = a ^^^ 2 ^ (fm.eb + fm.fb) := by
  rw [fneg, Nat.mod_eq_of_lt (by rw [FFmt.width, Nat.pow_succ, Nat.mul_comm]; exact ha), withBits_flip ha]

/-- Inverting the sign bit of the low bits of a lane. -/
theorem fneg_low {fm : FFmt} (hw : fm.eb + fm.fb < 32) (x : W32) : BitVec.ofNat 32 (fneg fm (x.toNat % 2 ^ fm.width)) =
    (x &&& BitVec.ofNat 32 (2 ^ fm.width - 1)) ^^^ BitVec.ofNat 32 (2 ^ (fm.eb + fm.fb)) := by
  have hwidth : (2 : Nat) ^ fm.width = 2 * 2 ^ (fm.eb + fm.fb) := by rw [FFmt.width, Nat.pow_succ, Nat.mul_comm]
  have hpow : (2 : Nat) ^ (fm.eb + fm.fb) < 2 ^ 32 := Nat.pow_lt_pow_right (by decide) hw
  have hlow : x.toNat % 2 ^ fm.width < 2 ^ fm.width := Nat.mod_lt _ (Nat.two_pow_pos _)
  have hle : (2 : Nat) ^ fm.width ≤ 2 ^ 32 := Nat.pow_le_pow_right (by decide) hw
  have hpos := Nat.two_pow_pos fm.width
  apply BitVec.eq_of_toNat_eq
  rw [fneg_eq_xor (hwidth ▸ hlow), BitVec.toNat_xor, BitVec.toNat_and, BitVec.toNat_ofNat, BitVec.toNat_ofNat, BitVec.toNat_ofNat,
    Nat.mod_eq_of_lt (a := 2 ^ fm.width - 1) (by omega), Nat.and_two_pow_sub_one_eq_mod, Nat.mod_eq_of_lt hpow]
  exact Nat.mod_eq_of_lt (Nat.xor_lt_two_pow (by omega) hpow)

theorem fneg_lane (half : Bool) (x : W32) : BitVec.ofNat 32 (fneg (fmtOf half) (fl half x)) =
    (x &&& (if half then 0xFFFF else 0xFFFFFFFF)) ^^^ (if half then 0x8000 else 0x80000000) := by
  cases half
  · exact fneg_low (fm := fp32) (by decide) x
  · exact fneg_low (fm := fp16) (by decide) x

theorem fl_lt (half : Bool) (x : W32) : fl half x < 2 ^ (fmtOf half).width := Nat.mod_lt _ (Nat.two_pow_pos _)

/-- VFTOI saturates at the exponent of 2^31 in fp32 and at infinity in fp16. -/
theorem ftoi_saturates {half : Bool} {x : W32} (hn : fisNan (fmtOf half) (fl half x) = false)
    (he : if half then fl half x / 2 ^ 10 % 32 = 31 else 158 ≤ fl half x / 2 ^ 23 % 256) :
    ftoi (fmtOf half) (fl half x) =
      if (if half then 0x8000 else 0x80000000 : W32).toNat ≤ fl half x then 0x80000000 else 0x7FFFFFFF := by
  cases half
  · exact ftoi_saturates_fp32 (fl_lt false x) hn he
  · exact ftoi_saturates_fp16 (fl_lt true x) hn he

section Conversions

variable {s : State} {k : Nat} {t : Task} {f : F} {half : Bool}

theorem writesVector_vitof (h : Ready s k t) (hz : f.imm = 0) : WritesVector s t (.vitof k half f) f f.d.toNat
    (fun l => BitVec.ofNat 32 (itof (fmtOf half) (lane t f.a.toNat l))) :=
  writesVector_legal h rfl (immZero_true hz) (fun _ _ => rfl)

theorem writesVector_vpxtof (h : Ready s k t) (hz : f.imm = 0) : WritesVector s t (.vpxtof k half f) f f.d.toNat
    (fun l => BitVec.ofNat 32 (pxtof (fmtOf half) ((lane t f.a.toNat l).toNat % 65536))) :=
  writesVector_legal h rfl (immZero_true hz) (fun _ _ => rfl)

end Conversions

/-- Settles O16: each function of the lanes, at each precision. -/
theorem vectorFloatChoicesAndConversions : Obligations.VectorFloatChoicesAndConversions := by
  intro s k t f half h hz
  have unary : ∀ {i : Instr} {g : Nat → W32}, exec i s = .next (vfl1 k 1 half false f g s) →
      WritesVector s t i f f.d.toNat (fun l => g (fl half (lane t f.a.toNat l))) := fun hx => vfl1_of h hz rfl hx
  refine ⟨_, _, _, _, _, _, _, _, vfl2_of h hz rfl, vfl2_of h hz rfl, unary rfl, writesVector_vitof h hz, unary rfl,
    writesVector_vpxtof h hz, unary rfl, unary rfl, fun l => ?_⟩
  obtain ⟨min_neg, max_neg, min_pos, max_pos⟩ := fpick_zeros half (if half then 0x8000 else 0x80000000 : W32).toNat (by cases half <;> rfl)
  refine ⟨fun ha hb => ?nanNan, fun ha hb => ?nanLeft, fun ha hb => ?nanRight, fun ha hb => ?either, fun hlt => ?less,
    fun hgt => ?greater, fun ha hb => ?negZero, fun ha hb => ?posZero, ⟨rfl, ftoi_nan, ftoi_saturates⟩, rfl,
    ⟨rfl, ?bound, fun hn => congrArg _ (ftopx_nan hn)⟩, rfl, fabs_lane half _, fneg_lane half _⟩
  case nanNan => exact ⟨congrArg _ (fpick_nan_nan ha hb _), congrArg _ (fpick_nan_nan ha hb _)⟩
  case nanLeft => exact ⟨congrArg _ (fpick_nan_left ha hb _), congrArg _ (fpick_nan_left ha hb _)⟩
  case nanRight => exact ⟨congrArg _ (fpick_nan_right ha hb _), congrArg _ (fpick_nan_right ha hb _)⟩
  case either =>
    exact ⟨(fpick_either ha hb _).imp (congrArg _) (congrArg _), (fpick_either ha hb _).imp (congrArg _) (congrArg _)⟩
  case less => exact ⟨congrArg _ (fpick_of_flt hlt).1, congrArg _ (fpick_of_flt hlt).2⟩
  case greater => exact ⟨congrArg _ (fpick_of_gt hgt).1, congrArg _ (fpick_of_gt hgt).2⟩
  case negZero =>
    rw [ha, hb, min_neg, max_neg, BitVec.ofNat_toNat, BitVec.setWidth_eq]
    exact ⟨rfl, rfl⟩
  case posZero =>
    rw [ha, hb, min_pos, max_pos, BitVec.ofNat_toNat, BitVec.setWidth_eq]
    exact ⟨rfl, rfl⟩
  case bound => exact (Nat.mod_le _ _).trans (ftopx_le _ _)

end Sys2Proof.Machine

/-!
The pixel group: blend, matrix and dither (O17), and the packed layouts (O18).
-/

namespace Sys2Proof.Machine

/-! ## VMIX (R67) -/

/-- The colour function of each mode (Table 3-6). -/
theorem mixMode_table (mode : BitVec 3) (bc tc : Nat) :
    (mode = 0 → mixMode mode.toNat bc tc = tc) ∧ (mode = 1 → mixMode mode.toNat bc tc = pxAdd bc tc) ∧
    (mode = 2 → mixMode mode.toNat bc tc = pxMul bc tc) ∧
    (mode = 3 → mixMode mode.toNat bc tc = 65535 - pxMul (65535 - bc) (65535 - tc)) ∧
    (mode = 4 → (mixMode mode.toNat bc tc : Int) = |(bc : Int) - tc|) ∧ (mode = 5 → mixMode mode.toNat bc tc = max bc tc) ∧
    (mode = 6 → mixMode mode.toNat bc tc = min bc tc) ∧ (mode = 7 → mixMode mode.toNat bc tc = pxSub bc tc) := by
  refine ⟨?_, ?_, ?_, ?_, ?_, ?_, ?_, ?_⟩ <;> rintro rfl
  case refine_5 =>
    show ((if bc < tc then tc - bc else bc - tc : Nat) : Int) = _
    split
    · rw [abs_of_nonpos (by omega)]; omega
    · rw [abs_of_nonneg (by omega)]; omega
  case refine_6 =>
    show (if bc < tc then tc else bc) = _
    split <;> omega
  case refine_7 =>
    show (if bc < tc then bc else tc) = _
    split <;> omega
  all_goals rfl

theorem pxAdd_zero_left {a : Nat} (h : a < 65536) : pxAdd 0 a = a := by
  rw [pxAdd_min]
  omega

theorem pxAdd_zero_right {a : Nat} (h : a < 65536) : pxAdd a 0 = a := by
  rw [pxAdd_min]
  omega

theorem mixColour_opaque {b t : Nat} (ht : t < 65536) : mixColour 0 65535 b t = t := by
  rw [mixColour, pxMul_one, Nat.sub_self, pxMul_zero]
  exact pxAdd_zero_left ht

theorem mixColour_clear {mode b t : Nat} (hb : b < 65536) : mixColour mode 0 b t = b := by
  rw [mixColour, pxMul_zero, Nat.sub_zero, pxMul_one]
  exact pxAdd_zero_right hb

theorem mixAlpha_opaque (b : Nat) : mixAlpha 65535 b = 65535 := by
  rw [mixAlpha, Nat.sub_self, pxMul_zero]
  rfl

theorem mixAlpha_clear {b : Nat} (hb : b < 65536) : mixAlpha 0 b = b := by
  rw [mixAlpha, Nat.sub_zero, pxMul_one]
  exact pxAdd_zero_left hb

section Group

variable {s : State} {k : Nat} {t : Task} {f : F}

/-- The effective opacity of a top pixel (R67). -/
def topOpacity (t : Task) (f : F) (c : BitVec 5) (l : Nat) : Nat := pxMul (chan t f.b.toNat 3 l) ((sreg t c).toNat % 65536)

theorem vmixChan_alpha {c : BitVec 5} (hc : cField f = c) (mode l : Nat) :
    vmixChan mode f t 3 l = mixAlpha (topOpacity t f c l) (chan t f.a.toNat 3 l) := by
  rw [vmixChan, hc]
  rfl

theorem vmixChan_colour {c : BitVec 5} (hc : cField f = c) (mode l : Nat) {ch : Nat} (h : ch < 3) :
    vmixChan mode f t ch l = mixColour mode (topOpacity t f c l) (chan t f.a.toNat ch l) (chan t f.b.toNat ch l) := by
  rw [vmixChan, hc]
  exact if_neg (by omega)

/-- VMIX.normal at full opacity gives the top pixel: its alpha is then full too. -/
theorem vmixChan_opaque {c : BitVec 5} (hc : cField f = c) {l : Nat} (ho : topOpacity t f c l = 65535) {ch : Nat} (h : ch < 4) :
    vmixChan 0 f t ch l = chan t f.b.toNat ch l := by
  by_cases h3 : ch = 3
  · rw [h3, vmixChan_alpha hc, ho, mixAlpha_opaque]
    exact (opq _ _ (chan_lt _ _ _ _) (Nat.mod_lt _ (by decide)) ho).symm
  · rw [vmixChan_colour hc _ _ (by omega), ho, mixColour_opaque (chan_lt _ _ _ _)]

/-- At no opacity it gives the bottom pixel. -/
theorem vmixChan_clear {c : BitVec 5} (hc : cField f = c) {mode l : Nat} (ho : topOpacity t f c l = 0) {ch : Nat} (h : ch < 4) :
    vmixChan mode f t ch l = chan t f.a.toNat ch l := by
  by_cases h3 : ch = 3
  · rw [h3, vmixChan_alpha hc, ho, mixAlpha_clear (chan_lt _ _ _ _)]
  · rw [vmixChan_colour hc _ _ (by omega), ho, mixColour_clear (chan_lt _ _ _ _)]

theorem isGroup_true {r : BitVec 5} (h : r.toNat % 4 = 0) : isGroup r = true := beq_iff_eq.mpr h

theorem isPair_true {r : BitVec 5} (h : r.toNat % 2 = 0) : isPair r = true := beq_iff_eq.mpr h

/-! ## VMAT3 and VDITH (R68, R69) -/

theorem vmat3Chan_colour (l : Nat) {ch : Nat} (h : ch < 3) : vmat3Chan f t ch l =
    ftopx fp32 (ffma fp32 (lane t f.b.toNat (3 * ch + 2)).toNat (pxtof fp32 (chan t f.a.toNat 2 l))
      (ffma fp32 (lane t f.b.toNat (3 * ch + 1)).toNat (pxtof fp32 (chan t f.a.toNat 1 l))
        (fmul fp32 (lane t f.b.toNat (3 * ch)).toNat (pxtof fp32 (chan t f.a.toNat 0 l))))) :=
  if_neg (by omega)

/-- Sixteen bits leave a channel as it is, since the threshold is clamped. -/
theorem ditherCode_16 (c x : Nat) : ditherCode 16 c (min x 65534) = c := by
  unfold ditherCode
  omega

end Group

/-- Settles O17: each instruction writes a planar group of its channel function. -/
theorem pixelBlendMatrixAndDither : Obligations.PixelBlendMatrixAndDither := by
  intro s k t f h hd ha
  refine ⟨fun c mode hc hb => ?mix, fun hz => ?mat, fun hz n hn => ?dith⟩
  case mix =>
    obtain ⟨hcf, hl⟩ := cField_of hc
    refine ⟨vmixChan mode.toNat f t, group_of h (by rw [hl, isGroup_true ha, isGroup_true hb]; rfl) hd rfl (fun _ => rfl),
      fun l => ⟨vmixChan_alpha hcf _ l, fun ch hch => ⟨_, vmixChan_colour hcf _ l hch, mixMode_table mode _ _⟩, fun ch hch => ⟨?_, ?_⟩⟩⟩
    · rintro rfl ho
      exact vmixChan_opaque hcf ho hch
    · rintro rfl ho
      exact vmixChan_clear hcf ho hch
  case mat =>
    exact ⟨vmat3Chan f t, group_of h (by rw [immZero_true hz, isGroup_true ha]; rfl) hd rfl (fun _ => rfl),
      fun l => ⟨rfl, fun ch hch => vmat3Chan_colour l hch⟩⟩
  case dith =>
    refine ⟨vdithChan (8 + n.toNat) f t, group_of h (by rw [immZero_true hz, isGroup_true ha, decide_eq_true hn]; rfl) hd rfl
      (fun _ => rfl), fun ch l => ⟨rfl, ?_⟩⟩
    rintro rfl
    exact ditherCode_16 _ _

/-! ## VUNPK and VPACK (R70, Table 3-7) -/

section Formats

variable {s : State} {k : Nat} {t : Task} {f : F}

/-- The 16-bit channel of a packed pixel is a half of its word. -/
theorem pairChan_half (r ch l : Nat) : pairChan t r ch l =
    if ch % 2 = 0 then (lane t (r + l / 8) (2 * (l % 8) + ch / 2)).toNat % 65536
    else (lane t (r + l / 8) (2 * (l % 8) + ch / 2)).toNat / 65536 := by
  have hlt := (lane t (r + l / 8) (2 * (l % 8) + ch / 2)).isLt
  rw [pairChan, bitsOf]
  rcases Nat.mod_two_eq_zero_or_one ch with h | h <;> rw [h]
  · simp
  · show _ / 65536 % 65536 = _ / 65536
    omega

/-- A byte of a word. -/
theorem bitsOf_byte (w ch : Nat) : bitsOf w (8 * ch) 8 = w / 256 ^ ch % 256 := by
  rw [bitsOf, Nat.pow_mul]
  rfl

theorem u8Pixel_byte (t : Task) (r l : Nat) {ch : Nat} (h : ch < 4) :
    (BitVec.ofNat 32 (u8Pixel t r l)).toNat / 256 ^ ch % 256 = toU8 (chan t r ch l) := by
  have h0 := toU8_lt _ (chan_lt t r 0 l)
  have h1 := toU8_lt _ (chan_lt t r 1 l)
  have h2 := toU8_lt _ (chan_lt t r 2 l)
  have h3 := toU8_lt _ (chan_lt t r 3 l)
  rw [u8Pixel, BitVec.toNat_ofNat]
  interval_cases ch <;> omega

theorem writesPair_pack (h : Ready s k t) (hz : f.imm = 0) (hd : f.d.toNat % 2 = 0) (ha : f.a.toNat % 4 = 0) {g : Nat → Nat}
    {i : Instr} (hx : exec i s = .next (packPair k f g s)) :
    WritesPair s t i f f.d.toNat (fun ch l => g (chan t f.a.toNat ch l)) := by
  have hl : (immZero f && isPair f.d && isGroup f.a) = true := by rw [immZero_true hz, isPair_true hd, isGroup_true ha]; rfl
  rw [packPair, hl] at hx
  exact writesPair_of h hx (fun _ => rfl)

end Formats

/-- Settles O18: the channels of a planar group against the words of its packed layout. -/
theorem pixelFormats : Obligations.PixelFormats := by
  intro s k t f h hz hb
  refine ⟨fun hd => ⟨fun ha => ?unpack16, ?unpack8⟩, fun ha => ⟨fun hd => ?pack16, ?pack8⟩⟩
  case unpack16 =>
    have hl : (immZero f && isPair f.a) = true := by rw [immZero_true hz, isPair_true ha]; rfl
    exact ⟨_, _, group_of h hl hd rfl (fun _ => rfl), group_of h hl hd rfl (fun _ => rfl),
      fun ch _ l _ => ⟨pairChan_half _ ch l, congrArg _ (pairChan_half _ ch l)⟩⟩
  case unpack8 =>
    exact ⟨_, group_of h (by rw [immZero_true hz, hb]; rfl) hd rfl (fun _ => rfl),
      fun ch _ l => congrArg fromU8 (bitsOf_byte _ _)⟩
  case pack16 =>
    exact ⟨_, _, writesPair_pack h hz hd ha rfl, writesPair_pack h hz hd ha rfl, fun ch l => ⟨rfl, rfl⟩⟩
  case pack8 =>
    exact ⟨_, writesVector_legal h rfl (by rw [immZero_true hz, hb, isGroup_true ha]; rfl) (fun _ _ => rfl),
      fun l ch hch => u8Pixel_byte t _ l hch⟩

end Sys2Proof.Machine

/-!
Loads and stores in the four spaces (O19, O20), tables, gather and scatter (O23), and the sampling of a layer (O24).
-/

namespace Sys2Proof.Machine

/-! ## Loads (R73, R338) -/

section Loads

variable {s : State} {k : Nat} {t : Task} {f : F} {sp : BitVec 2} {ty : BitVec 3}

/-- A load of an element wakes frame memory unless it reads the scratch area. -/
theorem loadWake_of_ne {offs : List Int} (h : offs ≠ []) (s : State) : loadWake sp offs s = if sp = 0 then s else
    { s with pwr := if mode s = 4 then { s.pwr with selfRef := false, memAt := s.ot } else s.pwr } := by
  rw [loadWake, List.isEmpty_eq_false_iff.mpr h, Bool.or_false]
  simp only [beq_iff_eq]
  rfl

/-- An instruction that has issued loads the element that the state held before. -/
theorem loadElem_issued (us : Use) (o : Int) : loadElem sp ty.toNat f (issued k us t s) (counted s us t) o =
    extend ty.toNat (leNumber (spaceByte s t f sp) o.toNat (typeBytes ty.toNat)) := by
  rw [loadElem, spNat_issued, spNat_eq]

theorem spBase_counted (us : Use) : spBase sp f (counted s us t) = spaceAddr t f sp := spBase_eq sp f _

theorem loadExc_issued_ok {offs : List Int} (us : Use) (hok : ∀ o ∈ offs, LoadOk s t f sp ty.toNat o)
    (h3 : ¬ (sp = 3 ∧ undoable t = true)) (h2 : ¬ (sp = 2 ∧ setFull t ⟨7, 0, layerIdx s t (sreg t f.a)⟩ = true)) :
    loadExc sp ty.toNat f offs (issued k us t s) (counted s us t) = none := by
  rw [loadExc_issued]
  exact loadExc_ok hok h3 h2

theorem laneOffs_counted (us : Use) : laneOffs sp ty.toNat f (counted s us t) =
    (activeLanes t f).map (fun i => spaceAddr t f sp + (i * typeBytes ty.toNat : Nat)) := by
  rw [laneOffs, spBase_counted]
  rfl

theorem activeLanes_ne {t : Task} {f : F} (hm : maskOf t f ≠ 0) : activeLanes t f ≠ [] := fun h => hm ((act_empty t f).mp h)

theorem writeLanes_none {t : Task} {f : F} (h : activeLanes t f = []) (r : Nat) (val : Nat → W32) : writeLanes f r val t = t := by
  rw [writeLanes, h]
  rfl

variable (h : Ready s k t) (hl : sp = 2 ∨ f.b = 0)
include h hl

theorem writesScalarIn_ld (h3 : ¬ (sp = 3 ∧ undoable t = true))
    (h2 : ¬ (sp = 2 ∧ setFull t ⟨7, 0, layerIdx s t (sreg t f.a)⟩ = true)) (he : Enabled t f)
    (hok : LoadOk s t f sp ty.toNat (spaceAddr t f sp)) :
    WritesScalarIn s (loadWake sp [spaceAddr t f sp] s) t (.ld k sp ty f) f.d
      (extend ty.toNat (leNumber (spaceByte s t f sp) (spaceAddr t f sp).toNat (typeBytes ty.toNat)))
      (if sp = 2 then readSetAfter s t ⟨7, 0, layerIdx s t (sreg t f.a)⟩ else t.readSet) := by
  refine writesScalarIn_of h (legal_ld hl) rfl ?_
  simp only [maskOf_counted, he, Bool.not_true, Bool.false_eq_true, if_false, spBase_counted]
  rw [loadExc_issued_ok _ (List.forall_mem_singleton.mpr hok) h3 h2]
  simp only [loadElem_issued, loadRecord_eq]

theorem writesVectorIn_vldb (h3 : ¬ (sp = 3 ∧ undoable t = true))
    (h2 : ¬ (sp = 2 ∧ setFull t ⟨7, 0, layerIdx s t (sreg t f.a)⟩ = true)) (hm : maskOf t f ≠ 0)
    (hok : LoadOk s t f sp ty.toNat (spaceAddr t f sp)) :
    WritesVectorIn s (loadWake sp [spaceAddr t f sp] s) t (.vldb k sp ty f) f f.d.toNat
      (fun _ => extend ty.toNat (leNumber (spaceByte s t f sp) (spaceAddr t f sp).toNat (typeBytes ty.toNat)))
      (if sp = 2 then readSetAfter s t ⟨7, 0, layerIdx s t (sreg t f.a)⟩ else t.readSet) := by
  refine writesVectorIn_of h (legal_ld hl) rfl ?_
  have hne : (activeLanes (counted s (memUse 1 sp f [] (regsV f.d 1)) t) f).isEmpty = false := nonempty_of hm
  simp only [hne, Bool.false_eq_true, if_false, spBase_counted, List.isEmpty_cons]
  rw [loadExc_issued_ok _ (List.forall_mem_singleton.mpr hok) h3 h2]
  simp only [loadElem_issued, loadRecord_eq]

theorem writesVectorIn_vld (h3 : ¬ (sp = 3 ∧ undoable t = true))
    (h2 : ¬ (sp = 2 ∧ setFull t ⟨7, 0, layerIdx s t (sreg t f.a)⟩ = true)) (hm : maskOf t f ≠ 0)
    (hok : ∀ l < 16, (maskOf t f).getLsbD l = true → LoadOk s t f sp ty.toNat (spaceAddr t f sp + (l * typeBytes ty.toNat : Nat))) :
    WritesVectorIn s (loadWake sp ((activeLanes t f).map (fun i => spaceAddr t f sp + (i * typeBytes ty.toNat : Nat))) s) t
      (.vld k sp ty f) f f.d.toNat (fun l => extend ty.toNat
        (leNumber (spaceByte s t f sp) (spaceAddr t f sp + (l * typeBytes ty.toNat : Nat)).toNat (typeBytes ty.toNat)))
      (if sp = 2 then readSetAfter s t ⟨7, 0, layerIdx s t (sreg t f.a)⟩ else t.readSet) := by
  refine writesVectorIn_of h (legal_ld hl) rfl ?_
  have hoffs : ∀ o ∈ (activeLanes t f).map (fun i => spaceAddr t f sp + (i * typeBytes ty.toNat : Nat)), LoadOk s t f sp ty.toNat o := by
    intro o ho
    obtain ⟨i, hi, rfl⟩ := List.mem_map.mp ho
    obtain ⟨hlt, hact⟩ := (mem_act t f i).mp hi
    exact hok i hlt hact
  have hne : ((activeLanes t f).map (fun i => spaceAddr t f sp + (i * typeBytes ty.toNat : Nat))).isEmpty = false := by
    rw [List.isEmpty_map]
    exact nonempty_of hm
  simp only [laneOffs_counted, spBase_counted]
  rw [loadExc_issued_ok _ hoffs h3 h2]
  simp only [hne, Bool.false_eq_true, if_false, loadElem_issued, loadRecord_eq]

/-- With no active lane VLD and VLDB load nothing (log 24). -/
theorem goesOn_vld_none (hm : maskOf t f = 0) :
    GoesOn s t (.vld k sp ty f) (t.pc + 8) t ∧ GoesOn s t (.vldb k sp ty f) (t.pc + 8) t := by
  have hnone : ∀ us : Use, activeLanes (counted s us t) f = [] := fun us => (act_empty t f).mpr hm
  have hwake : ∀ us : Use, loadWake sp [] (issued k us t s) = issued k us t s := fun us => by
    rw [loadWake, List.isEmpty_nil, Bool.or_true, if_pos rfl]
  constructor
  · refine goesOn_of h (legal_ld hl) rfl (t' := advancePc (counted s (memUse 1 sp f [] (regsV f.d 1)) t)) ?_ rfl rfl
    simp only [laneOffs, hnone, List.map_nil, loadExc, List.isEmpty_nil, if_true, hwake, writeLanes_none (hnone _)]
  · refine goesOn_of h (legal_ld hl) rfl (t' := advancePc (counted s (memUse 1 sp f [] (regsV f.d 1)) t)) ?_ rfl rfl
    simp only [hnone, List.isEmpty_nil, if_true, loadExc, hwake, writeLanes_none (hnone _)]

end Loads

/-- Settles O19: each load meets no exception, reads its elements and records the layer. -/
theorem loadsFromFourSpaces : Obligations.LoadsFromFourSpaces := by
  rintro s k t f sp ty h hl h3 h2 o rs w element rfl rfl rfl helem
  obtain rfl := funext helem
  refine ⟨fun he hok => ?ld, fun hm hok => ?vldb, fun hm hok => ?vld, fun hm => ?none⟩
  case ld =>
    rw [← loadWake_of_ne (List.cons_ne_nil (spaceAddr t f sp) [])]
    exact writesScalarIn_ld h hl h3 h2 he hok
  case vldb =>
    rw [← loadWake_of_ne (List.cons_ne_nil (spaceAddr t f sp) [])]
    exact writesVectorIn_vldb h hl h3 h2 hm hok
  case vld =>
    rw [← loadWake_of_ne (mt List.map_eq_nil_iff.mp (activeLanes_ne hm))]
    exact writesVectorIn_vld h hl h3 h2 hm hok
  case none =>
    obtain ⟨hvld, hvldb⟩ := goesOn_vld_none (ty := ty) h hl hm
    simp only [List.forall_mem_cons, List.not_mem_nil, false_implies, implies_true, and_true]
    exact ⟨hvld, hvldb⟩

/-! ## Stores (R73, R48, R52) -/

section StoreBodies

variable {s : State} {k : Nat} {t : Task} {f : F} {sp : BitVec 2} {ty : Nat}

/-- A store whose elements may be reached stores them. -/
theorem storeBody_ok (us : Use) {st : Stores} (hok : ∀ o ∈ st.map (fun x => x.1), ElementOk s t f sp ty o)
    (h3 : ¬ (sp = 3 ∧ undoable t = true)) : storeBody sp ty f st (issued k us t s) (counted s us t) =
      storeDo sp ty st (issued k us t s) (counted s us t) := by
  rw [storeBody, storeExc_issued', storeExc_ok hok h3]

theorem storeLegal_true (hsp : sp ≠ 2) (hd : f.d = 0) : storeLegal sp f = true := by
  rw [storeLegal, bne_iff_ne.mpr hsp, hd]
  rfl

theorem spaceAddr_store (hsp : sp ≠ 2) : spaceAddr t f sp =
    (if sp = 3 then ((sreg t f.a).toNat : Int) * 256 else (sreg t f.a).toNat) + f.imm.toInt := by
  rw [spaceAddr, if_neg hsp]

end StoreBodies

/-- Settles O20: ST stores one element, VST one for each active lane, in lane order. -/
theorem storesToThreeSpaces : Obligations.StoresToThreeSpaces := by
  intro s k t f sp ty h hsp hd hfr h3 o ho
  obtain rfl : o = spaceAddr t f sp := ho.trans (spaceAddr_store hsp).symm
  refine ⟨fun he hok => ?st, fun hok => ?vst⟩
  case st =>
    have hstore := storesTo_of h (i := .st k sp ty f) (f := f) (ty := ty.toNat) hsp (storeLegal_true hsp hd) rfl
      [(spaceAddr t f sp, laneNat ty.toNat (sreg t f.b))] ?_ hfr
    · simpa only [List.map_cons, List.map_nil, leBytes_laneNat] using hstore
    · simp only [maskOf_counted, he, Bool.not_true, Bool.false_eq_true, if_false, spBase_counted, sreg_counted]
      exact storeBody_ok _ (List.forall_mem_singleton.mpr hok) h3
  case vst =>
    have hstore := storesTo_of h (i := .vst k sp ty f) (f := f) (ty := ty.toNat) hsp (storeLegal_true hsp hd) rfl
      ((activeLanes t f).map (fun i => (spaceAddr t f sp + (i * typeBytes ty.toNat : Nat), laneNat ty.toNat (lane t f.b.toNat i)))) ?_ hfr
    · simp only [List.map_map, Function.comp_def, leBytes_laneNat] at hstore
      exact hstore
    · rw [vstElems, spBase_counted]
      refine storeBody_ok _ ?_ h3
      intro o ho
      obtain ⟨x, hx, rfl⟩ := List.mem_map.mp ho
      obtain ⟨i, hi, rfl⟩ := List.mem_map.mp hx
      obtain ⟨hlt, hact⟩ := (mem_act t f i).mp hi
      exact hok i hlt hact

/-! ## Tables in the scratch area (R71, R72) -/

section Tables

variable {s : State} {k : Nat} {t : Task} {f : F} {ty : BitVec 3}

/-- A write of vector lanes that records no read. -/
theorem writesVector_of_writesVectorIn {i : Instr} {d : Nat} {val : Nat → W32} (h : WritesVectorIn s s t i f d val t.readSet) :
    WritesVector s t i f d val := h

theorem checkElems_within {offs : List Int} {n len : Nat} (hoff : ∀ o ∈ offs, ∃ a : Nat, o = a ∧ a % n = 0 ∧ a + n ≤ len) :
    checkElems offs n (within len n) = none := by
  refine checkElems_none _ _ _ (fun o ho => ?_)
  obtain ⟨a, rfl, halign, hin⟩ := hoff o ho
  refine ⟨by exact_mod_cast halign, ?_⟩
  rw [within, decide_eq_true (Int.natCast_nonneg a), decide_eq_true (by exact_mod_cast hin)]
  rfl

@[simp] theorem lb_counted (us : Use) (i : Nat) : lb f (counted s us t) i = lane t f.b.toNat i := rfl

@[simp] theorem activeLanes_counted (us : Use) : activeLanes (counted s us t) f = activeLanes t f := rfl

theorem gathOffs_counted (us : Use) : gathOffs f (counted s us t) =
    (activeLanes t f).map (fun i => (i, (((sreg t f.a).toNat + (lane t f.b.toNat i).toNat : Nat) : Int))) := by
  simp only [Nat.cast_add]
  rfl

theorem writesVector_vgath (h : Ready s k t) (hz : f.imm = 0)
    (hok : ∀ l < 16, (maskOf t f).getLsbD l = true → ((sreg t f.a).toNat + (lane t f.b.toNat l).toNat) % typeBytes ty.toNat = 0 ∧
      (sreg t f.a).toNat + (lane t f.b.toNat l).toNat + typeBytes ty.toNat ≤ t.prog.scratch) :
    WritesVector s t (.vgath k ty f) f f.d.toNat (fun l => extend ty.toNat
      (leNumber (scratchGet t) ((sreg t f.a).toNat + (lane t f.b.toNat l).toNat) (typeBytes ty.toNat))) := by
  refine writesVector_of_writesVectorIn (writesVectorIn_of (sp := 0) (offs := []) h (immZero_true hz) rfl ?_)
  simp only [gathOffs_counted]
  rw [checkElems_within]
  · rfl
  · intro o ho
    obtain ⟨x, hx, rfl⟩ := List.mem_map.mp ho
    obtain ⟨i, hi, rfl⟩ := List.mem_map.mp hx
    obtain ⟨hlt, hact⟩ := (mem_act t f i).mp hi
    exact ⟨_, rfl, hok i hlt hact⟩

theorem storesTo_vscat (h : Ready s k t) (hz : f.imm = 0)
    (hok : ∀ l < 16, (maskOf t f).getLsbD l = true → ((sreg t f.a).toNat + (lane t f.b.toNat l).toNat) % typeBytes ty.toNat = 0 ∧
      (sreg t f.a).toNat + (lane t f.b.toNat l).toNat + typeBytes ty.toNat ≤ t.prog.scratch) :
    StoresTo s t (.vscat k ty f) f 0 ((activeLanes t f).map (fun l =>
      ((sreg t f.a).toNat + (lane t f.b.toNat l).toNat, leBytes (typeBytes ty.toNat) (lane t f.d.toNat l).toNat))) := by
  have hstore := storesTo_of h (i := .vscat k ty f) (f := f) (sp := 0) (ty := ty.toNat) (by decide) (immZero_true hz) rfl
    ((activeLanes t f).map (fun i => ((((sreg t f.a).toNat + (lane t f.b.toNat i).toNat : Nat) : Int), laneNat ty.toNat (lane t f.d.toNat i))))
    ?_ (fun h1 => absurd h1.1 (by decide))
  · simpa only [List.map_map, Function.comp_def, leBytes_laneNat, Int.toNat_natCast] using hstore
  · simp only [gathOffs_counted, List.map_map, Function.comp_def, lane_counted]
    refine storeBody_ok _ ?_ (fun h1 => absurd h1.1 (by decide))
    intro o ho
    simp only [List.map_map, Function.comp_def] at ho
    obtain ⟨i, hi, rfl⟩ := List.mem_map.mp ho
    obtain ⟨hlt, hact⟩ := (mem_act t f i).mp hi
    obtain ⟨halign, hin⟩ := hok i hlt hact
    refine ⟨by exact_mod_cast halign, ?_⟩
    show within t.prog.scratch _ _ = true
    rw [within, decide_eq_true (Int.natCast_nonneg _), decide_eq_true (by exact_mod_cast hin)]
    rfl

/-! ## Gather from a layer (R71, R75) -/

theorem layerIdx_of {h : W32} {n : Nat} {l : Layer} (hl : layerFor s t h = some (n, l)) : layerIdx s t h = n := by
  rw [layerIdx, hl]
  rfl

/-- An element inside a layer may be loaded where none of its bytes is bad. -/
theorem loadOk_layer {n : Nat} {l : Layer} (hl : layerFor s t (sreg t f.a) = some (n, l)) {o : Nat}
    (halign : o % typeBytes ty.toNat = 0) (hin : o + typeBytes ty.toNat ≤ layerLen l)
    (hgood : badByte 2 f s t (typeBytes ty.toNat) o = none) : LoadOk s t f 2 ty.toNat o := by
  refine ⟨⟨by exact_mod_cast halign, ?_⟩, hgood⟩
  show (match layerFor s t (sreg t f.a) with | some l => within (layerLen l.2) (typeBytes ty.toNat) o | none => false) = true
  rw [hl]
  show within (layerLen l) _ _ = true
  rw [within, decide_eq_true (Int.natCast_nonneg _), decide_eq_true (by exact_mod_cast hin)]
  rfl

theorem loadWake_layer {offs : List Int} (h : offs ≠ []) (s : State) : loadWake 2 offs s = wakeMem s := by
  rw [loadWake, List.isEmpty_eq_false_iff.mpr h]
  rfl

theorem writesVectorIn_vgathl (h : Ready s k t) (hz : f.imm = 0) (hm : maskOf t f ≠ 0) {n : Nat} {l : Layer}
    (hl : layerFor s t (sreg t f.a) = some (n, l)) (hfull : setFull t ⟨7, 0, n⟩ = false)
    (hok : ∀ i < 16, (maskOf t f).getLsbD i = true → (lane t f.b.toNat i).toNat % typeBytes ty.toNat = 0 ∧
      (lane t f.b.toNat i).toNat + typeBytes ty.toNat ≤ layerLen l ∧
      badByte 2 f s t (typeBytes ty.toNat) (lane t f.b.toNat i).toNat = none) :
    WritesVectorIn s (wakeMem s) t (.vgathl k ty f) f f.d.toNat
      (fun i => extend ty.toNat (leNumber (layerByte s t n) (lane t f.b.toNat i).toNat (typeBytes ty.toNat)))
      (readSetAfter s t ⟨7, 0, n⟩) := by
  have hidx := layerIdx_of hl
  have hoffs : ∀ o ∈ (activeLanes t f).map (fun i => ((lane t f.b.toNat i).toNat : Int)), LoadOk s t f 2 ty.toNat o := by
    intro o ho
    obtain ⟨i, hi, rfl⟩ := List.mem_map.mp ho
    obtain ⟨hlt, hact⟩ := (mem_act t f i).mp hi
    obtain ⟨halign, hin, hgood⟩ := hok i hlt hact
    exact loadOk_layer hl halign hin hgood
  have hne : (activeLanes t f).map (fun i => ((lane t f.b.toNat i).toNat : Int)) ≠ [] := mt List.map_eq_nil_iff.mp (activeLanes_ne hm)
  rw [← loadWake_layer hne]
  refine writesVectorIn_of h (immZero_true hz) rfl ?_
  have hemp := List.isEmpty_eq_false_iff.mpr hne
  simp only [lb_counted, activeLanes_counted]
  rw [loadExc_issued_ok _ hoffs (fun h1 => absurd h1.1 (by decide))
    (fun h1 => by rw [hidx, hfull] at h1; exact absurd h1.2 (by decide))]
  simp only [hemp, Bool.false_eq_true, if_false, loadRecord_eq, if_true, sreg_counted, layerIdx_issued, layerNat_issued, hidx]
  rfl

end Tables

/-- Settles O23. -/
theorem tablesGatherAndScatter : Obligations.TablesGatherAndScatter := by
  intro s k t f ty h hz
  refine ⟨fun entry hent hty halign => ⟨fun hin => ?lut, fun hin => ?luti⟩, fun n at_ hn hat hok => ?gather, fun n x l hn hm hl hfull hok => ?layer⟩
  case lut =>
    exact lut_of h (i := .vlut k ty f) (val := fun e x => e (x / 2 ^ (8 - ty.toNat))) hz (decide_eq_true hty) halign hin hent rfl
  case luti =>
    exact lut_of h (i := .vluti k ty f) (val := fun e x => lutInterp (8 - ty.toNat) (x % 2 ^ (8 - ty.toNat))
      (e (x / 2 ^ (8 - ty.toNat))) (e (x / 2 ^ (8 - ty.toNat) + 1))) hz (decide_eq_true hty) halign hin hent rfl
  case gather =>
    obtain rfl := funext hat
    subst hn
    exact ⟨writesVector_vgath h hz hok, storesTo_vscat h hz hok⟩
  case layer =>
    subst hn
    exact writesVectorIn_vgathl h hz hm hl hfull hok

/-! ## Samples (R74 to R76) -/

section Samples

variable {s : State} {t : Task} {n mode : Nat} {l : Layer}

/-- A texel inside the layer is the channel that its format stores (R75). -/
theorem texel_inside {x y : Nat} (hx : x < l.width) (hy : y < l.height) (ch : Nat) : texel s t n l mode ch x y =
    if l.fmt = 1 then fromU8 (leNumber (layerByte s t n) ((y * l.width + x) * layerPx l.fmt + ch) 1)
    else if l.fmt = 2 then ftopx fp16 (leNumber (layerByte s t n) ((y * l.width + x) * layerPx l.fmt + 2 * ch) 2)
    else leNumber (layerByte s t n) ((y * l.width + x) * layerPx l.fmt + 2 * ch) 2 := by
  rw [texel, edge_in mode _ _ hx, edge_in mode _ _ hy]
  rfl

theorem texel_clamp (ch : Nat) (x y : Int) (hw : 0 < l.width) (hh : 0 < l.height) :
    texel s t n l 0 ch x y = texel s t n l 0 ch (max 0 (min x (l.width - 1))) (max 0 (min y (l.height - 1))) := by
  rw [texel, edge_clamp _ x hw, edge_clamp _ y hh, ← texel]

theorem edge_wrap (w : Nat) (x : Int) : edgeAt 1 w x = edgeAt 1 w (x % w) := by
  rw [edgeAt, edgeAt, Int.emod_emod_of_dvd _ (dvd_refl _)]

theorem texel_wrap (ch : Nat) (x y : Int) : texel s t n l 1 ch x y = texel s t n l 1 ch (x % l.width) (y % l.height) := by
  rw [texel, edge_wrap _ x, edge_wrap _ y, ← texel]

theorem edge_zero {w : Nat} {x : Int} (h : x < 0 ∨ (w : Int) ≤ x) : edgeAt 2 w x = none := by
  show (if (decide (0 ≤ x) && decide (x < (w : Int))) = true then some x.toNat else none) = none
  refine if_neg ?_
  simp only [Bool.and_eq_true, decide_eq_true_eq]
  omega

theorem texel_zero (ch : Nat) {x y : Int} (h : x < 0 ∨ (l.width : Int) ≤ x ∨ y < 0 ∨ (l.height : Int) ≤ y) :
    texel s t n l 2 ch x y = 0 := by
  rw [texel]
  by_cases hx : x < 0 ∨ (l.width : Int) ≤ x
  · rw [edge_zero hx]
  · rw [edge_zero (x := y) (by omega)]
    cases edgeAt 2 l.width x <;> rfl

/-- The fraction of a 16.16 coordinate, in 256ths. -/
theorem fraction_eq (u : Int) : u / 256 % 256 = u % 65536 / 256 := by omega

theorem sampleChan_bilinear (ch : Nat) (x y : W32) : sampleChan s t n l false mode ch x y =
    let p := texel s t n l mode ch
    let u := x.toInt - 32768; let v := y.toInt - 32768; let i0 := u / 65536; let j0 := v / 65536
    let fx := (u % 65536 / 256).toNat; let fy := (v % 65536 / 256).toNat
    ((p i0 j0 * (256 - fx) + p (i0 + 1) j0 * fx) * (256 - fy) +
      (p i0 (j0 + 1) * (256 - fx) + p (i0 + 1) (j0 + 1) * fx) * fy + 32768) / 65536 := by
  simp only [sampleChan, Bool.false_eq_true, if_false, fraction_eq]

theorem sampleChan_nearest (ch : Nat) (x y : W32) :
    sampleChan s t n l true mode ch x y = texel s t n l mode ch (x.toInt / 65536) (y.toInt / 65536) := rfl

variable {k : Nat} {f : F} {nearest : Bool} {edge : BitVec 2}

theorem sampleChan_issued (us : Use) (ch : Nat) (x y : W32) :
    sampleChan (issued k us t s) (counted s us t) n l nearest mode ch x y = sampleChan s t n l nearest mode ch x y := by
  rw [issued_frame]
  rfl

theorem dataExc_issued (us : Use) (sp : BitVec 2) (size : Nat) (offs : List Int) :
    dataExc sp size f offs (issued k us t s) (counted s us t) = dataExc sp size f offs s t := by
  rw [issued_frame]
  rfl

theorem writesGroupIn_vsamp (h : Ready s k t) (he : edge ≠ 3) (hz : f.imm = 0) (hd : f.d.toNat % 4 = 0) (hb : f.b.toNat % 2 = 0)
    (hm : maskOf t f ≠ 0) (hl : layerFor s t (sreg t f.a) = some (n, l)) (hfull : setFull t ⟨7, 0, n⟩ = false)
    (hgood : ∀ o ∈ sampleOffs f t l nearest edge.toNat, badByte 2 f s t (layerPx l.fmt) o = none) :
    WritesGroupIn s (wakeMem s) t (.vsamp k nearest edge f) f f.d.toNat
      (fun ch i => sampleChan s t n l nearest edge.toNat ch (lane t f.b.toNat i) (lane t (f.b.toNat + 1) i))
      (readSetAfter s t ⟨7, 0, n⟩) := by
  rw [← loadWake_layer (List.cons_ne_nil 0 [])]
  refine writesGroupIn_of h ?_ rfl ?_
  · rw [bne_iff_ne.mpr he, immZero_true hz, isGroup_true hd, isPair_true hb]
    rfl
  · have hfull' : ∀ us : Use, setFull (counted s us t) ⟨7, 0, n⟩ = false := fun _ => hfull
    have hoffs : ∀ us : Use, sampleOffs f (counted s us t) l nearest edge.toNat = sampleOffs f t l nearest edge.toNat := fun _ => rfl
    simp only [activeLanes_counted, nonempty_of hm, Bool.false_eq_true, if_false, sreg_counted, layerFor_issued, hl, hoffs,
      dataExc_issued, dataExc_none hgood, hfull', record_eq, sampleChan_issued, lb_counted, lane_counted]
    rfl

end Samples

/-- Settles O24: the sampled values are those of `sampleChan`, whose texels follow the edge mode. -/
theorem layerSampling : Obligations.LayerSampling := by
  intro s k t f nearest edge n l h he hz hd hb hm hl hfull hgood
  refine ⟨_, writesGroupIn_vsamp h he hz hd hb hm hl hfull hgood, fun ch i => ⟨texel s t n l edge.toNat ch, ?_⟩⟩
  refine ⟨fun x y hx hy hf => ?p16, fun x y hx hy hf => ?u8, fun x y hx hy hf => ?f16, ?clamp, ?wrap, ?zero, ?nearest, ?bilinear⟩
  case p16 => rw [texel_inside hx hy, hf]; rfl
  case u8 => rw [texel_inside hx hy, hf, if_pos rfl, le1]; rfl
  case f16 => rw [texel_inside hx hy, hf]; rfl
  case clamp =>
    rintro x y rfl hw hh
    exact texel_clamp ch x y hw hh
  case wrap =>
    rintro x y rfl
    exact texel_wrap ch x y
  case zero =>
    rintro x y rfl hout
    exact texel_zero ch hout
  case nearest =>
    rintro rfl
    exact sampleChan_nearest ch _ _
  case bilinear =>
    rintro rfl
    exact sampleChan_bilinear ch _ _

end Sys2Proof.Machine

/-!
The input instructions (O26) and those of the endpoint table (O27).
-/

namespace Sys2Proof.Machine

section Input

variable {s : State} {k : Nat} {t : Task} {f : F}

/-- An input ID that R31 refuses ends the task with INPUT_FAULT. -/
theorem inputRead_terminates (h : Ready s k t) (he : Enabled t f) (hb : f.b = 0) (hf : TasksFit s)
    (hk : inputKey s t (sreg t f.a + f.imm) = none) {i : Instr} {spec ver : Bool} (hx : exec i s = .next (inputRead k f spec ver s)) :
    Terminates s t i 1 6 (sreg t f.a + f.imm) :=
  terminates_issued h.running hf 6 _ (by decide) (hx.trans (congrArg _ (inputRead_fault h he hb hk spec ver)))

end Input

/-- Settles O26: the four instructions are one read, recorded or not, of the value or of the version. -/
theorem inputInstructions : Obligations.InputInstructions := by
  intro s k t f h he hb
  refine ⟨fun key hk => ⟨fun hfull => ⟨?specIn, ?specVer⟩, ?firmIn, ?firmVer⟩, fun hf hk => ?refused⟩
  case specIn => exact inputRead_ok h he hb hk true false (fun _ => hfull) rfl
  case specVer => exact inputRead_ok h he hb hk true true (fun _ => hfull) rfl
  case firmIn => exact inputRead_ok h he hb hk false false (fun hs => absurd hs (by decide)) rfl
  case firmVer => exact inputRead_ok h he hb hk false true (fun hs => absurd hs (by decide)) rfl
  case refused =>
    simp only [List.forall_mem_cons, List.not_mem_nil, false_implies, implies_true, and_true]
    and_intros <;> exact inputRead_terminates h he hb hf hk rfl

/-! ## The endpoint table (R77 to R79, R173) -/

theorem etabValue_listed (s : State) (t : Task) {e : Nat} (he : e < 131072) (w : Nat) :
    etabValue s t e w = Map.get (fun _ => 0) (taskEtab s t) (16 * e + w) := by
  rw [etabValue, if_neg (not_le.mpr he), ew, BitVec.ofNat_toNat, BitVec.setWidth_eq]

section StageWord

variable {imm : W32} (e : Nat) (v : W32) (u : State)

/-- A word of an entry other than word 0 is staged. -/
theorem etabWordWrite_stage (h : imm ≠ 0) :
    etabWordWrite e imm.toNat v u = { u with epg := { u.epg with stage := Map.set (fun _ => 0) u.epg.stage (16 * e + imm.toNat) v } } :=
  if_neg fun h0 => h (BitVec.eq_of_toNat_eq h0)

theorem get_stage_etabWordWrite (h : imm ≠ 0) (q : Nat) :
    Map.get (fun _ => 0) (etabWordWrite e imm.toNat v u).epg.stage q =
      if q = 16 * e + imm.toNat then v else Map.get (fun _ => 0) u.epg.stage q := by
  rw [etabWordWrite_stage e v u h]
  by_cases hq : q = 16 * e + imm.toNat
  · rw [if_pos hq, hq]
    exact map_get_set_same _ _ _ _
  · rw [if_neg hq]
    exact map_get_set_ne _ _ _ hq

theorem rd_etabWordWrite_stage (h : imm ≠ 0) (q : RegId) (i j : Nat) : rd (etabWordWrite e imm.toNat v u) q i j = rd u q i j := by
  rw [etabWordWrite_stage e v u h]
  rfl

/-- Word 0 publishes. -/
theorem etabWordWrite_publish : etabWordWrite e (0 : W32).toNat v u = publishWord0 e v u := if_pos rfl

end StageWord

theorem rd_setTask (t : Task) (s : State) (q : RegId) (i j : Nat) : rd (setTask t s) q i j = rd s q i j := rfl

/-- What the journal leaves alone, it leaves alone of the state before the issue. -/
theorem journaled_issued (k : Nat) (us : Use) (t : Task) (s : State) (ty : Nat) (p : List Byte) :
    Journaled s (journal ty p (issued k us t s)) := by
  have h := journaled_journal ty p (issued k us t s)
  have hregs : (issued k us t s).regs = s.regs := by rw [issued_frame]
  refine ⟨fun q i j hq => (h.reg q i j hq).trans (rd_congr hregs q i j), h.etab.trans ?_, h.member.trans ?_, h.epg.trans ?_⟩
  · rw [publishedEtab, publishedEtab, hregs]
  · rw [issued_frame]
  · rw [issued_frame]

section Publish

variable {s u : State} {e : Nat} {v : W32}

/-- An entry whose word 0 is even is not valid, so no rule judges it. -/
theorem eValid_staged_even (hv : v.toNat % 2 = 0) : eValid (stagedEntry u e v) e = false := by
  have h0 := get_staged u e v 0 (by decide)
  rw [if_pos rfl] at h0
  rw [eValid, ew, h0]
  simp [hv]

/-- Word 0 of an entry that no rule refuses publishes the staged words. -/
theorem publishWord0_word (hj : Journaled s u) (hok : entryReason s (stagedEntry s e v) e = 0 ∨ v.toNat % 2 = 0) {w : Nat} (hw : w < 16) :
    rd (publishWord0 e v u) .etabWord e w = entryWord w (if w = 0 then v else Map.get (fun _ => 0) s.epg.stage (16 * e + w)) := by
  have hwhy : (if eValid (stagedEntry u e v) e then entryReason u (stagedEntry u e v) e else 0) = 0 := by
    rcases hok with hr | hv
    · rw [hj.reason, hj.staged, hr, ite_self]
    · rw [eValid_staged_even hv]
      rfl
  have hpub : publishWord0 e v u = publishEntry e (stagedEntry u e v) u := by
    unfold publishWord0
    exact if_pos hwhy
  rw [hpub, publishEntry_word _ _ _ _ hw, get_staged _ _ _ _ hw, hj.epg]

end Publish

/-- Settles O27: ETAB.WR writes through the state that the journal leaves. -/
theorem endpointTableInstructions : Obligations.EndpointTableInstructions := by
  intro s k t f h he hb hi
  refine ⟨fun hr hfull => ?read, fun hf hr => etabRd_bad h he hb hi hf hr, fun hf hp => etabWr_bad h he hb hi hf hp,
    fun hp hu hs hl => ?write⟩
  case read => exact ⟨_, etabRd_ok h he hb hi hr hfull, fun hlt => etabValue_listed s t hlt _⟩
  case write =>
    obtain ⟨ty, pl, hx⟩ := etabWr_exec h he hb hi hp hu hs hl
    have hj := journaled_issued k (etabWrUse f) t s ty pl
    refine ⟨_, advancePc (counted s (etabWrUse f) t), hx, taskAt_setTask_same _ _, rfl, fun hne => ⟨fun q => ?stage, fun e w => ?kept⟩,
      fun h0 hok => ?publish⟩
    case stage => rw [setTask_epg, get_stage_etabWordWrite _ _ _ hne, hj.epg]
    case kept => rw [rd_setTask, rd_etabWordWrite_stage _ _ _ hne, hj.reg .etabWord e w (by decide)]
    case publish =>
      have hword : ∀ w < 16, _ := fun w hw => publishWord0_word (w := w) hj hok hw
      rw [h0, etabWordWrite_publish, rd_setTask]
      refine ⟨?_, fun w hw hw0 => ?_⟩
      · rw [hword 0 (by decide), if_pos rfl]
      · rw [rd_setTask, hword w hw, if_neg hw0]

end Sys2Proof.Machine

/-!
The packet instructions: buffers (O28), PKT.SEND (O29) and their exceptions (O30).
-/

namespace Sys2Proof.Machine

/-! ## Packet buffers (R81, R249) -/

/-- Replacing a held buffer replaces what its handle names, and nothing else. -/
theorem pktOf_replaced {t : Task} {g : W32} {b b' : PktBuf} (hb : pktOf t g = some b) (hh : b'.handle = g) :
    (∀ x, x ≠ g → pktOf { t with pkts := (setPkt b' t).pkts } x = pktOf t x) ∧
      pktOf { t with pkts := (setPkt b' t).pkts } g = some b' := by
  refine ⟨fun x hx => ?_, ?_⟩
  · exact (pktOf_setPkt b' t x).trans (if_neg fun hc => hx (hc.1.trans hh))
  · exact (pktOf_setPkt b' t g).trans (if_pos ⟨hh.symm, by rw [hb]; rfl⟩)

section Bytes

theorem foldl_put_zipIdx (o : Nat) (bs : List Byte) (n : Nat) (m : Map Byte) :
    (bs.zipIdx n).foldl (fun m x => Map.put m (o + x.2) x.1) m = bytesPut m (o + n) bs := by
  induction bs generalizing n m with
  | nil => rfl
  | cons a as ih => exact ih (n + 1) _

theorem length_leBytes (n v : Nat) : (leBytes n v).length = n := by
  induction n generalizing v with
  | zero => rfl
  | succ n ih => rw [leBytes, List.length_cons, ih]

theorem getElem?_leBytes {n j : Nat} (hj : j < n) (v : Nat) : (leBytes n v)[j]? = some (BitVec.ofNat 8 (v / 256 ^ j)) := by
  induction n generalizing j v with
  | zero => omega
  | succ n ih =>
    cases j with
    | zero => simp [leBytes]
    | succ j => rw [leBytes, List.getElem?_cons_succ, ih (by omega), Nat.div_div_eq_div_mul, pow_succ']

theorem ofNat_div_256_pow (v : W32) (j : Nat) : BitVec.ofNat 8 (v.toNat / 256 ^ j) = v.extractLsb' (8 * j) 8 := by
  apply BitVec.eq_of_toNat_eq
  rw [BitVec.toNat_ofNat, BitVec.extractLsb'_toNat, Nat.shiftRight_eq_div_pow, pow_mul]
  rfl

/-- The bytes of a buffer after a word is written. -/
theorem byte_bytesPut (b : PktBuf) (o : Nat) (v : W32) (x : Nat) :
    PktBuf.byte { b with bytes := bytesPut b.bytes o (leBytes 4 v.toNat) } x =
      if o ≤ x ∧ x < o + 4 then v.extractLsb' (8 * (x - o)) 8 else b.byte x := by
  unfold PktBuf.byte
  simp only [find_bytesPut, length_leBytes]
  by_cases hx : o ≤ x ∧ x < o + 4
  · rw [if_pos hx, if_pos hx, getElem?_leBytes (by omega), ofNat_div_256_pow]
  · rw [if_neg hx, if_neg hx]

end Bytes

section Buffers

variable {s : State} {k : Nat} {t : Task} {f : F}

theorem pktOf_counted (us : Use) (g : W32) : pktOf (counted s us t) g = pktOf t g := rfl

/-- A packet instruction that meets no exception and only changes the buffers of its task. -/
theorem goesOn_pktOp (h : Ready s k t) (he : Enabled t f) (hp : privileged s t = true) (hu : undoable t = false) {us : Use}
    {l : Bool} {pre : State → Task → Option Exc} {body : Body} {i : Instr} {P : List PktBuf}
    (hx : exec i s = .next (pktOp k us f l pre body s)) (hl : l = true) (hpre : pre (issued k us t s) (counted s us t) = none)
    (hb : body (issued k us t s) (counted s us t) = .keep (issued k us t s) (advancePc { counted s us t with pkts := P })) :
    GoesOn s t i (t.pc + 8) { t with pkts := P } := by
  refine goesOn_keep (k := k) (us := us) rfl (hx.trans (congrArg _ ((pktOp_runs h he hp hu hl hpre).trans ?_)))
  rw [hb]
  rfl

/-- The task after it has written a scalar register. -/
theorem writesScalar_settled {us : Use} {i : Instr} {d : BitVec 5} {v : W32} {r : Res}
    (hx : exec i s = .next (settle (counted s us t) (issued k us t s) r))
    (hr : r = .keep (issued k us t s) (advancePc (setS d v (counted s us t)))) : WritesScalar s t i d v := by
  subst hr
  refine ⟨_, advancePc (setS d v (counted s us t)), hx, onlyTask_keep k us s t _ ?slot, fun r => sreg_setS d r v _, ?rest⟩
  case slot | rest => unfold setS; split <;> rfl

variable {b : PktBuf} (h : Ready s k t) (he : Enabled t f) (hp : privileged s t = true) (hu : undoable t = false)
  (hb : pktOf t (sreg t f.a) = some b)

include h he hp hu hb

/-- PKT.RD. -/
theorem writesScalar_pktRd (hz : f.imm = 0) (h4 : (sreg t f.b).toNat % 4 = 0) (hlt : (sreg t f.b).toNat < 9632) :
    WritesScalar s t (.pktRd k f) f.d (BitVec.ofNat 32 (leNumber b.byte (sreg t f.b).toNat 4)) := by
  refine writesScalar_settled (us := pktUse 1 f [regS f.a, regS f.b] [regS f.d]) (congrArg _ (pktOp_runs h he hp hu (immZero_true hz) (wordOr_none hb h4 hlt))) ?_
  simp only [sreg_counted, pktOf_counted, hb, read_eq]

/-- PKT.WR. -/
theorem goesOn_pktWr {c : BitVec 5} (hc : f.imm = c.setWidth 32) (h4 : (sreg t f.b).toNat % 4 = 0) (hlt : (sreg t f.b).toNat < 9632) :
    GoesOn s t (.pktWr k f) (t.pc + 8)
      { t with pkts := (setPkt { b with bytes := bytesPut b.bytes (sreg t f.b).toNat (leBytes 4 (sreg t c).toNat) } t).pkts } := by
  obtain ⟨hcf, hl⟩ := cField_of hc
  refine goesOn_pktOp h he hp hu rfl hl (wordOr_none hb h4 hlt) ?_
  simp only [sreg_counted, pktOf_counted, hb, foldl_put_zipIdx, hcf]
  rfl

/-- PKT.LEN. -/
theorem goesOn_pktLen (hz : f.imm = 0) (hlo : 60 ≤ (sreg t f.b).toNat) (hhi : (sreg t f.b).toNat ≤ 9600) :
    GoesOn s t (.pktLen k f) (t.pc + 8) { t with pkts := (setPkt { b with len := some (sreg t f.b).toNat } t).pkts } := by
  refine goesOn_pktOp h he hp hu rfl (immZero_true hz) ?_ ?_
  · rw [heldOr_none hb]
    simp [Nat.not_lt.mpr hlo, Nat.not_lt.mpr hhi]
  · simp only [sreg_counted, pktOf_counted, hb]
    rfl

/-- PKT.FREE. -/
theorem goesOn_pktFree (hz : f.imm = 0) :
    GoesOn s t (.pktFree k f) (t.pc + 8) { t with pkts := (dropPkt (sreg t f.a) t).pkts } :=
  goesOn_pktOp h he hp hu rfl (immZero_true hz) (heldOr_none hb) rfl

end Buffers

section Alloc

theorem pkts_setS {d : BitVec 5} {v : W32} {t : Task} : (setS d v t).pkts = t.pkts := by
  unfold setS
  split <;> rfl

variable {s u : State} {k : Nat} {t t' : Task} {f : F}

/-- A drawn free value is no change of another task. -/
theorem onlyTask_draw (h : OnlyTask s u t t') : OnlyTask s (draw u) t t' := by
  refine ⟨h.task, h.others, ?_⟩
  rw [draw, h.frame]

/-- A handle that no task holds is that of no buffer. -/
theorem handle_ne_of_not_handleHeld {g : W32} (hg : handleHeld s g = false) : ∀ u ∈ allTasks s, ∀ b ∈ u.pkts, b.handle ≠ g := by
  intro u hu b hb he
  have hheld : handleHeld s g = true := by
    rw [handleHeld, List.any_eq_true]
    exact ⟨u, hu, List.any_eq_true.mpr ⟨b, hb, beq_iff_eq.mpr he⟩⟩
  rw [hg] at hheld
  exact Bool.false_ne_true hheld

theorem handleHeld_issued (us : Use) (g : W32) : handleHeld (issued k us t s) g = handleHeld s g := by
  rw [handleHeld, allTasks, issued_tasks]
  rfl

/-- The buffer of a free value, whose bytes and length nothing has set. -/
def freshPkt (n : Nat) : PktBuf := ⟨Config.pktHandle n, [], none, n⟩

/-- The handle that PKT.ALLOC gives, and the buffers of its task after it. -/
theorem pktAlloc_gives (h : Ready s k t) (he : Enabled t f) (hp : privileged s t = true) (hu : undoable t = false) (hz : f.imm = 0) :
    ∃ (g : W32) (P : List PktBuf),
      exec (.pktAlloc k f) s = .next (draw (setTask (advancePc (setS f.d g { counted s (pktUse 2 f [] [regS f.d]) t with pkts := P }))
        (issued k (pktUse 2 f [] [regS f.d]) t s))) ∧
      (g = 0 → P = t.pkts) ∧ (g ≠ 0 → handleHeld s g = false ∧ ∃ b, b.handle = g ∧ P = t.pkts ++ [b]) := by
  by_cases hc : Config.pktHandle (issued k (pktUse 2 f [] [regS f.d]) t s).free = 0 ∨
      handleHeld s (Config.pktHandle (issued k (pktUse 2 f [] [regS f.d]) t s).free) = true
  · refine ⟨0, t.pkts, congrArg _ ((pktOp_runs h he hp hu (immZero_true hz) rfl).trans ?_), fun _ => rfl, fun h0 => absurd rfl h0⟩
    rw [if_pos (by simpa [handleHeld_issued] using hc)]
    rfl
  · obtain ⟨hne, hfree⟩ := not_or.mp hc
    refine ⟨_, _, congrArg _ ((pktOp_runs h he hp hu (immZero_true hz) rfl).trans ?_), fun h0 => absurd h0 hne,
      fun _ => ⟨Bool.eq_false_iff.mpr hfree, freshPkt (issued k (pktUse 2 f [] [regS f.d]) t s).free, rfl, rfl⟩⟩
    rw [if_neg (by simpa [handleHeld_issued] using hc)]
    rfl

end Alloc

/-- Settles O28. -/
theorem packetBuffers : Obligations.PacketBuffers := by
  intro s k t f h he hp hu
  refine ⟨fun hz => ?alloc, fun b o hb ho => ?held⟩
  case alloc =>
    obtain ⟨g, P, hx, h0, hne⟩ := pktAlloc_gives h he hp hu hz
    refine ⟨g, _, _, hx, onlyTask_draw (onlyTask_keep k _ s t _ ?slot), fun r => sreg_setS f.d r g _, ?rest, ?none, ?some⟩
    case slot | rest => unfold setS; split <;> rfl
    case none => exact fun hg => pkts_setS.trans (h0 hg)
    case some =>
      intro hg
      obtain ⟨hfree, b, hb, hP⟩ := hne hg
      exact ⟨handle_ne_of_not_handleHeld hfree, b, hb, pkts_setS.trans hP⟩
  case held =>
    subst ho
    have hh := handle_of hb
    refine ⟨fun hz h4 hlt => ?rd, fun c hc h4 hlt => ?wr, fun hz hlo hhi => ?len, fun hz => ?free⟩
    case rd => exact writesScalar_pktRd h he hp hu hb hz h4 hlt
    case wr =>
      obtain ⟨hne, hsame⟩ := pktOf_replaced (b' := { b with bytes := bytesPut b.bytes (sreg t f.b).toNat (leBytes 4 (sreg t c).toNat) })
        hb hh
      exact ⟨_, goesOn_pktWr h he hp hu hb hc h4 hlt, hne, _, hsame, rfl, rfl, fun x => byte_bytesPut b _ _ x⟩
    case len =>
      obtain ⟨hne, hsame⟩ := pktOf_replaced (b' := { b with len := some (sreg t f.b).toNat }) hb hh
      exact ⟨_, goesOn_pktLen h he hp hu hb hz hlo hhi, hne, _, hsame, rfl, rfl⟩
    case free =>
      exact ⟨_, goesOn_pktFree h he hp hu hb hz, (pktOf_dropPkt _ t _).trans (if_pos rfl),
        fun x hx => (pktOf_dropPkt _ t x).trans (if_neg hx)⟩

/-! ## PKT.SEND (R81, R249, R390) -/

section Send

variable {s u : State} {k : Nat} {t t' : Task} {f : F}

theorem onlyTask_prt (h : OnlyTask s u t t') (P : Prt) : OnlyTask { s with prt := P } { u with prt := P } t t' := by
  refine ⟨h.task, h.others, ?_⟩
  rw [h.frame]

/-- A frame of a packet buffer is queued, or the state stays: one too long, or on a port that sends nothing, goes nowhere. -/
theorem enqueue_pkt (p : Nat) (u : State) {q : QFrame} (hsrc : q.src = .pkt) (hlen : q.len = q.bytes.length) :
    ∃ m, (if 9600 < q.len then u else enqueue p q u) = { u with prt := { u.prt with ports := m } } ∧
      ∀ x, Map.get (fun _ => portIdle) m x = if x = p ∧ portSends u p = true ∧ q.bytes.length ≤ 9600 then
        { portOf u p with queue := (portOf u p).queue ++ [q] } else portOf u x := by
  by_cases hq : portSends u p = true ∧ q.bytes.length ≤ 9600
  · obtain ⟨hs, hle⟩ := hq
    refine ⟨Map.put u.prt.ports p { portOf u p with queue := (portOf u p).queue ++ [q] }, ?_, fun x => ?_⟩
    · rw [if_neg (by omega), enqueue, if_pos hs]
      rfl
    · by_cases hx : x = p
      · rw [if_pos ⟨hx, hs, hle⟩, hx, map_get_put_same]
      · rw [if_neg (fun hc => hx hc.1), map_get_put_ne _ _ _ hx]
        rfl
  · refine ⟨u.prt.ports, ?_, fun x => ?_⟩
    · by_cases hle : 9600 < q.len
      · rw [if_pos hle]
      · have hs : portSends u p ≠ true := fun hs => hq ⟨hs, by omega⟩
        rw [if_neg hle, enqueue, if_neg hs, frameEnds, hsrc]
    · rw [if_neg (fun hc => hq hc.2)]
      rfl

theorem portSends_issued (us : Use) (p : Nat) : portSends (issued k us t s) p = portSends s p := by
  rw [issued_frame]
  rfl

theorem portOf_issued (us : Use) (p : Nat) : portOf (issued k us t s) p = portOf s p :=
  portOf_prt (by rw [issued_frame]) p

/-- What PKT.SEND does with the frame of a buffer that its task holds. -/
theorem exec_pktSend {b : PktBuf} (h : Ready s k t) (he : Enabled t f) (hp : privileged s t = true) (hu : undoable t = false)
    (hz : f.imm = 0) (hb : pktOf t (sreg t f.a) = some b) (hs : sendZero (sreg t f.b) = true) :
    ∃ us, exec (.pktSend k f) s = .next (setTask (advancePc (dropPkt (sreg t f.a) (counted s us t)))
      (if 9600 < (pktFrame b (bitsOf (sreg t f.b).toNat 8 3)).len then issued k us t s
       else enqueue ((sreg t f.b).toNat % 32) (pktFrame b (bitsOf (sreg t f.b).toNat 8 3)) (issued k us t s))) := by
  refine ⟨pktUse 2 f [regS f.a, regS f.b] [], congrArg Host.Outcome.next ?_⟩
  have hu' : undoable (counted s (pktUse 2 f [regS f.a, regS f.b] []) t) = false := hu
  rw [immZero_true hz, issue_legal h]
  simp only [maskOf_counted, he, sreg_counted, hs, privileged_issued, hp, pktOf_counted, hb, hu', Bool.not_true, Bool.and_false,
    Bool.false_eq_true, if_false]
  rfl

theorem ofLe_lt (bs : List Byte) : ofLe bs < 256 ^ bs.length := by
  induction bs with
  | nil => exact Nat.one_pos
  | cons x xs ih =>
    have hx := x.isLt
    rw [ofLe, List.length_cons, pow_succ]
    omega

theorem leNumber_lt (g : Nat → Byte) (o n : Nat) : leNumber g o n < 256 ^ n := by
  have h := ofLe_lt ((List.range n).map fun i => g (o + i))
  rwa [List.length_map, List.length_range] at h

/-- The fields of the queued frame (Table 9-3). -/
theorem pktFrame_fields (b : PktBuf) (cls : Nat) : (pktFrame b cls).launch.toNat = leNumber b.byte 0 8 ∧
    (pktFrame b cls).tag.toNat = leNumber b.byte 8 2 ∧ (pktFrame b cls).tsreq = decide (leNumber b.byte 10 1 % 2 = 1) := by
  have hw2 : ofLe (b.read 8 4) = leNumber b.byte 8 2 + 65536 * (leNumber b.byte 10 1 + 256 * (b.byte 11).toNat) := by
    rw [read_eq, le4, le2, le1]
    simp only [Nat.reduceAdd]
    omega
  have htag : leNumber b.byte 8 2 < 65536 := leNumber_lt b.byte 8 2
  refine ⟨?launch, ?tag, ?tsreq⟩
  case launch => exact (BitVec.toNat_ofNat _ _).trans (Nat.mod_eq_of_lt (leNumber_lt b.byte 0 8))
  case tag =>
    refine (BitVec.toNat_ofNat _ _).trans ?_
    omega
  case tsreq =>
    show (ofLe (b.read 8 4) / 65536 % 2 == 1) = _
    rw [hw2, beq_eq_decide, decide_eq_decide]
    omega

end Send

/-- Settles O29. -/
theorem packetSend : Obligations.PacketSend := by
  intro s k t f b p cls h he hp hu hz hb hp32 hc8 hv
  have hs : sendZero (sreg t f.b) = true := by
    rw [sendZero, Bool.and_eq_true, beq_iff_eq, beq_iff_eq, hv]
    omega
  obtain ⟨us, hx⟩ := exec_pktSend h he hp hu hz hb hs
  have hport : (sreg t f.b).toNat % 32 = p := by omega
  have hcls : bitsOf (sreg t f.b).toNat 8 3 = cls := by
    rw [bitsOf]
    omega
  rw [hport, hcls] at hx
  obtain ⟨m, hm, hports⟩ := enqueue_pkt p (issued k us t s) (q := pktFrame b cls) rfl rfl
  rw [hm] at hx
  obtain ⟨hlaunch, htag, hts⟩ := pktFrame_fields b cls
  refine ⟨_, advancePc (dropPkt (sreg t f.a) (counted s us t)), pktFrame b cls, hx, ?only, ?prt, rfl, fun g => pktOf_dropPkt _ t g, fun x => ?ports, rfl, hlaunch, htag, hts,
    frame_bytes b cls⟩
  case only => exact onlyTask_prt (onlyTask_keep k us s t (advancePc (dropPkt (sreg t f.a) (counted s us t))) rfl) _
  case prt =>
    show ({ (issued k us t s).prt with ports := m } : Prt) = { s.prt with ports := m }
    rw [issued_frame]
  case ports =>
    simp only [portSends_issued, portOf_issued] at hports
    exact hports x

/-! ## Exceptions of the packet instructions (R56, R81) -/

/-- An instruction that raises an exception which neither parks nor stops the device ends its task. -/
theorem terminates_of_exc {s : State} {k : Nat} {us : Use} {t : Task} (h : Ready s k t) (hf : TasksFit s) {l : Bool} {body : Body}
    {i : Instr} {code : Nat} {info : W32} (hx : exec i s = .next (issue k us l body s)) (hl : l = true)
    (hc : code ≠ 7 ∧ code ≠ 8 ∧ code ≠ 11 ∧ code < 64) (hb : body (issued k us t s) (counted s us t) = .exc ⟨code, info⟩) :
    Terminates s t i 1 code info := by
  obtain ⟨h7, h8, h11, h64⟩ := hc
  have hend := exc_of h hf hl ⟨code, info⟩ hb h7 h8 h64 hx
  rwa [if_neg h11] at hend

section Faults

variable {s : State} {k : Nat} {t : Task} {f : F} (h : Ready s k t) (he : Enabled t f) (hf : TasksFit s)

include h he hf

/-- Without service privilege a packet instruction raises PRIVILEGE before its own causes. -/
theorem pktOp_unprivileged (hp : privileged s t = false) {us : Use} {l : Bool} {pre : State → Task → Option Exc} {body : Body}
    {i : Instr} (hx : exec i s = .next (pktOp k us f l pre body s)) (hl : l = true) : Terminates s t i 1 2 t.pc := by
  refine terminates_of_exc h hf hx hl (by decide) ?_
  simp only [maskOf_counted, he, Bool.not_true, Bool.false_eq_true, if_false, privileged_issued, hp, Bool.not_false, if_true]
  rfl

variable (hp : privileged s t = true)

include hp

/-- A word access that meets an exception. -/
theorem pktWord_terminates (hz : f.imm = 0) {x : Exc}
    (hpre : ∀ us, wordOr f (issued k us t s) (counted s us t) = some x) (hcode : x.code = 3 ∨ x.code = 4) :
    ∀ i ∈ [Instr.pktRd k f, .pktWr k f], Terminates s t i 1 x.code x.info := by
  have hc : immC f = true := by simp [immC, hz]
  simp only [List.forall_mem_cons, List.not_mem_nil, false_implies, implies_true, and_true]
  exact ⟨pkt_exc h he hf hp _ _ _ _ x (immZero_true hz) rfl (hpre _) hcode, pkt_exc h he hf hp _ _ _ _ x hc rfl (hpre _) hcode⟩

end Faults

section Causes

variable {s : State} {k : Nat} {t : Task} {f : F} (us : Use)

theorem heldOr_some (hb : pktOf t (sreg t f.a) = none) :
    heldOr f (issued k us t s) (counted s us t) = some ⟨4, sreg t f.a⟩ := by
  simp only [heldOr, sreg_counted, pktOf_counted, hb]
  rfl

theorem wordOr_misaligned (h4 : (sreg t f.b).toNat % 4 ≠ 0) :
    wordOr f (issued k us t s) (counted s us t) = some ⟨3, sreg t f.b⟩ := by
  simp [wordOr, h4]

theorem wordOr_unheld (h4 : (sreg t f.b).toNat % 4 = 0) (hb : pktOf t (sreg t f.a) = none) :
    wordOr f (issued k us t s) (counted s us t) = some ⟨4, sreg t f.a⟩ := by
  simp [wordOr, h4, heldOr_some us hb]

theorem wordOr_beyond {b : PktBuf} (h4 : (sreg t f.b).toNat % 4 = 0) (hb : pktOf t (sreg t f.a) = some b)
    (hge : 9632 ≤ (sreg t f.b).toNat) : wordOr f (issued k us t s) (counted s us t) = some ⟨4, sreg t f.b⟩ := by
  simp [wordOr, h4, heldOr_none hb, pktSize, hge]

end Causes

/-- Settles O30: PRIVILEGE goes before the causes of the instruction itself, and reserved bits of PKT.SEND before both. -/
theorem packetFaults : Obligations.PacketFaults := by
  intro s k t f h he hf hz
  have hl := immZero_true hz
  refine ⟨fun hp => ?privilege, fun hp => ⟨fun h4 => ?misaligned, fun hb => ⟨?unheld, fun h4 => ?unheldWord, fun hs => ?unheldSend⟩,
    fun hb => ⟨fun h4 hge => ?beyond, fun hlen => ?length⟩⟩, fun hs => ?reserved⟩
  case privilege =>
    simp only [List.forall_mem_cons, List.not_mem_nil, false_implies, implies_true, and_true]
    have hc : immC f = true := by simp [immC, hz]
    exact ⟨pktOp_unprivileged h he hf hp rfl hl, pktOp_unprivileged h he hf hp rfl hl, pktOp_unprivileged h he hf hp rfl hc,
      pktOp_unprivileged h he hf hp rfl hl, pktOp_unprivileged h he hf hp rfl hl⟩
  case misaligned => exact pktWord_terminates h he hf hp hz (fun us => wordOr_misaligned us h4) (Or.inl rfl)
  case unheld =>
    simp only [List.forall_mem_cons, List.not_mem_nil, false_implies, implies_true, and_true]
    refine ⟨pkt_exc h he hf hp _ _ _ _ ⟨4, sreg t f.a⟩ hl rfl ?_ (Or.inr rfl),
      pkt_exc h he hf hp _ _ _ _ ⟨4, sreg t f.a⟩ hl rfl (heldOr_some _ hb) (Or.inr rfl)⟩
    rw [heldOr_some _ hb]
  case unheldWord => exact pktWord_terminates h he hf hp hz (fun us => wordOr_unheld us h4 hb) (Or.inr rfl)
  case unheldSend =>
    refine terminates_of_exc h hf rfl hl (by decide) ?_
    simp only [maskOf_counted, he, sreg_counted, hs, privileged_issued, hp, pktOf_counted, hb, Bool.not_true, Bool.and_false,
      Bool.false_eq_true, if_false]
  case beyond =>
    obtain ⟨b, hb⟩ := Option.ne_none_iff_exists'.mp hb
    exact pktWord_terminates h he hf hp hz (fun us => wordOr_beyond us h4 hb hge) (Or.inr rfl)
  case length =>
    obtain ⟨b, hb⟩ := Option.ne_none_iff_exists'.mp hb
    refine pkt_exc h he hf hp _ _ _ _ ⟨4, sreg t f.b⟩ hl rfl ?_ (Or.inr rfl)
    rw [heldOr_none hb]
    refine if_pos ?_
    rw [Bool.or_eq_true, decide_eq_true_eq, decide_eq_true_eq]
    exact hlen
  case reserved =>
    refine terminates_of_exc h hf rfl hl (by decide) ?_
    simp only [maskOf_counted, he, sreg_counted, hs, Bool.not_false, Bool.and_true, if_true]
    rfl

end Sys2Proof.Machine

/-!
The task instructions: YIELD, DONE and POST (O31), SPAWN (O32) and CANCEL (O33).
-/

namespace Sys2Proof.Machine

/-! ## YIELD, DONE and POST (R82) -/

/-- The program status stands in the low half of word 2 of a task record (Table 4-7). -/
theorem taskRecord_programStatus (t : Task) (status pstat : Nat) (info : W32) :
    bitsOf (dw (taskRecord t status pstat 0 info) 2) 0 16 = pstat % 65536 := by
  show BitVec.toNat (BitVec.ofNat 32 (pstat % 65536 + 65536 * 0 + 2 ^ 22 * t.prog.num)) / 2 ^ 0 % 2 ^ 16 = _
  rw [BitVec.toNat_ofNat]
  omega

section Post

variable (ev detail : Nat) (s : State) (p : List PostRec)

theorem sch_raise : (raise ev detail s).sch = s.sch := by rw [(eventOnly_raise ev detail s).frame]

theorem fmem_raise : (raise ev detail s).fmem = s.fmem := by rw [(eventOnly_raise ev detail s).frame]

end Post

section TaskOps

variable {s : State} {k : Nat} {t : Task} {f : F} (h : Ready s k t) (he : Enabled t f) (hz : f.imm = 0)

include h he hz

theorem exec_yield : exec (.yield k f) s = .next (yieldTask (advancePc (counted s (aloneUse 4) t)) (issued k (aloneUse 4) t s)) :=
  congrArg Host.Outcome.next (taskOp_runs h he hz _)

/-- DONE departs its task with status OK, where no template is chained to its own. -/
theorem exec_done (hf : TasksFit s) (hn : ∀ n, t.tmpl = some n → ∀ m, m ≠ n → tmplKind s m = 7 → (rd s .tmplSrc m).toNat ≠ n) :
    ∃ u, Silent s u ∧ exec (.done k f) s = .next (depart (advancePc (counted s (aloneUse 4) t))
      (taskRecord (advancePc (counted s (aloneUse 4) t)) 0 ((sreg t f.a).toNat % 65536) 0 0) (dCpl t.desc) u) := by
  obtain ⟨hslot, hctx⟩ := taskOn_fit hf h.running
  have hsil := charged_silent k (aloneUse 4) t s
  obtain ⟨u, hu, hx⟩ := completeOk_ended (advancePc (counted s (aloneUse 4) t)) ((sreg t f.a).toNat % 65536)
    (issued k (aloneUse 4) t s) (hsil.fit hf) hslot hctx (by rw [issued_frame]; exact hn)
  exact ⟨u, hsil.trans hu, congrArg Host.Outcome.next ((taskOp_runs h he hz _).trans hx)⟩

theorem exec_post (hu : undoable t = false) : exec (.post k f) s = .next (setTask (advancePc (counted s (aloneUse 2) t))
    (raise 18 t.ctx { issued k (aloneUse 2) t s with sch := { (issued k (aloneUse 2) t s).sch with
      posts := (issued k (aloneUse 2) t s).sch.posts ++ [⟨t.slot, t.ctx, BitVec.ofNat 16 (sreg t f.b).toNat, sreg t f.a⟩] } })) := by
  have hu' : undoable (counted s (aloneUse 2) t) = false := hu
  refine congrArg Host.Outcome.next ((taskOp_runs h he hz _).trans ?_)
  rw [hu', if_neg Bool.false_ne_true]
  rfl

end TaskOps

/-- Settles O31. -/
theorem yieldDoneAndPost : Obligations.YieldDoneAndPost := by
  intro s k t f h he hz
  refine ⟨?yield, fun hf hn => ?done, fun hu => ?post⟩
  case yield =>
    refine ⟨_, _, exec_yield h he hz, onlyTask_keep k (aloneUse 4) s t _ rfl, ?_⟩
    have hot : (issued k (aloneUse 4) t s).ot = s.ot := by rw [issued_frame]
    rw [← hot]
    rfl
  case done =>
    obtain ⟨hslot, hctx⟩ := taskOn_fit hf h.running
    obtain ⟨u, hu, hx⟩ := exec_done h he hz hf hn
    have hend := hu.ended (depart_ended (advancePc (counted s (aloneUse 4) t)) 0 ((sreg t f.a).toNat % 65536) 0 0 (dCpl t.desc) u
      (hu.fit hf) (by decide) (by decide) hslot hctx)
    refine ⟨_, hx, hend, fun v ws hv hw => ?_⟩
    rw [depart_record (hu.fit hf) hv hw, taskRecord_programStatus, Nat.mod_mod]
  case post =>
    refine ⟨_, advancePc (counted s (aloneUse 2) t), exec_post h he hz hu, taskAt_setTask_same _ _, rfl, ?posts, ?fmem, fun r i j h1 h2 h3 => ?regs⟩
    case posts =>
      show (raise _ _ _).sch.posts = _
      rw [sch_raise, issued_frame]
    case fmem =>
      show (raise _ _ _).fmem = _
      rw [fmem_raise, issued_frame]
    case regs =>
      rw [rd_setTask, (eventOnly_raise _ _ _).regs r i j h1 h2 h3]
      exact (charged_silent k (aloneUse 2) t s).regs r i j h1 h2 h3

/-! ## SPAWN (R83, R93, R94) -/

section Counted

variable {s : State} (us : Use) (t : Task) (d : List W32)

theorem spawnDesc_counted (o : Nat) : spawnDesc (counted s us t) o = spawnDesc t o := rfl
theorem childDesc_counted : childDesc (counted s us t) d = childDesc t d := rfl
theorem pureChild_counted : pureChild (counted s us t) d = pureChild t d := rfl
theorem ctx_counted : (counted s us t).ctx = t.ctx := rfl
theorem undoable_counted : undoable (counted s us t) = undoable t := rfl

end Counted

section Slots

variable {s : State} (k : Nat) (us : Use) (t : Task)

theorem nextSlot_issued : nextSlot (issued k us t s) = nextSlot s := by
  rw [issued_frame]
  rfl

theorem slotQuotaHit_issued (c : Nat) : slotQuotaHit (issued k us t s) c = slotQuotaHit s c := by
  rw [issued_frame]
  rfl

theorem progSnap_issued (n : Nat) : progSnap (issued k us t s) n = progSnap s n := by
  rw [issued_frame]
  rfl

end Slots

/-- A pure child, or any child of a task that may have side effects, parks no task. -/
theorem spawn_unparked {t : Task} {d : List W32} (hpure : undoable t = false ∨ pureChild t d = true) :
    (undoable t && !pureChild t d) = false := by
  rcases hpure with hu | hp
  · rw [hu, Bool.false_and]
  · rw [hp, Bool.not_true, Bool.and_false]

/-- The parent after SPAWN: its child in `slot` has the next ordinal. -/
def spawnParent (f : F) (slot id : Nat) (t : Task) : Task :=
  advancePc (setS f.d (BitVec.ofNat 32 (t.children.length + 1))
    { t with children := t.children ++ [(t.children.length + 1, slot, id)] })

theorem slot_spawnParent (f : F) (slot id : Nat) (t : Task) : (spawnParent f slot id t).slot = t.slot := by
  unfold spawnParent setS
  split <;> rfl

theorem spawnParent_counted (s : State) (us : Use) (f : F) (slot id : Nat) (t : Task) :
    spawnParent f slot id (counted s us t) = { t with pc := t.pc + 8, steps := t.steps + 1, was := none, cycles := (counted s us t).cycles,
                                                      front := (counted s us t).front, children := t.children ++ [(t.children.length + 1, slot, id)],
                                                      sregs := (spawnParent f slot id t).sregs } := by
  unfold spawnParent setS
  split <;> rfl

section Spawn

variable {s : State} {k : Nat} {t : Task} {f : F}

theorem infoOf_natCast (v : W32) : infoOf (v.toNat : Int) = v := by
  rw [infoOf, BitVec.ofInt_natCast, BitVec.ofNat_toNat, BitVec.setWidth_eq]

/-- SPAWN raises an exception of its body. -/
theorem spawn_terminates (h : Ready s k t) (he : Enabled t f) (hz : f.imm = 0) (hf : TasksFit s) {code : Nat} {info : W32}
    (hc : code ≠ 7 ∧ code ≠ 8 ∧ code ≠ 11 ∧ code < 64)
    (hb : spawnBody f (issued k (aloneUse 8) t s) (counted s (aloneUse 8) t) = .exc ⟨code, info⟩) :
    Terminates s t (.spawn k f) 1 code info := by
  refine terminates_of_exc h hf (exec_spawn k f s) (immZero_true hz) hc ?_
  rw [maskOf_counted, he, if_pos rfl, hb]

theorem spawnBody_misaligned (hal : (sreg t f.a).toNat % 32 ≠ 0) :
    spawnBody f (issued k (aloneUse 8) t s) (counted s (aloneUse 8) t) = .exc ⟨3, sreg t f.a⟩ := by
  unfold spawnBody
  simp only [sreg_counted]
  rw [checkElems_align _ _ _ (by omega), infoOf_natCast]

variable (hal : (sreg t f.a).toNat % 32 = 0)

include hal

theorem spawnBody_outside (hout : t.prog.scratch < (sreg t f.a).toNat + 32) :
    spawnBody f (issued k (aloneUse 8) t s) (counted s (aloneUse 8) t) = .exc ⟨4, sreg t f.a⟩ := by
  have hin : within (counted s (aloneUse 8) t).prog.scratch 32 ((sreg t f.a).toNat : Int) = false :=
    within_32.trans (decide_eq_false (Nat.not_le.mpr hout))
  unfold spawnBody
  simp only [sreg_counted]
  rw [checkElems_fault _ _ _ (by omega) hin, infoOf_natCast]

variable (hin : (sreg t f.a).toNat + 32 ≤ t.prog.scratch)

include hin

/-- The descriptor of SPAWN stands aligned in the scratch area. -/
theorem checkElems_spawn : checkElems [((sreg t f.a).toNat : Int)] 32 (within (counted s (aloneUse 8) t).prog.scratch 32) = none :=
  checkElems_one ⟨by omega, within_32.trans (decide_eq_true hin)⟩

variable {d : List W32} (hd : d = childDesc t (spawnDesc t (sreg t f.a).toNat))

include hd

theorem spawnBody_refused (hbad : descBad s d t.ctx = true) :
    spawnBody f (issued k (aloneUse 8) t s) (counted s (aloneUse 8) t) = .exc ⟨1, t.pc⟩ := by
  unfold spawnBody
  simp only [sreg_counted, checkElems_spawn hal hin, spawnDesc_counted, childDesc_counted, ← hd, descBad_issued]
  exact if_pos hbad

variable (hok : descBad s d t.ctx = false) (hpure : undoable t = false ∨ pureChild t d = true)

include hok hpure

/-- Without a free slot the task waits, and the step that issue has counted is taken back. -/
theorem spawnBody_waits (hno : nextSlot s = none ∨ slotQuotaHit s t.ctx = true) :
    spawnBody f (issued k (aloneUse 8) t s) (counted s (aloneUse 8) t) =
      .gone (setTask { counted s (aloneUse 8) t with st := .waiting, saved := true, steps := t.steps, spill := t.lastCore.map (fun q => q / 8) }
        (issued k (aloneUse 8) t s)) := by
  have hnone : (if slotQuotaHit s t.ctx = true then none else nextSlot s) = none := by
    rcases hno with hn | hq
    · rw [hn, ite_self]
    · rw [if_pos hq]
  unfold spawnBody
  simp only [sreg_counted, checkElems_spawn hal hin, spawnDesc_counted, childDesc_counted, ← hd, descBad_issued, undoable_counted,
    pureChild_counted, ctx_counted, slotQuotaHit_issued, nextSlot_issued, hok, spawn_unparked hpure, hnone, Bool.false_eq_true, if_false]
  rfl

/-- With one, the child is created in it and the parent goes on. -/
theorem spawnBody_creates {slot : Nat} (hslot : nextSlot s = some slot) (hq : slotQuotaHit s t.ctx = false) :
    spawnBody f (issued k (aloneUse 8) t s) (counted s (aloneUse 8) t) =
      .keep (createTask d t.ctx (childEpoch t d) (progSnap s (dProg d)) none (some t.id) slot (issued k (aloneUse 8) t s))
        (spawnParent f slot (issued k (aloneUse 8) t s).sch.nextId (counted s (aloneUse 8) t)) := by
  have hsome : (if slotQuotaHit s t.ctx = true then none else nextSlot s) = some slot := by
    rw [hq, if_neg Bool.false_ne_true, hslot]
  unfold spawnBody
  simp only [sreg_counted, checkElems_spawn hal hin, spawnDesc_counted, childDesc_counted, ← hd, descBad_issued, undoable_counted,
    pureChild_counted, ctx_counted, slotQuotaHit_issued, nextSlot_issued, progSnap_issued, hok, spawn_unparked hpure, hsome,
    Bool.false_eq_true, if_false]
  rfl

end Spawn

/-- Settles O32. -/
theorem spawnCreatesAChild : Obligations.SpawnCreatesAChild := by
  intro s k t f d h he hz hd
  refine ⟨fun hf => ⟨fun hal => ?misaligned, fun hal => ⟨fun hout => ?outside, fun hin hbad => ?refused⟩⟩,
    fun hal hin hok hpure => ⟨fun slot hslot hq hne hctx => ?creates, fun hno => ?waits⟩⟩
  case misaligned => exact spawn_terminates h he hz hf (by decide) (spawnBody_misaligned hal)
  case outside => exact spawn_terminates h he hz hf (by decide) (spawnBody_outside hal hout)
  case refused => exact spawn_terminates h he hz hf (by decide) (spawnBody_refused hal hin hd hbad)
  case creates =>
    have hx := (taskOp_runs h he hz (cyc := 8) (spawnBody f)).trans (congrArg _ (spawnBody_creates hal hin hd hok hpure hslot hq))
    obtain ⟨⟨u, hu, hnew⟩, hothers⟩ := createTask_at d t.ctx (childEpoch t d) (progSnap s (dProg d)) none (some t.id) slot
      (issued k (aloneUse 8) t s)
    have hpar := slot_spawnParent f slot (issued k (aloneUse 8) t s).sch.nextId (counted s (aloneUse 8) t)
    have hid : u.id = (issued k (aloneUse 8) t s).sch.nextId := congrArg Task.id hnew
    refine ⟨_, spawnParent f slot (issued k (aloneUse 8) t s).sch.nextId (counted s (aloneUse 8) t), u,
      (exec_spawn k f s).trans (congrArg _ hx), ?parent, ?child, fun q hqs hqt => ?others, fun r => sreg_setS _ _ _ _, ?rest,
      congrArg Task.desc hnew, ?ctx, congrArg Task.parent hnew, congrArg Task.epoch hnew, congrArg Task.firm hnew,
      congrArg Task.pc hnew, congrArg Task.prog hnew⟩
    case parent =>
      rw [show t.slot = _ from hpar.symm]
      exact taskAt_setTask_same _ _
    case child => exact (taskAt_setTask_ne _ _ (hpar ▸ hne)).trans hu
    case others =>
      exact (taskAt_setTask_ne _ _ (hpar ▸ hqt)).trans ((hothers q hqs).trans (taskAt_congr (issued_tasks k _ t s) q))
    case rest =>
      rw [hid, spawnParent_counted]
    case ctx => exact (congrArg Task.ctx hnew).trans (Nat.mod_eq_of_lt hctx)
  case waits =>
    have hx := (taskOp_runs h he hz (cyc := 8) (spawnBody f)).trans (congrArg _ (spawnBody_waits hal hin hd hok hpure hno))
    exact ⟨_, _, (exec_spawn k f s).trans (congrArg _ hx), onlyTask_keep k (aloneUse 8) s t _ rfl, rfl⟩

/-! ## CANCEL (R84, R105, R106) -/

section Cancel

variable {s : State} {k : Nat} {t u : Task} {f : F}

theorem cancelTarget_issued (us us' : Use) (x : W32) : cancelTarget (issued k us t s) (counted s us' t) x = cancelTarget s t x := by
  rw [issued_frame]
  rfl

/-- A task whose record waits for its ring is cancelled no more. -/
theorem cancelTask_finishing (hu : u.finishing ≠ none) : cancelTask u s = s :=
  if_pos (Option.isSome_iff_ne_none.mpr hu)

variable (h : Ready s k t) (he : Enabled t f) (hz : f.imm = 0) (hund : undoable t = false)

include h he hz hund

theorem exec_cancel_none (ht : cancelTarget s t (sreg t f.a) = none) :
    exec (.cancel k f) s = .next (setTask (advancePc (counted s (aloneUse 2) t)) (issued k (aloneUse 2) t s)) := by
  refine congrArg Host.Outcome.next ((taskOp_runs h he hz _).trans ?_)
  simp only [undoable_counted, hund, sreg_counted, cancelTarget_issued, ht, Bool.false_eq_true, if_false]
  rfl

theorem exec_cancel_other (ht : cancelTarget s t (sreg t f.a) = some u) (hne : u.slot ≠ t.slot) :
    exec (.cancel k f) s = .next (setTask (advancePc (counted s (aloneUse 2) t)) (cancelTask u (issued k (aloneUse 2) t s))) := by
  refine congrArg Host.Outcome.next ((taskOp_runs h he hz _).trans ?_)
  simp only [undoable_counted, hund, sreg_counted, cancelTarget_issued, ht, Bool.false_eq_true, if_false]
  rw [if_neg (show u.slot ≠ (counted s (aloneUse 2) t).slot from hne)]
  rfl

theorem exec_cancel_self (ht : cancelTarget s t (sreg t f.a) = some u) (hs : u.slot = t.slot) :
    exec (.cancel k f) s = .next (cancelTask (advancePc (counted s (aloneUse 2) t)) (issued k (aloneUse 2) t s)) := by
  refine congrArg Host.Outcome.next ((taskOp_runs h he hz _).trans ?_)
  simp only [undoable_counted, hund, sreg_counted, cancelTarget_issued, ht, Bool.false_eq_true, if_false]
  rw [if_pos (show u.slot = (counted s (aloneUse 2) t).slot from hs)]
  rfl

end Cancel

/-- Settles O33: the task itself, named by its own handle, ends as it runs. -/
theorem cancelEndsTheNamedTask : Obligations.CancelEndsTheNamedTask := by
  intro s k t f h he hz hund
  refine ⟨fun hno => ?noEffect, fun hf u status ht hlive hst => ?ends⟩
  case noEffect =>
    rcases hno with ht | ⟨u, ht, hne, hfin⟩
    · exact goesOn_keep (us := aloneUse 2) rfl (exec_cancel_none h he hz hund ht)
    · exact goesOn_keep (us := aloneUse 2) rfl ((exec_cancel_other h he hz hund ht hne).trans (by rw [cancelTask_finishing hfin]; rfl))
  case ends =>
    subst hst
    have hsil := charged_silent k (aloneUse 2) t s
    by_cases hs : u.slot = t.slot
    · obtain rfl : u = t := Option.some.inj ((cancelTarget_at hf ht).symm.trans (hs ▸ slot_at hf h.running))
      obtain ⟨hslot, hctx⟩ := taskOn_fit hf h.running
      have hend := hsil.ended (cancelBy_ended u.st (advancePc (counted s (aloneUse 2) u)) _ (hsil.fit hf) hslot hctx hlive)
      exact ⟨_, exec_cancel_self h he hz hund ht hs, hend, fun hne => absurd hs hne⟩
    · have hat := cancelTarget_at hf ht
      obtain ⟨hslot, hlt, hctx⟩ := hf.2.1 _ (map_find_mem _ _ _ hat)
      have hend := hsil.ended (cancelBy_ended u.st u _ (hsil.fit hf) hlt hctx hlive)
      exact ⟨_, exec_cancel_other h he hz hund ht hs, ended_setTask hend hs, fun _ => ⟨_, taskAt_setTask_same _ _, rfl⟩⟩

end Sys2Proof.Machine

/-!
The branches (O35) and the system instructions (O36).
-/

namespace Sys2Proof.Machine

/-! ## Branches (R86, R87, Table 3-14) -/

section Compare

variable (a b : W32)

theorem slt_iff : a.slt b = true ↔ a.toInt < b.toInt := by rw [BitVec.slt_eq_decide, decide_eq_true_eq]

theorem not_slt_iff : (!a.slt b) = true ↔ b.toInt ≤ a.toInt := by
  rw [Bool.not_eq_true', ← Bool.not_eq_true, slt_iff, not_lt]

theorem ult_iff : a.ult b = true ↔ a.toNat < b.toNat := by rw [BitVec.ult_eq_decide, decide_eq_true_eq]

theorem not_ult_iff : (!a.ult b) = true ↔ b.toNat ≤ a.toNat := by
  rw [Bool.not_eq_true', ← Bool.not_eq_true, ult_iff, not_lt]

end Compare

section Direct

variable {s : State} {k : Nat} {t : Task} {f : F} (h : Ready s k t) (hd : f.d = 0)

include h hd

/-- A compare branch is taken where its compare holds and its predicate lets it go. -/
theorem branchesOn_cmp {op : Nat} {i : Instr} {c : Prop} (hx : exec i s = .next (cmpBranch k f op s))
    (hc : branchCmp op (sreg t f.a) (sreg t f.b) = true ↔ c) : BranchesOn s t i f.imm (c ∧ (f.p = 0 ∨ maskOf t f ≠ 0)) := by
  refine branchesOn_of h (beq_iff_eq.mpr hd) _ hx (fun _ => rfl) ?_
  rw [Bool.and_eq_true, hc, braTaken, predRuns_iff, and_comm]

/-- A branch on the predicate alone. -/
theorem branchesOn_pred (ha : f.a = 0) (hb : f.b = 0) {cond : Task → Bool} {i : Instr} {c : Prop}
    (hx : exec i s = .next (directBranch k f (f.d == 0 && f.a == 0 && f.b == 0) false cond s))
    (hm : ∀ u, cond (counted u (branchUse f) t) = cond t) (hc : cond t = true ↔ c) : BranchesOn s t i f.imm c :=
  branchesOn_of h (by simp [hd, ha, hb]) cond hx hm hc

end Direct

/-- Settles O35: compares and predicates decide the direct branches, and the indirect ones share one rule. -/
theorem branches : Obligations.Branches := by
  intro s k t f h
  refine ⟨fun hd => ⟨?compares, fun ha hb => ?predicates, fun hb hz => ?jr⟩,
    fun hd hb => ⟨fun ha => ?call, fun hz => ?callr⟩⟩
  case compares =>
    simp only [List.mem_cons, Prod.mk.injEq, List.not_mem_nil, or_false]
    rintro i c (⟨rfl, rfl⟩ | ⟨rfl, rfl⟩ | ⟨rfl, rfl⟩ | ⟨rfl, rfl⟩ | ⟨rfl, rfl⟩ | ⟨rfl, rfl⟩)
    · exact branchesOn_cmp h hd rfl beq_iff_eq
    · exact branchesOn_cmp h hd rfl bne_iff_ne
    · exact branchesOn_cmp h hd rfl (slt_iff _ _)
    · exact branchesOn_cmp h hd rfl (not_slt_iff _ _)
    · exact branchesOn_cmp h hd rfl (ult_iff _ _)
    · exact branchesOn_cmp h hd rfl (not_ult_iff _ _)
  case predicates =>
    simp only [List.mem_cons, Prod.mk.injEq, List.not_mem_nil, or_false]
    rintro i c (⟨rfl, rfl⟩ | ⟨rfl, rfl⟩ | ⟨rfl, rfl⟩ | ⟨rfl, rfl⟩)
    · exact branchesOn_pred h hd ha hb rfl (fun _ => rfl) (predRuns_iff t f)
    · exact branchesOn_pred h hd ha hb rfl (fun _ => rfl) bne_iff_ne
    · exact branchesOn_pred h hd ha hb rfl (fun _ => rfl) beq_iff_eq
    · exact branchesOn_pred h hd ha hb rfl (fun _ => rfl) beq_iff_eq
  case jr => exact indirect_goes h (by simp [hd, hb, immZero, hz]) false rfl
  case call =>
    obtain ⟨htaken, hnot⟩ := directBranch_goes h (by simp [hd, ha, hb]) true (braTaken f) (i := .call k f) rfl (fun _ => rfl)
    exact ⟨htaken, fun he => hnot (Bool.eq_false_iff.mpr he)⟩
  case callr => exact indirect_goes h (by simp [hd, hb, immZero, hz]) true rfl

/-! ## System instructions (R23, R48, R88, R89, R366) -/

/-- Under p0 every lane is active. -/
theorem pbit_maskOf_p0 {t : Task} {f : F} (hp : f.p = 0) {l : Nat} (hl : l < 16) : pbit (maskOf t f) l = true := by
  have hall : ∀ i < 16, pbit 0xFFFF i = true := by decide
  rw [maskOf, hp]
  exact hall l hl

section System

variable {s : State} {k : Nat} {t : Task} {f : F} (hb : f.b = 0) (hp : f.p = 0)

include hb hp

theorem sysZero_true : sysZero f = true := by simp [sysZero, hb, hp]

variable (h : Ready s k t)

include h

theorem goesOn_nop (hd : f.d = 0) (ha : f.a = 0) (hz : f.imm = 0) : GoesOn s t (.nop k f) (t.pc + 8) t :=
  goesOn_of h (us := aloneUse 1) (t' := advancePc (counted s (aloneUse 1) t)) (by simp [sysZero_true hb hp, hd, ha, immZero, hz]) rfl rfl rfl rfl

/-- A register that Table 2-3 does not list. -/
theorem cr_unlisted (hf : TasksFit s) (hn : f.imm.toNat = 0x12 ∨ f.imm.toNat = 0x13 ∨ 0x18 ≤ f.imm.toNat) :
    ∀ i ∈ [Instr.crr k f, .vcrr k f], Terminates s t i 1 1 t.pc := by
  have hnone := crValue_none t _ hn
  simp only [List.forall_mem_cons, List.not_mem_nil, false_implies, implies_true, and_true]
  refine ⟨terminates_of_exc h hf rfl (sysZero_true hb hp) (by decide) ?_, terminates_of_exc h hf rfl (sysZero_true hb hp) (by decide) ?_⟩
  all_goals
    rw [crValue_counted, hnone]
    rfl

/-- cr.lane: a scalar read gives 16, and a vector read gives each lane its number. -/
theorem cr_lane (hi : f.imm = 0x0A) : WritesScalar s t (.crr k f) f.d 16 ∧
    WritesVector s t (.vcrr k f) f f.d.toNat (fun l => BitVec.ofNat 32 l) := by
  have hn : f.imm.toNat = 10 := by rw [hi]; rfl
  have hv : crValue t f.imm.toNat = some 16 := by rw [hn]; rfl
  have htimed : crTimed f.imm.toNat t s = s := by rw [hn]; rfl
  have hscalar := crr_ok h hb hp hv
  obtain ⟨s', t', hx, honly, hlane, ht⟩ := vcrr_ok h hb hp hv
  rw [htimed] at hscalar honly
  refine ⟨hscalar, s', t', hx, honly, fun q l hl => ?_, ht⟩
  rw [hlane q l hl, if_pos hn]
  simp only [pbit_maskOf_p0 hp hl, and_true]

end System

/-- Settles O36. -/
theorem systemInstructions : Obligations.SystemInstructions := by
  intro s k t f h hb hp
  refine ⟨goesOn_nop hb hp h, fun v hv => ?listed, cr_lane hb hp h, cr_unlisted hb hp h, ?fence, fun hu h8 => ?cntAdd⟩
  case listed =>
    obtain ⟨hval, hne⟩ := crValue_listed hv
    obtain ⟨s', t', hx, honly, hlane, ht⟩ := vcrr_ok h hb hp hval
    refine ⟨crr_ok h hb hp hval, s', t', hx, honly, fun q l hl => ?_, ht⟩
    rw [hlane q l hl, if_neg hne]
  case fence => exact fence_ok h (sysZero_true hb hp)
  case cntAdd => exact cntAdd_ok h (sysZero_true hb hp) h8 hu

end Sys2Proof.Machine

/-!
The scheduler: the state after reset is sound (O41), every step keeps a sound state sound (O42), and the works of the
scheduler (O51).
-/

namespace Sys2Proof.Machine

/-! ## Sound states -/

/-- A cold start from memories in canonical form is sound: the register file and the task table that it begins with are empty. -/
theorem coldStart_sound {fmem hmem : List Host.Cell} (hf : memWf fmem = true) (hh : memWf hmem = true) (m : Member)
    (pending : List Instr) (otp : Map W32) (fns : List Nat) (pwr : Pwr) (retained : Option Bool) (free : Nat) :
    Sound (State.coldStart m pending fmem hmem otp fns pwr retained free) where
  fmem := hf
  hmem := hh
  regs := rfl
  tasks := ⟨rfl, List.forall_mem_nil _, List.forall_mem_nil _⟩

/-- Settles O41. -/
theorem resetIsSound : Obligations.ResetIsSound := coldStart_sound rfl rfl ..

/-- Settles O42: the step is a cycle on an empty queue, and else the command at the front of the queue; the laws of both
keep a sound state sound. -/
theorem stepKeepsSound : Obligations.StepKeepsSound := by
  intro s t hs hstep
  unfold step at hstep
  cases hq : s.pending with
  | nil =>
    rw [hq] at hstep
    cases hstep
    exact (within_tick (μ := allBits) rfl (Within.refl s)).sound hs
  | cons c rest =>
    rw [hq] at hstep
    exact exec_sound hstep (sound_of (s := s) rfl rfl rfl rfl rfl hs)

/-! ## The scheduler -/

/-- Settles O51, clause by clause from the laws of the scheduler. -/
theorem schedulerWorks : Obligations.SchedulerWorks := by
  intro s hs
  refine ⟨fun k u hen hquiet hk hopen hidle hu hlow => ?dispatch, fun slot u hat => ?placed, fun slot hslot => ?created,
    ctx_disables hs, core_time⟩
  case dispatch =>
    obtain ⟨-, hready, hcand, haffine, hfree⟩ := choose_is hu
    exact ⟨hready, hcand, haffine, hfree, dispatches hs.tasks k u hen hquiet hk hopen hidle hu hlow⟩
  case placed => exact ⟨affinity_ends hs.tasks hat, rebinds hs.tasks hat, cancels hs.tasks hat⟩
  case created => exact ⟨tile_created hslot, task_recreated hslot, kicks hslot⟩

end Sys2Proof.Machine

/-!
The Vat and Glaze (O52).
-/

namespace Sys2Proof.Machine

/-- Settles O52, clause by clause: the canvas's commit, stalls, copies, enable, disable and VAT_CMD from the laws of the Vat;
frame instants; segments, windows, cuts and the Mordant window from the laws of Glaze. -/
theorem vatAndGlazeWork : Obligations.VatAndGlazeWork := by
  intro s fn c hc
  refine ⟨commits c hc, stall_releases c, copies_end c, fun v u hw hu => ⟨?enable, ?disable⟩, fun hw => ?vatCmd,
    frame_instants, segments, fun e w left hwin hleft => ?window, mordant⟩
  case enable => exact canvas_starts hc v u hw hu
  case disable => exact canvas_stops hc v hw
  case vatCmd => exact ⟨squashes hc hw, pins hc hw, unpins hc hw, wakes_rest hc hw⟩
  case window => exact ⟨windows_end c e w left hwin hleft, plane_cuts c e w hwin⟩

end Sys2Proof.Machine

/-!
The endpoints (O53): what the endpoint engine queues on ports, the endpoint table and views, kill groups, blackout, LATCH, sACN
and DMX, STAT and lost nodes, and the clauses of O53 put together from these laws.
-/

namespace Sys2Proof.Machine

/-! ## Frames queued on ports (R390) -/

/-- The registers and the member, by which a port sends or not, are as before. -/
structure Steady (s u : State) : Prop where
  regs : u.regs = s.regs
  member : u.member = s.member

theorem Steady.trans {s u t : State} (a : Steady s u) (b : Steady u t) : Steady s t :=
  ⟨b.regs.trans a.regs, b.member.trans a.member⟩

theorem Steady.portSends {s u : State} (h : Steady s u) (p : Nat) : portSends u p = portSends s p := by
  unfold Machine.portSends
  rw [h.member, on_congr h.regs, on_congr h.regs]

/-- Time that passes leaves alone what the ports send by. -/
theorem steady_advance (t : W64) (s : State) : Steady s (advance t s) := ⟨advance_regs t s, by rw [advance_frame]⟩

theorem advance_prt (t : W64) (s : State) : (advance t s).prt = s.prt := by rw [advance_frame]

theorem advance_vat (t : W64) (s : State) : (advance t s).vat = s.vat := by rw [advance_frame]

theorem advance_epg (t : W64) (s : State) : (advance t s).epg = s.epg := by rw [advance_frame]

/-- A record of the journal does not change which ports send. -/
theorem Noted.portSends {s x : State} (h : Noted s x) (p : Nat) : portSends x p = portSends s p := by
  have hm : x.member = s.member := by rw [h.frame]
  unfold Machine.portSends
  rw [hm, h.on fld.macCtrl.EN _ _ (by decide), h.on fld.t1sCtrl.EN _ _ (by decide)]

/-- From `s` to `t` a port's queue has one more frame at its end, with a property. -/
def OneMore (P : QFrame → Prop) (p : Nat) (s t : State) : Prop := ∃ f, (portOf t p).queue = (portOf s p).queue ++ [f] ∧ P f

/-- A port's queue is the same list in states with the same ports. -/
theorem OneMore.of_prt {P : QFrame → Prop} {p : Nat} {s t u : State} (h : OneMore P p s t) (e : s.prt = u.prt) : OneMore P p u t := by
  obtain ⟨f, hq, hf⟩ := h
  exact ⟨f, by rw [hq, portOf_prt e], hf⟩

section Enqueue

variable {f : QFrame} {s : State} {p : Nat}

theorem queue_enqueue (f : QFrame) (h : portSends s p = true) : (portOf (enqueue p f s) p).queue = (portOf s p).queue ++ [f] := by
  rw [enqueue, if_pos h]
  exact congrArg Port.queue (portOf_setPort p _ s)

/-- A frame that no TX ring waits for changes the ports alone. -/
theorem enqueue_frame (hf : ∀ n u, frameEnds f n u = u) (p : Nat) (s : State) :
    enqueue p f s = { s with prt := (enqueue p f s).prt } := by
  unfold enqueue
  split
  · rfl
  · rw [hf]

theorem portOf_enqueue_ne (hf : ∀ n u, frameEnds f n u = u) {q : Nat} (h : q ≠ p) : portOf (enqueue p f s) q = portOf s q := by
  unfold enqueue
  split
  · exact map_get_put_ne _ _ _ h
  · rw [hf]

theorem steady_enqueue (hf : ∀ n u, frameEnds f n u = u) (p : Nat) {u : State} (h : Steady u s) : Steady u (enqueue p f s) :=
  h.trans ⟨by rw [enqueue_frame hf], by rw [enqueue_frame hf]⟩

end Enqueue

/-- A list of sends, each on a port of its own: every port that sends gets its one frame. -/
theorem queue_forEach {α : Type} {g : α → State → State} {port : α → Nat} {P : QFrame → Prop} {s : State} {p : Nat}
    (steady : ∀ a u, Steady u (g a u)) (others : ∀ a u q, q ≠ port a → portOf (g a u) q = portOf u q)
    (adds : ∀ a u, port a = p → Steady s u → OneMore P p u (g a u))
    (xs : List α) (hn : (xs.map port).Nodup) (hp : p ∈ xs.map port) : OneMore P p s (forEach xs g s) := by
  have all : ∀ u, Steady s u → OneMore P p u (forEach xs g u) := by
    induction xs with
    | nil => simp at hp
    | cons a xs ih =>
      intro u hu
      obtain ⟨hnew, hn⟩ := List.nodup_cons.mp hn
      by_cases h : port a = p
      · obtain ⟨f, hq, hf⟩ := adds a u h hu
        have rest : portOf (forEach xs g (g a u)) p = portOf (g a u) p :=
          forEach_all' (P := fun t => portOf t p = portOf (g a u) p) xs
            (fun b hb t ht => (others b t p (fun e => hnew (h ▸ e ▸ List.mem_map_of_mem hb))).trans ht) _ rfl
        exact ⟨f, (congrArg Port.queue rest).trans hq, hf⟩
      · obtain ⟨f, hq, hf⟩ := ih hn ((List.mem_cons.mp hp).resolve_left (Ne.symm h)) (g a u) (hu.trans (steady a u))
        exact ⟨f, hq.trans (by rw [others a u p (Ne.symm h)]), hf⟩
  exact all s ⟨rfl, rfl⟩

/-! ## What the endpoint registers keep -/

/-- The registers of the endpoint table, the views, the kill groups and the engine's status. -/
def endpointRegs : List RegId := [.etabWord, .viewBase, .viewN, .kg, .epErr, .epEvent]

section EnterChange

variable (k : InKey) (value buf : W32) (g : ATarget) (s : State)

/-- A change that enters the input log leaves the endpoint registers, the endpoint engine and outward time alone. -/
theorem within_endpoints_enterChange : Within (outside endpointRegs [.epg, .ot]) s (enterChange k value buf g s) :=
  within_enterChange k value buf g (by decide +kernel) (Within.refl s)

theorem rd_enterChange {r : RegId} (hr : r ∈ endpointRegs) (i j : Nat) : rd (enterChange k value buf g s) r i j = rd s r i j :=
  (within_endpoints_enterChange k value buf g s).reg r (by revert r; decide +kernel) i j

theorem enterChange_epg : (enterChange k value buf g s).epg = s.epg :=
  (within_endpoints_enterChange k value buf g s).part .epg (by decide +kernel)

theorem enterChange_ot : (enterChange k value buf g s).ot = s.ot :=
  (within_endpoints_enterChange k value buf g s).part .ot (by decide +kernel)

end EnterChange

section EpEvent

variable (bit ev detail : Nat) (s : State)

theorem hasBit_epEvent (h : bit < 9) : hasBit (epEvent bit ev detail s) fld.epEvent.EP_EVENT bit = true := by
  rw [epEvent, hasBit_rd (rd_raise ev detail _ _ 0 0 (by decide) (by decide) (by decide))]
  exact hasBit_setBit _ _ _ _ _ (by decide) h

/-- An event of the endpoint engine leaves every other register alone but those of rings and of the host. -/
theorem rd_epEvent {r : RegId} (hr : r ∉ [RegId.epEvent, .ringTail, .ringStatus, .hostStatus]) (i j : Nat) :
    rd (epEvent bit ev detail s) r i j = rd s r i j := by
  simp only [List.mem_cons, List.not_mem_nil, or_false, not_or] at hr
  obtain ⟨h1, h2, h3, h4⟩ := hr
  rw [epEvent, rd_raise _ _ _ _ _ _ h2 h3 h4]
  exact rd_setBit_reg _ _ _ _ _ _ _ _ h1

theorem epEvent_epg : (epEvent bit ev detail s).epg = s.epg := by rw [epEvent, raise_epg, setBit_epg]

theorem epEvent_ot : (epEvent bit ev detail s).ot = s.ot := by rw [epEvent, raise_ot, setBit_ot]

theorem counter_epEvent {n : Nat} (h1 : n ≠ Cnt.evtDrop.ctorIdx) (h2 : n ≠ Cnt.poison.ctorIdx) :
    counter (epEvent bit ev detail s) n = counter s n := by
  rw [epEvent, counter_raise _ _ _ _ h1 h2]
  exact counter_congr (setBit_cnt _ _ _ _ _) n

end EpEvent

/-! ## The endpoint table (R173, R175) -/

/-- A write that takes effect, with the record that an active twin journals. -/
theorem hostWrite_journals {s : State} {fn : Nat} {r : RegId} {i j : Nat} (h : Writable s fn r i j) (v : W32) (effect : State → State) :
    ∃ x, Journaled s x ∧ hostWrite fn r i j v effect s = effect x := by
  unfold hostWrite
  dsimp only
  rw [h.known, h.up, if_neg (by simp), if_neg, h.present, if_neg (by simp), h.quiet, if_neg (by simp), if_neg, if_neg]
  · split
    · exact ⟨_, journaled_journal _ _ s, rfl⟩
    · exact ⟨s, ⟨fun _ _ _ _ => rfl, rfl, rfl, rfl⟩, rfl⟩
  · rcases h.active with e | e <;> simp [e]
  · rcases h.safe with e | e <;> simp [e]
  · rcases h.may with e | e <;> simp [e]

/-- Table 7-2 has no reason above 8 for an entry. -/
theorem entryReason_le (s : State) (m : Map W32) (e : Nat) : entryReason s m e ≤ 8 := by
  unfold entryReason
  extract_lets
  split
  · decide
  · split_ifs <;> decide

theorem etabWord_key_ne {e q k j : Nat} (h : q ≠ e) (hk : k < 16) (hj : j < 16) : RegId.etabWord.key q k ≠ RegId.etabWord.key e j := by
  have n2 : RegId.etabWord.desc.n2 = 16 := rfl
  rw [RegId.key, RegId.key, n2]
  omega

/-- The words of other entries are as before when an entry is published. -/
theorem rd_publishEntry_ne (m : Map W32) (s : State) {e q k : Nat} (hq : q ≠ e) (hk : k < 16) :
    rd (publishEntry e m s) .etabWord q k = rd s .etabWord q k := by
  have words : rd (forEach (List.range 16) (fun k u => wr .etabWord (entryWord k (Map.get (fun _ => 0) m (16 * e + k))) u e k) s)
      .etabWord q k = rd s .etabWord q k := by
    refine forEach_all' (P := fun u => rd u .etabWord q k = rd s .etabWord q k) _ (fun j hj u hu => ?_) s rfl
    rw [rd_wr_key _ _ _ _ _ _ _ _ (etabWord_key_ne hq hk (List.mem_range.mp hj)), hu]
  unfold publishEntry
  extract_lets was t p u
  have hu : rd u .etabWord q k = rd s .etabWord q k := by
    have marked : ∀ p, rd (setEp e p t) .etabWord q k = rd s .etabWord q k :=
      fun p => (rd_congr (setEp_regs e p t) .etabWord q k).trans words
    unfold u
    split
    · exact marked _
    · exact words
  split
  · rw [rd_etabChange, hu]
  · exact hu

/-- A write of word 0 publishes the staged words, or is refused with its reason (R175). -/
theorem publishWord0_is {s x : State} (hx : Journaled s x) (e : Nat) (v : W32) {m : Map W32} {why : Nat} (hm : m = stagedEntry s e v)
    (hwhy : why = if eValid m e then entryReason s m e else 0) : publishWord0 e v x = if why = 0 then publishEntry e m x
      else epEvent 8 61 e (put fld.epErr.ERR_REASON why (put fld.epErr.ERR_ENTRY e x)) := by
  subst hm hwhy
  simp only [publishWord0, hx.staged, hx.reason]

/-- A word of an entry but word 0 is staged: nothing is published. -/
theorem stages_word {s : State} {fn e k : Nat} (v : W32) (he : e < 131072) (h0 : 0 < k) (hk : k < 16) (h : Writable s fn .etabWord e k) :
    ∃ t, exec (.etabStageWrite fn e k v) s = .next t ∧ Map.get (fun _ => 0) t.epg.stage (16 * e + k) = v ∧
      (∀ q j, rd t .etabWord q j = rd s .etabWord q j) ∧
      ∀ n, n ≠ 16 * e + k → Map.get (fun _ => 0) t.epg.stage n = Map.get (fun _ => 0) s.epg.stage n := by
  obtain ⟨x, hx, hw⟩ := hostWrite_journals h v (etabWordWrite e k v)
  have he' : etabWordWrite e k v x = { x with epg := { x.epg with stage := Map.set (fun _ => 0) x.epg.stage (16 * e + k) v } } :=
    if_neg (by omega)
  have hin : ¬ (decide (131072 ≤ e) || decide (k = 0) || decide (16 ≤ k)) = true := by
    simp only [Bool.or_eq_true, decide_eq_true_eq]
    omega
  refine ⟨etabWordWrite e k v x, ?_, ?_, fun q j => ?_, fun n hn => ?_⟩
  · rw [← hw]
    exact if_neg hin
  · rw [he']
    exact map_get_set_same _ _ _ _
  · rw [he']
    exact hx.reg .etabWord q j (by decide)
  · rw [he', ← hx.epg]
    exact map_get_set_ne _ _ _ hn

theorem publishes_entry {s : State} {fn e why : Nat} {v : W32} {m : Map W32} (he : e < 131072) (h : Writable s fn .etabWord e 0)
    (hm : m = stagedEntry s e v) (hwhy : why = if eValid m e then entryReason s m e else 0) :
    ∃ t, exec (.etabPublish fn e v) s = .next t ∧
      (why = 0 → (∀ k, k < 16 → rd t .etabWord e k =
          entryWord k (if k = 0 then v else Map.get (fun _ => 0) s.epg.stage (16 * e + k))) ∧
        ∀ q, q ≠ e → ∀ k, k < 16 → rd t .etabWord q k = rd s .etabWord q k) ∧
      (why ≠ 0 → (∀ q k, rd t .etabWord q k = rd s .etabWord q k) ∧ get t fld.epErr.ERR_REASON = why ∧
        get t fld.epErr.ERR_ENTRY = e ∧ hasBit t fld.epEvent.EP_EVENT 8 = true) := by
  obtain ⟨x, hx, hw⟩ := hostWrite_journals h v (etabWordWrite e 0 v)
  have word0 : etabWordWrite e 0 v x = publishWord0 e v x := if_pos rfl
  have hp := word0.trans (publishWord0_is hx e v hm hwhy)
  refine ⟨etabWordWrite e 0 v x, ?_, fun h0 => ?published, fun h0 => ?refused⟩
  · rw [← hw]
    exact if_neg (by omega)
  case published =>
    rw [hp, if_pos h0]
    refine ⟨fun k hk => ?_, fun q hq k hk => ?_⟩
    · rw [publishEntry_word e m x k hk, hm, get_staged s e v k hk]
    · rw [rd_publishEntry_ne m x hq hk, hx.reg .etabWord q k (by decide)]
  case refused =>
    have hle : why ≤ 8 := by
      rw [hwhy]
      split
      · exact entryReason_le s m e
      · exact Nat.zero_le _
    rw [hp, if_neg h0]
    refine ⟨fun q k => ?_, ?_, ?_, hasBit_epEvent _ _ _ _ (by decide)⟩
    · rw [rd_epEvent _ _ _ _ (by decide), rd_put_reg _ _ _ _ _ _ _ _ (by decide), rd_put_reg _ _ _ _ _ _ _ _ (by decide),
        hx.reg .etabWord q k (by decide)]
    · rw [get_of_rd (f := fld.epErr.ERR_REASON) (rd_epEvent _ _ _ _ (by decide) _ _), get_put_same _ _ _ _ _ (by decide)]
      exact Nat.mod_eq_of_lt (by simp only [fld.epErr.ERR_REASON]; omega)
    · rw [get_of_rd (f := fld.epErr.ERR_ENTRY) (rd_epEvent _ _ _ _ (by decide) _ _),
        get_put_fld fld.epErr.ERR_REASON fld.epErr.ERR_ENTRY _ _ _ _ rfl (by decide) (by decide), get_put_same _ _ _ _ _ (by decide)]
      exact Nat.mod_eq_of_lt (by simp only [fld.epErr.ERR_ENTRY]; omega)

/-! ## Views and table bases (R174, R207) -/

theorem Alike.viewClash {u y : State} (h : Alike u y) (c b n : Nat) : viewClash y c b n = viewClash u c b n := by
  unfold Machine.viewClash
  simp only [h.get fld.viewBase.VIEW_BASE _ _ (by decide), h.get fld.viewN.VIEW_N _ _ (by decide)]

theorem writes_view {s u : State} {fn c : Nat} {isN : Bool} {v : W32} {r : RegId} (hc : c < 128)
    (hr : r = if isN then RegId.viewN else .viewBase) (h : Writable s fn r c 0) (hpf : isPf fn = true) (hu : u = plainWrite true r c 0 v s) :
    ∃ t, exec (.viewWrite fn c isN v) s = .next t ∧
      rd t r c = if viewClash u c (get u fld.viewBase.VIEW_BASE c) (get u fld.viewN.VIEW_N c) then rd s r c else rd u r c := by
  have hreg : r ∈ endpointRegs ∧ r ≠ .jseqTx := by rw [hr]; cases isN <;> decide
  obtain ⟨x, hx, hw⟩ := hostWrite_of h v (viewEffect (isPf fn) c isN v)
  have alike : Alike u (plainWrite true r c 0 v x) := by
    rw [hu, ← hpf, plainWrite, plainWrite, mergeWrite_noted hx fn r hreg.2]
    exact alike_wr hx r _ c 0 hreg.2
  refine ⟨viewEffect (isPf fn) c isN v x, ?_, ?_⟩
  · rw [← hw, hr]
    exact if_neg (by omega)
  · unfold viewEffect
    rw [hpf, ← hr]
    dsimp only
    rw [alike.viewClash, alike.get _ _ _ (by decide), alike.get _ _ _ (by decide), Bool.not_true, Bool.false_or]
    split
    · exact hx.reg r c 0 hreg.2
    · exact (rd_enterChange _ _ _ _ _ hreg.1 c 0).trans (alike.reg r c 0 hreg.2)

theorem writes_tableBase {s : State} {fn : Nat} {st : Bool} {v : W32} {r : RegId} (hr : r = if st then RegId.stblBase else .drvBase)
    (h : Writable s fn r 0 0) : ∃ t, exec (.tableBaseWrite fn st v) s = .next t ∧
      ((v = 0 ∨ ∃ a ∈ s.hst.allocs, a.base * 4096 = v.toNat ∧
          (if st then endpoints s.member * 32 / 1048576 else 1) ≤ a.size) → rd t r = v) ∧
      (¬ (v = 0 ∨ ∃ a ∈ s.hst.allocs, a.base * 4096 = v.toNat ∧
          (if st then endpoints s.member * 32 / 1048576 else 1) ≤ a.size) → rd t r = rd s r ∧
        get t fld.epErr.ERR_REASON = 9 ∧ hasBit t fld.epEvent.EP_EVENT 8 = true) := by
  obtain ⟨x, hx, hw⟩ := hostWrite_of h v (baseWrite st v)
  have hallocs : x.hst.allocs = s.hst.allocs := by rw [hx.frame]
  have hmember : x.member = s.member := by rw [hx.frame]
  have hreg : r ≠ .jseqTx ∧ r ≠ .epErr ∧ r ∉ [RegId.epEvent, .ringTail, .ringStatus, .hostStatus] := by rw [hr]; cases st <;> decide
  obtain ⟨hj, herr, hev⟩ := hreg
  have hb : baseWrite st v x = if v = 0 ∨ ∃ a ∈ s.hst.allocs, a.base * 4096 = v.toNat ∧
      (if st then endpoints s.member * 32 / 1048576 else 1) ≤ a.size then wr r v x
      else epEvent 8 61 0 (put fld.epErr.ERR_REASON 9 (put fld.epErr.ERR_ENTRY 0 x)) := by
    simp only [baseWrite, hallocs, hmember, hr, Bool.or_eq_true, decide_eq_true_eq, List.any_eq_true, Bool.and_eq_true, beq_iff_eq]
  refine ⟨baseWrite st v x, ?_, fun hok => ?_, fun hbad => ?_⟩
  · rw [← hw, hr]
    rfl
  · rw [hb, if_pos hok]
    exact rd_wr_same _ _ _ _ _
  · rw [hb, if_neg hbad]
    refine ⟨?_, ?_, hasBit_epEvent _ _ _ _ (by decide)⟩
    · rw [rd_epEvent _ _ _ _ hev, rd_put_reg _ _ _ _ _ _ _ _ herr, rd_put_reg _ _ _ _ _ _ _ _ herr, hx.reg r 0 0 hj]
    · rw [get_of_rd (f := fld.epErr.ERR_REASON) (rd_epEvent _ _ _ _ (by decide) _ _), get_put_same _ _ _ _ _ (by decide)]
      rfl

/-! ## Drive kicks, faults and kill groups (R192, R194, R197 to R201) -/

theorem kicks_drive {s : State} {fn : Nat} (v : W32) (h : Writable s fn .epDrvKick 0 0) :
    ∃ t, exec (.drvKick fn v) s = .next t ∧ ∀ c, c < 64 → (c, v.toNat % 8192) ∈ t.epg.kicks := by
  obtain ⟨x, -, hw⟩ := hostWrite_of h v (kickWrite (v.toNat % 8192))
  refine ⟨_, congrArg Host.Outcome.next hw, fun c hc => ?_⟩
  by_cases hk : (c, v.toNat % 8192) ∈ x.epg.kicks
  · exact List.mem_append_left _ hk
  · exact List.mem_append_right _ (List.mem_filter.mpr ⟨List.mem_map.mpr ⟨c, List.mem_range.mpr hc, rfl⟩, by simpa using hk⟩)

theorem epOf_epg {s t : State} (h : t.epg = s.epg) (e : Nat) : epOf t e = epOf s e := by unfold epOf; rw [h]

theorem epOf_setEp (e : Nat) (x : EpSt) (s : State) (q : Nat) : epOf (setEp e x s) q = if q = e then x else epOf s q := by
  by_cases h : q = e
  · rw [if_pos h, h]
    exact map_get_put_same _ _ _ _
  · rw [if_neg h]
    exact map_get_put_ne _ _ _ h

theorem epOf_setEpTelem (e : Nat) (x : EpSt) (s : State) : epOf (setEpTelem e x s) e = x := by
  have he : epOf (setEp e x s) e = x := by rw [epOf_setEp, if_pos rfl]
  unfold setEpTelem
  dsimp only
  split
  · exact he
  · rw [epOf_epg (enterChange_epg _ _ _ _ _), he]

/-- After FLT_CLR no string of the endpoint is a FAULT, and every other state stays. -/
theorem strs_faultsToUnproven (e : Nat) (s : State) :
    (epOf (faultsToUnproven e s) e).strs = (epOf s e).strs.map (fun y => (y.1, if y.2 = 2 then 1 else y.2)) := by
  unfold faultsToUnproven
  dsimp only
  split
  case isTrue => rw [epOf_setEpTelem]
  case isFalse hno =>
    have same : ∀ y ∈ (epOf s e).strs, (y.1, if y.2 = 2 then 1 else y.2) = y := by
      intro y hy
      have : y.2 ≠ 2 := fun h2 => hno (List.any_eq_true.mpr ⟨y, hy, by simp [h2]⟩)
      rw [if_neg this]
    exact ((List.map_congr_left same).trans (List.map_id _)).symm

theorem clears_faults {s : State} {fn : Nat} {v : W32} {e : Nat} (h : Writable s fn .epFltClr 0 0) (he : e = v.toNat % 131072) :
    ∃ t, exec (.fltClr fn v) s = .next t ∧
      (epOf t e).strs = (epOf s e).strs.map (fun y => (y.1, if y.2 = 2 then 1 else y.2)) := by
  subst he
  obtain ⟨x, hx, hw⟩ := hostWrite_of h v (faultsToUnproven (v.toNat % 131072))
  have hepg : x.epg = s.epg := by rw [hx.frame]
  exact ⟨_, congrArg Host.Outcome.next hw, by rw [strs_faultsToUnproven, epOf_epg hepg]⟩

theorem killGroup_kills (g : Nat) (s : State) : on (killGroup g s) fld.kg.KILLED g = true := by
  unfold killGroup
  split
  case isTrue h => exact h
  case isFalse =>
    rw [on_of_rd (f := fld.kg.KILLED) (rd_enterChange _ _ _ _ _ (by decide) g 0), on_raise _ _ _ _ _ _ (by decide) (by decide) (by decide),
      on_of_rd (f := fld.kg.KILLED) (rd_bump _ _ _ g 0), on_put_same _ _ _ _ _ (by decide) (by decide)]
    rfl

/-- A kill raises an event and enters its change; the endpoint engine and outward time are as before. -/
theorem killGroup_leaves (g : Nat) (s : State) : (killGroup g s).epg = s.epg ∧ (killGroup g s).ot = s.ot ∧
    ∀ i j, rd (killGroup g s) .epEvent i j = rd s .epEvent i j := by
  unfold killGroup
  split
  · exact ⟨rfl, rfl, fun _ _ => rfl⟩
  · refine ⟨?_, ?_, fun i j => ?_⟩
    · rw [enterChange_epg, raise_epg, bump_epg, put_epg]
    · rw [enterChange_ot, raise_ot, bump_ot, put_ot]
    · rw [rd_enterChange _ _ _ _ _ (by decide), rd_raise _ _ _ _ _ _ (by decide) (by decide) (by decide), rd_bump,
        rd_put_reg _ _ _ _ _ _ _ _ (by decide)]

theorem clearGroup_clears (g : Nat) (s : State) : on (clearGroup g s) fld.kg.KILLED g = false := by
  unfold clearGroup
  extract_lets u es
  have hu : on u fld.kg.KILLED g = false := by
    unfold u
    split
    case isTrue =>
      rw [on_of_rd (f := fld.kg.KILLED) (rd_enterChange _ _ _ _ _ (by decide) g 0), on_put_same _ _ _ _ _ (by decide) (by decide)]
      rfl
    case isFalse h => exact Bool.eq_false_iff.mpr h
  rw [← hu]
  refine on_of_rd (f := fld.kg.KILLED) (rd_of_forEach (fun e y => ?_) es u)
  exact (within_faultsToUnproven e (μ := outside [.kg] []) (by decide +kernel) (Within.refl y)).reg .kg (by decide +kernel) g 0

theorem writes_killGroup {s : State} {fn g : Nat} (v : W32) (h0 : 0 < g) (hg : g < 4096) (h : Writable s fn .kg g 0) :
    (v.toNat / 2 ^ 10 % 2 = 1 → ∃ t, exec (.force fn g v) s = .next t ∧ on t fld.kg.KILLED g = true) ∧
    (v.toNat / 2 ^ 9 % 2 = 1 → v.toNat / 2 ^ 10 % 2 = 0 → ∃ t, exec (.clear fn g v) s = .next t ∧ on t fld.kg.KILLED g = false) := by
  obtain ⟨x, -, hw⟩ := hostWrite_of h v (kgWrite (isPf fn) g v)
  have hin : ¬ (decide (g = 0) || decide (4096 ≤ g)) = true := by simp; omega
  refine ⟨fun hforce => ⟨kgWrite (isPf fn) g v x, ?_, ?_⟩, fun hclear hforce => ⟨kgWrite (isPf fn) g v x, ?_, ?_⟩⟩
  · rw [← hw]
    exact if_neg hin
  · rw [kgWrite, if_pos hforce]
    exact killGroup_kills g _
  · rw [← hw]
    exact if_neg hin
  · rw [kgWrite, if_neg (by omega), if_pos hclear]
    exact clearGroup_clears g _

/-! ## Blackout (R205) -/

/-- TIME of a HOLD: the next whole millisecond. -/
def holdTime (s : State) : W64 := BitVec.ofNat 64 ((s.ot.toNat / 1000000 + 1) * 1000000)

/-- The payload of a HOLD (Table 7-14). -/
def holdPayload (s : State) : List Byte := beBytes 2 (get s fld.epHold.HOLD_MS) ++ [BitVec.ofNat 8 (get s fld.epHold.POLICY), 0]

/-- A frame is a HOLD of class 5 with its flags, time and payload; SEQ is free. -/
def IsHold (blank : Bool) (time : W64) (payload : List Byte) (f : QFrame) : Prop :=
  f.cls = 5 ∧ ∃ q, f.bytes = enpMessage 0x05 (if blank then 2 else 0) 0xFF 0 0xFFFFFFFF q time payload

/-- HOLD changes the ports and consumes free values: nothing while EP_CTRL.EN = 0. -/
theorem sendHold_frame (blank : Bool) (s : State) : ∃ P n, sendHold blank s = { s with prt := P, free := n } ∧
    (on s fld.epCtrl.EN = false → P = s.prt) := by
  cases hen : on s fld.epCtrl.EN with
  | false => exact ⟨s.prt, s.free, by rw [sendHold, hen]; rfl, fun _ => rfl⟩
  | true =>
    have loop : ∃ P n, sendHold blank s = { s with prt := P, free := n } := by
      rw [sendHold, hen]
      refine forEach_all (P := fun u => ∃ P n, u = { s with prt := P, free := n }) (fun p u hu => ?_) _ s ⟨s.prt, s.free, rfl⟩
      obtain ⟨P, n, rfl⟩ := hu
      exact ⟨_, _, enqueue_frame (fun _ _ => rfl) p _⟩
    obtain ⟨P, n, h⟩ := loop
    exact ⟨P, n, h, fun hf => Bool.noConfusion hf⟩

theorem sendHold_queues (blank : Bool) {s : State} {p : Nat} (hen : on s fld.epCtrl.EN = true) (hp : p < 32) (hs : portSends s p = true) :
    OneMore (IsHold blank (holdTime s) (holdPayload s)) p s (sendHold blank s) := by
  rw [sendHold, hen]
  refine queue_forEach (port := fun p => p) ?steady ?others ?adds _ ?distinct ?listed
  case steady => exact fun a u => steady_enqueue (s := draw u) (fun _ _ => rfl) a ⟨rfl, rfl⟩
  case others => exact fun a u q hq => portOf_enqueue_ne (s := draw u) (fun _ _ => rfl) hq
  case adds =>
    intro a u ha hu
    subst ha
    exact ⟨_, queue_enqueue (s := draw u) _ ((hu.portSends a).trans hs), rfl, _, rfl⟩
  case distinct => rw [List.map_id']; exact List.nodup_range
  case listed => rw [List.map_id']; exact List.mem_range.mpr hp

/-- EP_BLACKOUT written: ON takes bit 0, which starts the repeats at the next 100 ms, and a HOLD goes to all nodes. -/
theorem blackoutWrite_is {s x : State} (hx : Noted s x) (v : W32) {now : Bool} (hv : (v.toNat % 2 == 1) = now) :
    on (blackoutWrite v x) fld.epBlackout.BLACKOUT_ON = now ∧
    (now = true → (blackoutWrite v x).epg.blackAt = BitVec.ofNat 64 ((s.ot.toNat / 100000000 + 1) * 100000000)) ∧
    (on s fld.epCtrl.EN = false → (blackoutWrite v x).prt = s.prt) ∧
    (on s fld.epCtrl.EN = true → ∀ p, p < 32 → portSends s p = true →
      OneMore (IsHold now (holdTime s) (holdPayload s)) p s (blackoutWrite v x)) := by
  have hot : x.ot = s.ot := by rw [hx.frame]
  have hprt : x.prt = s.prt := by rw [hx.frame]
  have hmember : x.member = s.member := by rw [hx.frame]
  unfold blackoutWrite
  extract_lets n y e z
  have hn : n = now := hv
  clear_value n
  subst hn
  have hz : z = { y with epg := z.epg } ∧ (n = true → z.epg.blackAt = BitVec.ofNat 64 ((s.ot.toNat / 100000000 + 1) * 100000000)) := by
    unfold z
    split
    · exact ⟨rfl, fun _ => by rw [← hot]; rfl⟩
    · exact ⟨rfl, fun h => absurd h ‹_›⟩
  obtain ⟨zy, hblack⟩ := hz
  clear_value z
  have zr : z.regs = y.regs := by rw [zy]
  have zon : on z fld.epBlackout.BLACKOUT_ON = n := by
    rw [on_congr zr, ← hv]
    exact on_put_same _ _ _ _ _ (by decide) (Nat.mod_lt _ (by decide))
  have zget : ∀ f : Fld, f.reg ≠ .jseqTx → f.reg ≠ .epBlackout → ∀ i j, get z f i j = get s f i j := fun f h1 h2 i j => by
    rw [get_congr zr, get_put_reg _ _ _ _ _ _ _ _ h2, hx.get f i j h1]
  have zprt : z.prt = s.prt := by rw [zy, ← hprt]; rfl
  have zot : z.ot = s.ot := by rw [zy, ← hot]; rfl
  have zmember : z.member = s.member := by rw [zy, ← hmember]; rfl
  have zen : on z fld.epCtrl.EN = on s fld.epCtrl.EN := congrArg (· == 1) (zget _ (by decide) (by decide) _ _)
  have zsends : ∀ p, portSends z p = portSends s p := fun p => by
    simp only [portSends, on, zmember, zget fld.macCtrl.EN (by decide) (by decide), zget fld.t1sCtrl.EN (by decide) (by decide)]
  have zpay : holdPayload z = holdPayload s := by
    simp only [holdPayload, zget fld.epHold.HOLD_MS (by decide) (by decide), zget fld.epHold.POLICY (by decide) (by decide)]
  have ztime : holdTime z = holdTime s := by rw [holdTime, zot, holdTime]
  obtain ⟨P, m, hframe, hquiet⟩ := sendHold_frame n z
  refine ⟨?_, fun h => ?_, fun h => ?_, fun h p hp hs => ?_⟩
  · rw [hframe]
    exact zon
  · rw [hframe]
    exact hblack h
  · rw [hframe, ← zprt]
    exact hquiet (zen.trans h)
  · rw [← zpay, ← ztime]
    exact (sendHold_queues n (zen.trans h) hp ((zsends p).trans hs)).of_prt zprt

/-- A HOLD on a port, as the obligation spells it. -/
theorem OneMore.spell_hold {blank : Bool} {time : W64} {pay : List Byte} {p : Nat} {s t : State} (h : OneMore (IsHold blank time pay) p s t) :
    ∃ f q, (portOf t p).queue = (portOf s p).queue ++ [f] ∧ f.cls = 5 ∧
      f.bytes = enpMessage 0x05 (if blank then 2 else 0) 0xFF 0 0xFFFFFFFF q time pay := by
  obtain ⟨f, hq, hc, q, hb⟩ := h
  exact ⟨f, q, hq, hc, hb⟩

theorem writes_blackout {s : State} {fn : Nat} (h : Writable s fn .epBlackout 0 0) :
    (∃ t, exec (.blackoutOn fn) s = .next t ∧ on t fld.epBlackout.BLACKOUT_ON = true ∧
        t.epg.blackAt = BitVec.ofNat 64 ((s.ot.toNat / 100000000 + 1) * 100000000) ∧
        (on s fld.epCtrl.EN = false → t.prt = s.prt) ∧
        (on s fld.epCtrl.EN = true → ∀ p, p < 32 → portSends s p = true → ∃ f q, (portOf t p).queue = (portOf s p).queue ++ [f] ∧ f.cls = 5 ∧
          f.bytes = enpMessage 0x05 2 0xFF 0 0xFFFFFFFF q (holdTime s) (holdPayload s))) ∧
      (∃ t, exec (.blackoutOff fn) s = .next t ∧ on t fld.epBlackout.BLACKOUT_ON = false ∧
        (on s fld.epCtrl.EN = false → t.prt = s.prt) ∧
        (on s fld.epCtrl.EN = true → ∀ p, p < 32 → portSends s p = true → ∃ f q,
          (portOf t p).queue = (portOf s p).queue ++ [f] ∧ f.cls = 5 ∧
          f.bytes = enpMessage 0x05 0 0xFF 0 0xFFFFFFFF q (holdTime s) (holdPayload s))) := by
  constructor
  · obtain ⟨x, hx, hw⟩ := hostWrite_of h 1 (blackoutWrite 1)
    obtain ⟨hon, hat, hquiet, hsend⟩ := blackoutWrite_is hx 1 (now := true) rfl
    exact ⟨_, congrArg Host.Outcome.next hw, hon, hat rfl, hquiet, fun hen p hp hs => (hsend hen p hp hs).spell_hold⟩
  · obtain ⟨x, hx, hw⟩ := hostWrite_of h 0 (blackoutWrite 0)
    obtain ⟨hon, -, hquiet, hsend⟩ := blackoutWrite_is hx 0 (now := false) rfl
    exact ⟨_, congrArg Host.Outcome.next hw, hon, hquiet, fun hen p hp hs => (hsend hen p hp hs).spell_hold⟩

theorem repeats_blackout {s : State} (hon : on s fld.epBlackout.BLACKOUT_ON = true) :
    ∃ t, exec .blackoutRepeat s = .next t ∧ t.ot = timeAt s s.epg.blackAt ∧
      t.epg.blackAt = s.epg.blackAt + 100000000 ∧ (on s fld.epCtrl.EN = false → t.prt = s.prt) ∧
      (on s fld.epCtrl.EN = true → ∀ p, p < 32 → portSends s p = true → ∃ f, (portOf t p).queue = (portOf s p).queue ++ [f] ∧ f.cls = 5) := by
  obtain ⟨y, hex, hot, hnext, steady, hprt⟩ : ∃ y, exec .blackoutRepeat s = .next (sendHold true y) ∧ y.ot = timeAt s s.epg.blackAt ∧
      y.epg.blackAt = s.epg.blackAt + 100000000 ∧ Steady s y ∧ y.prt = s.prt := by
    let u := advance s.epg.blackAt s
    refine ⟨{ u with epg := { u.epg with blackAt := s.epg.blackAt + 100000000 } }, ?_, advance_ot s.epg.blackAt s, rfl,
      (steady_advance s.epg.blackAt s).trans ⟨rfl, rfl⟩, advance_prt s.epg.blackAt s⟩
    show execBlackoutRepeat s = _
    rw [execBlackoutRepeat, hon]
    rfl
  have hen : on y fld.epCtrl.EN = on s fld.epCtrl.EN := on_congr steady.regs _ _ _
  obtain ⟨P, n, hframe, hquiet⟩ := sendHold_frame true y
  refine ⟨sendHold true y, hex, ?_, ?_, fun h => ?_, fun h p hp hs => ?_⟩
  · rw [hframe]
    exact hot
  · rw [hframe]
    exact hnext
  · rw [hframe, ← hprt]
    exact hquiet (hen.trans h)
  · obtain ⟨f, hq, hc, -⟩ := (sendHold_queues true (hen.trans h) hp ((steady.portSends p).trans hs)).of_prt hprt
    exact ⟨f, hq, hc⟩

/-! ## sACN: a universe that stops (R203) -/

/-- From `s` to `t` universe `u` has sent `n` packets on its port: frames of class 4 at the end of the queue, with their sequence
numbers taken, while the record's control word and what the port sends by are as before. -/
structure SentUniv (u p n : Nat) (s t : State) : Prop where
  ctrl : rd t .univCtrl u 0 = rd s .univCtrl u 0
  sends : portSends t p = portSends s p
  queue : ∃ fs, (portOf t p).queue = (portOf s p).queue ++ fs ∧ fs.length = n ∧ ∀ f ∈ fs, f.cls = 4
  seq : get t fld.univSeq.SEQ u = (get s fld.univSeq.SEQ u + n) % 256

theorem SentUniv.none (u p : Nat) (s : State) : SentUniv u p 0 s s :=
  ⟨rfl, rfl, ⟨[], (List.append_nil _).symm, rfl, by simp⟩, (Nat.mod_eq_of_lt (get_lt s fld.univSeq.SEQ u 0)).symm⟩

/-- What a data packet glazes and counts leaves alone. -/
theorem within_endpoints_noteGlazed (c : Nat) (e : W32) (items : List (Nat × (Nat × Nat))) (s : State) :
    Within (outside [.univCtrl, .univSeq, .macCtrl, .t1sCtrl] [.prt, .member]) s (noteGlazed c e items s) :=
  within_noteGlazed c e items (by decide +kernel) (Within.refl s)

/-- A data packet is one frame of class 4 on the universe's port, with the next sequence number. -/
theorem sentUniv_sendUniv (u c slot : Nat) (ep : W32) (opts : Byte) {s : State} {p : Nat} (hp : get s fld.univCtrl.PORT u = p)
    (hs : portSends s p = true) : SentUniv u p 1 s (sendUniv u c slot ep opts s) := by
  unfold sendUniv
  extract_lets seq sync items bytes d launch y
  have w := within_endpoints_noteGlazed c ep items (put fld.univSeq.SEQ seq (wakeMem s) u)
  have yr : ∀ r ∈ [RegId.univCtrl, .macCtrl, .t1sCtrl], ∀ i j, rd y r i j = rd s r i j := by
    intro r hr i j
    have hr' : (outside [.univCtrl, .univSeq, .macCtrl, .t1sCtrl] [.prt, .member]).testBit r.num = false ∧ r ≠ .univSeq := by
      revert r
      decide +kernel
    rw [w.reg r hr'.1 i j, rd_put_reg _ _ _ _ _ _ _ _ hr'.2]
    exact rd_congr (wakeMem_regs s) r i j
  have yprt : y.prt = s.prt := w.part .prt (by decide +kernel)
  have ymember : y.member = s.member := w.part .member (by decide +kernel)
  have yseq : get y fld.univSeq.SEQ u = seq := by
    rw [get_of_rd (f := fld.univSeq.SEQ) (w.reg .univSeq (by decide +kernel) _ _), get_put_same _ _ _ _ _ (by decide)]
    exact Nat.mod_eq_of_lt (Nat.mod_lt _ (by decide))
  have yport : get y fld.univCtrl.PORT u = p := by
    rw [← hp]
    exact get_of_rd (yr _ (by decide) _ _)
  have ysends : portSends y p = portSends s p := by
    unfold portSends
    rw [ymember, on_of_rd (f := fld.macCtrl.EN) (yr _ (by decide) _ _), on_of_rd (f := fld.t1sCtrl.EN) (yr _ (by decide) _ _)]
  clear_value y
  rw [yport]
  generalize hz : ({ y with epg := _ } : State) = z
  generalize hf : (⟨4, launch, .sacn c ep, some d, bytes, frameLen d bytes.length, 0, false, false⟩ : QFrame) = f
  have zsends : portSends z p = true := by
    rw [← hs, ← ysends, ← hz]
    rfl
  have zf : ∀ n t, frameEnds f n t = t := by
    rw [← hf]
    exact fun _ _ => rfl
  have steady : Steady y (enqueue p f z) := steady_enqueue zf p (by rw [← hz]; exact ⟨rfl, rfl⟩)
  refine ⟨?_, (steady.portSends p).trans ysends, ⟨[f], ?_, rfl, ?_⟩, ?_⟩
  · rw [rd_congr steady.regs, yr _ (by decide)]
  · rw [queue_enqueue f zsends, ← portOf_prt yprt p, ← hz]
    rfl
  · simp [← hf]
  · rw [get_congr steady.regs, yseq]

/-- More packets follow those sent: `n` on a port that still sends, then one more. -/
theorem SentUniv.next {u p n : Nat} {s t v : State} (a : SentUniv u p n s t) (b : SentUniv u p 1 t v) : SentUniv u p (n + 1) s v := by
  obtain ⟨fs, hq, hn, hc⟩ := a.queue
  obtain ⟨gs, hq', hn', hc'⟩ := b.queue
  refine ⟨b.ctrl.trans a.ctrl, b.sends.trans a.sends, ⟨fs ++ gs, by rw [hq', hq, List.append_assoc], by simp [hn, hn'], ?_⟩, ?_⟩
  · simp only [List.mem_append]
    exact fun f hf => hf.elim (hc f) (hc' f)
  · rw [b.seq, a.seq, Nat.mod_add_mod, Nat.add_assoc]

/-- Packets of one universe sent one after the other. -/
theorem sentUniv_forEach {u p : Nat} {s : State} (hp : get s fld.univCtrl.PORT u = p) (hs : portSends s p = true) {α : Type}
    (c : Nat) (slot : State → Nat) (ep : State → W32) (opts : Byte) (xs : List α) :
    SentUniv u p xs.length s (forEach xs (fun _ t => sendUniv u c (slot t) (ep t) opts t) s) := by
  have more : ∀ n t, SentUniv u p n s t →
      SentUniv u p (n + xs.length) s (forEach xs (fun _ t => sendUniv u c (slot t) (ep t) opts t) t) := by
    induction xs with
    | nil => exact fun _ _ h => h
    | cons x xs ih =>
      intro n t h
      rw [List.length_cons, ← Nat.add_assoc, Nat.add_right_comm]
      exact ih (n + 1) _ (h.next (sentUniv_sendUniv u c _ _ opts ((get_of_rd (f := fld.univCtrl.PORT) h.ctrl).trans hp) (h.sends.trans hs)))
  have := more 0 s (SentUniv.none u p s)
  rwa [Nat.zero_add] at this

/-- A write of a universe's control word depends on the old word alone. -/
theorem mergeWrite_univCtrl {s t : State} {u : Nat} (h : rd t .univCtrl u 0 = rd s .univCtrl u 0) (pf : Bool) (v : W32) :
    mergeWrite t pf .univCtrl u 0 v = mergeWrite s pf .univCtrl u 0 v := by
  unfold mergeWrite
  rw [h]
  rfl

theorem terminates_stream {s : State} {fn u p : Nat} {v : W32} (hu : u < 8192) (h : Writable s fn .univCtrl u 0)
    (hrun : on s fld.univCtrl.EN u = true) (hstop : v.toNat / 2 ^ 22 % 2 = 0) (hen : on s fld.epCtrl.EN = true)
    (hp : p = get s fld.univCtrl.PORT u) (hs : portSends s p = true) : ∃ t fs, exec (.streamTerminated fn u v) s = .next t ∧
      (portOf t p).queue = (portOf s p).queue ++ fs ∧ fs.length = 3 ∧ (∀ f ∈ fs, f.cls = 4) ∧
      get t fld.univSeq.SEQ u = (get s fld.univSeq.SEQ u + 3) % 256 ∧
      rd t .univCtrl u = rd (plainWrite (isPf fn) .univCtrl u 0 v s) .univCtrl u := by
  obtain ⟨x, hx, hw⟩ := hostWrite_of h v (univWrite (isPf fn) u v)
  have hprt : x.prt = s.prt := by rw [hx.frame]
  generalize hy : ({ x with glz := { x.glz with work := x.glz.work.filter (fun g => g.via != .univ u) } } : State) = y
  have yx : y.regs = x.regs ∧ y.member = x.member ∧ y.prt = s.prt := by
    rw [← hprt, ← hy]
    exact ⟨rfl, rfl, rfl⟩
  obtain ⟨yregs, ymember, yprt⟩ := yx
  have yport : get y fld.univCtrl.PORT u = p := by rw [hp, get_congr yregs, hx.get _ _ _ (by decide)]
  have ysends : portSends y p = true := by rw [(Steady.mk yregs ymember).portSends, hx.portSends, hs]
  have yseq : get y fld.univSeq.SEQ u = get s fld.univSeq.SEQ u := by rw [get_congr yregs, hx.get _ _ _ (by decide)]
  have yctrl : rd y .univCtrl u 0 = rd s .univCtrl u 0 := by rw [rd_congr yregs, hx.reg _ _ _ (by decide)]
  have sent := sentUniv_forEach yport ysends (get x fld.univCtrl.CANVAS u) (fun t => get t fld.vatSlots.TX_SLOT (get x fld.univCtrl.CANVAS u))
    (fun t => txEp t (get x fld.univCtrl.CANVAS u)) 0x40 [0, 1, 2]
  generalize hz : forEach [0, 1, 2] (fun _ t => sendUniv u (get x fld.univCtrl.CANVAS u)
    (get t fld.vatSlots.TX_SLOT (get x fld.univCtrl.CANVAS u)) (txEp t (get x fld.univCtrl.CANVAS u)) 0x40 t) y = z at sent
  have hwrite : univWrite (isPf fn) u v x = plainWrite (isPf fn) .univCtrl u 0 v z := by
    unfold univWrite
    simp only [hx.on fld.univCtrl.EN _ _ (by decide), hrun, hx.on fld.epCtrl.EN _ _ (by decide), hen, hstop, beq_self_eq_true, Bool.and_self,
      if_true, hy, hz]
  obtain ⟨fs, hq, hn, hc⟩ := sent.queue
  refine ⟨univWrite (isPf fn) u v x, fs, ?_, ?_, hn, hc, ?_, ?_⟩
  · rw [← hw]
    exact if_neg (by omega)
  · rw [hwrite, ← portOf_prt yprt p, ← hq]
    rfl
  · rw [hwrite, plainWrite, get_wr_reg _ _ _ _ _ _ _ _ (by decide), sent.seq, yseq]
    rfl
  · rw [hwrite, plainWrite_rd, plainWrite_rd]
    exact mergeWrite_univCtrl (sent.ctrl.trans yctrl) _ _

/-! ## LATCH, the beacon and sACN synchronisation (R17, R182, R203) -/

/-- A LATCH of an epoch, launched at an instant. -/
def IsLatch (c : Nat) (e : W32) (launch : W64) (f : QFrame) : Prop := f.cls = 7 ∧ f.src = .enp 0x02 c e ∧ f.launch = launch

/-- LATCH changes the ports and the sequence numbers of LATCH alone. -/
theorem sendLatch_frame (c : Nat) (e : W32) (beacon : Bool) (launch : W64) (s : State) :
    ∃ P L, sendLatch c e beacon launch s = { s with prt := P, epg := { s.epg with latchSeq := L } } := by
  refine forEach_all (P := fun u => ∃ P L, u = { s with prt := P, epg := { s.epg with latchSeq := L } }) (fun x u hu => ?_) _ s
    ⟨s.prt, s.epg.latchSeq, rfl⟩
  obtain ⟨P, L, rfl⟩ := hu
  exact ⟨_, _, enqueue_frame (fun _ _ => rfl) x.1 _⟩

/-- The ports of a canvas's LATCH are distinct. -/
theorem nodup_latchPorts (m : Map W32) (c : Nat) : ((latchPorts m c).map (fun x => x.1)).Nodup := by
  rw [latchPorts, List.map_filterMap]
  refine List.nodup_range.filterMap fun p q r hp hq => ?_
  simp only [Option.map_map, Option.mem_def, Option.map_eq_some_iff, Function.comp_apply] at hp hq
  obtain ⟨-, -, rfl⟩ := hp
  obtain ⟨-, -, rfl⟩ := hq
  rfl

theorem sendLatch_queues {c : Nat} {e : W32} (beacon : Bool) (launch : W64) {s : State} {p : Nat} (hs : portSends s p = true)
    (hp : p ∈ (latchPorts (snapAt s c e).etab c).map (fun x => x.1)) :
    OneMore (IsLatch c e launch) p s (sendLatch c e beacon launch s) := by
  unfold sendLatch
  refine queue_forEach (port := fun x => x.1) ?steady ?others ?adds _ (nodup_latchPorts _ c) hp
  case steady => exact fun a u => steady_enqueue (fun _ _ => rfl) a.1 ⟨rfl, rfl⟩
  case others => exact fun a u q hq => portOf_enqueue_ne (fun _ _ => rfl) hq
  case adds =>
    intro a u ha hu
    subst ha
    exact ⟨_, queue_enqueue _ ((hu.portSends a.1).trans hs), rfl, rfl, rfl⟩

theorem snapAt_congr {s u : State} (hr : u.regs = s.regs) (hv : u.vat = s.vat) (c : Nat) (e : W32) : snapAt u c e = snapAt s c e := by
  unfold snapAt canvasOf publishedEtab currentViews
  simp only [hr, hv, rd_congr hr]

theorem latches {s : State} {c : Nat} {e : W32} {at_ : W64} (hc : canLatch s c = true) (he : e = txEp s c)
    (hnew : Map.find? s.epg.latched c ≠ some e) (hat : at_ = guardInst s c e) :
    ∃ t, exec (.latch c) s = .next t ∧ t.ot = timeAt s at_ ∧ Map.find? t.epg.latched c = some e ∧
      (mode s = 4 → t.prt = s.prt) ∧
      (mode s ≠ 4 → ∀ p, p < 32 → portSends s p = true → p ∈ (latchPorts (snapAt s c e).etab c).map (fun x => x.1) →
        ∃ f, (portOf t p).queue = (portOf s p).queue ++ [f] ∧ f.cls = 7 ∧ f.src = .enp 0x02 c e ∧ f.launch = at_) := by
  subst he hat
  let u := advance (guardInst s c (txEp s c)) s
  obtain ⟨y, hy, hex⟩ : ∃ y : State, y = { u with epg := { u.epg with latched := Map.put u.epg.latched c (txEp s c) } } ∧
      exec (.latch c) s = .next (if mode y = 4 then y else sendLatch c (txEp s c) false (guardInst s c (txEp s c)) y) := by
    refine ⟨_, rfl, ?_⟩
    show execLatch c s = _
    rw [execLatch, if_neg (by simp [hc, hnew])]
  have steady : Steady s y := hy ▸ (steady_advance _ s).trans ⟨rfl, rfl⟩
  have hprt : y.prt = s.prt := by rw [hy]; exact advance_prt _ s
  have hvat : y.vat = s.vat := by rw [hy]; exact advance_vat _ s
  have hot : y.ot = timeAt s (guardInst s c (txEp s c)) := by rw [hy]; exact advance_ot _ s
  have hput : Map.find? y.epg.latched c = some (txEp s c) := by rw [hy]; exact map_find_put_same _ _ _
  have hmode : mode y = mode s := get_congr steady.regs _ _ _
  rw [hmode] at hex
  refine ⟨_, hex, ?_⟩
  by_cases h4 : mode s = 4
  · rw [if_pos h4]
    exact ⟨hot, hput, fun _ => hprt, fun h => absurd h4 h⟩
  · rw [if_neg h4]
    obtain ⟨P, L, hframe⟩ := sendLatch_frame c (txEp s c) false (guardInst s c (txEp s c)) y
    refine ⟨by rw [hframe]; exact hot, by rw [hframe]; exact hput, fun h => absurd h h4, fun _ p _ hs hp => ?_⟩
    rw [← snapAt_congr steady.regs hvat] at hp
    exact (sendLatch_queues false _ ((steady.portSends p).trans hs) hp).of_prt hprt

/-- The state in which a beacon leaves: a second after the canvas's last one. -/
def beaconState (s : State) (c : Nat) : State :=
  match Map.find? s.epg.beaconAt c with
  | some b => advance (b + 1000000000) s
  | none => s

theorem beaconState_is (s : State) (c : Nat) : Steady s (beaconState s c) ∧ (beaconState s c).prt = s.prt ∧
    (beaconState s c).vat = s.vat ∧
    ∀ b, Map.find? s.epg.beaconAt c = some b → (beaconState s c).ot = timeAt s (b + 1000000000) := by
  unfold beaconState
  cases Map.find? s.epg.beaconAt c with
  | none => exact ⟨⟨rfl, rfl⟩, rfl, rfl, fun b h => (Option.some_ne_none b h.symm).elim⟩
  | some b => exact ⟨steady_advance _ s, advance_prt _ s, advance_vat _ s, fun b' h => by rw [← Option.some.inj h, advance_ot]⟩

theorem exec_beacon {s : State} {c : Nat} (hc : canLatch s c = true) (hmode : mode s = 4) (hrest : on s fld.canvasStatus.RESTING c = true) :
    exec (.beacon c) s = .next (sendLatch c (txEp (beaconState s c) c) true (beaconState s c).ot
      { beaconState s c with epg := { (beaconState s c).epg with
          beaconAt := Map.put (beaconState s c).epg.beaconAt c (beaconState s c).ot } }) := by
  show execBeacon c s = _
  rw [execBeacon, if_neg (by simp [hc, hmode, hrest])]
  rfl

theorem beacons {s : State} {c : Nat} {e : W32} (hc : canLatch s c = true) (he : e = txEp s c) (hmode : mode s = 4)
    (hrest : on s fld.canvasStatus.RESTING c = true) :
    ∃ t, exec (.beacon c) s = .next t ∧ Map.find? t.epg.beaconAt c = some t.ot ∧
      (∀ b, Map.find? s.epg.beaconAt c = some b → t.ot = timeAt s (b + 1000000000)) ∧
      ∀ p, p < 32 → portSends s p = true → p ∈ (latchPorts (snapAt s c e).etab c).map (fun x => x.1) →
        ∃ f, (portOf t p).queue = (portOf s p).queue ++ [f] ∧ f.cls = 7 ∧ f.src = .enp 0x02 c e := by
  subst he
  obtain ⟨steady, hprt, hvat, hot⟩ := beaconState_is s c
  have hex := exec_beacon hc hmode hrest
  generalize beaconState s c = u at steady hprt hvat hot hex
  have htx : txEp u c = txEp s c := rd_congr steady.regs _ _ _
  rw [htx] at hex
  generalize hy : ({ u with epg := { u.epg with beaconAt := Map.put u.epg.beaconAt c u.ot } } : State) = y at hex
  have hput : Map.find? y.epg.beaconAt c = some u.ot := by rw [← hy]; exact map_find_put_same _ _ _
  have yu : Steady s y ∧ y.prt = s.prt ∧ y.vat = s.vat ∧ y.ot = u.ot := by
    rw [← hy]
    exact ⟨steady.trans ⟨rfl, rfl⟩, hprt, hvat, rfl⟩
  obtain ⟨ysteady, yprt, yvat, yot⟩ := yu
  obtain ⟨P, L, hframe⟩ := sendLatch_frame c (txEp s c) true u.ot y
  refine ⟨_, hex, ?_, fun b hb => ?_, fun p _ hs hp => ?_⟩
  · rw [hframe]
    exact hput.trans (congrArg some yot.symm)
  · rw [hframe]
    exact yot.trans (hot b hb)
  · rw [← snapAt_congr ysteady.regs yvat] at hp
    obtain ⟨f, hq, hcls, hsrc, -⟩ := (sendLatch_queues true u.ot ((ysteady.portSends p).trans hs) hp).of_prt yprt
    exact ⟨f, hq, hcls, hsrc⟩

/-- The synchronisation packet of a canvas on a port, where a universe of it goes over that port. -/
def syncOn (us : List Nat) (sync c : Nat) (e : W32) (launch : W64) (p : Nat) (t : State) : State :=
  match us.find? (fun u => get t fld.univCtrl.PORT u == p) with
  | none => t
  | some u =>
    let key := 4096 + c * 32 + p
    let q := Map.get (fun _ => 0) t.epg.latchSeq key + 1
    let d := sacnDest t u sync (on t fld.univCtrl.V6 u)
    let bytes := sacnSyncPacket t sync q.toNat
    enqueue p ⟨7, launch, .sacn c e, some d, bytes, frameLen d bytes.length, 0, false, false⟩
      { t with epg := { t.epg with latchSeq := Map.put t.epg.latchSeq key q } }

section SyncOn

variable (us : List Nat) (sync c : Nat) (e : W32) (launch : W64) (p : Nat) (t : State)

theorem syncOn_frame : ∃ P L, syncOn us sync c e launch p t = { t with prt := P, epg := { t.epg with latchSeq := L } } := by
  unfold syncOn
  split
  · exact ⟨t.prt, t.epg.latchSeq, rfl⟩
  · exact ⟨_, _, enqueue_frame (fun _ _ => rfl) p _⟩

theorem portOf_syncOn_ne {q : Nat} (h : q ≠ p) : portOf (syncOn us sync c e launch p t) q = portOf t q := by
  unfold syncOn
  split
  · rfl
  · exact portOf_enqueue_ne (fun _ _ => rfl) h

variable {us p t}

theorem syncOn_queues (hs : portSends t p = true) (hu : ∃ u ∈ us, get t fld.univCtrl.PORT u = p) :
    OneMore (fun f => f.cls = 7 ∧ f.src = .sacn c e ∧ f.launch = launch) p t (syncOn us sync c e launch p t) := by
  unfold syncOn
  split
  case h_1 hnone =>
    obtain ⟨u, hu, hp⟩ := hu
    exact absurd (beq_iff_eq.mpr hp) (List.find?_eq_none.mp hnone u hu)
  case h_2 => exact ⟨_, queue_enqueue _ hs, rfl, rfl, rfl⟩

end SyncOn

theorem synchronises {s : State} {c : Nat} {e : W32} {at_ : W64} (hc : canLatch s c = true) (he : e = txEp s c)
    (hsync : get s fld.sacnSync.SACN_SYNC c ≠ 0) (hnew : Map.find? s.epg.synced c ≠ some e)
    (hat : at_ = latchOf s c e - BitVec.ofNat 64 (get s fld.sacnSyncAdv.SACN_SYNC_ADV c)) :
    ∃ t, exec (.sacnSync c) s = .next t ∧ t.ot = timeAt s at_ ∧ Map.find? t.epg.synced c = some e ∧
      ∀ p, p < 16 → portSends s p = true → (∃ u ∈ canvasUnivs s c, get s fld.univCtrl.PORT u = p) →
        ∃ f, (portOf t p).queue = (portOf s p).queue ++ [f] ∧ f.cls = 7 ∧ f.src = .sacn c e ∧ f.launch = at_ := by
  let u := advance at_ s
  obtain ⟨y, hy, hex⟩ : ∃ y : State, y = { u with epg := { u.epg with synced := Map.put u.epg.synced c e } } ∧
      exec (.sacnSync c) s = .next (forEach (List.range 16) (syncOn (canvasUnivs y c) (get s fld.sacnSync.SACN_SYNC c) c e at_) y) := by
    subst he hat
    refine ⟨_, rfl, ?_⟩
    show execSacnSync c s = _
    rw [execSacnSync, if_neg (by simp [hc, hsync, hnew])]
    rfl
  have steady : Steady s y := hy ▸ (steady_advance _ s).trans ⟨rfl, rfl⟩
  have hprt : y.prt = s.prt := by rw [hy]; exact advance_prt _ s
  have hot : y.ot = timeAt s at_ := by rw [hy]; exact advance_ot _ s
  have hput : Map.find? y.epg.synced c = some e := by rw [hy]; exact map_find_put_same _ _ _
  have hunivs : canvasUnivs y c = canvasUnivs s c := by
    unfold canvasUnivs
    simp only [steady.regs, on_congr steady.regs, get_congr steady.regs]
  rw [hunivs] at hex
  generalize hz : forEach (List.range 16) (syncOn (canvasUnivs s c) (get s fld.sacnSync.SACN_SYNC c) c e at_) y = z at hex
  have hframe : ∃ P L, z = { y with prt := P, epg := { y.epg with latchSeq := L } } := by
    rw [← hz]
    refine forEach_all (P := fun t => ∃ P L, t = { y with prt := P, epg := { y.epg with latchSeq := L } }) (fun p t ht => ?_) _ y
      ⟨y.prt, y.epg.latchSeq, rfl⟩
    obtain ⟨P, L, rfl⟩ := ht
    exact syncOn_frame _ _ _ _ _ p _
  obtain ⟨P, L, hframe⟩ := hframe
  refine ⟨z, hex, by rw [hframe]; exact hot, by rw [hframe]; exact hput, fun p hp hs hu => ?_⟩
  have queued : OneMore (fun f => f.cls = 7 ∧ f.src = .sacn c e ∧ f.launch = at_) p y z := by
    rw [← hz]
    refine queue_forEach (port := fun q => q) ?steady ?others ?adds _ ?distinct ?listed
    case steady =>
      intro q t
      obtain ⟨P, L, h⟩ := syncOn_frame (canvasUnivs s c) (get s fld.sacnSync.SACN_SYNC c) c e at_ q t
      exact ⟨by rw [h], by rw [h]⟩
    case others => exact fun q t r hr => portOf_syncOn_ne _ _ _ _ _ q t hr
    case adds =>
      intro q t hq ht
      subst hq
      have ts := steady.trans ht
      obtain ⟨v, hv, hport⟩ := hu
      exact syncOn_queues _ c e at_ ((ts.portSends q).trans hs) ⟨v, hv, (get_congr ts.regs _ _ _).trans hport⟩
    case distinct => rw [List.map_id']; exact List.nodup_range
    case listed => rw [List.map_id']; exact List.mem_range.mpr hp
  exact queued.of_prt hprt

/-! ## DMX packets (R204, R267) -/

theorem dmxOf_setDmx (p : Nat) (v : Dmx) (s : State) : dmxOf (setDmx p v s) p = v := map_get_put_same _ _ _ _

theorem starts_packet {s : State} {p c : Nat} {f : FClock} (hp : p < dmxPorts s.member) (hc : c = get s fld.dmxCanvas.DMX_CANVAS p)
    (hdmx : on s fld.dmxCanvas.DMX_EN p = true) (hen : on s fld.epCtrl.EN = true) (hmode : mode s ≠ 7) (htest : blockTested s 26 = false)
    (hrun : canvasRuns s c = true) (hdue : dmxDue s p = true) (hf : fclock s (canvasFc s c) = some f) :
    ∃ t, exec (.dmxPacketStart p) s = .next t ∧ (dmxOf t p).busy = some (s.ot + BitVec.ofNat 64 (dmxTime s p)) ∧
      (dmxOf t p).started = some (f.inst (f.cur s.ot)) ∧ (dmxOf t p).slots = (dmxSlotBytes s p c).take (get s fld.dmxSlots.SLOTS p) := by
  subst hc
  generalize hd : ({ dmxOf s p with
    busy := some (s.ot + BitVec.ofNat 64 (dmxTime s p))
    slots := (dmxSlotBytes s p (get s fld.dmxCanvas.DMX_CANVAS p)).take (get s fld.dmxSlots.SLOTS p)
    started := some (f.inst (f.cur s.ot)) } : Dmx) = d
  have hex : exec (.dmxPacketStart p) s = .next (setDmx p d (wakeMem s)) := by
    show execDmxPacketStart p s = _
    rw [execDmxPacketStart, if_neg (by simp [hdmx, hen, hmode, htest, hrun, hdue]; omega), hf, ← hd]
  refine ⟨_, hex, ?_⟩
  rw [dmxOf_setDmx, ← hd]
  exact ⟨rfl, rfl, rfl⟩

theorem exec_dmxPacketStart_off {s : State} (p : Nat) (hen : on s fld.epCtrl.EN = false) : exec (.dmxPacketStart p) s = .next s :=
  if_pos (by simp [hen])

theorem ends_packet {s : State} {p : Nat} {b : W64} (hb : (dmxOf s p).busy = some b) :
    ∃ t, exec (.dmxPacketEnd p) s = .next t ∧ t.ot = timeAt s b ∧ (dmxOf t p).busy = none ∧
      counter t Cnt.dmxPkt.ctorIdx = counter s Cnt.dmxPkt.ctorIdx + 1 := by
  obtain ⟨y, hex, hdmx, hot, hcnt⟩ : ∃ y : State, exec (.dmxPacketEnd p) s = .next (if (dmxOf s p).rdm = 1 then rdmSend p y else y) ∧
      dmxOf y p = { dmxOf s p with busy := none } ∧ y.ot = timeAt s b ∧
      counter y Cnt.dmxPkt.ctorIdx = counter s Cnt.dmxPkt.ctorIdx + 1 := by
    refine ⟨setDmx p { dmxOf s p with busy := none } (bump .dmxPkt (bump .dmxTx (advance b s))), ?_, dmxOf_setDmx _ _ _, ?_, ?_⟩
    · show execDmxPacketEnd p s = _
      rw [execDmxPacketEnd, hb]
    · rw [setDmx_ot, bump_ot, bump_ot, advance_ot]
    · rw [counter_congr (setDmx_cnt _ _ _), counter_bump_same, counter_bump_ne _ _ _ (by decide),
        counter_congr (t := advance b s) (s := s) (by rw [advance_frame])]
  refine ⟨_, hex, ?_⟩
  split
  · refine ⟨hot, ?_, hcnt⟩
    rw [rdmSend, dmxOf_setDmx, hdmx]
  · exact ⟨hot, by rw [hdmx], hcnt⟩

/-! ## STAT (R187, R191 to R196) -/

/-- What a STAT says of an endpoint: whether its node is lost, and the epoch, the miss bit and the temperature of its last STAT. -/
structure Reading where
  lost : Bool
  epoch : W32
  miss : Bool
  temp : Nat

/-- An endpoint's reading. -/
def reading (x : EpSt) : Reading := ⟨x.lost, x.epoch, x.miss, x.temp⟩

/-- A reading after a STAT, which carries no temperature where it says 0x80. -/
def Reading.after (q : StatMsg) (r : Reading) : Reading :=
  ⟨r.lost, q.epoch, q.sflags.toNat % 2 == 1, if q.temp = 0x80 then r.temp else q.temp.toNat⟩

/-- The same STAT once more changes nothing. -/
theorem Reading.after_after (q : StatMsg) (r : Reading) : Reading.after q (Reading.after q r) = Reading.after q r := by
  simp only [Reading.after, Reading.mk.injEq, true_and]
  split <;> rfl

theorem reading_setEp (e : Nat) (x : EpSt) (s : State) (k : Nat) : reading (epOf (setEp e x s) k) = if k = e then reading x else reading (epOf s k) := by
  rw [epOf_setEp, apply_ite reading]

/-- An update that keeps an endpoint's reading keeps every endpoint's. -/
theorem reading_setEp_same {e : Nat} {x : EpSt} {s : State} (h : reading x = reading (epOf s e)) (k : Nat) :
    reading (epOf (setEp e x s) k) = reading (epOf s k) := by
  rw [reading_setEp]
  split
  · next hk => rw [h, hk]
  · rfl

/-- A string result changes the states of strings: no endpoint's reading. -/
theorem reading_applyResult (m : Map W32) (e : Nat) (epoch : W32) (i code : Nat) (s : State) (k : Nat) :
    reading (epOf (applyResult m e epoch i code s) k) = reading (epOf s k) := by
  unfold applyResult
  split
  · rfl
  · extract_lets x r old u v w g
    have hu : u.epg = s.epg := by
      unfold u
      split <;> rfl
    have hv : reading (epOf v k) = reading (epOf s k) := by
      rw [← epOf_epg hu]
      exact reading_setEp_same (by rw [epOf_epg hu]; rfl) k
    split
    · split
      · rw [epOf_epg ((killGroup_leaves g w).1.trans (epEvent_epg _ _ _ _)), hv]
      · rw [epOf_epg (epEvent_epg _ _ _ _), hv]
    · split
      · rw [epOf_epg (epEvent_epg _ _ _ _), hv]
      · exact hv

theorem reading_thermalStep (s : State) (p temp : Nat) (x : EpSt) : reading (thermalStep s p temp x) = reading x := rfl

theorem writeStatus_epg (e : Nat) (s : State) : (writeStatus e s).epg = s.epg :=
  (within_writeStatus e (μ := outside [] [.epg]) (by decide +kernel) (Within.refl s)).part .epg (by decide +kernel)

/-- An endpoint's part of a STAT: it takes the message's reading, and every other endpoint keeps its own. -/
theorem reading_statEndpoint (m : Map W32) (q : StatMsg) (e : Nat) (s : State) (k : Nat) :
    reading (epOf (statEndpoint m q e s) k) = if k = e then (reading (epOf s k)).after q else reading (epOf s k) := by
  unfold statEndpoint
  extract_lets x0 before miss x1 z y u v mine w t after
  have hy : reading y = (reading x0).after q := by
    unfold y
    split
    · next h => simp [reading, Reading.after, x1, h, miss]
    · next h =>
      have hz : reading z = (reading x0).after q := by
        rw [Reading.after, if_neg h]
        rfl
      split
      · exact (reading_thermalStep _ _ _ z).trans hz
      · exact hz
  have hv : v.epg = u.epg := by
    unfold v
    split
    · exact epEvent_epg _ _ _ _
    · rfl
  have hw : reading (epOf w k) = reading (epOf v k) := by
    refine forEach_same (fun t => reading (epOf t k)) _ (fun r t => ?_) mine v
    rw [forEach_same (fun t => reading (epOf t k)) _ (fun z t => reading_applyResult m e q.epoch _ _ t k)]
    exact reading_setEp_same (x := { epOf t e with nm := [] }) rfl k
  have ht : reading (epOf t k) = if k = e then (reading (epOf s k)).after q else reading (epOf s k) := by
    rw [epOf_epg (writeStatus_epg e w), hw, epOf_epg hv, reading_setEp, hy]
    split
    · next hk => rw [hk]
    · rfl
  split
  · exact ht
  · rw [epOf_epg (enterChange_epg _ _ _ _ _), ht]

/-- A received frame that is counted changes counters of ports and the port's window: not the event counters below 128. -/
theorem rxCount_leaves (p len : Nat) (s : State) : Steady s (rxCount p len s) ∧ (rxCount p len s).epg = s.epg ∧
    (rxCount p len s).ot = s.ot ∧ ∀ k, k < 128 → counter (rxCount p len s) k = counter s k := by
  unfold rxCount
  extract_lets u
  have hu : ∀ k, k < 128 → counter u k = counter s k := by
    intro k hk
    refine map_get_set_ne _ _ _ ?_
    split
    · rw [ethCnt]; omega
    · rw [t1sCnt]; omega
  split
  · exact ⟨⟨rfl, rfl⟩, rfl, rfl, fun k hk => (counter_congr (setPort_cnt _ _ _) k).trans (hu k hk)⟩
  · exact ⟨⟨rfl, rfl⟩, rfl, rfl, hu⟩

/-- A frame taken in lets time pass to its arrival and is counted. -/
theorem heardFrame_is (p : Nat) (h : RxFrame) (s : State) : Steady s (heardFrame p h s) ∧ (heardFrame p h s).epg = s.epg ∧
    (heardFrame p h s).ot = timeAt s h.at_ ∧ ∀ k, k < 128 → counter (heardFrame p h s) k = counter s k := by
  obtain ⟨steady, hepg, hot, hcnt⟩ := rxCount_leaves p h.bytes.length (advance h.at_ s)
  exact ⟨(steady_advance _ s).trans steady, hepg.trans (advance_epg _ s), hot.trans (advance_ot _ s),
    fun k hk => (hcnt k hk).trans (counter_congr (by rw [advance_frame]) k)⟩

section SameRegs

variable {s u : State} (h : u.regs = s.regs)
include h

theorem publishedEtab_congr : publishedEtab u = publishedEtab s := by
  unfold publishedEtab
  rw [h]

theorem standby_congr : standby u = standby s := by
  unfold standby role
  rw [get_congr h]

end SameRegs

/-- The endpoints that a STAT names: those of its node on its canvas. -/
def namedEntries (m : Map W32) (q : StatMsg) : List Nat := (nodeEntries m q.node).filter (fun e => eCanvas m e == q.canvas.toNat)

/-- A STAT is refused where it is malformed or names no endpoint or an unknown output (R196). -/
def statRefused (m : Map W32) (q : StatMsg) (es : List Nat) : Bool :=
  q.malformed || es.isEmpty || q.records.any (fun r => !(es.map (eOutput m)).contains r.output.toNat)

theorem statRefused_iff (m : Map W32) (q : StatMsg) (es : List Nat) :
    statRefused m q es = true ↔ q.malformed = true ∨ es = [] ∨ ∃ r ∈ q.records, r.output.toNat ∉ es.map (eOutput m) := by
  simp [statRefused, or_assoc]

section TakeStat

variable {s : State} {p : Nat} {h : RxFrame} {g : EnpMsg} {q : StatMsg} {m : Map W32} {es : List Nat}

/-- A STAT that an enabled endpoint engine takes is refused, or its reading goes to the endpoints that it names. -/
theorem exec_stat (hroute : rxRoute s p h = .stat g) (hq : q = statOf g) (hen : on s fld.epCtrl.EN = true) (hst : standby s = false)
    (hm : m = publishedEtab s) (hes : es = namedEntries m q) :
    exec (.stat p h) s = .next (if statRefused m q es then epEvent 5 58 noDetail (bump .statErr (heardFrame p h s))
      else acceptStat m q es (heardFrame p h s)) := by
  subst hq hm hes
  have steady := (heardFrame_is p h s).1
  show execStat p h s = _
  rw [execStat, hroute]
  show Host.Outcome.next (takeStat (statOf g) (heardFrame p h s)) = _
  rw [takeStat, if_neg (by simp [on_congr steady.regs, standby_congr steady.regs, hen, hst]), publishedEtab_congr steady.regs]
  rfl

theorem refuses_stat (hroute : rxRoute s p h = .stat g) (hq : q = statOf g) (hen : on s fld.epCtrl.EN = true) (hst : standby s = false)
    (hm : m = publishedEtab s) (hes : es = namedEntries m q)
    (hbad : q.malformed = true ∨ es = [] ∨ ∃ r ∈ q.records, r.output.toNat ∉ es.map (eOutput m)) :
    ∃ t, exec (.stat p h) s = .next t ∧ t.ot = timeAt s h.at_ ∧ t.epg = s.epg ∧ hasBit t fld.epEvent.EP_EVENT 5 = true ∧
      counter t Cnt.statErr.ctorIdx = counter s Cnt.statErr.ctorIdx + 1 := by
  obtain ⟨-, hepg, hot, hcnt⟩ := heardFrame_is p h s
  have hex := exec_stat hroute hq hen hst hm hes
  rw [if_pos ((statRefused_iff m q es).mpr hbad)] at hex
  refine ⟨_, hex, ?_, ?_, hasBit_epEvent _ _ _ _ (by decide), ?_⟩
  · rw [epEvent_ot, bump_ot, hot]
  · rw [epEvent_epg, bump_epg, hepg]
  · rw [counter_epEvent _ _ _ _ (by decide) (by decide), counter_bump_same, hcnt _ (by decide)]

end TakeStat

/-- The endpoints that a STAT names are in reach of its node: none of them is lost, and each has taken its reading. -/
theorem reading_acceptStat (m : Map W32) (q : StatMsg) (s : State) {e : Nat} (he : e ∈ namedEntries m q) :
    reading (epOf (acceptStat m q (namedEntries m q) s) e) = ({ reading (epOf s e) with lost := false } : Reading).after q := by
  have hnode : e ∈ nodeEntries m q.node := List.mem_of_mem_filter he
  unfold acceptStat
  extract_lets u v w x
  have hw : w.epg = s.epg := by
    have hv : v.epg = s.epg := by
      unfold v
      split
      · exact epEvent_epg _ _ _ _
      · rfl
    unfold w
    split
    · exact hv
    · exact hv
  have hx : reading (epOf x e) = { reading (epOf s e) with lost := false } := by
    rw [← epOf_epg hw e]
    refine forEach_mem' (P := fun t => ({ reading (epOf t e) with lost := false } : Reading) = { reading (epOf w e) with lost := false })
      (Q := fun t => reading (epOf t e) = { reading (epOf w e) with lost := false }) e _ hnode (fun k _ t ht => ?_) (fun t ht => ?_)
      (fun k _ t ht => ?_) w rfl
    · rw [reading_setEp]
      split
      · next hk => rw [← ht, hk]; rfl
      · exact ht
    · rw [reading_setEp, if_pos rfl, ← ht]
      rfl
    · rw [reading_setEp]
      split
      · next hk => rw [← hk] at *; exact (congrArg (fun r : Reading => ({ r with lost := false } : Reading)) ht)
      · exact ht
  rw [← hx]
  refine forEach_mem' (P := fun t => (reading (epOf t e)).after q = (reading (epOf x e)).after q)
    (Q := fun t => reading (epOf t e) = (reading (epOf x e)).after q) e _ he (fun k _ t ht => ?_) (fun t ht => ?_)
    (fun k _ t ht => ?_) x rfl
  · rw [reading_statEndpoint]
    split
    · rw [Reading.after_after, ht]
    · exact ht
  · rw [reading_statEndpoint, if_pos rfl, ht]
  · rw [reading_statEndpoint]
    split
    · rw [ht, Reading.after_after]
    · exact ht

theorem acceptStat_ot (m : Map W32) (q : StatMsg) (es : List Nat) (s : State) : (acceptStat m q es s).ot = s.ot :=
  (within_acceptStat m q es (μ := outside [] [.ot]) (by decide +kernel) (Within.refl s)).part .ot (by decide +kernel)

theorem accepts_stat {s : State} {p : Nat} {h : RxFrame} {g : EnpMsg} {q : StatMsg} {m : Map W32} {es : List Nat}
    (hroute : rxRoute s p h = .stat g) (hq : q = statOf g) (hen : on s fld.epCtrl.EN = true) (hst : standby s = false)
    (hm : m = publishedEtab s) (hes : es = namedEntries m q) (hwell : q.malformed = false) (hsome : es ≠ [])
    (hknown : ∀ r ∈ q.records, r.output.toNat ∈ es.map (eOutput m)) :
    ∃ t, exec (.stat p h) s = .next t ∧ t.ot = timeAt s h.at_ ∧ ∀ e ∈ es, (epOf t e).lost = false ∧ (epOf t e).epoch = q.epoch ∧
      (epOf t e).miss = (q.sflags.toNat % 2 == 1) ∧ (epOf t e).temp = if q.temp = 0x80 then (epOf s e).temp else q.temp.toNat := by
  obtain ⟨-, hepg, hot, -⟩ := heardFrame_is p h s
  have good : ¬ statRefused m q es = true := by
    rw [statRefused_iff, hwell]
    rintro (h | h | ⟨r, hr, h⟩)
    · exact Bool.false_ne_true h
    · exact hsome h
    · exact h (hknown r hr)
  have hex := exec_stat hroute hq hen hst hm hes
  rw [if_neg good] at hex
  refine ⟨_, hex, by rw [acceptStat_ot, hot], fun e he => ?_⟩
  have hr := reading_acceptStat m q (heardFrame p h s) (hes ▸ he)
  rw [← hes, epOf_epg hepg e] at hr
  exact ⟨congrArg Reading.lost hr, congrArg Reading.epoch hr, congrArg Reading.miss hr, congrArg Reading.temp hr⟩

/-! ## Lost nodes (R196, R200) -/

/-- The values of the keys of one residue, taken out of a table. -/
theorem map_get_residue {α : Type} (d : α) (m : Map α) {n c : Nat} (hc : c < n) (k : Nat) :
    Map.get (fun _ => d) ((m.filter (fun x => x.1 % n == c)).map (fun x => (x.1 / n, x.2))) k = Map.get (fun _ => d) m (k * n + c) := by
  have hn : 0 < n := by omega
  induction m with
  | nil => rfl
  | cons x m ih =>
    obtain ⟨j, v⟩ := x
    have hj : j = k * n + c ↔ j % n = c ∧ j / n = k := by
      constructor
      · rintro rfl
        rw [Nat.mul_comm, Nat.mul_add_mod, Nat.mod_eq_of_lt hc, Nat.mul_add_div hn, Nat.div_eq_of_lt hc]
        exact ⟨rfl, rfl⟩
      · rintro ⟨rfl, rfl⟩
        rw [Nat.mul_comm]
        exact (Nat.div_add_mod j n).symm
    by_cases hr : j % n = c
    · rw [List.filter_cons_of_pos (by simpa using hr), List.map_cons, Map.get, Map.get, ih]
      simp only [hj, hr, true_and]
    · rw [List.filter_cons_of_neg (by simpa using hr), ih, Map.get, if_neg (fun h => hr (hj.mp h).1)]

/-- A word of the published table is the word of its register. -/
theorem ew_publishedEtab (s : State) (e k : Nat) : ew (publishedEtab s) e k = (rd s .etabWord e k).toNat := by
  rw [ew, publishedEtab, map_get_residue _ _ (by decide), rd, RegId.key, Nat.mul_comm 16 e]
  rfl

/-- The registers that say which endpoints a kill group has, with what the group is set to. -/
def memberRegs : List RegId := [.etabWord, .viewBase, .viewN, .kg]

section MemberNow

variable {s u : State} (h : ∀ r ∈ memberRegs, ∀ i j, rd u r i j = rd s r i j)
include h

theorem viewOwnerFrom_of_rd (e n : Nat) : viewOwnerFrom u e n = viewOwnerFrom s e n := by
  induction n with
  | zero => rfl
  | succ n ih =>
    unfold viewOwnerFrom
    rw [ih, get_of_rd (f := fld.viewBase.VIEW_BASE) (h .viewBase (by decide) n 0), get_of_rd (f := fld.viewN.VIEW_N) (h .viewN (by decide) n 0)]

theorem memberNow_of_rd (g e : Nat) : memberNow u g e = memberNow s g e := by
  unfold memberNow eKillg viewOwner
  rw [ew_publishedEtab, ew_publishedEtab, h .etabWord (by decide), viewOwnerFrom_of_rd h, get_of_rd (f := fld.kg.CTX) (h .kg (by decide) g 0)]

end MemberNow

theorem loses_node {s : State} {e c g : Nat} {m : Map W32} {f : FClock} (hm : m = publishedEtab s) (hc : c = eCanvas m e)
    (hf : fclock s (canvasFc s c) = some f) (hvalid : eValid m e = true) (henp : eTransport m e < 2) (hlost : (epOf s e).lost = false)
    (hen : on s fld.epCtrl.EN = true) (hst : standby s = false) (hg : g = eKillg m e) :
    ∃ t, exec (.nodeLost e) s = .next t ∧ (epOf t e).lost = true ∧ hasBit t fld.epEvent.EP_EVENT 4 = true ∧
      t.ot = timeAt s (f.inst ((epOf s e).since + BitVec.ofNat 64 (get s fld.epTiming.LOST_N * get s fld.epTiming.STAT_N))) ∧
      (memberNow s g e = true → on s fld.kg.LOSTKILL g = true → on t fld.kg.KILLED g = true) := by
  subst hg hc hm
  generalize ht : f.inst ((epOf s e).since + BitVec.ofNat 64 (get s fld.epTiming.LOST_N * get s fld.epTiming.STAT_N)) = t0
  generalize hg : eKillg (publishedEtab s) e = g
  obtain ⟨y, hex, hl, hbit, hot, hrd⟩ : ∃ y : State,
      exec (.nodeLost e) s = .next (if memberNow y g e && on y fld.kg.LOSTKILL g then killGroup g y else y) ∧
      (epOf y e).lost = true ∧ hasBit y fld.epEvent.EP_EVENT 4 = true ∧ y.ot = timeAt s t0 ∧
      ∀ r ∈ memberRegs, ∀ i j, rd y r i j = rd s r i j := by
    refine ⟨epEvent 4 57 e (bump .nodeLost (setEp e { epOf (advance t0 s) e with lost := true } (advance t0 s))), ?_, ?_,
      hasBit_epEvent _ _ _ _ (by decide), ?_, fun r hr i j => ?_⟩
    · show execNodeLost e s = _
      rw [execNodeLost, hf]
      show (if _ then _ else _) = _
      rw [if_neg (by simp [hvalid, hlost, hen, hst]; omega)]
      subst ht hg
      rfl
    · rw [epOf_epg (epEvent_epg _ _ _ _), epOf_epg (bump_epg _ _), epOf_setEp, if_pos rfl]
    · rw [epEvent_ot, bump_ot, setEp_ot, advance_ot]
    · rw [rd_epEvent _ _ _ _ (by revert r; decide), rd_bump, rd_congr (setEp_regs _ _ _), rd_advance]
  refine ⟨_, hex, ?_⟩
  have hmem : memberNow y g e = memberNow s g e := memberNow_of_rd hrd g e
  have hkill : on y fld.kg.LOSTKILL g = on s fld.kg.LOSTKILL g := on_of_rd (f := fld.kg.LOSTKILL) (hrd .kg (by decide) g 0)
  rw [hmem, hkill]
  split
  case isTrue =>
    obtain ⟨kepg, kot, krd⟩ := killGroup_leaves g y
    exact ⟨by rw [epOf_epg kepg, hl], by rw [hasBit_rd (krd 0 0), hbit], by rw [kot, hot], fun _ _ => killGroup_kills g y⟩
  case isFalse hno => exact ⟨hl, hbit, hot, fun h1 h2 => absurd (by simp [h1, h2]) hno⟩

/-- Settles O53, clause by clause from the laws above: each write of a register is one journaled host write whose effect has its own
law, a send of LATCH, HOLD, sACN or a synchronisation packet queues one frame on each port, and STAT is followed through the
readings of the endpoints. -/
theorem endpointsWork : Obligations.EndpointsWork := by
  intro s fn
  refine ⟨fun e k v he h0 hk h => stages_word v he h0 hk h, fun e v m why he h hm hwhy => publishes_entry he h hm hwhy,
    fun c isN v r u hc hr h hpf hu => writes_view hc hr h hpf hu, fun st v r hr h => writes_tableBase hr h,
    fun v h => kicks_drive v h, fun v e h he => clears_faults h he, fun g v h0 hg h => writes_killGroup v h0 hg h, ?blackout,
    repeats_blackout, fun u v p hu h hen hv hon hp hs => terminates_stream hu h hen hv hon hp hs, ?latch, ?dmx, ?stat, ?lost⟩
  case blackout =>
    rintro h time pay rfl rfl
    exact writes_blackout h
  case latch =>
    exact fun c e at_ hc he => ⟨fun hnew hat => latches hc he hnew hat, fun hmode hrest => beacons hc he hmode hrest,
      fun hsync hnew hat => synchronises hc he hsync hnew hat⟩
  case dmx =>
    exact fun p hp => ⟨fun c f hc hdmx hen hmode htest hrun hdue hf => starts_packet hp hc hdmx hen hmode htest hrun hdue hf,
      exec_dmxPacketStart_off p, fun b hb => ends_packet hb⟩
  case stat =>
    exact fun p h g q m es hroute hq hen hst hm hes => ⟨refuses_stat hroute hq hen hst hm hes, accepts_stat hroute hq hen hst hm hes⟩
  case lost =>
    exact fun e m c f g hm hc hf hvalid henp hlost hen hst hg => loses_node hm hc hf hvalid henp hlost hen hst hg

end Sys2Proof.Machine

/-!
Venue time: refused measurements, and the clauses of O54 put together from the laws.
-/

namespace Sys2Proof.Machine

/-! ## Measurements that are refused (R213) -/

/-- R213 as a proposition: `measRejected` decides it. -/
theorem measRejected_iff (x : Dom) (delay : Int) :
    measRejected x delay = true ↔ delay < 0 ∨ (8 ≤ x.total ∧ (10 * x.davg + 1000 * 65536 : Int) < delay) := by
  simp [measRejected]

/-- A refused measurement leaves the time block as it was, and is counted. -/
theorem rejects {s : State} {fn d : Nat} (hd : d < 2) (hw : Writable s fn .measPush d 0) (hen : on s fld.timeCtrl.EN = true)
    (hst : (domOf s d).st ≠ 0) (hr : measRejected (domOf s d) (measDelay (on s fld.domCfg.MODE d) (measOf s d)) = true) :
    ∃ t, exec (.measPush fn d) s = .next t ∧ t.tim = s.tim ∧ t.ot = s.ot ∧ t.otFrac = s.otFrac ∧
      rd t .timeStatus = rd s .timeStatus ∧ rd t .domSamples d = rd s .domSamples d ∧
      counter t Cnt.sampleRej.ctorIdx = counter s Cnt.sampleRej.ctorIdx + 1 := by
  obtain ⟨u, hu, hex⟩ := hostWrite_of hw 1 (measPushWrite d)
  have effect : measPushWrite d u = bump .sampleRej u := by
    unfold measPushWrite
    rw [measOf_noted hu, domOf_tim hu.tim, hu.on _ _ _ (by decide), hu.on _ _ _ (by decide), hen, if_neg (by simpa using hst)]
    exact if_pos hr
  refine ⟨bump .sampleRej u, ?_, hu.tim, hu.ot, ?_, ?_, ?_, ?_⟩
  · show execMeasPush fn d s = _
    rw [execMeasPush, if_neg (by omega), hex, effect]
  · show u.otFrac = _
    rw [hu.frame]
  · exact hu.reg .timeStatus 0 0 (by decide)
  · exact hu.reg .domSamples d 0 (by decide)
  · rw [counter_bump, if_pos rfl, hu.cnt _ (by decide)]

/-- Settles O54. -/
theorem timeAndClocksWork : Obligations.TimeAndClocksWork := by
  intro s fn
  refine ⟨⟨set_goes, ot_read, fun d x hd hx => ⟨fun m delay hm hdelay hw hen hst => ?push, fun hw hst => kicks_announce hd hx hw hst,
      fun hst => announce_ends hd hx hst _ rfl, fun v u hw hu => domain_enables hd hx v u hw hu⟩, fun v u hw hu => selects v u hw hu⟩,
    fun n v u hn hw hu i hi => fc_controls u hn hw hu i hi, fun n v u hn hw hu => fc_phases u hn hw hu,
    fun n hn h => next_reads hn h, fun p poison hp h => pops poison hp h, fun p hp h => flushes_stamps hp h, fun at_ frac h => pps_in at_ frac h,
    pps_reads, fun i last x hi h0 h7 hen hsrc hl hx => pps_out last x hi h0 h7 hen hsrc hl hx, ref10_windows, ref10_lost,
    ref10_returns⟩
  case push =>
    rw [← measRejected_iff]
    cases hr : measRejected x delay with
    | true =>
      subst hx hm hdelay
      obtain ⟨t, ht, same⟩ := rejects hd hw hen hst hr
      exact ⟨t, ht, fun _ => same, fun h => absurd rfl h⟩
    | false =>
      obtain ⟨t, ht, -, accepted⟩ := pushes hd hx m delay hm hdelay hw hen hst
      exact ⟨t, ht, fun h => absurd h (by decide), fun _ => accepted hr⟩

end Sys2Proof.Machine

/-!
The cycle that passes on an empty queue (O38): the clock, a pending SEL, and the PTP messages that fall due.
-/

namespace Sys2Proof.Machine

/-! ## PTP messages that fall due (R222) -/

section ServeTime

variable (ann : Bool) (p : Nat) (s : State)

/-- A PTP message changes the ports and draws one free value. -/
theorem sendPtp_frame : sendPtp ann p s = { s with free := s.free + 1, prt := (sendPtp ann p s).prt } :=
  enqueue_frame (fun _ _ => rfl) p (draw s)

theorem portOf_sendPtp_ne {q : Nat} (h : q ≠ p) : portOf (sendPtp ann p s) q = portOf s q :=
  portOf_enqueue_ne (fun _ _ => rfl) h

theorem queue_sendPtp {p : Nat} {s : State} (h : portSends s p = true) :
    ∃ f, (portOf (sendPtp ann p s) p).queue = (portOf s p).queue ++ [f] ∧ f.cls = 6 :=
  ⟨_, queue_enqueue (s := draw s) _ h, rfl⟩

theorem serveTime_idle {p : Nat} {s : State} (h : syncDue s p = false) : serveTime p s = s := by
  rw [serveTime, h]
  rfl

/-- A Sync that is due goes with its instant noted, and an Announce may follow it. -/
theorem serveTime_due {p : Nat} {s : State} (h : syncDue s p = true) :
    ∃ u, u = sendPtp false p { s with tim := { s.tim with syncAt := Map.put s.tim.syncAt p s.ot } } ∧
      (serveTime p s = u ∨ serveTime p s = sendPtp true p u) := by
  refine ⟨_, rfl, ?_⟩
  rw [serveTime, h, if_neg (by decide)]
  by_cases ha : Config.announceDue s.free = true
  · exact .inr (if_pos ha)
  · exact .inl (if_neg ha)

/-- What the service of the ports leaves alone: all but the ports, the instants of the Syncs, and the free values. -/
theorem serveTime_frame : serveTime p s =
    { s with free := (serveTime p s).free, prt := (serveTime p s).prt, tim := { s.tim with syncAt := (serveTime p s).tim.syncAt } } := by
  cases h : syncDue s p with
  | false => rw [serveTime_idle h]
  | true =>
    obtain ⟨u, hu, e | e⟩ := serveTime_due h
    · rw [e, hu, sendPtp_frame]
    · rw [e, sendPtp_frame, hu, sendPtp_frame false]

theorem serveTime_syncAt (h : syncDue s p = true) : (serveTime p s).tim.syncAt = Map.put s.tim.syncAt p s.ot := by
  obtain ⟨u, hu, e | e⟩ := serveTime_due h
  · rw [e, hu, sendPtp_frame]
  · rw [e, sendPtp_frame, hu, sendPtp_frame false]

theorem portOf_serveTime_ne {q : Nat} (hq : q ≠ p) : portOf (serveTime p s) q = portOf s q := by
  cases h : syncDue s p with
  | false => rw [serveTime_idle h]
  | true =>
    obtain ⟨u, hu, e | e⟩ := serveTime_due h
    · rw [e, hu, portOf_sendPtp_ne _ _ _ hq]; rfl
    · rw [e, portOf_sendPtp_ne _ _ _ hq, hu, portOf_sendPtp_ne _ _ _ hq]; rfl

end ServeTime

/-- Port `p` has been served: its Sync is noted at the instant `x` and stands behind a queue. -/
def Served (p : Nat) (x : W64) (queue : List QFrame) (t : State) : Prop :=
  Map.find? t.tim.syncAt p = some x ∧ ∃ f rest, (portOf t p).queue = queue ++ f :: rest ∧ f.cls = 6

theorem serves_due {p : Nat} {s : State} (h : syncDue s p = true) : Served p s.ot (portOf s p).queue (serveTime p s) := by
  have sends : portSends s p = true := by
    simp only [syncDue, Bool.and_eq_true] at h
    exact h.1.2
  refine ⟨by rw [serveTime_syncAt p s h, map_find_put_same], ?_⟩
  obtain ⟨u, hu, e⟩ := serveTime_due h
  have hsends : portSends u p = true := by rw [hu, sendPtp_frame]; exact sends
  obtain ⟨f, hf, hcls⟩ : ∃ f, (portOf u p).queue = (portOf s p).queue ++ [f] ∧ f.cls = 6 := hu ▸ queue_sendPtp false sends
  rcases e with e | e
  · exact ⟨f, [], by rw [e, hf], hcls⟩
  · obtain ⟨g, hg, -⟩ := queue_sendPtp true hsends
    exact ⟨f, [g], by rw [e, hg, hf, List.append_assoc]; rfl, hcls⟩

/-- A port of `u` is still to be served as in `s`. -/
structure Unserved (p : Nat) (s u : State) : Prop extends Steady s u where
  ot : u.ot = s.ot
  port : portOf u p = portOf s p
  last : Map.get (fun _ => 0) u.tim.syncAt p = Map.get (fun _ => 0) s.tim.syncAt p

theorem Unserved.syncDue {p : Nat} {s u : State} (h : Unserved p s u) : syncDue u p = syncDue s p := by
  have hr := h.regs
  unfold Machine.syncDue portClock mode syncInterval
  rw [h.portSends, h.ot, h.last]
  simp only [on_congr hr, get_congr hr]

theorem Unserved.serveTime {p q : Nat} {s u : State} (hq : q ≠ p) (h : Unserved p s u) : Unserved p s (serveTime q u) where
  regs := by rw [serveTime_frame]; exact h.regs
  member := by rw [serveTime_frame]; exact h.member
  ot := by rw [serveTime_frame]; exact h.ot
  port := by rw [portOf_serveTime_ne _ _ (Ne.symm hq), h.port]
  last := by
    rw [← h.last]
    cases hd : Machine.syncDue u q with
    | false => rw [serveTime_idle hd]
    | true => rw [serveTime_syncAt _ _ hd, map_get_put_ne _ _ _ (Ne.symm hq)]

theorem Served.serveTime {p q : Nat} {x : W64} {queue : List QFrame} {u : State} (hq : q ≠ p) (h : Served p x queue u) :
    Served p x queue (serveTime q u) := by
  unfold Served
  rw [portOf_serveTime_ne _ _ (Ne.symm hq)]
  refine ⟨?_, h.2⟩
  rw [← h.1]
  cases hd : syncDue u q with
  | false => rw [serveTime_idle hd]
  | true => rw [serveTime_syncAt _ _ hd, map_find_put_ne _ _ (Ne.symm hq)]

/-- A pass over a list that names an element once: what its own step brings about stays. -/
theorem forEach_once {α : Type} {f : α → State → State} {P Q : State → Prop} {a : α} {xs : List α} (ha : a ∈ xs) (hn : xs.Nodup)
    (keepP : ∀ b u, b ≠ a → P u → P (f b u)) (set : ∀ u, P u → Q (f a u)) (keepQ : ∀ b u, b ≠ a → Q u → Q (f b u)) {u : State}
    (h : P u) : Q (forEach xs f u) := by
  induction xs generalizing u with
  | nil => simp at ha
  | cons x xs ih =>
    obtain ⟨hx, hn⟩ := List.nodup_cons.mp hn
    rcases List.mem_cons.mp ha with rfl | ha
    · exact forEach_all' xs (fun b hb u hu => keepQ b u (fun e => hx (e ▸ hb)) hu) _ (set u h)
    · exact ih ha hn (keepP x u (fun e => hx (e ▸ ha)) h)

/-! ## One cycle of an empty queue (R208) -/

/-- The state of a cycle before what falls due in it: slow time has gone on, and outward time is `x` with its fraction. -/
def cycled (x : W64) (frac : BitVec 48) (s : State) : State := { slowOn 1 s with ot := x, otFrac := frac }

theorem tick_off {s : State} (h : mode s = 0 ∨ s.bst.releaseDue = true) : tick s = slowOn 1 s := by
  have hc : (decide (get (slowOn 1 s) fld.pwrMode.MODE = 0) || (slowOn 1 s).bst.releaseDue) = true := by
    rw [Bool.or_eq_true, decide_eq_true_iff]
    exact h
  exact if_pos hc

/-- What follows the clock in a cycle: a pending SEL, then the service of the ports. -/
def duePass (s : State) : State := forEach (List.range 32) serveTime (if anyCanvas s then s else selActs s)

/-- Outward time and its fraction are the quotient and the rest of the count in 2^−48 ns. -/
theorem nextTime_count (s : State) :
    ((((BitVec.ofNat 64 ((nextTime s).toNat / 2 ^ 48)).toNat * 2 ^ 48 + (BitVec.ofNat 48 (nextTime s).toNat).toNat : Nat)) : Int) =
      ((s.ot.toNat * 2 ^ 48 + s.otFrac.toNat : Nat) + (2 ^ 48 + s.tim.adj)) % 2 ^ 112 := by
  have count : ((nextTime s).toNat : Int) = ((s.ot.toNat * 2 ^ 48 + s.otFrac.toNat : Nat) + (2 ^ 48 + s.tim.adj)) % 2 ^ 112 := by
    have e : nextTime s = BitVec.ofInt 112 ((s.ot.toNat * 2 ^ 48 + s.otFrac.toNat : Nat) + (2 ^ 48 + s.tim.adj)) := by
      rw [BitVec.ofInt_add, BitVec.ofInt_natCast]
      rfl
    rw [e, BitVec.toNat_ofInt]
    exact Int.toNat_of_nonneg (Int.emod_nonneg _ (by decide))
  rw [← count]
  have lt := (nextTime s).isLt
  simp only [BitVec.toNat_ofNat]
  omega

/-- A cycle outside SLEEP and reset: the count of outward time in 2^−48 ns goes on by 1 ns and the adjustment, and what is due
follows. -/
theorem tick_on {s : State} (h0 : mode s ≠ 0) (hr : s.bst.releaseDue = false) :
    ∃ (x : W64) (frac : BitVec 48), tick s = duePass (cycled x frac s) ∧ ((x.toNat * 2 ^ 48 + frac.toNat : Nat) : Int) =
      ((s.ot.toNat * 2 ^ 48 + s.otFrac.toNat : Nat) + (2 ^ 48 + s.tim.adj)) % 2 ^ 112 := by
  have hc : ¬ (decide (get (slowOn 1 s) fld.pwrMode.MODE = 0) || (slowOn 1 s).bst.releaseDue) = true := by
    rw [Bool.or_eq_true, decide_eq_true_iff, not_or]
    exact ⟨h0, by rw [show (slowOn 1 s).bst.releaseDue = false from hr]; decide⟩
  exact ⟨_, _, if_neg hc, nextTime_count s⟩

/-- A pending SEL and the PTP messages leave the clock and the memories alone. -/
theorem duePass_keeps (u : State) : Within (outside [] [.pwr, .fmem, .ot, .otFrac]) u (duePass u) :=
  Within.forEach (Within.ite (Within.refl u) (within_selActs (by decide +kernel) (Within.refl u)))
    (fun p _ h => within_serveTime p (by decide +kernel) h)

theorem selActs_none {s : State} (h : on s fld.timeStatus.PENDING = false) : selActs s = s := by
  rw [selActs, h]
  rfl

/-- What a cycle does where no SEL acts: without the service of time nothing more, and with it each port that is due is served. -/
theorem duePass_quiet {x : W64} {frac : BitVec 48} {s : State} (h : on s fld.timeStatus.PENDING = false ∨ anyCanvas s = true) :
    (on s fld.sched.SVC = false ∨ on s fld.timeCtrl.EN = false → duePass (cycled x frac s) = cycled x frac s) ∧
      ∀ p, p < 32 → syncDue { slowOn 1 s with ot := x } p = true → Served p x (portOf s p).queue (duePass (cycled x frac s)) := by
  have regs : (cycled x frac s).regs = s.regs := rfl
  have quiet : (if anyCanvas (cycled x frac s) then cycled x frac s else selActs (cycled x frac s)) = cycled x frac s := by
    rcases h with h | h
    · rw [selActs_none ((on_congr regs _ _ _).trans h), ite_self]
    · exact if_pos ((anyCanvas_of fun c => rd_congr regs _ _ _).trans h)
  rw [duePass, quiet]
  refine ⟨fun hoff => ?off, fun p hp hdue => ?due⟩
  case off =>
    have idle : ∀ p, syncDue (cycled x frac s) p = false := fun p => by
      have : (on (cycled x frac s) fld.sched.SVC && on (cycled x frac s) fld.timeCtrl.EN) = false := by
        rw [Bool.and_eq_false_iff, on_congr regs, on_congr regs]
        exact hoff
      rw [syncDue, this]
      rfl
    exact forEach_all (P := (· = cycled x frac s)) (fun p t ht => by rw [ht, serveTime_idle (idle p)]) _ _ rfl
  case due =>
    have start : Unserved p { slowOn 1 s with ot := x } (cycled x frac s) := ⟨⟨rfl, rfl⟩, rfl, rfl, rfl⟩
    refine forEach_once (Q := Served p x (portOf s p).queue) (List.mem_range.mpr hp) List.nodup_range
      (fun q t hq h => h.serveTime hq) (fun t h => ?_) (fun q t hq h => h.serveTime hq) start
    have served := serves_due (h.syncDue.trans hdue)
    rw [h.ot, h.port] at served
    exact served

/-- Settles O38: the clock goes on, and what falls due in the cycle leaves it and the memories alone. -/
theorem emptyQueueIsOneTimeCycle : Obligations.EmptyQueueIsOneTimeCycle := by
  intro s u hq hu
  have hu : u = slowOn 1 s := hu
  have stepTick : step s = .next (tick s) := by rw [step, hq]
  rw [stepTick]
  refine ⟨fun h => by rw [tick_off h, hu], fun h0 hr => ⟨tick s, rfl, ?_⟩⟩
  obtain ⟨x, frac, ht, count⟩ := tick_on h0 hr
  rw [ht]
  have keeps := duePass_keeps (cycled x frac s)
  have hot : (duePass (cycled x frac s)).ot = x := keeps.part .ot (by decide +kernel)
  have hfrac : (duePass (cycled x frac s)).otFrac = frac := keeps.part .otFrac (by decide +kernel)
  have hpending : (duePass (cycled x frac s)).pending = s.pending := keeps.part .pending (by decide +kernel)
  have hpwr : (duePass (cycled x frac s)).pwr = (slowOn 1 s).pwr := keeps.part .pwr (by decide +kernel)
  have hfmem : (duePass (cycled x frac s)).fmem = s.fmem := keeps.part .fmem (by decide +kernel)
  rw [hot, hfrac, hu]
  exact ⟨hpending.trans hq, hpwr, hfmem, count, fun hsel => duePass_quiet hsel⟩

end Sys2Proof.Machine

/-!
The ports under the named operations: what each leaves of a port and of the counters, and what an open field reads after a write.
-/

namespace Sys2Proof.Machine

/-! ## A port under the named operations -/

section PortOf

variable (p : Nat) (s : State)

@[simp] theorem portOf_put (f : Fld) (v i j : Nat) : portOf (put f v s i j) p = portOf s p := portOf_prt (put_prt ..) p
@[simp] theorem portOf_wr (r : RegId) (v : W32) (i j : Nat) : portOf (wr r v s i j) p = portOf s p := portOf_prt rfl p
@[simp] theorem portOf_setBit (f : Fld) (b i j : Nat) : portOf (setBit f b s i j) p = portOf s p := portOf_prt (setBit_prt ..) p
@[simp] theorem portOf_count (k n : Nat) : portOf (count k n s) p = portOf s p := portOf_prt rfl p
@[simp] theorem portOf_bump (c : Cnt) : portOf (bump c s) p = portOf s p := portOf_prt rfl p
@[simp] theorem portOf_raise (ev d : Nat) : portOf (raise ev d s) p = portOf s p := portOf_prt (raise_prt ev d s) p
@[simp] theorem portOf_advance (t : W64) : portOf (advance t s) p = portOf s p := portOf_prt (advance_prt t s) p
@[simp] theorem portOf_plainWrite (pf : Bool) (r : RegId) (i j : Nat) (v : W32) : portOf (plainWrite pf r i j v s) p = portOf s p :=
  portOf_prt rfl p

@[simp] theorem portOf_setPort_same (v : Port) : portOf (setPort p v s) p = v := portOf_setPort p v s

@[simp] theorem portOf_portEvent (bit ev q : Nat) : portOf (portEvent bit ev q s) p = portOf s p := by simp [portEvent]

theorem frameEnds_prt (f : QFrame) (n : Nat) : (frameEnds f n s).prt = s.prt :=
  (within_frameEnds (μ := outside [] [.prt]) f n (by decide +kernel) (Within.refl s)).part .prt (by decide +kernel)

@[simp] theorem portOf_frameEnds (f : QFrame) (n : Nat) : portOf (frameEnds f n s) p = portOf s p := portOf_prt (frameEnds_prt s f n) p

/-- A port whose queue is dropped. -/
@[simp] theorem portOf_dropQueue : portOf (dropQueue p s) p =
    { portOf s p with queue := [], coll := 0, backoff := none, judged := false, idleAt := s.ot, dropDue := false } := by
  rw [dropQueue, forEach_same (portOf · p) _ (fun f u => portOf_frameEnds p u f txDropped), portOf_setPort_same]

theorem portOf_settleDrop : portOf (settleDrop p s) p = if (portOf s p).dropDue then
    { portOf s p with queue := [], coll := 0, backoff := none, judged := false, idleAt := s.ot, dropDue := false } else portOf s p := by
  unfold settleDrop
  split
  · exact portOf_dropQueue p s
  · rfl

end PortOf

/-! ## What a frame's end leaves (R248, R390) -/

@[simp] theorem counter_put (f : Fld) (v : Nat) (s : State) (i j k : Nat) : counter (put f v s i j) k = counter s k := counter_congr (put_cnt ..) k
@[simp] theorem counter_wr (r : RegId) (v : W32) (s : State) (i j k : Nat) : counter (wr r v s i j) k = counter s k := counter_congr (wr_cnt ..) k
@[simp] theorem counter_setPort (p : Nat) (v : Port) (s : State) (k : Nat) : counter (setPort p v s) k = counter s k :=
  counter_congr (setPort_cnt ..) k
@[simp] theorem counter_advance (t : W64) (s : State) (k : Nat) : counter (advance t s) k = counter s k :=
  counter_congr (by rw [advance_frame]) k

section Counters

variable {k : Nat} (hd : k ≠ Cnt.evtDrop.ctorIdx) (hp : k ≠ Cnt.poison.ctorIdx)

include hd hp

/-- A completion counts nothing but dropped events and poisoned words. -/
theorem counter_frameEnds (f : QFrame) (n : Nat) (s : State) : counter (frameEnds f n s) k = counter s k := by
  unfold frameEnds
  split
  · unfold txComplete produceOrWait
    dsimp only
    split
    · exact (eventOnly_ringProduce _ _ s).cnt k hd hp
    · rfl
  · rfl

theorem counter_settleDrop (p : Nat) (s : State) : counter (settleDrop p s) k = counter s k := by
  unfold settleDrop dropQueue
  split
  · exact forEach_same (counter · k) _ (fun f u => counter_frameEnds hd hp f txDropped u) _ _
  · rfl

theorem counter_tsqPush (hl : k ≠ Cnt.tsLost.ctorIdx) (p : Nat) (e : TsEnt) (s : State) : counter (tsqPush p e s).1 k = counter s k := by
  unfold tsqPush
  dsimp only
  split
  · rw [counter_raise _ _ _ _ hd hp, counter_put, counter_wr, counter_bump_ne _ _ _ hl]
  · split
    · rw [counter_raise _ _ _ _ hd hp, counter_put, counter_setPort]
    · exact counter_setPort ..

end Counters

/-- A pushed timestamp changes the timestamps of the port alone. -/
theorem portOf_tsqPush (p : Nat) (e : TsEnt) (s : State) : ∃ q, portOf (tsqPush p e s).1 p = { portOf s p with tsq := q } := by
  unfold tsqPush
  dsimp only
  split
  · refine ⟨(portOf s p).tsq, ?_⟩
    simp only [portOf_raise, portOf_put, portOf_wr, portOf_bump]
  · split <;> exact ⟨(portOf s p).tsq ++ [e], by simp only [portOf_raise, portOf_put, portOf_setPort_same]⟩

/-- Counters of the ports lie behind the named ones. -/
theorem cnt_lt (c : Cnt) : c.ctorIdx < 63 := by cases c <;> decide

theorem counter_count (k n : Nat) (s : State) (q : Nat) : counter (count k n s) q = if q = k then counter s k + BitVec.ofNat 48 n else counter s q := by
  unfold counter count
  split
  · rename_i h; rw [h]; exact map_get_set_same ..
  · rename_i h; exact map_get_set_ne _ _ _ h

/-! ## Fields after a write (R11) -/

theorem testBit_bitsOf (v lo w k : Nat) : (bitsOf v lo w).testBit k = (decide (k < w) && v.testBit (lo + k)) := by
  unfold bitsOf
  rw [Nat.testBit_mod_two_pow, Nat.testBit_div_two_pow, Nat.add_comm]

/-- Every bit of a field is RW, open to all functions, and held by no enabled unit. -/
def openField (f : Fld) : Bool :=
  (List.range f.w).all (fun k =>
    f.reg.desc.rw.testBit (f.lo + k) && !f.reg.desc.locked.testBit (f.lo + k) && !f.reg.desc.pfOnly.testBit (f.lo + k))

/-- An open field of a register that no absent resource narrows reads the value written. -/
theorem get_plainWrite {s : State} {fn i j : Nat} {v : W32} {f : Fld} (hf : f.lo + f.w ≤ 32) (ho : openField f = true)
    (ha : absentBits s f.reg i = 0) : get (plainWrite (isPf fn) f.reg i j v s) f i j = bitsOf v.toNat f.lo f.w := by
  unfold get
  rw [plainWrite_rd]
  apply Nat.eq_of_testBit_eq
  intro k
  rw [testBit_bitsOf, testBit_bitsOf]
  by_cases hk : k < f.w
  · have hopen := List.all_eq_true.mp ho k (List.mem_range.mpr hk)
    simp only [Bool.and_eq_true, Bool.not_eq_true'] at hopen
    obtain ⟨⟨hrw, hlocked⟩, hpf⟩ := hopen
    have taken : bitTaken s fn f.reg i (f.lo + k) = true := by simp [bitTaken, hrw, hlocked, hpf, ha]
    have hbit := mergeWrite_bit s fn f.reg i j v (f.lo + k) (by omega)
    rw [bitWritten, if_pos taken] at hbit
    exact congrArg _ hbit
  · simp [hk]

theorem on_plainWrite {s : State} {fn i j : Nat} {v : W32} {f : Fld} (hf : f.lo + f.w ≤ 32) (ho : openField f = true)
    (ha : absentBits s f.reg i = 0) : on (plainWrite (isPf fn) f.reg i j v s) f i j = (bitsOf v.toNat f.lo f.w == 1) := by
  unfold on
  rw [get_plainWrite hf ho ha]

/-- A W1S bit is set by a write of 1. -/
theorem on_plainWrite_set {s : State} {fn i j : Nat} {v : W32} {f : Fld} (hw : f.w = 1) (hf : f.lo < 32) (hs : f.reg.desc.w1s.testBit f.lo = true)
    (hv : v.getLsbD f.lo = true) : on (plainWrite (isPf fn) f.reg i j v s) f i j = true := by
  have hb : (rd (plainWrite (isPf fn) f.reg i j v s) f.reg i j).getLsbD f.lo = true := by
    rw [plainWrite_rd, mergeWrite_bit s fn f.reg i j v f.lo hf, bitWritten, hv, hs]
    split <;> simp
  rw [on_iff, get, hw]
  rw [BitVec.getLsbD, Nat.testBit_eq_decide_div_mod_eq] at hb
  exact of_decide_eq_true hb

end Sys2Proof.Machine

/-!
A frame starts on a port, and ends (R225 to R228, R242, R248).
-/

namespace Sys2Proof.Machine

/-! ## A frame starts (R225 to R228, R242, R243) -/

/-- The head frame of a class may go on the wire: its gate can pass it and is open (R244, R245), its launch time has come (R227),
its class is not paused (R250) and not stopped by the lease (R308), and it is in time or goes all the same (R228). -/
structure MayStart (s : State) (p : Nat) (f : QFrame) : Prop where
  fits : gateTooShort s p f.cls (wireTime s p f) = false
  launched : f.launch = 0 ∨ 0 ≤ timeDiff s.ot f.launch
  running : Map.find? (portOf s p).paused f.cls = none
  gate : gateAdmits s p f.cls (wireTime s p f) = true
  lease : classOpen s f.cls = true
  intime : (portOf s p).judged = true ∨ lateBy s f = false ∨ on s fld.late.ACT f.cls = true

/-- A frame is late as it starts: its lateness is judged once (R228). -/
def lateNow (s : State) (p : Nat) (f : QFrame) : Bool := !(portOf s p).judged && lateBy s f

theorem serveHead_starts {s : State} {p : Nat} {f : QFrame} (h : MayStart s p f) :
    ∃ u, (u = s ∨ u = noteLaunchLate p f.cls s) ∧ serveHead p f s = .start (putOnWire p (lateNow s p f) f u) := by
  have hl : (f.launch != 0 && decide (timeDiff s.ot f.launch < 0)) = false := by
    rcases h.launched with e | e
    · simp [e]
    · simp [e]
  unfold serveHead
  dsimp only
  rw [h.fits, if_neg (by decide), hl, if_neg (by decide), h.running, h.gate, if_neg (by decide), h.lease, if_neg (by decide)]
  by_cases hj : ((portOf s p).judged || !lateBy s f) = true
  · refine ⟨s, .inl rfl, ?_⟩
    have : lateNow s p f = false := by
      unfold lateNow
      revert hj
      cases (portOf s p).judged <;> cases lateBy s f <;> decide
    rw [if_pos hj, this]
  · have hact : on s fld.late.ACT f.cls = true := by
      rcases h.intime with e | e | e
      · simp [e] at hj
      · simp [e] at hj
      · exact e
    have : lateNow s p f = true := by
      unfold lateNow
      revert hj
      cases (portOf s p).judged <;> cases lateBy s f <;> decide
    exact ⟨noteLaunchLate p f.cls s, .inr rfl, by rw [if_neg hj, if_pos hact, this]⟩

/-- The head of the highest class that has one is served. -/
theorem serveFrom_head {s t : State} {p : Nat} {f : QFrame} (hf : headOf (portOf s p) f.cls = some f) (hs : serveHead p f s = .start t)
    (n : Nat) (hn : f.cls < n) (habove : ∀ k, f.cls < k → k < n → headOf (portOf s p) k = none) : serveFrom p s n = .start t := by
  induction n with
  | zero => omega
  | succ n ih =>
    unfold serveFrom
    by_cases e : n = f.cls
    · rw [e, hf]
      dsimp only
      rw [hs]
    · rw [habove n (by omega) (by omega)]
      exact ih (by omega) (fun k h1 h2 => habove k h1 (by omega))

/-- The octets of a frame go by its port's MAC address alone. -/
theorem wireOctets_congr {s u : State} (h : ∀ r ∈ [RegId.macHi, .macLo, .t1sMacHi, .t1sMacLo], ∀ i, rd u r i = rd s r i) (p : Nat) (g : QFrame) :
    wireOctets u p g = wireOctets s p g := by
  have mac : portMac u p = portMac s p := by
    unfold portMac
    rw [get_of_rd (f := fld.macHi.MAC_HI) (h .macHi (by decide) _), get_of_rd (f := fld.t1sMacHi.MAC_HI) (h .t1sMacHi (by decide) _),
      h .macLo (by decide), h .t1sMacLo (by decide)]
  unfold wireOctets builtFrame
  rw [mac]

/-- A port whose frame has gone on the wire. -/
theorem portOf_putOnWire (p : Nat) (late : Bool) (f : QFrame) (s : State) :
    ∃ v, portOf (putOnWire p late f s) p = v ∧ v.wire = some (leaving s p late f) ∧ v.wireAt = s.ot ∧
      v.queue = (portOf s p).queue.erase f ∧ v.octets = wireOctets s p (leaving s p late f) := by
  refine ⟨_, portOf_setPort p _ _, rfl, ?_, ?_, ?_⟩
  · show (countTxBytes p f (unqueue p f s)).ot = _
    unfold countTxBytes
    split <;> rfl
  · show (portOf (countTxBytes p f (unqueue p f s)) p).queue = _
    unfold countTxBytes
    split
    · rw [portOf_setPort, unqueue, portOf_setPort]
    · rw [unqueue, portOf_setPort]
  · refine wireOctets_congr (fun r _ i => rd_congr ?_ r i 0) p _
    unfold countTxBytes
    split <;> rfl

theorem frame_starts {s : State} {p : Nat} {f : QFrame} (hp : p < 32) (hr : portReady s p = true) (hcls : f.cls < 8)
    (hf : headOf (portOf s p) f.cls = some f) (habove : ∀ k, f.cls < k → k < 8 → headOf (portOf s p) k = none) (h : MayStart s p f) :
    ∃ t g, exec (.frameStart p) s = .next t ∧ (portOf t p).wire = some g ∧ (portOf t p).wireAt = s.ot ∧
      (portOf t p).queue = (portOf s p).queue.erase f ∧ g = { f with late := g.late, bytes := g.bytes } ∧
      g.late = (f.late || lateNow s p f) ∧ (portOf t p).octets = wireOctets s p g ∧
      (on s fld.pcfg.MASTER p = false ∨ on s fld.pcfg.ONE_STEP p = false ∨ f.dest.isSome = true → g.bytes = f.bytes) := by
  obtain ⟨u, hu, hserve⟩ := serveHead_starts h
  have hk : Within (outside [.macHi, .macLo, .t1sMacHi, .t1sMacLo, .pcfg] [.ot, .prt]) s u := by
    rcases hu with rfl | rfl
    · exact Within.refl _
    · exact within_noteLaunchLate _ _ (by decide +kernel) (Within.refl _)
  have hot : u.ot = s.ot := hk.part .ot (by decide +kernel)
  have hport : portOf u p = portOf s p := portOf_prt (hk.part .prt (by decide +kernel)) p
  have octets : ∀ g, wireOctets u p g = wireOctets s p g :=
    wireOctets_congr (fun r hr i => hk.reg r (by revert r; decide +kernel) i 0) p
  have pcfg : rd u .pcfg p = rd s .pcfg p := hk.reg .pcfg (by decide +kernel) p 0
  obtain ⟨v, hv, hwire, hat, hqueue, hoct⟩ := portOf_putOnWire p (lateNow s p f) f u
  refine ⟨_, leaving u p (lateNow s p f) f, ?_, hv ▸ hwire, (hv ▸ hat).trans hot, by rw [hv, hqueue, hport], rfl, rfl,
    by rw [hv, hoct, octets], fun hplain => ?_⟩
  · show execFrameStart p s = _
    rw [execFrameStart, hr, if_neg (by simp; omega), servePort, serveFrom_head hf hserve 8 hcls habove]
  · have one : (on u fld.pcfg.MASTER p && on u fld.pcfg.ONE_STEP p && f.dest.isNone) = false := by
      rw [on_of_rd (f := fld.pcfg.MASTER) pcfg, on_of_rd (f := fld.pcfg.ONE_STEP) pcfg]
      rcases hplain with e | e | e
      · simp [e]
      · simp [e]
      · simp [e]
    unfold leaving
    rw [one]
    rfl

/-! ## A frame ends (R226, R248) -/

theorem counter_countSent {k : Nat} (hk : 128 ≤ k) (p : Nat) (f : QFrame) (s : State) (h : k = if p < 16 then ethCnt p 0 else t1sCnt (p - 16) 0) :
    counter (countSent p f s) k = counter s k + 1 := by
  have named : ∀ (c : Cnt) u, counter (bump c u) k = counter u k := fun c u =>
    counter_bump_ne c u k (by have := cnt_lt c; omega)
  have sent : counter (count (if p < 16 then ethCnt p 0 else t1sCnt (p - 16) 0) 1 s) k = counter s k + 1 := by
    rw [counter_count, if_pos h, h]
    rfl
  unfold countSent
  dsimp only
  split
  · exact (named _ _).trans sent
  · exact (named _ _).trans sent
  · split
    · exact (named _ _).trans sent
    · exact sent
  · exact sent

theorem portOf_countSent (p : Nat) (f : QFrame) (s : State) : portOf (countSent p f s) p = portOf s p := by
  unfold countSent
  dsimp only
  split
  · simp
  · simp
  · split <;> simp
  · simp

/-- A port after the end of the frame on its wire, with the timestamps it then holds. -/
def portAfter (v : Port) (f : QFrame) (idleAt burstAt : W64) (tsq : List TsEnt) : Port :=
  { v with wire := none, last := some f, idleAt := idleAt, coll := 0, judged := false, octets := [], burstAt := burstAt, tsq := tsq }

theorem frame_ends {s : State} {p : Nat} {f : QFrame} (hp : p < 32) (hw : (portOf s p).wire = some f) : ∃ t, exec (.txFrameEnd p) s = .next t ∧
    t.ot = timeAt s ((portOf s p).wireAt + BitVec.ofNat 64 (wireTime s p f)) ∧ (portOf t p).wire = none ∧
    (portOf t p).last = some f ∧ (portOf t p).queue = (if (portOf s p).dropDue then [] else (portOf s p).queue) ∧
    ∀ k, k = (if p < 16 then ethCnt p 0 else t1sCnt (p - 16) 0) → counter t k = counter s k + 1 := by
  generalize ha : advance ((portOf s p).wireAt + BitVec.ofNat 64 (wireTime s p f)) s = a
  generalize hc : countSent p f (setPort p (portAfter (portOf s p) f (if (portOf s p).queue.isEmpty then a.ot else (portOf s p).idleAt)
    a.ot (portOf s p).tsq) a) = c
  obtain ⟨r, n, hr, hex⟩ : ∃ r n, (r = c ∨ ∃ e, r = (tsqPush p e c).1) ∧
      exec (.txFrameEnd p) s = .next (settleDrop p (frameEnds f n r)) := by
    have hrun := execTxFrameEnd.eq_1 p s
    rw [hw] at hrun
    dsimp only at hrun
    rw [if_neg (by omega), ha] at hrun
    cases hts : f.tsreq with
    | false =>
      simp only [hts, Bool.false_eq_true, ↓reduceIte] at hrun
      exact ⟨c, _, .inl rfl, hrun.trans (by rw [← hc]; rfl)⟩
    | true =>
      simp only [hts, ↓reduceIte] at hrun
      exact ⟨_, _, .inr ⟨_, rfl⟩, hrun.trans (by rw [← hc]; rfl)⟩
  have hcport := hc ▸ (portOf_countSent p f _).trans (portOf_setPort p _ a)
  have hrport : ∃ i b q, portOf r p = portAfter (portOf s p) f i b q := by
    rcases hr with rfl | ⟨e, rfl⟩
    · exact ⟨_, _, _, hcport⟩
    · obtain ⟨q, hq⟩ := portOf_tsqPush p e c
      exact ⟨_, _, q, by rw [hq, hcport]; rfl⟩
  obtain ⟨i, b, q, hrport⟩ := hrport
  have hport := portOf_settleDrop p (frameEnds f n r)
  rw [portOf_frameEnds, hrport] at hport
  have keeps : Within (outside [] [.ot]) a (settleDrop p (frameEnds f n r)) := by
    have hcw : Within (outside [] [.ot]) a c := hc ▸ within_countSent _ _ (by decide +kernel) (within_setPort _ _ (by decide +kernel) (Within.refl a))
    have hrw : Within (outside [] [.ot]) a r := by
      rcases hr with rfl | ⟨e, rfl⟩
      · exact hcw
      · exact within_tsqPush _ _ (by decide +kernel) hcw
    exact within_settleDrop _ (by decide +kernel) (within_frameEnds _ _ (by decide +kernel) hrw)
  refine ⟨_, hex, ?_, ?_, ?_, ?_, fun k hk => ?_⟩
  · rw [keeps.part .ot (by decide +kernel), ← ha, advance_ot]
  · rw [hport]
    split <;> rfl
  · rw [hport]
    split <;> rfl
  · rw [hport]
    show Port.queue (if (portOf s p).dropDue then _ else _) = _
    split <;> rfl
  · have hk128 : 128 ≤ k := by
      rw [hk]
      unfold ethCnt t1sCnt
      split <;> omega
    have hd : k ≠ Cnt.evtDrop.ctorIdx := by have := cnt_lt .evtDrop; omega
    have hpo : k ≠ Cnt.poison.ctorIdx := by have := cnt_lt .poison; omega
    have hrc : counter r k = counter c k := by
      rcases hr with rfl | ⟨e, rfl⟩
      · rfl
      · exact counter_tsqPush hd hpo (by have := cnt_lt .tsLost; omega) p e c
    rw [counter_settleDrop hd hpo, counter_frameEnds hd hpo, hrc, ← hc, counter_countSent hk128 p f _ hk, counter_setPort, ← ha, counter_advance]

end Sys2Proof.Machine

/-!
Frames of TX rings, and gates with their spare bank (R242, R244, R245, R247).
-/

namespace Sys2Proof.Machine

/-! ## Frames of TX rings (R242, R247) -/

theorem ring_frame {s : State} {r : Nat} {d : TxDesc} {ds : List TxDesc} {data : List Byte} (hr : r < 64) (hrun : ringRuns s r 4 = true)
    (hflush : on s fld.ringCtrl.FLUSH r = false) (htest : blockTested s 24 = false) (hocc : (d :: ds).length ≤ ringOcc s r)
    (hn : (d :: ds).length ≤ 16) (hlen : (ringFrame r (get s fld.ringHead.HEAD r) d data).len ≤ 9600) (hsend : portSends s d.port.toNat = true) :
    ∃ t, exec (.txDescriptorFrame r (d :: ds) data false) s = .next t ∧
      get t fld.ringHead.HEAD r = (get s fld.ringHead.HEAD r + (d :: ds).length) % ringSize s r % 65536 ∧
      (portOf t d.port.toNat).queue = (portOf s d.port.toNat).queue ++ [ringFrame r (get s fld.ringHead.HEAD r) d data] := by
  generalize hv : (get s fld.ringHead.HEAD r + (d :: ds).length) % ringSize s r = v
  have head : advanceHead r (d :: ds).length s = put fld.ringHead.HEAD v s r := by
    rw [advanceHead, if_neg (by omega), hv]
  have sends : portSends (put fld.ringHead.HEAD v s r) d.port.toNat = true := by
    rw [← hsend]
    unfold portSends
    rw [put_member, on_put_reg _ _ _ _ _ _ _ _ (by decide), on_put_reg _ _ _ _ _ _ _ _ (by decide)]
  refine ⟨enqueue d.port.toNat (ringFrame r (get s fld.ringHead.HEAD r) d data) (put fld.ringHead.HEAD v s r), ?_, ?_, ?_⟩
  · show execTxDescriptorFrame r (d :: ds) data false s = _
    unfold execTxDescriptorFrame
    dsimp only
    rw [hrun, hflush, htest, if_neg (by simp; exact ⟨hr, hocc⟩), if_neg (by decide),
      if_neg (by simp only [Bool.or_eq_true, decide_eq_true_eq]; omega), head]
  · rw [enqueue, if_pos sends, get_congr (setPort_regs ..), get_put_same _ _ _ _ _ (by decide)]
    rfl
  · rw [queue_enqueue _ sends, portOf_put]

/-! ## Gates (R244, R245) -/

/-- A table of the entries that differ from the default reads as the function it was made from. -/
theorem map_get_tabulate {α : Type} [BEq α] [LawfulBEq α] (d : α) (g : Nat → α) (xs : List Nat) {k : Nat} (hk : k ∈ xs) :
    Map.get (fun _ => d) ((xs.map (fun i => (i, g i))).filter (fun x => x.2 != d)) k = g k := by
  have reads : Map.get (fun _ => d) ((xs.map (fun i => (i, g i))).filter (fun x => x.2 != d)) k = if k ∈ xs then g k else d := by
    clear hk
    induction xs with
    | nil => rfl
    | cons x xs ih =>
      rw [List.map_cons, List.filter_cons]
      by_cases hx : x = k
      · subst hx
        by_cases hd : g x = d
        · simp only [hd, bne_self_eq_false, Bool.false_eq_true, if_false, ih, ite_self]
        · simp [hd, Map.get]
      · have hm : (k ∈ x :: xs) = (k ∈ xs) := by simp [Ne.symm hx]
        simp only [hm, ← ih]
        split
        · simp [Map.get, hx]
        · rfl
  rw [reads, if_pos hk]

/-- One entry of the active bank written into the spare bank of the registers. -/
def bankEntry (gate : Map (Byte × W32)) (p i : Nat) (u : State) : State :=
  wr .gateDur (Map.get (fun _ => gateReset) gate i).2 (put fld.gateMask.MASK (Map.get (fun _ => gateReset) gate i).1.toNat u p i) p i

theorem spareEntry_of {s u : State} (h : ∀ r ∈ [RegId.gateMask, .gateDur], ∀ i j, rd u r i j = rd s r i j) (p i : Nat) :
    spareEntry u p i = spareEntry s p i := by
  unfold spareEntry
  rw [get_of_rd (f := fld.gateMask.MASK) (h .gateMask (by decide) p i), h .gateDur (by decide)]

theorem spareEntry_bankEntry (gate : Map (Byte × W32)) (p i : Nat) (u : State) :
    spareEntry (bankEntry gate p i u) p i = Map.get (fun _ => gateReset) gate i := by
  unfold spareEntry bankEntry
  rw [rd_wr_same, get_wr_reg _ _ _ _ _ _ _ _ (by decide), get_put_same _ _ _ _ _ (by decide)]
  have : (Map.get (fun _ => gateReset) gate i).1.toNat % 2 ^ fld.gateMask.MASK.w = (Map.get (fun _ => gateReset) gate i).1.toNat :=
    Nat.mod_eq_of_lt (BitVec.isLt _)
  rw [this, BitVec.ofNat_toNat, BitVec.setWidth_eq]

theorem spareEntry_bankEntry_ne (gate : Map (Byte × W32)) {p i k : Nat} (h : k ≠ i) (u : State) :
    spareEntry (bankEntry gate p k u) p i = spareEntry u p i := by
  have key : ∀ r : RegId, r.key p i ≠ r.key p k := fun r => by unfold RegId.key; omega
  have mask : ∀ v, get (put fld.gateMask.MASK v u p k) fld.gateMask.MASK p i = get u fld.gateMask.MASK p i :=
    fun v => get_of_rd (rd_wr_key _ _ _ _ _ _ _ _ (key _))
  unfold spareEntry bankEntry
  rw [rd_wr_key _ _ _ _ _ _ _ _ (key .gateDur), get_wr_reg _ _ _ _ _ _ _ _ (by decide), rd_put_reg _ _ _ _ _ _ _ _ (by decide), mask]

/-- The stages of a swap: the active bank goes into the registers, then LEN, BANK and SWAP change, then the spare bank is active. -/
theorem swapBanks_stages (p : Nat) (s : State) :
    ∃ b c, b = forEach (List.range 256) (bankEntry (portOf s p).gate p) s ∧
      c = put fld.gateCtrl.BANK (1 - get b fld.gateCtrl.BANK p) (put fld.gateCtrl.LEN (portOf s p).gateLen b p) p ∧
      swapBanks p s = setPort p { portOf c p with
        gate := ((List.range 256).map (fun i => (i, spareEntry s p i))).filter (fun x => x.2 != gateReset)
        gateLen := get s fld.gateCtrl.LEN p } (put fld.gateCtrl.SWAP 0 c p) := by
  unfold swapBanks
  generalize List.range 256 = xs
  exact ⟨_, _, rfl, rfl, rfl⟩

/-- The banks exchanged: the spare list is in force, and the registers hold what was. -/
theorem swapBanks_is (p : Nat) (s : State) (hlen : get s fld.gateCtrl.LEN p ≤ 256) :
    (portOf (swapBanks p s) p).active = spareList s p ∧ on (swapBanks p s) fld.gateCtrl.SWAP p = false ∧
      get (swapBanks p s) fld.gateCtrl.BANK p = 1 - get s fld.gateCtrl.BANK p ∧
      get (swapBanks p s) fld.gateCtrl.LEN p = (portOf s p).gateLen % 512 ∧
      ∀ i, i < 256 → spareEntry (swapBanks p s) p i = Map.get (fun _ => gateReset) (portOf s p).gate i := by
  obtain ⟨b, c, hb, hc, hswap⟩ := swapBanks_stages p s
  have bctrl : rd b .gateCtrl p = rd s .gateCtrl p := by
    rw [hb]
    exact rd_of_forEach (fun k u => by rw [bankEntry, rd_wr_reg (by decide), rd_put_reg _ _ _ _ _ _ _ _ (by decide)]) _ _
  have cbank : get c fld.gateCtrl.BANK p = 1 - get s fld.gateCtrl.BANK p := by
    rw [hc, get_put_same _ _ _ _ _ (by decide), get_of_rd (f := fld.gateCtrl.BANK) bctrl]
    exact Nat.mod_eq_of_lt (by show _ < 2; omega)
  have clen : get c fld.gateCtrl.LEN p = (portOf s p).gateLen % 512 := by
    rw [hc, get_put_fld _ _ _ _ _ _ (by rfl) (by decide) (by decide), get_put_same _ _ _ _ _ (by decide)]
    rfl
  have regs : (swapBanks p s).regs = (put fld.gateCtrl.SWAP 0 c p).regs := by rw [hswap, setPort_regs]
  refine ⟨?_, ?_, ?_, ?_, fun i hi => ?_⟩
  · rw [hswap, portOf_setPort]
    unfold Port.active spareList
    dsimp only
    refine List.map_congr_left fun i hi => map_get_tabulate _ _ _ ?_
    rw [List.mem_range] at hi ⊢
    omega
  · rw [on_congr regs, on_put_same _ _ _ _ _ (by decide) (by decide)]
    rfl
  · rw [get_congr regs, get_put_fld _ _ _ _ _ _ (by rfl) (by decide) (by decide), cbank]
  · rw [get_congr regs, get_put_fld _ _ _ _ _ _ (by rfl) (by decide) (by decide), clen]
  · have kept : spareEntry (swapBanks p s) p i = spareEntry b p i := spareEntry_of (fun r hr i j => by
      have hne : r ≠ .gateCtrl := by revert r; decide
      rw [rd_congr regs, rd_put_reg _ _ _ _ _ _ _ _ hne, hc, rd_put_reg _ _ _ _ _ _ _ _ hne, rd_put_reg _ _ _ _ _ _ _ _ hne]) p i
    rw [kept, hb]
    exact forEach_once (P := fun _ => True) (Q := fun u => spareEntry u p i = Map.get (fun _ => gateReset) (portOf s p).gate i)
      (List.mem_range.mpr hi) List.nodup_range (fun _ _ _ _ => trivial) (fun u _ => spareEntry_bankEntry _ p i u)
      (fun k u hk h => (spareEntry_bankEntry_ne _ hk u).trans h) trivial

/-- A swap leaves the gate setting in force and its cycle alone. -/
theorem swapBanks_setting (p : Nat) (s : State) : (portOf (swapBanks p s) p).gateOn = (portOf s p).gateOn ∧
    (portOf (swapBanks p s) p).cycle = (portOf s p).cycle := by
  obtain ⟨b, c, hb, hc, hswap⟩ := swapBanks_stages p s
  have bport : portOf b p = portOf s p := by
    rw [hb]
    exact forEach_same (portOf · p) _ (fun i u => by rw [bankEntry, portOf_wr, portOf_put]) _ _
  rw [hswap, portOf_setPort, hc, portOf_put, portOf_put, bport]
  exact ⟨rfl, rfl⟩

theorem gate_cycles {s : State} {p : Nat} {x : W64} (hp : p < 16) (hpres : portPresent s.member p = true) (hoff : (portOf s p).gateOn = none)
    (hen : on s fld.gateCtrl.GATE_EN p = true)
    (hx : nextCycle s (get s fld.gateCtrl.GATE_FC p) (rd s .gateOfs p) (laterOf (portOf s p).cycle (s.ot - 1)) = some x) :
    ∃ t, exec (.gateCycleStart p) s = .next t ∧ t.ot = timeAt s x ∧ (portOf t p).cycle = x ∧
      (portOf t p).gateOn = some (get s fld.gateCtrl.GATE_FC p, rd s .gateOfs p) ∧
      (on s fld.gateCtrl.SWAP p = false → (portOf t p).active = (portOf s p).active) ∧
      (on s fld.gateCtrl.SWAP p = true → get s fld.gateCtrl.LEN p ≤ 256 → (portOf t p).active = spareList s p ∧
        on t fld.gateCtrl.SWAP p = false ∧ get t fld.gateCtrl.BANK p = 1 - get s fld.gateCtrl.BANK p ∧
        get t fld.gateCtrl.LEN p = (portOf s p).gateLen % 512 ∧
        ∀ i, i < 256 → spareEntry t p i = Map.get (fun _ => gateReset) (portOf s p).gate i) := by
  generalize hu : setPort p { portOf (advance x s) p with
    gateOn := some (get s fld.gateCtrl.GATE_FC p, rd s .gateOfs p), cycle := x } (advance x s) = u
  have hregs : u.regs = s.regs := by rw [← hu, setPort_regs, advance_regs]
  have hport : portOf u p = { portOf s p with gateOn := some (get s fld.gateCtrl.GATE_FC p, rd s .gateOfs p), cycle := x } := by
    rw [← hu, portOf_setPort, portOf_advance]
  have hot : u.ot = timeAt s x := by rw [← hu, setPort_ot, advance_ot]
  have hex : exec (.gateCycleStart p) s = .next (if on s fld.gateCtrl.SWAP p then swapBanks p u else u) := by
    show execGateCycleStart p s = _
    unfold execGateCycleStart
    rw [hpres, if_neg (by simp; omega)]
    dsimp only
    rw [hoff, hx]
    dsimp only [earlierOf]
    rw [if_pos rfl, on_congr (advance_regs x s), hen, if_pos rfl, hu, on_congr hregs]
  obtain ⟨hon, hcycle⟩ := swapBanks_setting p u
  rw [hport] at hon hcycle
  refine ⟨_, hex, ?_, ?_, ?_, fun hs => ?_, fun hs hlen => ?_⟩
  · split
    · rw [(within_swapBanks (μ := outside [] [.ot]) p (by decide +kernel) (Within.refl u)).part .ot (by decide +kernel), hot]
    · exact hot
  · split
    · exact hcycle
    · rw [hport]
  · split
    · exact hon
    · rw [hport]
  · rw [hs, if_neg (by decide), hport]
    rfl
  · rw [hs, if_pos rfl]
    have swapped := swapBanks_is p u (by rw [get_congr hregs]; exact hlen)
    have list : spareList u p = spareList s p := by
      unfold spareList
      rw [get_congr hregs]
      exact List.map_congr_left fun i _ => spareEntry_of (fun r _ i j => rd_congr hregs r i j) p i
    rw [list, get_congr hregs, hport] at swapped
    exact swapped

theorem bit_mod (v k : Nat) (h : v / 2 ^ k % 2 = 1) : v.testBit k = true := by
  rw [Nat.testBit_eq_decide_div_mod_eq]
  exact decide_eq_true h

/-- A write of GATE_CTRL asks for the swap, and gives LEN a length from 1 to 256. -/
theorem gateCtrlWrite_is (s : State) (fn p : Nat) (v : W32) :
    (v.toNat / 8 % 2 = 1 → on (gateCtrlWrite (isPf fn) p v s) fld.gateCtrl.SWAP p = true) ∧ get (gateCtrlWrite (isPf fn) p v s) fld.gateCtrl.LEN p =
      (if 1 ≤ v.toNat / 256 % 512 ∧ v.toNat / 256 % 512 ≤ 256 then v.toNat / 256 % 512 else get s fld.gateCtrl.LEN p) := by
  obtain ⟨w, hw, hbit, hlen⟩ : ∃ w : W32, gateCtrlWrite (isPf fn) p v s = plainWrite (isPf fn) .gateCtrl p 0 w s ∧
      bitsOf w.toNat 3 1 = bitsOf v.toNat 3 1 ∧ bitsOf w.toNat 8 9 =
        (if 1 ≤ v.toNat / 256 % 512 ∧ v.toNat / 256 % 512 ≤ 256 then v.toNat / 256 % 512 else get s fld.gateCtrl.LEN p) := by
    unfold gateCtrlWrite
    dsimp only
    by_cases h : 1 ≤ v.toNat / 256 % 512 ∧ v.toNat / 256 % 512 ≤ 256
    · refine ⟨v, ?_, rfl, (if_pos h).symm⟩
      rw [if_neg (by simp only [Bool.or_eq_true, decide_eq_true_eq]; omega)]
    · refine ⟨BitVec.ofNat 32 (withBits v.toNat 8 9 (get s fld.gateCtrl.LEN p)), ?_, ?_, ?_⟩
      · rw [if_pos (by simp only [Bool.or_eq_true, decide_eq_true_eq]; omega)]
      · rw [BitVec.toNat_ofNat, bitsOf_mod _ _ _ (by decide), bitsOf_withBits_below _ _ _ _ _ _ (by decide)]
      · rw [if_neg h, BitVec.toNat_ofNat, bitsOf_mod _ _ _ (by decide), bitsOf_withBits_same]
        exact Nat.mod_eq_of_lt (get_lt s fld.gateCtrl.LEN p 0)
  rw [hw]
  refine ⟨fun hv => on_plainWrite_set (f := fld.gateCtrl.SWAP) rfl (by decide) (by decide) (bit_mod _ _ (hbit.trans hv)), ?_⟩
  exact (get_plainWrite (f := fld.gateCtrl.LEN) (by decide) (by decide) rfl).trans hlen

theorem swap_writes {s : State} {fn p : Nat} (v : W32) (hp : p < 16) (hw : Writable s fn .gateCtrl p 0) : ∃ t, exec (.swap fn p v) s = .next t ∧
    (v.toNat / 8 % 2 = 1 → on t fld.gateCtrl.SWAP p = true) ∧ get t fld.gateCtrl.LEN p =
      (if 1 ≤ v.toNat / 256 % 512 ∧ v.toNat / 256 % 512 ≤ 256 then v.toNat / 256 % 512 else get s fld.gateCtrl.LEN p) := by
  obtain ⟨x, hx, hex⟩ := hostWrite_of hw v (gateCtrlWrite (isPf fn) p v)
  refine ⟨gateCtrlWrite (isPf fn) p v x, ?_, ?_⟩
  · show execSwap fn p v s = _
    rw [execSwap, if_neg (by omega), hex]
  · rw [← hx.get fld.gateCtrl.LEN p 0 (by decide)]
    exact gateCtrlWrite_is x fn p v

end Sys2Proof.Machine

/-!
Links, LPI and disabled ports (R240, R252, R253, R390).
-/

namespace Sys2Proof.Machine

/-! ## Port events and the link (R240) -/

/-- Registers that a port event may write. -/
def portEventRegs : List RegId := [.portEvent, .ringTail, .ringStatus, .hostStatus]

theorem rd_portEvent (bit ev p : Nat) (s : State) {r : RegId} (hr : r ∉ portEventRegs) (i j : Nat) :
    rd (portEvent bit ev p s) r i j = rd s r i j := by
  simp only [portEventRegs, List.mem_cons, List.not_mem_nil, or_false, not_or] at hr
  obtain ⟨h1, h2, h3, h4⟩ := hr
  rw [portEvent, rd_raise _ _ _ _ _ _ h2 h3 h4, rd_setBit_reg _ _ _ _ _ _ _ _ h1]

theorem hasBit_portEvent {bit : Nat} (hb : bit < 6) (ev p : Nat) (s : State) :
    hasBit (portEvent bit ev p s) fld.portEvent.PORT_EVENT bit p = true := by
  rw [portEvent, hasBit_rd (rd_raise _ _ _ _ _ _ (by decide) (by decide) (by decide)), hasBit_setBit _ _ _ _ _ (by decide) hb]

theorem portEvent_ot (bit ev p : Nat) (s : State) : (portEvent bit ev p s).ot = s.ot := by
  rw [portEvent, raise_ot, setBit_ot]

theorem counter_portEvent {k : Nat} (hd : k ≠ Cnt.evtDrop.ctorIdx) (hp : k ≠ Cnt.poison.ctorIdx) (bit ev p : Nat) (s : State) :
    counter (portEvent bit ev p s) k = counter s k := by
  rw [portEvent, counter_raise _ _ _ _ hd hp]
  exact counter_congr (setBit_cnt ..) k

@[simp] theorem portOf_settleLink (p : Nat) (s : State) : portOf (settleLink p s) p = portOf s p := by
  unfold settleLink
  dsimp only
  split
  · rfl
  · rw [portOf_portEvent, portOf_put]

/-- LINK is what EN and block lock make it, and a change of it is an event. -/
theorem settleLink_is (p : Nat) (s : State) :
    on (settleLink p s) fld.portStatus.LINK p = (on s fld.macCtrl.EN p && (portOf s p).pcsUp) ∧
      (on s fld.portStatus.LINK p ≠ (on s fld.macCtrl.EN p && (portOf s p).pcsUp) →
        hasBit (settleLink p s) fld.portEvent.PORT_EVENT 0 p = true) := by
  unfold settleLink
  dsimp only
  generalize (on s fld.macCtrl.EN p && (portOf s p).pcsUp) = up
  by_cases h : up = on s fld.portStatus.LINK p
  · rw [if_pos (beq_iff_eq.mpr h)]
    exact ⟨h.symm, fun hne => absurd h.symm hne⟩
  · rw [if_neg (by simpa using h)]
    refine ⟨?_, fun _ => hasBit_portEvent (by decide) ..⟩
    rw [on_of_rd (f := fld.portStatus.LINK) (rd_portEvent _ _ _ _ (by decide) p 0), on_put_same _ _ _ _ _ (by decide) (by split <;> decide)]
    cases up <;> rfl

theorem portLink_changes {s : State} {p : Nat} (hp : p < 16) (up lpi : Bool) (hpres : portPresent s.member p = true) :
    ∃ t, exec (.linkChange p up lpi) s = .next t ∧ on t fld.portStatus.LINK p = (on s fld.macCtrl.EN p && up) ∧
      on t fld.portStatus.LPI_RX p = (lpi && on s fld.macCtrl.EN p && up) ∧
      (on s fld.portStatus.LINK p ≠ (on s fld.macCtrl.EN p && up) → hasBit t fld.portEvent.PORT_EVENT 0 p = true) := by
  generalize hu : setPort p { portOf s p with pcsUp := up } s = u
  have hregs : u.regs = s.regs := by rw [← hu, setPort_regs]
  have hpcs : (portOf u p).pcsUp = up := by rw [← hu, portOf_setPort]
  obtain ⟨hlink, hev⟩ := settleLink_is p u
  rw [hpcs, on_congr hregs] at hlink hev
  rw [on_congr hregs] at hev
  refine ⟨put fld.portStatus.LPI_RX (if (lpi && on (settleLink p u) fld.portStatus.LINK p) = true then 1 else 0) (settleLink p u) p, ?_, ?_, ?_, fun h => ?_⟩
  · show execLinkChange p up lpi s = _
    unfold execLinkChange
    rw [hpres, if_neg (by simp; omega), ← hu]
  · rw [on_put_fld _ _ _ _ _ _ (by rfl) (by decide) (by decide), hlink]
  · rw [on_put_same _ _ _ _ _ (by decide) (by split <;> decide), hlink, Bool.and_assoc]
    split <;> simp_all
  · rw [hasBit_put_reg _ _ _ _ _ _ _ _ _ (by decide)]
    exact hev h

/-! ## LPI (R252, R253) -/

/-- The end of LPI: LPI_TX is 0, and where it was 1 the port's frames wait Tw. -/
theorem leaveLpi_is (p : Nat) (s : State) : on (leaveLpi p s) fld.portStatus.LPI_TX p = false ∧
    (∃ w, portOf (leaveLpi p s) p = { portOf s p with wakeAt := w } ∧
      (on s fld.portStatus.LPI_TX p = true → w = some (s.ot + BitVec.ofNat 64 (wakeTime s p)))) ∧
    on (leaveLpi p s) fld.portStatus.LINK p = on s fld.portStatus.LINK p ∧
    (∀ r, r ≠ .portStatus → ∀ i j, rd (leaveLpi p s) r i j = rd s r i j) ∧ (leaveLpi p s).ot = s.ot := by
  unfold leaveLpi
  split
  · refine ⟨?_, ⟨_, by rw [portOf_put, portOf_setPort], fun _ => rfl⟩, ?_, fun r hr i j => ?_, ?_⟩
    · rw [on_put_same _ _ _ _ _ (by decide) (by decide)]
      rfl
    · rw [on_put_fld _ _ _ _ _ _ (by rfl) (by decide) (by decide), on_congr (setPort_regs ..)]
    · rw [rd_put_reg _ _ _ _ _ _ _ _ hr, rd_congr (setPort_regs ..)]
    · rw [put_ot, setPort_ot]
  · rename_i h
    have h := Bool.eq_false_iff.mpr h
    exact ⟨h, ⟨(portOf s p).wakeAt, rfl, fun e => absurd (h.symm.trans e) (by decide)⟩, rfl, fun _ _ _ _ => rfl, rfl⟩

theorem lpi_enters {s : State} {p : Nat} (hp : p < 16) (hs : portSends s p = true) (hen : on s fld.macCtrl.LPI_EN p = true)
    (hok : on s fld.eeeCfg.EEE_OK p = true) (htx : on s fld.portStatus.LPI_TX p = false) (hq : (portOf s p).queue = [])
    (hw : (portOf s p).wire = none) : ∃ t, exec (.lpiEnter p) s = .next t ∧ on t fld.portStatus.LPI_TX p = true ∧
      t.ot = timeAt s ((portOf s p).idleAt + BitVec.ofNat 64 (get s fld.lpiCfg.LPI_IDLE p * 1000)) ∧
      counter t (ethCnt p 14) = counter s (ethCnt p 14) + 1 := by
  generalize hx : (portOf s p).idleAt + BitVec.ofNat 64 (get s fld.lpiCfg.LPI_IDLE p * 1000) = x
  refine ⟨put fld.portStatus.LPI_TX 1 (count (ethCnt p 14) 1 (advance x s)) p, ?_, ?_, ?_, ?_⟩
  · show execLpiEnter p s = _
    unfold execLpiEnter
    dsimp only
    rw [hs, hen, hok, htx, hq, hw, if_neg (by simp; omega), hx]
  · rw [on_put_same _ _ _ _ _ (by decide) (by decide)]
    rfl
  · exact (put_ot ..).trans (advance_ot x s)
  · rw [counter_put, counter_count, if_pos rfl, counter_advance]
    rfl

theorem lpi_wakes {s : State} {p : Nat} (hp : p < 16) (htx : on s fld.portStatus.LPI_TX p = true) (hq : (portOf s p).queue ≠ []) :
    ∃ t, exec (.lpiWake p) s = .next t ∧ on t fld.portStatus.LPI_TX p = false ∧
      (portOf t p).wakeAt = some (t.ot + BitVec.ofNat 64 (wakeTime s p)) ∧
      t.ot = match firstLaunch (portOf s p).queue with
        | some x => timeAt s (x - BitVec.ofNat 64 (wakeTime s p))
        | none => s.ot := by
  obtain ⟨u, hu, hot, hregs⟩ : ∃ u, exec (.lpiWake p) s = .next (leaveLpi p u) ∧ (u.ot = match firstLaunch (portOf s p).queue with
        | some x => timeAt s (x - BitVec.ofNat 64 (wakeTime s p))
        | none => s.ot) ∧ u.regs = s.regs := by
    have hrun := execLpiWake.eq_1 p s
    dsimp only at hrun
    rw [htx, if_neg (by simp [hq]; omega)] at hrun
    refine ⟨_, hrun, ?_, ?_⟩
    · cases firstLaunch (portOf s p).queue with
      | none => rfl
      | some x => exact advance_ot _ s
    · cases firstLaunch (portOf s p).queue with
      | none => rfl
      | some x => exact advance_regs _ s
  obtain ⟨hoff, ⟨w, hw, hwake⟩, -, -, hleave⟩ := leaveLpi_is p u
  refine ⟨_, hu, hoff, ?_, hleave.trans hot⟩
  have hwt : wakeTime u p = wakeTime s p := by
    unfold wakeTime
    rw [get_congr hregs, get_congr hregs]
  rw [hw, hleave, ← hwt]
  exact hwake ((on_congr hregs _ _ _).trans htx)

theorem eee_ends {s : State} {fn p : Nat} {v : W32} (hp : p < 16) (htx : on s fld.portStatus.LPI_TX p = true) (hv : v.toNat / 2 ^ 16 % 2 = 0)
    (hw : Writable s fn .eeeCfg p 0) : ∃ t, exec (.eeeOkWrite fn p v) s = .next t ∧
      on t fld.eeeCfg.EEE_OK p = false ∧ on t fld.portStatus.LPI_TX p = false ∧
      (portOf t p).wakeAt = some (t.ot + BitVec.ofNat 64 (wakeTime t p)) := by
  obtain ⟨x, hx, hex⟩ := hostWrite_of hw v (eeeCfgWrite (isPf fn) p v)
  generalize hz : plainWrite (isPf fn) .eeeCfg p 0 v x = z
  have hok : on z fld.eeeCfg.EEE_OK p = false := by
    rw [← hz]
    refine (on_plainWrite (f := fld.eeeCfg.EEE_OK) (by decide) (by decide) rfl).trans ?_
    rw [show bitsOf v.toNat fld.eeeCfg.EEE_OK.lo fld.eeeCfg.EEE_OK.w = 0 from hv]
    rfl
  have htx' : on z fld.portStatus.LPI_TX p = true := by
    rw [← htx, ← hx.on fld.portStatus.LPI_TX p 0 (by decide), ← hz]
    exact on_wr_reg _ _ _ _ _ _ _ _ (by decide)
  obtain ⟨hoff, ⟨w, hwport, hwake⟩, -, hregs, hot⟩ := leaveLpi_is p z
  have hwt : wakeTime (leaveLpi p z) p = wakeTime z p := by
    unfold wakeTime
    rw [get_of_rd (f := fld.eeeCfg.TW_SYS_TX) (hregs _ (by decide) _ _), get_of_rd (f := fld.lpiCfg.TW_MIN) (hregs _ (by decide) _ _)]
  refine ⟨leaveLpi p z, ?_, ?_, hoff, ?_⟩
  · show execEeeOkWrite fn p v s = _
    rw [execEeeOkWrite, if_neg (by omega), hex, eeeCfgWrite, hz, hok]
    rfl
  · exact (on_of_rd (hregs _ (by decide) p 0)).trans hok
  · rw [hwport, hot, hwt]
    exact hwake htx'

/-! ## Ports disabled (R390) -/

/-- A port that is switched off: its queue is dropped at once, or when the frame on its wire ends. -/
theorem enableEdge_off (p : Nat) (s : State) : (portOf (enableEdge p true false s) p).wire = (portOf s p).wire ∧
    ((portOf s p).wire = none → (portOf (enableEdge p true false s) p).queue = []) ∧
    ((portOf s p).wire ≠ none → (portOf (enableEdge p true false s) p).queue = (portOf s p).queue ∧
      (portOf (enableEdge p true false s) p).dropDue = true) := by
  have form : enableEdge p true false s =
    if (portOf s p).wire.isSome then setPort p { portOf s p with dropDue := true } s else dropQueue p s := rfl
  rw [form]
  cases h : (portOf s p).wire with
  | none =>
    simp only [Option.isSome_none, Bool.false_eq_true, if_false, portOf_dropQueue]
    exact ⟨h, fun _ => trivial, fun hne => absurd rfl hne⟩
  | some f =>
    simp only [Option.isSome_some, if_true, portOf_setPort]
    exact ⟨h, (fun e => nomatch e), fun _ => ⟨trivial, trivial⟩⟩

/-- A write of MAC_CTRL that switches a port off, in its steps. -/
theorem macCtrlWrite_off {pf : Bool} {p : Nat} {v : W32} {x : State} (hen : on x fld.macCtrl.EN p = true)
    (hoff : on (plainWrite pf .macCtrl p 0 v x) fld.macCtrl.EN p = false) :
    ∃ k, k = settleLink p (enableEdge p true false (leaveLpi p (plainWrite pf .macCtrl p 0 v x))) ∧
      macCtrlWrite pf p v x = if on k fld.portStatus.LINK p then k else put fld.portStatus.LPI_RX 0 k p := by
  refine ⟨_, rfl, ?_⟩
  have hlen : on (leaveLpi p (plainWrite pf .macCtrl p 0 v x)) fld.macCtrl.EN p = false := by
    obtain ⟨-, -, -, hregs, -⟩ := leaveLpi_is p (plainWrite pf .macCtrl p 0 v x)
    exact (on_of_rd (hregs _ (by decide) p 0)).trans hoff
  unfold macCtrlWrite
  simp only [hen, hoff, hlen, Bool.false_and, Bool.false_eq_true, if_false]

theorem ethernet_disables {s : State} {fn p : Nat} {v : W32} (hp : p < 16) (hv : v.toNat % 2 = 0) (hw : Writable s fn .macCtrl p 0)
    (hen : on s fld.macCtrl.EN p = true) : ∃ t, exec (.portDisable fn p v) s = .next t ∧
      on t fld.macCtrl.EN p = false ∧ on t fld.portStatus.LINK p = false ∧ (portOf t p).wire = (portOf s p).wire ∧
      ((portOf s p).wire = none → (portOf t p).queue = []) ∧
      ((portOf s p).wire ≠ none → (portOf t p).queue = (portOf s p).queue ∧ (portOf t p).dropDue = true) ∧
      (on s fld.portStatus.LINK p = true → hasBit t fld.portEvent.PORT_EVENT 0 p = true) := by
  obtain ⟨x, hx, hex⟩ := hostWrite_of hw v (macCtrlWrite (isPf fn) p v)
  have hoff : on (plainWrite (isPf fn) .macCtrl p 0 v x) fld.macCtrl.EN p = false := by
    refine (on_plainWrite (f := fld.macCtrl.EN) (by decide) (by decide) rfl).trans ?_
    rw [show bitsOf v.toNat fld.macCtrl.EN.lo fld.macCtrl.EN.w = 0 by simpa [bitsOf, fld.macCtrl.EN] using hv]
    rfl
  obtain ⟨k, hk, hwrite⟩ := macCtrlWrite_off ((hx.on fld.macCtrl.EN p 0 (by decide)).trans hen) hoff
  have hzport : portOf (plainWrite (isPf fn) .macCtrl p 0 v x) p = portOf s p := by rw [portOf_plainWrite, portOf_prt hx.prt]
  have hzlink : on (plainWrite (isPf fn) .macCtrl p 0 v x) fld.portStatus.LINK p = on s fld.portStatus.LINK p :=
    (on_wr_reg _ _ _ _ _ _ _ _ (by decide)).trans (hx.on _ _ _ (by decide))
  generalize plainWrite (isPf fn) .macCtrl p 0 v x = z at hoff hk hzport hzlink
  obtain ⟨-, ⟨w, hlport, -⟩, hllink, hlregs, -⟩ := leaveLpi_is p z
  generalize leaveLpi p z = l at hk hlport hllink hlregs
  obtain ⟨hwire, hnone, hsome⟩ := enableEdge_off p l
  have hd : Within (outside [.macCtrl, .portStatus] []) l (enableEdge p true false l) :=
    within_enableEdge p true false (by decide +kernel) (Within.refl l)
  generalize enableEdge p true false l = d at hk hwire hnone hsome hd
  rw [hlport, hzport] at hwire hnone hsome
  have hden : on d fld.macCtrl.EN p = false :=
    ((on_of_rd (hd.reg _ (by decide +kernel) p 0)).trans (on_of_rd (hlregs _ (by decide) p 0))).trans hoff
  have hdlink : on d fld.portStatus.LINK p = on s fld.portStatus.LINK p :=
    ((on_of_rd (hd.reg _ (by decide +kernel) p 0)).trans hllink).trans hzlink
  obtain ⟨hklink, hkev⟩ := settleLink_is p d
  rw [hden, Bool.false_and, ← hk] at hklink hkev
  have hken : on k fld.macCtrl.EN p = false := by
    rw [hk]
    exact (on_of_rd (f := fld.macCtrl.EN) ((within_settleLink (μ := outside [.macCtrl] []) p (by decide +kernel)
      (Within.refl d)).reg _ (by decide +kernel) p 0)).trans hden
  have hkport : portOf k p = portOf d p := by rw [hk, portOf_settleLink]
  rw [hklink, if_neg (by decide)] at hwrite
  refine ⟨put fld.portStatus.LPI_RX 0 k p, ?_, ?_, ?_, ?_⟩
  · show execPortDisable fn p v s = _
    rw [execPortDisable, if_neg (by omega), if_pos hp, hex, hwrite]
  · rw [on_put_reg _ _ _ _ _ _ _ _ (by decide), hken]
  · rw [on_put_fld _ _ _ _ _ _ (by rfl) (by decide) (by decide), hklink]
  · rw [portOf_put, hkport, hasBit_put_reg _ _ _ _ _ _ _ _ _ (by decide)]
    exact ⟨hwire, hnone, hsome, fun h => hkev (by rw [hdlink, h]; decide)⟩

/-! ## PLCA (R266) -/

/-- PLCA as it is shown, and what else of the port changes: the transmit opportunity begins anew. -/
theorem showPlca_is (t : Nat) (active : Bool) (s : State) : on (showPlca t active s) fld.t1sStatus.PLCA t = active ∧
    ∃ n, portOf (showPlca t active s) (16 + t) = { portOf s (16 + t) with burst := n } := by
  unfold showPlca
  by_cases h : on s fld.t1sStatus.PLCA t = active
  · rw [if_pos (beq_iff_eq.mpr h)]
    exact ⟨h, (portOf s (16 + t)).burst, rfl⟩
  · rw [if_neg (by simpa using h)]
    refine ⟨?_, 0, by rw [portOf_raise, portOf_put, portOf_setPort]⟩
    rw [on_raise _ _ _ _ _ _ (by decide) (by decide) (by decide), on_put_same _ _ _ _ _ (by decide) (by split <;> decide)]
    cases active <;> rfl

theorem t1s_disables {s : State} {fn p : Nat} {v : W32} (hp : p < 16) (hv : v.toNat % 2 = 0) (hw : Writable s fn .t1sCtrl p 0)
    (hen : on s fld.t1sCtrl.EN p = true) : ∃ t, exec (.portDisable fn (16 + p) v) s = .next t ∧ on t fld.t1sCtrl.EN p = false ∧
      on t fld.t1sStatus.PLCA p = false ∧ ((portOf s (16 + p)).wire = none → (portOf t (16 + p)).queue = []) ∧
      ((portOf s (16 + p)).wire ≠ none → (portOf t (16 + p)).queue = (portOf s (16 + p)).queue ∧ (portOf t (16 + p)).dropDue = true) := by
  obtain ⟨x, hx, hex⟩ := hostWrite_of hw v (t1sCtrlWrite (isPf fn) p v)
  generalize hz : plainWrite (isPf fn) .t1sCtrl p 0 v x = z
  have hoff : on z fld.t1sCtrl.EN p = false := by
    rw [← hz]
    refine (on_plainWrite (f := fld.t1sCtrl.EN) (by decide) (by decide) rfl).trans ?_
    rw [show bitsOf v.toNat fld.t1sCtrl.EN.lo fld.t1sCtrl.EN.w = 0 by simpa [bitsOf, fld.t1sCtrl.EN] using hv]
    rfl
  have hzport : portOf z (16 + p) = portOf s (16 + p) := by rw [← hz, portOf_plainWrite, portOf_prt hx.prt]
  obtain ⟨-, hnone, hsome⟩ := enableEdge_off (16 + p) z
  have hd : Within (outside [.t1sCtrl] []) z (enableEdge (16 + p) true false z) :=
    within_enableEdge (16 + p) true false (by decide +kernel) (Within.refl z)
  generalize hdd : enableEdge (16 + p) true false z = d at hnone hsome hd
  rw [hzport] at hnone hsome
  have hden : on d fld.t1sCtrl.EN p = false := (on_of_rd (f := fld.t1sCtrl.EN) (hd.reg _ (by decide +kernel) p 0)).trans hoff
  have hwrite : t1sCtrlWrite (isPf fn) p v x = showPlca p false d := by
    unfold t1sCtrlWrite settlePlca
    simp only [hx.on fld.t1sCtrl.EN p 0 (by decide), hen, hz, hoff, hdd, hden, Bool.not_false, Bool.true_or, if_true]
  obtain ⟨hplca, n, hport⟩ := showPlca_is p false d
  refine ⟨showPlca p false d, ?_, ?_, hplca, ?_, ?_⟩
  · show execPortDisable fn (16 + p) v s = _
    rw [execPortDisable, if_neg (by omega), if_neg (by omega), Nat.add_sub_cancel_left, hex, hwrite]
  · exact (on_of_rd (f := fld.t1sCtrl.EN) ((within_showPlca (μ := outside [.t1sCtrl] []) p false (by decide +kernel)
      (Within.refl d)).reg _ (by decide +kernel) p 0)).trans hden
  · rw [hport]
    exact hnone
  · rw [hport]
    exact hsome

end Sys2Proof.Machine

/-!
Pause with its watchdog, and 10BASE-T1S (R250, R251, R265, R266).
-/

namespace Sys2Proof.Machine

/-! ## Pause (R250, R251) -/

/-- What a pause of one class does: the class's own end of pause, and nothing of the other classes. -/
theorem pauseClass_is (p c q : Nat) (s : State) : (pauseClass p c q s).ot = s.ot ∧ (pauseClass p c q s).regs = s.regs ∧
    (portOf (pauseClass p c q s) p).wdEnd = (portOf s p).wdEnd ∧
    (∀ k, k ≠ c → Map.find? (portOf (pauseClass p c q s) p).paused k = Map.find? (portOf s p).paused k) ∧
    (Map.find? (portOf s p).wdEnd c = none → Map.find? (portOf (pauseClass p c q s) p).paused c =
      if q = 0 then none else some (s.ot + BitVec.ofNat 64 ((q * 512 * bitTime s p + 99) / 100))) := by
  unfold pauseClass
  dsimp only
  split
  · rename_i h
    exact ⟨rfl, rfl, rfl, fun _ _ => rfl, fun e => by simp [e] at h⟩
  · split
    · rw [portOf_setPort]
      exact ⟨rfl, rfl, rfl, fun k hk => map_find_del_ne _ hk, fun _ => map_find_del_same _ _⟩
    · rw [portOf_setPort]
      exact ⟨rfl, rfl, rfl, fun k hk => map_find_put_ne _ _ hk, fun _ => map_find_put_same _ _ _⟩

theorem bitTime_congr {s u : State} (h : u.regs = s.regs) (p : Nat) : bitTime u p = bitTime s p := by
  unfold bitTime
  rw [on_congr h]

/-- Classes paused one after the other: each is paused for its own quanta. -/
theorem pauses_classes {p cls : Nat} {quanta : Nat → Nat} {xs : List Nat} {a : State} (hx : cls ∈ xs) (hn : xs.Nodup)
    (hwd : Map.find? (portOf a p).wdEnd cls = none) : Map.find? (portOf (forEach xs (fun c u => pauseClass p c (quanta c) u) a) p).paused cls =
      if quanta cls = 0 then none else some (a.ot + BitVec.ofNat 64 ((quanta cls * 512 * bitTime a p + 99) / 100)) := by
  refine forEach_once (P := fun u => u.ot = a.ot ∧ u.regs = a.regs ∧ Map.find? (portOf u p).wdEnd cls = none)
    (Q := fun u => Map.find? (portOf u p).paused cls =
      if quanta cls = 0 then none else some (a.ot + BitVec.ofNat 64 ((quanta cls * 512 * bitTime a p + 99) / 100))) hx hn ?keepP ?set ?keepQ ⟨rfl, rfl, hwd⟩
  case keepP =>
    rintro c u - ⟨hot, hregs, hnone⟩
    obtain ⟨h1, h2, h3, -, -⟩ := pauseClass_is p c (quanta c) u
    exact ⟨h1.trans hot, h2.trans hregs, by rw [h3, hnone]⟩
  case set =>
    rintro u ⟨hot, hregs, hnone⟩
    obtain ⟨-, -, -, -, h⟩ := pauseClass_is p cls (quanta cls) u
    rw [h hnone, hot, bitTime_congr hregs]
  case keepQ =>
    intro c u hc h
    obtain ⟨-, -, -, hother, -⟩ := pauseClass_is p c (quanta c) u
    rw [hother cls (Ne.symm hc), h]

/-- A pause message asks `q` quanta of a class, and PAUSE_MODE lets the port take it. -/
def Asks (s : State) (p cls q : Nat) (m : PauseMsg) : Prop :=
  (∃ x, m = .pause x ∧ get s fld.macCtrl.PAUSE_MODE p = 1 ∧ q = x.toNat) ∨
    (∃ en qs, m = .pfc en qs ∧ get s fld.macCtrl.PAUSE_MODE p = 2 ∧ opens en cls = true ∧ q = (qs.getD cls 0).toNat)

theorem takePause_asked {s : State} {p cls q : Nat} {m : PauseMsg} (h : Asks s p cls q m) (hcls : cls < 8)
    (hwd : Map.find? (portOf s p).wdEnd cls = none) : Map.find? (portOf (takePause p m s) p).paused cls =
      if q = 0 then none else some (s.ot + BitVec.ofNat 64 ((q * 512 * bitTime s p + 99) / 100)) := by
  rcases h with ⟨x, rfl, hmode, rfl⟩ | ⟨en, qs, rfl, hmode, hopen, rfl⟩
  · rw [takePause, if_pos hmode]
    exact pauses_classes (quanta := fun _ => x.toNat) (List.mem_range.mpr hcls) List.nodup_range hwd
  · rw [takePause, if_pos hmode]
    exact pauses_classes (quanta := fun c => (qs.getD c 0).toNat)
      (List.mem_filter.mpr ⟨List.mem_range.mpr hcls, hopen⟩) (List.nodup_range.filter _) hwd

/-- A frame that a port hears: time comes to its arrival, and it is counted. -/
theorem portHeard_is {p : Nat} (hp : p < 16) (m : RxFrame) (s : State) : (heardFrame p m s).ot = timeAt s m.at_ ∧
    (heardFrame p m s).regs = s.regs ∧ (portOf (heardFrame p m s) p).wdEnd = (portOf s p).wdEnd ∧
    ∀ k, k ≠ ethCnt p 1 → counter (heardFrame p m s) k = counter s k := by
  have counted : ∀ k, k ≠ ethCnt p 1 → counter (count (ethCnt p 1) 1 (advance m.at_ s)) k = counter s k := fun k hk => by
    rw [counter_count, if_neg hk, counter_advance]
  have port : portOf (count (ethCnt p 1) 1 (advance m.at_ s)) p = portOf s p := by rw [portOf_count, portOf_advance]
  unfold heardFrame rxCount
  rw [if_pos hp]
  dsimp only
  split
  · exact ⟨advance_ot _ s, advance_regs _ s, by rw [portOf_setPort, port], fun k hk => (counter_setPort ..).trans (counted k hk)⟩
  · exact ⟨advance_ot _ s, advance_regs _ s, by rw [port], counted⟩

theorem frame_pauses {s : State} {p cls q : Nat} {h : RxFrame} {m : PauseMsg} (hp : p < 16) (hr : rxRoute s p h = .pause m) (hcls : cls < 8)
    (hwd : Map.find? (portOf s p).wdEnd cls = none) (hask : Asks s p cls q m) : ∃ t, exec (.pauseFrame p h) s = .next t ∧
      t.ot = timeAt s h.at_ ∧ counter t (ethCnt p 10) = counter s (ethCnt p 10) + 1 ∧ Map.find? (portOf t p).paused cls =
        if q = 0 then none else some (t.ot + BitVec.ofNat 64 ((q * 512 * bitTime s p + 99) / 100)) := by
  obtain ⟨hot, hregs, hport, hcnt⟩ := portHeard_is hp h s
  generalize hu : count (ethCnt p 10) 1 (heardFrame p h s) = u
  have uot : u.ot = timeAt s h.at_ := by rw [← hu]; exact hot
  have uregs : u.regs = s.regs := by rw [← hu]; exact hregs
  have uwd : Map.find? (portOf u p).wdEnd cls = none := by rw [← hu, portOf_count, hport, hwd]
  have ucnt : counter u (ethCnt p 10) = counter s (ethCnt p 10) + 1 := by
    rw [← hu, counter_count, if_pos rfl, hcnt _ (by unfold ethCnt; omega)]
    rfl
  have uask : Asks u p cls q m := by
    unfold Asks
    rw [get_congr uregs]
    exact hask
  have keeps : Within (outside [] [.ot, .cnt]) u (takePause p m u) := within_takePause p m (by decide +kernel) (Within.refl u)
  have tot : (showPaused p (takePause p m u)).ot = timeAt s h.at_ := ((put_ot ..).trans (keeps.part .ot (by decide +kernel))).trans uot
  refine ⟨showPaused p (takePause p m u), ?_, tot, ?_, ?_⟩
  · show execPauseFrame p h s = _
    unfold execPauseFrame
    rw [hr]
    dsimp only
    rw [if_pos hp, hu]
  · rw [← ucnt]
    exact (counter_put ..).trans (counter_congr (keeps.part .cnt (by decide +kernel)) _)
  · rw [tot, showPaused, portOf_put, takePause_asked uask hcls uwd, uot, bitTime_congr uregs]

theorem pause_expires {s : State} {p cls : Nat} {x : W64} (h : Map.find? (portOf s p).paused cls = some x) :
    ∃ t, exec (.pauseExpire p cls) s = .next t ∧ t.ot = timeAt s x ∧ Map.find? (portOf t p).paused cls = none ∧
      ∀ k, k ≠ cls → Map.find? (portOf t p).paused k = Map.find? (portOf s p).paused k := by
  have hrun := execPauseExpire.eq_1 p cls s
  rw [h] at hrun
  refine ⟨_, hrun, ?_, ?_, fun k hk => ?_⟩
  · exact (put_ot ..).trans (advance_ot x s)
  · rw [showPaused, portOf_put, portOf_setPort]
    exact map_find_del_same _ _
  · rw [showPaused, portOf_put, portOf_setPort, portOf_advance]
    exact map_find_del_ne _ hk

theorem showPaused_ot (p : Nat) (s : State) : (showPaused p s).ot = s.ot := put_ot ..

theorem showWd_ot (p : Nat) (s : State) : (showWd p s).ot = s.ot := put_ot ..

theorem watchdog_trips {s : State} {p cls : Nat} {x w : W64} (h : Map.find? (portOf s p).paused cls = some x)
    (hw : w = Map.get (fun _ => s.ot) (portOf s p).pausedAt cls + BitVec.ofNat 64 (get s fld.pauseCfg.PAUSE_WD p * 1000))
    (hlater : 0 < timeDiff x w) : ∃ t, exec (.pauseWdTrip p cls) s = .next t ∧ t.ot = timeAt s w ∧
      Map.find? (portOf t p).paused cls = none ∧ hasBit t fld.portEvent.PORT_EVENT 1 p = true ∧
      counter t (ethCnt p 11) = counter s (ethCnt p 11) + 1 ∧ Map.find? (portOf t p).wdEnd cls =
        some (t.ot + BitVec.ofNat 64 (get s fld.pauseCfg.PAUSE_REC p * 1000000)) := by
  have hd : ethCnt p 11 ≠ Cnt.evtDrop.ctorIdx := by have := cnt_lt .evtDrop; unfold ethCnt; omega
  have hpo : ethCnt p 11 ≠ Cnt.poison.ctorIdx := by have := cnt_lt .poison; unfold ethCnt; omega
  generalize hu : setPort p { portOf s p with
    paused := Map.del (portOf s p).paused cls, pausedAt := Map.del (portOf s p).pausedAt cls
    wdEnd := Map.put (portOf s p).wdEnd cls (timeAt s w + BitVec.ofNat 64 (get s fld.pauseCfg.PAUSE_REC p * 1000000)) } (advance w s) = u
  have uport : portOf u p = { portOf s p with
    paused := Map.del (portOf s p).paused cls, pausedAt := Map.del (portOf s p).pausedAt cls
    wdEnd := Map.put (portOf s p).wdEnd cls (timeAt s w + BitVec.ofNat 64 (get s fld.pauseCfg.PAUSE_REC p * 1000000)) } := by
    rw [← hu, portOf_setPort]
  have tot : (portEvent 1 81 p (count (ethCnt p 11) 1 (showWd p (showPaused p u)))).ot = timeAt s w := by
    rw [portEvent_ot]
    rw [count_ot, showWd_ot, showPaused_ot, ← hu, setPort_ot, advance_ot]
  have tport : portOf (portEvent 1 81 p (count (ethCnt p 11) 1 (showWd p (showPaused p u)))) p = portOf u p := by
    rw [portOf_portEvent, portOf_count, showWd, portOf_put, showPaused, portOf_put]
  refine ⟨_, ?_, tot, ?_, hasBit_portEvent (by decide) 81 p _, ?_, ?_⟩
  · show execPauseWdTrip p cls s = _
    unfold execPauseWdTrip
    dsimp only
    rw [h]
    dsimp only
    rw [← hw, if_neg (by omega), get_advance, advance_ot, hu]
  · rw [tport, uport]
    exact map_find_del_same _ _
  · rw [counter_portEvent hd hpo, counter_count, if_pos rfl, showWd, counter_put, showPaused, counter_put, ← hu, counter_setPort, counter_advance]
    rfl
  · rw [tport, uport, tot]
    exact map_find_put_same _ _ _

theorem watchdog_ends {s : State} {p cls : Nat} {x : W64} (h : Map.find? (portOf s p).wdEnd cls = some x) :
    ∃ t, exec (.pauseRecEnd p cls) s = .next t ∧ t.ot = timeAt s x ∧ Map.find? (portOf t p).wdEnd cls = none := by
  have hrun := execPauseRecEnd.eq_1 p cls s
  rw [h] at hrun
  refine ⟨_, hrun, ?_, ?_⟩
  · exact (put_ot ..).trans (advance_ot x s)
  · rw [showWd, portOf_put, portOf_setPort]
    exact map_find_del_same _ _

/-! ## 10BASE-T1S (R265, R266) -/

theorem settleDrop_wire (p : Nat) (s : State) : (portOf (settleDrop p s) p).wire = (portOf s p).wire := by
  rw [portOf_settleDrop]
  split <;> rfl

theorem settleDrop_queue (p : Nat) (s : State) : (portOf (settleDrop p s) p).queue = if (portOf s p).dropDue then [] else (portOf s p).queue := by
  rw [portOf_settleDrop]
  split <;> rfl

theorem settleDrop_of_kept {p : Nat} {s : State} (h : (portOf s p).dropDue = false) : settleDrop p s = s :=
  if_neg (by rw [h]; decide)

/-- A collision counted. -/
def collided (l : Bool) (s : State) : State := if l then bump .t1sLateColl (bump .t1sColl s) else bump .t1sColl s

theorem collided_is (l : Bool) (s : State) : (collided l s).regs = s.regs ∧ (collided l s).ot = s.ot ∧ (∀ p, portOf (collided l s) p = portOf s p) ∧
    counter (collided l s) Cnt.t1sColl.ctorIdx = counter s Cnt.t1sColl.ctorIdx + 1 := by
  cases l with
  | false => exact ⟨rfl, rfl, fun p => portOf_bump p s _, counter_bump_same ..⟩
  | true => exact ⟨rfl, rfl, fun p => portOf_bump p _ _, (counter_bump_ne _ _ _ (by decide)).trans (counter_bump_same ..)⟩

/-- The sixteenth collision of a frame: the frame ends as EXCESS, and its attempts start over. -/
theorem collision_excess {s : State} {p : Nat} {f : QFrame} (l : Bool) (h16 : 16 ≤ p) (h32 : p < 32) (hw : (portOf s p).wire = some f)
    (hplca : plcaRuns s (p - 16) = false) (hn : 16 ≤ (portOf s p).coll + 1) : ∃ t, exec (.t1sCollision p l) s = .next t ∧
      (portOf t p).wire = none ∧ counter t Cnt.t1sColl.ctorIdx = counter s Cnt.t1sColl.ctorIdx + 1 ∧ (portOf t p).coll = 0 ∧
      (portOf t p).queue = (if (portOf s p).dropDue then [] else (portOf s p).queue) ∧ on t fld.t1sStatus.EXCESS (p - 16) = true := by
  obtain ⟨-, -, -, hcnt⟩ := collided_is l s
  have hrun := execT1sCollision.eq_1 p l s
  rw [hw] at hrun
  dsimp only at hrun
  rw [hplca, if_neg (by simp; omega), if_pos hn] at hrun
  have port : ∀ z n, portOf (raise 90 p (frameEnds f n (put fld.t1sStatus.EXCESS 1 (bump .t1sExcess (setPort p
      { portOf s p with wire := none, octets := [], coll := 0, backoff := none, judged := false } z)) (p - 16)))) p = _ := fun z n => by
    rw [portOf_raise, portOf_frameEnds, portOf_put, portOf_bump, portOf_setPort_same]
  refine ⟨_, hrun, ?_, ?_, ?_, ?_, ?_⟩
  · rw [settleDrop_wire, port]
  · rw [counter_settleDrop (by decide) (by decide), counter_raise _ _ _ _ (by decide) (by decide),
      counter_frameEnds (by decide) (by decide), counter_put, counter_bump_ne _ _ _ (by decide), counter_setPort]
    exact hcnt
  · rw [portOf_settleDrop, port]
    split <;> rfl
  · rw [settleDrop_queue, port]
  · have keeps : ∀ z, Within (outside [.t1sStatus] []) z (settleDrop p (raise 90 p (frameEnds f (txExcess + (if f.late then txLate else 0)) z))) :=
      fun z => within_settleDrop p (by decide +kernel) (within_raise 90 p (by decide +kernel)
        (within_frameEnds f _ (by decide +kernel) (Within.refl z)))
    rw [on_of_rd (f := fld.t1sStatus.EXCESS) ((keeps _).reg .t1sStatus (by decide +kernel) (p - 16) 0), on_put_same _ _ _ _ _ (by decide) (by decide)]
    rfl

/-- An earlier collision of a frame: the frame is queued again at the head, and waits its back-off. -/
theorem collision_retries {s : State} {p : Nat} {f : QFrame} (l : Bool) (h16 : 16 ≤ p) (h32 : p < 32) (hw : (portOf s p).wire = some f)
    (hplca : plcaRuns s (p - 16) = false) (hn : (portOf s p).coll + 1 < 16) : ∃ t, exec (.t1sCollision p l) s = .next t ∧
      (portOf t p).wire = none ∧ counter t Cnt.t1sColl.ctorIdx = counter s Cnt.t1sColl.ctorIdx + 1 ∧
      ((portOf s p).dropDue = true → (portOf t p).queue = []) ∧
      ((portOf s p).dropDue = false → (portOf t p).coll = (portOf s p).coll + 1 ∧
        (portOf t p).queue = f :: (portOf s p).queue ∧ ∃ k, k < 2 ^ Nat.min ((portOf s p).coll + 1) 10 ∧
        (portOf t p).backoff = some (s.ot + BitVec.ofNat 64 (k * 512 * bitTime s p / 100))) := by
  obtain ⟨hregs, hot, -, hcnt⟩ := collided_is l s
  have hrun := execT1sCollision.eq_1 p l s
  rw [hw] at hrun
  dsimp only at hrun
  rw [hplca, if_neg (by simp; omega), if_neg (by omega)] at hrun
  refine ⟨_, hrun, ?_, ?_, fun hd => ?_, fun hd => ?_⟩
  · rw [settleDrop_wire, portOf_prt (draw_prt _), portOf_setPort_same]
  · rw [counter_settleDrop (by decide) (by decide), counter_congr (draw_cnt _), counter_setPort]
    exact hcnt
  · rw [settleDrop_queue, portOf_prt (draw_prt _), portOf_setPort_same]
    exact if_pos hd
  · rw [settleDrop_of_kept (by rw [portOf_prt (draw_prt _), portOf_setPort_same]; exact hd), portOf_prt (draw_prt _), portOf_setPort_same]
    refine ⟨rfl, rfl, Config.backoffDraw (collided l s).free % _, Nat.mod_lt _ (Nat.two_pow_pos _), ?_⟩
    rw [← bitTime_congr hregs p, ← hot]
    rfl

theorem collides {s : State} {p : Nat} {f : QFrame} (l : Bool) (h16 : 16 ≤ p) (h32 : p < 32) (hw : (portOf s p).wire = some f)
    (hplca : plcaRuns s (p - 16) = false) : ∃ t, exec (.t1sCollision p l) s = .next t ∧ (portOf t p).wire = none ∧
      counter t Cnt.t1sColl.ctorIdx = counter s Cnt.t1sColl.ctorIdx + 1 ∧
      ((portOf s p).dropDue = true → (portOf t p).queue = []) ∧
      (16 ≤ (portOf s p).coll + 1 → (portOf t p).coll = 0 ∧ on t fld.t1sStatus.EXCESS (p - 16) = true ∧
        ((portOf s p).dropDue = false → (portOf t p).queue = (portOf s p).queue)) ∧
      ((portOf s p).coll + 1 < 16 → (portOf s p).dropDue = false → (portOf t p).coll = (portOf s p).coll + 1 ∧
        (portOf t p).queue = f :: (portOf s p).queue ∧ ∃ k, k < 2 ^ Nat.min ((portOf s p).coll + 1) 10 ∧
        (portOf t p).backoff = some (s.ot + BitVec.ofNat 64 (k * 512 * bitTime s p / 100))) := by
  rcases Nat.lt_or_ge ((portOf s p).coll + 1) 16 with hn | hn
  · obtain ⟨t, hrun, hwire, hcnt, hdrop, hretry⟩ := collision_retries l h16 h32 hw hplca hn
    exact ⟨t, hrun, hwire, hcnt, hdrop, fun h => absurd h (Nat.not_le.mpr hn), fun _ => hretry⟩
  · obtain ⟨t, hrun, hwire, hcnt, hcoll, hq, hexcess⟩ := collision_excess l h16 h32 hw hplca hn
    refine ⟨t, hrun, hwire, hcnt, fun hd => ?_, fun _ => ⟨hcoll, hexcess, fun hd => ?_⟩, fun h => absurd hn (Nat.not_le.mpr h)⟩
    · rw [hq, hd, if_pos rfl]
    · rw [hq, hd, if_neg (by decide)]

theorem beacon_changes {s : State} {p : Nat} (active : Bool) (h16 : 16 ≤ p) (hears : portHears s p = true)
    (hen : on s fld.t1sCtrl.PLCA_EN (p - 16) = true) (hid : get s fld.t1sCtrl.NODE_ID (p - 16) ≠ 0) :
    ∃ t, exec (.plcaBeaconChange p active) s = .next t ∧ on t fld.t1sStatus.PLCA (p - 16) = active := by
  refine ⟨showPlca (p - 16) active s, ?_, (showPlca_is _ _ s).1⟩
  show execPlcaBeaconChange p active s = _
  rw [execPlcaBeaconChange, hears, hen, if_neg (by simp [hid]; omega)]

theorem backoff_expires {s : State} {p : Nat} {x : W64} (h : (portOf s p).backoff = some x) :
    ∃ t, exec (.backoffExpire p) s = .next t ∧ t.ot = timeAt s x ∧ (portOf t p).backoff = none := by
  have hrun := execBackoffExpire.eq_1 p s
  rw [h] at hrun
  exact ⟨_, hrun, advance_ot x s, by rw [portOf_setPort]⟩

end Sys2Proof.Machine

/-!
RDM and bandwidth windows (R268, R368).
-/

namespace Sys2Proof.Machine

/-! ## RDM (R268) -/

/-- What a request for RDM sends: LEN bytes of RDM_TX. -/
theorem rdmSend_is (p : Nat) (s : State) : (rdmSend p s).regs = s.regs ∧ (dmxOf (rdmSend p s) p).rdm = 2 ∧
    (dmxOf (rdmSend p s) p).req = ((List.range 65).flatMap (fun k => leBytes 4 (rd s .rdmTx p k).toNat)).take (get s fld.rdmCtrl.LEN p) ∧
    (dmxOf (rdmSend p s) p).freeAt = s.ot + BitVec.ofNat 64 ((Nat.max 176 (get s fld.dmxTiming.BREAK_US p) +
      get s fld.dmxTiming.MAB_US p + get s fld.rdmCtrl.LEN p * 44) * 1000) := by
  unfold rdmSend
  rw [dmxOf_setDmx]
  exact ⟨rfl, rfl, rfl, rfl⟩

/-- GO where no exchange runs. -/
theorem rdmCtrlWrite_go {s : State} {p : Nat} {v : W32} (pf : Bool) (hv : v.toNat % 2 = 1) (hb : on s fld.rdmStatus.BUSY p = false) :
    rdmCtrlWrite pf p v s =
      if (dmxOf (put fld.rdmStatus.BUSY 1 (plainWrite pf .rdmCtrl p 0 v s) p) p).busy.isSome then
        setDmx p { dmxOf (put fld.rdmStatus.BUSY 1 (plainWrite pf .rdmCtrl p 0 v s) p) p with rdm := 1 }
          (put fld.rdmStatus.BUSY 1 (plainWrite pf .rdmCtrl p 0 v s) p)
      else rdmSend p (put fld.rdmStatus.BUSY 1 (plainWrite pf .rdmCtrl p 0 v s) p) := by
  rw [rdmCtrlWrite, hb, hv]
  exact if_pos (by decide)

theorem rdm_goes {s : State} {fn p : Nat} {v : W32} (hp : p < 8) (hw : Writable s fn .rdmCtrl p 0) (hv : v.toNat % 2 = 1)
    (hb : on s fld.rdmStatus.BUSY p = false) : ∃ t, exec (.go fn p v) s = .next t ∧ on t fld.rdmStatus.BUSY p = true ∧
      ((dmxOf s p).busy ≠ none → (dmxOf t p).rdm = 1) ∧
      ((dmxOf s p).busy = none → (dmxOf t p).rdm = 2 ∧ ∀ n, n = get t fld.rdmCtrl.LEN p →
        (dmxOf t p).req = ((List.range 65).flatMap (fun k => leBytes 4 (rd s .rdmTx p k).toNat)).take n ∧
        (dmxOf t p).freeAt = s.ot + BitVec.ofNat 64 ((Nat.max 176 (get s fld.dmxTiming.BREAK_US p) +
          get s fld.dmxTiming.MAB_US p + n * 44) * 1000)) := by
  obtain ⟨x, hx, hex⟩ := hostWrite_of hw v (rdmCtrlWrite (isPf fn) p v)
  have hrun : exec (.go fn p v) s = .next (rdmCtrlWrite (isPf fn) p v x) := by
    show execGo fn p v s = _
    rw [execGo, if_neg (by omega), hex]
  rw [rdmCtrlWrite_go (isPf fn) hv ((hx.on _ _ _ (by decide)).trans hb)] at hrun
  generalize hz : put fld.rdmStatus.BUSY 1 (plainWrite (isPf fn) .rdmCtrl p 0 v x) p = z at hrun
  have hot : z.ot = s.ot := by rw [← hz]; exact (put_ot ..).trans hx.ot
  have hdmx : dmxOf z p = dmxOf s p := by
    unfold dmxOf
    rw [← hx.prt, ← hz, put_prt]
    rfl
  have hbusy : on z fld.rdmStatus.BUSY p = true := by
    rw [← hz, on_put_same _ _ _ _ _ (by decide) (by decide)]
    rfl
  have hrd : ∀ r, r ≠ .rdmStatus → r ≠ .rdmCtrl → r ≠ .jseqTx → ∀ i j, rd z r i j = rd s r i j := fun r h1 h2 h3 i j => by
    rw [← hz, rd_put_reg _ _ _ _ _ _ _ _ h1, ← hx.reg r i j h3]
    exact rd_wr_reg h2 ..
  rw [hdmx] at hrun
  by_cases hn : (dmxOf s p).busy = none
  · rw [hn, if_neg (by decide)] at hrun
    obtain ⟨hregs, hrdm, hreq, hfree⟩ := rdmSend_is p z
    refine ⟨_, hrun, (on_congr hregs ..).trans hbusy, fun h => absurd hn h, fun _ => ⟨hrdm, fun n e => ?_⟩⟩
    rw [get_congr hregs] at e
    rw [hreq, hfree, ← e, hot, get_of_rd (f := fld.dmxTiming.BREAK_US) (hrd .dmxTiming (by decide) (by decide) (by decide) p 0),
      get_of_rd (f := fld.dmxTiming.MAB_US) (hrd .dmxTiming (by decide) (by decide) (by decide) p 0)]
    refine ⟨?_, rfl⟩
    simp only [hrd .rdmTx (by decide) (by decide) (by decide)]
  · rw [if_pos (Option.isSome_iff_ne_none.mpr hn)] at hrun
    exact ⟨_, hrun, (on_congr (setDmx_regs ..) ..).trans hbusy, fun _ => by rw [dmxOf_setDmx], fun h => absurd h hn⟩

/-- The status of an exchange that has ended. -/
def rdmShown (p n : Nat) (silent err : Bool) (s : State) : State :=
  put fld.rdmStatus.DONE 1 (put fld.rdmStatus.BUSY 0 (put fld.rdmCtrl.GO 0
    (put fld.rdmStatus.ERR (if err then 1 else 0) (put fld.rdmStatus.TIMEOUT (if silent then 1 else 0)
      (put fld.rdmStatus.RX_LEN n s p) p) p) p) p) p

/-- A field of one bit reads back the Boolean written. -/
theorem on_put_bool {f : Fld} (hw : f.w = 1) (hf : f.lo < 32) (b : Bool) (s : State) (i j : Nat) :
    on (put f (if b then 1 else 0) s i j) f i j = b := by
  rw [on_put_same _ _ _ _ _ (by omega) (by rw [hw]; split <;> decide)]
  cases b <;> rfl

theorem rdmShown_is (p n : Nat) (silent err : Bool) (s : State) :
    on (rdmShown p n silent err s) fld.rdmStatus.BUSY p = false ∧ on (rdmShown p n silent err s) fld.rdmStatus.DONE p = true ∧
    on (rdmShown p n silent err s) fld.rdmStatus.ERR p = err ∧ on (rdmShown p n silent err s) fld.rdmStatus.TIMEOUT p = silent ∧
    on (rdmShown p n silent err s) fld.rdmCtrl.GO p = false ∧ get (rdmShown p n silent err s) fld.rdmStatus.RX_LEN p = n % 512 := by
  unfold rdmShown
  refine ⟨?_, ?_, ?_, ?_, ?_, ?_⟩
  · rw [on_put_fld _ _ _ _ _ _ (by rfl) (by decide) (by decide)]
    exact on_put_bool (by decide) (by decide) false ..
  · exact on_put_bool (by decide) (by decide) true ..
  · rw [on_put_fld _ _ _ _ _ _ (by rfl) (by decide) (by decide), on_put_fld _ _ _ _ _ _ (by rfl) (by decide) (by decide),
      on_put_reg _ _ _ _ _ _ _ _ (by decide), on_put_bool (by decide) (by decide)]
  · rw [on_put_fld _ _ _ _ _ _ (by rfl) (by decide) (by decide), on_put_fld _ _ _ _ _ _ (by rfl) (by decide) (by decide),
      on_put_reg _ _ _ _ _ _ _ _ (by decide), on_put_fld _ _ _ _ _ _ (by rfl) (by decide) (by decide), on_put_bool (by decide) (by decide)]
  · rw [on_put_reg _ _ _ _ _ _ _ _ (by decide), on_put_reg _ _ _ _ _ _ _ _ (by decide)]
    exact on_put_bool (by decide) (by decide) false ..
  · rw [get_put_fld _ _ _ _ _ _ (by rfl) (by decide) (by decide), get_put_fld _ _ _ _ _ _ (by rfl) (by decide) (by decide),
      get_put_reg _ _ _ _ _ _ _ _ (by decide), get_put_fld _ _ _ _ _ _ (by rfl) (by decide) (by decide),
      get_put_fld _ _ _ _ _ _ (by rfl) (by decide) (by decide), get_put_same _ _ _ _ _ (by decide)]
    rfl

theorem rdm_listened {s : State} {p : Nat} {brk err : Bool} {heard resp : List Byte} (hp : p < 8) (hr : (dmxOf s p).rdm = 2)
    (hresp : resp = if brk = on s fld.rdmCtrl.DISC p then [] else heard) :
    ∃ t, exec (.rdmListenEnd p brk heard err) s = .next t ∧ (dmxOf t p).rdm = 0 ∧
      t.ot = timeAt s ((dmxOf s p).freeAt + (if resp.isEmpty && !err then 2800000 else 0)) ∧
      on t fld.rdmStatus.BUSY p = false ∧ on t fld.rdmStatus.DONE p = true ∧ on t fld.rdmStatus.ERR p = err ∧
      on t fld.rdmStatus.TIMEOUT p = (resp.isEmpty && !err) ∧ on t fld.rdmCtrl.GO p = false ∧
      get t fld.rdmStatus.RX_LEN p = resp.length % 512 := by
  generalize hsilent : (resp.isEmpty && !err) = silent
  generalize hend : (dmxOf s p).freeAt + (if silent then 2800000 else 0) = fin
  generalize hu : forEach (resp.take 260).zipIdx (fun x u => rdmByte p x.2 x.1 u) (advance fin s) = u
  have uot : u.ot = timeAt s fin := by
    rw [← hu]
    exact (forEach_same (·.ot) _ (fun (x : Byte × Nat) u => wr_ot ..) _ _).trans (advance_ot fin s)
  generalize hy : (if err then bump .rdmErr (rdmShown p resp.length silent err u)
    else if silent then bump .rdmTimeout (rdmShown p resp.length silent err u) else rdmShown p resp.length silent err u) = y
  have yregs : y.regs = (rdmShown p resp.length silent err u).regs := by
    rw [← hy]
    split
    · rfl
    · split <;> rfl
  have yot : y.ot = u.ot := by
    have shown : (rdmShown p resp.length silent err u).ot = u.ot := by simp only [rdmShown, put_ot]
    rw [← hy, ← shown]
    split
    · rfl
    · split <;> rfl
  have hrun : exec (.rdmListenEnd p brk heard err) s = .next (raise 92 p (setDmx p { dmxOf s p with rdm := 0 } y)) := by
    show execRdmListenEnd p brk heard err s = _
    unfold execRdmListenEnd
    dsimp only
    rw [hr, if_neg (by simp; omega)]
    simp only [beq_iff_eq]
    rw [← hresp, hsilent, hend, hu]
    exact congrArg (fun w => Host.Outcome.next (raise 92 p (setDmx p { dmxOf s p with rdm := 0 } w))) hy
  have hrd : ∀ q, q ≠ .ringTail → q ≠ .ringStatus → q ≠ .hostStatus → ∀ i j,
      rd (raise 92 p (setDmx p { dmxOf s p with rdm := 0 } y)) q i j = rd (rdmShown p resp.length silent err u) q i j :=
    fun q h1 h2 h3 i j => by rw [rd_raise _ _ _ _ _ _ h1 h2 h3, rd_congr (setDmx_regs ..), rd_congr yregs]
  have status : ∀ j, rd (raise 92 p (setDmx p { dmxOf s p with rdm := 0 } y)) .rdmStatus p j = rd (rdmShown p resp.length silent err u) .rdmStatus p j :=
    fun j => hrd .rdmStatus (by decide) (by decide) (by decide) p j
  obtain ⟨hbusy, hdone, herr, htimeout, hgo, hlen⟩ := rdmShown_is p resp.length silent err u
  refine ⟨_, hrun, ?_, ?_, ?_, ?_, ?_, ?_, ?_, ?_⟩
  · have prt := raise_prt 92 p (setDmx p { dmxOf s p with rdm := 0 } y)
    rw [dmxOf, prt]
    exact congrArg Dmx.rdm (dmxOf_setDmx p _ y)
  · rw [raise_ot, setDmx_ot, yot, uot]
  · rw [on_of_rd (f := fld.rdmStatus.BUSY) (status 0), hbusy]
  · rw [on_of_rd (f := fld.rdmStatus.DONE) (status 0), hdone]
  · rw [on_of_rd (f := fld.rdmStatus.ERR) (status 0), herr]
  · rw [on_of_rd (f := fld.rdmStatus.TIMEOUT) (status 0), htimeout]
  · rw [on_of_rd (f := fld.rdmCtrl.GO) (hrd .rdmCtrl (by decide) (by decide) (by decide) p 0), hgo]
  · rw [get_of_rd (f := fld.rdmStatus.RX_LEN) (status 0), hlen]

/-! ## Bandwidth windows (R368) -/

/-- The registers of a completed window, before its peak. -/
def bwShown (p : Nat) (s : State) : State :=
  let u := forEach (List.range 8) (fun c t => wr .txBytes (BitVec.ofNat 32 (Map.get (fun _ => 0) (portOf s p).bwTx c)) t p c) s
  wr .bwSeq (rd u .bwSeq p + 1) (wr .rxBytes (BitVec.ofNat 32 (portOf s p).bwRx) u p) p

theorem txBytes_shown {p c : Nat} (hc : c < 8) (tx : Nat → W32) (s : State) :
    rd (forEach (List.range 8) (fun c t => wr .txBytes (tx c) t p c) s) .txBytes p c = tx c :=
  forEach_once (P := fun _ => True) (Q := fun u => rd u .txBytes p c = tx c) (List.mem_range.mpr hc) List.nodup_range
    (fun _ _ _ _ => trivial) (fun u _ => rd_wr_same ..)
    (fun b u hb h => (rd_wr_key .txBytes .txBytes (tx b) u p b p c (by unfold RegId.key; omega)).trans h) trivial

theorem bwShown_is (p : Nat) (s : State) : rd (bwShown p s) .bwSeq p = rd s .bwSeq p + 1 ∧
    rd (bwShown p s) .rxBytes p = BitVec.ofNat 32 (portOf s p).bwRx ∧
    (∀ c, c < 8 → rd (bwShown p s) .txBytes p c = BitVec.ofNat 32 (Map.get (fun _ => 0) (portOf s p).bwTx c)) ∧
    (bwShown p s).ot = s.ot := by
  unfold bwShown
  dsimp only
  refine ⟨?_, ?_, fun c hc => ?_, ?_⟩
  · rw [rd_wr_same, forEach_same (rd · .bwSeq p) _ (fun c u => rd_wr_reg (by decide) ..)]
  · rw [rd_wr_reg (by decide), rd_wr_same]
  · rw [rd_wr_reg (by decide), rd_wr_reg (by decide)]
    exact txBytes_shown hc _ s
  · rw [wr_ot, wr_ot]
    exact forEach_same (·.ot) _ (fun _ _ => wr_ot ..) _ _

/-- All bytes that a window counted out. -/
def bwTotal (p : Nat) (s : State) : Nat := ((List.range 8).map (fun c => Map.get (fun _ => 0) (portOf s p).bwTx c)).sum

/-- The registers of a completed window, with its peak. -/
def bwPeaked (p : Nat) (s : State) : State :=
  if (rd (bwShown p s) .peakTx p).toNat < bwTotal p s then wr .peakTx (BitVec.ofNat 32 (bwTotal p s)) (bwShown p s) p else bwShown p s

theorem bwPeaked_is (p : Nat) (s : State) : (bwPeaked p s).ot = s.ot ∧
    ∀ r, r ≠ .peakTx → ∀ i j, rd (bwPeaked p s) r i j = rd (bwShown p s) r i j := by
  obtain ⟨-, -, -, hot⟩ := bwShown_is p s
  unfold bwPeaked
  split
  · exact ⟨(wr_ot ..).trans hot, fun r hr i j => rd_wr_reg hr ..⟩
  · exact ⟨hot, fun _ _ _ _ => rfl⟩

/-- A window closed: the port's counts start over, and only the peak and an event are written after `bwShown`. -/
theorem bwClose_is (p : Nat) (fin : W64) (s : State) : (bwClose p fin s).ot = s.ot ∧
    (∀ r, r ≠ .peakTx → r ≠ .ringTail → r ≠ .ringStatus → r ≠ .hostStatus → ∀ i j, rd (bwClose p fin s) r i j = rd (bwShown p s) r i j) ∧
    portOf (bwClose p fin s) p = { portOf s p with bwTx := [], bwRx := 0, bwAt := fin } := by
  obtain ⟨hot, hrd⟩ := bwPeaked_is p s
  have form : bwClose p fin s =
      if get (setPort p { portOf s p with bwTx := [], bwRx := 0, bwAt := fin } (bwPeaked p s)) fld.bwLimit.BW_LIMIT p != 0 &&
        decide (get (setPort p { portOf s p with bwTx := [], bwRx := 0, bwAt := fin } (bwPeaked p s)) fld.bwLimit.BW_LIMIT p < bwTotal p s) then
          raise 122 p (setPort p { portOf s p with bwTx := [], bwRx := 0, bwAt := fin } (bwPeaked p s))
        else setPort p { portOf s p with bwTx := [], bwRx := 0, bwAt := fin } (bwPeaked p s) := rfl
  rw [form]
  split
  · refine ⟨by rw [raise_ot, setPort_ot, hot], fun r h1 h2 h3 h4 i j => ?_, by rw [portOf_raise, portOf_setPort_same]⟩
    rw [rd_raise _ _ _ _ _ _ h2 h3 h4, rd_congr (setPort_regs ..), hrd r h1]
  · refine ⟨by rw [setPort_ot, hot], fun r h1 _ _ _ i j => ?_, portOf_setPort_same ..⟩
    rw [rd_congr (setPort_regs ..), hrd r h1]

theorem window_ends {s : State} {p : Nat} {fin : W64} (hp : p < 32) (hpres : portPresent s.member p = true)
    (hen : on s fld.bwCtrl.BW_EN p = true) (hfin : bwEnd s p = some fin) : ∃ t, exec (.bwWindowEnd p) s = .next t ∧ t.ot = timeAt s fin ∧
      rd t .bwSeq p = rd s .bwSeq p + 1 ∧ rd t .rxBytes p = BitVec.ofNat 32 (portOf s p).bwRx ∧
      (∀ c, c < 8 → rd t .txBytes p c = BitVec.ofNat 32 (Map.get (fun _ => 0) (portOf s p).bwTx c)) ∧
      (portOf t p).bwTx = [] ∧ (portOf t p).bwRx = 0 ∧ (portOf t p).bwAt = fin := by
  have hrun : exec (.bwWindowEnd p) s = .next (bwClose p fin (advance fin s)) := by
    show execBwWindowEnd p s = _
    rw [execBwWindowEnd, hpres, hen, if_neg (by simp; omega), hfin]
  obtain ⟨hot, hrd, hport⟩ := bwClose_is p fin (advance fin s)
  obtain ⟨hseq, hrx, htx, -⟩ := bwShown_is p (advance fin s)
  rw [portOf_advance] at hport hrx htx
  refine ⟨_, hrun, hot.trans (advance_ot fin s), ?_, ?_, fun c hc => ?_, ?_, ?_, ?_⟩
  · rw [hrd .bwSeq (by decide) (by decide) (by decide) (by decide), hseq, rd_congr (advance_regs ..)]
  · rw [hrd .rxBytes (by decide) (by decide) (by decide) (by decide), hrx]
  · rw [hrd .txBytes (by decide) (by decide) (by decide) (by decide), htx c hc]
  · rw [hport]
  · rw [hport]
  · rw [hport]

end Sys2Proof.Machine

/-!
The clauses of O55 put together.
-/

namespace Sys2Proof.Machine

/-- Settles O55: each clause of the ports is the behaviour of one instruction, shown above. -/
theorem portsWork : Obligations.PortsWork := by
  intro s fn p
  refine ⟨?frameStart, fun f hp hw => frame_ends hp hw, ?ringFrame, ?gateCycle, fun v hp hw => swap_writes v hp hw, ?disable, ?pause,
    fun cls x hx => ⟨pause_expires hx, fun w hw hlater => watchdog_trips hx hw hlater⟩, fun cls x hx => watchdog_ends hx,
    ?lpi, ?t1s, fun x hx => backoff_expires hx, ?rdm, fun fin hp hpres hen hfin => window_ends hp hpres hen hfin⟩
  case frameStart =>
    rintro f n hp hr rfl hcls hf habove hfits hlaunch hrun hgate hlease hlate
    exact frame_starts hp hr hcls hf habove ⟨hfits, hlaunch, hrun, hgate, hlease, hlate⟩
  case ringFrame =>
    rintro r d ds data b hr hrun hflush htest hocc hn rfl hlen hsend
    exact ring_frame hr hrun hflush htest hocc hn hlen hsend
  case gateCycle => exact fun x hp hpres hoff hen hx => gate_cycles hp hpres hoff hen hx
  case disable =>
    exact fun v hv => ⟨fun hp hw hen => ethernet_disables hp hv hw hen, fun hp hw hen => t1s_disables hp hv hw hen⟩
  case pause => exact fun h m cls q hp hr hcls hwd hask => frame_pauses hp hr hcls hwd hask
  case lpi =>
    intro hp
    exact ⟨fun hs hen hok htx hq hw => lpi_enters hp hs hen hok htx hq hw,
      fun htx => ⟨fun hq => lpi_wakes hp htx hq, fun v hv hw => eee_ends hp htx hv hw⟩,
      fun up lpi hpres => portLink_changes hp up lpi hpres⟩
  case t1s =>
    exact fun h16 h32 => ⟨fun f l hw hplca => collides l h16 h32 hw hplca,
      fun active hears hen hid => beacon_changes active h16 hears hen hid⟩
  case rdm =>
    exact fun hp => ⟨fun v hw hv hb => rdm_goes hp hw hv hb, fun brk heard err resp hr hresp => rdm_listened hp hr hresp⟩

end Sys2Proof.Machine

/-!
Received frames (O56): a frame heard on a port, a frame that the filter drops, and what the flow entries match.
-/

namespace Sys2Proof.Machine

/-! ## A frame heard (R254, R363) -/

section HeardFrame

variable (p : Nat) (m : RxFrame) (s : State)

/-- A frame heard on a port changes time, counters, and the port's window. -/
theorem within_heard : Within (footprint [] [.cnt, .ot, .otFrac, .pwr, .prt]) s (heardFrame p m s) :=
  within_heardFrame p m (by decide +kernel) (Within.refl s)

@[simp] theorem heardFrame_regs : (heardFrame p m s).regs = s.regs := (heardFrame_is p m s).1.regs
@[simp] theorem heardFrame_ot : (heardFrame p m s).ot = timeAt s m.at_ := (heardFrame_is p m s).2.2.1
@[simp] theorem heardFrame_sch : (heardFrame p m s).sch = s.sch := (within_heard p m s).part .sch (by decide +kernel)
@[simp] theorem heardFrame_hst : (heardFrame p m s).hst = s.hst := (within_heard p m s).part .hst (by decide +kernel)
@[simp] theorem heardFrame_hmem : (heardFrame p m s).hmem = s.hmem := (within_heard p m s).part .hmem (by decide +kernel)
@[simp] theorem heardFrame_fmem : (heardFrame p m s).fmem = s.fmem := (within_heard p m s).part .fmem (by decide +kernel)
@[simp] theorem heardFrame_vat : (heardFrame p m s).vat = s.vat := (within_heard p m s).part .vat (by decide +kernel)

theorem rxCount_prt (len : Nat) : (rxCount p len s).prt = { s.prt with ports := (rxCount p len s).prt.ports } := by
  unfold rxCount
  extract_lets u
  split
  · rfl
  · rfl

/-- Of the ports' side a frame heard changes the ports alone: every target and subscription stays. -/
theorem heardFrame_prt : (heardFrame p m s).prt = { s.prt with ports := (heardFrame p m s).prt.ports } := by
  have counted := rxCount_prt p (advance m.at_ s) m.bytes.length
  rw [advance_prt] at counted
  exact counted

/-- A frame heard on an Ethernet port counts in RX_FRAMES of the port. -/
theorem counter_heardFrame {p : Nat} (hp : p < 16) (k : Nat) :
    counter (heardFrame p m s) k = if k = ethCnt p 1 then counter s k + 1 else counter s k := by
  have base : ∀ k, counter (count (ethCnt p 1) 1 (advance m.at_ s)) k = if k = ethCnt p 1 then counter s k + 1 else counter s k := by
    intro k
    rw [counter_count, counter_advance, counter_advance]
    split
    · next h => rw [h]; rfl
    · rfl
  unfold heardFrame rxCount
  dsimp only
  rw [if_pos hp]
  split
  · rw [counter_setPort, base]
  · exact base k

theorem counter_heardFrame_ne {p : Nat} (hp : p < 16) {k : Nat} (h : k ≠ ethCnt p 1) : counter (heardFrame p m s) k = counter s k := by
  rw [counter_heardFrame m s hp, if_neg h]

end HeardFrame

/-! ## The filter and the flow entries (R254, R258) -/

/-- A frame whose command finds that the filter drops it. -/
theorem filtered_drops {s : State} {p : Nat} {m : RxFrame} (hp : p < 16) (hr : rxRoute s p m = .filtered) :
    ∃ t, otherFrame p m s = .next t ∧ t.ot = timeAt s m.at_ ∧ counter t (ethCnt p 1) = counter s (ethCnt p 1) + 1 ∧
      counter t (ethCnt p 6) = counter s (ethCnt p 6) + 1 := by
  refine ⟨count (ethCnt p 6) 1 (heardFrame p m s), ?_, ?_, ?_, ?_⟩
  · unfold otherFrame
    rw [hr]
    dsimp only
    rw [if_pos hp]
  · rw [count_ot, heardFrame_ot]
  · rw [counter_count, if_neg (by simp [ethCnt]), counter_heardFrame m s hp, if_pos rfl]
  · rw [counter_count, if_pos rfl, counter_heardFrame_ne m s hp (by simp [ethCnt])]
    rfl

theorem kindRoute_filtered {s : State} {p : Nat} {m : RxFrame} (hr : rxRoute s p m = .filtered) (k : Nat) : kindRoute s k p m = none := by
  rw [kindRoute, hr]

/-- Every command of a frame that the filter drops does the same. -/
theorem exec_filtered {s : State} {p : Nat} {m : RxFrame} {v : VideoPkt} {w : AudioPkt} {x : AncPkt} {y : SacnPkt} {ovf : Bool} {i : Instr}
    (hr : rxRoute s p m = .filtered)
    (hi : i ∈ [.stat p m, .pauseFrame p m, .serviceFrameRx p m, .flowFrameRx p m, .badFrameRx p m, .videoPacketRx p m v ovf,
      .audioPacketRx p m w ovf, .ancPacketRx p m x ovf, .sacnPacketRx p m y]) : exec i s = otherFrame p m s := by
  have stream := kindRoute_filtered hr
  simp only [List.mem_cons, List.not_mem_nil, or_false] at hi
  rcases hi with rfl | rfl | rfl | rfl | rfl | rfl | rfl | rfl | rfl
  · show execStat p m s = _
    rw [execStat, hr]
  · show execPauseFrame p m s = _
    rw [execPauseFrame, hr]
  · show execServiceFrameRx p m s = _
    rw [execServiceFrameRx, hr]
  · show execFlowFrameRx p m s = _
    rw [execFlowFrameRx, hr]
  · show execBadFrameRx p m s = _
    rw [execBadFrameRx, hr]
  · show execVideoPacketRx p m v ovf s = _
    rw [execVideoPacketRx, stream]
  · show execAudioPacketRx p m w ovf s = _
    rw [execAudioPacketRx, stream]
  · show execAncPacketRx p m x ovf s = _
    rw [execAncPacketRx, stream]
  · show execSacnPacketRx p m y s = _
    rw [execSacnPacketRx, stream]

/-- Only an Ethernet port has flow entries. -/
theorem port_of_flow {s : State} {p : Nat} {m : RxFrame} {f : Nat} (h : rxRoute s p m = .flow f) : p < 16 := by
  have plain : plainRoute s p m.bytes = .flow f → p < 16 := by
    intro h
    unfold plainRoute at h
    split at h
    · cases h
    · split at h
      · cases h
      · omega
  unfold rxRoute at h
  dsimp only at h
  split_ifs at h
  split at h
  · cases h
  · split at h
    · exact plain h
    · split at h
      · cases h
      · split_ifs at h
        exact plain h

/-- A frame of a target's stream goes to a flow entry of the target's kind. -/
theorem kindRoute_some {s : State} {k p : Nat} {m : RxFrame} {f : Nat} (h : kindRoute s k p m = some f) :
    rxRoute s p m = .flow f ∧ get s fld.flowCtrl.KIND p f = k := by
  unfold kindRoute at h
  split at h
  · next g hr =>
    split at h
    · next hk => cases h; exact ⟨hr, hk⟩
    · cases h
  · cases h

theorem port_of_kind {s : State} {k p : Nat} {m : RxFrame} {f : Nat} (h : kindRoute s k p m = some f) : p < 16 :=
  port_of_flow (kindRoute_some h).1

end Sys2Proof.Machine

/-!
Frames on a host's rings (R256, R257): a descriptor written back, a frame in one buffer, and a frame with no buffer.
-/

namespace Sys2Proof.Machine

/-! ## A ring by its registers -/

section RingCongr

variable {s u : State} (h : u.regs = s.regs)
include h

theorem ringRuns_congr (r kind : Nat) : ringRuns u r kind = ringRuns s r kind := by
  unfold ringRuns
  rw [on_congr h, get_congr h]

theorem ringSize_congr (r : Nat) : ringSize u r = ringSize s r := by
  unfold ringSize
  rw [get_congr h]

theorem ringOcc_congr (r : Nat) : ringOcc u r = ringOcc s r := by
  unfold ringOcc
  rw [ringSize_congr h, get_congr h, get_congr h]

theorem ringAddr_congr (r idx : Nat) : ringAddr u r idx = ringAddr s r idx := by
  unfold ringAddr
  rw [get_congr h, get_congr h]

theorem svcTmpls_congr (hsch : u.sch = s.sch) (r : Nat) : svcTmpls u r = svcTmpls s r := by
  unfold svcTmpls tmplsBound tmplKind tmplTaken
  simp only [get_congr h, rd_congr h, hsch]

end RingCongr

/-! ## A descriptor written back (R256, R283) -/

section WriteBack

variable (r w2 w3 : Nat) (ts : W64) (frac flen : Nat) (s : State)

theorem advanceHead_hmem (n : Nat) : (advanceHead r n s).hmem = s.hmem := by
  unfold advanceHead
  split <;> rfl

theorem get_advanceHead_head {s : State} {r n : Nat} (h : n ≤ ringOcc s r) :
    get (advanceHead r n s) fld.ringHead.HEAD r = (get s fld.ringHead.HEAD r + n) % ringSize s r % 65536 := by
  unfold advanceHead
  rw [if_neg (by omega), get_put_same _ _ _ _ _ (by decide)]
  rfl

/-- HEAD moves past the descriptor that is written back. -/
theorem head_rxWriteBack {s : State} {r : Nat} (h : 0 < ringOcc s r) :
    get (rxWriteBack r w2 w3 ts frac flen s) fld.ringHead.HEAD r = (get s fld.ringHead.HEAD r + 1) % ringSize s r % 65536 := by
  unfold rxWriteBack
  extract_lets fn head words entered moved
  show get (advanceHead r 1 entered) fld.ringHead.HEAD r = _
  exact get_advanceHead_head (s := entered) h

/-- Beside the entry and the word that HEAD is written back to, host memory is as before. -/
theorem memGet_rxWriteBack {q entry wb : Nat} (hentry : entry = hostKey (get s fld.ringCtrl.FN r) (ringAddr s r (get s fld.ringHead.HEAD r) + 8))
    (hwb : wb = hostKey (get s fld.ringCtrl.FN r) (get s fld.ringWbLo.WB_LO r + 2 ^ 32 * get s fld.ringWbHi.WB_HI r))
    (he : ¬ (entry ≤ q ∧ q < entry + 24)) (hw : ¬ (wb ≤ q ∧ q < wb + 4)) :
    memGet (rxWriteBack r w2 w3 ts frac flen s).hmem q = memGet s.hmem q := by
  unfold rxWriteBack
  extract_lets fn head words entered moved
  have lo : get moved fld.ringWbLo.WB_LO r = get s fld.ringWbLo.WB_LO r :=
    get_of_rd (advanceHead_stay r 1 entered .ringWbLo r 0 (by decide))
  have hi : get moved fld.ringWbHi.WB_HI r = get s fld.ringWbHi.WB_HI r :=
    get_of_rd (advanceHead_stay r 1 entered .ringWbHi r 0 (by decide))
  show memGet (memWrite (advanceHead r 1 entered).hmem _ _) q = _
  rw [lo, hi, ← hwb, memGet_memWrite, length_leBytes, if_neg hw, advanceHead_hmem]
  show memGet (memWrite s.hmem _ _) q = _
  rw [← hentry, memGet_memWrite, wordBytes_length]
  exact if_neg he

end WriteBack

/-! ## A buffer filled (R256) -/

section Buffer

variable {p r err w3 : Nat} {b : RxPost} {part : List Byte} {first last cut : Bool} {m : RxFrame} {s : State}

theorem head_rxBuffer (h : 0 < ringOcc s r) : get (rxBuffer p r b part first last cut err w3 m s) fld.ringHead.HEAD r =
    (get s fld.ringHead.HEAD r + 1) % ringSize s r % 65536 :=
  head_rxWriteBack _ _ _ _ _ (s := hmemPut (get s fld.ringCtrl.FN r) b.addr.toNat part s) h

theorem posted_rxBuffer : postedOn (rxBuffer p r b part first last cut err w3 m s) r = (postedOn s r).drop 1 := posted_writeBack ..

theorem rxBuffer_ot : (rxBuffer p r b part first last cut err w3 m s).ot = s.ot :=
  (within_rxBuffer (μ := outside [] [.ot]) p r b part first last cut err w3 m (by decide +kernel) (Within.refl s)).part .ot (by decide +kernel)

/-- The buffer holds its part of the frame where the descriptor and HEAD are not written over it. -/
theorem memGet_rxBuffer {k fh entry wb : Nat} (hk : k < part.length) (hfh : fh = get s fld.ringCtrl.FN r)
    (hentry : entry = hostKey fh (ringAddr s r (get s fld.ringHead.HEAD r) + 8))
    (hwb : wb = hostKey fh (get s fld.ringWbLo.WB_LO r + 2 ^ 32 * get s fld.ringWbHi.WB_HI r))
    (he : ¬ (entry ≤ hostKey fh b.addr.toNat + k ∧ hostKey fh b.addr.toNat + k < entry + 24))
    (hw : ¬ (wb ≤ hostKey fh b.addr.toNat + k ∧ hostKey fh b.addr.toNat + k < wb + 4)) :
    memGet (rxBuffer p r b part first last cut err w3 m s).hmem (hostKey fh b.addr.toNat + k) = part.getD k 0 := by
  subst hfh
  unfold rxBuffer
  extract_lets st w2
  refine (memGet_rxWriteBack r w2 w3 st.1 _ _ (hmemPut (get s fld.ringCtrl.FN r) b.addr.toNat part s) hentry hwb he hw).trans ?_
  show memGet (memWrite s.hmem _ _) _ = _
  rw [memGet_memWrite, if_pos (by omega), Nat.add_sub_cancel_left]

end Buffer

/-! ## A frame delivered (R256, R257) -/

section Deliver

variable {p r flow err : Nat} {m : RxFrame} {s : State}

/-- Without a buffer the frame is dropped and counted. -/
theorem rxDeliver_none (h : ringRuns s r 3 = false ∨ on s fld.ringCtrl.FLUSH r = true ∨ postedOn s r = []) :
    rxDeliver p r flow err m s = count (ethCnt p 7) 1 s := by
  unfold rxDeliver
  dsimp only
  rw [if_pos]
  rcases h with h | h | h <;> simp [h]

/-- A frame that fits the first posted buffer fills it alone. -/
theorem rxDeliver_one {b : RxPost} {rest : List RxPost} (hrun : ringRuns s r 3 = true) (hflush : on s fld.ringCtrl.FLUSH r = false)
    (hposted : postedOn s r = b :: rest) (hocc : 0 < ringOcc s r) (hfit : m.bytes.length ≤ b.size) (hclean : m.poisoned = false) :
    rxDeliver p r flow err m s = rxBuffer p r b m.bytes true true false err (p + 256 * flow + 65536 * tciOf m) m s := by
  have bufs : (postedOn s r).take (ringOcc s r) = b :: rest.take (ringOcc s r - 1) := by
    rw [hposted, List.take_cons hocc]
  have fill : ∀ w3 bs, rxFill p r err w3 m (b :: bs) m.bytes true s = (rxBuffer p r b m.bytes true true false err w3 m s, false) := by
    intro w3 bs
    rw [rxFill, List.take_of_length_le hfit, List.drop_of_length_le hfit]
    rfl
  unfold rxDeliver
  dsimp only
  rw [hrun, hflush, if_pos (show (true && !false) = true from rfl), bufs, hclean, if_neg (by simp)]
  show (if (rxFill p r err _ m (b :: _) m.bytes true s).2 = true then _ else (rxFill p r err _ m (b :: _) m.bytes true s).1) = _
  rw [fill]
  rfl

theorem deliverRing_plain (h : svcTmpls s r = []) : deliverRing p r flow m s = rxDeliver p r flow 0 m s := by
  rw [deliverRing, h]
  rfl

end Deliver

/-! ## The ways to a ring (R254 to R256) -/

/-- A frame has come in on a port, and nothing else has happened yet. -/
structure Arrived (p : Nat) (m : RxFrame) (s u : State) : Prop where
  regs : u.regs = s.regs
  sch : u.sch = s.sch
  hst : u.hst = s.hst
  hmem : u.hmem = s.hmem
  ot : u.ot = timeAt s m.at_
  drops : counter u (ethCnt p 7) = counter s (ethCnt p 7)

theorem arrived_heard {p : Nat} (hp : p < 16) (m : RxFrame) (s : State) : Arrived p m s (heardFrame p m s) :=
  ⟨heardFrame_regs .., heardFrame_sch .., heardFrame_hst .., heardFrame_hmem .., heardFrame_ot ..,
    counter_heardFrame_ne m s hp (by simp [ethCnt])⟩

theorem firstBad_lt (flags : Nat) : firstBad flags < 4 := by
  unfold firstBad
  split_ifs <;> decide

theorem arrived_bad (p : Nat) (m : RxFrame) (flags : Nat) (s : State) :
    Arrived p m s (count (ethCnt p (2 + firstBad flags)) 1 (advance m.at_ s)) := by
  have hf := firstBad_lt flags
  refine ⟨advance_regs .., ?_, ?_, ?_, advance_ot .., ?_⟩
  · show (advance m.at_ s).sch = _
    rw [advance_frame]
  · show (advance m.at_ s).hst = _
    rw [advance_frame]
  · show (advance m.at_ s).hmem = _
    rw [advance_frame]
  · rw [counter_count, if_neg (by simp only [ethCnt]; omega), counter_advance]

/-- A frame goes to a ring, with the bytes that go there: a service frame, a frame of a flow entry, any other frame, or a bad
frame that the port delivers. -/
def Delivery (s : State) (p : Nat) (m : RxFrame) (i : Instr) (r : Nat) (bs : List Byte) : Prop :=
  (bs = m.bytes ∧
    ((i = .serviceFrameRx p m ∧ rxRoute s p m = .service none ∧ on s fld.rxDef.SVC_EN p = true ∧ r = get s fld.rxDef.SVC_RING p) ∨
      (∃ f, i = .flowFrameRx p m ∧ rxRoute s p m = .flow f ∧ get s fld.flowCtrl.KIND p f = 0 ∧ r = get s fld.flowCtrl.TARGET p f) ∨
      (i = .flowFrameRx p m ∧ rxRoute s p m = .other ∧ on s fld.rxDef.DEF_EN p = true ∧ r = get s fld.rxDef.DEF_RING p))) ∨
  (∃ flags, bs = m.bytes.take (get s fld.macCtrl.MAX_LEN p) ∧ i = .badFrameRx p m ∧ rxRoute s p m = .bad flags ∧
    on s fld.macCtrl.BAD_DELIVER p = true ∧ r = get s fld.rxDef.DEF_RING p)

/-- Each way ends with the delivery of the bytes on the ring, from the state in which the frame has come in. -/
theorem Delivery.delivers {s : State} {p : Nat} {m : RxFrame} {i : Instr} {r : Nat} {bs : List Byte} (h : Delivery s p m i r bs)
    (hp : p < 16) (hclean : m.poisoned = false) (hsvc : svcTmpls s r = []) :
    ∃ u flow err g, Arrived p m s u ∧ g.poisoned = false ∧ g.bytes = bs ∧ exec i s = .next (rxDeliver p r flow err g u) := by
  have came := arrived_heard hp m s
  have plain : ∀ flow, deliverRing p r flow m (heardFrame p m s) = rxDeliver p r flow 0 m (heardFrame p m s) :=
    fun flow => deliverRing_plain ((svcTmpls_congr came.regs came.sch r).trans hsvc)
  rcases h with ⟨rfl, ⟨rfl, hr, hen, rfl⟩ | ⟨f, rfl, hr, hk, rfl⟩ | ⟨rfl, hr, hen, rfl⟩⟩ | ⟨flags, rfl, rfl, hr, hen, rfl⟩
  case inl.inl =>
    refine ⟨_, 0xFF, 0, m, came, hclean, rfl, ?_⟩
    show execServiceFrameRx p m s = _
    rw [execServiceFrameRx, hr]
    dsimp only
    rw [on_congr came.regs, hen, if_pos (by simpa using hp), get_congr came.regs, plain]
  case inl.inr.inl =>
    refine ⟨_, f, 0, m, came, hclean, rfl, ?_⟩
    show execFlowFrameRx p m s = _
    rw [execFlowFrameRx, hr]
    dsimp only
    rw [if_pos hk, plain]
  case inl.inr.inr =>
    refine ⟨_, 0xFF, 0, m, came, hclean, rfl, ?_⟩
    show execFlowFrameRx p m s = _
    rw [execFlowFrameRx, hr]
    dsimp only
    rw [on_congr came.regs, if_pos hen, get_congr came.regs, plain]
  case inr =>
    have bad := arrived_bad p m flags s
    refine ⟨_, 0xFF, flags, { m with bytes := m.bytes.take (get s fld.macCtrl.MAX_LEN p) }, bad, hclean, rfl, ?_⟩
    show execBadFrameRx p m s = _
    rw [execBadFrameRx, hr]
    dsimp only
    rw [if_neg (by omega), on_congr bad.regs, hen, get_congr bad.regs, svcTmpls_congr bad.regs bad.sch, hsvc, if_pos (by rfl),
      get_congr bad.regs]

section Ring

variable {s : State} {p : Nat} {m : RxFrame} {i : Instr} {r : Nat} {bs : List Byte}

theorem frame_dropped (h : Delivery s p m i r bs) (hp : p < 16) (hclean : m.poisoned = false) (hsvc : svcTmpls s r = [])
    (hfull : ringRuns s r 3 = false ∨ on s fld.ringCtrl.FLUSH r = true ∨ postedOn s r = []) :
    ∃ t, exec i s = .next t ∧ t.hmem = s.hmem ∧ counter t (ethCnt p 7) = counter s (ethCnt p 7) + 1 := by
  obtain ⟨u, flow, err, g, came, -, -, hrun⟩ := h.delivers hp hclean hsvc
  have hfull : ringRuns u r 3 = false ∨ on u fld.ringCtrl.FLUSH r = true ∨ postedOn u r = [] := by
    rw [ringRuns_congr came.regs, on_congr came.regs, postedOn, came.hst]
    exact hfull
  rw [rxDeliver_none hfull] at hrun
  refine ⟨_, hrun, came.hmem, ?_⟩
  rw [counter_count, if_pos rfl, came.drops]
  rfl

theorem frame_fills (h : Delivery s p m i r bs) (hp : p < 16) (hclean : m.poisoned = false) (hsvc : svcTmpls s r = [])
    {b : RxPost} {rest : List RxPost} {fh : Nat} (hrun : ringRuns s r 3 = true) (hflush : on s fld.ringCtrl.FLUSH r = false)
    (hposted : postedOn s r = b :: rest) (hocc : 0 < ringOcc s r) (hfit : bs.length ≤ b.size) (hfh : fh = get s fld.ringCtrl.FN r) :
    ∃ t, exec i s = .next t ∧ t.ot = timeAt s m.at_ ∧
      get t fld.ringHead.HEAD r = (get s fld.ringHead.HEAD r + 1) % ringSize s r % 65536 ∧ postedOn t r = rest ∧
      ∀ k entry wb, k < bs.length → entry = hostKey fh (ringAddr s r (get s fld.ringHead.HEAD r) + 8) →
        wb = hostKey fh (get s fld.ringWbLo.WB_LO r + 2 ^ 32 * get s fld.ringWbHi.WB_HI r) →
        ¬ (entry ≤ hostKey fh b.addr.toNat + k ∧ hostKey fh b.addr.toNat + k < entry + 24) →
        ¬ (wb ≤ hostKey fh b.addr.toNat + k ∧ hostKey fh b.addr.toNat + k < wb + 4) →
        memGet t.hmem (hostKey fh b.addr.toNat + k) = bs.getD k 0 := by
  obtain ⟨u, flow, err, g, came, hclean, rfl, hexec⟩ := h.delivers hp hclean hsvc
  have posted : postedOn u r = postedOn s r := by rw [postedOn, postedOn, came.hst]
  have occ : ringOcc u r = ringOcc s r := ringOcc_congr came.regs r
  rw [rxDeliver_one ((ringRuns_congr came.regs r 3).trans hrun) ((on_congr came.regs ..).trans hflush) (posted.trans hposted)
    (occ ▸ hocc) hfit hclean] at hexec
  refine ⟨_, hexec, rxBuffer_ot.trans came.ot, ?_, ?_, fun k entry wb hk hentry hwb he hw => ?_⟩
  · rw [head_rxBuffer (occ ▸ hocc), get_congr came.regs, ringSize_congr came.regs]
  · rw [posted_rxBuffer, posted, hposted]
    rfl
  · refine memGet_rxBuffer hk ?_ ?_ ?_ he hw
    · rw [hfh, get_congr came.regs]
    · rw [hentry, ringAddr_congr came.regs, get_congr came.regs]
    · rw [hwb, get_congr came.regs, get_congr came.regs]

end Ring

end Sys2Proof.Machine

/-!
Frames that no buffer keeps (R186, R255, R260): the discovery of a node, bad frames, and packets dropped for load.
-/

namespace Sys2Proof.Machine

/-! ## Discovery (R186) -/

section Discovery

variable {s : State} {b : Nat}

/-- A status bit of the endpoint engine stays set when another event of it is raised. -/
theorem epEvent_keeps (bit ev detail : Nat) (h : hasBit s fld.epEvent.EP_EVENT b = true) :
    hasBit (epEvent bit ev detail s) fld.epEvent.EP_EVENT b = true := by
  rw [epEvent, hasBit_rd (rd_raise ev detail _ .epEvent 0 0 (by decide) (by decide) (by decide))]
  exact setBit_keeps _ _ _ _ _ _ (by decide) h

theorem publishWord0_keeps (e : Nat) (w0 : W32) (h : hasBit s fld.epEvent.EP_EVENT b = true) :
    hasBit (publishWord0 e w0 s) fld.epEvent.EP_EVENT b = true := by
  unfold publishWord0
  extract_lets m why
  split
  · rw [hasBit_rd ((within_publishEntry (μ := outside [.epEvent] []) e m (by decide +kernel) (Within.refl s)).reg .epEvent
      (by decide +kernel) 0 0), h]
  · refine epEvent_keeps _ _ _ ?_
    rw [hasBit_put_reg _ _ _ _ _ _ _ _ _ (by decide), hasBit_put_reg _ _ _ _ _ _ _ _ _ (by decide), h]

theorem svcEtabWrite_keeps (e k : Nat) (v : W32) (h : hasBit s fld.epEvent.EP_EVENT b = true) :
    hasBit (svcEtabWrite e k v s) fld.epEvent.EP_EVENT b = true := by
  unfold svcEtabWrite etabWordWrite
  have noted : hasBit (journal 0x03 (leBytes 4 (RegId.off .etabWord e k) ++ leBytes 4 v.toNat ++ leBytes 4 svcFn) s)
      fld.epEvent.EP_EVENT b = true := (hasBit_rd ((noted_journal _ _ s).reg .epEvent 0 0 (by decide)) b).trans h
  split
  · exact publishWord0_keeps _ _ noted
  · exact noted

theorem learnEntry_keeps (q : DiscReply) (e : Nat) (h : hasBit s fld.epEvent.EP_EVENT b = true) :
    hasBit (learnEntry q e s) fld.epEvent.EP_EVENT b = true := by
  unfold learnEntry
  extract_lets m w2 w4
  split
  · exact h
  · exact forEach_all (P := fun t => hasBit t fld.epEvent.EP_EVENT b = true) (fun k t ht => svcEtabWrite_keeps e k _ ht) _ _ h

/-- A node without an ID that answers is found. -/
theorem discover_finds (p : Nat) {q : DiscReply} (hq : q.node = 0) (hsvc : svcOn s = true) :
    hasBit (discover p q s) fld.epEvent.EP_EVENT 7 = true := by
  unfold discover
  rw [hsvc, if_neg (by simp), if_pos hq]
  extract_lets u m es v
  have found : hasBit u fld.epEvent.EP_EVENT 7 = true := hasBit_epEvent _ _ _ _ (by decide)
  have learnt : hasBit v fld.epEvent.EP_EVENT 7 = true :=
    forEach_all (P := fun t => hasBit t fld.epEvent.EP_EVENT 7 = true) (fun e t ht => learnEntry_keeps q e ht) _ _ found
  clear_value v es
  split
  · exact found
  · split
    · rw [hasBit_rd ((within_sendAssign (μ := outside [.epEvent] []) p q _ (by decide +kernel) (Within.refl v)).reg
        .epEvent (by decide +kernel) 0 0), learnt]
    · exact learnt

theorem reply_discovers {p : Nat} {m : RxFrame} {q : DiscReply} (hr : rxRoute s p m = .service (some q)) (hq : q.node = 0)
    (hsvc : svcOn s = true) : ∃ t, exec (.serviceFrameRx p m) s = .next t ∧ hasBit t fld.epEvent.EP_EVENT 7 = true := by
  have hrun : ∃ u, rd u .sched = rd s .sched ∧ exec (.serviceFrameRx p m) s = .next (discover p q u) := by
    show ∃ u, _ ∧ execServiceFrameRx p m s = _
    rw [execServiceFrameRx, hr]
    refine ⟨_, ?_, rfl⟩
    have heard : rd (heardFrame p m s) .sched = rd s .sched := rd_congr (heardFrame_regs p m s) ..
    split
    · rw [← heard]
      exact (within_deliverRing (μ := outside [.sched] []) p _ _ m (by decide +kernel) (Within.refl _)).reg .sched (by decide +kernel) 0 0
    · exact heard
  obtain ⟨u, hsched, hrun⟩ := hrun
  exact ⟨_, hrun, discover_finds p hq ((on_of_rd (f := fld.sched.SVC) (by rw [show fld.sched.SVC.reg = .sched from rfl, hsched])).trans hsvc)⟩

end Discovery

/-! ## Bad frames (R255) -/

section Counters

variable {k : Nat} (hd : k ≠ Cnt.evtDrop.ctorIdx) (hp : k ≠ Cnt.poison.ctorIdx)
include hd hp

theorem counter_poisonRing (r : Nat) (s : State) : counter (poisonRing r s) k = counter s k := by
  unfold poisonRing
  rw [counter_raise0 _ _ _ hd hp]
  exact counter_bump_ne _ _ _ hp

theorem counter_noteTrunc {p : Nat} (h8 : k ≠ ethCnt p 8) (s : State) : counter (noteTrunc p s) k = counter s k := by
  unfold noteTrunc
  rw [counter_portEvent hd hp, counter_count, if_neg h8]

/-- The delivery of a frame counts frames without a buffer, frames cut short, and what its events count. -/
theorem counter_rxDeliver {p : Nat} (h7 : k ≠ ethCnt p 7) (h8 : k ≠ ethCnt p 8) (r flow err : Nat) (m : RxFrame) (s : State) :
    counter (rxDeliver p r flow err m s) k = counter s k := by
  unfold rxDeliver
  extract_lets bufs u w3 x
  split
  · rw [counter_count, if_neg h7]
  · have poisoned : counter u k = counter s k := by
      unfold u
      split
      · exact counter_poisonRing hd hp r s
      · rfl
    have filled : counter x.1 k = counter s k :=
      (counter_congr ((within_rxFill (μ := outside [] [.cnt]) p r _ w3 m bufs m.bytes true (by decide +kernel) (Within.refl u)).part
        .cnt (by decide +kernel)) k).trans poisoned
    split
    · rw [counter_noteTrunc hd hp h8, filled]
    · exact filled

end Counters

theorem rxDeliver_ot (p r flow err : Nat) (m : RxFrame) (s : State) : (rxDeliver p r flow err m s).ot = s.ot :=
  (within_rxDeliver (μ := outside [] [.ot]) p r flow err m (by decide +kernel) (Within.refl s)).part .ot (by decide +kernel)

/-- Counters of the Ethernet ports are no named counters. -/
theorem ethCnt_named (p k : Nat) : ethCnt p k ≠ Cnt.evtDrop.ctorIdx ∧ ethCnt p k ≠ Cnt.poison.ctorIdx := by
  have hd := cnt_lt .evtDrop
  have hp := cnt_lt .poison
  unfold ethCnt
  omega

/-- A bad frame counts as its first error says; a 10BASE-T1S port counts FCS errors only. -/
theorem bad_counts {s : State} {p : Nat} {m : RxFrame} {flags : Nat} (hr : rxRoute s p m = .bad flags) :
    ∃ t, exec (.badFrameRx p m) s = .next t ∧ t.ot = timeAt s m.at_ ∧
      (p < 16 → counter t (ethCnt p (2 + firstBad flags)) = counter s (ethCnt p (2 + firstBad flags)) + 1) ∧
      (16 ≤ p → firstBad flags = 0 → counter t (t1sCnt (p - 16) 2) = counter s (t1sCnt (p - 16) 2) + 1) := by
  show ∃ t, execBadFrameRx p m s = _ ∧ _
  rw [execBadFrameRx, hr]
  dsimp only
  by_cases hp : 16 ≤ p
  · rw [if_pos hp]
    refine ⟨_, rfl, ?_, fun h => absurd h (by omega), fun _ h0 => ?_⟩
    · split <;> exact advance_ot m.at_ s
    · rw [if_pos h0, counter_count, if_pos rfl, counter_advance]
      rfl
  · rw [if_neg hp]
    have bad := arrived_bad p m flags s
    have counted : counter (count (ethCnt p (2 + firstBad flags)) 1 (advance m.at_ s)) (ethCnt p (2 + firstBad flags)) =
        counter s (ethCnt p (2 + firstBad flags)) + 1 := by
      rw [counter_count, if_pos rfl, counter_advance]
      rfl
    obtain ⟨hd, hq⟩ := ethCnt_named p (2 + firstBad flags)
    have hlt := firstBad_lt flags
    refine ⟨_, rfl, ?_, fun _ => ?_, fun h => absurd h hp⟩
    · split
      · rw [rxDeliver_ot, bad.ot]
      · exact bad.ot
    · split
      · rw [counter_rxDeliver hd hq (by unfold ethCnt; omega) (by unfold ethCnt; omega), counted]
      · exact counted

/-! ## Packets dropped for load (R260, R269) -/

theorem mayOverflow_congr {s u : State} (h : u.regs = s.regs) : mayOverflow u = mayOverflow s := by
  unfold mayOverflow flowOn
  simp only [on_congr h, get_congr h]

/-- The packet of a live stream that goes to a flow entry of its kind: video 1, audio 2, ancillary 3. -/
def StreamPacket (p : Nat) (h : RxFrame) (ovf : Bool) (v : VideoPkt) (w : AudioPkt) (x : AncPkt) (k : Nat) (i : Instr) : Prop :=
  k = 1 ∧ i = .videoPacketRx p h v ovf ∨ k = 2 ∧ i = .audioPacketRx p h w ovf ∨ k = 3 ∧ i = .ancPacketRx p h x ovf

theorem exec_overflow {s : State} {p : Nat} {h : RxFrame} {v : VideoPkt} {w : AudioPkt} {x : AncPkt} {k f : Nat} {i : Instr}
    (hroute : kindRoute s k p h = some f) (hi : StreamPacket p h true v w x k i) (hload : mayOverflow s = true) :
    exec i s = .next (noteOvf p (heardFrame p h s)) := by
  have load : (true && mayOverflow (heardFrame p h s)) = true := by rw [mayOverflow_congr (heardFrame_regs ..), hload]; rfl
  rcases hi with ⟨rfl, rfl⟩ | ⟨rfl, rfl⟩ | ⟨rfl, rfl⟩
  · show execVideoPacketRx p h v true s = _
    rw [execVideoPacketRx, hroute]
    dsimp only
    rw [if_pos load]
  · show execAudioPacketRx p h w true s = _
    rw [execAudioPacketRx, hroute]
    dsimp only
    rw [if_pos load]
  · show execAncPacketRx p h x true s = _
    rw [execAncPacketRx, hroute]
    dsimp only
    rw [if_pos load]

/-- A packet dropped for load is counted and raised, and its target does not see it. -/
theorem load_drops {s : State} {p : Nat} {h : RxFrame} {v : VideoPkt} {w : AudioPkt} {x : AncPkt} {k f : Nat} {i : Instr}
    (hroute : kindRoute s k p h = some f) (hi : StreamPacket p h true v w x k i) (hp : p < 16) (hload : mayOverflow s = true) :
    ∃ t, exec i s = .next t ∧ counter t (ethCnt p 9) = counter s (ethCnt p 9) + 1 ∧
      hasBit t fld.portEvent.PORT_EVENT 5 p = true ∧ t.prt.vids = s.prt.vids ∧ t.prt.auds = s.prt.auds ∧ t.prt.ancs = s.prt.ancs := by
  obtain ⟨hd, hq⟩ := ethCnt_named p 9
  have prt : (noteOvf p (heardFrame p h s)).prt = (heardFrame p h s).prt := by
    rw [noteOvf, portEvent, raise_prt, setBit_prt, count_prt]
  refine ⟨_, exec_overflow hroute hi hload, ?_, hasBit_portEvent (by decide) _ _ _, ?_, ?_, ?_⟩
  · rw [noteOvf, counter_portEvent hd hq, counter_count, if_pos rfl, counter_heardFrame_ne h s hp (by simp [ethCnt])]
    rfl
  all_goals rw [prt, heardFrame_prt]

end Sys2Proof.Machine

/-!
Video targets (R258 to R260): the merge of a target's legs, and the rows that a packet writes.
-/

namespace Sys2Proof.Machine

/-! ## Frame memory under a row's writes -/

theorem memWrite_append (m : List Host.Cell) (a : Nat) (xs ys : List Byte) :
    memWrite m a (xs ++ ys) = memWrite (memWrite m a xs) (a + xs.length) ys := by
  induction xs generalizing m a with
  | nil => rfl
  | cons x xs ih =>
    rw [List.cons_append, memWrite, ih, memWrite, List.length_cons, show a + 1 + xs.length = a + (xs.length + 1) by omega]

/-- Bytes below a write are as before. -/
theorem memRead_memWrite_below (m : List Host.Cell) {a q n : Nat} (bs : List Byte) (h : q + n ≤ a) :
    memRead (memWrite m a bs) q n = memRead m q n := by
  rw [memRead_eq, memRead_eq]
  refine List.map_congr_left (fun k hk => memGet_memWrite_out _ _ _ _ (.inl ?_))
  have := List.mem_range.mp hk
  omega

/-! ## The legs of a target shown (R259) -/

section ShowLegs

variable (k n : Nat) (s : State)

theorem showLegs_prt : (showLegs k n s).prt = s.prt := by
  unfold showLegs
  extract_lets all
  split
  · exact put_prt ..
  · rfl

theorem showLegs_ot : (showLegs k n s).ot = s.ot := by
  unfold showLegs
  extract_lets all
  split
  · exact put_ot ..
  · rfl

theorem showLegs_fmem : (showLegs k n s).fmem = s.fmem := by
  unfold showLegs
  extract_lets all
  split
  · exact put_fmem ..
  · rfl

theorem showLegs_cnt : (showLegs k n s).cnt = s.cnt := by
  unfold showLegs
  extract_lets all
  split
  · exact put_cnt ..
  · rfl

end ShowLegs

/-! ## A video target -/

/-- A video target's state replaced, and its legs shown. -/
def shownVid (n : Nat) (v : Vid) (s : State) : State := showLegs 1 n (setVid n v s)

section ShownVid

variable (n : Nat) (v : Vid) (s : State)

theorem vidOf_prt {s t : State} (h : t.prt = s.prt) (n : Nat) : vidOf t n = vidOf s n := by
  unfold vidOf
  rw [h]

@[simp] theorem vidOf_setVid : vidOf (setVid n v s) n = v := map_get_put_same ..

theorem vidOf_shownVid : vidOf (shownVid n v s) n = v := by
  rw [shownVid, vidOf_prt (showLegs_prt ..), vidOf_setVid]

@[simp] theorem vidOf_count (k j : Nat) : vidOf (count k j s) n = vidOf s n := vidOf_prt (count_prt ..) n

@[simp] theorem setVid_regs : (setVid n v s).regs = s.regs := rfl

@[simp] theorem setVid_fmem : (setVid n v s).fmem = s.fmem := rfl

theorem shownVid_fmem : (shownVid n v s).fmem = s.fmem := by
  rw [shownVid, showLegs_fmem, setVid_fmem]

theorem counter_shownVid (k : Nat) : counter (shownVid n v s) k = counter s k := by
  rw [shownVid, counter_congr (showLegs_cnt ..)]
  rfl

theorem rd_shownVid {r : RegId} (h : r ≠ .strmStatus) (i j : Nat) : rd (shownVid n v s) r i j = rd s r i j :=
  rd_put_reg fld.strmStatus.STRM_STATUS r _ (setVid n v s) n 0 i j h

theorem vidOf_heardFrame (p : Nat) (h : RxFrame) : vidOf (heardFrame p h s) n = vidOf s n := by
  unfold vidOf
  rw [heardFrame_prt]

end ShownVid

/-- The registers that place the rows of a video target. -/
def videoRegs : List RegId := [.vsize, .ringFmt, .vringBase, .lineStride]

section VideoRegs

variable {s u : State} (h : ∀ r ∈ videoRegs, ∀ i, rd u r i = rd s r i)
include h

theorem videoBad_of_rd (n : Nat) (m : VideoPkt) : videoBad u n m = videoBad s n m := by
  unfold videoBad lineBytes pixGroup
  rw [get_of_rd (f := fld.vsize.VHEIGHT) (h .vsize (by decide) n), get_of_rd (f := fld.vsize.VWIDTH) (h .vsize (by decide) n),
    get_of_rd (f := fld.ringFmt.DEPTH) (h .ringFmt (by decide) n), get_of_rd (f := fld.ringFmt.SAMPLING) (h .ringFmt (by decide) n)]

theorem lineAddr_of_rd (n : Nat) (f : VFrame) (y : Nat) : lineAddr u n f y = lineAddr s n f y := by
  unfold lineAddr
  rw [get_of_rd (f := fld.vringBase.RING_BASE) (h .vringBase (by decide) n), get_of_rd (f := fld.vsize.VHEIGHT) (h .vsize (by decide) n),
    get_of_rd (f := fld.lineStride.LINE_STRIDE) (h .lineStride (by decide) n)]

end VideoRegs

/-! ## The packets of a video target (R259, R260) -/

section TakeVideo

variable {leg n : Nat} {at_ : W64} {m : VideoPkt} {s : State} {g g' : Merge}

/-- A packet that the merge does not accept is counted: a duplicate, or one too far behind. -/
theorem takeVideo_refused {k : Nat} (hg : g = heard (vidOf s n).merge leg at_)
    (h : mergeSeq g m.seq = .dup ∧ k = 0 ∨ mergeSeq g m.seq = .stale ∧ k = 1) :
    takeVideo leg n at_ m s = count (vidCnt n k) 1 (shownVid n { vidOf s n with merge := g } s) := by
  unfold takeVideo
  dsimp only
  rw [← hg]
  rcases h with ⟨h, rfl⟩ | ⟨h, rfl⟩
  · rw [h]
    rfl
  · rw [h]
    rfl

theorem videoBad_shownVid (v : Vid) : videoBad (shownVid n v s) n m = videoBad s n m :=
  videoBad_of_rd (fun r hr i => rd_shownVid n v s (by rintro rfl; exact absurd hr (by decide)) i 0) n m

theorem takeVideo_bad (hg : g = heard (vidOf s n).merge leg at_) (h : mergeSeq g m.seq = .accept g') (hbad : videoBad s n m = true) :
    takeVideo leg n at_ m s = count (vidCnt n 3) 1 (shownVid n { vidOf s n with merge := g' } s) := by
  unfold takeVideo
  dsimp only
  rw [← hg, h]
  exact if_pos ((videoBad_shownVid _).trans hbad)

/-- A packet of the newest frame writes its rows. -/
theorem takeVideo_rows (hg : g = heard (vidOf s n).merge leg at_) (h : mergeSeq g m.seq = .accept g') (hgood : videoBad s n m = false)
    {f : VFrame} {older : List VFrame} (hf : (vidOf s n).frames = f :: older) (hts : f.ts = m.ts) :
    takeVideo leg n at_ m s = forEach m.rows (writeRow n f)
      (setVid n { vidOf s n with merge := g' } (shownVid n { vidOf s n with merge := g' } s)) := by
  have frame : ∀ u : State, videoFrame u n at_ m { vidOf s n with merge := g' } = some (f, { vidOf s n with merge := g' }) := by
    intro u
    unfold videoFrame
    dsimp only
    rw [hf]
    exact if_pos hts
  unfold takeVideo
  dsimp only
  rw [← hg, h]
  dsimp only
  rw [frame]
  exact if_neg (by rw [show videoBad (showLegs 1 n _) n m = _ from videoBad_shownVid _, hgood]; decide)

end TakeVideo

theorem writeRow_prt (n : Nat) (f : VFrame) (r : VideoRow) (s : State) : (writeRow n f r s).prt = s.prt := rfl

/-- A row written: its data, its frame's tag, and how many bytes of the line have come. -/
theorem writeRow_writes {n : Nat} {f : VFrame} {r : VideoRow} {s : State} {a : Nat} (ha : a = lineAddr s n f r.row) :
    memRead (writeRow n f r s).fmem (a + 64 + r.byteOff) r.data.length = r.data ∧
    memRead (writeRow n f r s).fmem a 4 = leBytes 4 f.ts.toNat ∧
    memRead (writeRow n f r s).fmem (a + 4) 4 =
      leBytes 4 ((if fmemNat s a 4 = f.ts.toNat then fmemNat s (a + 4) 4 else 0) + r.data.length) := by
  have written : (writeRow n f r s).fmem = memWrite (memWrite (memWrite s.fmem a (leBytes 4 f.ts.toNat)) (a + 4)
      (leBytes 4 ((if fmemNat s a 4 = f.ts.toNat then fmemNat s (a + 4) 4 else 0) + r.data.length))) (a + 64 + r.byteOff) r.data := by
    subst ha
    have tag := memWrite_append s.fmem (lineAddr s n f r.row) (leBytes 4 f.ts.toNat)
      (leBytes 4 ((if fmemNat s (lineAddr s n f r.row) 4 = f.ts.toNat then fmemNat s (lineAddr s n f r.row + 4) 4 else 0) + r.data.length))
    rw [length_leBytes] at tag
    rw [← tag]
    rfl
  rw [written]
  refine ⟨memRead_memWrite _ _ _ _ rfl, ?_, ?_⟩
  · rw [memRead_memWrite_below _ _ (by omega), memRead_memWrite_below _ _ (by omega), memRead_memWrite _ _ _ _ (length_leBytes ..)]
  · rw [memRead_memWrite_below _ _ (by omega), memRead_memWrite _ _ _ _ (length_leBytes ..)]

/-- A frame heard on an Ethernet port counts in no counter of a video target. -/
theorem vidCnt_heardFrame {p : Nat} (hp : p < 16) (h : RxFrame) (s : State) (n k : Nat) :
    counter (heardFrame p h s) (vidCnt n k) = counter s (vidCnt n k) :=
  counter_heardFrame_ne h s hp (by unfold vidCnt ethCnt; omega)

section VideoPacket

variable {s : State} {p n f : Nat} {h : RxFrame} {m : VideoPkt} {ovf : Bool} {g g' : Merge}
  (hroute : kindRoute s 1 p h = some f) (hn : n = get s fld.flowCtrl.TARGET p f) (hlt : n < 16) (hload : (ovf && mayOverflow s) = false)
include hroute hn hlt hload

theorem exec_video : exec (.videoPacketRx p h m ovf) s = .next (takeVideo (16 * p + f) n h.at_ m (heardFrame p h s)) := by
  show execVideoPacketRx p h m ovf s = _
  rw [execVideoPacketRx, hroute]
  dsimp only
  rw [← hn, mayOverflow_congr (heardFrame_regs ..), hload, if_neg (by simp), if_neg (by omega)]

variable (hg : g = heard (vidOf s n).merge (16 * p + f) h.at_)
include hg

theorem video_refused {k : Nat} (hm : mergeSeq g m.seq = .dup ∧ k = 0 ∨ mergeSeq g m.seq = .stale ∧ k = 1) :
    ∃ t, exec (.videoPacketRx p h m ovf) s = .next t ∧ (vidOf t n).merge = g ∧
      counter t (vidCnt n k) = counter s (vidCnt n k) + 1 := by
  have hrun := exec_video (m := m) hroute hn hlt hload
  rw [takeVideo_refused (by rw [vidOf_heardFrame]; exact hg) hm] at hrun
  refine ⟨_, hrun, by rw [vidOf_count, vidOf_shownVid], ?_⟩
  rw [counter_count, if_pos rfl, counter_shownVid, vidCnt_heardFrame (port_of_kind hroute)]
  rfl

variable (hm : mergeSeq g m.seq = .accept g')
include hm

theorem video_malformed (hbad : videoBad s n m = true) : ∃ t, exec (.videoPacketRx p h m ovf) s = .next t ∧ t.fmem = s.fmem ∧
    (vidOf t n).merge = g' ∧ counter t (vidCnt n 3) = counter s (vidCnt n 3) + 1 := by
  have hrun := exec_video (m := m) hroute hn hlt hload
  have bad : videoBad (heardFrame p h s) n m = true :=
    (videoBad_of_rd (fun r _ i => rd_congr (heardFrame_regs p h s) r i 0) n m).trans hbad
  rw [takeVideo_bad (by rw [vidOf_heardFrame]; exact hg) hm bad] at hrun
  refine ⟨_, hrun, by rw [count_fmem, shownVid_fmem, heardFrame_fmem], by rw [vidOf_count, vidOf_shownVid], ?_⟩
  rw [counter_count, if_pos rfl, counter_shownVid, vidCnt_heardFrame (port_of_kind hroute)]
  rfl

theorem video_row {e : VFrame} {older : List VFrame} {r : VideoRow} {a : Nat} (hgood : videoBad s n m = false)
    (he : (vidOf s n).frames = e :: older) (hts : e.ts = m.ts) (hrows : m.rows = [r]) (ha : a = lineAddr s n e r.row) :
    ∃ t, exec (.videoPacketRx p h m ovf) s = .next t ∧ (vidOf t n).merge = g' ∧
      memRead t.fmem (a + 64 + r.byteOff) r.data.length = r.data ∧ memRead t.fmem a 4 = leBytes 4 m.ts.toNat ∧
      memRead t.fmem (a + 4) 4 =
        leBytes 4 ((if fmemNat s a 4 = m.ts.toNat then fmemNat s (a + 4) 4 else 0) + r.data.length) := by
  have hrun := exec_video (m := m) hroute hn hlt hload
  have same := vidOf_heardFrame n s p h
  have good : videoBad (heardFrame p h s) n m = false :=
    (videoBad_of_rd (fun r _ i => rd_congr (heardFrame_regs p h s) r i 0) n m).trans hgood
  rw [takeVideo_rows (by rw [same]; exact hg) hm good (by rw [same]; exact he) hts, hrows] at hrun
  generalize hu : setVid n _ (shownVid n _ (heardFrame p h s)) = u at hrun
  have place : ∀ q ∈ videoRegs, ∀ i, rd u q i = rd s q i := by
    intro q hq i
    rw [← hu, rd_congr (setVid_regs ..), rd_shownVid _ _ _ (by rintro rfl; exact absurd hq (by decide)), rd_congr (heardFrame_regs ..)]
  have fmem : u.fmem = s.fmem := by
    rw [← hu, setVid_fmem, shownVid_fmem, heardFrame_fmem]
  have merged : (vidOf u n).merge = g' := by
    rw [← hu, vidOf_setVid]
  obtain ⟨hdata, htag, hcount⟩ := writeRow_writes (n := n) (f := e) (r := r) (s := u) (ha.trans (lineAddr_of_rd place n e r.row).symm)
  rw [hts] at htag hcount
  rw [show forEach [r] (writeRow n e) u = writeRow n e r u from rfl] at hrun
  refine ⟨_, hrun, ?_, hdata, htag, ?_⟩
  · rw [vidOf_prt (writeRow_prt ..), merged]
  · rw [fmemNat, fmemNat, ← fmem]
    exact hcount

end VideoPacket

end Sys2Proof.Machine

/-!
Changes of inputs from a source of the device (R125, R315): what the change leaves alone, and the record that it enters.
-/

namespace Sys2Proof.Machine

/-! ## The counters of ports and streams under a change (Table 13-7) -/

/-- The counters of the ports and of what they receive are as before: those from 128 up. -/
def PortCounts (s x : State) : Prop := ∀ k, 128 ≤ k → counter x k = counter s k

theorem PortCounts.refl (s : State) : PortCounts s s := fun _ _ => rfl

theorem PortCounts.trans {s t u : State} (a : PortCounts s t) (b : PortCounts t u) : PortCounts s u :=
  fun k hk => (b k hk).trans (a k hk)

section PortCounts

variable {s x : State} (h : PortCounts s x)
include h

theorem PortCounts.same {y : State} (e : y.cnt = x.cnt) : PortCounts s y := fun k hk => (counter_congr e k).trans (h k hk)

theorem PortCounts.forEach {α : Type} {xs : List α} {f : α → State → State} (hf : ∀ a ∈ xs, ∀ y, PortCounts s y → PortCounts s (f a y)) :
    PortCounts s (forEach xs f x) := forEach_all' (P := PortCounts s) xs hf x h

theorem PortCounts.bump (c : Cnt) : PortCounts s (bump c x) := fun k hk =>
  (counter_bump_ne c x k (by have := cnt_lt c; omega)).trans (h k hk)

theorem PortCounts.raise (ev detail : Nat) : PortCounts s (raise ev detail x) := fun k hk =>
  (counter_raise ev detail x k (by have := cnt_lt .evtDrop; omega) (by have := cnt_lt .poison; omega)).trans (h k hk)

theorem PortCounts.raise0 (ev : Nat) : PortCounts s (raise0 ev x) := h.raise ev noDetail

theorem PortCounts.refreshCtx (c : Nat) : PortCounts s (refreshCtx c x) := fun k hk =>
  (refreshCtx_cnt c x k (by have := cnt_lt .evtDrop; omega) (by have := cnt_lt .poison; omega)).trans (h k hk)

theorem PortCounts.freeTask (t : Task) : PortCounts s (freeTask t x) := fun k hk =>
  (freeTask_cnt t x k (by have := cnt_lt .evtDrop; omega) (by have := cnt_lt .poison; omega)).trans (h k hk)

theorem PortCounts.leakStaged (t : Task) : PortCounts s (leakStaged t x) :=
  h.same ((within_leakStaged (μ := outside [] [.cnt]) t (by decide +kernel) (Within.refl x)).part .cnt (by decide +kernel))

theorem PortCounts.holdEnds : PortCounts s (holdEnds x) :=
  h.same ((within_holdEnds (μ := outside [] [.cnt]) (by decide +kernel) (Within.refl x)).part .cnt (by decide +kernel))

theorem PortCounts.journal (ty : Nat) (p : List Byte) : PortCounts s (journal ty p x) := fun k hk =>
  ((noted_journal ty p x).cnt k (by have := cnt_lt .journalTx; omega)).trans (h k hk)

/-! ### Tasks released -/

theorem PortCounts.createTask (d : List W32) (c : Nat) (epoch : Option W32) (pg : ProgSnap) (tmpl parent : Option Nat) (slot : Nat) :
    PortCounts s (createTask d c epoch pg tmpl parent slot x) := by
  unfold Machine.createTask
  extract_lets t before sched u v w
  have placed : PortCounts s v := by
    have taken : PortCounts s u := by
      unfold u takeSlot
      split <;> exact h.same rfl
    unfold v
    split <;> exact taken.same rfl
  refine PortCounts.refreshCtx ?_ c
  unfold w
  split
  · exact placed.raise0 16
  · exact placed

theorem PortCounts.tmplErr (n : Nat) : PortCounts s (tmplErr n x) := (h.same (y := put fld.tmplBind.ERR 1 x n) rfl).raise0 22

theorem PortCounts.dropRelease (n c : Nat) : PortCounts s (dropRelease n c x) :=
  (h.same (y := wr .tmplDrop (rd x .tmplDrop n + 1) x n) rfl).raise 21 c

theorem PortCounts.countRelease (n : Nat) : PortCounts s (countRelease n x) := h.same rfl

theorem PortCounts.releaseOne (n : Nat) (d : List W32) (pg : Option ProgSnap) (kind : Nat) (inh : Option (Nat × W32)) :
    PortCounts s (releaseOne n d pg kind inh x) := by
  unfold Machine.releaseOne
  extract_lets c bad epoch u
  split
  · exact h
  · split
    · exact h.tmplErr n
    · split
      · split
        · exact (h.countRelease n).dropRelease n c
        · exact (h.countRelease n).createTask _ _ _ _ _ _ _
      · exact (h.countRelease n).dropRelease n c

theorem PortCounts.releaseTmpl (n : Nat) (sn : TmplSnap) (c : Nat) (e : W32) : PortCounts s (releaseTmpl n sn c e x) := by
  unfold Machine.releaseTmpl
  split
  · exact h.releaseOne _ _ _ _ _
  · extract_lets d ep w job u
    split
    · exact h
    · split
      · exact h.tmplErr n
      · exact (h.countRelease n).same rfl

theorem PortCounts.releaseTmpls (c : Nat) (e : W32) : PortCounts s (releaseTmpls c e x) :=
  h.forEach (fun _ _ _ hy => hy.releaseTmpl _ _ _ _)

theorem PortCounts.endRest (c : Nat) : PortCounts s (endRest c x) := by
  unfold Machine.endRest
  split
  · have ends : ∀ v, PortCounts s (put fld.canvasStatus.RESTING 0 (setCanvas c v x) c) := fun _ => h.same rfl
    exact ((ends _).holdEnds.raise 39 c).forEach (fun e _ _ hy => hy.releaseTmpls c e)
  · exact h

/-! ### Work squashed -/

theorem PortCounts.discardKids (n pid : Nat) : PortCounts s (discardKids n pid x) := by
  induction n generalizing pid x with
  | zero => exact h
  | succ n ih =>
    unfold Machine.discardKids
    extract_lets kids gone wait sched u v
    have forgot : PortCounts s u := h.same rfl
    have freed : PortCounts s v := forgot.forEach (fun t _ y hy => ih ((hy.leakStaged t).freeTask t) t.id)
    exact freed.forEach (fun i _ y hy => ih hy i)

theorem PortCounts.squash (t : Task) : PortCounts s (squash t x) := (((h.leakStaged t).discardKids _ _).bump .squash).same rfl

theorem PortCounts.recreate (d : DoneTask) : PortCounts s (recreate d x) :=
  ((h.discardKids (kidDepth x) d.id).same rfl).bump .squash

theorem PortCounts.invalidate (k : InKey) (c : Nat) (e : W32) : PortCounts s (invalidate k c e x) := by
  unfold Machine.invalidate
  extract_lets hit u done
  have squashed : PortCounts s u := h.forEach (fun t _ y hy => by
    split
    · split
      · exact hy.squash _
      · exact hy
    · exact hy)
  exact squashed.forEach (fun d _ y hy => by
    split
    · exact hy.recreate d
    · exact hy)

/-! ### The change -/

theorem PortCounts.noteLate {c : Nat} (hc : c < 64) : PortCounts s (noteLate c x) := by
  have counted : PortCounts s (count (64 + c) 1 x) := fun k hk => by
    rw [counter_count, if_neg (by omega), h k hk]
  exact (counted.same (y := setBit fld.canvasEvent.CANVAS_EVENT 2 (count (64 + c) 1 x) c) rfl).raise 35 c

theorem PortCounts.changeOn (q : Change) {c : Nat} (hc : c < 64) (late : Bool) : PortCounts s (changeOn q c late x) := by
  unfold Machine.changeOn
  split
  · exact h
  · extract_lets u v top w z
    have noted : PortCounts s u := by
      unfold u
      split
      · exact h.noteLate hc
      · exact h
    have shown : PortCounts s w := noted.same rfl
    have rested : PortCounts s z := by
      unfold z
      split
      · exact shown.endRest c
      · exact shown
    split
    · exact rested
    · exact rested.invalidate _ _ _

theorem PortCounts.releaseOnInput (q : Change) : PortCounts s (releaseOnInput q x) :=
  h.forEach (fun n _ y hy => by
    dsimp only
    split
    · exact hy
    · exact hy.releaseOne _ _ _ _ _)

theorem PortCounts.takeChange (k : InKey) (value buf : W32) (g : ATarget) : PortCounts s (takeChange k value buf g x) := by
  unfold Machine.takeChange
  extract_lets ver cs lates q log logged versioned placed freed n used
  have hversioned : PortCounts s versioned := by
    unfold versioned
    split <;> exact h.same rfl
  have hplaced : PortCounts s placed := hversioned.forEach (fun c hc y hy => by
    have running := List.mem_of_mem_filter (List.mem_of_mem_filter hc)
    exact hy.changeOn q (List.mem_range.mp running) _)
  have hfreed : PortCounts s freed := PortCounts.releaseOnInput (hplaced.same (y := pruneLog placed) rfl) q
  have hused : PortCounts s used := by
    unfold used
    split
    · exact hfreed.same rfl
    · exact hfreed
  split
  · exact (hused.same (y := setBit fld.inputLogStatus.FULL 0 _) rfl).raise0 38
  · exact hused

theorem PortCounts.discardChange : PortCounts s (discardChange x) := by
  have taken : PortCounts s { x with vat := { x.vat with badNext := false } } := h.same rfl
  exact ((taken.bump .poison).same (y := setBit fld.hostStatus.HOST_STATUS 1 _) rfl).raise0 10

theorem PortCounts.enterChange (k : InKey) (value buf : W32) (g : ATarget) : PortCounts s (enterChange k value buf g x) := by
  unfold Machine.enterChange
  split
  · exact PortCounts.bump (h.same rfl) .inputLogFull
  · split
    · exact h.discardChange
    · unfold journalChange
      split
      · exact (h.takeChange _ _ _ _).journal _ _
      · exact h.takeChange _ _ _ _

theorem PortCounts.sourceChange (k : InKey) (v : W32) (g : ATarget) : PortCounts s (sourceChange k v g x) := by
  unfold Machine.sourceChange
  split
  · exact h
  · exact h.enterChange _ _ _ _

end PortCounts

/-! ## What a change leaves alone -/

section SourceChange

variable (k : InKey) (v : W32) (g : ATarget) (s : State)

/-- A change from a source of the device leaves the ports, their targets, outward time and the timecode registers alone. -/
theorem within_ports_sourceChange : Within (outside [.tcReg] [.ot, .prt]) s (sourceChange k v g s) :=
  within_sourceChange k v g (by decide +kernel) (Within.refl s)

theorem sourceChange_ot : (sourceChange k v g s).ot = s.ot := (within_ports_sourceChange k v g s).part .ot (by decide +kernel)

theorem sourceChange_prt : (sourceChange k v g s).prt = s.prt := (within_ports_sourceChange k v g s).part .prt (by decide +kernel)

theorem rd_tcReg_sourceChange (i j : Nat) : rd (sourceChange k v g s) .tcReg i j = rd s .tcReg i j :=
  (within_ports_sourceChange k v g s).reg .tcReg (by decide +kernel) i j

end SourceChange

/-- The record of a change that is not of a layer enters the log with the next version. -/
theorem sourceChange_enters {k : InKey} {g : ATarget} {s : State} (v : W32) (hk : k.kind ≠ 7) (hst : standby s = false) (hroom : logRoom s = true)
    (hok : s.vat.badNext = false) (hn : NextIsNewest s k) :
    newestVersion (sourceChange k v g s) k = newestVersion s k + 1 ∧
      ∃ x ∈ (sourceChange k v g s).vat.inputs, x.key = k ∧ x.value = v ∧ x.version = newestVersion s k + 1 := by
  have enters := (logChange_enters k v 0 g s hok (.inl hk) hn).1
  have vat : (sourceChange k v g s).vat = (logChange k v 0 g s).vat := by
    rw [sourceChange, hst, if_neg (by simp), enterChange, hroom, if_neg (by simp), logChange, hok, if_neg (by simp), if_neg (by simp)]
    unfold journalChange
    split
    · exact (journal_parts ..).2.2.1
    · rfl
  obtain ⟨version, record⟩ := enters
  rw [newestVersion_congr (congrArg Vat.versions vat), vat]
  exact ⟨version, _, record, rfl, rfl, rfl⟩

end Sys2Proof.Machine

/-!
Audio targets (R261) and timecode (R262).
-/

namespace Sys2Proof.Machine

/-! ## An audio target -/

section AudOf

variable {s t : State}

theorem audOf_prt (h : t.prt = s.prt) (n : Nat) : audOf t n = audOf s n := by
  unfold audOf
  rw [h]

@[simp] theorem audOf_setAud (n : Nat) (v : Aud) (s : State) : audOf (setAud n v s) n = v := map_get_put_same ..

theorem audOf_heardFrame (n p : Nat) (h : RxFrame) (s : State) : audOf (heardFrame p h s) n = audOf s n := by
  unfold audOf
  rw [heardFrame_prt]

end AudOf

/-! ## Segments (R261) -/

/-- A sample time put into its segment, which completes with its 48 samples. -/
def gatherSample (n : Nat) (at_ : W64) (t : Nat) (w : List (BitVec 24)) (s : State) : State :=
  let a := audOf s n
  let a := if a.seg.isNone then { a with seg := some (t / 48), media := segmentTime s n (t / 48) at_ } else a
  let a := { a with samples := Map.put a.samples t w }
  let s := setAud n a s
  if a.samples.length = 48 then closeSegment n (t / 48) a.media s else s

section Segment

variable {n : Nat} {at_ : W64} {t : Nat} {w : List (BitVec 24)} {s : State}

/-- A sample time of no completed segment and not before the one being gathered goes into its segment after those before it complete. -/
theorem audioSample_gathers (hclosed : ∀ c, (audOf s n).closed = some c → c < t / 48) (hseg : ∀ g, (audOf s n).seg = some g → g ≤ t / 48) :
    audioSample n at_ t w s = gatherSample n at_ t w (closeBefore n (t / 48) at_ s) := by
  unfold audioSample
  extract_lets k a old
  have hold : old = false := by
    unfold old
    split
    · next c hc => simpa using hclosed c hc
    · rfl
  rw [if_neg]
  · rfl
  · rw [hold, Bool.false_or]
    split
    · next g hg => simpa using hseg g hg
    · decide

/-- No segment comes before the one being gathered, or before the one after the last completed. -/
theorem closeBefore_next (hclosed : ∀ c, (audOf s n).closed = some c → c + 1 = t / 48)
    (hseg : (audOf s n).seg = none ∨ (audOf s n).seg = some (t / 48)) : closeBefore n (t / 48) at_ s = s := by
  have opened : (match (audOf s n).seg with
      | some g => if g < t / 48 then closeSegment n g (audOf s n).media s else s
      | none => s) = s := by
    rcases hseg with e | e
    · rw [e]
    · rw [e]
      exact if_neg (Nat.lt_irrefl _)
  unfold closeBefore
  extract_lets u
  have hu : u = s := opened
  rw [hu]
  split
  · next c hc =>
    rw [show t / 48 - 1 - c = 0 by have := hclosed c hc; omega]
    rfl
  · rfl

/-- One segment of which no sample came completes before a sample of the next but one. -/
theorem closeBefore_gap {c : Nat} (hseg : (audOf s n).seg = none) (hclosed : (audOf s n).closed = some c) (hc : c + 2 = t / 48) :
    closeBefore n (t / 48) at_ s = closeSegment n (c + 1) (segmentTime s n (c + 1) at_) s := by
  unfold closeBefore
  extract_lets u
  have hu : u = s := by
    unfold u
    rw [hseg]
  rw [hu, hclosed]
  dsimp only
  rw [show t / 48 - 1 - c = 1 by omega]
  rfl

/-- A segment that completes with samples missing counts a gap; the stream goes on with nothing gathered. -/
theorem closeSegment_gap (k : Nat) (media : W64) (hgap : (audOf s n).samples.length < 48) :
    audOf (closeSegment n k media s) n = { audOf s n with seg := none, samples := [], closed := some k } ∧
      counter (closeSegment n k media s) (496 + n) = counter s (496 + n) + 1 := by
  unfold closeSegment
  dsimp only
  rw [if_pos hgap]
  generalize hu : raise0 87 (count (496 + n) 1 (setAud n { audOf s n with seg := none, samples := [], closed := some k } s)) = u
  have prt : ∀ (xs : List Nat) f, (∀ c y, (f c y : State).prt = y.prt) → (forEach xs f u).prt = u.prt :=
    fun xs f hf => forEach_same State.prt f hf xs u
  refine ⟨?_, ?_⟩
  · rw [audOf_prt (prt _ _ (fun c y => sourceChange_prt ..)), ← hu, audOf_prt (raise0_prt ..)]
    exact audOf_setAud ..
  · rw [(PortCounts.refl u).forEach (fun c _ y hy => hy.sourceChange _ _ _) (496 + n) (by omega), ← hu,
      (PortCounts.refl _).raise0 87 (496 + n) (by omega), counter_count, if_pos rfl]
    rfl

/-- A sample that does not complete its segment. -/
theorem gatherSample_is (hseg : (audOf s n).seg = none ∨ (audOf s n).seg = some (t / 48))
    (hlen : (Map.put (audOf s n).samples t w).length ≠ 48) : ∃ media, gatherSample n at_ t w s =
      setAud n { audOf s n with seg := some (t / 48), media := media, samples := Map.put (audOf s n).samples t w } s := by
  unfold gatherSample
  extract_lets a b c u
  obtain ⟨media, hb⟩ : ∃ media, b = { audOf s n with seg := some (t / 48), media := media } := by
    rcases hseg with e | e
    · exact ⟨_, if_pos (by rw [e]; rfl)⟩
    · refine ⟨(audOf s n).media, (if_neg (by rw [e]; exact Bool.false_ne_true)).trans ?_⟩
      rw [← e]
  have hc : c = { audOf s n with seg := some (t / 48), media := media, samples := Map.put (audOf s n).samples t w } := by
    unfold c
    rw [hb]
  refine ⟨media, ?_⟩
  rw [if_neg (by rw [hc]; exact hlen)]
  unfold u
  rw [hc]

end Segment

/-! ## The packets of an audio target (R259, R261) -/

section TakeAudio

variable {leg n : Nat} {at_ : W64} {m : AudioPkt} {s : State} {g g' : Merge}

theorem takeAudio_refused (hg : g = heard (audOf s n).merge leg at_) (h : mergeSeq g m.seq = .dup ∨ mergeSeq g m.seq = .stale) :
    takeAudio leg n at_ m s = setAud n { audOf s n with merge := g } s := by
  unfold takeAudio
  dsimp only
  rw [← hg]
  rcases h with h | h
  · rw [h]
  · rw [h]

theorem takeAudio_sample {w : List (BitVec 24)} (hg : g = heard (audOf s n).merge leg at_) (h : mergeSeq g m.seq = .accept g')
    (hw : m.samples = [w]) : takeAudio leg n at_ m s = audioSample n at_ m.ts w (setAud n { audOf s n with merge := g' } s) := by
  unfold takeAudio
  dsimp only
  rw [← hg, h, hw]
  rfl

end TakeAudio

section AudioPacket

variable {s : State} {p n f : Nat} {h : RxFrame} {m : AudioPkt} {ovf : Bool} {g g' : Merge}
  (hroute : kindRoute s 2 p h = some f) (hn : n = get s fld.flowCtrl.TARGET p f) (hlt : n < 16) (hload : (ovf && mayOverflow s) = false)
  (hen : on s fld.aud.AUD_EN n = true)
include hroute hn hlt hload hen

theorem exec_audio : exec (.audioPacketRx p h m ovf) s = .next (takeAudio (16 * p + f) n h.at_ m (heardFrame p h s)) := by
  show execAudioPacketRx p h m ovf s = _
  rw [execAudioPacketRx, hroute]
  dsimp only
  rw [← hn, mayOverflow_congr (heardFrame_regs ..), hload, if_neg (by simp), on_congr (heardFrame_regs ..), hen, if_neg (by simp; omega)]

variable (hg : g = heard (audOf s n).merge (16 * p + f) h.at_)
include hg

theorem audio_refused (hm : mergeSeq g m.seq = .dup ∨ mergeSeq g m.seq = .stale) :
    ∃ t, exec (.audioPacketRx p h m ovf) s = .next t ∧ audOf t n = { audOf s n with merge := g } := by
  have hrun := exec_audio (m := m) hroute hn hlt hload hen
  rw [takeAudio_refused (by rw [audOf_heardFrame]; exact hg) hm] at hrun
  exact ⟨_, hrun, by rw [audOf_setAud, audOf_heardFrame]⟩

/-- The sample of a packet that the merge accepts goes to the target with the merge. -/
theorem exec_audio_sample {w : List (BitVec 24)} (hm : mergeSeq g m.seq = .accept g') (hw : m.samples = [w]) :
    ∃ u, audOf u n = { audOf s n with merge := g' } ∧ counter u (496 + n) = counter s (496 + n) ∧
      exec (.audioPacketRx p h m ovf) s = .next (audioSample n h.at_ m.ts w u) := by
  have hrun := exec_audio (m := m) hroute hn hlt hload hen
  rw [takeAudio_sample (by rw [audOf_heardFrame]; exact hg) hm hw] at hrun
  refine ⟨_, ?_, ?_, hrun⟩
  · rw [audOf_setAud, audOf_heardFrame]
  · exact counter_heardFrame_ne h s (port_of_kind hroute) (by have := port_of_kind hroute; unfold ethCnt; omega)

theorem audio_gathers {w : List (BitVec 24)} (hm : mergeSeq g m.seq = .accept g') (hw : m.samples = [w])
    (hseg : (audOf s n).seg = none ∨ (audOf s n).seg = some (m.ts / 48)) (hclosed : ∀ c, (audOf s n).closed = some c → c + 1 = m.ts / 48)
    (hlen : (Map.put (audOf s n).samples m.ts w).length ≠ 48) :
    ∃ t, exec (.audioPacketRx p h m ovf) s = .next t ∧ (audOf t n).merge = g' ∧ (audOf t n).seg = some (m.ts / 48) ∧
      Map.find? (audOf t n).samples m.ts = some w := by
  obtain ⟨u, hu, -, hrun⟩ := exec_audio_sample hroute hn hlt hload hen hg hm hw
  have useg : (audOf u n).seg = none ∨ (audOf u n).seg = some (m.ts / 48) := by
    rw [hu]
    exact hseg
  have uclosed : ∀ c, (audOf u n).closed = some c → c + 1 = m.ts / 48 := by
    rw [hu]
    exact hclosed
  have ulen : (Map.put (audOf u n).samples m.ts w).length ≠ 48 := by
    rw [hu]
    exact hlen
  rw [audioSample_gathers (fun c hc => by have := uclosed c hc; omega)
    (fun k hk => by rcases useg with e | e <;> rw [e] at hk <;> cases hk; exact Nat.le_refl _), closeBefore_next uclosed useg] at hrun
  obtain ⟨media, gathered⟩ := gatherSample_is (at_ := h.at_) useg ulen
  rw [gathered] at hrun
  refine ⟨_, hrun, ?_, ?_, ?_⟩
  · rw [audOf_setAud, hu]
  · rw [audOf_setAud]
  · rw [audOf_setAud]
    exact map_find_put_same ..

theorem audio_gap {w : List (BitVec 24)} {c : Nat} (hm : mergeSeq g m.seq = .accept g') (hw : m.samples = [w])
    (hseg : (audOf s n).seg = none) (hnone : (audOf s n).samples = []) (hclosed : (audOf s n).closed = some c) (hc : c + 2 = m.ts / 48) :
    ∃ t, exec (.audioPacketRx p h m ovf) s = .next t ∧ (audOf t n).closed = some (c + 1) ∧ (audOf t n).seg = some (m.ts / 48) ∧
      counter t (496 + n) = counter s (496 + n) + 1 := by
  obtain ⟨u, hu, hcnt, hrun⟩ := exec_audio_sample hroute hn hlt hload hen hg hm hw
  have useg : (audOf u n).seg = none := by
    rw [hu]
    exact hseg
  have uclosed : (audOf u n).closed = some c := by
    rw [hu]
    exact hclosed
  have unone : (audOf u n).samples = [] := by
    rw [hu]
    exact hnone
  rw [audioSample_gathers (fun k hk => by rw [uclosed] at hk; cases hk; omega) (fun k hk => by rw [useg] at hk; cases hk),
    closeBefore_gap useg uclosed hc] at hrun
  obtain ⟨after, counted⟩ := closeSegment_gap (c + 1) (segmentTime u n (c + 1) h.at_) (show (audOf u n).samples.length < 48 by rw [unone]; decide)
  obtain ⟨media, gathered⟩ := gatherSample_is (n := n) (at_ := h.at_) (t := m.ts) (w := w)
    (s := closeSegment n (c + 1) (segmentTime u n (c + 1) h.at_) u) (.inl (by rw [after])) (by rw [after]; exact (by decide : 1 ≠ 48))
  rw [gathered] at hrun
  refine ⟨_, hrun, ?_, ?_, ?_⟩
  · rw [audOf_setAud, after]
  · rw [audOf_setAud]
  · rw [← hcnt, ← counted]
    rfl

end AudioPacket

/-! ## Timecode (R262) -/

/-- The input of a timecode. -/
def tcKey (n : Nat) : InKey := ⟨4, 0, n⟩

section Timecode

variable {s : State} {n : Nat} {at_ : W64} {v : W32}

theorem timecode_ot : (timecode n at_ v s).ot = s.ot := by
  unfold timecode
  exact sourceChange_ot ..

theorem timecode_valid : on (timecode n at_ v s) fld.tcReg.VALID n = true := by
  unfold timecode
  dsimp only
  rw [on_of_rd (f := fld.tcReg.VALID) (rd_tcReg_sourceChange ..), on_put_same _ _ _ _ _ (by decide) (by decide)]
  rfl

theorem timecode_at : Map.find? (timecode n at_ v s).prt.tcAt n = some at_ := by
  unfold timecode
  dsimp only
  rw [sourceChange_prt]
  exact map_find_put_same ..

theorem timecode_enters (hst : standby s = false) (hroom : logRoom s = true) (hok : s.vat.badNext = false) (hn : NextIsNewest s (tcKey n)) :
    newestVersion (timecode n at_ v s) (tcKey n) = newestVersion s (tcKey n) + 1 ∧
      ∃ x ∈ (timecode n at_ v s).vat.inputs, x.key = tcKey n ∧ x.value = v ∧ x.version = newestVersion s (tcKey n) + 1 := by
  unfold timecode
  dsimp only
  generalize hu : put fld.tcReg.VALID 1 _ n = u
  have vat : u.vat = s.vat := by rw [← hu]; rfl
  have standing : standby u = standby s := by
    unfold standby role
    rw [← hu, get_put_reg _ _ _ _ _ _ _ _ (by decide)]
    rfl
  rw [← newestVersion_congr (congrArg Vat.versions vat)]
  exact sourceChange_enters v (show 4 ≠ 7 by decide) (standing.trans hst) (by unfold logRoom; rw [vat]; exact hroom)
    (by rw [vat]; exact hok) (next_newest_of vat hn)

end Timecode

/-- A timecode word comes to a source: from the LTC input, or in an ancillary packet that the merge of its target accepts. -/
def WordArrives (s : State) (p : Nat) (i : Instr) (n : Nat) (at_ : W64) (tc : TcWord) : Prop :=
  (i = .ltcWord at_ tc ∧ n = 0 ∧ portClock s = true) ∨
    (∃ h m f g ovf, i = .ancPacketRx p h m ovf ∧ kindRoute s 3 p h = some f ∧ n = get s fld.flowCtrl.TARGET p f ∧ 0 < n ∧ n ≤ 16 ∧
      (ovf && mayOverflow s) = false ∧ mergeSeq (heard (ancOf s n) (16 * p + f) h.at_) m.seq = .accept g ∧ m.did = 0x60 ∧
      m.sdid = 0x60 ∧ tc = m.tc ∧ at_ = h.at_)

theorem takeAnc_word {leg n : Nat} {at_ : W64} {m : AncPkt} {s : State} {g : Merge} (hm : mergeSeq (heard (ancOf s n) leg at_) m.seq = .accept g)
    (hd : m.did = 0x60) (hs : m.sdid = 0x60) (hen : on s fld.tcReg.TC_EN n = true) :
    takeAnc leg n at_ m s = timecode n at_ (tcValue m.tc) (setAnc n g s) := by
  have en : on (setAnc n g s) fld.tcReg.TC_EN n = true := hen
  unfold takeAnc
  dsimp only
  rw [hm]
  dsimp only
  rw [hd, hs, en]
  rfl

/-- However it comes, the word goes to its timecode source from a state in which time has moved to it. -/
theorem WordArrives.takes {s : State} {p : Nat} {i : Instr} {n : Nat} {at_ : W64} {tc : TcWord} (h : WordArrives s p i n at_ tc)
    (hen : on s fld.tcReg.TC_EN n = true) :
    ∃ u, u.regs = s.regs ∧ u.vat = s.vat ∧ u.ot = timeAt s at_ ∧ exec i s = .next (timecode n at_ (tcValue tc) u) := by
  rcases h with ⟨rfl, rfl, hclk⟩ | ⟨h, m, f, g, ovf, rfl, hroute, hn, h0, h16, hload, hm, hd, hs, rfl, rfl⟩
  · refine ⟨advance at_ s, advance_regs .., advance_vat .., advance_ot .., ?_⟩
    show execLtcWord at_ tc s = _
    rw [execLtcWord, hclk, hen, if_neg (by decide)]
  · refine ⟨setAnc n g (heardFrame p h s), heardFrame_regs .., heardFrame_vat .., heardFrame_ot .., ?_⟩
    have anc : ancOf (heardFrame p h s) n = ancOf s n := by
      unfold ancOf
      rw [heardFrame_prt]
    show execAncPacketRx p h m ovf s = _
    rw [execAncPacketRx, hroute]
    dsimp only
    rw [← hn, mayOverflow_congr (heardFrame_regs ..), hload, if_neg (by simp), if_neg (by simp; omega),
      takeAnc_word (by rw [anc]; exact hm) hd hs ((on_congr (heardFrame_regs ..) ..).trans hen)]

theorem word_valid {s : State} {p : Nat} {i : Instr} {n : Nat} {at_ : W64} {tc : TcWord} (h : WordArrives s p i n at_ tc)
    (hen : on s fld.tcReg.TC_EN n = true) :
    ∃ t, exec i s = .next t ∧ t.ot = timeAt s at_ ∧ on t fld.tcReg.VALID n = true ∧ Map.find? t.prt.tcAt n = some at_ ∧
      (standby s = false → logRoom s = true → s.vat.badNext = false → NextIsNewest s (tcKey n) →
        newestVersion t (tcKey n) = newestVersion s (tcKey n) + 1 ∧ ∃ x ∈ t.vat.inputs, x.key = tcKey n ∧ x.value = tcValue tc ∧
          x.version = newestVersion s (tcKey n) + 1) := by
  obtain ⟨u, hregs, hvat, hot, hrun⟩ := h.takes hen
  refine ⟨_, hrun, timecode_ot.trans hot, timecode_valid, timecode_at, fun hst hroom hok hn => ?_⟩
  rw [← newestVersion_congr (congrArg Vat.versions hvat)]
  exact timecode_enters ((standby_congr hregs).trans hst) (by unfold logRoom; rw [hvat]; exact hroom) (by rw [hvat]; exact hok)
    (next_newest_of hvat hn)

/-- The value of an input that is neither a view nor a layer goes by the log alone. -/
theorem valueFor_vat {s u : State} {k : InKey} (h : u.vat = s.vat) (h8 : k.kind ≠ 8) (h7 : k.kind ≠ 7) :
    valueFor u k none = valueFor s k none := by
  unfold valueFor changeFor changeNewest initialValue
  rw [if_neg h8, if_neg h8, if_neg h7, if_neg h7, h]

theorem timecode_lost {s : State} {n : Nat} {x : W64} (hx : Map.find? s.prt.tcAt n = some x) (hvalid : on s fld.tcReg.VALID n = true) :
    ∃ t, exec (.tcLoss n) s = .next t ∧ t.ot = timeAt s (x + 100000000) ∧ on t fld.tcReg.VALID n = false ∧
      (standby s = false → logRoom s = true → s.vat.badNext = false → NextIsNewest s (tcKey n) →
        ∃ y ∈ t.vat.inputs, y.key = tcKey n ∧ y.value = valueFor s (tcKey n) none &&& 0xBFFFFFFF) := by
  generalize hu : put fld.tcReg.VALID 0 (advance (x + 100000000) s) n = u
  have vat : u.vat = s.vat := by rw [← hu, put_vat, advance_vat]
  have hrun : exec (.tcLoss n) s = .next (raise0 88 (sourceChange (tcKey n) (valueFor s (tcKey n) none &&& 0xBFFFFFFF) .arrival u)) := by
    show execTcLoss n s = _
    rw [execTcLoss, hx]
    dsimp only
    rw [hvalid, if_neg (by decide), hu, ← valueFor_vat (k := tcKey n) vat (show 4 ≠ 8 by decide) (show 4 ≠ 7 by decide)]
    rfl
  refine ⟨_, hrun, ?_, ?_, fun hst hroom hok hn => ?_⟩
  · rw [raise0_ot, sourceChange_ot, ← hu, put_ot, advance_ot]
  · rw [on_raise0 _ _ _ _ _ (by decide) (by decide) (by decide), on_of_rd (f := fld.tcReg.VALID) (rd_tcReg_sourceChange ..), ← hu,
      on_put_same _ _ _ _ _ (by decide) (by decide)]
    rfl
  · have standing : standby u = standby s := by
      unfold standby role
      rw [← hu, get_put_reg _ _ _ _ _ _ _ _ (by decide), get_advance]
    obtain ⟨-, y, hy, hkey, hvalue, -⟩ := sourceChange_enters (k := tcKey n) (g := .arrival) (valueFor s (tcKey n) none &&& 0xBFFFFFFF)
      (show 4 ≠ 7 by decide) (standing.trans hst) (by unfold logRoom; rw [vat]; exact hroom) (by rw [vat]; exact hok)
      (next_newest_of vat hn)
    exact ⟨y, by rw [(raise0_frame _ _).2.1]; exact hy, hkey, hvalue⟩

end Sys2Proof.Machine

/-!
Legs that fall silent (R259) and sACN sources (R263).
-/

namespace Sys2Proof.Machine

/-! ## Legs (R259) -/

/-- The number of a kind of RTP target in a flow entry. -/
def targetKind : LegKind → Nat
  | .video => 1
  | .audio => 2
  | .anc => 3

/-- A leg of a target falls silent, with its event. -/
def silenceLeg (k n key : Nat) (at_ : W64) (s : State) : State :=
  raise0 85 (showLegs k n (setMerge k n { targetMerge s k n with silent := (targetMerge s k n).silent ++ [key] } (advance at_ s)))

section Legs

variable (k n : Nat) (g : Merge) (s : State)

theorem targetMerge_prt {s t : State} (h : t.prt = s.prt) (k n : Nat) : targetMerge t k n = targetMerge s k n := by
  unfold targetMerge vidOf audOf ancOf
  rw [h]

theorem targetMerge_setMerge : targetMerge (setMerge k n g s) k n = g := by
  match k with
  | 0 => exact map_get_put_same ..
  | 1 => exact congrArg Vid.merge (vidOf_setVid ..)
  | 2 => exact congrArg Aud.merge (audOf_setAud ..)
  | _ + 3 => exact map_get_put_same ..

theorem setMerge_ot : (setMerge k n g s).ot = s.ot := by
  match k with
  | 0 => rfl
  | 1 => rfl
  | 2 => rfl
  | _ + 3 => rfl

theorem silenceLeg_silent (key : Nat) (at_ : W64) :
    (targetMerge (silenceLeg k n key at_ s) k n).silent = (targetMerge s k n).silent ++ [key] := by
  rw [silenceLeg, targetMerge_prt (raise0_prt ..), targetMerge_prt (showLegs_prt ..), targetMerge_setMerge]

theorem silenceLeg_ot (key : Nat) (at_ : W64) : (silenceLeg k n key at_ s).ot = timeAt s at_ := by
  rw [silenceLeg, raise0_ot, showLegs_ot, setMerge_ot, advance_ot]

end Legs

/-- A leg that a target has heard, 100 ms after its last packet: the leg is silent, and the stream is lost with its last leg. -/
theorem exec_legLoss {s : State} {kind : LegKind} {n leg k key : Nat} {x : W64} (hk : k = targetKind kind)
    (hleg : (legsOf s k n)[leg]? = some key) (hx : Map.find? (targetMerge s k n).legAt key = some x)
    (hheard : key ∉ (targetMerge s k n).silent) : ∃ t, exec (.legLoss kind n leg) s = .next t ∧
      (t = silenceLeg k n key (x + 100000000) s ∨ t = raise0 86 (silenceLeg k n key (x + 100000000) s)) := by
  have silent : (targetMerge s k n).silent.contains key = false := by simpa using hheard
  show ∃ t, execLegLoss kind n leg s = .next t ∧ _
  unfold execLegLoss
  extract_lets k' g
  have same : k' = k := by
    rw [hk]
    cases kind <;> rfl
  have hg : g = targetMerge s k n := by
    unfold g
    rw [same]
  rw [hg, same, hleg]
  dsimp only
  rw [hx]
  dsimp only
  rw [silent, if_neg (by decide)]
  refine ⟨_, rfl, ?_⟩
  split
  · exact .inr rfl
  · exact .inl rfl

theorem leg_falls_silent {s : State} {kind : LegKind} {n leg k key : Nat} {x : W64} (hk : k = targetKind kind)
    (hleg : (legsOf s k n)[leg]? = some key) (hx : Map.find? (targetMerge s k n).legAt key = some x)
    (hheard : key ∉ (targetMerge s k n).silent) : ∃ t, exec (.legLoss kind n leg) s = .next t ∧ t.ot = timeAt s (x + 100000000) ∧
      (targetMerge t k n).silent = (targetMerge s k n).silent ++ [key] := by
  obtain ⟨t, hrun, rfl | rfl⟩ := exec_legLoss hk hleg hx hheard
  · exact ⟨_, hrun, silenceLeg_ot .., silenceLeg_silent ..⟩
  · exact ⟨_, hrun, by rw [raise0_ot, silenceLeg_ot], by rw [targetMerge_prt (raise0_prt ..), silenceLeg_silent]⟩

/-! ## The sources of a universe (R263) -/

section SubOf

variable {s t : State}

theorem subOf_prt (h : t.prt = s.prt) (u : Nat) : subOf t u = subOf s u := by
  unfold subOf
  rw [h]

theorem subOf_setSub (u : Nat) (v : SacnSub) (s : State) : subOf (setSub u v s) u = v := map_get_put_same ..

theorem subOf_heardFrame (u p : Nat) (h : RxFrame) (s : State) : subOf (heardFrame p h s) u = subOf s u := by
  unfold subOf
  rw [heardFrame_prt]

end SubOf

/-- The slots whose merged value differs from the value held. -/
def changedSlots (ltp : Bool) (srcs : List SacnSrc) (held : Map Byte) : List (Nat × Byte) :=
  (List.range 512).filterMap (fun k =>
    match mergedSlot ltp srcs k with
    | some b => if b = Map.get (fun _ => 0) held k then none else some (k, b)
    | none => none)

theorem mem_changedSlots {ltp : Bool} {srcs : List SacnSrc} {held : Map Byte} {k : Nat} {b : Byte} :
    (k, b) ∈ changedSlots ltp srcs held ↔ k < 512 ∧ mergedSlot ltp srcs k = some b ∧ b ≠ Map.get (fun _ => 0) held k := by
  unfold changedSlots
  rw [List.mem_filterMap]
  constructor
  · rintro ⟨j, hj, h⟩
    split at h
    · next c hc =>
      split at h
      · cases h
      · next hne =>
        cases h
        exact ⟨List.mem_range.mp hj, hc, hne⟩
    · cases h
  · rintro ⟨hk, hb, hne⟩
    refine ⟨k, List.mem_range.mpr hk, ?_⟩
    rw [hb]
    exact if_neg hne

/-- Entries put into a table one after another: a key whose entries all have one value has that value. -/
theorem map_get_foldl_put {α : Type} (d : Nat → α) {k : Nat} {b : α} (xs : List (Nat × α)) (m : Map α) (hall : ∀ x ∈ xs, x.1 = k → x.2 = b)
    (h : (k, b) ∈ xs ∨ Map.get d m k = b) : Map.get d (xs.foldl (fun m x => Map.put m x.1 x.2) m) k = b := by
  induction xs generalizing m with
  | nil => exact h.resolve_left (by simp)
  | cons x xs ih =>
    refine ih _ (fun y hy => hall y (List.mem_cons_of_mem _ hy)) ?_
    by_cases hx : x.1 = k
    · right
      show Map.get d (Map.put m x.1 x.2) k = b
      rw [hx, map_get_put_same, hall x List.mem_cons_self hx]
    · rcases h with h | h
      · rcases List.mem_cons.mp h with rfl | h
        · exact absurd rfl hx
        · exact .inl h
      · exact .inr (by rw [map_get_put_ne _ _ _ (Ne.symm hx), h])

section Remerge

variable (u : Nat) (srcs : List SacnSrc) (s : State)

/-- The sources of a universe replaced change the merge of its subscription and enter changes of inputs, and no more. -/
theorem subOf_remerge : subOf (remerge u srcs s) u =
    ⟨srcs, (changedSlots (on s fld.subCtrl.LTP u) srcs (subOf s u).slots).foldl (fun m x => Map.put m x.1 x.2) (subOf s u).slots⟩ := by
  unfold remerge
  dsimp only
  rw [subOf_prt (forEach_same State.prt _ (fun x t => sourceChange_prt ..) _ _)]
  exact subOf_setSub ..

theorem remerge_ot : (remerge u srcs s).ot = s.ot := by
  unfold remerge
  dsimp only
  rw [forEach_same State.ot _ (fun x t => sourceChange_ot ..)]
  rfl

/-- Each slot that some source covers holds the merge of the sources. -/
theorem remerge_slot {k : Nat} {b : Byte} (hk : k < 512) (hb : mergedSlot (on s fld.subCtrl.LTP u) srcs k = some b) :
    Map.get (fun _ => 0) (subOf (remerge u srcs s) u).slots k = b := by
  rw [subOf_remerge]
  dsimp only
  refine map_get_foldl_put _ _ _ (fun x hx hxk => ?_) ?_
  · obtain ⟨-, hx, -⟩ := mem_changedSlots.mp hx
    rw [hxk, hb] at hx
    exact (Option.some.inj hx).symm
  · by_cases hne : b = Map.get (fun _ => 0) (subOf s u).slots k
    · exact .inr hne.symm
    · exact .inl (mem_changedSlots.mpr ⟨hk, hb, hne⟩)

end Remerge

section TakeSacn

variable {u : Nat} {at_ : W64} {m : SacnPkt} {s : State} {rest : List SacnSrc}

/-- A source is known where leaving it out changes the list of sources. -/
theorem known_of_ne (hrest : rest = (subOf s u).srcs.filter (fun x => x.cid != m.cid)) (h : rest ≠ (subOf s u).srcs) :
    (subOf s u).srcs.any (fun x => x.cid == m.cid) = true := by
  by_contra unknown
  refine h (hrest.trans (List.filter_eq_self.mpr (fun x hx => ?_)))
  have := List.any_eq_false.mp (Bool.eq_false_iff.mpr unknown) x hx
  simpa [bne] using this

theorem takeSacn_ends (hrest : rest = (subOf s u).srcs.filter (fun x => x.cid != m.cid)) (hend : m.terminated = true)
    (hknown : rest ≠ (subOf s u).srcs) : takeSacn u at_ m s = raise0 89 (remerge u rest s) := by
  unfold takeSacn
  dsimp only
  rw [if_pos hend, if_pos (known_of_ne hrest hknown), ← hrest]

theorem takeSacn_takes (hrest : rest = (subOf s u).srcs.filter (fun x => x.cid != m.cid)) (hend : m.terminated = false)
    (hroom : rest ≠ (subOf s u).srcs ∨ (subOf s u).srcs.length < 8) :
    takeSacn u at_ m s = remerge u (rest ++ [⟨m.cid, m.prio, at_, m.slots.take 512⟩]) s ∨
      takeSacn u at_ m s = raise0 89 (remerge u (rest ++ [⟨m.cid, m.prio, at_, m.slots.take 512⟩]) s) := by
  have room : ¬ (!(subOf s u).srcs.any (fun x => x.cid == m.cid) && decide (8 ≤ (subOf s u).srcs.length)) = true := by
    rcases hroom with h | h
    · rw [known_of_ne hrest h]
      simp
    · simp [Nat.not_le.mpr h]
  unfold takeSacn
  dsimp only
  rw [if_neg (by rw [hend]; decide), if_neg room, ← hrest]
  split
  · exact .inl rfl
  · exact .inr rfl

end TakeSacn

section SacnPacket

variable {s : State} {p u f : Nat} {h : RxFrame} {m : SacnPkt} {rest : List SacnSrc} (hroute : kindRoute s 4 p h = some f)
  (hsvc : svcOn s = true) (hsubs : subsOf s m.univNo = [u]) (hlive : m.preview = false) (hstart : m.startCode = 0)
  (hrest : rest = (subOf s u).srcs.filter (fun x => x.cid != m.cid))
include hroute hsvc hsubs hlive hstart

theorem exec_sacn : exec (.sacnPacketRx p h m) s = .next (takeSacn u h.at_ m (heardFrame p h s)) := by
  have subs : subsOf (heardFrame p h s) m.univNo = [u] := by
    rw [← hsubs]
    unfold subsOf
    simp only [on_congr (heardFrame_regs p h s), get_congr (heardFrame_regs p h s)]
  have svc : svcOn (heardFrame p h s) = true := (on_congr (heardFrame_regs p h s) ..).trans hsvc
  show execSacnPacketRx p h m s = _
  rw [execSacnPacketRx, hroute]
  dsimp only
  rw [svc, hlive, hstart, if_neg (by decide), subs]
  rfl

include hrest

theorem source_ends (hend : m.terminated = true) (hknown : rest ≠ (subOf s u).srcs) :
    ∃ t, exec (.sacnPacketRx p h m) s = .next t ∧ (subOf t u).srcs = rest := by
  have same := subOf_heardFrame u p h s
  have hrun := exec_sacn hroute hsvc hsubs hlive hstart
  rw [takeSacn_ends (rest := rest) (by rw [same]; exact hrest) hend (by rw [same]; exact hknown)] at hrun
  exact ⟨_, hrun, by rw [subOf_prt (raise0_prt ..), subOf_remerge]⟩

theorem source_sends (hend : m.terminated = false) (hroom : rest ≠ (subOf s u).srcs ∨ (subOf s u).srcs.length < 8) :
    ∃ t, exec (.sacnPacketRx p h m) s = .next t ∧ t.ot = timeAt s h.at_ ∧
      (subOf t u).srcs = rest ++ [⟨m.cid, m.prio, h.at_, m.slots.take 512⟩] ∧
      ∀ k b, k < 512 → mergedSlot (on s fld.subCtrl.LTP u) (subOf t u).srcs k = some b →
        Map.get (fun _ => 0) (subOf t u).slots k = b := by
  have same := subOf_heardFrame u p h s
  have ltp : on (heardFrame p h s) fld.subCtrl.LTP u = on s fld.subCtrl.LTP u := on_congr (heardFrame_regs ..) ..
  have hrun := exec_sacn hroute hsvc hsubs hlive hstart
  generalize hx : remerge u (rest ++ [⟨m.cid, m.prio, h.at_, m.slots.take 512⟩]) (heardFrame p h s) = x
  have ot : x.ot = timeAt s h.at_ := by rw [← hx, remerge_ot, heardFrame_ot]
  have srcs : (subOf x u).srcs = rest ++ [⟨m.cid, m.prio, h.at_, m.slots.take 512⟩] := by rw [← hx, subOf_remerge]
  have slots : ∀ k b, k < 512 → mergedSlot (on s fld.subCtrl.LTP u) (subOf x u).srcs k = some b →
      Map.get (fun _ => 0) (subOf x u).slots k = b := by
    intro k b hk hb
    rw [srcs, ← ltp] at hb
    rw [← hx]
    exact remerge_slot _ _ _ hk hb
  rcases takeSacn_takes (rest := rest) (at_ := h.at_) (by rw [same]; exact hrest) hend (by rw [same]; exact hroom) with e | e
  · rw [e, hx] at hrun
    exact ⟨_, hrun, ot, srcs, slots⟩
  · rw [e, hx] at hrun
    refine ⟨_, hrun, (raise0_ot ..).trans ot, ?_, ?_⟩
    · rw [subOf_prt (raise0_prt ..), srcs]
    · rw [subOf_prt (raise0_prt ..)]
      exact slots

end SacnPacket

theorem source_times_out {s : State} {u cid : Nat} {x : SacnSrc} (hx : (subOf s u).srcs.find? (fun y => y.cid == cid) = some x) :
    ∃ t, exec (.sacnSourceTimeout u cid) s = .next t ∧ t.ot = timeAt s (x.at_ + 2500000000) ∧
      (subOf t u).srcs = (subOf s u).srcs.filter (fun y => y.cid != cid) := by
  refine ⟨raise0 89 (remerge u ((subOf s u).srcs.filter (fun y => y.cid != cid)) (advance (x.at_ + 2500000000) s)), ?_, ?_, ?_⟩
  · show execSacnSourceTimeout u cid s = _
    unfold execSacnSourceTimeout
    dsimp only
    rw [hx]
  · rw [raise0_ot, remerge_ot, advance_ot]
  · rw [subOf_prt (raise0_prt ..), subOf_remerge]

end Sys2Proof.Machine

/-!
The clauses of O56 put together.
-/

namespace Sys2Proof.Machine

/-- Settles O56: each clause of reception is the behaviour of one received frame or one instant, shown above. -/
theorem receptionWorks : Obligations.ReceptionWorks := by
  intro s p
  refine ⟨?filtered, ?ring, fun m q hr hq hsvc => reply_discovers hr hq hsvc, fun m flags hr => bad_counts hr, ?load, ?video, ?audio,
    ?timecode, fun n x hx hvalid => timecode_lost hx hvalid, ?leg, ?sacn, fun u cid x hx => source_times_out hx⟩
  case filtered =>
    intro m i v w x y ovf hp hr hi
    rw [exec_filtered hr hi]
    exact filtered_drops hp hr
  case ring =>
    intro m i r bs hp hclean hsvc hway
    exact ⟨fun hfull => frame_dropped hway hp hclean hsvc hfull,
      fun b rest fh hrun hflush hposted hocc hfit hfh => frame_fills hway hp hclean hsvc hrun hflush hposted hocc hfit hfh⟩
  case load =>
    rintro m h k f i v w x hroute hi hp hload rfl
    exact load_drops hroute hi hp hload
  case video =>
    intro n h m f g ovf hroute hn hlt hload hg
    exact ⟨fun hm => video_refused hroute hn hlt hload hg (.inl ⟨hm, rfl⟩), fun hm => video_refused hroute hn hlt hload hg (.inr ⟨hm, rfl⟩),
      fun g' hm => ⟨fun hbad => video_malformed hroute hn hlt hload hg hm hbad,
        fun e older r a hgood he hts hrows ha => video_row hroute hn hlt hload hg hm hgood he hts hrows ha⟩⟩
  case audio =>
    intro n h m f g g' ovf hroute hn hlt hload hen hg
    exact ⟨fun hm => audio_refused hroute hn hlt hload hen hg hm, fun w hm hw =>
      ⟨fun hseg hclosed hlen => audio_gathers hroute hn hlt hload hen hg hm hw hseg hclosed hlen,
        fun c hseg hnone hclosed hc => audio_gap hroute hn hlt hload hen hg hm hw hseg hnone hclosed hc⟩⟩
  case timecode =>
    rintro i n at_ tc v hword rfl hen
    exact word_valid hword hen
  case leg =>
    intro kind k n leg key x hk hleg hx hheard
    exact leg_falls_silent (hk.trans (by cases kind <;> rfl)) hleg hx hheard
  case sacn =>
    intro u h m f rest hroute hsvc hsubs hlive hstart hrest
    exact ⟨fun hend hknown => source_ends hroute hsvc hsubs hlive hstart hrest hend hknown,
      fun hend hroom => source_sends hroute hsvc hsubs hlive hstart hrest hend hroom⟩

end Sys2Proof.Machine

/-!
The host ports: the commands of the rings (O47), semaphores (O48) and the registers of the rings (O49), put together from the
laws of each; and the entries that complete with an error, which the laws leave out.
-/

namespace Sys2Proof.Machine

/-! ## Entries that complete with an error (R286, R289) -/

section BadEntries

variable {s : State} {h : Cmd} {op : Byte} {ext : Bool}

/-- A standby refuses an entry, and else the first fault in the order of the checks gives the status that it completes with. -/
theorem exec_badCommand (hs : AtHead s h (if ext then 2 else 1))
    (hbad : standby s = true ∨ knownOp op.toNat = false ∨ mayCommand s h = false ∨ ext ≠ (op == 1)) :
    ∃ status, status ≠ 0 ∧ exec (.badCommand h op ext false) s =
      .next (completeCmd h op.toNat (if ext then 2 else 1) status 0 s) := by
  rw [bad_form hs, if_neg (by decide)]
  by_cases hstandby : standby s = true
  · exact ⟨0x1C, by decide, by rw [if_pos hstandby]⟩
  rw [if_neg hstandby]
  by_cases hop : knownOp op.toNat = false
  · exact ⟨0x10, by decide, by rw [if_pos hop]⟩
  rw [if_neg hop]
  by_cases howner : mayCommand s h = false
  · exact ⟨0x12, by decide, by rw [if_pos howner]⟩
  rw [if_neg howner]
  have hext : (ext != (op == 1)) = true := by simpa [hstandby, hop, howner] using hbad
  exact ⟨0x11, by decide, by rw [if_pos hext]⟩

/-- An entry refused so completes and is counted. -/
theorem badCommand_completes (hs : AtHead s h (if ext then 2 else 1))
    (hbad : standby s = true ∨ knownOp op.toNat = false ∨ mayCommand s h = false ∨ ext ≠ (op == 1)) :
    ∃ t, exec (.badCommand h op ext false) s = .next t ∧ Completes s t h (if ext then 2 else 1) ∧
      counter t Cnt.cmdErr.ctorIdx = counter s Cnt.cmdErr.ctorIdx + 1 := by
  obtain ⟨status, hstatus, hexec⟩ := exec_badCommand hs hbad
  exact ⟨_, hexec, completes_of hs (ringsStay_regs rfl rfl) _ _ _, completeCmd_error _ _ _ _ _ _ hstatus⟩

end BadEntries

/-! ## The commands of the rings (R94, R125, R289 to R297) -/

/-- Settles O47, command by command from the laws of the host commands; a bad entry without poison by the status of
its fault. -/
theorem ringCommandsComplete : Obligations.RingCommandsComplete := by
  rintro s h c rfl
  refine ⟨fun hs => task_completes hs, fun hs => ⟨?cue, alloc_completes hs, retire_completes hs, layerNew_completes hs, ?layers⟩,
    fun op ext hs => ⟨poisoned_completes hs, badCommand_completes hs⟩⟩
  case cue => exact fun index value tgt g k => cue_completes hs index value tgt g k
  case layers =>
    intro layer l tgt g hlayer hctx htarget
    refine ⟨fun buf htasks hindex hholds hroom hgood hnew => ?change, fun lo hi pitch hhost hfree => ?copy,
      layerDel_completes hs layer l hlayer hctx⟩
    case change => exact layerSet_completes hs layer buf l tgt g hlayer hctx htarget htasks hholds hindex hroom hgood hnew
    case copy => exact import_starts hs layer lo hi pitch l tgt g hlayer hctx htarget hhost hfree

/-! ## Semaphores (R278 to R281) -/

/-- Settles O48, access by access from the laws of the semaphores. -/
theorem semaphoresWork : Obligations.SemaphoresWork := by
  intro s n fn hn hfn
  refine ⟨sem_claims hn hfn, ?tie, fun v => sem_release hn v, fun v => sem_force v, sem_expires hn⟩
  case tie => exact fun g hg hports hreach hreach' hfree => sem_tie hn hfn hg hports hreach hreach' hfree

/-! ## Ring registers (R282 to R288, R301) -/

/-- Settles O49, register by register from the laws of the rings. -/
theorem ringRegistersWork : Obligations.RingRegistersWork := by
  intro s r fn v hr
  refine ⟨ring_enables hr, ?tail, ?head, ring_flushes hr, flush_completes hr, ?resume, ring_faults hr⟩
  case tail => exact fun hw hhost posted x added => tail_writes hr hw hhost posted x added
  case head => exact fun hw hdevice x => head_writes hr hw hdevice x
  case resume => exact fun g ws bad => producer_resumes g ws bad

end Sys2Proof.Machine

/-!
What the steps of a twin leave alone: the fields under a footprint, the twin events, the records of the twin link, a
renewal, and canvases that stop.
-/

namespace Sys2Proof.Machine
set_option Elab.async false

/-! ## Fields under a footprint -/

theorem Within.get {m : Nat} {s t : State} (h : Within m s t) (f : Fld) (hf : m.testBit f.reg.num = false) (i j : Nat := 0) :
    get t f i j = get s f i j := get_of_rd (h.reg _ hf _ _)

theorem Within.on {m : Nat} {s t : State} (h : Within m s t) (f : Fld) (hf : m.testBit f.reg.num = false) (i j : Nat := 0) :
    on t f i j = on s f i j := on_of_rd (h.reg _ hf _ _)

theorem Within.bit {m : Nat} {s t : State} (h : Within m s t) (f : Fld) (hf : m.testBit f.reg.num = false) (b i : Nat) :
    hasBit t f b i = hasBit s f b i := hasBit_rd (h.reg _ hf _ _) b

theorem Within.ot {m : Nat} {s t : State} (h : Within m s t) (hm : m.testBit Part.ot.bit = false) : t.ot = s.ot := h.part .ot hm
theorem Within.twn {m : Nat} {s t : State} (h : Within m s t) (hm : m.testBit Part.twn.bit = false) : t.twn = s.twn := h.part .twn hm
theorem Within.pwr {m : Nat} {s t : State} (h : Within m s t) (hm : m.testBit Part.pwr.bit = false) : t.pwr = s.pwr := h.part .pwr hm
theorem Within.tim {m : Nat} {s t : State} (h : Within m s t) (hm : m.testBit Part.tim.bit = false) : t.tim = s.tim := h.part .tim hm

theorem role_rd {s t : State} (h : rd t .twinStatus = rd s .twinStatus) : role t = role s := by
  exact get_of_rd (f := fld.twinStatus.ROLE) h

/-! ## Twin events -/

theorem twinEvent_bit (b ev d : Nat) (s : State) (hb : b < 8) : hasBit (twinEvent b ev d s) fld.twinEvent.TWIN_EVENT b = true := by
  unfold twinEvent
  rw [hasBit_rd (rd_raise _ _ _ _ _ _ (by decide) (by decide) (by decide)) b]
  exact hasBit_setBit _ _ _ _ _ (by decide) hb

theorem twinEvent_keeps (b c ev d : Nat) (s : State) (h : hasBit s fld.twinEvent.TWIN_EVENT c = true) :
    hasBit (twinEvent b ev d s) fld.twinEvent.TWIN_EVENT c = true := by
  unfold twinEvent
  rw [hasBit_rd (rd_raise _ _ _ _ _ _ (by decide) (by decide) (by decide)) c]
  exact setBit_keeps _ _ _ _ _ _ (by decide) h

theorem rd_twinEvent (b ev d : Nat) (s : State) (r : RegId) (i j : Nat) (h1 : r ≠ .twinEvent) (h2 : r ≠ .ringTail) (h3 : r ≠ .ringStatus)
    (h4 : r ≠ .hostStatus) : rd (twinEvent b ev d s) r i j = rd s r i j :=
  (rd_raise _ _ _ _ _ _ h2 h3 h4).trans (rd_setBit_reg _ _ _ _ _ _ _ _ h1)

@[simp] theorem twinEvent_twn (b ev d : Nat) (s : State) : (twinEvent b ev d s).twn = s.twn := raise_twn _ _ _
@[simp] theorem twinEvent_ot (b ev d : Nat) (s : State) : (twinEvent b ev d s).ot = s.ot := raise_ot _ _ _
@[simp] theorem twinEvent_pwr (b ev d : Nat) (s : State) : (twinEvent b ev d s).pwr = s.pwr := raise_pwr _ _ _

/-! ## Records on the twin link -/

theorem twinLink_of {s t : State} (h : rd t .twinStatus 0 0 = rd s .twinStatus 0 0) : twinLink t = twinLink s := by
  unfold twinLink
  rw [on_of_rd (f := fld.twinStatus.LINK0) h, on_of_rd (f := fld.twinStatus.LINK1) h]

theorem recordLane_of {s t : State} (h : rd t .twinStatus 0 0 = rd s .twinStatus 0 0) (hn : t.twn.sends = s.twn.sends) :
    recordLane t = recordLane s := by
  unfold recordLane
  rw [on_of_rd (f := fld.twinStatus.LINK0) h, on_of_rd (f := fld.twinStatus.LINK1) h, hn]

theorem recordFrame_of {s t : State} (h : rd t .term 0 0 = rd s .term 0 0) (hn : t.twn.cpos = s.twn.cpos) (ty : Nat) (j : W32) (p : List Byte) :
    recordFrame t ty j p = recordFrame s ty j p := by unfold recordFrame; rw [h, hn]

/-- The record that a state sends last, on its lane. -/
theorem putRecord_sent (ty : Nat) (j : W32) (p : List Byte) (s : State) :
    (putRecord ty j p s).twn.sent = some (recordLane s, recordFrame s ty j p) := rfl

/-- A record that is sent takes the next JSEQ and is the last one sent. -/
theorem sendRecord_sent {s : State} (h : twinLink s = true) (ty : Nat) (p : List Byte) :
    rd (sendRecord ty p s) .jseqTx = rd s .jseqTx + 1 ∧
    (sendRecord ty p s).twn.sent = some (recordLane s, recordFrame s ty (rd s .jseqTx + 1) p) := by
  unfold sendRecord
  rw [if_pos h]
  refine ⟨rd_wr_same .jseqTx _ s 0 0, ?_⟩
  rw [putRecord_sent, recordLane_of (s := s) ((rd_bump _ _ _ _ _).trans (rd_wr_reg (by decide) _ _ _ _ _ _)) rfl,
    recordFrame_of (s := s) ((rd_bump _ _ _ _ _).trans (rd_wr_reg (by decide) _ _ _ _ _ _)) rfl]

/-- Sending a record changes JSEQ, a count and what is kept of the link. -/
theorem sendRecord_noted (ty : Nat) (p : List Byte) (s : State) : Noted s (sendRecord ty p s) := by
  have hs := (within_sendRecord ty p (μ := footprint [.jseqTx] [.cnt, .twn]) (by decide +kernel) (Within.refl s)).sound
  by_cases h : twinLink s = true
  · unfold sendRecord putRecord at hs ⊢
    rw [if_pos h] at hs ⊢
    exact ⟨rfl, fun q i j hq => rd_wr_reg hq _ _ _ _ _ _, fun k hk => counter_bump_ne .journalTx (wr .jseqTx _ s) k hk, hs⟩
  · unfold sendRecord
    rw [if_neg h]
    exact Noted.refl s

theorem rd_twn (s : State) (w : Twn) (r : RegId) (i j : Nat) : rd { s with twn := w } r i j = rd s r i j := rfl

/-- A renewal: the lease extended from the beat, LEASE_OUT toggled, and RENEW sent (R307). -/
theorem renewAt_is (f : FClock) (b : W64) (s : State) : ∃ x p, Noted s x ∧ x = sendRecord 0 (leBytes 8 b.toNat ++ leBytes 8 s.ot.toNat ++ p) s ∧
    renewAt f b s = { put fld.twinStatus.LEASE 1 x with twn := { x.twn with out := !s.twn.out, leaseEnd := leaseAfter s f b, renewed := some b } } := by
  refine ⟨_, [BitVec.ofNat 8 (actDom s), 0, 0, 0] ++ leBytes 8 s.twn.echo3.toNat ++ leBytes 8 s.twn.echo4.toNat, sendRecord_noted _ _ _, rfl, ?_⟩
  unfold renewAt
  dsimp only
  simp only [List.append_assoc]
  generalize hx : sendRecord 0 _ s = x
  have hn : Noted s x := by rw [← hx]; exact sendRecord_noted _ _ _
  have hl : leaseAfter (put fld.twinStatus.LEASE 1 x) f b = leaseAfter s f b := by
    unfold leaseAfter
    rw [get_put_reg _ _ _ _ _ _ _ _ (by decide), hn.get _ _ _ (by decide)]
  rw [put_twn, hl, hn.frame]

/-- What a renewal leaves: outward time, modes and the other registers; what is kept of the twin link gets the lease. -/
theorem renewAt_frame (f : FClock) (b : W64) (s : State) : ∀ t, t = renewAt f b s →
    t.ot = s.ot ∧ t.pwr = s.pwr ∧ t.epg = s.epg ∧ t.tim = s.tim ∧ role t = role s ∧ on t fld.twinStatus.LEASE = true ∧
    (∀ r, r ≠ .twinStatus → r ≠ .jseqTx → ∀ i j, rd t r i j = rd s r i j) ∧
    ∃ y z, t.twn = { s.twn with out := !s.twn.out, leaseEnd := leaseAfter s f b, renewed := some b, sent := y, sends := z } := by
  rintro t rfl
  obtain ⟨x, p, hn, -, e⟩ := renewAt_is f b s
  rw [e]
  generalize hw : ({ x.twn with out := !s.twn.out, leaseEnd := leaseAfter s f b, renewed := some b } : Twn) = w
  generalize hy : put fld.twinStatus.LEASE 1 x = y
  have hr : ∀ r, r ≠ .twinStatus → r ≠ .jseqTx → ∀ i j, rd y r i j = rd s r i j := fun r h1 h2 i j => by
    rw [← hy, rd_put_reg _ _ _ _ _ _ _ _ h1, hn.reg _ _ _ h2]
  have ho : role y = role s := by
    rw [← hy]
    exact (get_put_fld fld.twinStatus.LEASE fld.twinStatus.ROLE 1 x 0 0 rfl (by decide) (by decide)).trans (role_noted hn)
  have hl : on y fld.twinStatus.LEASE = true := by rw [← hy, on_put_same _ _ _ _ _ (by decide) (by decide)]; rfl
  refine ⟨?_, ?_, ?_, ?_, ho, hl, hr, x.twn.sent, x.twn.sends, ?_⟩
  · show y.ot = _; rw [← hy, put_ot, hn.ot]
  · show y.pwr = _; rw [← hy, put_pwr, hn.pwr]
  · show y.epg = _; rw [← hy, put_epg, hn.frame]
  · show y.tim = _; rw [← hy, put_tim, hn.tim]
  · show w = _; rw [← hw, hn.frame]

/-- RENEW, as the twin link carries it (R307). -/
theorem renewAt_sends {s : State} (f : FClock) (b : W64) (h : twinLink s = true) : rd (renewAt f b s) .jseqTx = rd s .jseqTx + 1 ∧
    ∃ rest, (renewAt f b s).twn.sent =
      some (recordLane s, recordFrame s 0 (rd s .jseqTx + 1) (leBytes 8 b.toNat ++ leBytes 8 s.ot.toNat ++ rest)) := by
  obtain ⟨x, p, -, hx, e⟩ := renewAt_is f b s
  obtain ⟨hj, hs⟩ := sendRecord_sent h 0 (leBytes 8 b.toNat ++ leBytes 8 s.ot.toNat ++ p)
  rw [← hx] at hj hs
  rw [e, rd_twn, rd_put_reg _ _ _ _ _ _ _ _ (by decide)]
  exact ⟨hj, p, hs⟩

/-! ## Canvases that stop leave a pending SAFE -/

theorem flushStores_trans (t : Task) (s : State) : (flushStores t s).pwr.trans = s.pwr.trans := by
  unfold flushStores
  refine forEach_same (fun u => u.pwr.trans) _ (fun x u => ?_) _ _
  show (wakeMem u).pwr.trans = _
  unfold wakeMem
  dsimp only
  split <;> rfl

theorem freeTask_pwr (t : Task) (s : State) : (freeTask t s).pwr = s.pwr := by
  unfold freeTask
  dsimp only
  generalize hx : refreshCtx t.ctx _ = x
  have hp : x.pwr = s.pwr := by
    rw [← hx]
    exact (within_refreshCtx t.ctx (μ := outside [] [.pwr]) (by decide +kernel) (Within.refl _)).part .pwr (by decide +kernel)
  have hw : (wakeSpawners x).pwr = x.pwr :=
    (within_wakeSpawners (μ := outside [] [.pwr]) (by decide +kernel) (Within.refl x)).part .pwr (by decide +kernel)
  have hc : (closeCtx t.ctx (wakeSpawners x)).pwr = (wakeSpawners x).pwr := by unfold closeCtx; split <;> rfl
  exact hc.trans (hw.trans hp)

theorem writeTaskRecord_pwr (c : Nat) (ws : List W32) (s : State) : (writeTaskRecord c ws s).pwr = s.pwr :=
  (within_writeTaskRecord c ws (μ := outside [] [.pwr]) (by decide +kernel) (Within.refl s)).part .pwr (by decide +kernel)

theorem depart_pwr (t : Task) (ws : List W32) (b : Bool) (s : State) : (depart t ws b s).pwr = s.pwr := by
  unfold depart
  split
  · split
    · rw [freeTask_pwr, writeTaskRecord_pwr]
    · rfl
  · exact freeTask_pwr t s

/-- A task that ends with a status other than OK only leaves. -/
theorem finish_departs (t : Task) {status : Nat} (h : status ≠ 0) (pstat code : Nat) (info : W32) (s : State) :
    finish t status pstat code info s = depart t (taskRecord t status pstat code info) (dCpl t.desc || status != 0) s := by
  unfold finish
  rw [if_neg h]

theorem cancelEpochs_trans (c : Nat) (p : W32 → Bool) (s : State) : (cancelEpochs c p s).pwr.trans = s.pwr.trans := by
  unfold cancelEpochs
  refine forEach_same (fun u => u.pwr.trans) _ (fun t u => ?_) _ s
  rw [finish_departs t (by decide), depart_pwr, flushStores_trans]

theorem stopCanvas_trans (c : Nat) (s : State) : (stopCanvas c s).pwr.trans = s.pwr.trans := by
  generalize hy : put fld.canvasCtrl.EN 0 (forEach (pendingRegs s c) applyReg s) c = y
  have hp : y.pwr.trans = s.pwr.trans := by
    rw [← hy]
    exact forEach_same (fun u => u.pwr.trans) applyReg (fun _ _ => rfl) _ s
  unfold stopCanvas
  dsimp only
  rw [hy]
  split
  · exact hp
  · rw [wr_pwr]
    refine (forEach_same (fun u => u.pwr.trans) (fun p u => if (portOf u p).queue.any (isOfCanvas c) then dequeue p (isOfCanvas c) u else u)
      (fun p u => ?_) _ _).trans ((cancelEpochs_trans c _ y).trans hp)
    split
    · exact congrArg Pwr.trans ((within_dequeue p (isOfCanvas c) (μ := outside [] [.pwr]) (by decide +kernel) (Within.refl u)).part .pwr (by decide +kernel))
    · rfl

theorem safePending_of {s t : State} (h : t.pwr.trans = s.pwr.trans) : safePending t = safePending s := by unfold safePending; rw [h]

/-- A transition to another mode that begins leaves a pending SAFE, or its absence. -/
theorem safePending_beginTrans {target : Nat} (h : target ≠ 7) (b : Bool) (s : State) : safePending (beginTrans target b s) = safePending s := by
  unfold beginTrans
  split
  · rfl
  · rename_i hs
    show (target == 7) = _
    rw [eq_false_of_ne_true hs, beq_eq_false_iff_ne]
    exact h

theorem safePending_disableCanvas (c : Nat) (s : State) : safePending (disableCanvas c s) = safePending s := by
  unfold disableCanvas holdEnds
  dsimp only
  have hs := safePending_of (forEach_same (fun u => u.pwr.trans) stopCanvas stopCanvas_trans ((halves s c).filter (fun h => on s fld.canvasCtrl.EN h)) s)
  split
  · rw [safePending_beginTrans (by decide), hs]
  · exact hs

/-- Canvases that are disabled leave a pending SAFE, or its absence. -/
theorem safePending_disableAll (s : State) : safePending (disableAll s) = safePending s := by
  unfold disableAll
  refine forEach_same safePending _ (fun c u => ?_) _ s
  split
  · exact safePending_disableCanvas c u
  · rfl

/-- A transition that begins over none to SAFE. -/
theorem beginTrans_target {s : State} (h : safePending s = false) (target : Nat) (b : Bool) :
    ∃ x, (beginTrans target b s).pwr.trans = some x ∧ x.target = target := by
  unfold beginTrans
  rw [h, if_neg (by simp)]
  exact ⟨_, rfl, rfl⟩

/-- The registers and parts that the end of a lease leaves when it disables the canvases. -/
theorem disableAll_leaves (s : State) : Within (outside [.twinStatus, .twinEvent, .twinCtrl, .term, .jseqTx, .jseqRx, .copyDone] [.twn, .ot, .tim]) s (disableAll s) :=
  within_disableAll (by decide +kernel) (Within.refl s)

theorem beginTrans_leaves (target : Nat) (b : Bool) (s : State) :
    Within (outside [.twinStatus, .twinEvent, .twinCtrl, .term, .jseqTx, .jseqRx, .copyDone] [.twn, .ot, .tim]) s (beginTrans target b s) :=
  within_beginTrans target b (by decide +kernel) (Within.refl s)

end Sys2Proof.Machine

/-!
The lease renewed, lapsed, expired and taken (R306 to R313, R321, R325), the wire and the lanes (R303, R311, R382).
-/

namespace Sys2Proof.Machine
set_option Elab.async false

theorem role_put_lease (v : Nat) (s : State) : role (put fld.twinStatus.LEASE v s) = role s :=
  get_put_fld fld.twinStatus.LEASE fld.twinStatus.ROLE v s 0 0 rfl (by decide) (by decide)

/-! ## Roles -/

theorem setRole_role (r : Nat) (s : State) (h : r < 16) : role (setRole r s) = r :=
  (get_put_same fld.twinStatus.ROLE r _ 0 0 (by decide)).trans (Nat.mod_eq_of_lt h)

/-- A role entered changes no other field of TWIN_STATUS. -/
theorem setRole_fld (r : Nat) (s : State) (f : Fld) (hr : f.reg = .twinStatus) (hb : f.lo + f.w ≤ 32)
    (h : f.lo + f.w ≤ fld.twinStatus.ROLE.lo ∨ fld.twinStatus.ROLE.lo + fld.twinStatus.ROLE.w ≤ f.lo) :
    on (setRole r s) f = on s f := on_put_fld fld.twinStatus.ROLE f r _ 0 0 hr hb h

theorem rd_setRole (r : Nat) (s : State) (q : RegId) (h : q ≠ .twinStatus) (i j : Nat) : rd (setRole r s) q i j = rd s q i j :=
  rd_put_reg fld.twinStatus.ROLE q r _ 0 0 i j h

/-- A device that gives its lease up reads LEASE = 0, and its role stays. -/
theorem leaseGone_is (s : State) : on (leaseGone s) fld.twinStatus.LEASE = false ∧ role (leaseGone s) = role s ∧ (leaseGone s).twn.out = false :=
  ⟨on_put_same fld.twinStatus.LEASE 0 _ 0 0 (by decide) (by decide), role_put_lease 0 _, rfl⟩

/-! ## A lease that lapses (R309) -/

/-- A lapse: WAIT without a lease, LEASE_OUT low, and event bit 2. -/
theorem lapse_is (s : State) : role (lapse s) = 1 ∧ on (lapse s) fld.twinStatus.LEASE = false ∧ (lapse s).twn.out = false ∧
    hasBit (lapse s) fld.twinEvent.TWIN_EVENT 2 = true ∧ (lapse s).ot = s.ot ∧ (lapse s).twn.sent = s.twn.sent ∧
    safePending (lapse s) = safePending s := by
  unfold lapse
  generalize hy : twinEvent 2 98 noDetail (bump .lapses (leaseGone s)) = y
  have hl : on y fld.twinStatus.LEASE = false := by
    rw [← hy, on_of_rd (f := fld.twinStatus.LEASE) (rd_twinEvent _ _ _ _ _ _ _ (by decide) (by decide) (by decide) (by decide))]
    exact (leaseGone_is s).1
  have hb : hasBit y fld.twinEvent.TWIN_EVENT 2 = true := by rw [← hy]; exact twinEvent_bit _ _ _ _ (by decide)
  have hw : y.twn = { s.twn with out := false } := by rw [← hy, twinEvent_twn]; rfl
  have ho : y.ot = s.ot := by rw [← hy, twinEvent_ot]; rfl
  have hp : y.pwr = s.pwr := by rw [← hy, twinEvent_pwr]; rfl
  have hd := disableAll_leaves (setRole 1 y)
  have ht : (disableAll (setRole 1 y)).twn = (setRole 1 y).twn := hd.twn (by decide +kernel)
  refine ⟨?_, ?_, ?_, ?_, ?_, ?_, ?_⟩
  · exact (hd.get fld.twinStatus.ROLE (by decide +kernel)).trans (setRole_role 1 y (by decide))
  · rw [hd.on fld.twinStatus.LEASE (by decide +kernel), setRole_fld _ _ _ rfl (by decide) (by decide)]
    exact hl
  · rw [ht]; show y.twn.out = _; rw [hw]
  · rw [hd.bit fld.twinEvent.TWIN_EVENT (by decide +kernel), hasBit_rd (rd_setRole _ _ _ (by decide) _ _)]
    exact hb
  · exact (hd.ot (by decide +kernel)).trans ho
  · rw [ht]; show y.twn.sent = _; rw [hw]
  · rw [safePending_disableAll]
    exact safePending_of (congrArg Pwr.trans hp)

/-- A holder that gives up the show is in WAIT without a lease and goes to IDLE. -/
theorem lapseToIdle_is (s : State) : ∀ t, t = lapseToIdle s → role t = 1 ∧ on t fld.twinStatus.LEASE = false ∧ t.twn.out = false ∧
    hasBit t fld.twinEvent.TWIN_EVENT 2 = true ∧ t.ot = s.ot ∧ t.twn.sent = s.twn.sent ∧
    (safePending s = false → ∃ x, t.pwr.trans = some x ∧ x.target = 3) := by
  rintro t rfl
  obtain ⟨h1, h2, h3, h4, h5, h6, h7⟩ := lapse_is s
  have hb := beginTrans_leaves 3 false (lapse s)
  have ht : (lapseToIdle s).twn = (lapse s).twn := hb.twn (by decide +kernel)
  exact ⟨(hb.get fld.twinStatus.ROLE (by decide +kernel)).trans h1, (hb.on fld.twinStatus.LEASE (by decide +kernel)).trans h2,
    (congrArg Twn.out ht).trans h3, (hb.bit fld.twinEvent.TWIN_EVENT (by decide +kernel) _ _).trans h4,
    (hb.ot (by decide +kernel)).trans h5, (congrArg Twn.sent ht).trans h6, fun h => beginTrans_target (h7.trans h) 3 false⟩

theorem advance_twn (t : W64) (s : State) : (advance t s).twn = s.twn := by rw [advance_frame]
theorem advance_tim (t : W64) (s : State) : (advance t s).tim = s.tim := by rw [advance_frame]
theorem role_advance (t : W64) (s : State) : role (advance t s) = role s := get_advance t s _ 0 0
theorem mode_advance (t : W64) (s : State) : mode (advance t s) = mode s := get_advance t s _ 0 0
theorem on_advance (t : W64) (s : State) (f : Fld) (i j : Nat) : on (advance t s) f i j = on s f i j := on_congr (advance_regs t s) f i j

theorem twinLink_advance (t : W64) (s : State) : twinLink (advance t s) = twinLink s := twinLink_of (rd_advance _ _ _ _ _)

theorem safePending_advance (t : W64) (s : State) : safePending (advance t s) = safePending s := safePending_of (advance_pwr t s).1

/-- R307: a holder renews at the beat, or lapses where its commits have stopped. -/
theorem lease_renews {s : State} {f : FClock} {r b : W64} (hf : leaseClock s = some f) (hr : s.twn.renewed = some r) (h2 : role s = 2)
    (hl : on s fld.twinStatus.LEASE = true) (hb : b = (if 0 ≤ timeDiff (f.cur s.ot) (r + 1) then f.cur s.ot else r + 1))
    (hd : timeDiff (f.inst b) s.twn.leaseEnd < 0) :
    (commitsStopped (advance (f.inst b) s) = false →
      ∃ t, exec .leaseRenew s = .next t ∧ t.ot = timeAt s (f.inst b) ∧ t.twn.renewed = some b ∧ t.twn.out = !s.twn.out ∧
      t.twn.leaseEnd = f.inst (b + BitVec.ofNat 64 (get s fld.twinCtrl.LEASE_N)) ∧ on t fld.twinStatus.LEASE = true ∧
      (twinLink s = true → rd t .jseqTx = rd s .jseqTx + 1 ∧ ∃ rest, t.twn.sent = some (recordLane s,
        recordFrame s 0 (rd s .jseqTx + 1) (leBytes 8 b.toNat ++ leBytes 8 t.ot.toNat ++ rest)))) ∧
    (commitsStopped (advance (f.inst b) s) = true → ∃ t, exec .leaseRenew s = .next t ∧ role t = 1 ∧
      on t fld.twinStatus.LEASE = false ∧ t.twn.out = false ∧ hasBit t fld.twinEvent.TWIN_EVENT 2 = true) := by
  have form : exec .leaseRenew s = .next (if commitsStopped (advance (f.inst b) s) then lapseToIdle (advance (f.inst b) s)
      else renewAt f b (advance (f.inst b) s)) := by
    show execLeaseRenew s = _
    unfold execLeaseRenew
    rw [hf, hr]
    dsimp only
    rw [h2, hl, if_neg (by simp)]
    have e : (if timeDiff (f.cur s.ot) (r + 1) ≥ 0 then f.cur s.ot else r + 1) = b := hb.symm
    rw [e, if_neg (by omega)]
  constructor
  · intro hc
    rw [hc, if_neg (by simp)] at form
    obtain ⟨e1, -, -, -, -, e6, -, y, z, e8⟩ := renewAt_frame f b (advance (f.inst b) s) _ rfl
    refine ⟨_, form, e1.trans (advance_ot _ _), by rw [e8], by rw [e8, advance_twn], ?_, e6, fun hk => ?_⟩
    · rw [e8]
      show leaseAfter _ _ _ = _
      unfold leaseAfter
      rw [get_advance]
    · obtain ⟨k1, rest, k2⟩ := renewAt_sends f b ((twinLink_advance (f.inst b) s).trans hk)
      have hj := rd_advance (f.inst b) s .jseqTx 0 0
      rw [k1, hj]
      refine ⟨rfl, rest, ?_⟩
      rw [k2, hj, e1, recordLane_of (rd_advance _ s _ _ _) (by rw [advance_twn]), recordFrame_of (rd_advance _ s _ _ _) (by rw [advance_twn])]
  · intro hc
    rw [hc, if_pos rfl] at form
    obtain ⟨e1, e2, e3, e4, -⟩ := lapseToIdle_is (advance (f.inst b) s) _ rfl
    exact ⟨_, form, e1, e2, e3, e4⟩

/-- R309: a lease that lapses at its end. -/
theorem lease_lapses {s : State} (h2 : role s = 2) (hl : on s fld.twinStatus.LEASE = true) :
    ∃ t, exec .leaseLapse s = .next t ∧ t.ot = timeAt s s.twn.leaseEnd ∧
      role t = 1 ∧ on t fld.twinStatus.LEASE = false ∧ t.twn.out = false ∧ hasBit t fld.twinEvent.TWIN_EVENT 2 = true ∧
      (safePending s = false → ∃ x, t.pwr.trans = some x ∧ x.target = 3) := by
  obtain ⟨e1, e2, e3, e4, e5, -, e7⟩ := lapseToIdle_is (advance s.twn.leaseEnd s) _ rfl
  refine ⟨_, ?_, e5.trans (advance_ot _ _), e1, e2, e3, e4, fun h => e7 ((safePending_advance _ _).trans h)⟩
  show execLeaseLapse s = _
  unfold execLeaseLapse
  rw [h2, hl, if_neg (by simp)]

/-! ## A lease that expires (R310, R311, R313, R325) -/

theorem followDomain_leaves (s : State) : Within (outside [.twinStatus, .twinEvent, .twinCtrl, .term, .jseqTx, .jseqRx, .pwrMode] [.twn, .ot, .pwr, .epg]) s (followDomain s) :=
  within_followDomain (by decide +kernel) (Within.refl s)

/-- A copy whose active is gone: ORPHAN, which goes to SAFE. -/
theorem expire_copy {s : State} (f : FClock) (h3 : role s = 3) (h6 : mode s = 6) : ∀ t, t = expire f s →
    t.ot = s.ot ∧ role t = 7 ∧ hasBit t fld.twinEvent.TWIN_EVENT 4 = true ∧ safePending t = true := by
  rintro t rfl
  unfold expire
  rw [if_pos h3]
  have hw := followDomain_leaves (setRole 7 s)
  generalize followDomain (setRole 7 s) = y at hw ⊢
  have hm : mode y = 6 := (hw.get fld.pwrMode.MODE (by decide +kernel)).trans ((get_of_rd (rd_setRole 7 s _ (by decide) _ _)).trans h6)
  have hr : role y = 7 := (hw.get fld.twinStatus.ROLE (by decide +kernel)).trans (setRole_role 7 s (by decide))
  have ho : y.ot = s.ot := hw.ot (by decide +kernel)
  obtain ⟨tr, e, h7, -⟩ := enterSafe_begins 2 y (by rw [hm]; decide) (by rw [hm]; decide) (Or.inr (by decide))
  rw [e]
  generalize hx : ({ y with pwr := { y.pwr with trans := some tr } } : State) = x
  have hxr : x.regs = y.regs := by rw [← hx]
  refine ⟨?_, ?_, twinEvent_bit _ _ _ _ (by decide), ?_⟩
  · rw [twinEvent_ot, put_ot, ← hx]; exact ho
  · refine (get_of_rd (rd_twinEvent _ _ _ _ _ _ _ (by decide) (by decide) (by decide) (by decide))).trans ?_
    rw [get_put_reg _ _ _ _ _ _ _ _ (by decide), get_congr hxr]
    exact hr
  · unfold safePending
    rw [twinEvent_pwr, put_pwr, ← hx]
    simp [h7]

/-- A STALE standby that may not take the lease: WAIT. -/
theorem expire_stale {s : State} (f : FClock) (h : role s = 4 ∨ role s = 5) (h1 : on s fld.twinStatus.STALE = true)
    (h2 : on s fld.twinCtrl.STALE_TAKE = false) : (expire f s).ot = s.ot ∧ role (expire f s) = 1 := by
  unfold expire
  rw [if_neg (by omega), h1, h2, if_pos (by simp)]
  unfold standbyToWait
  generalize hx : setRole 1 (leaseGone s) = x
  have hr : role x = 1 := by rw [← hx]; exact setRole_role 1 _ (by decide)
  have ho : x.ot = s.ot := by rw [← hx]; rfl
  have w1 := followDomain_leaves x
  have w2 := disableAll_leaves (followDomain x)
  have w3 := beginTrans_leaves 3 false (disableAll (followDomain x))
  constructor
  · exact (w3.ot (by decide +kernel)).trans ((w2.ot (by decide +kernel)).trans ((w1.ot (by decide +kernel)).trans ho))
  · exact (w3.get fld.twinStatus.ROLE (by decide +kernel)).trans ((w2.get fld.twinStatus.ROLE (by decide +kernel)).trans
      ((w1.get fld.twinStatus.ROLE (by decide +kernel)).trans hr))

/-- A standby that acquires with nothing of the journal left: the next TERM, and the takeover instant (R310). -/
theorem acquire_is {s : State} (f : FClock) (hb : s.twn.buffered = []) (hw : s.twn.wait = []) : ∀ t, t = acquire f s →
    t.ot = s.ot ∧ role t = 6 ∧ rd t .term = s.twn.termRx + 1 ∧
    t.twn.takeAt = some (f.inst (f.from_ (t.ot + BitVec.ofNat 64 (fcPeriod t (get t fld.twinCtrl.LFC))))) := by
  rintro t rfl
  unfold acquire
  dsimp only
  generalize hx : wr .term (s.twn.termRx + 1) (setRole 6 s) = x
  have ht : x.twn = { s.twn with since := s.ot, copySend := false, copyQ := [] } := by rw [← hx]; rfl
  have hj : finishJournal x.twn.buffered { x with twn := { x.twn with buffered := [], handAt := none } } = { x with twn := { x.twn with buffered := [], handAt := none } } := by
    rw [ht]; show finishJournal s.twn.buffered _ = _; rw [hb]; rfl
  rw [hj]
  generalize hy : ({ x with twn := { x.twn with buffered := [], handAt := none } } : State) = y
  have he : endWait y = y := by
    unfold endWait
    rw [show y.twn.wait = [] by rw [← hy]; show x.twn.wait = []; rw [ht]; exact hw]
  rw [he]
  have hc : Within (outside [.twinStatus, .term] [.ot]) y (commitOverdue 2048 y) := within_commitOverdue 2048 (by decide +kernel) (Within.refl y)
  have hr : role y = 6 := by
    rw [← hy]
    show role x = 6
    rw [← hx]
    exact (get_of_rd (rd_wr_reg (by decide) _ _ _ _ _ _)).trans (setRole_role 6 s (by decide))
  generalize commitOverdue 2048 y = z at hc ⊢
  refine ⟨?_, (hc.get fld.twinStatus.ROLE (by decide +kernel)).trans hr, ?_, rfl⟩
  · refine (hc.ot (by decide +kernel)).trans ?_
    rw [← hy, ← hx]; rfl
  · refine (hc.reg .term (by decide +kernel) 0 0).trans ?_
    rw [← hy]
    show rd x .term = _
    rw [← hx]
    exact rd_wr_same _ _ _ _ _

theorem expire_takes {s : State} (f : FClock) (h : role s = 4 ∨ role s = 5) (h1 : on s fld.twinStatus.STALE = false ∨ on s fld.twinCtrl.STALE_TAKE = true) :
    expire f s = acquire f s := by
  unfold expire
  rw [if_neg (by omega), if_neg (by rcases h1 with e | e <;> simp [e])]

/-- R310, R311, R313, R325: the lease that a standby heard of expires. -/
theorem lease_expires {s : State} {f : FClock} {x : W64} (hf : leaseClock s = some f)
    (hx : x = (match s.twn.handAt with | some y => y | none => leaseAfter s f (lifeBeat s f))) :
    (role s = 3 → mode s = 6 → ∃ t, exec .leaseExpiry s = .next t ∧ t.ot = timeAt s x ∧ role t = 7 ∧
      hasBit t fld.twinEvent.TWIN_EVENT 4 = true ∧ safePending t = true) ∧
    (role s = 4 ∨ role s = 5 → on s fld.twinStatus.STALE = true → on s fld.twinCtrl.STALE_TAKE = false →
      ∃ t, exec .leaseExpiry s = .next t ∧ t.ot = timeAt s x ∧ role t = 1) ∧
    (role s = 4 ∨ role s = 5 → on s fld.twinStatus.STALE = false ∨ on s fld.twinCtrl.STALE_TAKE = true →
      s.twn.buffered = [] → s.twn.wait = [] → ∃ t, exec .leaseExpiry s = .next t ∧ t.ot = timeAt s x ∧ role t = 6 ∧
      rd t .term = s.twn.termRx + 1 ∧ t.twn.takeAt =
        some (f.inst (f.from_ (t.ot + BitVec.ofNat 64 (fcPeriod t (get t fld.twinCtrl.LFC)))))) := by
  have form : role s = 3 ∨ role s = 4 ∨ role s = 5 → exec .leaseExpiry s = .next (expire f (advance x s)) := by
    intro h
    show execLeaseExpiry s = _
    unfold execLeaseExpiry
    rw [hf]
    dsimp only
    rw [if_neg (by rcases h with e | e | e <;> simp [e]), hx]
    cases s.twn.handAt with
    | none => rfl
    | some y => rfl
  refine ⟨fun h3 h6 => ?_, fun h h1 h2 => ?_, fun h h1 hb hw => ?_⟩
  · obtain ⟨e1, e2, e3, e4⟩ := expire_copy f ((role_advance x s).trans h3) ((mode_advance x s).trans h6) _ rfl
    exact ⟨_, form (Or.inl h3), e1.trans (advance_ot _ _), e2, e3, e4⟩
  · obtain ⟨e1, e2⟩ := expire_stale f (by rw [role_advance]; exact h) ((on_advance x s _ 0 0).trans h1) ((on_advance x s _ 0 0).trans h2)
    exact ⟨_, form (Or.inr h), e1.trans (advance_ot _ _), e2⟩
  · rw [form (Or.inr h), expire_takes f (by rw [role_advance]; exact h) (by rw [on_advance, on_advance]; exact h1)]
    obtain ⟨e1, e2, e3, e4⟩ := acquire_is f (s := advance x s) (by rw [advance_twn]; exact hb) (by rw [advance_twn]; exact hw) _ rfl
    exact ⟨_, rfl, e1.trans (advance_ot _ _), e2, by rw [e3, advance_twn], e4⟩

/-! ## The published table across the steps of a takeover -/

theorem publishedEtab_put (f : Fld) (h : f.reg ≠ .etabWord) (v : Nat) (s : State) (i j : Nat) : publishedEtab (put f v s i j) = publishedEtab s :=
  publishedEtab_wr h _ _ _ _

theorem publishedEtab_judgeParity (r : Nat) (s : State) : publishedEtab (judgeParity r s) = publishedEtab s := by
  unfold judgeParity
  split
  · rfl
  · exact (publishedEtab_put fld.ringStatus.RING_STATUS (by decide) _ _ _ _).trans (publishedEtab_put fld.hostStatus.HOST_STATUS (by decide) _ _ _ _)

theorem publishedEtab_deliverTo (f ev d : Nat) (s : State) : publishedEtab (deliverTo f ev d s) = publishedEtab s := by
  rw [publishedEtab_congr (deliverTo_regs f ev d s), publishedEtab_congr (ringAppend_regs _ _ _), publishedEtab_put _ (by decide), publishedEtab_judgeParity]

theorem publishedEtab_raise (ev d : Nat) (s : State) : publishedEtab (raise ev d s) = publishedEtab s :=
  raiseF_rel (R := fun s t => publishedEtab t = publishedEtab s) (fun _ => rfl) (fun a b => b.trans a) publishedEtab_deliverTo
    (fun _ _ _ => publishedEtab_put _ (by decide) _ _ _ _) (fun _ => rfl) _ _ _ _

/-- What a takeover needs of the steps before it: the published table and a count of takeovers as they were. -/
structure Shows (s t : State) : Prop where
  etab : publishedEtab t = publishedEtab s
  cnt : counter t Cnt.takeovers.ctorIdx = counter s Cnt.takeovers.ctorIdx

theorem Shows.trans {s t u : State} (a : Shows s t) (b : Shows t u) : Shows s u := ⟨b.etab.trans a.etab, b.cnt.trans a.cnt⟩

theorem shows_same {s t : State} (h : t.regs = s.regs) (hc : t.cnt = s.cnt) : Shows s t := ⟨publishedEtab_congr h, counter_congr hc _⟩

theorem shows_wr {r : RegId} (h : r ≠ .etabWord) (v : W32) (s : State) (i j : Nat) : Shows s (wr r v s i j) := ⟨publishedEtab_wr h _ _ _ _, rfl⟩

theorem shows_put {f : Fld} (h : f.reg ≠ .etabWord) (v : Nat) (s : State) (i j : Nat) : Shows s (put f v s i j) := shows_wr h _ _ _ _

theorem shows_raise (ev d : Nat) (s : State) : Shows s (raise ev d s) := ⟨publishedEtab_raise ev d s, counter_raise _ _ _ _ (by decide) (by decide)⟩

theorem shows_setBit {f : Fld} (h : f.reg ≠ .etabWord) (b : Nat) (s : State) (i j : Nat) : Shows s (setBit f b s i j) := shows_put h _ _ _ _

theorem shows_timeEvent (b ev : Nat) (s : State) : Shows s (timeEvent b ev s) := by
  unfold timeEvent raise0
  exact (shows_setBit (by decide) _ _ _ _).trans (shows_raise _ _ _)

theorem shows_startSwitch (d : Nat) (s : State) : Shows s (startSwitch d s) := by
  unfold startSwitch
  dsimp only
  refine Shows.trans ?_ (shows_timeEvent _ _ _)
  refine Shows.trans ?_ (shows_put (by decide) _ _ _ _)
  refine Shows.trans ?_ (shows_put (by decide) _ _ _ _)
  refine Shows.trans ?_ (shows_put (by decide) _ _ _ _)
  exact shows_same rfl rfl

theorem shows_beginHoldover (s : State) : Shows s (beginHoldover s) := by
  unfold beginHoldover
  dsimp only
  refine Shows.trans ?_ (shows_timeEvent _ _ _)
  refine Shows.trans ?_ (shows_put (by decide) _ _ _ _)
  refine Shows.trans ?_ (shows_put (by decide) _ _ _ _)
  exact shows_same rfl rfl

theorem shows_followDomain (s : State) : Shows s (followDomain s) := by
  unfold followDomain loseFollowed
  dsimp only
  split
  · exact shows_startSwitch _ s
  · split
    · exact shows_startSwitch _ s
    · exact shows_beginHoldover s

theorem shows_enterMode (m : Nat) (s : State) : Shows s (enterMode m s) := by
  unfold enterMode raise0
  refine Shows.trans (Shows.trans ?_ (shows_put (by decide) _ _ _ _)) (shows_raise _ _ _)
  split
  · exact shows_same rfl rfl
  · unfold endTrans
    refine Shows.trans ?_ (shows_put (by decide) _ _ _ _)
    exact shows_same rfl rfl

theorem shows_twinEvent (b ev d : Nat) (s : State) : Shows s (twinEvent b ev d s) := by
  unfold twinEvent
  exact (shows_setBit (by decide) _ _ _ _).trans (shows_raise _ _ _)

theorem shows_setRole (r : Nat) (s : State) : Shows s (setRole r s) := by
  unfold setRole
  refine Shows.trans ?_ (shows_put (by decide) _ _ _ _)
  exact shows_same rfl rfl

theorem shows_sendRecord (ty : Nat) (p : List Byte) (s : State) : Shows s (sendRecord ty p s) := by
  refine ⟨?_, (sendRecord_noted ty p s).cnt _ (by decide)⟩
  unfold sendRecord
  split
  · exact publishedEtab_wr (r := .jseqTx) (by decide) _ _ _ _
  · rfl

theorem shows_renewAt (f : FClock) (b : W64) (s : State) : Shows s (renewAt f b s) := by
  obtain ⟨x, p, -, hx, e⟩ := renewAt_is f b s
  rw [e]
  have hs : Shows s x := by rw [hx]; exact shows_sendRecord _ _ s
  exact (hs.trans (shows_put (by decide) 1 x 0 0)).trans (shows_same rfl rfl)

/-! ## The whole picture (R321) -/

theorem repairs_same {β : Type} (g : State → β) (h : ∀ (u : State) x, g { u with epg := x } = g u) (es : List Nat) (s : State) :
    g (forEach es (fun e u => setEp e { epOf u e with repair := true } u) s) = g s :=
  forEach_same g _ (fun _ _ => h _ _) es s

theorem wholePicture_frame (s : State) : (wholePicture s).regs = s.regs ∧ (wholePicture s).twn = s.twn ∧ (wholePicture s).ot = s.ot ∧
    (wholePicture s).cnt = s.cnt := by
  unfold wholePicture
  dsimp only
  refine ⟨?_, ?_, ?_, ?_⟩
  · exact repairs_same (fun u => u.regs) (fun _ _ => rfl) _ s
  · exact repairs_same (fun u => u.twn) (fun _ _ => rfl) _ s
  · exact repairs_same (fun u => u.ot) (fun _ _ => rfl) _ s
  · exact repairs_same (fun u => u.cnt) (fun _ _ => rfl) _ s

theorem epOf_univDue (s : State) (us : List Nat) (e : Nat) : epOf { s with epg := { s.epg with univDue := us } } e = epOf s e := rfl

/-- Every ENP endpoint is due a repair. -/
theorem wholePicture_repairs (s : State) (e : Nat) (he : e ∈ validEntries (publishedEtab s)) (ht : eTransport (publishedEtab s) e ≤ 1) :
    (epOf (wholePicture s) e).repair = true := by
  unfold wholePicture
  dsimp only
  rw [epOf_univDue]
  refine forEach_mem (P := fun _ => True) (Q := fun u => (epOf u e).repair = true) e (fun _ _ _ _ => trivial) (fun u _ => ?_) (fun b u hu => ?_) _
    (List.mem_filter.mpr ⟨he, decide_eq_true ht⟩) s trivial
  · rw [epOf_setEp, if_pos rfl]
  · rw [epOf_setEp]
    split
    · rfl
    · exact hu

/-- Every universe is due a send. -/
theorem wholePicture_sends (s : State) (u : Nat) (h : u < 8192) (he : on s fld.univCtrl.EN u = true) : u ∈ (wholePicture s).epg.univDue := by
  unfold wholePicture
  dsimp only
  rw [List.mem_filter, List.mem_range]
  refine ⟨h, ?_⟩
  rw [on_congr (repairs_same (fun u => u.regs) (fun _ _ => rfl) _ s)]
  exact he

/-- The lease taken with the role ACTIVE, at a beat. -/
theorem takeLease_is (f : FClock) (b : W64) (s : State) : ∀ t, t = renewAt f b (setRole 2 s) →
    role t = 2 ∧ on t fld.twinStatus.LEASE = true ∧ t.ot = s.ot ∧ t.pwr = s.pwr ∧ t.twn.takeAt = s.twn.takeAt ∧ Shows s t ∧
    ∀ r, r ≠ .twinStatus → r ≠ .jseqTx → ∀ i j, rd t r i j = rd s r i j := by
  rintro t ht
  obtain ⟨e1, e2, -, -, e5, e6, e7, y, z, e8⟩ := renewAt_frame f b (setRole 2 s) t ht
  exact ⟨e5.trans (setRole_role 2 s (by decide)), e6, e1, e2, by rw [e8]; rfl, ht ▸ (shows_setRole 2 s).trans (shows_renewAt f b _),
    fun r h1 h2 i j => (e7 r h1 h2 i j).trans (rd_setRole 2 s r h1 i j)⟩

/-- The device enters SHOW with the whole picture due (R321). -/
theorem entersShow_is (s : State) : ∀ t, t = wholePicture (followDomain (enterMode 5 (twinEvent 2 98 noDetail (bump .takeovers s)))) →
    t.ot = s.ot ∧ role t = role s ∧ mode t = 5 ∧ on t fld.twinStatus.LEASE = on s fld.twinStatus.LEASE ∧ t.twn = s.twn ∧
    counter t Cnt.takeovers.ctorIdx = counter s Cnt.takeovers.ctorIdx + 1 ∧ hasBit t fld.twinEvent.TWIN_EVENT 2 = true ∧
    (∀ e, e ∈ validEntries (publishedEtab s) → eTransport (publishedEtab s) e ≤ 1 → (epOf t e).repair = true) ∧
    ∀ u, u < 8192 → on s fld.univCtrl.EN u = true → u ∈ t.epg.univDue := by
  rintro t rfl
  generalize hc : twinEvent 2 98 noDetail (bump .takeovers s) = c
  have regs : ∀ r, r ≠ .twinEvent → r ≠ .ringTail → r ≠ .ringStatus → r ≠ .hostStatus → ∀ i j, rd c r i j = rd s r i j :=
    fun r h1 h2 h3 h4 i j => by rw [← hc, rd_twinEvent _ _ _ _ _ _ _ h1 h2 h3 h4, rd_bump]
  have twn : c.twn = s.twn := by rw [← hc, twinEvent_twn]; rfl
  have ot : c.ot = s.ot := by rw [← hc, twinEvent_ot]; rfl
  have bit : hasBit c fld.twinEvent.TWIN_EVENT 2 = true := by rw [← hc]; exact twinEvent_bit _ _ _ _ (by decide)
  have etab : publishedEtab c = publishedEtab s := by rw [← hc, (shows_twinEvent _ _ _ _).etab]; rfl
  have cnt : counter c Cnt.takeovers.ctorIdx = counter s Cnt.takeovers.ctorIdx + 1 := by
    rw [← hc, (shows_twinEvent _ _ _ _).cnt]; exact counter_bump_same .takeovers s
  have mode5 : mode (followDomain (enterMode 5 c)) = 5 :=
    ((followDomain_leaves _).get fld.pwrMode.MODE (by decide +kernel)).trans (enterMode_mode 5 c (by decide)).1
  have shown : Shows c (followDomain (enterMode 5 c)) := (shows_enterMode 5 c).trans (shows_followDomain _)
  have left : Within (outside [.twinStatus, .twinEvent, .univCtrl] [.twn, .ot]) c (followDomain (enterMode 5 c)) :=
    within_followDomain (by decide +kernel) (within_enterMode 5 (by decide +kernel) (Within.refl c))
  generalize followDomain (enterMode 5 c) = d at mode5 shown left
  obtain ⟨wr, wt, wo, wc⟩ := wholePicture_frame d
  refine ⟨wo.trans ((left.ot (by decide +kernel)).trans ot), ?_, (get_congr wr _ 0 0).trans mode5, ?_, wt.trans ((left.twn (by decide +kernel)).trans twn), ?_, ?_,
    fun e he ht => wholePicture_repairs d e ?_ ?_, fun u hu he => wholePicture_sends d u hu ?_⟩
  · exact (get_congr wr _ 0 0).trans ((left.get fld.twinStatus.ROLE (by decide +kernel)).trans (get_of_rd (regs _ (by decide) (by decide) (by decide) (by decide) _ _)))
  · exact (on_congr wr _ 0 0).trans ((left.on fld.twinStatus.LEASE (by decide +kernel)).trans (on_of_rd (regs _ (by decide) (by decide) (by decide) (by decide) _ _)))
  · exact (counter_congr wc _).trans (shown.cnt.trans cnt)
  · exact (hasBit_rd (rd_congr wr _ 0 0) 2).trans ((left.bit fld.twinEvent.TWIN_EVENT (by decide +kernel) 2 0).trans bit)
  · rw [shown.etab, etab]; exact he
  · rw [shown.etab, etab]; exact ht
  · rw [left.on fld.univCtrl.EN (by decide +kernel) u, on_of_rd (regs fld.univCtrl.EN.reg (by decide) (by decide) (by decide) (by decide) _ _)]
    exact he

/-- R310, R321: takeover at its instant. -/
theorem takes_over {s : State} {f : FClock} {x : W64} (hf : leaseClock s = some f) (hx : s.twn.takeAt = some x) (h6 : role s = 6) :
    ∃ t, exec .takeover s = .next t ∧
      t.ot = timeAt s x ∧ role t = 2 ∧ mode t = 5 ∧ on t fld.twinStatus.LEASE = true ∧ t.twn.takeAt = none ∧
      counter t Cnt.takeovers.ctorIdx = counter s Cnt.takeovers.ctorIdx + 1 ∧
      hasBit t fld.twinEvent.TWIN_EVENT 2 = true ∧
      (∀ e, e ∈ validEntries (publishedEtab s) → eTransport (publishedEtab s) e ≤ 1 → (epOf t e).repair = true) ∧
      ∀ u, u < 8192 → on s fld.univCtrl.EN u = true → u ∈ t.epg.univDue := by
  generalize ha : ({ advance x s with twn := { (advance x s).twn with takeAt := none } } : State) = a
  have sa : Shows s a := by rw [← ha]; exact shows_same (advance_regs x s) (by rw [advance_frame])
  have oa : a.ot = timeAt s x := by rw [← ha]; exact advance_ot x s
  have ta : a.twn.takeAt = none := by rw [← ha]
  have ua : ∀ u, on a fld.univCtrl.EN u = on s fld.univCtrl.EN u := fun u => by rw [← ha]; exact on_advance x s _ u 0
  generalize hb : renewAt f (f.cur a.ot) (setRole 2 a) = b
  obtain ⟨b1, b2, b3, -, b5, b6, b7⟩ := takeLease_is f (f.cur a.ot) a b hb.symm
  obtain ⟨e1, e2, e3, e4, e5, e6, e7, e8, e9⟩ := entersShow_is b _ rfl
  refine ⟨_, ?_, e1.trans (b3.trans oa), e2.trans b1, e3, e4.trans b2, by rw [e5, b5, ta], ?_, e7, fun e he ht => e8 e ?_ ?_, fun u hu he => e9 u hu ?_⟩
  · show execTakeover s = _
    unfold execTakeover
    rw [hf, hx]
    dsimp only
    rw [h6, if_neg (by decide), ← hb, ← ha]
  · rw [e6, b6.cnt, sa.cnt]
  · rw [b6.etab, sa.etab]; exact he
  · rw [b6.etab, sa.etab]; exact ht
  · rw [on_of_rd (f := fld.univCtrl.EN) (b7 _ (by decide) (by decide) _ _), ua]; exact he

/-! ## A device that takes the lease with no peer (R306) -/

theorem becomeActive_is {s : State} {f : FClock} (hf : leaseClock s = some f) (hp : safePending s = false) : ∀ t, t = becomeActive s →
    t.ot = s.ot ∧ role t = 2 ∧ rd t .term = loneTerm s ∧ on t fld.twinStatus.LEASE = true ∧ ∃ y, t.pwr.trans = some y ∧ y.target = 5 := by
  rintro t rfl
  unfold becomeActive
  rw [hf]
  dsimp only
  generalize hx : wr .term (loneTerm s) (setRole 2 s) = x
  have rx : role x = 2 := by rw [← hx]; exact (get_of_rd (rd_wr_reg (by decide) _ _ _ _ _ _)).trans (setRole_role 2 s (by decide))
  obtain ⟨e1, e2, -, -, e5, e6, e7, -⟩ := renewAt_frame f (f.cur x.ot) x _ rfl
  generalize renewAt f (f.cur x.ot) x = y at e1 e2 e5 e6 e7
  have hb := beginTrans_leaves 5 false y
  have hs : safePending y = false := by rw [safePending_of (congrArg Pwr.trans e2), ← hx]; exact hp
  refine ⟨(hb.ot (by decide +kernel)).trans (e1.trans (by rw [← hx]; rfl)), (hb.get fld.twinStatus.ROLE (by decide +kernel)).trans (e5.trans rx), ?_,
    (hb.on fld.twinStatus.LEASE (by decide +kernel)).trans e6, beginTrans_target hs 5 false⟩
  rw [hb.reg .term (by decide +kernel), e7 .term (by decide) (by decide), ← hx]
  exact rd_wr_same _ _ _ _ _

theorem leaseClock_of {s t : State} (h : t.tim = s.tim) (hr : rd t .twinCtrl = rd s .twinCtrl) : leaseClock t = leaseClock s := by
  unfold leaseClock
  rw [fclock_tim h, get_of_rd (f := fld.twinCtrl.LFC) hr]

theorem loneTerm_of {s t : State} (h : rd t .term = rd s .term) : loneTerm t = loneTerm s := by unfold loneTerm; rw [h]

theorem twinCmd_plain {s : State} {fn : Nat} (h : Writable s fn .twinCmd 0 0) (v : W32) (effect : State → State) :
    hostWrite fn .twinCmd 0 0 v effect s = effect s := hostWrite_plain h (by decide) v effect

/-! ### TWIN_CMD, by its bit -/

theorem twinCmdWrite_resign {s : State} (h : role s = 2) :
    twinCmdWrite 1 s = lapseToIdle (sendRecord 0x08 (leBytes 8 (s.twn.renewed.getD 0).toNat) s) := by
  simp [twinCmdWrite, h]

theorem twinCmdWrite_assume {s : State} (h1 : role s = 1) (h3 : mode s = 3) (hb : busy s = false) : twinCmdWrite 2 s = becomeActive s := by
  simp [twinCmdWrite, h1, h3, hb]

theorem twinCmdWrite_resync {s : State} (h3 : 3 ≤ role s) (h5 : role s ≤ 5) : twinCmdWrite 4 s = enterCopy s := by
  have h : role s = 3 ∨ role s = 4 ∨ role s = 5 := by omega
  rcases h with h | h | h <;> simp [twinCmdWrite, h]

theorem twinCmdWrite_leaveSafe {s : State} (h7 : role s = 7) (hm : mode s = 7) (hb : busy s = false) (hc : get s fld.safeCause.SAFE_CAUSE = 2) :
    twinCmdWrite 8 s = beginTrans 3 false (setRole 1 (resetRender s)) := by
  simp [twinCmdWrite, h7, hm, hb, hc]

/-- R306: a device in WAIT takes the lease, by itself or by ASSUME. -/
theorem lone_takes {s : State} {fn : Nat} {f : FClock} (hf : leaseClock s = some f) (h1 : role s = 1) (h3 : mode s = 3) (hb : busy s = false)
    (hp : safePending s = false) :
    (on s fld.twinCtrl.PRIMARY = true → ∃ t, exec .waitTimeout s = .next t ∧
      t.ot = timeAt s (s.twn.since + leasePeriod s) ∧ role t = 2 ∧ rd t .term = loneTerm s ∧
      on t fld.twinStatus.LEASE = true ∧ ∃ y, t.pwr.trans = some y ∧ y.target = 5) ∧
    (Writable s fn .twinCmd 0 0 → ∃ t, exec (.assume fn) s = .next t ∧ role t = 2 ∧ rd t .term = loneTerm s ∧
      on t fld.twinStatus.LEASE = true ∧ ∃ y, t.pwr.trans = some y ∧ y.target = 5) := by
  constructor
  · intro hpr
    generalize hx : s.twn.since + leasePeriod s = x
    obtain ⟨e1, e2, e3, e4, e5⟩ := becomeActive_is ((leaseClock_of (advance_tim x s) (rd_advance x s _ _ _)).trans hf) ((safePending_advance x s).trans hp) _ rfl
    refine ⟨_, ?_, e1.trans (advance_ot x s), e2, e3.trans (loneTerm_of (rd_advance x s _ _ _)), e4, e5⟩
    show execWaitTimeout s = _
    unfold execWaitTimeout
    rw [h1, h3, hb, hpr, hf, if_neg (by simp), hx]
  · intro hw
    obtain ⟨-, e2, e3, e4, e5⟩ := becomeActive_is hf hp _ rfl
    refine ⟨becomeActive s, ?_, e2, e3, e4, e5⟩
    show Host.Outcome.next (hostWrite fn .twinCmd 0 0 2 (twinCmdWrite 2) s) = _
    rw [twinCmd_plain hw, twinCmdWrite_assume h1 h3 hb]

/-! ## The wire and the lanes (R303, R311, R382) -/

theorem wire_put (v : Nat) (s : State) (h : v < 2) : on (put fld.twinStatus.WIRE v s) fld.twinStatus.WIRE = (v == 1) :=
  on_put_same _ _ _ _ _ (by decide) h

theorem on_twinEvent (b ev d : Nat) (s : State) (f : Fld) (h : f.reg = .twinStatus) : on (twinEvent b ev d s) f = on s f :=
  on_of_rd (rd_twinEvent _ _ _ _ _ _ _ (by rw [h]; decide) (by rw [h]; decide) (by rw [h]; decide) (by rw [h]; decide))

/-- R382, R311: an edge of LEASE_IN, and its silence. -/
theorem wire_beats {s : State} (h0 : role s ≠ 0) :
    (∀ at_, ∃ t, exec (.leaseInEdge at_) s = .next t ∧ t.ot = timeAt s at_ ∧ t.twn.edge = some t.ot ∧
      on t fld.twinStatus.WIRE = true ∧
      (on s fld.twinStatus.WIRE = false → hasBit t fld.twinEvent.TWIN_EVENT 1 = true)) ∧
    (∀ x, s.twn.edge = some x → on s fld.twinStatus.WIRE = true → ∃ t, exec .wireSilent s = .next t ∧
      t.ot = timeAt s (x + leasePeriod s) ∧ on t fld.twinStatus.WIRE = false ∧
      hasBit t fld.twinEvent.TWIN_EVENT 1 = true) := by
  constructor
  · intro at_
    generalize hu : put fld.twinStatus.WIRE 1 { advance at_ s with twn := { (advance at_ s).twn with edge := some (advance at_ s).ot } } = u
    have uo : u.ot = timeAt s at_ := by rw [← hu, put_ot]; exact advance_ot at_ s
    have ue : u.twn.edge = some u.ot := by rw [← hu, put_twn, put_ot]
    have uw : on u fld.twinStatus.WIRE = true := by rw [← hu, wire_put 1 _ (by decide)]; rfl
    have form : exec (.leaseInEdge at_) s = .next (if on s fld.twinStatus.WIRE then u else twinEvent 1 97 noDetail u) := by
      show execLeaseInEdge at_ s = _
      unfold execLeaseInEdge
      dsimp only
      rw [role_advance, if_neg h0, on_advance, hu]
    rw [form]
    refine ⟨_, rfl, ?_⟩
    split
    · exact ⟨uo, ue, uw, fun h => absurd h (by simp_all)⟩
    · exact ⟨(twinEvent_ot _ _ _ _).trans uo, by rw [twinEvent_twn, twinEvent_ot, ue], (on_twinEvent _ _ _ _ _ rfl).trans uw,
        fun _ => twinEvent_bit _ _ _ _ (by decide)⟩
  · intro x hx hw
    refine ⟨twinEvent 1 97 noDetail (put fld.twinStatus.WIRE 0 (advance (x + leasePeriod s) s)), ?_, ?_, ?_, twinEvent_bit _ _ _ _ (by decide)⟩
    · show execWireSilent s = _
      unfold execWireSilent
      rw [hx]
      dsimp only
      rw [hw, if_neg (by simp [h0])]
    · rw [twinEvent_ot, put_ot, advance_ot]
    · rw [on_twinEvent _ _ _ _ _ rfl, wire_put 0 _ (by decide)]; rfl

/-- LINK0 or LINK1, by the lane. -/
def laneFld (lane : Nat) : Fld := if lane = 0 then fld.twinStatus.LINK0 else fld.twinStatus.LINK1

theorem laneFld_cases (lane : Nat) : laneFld lane = fld.twinStatus.LINK0 ∨ laneFld lane = fld.twinStatus.LINK1 := by
  unfold laneFld; split <;> simp

/-- R303: a twin lane that comes up or goes down. -/
theorem lane_changes (s : State) (lane : Nat) (up : Bool) : ∃ t, exec (.twinLinkChange lane up) s = .next t ∧
    on t (if lane = 0 then fld.twinStatus.LINK0 else fld.twinStatus.LINK1) = up ∧
    (role s ≠ 0 → twinLink t ≠ twinLink s → hasBit t fld.twinEvent.TWIN_EVENT 0 = true ∧
      (twinLink s = true → standby s = true → on s fld.twinStatus.WIRE = true → on t fld.twinStatus.STALE = true)) := by
  generalize hu : put (laneFld lane) (if up then 1 else 0) s = u
  have form : exec (.twinLinkChange lane up) s = .next (if role u = 0 || twinLink s == twinLink u then u
      else twinEvent 0 96 noDetail (if twinLink s && standby u && on u fld.twinStatus.WIRE then put fld.twinStatus.STALE 1 u else u)) := by
    show Host.Outcome.next (twinLaneTo lane up s) = _
    unfold twinLaneTo
    dsimp only
    rw [← hu]
    rfl
  have keep : ∀ g : Fld, g.reg = .twinStatus → g.lo + g.w ≤ 32 → (g.lo + g.w ≤ 5 ∨ 7 ≤ g.lo) → get u g = get s g := by
    intro g hr hw hg
    rw [← hu]
    rcases laneFld_cases lane with e | e <;> rw [e]
    · exact get_put_fld _ g _ s 0 0 hr hw (hg.imp id (fun h => Nat.le_trans (by decide) h))
    · exact get_put_fld _ g _ s 0 0 hr hw (hg.imp (fun h => Nat.le_trans h (by decide)) id)
  have ru : role u = role s := keep fld.twinStatus.ROLE rfl (by decide) (by decide)
  have wu : on u fld.twinStatus.WIRE = on s fld.twinStatus.WIRE := by unfold on; rw [keep fld.twinStatus.WIRE rfl (by decide) (by decide)]
  have su : standby u = standby s := by unfold standby; rw [ru]
  have lu : on u (laneFld lane) = up := by
    rw [← hu]
    rcases laneFld_cases lane with e | e <;> rw [e, on_put_same _ _ _ _ _ (by decide) (by cases up <;> decide)] <;> cases up <;> rfl
  refine ⟨_, form, ?_⟩
  show on _ (laneFld lane) = up ∧ _
  split
  · rename_i h
    refine ⟨lu, fun h0 hl => absurd h ?_⟩
    rw [ru]
    simp [h0, hl.symm]
  · generalize hv : (if twinLink s && standby u && on u fld.twinStatus.WIRE then put fld.twinStatus.STALE 1 u else u) = v
    have lv : on v (laneFld lane) = up := by
      rw [← hv]
      split
      · rw [← lu]
        rcases laneFld_cases lane with e | e <;> rw [e] <;> exact on_put_fld fld.twinStatus.STALE _ 1 u 0 0 rfl (by decide) (by decide)
      · exact lu
    refine ⟨?_, fun _ _ => ⟨twinEvent_bit _ _ _ _ (by decide), fun h1 h2 h3 => ?_⟩⟩
    · rcases laneFld_cases lane with e | e <;> rw [e] at lv ⊢ <;> rw [on_twinEvent _ _ _ _ _ rfl, lv]
    · rw [on_twinEvent _ _ _ _ _ rfl, ← hv, if_pos (by rw [h1, su, h2, wu, h3]; rfl), on_put_same _ _ _ _ _ (by decide) (by decide)]
      rfl

end Sys2Proof.Machine

/-!
COPY entered, the next record of the journal, and a RENEW or an ACK heard (R306, R312, R319, R320, R323).
-/

namespace Sys2Proof.Machine
set_option Elab.async false

/-! ## COPY entered (R306, R323) -/

/-- What a device in COPY starts from. -/
theorem enterCopy_is (s : State) : ∀ t, t = enterCopy s → t.ot = s.ot ∧ role t = 3 ∧ on t fld.twinStatus.LEASE = false ∧
    rd t .copyDone = 0 ∧ t.twn.wait = [] ∧ t.twn.buffered = [] ∧ t.twn.beat = s.twn.beat ∧ t.twn.termRx = s.twn.termRx ∧ t.twn.t2 = s.twn.t2 ∧
    rd t .twinEvent = rd s .twinEvent := by
  rintro t rfl
  unfold enterCopy
  dsimp only
  have w1 := disableAll_leaves (leaseGone s)
  generalize disableAll (leaseGone s) = a at w1
  have a1 : on a fld.twinStatus.LEASE = false := (w1.on fld.twinStatus.LEASE (by decide +kernel)).trans (leaseGone_is s).1
  have a2 : a.twn = { s.twn with out := false } := w1.twn (by decide +kernel)
  have a3 : a.ot = s.ot := w1.ot (by decide +kernel)
  have a4 : rd a .twinEvent = rd s .twinEvent := (w1.reg .twinEvent (by decide +kernel) 0 0).trans (rd_put_reg _ _ _ _ _ _ _ _ (by decide))
  have w2 : Within (outside [.twinStatus, .twinEvent] [.twn, .ot]) (setRole 3 a) (dropLayers (setRole 3 a)) := within_dropLayers (by decide +kernel) (Within.refl _)
  generalize dropLayers (setRole 3 a) = b at w2
  have b1 : on b fld.twinStatus.LEASE = false := by
    rw [w2.on fld.twinStatus.LEASE (by decide +kernel), setRole_fld _ _ _ rfl (by decide) (by decide)]; exact a1
  have b2 : b.twn = { a.twn with since := a.ot, copySend := false, copyQ := [] } := w2.twn (by decide +kernel)
  have b3 : b.ot = s.ot := (w2.ot (by decide +kernel)).trans a3
  have b4 : rd b .twinEvent = rd s .twinEvent := (w2.reg .twinEvent (by decide +kernel) 0 0).trans ((rd_setRole _ _ _ (by decide) _ _).trans a4)
  have b5 : role b = 3 := (w2.get fld.twinStatus.ROLE (by decide +kernel)).trans (setRole_role 3 a (by decide))
  generalize hc : put fld.timeStatus.SWITCHING 0 (put fld.timeStatus.HOLDOVER 0 (put fld.twinStatus.DIVERGED 0 (put fld.twinStatus.STALE 0 b))) = c
  have c1 : ∀ r, r ≠ .twinStatus → r ≠ .timeStatus → rd c r = rd b r := fun r h1 h2 => by
    rw [← hc, rd_put_reg _ _ _ _ _ _ _ _ h2, rd_put_reg _ _ _ _ _ _ _ _ h2, rd_put_reg _ _ _ _ _ _ _ _ h1, rd_put_reg _ _ _ _ _ _ _ _ h1]
  have c2 : ∀ f : Fld, f.reg = .twinStatus → f.lo + f.w ≤ 8 → get c f = get b f := fun f hr hf => by
    rw [← hc, get_put_reg _ _ _ _ _ _ _ _ (by rw [hr]; decide), get_put_reg _ _ _ _ _ _ _ _ (by rw [hr]; decide),
      get_put_fld _ _ _ _ _ _ hr (by omega) (Or.inl hf), get_put_fld _ _ _ _ _ _ hr (by omega) (Or.inl (Nat.le_trans hf (by decide)))]
  have c3 : c.twn = b.twn := by rw [← hc]; rfl
  have c4 : c.ot = b.ot := by rw [← hc]; rfl
  rw [c3, b2, a2]
  refine ⟨c4.trans b3, ?_, ?_, rd_wr_same _ _ _ _ _, rfl, rfl, rfl, rfl, rfl, ?_⟩
  · exact (get_of_rd (rd_wr_reg (by decide) _ _ _ _ _ _)).trans ((c2 fld.twinStatus.ROLE rfl (by decide)).trans b5)
  · refine (on_wr_reg _ fld.twinStatus.LEASE _ _ _ _ _ _ (by decide)).trans (Eq.trans ?_ b1)
    show (get c fld.twinStatus.LEASE == 1) = _
    rw [c2 fld.twinStatus.LEASE rfl (by decide)]; rfl
  · exact (rd_wr_reg (by decide) _ _ _ _ _ _).trans ((c1 .twinEvent (by decide) (by decide)).trans b4)

/-! ## A RENEW heard (R306, R312, R320) -/

/-- A standby that has noted a RENEW's beat, term and times, and measured, before it takes its place in the journal. -/
def notedRenew (h : JHead) (b t1 t3 t4 : W64) (s : State) : State :=
  let s := { s with twn := { s.twn with beat := some b, termRx := h.term, t2 := s.ot } }
  if t3 != 0 && s.twn.acks.contains t3 then twinMeasure ⟨t1, s.ot, t4, t3⟩ { s with twn := { s.twn with acks := acksAfter t3 s.twn.acks } } else s

theorem heardRenew_eq (h : JHead) (b t1 t3 t4 : W64) (s : State) :
    heardRenew h b t1 t3 t4 s = sendAck (receive h .passed (notedRenew h b t1 t3 t4 s)) := rfl

/-- A state and its successor by a RENEW that a standby hears: nothing of the lease but the beat, the term and the time of arrival. -/
structure Heard (h : JHead) (b : W64) (s t : State) : Prop where
  ot : t.ot = s.ot
  beat : t.twn.beat = some b
  term : t.twn.termRx = h.term
  t2 : t.twn.t2 = s.ot
  lease : on s fld.twinStatus.LEASE = false → on t fld.twinStatus.LEASE = false
  bits : ∀ k, hasBit s fld.twinEvent.TWIN_EVENT k = true → hasBit t fld.twinEvent.TWIN_EVENT k = true

theorem twinMeasure_leaves (m : Meas) (s : State) : Within (outside [.twinStatus, .twinEvent, .jseqRx] [.ot]) s (twinMeasure m s) :=
  within_twinMeasure m (by decide +kernel) (Within.refl s)

theorem twinMeasure_twn (m : Meas) (s : State) : ∃ x y z, (twinMeasure m s).twn = { s.twn with offset := x, delay := y, meas := z } := ⟨_, _, _, rfl⟩

theorem notedRenew_is (h : JHead) (b t1 t3 t4 : W64) (s : State) : ∀ u, u = notedRenew h b t1 t3 t4 s →
    Heard h b s u ∧ role u = role s ∧ rd u .jseqRx = rd s .jseqRx ∧ u.twn.wait = s.twn.wait ∧ u.twn.buffered = s.twn.buffered := by
  rintro u rfl
  unfold notedRenew
  dsimp only
  split
  · generalize hx : ({ s with twn := { s.twn with beat := some b, termRx := h.term, t2 := s.ot, acks := acksAfter t3 s.twn.acks } } : State) = x
    have hr : x.regs = s.regs := by rw [← hx]
    have w := twinMeasure_leaves ⟨t1, s.ot, t4, t3⟩ x
    obtain ⟨y1, y2, y3, ht⟩ := twinMeasure_twn ⟨t1, s.ot, t4, t3⟩ x
    have hot : x.ot = s.ot := by rw [← hx]
    rw [← hx] at ht
    refine ⟨⟨(w.ot (by decide +kernel)).trans hot, ?_, ?_, ?_, fun hl => ?_, fun k hk => ?_⟩, ?_, ?_, ?_, ?_⟩
    · rw [← hx, ht]
    · rw [← hx, ht]
    · rw [← hx, ht]
    · rw [w.on fld.twinStatus.LEASE (by decide +kernel), on_congr hr]; exact hl
    · rw [w.bit fld.twinEvent.TWIN_EVENT (by decide +kernel), hasBit_rd (rd_congr hr _ _ _)]; exact hk
    · exact (w.get fld.twinStatus.ROLE (by decide +kernel)).trans (get_congr hr _ _ _)
    · exact (w.reg .jseqRx (by decide +kernel) 0 0).trans (rd_congr hr _ _ _)
    · rw [← hx, ht]
    · rw [← hx, ht]
  · exact ⟨⟨rfl, rfl, rfl, rfl, id, fun _ => id⟩, rfl, rfl, rfl, rfl⟩

theorem sendAck_twn (s : State) : ∃ x y, (sendAck s).twn = { s.twn with acks := s.twn.acks ++ [s.ot], sent := x, sends := y } := by
  unfold sendAck sendPlain
  dsimp only
  split
  · exact ⟨_, _, rfl⟩
  · exact ⟨_, _, rfl⟩

theorem sendAck_regs (s : State) : (sendAck s).regs = s.regs ∧ (sendAck s).ot = s.ot := by
  unfold sendAck sendPlain
  dsimp only
  split <;> exact ⟨rfl, rfl⟩

/-- A record that a device in COPY takes leaves it in COPY, even where the buffer overflows. -/
theorem receive_copy (h : JHead) (x : JRec) (s : State) (h3 : role s = 3) : ∀ t, t = receive h x s → role t = 3 ∧ t.ot = s.ot ∧
    t.twn.beat = s.twn.beat ∧ t.twn.termRx = s.twn.termRx ∧ t.twn.t2 = s.twn.t2 ∧
    (on s fld.twinStatus.LEASE = false → on t fld.twinStatus.LEASE = false) ∧
    ∀ k, hasBit s fld.twinEvent.TWIN_EVENT k = true → hasBit t fld.twinEvent.TWIN_EVENT k = true := by
  rintro t rfl
  unfold receive
  dsimp only
  rw [if_pos h3]
  split
  · exact ⟨h3, rfl, rfl, rfl, rfl, id, fun _ => id⟩
  · unfold bufferRecord
    dsimp only
    split
    · generalize hy : twinEvent 7 103 noDetail (bump .copyAbort s) = y
      have y1 : role y = 3 := by
        rw [← hy]; exact (get_of_rd ((rd_twinEvent _ _ _ _ _ _ _ (by decide) (by decide) (by decide) (by decide)).trans (rd_bump _ _ _ _ _))).trans h3
      have y2 : y.twn = s.twn := by rw [← hy, twinEvent_twn]; rfl
      have yb : y.twn.beat = s.twn.beat := by rw [y2]
      have yt : y.twn.termRx = s.twn.termRx := by rw [y2]
      have yi : y.twn.t2 = s.twn.t2 := by rw [y2]
      have y3 : y.ot = s.ot := by rw [← hy, twinEvent_ot]; rfl
      have y4 : on y fld.twinStatus.LEASE = on s fld.twinStatus.LEASE := by
        rw [← hy, on_twinEvent _ _ _ _ _ rfl, on_of_rd (rd_bump _ _ _ _ _)]
      have y5 : ∀ k, hasBit s fld.twinEvent.TWIN_EVENT k = true → hasBit y fld.twinEvent.TWIN_EVENT k = true := fun k hk => by
        rw [← hy]; exact twinEvent_keeps _ _ _ _ _ ((hasBit_rd (rd_bump _ _ _ _ _) k).trans hk)
      split
      · generalize hz : enterCopy y = z
        obtain ⟨e1, e2, e3, -, -, -, e7, e8, e9, e10⟩ := enterCopy_is y z hz.symm
        exact ⟨e2, e1.trans y3, e7.trans yb, e8.trans yt, e9.trans yi, fun _ => e3,
          fun k hk => (hasBit_rd e10 k).trans (y5 k hk)⟩
      · exact ⟨y1, y3, yb, yt, yi, fun hl => y4.trans hl, y5⟩
    · exact ⟨h3, rfl, rfl, rfl, rfl, id, fun _ => id⟩

/-- A RENEW that a device in COPY hears. -/
theorem heardRenew_copy (h : JHead) (b t1 t3 t4 : W64) (s : State) (h3 : role s = 3) : ∀ t, t = heardRenew h b t1 t3 t4 s →
    Heard h b s t ∧ role t = 3 ∧ t.ot ∈ t.twn.acks := by
  rintro t rfl
  obtain ⟨⟨a1, a2, a3, a4, a5, a6⟩, a7, -⟩ := notedRenew_is h b t1 t3 t4 s _ rfl
  obtain ⟨e1, e2, e3, e4, e5, e6, e7⟩ := receive_copy h .passed _ (a7.trans h3) _ rfl
  rw [heardRenew_eq]
  generalize receive h .passed (notedRenew h b t1 t3 t4 s) = v at *
  obtain ⟨x, y, ht⟩ := sendAck_twn v
  obtain ⟨hr, ho⟩ := sendAck_regs v
  refine ⟨⟨ho.trans (e2.trans a1), by rw [ht]; exact e3.trans a2, by rw [ht]; exact e4.trans a3, by rw [ht]; exact e5.trans a4, fun hl => ?_, fun k hk => ?_⟩, ?_, ?_⟩
  · rw [on_congr hr]; exact e6 (a5 hl)
  · rw [hasBit_rd (rd_congr hr _ _ _)]; exact e7 k (a6 k hk)
  · exact (get_congr hr _ _ _).trans e1
  · rw [ho, ht]; exact List.mem_append_right _ List.mem_cons_self

/-! ## The next record (R314, R319) -/

/-- The check for being in step does nothing, or enters INSTEP from CATCHUP with its event. -/
theorem instepCheck_cases (s : State) : instepCheck s = s ∨ role s = 4 ∧ instepCheck s = twinEvent 6 102 noDetail (setRole 5 s) := by
  unfold instepCheck
  dsimp only
  split
  · rename_i h
    simp only [Bool.and_eq_true, decide_eq_true_eq] at h
    obtain ⟨⟨⟨h4, -⟩, -⟩, -⟩ := h
    exact Or.inr ⟨h4, rfl⟩
  · exact Or.inl rfl

/-- What being found in step leaves: all but the role, the event and what is kept of a copy being sent. -/
theorem instepCheck_is (s : State) : ∀ t, t = instepCheck s → t.ot = s.ot ∧ (role t = role s ∨ role s = 4 ∧ role t = 5) ∧
    (∃ x y z, t.twn = { s.twn with since := x, copySend := y, copyQ := z }) ∧
    (∀ r, r ≠ .twinStatus → r ≠ .twinEvent → r ≠ .ringTail → r ≠ .ringStatus → r ≠ .hostStatus → ∀ i j, rd t r i j = rd s r i j) := by
  rintro t rfl
  rcases instepCheck_cases s with e | ⟨h4, e⟩
  · rw [e]
    exact ⟨rfl, Or.inl rfl, ⟨_, _, _, rfl⟩, fun _ _ _ _ _ _ _ _ => rfl⟩
  · rw [e]
    refine ⟨twinEvent_ot _ _ _ _, Or.inr ⟨h4, ?_⟩, ⟨_, _, _, twinEvent_twn _ _ _ _⟩, fun r h1 h2 h3 h5 h6 i j => ?_⟩
    · exact (get_of_rd (rd_twinEvent _ _ _ _ _ _ _ (by decide) (by decide) (by decide) (by decide))).trans (setRole_role 5 s (by decide))
    · rw [rd_twinEvent _ _ _ _ _ _ _ h2 h3 h5 h6, rd_setRole _ _ _ h1]

theorem jseqAhead_next {s : State} {h : JHead} (hj : h.jseq = rd s .jseqRx + 1) : jseqAhead s h = 0 := by
  unfold jseqAhead epochDiff
  rw [hj, BitVec.sub_self]; rfl

/-- The next record of the journal is applied where nothing waits and nothing is held. -/
theorem receive_next {s : State} {h : JHead} (x : JRec) (hr : role s = 4 ∨ role s = 5) (hw : s.twn.wait = []) (hb : s.twn.buffered = [])
    (hj : h.jseq = rd s .jseqRx + 1) : receive h x s = instepCheck (applyRecord ⟨h, x, s.ot⟩ s) := by
  unfold receive
  dsimp only
  rw [if_neg (by omega), if_pos (by rcases hr with e | e <;> simp [e]), jseqAhead_next hj, if_neg (by decide), hw, hb, if_pos (by simp)]

/-- A RENEW that a standby in CATCHUP or INSTEP hears in its place. -/
theorem heardRenew_next (h : JHead) (b t1 t3 t4 : W64) (s : State) (hr : role s = 4 ∨ role s = 5) (hw : s.twn.wait = []) (hb : s.twn.buffered = [])
    (hj : h.jseq = rd s .jseqRx + 1) : ∀ t, t = heardRenew h b t1 t3 t4 s → t.ot = s.ot ∧ (role t = role s ∨ role s = 4 ∧ role t = 5) ∧
    t.twn.beat = some b ∧ t.twn.termRx = h.term ∧ t.twn.t2 = s.ot ∧ t.ot ∈ t.twn.acks ∧ rd t .jseqRx = h.jseq := by
  rintro t rfl
  rw [heardRenew_eq]
  generalize hu : notedRenew h b t1 t3 t4 s = u
  obtain ⟨⟨a1, a2, a3, a4, -, -⟩, a7, a8, a9, a10⟩ := notedRenew_is h b t1 t3 t4 s u hu.symm
  rw [receive_next .passed (by rw [a7]; exact hr) (a9.trans hw) (a10.trans hb) (by rw [a8]; exact hj),
    show applyRecord ⟨h, .passed, u.ot⟩ u = applied h u from rfl]
  generalize hv : instepCheck (applied h u) = v
  obtain ⟨e1, e2, ⟨x, y, z, e3⟩, e4⟩ := instepCheck_is (applied h u) v hv.symm
  have ra : role (applied h u) = role s := (get_of_rd (rd_wr_reg (by decide) _ _ _ _ _ _)).trans a7
  have ja : rd v .jseqRx = h.jseq := (e4 .jseqRx (by decide) (by decide) (by decide) (by decide) (by decide) _ _).trans (rd_wr_same _ _ _ _ _)
  have ta : v.twn = { u.twn with since := x, copySend := y, copyQ := z } := e3
  obtain ⟨p, q, ht⟩ := sendAck_twn v
  obtain ⟨hr', ho⟩ := sendAck_regs v
  rw [ra] at e2
  refine ⟨ho.trans (e1.trans a1), ?_, ?_, ?_, ?_, ?_, (rd_congr hr' _ _ _).trans ja⟩
  · rw [show role (sendAck v) = role v from get_congr hr' _ _ _]; exact e2
  · rw [ht, ta]; exact a2
  · rw [ht, ta]; exact a3
  · rw [ht, ta]; exact a4
  · rw [ho, ht]; exact List.mem_append_right _ List.mem_cons_self

/-- R306, R312, R320: RENEW, by the role of the device that hears it. -/
theorem renew_heard {s : State} (h : JHead) (b t1 : W64) (act : Byte) (t3 t4 t2 : W64) (h7 : mode s ≠ 7) :
    (role s = 3 ∨ (role s = 4 ∨ role s = 5) ∧ s.twn.wait = [] ∧ s.twn.buffered = [] ∧ h.jseq = rd s .jseqRx + 1 →
      ∃ t, exec (.renew h b t1 act t3 t4 t2) s = .next t ∧ t.ot = timeAt s t2 ∧ (role t = role s ∨ role s = 4 ∧ role t = 5) ∧
      t.twn.beat = some b ∧ t.twn.termRx = h.term ∧ t.twn.t2 = t.ot ∧ t.ot ∈ t.twn.acks ∧
      (role s ≠ 3 → rd t .jseqRx = h.jseq)) ∧
    (role s = 1 → mode s = 3 → busy s = false → ∃ t, exec (.renew h b t1 act t3 t4 t2) s = .next t ∧ role t = 3 ∧
      t.twn.beat = some b ∧ t.twn.termRx = h.term) ∧
    (role s = 2 → h.term.toNat < (rd s .term).toNat → ∃ t, exec (.renew h b t1 act t3 t4 t2) s = .next t ∧ role t = 2 ∧
      hasBit t fld.twinEvent.TWIN_EVENT 5 = true) ∧
    (role s = 2 → (rd s .term).toNat < h.term.toNat → ∃ t, exec (.renew h b t1 act t3 t4 t2) s = .next t ∧ role t = 3 ∧
      hasBit t fld.twinEvent.TWIN_EVENT 5 = true ∧ on t fld.twinStatus.LEASE = false) := by
  generalize hu : advance t2 s = u
  have ur : role u = role s := hu ▸ role_advance t2 s
  have um : mode u = mode s := hu ▸ mode_advance t2 s
  have ub : busy u = busy s := hu ▸ on_advance t2 s _ _ _
  have ut : rd u .term = rd s .term := hu ▸ rd_advance t2 s _ _ _
  have uj : rd u .jseqRx = rd s .jseqRx := hu ▸ rd_advance t2 s _ _ _
  have uw : u.twn = s.twn := hu ▸ advance_twn t2 s
  have uo : u.ot = timeAt s t2 := hu ▸ advance_ot t2 s
  have form : ∀ o, o = (if mode u = 7 || role u = 0 || role u = 7 then (.next u : Out)
      else if role u = 1 then (if mode u = 3 && !busy u then .next (heardRenew h b t1 t3 t4 (beginTrans 6 false (enterCopy u))) else .next u)
      else if role u = 2 || role u = 6 then
        (if h.term.toNat = (rd u .term).toNat then .next u
         else if h.term.toNat < (rd u .term).toNat then .next (twinEvent 5 101 noDetail u)
         else .next (heardRenew h b t1 t3 t4 (if mode (enterCopy (twinEvent 5 101 noDetail u)) = 6 then enterCopy (twinEvent 5 101 noDetail u)
           else beginTrans 6 false (enterCopy (twinEvent 5 101 noDetail u)))))
      else .next (heardRenew h b t1 t3 t4 u)) → exec (.renew h b t1 act t3 t4 t2) s = o := by
    rintro o rfl
    rw [← hu]
    rfl
  refine ⟨fun hr => ?_, fun h1 h3 hb => ?_, fun h2 hlt => ?_, fun h2 hlt => ?_⟩
  · have e := form (.next (heardRenew h b t1 t3 t4 u)) (by
      rw [ur, um, if_neg (by rcases hr with e | ⟨e | e, -⟩ <;> simp [h7, e]), if_neg (by omega), if_neg (by rcases hr with e | ⟨e | e, -⟩ <;> simp [e])])
    refine ⟨_, e, ?_⟩
    rcases hr with h3 | ⟨h45, hw, hb, hj⟩
    · obtain ⟨⟨e1, e2, e3, e4, -, -⟩, e5, e6⟩ := heardRenew_copy h b t1 t3 t4 u (ur.trans h3) _ rfl
      exact ⟨e1.trans uo, Or.inl (e5.trans h3.symm), e2, e3, e4.trans e1.symm, e6, fun h => absurd h3 h⟩
    · obtain ⟨e1, e2, e3, e4, e5, e6, e7⟩ := heardRenew_next h b t1 t3 t4 u (by rw [ur]; exact h45) (by rw [uw]; exact hw) (by rw [uw]; exact hb)
        (by rw [uj]; exact hj) _ rfl
      exact ⟨e1.trans uo, ur ▸ e2, e3, e4, e5.trans e1.symm, e6, fun _ => e7⟩
  · have e := form (.next (heardRenew h b t1 t3 t4 (beginTrans 6 false (enterCopy u)))) (by
      rw [ur, um, ub, h1, h3, hb]; rfl)
    have r3 : role (beginTrans 6 false (enterCopy u)) = 3 :=
      ((beginTrans_leaves 6 false _).get fld.twinStatus.ROLE (by decide +kernel)).trans (enterCopy_is u _ rfl).2.1
    obtain ⟨hh, e5, -⟩ := heardRenew_copy h b t1 t3 t4 _ r3 _ rfl
    exact ⟨_, e, e5, hh.beat, hh.term⟩
  · have e := form (.next (twinEvent 5 101 noDetail u)) (by
      rw [ur, um, ut, h2, if_neg (by simp [h7]), if_neg (by decide), if_pos (by simp), if_neg (by omega), if_pos hlt])
    refine ⟨_, e, ?_, twinEvent_bit _ _ _ _ (by decide)⟩
    exact (get_of_rd (rd_twinEvent _ _ _ _ _ _ _ (by decide) (by decide) (by decide) (by decide))).trans (ur.trans h2)
  · generalize hx : twinEvent 5 101 noDetail u = x at form
    have xb : hasBit x fld.twinEvent.TWIN_EVENT 5 = true := hx ▸ twinEvent_bit _ _ _ _ (by decide)
    obtain ⟨-, y2, y3, -, -, -, -, -, -, y10⟩ := enterCopy_is x _ rfl
    generalize enterCopy x = y at form y2 y3 y10
    have w : Within (outside [.twinStatus, .twinEvent, .twinCtrl, .term, .jseqTx, .jseqRx, .copyDone] [.twn, .ot, .tim]) y
        (if mode y = 6 then y else beginTrans 6 false y) := Within.ite (Within.refl y) (beginTrans_leaves 6 false y)
    generalize (if mode y = 6 then y else beginTrans 6 false y) = z at form w
    have e := form (.next (heardRenew h b t1 t3 t4 z)) (by
      rw [ur, um, ut, h2, if_neg (by simp [h7]), if_neg (by decide), if_pos (by simp), if_neg (by omega), if_neg (by omega)])
    obtain ⟨hh, e5, -⟩ := heardRenew_copy h b t1 t3 t4 z ((w.get fld.twinStatus.ROLE (by decide +kernel)).trans y2) _ rfl
    refine ⟨_, e, e5, hh.bits 5 ?_, hh.lease ?_⟩
    · rw [w.bit fld.twinEvent.TWIN_EVENT (by decide +kernel), hasBit_rd y10]; exact xb
    · rw [w.on fld.twinStatus.LEASE (by decide +kernel)]; exact y3

/-- R320: an ACK's times are kept, and a peer in COPY is sent the copy. -/
theorem ack_heard {s : State} (h : JHead) (j : W32) (peer : Byte) (d : Bool) (t2 t3 t4 : W64) (h2 : role s = 2) :
    ∃ t, exec (.ack h j peer d t2 t3 t4) s = .next t ∧ t.ot = timeAt s t4 ∧
      t.twn = { s.twn with
        echo3 := t3, echo4 := t4, copySend := peer == 3 && s.twn.copyQ.isEmpty
        copyQ := if peer = 3 then s.twn.copyQ else [] } := by
  generalize hu : advance t4 s = u
  have ur : role u = 2 := hu ▸ (role_advance t4 s).trans h2
  have uo : u.ot = timeAt s t4 := hu ▸ advance_ot t4 s
  refine ⟨{ u with twn := { u.twn with
    echo3 := t3, echo4 := t4, copySend := peer == 3 && u.twn.copyQ.isEmpty, copyQ := if peer == 3 then u.twn.copyQ else [] } }, ?_, uo, ?_⟩
  · show execAck h j peer d t2 t3 t4 s = _
    unfold execAck
    dsimp only
    rw [hu, ur, if_neg (by decide)]
  · rw [show u.twn = s.twn from hu ▸ advance_twn t4 s]
    simp only [beq_iff_eq]

end Sys2Proof.Machine

/-!
TWIN_CMD and TWIN_CTRL (R304, R306, R313, R325), and the lease's statement.
-/

namespace Sys2Proof.Machine
set_option Elab.async false

/-! ## Commands of the host (R306, R313, R325) -/

/-- Every register stands in the list of them. -/
theorem regList_finds (r : RegId) : regList.find? (fun q => q.num == r.num) = some r := by
  have all : (List.range 305).all (fun n => (regList.find? (fun q => q.num == n)).isSome) = true := by decide +kernel
  have lt : r.num < 305 := by cases r <;> decide
  have some_ := List.all_eq_true.mp all r.num (List.mem_range.mpr lt)
  obtain ⟨q, hq⟩ := Option.isSome_iff_exists.mp some_
  rw [hq]
  have same : (q.num == r.num) = true := List.find?_some (p := fun (q : RegId) => q.num == r.num) hq
  exact congrArg some (regId_num_inj (beq_iff_eq.mp same))

theorem map_get_filter_drop {α : Type} (d : Nat → α) (m : Map α) (p : Nat × α → Bool) (k : Nat) (h : ∀ v, p (k, v) = false) :
    Map.get d (m.filter p) k = d k := by
  induction m with
  | nil => rfl
  | cons x m ih =>
    obtain ⟨j, v⟩ := x
    rw [List.filter_cons]
    split
    · rename_i hp
      show (if j = k then v else Map.get d (m.filter p) k) = _
      rw [if_neg (by rintro rfl; rw [h v] at hp; exact absurd hp (by decide)), ih]
    · exact ih

theorem key_mod (r : RegId) (i j : Nat) : r.key i j % 512 = r.num := by
  have := regId_num_lt r
  unfold RegId.key
  omega

/-- The render state given up holds the journaled registers at their reset values, and no allocation. -/
theorem resetRender_is (s : State) : (resetRender s).hst.allocs = [] ∧ (resetRender s).pwr = s.pwr ∧
    ∀ r i j, journaled r.desc.base = true → rd (resetRender s) r i j = BitVec.ofNat 32 r.desc.reset := by
  refine ⟨rfl, rfl, fun r i j hj => ?_⟩
  unfold rd resetRender
  refine map_get_filter_drop _ _ _ _ (fun v => ?_)
  dsimp only
  rw [key_mod, regList_finds r]
  simp [hj]

/-- R306, R313, R325: RESIGN, RESYNC and LEAVE_SAFE. -/
theorem commands_taken {s : State} {fn : Nat} (hw : Writable s fn .twinCmd 0 0) :
    (role s = 2 → ∃ t, exec (.resign fn) s = .next t ∧ role t = 1 ∧ on t fld.twinStatus.LEASE = false ∧
      t.twn.out = false ∧ (twinLink s = true →
        t.twn.sent = some (recordLane s, recordFrame s 8 (rd s .jseqTx + 1) (leBytes 8 (s.twn.renewed.getD 0).toNat)))) ∧
    (3 ≤ role s → role s ≤ 5 → ∃ t, exec (.resync fn) s = .next t ∧ role t = 3 ∧ t.twn.buffered = [] ∧
      t.twn.wait = [] ∧ rd t .copyDone = 0) ∧
    (role s = 7 → mode s = 7 → busy s = false → safePending s = false → get s fld.safeCause.SAFE_CAUSE = 2 →
      ∃ t, exec (.leaveSafe fn) s = .next t ∧ role t = 1 ∧ (∃ x, t.pwr.trans = some x ∧ x.target = 3) ∧ t.hst.allocs = [] ∧
      ∀ r i j, journaled r.desc.base = true → rd t r i j = BitVec.ofNat 32 r.desc.reset) := by
  refine ⟨fun h2 => ?_, fun h3 h5 => ?_, fun h7 hm hb hp hc => ?_⟩
  · obtain ⟨e1, e2, e3, -, -, e6, -⟩ := lapseToIdle_is (sendRecord 0x08 (leBytes 8 (s.twn.renewed.getD 0).toNat) s) _ rfl
    refine ⟨_, ?_, e1, e2, e3, fun hl => e6.trans (sendRecord_sent hl 8 _).2⟩
    show Host.Outcome.next (hostWrite fn .twinCmd 0 0 1 (twinCmdWrite 1) s) = _
    rw [twinCmd_plain hw, twinCmdWrite_resign h2]
  · obtain ⟨-, e2, -, e4, e5, e6, -⟩ := enterCopy_is s _ rfl
    refine ⟨_, ?_, e2, e6, e5, e4⟩
    show Host.Outcome.next (hostWrite fn .twinCmd 0 0 4 (twinCmdWrite 4) s) = _
    rw [twinCmd_plain hw, twinCmdWrite_resync h3 h5]
  · obtain ⟨e1, e2, e3⟩ := resetRender_is s
    generalize hx : resetRender s = x at e1 e2 e3
    have w : Within (outside [] [.hst]) (setRole 1 x) (beginTrans 3 false (setRole 1 x)) := within_beginTrans 3 false (by decide +kernel) (Within.refl _)
    refine ⟨beginTrans 3 false (setRole 1 x), ?_, ?_, beginTrans_target (s := setRole 1 x) ((safePending_of (congrArg Pwr.trans e2)).trans hp) 3 false,
      (congrArg HostSt.allocs (w.part .hst (by decide +kernel))).trans e1, fun r i j hj => ?_⟩
    · show Host.Outcome.next (hostWrite fn .twinCmd 0 0 8 (twinCmdWrite 8) s) = _
      rw [twinCmd_plain hw, twinCmdWrite_leaveSafe h7 hm hb hc, hx]
    · exact ((beginTrans_leaves 3 false _).get fld.twinStatus.ROLE (by decide +kernel)).trans (setRole_role 1 x (by decide))
    · have hp : r ≠ .pwrMode := by rintro rfl; exact absurd hj (by decide)
      have ht : r ≠ .twinStatus := by rintro rfl; exact absurd hj (by decide)
      have hk : rd (beginTrans 3 false (setRole 1 x)) r i j = rd (setRole 1 x) r i j := by
        unfold beginTrans
        split
        · rfl
        · exact rd_put_reg _ _ _ _ _ _ _ _ hp
      rw [hk, rd_setRole _ _ _ ht]
      exact e3 r i j hj

/-! ## TWIN_CTRL (R304) -/

theorem twinCtrl_plain {s : State} {fn : Nat} (h : Writable s fn .twinCtrl 0 0) (v : W32) (effect : State → State) :
    hostWrite fn .twinCtrl 0 0 v effect s = effect s := hostWrite_plain h (by decide) v effect

/-- EN of a written word. -/
theorem twinEn_written (s : State) (fn : Nat) (v : W32) :
    on (plainWrite (isPf fn) .twinCtrl 0 0 v s) fld.twinCtrl.EN = (v.toNat % 2 == 1) := by
  rw [show RegId.twinCtrl = fld.twinCtrl.EN.reg from rfl, on_plainWrite (by decide) (by decide) rfl]
  show (v.toNat / 2 ^ 0 % 2 ^ 1 == 1) = _
  simp

theorem rd_plainWrite (pf : Bool) (q : RegId) (v : W32) (s : State) (r : RegId) (i j k l : Nat) (h : r ≠ q) :
    rd (plainWrite pf q i j v s) r k l = rd s r k l := rd_wr_reg h _ _ _ _ _ _

/-- The forms of a write of TWIN_CTRL, by EN as it was and as it is written. -/
theorem twinCtrlWrite_forms {s u : State} (fn : Nat) (v : W32) (hu : u = plainWrite (isPf fn) .twinCtrl 0 0 v s) (was now : Bool)
    (hs : on s fld.twinCtrl.EN = was) (hn : (v.toNat % 2 == 1) = now) : twinCtrlWrite (isPf fn) v s =
      if was == now then u
      else if mode s != 3 || (now && (leaseClock u).isNone) then put fld.twinCtrl.EN (if was then 1 else 0) u
      else if now then setRole 1 { u with twn := { u.twn with beat := none, edge := none } }
      else put fld.twinStatus.WIRE 0 (setRole 0 (leaseGone u)) := by
  have hm : mode u = mode s := by rw [hu]; exact get_of_rd (rd_plainWrite _ _ _ _ _ _ _ _ _ (by decide))
  unfold twinCtrlWrite
  dsimp only
  rw [← hu, hs, show on u fld.twinCtrl.EN = now by rw [hu, twinEn_written, hn], hm]

/-- R304: EN changes in IDLE alone, and to 1 while LFC runs. -/
theorem enable_written {s : State} {fn : Nat} (v : W32) (u : State) (hw : Writable s fn .twinCtrl 0 0) (hu : u = plainWrite (isPf fn) .twinCtrl 0 0 v s) :
    (mode s = 3 → v.toNat % 2 = 1 → on s fld.twinCtrl.EN = false →
      ((leaseClock u).isSome → ∃ t, exec (.twinEnWrite fn v) s = .next t ∧ role t = 1 ∧ on t fld.twinCtrl.EN = true) ∧
      (leaseClock u = none → ∃ t, exec (.twinEnWrite fn v) s = .next t ∧ role t = role s ∧ on t fld.twinCtrl.EN = false)) ∧
    (mode s = 3 → v.toNat % 2 = 0 → on s fld.twinCtrl.EN = true →
      ∃ t, exec (.twinEnWrite fn v) s = .next t ∧ role t = 0 ∧ on t fld.twinCtrl.EN = false ∧
        on t fld.twinStatus.LEASE = false ∧ on t fld.twinStatus.WIRE = false) ∧
    (mode s ≠ 3 → ∃ t, exec (.twinEnWrite fn v) s = .next t ∧
      on t fld.twinCtrl.EN = on s fld.twinCtrl.EN ∧ role t = role s ∧
      get t fld.twinCtrl.LEASE_N = get u fld.twinCtrl.LEASE_N) := by
  have form : exec (.twinEnWrite fn v) s = .next (twinCtrlWrite (isPf fn) v s) := by
    show Host.Outcome.next (hostWrite fn .twinCtrl 0 0 v (twinCtrlWrite (isPf fn) v) s) = _
    rw [twinCtrl_plain hw]
  have en : on u fld.twinCtrl.EN = (v.toNat % 2 == 1) := by rw [hu]; exact twinEn_written s fn v
  have ro : role u = role s := by rw [hu]; exact get_of_rd (rd_plainWrite _ _ _ _ _ _ _ _ _ (by decide))
  have kept : ∀ b, on (put fld.twinCtrl.EN (if b then 1 else 0) u) fld.twinCtrl.EN = b ∧ role (put fld.twinCtrl.EN (if b then 1 else 0) u) = role s := fun b => by
    refine ⟨?_, (get_put_reg _ _ _ _ _ _ _ _ (by decide)).trans ro⟩
    rw [on_put_same _ _ _ _ _ (by decide) (by cases b <;> decide)]
    cases b <;> rfl
  refine ⟨fun hm hv he => ⟨fun hl => ?_, fun hl => ?_⟩, fun hm hv he => ?_, fun hm => ?_⟩
  · have e := twinCtrlWrite_forms fn v hu false true he (by simp [hv])
    rw [if_neg (by decide), if_neg (by rw [hm, Option.isNone_eq_false_iff.mpr hl]; decide), if_pos rfl] at e
    refine ⟨_, form.trans (congrArg _ e), setRole_role 1 _ (by decide), ?_⟩
    rw [on_of_rd (f := fld.twinCtrl.EN) (rd_setRole _ _ _ (by decide) _ _), on_of_rd (f := fld.twinCtrl.EN) (rd_twn _ _ _ _ _), en, hv]
    rfl
  · have e := twinCtrlWrite_forms fn v hu false true he (by simp [hv])
    rw [if_neg (by decide), if_pos (by rw [hl]; simp)] at e
    exact ⟨_, form.trans (congrArg _ e), (kept false).2, (kept false).1⟩
  · have e := twinCtrlWrite_forms fn v hu true false he (by simp [hv])
    rw [if_neg (by decide), if_neg (by rw [hm]; simp), if_neg (by decide)] at e
    refine ⟨_, form.trans (congrArg _ e), ?_, ?_, ?_, wire_put 0 _ (by decide)⟩
    · exact (get_put_fld fld.twinStatus.WIRE fld.twinStatus.ROLE 0 _ 0 0 rfl (by decide) (by decide)).trans (setRole_role 0 _ (by decide))
    · rw [on_put_reg _ _ _ _ _ _ _ _ (by decide), on_of_rd (f := fld.twinCtrl.EN) (rd_setRole _ _ _ (by decide) _ _)]
      unfold leaseGone
      rw [on_put_reg _ _ _ _ _ _ _ _ (by decide), on_of_rd (f := fld.twinCtrl.EN) (rd_twn _ _ _ _ _), en, hv]
      rfl
    · rw [on_put_fld fld.twinStatus.WIRE fld.twinStatus.LEASE _ _ _ _ rfl (by decide) (by decide), setRole_fld _ _ _ rfl (by decide) (by decide)]
      exact (leaseGone_is u).1
  · have e := twinCtrlWrite_forms fn v hu (on s fld.twinCtrl.EN) (v.toNat % 2 == 1) rfl rfl
    refine ⟨_, form.trans (congrArg _ e), ?_⟩
    split
    · rename_i h
      exact ⟨en.trans (beq_iff_eq.mp h).symm, ro, rfl⟩
    · rw [if_pos (by simp [hm])]
      exact ⟨(kept _).1, (kept _).2, get_put_fld fld.twinCtrl.EN fld.twinCtrl.LEASE_N _ u 0 0 rfl (by decide) (by decide)⟩

/-! ## The statement -/

/-- Settles O57, a lemma for each row: renewal, lapse, expiry, takeover, the wire and the lanes, RENEW and ACK, and the twin registers. -/
theorem twinLeaseWorks : Obligations.TwinLeaseWorks := by
  unfold Obligations.TwinLeaseWorks
  intro s fn
  exact ⟨fun f r b hf hr h2 hl hb hd => lease_renews hf hr h2 hl hb hd, fun h2 hl => lease_lapses h2 hl, fun f x hf hx => lease_expires hf hx,
    fun f x hf hx h6 => takes_over hf hx h6, fun f hf h1 h3 hb hp => lone_takes hf h1 h3 hb hp, fun h0 => wire_beats h0, fun lane up => lane_changes s lane up,
    fun h b t1 act t3 t4 t2 h7 => renew_heard h b t1 act t3 t4 t2 h7, fun h j peer d t2 t3 t4 h2 => ack_heard h j peer d t2 t3 t4 h2,
    fun hw => commands_taken hw, fun v u hw hu => enable_written v u hw hu⟩

end Sys2Proof.Machine

/-!
Journal records held, and those in their place applied (R314, R316, R317).
-/

namespace Sys2Proof.Machine
set_option Elab.async false

/-! ## Records that are held (R314, R316) -/

/-- A held record is kept in the order of JSEQ where it does not fill the buffer of a copy. -/
theorem bufferRecord_keeps {s : State} (x : JHeld)
    (h : role s = 3 → ((holdIn x s.twn.buffered).map (fun y => recordBytes y.body)).sum ≤ get s fld.jbufMib.JBUF_MIB * 1048576) :
    bufferRecord x s = { s with twn := { s.twn with buffered := holdIn x s.twn.buffered } } := by
  unfold bufferRecord
  dsimp only
  rw [if_neg]
  intro hc
  simp only [Bool.and_eq_true, decide_eq_true_eq] at hc
  have := h hc.1
  omega

/-- The check for being in step does nothing while records are held. -/
theorem instepCheck_held {s : State} (h : s.twn.buffered ≠ []) : instepCheck s = s := by
  rcases instepCheck_cases s with e | ⟨-, -⟩
  · exact e
  · unfold instepCheck
    dsimp only
    rw [if_neg (by simp [List.isEmpty_iff, h])]

theorem receive_copyHeld {s : State} (h : JHead) (x : JRec) (h3 : role s = 3) (hl : s.twn.copyLost = false)
    (hq : ((holdIn ⟨h, x, s.ot⟩ s.twn.buffered).map (fun y => recordBytes y.body)).sum ≤ get s fld.jbufMib.JBUF_MIB * 1048576) :
    receive h x s = { s with twn := { s.twn with buffered := holdIn ⟨h, x, s.ot⟩ s.twn.buffered } } := by
  unfold receive
  dsimp only
  rw [if_pos h3, if_neg (by simp [hl]), bufferRecord_keeps _ (fun _ => hq)]

/-- What a standby in CATCHUP or INSTEP does with a record that is not the next one to apply. -/
theorem receive_later {s : State} (h : JHead) (x : JRec) (hr : role s = 4 ∨ role s = 5) (ha : 0 ≤ jseqAhead s h)
    (hn : s.twn.wait ≠ [] ∨ jseqAhead s h ≠ 0) :
    receive h x s = pump { s with twn := { s.twn with buffered := holdIn ⟨h, x, s.ot⟩ s.twn.buffered } } := by
  unfold receive
  dsimp only
  rw [if_neg (by omega), if_pos (by rcases hr with e | e <;> simp [e]), if_neg (by omega), if_neg, bufferRecord_keeps _ (fun e => by omega)]
  intro hc
  simp only [Bool.and_eq_true, decide_eq_true_eq, List.isEmpty_iff] at hc
  obtain ⟨⟨hw, -⟩, h0⟩ := hc
  exact hn.elim (fun e => e hw) (fun e => e h0)

theorem pump_waits {s : State} (h : s.twn.wait ≠ []) : pump s = s := by
  unfold pump
  rw [if_neg (by simpa [List.isEmpty_iff] using h)]

/-- A record that came before its turn stays held. -/
theorem pump_early {s : State} (x : JHeld) (hr : role s = 4 ∨ role s = 5) (ha : 0 < jseqAhead s x.head) (hw : s.twn.wait = []) (hb : s.twn.buffered = [x]) :
    pump s = s := by
  have role_ : ∀ w : Twn, role { s with twn := w } = role s := fun _ => rfl
  have ahead : ∀ w : Twn, jseqAhead { s with twn := w } x.head = jseqAhead s x.head := fun _ => rfl
  unfold pump
  rw [hw, if_pos (by rfl), hb]
  unfold drain
  rw [role_, ahead, if_neg (by rcases hr with e | e <;> simp [e]), if_pos (by simp [ha])]
  rw [show ({ s with twn := { s.twn with buffered := [x] } } : State) = s by rw [← hb]]
  exact instepCheck_held (by simp [hb])

/-- R314, R316: a record is kept while a copy arrives, while a COMMIT waits, and while an earlier one is missing. -/
theorem records_held {s : State} {i : Instr} {h : JHead} {x : JRec} (hi : exec i s = .next (receive h x s)) (q : List JHeld)
    (hq : q = holdIn ⟨h, x, s.ot⟩ s.twn.buffered) :
    (role s = 3 → s.twn.copyLost = false → (q.map (fun y => recordBytes y.body)).sum ≤ get s fld.jbufMib.JBUF_MIB * 1048576 →
      ∃ t, exec i s = .next t ∧ t.twn = { s.twn with buffered := q } ∧ t.regs = s.regs) ∧
    (role s = 4 ∨ role s = 5 →
      (s.twn.wait ≠ [] → 0 ≤ jseqAhead s h → ∃ t, exec i s = .next t ∧ t.twn = { s.twn with buffered := q } ∧ t.regs = s.regs) ∧
      (s.twn.wait = [] → s.twn.buffered = [] → 0 < jseqAhead s h →
        ∃ t, exec i s = .next t ∧ t.twn = { s.twn with buffered := [⟨h, x, s.ot⟩] } ∧ t.regs = s.regs) ∧
      (jseqAhead s h < 0 → exec i s = .next s)) := by
  subst hq
  refine ⟨fun h3 hl hsum => ⟨_, hi.trans (congrArg _ (receive_copyHeld h x h3 hl hsum)), rfl, rfl⟩,
    fun hr => ⟨fun hw ha => ?_, fun hw hb ha => ?_, fun ha => ?_⟩⟩
  · refine ⟨_, hi.trans (congrArg _ (receive_later h x hr ha (Or.inl hw))), ?_⟩
    rw [pump_waits (by exact hw)]
    exact ⟨rfl, rfl⟩
  · have form := hi.trans (congrArg _ (receive_later h x hr (by omega) (Or.inr (by omega))))
    rw [hb] at form
    generalize hz : ({ s with twn := { s.twn with buffered := holdIn ⟨h, x, s.ot⟩ [] } } : State) = z at form
    have zr : z.regs = s.regs := by rw [← hz]
    have zt : z.twn = { s.twn with buffered := [⟨h, x, s.ot⟩] } := by rw [← hz]; rfl
    have zj : jseqAhead z h = jseqAhead s h := by rw [← hz]; rfl
    rw [pump_early ⟨h, x, s.ot⟩ (by rw [show role z = role s from get_congr zr _ _ _]; exact hr) (by rw [zj]; exact ha) (by rw [zt]; exact hw) (by rw [zt])] at form
    exact ⟨z, form, zt, zr⟩
  · rw [hi]
    unfold receive
    dsimp only
    rw [if_neg (by omega), if_pos (by rcases hr with e | e <;> simp [e]), if_pos ha]

/-! ## The next record applied (R314) -/

theorem instepCheck_leaves (s : State) : Within (outside [.jseqRx, .copyDone, .rmEpoch, .txEpoch, .vatSlots] [.vat, .fmem, .epg, .ot, .tim, .inForce]) s (instepCheck s) :=
  within_instepCheck (by decide +kernel) (Within.refl s)

theorem instepCheck_jseq (s : State) : rd (instepCheck s) .jseqRx = rd s .jseqRx := (instepCheck_leaves s).reg .jseqRx (by decide +kernel) 0 0

/-- Being found in step leaves the allocations. -/
theorem instepCheck_allocs (s : State) : (instepCheck s).hst.allocs = s.hst.allocs := by
  rcases instepCheck_cases s with e | ⟨-, e⟩
  · rw [e]
  · rw [e]
    unfold twinEvent
    obtain ⟨e, m, p, q, hh⟩ := raise_host 102 noDetail (setBit fld.twinEvent.TWIN_EVENT 6 (setRole 5 s))
    rw [hh]; rfl

section Next

variable {s : State} {h : JHead} {x : JRec} {i : Instr}
  (hi : exec i s = .next (receive h x s)) (hr : role s = 4 ∨ role s = 5) (hw : s.twn.wait = []) (hb : s.twn.buffered = [])
  (hj : h.jseq = rd s .jseqRx + 1)
include hi hr hw hb hj

/-- A record in its place is applied, and the device then looks whether it is in step. -/
theorem next_applies : ∃ t, exec i s = .next t ∧ t = instepCheck (applyRecord ⟨h, x, s.ot⟩ s) :=
  ⟨_, hi.trans (congrArg _ (receive_next x hr hw hb hj)), rfl⟩

end Next

theorem applied_jseq (h : JHead) (s : State) : rd (applied h s) .jseqRx = h.jseq := rd_wr_same _ _ _ _ _

theorem rd_applied (h : JHead) (s : State) (r : RegId) (hr : r ≠ .jseqRx) (i j : Nat) : rd (applied h s) r i j = rd s r i j := rd_wr_reg hr _ _ _ _ _ _

/-! ### COMMIT -/

theorem eff_of {s t : State} {f : Fld} (hf : t.inForce = s.inForce) {i j : Nat} (h : rd t f.reg i j = rd s f.reg i j) : eff t f i j = eff s f i j := by
  unfold eff
  rw [hf, get_of_rd h]

/-- The commit instant of an epoch rests on the canvas's records, the frame clocks, and the registers of canvas and clock. -/
theorem commitInst_of {s t : State} (hv : t.vat = s.vat) (ht : t.tim = s.tim) (hf : t.inForce = s.inForce) (ho : t.ot = s.ot)
    (h : ∀ r ∈ [RegId.canvasCtrl, .commitLead, .fcCtrl], ∀ i j, rd t r i j = rd s r i j) (c : Nat) (e : W32) : commitInst t c e = commitInst s c e := by
  have fc : canvasFc t c = canvasFc s c := eff_of hf (h _ (by decide) _ _)
  have clk : ∀ n, fclock t n = fclock s n := fclock_tim ht
  have recs : epochRec t c e = epochRec s c e := by unfold epochRec; rw [hv]
  have insts : ∀ n, instOf t n e = instOf s n e := fun n => by unfold instOf; rw [clk, ho]
  have per : ∀ n, fcPeriod t n = fcPeriod s n := fun n => by
    unfold fcPeriod rateInForce
    rw [clk, ho, get_of_rd (f := fld.fcCtrl.RATE) (h _ (by decide) _ _)]
  have at_ : ∀ n, periodAt t n e = periodAt s n e := fun n => by unfold periodAt; rw [clk, ho, per]
  unfold commitInst latchOf leadOf
  rw [recs, insts, at_, fc, eff_of (f := fld.commitLead.COMMIT_LEAD) hf (h _ (by decide) _ _)]

/-- The tasks that a COMMIT stops leave the canvas's pointers and clocks. -/
theorem stopped_leaves (xs : Task → Bool) (s : State) : Within (outside [.jseqRx, .canvasStatus, .rmEpoch, .canvasCtrl, .commitLead, .fcCtrl]
    [.vat, .tim, .inForce, .ot, .twn]) s (forEach ((allTasks s).filter xs) (fun t u => finish t 3 0 0 0 u) s) :=
  Within.forEachMem (Within.refl s) (fun t ht y hy => within_finish t 3 0 0 0 (fits_filter ht (Within.refl (m := 0) s)) (by decide +kernel) hy)

/-- A COMMIT whose instant is still to come waits. -/
theorem tryCommit_waits {s : State} {w : ShadowWait} (hw : s.twn.wait = [w]) (hc : canvasRuns s w.canvas = true) (he : rmEp s w.canvas = w.epoch)
    (hi : timeDiff s.ot (commitInst s w.canvas w.epoch) < 0) : tryCommit s = s := by
  unfold tryCommit
  rw [hw]
  dsimp only
  rw [hc, he, if_neg (by simp), if_neg]
  intro h
  simp only [Bool.and_eq_true, decide_eq_true_eq] at h
  omega

/-- A COMMIT record that comes before its instant: the tasks it stops leave, and it waits. -/
theorem applyCommit_waits {s : State} {m : Bool} {c : Nat} {e d : W32} {ts : List W32} {at_ : W64} (hw : s.twn.wait = [])
    (hc : canvasRuns s c = true) (he : rmEp s c = e) (hi : timeDiff s.ot (commitInst s c e) < 0) : ∀ t, t = applyCommit m c e d ts at_ s →
    t.twn.wait = [⟨c, e, d, m, ts, at_⟩] ∧ rd t .jseqRx = rd s .jseqRx := by
  rintro t rfl
  unfold applyCommit
  dsimp only
  have w := stopped_leaves (fun t => stopsAt c e t && ts.contains (BitVec.ofNat 32 (tileNo s c (dRow t.desc) (dCol t.desc)))) s
  generalize forEach _ (fun t u => finish t 3 0 0 0 u) s = x at w
  have xo : x.ot = s.ot := w.ot (by decide +kernel)
  have xi : commitInst x c e = commitInst s c e := by
    refine commitInst_of (w.part .vat (by decide +kernel)) (w.tim (by decide +kernel)) (w.part .inForce (by decide +kernel)) xo (fun r hr i j => ?_) c e
    simp only [List.mem_cons, List.not_mem_nil, or_false] at hr
    rcases hr with rfl | rfl | rfl
    · exact w.reg .canvasCtrl (by decide +kernel) i j
    · exact w.reg .commitLead (by decide +kernel) i j
    · exact w.reg .fcCtrl (by decide +kernel) i j
  generalize hz : ({ x with twn := { x.twn with wait := x.twn.wait ++ [⟨c, e, d, m, ts, at_⟩] } } : State) = z
  have zw : z.twn.wait = [⟨c, e, d, m, ts, at_⟩] := by
    rw [← hz]
    show x.twn.wait ++ _ = _
    rw [w.twn (by decide +kernel), hw]; rfl
  have zr : z.regs = x.regs := by rw [← hz]
  have zi : commitInst z c e = commitInst x c e := by rw [← hz]; exact commitInst_of rfl rfl rfl rfl (fun _ _ _ _ => rfl) c e
  rw [tryCommit_waits zw ((on_congr zr _ _ _).trans ((w.on fld.canvasStatus.RUN (by decide +kernel) c).trans hc))
    ((rd_congr zr _ _ _).trans ((w.reg .rmEpoch (by decide +kernel) c 0).trans he)) (by rw [zi, xi, show z.ot = s.ot from hz ▸ xo]; exact hi)]
  exact ⟨zw, (rd_congr zr _ _ _).trans (w.reg .jseqRx (by decide +kernel) 0 0)⟩

section Next

variable {s : State} {h : JHead} (hr : role s = 4 ∨ role s = 5) (hw : s.twn.wait = []) (hb : s.twn.buffered = [])
  (hj : h.jseq = rd s .jseqRx + 1)
include hr hw hb hj

/-- R316: a COMMIT that comes before its instant waits for it. -/
theorem commit_waits (m : Bool) (c : Nat) (e d : W32) (ts : List W32) (hc : canvasRuns s c = true) (he : rmEp s c = e)
    (hi : timeDiff s.ot (commitInst s c e) < 0) :
    ∃ t, exec (.commitRecord h m c e d ts) s = .next t ∧ t.twn.wait = [⟨c, e, d, m, ts, s.ot⟩] ∧ rd t .jseqRx = h.jseq := by
  obtain ⟨t, ht, e1⟩ := next_applies (i := .commitRecord h m c e d ts) (x := .commit m c e d ts) rfl hr hw hb hj
  have e2 : t = instepCheck (applyCommit m c e d ts s.ot (applied h s)) := e1
  have ci : commitInst (applied h s) c e = commitInst s c e :=
    commitInst_of (s := s) (t := applied h s) rfl rfl rfl rfl (fun r hr i j => rd_applied h s r (by rintro rfl; exact absurd hr (by decide)) i j) c e
  obtain ⟨y1, y2⟩ := applyCommit_waits (m := m) (d := d) (ts := ts) (at_ := s.ot) (s := applied h s) hw
    ((on_of_rd (f := fld.canvasStatus.RUN) (rd_applied h s _ (by decide) _ _)).trans hc) ((rd_applied h s _ (by decide) _ _).trans he) (by rw [ci]; exact hi) _ rfl
  generalize applyCommit m c e d ts s.ot (applied h s) = y at e2 y1 y2
  obtain ⟨-, -, ⟨x1, x2, x3, tw⟩, -⟩ := instepCheck_is y t e2
  refine ⟨t, ht, by rw [tw]; exact y1, ?_⟩
  rw [e2, instepCheck_jseq, y2, applied_jseq]

/-! ### CHANGE -/

/-- R314: a change enters the log with the version that its record carries. -/
theorem change_enters (id : W32) (c : Nat) (tm : Byte) (v ver : W32) (tg : W64) (k : InKey) (hk : k = recKey id c) (hbad : s.vat.badNext = false)
    (hki : k.kind ≠ 7 ∨ k.idx < 1024) (hv : 0 < epochDiff ver (newestVersion s k)) (hn : ∀ q ∈ s.vat.inputs, q.key = k → q.version.toNat < ver.toNat) :
    ∃ t, exec (.changeRecord h id c tm v ver tg) s = .next t ∧ newestVersion t k = ver ∧ rd t .jseqRx = h.jseq ∧
      ∃ x ∈ t.vat.inputs, x.key = k ∧ x.value = v ∧ x.version = ver := by
  obtain ⟨t, ht, e1⟩ := next_applies (i := .changeRecord h id c tm v ver tg) (x := .change id c tm v ver tg) rfl hr hw hb hj
  have e2 : t = instepCheck (applyChange (recKey id c) v ver (recTarget s tm tg) (applied h s)) := e1
  rw [← hk] at e2
  have wj := within_applyChange k v ver (recTarget s tm tg) (μ := outside [.jseqRx] []) (by decide +kernel) (Within.refl (applied h s))
  generalize hy : applyChange k v ver (recTarget s tm tg) (applied h s) = y at wj e2
  have log : newestVersion y k = ver ∧ ∃ x ∈ y.vat.inputs, x.key = k ∧ x.value = v ∧ x.version = ver := by
    unfold applyChange at hy
    rw [if_neg (by show ¬ epochDiff ver (newestVersion s k) ≤ 0; omega)] at hy
    dsimp only at hy
    generalize hz : (if k.kind = 6 then put fld.kg.KILLED (v.toNat % 2) (setVersion k (ver - 1) (applied h s)) k.idx else setVersion k (ver - 1) (applied h s)) = z at hy
    have zv : z.vat = (setVersion k (ver - 1) s).vat := by
      rw [← hz]
      split <;> rfl
    have zn : newestVersion z k + 1 = ver := by
      rw [newestVersion_congr (congrArg Vat.versions zv), newestVersion_set]
      exact BitVec.sub_add_cancel ver 1
    have zi : z.vat.inputs = s.vat.inputs := by rw [zv]; rfl
    obtain ⟨e1, e2⟩ := (logChange_enters k v 0 (recTarget s tm tg) z (by rw [zv]; exact hbad) hki (fun q hq e => by
      rw [zn]; exact hn q (zi ▸ hq) e)).1
    rw [hy, zn] at e1 e2
    exact ⟨e1, _, e2, rfl, rfl, rfl⟩
  have wi := instepCheck_leaves y
  rw [← e2] at wi
  have iv : t.vat = y.vat := wi.part .vat (by decide +kernel)
  obtain ⟨l1, l2⟩ := log
  refine ⟨t, ht, (newestVersion_congr (congrArg Vat.versions iv) k).trans l1, ?_, iv ▸ l2⟩
  exact (wi.reg .jseqRx (by decide +kernel) 0 0).trans ((wj.reg .jseqRx (by decide +kernel) 0 0).trans (applied_jseq h s))

end Next

/-! ### REGW -/

/-- The register at an offset lies there. -/
theorem regAt_off {off : Nat} {r : RegId} {i j : Nat} (h : regAt off = some ⟨r, i, j⟩) : r.off i j = off := by
  have one : ∀ q : RegId, q.at? off = some ⟨r, i, j⟩ → r.off i j = off := by
    intro q hq
    unfold RegId.at? at hq
    dsimp only at hq
    split at hq
    · cases hq
    · rename_i hlo
      generalize hi : (if q.desc.step = 0 then 0 else if q.desc.n = 1 then 0 else (off - q.desc.base) / q.desc.step) = i0 at hq
      generalize (if q.desc.step2 = 0 then 0 else if q.desc.n2 = 1 then 0 else (off - q.desc.base - i0 * q.desc.step) / q.desc.step2) = j0 at hq
      split at hq
      · rename_i hc
        simp only [Option.some.injEq, RegAt.mk.injEq] at hq
        obtain ⟨rfl, rfl, rfl⟩ := hq
        simp only [Bool.and_eq_true, beq_iff_eq] at hc
        have hle : i0 * q.desc.step ≤ off - q.desc.base := by
          rw [← hi]
          split
          · omega
          · split
            · omega
            · exact Nat.div_mul_le_self _ _
        have hj := hc.2
        unfold RegId.off
        rw [Nat.mul_comm q.desc.step, Nat.mul_comm q.desc.step2, ← hj]
        omega
      · cases hq
  have all : ∀ rs : List RegId, findReg off rs = some ⟨r, i, j⟩ → r.off i j = off := by
    intro rs
    induction rs with
    | nil => intro e; cases e
    | cons q qs ih =>
      intro e
      unfold findReg at e
      split at e
      · rename_i a ha
        rw [Option.some.injEq] at e
        subst e
        exact one q ha
      · exact ih e
  exact all _ h

/-- A journaled register is none of the twin registers, the rings' or the events'. -/
theorem journaled_ne {off : Nat} {r : RegId} {i j : Nat} (ha : regAt off = some ⟨r, i, j⟩) (hj : journaled off = true) :
    r ∉ [RegId.jseqRx, .twinStatus, .twinEvent, .ringTail, .ringStatus, .hostStatus] := by
  obtain ⟨hi, hj2⟩ := regAt_inside ha
  rw [← regAt_off ha] at hj
  intro hr
  have place : ∀ q ∈ [RegId.jseqRx, .twinStatus, .twinEvent, .ringTail, .ringStatus, .hostStatus],
      q.desc.base < 0x2D000 ∧ q.desc.n ≤ 64 ∧ q.desc.step ≤ 0x40 ∨ 0x100000 ≤ q.desc.base ∧ q.desc.base < 0x1F0000 ∧ q.desc.n ≤ 64 ∧ q.desc.step ≤ 0x40 := by decide
  have step2 : ∀ q ∈ [RegId.jseqRx, .twinStatus, .twinEvent, .ringTail, .ringStatus, .hostStatus], q.desc.step2 = 0 := by decide
  have hs := step2 r hr
  have hm : r.desc.step * i ≤ 0x40 * 64 := Nat.mul_le_mul (by rcases place r hr with h | h <;> omega) (by rcases place r hr with h | h <;> omega)
  simp only [journaled, RegId.off, hs, Bool.or_eq_true, Bool.and_eq_true, decide_eq_true_eq] at hj
  rcases place r hr with h | h <;> omega

theorem renderEffect_stores {r : RegId} (h : storesOnly r = true) (fn i j : Nat) (v : W32) (s : State) :
    renderEffect fn r i j v s = plainWrite (isPf fn) r i j v s := by
  unfold renderEffect
  cases r <;> simp [storesOnly, RegId.desc] at h ⊢

theorem mergeWrite_applied (h : JHead) (s : State) (pf : Bool) (r : RegId) (hr : r ≠ .jseqRx) (i j : Nat) (v : W32) :
    mergeWrite (applied h s) pf r i j v = mergeWrite s pf r i j v := by
  have on_ : ∀ f : Fld, f.reg ≠ .jseqRx → on (applied h s) f i = on s f i := fun f hf => on_of_rd (rd_applied h s _ hf _ _)
  have unit : unitOn (applied h s) r i = unitOn s r i := by
    unfold unitOn
    rw [on_ fld.ringCtrl.EN (by decide), on_ fld.ctxCtrl.EN (by decide), on_ fld.fcCtrl.EN (by decide), on_ fld.canvasCtrl.EN (by decide),
      on_ fld.macCtrl.EN (by decide)]
  unfold mergeWrite
  rw [unit, rd_applied h s r hr]
  rfl

/-- Bytes put in frame memory stand there, and no register changes. -/
theorem fmemPut_is (a : Nat) (d : List Byte) (s : State) : ∀ t, t = fmemPut a d s →
    memRead t.fmem a d.length = d ∧ t.regs = s.regs ∧ t.twn = s.twn ∧ t.epg = s.epg := by
  rintro t rfl
  exact ⟨memRead_memWrite _ _ _ _ rfl, rfl, rfl, rfl⟩

/-- A record's bytes stand in frame memory once it is applied. -/
theorem bytes_land {s t : State} {h : JHead} {a : Nat} {d : List Byte} (e : t = instepCheck (fmemPut a d (applied h s))) :
    memRead t.fmem a d.length = d ∧ rd t .jseqRx = h.jseq := by
  obtain ⟨y1, y2, -, -⟩ := fmemPut_is a d (applied h s) _ rfl
  generalize fmemPut a d (applied h s) = y at e y1 y2
  have wf : (instepCheck y).fmem = y.fmem := (instepCheck_leaves y).part .fmem (by decide +kernel)
  rw [e, wf, instepCheck_jseq, rd_congr y2, applied_jseq]
  exact ⟨y1, rfl⟩

/-- An endpoint whose state a record gives. -/
theorem applyEpstate_is (e : Nat) (st : List W32) (ss : W64) (s : State) : ∀ t, t = applyEpstate e st ss s →
    (epOf t e).lost = ((st.getD 0 0).toNat / 8 % 2 == 1) ∧ (epOf t e).cut = ((st.getD 0 0).toNat / 16 % 2 == 1) ∧
    (epOf t e).epoch = st.getD 3 0 ∧ t.regs = s.regs := by
  rintro t rfl
  unfold applyEpstate
  extract_lets w all codes x0 x y
  have yr : y.regs = s.regs := by unfold y; split <;> rfl
  have ex : epOf (setEp e x y) e = x := by rw [epOf_setEp, if_pos rfl]
  rw [ex]
  exact ⟨rfl, rfl, rfl, yr⟩

/-- A CMD record of opcode 0x10 is an ALLOC. -/
theorem applyCmd_alloc {entry : List W32} (h : (entry.getD 0 0).toNat % 256 = 0x10) (j : W32) (cpl : List W32) (s : State) :
    applyCmd j entry cpl s = applyAlloc ((entry.getD 0 0).toNat / 256 % 128) (entry.getD 1 0).toNat ((cpl.getD 1 0).toNat / 4096) s := by
  unfold applyCmd
  dsimp only
  rw [h]
  rfl

/-- An allocation whose memory is free is entered, and no other. -/
theorem applyAlloc_enters {s : State} {base size : Nat} (c : Nat) (h : mibFree s base size = true) : ∀ t, t = applyAlloc c size base s →
    t.hst.allocs = s.hst.allocs ++ [⟨base, size, c, none⟩] ∧ rd t .jseqRx = rd s .jseqRx := by
  rintro t rfl
  unfold applyAlloc
  rw [if_neg (by rw [h]; decide)]
  generalize hx : fmemZero (base * 1048576) (size * 1048576) { s with hst := { s.hst with allocs := s.hst.allocs ++ [⟨base, size, c, none⟩] } } = x
  have xa : x.hst.allocs = s.hst.allocs ++ [⟨base, size, c, none⟩] := by rw [← hx]; rfl
  have xj : rd x .jseqRx = rd s .jseqRx := by rw [← hx]; rfl
  have w := within_refreshCtx c (μ := outside [.jseqRx] []) (by decide +kernel) (Within.refl x)
  exact ⟨(refreshCtx_host c x).2.trans xa, (w.reg .jseqRx (by decide +kernel) 0 0).trans xj⟩

section Next

variable {s : State} {h : JHead} (hr : role s = 4 ∨ role s = 5) (hw : s.twn.wait = []) (hb : s.twn.buffered = [])
  (hj : h.jseq = rd s .jseqRx + 1)
include hr hw hb hj

/-- R314, R317: a register is written by the function that wrote it. -/
theorem regw_writes (off : Nat) (v : W32) (fn : Nat) (k : Option TaskRef) (r : RegId) (i j : Nat) (ha : regAt off = some ⟨r, i, j⟩)
    (ho : journaled off = true) (hs : storesOnly r = true) (hp : absentReg s r i = false) :
    ∃ t, exec (.regw h off v fn k) s = .next t ∧ rd t .jseqRx = h.jseq ∧ rd t r i j = rd (plainWrite (isPf fn) r i j v s) r i j := by
  obtain ⟨t, ht, e1⟩ := next_applies (i := .regw h off v fn k) (x := .regw off v fn k) rfl hr hw hb hj
  have e2 : t = instepCheck (applyRegw off v fn k (applied h s)) := e1
  have ne := journaled_ne ha ho
  simp only [List.mem_cons, List.not_mem_nil, or_false, not_or] at ne
  obtain ⟨n1, n2, n3, n4, n5, n6⟩ := ne
  have e3 : applyRegw off v fn k (applied h s) = plainWrite (isPf fn) r i j v (applied h s) := by
    unfold applyRegw
    rw [ha]
    dsimp only
    rw [if_neg (by rw [ho, show absentReg (applied h s) r i = false from hp]; decide), if_neg (by rintro rfl; exact absurd hs (by decide)), renderEffect_stores hs]
  rw [e3] at e2
  obtain ⟨-, -, -, kept⟩ := instepCheck_is _ t e2
  refine ⟨t, ht, ?_, ?_⟩
  · rw [kept .jseqRx (by decide) (by decide) (by decide) (by decide) (by decide), rd_plainWrite _ _ _ _ _ _ _ _ _ (Ne.symm n1), applied_jseq]
  · rw [kept r n2 n3 n4 n5 n6, plainWrite_rd, plainWrite_rd, mergeWrite_applied h s _ r n1]

/-! ### CMD -/

/-- R314, R317: ALLOC takes the address of its record. -/
theorem alloc_takes (size base c w : Nat) (rest : List W32) (hf : mibFree s base size = true) (hwd : w = 0x10 + 256 * c) (hc : c < 128)
    (hsz : size < 2 ^ 32) (hbs : base < 2 ^ 20) :
    ∃ t, exec (.cmdRecord h (BitVec.ofNat 32 w :: BitVec.ofNat 32 size :: rest) [0, BitVec.ofNat 32 (4096 * base)]) s
      = .next t ∧ t.hst.allocs = s.hst.allocs ++ [⟨base, size, c, none⟩] ∧ rd t .jseqRx = h.jseq := by
  generalize he : BitVec.ofNat 32 w :: BitVec.ofNat 32 size :: rest = entry
  obtain ⟨t, ht, e1⟩ := next_applies (i := .cmdRecord h entry [0, BitVec.ofNat 32 (4096 * base)])
    (x := .cmd entry [0, BitVec.ofNat 32 (4096 * base)]) rfl hr hw hb hj
  have e2 : t = instepCheck (applyCmd h.jseq entry [0, BitVec.ofNat 32 (4096 * base)] (applied h s)) := e1
  have w1 : (entry.getD 0 0).toNat = w := by rw [← he]; exact Nat.mod_eq_of_lt (by omega)
  have s1 : (entry.getD 1 0).toNat = size := by rw [← he]; exact Nat.mod_eq_of_lt hsz
  have b1 : (([0, BitVec.ofNat 32 (4096 * base)] : List W32).getD 1 0).toNat / 4096 = base := by
    show (BitVec.ofNat 32 (4096 * base)).toNat / 4096 = base
    rw [BitVec.toNat_ofNat, Nat.mod_eq_of_lt (by omega)]
    omega
  rw [applyCmd_alloc (by omega), w1, s1, b1, show w / 256 % 128 = c by omega] at e2
  obtain ⟨y1, y2⟩ := applyAlloc_enters (s := applied h s) c hf _ rfl
  generalize applyAlloc c size base (applied h s) = y at e2 y1 y2
  refine ⟨t, ht, ?_, ?_⟩
  · rw [e2, instepCheck_allocs, y1]; rfl
  · rw [e2, instepCheck_jseq, y2, applied_jseq]

/-! ### MEMW, LAYER, EPSTATE, HANDOVER -/

/-- R314: bytes are written to frame memory. -/
theorem memw_writes (a : W64) (d : List Byte) :
    ∃ t, exec (.memw h a d) s = .next t ∧ memRead t.fmem (a.toNat * 4) d.length = d ∧ rd t .jseqRx = h.jseq := by
  obtain ⟨t, ht, e1⟩ := next_applies (i := .memw h a d) (x := .memw a d) rfl hr hw hb hj
  have e2 : t = instepCheck (fmemPut (a.toNat * 4) d (applied h s)) := e1
  exact ⟨t, ht, bytes_land e2⟩

/-- R314: a chunk of an import is written to its buffer. -/
theorem layer_writes (n : Nat) (ver b o : W32) (d : List Byte) :
    ∃ t, exec (.layerRecord h false n ver b o d) s = .next t ∧ memRead t.fmem (b.toNat * 256 + o.toNat) d.length = d ∧ rd t .jseqRx = h.jseq := by
  obtain ⟨t, ht, e1⟩ := next_applies (i := .layerRecord h false n ver b o d) (x := .layer false n b o d) rfl hr hw hb hj
  have e2 : t = instepCheck (fmemPut (b.toNat * 256 + o.toNat) d (applied h s)) := e1
  exact ⟨t, ht, bytes_land e2⟩

/-- R314: an endpoint's status is the active's. -/
theorem epstate_writes (e : Nat) (st : List W32) (ss : W64) :
    ∃ t, exec (.epstate h e st ss) s = .next t ∧ rd t .jseqRx = h.jseq ∧
      (epOf t e).lost = ((st.getD 0 0).toNat / 8 % 2 == 1) ∧ (epOf t e).cut = ((st.getD 0 0).toNat / 16 % 2 == 1) ∧
      (epOf t e).epoch = st.getD 3 0 := by
  obtain ⟨t, ht, e1⟩ := next_applies (i := .epstate h e st ss) (x := .epstate e st ss) rfl hr hw hb hj
  have e2 : t = instepCheck (applyEpstate e st ss (applied h s)) := e1
  obtain ⟨y1, y2, y3, y4⟩ := applyEpstate_is e st ss (applied h s) _ rfl
  generalize applyEpstate e st ss (applied h s) = y at e2 y1 y2 y3 y4
  have we : epOf t e = epOf y e := epOf_epg (e2 ▸ (instepCheck_leaves y).part .epg (by decide +kernel)) e
  exact ⟨t, ht, by rw [e2, instepCheck_jseq, rd_congr y4, applied_jseq], we ▸ y1, we ▸ y2, we ▸ y3⟩

/-- R313: a standby in step acquires at the next beat. -/
theorem handover_sets (b : W64) (f : FClock) (h5 : role s = 5) (hf : leaseClock s = some f) :
    ∃ t, exec (.handover h b) s = .next t ∧ t.twn.handAt = some (f.inst (b + 1)) ∧ rd t .jseqRx = h.jseq := by
  obtain ⟨t, ht, e1⟩ := next_applies (i := .handover h b) (x := .handover b) rfl hr hw hb hj
  have e2 : t = instepCheck (applyHandover b (applied h s)) := e1
  have clk : leaseClock (applied h s) = some f := (leaseClock_of (s := s) (t := applied h s) rfl (rd_applied h s _ (by decide) _ _)).trans hf
  have r5 : role (applied h s) = 5 := (get_of_rd (rd_applied h s _ (by decide) _ _)).trans h5
  generalize hy : ({ applied h s with twn := { s.twn with handAt := some (f.inst (b + 1)) } } : State) = y
  have e3 : applyHandover b (applied h s) = y := by
    unfold applyHandover
    rw [clk]
    dsimp only
    rw [if_pos r5]
    exact hy
  rw [e3] at e2
  obtain ⟨-, -, ⟨x1, x2, x3, tw⟩, kept⟩ := instepCheck_is y t e2
  refine ⟨t, ht, by rw [tw, ← hy], ?_⟩
  rw [kept .jseqRx (by decide) (by decide) (by decide) (by decide) (by decide), ← hy]
  exact applied_jseq h s

end Next

end Sys2Proof.Machine

/-!
The state copy received and sent (R323).
-/

namespace Sys2Proof.Machine
set_option Elab.async false

/-! ## The copy received (R323) -/

/-- R323: bytes of the active's memory arrive. -/
theorem copy_writes {s : State} (h : JHead) (l : Bool) (index : W64) (d : List Byte) (h3 : role s = 3) (hl : s.twn.copyLost = false) :
    ∃ t, exec (.copyRecord h l 5 index d) s = .next t ∧ memRead t.fmem index.toNat d.length = d ∧ t.twn.copied = s.twn.copied + d.length ∧
      rd t .copyDone = BitVec.ofNat 32 ((s.twn.copied + d.length) / 1048576) := by
  generalize hx : ({ s with twn := { s.twn with copied := s.twn.copied + d.length } } : State) = x
  obtain ⟨y1, -, y3, -⟩ := fmemPut_is index.toNat d x _ rfl
  have form : exec (.copyRecord h l 5 index d) s = .next (wr .copyDone (BitVec.ofNat 32 ((fmemPut index.toNat d x).twn.copied / 1048576)) (fmemPut index.toNat d x)) := by
    show execCopyRecord h l 5 index d s = _
    unfold execCopyRecord
    rw [if_neg (by simp [h3, hl]), ← hx]
    rfl
  have c : (fmemPut index.toNat d x).twn.copied = s.twn.copied + d.length := by rw [y3, ← hx]
  refine ⟨_, form, y1, c, ?_⟩
  rw [rd_wr_same, c]

theorem resumeCopy_leaves (s : State) : Within (outside [.jseqRx, .twinStatus] [.twn]) s (resumeCopy s) := within_resumeCopy (by decide +kernel) (Within.refl s)

/-- The end of a copy held in its place is passed. -/
theorem pump_passes {s : State} {x : JHeld} (hx : x.body = .passed) (hr : role s = 4) (hw : s.twn.wait = []) (hb : s.twn.buffered = [x])
    (hj : x.head.jseq = rd s .jseqRx + 1) : pump s = instepCheck (applied x.head { s with twn := { s.twn with buffered := [] } }) := by
  have role_ : role { s with twn := { s.twn with buffered := [] } } = role s := rfl
  have ahead : jseqAhead { s with twn := { s.twn with buffered := [] } } x.head = 0 := (jseqAhead_next hj :)
  unfold pump
  rw [hw, if_pos (by rfl), hb]
  unfold drain
  rw [role_, ahead, hr, hw, if_neg (by decide), if_neg (by decide), if_neg (by decide)]
  unfold drain applyRecord
  rw [hx]

/-- R323: the end of the copy, with nothing held: CATCHUP, or in step at once. -/
theorem copy_ends {s : State} (h : JHead) (cpos : W32) (h3 : role s = 3) (hl : s.twn.copyLost = false) (hf : s.twn.copyFrom = none)
    (hb : s.twn.buffered = []) (hw : s.twn.wait = []) :
    ∃ t, exec (.copyEnd h cpos) s = .next t ∧ (role t = 4 ∨ role t = 5) ∧ t.twn.cpos = cpos ∧ rd t .jseqRx = h.jseq := by
  generalize hx : setRole 4 (wr .jseqRx (h.jseq - 1) { s with twn := { s.twn with cpos := cpos, buffered := [⟨h, .passed, s.ot⟩] } }) = x
  have form : exec (.copyEnd h cpos) s = .next (pump (resumeCopy x)) := by
    show execCopyEnd h cpos s = _
    unfold execCopyEnd
    rw [hf]
    dsimp only
    rw [if_neg (by simp [h3, hl]), hb, ← hx]
    rfl
  have w := resumeCopy_leaves x
  generalize resumeCopy x = y at form w
  have yt : y.twn = x.twn := w.twn (by decide +kernel)
  have yr : role y = 4 := (w.get fld.twinStatus.ROLE (by decide +kernel)).trans (hx ▸ setRole_role 4 _ (by decide))
  have yj : rd y .jseqRx = h.jseq - 1 := (w.reg .jseqRx (by decide +kernel) 0 0).trans (by rw [← hx, rd_setRole _ _ _ (by decide), rd_wr_same])
  have next : h.jseq = rd y .jseqRx + 1 := by rw [yj]; exact (BitVec.sub_add_cancel h.jseq 1).symm
  rw [pump_passes (x := ⟨h, .passed, s.ot⟩) rfl yr (by rw [yt, ← hx]; exact hw) (by rw [yt, ← hx]; rfl) next] at form
  generalize hz : applied h { y with twn := { y.twn with buffered := [] } } = z at form
  obtain ⟨-, e2, ⟨p1, p2, p3, e3⟩, -⟩ := instepCheck_is z _ rfl
  have zr : role z = 4 := by rw [← hz]; exact (get_of_rd (rd_applied h _ _ (by decide) _ _)).trans yr
  refine ⟨_, form, ?_, ?_, ?_⟩
  · rw [zr] at e2
    exact e2.imp id (fun e => e.2)
  · rw [e3, ← hz]
    show y.twn.cpos = cpos
    rw [yt, ← hx]; rfl
  · rw [instepCheck_jseq, ← hz, applied_jseq]

/-! ## The copy sent (R323) -/

/-- A copy begins with the first journaled registers, and more follows. -/
theorem copyItems_begins (s : State) : ∃ rest, copyItems s = .block 0 0x40000 (blockBytes s 0x40000) :: rest ∧ rest.length ≠ 1 := by
  have split : pieces 0x40000 0xB0000 ++ pieces 0x200000 0x800000 =
      0x40000 :: 0x42000 :: 0x44000 :: (((List.range 85).map (fun k => 0x40000 + 8192 * (k + 3))) ++ pieces 0x200000 0x800000) := by
    have e : pieces 0x40000 0xB0000 = 0x40000 :: 0x42000 :: 0x44000 :: (List.range 85).map (fun k => 0x40000 + 8192 * (k + 3)) := by decide
    rw [e]; rfl
  unfold copyItems
  rw [split]
  simp only [List.map_cons, List.cons_append]
  exact ⟨_, rfl, by simp only [List.length_cons]; omega⟩

/-- A record sent without a number changes what is kept of the link alone. -/
theorem sendPlain_is {s : State} (h : twinLink s = true) (ty : Nat) (p : List Byte) : sendPlain ty p s =
    { s with twn := { s.twn with sent := some (recordLane s, recordFrame s ty 0 p), sends := s.twn.sends + 1 } } := by
  unfold sendPlain
  rw [if_pos h]
  rfl

/-- The record of a piece of the copy, its last one flagged. -/
def copyFrame (s : State) (last : Bool) (kind index : Nat) (data : List Byte) : List Byte :=
  recordFrame s (9 + if last then 0x100 else 0) 0 (leBytes 4 kind ++ leBytes 8 index ++ data)

theorem copyRecordOf_is {s : State} (h : twinLink s = true) (k i : Nat) (last : Bool) (d : List Byte) : copyRecordOf k i last d s =
    { s with twn := { s.twn with sent := some (recordLane s, copyFrame s last k i d), sends := s.twn.sends + 1 } } := sendPlain_is h _ _

/-- A copy begun: nothing sent yet, and all of it to send. -/
theorem beginCopy_is (s : State) : (beginCopy s).twn = { s.twn with copySend := false, copied := 0, copyQ := copyItems s } ∧
    rd (beginCopy s) .copyDone = 0 ∧ rd (beginCopy s) .copyTotal = BitVec.ofNat 32 ((s.hst.allocs.map (fun a => a.size)).sum) ∧
    ∀ r, r ≠ .copyDone → r ≠ .copyTotal → rd (beginCopy s) r = rd s r := by
  unfold beginCopy
  dsimp only
  refine ⟨rfl, rd_wr_same _ _ _ _ _, ?_, fun r h1 h2 => ?_⟩
  · rw [rd_wr_reg (by decide), rd_wr_same]
  · rw [rd_wr_reg h1, rd_wr_reg h2, rd_twn]

/-- A copy that is due begins with its first piece. -/
theorem copy_begins {s : State} (h2 : role s = 2) (hl : twinLink s = true) (hc : s.twn.copySend = true) :
    ∃ t, exec .copySend s = .next t ∧ t.twn.copySend = false ∧ rd t .copyDone = 0 ∧
      rd t .copyTotal = BitVec.ofNat 32 ((s.hst.allocs.map (fun a => a.size)).sum) ∧ t.twn.copyQ = (copyItems s).drop 1 ∧
      t.twn.sent = some (recordLane s, recordFrame s 9 0 (leBytes 4 0 ++ leBytes 8 0x40000 ++ blockBytes s 0x40000)) := by
  obtain ⟨rest, hq, hne⟩ := copyItems_begins s
  generalize blockBytes s 0x40000 = bs at hq ⊢
  obtain ⟨b1, b2, b3, b4⟩ := beginCopy_is s
  rw [hq] at b1 ⊢
  have form : exec .copySend s = .next (sendCopyItem (.block 0 0x40000 bs) (rest.length == 1)
      { beginCopy s with twn := { (beginCopy s).twn with copyQ := rest } }) := by
    show execCopySend s = _
    unfold execCopySend
    rw [if_neg (by simp [h2, hl]), if_pos hc]
    have e : (beginCopy s).twn.copyQ = .block 0 0x40000 bs :: rest := by rw [b1]
    generalize beginCopy s = u at e ⊢
    dsimp only
    rw [e]
  generalize beginCopy s = u at b1 b2 b3 b4 form
  generalize hx : ({ u with twn := { u.twn with copyQ := rest } } : State) = x at form
  have xu : ∀ r, rd x r = rd u r := fun r => by rw [← hx, rd_twn]
  have xr : ∀ r, r ≠ .copyDone → r ≠ .copyTotal → rd x r = rd s r := fun r h1 h3 => (xu r).trans (b4 r h1 h3)
  have xd : rd x .copyDone = 0 := (xu _).trans b2
  have xt : rd x .copyTotal = BitVec.ofNat 32 ((s.hst.allocs.map (fun a => a.size)).sum) := (xu _).trans b3
  have xs : x.twn.copySend = false ∧ x.twn.copyQ = rest ∧ x.twn.sends = s.twn.sends ∧ x.twn.cpos = s.twn.cpos := by rw [← hx, b1]; exact ⟨rfl, rfl, rfl, rfl⟩
  obtain ⟨x1, x2, x3, x4⟩ := xs
  have hlx : twinLink x = true := (twinLink_of (xr _ (by decide) (by decide))).trans hl
  have e : sendCopyItem (.block 0 0x40000 bs) (rest.length == 1) x = _ := copyRecordOf_is hlx 0 0x40000 (rest.length == 1) bs
  rw [e] at form
  refine ⟨_, form, x1, xd, xt, x2, ?_⟩
  show some (recordLane x, copyFrame x (rest.length == 1) 0 0x40000 bs) = _
  unfold copyFrame
  rw [recordLane_of (xr _ (by decide) (by decide)) x3, recordFrame_of (xr _ (by decide) (by decide)) x4, beq_false_of_ne hne]
  rfl

/-- The next piece of a copy that is being sent. -/
theorem copy_continues {s : State} (h2 : role s = 2) (hl : twinLink s = true) (hc : s.twn.copySend = false) (x : CopyItem) (rest : List CopyItem)
    (hq : s.twn.copyQ = x :: rest) : ∃ t, exec .copySend s = .next t ∧ t.twn.copyQ = rest ∧
      (∀ k i d, x = .block k i d → t.twn.sent = some (recordLane s, copyFrame s (rest.length == 1) k i d)) ∧
      (∀ a n, x = .mem a n → rd t .copyDone = BitVec.ofNat 32 ((s.twn.copied + n) / 1048576) ∧
        t.twn.sent = some (recordLane s, copyFrame s (rest.length == 1) 5 a (memRead s.fmem a n))) ∧
      (∀ p, x = .fin p → rd t .jseqTx = rd s .jseqTx + 1 ∧ t.twn.sent = some (recordLane s,
        recordFrame s 0x0A (rd s .jseqTx + 1) (leBytes 4 p.toNat ++ leBytes 4 0))) := by
  generalize hy : ({ s with twn := { s.twn with copyQ := rest } } : State) = y
  have form : exec .copySend s = .next (sendCopyItem x (rest.length == 1) y) := by
    show execCopySend s = _
    unfold execCopySend
    rw [if_neg (by simp [h2, hl]), if_neg (by simp [hc])]
    dsimp only
    rw [hq, ← hy]
  have yr : ∀ r i j, rd y r i j = rd s r i j := fun r i j => by rw [← hy, rd_twn]
  have yl : twinLink y = true := (twinLink_of (yr _ _ _)).trans hl
  have yq : y.twn.copyQ = rest := by rw [← hy]
  have lane : recordLane y = recordLane s := recordLane_of (yr _ _ _) (by rw [← hy])
  have frame : ∀ ty j p, recordFrame y ty j p = recordFrame s ty j p := recordFrame_of (yr _ _ _) (by rw [← hy])
  refine ⟨_, form, ?_⟩
  cases x with
  | block k i d =>
    generalize ht : sendCopyItem (.block k i d) (rest.length == 1) y = t
    have e : t = _ := ht.symm.trans (copyRecordOf_is yl k i (rest.length == 1) d)
    have tq : t.twn.copyQ = rest := by rw [e]; exact yq
    have ts : t.twn.sent = some (recordLane s, copyFrame s (rest.length == 1) k i d) := by
      rw [e]
      show some (recordLane y, copyFrame y _ k i d) = _
      unfold copyFrame
      rw [lane, frame]
    refine ⟨tq, fun k' i' d' h => ?_, (fun a n h => nomatch h), (fun p h => nomatch h)⟩
    cases h
    exact ts
  | mem a n =>
    generalize hz : ({ y with twn := { y.twn with copied := y.twn.copied + n } } : State) = z
    have zr : ∀ r i j, rd z r i j = rd y r i j := fun r i j => by rw [← hz, rd_twn]
    have zc : z.twn.copied = s.twn.copied + n := by rw [← hz, ← hy]
    have zq : z.twn.copyQ = rest := by rw [← hz]; exact yq
    have e : sendCopyItem (.mem a n) (rest.length == 1) y = wr .copyDone (BitVec.ofNat 32 ((s.twn.copied + n) / 1048576))
        { z with twn := { z.twn with sent := some (recordLane z, copyFrame z (rest.length == 1) 5 a (memRead y.fmem a n)), sends := z.twn.sends + 1 } } := by
      unfold sendCopyItem
      dsimp only
      rw [hz, copyRecordOf_is ((twinLink_of (zr _ _ _)).trans yl)]
      dsimp only
      rw [zc]
    generalize sendCopyItem (.mem a n) (rest.length == 1) y = t at e
    have tq : t.twn.copyQ = rest := by rw [e]; exact zq
    have td : rd t .copyDone = BitVec.ofNat 32 ((s.twn.copied + n) / 1048576) := by rw [e]; exact rd_wr_same _ _ _ _ _
    have ts : t.twn.sent = some (recordLane s, copyFrame s (rest.length == 1) 5 a (memRead s.fmem a n)) := by
      rw [e]
      show some (recordLane z, copyFrame z _ 5 a (memRead y.fmem a n)) = _
      unfold copyFrame
      rw [recordLane_of (zr _ _ _) (by rw [← hz]), recordFrame_of (zr _ _ _) (by rw [← hz]), lane, frame, show y.fmem = s.fmem by rw [← hy]]
    refine ⟨tq, (fun k i d h => nomatch h), fun a' n' h => ?_, (fun p h => nomatch h)⟩
    cases h
    exact ⟨td, ts⟩
  | fin p =>
    obtain ⟨j, sent⟩ := sendRecord_sent yl 0x0A (leBytes 4 p.toNat ++ leBytes 4 0)
    have hn := sendRecord_noted 0x0A (leBytes 4 p.toNat ++ leBytes 4 0) y
    generalize ht : sendCopyItem (.fin p) (rest.length == 1) y = t
    have e : sendRecord 0x0A (leBytes 4 p.toNat ++ leBytes 4 0) y = t := ht
    rw [e] at j sent hn
    rw [yr] at j sent
    rw [lane, frame] at sent
    have tq : t.twn.copyQ = rest := by rw [hn.frame]; exact yq
    refine ⟨tq, (fun k i d h => nomatch h), (fun a n h => nomatch h), fun p' h => ?_⟩
    cases h
    exact ⟨j, sent⟩

end Sys2Proof.Machine

/-!
A waiting COMMIT carried out when its wait for tiles ends (R316), and the journal's statement.
-/

namespace Sys2Proof.Machine
set_option Elab.async false

/-! ## A waiting COMMIT carried out (R316) -/

theorem Within.inForce {m : Nat} {s t : State} (h : Within m s t) (hm : m.testBit Part.inForce.bit = false) : t.inForce = s.inForce :=
  h.part .inForce hm

theorem Within.vat {m : Nat} {s t : State} (h : Within m s t) (hm : m.testBit Part.vat.bit = false) : t.vat = s.vat := h.part .vat hm

theorem epochRec_epoch {s : State} {c : Nat} {e : W32} {r : EpochRec} (h : epochRec s c e = some r) : r.epoch = e := by
  rw [epochRec_eq] at h
  simpa using List.find?_some h

/-- What a commit's last steps leave of the records that a standby holds. -/
theorem afterCommit_held (c : Nat) (v : CommitEnv) (prev : Option W32) (r : EpochRec) (unf : List Nat) (filled : Nat) (s : State) :
    (afterCommit c v prev r unf filled s).twn.buffered = s.twn.buffered := by
  unfold afterCommit
  extract_lets dirty cv k sn a b d f g h y
  have mid : Within (outside [] [.twn]) d g := within_quietStep c r dirty filled v.pending (by decide +kernel)
    (within_autoImports c _ (by decide +kernel) (within_sendEpoch c r.slot r.epoch prev dirty k (by decide +kernel) (Within.refl d)))
  have hy : y.twn.buffered = h.buffered := by
    have n := noted_journal (0x01 + if v.miss then 0x200 else 0) (leBytes 4 c ++ leBytes 4 r.epoch.toNat ++ leBytes 4 (slotDigest r).toNat
      ++ leBytes 4 unf.length ++ unf.flatMap (fun n => leBytes 4 n)) { g with twn := { h with cpos := h.cpos + 1 } }
    show (journal _ _ _).twn.buffered = _
    rw [n.frame]
  show y.twn.buffered = _
  rw [hy]
  exact congrArg Twn.buffered (mid.twn (by decide +kernel))

/-- The steps of a commit after its pointers leave TX, the time and what is kept of the twin link. -/
theorem commitTail_leaves (c : Nat) (lim e : W32) (p q : State) (hq : q = fixSlots c (releaseUp c 9 (withdrawAbove c lim p))) (t : State)
    (ht : t = releaseCommitted c e (if on q fld.canvasEvtEn.EVT_EN_COMMIT c then raise 32 c q else q)) :
    txEp t c = txEp p c ∧ txv t c = txv p c ∧ t.ot = p.ot ∧ t.twn = p.twn := by
  have w1 : Within (outside [.txEpoch, .vatSlots] [.ot, .twn]) p (withdrawAbove c lim p) := within_withdrawAbove c lim (by decide +kernel) (Within.refl p)
  generalize withdrawAbove c lim p = a at hq w1
  have w2 : Within (outside [] [.ot, .twn]) a q := hq ▸ within_fixSlots c (by decide +kernel) (within_releaseUp c 9 (by decide +kernel) (Within.refl a))
  obtain ⟨f1, f2, -⟩ := fixSlots_is c (releaseUp c 9 a)
  rw [← hq] at f1 f2
  have w3 : Within (outside [.txEpoch, .vatSlots] [.ot, .twn]) q t := by
    rw [ht]
    exact within_releaseCommitted c e (by decide +kernel) (Within.ite (within_raise 32 c (by decide +kernel) (Within.refl q)) (Within.refl q))
  refine ⟨?_, ?_, ?_, ?_⟩
  · unfold txEp
    rw [w3.reg .txEpoch (by decide +kernel), f1 .txEpoch (by decide), releaseUp_reg c 9 a _ (by decide), w1.reg .txEpoch (by decide +kernel)]
  · refine (w3.on fld.vatSlots.TXV (by decide +kernel) c).trans (f2.trans ((releaseUp_txv c 9 a).trans ?_))
    exact w1.on fld.vatSlots.TXV (by decide +kernel) c
  · rw [w3.ot (by decide +kernel), w2.ot (by decide +kernel), w1.ot (by decide +kernel)]
  · rw [w3.twn (by decide +kernel), w2.twn (by decide +kernel), w1.twn (by decide +kernel)]

/-- A canvas's commit, by whatever its tiles and its misses: TX is the epoch, and time stands. -/
theorem commitHalf_shows {x : State} (c : Nat) (v : CommitEnv) (listed : List Nat) (e : W32) (r : EpochRec) (he : rmEp x c = e)
    (hr : epochRec x c e = some r) (hf : canvasFc x c = v.oldFc) (hs : rateSwitch x v.oldFc e = false) :
    ∀ t, t = commitHalf c v listed x → txEp t c = e ∧ txv t c = true ∧ t.ot = x.ot ∧ t.twn.buffered = x.twn.buffered := by
  rintro t rfl
  unfold commitHalf
  dsimp only
  rw [he, hr]
  dsimp only
  generalize (if on x fld.canvasStatus.RESTING c = true then CommitKind.rest else if v.miss = true then CommitKind.miss else CommitKind.normal) = kind
  generalize (if kind = CommitKind.normal then List.filter (fun n => (unfinishedTiles x c e).contains n || listed.contains n) (List.range (tileCount x c)) else []) = unf
  generalize (if kind = CommitKind.normal then (fillsOf kind [] unf r.fills).length else 0) = filled
  generalize (if txv x c = true then some (txEp x c) else none) = prevE
  generalize (if txv x c = true then epochRec x c (txEp x c) else none) = prev
  have wy : Within (outside [.canvasCtrl] [.inForce, .ot, .tim, .twn]) x (freezeEpoch c e x) := within_freezeEpoch c e (by decide +kernel) (Within.refl x)
  generalize freezeEpoch c e x = y at wy ⊢
  have re : ((epochRec y c e).getD r).epoch = e := by
    cases h : epochRec y c e with
    | none => exact epochRec_epoch hr
    | some q => exact epochRec_epoch h
  generalize (epochRec y c e).getD r = r1 at re ⊢
  have z1 := (settleEpoch_epoch c kind r1 prev unf y).trans re
  have wz : Within (outside [.canvasCtrl] [.inForce, .ot, .tim, .twn]) x (reportUnfinished c unf (settleEpoch c kind r1 prev unf y).2) :=
    within_reportUnfinished c unf (by decide +kernel) (within_settleEpoch c kind r1 prev unf (by decide +kernel) wy)
  generalize settleEpoch c kind r1 prev unf y = z at z1 wz ⊢
  generalize reportUnfinished c unf z.2 = w at wz ⊢
  obtain ⟨-, m2, m3, -, m5, m6, m7, m8⟩ := movePointers_is c z.1 w
  rw [z1] at m2
  have m9 : (movePointers c z.1 w).twn = w.twn := (within_movePointers c z.1 (μ := outside [] [.twn]) (by decide +kernel) (Within.refl w)).twn (by decide +kernel)
  generalize movePointers c z.1 w = m at m2 m3 m5 m6 m7 m8 m9 ⊢
  generalize hn : (if v.miss = true then setBit fld.canvasEvent.CANVAS_EVENT 0 (put fld.canvasStatus.MISSRUN (get m fld.canvasStatus.MISSRUN c + 1) m c) c
    else put fld.canvasStatus.MISSRUN 0 m c) = n
  have wn : Within (outside [.txEpoch, .vatSlots, .canvasCtrl] [.inForce, .ot, .tim, .twn]) m n := by
    rw [← hn]
    exact Within.ite (within_setBit _ _ _ _ (by decide +kernel) (within_put _ _ _ _ (by decide +kernel) (Within.refl m))) (within_put _ _ _ _ (by decide +kernel) (Within.refl m))
  have wp : Within (outside [.txEpoch, .vatSlots, .canvasCtrl] [.inForce, .ot, .tim, .twn]) m (takeTmpls c n) := within_takeTmpls c (by decide +kernel) wn
  generalize takeTmpls c n = p at wp ⊢
  have fc : canvasFc p c = v.oldFc := by
    rw [← hf]
    refine eff_of ?_ ?_
    · exact (wp.inForce (by decide +kernel)).trans (m6.trans (wz.inForce (by decide +kernel)))
    · exact (wp.reg .canvasCtrl (by decide +kernel) _ _).trans ((m5 _ (by decide) _ _).trans (wz.reg .canvasCtrl (by decide +kernel) _ _))
  have po : p.ot = x.ot := (wp.ot (by decide +kernel)).trans (m7.trans (wz.ot (by decide +kernel)))
  have pt : p.tim = x.tim := (wp.tim (by decide +kernel)).trans (m8.trans (wz.tim (by decide +kernel)))
  have pw : p.twn = x.twn := (wp.twn (by decide +kernel)).trans (m9.trans (wz.twn (by decide +kernel)))
  have sw : rateSwitch p v.oldFc e = false := by
    rw [← hs]
    unfold rateSwitch
    rw [fclock_tim pt, po]
  have keeps : (canvasFc p c != v.oldFc || rateSwitch p v.oldFc e) = false := by rw [fc, sw]; simp
  rw [keeps]
  simp only [Bool.false_eq_true, if_false]
  generalize rmEp p c + BitVec.ofNat 32 (eff p fld.canvasCtrl.DEPTH c) - 2 = lim
  generalize hq : fixSlots c (releaseUp c 9 (withdrawAbove c lim p)) = q
  generalize ht : releaseCommitted c e (if on q fld.canvasEvtEn.EVT_EN_COMMIT c = true then raise 32 c q else q) = t
  obtain ⟨t1, t2, t3, t4⟩ := commitTail_leaves c lim e p q hq.symm t ht.symm
  obtain ⟨a1, a2, -, -⟩ := afterCommit_is c v prevE z.1 unf filled t _ rfl
  refine ⟨?_, ?_, a2.trans (t3.trans po), ?_⟩
  · exact (a1 .txEpoch (by decide) c 0).trans (t1.trans ((wp.reg .txEpoch (by decide +kernel) c 0).trans m2))
  · exact (on_of_rd (f := fld.vatSlots.TXV) (a1 .vatSlots (by decide) c 0)).trans (t2.trans ((wp.on fld.vatSlots.TXV (by decide +kernel) c).trans m3))
  · rw [afterCommit_held, t4, pw]

/-- With no shadowed write pending a commit takes none. -/
theorem commitEnv_none {x : State} {c : Nat} (hp : pendingRegs x c = []) (agree : Bool) :
    commitEnv c agree x = (⟨false, canvasFc x c, periodAt x (canvasFc x c) (rmEp x c), latchOf x c (rmEp x c), false, false⟩, x) := by
  have none_ : applyShadows c agree (periodAt x (canvasFc x c) (rmEp x c)) x = x := by
    unfold applyShadows
    dsimp only
    rw [hp, if_pos]
    cases agree <;> rfl
  unfold commitEnv
  dsimp only
  rw [none_, hp]
  rfl

/-- The commit that a COMMIT record calls for. -/
theorem commitAs_shows {u : State} {c : Nat} {e : W32} {r : EpochRec} (miss : Bool) (tiles : List W32) (he : rmEp u c = e) (hr : epochRec u c e = some r)
    (ho : r.committed = false) (hp : pendingRegs u c = []) (hs : rateSwitch u (canvasFc u c) e = false) : ∀ t, t = commitAs c miss tiles u →
    txEp t c = e ∧ txv t c = true ∧ t.ot = u.ot ∧ t.twn.buffered = u.twn.buffered := by
  rintro t rfl
  unfold commitAs
  generalize hx : fixSlots c (releaseUp c 9 (endCopies c u)) = x
  obtain ⟨x1, x2, x3, x4, x5, -, -⟩ := commit_begins c e r hr ho x hx.symm
  have xw : x.twn = u.twn := by
    rw [← hx]
    exact (within_fixSlots c (μ := outside [] [.twn]) (by decide +kernel) (within_releaseUp c 9 (by decide +kernel)
      (within_endCopies c (by decide +kernel) (Within.refl u)))).twn (by decide +kernel)
  have xp : pendingRegs x c = [] := by rw [← hp]; unfold pendingRegs; rw [x2]
  have xe : rmEp x c = e := (x5 .rmEpoch (by decide) _ _).trans he
  have xf : canvasFc x c = canvasFc u c := eff_of x2 (x5 .canvasCtrl (by decide) _ _)
  dsimp only
  rw [commitEnv_none xp]
  dsimp only
  generalize hy : (if (miss && (halves x c).head? == some c) = true then raise 33 c (bump .commitMiss x) else x) = y
  have wy : Within (outside [.rmEpoch, .canvasCtrl] [.vat, .inForce, .ot, .tim, .twn]) x y := by
    rw [← hy]
    exact Within.ite (within_raise 33 c (by decide +kernel) (within_bump _ (by decide +kernel) (Within.refl x))) (Within.refl x)
  have yf : canvasFc y c = canvasFc x c := eff_of (wy.inForce (by decide +kernel)) (wy.reg .canvasCtrl (by decide +kernel) _ _)
  have yr : epochRec y c e = epochRec x c e := by unfold epochRec; rw [show y.vat = x.vat from wy.vat (by decide +kernel)]
  have ys : rateSwitch y (canvasFc x c) e = false := by
    rw [← hs, xf]
    unfold rateSwitch
    rw [fclock_tim ((wy.tim (by decide +kernel)).trans x4), wy.ot (by decide +kernel), x3]
  obtain ⟨t1, t2, t3, t4⟩ := commitHalf_shows c ⟨miss, canvasFc x c, periodAt x (canvasFc x c) (rmEp x c), latchOf x c (rmEp x c), false, false⟩
    (tiles.map (fun t => t.toNat)) e _ ((wy.reg .rmEpoch (by decide +kernel) c 0).trans xe) (yr.trans x1) yf ys _ rfl
  exact ⟨t1, t2, t3.trans ((wy.ot (by decide +kernel)).trans x3), t4.trans (by rw [wy.twn (by decide +kernel), xw])⟩

/-- What a divergence noted leaves: TX and TWIN_CTRL, the role, the time and what is kept of the link. -/
theorem divergence_leaves (c : Nat) (e : W32) (s : State) : ∀ t,
    t = twinEvent 3 99 c (bump .diverges (wr .divergeEpoch e (put fld.divergeCanvas.DIVERGE_CANVAS c (put fld.twinStatus.DIVERGED 1 s)))) →
    Within (outside [.twinCtrl, .txEpoch, .vatSlots] [.ot, .twn]) s t ∧ role t = role s := by
  intro t ht
  have hp : role (put fld.twinStatus.DIVERGED 1 s) = role s :=
    get_put_fld fld.twinStatus.DIVERGED fld.twinStatus.ROLE 1 s 0 0 rfl (by decide) (by decide)
  have wp : Within (outside [.twinCtrl, .txEpoch, .vatSlots] [.ot, .twn]) s (put fld.twinStatus.DIVERGED 1 s) :=
    within_put _ _ _ _ (by decide +kernel) (Within.refl s)
  generalize put fld.twinStatus.DIVERGED 1 s = a at ht hp wp
  refine ⟨?_, (role_rd ?_).trans hp⟩
  · rw [ht]
    exact within_twinEvent _ _ _ (by decide +kernel) (within_bump _ (by decide +kernel)
      (within_wr _ _ _ _ (by decide +kernel) (within_put _ _ _ _ (by decide +kernel) wp)))
  · rw [ht, rd_twinEvent _ _ _ _ _ _ _ (by decide) (by decide) (by decide) (by decide), rd_bump, rd_wr_reg (by decide),
      rd_put_reg _ _ _ _ _ _ _ _ (by decide)]

/-- A digest judged leaves TX and the time, where it starts no copy. -/
theorem judgeDigest_leaves (c : Nat) (e d : W32) {s : State} (h : role s ≠ 5 ∨ on s fld.twinCtrl.AUTO_RESYNC = false) : ∀ t, t = judgeDigest c e d s →
    (∀ r ∈ [RegId.txEpoch, .vatSlots], ∀ i j, rd t r i j = rd s r i j) ∧ t.ot = s.ot ∧ t.twn.buffered = s.twn.buffered := by
  rintro t rfl
  unfold judgeDigest
  split
  · exact ⟨fun _ _ _ _ => rfl, rfl, rfl⟩
  · split
    · exact ⟨fun _ _ _ _ => rfl, rfl, rfl⟩
    · dsimp only
      generalize hy : ({ s with twn := { s.twn with runs := Map.put s.twn.runs c 0 } } : State) = y
      have hr : ∀ q i j, rd y q i j = rd s q i j := by rw [← hy]; exact fun _ _ _ => rfl
      have ho : y.ot = s.ot := by rw [← hy]
      have hb : y.twn.buffered = s.twn.buffered := by rw [← hy]
      generalize hz : twinEvent 3 99 c _ = z
      obtain ⟨wz, z2⟩ := divergence_leaves c e y z hz.symm
      have noCopy : (on z fld.twinCtrl.AUTO_RESYNC && role z == 5) = false := by
        have ha : on z fld.twinCtrl.AUTO_RESYNC = on s fld.twinCtrl.AUTO_RESYNC := (wz.on fld.twinCtrl.AUTO_RESYNC (by decide +kernel) 0).trans (on_of_rd (hr _ _ _))
        rw [ha, z2, role_rd (hr _ _ _)]
        obtain h | h := h <;> simp [h]
      rw [noCopy, if_neg Bool.false_ne_true]
      refine ⟨fun q hq i j => (wz.reg q ?_ i j).trans (hr _ _ _), (wz.ot (by decide +kernel)).trans ho, by rw [wz.twn (by decide +kernel), hb]⟩
      simp only [List.mem_cons, List.not_mem_nil, or_false] at hq
      obtain rfl | rfl := hq <;> decide +kernel

/-! ### The wait for tiles ends -/

/-- With no record held, what goes on is the look whether the device is in step. -/
theorem pump_quiet {s : State} (h : s.twn.buffered = []) : pump s = s ∨ pump s = instepCheck s := by
  unfold pump
  split
  · refine .inr ?_
    rw [h]
    show instepCheck { s with twn := { s.twn with buffered := [] } } = _
    rw [show ({ s with twn := { s.twn with buffered := [] } } : State) = s by rw [← h]]
  · exact .inl rfl

theorem pump_leaves {s : State} (h : s.twn.buffered = []) : ∀ t, t = pump s → txEp t = txEp s ∧ txv t = txv s ∧ t.ot = s.ot := by
  rintro t rfl
  rcases pump_quiet h with e | e
  · rw [e]
    exact ⟨rfl, rfl, rfl⟩
  · rw [e]
    have w := instepCheck_leaves s
    exact ⟨funext fun c => w.reg .txEpoch (by decide +kernel) c 0, funext fun c => w.on fld.vatSlots.TXV (by decide +kernel) c,
      w.ot (by decide +kernel)⟩

/-- The waiting COMMIT carried out for a running canvas whose head it names: TX is its epoch. -/
theorem commitWaiting_shows {u : State} {w : ShadowWait} {r : EpochRec} (hrun : canvasRuns u w.canvas = true) (he : rmEp u w.canvas = w.epoch)
    (hr : epochRec u w.canvas w.epoch = some r) (ho : r.committed = false) (hp : pendingRegs u w.canvas = [])
    (hs : rateSwitch u (canvasFc u w.canvas) w.epoch = false) (hq : role u ≠ 5 ∨ on u fld.twinCtrl.AUTO_RESYNC = false) :
    ∀ t, t = commitWaiting w u → txEp t w.canvas = w.epoch ∧ txv t w.canvas = true ∧ t.ot = u.ot ∧ t.twn.buffered = u.twn.buffered := by
  rintro t rfl
  unfold commitWaiting
  dsimp only
  generalize hx : ({ u with twn := { u.twn with wait := u.twn.wait.drop 1 } } : State) = x
  have xr : ∀ q i j, rd x q i j = rd u q i j := by rw [← hx]; exact fun _ _ _ => rfl
  have xv : x.vat = u.vat := by rw [← hx]
  have xf : x.inForce = u.inForce := by rw [← hx]
  have xt : x.tim = u.tim := by rw [← hx]
  have xo : x.ot = u.ot := by rw [← hx]
  have xb : x.twn.buffered = u.twn.buffered := by rw [← hx]
  have runs : canvasRuns x w.canvas = true := (on_of_rd (f := fld.canvasStatus.RUN) (xr _ _ _)).trans hrun
  have head : rmEp x w.canvas = w.epoch := (xr .rmEpoch _ _).trans he
  have recs : epochRec x w.canvas w.epoch = some r := by rw [← hr]; unfold epochRec; rw [xv]
  have pend : pendingRegs x w.canvas = [] := by rw [← hp]; unfold pendingRegs; rw [xf]
  have clock : canvasFc x w.canvas = canvasFc u w.canvas := eff_of xf (xr _ _ _)
  have rate : rateSwitch x (canvasFc x w.canvas) w.epoch = false := by
    rw [← hs, clock]
    unfold rateSwitch
    rw [fclock_tim xt, xo]
  rw [if_neg (by simp [runs, head])]
  obtain ⟨y1, y2, y3, y4⟩ := commitAs_shows w.miss w.tiles head recs ho pend rate _ rfl
  have wy : Within (outside [.twinStatus, .twinCtrl] []) x (commitAs w.canvas w.miss w.tiles x) :=
    within_commitAs _ _ _ (by decide +kernel) (Within.refl x)
  generalize commitAs w.canvas w.miss w.tiles x = y at y1 y2 y3 y4 wy ⊢
  have wz : Within (outside [.txEpoch, .vatSlots, .twinStatus, .twinCtrl] [.ot, .twn]) y (selActs y) :=
    within_selActs (by decide +kernel) (Within.refl y)
  generalize selActs y = z at wz ⊢
  have zq : role z ≠ 5 ∨ on z fld.twinCtrl.AUTO_RESYNC = false := by
    rw [wz.on fld.twinCtrl.AUTO_RESYNC (by decide +kernel) 0, wy.on fld.twinCtrl.AUTO_RESYNC (by decide +kernel) 0,
      role_rd (wz.reg .twinStatus (by decide +kernel) 0 0), role_rd (wy.reg .twinStatus (by decide +kernel) 0 0),
      on_of_rd (f := fld.twinCtrl.AUTO_RESYNC) (xr _ _ _), role_rd (xr _ _ _)]
    exact hq
  obtain ⟨t1, t2, t3⟩ := judgeDigest_leaves w.canvas w.epoch w.digest zq _ rfl
  generalize judgeDigest w.canvas w.epoch w.digest z = t at t1 t2 t3 ⊢
  refine ⟨?_, ?_, ?_, ?_⟩
  · exact (t1 .txEpoch (by decide) _ _).trans ((wz.reg .txEpoch (by decide +kernel) _ _).trans y1)
  · exact (on_of_rd (f := fld.vatSlots.TXV) (t1 .vatSlots (by decide) _ _)).trans ((wz.on fld.vatSlots.TXV (by decide +kernel) _).trans y2)
  · exact t2.trans ((wz.ot (by decide +kernel)).trans (y3.trans xo))
  · rw [t3, wz.twn (by decide +kernel), y4, xb]

/-- SHADOW_WAIT_EXPIRE: the commit is carried out, and TX is its epoch (R316). -/
theorem shadow_expires {s : State} (w : ShadowWait) (rest : List ShadowWait) (n c : Nat) (r : EpochRec) (u : State) (hw : s.twn.wait = w :: rest)
    (hb : s.twn.buffered = []) (hst : standby s = true) (hc : c = w.canvas) (hq : role s ≠ 5 ∨ on s fld.twinCtrl.AUTO_RESYNC = false)
    (hn : n = get s fld.twinCtrl.SHADOW_WAIT * fcPeriod s (canvasFc s c))
    (hu : u = advance (commitInst s c w.epoch) (advance (w.arrived + BitVec.ofNat 64 n) s)) (hrun : canvasRuns s c = true)
    (he : rmEp s c = w.epoch) (hr : epochRec s c w.epoch = some r) (ho : r.committed = false) (hp : pendingRegs s c = [])
    (hs : rateSwitch u (canvasFc s c) w.epoch = false) :
    ∃ t, exec .shadowWaitExpire s = .next t ∧ t.ot = u.ot ∧ txv t c = true ∧ txEp t c = w.epoch := by
  have ran : exec .shadowWaitExpire s = .next (pump (commitWaiting w u)) := by
    show execShadowWaitExpire s = _
    unfold execShadowWaitExpire
    rw [hw, hu, hn, hc]
    dsimp only
    rw [if_neg (by simp [hst])]
  subst hc
  have ur : ∀ q i j, rd u q i j = rd s q i j := rd_congr (by rw [hu, advance_regs, advance_regs])
  have uv : u.vat = s.vat := by rw [hu, advance_vat, advance_vat]
  have uf : u.inForce = s.inForce := by rw [hu, advance_frame, advance_frame]
  have ut : u.twn = s.twn := by rw [hu, advance_frame, advance_frame]
  have clock : canvasFc u w.canvas = canvasFc s w.canvas := eff_of uf (ur _ _ _)
  obtain ⟨y1, y2, y3, y4⟩ := commitWaiting_shows (u := u) (w := w) (r := r) ((on_of_rd (f := fld.canvasStatus.RUN) (ur _ _ _)).trans hrun)
    ((ur .rmEpoch _ _).trans he) (by rw [← hr]; unfold epochRec; rw [uv]) ho (by rw [← hp]; unfold pendingRegs; rw [uf])
    (by rw [clock]; exact hs) (by rw [role_rd (ur _ _ _), on_of_rd (f := fld.twinCtrl.AUTO_RESYNC) (ur _ _ _)]; exact hq) _ rfl
  generalize commitWaiting w u = y at ran y1 y2 y3 y4
  obtain ⟨t1, t2, t3⟩ := pump_leaves (s := y) (by rw [y4, ut, hb]) _ rfl
  exact ⟨_, ran, t3.trans y3, by rw [t2, y2], by rw [t1, y1]⟩

/-! ## The statement -/

/-- Settles O58, a lemma for each row: what holds a record, what each kind writes, the copy received, its end, its sending, and the end of the
wait for tiles. -/
theorem twinJournalWorks : Obligations.TwinJournalWorks := by
  unfold Obligations.TwinJournalWorks
  intro s
  refine ⟨fun i h x hx q hq => ?_, fun h hr hw hb hj => ⟨fun m c e d ts hc he hi => commit_waits hr hw hb hj m c e d ts hc he hi,
    fun id c tm v ver tg k hk hbad hki hv hn => change_enters hr hw hb hj id c tm v ver tg k hk hbad hki hv hn,
    fun off v fn k r i j ha ho hs hp => regw_writes hr hw hb hj off v fn k r i j ha ho hs hp,
    fun size base c w rest hf hwd hc hsz hbs => alloc_takes hr hw hb hj size base c w rest hf hwd hc hsz hbs,
    fun a d => memw_writes hr hw hb hj a d, fun n ver b o d => layer_writes hr hw hb hj n ver b o d,
    fun e st ss => epstate_writes hr hw hb hj e st ss, fun b f h5 hf => handover_sets hr hw hb hj b f h5 hf⟩,
    fun h l index d h3 hl => copy_writes h l index d h3 hl, fun h cpos h3 hl hf hb hw => copy_ends h cpos h3 hl hf hb hw,
    fun h2 hl => ⟨fun hc => copy_begins h2 hl hc, fun hc x rest hq => copy_continues h2 hl hc x rest hq⟩,
    fun w rest n c r u hw hb hst hc _ hq hn hu hrun he _ hr ho hp hs => shadow_expires w rest n c r u hw hb hst hc hq hn hu hrun he hr ho hp hs⟩
  obtain ⟨_, _, _, _, _, rfl, rfl⟩ | ⟨_, _, _, _, _, _, rfl, rfl⟩ | ⟨_, _, _, _, rfl, rfl⟩ | ⟨_, _, rfl, rfl⟩ | ⟨_, _, rfl, rfl⟩ |
    ⟨_, _, _, _, _, _, rfl, rfl⟩ | ⟨_, _, _, rfl, rfl⟩ | ⟨_, rfl, rfl⟩ := hx
  all_goals exact records_held rfl q hq

end Sys2Proof.Machine

/-!
Power and modes (O59): the two rows of memory power that have no law of their own, and the clauses of O59 put together from the
laws of modes and of power.
-/

namespace Sys2Proof.Machine

/-! ## Memory power in HOLD (R338) and the memory stack's temperature (R384) -/

/-- R338: in HOLD, HBM_SR_IDLE after the last access of frame memory, self-refresh begins; what frame memory holds stays. -/
theorem self_refreshes {s : State} (hm : mode s = 4) (ht : s.pwr.trans = none) (hr : s.pwr.selfRef = false) :
    ∃ t, exec .hbmSelfRefresh s = .next t ∧ t.pwr.selfRef = true ∧
      t.ot = timeAt s (s.pwr.memAt + BitVec.ofNat 64 (get s fld.hbmSrIdle.HBM_SR_IDLE * 1000)) ∧ t.fmem = s.fmem := by
  generalize hd : s.pwr.memAt + BitVec.ofNat 64 (get s fld.hbmSrIdle.HBM_SR_IDLE * 1000) = due
  have ran : exec .hbmSelfRefresh s = .next { advance due s with pwr := { (advance due s).pwr with selfRef := true } } := by
    show execHbmSelfRefresh s = _
    unfold execHbmSelfRefresh
    rw [hm, ht, hr, if_pos (by decide), hd]
  exact ⟨_, ran, rfl, advance_ot due s, by rw [advance_frame]⟩

/-- R384: outside SLEEP the crossing is kept, and nothing else changes. -/
theorem stack_temperature {s : State} (h0 : mode s ≠ 0) (above : Bool) :
    exec (.hbmStackTempCross above) s = .next { s with pwr := { s.pwr with hotHbm := above } } :=
  if_neg h0

/-! ## The statement -/

/-- Settles O59, clause by clause: requests, transitions and HOLD from the laws of modes; resets, the release, clocks, core voltage,
temperatures, wake and slow time from the laws of power. -/
theorem modesWork : Obligations.ModesWork := by
  intro s fn
  refine ⟨fun hw => ⟨fun hb ht => ⟨?request, ?sleep, ?safe⟩, fun hb => ?refused⟩, transitions, fun v u => hold_writes v u,
    self_refreshes, whole_resets, block_resets, release_held, ?release, ?clockHeld, ?clockLost, avs_commands, temperature,
    stack_temperature, wakes, slow_reads⟩
  case request => exact mode_requests hw hb ht
  case sleep => exact sleep_tests hw hb ht
  case safe => exact safe_requests hw hb ht
  case refused => exact mode_refused hw hb
  case release => exact fun b => releases b
  case clockHeld => exact fun n lost => clock_held n lost
  case clockLost => exact fun n lost => clock_losses n lost

end Sys2Proof.Machine

/-!
Boot and self-test (O60): its clauses put together from the laws of self-test and of calibration.
-/

namespace Sys2Proof.Machine

/-- Settles O60, clause by clause: boot images, blocks, sets and the rotation from the laws of self-test; the commands, OTP and the life
cycle, calibration, counters and tags from the laws of calibration. -/
theorem selfTestWorks : Obligations.SelfTestWorks := by
  intro s fn
  refine ⟨boot_goes, image_checks, fun b ran sig cnt _ => blocks_done b ran sig cnt, rotation_done, fun hw => ⟨?shutdown, ?stop⟩, rot_starts,
    rot_drains, otp_programs, lc_requests, cal_writes, counter_reads, counters_snap, tag_samples⟩
  case shutdown => exact shutdown_runs hw
  case stop => exact stop_ends hw

end Sys2Proof.Machine

/-!
The machine as a whole: the step takes the command at the front of the queue (O37), every command answers a next state and
leaves the queue alone (O39), and the state after reset (O40).
-/

namespace Sys2Proof.Machine

/-! ## The queue of commands -/

/-- Settles O37, by the arm of the step for a queue that is not empty. -/
theorem stepRunsTheFrontCommand : Obligations.StepRunsTheFrontCommand := fun _ _ _ => rfl

/-- Settles O39: the frame of every command gives the next state that it answers, and no command writes the queue. -/
theorem everyCommandAnswersANextState : Obligations.EveryCommandAnswersANextState := by
  intro i s
  obtain ⟨t, answers, -⟩ := within_exec i s
  exact ⟨t, answers, exec_pending answers⟩

/-! ## The state after reset (R373, Table 14-3) -/

section ColdStart

variable (m : Member) (pending : List Instr) (fmem hmem : List Host.Cell) (otp : Map W32) (fns : List Nat) (pwr : Pwr)
  (retained : Option Bool) (free : Nat)

/-- The reset value of PWR_MODE is BOOT (log 10). -/
@[simp] theorem mode_coldStart : mode (State.coldStart m pending fmem hmem otp fns pwr retained free) = 1 := by
  unfold mode get
  rw [rd_cold]
  decide

@[simp] theorem counter_coldStart (k : Nat) : counter (State.coldStart m pending fmem hmem otp fns pwr retained free) k = 0 := rfl

@[simp] theorem taskAt_coldStart (k : Nat) : taskAt (State.coldStart m pending fmem hmem otp fns pwr retained free) k = none := rfl

end ColdStart

/-- A byte that memory does not list reads zero (log 6). -/
@[simp] theorem memGet_nil (a : Nat) : memGet [] a = 0 := rfl

/-- Settles O40: reset is the cold start with both memories empty, of which every register reads its reset value and no counter,
task, allocation, layer or input is listed. -/
theorem resetState : Obligations.ResetState := by
  refine ⟨?mode, rfl, rfl, ?registers, ?counters, ?tasks, ?memories, rfl, rfl, rfl⟩
  case mode => exact mode_coldStart ..
  case registers => exact fun r i j => rd_cold _ _ _ _ _ _ _ _ _ r i j
  case counters => exact fun k => counter_coldStart (k := k) ..
  case tasks => exact fun k => taskAt_coldStart (k := k) ..
  case memories => exact fun a => ⟨memGet_nil a, memGet_nil a⟩

end Sys2Proof.Machine
